-- ==== Sys2Proof/Word.lean ====
section
/-! DEFINITION. Words and bytes (R5, R6): the register word, the Hammer word, and their plainest arithmetic. -/

namespace Sys2Proof

/-- A control-space word (R6, R9). -/
abbrev Word := BitVec 32

/-- A byte. -/
abbrev Byte := BitVec 8

/-- A word of a Hammer memory (R6). -/
abbrev HWord := BitVec 24

/-- A 48-bit NoC physical address (R42). -/
abbrev Addr := BitVec 48

/-- Bits `lo` up of a number, `width` of them. -/
def bitsOf (n lo width : Nat) : Nat := n / 2 ^ lo % 2 ^ width

/-- Bit `k` of a number. -/
def bitOf (n k : Nat) : Bool := n / 2 ^ k % 2 == 1

/-- 1 for true, 0 for false. -/
def natOf (b : Bool) : Nat := if b then 1 else 0

/-- A count that stops at its greatest value. -/
def satAdd (max a b : Nat) : Nat := Nat.min max (a + b)

/-- Sign-extend the low `w` bits of a number. -/
def signedOf (w n : Nat) : Int := if n % 2 ^ w < 2 ^ (w - 1) then (n % 2 ^ w : Nat) else (n % 2 ^ w : Nat) - (2 ^ w : Nat)

/-- The two's complement pattern of a signed number in `w` bits. -/
def patternOf (w : Nat) (i : Int) : Nat := (i % (2 ^ w : Nat)).toNat

end Sys2Proof
end

