-- ==== Sys2Proof/Syntax.lean ====
section
/-! DEFINITION. The commands the MO880 takes as a block, and the types of their operands. -/

namespace Sys2Proof

/-- The eight dies of R16. -/
inductive Die where
  | e0 | e1 | f0 | f1 | f2 | f3 | f4 | f5
  deriving DecidableEq, Repr

/-- The die index of R16. -/
def Die.idx : Die → Nat
  | .e0 => 0 | .e1 => 1 | .f0 => 2 | .f1 => 3 | .f2 => 4 | .f3 => 5 | .f4 => 6 | .f5 => 7

/-- The die with an index; the index is taken modulo 8. -/
def Die.ofIdx (n : Nat) : Die :=
  match n % 8 with
  | 0 => .e0 | 1 => .e1 | 2 => .f0 | 3 => .f1 | 4 => .f2 | 5 => .f3 | 6 => .f4 | _ => .f5

/-- A fabric die (R21). -/
def Die.isFab (d : Die) : Bool := decide (2 ≤ d.idx)

/-- A port die (R21). -/
def Die.isPort (d : Die) : Bool := decide (d.idx < 2)

/-- Every die, in the order of R16. -/
def Die.all : List Die := [.e0, .e1, .f0, .f1, .f2, .f3, .f4, .f5]

/-- The port dies. -/
inductive PDie where
  | e0 | e1
  deriving DecidableEq, Repr

/-- A port die as a die. -/
def PDie.die : PDie → Die
  | .e0 => .e0 | .e1 => .e1

/-- The fabric dies. -/
inductive FDie where
  | f0 | f1 | f2 | f3 | f4 | f5
  deriving DecidableEq, Repr

/-- A fabric die as a die. -/
def FDie.die : FDie → Die
  | .f0 => .f0 | .f1 => .f1 | .f2 => .f2 | .f3 => .f3 | .f4 => .f4 | .f5 => .f5

/-- What a cell receives: A1 (bit 0) to A6, X and Y (R70). -/
structure CellIn where
  a : BitVec 6
  x : Bool
  y : Bool
  deriving DecidableEq, Repr

/-- An access at an enabled block RAM port: ADDR, WE, DIN, RSTO (R105). A write of a ×64 block takes WE and DIN of port A and then, above
them, those of port B (R106). -/
structure BramAccess where
  addr : BitVec 12
  we : BitVec 8
  din : BitVec 64
  rsto : Bool
  deriving DecidableEq, Repr

/-- A source of clock nets of a fabric die (R94, R95): an output of a fabric PLL, the fabric reference, a fabric clock entry point, or a
regional entry point of a parcel. -/
inductive ClkSrc where
  | pll (n out : Fin 4)
  | reference
  | entry (n : Fin 8)
  | parcelEntry (parcel : Fin 16) (n : Fin 4)
  deriving DecidableEq, Repr

/-- What the outside of a fabric die's routing presents: a level at a user I/O pin, none where nobody drives it, or a signal of a
parcel's fabric ports and stroke port (R550, R147). -/
inductive FabInput where
  | pin (n : Fin 96) (level : Option Bool)
  | port (parcel : Fin 16) (n : BitVec 16) (level : Bool)
  deriving DecidableEq, Repr

/-- What a multiply block receives on an edge (R118 to R120). -/
structure MultIn where
  a : BitVec 26
  d : BitVec 26
  b : BitVec 20
  c : BitVec 48
  psub : Bool
  msub : Bool
  zsel : BitVec 2
  deriving DecidableEq, Repr

/-- A request of the Lumkeom network as its REQ flit or DAT request flit carries it (R134). -/
structure NocReq where
  src : BitVec 12
  tag : BitVec 10
  gen : BitVec 4
  cls : BitVec 2
  op : BitVec 5
  size : BitVec 3
  alloc : Bool
  icls : BitVec 3
  addr : BitVec 48
  /-- Write data of the line's bytes from the address up, little-endian. -/
  data : BitVec 512
  /-- Byte enables of a write, from the address up. -/
  be : BitVec 64
  /-- The target, and the reservation entry of class X, as the initiator puts them into the flit. -/
  tgt : BitVec 12
  xent : BitVec 8
  deriving DecidableEq, Repr

/-- A flit (R125, R134): its network, 0 REQ, 1 RSP, 2 SNP, 3 DAT; whether a DAT flit carries a request, which the layouts do not show
(DESIGN CHOICE, log entry 191); and its bits. -/
structure Flit where
  net : BitVec 2
  request : Bool
  bits : BitVec 1024
  deriving DecidableEq, Repr

/-- A fence of the network (R159, R160, R511): around a parcel, held by a die toward a neighbour, or in front of a gateable domain of a fabric
die, 0 to 7 a core and 8 the hearth. -/
inductive FenceId where
  | parcel (die : FDie) (p : Fin 16)
  | die (holder : Die) (toward : Die)
  | domain (die : FDie) (n : Fin 9)
  deriving DecidableEq, Repr

/-- The requests a home directory sees (R151). -/
inductive HomeOp where
  | rdShd | rdUnq | evict | wrBack | rd | wr | atomic
  /-- A WR_BACK of whose data a word is uncorrectable where it leaves the network (R135). -/
  | wrBackBad
  deriving DecidableEq, Repr

/-- What answers a snoop (R152, R153). -/
inductive SnoopAnswer where
  | ack | ackData | dieDown | fenced
  /-- SNP_ACK_DATA, of whose data a word is uncorrectable where it leaves the network (R135). -/
  | ackDataBad
  deriving DecidableEq, Repr


/-- The load slots of the MAC layout (R299): width field, X slot register and mode, Y slot register (I4 up) and mode. -/
structure Slots where
  w : BitVec 2
  xi : Fin 4
  xm : BitVec 2
  yi : Fin 4
  ym : BitVec 2
  deriving DecidableEq, Repr

/-- The address of a load, store or accumulator-memory operand (R299): Ik, mode and immediate. -/
structure MemArg where
  i : Fin 8
  mode : BitVec 2
  imm : BitVec 15
  deriving DecidableEq, Repr

/-- Which Hammer core. -/
structure CoreId where
  die : FDie
  k : Fin 8
  deriving DecidableEq, Repr


/-- Which staged release (R210, R226, R33, R235): of a full image, of one returning die, of a partial load, of a parcel that
powers up. -/
inductive RelKind where
  | full
  | die (d : Die)
  | partialLoad
  | power (d : FDie) (p : Fin 16)
  deriving DecidableEq, Repr

/-- Where a configuration upset strikes (R246, R261): a bit of a stored frame (0 to 4,095 data, 4,096 to 4,111 SYND, 4,112 to
4,143 CRC), or a bit of one copy of SCR_CTRL, SCR_ACTION or SCR_LAP_LIMIT. -/
inductive UpsetAt where
  | frame (d : Die) (frame : BitVec 16) (bit : Fin 4144)
  | setting (d : Die) (reg copy : Fin 3) (bit : Fin 32)
  deriving DecidableEq, Repr

/-- A frame packet (R195): ADDR, DATA, SYND, its six zero bytes, CRC. -/
structure Packet where
  addr : BitVec 32
  data : BitVec 4096
  synd : BitVec 16
  pad : BitVec 48
  crc : BitVec 32
  deriving DecidableEq, Repr

/-- A register that shares out the packet buffer (R390): PKT_Q_MIN of a queue, or PKT_PORT_HDRM of a port. -/
inductive PoolAt where
  | min (queue : BitVec 16)
  | hdrm (port : Fin 48)
  deriving DecidableEq, Repr

/-- What the read of a memory line finds (R449, R483, R484): no error, a corrected error, an uncorrectable error, a failed data
tag, or a failed counter line (level 0) or node above the line. -/
inductive MemCheck where
  | good | corrected | bad | tag
  | node (level : Fin 16)
  deriving DecidableEq, Repr

/-- What ends a PCIe read of a host ring badly (R465), or does not. -/
inductive PcieEnd where
  | ok | unsupported | abort | poisoned
  deriving DecidableEq, Repr

/-- A register of a pending setting (R60, R62): PWR_PL_NEXT of a die, STK_TIMING_NEXT, LAN_QUAD_RATE_NEXT of a quad,
PKT_Q_SCHED_NEXT of a queue, PKT_GRP_NEXT of a port. -/
inductive PendAt where
  | level (d : Die)
  | timing
  | quad (d : PDie) (q : Fin 12)
  | weight (d : PDie) (queue : BitVec 16)
  | group (d : PDie) (port : Fin 48) (k : Fin 4)
  deriving DecidableEq, Repr

/-- The newest valid copy of the calibration partition (R545): its sector, generation and BENCH bit, and its pairs: the address that
each names in the control space, and its data. -/
structure CalCopy where
  sector : BitVec 8
  gen : BitVec 32
  bench : Bool
  pairs : List (Addr × Word)
  deriving DecidableEq, Repr

/-- Who writes the configuration image window (R213). -/
inductive WinSrc where
  | management | pcie
  /-- A debug access, a fabric port, a Hammer core or its tongs, or any other initiator. -/
  | other
  deriving DecidableEq, Repr

/-- The commands the block takes: one constructor per row of spec/opcode_table.json. A Hammer instruction is the issue of that
instruction on one core. -/
inductive Instr where
  /-- `REGISTER_WRITE` (R12): A write to a register field that has no row of its own takes effect by its access type. `icls` is the initiator class of the writer. -/
  | registerWrite (die : Die) (offset value : Word) (icls : BitVec 3)
  /-- `ISLAND_START` (R516): VAUX becomes good and the management island starts on the RC oscillator, answering only MGT, REC and PWR_RAIL. -/
  | islandStart
  /-- `POWER_ON_RESET_RELEASE` (R516): Every rail is good with CFG_PROG_N high, so the package power-on reset is released and a full load begins. The straps as sampled (R200, R552). -/
  | powerOnResetRelease (mode : BitVec 3) (pull : Bool)
  /-- `DIE_RESET_REQUEST` (R31): A keyed write of DIE_RESET_REQ requests a DIE reset of each named die. Bit n of `dies` names the die with index n; `debug`: a debug session at the full level writes. -/
  | dieResetRequest (key dies : BitVec 8) (debug : Bool)
  /-- `DIE_RESET_RELEASE` (R33): After the hold time or rail good and 0.75 V reached, the die's reset is released and it is RETURNING. -/
  | dieResetRelease (die : Die)
  /-- `DIE_CLOCK_LOSS` (R32): A watched die returns no clock edge for 1 µs and is isolated as DOWN_CLOCK. -/
  | dieClockLoss (die : Die)
  /-- `STROKE` (R48): The stroke generator counts out PERIOD time-clock cycles and marks a stroke on every die. `late` are the units that overrun: 8 to 23 stroke ports, 24 the express walk. -/
  | stroke (late : List (Die × Fin 25))
  /-- `PTP_LOCK_REQUEST` (R55): A write of STK_CTRL.PTP_LOCK asks to lock the stroke to PTP time, refused unless the conditions hold. -/
  | ptpLockRequest (lock : Bool)
  /-- `UNIT_ARM` (R61): A write of STK_UNIT_CTRL.ARM arms unit slots, each checking its pending setting. -/
  | unitArm (die : Die) (arm : BitVec 16)
  /-- `PENDING_SETTING_WRITE` (R62): A write to a unit's pending setting while it is armed clears its ARM bit. -/
  | pendingSettingWrite (place : PendAt) (value : Word)
  /-- `CHANGE_GO` (R63): STK_CHG_CTRL.GO opens an armed change, which waits for the next heat boundary. -/
  | changeGo
  /-- `CHANGE_CANCEL` (R65): STK_CHG_CTRL.CANCEL ends a waiting change as ABORTED, or is ignored at or after the commit point. -/
  | changeCancel
  /-- `UNIT_APPLY_REPORT` (R63): A unit reports success with APPLIED, or failure and reverts. -/
  | unitApplyReport (die : Die) (slot : Fin 16) (ok : Bool)
  /-- `RAIL_CONTENTION` (R89): Two drivers enabled on a rail for over 300 ps disable the rail, flag and count it. -/
  | railContention (die : FDie) (rail : Fin 24576)
  /-- `RAIL_FLAG_CLEAR` (R90): Writing 1 to a rail flag in CFG_RAIL_DATA re-enables that rail's drivers. -/
  | railFlagClear (die : FDie) (group : Fin 768) (mask : BitVec 32)
  /-- `RAIL_CLEAR_ALL` (R90): CFG_RAIL_CLR.ALL clears every rail flag of the die. -/
  | railClearAll (die : FDie)
  /-- `BRAM_READ` (R107): A block RAM port read returns checked data with SBE and DBE after its latency. `other` is the access of the other port on the same edge. -/
  | bramRead (die : FDie) (block : Fin 2112) (portB : Bool) (addr : BitVec 12) (rsto : Bool) (other : Option BramAccess)
  /-- `BRAM_WRITE` (R108): A full-word block RAM write stores data with fresh check bits, resolving collisions. -/
  | bramWrite (die : FDie) (block : Fin 2112) (portB : Bool) (access : BramAccess) (other : Option BramAccess)
  /-- `BRAM_NARROW_WRITE` (R110): A narrow write read-merge-writes its internal word within one port cycle. -/
  | bramNarrowWrite (die : FDie) (block : Fin 2112) (portB : Bool) (access : BramAccess) (other : Option BramAccess)
  /-- `NOC_REQUEST_ISSUE` (R138): An initiator issues a request, refused by the first point on its path that refuses it. The tag's generation is the initiator's own. -/
  | nocRequestIssue (r : NocReq)
  /-- `CLASS_X_PACER_RELEASE` (R144): The pacer releases a waiting class X request flit, admitting the transaction. -/
  | classXPacerRelease (src : BitVec 12)
  /-- `FLIT_ARRIVAL` (R130): A flit arrives at a router, is checked, and is switched toward its lookahead port. `free`: the flit's output port is free in this cycle. -/
  | flitArrival (die : Die) (row col : Fin 8) (inPort : Fin 5) (flit : Flit) (free : Bool)
  /-- `NOC_TARGET_REQUEST` (R136): A request reaches its target, which performs it, including atomics, and responds. `check` is what the read of a DDR5 line finds. -/
  | nocTargetRequest (r : NocReq) (check : MemCheck) (badEcc : Bool)
  /-- `NOC_RESPONSE_ARRIVAL` (R156): A response reaches its initiator and is accepted if its tag and generation match an issued tag. `resp` is the responder; `ns` the round trip since admission. -/
  | nocResponseArrival (dst : BitVec 12) (tag : BitVec 10) (gen : BitVec 4) (resp : BitVec 12) (status : BitVec 4) (data : BitVec 512) (badEcc : Bool) (ns : BitVec 32)
  /-- `NOC_TIMEOUT` (R156): A transaction's age reaches its class limit and TIMEOUT is delivered; the tag goes STALE. -/
  | nocTimeout (src : BitVec 12) (tag : BitVec 10)
  /-- `STALE_TAG_RELEASE` (R156): A further full limit after a timeout returns a stale tag to FREE. -/
  | staleTagRelease (src : BitVec 12) (tag : BitVec 10)
  /-- `FABRIC_PORT_INITIATOR_REQUEST` (R147): User logic presents a request on a fabric initiator port. -/
  | fabricPortInitiatorRequest (die : FDie) (parcel port : Fin 16) (user : BitVec 6) (op : BitVec 5) (cls : BitVec 2) (size : BitVec 3) (alloc : Bool) (addr : BitVec 48) (data : BitVec 512) (be : BitVec 64)
  /-- `FABRIC_PORT_TARGET_RESPONSE` (R148): User logic answers a target request by port tag; late answers are dropped. -/
  | fabricPortTargetResponse (die : FDie) (parcel port : Fin 16) (ptag : BitVec 6) (status : BitVec 4) (data : BitVec 512)
  /-- `DIE_CACHE_REQUEST` (R150): A request to CXL or DDR5 memory reaches its die-cache slice, which serves a hit or fills on a miss. `victim` is the line that a fill pushes out of its set. -/
  | dieCacheRequest (r : NocReq) (victim : Option (BitVec 42))
  /-- `HOME_DIRECTORY_REQUEST` (R151): The home directory acts on a request, snooping holders, before serving it. `die` none is an uncached path; `full` is the entry that a full set gives up. -/
  | homeDirectoryRequest (op : HomeOp) (die : Option FDie) (line : BitVec 42) (full : Option (BitVec 42))
  /-- `SNOOP_RECEIVED` (R152): A die cache answers a snoop with SNP_ACK or SNP_ACK_DATA. `op`: 0 SNP_INV, 1 SNP_DOWN, 2 SNP_FLUSH. -/
  | snoopReceived (die : FDie) (line : BitVec 42) (op : Fin 3)
  /-- `SNOOP_ACK_ARRIVAL` (R153): A snoop acknowledgement, or DIE_DOWN or FENCED, reaches the home and counts as answered. -/
  | snoopAckArrival (line : BitVec 42) (die : FDie) (answer : SnoopAnswer)
  /-- `HOME_DOWN_WALK_STEP` (R153): The home's background walk after a die goes down drops stale records and poisons exclusive lines. -/
  | homeDownWalkStep (line : BitVec 42)
  /-- `DIE_CACHE_FLUSH` (R154): NOC_DC_CMD.FLUSH starts writing back dirty lines and invalidating the cache. -/
  | dieCacheFlush (die : FDie)
  /-- `DIE_CACHE_FLUSH_DONE` (R154): The flush completes and BUSY clears. -/
  | dieCacheFlushDone (die : FDie)
  /-- `FENCE_DRAINED` (R159): Nothing is outstanding across a draining fence, which becomes CLOSED and the waiting mechanism proceeds. -/
  | fenceDrained (fence : FenceId)
  /-- `NOC_FENCE_LIMIT` (R159): The drain limit expires; owed responses are synthesised as FENCED and the fence closes. -/
  | nocFenceLimit (fence : FenceId)
  /-- `WELD_FLIT_START` (R171): At a data slot the sender starts the next flit from a pool with credit, class X first. -/
  | weldFlitStart (die : Die) (ch : Fin 88)
  /-- `WELD_DATA_GROUP` (R167): A data group arrives and is accepted in order or discarded for CRC or sequence. -/
  | weldDataGroup (die : Die) (ch : Fin 88) (group : BitVec 256)
  /-- `WELD_CONTROL_GROUP` (R168): A control group arrives carrying ACK_SEQ, NAK and credits; a NAK starts a replay. -/
  | weldControlGroup (die : Die) (ch : Fin 88) (group : BitVec 256)
  /-- `WELD_REPLAY_REQUEST` (R169): A v2 replay-request group arrives and the sender replays from the expected SEQ. -/
  | weldReplayRequest (die : Die) (ch : Fin 88) (group : BitVec 256)
  /-- `WELD_REPLAY_LIMIT` (R175): A data group replayed 8 times without acceptance puts the end into RETRAIN. -/
  | weldReplayLimit (die : Die) (ch : Fin 88)
  /-- `WELD_CONTROL_LOSS` (R175): No control group accepted for 1 µs puts the end into RETRAIN. -/
  | weldControlLoss (die : Die) (ch : Fin 88)
  /-- `WELD_RETRAIN_DONE` (R175): A retrain ends and the link resumes from the last acknowledged group, or fails. Failing wires received by the lower and the higher die; `works`: deskew. -/
  | weldRetrainDone (ch : Fin 88) (low high : BitVec 68) (works : Bool)
  /-- `WELD_RECEIVER_LOCK` (R174): Both receivers lock and PRBS31 testing of every wire starts. -/
  | weldReceiverLock (ch : Fin 88)
  /-- `WELD_CLOCK_LOCK_TIMEOUT` (R176): A forwarded clock not locked within 10 µs fails the channel. -/
  | weldClockLockTimeout (ch : Fin 88)
  /-- `WELD_PRBS_DONE` (R174): The wire test ends and the repair map is set, writing record 1 if none exists. Failing wires received by the lower and the higher die. -/
  | weldPrbsDone (ch : Fin 88) (low high : BitVec 68)
  /-- `WELD_DESKEW_DONE` (R174): Deskew and group alignment complete and control groups start exchanging versions. -/
  | weldDeskewDone (ch : Fin 88) (works : Bool)
  /-- `WELD_TRAINING_DONE` (R174): Both ends reach the end of training, the channel is UP and the fence to the other die opens. -/
  | weldTrainingDone (ch : Fin 88)
  /-- `RETRAIN` (R175): WLD_CH_CMD.RETRAIN requests a retrain of the channel. -/
  | retrain (die : Die) (ch : Fin 88)
  /-- `REMAP` (R174): WLD_CH_CMD.REMAP requests a full training with traffic held. -/
  | remap (die : Die) (ch : Fin 88)
  /-- `COMMIT_MAP` (R165): A keyed COMMIT_MAP writes the map in force as the next OTP record. -/
  | commitMap (die : Die) (ch : Fin 88) (key : BitVec 8)
  /-- `SEAM_UNLOCK` (R185): A MESO seam group whose clock stops or changes unlocks and presents clamp values. -/
  | seamUnlock (die : Die) (edge : Fin 11) (group : Fin 88)
  /-- `SEAM_RELOCK` (R185): A MESO group relocks once both clocks run at one frequency and the clamp drops. -/
  | seamRelock (die : Die) (edge : Fin 11) (group : Fin 88)
  /-- `EDGE_TEMPERATURE_CHECK` (R189): Every 1 ms E0 computes each edge's temperature difference. -/
  | edgeTemperatureCheck
  /-- `CFG_PROG_N_LOW` (R201): The filter accepts a low CFG_PROG_N, taking outputs to high impedance and overriding any load. -/
  | cfgProgNLow
  /-- `CFG_PROG_N_RISE` (R201): CFG_PROG_N rises after an accepted low and a full load starts. The straps as sampled (R200, R552). -/
  | cfgProgNRise (mode : BitVec 3) (pull : Bool)
  /-- `LOAD_PRIMARY` (R209): A keyed CFG_CMD LOAD_PRIMARY starts a full load from the primary partition. -/
  | loadPrimary (key : BitVec 8)
  /-- `LOAD_FALLBACK` (R209): A keyed CFG_CMD LOAD_FALLBACK starts a full load from the fallback partition. -/
  | loadFallback (key : BitVec 8)
  /-- `ACCEPT_STREAM` (R213): CFG_CMD ACCEPT_STREAM opens a stream through the image window. -/
  | acceptStream
  /-- `FLASH_HEADER_READ` (R203): The header read at 25 MHz completes and is checked in the order of R205. Byte i of the header in bits 8i to 8i + 7. -/
  | flashHeaderRead (header : BitVec 2048)
  /-- `LOAD_PREPARATION_DONE` (R204): With fences drained, GSR asserts, cores reset, DDR5 self-refreshes and lanes go idle. -/
  | loadPreparationDone
  /-- `FLASH_SETUP_RECORD` (R203): A flash setup record is performed, then its wait runs. -/
  | flashSetupRecord
  /-- `FLASH_HEADER_REREAD` (R203): The header read again in 8D-8D-8D is compared with the first read. -/
  | flashHeaderReread (header : BitVec 2048)
  /-- `ENTRY_TABLE_RECEIVED` (R205): The reservation entry table is received and checked under R140 and R142. The table with its padding (R192). -/
  | entryTableReceived (bytes : List Byte)
  /-- `FRAME_PACKET` (R206): A frame packet arrives, is checked and written to configuration memory. -/
  | framePacket (packet : Packet)
  /-- `FRAME_REREAD` (R206): A packet failing CRC or SYND from flash is read again and written if it passes. -/
  | frameReread (packet : Packet)
  /-- `RELEASE_STAGE_OUTPUTS` (R210): After GAP0, outputs follow the design, fences open, clamps drop, rails and the reservation table take effect. -/
  | releaseStageOutputs (kind : RelKind)
  /-- `RELEASE_STAGE_WRITE_ENABLES` (R210): After GAP1, block RAM writes and fabric-port requests are enabled. -/
  | releaseStageWriteEnables (kind : RelKind)
  /-- `RELEASE_STAGE_RESETS` (R210): After GAP2, GSR is released, block RAM reads enabled and Hammer cores leave reset. -/
  | releaseStageResets (kind : RelKind)
  /-- `CFG_DONE` (R210): One cycle after stage 3 of a full load, CFG_DONE goes high and the status becomes DONE. -/
  | cfgDone
  /-- `IMAGE_WINDOW_WRITE` (R213): A write to the configuration image window passes image bytes to the master or is discarded. `offset` counts from 0x4000_0000 of the window. -/
  | imageWindowWrite (src : WinSrc) (offset : BitVec 28) (bytes : List Byte)
  /-- `STREAM_STALL_TIMEOUT` (R213): A stream that receives no byte for 10 s ends with STREAM_BAD. -/
  | streamStallTimeout
  /-- `CFG_IN` (R212): A CFG_IN Update-DR passes four image bytes to the master, subject to authorisation. -/
  | cfgIn (value : Word)
  /-- `TEST_PORT_CFG_CMD` (R212): A CFG_CMD Update-DR writes CFG_CMD through the test port when allowed. -/
  | testPortCfgCmd (value : Word)
  /-- `CFG_STAT` (R212): CFG_STAT Capture-DR loads CFG_STATUS. -/
  | cfgStat
  /-- `IDCODE` (R212): IDCODE captures the identification code of the part. -/
  | idcode
  /-- `EXTEST` (R212): EXTEST drives pins from the boundary-scan register. The bits shifted into the boundary-scan register. -/
  | extest (bits : List Bool)
  /-- `SAMPLE_PRELOAD` (R212): SAMPLE/PRELOAD captures or preloads the boundary-scan register. -/
  | samplePreload (bits : List Bool)
  /-- `BYPASS` (R212): BYPASS selects the one-bit bypass register. -/
  | bypass
  /-- `CFG_READ` (R321): A CFG_READ Update-DR names a frame for readback at the observe level. -/
  | cfgRead (value : Word)
  /-- `CFG_READ_CAPTURE` (R321): Each CFG_READ Capture-DR returns the next word of the named frame. -/
  | cfgReadCapture
  /-- `CALIBRATION_APPLY` (R545): At start E0 reads the calibration partition and applies the user set of the newest valid copy. `flash`: it responds; `keys`: the key store's health test passes. -/
  | calibrationApply (flash keys : Bool) (copy : Option CalCopy)
  /-- `PARTIAL_LOAD_ABORT` (R229): PRC_LOAD_CTRL.ABORT before the commit point starts blanking the targets; later it is ignored. `hold` is HOLD as the same write gives it. -/
  | partialLoadAbort (die : FDie) (hold : Bool)
  /-- `BLANKING_DONE` (R229): Blanking ends leaving the targets BLANK in the abort state. -/
  | blankingDone
  /-- `PARCEL_POWER_DOWN` (R235): PRC_PG_CTRL.DOWN requests power-down of a parcel from the next stroke. `up` are parcels named in UP by the same write. -/
  | parcelPowerDown (die : FDie) (down up : BitVec 16)
  /-- `PARCEL_SWITCH_OPEN` (R235): 2 µs after the parcel is held, its power switches open and it is GATED. -/
  | parcelSwitchOpen (die : FDie) (parcel : Fin 16)
  /-- `PARCEL_POWER_UP` (R235): PRC_PG_CTRL.UP closes a gated parcel's power switches. -/
  | parcelPowerUp (die : FDie) (up : BitVec 16)
  /-- `PARCEL_SUPPLY_GOOD` (R235): The parcel supply is good and every block RAM word starts being zeroed. -/
  | parcelSupplyGood (die : FDie) (parcel : Fin 16)
  /-- `PARCEL_BRAM_CLEARED` (R235): Block RAM zeroing completes and the parcel waits for the next heat boundary. -/
  | parcelBramCleared (die : FDie) (parcel : Fin 16)
  /-- `CAPTURE_REQUEST` (R241): PRC_CAP_CTRL.REQ requests a capture of a parcel at the next stroke. -/
  | captureRequest (die : FDie) (parcel : Fin 16) (freeze : Bool)
  /-- `CAPTURE_COPY_DONE` (R241): The copy ends, PRC_CAP_STAT records the stroke and heat, and PRC_CAPTURE is raised. -/
  | captureCopyDone (die : FDie)
  /-- `CAPTURE_RESUME` (R241): PRC_CAP_CTRL.RESUME opens the clock gates of a frozen parcel. -/
  | captureResume (die : FDie)
  /-- `SCRUB_FRAME_CHECK` (R246): The scrubber checks one frame and tries the candidate corrections. `lap` is the lap time in µs, used at a lap's end. -/
  | scrubFrameCheck (die : Die) (lap : BitVec 32)
  /-- `PRIO_LAP` (R253): SCR_CMD.PRIO_LAP requests a priority lap on the die. -/
  | prioLap (die : Die)
  /-- `SCRUBBER_ENABLE` (R252): A write of SCR_CTRL.EN stops the scrubber or starts a new lap at frame 0. -/
  | scrubberEnable (die : Die) (en : Bool)
  /-- `REPAIR_HEADER_READ` (R258): With the flash free, the master reads the partition header and compares its identity. -/
  | repairHeaderRead (die : FDie) (header : BitVec 2048)
  /-- `REPAIR_PACKET_READ` (R258): The frame's packet is read from flash, checked and sent to the die. -/
  | repairPacketRead (die : FDie) (packet : Packet)
  /-- `REPAIR_FRAME_WRITTEN` (R258): The repaired frame is written and checked again, and SCR_REPAIRED is raised if clean. -/
  | repairFrameWritten (die : FDie)
  /-- `REPAIR_TIMEOUT` (R259): A repair not complete 1 s after its start fails. -/
  | repairTimeout (die : FDie)
  /-- `IDLE` (R305): IDLE stops issue until an enabled line is pending. -/
  | hIdle (c : CoreId)
  /-- `NOP` (R299): NOP does nothing. -/
  | hNop (c : CoreId)
  /-- `WAIT_STROKE` (R308): WAIT_STROKE ends an open stroke task or waits for the next stroke. -/
  | hWaitStroke (c : CoreId)
  /-- `SYNC` (R268): SYNC stalls the core until every window store is answered. -/
  | hSync (c : CoreId)
  /-- `BKPT` (R330): BKPT halts the core, or executes as NOP without a halt-level session. -/
  | hBkpt (c : CoreId)
  /-- `B` (R287): B branches after two delay slots. -/
  | hB (c : CoreId) (target : BitVec 15)
  /-- `BC` (R287): BC branches on a condition of SR after two delay slots. -/
  | hBc (c : CoreId) (cond : BitVec 4) (target : BitVec 15)
  /-- `CALL` (R288): CALL pushes the return address and branches. -/
  | hCall (c : CoreId) (target : BitVec 15)
  /-- `RET` (R288): RET pops the return stack and branches. -/
  | hRet (c : CoreId)
  /-- `RTI` (R304): RTI returns from an interrupt and restores the shadow flags. -/
  | hRti (c : CoreId)
  /-- `RPT` (R289): RPT repeats the next instruction n times. -/
  | hRpt (c : CoreId) (fromX : Bool) (count : BitVec 16)
  /-- `LOOP` (R290): LOOP repeats the next len instructions n times. `len` is the field len − 1. -/
  | hLoop (c : CoreId) (fromX : Bool) (count : BitVec 16) (len : BitVec 6)
  /-- `MOVS` (R265): MOVS moves a special register to or from an X register. -/
  | hMovs (c : CoreId) (toSpecial : Bool) (code : BitVec 6) (x : Fin 16)
  /-- `MOV` (R274): MOV copies an X register. -/
  | hMov (c : CoreId) (xd xs : Fin 16)
  /-- `ADD` (R274): ADD adds with wrap and sets flags. -/
  | hAdd (c : CoreId) (xd xs xt : Fin 16)
  /-- `ADDS` (R274): ADDS adds with saturation. -/
  | hAdds (c : CoreId) (xd xs xt : Fin 16)
  /-- `SUB` (R274): SUB subtracts with wrap. -/
  | hSub (c : CoreId) (xd xs xt : Fin 16)
  /-- `SUBS` (R274): SUBS subtracts with saturation. -/
  | hSubs (c : CoreId) (xd xs xt : Fin 16)
  /-- `CMP` (R274): CMP compares and sets flags. -/
  | hCmp (c : CoreId) (xs xt : Fin 16)
  /-- `AND` (R274): AND forms the bitwise and. -/
  | hAnd (c : CoreId) (xd xs xt : Fin 16)
  /-- `OR` (R274): OR forms the bitwise or. -/
  | hOr (c : CoreId) (xd xs xt : Fin 16)
  /-- `XOR` (R274): XOR forms the bitwise exclusive or. -/
  | hXor (c : CoreId) (xd xs xt : Fin 16)
  /-- `NOT` (R274): NOT inverts a register. -/
  | hNot (c : CoreId) (xd xs : Fin 16)
  /-- `ASL` (R274): ASL shifts left. -/
  | hAsl (c : CoreId) (xd xs xt : Fin 16)
  /-- `ASR` (R274): ASR shifts right arithmetically. -/
  | hAsr (c : CoreId) (xd xs xt : Fin 16)
  /-- `LSR` (R274): LSR shifts right logically. -/
  | hLsr (c : CoreId) (xd xs xt : Fin 16)
  /-- `MIN` (R274): MIN takes the smaller value. -/
  | hMin (c : CoreId) (xd xs xt : Fin 16)
  /-- `MAX` (R274): MAX takes the larger value. -/
  | hMax (c : CoreId) (xd xs xt : Fin 16)
  /-- `ABS` (R274): ABS takes the absolute value. -/
  | hAbs (c : CoreId) (xd xs : Fin 16)
  /-- `MOVI` (R299): MOVI loads a sign-extended 16-bit immediate. -/
  | hMovi (c : CoreId) (xd : Fin 16) (imm : BitVec 16)
  /-- `MOVHI` (R299): MOVHI sets bits [23:16] from an immediate. -/
  | hMovhi (c : CoreId) (xd : Fin 16) (imm : BitVec 8)
  /-- `ALU_IMMEDIATE` (R299): An ALU operation of group 0x05 with an immediate operand. -/
  | hAluImmediate (c : CoreId) (op : BitVec 4) (xd : Fin 16) (imm : BitVec 16)
  /-- `LD` (R275): LD loads 1, 2 or 4 words. -/
  | hLd (c : CoreId) (width : BitVec 2) (x : Fin 16) (m : MemArg)
  /-- `ST` (R275): ST stores 1, 2 or 4 words. -/
  | hSt (c : CoreId) (width : BitVec 2) (x : Fin 16) (m : MemArg)
  /-- `LDP` (R279): LDP performs X-slot and Y-slot loads without arithmetic. -/
  | hLdp (c : CoreId) (xa xb : Fin 16) (sl : Slots)
  /-- `WST` (R272): WST stores an accumulator window with rounding and saturation. -/
  | hWst (c : CoreId) (a w : Fin 4) (m : MemArg)
  /-- `WLD` (R272): WLD loads a word into an accumulator window. -/
  | hWld (c : CoreId) (a w : Fin 4) (m : MemArg)
  /-- `ASV` (R272): ASV stores a raw accumulator slice. -/
  | hAsv (c : CoreId) (a slice : Fin 4) (m : MemArg)
  /-- `ALD` (R272): ALD loads a raw accumulator slice. -/
  | hAld (c : CoreId) (a slice : Fin 4) (m : MemArg)
  /-- `RND` (R272): RND rounds an accumulator in place at a window. -/
  | hRnd (c : CoreId) (ad w : Fin 4)
  /-- `CLRA` (R285): CLRA clears an accumulator. -/
  | hClra (c : CoreId) (ad : Fin 4)
  /-- `ADDA` (R285): ADDA adds accumulators. -/
  | hAdda (c : CoreId) (ad as : Fin 4)
  /-- `SUBA` (R285): SUBA subtracts accumulators. -/
  | hSuba (c : CoreId) (ad as : Fin 4)
  /-- `NEGA` (R285): NEGA negates an accumulator. -/
  | hNega (c : CoreId) (ad : Fin 4)
  /-- `ASHA` (R299): ASHA shifts an accumulator arithmetically. -/
  | hAsha (c : CoreId) (ad : Fin 4) (shift : BitVec 6)
  /-- `MVAX` (R272): MVAX moves an accumulator window into an X register. -/
  | hMvax (c : CoreId) (a w : Fin 4) (x : Fin 16)
  /-- `MVXA` (R272): MVXA moves an X register into an accumulator window. -/
  | hMvxa (c : CoreId) (a w : Fin 4) (x : Fin 16)
  /-- `MAC` (R273): MAC multiplies two registers and accumulates. -/
  | hMac (c : CoreId) (ad : Fin 4) (neg clr : Bool) (xa xb : Fin 16) (sl : Slots)
  /-- `MAC4` (R273): MAC4 performs four MACs into A0 to A3. -/
  | hMac4 (c : CoreId) (ad : Fin 4) (neg clr : Bool) (xa xb : Fin 16) (sl : Slots)
  /-- `DOT4` (R273): DOT4 accumulates a four-term dot product. -/
  | hDot4 (c : CoreId) (ad : Fin 4) (neg clr : Bool) (xa xb : Fin 16) (sl : Slots)
  /-- `CMAC` (R273): CMAC performs a complex multiply-accumulate. -/
  | hCmac (c : CoreId) (ad : Fin 4) (neg clr : Bool) (xa xb : Fin 16) (sl : Slots) (conj : Bool)
  /-- `TNG` (R296): TNG posts a tongs descriptor from six words in memory. -/
  | hTng (c : CoreId) (i : Fin 8)
  /-- `TWAIT` (R296): TWAIT stalls until the tongs queue holds at most n or stops. -/
  | hTwait (c : CoreId) (n : BitVec 4)
  /-- `LDX` (R294): LDX loads a hearth word and sets a reservation. -/
  | hLdx (c : CoreId) (xd : Fin 16) (i : Fin 8)
  /-- `STX` (R294): STX stores if the reservation holds and reports success. -/
  | hStx (c : CoreId) (xd xs : Fin 16) (i : Fin 8)
  /-- `ATM` (R295): ATM performs an atomic at hearth memory or through the NoC window. -/
  | hAtm (c : CoreId) (op : BitVec 5) (xd xs : Fin 16) (i : Fin 8)
  /-- `INTERRUPT_ENTRY` (R304): At a settled boundary the core takes a pending enabled line. -/
  | interruptEntry (c : CoreId)
  /-- `DOORBELL` (R301): HMR_IRQ_SET.DOORBELL sets interrupt line 4. -/
  | doorbell (c : CoreId)
  /-- `TONGS_HOST_POST` (R296): HMR_TNG_GO posts the host descriptor, or sets POST_IGNORED when full. -/
  | tongsHostPost (c : CoreId)
  /-- `TONGS_DESCRIPTOR_START` (R296): The tongs start the next queued descriptor. -/
  | tongsDescriptorStart (c : CoreId)
  /-- `TONGS_DESCRIPTOR_COMPLETE` (R296): A descriptor completes, raising the tongs interrupt if IRQ is set. -/
  | tongsDescriptorComplete (c : CoreId)
  /-- `TONGS_RESUME` (R297): HMR_TNG_CTRL.RESUME restarts the queue after the failed descriptor. -/
  | tongsResume (c : CoreId)
  /-- `TONGS_FLUSH` (R297): HMR_TNG_CTRL.FLUSH empties the tongs queue. -/
  | tongsFlush (c : CoreId)
  /-- `CORE_RESET` (R265): HMR_CORE_CTRL.RST resets a core, which restarts at START_PC unless held. -/
  | coreReset (c : CoreId)
  /-- `CORE_HOLD` (R265): A write of HMR_CORE_CTRL.HOLD holds a core in reset or lets it start. -/
  | coreHold (c : CoreId) (hold : Bool) (start : BitVec 15)
  /-- `CORE_WATCHDOG_EXPIRY` (R311): The core watchdog expires, warning first and then taking its action. -/
  | coreWatchdogExpiry (c : CoreId)
  /-- `CORE_WATCHDOG_KICK` (R311): A keyed HMR_WDOG_KICK reloads the core watchdog. -/
  | coreWatchdogKick (c : CoreId) (key : BitVec 8)
  /-- `CORE_WATCHDOG_CTRL_WRITE` (R311): A write of HMR_WDOG_CTRL reloads the watchdog. -/
  | coreWatchdogCtrlWrite (c : CoreId) (value : BitVec 32)
  /-- `SWD_ENABLE` (R313): DBG_SWD_CTRL.EN = 1 starts the system watchdog until the next package reset. -/
  | swdEnable (value : BitVec 32)
  /-- `SWD_KICK` (R313): A keyed DBG_SWD_KICK reloads the system watchdog. -/
  | swdKick (key : BitVec 8)
  /-- `SYSTEM_WATCHDOG_EXPIRY` (R314): The system watchdog expires, warning first and then causing a package reset. -/
  | systemWatchdogExpiry
  /-- `FREEZE_SYS_WRITE` (R315): A write of DBG_CTRL.FREEZE_SYS freezes or unfreezes the system watchdog. `icls` is the initiator class of the writer. -/
  | freezeSysWrite (icls : BitVec 3) (freeze : Bool)
  /-- `DBG_NONCE` (R318): Capture-DR of DBG_NONCE draws a fresh nonce, or zeros in lockout. `draw` is what the random source gives. -/
  | dbgNonce (draw : BitVec 128)
  /-- `DBG_AUTH` (R318): Update-DR of DBG_AUTH checks an HMAC response and grants or refuses a level. -/
  | dbgAuth (level : BitVec 8) (response : BitVec 256)
  /-- `NONCE_EXPIRY` (R318): A nonce older than 10 s becomes void. -/
  | nonceExpiry
  /-- `LOCKOUT_EXPIRY` (R319): 60 s after a failure in lockout, nonces are given again. -/
  | lockoutExpiry
  /-- `DBG_ACC` (R322): Update-DR of DBG_ACC performs one level-gated debug access. -/
  | dbgAcc (write : Bool) (addr : BitVec 48) (data : BitVec 32)
  /-- `DBG_ACC_CAPTURE` (R322): Capture-DR of DBG_ACC returns the status, data and address of the access. -/
  | dbgAccCapture
  /-- `SESSION_END` (R320): DBG_CMD.END ends the session and resumes halted cores. -/
  | sessionEnd
  /-- `TRST_N_LOW` (R320): TRST_N low ends the debug session. -/
  | trstNLow
  /-- `CROSS_TRIGGER_FIRE` (R332): DBG_CMD.FIRE or a halt with XT_OUT fires a cross-trigger to every XT_IN core. -/
  | crossTriggerFire
  /-- `DBG_STAT` (R321): Capture-DR of DBG_STAT loads DBG_SESSION. -/
  | dbgStat
  /-- `DBG_KEYPROG` (R317): DBG_KEYPROG writes one blank key slot when allowed. -/
  | dbgKeyprog (slot : BitVec 8) (key : BitVec 256)
  /-- `HALT_REQUEST` (R326): HMR_DBG_CTRL.HALT requests a halt of the core. -/
  | haltRequest (c : CoreId)
  /-- `BREAKPOINT_MATCH` (R326): An instruction at an enabled breakpoint PC reaches DE and requests a halt. -/
  | breakpointMatch (c : CoreId) (point : Fin 4)
  /-- `HALT_TAKES_EFFECT` (R327): The halt point is reached and the pipeline freezes. -/
  | haltTakesEffect (c : CoreId)
  /-- `DEBUG_RESUME` (R330): HMR_DBG_CTRL.RESUME unfreezes the pipeline. -/
  | debugResume (c : CoreId)
  /-- `DEBUG_STEP` (R330): HMR_DBG_CTRL.STEP issues one instruction and halts again. -/
  | debugStep (c : CoreId)
  /-- `DEBUG_REG_WRITE` (R329): A write of HMR_DBG_REG_DATA sets the register selected while the core is halted. -/
  | debugRegWrite (c : CoreId) (value : BitVec 24)
  /-- `RECEIVER_DETECT` (R340): Every 1 ms receiver detect looks for a termination at the far end. -/
  | receiverDetect (die : PDie) (lane : Fin 48) (found : Bool)
  /-- `SIGNAL_DETECT_CHANGE` (R340): Signal detect at a receiver finds or loses energy. -/
  | signalDetectChange (die : PDie) (lane : Fin 48) (energy : Bool)
  /-- `SURVEY_FRAME_SEND` (R344): Every 4 µs a survey end sends its current frame. `abort`: an ABORT is written in this cycle. -/
  | surveyFrameSend (die : PDie) (lane : Fin 48) (abort : Bool)
  /-- `SURVEY_CAP_RECEIVED` (R344): A CAP frame is received, leading to RX_OK and choice of the step rate. -/
  | surveyCapReceived (die : PDie) (lane : Fin 48) (frame : BitVec 224)
  /-- `SURVEY_STEP_REQ_RECEIVED` (R344): A STEP_REQ frame is received for the step rate. -/
  | surveyStepReqReceived (die : PDie) (lane : Fin 48) (frame : BitVec 224)
  /-- `SURVEY_RATE_SWITCH` (R344): 20 µs after STEP_REQ is exchanged, the port switches to the step rate and enters STEP. -/
  | surveyRateSwitch (die : PDie) (lane : Fin 48)
  /-- `LANE_TRAINING_DONE` (R344): Training at the step rate ends and FOM measurement follows. -/
  | laneTrainingDone (die : PDie) (lane : Fin 48)
  /-- `SURVEY_STEP_DONE_RECEIVED` (R344): A STEP_DONE frame is received; with OK on both ends the step commits. `abort`: an ABORT is written in this cycle. -/
  | surveyStepDoneReceived (die : PDie) (lane : Fin 48) (frame : BitVec 224) (abort : Bool)
  /-- `SURVEY_HOLD_RECEIVED` (R346): A HOLD frame ends the receiver's survey in HELD with PARTNER_HELD. -/
  | surveyHoldReceived (die : PDie) (lane : Fin 48) (frame : BitVec 224)
  /-- `LANE_TRAINING_TIMEOUT` (R345): Training running past its limit fails the step. -/
  | laneTrainingTimeout (die : PDie) (lane : Fin 48)
  /-- `STEP_DONE_TIMEOUT` (R345): No STEP_DONE 10 ms after one was sent fails the step. -/
  | stepDoneTimeout (die : PDie) (lane : Fin 48)
  /-- `LAN_SILENT` (R342): A lane in FLOOR with signal but no valid frame or page for 1 s raises LAN_SILENT. -/
  | lanSilent (die : PDie) (lane : Fin 48)
  /-- `C73_PAGE_RECEIVED` (R347): A Clause 73 page is received and negotiation proceeds toward resolution. `types`: the PHY types it advertises, in the order of the table of R347. -/
  | c73PageReceived (die : PDie) (lane : Fin 48) (types : BitVec 11) (complete : Bool)
  /-- `C73_TIMER_FAILURE` (R347): A Clause 73 timer failure returns the port to FLOOR. -/
  | c73TimerFailure (die : PDie) (lane : Fin 48)
  /-- `PCS_LINK_UP` (R347): The PCS reports link after C73 training and the port goes UP. -/
  | pcsLinkUp (die : PDie) (lane : Fin 48)
  /-- `CDR_LOCK` (R349): In fixed-rate mode the CDR locks and the lane enters UP if the FOM suffices. -/
  | cdrLock (die : PDie) (lane : Fin 48) (w : List (BitVec 64)) (h : List (BitVec 128))
  /-- `FIXED_RATE_TIMEOUT` (R349): A fixed-rate bring-up not UP within 1 s ends with TIMEOUT and retries. -/
  | fixedRateTimeout (die : PDie) (lane : Fin 48)
  /-- `FOM_MEASUREMENT_DONE` (R350): An eye measurement ends and its FOM is recorded. -/
  | fomMeasurementDone (die : PDie) (lane : Fin 48) (w : List (BitVec 64)) (h : List (BitVec 128))
  /-- `LANE_LOCK_LOSS` (R352): An UP lane loses CDR lock or signal with its partner present and enters RECOVER. -/
  | laneLockLoss (die : PDie) (lane : Fin 48)
  /-- `RECOVER_TIMEOUT` (R352): Recovery not complete in 10 ms starts a new bring-up in FLOOR. -/
  | recoverTimeout (die : PDie) (lane : Fin 48)
  /-- `LANE_RESTART` (R357): LAN_LANE_CMD.RESTART starts a new bring-up. -/
  | laneRestart (die : PDie) (lane : Fin 48)
  /-- `LANE_ABORT` (R346): LAN_LANE_CMD.ABORT aborts a survey into HELD. -/
  | laneAbort (die : PDie) (lane : Fin 48)
  /-- `LANE_SLEEP` (R353): LAN_LANE_CMD.SLEEP stores adaptation and enters LOWPOWER. -/
  | laneSleep (die : PDie) (lane : Fin 48)
  /-- `LANE_WAKE` (R353): LAN_LANE_CMD.WAKE sends a wake burst followed by data. -/
  | laneWake (die : PDie) (lane : Fin 48)
  /-- `WAKE_BURST_RECEIVED` (R353): A received wake burst restores the stored state, or wakes through RECOVER if stale. -/
  | wakeBurstReceived (die : PDie) (lane : Fin 48) (intervals : BitVec 16)
  /-- `LANE_TX_REENABLE` (R356): LAN_LANE_CMD.TX_REENABLE takes a lane out of SAFE into FLOOR. -/
  | laneTxReenable (die : PDie) (lane : Fin 48)
  /-- `LANE_MEASURE` (R350): LAN_LANE_CMD.MEASURE measures the FOM in TEST. -/
  | laneMeasure (die : PDie) (lane : Fin 48)
  /-- `LANE_PLL_LOCK` (R355): Lane PLLs lock after a quad rate change and the unit reports success. `lanes` are those whose PLLs have locked. -/
  | lanePllLock (die : PDie) (quad : Fin 12) (lanes : BitVec 4)
  /-- `PRBS_GENERATOR_ENABLE` (R358): Enabling the PRBS generator takes an UP lane to TEST. -/
  | prbsGeneratorEnable (die : PDie) (lane : Fin 48) (enable : Bool) (pattern : BitVec 3)
  /-- `PRBS_SNAP` (R359): LAN_PRBS_CTRL.SNAP copies the live counts in one cycle. -/
  | prbsSnap (die : PDie) (lane : Fin 48)
  /-- `PRBS_CLEAR` (R359): LAN_PRBS_CTRL.CLEAR sets the live counts to 0. -/
  | prbsClear (die : PDie) (lane : Fin 48)
  /-- `LAN_PRBS_THRESH` (R359): The live error count reaching the threshold raises LAN_PRBS_THRESH. The checker has received `bits` further bits, `errors` of them in error. -/
  | lanPrbsThresh (die : PDie) (lane : Fin 48) (bits : BitVec 1024) (count : Fin 1025)
  /-- `PRBS_SYNC_LOST` (R359): 64 errors in 1,024 bits take the checker out of SYNC. -/
  | prbsSyncLost (die : PDie) (lane : Fin 48)
  /-- `LOOPBACK_SELECT` (R360): A write of LAN_LPBK.MODE selects a loopback, refused unless the lane fits. -/
  | loopbackSelect (die : PDie) (lane : Fin 48) (mode : Fin 4) (mute : Bool)
  /-- `RAW_WORD_FROM_FABRIC` (R362): The fabric offers a raw word to the transmit FIFO. One fabric cycle: a word where VALID = 1. -/
  | rawWordFromFabric (die : PDie) (lane : Fin 48) (word : Option (BitVec 128))
  /-- `RAW_WORD_RECEIVED` (R362): A received raw word enters the receive FIFO or is dropped. -/
  | rawWordReceived (die : PDie) (lane : Fin 48) (word : BitVec 128)
  /-- `RAW_FILL_WORD` (R362): The serializer finds the FIFO empty and sends a fill word. The serializer needs a word. -/
  | rawFillWord (die : PDie) (lane : Fin 48)
  /-- `RECOVERED_CLOCK_ENABLE` (R364): A write of LAN_RCKn_CTRL.EN enables a recovered-clock selector if its lane is locked. `value` is the word written to LAN_RCKn_CTRL. -/
  | recoveredClockEnable (die : PDie) (selector : Fin 2) (value : BitVec 32)
  /-- `FRAME_RECEIVED` (R368): A frame is received at a MAC, checked, parsed, looked up and offered to its queue. `bytes` with the FCS; the start-of-frame point at `cycle` of the stroke and `frac`/256 ns; `rate`: the spill rate allows it. -/
  | frameReceived (die : PDie) (port : Fin 48) (bytes : List Byte) (cycle : BitVec 13) (frac : BitVec 10) (fec : Fin 3) (rate : Bool)
  /-- `PFC_FRAME_RECEIVED` (R372): A PFC frame stops or releases the named class groups. -/
  | pfcFrameReceived (die : PDie) (port : Fin 48) (mask : BitVec 8) (times : BitVec 128)
  /-- `PAUSE_FRAME_RECEIVED` (R372): A PAUSE frame stops every group of the port. -/
  | pauseFrameReceived (die : PDie) (port : Fin 48) (time : BitVec 16)
  /-- `PAUSE_TIME_EXPIRY` (R372): A pause time runs out and the group is released. -/
  | pauseTimeExpiry (die : PDie) (port : Fin 48) (group : Fin 8)
  /-- `PFC_REPEAT` (R392): Every 0x8000 quanta the XOFF frame is repeated while the condition holds. -/
  | pfcRepeat (die : PDie) (port : Fin 48) (prio : Fin 8)
  /-- `FRAME_TRANSMIT` (R385): The three-level scheduler picks a frame when the MAC can send. `after`: a preemptable frame is on the line and that many of its bytes have been sent; `bad`: a word of the frame in the buffer is uncorrectable. -/
  | frameTransmit (die : PDie) (port : Fin 48) (after : Option (BitVec 14)) (cycle : BitVec 13) (frac : BitVec 10) (fec : Fin 3) (bad : Bool)
  /-- `MAC_MERGE_VERIFY` (R370): Clause 99 verification ends and PKT_VERIFY reports success or failure. -/
  | macMergeVerify (die : PDie) (port : Fin 48) (works : Bool)
  /-- `LOOKUP_INSERT` (R380): INSERT places a key in a free way, after a move chain, or in the stash. `abort`: an ABORT comes when that many of the command's writes have been made. -/
  | lookupInsert (die : PDie) (key : BitVec 256) (result : BitVec 64) (abort : Option (Fin 5))
  /-- `LOOKUP_DELETE` (R379): DELETE removes a key. -/
  | lookupDelete (die : PDie) (key : BitVec 256) (abort : Option (Fin 2))
  /-- `LOOKUP_MODIFY` (R379): MODIFY replaces a key's result. -/
  | lookupModify (die : PDie) (key : BitVec 256) (result : BitVec 64) (abort : Option (Fin 2))
  /-- `LOOKUP_READ` (R379): READ returns a key's result, HIT and place. -/
  | lookupRead (die : PDie) (key : BitVec 256)
  /-- `LOOKUP_READ_AT` (R379): READ_AT returns the entry at a way and bucket or stash index. -/
  | lookupReadAt (die : PDie) (way : BitVec 3) (index : BitVec 17)
  /-- `LOOKUP_CLEAR_HITS` (R379): CLEAR_HITS clears every HIT bit. -/
  | lookupClearHits (die : PDie)
  /-- `LOOKUP_BULK` (R382): BULK starts running records from memory. -/
  | lookupBulk (die : PDie)
  /-- `BULK_RECORD` (R382): A bulk record read over the NoC is applied; a failure stops the command. What the read answers, where its target answers outside the model; `abort`: an ABORT is written after so many of the record's writes. -/
  | bulkRecord (die : PDie) (status : BitVec 4) (record : BitVec 512) (abort : Option (Fin 5))
  /-- `LOOKUP_ABORT` (R383): PKT_LKP_CMD.ABORT stops a command before its commit point. -/
  | lookupAbort (die : PDie)
  /-- `STASH_MOVE_BACK` (R380): In free update cycles the engine moves a stash entry back into a way. -/
  | stashMoveBack (die : PDie) (entry : Fin 1024)
  /-- `QUEUE_CONFIG_WRITE` (R384): A write of PKT_Q_CFG is applied, ignored on an enabled queue, or refused. -/
  | queueConfigWrite (die : PDie) (queue : BitVec 16) (value : BitVec 32)
  /-- `BUFFER_POOL_WRITE` (R390): A write to MIN, EN or HDRM that would shrink the shared pool too far is refused. -/
  | bufferPoolWrite (die : PDie) (place : PoolAt) (value : BitVec 32)
  /-- `QUEUE_FLUSH` (R395): PKT_Q_CMD.FLUSH starts discarding every frame of a queue. -/
  | queueFlush (die : PDie) (queue : BitVec 16)
  /-- `QUEUE_FLUSH_ABORT` (R395): PKT_Q_CMD.ABORT stops a flush before the queue is empty. `gone` frames have been discarded before the ABORT. -/
  | queueFlushAbort (die : PDie) (gone : BitVec 24)
  /-- `QUEUE_FLUSH_DONE` (R395): The queue is empty and PKT_FLUSH_END is raised. `abort`: an ABORT is written in this cycle. -/
  | queueFlushDone (die : PDie) (abort : Bool)
  /-- `DELIVERY_RING_FRAME` (R397): Every write of a frame to a delivery ring has answered and the head advances, or the frame is discarded. The answer of each line's write; `bad`: a word of the frame in the buffer is uncorrectable. -/
  | deliveryRingFrame (die : PDie) (ring : BitVec 10) (queue : BitVec 16) (answers : List (BitVec 4)) (bad : Bool)
  /-- `DELIVERY_RING_TAIL_WRITE` (R397): The consumer writes PKT_DRING_TAIL, freeing lines for waiting frames. -/
  | deliveryRingTailWrite (die : PDie) (ring : BitVec 10) (line : BitVec 20)
  /-- `CROSS_DIE_MOVE` (R399): A frame moved to the other port die is offered to its queue there. From this die to the other; `rate`: the spill rate there allows it. -/
  | crossDieMove (die : PDie) (rate : Bool)
  /-- `TOD_SET` (R404): PKT_TOD_CTRL.OP = SET loads the time counter, a step. `cycle` is the time-clock cycle within the stroke. -/
  | todSet (cycle : BitVec 13)
  /-- `TOD_ADJ` (R404): PKT_TOD_CTRL.OP = ADJ adds a signed offset, a step. -/
  | todAdj (cycle : BitVec 13)
  /-- `TOD_INCR_WRITE` (R403): A write of PKT_TOD_INCR sets the rate, refused outside its range. -/
  | todIncrWrite (value : BitVec 32)
  /-- `TOD_READ` (R405): A read of PKT_TOD_NS copies seconds and fraction of the same cycle. `quiet`: a quiet debug read. -/
  | todRead (cycle : BitVec 13) (quiet : Bool)
  /-- `PPS_ENABLE` (R415): A write of PKT_PPS_CFG.EN enables PPS_OUT, ignored while coasting. `value` is the word written to PKT_PPS_CFG. -/
  | ppsEnable (value : BitVec 32)
  /-- `PPS_PULSE` (R415): PTP time reaches a whole second plus COMP and PPS_OUT rises. -/
  | ppsPulse
  /-- `PPS_PULSE_END` (R415): After WIDTH µs PPS_OUT falls. -/
  | ppsPulseEnd
  /-- `PPS_IN_EDGE` (R416): A rising edge of PPS_IN captures PTP time and raises TOD_PPS_IN. `low` is how long the input was low before, in ns. -/
  | ppsInEdge (cycle : BitVec 13) (low : BitVec 32)
  /-- `CMP_FRAME_PROCESS` (R425): The compression engine rewrites a frame's sample region. The oldest frame in the input buffer; `rate`: the spill rate allows it. -/
  | cmpFrameProcess (die : PDie) (rate : Bool)
  /-- `CMP_JOB_POST` (R430): CMP_JOB_GO queues a job, or sets POST_IGNORED when 64 are queued. -/
  | cmpJobPost (die : PDie)
  /-- `CMP_JOB_START` (R430): The engine starts the next queued job. -/
  | cmpJobStart (die : PDie)
  /-- `CMP_JOB_END` (R431): A job ends DONE or ERROR and CMP_JOB_END is raised as set. `written` bytes had been written where a response other than OKAY stops the job. -/
  | cmpJobEnd (die : PDie) (status : BitVec 4) (written : BitVec 32)
  /-- `CMP_JOB_FLUSH` (R430): CMP_JOB_CTRL.FLUSH removes jobs not started. -/
  | cmpJobFlush (die : PDie)
  /-- `CXL_PARTNER_DETECT` (R437): Receiver detect finds a CXL partner and the port trains. -/
  | cxlPartnerDetect (port : Fin 4)
  /-- `CXL_LINK_UP` (R437): The CXL link comes up and the port is LINKED or REFUSED. `mem`: CXL.io and CXL.mem are negotiated. -/
  | cxlLinkUp (port : Fin 4) (speed : BitVec 2) (width : Fin 9) (mem : Bool)
  /-- `ENABLE_MEM` (R438): MEM_CXL_CTRL.ENABLE_MEM takes a LINKED port to ACTIVE. -/
  | enableMem (port : Fin 4)
  /-- `CXL_SIZE_WRITE` (R438): A write of MEM_CXL_SIZE sets the window served, ignored outside LINKED. -/
  | cxlSizeWrite (port : Fin 4) (value : BitVec 32)
  /-- `CXL_IO_ACCESS` (R438): MEM_CXL_IOA.GO performs one CXL.io access. `value` is the word written to MEM_CXL_IOA. -/
  | cxlIoAccess (port : Fin 4) (value : BitVec 32)
  /-- `CXL_IO_DONE` (R438): The CXL.io access completes and DONE is set. -/
  | cxlIoDone (port : Fin 4) (err : BitVec 2) (data : BitVec 32)
  /-- `CXL_REQUEST` (R439): A request to a CXL window is served or synthesised by port state. -/
  | cxlRequest (port : Fin 4) (r : NocReq)
  /-- `CXL_DEVICE_RESPONSE` (R440): A device response completes an open request, POISON if poisoned. `bad`: the response carries poison. -/
  | cxlDeviceResponse (port : Fin 4) (src : BitVec 12) (tag : BitVec 10) (check : MemCheck)
  /-- `CXL_DEVICE_REQUEST` (R440): A device-originated write raises MEM_CXL_IRQ or is answered Unsupported Request. -/
  | cxlDeviceRequest (port : Fin 4) (write : Bool) (addr : BitVec 64) (data : BitVec 32)
  /-- `CXL_LINK_LOSS` (R441): An ACTIVE link in Detect or out of L0 for 1 ms detaches, completing requests with DETACHED. -/
  | cxlLinkLoss (port : Fin 4)
  /-- `CXL_DETACH_WALK_DONE` (R442): The home's directory walk of a detached window ends, reporting lost dirty lines. -/
  | cxlDetachWalkDone (port : Fin 4)
  /-- `DETACH` (R443): MEM_CXL_CTRL.DETACH starts a planned removal. -/
  | detach (port : Fin 4)
  /-- `CXL_DETACH_DRAIN_END` (R443): Open requests complete or the drain limit passes; the link idles and the port is DETACHED. -/
  | cxlDetachDrainEnd (port : Fin 4)
  /-- `ACK_DETACH` (R444): MEM_CXL_CTRL.ACK_DETACH returns a DETACHED port to EMPTY or TRAINING. -/
  | ackDetach (port : Fin 4)
  /-- `CXL_TX_REENABLE` (R445): MEM_CXL_CTRL.TX_REENABLE clears TX_SAFE. -/
  | cxlTxReenable (port : Fin 4)
  /-- `DDR_REQUEST` (R448): A request to a DDR5 channel is rights-checked, decrypted and served by channel state. -/
  | ddrRequest (ch : Fin 4) (r : NocReq) (check : MemCheck)
  /-- `INIT` (R455): MEM_DDR_CMD.INIT runs the DRAM power-up sequence. -/
  | init (ch : Fin 4)
  /-- `DDR_INIT_DONE` (R455): Initialisation ends and the channel is UNTRAINED. -/
  | ddrInitDone (ch : Fin 4)
  /-- `GO_READY` (R448): MEM_DDR_CMD.GO_READY takes the channel from UNTRAINED to READY. -/
  | goReady (ch : Fin 4)
  /-- `SR_ENTER` (R452): MEM_DDR_CMD.SR_ENTER puts every rank in self-refresh. -/
  | srEnter (ch : Fin 4)
  /-- `SR_EXIT` (R452): MEM_DDR_CMD.SR_EXIT starts the return to READY. -/
  | srExit (ch : Fin 4)
  /-- `DDR_SR_EXIT_DONE` (R452): The channel returns to READY and held requests proceed. -/
  | ddrSrExitDone (ch : Fin 4)
  /-- `DDR_MODE_REGISTER_WRITE` (R455): MEM_DDR_MRW.GO writes a DRAM mode register. `value` is the word written to MEM_DDR_MRW. -/
  | ddrModeRegisterWrite (ch : Fin 4) (value : BitVec 32)
  /-- `DDR_TRAINING_CA` (R455): A CA training step runs. -/
  | ddrTrainingCa (ch : Fin 4) (rank : Bool) (count : BitVec 16)
  /-- `DDR_TRAINING_WLVL` (R455): A write-levelling training step runs. -/
  | ddrTrainingWlvl (ch : Fin 4) (rank : Bool) (count : BitVec 16)
  /-- `DDR_TRAINING_RD` (R455): A read training step runs. -/
  | ddrTrainingRd (ch : Fin 4) (rank : Bool) (count : BitVec 16)
  /-- `DDR_TRAINING_WR` (R455): A write training step runs. -/
  | ddrTrainingWr (ch : Fin 4) (rank : Bool) (count : BitVec 16)
  /-- `DDR_TRAINING_ABORT` (R456): MEM_DDR_TRN_CTRL.ABORT stops a step before its result is latched. -/
  | ddrTrainingAbort (ch : Fin 4)
  /-- `DDR_TRAINING_STEP_DONE` (R456): The step's counts are latched and MEM_DDR_TRN_END is raised. Counts and failing DQ of lanes 0 to 9; `abort`: an ABORT is written in this cycle. -/
  | ddrTrainingStepDone (ch : Fin 4) (errors : BitVec 160) (fails : BitVec 80) (abort : Bool)
  /-- `DDR_REFRESH` (R451): Every 3.9 µs the controller refreshes. -/
  | ddrRefresh (ch : Fin 4)
  /-- `DDR_MR4_POLL` (R451): Every 16 ms MR4 is read and the refresh interval adjusted. -/
  | ddrMr4Poll (ch : Fin 4) (rank : Bool) (hot : Bool)
  /-- `DDR_DQS_DRIFT_CHECK` (R451): Every 100 ms the DQS oscillator is read and delays corrected. The corrected WR_DQS and RD_DQS delays of lanes 0 to 9. -/
  | ddrDqsDriftCheck (ch : Fin 4) (rank : Bool) (wr rd : BitVec 90)
  /-- `DDR_PATROL_READ` (R449): The patrol reads a line in idle cycles and corrects it. -/
  | ddrPatrolRead (ch : Fin 4) (line : BitVec 30) (check : MemCheck)
  /-- `PCIE_LINK_UP` (R458): The PCIe link comes up and MEM_PCI_LINK is raised. The MSI-X vectors that the host then unmasks (R459). -/
  | pcieLinkUp (speed : BitVec 3) (width : BitVec 5) (vectors : List (BitVec 11))
  /-- `PCIE_LINK_DOWN` (R458): A hot reset, disable or link loss resets the endpoint configuration and stops every host ring. -/
  | pcieLinkDown
  /-- `PCIE_TX_REENABLE` (R445): MEM_PCI_CTRL.TX_REENABLE clears TX_SAFE of the PCIe lanes. -/
  | pcieTxReenable
  /-- `BAR0_ACCESS` (R460): A host BAR0 access becomes a control-space access or is answered as an error. -/
  | bar0Access (write : Bool) (offset : BitVec 26) (bytes : BitVec 13) (value : Word)
  /-- `HOST_RING_TAIL_WRITE` (R461): The host advances a ring's TAIL, posting descriptors. -/
  | hostRingTailWrite (ring : BitVec 12) (tail : BitVec 16)
  /-- `HOST_RING_RX_FRAME` (R462): A frame fills RX descriptors and DONE is written back. The posted descriptors from HEAD; `status` of the reads of the packet buffer; `held`: HOLDOFF µs have not passed since the ring's last interrupt. -/
  | hostRingRxFrame (ring : BitVec 12) (queue : BitVec 16) (descs : List (BitVec 256)) (status : BitVec 4) (held bad : Bool)
  /-- `HOST_RING_TX_FRAME` (R463): A frame from TX descriptors goes to a queue or lookup and DONE is written back. -/
  | hostRingTxFrame (ring : BitVec 12) (descs : List (BitVec 256)) (bytes : List Byte) (status : BitVec 4) (held rate : Bool)
  /-- `PCIE_COMPLETION` (R465): A PCIe completion for a ring reaches the engine; an error stops the ring. `queue` holds the frame in hand of an RX ring. -/
  | pcieCompletion (ring : BitVec 12) (result : PcieEnd) (queue : BitVec 16)
  /-- `MSIX_HOLDOFF_EXPIRY` (R464): HOLDOFF µs after the last interrupt, a waiting MSI-X vector is raised. -/
  | msixHoldoffExpiry (ring : BitVec 12)
  /-- `HOST_RING_RESUME` (R465): MEM_HR_STAT.RESUME restarts a stopped ring at HEAD. -/
  | hostRingResume (ring : BitVec 12)
  /-- `PROT_RIGHTS_WRITE` (R474): A write of region rights, configuration or PROT_DEF starts a directory walk. `rgn` none writes PROT_DEF. -/
  | protRightsWrite (eng : Fin 8) (rgn : Option (Fin 16)) (value : BitVec 32)
  /-- `PROT_WALK_DONE` (R474): The rights walk ends and BUSY clears. -/
  | protWalkDone (eng : Fin 8)
  /-- `REGION_CONFIG_WRITE` (R475): A write of PROT_RGN_CFG defines or clears a region, refused when it breaks the rules. -/
  | regionConfigWrite (eng : Fin 8) (rgn : Fin 16) (value : BitVec 32)
  /-- `REGION_INIT` (R478): PROT_RGN_CMD.INIT starts initialising a DEFINED region. -/
  | regionInit (eng : Fin 8) (rgn : Fin 16)
  /-- `REGION_INIT_ABORT` (R478): PROT_RGN_CMD.ABORT stops INIT before its commit point. `lines` have been written before the ABORT. -/
  | regionInitAbort (eng : Fin 8) (rgn : Fin 16) (lines : BitVec 32)
  /-- `REGION_INIT_DONE` (R478): The last line is written, the region is ACTIVE and PROT_INIT_END is raised. `failed`: a cause under R484 has struck; `abort`: an ABORT is written in this cycle. -/
  | regionInitDone (eng : Fin 8) (rgn : Fin 16) (failed abort : Bool)
  /-- `PROT_BUFFER_WRITEBACK` (R480): 5 µs after a line was dirtied, it is written back with new counters and tag. -/
  | protBufferWriteback (eng : Fin 8) (line : BitVec 42)
  /-- `ECC_SCRUB_STEP` (R488): A group's scrubber reads the next word in an idle cycle and writes back a correction. `lap` is the lap time in µs, used at a lap's end. -/
  | eccScrubStep (die : Die) (group : Fin 16) (lap : BitVec 16)
  /-- `ECC_TEST_ARM` (R489): ECC_TEST_CTRL.EN arms a capture or inject test on one unit. -/
  | eccTestArm (die : Die) (value : Word)
  /-- `SOURCE_READY` (R491): A clock source completes qualification and becomes READY. -/
  | sourceReady (source : Fin 7)
  /-- `SOURCE_TRIP` (R492): A READY source meets a loss, frequency or amplitude condition and trips. `kind`: 0 loss, 1 frequency, 2 amplitude of the crystal. -/
  | sourceTrip (source : Fin 7) (kind : Fin 3)
  /-- `FREQ_WINDOW_END` (R492): A 4,096-cycle frequency window ends and the source count is compared. `count` is the source's edges in 4,096 cycles of the RC oscillator; `whole`: the window began after the counting had started. -/
  | freqWindowEnd (source : Fin 7) (count : BitVec 24) (whole : Bool)
  /-- `DATUM_PLL_UNLOCK` (R496): The lock detector reports loss of lock for 1 µs and the PLL coasts. -/
  | datumPllUnlock
  /-- `DATUM_PLL_LOCK` (R497): The datum PLL locks, clearing COAST or starting the clocks at power-up. -/
  | datumPllLock
  /-- `RC_OSCILLATOR_CHECK` (R493): Each millisecond the RC cycles are counted and RC_FAULT set if out of range. `count` is the RC cycles in 1 ms of the time clock. -/
  | rcOscillatorCheck (count : BitVec 32)
  /-- `CLOCK_SWITCH` (R500): CLK_CTRL.SWITCH requests a switch to SEL, accepted, held or refused. -/
  | clockSwitch (sel : BitVec 3)
  /-- `SWITCH_FORCED` (R500): The old source gives no edge in 8 new-source cycles and the switch is forced. -/
  | switchForced
  /-- `SWITCH_COMPLETE` (R500): The switcher output follows the new source and CLK_SWITCH is raised. -/
  | switchComplete
  /-- `XTAL_ENABLE` (R503): A write of CLK_CTRL.XTAL_EN starts or stops the crystal amplifier. -/
  | xtalEnable (on : Bool)
  /-- `FABRIC_PLL_UNLOCK` (R505): A fabric-die PLL loses lock and stops its outputs. PLL 4 is the core PLL. -/
  | fabricPllUnlock (die : FDie) (pll : Fin 5)
  /-- `FABRIC_PLL_RELOCK` (R505): The PLL relocks and its outputs start again. PLL 4 is the core PLL. -/
  | fabricPllRelock (die : FDie) (pll : Fin 5)
  /-- `PWR_VOLTAGE_GOOD` (R508): The regulator reports the new voltage good and the sequencer proceeds. -/
  | pwrVoltageGood (die : FDie)
  /-- `AVS_TIMEOUT` (R507): A regulator not good 10 ms after a write sets AVS_ERR and the voltage is written again. -/
  | avsTimeout (die : FDie)
  /-- `AVS_ERROR` (R510): A missing response, bad CRC or fault status on AVSBus raises PWR_AVS_ERR. `kind`: 0 no response, 1 bad CRC, 2 a status that reports a fault. -/
  | avsError (die : FDie) (kind : Fin 3)
  /-- `CLOCK_GATE_WRITE` (R511): A write to the enable of the state in force gates or ungates a domain. -/
  | clockGateWrite (die : Die) (domain : Fin 13) (value : Word)
  /-- `PMBUS_TRANSACTION` (R510): PWR_PMB_CMD.GO performs one PMBus transaction. `value` is written to PWR_PMB_CMD with GO = 1. -/
  | pmbusTransaction (value : Word)
  /-- `PMBUS_DONE` (R510): The PMBus transaction ends and BUSY clears. -/
  | pmbusDone (err : Fin 4) (data : BitVec 16)
  /-- `RAIL_BELOW_RESET` (R515): A rail below its reset threshold for 1 µs is recorded and takes its action. `min` is the lowest voltage, `mv` the present one. -/
  | railBelowReset (rail : Fin 29) (min mv : BitVec 12)
  /-- `RAIL_WARNING_DIP` (R514): A rail returning above warning after a dip raises PWR_DIP and triggers priority laps. `min` is the lowest voltage, `mv` the present one, `us` the time in µs. -/
  | railWarningDip (rail : Fin 29) (min mv : BitVec 12) (us : BitVec 32)
  /-- `RAIL_GOOD` (R513): A rail above its warning threshold for 100 µs becomes good. -/
  | railGood (rail : Fin 29) (mv : BitVec 12)
  /-- `RAIL_DIP_READ` (R514): A read of PWR_RAIL_DIP returns MIN and reloads it with the present voltage. `mv` is the present voltage. -/
  | railDipRead (rail : Fin 29) (quiet : Bool) (mv : BitVec 12)
  /-- `TEMPERATURE_SAMPLE` (R517): Each sensor is read every 1 ms. -/
  | temperatureSample (die : Die) (sensor : Fin 8) (reading : BitVec 16)
  /-- `MGT_WRITE` (R520): A management-port WRITE transaction performs one 32-bit write. `bits` bits are clocked in (88); `known`: its opcode is one of R519. -/
  | mgtWrite (addr : BitVec 48) (data : Word) (bits : BitVec 16) (known : Bool)
  /-- `MGT_READ` (R520): A management-port READ transaction performs one 32-bit read. `bits` bits are clocked in (56). -/
  | mgtRead (addr : BitVec 48) (bits : BitVec 16)
  /-- `MGT_BURST` (R521): A BURST transaction opens a sequence of writes at rising addresses. `whole`: the address is whole; `ends`: MGT_CS_N rises then. -/
  | mgtBurst (addr : BitVec 48) (whole ends : Bool)
  /-- `MGT_BURST_WORD` (R521): A BURST word is written, or discarded if clocked while MGT_RDY is low. `bits` bits of the word are clocked in (32); `ends`: MGT_CS_N rises then. -/
  | mgtBurstWord (value : Word) (bits : Fin 33) (ends : Bool)
  /-- `MGT_RESULT` (R519): A RESULT transaction returns the held status and data. -/
  | mgtResult
  /-- `ATTN_FORCE_WRITE` (R524): A write of MGT_ATTN.FORCE drives or releases ATTN_N. -/
  | attnForceWrite (force : Bool)
  /-- `USER_EVENT_INPUT` (R530): A rising edge on a parcel event-port input raises a user event. -/
  | userEventInput (die : FDie) (parcel : Fin 16) (inputs : BitVec 16) (data : BitVec 64)
  /-- `PMC_CLEAR` (R533): PMC_CTRL.CLEAR sets every counter of the die to 0. -/
  | pmcClear (die : Die)
  /-- `PMC_FREEZE` (R533): A write of PMC_CTRL.FREEZE stops or restarts every counter of the die. -/
  | pmcFreeze (die : Die) (freeze : Bool)
  /-- `PMC_COUNTER_READ` (R533): A read of PMC_CNT_LO latches the high half and any chained counter. -/
  | pmcCounterRead (die : Die) (counter : Fin 64)
  /-- `PMC_OVF` (R532): A counter wraps past 2^48 − 1, sets its overflow bit and raises PMC_OVF. -/
  | pmcOvf (die : Die) (counter : Fin 64)
  /-- `BW_MONITOR_ENABLE` (R535): A write of PMC_BW_CFG.EN starts a monitor at the next heat boundary. `value` is the word written to PMC_BW_CFG. -/
  | bwMonitorEnable (die : Die) (monitor : Fin 32) (value : Word)
  /-- `BW_WINDOW_END` (R535): A window of WINDOW strokes ends and both figures are latched. -/
  | bwWindowEnd (die : Die) (monitor : Fin 32)
  /-- `OPSEC_SECOND` (R537): Each operating second increments OPSEC. -/
  | opsecSecond
  /-- `FIELD_BOOK_PROGRAM` (R539): With the flash path free a record is programmed to the next slot and read back. `result`: 0 reads back, 1 program fails, 2 does not read back. -/
  | fieldBookProgram (result : Fin 3)
  /-- `FIELD_BOOK_ERASE` (R540): The field book erases the next sector before writing into it. -/
  | fieldBookErase (works : Bool)
  /-- `FIELD_BOOK_MOUNT` (R541): The field book mounts when the flash is first free after a package reset. `found` is the newest valid record in the flash: slot, SEQ, operating seconds, PCYCLE. -/
  | fieldBookMount (responds : Bool) (found : Option (BitVec 17 × BitVec 32 × BitVec 32 × BitVec 24))
  /-- `REC_NOTE` (R543): REC_NOTE_GO adds a NOTE record. -/
  | recNote (code : BitVec 12)
  /-- `REC_RING_READ` (R544): A read of word 0 of a ring slot loads the shared latch. -/
  | recRingRead (slot : Fin 4096) (word : Fin 8) (quiet : Bool)
  /-- `FLASH_SLOT_READ` (R544): REC_FL_SLOT.GO starts reading a flash slot. -/
  | flashSlotRead (slot : BitVec 17)
  /-- `FLASH_SLOT_READ_DONE` (R544): The slot is in REC_FL_DATA and BUSY clears. -/
  | flashSlotReadDone (bytes : BitVec 256)
  /-- `SAVE_USER` (R546): A keyed MGT_CMD SAVE_USER writes the pair list as a new calibration copy. -/
  | saveUser (key : BitVec 8)
  /-- `RETURN_TO_BENCHMARK` (R546): A keyed MGT_CMD RETURN_TO_BENCHMARK writes a copy with BENCH = 1. -/
  | returnToBenchmark (key : BitVec 8)
  /-- `MGT_CAL_DONE` (R546): A calibration command completes and MGT_CAL_DONE is raised. -/
  | mgtCalDone (works : Bool) (pairs : List (BitVec 64))
  /-- `CXL_PARTNER_LEAVE` (R437): A CXL partner leaves while the port is TRAINING, LINKED or REFUSED, taking the port to EMPTY or DETACHED. -/
  | cxlPartnerLeave (port : Fin 4)
  /-- `PCIE_COMPLETION_TIMEOUT` (R465): A host-ring PCIe read whose completion does not arrive in time times out and stops the ring. -/
  | pcieCompletionTimeout (ring : BitVec 12) (queue : BitVec 16)
  /-- `PRBS_CHECKER_SYNC` (R359): The PRBS checker reaches SYNC after 64 error-free bits and starts counting. -/
  | prbsCheckerSync (die : PDie) (lane : Fin 48)
  /-- `PRBS_COUNT_SATURATED` (R359): The PRBS bit or error counter saturates and both live counts stop. `errors`: the error count, else the bit count. -/
  | prbsCountSaturated (die : PDie) (lane : Fin 48) (errors : Bool)
  /-- `CONFIGURATION_UPSET` (R246): A bit of a stored configuration frame, or of one copy of a triplicated scrubber register, is upset. -/
  | configurationUpset (place : UpsetAt)
  /-- `MEMORY_BIT_ERROR` (R486): A stored word of an on-die memory takes a bit error that a later read or scrub finds. -/
  | memoryBitError (die : Die) (group : Fin 16) (addr : BitVec 24) (bit : Fin 72)
  /-- `FLIP_FLOP_CLOCK_EDGE` (R79): An active clock edge of a cluster clock updates its flip-flops from their data inputs, enables and SR. The edge is one of a clock source, and reaches every cluster on its nets; `inputs` are what the outside of the routing has come to present before it. -/
  | flipFlopClockEdge (die : FDie) (src : ClkSrc) (rising : Bool) (inputs : List FabInput)
  /-- `ASYNC_SR_ASSERT` (R79): SR rises in a cluster in ASYNC mode and its flip-flops take SRVAL at once. -/
  | asyncSrAssert (die : FDie) (cluster : Fin 270336)
  /-- `MULTIPLY_CLOCK_EDGE` (R120): An enabled clock edge of a multiply block advances its register stages and its accumulator P. -/
  | multiplyClockEdge (die : FDie) (block : Fin 4224) (ce rst : Bool) (ins : MultIn)
  /-- `RESERVED_ENCODING` (R293): An instruction with a reserved major opcode or encoding executes as NOP, setting IL and raising HMR_ILLEGAL. -/
  | reservedEncoding (c : CoreId) (word : BitVec 32)
  deriving DecidableEq, Repr

end Sys2Proof
end

