-- ==== Sys2Proof/Decode.lean ====
section
/-! DEFINITION. The opcode table of this block gives no row bits: a command comes from outside by name (DEDUCED, log entry 1). What a
32-bit instruction word of the Hammer cores spells is the encoding of R299, and gives the command of a core that issues the word. -/

namespace Sys2Proof

/-- The command that a word spells by the table's bits: none, since no row has bits. -/
def decodeTableWord (_nbits _w : Nat) : Option Instr := none

/-! ### The instruction words of the Hammer cores (R299) -/

/-- Bits [lo + n − 1 : lo] of an instruction word. -/
def hammerField (w lo n : Nat) : Nat := w / 2 ^ lo % 2 ^ n

/-- A register number in an instruction word. -/
def hammerReg (w lo : Nat) : Fin 16 := Fin.ofNat 16 (w / 2 ^ lo)

/-- A number from 0 to 3 in an instruction word: an accumulator, a window, a slice. -/
def hammerQuad (w lo : Nat) : Fin 4 := Fin.ofNat 4 (w / 2 ^ lo)

/-- The Ik that bits [19:17] name. -/
def hammerIk (w : Nat) : Fin 8 := Fin.ofNat 8 (w / 2 ^ 17)

/-- Bits [lo + n − 1 : lo] as a bit vector. -/
def hammerBits (w lo n : Nat) : BitVec n := BitVec.ofNat n (w / 2 ^ lo)

/-- The address operand of loads, stores and accumulator memory: Ik, mode, immediate. -/
def hammerMem (w : Nat) : MemArg := ⟨hammerIk w, hammerBits w 15 2, hammerBits w 0 15⟩

/-- The load slots of the MAC layout. -/
def hammerSlots (w : Nat) : Slots := ⟨hammerBits w 13 2, hammerQuad w 11, hammerBits w 9 2, hammerQuad w 7, hammerBits w 5 2⟩

/-- Group 0x00: sub-op [26:22], and nothing else. -/
def decodeControl (c : CoreId) (w : Nat) : Option Instr :=
  if hammerField w 0 22 ≠ 0 then none
  else match hammerField w 22 5 with
    | 0 => some (.hIdle c)
    | 1 => some (.hNop c)
    | 2 => some (.hWaitStroke c)
    | 3 => some (.hSync c)
    | 4 => some (.hBkpt c)
    | _ => none

/-- Group 0x01: kind [26:24], condition [23:20], target [14:0]. -/
def decodeBranch (c : CoreId) (w : Nat) : Option Instr :=
  if hammerField w 15 5 ≠ 0 then none
  else match hammerField w 24 3 with
    | 0 => some (.hB c (hammerBits w 0 15))
    | 1 => some (.hBc c (hammerBits w 20 4) (hammerBits w 0 15))
    | 2 => some (.hCall c (hammerBits w 0 15))
    | 3 => some (.hRet c)
    | 4 => some (.hRti c)
    | _ => none

/-- Group 0x02: [26] LOOP, len − 1 [25:20], [19] the count is in the X register of [3:0], else it is [15:0]. -/
def decodeRepeat (c : CoreId) (w : Nat) : Option Instr :=
  let fromX := hammerField w 19 1 = 1
  if hammerField w 16 3 ≠ 0 ∨ (fromX ∧ hammerField w 4 12 ≠ 0) then none
  else match hammerField w 26 1 with
    | 0 => some (.hRpt c (decide fromX) (hammerBits w 0 16))
    | _ => some (.hLoop c (decide fromX) (hammerBits w 0 16) (hammerBits w 20 6))

/-- Group 0x03: [26] from X, code [25:20], X register [19:16]. A code without a register is illegal where the instruction runs. -/
def decodeSpecial (c : CoreId) (w : Nat) : Option Instr :=
  if hammerField w 0 16 ≠ 0 then none
  else some (.hMovs c (decide (hammerField w 26 1 = 1)) (hammerBits w 20 6) (hammerReg w 16))

/-- Group 0x04: op [26:23], Xd [22:19], Xs [18:15], Xt [14:11]. -/
def decodeAlu (c : CoreId) (w : Nat) : Option Instr :=
  let xd := hammerReg w 19
  let xs := hammerReg w 15
  let xt := hammerReg w 11
  if hammerField w 0 11 ≠ 0 then none
  else match hammerField w 23 4 with
    | 0 => some (.hMov c xd xs)
    | 1 => some (.hAdd c xd xs xt)
    | 2 => some (.hAdds c xd xs xt)
    | 3 => some (.hSub c xd xs xt)
    | 4 => some (.hSubs c xd xs xt)
    | 5 => some (.hCmp c xs xt)
    | 6 => some (.hAnd c xd xs xt)
    | 7 => some (.hOr c xd xs xt)
    | 8 => some (.hXor c xd xs xt)
    | 9 => some (.hNot c xd xs)
    | 10 => some (.hAsl c xd xs xt)
    | 11 => some (.hAsr c xd xs xt)
    | 12 => some (.hLsr c xd xs xt)
    | 13 => some (.hMin c xd xs xt)
    | 14 => some (.hMax c xd xs xt)
    | _ => some (.hAbs c xd xs)

/-- Group 0x05: op [26:23], Xd [22:19], imm16 [15:0]; op 0 is MOVI, op 9 is MOVHI of imm[7:0]. -/
def decodeAluImmediate (c : CoreId) (w : Nat) : Option Instr :=
  if hammerField w 16 3 ≠ 0 then none
  else match hammerField w 23 4 with
    | 0 => some (.hMovi c (hammerReg w 19) (hammerBits w 0 16))
    | 9 => some (.hMovhi c (hammerReg w 19) (hammerBits w 0 8))
    | _ => some (.hAluImmediate c (hammerBits w 23 4) (hammerReg w 19) (hammerBits w 0 16))

/-- Group 0x06: [26] ST, width [25:24] and mode [16:15], of which 3 is reserved, X register [23:20]. -/
def decodeLoadStore (c : CoreId) (w : Nat) : Option Instr :=
  if hammerField w 24 2 = 3 ∨ hammerField w 15 2 = 3 then none
  else match hammerField w 26 1 with
    | 0 => some (.hLd c (hammerBits w 24 2) (hammerReg w 20) (hammerMem w))
    | _ => some (.hSt c (hammerBits w 24 2) (hammerReg w 20) (hammerMem w))

/-- Group 0x07: [26:25] which, accumulator [24:23], window or slice [22:21]; slice 3 and mode 3 are reserved. -/
def decodeAccMemory (c : CoreId) (w : Nat) : Option Instr :=
  let a := hammerQuad w 23
  let k := hammerQuad w 21
  if hammerField w 20 1 ≠ 0 ∨ hammerField w 15 2 = 3 then none
  else match hammerField w 25 2 with
    | 0 => some (.hWst c a k (hammerMem w))
    | 1 => some (.hWld c a k (hammerMem w))
    | 2 => if hammerField w 21 2 = 3 then none else some (.hAsv c a k (hammerMem w))
    | _ => if hammerField w 21 2 = 3 then none else some (.hAld c a k (hammerMem w))

/-- Group 0x08: op [26:23], Ad [22:21], As [20:19], X register [18:15]; the window [14:13] belongs to RND, MVAX and MVXA, the shift
[5:0] to ASHA. -/
def decodeAccRegister (c : CoreId) (w : Nat) : Option Instr :=
  let ad := hammerQuad w 21
  let as := hammerQuad w 19
  let x := hammerReg w 15
  let win := hammerQuad w 13
  let noWin := hammerField w 13 2 = 0
  let noShift := hammerField w 0 6 = 0
  if hammerField w 6 7 ≠ 0 then none
  else match hammerField w 23 4 with
    | 0 => if noShift then some (.hRnd c ad win) else none
    | 1 => if noWin ∧ noShift then some (.hClra c ad) else none
    | 2 => if noWin ∧ noShift then some (.hAdda c ad as) else none
    | 3 => if noWin ∧ noShift then some (.hSuba c ad as) else none
    | 4 => if noWin ∧ noShift then some (.hNega c ad) else none
    | 5 => if noWin then some (.hAsha c ad (hammerBits w 0 6)) else none
    | 6 => if noShift then some (.hMvax c ad win x) else none
    | 7 => if noShift then some (.hMvxa c ad win x) else none
    | _ => none

/-- Groups 0x09 to 0x0D, the MAC layout; CONJ [4] belongs to CMAC, and width 3 is reserved. -/
def decodeMac (c : CoreId) (group w : Nat) : Option Instr :=
  let ad := hammerQuad w 25
  let neg := decide (hammerField w 24 1 = 1)
  let clr := decide (hammerField w 23 1 = 1)
  let xa := hammerReg w 19
  let xb := hammerReg w 15
  let conj := decide (hammerField w 4 1 = 1)
  if hammerField w 0 4 ≠ 0 ∨ hammerField w 13 2 = 3 ∨ (group ≠ 13 ∧ conj = true) then none
  else match group with
    | 9 => some (.hLdp c xa xb (hammerSlots w))
    | 10 => some (.hMac c ad neg clr xa xb (hammerSlots w))
    | 11 => some (.hMac4 c ad neg clr xa xb (hammerSlots w))
    | 12 => some (.hDot4 c ad neg clr xa xb (hammerSlots w))
    | _ => some (.hCmac c ad neg clr xa xb (hammerSlots w) conj)

/-- Group 0x0E: TNG with Ik [19:17], or TWAIT with n [3:0]. -/
def decodeTongs (c : CoreId) (w : Nat) : Option Instr :=
  if hammerField w 26 1 = 0 then
    if hammerField w 20 6 ≠ 0 ∨ hammerField w 0 17 ≠ 0 then none else some (.hTng c (hammerIk w))
  else if hammerField w 4 22 ≠ 0 then none else some (.hTwait c (hammerBits w 0 4))

/-- Group 0x0F: [26:25] which, atomic [24:20] from 0 to 6, Ik [19:17], Xd [16:13], Xs [12:9]. -/
def decodeLocked (c : CoreId) (w : Nat) : Option Instr :=
  if hammerField w 0 9 ≠ 0 then none
  else match hammerField w 25 2 with
    | 0 => some (.hLdx c (hammerReg w 13) (hammerIk w))
    | 1 => some (.hStx c (hammerReg w 13) (hammerReg w 9) (hammerIk w))
    | 2 => if 6 < hammerField w 20 5 then none else some (.hAtm c (hammerBits w 20 5) (hammerReg w 13) (hammerReg w 9) (hammerIk w))
    | _ => none

/-- The instruction that a word spells, by its major opcode [31:27] (R299); none for a reserved encoding, and where a field that the
layout does not name is not 0: the command RESERVED_ENCODING of the word (R293).
DEDUCED (log entry 221): which fields count as named. -/
def hammerDecode (c : CoreId) (w : Nat) : Option Instr :=
  match hammerField w 27 5 with
  | 0 => decodeControl c w
  | 1 => decodeBranch c w
  | 2 => decodeRepeat c w
  | 3 => decodeSpecial c w
  | 4 => decodeAlu c w
  | 5 => decodeAluImmediate c w
  | 6 => decodeLoadStore c w
  | 7 => decodeAccMemory c w
  | 8 => decodeAccRegister c w
  | 14 => decodeTongs c w
  | 15 => decodeLocked c w
  | n => if 9 ≤ n ∧ n ≤ 13 then decodeMac c n w else none

/-! ### The word of an instruction (R299) -/

/-- The bits [19:0] of an address operand. -/
def memWord (m : MemArg) : Nat := m.i.val * 2 ^ 17 + m.mode.toNat * 2 ^ 15 + m.imm.toNat

/-- The bits [14:5] of the load slots. -/
def slotsWord (x : Slots) : Nat :=
  x.w.toNat * 2 ^ 13 + x.xi.val * 2 ^ 11 + x.xm.toNat * 2 ^ 9 + x.yi.val * 2 ^ 7 + x.ym.toNat * 2 ^ 5

/-- A word of the branch group. -/
def branchWord (kind cond target : Nat) : Nat := 1 * 2 ^ 27 + kind * 2 ^ 24 + cond * 2 ^ 20 + target

/-- A word of the repeat group. -/
def repeatWord (loop len : Nat) (fromX : Bool) (count : Nat) : Nat :=
  2 * 2 ^ 27 + loop * 2 ^ 26 + len * 2 ^ 20 + fromX.toNat * 2 ^ 19 + count

/-- A word of the special moves. -/
def specialWord (toSpecial : Bool) (code x : Nat) : Nat := 3 * 2 ^ 27 + toSpecial.toNat * 2 ^ 26 + code * 2 ^ 20 + x * 2 ^ 16

/-- A word of the register form of the ALU. -/
def aluWord (op : Nat) (xd xs xt : Nat) : Nat := 4 * 2 ^ 27 + op * 2 ^ 23 + xd * 2 ^ 19 + xs * 2 ^ 15 + xt * 2 ^ 11

/-- A word of the immediate form of the ALU. -/
def immWord (op xd imm : Nat) : Nat := 5 * 2 ^ 27 + op * 2 ^ 23 + xd * 2 ^ 19 + imm

/-- A word of the loads and stores; the low 20 bits are the address operand's. -/
def loadWord (store width x mem : Nat) : Nat := 6 * 2 ^ 27 + store * 2 ^ 26 + width * 2 ^ 24 + x * 2 ^ 20 + mem

/-- A word of the accumulator memory group; the low 20 bits are the address operand's. -/
def accMemWord (op a k mem : Nat) : Nat := 7 * 2 ^ 27 + op * 2 ^ 25 + a * 2 ^ 23 + k * 2 ^ 21 + mem

/-- A word of the accumulator registers' group. -/
def accWord (op ad as x win shift : Nat) : Nat :=
  8 * 2 ^ 27 + op * 2 ^ 23 + ad * 2 ^ 21 + as * 2 ^ 19 + x * 2 ^ 15 + win * 2 ^ 13 + shift

/-- A word of the MAC layout; bits [14:5] are the load slots'. -/
def macWord (group ad : Nat) (neg clr : Bool) (xa xb slots : Nat) (conj : Bool) : Nat :=
  group * 2 ^ 27 + ad * 2 ^ 25 + neg.toNat * 2 ^ 24 + clr.toNat * 2 ^ 23 + xa * 2 ^ 19 + xb * 2 ^ 15 + slots + conj.toNat * 2 ^ 4

/-- A word of the locked group. -/
def lockedWord (op atomic i xd xs : Nat) : Nat :=
  15 * 2 ^ 27 + op * 2 ^ 25 + atomic * 2 ^ 20 + i * 2 ^ 17 + xd * 2 ^ 13 + xs * 2 ^ 9

/-- The word of a Hammer instruction; none for the other commands. Fields that an instruction does not use are 0. -/
def hammerEncode : Instr → Option Nat
  | .hIdle _ => some 0
  | .hNop _ => some (1 * 2 ^ 22)
  | .hWaitStroke _ => some (2 * 2 ^ 22)
  | .hSync _ => some (3 * 2 ^ 22)
  | .hBkpt _ => some (4 * 2 ^ 22)
  | .hB _ target => some (branchWord 0 0 target.toNat)
  | .hBc _ cond target => some (branchWord 1 cond.toNat target.toNat)
  | .hCall _ target => some (branchWord 2 0 target.toNat)
  | .hRet _ => some (branchWord 3 0 0)
  | .hRti _ => some (branchWord 4 0 0)
  | .hRpt _ fromX count => some (repeatWord 0 0 fromX count.toNat)
  | .hLoop _ fromX count len => some (repeatWord 1 len.toNat fromX count.toNat)
  | .hMovs _ toSpecial code x => some (specialWord toSpecial code.toNat x.val)
  | .hMov _ xd xs => some (aluWord 0 xd.val xs.val 0)
  | .hAdd _ xd xs xt => some (aluWord 1 xd.val xs.val xt.val)
  | .hAdds _ xd xs xt => some (aluWord 2 xd.val xs.val xt.val)
  | .hSub _ xd xs xt => some (aluWord 3 xd.val xs.val xt.val)
  | .hSubs _ xd xs xt => some (aluWord 4 xd.val xs.val xt.val)
  | .hCmp _ xs xt => some (aluWord 5 0 xs.val xt.val)
  | .hAnd _ xd xs xt => some (aluWord 6 xd.val xs.val xt.val)
  | .hOr _ xd xs xt => some (aluWord 7 xd.val xs.val xt.val)
  | .hXor _ xd xs xt => some (aluWord 8 xd.val xs.val xt.val)
  | .hNot _ xd xs => some (aluWord 9 xd.val xs.val 0)
  | .hAsl _ xd xs xt => some (aluWord 10 xd.val xs.val xt.val)
  | .hAsr _ xd xs xt => some (aluWord 11 xd.val xs.val xt.val)
  | .hLsr _ xd xs xt => some (aluWord 12 xd.val xs.val xt.val)
  | .hMin _ xd xs xt => some (aluWord 13 xd.val xs.val xt.val)
  | .hMax _ xd xs xt => some (aluWord 14 xd.val xs.val xt.val)
  | .hAbs _ xd xs => some (aluWord 15 xd.val xs.val 0)
  | .hMovi _ xd imm => some (immWord 0 xd.val imm.toNat)
  | .hMovhi _ xd imm => some (immWord 9 xd.val imm.toNat)
  | .hAluImmediate _ op xd imm => some (immWord op.toNat xd.val imm.toNat)
  | .hLd _ width x m => some (loadWord 0 width.toNat x.val (memWord m))
  | .hSt _ width x m => some (loadWord 1 width.toNat x.val (memWord m))
  | .hWst _ a w m => some (accMemWord 0 a.val w.val (memWord m))
  | .hWld _ a w m => some (accMemWord 1 a.val w.val (memWord m))
  | .hAsv _ a k m => some (accMemWord 2 a.val k.val (memWord m))
  | .hAld _ a k m => some (accMemWord 3 a.val k.val (memWord m))
  | .hRnd _ ad w => some (accWord 0 ad.val 0 0 w.val 0)
  | .hClra _ ad => some (accWord 1 ad.val 0 0 0 0)
  | .hAdda _ ad as => some (accWord 2 ad.val as.val 0 0 0)
  | .hSuba _ ad as => some (accWord 3 ad.val as.val 0 0 0)
  | .hNega _ ad => some (accWord 4 ad.val 0 0 0 0)
  | .hAsha _ ad shift => some (accWord 5 ad.val 0 0 0 shift.toNat)
  | .hMvax _ a w x => some (accWord 6 a.val 0 x.val w.val 0)
  | .hMvxa _ a w x => some (accWord 7 a.val 0 x.val w.val 0)
  | .hLdp _ xa xb sl => some (macWord 9 0 false false xa.val xb.val (slotsWord sl) false)
  | .hMac _ ad neg clr xa xb sl => some (macWord 10 ad.val neg clr xa.val xb.val (slotsWord sl) false)
  | .hMac4 _ ad neg clr xa xb sl => some (macWord 11 ad.val neg clr xa.val xb.val (slotsWord sl) false)
  | .hDot4 _ ad neg clr xa xb sl => some (macWord 12 ad.val neg clr xa.val xb.val (slotsWord sl) false)
  | .hCmac _ ad neg clr xa xb sl conj => some (macWord 13 ad.val neg clr xa.val xb.val (slotsWord sl) conj)
  | .hTng _ i => some (14 * 2 ^ 27 + i.val * 2 ^ 17)
  | .hTwait _ n => some (14 * 2 ^ 27 + 2 ^ 26 + n.toNat)
  | .hLdx _ xd i => some (lockedWord 0 0 i.val xd.val 0)
  | .hStx _ xd xs i => some (lockedWord 1 0 i.val xd.val xs.val)
  | .hAtm _ op xd xs i => some (lockedWord 2 op.toNat i.val xd.val xs.val)
  | _ => none

end Sys2Proof
end

