-- ==== Sys2Proof/Machine/Crc.lean ====
section
/-! DEFINITION. CRC-32C (R194), SHA-256 (R194) and the byte-order helpers they need. -/

namespace Sys2Proof.Machine

/-- The `n` bytes of a number, least significant first. -/
def bytesLE : Nat → Nat → List Nat
  | _, 0 => []
  | v, n + 1 => v % 256 :: bytesLE (v / 256) n

/-- The number that bytes spell, least significant first. -/
def ofBytesLE : List Nat → Nat
  | [] => 0
  | b :: t => b % 256 + 256 * ofBytesLE t

/-- The number that bytes spell, most significant first. -/
def ofBytesBE (l : List Nat) : Nat := l.foldl (fun n b => n * 256 + b % 256) 0

/-- The bytes `lo` to `lo + n - 1` of a byte string as a little-endian number. -/
def fieldLE (l : List Nat) (lo n : Nat) : Nat := ofBytesLE ((l.drop lo).take n)

/-- One bit step of the reflected Castagnoli division. -/
def crc32cBit (c : BitVec 32) : BitVec 32 := if c.getLsbD 0 then (c >>> 1) ^^^ 0x82F63B78#32 else c >>> 1

/-- One byte of CRC-32C. -/
def crc32cByte (c : BitVec 32) (b : Nat) : BitVec 32 :=
  let c := c ^^^ BitVec.ofNat 32 (b % 256)
  crc32cBit (crc32cBit (crc32cBit (crc32cBit (crc32cBit (crc32cBit (crc32cBit (crc32cBit c)))))))

/-- The division from a given start, without the final exclusive-or. -/
def crc32cFrom (start : BitVec 32) (l : List Nat) : BitVec 32 := l.foldl crc32cByte start

/-- CRC-32C: polynomial 0x1EDC_6F41 reflected, initial value and final exclusive-or all ones (R194). -/
def crc32c (l : List Nat) : Nat := (crc32cFrom 0xFFFFFFFF#32 l ^^^ 0xFFFFFFFF#32).toNat

/-- One byte of the CRC of IEEE 802.3. -/
def crc32Byte (c : BitVec 32) (b : Nat) : BitVec 32 :=
  (List.range 8).foldl (fun c _ => if c.getLsbD 0 then (c >>> 1) ^^^ 0xEDB88320#32 else c >>> 1) (c ^^^ BitVec.ofNat 32 (b % 256))

/-- The frame check sequence of IEEE 802.3 over a frame's bytes before it, as four bytes in the order they are sent. -/
def fcsOf (l : List Nat) : List Nat := bytesLE ((l.foldl crc32Byte 0xFFFFFFFF#32) ^^^ 0xFFFFFFFF#32).toNat 4

/-- Whether a frame ends with its frame check sequence. -/
def fcsOk (l : List Nat) : Bool := l.drop (l.length - 4) == fcsOf (l.take (l.length - 4))

/-- A frame with its frame check sequence computed again. -/
def fcsAgain (l : List Nat) : List Nat := l.take (l.length - 4) ++ fcsOf (l.take (l.length - 4))

/-! ### SHA-256 -/

/-- The largest number whose `e`-th power is at most `n`, its bits below bit `b` found one by one on top of `r`. -/
def rootFrom (e n : Nat) : Nat → Nat → Nat
  | 0, r => r
  | b + 1, r => rootFrom e n b (if (r + 2 ^ b) ^ e ≤ n then r + 2 ^ b else r)

/-- The first 32 bits of the fraction of the `e`-th root of a number. -/
def rootFraction (e p : Nat) : BitVec 32 := BitVec.ofNat 32 (rootFrom e (p * 2 ^ (32 * e)) 36 0)

/-- The first 64 primes, from which SHA-256 takes its constants. -/
def shaPrimes : List Nat :=
  (List.range 312).filter fun n => decide (1 < n) && [2, 3, 5, 7, 11, 13, 17].all fun q => n == q || n % q != 0

/-- The initial hash: the fractions of the square roots of the first eight primes. -/
def shaInit : List (BitVec 32) := (shaPrimes.take 8).map (rootFraction 2)

/-- The exclusive-or of a word rotated right by each of some counts. -/
def spins (x : BitVec 32) (counts : List Nat) : BitVec 32 := counts.foldl (fun y n => y ^^^ x.rotateRight n) 0

/-- The next word of the message, from the last sixteen, oldest first. -/
def shaNext (w : List (BitVec 32)) : BitVec 32 :=
  let old := w.getD 1 0
  let new := w.getD 14 0
  w.getD 0 0 + w.getD 9 0 + (spins old [7, 18] ^^^ (old >>> 3)) + (spins new [17, 19] ^^^ (new >>> 10))

/-- One round: the eight working words, and the last sixteen words of the message, the oldest of which it takes. -/
def shaRound (x : List (BitVec 32) × List (BitVec 32)) (k : BitVec 32) : List (BitVec 32) × List (BitVec 32) :=
  let r := fun n => x.1.getD n 0
  let pick := r 6 ^^^ (r 4 &&& (r 5 ^^^ r 6))
  let most := (r 0 &&& (r 1 ||| r 2)) ||| (r 1 &&& r 2)
  let u := x.2.getD 0 0 + k + r 7 + pick + spins (r 4) [6, 11, 25]
  ([u + most + spins (r 0) [2, 13, 22], r 0, r 1, r 2, r 3 + u, r 4, r 5, r 6], x.2.tail ++ [shaNext x.2])

/-- Words of a block, most significant byte first. -/
def shaWords : List Nat → Nat → List (BitVec 32)
  | _, 0 => []
  | l, n + 1 => BitVec.ofNat 32 (ofBytesBE (l.take 4)) :: shaWords (l.drop 4) n

/-- One 64-byte block: a round for the fraction of the cube root of each prime. -/
def shaBlock (h : List (BitVec 32)) (block : List Nat) : List (BitVec 32) :=
  List.zipWith (· + ·) h ((shaPrimes.map (rootFraction 3)).foldl shaRound (h, shaWords block 16)).1

/-- Blocks of a padded message; the count bounds the blocks. -/
def shaBlocks : Nat → List (BitVec 32) → List Nat → List (BitVec 32)
  | 0, h, _ => h
  | n + 1, h, l => if l.length < 64 then h else shaBlocks n (shaBlock h (l.take 64)) (l.drop 64)

/-- The padding of a message of `len` bytes. -/
def shaPad (len : Nat) : List Nat :=
  0x80 :: (List.replicate ((119 - len % 64) % 64) 0 ++ (bytesLE (8 * len) 8).reverse)

/-- The digest bytes of hash words. -/
def shaBytes (h : List (BitVec 32)) : List Nat := h.flatMap fun w => (bytesLE w.toNat 4).reverse

/-- SHA-256 of a byte string. -/
def sha256 (l : List Nat) : List Nat :=
  let m := l ++ shaPad l.length
  shaBytes (shaBlocks (m.length / 64) shaInit m)

/-- HMAC-SHA-256 with a 32-byte key (R318). -/
def hmacSha256 (key msg : List Nat) : List Nat :=
  let k := key ++ List.replicate (64 - key.length) 0
  sha256 (k.map (Nat.xor 0x5C) ++ sha256 (k.map (Nat.xor 0x36) ++ msg))

end Sys2Proof.Machine
end

