-- ==== Sys2Proof/Machine/EventNames.lean ====
section
/-! DEFINITION. The die-local event numbers of the event tables (R17, R525). -/

namespace Sys2Proof.Machine

/-- Event table of chapter 02, raised by Any: Byte 0: STK_OVR.UNIT; bytes 1 to 2: STK_STROKE_NUM. -/
abbrev Ev.STROKE_OVERRUN : Nat := 16
/-- Event table of chapter 02, raised by E0: Byte 0: RETRIES; byte 1: 1 if caused by UNTIMED. -/
abbrev Ev.COMMIT_WITHHELD : Nat := 17
/-- Event table of chapter 02, raised by E0: Bytes 0 to 7: lowest 64 bits of STK_SPLIT with any bit set. -/
abbrev Ev.COMMIT_SPLIT : Nat := 18
/-- Event table of chapter 02, raised by E0: Byte 0: RETRIES. -/
abbrev Ev.CHANGE_EXPIRED : Nat := 19
/-- Event table of chapter 02, raised by E0: Bytes 0 to 3: STK_LOCK_ERR. -/
abbrev Ev.STROKE_LOCK_LOST : Nat := 20
/-- Event table of chapter 02, raised by E0: no data. -/
abbrev Ev.STROKE_UNTIMED : Nat := 21
/-- Event table of chapter 03, raised by Fabric: Bytes 0 to 1: rail number n of R85; bytes 2 to 3: STK_STROKE_NUM; byte 4: number of drivers enabled when the detector acted, saturating at 22. -/
abbrev Ev.RAIL_CONTENTION : Nat := 36
/-- Event table of chapter 05, raised by Any: Bytes 0 to 1: initiator identity; bytes 2 to 3: tag; byte 4: class. -/
abbrev Ev.NOC_TIMEOUT : Nat := 64
/-- Event table of chapter 05, raised by Any: Bytes 0 to 1: initiator identity; bytes 2 to 3: tag. -/
abbrev Ev.NOC_LATE_RSP : Nat := 65
/-- Event table of chapter 05, raised by Any: Bytes 0 to 1: initiator identity; bytes 2 to 5: round trip in ns. -/
abbrev Ev.NOC_X_LATE : Nat := 66
/-- Event table of chapter 05, raised by Any: Byte 0: parcel, or 0x80 + die index for a die fence; bytes 1 to 2: responses synthesised. -/
abbrev Ev.NOC_FENCE_LIMIT : Nat := 67
/-- Event table of chapter 05, raised by Any: Byte 0: network; bytes 1 to 2: router row and column; byte 3: input port. -/
abbrev Ev.NOC_FLIT_ERR : Nat := 68
/-- Event table of chapter 05, raised by Port: Byte 0: die index of the holder; bytes 1 to 4: lines poisoned so far. -/
abbrev Ev.NOC_DIR_POISON : Nat := 69
/-- Event table of chapter 05, raised by E0: Byte 0: RESULT; bytes 1 to 4: NOC_XRES_LINK. -/
abbrev Ev.NOC_XRES_REFUSED : Nat := 70
/-- Event table of chapter 06, raised by Any: Byte 0: channel; bytes 1 to 2: CRC errors in the window. -/
abbrev Ev.WLD_CRC_THRESH : Nat := 96
/-- Event table of chapter 06, raised by Any: Byte 0: channel; byte 1: 0 replay limit, 1 control groups lost, 2 command. -/
abbrev Ev.WLD_RETRAIN : Nat := 97
/-- Event table of chapter 06, raised by Any: Byte 0: channel; byte 1: 0 too many failing wires, 1 clock not locked, 2 deskew failed. -/
abbrev Ev.WLD_CH_FAILED : Nat := 98
/-- Event table of chapter 06, raised by Any: Byte 0: channel; byte 1: wire added; byte 2: spares now in use. -/
abbrev Ev.WLD_REPAIR_NEW : Nat := 99
/-- Event table of chapter 06, raised by Any: Byte 0: edge; byte 1: group. -/
abbrev Ev.SEAM_UNLOCK : Nat := 100
/-- Event table of chapter 06, raised by E0: Byte 0: edge; byte 1: difference in °C. -/
abbrev Ev.WLD_TEMP_WARN : Nat := 101
/-- Event table of chapter 06, raised by E0: Byte 0: edge; byte 1: difference in °C. -/
abbrev Ev.WLD_TEMP_LIMIT : Nat := 102
/-- Event table of chapter 07, raised by E0: Byte 0: CODE; byte 1: SLOT; bytes 2 to 5: CFG_ERR_ADDR; byte 6: 1 for a partial image. -/
abbrev Ev.CFG_REFUSED : Nat := 32
/-- Event table of chapter 07, raised by E0: Bytes 0 to 3: IMAGE_ID; byte 4: source as in CFG_SRC.LAST_SRC; byte 5: 1 for a partial image. -/
abbrev Ev.CFG_DONE : Nat := 33
/-- Event table of chapter 07, raised by E0: Bytes 0 to 3: address of the frame re-read. -/
abbrev Ev.CFG_FRAME_RETRY : Nat := 34
/-- Event table of chapter 07, raised by E0: Byte 0: 0 window, 1 test port; bytes 1 to 4: window offset of the discarded write. -/
abbrev Ev.CFG_WIN_DROP : Nat := 35
/-- Event table of chapter 08, raised by Fabric: Byte 0: RESULT; bytes 1 to 2: TARGETS; byte 3: ABORT_LATE; byte 4: CFG_STATUS.CODE. -/
abbrev Ev.PRC_LOAD_END : Nat := 40
/-- Event table of chapter 08, raised by Fabric: Bytes 0 to 1: parcels whose state changed; byte 2: 0 gated, 1 released, 2 returned BLANK. -/
abbrev Ev.PRC_POWER : Nat := 41
/-- Event table of chapter 08, raised by Fabric: Byte 0: parcel; bytes 1 to 2: stroke number; bytes 3 to 6: heat number. -/
abbrev Ev.PRC_CAPTURE : Nat := 42
/-- Event table of chapter 08, raised by Fabric: Byte 0: 0 power request, 1 capture request; bytes 1 to 2: parcels named. -/
abbrev Ev.PRC_REQ_IGNORED : Nat := 43
/-- Event table of chapter 09, raised by Any: Bytes 0 to 3: frame address; byte 4: candidate of R246. -/
abbrev Ev.SCR_CORRECTED : Nat := 48
/-- Event table of chapter 09, raised by Any: Bytes 0 to 3: frame address; byte 4: action taken under R255, coded as SCR_ACTION. -/
abbrev Ev.SCR_UNCORR : Nat := 49
/-- Event table of chapter 09, raised by Fabric: Bytes 0 to 3: frame address. -/
abbrev Ev.SCR_REPAIRED : Nat := 50
/-- Event table of chapter 09, raised by Fabric: Bytes 0 to 3: frame address; byte 4: failing step of R258, 7 for the time limit. -/
abbrev Ev.SCR_REPAIR_FAILED : Nat := 51
/-- Event table of chapter 09, raised by Any: Byte 0: SCR_VOTE.REG. -/
abbrev Ev.SCR_VOTE_MISMATCH : Nat := 52
/-- Event table of chapter 09, raised by Any: Bytes 0 to 3: lap time in µs; byte 4: cause, 0 DIE return, 1 supply dip, 2 command. -/
abbrev Ev.SCR_PRIO_DONE : Nat := 53
/-- Event table of chapter 09, raised by Any: Bytes 0 to 3: lap time in µs. -/
abbrev Ev.SCR_LAP_SLOW : Nat := 54
/-- Event table of chapter 11, raised by E0: Byte 0: new level; byte 1: old level; byte 2: 0 granted at the same or a higher level, 1 END, 2 TRST_N, 3 level fall, granted at a lower level (R318). -/
abbrev Ev.DBG_SESSION : Nat := 56
/-- Event table of chapter 11, raised by E0: Byte 0: level requested; byte 1: FAILS. -/
abbrev Ev.DBG_AUTH_FAIL : Nat := 57
/-- Event table of chapter 11, raised by E0: Bytes 0 to 1: PERIOD. -/
abbrev Ev.SWD_WARN : Nat := 58
/-- Event table of chapter 11, raised by E0: Bytes 0 to 1: PERIOD; recorded before the reset. -/
abbrev Ev.SWD_EXPIRE : Nat := 59
/-- Event table of chapter 12, raised by Port: Byte 0: selector; byte 1: lane. -/
abbrev Ev.LAN_RCLK_SQUELCH : Nat := 496
/-- Event table of chapter 12, raised by Port: Byte 0: lane; byte 1: 0 underflow, 1 overflow. -/
abbrev Ev.LAN_RAW_FIFO : Nat := 497
/-- Event table of chapter 12, raised by Port: Byte 0: lane; byte 1: MODE. -/
abbrev Ev.LAN_SILENT : Nat := 498
/-- Event table of chapter 12, raised by Port: Byte 0: lane. -/
abbrev Ev.LAN_WAKE_STALE : Nat := 499
/-- Event table of chapter 13, raised by Port: Byte 0: port; byte 1: 1 succeeded, 0 failed. -/
abbrev Ev.PKT_VERIFY : Nat := 128
/-- Event table of chapter 13, raised by Port: Byte 0: RESULT; bytes 1 to 4: DONE_CNT; byte 5: ABORT_LATE. -/
abbrev Ev.PKT_LKP_END : Nat := 129
/-- Event table of chapter 13, raised by Port: Bytes 0 to 1: stash occupancy. -/
abbrev Ev.PKT_STASH_HIGH : Nat := 130
/-- Event table of chapter 13, raised by Port: Bytes 0 to 1: queue; byte 2: RESULT; byte 3: ABORT_LATE. -/
abbrev Ev.PKT_FLUSH_END : Nat := 131
/-- Event table of chapter 13, raised by Port: Byte 0: port; byte 1: priority. -/
abbrev Ev.PKT_HDRM_DROP : Nat := 132
/-- Event table of chapter 13, raised by Port: Bytes 0 to 1: queue. -/
abbrev Ev.PKT_SPILL_DROP : Nat := 133
/-- Event table of chapter 13, raised by Port: Bytes 0 to 1: queue; bytes 2 to 3: STK_STROKE_NUM. -/
abbrev Ev.PKT_X_OVER : Nat := 134
/-- Event table of chapter 13, raised by Port: Byte 0: reason; byte 1: port. -/
abbrev Ev.PKT_SCHED_REFUSED : Nat := 135
/-- Event table of chapter 13, raised by Port: Bytes 0 to 1: ring; byte 2: NoC status. -/
abbrev Ev.PKT_DRING_ERR : Nat := 136
/-- Event table of chapter 14, raised by E0: Byte 0: 1 SET, 2 ADJ; bytes 1 to 4: SET_NS. -/
abbrev Ev.TOD_STEP : Nat := 137
/-- Event table of chapter 14, raised by E0: no data. -/
abbrev Ev.TOD_UNTIMED : Nat := 138
/-- Event table of chapter 14, raised by E0: Bytes 0 to 3: captured nanoseconds. -/
abbrev Ev.TOD_PPS_IN : Nat := 139
/-- Event table of chapter 14, raised by Port: Byte 0: egress port; byte 1: messageType. -/
abbrev Ev.PTP_SKIPPED : Nat := 140
/-- Event table of chapter 15, raised by Port: Byte 0: profile; byte 1: 0 region, 1 UDP over IPv6, 2 too long. -/
abbrev Ev.CMP_UNFIT : Nat := 144
/-- Event table of chapter 15, raised by Port: Byte 0: profile; bytes 1 to 2: ingress port. -/
abbrev Ev.CMP_DROP : Nat := 145
/-- Event table of chapter 15, raised by Port: Byte 0: 1 DONE, 2 ERROR; byte 1: STATUS; bytes 2 to 5: CMP_JOB_OUT. -/
abbrev Ev.CMP_JOB_END : Nat := 146
/-- Event table of chapter 15, raised by Port: Byte 0: profile; byte 1: exponent read. -/
abbrev Ev.CMP_BAD_EXP : Nat := 147
/-- Event table of chapter 16, raised by Port: Byte 0: port; byte 1: new state; byte 2: speed code; byte 3: width. -/
abbrev Ev.MEM_CXL_STATE : Nat := 160
/-- Event table of chapter 16, raised by Port: Byte 0: port; byte 1: cause, 0 surprise, 1 planned, 2 safe; bytes 2 to 5: LOST_DIRTY, at the end of the walk. -/
abbrev Ev.MEM_CXL_DETACH : Nat := 161
/-- Event table of chapter 16, raised by Port: Byte 0: port; bytes 1 to 4: data. -/
abbrev Ev.MEM_CXL_IRQ : Nat := 162
/-- Event table of chapter 16, raised by Port: Byte 0: channel; bytes 1 to 4: line. -/
abbrev Ev.MEM_DDR_CE : Nat := 163
/-- Event table of chapter 16, raised by Port: Byte 0: channel; bytes 1 to 4: line. -/
abbrev Ev.MEM_DDR_UE : Nat := 164
/-- Event table of chapter 16, raised by Port: Byte 0: channel; byte 1: RESULT; byte 2: ABORT_LATE. -/
abbrev Ev.MEM_DDR_TRN_END : Nat := 165
/-- Event table of chapter 16, raised by E0: Byte 0: 1 up, 0 down; byte 1: speed; byte 2: width. -/
abbrev Ev.MEM_PCI_LINK : Nat := 166
/-- Event table of chapter 16, raised by E0: Bytes 0 to 1: ring; byte 2: cause. -/
abbrev Ev.MEM_HR_ERR : Nat := 167
/-- Event table of chapter 16, raised by E0: Bytes 0 to 3: M lines dropped. -/
abbrev Ev.MEM_HOME_LOST : Nat := 168
/-- Event table of chapter 17, raised by Any: Byte 0: group; bytes 1 to 3: address. -/
abbrev Ev.ECC_CE : Nat := 60
/-- Event table of chapter 17, raised by Any: Byte 0: group; bytes 1 to 3: address. -/
abbrev Ev.ECC_UE : Nat := 61
/-- Event table of chapter 17, raised by Any: Byte 0: group. -/
abbrev Ev.ECC_LOG_FULL : Nat := 62
/-- Event table of chapter 17, raised by Port: Byte 0: engine; byte 1: ICLS; bytes 2 to 7: address. -/
abbrev Ev.PROT_DENIED : Nat := 176
/-- Event table of chapter 17, raised by Port: Byte 0: engine; bytes 1 to 6: address. -/
abbrev Ev.PROT_INTEG_FAIL : Nat := 177
/-- Event table of chapter 17, raised by Port: Byte 0: engine; byte 1: level, 0 for a counter line; bytes 2 to 5: index. -/
abbrev Ev.PROT_NODE_POISON : Nat := 178
/-- Event table of chapter 17, raised by Port: Byte 0: engine; bytes 1 to 6: address of the group. -/
abbrev Ev.PROT_GROUP_LOCKED : Nat := 179
/-- Event table of chapter 17, raised by Port: Byte 0: engine; byte 1: region. -/
abbrev Ev.PROT_REGION_LOST : Nat := 180
/-- Event table of chapter 17, raised by Port: Byte 0: engine; byte 1: region; byte 2: RESULT; byte 3: ABORT_LATE. -/
abbrev Ev.PROT_INIT_END : Nat := 181
/-- Event table of chapter 17, raised by E0: no data. -/
abbrev Ev.PROT_KEY_FAIL : Nat := 182
/-- Event table of chapter 18, raised by E0: Byte 0: source; byte 1: 0 loss, 1 frequency, 2 amplitude. -/
abbrev Ev.CLK_REF_LOSS : Nat := 0
/-- Event table of chapter 18, raised by E0: Byte 0: 1 entered, 0 ended; byte 1: 0 no fallback, 1 PLL unlock. -/
abbrev Ev.CLK_COAST : Nat := 1
/-- Event table of chapter 18, raised by E0: Byte 0: old source; byte 1: new source; byte 2: bit 0 forced, bit 1 automatic. -/
abbrev Ev.CLK_SWITCH : Nat := 2
/-- Event table of chapter 18, raised by E0: Byte 0: source requested, 0xFF for a fallback. -/
abbrev Ev.CLK_SWITCH_REFUSED : Nat := 3
/-- Event table of chapter 18, raised by Port: Byte 0: 0 coast, 1 lane rail. -/
abbrev Ev.CLK_LINE_SAFE : Nat := 4
/-- Event table of chapter 18, raised by E0: Byte 0: source. -/
abbrev Ev.CLK_SRC_READY : Nat := 5
/-- Event table of chapter 18, raised by E0: Bytes 0 to 3: RC cycles in 1 ms. -/
abbrev Ev.CLK_RC_FAULT : Nat := 6
/-- Event table of chapter 18, raised by Fabric: Byte 0: fabric PLL 0 to 3, 4 for the core PLL. -/
abbrev Ev.CLK_FPLL_UNLOCK : Nat := 7
/-- Event table of chapter 18, raised by E0: Byte 0: rail; bytes 1 to 2: minimum in mV; bytes 3 to 6: duration in µs. -/
abbrev Ev.PWR_DIP : Nat := 8
/-- Event table of chapter 18, raised by E0: Byte 0: rail; bytes 1 to 2: minimum in mV. -/
abbrev Ev.PWR_RAIL_RESET : Nat := 9
/-- Event table of chapter 18, raised by Fabric: Byte 0: level refused; byte 1: die index of the neighbour. -/
abbrev Ev.PWR_NEIGHBOUR_LIMIT : Nat := 10
/-- Event table of chapter 18, raised by E0: Byte 0: rail selector; byte 1: 0 no response, 1 CRC, 2 fault status, 3 output not good within 10 ms of a write. -/
abbrev Ev.PWR_AVS_ERR : Nat := 11
/-- Event table of chapter 18, raised by Any: Byte 0: sensor; bytes 1 to 2: reading in 0.25 °C. -/
abbrev Ev.PWR_HOT : Nat := 12
/-- Event table of chapter 18, raised by Any: As PWR_HOT. -/
abbrev Ev.PWR_TJ_MAX : Nat := 13
/-- Event table of chapter 18, raised by Any: Byte 0: level; byte 1: power state. -/
abbrev Ev.PWR_STATE : Nat := 14
/-- Event table of chapter 19, raised by E0: Bytes 0 to 3: slot; byte 4: 0 program, 1 erase, 2 read-back. -/
abbrev Ev.REC_FLASH_ERR : Nat := 24
/-- Event table of chapter 19, raised by E0: Bytes 0 to 3: SEQ of the record lost. -/
abbrev Ev.REC_LOST : Nat := 25
/-- Event table of chapter 19, raised by E0: Byte 0: OP; byte 1: RESULT; bytes 2 to 5: generation. -/
abbrev Ev.MGT_CAL_DONE : Nat := 26
/-- Event table of chapter 19, raised by Any: Byte 0: counter. -/
abbrev Ev.PMC_OVF : Nat := 28
/-- Event table of chapter 19, raised by Any: Byte 0: monitor; bytes 1 to 2: SEQ. -/
abbrev Ev.PMC_BW_DONE : Nat := 29
/-- Event table of chapter 19, raised by Fabric: Byte 0: parcel. -/
abbrev Ev.EVT_FP_DROP : Nat := 30

/-- The events of one lane (chapter 12). -/
abbrev Ev.LAN_LINK (lane : Nat) : Nat := 256 + lane
/-- A partner arrived or left (chapter 12). -/
abbrev Ev.LAN_PRESENCE (lane : Nat) : Nat := 304 + lane
/-- A bring-up ended (chapter 12). -/
abbrev Ev.LAN_BRINGUP_END (lane : Nat) : Nat := 352 + lane
/-- A recovery began or ended (chapter 12). -/
abbrev Ev.LAN_RECOVER (lane : Nat) : Nat := 400 + lane
/-- A PRBS error threshold was reached (chapter 12). -/
abbrev Ev.LAN_PRBS_THRESH (lane : Nat) : Nat := 448 + lane

/-- The events that are recorded whatever their route (R529), all of E0. -/
abbrev Ev.forced : List Nat := [Ev.PWR_DIP, Ev.PWR_RAIL_RESET, Ev.DBG_SESSION, Ev.DBG_AUTH_FAIL, Ev.SWD_EXPIRE]

end Sys2Proof.Machine
end

