-- ==== Sys2Proof/Config.lean ====
section
/-! DEFINITION. What one part fixes and what the spec leaves open: constants without a body, so that nothing can lean on a
value of them; and the shapes of what a configuration frame sets. -/

namespace Sys2Proof.Config

/-- Bits that the spec leaves open after a step (DESIGN CHOICE, log entry 2). `State.fresh` counts the uses. -/
opaque freeBits (width use : Nat) : BitVec width

/-- Fused: the 64-bit number unique to the die with this index (DIE_UID, chapter 01). -/
opaque dieUid (die : Nat) : BitVec 64

/-- Fused: whether the fabric die with this index is stepping B0, else A1 (R26). -/
opaque fabricIsB0 (die : Nat) : Bool

/-- The check bits that data bit `bit` of a memory word of `width` bits takes part in: the SECDED matrices are not stated (R486; DESIGN
CHOICE, log entry 25). -/
opaque checkColumn (width bit : Nat) : Nat

/-- The check bits that a poisoned word of `width` bits shows: the poison pattern is not stated (R111; DESIGN CHOICE, log entry 25). -/
opaque poisonPattern (width : Nat) : Nat

/-- Whether the immediate of ALU operation `op` is sign-extended: the spec says so of MOVI alone (R299; DESIGN CHOICE, log entry 20). -/
opaque aluImmSigned (op : Nat) : Bool

/-- How one flip-flop of a cell is set (R72, R78): clock CLK1 or CLK0; enable 0 none, 1 CE0, 2 CE1; whether SR acts;
SRVAL; INIT; data source 0 LUT output (O6 for QA, O5 for QB), 1 OM, 2 bypass (X for QA, Y for QB). -/
structure FFCfg where
  clk1 : Bool
  enable : Nat
  sr : Bool
  srval : Bool
  init : Bool
  src : Nat
  deriving DecidableEq, Repr, Inhabited

/-- How a cell is set (R71, R74): its truth table, L5×2 mode, generate from X, and its flip-flops A and B. -/
structure CellCfg where
  init : BitVec 64
  split : Bool
  genX : Bool
  a : FFCfg
  b : FFCfg
  deriving DecidableEq, Repr, Inhabited

/-- The chain mux mode of a cluster (R73). -/
inductive ChainMode where
  | off | carry | wide
  deriving DecidableEq, Repr, Inhabited

/-- The carry into cell 0 (R75). -/
inductive CarryIn where
  | chain | zero | one | x
  deriving DecidableEq, Repr, Inhabited

/-- How a cluster is set (R73 to R78): its chain mode, its carry in, its SR mode, which of its tile's 16 clocks CLK0 and CLK1 are (R96),
whether their polarity bits invert them (R77), and its cells. -/
structure ClusterCfg where
  mode : ChainMode
  carryIn : CarryIn
  async : Bool
  clk0 : Nat
  clk1 : Nat
  inv0 : Bool
  inv1 : Bool
  cells : List CellCfg
  deriving DecidableEq, Repr, Inhabited

/-- How a block RAM is set (R104, R105, R107): geometry 0 ×8, 1 ×16, 2 ×32, 3 ×64 per port; output registers; and the clock of each
port among the 16 of its switch box, with its polarity bit. -/
structure BramCfg where
  simple : Bool
  geomA : Nat
  geomB : Nat
  outA : Bool
  outB : Bool
  clkA : Nat
  clkB : Nat
  invA : Bool
  invB : Bool
  deriving DecidableEq, Repr, Inhabited

/-- How a multiply block is set (R118 to R123), and its clock among the 16 of its switch box (R104). -/
structure MultCfg where
  stage1 : Bool
  stage2 : Bool
  stage3 : Bool
  stage5 : Bool
  preadd : Bool
  shift : Nat
  convergent : Bool
  saturate : Bool
  satWidth : Nat
  clk : Nat
  deriving DecidableEq, Repr, Inhabited

/-- The direction of a single, quad or long wire (R83). -/
inductive Side where
  | north | east | south | west
  deriving DecidableEq, Repr, Inhabited

/-- A signal that routing can carry (R70, R83, R85, R94 to R96, R181). A switch box is named by its tile row and its physical column
(R81). -/
inductive Sig where
  /-- The input of code 0: none, the wire is held at 0 (R82). -/
  | zero
  /-- Output `pin` of a cluster: O6 of cells 0 to 7, OM 8 to 15, QA 16 to 23, QB 24 to 31, COUT 32 (R70, R75). -/
  | out (cluster pin : Nat)
  /-- An ordinary wire that the switch box at a row and column drives to one side: singles 0 to 95, quads 96 to 143, longs 144 to 151. -/
  | wire (row col : Nat) (side : Side) (i : Nat)
  /-- A shared column rail (R85). -/
  | rail (n : Nat)
  /-- An output of a block RAM: for each port 32 bits of DOUT, SBE and DBE, those of port B from 34 on (R105). -/
  | bram (block pin : Nat)
  /-- An output of a multiply block: 64 bits of O, then SAT. -/
  | mult (block pin : Nat)
  /-- The capture register of a seam wire on this die (R181). -/
  | seam (edge group wire : Nat)
  /-- The input of a user I/O pin of this die (R550). -/
  | pin (n : Nat)
  /-- A signal that a fabric port or the stroke port of a parcel presents to its logic (R147, R59). -/
  | port (parcel n : Nat)
  deriving DecidableEq, Repr, Inhabited

/-- What an encoded multiplexer of configuration memory drives (R82, R83). -/
inductive Node where
  | wire (row col : Nat) (side : Side) (i : Nat)
  /-- A local wire: data input 8k to 8k + 5 is A1 to A6 of cell k, 8k + 6 its X, 8k + 7 its Y; then CE0, CE1 and SR. -/
  | cell (cluster pin : Nat)
  /-- The data and the enable of the driver of a rail in one of its 22 tile rows (R85). -/
  | railData (rail row : Nat)
  | railEnable (rail row : Nat)
  /-- An input of a block RAM: for each port EN, WE, ADDR, DIN, RSTO, those of port B from 50 on. -/
  | bram (block pin : Nat)
  /-- An input of a multiply block: A, D, B, C, PSUB, MSUB, ZSEL, CE, RST. -/
  | mult (block pin : Nat)
  /-- The enable of a global clock net, and the fabric clock entry points and those of a parcel (R94, R95). -/
  | netEnable (net : Nat)
  | entry (n : Nat)
  | parcelEntry (parcel n : Nat)
  /-- The launch register of a seam wire on this die (R181). -/
  | launch (edge group wire : Nat)
  /-- The output data and the output enable of a user I/O pin (R220). -/
  | pinData (n : Nat)
  | pinEnable (n : Nat)
  /-- A signal that a parcel's logic drives into its fabric ports and stroke port. -/
  | port (parcel n : Nat)
  deriving DecidableEq, Repr, Inhabited

/-- How a seam group is set on one die (R181, R182): ASYNC mode, the sub-groups that capture on this die, and the group's clock among
the 16 of its edge tile. -/
structure SeamCfg where
  async : Bool
  dir : BitVec 4
  clk : Nat
  deriving DecidableEq, Repr, Inhabited

/-- The pull that an image gives a user I/O pin (R210). -/
inductive PinPull where
  | none | up | down
  deriving DecidableEq, Repr, Inhabited

/-- The code that each multiplexer takes from a configuration frame (R82); which bits of a frame set what is not stated (R196). -/
opaque frameMuxes (die frame : Nat) (data : BitVec 4096) : List (Node × Nat)

/-- Which of the signals that reach a multiplexer a code above 0 selects: the encoding is not stated (R82). -/
opaque muxInput (die : Nat) (node : Node) (code : Nat) : Nat

/-- The clocks that a frame gives switch boxes (R96): row, physical column, which of the 16, and the net plus 1, or 0 for none. Nets 0 to
31 are global and 32 to 43 regional. -/
opaque frameTileClocks (die frame : Nat) (data : BitVec 4096) : List ((Nat × Nat × Nat) × Nat)

/-- The sources that a frame gives global nets (R94): 0 none, 1 to 16 the outputs of the fabric PLLs, 17 the fabric reference, 18 to 25
the fabric clock entry points. -/
opaque frameGlobalNets (die frame : Nat) (data : BitVec 4096) : List (Nat × Nat)

/-- The sources that a frame gives the regional nets of its parcel (R95): 0 none, 1 + 4 × net + k the global net divided by 2^k, 129 to
132 the regional entry points. -/
opaque frameRegionalNets (die frame : Nat) (data : BitVec 4096) : List (Nat × Nat)

/-- The rail drivers that a frame sets (R85): rail, tile row in its parcel, and enable code. -/
opaque frameRails (die frame : Nat) (data : BitVec 4096) : List (Nat × Nat × Nat)

/-- The pulls that a frame gives user I/O pins. -/
opaque framePins (die frame : Nat) (data : BitVec 4096) : List (Nat × PinPull)

/-- The value of a signal that the spec leaves open: on a combinational loop, ignored at a fence or in GSR, undriven (DESIGN CHOICE, log
entry 183). -/
opaque openSig (die : Nat) (x : Sig) (use : Nat) : Bool

/-- The check code over the low `n` bits of a flit or header: the code is not stated (R134; DESIGN CHOICE, log entry 191). -/
opaque flitCheck (n bits : Nat) : Nat

/-- The set of a line in its die-cache slice and of its home's directory: how an address picks a set is not stated (R150, R151; DESIGN
CHOICE, log entry 193). -/
opaque cacheSet (line : Nat) : BitVec 9

/-- See `cacheSet`. -/
opaque dirSet (line : Nat) : BitVec 16

/-- The bits of a word of the lookup table, a home directory, metadata in a protection buffer or an empty place of a die cache that holds
`entry`: their layout is not stated (R486; DESIGN CHOICE, log entry 215). -/
opaque entryWord (group word entry : Nat) : BitVec 64

/-- The clusters a configuration frame sets: which bits of a frame set what is not stated (R196). -/
opaque frameClusters (die frame : Nat) (data : BitVec 4096) : List (Nat × ClusterCfg)

/-- The block RAMs a configuration frame sets. -/
opaque frameBrams (die frame : Nat) (data : BitVec 4096) : List (Nat × BramCfg)

/-- The multiply blocks a configuration frame sets. -/
opaque frameMults (die frame : Nat) (data : BitVec 4096) : List (Nat × MultCfg)

/-- The fabric ports a configuration frame sets (R147): port number in the die; mode 0 OFF, 1 INITIATOR, 2 TARGET, 3 BOTH; and the net of
its parcel that clocks it plus 1, or 0 for none. -/
opaque framePorts (die frame : Nat) (data : BitVec 4096) : List (Nat × Nat × Nat)

/-- What a cell of the boundary-scan register belongs to: its description is not part of the spec (R212; DESIGN CHOICE, log entry 227).
0 no pin, else 1 + 3 × pin + k for the input (k = 0), output data (1) or output enable (2) of a pin. -/
opaque boundaryRole (cell : Nat) : Nat

/-- The seam groups a configuration frame sets: edge and group, and the setting (R181, R182). -/
opaque frameSeams (die frame : Nat) (data : BitVec 4096) : List ((Nat × Nat) × SeamCfg)

/-- The MAC blocks a configuration frame sets: block and mode (R366). -/
opaque frameMacs (die frame : Nat) (data : BitVec 4096) : List (Nat × Nat)

/-- The clamp codes a configuration frame holds: outward wire, seam wire, or output data or enable of a pin, and 2-bit code (R197,
R221). -/
opaque frameClamps (die frame : Nat) (data : BitVec 4096) : List (Node × Nat)

/-- The nominal voltage in mV of an I/O bank's rail (17 to 28) under the full image with this DIGEST (R512). -/
opaque bankNominal (digest rail : Nat) : BitVec 12

/-- The registers whose "image" value a frame carries: key and word. -/
opaque frameRegs (die frame : Nat) (data : BitVec 4096) : List (Nat × Word)

end Sys2Proof.Config
end

