-- ==== Sys2Proof/Machine/RegTypes.lean ====
section
/-! DEFINITION. What a register is: its name, block, access types (R12), reset domain (R15) and presence (R45, R46). -/

namespace Sys2Proof.Machine

/-- The access types of R12. Bits that no field names are RSV. -/
inductive Access where
  | rw | ro | w1c | rtc | w1p
  deriving DecidableEq, Repr

/-- The reset domains of R15. -/
inductive Domain where
  | por | cfg | die | parcel | core
  deriving DecidableEq, Repr

/-- On which dies a register is present, besides its block's own presence (R45, R46). -/
inductive Presence where
  | all | e0 | port | fab
  deriving DecidableEq, Repr

/-- The control-space blocks of R45. -/
inductive Block where
  | die | clk | pwr | cfg | prc | scr | stk | noc | wld | hmr | lan | pkt | cmp | mem | prot | ecc | evt | pmc | fieldBook | dbg | mgt
  deriving DecidableEq, Repr

/-- Every register name of the spec. -/
inductive Reg where
  | DIE_ID | DIE_STEP | DIE_UID_LO | DIE_UID_HI | DIE_SLOT_STEP | DIE_RESET_REQ
  | DIE_STATE | DIE_RST_CAUSE | STK_CTRL | STK_TIMING | STK_TIMING_NEXT | STK_STATUS
  | STK_STROKE_NUM | STK_HEAT_NUM | STK_LOCK_ERR | STK_UNIT_CTRL | STK_UNIT_STAT | STK_OVR
  | STK_CHG_CTRL | STK_CHG_STATUS | STK_CHG_REQ | STK_CHG_ARMED | STK_SPLIT | CFG_RAIL_CONT
  | CFG_RAIL_COUNT | CFG_RAIL_IDX | CFG_RAIL_DATA | CFG_RAIL_CLR | NOC_RTR_IDX | NOC_RTR_CTRL
  | NOC_RTR_FLITS | NOC_RTR_ERR | NOC_EP_IDX | NOC_TMO_X | NOC_TMO_H | NOC_TMO_N
  | NOC_TMO_B | NOC_EP_STAT | NOC_EP_CNT0 | NOC_EP_CNT1 | NOC_FENCE_CFG | NOC_FENCE_STAT
  | NOC_DFENCE_STAT | NOC_FENCE_CNT | NOC_DC_CMD | NOC_DC_STAT | NOC_DIR_CNT | NOC_XRES_IDX
  | NOC_XRES_LO | NOC_XRES_HI | NOC_XRES_STAT | NOC_XRES_LINK | WLD_CH_IDX | WLD_CH_STAT
  | WLD_CH_VER | WLD_CH_CMD | WLD_CH_ERR | WLD_CH_REPAIR | WLD_ERR_CFG | WLD_SEAM_IDX
  | WLD_SEAM_STAT | WLD_EDGE_IDX | WLD_EDGE_STAT | CFG_CMD | CFG_STATUS | CFG_SRC
  | CFG_ERR_ADDR | CFG_PROGRESS | CFG_IMG_ID | CFG_GAP_A | CFG_GAP_B | CFG_RETRY
  | CFG_FLASH | CFG_DIE_STAT | PRC_LOAD_CTRL | PRC_LOAD_STAT | PRC_STATE | PRC_PG_CTRL
  | PRC_PG_STAT | PRC_CAP_CTRL | PRC_CAP_STAT | PRC_CAP_HEAT | SCR_CTRL | SCR_ACTION
  | SCR_LAP_LIMIT | SCR_CMD | SCR_STATUS | SCR_LAP_LAST | SCR_LAP_MAX | SCR_LAP_COUNT
  | SCR_CNT | SCR_REPAIR_CNT | SCR_ERR_ADDR | SCR_VOTE | SCR_HELD | SCR_SRC
  | HMR_CORE_CTRL | HMR_CORE_STAT | HMR_CORE_ERR | HMR_TNG_POST | HMR_TNG_GO | HMR_TNG_STAT
  | HMR_TNG_CTRL | HMR_DBG_CTRL | HMR_DBG_STAT | HMR_DBG_REG_IDX | HMR_DBG_REG_DATA | HMR_BKPT
  | HMR_IRQ_CTRL | HMR_IRQ_PEND | HMR_IRQ_SET | HMR_STK_CTRL | HMR_STK_STAT | HMR_WDOG_CTRL
  | HMR_WDOG_KICK | HMR_WDOG_STAT | HMR_HALTED | HMR_XTRIG_CNT | DBG_SESSION | DBG_KEY_STAT
  | DBG_CTRL | DBG_SWD_CTRL | DBG_SWD_KICK | DBG_SWD_STAT | DBG_BUSY_CNT | LAN_LANE_CFG
  | LAN_LANE_FREQ | LAN_LANE_CMD | LAN_LANE_STAT | LAN_LANE_PARTNER | LAN_LANE_FOM | LAN_LANE_CNT
  | LAN_LPBK | LAN_PRBS_CTRL | LAN_PRBS_ERR | LAN_PRBS_BITS_LO | LAN_PRBS_BITS_HI | LAN_PRBS_THRESH
  | LAN_RAW_CNT | LAN_QUAD_CFG | LAN_QUAD_RATE_NEXT | LAN_QUAD_STAT | LAN_FOM_CFG | LAN_LP_CFG
  | LAN_RCK0_CTRL | LAN_RCK1_CTRL | LAN_RCLK_OUT | PKT_PORT_CFG | PKT_PORT_PFC | PKT_PORT_HDRM
  | PKT_PORT_STAT | PKT_PORT_CNT | PKT_PROF_IDX | PKT_PROF_EXT | PKT_PROF_MISS_LO | PKT_PROF_MISS_HI
  | PKT_LKP_CFG | PKT_LKP_KEY | PKT_LKP_RES_LO | PKT_LKP_RES_HI | PKT_LKP_CMD | PKT_LKP_STAT
  | PKT_LKP_BULK_ADDR_LO | PKT_LKP_BULK_ADDR_HI | PKT_LKP_BULK_CNT | PKT_LKP_DONE | PKT_LKP_OCC | PKT_Q_IDX
  | PKT_Q_CFG | PKT_Q_MIN | PKT_Q_SCHED | PKT_Q_SCHED_NEXT | PKT_Q_STAT | PKT_Q_CNT
  | PKT_Q_CMD | PKT_Q_FLUSH_STAT | PKT_GRP_IDX | PKT_GRP | PKT_GRP_NEXT | PKT_SCHED_STAT
  | PKT_BUF_STAT | PKT_BUF_SHARED | PKT_SPILL_BASE_LO | PKT_SPILL_BASE_HI | PKT_SPILL_SIZE | PKT_SPILL_STAT
  | PKT_XDIE_DROP | PKT_DRING_IDX | PKT_DRING_BASE_LO | PKT_DRING_BASE_HI | PKT_DRING_CFG | PKT_DRING_HEAD
  | PKT_DRING_TAIL | PKT_DRING_CNT | PKT_TS_CORR | PKT_TC_CFG | PKT_TC_CNT | PKT_TOD_CTRL
  | PKT_TOD_INCR | PKT_TOD_SET_NS | PKT_TOD_SET_SEC_LO | PKT_TOD_SET_SEC_HI | PKT_TOD_NS | PKT_TOD_SEC_LO
  | PKT_TOD_SEC_HI | PKT_PPS_CFG | PKT_PPS_IN_NS | PKT_PPS_IN_SEC | CMP_PROF_IDX | CMP_PROF_CFG
  | CMP_PROF_LEN | CMP_JOB_POST | CMP_JOB_POST4 | CMP_JOB_GO | CMP_JOB_CTRL | CMP_JOB_STAT
  | CMP_JOB_OUT | CMP_CNT | CMP_CNT1 | CMP_BLOCKS | MEM_CXL_CTRL | MEM_CXL_STAT
  | MEM_CXL_SIZE | MEM_CXL_IOA | MEM_CXL_IOD | MEM_CXL_CNT | MEM_DDR_CFG | MEM_DDR_CMD
  | MEM_DDR_STAT | MEM_DDR_MRW | MEM_DDR_DLY_IDX | MEM_DDR_DLY | MEM_DDR_PAT | MEM_DDR_PAT_VAL
  | MEM_DDR_TRN_CTRL | MEM_DDR_TRN_STAT | MEM_DDR_TRN_RES | MEM_DDR_ECC | MEM_DDR_ECC_ADDR | MEM_PCI_CTRL
  | MEM_PCI_STAT | MEM_HR_IDX | MEM_HR_BASE_LO | MEM_HR_BASE_HI | MEM_HR_CFG | MEM_HR_PTR
  | MEM_HR_STAT | PROT_IDX | PROT_KEY_STAT | PROT_DEF | PROT_RGN_BASE_LO | PROT_RGN_BASE_HI
  | PROT_RGN_CFG | PROT_RGN_META_LO | PROT_RGN_META_HI | PROT_RGN_META_SZ | PROT_RGN_RIGHTS | PROT_RGN_CMD
  | PROT_RGN_STAT | PROT_RGN_PROG | PROT_CNT | PROT_CNT1 | PROT_ERR_LO | PROT_ERR_HI
  | ECC_GRP_IDX | ECC_GRP_CNT | ECC_GRP_LAP | ECC_GRP_CTRL | ECC_LOG_IDX | ECC_LOG_ADDR
  | ECC_LOG_INFO | ECC_TEST_CTRL | ECC_TEST_CHK | CLK_CTRL | CLK_STATUS | CLK_SRC_STAT
  | CLK_SRC_FREQ | CLK_GATE_IDX | CLK_GATE | CLK_FPLL_STAT | CLK_CPLL_STAT | PWR_PL_NEXT
  | PWR_PL_STAT | PWR_RAIL_IDX | PWR_RAIL_STAT | PWR_RAIL_DIP | PWR_TEMP_IDX | PWR_TEMP
  | PWR_TEMP_CFG | PWR_PMB_CMD | PWR_PMB_DATA | EVT_IDX | EVT_ROUTE | EVT_CNT
  | EVT_LAST_LO | EVT_LAST_HI | EVT_PEND | EVT_FP_CTRL | PMC_IDX | PMC_SEL
  | PMC_THRESH | PMC_CNT_LO | PMC_CNT_HI | PMC_CTRL | PMC_OVF0 | PMC_OVF1
  | PMC_BW_IDX | PMC_BW_CFG | PMC_BW_SRC | PMC_BW_BYTES_LO | PMC_BW_BYTES_HI | PMC_BW_COUNT
  | REC_SEQ_OLD | REC_SEQ_NEW | REC_STAT | REC_OPSEC | REC_PCYCLE | REC_NOTE_LO
  | REC_NOTE_HI | REC_NOTE_GO | REC_FL_CFG | REC_FL_SLOT | REC_FL_DATA | MGT_CMD
  | MGT_STAT | MGT_CAL_ADDR_LO | MGT_CAL_ADDR_HI | MGT_CAL_LEN | MGT_CAL_STAT | MGT_ATTN
  deriving DecidableEq, Repr

/-- Where a register lies: its block, the offset of its first element, how many elements follow each other 4 bytes apart,
how many copies (cores, lanes, ports) the block has and their distance, its reset domain, its presence, and the index
register that selects which unit it shows. -/
structure RegInfo where
  block : Block
  base : Nat
  elems : Nat
  copies : Nat
  stride : Nat
  domain : Domain
  presence : Presence
  sel : Option Reg
  deriving DecidableEq, Repr

/-- A field of a register: its lowest bit, width, access type and the value the table gives at reset. -/
structure Fld where
  reg : Reg
  lo : Nat
  width : Nat
  acc : Access
  reset : Nat
  deriving DecidableEq, Repr

end Sys2Proof.Machine
end

