-- ==== Sys2Proof/Machine/Regs.lean ====
section
/-! DEFINITION. The register map: every register table of the spec (chapters 01 to 19), one constructor of `Reg` per
register name, with its block, offset, reset domain, presence and fields (R5, R9, R12, R15, R45). A run of equal registers
(`STK_CHG_REQ0` to `STK_CHG_REQ3`) is one constructor with several elements. -/

namespace Sys2Proof.Machine


/-- Where a register lies and which reset events return it to its reset value. -/
def Reg.info : Reg → RegInfo
  | .DIE_ID => ⟨.die, 0x0, 1, 1, 0x0, .por, .all, none⟩
  | .DIE_STEP => ⟨.die, 0x4, 1, 1, 0x0, .por, .all, none⟩
  | .DIE_UID_LO => ⟨.die, 0x8, 1, 1, 0x0, .por, .all, none⟩
  | .DIE_UID_HI => ⟨.die, 0xC, 1, 1, 0x0, .por, .all, none⟩
  | .DIE_SLOT_STEP => ⟨.die, 0x10, 1, 1, 0x0, .por, .e0, none⟩
  | .DIE_RESET_REQ => ⟨.die, 0x20, 1, 1, 0x0, .por, .e0, none⟩
  | .DIE_STATE => ⟨.die, 0x24, 1, 1, 0x0, .por, .e0, none⟩
  | .DIE_RST_CAUSE => ⟨.die, 0x28, 1, 1, 0x0, .por, .all, none⟩
  | .STK_CTRL => ⟨.stk, 0x0, 1, 1, 0x0, .por, .e0, none⟩
  | .STK_TIMING => ⟨.stk, 0x4, 1, 1, 0x0, .por, .all, none⟩
  | .STK_TIMING_NEXT => ⟨.stk, 0x8, 1, 1, 0x0, .por, .e0, none⟩
  | .STK_STATUS => ⟨.stk, 0xC, 1, 1, 0x0, .por, .all, none⟩
  | .STK_STROKE_NUM => ⟨.stk, 0x10, 1, 1, 0x0, .por, .all, none⟩
  | .STK_HEAT_NUM => ⟨.stk, 0x14, 1, 1, 0x0, .por, .all, none⟩
  | .STK_LOCK_ERR => ⟨.stk, 0x18, 1, 1, 0x0, .por, .e0, none⟩
  | .STK_UNIT_CTRL => ⟨.stk, 0x20, 1, 1, 0x0, .die, .all, none⟩
  | .STK_UNIT_STAT => ⟨.stk, 0x24, 1, 1, 0x0, .die, .all, none⟩
  | .STK_OVR => ⟨.stk, 0x30, 1, 1, 0x0, .die, .all, none⟩
  | .STK_CHG_CTRL => ⟨.stk, 0x40, 1, 1, 0x0, .por, .e0, none⟩
  | .STK_CHG_STATUS => ⟨.stk, 0x44, 1, 1, 0x0, .por, .e0, none⟩
  | .STK_CHG_REQ => ⟨.stk, 0x50, 4, 1, 0x0, .por, .e0, none⟩
  | .STK_CHG_ARMED => ⟨.stk, 0x60, 4, 1, 0x0, .por, .e0, none⟩
  | .STK_SPLIT => ⟨.stk, 0x70, 4, 1, 0x0, .por, .e0, none⟩
  | .CFG_RAIL_CONT => ⟨.cfg, 0x400, 1, 1, 0x0, .cfg, .fab, none⟩
  | .CFG_RAIL_COUNT => ⟨.cfg, 0x404, 1, 1, 0x0, .cfg, .fab, none⟩
  | .CFG_RAIL_IDX => ⟨.cfg, 0x408, 1, 1, 0x0, .cfg, .fab, none⟩
  | .CFG_RAIL_DATA => ⟨.cfg, 0x40C, 1, 1, 0x0, .parcel, .fab, (some .CFG_RAIL_IDX)⟩
  | .CFG_RAIL_CLR => ⟨.cfg, 0x410, 1, 1, 0x0, .cfg, .fab, none⟩
  | .NOC_RTR_IDX => ⟨.noc, 0x0, 1, 1, 0x0, .die, .all, none⟩
  | .NOC_RTR_CTRL => ⟨.noc, 0x4, 1, 1, 0x0, .die, .all, (some .NOC_RTR_IDX)⟩
  | .NOC_RTR_FLITS => ⟨.noc, 0x8, 1, 1, 0x0, .die, .all, (some .NOC_RTR_IDX)⟩
  | .NOC_RTR_ERR => ⟨.noc, 0xC, 1, 1, 0x0, .die, .all, (some .NOC_RTR_IDX)⟩
  | .NOC_EP_IDX => ⟨.noc, 0x40, 1, 1, 0x0, .die, .all, none⟩
  | .NOC_TMO_X => ⟨.noc, 0x44, 1, 1, 0x0, .die, .all, (some .NOC_EP_IDX)⟩
  | .NOC_TMO_H => ⟨.noc, 0x48, 1, 1, 0x0, .die, .all, (some .NOC_EP_IDX)⟩
  | .NOC_TMO_N => ⟨.noc, 0x4C, 1, 1, 0x0, .die, .all, (some .NOC_EP_IDX)⟩
  | .NOC_TMO_B => ⟨.noc, 0x50, 1, 1, 0x0, .die, .all, (some .NOC_EP_IDX)⟩
  | .NOC_EP_STAT => ⟨.noc, 0x54, 1, 1, 0x0, .die, .all, (some .NOC_EP_IDX)⟩
  | .NOC_EP_CNT0 => ⟨.noc, 0x58, 1, 1, 0x0, .die, .all, (some .NOC_EP_IDX)⟩
  | .NOC_EP_CNT1 => ⟨.noc, 0x5C, 1, 1, 0x0, .die, .all, (some .NOC_EP_IDX)⟩
  | .NOC_FENCE_CFG => ⟨.noc, 0x80, 1, 1, 0x0, .por, .all, none⟩
  | .NOC_FENCE_STAT => ⟨.noc, 0x84, 1, 1, 0x0, .die, .fab, none⟩
  | .NOC_DFENCE_STAT => ⟨.noc, 0x88, 1, 1, 0x0, .die, .all, none⟩
  | .NOC_FENCE_CNT => ⟨.noc, 0x8C, 1, 1, 0x0, .die, .all, none⟩
  | .NOC_DC_CMD => ⟨.noc, 0xC0, 1, 1, 0x0, .die, .fab, none⟩
  | .NOC_DC_STAT => ⟨.noc, 0xC4, 1, 1, 0x0, .die, .fab, none⟩
  | .NOC_DIR_CNT => ⟨.noc, 0xE0, 1, 1, 0x0, .por, .port, none⟩
  | .NOC_XRES_IDX => ⟨.noc, 0x100, 1, 1, 0x0, .cfg, .all, none⟩
  | .NOC_XRES_LO => ⟨.noc, 0x104, 1, 1, 0x0, .cfg, .all, (some .NOC_XRES_IDX)⟩
  | .NOC_XRES_HI => ⟨.noc, 0x108, 1, 1, 0x0, .cfg, .all, (some .NOC_XRES_IDX)⟩
  | .NOC_XRES_STAT => ⟨.noc, 0x10C, 1, 1, 0x0, .cfg, .e0, none⟩
  | .NOC_XRES_LINK => ⟨.noc, 0x110, 1, 1, 0x0, .cfg, .e0, none⟩
  | .WLD_CH_IDX => ⟨.wld, 0x0, 1, 1, 0x0, .die, .all, none⟩
  | .WLD_CH_STAT => ⟨.wld, 0x4, 1, 1, 0x0, .die, .all, (some .WLD_CH_IDX)⟩
  | .WLD_CH_VER => ⟨.wld, 0x8, 1, 1, 0x0, .die, .all, (some .WLD_CH_IDX)⟩
  | .WLD_CH_CMD => ⟨.wld, 0xC, 1, 1, 0x0, .die, .all, (some .WLD_CH_IDX)⟩
  | .WLD_CH_ERR => ⟨.wld, 0x10, 1, 1, 0x0, .die, .all, (some .WLD_CH_IDX)⟩
  | .WLD_CH_REPAIR => ⟨.wld, 0x14, 1, 1, 0x0, .die, .all, (some .WLD_CH_IDX)⟩
  | .WLD_ERR_CFG => ⟨.wld, 0x40, 1, 1, 0x0, .por, .all, none⟩
  | .WLD_SEAM_IDX => ⟨.wld, 0x80, 1, 1, 0x0, .die, .all, none⟩
  | .WLD_SEAM_STAT => ⟨.wld, 0x84, 1, 1, 0x0, .die, .all, (some .WLD_SEAM_IDX)⟩
  | .WLD_EDGE_IDX => ⟨.wld, 0xC0, 1, 1, 0x0, .por, .e0, none⟩
  | .WLD_EDGE_STAT => ⟨.wld, 0xC4, 1, 1, 0x0, .por, .e0, (some .WLD_EDGE_IDX)⟩
  | .CFG_CMD => ⟨.cfg, 0x0, 1, 1, 0x0, .por, .e0, none⟩
  | .CFG_STATUS => ⟨.cfg, 0x4, 1, 1, 0x0, .por, .e0, none⟩
  | .CFG_SRC => ⟨.cfg, 0x8, 1, 1, 0x0, .por, .e0, none⟩
  | .CFG_ERR_ADDR => ⟨.cfg, 0xC, 1, 1, 0x0, .por, .e0, none⟩
  | .CFG_PROGRESS => ⟨.cfg, 0x10, 1, 1, 0x0, .por, .e0, none⟩
  | .CFG_IMG_ID => ⟨.cfg, 0x14, 1, 1, 0x0, .cfg, .e0, none⟩
  | .CFG_GAP_A => ⟨.cfg, 0x18, 1, 1, 0x0, .cfg, .e0, none⟩
  | .CFG_GAP_B => ⟨.cfg, 0x1C, 1, 1, 0x0, .cfg, .e0, none⟩
  | .CFG_RETRY => ⟨.cfg, 0x20, 1, 1, 0x0, .por, .e0, none⟩
  | .CFG_FLASH => ⟨.cfg, 0x24, 1, 1, 0x0, .por, .e0, none⟩
  | .CFG_DIE_STAT => ⟨.cfg, 0x40, 1, 1, 0x0, .por, .all, none⟩
  | .PRC_LOAD_CTRL => ⟨.prc, 0x0, 1, 1, 0x0, .die, .all, none⟩
  | .PRC_LOAD_STAT => ⟨.prc, 0x4, 1, 1, 0x0, .por, .all, none⟩
  | .PRC_STATE => ⟨.prc, 0x8, 1, 1, 0x0, .por, .all, none⟩
  | .PRC_PG_CTRL => ⟨.prc, 0x10, 1, 1, 0x0, .die, .all, none⟩
  | .PRC_PG_STAT => ⟨.prc, 0x14, 1, 1, 0x0, .por, .all, none⟩
  | .PRC_CAP_CTRL => ⟨.prc, 0x20, 1, 1, 0x0, .die, .all, none⟩
  | .PRC_CAP_STAT => ⟨.prc, 0x24, 1, 1, 0x0, .die, .all, none⟩
  | .PRC_CAP_HEAT => ⟨.prc, 0x28, 1, 1, 0x0, .die, .all, none⟩
  | .SCR_CTRL => ⟨.scr, 0x0, 1, 1, 0x0, .por, .all, none⟩
  | .SCR_ACTION => ⟨.scr, 0x4, 1, 1, 0x0, .por, .all, none⟩
  | .SCR_LAP_LIMIT => ⟨.scr, 0x8, 1, 1, 0x0, .por, .all, none⟩
  | .SCR_CMD => ⟨.scr, 0x10, 1, 1, 0x0, .die, .all, none⟩
  | .SCR_STATUS => ⟨.scr, 0x14, 1, 1, 0x0, .die, .all, none⟩
  | .SCR_LAP_LAST => ⟨.scr, 0x18, 1, 1, 0x0, .die, .all, none⟩
  | .SCR_LAP_MAX => ⟨.scr, 0x1C, 1, 1, 0x0, .die, .all, none⟩
  | .SCR_LAP_COUNT => ⟨.scr, 0x20, 1, 1, 0x0, .die, .all, none⟩
  | .SCR_CNT => ⟨.scr, 0x24, 1, 1, 0x0, .die, .all, none⟩
  | .SCR_REPAIR_CNT => ⟨.scr, 0x28, 1, 1, 0x0, .die, .all, none⟩
  | .SCR_ERR_ADDR => ⟨.scr, 0x2C, 1, 1, 0x0, .die, .all, none⟩
  | .SCR_VOTE => ⟨.scr, 0x30, 1, 1, 0x0, .por, .all, none⟩
  | .SCR_HELD => ⟨.scr, 0x34, 1, 1, 0x0, .cfg, .fab, none⟩
  | .SCR_SRC => ⟨.scr, 0x38, 1, 1, 0x0, .cfg, .fab, none⟩
  | .HMR_CORE_CTRL => ⟨.hmr, 0x0, 1, 8, 0x1000, .die, .all, none⟩
  | .HMR_CORE_STAT => ⟨.hmr, 0x4, 1, 8, 0x1000, .die, .all, none⟩
  | .HMR_CORE_ERR => ⟨.hmr, 0x8, 1, 8, 0x1000, .die, .all, none⟩
  | .HMR_TNG_POST => ⟨.hmr, 0x20, 6, 8, 0x1000, .die, .all, none⟩
  | .HMR_TNG_GO => ⟨.hmr, 0x38, 1, 8, 0x1000, .die, .all, none⟩
  | .HMR_TNG_STAT => ⟨.hmr, 0x40, 1, 8, 0x1000, .die, .all, none⟩
  | .HMR_TNG_CTRL => ⟨.hmr, 0x44, 1, 8, 0x1000, .die, .all, none⟩
  | .HMR_DBG_CTRL => ⟨.hmr, 0x100, 1, 8, 0x1000, .die, .all, none⟩
  | .HMR_DBG_STAT => ⟨.hmr, 0x104, 1, 8, 0x1000, .die, .all, none⟩
  | .HMR_DBG_REG_IDX => ⟨.hmr, 0x108, 1, 8, 0x1000, .die, .all, none⟩
  | .HMR_DBG_REG_DATA => ⟨.hmr, 0x10C, 1, 8, 0x1000, .die, .all, (some .HMR_DBG_REG_IDX)⟩
  | .HMR_BKPT => ⟨.hmr, 0x110, 4, 8, 0x1000, .die, .all, none⟩
  | .HMR_IRQ_CTRL => ⟨.hmr, 0x120, 1, 8, 0x1000, .die, .all, none⟩
  | .HMR_IRQ_PEND => ⟨.hmr, 0x124, 1, 8, 0x1000, .die, .all, none⟩
  | .HMR_IRQ_SET => ⟨.hmr, 0x128, 1, 8, 0x1000, .die, .all, none⟩
  | .HMR_STK_CTRL => ⟨.hmr, 0x130, 1, 8, 0x1000, .die, .all, none⟩
  | .HMR_STK_STAT => ⟨.hmr, 0x134, 1, 8, 0x1000, .die, .all, none⟩
  | .HMR_WDOG_CTRL => ⟨.hmr, 0x140, 1, 8, 0x1000, .die, .all, none⟩
  | .HMR_WDOG_KICK => ⟨.hmr, 0x144, 1, 8, 0x1000, .die, .all, none⟩
  | .HMR_WDOG_STAT => ⟨.hmr, 0x148, 1, 8, 0x1000, .die, .all, none⟩
  | .HMR_HALTED => ⟨.hmr, 0x8000, 1, 1, 0x0, .die, .all, none⟩
  | .HMR_XTRIG_CNT => ⟨.hmr, 0x8004, 1, 1, 0x0, .die, .all, none⟩
  | .DBG_SESSION => ⟨.dbg, 0x0, 1, 1, 0x0, .por, .e0, none⟩
  | .DBG_KEY_STAT => ⟨.dbg, 0x4, 1, 1, 0x0, .por, .e0, none⟩
  | .DBG_CTRL => ⟨.dbg, 0x8, 1, 1, 0x0, .por, .e0, none⟩
  | .DBG_SWD_CTRL => ⟨.dbg, 0x10, 1, 1, 0x0, .por, .e0, none⟩
  | .DBG_SWD_KICK => ⟨.dbg, 0x14, 1, 1, 0x0, .por, .e0, none⟩
  | .DBG_SWD_STAT => ⟨.dbg, 0x18, 1, 1, 0x0, .por, .e0, none⟩
  | .DBG_BUSY_CNT => ⟨.dbg, 0x40, 1, 1, 0x0, .die, .all, none⟩
  | .LAN_LANE_CFG => ⟨.lan, 0x0, 1, 48, 0x100, .cfg, .all, none⟩
  | .LAN_LANE_FREQ => ⟨.lan, 0x4, 1, 48, 0x100, .cfg, .all, none⟩
  | .LAN_LANE_CMD => ⟨.lan, 0x8, 1, 48, 0x100, .die, .all, none⟩
  | .LAN_LANE_STAT => ⟨.lan, 0xC, 1, 48, 0x100, .die, .all, none⟩
  | .LAN_LANE_PARTNER => ⟨.lan, 0x10, 1, 48, 0x100, .die, .all, none⟩
  | .LAN_LANE_FOM => ⟨.lan, 0x14, 1, 48, 0x100, .die, .all, none⟩
  | .LAN_LANE_CNT => ⟨.lan, 0x18, 1, 48, 0x100, .die, .all, none⟩
  | .LAN_LPBK => ⟨.lan, 0x20, 1, 48, 0x100, .die, .all, none⟩
  | .LAN_PRBS_CTRL => ⟨.lan, 0x30, 1, 48, 0x100, .die, .all, none⟩
  | .LAN_PRBS_ERR => ⟨.lan, 0x34, 1, 48, 0x100, .die, .all, none⟩
  | .LAN_PRBS_BITS_LO => ⟨.lan, 0x38, 1, 48, 0x100, .die, .all, none⟩
  | .LAN_PRBS_BITS_HI => ⟨.lan, 0x3C, 1, 48, 0x100, .die, .all, none⟩
  | .LAN_PRBS_THRESH => ⟨.lan, 0x40, 1, 48, 0x100, .die, .all, none⟩
  | .LAN_RAW_CNT => ⟨.lan, 0x48, 1, 48, 0x100, .die, .all, none⟩
  | .LAN_QUAD_CFG => ⟨.lan, 0x4000, 1, 12, 0x10, .cfg, .all, none⟩
  | .LAN_QUAD_RATE_NEXT => ⟨.lan, 0x4004, 1, 12, 0x10, .die, .all, none⟩
  | .LAN_QUAD_STAT => ⟨.lan, 0x4008, 1, 12, 0x10, .die, .all, none⟩
  | .LAN_FOM_CFG => ⟨.lan, 0x8000, 1, 1, 0x0, .por, .all, none⟩
  | .LAN_LP_CFG => ⟨.lan, 0x8004, 1, 1, 0x0, .por, .all, none⟩
  | .LAN_RCK0_CTRL => ⟨.lan, 0x8010, 1, 1, 0x0, .die, .all, none⟩
  | .LAN_RCK1_CTRL => ⟨.lan, 0x8014, 1, 1, 0x0, .die, .all, none⟩
  | .LAN_RCLK_OUT => ⟨.lan, 0x8020, 1, 1, 0x0, .por, .e0, none⟩
  | .PKT_PORT_CFG => ⟨.pkt, 0x0, 1, 48, 0x40, .cfg, .all, none⟩
  | .PKT_PORT_PFC => ⟨.pkt, 0x4, 1, 48, 0x40, .cfg, .all, none⟩
  | .PKT_PORT_HDRM => ⟨.pkt, 0x8, 1, 48, 0x40, .cfg, .all, none⟩
  | .PKT_PORT_STAT => ⟨.pkt, 0xC, 1, 48, 0x40, .die, .all, none⟩
  | .PKT_PORT_CNT => ⟨.pkt, 0x10, 1, 48, 0x40, .die, .all, none⟩
  | .PKT_PROF_IDX => ⟨.pkt, 0x1000, 1, 1, 0x0, .cfg, .all, none⟩
  | .PKT_PROF_EXT => ⟨.pkt, 0x1004, 1, 1, 0x0, .cfg, .all, (some .PKT_PROF_IDX)⟩
  | .PKT_PROF_MISS_LO => ⟨.pkt, 0x1008, 1, 1, 0x0, .cfg, .all, (some .PKT_PROF_IDX)⟩
  | .PKT_PROF_MISS_HI => ⟨.pkt, 0x100C, 1, 1, 0x0, .cfg, .all, (some .PKT_PROF_IDX)⟩
  | .PKT_LKP_CFG => ⟨.pkt, 0x2000, 1, 1, 0x0, .cfg, .all, none⟩
  | .PKT_LKP_KEY => ⟨.pkt, 0x2010, 8, 1, 0x0, .die, .all, none⟩
  | .PKT_LKP_RES_LO => ⟨.pkt, 0x2030, 1, 1, 0x0, .die, .all, none⟩
  | .PKT_LKP_RES_HI => ⟨.pkt, 0x2034, 1, 1, 0x0, .die, .all, none⟩
  | .PKT_LKP_CMD => ⟨.pkt, 0x2040, 1, 1, 0x0, .die, .all, none⟩
  | .PKT_LKP_STAT => ⟨.pkt, 0x2044, 1, 1, 0x0, .die, .all, none⟩
  | .PKT_LKP_BULK_ADDR_LO => ⟨.pkt, 0x2048, 1, 1, 0x0, .die, .all, none⟩
  | .PKT_LKP_BULK_ADDR_HI => ⟨.pkt, 0x204C, 1, 1, 0x0, .die, .all, none⟩
  | .PKT_LKP_BULK_CNT => ⟨.pkt, 0x2050, 1, 1, 0x0, .die, .all, none⟩
  | .PKT_LKP_DONE => ⟨.pkt, 0x2054, 1, 1, 0x0, .die, .all, none⟩
  | .PKT_LKP_OCC => ⟨.pkt, 0x2058, 1, 1, 0x0, .die, .all, none⟩
  | .PKT_Q_IDX => ⟨.pkt, 0x3000, 1, 1, 0x0, .die, .all, none⟩
  | .PKT_Q_CFG => ⟨.pkt, 0x3004, 1, 1, 0x0, .cfg, .all, (some .PKT_Q_IDX)⟩
  | .PKT_Q_MIN => ⟨.pkt, 0x3008, 1, 1, 0x0, .cfg, .all, (some .PKT_Q_IDX)⟩
  | .PKT_Q_SCHED => ⟨.pkt, 0x300C, 1, 1, 0x0, .cfg, .all, (some .PKT_Q_IDX)⟩
  | .PKT_Q_SCHED_NEXT => ⟨.pkt, 0x3010, 1, 1, 0x0, .cfg, .all, (some .PKT_Q_IDX)⟩
  | .PKT_Q_STAT => ⟨.pkt, 0x3014, 1, 1, 0x0, .die, .all, (some .PKT_Q_IDX)⟩
  | .PKT_Q_CNT => ⟨.pkt, 0x3018, 1, 1, 0x0, .die, .all, (some .PKT_Q_IDX)⟩
  | .PKT_Q_CMD => ⟨.pkt, 0x3020, 1, 1, 0x0, .die, .all, (some .PKT_Q_IDX)⟩
  | .PKT_Q_FLUSH_STAT => ⟨.pkt, 0x3024, 1, 1, 0x0, .die, .all, none⟩
  | .PKT_GRP_IDX => ⟨.pkt, 0x3040, 1, 1, 0x0, .die, .all, none⟩
  | .PKT_GRP => ⟨.pkt, 0x3044, 4, 1, 0x0, .cfg, .all, (some .PKT_GRP_IDX)⟩
  | .PKT_GRP_NEXT => ⟨.pkt, 0x3054, 4, 1, 0x0, .cfg, .all, (some .PKT_GRP_IDX)⟩
  | .PKT_SCHED_STAT => ⟨.pkt, 0x3080, 1, 1, 0x0, .die, .all, none⟩
  | .PKT_BUF_STAT => ⟨.pkt, 0x4000, 1, 1, 0x0, .die, .all, none⟩
  | .PKT_BUF_SHARED => ⟨.pkt, 0x4004, 1, 1, 0x0, .die, .all, none⟩
  | .PKT_SPILL_BASE_LO => ⟨.pkt, 0x4010, 1, 1, 0x0, .cfg, .all, none⟩
  | .PKT_SPILL_BASE_HI => ⟨.pkt, 0x4014, 1, 1, 0x0, .cfg, .all, none⟩
  | .PKT_SPILL_SIZE => ⟨.pkt, 0x4018, 1, 1, 0x0, .cfg, .all, none⟩
  | .PKT_SPILL_STAT => ⟨.pkt, 0x401C, 1, 1, 0x0, .die, .all, none⟩
  | .PKT_XDIE_DROP => ⟨.pkt, 0x4020, 1, 1, 0x0, .die, .all, none⟩
  | .PKT_DRING_IDX => ⟨.pkt, 0x5000, 1, 1, 0x0, .die, .all, none⟩
  | .PKT_DRING_BASE_LO => ⟨.pkt, 0x5004, 1, 1, 0x0, .cfg, .all, (some .PKT_DRING_IDX)⟩
  | .PKT_DRING_BASE_HI => ⟨.pkt, 0x5008, 1, 1, 0x0, .cfg, .all, (some .PKT_DRING_IDX)⟩
  | .PKT_DRING_CFG => ⟨.pkt, 0x500C, 1, 1, 0x0, .cfg, .all, (some .PKT_DRING_IDX)⟩
  | .PKT_DRING_HEAD => ⟨.pkt, 0x5010, 1, 1, 0x0, .die, .all, (some .PKT_DRING_IDX)⟩
  | .PKT_DRING_TAIL => ⟨.pkt, 0x5014, 1, 1, 0x0, .die, .all, (some .PKT_DRING_IDX)⟩
  | .PKT_DRING_CNT => ⟨.pkt, 0x5018, 1, 1, 0x0, .die, .all, (some .PKT_DRING_IDX)⟩
  | .PKT_TS_CORR => ⟨.pkt, 0x10000, 1, 48, 0x10, .por, .all, none⟩
  | .PKT_TC_CFG => ⟨.pkt, 0x10004, 1, 48, 0x10, .cfg, .all, none⟩
  | .PKT_TC_CNT => ⟨.pkt, 0x10008, 1, 48, 0x10, .die, .all, none⟩
  | .PKT_TOD_CTRL => ⟨.pkt, 0x11000, 1, 1, 0x0, .por, .e0, none⟩
  | .PKT_TOD_INCR => ⟨.pkt, 0x11004, 1, 1, 0x0, .por, .e0, none⟩
  | .PKT_TOD_SET_NS => ⟨.pkt, 0x11008, 1, 1, 0x0, .por, .e0, none⟩
  | .PKT_TOD_SET_SEC_LO => ⟨.pkt, 0x1100C, 1, 1, 0x0, .por, .e0, none⟩
  | .PKT_TOD_SET_SEC_HI => ⟨.pkt, 0x11010, 1, 1, 0x0, .por, .e0, none⟩
  | .PKT_TOD_NS => ⟨.pkt, 0x11014, 1, 1, 0x0, .por, .e0, none⟩
  | .PKT_TOD_SEC_LO => ⟨.pkt, 0x11018, 1, 1, 0x0, .por, .e0, none⟩
  | .PKT_TOD_SEC_HI => ⟨.pkt, 0x1101C, 1, 1, 0x0, .por, .e0, none⟩
  | .PKT_PPS_CFG => ⟨.pkt, 0x11020, 1, 1, 0x0, .por, .e0, none⟩
  | .PKT_PPS_IN_NS => ⟨.pkt, 0x11024, 1, 1, 0x0, .por, .e0, none⟩
  | .PKT_PPS_IN_SEC => ⟨.pkt, 0x11028, 1, 1, 0x0, .por, .e0, none⟩
  | .CMP_PROF_IDX => ⟨.cmp, 0x0, 1, 1, 0x0, .die, .all, none⟩
  | .CMP_PROF_CFG => ⟨.cmp, 0x4, 1, 1, 0x0, .cfg, .all, (some .CMP_PROF_IDX)⟩
  | .CMP_PROF_LEN => ⟨.cmp, 0x8, 1, 1, 0x0, .cfg, .all, (some .CMP_PROF_IDX)⟩
  | .CMP_JOB_POST => ⟨.cmp, 0x40, 4, 1, 0x0, .die, .all, none⟩
  | .CMP_JOB_POST4 => ⟨.cmp, 0x50, 1, 1, 0x0, .die, .all, none⟩
  | .CMP_JOB_GO => ⟨.cmp, 0x54, 1, 1, 0x0, .die, .all, none⟩
  | .CMP_JOB_CTRL => ⟨.cmp, 0x58, 1, 1, 0x0, .die, .all, none⟩
  | .CMP_JOB_STAT => ⟨.cmp, 0x5C, 1, 1, 0x0, .die, .all, none⟩
  | .CMP_JOB_OUT => ⟨.cmp, 0x60, 1, 1, 0x0, .die, .all, none⟩
  | .CMP_CNT => ⟨.cmp, 0x80, 1, 1, 0x0, .die, .all, none⟩
  | .CMP_CNT1 => ⟨.cmp, 0x84, 1, 1, 0x0, .die, .all, none⟩
  | .CMP_BLOCKS => ⟨.cmp, 0x88, 1, 1, 0x0, .die, .all, none⟩
  | .MEM_CXL_CTRL => ⟨.mem, 0x0, 1, 2, 0x100, .die, .all, none⟩
  | .MEM_CXL_STAT => ⟨.mem, 0x4, 1, 2, 0x100, .die, .all, none⟩
  | .MEM_CXL_SIZE => ⟨.mem, 0x8, 1, 2, 0x100, .die, .all, none⟩
  | .MEM_CXL_IOA => ⟨.mem, 0x10, 1, 2, 0x100, .die, .all, none⟩
  | .MEM_CXL_IOD => ⟨.mem, 0x14, 1, 2, 0x100, .die, .all, none⟩
  | .MEM_CXL_CNT => ⟨.mem, 0x18, 1, 2, 0x100, .die, .all, none⟩
  | .MEM_DDR_CFG => ⟨.mem, 0x1000, 1, 2, 0x100, .cfg, .all, none⟩
  | .MEM_DDR_CMD => ⟨.mem, 0x1004, 1, 2, 0x100, .die, .all, none⟩
  | .MEM_DDR_STAT => ⟨.mem, 0x1008, 1, 2, 0x100, .die, .all, none⟩
  | .MEM_DDR_MRW => ⟨.mem, 0x100C, 1, 2, 0x100, .die, .all, none⟩
  | .MEM_DDR_DLY_IDX => ⟨.mem, 0x1010, 1, 2, 0x100, .die, .all, none⟩
  | .MEM_DDR_DLY => ⟨.mem, 0x1014, 1, 2, 0x100, .por, .all, (some .MEM_DDR_DLY_IDX)⟩
  | .MEM_DDR_PAT => ⟨.mem, 0x1018, 1, 2, 0x100, .die, .all, none⟩
  | .MEM_DDR_PAT_VAL => ⟨.mem, 0x101C, 1, 2, 0x100, .die, .all, none⟩
  | .MEM_DDR_TRN_CTRL => ⟨.mem, 0x1020, 1, 2, 0x100, .die, .all, none⟩
  | .MEM_DDR_TRN_STAT => ⟨.mem, 0x1024, 1, 2, 0x100, .die, .all, none⟩
  | .MEM_DDR_TRN_RES => ⟨.mem, 0x1028, 1, 2, 0x100, .die, .all, none⟩
  | .MEM_DDR_ECC => ⟨.mem, 0x1030, 1, 2, 0x100, .die, .all, none⟩
  | .MEM_DDR_ECC_ADDR => ⟨.mem, 0x1034, 1, 2, 0x100, .die, .all, none⟩
  | .MEM_PCI_CTRL => ⟨.mem, 0x2000, 1, 1, 0x0, .die, .e0, none⟩
  | .MEM_PCI_STAT => ⟨.mem, 0x2004, 1, 1, 0x0, .die, .e0, none⟩
  | .MEM_HR_IDX => ⟨.mem, 0x3000, 1, 1, 0x0, .die, .e0, none⟩
  | .MEM_HR_BASE_LO => ⟨.mem, 0x3004, 1, 1, 0x0, .die, .e0, (some .MEM_HR_IDX)⟩
  | .MEM_HR_BASE_HI => ⟨.mem, 0x3008, 1, 1, 0x0, .die, .e0, (some .MEM_HR_IDX)⟩
  | .MEM_HR_CFG => ⟨.mem, 0x300C, 1, 1, 0x0, .die, .e0, (some .MEM_HR_IDX)⟩
  | .MEM_HR_PTR => ⟨.mem, 0x3010, 1, 1, 0x0, .die, .e0, (some .MEM_HR_IDX)⟩
  | .MEM_HR_STAT => ⟨.mem, 0x3014, 1, 1, 0x0, .die, .e0, (some .MEM_HR_IDX)⟩
  | .PROT_IDX => ⟨.prot, 0x0, 1, 1, 0x0, .die, .all, none⟩
  | .PROT_KEY_STAT => ⟨.prot, 0x4, 1, 1, 0x0, .por, .e0, none⟩
  | .PROT_DEF => ⟨.prot, 0x8, 1, 1, 0x0, .por, .all, (some .PROT_IDX)⟩
  | .PROT_RGN_BASE_LO => ⟨.prot, 0x10, 1, 1, 0x0, .por, .all, (some .PROT_IDX)⟩
  | .PROT_RGN_BASE_HI => ⟨.prot, 0x14, 1, 1, 0x0, .por, .all, (some .PROT_IDX)⟩
  | .PROT_RGN_CFG => ⟨.prot, 0x18, 1, 1, 0x0, .por, .all, (some .PROT_IDX)⟩
  | .PROT_RGN_META_LO => ⟨.prot, 0x1C, 1, 1, 0x0, .por, .all, (some .PROT_IDX)⟩
  | .PROT_RGN_META_HI => ⟨.prot, 0x20, 1, 1, 0x0, .por, .all, (some .PROT_IDX)⟩
  | .PROT_RGN_META_SZ => ⟨.prot, 0x24, 1, 1, 0x0, .por, .all, (some .PROT_IDX)⟩
  | .PROT_RGN_RIGHTS => ⟨.prot, 0x28, 1, 1, 0x0, .por, .all, (some .PROT_IDX)⟩
  | .PROT_RGN_CMD => ⟨.prot, 0x2C, 1, 1, 0x0, .die, .all, (some .PROT_IDX)⟩
  | .PROT_RGN_STAT => ⟨.prot, 0x30, 1, 1, 0x0, .por, .all, (some .PROT_IDX)⟩
  | .PROT_RGN_PROG => ⟨.prot, 0x34, 1, 1, 0x0, .por, .all, (some .PROT_IDX)⟩
  | .PROT_CNT => ⟨.prot, 0x40, 1, 1, 0x0, .por, .all, (some .PROT_IDX)⟩
  | .PROT_CNT1 => ⟨.prot, 0x44, 1, 1, 0x0, .por, .all, (some .PROT_IDX)⟩
  | .PROT_ERR_LO => ⟨.prot, 0x48, 1, 1, 0x0, .por, .all, (some .PROT_IDX)⟩
  | .PROT_ERR_HI => ⟨.prot, 0x4C, 1, 1, 0x0, .por, .all, (some .PROT_IDX)⟩
  | .ECC_GRP_IDX => ⟨.ecc, 0x0, 1, 1, 0x0, .die, .all, none⟩
  | .ECC_GRP_CNT => ⟨.ecc, 0x4, 1, 1, 0x0, .die, .all, (some .ECC_GRP_IDX)⟩
  | .ECC_GRP_LAP => ⟨.ecc, 0x8, 1, 1, 0x0, .die, .all, (some .ECC_GRP_IDX)⟩
  | .ECC_GRP_CTRL => ⟨.ecc, 0xC, 1, 1, 0x0, .die, .all, (some .ECC_GRP_IDX)⟩
  | .ECC_LOG_IDX => ⟨.ecc, 0x10, 1, 1, 0x0, .die, .all, none⟩
  | .ECC_LOG_ADDR => ⟨.ecc, 0x14, 1, 1, 0x0, .die, .all, (some .ECC_LOG_IDX)⟩
  | .ECC_LOG_INFO => ⟨.ecc, 0x18, 1, 1, 0x0, .die, .all, (some .ECC_LOG_IDX)⟩
  | .ECC_TEST_CTRL => ⟨.ecc, 0x20, 1, 1, 0x0, .die, .all, none⟩
  | .ECC_TEST_CHK => ⟨.ecc, 0x24, 1, 1, 0x0, .die, .all, none⟩
  | .CLK_CTRL => ⟨.clk, 0x0, 1, 1, 0x0, .por, .e0, none⟩
  | .CLK_STATUS => ⟨.clk, 0x4, 1, 1, 0x0, .por, .e0, none⟩
  | .CLK_SRC_STAT => ⟨.clk, 0x8, 1, 1, 0x0, .por, .e0, none⟩
  | .CLK_SRC_FREQ => ⟨.clk, 0x10, 7, 1, 0x0, .por, .e0, none⟩
  | .CLK_GATE_IDX => ⟨.clk, 0x40, 1, 1, 0x0, .die, .all, none⟩
  | .CLK_GATE => ⟨.clk, 0x44, 1, 1, 0x0, .die, .all, (some .CLK_GATE_IDX)⟩
  | .CLK_FPLL_STAT => ⟨.clk, 0x80, 4, 1, 0x0, .die, .fab, none⟩
  | .CLK_CPLL_STAT => ⟨.clk, 0x90, 1, 1, 0x0, .die, .fab, none⟩
  | .PWR_PL_NEXT => ⟨.pwr, 0x0, 1, 1, 0x0, .die, .all, none⟩
  | .PWR_PL_STAT => ⟨.pwr, 0x4, 1, 1, 0x0, .die, .all, none⟩
  | .PWR_RAIL_IDX => ⟨.pwr, 0x10, 1, 1, 0x0, .por, .e0, none⟩
  | .PWR_RAIL_STAT => ⟨.pwr, 0x14, 1, 1, 0x0, .por, .e0, (some .PWR_RAIL_IDX)⟩
  | .PWR_RAIL_DIP => ⟨.pwr, 0x18, 1, 1, 0x0, .por, .e0, (some .PWR_RAIL_IDX)⟩
  | .PWR_TEMP_IDX => ⟨.pwr, 0x20, 1, 1, 0x0, .die, .all, none⟩
  | .PWR_TEMP => ⟨.pwr, 0x24, 1, 1, 0x0, .die, .all, (some .PWR_TEMP_IDX)⟩
  | .PWR_TEMP_CFG => ⟨.pwr, 0x28, 1, 1, 0x0, .por, .all, none⟩
  | .PWR_PMB_CMD => ⟨.pwr, 0x30, 1, 1, 0x0, .por, .e0, none⟩
  | .PWR_PMB_DATA => ⟨.pwr, 0x34, 1, 1, 0x0, .por, .e0, none⟩
  | .EVT_IDX => ⟨.evt, 0x0, 1, 1, 0x0, .die, .all, none⟩
  | .EVT_ROUTE => ⟨.evt, 0x4, 1, 1, 0x0, .por, .all, (some .EVT_IDX)⟩
  | .EVT_CNT => ⟨.evt, 0x8, 1, 1, 0x0, .die, .all, (some .EVT_IDX)⟩
  | .EVT_LAST_LO => ⟨.evt, 0xC, 1, 1, 0x0, .die, .all, (some .EVT_IDX)⟩
  | .EVT_LAST_HI => ⟨.evt, 0x10, 1, 1, 0x0, .die, .all, (some .EVT_IDX)⟩
  | .EVT_PEND => ⟨.evt, 0x40, 16, 1, 0x0, .die, .all, none⟩
  | .EVT_FP_CTRL => ⟨.evt, 0x100, 1, 1, 0x0, .die, .fab, none⟩
  | .PMC_IDX => ⟨.pmc, 0x0, 1, 1, 0x0, .die, .all, none⟩
  | .PMC_SEL => ⟨.pmc, 0x4, 1, 1, 0x0, .die, .all, (some .PMC_IDX)⟩
  | .PMC_THRESH => ⟨.pmc, 0x8, 1, 1, 0x0, .die, .all, (some .PMC_IDX)⟩
  | .PMC_CNT_LO => ⟨.pmc, 0xC, 1, 1, 0x0, .die, .all, (some .PMC_IDX)⟩
  | .PMC_CNT_HI => ⟨.pmc, 0x10, 1, 1, 0x0, .die, .all, (some .PMC_IDX)⟩
  | .PMC_CTRL => ⟨.pmc, 0x14, 1, 1, 0x0, .die, .all, none⟩
  | .PMC_OVF0 => ⟨.pmc, 0x18, 1, 1, 0x0, .die, .all, none⟩
  | .PMC_OVF1 => ⟨.pmc, 0x1C, 1, 1, 0x0, .die, .all, none⟩
  | .PMC_BW_IDX => ⟨.pmc, 0x40, 1, 1, 0x0, .die, .all, none⟩
  | .PMC_BW_CFG => ⟨.pmc, 0x44, 1, 1, 0x0, .die, .all, (some .PMC_BW_IDX)⟩
  | .PMC_BW_SRC => ⟨.pmc, 0x48, 1, 1, 0x0, .die, .all, (some .PMC_BW_IDX)⟩
  | .PMC_BW_BYTES_LO => ⟨.pmc, 0x4C, 1, 1, 0x0, .die, .all, (some .PMC_BW_IDX)⟩
  | .PMC_BW_BYTES_HI => ⟨.pmc, 0x50, 1, 1, 0x0, .die, .all, (some .PMC_BW_IDX)⟩
  | .PMC_BW_COUNT => ⟨.pmc, 0x54, 1, 1, 0x0, .die, .all, (some .PMC_BW_IDX)⟩
  | .REC_SEQ_OLD => ⟨.fieldBook, 0x0, 1, 1, 0x0, .por, .all, none⟩
  | .REC_SEQ_NEW => ⟨.fieldBook, 0x4, 1, 1, 0x0, .por, .all, none⟩
  | .REC_STAT => ⟨.fieldBook, 0x8, 1, 1, 0x0, .por, .all, none⟩
  | .REC_OPSEC => ⟨.fieldBook, 0xC, 1, 1, 0x0, .por, .all, none⟩
  | .REC_PCYCLE => ⟨.fieldBook, 0x10, 1, 1, 0x0, .por, .all, none⟩
  | .REC_NOTE_LO => ⟨.fieldBook, 0x14, 1, 1, 0x0, .por, .all, none⟩
  | .REC_NOTE_HI => ⟨.fieldBook, 0x18, 1, 1, 0x0, .por, .all, none⟩
  | .REC_NOTE_GO => ⟨.fieldBook, 0x1C, 1, 1, 0x0, .por, .all, none⟩
  | .REC_FL_CFG => ⟨.fieldBook, 0x20, 1, 1, 0x0, .por, .all, none⟩
  | .REC_FL_SLOT => ⟨.fieldBook, 0x24, 1, 1, 0x0, .por, .all, none⟩
  | .REC_FL_DATA => ⟨.fieldBook, 0x40, 8, 1, 0x0, .por, .all, none⟩
  | .MGT_CMD => ⟨.mgt, 0x0, 1, 1, 0x0, .por, .all, none⟩
  | .MGT_STAT => ⟨.mgt, 0x4, 1, 1, 0x0, .por, .all, none⟩
  | .MGT_CAL_ADDR_LO => ⟨.mgt, 0x8, 1, 1, 0x0, .por, .all, none⟩
  | .MGT_CAL_ADDR_HI => ⟨.mgt, 0xC, 1, 1, 0x0, .por, .all, none⟩
  | .MGT_CAL_LEN => ⟨.mgt, 0x10, 1, 1, 0x0, .por, .all, none⟩
  | .MGT_CAL_STAT => ⟨.mgt, 0x14, 1, 1, 0x0, .por, .all, none⟩
  | .MGT_ATTN => ⟨.mgt, 0x18, 1, 1, 0x0, .por, .all, none⟩

/-- DIE_ID.FAMILY [31:16], RO, reset 0x0880. -/
def Fld.DIE_ID_FAMILY : Fld := ⟨.DIE_ID, 16, 16, .ro, 0x880⟩
/-- DIE_ID.KIND [15:12], RO, reset fused. -/
def Fld.DIE_ID_KIND : Fld := ⟨.DIE_ID, 12, 4, .ro, 0x0⟩
/-- DIE_ID.PKG [11:8], RO, reset 0x1. -/
def Fld.DIE_ID_PKG : Fld := ⟨.DIE_ID, 8, 4, .ro, 0x1⟩
/-- DIE_ID.INDEX [2:0], RO, reset fused. -/
def Fld.DIE_ID_INDEX : Fld := ⟨.DIE_ID, 0, 3, .ro, 0x0⟩
/-- DIE_STEP.STEP [3:0], RO, reset fused. -/
def Fld.DIE_STEP_STEP : Fld := ⟨.DIE_STEP, 0, 4, .ro, 0x0⟩
/-- DIE_UID_LO.UID [31:0], RO, reset fused. -/
def Fld.DIE_UID_LO_UID : Fld := ⟨.DIE_UID_LO, 0, 32, .ro, 0x0⟩
/-- DIE_UID_HI.UID [31:0], RO, reset fused. -/
def Fld.DIE_UID_HI_UID : Fld := ⟨.DIE_UID_HI, 0, 32, .ro, 0x0⟩
/-- DIE_SLOT_STEP.SLOTs (s = 0 to 7) [4s+3:4s], RO, reset fused. -/
def Fld.DIE_SLOT_STEP_SLOT (s : Nat) : Fld := ⟨.DIE_SLOT_STEP, 4 * s, 4, .ro, 0⟩
/-- DIE_RESET_REQ.KEY [31:24], W1P, reset 0. -/
def Fld.DIE_RESET_REQ_KEY : Fld := ⟨.DIE_RESET_REQ, 24, 8, .w1p, 0x0⟩
/-- DIE_RESET_REQ.DIE [7:1], W1P, reset 0. -/
def Fld.DIE_RESET_REQ_DIE : Fld := ⟨.DIE_RESET_REQ, 1, 7, .w1p, 0x0⟩
/-- DIE_STATE.IGNORED [23:16], W1C, reset 0. -/
def Fld.DIE_STATE_IGNORED : Fld := ⟨.DIE_STATE, 16, 8, .w1c, 0x0⟩
/-- DIE_STATE.STn (n = 0 to 7) [2n+1:2n], RO, reset 0. -/
def Fld.DIE_STATE_ST (n : Nat) : Fld := ⟨.DIE_STATE, 2 * n, 2, .ro, 0⟩
/-- DIE_RST_CAUSE.CLOCK [6], W1C, reset 0. -/
def Fld.DIE_RST_CAUSE_CLOCK : Fld := ⟨.DIE_RST_CAUSE, 6, 1, .w1c, 0x0⟩
/-- DIE_RST_CAUSE.DBG [5], W1C, reset 0. -/
def Fld.DIE_RST_CAUSE_DBG : Fld := ⟨.DIE_RST_CAUSE, 5, 1, .w1c, 0x0⟩
/-- DIE_RST_CAUSE.WDOG [4], W1C, reset 0. -/
def Fld.DIE_RST_CAUSE_WDOG : Fld := ⟨.DIE_RST_CAUSE, 4, 1, .w1c, 0x0⟩
/-- DIE_RST_CAUSE.SUPPLY [3], W1C, reset 0. -/
def Fld.DIE_RST_CAUSE_SUPPLY : Fld := ⟨.DIE_RST_CAUSE, 3, 1, .w1c, 0x0⟩
/-- DIE_RST_CAUSE.REQ [2], W1C, reset 0. -/
def Fld.DIE_RST_CAUSE_REQ : Fld := ⟨.DIE_RST_CAUSE, 2, 1, .w1c, 0x0⟩
/-- DIE_RST_CAUSE.PKG [1], W1C, reset 0. -/
def Fld.DIE_RST_CAUSE_PKG : Fld := ⟨.DIE_RST_CAUSE, 1, 1, .w1c, 0x0⟩
/-- DIE_RST_CAUSE.PWRUP [0], W1C, reset 0. -/
def Fld.DIE_RST_CAUSE_PWRUP : Fld := ⟨.DIE_RST_CAUSE, 0, 1, .w1c, 0x0⟩
/-- STK_CTRL.PTP_LOCK [0], RW, reset 0. -/
def Fld.STK_CTRL_PTP_LOCK : Fld := ⟨.STK_CTRL, 0, 1, .rw, 0x0⟩
/-- STK_TIMING.HEAT [31:16], RO, reset 0x007D. -/
def Fld.STK_TIMING_HEAT : Fld := ⟨.STK_TIMING, 16, 16, .ro, 0x7D⟩
/-- STK_TIMING.PERIOD [12:0], RO, reset 0x01F4. -/
def Fld.STK_TIMING_PERIOD : Fld := ⟨.STK_TIMING, 0, 13, .ro, 0x1F4⟩
/-- STK_TIMING_NEXT.HEAT [31:16], RW, reset 0x007D. -/
def Fld.STK_TIMING_NEXT_HEAT : Fld := ⟨.STK_TIMING_NEXT, 16, 16, .rw, 0x7D⟩
/-- STK_TIMING_NEXT.PERIOD [12:0], RW, reset 0x01F4. -/
def Fld.STK_TIMING_NEXT_PERIOD : Fld := ⟨.STK_TIMING_NEXT, 0, 13, .rw, 0x1F4⟩
/-- STK_STATUS.NEXT_REFUSED [4], W1C, reset 0. -/
def Fld.STK_STATUS_NEXT_REFUSED : Fld := ⟨.STK_STATUS, 4, 1, .w1c, 0x0⟩
/-- STK_STATUS.LOCK_REFUSED [3], W1C, reset 0. -/
def Fld.STK_STATUS_LOCK_REFUSED : Fld := ⟨.STK_STATUS, 3, 1, .w1c, 0x0⟩
/-- STK_STATUS.UNTIMED [2], RO, reset 0. -/
def Fld.STK_STATUS_UNTIMED : Fld := ⟨.STK_STATUS, 2, 1, .ro, 0x0⟩
/-- STK_STATUS.LOCKED [1], RO, reset 0. -/
def Fld.STK_STATUS_LOCKED : Fld := ⟨.STK_STATUS, 1, 1, .ro, 0x0⟩
/-- STK_STATUS.ALIGNED [0], RO, reset 0. -/
def Fld.STK_STATUS_ALIGNED : Fld := ⟨.STK_STATUS, 0, 1, .ro, 0x0⟩
/-- STK_STROKE_NUM.NUM [15:0], RO, reset 0. -/
def Fld.STK_STROKE_NUM_NUM : Fld := ⟨.STK_STROKE_NUM, 0, 16, .ro, 0x0⟩
/-- STK_HEAT_NUM.NUM [31:0], RO, reset 0. -/
def Fld.STK_HEAT_NUM_NUM : Fld := ⟨.STK_HEAT_NUM, 0, 32, .ro, 0x0⟩
/-- STK_LOCK_ERR.ERR [31:0], RO, reset 0. -/
def Fld.STK_LOCK_ERR_ERR : Fld := ⟨.STK_LOCK_ERR, 0, 32, .ro, 0x0⟩
/-- STK_UNIT_CTRL.ARM [15:0], RW, reset 0. -/
def Fld.STK_UNIT_CTRL_ARM : Fld := ⟨.STK_UNIT_CTRL, 0, 16, .rw, 0x0⟩
/-- STK_UNIT_STAT.APPLIED [31:16], W1C, reset 0. -/
def Fld.STK_UNIT_STAT_APPLIED : Fld := ⟨.STK_UNIT_STAT, 16, 16, .w1c, 0x0⟩
/-- STK_UNIT_STAT.RDY [15:0], RO, reset 0. -/
def Fld.STK_UNIT_STAT_RDY : Fld := ⟨.STK_UNIT_STAT, 0, 16, .ro, 0x0⟩
/-- STK_OVR.COUNT [31:16], RTC, reset 0. -/
def Fld.STK_OVR_COUNT : Fld := ⟨.STK_OVR, 16, 16, .rtc, 0x0⟩
/-- STK_OVR.VALID [5], W1C, reset 0. -/
def Fld.STK_OVR_VALID : Fld := ⟨.STK_OVR, 5, 1, .w1c, 0x0⟩
/-- STK_OVR.UNIT [4:0], RO, reset 0. -/
def Fld.STK_OVR_UNIT : Fld := ⟨.STK_OVR, 0, 5, .ro, 0x0⟩
/-- STK_CHG_CTRL.RETRY_LIMIT [15:8], RW, reset 0x08. -/
def Fld.STK_CHG_CTRL_RETRY_LIMIT : Fld := ⟨.STK_CHG_CTRL, 8, 8, .rw, 0x8⟩
/-- STK_CHG_CTRL.CANCEL [1], W1P, reset 0. -/
def Fld.STK_CHG_CTRL_CANCEL : Fld := ⟨.STK_CHG_CTRL, 1, 1, .w1p, 0x0⟩
/-- STK_CHG_CTRL.GO [0], W1P, reset 0. -/
def Fld.STK_CHG_CTRL_GO : Fld := ⟨.STK_CHG_CTRL, 0, 1, .w1p, 0x0⟩
/-- STK_CHG_STATUS.RETRIES [31:24], RO, reset 0. -/
def Fld.STK_CHG_STATUS_RETRIES : Fld := ⟨.STK_CHG_STATUS, 24, 8, .ro, 0x0⟩
/-- STK_CHG_STATUS.GO_IGNORED [7], W1C, reset 0. -/
def Fld.STK_CHG_STATUS_GO_IGNORED : Fld := ⟨.STK_CHG_STATUS, 7, 1, .w1c, 0x0⟩
/-- STK_CHG_STATUS.ABORT_LATE [6], W1C, reset 0. -/
def Fld.STK_CHG_STATUS_ABORT_LATE : Fld := ⟨.STK_CHG_STATUS, 6, 1, .w1c, 0x0⟩
/-- STK_CHG_STATUS.COMMIT_WITHHELD [5], W1C, reset 0. -/
def Fld.STK_CHG_STATUS_COMMIT_WITHHELD : Fld := ⟨.STK_CHG_STATUS, 5, 1, .w1c, 0x0⟩
/-- STK_CHG_STATUS.RESULT [4:2], RO, reset 0. -/
def Fld.STK_CHG_STATUS_RESULT : Fld := ⟨.STK_CHG_STATUS, 2, 3, .ro, 0x0⟩
/-- STK_CHG_STATUS.STATE [1:0], RO, reset 0. -/
def Fld.STK_CHG_STATUS_STATE : Fld := ⟨.STK_CHG_STATUS, 0, 2, .ro, 0x0⟩
/-- STK_CHG_REQ.UNITS [31:0], RW, reset 0. -/
def Fld.STK_CHG_REQ_UNITS : Fld := ⟨.STK_CHG_REQ, 0, 32, .rw, 0x0⟩
/-- STK_CHG_ARMED.UNITS [31:0], RO, reset 0. -/
def Fld.STK_CHG_ARMED_UNITS : Fld := ⟨.STK_CHG_ARMED, 0, 32, .ro, 0x0⟩
/-- STK_SPLIT.UNITS [31:0], W1C, reset 0. -/
def Fld.STK_SPLIT_UNITS : Fld := ⟨.STK_SPLIT, 0, 32, .w1c, 0x0⟩
/-- CFG_RAIL_CONT.VALID [31], W1C, reset 0. -/
def Fld.CFG_RAIL_CONT_VALID : Fld := ⟨.CFG_RAIL_CONT, 31, 1, .w1c, 0x0⟩
/-- CFG_RAIL_CONT.PROW [14:13], RO, reset 0. -/
def Fld.CFG_RAIL_CONT_PROW : Fld := ⟨.CFG_RAIL_CONT, 13, 2, .ro, 0x0⟩
/-- CFG_RAIL_CONT.LCOL [12:6], RO, reset 0. -/
def Fld.CFG_RAIL_CONT_LCOL : Fld := ⟨.CFG_RAIL_CONT, 6, 7, .ro, 0x0⟩
/-- CFG_RAIL_CONT.RAIL [5:0], RO, reset 0. -/
def Fld.CFG_RAIL_CONT_RAIL : Fld := ⟨.CFG_RAIL_CONT, 0, 6, .ro, 0x0⟩
/-- CFG_RAIL_COUNT.COUNT [15:0], RTC, reset 0. -/
def Fld.CFG_RAIL_COUNT_COUNT : Fld := ⟨.CFG_RAIL_COUNT, 0, 16, .rtc, 0x0⟩
/-- CFG_RAIL_IDX.GROUP [9:0], RW, reset 0. -/
def Fld.CFG_RAIL_IDX_GROUP : Fld := ⟨.CFG_RAIL_IDX, 0, 10, .rw, 0x0⟩
/-- CFG_RAIL_DATA.FLAG [31:0], W1C, reset 0. -/
def Fld.CFG_RAIL_DATA_FLAG : Fld := ⟨.CFG_RAIL_DATA, 0, 32, .w1c, 0x0⟩
/-- CFG_RAIL_CLR.ALL [0], W1P, reset 0. -/
def Fld.CFG_RAIL_CLR_ALL : Fld := ⟨.CFG_RAIL_CLR, 0, 1, .w1p, 0x0⟩
/-- NOC_RTR_IDX.NET [9:8], RW, reset 0. -/
def Fld.NOC_RTR_IDX_NET : Fld := ⟨.NOC_RTR_IDX, 8, 2, .rw, 0x0⟩
/-- NOC_RTR_IDX.ROW [5:3], RW, reset 0. -/
def Fld.NOC_RTR_IDX_ROW : Fld := ⟨.NOC_RTR_IDX, 3, 3, .rw, 0x0⟩
/-- NOC_RTR_IDX.COL [2:0], RW, reset 0. -/
def Fld.NOC_RTR_IDX_COL : Fld := ⟨.NOC_RTR_IDX, 0, 3, .rw, 0x0⟩
/-- NOC_RTR_CTRL.WGT_B [11:8], RW, reset 0x1. -/
def Fld.NOC_RTR_CTRL_WGT_B : Fld := ⟨.NOC_RTR_CTRL, 8, 4, .rw, 0x1⟩
/-- NOC_RTR_CTRL.WGT_N [7:4], RW, reset 0x4. -/
def Fld.NOC_RTR_CTRL_WGT_N : Fld := ⟨.NOC_RTR_CTRL, 4, 4, .rw, 0x4⟩
/-- NOC_RTR_CTRL.WGT_H [3:0], RW, reset 0x8. -/
def Fld.NOC_RTR_CTRL_WGT_H : Fld := ⟨.NOC_RTR_CTRL, 0, 4, .rw, 0x8⟩
/-- NOC_RTR_FLITS.COUNT [31:0], RTC, reset 0. -/
def Fld.NOC_RTR_FLITS_COUNT : Fld := ⟨.NOC_RTR_FLITS, 0, 32, .rtc, 0x0⟩
/-- NOC_RTR_ERR.VALID [31], W1C, reset 0. -/
def Fld.NOC_RTR_ERR_VALID : Fld := ⟨.NOC_RTR_ERR, 31, 1, .w1c, 0x0⟩
/-- NOC_RTR_ERR.PORT [18:16], RO, reset 0. -/
def Fld.NOC_RTR_ERR_PORT : Fld := ⟨.NOC_RTR_ERR, 16, 3, .ro, 0x0⟩
/-- NOC_RTR_ERR.COUNT [15:0], RTC, reset 0. -/
def Fld.NOC_RTR_ERR_COUNT : Fld := ⟨.NOC_RTR_ERR, 0, 16, .rtc, 0x0⟩
/-- NOC_EP_IDX.ROW [8:6], RW, reset 0. -/
def Fld.NOC_EP_IDX_ROW : Fld := ⟨.NOC_EP_IDX, 6, 3, .rw, 0x0⟩
/-- NOC_EP_IDX.COL [5:3], RW, reset 0. -/
def Fld.NOC_EP_IDX_COL : Fld := ⟨.NOC_EP_IDX, 3, 3, .rw, 0x0⟩
/-- NOC_EP_IDX.EP [2:0], RW, reset 0. -/
def Fld.NOC_EP_IDX_EP : Fld := ⟨.NOC_EP_IDX, 0, 3, .rw, 0x0⟩
/-- NOC_TMO_X.LIMIT [19:0], RW, reset 0x0_0064. -/
def Fld.NOC_TMO_X_LIMIT : Fld := ⟨.NOC_TMO_X, 0, 20, .rw, 0x64⟩
/-- NOC_TMO_H.LIMIT [19:0], RW, reset 0x0_0064. -/
def Fld.NOC_TMO_H_LIMIT : Fld := ⟨.NOC_TMO_H, 0, 20, .rw, 0x64⟩
/-- NOC_TMO_N.LIMIT [19:0], RW, reset 0x0_0064. -/
def Fld.NOC_TMO_N_LIMIT : Fld := ⟨.NOC_TMO_N, 0, 20, .rw, 0x64⟩
/-- NOC_TMO_B.LIMIT [19:0], RW, reset 0x0_0064. -/
def Fld.NOC_TMO_B_LIMIT : Fld := ⟨.NOC_TMO_B, 0, 20, .rw, 0x64⟩
/-- NOC_EP_STAT.INIT [31], RO, reset —. -/
def Fld.NOC_EP_STAT_INIT : Fld := ⟨.NOC_EP_STAT, 31, 1, .ro, 0x0⟩
/-- NOC_EP_STAT.TGT [30], RO, reset —. -/
def Fld.NOC_EP_STAT_TGT : Fld := ⟨.NOC_EP_STAT, 30, 1, .ro, 0x0⟩
/-- NOC_EP_STAT.STALE [25:16], RO, reset 0. -/
def Fld.NOC_EP_STAT_STALE : Fld := ⟨.NOC_EP_STAT, 16, 10, .ro, 0x0⟩
/-- NOC_EP_STAT.OUTST [9:0], RO, reset 0. -/
def Fld.NOC_EP_STAT_OUTST : Fld := ⟨.NOC_EP_STAT, 0, 10, .ro, 0x0⟩
/-- NOC_EP_CNT0.LATE [31:16], RTC, reset 0. -/
def Fld.NOC_EP_CNT0_LATE : Fld := ⟨.NOC_EP_CNT0, 16, 16, .rtc, 0x0⟩
/-- NOC_EP_CNT0.TIMEOUTS [15:0], RTC, reset 0. -/
def Fld.NOC_EP_CNT0_TIMEOUTS : Fld := ⟨.NOC_EP_CNT0, 0, 16, .rtc, 0x0⟩
/-- NOC_EP_CNT1.X_HELD [31:16], RTC, reset 0. -/
def Fld.NOC_EP_CNT1_X_HELD : Fld := ⟨.NOC_EP_CNT1, 16, 16, .rtc, 0x0⟩
/-- NOC_EP_CNT1.X_LATE [15:0], RTC, reset 0. -/
def Fld.NOC_EP_CNT1_X_LATE : Fld := ⟨.NOC_EP_CNT1, 0, 16, .rtc, 0x0⟩
/-- NOC_FENCE_CFG.DRAIN_LIMIT [15:0], RW, reset 0x000A. -/
def Fld.NOC_FENCE_CFG_DRAIN_LIMIT : Fld := ⟨.NOC_FENCE_CFG, 0, 16, .rw, 0xA⟩
/-- NOC_FENCE_STAT.Pp (p = 0 to 15) [2p+1:2p], RO, reset 0x2 each. -/
def Fld.NOC_FENCE_STAT_P (p : Nat) : Fld := ⟨.NOC_FENCE_STAT, 2 * p, 2, .ro, 2⟩
/-- NOC_DFENCE_STAT.Di (i = 0 to 7) [2i+1:2i], RO, reset 0. -/
def Fld.NOC_DFENCE_STAT_D (i : Nat) : Fld := ⟨.NOC_DFENCE_STAT, 2 * i, 2, .ro, 0⟩
/-- NOC_FENCE_CNT.DISCARDED [31:16], RTC, reset 0. -/
def Fld.NOC_FENCE_CNT_DISCARDED : Fld := ⟨.NOC_FENCE_CNT, 16, 16, .rtc, 0x0⟩
/-- NOC_FENCE_CNT.SYNTH [15:0], RTC, reset 0. -/
def Fld.NOC_FENCE_CNT_SYNTH : Fld := ⟨.NOC_FENCE_CNT, 0, 16, .rtc, 0x0⟩
/-- NOC_DC_CMD.BUSY [8], RO, reset 0. -/
def Fld.NOC_DC_CMD_BUSY : Fld := ⟨.NOC_DC_CMD, 8, 1, .ro, 0x0⟩
/-- NOC_DC_CMD.FLUSH [0], W1P, reset 0. -/
def Fld.NOC_DC_CMD_FLUSH : Fld := ⟨.NOC_DC_CMD, 0, 1, .w1p, 0x0⟩
/-- NOC_DC_STAT.DIRTY [19:0], RO, reset 0. -/
def Fld.NOC_DC_STAT_DIRTY : Fld := ⟨.NOC_DC_STAT, 0, 20, .ro, 0x0⟩
/-- NOC_DIR_CNT.BACKINV [31:16], RTC, reset 0. -/
def Fld.NOC_DIR_CNT_BACKINV : Fld := ⟨.NOC_DIR_CNT, 16, 16, .rtc, 0x0⟩
/-- NOC_DIR_CNT.POISONED [15:0], RTC, reset 0. -/
def Fld.NOC_DIR_CNT_POISONED : Fld := ⟨.NOC_DIR_CNT, 0, 16, .rtc, 0x0⟩
/-- NOC_XRES_IDX.ENTRY [7:0], RW, reset 0. -/
def Fld.NOC_XRES_IDX_ENTRY : Fld := ⟨.NOC_XRES_IDX, 0, 8, .rw, 0x0⟩
/-- NOC_XRES_LO.TGT [23:12], RO, reset 0. -/
def Fld.NOC_XRES_LO_TGT : Fld := ⟨.NOC_XRES_LO, 12, 12, .ro, 0x0⟩
/-- NOC_XRES_LO.INIT [11:0], RO, reset 0. -/
def Fld.NOC_XRES_LO_INIT : Fld := ⟨.NOC_XRES_LO, 0, 12, .ro, 0x0⟩
/-- NOC_XRES_HI.VALID [31], RO, reset 0. -/
def Fld.NOC_XRES_HI_VALID : Fld := ⟨.NOC_XRES_HI, 31, 1, .ro, 0x0⟩
/-- NOC_XRES_HI.AT [29:20], RO, reset 0. -/
def Fld.NOC_XRES_HI_AT : Fld := ⟨.NOC_XRES_HI, 20, 10, .ro, 0x0⟩
/-- NOC_XRES_HI.WR [19:10], RO, reset 0. -/
def Fld.NOC_XRES_HI_WR : Fld := ⟨.NOC_XRES_HI, 10, 10, .ro, 0x0⟩
/-- NOC_XRES_HI.RD [9:0], RO, reset 0. -/
def Fld.NOC_XRES_HI_RD : Fld := ⟨.NOC_XRES_HI, 0, 10, .ro, 0x0⟩
/-- NOC_XRES_STAT.MAXLOAD [25:16], RO, reset 0. -/
def Fld.NOC_XRES_STAT_MAXLOAD : Fld := ⟨.NOC_XRES_STAT, 16, 10, .ro, 0x0⟩
/-- NOC_XRES_STAT.PERIOD_REFUSED [3], W1C, reset 0. -/
def Fld.NOC_XRES_STAT_PERIOD_REFUSED : Fld := ⟨.NOC_XRES_STAT, 3, 1, .w1c, 0x0⟩
/-- NOC_XRES_STAT.RESULT [2:0], RO, reset 0. -/
def Fld.NOC_XRES_STAT_RESULT : Fld := ⟨.NOC_XRES_STAT, 0, 3, .ro, 0x0⟩
/-- NOC_XRES_LINK.WELD [31], RO, reset 0. -/
def Fld.NOC_XRES_LINK_WELD : Fld := ⟨.NOC_XRES_LINK, 31, 1, .ro, 0x0⟩
/-- NOC_XRES_LINK.CHANNEL [30:24], RO, reset 0. -/
def Fld.NOC_XRES_LINK_CHANNEL : Fld := ⟨.NOC_XRES_LINK, 24, 7, .ro, 0x0⟩
/-- NOC_XRES_LINK.DIR [23], RO, reset 0. -/
def Fld.NOC_XRES_LINK_DIR : Fld := ⟨.NOC_XRES_LINK, 23, 1, .ro, 0x0⟩
/-- NOC_XRES_LINK.DIE [14:12], RO, reset 0. -/
def Fld.NOC_XRES_LINK_DIE : Fld := ⟨.NOC_XRES_LINK, 12, 3, .ro, 0x0⟩
/-- NOC_XRES_LINK.ROW [11:9], RO, reset 0. -/
def Fld.NOC_XRES_LINK_ROW : Fld := ⟨.NOC_XRES_LINK, 9, 3, .ro, 0x0⟩
/-- NOC_XRES_LINK.COL [8:6], RO, reset 0. -/
def Fld.NOC_XRES_LINK_COL : Fld := ⟨.NOC_XRES_LINK, 6, 3, .ro, 0x0⟩
/-- NOC_XRES_LINK.PORT [5:3], RO, reset 0. -/
def Fld.NOC_XRES_LINK_PORT : Fld := ⟨.NOC_XRES_LINK, 3, 3, .ro, 0x0⟩
/-- NOC_XRES_LINK.NET [1:0], RO, reset 0. -/
def Fld.NOC_XRES_LINK_NET : Fld := ⟨.NOC_XRES_LINK, 0, 2, .ro, 0x0⟩
/-- WLD_CH_IDX.CH [6:0], RW, reset 0. -/
def Fld.WLD_CH_IDX_CH : Fld := ⟨.WLD_CH_IDX, 0, 7, .rw, 0x0⟩
/-- WLD_CH_STAT.CMD_IGNORED [10], W1C, reset 0. -/
def Fld.WLD_CH_STAT_CMD_IGNORED : Fld := ⟨.WLD_CH_STAT, 10, 1, .w1c, 0x0⟩
/-- WLD_CH_STAT.OTP_FULL [9], W1C, reset 0. -/
def Fld.WLD_CH_STAT_OTP_FULL : Fld := ⟨.WLD_CH_STAT, 9, 1, .w1c, 0x0⟩
/-- WLD_CH_STAT.RECORDS [8:6], RO, reset 0. -/
def Fld.WLD_CH_STAT_RECORDS : Fld := ⟨.WLD_CH_STAT, 6, 3, .ro, 0x0⟩
/-- WLD_CH_STAT.SPARES [5:3], RO, reset 0. -/
def Fld.WLD_CH_STAT_SPARES : Fld := ⟨.WLD_CH_STAT, 3, 3, .ro, 0x0⟩
/-- WLD_CH_STAT.STATE [2:0], RO, reset 0. -/
def Fld.WLD_CH_STAT_STATE : Fld := ⟨.WLD_CH_STAT, 0, 3, .ro, 0x0⟩
/-- WLD_CH_VER.PEER_STEP [7:4], RO, reset 0. -/
def Fld.WLD_CH_VER_PEER_STEP : Fld := ⟨.WLD_CH_VER, 4, 4, .ro, 0x0⟩
/-- WLD_CH_VER.VER [3:0], RO, reset 0. -/
def Fld.WLD_CH_VER_VER : Fld := ⟨.WLD_CH_VER, 0, 4, .ro, 0x0⟩
/-- WLD_CH_CMD.KEY [31:24], W1P, reset 0. -/
def Fld.WLD_CH_CMD_KEY : Fld := ⟨.WLD_CH_CMD, 24, 8, .w1p, 0x0⟩
/-- WLD_CH_CMD.COMMIT_MAP [2], W1P, reset 0. -/
def Fld.WLD_CH_CMD_COMMIT_MAP : Fld := ⟨.WLD_CH_CMD, 2, 1, .w1p, 0x0⟩
/-- WLD_CH_CMD.REMAP [1], W1P, reset 0. -/
def Fld.WLD_CH_CMD_REMAP : Fld := ⟨.WLD_CH_CMD, 1, 1, .w1p, 0x0⟩
/-- WLD_CH_CMD.RETRAIN [0], W1P, reset 0. -/
def Fld.WLD_CH_CMD_RETRAIN : Fld := ⟨.WLD_CH_CMD, 0, 1, .w1p, 0x0⟩
/-- WLD_CH_ERR.CRC_ERR [31:16], RTC, reset 0. -/
def Fld.WLD_CH_ERR_CRC_ERR : Fld := ⟨.WLD_CH_ERR, 16, 16, .rtc, 0x0⟩
/-- WLD_CH_ERR.RETRAINS [15:8], RTC, reset 0. -/
def Fld.WLD_CH_ERR_RETRAINS : Fld := ⟨.WLD_CH_ERR, 8, 8, .rtc, 0x0⟩
/-- WLD_CH_ERR.REPLAYS [7:0], RTC, reset 0. -/
def Fld.WLD_CH_ERR_REPLAYS : Fld := ⟨.WLD_CH_ERR, 0, 8, .rtc, 0x0⟩
/-- WLD_CH_REPAIR.ENTRYe (e = 0 to 3) [8e+7:8e], RO, reset 0. -/
def Fld.WLD_CH_REPAIR_ENTRY (e : Nat) : Fld := ⟨.WLD_CH_REPAIR, 8 * e, 8, .ro, 0⟩
/-- WLD_ERR_CFG.THRESH [31:16], RW, reset 0x0010. -/
def Fld.WLD_ERR_CFG_THRESH : Fld := ⟨.WLD_ERR_CFG, 16, 16, .rw, 0x10⟩
/-- WLD_ERR_CFG.WINDOW [15:0], RW, reset 0x03E8. -/
def Fld.WLD_ERR_CFG_WINDOW : Fld := ⟨.WLD_ERR_CFG, 0, 16, .rw, 0x3E8⟩
/-- WLD_SEAM_IDX.EDGE [11:8], RW, reset 0. -/
def Fld.WLD_SEAM_IDX_EDGE : Fld := ⟨.WLD_SEAM_IDX, 8, 4, .rw, 0x0⟩
/-- WLD_SEAM_IDX.GROUP [6:0], RW, reset 0. -/
def Fld.WLD_SEAM_IDX_GROUP : Fld := ⟨.WLD_SEAM_IDX, 0, 7, .rw, 0x0⟩
/-- WLD_SEAM_STAT.CLAMPED [31], RO, reset 0. -/
def Fld.WLD_SEAM_STAT_CLAMPED : Fld := ⟨.WLD_SEAM_STAT, 31, 1, .ro, 0x0⟩
/-- WLD_SEAM_STAT.LOCKED [30], RO, reset 0. -/
def Fld.WLD_SEAM_STAT_LOCKED : Fld := ⟨.WLD_SEAM_STAT, 30, 1, .ro, 0x0⟩
/-- WLD_SEAM_STAT.UNLOCK [29], W1C, reset 0. -/
def Fld.WLD_SEAM_STAT_UNLOCK : Fld := ⟨.WLD_SEAM_STAT, 29, 1, .w1c, 0x0⟩
/-- WLD_SEAM_STAT.MODE [28], RO, reset 0. -/
def Fld.WLD_SEAM_STAT_MODE : Fld := ⟨.WLD_SEAM_STAT, 28, 1, .ro, 0x0⟩
/-- WLD_SEAM_STAT.DIR [27:24], RO, reset 0. -/
def Fld.WLD_SEAM_STAT_DIR : Fld := ⟨.WLD_SEAM_STAT, 24, 4, .ro, 0x0⟩
/-- WLD_SEAM_STAT.UNLOCKS [15:0], RTC, reset 0. -/
def Fld.WLD_SEAM_STAT_UNLOCKS : Fld := ⟨.WLD_SEAM_STAT, 0, 16, .rtc, 0x0⟩
/-- WLD_EDGE_IDX.EDGE [3:0], RW, reset 0. -/
def Fld.WLD_EDGE_IDX_EDGE : Fld := ⟨.WLD_EDGE_IDX, 0, 4, .rw, 0x0⟩
/-- WLD_EDGE_STAT.DV [31:24], RO, reset 0. -/
def Fld.WLD_EDGE_STAT_DV : Fld := ⟨.WLD_EDGE_STAT, 24, 8, .ro, 0x0⟩
/-- WLD_EDGE_STAT.DT [23:16], RO, reset 0. -/
def Fld.WLD_EDGE_STAT_DT : Fld := ⟨.WLD_EDGE_STAT, 16, 8, .ro, 0x0⟩
/-- WLD_EDGE_STAT.LIMIT [1], RO, reset 0. -/
def Fld.WLD_EDGE_STAT_LIMIT : Fld := ⟨.WLD_EDGE_STAT, 1, 1, .ro, 0x0⟩
/-- WLD_EDGE_STAT.WARN [0], RO, reset 0. -/
def Fld.WLD_EDGE_STAT_WARN : Fld := ⟨.WLD_EDGE_STAT, 0, 1, .ro, 0x0⟩
/-- CFG_CMD.KEY [31:24], W1P, reset 0. -/
def Fld.CFG_CMD_KEY : Fld := ⟨.CFG_CMD, 24, 8, .w1p, 0x0⟩
/-- CFG_CMD.OP [2:0], W1P, reset 0. -/
def Fld.CFG_CMD_OP : Fld := ⟨.CFG_CMD, 0, 3, .w1p, 0x0⟩
/-- CFG_STATUS.BUSY [31], RO, reset 0. -/
def Fld.CFG_STATUS_BUSY : Fld := ⟨.CFG_STATUS, 31, 1, .ro, 0x0⟩
/-- CFG_STATUS.CMD_IGNORED [30], W1C, reset 0. -/
def Fld.CFG_STATUS_CMD_IGNORED : Fld := ⟨.CFG_STATUS, 30, 1, .w1c, 0x0⟩
/-- CFG_STATUS.WIN_DROP [29], W1C, reset 0. -/
def Fld.CFG_STATUS_WIN_DROP : Fld := ⟨.CFG_STATUS, 29, 1, .w1c, 0x0⟩
/-- CFG_STATUS.STAGE [27:24], RO, reset 0. -/
def Fld.CFG_STATUS_STAGE : Fld := ⟨.CFG_STATUS, 24, 4, .ro, 0x0⟩
/-- CFG_STATUS.SLOT [19:16], RO, reset 0. -/
def Fld.CFG_STATUS_SLOT : Fld := ⟨.CFG_STATUS, 16, 4, .ro, 0x0⟩
/-- CFG_STATUS.PARTIAL [8], RO, reset 0. -/
def Fld.CFG_STATUS_PARTIAL : Fld := ⟨.CFG_STATUS, 8, 1, .ro, 0x0⟩
/-- CFG_STATUS.CODE [7:0], RO, reset 0x00. -/
def Fld.CFG_STATUS_CODE : Fld := ⟨.CFG_STATUS, 0, 8, .ro, 0x0⟩
/-- CFG_SRC.LAST_SRC [10:8], RO, reset 0. -/
def Fld.CFG_SRC_LAST_SRC : Fld := ⟨.CFG_SRC, 8, 3, .ro, 0x0⟩
/-- CFG_SRC.FULL_SRC [6:4], RO, reset 0. -/
def Fld.CFG_SRC_FULL_SRC : Fld := ⟨.CFG_SRC, 4, 3, .ro, 0x0⟩
/-- CFG_SRC.PULL [3], RO, reset —. -/
def Fld.CFG_SRC_PULL : Fld := ⟨.CFG_SRC, 3, 1, .ro, 0x0⟩
/-- CFG_SRC.MODE [2:0], RO, reset —. -/
def Fld.CFG_SRC_MODE : Fld := ⟨.CFG_SRC, 0, 3, .ro, 0x0⟩
/-- CFG_ERR_ADDR.ADDR [31:0], RO, reset 0. -/
def Fld.CFG_ERR_ADDR_ADDR : Fld := ⟨.CFG_ERR_ADDR, 0, 32, .ro, 0x0⟩
/-- CFG_PROGRESS.FRAMES [31:0], RO, reset 0. -/
def Fld.CFG_PROGRESS_FRAMES : Fld := ⟨.CFG_PROGRESS, 0, 32, .ro, 0x0⟩
/-- CFG_IMG_ID.ID [31:0], RO, reset 0. -/
def Fld.CFG_IMG_ID_ID : Fld := ⟨.CFG_IMG_ID, 0, 32, .ro, 0x0⟩
/-- CFG_GAP_A.GAP1 [31:16], RO, reset 0x0040. -/
def Fld.CFG_GAP_A_GAP1 : Fld := ⟨.CFG_GAP_A, 16, 16, .ro, 0x40⟩
/-- CFG_GAP_A.GAP0 [15:0], RO, reset 0x0040. -/
def Fld.CFG_GAP_A_GAP0 : Fld := ⟨.CFG_GAP_A, 0, 16, .ro, 0x40⟩
/-- CFG_GAP_B.GAP2 [15:0], RO, reset 0x0040. -/
def Fld.CFG_GAP_B_GAP2 : Fld := ⟨.CFG_GAP_B, 0, 16, .ro, 0x40⟩
/-- CFG_RETRY.SYND_ERR [31:16], RTC, reset 0. -/
def Fld.CFG_RETRY_SYND_ERR : Fld := ⟨.CFG_RETRY, 16, 16, .rtc, 0x0⟩
/-- CFG_RETRY.RETRIES [15:0], RTC, reset 0. -/
def Fld.CFG_RETRY_RETRIES : Fld := ⟨.CFG_RETRY, 0, 16, .rtc, 0x0⟩
/-- CFG_FLASH.OCTAL [18], RO, reset 0. -/
def Fld.CFG_FLASH_OCTAL : Fld := ⟨.CFG_FLASH, 18, 1, .ro, 0x0⟩
/-- CFG_FLASH.FREQ [17:16], RO, reset 0. -/
def Fld.CFG_FLASH_FREQ : Fld := ⟨.CFG_FLASH, 16, 2, .ro, 0x0⟩
/-- CFG_FLASH.DUMMY [15:8], RO, reset 0. -/
def Fld.CFG_FLASH_DUMMY : Fld := ⟨.CFG_FLASH, 8, 8, .ro, 0x0⟩
/-- CFG_FLASH.READ_OP [7:0], RO, reset 0. -/
def Fld.CFG_FLASH_READ_OP : Fld := ⟨.CFG_FLASH, 0, 8, .ro, 0x0⟩
/-- CFG_DIE_STAT.STAGE [3:2], RO, reset 0. -/
def Fld.CFG_DIE_STAT_STAGE : Fld := ⟨.CFG_DIE_STAT, 2, 2, .ro, 0x0⟩
/-- CFG_DIE_STAT.LOADED [0], RO, reset 0. -/
def Fld.CFG_DIE_STAT_LOADED : Fld := ⟨.CFG_DIE_STAT, 0, 1, .ro, 0x0⟩
/-- PRC_LOAD_CTRL.HOLD [1], RW, reset 0. -/
def Fld.PRC_LOAD_CTRL_HOLD : Fld := ⟨.PRC_LOAD_CTRL, 1, 1, .rw, 0x0⟩
/-- PRC_LOAD_CTRL.ABORT [0], W1P, reset 0. -/
def Fld.PRC_LOAD_CTRL_ABORT : Fld := ⟨.PRC_LOAD_CTRL, 0, 1, .w1p, 0x0⟩
/-- PRC_LOAD_STAT.TARGETS [31:16], RO, reset 0. -/
def Fld.PRC_LOAD_STAT_TARGETS : Fld := ⟨.PRC_LOAD_STAT, 16, 16, .ro, 0x0⟩
/-- PRC_LOAD_STAT.HELD [9], RO, reset 0. -/
def Fld.PRC_LOAD_STAT_HELD : Fld := ⟨.PRC_LOAD_STAT, 9, 1, .ro, 0x0⟩
/-- PRC_LOAD_STAT.ABORT_LATE [8], W1C, reset 0. -/
def Fld.PRC_LOAD_STAT_ABORT_LATE : Fld := ⟨.PRC_LOAD_STAT, 8, 1, .w1c, 0x0⟩
/-- PRC_LOAD_STAT.RESULT [6:4], RO, reset 0. -/
def Fld.PRC_LOAD_STAT_RESULT : Fld := ⟨.PRC_LOAD_STAT, 4, 3, .ro, 0x0⟩
/-- PRC_LOAD_STAT.STATE [2:0], RO, reset 0. -/
def Fld.PRC_LOAD_STAT_STATE : Fld := ⟨.PRC_LOAD_STAT, 0, 3, .ro, 0x0⟩
/-- PRC_STATE.Pp (p = 0 to 15) [2p+1:2p], RO, reset 0x2 each. -/
def Fld.PRC_STATE_P (p : Nat) : Fld := ⟨.PRC_STATE, 2 * p, 2, .ro, 2⟩
/-- PRC_PG_CTRL.UP [31:16], W1P, reset 0. -/
def Fld.PRC_PG_CTRL_UP : Fld := ⟨.PRC_PG_CTRL, 16, 16, .w1p, 0x0⟩
/-- PRC_PG_CTRL.DOWN [15:0], W1P, reset 0. -/
def Fld.PRC_PG_CTRL_DOWN : Fld := ⟨.PRC_PG_CTRL, 0, 16, .w1p, 0x0⟩
/-- PRC_PG_STAT.IGNORED [31:16], W1C, reset 0. -/
def Fld.PRC_PG_STAT_IGNORED : Fld := ⟨.PRC_PG_STAT, 16, 16, .w1c, 0x0⟩
/-- PRC_PG_STAT.GATED [15:0], RO, reset 0. -/
def Fld.PRC_PG_STAT_GATED : Fld := ⟨.PRC_PG_STAT, 0, 16, .ro, 0x0⟩
/-- PRC_CAP_CTRL.RESUME [8], W1P, reset 0. -/
def Fld.PRC_CAP_CTRL_RESUME : Fld := ⟨.PRC_CAP_CTRL, 8, 1, .w1p, 0x0⟩
/-- PRC_CAP_CTRL.FREEZE [7], RW, reset 0. -/
def Fld.PRC_CAP_CTRL_FREEZE : Fld := ⟨.PRC_CAP_CTRL, 7, 1, .rw, 0x0⟩
/-- PRC_CAP_CTRL.REQ [4], W1P, reset 0. -/
def Fld.PRC_CAP_CTRL_REQ : Fld := ⟨.PRC_CAP_CTRL, 4, 1, .w1p, 0x0⟩
/-- PRC_CAP_CTRL.PARCEL [3:0], RW, reset 0. -/
def Fld.PRC_CAP_CTRL_PARCEL : Fld := ⟨.PRC_CAP_CTRL, 0, 4, .rw, 0x0⟩
/-- PRC_CAP_STAT.VALID [31], RO, reset 0. -/
def Fld.PRC_CAP_STAT_VALID : Fld := ⟨.PRC_CAP_STAT, 31, 1, .ro, 0x0⟩
/-- PRC_CAP_STAT.BUSY [30], RO, reset 0. -/
def Fld.PRC_CAP_STAT_BUSY : Fld := ⟨.PRC_CAP_STAT, 30, 1, .ro, 0x0⟩
/-- PRC_CAP_STAT.FROZEN [29], RO, reset 0. -/
def Fld.PRC_CAP_STAT_FROZEN : Fld := ⟨.PRC_CAP_STAT, 29, 1, .ro, 0x0⟩
/-- PRC_CAP_STAT.IGNORED [28], W1C, reset 0. -/
def Fld.PRC_CAP_STAT_IGNORED : Fld := ⟨.PRC_CAP_STAT, 28, 1, .w1c, 0x0⟩
/-- PRC_CAP_STAT.PARCEL [19:16], RO, reset 0. -/
def Fld.PRC_CAP_STAT_PARCEL : Fld := ⟨.PRC_CAP_STAT, 16, 4, .ro, 0x0⟩
/-- PRC_CAP_STAT.STROKE [15:0], RO, reset 0. -/
def Fld.PRC_CAP_STAT_STROKE : Fld := ⟨.PRC_CAP_STAT, 0, 16, .ro, 0x0⟩
/-- PRC_CAP_HEAT.HEAT [31:0], RO, reset 0. -/
def Fld.PRC_CAP_HEAT_HEAT : Fld := ⟨.PRC_CAP_HEAT, 0, 32, .ro, 0x0⟩
/-- SCR_CTRL.EN [0], RW, reset 1. -/
def Fld.SCR_CTRL_EN : Fld := ⟨.SCR_CTRL, 0, 1, .rw, 0x1⟩
/-- SCR_ACTION.Pp (p = 0 to 15) [2p+1:2p], RW, reset 0. -/
def Fld.SCR_ACTION_P (p : Nat) : Fld := ⟨.SCR_ACTION, 2 * p, 2, .rw, 0⟩
/-- SCR_LAP_LIMIT.LIMIT [23:0], RW, reset 0x00_2710. -/
def Fld.SCR_LAP_LIMIT_LIMIT : Fld := ⟨.SCR_LAP_LIMIT, 0, 24, .rw, 0x2710⟩
/-- SCR_CMD.PRIO_LAP [0], W1P, reset 0. -/
def Fld.SCR_CMD_PRIO_LAP : Fld := ⟨.SCR_CMD, 0, 1, .w1p, 0x0⟩
/-- SCR_STATUS.PRIO_PENDING [19], RO, reset 0. -/
def Fld.SCR_STATUS_PRIO_PENDING : Fld := ⟨.SCR_STATUS, 19, 1, .ro, 0x0⟩
/-- SCR_STATUS.STATE [18:16], RO, reset 0. -/
def Fld.SCR_STATUS_STATE : Fld := ⟨.SCR_STATUS, 16, 3, .ro, 0x0⟩
/-- SCR_STATUS.FRAME [15:0], RO, reset 0. -/
def Fld.SCR_STATUS_FRAME : Fld := ⟨.SCR_STATUS, 0, 16, .ro, 0x0⟩
/-- SCR_LAP_LAST.TIME [23:0], RO, reset 0. -/
def Fld.SCR_LAP_LAST_TIME : Fld := ⟨.SCR_LAP_LAST, 0, 24, .ro, 0x0⟩
/-- SCR_LAP_MAX.TIME [23:0], RTC, reset 0. -/
def Fld.SCR_LAP_MAX_TIME : Fld := ⟨.SCR_LAP_MAX, 0, 24, .rtc, 0x0⟩
/-- SCR_LAP_COUNT.LAST_PRIO [31], RO, reset 0. -/
def Fld.SCR_LAP_COUNT_LAST_PRIO : Fld := ⟨.SCR_LAP_COUNT, 31, 1, .ro, 0x0⟩
/-- SCR_LAP_COUNT.PRIO_RESTART [30:24], RTC, reset 0. -/
def Fld.SCR_LAP_COUNT_PRIO_RESTART : Fld := ⟨.SCR_LAP_COUNT, 24, 7, .rtc, 0x0⟩
/-- SCR_LAP_COUNT.LAPS [23:0], RO, reset 0. -/
def Fld.SCR_LAP_COUNT_LAPS : Fld := ⟨.SCR_LAP_COUNT, 0, 24, .ro, 0x0⟩
/-- SCR_CNT.CORRECTED [31:16], RTC, reset 0. -/
def Fld.SCR_CNT_CORRECTED : Fld := ⟨.SCR_CNT, 16, 16, .rtc, 0x0⟩
/-- SCR_CNT.UNCORR [15:0], RTC, reset 0. -/
def Fld.SCR_CNT_UNCORR : Fld := ⟨.SCR_CNT, 0, 16, .rtc, 0x0⟩
/-- SCR_REPAIR_CNT.REPAIRED [31:16], RTC, reset 0. -/
def Fld.SCR_REPAIR_CNT_REPAIRED : Fld := ⟨.SCR_REPAIR_CNT, 16, 16, .rtc, 0x0⟩
/-- SCR_REPAIR_CNT.FAILED [15:0], RTC, reset 0. -/
def Fld.SCR_REPAIR_CNT_FAILED : Fld := ⟨.SCR_REPAIR_CNT, 0, 16, .rtc, 0x0⟩
/-- SCR_ERR_ADDR.VALID [31], W1C, reset 0. -/
def Fld.SCR_ERR_ADDR_VALID : Fld := ⟨.SCR_ERR_ADDR, 31, 1, .w1c, 0x0⟩
/-- SCR_ERR_ADDR.ACTION [30:29], RO, reset 0. -/
def Fld.SCR_ERR_ADDR_ACTION : Fld := ⟨.SCR_ERR_ADDR, 29, 2, .ro, 0x0⟩
/-- SCR_ERR_ADDR.ADDR [22:0], RO, reset 0. -/
def Fld.SCR_ERR_ADDR_ADDR : Fld := ⟨.SCR_ERR_ADDR, 0, 23, .ro, 0x0⟩
/-- SCR_VOTE.REG [18:16], W1C, reset 0. -/
def Fld.SCR_VOTE_REG : Fld := ⟨.SCR_VOTE, 16, 3, .w1c, 0x0⟩
/-- SCR_VOTE.COUNT [15:0], RTC, reset 0. -/
def Fld.SCR_VOTE_COUNT : Fld := ⟨.SCR_VOTE, 0, 16, .rtc, 0x0⟩
/-- SCR_HELD.PARCELS [15:0], RO, reset 0. -/
def Fld.SCR_HELD_PARCELS : Fld := ⟨.SCR_HELD, 0, 16, .ro, 0x0⟩
/-- SCR_SRC.PARCELS [15:0], RO, reset 0. -/
def Fld.SCR_SRC_PARCELS : Fld := ⟨.SCR_SRC, 0, 16, .ro, 0x0⟩
/-- HMR_CORE_CTRL.HOLD [31], RW, reset 0. -/
def Fld.HMR_CORE_CTRL_HOLD : Fld := ⟨.HMR_CORE_CTRL, 31, 1, .rw, 0x0⟩
/-- HMR_CORE_CTRL.RST [30], W1P, reset 0. -/
def Fld.HMR_CORE_CTRL_RST : Fld := ⟨.HMR_CORE_CTRL, 30, 1, .w1p, 0x0⟩
/-- HMR_CORE_CTRL.START_PC [14:0], RW, reset 0. -/
def Fld.HMR_CORE_CTRL_START_PC : Fld := ⟨.HMR_CORE_CTRL, 0, 15, .rw, 0x0⟩
/-- HMR_CORE_STAT.STATE [18:16], RO, reset 0. -/
def Fld.HMR_CORE_STAT_STATE : Fld := ⟨.HMR_CORE_STAT, 16, 3, .ro, 0x0⟩
/-- HMR_CORE_STAT.PC [14:0], RO, reset 0. -/
def Fld.HMR_CORE_STAT_PC : Fld := ⟨.HMR_CORE_STAT, 0, 15, .ro, 0x0⟩
/-- HMR_CORE_ERR.VALID [31], W1C, reset 0. -/
def Fld.HMR_CORE_ERR_VALID : Fld := ⟨.HMR_CORE_ERR, 31, 1, .w1c, 0x0⟩
/-- HMR_CORE_ERR.CAUSE [30:27], RO, reset 0. -/
def Fld.HMR_CORE_ERR_CAUSE : Fld := ⟨.HMR_CORE_ERR, 27, 4, .ro, 0x0⟩
/-- HMR_CORE_ERR.STATUS [26:23], RO, reset 0. -/
def Fld.HMR_CORE_ERR_STATUS : Fld := ⟨.HMR_CORE_ERR, 23, 4, .ro, 0x0⟩
/-- HMR_CORE_ERR.COUNT [22:15], RTC, reset 0. -/
def Fld.HMR_CORE_ERR_COUNT : Fld := ⟨.HMR_CORE_ERR, 15, 8, .rtc, 0x0⟩
/-- HMR_CORE_ERR.PC [14:0], RO, reset 0. -/
def Fld.HMR_CORE_ERR_PC : Fld := ⟨.HMR_CORE_ERR, 0, 15, .ro, 0x0⟩
/-- HMR_TNG_POST.WORD [23:0], RW, reset 0. -/
def Fld.HMR_TNG_POST_WORD : Fld := ⟨.HMR_TNG_POST, 0, 24, .rw, 0x0⟩
/-- HMR_TNG_GO.GO [0], W1P, reset 0. -/
def Fld.HMR_TNG_GO_GO : Fld := ⟨.HMR_TNG_GO, 0, 1, .w1p, 0x0⟩
/-- HMR_TNG_STAT.STOPPED [31], RO, reset 0. -/
def Fld.HMR_TNG_STAT_STOPPED : Fld := ⟨.HMR_TNG_STAT, 31, 1, .ro, 0x0⟩
/-- HMR_TNG_STAT.POST_IGNORED [30], W1C, reset 0. -/
def Fld.HMR_TNG_STAT_POST_IGNORED : Fld := ⟨.HMR_TNG_STAT, 30, 1, .w1c, 0x0⟩
/-- HMR_TNG_STAT.STATUS [29:26], RO, reset 0. -/
def Fld.HMR_TNG_STAT_STATUS : Fld := ⟨.HMR_TNG_STAT, 26, 4, .ro, 0x0⟩
/-- HMR_TNG_STAT.DONE [15:8], RTC, reset 0. -/
def Fld.HMR_TNG_STAT_DONE : Fld := ⟨.HMR_TNG_STAT, 8, 8, .rtc, 0x0⟩
/-- HMR_TNG_STAT.QUEUED [3:0], RO, reset 0. -/
def Fld.HMR_TNG_STAT_QUEUED : Fld := ⟨.HMR_TNG_STAT, 0, 4, .ro, 0x0⟩
/-- HMR_TNG_CTRL.FLUSH [1], W1P, reset 0. -/
def Fld.HMR_TNG_CTRL_FLUSH : Fld := ⟨.HMR_TNG_CTRL, 1, 1, .w1p, 0x0⟩
/-- HMR_TNG_CTRL.RESUME [0], W1P, reset 0. -/
def Fld.HMR_TNG_CTRL_RESUME : Fld := ⟨.HMR_TNG_CTRL, 0, 1, .w1p, 0x0⟩
/-- HMR_DBG_CTRL.HALT_TONGS [7], RW, reset 0. -/
def Fld.HMR_DBG_CTRL_HALT_TONGS : Fld := ⟨.HMR_DBG_CTRL, 7, 1, .rw, 0x0⟩
/-- HMR_DBG_CTRL.RESET_HALT [6], RW, reset 0. -/
def Fld.HMR_DBG_CTRL_RESET_HALT : Fld := ⟨.HMR_DBG_CTRL, 6, 1, .rw, 0x0⟩
/-- HMR_DBG_CTRL.XT_OUT [5], RW, reset 0. -/
def Fld.HMR_DBG_CTRL_XT_OUT : Fld := ⟨.HMR_DBG_CTRL, 5, 1, .rw, 0x0⟩
/-- HMR_DBG_CTRL.XT_IN [4], RW, reset 0. -/
def Fld.HMR_DBG_CTRL_XT_IN : Fld := ⟨.HMR_DBG_CTRL, 4, 1, .rw, 0x0⟩
/-- HMR_DBG_CTRL.STEP [2], W1P, reset 0. -/
def Fld.HMR_DBG_CTRL_STEP : Fld := ⟨.HMR_DBG_CTRL, 2, 1, .w1p, 0x0⟩
/-- HMR_DBG_CTRL.RESUME [1], W1P, reset 0. -/
def Fld.HMR_DBG_CTRL_RESUME : Fld := ⟨.HMR_DBG_CTRL, 1, 1, .w1p, 0x0⟩
/-- HMR_DBG_CTRL.HALT [0], W1P, reset 0. -/
def Fld.HMR_DBG_CTRL_HALT : Fld := ⟨.HMR_DBG_CTRL, 0, 1, .w1p, 0x0⟩
/-- HMR_DBG_STAT.HALTED [31], RO, reset 0. -/
def Fld.HMR_DBG_STAT_HALTED : Fld := ⟨.HMR_DBG_STAT, 31, 1, .ro, 0x0⟩
/-- HMR_DBG_STAT.PENDING [30], RO, reset 0. -/
def Fld.HMR_DBG_STAT_PENDING : Fld := ⟨.HMR_DBG_STAT, 30, 1, .ro, 0x0⟩
/-- HMR_DBG_STAT.CAUSE [29:27], RO, reset 0. -/
def Fld.HMR_DBG_STAT_CAUSE : Fld := ⟨.HMR_DBG_STAT, 27, 3, .ro, 0x0⟩
/-- HMR_DBG_STAT.BKPT_SKIP [26:19], RTC, reset 0. -/
def Fld.HMR_DBG_STAT_BKPT_SKIP : Fld := ⟨.HMR_DBG_STAT, 19, 8, .rtc, 0x0⟩
/-- HMR_DBG_STAT.PC [14:0], RO, reset 0. -/
def Fld.HMR_DBG_STAT_PC : Fld := ⟨.HMR_DBG_STAT, 0, 15, .ro, 0x0⟩
/-- HMR_DBG_REG_IDX.CODE [6:0], RW, reset 0. -/
def Fld.HMR_DBG_REG_IDX_CODE : Fld := ⟨.HMR_DBG_REG_IDX, 0, 7, .rw, 0x0⟩
/-- HMR_DBG_REG_DATA.VALUE [23:0], RW, reset 0. -/
def Fld.HMR_DBG_REG_DATA_VALUE : Fld := ⟨.HMR_DBG_REG_DATA, 0, 24, .rw, 0x0⟩
/-- HMR_BKPT.EN [31], RW, reset 0. -/
def Fld.HMR_BKPT_EN : Fld := ⟨.HMR_BKPT, 31, 1, .rw, 0x0⟩
/-- HMR_BKPT.PC [14:0], RW, reset 0. -/
def Fld.HMR_BKPT_PC : Fld := ⟨.HMR_BKPT, 0, 15, .rw, 0x0⟩
/-- HMR_IRQ_CTRL.EN [20:17], RW, reset 0. -/
def Fld.HMR_IRQ_CTRL_EN : Fld := ⟨.HMR_IRQ_CTRL, 17, 4, .rw, 0x0⟩
/-- HMR_IRQ_CTRL.VBASE [14:0], RW, reset 0. -/
def Fld.HMR_IRQ_CTRL_VBASE : Fld := ⟨.HMR_IRQ_CTRL, 0, 15, .rw, 0x0⟩
/-- HMR_IRQ_PEND.PEND [4:0], W1C, reset 0. -/
def Fld.HMR_IRQ_PEND_PEND : Fld := ⟨.HMR_IRQ_PEND, 0, 5, .w1c, 0x0⟩
/-- HMR_IRQ_SET.DOORBELL [0], W1P, reset 0. -/
def Fld.HMR_IRQ_SET_DOORBELL : Fld := ⟨.HMR_IRQ_SET, 0, 1, .w1p, 0x0⟩
/-- HMR_STK_CTRL.BIND [0], RW, reset 0. -/
def Fld.HMR_STK_CTRL_BIND : Fld := ⟨.HMR_STK_CTRL, 0, 1, .rw, 0x0⟩
/-- HMR_STK_STAT.TASK [31], RO, reset 0. -/
def Fld.HMR_STK_STAT_TASK : Fld := ⟨.HMR_STK_STAT, 31, 1, .ro, 0x0⟩
/-- HMR_STK_STAT.HALT_SKIPPED [30:16], RTC, reset 0. -/
def Fld.HMR_STK_STAT_HALT_SKIPPED : Fld := ⟨.HMR_STK_STAT, 16, 15, .rtc, 0x0⟩
/-- HMR_STK_STAT.MISSED [15:0], RTC, reset 0. -/
def Fld.HMR_STK_STAT_MISSED : Fld := ⟨.HMR_STK_STAT, 0, 16, .rtc, 0x0⟩
/-- HMR_WDOG_CTRL.EN [31], RW, reset 0. -/
def Fld.HMR_WDOG_CTRL_EN : Fld := ⟨.HMR_WDOG_CTRL, 31, 1, .rw, 0x0⟩
/-- HMR_WDOG_CTRL.ACTION [30], RW, reset 0. -/
def Fld.HMR_WDOG_CTRL_ACTION : Fld := ⟨.HMR_WDOG_CTRL, 30, 1, .rw, 0x0⟩
/-- HMR_WDOG_CTRL.STROKE_KICK [29], RW, reset 0. -/
def Fld.HMR_WDOG_CTRL_STROKE_KICK : Fld := ⟨.HMR_WDOG_CTRL, 29, 1, .rw, 0x0⟩
/-- HMR_WDOG_CTRL.PERIOD [23:0], RW, reset 0x00_03E8. -/
def Fld.HMR_WDOG_CTRL_PERIOD : Fld := ⟨.HMR_WDOG_CTRL, 0, 24, .rw, 0x3E8⟩
/-- HMR_WDOG_KICK.KEY [7:0], W1P, reset 0. -/
def Fld.HMR_WDOG_KICK_KEY : Fld := ⟨.HMR_WDOG_KICK, 0, 8, .w1p, 0x0⟩
/-- HMR_WDOG_STAT.WARNED [31], RO, reset 0. -/
def Fld.HMR_WDOG_STAT_WARNED : Fld := ⟨.HMR_WDOG_STAT, 31, 1, .ro, 0x0⟩
/-- HMR_WDOG_STAT.RESETS [30:24], RTC, reset 0. -/
def Fld.HMR_WDOG_STAT_RESETS : Fld := ⟨.HMR_WDOG_STAT, 24, 7, .rtc, 0x0⟩
/-- HMR_WDOG_STAT.REMAIN [23:0], RO, reset 0. -/
def Fld.HMR_WDOG_STAT_REMAIN : Fld := ⟨.HMR_WDOG_STAT, 0, 24, .ro, 0x0⟩
/-- HMR_HALTED.CORES [7:0], RO, reset 0. -/
def Fld.HMR_HALTED_CORES : Fld := ⟨.HMR_HALTED, 0, 8, .ro, 0x0⟩
/-- HMR_XTRIG_CNT.COUNT [15:0], RTC, reset 0. -/
def Fld.HMR_XTRIG_CNT_COUNT : Fld := ⟨.HMR_XTRIG_CNT, 0, 16, .rtc, 0x0⟩
/-- DBG_SESSION.FAILS [31:24], RO, reset 0. -/
def Fld.DBG_SESSION_FAILS : Fld := ⟨.DBG_SESSION, 24, 8, .ro, 0x0⟩
/-- DBG_SESSION.ACC_DROP [3], W1C, reset 0. -/
def Fld.DBG_SESSION_ACC_DROP : Fld := ⟨.DBG_SESSION, 3, 1, .w1c, 0x0⟩
/-- DBG_SESSION.LOCKOUT [2], RO, reset 0. -/
def Fld.DBG_SESSION_LOCKOUT : Fld := ⟨.DBG_SESSION, 2, 1, .ro, 0x0⟩
/-- DBG_SESSION.LEVEL [1:0], RO, reset 0. -/
def Fld.DBG_SESSION_LEVEL : Fld := ⟨.DBG_SESSION, 0, 2, .ro, 0x0⟩
/-- DBG_KEY_STAT.SLOTS [2:0], RO, reset fused. -/
def Fld.DBG_KEY_STAT_SLOTS : Fld := ⟨.DBG_KEY_STAT, 0, 3, .ro, 0x0⟩
/-- DBG_CTRL.FREEZE_SYS [0], RW, reset 0. -/
def Fld.DBG_CTRL_FREEZE_SYS : Fld := ⟨.DBG_CTRL, 0, 1, .rw, 0x0⟩
/-- DBG_SWD_CTRL.EN [31], RW, reset 0. -/
def Fld.DBG_SWD_CTRL_EN : Fld := ⟨.DBG_SWD_CTRL, 31, 1, .rw, 0x0⟩
/-- DBG_SWD_CTRL.PERIOD [15:0], RW, reset 0x03E8. -/
def Fld.DBG_SWD_CTRL_PERIOD : Fld := ⟨.DBG_SWD_CTRL, 0, 16, .rw, 0x3E8⟩
/-- DBG_SWD_KICK.KEY [7:0], W1P, reset 0. -/
def Fld.DBG_SWD_KICK_KEY : Fld := ⟨.DBG_SWD_KICK, 0, 8, .w1p, 0x0⟩
/-- DBG_SWD_STAT.WARNED [31], RO, reset 0. -/
def Fld.DBG_SWD_STAT_WARNED : Fld := ⟨.DBG_SWD_STAT, 31, 1, .ro, 0x0⟩
/-- DBG_SWD_STAT.FROZEN [30], RO, reset 0. -/
def Fld.DBG_SWD_STAT_FROZEN : Fld := ⟨.DBG_SWD_STAT, 30, 1, .ro, 0x0⟩
/-- DBG_SWD_STAT.REMAIN [15:0], RO, reset 0. -/
def Fld.DBG_SWD_STAT_REMAIN : Fld := ⟨.DBG_SWD_STAT, 0, 16, .ro, 0x0⟩
/-- DBG_BUSY_CNT.COUNT [15:0], RTC, reset 0. -/
def Fld.DBG_BUSY_CNT_COUNT : Fld := ⟨.DBG_BUSY_CNT, 0, 16, .rtc, 0x0⟩
/-- LAN_LANE_CFG.ALLOW [30:16], RW, reset image. -/
def Fld.LAN_LANE_CFG_ALLOW : Fld := ⟨.LAN_LANE_CFG, 16, 15, .rw, 0x0⟩
/-- LAN_LANE_CFG.FIXED_RATE [15:12], RW, reset image. -/
def Fld.LAN_LANE_CFG_FIXED_RATE : Fld := ⟨.LAN_LANE_CFG, 12, 4, .rw, 0x0⟩
/-- LAN_LANE_CFG.W128 [9], RO, reset image. -/
def Fld.LAN_LANE_CFG_W128 : Fld := ⟨.LAN_LANE_CFG, 9, 1, .ro, 0x0⟩
/-- LAN_LANE_CFG.AUTO_START [8], RW, reset image. -/
def Fld.LAN_LANE_CFG_AUTO_START : Fld := ⟨.LAN_LANE_CFG, 8, 1, .rw, 0x0⟩
/-- LAN_LANE_CFG.MODE [1:0], RW, reset image. -/
def Fld.LAN_LANE_CFG_MODE : Fld := ⟨.LAN_LANE_CFG, 0, 2, .rw, 0x0⟩
/-- LAN_LANE_FREQ.PAM4 [31], RW, reset image. -/
def Fld.LAN_LANE_FREQ_PAM4 : Fld := ⟨.LAN_LANE_FREQ, 31, 1, .rw, 0x0⟩
/-- LAN_LANE_FREQ.KBPS [26:0], RW, reset image. -/
def Fld.LAN_LANE_FREQ_KBPS : Fld := ⟨.LAN_LANE_FREQ, 0, 27, .rw, 0x0⟩
/-- LAN_LANE_CMD.MEASURE [5], W1P, reset 0. -/
def Fld.LAN_LANE_CMD_MEASURE : Fld := ⟨.LAN_LANE_CMD, 5, 1, .w1p, 0x0⟩
/-- LAN_LANE_CMD.TX_REENABLE [4], W1P, reset 0. -/
def Fld.LAN_LANE_CMD_TX_REENABLE : Fld := ⟨.LAN_LANE_CMD, 4, 1, .w1p, 0x0⟩
/-- LAN_LANE_CMD.WAKE [3], W1P, reset 0. -/
def Fld.LAN_LANE_CMD_WAKE : Fld := ⟨.LAN_LANE_CMD, 3, 1, .w1p, 0x0⟩
/-- LAN_LANE_CMD.SLEEP [2], W1P, reset 0. -/
def Fld.LAN_LANE_CMD_SLEEP : Fld := ⟨.LAN_LANE_CMD, 2, 1, .w1p, 0x0⟩
/-- LAN_LANE_CMD.ABORT [1], W1P, reset 0. -/
def Fld.LAN_LANE_CMD_ABORT : Fld := ⟨.LAN_LANE_CMD, 1, 1, .w1p, 0x0⟩
/-- LAN_LANE_CMD.RESTART [0], W1P, reset 0. -/
def Fld.LAN_LANE_CMD_RESTART : Fld := ⟨.LAN_LANE_CMD, 0, 1, .w1p, 0x0⟩
/-- LAN_LANE_STAT.PRESENT [31], RO, reset 0. -/
def Fld.LAN_LANE_STAT_PRESENT : Fld := ⟨.LAN_LANE_STAT, 31, 1, .ro, 0x0⟩
/-- LAN_LANE_STAT.SIGDET [30], RO, reset 0. -/
def Fld.LAN_LANE_STAT_SIGDET : Fld := ⟨.LAN_LANE_STAT, 30, 1, .ro, 0x0⟩
/-- LAN_LANE_STAT.LOCKED [29], RO, reset 0. -/
def Fld.LAN_LANE_STAT_LOCKED : Fld := ⟨.LAN_LANE_STAT, 29, 1, .ro, 0x0⟩
/-- LAN_LANE_STAT.TX_SAFE [28], RO, reset 0. -/
def Fld.LAN_LANE_STAT_TX_SAFE : Fld := ⟨.LAN_LANE_STAT, 28, 1, .ro, 0x0⟩
/-- LAN_LANE_STAT.ABORT_LATE [27], W1C, reset 0. -/
def Fld.LAN_LANE_STAT_ABORT_LATE : Fld := ⟨.LAN_LANE_STAT, 27, 1, .w1c, 0x0⟩
/-- LAN_LANE_STAT.CMD_IGNORED [26], W1C, reset 0. -/
def Fld.LAN_LANE_STAT_CMD_IGNORED : Fld := ⟨.LAN_LANE_STAT, 26, 1, .w1c, 0x0⟩
/-- LAN_LANE_STAT.STEPS [24:21], RO, reset 0. -/
def Fld.LAN_LANE_STAT_STEPS : Fld := ⟨.LAN_LANE_STAT, 21, 4, .ro, 0x0⟩
/-- LAN_LANE_STAT.RESULT [20:18], RO, reset 0. -/
def Fld.LAN_LANE_STAT_RESULT : Fld := ⟨.LAN_LANE_STAT, 18, 3, .ro, 0x0⟩
/-- LAN_LANE_STAT.PROTO [17:16], RO, reset 0. -/
def Fld.LAN_LANE_STAT_PROTO : Fld := ⟨.LAN_LANE_STAT, 16, 2, .ro, 0x0⟩
/-- LAN_LANE_STAT.RATE [7:4], RO, reset 0. -/
def Fld.LAN_LANE_STAT_RATE : Fld := ⟨.LAN_LANE_STAT, 4, 4, .ro, 0x0⟩
/-- LAN_LANE_STAT.STATE [3:0], RO, reset 0x1. -/
def Fld.LAN_LANE_STAT_STATE : Fld := ⟨.LAN_LANE_STAT, 0, 4, .ro, 0x1⟩
/-- LAN_LANE_PARTNER.PLANES [31:28], RO, reset 0. -/
def Fld.LAN_LANE_PARTNER_PLANES : Fld := ⟨.LAN_LANE_PARTNER, 28, 4, .ro, 0x0⟩
/-- LAN_LANE_PARTNER.PFOM [23:16], RO, reset 0. -/
def Fld.LAN_LANE_PARTNER_PFOM : Fld := ⟨.LAN_LANE_PARTNER, 16, 8, .ro, 0x0⟩
/-- LAN_LANE_PARTNER.PALLOW [14:0], RO, reset 0. -/
def Fld.LAN_LANE_PARTNER_PALLOW : Fld := ⟨.LAN_LANE_PARTNER, 0, 15, .ro, 0x0⟩
/-- LAN_LANE_FOM.AT_COMMIT [31:24], RO, reset 0. -/
def Fld.LAN_LANE_FOM_AT_COMMIT : Fld := ⟨.LAN_LANE_FOM, 24, 8, .ro, 0x0⟩
/-- LAN_LANE_FOM.LAST [23:16], RO, reset 0. -/
def Fld.LAN_LANE_FOM_LAST : Fld := ⟨.LAN_LANE_FOM, 16, 8, .ro, 0x0⟩
/-- LAN_LANE_FOM.WIDTH [14:8], RO, reset 0. -/
def Fld.LAN_LANE_FOM_WIDTH : Fld := ⟨.LAN_LANE_FOM, 8, 7, .ro, 0x0⟩
/-- LAN_LANE_FOM.HEIGHT [7:0], RO, reset 0. -/
def Fld.LAN_LANE_FOM_HEIGHT : Fld := ⟨.LAN_LANE_FOM, 0, 8, .ro, 0x0⟩
/-- LAN_LANE_CNT.DOWNS [31:16], RTC, reset 0. -/
def Fld.LAN_LANE_CNT_DOWNS : Fld := ⟨.LAN_LANE_CNT, 16, 16, .rtc, 0x0⟩
/-- LAN_LANE_CNT.RECOVERS [15:8], RTC, reset 0. -/
def Fld.LAN_LANE_CNT_RECOVERS : Fld := ⟨.LAN_LANE_CNT, 8, 8, .rtc, 0x0⟩
/-- LAN_LANE_CNT.WAKES_STALE [7:0], RTC, reset 0. -/
def Fld.LAN_LANE_CNT_WAKES_STALE : Fld := ⟨.LAN_LANE_CNT, 0, 8, .rtc, 0x0⟩
/-- LAN_LPBK.TX_MUTE [2], RW, reset 1. -/
def Fld.LAN_LPBK_TX_MUTE : Fld := ⟨.LAN_LPBK, 2, 1, .rw, 0x1⟩
/-- LAN_LPBK.MODE [1:0], RW, reset 0. -/
def Fld.LAN_LPBK_MODE : Fld := ⟨.LAN_LPBK, 0, 2, .rw, 0x0⟩
/-- LAN_PRBS_CTRL.SNAP [10], W1P, reset 0. -/
def Fld.LAN_PRBS_CTRL_SNAP : Fld := ⟨.LAN_PRBS_CTRL, 10, 1, .w1p, 0x0⟩
/-- LAN_PRBS_CTRL.CLEAR [9], W1P, reset 0. -/
def Fld.LAN_PRBS_CTRL_CLEAR : Fld := ⟨.LAN_PRBS_CTRL, 9, 1, .w1p, 0x0⟩
/-- LAN_PRBS_CTRL.INV [8], RW, reset 0. -/
def Fld.LAN_PRBS_CTRL_INV : Fld := ⟨.LAN_PRBS_CTRL, 8, 1, .rw, 0x0⟩
/-- LAN_PRBS_CTRL.CHK_EN [7], RW, reset 0. -/
def Fld.LAN_PRBS_CTRL_CHK_EN : Fld := ⟨.LAN_PRBS_CTRL, 7, 1, .rw, 0x0⟩
/-- LAN_PRBS_CTRL.CHK_PAT [6:4], RW, reset 0. -/
def Fld.LAN_PRBS_CTRL_CHK_PAT : Fld := ⟨.LAN_PRBS_CTRL, 4, 3, .rw, 0x0⟩
/-- LAN_PRBS_CTRL.GEN_EN [3], RW, reset 0. -/
def Fld.LAN_PRBS_CTRL_GEN_EN : Fld := ⟨.LAN_PRBS_CTRL, 3, 1, .rw, 0x0⟩
/-- LAN_PRBS_CTRL.GEN_PAT [2:0], RW, reset 0. -/
def Fld.LAN_PRBS_CTRL_GEN_PAT : Fld := ⟨.LAN_PRBS_CTRL, 0, 3, .rw, 0x0⟩
/-- LAN_PRBS_ERR.ERRORS [31:0], RO, reset 0. -/
def Fld.LAN_PRBS_ERR_ERRORS : Fld := ⟨.LAN_PRBS_ERR, 0, 32, .ro, 0x0⟩
/-- LAN_PRBS_BITS_LO.BITS [31:0], RO, reset 0. -/
def Fld.LAN_PRBS_BITS_LO_BITS : Fld := ⟨.LAN_PRBS_BITS_LO, 0, 32, .ro, 0x0⟩
/-- LAN_PRBS_BITS_HI.SYNC [31], RO, reset 0. -/
def Fld.LAN_PRBS_BITS_HI_SYNC : Fld := ⟨.LAN_PRBS_BITS_HI, 31, 1, .ro, 0x0⟩
/-- LAN_PRBS_BITS_HI.SYNC_LOST [30], W1C, reset 0. -/
def Fld.LAN_PRBS_BITS_HI_SYNC_LOST : Fld := ⟨.LAN_PRBS_BITS_HI, 30, 1, .w1c, 0x0⟩
/-- LAN_PRBS_BITS_HI.BITS [15:0], RO, reset 0. -/
def Fld.LAN_PRBS_BITS_HI_BITS : Fld := ⟨.LAN_PRBS_BITS_HI, 0, 16, .ro, 0x0⟩
/-- LAN_PRBS_THRESH.THRESH [31:0], RW, reset 0. -/
def Fld.LAN_PRBS_THRESH_THRESH : Fld := ⟨.LAN_PRBS_THRESH, 0, 32, .rw, 0x0⟩
/-- LAN_RAW_CNT.OVERFLOW [31:16], RTC, reset 0. -/
def Fld.LAN_RAW_CNT_OVERFLOW : Fld := ⟨.LAN_RAW_CNT, 16, 16, .rtc, 0x0⟩
/-- LAN_RAW_CNT.UNDERFLOW [15:0], RTC, reset 0. -/
def Fld.LAN_RAW_CNT_UNDERFLOW : Fld := ⟨.LAN_RAW_CNT, 0, 16, .rtc, 0x0⟩
/-- LAN_QUAD_CFG.ROLE [1:0], RO, reset image. -/
def Fld.LAN_QUAD_CFG_ROLE : Fld := ⟨.LAN_QUAD_CFG, 0, 2, .ro, 0x0⟩
/-- LAN_QUAD_RATE_NEXT.LANEi (i = 0 to 3) [4i+3:4i], RW, reset 0. -/
def Fld.LAN_QUAD_RATE_NEXT_LANE (i : Nat) : Fld := ⟨.LAN_QUAD_RATE_NEXT, 4 * i, 4, .rw, 0⟩
/-- LAN_QUAD_STAT.NEXT_REFUSED [8], W1C, reset 0. -/
def Fld.LAN_QUAD_STAT_NEXT_REFUSED : Fld := ⟨.LAN_QUAD_STAT, 8, 1, .w1c, 0x0⟩
/-- LAN_QUAD_STAT.LOCK_FAIL [3:0], RO, reset 0. -/
def Fld.LAN_QUAD_STAT_LOCK_FAIL : Fld := ⟨.LAN_QUAD_STAT, 0, 4, .ro, 0x0⟩
/-- LAN_FOM_CFG.MIN [7:0], RW, reset 0x40. -/
def Fld.LAN_FOM_CFG_MIN : Fld := ⟨.LAN_FOM_CFG, 0, 8, .rw, 0x40⟩
/-- LAN_LP_CFG.MAX_DT [23:16], RW, reset 0x0A. -/
def Fld.LAN_LP_CFG_MAX_DT : Fld := ⟨.LAN_LP_CFG, 16, 8, .rw, 0xA⟩
/-- LAN_LP_CFG.MAX_STALE [15:0], RW, reset 0x03E8. -/
def Fld.LAN_LP_CFG_MAX_STALE : Fld := ⟨.LAN_LP_CFG, 0, 16, .rw, 0x3E8⟩
/-- LAN_RCK0_CTRL.EN [31], RW, reset 0. -/
def Fld.LAN_RCK0_CTRL_EN : Fld := ⟨.LAN_RCK0_CTRL, 31, 1, .rw, 0x0⟩
/-- LAN_RCK0_CTRL.SQUELCHED [30], W1C, reset 0. -/
def Fld.LAN_RCK0_CTRL_SQUELCHED : Fld := ⟨.LAN_RCK0_CTRL, 30, 1, .w1c, 0x0⟩
/-- LAN_RCK0_CTRL.LANE [21:16], RW, reset 0. -/
def Fld.LAN_RCK0_CTRL_LANE : Fld := ⟨.LAN_RCK0_CTRL, 16, 6, .rw, 0x0⟩
/-- LAN_RCK0_CTRL.DIV [11:0], RW, reset 0x0A5. -/
def Fld.LAN_RCK0_CTRL_DIV : Fld := ⟨.LAN_RCK0_CTRL, 0, 12, .rw, 0xA5⟩
/-- LAN_RCK1_CTRL.EN [31], RW, reset 0. -/
def Fld.LAN_RCK1_CTRL_EN : Fld := ⟨.LAN_RCK1_CTRL, 31, 1, .rw, 0x0⟩
/-- LAN_RCK1_CTRL.SQUELCHED [30], W1C, reset 0. -/
def Fld.LAN_RCK1_CTRL_SQUELCHED : Fld := ⟨.LAN_RCK1_CTRL, 30, 1, .w1c, 0x0⟩
/-- LAN_RCK1_CTRL.LANE [21:16], RW, reset 0. -/
def Fld.LAN_RCK1_CTRL_LANE : Fld := ⟨.LAN_RCK1_CTRL, 16, 6, .rw, 0x0⟩
/-- LAN_RCK1_CTRL.DIV [11:0], RW, reset 0x0A5. -/
def Fld.LAN_RCK1_CTRL_DIV : Fld := ⟨.LAN_RCK1_CTRL, 0, 12, .rw, 0xA5⟩
/-- LAN_RCLK_OUT.EN1 [9], RW, reset 0. -/
def Fld.LAN_RCLK_OUT_EN1 : Fld := ⟨.LAN_RCLK_OUT, 9, 1, .rw, 0x0⟩
/-- LAN_RCLK_OUT.EN0 [8], RW, reset 0. -/
def Fld.LAN_RCLK_OUT_EN0 : Fld := ⟨.LAN_RCLK_OUT, 8, 1, .rw, 0x0⟩
/-- LAN_RCLK_OUT.SRC1 [5:4], RW, reset 0. -/
def Fld.LAN_RCLK_OUT_SRC1 : Fld := ⟨.LAN_RCLK_OUT, 4, 2, .rw, 0x0⟩
/-- LAN_RCLK_OUT.SRC0 [1:0], RW, reset 0. -/
def Fld.LAN_RCLK_OUT_SRC0 : Fld := ⟨.LAN_RCLK_OUT, 0, 2, .rw, 0x0⟩
/-- PKT_PORT_CFG.EN [31], RW, reset image. -/
def Fld.PKT_PORT_CFG_EN : Fld := ⟨.PKT_PORT_CFG, 31, 1, .rw, 0x0⟩
/-- PKT_PORT_CFG.PREEMPT_EN [30], RW, reset image. -/
def Fld.PKT_PORT_CFG_PREEMPT_EN : Fld := ⟨.PKT_PORT_CFG, 30, 1, .rw, 0x0⟩
/-- PKT_PORT_CFG.VERIFY_EN [29], RW, reset image. -/
def Fld.PKT_PORT_CFG_VERIFY_EN : Fld := ⟨.PKT_PORT_CFG, 29, 1, .rw, 0x0⟩
/-- PKT_PORT_CFG.FRAG [28:27], RW, reset image. -/
def Fld.PKT_PORT_CFG_FRAG : Fld := ⟨.PKT_PORT_CFG, 27, 2, .rw, 0x0⟩
/-- PKT_PORT_CFG.PAUSE_EN [26], RW, reset image. -/
def Fld.PKT_PORT_CFG_PAUSE_EN : Fld := ⟨.PKT_PORT_CFG, 26, 1, .rw, 0x0⟩
/-- PKT_PORT_CFG.CT_EN [25], RW, reset image. -/
def Fld.PKT_PORT_CFG_CT_EN : Fld := ⟨.PKT_PORT_CFG, 25, 1, .rw, 0x0⟩
/-- PKT_PORT_CFG.DEF_PRIO [24:22], RW, reset image. -/
def Fld.PKT_PORT_CFG_DEF_PRIO : Fld := ⟨.PKT_PORT_CFG, 22, 3, .rw, 0x0⟩
/-- PKT_PORT_CFG.PRIO_SRC [21:20], RW, reset image. -/
def Fld.PKT_PORT_CFG_PRIO_SRC : Fld := ⟨.PKT_PORT_CFG, 20, 2, .rw, 0x0⟩
/-- PKT_PORT_CFG.PROFILE [19:16], RW, reset image. -/
def Fld.PKT_PORT_CFG_PROFILE : Fld := ⟨.PKT_PORT_CFG, 16, 4, .rw, 0x0⟩
/-- PKT_PORT_CFG.MAXLEN [13:0], RW, reset image. -/
def Fld.PKT_PORT_CFG_MAXLEN : Fld := ⟨.PKT_PORT_CFG, 0, 14, .rw, 0x0⟩
/-- PKT_PORT_PFC.LOSSLESS [23:16], RW, reset image. -/
def Fld.PKT_PORT_PFC_LOSSLESS : Fld := ⟨.PKT_PORT_PFC, 16, 8, .rw, 0x0⟩
/-- PKT_PORT_PFC.XOFF_TH [15:0], RW, reset image. -/
def Fld.PKT_PORT_PFC_XOFF_TH : Fld := ⟨.PKT_PORT_PFC, 0, 16, .rw, 0x0⟩
/-- PKT_PORT_HDRM.XON_TH [31:16], RW, reset image. -/
def Fld.PKT_PORT_HDRM_XON_TH : Fld := ⟨.PKT_PORT_HDRM, 16, 16, .rw, 0x0⟩
/-- PKT_PORT_HDRM.HDRM [15:0], RW, reset image. -/
def Fld.PKT_PORT_HDRM_HDRM : Fld := ⟨.PKT_PORT_HDRM, 0, 16, .rw, 0x0⟩
/-- PKT_PORT_STAT.LINK [31], RO, reset 0. -/
def Fld.PKT_PORT_STAT_LINK : Fld := ⟨.PKT_PORT_STAT, 31, 1, .ro, 0x0⟩
/-- PKT_PORT_STAT.PREEMPT [30], RO, reset 0. -/
def Fld.PKT_PORT_STAT_PREEMPT : Fld := ⟨.PKT_PORT_STAT, 30, 1, .ro, 0x0⟩
/-- PKT_PORT_STAT.VERIFY_FAIL [29], W1C, reset 0. -/
def Fld.PKT_PORT_STAT_VERIFY_FAIL : Fld := ⟨.PKT_PORT_STAT, 29, 1, .w1c, 0x0⟩
/-- PKT_PORT_STAT.TX_XOFF [15:8], RO, reset 0. -/
def Fld.PKT_PORT_STAT_TX_XOFF : Fld := ⟨.PKT_PORT_STAT, 8, 8, .ro, 0x0⟩
/-- PKT_PORT_STAT.RX_PAUSED [7:0], RO, reset 0. -/
def Fld.PKT_PORT_STAT_RX_PAUSED : Fld := ⟨.PKT_PORT_STAT, 0, 8, .ro, 0x0⟩
/-- PKT_PORT_CNT.HDRM_DROP [31:16], RTC, reset 0. -/
def Fld.PKT_PORT_CNT_HDRM_DROP : Fld := ⟨.PKT_PORT_CNT, 16, 16, .rtc, 0x0⟩
/-- PKT_PORT_CNT.STOMPED [15:0], RTC, reset 0. -/
def Fld.PKT_PORT_CNT_STOMPED : Fld := ⟨.PKT_PORT_CNT, 0, 16, .rtc, 0x0⟩
/-- PKT_PROF_IDX.EXT [6:4], RW, reset 0. -/
def Fld.PKT_PROF_IDX_EXT : Fld := ⟨.PKT_PROF_IDX, 4, 3, .rw, 0x0⟩
/-- PKT_PROF_IDX.PROF [3:0], RW, reset 0. -/
def Fld.PKT_PROF_IDX_PROF : Fld := ⟨.PKT_PROF_IDX, 0, 4, .rw, 0x0⟩
/-- PKT_PROF_EXT.FIELD [28:24], RW, reset image. -/
def Fld.PKT_PROF_EXT_FIELD : Fld := ⟨.PKT_PROF_EXT, 24, 5, .rw, 0x0⟩
/-- PKT_PROF_EXT.OFFSET [22:16], RW, reset image. -/
def Fld.PKT_PROF_EXT_OFFSET : Fld := ⟨.PKT_PROF_EXT, 16, 7, .rw, 0x0⟩
/-- PKT_PROF_EXT.WIDTH [6:0], RW, reset image. -/
def Fld.PKT_PROF_EXT_WIDTH : Fld := ⟨.PKT_PROF_EXT, 0, 7, .rw, 0x0⟩
/-- PKT_PROF_MISS_LO.RESULT [31:0], RW, reset image. -/
def Fld.PKT_PROF_MISS_LO_RESULT : Fld := ⟨.PKT_PROF_MISS_LO, 0, 32, .rw, 0x0⟩
/-- PKT_PROF_MISS_HI.RESULT [31:0], RW, reset image. -/
def Fld.PKT_PROF_MISS_HI_RESULT : Fld := ⟨.PKT_PROF_MISS_HI, 0, 32, .rw, 0x0⟩
/-- PKT_LKP_CFG.WIDE [0], RO, reset image. -/
def Fld.PKT_LKP_CFG_WIDE : Fld := ⟨.PKT_LKP_CFG, 0, 1, .ro, 0x0⟩
/-- PKT_LKP_KEY.KEY [31:0], RW, reset 0. -/
def Fld.PKT_LKP_KEY_KEY : Fld := ⟨.PKT_LKP_KEY, 0, 32, .rw, 0x0⟩
/-- PKT_LKP_RES_LO.RESULT [31:0], RW, reset 0. -/
def Fld.PKT_LKP_RES_LO_RESULT : Fld := ⟨.PKT_LKP_RES_LO, 0, 32, .rw, 0x0⟩
/-- PKT_LKP_RES_HI.RESULT [31:0], RW, reset 0. -/
def Fld.PKT_LKP_RES_HI_RESULT : Fld := ⟨.PKT_LKP_RES_HI, 0, 32, .rw, 0x0⟩
/-- PKT_LKP_CMD.PLACE [27:8], RW, reset 0. -/
def Fld.PKT_LKP_CMD_PLACE : Fld := ⟨.PKT_LKP_CMD, 8, 20, .rw, 0x0⟩
/-- PKT_LKP_CMD.ABORT [4], W1P, reset 0. -/
def Fld.PKT_LKP_CMD_ABORT : Fld := ⟨.PKT_LKP_CMD, 4, 1, .w1p, 0x0⟩
/-- PKT_LKP_CMD.OP [2:0], W1P, reset 0. -/
def Fld.PKT_LKP_CMD_OP : Fld := ⟨.PKT_LKP_CMD, 0, 3, .w1p, 0x0⟩
/-- PKT_LKP_STAT.BUSY [31], RO, reset 0. -/
def Fld.PKT_LKP_STAT_BUSY : Fld := ⟨.PKT_LKP_STAT, 31, 1, .ro, 0x0⟩
/-- PKT_LKP_STAT.ABORT_LATE [30], W1C, reset 0. -/
def Fld.PKT_LKP_STAT_ABORT_LATE : Fld := ⟨.PKT_LKP_STAT, 30, 1, .w1c, 0x0⟩
/-- PKT_LKP_STAT.CMD_IGNORED [29], W1C, reset 0. -/
def Fld.PKT_LKP_STAT_CMD_IGNORED : Fld := ⟨.PKT_LKP_STAT, 29, 1, .w1c, 0x0⟩
/-- PKT_LKP_STAT.HIT [28], RO, reset 0. -/
def Fld.PKT_LKP_STAT_HIT : Fld := ⟨.PKT_LKP_STAT, 28, 1, .ro, 0x0⟩
/-- PKT_LKP_STAT.WAY [27:25], RO, reset 0. -/
def Fld.PKT_LKP_STAT_WAY : Fld := ⟨.PKT_LKP_STAT, 25, 3, .ro, 0x0⟩
/-- PKT_LKP_STAT.INDEX [24:8], RO, reset 0. -/
def Fld.PKT_LKP_STAT_INDEX : Fld := ⟨.PKT_LKP_STAT, 8, 17, .ro, 0x0⟩
/-- PKT_LKP_STAT.RESULT [2:0], RO, reset 0. -/
def Fld.PKT_LKP_STAT_RESULT : Fld := ⟨.PKT_LKP_STAT, 0, 3, .ro, 0x0⟩
/-- PKT_LKP_BULK_ADDR_LO.ADDR [31:0], RW, reset 0. -/
def Fld.PKT_LKP_BULK_ADDR_LO_ADDR : Fld := ⟨.PKT_LKP_BULK_ADDR_LO, 0, 32, .rw, 0x0⟩
/-- PKT_LKP_BULK_ADDR_HI.ADDR [31:0], RW, reset 0. -/
def Fld.PKT_LKP_BULK_ADDR_HI_ADDR : Fld := ⟨.PKT_LKP_BULK_ADDR_HI, 0, 16, .rw, 0x0⟩
/-- PKT_LKP_BULK_CNT.COUNT [19:0], RW, reset 0. -/
def Fld.PKT_LKP_BULK_CNT_COUNT : Fld := ⟨.PKT_LKP_BULK_CNT, 0, 20, .rw, 0x0⟩
/-- PKT_LKP_DONE.DONE_CNT [19:0], RO, reset 0. -/
def Fld.PKT_LKP_DONE_DONE_CNT : Fld := ⟨.PKT_LKP_DONE, 0, 20, .ro, 0x0⟩
/-- PKT_LKP_OCC.STASH [31:21], RO, reset 0. -/
def Fld.PKT_LKP_OCC_STASH : Fld := ⟨.PKT_LKP_OCC, 21, 11, .ro, 0x0⟩
/-- PKT_LKP_OCC.ENTRIES [18:0], RO, reset 0. -/
def Fld.PKT_LKP_OCC_ENTRIES : Fld := ⟨.PKT_LKP_OCC, 0, 19, .ro, 0x0⟩
/-- PKT_Q_IDX.QUEUE [15:0], RW, reset 0. -/
def Fld.PKT_Q_IDX_QUEUE : Fld := ⟨.PKT_Q_IDX, 0, 16, .rw, 0x0⟩
/-- PKT_Q_CFG.EN [31], RW, reset image. -/
def Fld.PKT_Q_CFG_EN : Fld := ⟨.PKT_Q_CFG, 31, 1, .rw, 0x0⟩
/-- PKT_Q_CFG.DTYPE [30:29], RW, reset image. -/
def Fld.PKT_Q_CFG_DTYPE : Fld := ⟨.PKT_Q_CFG, 29, 2, .rw, 0x0⟩
/-- PKT_Q_CFG.CLS [28:27], RW, reset image. -/
def Fld.PKT_Q_CFG_CLS : Fld := ⟨.PKT_Q_CFG, 27, 2, .rw, 0x0⟩
/-- PKT_Q_CFG.GROUP [26:24], RW, reset image. -/
def Fld.PKT_Q_CFG_GROUP : Fld := ⟨.PKT_Q_CFG, 24, 3, .rw, 0x0⟩
/-- PKT_Q_CFG.SPILL [23], RW, reset image. -/
def Fld.PKT_Q_CFG_SPILL : Fld := ⟨.PKT_Q_CFG, 23, 1, .rw, 0x0⟩
/-- PKT_Q_CFG.ALPHA [22:19], RW, reset image. -/
def Fld.PKT_Q_CFG_ALPHA : Fld := ⟨.PKT_Q_CFG, 19, 4, .rw, 0x0⟩
/-- PKT_Q_CFG.DEST [11:0], RW, reset image. -/
def Fld.PKT_Q_CFG_DEST : Fld := ⟨.PKT_Q_CFG, 0, 12, .rw, 0x0⟩
/-- PKT_Q_MIN.MIN [15:0], RW, reset image. -/
def Fld.PKT_Q_MIN_MIN : Fld := ⟨.PKT_Q_MIN, 0, 16, .rw, 0x0⟩
/-- PKT_Q_SCHED.WEIGHT [15:0], RO (SCHED), RW (NEXT), reset image. -/
def Fld.PKT_Q_SCHED_WEIGHT : Fld := ⟨.PKT_Q_SCHED, 0, 16, .ro, 0x0⟩
/-- PKT_Q_SCHED_NEXT.WEIGHT [15:0], RO (SCHED), RW (NEXT), reset image. -/
def Fld.PKT_Q_SCHED_NEXT_WEIGHT : Fld := ⟨.PKT_Q_SCHED_NEXT, 0, 16, .rw, 0x0⟩
/-- PKT_Q_STAT.SPILLING [22], RO, reset 0. -/
def Fld.PKT_Q_STAT_SPILLING : Fld := ⟨.PKT_Q_STAT, 22, 1, .ro, 0x0⟩
/-- PKT_Q_STAT.CELLS [20:0], RO, reset 0. -/
def Fld.PKT_Q_STAT_CELLS : Fld := ⟨.PKT_Q_STAT, 0, 21, .ro, 0x0⟩
/-- PKT_Q_CNT.ADM_DROP [31:16], RTC, reset 0. -/
def Fld.PKT_Q_CNT_ADM_DROP : Fld := ⟨.PKT_Q_CNT, 16, 16, .rtc, 0x0⟩
/-- PKT_Q_CNT.X_OVER [15:0], RTC, reset 0. -/
def Fld.PKT_Q_CNT_X_OVER : Fld := ⟨.PKT_Q_CNT, 0, 16, .rtc, 0x0⟩
/-- PKT_Q_CMD.ABORT [1], W1P, reset 0. -/
def Fld.PKT_Q_CMD_ABORT : Fld := ⟨.PKT_Q_CMD, 1, 1, .w1p, 0x0⟩
/-- PKT_Q_CMD.FLUSH [0], W1P, reset 0. -/
def Fld.PKT_Q_CMD_FLUSH : Fld := ⟨.PKT_Q_CMD, 0, 1, .w1p, 0x0⟩
/-- PKT_Q_FLUSH_STAT.BUSY [31], RO, reset 0. -/
def Fld.PKT_Q_FLUSH_STAT_BUSY : Fld := ⟨.PKT_Q_FLUSH_STAT, 31, 1, .ro, 0x0⟩
/-- PKT_Q_FLUSH_STAT.ABORT_LATE [30], W1C, reset 0. -/
def Fld.PKT_Q_FLUSH_STAT_ABORT_LATE : Fld := ⟨.PKT_Q_FLUSH_STAT, 30, 1, .w1c, 0x0⟩
/-- PKT_Q_FLUSH_STAT.CMD_IGNORED [29], W1C, reset 0. -/
def Fld.PKT_Q_FLUSH_STAT_CMD_IGNORED : Fld := ⟨.PKT_Q_FLUSH_STAT, 29, 1, .w1c, 0x0⟩
/-- PKT_Q_FLUSH_STAT.RESULT [28:27], RO, reset 0. -/
def Fld.PKT_Q_FLUSH_STAT_RESULT : Fld := ⟨.PKT_Q_FLUSH_STAT, 27, 2, .ro, 0x0⟩
/-- PKT_Q_FLUSH_STAT.QUEUE [15:0], RO, reset 0. -/
def Fld.PKT_Q_FLUSH_STAT_QUEUE : Fld := ⟨.PKT_Q_FLUSH_STAT, 0, 16, .ro, 0x0⟩
/-- PKT_GRP_IDX.PORT [5:0], RW, reset 0. -/
def Fld.PKT_GRP_IDX_PORT : Fld := ⟨.PKT_GRP_IDX, 0, 6, .rw, 0x0⟩
/-- PKT_GRP.QUANT_ODD [31:16], RO (GRP), RW (NEXT), reset image. -/
def Fld.PKT_GRP_QUANT_ODD : Fld := ⟨.PKT_GRP, 16, 16, .ro, 0x0⟩
/-- PKT_GRP.QUANT_EVEN [15:0], RO (GRP), RW (NEXT), reset image. -/
def Fld.PKT_GRP_QUANT_EVEN : Fld := ⟨.PKT_GRP, 0, 16, .ro, 0x0⟩
/-- PKT_GRP_NEXT.QUANT_ODD [31:16], RO (GRP), RW (NEXT), reset image. -/
def Fld.PKT_GRP_NEXT_QUANT_ODD : Fld := ⟨.PKT_GRP_NEXT, 16, 16, .rw, 0x0⟩
/-- PKT_GRP_NEXT.QUANT_EVEN [15:0], RO (GRP), RW (NEXT), reset image. -/
def Fld.PKT_GRP_NEXT_QUANT_EVEN : Fld := ⟨.PKT_GRP_NEXT, 0, 16, .rw, 0x0⟩
/-- PKT_SCHED_STAT.NEXT_REFUSED [31], W1C, reset 0. -/
def Fld.PKT_SCHED_STAT_NEXT_REFUSED : Fld := ⟨.PKT_SCHED_STAT, 31, 1, .w1c, 0x0⟩
/-- PKT_SCHED_STAT.CFG_REFUSED [30], W1C, reset 0. -/
def Fld.PKT_SCHED_STAT_CFG_REFUSED : Fld := ⟨.PKT_SCHED_STAT, 30, 1, .w1c, 0x0⟩
/-- PKT_SCHED_STAT.REASON [15:8], RO, reset 0. -/
def Fld.PKT_SCHED_STAT_REASON : Fld := ⟨.PKT_SCHED_STAT, 8, 8, .ro, 0x0⟩
/-- PKT_SCHED_STAT.PORT [5:0], RO, reset 0. -/
def Fld.PKT_SCHED_STAT_PORT : Fld := ⟨.PKT_SCHED_STAT, 0, 6, .ro, 0x0⟩
/-- PKT_BUF_STAT.CFG_REFUSED [31], W1C, reset 0. -/
def Fld.PKT_BUF_STAT_CFG_REFUSED : Fld := ⟨.PKT_BUF_STAT, 31, 1, .w1c, 0x0⟩
/-- PKT_BUF_STAT.FREE [20:0], RO, reset 0. -/
def Fld.PKT_BUF_STAT_FREE : Fld := ⟨.PKT_BUF_STAT, 0, 21, .ro, 0x0⟩
/-- PKT_BUF_SHARED.SIZE [20:0], RO, reset 0. -/
def Fld.PKT_BUF_SHARED_SIZE : Fld := ⟨.PKT_BUF_SHARED, 0, 21, .ro, 0x0⟩
/-- PKT_SPILL_BASE_LO.BASE [31:0], RW, reset image. -/
def Fld.PKT_SPILL_BASE_LO_BASE : Fld := ⟨.PKT_SPILL_BASE_LO, 0, 32, .rw, 0x0⟩
/-- PKT_SPILL_BASE_HI.BASE [31:0], RW, reset image. -/
def Fld.PKT_SPILL_BASE_HI_BASE : Fld := ⟨.PKT_SPILL_BASE_HI, 0, 16, .rw, 0x0⟩
/-- PKT_SPILL_SIZE.MIB [15:0], RW, reset image. -/
def Fld.PKT_SPILL_SIZE_MIB : Fld := ⟨.PKT_SPILL_SIZE, 0, 16, .rw, 0x0⟩
/-- PKT_SPILL_STAT.BAD [31], RO, reset 0. -/
def Fld.PKT_SPILL_STAT_BAD : Fld := ⟨.PKT_SPILL_STAT, 31, 1, .ro, 0x0⟩
/-- PKT_SPILL_STAT.DROP [15:0], RTC, reset 0. -/
def Fld.PKT_SPILL_STAT_DROP : Fld := ⟨.PKT_SPILL_STAT, 0, 16, .rtc, 0x0⟩
/-- PKT_XDIE_DROP.COUNT [15:0], RTC, reset 0. -/
def Fld.PKT_XDIE_DROP_COUNT : Fld := ⟨.PKT_XDIE_DROP, 0, 16, .rtc, 0x0⟩
/-- PKT_DRING_IDX.RING [9:0], RW, reset 0. -/
def Fld.PKT_DRING_IDX_RING : Fld := ⟨.PKT_DRING_IDX, 0, 10, .rw, 0x0⟩
/-- PKT_DRING_BASE_LO.BASE [31:0], RW, reset image. -/
def Fld.PKT_DRING_BASE_LO_BASE : Fld := ⟨.PKT_DRING_BASE_LO, 0, 32, .rw, 0x0⟩
/-- PKT_DRING_BASE_HI.BASE [31:0], RW, reset image. -/
def Fld.PKT_DRING_BASE_HI_BASE : Fld := ⟨.PKT_DRING_BASE_HI, 0, 16, .rw, 0x0⟩
/-- PKT_DRING_CFG.EN [31], RW, reset image. -/
def Fld.PKT_DRING_CFG_EN : Fld := ⟨.PKT_DRING_CFG, 31, 1, .rw, 0x0⟩
/-- PKT_DRING_CFG.CLS [30:29], RW, reset image. -/
def Fld.PKT_DRING_CFG_CLS : Fld := ⟨.PKT_DRING_CFG, 29, 2, .rw, 0x0⟩
/-- PKT_DRING_CFG.FORMAT [28], RW, reset image. -/
def Fld.PKT_DRING_CFG_FORMAT : Fld := ⟨.PKT_DRING_CFG, 28, 1, .rw, 0x0⟩
/-- PKT_DRING_CFG.LOG2_SIZE [4:0], RW, reset image. -/
def Fld.PKT_DRING_CFG_LOG2_SIZE : Fld := ⟨.PKT_DRING_CFG, 0, 5, .rw, 0x0⟩
/-- PKT_DRING_HEAD.LINE [19:0], RO (HEAD), RW (TAIL), reset 0. -/
def Fld.PKT_DRING_HEAD_LINE : Fld := ⟨.PKT_DRING_HEAD, 0, 20, .ro, 0x0⟩
/-- PKT_DRING_TAIL.LINE [19:0], RO (HEAD), RW (TAIL), reset 0. -/
def Fld.PKT_DRING_TAIL_LINE : Fld := ⟨.PKT_DRING_TAIL, 0, 20, .rw, 0x0⟩
/-- PKT_DRING_CNT.ERR [15:0], RTC, reset 0. -/
def Fld.PKT_DRING_CNT_ERR : Fld := ⟨.PKT_DRING_CNT, 0, 16, .rtc, 0x0⟩
/-- PKT_TS_CORR.TX_ADJ [31:16], RW, reset 0. -/
def Fld.PKT_TS_CORR_TX_ADJ : Fld := ⟨.PKT_TS_CORR, 16, 16, .rw, 0x0⟩
/-- PKT_TS_CORR.RX_ADJ [15:0], RW, reset 0. -/
def Fld.PKT_TS_CORR_RX_ADJ : Fld := ⟨.PKT_TS_CORR, 0, 16, .rw, 0x0⟩
/-- PKT_TC_CFG.OWN_EN [1], RW, reset image. -/
def Fld.PKT_TC_CFG_OWN_EN : Fld := ⟨.PKT_TC_CFG, 1, 1, .rw, 0x0⟩
/-- PKT_TC_CFG.TC_EN [0], RW, reset image. -/
def Fld.PKT_TC_CFG_TC_EN : Fld := ⟨.PKT_TC_CFG, 0, 1, .rw, 0x0⟩
/-- PKT_TC_CNT.CORRECTED [31:16], RTC, reset 0. -/
def Fld.PKT_TC_CNT_CORRECTED : Fld := ⟨.PKT_TC_CNT, 16, 16, .rtc, 0x0⟩
/-- PKT_TC_CNT.SKIPPED [15:0], RTC, reset 0. -/
def Fld.PKT_TC_CNT_SKIPPED : Fld := ⟨.PKT_TC_CNT, 0, 16, .rtc, 0x0⟩
/-- PKT_TOD_CTRL.STEPS [31:16], RTC, reset 0. -/
def Fld.PKT_TOD_CTRL_STEPS : Fld := ⟨.PKT_TOD_CTRL, 16, 16, .rtc, 0x0⟩
/-- PKT_TOD_CTRL.UNTIMED [10], RO, reset 0. -/
def Fld.PKT_TOD_CTRL_UNTIMED : Fld := ⟨.PKT_TOD_CTRL, 10, 1, .ro, 0x0⟩
/-- PKT_TOD_CTRL.OP_REFUSED [9], W1C, reset 0. -/
def Fld.PKT_TOD_CTRL_OP_REFUSED : Fld := ⟨.PKT_TOD_CTRL, 9, 1, .w1c, 0x0⟩
/-- PKT_TOD_CTRL.INCR_REFUSED [8], W1C, reset 0. -/
def Fld.PKT_TOD_CTRL_INCR_REFUSED : Fld := ⟨.PKT_TOD_CTRL, 8, 1, .w1c, 0x0⟩
/-- PKT_TOD_CTRL.OP [2:1], W1P, reset 0. -/
def Fld.PKT_TOD_CTRL_OP : Fld := ⟨.PKT_TOD_CTRL, 1, 2, .w1p, 0x0⟩
/-- PKT_TOD_CTRL.RUN [0], RW, reset 1. -/
def Fld.PKT_TOD_CTRL_RUN : Fld := ⟨.PKT_TOD_CTRL, 0, 1, .rw, 0x1⟩
/-- PKT_TOD_INCR.INCR [31:0], RW, reset 0x2000_0000. -/
def Fld.PKT_TOD_INCR_INCR : Fld := ⟨.PKT_TOD_INCR, 0, 32, .rw, 0x20000000⟩
/-- PKT_TOD_SET_NS.NS [31:0], RW, reset 0. -/
def Fld.PKT_TOD_SET_NS_NS : Fld := ⟨.PKT_TOD_SET_NS, 0, 32, .rw, 0x0⟩
/-- PKT_TOD_SET_SEC_LO.SEC [31:0], RW, reset 0. -/
def Fld.PKT_TOD_SET_SEC_LO_SEC : Fld := ⟨.PKT_TOD_SET_SEC_LO, 0, 32, .rw, 0x0⟩
/-- PKT_TOD_SET_SEC_HI.SEC [31:0], RW, reset 0. -/
def Fld.PKT_TOD_SET_SEC_HI_SEC : Fld := ⟨.PKT_TOD_SET_SEC_HI, 0, 16, .rw, 0x0⟩
/-- PKT_TOD_NS.NS [31:0], RO, reset 0. -/
def Fld.PKT_TOD_NS_NS : Fld := ⟨.PKT_TOD_NS, 0, 32, .ro, 0x0⟩
/-- PKT_TOD_SEC_LO.SEC [31:0], RO, reset 0. -/
def Fld.PKT_TOD_SEC_LO_SEC : Fld := ⟨.PKT_TOD_SEC_LO, 0, 32, .ro, 0x0⟩
/-- PKT_TOD_SEC_HI.SEC [31:0], RO, reset 0. -/
def Fld.PKT_TOD_SEC_HI_SEC : Fld := ⟨.PKT_TOD_SEC_HI, 0, 24, .ro, 0x0⟩
/-- PKT_PPS_CFG.EN [31], RW, reset 0. -/
def Fld.PKT_PPS_CFG_EN : Fld := ⟨.PKT_PPS_CFG, 31, 1, .rw, 0x0⟩
/-- PKT_PPS_CFG.COMP [30:20], RW, reset 0. -/
def Fld.PKT_PPS_CFG_COMP : Fld := ⟨.PKT_PPS_CFG, 20, 11, .rw, 0x0⟩
/-- PKT_PPS_CFG.WIDTH [19:0], RW, reset 0x1_86A0. -/
def Fld.PKT_PPS_CFG_WIDTH : Fld := ⟨.PKT_PPS_CFG, 0, 20, .rw, 0x186A0⟩
/-- PKT_PPS_IN_NS.NS [31:0], RO, reset 0. -/
def Fld.PKT_PPS_IN_NS_NS : Fld := ⟨.PKT_PPS_IN_NS, 0, 32, .ro, 0x0⟩
/-- PKT_PPS_IN_SEC.VALID [31], W1C, reset 0. -/
def Fld.PKT_PPS_IN_SEC_VALID : Fld := ⟨.PKT_PPS_IN_SEC, 31, 1, .w1c, 0x0⟩
/-- PKT_PPS_IN_SEC.COUNT [30:24], RTC, reset 0. -/
def Fld.PKT_PPS_IN_SEC_COUNT : Fld := ⟨.PKT_PPS_IN_SEC, 24, 7, .rtc, 0x0⟩
/-- PKT_PPS_IN_SEC.SEC [23:0], RO, reset 0. -/
def Fld.PKT_PPS_IN_SEC_SEC : Fld := ⟨.PKT_PPS_IN_SEC, 0, 24, .ro, 0x0⟩
/-- CMP_PROF_IDX.PROF [4:0], RW, reset 0. -/
def Fld.CMP_PROF_IDX_PROF : Fld := ⟨.CMP_PROF_IDX, 0, 5, .rw, 0x0⟩
/-- CMP_PROF_CFG.DIR [31], RW, reset image. -/
def Fld.CMP_PROF_CFG_DIR : Fld := ⟨.CMP_PROF_CFG, 31, 1, .rw, 0x0⟩
/-- CMP_PROF_CFG.N16 [30], RW, reset image. -/
def Fld.CMP_PROF_CFG_N16 : Fld := ⟨.CMP_PROF_CFG, 30, 1, .rw, 0x0⟩
/-- CMP_PROF_CFG.FMT [29:28], RW, reset image. -/
def Fld.CMP_PROF_CFG_FMT : Fld := ⟨.CMP_PROF_CFG, 28, 2, .rw, 0x0⟩
/-- CMP_PROF_CFG.IP4_HCS [27], RW, reset image. -/
def Fld.CMP_PROF_CFG_IP4_HCS : Fld := ⟨.CMP_PROF_CFG, 27, 1, .rw, 0x0⟩
/-- CMP_PROF_CFG.MANT [26:22], RW, reset image. -/
def Fld.CMP_PROF_CFG_MANT : Fld := ⟨.CMP_PROF_CFG, 22, 5, .rw, 0x0⟩
/-- CMP_PROF_CFG.TRAIL [15:8], RW, reset image. -/
def Fld.CMP_PROF_CFG_TRAIL : Fld := ⟨.CMP_PROF_CFG, 8, 8, .rw, 0x0⟩
/-- CMP_PROF_CFG.OFFSET [7:0], RW, reset image. -/
def Fld.CMP_PROF_CFG_OFFSET : Fld := ⟨.CMP_PROF_CFG, 0, 8, .rw, 0x0⟩
/-- CMP_PROF_LEN.LEN1_EN [31], RW, reset image. -/
def Fld.CMP_PROF_LEN_LEN1_EN : Fld := ⟨.CMP_PROF_LEN, 31, 1, .rw, 0x0⟩
/-- CMP_PROF_LEN.LEN1_OFF [23:16], RW, reset image. -/
def Fld.CMP_PROF_LEN_LEN1_OFF : Fld := ⟨.CMP_PROF_LEN, 16, 8, .rw, 0x0⟩
/-- CMP_PROF_LEN.LEN0_EN [15], RW, reset image. -/
def Fld.CMP_PROF_LEN_LEN0_EN : Fld := ⟨.CMP_PROF_LEN, 15, 1, .rw, 0x0⟩
/-- CMP_PROF_LEN.LEN0_OFF [7:0], RW, reset image. -/
def Fld.CMP_PROF_LEN_LEN0_OFF : Fld := ⟨.CMP_PROF_LEN, 0, 8, .rw, 0x0⟩
/-- CMP_JOB_POST.ADDR [31:0], RW, reset 0. -/
def Fld.CMP_JOB_POST_ADDR : Fld := ⟨.CMP_JOB_POST, 0, 32, .rw, 0x0⟩
/-- CMP_JOB_POST4.EVT [31], RW, reset 0. -/
def Fld.CMP_JOB_POST4_EVT : Fld := ⟨.CMP_JOB_POST4, 31, 1, .rw, 0x0⟩
/-- CMP_JOB_POST4.CLS [30:29], RW, reset 0. -/
def Fld.CMP_JOB_POST4_CLS : Fld := ⟨.CMP_JOB_POST4, 29, 2, .rw, 0x0⟩
/-- CMP_JOB_POST4.PROF [28:24], RW, reset 0. -/
def Fld.CMP_JOB_POST4_PROF : Fld := ⟨.CMP_JOB_POST4, 24, 5, .rw, 0x0⟩
/-- CMP_JOB_POST4.BLOCKS [23:0], RW, reset 0. -/
def Fld.CMP_JOB_POST4_BLOCKS : Fld := ⟨.CMP_JOB_POST4, 0, 24, .rw, 0x0⟩
/-- CMP_JOB_GO.GO [0], W1P, reset 0. -/
def Fld.CMP_JOB_GO_GO : Fld := ⟨.CMP_JOB_GO, 0, 1, .w1p, 0x0⟩
/-- CMP_JOB_CTRL.FLUSH [0], W1P, reset 0. -/
def Fld.CMP_JOB_CTRL_FLUSH : Fld := ⟨.CMP_JOB_CTRL, 0, 1, .w1p, 0x0⟩
/-- CMP_JOB_STAT.BUSY [31], RO, reset 0. -/
def Fld.CMP_JOB_STAT_BUSY : Fld := ⟨.CMP_JOB_STAT, 31, 1, .ro, 0x0⟩
/-- CMP_JOB_STAT.POST_IGNORED [30], W1C, reset 0. -/
def Fld.CMP_JOB_STAT_POST_IGNORED : Fld := ⟨.CMP_JOB_STAT, 30, 1, .w1c, 0x0⟩
/-- CMP_JOB_STAT.STATUS [29:26], RO, reset 0. -/
def Fld.CMP_JOB_STAT_STATUS : Fld := ⟨.CMP_JOB_STAT, 26, 4, .ro, 0x0⟩
/-- CMP_JOB_STAT.RESULT [25:24], RO, reset 0. -/
def Fld.CMP_JOB_STAT_RESULT : Fld := ⟨.CMP_JOB_STAT, 24, 2, .ro, 0x0⟩
/-- CMP_JOB_STAT.DONE [23:16], RTC, reset 0. -/
def Fld.CMP_JOB_STAT_DONE : Fld := ⟨.CMP_JOB_STAT, 16, 8, .rtc, 0x0⟩
/-- CMP_JOB_STAT.QUEUED [6:0], RO, reset 0. -/
def Fld.CMP_JOB_STAT_QUEUED : Fld := ⟨.CMP_JOB_STAT, 0, 7, .ro, 0x0⟩
/-- CMP_JOB_OUT.BYTES [31:0], RO, reset 0. -/
def Fld.CMP_JOB_OUT_BYTES : Fld := ⟨.CMP_JOB_OUT, 0, 32, .ro, 0x0⟩
/-- CMP_CNT.UNFIT [31:16], RTC, reset 0. -/
def Fld.CMP_CNT_UNFIT : Fld := ⟨.CMP_CNT, 16, 16, .rtc, 0x0⟩
/-- CMP_CNT.DROP [15:0], RTC, reset 0. -/
def Fld.CMP_CNT_DROP : Fld := ⟨.CMP_CNT, 0, 16, .rtc, 0x0⟩
/-- CMP_CNT1.BAD_EXP [31:16], RTC, reset 0. -/
def Fld.CMP_CNT1_BAD_EXP : Fld := ⟨.CMP_CNT1, 16, 16, .rtc, 0x0⟩
/-- CMP_BLOCKS.COUNT [31:0], RTC, reset 0. -/
def Fld.CMP_BLOCKS_COUNT : Fld := ⟨.CMP_BLOCKS, 0, 32, .rtc, 0x0⟩
/-- MEM_CXL_CTRL.MAX_SPEED [5:4], RW, reset 0x2. -/
def Fld.MEM_CXL_CTRL_MAX_SPEED : Fld := ⟨.MEM_CXL_CTRL, 4, 2, .rw, 0x2⟩
/-- MEM_CXL_CTRL.TX_REENABLE [3], W1P, reset 0. -/
def Fld.MEM_CXL_CTRL_TX_REENABLE : Fld := ⟨.MEM_CXL_CTRL, 3, 1, .w1p, 0x0⟩
/-- MEM_CXL_CTRL.ACK_DETACH [2], W1P, reset 0. -/
def Fld.MEM_CXL_CTRL_ACK_DETACH : Fld := ⟨.MEM_CXL_CTRL, 2, 1, .w1p, 0x0⟩
/-- MEM_CXL_CTRL.DETACH [1], W1P, reset 0. -/
def Fld.MEM_CXL_CTRL_DETACH : Fld := ⟨.MEM_CXL_CTRL, 1, 1, .w1p, 0x0⟩
/-- MEM_CXL_CTRL.ENABLE_MEM [0], W1P, reset 0. -/
def Fld.MEM_CXL_CTRL_ENABLE_MEM : Fld := ⟨.MEM_CXL_CTRL, 0, 1, .w1p, 0x0⟩
/-- MEM_CXL_STAT.PRESENT [31], RO, reset 0. -/
def Fld.MEM_CXL_STAT_PRESENT : Fld := ⟨.MEM_CXL_STAT, 31, 1, .ro, 0x0⟩
/-- MEM_CXL_STAT.TX_SAFE [30], RO, reset 0. -/
def Fld.MEM_CXL_STAT_TX_SAFE : Fld := ⟨.MEM_CXL_STAT, 30, 1, .ro, 0x0⟩
/-- MEM_CXL_STAT.CMD_IGNORED [29], W1C, reset 0. -/
def Fld.MEM_CXL_STAT_CMD_IGNORED : Fld := ⟨.MEM_CXL_STAT, 29, 1, .w1c, 0x0⟩
/-- MEM_CXL_STAT.CAUSE [11:10], RO, reset 0. -/
def Fld.MEM_CXL_STAT_CAUSE : Fld := ⟨.MEM_CXL_STAT, 10, 2, .ro, 0x0⟩
/-- MEM_CXL_STAT.SPEED [9:8], RO, reset 0. -/
def Fld.MEM_CXL_STAT_SPEED : Fld := ⟨.MEM_CXL_STAT, 8, 2, .ro, 0x0⟩
/-- MEM_CXL_STAT.WIDTH [7:4], RO, reset 0. -/
def Fld.MEM_CXL_STAT_WIDTH : Fld := ⟨.MEM_CXL_STAT, 4, 4, .ro, 0x0⟩
/-- MEM_CXL_STAT.STATE [2:0], RO, reset 0. -/
def Fld.MEM_CXL_STAT_STATE : Fld := ⟨.MEM_CXL_STAT, 0, 3, .ro, 0x0⟩
/-- MEM_CXL_SIZE.UNITS [15:0], RW, reset 0. -/
def Fld.MEM_CXL_SIZE_UNITS : Fld := ⟨.MEM_CXL_SIZE, 0, 16, .rw, 0x0⟩
/-- MEM_CXL_IOA.GO [31], W1P, reset 0. -/
def Fld.MEM_CXL_IOA_GO : Fld := ⟨.MEM_CXL_IOA, 31, 1, .w1p, 0x0⟩
/-- MEM_CXL_IOA.WRITE [30], RW, reset 0. -/
def Fld.MEM_CXL_IOA_WRITE : Fld := ⟨.MEM_CXL_IOA, 30, 1, .rw, 0x0⟩
/-- MEM_CXL_IOA.CFG [29], RW, reset 0. -/
def Fld.MEM_CXL_IOA_CFG : Fld := ⟨.MEM_CXL_IOA, 29, 1, .rw, 0x0⟩
/-- MEM_CXL_IOA.DONE [28], RO, reset 0. -/
def Fld.MEM_CXL_IOA_DONE : Fld := ⟨.MEM_CXL_IOA, 28, 1, .ro, 0x0⟩
/-- MEM_CXL_IOA.ERR [27:26], RO, reset 0. -/
def Fld.MEM_CXL_IOA_ERR : Fld := ⟨.MEM_CXL_IOA, 26, 2, .ro, 0x0⟩
/-- MEM_CXL_IOA.ADDR [25:0], RW, reset 0. -/
def Fld.MEM_CXL_IOA_ADDR : Fld := ⟨.MEM_CXL_IOA, 0, 26, .rw, 0x0⟩
/-- MEM_CXL_IOD.DATA [31:0], RW, reset 0. -/
def Fld.MEM_CXL_IOD_DATA : Fld := ⟨.MEM_CXL_IOD, 0, 32, .rw, 0x0⟩
/-- MEM_CXL_CNT.SYNTH [31:16], RTC, reset 0. -/
def Fld.MEM_CXL_CNT_SYNTH : Fld := ⟨.MEM_CXL_CNT, 16, 16, .rtc, 0x0⟩
/-- MEM_CXL_CNT.LOST_DIRTY [15:8], RTC, reset 0. -/
def Fld.MEM_CXL_CNT_LOST_DIRTY : Fld := ⟨.MEM_CXL_CNT, 8, 8, .rtc, 0x0⟩
/-- MEM_CXL_CNT.DEV_UR [7:0], RTC, reset 0. -/
def Fld.MEM_CXL_CNT_DEV_UR : Fld := ⟨.MEM_CXL_CNT, 0, 8, .rtc, 0x0⟩
/-- MEM_DDR_CFG.EN [31], RW, reset image. -/
def Fld.MEM_DDR_CFG_EN : Fld := ⟨.MEM_DDR_CFG, 31, 1, .rw, 0x0⟩
/-- MEM_DDR_CFG.SPEED [30:29], RW, reset image. -/
def Fld.MEM_DDR_CFG_SPEED : Fld := ⟨.MEM_DDR_CFG, 29, 2, .rw, 0x0⟩
/-- MEM_DDR_CFG.RDIMM [28], RW, reset image. -/
def Fld.MEM_DDR_CFG_RDIMM : Fld := ⟨.MEM_DDR_CFG, 28, 1, .rw, 0x0⟩
/-- MEM_DDR_CFG.RANKS2 [27], RW, reset image. -/
def Fld.MEM_DDR_CFG_RANKS2 : Fld := ⟨.MEM_DDR_CFG, 27, 1, .rw, 0x0⟩
/-- MEM_DDR_CFG.X8 [26], RW, reset image. -/
def Fld.MEM_DDR_CFG_X8 : Fld := ⟨.MEM_DDR_CFG, 26, 1, .rw, 0x0⟩
/-- MEM_DDR_CFG.DENSITY [25:24], RW, reset image. -/
def Fld.MEM_DDR_CFG_DENSITY : Fld := ⟨.MEM_DDR_CFG, 24, 2, .rw, 0x0⟩
/-- MEM_DDR_CFG.POLICY [23:22], RW, reset image. -/
def Fld.MEM_DDR_CFG_POLICY : Fld := ⟨.MEM_DDR_CFG, 22, 2, .rw, 0x0⟩
/-- MEM_DDR_CFG.REF_SB [21], RW, reset image. -/
def Fld.MEM_DDR_CFG_REF_SB : Fld := ⟨.MEM_DDR_CFG, 21, 1, .rw, 0x0⟩
/-- MEM_DDR_CFG.PASR [15:8], RW, reset 0. -/
def Fld.MEM_DDR_CFG_PASR : Fld := ⟨.MEM_DDR_CFG, 8, 8, .rw, 0x0⟩
/-- MEM_DDR_CFG.PATROL [7:0], RW, reset image. -/
def Fld.MEM_DDR_CFG_PATROL : Fld := ⟨.MEM_DDR_CFG, 0, 8, .rw, 0x0⟩
/-- MEM_DDR_CMD.SR_EXIT [3], W1P, reset 0. -/
def Fld.MEM_DDR_CMD_SR_EXIT : Fld := ⟨.MEM_DDR_CMD, 3, 1, .w1p, 0x0⟩
/-- MEM_DDR_CMD.SR_ENTER [2], W1P, reset 0. -/
def Fld.MEM_DDR_CMD_SR_ENTER : Fld := ⟨.MEM_DDR_CMD, 2, 1, .w1p, 0x0⟩
/-- MEM_DDR_CMD.GO_READY [1], W1P, reset 0. -/
def Fld.MEM_DDR_CMD_GO_READY : Fld := ⟨.MEM_DDR_CMD, 1, 1, .w1p, 0x0⟩
/-- MEM_DDR_CMD.INIT [0], W1P, reset 0. -/
def Fld.MEM_DDR_CMD_INIT : Fld := ⟨.MEM_DDR_CMD, 0, 1, .w1p, 0x0⟩
/-- MEM_DDR_STAT.CMD_IGNORED [31], W1C, reset 0. -/
def Fld.MEM_DDR_STAT_CMD_IGNORED : Fld := ⟨.MEM_DDR_STAT, 31, 1, .w1c, 0x0⟩
/-- MEM_DDR_STAT.GIB [18:8], RO, reset 0. -/
def Fld.MEM_DDR_STAT_GIB : Fld := ⟨.MEM_DDR_STAT, 8, 11, .ro, 0x0⟩
/-- MEM_DDR_STAT.STATE [2:0], RO, reset 0x1. -/
def Fld.MEM_DDR_STAT_STATE : Fld := ⟨.MEM_DDR_STAT, 0, 3, .ro, 0x1⟩
/-- MEM_DDR_MRW.GO [31], W1P, reset 0. -/
def Fld.MEM_DDR_MRW_GO : Fld := ⟨.MEM_DDR_MRW, 31, 1, .w1p, 0x0⟩
/-- MEM_DDR_MRW.BUSY [30], RO, reset 0. -/
def Fld.MEM_DDR_MRW_BUSY : Fld := ⟨.MEM_DDR_MRW, 30, 1, .ro, 0x0⟩
/-- MEM_DDR_MRW.RANK [16], RW, reset 0. -/
def Fld.MEM_DDR_MRW_RANK : Fld := ⟨.MEM_DDR_MRW, 16, 1, .rw, 0x0⟩
/-- MEM_DDR_MRW.ADDR [15:8], RW, reset 0. -/
def Fld.MEM_DDR_MRW_ADDR : Fld := ⟨.MEM_DDR_MRW, 8, 8, .rw, 0x0⟩
/-- MEM_DDR_MRW.DATA [7:0], RW, reset 0. -/
def Fld.MEM_DDR_MRW_DATA : Fld := ⟨.MEM_DDR_MRW, 0, 8, .rw, 0x0⟩
/-- MEM_DDR_DLY_IDX.RANK [8], RW, reset 0. -/
def Fld.MEM_DDR_DLY_IDX_RANK : Fld := ⟨.MEM_DDR_DLY_IDX, 8, 1, .rw, 0x0⟩
/-- MEM_DDR_DLY_IDX.KIND [6:4], RW, reset 0. -/
def Fld.MEM_DDR_DLY_IDX_KIND : Fld := ⟨.MEM_DDR_DLY_IDX, 4, 3, .rw, 0x0⟩
/-- MEM_DDR_DLY_IDX.LANE [3:0], RW, reset 0. -/
def Fld.MEM_DDR_DLY_IDX_LANE : Fld := ⟨.MEM_DDR_DLY_IDX, 0, 4, .rw, 0x0⟩
/-- MEM_DDR_DLY.VALUE [8:0], RW, reset 0x080. -/
def Fld.MEM_DDR_DLY_VALUE : Fld := ⟨.MEM_DDR_DLY, 0, 9, .rw, 0x80⟩
/-- MEM_DDR_PAT.MODE [1:0], RW, reset 0. -/
def Fld.MEM_DDR_PAT_MODE : Fld := ⟨.MEM_DDR_PAT, 0, 2, .rw, 0x0⟩
/-- MEM_DDR_PAT_VAL.VAL [31:0], RW, reset 0. -/
def Fld.MEM_DDR_PAT_VAL_VAL : Fld := ⟨.MEM_DDR_PAT_VAL, 0, 32, .rw, 0x0⟩
/-- MEM_DDR_TRN_CTRL.ABORT [31], W1P, reset 0. -/
def Fld.MEM_DDR_TRN_CTRL_ABORT : Fld := ⟨.MEM_DDR_TRN_CTRL, 31, 1, .w1p, 0x0⟩
/-- MEM_DDR_TRN_CTRL.OP [30:28], W1P, reset 0. -/
def Fld.MEM_DDR_TRN_CTRL_OP : Fld := ⟨.MEM_DDR_TRN_CTRL, 28, 3, .w1p, 0x0⟩
/-- MEM_DDR_TRN_CTRL.RANK [27], RW, reset 0. -/
def Fld.MEM_DDR_TRN_CTRL_RANK : Fld := ⟨.MEM_DDR_TRN_CTRL, 27, 1, .rw, 0x0⟩
/-- MEM_DDR_TRN_CTRL.COUNT [15:0], RW, reset 0. -/
def Fld.MEM_DDR_TRN_CTRL_COUNT : Fld := ⟨.MEM_DDR_TRN_CTRL, 0, 16, .rw, 0x0⟩
/-- MEM_DDR_TRN_STAT.BUSY [31], RO, reset 0. -/
def Fld.MEM_DDR_TRN_STAT_BUSY : Fld := ⟨.MEM_DDR_TRN_STAT, 31, 1, .ro, 0x0⟩
/-- MEM_DDR_TRN_STAT.ABORT_LATE [30], W1C, reset 0. -/
def Fld.MEM_DDR_TRN_STAT_ABORT_LATE : Fld := ⟨.MEM_DDR_TRN_STAT, 30, 1, .w1c, 0x0⟩
/-- MEM_DDR_TRN_STAT.CMD_IGNORED [29], W1C, reset 0. -/
def Fld.MEM_DDR_TRN_STAT_CMD_IGNORED : Fld := ⟨.MEM_DDR_TRN_STAT, 29, 1, .w1c, 0x0⟩
/-- MEM_DDR_TRN_STAT.RESULT [1:0], RO, reset 0. -/
def Fld.MEM_DDR_TRN_STAT_RESULT : Fld := ⟨.MEM_DDR_TRN_STAT, 0, 2, .ro, 0x0⟩
/-- MEM_DDR_TRN_RES.DQ_FAIL [31:24], RO, reset 0. -/
def Fld.MEM_DDR_TRN_RES_DQ_FAIL : Fld := ⟨.MEM_DDR_TRN_RES, 24, 8, .ro, 0x0⟩
/-- MEM_DDR_TRN_RES.ERRORS [15:0], RO, reset 0. -/
def Fld.MEM_DDR_TRN_RES_ERRORS : Fld := ⟨.MEM_DDR_TRN_RES, 0, 16, .ro, 0x0⟩
/-- MEM_DDR_ECC.CE [31:16], RTC, reset 0. -/
def Fld.MEM_DDR_ECC_CE : Fld := ⟨.MEM_DDR_ECC, 16, 16, .rtc, 0x0⟩
/-- MEM_DDR_ECC.UE [15:0], RTC, reset 0. -/
def Fld.MEM_DDR_ECC_UE : Fld := ⟨.MEM_DDR_ECC, 0, 16, .rtc, 0x0⟩
/-- MEM_DDR_ECC_ADDR.VALID [31], W1C, reset 0. -/
def Fld.MEM_DDR_ECC_ADDR_VALID : Fld := ⟨.MEM_DDR_ECC_ADDR, 31, 1, .w1c, 0x0⟩
/-- MEM_DDR_ECC_ADDR.UE [30], RO, reset 0. -/
def Fld.MEM_DDR_ECC_ADDR_UE : Fld := ⟨.MEM_DDR_ECC_ADDR, 30, 1, .ro, 0x0⟩
/-- MEM_DDR_ECC_ADDR.LINE [29:0], RO, reset 0. -/
def Fld.MEM_DDR_ECC_ADDR_LINE : Fld := ⟨.MEM_DDR_ECC_ADDR, 0, 30, .ro, 0x0⟩
/-- MEM_PCI_CTRL.TX_REENABLE [0], W1P, reset 0. -/
def Fld.MEM_PCI_CTRL_TX_REENABLE : Fld := ⟨.MEM_PCI_CTRL, 0, 1, .w1p, 0x0⟩
/-- MEM_PCI_STAT.LINK [31], RO, reset 0. -/
def Fld.MEM_PCI_STAT_LINK : Fld := ⟨.MEM_PCI_STAT, 31, 1, .ro, 0x0⟩
/-- MEM_PCI_STAT.TX_SAFE [30], RO, reset 0. -/
def Fld.MEM_PCI_STAT_TX_SAFE : Fld := ⟨.MEM_PCI_STAT, 30, 1, .ro, 0x0⟩
/-- MEM_PCI_STAT.CMD_IGNORED [29], W1C, reset 0. -/
def Fld.MEM_PCI_STAT_CMD_IGNORED : Fld := ⟨.MEM_PCI_STAT, 29, 1, .w1c, 0x0⟩
/-- MEM_PCI_STAT.WIDTH [28:24], RO, reset 0. -/
def Fld.MEM_PCI_STAT_WIDTH : Fld := ⟨.MEM_PCI_STAT, 24, 5, .ro, 0x0⟩
/-- MEM_PCI_STAT.SPEED [23:21], RO, reset 0. -/
def Fld.MEM_PCI_STAT_SPEED : Fld := ⟨.MEM_PCI_STAT, 21, 3, .ro, 0x0⟩
/-- MEM_PCI_STAT.BAR_ERR [15:0], RTC, reset 0. -/
def Fld.MEM_PCI_STAT_BAR_ERR : Fld := ⟨.MEM_PCI_STAT, 0, 16, .rtc, 0x0⟩
/-- MEM_HR_IDX.RING [11:0], RW, reset 0. -/
def Fld.MEM_HR_IDX_RING : Fld := ⟨.MEM_HR_IDX, 0, 12, .rw, 0x0⟩
/-- MEM_HR_BASE_LO.BASE [31:0], RW, reset 0. -/
def Fld.MEM_HR_BASE_LO_BASE : Fld := ⟨.MEM_HR_BASE_LO, 0, 32, .rw, 0x0⟩
/-- MEM_HR_BASE_HI.BASE [31:0], RW, reset 0. -/
def Fld.MEM_HR_BASE_HI_BASE : Fld := ⟨.MEM_HR_BASE_HI, 0, 32, .rw, 0x0⟩
/-- MEM_HR_CFG.EN [31], RW, reset 0. -/
def Fld.MEM_HR_CFG_EN : Fld := ⟨.MEM_HR_CFG, 31, 1, .rw, 0x0⟩
/-- MEM_HR_CFG.DIR [30], RW, reset 0. -/
def Fld.MEM_HR_CFG_DIR : Fld := ⟨.MEM_HR_CFG, 30, 1, .rw, 0x0⟩
/-- MEM_HR_CFG.LOG2_SIZE [29:26], RW, reset 0. -/
def Fld.MEM_HR_CFG_LOG2_SIZE : Fld := ⟨.MEM_HR_CFG, 26, 4, .rw, 0x0⟩
/-- MEM_HR_CFG.PROFILE [25:22], RW, reset 0. -/
def Fld.MEM_HR_CFG_PROFILE : Fld := ⟨.MEM_HR_CFG, 22, 4, .rw, 0x0⟩
/-- MEM_HR_CFG.VEC [21:11], RW, reset 0. -/
def Fld.MEM_HR_CFG_VEC : Fld := ⟨.MEM_HR_CFG, 11, 11, .rw, 0x0⟩
/-- MEM_HR_CFG.HOLDOFF [10:0], RW, reset 0. -/
def Fld.MEM_HR_CFG_HOLDOFF : Fld := ⟨.MEM_HR_CFG, 0, 11, .rw, 0x0⟩
/-- MEM_HR_PTR.TAIL [31:16], RW, reset 0. -/
def Fld.MEM_HR_PTR_TAIL : Fld := ⟨.MEM_HR_PTR, 16, 16, .rw, 0x0⟩
/-- MEM_HR_PTR.HEAD [15:0], RO, reset 0. -/
def Fld.MEM_HR_PTR_HEAD : Fld := ⟨.MEM_HR_PTR, 0, 16, .ro, 0x0⟩
/-- MEM_HR_STAT.STOPPED [31], RO, reset 0. -/
def Fld.MEM_HR_STAT_STOPPED : Fld := ⟨.MEM_HR_STAT, 31, 1, .ro, 0x0⟩
/-- MEM_HR_STAT.RESUME [30], W1P, reset 0. -/
def Fld.MEM_HR_STAT_RESUME : Fld := ⟨.MEM_HR_STAT, 30, 1, .w1p, 0x0⟩
/-- MEM_HR_STAT.CMD_IGNORED [29], W1C, reset 0. -/
def Fld.MEM_HR_STAT_CMD_IGNORED : Fld := ⟨.MEM_HR_STAT, 29, 1, .w1c, 0x0⟩
/-- MEM_HR_STAT.CAUSE [28:26], RO, reset 0. -/
def Fld.MEM_HR_STAT_CAUSE : Fld := ⟨.MEM_HR_STAT, 26, 3, .ro, 0x0⟩
/-- MEM_HR_STAT.ERRS [15:0], RTC, reset 0. -/
def Fld.MEM_HR_STAT_ERRS : Fld := ⟨.MEM_HR_STAT, 0, 16, .rtc, 0x0⟩
/-- PROT_IDX.ENG [5:4], RW, reset 0. -/
def Fld.PROT_IDX_ENG : Fld := ⟨.PROT_IDX, 4, 2, .rw, 0x0⟩
/-- PROT_IDX.RGN [3:0], RW, reset 0. -/
def Fld.PROT_IDX_RGN : Fld := ⟨.PROT_IDX, 0, 4, .rw, 0x0⟩
/-- PROT_KEY_STAT.FAIL [1], RO, reset 0. -/
def Fld.PROT_KEY_STAT_FAIL : Fld := ⟨.PROT_KEY_STAT, 1, 1, .ro, 0x0⟩
/-- PROT_KEY_STAT.LOADED [0], RO, reset 0. -/
def Fld.PROT_KEY_STAT_LOADED : Fld := ⟨.PROT_KEY_STAT, 0, 1, .ro, 0x0⟩
/-- PROT_DEF.RIGHTS [15:0], RW, reset 0xAAAA. -/
def Fld.PROT_DEF_RIGHTS : Fld := ⟨.PROT_DEF, 0, 16, .rw, 0xAAAA⟩
/-- PROT_RGN_BASE_LO.BASE [31:0], RW, reset 0. -/
def Fld.PROT_RGN_BASE_LO_BASE : Fld := ⟨.PROT_RGN_BASE_LO, 0, 32, .rw, 0x0⟩
/-- PROT_RGN_BASE_HI.BASE [31:0], RW, reset 0. -/
def Fld.PROT_RGN_BASE_HI_BASE : Fld := ⟨.PROT_RGN_BASE_HI, 0, 16, .rw, 0x0⟩
/-- PROT_RGN_CFG.EN [31], RW, reset 0. -/
def Fld.PROT_RGN_CFG_EN : Fld := ⟨.PROT_RGN_CFG, 31, 1, .rw, 0x0⟩
/-- PROT_RGN_CFG.INTEG [30], RW, reset 0. -/
def Fld.PROT_RGN_CFG_INTEG : Fld := ⟨.PROT_RGN_CFG, 30, 1, .rw, 0x0⟩
/-- PROT_RGN_CFG.LOG2_SIZE [5:0], RW, reset 0. -/
def Fld.PROT_RGN_CFG_LOG2_SIZE : Fld := ⟨.PROT_RGN_CFG, 0, 6, .rw, 0x0⟩
/-- PROT_RGN_META_LO.META [31:0], RW, reset 0. -/
def Fld.PROT_RGN_META_LO_META : Fld := ⟨.PROT_RGN_META_LO, 0, 32, .rw, 0x0⟩
/-- PROT_RGN_META_HI.META [31:0], RW, reset 0. -/
def Fld.PROT_RGN_META_HI_META : Fld := ⟨.PROT_RGN_META_HI, 0, 16, .rw, 0x0⟩
/-- PROT_RGN_META_SZ.LEVELS [27:24], RO, reset 0. -/
def Fld.PROT_RGN_META_SZ_LEVELS : Fld := ⟨.PROT_RGN_META_SZ, 24, 4, .ro, 0x0⟩
/-- PROT_RGN_META_SZ.MIB [23:0], RO, reset 0. -/
def Fld.PROT_RGN_META_SZ_MIB : Fld := ⟨.PROT_RGN_META_SZ, 0, 24, .ro, 0x0⟩
/-- PROT_RGN_RIGHTS.RIGHTS [15:0], RW, reset 0. -/
def Fld.PROT_RGN_RIGHTS_RIGHTS : Fld := ⟨.PROT_RGN_RIGHTS, 0, 16, .rw, 0x0⟩
/-- PROT_RGN_CMD.ABORT [1], W1P, reset 0. -/
def Fld.PROT_RGN_CMD_ABORT : Fld := ⟨.PROT_RGN_CMD, 1, 1, .w1p, 0x0⟩
/-- PROT_RGN_CMD.INIT [0], W1P, reset 0. -/
def Fld.PROT_RGN_CMD_INIT : Fld := ⟨.PROT_RGN_CMD, 0, 1, .w1p, 0x0⟩
/-- PROT_RGN_STAT.BUSY [31], RO, reset 0. -/
def Fld.PROT_RGN_STAT_BUSY : Fld := ⟨.PROT_RGN_STAT, 31, 1, .ro, 0x0⟩
/-- PROT_RGN_STAT.ABORT_LATE [30], W1C, reset 0. -/
def Fld.PROT_RGN_STAT_ABORT_LATE : Fld := ⟨.PROT_RGN_STAT, 30, 1, .w1c, 0x0⟩
/-- PROT_RGN_STAT.CMD_IGNORED [29], W1C, reset 0. -/
def Fld.PROT_RGN_STAT_CMD_IGNORED : Fld := ⟨.PROT_RGN_STAT, 29, 1, .w1c, 0x0⟩
/-- PROT_RGN_STAT.RESULT [5:4], RO, reset 0. -/
def Fld.PROT_RGN_STAT_RESULT : Fld := ⟨.PROT_RGN_STAT, 4, 2, .ro, 0x0⟩
/-- PROT_RGN_STAT.STATE [2:0], RO, reset 0. -/
def Fld.PROT_RGN_STAT_STATE : Fld := ⟨.PROT_RGN_STAT, 0, 3, .ro, 0x0⟩
/-- PROT_RGN_PROG.LINES [31:0], RO, reset 0. -/
def Fld.PROT_RGN_PROG_LINES : Fld := ⟨.PROT_RGN_PROG, 0, 32, .ro, 0x0⟩
/-- PROT_CNT.DENIED [31:16], RTC, reset 0. -/
def Fld.PROT_CNT_DENIED : Fld := ⟨.PROT_CNT, 16, 16, .rtc, 0x0⟩
/-- PROT_CNT.INTEG_FAIL [15:0], RTC, reset 0. -/
def Fld.PROT_CNT_INTEG_FAIL : Fld := ⟨.PROT_CNT, 0, 16, .rtc, 0x0⟩
/-- PROT_CNT1.REENC [31:16], RTC, reset 0. -/
def Fld.PROT_CNT1_REENC : Fld := ⟨.PROT_CNT1, 16, 16, .rtc, 0x0⟩
/-- PROT_CNT1.LOCKED_GRP [15:8], RTC, reset 0. -/
def Fld.PROT_CNT1_LOCKED_GRP : Fld := ⟨.PROT_CNT1, 8, 8, .rtc, 0x0⟩
/-- PROT_CNT1.POISON_ENT [6:0], RO, reset 0. -/
def Fld.PROT_CNT1_POISON_ENT : Fld := ⟨.PROT_CNT1, 0, 7, .ro, 0x0⟩
/-- PROT_ERR_LO.ADDR [31:0], RO, reset 0. -/
def Fld.PROT_ERR_LO_ADDR : Fld := ⟨.PROT_ERR_LO, 0, 32, .ro, 0x0⟩
/-- PROT_ERR_HI.VALID [31], W1C, reset 0. -/
def Fld.PROT_ERR_HI_VALID : Fld := ⟨.PROT_ERR_HI, 31, 1, .w1c, 0x0⟩
/-- PROT_ERR_HI.KIND [30:28], RO, reset 0. -/
def Fld.PROT_ERR_HI_KIND : Fld := ⟨.PROT_ERR_HI, 28, 3, .ro, 0x0⟩
/-- PROT_ERR_HI.ICLS [18:16], RO, reset 0. -/
def Fld.PROT_ERR_HI_ICLS : Fld := ⟨.PROT_ERR_HI, 16, 3, .ro, 0x0⟩
/-- PROT_ERR_HI.ADDR [15:0], RO, reset 0. -/
def Fld.PROT_ERR_HI_ADDR : Fld := ⟨.PROT_ERR_HI, 0, 16, .ro, 0x0⟩
/-- ECC_GRP_IDX.GROUP [3:0], RW, reset 0. -/
def Fld.ECC_GRP_IDX_GROUP : Fld := ⟨.ECC_GRP_IDX, 0, 4, .rw, 0x0⟩
/-- ECC_GRP_CNT.CE [31:16], RTC, reset 0. -/
def Fld.ECC_GRP_CNT_CE : Fld := ⟨.ECC_GRP_CNT, 16, 16, .rtc, 0x0⟩
/-- ECC_GRP_CNT.UE [15:0], RTC, reset 0. -/
def Fld.ECC_GRP_CNT_UE : Fld := ⟨.ECC_GRP_CNT, 0, 16, .rtc, 0x0⟩
/-- ECC_GRP_LAP.MAX [31:16], RTC, reset 0. -/
def Fld.ECC_GRP_LAP_MAX : Fld := ⟨.ECC_GRP_LAP, 16, 16, .rtc, 0x0⟩
/-- ECC_GRP_LAP.LAST [15:0], RO, reset 0. -/
def Fld.ECC_GRP_LAP_LAST : Fld := ⟨.ECC_GRP_LAP, 0, 16, .ro, 0x0⟩
/-- ECC_GRP_CTRL.OVERFLOW [31:16], RTC, reset 0. -/
def Fld.ECC_GRP_CTRL_OVERFLOW : Fld := ⟨.ECC_GRP_CTRL, 16, 16, .rtc, 0x0⟩
/-- ECC_GRP_CTRL.SCRUB [0], RW, reset 1. -/
def Fld.ECC_GRP_CTRL_SCRUB : Fld := ⟨.ECC_GRP_CTRL, 0, 1, .rw, 0x1⟩
/-- ECC_LOG_IDX.ENTRY [3:0], RW, reset 0. -/
def Fld.ECC_LOG_IDX_ENTRY : Fld := ⟨.ECC_LOG_IDX, 0, 4, .rw, 0x0⟩
/-- ECC_LOG_ADDR.VALID [31], W1C, reset 0. -/
def Fld.ECC_LOG_ADDR_VALID : Fld := ⟨.ECC_LOG_ADDR, 31, 1, .w1c, 0x0⟩
/-- ECC_LOG_ADDR.UE [30], RO, reset 0. -/
def Fld.ECC_LOG_ADDR_UE : Fld := ⟨.ECC_LOG_ADDR, 30, 1, .ro, 0x0⟩
/-- ECC_LOG_ADDR.ADDR [23:0], RO, reset 0. -/
def Fld.ECC_LOG_ADDR_ADDR : Fld := ⟨.ECC_LOG_ADDR, 0, 24, .ro, 0x0⟩
/-- ECC_LOG_INFO.REPEAT [31:16], RO, reset 0. -/
def Fld.ECC_LOG_INFO_REPEAT : Fld := ⟨.ECC_LOG_INFO, 16, 16, .ro, 0x0⟩
/-- ECC_LOG_INFO.SYND [7:0], RO, reset 0. -/
def Fld.ECC_LOG_INFO_SYND : Fld := ⟨.ECC_LOG_INFO, 0, 8, .ro, 0x0⟩
/-- ECC_TEST_CTRL.EN [31], RW, reset 0. -/
def Fld.ECC_TEST_CTRL_EN : Fld := ⟨.ECC_TEST_CTRL, 31, 1, .rw, 0x0⟩
/-- ECC_TEST_CTRL.MODE [30], RW, reset 0. -/
def Fld.ECC_TEST_CTRL_MODE : Fld := ⟨.ECC_TEST_CTRL, 30, 1, .rw, 0x0⟩
/-- ECC_TEST_CTRL.GROUP [19:16], RW, reset 0. -/
def Fld.ECC_TEST_CTRL_GROUP : Fld := ⟨.ECC_TEST_CTRL, 16, 4, .rw, 0x0⟩
/-- ECC_TEST_CTRL.UNIT [11:0], RW, reset 0. -/
def Fld.ECC_TEST_CTRL_UNIT : Fld := ⟨.ECC_TEST_CTRL, 0, 12, .rw, 0x0⟩
/-- ECC_TEST_CHK.READ_CHK [15:8], RO, reset 0. -/
def Fld.ECC_TEST_CHK_READ_CHK : Fld := ⟨.ECC_TEST_CHK, 8, 8, .ro, 0x0⟩
/-- ECC_TEST_CHK.CHECK [7:0], RW, reset 0. -/
def Fld.ECC_TEST_CHK_CHECK : Fld := ⟨.ECC_TEST_CHK, 0, 8, .rw, 0x0⟩
/-- CLK_CTRL.SEL [23:21], RW, reset 0. -/
def Fld.CLK_CTRL_SEL : Fld := ⟨.CLK_CTRL, 21, 3, .rw, 0x0⟩
/-- CLK_CTRL.XTAL_EN [20], RW, reset 1. -/
def Fld.CLK_CTRL_XTAL_EN : Fld := ⟨.CLK_CTRL, 20, 1, .rw, 0x1⟩
/-- CLK_CTRL.BW [19:18], RW, reset 0. -/
def Fld.CLK_CTRL_BW : Fld := ⟨.CLK_CTRL, 18, 2, .rw, 0x0⟩
/-- CLK_CTRL.AUTO [17], RW, reset 0. -/
def Fld.CLK_CTRL_AUTO : Fld := ⟨.CLK_CTRL, 17, 1, .rw, 0x0⟩
/-- CLK_CTRL.SWITCH [16], W1P, reset 0. -/
def Fld.CLK_CTRL_SWITCH : Fld := ⟨.CLK_CTRL, 16, 1, .w1p, 0x0⟩
/-- CLK_CTRL.PRIOk (k = 0 to 3) [4k+3:4k], RW, reset 0xF. -/
def Fld.CLK_CTRL_PRIO (k : Nat) : Fld := ⟨.CLK_CTRL, 4 * k, 4, .rw, 15⟩
/-- CLK_STATUS.RC_FAULT [10], RO, reset 0. -/
def Fld.CLK_STATUS_RC_FAULT : Fld := ⟨.CLK_STATUS, 10, 1, .ro, 0x0⟩
/-- CLK_STATUS.CMD_IGNORED [9], W1C, reset 0. -/
def Fld.CLK_STATUS_CMD_IGNORED : Fld := ⟨.CLK_STATUS, 9, 1, .w1c, 0x0⟩
/-- CLK_STATUS.FALLBACK [8], W1C, reset 0. -/
def Fld.CLK_STATUS_FALLBACK : Fld := ⟨.CLK_STATUS, 8, 1, .w1c, 0x0⟩
/-- CLK_STATUS.SWITCH_FORCED [7], W1C, reset 0. -/
def Fld.CLK_STATUS_SWITCH_FORCED : Fld := ⟨.CLK_STATUS, 7, 1, .w1c, 0x0⟩
/-- CLK_STATUS.REFUSED [6], W1C, reset 0. -/
def Fld.CLK_STATUS_REFUSED : Fld := ⟨.CLK_STATUS, 6, 1, .w1c, 0x0⟩
/-- CLK_STATUS.LINE_SAFE [5], W1C, reset 0. -/
def Fld.CLK_STATUS_LINE_SAFE : Fld := ⟨.CLK_STATUS, 5, 1, .w1c, 0x0⟩
/-- CLK_STATUS.COAST [4], RO, reset 0. -/
def Fld.CLK_STATUS_COAST : Fld := ⟨.CLK_STATUS, 4, 1, .ro, 0x0⟩
/-- CLK_STATUS.LOCKED [3], RO, reset 0. -/
def Fld.CLK_STATUS_LOCKED : Fld := ⟨.CLK_STATUS, 3, 1, .ro, 0x0⟩
/-- CLK_STATUS.ACTIVE [2:0], RO, reset 0. -/
def Fld.CLK_STATUS_ACTIVE : Fld := ⟨.CLK_STATUS, 0, 3, .ro, 0x0⟩
/-- CLK_SRC_STAT.LOSS [22:16], W1C, reset 0. -/
def Fld.CLK_SRC_STAT_LOSS : Fld := ⟨.CLK_SRC_STAT, 16, 7, .w1c, 0x0⟩
/-- CLK_SRC_STAT.READY [6:0], RO, reset 0. -/
def Fld.CLK_SRC_STAT_READY : Fld := ⟨.CLK_SRC_STAT, 0, 7, .ro, 0x0⟩
/-- CLK_SRC_FREQ.KHZ [23:0], RW; RO for FREQ0, reset 0x00_C350 for FREQ0, else 0. -/
def Fld.CLK_SRC_FREQ_KHZ : Fld := ⟨.CLK_SRC_FREQ, 0, 24, .rw, 0x0⟩
/-- CLK_GATE_IDX.DOMAIN [3:0], RW, reset 0. -/
def Fld.CLK_GATE_IDX_DOMAIN : Fld := ⟨.CLK_GATE_IDX, 0, 4, .rw, 0x0⟩
/-- CLK_GATE.GATED [31], RO, reset 0. -/
def Fld.CLK_GATE_GATED : Fld := ⟨.CLK_GATE, 31, 1, .ro, 0x0⟩
/-- CLK_GATE.DEEP_EN [2], RW, reset 0. -/
def Fld.CLK_GATE_DEEP_EN : Fld := ⟨.CLK_GATE, 2, 1, .rw, 0x0⟩
/-- CLK_GATE.SLEEP_EN [1], RW, reset 0. -/
def Fld.CLK_GATE_SLEEP_EN : Fld := ⟨.CLK_GATE, 1, 1, .rw, 0x0⟩
/-- CLK_GATE.RUN_EN [0], RW, reset 1. -/
def Fld.CLK_GATE_RUN_EN : Fld := ⟨.CLK_GATE, 0, 1, .rw, 0x1⟩
/-- CLK_FPLL_STAT.LOCKED [31], RO, reset 0. -/
def Fld.CLK_FPLL_STAT_LOCKED : Fld := ⟨.CLK_FPLL_STAT, 31, 1, .ro, 0x0⟩
/-- CLK_FPLL_STAT.FOLLOW [30], RO, reset image. -/
def Fld.CLK_FPLL_STAT_FOLLOW : Fld := ⟨.CLK_FPLL_STAT, 30, 1, .ro, 0x0⟩
/-- CLK_FPLL_STAT.UNLOCKS [15:0], RTC, reset 0. -/
def Fld.CLK_FPLL_STAT_UNLOCKS : Fld := ⟨.CLK_FPLL_STAT, 0, 16, .rtc, 0x0⟩
/-- CLK_CPLL_STAT.LOCKED [31], RO, reset 0. -/
def Fld.CLK_CPLL_STAT_LOCKED : Fld := ⟨.CLK_CPLL_STAT, 31, 1, .ro, 0x0⟩
/-- CLK_CPLL_STAT.FOLLOW [30], RO, reset image. -/
def Fld.CLK_CPLL_STAT_FOLLOW : Fld := ⟨.CLK_CPLL_STAT, 30, 1, .ro, 0x0⟩
/-- CLK_CPLL_STAT.UNLOCKS [15:0], RTC, reset 0. -/
def Fld.CLK_CPLL_STAT_UNLOCKS : Fld := ⟨.CLK_CPLL_STAT, 0, 16, .rtc, 0x0⟩
/-- PWR_PL_NEXT.STATE [3:2], RW, reset 0. -/
def Fld.PWR_PL_NEXT_STATE : Fld := ⟨.PWR_PL_NEXT, 2, 2, .rw, 0x0⟩
/-- PWR_PL_NEXT.LEVEL [1:0], RW, reset 0x1. -/
def Fld.PWR_PL_NEXT_LEVEL : Fld := ⟨.PWR_PL_NEXT, 0, 2, .rw, 0x1⟩
/-- PWR_PL_STAT.VREQ [19:8], RO, reset 0x2EE on fabric dies, 0 on port dies. -/
def Fld.PWR_PL_STAT_VREQ : Fld := ⟨.PWR_PL_STAT, 8, 12, .ro, 0x0⟩
/-- PWR_PL_STAT.AVS_ERR [7], W1C, reset 0. -/
def Fld.PWR_PL_STAT_AVS_ERR : Fld := ⟨.PWR_PL_STAT, 7, 1, .w1c, 0x0⟩
/-- PWR_PL_STAT.NEIGHBOUR [6], W1C, reset 0. -/
def Fld.PWR_PL_STAT_NEIGHBOUR : Fld := ⟨.PWR_PL_STAT, 6, 1, .w1c, 0x0⟩
/-- PWR_PL_STAT.SEQ [5], RO, reset 0. -/
def Fld.PWR_PL_STAT_SEQ : Fld := ⟨.PWR_PL_STAT, 5, 1, .ro, 0x0⟩
/-- PWR_PL_STAT.STATE [3:2], RO, reset 0. -/
def Fld.PWR_PL_STAT_STATE : Fld := ⟨.PWR_PL_STAT, 2, 2, .ro, 0x0⟩
/-- PWR_PL_STAT.LEVEL [1:0], RO, reset 0x1 on fabric dies, 0 on port dies. -/
def Fld.PWR_PL_STAT_LEVEL : Fld := ⟨.PWR_PL_STAT, 0, 2, .ro, 0x0⟩
/-- PWR_RAIL_IDX.RAIL [4:0], RW, reset 0. -/
def Fld.PWR_RAIL_IDX_RAIL : Fld := ⟨.PWR_RAIL_IDX, 0, 5, .rw, 0x0⟩
/-- PWR_RAIL_STAT.GOOD [31], RO, reset 0. -/
def Fld.PWR_RAIL_STAT_GOOD : Fld := ⟨.PWR_RAIL_STAT, 31, 1, .ro, 0x0⟩
/-- PWR_RAIL_STAT.WARN [30], RO, reset 0. -/
def Fld.PWR_RAIL_STAT_WARN : Fld := ⟨.PWR_RAIL_STAT, 30, 1, .ro, 0x0⟩
/-- PWR_RAIL_STAT.NOM [27:16], RO, reset —. -/
def Fld.PWR_RAIL_STAT_NOM : Fld := ⟨.PWR_RAIL_STAT, 16, 12, .ro, 0x0⟩
/-- PWR_RAIL_STAT.MV [11:0], RO, reset 0. -/
def Fld.PWR_RAIL_STAT_MV : Fld := ⟨.PWR_RAIL_STAT, 0, 12, .ro, 0x0⟩
/-- PWR_RAIL_DIP.DIPS [31:16], RTC, reset 0. -/
def Fld.PWR_RAIL_DIP_DIPS : Fld := ⟨.PWR_RAIL_DIP, 16, 16, .rtc, 0x0⟩
/-- PWR_RAIL_DIP.MIN [11:0], RO, reset 0xFFF. -/
def Fld.PWR_RAIL_DIP_MIN : Fld := ⟨.PWR_RAIL_DIP, 0, 12, .ro, 0xFFF⟩
/-- PWR_TEMP_IDX.SENSOR [2:0], RW, reset 0. -/
def Fld.PWR_TEMP_IDX_SENSOR : Fld := ⟨.PWR_TEMP_IDX, 0, 3, .rw, 0x0⟩
/-- PWR_TEMP.HIGHEST [31:16], RO, reset 0. -/
def Fld.PWR_TEMP_HIGHEST : Fld := ⟨.PWR_TEMP, 16, 16, .ro, 0x0⟩
/-- PWR_TEMP.READING [15:0], RO, reset 0. -/
def Fld.PWR_TEMP_READING : Fld := ⟨.PWR_TEMP, 0, 16, .ro, 0x0⟩
/-- PWR_TEMP_CFG.HOT [7:0], RW, reset 0x6E. -/
def Fld.PWR_TEMP_CFG_HOT : Fld := ⟨.PWR_TEMP_CFG, 0, 8, .rw, 0x6E⟩
/-- PWR_PMB_CMD.GO [31], W1P, reset 0. -/
def Fld.PWR_PMB_CMD_GO : Fld := ⟨.PWR_PMB_CMD, 31, 1, .w1p, 0x0⟩
/-- PWR_PMB_CMD.BUSY [30], RO, reset 0. -/
def Fld.PWR_PMB_CMD_BUSY : Fld := ⟨.PWR_PMB_CMD, 30, 1, .ro, 0x0⟩
/-- PWR_PMB_CMD.WRITE [29], RW, reset 0. -/
def Fld.PWR_PMB_CMD_WRITE : Fld := ⟨.PWR_PMB_CMD, 29, 1, .rw, 0x0⟩
/-- PWR_PMB_CMD.WORD [28], RW, reset 0. -/
def Fld.PWR_PMB_CMD_WORD : Fld := ⟨.PWR_PMB_CMD, 28, 1, .rw, 0x0⟩
/-- PWR_PMB_CMD.ERR [27:26], RO, reset 0. -/
def Fld.PWR_PMB_CMD_ERR : Fld := ⟨.PWR_PMB_CMD, 26, 2, .ro, 0x0⟩
/-- PWR_PMB_CMD.ADDR [22:16], RW, reset 0. -/
def Fld.PWR_PMB_CMD_ADDR : Fld := ⟨.PWR_PMB_CMD, 16, 7, .rw, 0x0⟩
/-- PWR_PMB_CMD.CODE [15:8], RW, reset 0. -/
def Fld.PWR_PMB_CMD_CODE : Fld := ⟨.PWR_PMB_CMD, 8, 8, .rw, 0x0⟩
/-- PWR_PMB_DATA.DATA [15:0], RW, reset 0. -/
def Fld.PWR_PMB_DATA_DATA : Fld := ⟨.PWR_PMB_DATA, 0, 16, .rw, 0x0⟩
/-- EVT_IDX.LOCAL [8:0], RW, reset 0. -/
def Fld.EVT_IDX_LOCAL : Fld := ⟨.EVT_IDX, 0, 9, .rw, 0x0⟩
/-- EVT_ROUTE.BOOK_MATCH [31], RW, reset 0. -/
def Fld.EVT_ROUTE_BOOK_MATCH : Fld := ⟨.EVT_ROUTE, 31, 1, .rw, 0x0⟩
/-- EVT_ROUTE.VEC [26:16], RW, reset 0. -/
def Fld.EVT_ROUTE_VEC : Fld := ⟨.EVT_ROUTE, 16, 11, .rw, 0x0⟩
/-- EVT_ROUTE.TDIE [14:12], RW, reset 0. -/
def Fld.EVT_ROUTE_TDIE : Fld := ⟨.EVT_ROUTE, 12, 3, .rw, 0x0⟩
/-- EVT_ROUTE.CORES [11:4], RW, reset 0. -/
def Fld.EVT_ROUTE_CORES : Fld := ⟨.EVT_ROUTE, 4, 8, .rw, 0x0⟩
/-- EVT_ROUTE.FPORT [3], RW, reset 0. -/
def Fld.EVT_ROUTE_FPORT : Fld := ⟨.EVT_ROUTE, 3, 1, .rw, 0x0⟩
/-- EVT_ROUTE.MSIX [2], RW, reset 0. -/
def Fld.EVT_ROUTE_MSIX : Fld := ⟨.EVT_ROUTE, 2, 1, .rw, 0x0⟩
/-- EVT_ROUTE.ATTN [1], RW, reset 1 for local 0 to 63, else 0. -/
def Fld.EVT_ROUTE_ATTN : Fld := ⟨.EVT_ROUTE, 1, 1, .rw, 0x0⟩
/-- EVT_ROUTE.BOOK [0], RW, reset 1 for local 0 to 63, else 0. -/
def Fld.EVT_ROUTE_BOOK : Fld := ⟨.EVT_ROUTE, 0, 1, .rw, 0x0⟩
/-- EVT_CNT.COUNT [15:0], RTC, reset 0. -/
def Fld.EVT_CNT_COUNT : Fld := ⟨.EVT_CNT, 0, 16, .rtc, 0x0⟩
/-- EVT_LAST_LO.DATA [31:0], RO, reset 0. -/
def Fld.EVT_LAST_LO_DATA : Fld := ⟨.EVT_LAST_LO, 0, 32, .ro, 0x0⟩
/-- EVT_LAST_HI.DATA [31:0], RO, reset 0. -/
def Fld.EVT_LAST_HI_DATA : Fld := ⟨.EVT_LAST_HI, 0, 32, .ro, 0x0⟩
/-- EVT_PEND.PEND [31:0], W1C, reset 0. -/
def Fld.EVT_PEND_PEND : Fld := ⟨.EVT_PEND, 0, 32, .w1c, 0x0⟩
/-- EVT_FP_CTRL.DROP [31:16], RTC, reset 0. -/
def Fld.EVT_FP_CTRL_DROP : Fld := ⟨.EVT_FP_CTRL, 16, 16, .rtc, 0x0⟩
/-- EVT_FP_CTRL.MASK [15:0], RW, reset 0. -/
def Fld.EVT_FP_CTRL_MASK : Fld := ⟨.EVT_FP_CTRL, 0, 16, .rw, 0x0⟩
/-- PMC_IDX.CTR [5:0], RW, reset 0. -/
def Fld.PMC_IDX_CTR : Fld := ⟨.PMC_IDX, 0, 6, .rw, 0x0⟩
/-- PMC_SEL.EN [31], RW, reset 0. -/
def Fld.PMC_SEL_EN : Fld := ⟨.PMC_SEL, 31, 1, .rw, 0x0⟩
/-- PMC_SEL.MODE [30], RW, reset 0. -/
def Fld.PMC_SEL_MODE : Fld := ⟨.PMC_SEL, 30, 1, .rw, 0x0⟩
/-- PMC_SEL.CHAIN [29], RW, reset 0. -/
def Fld.PMC_SEL_CHAIN : Fld := ⟨.PMC_SEL, 29, 1, .rw, 0x0⟩
/-- PMC_SEL.SRC [27:16], RW, reset 0. -/
def Fld.PMC_SEL_SRC : Fld := ⟨.PMC_SEL, 16, 12, .rw, 0x0⟩
/-- PMC_SEL.INST [15:0], RW, reset 0. -/
def Fld.PMC_SEL_INST : Fld := ⟨.PMC_SEL, 0, 16, .rw, 0x0⟩
/-- PMC_THRESH.THRESH [31:0], RW, reset 0. -/
def Fld.PMC_THRESH_THRESH : Fld := ⟨.PMC_THRESH, 0, 32, .rw, 0x0⟩
/-- PMC_CNT_LO.COUNT [31:0], RW, reset 0. -/
def Fld.PMC_CNT_LO_COUNT : Fld := ⟨.PMC_CNT_LO, 0, 32, .rw, 0x0⟩
/-- PMC_CNT_HI.COUNT [31:0], RW, reset 0. -/
def Fld.PMC_CNT_HI_COUNT : Fld := ⟨.PMC_CNT_HI, 0, 32, .rw, 0x0⟩
/-- PMC_CTRL.CLEAR [1], W1P, reset 0. -/
def Fld.PMC_CTRL_CLEAR : Fld := ⟨.PMC_CTRL, 1, 1, .w1p, 0x0⟩
/-- PMC_CTRL.FREEZE [0], RW, reset 0. -/
def Fld.PMC_CTRL_FREEZE : Fld := ⟨.PMC_CTRL, 0, 1, .rw, 0x0⟩
/-- PMC_OVF0.OVF [31:0], W1C, reset 0. -/
def Fld.PMC_OVF0_OVF : Fld := ⟨.PMC_OVF0, 0, 32, .w1c, 0x0⟩
/-- PMC_OVF1.OVF [31:0], W1C, reset 0. -/
def Fld.PMC_OVF1_OVF : Fld := ⟨.PMC_OVF1, 0, 32, .w1c, 0x0⟩
/-- PMC_BW_IDX.MON [4:0], RW, reset 0. -/
def Fld.PMC_BW_IDX_MON : Fld := ⟨.PMC_BW_IDX, 0, 5, .rw, 0x0⟩
/-- PMC_BW_CFG.EN [31], RW, reset 0. -/
def Fld.PMC_BW_CFG_EN : Fld := ⟨.PMC_BW_CFG, 31, 1, .rw, 0x0⟩
/-- PMC_BW_CFG.EVT [30], RW, reset 0. -/
def Fld.PMC_BW_CFG_EVT : Fld := ⟨.PMC_BW_CFG, 30, 1, .rw, 0x0⟩
/-- PMC_BW_CFG.SEQ [29:16], RO, reset 0. -/
def Fld.PMC_BW_CFG_SEQ : Fld := ⟨.PMC_BW_CFG, 16, 14, .ro, 0x0⟩
/-- PMC_BW_CFG.WINDOW [15:0], RW, reset 0x007D. -/
def Fld.PMC_BW_CFG_WINDOW : Fld := ⟨.PMC_BW_CFG, 0, 16, .rw, 0x7D⟩
/-- PMC_BW_SRC.KIND [18:16], RW, reset 0. -/
def Fld.PMC_BW_SRC_KIND : Fld := ⟨.PMC_BW_SRC, 16, 3, .rw, 0x0⟩
/-- PMC_BW_SRC.INST [15:0], RW, reset 0. -/
def Fld.PMC_BW_SRC_INST : Fld := ⟨.PMC_BW_SRC, 0, 16, .rw, 0x0⟩
/-- PMC_BW_BYTES_LO.BYTES [31:0], RO, reset 0. -/
def Fld.PMC_BW_BYTES_LO_BYTES : Fld := ⟨.PMC_BW_BYTES_LO, 0, 32, .ro, 0x0⟩
/-- PMC_BW_BYTES_HI.BYTES [31:0], RO, reset 0. -/
def Fld.PMC_BW_BYTES_HI_BYTES : Fld := ⟨.PMC_BW_BYTES_HI, 0, 16, .ro, 0x0⟩
/-- PMC_BW_COUNT.COUNT [31:0], RO, reset 0. -/
def Fld.PMC_BW_COUNT_COUNT : Fld := ⟨.PMC_BW_COUNT, 0, 32, .ro, 0x0⟩
/-- REC_SEQ_OLD.SEQ [31:0], RO, reset —. -/
def Fld.REC_SEQ_OLD_SEQ : Fld := ⟨.REC_SEQ_OLD, 0, 32, .ro, 0x0⟩
/-- REC_SEQ_NEW.SEQ [31:0], RO, reset —. -/
def Fld.REC_SEQ_NEW_SEQ : Fld := ⟨.REC_SEQ_NEW, 0, 32, .ro, 0x0⟩
/-- REC_STAT.MOUNTED [31], RO, reset 0. -/
def Fld.REC_STAT_MOUNTED : Fld := ⟨.REC_STAT, 31, 1, .ro, 0x0⟩
/-- REC_STAT.NOFLASH [30], RO, reset 0. -/
def Fld.REC_STAT_NOFLASH : Fld := ⟨.REC_STAT, 30, 1, .ro, 0x0⟩
/-- REC_STAT.FL_STOP [29], RO, reset 0. -/
def Fld.REC_STAT_FL_STOP : Fld := ⟨.REC_STAT, 29, 1, .ro, 0x0⟩
/-- REC_STAT.FL_ERR [28], W1C, reset 0. -/
def Fld.REC_STAT_FL_ERR : Fld := ⟨.REC_STAT, 28, 1, .w1c, 0x0⟩
/-- REC_STAT.LOST [15:0], RTC, reset 0. -/
def Fld.REC_STAT_LOST : Fld := ⟨.REC_STAT, 0, 16, .rtc, 0x0⟩
/-- REC_OPSEC.SEC [31:0], RO, reset —. -/
def Fld.REC_OPSEC_SEC : Fld := ⟨.REC_OPSEC, 0, 32, .ro, 0x0⟩
/-- REC_PCYCLE.COUNT [23:0], RO, reset —. -/
def Fld.REC_PCYCLE_COUNT : Fld := ⟨.REC_PCYCLE, 0, 24, .ro, 0x0⟩
/-- REC_NOTE_LO.DATA [31:0], RW, reset 0. -/
def Fld.REC_NOTE_LO_DATA : Fld := ⟨.REC_NOTE_LO, 0, 32, .rw, 0x0⟩
/-- REC_NOTE_HI.DATA [31:0], RW, reset 0. -/
def Fld.REC_NOTE_HI_DATA : Fld := ⟨.REC_NOTE_HI, 0, 32, .rw, 0x0⟩
/-- REC_NOTE_GO.GO [31], W1P, reset 0. -/
def Fld.REC_NOTE_GO_GO : Fld := ⟨.REC_NOTE_GO, 31, 1, .w1p, 0x0⟩
/-- REC_NOTE_GO.CODE [11:0], RW, reset 0. -/
def Fld.REC_NOTE_GO_CODE : Fld := ⟨.REC_NOTE_GO, 0, 12, .rw, 0x0⟩
/-- REC_FL_CFG.SR_DUMMY [31:24], RW, reset 0x08. -/
def Fld.REC_FL_CFG_SR_DUMMY : Fld := ⟨.REC_FL_CFG, 24, 8, .rw, 0x8⟩
/-- REC_FL_CFG.RDSR [23:16], RW, reset 0x05. -/
def Fld.REC_FL_CFG_RDSR : Fld := ⟨.REC_FL_CFG, 16, 8, .rw, 0x5⟩
/-- REC_FL_CFG.ERASE [15:8], RW, reset 0xDC. -/
def Fld.REC_FL_CFG_ERASE : Fld := ⟨.REC_FL_CFG, 8, 8, .rw, 0xDC⟩
/-- REC_FL_CFG.PROG [7:0], RW, reset 0x12. -/
def Fld.REC_FL_CFG_PROG : Fld := ⟨.REC_FL_CFG, 0, 8, .rw, 0x12⟩
/-- REC_FL_SLOT.GO [31], W1P, reset 0. -/
def Fld.REC_FL_SLOT_GO : Fld := ⟨.REC_FL_SLOT, 31, 1, .w1p, 0x0⟩
/-- REC_FL_SLOT.BUSY [30], RO, reset 0. -/
def Fld.REC_FL_SLOT_BUSY : Fld := ⟨.REC_FL_SLOT, 30, 1, .ro, 0x0⟩
/-- REC_FL_SLOT.SLOT [16:0], RW, reset 0. -/
def Fld.REC_FL_SLOT_SLOT : Fld := ⟨.REC_FL_SLOT, 0, 17, .rw, 0x0⟩
/-- REC_FL_DATA.WORD [31:0], RO, reset 0. -/
def Fld.REC_FL_DATA_WORD : Fld := ⟨.REC_FL_DATA, 0, 32, .ro, 0x0⟩
/-- MGT_CMD.KEY [31:24], W1P, reset 0. -/
def Fld.MGT_CMD_KEY : Fld := ⟨.MGT_CMD, 24, 8, .w1p, 0x0⟩
/-- MGT_CMD.OP [1:0], W1P, reset 0. -/
def Fld.MGT_CMD_OP : Fld := ⟨.MGT_CMD, 0, 2, .w1p, 0x0⟩
/-- MGT_STAT.CAL_BUSY [31], RO, reset 0. -/
def Fld.MGT_STAT_CAL_BUSY : Fld := ⟨.MGT_STAT, 31, 1, .ro, 0x0⟩
/-- MGT_STAT.CMD_IGNORED [30], W1C, reset 0. -/
def Fld.MGT_STAT_CMD_IGNORED : Fld := ⟨.MGT_STAT, 30, 1, .w1c, 0x0⟩
/-- MGT_STAT.RESULT [29:28], RO, reset 0. -/
def Fld.MGT_STAT_RESULT : Fld := ⟨.MGT_STAT, 28, 2, .ro, 0x0⟩
/-- MGT_STAT.FRAME_ERR [15:8], RTC, reset 0. -/
def Fld.MGT_STAT_FRAME_ERR : Fld := ⟨.MGT_STAT, 8, 8, .rtc, 0x0⟩
/-- MGT_STAT.DROPPED [7:0], RTC, reset 0. -/
def Fld.MGT_STAT_DROPPED : Fld := ⟨.MGT_STAT, 0, 8, .rtc, 0x0⟩
/-- MGT_CAL_ADDR_LO.ADDR [31:0], RW, reset 0. -/
def Fld.MGT_CAL_ADDR_LO_ADDR : Fld := ⟨.MGT_CAL_ADDR_LO, 0, 32, .rw, 0x0⟩
/-- MGT_CAL_ADDR_HI.ADDR [31:0], RW, reset 0. -/
def Fld.MGT_CAL_ADDR_HI_ADDR : Fld := ⟨.MGT_CAL_ADDR_HI, 0, 16, .rw, 0x0⟩
/-- MGT_CAL_LEN.PAIRS [13:0], RW, reset 0. -/
def Fld.MGT_CAL_LEN_PAIRS : Fld := ⟨.MGT_CAL_LEN, 0, 14, .rw, 0x0⟩
/-- MGT_CAL_STAT.ACTIVE [31], RO, reset —. -/
def Fld.MGT_CAL_STAT_ACTIVE : Fld := ⟨.MGT_CAL_STAT, 31, 1, .ro, 0x0⟩
/-- MGT_CAL_STAT.NEXT [30], RO, reset —. -/
def Fld.MGT_CAL_STAT_NEXT : Fld := ⟨.MGT_CAL_STAT, 30, 1, .ro, 0x0⟩
/-- MGT_CAL_STAT.NOFLASH [29], RO, reset 0. -/
def Fld.MGT_CAL_STAT_NOFLASH : Fld := ⟨.MGT_CAL_STAT, 29, 1, .ro, 0x0⟩
/-- MGT_CAL_STAT.APPLY_ERR [28:16], RO, reset 0. -/
def Fld.MGT_CAL_STAT_APPLY_ERR : Fld := ⟨.MGT_CAL_STAT, 16, 13, .ro, 0x0⟩
/-- MGT_CAL_STAT.GEN [15:0], RO, reset 0. -/
def Fld.MGT_CAL_STAT_GEN : Fld := ⟨.MGT_CAL_STAT, 0, 16, .ro, 0x0⟩
/-- MGT_ATTN.LOW [1], RO, reset 0. -/
def Fld.MGT_ATTN_LOW : Fld := ⟨.MGT_ATTN, 1, 1, .ro, 0x0⟩
/-- MGT_ATTN.FORCE [0], RW, reset 0. -/
def Fld.MGT_ATTN_FORCE : Fld := ⟨.MGT_ATTN, 0, 1, .rw, 0x0⟩

/-- The fields of a register; bits that no field names are RSV (R12). -/
def Reg.fields : Reg → List Fld
  | .DIE_ID => [.DIE_ID_FAMILY, .DIE_ID_KIND, .DIE_ID_PKG, .DIE_ID_INDEX]
  | .DIE_STEP => [.DIE_STEP_STEP]
  | .DIE_UID_LO => [.DIE_UID_LO_UID]
  | .DIE_UID_HI => [.DIE_UID_HI_UID]
  | .DIE_SLOT_STEP => [.DIE_SLOT_STEP_SLOT 0, .DIE_SLOT_STEP_SLOT 1, .DIE_SLOT_STEP_SLOT 2, .DIE_SLOT_STEP_SLOT 3, .DIE_SLOT_STEP_SLOT 4, .DIE_SLOT_STEP_SLOT 5, .DIE_SLOT_STEP_SLOT 6, .DIE_SLOT_STEP_SLOT 7]
  | .DIE_RESET_REQ => [.DIE_RESET_REQ_KEY, .DIE_RESET_REQ_DIE]
  | .DIE_STATE => [.DIE_STATE_IGNORED, .DIE_STATE_ST 0, .DIE_STATE_ST 1, .DIE_STATE_ST 2, .DIE_STATE_ST 3, .DIE_STATE_ST 4, .DIE_STATE_ST 5, .DIE_STATE_ST 6, .DIE_STATE_ST 7]
  | .DIE_RST_CAUSE => [.DIE_RST_CAUSE_CLOCK, .DIE_RST_CAUSE_DBG, .DIE_RST_CAUSE_WDOG, .DIE_RST_CAUSE_SUPPLY, .DIE_RST_CAUSE_REQ, .DIE_RST_CAUSE_PKG, .DIE_RST_CAUSE_PWRUP]
  | .STK_CTRL => [.STK_CTRL_PTP_LOCK]
  | .STK_TIMING => [.STK_TIMING_HEAT, .STK_TIMING_PERIOD]
  | .STK_TIMING_NEXT => [.STK_TIMING_NEXT_HEAT, .STK_TIMING_NEXT_PERIOD]
  | .STK_STATUS => [.STK_STATUS_NEXT_REFUSED, .STK_STATUS_LOCK_REFUSED, .STK_STATUS_UNTIMED, .STK_STATUS_LOCKED, .STK_STATUS_ALIGNED]
  | .STK_STROKE_NUM => [.STK_STROKE_NUM_NUM]
  | .STK_HEAT_NUM => [.STK_HEAT_NUM_NUM]
  | .STK_LOCK_ERR => [.STK_LOCK_ERR_ERR]
  | .STK_UNIT_CTRL => [.STK_UNIT_CTRL_ARM]
  | .STK_UNIT_STAT => [.STK_UNIT_STAT_APPLIED, .STK_UNIT_STAT_RDY]
  | .STK_OVR => [.STK_OVR_COUNT, .STK_OVR_VALID, .STK_OVR_UNIT]
  | .STK_CHG_CTRL => [.STK_CHG_CTRL_RETRY_LIMIT, .STK_CHG_CTRL_CANCEL, .STK_CHG_CTRL_GO]
  | .STK_CHG_STATUS => [.STK_CHG_STATUS_RETRIES, .STK_CHG_STATUS_GO_IGNORED, .STK_CHG_STATUS_ABORT_LATE, .STK_CHG_STATUS_COMMIT_WITHHELD, .STK_CHG_STATUS_RESULT, .STK_CHG_STATUS_STATE]
  | .STK_CHG_REQ => [.STK_CHG_REQ_UNITS]
  | .STK_CHG_ARMED => [.STK_CHG_ARMED_UNITS]
  | .STK_SPLIT => [.STK_SPLIT_UNITS]
  | .CFG_RAIL_CONT => [.CFG_RAIL_CONT_VALID, .CFG_RAIL_CONT_PROW, .CFG_RAIL_CONT_LCOL, .CFG_RAIL_CONT_RAIL]
  | .CFG_RAIL_COUNT => [.CFG_RAIL_COUNT_COUNT]
  | .CFG_RAIL_IDX => [.CFG_RAIL_IDX_GROUP]
  | .CFG_RAIL_DATA => [.CFG_RAIL_DATA_FLAG]
  | .CFG_RAIL_CLR => [.CFG_RAIL_CLR_ALL]
  | .NOC_RTR_IDX => [.NOC_RTR_IDX_NET, .NOC_RTR_IDX_ROW, .NOC_RTR_IDX_COL]
  | .NOC_RTR_CTRL => [.NOC_RTR_CTRL_WGT_B, .NOC_RTR_CTRL_WGT_N, .NOC_RTR_CTRL_WGT_H]
  | .NOC_RTR_FLITS => [.NOC_RTR_FLITS_COUNT]
  | .NOC_RTR_ERR => [.NOC_RTR_ERR_VALID, .NOC_RTR_ERR_PORT, .NOC_RTR_ERR_COUNT]
  | .NOC_EP_IDX => [.NOC_EP_IDX_ROW, .NOC_EP_IDX_COL, .NOC_EP_IDX_EP]
  | .NOC_TMO_X => [.NOC_TMO_X_LIMIT]
  | .NOC_TMO_H => [.NOC_TMO_H_LIMIT]
  | .NOC_TMO_N => [.NOC_TMO_N_LIMIT]
  | .NOC_TMO_B => [.NOC_TMO_B_LIMIT]
  | .NOC_EP_STAT => [.NOC_EP_STAT_INIT, .NOC_EP_STAT_TGT, .NOC_EP_STAT_STALE, .NOC_EP_STAT_OUTST]
  | .NOC_EP_CNT0 => [.NOC_EP_CNT0_LATE, .NOC_EP_CNT0_TIMEOUTS]
  | .NOC_EP_CNT1 => [.NOC_EP_CNT1_X_HELD, .NOC_EP_CNT1_X_LATE]
  | .NOC_FENCE_CFG => [.NOC_FENCE_CFG_DRAIN_LIMIT]
  | .NOC_FENCE_STAT => [.NOC_FENCE_STAT_P 0, .NOC_FENCE_STAT_P 1, .NOC_FENCE_STAT_P 2, .NOC_FENCE_STAT_P 3, .NOC_FENCE_STAT_P 4, .NOC_FENCE_STAT_P 5, .NOC_FENCE_STAT_P 6, .NOC_FENCE_STAT_P 7, .NOC_FENCE_STAT_P 8, .NOC_FENCE_STAT_P 9, .NOC_FENCE_STAT_P 10, .NOC_FENCE_STAT_P 11, .NOC_FENCE_STAT_P 12, .NOC_FENCE_STAT_P 13, .NOC_FENCE_STAT_P 14, .NOC_FENCE_STAT_P 15]
  | .NOC_DFENCE_STAT => [.NOC_DFENCE_STAT_D 0, .NOC_DFENCE_STAT_D 1, .NOC_DFENCE_STAT_D 2, .NOC_DFENCE_STAT_D 3, .NOC_DFENCE_STAT_D 4, .NOC_DFENCE_STAT_D 5, .NOC_DFENCE_STAT_D 6, .NOC_DFENCE_STAT_D 7]
  | .NOC_FENCE_CNT => [.NOC_FENCE_CNT_DISCARDED, .NOC_FENCE_CNT_SYNTH]
  | .NOC_DC_CMD => [.NOC_DC_CMD_BUSY, .NOC_DC_CMD_FLUSH]
  | .NOC_DC_STAT => [.NOC_DC_STAT_DIRTY]
  | .NOC_DIR_CNT => [.NOC_DIR_CNT_BACKINV, .NOC_DIR_CNT_POISONED]
  | .NOC_XRES_IDX => [.NOC_XRES_IDX_ENTRY]
  | .NOC_XRES_LO => [.NOC_XRES_LO_TGT, .NOC_XRES_LO_INIT]
  | .NOC_XRES_HI => [.NOC_XRES_HI_VALID, .NOC_XRES_HI_AT, .NOC_XRES_HI_WR, .NOC_XRES_HI_RD]
  | .NOC_XRES_STAT => [.NOC_XRES_STAT_MAXLOAD, .NOC_XRES_STAT_PERIOD_REFUSED, .NOC_XRES_STAT_RESULT]
  | .NOC_XRES_LINK => [.NOC_XRES_LINK_WELD, .NOC_XRES_LINK_CHANNEL, .NOC_XRES_LINK_DIR, .NOC_XRES_LINK_DIE, .NOC_XRES_LINK_ROW, .NOC_XRES_LINK_COL, .NOC_XRES_LINK_PORT, .NOC_XRES_LINK_NET]
  | .WLD_CH_IDX => [.WLD_CH_IDX_CH]
  | .WLD_CH_STAT => [.WLD_CH_STAT_CMD_IGNORED, .WLD_CH_STAT_OTP_FULL, .WLD_CH_STAT_RECORDS, .WLD_CH_STAT_SPARES, .WLD_CH_STAT_STATE]
  | .WLD_CH_VER => [.WLD_CH_VER_PEER_STEP, .WLD_CH_VER_VER]
  | .WLD_CH_CMD => [.WLD_CH_CMD_KEY, .WLD_CH_CMD_COMMIT_MAP, .WLD_CH_CMD_REMAP, .WLD_CH_CMD_RETRAIN]
  | .WLD_CH_ERR => [.WLD_CH_ERR_CRC_ERR, .WLD_CH_ERR_RETRAINS, .WLD_CH_ERR_REPLAYS]
  | .WLD_CH_REPAIR => [.WLD_CH_REPAIR_ENTRY 0, .WLD_CH_REPAIR_ENTRY 1, .WLD_CH_REPAIR_ENTRY 2, .WLD_CH_REPAIR_ENTRY 3]
  | .WLD_ERR_CFG => [.WLD_ERR_CFG_THRESH, .WLD_ERR_CFG_WINDOW]
  | .WLD_SEAM_IDX => [.WLD_SEAM_IDX_EDGE, .WLD_SEAM_IDX_GROUP]
  | .WLD_SEAM_STAT => [.WLD_SEAM_STAT_CLAMPED, .WLD_SEAM_STAT_LOCKED, .WLD_SEAM_STAT_UNLOCK, .WLD_SEAM_STAT_MODE, .WLD_SEAM_STAT_DIR, .WLD_SEAM_STAT_UNLOCKS]
  | .WLD_EDGE_IDX => [.WLD_EDGE_IDX_EDGE]
  | .WLD_EDGE_STAT => [.WLD_EDGE_STAT_DV, .WLD_EDGE_STAT_DT, .WLD_EDGE_STAT_LIMIT, .WLD_EDGE_STAT_WARN]
  | .CFG_CMD => [.CFG_CMD_KEY, .CFG_CMD_OP]
  | .CFG_STATUS => [.CFG_STATUS_BUSY, .CFG_STATUS_CMD_IGNORED, .CFG_STATUS_WIN_DROP, .CFG_STATUS_STAGE, .CFG_STATUS_SLOT, .CFG_STATUS_PARTIAL, .CFG_STATUS_CODE]
  | .CFG_SRC => [.CFG_SRC_LAST_SRC, .CFG_SRC_FULL_SRC, .CFG_SRC_PULL, .CFG_SRC_MODE]
  | .CFG_ERR_ADDR => [.CFG_ERR_ADDR_ADDR]
  | .CFG_PROGRESS => [.CFG_PROGRESS_FRAMES]
  | .CFG_IMG_ID => [.CFG_IMG_ID_ID]
  | .CFG_GAP_A => [.CFG_GAP_A_GAP1, .CFG_GAP_A_GAP0]
  | .CFG_GAP_B => [.CFG_GAP_B_GAP2]
  | .CFG_RETRY => [.CFG_RETRY_SYND_ERR, .CFG_RETRY_RETRIES]
  | .CFG_FLASH => [.CFG_FLASH_OCTAL, .CFG_FLASH_FREQ, .CFG_FLASH_DUMMY, .CFG_FLASH_READ_OP]
  | .CFG_DIE_STAT => [.CFG_DIE_STAT_STAGE, .CFG_DIE_STAT_LOADED]
  | .PRC_LOAD_CTRL => [.PRC_LOAD_CTRL_HOLD, .PRC_LOAD_CTRL_ABORT]
  | .PRC_LOAD_STAT => [.PRC_LOAD_STAT_TARGETS, .PRC_LOAD_STAT_HELD, .PRC_LOAD_STAT_ABORT_LATE, .PRC_LOAD_STAT_RESULT, .PRC_LOAD_STAT_STATE]
  | .PRC_STATE => [.PRC_STATE_P 0, .PRC_STATE_P 1, .PRC_STATE_P 2, .PRC_STATE_P 3, .PRC_STATE_P 4, .PRC_STATE_P 5, .PRC_STATE_P 6, .PRC_STATE_P 7, .PRC_STATE_P 8, .PRC_STATE_P 9, .PRC_STATE_P 10, .PRC_STATE_P 11, .PRC_STATE_P 12, .PRC_STATE_P 13, .PRC_STATE_P 14, .PRC_STATE_P 15]
  | .PRC_PG_CTRL => [.PRC_PG_CTRL_UP, .PRC_PG_CTRL_DOWN]
  | .PRC_PG_STAT => [.PRC_PG_STAT_IGNORED, .PRC_PG_STAT_GATED]
  | .PRC_CAP_CTRL => [.PRC_CAP_CTRL_RESUME, .PRC_CAP_CTRL_FREEZE, .PRC_CAP_CTRL_REQ, .PRC_CAP_CTRL_PARCEL]
  | .PRC_CAP_STAT => [.PRC_CAP_STAT_VALID, .PRC_CAP_STAT_BUSY, .PRC_CAP_STAT_FROZEN, .PRC_CAP_STAT_IGNORED, .PRC_CAP_STAT_PARCEL, .PRC_CAP_STAT_STROKE]
  | .PRC_CAP_HEAT => [.PRC_CAP_HEAT_HEAT]
  | .SCR_CTRL => [.SCR_CTRL_EN]
  | .SCR_ACTION => [.SCR_ACTION_P 0, .SCR_ACTION_P 1, .SCR_ACTION_P 2, .SCR_ACTION_P 3, .SCR_ACTION_P 4, .SCR_ACTION_P 5, .SCR_ACTION_P 6, .SCR_ACTION_P 7, .SCR_ACTION_P 8, .SCR_ACTION_P 9, .SCR_ACTION_P 10, .SCR_ACTION_P 11, .SCR_ACTION_P 12, .SCR_ACTION_P 13, .SCR_ACTION_P 14, .SCR_ACTION_P 15]
  | .SCR_LAP_LIMIT => [.SCR_LAP_LIMIT_LIMIT]
  | .SCR_CMD => [.SCR_CMD_PRIO_LAP]
  | .SCR_STATUS => [.SCR_STATUS_PRIO_PENDING, .SCR_STATUS_STATE, .SCR_STATUS_FRAME]
  | .SCR_LAP_LAST => [.SCR_LAP_LAST_TIME]
  | .SCR_LAP_MAX => [.SCR_LAP_MAX_TIME]
  | .SCR_LAP_COUNT => [.SCR_LAP_COUNT_LAST_PRIO, .SCR_LAP_COUNT_PRIO_RESTART, .SCR_LAP_COUNT_LAPS]
  | .SCR_CNT => [.SCR_CNT_CORRECTED, .SCR_CNT_UNCORR]
  | .SCR_REPAIR_CNT => [.SCR_REPAIR_CNT_REPAIRED, .SCR_REPAIR_CNT_FAILED]
  | .SCR_ERR_ADDR => [.SCR_ERR_ADDR_VALID, .SCR_ERR_ADDR_ACTION, .SCR_ERR_ADDR_ADDR]
  | .SCR_VOTE => [.SCR_VOTE_REG, .SCR_VOTE_COUNT]
  | .SCR_HELD => [.SCR_HELD_PARCELS]
  | .SCR_SRC => [.SCR_SRC_PARCELS]
  | .HMR_CORE_CTRL => [.HMR_CORE_CTRL_HOLD, .HMR_CORE_CTRL_RST, .HMR_CORE_CTRL_START_PC]
  | .HMR_CORE_STAT => [.HMR_CORE_STAT_STATE, .HMR_CORE_STAT_PC]
  | .HMR_CORE_ERR => [.HMR_CORE_ERR_VALID, .HMR_CORE_ERR_CAUSE, .HMR_CORE_ERR_STATUS, .HMR_CORE_ERR_COUNT, .HMR_CORE_ERR_PC]
  | .HMR_TNG_POST => [.HMR_TNG_POST_WORD]
  | .HMR_TNG_GO => [.HMR_TNG_GO_GO]
  | .HMR_TNG_STAT => [.HMR_TNG_STAT_STOPPED, .HMR_TNG_STAT_POST_IGNORED, .HMR_TNG_STAT_STATUS, .HMR_TNG_STAT_DONE, .HMR_TNG_STAT_QUEUED]
  | .HMR_TNG_CTRL => [.HMR_TNG_CTRL_FLUSH, .HMR_TNG_CTRL_RESUME]
  | .HMR_DBG_CTRL => [.HMR_DBG_CTRL_HALT_TONGS, .HMR_DBG_CTRL_RESET_HALT, .HMR_DBG_CTRL_XT_OUT, .HMR_DBG_CTRL_XT_IN, .HMR_DBG_CTRL_STEP, .HMR_DBG_CTRL_RESUME, .HMR_DBG_CTRL_HALT]
  | .HMR_DBG_STAT => [.HMR_DBG_STAT_HALTED, .HMR_DBG_STAT_PENDING, .HMR_DBG_STAT_CAUSE, .HMR_DBG_STAT_BKPT_SKIP, .HMR_DBG_STAT_PC]
  | .HMR_DBG_REG_IDX => [.HMR_DBG_REG_IDX_CODE]
  | .HMR_DBG_REG_DATA => [.HMR_DBG_REG_DATA_VALUE]
  | .HMR_BKPT => [.HMR_BKPT_EN, .HMR_BKPT_PC]
  | .HMR_IRQ_CTRL => [.HMR_IRQ_CTRL_EN, .HMR_IRQ_CTRL_VBASE]
  | .HMR_IRQ_PEND => [.HMR_IRQ_PEND_PEND]
  | .HMR_IRQ_SET => [.HMR_IRQ_SET_DOORBELL]
  | .HMR_STK_CTRL => [.HMR_STK_CTRL_BIND]
  | .HMR_STK_STAT => [.HMR_STK_STAT_TASK, .HMR_STK_STAT_HALT_SKIPPED, .HMR_STK_STAT_MISSED]
  | .HMR_WDOG_CTRL => [.HMR_WDOG_CTRL_EN, .HMR_WDOG_CTRL_ACTION, .HMR_WDOG_CTRL_STROKE_KICK, .HMR_WDOG_CTRL_PERIOD]
  | .HMR_WDOG_KICK => [.HMR_WDOG_KICK_KEY]
  | .HMR_WDOG_STAT => [.HMR_WDOG_STAT_WARNED, .HMR_WDOG_STAT_RESETS, .HMR_WDOG_STAT_REMAIN]
  | .HMR_HALTED => [.HMR_HALTED_CORES]
  | .HMR_XTRIG_CNT => [.HMR_XTRIG_CNT_COUNT]
  | .DBG_SESSION => [.DBG_SESSION_FAILS, .DBG_SESSION_ACC_DROP, .DBG_SESSION_LOCKOUT, .DBG_SESSION_LEVEL]
  | .DBG_KEY_STAT => [.DBG_KEY_STAT_SLOTS]
  | .DBG_CTRL => [.DBG_CTRL_FREEZE_SYS]
  | .DBG_SWD_CTRL => [.DBG_SWD_CTRL_EN, .DBG_SWD_CTRL_PERIOD]
  | .DBG_SWD_KICK => [.DBG_SWD_KICK_KEY]
  | .DBG_SWD_STAT => [.DBG_SWD_STAT_WARNED, .DBG_SWD_STAT_FROZEN, .DBG_SWD_STAT_REMAIN]
  | .DBG_BUSY_CNT => [.DBG_BUSY_CNT_COUNT]
  | .LAN_LANE_CFG => [.LAN_LANE_CFG_ALLOW, .LAN_LANE_CFG_FIXED_RATE, .LAN_LANE_CFG_W128, .LAN_LANE_CFG_AUTO_START, .LAN_LANE_CFG_MODE]
  | .LAN_LANE_FREQ => [.LAN_LANE_FREQ_PAM4, .LAN_LANE_FREQ_KBPS]
  | .LAN_LANE_CMD => [.LAN_LANE_CMD_MEASURE, .LAN_LANE_CMD_TX_REENABLE, .LAN_LANE_CMD_WAKE, .LAN_LANE_CMD_SLEEP, .LAN_LANE_CMD_ABORT, .LAN_LANE_CMD_RESTART]
  | .LAN_LANE_STAT => [.LAN_LANE_STAT_PRESENT, .LAN_LANE_STAT_SIGDET, .LAN_LANE_STAT_LOCKED, .LAN_LANE_STAT_TX_SAFE, .LAN_LANE_STAT_ABORT_LATE, .LAN_LANE_STAT_CMD_IGNORED, .LAN_LANE_STAT_STEPS, .LAN_LANE_STAT_RESULT, .LAN_LANE_STAT_PROTO, .LAN_LANE_STAT_RATE, .LAN_LANE_STAT_STATE]
  | .LAN_LANE_PARTNER => [.LAN_LANE_PARTNER_PLANES, .LAN_LANE_PARTNER_PFOM, .LAN_LANE_PARTNER_PALLOW]
  | .LAN_LANE_FOM => [.LAN_LANE_FOM_AT_COMMIT, .LAN_LANE_FOM_LAST, .LAN_LANE_FOM_WIDTH, .LAN_LANE_FOM_HEIGHT]
  | .LAN_LANE_CNT => [.LAN_LANE_CNT_DOWNS, .LAN_LANE_CNT_RECOVERS, .LAN_LANE_CNT_WAKES_STALE]
  | .LAN_LPBK => [.LAN_LPBK_TX_MUTE, .LAN_LPBK_MODE]
  | .LAN_PRBS_CTRL => [.LAN_PRBS_CTRL_SNAP, .LAN_PRBS_CTRL_CLEAR, .LAN_PRBS_CTRL_INV, .LAN_PRBS_CTRL_CHK_EN, .LAN_PRBS_CTRL_CHK_PAT, .LAN_PRBS_CTRL_GEN_EN, .LAN_PRBS_CTRL_GEN_PAT]
  | .LAN_PRBS_ERR => [.LAN_PRBS_ERR_ERRORS]
  | .LAN_PRBS_BITS_LO => [.LAN_PRBS_BITS_LO_BITS]
  | .LAN_PRBS_BITS_HI => [.LAN_PRBS_BITS_HI_SYNC, .LAN_PRBS_BITS_HI_SYNC_LOST, .LAN_PRBS_BITS_HI_BITS]
  | .LAN_PRBS_THRESH => [.LAN_PRBS_THRESH_THRESH]
  | .LAN_RAW_CNT => [.LAN_RAW_CNT_OVERFLOW, .LAN_RAW_CNT_UNDERFLOW]
  | .LAN_QUAD_CFG => [.LAN_QUAD_CFG_ROLE]
  | .LAN_QUAD_RATE_NEXT => [.LAN_QUAD_RATE_NEXT_LANE 0, .LAN_QUAD_RATE_NEXT_LANE 1, .LAN_QUAD_RATE_NEXT_LANE 2, .LAN_QUAD_RATE_NEXT_LANE 3]
  | .LAN_QUAD_STAT => [.LAN_QUAD_STAT_NEXT_REFUSED, .LAN_QUAD_STAT_LOCK_FAIL]
  | .LAN_FOM_CFG => [.LAN_FOM_CFG_MIN]
  | .LAN_LP_CFG => [.LAN_LP_CFG_MAX_DT, .LAN_LP_CFG_MAX_STALE]
  | .LAN_RCK0_CTRL => [.LAN_RCK0_CTRL_EN, .LAN_RCK0_CTRL_SQUELCHED, .LAN_RCK0_CTRL_LANE, .LAN_RCK0_CTRL_DIV]
  | .LAN_RCK1_CTRL => [.LAN_RCK1_CTRL_EN, .LAN_RCK1_CTRL_SQUELCHED, .LAN_RCK1_CTRL_LANE, .LAN_RCK1_CTRL_DIV]
  | .LAN_RCLK_OUT => [.LAN_RCLK_OUT_EN1, .LAN_RCLK_OUT_EN0, .LAN_RCLK_OUT_SRC1, .LAN_RCLK_OUT_SRC0]
  | .PKT_PORT_CFG => [.PKT_PORT_CFG_EN, .PKT_PORT_CFG_PREEMPT_EN, .PKT_PORT_CFG_VERIFY_EN, .PKT_PORT_CFG_FRAG, .PKT_PORT_CFG_PAUSE_EN, .PKT_PORT_CFG_CT_EN, .PKT_PORT_CFG_DEF_PRIO, .PKT_PORT_CFG_PRIO_SRC, .PKT_PORT_CFG_PROFILE, .PKT_PORT_CFG_MAXLEN]
  | .PKT_PORT_PFC => [.PKT_PORT_PFC_LOSSLESS, .PKT_PORT_PFC_XOFF_TH]
  | .PKT_PORT_HDRM => [.PKT_PORT_HDRM_XON_TH, .PKT_PORT_HDRM_HDRM]
  | .PKT_PORT_STAT => [.PKT_PORT_STAT_LINK, .PKT_PORT_STAT_PREEMPT, .PKT_PORT_STAT_VERIFY_FAIL, .PKT_PORT_STAT_TX_XOFF, .PKT_PORT_STAT_RX_PAUSED]
  | .PKT_PORT_CNT => [.PKT_PORT_CNT_HDRM_DROP, .PKT_PORT_CNT_STOMPED]
  | .PKT_PROF_IDX => [.PKT_PROF_IDX_EXT, .PKT_PROF_IDX_PROF]
  | .PKT_PROF_EXT => [.PKT_PROF_EXT_FIELD, .PKT_PROF_EXT_OFFSET, .PKT_PROF_EXT_WIDTH]
  | .PKT_PROF_MISS_LO => [.PKT_PROF_MISS_LO_RESULT]
  | .PKT_PROF_MISS_HI => [.PKT_PROF_MISS_HI_RESULT]
  | .PKT_LKP_CFG => [.PKT_LKP_CFG_WIDE]
  | .PKT_LKP_KEY => [.PKT_LKP_KEY_KEY]
  | .PKT_LKP_RES_LO => [.PKT_LKP_RES_LO_RESULT]
  | .PKT_LKP_RES_HI => [.PKT_LKP_RES_HI_RESULT]
  | .PKT_LKP_CMD => [.PKT_LKP_CMD_PLACE, .PKT_LKP_CMD_ABORT, .PKT_LKP_CMD_OP]
  | .PKT_LKP_STAT => [.PKT_LKP_STAT_BUSY, .PKT_LKP_STAT_ABORT_LATE, .PKT_LKP_STAT_CMD_IGNORED, .PKT_LKP_STAT_HIT, .PKT_LKP_STAT_WAY, .PKT_LKP_STAT_INDEX, .PKT_LKP_STAT_RESULT]
  | .PKT_LKP_BULK_ADDR_LO => [.PKT_LKP_BULK_ADDR_LO_ADDR]
  | .PKT_LKP_BULK_ADDR_HI => [.PKT_LKP_BULK_ADDR_HI_ADDR]
  | .PKT_LKP_BULK_CNT => [.PKT_LKP_BULK_CNT_COUNT]
  | .PKT_LKP_DONE => [.PKT_LKP_DONE_DONE_CNT]
  | .PKT_LKP_OCC => [.PKT_LKP_OCC_STASH, .PKT_LKP_OCC_ENTRIES]
  | .PKT_Q_IDX => [.PKT_Q_IDX_QUEUE]
  | .PKT_Q_CFG => [.PKT_Q_CFG_EN, .PKT_Q_CFG_DTYPE, .PKT_Q_CFG_CLS, .PKT_Q_CFG_GROUP, .PKT_Q_CFG_SPILL, .PKT_Q_CFG_ALPHA, .PKT_Q_CFG_DEST]
  | .PKT_Q_MIN => [.PKT_Q_MIN_MIN]
  | .PKT_Q_SCHED => [.PKT_Q_SCHED_WEIGHT]
  | .PKT_Q_SCHED_NEXT => [.PKT_Q_SCHED_NEXT_WEIGHT]
  | .PKT_Q_STAT => [.PKT_Q_STAT_SPILLING, .PKT_Q_STAT_CELLS]
  | .PKT_Q_CNT => [.PKT_Q_CNT_ADM_DROP, .PKT_Q_CNT_X_OVER]
  | .PKT_Q_CMD => [.PKT_Q_CMD_ABORT, .PKT_Q_CMD_FLUSH]
  | .PKT_Q_FLUSH_STAT => [.PKT_Q_FLUSH_STAT_BUSY, .PKT_Q_FLUSH_STAT_ABORT_LATE, .PKT_Q_FLUSH_STAT_CMD_IGNORED, .PKT_Q_FLUSH_STAT_RESULT, .PKT_Q_FLUSH_STAT_QUEUE]
  | .PKT_GRP_IDX => [.PKT_GRP_IDX_PORT]
  | .PKT_GRP => [.PKT_GRP_QUANT_ODD, .PKT_GRP_QUANT_EVEN]
  | .PKT_GRP_NEXT => [.PKT_GRP_NEXT_QUANT_ODD, .PKT_GRP_NEXT_QUANT_EVEN]
  | .PKT_SCHED_STAT => [.PKT_SCHED_STAT_NEXT_REFUSED, .PKT_SCHED_STAT_CFG_REFUSED, .PKT_SCHED_STAT_REASON, .PKT_SCHED_STAT_PORT]
  | .PKT_BUF_STAT => [.PKT_BUF_STAT_CFG_REFUSED, .PKT_BUF_STAT_FREE]
  | .PKT_BUF_SHARED => [.PKT_BUF_SHARED_SIZE]
  | .PKT_SPILL_BASE_LO => [.PKT_SPILL_BASE_LO_BASE]
  | .PKT_SPILL_BASE_HI => [.PKT_SPILL_BASE_HI_BASE]
  | .PKT_SPILL_SIZE => [.PKT_SPILL_SIZE_MIB]
  | .PKT_SPILL_STAT => [.PKT_SPILL_STAT_BAD, .PKT_SPILL_STAT_DROP]
  | .PKT_XDIE_DROP => [.PKT_XDIE_DROP_COUNT]
  | .PKT_DRING_IDX => [.PKT_DRING_IDX_RING]
  | .PKT_DRING_BASE_LO => [.PKT_DRING_BASE_LO_BASE]
  | .PKT_DRING_BASE_HI => [.PKT_DRING_BASE_HI_BASE]
  | .PKT_DRING_CFG => [.PKT_DRING_CFG_EN, .PKT_DRING_CFG_CLS, .PKT_DRING_CFG_FORMAT, .PKT_DRING_CFG_LOG2_SIZE]
  | .PKT_DRING_HEAD => [.PKT_DRING_HEAD_LINE]
  | .PKT_DRING_TAIL => [.PKT_DRING_TAIL_LINE]
  | .PKT_DRING_CNT => [.PKT_DRING_CNT_ERR]
  | .PKT_TS_CORR => [.PKT_TS_CORR_TX_ADJ, .PKT_TS_CORR_RX_ADJ]
  | .PKT_TC_CFG => [.PKT_TC_CFG_OWN_EN, .PKT_TC_CFG_TC_EN]
  | .PKT_TC_CNT => [.PKT_TC_CNT_CORRECTED, .PKT_TC_CNT_SKIPPED]
  | .PKT_TOD_CTRL => [.PKT_TOD_CTRL_STEPS, .PKT_TOD_CTRL_UNTIMED, .PKT_TOD_CTRL_OP_REFUSED, .PKT_TOD_CTRL_INCR_REFUSED, .PKT_TOD_CTRL_OP, .PKT_TOD_CTRL_RUN]
  | .PKT_TOD_INCR => [.PKT_TOD_INCR_INCR]
  | .PKT_TOD_SET_NS => [.PKT_TOD_SET_NS_NS]
  | .PKT_TOD_SET_SEC_LO => [.PKT_TOD_SET_SEC_LO_SEC]
  | .PKT_TOD_SET_SEC_HI => [.PKT_TOD_SET_SEC_HI_SEC]
  | .PKT_TOD_NS => [.PKT_TOD_NS_NS]
  | .PKT_TOD_SEC_LO => [.PKT_TOD_SEC_LO_SEC]
  | .PKT_TOD_SEC_HI => [.PKT_TOD_SEC_HI_SEC]
  | .PKT_PPS_CFG => [.PKT_PPS_CFG_EN, .PKT_PPS_CFG_COMP, .PKT_PPS_CFG_WIDTH]
  | .PKT_PPS_IN_NS => [.PKT_PPS_IN_NS_NS]
  | .PKT_PPS_IN_SEC => [.PKT_PPS_IN_SEC_VALID, .PKT_PPS_IN_SEC_COUNT, .PKT_PPS_IN_SEC_SEC]
  | .CMP_PROF_IDX => [.CMP_PROF_IDX_PROF]
  | .CMP_PROF_CFG => [.CMP_PROF_CFG_DIR, .CMP_PROF_CFG_N16, .CMP_PROF_CFG_FMT, .CMP_PROF_CFG_IP4_HCS, .CMP_PROF_CFG_MANT, .CMP_PROF_CFG_TRAIL, .CMP_PROF_CFG_OFFSET]
  | .CMP_PROF_LEN => [.CMP_PROF_LEN_LEN1_EN, .CMP_PROF_LEN_LEN1_OFF, .CMP_PROF_LEN_LEN0_EN, .CMP_PROF_LEN_LEN0_OFF]
  | .CMP_JOB_POST => [.CMP_JOB_POST_ADDR]
  | .CMP_JOB_POST4 => [.CMP_JOB_POST4_EVT, .CMP_JOB_POST4_CLS, .CMP_JOB_POST4_PROF, .CMP_JOB_POST4_BLOCKS]
  | .CMP_JOB_GO => [.CMP_JOB_GO_GO]
  | .CMP_JOB_CTRL => [.CMP_JOB_CTRL_FLUSH]
  | .CMP_JOB_STAT => [.CMP_JOB_STAT_BUSY, .CMP_JOB_STAT_POST_IGNORED, .CMP_JOB_STAT_STATUS, .CMP_JOB_STAT_RESULT, .CMP_JOB_STAT_DONE, .CMP_JOB_STAT_QUEUED]
  | .CMP_JOB_OUT => [.CMP_JOB_OUT_BYTES]
  | .CMP_CNT => [.CMP_CNT_UNFIT, .CMP_CNT_DROP]
  | .CMP_CNT1 => [.CMP_CNT1_BAD_EXP]
  | .CMP_BLOCKS => [.CMP_BLOCKS_COUNT]
  | .MEM_CXL_CTRL => [.MEM_CXL_CTRL_MAX_SPEED, .MEM_CXL_CTRL_TX_REENABLE, .MEM_CXL_CTRL_ACK_DETACH, .MEM_CXL_CTRL_DETACH, .MEM_CXL_CTRL_ENABLE_MEM]
  | .MEM_CXL_STAT => [.MEM_CXL_STAT_PRESENT, .MEM_CXL_STAT_TX_SAFE, .MEM_CXL_STAT_CMD_IGNORED, .MEM_CXL_STAT_CAUSE, .MEM_CXL_STAT_SPEED, .MEM_CXL_STAT_WIDTH, .MEM_CXL_STAT_STATE]
  | .MEM_CXL_SIZE => [.MEM_CXL_SIZE_UNITS]
  | .MEM_CXL_IOA => [.MEM_CXL_IOA_GO, .MEM_CXL_IOA_WRITE, .MEM_CXL_IOA_CFG, .MEM_CXL_IOA_DONE, .MEM_CXL_IOA_ERR, .MEM_CXL_IOA_ADDR]
  | .MEM_CXL_IOD => [.MEM_CXL_IOD_DATA]
  | .MEM_CXL_CNT => [.MEM_CXL_CNT_SYNTH, .MEM_CXL_CNT_LOST_DIRTY, .MEM_CXL_CNT_DEV_UR]
  | .MEM_DDR_CFG => [.MEM_DDR_CFG_EN, .MEM_DDR_CFG_SPEED, .MEM_DDR_CFG_RDIMM, .MEM_DDR_CFG_RANKS2, .MEM_DDR_CFG_X8, .MEM_DDR_CFG_DENSITY, .MEM_DDR_CFG_POLICY, .MEM_DDR_CFG_REF_SB, .MEM_DDR_CFG_PASR, .MEM_DDR_CFG_PATROL]
  | .MEM_DDR_CMD => [.MEM_DDR_CMD_SR_EXIT, .MEM_DDR_CMD_SR_ENTER, .MEM_DDR_CMD_GO_READY, .MEM_DDR_CMD_INIT]
  | .MEM_DDR_STAT => [.MEM_DDR_STAT_CMD_IGNORED, .MEM_DDR_STAT_GIB, .MEM_DDR_STAT_STATE]
  | .MEM_DDR_MRW => [.MEM_DDR_MRW_GO, .MEM_DDR_MRW_BUSY, .MEM_DDR_MRW_RANK, .MEM_DDR_MRW_ADDR, .MEM_DDR_MRW_DATA]
  | .MEM_DDR_DLY_IDX => [.MEM_DDR_DLY_IDX_RANK, .MEM_DDR_DLY_IDX_KIND, .MEM_DDR_DLY_IDX_LANE]
  | .MEM_DDR_DLY => [.MEM_DDR_DLY_VALUE]
  | .MEM_DDR_PAT => [.MEM_DDR_PAT_MODE]
  | .MEM_DDR_PAT_VAL => [.MEM_DDR_PAT_VAL_VAL]
  | .MEM_DDR_TRN_CTRL => [.MEM_DDR_TRN_CTRL_ABORT, .MEM_DDR_TRN_CTRL_OP, .MEM_DDR_TRN_CTRL_RANK, .MEM_DDR_TRN_CTRL_COUNT]
  | .MEM_DDR_TRN_STAT => [.MEM_DDR_TRN_STAT_BUSY, .MEM_DDR_TRN_STAT_ABORT_LATE, .MEM_DDR_TRN_STAT_CMD_IGNORED, .MEM_DDR_TRN_STAT_RESULT]
  | .MEM_DDR_TRN_RES => [.MEM_DDR_TRN_RES_DQ_FAIL, .MEM_DDR_TRN_RES_ERRORS]
  | .MEM_DDR_ECC => [.MEM_DDR_ECC_CE, .MEM_DDR_ECC_UE]
  | .MEM_DDR_ECC_ADDR => [.MEM_DDR_ECC_ADDR_VALID, .MEM_DDR_ECC_ADDR_UE, .MEM_DDR_ECC_ADDR_LINE]
  | .MEM_PCI_CTRL => [.MEM_PCI_CTRL_TX_REENABLE]
  | .MEM_PCI_STAT => [.MEM_PCI_STAT_LINK, .MEM_PCI_STAT_TX_SAFE, .MEM_PCI_STAT_CMD_IGNORED, .MEM_PCI_STAT_WIDTH, .MEM_PCI_STAT_SPEED, .MEM_PCI_STAT_BAR_ERR]
  | .MEM_HR_IDX => [.MEM_HR_IDX_RING]
  | .MEM_HR_BASE_LO => [.MEM_HR_BASE_LO_BASE]
  | .MEM_HR_BASE_HI => [.MEM_HR_BASE_HI_BASE]
  | .MEM_HR_CFG => [.MEM_HR_CFG_EN, .MEM_HR_CFG_DIR, .MEM_HR_CFG_LOG2_SIZE, .MEM_HR_CFG_PROFILE, .MEM_HR_CFG_VEC, .MEM_HR_CFG_HOLDOFF]
  | .MEM_HR_PTR => [.MEM_HR_PTR_TAIL, .MEM_HR_PTR_HEAD]
  | .MEM_HR_STAT => [.MEM_HR_STAT_STOPPED, .MEM_HR_STAT_RESUME, .MEM_HR_STAT_CMD_IGNORED, .MEM_HR_STAT_CAUSE, .MEM_HR_STAT_ERRS]
  | .PROT_IDX => [.PROT_IDX_ENG, .PROT_IDX_RGN]
  | .PROT_KEY_STAT => [.PROT_KEY_STAT_FAIL, .PROT_KEY_STAT_LOADED]
  | .PROT_DEF => [.PROT_DEF_RIGHTS]
  | .PROT_RGN_BASE_LO => [.PROT_RGN_BASE_LO_BASE]
  | .PROT_RGN_BASE_HI => [.PROT_RGN_BASE_HI_BASE]
  | .PROT_RGN_CFG => [.PROT_RGN_CFG_EN, .PROT_RGN_CFG_INTEG, .PROT_RGN_CFG_LOG2_SIZE]
  | .PROT_RGN_META_LO => [.PROT_RGN_META_LO_META]
  | .PROT_RGN_META_HI => [.PROT_RGN_META_HI_META]
  | .PROT_RGN_META_SZ => [.PROT_RGN_META_SZ_LEVELS, .PROT_RGN_META_SZ_MIB]
  | .PROT_RGN_RIGHTS => [.PROT_RGN_RIGHTS_RIGHTS]
  | .PROT_RGN_CMD => [.PROT_RGN_CMD_ABORT, .PROT_RGN_CMD_INIT]
  | .PROT_RGN_STAT => [.PROT_RGN_STAT_BUSY, .PROT_RGN_STAT_ABORT_LATE, .PROT_RGN_STAT_CMD_IGNORED, .PROT_RGN_STAT_RESULT, .PROT_RGN_STAT_STATE]
  | .PROT_RGN_PROG => [.PROT_RGN_PROG_LINES]
  | .PROT_CNT => [.PROT_CNT_DENIED, .PROT_CNT_INTEG_FAIL]
  | .PROT_CNT1 => [.PROT_CNT1_REENC, .PROT_CNT1_LOCKED_GRP, .PROT_CNT1_POISON_ENT]
  | .PROT_ERR_LO => [.PROT_ERR_LO_ADDR]
  | .PROT_ERR_HI => [.PROT_ERR_HI_VALID, .PROT_ERR_HI_KIND, .PROT_ERR_HI_ICLS, .PROT_ERR_HI_ADDR]
  | .ECC_GRP_IDX => [.ECC_GRP_IDX_GROUP]
  | .ECC_GRP_CNT => [.ECC_GRP_CNT_CE, .ECC_GRP_CNT_UE]
  | .ECC_GRP_LAP => [.ECC_GRP_LAP_MAX, .ECC_GRP_LAP_LAST]
  | .ECC_GRP_CTRL => [.ECC_GRP_CTRL_OVERFLOW, .ECC_GRP_CTRL_SCRUB]
  | .ECC_LOG_IDX => [.ECC_LOG_IDX_ENTRY]
  | .ECC_LOG_ADDR => [.ECC_LOG_ADDR_VALID, .ECC_LOG_ADDR_UE, .ECC_LOG_ADDR_ADDR]
  | .ECC_LOG_INFO => [.ECC_LOG_INFO_REPEAT, .ECC_LOG_INFO_SYND]
  | .ECC_TEST_CTRL => [.ECC_TEST_CTRL_EN, .ECC_TEST_CTRL_MODE, .ECC_TEST_CTRL_GROUP, .ECC_TEST_CTRL_UNIT]
  | .ECC_TEST_CHK => [.ECC_TEST_CHK_READ_CHK, .ECC_TEST_CHK_CHECK]
  | .CLK_CTRL => [.CLK_CTRL_SEL, .CLK_CTRL_XTAL_EN, .CLK_CTRL_BW, .CLK_CTRL_AUTO, .CLK_CTRL_SWITCH, .CLK_CTRL_PRIO 0, .CLK_CTRL_PRIO 1, .CLK_CTRL_PRIO 2, .CLK_CTRL_PRIO 3]
  | .CLK_STATUS => [.CLK_STATUS_RC_FAULT, .CLK_STATUS_CMD_IGNORED, .CLK_STATUS_FALLBACK, .CLK_STATUS_SWITCH_FORCED, .CLK_STATUS_REFUSED, .CLK_STATUS_LINE_SAFE, .CLK_STATUS_COAST, .CLK_STATUS_LOCKED, .CLK_STATUS_ACTIVE]
  | .CLK_SRC_STAT => [.CLK_SRC_STAT_LOSS, .CLK_SRC_STAT_READY]
  | .CLK_SRC_FREQ => [.CLK_SRC_FREQ_KHZ]
  | .CLK_GATE_IDX => [.CLK_GATE_IDX_DOMAIN]
  | .CLK_GATE => [.CLK_GATE_GATED, .CLK_GATE_DEEP_EN, .CLK_GATE_SLEEP_EN, .CLK_GATE_RUN_EN]
  | .CLK_FPLL_STAT => [.CLK_FPLL_STAT_LOCKED, .CLK_FPLL_STAT_FOLLOW, .CLK_FPLL_STAT_UNLOCKS]
  | .CLK_CPLL_STAT => [.CLK_CPLL_STAT_LOCKED, .CLK_CPLL_STAT_FOLLOW, .CLK_CPLL_STAT_UNLOCKS]
  | .PWR_PL_NEXT => [.PWR_PL_NEXT_STATE, .PWR_PL_NEXT_LEVEL]
  | .PWR_PL_STAT => [.PWR_PL_STAT_VREQ, .PWR_PL_STAT_AVS_ERR, .PWR_PL_STAT_NEIGHBOUR, .PWR_PL_STAT_SEQ, .PWR_PL_STAT_STATE, .PWR_PL_STAT_LEVEL]
  | .PWR_RAIL_IDX => [.PWR_RAIL_IDX_RAIL]
  | .PWR_RAIL_STAT => [.PWR_RAIL_STAT_GOOD, .PWR_RAIL_STAT_WARN, .PWR_RAIL_STAT_NOM, .PWR_RAIL_STAT_MV]
  | .PWR_RAIL_DIP => [.PWR_RAIL_DIP_DIPS, .PWR_RAIL_DIP_MIN]
  | .PWR_TEMP_IDX => [.PWR_TEMP_IDX_SENSOR]
  | .PWR_TEMP => [.PWR_TEMP_HIGHEST, .PWR_TEMP_READING]
  | .PWR_TEMP_CFG => [.PWR_TEMP_CFG_HOT]
  | .PWR_PMB_CMD => [.PWR_PMB_CMD_GO, .PWR_PMB_CMD_BUSY, .PWR_PMB_CMD_WRITE, .PWR_PMB_CMD_WORD, .PWR_PMB_CMD_ERR, .PWR_PMB_CMD_ADDR, .PWR_PMB_CMD_CODE]
  | .PWR_PMB_DATA => [.PWR_PMB_DATA_DATA]
  | .EVT_IDX => [.EVT_IDX_LOCAL]
  | .EVT_ROUTE => [.EVT_ROUTE_BOOK_MATCH, .EVT_ROUTE_VEC, .EVT_ROUTE_TDIE, .EVT_ROUTE_CORES, .EVT_ROUTE_FPORT, .EVT_ROUTE_MSIX, .EVT_ROUTE_ATTN, .EVT_ROUTE_BOOK]
  | .EVT_CNT => [.EVT_CNT_COUNT]
  | .EVT_LAST_LO => [.EVT_LAST_LO_DATA]
  | .EVT_LAST_HI => [.EVT_LAST_HI_DATA]
  | .EVT_PEND => [.EVT_PEND_PEND]
  | .EVT_FP_CTRL => [.EVT_FP_CTRL_DROP, .EVT_FP_CTRL_MASK]
  | .PMC_IDX => [.PMC_IDX_CTR]
  | .PMC_SEL => [.PMC_SEL_EN, .PMC_SEL_MODE, .PMC_SEL_CHAIN, .PMC_SEL_SRC, .PMC_SEL_INST]
  | .PMC_THRESH => [.PMC_THRESH_THRESH]
  | .PMC_CNT_LO => [.PMC_CNT_LO_COUNT]
  | .PMC_CNT_HI => [.PMC_CNT_HI_COUNT]
  | .PMC_CTRL => [.PMC_CTRL_CLEAR, .PMC_CTRL_FREEZE]
  | .PMC_OVF0 => [.PMC_OVF0_OVF]
  | .PMC_OVF1 => [.PMC_OVF1_OVF]
  | .PMC_BW_IDX => [.PMC_BW_IDX_MON]
  | .PMC_BW_CFG => [.PMC_BW_CFG_EN, .PMC_BW_CFG_EVT, .PMC_BW_CFG_SEQ, .PMC_BW_CFG_WINDOW]
  | .PMC_BW_SRC => [.PMC_BW_SRC_KIND, .PMC_BW_SRC_INST]
  | .PMC_BW_BYTES_LO => [.PMC_BW_BYTES_LO_BYTES]
  | .PMC_BW_BYTES_HI => [.PMC_BW_BYTES_HI_BYTES]
  | .PMC_BW_COUNT => [.PMC_BW_COUNT_COUNT]
  | .REC_SEQ_OLD => [.REC_SEQ_OLD_SEQ]
  | .REC_SEQ_NEW => [.REC_SEQ_NEW_SEQ]
  | .REC_STAT => [.REC_STAT_MOUNTED, .REC_STAT_NOFLASH, .REC_STAT_FL_STOP, .REC_STAT_FL_ERR, .REC_STAT_LOST]
  | .REC_OPSEC => [.REC_OPSEC_SEC]
  | .REC_PCYCLE => [.REC_PCYCLE_COUNT]
  | .REC_NOTE_LO => [.REC_NOTE_LO_DATA]
  | .REC_NOTE_HI => [.REC_NOTE_HI_DATA]
  | .REC_NOTE_GO => [.REC_NOTE_GO_GO, .REC_NOTE_GO_CODE]
  | .REC_FL_CFG => [.REC_FL_CFG_SR_DUMMY, .REC_FL_CFG_RDSR, .REC_FL_CFG_ERASE, .REC_FL_CFG_PROG]
  | .REC_FL_SLOT => [.REC_FL_SLOT_GO, .REC_FL_SLOT_BUSY, .REC_FL_SLOT_SLOT]
  | .REC_FL_DATA => [.REC_FL_DATA_WORD]
  | .MGT_CMD => [.MGT_CMD_KEY, .MGT_CMD_OP]
  | .MGT_STAT => [.MGT_STAT_CAL_BUSY, .MGT_STAT_CMD_IGNORED, .MGT_STAT_RESULT, .MGT_STAT_FRAME_ERR, .MGT_STAT_DROPPED]
  | .MGT_CAL_ADDR_LO => [.MGT_CAL_ADDR_LO_ADDR]
  | .MGT_CAL_ADDR_HI => [.MGT_CAL_ADDR_HI_ADDR]
  | .MGT_CAL_LEN => [.MGT_CAL_LEN_PAIRS]
  | .MGT_CAL_STAT => [.MGT_CAL_STAT_ACTIVE, .MGT_CAL_STAT_NEXT, .MGT_CAL_STAT_NOFLASH, .MGT_CAL_STAT_APPLY_ERR, .MGT_CAL_STAT_GEN]
  | .MGT_ATTN => [.MGT_ATTN_LOW, .MGT_ATTN_FORCE]

/-- Part 0 of the list of registers. -/
def Reg.all0 : List Reg := [.DIE_ID, .DIE_STEP, .DIE_UID_LO, .DIE_UID_HI, .DIE_SLOT_STEP, .DIE_RESET_REQ, .DIE_STATE, .DIE_RST_CAUSE, .STK_CTRL, .STK_TIMING, .STK_TIMING_NEXT, .STK_STATUS, .STK_STROKE_NUM, .STK_HEAT_NUM, .STK_LOCK_ERR, .STK_UNIT_CTRL, .STK_UNIT_STAT, .STK_OVR, .STK_CHG_CTRL, .STK_CHG_STATUS, .STK_CHG_REQ, .STK_CHG_ARMED, .STK_SPLIT, .CFG_RAIL_CONT, .CFG_RAIL_COUNT, .CFG_RAIL_IDX, .CFG_RAIL_DATA, .CFG_RAIL_CLR, .NOC_RTR_IDX, .NOC_RTR_CTRL, .NOC_RTR_FLITS, .NOC_RTR_ERR, .NOC_EP_IDX, .NOC_TMO_X, .NOC_TMO_H, .NOC_TMO_N, .NOC_TMO_B, .NOC_EP_STAT, .NOC_EP_CNT0, .NOC_EP_CNT1]
/-- Part 1 of the list of registers. -/
def Reg.all1 : List Reg := [.NOC_FENCE_CFG, .NOC_FENCE_STAT, .NOC_DFENCE_STAT, .NOC_FENCE_CNT, .NOC_DC_CMD, .NOC_DC_STAT, .NOC_DIR_CNT, .NOC_XRES_IDX, .NOC_XRES_LO, .NOC_XRES_HI, .NOC_XRES_STAT, .NOC_XRES_LINK, .WLD_CH_IDX, .WLD_CH_STAT, .WLD_CH_VER, .WLD_CH_CMD, .WLD_CH_ERR, .WLD_CH_REPAIR, .WLD_ERR_CFG, .WLD_SEAM_IDX, .WLD_SEAM_STAT, .WLD_EDGE_IDX, .WLD_EDGE_STAT, .CFG_CMD, .CFG_STATUS, .CFG_SRC, .CFG_ERR_ADDR, .CFG_PROGRESS, .CFG_IMG_ID, .CFG_GAP_A, .CFG_GAP_B, .CFG_RETRY, .CFG_FLASH, .CFG_DIE_STAT, .PRC_LOAD_CTRL, .PRC_LOAD_STAT, .PRC_STATE, .PRC_PG_CTRL, .PRC_PG_STAT, .PRC_CAP_CTRL]
/-- Part 2 of the list of registers. -/
def Reg.all2 : List Reg := [.PRC_CAP_STAT, .PRC_CAP_HEAT, .SCR_CTRL, .SCR_ACTION, .SCR_LAP_LIMIT, .SCR_CMD, .SCR_STATUS, .SCR_LAP_LAST, .SCR_LAP_MAX, .SCR_LAP_COUNT, .SCR_CNT, .SCR_REPAIR_CNT, .SCR_ERR_ADDR, .SCR_VOTE, .SCR_HELD, .SCR_SRC, .HMR_CORE_CTRL, .HMR_CORE_STAT, .HMR_CORE_ERR, .HMR_TNG_POST, .HMR_TNG_GO, .HMR_TNG_STAT, .HMR_TNG_CTRL, .HMR_DBG_CTRL, .HMR_DBG_STAT, .HMR_DBG_REG_IDX, .HMR_DBG_REG_DATA, .HMR_BKPT, .HMR_IRQ_CTRL, .HMR_IRQ_PEND, .HMR_IRQ_SET, .HMR_STK_CTRL, .HMR_STK_STAT, .HMR_WDOG_CTRL, .HMR_WDOG_KICK, .HMR_WDOG_STAT, .HMR_HALTED, .HMR_XTRIG_CNT, .DBG_SESSION, .DBG_KEY_STAT]
/-- Part 3 of the list of registers. -/
def Reg.all3 : List Reg := [.DBG_CTRL, .DBG_SWD_CTRL, .DBG_SWD_KICK, .DBG_SWD_STAT, .DBG_BUSY_CNT, .LAN_LANE_CFG, .LAN_LANE_FREQ, .LAN_LANE_CMD, .LAN_LANE_STAT, .LAN_LANE_PARTNER, .LAN_LANE_FOM, .LAN_LANE_CNT, .LAN_LPBK, .LAN_PRBS_CTRL, .LAN_PRBS_ERR, .LAN_PRBS_BITS_LO, .LAN_PRBS_BITS_HI, .LAN_PRBS_THRESH, .LAN_RAW_CNT, .LAN_QUAD_CFG, .LAN_QUAD_RATE_NEXT, .LAN_QUAD_STAT, .LAN_FOM_CFG, .LAN_LP_CFG, .LAN_RCK0_CTRL, .LAN_RCK1_CTRL, .LAN_RCLK_OUT, .PKT_PORT_CFG, .PKT_PORT_PFC, .PKT_PORT_HDRM, .PKT_PORT_STAT, .PKT_PORT_CNT, .PKT_PROF_IDX, .PKT_PROF_EXT, .PKT_PROF_MISS_LO, .PKT_PROF_MISS_HI, .PKT_LKP_CFG, .PKT_LKP_KEY, .PKT_LKP_RES_LO, .PKT_LKP_RES_HI]
/-- Part 4 of the list of registers. -/
def Reg.all4 : List Reg := [.PKT_LKP_CMD, .PKT_LKP_STAT, .PKT_LKP_BULK_ADDR_LO, .PKT_LKP_BULK_ADDR_HI, .PKT_LKP_BULK_CNT, .PKT_LKP_DONE, .PKT_LKP_OCC, .PKT_Q_IDX, .PKT_Q_CFG, .PKT_Q_MIN, .PKT_Q_SCHED, .PKT_Q_SCHED_NEXT, .PKT_Q_STAT, .PKT_Q_CNT, .PKT_Q_CMD, .PKT_Q_FLUSH_STAT, .PKT_GRP_IDX, .PKT_GRP, .PKT_GRP_NEXT, .PKT_SCHED_STAT, .PKT_BUF_STAT, .PKT_BUF_SHARED, .PKT_SPILL_BASE_LO, .PKT_SPILL_BASE_HI, .PKT_SPILL_SIZE, .PKT_SPILL_STAT, .PKT_XDIE_DROP, .PKT_DRING_IDX, .PKT_DRING_BASE_LO, .PKT_DRING_BASE_HI, .PKT_DRING_CFG, .PKT_DRING_HEAD, .PKT_DRING_TAIL, .PKT_DRING_CNT, .PKT_TS_CORR, .PKT_TC_CFG, .PKT_TC_CNT, .PKT_TOD_CTRL, .PKT_TOD_INCR, .PKT_TOD_SET_NS]
/-- Part 5 of the list of registers. -/
def Reg.all5 : List Reg := [.PKT_TOD_SET_SEC_LO, .PKT_TOD_SET_SEC_HI, .PKT_TOD_NS, .PKT_TOD_SEC_LO, .PKT_TOD_SEC_HI, .PKT_PPS_CFG, .PKT_PPS_IN_NS, .PKT_PPS_IN_SEC, .CMP_PROF_IDX, .CMP_PROF_CFG, .CMP_PROF_LEN, .CMP_JOB_POST, .CMP_JOB_POST4, .CMP_JOB_GO, .CMP_JOB_CTRL, .CMP_JOB_STAT, .CMP_JOB_OUT, .CMP_CNT, .CMP_CNT1, .CMP_BLOCKS, .MEM_CXL_CTRL, .MEM_CXL_STAT, .MEM_CXL_SIZE, .MEM_CXL_IOA, .MEM_CXL_IOD, .MEM_CXL_CNT, .MEM_DDR_CFG, .MEM_DDR_CMD, .MEM_DDR_STAT, .MEM_DDR_MRW, .MEM_DDR_DLY_IDX, .MEM_DDR_DLY, .MEM_DDR_PAT, .MEM_DDR_PAT_VAL, .MEM_DDR_TRN_CTRL, .MEM_DDR_TRN_STAT, .MEM_DDR_TRN_RES, .MEM_DDR_ECC, .MEM_DDR_ECC_ADDR, .MEM_PCI_CTRL]
/-- Part 6 of the list of registers. -/
def Reg.all6 : List Reg := [.MEM_PCI_STAT, .MEM_HR_IDX, .MEM_HR_BASE_LO, .MEM_HR_BASE_HI, .MEM_HR_CFG, .MEM_HR_PTR, .MEM_HR_STAT, .PROT_IDX, .PROT_KEY_STAT, .PROT_DEF, .PROT_RGN_BASE_LO, .PROT_RGN_BASE_HI, .PROT_RGN_CFG, .PROT_RGN_META_LO, .PROT_RGN_META_HI, .PROT_RGN_META_SZ, .PROT_RGN_RIGHTS, .PROT_RGN_CMD, .PROT_RGN_STAT, .PROT_RGN_PROG, .PROT_CNT, .PROT_CNT1, .PROT_ERR_LO, .PROT_ERR_HI, .ECC_GRP_IDX, .ECC_GRP_CNT, .ECC_GRP_LAP, .ECC_GRP_CTRL, .ECC_LOG_IDX, .ECC_LOG_ADDR, .ECC_LOG_INFO, .ECC_TEST_CTRL, .ECC_TEST_CHK, .CLK_CTRL, .CLK_STATUS, .CLK_SRC_STAT, .CLK_SRC_FREQ, .CLK_GATE_IDX, .CLK_GATE, .CLK_FPLL_STAT]
/-- Part 7 of the list of registers. -/
def Reg.all7 : List Reg := [.CLK_CPLL_STAT, .PWR_PL_NEXT, .PWR_PL_STAT, .PWR_RAIL_IDX, .PWR_RAIL_STAT, .PWR_RAIL_DIP, .PWR_TEMP_IDX, .PWR_TEMP, .PWR_TEMP_CFG, .PWR_PMB_CMD, .PWR_PMB_DATA, .EVT_IDX, .EVT_ROUTE, .EVT_CNT, .EVT_LAST_LO, .EVT_LAST_HI, .EVT_PEND, .EVT_FP_CTRL, .PMC_IDX, .PMC_SEL, .PMC_THRESH, .PMC_CNT_LO, .PMC_CNT_HI, .PMC_CTRL, .PMC_OVF0, .PMC_OVF1, .PMC_BW_IDX, .PMC_BW_CFG, .PMC_BW_SRC, .PMC_BW_BYTES_LO, .PMC_BW_BYTES_HI, .PMC_BW_COUNT, .REC_SEQ_OLD, .REC_SEQ_NEW, .REC_STAT, .REC_OPSEC, .REC_PCYCLE, .REC_NOTE_LO, .REC_NOTE_HI, .REC_NOTE_GO]
/-- Part 8 of the list of registers. -/
def Reg.all8 : List Reg := [.REC_FL_CFG, .REC_FL_SLOT, .REC_FL_DATA, .MGT_CMD, .MGT_STAT, .MGT_CAL_ADDR_LO, .MGT_CAL_ADDR_HI, .MGT_CAL_LEN, .MGT_CAL_STAT, .MGT_ATTN]

/-- Every register, in the order of the spec's files. -/
def Reg.all : List Reg := Reg.all0 ++ Reg.all1 ++ Reg.all2 ++ Reg.all3 ++ Reg.all4 ++ Reg.all5 ++ Reg.all6 ++ Reg.all7 ++ Reg.all8

end Sys2Proof.Machine
end

