-- ==== Sys2Proof/Machine/Tbl.lean ====
section
/-! DEFINITION. Sparse tables: lists of key and value, keys strictly rising, and the byte memory built the same way. -/

namespace Sys2Proof.Machine

/-- A sparse table. An unlisted key has the value its reader names. -/
abbrev Tbl (α : Type) := List (Nat × α)

/-- The value listed at a key, or the default. -/
def Tbl.get {α : Type} (d : α) : Tbl α → Nat → α
  | [], _ => d
  | (k, v) :: t, i => if i = k then v else Tbl.get d t i

/-- List a value at a key. -/
def Tbl.set {α : Type} : Tbl α → Nat → α → Tbl α
  | [], i, x => [(i, x)]
  | (k, v) :: t, i, x =>
    if i < k then (i, x) :: (k, v) :: t
    else if i = k then (k, x) :: t
    else (k, v) :: Tbl.set t i x

/-- Take a key out of a table. -/
def Tbl.erase {α : Type} : Tbl α → Nat → Tbl α
  | [], _ => []
  | (k, v) :: t, i => if i = k then t else (k, v) :: Tbl.erase t i

/-- Keep the entries whose key meets a test. -/
def Tbl.keep {α : Type} (p : Nat → Bool) (t : Tbl α) : Tbl α := t.filter fun e => p e.1

/-- Whether a key is listed. -/
def Tbl.has {α : Type} (t : Tbl α) (i : Nat) : Bool := t.any fun e => e.1 == i

/-- Keys strictly rising. -/
def Tbl.wf {α : Type} : Tbl α → Bool
  | [] => true
  | [_] => true
  | (a, _) :: (b, y) :: t => decide (a < b) && Tbl.wf ((b, y) :: t)

/-- Put a number into a set held as a rising list. -/
def insertNat (n : Nat) : List Nat → List Nat
  | [] => [n]
  | m :: t => if n < m then n :: m :: t else if n = m then m :: t else m :: insertNat n t

/-- Take a number out of a set held as a list. -/
def removeNat (n : Nat) (l : List Nat) : List Nat := l.filter fun m => m != n

/-- The byte memory: address and byte, addresses strictly rising, no zero byte listed. -/
abbrev Mem := List (Nat × BitVec 8)

/-- The byte at an address: an unlisted address reads 0 (DESIGN CHOICE, log entry 5). -/
def Mem.byte (m : Mem) (a : Nat) : BitVec 8 := Tbl.get 0 m a

/-- Write one byte, keeping the canonical form. -/
def Mem.setByte (m : Mem) (a : Nat) (b : BitVec 8) : Mem :=
  if b = 0 then Tbl.erase m a else Tbl.set m a b

/-- `n` bytes from an address, little-endian (R9, R43). -/
def Mem.read (m : Mem) (a : Nat) : Nat → Nat
  | 0 => 0
  | n + 1 => (m.byte a).toNat + 256 * Mem.read m (a + 1) n

/-- Write the low `n` bytes of a value from an address, little-endian. -/
def Mem.write (m : Mem) (a : Nat) (v : Nat) : Nat → Mem
  | 0 => m
  | n + 1 => Mem.write (m.setByte a (BitVec.ofNat 8 v)) (a + 1) (v / 256) n

/-- Write the bytes of `v` whose bit in `mask` is 1 (the byte enables of a masked write). -/
def Mem.writeMasked (m : Mem) (a : Nat) (v mask : Nat) : Nat → Mem
  | 0 => m
  | n + 1 =>
    Mem.writeMasked (if mask % 2 = 1 then m.setByte a (BitVec.ofNat 8 v) else m) (a + 1) (v / 256) (mask / 2) n

/-- Clear every byte whose address is in a range. -/
def Mem.clear (m : Mem) (lo size : Nat) : Mem := Tbl.keep (fun a => decide (a < lo) || decide (lo + size ≤ a)) m

/-- The canonical form: addresses strictly rising and no zero byte listed. -/
def Mem.wf (m : Mem) : Bool := Tbl.wf m && m.all fun e => e.2 != 0

end Sys2Proof.Machine
end

