-- ==== Sys2Proof/Machine/State.lean ====
section
/-! DEFINITION. The state of the MO880: what the registers do not show stands in fields of its own. -/

namespace Sys2Proof.Machine

/-- Why the machine stops. -/
inductive Fault where
  /-- No command of the spec stops the part; nobody raises this. Safe: it allows no behaviour. -/
  | none
  deriving DecidableEq, Repr

/-- Why a command has no meaning. -/
inductive Refusal where
  /-- Raised by `exec` for a row that has no meaning yet. Safe: no claim about that command can be proved. -/
  | notModelled (mnemonic : String)
  deriving DecidableEq, Repr

/-- A field-book record (R536); the CRC is computed when a slot is written. -/
structure BookRec where
  seq : Nat
  opsec : Nat
  pcycle : Nat
  update : Bool
  sat : Bool
  early : Bool
  event : Nat
  kind : Nat
  rep : Nat
  lastSeen : Nat
  data : Nat
  /-- A copy has reached the flash. -/
  saved : Bool
  /-- Changed since its last slot (R539). -/
  dirty : Bool
  deriving DecidableEq, Repr

/-- The field book of the management island (R536 to R544). -/
structure Book where
  /-- The RAM ring, newest first, at most 4,096 records. -/
  ring : List BookRec
  /-- What waits for the flash, oldest first: a record's SEQ, and whether it is an UPDATE copy (R539). -/
  queue : List (Nat × Bool)
  /-- SEQ of the next record; 0xFFFF_FFFF is skipped (R537). -/
  nextSeq : Nat
  /-- The seconds of operation, and the power cycles, that records carry (R536, R542). -/
  opsec : Nat
  pcycle : Nat
  /-- The flash slot that is written next (R539). -/
  nextSlot : Nat
  /-- Sectors erased since the last search of the flash (R540, R542). -/
  erased : List Nat
  /-- The sector in which writing continues after the search of the flash (R540). -/
  resume : Option Nat
  /-- The slot at which the sector ahead has been erased (R540). -/
  ahead : Option Nat
  /-- Failed programs in a row (R539). -/
  fails : Nat
  /-- The eight words of the ring window's latch (R544). -/
  latch : List Nat
  deriving DecidableEq, Repr

/-- The result the management port holds, and the burst in progress (R519 to R522). -/
structure Mgt where
  done : Bool
  frameErr : Bool
  dropped : Bool
  status : Nat
  data : Nat
  /-- An access waits for its response. -/
  busy : Bool
  /-- A BURST is being clocked in. -/
  burst : Bool
  /-- The address of the next word of the BURST. -/
  burstAddr : Nat
  /-- Words in the 64-word buffer that have not been answered. -/
  burstHeld : Nat
  deriving DecidableEq, Repr

/-- One bandwidth monitor between window ends (R535). -/
structure BwMon where
  /-- EN was written 1; the count starts at the next heat boundary. -/
  waiting : Bool
  /-- The count runs. -/
  running : Bool
  /-- Bytes and items counted so far. -/
  bytes : Nat
  items : Nat
  /-- Strokes left of the window. -/
  strokesLeft : Nat
  deriving DecidableEq, Repr

/-- The calibration partition as the island knows it (R545, R546). -/
structure Cal where
  /-- The sector of the newest valid copy. -/
  sector : Nat
  /-- Its generation. -/
  gen : Nat
  /-- Its BENCH bit, or no valid copy. -/
  bench : Bool
  /-- The command that runs: 1 SAVE_USER, 2 RETURN_TO_BENCHMARK, 0 none. -/
  op : Nat
  deriving DecidableEq, Repr

/-- What the part sends out of itself or to a partner outside the model. -/
inductive Emit where
  /-- An MSI-X message of the PCIe endpoint (R527). -/
  | msix (vec : Nat)
  /-- A field-book slot programmed to the flash, and its 32 bytes (R539). -/
  | flashSlot (slot : Nat) (bytes : List Nat)
  /-- A request admitted to the network. -/
  | request (r : NocReq)
  /-- A response that a target returns: status of R137 and data. -/
  | response (src tag gen status data : Nat)
  /-- A response delivered to an initiator that the sender plays, or to the logic of a fabric port with its user tag. -/
  | delivered (src tag status data : Nat)
  /-- A flit leaves a router by a port, with the port it takes at the next router (R130). -/
  | flit (die net row col out ahead : Nat) (bits : BitVec 1024)
  /-- A request presented to the logic of a target port (R147): its port tag. -/
  | portRequest (die parcel port ptag : Nat) (r : NocReq)
  /-- A snoop: 0 SNP_INV, 1 SNP_DOWN, 2 SNP_FLUSH (R134). -/
  | snoop (line die op : Nat)
  /-- A snoop acknowledgement, with data or without (R152). -/
  | snoopAck (line die : Nat) (data : Bool)
  /-- A request of a die cache to a home (R150). -/
  | home (op : HomeOp) (die line : Nat)
  /-- A home serves a request with its memory (R151). -/
  | served (op : HomeOp) (die line : Nat)
  /-- What a data register of the test port shifts out (R318, R321, R322). -/
  | shifted (value : Nat)
  /-- A survey frame of 28 bytes sent by a lane, and the levels of an idle pair and of the frame on the line (R338, R343). -/
  | survey (die lane : Nat) (bytes levels : List Nat)
  /-- A lane sends a wake burst: so many unit intervals that alternate between two levels (R353). -/
  | wakeBurst (die lane intervals low high : Nat)
  /-- A lane in TEST sends a pattern: LAN_PRBS_CTRL.GEN_PAT and INV, and its first 128 levels (R358). -/
  | pattern (die lane pat : Nat) (invert : Bool) (levels : List Nat)
  /-- A Clause 73 page: bit k for PHY type k of the table of R347, the pause ability, the FEC bits F0 to F3 and a Nonce of five bits; and a
  null message page, in answer to a next page (R347, R348). -/
  | c73Page (die lane types : Nat) (pause : Bool) (fec nonce : Nat)
  | c73Null (die lane : Nat)
  /-- A raw word leaves by the serializer, a fill word where `fill`, with its levels on the line; or goes to the fabric (R338, R362). -/
  | rawSent (die lane : Nat) (word : BitVec 128) (fill : Bool) (levels : List Nat)
  | rawToFabric (die lane : Nat) (word : BitVec 128)
  /-- A frame leaves by the MAC of a port, FCS inverted where `stomp` (R385, R396). -/
  | mac (die port : Nat) (bytes : List Nat) (stomp : Bool)
  /-- A PFC frame with a time for one priority (R392). -/
  | pfc (die port prio time : Nat)
  /-- The preemptable frame on the line is interrupted after this many bytes (R369). -/
  | fragment (die port bytes : Nat)
  /-- A protection engine writes a line to its DDR5 channel, or a line of a protected region or of its metadata to its memory: the 64 bytes
  as they stand there (R470, R480). -/
  | memLine (eng line : Nat) (bytes : List Nat)
  /-- An INIT of a protected region writes lines to its memory: the ciphertext of zero, and its metadata (R478). -/
  | memInit (eng rgn lines : Nat)
  /-- The output of an event port presents an entry: the event number and its data (R530). -/
  | eventPort (die parcel event data : Nat)
  /-- A copy of the calibration partition is written to a sector, erased first (R545, R546). -/
  | calCopy (sector : Nat) (bytes : List Nat)
  /-- A CXL port sends a request to its device: MemRd, MemWr or MemWrPtl; what it writes is ciphertext (R440, R470). -/
  | cxlMem (port : Nat) (r : NocReq)
  /-- A CXL port answers a device-originated request with Unsupported Request (R440). -/
  | cxlUr (port : Nat)
  /-- A CXL.io access (R438): the word of MEM_CXL_IOA and the write data. -/
  | cxlIo (port access data : Nat)
  /-- A descriptor of a host ring written back at its host address, and frame bytes written to host memory (R461 to R463). -/
  | hostDesc (ring addr : Nat) (bytes : List Nat)
  | hostData (addr : Nat) (bytes : List Nat)
  /-- A DRAM mode register is written (R455). -/
  | modeReg (ch rank addr data : Nat)
  /-- A training step of a DDR5 channel: its kind, rank, bursts and the first 64 bits of its pattern on each byte lane (R455). -/
  | training (ch op : Nat) (rank : Bool) (count : Nat) (lanes : List (List Nat))
  /-- A DDR5 channel refreshes, one bank of each group where `same`; the next refresh follows after so many ns (R451). -/
  | refresh (ch : Nat) (same : Bool) (ns : Nat)
  /-- A group sent on a Weld channel by a die (R166). -/
  | weld (die ch : Nat) (group : BitVec 256) (beats : List (BitVec 68))
  /-- A voltage in mV written to the regulator of a fabric die over AVSBus (R508, R510). -/
  | avs (die mv : Nat)
  /-- A PMBus transaction: PWR_PMB_CMD and the write data (R510). -/
  | pmbus (cmd data : Nat)
  /-- What a RESULT transaction of the management port shifts out: the status byte and the data (R519). -/
  | mgtResult (status data : Nat)
  /-- The completion of a host's BAR0 read, with its length in bytes (R460). -/
  | bar0 (bytes data : Nat)
  /-- A flash setup record performed in 1S-1S-1S mode (R203 phase 2). -/
  | flashSetup (bytes : List Nat)
  /-- The master reads bytes of the flash at an address (R258). -/
  | flashRead (addr bytes : Nat)
  deriving DecidableEq, Repr

/-- The PCIe endpoint (chapter 16). -/
structure Pcie where
  linkUp : Bool
  /-- MSI-X vectors that the host has unmasked. -/
  msixOpen : List Nat
  /-- Masked vectors that are pending. -/
  msixPend : List Nat
  deriving DecidableEq, Repr

/-- Where the configuration master is in a load (R204, R225). -/
inductive LoadPhase where
  /-- No load: a personality runs, or nothing has been loaded yet. -/
  | idle
  /-- Steps 1 to 3: waiting for the clock and for the dies. -/
  | start
  /-- Step 4: the header is being read. -/
  | header
  /-- The header is accepted; the preparation runs. -/
  | prepare
  /-- Flash set-up records (R203 phase 2). -/
  | setup
  /-- The second header read (R203 phase 3). -/
  | reread
  /-- Step 5: the entry table. -/
  | table
  /-- A partial load waits for the stroke boundary of step 3 of R225. -/
  | fencing
  /-- The target fences of a partial load drain, and its gated targets power up (R225 steps 3 and 4). -/
  | draining
  /-- Step 6: frame packets. -/
  | frames
  /-- The digest matched; the release waits for a heat boundary. -/
  | matched
  /-- A partial load waits for the armed change of R228. -/
  | held
  /-- The staged release runs. -/
  | release
  /-- A partial load blanks its parcels (R229, R230). -/
  | blanking
  /-- The refusal state of R208. -/
  | refusal
  /-- The WAITING state of R200. -/
  | waiting
  deriving DecidableEq, Repr

/-- A reservation entry (R199). -/
structure XEntry where
  init : Nat
  tgt : Nat
  rd : Nat
  wr : Nat
  at_ : Nat
  deriving DecidableEq, Repr

/-- A running SHA-256 (R194): the eight words, the bytes of the unfinished block, and the bytes hashed. -/
structure Sha where
  h : List (BitVec 32)
  buf : List Nat
  len : Nat
  deriving DecidableEq, Repr

/-- The configuration master of E0 (chapter 07). -/
structure CfgMaster where
  phase : LoadPhase
  partialLoad : Bool
  /-- The source, coded as CFG_SRC.LAST_SRC. -/
  source : Nat
  /-- A personality runs. -/
  running : Bool
  /-- The 256 header bytes of the load. -/
  header : List Nat
  /-- The entries of the load's table. -/
  entries : List XEntry
  /-- The running SHA-256 of the payload. -/
  sha : Sha
  /-- Frame packets of this load written so far. -/
  frames : Nat
  /-- A flash packet failed and is being read once more (R206). -/
  again : Bool
  /-- A stream may send bytes. -/
  streamOpen : Bool
  /-- Position in the image of the next stream byte. -/
  streamPos : Nat
  /-- Stream bytes not yet used. -/
  streamBuf : List Nat
  /-- The next flash setup record. -/
  setupNext : Nat
  /-- CFG_PROG_N is low and its filter has accepted the level (R201). -/
  progLow : Bool
  /-- The 256 header bytes of the full image in force. -/
  inForce : List Nat
  /-- The first load since the package power-on reset has passed step 2 of R204 and R568. -/
  started : Bool
  /-- HOLD was sampled 1 for this partial load (R225). -/
  hold : Bool
  /-- The code that a partial load's blanking will report. -/
  endCode : Nat
  /-- Rails on which this load has enabled a STATIC driver, by die × 24,576 + rail (R86). -/
  statics : List Nat
  /-- MEM_DDR_CFG of the four channels before this load (R454). -/
  ddrs : List Word
  /-- Image-window writes whose completions the master holds back (R204, R213, R224). -/
  owed : List NocReq
  deriving DecidableEq, Repr

/-- The test port (R212): its instruction register, the update stage of the boundary-scan register, and the frame that CFG_READ has
named with the next of its words. -/
structure Tap where
  ir : Nat
  cells : List Bool
  frame : Option Nat
  word : Nat
  deriving DecidableEq, Repr

/-- The levels of the dedicated pins (R200, R211, R551). -/
structure Pins where
  cfgDone : Bool
  cfgErrLow : Bool
  ppsOut : Bool
  rclk0 : Bool
  rclk1 : Bool
  deriving DecidableEq, Repr

/-- A port of a block RAM: DOUT with SBE and DBE, and the value behind its output register (R107). -/
structure BramPort where
  dout : Nat
  sbe : Bool
  dbe : Bool
  next : Nat
  nextSbe : Bool
  nextDbe : Bool
  deriving DecidableEq, Repr

/-- The registers of a multiply block, by stage (R123). -/
structure MultRegs where
  /-- Stage 1: A, B, C, D, PSUB, MSUB, ZSEL. -/
  a : Int
  b : Int
  c : Int
  d : Int
  psub : Bool
  msub : Bool
  zsel : Nat
  /-- Stage 2: the pre-adder result and B. -/
  pre : Int
  b2 : Int
  /-- Stage 3: M. -/
  m : Int
  /-- Stage 4: P. -/
  p : Int
  /-- Stage 5: O and SAT. -/
  o : Int
  sat : Bool
  deriving DecidableEq, Repr

/-- A frame as configuration memory holds it (R244). -/
structure Frame where
  data : BitVec 4096
  synd : Nat
  crc : Nat
  deriving DecidableEq, Repr

/-- Who waits for the response of a tag. -/
inductive Owner where
  /-- An initiator that the command sender plays: its response is reported as sent to it. -/
  | plain
  /-- A fabric initiator port, with its 6-bit user tag (R148). -/
  | user (tag : Nat)
  /-- Word `slot` of a Hammer core's load or atomic through its NoC window (R268, R295), and the PC of the instruction. -/
  | coreLoad (slot pc : Nat)
  /-- A Hammer core's window store (R268). -/
  | coreStore (pc : Nat)
  /-- The tongs of a core (R297). -/
  | tongs
  /-- The management port: 0 WRITE, 1 READ, 2 BURST word (R520). -/
  | mgt (kind : Nat)
  /-- The debug access engine (R322). -/
  | debug
  /-- A host access to BAR0 (R460). -/
  | bar0 (write : Bool)
  deriving DecidableEq, Repr

/-- A tag of an initiator (R156): 0 FREE, 1 ISSUED, 2 STALE; its generation, class, timeout limit and request; the bytes of data
that its response brings. -/
structure TagSt where
  st : Nat
  gen : Nat
  cls : Nat
  limit : Nat
  addr : Nat
  bytes : Nat
  owner : Owner
  /-- The bit with which the request leaves a port die (R129). -/
  low : Bool
  /-- `State.cycles` at the admission (R146). -/
  since : Nat
  deriving DecidableEq, Repr

/-- What a router input holds back for an output (R130, R131). -/
structure WaitFlit where
  flit : Flit
  inPort : Nat
  out : Nat
  deriving DecidableEq, Repr

/-- A record of a home directory (R151): held exclusively or shared, and each holder with its reset count. -/
structure DirRec where
  exclusive : Bool
  holders : List (Nat × Nat)
  deriving DecidableEq, Repr

/-- A request that its home holds until every snoop is answered. -/
structure HomeTxn where
  op : HomeOp
  die : Nat
  /-- Dies whose answer is awaited. -/
  wait : List Nat
  /-- Requests for the line that came meanwhile, with the die that asks, oldest first. -/
  queue : List (HomeOp × Nat)
  deriving DecidableEq, Repr

/-- What the network holds beside buffers and tags: credits, and the data of dirty lines. -/
structure NetSt where
  /-- Credits of a router output that are used, by (router × 8 + output) × 4 + class (R131). -/
  used : Tbl Nat
  /-- The data of lines held M, by die × 2^42 + line, and, 16 × 2^42 above, of lines on their way to their home (R150 to R152). -/
  lines : Tbl (BitVec 512)
  /-- Which line stands at a place of a die cache, by die × 2^19 + place, and in an entry of a home directory, by die × 2^22 + entry (R486). -/
  cells : Tbl Nat
  ents : Tbl Nat
  /-- The lines of `lines` and of the die caches that an uncorrectable read has poisoned, by their keys (R486). -/
  sick : List Nat
  deriving DecidableEq, Repr

/-- Where a result of a Hammer instruction goes (R284). -/
inductive HDest where
  | x (n : Nat)
  | i (n : Nat)
  | b (n : Nat)
  | l (n : Nat)
  | m (n : Nat)
  | amr
  | lc
  | ls
  | le
  | nwb
  | sr
  | cr
  /-- Accumulator `n` as WST, ASV, MVAX, RND read it. -/
  | acc (n : Nat)
  /-- The sticky AV. -/
  | av
  /-- The flags Z, N, C, V. -/
  | flags
  /-- A sticky flag of SR that an instruction set. -/
  | sticky (bit : Nat)
  deriving DecidableEq, Repr

/-- A result on its way: it becomes visible when `left` more instructions have begun to issue (R284). -/
structure HPend where
  left : Nat
  dest : HDest
  value : Nat
  deriving DecidableEq, Repr

/-- A branch and its delay slots: instructions still to issue before it takes effect, its target where it is taken, and whether flags
come back from the shadow then (R287, R304). -/
structure HBranch where
  slots : Nat
  target : Option (BitVec 15)
  restore : Bool
  deriving DecidableEq, Repr

/-- What a stalled core waits for (R268, R296). -/
inductive HStall where
  | none
  /-- Responses to its window loads or its ATM. -/
  | load
  /-- A place among its 16 outstanding window stores. -/
  | store
  | sync
  | twait (n : Nat)
  deriving DecidableEq, Repr

/-- What the words of a window load are for. -/
inductive HCont where
  | none
  /-- X registers, by word. -/
  | x (regs : List Nat)
  /-- A window load into an accumulator. -/
  | wld (a w : Nat)
  /-- A raw slice of an accumulator. -/
  | ald (a k : Nat)
  /-- The six words of a tongs descriptor. -/
  | tng
  deriving DecidableEq, Repr

/-- The descriptor the tongs run: its words, words moved, transfer within the word, the word's bytes so far, whether the
word is being written, and whether every word has moved (R296). -/
structure TongsRun where
  desc : List Nat
  pos : Nat
  sub : Nat
  val : Nat
  wr : Bool
  fin : Bool
  /-- The transfer over the NoC in hand has no answer yet. -/
  sent : Bool
  deriving DecidableEq, Repr

/-- A Hammer core (R265): its registers, and what stands in its pipeline. -/
structure Core where
  x : Tbl HWord
  /-- The accumulators as the accumulation chain sees them (R285). -/
  a : Tbl (BitVec 56)
  /-- The accumulators as later instructions read them (R284). -/
  va : Tbl (BitVec 56)
  /-- I, B, L and M, with AMR, LC, LS and LE (R265). -/
  i : Tbl HWord
  b : Tbl HWord
  l : Tbl HWord
  m : Tbl HWord
  amr : BitVec 16
  lc : BitVec 16
  ls : BitVec 15
  le : BitVec 15
  /-- SR without LD and XR, which follow from the state. -/
  sr : HWord
  /-- CR, NWB and the program counter. -/
  cr : HWord
  nwb : BitVec 23
  pc : BitVec 15
  /-- SR.LD. -/
  ld : Nat
  /-- The active repeat is an RPT. -/
  rpt : Bool
  /-- LC, LS and LE of the outer loop at depth 2 (R291). -/
  outer : BitVec 16 × BitVec 15 × BitVec 15
  /-- The return stack, newest first, at most 16. -/
  stack : List (BitVec 15)
  /-- Return stack entries at and beyond the depth that hold a known value, entry 0 being the oldest. -/
  spare : Tbl (BitVec 15)
  /-- A branch whose delay slots have not ended (R287). -/
  br : Option HBranch
  /-- Results that later instructions will see (R284). -/
  pend : List HPend
  /-- What the last instruction issued wrote at distance 1. -/
  wrote : List HDest
  /-- Sticky flags that hardware has set since the last instruction began to issue (R265). -/
  stuck : HWord
  /-- Results written by instructions still in the pipeline, newest first, each with the issues for which its instruction stays there
  (R326, R329). -/
  recent : List HPend
  /-- Results that frozen instructions write again after a halt (R329). -/
  again : List (HDest × Nat)
  /-- For each of the last three instructions issued, newest first: whether it unsettles a boundary (R302). -/
  hist : List Bool
  /-- The hearth word under reservation (R294). -/
  resv : Option Nat
  /-- Window stores not yet answered. -/
  stores : Nat
  /-- Window stores held, oldest first, each with its program counter. -/
  heldStores : List (NocReq × Nat)
  /-- What the core stalls for. -/
  stall : HStall
  /-- Responses a window load waits for, its words so far, and what they are for. -/
  waits : Nat
  got : Tbl Nat
  /-- Window words of a second slot, which go out when those of the first are there (R281). -/
  rest : List (Nat × HWord)
  /-- What the words of a window load are for. -/
  cont : HCont
  /-- The interrupt shadow: Z, N, C, V, IE in bits 0 to 4 (R304). -/
  shadow : BitVec 5
  /-- The core runs an interrupt handler. -/
  inHandler : Bool
  /-- Line 0 has been taken and its task has not ended. -/
  task : Bool
  /-- A line other than line 0 was taken from a WAIT_STROKE outside a task, which goes on waiting afterwards (R308). -/
  rewait : Bool
  /-- A halt has been requested, with its cause. -/
  halt : Option Nat
  /-- HMR_CORE_STAT.STATE under a halt. -/
  under : Nat
  /-- One more instruction issues, then the core halts (R330). -/
  stepping : Bool
  /-- Tongs descriptors that wait, oldest first. -/
  queue : List (List Nat)
  /-- The transfer that the tongs run. -/
  run : Option TongsRun
  deriving DecidableEq, Repr

/-- A core after a CORE reset, before START_PC is taken (R265, and the fields of CR). -/
def Core.reset : Core where
  x := []
  a := []
  va := []
  i := []
  b := []
  l := []
  m := []
  amr := 0
  lc := 0
  ls := 0
  le := 0
  sr := 0
  cr := 4
  nwb := 0
  pc := 0
  ld := 0
  rpt := false
  outer := (0, 0, 0)
  stack := []
  spare := (List.range 16).map fun e => (e, 0)
  br := none
  pend := []
  wrote := []
  stuck := 0
  recent := []
  again := []
  hist := [false, false, false]
  resv := none
  stores := 0
  heldStores := []
  stall := .none
  waits := 0
  got := []
  rest := []
  cont := .none
  shadow := 0
  inHandler := false
  task := false
  rewait := false
  halt := none
  under := 0
  stepping := false
  queue := []
  run := none

/-- Debug authorisation and the access engine of E0 (R317 to R322). -/
structure Dbg where
  /-- The 16 bytes of the valid nonce, in shift order. -/
  nonce : Option (List Nat)
  /-- Key slots 1 to 3 that DBG_KEYPROG has written; an unlisted slot is blank (R317). -/
  keys : Tbl (BitVec 256)
  /-- A debug access waits; its status, data and address (R321, R322). -/
  pending : Bool
  dstat : Nat
  data : Nat
  addr : Nat
  deriving DecidableEq, Repr

/-- A capture that PRC_CAP_CTRL.REQ has asked for (R241). -/
structure CapReq where
  parcel : Nat
  freeze : Bool
  /-- The flip-flops have been copied; stroke and heat numbers of the copy. -/
  copied : Bool
  stroke : Nat
  heat : Nat
  deriving DecidableEq, Repr

/-- An open repair of a frame (R258). -/
structure Repair where
  frame : Nat
  /-- The action set: 2 REPAIR_HOLD, 3 REPAIR_REPORT. -/
  act : Nat
  /-- The step that comes next: 2 header, 4 packet, 6 written. -/
  step : Nat
  /-- The packet read from the flash. -/
  packet : Frame
  deriving DecidableEq, Repr

/-- The scrubber of a die (chapter 09). -/
structure Scrub where
  /-- 0 off, 1 a normal lap, 2 a priority lap. -/
  mode : Nat
  /-- A load or blanking pauses it. -/
  paused : Bool
  /-- The cause of the priority lap in hand: 0 DIE return, 1 supply dip, 2 command. -/
  cause : Nat
  /-- The cause of a priority lap that waits for a load to end. -/
  waiting : Option Nat
  /-- The open repair. -/
  repair : Option Repair
  deriving DecidableEq, Repr

/-- A staged release in progress (R210, R226, R33): 0 waits for a heat boundary, 1 begun, 2 outputs, 3 write enables, 4 resets
(a full load until CFG_DONE). -/
structure Release where
  kind : RelKind
  stage : Nat
  deriving DecidableEq, Repr

/-- One end of a Weld channel (chapter 06): this die's receive direction and its sender. -/
structure WeldEnd where
  /-- The map records in OTP, oldest first (R165): failing wires in ascending order. -/
  records : List (List Nat)
  /-- The repair map in force (R164). -/
  map : List Nat
  /-- The step of a training (R174): 1 locking, 2 testing, 4 deskew, 5 exchange; 0 none. -/
  step : Nat
  /-- A control group of the exchange has arrived. -/
  heard : Bool
  /-- The group slots since the last control slot (R163). -/
  slot : Nat
  /-- Flits that wait for the channel, in the order they came (R171). -/
  queue : List Flit
  /-- The flit in transmission: its pool, the group that goes next, and its bits (R166, R171). -/
  cur : Option (Nat × Nat × BitVec 1024)
  /-- The receive buffers: the payloads each pool holds, oldest first (R170). -/
  rx : Tbl (List (BitVec 224))
  /-- SEQ of the next new data group. -/
  txSeq : Nat
  /-- Unacknowledged groups, oldest first, and how often each has been replayed (R168, R175). -/
  replay : List (BitVec 256 × Nat)
  /-- Credits of the sixteen pools, and the last counts seen (R170). -/
  credits : List Nat
  seen : List Nat
  /-- SEQ of the last data group accepted in order (R167). -/
  ack : Nat
  /-- A replay is awaited (R169). -/
  nak : Bool
  /-- The SEQ for which one of the two calls for a replay has been acted on (R169). -/
  acted : Option Nat
  /-- Groups freed in each pool since training, modulo 256 (R170). -/
  freed : List Nat
  /-- Shares of H, N and B left in the round, and the network whose turn it is in each class (R171). -/
  shares : List Int
  turns : List Nat
  /-- The window of WLD_CRC_THRESH in hand, its CRC errors, and whether the event has been raised in it. -/
  win : Nat
  winErrs : Nat
  winHit : Bool
  deriving DecidableEq, Repr

/-- A serial lane beside its registers (chapter 12). -/
structure Lane where
  /-- ALLOW and FIXED_RATE as read when the bring-up started (R341). -/
  allow : Nat
  fixed : Nat
  /-- The survey frame it sends: 0 none, 1 CAP, 2 STEP_REQ, 3 STEP_DONE, 4 HOLD (R343). -/
  send : Nat
  /-- The sequence number of the survey frame. -/
  seq : Nat
  /-- Valid CAP frames received in a row, at most 3; a CAP with RX_OK has been sent, and one received (R344). -/
  caps : Nat
  capOut : Bool
  capIn : Bool
  /-- The step in hand: its number and rate; the rate of the last failed step, 15 for none. -/
  step : Nat
  rate : Nat
  failed : Nat
  /-- STEP_REQ sent and received; STEP_DONE sent and received; OK of both ends. -/
  reqOut : Bool
  reqIn : Bool
  doneOut : Bool
  doneIn : Bool
  okOut : Bool
  okIn : Bool
  /-- The lane has been measured since it entered STEP or RECOVER. -/
  measured : Bool
  /-- MEASURE is under way in TEST. -/
  measuring : Bool
  /-- HOLD carries ABORT. -/
  abort : Bool
  /-- A valid frame or page has arrived in this bring-up, or since LAN_SILENT was raised in it (R342). -/
  heard : Bool
  silent : Bool
  /-- The last receiver detect found a termination; detects in a row that found nothing. -/
  term : Bool
  misses : Nat
  /-- Stored adaptation (R353): when, in time-clock cycles, and the die's highest temperature in 0.25 °C. -/
  stored : Option (Nat × Int)
  /-- The rate and FIXED_RATE before a change of the quad that has not locked, and whether the lane was UP (R355). -/
  prev : Option (Nat × Nat × Bool)
  /-- Live PRBS counts, and whether the threshold has been reached (R359). -/
  errs : Nat
  bits : Nat
  hit : Bool
  /-- The checker's last bits of its pattern, the newest first; bits without an error in a row while it is not in SYNC; and bits and errors
  of its window of 1,024 in SYNC (R359). -/
  past : List Bool
  good : Nat
  winBits : Nat
  winErrs : Nat
  /-- A wake burst has been sent from LOWPOWER: the transmitter runs (R353). -/
  awake : Bool
  /-- Clause 73 (R347, R348): the PHY types and FEC bits that the partner's pages have shown, the FEC bits of the own page, and the FEC
  resolved: 0 none, 1 Clause 74, 2 RS-FEC. -/
  types : Nat
  fecIn : Nat
  fecOut : Nat
  fec : Nat
  /-- The running disparity of the code groups it sends is positive (R343). -/
  plus : Bool
  /-- The raw FIFOs, oldest first (R362). -/
  tx : List (BitVec 128)
  rx : List (BitVec 128)
  deriving DecidableEq, Repr

/-- The PTP time counter and the residence counter (R402, R412): seconds, and 2^-28 ns within the second; the residence in 2^-28
ns; and how many cycles of the stroke in hand both have counted. And of the pulse per second (R415): whether the count has reached a whole
second plus COMP in this stroke or the one before, and the time-clock cycle in which PPS_OUT rose last. -/
structure Tod where
  sec : Nat
  sub : Nat
  resid : Nat
  done : Nat
  due : Bool
  rise : Nat
  deriving DecidableEq, Repr

/-- A frame in a packet engine: its bytes with the FCS; the die and port it came in by, and whether by a MAC; its ingress
priority, USER, receive stamp and ingress reading of the residence counter (1/256 ns); its cells, those charged to the shared
pool, and its pool: 0 reserved and shared, 1 headroom, 2 spilled (R391); whether it failed at ingress after a cut-through
start (R396); and the lines of the spill region that hold it (R394). -/
structure QFrame where
  bytes : List Nat
  die : Nat
  port : Nat
  mac : Bool
  prio : Nat
  user : Nat
  stamp : Nat
  resid : Nat
  cells : Nat
  shared : Nat
  pool : Nat
  bad : Bool
  spots : List Nat
  deriving DecidableEq, Repr

/-- A queue of a packet engine: its frames, oldest first; the credit of a class X queue, and whether its head has been counted as
over it (R387). -/
structure PktQueue where
  frames : List QFrame
  credit : Nat
  passed : Bool
  deriving DecidableEq, Repr

/-- An entry of the exact-match table (R377). -/
structure LkpEntry where
  key : Nat
  result : Nat
  hit : Bool
  deriving DecidableEq, Repr

/-- A port of a packet engine: whether its MAC merge is verified (R370), and its PCS reports block lock (R366); the pause times in force by group, in quanta (R372); the
group and the queue of each group whose turn it is, with the deficits (R386); the class X queue last served in each group; the bytes of
the preemptable frame last put on the line, and where it was last interrupted (R369); and the frames dropped at the MAC, its frame statistics (R368). -/
structure PktPort where
  verified : Bool
  pcs : Bool
  pause : Tbl Nat
  turn : Nat
  deficits : Tbl Nat
  qturn : Tbl Nat
  qdeficits : Tbl Nat
  xturn : Tbl Nat
  line : Nat
  cut : Nat
  drops : Nat
  deriving DecidableEq, Repr

/-- A frame that waits for the compression engine, with its queue and its profile (R424, R429). -/
structure CmpFrame where
  frame : QFrame
  queue : Nat
  prof : Nat
  deriving DecidableEq, Repr

/-- A compression job: the five words posted and, once it has started, the two words of its profile (R430, R424). -/
structure CmpJob where
  post : List Nat
  cfg : Nat
  deriving DecidableEq, Repr

/-- What a packet engine holds beside its registers, table and queues: frames stored for the other port die (with their queue),
whether PKT_X_OVER has been raised in this stroke, the next sequence number of each delivery ring, the frames that wait for the
compression engine, and its jobs, the running one first. -/
structure PktDie where
  moves : List (QFrame × Nat)
  xOver : Bool
  seqs : Tbl Nat
  cmpIn : List CmpFrame
  jobs : List CmpJob
  jobRuns : Bool
  deriving DecidableEq, Repr

/-- A CXL port beside its registers (chapter 16): requests that its device has not answered, whether a planned removal drains,
whether a CXL.io access is under way, and whether the home's walk of a detached window runs. -/
structure CxlPort where
  waiting : List NocReq
  drains : Bool
  io : Bool
  walks : Bool
  deriving DecidableEq, Repr

/-- A bank of a DDR5 channel (R450): the row of its last access, whether its page is open, and its last four accesses, the newest in bit
0, a 1 for a miss. -/
structure DdrBank where
  row : Option Nat
  isOpen : Bool
  hist : Nat
  deriving DecidableEq, Repr

/-- A DDR5 channel beside its registers: requests held in self-refresh, with what their reads will find; whether INIT and SR_EXIT are under way; the ranks that
report a high temperature (R451); the kind of the training step in hand; and the latched counts and failing DQ of the ten lanes. -/
structure DdrCh where
  held : List (NocReq × MemCheck)
  init : Bool
  leaves : Bool
  hot : List Nat
  step : Nat
  errors : Nat
  fails : Nat
  /-- Its banks, by rank, bank, bank group and subchannel (R447, R450). -/
  banks : Tbl DdrBank
  deriving DecidableEq, Repr

/-- A region of a protection engine as it was defined (R475, R476). -/
structure ProtRegion where
  base : Nat
  lg : Nat
  integ : Bool
  deriving DecidableEq, Repr

/-- A protection engine (chapter 17): lines dirty in its buffer; minor counters by line; major counters by region × 2^32 + group;
counters of counter lines and nodes in their parents, by (region × 16 + level) × 2^32 + index; the nodes (0 a group's counter line)
under which groups are locked, and those that failed; regions poisoned whole; whether a directory walk runs (R474); the dirty line in each
place of the buffer; and the writes that wait for room in it (R479). -/
structure Prot where
  dirty : List Nat
  minors : Tbl Nat
  majors : Tbl Nat
  nodes : Tbl Nat
  locked : List (Nat × Nat × Nat)
  failed : List (Nat × Nat × Nat)
  whole : List Nat
  walks : Bool
  cells : Tbl Nat
  waiting : List (NocReq × MemCheck)
  clean : List Nat
  deriving DecidableEq, Repr

/-- A host ring beside its registers (R461 to R464): its next sequence number, and whether an interrupt waits for HOLDOFF. -/
structure HostRing where
  seq : Nat
  waits : Bool
  deriving DecidableEq, Repr


/-- The datum PLL, its sources and its switcher (chapter 18). -/
structure Clk where
  /-- How far the package has started: 0 no island, 1 the island runs, 2 the package power-on reset is released (R516). -/
  power : Nat
  /-- The PLL has locked since the last package power-on reset (R495). -/
  locked : Bool
  /-- A switch made during a coast has completed, and the PLL relocks (R497). -/
  relocks : Bool
  /-- The switch in progress: its target, and whether it is automatic and forced (R570). -/
  switch : Option (Nat × Bool × Bool)
  /-- The SWITCH held while one is in progress (R570). -/
  held : Option Nat
  /-- The active source has tripped during the switch in progress (R570). -/
  tripped : Bool
  /-- Windows that have passed since the qualification of a source started (R491). -/
  windows : Tbl Nat
  /-- What a temperature has raised and not yet left: die × 2, plus 1 for PWR_TJ_MAX (R517). -/
  hot : List Nat
  /-- The fences of the domains with endpoints that are gated or being gated, by die × 16 + domain: 1 DRAINING, 2 CLOSED (R511). -/
  fences : Tbl Nat
  /-- The fabric dies, by index, whose regulator has not yet reported 0.75 V good after a package power-on reset (R568). -/
  volt : List Nat
  deriving DecidableEq, Repr

/-- The armed change beside its registers, and the lock to network time (chapter 02). -/
structure Units where
  /-- Package units that have not reported, and that have failed, in the change being applied (R63). -/
  awaits : List Nat
  failed : List Nat
  /-- What a unit goes back to where it fails, by package unit: LEVEL + 4 × STATE for slot 0, STK_TIMING for slot 1. -/
  undo : Tbl Nat
  /-- Lanes whose PLL has not locked since the commit of their quad, by die × 48 + lane (R355). -/
  plls : List Nat
  /-- A CANCEL came at or after the commit point (R65). -/
  late : Bool
  /-- Dies that have raised PWR_NEIGHBOUR_LIMIT in this arming (R509). -/
  limited : List Nat
  /-- The generator follows network time (R55, R56), and the stroke in hand: 0 as PERIOD says, 1 one cycle longer, 2 shorter. -/
  slews : Bool
  slip : Nat
  /-- Heat boundaries since package power-on reset, modulo 2^32 (R52). -/
  heats : Nat
  deriving DecidableEq, Repr

/-- One end of a seam group (R181, R182, R186). -/
structure Seam where
  cfg : Config.SeamCfg
  /-- The launch registers of the wires that this end sends. -/
  launch : BitVec 128
  /-- What a MESO group has launched and not yet captured here, oldest first. -/
  phase : List (BitVec 128)
  /-- What the launch registers of the other end held at the last capture edge of an ASYNC group. -/
  seen : BitVec 128
  /-- The capture registers of the wires that this end receives; they hold while the group presents clamp values. -/
  capture : BitVec 128
  deriving DecidableEq, Repr

/-- Routing, clock nets and pins of the fabric dies (chapter 03; R181 to R187, R220 to R223, R550). -/
structure Fab where
  /-- What each encoded multiplexer selects, by die × 2^48 + `Node.code`; an unlisted one selects nothing (R82). -/
  muxes : Tbl (Config.Node × Config.Sig)
  /-- The net of each clock of a switch box, by ((die × 88 + row) × 120 + column) × 16 + slot: net + 1 (R96). -/
  tileClks : Tbl Nat
  /-- The source of each global net, by die × 32 + net, and of each regional net, by (die × 16 + parcel) × 12 + net (R94, R95). -/
  globals : Tbl Nat
  regionals : Tbl Nat
  /-- Clock nets and clock entry points that are high, by the keys of `clkKey`. -/
  high : List Nat
  /-- Rising edges of a global net, modulo 8, for its dividers (R95). -/
  rises : Tbl Nat
  /-- The enable code of a rail driver, by (die × 24,576 + rail) × 32 + tile row (R85). -/
  drivers : Tbl Nat
  /-- What the outside presents: pins by `pinKey`, port signals by `portSigKey`; an unlisted pin is driven by nobody. -/
  outside : Tbl Bool
  /-- Pulls of the image, by `pinKey`. -/
  pulls : Tbl Config.PinPull
  /-- The clamp codes that a parcel's frames hold, by die × 16 + parcel: each signal by its `Node.code` (R197, R221). -/
  codes : Tbl (List (Nat × Nat))
  /-- What the outward signals of a parcel carried before its fence rose, by die × 16 + parcel: the codes of those that were 1 (R221). -/
  carried : Tbl (List Nat)
  /-- The ends of the seam groups, by (die × 16 + edge) × 128 + group. -/
  seams : Tbl Seam
  /-- The clock of each fabric port, by die × 256 + port: net + 1, nets 0 to 31 global and 32 to 43 regional (R147). -/
  portClks : Tbl Nat
  deriving DecidableEq, Repr

/-- The whole MO880, as plain data. -/
structure State where
  /-- The commands that wait, first in, first out (the block's queue). -/
  pending : List Instr
  /-- The registers that have been written since their reset; an unlisted one reads its reset value (R12, R15). -/
  regs : Tbl Word
  /-- The bytes of the NoC physical address space (R42 to R44). -/
  mem : Mem
  /-- The 64-byte lines (address / 64) that hold poison (R153). -/
  poison : List Nat
  /-- The model's own counter of open values taken so far; not the spec's (DESIGN CHOICE, log entry 2). -/
  fresh : Nat
  /-- The word that the last read command returned. -/
  answer : Word
  /-- The response status of R137 that the last access completed with. -/
  answerStatus : Nat
  /-- The field book. -/
  book : Book
  /-- The management port. -/
  mgt : Mgt
  /-- The 16-entry event FIFO of each parcel's event port: event number and data (R530). -/
  fpFifo : Tbl (List (Nat × Nat))
  /-- Events limited to one a millisecond: the time-clock cycle at which the limit ends. -/
  evtOnce : Tbl Nat
  /-- Time-clock cycles that strokes have counted out. -/
  cycles : Nat
  /-- The PCIe endpoint. -/
  pcie : Pcie
  /-- What the part has sent out, newest first: the model's own record. -/
  sent : List Emit
  /-- The bandwidth monitors, by die × 32 + monitor. -/
  bw : Tbl BwMon
  /-- The latched high parts and chained halves of the performance counters (R533). -/
  pmcLatch : Tbl Nat
  /-- The calibration copies (R545, R546). -/
  cal : Cal
  /-- The configuration master. -/
  cfg : CfgMaster
  /-- The test port: IDCODE is selected until an instruction is (PRESUMED, log entry 24). -/
  tap : Tap
  /-- The dedicated output pins. -/
  pins : Pins
  /-- Configuration memory, by die × 65,536 + frame number (R195, R244). -/
  frames : Tbl Frame
  /-- How each cluster is set, by die × 270,336 + cluster. -/
  clusters : Tbl Config.ClusterCfg
  /-- Flip-flops of a cluster: bit 2k is QA and bit 2k + 1 is QB of cell k. An unlisted cluster holds INIT (R99). -/
  ffs : Tbl (BitVec 16)
  /-- Release stage of a parcel, by die × 16 + parcel: 0 GSR asserted and all held, 1 outputs, 2 write enables, 3 resets (R210). -/
  relStage : Tbl Nat
  /-- Parcels whose clock gates a capture keeps closed (R241). -/
  frozen : List Nat
  /-- How each block RAM is set, by die × 2,112 + block. -/
  bramCfg : Tbl Config.BramCfg
  /-- Internal words of the block RAMs, by (die × 2,112 + block) × 1,024 + word. -/
  bram : Tbl Nat
  /-- Ports of the block RAMs, by (die × 2,112 + block) × 2 + port. -/
  bramPorts : Tbl BramPort
  /-- How each multiply block is set, by die × 4,224 + block. -/
  multCfg : Tbl Config.MultCfg
  /-- Registers of the multiply blocks, by die × 4,224 + block. -/
  mults : Tbl MultRegs
  /-- Keepers of the shared column rails, by die × 24,576 + rail (R88). -/
  railKeep : Tbl Nat
  /-- Stored check bits that do not match their word, by ECC key; 256 is the poison pattern. An unlisted word matches (R486). -/
  chk : Tbl Nat
  /-- Upset bits of the words of groups 1, 9, 10 and 11, whose contents stand elsewhere in the state, by ECC key. -/
  eccRaw : Tbl Nat
  /-- The next word of each group's scrubber, and the lap's start, by die × 16 + group (R488). -/
  eccScrub : Tbl Nat
  /-- The tags of every initiator, by identity × 1,024 + tag (R156). -/
  tags : Tbl TagSt
  /-- Reads, writes and atomics that each reservation entry has admitted in this stroke, by die × 256 + entry (R144). -/
  xUsed : Tbl (Nat × Nat × Nat)
  /-- Class X requests that wait for the pacer, by initiator identity (R144). -/
  xWait : Tbl (List (NocReq × Owner))
  /-- Class X requests held to the next stroke, by initiator identity (R144). -/
  xHeld : Tbl (List (NocReq × Owner))
  /-- Flits that wait in a router, by ((die × 4 + network) × 8 + row) × 8 + column (R131). -/
  routers : Tbl (List WaitFlit)
  /-- Mode of a fabric port, by die × 256 + parcel × 16 + port: 0 OFF, 1 INITIATOR, 2 TARGET, 3 BOTH (R147). -/
  portMode : Tbl Nat
  /-- Requests presented to the logic of a target port, by (die × 256 + port of the die) × 64 + port tag (R148). -/
  portTags : Tbl NocReq
  /-- Requests that wait in the crossing FIFO of a target port (R149). -/
  portFifo : Tbl (List NocReq)
  /-- Lines of the die caches, by die × 2^42 + line: 1 S, 2 E, 3 M; an unlisted line is not held (R150). -/
  dcache : Tbl Nat
  /-- The home directories, by line (R151). -/
  dir : Tbl DirRec
  /-- DIE resets of each die, as the directories count them (R151). -/
  dieResets : Tbl Nat
  /-- Requests that wait for snoop answers at their home, by line. -/
  homeTxn : Tbl HomeTxn
  /-- The Hammer cores, by die × 8 + core; an unlisted core is as its reset leaves it. -/
  cores : Tbl Core
  /-- TNGS.DONE of each core's tongs, modulo 256, by die × 8 + core (R298). -/
  tngDone : Tbl Nat
  /-- Routing, clock nets, seam registers and pins of the fabric dies. -/
  fab : Fab
  /-- Credits and dirty lines of the network. -/
  net : NetSt
  /-- Shares of H, N and B left in the round of a router output, by router key × 8 + port (R131). -/
  rtrShare : Tbl (List Nat)
  /-- Debug authorisation and debug access. -/
  dbg : Dbg
  /-- Requests that wait for the fill of a die-cache line, by die × 2^42 + line (R150). -/
  dcWait : Tbl (List NocReq)
  /-- Power step of a parcel, by die × 16 + parcel: 1 power-down asked, 2 draining, 3 held, 4 powering up, 5 supply good, 6 waits for a heat boundary (R235). -/
  prcStep : Tbl Nat
  /-- Parcels that return BLANK at their next power-up (R236, R256). -/
  prcBlank : List Nat
  /-- Parcels whose fence drains for a hold (R256). -/
  prcHold : List Nat
  /-- Captures asked for or being copied, by die (R241). -/
  capWait : Tbl CapReq
  /-- Captured flip-flops of a parcel, by die × 16 + parcel: clusters as in `ffs`. -/
  capture : Tbl (Tbl (BitVec 16))
  /-- Parcels whose block RAM contents are defined (R117). -/
  bramDef : List Nat
  /-- The scrubbers, by die. -/
  scrubs : Tbl Scrub
  /-- Upsets of the three copies of SCR_CTRL, SCR_ACTION and SCR_LAP_LIMIT, by die × 3 + register: what each copy differs in from the register (R261). -/
  scrCopy : Tbl (List Word)
  /-- The staged releases in progress. -/
  releases : List Release
  /-- Where a die is in its return (R33): 1 held in reset, 2 channels training, 3 priority lap, 4 lap complete, 5 releasing; 6 held by its supply. -/
  dieStep : Tbl Nat
  /-- CLAMP_DEF of the image that wrote a parcel's frames, by die × 16 + parcel (R197). -/
  clampDef : Tbl Nat
  /-- The clamp codes in force of a parcel, by die × 16 + parcel: the default, and the code of each signal by its `Node.code` (R222). -/
  clamps : Tbl (Nat × List (Nat × Nat))
  /-- The ends of the Weld channels, by die × 128 + channel. -/
  welds : Tbl WeldEnd
  /-- What the serial lanes hold beside their registers, by die × 48 + lane. -/
  lanes : Tbl Lane
  /-- Mode of a MAC block, by die × 12 + block (R366). -/
  macMode : Tbl Nat
  /-- Network time (R402). -/
  tod : Tod
  /-- The exact-match tables, by die × 2^19 + way × 65,536 + bucket; way 4 is the stash (R376). -/
  lkp : Tbl LkpEntry
  /-- The queues, by die × 65,536 + queue. -/
  queues : Tbl PktQueue
  /-- The ports of the packet engines, by die × 48 + port. -/
  ports : Tbl PktPort
  /-- The packet engines, by die. -/
  pkt : Tbl PktDie
  /-- The CXL ports, by number. -/
  cxl : Tbl CxlPort
  /-- The DDR5 channels, by number. -/
  ddr : Tbl DdrCh
  /-- The regions of the protection engines, by engine × 16 + region. -/
  regions : Tbl ProtRegion
  /-- The protection engines, by number (R467). -/
  prots : Tbl Prot
  /-- The key store: the keys of the protection engines, by engine × 3 + key: 0 data, 1 tweak, 2 tag (R468). -/
  keyStore : Tbl (BitVec 256)
  /-- The host rings, by number. -/
  rings : Tbl HostRing
  /-- Lines of external memory whose contents are not defined: first and one past the last (R452 to R454). -/
  openMem : List (Nat × Nat)
  /-- The rights vector stored with a die-cache line, by die × 2^42 + line (R473). -/
  dcRights : Tbl Nat
  /-- The datum PLL and its switcher. -/
  clk : Clk
  /-- The armed change and the stroke generator. -/
  units : Units
  /-- The instruction in hand has met a gated hearth (R511); false between steps. -/
  hearthHit : Bool
  deriving DecidableEq, Repr

/-- Put a value into the field `pending`. -/
def State.setPending (s : State) (v : List Instr) : State := { s with pending := v }
/-- Put a value into the field `regs`. -/
def State.setRegs (s : State) (v : Tbl Word) : State := { s with regs := v }
/-- Put a value into the field `mem`. -/
def State.setMem (s : State) (v : Mem) : State := { s with mem := v }
/-- Put a value into the field `poison`. -/
def State.setPoison (s : State) (v : List Nat) : State := { s with poison := v }
/-- Put a value into the field `fresh`. -/
def State.setFresh (s : State) (v : Nat) : State := { s with fresh := v }
/-- Put a value into the field `answer`. -/
def State.setAnswer (s : State) (v : Word) : State := { s with answer := v }
/-- Put a value into the field `answerStatus`. -/
def State.setAnswerStatus (s : State) (v : Nat) : State := { s with answerStatus := v }
/-- Put a value into the field `book`. -/
def State.setBook (s : State) (v : Book) : State := { s with book := v }
/-- Put a value into the field `mgt`. -/
def State.setMgt (s : State) (v : Mgt) : State := { s with mgt := v }
/-- Put a value into the field `fpFifo`. -/
def State.setFpFifo (s : State) (v : Tbl (List (Nat × Nat))) : State := { s with fpFifo := v }
/-- Put a value into the field `evtOnce`. -/
def State.setEvtOnce (s : State) (v : Tbl Nat) : State := { s with evtOnce := v }
/-- Put a value into the field `cycles`. -/
def State.setCycles (s : State) (v : Nat) : State := { s with cycles := v }
/-- Put a value into the field `pcie`. -/
def State.setPcie (s : State) (v : Pcie) : State := { s with pcie := v }
/-- Put a value into the field `sent`. -/
def State.setSent (s : State) (v : List Emit) : State := { s with sent := v }
/-- Put a value into the field `bw`. -/
def State.setBw (s : State) (v : Tbl BwMon) : State := { s with bw := v }
/-- Put a value into the field `pmcLatch`. -/
def State.setPmcLatch (s : State) (v : Tbl Nat) : State := { s with pmcLatch := v }
/-- Put a value into the field `cal`. -/
def State.setCal (s : State) (v : Cal) : State := { s with cal := v }
/-- Put a value into the field `cfg`. -/
def State.setCfg (s : State) (v : CfgMaster) : State := { s with cfg := v }
/-- Put a value into the field `tap`. -/
def State.setTap (s : State) (v : Tap) : State := { s with tap := v }
/-- Put a value into the field `pins`. -/
def State.setPins (s : State) (v : Pins) : State := { s with pins := v }
/-- Put a value into the field `frames`. -/
def State.setFrames (s : State) (v : Tbl Frame) : State := { s with frames := v }
/-- Put a value into the field `clusters`. -/
def State.setClusters (s : State) (v : Tbl Config.ClusterCfg) : State := { s with clusters := v }
/-- Put a value into the field `ffs`. -/
def State.setFfs (s : State) (v : Tbl (BitVec 16)) : State := { s with ffs := v }
/-- Put a value into the field `relStage`. -/
def State.setRelStage (s : State) (v : Tbl Nat) : State := { s with relStage := v }
/-- Put a value into the field `frozen`. -/
def State.setFrozen (s : State) (v : List Nat) : State := { s with frozen := v }
/-- Put a value into the field `bramCfg`. -/
def State.setBramCfg (s : State) (v : Tbl Config.BramCfg) : State := { s with bramCfg := v }
/-- Put a value into the field `bram`. -/
def State.setBram (s : State) (v : Tbl Nat) : State := { s with bram := v }
/-- Put a value into the field `bramPorts`. -/
def State.setBramPorts (s : State) (v : Tbl BramPort) : State := { s with bramPorts := v }
/-- Put a value into the field `multCfg`. -/
def State.setMultCfg (s : State) (v : Tbl Config.MultCfg) : State := { s with multCfg := v }
/-- Put a value into the field `mults`. -/
def State.setMults (s : State) (v : Tbl MultRegs) : State := { s with mults := v }
/-- Put a value into the field `railKeep`. -/
def State.setRailKeep (s : State) (v : Tbl Nat) : State := { s with railKeep := v }
/-- Put a value into the field `chk`. -/
def State.setChk (s : State) (v : Tbl Nat) : State := { s with chk := v }
/-- Put a value into the field `eccRaw`. -/
def State.setEccRaw (s : State) (v : Tbl Nat) : State := { s with eccRaw := v }
/-- Put a value into the field `eccScrub`. -/
def State.setEccScrub (s : State) (v : Tbl Nat) : State := { s with eccScrub := v }
/-- Put a value into the field `tags`. -/
def State.setTags (s : State) (v : Tbl TagSt) : State := { s with tags := v }
/-- Put a value into the field `xUsed`. -/
def State.setXUsed (s : State) (v : Tbl (Nat × Nat × Nat)) : State := { s with xUsed := v }
/-- Put a value into the field `xWait`. -/
def State.setXWait (s : State) (v : Tbl (List (NocReq × Owner))) : State := { s with xWait := v }
/-- Put a value into the field `xHeld`. -/
def State.setXHeld (s : State) (v : Tbl (List (NocReq × Owner))) : State := { s with xHeld := v }
/-- Put a value into the field `routers`. -/
def State.setRouters (s : State) (v : Tbl (List WaitFlit)) : State := { s with routers := v }
/-- Put a value into the field `portMode`. -/
def State.setPortMode (s : State) (v : Tbl Nat) : State := { s with portMode := v }
/-- Put a value into the field `portTags`. -/
def State.setPortTags (s : State) (v : Tbl NocReq) : State := { s with portTags := v }
/-- Put a value into the field `portFifo`. -/
def State.setPortFifo (s : State) (v : Tbl (List NocReq)) : State := { s with portFifo := v }
/-- Put a value into the field `dcache`. -/
def State.setDcache (s : State) (v : Tbl Nat) : State := { s with dcache := v }
/-- Put a value into the field `dir`. -/
def State.setDir (s : State) (v : Tbl DirRec) : State := { s with dir := v }
/-- Put a value into the field `dieResets`. -/
def State.setDieResets (s : State) (v : Tbl Nat) : State := { s with dieResets := v }
/-- Put a value into the field `homeTxn`. -/
def State.setHomeTxn (s : State) (v : Tbl HomeTxn) : State := { s with homeTxn := v }
/-- Put a value into the field `cores`. -/
def State.setCores (s : State) (v : Tbl Core) : State := { s with cores := v }
/-- Put a value into the field `tngDone`. -/
def State.setTngDone (s : State) (v : Tbl Nat) : State := { s with tngDone := v }
/-- Put a value into the field `fab`. -/
def State.setFab (s : State) (v : Fab) : State := { s with fab := v }
/-- Put a value into the field `net`. -/
def State.setNet (s : State) (v : NetSt) : State := { s with net := v }
/-- Put a value into the field `rtrShare`. -/
def State.setRtrShare (s : State) (v : Tbl (List Nat)) : State := { s with rtrShare := v }
/-- Put a value into the field `dbg`. -/
def State.setDbg (s : State) (v : Dbg) : State := { s with dbg := v }
/-- Put a value into the field `dcWait`. -/
def State.setDcWait (s : State) (v : Tbl (List NocReq)) : State := { s with dcWait := v }
/-- Put a value into the field `prcStep`. -/
def State.setPrcStep (s : State) (v : Tbl Nat) : State := { s with prcStep := v }
/-- Put a value into the field `prcBlank`. -/
def State.setPrcBlank (s : State) (v : List Nat) : State := { s with prcBlank := v }
/-- Put a value into the field `prcHold`. -/
def State.setPrcHold (s : State) (v : List Nat) : State := { s with prcHold := v }
/-- Put a value into the field `capWait`. -/
def State.setCapWait (s : State) (v : Tbl CapReq) : State := { s with capWait := v }
/-- Put a value into the field `capture`. -/
def State.setCapture (s : State) (v : Tbl (Tbl (BitVec 16))) : State := { s with capture := v }
/-- Put a value into the field `bramDef`. -/
def State.setBramDef (s : State) (v : List Nat) : State := { s with bramDef := v }
/-- Put a value into the field `scrubs`. -/
def State.setScrubs (s : State) (v : Tbl Scrub) : State := { s with scrubs := v }
/-- Put a value into the field `scrCopy`. -/
def State.setScrCopy (s : State) (v : Tbl (List Word)) : State := { s with scrCopy := v }
/-- Put a value into the field `releases`. -/
def State.setReleases (s : State) (v : List Release) : State := { s with releases := v }
/-- Put a value into the field `dieStep`. -/
def State.setDieStep (s : State) (v : Tbl Nat) : State := { s with dieStep := v }
/-- Put a value into the field `clampDef`. -/
def State.setClampDef (s : State) (v : Tbl Nat) : State := { s with clampDef := v }
/-- Put a value into the field `clamps`. -/
def State.setClamps (s : State) (v : Tbl (Nat × List (Nat × Nat))) : State := { s with clamps := v }
/-- Put a value into the field `welds`. -/
def State.setWelds (s : State) (v : Tbl WeldEnd) : State := { s with welds := v }
/-- Put a value into the field `lanes`. -/
def State.setLanes (s : State) (v : Tbl Lane) : State := { s with lanes := v }
/-- Put a value into the field `macMode`. -/
def State.setMacMode (s : State) (v : Tbl Nat) : State := { s with macMode := v }
/-- Put a value into the field `tod`. -/
def State.setTod (s : State) (v : Tod) : State := { s with tod := v }
/-- Put a value into the field `lkp`. -/
def State.setLkp (s : State) (v : Tbl LkpEntry) : State := { s with lkp := v }
/-- Put a value into the field `queues`. -/
def State.setQueues (s : State) (v : Tbl PktQueue) : State := { s with queues := v }
/-- Put a value into the field `ports`. -/
def State.setPorts (s : State) (v : Tbl PktPort) : State := { s with ports := v }
/-- Put a value into the field `pkt`. -/
def State.setPkt (s : State) (v : Tbl PktDie) : State := { s with pkt := v }
/-- Put a value into the field `cxl`. -/
def State.setCxl (s : State) (v : Tbl CxlPort) : State := { s with cxl := v }
/-- Put a value into the field `ddr`. -/
def State.setDdr (s : State) (v : Tbl DdrCh) : State := { s with ddr := v }
/-- Put a value into the field `regions`. -/
def State.setRegions (s : State) (v : Tbl ProtRegion) : State := { s with regions := v }
/-- Put a value into the field `prots`. -/
def State.setProts (s : State) (v : Tbl Prot) : State := { s with prots := v }
/-- Put a value into the field `keyStore`. -/
def State.setKeyStore (s : State) (v : Tbl (BitVec 256)) : State := { s with keyStore := v }
/-- Put a value into the field `rings`. -/
def State.setRings (s : State) (v : Tbl HostRing) : State := { s with rings := v }
/-- Put a value into the field `openMem`. -/
def State.setOpenMem (s : State) (v : List (Nat × Nat)) : State := { s with openMem := v }
/-- Put a value into the field `dcRights`. -/
def State.setDcRights (s : State) (v : Tbl Nat) : State := { s with dcRights := v }
/-- Put a value into the field `clk`. -/
def State.setClk (s : State) (v : Clk) : State := { s with clk := v }
/-- Put a value into the field `units`. -/
def State.setUnits (s : State) (v : Units) : State := { s with units := v }
/-- Put a value into the field `hearthHit`. -/
def State.setHearthHit (s : State) (v : Bool) : State := { s with hearthHit := v }

/-- The MO880 as a cold package power-on reset leaves it, before the management island has started: every register at the
value of its table (an unlisted register reads its reset value), memory with nothing listed, no command waiting. -/
def State.reset : State where
  pending := []
  regs := []
  mem := []
  poison := []
  fresh := 0
  answer := 0
  answerStatus := 0
  book := ⟨[], [], 0, 0, 1, 0, [], none, none, 0, []⟩
  mgt := ⟨false, false, false, 0, 0, false, false, 0, 0⟩
  fpFifo := []
  evtOnce := []
  cycles := 0
  pcie := ⟨false, [], []⟩
  sent := []
  bw := []
  pmcLatch := []
  cal := ⟨0, 0, true, 0⟩
  cfg := ⟨.idle, false, 0, false, [], [], ⟨[], [], 0⟩, 0, false, false, 0, [], 0, false, [], false, false, 0, [], [], []⟩
  tap := ⟨1, [], none, 0⟩
  pins := ⟨false, false, false, false, false⟩
  frames := []
  clusters := []
  ffs := []
  relStage := []
  frozen := []
  bramCfg := []
  bram := []
  bramPorts := []
  multCfg := []
  mults := []
  railKeep := []
  chk := []
  eccRaw := []
  eccScrub := []
  tags := []
  xUsed := []
  xWait := []
  xHeld := []
  routers := []
  portMode := []
  portTags := []
  portFifo := []
  dcache := []
  dir := []
  dieResets := []
  homeTxn := []
  cores := []
  tngDone := []
  fab := ⟨[], [], [], [], [], [], [], [], [], [], [], [], []⟩
  net := ⟨[], [], [], [], []⟩
  rtrShare := []
  dbg := ⟨none, [], false, 0, 0, 0⟩
  dcWait := []
  prcStep := []
  prcBlank := []
  prcHold := []
  capWait := []
  capture := []
  bramDef := []
  scrubs := []
  scrCopy := []
  releases := []
  dieStep := []
  clampDef := []
  clamps := []
  welds := []
  lanes := []
  macMode := []
  tod := ⟨0, 0, 0, 0, false, 0⟩
  lkp := []
  queues := []
  ports := []
  pkt := []
  cxl := []
  ddr := []
  regions := []
  prots := []
  keyStore := []
  rings := []
  openMem := [(0, 0x204000000000 / 64)]
  dcRights := []
  clk := ⟨0, false, false, none, none, false, [], [], [], []⟩
  units := ⟨[], [], [], [], false, [], false, 0, 0⟩
  hearthHit := false

end Sys2Proof.Machine
end

