-- ==== Sys2Proof/Machine/Ops.lean ====
section
/-! DEFINITION. The named operations over registers, memory, open values, events, counters and the field book. -/

namespace Sys2Proof.Machine

/-- Which register is meant: its die, the copy of its unit (core, lane, port), its element in a run, and the unit an index
register selects. -/
structure At where
  die : Die
  hw : Nat
  elem : Nat
  sel : Nat
  deriving DecidableEq, Repr

/-- A register that its die has once. -/
def atDie (d : Die) : At := ⟨d, 0, 0, 0⟩

/-- The copy of a register for one core, lane, quad or port. -/
def atUnit (d : Die) (n : Nat) : At := ⟨d, n, 0, 0⟩

/-- An element of a run of registers. -/
def atElem (d : Die) (e : Nat) : At := ⟨d, 0, e, 0⟩

/-- A register that an index register selects. -/
def atSel (d : Die) (i : Nat) : At := ⟨d, 0, 0, i⟩

/-- The place as a number. -/
def At.code (a : At) : Nat := ((a.sel * 16 + a.elem) * 64 + a.hw) * 8 + a.die.idx

/-- The key of a register in the register table. -/
def regKey (r : Reg) (a : At) : Nat := r.ctorIdx * 2 ^ 44 + a.code

/-- The stepping code of a die: A0 on the port dies, A1 or B0 on a fabric die (R25, R26). -/
def stepping (d : Die) : Nat := if d.isPort then 0 else if Config.fabricIsB0 d.idx then 4 else 1

/-- Which endpoints sit on a die (R133), as the bits TGT (1) and INIT (2) of NOC_EP_STAT; a fabric port's follow its mode. -/
def epKinds (d : Die) (idx : Nat) : Nat :=
  let row := idx / 64 % 8
  let col := idx / 8 % 8
  match d.isFab, idx % 8 with
  | true, 4 => 3
  | true, 5 => if row = 4 then 3 else 0
  | true, 6 => if row = 3 then 1 else 0
  | true, 7 => if row = 0 ∧ col = 0 then 3 else 0
  | true, _ => 0
  | false, 0 => if col < 4 then 1 else 0
  | false, 1 => if col = 1 then 2 else 0
  | false, 2 => if col = 0 ∧ (row = 1 ∨ row = 2 ∨ row = 5 ∨ row = 6) then 1 else 0
  | false, 3 => if col = 3 ∧ row = 3 then 2 else 0
  | false, 4 => if col = 3 ∧ row = 4 ∧ d = .e0 then 3 else 0
  | false, 7 => if col = 3 ∧ row = 0 then 3 else 0
  | false, _ => 0

/-- The nominal voltage of a rail in mV (R512): for a bank the default, for a fabric die that of PL1. -/
def railNominal (rail : Nat) : Nat :=
  if rail = 0 then 3300
  else if rail < 9 then 750
  else if rail = 9 then 800
  else if rail = 10 then 850
  else if rail = 11 ∨ rail = 13 then 900
  else if rail = 12 ∨ rail = 14 then 1200
  else if rail < 17 then 1100
  else if rail < 21 then 1800
  else 1000

/-- The reset value of a register: its fields' reset values, and the fused values (chapter 01) and the values that depend on
the unit (chapters 18 and 19). A field whose table says "image" or gives none is 0 (DESIGN CHOICE, log entries 3 and 4). -/
def Reg.resetWord (r : Reg) (a : At) : Word :=
  match r with
  | .DIE_ID => BitVec.ofNat 32 (0x08800100 + (if a.die = .e0 then 0 else if a.die = .e1 then 1 else 2) * 2 ^ 12 + a.die.idx)
  | .DIE_STEP => BitVec.ofNat 32 (stepping a.die)
  | .DIE_UID_LO => BitVec.setWidth 32 (Config.dieUid a.die.idx)
  | .DIE_UID_HI => BitVec.setWidth 32 (Config.dieUid a.die.idx >>> 32)
  | .DIE_SLOT_STEP => BitVec.ofNat 32 (Die.all.foldl (fun n d => n + stepping d * 2 ^ (4 * d.idx)) 0)
  | .EVT_ROUTE => if a.sel < 64 then 3 else 0
  | .CLK_SRC_FREQ => if a.elem = 0 then 0xC350 else 0
  | .NOC_EP_STAT => BitVec.ofNat 32 (epKinds a.die (a.sel % 512) * 2 ^ 30)
  | .PWR_PL_STAT => if a.die.isFab then 0x0002EE01 else 0
  | .CLK_CPLL_STAT => 0x40000000
  | .PWR_RAIL_STAT => BitVec.ofNat 32 (railNominal a.sel * 2 ^ 16)
  | _ => BitVec.ofNat 32 (r.fields.foldl (fun n f => n + f.reset % 2 ^ f.width * 2 ^ f.lo) 0)

/-- The word a register holds. -/
def State.reg (s : State) (a : At) (r : Reg) : Word := Tbl.get (r.resetWord a) s.regs (regKey r a)

/-- Put a word into a register. -/
def State.setReg (s : State) (a : At) (r : Reg) (v : Word) : State := s.setRegs (Tbl.set s.regs (regKey r a) v)

/-- The mask of a field. -/
def Fld.mask (f : Fld) : Word := BitVec.ofNat 32 (2 ^ f.width - 1) <<< f.lo

/-- The value of a field in a word. -/
def Fld.of (f : Fld) (w : Word) : Nat := bitsOf w.toNat f.lo f.width

/-- A word with a field replaced; the value is taken modulo the field's range. -/
def Fld.into (f : Fld) (w : Word) (v : Nat) : Word := (w &&& ~~~ f.mask) ||| ((BitVec.ofNat 32 v <<< f.lo) &&& f.mask)

/-- The value of a field of a register. -/
def State.get (s : State) (a : At) (f : Fld) : Nat := f.of (s.reg a f.reg)

/-- A one-bit field. -/
def State.flag (s : State) (a : At) (f : Fld) : Bool := s.get a f == 1

/-- Hardware puts a value into a field of a register. -/
def State.put (s : State) (a : At) (f : Fld) (v : Nat) : State := s.setReg a f.reg (f.into (s.reg a f.reg) v)

/-- Hardware puts several fields. -/
def State.puts (s : State) (a : At) (l : List (Fld × Nat)) : State := l.foldl (fun t e => t.put a e.1 e.2) s

/-- Hardware adds to a field that saturates. -/
def State.bump (s : State) (a : At) (f : Fld) (n : Nat) : State := s.put a f (satAdd (2 ^ f.width - 1) (s.get a f) n)

/-- Bit `k` of a field. -/
def State.bit (s : State) (a : At) (f : Fld) (k : Nat) : Bool := bitOf (s.get a f) k

/-- Hardware sets bit `k` of a field. -/
def State.setBit (s : State) (a : At) (f : Fld) (k : Nat) : State := s.put a f (s.get a f ||| 2 ^ k)

/-- Hardware clears bit `k` of a field. -/
def State.clrBit (s : State) (a : At) (f : Fld) (k : Nat) : State :=
  if s.bit a f k then s.put a f (s.get a f - 2 ^ k) else s

/-- Take the next open value of a width, and count the use (DESIGN CHOICE, log entry 2). -/
def State.free (s : State) (w : Nat) : Nat := (Config.freeBits w s.fresh).toNat

/-- Count one use of an open value. -/
def State.used (s : State) : State := s.setFresh (s.fresh + 1)

/-- The units that a register has been written for, on a die. -/
def State.regSels (s : State) (r : Reg) (d : Die) : List Nat :=
  (s.regs.filter fun e => e.1 / 2 ^ 44 == r.ctorIdx && e.1 % 8 == d.idx).map fun e => e.1 % 2 ^ 44 / 8192

/-- Record what the part sends out (DESIGN CHOICE, log entry 6). -/
def State.emit (s : State) (e : Emit) : State := s.setSent (e :: s.sent)

/-- The state of a die: 0 UP, 1 DOWN_RESET, 2 RETURNING, 3 DOWN_CLOCK (DIE_STATE, R34). -/
def State.dieSt (s : State) (d : Die) : Nat := s.get (atDie .e0) (.DIE_STATE_ST d.idx)

/-- Whether a die is UP. -/
def State.up (s : State) (d : Die) : Bool := s.dieSt d == 0

/-- Which blocks a die has (R45). -/
def Block.on (b : Block) (d : Die) : Bool :=
  match b with
  | .prc | .hmr => d.isFab
  | .lan | .pkt | .cmp | .mem | .prot => d.isPort
  | .fieldBook | .mgt => d == .e0
  | _ => true

/-- Whether a die has a register (R45, R46). -/
def Reg.on (r : Reg) (d : Die) : Bool :=
  r.info.block.on d &&
    match r.info.presence with
    | .all => true
    | .e0 => d == .e0
    | .port => d.isPort
    | .fab => d.isFab

/-- Return the registers of a domain to their reset values, where a test on the place holds (R15). -/
def State.resetDomain (s : State) (dom : Domain) (p : At → Bool) : State :=
  s.setRegs (Tbl.keep (fun k =>
    match Reg.all[k / 2 ^ 44]? with
    | none => true
    | some r =>
      let c := k % 2 ^ 44
      !(r.info.domain == dom && p ⟨Die.ofIdx c, c / 8 % 64, c / 512 % 16, c / 8192⟩)) s.regs)

/-- What a write makes of a field (R12). -/
def Fld.written (f : Fld) (old v : Word) : Word :=
  match f.acc with
  | .rw => f.into old (f.of v)
  | .ro | .rtc | .w1p => old
  | .w1c => old &&& ~~~ (v &&& f.mask)

/-- What a write makes of a register: each field by its access type, RSV bits never (R12). -/
def Reg.written (r : Reg) (old v : Word) : Word := r.fields.foldl (fun w f => f.written w v) old

/-- A write of a register, by its fields' access types. -/
def State.writeReg (s : State) (a : At) (r : Reg) (v : Word) : State := s.setReg a r (r.written (s.reg a r) v)

/-- A register after the clear that a read brings with it (RTC, R12). -/
def Reg.afterRead (r : Reg) (old : Word) : Word :=
  r.fields.foldl (fun w f => match f.acc with
    | .rtc => f.into w 0
    | .rw | .ro | .w1c | .w1p => w) old

/-- The read side effect on a register's own fields. -/
def State.readClears (s : State) (a : At) (r : Reg) : State := s.setReg a r (r.afterRead (s.reg a r))

/-- The state of a parcel: 0 RUNNING, 1 LOADING, 2 BLANK, 3 GATED (PRC_STATE, R219). -/
def State.parcelSt (s : State) (d : Die) (p : Nat) : Nat := s.get (atDie d) (.PRC_STATE_P p)

/-- Whether a parcel is RUNNING. -/
def State.parcelRuns (s : State) (d : Die) (p : Nat) : Bool := s.parcelSt d p == 0

/-- Whether the clock of a gateable domain is stopped (R511): on a fabric die 0 to 7 the cores, 8 the hearth, 9 to 12 the fabric
PLLs; on a port die 0 to 11 the MAC blocks, 12 the compression engine. -/
def State.gated (s : State) (d : Die) (dom : Nat) : Bool := s.flag (atSel d dom) .CLK_GATE_GATED

/-- The fence in front of a core (0 to 7) or the hearth (8) of a fabric die: 0 OPEN, 1 DRAINING, 2 CLOSED (R511). -/
def State.domFence (s : State) (d : Die) (n : Nat) : Nat := Tbl.get 0 s.clk.fences (d.idx * 16 + n)

/-- Whether a core stands still: gated, or about to be, since it issues nothing new behind its fence (DEDUCED, log entry 103); or its core
PLL is unlocked (R505, R511). -/
def State.coreStill (s : State) (d : Die) (k : Nat) : Bool := s.gated d k || s.domFence d k != 0 || !s.flag (atDie d) .CLK_CPLL_STAT_LOCKED

/-- A configuration load uses the flash (R203): a load from a flash partition that is past its start and not yet released. -/
def State.flashLoad (s : State) : Bool :=
  (s.cfg.source == 1 || s.cfg.source == 2) &&
    match s.cfg.phase with
    | .header | .prepare | .setup | .reread | .table | .frames => true
    | _ => false

/-- A repair of a frame waits for the flash on some die, in step 2 (R258, R540). -/
def State.repairWaits (s : State) : Bool := s.scrubs.any fun e => e.2.repair.any fun r => r.step == 2

/-! ### Performance counters and bandwidth monitors -/

/-- The 48-bit count of a counter. -/
def State.pmcCount (s : State) (d : Die) (c : Nat) : Nat :=
  s.get (atSel d c) .PMC_CNT_LO_COUNT + bitsOf (s.get (atSel d c) .PMC_CNT_HI_COUNT) 0 16 * 2 ^ 32

/-- Put a counter's count. -/
def State.setPmc (s : State) (d : Die) (c n : Nat) : State :=
  (s.put (atSel d c) .PMC_CNT_LO_COUNT n).put (atSel d c) .PMC_CNT_HI_COUNT (n / 2 ^ 32 % 2 ^ 16)

/-- The bits of INST that name the instance of a source (R531); a source without instances has none. -/
def pmcInst (src inst : Nat) : Nat :=
  if src < 0x203 ∨ src = 0x250 ∨ src = 0x252 ∨ src = 0x253 then 0
  else if src = 0x210 then inst % 64 + inst / 4096 % 4 * 4096
  else if src = 0x211 then inst % 64 + inst / 4096 % 16 * 4096
  else inst

/-- Whether a counter counts a source and instance of its die now (R531 to R533). -/
def State.pmcOn (s : State) (d : Die) (c src inst : Nat) : Bool :=
  s.flag (atSel d c) .PMC_SEL_EN && s.get (atSel d c) .PMC_SEL_SRC == src && pmcInst src (s.get (atSel d c) .PMC_SEL_INST) == inst &&
    !s.flag (atDie d) .PMC_CTRL_FREEZE && !(c % 2 == 1 && s.flag (atSel d (c - 1)) .PMC_SEL_CHAIN)

/-- Whether a counter is the low half of a chain: a carry out of it goes to the next counter (R533). -/
def State.pmcLow (s : State) (d : Die) (c : Nat) : Bool := c % 2 == 0 && s.flag (atSel d c) .PMC_SEL_CHAIN

/-- Add to one counter; a carry out of bit 47 goes to the chained odd counter. -/
def State.pmcPlus (s : State) (d : Die) (c n : Nat) : State :=
  let t := s.setPmc d c ((s.pmcCount d c + n) % 2 ^ 48)
  if 2 ^ 48 ≤ s.pmcCount d c + n ∧ s.pmcLow d c = true then t.setPmc d (c + 1) ((s.pmcCount d (c + 1) + 1) % 2 ^ 48) else t

/-- The counter that wraps when a number is added to one (R532). -/
def State.pmcWrapped (s : State) (d : Die) (c n : Nat) : Option Nat :=
  if s.pmcCount d c + n < 2 ^ 48 then none
  else if s.pmcLow d c then (if s.pmcCount d (c + 1) + 1 < 2 ^ 48 then none else some (c + 1))
  else some c

/-- Whether a counter's bit in PMC_OVF is set (R532). -/
def State.pmcOvfBit (s : State) (d : Die) (c : Nat) : Bool :=
  if c < 32 then s.bit (atDie d) .PMC_OVF0_OVF c else s.bit (atDie d) .PMC_OVF1_OVF (c - 32)

/-- Set a counter's bit in PMC_OVF. -/
def State.setPmcOvf (s : State) (d : Die) (c : Nat) : State :=
  if c < 32 then s.setBit (atDie d) .PMC_OVF0_OVF c else s.setBit (atDie d) .PMC_OVF1_OVF (c - 32)

/-- Add items and bytes to the running monitors of a die that watch a point (R534). -/
def State.bwCount (s : State) (d : Die) (kind inst bytes items : Nat) : State :=
  s.setBw (s.bw.map fun e =>
    let m := atSel d (e.1 % 32)
    if e.1 / 32 = d.idx ∧ e.2.running = true ∧ s.get m .PMC_BW_SRC_KIND = kind ∧ s.get m .PMC_BW_SRC_INST = inst then
      (e.1, { e.2 with bytes := (e.2.bytes + bytes) % 2 ^ 48, items := satAdd (2 ^ 32 - 1) e.2.items items })
    else e)

/-- Whether an event limited to one a millisecond was raised within the last millisecond of strokes (DEDUCED, log entry 8). -/
def State.onceBusy (s : State) (key : Nat) : Bool := decide (s.cycles < Tbl.get 0 s.evtOnce key)

/-- Start the millisecond of such an event: 500,000 cycles of the 500 MHz time clock. -/
def State.onceStart (s : State) (key : Nat) : State := s.setEvtOnce (Tbl.set s.evtOnce key (s.cycles + 500000))

/-! ### The field book -/

/-- The SEQ after one, 0xFFFF_FFFF skipped (R537). -/
def nextSeqOf (n : Nat) : Nat := if (n + 1) % 2 ^ 32 = 2 ^ 32 - 1 then 0 else (n + 1) % 2 ^ 32

/-- Whether an occurrence merges into a record (R538): same event number and kind, and the same data where asked. A START
record never merges (R537: the first record after each reset is a START record). -/
def BookRec.merges (r : BookRec) (kind event data : Nat) (matchData : Bool) : Bool :=
  r.kind == kind && r.event == event && kind != 3 && (!(matchData || kind == 2) || r.data == data)

/-- A further occurrence of a record (R538). -/
def BookRec.again (r : BookRec) (now : Nat) : BookRec :=
  if r.rep = 65535 then { r with sat := true, lastSeen := now, dirty := r.saved }
  else { r with rep := r.rep + 1, lastSeen := now, dirty := r.saved }

/-- Record an occurrence (R537 to R542). The answer names the SEQ of a ring entry lost before it reached the flash. -/
def Book.record (b : Book) (kind event data : Nat) (matchData : Bool) : Book × Option Nat :=
  let fresh : BookRec := ⟨b.nextSeq, b.opsec, b.pcycle, false, false, false, event, kind, 0, b.opsec, data, false, false⟩
  match b.ring with
  | [] => ({ b with ring := [fresh], queue := b.queue ++ [(b.nextSeq, false)], nextSeq := nextSeqOf b.nextSeq }, none)
  | r :: t =>
    if r.merges kind event data matchData then ({ b with ring := r.again b.opsec :: t }, none)
    else
      let q := if r.dirty then b.queue ++ [(r.seq, true)] else b.queue
      let lost := match (r :: t)[4095]? with
        | some o => if o.saved then none else some o.seq
        | none => none
      ({ b with
          ring := fresh :: (r :: t).take 4095
          queue := (match lost with
            | some o => q.filter fun e => e.1 != o
            | none => q) ++ [(b.nextSeq, false)]
          nextSeq := nextSeqOf b.nextSeq }, lost)

/-! ### Raising an event -/

/-- Set an interrupt line of a Hammer core (R301). -/
def State.irq (s : State) (d : Die) (core line : Nat) : State := s.setBit (atUnit d core) .HMR_IRQ_PEND_PEND line

/-- The bit of an event in EVT_PEND. -/
def State.evtPending (s : State) (d : Die) (loc : Nat) : Bool := s.bit (atElem d (loc / 32)) .EVT_PEND_PEND (loc % 32)

/-- The registers a raise sets (R526). -/
def State.evtBits (s : State) (d : Die) (loc data : Nat) : State :=
  let s := s.setBit (atElem d (loc / 32)) .EVT_PEND_PEND (loc % 32)
  let s := s.bump (atSel d loc) .EVT_CNT_COUNT 1
  (s.put (atSel d loc) .EVT_LAST_LO_DATA data).put (atSel d loc) .EVT_LAST_HI_DATA (data / 2 ^ 32)

/-- Send an MSI-X message, or hold it in the pending-bit array while its vector is masked (R527). -/
def State.msix (s : State) (vec : Nat) : State :=
  if s.pcie.msixOpen.contains vec && s.pcie.linkUp then s.emit (.msix vec)
  else s.setPcie { s.pcie with msixPend := insertNat vec s.pcie.msixPend }

/-- The event lines of the cores that a route names (R527). -/
def State.evtCores (s : State) (tdie : Die) (cores : Nat) : State :=
  (List.range 8).foldl (fun t k => if bitOf cores k then t.irq tdie k 3 else t) s

/-- Put an entry into the event ports that a route names, of parcels that are RUNNING; the answer lists the parcels whose FIFO was full (R530). -/
def State.evtPorts (s : State) (tdie : Die) (number data : Nat) : State × List Nat :=
  (List.range 16).foldl (fun (t, full) p =>
    if bitOf (t.get (atDie tdie) .EVT_FP_CTRL_MASK) p && t.parcelRuns tdie p then
      let q := Tbl.get [] t.fpFifo (tdie.idx * 16 + p)
      if q.length < 16 then (t.setFpFifo (Tbl.set t.fpFifo (tdie.idx * 16 + p) (q ++ [(number, data)])), full)
      else (t.bump (atDie tdie) .EVT_FP_CTRL_DROP 1, full ++ [p])
    else (t, full)) (s, [])

/-- The field book's part of a raise (R537 to R543): a record where the route says so, or the event is forced. `inner` raises
REC_LOST where the ring's oldest record is lost before it reached the flash. -/
def State.raiseBook (inner : State → Die → Nat → Nat → State) (s : State) (d : Die) (loc data : Nat) : State :=
  let forced := d == .e0 && Ev.forced.contains loc
  if forced || s.flag (atSel d loc) .EVT_ROUTE_BOOK then
    let b := s.book.record (natOf forced) (d.idx * 512 + loc) data (s.flag (atSel d loc) .EVT_ROUTE_BOOK_MATCH)
    match b.2 with
    | none => s.setBook b.1
    | some q => inner ((s.setBook b.1).bump (atDie .e0) .REC_STAT_LOST 1) .e0 Ev.REC_LOST q
  else s

/-- The event ports' part of a raise (R530): `inner` raises EVT_FP_DROP, once a millisecond, where a FIFO is full. -/
def State.raisePorts (inner : State → Die → Nat → Nat → State) (s : State) (tdie : Die) (number data : Nat) : State :=
  let r := s.evtPorts tdie number data
  match r.2 with
  | [] => r.1
  | p :: _ =>
    if r.1.onceBusy (tdie.idx * 512 + Ev.EVT_FP_DROP) then r.1
    else inner (r.1.onceStart (tdie.idx * 512 + Ev.EVT_FP_DROP)) tdie Ev.EVT_FP_DROP p

/-- One counter's part of a raise (R531, R532): `inner` raises PMC_OVF where it wraps. -/
def State.raisePmc (inner : State → Die → Nat → Nat → State) (s : State) (d : Die) (loc c : Nat) : State :=
  if s.pmcOn d c loc 0 then
    let t := s.pmcPlus d c 1
    match s.pmcWrapped d c 1 with
    | none => t
    | some k => if t.pmcOvfBit d k then t else inner (t.setPmcOvf d k) d Ev.PMC_OVF k
  else s

/-- Raise an event: number `die index × 512 + loc` with 8 data bytes, byte 0 lowest (R525 to R530). `inner` raises the events that
delivering this one raises in turn (REC_LOST, EVT_FP_DROP, PMC_OVF). -/
def State.raiseWith (inner : State → Die → Nat → Nat → State) (s : State) (d : Die) (loc data : Nat) : State :=
  let rose := !s.evtPending d loc
  let route := s.reg (atSel d loc) .EVT_ROUTE
  let tdie := Die.ofIdx (Fld.of .EVT_ROUTE_TDIE route)
  let there := tdie.isFab && s.up tdie
  let s := (s.evtBits d loc data).raiseBook inner d loc data
  let s := if rose && Fld.of .EVT_ROUTE_MSIX route == 1 then s.msix (Fld.of .EVT_ROUTE_VEC route) else s
  let s := if rose && there then s.evtCores tdie (Fld.of .EVT_ROUTE_CORES route) else s
  let s := if there && Fld.of .EVT_ROUTE_FPORT route == 1 then s.raisePorts inner tdie (d.idx * 512 + loc) data else s
  (List.range 64).foldl (fun s c => s.raisePmc inner d loc c) s

/-- Raise an event; the first argument bounds how deep events raise events. -/
def State.raiseN : Nat → State → Die → Nat → Nat → State
  | 0, s, d, loc, data => s.evtBits d loc data
  | n + 1, s, d, loc, data => s.raiseWith (State.raiseN n) d loc data

/-- Raise an event. -/
def State.raise (s : State) (d : Die) (loc data : Nat) : State := State.raiseN 2 s d loc data

end Sys2Proof.Machine
end

