-- ==== Sys2Proof/Machine/Events.lean ====
section
/-! DEFINITION. Events, event ports, performance counters and bandwidth monitors (chapter 19, rows 345 to 352). -/

namespace Sys2Proof.Machine

/-- The outcome of a command that runs. -/
abbrev Res := Host.Outcome State Fault Refusal

/-- Whether ATTN_N is driven low (R524): the island runs, and an event is pending whose route has ATTN = 1, on E0 or a die that is UP, or
FORCE. -/
def State.attnLow (s : State) : Bool :=
  s.clk.power != 0 && (s.flag (atDie .e0) .MGT_ATTN_FORCE ||
    Die.all.any fun d => (d == .e0 || s.up d) && (List.range 16).any fun j =>
      s.get (atElem d j) .EVT_PEND_PEND != 0 && (List.range 32).any fun b =>
        s.bit (atElem d j) .EVT_PEND_PEND b && s.flag (atSel d (32 * j + b)) .EVT_ROUTE_ATTN)

/-- A write of MGT_ATTN.FORCE (R524). -/
def execAttnForceWrite (force : Bool) (s : State) : Res := .next (s.put (atDie .e0) .MGT_ATTN_FORCE (natOf force))

/-- Rising edges on the inputs of a parcel's event port raise its user events in input order (R530); a parcel that is not
RUNNING raises nothing. -/
def execUserEventInput (die : FDie) (parcel : Fin 16) (inputs : BitVec 16) (data : BitVec 64) (s : State) : Res :=
  .next (if s.parcelRuns die.die parcel then
    (List.range 16).foldl (fun t i =>
      if inputs.getLsbD i then t.raise die.die (256 + 16 * parcel + i) data.toNat else t) s
  else s)

/-- A parcel that is not RUNNING has an empty FIFO (R530). -/
def State.emptyEventPort (s : State) (d : Die) (p : Nat) : State := s.setFpFifo (Tbl.erase s.fpFifo (d.idx * 16 + p))

/-- The output of an event port presents its oldest entry, one in each cycle, while the parcel's clocks run (R530). -/
def State.eventOut (s : State) (d : Die) (p : Nat) (clocks : Bool) : State :=
  match Tbl.get [] s.fpFifo (d.idx * 16 + p) with
  | e :: rest =>
    if clocks then
      (s.setFpFifo (if rest = [] then Tbl.erase s.fpFifo (d.idx * 16 + p) else Tbl.set s.fpFifo (d.idx * 16 + p) rest)).emit
        (.eventPort d.idx p e.1 e.2)
    else s
  | [] => s

/-- PMC_CTRL.CLEAR sets every counter of the die to 0. -/
def execPmcClear (die : Die) (s : State) : Res :=
  .next ((List.range 64).foldl (fun t c => t.setPmc die c 0) s)

/-- PMC_CTRL.FREEZE stops or restarts the counters of the die (R533). -/
def execPmcFreeze (die : Die) (freeze : Bool) (s : State) : Res := .next (s.put (atDie die) .PMC_CTRL_FREEZE (natOf freeze))

/-- The key of a latched counter part: die, counter, and which half. -/
def pmcLatchKey (d : Die) (c half : Nat) : Nat := (d.idx * 64 + c) * 2 + half

/-- Whether a counter is the high half of a chain. -/
def State.pmcChained (s : State) (d : Die) (c : Nat) : Bool := c % 2 == 1 && s.flag (atSel d (c - 1)) .PMC_SEL_CHAIN

/-- A read of PMC_CNT_LO latches the high part; a read of the even counter of a chain latches the odd counter whole, and the
odd counter reads return those values (R533). -/
def State.pmcReadLo (s : State) (d : Die) (c : Nat) : State :=
  if s.pmcChained d c then s.setAnswer (BitVec.ofNat 32 (Tbl.get 0 s.pmcLatch (pmcLatchKey d c 0)))
  else
    let n := s.pmcCount d c
    let l := Tbl.set s.pmcLatch (pmcLatchKey d c 1) (n / 2 ^ 32)
    let l :=
      if c % 2 == 0 && s.flag (atSel d c) .PMC_SEL_CHAIN then
        let m := s.pmcCount d (c + 1)
        Tbl.set (Tbl.set l (pmcLatchKey d (c + 1) 0) (m % 2 ^ 32)) (pmcLatchKey d (c + 1) 1) (m / 2 ^ 32)
      else l
    (s.setPmcLatch l).setAnswer (BitVec.ofNat 32 n)

/-- A read of PMC_CNT_HI returns the latched high part (R533). -/
def State.pmcReadHi (s : State) (d : Die) (c : Nat) : State :=
  s.setAnswer (BitVec.ofNat 32 (Tbl.get 0 s.pmcLatch (pmcLatchKey d c 1)))

/-- A read of a performance counter's low word (R533). -/
def execPmcCounterRead (die : Die) (counter : Fin 64) (s : State) : Res := .next (s.pmcReadLo die counter)

/-- A counter wraps past 2^48 − 1: it returns to 0, carries into its chain, or sets its PMC_OVF bit and raises PMC_OVF once
until that bit is cleared (R532). -/
def execPmcOvf (die : Die) (counter : Fin 64) (s : State) : Res :=
  let n := 2 ^ 48 - s.pmcCount die counter
  let t := s.pmcPlus die counter n
  .next (match s.pmcWrapped die counter n with
    | none => t
    | some k => if t.pmcOvfBit die k then t else (t.setPmcOvf die k).raise die Ev.PMC_OVF k)

/-- The key of a bandwidth monitor. -/
def bwKey (d : Die) (m : Nat) : Nat := d.idx * 32 + m

/-- A monitor that does not run. -/
def BwMon.off : BwMon := ⟨false, false, 0, 0, 0⟩

/-- The strokes of a monitor's window; 0 acts as 1. -/
def State.bwWindow (s : State) (d : Die) (m : Nat) : Nat := Nat.max 1 (s.get (atSel d m) .PMC_BW_CFG_WINDOW)

/-- A write of PMC_BW_CFG: EN = 1 starts the monitor at the next heat boundary, EN = 0 stops it (R535). -/
def execBwMonitorEnable (die : Die) (monitor : Fin 32) (value : Word) (s : State) : Res :=
  let t := s.writeReg (atSel die monitor) .PMC_BW_CFG value
  .next (if t.flag (atSel die monitor) .PMC_BW_CFG_EN then
    t.setBw (Tbl.set t.bw (bwKey die monitor) { BwMon.off with waiting := true })
  else t.setBw (Tbl.erase t.bw (bwKey die monitor)))

/-- Each heat boundary starts the monitors that wait for it; each stroke counts down the windows (R535). -/
def State.bwStroke (s : State) (boundary : Bool) : State :=
  s.setBw (s.bw.map fun e =>
    if e.2.waiting && boundary then
      (e.1, ⟨false, true, 0, 0, s.bwWindow (Die.ofIdx (e.1 / 32)) (e.1 % 32)⟩)
    else if e.2.running then (e.1, { e.2 with strokesLeft := e.2.strokesLeft - 1 })
    else e)

/-- The end of a window: both figures are latched in one cycle, SEQ increments, the count restarts from zero, and
PMC_BW_DONE is raised where EVT = 1 (R535). -/
def State.bwWindowEnd (s : State) (d : Die) (m : Nat) : State :=
  let mon := Tbl.get BwMon.off s.bw (bwKey d m)
  if mon.running && mon.strokesLeft == 0 then
    let a := atSel d m
    let seq := (s.get a .PMC_BW_CFG_SEQ + 1) % 2 ^ 14
    let t := s.puts a [(.PMC_BW_BYTES_LO_BYTES, mon.bytes), (.PMC_BW_BYTES_HI_BYTES, mon.bytes / 2 ^ 32),
      (.PMC_BW_COUNT_COUNT, mon.items), (.PMC_BW_CFG_SEQ, seq)]
    let t := t.setBw (Tbl.set t.bw (bwKey d m) ⟨false, true, 0, 0, s.bwWindow d m⟩)
    if t.flag a .PMC_BW_CFG_EVT then t.raise d Ev.PMC_BW_DONE (m + seq * 2 ^ 8) else t
  else s

/-- A window of WINDOW strokes ends. -/
def execBwWindowEnd (die : Die) (monitor : Fin 32) (s : State) : Res := .next (s.bwWindowEnd die monitor)

/-- Count items of a source in the performance counters of a die (R531). -/
def State.pmcItems (s : State) (d : Die) (src inst n : Nat) : State :=
  (List.range 64).foldl (fun s c =>
    if s.pmcOn d c src inst then
      let t := s.pmcPlus d c n
      match s.pmcWrapped d c n with
      | none => t
      | some k => if t.pmcOvfBit d k then t else (t.setPmcOvf d k).raise d Ev.PMC_OVF k
    else s) s

end Sys2Proof.Machine
end

