-- ==== Sys2Proof/Machine/Ecc.lean ====
section
/-! DEFINITION. SECDED of the on-die memories: checking, counting, logging, the scrubbers and the checker test mode (R486 to
R489; rows 315, 316 and 369). -/

namespace Sys2Proof.Machine

/-- The base of a die's local window (R42). -/
def dieWindow (d : Die) : Nat := 0x300000000000 + d.idx * 2 ^ 32

/-- The address of a word of a core's local data memory (R43). -/
def localWordAddr (d : Die) (core w : Nat) : Nat := dieWindow d + core * 0x100000 + 4 * (w % 2 ^ 17)

/-- The address of an instruction of a core's program memory (R43). -/
def programAddr (d : Die) (core w : Nat) : Nat := dieWindow d + core * 0x100000 + 0x80000 + 4 * (w % 2 ^ 15)

/-- The address of a hearth word (R43). -/
def hearthAddr (d : Die) (w : Nat) : Nat := dieWindow d + 0x1000000 + 4 * (w % 2 ^ 19)

/-- The address of a word of a packet buffer cell (R44). -/
def bufferWordAddr (d : Die) (w : Nat) : Nat := dieWindow d + 8 * (w % 2 ^ 23)

/-- The key of a line in a die's cache. -/
def dcKey (d : Die) (line : Nat) : Nat := d.idx * 2 ^ 42 + line

/-- The memory as a die that holds a line M sees it. -/
def State.cachedMem (s : State) (d : Die) (line : Nat) : Mem :=
  match s.net.lines.find? fun e => e.1 == dcKey d line with
  | some (_, v) => s.mem.write (line * 64) v.toNat 64
  | none => s.mem

/-- The engine that a word of ECC group 11 of a die belongs to (R486). -/
def bufEngine (d : Die) (a : Nat) : Nat := 4 * (a / 2 ^ 15) + 2 * d.idx + a / 2 ^ 14 % 2

/-- The key of a word of an ECC group. -/
def eccKey (d : Die) (g a : Nat) : Nat := (d.idx * 16 + g) * 2 ^ 24 + a

/-- Whether a die has an ECC group (R486). -/
def eccOn (d : Die) (g : Nat) : Bool := if d.isFab then g < 5 else 8 ≤ g && g < 12

/-- Data bits of a group's word. -/
def eccWidth (g : Nat) : Nat := if g = 0 ∨ g = 3 then 32 else if g = 2 ∨ g = 4 then 24 else 64

/-- Words of a group. -/
def eccSize (g : Nat) : Nat :=
  match g with
  | 0 => 2112 * 1024 | 1 => 524288 * 8 | 2 => 2 ^ 20 | 3 => 2 ^ 18 | 4 => 2 ^ 19
  | 8 => 2 ^ 23 | 9 => 4 * 65536 + 1024 | 10 => 2 ^ 22 | _ => 2 ^ 16

/-- The unit of the test mode that a word lies in (R486). -/
def eccUnit (g a : Nat) : Nat :=
  match g with
  | 0 => a / 1024 | 1 => a / 65536 | 2 => a / 2 ^ 17 | 3 => a / 2 ^ 15 | 4 => a % 8
  | 8 => a / 2 ^ 18 | 9 => a / 65536 | 10 => a / 2 ^ 20 | _ => a / 2 ^ 14

/-- What a word of a group from 9, or of a die cache, holds where no error has struck it: the words of a cached line and of a line in a
protection buffer are its plaintext; how the others are laid out is not stated (DESIGN CHOICE, log entry 215). -/
def State.eccHolds (s : State) (d : Die) (g a : Nat) : Nat :=
  let word (m : Mem) (line : Nat) : Nat := m.read (line * 64 + a % 8 * 8) 8
  match g with
  | 1 => match s.net.cells.find? fun e => e.1 == d.idx * 2 ^ 19 + a / 8 with
    | some (_, line) => word (s.cachedMem d line) line
    | none => (Config.entryWord 1 a 0).toNat
  | 9 => (Config.entryWord 9 a (match s.lkp.find? fun e => e.1 == d.idx * 2 ^ 19 + a with
    | some (_, e) => 1 + natOf e.hit + 2 * (e.result % 2 ^ 32 + e.key * 2 ^ 32)
    | none => 0)).toNat
  | 10 => (Config.entryWord 10 a (match s.net.ents.find? fun e => e.1 == d.idx * 2 ^ 22 + a with
    | some (_, line) => 1 + line
    | none => 0)).toNat
  | _ =>
    let e := bufEngine d a
    match (Tbl.get ⟨[], [], [], [], [], [], [], false, [], [], []⟩ s.prots e).cells.find? fun x => x.1 == a % 2 ^ 14 / 8 with
    | some (_, line) =>
      if s.regions.any fun x => x.1 / 16 == e && decide (x.2.base ≤ line * 64 ∧ line * 64 < x.2.base + 2 ^ x.2.lg) then word s.mem line
      else (Config.entryWord 11 a (1 + line)).toNat
    | none => (Config.entryWord 11 a 0).toNat

/-- The stored data bits of a group's word: those of groups 1 and 9 to 11 are what the word holds, but for the bits that errors have
turned. -/
def State.eccData (s : State) (d : Die) (g a : Nat) : Nat :=
  match g with
  | 0 => Tbl.get 0 s.bram (d.idx * 2112 * 1024 + a)
  | 2 => s.mem.read (localWordAddr d (a / 2 ^ 17) a) 3
  | 3 => s.mem.read (programAddr d (a / 2 ^ 15) a) 4
  | 4 => s.mem.read (hearthAddr d a) 3
  | 8 => s.mem.read (bufferWordAddr d a) 8
  | _ => s.eccHolds d g a ^^^ Tbl.get 0 s.eccRaw (eccKey d g a)

/-- Put the stored data bits of a group's word. -/
def State.setEccData (s : State) (d : Die) (g a v : Nat) : State :=
  match g with
  | 0 => s.setBram (Tbl.set s.bram (d.idx * 2112 * 1024 + a) (v % 2 ^ 32))
  | 2 => s.setMem (s.mem.write (localWordAddr d (a / 2 ^ 17) a) v 3)
  | 3 => s.setMem (s.mem.write (programAddr d (a / 2 ^ 15) a) v 4)
  | 4 => s.setMem (s.mem.write (hearthAddr d a) v 3)
  | 8 => s.setMem (s.mem.write (bufferWordAddr d a) v 8)
  | _ => s.setEccRaw (Tbl.set s.eccRaw (eccKey d g a) (v ^^^ s.eccHolds d g a))

/-- What a check finds: no error, a corrected single-bit error, or an uncorrectable error (R486). -/
inductive EccVerdict where
  | clean | corrected | uncorrectable
  deriving DecidableEq, Repr

/-- The number of 1 bits among the lowest `n`. -/
def popCount (v : Nat) : Nat → Nat
  | 0 => 0
  | n + 1 => v % 2 + popCount (v / 2) n

/-- The number of check bits of a word: 6, 7 or 8 (R486). -/
def eccChkBits (w : Nat) : Nat := if w = 24 then 6 else if w = 32 then 7 else 8

/-- Whether the columns of the data bits, with those of `r` check bits, make a SECDED code: every column is one of `r` bits and is not 0,
no two are equal, and no two add up to a third. -/
def secded (r : Nat) (cols : List Nat) : Bool :=
  let all := cols ++ (List.range r).map fun i => 2 ^ i
  cols.all (fun c => decide (0 < c ∧ c < 2 ^ r)) && decide all.Nodup &&
    all.all fun a => all.all fun b => a == b || !all.contains (a ^^^ b)

/-- The columns of odd weight above 1, in rising order: they make a SECDED code. -/
def oddColumns (w : Nat) : List Nat :=
  ((List.range (2 ^ eccChkBits w)).filter fun c => popCount c 8 % 2 == 1 && popCount c 8 != 1).take w

/-- The columns of the data bits of a word. Which they are is not stated: they are those of Config where these make the SECDED code that
R486 states (DESIGN CHOICE, log entry 25). -/
def eccColumns (w : Nat) : List Nat :=
  let cols := (List.range w).map fun i => Config.checkColumn w i
  if secded (eccChkBits w) cols then cols else oddColumns w

/-- The sum of the columns of the bits of a word that are 1. -/
def columnSum : List Nat → Nat → Nat
  | [], _ => 0
  | c :: t, v => (if v % 2 = 1 then c else 0) ^^^ columnSum t (v / 2)

/-- The check bits of a word (R109, R486). -/
def eccBits (w data : Nat) : Nat := columnSum (eccColumns w) data

/-- The mark of a word that holds the poison pattern, which every later read decodes as uncorrectable (R111). -/
def eccPoison : Nat := 256

/-- Check a word against its stored check bits (R486, R109): their difference names the data bit or the check bit that is wrong; any other
difference is uncorrectable, with the data as stored. -/
def eccDecode (w data chk : Nat) : Nat × EccVerdict :=
  let synd := chk ^^^ eccBits w data
  if chk = eccPoison then (data, .uncorrectable)
  else if synd = 0 then (data, .clean)
  else match (eccColumns w).findIdx? (· == synd) with
    | some i => (data ^^^ 2 ^ i, .corrected)
    | none => if popCount synd 8 = 1 then (data, .corrected) else (data, .uncorrectable)

/-- Whether a word's check bits are listed as not matching. -/
def State.eccMarked (s : State) (d : Die) (g a : Nat) : Bool := Tbl.has s.chk (eccKey d g a)

/-- The word an access reads, and what the check finds. -/
def State.eccCheck (s : State) (d : Die) (g a : Nat) : Nat × EccVerdict :=
  let data := s.eccData d g a
  if s.eccMarked d g a then eccDecode (eccWidth g) data (Tbl.get 0 s.chk (eccKey d g a)) else (data, .clean)

/-- The check bits that a word shows: those of its data, those stored in their place, or the poison pattern. -/
def State.eccShown (s : State) (d : Die) (g a : Nat) : Nat :=
  let w := eccWidth g
  if s.eccMarked d g a then
    if Tbl.get 0 s.chk (eccKey d g a) = eccPoison then Config.poisonPattern w % 2 ^ eccChkBits w else Tbl.get 0 s.chk (eccKey d g a)
  else eccBits w (s.eccData d g a)

/-- SYND of a word: the difference of its check bits from those of its data. -/
def State.eccSynd (s : State) (d : Die) (g a : Nat) : Nat := s.eccShown d g a ^^^ eccBits (eccWidth g) (s.eccData d g a)

/-- The place of a log entry. -/
def eccLogAt (d : Die) (g e : Nat) : At := atSel d (g * 16 + e)

/-- Log an error (R487): a further error at a logged address counts in its entry; a new address takes a free entry, or
increments OVERFLOW and raises ECC_LOG_FULL once. -/
def State.eccLog (s : State) (d : Die) (g a : Nat) (ue : Bool) (synd : Nat) : State :=
  let entries := List.range 16
  match entries.find? fun e => s.flag (eccLogAt d g e) .ECC_LOG_ADDR_VALID && s.get (eccLogAt d g e) .ECC_LOG_ADDR_ADDR == a with
  | some e =>
    let s := (s.bump (eccLogAt d g e) .ECC_LOG_INFO_REPEAT 1).put (eccLogAt d g e) .ECC_LOG_INFO_SYND synd
    if ue then s.put (eccLogAt d g e) .ECC_LOG_ADDR_UE 1 else s
  | none =>
    match entries.find? fun e => !s.flag (eccLogAt d g e) .ECC_LOG_ADDR_VALID with
    | some e => s.puts (eccLogAt d g e) [(.ECC_LOG_ADDR_VALID, 1), (.ECC_LOG_ADDR_UE, natOf ue), (.ECC_LOG_ADDR_ADDR, a),
        (.ECC_LOG_INFO_REPEAT, 0), (.ECC_LOG_INFO_SYND, synd)]
    | none =>
      let first := s.get (atSel d g) .ECC_GRP_CTRL_OVERFLOW = 0
      let s := s.bump (atSel d g) .ECC_GRP_CTRL_OVERFLOW 1
      if first then s.raise d Ev.ECC_LOG_FULL g else s

/-- Count, log and report an error that an access or the scrubber finds (R487). -/
def State.eccFound (s : State) (d : Die) (g a : Nat) (v : EccVerdict) : State :=
  match v with
  | .clean => s
  | .corrected =>
    let synd := s.eccSynd d g a
    let s := (s.bump (atSel d g) .ECC_GRP_CNT_CE 1).eccLog d g a false synd
    let key := 2 ^ 16 + (d.idx * 16 + g) * 2
    if s.onceBusy key then s else (s.onceStart key).raise d Ev.ECC_CE (g + a * 2 ^ 8)
  | .uncorrectable =>
    let synd := s.eccSynd d g a
    let s := (s.bump (atSel d g) .ECC_GRP_CNT_UE 1).eccLog d g a true synd
    let key := 2 ^ 16 + (d.idx * 16 + g) * 2 + 1
    if s.onceBusy key then s else (s.onceStart key).raise d Ev.ECC_UE (g + a * 2 ^ 8)

/-- Whether a test of a mode is armed for a word (R489). -/
def State.eccTest (s : State) (d : Die) (g a mode : Nat) : Bool :=
  s.flag (atDie d) .ECC_TEST_CTRL_EN && s.get (atDie d) .ECC_TEST_CTRL_MODE == mode &&
    s.get (atDie d) .ECC_TEST_CTRL_GROUP == g && s.get (atDie d) .ECC_TEST_CTRL_UNIT == eccUnit g a

/-- One more than the largest value of the check bits of a group. -/
def eccChkMask (g : Nat) : Nat := 2 ^ eccChkBits (eccWidth g)

/-- A read of a word, a quiet one too, acts an armed CAPTURE: it takes the word's check bits (R489). -/
def State.eccCapture (s : State) (d : Die) (g a : Nat) : State :=
  if s.eccTest d g a 0 then (s.put (atDie d) .ECC_TEST_CHK_READ_CHK (s.eccShown d g a)).put (atDie d) .ECC_TEST_CTRL_EN 0 else s

/-- An access reads a word: an armed CAPTURE takes its check bits; an error is counted (R487, R489). -/
def State.eccRead (s : State) (d : Die) (g a : Nat) : State × Nat × EccVerdict :=
  let (v, k) := s.eccCheck d g a
  ((s.eccCapture d g a).eccFound d g a k, v, k)

/-- An access writes a whole word: its check bits match, or are those of an armed INJECT (R489). -/
def State.eccWrite (s : State) (d : Die) (g a v : Nat) : State :=
  let s := s.setEccData d g a v
  if s.eccTest d g a 1 then
    (s.setChk (Tbl.set s.chk (eccKey d g a) (s.get (atDie d) .ECC_TEST_CHK_CHECK % eccChkMask g))).put (atDie d) .ECC_TEST_CTRL_EN 0
  else s.setChk (Tbl.erase s.chk (eccKey d g a))

/-- A word of groups 1 and 9 to 11 is written whole: it holds what it should, with its check bits or those of an armed INJECT. -/
def State.eccFresh (s : State) (d : Die) (g a : Nat) : State :=
  let s := s.setEccRaw (Tbl.erase s.eccRaw (eccKey d g a))
  if s.eccTest d g a 1 then
    (s.setChk (Tbl.set s.chk (eccKey d g a) (s.get (atDie d) .ECC_TEST_CHK_CHECK % eccChkMask g))).put (atDie d) .ECC_TEST_CTRL_EN 0
  else s.setChk (Tbl.erase s.chk (eccKey d g a))

/-- A word of groups 1 and 9 to 11 is written in part, or corrected: its check bits are computed as usual (R489). -/
def State.eccMend (s : State) (d : Die) (g a : Nat) : State :=
  (s.setEccRaw (Tbl.erase s.eccRaw (eccKey d g a))).setChk (Tbl.erase s.chk (eccKey d g a))

/-- Words of a group are written, those whole whose 8 byte enables in `mask` are all 1, from word `a` on. -/
def State.eccWrites (s : State) (d : Die) (g a mask : Nat) : State :=
  (List.range 8).foldl (fun s i =>
    let m := mask / 2 ^ (8 * i) % 256
    if m = 0 then s else if m = 255 then s.eccFresh d g (a + i) else s.eccMend d g (a + i)) s

/-- Read a word of an on-die memory for a request; a debug read counts nothing (R323). -/
def State.slotRead (s : State) (d : Die) (g a : Nat) (quiet : Bool) : State × Nat × Bool :=
  if quiet then
    let (v, k) := s.eccCheck d g a
    (s.eccCapture d g a, v, k == .uncorrectable)
  else
    let (t, v, k) := s.eccRead d g a
    (t, v, k == .uncorrectable)

/-- An access reads words of a group: whether one is uncorrectable. -/
def State.eccReads (s : State) (d : Die) (g : Nat) (words : List Nat) (quiet : Bool) : State × Bool :=
  words.foldl (fun x a =>
    let (t, _, bad) := x.1.slotRead d g a quiet
    (t, x.2 || bad)) (s, false)

/-- A write of ECC_TEST_CTRL arms one test (R489). -/
def execEccTestArm (die : Die) (value : Word) (s : State) : Res := .next (s.writeReg (atDie die) .ECC_TEST_CTRL value)

/-- A stored word takes a bit error: a data bit, or a check bit above the data (R486). A poisoned word stays poisoned (R111). -/
def State.bitError (s : State) (d : Die) (group a bit : Nat) : State :=
  let w := eccWidth group
  if eccOn d group && a < eccSize group then
    let data := s.eccData d group a
    let c := if s.eccMarked d group a then Tbl.get 0 s.chk (eccKey d group a) else eccBits w data
    if bit < w then (s.setEccData d group a (data ^^^ 2 ^ bit)).setChk (Tbl.set s.chk (eccKey d group a) c)
    else if 2 ^ (bit - w) < eccChkMask group ∧ c ≠ eccPoison then s.setChk (Tbl.set s.chk (eccKey d group a) (c ^^^ 2 ^ (bit - w)))
    else s
  else s

/-- An upset strikes a stored memory word. -/
def execMemoryBitError (die : Die) (group : Fin 16) (addr : BitVec 24) (bit : Fin 72) (s : State) : Res :=
  .next (s.bitError die group addr.toNat bit)

end Sys2Proof.Machine
end

