-- ==== Sys2Proof/Machine/Fabric.lean ====
section
/-! DEFINITION. The fabric: cells and clusters, shared column rails, block RAM and multiply blocks (chapters 03 and 04; rows 13
to 18 and 370 to 372). -/

namespace Sys2Proof.Machine

open Config

/-- The key of a parcel. -/
def parcelKey (d : Die) (p : Nat) : Nat := d.idx * 16 + p

/-- The release stage of a parcel (R210). -/
def State.stageOf (s : State) (d : Die) (p : Nat) : Nat := Tbl.get 0 s.relStage (parcelKey d p)

/-- The parcel that covers a tile row and a logic column (R4). -/
def parcelAt (row col : Nat) : Nat := 4 * (row / 22) + col / 24

/-- The parcel of a cluster: cluster `c` of the tile in row `r` and column `l` is number `(96 r + l) × 32 + c`. -/
def clusterParcel (n : Nat) : Nat := parcelAt (n / 32 / 96) (n / 32 % 96)

/-- The parcel of a rail (R85). -/
def railParcel (n : Nat) : Nat := 4 * (n / 64 / 96) + n / 64 % 96 / 24

/-- The parcel of a block RAM (R81, R103). -/
def bramParcel (n : Nat) : Nat := 4 * (n / 2 % 88 / 22) + n / 2 / 88 / 3

/-- The parcel of a multiply block (R81, R103). -/
def multParcel (n : Nat) : Nat := 4 * (n / 4 % 88 / 22) + n / 4 / 88 / 3

/-! ### Cells -/

/-- O6 and O5 of a cell (R71). -/
def lutOut (c : CellCfg) (i : CellIn) : Bool × Bool :=
  let a := if c.split then i.a.toNat % 32 + 32 else i.a.toNat
  (c.init.getLsbD a, c.init.getLsbD (a % 32))

/-- The carry out and the sum of a chain stage (R74). -/
def chainStage (p g ci : Bool) : Bool × Bool := (if p then ci else g, p != ci)

/-- OM of the cells of a cluster in CARRY mode, from a carry in, and the carry out of the last (R74, R75). -/
def carryRow (ci : Bool) : List (CellCfg × CellIn) → List Bool × Bool
  | [] => ([], ci)
  | (c, i) :: t =>
    let (o6, o5) := lutOut c i
    let (co, sum) := chainStage o6 (if c.genX then i.x else o5) ci
    let (l, last) := carryRow co t
    (sum :: l, last)

/-- OM of the cells of a cluster in WIDE mode (R76). -/
def wideRow (o6 o5 x : List Bool) : List Bool :=
  let o (k : Nat) := o6.getD k false
  let sel (k : Nat) (i0 i1 : Bool) := if x.getD k false then i1 else i0
  let m1 := sel 1 (o 0) (o 1)
  let m3 := sel 3 (o 2) (o 3)
  let m5 := sel 5 (o 4) (o 5)
  let m7 := sel 7 (o 6) (o 7)
  let m2 := sel 2 m1 m3
  let m6 := sel 6 m5 m7
  [o5.getD 0 false, m1, m2, m3, sel 4 m2 m6, m5, m6, m7]

/-- The carry into cell 0 (R75); CHAIN reads 0 at the bottom of a parcel. -/
def carryIn (cfg : ClusterCfg) (n : Nat) (ins : List CellIn) (below : Bool) : Bool :=
  match cfg.carryIn with
  | .chain => if n / 32 / 96 % 22 = 0 ∧ n % 8 = 0 then false else below
  | .zero => false
  | .one => true
  | .x => match ins with
    | i :: _ => i.x
    | [] => false

/-- OM of each cell of a cluster, and COUT (R73 to R76). -/
def clusterOut (cfg : ClusterCfg) (n : Nat) (ins : List CellIn) (below : Bool) : List Bool × Bool :=
  let cells := cfg.cells.zip ins
  match cfg.mode with
  | .off => (cells.map fun e => (lutOut e.1 e.2).2, false)
  | .carry => carryRow (carryIn cfg n ins below) cells
  | .wide => (wideRow (cells.map fun e => (lutOut e.1 e.2).1) (cells.map fun e => (lutOut e.1 e.2).2) (ins.map CellIn.x), false)

/-- The next value of a flip-flop, GSR released (R79): `edge0` and `edge1` say whether CLK0 and CLK1 have an active edge. -/
def ffNext (f : FFCfg) (async edge0 edge1 ce0 ce1 sr data q : Bool) : Bool :=
  if f.sr && sr && async then f.srval
  else if !(if f.clk1 then edge1 else edge0) then q
  else if f.sr && sr then f.srval
  else if (f.enable == 1 && !ce0) || (f.enable == 2 && !ce1) then q
  else data

/-- The INIT values of a cluster's flip-flops. -/
def ffInit (cfg : ClusterCfg) : BitVec 16 :=
  BitVec.ofNat 16 (((cfg.cells.flatMap fun c => [c.a.init, c.b.init]).zipIdx.map fun e => if e.1 then 2 ^ e.2 else 0).foldl (· + ·) 0)

/-- The flip-flops of a cluster after an edge of CLK0, of CLK1 or of both: cell by cell, QA then QB (R72, R79). -/
def ffRow (async edge0 edge1 ce0 ce1 sr : Bool) (q : BitVec 16) : Nat → List ((CellCfg × CellIn) × Bool) → Nat
  | _, [] => 0
  | k, ((c, i), om) :: t =>
    let (o6, o5) := lutOut c i
    let dA := if c.a.src = 0 then o6 else if c.a.src = 1 then om else i.x
    let dB := if c.b.src = 0 then o5 else if c.b.src = 1 then om else i.y
    natOf (ffNext c.a async edge0 edge1 ce0 ce1 sr dA (q.getLsbD (2 * k))) * 2 ^ (2 * k) +
      natOf (ffNext c.b async edge0 edge1 ce0 ce1 sr dB (q.getLsbD (2 * k + 1))) * 2 ^ (2 * k + 1) +
      ffRow async edge0 edge1 ce0 ce1 sr q (k + 1) t

/-- A cluster that no frame has set. -/
def ClusterCfg.none : ClusterCfg := ⟨.off, .chain, false, 0, 0, false, false, []⟩

/-- The key of a cluster. -/
def clusterKey (d : Die) (n : Nat) : Nat := d.idx * 270336 + n

/-- How a cluster is set. -/
def State.cluster (s : State) (d : Die) (n : Nat) : ClusterCfg := Tbl.get ClusterCfg.none s.clusters (clusterKey d n)

/-- The flip-flops of a cluster: an unlisted one holds INIT (R99). Before its frame is written a flip-flop's value is not defined, and
reaches no pin; there the model takes INIT of the setting last held, or 0 (DESIGN CHOICE, log entry 184). -/
def State.ff (s : State) (d : Die) (n : Nat) : BitVec 16 := Tbl.get (ffInit (s.cluster d n)) s.ffs (clusterKey d n)

/-! ### Rails -/

/-- The key of a rail. -/
def railKey (d : Die) (n : Nat) : Nat := d.idx * 24576 + n

/-- Whether a rail's drivers are disabled (R89). -/
def State.railFlag (s : State) (d : Die) (n : Nat) : Bool := s.bit (atSel d (n / 32)) .CFG_RAIL_DATA_FLAG (n % 32)

/-- The keeper follows the value of a rail that exactly one driver drives (R88, R92). -/
def State.railFollow (s : State) (d : Die) (n : Nat) (v : Bool) : State :=
  if 1 ≤ s.stageOf d (railParcel n) ∧ s.railFlag d n = false then s.setRailKeep (Tbl.set s.railKeep (railKey d n) (natOf v)) else s

/-- The detector acts on a rail: it disables the rail's drivers by its flag, counts, records the first, and raises
RAIL_CONTENTION (R89). -/
def State.railContend (s : State) (d : Die) (n drivers : Nat) : State :=
  if 2 ≤ drivers ∧ 1 ≤ s.stageOf d (railParcel n) ∧ s.railFlag d n = false then
    let s := s.setBit (atSel d (n / 32)) .CFG_RAIL_DATA_FLAG (n % 32)
    let s := s.bump (atDie d) .CFG_RAIL_COUNT_COUNT 1
    let s :=
      if s.flag (atDie d) .CFG_RAIL_CONT_VALID then s
      else s.puts (atDie d) [(.CFG_RAIL_CONT_VALID, 1), (.CFG_RAIL_CONT_PROW, n / 64 / 96), (.CFG_RAIL_CONT_LCOL, n / 64 % 96),
        (.CFG_RAIL_CONT_RAIL, n % 64)]
    s.raise d Ev.RAIL_CONTENTION (n + s.get (atDie d) .STK_STROKE_NUM_NUM * 2 ^ 16 + Nat.min 22 drivers * 2 ^ 32)
  else s

/-- CFG_RAIL_CLR.ALL clears every rail flag of the die (R90). -/
def State.railClearAll (s : State) (d : Die) : State :=
  (List.range 768).foldl (fun t g => if t.get (atSel d g) .CFG_RAIL_DATA_FLAG = 0 then t else t.put (atSel d g) .CFG_RAIL_DATA_FLAG 0) s

/-- Clear the rail flags and keepers of a parcel (R92, R15). -/
def State.railReset (s : State) (d : Die) (p : Nat) : State :=
  let s := s.setRailKeep (Tbl.keep (fun k => !(k / 24576 == d.idx && railParcel (k % 24576) == p)) s.railKeep)
  (List.range 768).foldl (fun t g =>
    if railParcel (32 * g) = p ∧ t.get (atSel d g) .CFG_RAIL_DATA_FLAG ≠ 0 then t.put (atSel d g) .CFG_RAIL_DATA_FLAG 0 else t) s

/-! ### Clock nets (R94, R95, R98) -/

/-- The keys of `Fab.high`: a global net, a regional net, a fabric clock entry point and a regional entry point. -/
def globalKey (d : Die) (n : Nat) : Nat := d.idx * 32 + n

/-- See `globalKey`. -/
def regionalKey (d : Die) (p n : Nat) : Nat := 2 ^ 20 + (d.idx * 16 + p) * 12 + n

/-- See `globalKey`. -/
def entryKey (d : Die) (n : Nat) : Nat := 2 ^ 21 + d.idx * 8 + n

/-- See `globalKey`. -/
def parcelEntryKey (d : Die) (p n : Nat) : Nat := 2 ^ 21 + 2 ^ 20 + (d.idx * 16 + p) * 4 + n

/-- The gates of a parcel close low: so do the regional nets behind them (R98). -/
def State.gatesLow (s : State) (d : Die) (p : Nat) : State :=
  s.setFab { s.fab with high := s.fab.high.filter fun k =>
    !(decide (regionalKey d p 0 ≤ k) && decide (k < regionalKey d p 12)) }

/-! ### Flip-flops -/

/-- Whether the clocks of a parcel reach it: its gates are closed before its release and while a capture freezes it (R98,
R241). -/
def State.clocked (s : State) (d : Die) (p : Nat) : Bool := 1 ≤ s.stageOf d p && !s.frozen.contains (parcelKey d p)

/-- The flip-flops of a cluster on which SR acts take SRVAL (R79). -/
def srRow (q : BitVec 16) : Nat → List CellCfg → Nat
  | _, [] => 0
  | k, c :: t =>
    natOf (if c.a.sr then c.a.srval else q.getLsbD (2 * k)) * 2 ^ (2 * k) +
      natOf (if c.b.sr then c.b.srval else q.getLsbD (2 * k + 1)) * 2 ^ (2 * k + 1) + srRow q (k + 1) t

/-- The gates of a parcel close and GSR asserts for it: its flip-flops hold INIT, its multiply stages 0, its block RAM outputs 0 (R98,
R99, R114, R123). -/
def State.assertGsr (s : State) (d : Die) (p : Nat) : State :=
  let s := (s.gatesLow d p).setRelStage (Tbl.erase s.relStage (parcelKey d p))
  let s := s.setFfs (Tbl.keep (fun k => !(k / 270336 == d.idx && clusterParcel (k % 270336) == p)) s.ffs)
  let s := s.setMults (Tbl.keep (fun k => !(k / 4224 == d.idx && multParcel (k % 4224) == p)) s.mults)
  s.setBramPorts (Tbl.keep (fun k => !(k / 2 / 2112 == d.idx && bramParcel (k / 2 % 2112) == p)) s.bramPorts)

/-! ### Block RAM -/

/-- The key of a block RAM, and of one of its words. -/
def bramKey (d : Die) (n : Nat) : Nat := d.idx * 2112 + n

/-- A block that no frame has set is true dual-port ×32 (DESIGN CHOICE, log entry 3). -/
def BramCfg.none : BramCfg := ⟨false, 2, 2, false, false, 0, 0, false, false⟩

/-- How a block RAM is set. -/
def State.bramSet (s : State) (d : Die) (n : Nat) : BramCfg := Tbl.get BramCfg.none s.bramCfg (bramKey d n)

/-- A block RAM port that has read nothing. -/
def BramPort.none : BramPort := ⟨0, false, false, 0, false, false⟩

/-- The byte enables that a geometry uses: WE[0], WE[1:0], or all four (R105). -/
def bramWe (geom : Nat) (x : BramAccess) : Nat := x.we.toNat % (if geom = 0 then 2 else if geom = 1 then 4 else 16)

/-- The internal word that an access touches, with the byte mask and data it writes there (R105, R106). -/
def bramLanes (geom : Nat) (x : BramAccess) : Nat × Nat × Nat :=
  let a := x.addr.toNat
  match geom with
  | 0 => (a / 4, bramWe 0 x * 2 ^ (a % 4), (x.din.toNat % 256) * 2 ^ (8 * (a % 4)))
  | 1 => (a % 2048 / 2, bramWe 1 x * 2 ^ (2 * (a % 2)), (x.din.toNat % 65536) * 2 ^ (16 * (a % 2)))
  | _ => (a % 1024, bramWe 2 x, x.din.toNat % 2 ^ 32)

/-- The data a port returns of an internal word (R105, R106). -/
def bramPick (geom a w : Nat) : Nat :=
  match geom with
  | 0 => bitsOf w (8 * (a % 4)) 8
  | 1 => bitsOf w (16 * (a % 2)) 16
  | _ => w

/-- Merge enabled bytes into a word. -/
def mergeBytes (old new mask : Nat) : Nat → Nat
  | 0 => 0
  | n + 1 => (if mask % 2 = 1 then new % 256 else old % 256) + 256 * mergeBytes (old / 256) (new / 256) (mask / 2) n

/-- One port writes one internal word (R109 to R111): a write of all four bytes stores the word; a narrow write reads,
corrects, merges and stores, and keeps an uncorrectable word poisoned. -/
def State.bramStore (s : State) (d : Die) (n w mask v : Nat) : State :=
  let a := n * 1024 + w
  if mask = 0 then s
  else if mask = 15 then s.eccWrite d 0 a v
  else
    let (old, k) := s.eccCheck d 0 a
    let s := s.eccFound d 0 a k
    let s := s.setEccData d 0 a (mergeBytes old v mask 4)
    if k = .uncorrectable then s.setChk (Tbl.set s.chk (eccKey d 0 a) eccPoison) else s.setChk (Tbl.erase s.chk (eccKey d 0 a))

/-- Present read data at a port, through its output register where that is on (R107). -/
def BramPort.present (p : BramPort) (outReg : Bool) (v : Nat) (k : EccVerdict) : BramPort :=
  let sbe := k == .corrected
  let dbe := k == .uncorrectable
  if outReg then ⟨p.next, p.nextSbe, p.nextDbe, v, sbe, dbe⟩ else ⟨v, sbe, dbe, v, sbe, dbe⟩

/-- A port presents a word and what its check found (R107). `rsto` resets the output register. -/
def State.bramShow (s : State) (d : Die) (n port : Nat) (outReg rsto : Bool) (v : Nat) (k : EccVerdict) : State :=
  let key := bramKey d n * 2 + port
  let p := (Tbl.get BramPort.none s.bramPorts key).present outReg v k
  let p := if outReg && rsto then { p with dout := 0, sbe := false, dbe := false } else p
  s.setBramPorts (Tbl.set s.bramPorts key p)

/-- One port reads an internal word: it is checked, counted and presented (R107, R109). -/
def State.bramLoad (s : State) (d : Die) (n port geom addr w : Nat) (outReg rsto : Bool) : State :=
  let (s, v, k) := s.eccRead d 0 (n * 1024 + w)
  s.bramShow d n port outReg rsto (bramPick geom addr v) k

/-- A port that writes presents the new data of the word it wrote (R108); the write has counted what it found (R111). -/
def State.bramEcho (s : State) (d : Die) (n port geom : Nat) (outReg : Bool) (x : BramAccess) : State :=
  let (v, k) := s.eccCheck d 0 (n * 1024 + (bramLanes geom x).1)
  s.bramShow d n port outReg x.rsto (bramPick geom x.addr.toNat v) k

/-- Port B of a simple dual-port block reads (R105); a ×64 block returns the low word on DOUT of A, and that output too follows port B's
output register setting and RSTO (DESIGN CHOICE, log entry 185). -/
def State.bramSimpleRead (s : State) (d : Die) (n : Nat) (cfg : Config.BramCfg) (x : BramAccess) : State :=
  if cfg.geomB = 3 then
    (s.bramLoad d n 0 2 0 (2 * (x.addr.toNat % 512)) cfg.outB x.rsto).bramLoad d n 1 2 0 (2 * (x.addr.toNat % 512) + 1) cfg.outB x.rsto
  else s.bramLoad d n 1 cfg.geomB x.addr.toNat (bramLanes cfg.geomB x).1 cfg.outB x.rsto

/-- Port A of a simple dual-port block writes (R105); a ×64 block takes the low word from port A and the high word, with its byte enables,
from port B's WE and DIN (R106). -/
def State.bramSimpleWrite (s : State) (d : Die) (n : Nat) (cfg : Config.BramCfg) (x : BramAccess) : State :=
  if cfg.geomA = 3 then
    let w := 2 * (x.addr.toNat % 512)
    (s.bramStore d n w (x.we.toNat % 16) (x.din.toNat % 2 ^ 32)).bramStore d n (w + 1) (x.we.toNat / 16) (x.din.toNat / 2 ^ 32)
  else
    let l := bramLanes cfg.geomA x
    s.bramStore d n l.1 l.2.1 l.2.2

/-- A port of a true dual-port block reads where its WE is all 0. -/
def State.bramPortRead (s : State) (d : Die) (n port geom : Nat) (outReg : Bool) : Option BramAccess → State
  | some x => if bramWe geom x = 0 then s.bramLoad d n port geom x.addr.toNat (bramLanes geom x).1 outReg x.rsto else s
  | none => s

/-- A port of a true dual-port block writes the bytes that its WE enables. -/
def State.bramPortWrite (s : State) (d : Die) (n geom : Nat) : Option BramAccess → State
  | some x =>
    let l := bramLanes geom x
    s.bramStore d n l.1 l.2.1 l.2.2
  | none => s

/-- A port of a true dual-port block presents what it wrote. -/
def State.bramPortEcho (s : State) (d : Die) (n port geom : Nat) (outReg : Bool) : Option BramAccess → State
  | some x => if bramWe geom x = 0 then s else s.bramEcho d n port geom outReg x
  | none => s

/-- One edge of a simple dual-port block: port B reads, with the old data of a write that it meets, and port A writes (R105, R108). -/
def State.bramSimple (s : State) (d : Die) (n : Nat) (cfg : Config.BramCfg) (reads : Bool) (a b : Option BramAccess) : State :=
  let s := match b with
    | some x => if reads then s.bramSimpleRead d n cfg x else s
    | none => s
  match a with
  | some x => s.bramSimpleWrite d n cfg x
  | none => s

/-- One edge of a true dual-port block: a read at one port takes the old data of a write at the other; where both ports write a byte,
port A's data stays; a writing port presents the new data (R108). Where both ports write one word, each presents the word as both writes
leave it (DESIGN CHOICE, log entry 225). -/
def State.bramDual (s : State) (d : Die) (n : Nat) (cfg : Config.BramCfg) (reads : Bool) (a b : Option BramAccess) : State :=
  let s := if reads then (s.bramPortRead d n 0 cfg.geomA cfg.outA a).bramPortRead d n 1 cfg.geomB cfg.outB b else s
  let s := (s.bramPortWrite d n cfg.geomB b).bramPortWrite d n cfg.geomA a
  if reads then (s.bramPortEcho d n 0 cfg.geomA cfg.outA a).bramPortEcho d n 1 cfg.geomB cfg.outB b else s

/-- One edge of a block RAM with the accesses that meet on it (R105 to R111, R114). Before stage 2 of the parcel's release nothing
happens, and before stage 3 no read does. -/
def State.bramEdge (s : State) (d : Die) (n : Nat) (a b : Option BramAccess) : State :=
  let stage := s.stageOf d (bramParcel n)
  if stage < 2 || s.frozen.contains (parcelKey d (bramParcel n)) then s
  else if (s.bramSet d n).simple then s.bramSimple d n (s.bramSet d n) (stage == 3) a b
  else s.bramDual d n (s.bramSet d n) (stage == 3) a b

/-- An edge with an access at one port, and the access at the other port that meets it, if any. -/
def State.bramAccess (s : State) (d : Die) (n : Nat) (portB : Bool) (x : BramAccess) (other : Option BramAccess) : State :=
  if portB then s.bramEdge d n other (some x) else s.bramEdge d n (some x) other

/-! ### Multiply blocks -/

/-- Every stage at 0. -/
def MultRegs.zero : MultRegs := ⟨0, 0, 0, 0, false, false, 0, 0, 0, 0, 0, 0, false⟩

/-- A signed number wrapped to `w` bits. -/
def wrapS (w : Nat) (i : Int) : Int := signedOf w (patternOf w i)

/-- Round after an arithmetic right shift (R122). -/
def roundShift (p : Int) (shift : Nat) (convergent : Bool) : Int :=
  if shift = 0 then p
  else
    let q := p / (2 ^ shift : Nat)
    let r := p % (2 ^ shift : Nat)
    let half : Int := (2 ^ (shift - 1) : Nat)
    if convergent && (half < r || (r == half && q % 2 == 1)) then q + 1 else q

/-- O and SAT of the output stage (R122). -/
def multOut (cfg : MultCfg) (p : Int) : Int × Bool :=
  let v := roundShift p cfg.shift cfg.convergent
  if cfg.saturate then
    let hi : Int := (2 ^ (cfg.satWidth - 1) : Nat) - 1
    let lo : Int := -(2 ^ (cfg.satWidth - 1) : Nat)
    if hi < v then (hi, true) else if v < lo then (lo, true) else (v, false)
  else (v, false)

/-- One enabled edge of a multiply block (R118 to R123): each present stage takes the value before it; RST clears every
stage. C, MSUB and ZSEL are registered in stage 1 alone, as R123 lists (DEDUCED, log entry 12). -/
def multEdge (cfg : MultCfg) (r : MultRegs) (i : MultIn) (pcin : Int) (rst : Bool) : MultRegs :=
  if rst then MultRegs.zero
  else
    let a := if cfg.stage1 then r.a else i.a.toInt
    let b := if cfg.stage1 then r.b else i.b.toInt
    let c := if cfg.stage1 then r.c else i.c.toInt
    let d := if cfg.stage1 then r.d else i.d.toInt
    let psub := if cfg.stage1 then r.psub else i.psub
    let msub := if cfg.stage1 then r.msub else i.msub
    let zsel := if cfg.stage1 then r.zsel else i.zsel.toNat
    let sum := if cfg.preadd then wrapS 26 (if psub then a - d else a + d) else a
    let pre := if cfg.stage2 then r.pre else sum
    let b2 := if cfg.stage2 then r.b2 else b
    let prod := pre * b2
    let m := if cfg.stage3 then r.m else prod
    let z := match zsel with
      | 0 => 0
      | 1 => r.p
      | 2 => pcin
      | _ => c
    let p := wrapS 64 (if msub then z - m else z + m)
    let (o, sat) := multOut cfg r.p
    { a := i.a.toInt, b := i.b.toInt, c := i.c.toInt, d := i.d.toInt, psub := i.psub, msub := i.msub, zsel := i.zsel.toNat,
      pre := sum, b2 := b, m := prod, p := p, o := o, sat := sat }

/-- The key of a multiply block. -/
def multKey (d : Die) (n : Nat) : Nat := d.idx * 4224 + n

/-- The registers of a multiply block. -/
def State.mult (s : State) (d : Die) (n : Nat) : MultRegs := Tbl.get MultRegs.zero s.mults (multKey d n)

/-- A multiply block that no frame has set has no optional stage, bypasses its pre-adder, and neither shifts nor saturates (DESIGN CHOICE,
log entry 3). -/
def MultCfg.none : MultCfg := ⟨false, false, false, false, false, 0, false, false, 2, 0⟩

/-- How a multiply block is set. -/
def State.multSet (s : State) (d : Die) (n : Nat) : MultCfg := Tbl.get MultCfg.none s.multCfg (multKey d n)

/-- PCIN of a block: P of the block below, or 0 in block 0 of a parcel's bottom row (R121). -/
def State.pcin (s : State) (d : Die) (n : Nat) : Int := if n % 4 = 0 ∧ n / 4 % 88 % 22 = 0 then 0 else (s.mult d (n - 1)).p

/-- What a block presents at O and SAT: its stage 5, or the output stage of P (R122, R123). -/
def State.multO (s : State) (d : Die) (n : Nat) : Int × Bool :=
  let r := s.mult d n
  if (s.multSet d n).stage5 then (r.o, r.sat) else multOut (s.multSet d n) r.p

/-- A clock edge of a multiply block with its CE and RST (R120, R123), and PCIN of the block below. -/
def State.multClock (s : State) (d : Die) (n : Nat) (ce rst : Bool) (i : MultIn) (pcin : Int) : State :=
  if ce && s.stageOf d (multParcel n) == 3 && !s.frozen.contains (parcelKey d (multParcel n)) then
    s.setMults (Tbl.set s.mults (multKey d n) (multEdge (s.multSet d n) (s.mult d n) i pcin rst))
  else s

end Sys2Proof.Machine
end

