-- ==== Sys2Proof/Machine/Routing.lean ====
section
/-! DEFINITION. Routing of the fabric dies: where boxes, wires, pins and seams lie, what each multiplexer can select, the clamps at a
parcel's border, and the value that every signal carries (R70, R75, R81 to R88, R181 to R187, R197, R211, R220 to R223, R550). -/

namespace Sys2Proof

/-- The column of a die in the package: E0, F0 and F3, F1 and F4, F2 and F5, E1. -/
def Die.col : Die → Nat
  | .e0 => 0 | .f0 | .f3 => 1 | .f1 | .f4 => 2 | .f2 | .f5 => 3 | .e1 => 4

/-- Whether a fabric die lies in the top row. -/
def Die.top (d : Die) : Bool := d == .f0 || d == .f1 || d == .f2

end Sys2Proof

namespace Sys2Proof.Machine

open Config

/-! ### Dies and edges -/

/-- The edge between two dies, if they touch (R22). -/
def edgeOf (a b : Die) : Option Nat :=
  let lo := Nat.min a.idx b.idx
  let hi := Nat.max a.idx b.idx
  [(0, 2), (0, 5), (2, 3), (3, 4), (5, 6), (6, 7), (2, 5), (3, 6), (4, 7), (1, 4), (1, 7)].findIdx? (· == (lo, hi))

/-- The two dies of an edge, the lower index first (R22). -/
def edgeDies (e : Nat) : Die × Die :=
  match e with
  | 0 => (.e0, .f0) | 1 => (.e0, .f3) | 2 => (.f0, .f1) | 3 => (.f1, .f2) | 4 => (.f3, .f4) | 5 => (.f4, .f5)
  | 6 => (.f0, .f3) | 7 => (.f1, .f4) | 8 => (.f2, .f5) | 9 => (.e1, .f2) | _ => (.e1, .f5)

/-- Whether an edge touches a die; there are eleven (R22). -/
def edgeOn (d : Die) (edge : Nat) : Bool := decide (edge < 11) && ((edgeDies edge).1 == d || (edgeDies edge).2 == d)

/-- The die across an edge. -/
def acrossEdge (d : Die) (edge : Nat) : Die := if (edgeDies edge).1 = d then (edgeDies edge).2 else (edgeDies edge).1

/-! ### Switch boxes (R80, R81) -/

/-- The physical column of a logic column: each group of eight has a block RAM column after four, and a multiply column at its end. -/
def logicBox (l : Nat) : Nat := 10 * (l / 8) + l % 8 + (if l % 8 < 4 then 0 else 1)

/-- The logic column at a physical column, where there is one. -/
def boxLogic (c : Nat) : Option Nat :=
  if c % 10 < 4 then some (8 * (c / 10) + c % 10) else if c % 10 = 4 ∨ c % 10 = 9 then none else some (8 * (c / 10) + c % 10 - 1)

/-- The parcel of a switch box. -/
def boxParcel (row col : Nat) : Nat := 4 * (row / 22) + col / 30

/-- The switch boxes of a cluster, of a block RAM and of a multiply block, as tile row and physical column (R80, R103). -/
def clusterBox (n : Nat) : Nat × Nat := (n / 32 / 96, logicBox (n / 32 % 96))

/-- See `clusterBox`. -/
def bramBox (n : Nat) : Nat × Nat := (n / 2 % 88, 10 * (n / 2 / 88) + 4)

/-- See `clusterBox`. -/
def multBox (n : Nat) : Nat × Nat := (n / 4 % 88, 10 * (n / 4 / 88) + 9)

/-- The cluster below in a chain column: none at the bottom of a parcel (R75). -/
def clusterBelow (n : Nat) : Option Nat :=
  if n % 8 ≠ 0 then some (n - 1) else if n / 32 / 96 % 22 = 0 then none else some (n - 3072 + 7)

/-- The cluster above in a chain column: none at the top of a parcel. -/
def clusterAbove (n : Nat) : Option Nat :=
  if n % 8 ≠ 7 then some (n + 1) else if n / 32 / 96 % 22 = 21 then none else some (n + 3072 - 7)

/-! ### Wires (R83, R84) -/

/-- The box `n` boxes away to a side, within the die. -/
def sideMove (side : Side) (n row col : Nat) : Option (Nat × Nat) :=
  match side with
  | .north => if row + n < 88 then some (row + n, col) else none
  | .east => if col + n < 120 then some (row, col + n) else none
  | .south => if n ≤ row then some (row - n, col) else none
  | .west => if n ≤ col then some (row, col - n) else none

/-- The other direction. -/
def sideBack : Side → Side
  | .north => .south | .east => .west | .south => .north | .west => .east

/-- The span of a wire in boxes: singles 0 to 95, quads 96 to 143, longs 144 to 151. Boxes of block RAM and multiply columns count
(DEDUCED, log entry 186). -/
def wireSpan (i : Nat) : Nat := if i < 96 then 1 else if i < 144 then 4 else 12

/-- Where a wire can be tapped. -/
def wireTaps (i : Nat) : List Nat := if i < 96 then [1] else if i < 144 then [2, 4] else [4, 8, 12]

/-- A wire that would leave the die is not built (R84). -/
def wireBuilt (row col : Nat) (side : Side) (i : Nat) : Bool :=
  decide (row < 88 ∧ col < 120 ∧ i < 152) && (sideMove side (wireSpan i) row col).isSome

/-- The wires that can be tapped at a box. -/
def arrivals (row col : Nat) : List Sig :=
  [Side.north, .east, .south, .west].flatMap fun side => (List.range 152).flatMap fun i => (wireTaps i).filterMap fun n =>
    match sideMove (sideBack side) n row col with
    | some (r, c) => if wireBuilt r c side i then some (.wire r c side i) else none
    | none => none

/-! ### User I/O pins and seam groups (R181, R550) -/

/-- The parcel of a user I/O pin: the banks of a die in order, 48 pins each in an HP bank and 24 in an HV bank (R550). -/
def pinParcel (d : Die) (n : Nat) : Option Nat :=
  match d with
  | .f0 => if n < 48 then some 12 else if n < 96 then some 14 else none
  | .f1 => if n < 24 then some 13 else none
  | .f2 => if n < 48 then some 13 else if n < 96 then some 15 else none
  | .f3 => if n < 48 then some 0 else if n < 96 then some 2 else none
  | .f4 => if n < 24 then some 1 else if n < 48 then some 2 else none
  | .f5 => if n < 48 then some 1 else if n < 96 then some 3 else none
  | _ => none

/-- Whether a die's user I/O is HV (R548). -/
def pinHv (d : Die) : Bool := d == .f1 || d == .f4

/-- The rail of a pin's bank (R512). -/
def pinRail (d : Die) (n : Nat) : Nat :=
  match d with
  | .f0 => 21 + n / 48
  | .f2 => 23 + n / 48
  | .f3 => 25 + n / 48
  | .f5 => 27 + n / 48
  | .f1 => 18
  | _ => 19 + n / 24

/-- The key of a pin. -/
def pinKey (d : Die) (n : Nat) : Nat := d.idx * 2 ^ 24 + n

/-- The key of a signal that a parcel's ports present. -/
def portSigKey (d : Die) (p n : Nat) : Nat := 2 ^ 40 + (d.idx * 16 + p) * 2 ^ 16 + n

/-- Where the registers of a seam group lie. -/
def atSeam (d : Die) (edge g : Nat) : At := atSel d (edge * 256 + g)

/-- The edge tile of a seam group on a fabric die, as tile row and logic column (R181): the group is the tile row on a vertical edge, and
the logic column less 4 on a horizontal one. -/
def seamTile (d : Die) (edge g : Nat) : Nat × Nat :=
  if 6 ≤ edge ∧ edge ≤ 8 then (if d.top then 0 else 87, g + 4)
  else
    let other := acrossEdge d edge
    (g, if other = .e1 ∨ (other.isFab = true ∧ d.col < other.col) then 95 else 0)

/-- The parcel at the edge tile of a seam group. -/
def seamParcel (d : Die) (edge g : Nat) : Nat := parcelAt (seamTile d edge g).1 (seamTile d edge g).2

/-- The port die of an edge, if it has one. -/
def edgePort (edge : Nat) : Option Die :=
  if (edgeDies edge).1.isPort then some (edgeDies edge).1 else none

/-- The lane of the groups 2l and 2l + 1, and of the sideband group 48 + l, of an edge with a port die (R187). -/
def seamLane (edge g : Nat) : Option Nat :=
  let first := if edge = 0 ∨ edge = 9 then 24 else 0
  if g < 48 then some (first + g / 2) else if g < 72 then some (first + g - 48) else none

/-- The key of an end of a seam group. -/
def seamKey (d : Die) (edge g : Nat) : Nat := (d.idx * 16 + edge) * 128 + g

/-- An end of a seam group that no frame has set. -/
def Seam.none : Seam := ⟨⟨false, 0, 0⟩, 0, [], 0, 0⟩

/-- An end of a seam group. -/
def State.seam (s : State) (d : Die) (edge g : Nat) : Seam := Tbl.get Seam.none s.fab.seams (seamKey d edge g)

/-- Put an end of a seam group. -/
def State.setSeam (s : State) (d : Die) (edge g : Nat) (x : Seam) : State :=
  s.setFab { s.fab with seams := Tbl.set s.fab.seams (seamKey d edge g) x }

/-- The sub-groups of a group that capture on a die: on an edge between fabric dies as the image sets it (R181), on one with a port die
as R187 fixes it. -/
def State.seamDir (s : State) (d : Die) (edge g : Nat) : BitVec 4 :=
  match edgePort edge with
  | none => (s.seam d edge g).cfg.dir
  | some _ =>
    if d.isFab then (if g < 48 then (if g % 2 = 0 then 15 else 0) else if g < 72 then 1 else 15)
    else if g < 48 then (if g % 2 = 1 then 15 else 0) else if g < 72 then 2 else 0

/-- Whether a group of an edge with a port die connects to a lane there (R187). -/
def State.seamJoined (s : State) (edge g : Nat) : Bool :=
  match edgePort edge, seamLane edge g with
  | none, _ => true
  | some _, none => false
  | some p, some l => s.get (atUnit p (l / 4)) .LAN_QUAD_CFG_ROLE == 3 && (decide (g < 48) || s.flag (atUnit p l) .LAN_LANE_CFG_W128)

/-- WLD_SEAM_STAT.CLAMPED (R186, R187): the captures on this die present clamp values. -/
def State.seamClamped (s : State) (d : Die) (edge g : Nat) : Bool :=
  let a := atSeam d edge g
  let src := acrossEdge d edge
  s.seamDir d edge g != 0 &&
    (!(s.up src || (Tbl.get 0 s.dieStep src.idx == 5 && s.get (atDie src) .CFG_DIE_STAT_STAGE != 0)) ||
      (src.isFab && s.get (atDie src) (.NOC_FENCE_STAT_P (seamParcel src edge g)) != 0) || !s.seamJoined edge g ||
      (!(s.seam d edge g).cfg.async && !s.flag a .WLD_SEAM_STAT_LOCKED))

/-! ### Multiplexers (R82, R83) -/

/-- The number of a direction. -/
def sideNo : Side → Nat
  | .north => 0 | .east => 1 | .south => 2 | .west => 3

/-- The number of what a multiplexer drives. -/
def nodeCode : Node → Nat
  | .wire r c side i => ((r * 120 + c) * 4 + sideNo side) * 256 + i
  | .cell n k => 2 ^ 40 + n * 256 + k
  | .railData r k => 2 * 2 ^ 40 + r * 256 + k
  | .railEnable r k => 3 * 2 ^ 40 + r * 256 + k
  | .bram n k => 4 * 2 ^ 40 + n * 256 + k
  | .mult n k => 5 * 2 ^ 40 + n * 256 + k
  | .netEnable n => 6 * 2 ^ 40 + n
  | .entry n => 7 * 2 ^ 40 + n
  | .parcelEntry p n => 8 * 2 ^ 40 + p * 256 + n
  | .launch e g w => 9 * 2 ^ 40 + (e * 128 + g) * 256 + w
  | .pinData n => 10 * 2 ^ 40 + n
  | .pinEnable n => 11 * 2 ^ 40 + n
  | .port p n => 12 * 2 ^ 40 + p * 2 ^ 16 + n

/-- The parcel in which a multiplexer lies; global nets and their entry points lie in none. -/
def nodeParcel (d : Die) : Node → Option Nat
  | .wire r c _ _ => some (boxParcel r c)
  | .cell n _ => some (clusterParcel n)
  | .railData r _ | .railEnable r _ => some (railParcel r)
  | .bram n _ => some (bramParcel n)
  | .mult n _ => some (multParcel n)
  | .netEnable _ | .entry _ => none
  | .parcelEntry p _ | .port p _ => some p
  | .launch e g _ => some (seamParcel d e g)
  | .pinData n | .pinEnable n => pinParcel d n

/-- Whether a routing wire leaves its parcel: one of its taps lies in another. -/
def wireLeaves (row col : Nat) (side : Side) (i : Nat) : Bool :=
  (wireTaps i).any fun n => match sideMove side n row col with
    | some (r, c) => boxParcel r c != boxParcel row col
    | none => false

/-- The signals that a parcel drives across its border, but for seams (R220). -/
def outward : Node → Bool
  | .wire r c side i => wireLeaves r c side i
  | .pinData _ | .pinEnable _ => true
  | _ => false

/-- The outputs of a cluster (R70, R75). -/
def clusterOuts (n : Nat) : List Sig := (List.range 33).map fun k => .out n k

/-- The outputs of what lies at a switch box. -/
def boxOuts (row col : Nat) : List Sig :=
  match boxLogic col with
  | some l => (List.range 32).flatMap fun c => clusterOuts ((row * 96 + l) * 32 + c)
  | none =>
    if col % 10 = 4 then (List.range 2).flatMap fun k => (List.range 68).map fun i => .bram ((col / 10 * 88 + row) * 2 + k) i
    else (List.range 4).flatMap fun k => (List.range 65).map fun i => .mult ((col / 10 * 88 + row) * 4 + k) i

/-- The rails of a switch box's column (R85). -/
def boxRails (row col : Nat) : List Sig :=
  match boxLogic col with
  | some l => (List.range 64).map fun k => .rail ((row / 22 * 96 + l) * 64 + k)
  | none => []

/-- The capture registers that the routing of a tile reaches (R181). -/
def boxSeams (d : Die) (row col : Nat) : List Sig :=
  ((List.range 11).filter (edgeOn d)).flatMap fun e =>
    ((List.range 88).filter fun g => seamTile d e g == (row, (boxLogic col).getD 96)).flatMap fun g =>
      (List.range 128).map fun w => .seam e g w

/-- Every signal that reaches a switch box. Where pins and port signals of a parcel enter its routing is not stated: they may reach each
of its boxes (DEDUCED, log entry 186). -/
def boxSignals (d : Die) (row col : Nat) : List Sig :=
  arrivals row col ++ boxOuts row col ++ boxRails row col ++ boxSeams d row col ++
    ((List.range 96).filter fun n => pinParcel d n == some (boxParcel row col)).map .pin ++
    (List.range (2 ^ 16)).map (.port (boxParcel row col))

/-- Every signal that reaches a box of a parcel. -/
def parcelSignals (d : Die) (p : Nat) : List Sig :=
  (List.range 22).flatMap fun r => (List.range 30).flatMap fun c => boxSignals d (22 * (p / 4) + r) (30 * (p % 4) + c)

/-- The signals among which a multiplexer selects (R70, R83, R94, R95, R181). A cluster's local routing takes the switch box, the
cluster's own outputs, and those of the clusters directly above and below it. -/
def reaches (d : Die) : Node → List Sig
  | .wire r c side i => if wireBuilt r c side i then boxSignals d r c else []
  | .cell n _ =>
    boxSignals d (clusterBox n).1 (clusterBox n).2 ++ clusterOuts n ++ ((clusterAbove n).elim [] clusterOuts) ++
      ((clusterBelow n).elim [] clusterOuts)
  | .railData r k | .railEnable r k => boxSignals d (22 * (r / 64 / 96) + k) (logicBox (r / 64 % 96))
  | .bram n _ => boxSignals d (bramBox n).1 (bramBox n).2
  | .mult n _ => boxSignals d (multBox n).1 (multBox n).2
  | .netEnable _ => (List.range 16).flatMap (parcelSignals d)
  | .entry _ => (List.range 88).flatMap fun r => [47, 48].flatMap fun l => boxOuts r (logicBox l)
  | .parcelEntry p _ =>
    (List.range 22).flatMap fun r => (List.range 24).flatMap fun l => boxOuts (22 * (p / 4) + r) (logicBox (24 * (p % 4) + l))
  | .launch e g _ => boxSignals d (seamTile d e g).1 (logicBox (seamTile d e g).2)
  | .pinData n | .pinEnable n => (pinParcel d n).elim [] (parcelSignals d)
  | .port p _ => parcelSignals d p

/-- What a code selects (R82): code 0 no input, and every other code exactly one of the signals that reach the multiplexer. Which one is
not stated (DESIGN CHOICE, log entry 23). -/
def muxPick (d : Die) (m : Node) (code : Nat) : Sig :=
  if code = 0 then .zero
  else (reaches d m).getD (muxInput d.idx m code % (reaches d m).length) .zero

/-- The key of a multiplexer. -/
def muxKey (d : Die) (m : Node) : Nat := d.idx * 2 ^ 48 + nodeCode m

/-- What a multiplexer selects. -/
def State.selects (s : State) (d : Die) (m : Node) : Sig := (Tbl.get (m, .zero) s.fab.muxes (muxKey d m)).2

/-- A multiplexer takes a code. -/
def State.muxSet (s : State) (d : Die) (m : Node) (code : Nat) : State :=
  s.setFab { s.fab with
    muxes := if code = 0 then Tbl.erase s.fab.muxes (muxKey d m) else Tbl.set s.fab.muxes (muxKey d m) (m, muxPick d m code) }

/-! ### Clamps (R197, R220 to R222) -/

/-- Whether a parcel's fence stands. -/
def State.fenced (s : State) (d : Die) (p : Nat) : Bool := s.get (atDie d) (.NOC_FENCE_STAT_P p) != 0

/-- The clamp code in force of a signal of a parcel (R222); before the parcel's first release, the code of its own frame, or CLAMP_DEF
until that is written (R197). -/
def State.clampCode (s : State) (d : Die) (p : Nat) (m : Node) : Nat :=
  let k := parcelKey d p
  let c := Tbl.get (Tbl.get 0 s.clampDef k, Tbl.get [] s.fab.codes k) s.clamps k
  Tbl.get c.1 c.2 (nodeCode m)

/-- The value at which a signal is clamped: 0, 1, or what it carried before the fence rose (R221), which is open where it carried nothing
(DESIGN CHOICE, log entry 183). -/
def State.clampBit (s : State) (d : Die) (p : Nat) (m : Node) (x : Sig) : Bool :=
  match s.clampCode d p m with
  | 0 => false
  | 1 => true
  | _ => match s.fab.carried.find? fun e => e.1 == parcelKey d p with
    | some (_, l) => l.contains (nodeCode m)
    | none => openSig d.idx x s.fresh

/-- Whether the pins of a die are held as R211 says: no personality runs, a full load prepares, or the die stands before stage 1 of its
release. -/
def State.pinsIdle (s : State) (d : Die) : Bool :=
  !s.cfg.running || s.cfg.phase == .prepare || s.get (atDie d) .CFG_DIE_STAT_STAGE == 0

/-- Whether the user outputs of a die are held off (R200, R201, R210, R211): while CFG_PROG_N is low, too. -/
def State.pinsOff (s : State) (d : Die) : Bool := s.pinsIdle d || s.cfg.progLow

/-- The number of a user I/O pin in `Config.boundaryRole`; the pins of the package come before, as E0's. -/
def scanPin (d : Die) (n : Nat) : Nat := d.idx * 256 + n

/-- What EXTEST drives at a pin from the boundary-scan register (R212): the output data (k = 1) or the output enable (k = 2). -/
def State.scanned (s : State) (pin k : Nat) : Option Bool :=
  if s.tap.ir = 0 then
    (s.tap.cells.zipIdx.find? fun e => Config.boundaryRole e.2 == 1 + 3 * pin + k).map Prod.fst
  else none

/-- Whether the rail of a pin's bank is good (R512). -/
def State.pinPowered (s : State) (d : Die) (n : Nat) : Bool := s.flag (atSel .e0 (pinRail d n)) .PWR_RAIL_STAT_GOOD

/-- The pull of a user I/O pin (R200, R210, R211): the strapped one of an HV pin while outputs are off, else the design's. -/
def State.pinPull (s : State) (d : Die) (n : Nat) : PinPull :=
  if !s.pinPowered d n then .none
  else if s.pinsOff d then (if pinHv d && s.flag (atDie .e0) .CFG_SRC_PULL then .up else .none)
  else Tbl.get .none s.fab.pulls (pinKey d n)

/-- What a captured seam wire presents (R186): the clamp value of the wire's code where the group is clamped, else what was captured. The
capture register holds while it is clamped, so hold-last is what it captured last. -/
def State.seamBit (s : State) (d : Die) (edge g w : Nat) : Bool :=
  let src := acrossEdge d edge
  let held := (s.seam d edge g).capture.getLsbD w
  if s.seamClamped d edge g then
    match s.clampCode src (if src.isFab then seamParcel src edge g else 0) (.launch edge g w) with
    | 0 => false
    | 1 => true
    | _ => held
  else held

/-! ### Values (R71 to R76, R82, R88, R100) -/

/-- What the cells of a cluster receive from its local routing. -/
def cellIns (v : Nat → Bool) : List CellIn :=
  (List.range 8).map fun k =>
    ⟨BitVec.ofNat 6 ((List.range 6).foldl (fun n i => n + natOf (v (8 * k + i)) * 2 ^ i) 0), v (8 * k + 6), v (8 * k + 7)⟩

/-- O6 of a cell of a cluster. -/
def cellO6 (cfg : ClusterCfg) (ins : List CellIn) (k : Nat) : Bool :=
  match cfg.cells[k]?, ins[k]? with
  | some c, some i => (lutOut c i).1
  | _, _ => false

/-- The enable code of a rail driver (R85). -/
def State.driverCode (s : State) (d : Die) (rail row : Nat) : Nat := Tbl.get 0 s.fab.drivers (railKey d rail * 32 + row)

/-- Whether the drivers of a rail are off: before stage 1 of the parcel's release, or disabled (R89, R92). -/
def State.railOff (s : State) (d : Die) (n : Nat) : Bool := s.stageOf d (railParcel n) == 0 || s.railFlag d n

/-- The value that the keeper of a rail holds (R88). -/
def State.keeper (s : State) (d : Die) (n : Nat) : Bool := Tbl.get 0 s.railKeep (railKey d n) == 1

/-- More steps than any path without a loop has through a die's multiplexers. -/
def pathBound : Nat := 2 ^ 26

/-- The value of a signal of a die, as logic of parcel `q` sees it. The first argument bounds the path: a value that is still not
determined there stands on a combinational loop, and is open. Values are computed under GSR too (R100). What enters a fenced parcel, or
reaches a parcel in GSR over a seam, is ignored there: the model takes an open value (R186, R220; DESIGN CHOICE, log entry 183). -/
def State.sigVal (s : State) (d : Die) : Nat → Nat → Sig → Bool
  | 0, _, x => openSig d.idx x s.fresh
  | fuel + 1, q, x =>
    let node (p : Nat) (m : Node) : Bool := s.sigVal d fuel p (s.selects d m)
    match x with
    | .zero => false
    | .wire r c side i =>
      let p := boxParcel r c
      if p ≠ q && s.fenced d p then s.clampBit d p (.wire r c side i) x
      else if p ≠ q && s.fenced d q then openSig d.idx x s.fresh
      else node p (.wire r c side i)
    | .out n k =>
      if k / 8 = 2 then (s.ff d n).getLsbD (2 * (k % 8))
      else if k / 8 = 3 then (s.ff d n).getLsbD (2 * (k % 8) + 1)
      else
        let cfg := s.cluster d n
        let ins := cellIns fun pin => node (clusterParcel n) (.cell n pin)
        let below := match clusterBelow n with
          | some m => s.sigVal d fuel q (.out m 32)
          | none => false
        if k < 8 then cellO6 cfg ins k
        else if k = 32 then (clusterOut cfg n ins below).2
        else (clusterOut cfg n ins below).1.getD (k - 8) false
    | .rail n =>
      if s.railOff d n then s.keeper d n
      else
        match (List.range 22).filter fun row =>
          match s.driverCode d n row with
          | 1 => true
          | 2 => node (railParcel n) (.railEnable n row)
          | 3 => !node (railParcel n) (.railEnable n row)
          | _ => false with
        | [] => s.keeper d n
        | [row] => node (railParcel n) (.railData n row)
        | _ => openSig d.idx x s.fresh
    | .bram n k =>
      let port := Tbl.get BramPort.none s.bramPorts (bramKey d n * 2 + k / 34 % 2)
      if k % 34 < 32 then bitOf port.dout (k % 34) else if k % 34 = 32 then port.sbe else port.dbe
    | .mult n k => if k = 64 then (s.multO d n).2 else bitOf (patternOf 64 (s.multO d n).1) k
    | .seam e g w => if s.stageOf d q < 3 || s.fenced d q then openSig d.idx x s.fresh else s.seamBit d e g w
    | .pin n =>
      let p := (pinParcel d n).getD 16
      let on (m : Node) : Bool := if s.fenced d p then s.clampBit d p m x else node p m
      if s.fenced d p then openSig d.idx x s.fresh
      else if !s.pinPowered d n then false
      else if !s.pinsOff d && on (.pinEnable n) then on (.pinData n)
      else match s.fab.outside.find? fun e => e.1 == pinKey d n with
        | some (_, v) => v
        | none => match s.pinPull d n with
          | .up => true
          | .down => false
          | .none => openSig d.idx x s.fresh
    | .port p n => Tbl.get false s.fab.outside (portSigKey d p n)

/-- The value that a multiplexer brings to what it drives. -/
def State.nodeVal (s : State) (d : Die) (m : Node) : Bool := s.sigVal d pathBound ((nodeParcel d m).getD 16) (s.selects d m)

/-- The drivers of a rail that are enabled together, by tile row (R85, R89). -/
def State.railOn (s : State) (d : Die) (n : Nat) : List Nat :=
  (List.range 22).filter fun row =>
    match s.driverCode d n row with
    | 1 => true
    | 2 => s.nodeVal d (.railEnable n row)
    | 3 => !s.nodeVal d (.railEnable n row)
    | _ => false

/-- What the design drives at the output data or the output enable of a user I/O pin; under a fence each is clamped (R220). -/
def State.pinSide (s : State) (d : Die) (n : Nat) (m : Node) : Bool :=
  let p := (pinParcel d n).getD 16
  if s.fenced d p then s.clampBit d p m (.pin n) else s.nodeVal d m

/-- What a user I/O pin shows (R200, R201, R211, R212, R220): none at high impedance, else the level that it drives. EXTEST drives it from
the boundary-scan register, whatever the configuration (DESIGN CHOICE, log entry 227). -/
def State.pinDrive (s : State) (d : Die) (n : Nat) : Option Bool :=
  match s.scanned (scanPin d n) 1, s.scanned (scanPin d n) 2 with
  | some v, some on => if on && s.pinPowered d n then some v else none
  | _, _ =>
    if !s.pinsOff d && s.pinPowered d n && s.pinSide d n (.pinEnable n) then some (s.pinSide d n (.pinData n)) else none

/-- What a cell of the boundary-scan register captures (R212): the level of a user I/O pin, or what the design drives there; what another cell
captures is open (DESIGN CHOICE, log entry 227). -/
def State.scanBit (s : State) (cell : Nat) : Bool :=
  let r := Config.boundaryRole cell
  let d := Die.ofIdx ((r - 1) / 3 / 256)
  let n := (r - 1) / 3 % 256
  if r = 0 ∨ 8 ≤ (r - 1) / 3 / 256 ∨ d.isFab = false then bitOf (s.free (cell + 1)) cell
  else match (r - 1) % 3 with
    | 0 => s.sigVal d pathBound ((pinParcel d n).getD 16) (.pin n)
    | 1 => s.pinSide d n (.pinData n)
    | _ => s.pinSide d n (.pinEnable n)

/-- The outward signals of a parcel are held as they are before its fence rises (R221). -/
def State.carry (s : State) (d : Die) (p : Nat) : State :=
  let mine := (s.fab.muxes.filter fun e => e.1 / 2 ^ 48 == d.idx && nodeParcel d e.2.1 == some p && outward e.2.1).filter fun e =>
    s.nodeVal d e.2.1
  s.setFab { s.fab with carried := Tbl.set s.fab.carried (parcelKey d p) (mine.map fun e => nodeCode e.2.1) }

end Sys2Proof.Machine
end

