-- ==== Sys2Proof/Machine/FabricClocks.lean ====
section
/-! DEFINITION. What moves the fabric: rail contention, clock nets and their edges, the logic on an edge, seam registers, and the direct
commands of block RAM and multiply blocks (R77 to R79, R88 to R98, R105 to R123, R181 to R186; rows 13 to 18 and 370 to 372). -/

namespace Sys2Proof.Machine

open Config

/-! ### Rails (R88 to R90) -/

/-- The rails of a die that have a driver. -/
def State.railsDriven (s : State) (d : Die) : List Nat :=
  ((s.fab.drivers.filter fun e => e.1 / 32 / 24576 == d.idx).map fun e => e.1 / 32 % 24576).eraseDups

/-- The keepers of a die follow the rails that exactly one driver drives (R88). -/
def State.railSettle (s : State) (d : Die) : State :=
  (s.railsDriven d).foldl (fun t n => match s.railOn d n with
    | [row] => t.railFollow d n (s.nodeVal d (.railData n row))
    | _ => t) s

/-- The detector looks at a rail (R89). -/
def State.railDetect (s : State) (d : Die) (n : Nat) : State := (s.railContend d n (s.railOn d n).length).railSettle d

/-- The flags of a group of rails are cleared; where two drivers are still enabled the detector acts again (R90, R91). -/
def State.railFlagClear (s : State) (d : Die) (group mask : Nat) : State :=
  let was := s.get (atSel d group) .CFG_RAIL_DATA_FLAG
  let s := s.put (atSel d group) .CFG_RAIL_DATA_FLAG ((s.reg (atSel d group) .CFG_RAIL_DATA &&& ~~~ BitVec.ofNat 32 mask).toNat)
  (((List.range 32).filter fun b => bitOf mask b && bitOf was b).foldl
    (fun t b => t.railContend d (32 * group + b) (s.railOn d (32 * group + b)).length) s).railSettle d

/-- CFG_RAIL_CLR.ALL: every flag is cleared, and the detector acts again on rails that two drivers still drive (R90). -/
def State.railClear (s : State) (d : Die) : State :=
  let held := (s.railsDriven d).filter fun n => s.railFlag d n
  let s := s.railClearAll d
  (held.foldl (fun t n => t.railContend d n (s.railOn d n).length) s).railSettle d

/-- Two or more drivers of a rail have been enabled together for longer than 300 ps (R89). -/
def execRailContention (die : FDie) (rail : Fin 24576) (s : State) : Res := .next (s.railDetect die.die rail)

/-- Writing 1 to rail flags clears them and re-enables the drivers. -/
def execRailFlagClear (die : FDie) (group : Fin 768) (mask : BitVec 32) (s : State) : Res :=
  .next (s.railFlagClear die.die group mask.toNat)

/-- CFG_RAIL_CLR.ALL is written. -/
def execRailClearAll (die : FDie) (s : State) : Res := .next (s.railClear die.die)

/-! ### Clock nets (R94 to R98) -/

/-- Whether a net or entry point is high. -/
def State.isHigh (s : State) (k : Nat) : Bool := s.fab.high.contains k

/-- A level takes a net or entry point to high or low. -/
def levelSet (l : List Nat) (k : Nat) (up : Bool) : List Nat := if up then insertNat k l else removeNat k l

/-- An entry point follows the output that drives it (R94, R95). One in a parcel whose fence stands gives no rising edge (R220). -/
def State.entryMoves (s : State) (d : Die) (m : Node) (key : Nat) (rising : Bool) : Bool :=
  let shut := match s.selects d m with
    | .out c _ => s.fenced d (clusterParcel c)
    | _ => false
  if rising then !s.isHigh key && !shut && s.nodeVal d m else s.isHigh key && (shut || !s.nodeVal d m)

/-- Whether a source of clock nets can give an edge. One that has stopped completes its high phase: it still falls (R504, R511). -/
def State.srcMoves (s : State) (d : Die) (src : ClkSrc) (rising : Bool) : Bool :=
  match src with
  | .pll n _ => !rising || (s.flag (atElem d n) .CLK_FPLL_STAT_LOCKED && !s.gated d (9 + n))
  | .reference => !rising || s.clk.locked
  | .entry n => s.entryMoves d (.entry n) (entryKey d n) rising
  | .parcelEntry p n => s.entryMoves d (.parcelEntry p n) (parcelEntryKey d p n) rising

/-- The code that chooses a source for a global net (R94). -/
def srcCode : ClkSrc → Nat
  | .pll n o => 1 + 4 * n.val + o.val
  | .reference => 17
  | .entry n => 18 + n.val
  | .parcelEntry _ _ => 0

/-- The global nets that take an edge: one whose enable is 0 does not rise, and completes the high phase it is in (R94). -/
def State.globalEdge (s : State) (d : Die) (src : ClkSrc) (rising : Bool) : List Nat :=
  (List.range 32).filter fun n =>
    srcCode src != 0 && Tbl.get 0 s.fab.globals (globalKey d n) == srcCode src &&
      (if rising then s.nodeVal d (.netEnable n) else s.isHigh (globalKey d n))

/-- What a regional net of a parcel does on an edge: none, or the level it takes (R95). A divided clock rises with every 2^k-th rise of its
global net and falls half-way (DESIGN CHOICE, log entry 188). -/
def State.regionalMove (s : State) (d : Die) (p n : Nat) (src : ClkSrc) (rising : Bool) (nets : List Nat) : Option Bool :=
  let c := Tbl.get 0 s.fab.regionals ((d.idx * 16 + p) * 12 + n)
  if c = 0 then none
  else if c ≤ 128 then
    let g := (c - 1) / 4
    let k := (c - 1) % 4
    let count := Tbl.get 0 s.fab.rises (globalKey d g)
    if !nets.contains g then none
    else if k = 0 then some rising
    else if rising && count % 2 ^ k == 0 then some true
    else if rising && count % 2 ^ k == 2 ^ (k - 1) then some false
    else none
  else if src = .parcelEntry (Fin.ofNat 16 p) (Fin.ofNat 4 (c - 129)) then some rising
  else none

/-- The nets of a parcel that take an edge, with the level they take: 0 to 31 global, 32 to 43 regional (R96). Gates that are closed let
none through (R98). -/
def State.parcelEdges (s : State) (d : Die) (p : Nat) (src : ClkSrc) (rising : Bool) (nets : List Nat) : List (Nat × Bool) :=
  if s.clocked d p then
    nets.map (fun n => (n, rising)) ++ (List.range 12).filterMap fun n =>
      (s.regionalMove d p n src rising nets).bind fun up => if s.isHigh (regionalKey d p n) = up then none else some (32 + n, up)
  else []

/-- The clock in one of the 16 places of a switch box: net + 1, or 0 (R96). -/
def State.boxClock (s : State) (d : Die) (box : Nat × Nat) (slot : Nat) : Nat :=
  Tbl.get 0 s.fab.tileClks (((d.idx * 88 + box.1) * 120 + box.2) * 16 + slot % 16)

/-- Whether the active edge of a clock of a switch box is among edges: rising, unless its polarity bit inverts it (R77). -/
def State.edgeAt (s : State) (d : Die) (edges : List (Nat × Bool)) (box : Nat × Nat) (slot : Nat) (inverted : Bool) : Bool :=
  let net := s.boxClock d box slot
  net != 0 && edges.contains (net - 1, !inverted)

/-! ### Logic on an edge -/

/-- A number read from the inputs `lo` to `lo + n - 1` of a block. -/
def nodeNum (v : Nat → Bool) (lo n : Nat) : Nat := (List.range n).foldr (fun i x => natOf (v (lo + i)) + 2 * x) 0

/-- The flip-flops of a cluster on an edge, from the values of the state `o` before it (R71 to R79). -/
def State.clusterEdge (t o : State) (d : Die) (n : Nat) (edges : List (Nat × Bool)) : State :=
  let cfg := o.cluster d n
  let e0 := o.edgeAt d edges (clusterBox n) cfg.clk0 cfg.inv0
  let e1 := o.edgeAt d edges (clusterBox n) cfg.clk1 cfg.inv1
  if o.stageOf d (clusterParcel n) = 3 ∧ (e0 || e1) = true then
    let v := fun pin => o.nodeVal d (.cell n pin)
    let ins := cellIns v
    let below := match clusterBelow n with
      | some m => o.sigVal d pathBound (clusterParcel n) (.out m 32)
      | none => false
    t.setFfs (Tbl.set t.ffs (clusterKey d n) (BitVec.ofNat 16
      (ffRow cfg.async e0 e1 (v 64) (v 65) (v 66) (o.ff d n) 0 ((cfg.cells.zip ins).zip (clusterOut cfg n ins below).1))))
  else t

/-- What the routing presents at a block RAM port, where its EN is 1 (R105); a ×64 write takes its high word at port B (R106). -/
def State.bramPins (o : State) (d : Die) (n port : Nat) (wide : Bool) : Option BramAccess :=
  let v (p : Nat) := fun pin => o.nodeVal d (.bram n (50 * p + pin))
  if v port 0 then
    some ⟨BitVec.ofNat 12 (nodeNum (v port) 5 12),
      BitVec.ofNat 8 (nodeNum (v port) 1 4 + (if wide then nodeNum (v 1) 1 4 * 2 ^ 4 else 0)),
      BitVec.ofNat 64 (nodeNum (v port) 17 32 + (if wide then nodeNum (v 1) 17 32 * 2 ^ 32 else 0)), v port 49⟩
  else none

/-- A block RAM on an edge (R105, R108): ports that share a clock net meet; on different nets the block's arbiter puts their accesses in an
order that nothing may rely on, an open value here (log entry 2). -/
def State.bramOnEdge (t o : State) (d : Die) (n : Nat) (edges : List (Nat × Bool)) : State :=
  let cfg := o.bramSet d n
  let a := if o.edgeAt d edges (bramBox n) cfg.clkA cfg.invA then o.bramPins d n 0 (cfg.simple && cfg.geomA == 3) else none
  let b := if o.edgeAt d edges (bramBox n) cfg.clkB cfg.invB then o.bramPins d n 1 false else none
  if a = none ∧ b = none then t
  else if a = none ∨ b = none ∨ o.boxClock d (bramBox n) cfg.clkA = o.boxClock d (bramBox n) cfg.clkB then t.bramEdge d n a b
  else if t.free 1 = 0 then (t.used.bramEdge d n a none).bramEdge d n none b
  else (t.used.bramEdge d n none b).bramEdge d n a none

/-- What the routing presents at a multiply block. -/
def State.multPins (o : State) (d : Die) (n : Nat) : MultIn :=
  let v := fun pin => o.nodeVal d (.mult n pin)
  ⟨BitVec.ofNat 26 (nodeNum v 0 26), BitVec.ofNat 26 (nodeNum v 26 26), BitVec.ofNat 20 (nodeNum v 52 20),
    BitVec.ofNat 48 (nodeNum v 72 48), v 120, v 121, BitVec.ofNat 2 (nodeNum v 122 2)⟩

/-- A multiply block on an edge (R120 to R123). -/
def State.multOnEdge (t o : State) (d : Die) (n : Nat) (edges : List (Nat × Bool)) : State :=
  if o.edgeAt d edges (multBox n) (o.multSet d n).clk false then
    t.multClock d n (o.nodeVal d (.mult n 124)) (o.nodeVal d (.mult n 125)) (o.multPins d n) (o.pcin d n)
  else t

/-! ### Seam registers (R181 to R186) -/

/-- The bits of the wires of the sub-groups that a mask names. -/
def wireMask (dir : BitVec 4) : BitVec 128 :=
  (List.range 4).foldl (fun m k => if dir.getLsbD k then m ||| BitVec.ofNat 128 ((2 ^ 32 - 1) * 2 ^ (32 * k)) else m) 0

/-- Put bits into a register under a mask. -/
def underMask (old new mask : BitVec 128) : BitVec 128 := (old &&& ~~~ mask) ||| (new &&& mask)

/-- A MESO group that has launched: what crosses reaches the other end, at most three launches deep. -/
def Seam.take (x : Seam) (v : BitVec 128) : Seam := { x with phase := (x.phase ++ [v]).drop (x.phase.length - 2) }

/-- An end of a seam group launches, in its clock, the wires that it sends. -/
def State.seamLaunch (s : State) (d : Die) (edge g : Nat) (v : BitVec 128) : State :=
  let x := s.seam d edge g
  let v := underMask x.launch v (wireMask (~~~ s.seamDir d edge g))
  let s := s.setSeam d edge g { x with launch := v }
  let o := acrossEdge d edge
  s.setSeam o edge g ((s.seam o edge g).take v)

/-- An end of a seam group captures in its clock. A MESO group takes what was launched the cycle before, all wires on one edge (DEDUCED,
log entry 187). In ASYNC mode each wire crosses on its own: one that has changed since the last capture edge is taken on this edge or on
the next (R182, R184; an open value). While the group presents clamp values its capture register holds, and what crosses is lost. -/
def State.seamCapture (s : State) (d : Die) (edge g : Nat) : State :=
  let x := s.seam d edge g
  let mask := if s.seamClamped d edge g then 0 else wireMask (s.seamDir d edge g)
  if x.cfg.async then
    let now := (s.seam (acrossEdge d edge) edge g).launch
    let early := BitVec.ofNat 128 (s.free 128)
    (s.setSeam d edge g { x with capture := underMask x.capture (underMask x.seen now early) mask, seen := now }).used
  else match x.phase with
    | v :: t => s.setSeam d edge g { x with capture := underMask x.capture v mask, phase := t }
    | [] => s

/-- The ends of seam groups on a die, as edge and group. -/
def State.seamEnds (s : State) (d : Die) : List (Nat × Nat) :=
  (s.fab.seams.filter fun e => e.1 / 2048 == d.idx).map fun e => (e.1 / 128 % 16, e.1 % 128)

/-- The fabric PLL behind a clock of a parcel, as a net + 1 (R94, R95). -/
def State.netPll (s : State) (d : Die) (p net : Nat) : Option Nat :=
  let ofGlobal (n : Nat) : Option Nat :=
    let c := Tbl.get 0 s.fab.globals (globalKey d n)
    if 1 ≤ c ∧ c ≤ 16 then some ((c - 1) / 4) else none
  if net = 0 then none
  else if net ≤ 32 then ofGlobal (net - 1)
  else
    let c := Tbl.get 0 s.fab.regionals ((d.idx * 16 + p) * 12 + (net - 33))
    if 1 ≤ c ∧ c ≤ 128 then ofGlobal ((c - 1) / 4) else none

/-- A clock of a MESO group stops or changes frequency: a locked end unlocks and reports it (R185). -/
def State.seamUnlock (s : State) (d : Die) (edge g : Nat) : State :=
  let a := atSeam d edge g
  if edgeOn d edge && !(s.seam d edge g).cfg.async && s.flag a .WLD_SEAM_STAT_LOCKED then
    let s := (s.puts a [(.WLD_SEAM_STAT_LOCKED, 0), (.WLD_SEAM_STAT_UNLOCK, 1)]).bump a .WLD_SEAM_STAT_UNLOCKS 1
    s.raise d Ev.SEAM_UNLOCK (edge + g * 2 ^ 8)
  else s

/-- A fabric PLL of a die loses lock or retunes: the MESO groups that it clocks unlock, at both ends (R185). -/
def State.seamsLose (s : State) (d : Die) (pll : Nat) : State :=
  ((s.seamEnds d).filter fun e =>
      let tile := seamTile d e.1 e.2
      s.netPll d (parcelAt tile.1 tile.2) (s.boxClock d (tile.1, logicBox tile.2) (s.seam d e.1 e.2).cfg.clk) == some pll).foldl
    (fun s e => (s.seamUnlock d e.1 e.2).seamUnlock (acrossEdge d e.1) e.1 e.2) s

/-- The seam groups of a die on an edge: they capture, then launch the values of the state `o` before the edge. -/
def State.seamsOnEdge (t o : State) (d : Die) (edges : Nat → List (Nat × Bool)) : State :=
  ((o.seamEnds d).filter fun e =>
      let tile := seamTile d e.1 e.2
      o.edgeAt d (edges (parcelAt tile.1 tile.2)) (tile.1, logicBox tile.2) (o.seam d e.1 e.2).cfg.clk false).foldl
    (fun t e => (t.seamCapture d e.1 e.2).seamLaunch d e.1 e.2
      (BitVec.ofNat 128 (nodeNum (fun w => o.nodeVal d (.launch e.1 e.2 w)) 0 128))) t

/-! ### The edge -/

/-- The outside of a die's routing comes to present a value. -/
def State.present (s : State) (d : Die) (i : FabInput) : State :=
  s.setFab { s.fab with outside := match i with
    | .pin n (some v) => Tbl.set s.fab.outside (pinKey d n) v
    | .pin n none => Tbl.erase s.fab.outside (pinKey d n)
    | .port p n v => if v then Tbl.set s.fab.outside (portSigKey d p n.toNat) v else Tbl.erase s.fab.outside (portSigKey d p n.toNat) }

/-- The levels and counts of the clock nets after an edge. -/
def State.netsMove (s : State) (d : Die) (src : ClkSrc) (rising : Bool) (nets : List Nat) (edges : Nat → List (Nat × Bool)) : State :=
  let high := match src with
    | .entry n => levelSet s.fab.high (entryKey d n) rising
    | .parcelEntry p n => levelSet s.fab.high (parcelEntryKey d p n) rising
    | _ => s.fab.high
  let high := nets.foldl (fun l n => levelSet l (globalKey d n) rising) high
  let high := (List.range 16).foldl (fun l p => ((edges p).filter fun e => 32 ≤ e.1).foldl
    (fun l e => levelSet l (regionalKey d p (e.1 - 32)) e.2) l) high
  let rises := if rising then nets.foldl (fun t n => Tbl.set t (globalKey d n) ((Tbl.get 0 t (globalKey d n) + 1) % 8)) s.fab.rises
    else s.fab.rises
  s.setFab { s.fab with high := high, rises := rises }

/-- SR rises in a cluster: in ASYNC mode its flip-flops take SRVAL at once, unless GSR holds them (R79). SR is what the cluster's routing
brings it. -/
def execAsyncSrAssert (die : FDie) (cluster : Fin 270336) (s : State) : Res :=
  let cfg := s.cluster die.die cluster
  .next (if cfg.async && s.stageOf die.die (clusterParcel cluster) == 3 && s.nodeVal die.die (.cell cluster 66) then
    (s.setFfs (Tbl.set s.ffs (clusterKey die.die cluster) (BitVec.ofNat 16 (srRow (s.ff die.die cluster) 0 cfg.cells)))).railSettle die.die
  else s)

/-! ### Block RAM and multiply blocks -/

/-- A read at a block RAM port. -/
def execBramRead (die : FDie) (block : Fin 2112) (portB : Bool) (addr : BitVec 12) (rsto : Bool) (other : Option BramAccess)
    (s : State) : Res := .next ((s.bramAccess die.die block portB ⟨addr, 0, 0, rsto⟩ other).railSettle die.die)

/-- A write that enables all four bytes of its internal word. -/
def execBramWrite (die : FDie) (block : Fin 2112) (portB : Bool) (access : BramAccess) (other : Option BramAccess)
    (s : State) : Res := .next ((s.bramAccess die.die block portB access other).railSettle die.die)

/-- A narrow write: read, merge, write within one port cycle (R110, R111). -/
def execBramNarrowWrite (die : FDie) (block : Fin 2112) (portB : Bool) (access : BramAccess) (other : Option BramAccess)
    (s : State) : Res := .next ((s.bramAccess die.die block portB access other).railSettle die.die)

/-- A clock edge of a multiply block with its CE and RST. -/
def execMultiplyClockEdge (die : FDie) (block : Fin 4224) (ce rst : Bool) (ins : MultIn) (s : State) : Res :=
  .next ((s.multClock die.die block ce rst ins (s.pcin die.die block)).railSettle die.die)

end Sys2Proof.Machine
end

