-- ==== Sys2Proof/Machine/Noc.lean ====
section
/-! DEFINITION. The Lumkeom network: address map, routes, the issue of requests and their refusal, class X, routers and tags
(chapter 05). -/

namespace Sys2Proof

/-- Reads of R134. -/
def NocReq.isRead (r : NocReq) : Bool := decide (r.op.toNat < 3)

/-- Atomics of R134. -/
def NocReq.isAtomic (r : NocReq) : Bool := decide (16 ≤ r.op.toNat ∧ r.op.toNat ≤ 22)

/-- Writes of R134. -/
def NocReq.isWrite (r : NocReq) : Bool := r.op == 8 || r.op == 9

/-- Whether a request's response brings data: that of a read, or the old value of an atomic (R134). -/
def NocReq.brings (r : NocReq) : Bool := r.isRead || r.isAtomic

/-- Whether a request takes data to its target. -/
def NocReq.takes (r : NocReq) : Bool := r.isWrite || r.isAtomic

/-- Whether an opcode names a request. -/
def NocReq.known (r : NocReq) : Bool := r.isRead || r.op == 3 || r.isWrite || r.isAtomic

/-- Whether a request leaves a port die in the upper of two rows (R129): by bit 6 of the address of a REQ flit or a DAT write flit, by bit 0
of the tag of an atomic; class X never does. -/
def NocReq.low (r : NocReq) : Bool := r.cls != 0 && (if r.isAtomic then r.tag.getLsbD 0 else r.addr.getLsbD 6)

/-- The header of a request (R134): a REQ flit, or HDR of a DAT request flit, with its check code. -/
def NocReq.header (r : NocReq) : BitVec 160 :=
  let b := r.addr.toNat + r.size.toNat * 2 ^ 48 + natOf r.alloc * 2 ^ 51 + r.icls.toNat * 2 ^ 52 + r.op.toNat * 2 ^ 56 +
    r.cls.toNat * 2 ^ 61 + r.gen.toNat * 2 ^ 63 + r.tag.toNat * 2 ^ 67 + r.src.toNat * 2 ^ 77 + r.tgt.toNat * 2 ^ 89 +
    r.xent.toNat * 2 ^ 101
  BitVec.ofNat 160 (b + Config.flitCheck 144 b % 2 ^ 16 * 2 ^ 144)

/-- The ECC of a line: 8 check bits for each 64-bit word (R134). -/
def lineEcc (data : BitVec 512) : Nat :=
  (List.range 8).foldr (fun i v => Machine.eccBits 64 (bitsOf data.toNat (64 * i) 64) % 256 + 256 * v) 0

/-- The first byte of a request's data in its line: its address, or for AT_CAS that of the aligned 16-byte field whose lower half carries the
compare value and whose upper half the swap value (R136). -/
def NocReq.dataByte (r : NocReq) : Nat := if r.op = 18 then r.addr.toNat % 64 / 16 * 16 else r.addr.toNat % 64

/-- The flit of a request: REQ, or DAT where it takes data (R134). The bytes stand at their place in the line. -/
def NocReq.flit (r : NocReq) : Flit :=
  if r.takes then
    let data := BitVec.ofNat 512 (r.data.toNat * 2 ^ (8 * r.dataByte))
    let be := r.be.toNat % 2 ^ 2 ^ r.size.toNat * 2 ^ (r.addr.toNat % 64) % 2 ^ 64
    ⟨3, true, BitVec.ofNat 1024 (data.toNat + be * 2 ^ 512 + lineEcc data * 2 ^ 576 + r.header.toNat * 2 ^ 640)⟩
  else ⟨0, true, r.header.setWidth 1024⟩

/-- An RSP flit, and the header of a response that brings data (R134): kind 0 completion, 1 and 2 snoop acknowledgement without and with
data. -/
def rspHeader (status tag gen dst src cls kind line : Nat) : BitVec 96 :=
  let b := status % 2 ^ 4 + tag % 2 ^ 10 * 2 ^ 4 + gen % 2 ^ 4 * 2 ^ 14 + dst % 2 ^ 12 * 2 ^ 18 + src % 2 ^ 12 * 2 ^ 30 + cls % 4 * 2 ^ 42 +
    kind % 4 * 2 ^ 44 + line % 2 ^ 42 * 2 ^ 46
  BitVec.ofNat 96 (b + Config.flitCheck 88 b % 2 ^ 8 * 2 ^ 88)

/-- The flit of a response: RSP, or DAT where it brings data. -/
def rspFlit (status tag gen dst src cls kind line : Nat) (data : Option (BitVec 512)) : Flit :=
  let h := rspHeader status tag gen dst src cls kind line
  match data with
  | none => ⟨1, false, h.setWidth 1024⟩
  | some v => ⟨3, false, BitVec.ofNat 1024 (v.toNat + lineEcc v * 2 ^ 576 + h.toNat * 2 ^ 640)⟩

/-- A SNP flit (R134): 0 SNP_INV, 1 SNP_DOWN, 2 SNP_FLUSH. -/
def snpFlit (line dst src stag op cls : Nat) : Flit :=
  let b := line % 2 ^ 42 + dst % 2 ^ 12 * 2 ^ 42 + src % 2 ^ 12 * 2 ^ 54 + stag % 2 ^ 10 * 2 ^ 66 + op % 8 * 2 ^ 76 + cls % 4 * 2 ^ 79
  ⟨2, false, BitVec.ofNat 1024 (b + Config.flitCheck 88 b % 2 ^ 8 * 2 ^ 88)⟩

/-- The header of a flit: HDR of a DAT flit. -/
def Flit.head (f : Flit) : Nat := if f.net = 3 then bitsOf f.bits.toNat 640 160 else f.bits.toNat % 2 ^ 160

/-- Whether the header has the REQ layout. -/
def Flit.isReq (f : Flit) : Bool := f.net == 0 || (f.net == 3 && f.request)

/-- Whether the check code matches (R134). -/
def Flit.chkOk (f : Flit) : Bool :=
  if f.isReq then bitsOf f.head 144 16 == Config.flitCheck 144 (f.head % 2 ^ 144) % 2 ^ 16
  else bitsOf f.head 88 8 == Config.flitCheck 88 (f.head % 2 ^ 88) % 2 ^ 8

/-- The class of a flit. -/
def Flit.cls (f : Flit) : BitVec 2 := BitVec.ofNat 2 (bitsOf f.head (if f.isReq then 61 else if f.net = 2 then 79 else 42) 2)

/-- The identity a flit goes to. -/
def Flit.dst (f : Flit) : BitVec 12 := BitVec.ofNat 12 (bitsOf f.head (if f.isReq then 89 else if f.net = 2 then 42 else 18) 12)

/-- The bit with which a flit leaves a port die (R129): bit 6 of the address of a REQ flit or a DAT write flit, bit 0 of the tag of every
other. -/
def Flit.low (f : Flit) : Bool :=
  let op := bitsOf f.head 56 5
  if f.isReq then (if f.net == 0 || op == 8 || op == 9 then bitOf f.head 6 else bitOf f.head 67)
  else bitOf f.head (if f.net = 2 then 66 else 4)

end Sys2Proof

namespace Sys2Proof.Machine

/-! ### The address map -/

/-- What an address names (R42 to R44). -/
inductive Target where
  | cxl (port off : Nat)
  | ddr (ch off : Nat)
  | localMem (die : Die) (core w : Nat)
  | program (die : Die) (core w : Nat)
  | hearth (die : Die) (w : Nat)
  | port (die : Die) (parcel p off : Nat)
  | buffer (die : Die) (off : Nat)
  | window (off : Nat)
  | control (die : Die) (off : Nat)
  deriving DecidableEq, Repr

/-- The region of a fabric die's local window (R43). -/
def fabricTarget (d : Die) (o : Nat) : Option Target :=
  if o < 0x800000 then
    let r := o % 0x100000
    if r < 0x80000 then some (.localMem d (o / 0x100000) (r / 4))
    else if r < 0xA0000 then some (.program d (o / 0x100000) ((r - 0x80000) / 4))
    else none
  else if 0x1000000 ≤ o ∧ o < 0x1200000 then some (.hearth d ((o - 0x1000000) / 4))
  else if 0x80000000 ≤ o then
    let n := (o - 0x80000000) / 0x800000
    some (.port d (n / 16) (n % 16) (o % 0x800000))
  else none

/-- The region of a port die's local window (R44). -/
def portDieTarget (d : Die) (o : Nat) : Option Target :=
  if o < 0x4000000 then some (.buffer d o)
  else if d = .e0 ∧ 0x40000000 ≤ o ∧ o < 0x50000000 then some (.window (o - 0x40000000))
  else none

/-- The initiator's address decoder (R42 to R44); a DDR5 channel's row goes ahead of the row "Unassigned" that overlaps it (log
entry 13). -/
def decodeAddr (a : Nat) : Option Target :=
  if a < 0x200000000000 then some (.cxl (a / 0x080000000000) (a % 0x080000000000))
  else if a < 0x204000000000 then some (.ddr ((a - 0x200000000000) / 0x1000000000) (a % 0x1000000000))
  else if 0x300000000000 ≤ a ∧ a < 0x300800000000 then
    let d := Die.ofIdx ((a - 0x300000000000) / 2 ^ 32)
    if d.isFab then fabricTarget d (a % 2 ^ 32) else portDieTarget d (a % 2 ^ 32)
  else if 0x3F0000000000 ≤ a ∧ a < 0x3F0800000000 then
    some (.control (Die.ofIdx ((a - 0x3F0000000000) / 2 ^ 32)) (a % 2 ^ 32))
  else none

/-- The port die of a CXL port or DDR5 channel (R42). -/
def homeDie (n : Nat) : Die := if n < 2 then .e0 else .e1

/-- The die of a target. -/
def Target.die : Target → Die
  | .cxl p _ => homeDie p
  | .ddr c _ => homeDie c
  | .localMem d _ _ | .program d _ _ | .hearth d _ | .port d _ _ _ | .buffer d _ | .control d _ => d
  | .window _ => .e0

/-- An endpoint's identity (R133). -/
def ident (d : Die) (row col e : Nat) : Nat := d.idx * 512 + row * 64 + col * 8 + e

/-- The identity of a fabric port. -/
def portIdent (d : Die) (parcel p : Nat) : Nat := ident d (2 * (parcel / 4) + p / 8) (2 * (parcel % 4) + p / 4 % 2) (p % 4)

/-- The identity of a Hammer core (R264). -/
def coreIdent (d : Die) (k : Nat) : Nat := ident d 4 k 5

/-- The identity of the endpoint that serves a target (R133). The tables name none for the configuration image window: endpoint 4 of E0, row 4,
column 3 serves it (DESIGN CHOICE, log entry 210). -/
def Target.ident : Target → Nat
  | .cxl p _ => Machine.ident (homeDie p) (if p % 2 = 0 then 1 else 6) 0 2
  | .ddr c _ => Machine.ident (homeDie c) (if c % 2 = 0 then 2 else 5) 0 2
  | .localMem d k _ | .program d k _ => coreIdent d k
  | .hearth d w => Machine.ident d 3 (w % 8) 6
  | .port d q p _ => portIdent d q p
  | .buffer d o => Machine.ident d (o / 2 ^ 21 % 8) (o / 2 ^ 24 % 4) 0
  | .window _ => Machine.ident .e0 4 3 4
  | .control d _ => if d.isFab then Machine.ident d 0 0 7 else Machine.ident d 0 3 7

/-- The die of an identity. -/
def idDie (id : Nat) : Die := Die.ofIdx (id / 512)

/-- The router row of an identity. -/
def idRow (id : Nat) : Nat := id / 64 % 8

/-- The router column of an identity. -/
def idCol (id : Nat) : Nat := id / 8 % 8

/-- The fabric port that an identity of a fabric die names, as parcel and port (R133). -/
def idPort (id : Nat) : Option (Nat × Nat) :=
  if (idDie id).isFab = true ∧ id % 8 < 4 then
    some (4 * (idRow id / 2) + idCol id / 2, 4 * (2 * (idRow id % 2) + idCol id % 2) + id % 8)
  else none

/-- Where the registers of an endpoint lie. -/
def atEp (id : Nat) : At := atSel (idDie id) (id % 512)

/-! ### Routers and routes -/

/-- The die at a column, in the top or the bottom row. -/
def dieAt (col : Nat) (top : Bool) : Die :=
  match col with
  | 0 => .e0
  | 1 => if top then .f0 else .f3
  | 2 => if top then .f1 else .f4
  | 3 => if top then .f2 else .f5
  | _ => .e1

/-- A router: its die, row and column. -/
structure Router where
  die : Die
  row : Nat
  col : Nat
  deriving DecidableEq, Repr

/-- The global column of a router (R128). -/
def Router.gx (r : Router) : Nat :=
  match r.die with
  | .e0 => 3 - r.col
  | .e1 => 28 + r.col
  | d => 4 + 8 * (d.col - 1) + r.col

/-- The global row of a router, and whether it spans that row and the next (R128). -/
def Router.gy (r : Router) : Nat := if r.die.isPort then 2 * r.row else if r.die.top then 8 + r.row else r.row

/-- The output port a flit for an endpoint takes: 0 N, 1 E, 2 S, 3 W, 4 local (R129). -/
def Router.out (r : Router) (dst : Nat) : Nat :=
  let t : Router := ⟨idDie dst, idRow dst, idCol dst⟩
  if t.gx > r.gx then 1 else if t.gx < r.gx then 3
  else if t.die.isPort then (if t.row > r.row then 0 else if t.row < r.row then 2 else 4)
  else if t.gy > r.gy then 0 else if t.gy < r.gy then 2 else 4

/-- The router beyond an output port (R24, R127); `low` is the bit of R129 with which a flit leaves a port die. -/
def Router.next (r : Router) (out : Nat) (low : Bool) : Router :=
  if r.die.isPort then
    match out with
    | 0 => ⟨r.die, r.row + 1, r.col⟩
    | 2 => ⟨r.die, r.row - 1, r.col⟩
    | 1 => if r.die = .e0 then (if r.col = 0 then cross (2 * r.row + natOf low) 1 0 else ⟨r.die, r.row, r.col - 1⟩)
        else ⟨r.die, r.row, r.col + 1⟩
    | 3 => if r.die = .e0 then ⟨r.die, r.row, r.col + 1⟩
        else if r.col = 0 then cross (2 * r.row + natOf low) 3 7 else ⟨r.die, r.row, r.col - 1⟩
    | _ => r
  else
    match out with
    | 0 => if r.row = 7 then ⟨dieAt r.die.col true, 0, r.col⟩ else ⟨r.die, r.row + 1, r.col⟩
    | 2 => if r.row = 0 then ⟨dieAt r.die.col false, 7, r.col⟩ else ⟨r.die, r.row - 1, r.col⟩
    | 1 => if r.col = 7 then east r else ⟨r.die, r.row, r.col + 1⟩
    | 3 => if r.col = 0 then west r else ⟨r.die, r.row, r.col - 1⟩
    | _ => r
where
  cross (gy c x : Nat) : Router := ⟨dieAt c (decide (8 ≤ gy)), gy % 8, x⟩
  east (r : Router) : Router :=
    if r.die.col = 3 then ⟨.e1, r.gy / 2, 0⟩ else ⟨dieAt (r.die.col + 1) r.die.top, r.row, 0⟩
  west (r : Router) : Router :=
    if r.die.col = 1 then ⟨.e0, r.gy / 2, 0⟩ else ⟨dieAt (r.die.col - 1) r.die.top, r.row, 7⟩

/-- The crossing of a die edge by a flit: from die, to die, and the Weld channel (R22). -/
def crossing (r t : Router) (out : Nat) : List (Die × Die × Nat) :=
  if r.die = t.die then []
  else match edgeOf r.die t.die with
    | none => []
    | some e => [(r.die, t.die, e * 8 + (if out = 0 ∨ out = 2 then r.col else if r.die.isFab then r.row else t.row))]

/-- The edges a flit crosses on its route to an endpoint (R129). The first argument bounds the hops. -/
def crossings : Nat → Router → Nat → Bool → List (Die × Die × Nat)
  | 0, _, _, _ => []
  | n + 1, r, dst, low =>
    let out := r.out dst
    if out = 4 then []
    else
      let t := r.next out low
      crossing r t out ++ crossings n t dst low

/-- The router of an endpoint. -/
def idRouter (id : Nat) : Router := ⟨idDie id, idRow id, idCol id⟩

/-- The crossings of a request, with the bit that picks the row in which it leaves a port die (R129). -/
def reqCrossings (src dst : Nat) (low : Bool) : List (Die × Die × Nat) := crossings 64 (idRouter src) dst low

/-- The crossings of a response: bit 0 of the tag picks the row. -/
def rspCrossings (resp dst cls tag : Nat) : List (Die × Die × Nat) := crossings 64 (idRouter resp) dst (cls != 0 && bitOf tag 0)

/-- The first fence on a path that is not OPEN (R159, R160, R176): its holder, and 1 DRAINING, 2 CLOSED, 3 DOWN, or 5 where the
channel is FAILED. -/
def State.fenceOn (s : State) : List (Die × Die × Nat) → Option (Die × Nat)
  | [] => none
  | (a, b, ch) :: t =>
    let f := s.get (atDie a) (.NOC_DFENCE_STAT_D b.idx)
    if f ≠ 0 then some (a, f)
    else if s.get (atSel a ch) .WLD_CH_STAT_STATE = 5 then some (a, 5)
    else State.fenceOn s t

/-! ### Where Weld channels end (R22, R24, R170) -/

/-- The receive buffers of a direction, by pool 4 × NET + CLS (R170). -/
def weldBuffers : List Nat := [16, 16, 16, 8, 16, 16, 16, 8, 0, 16, 16, 8, 40, 40, 40, 20]

/-- An end that has never trained. -/
def WeldEnd.new : WeldEnd where
  records := []
  map := []
  step := 0
  heard := false
  slot := 0
  queue := []
  cur := none
  rx := []
  txSeq := 0
  replay := []
  credits := List.replicate 16 0
  seen := List.replicate 16 0
  ack := 255
  nak := false
  acted := none
  freed := List.replicate 16 0
  shares := [8, 4, 1]
  turns := [0, 0, 0, 0]
  win := 0
  winErrs := 0
  winHit := false

/-- The key of an end. -/
def weldKey (d : Die) (ch : Nat) : Nat := d.idx * 128 + ch

/-- An end. -/
def State.weld (s : State) (d : Die) (ch : Nat) : WeldEnd := Tbl.get WeldEnd.new s.welds (weldKey d ch)

/-- The pool of a flit (R166). -/
def flitPool (f : Flit) : Nat := 4 * f.net.toNat + f.cls.toNat

/-- A flit leaves a router for a Weld channel: it joins the channel's queue, and is lost where the channel is off, down or failed
(R171, R173). -/
def State.weldPut (s : State) (d : Die) (ch : Nat) (f : Flit) : State :=
  let st := s.get (atSel d ch) .WLD_CH_STAT_STATE
  if st = 1 ∨ st = 2 ∨ st = 3 then
    let w := s.weld d ch
    s.setWelds (Tbl.set s.welds (weldKey d ch) { w with queue := w.queue ++ [f] })
  else s

/-- The router at which a channel ends on a die, and the input by which its flits come (R24). -/
def weldRouter (d : Die) (ch : Nat) : Router × Nat :=
  let o := acrossEdge d (ch / 8)
  let i := ch % 8
  if d.isPort then (⟨d, (if o.top then 4 else 0) + i / 2, 0⟩, if d = .e0 then 1 else 3)
  else if o.isFab && o.col == d.col then (if d.top then (⟨d, 0, i⟩, 2) else (⟨d, 7, i⟩, 0))
  else if o.col < d.col then (⟨d, i, 0⟩, 3)
  else (⟨d, i, 7⟩, 1)

/-- The key of a router of a network. -/
def routerKey (r : Router) (net : Nat) : Nat := ((r.die.idx * 4 + net) * 8 + r.row) * 8 + r.col

/-- Where the registers of a router lie (NOC_RTR_IDX). -/
def atRouter (r : Router) (net : Nat) : At := atSel r.die (net * 256 + r.row * 8 + r.col)

/-- The weights of H, N and B at a router; 0 acts as 1 (R131). -/
def State.weights (s : State) (r : Router) (net : Nat) : List Nat :=
  [Nat.max 1 (s.get (atRouter r net) .NOC_RTR_CTRL_WGT_H), Nat.max 1 (s.get (atRouter r net) .NOC_RTR_CTRL_WGT_N),
    Nat.max 1 (s.get (atRouter r net) .NOC_RTR_CTRL_WGT_B)]

/-- Take the first waiting flit for an output with a class. -/
def takeFlit (out cls : Nat) : List WaitFlit → Option (WaitFlit × List WaitFlit)
  | [] => none
  | w :: t =>
    if w.out = out ∧ w.flit.cls.toNat = cls then some (w, t)
    else (takeFlit out cls t).map fun (f, l) => (f, w :: l)

/-- Which flit an output sends next, and the shares of H, N and B left in the round: class X first, then the classes in turn
while they have shares left, a new round where none of the waiting classes has (R131). A class sends only where `may` says that it has a
credit. -/
def arbitrate (out : Nat) (may : Nat → Bool) (weights shares : List Nat) (l : List WaitFlit) :
    Option (WaitFlit × List WaitFlit × List Nat) :=
  let take (c : Nat) : Option (WaitFlit × List WaitFlit) := if may c then takeFlit out c l else none
  match take 0 with
  | some (w, t) => some (w, t, shares)
  | none =>
    let pick (sh : List Nat) : Option (WaitFlit × List WaitFlit × List Nat) :=
      [1, 2, 3].findSome? fun c =>
        if sh.getD (c - 1) 0 = 0 then none
        else (take c).map fun (w, t) => (w, t, sh.set (c - 1) (sh.getD (c - 1) 0 - 1))
    match pick shares with
    | some r => some r
    | none => pick weights

/-- The key of the credits of a router output for a class. -/
def creditKey (r : Router) (net out cls : Nat) : Nat := (routerKey r net * 8 + out) * 4 + cls

/-- Whether an output leads to another router of the die, whose buffers need credits (R131); Weld channels keep credits of their own
(R170), and endpoints take what comes. -/
def Router.inDie (r : Router) (out : Nat) : Bool := out != 4 && (r.next out false).die == r.die

/-- Whether an output has a credit for a class: a buffer holds 4 flits (R131). -/
def State.hasCredit (s : State) (r : Router) (net out cls : Nat) : Bool :=
  !r.inDie out || decide (Tbl.get 0 s.net.used (creditKey r net out cls) < 4)

/-- Change the credits that a router output uses for a class. -/
def State.useCredit (s : State) (r : Router) (net out cls : Nat) (up : Bool) : State :=
  let k := creditKey r net out cls
  let n := Tbl.get 0 s.net.used k
  let n := if up then n + 1 else n - 1
  s.setNet { s.net with used := if n = 0 then Tbl.erase s.net.used k else Tbl.set s.net.used k n }

/-- A flit leaves a router: it is counted, and goes on with the port it takes at the next router, using a credit there; the buffer that it
leaves gives its credit back to the router before (R130, R131). -/
def State.forward (s : State) (r : Router) (net : Nat) (w : WaitFlit) : State :=
  let low := w.flit.low && w.flit.cls != 0
  let ahead := if w.out = 4 then 4 else (r.next w.out low).out w.flit.dst.toNat
  let cls := w.flit.cls.toNat
  let s := if r.inDie w.out then s.useCredit r net w.out cls true else s
  let s := if r.inDie w.inPort then s.useCredit (r.next w.inPort false) net ((w.inPort + 2) % 4) cls false else s
  let s := match crossing r (r.next w.out low) w.out with
    | (_, _, ch) :: _ => s.weldPut r.die ch w.flit
    | [] => s
  let s := (s.bump (atRouter r net) .NOC_RTR_FLITS_COUNT 1).emit (.flit r.die.idx net r.row r.col w.out ahead w.flit.bits)
  s.pmcItems r.die 0x210 (net * 2 ^ 12 + r.row * 8 + r.col) 1

/-- An output of a router that is free sends the flit that wins, if one may go (R130, R131). -/
def State.routerSend (s : State) (r : Router) (net out : Nat) : State :=
  let k := routerKey r net
  match arbitrate out (s.hasCredit r net out) (s.weights r net) (Tbl.get (s.weights r net) s.rtrShare (k * 8 + out))
      (Tbl.get [] s.routers k) with
  | none => s
  | some (w, t, sh) =>
    ((s.setRouters (if t = [] then Tbl.erase s.routers k else Tbl.set s.routers k t)).setRtrShare
      (Tbl.set s.rtrShare (k * 8 + out) sh)).forward r net w

/-- The router with a key. -/
def routerOf (k : Nat) : Router := ⟨Die.ofIdx (k / 256), k / 8 % 8, k % 8⟩

/-- A NoC cycle in which nothing arrives: each output of each router sends (R130). -/
def State.routersCycle (s : State) : State :=
  s.routers.foldl (fun s e => (List.range 5).foldl (fun s out => s.routerSend (routerOf e.1) (e.1 / 64 % 4) out) s) s

/-- Whether the class buffer of a router's input has room: it holds 4 flits (R131). -/
def State.inputRoom (s : State) (r : Router) (net cls inPort : Nat) : Bool :=
  decide (((Tbl.get [] s.routers (routerKey r net)).filter fun w => w.inPort == inPort && w.flit.cls.toNat == cls).length < 4)

/-- A flit comes to a router's input (R130, R131, R134): dropped and counted where its check code does not match, and its credit goes back to
the router before; else it joins its class buffer. A full buffer has given no credit: nothing arrives there (DEDUCED, log entry 192). -/
def State.flitIn (s : State) (r : Router) (inPort : Nat) (flit : Flit) : State :=
  let net := flit.net.toNat
  if !flit.chkOk then
    let a := atRouter r net
    let s := if r.inDie inPort then s.useCredit (r.next inPort false) net ((inPort + 2) % 4) flit.cls.toNat false else s
    let s := s.bump a .NOC_RTR_ERR_COUNT 1
    let s := if s.flag a .NOC_RTR_ERR_VALID then s else s.puts a [(.NOC_RTR_ERR_VALID, 1), (.NOC_RTR_ERR_PORT, inPort)]
    s.raise r.die Ev.NOC_FLIT_ERR (net + r.row * 2 ^ 8 + r.col * 2 ^ 16 + inPort * 2 ^ 24)
  else if s.inputRoom r net flit.cls.toNat inPort then
    let k := routerKey r net
    s.setRouters (Tbl.set s.routers k (Tbl.get [] s.routers k ++ [⟨flit, inPort, r.out flit.dst.toNat⟩]))
  else s

/-- A flit arrives at a router's input; where the output it needs is free this cycle, the output sends the flit that wins. -/
def execFlitArrival (die : Die) (row col : Fin 8) (inPort : Fin 5) (flit : Flit) (free : Bool) (s : State) : Res :=
  let r : Router := ⟨die, row, col⟩
  .next (if die.isPort = true ∧ 4 ≤ col.val then s
  else
    let s := s.flitIn r inPort flit
    if free && flit.chkOk then s.routerSend r flit.net.toNat (r.out flit.dst.toNat) else s)

/-! ### Requests -/

/-- The initiator's decoder (R136, R138, R11): the target, where the address is assigned and the transfer is aligned, within one
line, and a single 32-bit access in the control space. -/
def reqTarget (r : NocReq) : Option Target :=
  if r.size = 7 ∨ r.addr.toNat % 2 ^ r.size.toNat ≠ 0 ∨ (r.isAtomic = true ∧ r.size ≠ 2 ∧ r.size ≠ 3) then none
  else match decodeAddr r.addr.toNat with
    | some (.control d o) => if r.size = 2 then some (.control d o) else none
    | t => t

/-- The key of an initiator's tag. -/
def tagKey (id tag : Nat) : Nat := id * 1024 + tag

/-- A FREE tag that has never been used. -/
def TagSt.free : TagSt := ⟨0, 0, 0, 0, 0, 0, .plain, false, 0⟩

/-- The state of a tag. -/
def State.tag (s : State) (id tag : Nat) : TagSt := Tbl.get TagSt.free s.tags (tagKey id tag)

/-- Put the state of a tag. -/
def State.setTag (s : State) (id tag : Nat) (t : TagSt) : State := s.setTags (Tbl.set s.tags (tagKey id tag) t)

/-- The limit of a class at an endpoint in µs (R155). -/
def State.tmoLimit (s : State) (id cls : Nat) : Nat :=
  let v := match cls with
    | 0 => s.get (atEp id) .NOC_TMO_X_LIMIT
    | 1 => s.get (atEp id) .NOC_TMO_H_LIMIT
    | 2 => s.get (atEp id) .NOC_TMO_N_LIMIT
    | _ => s.get (atEp id) .NOC_TMO_B_LIMIT
  Nat.min 1000000 (Nat.max 1 v)

/-- Change the count of ISSUED tags of an endpoint. -/
def State.outst (s : State) (id : Nat) (up : Bool) : State :=
  let n := s.get (atEp id) .NOC_EP_STAT_OUTST
  s.put (atEp id) .NOC_EP_STAT_OUTST (if up then n + 1 else n - 1)

/-- Change the count of STALE tags of an endpoint. -/
def State.stale (s : State) (id : Nat) (up : Bool) : State :=
  let n := s.get (atEp id) .NOC_EP_STAT_STALE
  s.put (atEp id) .NOC_EP_STAT_STALE (if up then n + 1 else n - 1)

/-- An ISSUED tag returns to FREE. -/
def State.tagDone (s : State) (id tag : Nat) : State :=
  (s.setTag id tag { s.tag id tag with st := 0 }).outst id false

/-- The lowest FREE tag of an initiator (DESIGN CHOICE, log entry 14). -/
def State.freeTag (s : State) (id : Nat) : Option Nat := (List.range 1024).find? fun t => (s.tag id t).st == 0

/-- Return every tag of the initiators that meet a test to FREE, and drop what waits for their pacers (R158). -/
def State.freeTags (s : State) (p : Nat → Bool) : State :=
  let ids := ((s.tags.filter fun e => p (e.1 / 1024) && e.2.st != 0).map fun e => e.1 / 1024).eraseDups
  let s := s.setTags (s.tags.map fun e => if p (e.1 / 1024) then (e.1, { e.2 with st := 0 }) else e)
  let s := (s.setXWait (Tbl.keep (fun i => !p i) s.xWait)).setXHeld (Tbl.keep (fun i => !p i) s.xHeld)
  ids.foldl (fun s i => s.puts (atEp i) [(.NOC_EP_STAT_OUTST, 0), (.NOC_EP_STAT_STALE, 0)]) s

/-- The mode of a fabric port (R147). -/
def State.modeOf (s : State) (d : Die) (q p : Nat) : Nat := Tbl.get 0 s.portMode (d.idx * 256 + q * 16 + p)

/-- The status of a request that a fence on its path to an endpoint refuses, and the die that holds the fence (R138). -/
def State.fenceRefusal (s : State) (src dst : Nat) (low : Bool) : Option (Die × Nat) :=
  (s.fenceOn (reqCrossings src dst low)).map fun e => (e.1, if e.2 = 3 then 4 else 3)

/-- Whether a request goes first to the die-cache slice of its line on its own die (R150). -/
def sliceFirst (r : NocReq) (t : Target) : Bool :=
  match t with
  | .cxl _ _ | .ddr _ _ => (idDie r.src.toNat).isFab && (r.op != 1 && r.op != 2 && r.op != 3 && r.op != 9)
  | _ => false

/-- The first point on a request's path, beyond the initiator's decoder, that refuses it (R138): the die whose fence answers, and
the status. A debug access to a die that is not UP completes with DIE_DOWN (R40); the slice of a line on the own die lies before every
fence (R150). An access to the window of a port in mode INITIATOR gets DECODE as in mode OFF (DESIGN CHOICE, log entry 194). -/
def State.refusal (s : State) (r : NocReq) (t : Target) : Option (Option Die × Nat) :=
  if r.icls = 5 ∧ s.up t.die = false then some (none, 4)
  else if sliceFirst r t then none
  else match s.fenceRefusal r.src.toNat t.ident r.low with
  | some (a, st) => some (some a, st)
  | none =>
    match t with
    | .port d q p _ =>
      if s.get (atDie d) (.NOC_FENCE_STAT_P q) ≠ 0 then some (some d, 3)
      else if s.modeOf d q p = 2 ∨ s.modeOf d q p = 3 then none else some (none, 5)
    | .localMem d k _ | .program d k _ => if s.domFence d k ≠ 0 then some (some d, 3) else none
    | .hearth d _ => if s.domFence d 8 ≠ 0 then some (some d, 3) else none
    | _ => none

/-- The end on the initiator's side of the FAILED channel that a response would have to cross (R176). -/
def State.failedBack (s : State) (resp dst cls tag : Nat) : Option Die :=
  ((rspCrossings resp dst cls tag).find? fun e => s.get (atSel e.2.1 e.2.2) .WLD_CH_STAT_STATE == 5).map fun e => e.2.1

/-- A request leaves its initiator: refused on its path, with the status that comes back, or on its way to its target. A response owed
across a FAILED channel is synthesised at once, by the end on the initiator's side (R176; DEDUCED, log entry 200); a request that goes to the
slice on its own die is owed none before it misses there (R150). -/
def State.sendReq (s : State) (r : NocReq) : State × Option Nat :=
  match reqTarget r with
  | none => (s, some 5)
  | some t =>
    match s.refusal r t with
    | some (some d, st) => ((s.bump (atDie d) .NOC_FENCE_CNT_SYNTH 1).tagDone r.src.toNat r.tag.toNat, some st)
    | some (none, st) => (s.tagDone r.src.toNat r.tag.toNat, some st)
    | none =>
      let s := s.emit (.request r)
      let s := if r.takes then s.bwCount (idDie r.src.toNat) 1 r.src.toNat (2 ^ r.size.toNat) 1 else s
      match (if sliceFirst r t then none else s.failedBack t.ident r.src.toNat r.cls.toNat r.tag.toNat) with
      | some b => ((s.bump (atDie b) .NOC_FENCE_CNT_SYNTH 1).tagDone r.src.toNat r.tag.toNat, some 3)
      | none => (s, none)

/-- The reservation entry of an initiator toward a target (R139, R144). Of two that name the same pair, the first counts (DESIGN CHOICE, log
entry 232). -/
def State.xEntry (s : State) (src tgt : Nat) : Option Nat :=
  (List.range 256).find? fun e =>
    let a := atSel (idDie src) e
    s.flag a .NOC_XRES_HI_VALID && s.get a .NOC_XRES_LO_INIT == src && s.get a .NOC_XRES_LO_TGT == tgt

/-- Try to admit a class X request within its allowance of this stroke (R144): it goes to the pacer, or it is held to the next
stroke. -/
def State.xAdmit (s : State) (r : NocReq) (o : Owner) (e : Nat) (count : Bool) : State :=
  let a := atSel (idDie r.src.toNat) e
  let (ur, uw, ua) := Tbl.get (0, 0, 0) s.xUsed ((idDie r.src.toNat).idx * 256 + e)
  let k := (idDie r.src.toNat).idx * 256 + e
  let src := r.src.toNat
  let pace (u : Nat × Nat × Nat) : State :=
    let s := s.setTag src r.tag.toNat { s.tag src r.tag.toNat with since := s.cycles }
    (s.setXUsed (Tbl.set s.xUsed k u)).setXWait (Tbl.set s.xWait src (Tbl.get [] s.xWait src ++ [(r, o)]))
  let hold : State :=
    let s := s.setXHeld (Tbl.set s.xHeld src (Tbl.get [] s.xHeld src ++ [(r, o)]))
    if count then s.bump (atEp src) .NOC_EP_CNT1_X_HELD 1 else s
  if r.isAtomic then (if ua < s.get a .NOC_XRES_HI_AT then pace (ur, uw, ua + 1) else hold)
  else if r.isWrite then (if uw < s.get a .NOC_XRES_HI_WR then pace (ur, uw + 1, ua) else hold)
  else if ur < s.get a .NOC_XRES_HI_RD then pace (ur + 1, uw, ua) else hold

/-- An initiator issues a request (R138, R144, R156). The answer is the status of a refusal that comes back in this step. A tag
that is not FREE, and an opcode that names no request, issue nothing. -/
def State.issue (s : State) (r : NocReq) (o : Owner) : State × Option Nat :=
  let src := r.src.toNat
  let t := s.tag src r.tag.toNat
  if t.st ≠ 0 ∨ r.known = false then (s, none)
  else match reqTarget r with
    | none => (s, some 5)
    | some tgt =>
      let entry := if r.cls = 0 then s.xEntry src tgt.ident else none
      let demoted := r.cls == 0 && entry.isNone
      let r := { r with gen := BitVec.ofNat 4 (t.gen + 1), tgt := BitVec.ofNat 12 tgt.ident, xent := BitVec.ofNat 8 (entry.getD 0),
                        cls := if demoted then 1 else r.cls }
      let s := if demoted then s.bump (atEp src) .NOC_EP_CNT1_X_HELD 1 else s
      let s := (s.setTag src r.tag.toNat
        ⟨1, (t.gen + 1) % 16, r.cls.toNat, s.tmoLimit src r.cls.toNat, r.addr.toNat, if r.brings then 2 ^ r.size.toNat else 0, o, r.low, s.cycles⟩).outst src true
      match entry with
      | some e => (s.xAdmit r o e true, none)
      | none => s.sendReq r

end Sys2Proof.Machine
end

