-- ==== Sys2Proof/Machine/Flags.lean ====
section
/-! DEFINITION. The flags of a Hammer core and the ALU that sets them (R265, R274, R299). -/

namespace Sys2Proof.Machine

/-- The flags Z, N, C, V as bits 0 to 3 of SR. -/
def flagBits (z n c v : Bool) : Nat := natOf z + 2 * natOf n + 4 * natOf c + 8 * natOf v

/-- What an ALU operation gives. `none` is a value that the spec does not state (DESIGN CHOICE, log entry 15): the absolute value of the most
negative word, C of an operation that is neither a sum, a difference nor logical, V of ASL. -/
structure AluOut where
  value : Option HWord
  c : Option Bool
  v : Option Bool
  deriving DecidableEq, Repr

/-- Whether an exact result leaves the 24-bit signed range. -/
def over24 (i : Int) : Bool := decide (i < -8388608) || decide (8388607 < i)

/-- A result saturated to 24 bits (R274). -/
def sat24 (i : Int) : HWord :=
  if i < -8388608 then 0x800000#24 else if 8388607 < i then 0x7FFFFF#24 else BitVec.ofInt 24 i

/-- The ALU operations by their number in group 0x04 (R299): MOV, ADD, ADDS, SUB, SUBS, CMP, AND, OR, XOR, NOT, ASL, ASR, LSR,
MIN, MAX, ABS. -/
def aluOp (op : Nat) (a b : HWord) : AluOut :=
  let sum := a.toInt + b.toInt
  let diff := a.toInt - b.toInt
  let carry := decide (2 ^ 24 ≤ a.toNat + b.toNat)
  let noBorrow := decide (b.toNat ≤ a.toNat)
  let n := b.toNat % 32
  match op with
  | 0 => ⟨some a, none, some false⟩
  | 1 => ⟨some (a + b), some carry, some (over24 sum)⟩
  | 2 => ⟨some (sat24 sum), some carry, some (over24 sum)⟩
  | 3 => ⟨some (a - b), some noBorrow, some (over24 diff)⟩
  | 4 => ⟨some (sat24 diff), some noBorrow, some (over24 diff)⟩
  | 5 => ⟨some (a - b), some noBorrow, some (over24 diff)⟩
  | 6 => ⟨some (a &&& b), some false, some false⟩
  | 7 => ⟨some (a ||| b), some false, some false⟩
  | 8 => ⟨some (a ^^^ b), some false, some false⟩
  | 9 => ⟨some (~~~ a), some false, some false⟩
  | 10 => ⟨some (a <<< n), none, none⟩
  | 11 => ⟨some (a.sshiftRight n), none, some false⟩
  | 12 => ⟨some (a >>> n), none, some false⟩
  | 13 => ⟨some (if a.toInt ≤ b.toInt then a else b), none, some false⟩
  | 14 => ⟨some (if a.toInt ≤ b.toInt then b else a), none, some false⟩
  | _ => if a = 0x800000#24 then ⟨none, none, some true⟩ else ⟨some (if a.toInt < 0 then -a else a), none, some false⟩

/-- Whether a branch condition holds (R287); `xr` is SR.XR. -/
def condHolds (cond : Nat) (sr : HWord) (xr : Bool) : Bool :=
  let z := sr.getLsbD 0
  let n := sr.getLsbD 1
  let c := sr.getLsbD 2
  let v := sr.getLsbD 3
  match cond with
  | 0 => true
  | 1 => z
  | 2 => !z
  | 3 => n
  | 4 => !n
  | 5 => c
  | 6 => !c
  | 7 => v
  | 8 => !v
  | 9 => n != v
  | 10 => n == v
  | 11 => !z && n == v
  | 12 => z || n != v
  | 13 => sr.getLsbD 4
  | 14 => sr.getLsbD 5
  | _ => xr

/-- A MOVS write of SR: Z, N, C, V and IE are set; a 0 clears a sticky flag, a 1 leaves it (R265). -/
def srWritten (old new : HWord) : HWord := (new &&& 0x00200F#24) ||| (old &&& new &&& 0x0003F0#24)

/-! ### Accumulators -/

/-- Round `v / 2^n` to the nearest integer, halves to even (R272). -/
def roundEven (v : Int) (n : Nat) : Int :=
  if n = 0 then v
  else
    let q := v / (2 ^ n : Nat)
    let r := v % (2 ^ n : Nat)
    let half : Int := (2 ^ (n - 1) : Nat)
    if r < half then q else if half < r then q + 1 else if q % 2 = 0 then q else q + 1

/-- Whether an exact result wraps the accumulator (R271). -/
def over56 (i : Int) : Bool := decide (i < -36028797018963968) || decide (36028797018963967 < i)

/-- The window store: the rounded and saturated word, and whether it saturated (R272). -/
def windowWord (a : BitVec 56) (w : Nat) : HWord × Bool :=
  let r := roundEven a.toInt (8 * w)
  (sat24 r, over24 r)

/-- The window load (R272). -/
def windowLoad (x : HWord) (w : Nat) : BitVec 56 := (x.signExtend 56) <<< (8 * w)

/-- The window round, and whether it wraps (R272). -/
def windowRound (a : BitVec 56) (w : Nat) : BitVec 56 × Bool :=
  let r := roundEven a.toInt (8 * w) * (2 ^ (8 * w) : Nat)
  (BitVec.ofInt 56 r, over56 r)

/-- A raw slice: 0 bits [23:0], 1 bits [47:24], 2 bits [55:48] sign-extended (R272). -/
def sliceOf (a : BitVec 56) (k : Nat) : HWord :=
  match k with
  | 0 => a.setWidth 24
  | 1 => (a >>> 24).setWidth 24
  | _ => ((a >>> 48).setWidth 8).signExtend 24

/-- Put a raw slice; the others stay (R272). -/
def sliceInto (a : BitVec 56) (k : Nat) (x : HWord) : BitVec 56 :=
  match k with
  | 0 => (a &&& 0xFFFFFFFF000000#56) ||| x.setWidth 56
  | 1 => (a &&& 0xFF000000FFFFFF#56) ||| (x.setWidth 56 <<< 24)
  | _ => (a &&& 0x00FFFFFFFFFFFF#56) ||| ((x.setWidth 8).setWidth 56 <<< 48)

/-- The exact product of two words, shifted left by one bit where FRAC is set (R270). -/
def product (frac : Bool) (x y : HWord) : Int := if frac then 2 * (x.toInt * y.toInt) else x.toInt * y.toInt

/-- An arithmetic shift of an accumulator, left for positive counts; a left shift that changes the sign bit sets AV (R299). -/
def shiftAcc (a : BitVec 56) (n : Int) : BitVec 56 × Bool :=
  if 0 ≤ n then
    let r := a <<< n.toNat
    (r, r.msb != a.msb)
  else (a.sshiftRight (-n).toNat, false)

end Sys2Proof.Machine
end

