-- ==== Sys2Proof/Machine/Operands.lean ====
section
/-! DEFINITION. The operand forms of a Hammer core: registers, address modes and post-modify (R265, R275 to R278), and the data
space (R266). -/

namespace Sys2Proof.Machine

/-- X register `n`. -/
def Core.xr (c : Core) (n : Nat) : HWord := Tbl.get 0 c.x n

/-- Put X register `n`. -/
def Core.setX (c : Core) (n : Nat) (v : HWord) : Core := { c with x := Tbl.set c.x n v }

/-- Accumulator `n` as the chain sees it. -/
def Core.acc (c : Core) (n : Nat) : BitVec 56 := Tbl.get 0 c.a n

/-- Accumulator `n` as WST, ASV, MVAX and RND see it. -/
def Core.accSeen (c : Core) (n : Nat) : BitVec 56 := Tbl.get 0 c.va n

/-- The address mode of Ik (AMR; 3 acts as 0). -/
def Core.mode (c : Core) (k : Nat) : Nat := c.amr.toNat / 4 ^ k % 4

/-- Reverse the low `n` bits of a number. -/
def revBits : Nat → Nat → Nat
  | 0, _ => 0
  | n + 1, v => v % 2 * 2 ^ n + revBits n (v / 2)

/-- The circular step (R276). -/
def circStep (i b l : HWord) (step : Int) : HWord :=
  if l = 0 then i + BitVec.ofInt 24 step
  else b + BitVec.ofInt 24 (((i.toNat : Int) - b.toNat + step) % l.toNat)

/-- The bit-reversed step (R277). -/
def revStep (i b l : HWord) (step : Int) : HWord :=
  if l.toNat ≤ 1 then i + BitVec.ofInt 24 step
  else
    let n := Nat.log2 l.toNat
    let off := (i - b).toNat % 2 ^ n
    let inc := (BitVec.ofInt 24 step).toNat % 2 ^ n
    b + BitVec.ofNat 24 (revBits n ((revBits n off + revBits n inc) % 2 ^ n))

/-- Ik after a post-modify, in the mode of Ik (R275 to R277). -/
def Core.stepped (c : Core) (k : Nat) (step : Int) : HWord :=
  let i := Tbl.get 0 c.i k
  let b := Tbl.get 0 c.b k
  let l := Tbl.get 0 c.l k
  match c.mode k with
  | 1 => circStep i b l step
  | 2 => revStep i b l step
  | _ => i + BitVec.ofInt 24 step

/-- The address in Ik. -/
def Core.ir (c : Core) (k : Nat) : HWord := Tbl.get 0 c.i k

/-- Mk as a step. -/
def Core.mr (c : Core) (k : Nat) : Int := (Tbl.get (0 : HWord) c.m k).toInt

/-- The step of a load, store or accumulator-memory operand: modes 0 indirect, 1 +Mk, 2 +imm (R299); mode 3 is reserved. -/
def Core.operandStep (c : Core) (k mode : Nat) (imm : BitVec 15) : Option Int :=
  match mode with
  | 1 => some (c.mr k)
  | 2 => some imm.toInt
  | _ => none

/-- The step of an X or Y slot: 0 no load, 1 +width, 2 +Mk, 3 −width (R299). -/
def Core.slotStep (c : Core) (k mode width : Nat) : Option Int :=
  match mode with
  | 1 => some width
  | 2 => some (c.mr k)
  | 3 => some (-(width : Int))
  | _ => none

/-- Post-modify Ik: visible to the next instruction (R284). -/
def Core.postModify (c : Core) (k : Nat) (step : Option Int) : Core :=
  match step with
  | none => c
  | some n =>
    let v := c.stepped k n
    { c with i := Tbl.set c.i k v, wrote := .i k :: c.wrote, recent := ⟨6, .i k, v.toNat⟩ :: c.recent }

/-- Where a word address of a core leads (R266). -/
inductive HMem where
  | localMem (w : Nat)
  | hearth (w : Nat)
  | window (slot : Nat)
  | unassigned
  deriving DecidableEq, Repr

/-- The core's data space (R266). -/
def dataSpace (w : HWord) : HMem :=
  if w.toNat < 0x20000 then .localMem w.toNat
  else if 0x80000 ≤ w.toNat ∧ w.toNat < 0x100000 then .hearth (w.toNat - 0x80000)
  else if 0x800000 ≤ w.toNat then .window (w.toNat - 0x800000)
  else .unassigned

/-- The words of an aligned group of 1, 2 or 4 at an address: the address rounded down (R278). -/
def groupAt (w : HWord) (width : Nat) : List HWord :=
  (List.range width).map fun j => BitVec.ofNat 24 (w.toNat / width * width + j)

/-- Whether an address is not a multiple of the access width (R278). -/
def misaligned (w : HWord) (width : Nat) : Bool := w.toNat % width != 0

/-- The access width of a width field: 0 one word, 1 two, 2 four (R299). -/
def widthOf (f : Nat) : Nat := 2 ^ f

/-- A field that names the X registers of a group: a multiple of the width (R278). -/
def groupReg (x width : Nat) : Bool := x % width == 0

end Sys2Proof.Machine
end

