-- ==== Sys2Proof/Machine/HammerCore.lean ====
section
/-! DEFINITION. What every Hammer instruction shares: the pipeline, errors, halts, memory paths, repeats and the tongs (R265 to
R298, R326 to R332). -/

namespace Sys2Proof.Machine

/-! ### The core and its state -/

/-- The key of a core. -/
def coreKey (d : Die) (k : Nat) : Nat := d.idx * 8 + k

/-- A core. -/
def State.core (s : State) (d : Die) (k : Nat) : Core := Tbl.get Core.reset s.cores (coreKey d k)

/-- Put a core. -/
def State.setCore (s : State) (d : Die) (k : Nat) (c : Core) : State := s.setCores (Tbl.set s.cores (coreKey d k) c)

/-- Change a core. -/
def State.onCore (s : State) (d : Die) (k : Nat) (f : Core → Core) : State := s.setCore d k (f (s.core d k))

/-- HMR_CORE_STAT.STATE: 0 RESET, 1 RUN, 2 IDLE, 3 STALLED, 4 WAIT_STROKE, 5 HALTED. -/
def State.cstate (s : State) (d : Die) (k : Nat) : Nat := s.get (atUnit d k) .HMR_CORE_STAT_STATE

/-- Put HMR_CORE_STAT.STATE. -/
def State.setCstate (s : State) (d : Die) (k n : Nat) : State := s.put (atUnit d k) .HMR_CORE_STAT_STATE n

/-- SR as a program reads it, with LD and XR (R265). -/
def Core.srWord (c : Core) : HWord := c.sr ||| BitVec.ofNat 24 (c.ld % 4 * 2 ^ 10 + natOf c.resv.isSome * 2 ^ 12)

/-- TNGS (R298). -/
def State.tngs (s : State) (d : Die) (k : Nat) : HWord :=
  BitVec.ofNat 24 (s.get (atUnit d k) .HMR_TNG_STAT_QUEUED + s.get (atUnit d k) .HMR_TNG_STAT_STOPPED * 2 ^ 4 +
    s.get (atUnit d k) .HMR_TNG_STAT_STATUS * 2 ^ 5 + Tbl.get 0 s.tngDone (coreKey d k) * 2 ^ 16)

/-- Hardware sets a sticky flag of SR (R265). -/
def Core.setSticky (c : Core) (bit : Nat) : Core :=
  { c with sr := c.sr ||| BitVec.ofNat 24 (2 ^ bit), stuck := c.stuck ||| BitVec.ofNat 24 (2 ^ bit) }

/-- An instruction sets a sticky flag of SR (R265): it sets it again after a debug write of SR that meets it in the pipeline (R329). -/
def Core.stick (c : Core) (bit : Nat) : Core :=
  { c.setSticky bit with recent := ⟨6, .sticky bit, 1⟩ :: c.recent }

/-- An instruction sets a sticky flag of SR at once. -/
def State.setSr (s : State) (d : Die) (k bit : Nat) : State := s.onCore d k fun c => c.stick bit

/-- Record an error in HMR_CORE_ERR: the first since VALID was cleared, and the count. -/
def State.coreErr (s : State) (d : Die) (k cause status : Nat) (pc : BitVec 15) : State :=
  let a := atUnit d k
  let s := s.bump a .HMR_CORE_ERR_COUNT 1
  if s.flag a .HMR_CORE_ERR_VALID then s
  else s.puts a [(.HMR_CORE_ERR_VALID, 1), (.HMR_CORE_ERR_CAUSE, cause), (.HMR_CORE_ERR_STATUS, status),
    (.HMR_CORE_ERR_PC, pc.toNat)]

/-- An instruction treated as illegal: SR.IL, HMR_CORE_ERR and HMR_ILLEGAL (R293). -/
def State.hIllegal (s : State) (d : Die) (k cause : Nat) (pc : BitVec 15) : State :=
  ((s.setSr d k 7).coreErr d k cause 0 pc).raise d (128 + k) (pc.toNat + cause * 2 ^ 16)

/-- An address error of one access: SR.AE, cause 5 and HMR_ADDR_ERR (R267). -/
def State.hAddrErr (s : State) (d : Die) (k : Nat) (pc : BitVec 15) : State :=
  ((s.setSr d k 6).coreErr d k 5 0 pc).raise d (136 + k) (pc.toNat + 5 * 2 ^ 16)

/-- A NoC access that ended with a status other than OKAY: SR.NE, cause 6 and HMR_ADDR_ERR (R268). -/
def State.hNocErr (s : State) (d : Die) (k status : Nat) (pc : BitVec 15) : State :=
  ((s.onCore d k fun c => c.setSticky 9).coreErr d k 6 status pc).raise d (136 + k) (pc.toNat + 6 * 2 ^ 16 + status * 2 ^ 24)

/-! ### Results on their way -/

/-- A result takes its place (R284). -/
def Core.commitOne (c : Core) (dest : HDest) (v : Nat) : Core :=
  match dest with
  | .x n => { c with x := Tbl.set c.x n (BitVec.ofNat 24 v) }
  | .i n => { c with i := Tbl.set c.i n (BitVec.ofNat 24 v) }
  | .b n => { c with b := Tbl.set c.b n (BitVec.ofNat 24 v) }
  | .l n => { c with l := Tbl.set c.l n (BitVec.ofNat 24 v) }
  | .m n => { c with m := Tbl.set c.m n (BitVec.ofNat 24 v) }
  | .amr => { c with amr := BitVec.ofNat 16 v }
  | .lc => { c with lc := BitVec.ofNat 16 v }
  | .ls => { c with ls := BitVec.ofNat 15 v }
  | .le => { c with le := BitVec.ofNat 15 v }
  | .nwb => { c with nwb := BitVec.ofNat 23 v }
  | .sr => { c with sr := srWritten c.sr (BitVec.ofNat 24 v) }
  | .cr => { c with cr := BitVec.ofNat 24 (v % 16) }
  | .acc n => { c with va := Tbl.set c.va n (BitVec.ofNat 56 v) }
  | .av => { c with sr := c.sr ||| 0x10#24 }
  | .flags => { c with sr := (c.sr &&& ~~~ 0xF#24) ||| BitVec.ofNat 24 (v % 16) }
  | .sticky bit => { c with sr := c.sr ||| BitVec.ofNat 24 (2 ^ bit) }

/-- The instruction distance at which a result that comes late is seen (R284). -/
def lateness : HDest → Nat
  | .x _ | .sr | .cr => 3
  | .acc _ | .av => 4
  | _ => 2

/-- Note a result whose instruction stays in the pipeline for `n` more issues: six from its own (R283, R326). -/
def Core.note (c : Core) (n : Nat) (dest : HDest) (v : Nat) : Core := { c with recent := ⟨n, dest, v⟩ :: c.recent }

/-- Whether a result meets another that becomes visible to the same instruction: the spec does not say which the register then
holds (DESIGN CHOICE, log entry 16). -/
def Core.clashes (c : Core) (ready : List HPend) (e : HPend) : Bool :=
  c.wrote.contains e.dest || decide (1 < (ready.filter fun r => r.dest == e.dest && e.dest != .av).length)

/-- The results that become visible to the instruction that now issues. Sticky flags that hardware sets meanwhile go last (R265). -/
def State.hCommit (s : State) (d : Die) (k : Nat) : State :=
  let s := s.onCore d k fun c =>
    { c with recent := (c.recent.map fun e => { e with left := e.left - 1 }).filter fun e => e.left != 0 }
  let c := s.core d k
  let aged := c.pend.map fun e => { e with left := e.left - 1 }
  let ready := (aged.filter fun e => e.left == 0 && e.dest != .av) ++ (aged.filter fun e => e.left == 0 && e.dest == .av)
  let s := ready.foldl (fun s e =>
    if c.clashes ready e then (s.used).onCore d k fun c => c.commitOne e.dest (s.free 56)
    else
      let s := s.onCore d k fun c => (c.commitOne e.dest e.value).note (6 - lateness e.dest) e.dest e.value
      if e.dest = .sr ∧ c.wrote.contains .flags = true then
        (s.used).onCore d k fun c => c.commitOne .flags (s.free 4)
      else s) s
  s.onCore d k fun c =>
    { c with
      pend := aged.filter fun e => e.left != 0
      wrote := []
      sr := if ready.any fun e => e.dest == .sr then c.sr ||| c.stuck else c.sr
      stuck := 0 }

/-- A result that becomes visible `left` instructions later. -/
def State.later (s : State) (d : Die) (k left : Nat) (dest : HDest) (v : Nat) : State :=
  s.onCore d k fun c => { c with pend := c.pend ++ [⟨left, dest, v⟩] }

/-- A result that the next instruction sees. -/
def State.now (s : State) (d : Die) (k : Nat) (dest : HDest) (v : Nat) : State :=
  s.onCore d k fun c => let c := (c.commitOne dest v).note 6 dest v; { c with wrote := dest :: c.wrote }

/-- A chain instruction leaves a value in an accumulator (R284, R285). -/
def State.putAcc (s : State) (d : Die) (k n : Nat) (v : BitVec 56) (wraps : Bool) : State :=
  let s := s.onCore d k fun c => { c with a := Tbl.set c.a n v }
  let s := s.later d k 4 (.acc n) v.toNat
  if wraps then s.later d k 4 .av 1 else s

/-! ### The program counter and repeats -/

/-- The end of a repeat's last instruction (R289 to R291). -/
def Core.endOfBody (c : Core) : Core :=
  if c.lc.toNat > 1 then { c with lc := c.lc - 1, pc := c.ls }
  else if c.ld = 2 then
    let c := { c with ld := 1, rpt := false, lc := c.outer.1, ls := c.outer.2.1, le := c.outer.2.2 }
    if c.pc = c.le then
      if c.lc.toNat > 1 then { c with lc := c.lc - 1, pc := c.ls }
      else { c with ld := 0, lc := 0, pc := c.pc + 1 }
    else { c with pc := c.pc + 1 }
  else { c with ld := 0, rpt := false, lc := 0, pc := c.pc + 1 }

/-- On to the next instruction, back to LS at the end of a body. -/
def Core.next (c : Core) : Core :=
  if 0 < c.ld ∧ c.pc = c.le then c.endOfBody else { c with pc := c.pc + 1 }

/-- Whether an address lies in a body. -/
def inBody (ls le pc : BitVec 15) : Bool := decide (ls.toNat ≤ pc.toNat ∧ pc.toNat ≤ le.toNat)

/-- A branch taken ends the loops whose body its target leaves (R290, R291). -/
def Core.leave (c : Core) (t : BitVec 15) : Core :=
  if c.ld = 0 ∨ inBody c.ls c.le t then c
  else if c.ld = 2 then
    let c := { c with ld := 1, rpt := false, lc := c.outer.1, ls := c.outer.2.1, le := c.outer.2.2 }
    if inBody c.ls c.le t then c else { c with ld := 0 }
  else { c with ld := 0, rpt := false }

/-- Z, N, C, V and IE come back from the shadow (R304). -/
def Core.unshadow (c : Core) : Core :=
  let f := c.shadow.toNat
  { c with sr := (c.sr &&& ~~~ 0x200F#24) ||| BitVec.ofNat 24 (f % 16 + f / 16 * 2 ^ 13) }

/-- The program counter after an instruction has issued: two delay slots, then the branch where it is taken (R287). -/
def Core.advance (c : Core) : Core :=
  match c.br with
  | none => c.next
  | some b =>
    if b.slots ≤ 1 then
      match b.target with
      | none => { c.next with br := none }
      | some t =>
        let c := { c.leave t with pc := t, br := none }
        if b.restore then c.unshadow else c
    else { c.next with br := some { b with slots := b.slots - 1 } }

/-- Push an address onto the return stack; the oldest of 16 is lost and sets SO (R288). -/
def Core.push (c : Core) (a : BitVec 15) : Core :=
  if c.stack.length < 16 then { c with stack := a :: c.stack, spare := Tbl.erase c.spare c.stack.length }
  else { c with stack := a :: c.stack.take 15 }.stick 8

/-- Whether a position lies in the last three instructions of a LOOP body. -/
def Core.loopTail (c : Core) : Bool :=
  (decide (0 < c.ld) && !c.rpt && inBody c.ls c.le c.pc && decide (c.le.toNat < c.pc.toNat + 3)) ||
    (decide (c.ld = 2) && inBody c.outer.2.1 c.outer.2.2 c.pc && decide (c.outer.2.2.toNat < c.pc.toNat + 3))

/-- Where a branch, CALL, RET or RTI is forbidden (R292). -/
def Core.badBranch (c : Core) : Option Nat :=
  if c.br.isSome || (decide (0 < c.ld) && c.rpt) || c.loopTail then some 1 else none

/-- Where an RPT or LOOP is forbidden (R292). -/
def Core.badRepeat (c : Core) : Option Nat :=
  if c.br.isSome || (decide (0 < c.ld) && c.rpt) then some 1 else if c.ld = 2 then some 2 else none

/-- Where a WAIT_STROKE or IDLE is forbidden (R292). -/
def Core.badWait (c : Core) : Option Nat := if 0 < c.ld then some 1 else none

/-- Start a repeat of the `len` instructions after this one; a count of 0 skips them (R289 to R291). -/
def Core.startRepeat (c : Core) (isRpt : Bool) (n : BitVec 16) (len : Nat) : Core :=
  if n = 0 then { c with pc := c.pc + BitVec.ofNat 15 len }.next
  else
    { c with
      ld := c.ld + 1
      rpt := isRpt
      outer := if c.ld = 1 then (c.lc, c.ls, c.le) else c.outer
      lc := n
      ls := c.pc + 1
      le := c.pc + BitVec.ofNat 15 len
      pc := c.pc + 1 }

/-! ### Halts -/

/-- A cross-trigger reaches every core with XT_IN = 1 that runs, and is counted on each die (R332). -/
def State.crossTrigger (s : State) : State :=
  Die.all.foldl (fun s d =>
    if d.isFab && s.up d then
      (List.range 8).foldl (fun s k =>
        if s.flag (atUnit d k) .HMR_DBG_CTRL_XT_IN && s.cstate d k != 0 && s.cstate d k != 5 && (s.core d k).halt.isNone then
          s.onCore d k fun c => { c with halt := some 1 }
        else s) (s.bump (atDie d) .HMR_XTRIG_CNT_COUNT 1)
    else s) s

/-- The PC of the halt point: the next instruction that is no delay slot (R326). -/
def Core.haltPc (c : Core) : BitVec 15 :=
  match c.br with
  | none => c.pc
  | some b => ((List.range b.slots).foldl (fun c _ => c.advance) c).pc

/-- The halt point is reached (R326 to R328): the pipeline freezes, the reservation clears, HMR_HALT is raised. -/
def State.haltNow (s : State) (d : Die) (k cause : Nat) : State :=
  let a := atUnit d k
  let c := s.core d k
  let s := s.setCore d k { c with halt := none, resv := none, under := s.cstate d k, stepping := false }
  let s := (s.setCstate d k 5).puts a [(.HMR_DBG_STAT_HALTED, 1), (.HMR_DBG_STAT_PENDING, 0), (.HMR_DBG_STAT_CAUSE, cause),
    (.HMR_DBG_STAT_PC, c.haltPc.toNat)]
  let s := s.setBit (atDie d) .HMR_HALTED_CORES k
  let s := s.raise d (160 + k) (cause + c.haltPc.toNat * 2 ^ 8)
  if s.flag a .HMR_DBG_CTRL_XT_OUT && cause != 1 then s.crossTrigger else s

/-- A requested halt takes effect where it can: not at a delay slot of a core that runs, and not before a window load or ATM is answered;
at once in any other stall or wait (R326, R327). -/
def State.haltTry (s : State) (d : Die) (k : Nat) : State :=
  let c := s.core d k
  match c.halt with
  | none => s
  | some cause =>
    if (c.br.isSome && s.cstate d k == 1) || s.cstate d k == 0 || s.cstate d k == 5 then s
    else if c.stall = .load then s.put (atUnit d k) .HMR_DBG_STAT_PENDING 1
    else s.haltNow d k cause

/-- Request a halt of a core that runs; a request that waits keeps its cause. -/
def State.haltRequest (s : State) (d : Die) (k cause : Nat) : State :=
  if s.cstate d k = 0 ∨ s.cstate d k = 5 ∨ (s.core d k).halt.isSome then s
  else s.onCore d k fun c => { c with halt := some cause }

/-! ### Issue -/

/-- Whether a core issues its next instruction: it runs, and no halt waits for it (R326). -/
def State.issues (s : State) (d : Die) (k : Nat) : Bool :=
  s.cstate d k == 1 && !s.coreStill d k && ((s.core d k).halt.isNone || (s.core d k).br.isSome)

/-- Whether a WAIT_STROKE that a line interrupted now goes on waiting: the handler and its return are over (R308; DEDUCED, log entry 45). -/
def Core.backToWait (c : Core) : Bool := c.rewait && !c.inHandler && c.br.isNone

/-- A core goes on: it runs, or goes back to the WAIT_STROKE that a line interrupted. -/
def State.goOn (s : State) (d : Die) (k : Nat) : State :=
  if (s.core d k).backToWait then (s.onCore d k fun c => { c with rewait := false }).setCstate d k 4 else s.setCstate d k 1

/-- The issue of one instruction (R283, R284, R293): results due become visible; the instruction acts, or executes as NOP where
`bad` names a cause; the program counter goes on. A core that does not issue stays as it is (DEDUCED, log entry 17), and so does one whose
instruction meets a gated hearth (R511). -/
def State.hIssue (s : State) (d : Die) (k : Nat) (unsettles : Bool) (bad : Core → Option Nat) (body : State → State) : State :=
  if s.issues d k then
    let t := (s.setHearthHit false).hCommit d k
    let c := t.core d k
    let b := bad c
    let t := match b with
      | some cause => t.hIllegal d k cause c.pc
      | none => body t
    if t.hearthHit then s
    else
      let t := t.onCore d k fun c => { c.advance with hist := (unsettles && b.isNone) :: c.hist.take 2 }
      let t := t.pmcItems d 0x240 k 1
      let t := if c.br.isSome ∧ t.cstate d k = 1 then t.goOn d k else t
      let c := t.core d k
      if c.stepping && c.br.isNone then (t.setCore d k { c with halt := some 4, stepping := false }).haltTry d k else t
  else s

/-- No operand rule to break. -/
def fits (_ : Core) : Option Nat := none

/-- A bad encoding where an operand rule is broken. -/
def badIf (b : Bool) (_ : Core) : Option Nat := if b then some 0 else none

/-- Stall a core. -/
def State.stallFor (s : State) (d : Die) (k : Nat) (w : HStall) : State :=
  (s.onCore d k fun c => { c with stall := w }).setCstate d k 3

/-- A stall ends. -/
def State.unstall (s : State) (d : Die) (k : Nat) : State :=
  let s := s.onCore d k fun c => { c with stall := .none }
  if s.cstate d k = 3 then s.goOn d k else s

/-! ### Memory -/

/-- The new value of an atomic of R136 on `w`-bit words: ADD, SWAP, CAS, AND, OR, MAX, MIN; `b` is the swap value of CAS. -/
def atomicNew (op w : Nat) (old a b : Nat) : Nat :=
  match op with
  | 0 => (old + a) % 2 ^ w
  | 1 => a
  | 2 => if old = a then b else old
  | 3 => old &&& a
  | 4 => old ||| a
  | 5 => if signedOf w old < signedOf w a then a else old
  | _ => if signedOf w a < signedOf w old then a else old

/-- Clear the reservations on a hearth word (R294). -/
def State.unreserve (s : State) (d : Die) (w : Nat) : State :=
  (List.range 8).foldl (fun s k => if (s.core d k).resv = some w then s.onCore d k fun c => { c with resv := none } else s) s

/-- Write a hearth word. -/
def State.hearthWrite (s : State) (d : Die) (w : Nat) (v : HWord) : State :=
  ((s.setHearthHit (s.gated d 8)).unreserve d w).eccWrite d 4 w v.toNat

/-- Read a hearth word. -/
def State.hearthRead (s : State) (d : Die) (w : Nat) : State × HWord :=
  let (s, v, _) := (s.setHearthHit (s.gated d 8)).eccRead d 4 w
  (s, BitVec.ofNat 24 v)

/-- The ECC address of a local data word. -/
def localEcc (k w : Nat) : Nat := k * 2 ^ 17 + w

/-- A request of a core's load and store master (R264, R266, R268). -/
def State.coreReq (s : State) (d : Die) (k op slot : Nat) (data be : Nat) : NocReq :=
  let c := s.core d k
  let id := coreIdent d k
  { src := BitVec.ofNat 12 id
    tag := BitVec.ofNat 10 ((s.freeTag id).getD 0)
    gen := 0
    cls := BitVec.ofNat 2 (c.cr.toNat / 2)
    op := BitVec.ofNat 5 op
    size := 2
    alloc := c.cr.getLsbD 3
    icls := 1
    addr := BitVec.ofNat 48 (c.nwb.toNat * 2 ^ 25 + slot * 4)
    data := BitVec.ofNat 512 data
    be := BitVec.ofNat 64 be
    tgt := 0
    xent := 0 }

/-- Send a window store, or count its refusal as its answer (R268). -/
def State.sendStore (s : State) (d : Die) (k : Nat) (r : NocReq) (pc : Nat) : State :=
  let r := { r with tag := BitVec.ofNat 10 ((s.freeTag (coreIdent d k)).getD 0) }
  let (s, st) := s.issue r (.coreStore pc)
  match st with
  | some st => s.hNocErr d k st (BitVec.ofNat 15 pc)
  | none => s.onCore d k fun c => { c with stores := c.stores + 1 }

/-- Store one word (R266 to R268, R294): the 17th outstanding window store waits and stalls the core. -/
def State.storeWord (s : State) (d : Die) (k : Nat) (w v : HWord) : State :=
  let pc := (s.core d k).pc
  match dataSpace w with
  | .localMem a => s.eccWrite d 2 (localEcc k a) v.toNat
  | .hearth a => s.hearthWrite d a v
  | .unassigned => s.hAddrErr d k pc
  | .window slot =>
    let r := s.coreReq d k 8 slot (v.signExtend 32).toNat 15
    if (s.core d k).stores < 16 ∧ (s.core d k).heldStores = [] then s.sendStore d k r pc.toNat
    else (s.onCore d k fun c => { c with heldStores := c.heldStores ++ [(r, pc.toNat)] }).stallFor d k .store

/-- A misaligned group sets SR.AE (R278). -/
def State.alignFlag (s : State) (d : Die) (k : Nat) (w : HWord) (width : Nat) : State :=
  if misaligned w width then s.setSr d k 6 else s

/-! ### The tongs -/

/-- Descriptors queued or running. -/
def Core.queued (c : Core) : Nat := c.queue.length + natOf c.run.isSome

/-- Bring QUEUED up to date, and end a TWAIT that it satisfies; one that a halt froze is looked at again on resume (R296, R327). -/
def State.tngSync (s : State) (d : Die) (k : Nat) : State :=
  let c := s.core d k
  let s := s.put (atUnit d k) .HMR_TNG_STAT_QUEUED c.queued
  if s.cstate d k = 5 then s
  else match c.stall with
  | .twait n => if c.queued ≤ n ∨ s.flag (atUnit d k) .HMR_TNG_STAT_STOPPED = true then s.unstall d k else s
  | _ => s

/-- Post a descriptor; the answer says whether the queue took it (R296). -/
def State.tngPost (s : State) (d : Die) (k : Nat) (desc : List Nat) : State × Bool :=
  if 8 ≤ (s.core d k).queued then (s, false)
  else ((s.onCore d k fun c => { c with queue := c.queue ++ [desc] }).tngSync d k, true)

/-- The tongs stop at a status other than OKAY (R297). -/
def State.tngStop (s : State) (d : Die) (k status : Nat) : State :=
  let s := s.onCore d k fun c => { c with run := none }
  let s := s.puts (atUnit d k) [(.HMR_TNG_STAT_STOPPED, 1), (.HMR_TNG_STAT_STATUS, status)]
  (s.tngSync d k).raise d (144 + k) (status + Tbl.get 0 s.tngDone (coreKey d k) * 2 ^ 8)

/-- Whether a NoC address is one that the tongs reach directly (R296): the ECC group and word. -/
def tngDirect (d : Die) (k a : Nat) : Option (Nat × Nat) :=
  match decodeAddr a with
  | some (.localMem t c w) => if t = d ∧ c = k then some (2, localEcc k w) else none
  | some (.hearth t w) => if t = d then some (4, w) else none
  | _ => none

/-- Word `j` of a descriptor. -/
def descWord (desc : List Nat) (j : Nat) : Nat := desc.getD j 0

/-- The source and the destination address of a descriptor. -/
def descAddr (desc : List Nat) (dst : Bool) : Nat :=
  let j := if dst then 3 else 1
  descWord desc j + descWord desc (j + 1) * 2 ^ 24

/-- The packing of a side: 0 SLOT, 1 PACK24. -/
def descPack (desc : List Nat) (dst : Bool) : Nat := bitsOf (descWord desc 0) (if dst then 16 else 18) 2

/-- Whether a side is direct, and its address of word `i`. -/
def tngWordAt (d : Die) (k : Nat) (desc : List Nat) (dst : Bool) (i : Nat) : Nat :=
  let a := descAddr desc dst
  if (tngDirect d k a).isSome ∨ descPack desc dst = 0 then a + 4 * i else a + 3 * i

/-- A refused field: a packing other than SLOT and PACK24, or a SLOT address off a multiple of 4, on a side that is not direct (R296). -/
def descRefused (d : Die) (k : Nat) (desc : List Nat) : Bool :=
  [false, true].any fun dst =>
    (tngDirect d k (descAddr desc dst)).isNone &&
      (decide (1 < descPack desc dst) || (descPack desc dst == 0 && descAddr desc dst % 4 != 0))

/-- One NoC transfer of the tongs: a slot word, or one byte of a packed word (DESIGN CHOICE, log entry 18). -/
def State.tngReq (s : State) (d : Die) (k : Nat) (r : TongsRun) : NocReq :=
  let id := coreIdent d k
  let packed := descPack r.desc r.wr == 1
  let w0 := descWord r.desc 0
  { src := BitVec.ofNat 12 id
    tag := BitVec.ofNat 10 ((s.freeTag id).getD 0)
    gen := 0
    cls := BitVec.ofNat 2 (bitsOf w0 21 2)
    op := if r.wr then 8 else 0
    size := if packed then 0 else 2
    alloc := bitOf w0 20 && !r.wr
    icls := 2
    addr := BitVec.ofNat 48 (tngWordAt d k r.desc r.wr r.pos + r.sub)
    data := if r.wr then BitVec.ofNat 512 (if packed then r.val / 256 ^ r.sub % 256 else ((BitVec.ofNat 24 r.val).signExtend 32).toNat)
      else 0
    be := if r.wr then (if packed then 1 else 15) else 0
    tgt := 0
    xent := 0 }

/-- Put the transfer of the tongs of a core. -/
def State.tngSet (s : State) (d : Die) (k : Nat) (r : TongsRun) : State := s.onCore d k fun c => { c with run := some r }

/-- The tongs write the word in hand to on-die memory. -/
def State.tngStore (s : State) (d : Die) (k g w : Nat) (r : TongsRun) : State :=
  let s := if g = 4 then s.hearthWrite d w (BitVec.ofNat 24 r.val) else s.eccWrite d g w (r.val % 2 ^ 24)
  s.tngSet d k { r with pos := r.pos + 1, sub := 0, val := 0, wr := false }

/-- The tongs read a word of on-die memory; the answer says whether they go on. -/
def State.tngLoad (s : State) (d : Die) (k g w : Nat) (r : TongsRun) : State × Bool :=
  let x := s.eccRead d g w
  if x.2.2 = .uncorrectable then (x.1.tngStop d k 1, false) else (x.1.tngSet d k { r with val := x.2.1, sub := 0, wr := true }, true)

/-- The tongs send the request of a transfer over the NoC. -/
def State.tngSend (s : State) (d : Die) (k : Nat) (r : TongsRun) : State :=
  let x := s.issue (s.tngReq d k r) .tongs
  match x.2 with
  | some st => x.1.tngStop d k st
  | none => x.1.tngSet d k { r with sent := true }

/-- One move of a word; the answer says whether the tongs go on at once. -/
def State.tngMove (s : State) (d : Die) (k : Nat) (r : TongsRun) : State × Bool :=
  if r.fin || r.sent || s.gated d k || s.domFence d k != 0 || (s.cstate d k == 5 && s.flag (atUnit d k) .HMR_DBG_CTRL_HALT_TONGS) then (s, false)
  else if descWord r.desc 5 ≤ r.pos then (s.tngSet d k { r with fin := true }, false)
  else match tngDirect d k (tngWordAt d k r.desc r.wr r.pos) with
    | some (g, w) =>
      if g = 4 && s.gated d 8 then (s, false)
      else if r.wr then (s.tngStore d k g w r, true)
      else s.tngLoad d k g w r
    | none => (s.tngSend d k r, false)

/-- One move, where the tongs have a transfer. -/
def State.tngOne (s : State) (d : Die) (k : Nat) : State × Bool :=
  match (s.core d k).run with
  | none => (s, false)
  | some r => s.tngMove d k r

/-- The tongs move words until a transfer has to wait for its response, or every word has moved (R296, R297). The first argument
bounds the moves. -/
def State.tngGo : Nat → State → Die → Nat → State
  | 0, s, _, _ => s
  | n + 1, s, d, k => if (s.tngOne d k).2 then State.tngGo n (s.tngOne d k).1 d k else (s.tngOne d k).1

/-- Steps enough for what is left of a descriptor. -/
def tngFuel (r : TongsRun) : Nat := 2 * descWord r.desc 5 + 2

/-- A response to a transfer of the tongs (R297). -/
def State.tngAnswer (s : State) (d : Die) (k status data : Nat) : State :=
  match (s.core d k).run with
  | none => s
  | some r =>
    if status ≠ 0 then s.tngStop d k status
    else
      let last := descPack r.desc r.wr == 0 || r.sub == 2
      let r := { r with sent := false }
      let r :=
        if r.wr then
          if last then { r with pos := r.pos + 1, sub := 0, val := 0, wr := false } else { r with sub := r.sub + 1 }
        else
          let v := if descPack r.desc false = 0 then data % 2 ^ 24 else r.val + data % 256 * 256 ^ r.sub
          if last then { r with val := v, sub := 0, wr := true } else { r with val := v, sub := r.sub + 1 }
      State.tngGo (tngFuel r) (s.tngSet d k r) d k

/-! ### Loads, and responses to a core -/

/-- Post the descriptor that TNG has read; a full queue makes it illegal (R296). -/
def State.tngIssue (s : State) (d : Die) (k : Nat) (pc : BitVec 15) : State :=
  let c := s.core d k
  let desc := (List.range 6).map fun j => Tbl.get 0 c.got j
  let (s, ok) := s.tngPost d k desc
  if ok then s else s.hIllegal d k 4 pc

/-- The words that a load waited for are complete. -/
def State.loadDone (s : State) (d : Die) (k : Nat) : State :=
  let c := s.core d k
  let v (j : Nat) : Nat := Tbl.get 0 c.got j
  let s := s.setCore d k { c with got := [], cont := .none }
  match c.cont with
  | .none | .tng => s
  | .x regs => (regs.zipIdx).foldl (fun s e => s.later d k 3 (.x e.1) (v e.2)) s
  | .wld a w => s.putAcc d k a (windowLoad (BitVec.ofNat 24 (v 0)) w) false
  | .ald a n => s.putAcc d k a (sliceInto (c.acc a) n (BitVec.ofNat 24 (v 0))) false

/-- One word of a load (R266 to R268); an access at an unassigned address is one error, which its first word finds. -/
def State.loadWord (s : State) (d : Die) (k : Nat) (pc : BitVec 15) (first : Bool) (j : Nat) (w : HWord) : State :=
  let got (s : State) (v : Nat) : State := s.onCore d k fun c => { c with got := Tbl.set c.got j v }
  match dataSpace w with
  | .localMem a =>
    let (s, v, _) := s.eccRead d 2 (localEcc k a)
    got s v
  | .hearth a =>
    let (s, v) := s.hearthRead d a
    got s v.toNat
  | .unassigned => got (if first then s.hAddrErr d k pc else s) 0
  | .window slot =>
    let (s, st) := s.issue (s.coreReq d k 0 slot 0 0) (.coreLoad j pc.toNat)
    match st with
    | some st => got (s.hNocErr d k st pc) 0
    | none => s.onCore d k fun c => { c with waits := c.waits + 1 }

/-- The window words of a second slot go out, once no word of the first is awaited (R281). -/
def State.loadRest (s : State) (d : Die) (k : Nat) (pc : BitVec 15) : State :=
  let c := s.core d k
  if c.waits = 0 then
    c.rest.foldl (fun s e => s.loadWord d k pc true e.1 e.2) (s.onCore d k fun c => { c with rest := [] })
  else s

/-- Load words for a purpose, those of `rest` after the others are there (R281); a core whose words come through the NoC window stalls
until they are all there (R268). Every `n` words are one access (R278, R279). -/
def State.loadWords (s : State) (d : Die) (k n : Nat) (words : List HWord) (rest : List (Nat × HWord)) (cont : HCont) : State :=
  let pc := (s.core d k).pc
  let s := s.onCore d k fun c => { c with got := [], rest := rest, cont := cont, waits := 0 }
  let s := ((words.zipIdx).foldl (fun s e => s.loadWord d k pc (e.2 % n == 0) e.2 e.1) s).loadRest d k pc
  if (s.core d k).waits = 0 then
    (if cont = .tng then s.tngIssue d k pc else s).loadDone d k
  else s.stallFor d k .load

/-- The window stores that waited go out while there is room, and the stall they cause ends; not while a halt freezes them (R268,
R327). -/
def State.moreStores (s : State) (d : Die) (k : Nat) : State :=
  if s.cstate d k = 5 then s
  else
  let held := (s.core d k).heldStores
  let s := s.onCore d k fun c => { c with heldStores := [] }
  let s := held.foldl (fun s e =>
    if (s.core d k).stores < 16 ∧ (s.core d k).heldStores = [] then s.sendStore d k e.1 e.2
    else s.onCore d k fun c => { c with heldStores := c.heldStores ++ [e] }) s
  let c := s.core d k
  match c.stall with
  | .store => if c.heldStores = [] then s.unstall d k else s
  | .sync => if c.stores = 0 ∧ c.heldStores = [] then s.unstall d k else s
  | _ => s

/-- A word of a window load or ATM arrives (R268). -/
def State.coreLoaded (s : State) (d : Die) (k slot pc status data : Nat) : State :=
  let s := if status = 0 then s else s.hNocErr d k status (BitVec.ofNat 15 pc)
  let s := s.onCore d k fun c =>
    { c with got := Tbl.set c.got slot (if status = 0 then data % 2 ^ 24 else 0), waits := c.waits - 1 }
  let s := s.loadRest d k (BitVec.ofNat 15 pc)
  let c := s.core d k
  if c.waits = 0 then
    let s := if c.cont = .tng then s.tngIssue d k (BitVec.ofNat 15 pc) else s
    ((s.loadDone d k).unstall d k).put (atUnit d k) .HMR_DBG_STAT_PENDING 0
  else s

/-- A window store is answered (R268). -/
def State.coreStored (s : State) (d : Die) (k pc status : Nat) : State :=
  let s := if status = 0 then s else s.hNocErr d k status (BitVec.ofNat 15 pc)
  (s.onCore d k fun c => { c with stores := c.stores - 1 }).moreStores d k

/-! ### Reset of a core -/

/-- HMR_STK_STAT.TASK: a task is open from its stroke, so also while line 0 is pending (R307, R309). -/
def State.taskSync (s : State) (d : Die) (k : Nat) : State :=
  s.put (atUnit d k) .HMR_STK_STAT_TASK (natOf ((s.core d k).task || s.bit (atUnit d k) .HMR_IRQ_PEND_PEND 0))

/-- A core reset (R158, R265, R298, R331): the core starts at START_PC unless HOLD, or a die that is not released, keeps it in
reset. -/
def State.coreReset (s : State) (d : Die) (k : Nat) : State :=
  let a := atUnit d k
  let s := s.freeTags (· == coreIdent d k)
  let s := s.setCore d k { Core.reset with pc := BitVec.ofNat 15 (s.get a .HMR_CORE_CTRL_START_PC) }
  let s := s.setTngDone (Tbl.erase s.tngDone (coreKey d k))
  let s := s.puts a [(.HMR_TNG_STAT_STOPPED, 0), (.HMR_TNG_STAT_STATUS, 0), (.HMR_TNG_STAT_QUEUED, 0),
    (.HMR_DBG_STAT_HALTED, 0), (.HMR_DBG_STAT_PENDING, 0)]
  let s := (s.taskSync d k).clrBit (atDie d) .HMR_HALTED_CORES k
  if s.flag a .HMR_CORE_CTRL_HOLD || s.get (atDie d) .CFG_DIE_STAT_STAGE != 3 then s.setCstate d k 0
  else
    let s := s.setCstate d k 1
    if s.flag a .HMR_DBG_CTRL_RESET_HALT then s.haltNow d k 5 else s

/-- Every core of a die leaves reset. -/
def State.coresStart (s : State) (d : Die) : State :=
  if d.isFab then (List.range 8).foldl (fun s k => s.coreReset d k) s else s

/-- A watchdog reloads its period (R311): 0 acts as 1. -/
def State.coreWdogReload (s : State) (d : Die) (k : Nat) : State :=
  s.puts (atUnit d k) [(.HMR_WDOG_STAT_REMAIN, Nat.max 1 (s.get (atUnit d k) .HMR_WDOG_CTRL_PERIOD)), (.HMR_WDOG_STAT_WARNED, 0)]

end Sys2Proof.Machine
end

