-- ==== Sys2Proof/Machine/Hammer.lean ====
section
/-! DEFINITION. The Hammer instructions: each command is the issue of that instruction on one core (chapters 10 and 11; rows 100
to 155 and 373). -/

namespace Sys2Proof.Machine

/-- The die of a core. -/
def cdie (c : CoreId) : Die := c.die.die

/-- The core as it stands. -/
def State.at_ (s : State) (c : CoreId) : Core := s.core (cdie c) c.k

/-- Issue an instruction on a core (R283 to R286, R293). -/
def State.run (s : State) (c : CoreId) (unsettles : Bool) (bad : Core → Option Nat) (body : State → State) : Res :=
  .next (s.hIssue (cdie c) c.k unsettles bad body)

/-! ### Control -/

/-- IDLE stops issue until an enabled line is pending (R305). -/
def execHIdle (c : CoreId) (s : State) : Res := s.run c false Core.badWait fun s => s.setCstate (cdie c) c.k 2

/-- NOP does nothing but issue. -/
def execHNop (c : CoreId) (s : State) : Res := s.run c false fits id

/-- A branch, taken where it has a target, and its two delay slots (R287). -/
def State.branch (s : State) (c : CoreId) (target : Option (BitVec 15)) (restore : Bool) : State :=
  s.onCore (cdie c) c.k fun r => { r with br := some ⟨3, target, restore⟩ }

/-- Pop the return stack and return there; an interrupt's return restores the shadow flags (R288, R304). -/
def State.ret (s : State) (c : CoreId) (restore : Bool) : State :=
  match (s.at_ c).stack with
  | [] => s
  | t :: rest => (s.onCore (cdie c) c.k fun r => { r with stack := rest }).branch c (some t) restore

/-- A cause where the return stack is empty (R288). -/
def Core.badReturn (r : Core) : Option Nat := if r.stack = [] then some 3 else none

/-- WAIT_STROKE ends an open stroke task as RTI returns, and reloads the watchdog where STROKE_KICK is set; outside a task it
waits for the next stroke (R308, R311). -/
def execHWaitStroke (c : CoreId) (s : State) : Res :=
  s.run c false (fun r => (r.badWait).or (if r.task then r.badReturn else none)) fun s =>
    if (s.at_ c).task then
      let s := (s.ret c true).onCore (cdie c) c.k fun r => { r with task := false, inHandler := false }
      let s := s.taskSync (cdie c) c.k
      if s.flag (atUnit (cdie c) c.k) .HMR_WDOG_CTRL_STROKE_KICK then s.coreWdogReload (cdie c) c.k else s
    else s.setCstate (cdie c) c.k 4

/-- SYNC stalls the core until every window store is answered (R268). -/
def execHSync (c : CoreId) (s : State) : Res :=
  s.run c false fits fun s =>
    if (s.at_ c).stores = 0 ∧ (s.at_ c).heldStores = [] then s else s.stallFor (cdie c) c.k .sync

/-- BKPT requests a halt, or executes as NOP and is counted where no session holds the halt level (R326, R330). -/
def execHBkpt (c : CoreId) (s : State) : Res :=
  s.run c false fits fun s =>
    if 2 ≤ s.get (atDie .e0) .DBG_SESSION_LEVEL then s.haltRequest (cdie c) c.k 2
    else s.bump (atUnit (cdie c) c.k) .HMR_DBG_STAT_BKPT_SKIP 1

/-! ### Branches and repeats -/

/-- B branches after two delay slots (R287). -/
def execHB (c : CoreId) (target : BitVec 15) (s : State) : Res := s.run c false Core.badBranch fun s => s.branch c (some target) false

/-- BC branches on a condition of SR; taken or not, it has two delay slots (R287). -/
def execHBc (c : CoreId) (cond : BitVec 4) (target : BitVec 15) (s : State) : Res :=
  s.run c false Core.badBranch fun s =>
    let r := s.at_ c
    s.branch c (if condHolds cond.toNat r.sr r.resv.isSome then some target else none) false

/-- CALL pushes its address plus 3 and branches (R288). -/
def execHCall (c : CoreId) (target : BitVec 15) (s : State) : Res :=
  s.run c false Core.badBranch fun s => (s.onCore (cdie c) c.k fun r => r.push (r.pc + 3)).branch c (some target) false

/-- RET pops the return stack; with the stack empty it is illegal (R288). -/
def execHRet (c : CoreId) (s : State) : Res :=
  s.run c false (fun r => (r.badBranch).or r.badReturn) fun s => s.ret c false

/-- RTI returns from an interrupt and restores the shadow flags after its delay slots (R304). -/
def execHRti (c : CoreId) (s : State) : Res :=
  s.run c false (fun r => (r.badBranch).or r.badReturn) fun s =>
    (s.ret c true).onCore (cdie c) c.k fun r => { r with inHandler := false }

/-- The count of a repeat: an immediate, or bits [15:0] of an X register as the folded instruction sees it (R283, R290). -/
def State.repeatCount (s : State) (c : CoreId) (fromX : Bool) (count : BitVec 16) : BitVec 16 :=
  if fromX then ((s.hCommit (cdie c) c.k).at_ c).xr (count.toNat % 16) |>.setWidth 16 else count

/-- Start a repeat: it takes no issue slot (R283, R289 to R291); illegal, it is a NOP (R293). -/
def State.repeats (s : State) (c : CoreId) (isRpt fromX : Bool) (count : BitVec 16) (len : Nat) : State :=
  match (s.at_ c).badRepeat with
  | some cause => s.hIssue (cdie c) c.k false (fun _ => some cause) id
  | none =>
    if s.issues (cdie c) c.k then s.onCore (cdie c) c.k fun r => r.startRepeat isRpt (s.repeatCount c fromX count) len else s

/-- RPT repeats the next instruction n times (R289). -/
def execHRpt (c : CoreId) (fromX : Bool) (count : BitVec 16) (s : State) : Res := .next (s.repeats c true fromX count 1)

/-- LOOP repeats the next len instructions n times (R290). -/
def execHLoop (c : CoreId) (fromX : Bool) (count : BitVec 16) (len : BitVec 6) (s : State) : Res :=
  .next (s.repeats c false fromX count (len.toNat + 1))

/-! ### Special moves -/

/-- Whether a special-move code names a register that the direction allows (R299): TNGS is read only. -/
def specialCode (toSpecial : Bool) (code : Nat) : Bool :=
  decide (code < 7) || (code == 7 && !toSpecial) || (decide (16 ≤ code) && decide (code < 48))

/-- What a special register reads as. -/
def State.special (s : State) (c : CoreId) (code : Nat) : HWord :=
  let r := s.at_ c
  match code with
  | 0 => r.srWord
  | 1 => r.cr
  | 2 => r.lc.setWidth 24
  | 3 => r.ls.setWidth 24
  | 4 => r.le.setWidth 24
  | 5 => r.amr.setWidth 24
  | 6 => r.nwb.setWidth 24
  | 7 => s.tngs (cdie c) c.k
  | n =>
    if n < 24 then r.ir (n % 8) else if n < 32 then Tbl.get 0 r.b (n % 8) else if n < 40 then Tbl.get 0 r.l (n % 8)
    else Tbl.get 0 r.m (n % 8)

/-- The register a code names, and when a write of it is seen (R284; DEDUCED, log entry 19 for LC, LS and LE). -/
def specialDest (code : Nat) : Nat × HDest :=
  match code with
  | 0 => (3, .sr)
  | 1 => (3, .cr)
  | 2 => (2, .lc)
  | 3 => (2, .ls)
  | 4 => (2, .le)
  | 5 => (2, .amr)
  | 6 => (2, .nwb)
  | n => (2, if n < 24 then .i (n % 8) else if n < 32 then .b (n % 8) else if n < 40 then .l (n % 8) else .m (n % 8))

/-- MOVS moves a special register to or from an X register (R265, R284). -/
def execHMovs (c : CoreId) (toSpecial : Bool) (code : BitVec 6) (x : Fin 16) (s : State) : Res :=
  s.run c true (badIf (!specialCode toSpecial code.toNat)) fun s =>
    if toSpecial then
      let (n, dest) := specialDest code.toNat
      s.later (cdie c) c.k n dest ((s.at_ c).xr x).toNat
    else s.now (cdie c) c.k (.x x) (s.special c code.toNat).toNat

/-! ### ALU -/

/-- A bit that an operation gives, or a free bit where the spec leaves it open. -/
def State.bitOr (s : State) : Option Bool → State × Bool
  | some b => (s, b)
  | none => (s.used, s.free 1 == 1)

/-- A word that an operation gives, or a free word where the spec leaves it open. -/
def State.wordOr (s : State) : Option HWord → State × HWord
  | some v => (s, v)
  | none => (s.used, BitVec.ofNat 24 (s.free 24))

/-- An ALU operation: its value into `xd`, and Z, N, C, V; what the spec leaves open is a free value (R274, DESIGN CHOICE, log entry 15). -/
def State.alu (s : State) (c : CoreId) (op : Nat) (a b : HWord) (xd : Option Nat) : State :=
  let o := aluOp op a b
  let v := s.wordOr o.value
  let cf := v.1.bitOr o.c
  let vf := cf.1.bitOr o.v
  let s := vf.1.now (cdie c) c.k .flags (flagBits (v.2 == 0) v.2.msb cf.2 vf.2)
  match xd with
  | some n => s.now (cdie c) c.k (.x n) v.2.toNat
  | none => s

/-- A register-form ALU instruction. -/
def State.aluReg (s : State) (c : CoreId) (op : Nat) (xd : Option Nat) (xs xt : Fin 16) : Res :=
  s.run c false fits fun s => s.alu c op ((s.at_ c).xr xs) ((s.at_ c).xr xt) xd

/-- MOV copies an X register. -/
def execHMov (c : CoreId) (xd xs : Fin 16) (s : State) : Res := s.aluReg c 0 (some xd) xs xs

/-- ADD wraps. -/
def execHAdd (c : CoreId) (xd xs xt : Fin 16) (s : State) : Res := s.aluReg c 1 (some xd) xs xt

/-- ADDS saturates. -/
def execHAdds (c : CoreId) (xd xs xt : Fin 16) (s : State) : Res := s.aluReg c 2 (some xd) xs xt

/-- SUB wraps. -/
def execHSub (c : CoreId) (xd xs xt : Fin 16) (s : State) : Res := s.aluReg c 3 (some xd) xs xt

/-- SUBS saturates. -/
def execHSubs (c : CoreId) (xd xs xt : Fin 16) (s : State) : Res := s.aluReg c 4 (some xd) xs xt

/-- CMP sets flags only. -/
def execHCmp (c : CoreId) (xs xt : Fin 16) (s : State) : Res := s.aluReg c 5 none xs xt

/-- AND. -/
def execHAnd (c : CoreId) (xd xs xt : Fin 16) (s : State) : Res := s.aluReg c 6 (some xd) xs xt

/-- OR. -/
def execHOr (c : CoreId) (xd xs xt : Fin 16) (s : State) : Res := s.aluReg c 7 (some xd) xs xt

/-- XOR. -/
def execHXor (c : CoreId) (xd xs xt : Fin 16) (s : State) : Res := s.aluReg c 8 (some xd) xs xt

/-- NOT. -/
def execHNot (c : CoreId) (xd xs : Fin 16) (s : State) : Res := s.aluReg c 9 (some xd) xs xs

/-- ASL shifts left. -/
def execHAsl (c : CoreId) (xd xs xt : Fin 16) (s : State) : Res := s.aluReg c 10 (some xd) xs xt

/-- ASR shifts right arithmetically. -/
def execHAsr (c : CoreId) (xd xs xt : Fin 16) (s : State) : Res := s.aluReg c 11 (some xd) xs xt

/-- LSR shifts right logically. -/
def execHLsr (c : CoreId) (xd xs xt : Fin 16) (s : State) : Res := s.aluReg c 12 (some xd) xs xt

/-- MIN takes the smaller value. -/
def execHMin (c : CoreId) (xd xs xt : Fin 16) (s : State) : Res := s.aluReg c 13 (some xd) xs xt

/-- MAX takes the larger value. -/
def execHMax (c : CoreId) (xd xs xt : Fin 16) (s : State) : Res := s.aluReg c 14 (some xd) xs xt

/-- ABS takes the absolute value. -/
def execHAbs (c : CoreId) (xd xs : Fin 16) (s : State) : Res := s.aluReg c 15 (some xd) xs xs

/-- MOVI loads a sign-extended 16-bit immediate (R299). -/
def execHMovi (c : CoreId) (xd : Fin 16) (imm : BitVec 16) (s : State) : Res :=
  s.run c false fits fun s => s.alu c 0 (imm.signExtend 24) 0 (some xd)

/-- The value of MOVHI: bits [23:16] from the immediate, the others of Xd kept (R299). -/
def movhi (old : HWord) (imm : BitVec 8) : HWord := (old &&& 0x00FFFF#24) ||| (imm.setWidth 24 <<< 16)

/-- MOVHI. -/
def execHMovhi (c : CoreId) (xd : Fin 16) (imm : BitVec 8) (s : State) : Res :=
  s.run c false fits fun s => s.alu c 0 (movhi ((s.at_ c).xr xd) imm) 0 (some xd)

/-- The 24-bit operand of an immediate: the spec does not say how an operation other than MOVI extends it (DESIGN CHOICE, log entry 20). -/
def immOperand (op : Nat) (imm : BitVec 16) : HWord :=
  if op = 0 ∨ Config.aluImmSigned op = true then imm.signExtend 24 else imm.setWidth 24

/-- Group 0x05: Xd op imm; op 9 is MOVHI, a one-operand operation takes the immediate, CMP writes no register (R299). -/
def execHAluImmediate (c : CoreId) (op : BitVec 4) (xd : Fin 16) (imm : BitVec 16) (s : State) : Res :=
  s.run c false fits fun s =>
    let old := (s.at_ c).xr xd
    let v := immOperand op.toNat imm
    match op.toNat with
    | 0 => s.alu c 0 v 0 (some xd)
    | 5 => s.alu c 5 old v none
    | 9 => s.alu c 0 (movhi old (imm.setWidth 8)) 0 (some xd)
    | 15 => s.alu c 15 v 0 (some xd)
    | n => s.alu c n old v (some xd)

/-! ### Loads and stores -/

/-- Whether a memory operand's mode is reserved. -/
def badMode (m : MemArg) : Bool := m.mode == 3

/-- Post-modify the address register of a memory operand. -/
def State.stepArg (s : State) (c : CoreId) (m : MemArg) : State :=
  s.onCore (cdie c) c.k fun r => r.postModify m.i (r.operandStep m.i m.mode.toNat m.imm)

/-- LD loads 1, 2 or 4 words (R275, R278). -/
def execHLd (c : CoreId) (width : BitVec 2) (x : Fin 16) (m : MemArg) (s : State) : Res :=
  let n := widthOf width.toNat
  s.run c true (badIf (badMode m || width == 3 || !groupReg x n)) fun s =>
    let a := (s.at_ c).ir m.i
    let s := (s.alignFlag (cdie c) c.k a n).stepArg c m
    s.loadWords (cdie c) c.k n (groupAt a n) [] (.x ((List.range n).map (x.val + ·)))

/-- ST stores 1, 2 or 4 words (R275, R278). -/
def execHSt (c : CoreId) (width : BitVec 2) (x : Fin 16) (m : MemArg) (s : State) : Res :=
  let n := widthOf width.toNat
  s.run c false (badIf (badMode m || width == 3 || !groupReg x n)) fun s =>
    let r := s.at_ c
    let a := r.ir m.i
    let s := (s.alignFlag (cdie c) c.k a n).stepArg c m
    match dataSpace a with
    | .unassigned => s.hAddrErr (cdie c) c.k r.pc
    | _ => ((groupAt a n).zipIdx).foldl (fun s e => s.storeWord (cdie c) c.k e.1 (r.xr (x.val + e.2))) s

/-- A broken operand rule of the load slots (R278, R299). -/
def badSlots (xa xb : Fin 16) (sl : Slots) : Bool :=
  sl.w == 3 || (sl.xm != 0 && !groupReg xa (widthOf sl.w.toNat)) || (sl.ym != 0 && !groupReg xb (widthOf sl.w.toNat))

/-- The loads of the X slot and the Y slot, and their post-modifies (R275, R278, R279): an X slot at hearth memory comes after the Y slot,
and two slots at the NoC window go one after the other, X first (R281; DESIGN CHOICE, log entry 203, for X first). -/
def State.slots (s : State) (c : CoreId) (xa xb : Fin 16) (sl : Slots) : State :=
  if sl.xm = 0 ∧ sl.ym = 0 then s
  else
    let n := widthOf sl.w.toNat
    let r := s.at_ c
    let x := sl.xi.val
    let y := 4 + sl.yi.val
    let side (on : Bool) (i : Nat) (base : Fin 16) : List (HWord × Nat) :=
      if on then ((groupAt (r.ir i) n).zipIdx).map fun e => (e.1, base.val + e.2) else []
    let xs := side (sl.xm != 0) x xa
    let ys := side (sl.ym != 0) y xb
    let (all, rest) := match dataSpace (r.ir x), dataSpace (r.ir y) with
      | .hearth _, _ => (ys ++ xs, [])
      | .window _, .window _ => if sl.xm = 0 then (ys, []) else (xs, ys)
      | _, _ => (xs ++ ys, [])
    let s := if sl.xm = 0 then s else s.alignFlag (cdie c) c.k (r.ir x) n
    let s := if sl.ym = 0 then s else s.alignFlag (cdie c) c.k (r.ir y) n
    let s := s.onCore (cdie c) c.k fun q =>
      (q.postModify x (r.slotStep x sl.xm.toNat n)).postModify y (r.slotStep y sl.ym.toNat n)
    s.loadWords (cdie c) c.k n (all.map Prod.fst) (rest.zipIdx.map fun e => (all.length + e.2, e.1.1)) (.x ((all ++ rest).map Prod.snd))

/-- LDP loads through the X slot and the Y slot without arithmetic (R279). -/
def execHLdp (c : CoreId) (xa xb : Fin 16) (sl : Slots) (s : State) : Res :=
  s.run c (sl.xm != 0 || sl.ym != 0) (badIf (badSlots xa xb sl)) fun s => s.slots c xa xb sl

/-! ### Accumulators -/

/-- WST stores an accumulator window (R272). -/
def execHWst (c : CoreId) (a w : Fin 4) (m : MemArg) (s : State) : Res :=
  s.run c false (badIf (badMode m)) fun s =>
    let r := s.at_ c
    let (v, sat) := windowWord (r.accSeen a) w
    let s := if sat then s.setSr (cdie c) c.k 5 else s
    (s.stepArg c m).storeWord (cdie c) c.k (r.ir m.i) v

/-- WLD loads a word into an accumulator window (R272). -/
def execHWld (c : CoreId) (a w : Fin 4) (m : MemArg) (s : State) : Res :=
  s.run c true (badIf (badMode m)) fun s =>
    let addr := (s.at_ c).ir m.i
    (s.stepArg c m).loadWords (cdie c) c.k 1 [addr] [] (.wld a w)

/-- ASV stores a raw slice (R272). -/
def execHAsv (c : CoreId) (a slice : Fin 4) (m : MemArg) (s : State) : Res :=
  s.run c false (badIf (badMode m || slice == 3)) fun s =>
    let r := s.at_ c
    (s.stepArg c m).storeWord (cdie c) c.k (r.ir m.i) (sliceOf (r.accSeen a) slice)

/-- ALD loads a raw slice (R272). -/
def execHAld (c : CoreId) (a slice : Fin 4) (m : MemArg) (s : State) : Res :=
  s.run c true (badIf (badMode m || slice == 3)) fun s =>
    let addr := (s.at_ c).ir m.i
    (s.stepArg c m).loadWords (cdie c) c.k 1 [addr] [] (.ald a slice)

/-- RND rounds an accumulator in place (R272). -/
def execHRnd (c : CoreId) (ad w : Fin 4) (s : State) : Res :=
  s.run c true fits fun s =>
    let (v, wraps) := windowRound ((s.at_ c).accSeen ad) w
    s.putAcc (cdie c) c.k ad v wraps

/-- CLRA clears an accumulator. -/
def execHClra (c : CoreId) (ad : Fin 4) (s : State) : Res := s.run c true fits fun s => s.putAcc (cdie c) c.k ad 0 false

/-- Put an exact sum into an accumulator; a wrap sets AV (R271). -/
def State.sumInto (s : State) (c : CoreId) (ad : Nat) (v : Int) : State :=
  s.putAcc (cdie c) c.k ad (BitVec.ofInt 56 v) (over56 v)

/-- ADDA adds accumulators. -/
def execHAdda (c : CoreId) (ad as : Fin 4) (s : State) : Res :=
  s.run c true fits fun s => s.sumInto c ad (((s.at_ c).acc ad).toInt + ((s.at_ c).acc as).toInt)

/-- SUBA subtracts accumulators. -/
def execHSuba (c : CoreId) (ad as : Fin 4) (s : State) : Res :=
  s.run c true fits fun s => s.sumInto c ad (((s.at_ c).acc ad).toInt - ((s.at_ c).acc as).toInt)

/-- NEGA negates an accumulator. -/
def execHNega (c : CoreId) (ad : Fin 4) (s : State) : Res := s.run c true fits fun s => s.sumInto c ad (-((s.at_ c).acc ad).toInt)

/-- ASHA shifts an accumulator arithmetically (R299). -/
def execHAsha (c : CoreId) (ad : Fin 4) (shift : BitVec 6) (s : State) : Res :=
  s.run c true fits fun s =>
    let (v, wraps) := shiftAcc ((s.at_ c).acc ad) shift.toInt
    s.putAcc (cdie c) c.k ad v wraps

/-- MVAX moves an accumulator window into an X register (R272). -/
def execHMvax (c : CoreId) (a w : Fin 4) (x : Fin 16) (s : State) : Res :=
  s.run c false fits fun s =>
    let (v, sat) := windowWord ((s.at_ c).accSeen a) w
    let s := if sat then s.setSr (cdie c) c.k 5 else s
    s.now (cdie c) c.k (.x x) v.toNat

/-- MVXA moves an X register into an accumulator window (R272). -/
def execHMvxa (c : CoreId) (a w : Fin 4) (x : Fin 16) (s : State) : Res :=
  s.run c true fits fun s => s.putAcc (cdie c) c.k a (windowLoad ((s.at_ c).xr x) w) false

/-- Add or subtract an exact sum of products, from the accumulator or from 0 (R273). -/
def State.macInto (s : State) (c : CoreId) (ad : Nat) (neg clr : Bool) (sum : Int) : State :=
  let base := if clr then 0 else ((s.at_ c).acc ad).toInt
  s.sumInto c ad (if neg then base - sum else base + sum)

/-- The product of two X registers under CR.FRAC (R270). -/
def Core.prod (r : Core) (i j : Nat) : Int := product (r.cr.getLsbD 0) (r.xr i) (r.xr j)

/-- MAC multiplies two registers and accumulates (R273). -/
def execHMac (c : CoreId) (ad : Fin 4) (neg clr : Bool) (xa xb : Fin 16) (sl : Slots) (s : State) : Res :=
  s.run c true (badIf (badSlots xa xb sl)) fun s =>
    (s.macInto c ad neg clr ((s.at_ c).prod xa xb)).slots c xa xb sl

/-- MAC4 performs four MACs into A0 to A3 (R273). -/
def execHMac4 (c : CoreId) (ad : Fin 4) (neg clr : Bool) (xa xb : Fin 16) (sl : Slots) (s : State) : Res :=
  s.run c true (badIf (badSlots xa xb sl || xa.val % 4 != 0 || xb.val % 4 != 0 || ad != 0)) fun s =>
    let r := s.at_ c
    ((List.range 4).foldl (fun s i => s.macInto c i neg clr (r.prod (xa + i) (xb + i))) s).slots c xa xb sl

/-- DOT4 accumulates a four-term dot product (R273). -/
def execHDot4 (c : CoreId) (ad : Fin 4) (neg clr : Bool) (xa xb : Fin 16) (sl : Slots) (s : State) : Res :=
  s.run c true (badIf (badSlots xa xb sl || xa.val % 4 != 0 || xb.val % 4 != 0)) fun s =>
    let r := s.at_ c
    (s.macInto c ad neg clr (((List.range 4).map fun i => r.prod (xa.val + i) (xb.val + i)).foldl (· + ·) 0)).slots c xa xb sl

/-- CMAC performs a complex multiply-accumulate; CONJ takes the conjugate of the Xb pair (R273). -/
def execHCmac (c : CoreId) (ad : Fin 4) (neg clr : Bool) (xa xb : Fin 16) (sl : Slots) (conj : Bool) (s : State) : Res :=
  s.run c true (badIf (badSlots xa xb sl || xa.val % 2 != 0 || xb.val % 2 != 0 || ad.val % 2 != 0)) fun s =>
    let r := s.at_ c
    let rr := r.prod xa xb
    let ii := r.prod (xa.val + 1) (xb.val + 1)
    let ri := r.prod xa (xb.val + 1)
    let ir := r.prod (xa.val + 1) xb
    let s := s.macInto c ad neg clr (if conj then rr + ii else rr - ii)
    (s.macInto c (ad.val + 1) neg clr (if conj then ir - ri else ri + ir)).slots c xa xb sl

/-! ### Tongs and locked sequences -/

/-- TNG posts the descriptor of six words at Ik; a full queue makes it illegal (R296). Each of the six words is an access of its own (DESIGN
CHOICE, log entry 240). -/
def execHTng (c : CoreId) (i : Fin 8) (s : State) : Res :=
  s.run c false fits fun s =>
    let a := (s.at_ c).ir i
    s.loadWords (cdie c) c.k 1 ((List.range 6).map fun j => a + BitVec.ofNat 24 j) [] .tng

/-- TWAIT stalls until the tongs queue holds at most n or the tongs stop (R296). -/
def execHTwait (c : CoreId) (n : BitVec 4) (s : State) : Res :=
  s.run c false fits fun s =>
    if (s.at_ c).queued ≤ n.toNat ∨ s.flag (atUnit (cdie c) c.k) .HMR_TNG_STAT_STOPPED = true then s
    else s.stallFor (cdie c) c.k (.twait n.toNat)

/-- LDX loads a hearth word and sets the reservation on it; elsewhere it is an address error (R294, R267). -/
def execHLdx (c : CoreId) (xd : Fin 16) (i : Fin 8) (s : State) : Res :=
  s.run c true fits fun s =>
    let r := s.at_ c
    let s := s.onCore (cdie c) c.k fun r => { r with resv := none }
    match dataSpace (r.ir i) with
    | .hearth w =>
      let (s, v) := s.hearthRead (cdie c) w
      (s.onCore (cdie c) c.k fun r => { r with resv := some w }).later (cdie c) c.k 3 (.x xd) v.toNat
    | .localMem _ | .window _ | .unassigned => (s.hAddrErr (cdie c) c.k r.pc).later (cdie c) c.k 3 (.x xd) 0

/-- STX stores to the word only if the reservation is held, writes 0 to Xd on success and 1 on failure, and clears the
reservation (R294). -/
def execHStx (c : CoreId) (xd xs : Fin 16) (i : Fin 8) (s : State) : Res :=
  s.run c true fits fun s =>
    let r := s.at_ c
    let s := s.onCore (cdie c) c.k fun r => { r with resv := none }
    match dataSpace (r.ir i) with
    | .hearth w =>
      if r.resv = some w then (s.hearthWrite (cdie c) w (r.xr xs)).later (cdie c) c.k 3 (.x xd) 0
      else s.later (cdie c) c.k 3 (.x xd) 1
    | .localMem _ | .window _ | .unassigned => (s.hAddrErr (cdie c) c.k r.pc).later (cdie c) c.k 3 (.x xd) 1

/-- ATM performs an atomic at hearth memory or through the NoC window; the old value goes to Xd (R295). -/
def execHAtm (c : CoreId) (op : BitVec 5) (xd xs : Fin 16) (i : Fin 8) (s : State) : Res :=
  s.run c true (badIf (decide (6 < op.toNat) || (op == 2 && xs == 15))) fun s =>
    let r := s.at_ c
    let a := r.xr xs
    let b := r.xr (xs.val + 1)
    match dataSpace (r.ir i) with
    | .hearth w =>
      let (s, v) := s.hearthRead (cdie c) w
      (s.hearthWrite (cdie c) w (BitVec.ofNat 24 (atomicNew op.toNat 24 v.toNat a.toNat b.toNat))).later (cdie c) c.k 3 (.x xd) v.toNat
    | .window slot =>
      let q := s.coreReq (cdie c) c.k (16 + op.toNat) slot ((a.signExtend 32).toNat + (b.signExtend 32).toNat * 2 ^ 64) 15
      let s := s.onCore (cdie c) c.k fun r => { r with got := [], rest := [], cont := .x [xd.val], waits := 0 }
      let (s, st) := s.issue q (.coreLoad 0 r.pc.toNat)
      match st with
      | some st => ((s.hNocErr (cdie c) c.k st r.pc).loadDone (cdie c) c.k)
      | none => (s.onCore (cdie c) c.k fun r => { r with waits := 1 }).stallFor (cdie c) c.k .load
    | .localMem _ | .unassigned => (s.hAddrErr (cdie c) c.k r.pc).later (cdie c) c.k 3 (.x xd) 0

/-- The issue of the instruction that a word spells (R299); a word that spells none, a reserved major opcode or encoding, executes as NOP
and sets IL (R293). -/
def State.runWord (s : State) (c : CoreId) : Option Instr → Res
  | some (.hIdle c) => execHIdle c s
  | some (.hNop c) => execHNop c s
  | some (.hWaitStroke c) => execHWaitStroke c s
  | some (.hSync c) => execHSync c s
  | some (.hBkpt c) => execHBkpt c s
  | some (.hB c target) => execHB c target s
  | some (.hBc c cond target) => execHBc c cond target s
  | some (.hCall c target) => execHCall c target s
  | some (.hRet c) => execHRet c s
  | some (.hRti c) => execHRti c s
  | some (.hRpt c fromX count) => execHRpt c fromX count s
  | some (.hLoop c fromX count len) => execHLoop c fromX count len s
  | some (.hMovs c toSpecial code x) => execHMovs c toSpecial code x s
  | some (.hMov c xd xs) => execHMov c xd xs s
  | some (.hAdd c xd xs xt) => execHAdd c xd xs xt s
  | some (.hAdds c xd xs xt) => execHAdds c xd xs xt s
  | some (.hSub c xd xs xt) => execHSub c xd xs xt s
  | some (.hSubs c xd xs xt) => execHSubs c xd xs xt s
  | some (.hCmp c xs xt) => execHCmp c xs xt s
  | some (.hAnd c xd xs xt) => execHAnd c xd xs xt s
  | some (.hOr c xd xs xt) => execHOr c xd xs xt s
  | some (.hXor c xd xs xt) => execHXor c xd xs xt s
  | some (.hNot c xd xs) => execHNot c xd xs s
  | some (.hAsl c xd xs xt) => execHAsl c xd xs xt s
  | some (.hAsr c xd xs xt) => execHAsr c xd xs xt s
  | some (.hLsr c xd xs xt) => execHLsr c xd xs xt s
  | some (.hMin c xd xs xt) => execHMin c xd xs xt s
  | some (.hMax c xd xs xt) => execHMax c xd xs xt s
  | some (.hAbs c xd xs) => execHAbs c xd xs s
  | some (.hMovi c xd imm) => execHMovi c xd imm s
  | some (.hMovhi c xd imm) => execHMovhi c xd imm s
  | some (.hAluImmediate c op xd imm) => execHAluImmediate c op xd imm s
  | some (.hLd c width x m) => execHLd c width x m s
  | some (.hSt c width x m) => execHSt c width x m s
  | some (.hLdp c xa xb sl) => execHLdp c xa xb sl s
  | some (.hWst c a w m) => execHWst c a w m s
  | some (.hWld c a w m) => execHWld c a w m s
  | some (.hAsv c a slice m) => execHAsv c a slice m s
  | some (.hAld c a slice m) => execHAld c a slice m s
  | some (.hRnd c ad w) => execHRnd c ad w s
  | some (.hClra c ad) => execHClra c ad s
  | some (.hAdda c ad as) => execHAdda c ad as s
  | some (.hSuba c ad as) => execHSuba c ad as s
  | some (.hNega c ad) => execHNega c ad s
  | some (.hAsha c ad shift) => execHAsha c ad shift s
  | some (.hMvax c a w x) => execHMvax c a w x s
  | some (.hMvxa c a w x) => execHMvxa c a w x s
  | some (.hMac c ad neg clr xa xb sl) => execHMac c ad neg clr xa xb sl s
  | some (.hMac4 c ad neg clr xa xb sl) => execHMac4 c ad neg clr xa xb sl s
  | some (.hDot4 c ad neg clr xa xb sl) => execHDot4 c ad neg clr xa xb sl s
  | some (.hCmac c ad neg clr xa xb sl conj) => execHCmac c ad neg clr xa xb sl conj s
  | some (.hTng c y) => execHTng c y s
  | some (.hTwait c n) => execHTwait c n s
  | some (.hLdx c xd y) => execHLdx c xd y s
  | some (.hStx c xd xs y) => execHStx c xd xs y s
  | some (.hAtm c op xd xs y) => execHAtm c op xd xs y s
  | _ => s.run c false (fun _ => some 0) id

/-- A word is issued that is no instruction by its encoding; a word that does spell one issues as that instruction (R293, R299). -/
def execReservedEncoding (c : CoreId) (word : BitVec 32) (s : State) : Res := s.runWord c (hammerDecode c word.toNat)

end Sys2Proof.Machine
end

