-- ==== Sys2Proof/Machine/Deliver.lean ====
section
/-! DEFINITION. The ends of the network: responses and their owners, timeouts, fabric ports, die caches, home directories and
fences (chapter 05; rows 19, 20 and 23 to 34). -/

namespace Sys2Proof.Machine

/-! ### Responses -/

/-- A result of an access of the management port is held (R519, R520); the data of a WRITE is open (DESIGN CHOICE, log entry 21). -/
def State.mgtAnswer (s : State) (kind status data : Nat) : State :=
  match kind with
  | 1 => s.setMgt { s.mgt with done := true, status := status, data := data, busy := false }
  | 0 => (s.used).setMgt { s.mgt with done := true, status := status, data := s.free 32, busy := false }
  | _ =>
    let left := s.mgt.burstHeld - 1
    let whole := !s.mgt.burst && left == 0
    (s.used).setMgt { s.mgt with
      done := whole, status := status, data := s.free 32, burstHeld := left, busy := if whole then false else s.mgt.busy }

/-- Whether an address names a core's local or program memory, or its register window (R324). -/
def debugGuarded (a : Nat) : Option (Die × Nat) :=
  match decodeAddr a with
  | some (.localMem d k _) | some (.program d k _) => some (d, k)
  | some (.control d o) =>
    if d.isFab ∧ 0x09000000 ≤ o ∧ o < 0x09008000 ∧ o % 0x1000 = 0x10C then some (d, (o - 0x09000000) / 0x1000) else none
  | _ => none

/-- A debug access is answered; a DENIED of a running core's window or memory is reported as DBG_BUSY (R322, R324). -/
def State.debugAnswer (s : State) (status data : Nat) : State :=
  let st := if status = 6 ∧ (debugGuarded s.dbg.addr).isSome then 9 else status
  s.setDbg { s.dbg with pending := false, dstat := st, data := data }

/-- The answer of a BAR0 access (R460): any status but OKAY is counted, and a read then returns all ones. -/
def State.barAnswer (s : State) (write : Bool) (status data : Nat) : State :=
  let s := if status = 0 then s else s.bump (atDie .e0) .MEM_PCI_STAT_BAR_ERR 1
  if write then s else s.emit (.bar0 4 (if status = 0 then data % 2 ^ 32 else 2 ^ 32 - 1))

/-- Deliver a response to whoever waits for it. -/
def State.deliver (s : State) (src tag : Nat) (o : Owner) (status data : Nat) : State :=
  match o with
  | .plain => s.emit (.delivered src tag status data)
  | .user u => s.emit (.delivered src u status data)
  | .coreLoad slot pc => s.coreLoaded (idDie src) (idCol src) slot pc status data
  | .coreStore pc => s.coreStored (idDie src) (idCol src) pc status
  | .tongs => s.tngAnswer (idDie src) (idCol src) status data
  | .mgt kind => s.mgtAnswer kind status (data % 2 ^ 32)
  | .debug => s.debugAnswer status (data % 2 ^ 32)
  | .bar0 write => s.barAnswer write status data

/-- Issue a request, and deliver at once a refusal that comes back with no data (R138). -/
def State.request (s : State) (r : NocReq) (o : Owner) : State :=
  let (s, st) := s.issue r o
  match st with
  | some st => s.deliver r.src.toNat r.tag.toNat o st 0
  | none => s

/-- A class X request that waits finds no entry of its initiator for its target: it is sent as class H, and counted (R144). -/
def State.xDemote (s : State) (r : NocReq) (o : Owner) : State :=
  let src := r.src.toNat
  let s := (s.bump (atEp src) .NOC_EP_CNT1_X_HELD 1).setTag src r.tag.toNat
    { s.tag src r.tag.toNat with cls := 1, limit := s.tmoLimit src 1 }
  let (s, st) := s.sendReq { r with cls := 1, xent := 0 }
  match st with
  | some st => s.deliver src r.tag.toNat o st 0
  | none => s

/-- At each stroke the allowances refill, and what was held is taken up again in order (R144). -/
def State.xStroke (s : State) : State :=
  let held := s.xHeld
  let s := (s.setXUsed []).setXHeld []
  held.foldl (fun s e => e.2.foldl (fun s (r, o) =>
    match (reqTarget r).bind fun t => s.xEntry r.src.toNat t.ident with
    | some n => s.xAdmit r o n false
    | none => s.xDemote r o) s) s

/-- A class X transaction ends at a fence: it is late where more than a stroke period has passed since its admission (R146). The model counts
strokes alone: with one boundary between, whether it is late is open, and so is the time in the event (DESIGN CHOICE, log entry 235). -/
def State.xLate (s : State) (id : Nat) (t : TagSt) : State :=
  let n := (s.cycles - t.since) / Nat.max 1 (s.get (atDie .e0) .STK_TIMING_PERIOD)
  if t.cls ≠ 0 ∨ n = 0 then s
  else
    let late := decide (2 ≤ n) || s.free 1 == 1
    let s := s.used
    if late then
      ((s.bump (atEp id) .NOC_EP_CNT1_X_LATE 1).raise (idDie id) Ev.NOC_X_LATE (id + s.free 32 * 2 ^ 16)).used
    else s

/-- Whether the parcel of a fabric port lets its ports issue (R149, R159): from release stage 2, with its fence OPEN. -/
def State.portsRun (s : State) (d : Die) (q : Nat) : Bool := decide (2 ≤ s.stageOf d q) && s.get (atDie d) (.NOC_FENCE_STAT_P q) == 0

/-- Whether an initiator may issue: a fabric port in mode INITIATOR or BOTH, with its parcel's ports running and fewer than 64
transactions outstanding (R147 to R149); another endpoint where it is an initiator (R133). -/
def State.mayIssue (s : State) (id : Nat) : Bool :=
  match idPort id with
  | some (q, p) =>
    (s.modeOf (idDie id) q p == 1 || s.modeOf (idDie id) q p == 3) && s.portsRun (idDie id) q &&
      decide (s.get (atEp id) .NOC_EP_STAT_OUTST < 64)
  | none => bitOf (epKinds (idDie id) (id % 512)) 1

/-- An initiator issues a request (R138). An identity that is no initiator issues nothing (R133). -/
def execNocRequestIssue (r : NocReq) (s : State) : Res := .next (if s.mayIssue r.src.toNat then s.request r .plain else s)

/-- Whether a pacer may release: that of a fabric port only while its parcel's ports run (R149, R159). -/
def State.pacerRuns (s : State) (id : Nat) : Bool :=
  match idPort id with
  | some (q, _) => s.portsRun (idDie id) q
  | none => true

/-- The pacer releases the first class X request that waits (R144): the transaction is admitted. -/
def execClassXPacerRelease (src : BitVec 12) (s : State) : Res :=
  .next (match Tbl.get [] s.xWait src.toNat with
  | [] => s
  | (r, o) :: rest =>
    if s.pacerRuns src.toNat = false then s
    else
    let s := s.setXWait (if rest = [] then Tbl.erase s.xWait src.toNat else Tbl.set s.xWait src.toNat rest)
    let (s, st) := s.sendReq r
    match st with
    | some st => s.deliver src.toNat r.tag.toNat o st 0
    | none => s)

/-- Where a response is dropped: the holder of the first CLOSED or DOWN die fence on its way, or the die of the CLOSED fence
before its initiator (R33, R159, R511). -/
def State.dropAt (s : State) (resp dst cls tag : Nat) : Option Die :=
  match s.fenceOn (rspCrossings resp dst cls tag) with
  | some (a, f) => if f = 1 then none else some a
  | none =>
    match idPort dst with
    | some (q, _) => if s.get (atDie (idDie dst)) (.NOC_FENCE_STAT_P q) = 2 then some (idDie dst) else none
    | none => if dst = coreIdent (idDie dst) (idCol dst) ∧ s.domFence (idDie dst) (idCol dst) = 2 then some (idDie dst) else none

/-- A response that matches no ISSUED tag is discarded and counted; a STALE tag that it matches becomes FREE (R156). -/
def State.lateResponse (s : State) (dst tag gen : Nat) : State :=
  let t := s.tag dst tag
  let s := if t.st = 2 ∧ t.gen = gen then (s.setTag dst tag { t with st := 0 }).stale dst false else s
  (s.bump (atEp dst) .NOC_EP_CNT0_LATE 1).raise (idDie dst) Ev.NOC_LATE_RSP (dst + tag * 2 ^ 16)

/-- The stroke period in ns (R51). -/
def State.strokeNs (s : State) : Nat := 2 * s.get (atDie .e0) .STK_TIMING_PERIOD

/-- A response reaches its initiator (R135, R146, R156): `resp` is the responder, `ns` the round trip since admission, `badEcc`
whether a word of its data is uncorrectable. -/
def execNocResponseArrival (dst : BitVec 12) (tag : BitVec 10) (gen : BitVec 4) (resp : BitVec 12) (status : BitVec 4)
    (data : BitVec 512) (badEcc : Bool) (ns : BitVec 32) (s : State) : Res :=
  let id := dst.toNat
  .next (match s.dropAt resp.toNat id (s.tag id tag.toNat).cls tag.toNat with
  | some d => s.bump (atDie d) .NOC_FENCE_CNT_DISCARDED 1
  | none =>
    let t := s.tag id tag.toNat
    if t.st = 1 ∧ t.gen = gen.toNat then
      let s := s.tagDone id tag.toNat
      let s := if t.bytes = 0 then s else s.bwCount (idDie id) 0 id t.bytes 1
      let s :=
        if t.cls = 0 ∧ s.strokeNs < ns.toNat then
          (s.bump (atEp id) .NOC_EP_CNT1_X_LATE 1).raise (idDie id) Ev.NOC_X_LATE (id + ns.toNat * 2 ^ 16)
        else s
      s.deliver id tag.toNat t.owner (if badEcc && status == 0 then 1 else status.toNat) data.toNat
    else s.lateResponse id tag.toNat gen.toNat)

/-- A transaction's age reaches its limit (R155, R156): TIMEOUT is delivered with no data, and the tag is STALE. -/
def execNocTimeout (src : BitVec 12) (tag : BitVec 10) (s : State) : Res :=
  let id := src.toNat
  let t := s.tag id tag.toNat
  .next (if t.st = 1 then
    let waits (l : List (NocReq × Owner)) : List (NocReq × Owner) := l.filter fun e => e.1.tag != tag
    let s := (s.setXWait (Tbl.set s.xWait id (waits (Tbl.get [] s.xWait id)))).setXHeld
      (Tbl.set s.xHeld id (waits (Tbl.get [] s.xHeld id)))
    let s := ((s.setTag id tag.toNat { t with st := 2 }).outst id false).stale id true
    let s := (s.bump (atEp id) .NOC_EP_CNT0_TIMEOUTS 1).raise (idDie id) Ev.NOC_TIMEOUT
      (id + tag.toNat * 2 ^ 16 + t.cls * 2 ^ 32)
    s.deliver id tag.toNat t.owner 2 0
  else s)

/-- A further full limit passes: a STALE tag becomes FREE (R156). -/
def execStaleTagRelease (src : BitVec 12) (tag : BitVec 10) (s : State) : Res :=
  let t := s.tag src.toNat tag.toNat
  .next (if t.st = 2 then (s.setTag src.toNat tag.toNat { t with st := 0 }).stale src.toNat false else s)

/-! ### Fabric ports -/

/-- The key of a fabric port. -/
def fportKey (d : Die) (q p : Nat) : Nat := d.idx * 256 + q * 16 + p

/-- What user logic presents at an initiator port in a cycle of its clock (R147). -/
structure PortReq where
  user : BitVec 6
  op : BitVec 5
  cls : BitVec 2
  size : BitVec 3
  alloc : Bool
  addr : BitVec 48
  data : BitVec 512
  be : BitVec 64

/-- User logic presents a request on an initiator port (R147 to R149): taken in mode INITIATOR or BOTH, from release stage 2, with
the parcel's fence OPEN and fewer than 64 transactions outstanding; held back by ready otherwise. -/
def State.portAsk (s : State) (d : Die) (q p : Nat) (x : PortReq) : State :=
  let id := portIdent d q p
  if s.mayIssue id then
    s.request ⟨BitVec.ofNat 12 id, BitVec.ofNat 10 ((s.freeTag id).getD 0), 0, x.cls, x.op, x.size, x.alloc, 0, x.addr, x.data, x.be, 0, 0⟩
      (.user x.user.toNat)
  else s

/-- User logic presents a request on an initiator port; `State.portEdge` takes what its routing presents there on an edge. -/
def execFabricPortInitiatorRequest (die : FDie) (parcel port : Fin 16) (user : BitVec 6) (op : BitVec 5) (cls : BitVec 2)
    (size : BitVec 3) (alloc : Bool) (addr : BitVec 48) (data : BitVec 512) (be : BitVec 64) (s : State) : Res :=
  .next (s.portAsk die.die parcel port ⟨user, op, cls, size, alloc, addr, data, be⟩)

/-- The lowest free port tag of a target port (R148). -/
def State.freePortTag (s : State) (d : Die) (q p : Nat) : Option Nat :=
  (List.range 64).find? fun t => !Tbl.has s.portTags (fportKey d q p * 64 + t)

/-- A target port presents requests to the logic while port tags are free, from release stage 2, with its parcel's fence OPEN (R148, R149);
while a capture freezes the parcel they wait in the crossing FIFO (R241). -/
def State.presentAll (s : State) (d : Die) (q p : Nat) : State :=
  let k := fportKey d q p
  let waiting := Tbl.get [] s.portFifo k
  if s.portsRun d q && !s.frozen.contains (parcelKey d q) then
    let s := s.setPortFifo (Tbl.erase s.portFifo k)
    waiting.foldl (fun s r =>
      match s.freePortTag d q p with
      | some t => (s.setPortTags (Tbl.set s.portTags (k * 64 + t) r)).emit (.portRequest d.idx q p t r)
      | none => s.setPortFifo (Tbl.set s.portFifo k (Tbl.get [] s.portFifo k ++ [r]))) s
  else s

/-- A request reaches a target port: it enters the crossing FIFO of 16 entries, or waits in the network before a full one (R147): the command
comes again (DEDUCED, log entry 234). The FIFO toward the network gives on what it takes within a step. -/
def State.portTake (s : State) (d : Die) (q p : Nat) (r : NocReq) : State :=
  let k := fportKey d q p
  if (Tbl.get [] s.portFifo k).length < 16 then
    (s.setPortFifo (Tbl.set s.portFifo k (Tbl.get [] s.portFifo k ++ [r]))).presentAll d q p
  else s

/-- Stage 2 of a parcel's release: what waited at its target ports is presented in arrival order (R149). -/
def State.portsOpen (s : State) (d : Die) (q : Nat) : State := (List.range 16).foldl (fun s p => s.presentAll d q p) s

/-- A parcel's target ports forget what they hold. -/
def State.portsClear (s : State) (d : Die) (q : Nat) : State :=
  (s.setPortTags (Tbl.keep (fun k => k / 64 / 16 != d.idx * 16 + q) s.portTags)).setPortFifo
    (Tbl.keep (fun k => k / 16 != d.idx * 16 + q) s.portFifo)

/-- User logic answers by port tag: OKAY, POISON, DECODE and DENIED are sent on, any other status as DECODE (R148). -/
def State.portReply (s : State) (d : Die) (q p ptag : Nat) (status : BitVec 4) (data : BitVec 512) : State :=
  let k := fportKey d q p * 64 + ptag
  match s.portTags.find? fun e => e.1 == k with
  | none => s
  | some (_, r) =>
    if 2 ≤ s.stageOf d q then
      let st := if status = 0 ∨ status = 1 ∨ status = 5 ∨ status = 6 then status.toNat else 5
      let s := (s.setPortTags (Tbl.erase s.portTags k)).emit (.response r.src.toNat r.tag.toNat r.gen.toNat st data.toNat)
      s.presentAll d q p
    else s

/-- User logic answers a target request. -/
def execFabricPortTargetResponse (die : FDie) (parcel port : Fin 16) (ptag : BitVec 6) (status : BitVec 4) (data : BitVec 512)
    (s : State) : Res :=
  .next (s.portReply die.die parcel port ptag.toNat status data)

/-- An edge of a fabric port's clock (R100, R147, R148): it takes what the routing of the state `o` before the edge presents. Which signal of a
parcel's ports is which is not stated (DESIGN CHOICE, log entry 236): those of port p begin at 2048 p, with Valid, OP, CLS, SIZE, ALLOC,
address, user tag, data and byte enables of an initiator request, and from 1024 on Valid, port tag, status and data of a target response. -/
def State.portEdge (t o : State) (d : Die) (q p : Nat) : State :=
  let v (i : Nat) : Bool := o.nodeVal d (.port q (2048 * p + i))
  let n (lo w : Nat) : Nat := nodeNum v lo w
  let t := if v 0 then
      t.portAsk d q p ⟨BitVec.ofNat 6 (n 60 6), BitVec.ofNat 5 (n 1 5), BitVec.ofNat 2 (n 6 2), BitVec.ofNat 3 (n 8 3), v 11,
        BitVec.ofNat 48 (n 12 48), BitVec.ofNat 512 (n 66 512), BitVec.ofNat 64 (n 578 64)⟩
    else t
  if v 1024 then t.portReply d q p (n 1025 6) (BitVec.ofNat 4 (n 1031 4)) (BitVec.ofNat 512 (n 1035 512)) else t

/-- The fabric ports of a die whose clock net rises (R96, R147). -/
def State.portsOnEdge (t o : State) (d : Die) (edges : Nat → List (Nat × Bool)) : State :=
  (o.fab.portClks.filter fun e => e.1 / 256 == d.idx && e.2 != 0 && (edges (e.1 / 16 % 16)).contains (e.2 - 1, true)).foldl
    (fun t e => t.portEdge o d (e.1 / 16 % 16) (e.1 % 16)) t

/-! ### Fences -/

/-- The state of a fence. -/
def State.fence (s : State) (f : FenceId) : Nat :=
  match f with
  | .parcel d p => s.get (atDie d.die) (.NOC_FENCE_STAT_P p)
  | .die a b => s.get (atDie a) (.NOC_DFENCE_STAT_D b.idx)
  | .domain d n => s.domFence d.die n

/-- Put the state of a fence. -/
def State.setFence (s : State) (f : FenceId) (n : Nat) : State :=
  match f with
  | .parcel d p => s.put (atDie d.die) (.NOC_FENCE_STAT_P p) n
  | .die a b => s.put (atDie a) (.NOC_DFENCE_STAT_D b.idx) n
  | .domain d k =>
    let key := d.die.idx * 16 + k.val
    s.setClk { s.clk with fences := if n = 0 then Tbl.erase s.clk.fences key else Tbl.set s.clk.fences key n }

/-- The die that holds a fence. -/
def fenceHolder (f : FenceId) : Die :=
  match f with
  | .parcel d _ => d.die
  | .die a _ => a
  | .domain d _ => d.die

/-- Whether a path goes from one die to the next. -/
def crosses (a b : Die) (l : List (Die × Die × Nat)) : Bool := l.any fun e => e.1 == a && e.2.1 == b

/-- Whether an ISSUED transaction is owed its response by the side that a fence fences (R159). -/
def owed (f : FenceId) (src : Nat) (t : TagSt) : Bool :=
  t.st == 1 &&
    match f, decodeAddr t.addr with
    | .parcel d p, some (.port x q _ _) => d.die == x && p.val == q
    | .die a b, some tgt => crosses a b (reqCrossings src tgt.ident t.low)
    | .domain d n, some (.localMem x k _) | .domain d n, some (.program x k _) => d.die == x && n.val == k
    | .domain d n, some (.hearth x _) => d.die == x && n.val == 8
    | _, _ => false

/-- Synthesise FENCED at a die for the ISSUED transactions that meet a test; those that still wait for their pacer are left (R159,
R176). -/
def State.synthAt (s : State) (holder : Die) (p : Nat → Nat → TagSt → Bool) : State × Nat :=
  let l := s.tags.filter fun e =>
    p (e.1 / 1024) (e.1 % 1024) e.2 &&
      !((Tbl.get [] s.xWait (e.1 / 1024) ++ Tbl.get [] s.xHeld (e.1 / 1024)).any fun w => w.1.tag.toNat == e.1 % 1024)
  (l.foldl (fun s e =>
    (((s.tagDone (e.1 / 1024) (e.1 % 1024)).xLate (e.1 / 1024) e.2).bump (atDie holder) .NOC_FENCE_CNT_SYNTH 1).deliver (e.1 / 1024)
      (e.1 % 1024) e.2.owner 3 0) s, l.length)

/-- Synthesise FENCED for every response that the fenced side still owes; the answer counts them (R159). -/
def State.synthesise (s : State) (f : FenceId) : State × Nat :=
  let s := match f with
    | .parcel d p => s.portsClear d.die p
    | .die _ _ | .domain _ _ => s
  s.synthAt (fenceHolder f) fun src _ t => owed f src t

/-- The drain limit expires: the fence closes (R159). What byte 0 of the event holds for the fence of a domain is not stated (DESIGN CHOICE,
log entry 220). -/
def State.fenceLimit (s : State) (f : FenceId) : State :=
  let (s, n) := (s.setFence f 2).synthesise f
  let name := match f with
    | .parcel _ p => p.val
    | .die _ b => 0x80 + b.idx
    | .domain _ _ => s.free 8
  (s.used).raise (fenceHolder f) Ev.NOC_FENCE_LIMIT (name + n % 2 ^ 16 * 2 ^ 8)

/-- Raise a fence: DRAINING, or CLOSED at once with a drain limit of 0; a fence that is not OPEN stays as it is (R159). What a parcel's
outward signals carry is held for its hold-last clamps (R221); keepers follow their rails up to the raise and from it on (R88). -/
def State.fenceRaise (s : State) (f : FenceId) : State :=
  if s.fence f ≠ 0 then s
  else
    let s := match f with
      | .parcel d p => (s.railSettle d.die).carry d.die p
      | .die _ _ | .domain _ _ => s
    let s := if s.get (atDie (fenceHolder f)) .NOC_FENCE_CFG_DRAIN_LIMIT = 0 then s.fenceLimit f else s.setFence f 1
    match f with
    | .parcel d _ => s.railSettle d.die
    | .die _ _ | .domain _ _ => s

/-! ### Requests of the engines of the part -/

/-- A request of an engine of the part (R134): its initiator class, its class and its access. Its tag and generation show nowhere, since the
access begins and ends within one command (DESIGN CHOICE, log entry 246). -/
def engineReq (src icls cls : Nat) (write : Bool) (addr size data be : Nat) : NocReq where
  src := BitVec.ofNat 12 src
  tag := 0
  gen := 0
  cls := BitVec.ofNat 2 cls
  op := if write then 8 else 0
  size := BitVec.ofNat 3 size
  alloc := false
  icls := BitVec.ofNat 3 icls
  addr := BitVec.ofNat 48 addr
  data := BitVec.ofNat 512 data
  be := BitVec.ofNat 64 be
  tgt := 0
  xent := 0

/-- What a request gets back, as status and data, since the record of what was sent held `n` entries; none where it waits at its target. -/
def State.answered (s : State) (n : Nat) (r : NocReq) : Option (Nat × Nat) :=
  (s.sent.take (s.sent.length - n)).findSome? fun e => match e with
    | .response src tag gen st v => if src = r.src.toNat ∧ tag = r.tag.toNat ∧ gen = r.gen.toNat then some (st, v) else none
    | _ => none

/-! ### Die caches and home directories -/

/-- The slice of a line: the fold of ADDR[47:6] into 6 bits (R150). -/
def lineSlice (line : Nat) : Nat :=
  (List.range 7).foldl (fun n i => n ^^^ (line / 64 ^ i % 64)) 0

/-- The first place of a line's set in its die cache: 64 slices of 512 sets of 16 ways (R150; DESIGN CHOICE, log entry 215). -/
def dcBase (line : Nat) : Nat := lineSlice line * 8192 + (Config.cacheSet line).toNat * 16

/-- The place of a die cache where a line stands. -/
def State.dcCell (s : State) (d : Die) (line : Nat) : Option Nat :=
  (s.net.cells.find? fun e => e.1 / 2 ^ 19 == d.idx && e.2 == line).map fun e => e.1 % 2 ^ 19

/-- The state of a line in a die cache: 0 not held, 1 S, 2 E, 3 M. -/
def State.dcLine (s : State) (d : Die) (line : Nat) : Nat := Tbl.get 0 s.dcache (dcKey d line)

/-- Put the data of a line that a die holds M, or that is on its way to its home. -/
def State.setLine (s : State) (key : Nat) (v : BitVec 512) : State := s.setNet { s.net with lines := Tbl.set s.net.lines key v }

/-- Forget the data at a key. -/
def State.dropLine (s : State) (key : Nat) : State := s.setNet { s.net with lines := Tbl.erase s.net.lines key }

/-- Poison a line that a die cache holds, or that is on its way to its home, by its key; or take its poison away. -/
def State.setSick (s : State) (key : Nat) (on : Bool) : State :=
  s.setNet { s.net with sick := if on then insertNat key s.net.sick else removeNat key s.net.sick }

/-- A line's place in a die cache is free again. -/
def State.dcLeft (s : State) (d : Die) (line : Nat) : State :=
  match s.dcCell d line with
  | some i => (s.setNet { s.net with cells := Tbl.erase s.net.cells (d.idx * 2 ^ 19 + i) }).setSick (dcKey d line) false
  | none => s

/-- Put the state of a line, and count the lines in M (NOC_DC_STAT); a line that is not M has the data of memory. -/
def State.setDcLine (s : State) (d : Die) (line n : Nat) : State :=
  let old := s.dcLine d line
  let dirty := s.get (atDie d) .NOC_DC_STAT_DIRTY
  let s := if n = 3 then s else s.dropLine (dcKey d line)
  let s := if n = 0 then s.dcLeft d line else s
  let s := s.setDcache (if n = 0 then Tbl.erase s.dcache (dcKey d line) else Tbl.set s.dcache (dcKey d line) n)
  let s := if n = 0 then s.setDcRights (Tbl.erase s.dcRights (dcKey d line)) else s
  if old = 3 ∧ n ≠ 3 then s.put (atDie d) .NOC_DC_STAT_DIRTY (dirty - 1)
  else if old ≠ 3 ∧ n = 3 then s.put (atDie d) .NOC_DC_STAT_DIRTY (dirty + 1)
  else s

/-- The bytes of a request's data that it writes, within its size. -/
def reqMask (r : NocReq) : Nat := r.be.toNat % 2 ^ 2 ^ r.size.toNat

/-- Perform a request on a byte memory: the old data, and the memory after it (R136). -/
def memPerform (m : Mem) (r : NocReq) : Nat × Mem :=
  let a := r.addr.toNat
  let n := 2 ^ r.size.toNat
  let old := m.read a n
  if r.isAtomic then
    let d := r.data.toNat
    (old, m.write a (atomicNew (r.op.toNat - 16) (8 * n) old (d % 2 ^ (8 * n)) (d / 2 ^ 64 % 2 ^ (8 * n))) n)
  else if r.isWrite then (0, m.writeMasked a r.data.toNat (reqMask r) n)
  else (old, m)

/-- Whether a request writes all 64 bytes of its line. -/
def fullLine (r : NocReq) : Bool := r.isWrite && r.size == 6 && r.be == BitVec.allOnes 64

/-- Answer a request with a status and data. -/
def State.respond (s : State) (r : NocReq) (status data : Nat) : State :=
  s.emit (.response r.src.toNat r.tag.toNat r.gen.toNat status data)

/-- Serve a request at its home with data of its line: a poisoned line reads POISON until a write of all 64 bytes (R153). -/
def State.serveLine (s : State) (r : NocReq) : State :=
  let line := r.addr.toNat / 64
  let s := if fullLine r then s.setPoison (removeNat line s.poison) else s
  if s.poison.contains line then s.respond r 1 0
  else
    let (v, m) := memPerform s.mem r
    (s.setMem m).respond r 0 v

/-- The home die of a line. -/
def lineHome (line : Nat) : Option Die :=
  match decodeAddr (line * 64) with
  | some (.cxl p _) => some (homeDie p)
  | some (.ddr c _) => some (homeDie c)
  | _ => none

/-- A line held exclusive by a die that was reset is poisoned, counted and reported (R153). The event's "lines poisoned so far" are those
that NOC_DIR_CNT.POISONED holds (DESIGN CHOICE, log entry 195). -/
def State.poisonHeld (s : State) (line holder : Nat) : State :=
  let s := s.setPoison (insertNat line s.poison)
  match lineHome line with
  | none => s
  | some h =>
    let s := s.bump (atDie h) .NOC_DIR_CNT_POISONED 1
    s.raise h Ev.NOC_DIR_POISON (holder + s.get (atDie h) .NOC_DIR_CNT_POISONED * 2 ^ 8)

/-- A die cache reads words of a line: an uncorrectable one poisons it there; where it is a tag of a line that is M, the home poisons the
line (R486). Whether a word is a tag is open (DESIGN CHOICE, log entry 215). -/
def State.dcRead (s : State) (d : Die) (line : Nat) (words : List Nat) (quiet : Bool) : State :=
  match s.dcCell d line with
  | none => s
  | some i =>
    let (s, bad) := s.eccReads d 1 (words.map (8 * i + ·)) quiet
    if !bad then s
    else
      let s := s.setSick (dcKey d line) true
      if s.dcLine d line = 3 then
        let tag := s.free 1 == 1
        let s := s.used
        if tag then s.poisonHeld line d.idx else s
      else s

/-- The 8-byte words that `n` bytes from an address lie in, within their line. -/
def lineWords (a n : Nat) : List Nat := (List.range ((a % 64 + n + 7) / 8 - a % 64 / 8)).map (a % 64 / 8 + ·)

/-- Whether a request is a read of the debug engine, which neither counts nor logs the error it corrects (R323). -/
def quietRead (r : NocReq) : Bool := r.icls == 5 && !(r.isWrite || r.isAtomic)

/-- The bytes of its line that a request writes. -/
def lineMask (r : NocReq) : Nat :=
  (if r.isAtomic then 2 ^ 2 ^ r.size.toNat - 1 else reqMask r) * 2 ^ (r.addr.toNat % 64)

/-- A die cache serves a request with its line; what is written stays in the cache, and memory is not written (R150). A line that
is poisoned there reads POISON until a write of all 64 bytes (R153, R486). -/
def State.serveCached (s : State) (d : Die) (r : NocReq) : State :=
  let line := r.addr.toNat / 64
  let s :=
    if fullLine r then s.setSick (dcKey d line) false
    else s.dcRead d line (lineWords r.addr.toNat (2 ^ r.size.toNat)) (quietRead r)
  if s.net.sick.contains (dcKey d line) then s.respond r 1 0
  else
    let (v, m) := memPerform (s.cachedMem d line) r
    let s := if r.takes then (s.setDcLine d line 3).setLine (dcKey d line) (BitVec.ofNat 512 (m.read (line * 64) 64)) else s
    let s := match s.dcCell d line with
      | some i => if r.takes then s.eccWrites d 1 (8 * i) (lineMask r) else s
      | none => s
    s.respond r 0 v

/-- The key of the data of a line that is on its way from a die's cache to its home (R151, R152; DEDUCED, log entry 196). -/
def flightKey (d : Die) (line : Nat) : Nat := 2 ^ 46 + dcKey d line

/-- The data of a line leaves a die's cache for its home, as poisoned where a word of it is uncorrectable (R486). -/
def State.lineLeaves (s : State) (d : Die) (line : Nat) : State :=
  match s.net.lines.find? fun e => e.1 == dcKey d line with
  | some (_, v) =>
    let s := s.dcRead d line (List.range 8) false
    let bad := s.net.sick.contains (dcKey d line)
    ((s.dropLine (dcKey d line)).setLine (flightKey d line) v).setSick (flightKey d line) bad
  | none => s

/-- The code that a rights vector gives an initiator class: 0 NONE, 1 READ, 2 WRITE; 3 acts as 2 (R471). -/
def classRight (vec icls : Nat) : Nat := Nat.min 2 (bitsOf vec (2 * icls) 2)

/-- Whether a vector grants a request: reads need READ, RD_UNQ, writes and atomics need WRITE (R472). -/
def granted (vec : Nat) (r : NocReq) : Bool :=
  if r.isRead && r.op != 2 then classRight vec r.icls.toNat != 0 else classRight vec r.icls.toNat == 2

/-- Whether a line lies in the window of a CXL port that is DETACHED: every access misses there (R442). -/
def State.detached (s : State) (line : Nat) : Bool :=
  match decodeAddr (line * 64) with
  | some (.cxl p _) => s.get (atUnit (homeDie p) (p % 2)) .MEM_CXL_STAT_STATE == 4
  | _ => false

/-- The contents of a byte range are no longer defined. -/
def State.openRange (s : State) (lo size : Nat) : State := s.setOpenMem ((lo / 64, (lo + size) / 64) :: s.openMem)

/-- The contents of a line are defined from now on. -/
def State.closeLine (s : State) (line : Nat) : State :=
  s.setOpenMem (s.openMem.flatMap fun x =>
    if x.1 ≤ line ∧ line < x.2 then [(x.1, line), (line + 1, x.2)].filter fun y => decide (y.1 < y.2) else [x])

/-- A line whose contents are not defined takes an open value before it is read or written in part (R452, DESIGN CHOICE, log entry 2). -/
def State.defineLine (s : State) (line : Nat) : State :=
  if s.openMem.any fun e => decide (e.1 ≤ line ∧ line < e.2) then
    ((s.setMem (s.mem.write (line * 64) (s.free 512) 64)).used).closeLine line
  else s

/-- Define the lines that hold `n` bytes from an address. -/
def State.defineRange (s : State) (a n : Nat) : State :=
  if s.openMem.isEmpty then s
  else (List.range ((a + n + 63) / 64 - a / 64)).foldl (fun s i => s.defineLine (a / 64 + i)) s

/-- The lines of a set of a die cache (R150): 64 slices of 512 sets. -/
def State.dcSet (s : State) (d : Die) (line : Nat) : List Nat :=
  ((s.dcache.filter fun e => e.1 / 2 ^ 42 == d.idx).map fun e => e.1 % 2 ^ 42).filter fun l =>
    lineSlice l == lineSlice line && Config.cacheSet l == Config.cacheSet line

/-- A line leaves a die cache for another: dirty data goes to its home (R150). -/
def State.dcEvict (s : State) (d : Die) (line : Nat) : State :=
  let st := s.dcLine d line
  if st = 0 then s
  else ((s.lineLeaves d line).setDcLine d line 0).emit (.home (if st = 3 then .wrBack else .evict) d.idx line)

/-- A set of 16 ways makes room for a line: which line gives way is not stated (R150; DESIGN CHOICE, log entry 193). -/
def State.dcRoom (s : State) (d : Die) (line : Nat) : State :=
  let set := s.dcSet d line
  if set.length < 16 ∨ set.contains line = true then s
  else (s.used).dcEvict d (set.getD (s.free 4) 0)

/-- A request to CXL or DDR5 memory reaches the slice of its line on its own die (R150): a hit is served there where the line's
vector grants it, else the home answers (R473); a miss goes to the home, for the line where ALLOC = 1, else as it is, and meets the fences
and FAILED channels on its path there (R138, R176). `victim` is a line of the same set that the slice pushes out for the fill. -/
def execDieCacheRequest (r : NocReq) (victim : Option (BitVec 42)) (s : State) : Res :=
  let d := idDie r.src.toNat
  let line := r.addr.toNat / 64
  let writes := r.isWrite || r.isAtomic
  let here := s.dcLine d line
  .next (if !d.isFab then s
  else if here ≠ 0 ∧ (writes = false ∨ 2 ≤ here) ∧ s.detached line = false then
    if granted (Tbl.get 0 s.dcRights (dcKey d line)) r then
      (s.pmcItems d 0x230 (lineSlice line) 1).serveCached d r
    else s.emit (.request { r with alloc := false })
  else
    let s := s.pmcItems d 0x231 (lineSlice line) 1
    match (decodeAddr r.addr.toNat).bind fun t => s.fenceRefusal (ident d (lineSlice line / 8) (lineSlice line % 8) 4) t.ident r.low with
    | some (a, st) => (s.bump (atDie a) .NOC_FENCE_CNT_SYNTH 1).respond r st 0
    | none =>
    match (decodeAddr r.addr.toNat).bind fun t => s.failedBack t.ident r.src.toNat r.cls.toNat r.tag.toNat with
    | some a => (s.bump (atDie a) .NOC_FENCE_CNT_SYNTH 1).respond r 3 0
    | none =>
    if r.alloc then
      let s := match victim with
        | none => s
        | some v => if (s.dcSet d line).contains v.toNat then s.dcEvict d v.toNat else s
      (s.setDcWait (Tbl.set s.dcWait (dcKey d line) (Tbl.get [] s.dcWait (dcKey d line) ++ [r]))).emit
        (.home (if writes then .rdUnq else .rdShd) d.idx line)
    else s.emit (.request r))

/-- A line takes a free way of its set, which of them is not stated (DESIGN CHOICE, log entry 215), and its words are written. -/
def State.dcTake (s : State) (d : Die) (line : Nat) : State :=
  let base := d.idx * 2 ^ 19 + dcBase line
  let room := (List.range 16).filter fun w => !Tbl.has s.net.cells (base + w)
  match s.dcCell d line with
  | some i => s.eccWrites d 1 (8 * i) (2 ^ 64 - 1)
  | none =>
    let i := dcBase line + room.getD (s.free 4 % room.length) 0
    ((s.used).setNet { s.net with cells := Tbl.set s.net.cells (d.idx * 2 ^ 19 + i) line }).eccWrites d 1 (8 * i) (2 ^ 64 - 1)

/-- A fill arrives at a die cache: the line takes its state, unless it holds a stronger one, and its rights vector, and the requests that wait
for it are served, or go on to the home where the vector does not grant them (R473); writes and atomics wait on where the fill is shared, for
that of their RD_UNQ. A fill answered with a status other than OKAY leaves no line and answers them so (R150, R483). -/
def State.cacheFill (s : State) (d : Die) (line status : Nat) (exclusive : Bool) (rights : Nat) : State :=
  let waiting := Tbl.get [] s.dcWait (dcKey d line)
  let s := s.setDcWait (Tbl.erase s.dcWait (dcKey d line))
  if status = 0 then
    let s := s.dcRoom d line
    let st := Nat.max (s.dcLine d line) (if exclusive then 2 else 1)
    let later := if 2 ≤ st then [] else waiting.filter NocReq.takes
    let s := if later = [] then s else s.setDcWait (Tbl.set s.dcWait (dcKey d line) later)
    let s := (s.setDcLine d line st).setDcRights (Tbl.set s.dcRights (dcKey d line) rights)
    let s := s.dcTake d line
    (waiting.filter fun r => decide (2 ≤ st) || !r.takes).foldl (fun s r =>
      if granted rights r then s.serveCached d r
      else s.emit (.request { r with alloc := false })) s
  else waiting.foldl (fun s r => s.respond r status 0) s

/-- No die holds a line. -/
def DirRec.nobody : DirRec := ⟨false, []⟩

/-- The record of a line. -/
def State.dirRec (s : State) (line : Nat) : DirRec := Tbl.get DirRec.nobody s.dir line

/-- The home of a line among the four of its die, and the first entry of its set there: 65,536 sets of 16 ways a home (R151; DESIGN CHOICE,
log entry 215). -/
def dirBase (line : Nat) : Nat :=
  let home := match decodeAddr (line * 64) with
    | some (.ddr c _) => c % 2
    | some (.cxl p _) => 2 + p % 2
    | _ => 0
  home * 2 ^ 20 + (Config.dirSet line).toNat * 16

/-- The directory of a line writes an entry of it, in a way of its set that is free, which of them is not stated (DESIGN CHOICE, log entry
215); or frees it. -/
def State.dirEntry (s : State) (h : Die) (line : Nat) (on : Bool) : State :=
  let base := h.idx * 2 ^ 22 + dirBase line
  let room := (List.range 16).filter fun w => !Tbl.has s.net.ents (base + w)
  match s.net.ents.find? fun e => e.1 / 2 ^ 22 == h.idx && e.2 == line with
  | some (k, _) =>
    (if on then s else s.setNet { s.net with ents := Tbl.erase s.net.ents k }).eccFresh h 10 (k % 2 ^ 22)
  | none =>
    if on then
      let i := base + room.getD (s.free 4 % room.length) 0
      ((s.used).setNet { s.net with ents := Tbl.set s.net.ents i line }).eccFresh h 10 (i % 2 ^ 22)
    else s

/-- Put the record of a line; a line that nobody holds has none. -/
def State.setDirRec (s : State) (line : Nat) (r : DirRec) : State :=
  let s := match lineHome line with
    | some h => s.dirEntry h line (r.holders != [])
    | none => s
  s.setDir (if r.holders = [] then Tbl.erase s.dir line else Tbl.set s.dir line r)

/-- Drop a die's record of a line, with poison where it held the line exclusive. -/
def State.dropHolder (s : State) (line die : Nat) (lost : Bool) : State :=
  let r := s.dirRec line
  let s := if lost && r.exclusive && r.holders.any (fun h => h.1 == die) then s.poisonHeld line die else s
  s.setDirRec line ⟨r.exclusive, r.holders.filter fun h => h.1 != die⟩

/-- Records that a die made before its last DIE reset are recognised by its reset count (R153). -/
def State.refreshDir (s : State) (line : Nat) : State :=
  (s.dirRec line).holders.foldl (fun s h => if h.2 = Tbl.get 0 s.dieResets h.1 then s else s.dropHolder line h.1 true) s

/-- Send snoops to dies, and hold the request until they are answered. -/
def State.snoopAll (s : State) (line op : Nat) (dies : List Nat) : State := dies.foldl (fun s d => s.emit (.snoop line d op)) s

/-- The record after a request is served (R151). -/
def dirAfter (r : DirRec) (op : HomeOp) (die count : Nat) : DirRec :=
  let others := r.holders.filter fun h => h.1 != die
  match op with
  | .rdShd => if others = [] then ⟨true, [(die, count)]⟩ else ⟨false, others ++ [(die, count)]⟩
  | .rdUnq => ⟨true, [(die, count)]⟩
  | .evict | .wrBack | .wrBackBad => ⟨r.exclusive, others⟩
  | .rd => ⟨false, r.holders⟩
  | .wr | .atomic => ⟨false, []⟩

/-- A directory drops its records of the lines that meet a test. -/
def State.dirDrop (s : State) (p : Nat → Bool) : State :=
  (s.setNet { s.net with ents := s.net.ents.filter fun e => !p e.2 }).setDir (Tbl.keep (fun l => !p l) s.dir)

/-- An entry of a directory is uncorrectable: every die-cache line of its set is flushed, and dirty lines are poisoned (R486). -/
def State.dirBad (s : State) (h : Die) (base : Nat) : State :=
  let mine (l : Nat) : Bool := lineHome l == some h && dirBase l == base
  let s := (s.dcache.filter fun e => mine (e.1 % 2 ^ 42)).foldl (fun s e =>
    (if e.2 = 3 then s.poisonHeld (e.1 % 2 ^ 42) (e.1 / 2 ^ 42) else s).setDcLine (Die.ofIdx (e.1 / 2 ^ 42)) (e.1 % 2 ^ 42) 0) s
  (List.range 16).foldl (fun s i => s.eccMend h 10 (base + i)) (s.dirDrop mine)

/-- A lookup in a directory reads the set of a line. -/
def State.dirLook (s : State) (line : Nat) : State :=
  match lineHome line with
  | none => s
  | some h =>
    let (s, bad) := s.eccReads h 10 ((List.range 16).map (dirBase line + ·)) false
    if bad then s.dirBad h (dirBase line) else s

/-- A directory gives up the entry of a line: SNP_INV to every holder, counted as an eviction (R151). The way is free at once; what the holders
answer is still owed. -/
def State.dirEvict (s : State) (h : Die) (line : Nat) : State :=
  let who := (s.dirRec line).holders.map Prod.fst
  if who = [] then s
  else
  let s := ((s.bump (atDie h) .NOC_DIR_CNT_BACKINV 1).snoopAll line 0 who).dirEntry h line false
  s.setHomeTxn (Tbl.set s.homeTxn line ⟨.evict, 8, who, []⟩)

/-- The lines that take a way of a line's set in the directories of a port die (R151): not those that are being evicted. -/
def State.dirSet (s : State) (h : Die) (line : Nat) : List Nat :=
  (s.dir.map Prod.fst).filter fun l => lineHome l == some h && dirBase l == dirBase line &&
    !(s.homeTxn.any fun e => e.1 == l && e.2.op == .evict && e.2.die == 8)

/-- A full set of a directory gives up an entry before it takes a line that it does not hold: `full` where that is one of its lines, else
one that is not stated (R151; DESIGN CHOICE, log entry 193). Lines whose snoops are not answered yet do not give way; where all 16 are such,
the set takes nothing. The answer says whether it has room. -/
def State.dirRoom (s : State) (h : Die) (line : Nat) (full : Option (BitVec 42)) : State × Bool :=
  let set := s.dirSet h line
  let may := set.filter fun l => !Tbl.has s.homeTxn l
  if set.contains line || decide (set.length < 16) then (s, true)
  else match full.bind fun v => if may.contains v.toNat then some v.toNat else none, may with
  | some v, _ => (s.dirEvict h v, true)
  | none, [] => (s, false)
  | none, l => ((s.used).dirEvict h (l.getD (s.free 4 % l.length) 0), true)

/-- A die cache answers a snoop (R152): SNP_ACK_DATA where the line is M, SNP_ACK otherwise. SNP_INV and SNP_FLUSH invalidate,
SNP_DOWN keeps the line shared. -/
def execSnoopReceived (die : FDie) (line : BitVec 42) (op : Fin 3) (s : State) : Res :=
  let l := line.toNat
  let st := s.dcLine die.die l
  let s' := if st = 0 then s else (s.lineLeaves die.die l).setDcLine die.die l (if op = 1 then 1 else 0)
  .next (s'.emit (.snoopAck l die.die.idx (st == 3)))

/-- The home's walk after a die went down: a record made before its last reset is dropped, with poison where it was exclusive
(R153). -/
def execHomeDownWalkStep (line : BitVec 42) (s : State) : Res := .next (s.refreshDir line.toNat)

/-- NOC_DC_CMD.FLUSH starts a flush; it is ignored while BUSY (R154). -/
def State.dcFlush (s : State) (d : Die) : State := s.put (atDie d) .NOC_DC_CMD_BUSY 1

/-- A flush of a die cache is commanded. -/
def execDieCacheFlush (die : FDie) (s : State) : Res := .next (s.dcFlush die.die)

end Sys2Proof.Machine
end

