-- ==== Sys2Proof/Machine/Frames.lean ====
section
/-! DEFINITION. Configuration memory: frames, their check codes, what they set, and their readback (R195, R196, R240, R244, R245,
R321). -/

namespace Sys2Proof.Machine

/-- SYND of 4,096 data bits (R245). -/
def syndOf (data : BitVec 4096) : Nat :=
  (List.range 4096).foldl (fun y i => if data.getLsbD i then y ^^^ (4096 + i) else y) 0

/-- The bytes 0 to 523 of a packet (R195). -/
def packetBody (addr : Nat) (data : BitVec 4096) (synd : Nat) : List Nat :=
  bytesLE addr 4 ++ bytesLE data.toNat 512 ++ bytesLE synd 2 ++ List.replicate 6 0

/-- The CRC of a frame (R244). -/
def frameCrc (addr : Nat) (data : BitVec 4096) (synd : Nat) : Nat := crc32c (packetBody addr data synd)

/-- Frames of a die (R196). -/
def dieFrames (d : Die) : Nat := if d.isFab then 53248 else 6144

/-- The parcel of a frame: 0 on a port die. -/
def frameParcel (d : Die) (f : Nat) : Nat := if d.isFab then f / 3328 else 0

/-- Whether a frame is a content frame (R196). -/
def isContent (d : Die) (f : Nat) : Bool := d.isFab && decide (2272 ≤ f % 3328)

/-- The address of a frame (R196). -/
def frameAddr (d : Die) (f : Nat) : Nat :=
  natOf (isContent d f) * 2 ^ 23 + d.idx * 2 ^ 20 + frameParcel d f * 2 ^ 16 + f

/-- The key of a frame. -/
def frameKey (d : Die) (f : Nat) : Nat := d.idx * 65536 + f

/-- A frame with data and matching codes. -/
def goodFrame (d : Die) (f : Nat) (data : BitVec 4096) : Frame := ⟨data, syndOf data, frameCrc (frameAddr d f) data (syndOf data)⟩

/-- The blank frame (R229): also what configuration memory holds before any load (DESIGN CHOICE, log entry 22). -/
def blankFrame (d : Die) (f : Nat) : Frame := ⟨0, 0, frameCrc (frameAddr d f) 0 0⟩

/-- The stored frame. -/
def State.frame (s : State) (d : Die) (f : Nat) : Frame := Tbl.get (blankFrame d f) s.frames (frameKey d f)

/-- The block RAM and the first word that a content frame holds (R113, R196). -/
def contentPlace (f : Nat) : Nat × Nat :=
  let q := f / 3328
  let c := f % 3328 - 2272
  let b := c / 8
  let k := b % 2
  let rl := b / 2 % 22
  let gl := b / 44
  (((3 * (q % 4) + gl) * 88 + 22 * (q / 4) + rl) * 2 + k, 128 * (c % 8))

/-- The registers whose value an image sets ("image" in their tables). -/
def Reg.fromImage (r : Reg) : Bool :=
  [Reg.LAN_LANE_CFG, .LAN_LANE_FREQ, .LAN_QUAD_CFG, .PKT_PORT_CFG, .PKT_PORT_PFC, .PKT_PORT_HDRM, .PKT_PROF_EXT,
   .PKT_PROF_MISS_LO, .PKT_PROF_MISS_HI, .PKT_LKP_CFG, .PKT_Q_CFG, .PKT_Q_MIN, .PKT_Q_SCHED, .PKT_Q_SCHED_NEXT, .PKT_GRP,
   .PKT_GRP_NEXT, .PKT_SPILL_BASE_LO, .PKT_SPILL_BASE_HI, .PKT_SPILL_SIZE, .PKT_DRING_BASE_LO, .PKT_DRING_BASE_HI,
   .PKT_DRING_CFG, .PKT_TC_CFG, .CMP_PROF_CFG, .CMP_PROF_LEN, .MEM_DDR_CFG, .CLK_FPLL_STAT, .CLK_CPLL_STAT].contains r

/-- Whether a key of the register table is one that a frame of this die may set. -/
def imageKey (d : Die) (key : Nat) : Bool :=
  match Reg.all[key / 2 ^ 44]? with
  | some r => r.fromImage && key % 8 == d.idx
  | none => false

/-- A cluster whose flip-flops still stand at INIT keeps their values when its setting changes outside GSR. -/
def State.setCluster (s : State) (d : Die) (n : Nat) (c : Config.ClusterCfg) : State :=
  let s :=
    if s.stageOf d (clusterParcel n) = 3 && !Tbl.has s.ffs (clusterKey d n) then s.setFfs (Tbl.set s.ffs (clusterKey d n) (s.ff d n))
    else s
  s.setClusters (Tbl.set s.clusters (clusterKey d n) c)

/-- What a frame sets. Where its data changes in place, a bit acts on what it sets alone (R246, R247): what the old data set in the same way
is left as it is, and what the new data no longer sets goes back to `unset`. -/
def frameSets {κ β : Type} [DecidableEq κ] [DecidableEq β] (g : BitVec 4096 → List (κ × β)) (unset : β) (was : Option (BitVec 4096))
    (data : BitVec 4096) : List (κ × β) :=
  match was with
  | none => g data
  | some w =>
    ((g w).filter fun e => !(g data).any fun f => f.1 == e.1).map (fun e => (e.1, unset)) ++ (g data).filter fun e => !(g w).contains e

/-- The bits of a register that an image sets: its fields of reset value "image", but CPLL's FOLLOW, which reads 1 (R504). -/
def Reg.imageMask (r : Reg) : Word :=
  match r with
  | .CLK_FPLL_STAT => Fld.CLK_FPLL_STAT_FOLLOW.mask
  | .CLK_CPLL_STAT => 0
  | .MEM_DDR_CFG => (r.fields.filter fun f => f.lo != 8).foldl (fun m f => m ||| f.mask) 0
  | _ => r.fields.foldl (fun m f => m ||| f.mask) 0

/-- The word that a frame's registers give a key, or the register's reset value. -/
def imageWordOf (l : List (Nat × Word)) (r : Reg) (d : Die) (key : Nat) : Word :=
  l.foldl (fun v e => if e.1 = key then e.2 else v) (r.resetWord (atDie d))

/-- A register takes the bits that a frame sets in it; where the frame's data changes in place, those alone that it sets otherwise than
before (R247): what firmware wrote to the others stays. -/
def State.imageReg (s : State) (d : Die) (was : Option (List (Nat × Word))) (now : List (Nat × Word)) (key : Nat) : State :=
  match Reg.all[key / 2 ^ 44]? with
  | none => s
  | some r =>
    let new := imageWordOf now r d key
    let m := match was with
      | none => r.imageMask
      | some l => r.imageMask &&& (imageWordOf l r d key ^^^ new)
    if imageKey d key then s.setRegs (Tbl.set s.regs key ((Tbl.get (r.resetWord (atDie d)) s.regs key &&& ~~~ m) ||| (new &&& m))) else s

/-- The registers that a frame sets. -/
def State.imageRegs (s : State) (d : Die) (f : Nat) (was : Option (BitVec 4096)) (data : BitVec 4096) : State :=
  let g := Config.frameRegs d.idx f
  let old := was.map g
  (((old.getD []).map Prod.fst ++ (g data).map Prod.fst).eraseDups).foldl (fun s k => s.imageReg d old (g data) k) s

/-- The codes of a parcel's outward signals that a frame holds; 0b11 is the CLAMP_DEF of the image that writes it (R197, R221). -/
def State.setCodes (s : State) (d : Die) (p : Nat) (l : List (Config.Node × Nat)) : State :=
  let k := parcelKey d p
  if l = [] then s
  else s.setFab { s.fab with codes := Tbl.set s.fab.codes k (l.foldl (fun t e =>
    Tbl.set t (nodeCode e.1) (if e.2 % 4 = 3 then Tbl.get 0 s.clampDef k else e.2 % 4)) (Tbl.get [] s.fab.codes k)) }

/-- What a frame sets of the routing, clocks, rails, pins and seams of its parcel (R82 to R85, R94 to R96, R181, R210, R221). -/
def State.applyRouting (s : State) (d : Die) (f : Nat) (was : Option (BitVec 4096)) (data : BitVec 4096) : State :=
  let p := frameParcel d f
  let here (m : Config.Node) : Bool := (nodeParcel d m).getD p == p
  let s := ((frameSets (Config.frameMuxes d.idx f) 0 was data).filter fun e => here e.1).foldl (fun s e => s.muxSet d e.1 e.2) s
  let s := ((frameSets (Config.frameTileClocks d.idx f) 0 was data).filter fun e => boxParcel e.1.1 e.1.2.1 == p).foldl (fun s e =>
    s.setFab { s.fab with
      tileClks := Tbl.set s.fab.tileClks (((d.idx * 88 + e.1.1) * 120 + e.1.2.1 % 120) * 16 + e.1.2.2 % 16) (e.2 % 45) }) s
  let s := (frameSets (Config.frameGlobalNets d.idx f) 0 was data).foldl (fun s e =>
    s.setFab { s.fab with globals := Tbl.set s.fab.globals (globalKey d (e.1 % 32)) e.2 }) s
  let s := (frameSets (Config.frameRegionalNets d.idx f) 0 was data).foldl (fun s e =>
    s.setFab { s.fab with regionals := Tbl.set s.fab.regionals ((d.idx * 16 + p) * 12 + e.1 % 12) e.2 }) s
  let s := ((frameSets (fun x => (Config.frameRails d.idx f x).map fun e => ((e.1, e.2.1), e.2.2)) 0 was data).filter fun e =>
      railParcel (e.1.1 % 24576) == p).foldl (fun s e =>
    s.setFab { s.fab with drivers := Tbl.set s.fab.drivers (railKey d (e.1.1 % 24576) * 32 + e.1.2 % 22) (e.2 % 4) }) s
  let s := ((frameSets (Config.framePins d.idx f) .none was data).filter fun e => pinParcel d e.1 == some p).foldl (fun s e =>
    s.setFab { s.fab with pulls := Tbl.set s.fab.pulls (pinKey d e.1) e.2 }) s
  let s := ((frameSets (Config.frameSeams d.idx f) ⟨false, 0, 0⟩ was data).filter fun e =>
      edgeOn d e.1.1 && decide (e.1.1 < 11 ∧ e.1.2 < 88) && seamParcel d e.1.1 e.1.2 == p).foldl (fun s e =>
    s.setSeam d e.1.1 e.1.2 { s.seam d e.1.1 e.1.2 with cfg := e.2 }) s
  s.setCodes d p ((frameSets (Config.frameClamps d.idx f) 3 was data).filter fun e => here e.1)

/-- What a configuration frame sets takes effect, each setting within the frame's parcel: which bits set what is not stated (Config;
DESIGN CHOICE, log entry 23). `was` is the data that the frame held, where it changes in place. -/
def State.applyFrame (s : State) (d : Die) (f : Nat) (was : Option (BitVec 4096)) (data : BitVec 4096) : State :=
  let p := frameParcel d f
  let s :=
    if d.isFab then
      let s := ((frameSets (Config.frameClusters d.idx f) ClusterCfg.none was data).filter fun e => clusterParcel (e.1 % 270336) == p).foldl (fun s e =>
        s.setCluster d (e.1 % 270336) e.2) s
      let s := ((frameSets (Config.frameBrams d.idx f) BramCfg.none was data).filter fun e => bramParcel (e.1 % 2112) == p).foldl (fun s e =>
        s.setBramCfg (Tbl.set s.bramCfg (bramKey d (e.1 % 2112)) e.2)) s
      let s := ((frameSets (Config.frameMults d.idx f) MultCfg.none was data).filter fun e => multParcel (e.1 % 4224) == p).foldl (fun s e =>
        s.setMultCfg (Tbl.set s.multCfg (multKey d (e.1 % 4224)) e.2)) s
      let s := ((frameSets (Config.framePorts d.idx f) (0, 0) was data).filter fun e => e.1 / 16 == p).foldl (fun s e =>
        (s.setPortMode (Tbl.set s.portMode (d.idx * 256 + e.1 % 256) (e.2.1 % 4))).setFab
          { s.fab with portClks := Tbl.set s.fab.portClks (d.idx * 256 + e.1 % 256) (e.2.2 % 45) }) s
      s.applyRouting d f was data
    else
      let s := (frameSets (Config.frameMacs d.idx f) 0 was data).foldl (fun s e =>
        s.setMacMode (Tbl.set s.macMode (d.idx * 12 + e.1 % 12) (e.2 % 8))) s
      s.setCodes d 0 ((frameSets (Config.frameClamps d.idx f) 3 was data).filter fun e => match e.1 with
        | .launch _ _ _ => true
        | _ => false)
  s.imageRegs d f was data

/-- A frame is written: stored, and what it sets or holds takes effect (R113, R244). -/
def State.writeFrame (s : State) (d : Die) (f : Nat) (was : Option (BitVec 4096)) (fr : Frame) : State :=
  let s := s.setFrames (Tbl.set s.frames (frameKey d f) fr)
  if isContent d f then
    let (n, w) := contentPlace f
    (List.range 128).foldl (fun s i =>
      let a := n * 1024 + w + i
      (s.setEccData d 0 a (fr.data.toNat / 2 ^ (32 * i) % 2 ^ 32)).setChk (Tbl.erase s.chk (eccKey d 0 a))) s
  else s.applyFrame d f was fr.data

/-- The routing of a blank parcel (R229): no multiplexer selects an input, every rail driver is OFF, every clock select is empty. -/
def State.blankRouting (s : State) (d : Die) (q : Nat) : State :=
  let f := s.fab
  s.setFab { f with
    portClks := Tbl.keep (fun k => k / 16 != d.idx * 16 + q) f.portClks
    muxes := f.muxes.filter fun e => !(e.1 / 2 ^ 48 == d.idx && nodeParcel d e.2.1 == some q)
    tileClks := Tbl.keep (fun k => !(k / 16 / 120 / 88 == d.idx && boxParcel (k / 16 / 120 % 88) (k / 16 % 120) == q)) f.tileClks
    regionals := Tbl.keep (fun k => k / 12 != d.idx * 16 + q) f.regionals
    drivers := Tbl.keep (fun k => !(k / 32 / 24576 == d.idx && railParcel (k / 32 % 24576) == q)) f.drivers
    pulls := Tbl.keep (fun k => !(k / 2 ^ 24 == d.idx && pinParcel d (k % 2 ^ 24) == some q)) f.pulls
    codes := Tbl.erase f.codes (parcelKey d q) }

/-- A blank parcel (R229): nothing is configured, every fabric port is OFF; block RAM contents are not defined (R117). -/
def State.blankParcel (s : State) (d : Die) (q : Nat) : State :=
  let s := s.setFrames (Tbl.keep (fun k =>
    !(k / 65536 == d.idx && frameParcel d (k % 65536) == q && !isContent d (k % 65536))) s.frames)
  let s := s.setClusters (Tbl.keep (fun k => !(k / 270336 == d.idx && clusterParcel (k % 270336) == q)) s.clusters)
  let s := s.setBramCfg (Tbl.keep (fun k => !(k / 2112 == d.idx && bramParcel (k % 2112) == q)) s.bramCfg)
  let s := s.setMultCfg (Tbl.keep (fun k => !(k / 4224 == d.idx && multParcel (k % 4224) == q)) s.multCfg)
  let s := s.setPortMode (Tbl.keep (fun k => !(k / 16 == d.idx * 16 + q)) s.portMode)
  (s.blankRouting d q).setBramDef (removeNat (parcelKey d q) s.bramDef)

/-- The clusters of a capture frame's 32-bit data word `t`, low half first (R240). -/
def captureCluster (q j m : Nat) : Nat :=
  let i := 256 * j + m
  let c := i % 32
  let cl := i / 32 % 24
  let rl := i / 768
  ((22 * (q / 4) + rl) * 96 + 24 * (q % 4) + cl) * 32 + c

/-- The data bits of a capture frame (R240): zero before a capture. A cluster that no frame had set at the capture has no flip-flop at 1. -/
def State.captureData (s : State) (d : Die) (q j : Nat) : BitVec 4096 :=
  match s.capture.find? fun e => e.1 == parcelKey d q with
  | none => 0
  | some (_, ffs) =>
    BitVec.ofNat 4096 ((List.range 256).foldr (fun m v =>
      (Tbl.get 0 ffs (clusterKey d (captureCluster q j m))).toNat + v * 2 ^ 16) 0)

/-- The current contents of a content frame, and the state after the reads (R116); contents that are not defined are open. -/
def State.contentData (s : State) (d : Die) (f : Nat) : State × BitVec 4096 :=
  if s.bramDef.contains (parcelKey d (f / 3328)) then
    let (n, w) := contentPlace f
    (s, BitVec.ofNat 4096 ((List.range 128).foldr (fun i v => (s.eccCheck d 0 (n * 1024 + w + i)).1 + v * 2 ^ 32) 0))
  else (s.used, BitVec.ofNat 4096 (s.free 4096))

/-- Word `w` (0 to 131) of a packet with these parts (R195, R321). -/
def packetWord (addr : Nat) (data : BitVec 4096) (synd crc w : Nat) : Nat :=
  if w = 0 then addr
  else if w < 129 then data.toNat / 2 ^ (32 * (w - 1)) % 2 ^ 32
  else if w = 129 then synd % 2 ^ 16
  else if w = 131 then crc % 2 ^ 32
  else 0

/-- A word of the frame that a frame address names, bit 24 selecting a capture frame (R240, R321). -/
def State.readbackWord (s : State) (addr w : Nat) : State × Nat :=
  let d := Die.ofIdx (bitsOf addr 20 3)
  let f := addr % 2 ^ 16
  if dieFrames d ≤ f then (s, 0)
  else if bitOf addr 24 then
    if d.isFab && decide (f % 3328 < 66) then
      let data := s.captureData d (f / 3328) (f % 3328)
      (s, packetWord (addr % 2 ^ 25) data (syndOf data) (frameCrc (addr % 2 ^ 25) data (syndOf data)) w)
    else (s, 0)
  else
    let fr := s.frame d f
    if isContent d f then
      let (s, data) := s.contentData d f
      (s, packetWord (frameAddr d f) data fr.synd fr.crc w)
    else (s, packetWord (frameAddr d f) fr.data fr.synd fr.crc w)

/-! ### Checking a frame (R246) -/

/-- Whether a frame is clean. -/
def clean (d : Die) (f : Nat) (fr : Frame) : Bool :=
  syndOf fr.data == fr.synd && frameCrc (frameAddr d f) fr.data fr.synd == fr.crc

/-- Whether exactly one of the low `n` bits of a number is set. -/
def oneBit (v n : Nat) : Bool := popCount v n == 1

/-- The candidates of R246 in order, with their numbers. -/
def candidates (d : Die) (f : Nat) (fr : Frame) : List (Nat × Frame) :=
  let yc := syndOf fr.data
  let e := fr.synd ^^^ yc
  let cc := frameCrc (frameAddr d f) fr.data fr.synd
  (if bitOf e 12 && e / 2 ^ 13 == 0 then [(1, { fr with data := fr.data ^^^ (BitVec.ofNat 4096 (2 ^ (e % 4096))) })] else []) ++
  (if oneBit e 16 then [(2, { fr with synd := yc })] else []) ++
  (if e == 0 && oneBit (fr.crc ^^^ cc) 32 then [(3, { fr with crc := cc })] else [])

/-- The first candidate after which the frame is clean. -/
def corrected (d : Die) (f : Nat) (fr : Frame) : Option (Nat × Frame) := (candidates d f fr).find? fun c => clean d f c.2

end Sys2Proof.Machine
end

