-- ==== Sys2Proof/Machine/Parcels.lean ====
section
/-! DEFINITION. Parcels: power-gating, holds, captures, and the stages of a parcel's release (chapter 08, rows 85 to 92). -/

namespace Sys2Proof.Machine

/-- Every parcel of the package. -/
def everyParcel : List (FDie × Fin 16) :=
  [FDie.f0, .f1, .f2, .f3, .f4, .f5].flatMap fun d => (List.finRange 16).map fun p => (d, p)

/-- A scrubber at rest. -/
def Scrub.off : Scrub := ⟨0, false, 0, none, none⟩

/-- The scrubber of a die. -/
def State.scrub (s : State) (d : Die) : Scrub := Tbl.get Scrub.off s.scrubs d.idx

/-- Put the state of a parcel (R219). -/
def State.setParcelSt (s : State) (d : Die) (p n : Nat) : State := s.put (atDie d) (.PRC_STATE_P p) n

/-- The power step of a parcel (R235): 0 none. -/
def State.powerStep (s : State) (d : Die) (p : Nat) : Nat := Tbl.get 0 s.prcStep (parcelKey d p)

/-- Put the power step of a parcel. -/
def State.setPowerStep (s : State) (d : Die) (p n : Nat) : State :=
  s.setPrcStep (if n = 0 then Tbl.erase s.prcStep (parcelKey d p) else Tbl.set s.prcStep (parcelKey d p) n)

/-- Whether a parcel is a target of the partial load of its die, from FENCING on (R237). -/
def State.loadTarget (s : State) (d : Die) (p : Nat) : Bool :=
  s.get (atDie d) .PRC_LOAD_STAT_STATE != 0 && s.bit (atDie d) .PRC_LOAD_STAT_TARGETS p

/-- The parcel's clock gates close and its GSR asserts; rail flags and keepers clear; its initiators' tags return to FREE (R235
step 2, R158). -/
def State.parcelShut (s : State) (d : Die) (p : Nat) : State :=
  let s := (s.assertGsr d p).railReset d p
  let s := s.freeTags fun i => (List.range 16).any fun q => i == portIdent d p q
  s.portsClear d p

/-- The fence of a parcel is CLOSED: a power-down goes on to step 3, and a hold is complete (R235, R256). -/
def State.parcelClosed (s : State) (d : Die) (p : Nat) : State :=
  let s := if s.powerStep d p = 2 then (s.parcelShut d p).setPowerStep d p 3 else s
  if s.prcHold.contains (parcelKey d p) then
    ((s.parcelShut d p).setPrcHold (removeNat (parcelKey d p) s.prcHold)).setParcelSt d p 2
  else s

/-- Raise the fence of a parcel for a power-down or a hold; one that is CLOSED already counts as drained. -/
def State.parcelFence (s : State) (d : FDie) (p : Fin 16) : State :=
  let s := s.fenceRaise (.parcel d p)
  if s.fence (.parcel d p) = 2 then s.parcelClosed d.die p else s

/-- A mask of parcels that meet a test. -/
def parcelMask (t : Nat → Bool) : Nat := (List.range 16).foldl (fun n p => if t p then n + 2 ^ p else n) 0

/-- A power request that does not fit the parcel's state (R237). -/
def State.powerMisfit (s : State) (d : Die) (down up p : Nat) : Bool :=
  let st := s.parcelSt d p
  (bitOf down p && (bitOf up p || st == 1 || st == 3 || s.loadTarget d p || s.powerStep d p != 0)) ||
    (bitOf up p && (st != 3 || s.loadTarget d p || 4 ≤ s.powerStep d p))

/-- A write of PRC_PG_CTRL (R235, R237). -/
def State.parcelPower (s : State) (d : Die) (down up : Nat) : State :=
  let bad := parcelMask fun p => s.powerMisfit d down up p
  let s := (List.range 16).foldl (fun t p =>
    if bitOf bad p then t
    else if bitOf down p then t.setPowerStep d p 1
    else if bitOf up p then t.setPowerStep d p 4
    else t) s
  if bad = 0 then s
  else (s.put (atDie d) .PRC_PG_STAT_IGNORED (s.get (atDie d) .PRC_PG_STAT_IGNORED ||| bad)).raise d Ev.PRC_REQ_IGNORED (bad * 2 ^ 8)

/-- PRC_PG_CTRL is written with parcels to power down, and perhaps with parcels to power up beside them. -/
def execParcelPowerDown (die : FDie) (down up : BitVec 16) (s : State) : Res := .next (s.parcelPower die.die down.toNat up.toNat)

/-- PRC_PG_CTRL is written with parcels to power up. -/
def execParcelPowerUp (die : FDie) (up : BitVec 16) (s : State) : Res := .next (s.parcelPower die.die 0 up.toNat)

/-- Capture frames of a parcel are cleared, and VALID with them where its parcel is named (R242). -/
def State.captureDrop (s : State) (d : Die) (p : Nat) : State :=
  let s := s.setCapture (Tbl.erase s.capture (parcelKey d p))
  if s.get (atDie d) .PRC_CAP_STAT_PARCEL = p then s.put (atDie d) .PRC_CAP_STAT_VALID 0 else s

/-- The power switches of a parcel open (R235 step 3): its block RAM contents are lost (R117). -/
def State.switchOpen (s : State) (d : Die) (p : Nat) : State :=
  let s := if s.parcelSt d p = 2 then s.setPrcBlank (insertNat (parcelKey d p) s.prcBlank) else s
  let s := ((s.setParcelSt d p 3).setPowerStep d p 0).setBit (atDie d) .PRC_PG_STAT_GATED p
  let s := (s.captureDrop d p).setBramDef (removeNat (parcelKey d p) s.bramDef)
  s.raise d Ev.PRC_POWER (2 ^ p)

/-- 2 µs after the parcel is held, its power switches open. -/
def execParcelSwitchOpen (die : FDie) (parcel : Fin 16) (s : State) : Res :=
  .next (if s.powerStep die.die parcel = 3 then s.switchOpen die.die parcel else s)

/-- The supply of a parcel is good, 15 µs after its switches closed (R235 step 5). -/
def execParcelSupplyGood (die : FDie) (parcel : Fin 16) (s : State) : Res :=
  .next (if s.powerStep die.die parcel = 4 then s.setPowerStep die.die parcel 5 else s)

/-- Every block RAM word of a parcel is written to zero with valid check bits (R235 step 5). -/
def State.bramZero (s : State) (d : Die) (p : Nat) : State :=
  let mine (k : Nat) : Bool := k / 1024 / 2112 == d.idx && bramParcel (k / 1024 % 2112) == p
  let s := s.setBram (Tbl.keep (fun k => !mine k) s.bram)
  let s := s.setChk (Tbl.keep (fun k =>
    !(k / 2 ^ 24 == d.idx * 16 && bramParcel (k % 2 ^ 24 / 1024) == p)) s.chk)
  s.setBramDef (insertNat (parcelKey d p) s.bramDef)

/-- A GATED parcel that powers up for itself reaches its heat boundary (R235 step 6, R236, R256): it returns BLANK, or its release
begins. -/
def State.powerHeat (s : State) (d : FDie) (p : Fin 16) : State :=
  let k := parcelKey d.die p
  if s.powerStep d.die p ≠ 6 ∨ s.releases.any (fun r => r.kind == .power d p) = true then s
  else if s.prcBlank.contains k || s.bit (atDie d.die) .SCR_HELD_PARCELS p then
    let s := ((s.setPowerStep d.die p 0).setPrcBlank (removeNat k s.prcBlank)).setParcelSt d.die p 2
    (s.clrBit (atDie d.die) .PRC_PG_STAT_GATED p).raise d.die Ev.PRC_POWER (2 ^ p.val + 2 * 2 ^ 16)
  else s.setReleases (s.releases ++ [⟨.power d p, 1⟩])

/-- The clamp codes of a parcel's frames come into force (R222), and what was held for its clamps is dropped. -/
def State.clampCopy (s : State) (d : Die) (p : Nat) : State :=
  let k := parcelKey d p
  (s.setClamps (Tbl.set s.clamps k (Tbl.get 0 s.clampDef k, Tbl.get [] s.fab.codes k))).setFab
    { s.fab with carried := Tbl.erase s.fab.carried k }

/-- Stage 1 of a parcel's release (R226): clamp codes are copied, the fence opens, the clock gates open, and rails are driven (R92). -/
def State.parcelStage1 (s : State) (d : FDie) (p : Fin 16) : State :=
  (((s.clampCopy d.die p).setFence (.parcel d p) 0).setRelStage (Tbl.set s.relStage (parcelKey d.die p) 1)).railSettle d.die

/-- Stage 2: block RAM writes are enabled and the fabric ports pass requests (R149, R226). -/
def State.parcelStage2 (s : State) (d : FDie) (p : Fin 16) : State :=
  (s.setRelStage (Tbl.set s.relStage (parcelKey d.die p) 2)).portsOpen d.die p

/-- Stage 3: GSR is released; the parcel is RUNNING, and a hold of it has ended (R226, R256). -/
def State.parcelStage3 (s : State) (d : FDie) (p : Fin 16) : State :=
  let s := ((s.setRelStage (Tbl.set s.relStage (parcelKey d.die p) 3)).setParcelSt d.die p 0).railSettle d.die
  s.clrBit (atDie d.die) .SCR_HELD_PARCELS p

/-- A power-up is complete at stage 3 (R235 step 6). -/
def State.powerDone (s : State) (d : FDie) (p : Fin 16) : State :=
  let s := (s.setPowerStep d.die p 0).clrBit (atDie d.die) .PRC_PG_STAT_GATED p
  s.raise d.die Ev.PRC_POWER (2 ^ p.val + 2 ^ 16)

/-- HOLD (R256): the parcel's fence rises at the next stroke boundary; a parcel that is GATED, or on its way there, returns
BLANK. On a die that returns the parcel stands in GSR already: the hold is complete, and step 6 of R33 does not release it; and so it is in
step 3 of a power-down. A hold that meets the release of a power-up ends that release: the parcel, still in GSR, is BLANK, and its fence rises
again (DEDUCED, log entry 226). -/
def State.parcelHold (s : State) (d : Die) (p : Nat) : State :=
  let k := parcelKey d p
  let s := s.setBit (atDie d) .SCR_HELD_PARCELS p
  let ours (r : RelKind) : Bool := match r with
    | .power x q => x.die == d && q.val == p
    | _ => false
  if s.parcelSt d p = 3 ∧ s.releases.any (fun r => ours r.kind) = true then
    let s := ((s.setReleases (s.releases.filter fun r => !ours r.kind)).setPowerStep d p 0).setParcelSt d p 2
    let s := (s.setPrcHold (insertNat k s.prcHold)).clrBit (atDie d) .PRC_PG_STAT_GATED p
    s.raise d Ev.PRC_POWER (2 ^ p + 2 * 2 ^ 16)
  else if s.parcelSt d p = 3 then s.setPrcBlank (insertNat k s.prcBlank)
  else if s.parcelSt d p = 0 ∧ s.powerStep d p = 3 then s.setParcelSt d p 2
  else if s.parcelSt d p = 0 ∧ s.up d = false then (s.setParcelSt d p 2).put (atDie d) (.NOC_FENCE_STAT_P p) 2
  else if s.parcelSt d p = 0 then s.setPrcHold (insertNat k s.prcHold)
  else s

/-- A stroke boundary raises the fences of power-downs and holds that wait for it (R235 step 1, R256). -/
def State.parcelStroke (s : State) (d : FDie) (p : Fin 16) : State :=
  if s.powerStep d.die p = 1 then (s.setPowerStep d.die p 2).parcelFence d p
  else if s.prcHold.contains (parcelKey d.die p) then s.parcelFence d p
  else s

/-! ### Captures -/

/-- A capture request (R241, R242), by PRC_CAP_CTRL's PARCEL and FREEZE. -/
def State.captureRequest (s : State) (d : Die) : State :=
  let p := s.get (atDie d) .PRC_CAP_CTRL_PARCEL
  let st := s.parcelSt d p
  if s.flag (atDie d) .PRC_CAP_STAT_BUSY || s.flag (atDie d) .PRC_CAP_STAT_FROZEN || st == 1 || st == 3 || s.loadTarget d p then
    (s.put (atDie d) .PRC_CAP_STAT_IGNORED 1).raise d Ev.PRC_REQ_IGNORED (1 + 2 ^ p * 2 ^ 8)
  else
    (s.put (atDie d) .PRC_CAP_STAT_BUSY 1).setCapWait
      (Tbl.set s.capWait d.idx ⟨p, s.flag (atDie d) .PRC_CAP_CTRL_FREEZE, false, 0, 0⟩)

/-- PRC_CAP_CTRL is written with REQ = 1. -/
def execCaptureRequest (die : FDie) (parcel : Fin 16) (freeze : Bool) (s : State) : Res :=
  .next ((s.puts (atDie die.die) [(.PRC_CAP_CTRL_PARCEL, parcel), (.PRC_CAP_CTRL_FREEZE, natOf freeze)]).captureRequest die.die)

/-- The flip-flops of a parcel as a capture copies them: those of clusters that a frame has set, and those that an edge has set before. -/
def State.flipFlops (s : State) (d : Die) (p : Nat) : Tbl (BitVec 16) :=
  let mine (k : Nat) : Bool := k / 270336 == d.idx && clusterParcel (k % 270336) == p
  (s.ffs.filter fun e => mine e.1).foldl (fun t e => Tbl.set t e.1 e.2)
    ((s.clusters.filter fun e => mine e.1).map fun e => (e.1, s.ff d (e.1 % 270336)))

/-- A stroke boundary starts the copy of a capture that waits, but for a priority lap (R241, R254). -/
def State.captureStroke (s : State) (d : Die) : State :=
  match s.capWait.find? fun e => e.1 == d.idx with
  | none => s
  | some (_, c) =>
    if c.copied || (s.scrub d).mode == 2 then s
    else
      let k := parcelKey d c.parcel
      let s := s.setCapWait (Tbl.set s.capWait d.idx { c with
        copied := true, stroke := s.get (atDie d) .STK_STROKE_NUM_NUM, heat := s.get (atDie d) .STK_HEAT_NUM_NUM })
      let s := s.setCapture (Tbl.set s.capture k (s.flipFlops d c.parcel))
      if c.freeze then ((s.gatesLow d c.parcel).setFrozen (insertNat k s.frozen)).put (atDie d) .PRC_CAP_STAT_FROZEN 1 else s

/-- The copy ends 1 µs after the boundary (R241). -/
def execCaptureCopyDone (die : FDie) (s : State) : Res :=
  let d := die.die
  .next (match s.capWait.find? fun e => e.1 == d.idx with
  | none => s
  | some (_, c) =>
    if c.copied then
      let s := s.setCapWait (Tbl.erase s.capWait d.idx)
      let s := s.puts (atDie d) [(.PRC_CAP_STAT_VALID, 1), (.PRC_CAP_STAT_BUSY, 0), (.PRC_CAP_STAT_PARCEL, c.parcel),
        (.PRC_CAP_STAT_STROKE, c.stroke), (.PRC_CAP_HEAT_HEAT, c.heat)]
      s.raise d Ev.PRC_CAPTURE (c.parcel + c.stroke * 2 ^ 8 + c.heat * 2 ^ 24)
    else s)

/-- RESUME opens the clock gates of a frozen parcel. -/
def State.captureResume (s : State) (d : Die) : State :=
  if s.flag (atDie d) .PRC_CAP_STAT_FROZEN then
    let held := s.frozen.filter fun k => k / 16 == d.idx
    let s := (s.setFrozen (s.frozen.filter fun k => k / 16 != d.idx)).put (atDie d) .PRC_CAP_STAT_FROZEN 0
    held.foldl (fun s k => s.portsOpen d (k % 16)) s
  else s

/-- PRC_CAP_CTRL is written with RESUME = 1. -/
def execCaptureResume (die : FDie) (s : State) : Res := .next (s.captureResume die.die)

end Sys2Proof.Machine
end

