-- ==== Sys2Proof/Machine/Scrub.lean ====
section
/-! DEFINITION. The configuration scrubbers and repairs (chapter 09; rows 93 to 99 and 368). -/

namespace Sys2Proof.Machine

/-- SCR_STATUS.STATE of a scrubber. -/
def Scrub.code (c : Scrub) : Nat := if c.repair.isSome then 4 else if c.mode = 0 then 0 else if c.paused then 3 else c.mode

/-- Put the scrubber of a die, and what SCR_STATUS shows of it. -/
def State.setScrub (s : State) (d : Die) (c : Scrub) : State :=
  (s.setScrubs (Tbl.set s.scrubs d.idx c)).puts (atDie d)
    [(.SCR_STATUS_STATE, c.code), (.SCR_STATUS_PRIO_PENDING, natOf c.waiting.isSome)]

/-! ### The triplicated settings (R261, R262) -/

/-- The triplicated registers. -/
def tripled (k : Nat) : Reg := if k = 0 then .SCR_CTRL else if k = 1 then .SCR_ACTION else .SCR_LAP_LIMIT

/-- What the three copies of a setting differ in from the register. -/
def State.copies (s : State) (d : Die) (k : Nat) : List Word := Tbl.get [0, 0, 0] s.scrCopy (d.idx * 3 + k)

/-- The bitwise majority of three words. -/
def majority : List Word → Word
  | [a, b, c] => (a &&& b) ||| (a &&& c) ||| (b &&& c)
  | _ => 0

/-- The majority of the copies of a setting: what the scrubber acts on and what a read returns. -/
def State.setting (s : State) (d : Die) (k : Nat) : Word := s.reg (atDie d) (tripled k) ^^^ majority (s.copies d k)

/-- A firmware write sets all three copies. -/
def State.writeSetting (s : State) (d : Die) (k : Nat) (v : Word) : State :=
  (s.setScrCopy (Tbl.erase s.scrCopy (d.idx * 3 + k))).writeReg (atDie d) (tripled k) v

/-- The vote of one setting at a stroke boundary: a copy that differs is counted and reported (R262). -/
def State.voteOne (s : State) (d : Die) (k : Nat) : State :=
  let l := s.copies d k
  let t := (s.setReg (atDie d) (tripled k) (s.setting d k)).setScrCopy (Tbl.erase s.scrCopy (d.idx * 3 + k))
  if l.any fun c => c != majority l then
    let t := (t.bump (atDie d) .SCR_VOTE_COUNT 1).setBit (atDie d) .SCR_VOTE_REG k
    t.raise d Ev.SCR_VOTE_MISMATCH (t.get (atDie d) .SCR_VOTE_REG)
  else t

/-- The vote of a die at a stroke boundary (R261). -/
def State.vote (s : State) (d : Die) : State :=
  if s.scrCopy.all fun e => e.1 / 3 != d.idx then s else ((s.voteOne d 0).voteOne d 1).voteOne d 2

/-! ### When a scrubber runs (R252 to R254) -/

/-- Whether a full load runs: one from the flash from its start, one that is streamed from the end of its header, up to its release, at
which normal laps start (R204, R252). -/
def State.fullOn (s : State) : Bool :=
  match s.cfg.phase with
  | .idle | .waiting | .refusal | .release => false
  | .header => !s.cfg.streamOpen
  | _ => !s.cfg.partialLoad

/-- The conditions of R252 for normal laps. -/
def State.scrubMay (s : State) (d : Die) : Bool :=
  (s.setting d 0).getLsbD 0 && s.get (atDie d) .CFG_DIE_STAT_STAGE == 3 && s.up d && !s.fullOn

/-- A scrubber stops, or goes on from the frame it stands at, as the conditions of R252 now hold; the priority lap of a DIE return
runs whatever EN holds. -/
def State.scrubSync (s : State) (d : Die) : State :=
  let c := s.scrub d
  if c.mode == 2 && c.cause == 0 then s
  else if s.scrubMay d then (if c.mode = 0 then s.setScrub d { c with mode := 1 } else s)
  else if c.mode = 0 && c.waiting.isNone then s
  else s.setScrub d { c with mode := 0, waiting := none }

/-- A lap starts at frame 0. -/
def State.lapStart (s : State) (d : Die) (mode cause : Nat) : State :=
  (s.setScrub d { s.scrub d with mode := mode, cause := cause }).put (atDie d) .SCR_STATUS_FRAME 0

/-- Normal laps start at frame 0, as soon as the conditions hold. -/
def State.scrubFresh (s : State) (d : Die) : State := (s.lapStart d 0 0).scrubSync d

/-- A priority lap is asked for (R253, R254): cause 1 a supply dip, 2 a command. -/
def State.priorityRequest (s : State) (d : Die) (cause : Nat) : State :=
  let c := s.scrub d
  if c.mode = 2 then
    (s.lapStart d 2 (if c.cause = 0 then 0 else cause)).bump (atDie d) .SCR_LAP_COUNT_PRIO_RESTART 1
  else if s.scrubMay d = false then s
  else if c.paused then s.setScrub d { c with waiting := some cause }
  else s.lapStart d 2 cause

/-- The priority lap of step 5 of R33. -/
def State.returnLap (s : State) (d : Die) : State :=
  (s.setScrub d { s.scrub d with paused := false }).lapStart d 2 0

/-- A load or a blanking holds the die: the scrubber pauses after the frame in hand (R234). -/
def State.scrubPause (s : State) (d : Die) : State := s.setScrub d { s.scrub d with paused := true }

/-- The load or blanking ends: the scrubber resumes, with a priority lap that waited for it (R252, R254). -/
def State.scrubResume (s : State) (d : Die) : State :=
  let c := s.scrub d
  let s := s.setScrub d { c with paused := false, waiting := none }
  match c.waiting with
  | none => s.scrubSync d
  | some cause => (s.scrubSync d).priorityRequest d cause

/-- A repair of a die is abandoned without a record (R260). -/
def State.repairDrop (s : State) (d : Die) : State :=
  if (s.scrub d).repair.isSome then s.setScrub d { s.scrub d with repair := none } else s

/-- A full load starts: the scrubber stops, and an open repair is abandoned (R252, R260). -/
def State.scrubStop (s : State) (d : Die) : State := s.setScrub d { Scrub.off with paused := false }

/-- The scrubbers meet a full load that starts, or that ends with the personality still running (R252, R260): there they go on from the frame
they stood at, and a lap that was a priority lap goes on as a normal one (DESIGN CHOICE, log entry 230). -/
def State.scrubsMeet (s : State) : State :=
  Die.all.foldl (fun s d => (if s.fullOn then s.repairDrop d else s).scrubSync d) s

/-- Where the packet of a frame lies in the flash: the partition that the full image in force came from, its header and entry table, and the
packets of the frames before it (R202, R258). -/
def State.packetAt (s : State) (d : Die) (f : Nat) : Nat :=
  let h := s.cfg.inForce
  let before := (List.range d.idx).foldl (fun n i => n + fieldLE h (0x18 + 4 * i) 4) 0
  (if s.get (atDie .e0) .CFG_SRC_FULL_SRC = 2 then 0x0C000000 else 0) + 0x100 + 16 * ((fieldLE h 0x3C 2 + 1) / 2) + 528 * (before + f)

/-- A write of SCR_CTRL: EN = 1 starts a new lap at frame 0, EN = 0 stops after the frame in hand. -/
def State.scrubEnable (s : State) (d : Die) (v : Word) : State :=
  let s := s.writeSetting d 0 v
  if v.getLsbD 0 && (s.scrub d).mode != 2 then s.scrubFresh d else s.scrubSync d

/-- SCR_CTRL.EN is written. -/
def execScrubberEnable (die : Die) (en : Bool) (s : State) : Res := .next (s.scrubEnable die (BitVec.ofNat 32 (natOf en)))

/-- SCR_CMD.PRIO_LAP is written. -/
def execPrioLap (die : Die) (s : State) : Res := .next (s.priorityRequest die 2)

/-! ### Frames -/

/-- The frame that a lap checks after one; none at the end of the die (R248). -/
def nextFrame (d : Die) (f : Nat) : Option Nat :=
  if d.isFab then
    let n := if f % 3328 < 2271 then f + 1 else (f / 3328 + 1) * 3328
    if n < 53248 then some n else none
  else if f < 6143 then some (f + 1)
  else none

/-- The action set for a frame's parcel (R255). -/
def State.actionSet (s : State) (d : Die) (f : Nat) : Nat :=
  if d.isFab then bitsOf (s.setting d 1).toNat (2 * frameParcel d f) 2 else 0

/-- Whether the frame of a parcel can be repaired now (R257, R259). -/
def State.canRepair (s : State) (d : Die) (f : Nat) : Bool :=
  d.isFab && stepping d == 4 && s.bit (atDie d) .SCR_SRC_PARCELS (frameParcel d f) && s.flag (atDie .e0) .CFG_FLASH_OCTAL &&
    (s.scrub d).repair.isNone

/-- The action that the scrubber begins for an uncorrectable frame (R255); one in a held parcel takes REPORT (R256). -/
def State.actionTaken (s : State) (d : Die) (f : Nat) : Nat :=
  if d.isFab && s.bit (atDie d) .SCR_HELD_PARCELS (frameParcel d f) then 0
  else match s.actionSet d f with
  | 0 => 0
  | 1 => 1
  | 2 => if s.canRepair d f then 2 else 1
  | _ => if s.canRepair d f then 3 else 0

/-- Begin an action on an uncorrectable frame. -/
def State.takeAction (s : State) (d : Die) (f act : Nat) : State :=
  match act with
  | 0 => s
  | 1 => s.parcelHold d (frameParcel d f)
  | _ => s.setScrub d { s.scrub d with repair := some ⟨f, act, 2, blankFrame d f⟩ }

/-- An uncorrectable frame is counted, logged and acted on (R255). -/
def State.uncorrectable (s : State) (d : Die) (f : Nat) : State :=
  let act := s.actionTaken d f
  let s := s.bump (atDie d) .SCR_CNT_UNCORR 1
  let s :=
    if s.flag (atDie d) .SCR_ERR_ADDR_VALID then s
    else s.puts (atDie d) [(.SCR_ERR_ADDR_VALID, 1), (.SCR_ERR_ADDR_ACTION, act), (.SCR_ERR_ADDR_ADDR, frameAddr d f % 2 ^ 23)]
  (s.raise d Ev.SCR_UNCORR (frameAddr d f + act * 2 ^ 32)).takeAction d f act

/-- Check a frame (R246, R247). -/
def State.checkFrame (s : State) (d : Die) (f : Nat) : State :=
  let fr := s.frame d f
  if clean d f fr then s
  else match corrected d f fr with
  | some (k, good) =>
    ((s.writeFrame d f (some fr.data) good).bump (atDie d) .SCR_CNT_CORRECTED 1).raise d Ev.SCR_CORRECTED (frameAddr d f + k * 2 ^ 32)
  | none => s.uncorrectable d f

/-- The end of a lap of so many µs (R251, R254). The lap of a DIE return lets the die go on to step 6 of R33. -/
def State.lapEnd (s : State) (d : Die) (time : Nat) : State :=
  let a := atDie d
  let c := s.scrub d
  let prio := c.mode == 2
  let t := Nat.min time (2 ^ 24 - 1)
  let s := s.puts a [(.SCR_LAP_LAST_TIME, t), (.SCR_LAP_MAX_TIME, Nat.max (s.get a .SCR_LAP_MAX_TIME) t),
    (.SCR_LAP_COUNT_LAPS, s.get a .SCR_LAP_COUNT_LAPS + 1), (.SCR_LAP_COUNT_LAST_PRIO, natOf prio)]
  let limit := bitsOf (s.setting d 2).toNat 0 24
  let s := if limit ≠ 0 ∧ limit < time then s.raise d Ev.SCR_LAP_SLOW (time % 2 ^ 32) else s
  let s := if prio then s.raise d Ev.SCR_PRIO_DONE (time % 2 ^ 32 + c.cause * 2 ^ 32) else s
  let s := if prio && c.cause == 0 && Tbl.get 0 s.dieStep d.idx == 3 then s.setDieStep (Tbl.set s.dieStep d.idx 4) else s
  if prio then s.scrubFresh d else s.put a .SCR_STATUS_FRAME 0

/-- The scrubber checks the frame it stands at, and goes on to the next; `lap` is the time of the lap in µs, used where the lap
ends. -/
def execScrubFrameCheck (die : Die) (lap : BitVec 32) (s : State) : Res :=
  let c := s.scrub die
  let f := s.get (atDie die) .SCR_STATUS_FRAME
  .next (if c.mode = 0 || c.paused then s
  else
    let s := s.checkFrame die f
    match nextFrame die f with
    | some n => s.put (atDie die) .SCR_STATUS_FRAME n
    | none => s.lapEnd die lap.toNat)

/-! ### Repairs (R258 to R260) -/

/-- A repair fails at a step: it is counted and reported, and the fallback of its action applies (R259). -/
def State.repairFail (s : State) (d : Die) (r : Repair) (step : Nat) : State :=
  let s := s.setScrub d { s.scrub d with repair := none }
  let s := s.bump (atDie d) .SCR_REPAIR_CNT_FAILED 1
  let s := s.raise d Ev.SCR_REPAIR_FAILED (frameAddr d r.frame + step * 2 ^ 32)
  let s :=
    if step = 3 then Die.all.foldl (fun t e => if e.isFab then t.put (atDie e) .SCR_SRC_PARCELS 0 else t) s else s
  if r.act = 2 ∧ s.bit (atDie d) .SCR_HELD_PARCELS (frameParcel d r.frame) = false then s.parcelHold d (frameParcel d r.frame)
  else s

/-- The identity of an image: IMAGE_ID and DIGEST of its header bytes (R193). -/
def imageIdentity (h : List Nat) : Nat × List Nat := (fieldLE h 0x44 4, (h.drop 0xD8).take 32)

/-- With no program or erase of the flash in progress, the master reads the header of the partition, compares it with the image in force,
and reads the packet (R258). -/
def execRepairHeaderRead (die : FDie) (header : BitVec 2048) (s : State) : Res :=
  let d := die.die
  .next (match (s.scrub d).repair with
  | none => s
  | some r =>
    if r.step ≠ 2 ∨ s.flag (atDie .e0) .MGT_STAT_CAL_BUSY = true then s
    else if imageIdentity (bytesLE header.toNat 256) = imageIdentity s.cfg.inForce then
      (s.setScrub d { s.scrub d with repair := some { r with step := 4 } }).emit (.flashRead (s.packetAt d r.frame) 528)
    else s.repairFail d r 3)

/-- The frame of a packet. -/
def packetFrame (p : Packet) : Frame := ⟨p.data, p.synd.toNat, p.crc.toNat⟩

/-- The bytes of a packet that its CRC covers. -/
def packetCovered (p : Packet) : List Nat :=
  bytesLE p.addr.toNat 4 ++ bytesLE p.data.toNat 512 ++ bytesLE p.synd.toNat 2 ++ bytesLE p.pad.toNat 6

/-- A packet's CRC matches. -/
def packetCrcOk (p : Packet) : Bool := crc32c (packetCovered p) == p.crc.toNat

/-- A packet's SYND matches. -/
def packetSyndOk (p : Packet) : Bool := syndOf p.data == p.synd.toNat

/-- The packet of the frame has been read from the flash. -/
def execRepairPacketRead (die : FDie) (packet : Packet) (s : State) : Res :=
  let d := die.die
  .next (match (s.scrub d).repair with
  | none => s
  | some r =>
    if r.step ≠ 4 then s
    else if packet.addr.toNat = frameAddr d r.frame ∧ packetCrcOk packet = true ∧ packetSyndOk packet = true then
      s.setScrub d { s.scrub d with repair := some { r with step := 5, packet := packetFrame packet } }
    else s.repairFail d r 4)

/-- The frame is written and checked again. -/
def execRepairFrameWritten (die : FDie) (s : State) : Res :=
  let d := die.die
  .next (match (s.scrub d).repair with
  | none => s
  | some r =>
    if r.step ≠ 5 then s
    else
      let s := s.writeFrame d r.frame (some (s.frame d r.frame).data) r.packet
      if clean d r.frame (s.frame d r.frame) then
        let s := s.setScrub d { s.scrub d with repair := none }
        (s.bump (atDie d) .SCR_REPAIR_CNT_REPAIRED 1).raise d Ev.SCR_REPAIRED (frameAddr d r.frame)
      else s.repairFail d r 6)

/-- The fetch of a repair is not complete 1 s after its start. -/
def execRepairTimeout (die : FDie) (s : State) : Res :=
  .next (match (s.scrub die.die).repair with
  | none => s
  | some r => if r.step = 5 then s else s.repairFail die.die r 7)

/-- A configuration upset (R246, R261). A content frame's data stands in the block RAM; an upset of a setting's copies may change
what the scrubber does at once. -/
def execConfigurationUpset (place : UpsetAt) (s : State) : Res :=
  .next (match place with
  | .frame d frame bit =>
    let f := frame.toNat
    let fr := s.frame d f
    let put (g : Frame) : State := s.setFrames (Tbl.set s.frames (frameKey d f) g)
    if dieFrames d ≤ f then s
    else if bit.val < 4096 then
      if isContent d f then
        let (n, w) := contentPlace f
        s.bitError d 0 (n * 1024 + w + bit.val / 32) (bit.val % 32)
      else
        let data := fr.data ^^^ BitVec.ofNat 4096 (2 ^ bit.val)
        (put { fr with data := data }).applyFrame d f (some fr.data) data
    else if bit.val < 4112 then put { fr with synd := fr.synd ^^^ 2 ^ (bit.val - 4096) }
    else put { fr with crc := fr.crc ^^^ 2 ^ (bit.val - 4112) }
  | .setting d k copy bit =>
    let l := s.copies d k
    let flip (i : Nat) (w : Word) : Word := if i = copy.val then w ^^^ BitVec.ofNat 32 (2 ^ bit.val) else w
    (s.setScrCopy (Tbl.set s.scrCopy (d.idx * 3 + k.val) (l.mapIdx flip))).scrubSync d)

end Sys2Proof.Machine
end

