-- ==== Sys2Proof/Machine/Weld.lean ====
section
/-! DEFINITION. Weld channels and seam groups (chapter 06; rows 37 to 52). -/

namespace Sys2Proof.Machine

/-- The dies of a channel, the lower index first (R22). -/
def chanDies (ch : Nat) : Die × Die := edgeDies (ch / 8)

/-- Whether a channel touches a die; channels 88 and up name none. -/
def chanOn (d : Die) (ch : Nat) : Bool := edgeOn d (ch / 8)

/-- The other die of a channel. -/
def chanPeer (d : Die) (ch : Nat) : Die := if (chanDies ch).1 = d then (chanDies ch).2 else (chanDies ch).1

/-- Put an end, and what WLD_CH_STAT and WLD_CH_REPAIR show of its maps. -/
def State.setWeld (s : State) (d : Die) (ch : Nat) (w : WeldEnd) : State :=
  let s := (s.setWelds (Tbl.set s.welds (weldKey d ch) w)).puts (atSel d ch)
    [(.WLD_CH_STAT_RECORDS, w.records.length), (.WLD_CH_STAT_SPARES, w.map.length)]
  (List.range 4).foldl (fun t e =>
    t.put (atSel d ch) (.WLD_CH_REPAIR_ENTRY e) (match w.map[e]? with
      | some n => 128 + n
      | none => 0)) s

/-- The state of an end: 0 OFF, 1 TRAINING, 2 UP, 3 RETRAIN, 4 DOWN, 5 FAILED (R173). -/
def State.chanSt (s : State) (d : Die) (ch : Nat) : Nat := s.get (atSel d ch) .WLD_CH_STAT_STATE

/-- Put the state of one end. -/
def State.setChanSt (s : State) (d : Die) (ch n : Nat) : State := s.put (atSel d ch) .WLD_CH_STAT_STATE n

/-- Put the state of both ends. -/
def State.setChan (s : State) (ch n : Nat) : State :=
  (s.setChanSt (chanDies ch).1 ch n).setChanSt (chanDies ch).2 ch n

/-- The highest protocol version of a die (R172). -/
def weldVersion (d : Die) : Nat := if stepping d = 4 then 2 else 1

/-! ### Groups (R166) -/

/-- CRC of R166 over bits 255 to 16 of a group, bit 255 first: the first argument counts the bits. -/
def weldCrc : Nat → BitVec 256 → BitVec 16 → BitVec 16
  | 0, _, c => c
  | n + 1, g, c =>
    let top := c.getLsbD 15 != g.getLsbD (n + 16)
    weldCrc n g (if top then (c <<< 1) ^^^ 0x8BB7#16 else c <<< 1)

/-- A group with its CRC put in. -/
def weldSeal (g : BitVec 256) : BitVec 256 :=
  let body := (g >>> 16) <<< 16
  body ||| (weldCrc 240 body 0xFFFF#16).setWidth 256

/-- Whether the CRC of a group matches. -/
def weldCrcOk (g : BitVec 256) : Bool := g.setWidth 16 == weldCrc 240 g 0xFFFF#16

/-- A field of a group. -/
def groupBits (g : BitVec 256) (lo w : Nat) : Nat := bitsOf g.toNat lo w

/-- The groups of a flit. -/
def flitGroups (pool : Nat) : Nat := if pool / 4 = 3 then 5 else 1

/-- The bits of a flit of a network (R125, R134). -/
def flitBits (net : Nat) : Nat := if net = 3 then 1024 else if net = 0 then 160 else 96

/-- Group `k` of a flit; the payload bits that its network does not use are 0 (R166). -/
def dataGroup (seq pool k : Nat) (flit : BitVec 1024) : BitVec 256 :=
  weldSeal (BitVec.ofNat 256 (seq % 256 * 2 ^ 16 + pool / 4 * 2 ^ 24 + pool % 4 * 2 ^ 26 + natOf (k == 0) * 2 ^ 28 +
    natOf (k + 1 == flitGroups pool) * 2 ^ 29 + bitsOf (flit.toNat % 2 ^ flitBits (pool / 4)) (224 * k) 224 * 2 ^ 32))

/-- An idle group (R166). -/
def idleGroup : BitVec 256 := weldSeal (BitVec.ofNat 256 (2 * 2 ^ 30))

/-- A replay request for a SEQ (R169). -/
def replayRequest (seq : Nat) : BitVec 256 := weldSeal (BitVec.ofNat 256 (seq % 256 * 2 ^ 16 + 3 * 2 ^ 30))

/-- The control group that an end sends: what it has accepted and freed, whether it awaits a replay, and in training its version and
stepping (R166, R169, R170, R172, R174). -/
def controlGroup (d : Die) (w : WeldEnd) (training : Bool) : BitVec 256 :=
  weldSeal (BitVec.ofNat 256 (w.ack % 256 * 2 ^ 16 + natOf w.nak * 2 ^ 24 + 2 ^ 30 +
    ((List.range 16).foldr (fun p n => w.freed.getD p 0 % 256 + 256 * n) 0) * 2 ^ 32 +
    (if training then weldVersion d % 16 * 2 ^ 160 + stepping d % 16 * 2 ^ 164 else 0)))

/-- The wires that carry data bits 0 to 63 under a repair map: the first 64 that it does not name (R164). -/
def dataWires (map : List Nat) : List Nat := ((List.range 68).filter fun n => !map.contains n).take 64

/-- What the 68 wires carry in the four unit intervals of a group: in interval u, data bits 64u to 64u + 63 of the group, each on its wire,
and 0 on wires that carry no data (R163, R164; DEDUCED, log entry 197). -/
def groupBeats (map : List Nat) (g : BitVec 256) : List (BitVec 68) :=
  (List.range 4).map fun u =>
    ((List.range 64).zip (dataWires map)).foldl (fun (m : BitVec 68) e => if g.getLsbD (64 * u + e.1) then m ||| (1 <<< e.2) else m) 0

/-- A group goes out on a channel, over the wires that the repair map of its receiver leaves. -/
def State.weldGroup (s : State) (d : Die) (ch : Nat) (g : BitVec 256) : State :=
  let s := (s.emit (.weld d.idx ch g (groupBeats (s.weld (chanPeer d ch) ch).map g))).pmcItems d 0x220 ch 1
  if groupBits g 30 2 = 0 then s.bwCount d 3 ch 32 1 else s

/-- A control slot (R163): the slots count from it. -/
def State.weldControl (s : State) (d : Die) (ch : Nat) : State :=
  let w := s.weld d ch
  (s.setWeld d ch { w with slot := 0 }).weldGroup d ch (controlGroup d w (s.chanSt d ch == 1))

/-- Send groups in data slots; every 16th slot carries a control group (R163, R166). -/
def State.weldSend (s : State) (d : Die) (ch : Nat) (l : List (BitVec 256)) : State :=
  l.foldl (fun s g =>
    let s := s.weldGroup d ch g
    let w := s.weld d ch
    if 14 ≤ w.slot then s.weldControl d ch else s.setWeld d ch { w with slot := w.slot + 1 }) s

/-! ### The sender -/

/-- A new round of the shares of H, N and B: slots that a class took beyond its share come off (R171; DESIGN CHOICE, log entry 198). -/
def newRound (shares : List Int) : List Int := (shares.zip [8, 4, 1]).map fun e => min e.2 (e.1 + e.2)

/-- The pool that starts the next flit (R171): class X first, then H, N and B by their shares of the slots, a network with its turn first
among those that wait with credit for all their groups. The first argument bounds the rounds: no class owes more than 4. -/
def WeldEnd.pick : Nat → WeldEnd → Option (Nat × List Int)
  | 0, _ => none
  | n + 1, w =>
    let ready (p : Nat) : Bool := (w.queue.any fun f => flitPool f == p) && decide (flitGroups p ≤ w.credits.getD p 0)
    let ofClass (c : Nat) : Option Nat :=
      (List.range 4).findSome? fun i =>
        let p := 4 * ((w.turns.getD c 0 + i) % 4) + c
        if ready p then some p else none
    match ofClass 0 with
    | some p => some (p, w.shares)
    | none =>
      if [1, 2, 3].all fun c => (ofClass c).isNone then none
      else match [1, 2, 3].findSome? fun c =>
          if w.shares.getD (c - 1) 0 ≤ 0 then none
          else (ofClass c).map fun p => (p, w.shares.set (c - 1) (w.shares.getD (c - 1) 0 - flitGroups p)) with
        | some r => some r
        | none => WeldEnd.pick n { w with shares := newRound w.shares }

/-- The oldest flit of a pool leaves the queue. -/
def takePool (p : Nat) : List Flit → List Flit
  | [] => []
  | f :: t => if flitPool f = p then t else f :: takePool p t

/-- The end with a flit in transmission: the one in hand, or the next that may start. A flit starts only where fewer than 64 groups stay
unacknowledged until its last group is out, so that its groups go in consecutive data slots (R166, R168, R171; DESIGN CHOICE, log entry
198). -/
def WeldEnd.start (w : WeldEnd) : WeldEnd :=
  match w.cur with
  | some _ => w
  | none => match w.pick 8 with
    | none => w
    | some (p, sh) =>
      if 64 < w.replay.length + flitGroups p then w
      else { w with
        cur := (w.queue.find? fun f => flitPool f == p).map fun f => (p, 0, f.bits)
        queue := takePool p w.queue
        credits := w.credits.set p (w.credits.getD p 0 - flitGroups p)
        shares := sh
        turns := w.turns.set (p % 4) ((p / 4 + 1) % 4) }

/-- What the sender puts into data slots (R168, R171): the groups of the flit in transmission, in consecutive slots; an idle group where
there is nothing to send. -/
def State.weldSlot (s : State) (d : Die) (ch : Nat) : State :=
  let w := s.weld d ch
  let w := w.start
  match w.cur with
  | none => s.weldSend d ch [idleGroup]
  | some (p, k, bits) =>
    let n := Nat.min (flitGroups p - k) (64 - w.replay.length)
    let gs := (List.range n).map fun i => dataGroup (w.txSeq + i) p (k + i) bits
    let w := { w with
      cur := if flitGroups p ≤ k + n then none else some (p, k + n, bits)
      txSeq := (w.txSeq + n) % 256
      replay := w.replay ++ gs.map fun g => (g, 0) }
    (s.setWeld d ch w).weldSend d ch (if gs = [] then [idleGroup] else gs)

/-- Data slots of an end (R163, R168, R171): in UP it starts the next flit, or goes on with the one in transmission, or sends an idle
group. While it exchanges versions in a training it sends control groups alone (R174). -/
def execWeldFlitStart (die : Die) (ch : Fin 88) (s : State) : Res :=
  .next (if !chanOn die ch then s
  else if s.chanSt die ch = 2 then s.weldSlot die ch
  else if s.chanSt die ch = 1 ∧ (s.weld die ch).step = 5 then s.weldControl die ch
  else s)

/-- Whether a group is a flit's data group with a SEQ. -/
def hasSeq (seq : Nat) (e : BitVec 256 × Nat) : Bool := groupBits e.1 16 8 == seq

/-- Forget the groups that an acknowledgement covers (R168). -/
def ackGroups (seq : Nat) (l : List (BitVec 256 × Nat)) : List (BitVec 256 × Nat) :=
  match l.findIdx? (hasSeq seq) with
  | some i => l.drop (i + 1)
  | none => l

/-- Resend the unacknowledged groups from a SEQ on, in order (R168, R169): it counts as one replay. -/
def State.weldReplay (s : State) (d : Die) (ch seq : Nat) : State :=
  let w := s.weld d ch
  let i := (w.replay.findIdx? (hasSeq seq)).getD 0
  let again := w.replay.drop i
  let s := s.setWeld d ch { w with replay := w.replay.take i ++ again.map fun e => (e.1, e.2 + 1) }
  ((s.bump (atSel d ch) .WLD_CH_ERR_REPLAYS 1).pmcItems d 0x221 ch 1).weldSend d ch (again.map Prod.fst)

/-! ### The receiver -/

/-- A group is discarded for its CRC (R167, R191): windows of WLD_ERR_CFG.WINDOW ms follow one another. -/
def State.weldCrcError (s : State) (d : Die) (ch : Nat) : State :=
  let w := s.weld d ch
  let win := s.cycles / (500000 * Nat.max 1 (s.get (atDie d) .WLD_ERR_CFG_WINDOW))
  let errs := if win = w.win then w.winErrs + 1 else 1
  let th := s.get (atDie d) .WLD_ERR_CFG_THRESH
  let hit := win = w.win ∧ w.winHit = true
  let rise := decide (th ≠ 0 ∧ th ≤ errs ∧ ¬hit)
  let s := s.setWeld d ch { w with win := win, winErrs := errs, winHit := decide hit || rise }
  let s := s.bump (atSel d ch) .WLD_CH_ERR_CRC_ERR 1
  if rise then s.raise d Ev.WLD_CRC_THRESH (ch + errs % 2 ^ 16 * 2 ^ 8) else s

/-- The receiver awaits a replay: under v2 it also sends one replay request (R169). -/
def State.weldAwait (s : State) (d : Die) (ch : Nat) : State :=
  let w := s.weld d ch
  if w.nak then s
  else
    let s := s.setWeld d ch { w with nak := true }
    if s.get (atSel d ch) .WLD_CH_VER_VER = 2 then s.weldSend d ch [replayRequest (w.ack + 1)] else s

/-- The oldest flit of a receive buffer, once all its groups are in. A DAT flit that carries a response has 0 above its 96-bit header
(DEDUCED, log entry 219). -/
def WeldEnd.whole (w : WeldEnd) (p : Nat) : Option Flit :=
  let l := Tbl.get [] w.rx p
  if l.length < flitGroups p then none
  else
    let bits := BitVec.ofNat 1024 ((l.take (flitGroups p)).foldr (fun x n => x.toNat + 2 ^ 224 * n) 0)
    some ⟨BitVec.ofNat 2 (p / 4), p / 4 != 1 && p / 4 != 2 && (p / 4 != 3 || bitsOf bits.toNat 736 64 != 0), bits⟩

/-- The oldest flit of a receive buffer goes to its router, where there is room for it, and its groups are free (R24, R170). -/
def State.weldOut (s : State) (d : Die) (ch p : Nat) : State :=
  let w := s.weld d ch
  let (r, inPort) := weldRouter d ch
  match w.whole p with
  | none => s
  | some f =>
    if s.inputRoom r (p / 4) f.cls.toNat inPort then
      let n := flitGroups p
      let left := (Tbl.get [] w.rx p).drop n
      let w := { w with
        rx := if left = [] then Tbl.erase w.rx p else Tbl.set w.rx p left
        freed := w.freed.set p ((w.freed.getD p 0 + n) % 256) }
      (s.setWeld d ch w).flitIn r inPort f
    else s

/-- What the receive buffers of an end can give to its router goes there: a router input takes at most 4 flits of a pool. -/
def State.weldDrain (s : State) (d : Die) (ch : Nat) : State :=
  ((s.weld d ch).rx.flatMap fun e => List.replicate 4 e.1).foldl (fun s p => s.weldOut d ch p) s

/-- A data group arrives (R167, R170): accepted into its receive buffer where its CRC matches and its SEQ is the next. Nothing is lost with
a group of another type whose CRC does not match. -/
def execWeldDataGroup (die : Die) (ch : Fin 88) (group : BitVec 256) (s : State) : Res :=
  let w := s.weld die ch
  let seq := groupBits group 16 8
  .next (if !chanOn die ch || s.chanSt die ch != 2 then s
  else if !weldCrcOk group then
    let s := s.weldCrcError die ch
    if groupBits group 30 2 = 0 then s.weldAwait die ch else s
  else if groupBits group 30 2 ≠ 0 then s
  else if seq = (w.ack + 1) % 256 then
    let p := groupBits group 24 2 * 4 + groupBits group 26 2
    ((s.bwCount die 2 ch 32 1).setWeld die ch { w with
      ack := seq, nak := false, rx := Tbl.set w.rx p (Tbl.get [] w.rx p ++ [BitVec.ofNat 224 (groupBits group 32 224)]) }).weldDrain die ch
  else if (seq + 256 - (w.ack + 1) % 256) % 256 < 128 then s.weldAwait die ch
  else s)

/-- A control group arrives (R166 to R170, R172). Under v2 the end that has acted on a replay request skips the next NAK that asks for the
same SEQ, or the next replay request after such a NAK, once; a control group without NAK ends the skip, and what asks after that is a new
request (DESIGN CHOICE, log entry 239). -/
def execWeldControlGroup (die : Die) (ch : Fin 88) (group : BitVec 256) (s : State) : Res :=
  let w := s.weld die ch
  let a := atSel die ch
  .next (if !chanOn die ch then s
  else if s.chanSt die ch = 1 ∧ w.step = 5 then
    if !weldCrcOk group then s.weldCrcError die ch
    else if groupBits group 30 2 ≠ 1 then s
    else
      (s.setWeld die ch { w with heard := true }).puts a
        [(.WLD_CH_VER_VER, Nat.min (weldVersion die) (groupBits group 160 4)), (.WLD_CH_VER_PEER_STEP, groupBits group 164 4)]
  else if s.chanSt die ch ≠ 2 then s
  else if !weldCrcOk group then s.weldCrcError die ch
  else if groupBits group 30 2 ≠ 1 then s
  else
    let ack := groupBits group 16 8
    let counts := (List.range 16).map fun p => groupBits group (32 + 8 * p) 8
    let w := { w with
      replay := ackGroups ack w.replay
      credits := (List.range 16).map fun p => w.credits.getD p 0 + (counts.getD p 0 + 256 - w.seen.getD p 0) % 256
      seen := counts }
    let next := (ack + 1) % 256
    if groupBits group 24 1 = 1 then
      if w.acted = some next then s.setWeld die ch { w with acted := none }
      else (s.setWeld die ch { w with acted := if s.get a .WLD_CH_VER_VER = 2 then some next else none }).weldReplay die ch next
    else s.setWeld die ch { w with acted := none })

/-- A replay request of v2 arrives (R169): the groups before the SEQ it names stay until a control group acknowledges them (R168). -/
def execWeldReplayRequest (die : Die) (ch : Fin 88) (group : BitVec 256) (s : State) : Res :=
  let w := s.weld die ch
  let next := groupBits group 16 8
  .next (if !chanOn die ch || s.chanSt die ch != 2 then s
  else if !weldCrcOk group then s.weldCrcError die ch
  else if groupBits group 30 2 ≠ 3 ∨ s.get (atSel die ch) .WLD_CH_VER_VER ≠ 2 then s
  else if w.acted = some next then s.setWeld die ch { w with acted := none }
  else (s.setWeld die ch { w with acted := some next }).weldReplay die ch next)

/-! ### Retrain, training and failure -/

/-- Both ends enter RETRAIN (R175, R179): each counts it and reports it, with the cause. -/
def State.weldRetrain (s : State) (ch cause : Nat) : State :=
  let one (s : State) (d : Die) : State :=
    (s.bump (atSel d ch) .WLD_CH_ERR_RETRAINS 1).raise d Ev.WLD_RETRAIN (ch + cause * 2 ^ 8)
  one (one (s.setChan ch 3) (chanDies ch).1) (chanDies ch).2

/-- A data group has been replayed 8 times without being accepted. -/
def execWeldReplayLimit (die : Die) (ch : Fin 88) (s : State) : Res :=
  .next (if chanOn die ch && s.chanSt die ch == 2 && (s.weld die ch).replay.any fun e => 8 ≤ e.2 then s.weldRetrain ch 0 else s)

/-- No control group has been accepted for 1 µs. -/
def execWeldControlLoss (die : Die) (ch : Fin 88) (s : State) : Res :=
  .next (if chanOn die ch && s.chanSt die ch == 2 then s.weldRetrain ch 1 else s)

/-- An end fences its FAILED channel (R176): responses owed across it are synthesised as FENCED at once. -/
def State.weldFence (s : State) (d : Die) (ch : Nat) : State :=
  let p := chanPeer d ch
  ((s.synthAt d fun src tag t =>
    t.st == 1 && (match decodeAddr t.addr with
      | some tgt =>
        (reqCrossings src tgt.ident t.low).contains (d, p, ch) || (rspCrossings tgt.ident src t.cls tag).contains (p, d, ch)
      | none => false)).1)

/-- An end that has lost its channel: nothing is kept for the other end. -/
def WeldEnd.cut (w : WeldEnd) : WeldEnd := { w with step := 0, replay := [], queue := [], cur := none, rx := [] }

/-- The channel enters FAILED (R176): 0 too many failing wires, 1 clock not locked, 2 deskew failed. Each end raises the event in its own
die, as each end fences (DESIGN CHOICE, log entry 237). -/
def State.weldFail (s : State) (ch reason : Nat) : State :=
  let one (s : State) (d : Die) : State :=
    ((s.setWeld d ch (s.weld d ch).cut).weldFence d ch).raise d Ev.WLD_CH_FAILED (ch + reason * 2 ^ 8)
  one (one (s.setChan ch 5) (chanDies ch).1) (chanDies ch).2

/-- The wires of a mask, ascending. -/
def wiresOf (m : BitVec 68) : List Nat := (List.range 68).filter fun i => m.getLsbD i

/-- Put the wires that fail into a repair map. -/
def mapWith (map fails : List Nat) : List Nat := fails.foldl (fun l n => insertNat n l) map

/-- The map of one direction after a test that finds these wires failing; `base` is the map the test starts from. Wires that are
new to it are reported, but where they make record 1 (R165). -/
def State.weldMap (s : State) (d : Die) (ch : Nat) (base fails : List Nat) : State :=
  let w := s.weld d ch
  let map := mapWith base fails
  if w.records = [] then s.setWeld d ch { w with map := map, records := [map] }
  else
    let s := s.setWeld d ch { w with map := map }
    let fresh := fails.filter fun n => !base.contains n
    (fresh.foldl (fun (s, k) n => (s.raise d Ev.WLD_REPAIR_NEW (ch + n * 2 ^ 8 + k * 2 ^ 16), k + 1)) (s, base.length + 1)).1

/-- The map that a training starts from: the newest record. -/
def WeldEnd.newest (w : WeldEnd) : List Nat := (w.records.getLast?).getD []

/-- Both ends enter TRAINING (R174). -/
def State.weldTrain (s : State) (ch : Nat) : State :=
  let one (s : State) (d : Die) : State := s.setWeld d ch { s.weld d ch with step := 1, heard := false }
  one (one (s.setChan ch 1) (chanDies ch).1) (chanDies ch).2

/-- Whether both ends of a channel train and stand at a step. -/
def State.weldAt (s : State) (ch step : Nat) : Bool :=
  s.chanSt (chanDies ch).1 ch == 1 && (s.weld (chanDies ch).1 ch).step == step

/-- Put the step of both ends. -/
def State.weldStep (s : State) (ch step : Nat) : State :=
  let one (s : State) (d : Die) : State := s.setWeld d ch { s.weld d ch with step := step }
  one (one s (chanDies ch).1) (chanDies ch).2

/-- Both receivers lock. -/
def execWeldReceiverLock (ch : Fin 88) (s : State) : Res := .next (if s.weldAt ch 1 then s.weldStep ch 2 else s)

/-- A returning die whose channels have trained, and whose interrupted partial load has been blanked, starts its priority lap (R33
steps 4 and 5, R232). A channel that failed holds nothing up. -/
def State.returnTrained (s : State) (d : Die) : State :=
  if s.clk.locked = true ∧ Tbl.get 0 s.dieStep d.idx = 2 ∧ s.get (atDie d) .PRC_LOAD_STAT_STATE ≠ 5 ∧
      (List.range 88).all (fun ch => !(chanOn d ch && s.chanSt d ch == 1)) = true then
    (s.setDieStep (Tbl.set s.dieStep d.idx 3)).returnLap d
  else s

/-- A forwarded clock has not locked within 10 µs. -/
def execWeldClockLockTimeout (ch : Fin 88) (s : State) : Res :=
  .next (if s.weldAt ch 1 || s.chanSt (chanDies ch).1 ch == 3 then
    ((s.weldFail ch 1).returnTrained (chanDies ch).1).returnTrained (chanDies ch).2
  else s)

/-- The wire test ends: the failing wires of the direction received by the lower die and by the higher die (R164, R174). -/
def execWeldPrbsDone (ch : Fin 88) (low high : BitVec 68) (s : State) : Res :=
  let (a, b) := chanDies ch
  let la := mapWith (s.weld a ch).newest (wiresOf low)
  let lb := mapWith (s.weld b ch).newest (wiresOf high)
  .next (if !s.weldAt ch 2 then s
  else if 4 < la.length ∨ 4 < lb.length then ((s.weldFail ch 0).returnTrained a).returnTrained b
  else
    ((s.weldMap a ch (s.weld a ch).newest (wiresOf low)).weldMap b ch (s.weld b ch).newest (wiresOf high)).weldStep ch 4)

/-- An end as step 5 of a training leaves it: sequence numbers restart at 0, replay buffers are empty, credits are full. Traffic that the
training held goes on, a flit in transmission from its first group, which its groups' credits pay for (R170; DEDUCED, log entry 199). -/
def WeldEnd.fresh (w : WeldEnd) : WeldEnd :=
  { WeldEnd.new with
    records := w.records, map := w.map, step := 5, win := w.win, winErrs := w.winErrs, winHit := w.winHit
    credits := match w.cur with
      | some (p, _, _) => weldBuffers.set p (weldBuffers.getD p 0 - flitGroups p)
      | none => weldBuffers
    queue := w.queue, cur := w.cur.map fun e => (e.1, 0, e.2.2) }

/-- Deskew and alignment are complete, and each end sends control groups with its version; or deskew fails (R172, R174, R176). -/
def execWeldDeskewDone (ch : Fin 88) (works : Bool) (s : State) : Res :=
  let (a, b) := chanDies ch
  .next (if !s.weldAt ch 4 then s
  else if works then
    let s := (s.setWeld a ch (s.weld a ch).fresh).weldControl a ch
    (s.setWeld b ch (s.weld b ch).fresh).weldControl b ch
  else ((s.weldFail ch 2).returnTrained a).returnTrained b)

/-- A fence between dies that stands because a die went down opens again (R33 step 4, R160); a planned one stays (R159). -/
def State.dieFenceUp (s : State) (f : FenceId) : State := if s.fence f = 3 then s.setFence f 0 else s

/-- Both ends reach step 6 (R174): UP, and the fences of the two dies toward each other open. -/
def execWeldTrainingDone (ch : Fin 88) (s : State) : Res :=
  let (a, b) := chanDies ch
  .next (if s.weldAt ch 5 && (s.weld a ch).heard && (s.weld b ch).heard then
    let s := (s.weldStep ch 0).setChan ch 2
    let s := (s.dieFenceUp (.die a b)).dieFenceUp (.die b a)
    (s.returnTrained a).returnTrained b
  else s)

/-- A retrain ends (R175): the failing wires of each direction, starting from the map in force, and whether deskew works. The groups that
the ends then resend count in no REPLAYS, and the 8 replays of a group count anew (DESIGN CHOICE, log entry 238). -/
def execWeldRetrainDone (ch : Fin 88) (low high : BitVec 68) (works : Bool) (s : State) : Res :=
  let (a, b) := chanDies ch
  let la := (s.weld a ch).map
  let lb := (s.weld b ch).map
  let resume (s : State) (d : Die) : State :=
    let w := s.weld d ch
    (s.setWeld d ch { w with replay := w.replay.map fun e => (e.1, 0), acted := none }).weldSend d ch (w.replay.map Prod.fst)
  .next (if s.chanSt a ch ≠ 3 then s
  else if 4 < (mapWith la (wiresOf low)).length ∨ 4 < (mapWith lb (wiresOf high)).length then s.weldFail ch 0
  else if works = false then s.weldFail ch 2
  else
    let s := (s.weldMap a ch la (wiresOf low)).weldMap b ch lb (wiresOf high)
    resume (resume (s.setChan ch 2) a) b)

/-- A command that the channel's state cannot take (R177). -/
def State.weldIgnored (s : State) (d : Die) (ch : Nat) : State := s.put (atSel d ch) .WLD_CH_STAT_CMD_IGNORED 1

/-- WLD_CH_CMD.RETRAIN (R173, R177). -/
def State.weldRetrainCmd (s : State) (d : Die) (ch : Nat) : State :=
  if !chanOn d ch then s
  else if s.chanSt d ch = 2 then s.weldRetrain ch 2
  else if s.chanSt d ch = 5 then s.weldTrain ch
  else s.weldIgnored d ch

/-- WLD_CH_CMD.REMAP (R173, R177). -/
def State.weldRemapCmd (s : State) (d : Die) (ch : Nat) : State :=
  if !chanOn d ch then s
  else if s.chanSt d ch = 2 ∨ s.chanSt d ch = 5 then s.weldTrain ch
  else s.weldIgnored d ch

/-- WLD_CH_CMD.COMMIT_MAP (R165, R177). -/
def State.weldCommitCmd (s : State) (d : Die) (ch key : Nat) : State :=
  let w := s.weld d ch
  if !chanOn d ch then s
  else if key ≠ 0xA7 ∨ s.chanSt d ch ≠ 2 then s.weldIgnored d ch
  else if w.records.getLast? = some w.map then s
  else if 4 ≤ w.records.length then s.put (atSel d ch) .WLD_CH_STAT_OTP_FULL 1
  else s.setWeld d ch { w with records := w.records ++ [w.map] }

/-- A retrain is commanded. -/
def execRetrain (die : Die) (ch : Fin 88) (s : State) : Res := .next (s.weldRetrainCmd die ch)

/-- A full training is commanded. -/
def execRemap (die : Die) (ch : Fin 88) (s : State) : Res := .next (s.weldRemapCmd die ch)

/-- A commit of the map in force is commanded. -/
def execCommitMap (die : Die) (ch : Fin 88) (key : BitVec 8) (s : State) : Res := .next (s.weldCommitCmd die ch key.toNat)

/-- A die's Weld channels when it goes down (R173, R178): those in TRAINING, UP or RETRAIN go DOWN; both ends are in the same state, with
nothing kept for the other end. -/
def State.weldDown (s : State) (d : Die) : State :=
  (List.range 88).foldl (fun s ch =>
    if chanOn d ch then
      let st := s.chanSt (chanPeer d ch) ch
      let s := s.setChan ch (if st = 1 ∨ st = 2 ∨ st = 3 then 4 else st)
      let drop (s : State) (e : Die) : State := s.setWeld e ch (s.weld e ch).cut
      drop (drop s (chanDies ch).1) (chanDies ch).2
    else s) s

/-! ### Seam groups -/

/-- A clock of a MESO group stops or changes frequency: the group unlocks (R185). -/
def execSeamUnlock (die : Die) (edge : Fin 11) (group : Fin 88) (s : State) : Res :=
  .next (s.seamUnlock die edge group)

/-- A group that locks chooses its capture edge: it takes next what the other end holds (R185). -/
def State.seamAlign (s : State) (d : Die) (edge g : Nat) : State :=
  if s.flag (atSeam d edge g) .WLD_SEAM_STAT_LOCKED then s
  else s.setSeam d edge g { s.seam d edge g with phase := [(s.seam (acrossEdge d edge) edge g).launch] }

/-- Both clocks of a MESO group run at one frequency: the group locks (R185). -/
def execSeamRelock (die : Die) (edge : Fin 11) (group : Fin 88) (s : State) : Res :=
  let a := atSeam die edge group
  .next (if edgeOn die edge && !(s.seam die edge group).cfg.async then (s.seamAlign die edge group).put a .WLD_SEAM_STAT_LOCKED 1 else s)

end Sys2Proof.Machine
end

