-- ==== Sys2Proof/Machine/RunControl.lean ====
section
/-! DEFINITION. Interrupts, tongs, core resets, watchdogs, debug authorisation, debug access and halts (chapters 10 and 11; rows 156
to 169 and 171 to 188). -/

namespace Sys2Proof.Machine

/-! ### Interrupts (R301 to R305) -/

/-- Whether a line is pending and enabled (R301). -/
def State.lineOn (s : State) (d : Die) (k line : Nat) : Bool :=
  let a := atUnit d k
  s.bit a .HMR_IRQ_PEND_PEND line &&
    (if line = 0 then s.flag a .HMR_STK_CTRL_BIND else bitOf (s.get a .HMR_IRQ_CTRL_EN) (line - 1))

/-- The line that a core takes: the lowest that is pending and enabled; lines 1 to 4 need SR.IE = 1. -/
def State.lineTaken (s : State) (d : Die) (k : Nat) : Option Nat :=
  (List.range 5).find? fun l => s.lineOn d k l && (l == 0 || (s.core d k).sr.getLsbD 13)

/-- Whether interrupts are held off at this boundary (R303). -/
def Core.heldOff (c : Core) : Bool := c.br.isSome || decide (0 < c.ld) || c.inHandler

/-- Whether the boundary is settled (R302). -/
def Core.settled (c : Core) : Bool := c.hist.all fun b => !b

/-- The core takes a line (R304, R307). A line other than line 0 taken from a WAIT_STROKE outside a task leaves it waiting (R308). -/
def State.takeLine (s : State) (d : Die) (k line : Nat) : State :=
  let s := s.onCore d k fun c =>
    let c := { c with shadow := BitVec.ofNat 5 (c.sr.toNat % 16 + natOf (c.sr.getLsbD 13) * 16) }
    let c := c.push c.pc
    { c with
      sr := c.sr &&& ~~~ 0x2000#24
      pc := BitVec.ofNat 15 (s.get (atUnit d k) .HMR_IRQ_CTRL_VBASE + 4 * line)
      inHandler := true
      task := c.task || line == 0
      rewait := line != 0 && s.cstate d k == 4 }
  ((s.clrBit (atUnit d k) .HMR_IRQ_PEND_PEND line).setCstate d k 1).taskSync d k

/-- A core's interrupt logic acts at a boundary (R302 to R306): an IDLE ends where a line is pending and enabled, and so does, at line 0,
a WAIT_STROKE that stands before a delay slot or in the handler of another line (R308); a line is taken where the boundary is settled and not held off, and no halt waits. -/
def State.interrupt (s : State) (d : Die) (k : Nat) : State :=
  let c := s.core d k
  let st := s.cstate d k
  if c.halt.isSome || s.coreStill d k then s
  else
    let wakes := (st == 2 && (List.range 5).any fun l => s.lineOn d k l) || (st == 4 && (c.br.isSome || c.inHandler) && s.lineOn d k 0)
    let s := if wakes then s.goOn d k else s
    if c.heldOff || !(st == 2 || st == 4 || (st == 1 && c.settled)) then s
    else match s.lineTaken d k with
      | some l => s.takeLine d k l
      | none => s

/-- A core comes to a boundary at which it may take an interrupt. -/
def execInterruptEntry (c : CoreId) (s : State) : Res := .next (s.interrupt c.die.die c.k)

/-- HMR_IRQ_SET.DOORBELL is written. -/
def execDoorbell (c : CoreId) (s : State) : Res := .next (s.irq c.die.die c.k 4)

/-! ### Tongs (R296, R297) -/

/-- HMR_TNG_GO posts the six words of HMR_TNG_POST, or sets POST_IGNORED. -/
def State.hostPost (s : State) (d : Die) (k : Nat) : State :=
  let (s, ok) := s.tngPost d k ((List.range 6).map fun j => s.get ⟨d, k, j, 0⟩ .HMR_TNG_POST_WORD)
  if ok then s else s.put (atUnit d k) .HMR_TNG_STAT_POST_IGNORED 1

/-- The host posts a descriptor. -/
def execTongsHostPost (c : CoreId) (s : State) : Res := .next (s.hostPost c.die.die c.k)

/-- The tongs start the next queued descriptor: a refused field stops them with status DECODE; a count of 0 moves nothing. -/
def execTongsDescriptorStart (c : CoreId) (s : State) : Res :=
  let d := c.die.die
  let r := s.core d c.k
  .next (if s.flag (atUnit d c.k) .HMR_TNG_STAT_STOPPED then s
  else match r.run, r.queue with
  | none, desc :: rest =>
    let run : TongsRun := ⟨desc, 0, 0, 0, false, decide (descWord desc 5 = 0), false⟩
    let s := s.setCore d c.k { r with queue := rest, run := some run }
    if run.fin then s
    else if descRefused d c.k desc then s.tngStop d c.k 5
    else State.tngGo (tngFuel run) s d c.k
  | _, _ => s)

/-- A descriptor whose words have all moved completes. -/
def execTongsDescriptorComplete (c : CoreId) (s : State) : Res :=
  let d := c.die.die
  let r := s.core d c.k
  .next (match r.run with
  | none => s
  | some run =>
    if run.fin then
      let s := s.setCore d c.k { r with run := none }
      let s := s.setTngDone (Tbl.set s.tngDone (coreKey d c.k) ((Tbl.get 0 s.tngDone (coreKey d c.k) + 1) % 256))
      let s := s.bump (atUnit d c.k) .HMR_TNG_STAT_DONE 1
      let s := if bitOf (descWord run.desc 0) 23 then s.irq d c.k 2 else s
      s.tngSync d c.k
    else s)

/-- HMR_TNG_CTRL: RESUME clears STOPPED; FLUSH empties the queue too. -/
def State.tngControl (s : State) (d : Die) (k : Nat) (flush : Bool) : State :=
  let s := if flush then s.onCore d k fun c => { c with queue := [] } else s
  (s.put (atUnit d k) .HMR_TNG_STAT_STOPPED 0).tngSync d k

/-- HMR_TNG_CTRL.RESUME is written. -/
def execTongsResume (c : CoreId) (s : State) : Res := .next (s.tngControl c.die.die c.k false)

/-- HMR_TNG_CTRL.FLUSH is written. -/
def execTongsFlush (c : CoreId) (s : State) : Res := .next (s.tngControl c.die.die c.k true)

/-! ### Core reset and hold (R265) -/

/-- HMR_CORE_CTRL.RST is written. -/
def execCoreReset (c : CoreId) (s : State) : Res := .next (s.coreReset c.die.die c.k)

/-- A write of HMR_CORE_CTRL: a change of HOLD holds the core in reset or lets it start; RST resets it. -/
def State.coreCtrl (s : State) (d : Die) (k : Nat) (v : Word) : State :=
  let was := s.flag (atUnit d k) .HMR_CORE_CTRL_HOLD
  let s := s.writeReg (atUnit d k) .HMR_CORE_CTRL v
  if was != v.getLsbD 31 || v.getLsbD 30 then s.coreReset d k else s

/-- HMR_CORE_CTRL is written with HOLD and START_PC. -/
def execCoreHold (c : CoreId) (hold : Bool) (start : BitVec 15) (s : State) : Res :=
  .next (s.coreCtrl c.die.die c.k (BitVec.ofNat 32 (natOf hold * 2 ^ 31 + start.toNat)))

/-! ### Watchdogs (R311 to R315) -/

/-- The core watchdog expires: the first expiry warns, the second takes its action. It is frozen while the core is halted. -/
def execCoreWatchdogExpiry (c : CoreId) (s : State) : Res :=
  let d := c.die.die
  let a := atUnit d c.k
  let pc := (s.core d c.k).pc.toNat
  .next (if !s.flag a .HMR_WDOG_CTRL_EN || s.cstate d c.k == 5 || s.gated d c.k || !s.up d then s
  else if !s.flag a .HMR_WDOG_STAT_WARNED then
    let s := ((s.irq d c.k 1).coreWdogReload d c.k).put a .HMR_WDOG_STAT_WARNED 1
    s.raise d (152 + c.k) (pc * 2 ^ 8)
  else
    let s := (s.coreWdogReload d c.k).raise d (152 + c.k) (1 + pc * 2 ^ 8)
    if s.flag a .HMR_WDOG_CTRL_ACTION then s else (s.bump a .HMR_WDOG_STAT_RESETS 1).coreReset d c.k)

/-- HMR_WDOG_KICK is written: 0x3C reloads. -/
def State.wdogKick (s : State) (d : Die) (k key : Nat) : State := if key = 0x3C then s.coreWdogReload d k else s

/-- The core watchdog is kicked. -/
def execCoreWatchdogKick (c : CoreId) (key : BitVec 8) (s : State) : Res := .next (s.wdogKick c.die.die c.k key.toNat)

/-- HMR_WDOG_CTRL is written: the watchdog reloads. -/
def State.wdogCtrl (s : State) (d : Die) (k : Nat) (v : Word) : State := (s.writeReg (atUnit d k) .HMR_WDOG_CTRL v).coreWdogReload d k

/-- The core watchdog's control register is written. -/
def execCoreWatchdogCtrlWrite (c : CoreId) (value : Word) (s : State) : Res := .next (s.wdogCtrl c.die.die c.k value)

/-- The system watchdog reloads its period, and WARNED clears: 0 acts as 1. -/
def State.swdReload (s : State) : State :=
  s.puts (atDie .e0) [(.DBG_SWD_STAT_REMAIN, Nat.max 1 (s.get (atDie .e0) .DBG_SWD_CTRL_PERIOD)), (.DBG_SWD_STAT_WARNED, 0)]

/-- A write of DBG_SWD_CTRL (R313): EN = 1 starts the watchdog, a written 0 is ignored. -/
def State.swdCtrl (s : State) (v : Word) : State :=
  let was := s.flag (atDie .e0) .DBG_SWD_CTRL_EN
  let s := s.puts (atDie .e0) [(.DBG_SWD_CTRL_EN, natOf (was || v.getLsbD 31)), (.DBG_SWD_CTRL_PERIOD, v.toNat)]
  if !was && v.getLsbD 31 then s.swdReload else s

/-- DBG_SWD_CTRL is written. -/
def execSwdEnable (value : Word) (s : State) : Res := .next (s.swdCtrl value)

/-- DBG_SWD_KICK is written: 0x6D reloads. -/
def State.swdKick (s : State) (key : Nat) : State := if key = 0x6D then s.swdReload else s

/-- The system watchdog is kicked. -/
def execSwdKick (key : BitVec 8) (s : State) : Res := .next (s.swdKick key.toNat)

/-- Whether the system watchdog is frozen (R315); it reloads when it stops being so. -/
def State.swdSync (s : State) : State :=
  let was := s.flag (atDie .e0) .DBG_SWD_STAT_FROZEN
  let now := s.flag (atDie .e0) .DBG_CTRL_FREEZE_SYS && 2 ≤ s.get (atDie .e0) .DBG_SESSION_LEVEL
  let s := s.put (atDie .e0) .DBG_SWD_STAT_FROZEN (natOf now)
  if was && !now then s.swdReload else s

/-- A write of DBG_CTRL counts only from ICLS 5 at the halt level or above (R325). -/
def State.freezeSys (s : State) (icls : Nat) (freeze : Bool) : State :=
  if icls = 5 ∧ 2 ≤ s.get (atDie .e0) .DBG_SESSION_LEVEL then (s.put (atDie .e0) .DBG_CTRL_FREEZE_SYS (natOf freeze)).swdSync else s

/-- DBG_CTRL is written by an initiator. -/
def execFreezeSysWrite (icls : BitVec 3) (freeze : Bool) (s : State) : Res := .next (s.freezeSys icls.toNat freeze)

/-! ### Halts (R326 to R331) -/

/-- The tongs go on where nothing stops them any longer (R328). -/
def State.tngUnhalt (s : State) (d : Die) (k : Nat) : State :=
  match (s.core d k).run with
  | some r => State.tngGo (tngFuel r) s d k
  | none => s

/-- The halt of a core is released: frozen instructions write again what a debug write replaced, the pipeline and what it stalled on go
on, and the watchdog reloads (R312, R327, R329, R330). -/
def State.haltEnd (s : State) (d : Die) (k : Nat) (step : Bool) : State :=
  if s.cstate d k ≠ 5 then s
  else
    let s := (s.setCstate d k (s.core d k).under).put (atUnit d k) .HMR_DBG_STAT_HALTED 0
    let s := (s.onCore d k fun c =>
      { c.again.foldl (fun c e => c.commitOne e.1 e.2) c with stepping := step, again := [] }).clrBit (atDie d) .HMR_HALTED_CORES k
    (((s.coreWdogReload d k).moreStores d k).tngSync d k).tngUnhalt d k

/-- Whether the session holds the halt level. -/
def State.mayHalt (s : State) : Bool := 2 ≤ s.get (atDie .e0) .DBG_SESSION_LEVEL

/-- HMR_DBG_CTRL.HALT is written. -/
def execHaltRequest (c : CoreId) (s : State) : Res := .next (if s.mayHalt then s.haltRequest c.die.die c.k 0 else s)

/-- An instruction at the PC of an enabled breakpoint reaches DE. -/
def execBreakpointMatch (c : CoreId) (point : Fin 4) (s : State) : Res :=
  let a : At := ⟨c.die.die, c.k, point, 0⟩
  .next (if s.flag a .HMR_BKPT_EN && s.get a .HMR_BKPT_PC == (s.core c.die.die c.k).pc.toNat then s.haltRequest c.die.die c.k 3 else s)

/-- A requested halt comes to its halt point. -/
def execHaltTakesEffect (c : CoreId) (s : State) : Res := .next (s.haltTry c.die.die c.k)

/-- HMR_DBG_CTRL.RESUME is written. -/
def execDebugResume (c : CoreId) (s : State) : Res := .next (if s.mayHalt then s.haltEnd c.die.die c.k false else s)

/-- HMR_DBG_CTRL.STEP is written. -/
def execDebugStep (c : CoreId) (s : State) : Res := .next (if s.mayHalt then s.haltEnd c.die.die c.k true else s)

/-- Put entry `e` of the return stack, entry 0 being the oldest. -/
def Core.setStack (c : Core) (e v : Nat) : Core :=
  if e < c.stack.length then { c with stack := c.stack.set (c.stack.length - 1 - e) (BitVec.ofNat 15 v) }
  else { c with spare := Tbl.set c.spare e (BitVec.ofNat 15 v) }

/-- Entry `e` of the return stack. At and beyond the depth an entry holds what a debug write or reset put there; one that was popped is
open (R265, R288, R329; DESIGN CHOICE, log entry 204). -/
def State.stackAt (s : State) (d : Die) (k e : Nat) : State × BitVec 15 :=
  let c := s.core d k
  if e < c.stack.length then (s, (c.stack[c.stack.length - 1 - e]?).getD 0)
  else if Tbl.has c.spare e then (s, Tbl.get 0 c.spare e)
  else (s.used, BitVec.ofNat 15 (s.free 15))

/-- Put the depth of the return stack: its entries stay as they are. -/
def State.setDepth (s : State) (d : Die) (k n : Nat) : State :=
  let old := (s.core d k).stack.length
  let n := Nat.min 16 n
  if n ≤ old then
    s.onCore d k fun c =>
      { c with
        stack := c.stack.drop (old - n)
        spare := (List.range (old - n)).foldl (fun t j => Tbl.set t (n + j) ((c.stack[old - 1 - (n + j)]?).getD 0)) c.spare }
  else
    (List.range (n - old)).foldl (fun s j =>
      let (s, v) := s.stackAt d k (old + j)
      s.onCore d k fun c => { c with stack := v :: c.stack, spare := Tbl.erase c.spare (old + j) }) s

/-- Whether an instruction frozen in the pipeline writes a register (R329). -/
def Core.frozen (c : Core) (dest : HDest) : Bool := c.pend.any (·.dest == dest) || c.recent.any (·.dest == dest)

/-- The results that a frozen instruction writes again to registers that a debug write sets: the newest of each (R329). -/
def Core.rewrites (c : Core) (dests : List HDest) : Core :=
  { c with again := c.again ++ dests.filterMap fun t => (c.recent.find? (·.dest == t)).map fun e => (e.dest, e.value) }

/-- Put a raw slice of an accumulator (R272). The chain goes on from the value of a frozen MAC where there is one (R285, R329). -/
def Core.setSlice (c : Core) (n k v : Nat) : Core :=
  let old := (Tbl.get 0 c.va n).toNat
  let new :=
    if k = 0 then old / 2 ^ 24 * 2 ^ 24 + v % 2 ^ 24
    else if k = 1 then old % 2 ^ 24 + v % 2 ^ 24 * 2 ^ 24 + old / 2 ^ 48 * 2 ^ 48
    else if k = 2 then old % 2 ^ 48 + v % 256 * 2 ^ 48
    else old
  { c with a := if c.frozen (.acc n) then c.a else Tbl.set c.a n (BitVec.ofNat 56 new), va := Tbl.set c.va n (BitVec.ofNat 56 new) }

/-- The results of the pipeline that reach the register of a code (R329). -/
def codeDests (code : Nat) : List HDest :=
  if code < 0x10 then [.x code]
  else if code < 0x20 then [.acc ((code - 0x10) / 4)]
  else if code < 0x28 then [.i (code - 0x20)]
  else if code < 0x30 then [.b (code - 0x28)]
  else if code < 0x38 then [.l (code - 0x30)]
  else if code < 0x40 then [.m (code - 0x38)]
  else match code with
    | 0x40 => [.sr, .flags, .av] ++ (List.range 24).map .sticky
    | 0x41 => [.cr]
    | 0x42 => [.lc]
    | 0x43 => [.ls]
    | 0x44 => [.le]
    | 0x45 => [.amr]
    | 0x46 => [.nwb]
    | _ => []

/-- A debug write of a register of a halted core: the value as written (R329). A write of the PC takes the place of the delay slots and the
target of a branch that stands before DE; the flags of a frozen RTI come back all the same (DESIGN CHOICE, log entry 241). -/
def State.debugPut (s : State) (d : Die) (k code v : Nat) : State :=
  let on := s.onCore d k
  let w := BitVec.ofNat 24 v
  if code < 0x10 then on fun c => { c with x := Tbl.set c.x code w }
  else if code < 0x20 then
    if code % 4 = 3 then s else on fun c => c.setSlice ((code - 0x10) / 4) (code % 4) v
  else if code < 0x28 then on fun c => { c with i := Tbl.set c.i (code - 0x20) w }
  else if code < 0x30 then on fun c => { c with b := Tbl.set c.b (code - 0x28) w }
  else if code < 0x38 then on fun c => { c with l := Tbl.set c.l (code - 0x30) w }
  else if code < 0x40 then on fun c => { c with m := Tbl.set c.m (code - 0x38) w }
  else if 0x50 ≤ code ∧ code < 0x60 then on fun c => c.setStack (code - 0x50) v
  else match code with
    | 0x40 => on fun c => { c with sr := w &&& 0x23FF#24 }
    | 0x41 => on fun c => { c with cr := w &&& 0xF#24 }
    | 0x42 => on fun c => { c with lc := BitVec.ofNat 16 v }
    | 0x43 => on fun c => { c with ls := BitVec.ofNat 15 v }
    | 0x44 => on fun c => { c with le := BitVec.ofNat 15 v }
    | 0x45 => on fun c => { c with amr := BitVec.ofNat 16 v }
    | 0x46 => on fun c => { c with nwb := BitVec.ofNat 23 v }
    | 0x48 =>
      (on fun c =>
        { (if c.br.any (·.restore) then c.unshadow else c) with
          pc := BitVec.ofNat 15 v, ld := 0, rpt := false, br := none }).put (atUnit d k) .HMR_DBG_STAT_PC v
    | 0x60 => s.setDepth d k v
    | 0x61 => on fun c => { c with shadow := BitVec.ofNat 5 v, inHandler := bitOf v 5 }
    | _ => s

/-- A debug read of a register, the return stack apart (R329). -/
def State.debugGet (s : State) (d : Die) (k code : Nat) : Nat :=
  let c := s.core d k
  if code < 0x10 then (Tbl.get 0 c.x code).toNat
  else if code < 0x20 then
    let v := (Tbl.get 0 c.va ((code - 0x10) / 4)).toNat
    match code % 4 with
    | 0 => v % 2 ^ 24
    | 1 => v / 2 ^ 24 % 2 ^ 24
    | 2 => v / 2 ^ 48
    | _ => 0
  else if code < 0x28 then (Tbl.get 0 c.i (code - 0x20)).toNat
  else if code < 0x30 then (Tbl.get 0 c.b (code - 0x28)).toNat
  else if code < 0x38 then (Tbl.get 0 c.l (code - 0x30)).toNat
  else if code < 0x40 then (Tbl.get 0 c.m (code - 0x38)).toNat
  else match code with
    | 0x40 => c.srWord.toNat
    | 0x41 => c.cr.toNat
    | 0x42 => c.lc.toNat
    | 0x43 => c.ls.toNat
    | 0x44 => c.le.toNat
    | 0x45 => c.amr.toNat
    | 0x46 => c.nwb.toNat
    | 0x47 => (s.tngs d k).toNat
    | 0x48 => c.haltPc.toNat
    | 0x60 => c.stack.length
    | 0x61 => c.shadow.toNat + natOf c.inHandler * 32
    | _ => 0

/-- A write of HMR_DBG_REG_DATA: the register that HMR_DBG_REG_IDX selects, while the core is halted. -/
def State.debugRegWrite (s : State) (d : Die) (k v : Nat) : State :=
  let code := s.get (atUnit d k) .HMR_DBG_REG_IDX_CODE
  if s.cstate d k = 5 then (s.debugPut d k code (v % 2 ^ 24)).onCore d k fun c => c.rewrites (codeDests code) else s

/-- HMR_DBG_REG_DATA is written from the debug access engine at the halt level. -/
def execDebugRegWrite (c : CoreId) (value : BitVec 24) (s : State) : Res :=
  .next (if s.mayHalt then s.debugRegWrite c.die.die c.k value.toNat else s)

/-! ### Debug sessions (R316 to R320) -/

/-- What happens when a session ends or falls below the halt level (R320): cores resume, debug settings clear. -/
def State.sessionFall (s : State) : State :=
  let s := Die.all.foldl (fun s d =>
    if d.isFab then
      (List.range 8).foldl (fun s k =>
        let a := atUnit d k
        let s := s.puts a [(.HMR_DBG_CTRL_XT_IN, 0), (.HMR_DBG_CTRL_XT_OUT, 0), (.HMR_DBG_CTRL_RESET_HALT, 0)]
        let s := (s.haltEnd d k false).onCore d k fun c => { c with halt := none, stepping := false }
        let s := s.puts a [(.HMR_DBG_CTRL_HALT_TONGS, 0), (.HMR_DBG_STAT_PENDING, 0)]
        (List.range 4).foldl (fun s e => s.put ⟨d, k, e, 0⟩ .HMR_BKPT_EN 0) s) s
    else s) s
  (s.put (atDie .e0) .DBG_CTRL_FREEZE_SYS 0).swdSync

/-- A session ends, with its cause (R320, R333). -/
def State.sessionEnd (s : State) (cause : Nat) : State :=
  let old := s.get (atDie .e0) .DBG_SESSION_LEVEL
  if old = 0 then s
  else ((s.put (atDie .e0) .DBG_SESSION_LEVEL 0).sessionFall).raise .e0 Ev.DBG_SESSION (old * 2 ^ 8 + cause * 2 ^ 16)

/-- The test port selects an instruction (R212, R321). -/
def State.tapIr (s : State) (ir : Nat) : State := s.setTap { s.tap with ir := ir }

/-- DBG_CMD.END is written. -/
def execSessionEnd (s : State) : Res := .next ((s.tapIr 0x13).sessionEnd 1)

/-- TRST_N goes low: the session ends, and the test port selects IDCODE (PRESUMED, log entry 24). -/
def execTrstNLow (s : State) : Res := .next ((s.tapIr 1).sessionEnd 2)

/-- The key of a slot: as DBG_KEYPROG wrote it, or blank, which is all zero (R317). -/
def State.keyOf (s : State) (slot : Nat) : BitVec 256 := Tbl.get 0 s.dbg.keys slot

/-- Capture-DR of DBG_NONCE (R318, R319): `draw` is what the random source of E0 gives. -/
def execDbgNonce (draw : BitVec 128) (s : State) : Res :=
  let s := s.tapIr 0x10
  .next (if s.flag (atDie .e0) .DBG_SESSION_LOCKOUT then (s.setDbg { s.dbg with nonce := none }).emit (.shifted 0)
  else (s.setDbg { s.dbg with nonce := some (bytesLE draw.toNat 16) }).emit (.shifted draw.toNat))

/-- The message of R318: the nonce in shift order, the level, and DIE_UID_LO and DIE_UID_HI of E0, little-endian. -/
def voxdarMessage (nonce : List Nat) (level : Nat) : List Nat := nonce ++ [level] ++ bytesLE (Config.dieUid 0).toNat 8

/-- Update-DR of DBG_AUTH (R318, R319). -/
def execDbgAuth (level : BitVec 8) (response : BitVec 256) (s : State) : Res :=
  let l := level.toNat
  let key := s.keyOf l
  let good := match s.dbg.nonce with
    | none => false
    | some n =>
      1 ≤ l && l ≤ 3 && key != 0 && hmacSha256 (bytesLE key.toNat 32) (voxdarMessage n l) == bytesLE response.toNat 32
  let old := s.get (atDie .e0) .DBG_SESSION_LEVEL
  let s := (s.tapIr 0x11).setDbg { s.dbg with nonce := none }
  .next (if good then
    let s := s.puts (atDie .e0) [(.DBG_SESSION_LEVEL, l), (.DBG_SESSION_FAILS, 0)]
    let s := s.raise .e0 Ev.DBG_SESSION (l + old * 2 ^ 8 + (if l < old then 3 else 0) * 2 ^ 16)
    if 2 ≤ old ∧ l < 2 then s.sessionFall else s.swdSync
  else
    let s := s.bump (atDie .e0) .DBG_SESSION_FAILS 1
    let fails := s.get (atDie .e0) .DBG_SESSION_FAILS
    let s := s.raise .e0 Ev.DBG_AUTH_FAIL (l + fails * 2 ^ 8)
    if 4 ≤ fails then s.put (atDie .e0) .DBG_SESSION_LOCKOUT 1 else s)

/-- The nonce is 10 s old. -/
def execNonceExpiry (s : State) : Res := .next (s.setDbg { s.dbg with nonce := none })

/-- 60 s have passed since the last failure. -/
def execLockoutExpiry (s : State) : Res := .next (s.put (atDie .e0) .DBG_SESSION_LOCKOUT 0)

/-- Update-DR of DBG_KEYPROG (R317): a blank slot is written, without a session only while the slot of level 3 is blank. -/
def execDbgKeyprog (slot : BitVec 8) (key : BitVec 256) (s : State) : Res :=
  let s := s.tapIr 0x15
  let n := slot.toNat
  .next (if 1 ≤ n ∧ n ≤ 3 ∧ (s.keyOf 3 = 0 ∨ s.get (atDie .e0) .DBG_SESSION_LEVEL = 3) ∧ s.keyOf n = 0 ∧ key ≠ 0 then
    (s.setDbg { s.dbg with keys := Tbl.set s.dbg.keys n key }).setBit (atDie .e0) .DBG_KEY_STAT_SLOTS (n - 1)
  else s)

/-- Capture-DR of DBG_STAT loads DBG_SESSION (R321). -/
def execDbgStat (s : State) : Res :=
  let w := s.reg (atDie .e0) .DBG_SESSION
  .next (((s.tapIr 0x14).setAnswer w).emit (.shifted w.toNat))

/-- DBG_CMD.FIRE at the halt level, or a halt with XT_OUT = 1 (R321, R332). -/
def execCrossTriggerFire (s : State) : Res := .next (if s.mayHalt then s.crossTrigger else s)

/-! ### Debug access (R322 to R325) -/

/-- The level that a debug access needs (R322). -/
def State.accessLevel (s : State) (write : Bool) (addr : Nat) : Nat :=
  if !write then 1
  else match decodeAddr addr with
    | some (.localMem d k _) | some (.program d k _) => if s.cstate d k = 5 then 2 else 3
    | some (.control d o) =>
      let r := o % 0x1000
      if d.isFab ∧ 0x09000000 ≤ o ∧ o < 0x09008000 ∧ (r = 0x100 ∨ r = 0x10C ∨ (0x110 ≤ r ∧ r < 0x120)) then 2
      else if d = .e0 ∧ o = 0x13000008 then 2
      else 3
    | _ => 3

/-- The identity of the debug endpoint of E0 (R133, R322). -/
def debugIdent : Nat := ident .e0 0 3 7

/-- Update-DR of DBG_ACC (R322): a read or write of 32 bits in class H with ICLS 5. -/
def execDbgAcc (write : Bool) (addr : BitVec 48) (data : Word) (s : State) : Res :=
  let s := s.tapIr 0x12
  .next (if s.dbg.pending then s.put (atDie .e0) .DBG_SESSION_ACC_DROP 1
  else if s.get (atDie .e0) .DBG_SESSION_LEVEL < s.accessLevel write addr.toNat then
    s.used.setDbg { s.dbg with dstat := 10, data := s.free 32, addr := addr.toNat }
  else
    let s := s.setDbg { s.dbg with pending := true, dstat := 11, addr := addr.toNat }
    s.request ⟨BitVec.ofNat 12 debugIdent, BitVec.ofNat 10 ((s.freeTag debugIdent).getD 0), 0, 1, if write then 8 else 0, 2, false,
      5, addr, data.setWidth 512, if write then 15 else 0, 0, 0⟩ .debug)

/-- Capture-DR of DBG_ACC: DSTAT, the read data and the address (R322). -/
def execDbgAccCapture (s : State) : Res :=
  let st := if s.dbg.pending then 11 else s.dbg.dstat
  .next ((s.setAnswer (BitVec.ofNat 32 s.dbg.data)).emit (.shifted (st + s.dbg.data % 2 ^ 32 * 2 ^ 4 + s.dbg.addr * 2 ^ 36)))

end Sys2Proof.Machine
end

