-- ==== Sys2Proof/Machine/LineCode.lean ====
section
/-! DEFINITION. What a serial lane puts on its line: levels, the code groups of survey frames, Clause 73 pages and the test patterns
(R336, R338, R343, R347, R353, R358). -/

namespace Sys2Proof.Machine

/-! ### Levels (R336, R338) -/

/-- The level of a bit pair in PAM4, the first bit the more significant. -/
def pam4Level (first second : Bool) : Nat := if first then (if second then 2 else 3) else natOf second

/-- The levels of bits in the order they are sent, in pairs in PAM4. -/
def pam4Levels : List Bool → List Nat
  | a :: b :: t => pam4Level a b :: pam4Levels t
  | _ => []

/-- The levels of bits: 0 and 1 in NRZ, 0 to 3 in PAM4. -/
def levelsOf (pam4 : Bool) (bits : List Bool) : List Nat := if pam4 then pam4Levels bits else bits.map natOf

/-- The bits of a word from bit 0, which is the first on the line (R361). -/
def bitsFrom (v n : Nat) : List Bool := (List.range n).map fun i => bitOf v i

/-- Whether a lane runs in PAM4 at its rate in force. -/
def State.pam4 (s : State) (d : Die) (l : Nat) : Bool :=
  let code := s.get (atUnit d l) .LAN_LANE_STAT_RATE
  if code = 15 then s.flag (atUnit d l) .LAN_LANE_FREQ_PAM4 else decide (12 ≤ code)

/-! ### Code groups (R343)

The 8b/10b code is that of IEEE 802.3 Clause 36 (PRESUMED, log entry 205). -/

/-- The six bits of D0 to D31 at negative disparity, the first on the line the most significant. -/
def sixBits : List Nat :=
  [0b100111, 0b011101, 0b101101, 0b110001, 0b110101, 0b101001, 0b011001, 0b111000, 0b111001, 0b100101, 0b010101, 0b110100,
   0b001101, 0b101100, 0b011100, 0b010111, 0b011011, 0b100011, 0b010011, 0b110010, 0b001011, 0b101010, 0b011010, 0b111010,
   0b110011, 0b100110, 0b010110, 0b110110, 0b001110, 0b101110, 0b011110, 0b101011]

/-- The four bits of .0 to .7 at negative disparity; 8 is the other form of .7. -/
def fourBits : List Nat := [0b1011, 0b1001, 0b0101, 0b1100, 0b1101, 0b1010, 0b0110, 0b1110, 0b0111]

/-- Ones among the low `n` bits. -/
def onesIn (v n : Nat) : Nat := (bitsFrom v n).countP id

/-- A byte of a code group: its six bits, and the disparity after them. -/
def sixOf (k : Bool) (x : Nat) (plus : Bool) : Nat × Bool :=
  let v := if k && x == 28 then 0b001111 else sixBits.getD x 0
  let uneven := onesIn v 6 != 3
  (if plus && (uneven || (x == 7 && !k)) then 63 - v else v, plus != uneven)

/-- A byte of a code group: its four bits, and the disparity after them. -/
def fourOf (k : Bool) (x y : Nat) (plus : Bool) : Nat × Bool :=
  let other := y == 7 && (k || (!plus && [17, 18, 20].contains x) || (plus && [11, 13, 14].contains x))
  let v := fourBits.getD (if other then 8 else y) 0
  let uneven := onesIn v 4 != 2
  let turned := if k && x == 28 && !uneven && y != 3 then !plus else plus && (uneven || y == 3)
  (if turned then 15 - v else v, plus != uneven)

/-- A code group: ten bits in line order, and the disparity after them. `k` marks a control group. -/
def codeGroup (k : Bool) (byte : Nat) (plus : Bool) : List Bool × Bool :=
  let six := sixOf k (byte % 32) plus
  let four := fourOf k (byte % 32) (byte / 32 % 8) six.2
  (((bitsFrom six.1 6).reverse ++ (bitsFrom four.1 4).reverse), four.2)

/-- Code groups one after the other. -/
def codeGroups : List (Bool × Nat) → Bool → List Bool × Bool
  | [], plus => ([], plus)
  | (k, b) :: t, plus =>
    let g := codeGroup k b plus
    let rest := codeGroups t g.2
    (g.1 ++ rest.1, rest.2)

/-- An idle pair, /K28.5/ /D16.2/. -/
def idlePair : List (Bool × Nat) := [(true, 0xBC), (false, 0x50)]

/-- A survey frame as code groups: /K27.7/, its bytes, /K29.7/. -/
def surveyGroups (bytes : List Nat) : List (Bool × Nat) := (true, 0xFB) :: (bytes.map fun b => (false, b)) ++ [(true, 0xFD)]

/-! ### Clause 73 pages (R347)

The bits of a page and its form on the line are those of IEEE 802.3 Clause 73 (PRESUMED, log entry 255). -/

/-- The 48 bits of a page that `Emit.c73Page` records: selector, pause, Nonce, one bit for each PHY type, and F2, F3, F0, F1. -/
def c73Bits (types : Nat) (pause : Bool) (fec nonce : Nat) : List Bool :=
  let place (k : Nat) : Nat := [0, 2, 10, 7, 16, 17, 18].getD k 0
  let techs := (List.range 23).map fun i => (List.range 7).any fun k => bitOf types k && place k == i
  bitsFrom 1 10 ++ pause :: List.replicate 5 false ++ bitsFrom nonce 5 ++ techs ++ [2, 3, 0, 1].map (bitOf fec)

/-- Bits as DME transfers after the level `v`: the level changes where a bit begins, and in its middle where it is 1. -/
def dmeCells : List Bool → Bool → List Bool
  | [], _ => []
  | b :: t, v => (!v) :: (!v != b) :: dmeCells t (!v != b)

/-- The levels of a page, four unit intervals for each DME transfer: the delimiter, the bits and a last one, which is random. -/
def dmePage (page : List Bool) (last v : Bool) : List Nat :=
  ((List.replicate 4 v ++ List.replicate 4 (!v) ++ dmeCells (page ++ [last]) (!v)).flatMap fun b => List.replicate 4 b).map natOf

/-! ### Test patterns (R358) -/

/-- How many bits back a pattern takes the bits that it adds: PRBS7, PRBS9, PRBS15, PRBS23, PRBS31 and the PRBS13 of PRBS13Q (PRESUMED
from ITU-T O.150 and IEEE 802.3, log entry 206). -/
def prbsTaps (pat : Nat) : List Nat :=
  match pat with
  | 0 => [6, 7]
  | 1 => [5, 9]
  | 2 => [14, 15]
  | 3 => [18, 23]
  | 5 => [1, 2, 12, 13]
  | _ => [28, 31]

/-- The next bit of a pattern after these, the newest first. -/
def prbsNext (pat : Nat) (past : List Bool) : Bool := (prbsTaps pat).foldl (fun b n => b != past.getD (n - 1) false) false

/-- The next `n` bits of a pattern. -/
def prbsBits : Nat → Nat → List Bool → List Bool
  | 0, _, _ => []
  | n + 1, pat, past => let b := prbsNext pat past; b :: prbsBits n pat (b :: past.take 30)

/-- The bits of the first `n` levels of a pattern from a start that is not all zeros; PRBS13Q is in PAM4 always. -/
def patternBits (n pat start : Nat) (invert pam4 : Bool) : List Bool :=
  let past := bitsFrom (start % 2 ^ 31) 31
  let past := if past.take ((prbsTaps pat).foldl Nat.max 0) |>.all (!·) then List.replicate 31 true else past
  (prbsBits (if pam4 || pat == 5 then 2 * n else n) pat past).map fun b => b != invert

/-- The first `n` levels of a pattern. -/
def patternLevels (n pat start : Nat) (invert pam4 : Bool) : List Nat :=
  levelsOf (pam4 || pat == 5) (patternBits n pat start invert pam4)

end Sys2Proof.Machine
end

