-- ==== Sys2Proof/Machine/Lanes.lean ====
section
/-! DEFINITION. Serial lanes (chapter 12). -/

namespace Sys2Proof.Machine

/-! ### Lanes, quads and ports -/

/-- A lane at rest. -/
def Lane.idle : Lane where
  allow := 0
  fixed := 0
  send := 0
  seq := 0
  caps := 0
  capOut := false
  capIn := false
  step := 1
  rate := 0
  failed := 15
  reqOut := false
  reqIn := false
  doneOut := false
  doneIn := false
  okOut := false
  okIn := false
  measured := false
  measuring := false
  abort := false
  heard := false
  silent := false
  term := false
  misses := 0
  stored := none
  prev := none
  errs := 0
  bits := 0
  hit := false
  past := []
  good := 0
  winBits := 0
  winErrs := 0
  awake := false
  types := 0
  fecIn := 0
  fecOut := 0
  fec := 0
  plus := false
  tx := []
  rx := []

/-- A lane. -/
def State.lane (s : State) (d : Die) (l : Nat) : Lane := Tbl.get Lane.idle s.lanes (d.idx * 48 + l)

/-- Change a lane. -/
def State.onLane (s : State) (d : Die) (l : Nat) (f : Lane → Lane) : State :=
  s.setLanes (Tbl.set s.lanes (d.idx * 48 + l) (f (s.lane d l)))

/-- The state of a lane (R339): 0 OFF, 1 IDLE, 2 DETECT, 3 FLOOR, 4 STEP, 5 UP, 6 RECOVER, 7 LOWPOWER, 8 TEST, 9 HELD, 10 SAFE,
11 EXTERNAL. -/
def State.laneSt (s : State) (d : Die) (l : Nat) : Nat := s.get (atUnit d l) .LAN_LANE_STAT_STATE

/-- A port of a packet engine at rest. -/
def PktPort.idle : PktPort := ⟨false, false, [], 8, [], [], [], [], 0, 0, 0⟩

/-- A port of a packet engine. -/
def State.port (s : State) (d : Die) (p : Nat) : PktPort := Tbl.get PktPort.idle s.ports (d.idx * 48 + p)

/-- Put a port. -/
def State.setPort (s : State) (d : Die) (p : Nat) (x : PktPort) : State := s.setPorts (Tbl.set s.ports (d.idx * 48 + p) x)

/-- Put the state of a lane. -/
def State.setLaneSt (s : State) (d : Die) (l n : Nat) : State := s.put (atUnit d l) .LAN_LANE_STAT_STATE n

/-- The role of a lane's quad (R334): 0 Ethernet, 1 CXL, 2 PCIe, 3 raw. -/
def State.laneRole (s : State) (d : Die) (l : Nat) : Nat := s.get (atUnit d (l / 4)) .LAN_QUAD_CFG_ROLE

/-- Whether a lane is managed by this chapter (R335). -/
def State.laneOwn (s : State) (d : Die) (l : Nat) : Bool := s.laneRole d l == 0 || s.laneRole d l == 3

/-- The mode of a MAC block (R366). -/
def State.macOf (s : State) (d : Die) (m : Nat) : Nat := Tbl.get 0 s.macMode (d.idx * 12 + m)

/-- The rate code of a MAC mode (R366). -/
def macCode (mode : Nat) : Nat := if mode < 3 then 13 else if mode < 5 then 9 else if mode = 5 then 6 else 0

/-- The lanes of each port of a MAC mode. -/
def macWidth (mode : Nat) : Nat := if mode = 0 ∨ mode = 3 then 4 else if mode = 1 then 2 else 1

/-- The rate of a port in Mbit/s (R366). -/
def macRate (mode : Nat) : Nat :=
  match mode with
  | 0 => 400000 | 1 => 200000 | 2 => 100000 | 3 => 100000 | 4 => 25000 | 5 => 10000 | _ => 1000

/-- The lanes of the port that a lane belongs to, the lowest first (R344, R366). -/
def State.portLanes (s : State) (d : Die) (l : Nat) : List Nat :=
  if s.laneRole d l = 0 then
    let w := macWidth (s.macOf d (l / 4))
    (List.range w).map fun i => l / w * w + i
  else [l]

/-- Whether a lane runs its port's survey or negotiation. -/
def State.leads (s : State) (d : Die) (l : Nat) : Bool := (s.portLanes d l).head? == some l

/-- The lanes of a lane's port that stand in a bring-up or after one: those in OFF, IDLE, DETECT, SAFE and EXTERNAL leave their state only as
R339 says for each. -/
def State.liveLanes (s : State) (d : Die) (l : Nat) : List Nat :=
  (s.portLanes d l).filter fun m => !([0, 1, 2, 10, 11].contains (s.laneSt d m))

/-- Do something on every such lane of a lane's port. -/
def State.onPort (s : State) (d : Die) (l : Nat) (f : State → Nat → State) : State := (s.liveLanes d l).foldl f s

/-- Whether a raw lane carries words of 120 bits (R361). -/
def State.w120 (s : State) (d : Die) (l : Nat) : Bool := !s.flag (atUnit d l) .LAN_LANE_CFG_W128

/-- The rate codes a lane may use in survey (R336, R362). -/
def State.usable (s : State) (d : Die) (l : Nat) : Nat :=
  let a := s.get (atUnit d l) .LAN_LANE_CFG_ALLOW
  if s.laneRole d l = 0 then a &&& 0x2241 else if s.w120 d l then a &&& 0x3FFF else a

/-- A rate in kbit/s (R336). -/
def State.kbps (s : State) (d : Die) (l code : Nat) : Nat :=
  match code with
  | 0 => 1250000 | 1 => 2500000 | 2 => 3125000 | 3 => 5000000 | 4 => 6250000 | 5 => 9830400 | 6 => 10312500 | 7 => 12500000
  | 8 => 24330240 | 9 => 25781250 | 10 => 28125000 | 11 => 32000000 | 12 => 53125000 | 13 => 106250000 | 14 => 112000000
  | _ => s.get (atUnit d l) .LAN_LANE_FREQ_KBPS

/-- Whether a fixed rate fits its lane (R336, R349, R362). -/
def State.fixedFits (s : State) (d : Die) (l code : Nat) : Bool :=
  if s.laneRole d l = 0 then code == macCode (s.macOf d (l / 4))
  else
    let k := s.kbps d l code
    if code = 15 then
      (if s.flag (atUnit d l) .LAN_LANE_FREQ_PAM4 then 40000000 ≤ k && k ≤ 112000000 else 1250000 ≤ k && k ≤ 32000000) &&
        !(s.w120 d l && 107890000 < k)
    else !(s.w120 d l && code == 14)

/-- The highest temperature of a die, in 0.25 °C (R517). -/
def State.dieTemp (s : State) (d : Die) : Int := signedOf 16 (s.get (atSel d 0) .PWR_TEMP_HIGHEST)

/-! ### Recovered clocks (R363, R364) -/

/-- The selectors of a die. -/
def rckCtrl (n : Nat) : Reg := if n = 0 then .LAN_RCK0_CTRL else .LAN_RCK1_CTRL

/-- EN, SQUELCHED, LANE and DIV of a selector. -/
def rckEn (n : Nat) : Fld := if n = 0 then .LAN_RCK0_CTRL_EN else .LAN_RCK1_CTRL_EN
/-- SQUELCHED of a selector. -/
def rckSq (n : Nat) : Fld := if n = 0 then .LAN_RCK0_CTRL_SQUELCHED else .LAN_RCK1_CTRL_SQUELCHED
/-- LANE of a selector. -/
def rckLane (n : Nat) : Fld := if n = 0 then .LAN_RCK0_CTRL_LANE else .LAN_RCK1_CTRL_LANE
/-- DIV of a selector. -/
def rckDiv (n : Nat) : Fld := if n = 0 then .LAN_RCK0_CTRL_DIV else .LAN_RCK1_CTRL_DIV

/-- Whether a selector's output runs. -/
def State.rckRuns (s : State) (src : Nat) : Bool := s.flag (atDie (if src < 2 then .e0 else .e1)) (rckEn (src % 2))

/-- RCLK_OUT0 and RCLK_OUT1 follow their enables and sources. -/
def State.rclkSync (s : State) : State :=
  s.setPins { s.pins with
    rclk0 := s.flag (atDie .e0) .LAN_RCLK_OUT_EN0 && s.rckRuns (s.get (atDie .e0) .LAN_RCLK_OUT_SRC0)
    rclk1 := s.flag (atDie .e0) .LAN_RCLK_OUT_EN1 && s.rckRuns (s.get (atDie .e0) .LAN_RCLK_OUT_SRC1) }

/-- A selector squelches. -/
def State.squelchOne (s : State) (d : Die) (n : Nat) : State :=
  let s := (s.puts (atDie d) [(rckEn n, 0), (rckSq n, 1)]).rclkSync
  s.raise d Ev.LAN_RCLK_SQUELCH (n + s.get (atDie d) (rckLane n) * 2 ^ 8)

/-- The selectors that take a lane's clock squelch. -/
def State.squelch (s : State) (d : Die) (l : Nat) : State :=
  [0, 1].foldl (fun s n => if s.flag (atDie d) (rckEn n) && s.get (atDie d) (rckLane n) == l then s.squelchOne d n else s) s

/-- Put the rate in force and the lock of a lane: a selector that takes its clock squelches where the rate changes or the lock is lost
(R364). -/
def State.lanePhy (s : State) (d : Die) (l rate locked : Nat) : State :=
  let a := atUnit d l
  let moves := rate % 16 != s.get a .LAN_LANE_STAT_RATE || (locked == 0 && s.flag a .LAN_LANE_STAT_LOCKED)
  (if moves then s.squelch d l else s).puts a [(.LAN_LANE_STAT_RATE, rate), (.LAN_LANE_STAT_LOCKED, locked)]

/-- A lane's CDR loses lock. -/
def State.laneUnlock (s : State) (d : Die) (l : Nat) : State := s.lanePhy d l (s.get (atUnit d l) .LAN_LANE_STAT_RATE) 0

/-- A write of LAN_RCKn_CTRL (R364): EN stays only where the lane is locked; a divider that gives more than 400 MHz squelches. -/
def State.rckWrite (s : State) (d : Die) (n : Nat) (v : Word) : State :=
  let s := s.writeReg (atDie d) (rckCtrl n) v
  let l := s.get (atDie d) (rckLane n)
  let div := Nat.max 1 (s.get (atDie d) (rckDiv n))
  if !s.flag (atDie d) (rckEn n) then s.rclkSync
  else if 48 ≤ l ∨ s.flag (atUnit d l) .LAN_LANE_STAT_LOCKED = false then (s.put (atDie d) (rckEn n) 0).rclkSync
  else if 400000 * div < s.kbps d l (s.get (atUnit d l) .LAN_LANE_STAT_RATE) then s.squelchOne d n
  else s.rclkSync

/-- LAN_RCKn_CTRL is written. -/
def execRecoveredClockEnable (die : PDie) (selector : Fin 2) (value : Word) (s : State) : Res :=
  .next (s.rckWrite die.die selector value)

/-! ### Going up and down -/

/-- LAN_LINK of a lane (R365). -/
def State.laneLink (s : State) (d : Die) (l up cause : Nat) : State :=
  let a := atUnit d l
  s.raise d (256 + l) (up + s.get a .LAN_LANE_STAT_RATE * 2 ^ 8 + cause * 2 ^ 16 + s.get a .LAN_LANE_FOM_AT_COMMIT * 2 ^ 24)

/-- An UP lane leaves UP for another state, with the cause of LAN_LINK: 0 signal lost, 1 partner left, 2 SAFE, 3 command, 4 TEST. A
lane that is not UP only takes the state. -/
def State.laneLeave (s : State) (d : Die) (l st cause : Nat) : State :=
  let old := s.laneSt d l
  let s := s.setLaneSt d l st
  let s := if (old = 5 ∨ old = 8) ∧ st ≠ 5 ∧ st ≠ 8 then (s.squelch d l).onLane d l fun x => { x with tx := [], rx := [] } else s
  if old = 5 then
    let s := s.setPorts (s.ports.map fun e =>
      if e.1 / 48 = d.idx ∧ (s.portLanes d l).contains (e.1 % 48) then (e.1, { e.2 with verified := false, pcs := false }) else e)
    let s := if st = 7 ∨ st = 8 then s else s.bump (atUnit d l) .LAN_LANE_CNT_DOWNS 1
    s.laneLink d l 0 cause
  else s

/-- A lane enters UP. -/
def State.laneUp (s : State) (d : Die) (l : Nat) : State := (s.setLaneSt d l 5).laneLink d l 1 0

/-- LAN_BRINGUP_END of a lane, with its RESULT (R365). -/
def State.laneEnd (s : State) (d : Die) (l result : Nat) : State :=
  let a := atUnit d l
  let s := s.put a .LAN_LANE_STAT_RESULT result
  s.raise d (352 + l) (result + s.get a .LAN_LANE_STAT_RATE * 2 ^ 8 + s.get a .LAN_LANE_STAT_STEPS * 2 ^ 16 +
    s.get a .LAN_LANE_STAT_ABORT_LATE * 2 ^ 24 + s.get a .LAN_LANE_STAT_PROTO * 2 ^ 32)

/-- The lanes of a port enter HELD at the floor rate, with the bring-up's result. -/
def State.portHeld (s : State) (d : Die) (l result : Nat) (abort : Bool) : State :=
  let survey := s.get (atUnit d l) .LAN_LANE_STAT_PROTO = 0
  let s := s.onPort d l fun s m =>
    ((s.laneLeave d m 9 3).lanePhy d m 0 (s.get (atUnit d m) .LAN_LANE_STAT_LOCKED)).onLane d m fun x =>
      { x with send := if survey ∧ m = l then 4 else 0, abort := abort }
  s.laneEnd d l result

/-- The lanes of a port enter UP at the rate of the commit, with RESULT = DONE; a lane in UP has its CDR locked (R352; DEDUCED,
log entry 211). -/
def State.portCommit (s : State) (d : Die) (l : Nat) : State :=
  let s := s.onPort d l fun s m =>
    let a := atUnit d m
    (s.puts a [(.LAN_LANE_FOM_AT_COMMIT, s.get a .LAN_LANE_FOM_LAST), (.LAN_LANE_STAT_LOCKED, 1), (.LAN_LANE_STAT_RESULT, 1)]).onLane d m
      fun x => { x with send := 0 }
  let s := s.onPort d l fun s m => s.laneUp d m
  s.laneEnd d l 1

/-- The PHY types of R347 in the order of its table: lanes and rate code. -/
def phyTypes : List (Nat × Nat) := [(1, 0), (1, 6), (1, 9), (4, 9), (1, 13), (2, 13), (4, 13)]

/-- The lead lane of a port sends its Clause 73 page (R347): every PHY type with the port's lane count and a rate code in ALLOW, the pause
ability of the MAC port, FEC bits of the image, which no field gives, and a Nonce from the random source (DESIGN CHOICE, log entry 216). -/
def State.c73Send (s : State) (d : Die) (l : Nat) : State :=
  if s.leads d l then
    let types := (phyTypes.zipIdx).foldl (fun n e =>
      if e.1.1 == (s.portLanes d l).length && bitOf (s.lane d l).allow e.1.2 then n ||| 2 ^ e.2 else n) 0
    let pause := s.flag (atUnit d l) .PKT_PORT_CFG_PAUSE_EN
    let fec := s.free 4
    let s := s.used.onLane d l fun x => { x with fecOut := fec }
    (s.used).emit (.c73Page d.idx l types pause fec (s.free 5))
  else s

/-- A lane's detectors stop in OFF and IDLE, where nothing is found: PRESENT falls at once (R339, R340; DESIGN CHOICE, log entry 242). -/
def State.presenceEnd (s : State) (d : Die) (l : Nat) : State :=
  if s.flag (atUnit d l) .LAN_LANE_STAT_PRESENT then (s.put (atUnit d l) .LAN_LANE_STAT_PRESENT 0).raise d (304 + l) 0 else s

/-- A partner has been detected at the floor rate: in FIXED mode the lane switches to its fixed rate, or ends with NO_RATE (R349). -/
def State.fixedGo (s : State) (d : Die) (l : Nat) : State :=
  let fixed := (s.lane d l).fixed
  if s.fixedFits d l fixed then (s.setLaneSt d l 4).lanePhy d l fixed 0 else (s.setLaneSt d l 9).laneEnd d l 3

/-- A bring-up of one lane starts (R341): in FLOOR at code 0, and in FIXED mode at once at the fixed rate where a partner has been detected
(R349). -/
def State.laneStart (s : State) (d : Die) (l : Nat) : State :=
  let a := atUnit d l
  let cfg := s.get a .LAN_LANE_CFG_MODE
  let mode := if cfg = 1 ∧ s.laneRole d l = 3 then 2 else cfg
  let fixed := s.get a .LAN_LANE_CFG_FIXED_RATE
  let s := s.onLane d l fun x =>
    { Lane.idle with
      allow := s.usable d l, fixed := fixed, send := if mode = 0 then 1 else 0, seq := x.seq, term := x.term, errs := x.errs,
      bits := x.bits, hit := x.hit, past := x.past, good := x.good, winBits := x.winBits, winErrs := x.winErrs }
  if mode = 3 then ((s.laneLeave d l 0 3).laneUnlock d l).presenceEnd d l
  else
    let s := ((s.laneLeave d l 3 3).lanePhy d l 0 0).puts a [(.LAN_LANE_STAT_PROTO, mode), (.LAN_LANE_STAT_STEPS, 0), (.LAN_LANE_STAT_RESULT, 0)]
    if mode = 1 then s.c73Send d l
    else if mode = 2 ∧ s.flag a .LAN_LANE_STAT_PRESENT = true then s.fixedGo d l
    else s

/-- The lanes of a port start a new bring-up in FLOOR; an UP lane among them goes down with a cause. -/
def State.portStart (s : State) (d : Die) (l cause : Nat) : State :=
  s.onPort d l fun s m => (s.laneLeave d m 3 cause).laneStart d m

/-- A partner arrives (R340). -/
def State.partnerArrive (s : State) (d : Die) (l : Nat) : State :=
  let a := atUnit d l
  if s.flag a .LAN_LANE_STAT_PRESENT then s
  else
    let s := (s.put a .LAN_LANE_STAT_PRESENT 1).raise d (304 + l) 1
    if s.laneSt d l = 2 ∧ s.flag a .LAN_LANE_CFG_AUTO_START = true then s.laneStart d l
    else if s.laneSt d l = 3 ∧ s.get a .LAN_LANE_STAT_PROTO = 2 then s.fixedGo d l
    else s

/-- A partner leaves (R340). -/
def State.partnerLeave (s : State) (d : Die) (l : Nat) : State :=
  let a := atUnit d l
  let st := s.laneSt d l
  let s := (s.put a .LAN_LANE_STAT_PRESENT 0).raise d (304 + l) 0
  if st = 0 ∨ st = 1 ∨ st = 10 ∨ st = 11 then s
  else
    let s := s.laneLeave d l 2 1
    let s := if st = 3 ∨ st = 4 then s.laneEnd d l 4 else s
    (s.lanePhy d l 0 0).onLane d l fun x => { x with send := 0, stored := none }

/-! ### Detection -/

/-- The states in which receiver detect runs (R340). -/
def detects (st : Nat) : Bool := st == 2 || st == 9 || st == 7

/-- A receiver detect, each 1 ms: where the transmitter runs, only signal detect keeps PRESENT. -/
def execReceiverDetect (die : PDie) (lane : Fin 48) (found : Bool) (s : State) : Res :=
  let d := die.die
  let l := lane.val
  let st := s.laneSt d l
  let here := (detects st && found) || s.flag (atUnit d l) .LAN_LANE_STAT_SIGDET
  let misses := if here then 0 else Nat.min 2 ((s.lane d l).misses + 1)
  .next (if !s.laneOwn d l ∨ st = 0 ∨ st = 1 ∨ st = 11 then s
  else
    let s := s.onLane d l fun x => { x with term := detects st && found, misses := misses }
    if here then s.partnerArrive d l
    else if misses = 2 ∧ s.flag (atUnit d l) .LAN_LANE_STAT_PRESENT = true then s.partnerLeave d l
    else s)

/-- Signal detect finds or loses energy (R340). -/
def execSignalDetectChange (die : PDie) (lane : Fin 48) (energy : Bool) (s : State) : Res :=
  let d := die.die
  let l := lane.val
  .next (if !s.laneOwn d l then s
  else
    let s := s.put (atUnit d l) .LAN_LANE_STAT_SIGDET (natOf energy)
    if energy && s.laneSt d l != 0 && s.laneSt d l != 1 then (s.onLane d l fun x => { x with misses := 0 }).partnerArrive d l else s)

/-! ### Survey (R343 to R346) -/

/-- Whether a lane runs a survey in one of these states. -/
def State.surveys (s : State) (d : Die) (l : Nat) (sts : List Nat) : Bool :=
  s.laneOwn d l && s.get (atUnit d l) .LAN_LANE_STAT_PROTO == 0 && sts.contains (s.laneSt d l) && s.leads d l

/-- The lowest FOM of a lane's port. -/
def State.portFom (s : State) (d : Die) (l : Nat) : Nat :=
  (s.portLanes d l).foldl (fun n m => Nat.min n (s.get (atUnit d m) .LAN_LANE_FOM_LAST)) 255

/-- Whether every lane of a port has reached MIN. -/
def State.fomOk (s : State) (d : Die) (l : Nat) : Bool := decide (s.get (atDie d) .LAN_FOM_CFG_MIN ≤ s.portFom d l)

/-- The survey frame that a lane sends now (R343): its bytes 0 to 27. -/
def State.surveyFrame (s : State) (d : Die) (l : Nat) : List Nat :=
  let x := s.lane d l
  let done := x.send = 3
  let flags := natOf (decide (3 ≤ x.caps)) + natOf (done && x.okOut) * 2 + natOf (decide (x.send = 4) && x.abort) * 4
  let body := [x.send, x.seq, 1, flags] ++ bytesLE x.allow 2 ++
    [if x.send = 2 ∨ x.send = 3 then x.rate else 0xFF, if done then s.portFom d l else 0, (s.portLanes d l).length, x.step % 256] ++
    bytesLE 0x0880 2 ++ bytesLE (Config.dieUid d.idx).toNat 8 ++ [d.idx, l, 0, 0]
  body ++ bytesLE (crc32c body) 4

/-- The step fails (R345): back to the floor rate, for the next step. -/
def State.stepFail (s : State) (d : Die) (l : Nat) : State :=
  let s := s.onPort d l fun s m => (s.setLaneSt d m 3).lanePhy d m 0 0
  s.onLane d l fun x =>
    { x with
      send := 1, caps := 0, capOut := false, capIn := false, step := x.step + 1, failed := x.rate, reqOut := false, reqIn := false, doneOut := false,
      doneIn := false }

/-- STEP_DONE has been sent and received: the step commits at its rate, or fails (R344, R345). `abort`: an ABORT is written in this cycle. -/
def State.stepSettle (s : State) (d : Die) (l : Nat) (abort : Bool) : State :=
  let x := s.lane d l
  if x.doneOut && x.doneIn then
    if x.okOut && x.okIn then
      let s := s.onPort d l fun s m => s.lanePhy d m x.rate (s.get (atUnit d m) .LAN_LANE_STAT_LOCKED)
      (if abort then s.put (atUnit d l) .LAN_LANE_STAT_ABORT_LATE 1 else s).portCommit d l
    else s.stepFail d l
  else s

/-- The highest code of two ALLOW fields below a bound, or 0. -/
def stepRate (a b bound : Nat) : Nat :=
  (List.range 15).foldl (fun r c => if c < bound && bitOf a c && bitOf b c then c else r) 0

/-- The step rate is chosen (R344 step 2). -/
def State.stepChoose (s : State) (d : Die) (l : Nat) : State :=
  let x := s.lane d l
  let peer := s.get (atUnit d l) .LAN_LANE_PARTNER_PALLOW
  let r := stepRate x.allow peer x.failed
  let s := s.put (atUnit d l) .LAN_LANE_STAT_STEPS (Nat.min 15 x.step)
  if r ≠ 0 then s.onLane d l fun x => { x with send := 2, rate := r }
  else if bitOf x.allow 0 && bitOf peer 0 then s.onLane d l fun x => { x with send := 3, rate := 0, okOut := true }
  else s.portHeld d l 3 false

/-- LAN_LANE_CMD.ABORT (R346): ignored without a flag where no survey runs on the lane. -/
def State.laneAbort (s : State) (d : Die) (l : Nat) : State := if s.surveys d l [3, 4] then s.portHeld d l 2 true else s

/-- A lane has sent and received a CAP with RX_OK, and chooses the step rate (R344 step 2). -/
def Lane.chooses (x : Lane) : Bool := x.send == 1 && x.capOut && x.capIn

/-- An ABORT written in the cycle of a frame aborts a survey that has not committed in it (R346). -/
def State.abortIf (s : State) (d : Die) (l : Nat) (abort : Bool) : State := if abort then s.laneAbort d l else s

/-- A survey end sends its current frame. -/
def execSurveyFrameSend (die : PDie) (lane : Fin 48) (abort : Bool) (s : State) : Res :=
  let d := die.die
  let l := lane.val
  let x := s.lane d l
  .next ((if s.surveys d l [3, 4, 9] && x.send != 0 then
    let bytes := s.surveyFrame d l
    let line := codeGroups (idlePair ++ surveyGroups bytes) x.plus
    let s := (s.emit (.survey d.idx l bytes (levelsOf (s.pam4 d l) line.1))).onLane d l fun x =>
      { x with
        plus := line.2, seq := (x.seq + 1) % 256, reqOut := x.reqOut || x.send == 2, doneOut := x.doneOut || x.send == 3
        capOut := x.capOut || (x.send == 1 && x.caps == 3) }
    if x.send = 3 then s.stepSettle d l abort
    else if (s.lane d l).chooses then s.stepChoose d l
    else s
  else s).abortIf d l abort)

/-- A received frame that is valid and of a type (R343). -/
def surveyValid (f : List Nat) (type : Nat) : Bool := f.getD 0 0 == type && crc32c (f.take 24) == fieldLE f 24 4

/-- A CAP frame arrives; a frame that is not valid is discarded and breaks the row. -/
def execSurveyCapReceived (die : PDie) (lane : Fin 48) (frame : BitVec 224) (s : State) : Res :=
  let d := die.die
  let l := lane.val
  let f := bytesLE frame.toNat 28
  .next (if !s.surveys d l [3] then s
  else if !surveyValid f 1 then s.onLane d l fun x => if x.send = 1 then { x with caps := 0, capOut := false } else x
  else
    let s := s.onLane d l fun x =>
      { x with heard := true, caps := Nat.min 3 (x.caps + 1), capIn := x.capIn || (x.send == 1 && bitOf (f.getD 3 0) 0) }
    let s := s.puts (atUnit d l) [(.LAN_LANE_PARTNER_PALLOW, fieldLE f 4 2), (.LAN_LANE_PARTNER_PLANES, f.getD 8 0)]
    if f.getD 8 0 ≠ (s.portLanes d l).length then s.portHeld d l 6 false
    else if (s.lane d l).chooses then s.stepChoose d l
    else s)

/-- A STEP_REQ frame arrives. -/
def execSurveyStepReqReceived (die : PDie) (lane : Fin 48) (frame : BitVec 224) (s : State) : Res :=
  let d := die.die
  let l := lane.val
  let f := bytesLE frame.toNat 28
  let x := s.lane d l
  .next (if s.surveys d l [3] && surveyValid f 2 then
    if x.send = 2 ∧ f.getD 6 0 = x.rate ∧ f.getD 9 0 = x.step % 256 then s.onLane d l fun x => { x with reqIn := true, heard := true }
    else s.onLane d l fun x => { x with heard := true }
  else s)

/-- 20 µs after STEP_REQ has been sent and received, the lanes of the port switch to the step rate and enter STEP. -/
def execSurveyRateSwitch (die : PDie) (lane : Fin 48) (s : State) : Res :=
  let d := die.die
  let l := lane.val
  let x := s.lane d l
  .next (if s.surveys d l [3] && x.send == 2 && x.reqOut && x.reqIn then
    let s := s.onLane d l fun x => { x with send := 0, doneOut := false, doneIn := false }
    s.onPort d l fun s m =>
      ((s.laneLeave d m 4 3).lanePhy d m x.rate 0).onLane d m fun y =>
        { y with measured := false }
  else s)

/-- Training at the step rate ends: the receiver is locked, and the FOM measurement follows. -/
def execLaneTrainingDone (die : PDie) (lane : Fin 48) (s : State) : Res :=
  let a := atUnit die.die lane
  .next (if s.laneSt die.die lane = 4 ∧ s.get a .LAN_LANE_STAT_PROTO ≠ 2 then s.put a .LAN_LANE_STAT_LOCKED 1 else s)

/-- A STEP_DONE frame arrives. -/
def execSurveyStepDoneReceived (die : PDie) (lane : Fin 48) (frame : BitVec 224) (abort : Bool) (s : State) : Res :=
  let d := die.die
  let l := lane.val
  let f := bytesLE frame.toNat 28
  let x := s.lane d l
  .next ((if s.surveys d l [3, 4] && surveyValid f 3 && f.getD 6 0 == x.rate && f.getD 9 0 == x.step % 256 then
    let s := (s.put (atUnit d l) .LAN_LANE_PARTNER_PFOM (f.getD 7 0)).onLane d l fun x =>
      { x with doneIn := true, okIn := bitOf (f.getD 3 0) 1, heard := true }
    s.stepSettle d l abort
  else s).abortIf d l abort)

/-- A HOLD frame arrives: the survey ends (R346). -/
def execSurveyHoldReceived (die : PDie) (lane : Fin 48) (frame : BitVec 224) (s : State) : Res :=
  .next (if s.surveys die.die lane [3, 4] && surveyValid (bytesLE frame.toNat 28) 4 then s.portHeld die.die lane 5 false else s)

/-- Back to FLOOR for a new negotiation (R347). -/
def State.c73Restart (s : State) (d : Die) (l : Nat) : State :=
  ((s.onPort d l fun s m => (s.setLaneSt d m 3).lanePhy d m 0 0).onLane d l fun x => { x with types := 0, fecIn := 0 }).c73Send d l

/-- Training runs past its limit (R345, R347). -/
def execLaneTrainingTimeout (die : PDie) (lane : Fin 48) (s : State) : Res :=
  let d := die.die
  let l := ((s.portLanes d lane).head?).getD lane
  .next (if s.laneSt d lane ≠ 4 ∨ s.laneOwn d lane = false then s
  else match s.get (atUnit d l) .LAN_LANE_STAT_PROTO with
    | 0 => s.stepFail d l
    | 1 => s.c73Restart d l
    | _ => s)

/-- No STEP_DONE has come 10 ms after the first was sent. -/
def execStepDoneTimeout (die : PDie) (lane : Fin 48) (s : State) : Res :=
  let x := s.lane die.die lane
  .next (if s.surveys die.die lane [3, 4] && x.doneOut && !x.doneIn then s.stepFail die.die lane else s)

/-- A lane in FLOOR with a signal has heard nothing valid for 1 s (R342): once, and again only where something valid has come since (DESIGN
CHOICE, log entry 243). -/
def execLanSilent (die : PDie) (lane : Fin 48) (s : State) : Res :=
  let d := die.die
  let a := atUnit d lane
  let x := s.lane d lane
  .next (if s.laneSt d lane == 3 && s.flag a .LAN_LANE_STAT_SIGDET && s.get a .LAN_LANE_STAT_PROTO != 2 && (x.heard || !x.silent) then
    (s.onLane d lane fun x => { x with silent := true, heard := false }).raise d Ev.LAN_SILENT (lane + s.get a .LAN_LANE_STAT_PROTO * 2 ^ 8)
  else s)

/-- LAN_LANE_CMD.ABORT is written. -/
def execLaneAbort (die : PDie) (lane : Fin 48) (s : State) : Res := .next (s.laneAbort die.die lane)

/-! ### Clause 73 and fixed rate -/

/-- The FEC of a port whose PHY type Clause 73 has resolved (R347): 0 none, 1 Clause 74, 2 RS-FEC. The FEC bits of a page, from bit 0, are
IEEE 802.3's F0 to F3: 10 Gbit/s FEC ability and request, and the requests of RS-FEC and of Clause 74 at 25 Gbit/s; RS-FEC wins where an end
asks for it (PRESUMED, log entry 244). -/
def fecOf (lanes code own peer : Nat) : Nat :=
  let both := own &&& peer
  let either := own ||| peer
  if code = 0 then 0
  else if code = 6 then natOf (bitOf both 1)
  else if code = 9 ∧ lanes = 1 then (if bitOf either 2 then 2 else if bitOf either 3 then 1 else 0)
  else 2

/-- A Clause 73 page arrives (R347, R348): the PHY types it advertises, bit k for type k of the table, its FEC bits from bit 7, and whether
the exchange is complete. What a later page does not carry stays as an earlier one gave it. The highest PHY type that both ends advertise
sets the rate and the FEC. While the partner has next pages, the lane answers with a null message page. -/
def execC73PageReceived (die : PDie) (lane : Fin 48) (types : BitVec 11) (complete : Bool) (s : State) : Res :=
  let d := die.die
  let l := lane.val
  let a := atUnit d l
  let seen := (s.lane d l).types ||| types.toNat % 2 ^ 7
  let fecIn := (s.lane d l).fecIn ||| types.toNat / 2 ^ 7
  let offered := (phyTypes.zipIdx).filter fun e => bitOf seen e.2
  let codes := offered.foldl (fun n e => n ||| 2 ^ e.1.2) 0
  .next (if s.laneOwn d l && s.leads d l && s.laneSt d l == 3 && s.get a .LAN_LANE_STAT_PROTO == 1 then
    let x := s.lane d l
    let s := (s.put a .LAN_LANE_PARTNER_PALLOW codes).onLane d l fun x => { x with heard := true, types := seen, fecIn := fecIn }
    let common := offered.filter fun e => e.1.1 == (s.portLanes d l).length && bitOf x.allow e.1.2
    match complete, common.getLast? with
    | true, some (e, _) =>
      s.onPort d l fun s m =>
        ((s.laneLeave d m 4 3).lanePhy d m e.2 0).onLane d m fun y =>
          { y with measured := false, rate := e.2, fec := fecOf e.1 e.2 x.fecOut fecIn }
    | true, none => s
    | false, _ => s.emit (.c73Null d.idx l)
  else s)

/-- A Clause 73 timer fails. -/
def execC73TimerFailure (die : PDie) (lane : Fin 48) (s : State) : Res :=
  let d := die.die
  .next (if s.laneOwn d lane && s.leads d lane && s.get (atUnit d lane) .LAN_LANE_STAT_PROTO == 1 &&
      (s.laneSt d lane == 3 || s.laneSt d lane == 4) then s.c73Restart d lane else s)

/-- The PCS of a port reports block lock (R366). -/
def State.pcsLock (s : State) (d : Die) (l : Nat) : State := s.setPort d l { s.port d l with pcs := true }

/-- The PCS reports link: a port whose Clause 73 training it ends goes UP (R347), and an Ethernet port that is UP carries frames (R366). -/
def execPcsLinkUp (die : PDie) (lane : Fin 48) (s : State) : Res :=
  let d := die.die
  .next (if s.laneRole d lane == 0 && s.leads d lane then
    if s.get (atUnit d lane) .LAN_LANE_STAT_PROTO == 1 && s.laneSt d lane == 4 then (s.portCommit d lane).pcsLock d lane
    else if (s.portLanes d lane).all fun m => s.laneSt d m == 5 then s.pcsLock d lane
    else s
  else s)

/-- The longest run of open positions of a map of `n` positions, and the run that reaches its end. -/
def openRuns : Nat → (Nat → Bool) → Nat × Nat
  | 0, _ => (0, 0)
  | n + 1, f => let r := openRuns n f; let now := if f n then r.2 + 1 else 0; (Nat.max r.1 now, now)

/-- The longest run of open positions. -/
def openRun (n v : Nat) : Nat := (openRuns n (bitOf v)).1

/-- The figure of merit of R350. -/
def fomOf (w h : Nat) : Nat := Nat.min 255 (w * h / 32)

/-- W and H of an eye measurement (R350): the positions that the monitor has found open, phases and then voltages at the centre phase, of
one eye in NRZ and of three in PAM4, of which the one with the lowest figure counts. An eye that a map is not given for is closed. -/
def eyeOf (pam4 : Bool) (w : List (BitVec 64)) (h : List (BitVec 128)) : Nat × Nat :=
  let eye (i : Nat) : Nat × Nat := (openRun 64 (w.getD i 0).toNat, openRun 128 (h.getD i 0).toNat)
  if pam4 then [1, 2].foldl (fun e i => if fomOf (eye i).1 (eye i).2 < fomOf e.1 e.2 then eye i else e) (eye 0) else eye 0

/-- Record a measurement in LAN_LANE_FOM. -/
def State.putFom (s : State) (d : Die) (l w h : Nat) : State :=
  (s.puts (atUnit d l) [(.LAN_LANE_FOM_LAST, fomOf w h), (.LAN_LANE_FOM_WIDTH, w), (.LAN_LANE_FOM_HEIGHT, h)]).onLane d l fun x =>
    { x with measured := true, measuring := false }

/-- A fixed-rate port is UP once every lane of it has locked with a FOM of at least MIN (R349). -/
def State.fixedSettle (s : State) (d : Die) (l : Nat) : State :=
  if s.fomOk d l && (s.portLanes d l).all fun m =>
      s.laneSt d m == 4 && s.flag (atUnit d m) .LAN_LANE_STAT_LOCKED && (s.lane d m).measured && (s.lane d m).prev.isNone then
    s.portCommit d (((s.portLanes d l).head?).getD l)
  else s

/-- In fixed-rate mode the CDR locks, with the eye it sees (R349). -/
def execCdrLock (die : PDie) (lane : Fin 48) (w : List (BitVec 64)) (h : List (BitVec 128)) (s : State) : Res :=
  let d := die.die
  let a := atUnit d lane
  let e := eyeOf (s.pam4 d lane) w h
  .next (if s.laneOwn d lane && s.laneSt d lane == 4 && s.get a .LAN_LANE_STAT_PROTO == 2 && (s.lane d lane).prev.isNone then
    ((s.put a .LAN_LANE_STAT_LOCKED 1).putFom d lane e.1 e.2).fixedSettle d lane
  else s)

/-- A fixed-rate bring-up is not UP within 1 s: it stays in STEP and tries again. -/
def execFixedRateTimeout (die : PDie) (lane : Fin 48) (s : State) : Res :=
  let d := die.die
  .next (if s.laneOwn d lane && s.laneSt d lane == 4 && s.get (atUnit d lane) .LAN_LANE_STAT_PROTO == 2 then
    s.laneEnd d lane 7 else s)

/-- LAN_RECOVER of a lane (R365). -/
def State.laneRecover (s : State) (d : Die) (l what : Nat) : State := s.raise d (400 + l) (what + s.portFom d l * 2 ^ 8)

/-- A lane enters RECOVER. -/
def State.recoverStart (s : State) (d : Die) (l cause : Nat) : State :=
  let s := (s.laneLeave d l 6 cause).laneUnlock d l
  let s := (s.bump (atUnit d l) .LAN_LANE_CNT_RECOVERS 1).onLane d l fun x => { x with measured := false }
  s.laneRecover d l 0

/-- A recovery fails: every lane of the port that recovers reports it, and a new bring-up of the port starts in FLOOR (R352, R365). -/
def State.recoverFail (s : State) (d : Die) (l : Nat) : State :=
  (((s.portLanes d l).filter fun m => s.laneSt d m == 6).foldl (fun s m => s.laneRecover d m 2) s).portStart d l 0

/-- An eye measurement ends (R350): in STEP it feeds the survey or a
fixed-rate bring-up, in RECOVER it decides the recovery, in TEST it answers MEASURE. -/
def execFomMeasurementDone (die : PDie) (lane : Fin 48) (w : List (BitVec 64)) (h : List (BitVec 128)) (s : State) : Res :=
  let d := die.die
  let l := lane.val
  let e := eyeOf (s.pam4 d l) w h
  let lead := ((s.portLanes d l).head?).getD l
  .next (if !s.laneOwn d l then s
  else match s.laneSt d l with
    | 3 => s.putFom d l e.1 e.2
    | 4 =>
      let s := s.putFom d l e.1 e.2
      if s.get (atUnit d lead) .LAN_LANE_STAT_PROTO = 0 ∧ (s.portLanes d l).all (fun m => (s.lane d m).measured) = true then
        s.onLane d lead fun x => { x with send := 3, okOut := s.fomOk d l }
      else if s.get (atUnit d l) .LAN_LANE_STAT_PROTO = 2 then s.fixedSettle d l
      else s
    | 6 =>
      let s := (s.putFom d l e.1 e.2).put (atUnit d l) .LAN_LANE_STAT_LOCKED 1
      let back := (s.portLanes d l).filter fun m => s.laneSt d m == 6
      if back.any fun m => !(s.lane d m).measured then s
      else if s.fomOk d l then back.foldl (fun s m => (s.laneRecover d m 1).laneUp d m) s
      else s.recoverFail d l
    | 8 => if (s.lane d l).measuring then s.putFom d l e.1 e.2 else s
    | _ => s)

/-- An UP lane loses lock or signal while its partner stays (R352); in TEST only the lock is lost. -/
def execLaneLockLoss (die : PDie) (lane : Fin 48) (s : State) : Res :=
  let d := die.die
  let a := atUnit d lane
  .next (if !s.laneOwn d lane then s
  else if s.laneSt d lane = 5 ∧ s.flag a .LAN_LANE_STAT_PRESENT = true then s.recoverStart d lane 0
  else if s.laneSt d lane = 8 then s.laneUnlock d lane
  else s)

/-- Recovery is not complete in 10 ms. -/
def execRecoverTimeout (die : PDie) (lane : Fin 48) (s : State) : Res :=
  .next (if s.laneOwn die.die lane && s.laneSt die.die lane == 6 then s.recoverFail die.die lane else s)

/-! ### Commands (R353, R356, R357) -/

/-- A command that does not fit the lane's state. -/
def State.laneIgnored (s : State) (d : Die) (l : Nat) : State := s.put (atUnit d l) .LAN_LANE_STAT_CMD_IGNORED 1

/-- RESTART. In OFF it acts once another MODE has been written, and leads to DETECT (R339). The other lanes of a port follow the lane that
runs its survey or negotiation to the floor (R344). -/
def State.laneRestart (s : State) (d : Die) (l : Nat) : State :=
  let a := atUnit d l
  let st := s.laneSt d l
  if st = 1 ∨ st = 10 ∨ st = 11 ∨ (st = 0 ∧ s.get a .LAN_LANE_CFG_MODE = 3) then s.laneIgnored d l
  else if st ≠ 0 ∧ s.flag a .LAN_LANE_STAT_PRESENT = true then
    let s := s.laneStart d l
    if s.leads d l && s.laneSt d l == 3 && s.get a .LAN_LANE_STAT_PROTO != 2 then
      ((s.liveLanes d l).filter (· != l)).foldl (fun s m => s.laneStart d m) s
    else s
  else (s.laneLeave d l 2 3).lanePhy d l 0 0

/-- SLEEP stores the adaptation state and stops transmitting: the receiver locks again only on a burst (R353). -/
def State.laneSleep (s : State) (d : Die) (l : Nat) : State :=
  if s.laneSt d l = 5 then ((s.laneLeave d l 7 3).laneUnlock d l).onLane d l fun x =>
      { x with stored := some (s.cycles, s.dieTemp d), awake := false }
  else s.laneIgnored d l

/-- WAKE sends a wake burst, and data after it. -/
def State.laneWake (s : State) (d : Die) (l : Nat) : State :=
  if s.laneSt d l = 7 then
    (s.onLane d l fun x => { x with awake := true }).emit (.wakeBurst d.idx l 4096 0 (if s.pam4 d l then 3 else 1))
  else s.laneIgnored d l

/-- Whether the lane rails of a port die are good (R512). -/
def State.laneRails (s : State) (d : Die) : Bool :=
  [0, 1].all fun n => s.flag (atSel .e0 ((if d = .e0 then 11 else 13) + n)) .PWR_RAIL_STAT_GOOD

/-- TX_REENABLE, ignored while the datum PLL coasts: a bring-up starts in FLOOR (R356), for the detection of a partner there in FIXED mode
(R349). -/
def State.laneReenable (s : State) (d : Die) (l : Nat) : State :=
  if s.laneSt d l = 10 ∧ s.flag (atDie .e0) .CLK_STATUS_COAST = false ∧ s.laneRails d = true then
    (s.put (atUnit d l) .LAN_LANE_STAT_TX_SAFE 0).laneStart d l
  else s.laneIgnored d l

/-- MEASURE. -/
def State.laneMeasure (s : State) (d : Die) (l : Nat) : State :=
  if s.laneSt d l = 8 then s.onLane d l fun x => { x with measuring := true } else s.laneIgnored d l

/-- A write of LAN_LANE_CMD: the commands act in bit order. -/
def State.laneCmd (s : State) (d : Die) (l v : Nat) : State :=
  let s := if bitOf v 0 then s.laneRestart d l else s
  let s := if bitOf v 1 then s.laneAbort d l else s
  let s := if bitOf v 2 then s.laneSleep d l else s
  let s := if bitOf v 3 then s.laneWake d l else s
  let s := if bitOf v 4 then s.laneReenable d l else s
  if bitOf v 5 then s.laneMeasure d l else s

/-- A write of a lane register has no effect on a lane in the CXL or PCIe role (R335), but that a command sets CMD_IGNORED (R357). -/
def State.ifOwn (s : State) (d : Die) (l : Nat) (t : State) : State := if s.laneOwn d l then t else s

/-- RESTART is written. -/
def execLaneRestart (die : PDie) (lane : Fin 48) (s : State) : Res := .next (s.laneRestart die.die lane)

/-- SLEEP is written. -/
def execLaneSleep (die : PDie) (lane : Fin 48) (s : State) : Res := .next (s.laneSleep die.die lane)

/-- WAKE is written. -/
def execLaneWake (die : PDie) (lane : Fin 48) (s : State) : Res := .next (s.laneWake die.die lane)

/-- TX_REENABLE is written. -/
def execLaneTxReenable (die : PDie) (lane : Fin 48) (s : State) : Res := .next (s.laneReenable die.die lane)

/-- MEASURE is written. -/
def execLaneMeasure (die : PDie) (lane : Fin 48) (s : State) : Res := .next (s.laneMeasure die.die lane)

/-- Whether a stored adaptation state may be used (R354). -/
def State.storedGood (s : State) (d : Die) (l : Nat) : Bool :=
  match (s.lane d l).stored with
  | none => false
  | some (t, temp) =>
    s.cycles - t ≤ 500000 * s.get (atDie d) .LAN_LP_CFG_MAX_STALE &&
      (s.dieTemp d - temp).natAbs ≤ 4 * s.get (atDie d) .LAN_LP_CFG_MAX_DT

/-- A wake burst of so many unit intervals reaches a lane in LOWPOWER (R353, R354). -/
def execWakeBurstReceived (die : PDie) (lane : Fin 48) (intervals : BitVec 16) (s : State) : Res :=
  let d := die.die
  .next (if s.laneOwn d lane && s.laneSt d lane == 7 && 1024 ≤ intervals.toNat then
    if s.storedGood d lane then ((s.put (atUnit d lane) .LAN_LANE_STAT_LOCKED 1).onLane d lane fun x => { x with stored := none }).laneUp d lane
    else
      let s := (s.bump (atUnit d lane) .LAN_LANE_CNT_WAKES_STALE 1).onLane d lane fun x => { x with stored := none }
      (s.raise d Ev.LAN_WAKE_STALE lane).recoverStart d lane 0
  else s)

/-! ### Test patterns and loopbacks (R358 to R360) -/

/-- The loopback in force on a lane: it acts in TEST (R360). -/
def State.looped (s : State) (d : Die) (l : Nat) : Nat := if s.laneSt d l = 8 then s.get (atUnit d l) .LAN_LPBK_MODE else 0

/-- Whether a near-end loopback returns a raw lane's own words: its generator, where enabled, takes their place. -/
def State.rawLooped (s : State) (d : Die) (l : Nat) : Bool :=
  (s.looped d l == 1 || s.looped d l == 2) && !s.flag (atUnit d l) .LAN_PRBS_CTRL_GEN_EN

/-- Whether the raw path of a lane carries words (R362). -/
def State.rawOn (s : State) (d : Die) (l : Nat) : Bool := s.laneRole d l == 3 && (s.laneSt d l == 5 || s.rawLooped d l)

/-- The FIFOs of a raw lane that carries no words are emptied (R362). -/
def State.rawFlush (s : State) (d : Die) (l : Nat) : State :=
  if s.rawOn d l then s else s.onLane d l fun x => { x with tx := [], rx := [] }

/-- The lane enters or leaves TEST as its generator and loopback now are. -/
def State.testSync (s : State) (d : Die) (l : Nat) : State :=
  let a := atUnit d l
  let on := s.flag a .LAN_PRBS_CTRL_GEN_EN || s.get a .LAN_LPBK_MODE != 0
  (if on && s.laneSt d l == 5 then s.laneLeave d l 8 4
  else if !on && s.laneSt d l == 8 then
    if s.flag a .LAN_LANE_STAT_LOCKED then s.laneUp d l else s.recoverStart d l 0
  else s).rawFlush d l

/-- SNAP copies both live counts in one cycle. -/
def State.prbsSnap (s : State) (d : Die) (l : Nat) : State :=
  let x := s.lane d l
  s.puts (atUnit d l) [(.LAN_PRBS_ERR_ERRORS, x.errs), (.LAN_PRBS_BITS_LO_BITS, x.bits), (.LAN_PRBS_BITS_HI_BITS, x.bits / 2 ^ 32)]

/-- CLEAR sets both live counts to 0. -/
def State.prbsClear (s : State) (d : Die) (l : Nat) : State := s.onLane d l fun x => { x with errs := 0, bits := 0, hit := false }

/-- A received bit reaches the checker (R359). Out of SYNC it predicts each bit from those received before, and comes into SYNC after 64
predicted without an error; in SYNC its pattern runs on by itself, every bit is counted until either count saturates, the threshold raises its
event once, and 64 errors in a window of 1,024 bits end SYNC (DESIGN CHOICE, log entry 245: how it resynchronises, and that windows follow
one another). -/
def State.prbsBit (s : State) (d : Die) (l : Nat) (bit : Bool) : State :=
  let a := atUnit d l
  let x := s.lane d l
  let pat := s.get a .LAN_PRBS_CTRL_CHK_PAT
  let len := (prbsTaps pat).foldl Nat.max 0
  let bit := bit != s.flag a .LAN_PRBS_CTRL_INV
  let want := prbsNext pat x.past
  let known := len ≤ x.past.length && (x.past.take len).any id
  if !s.flag a .LAN_PRBS_BITS_HI_SYNC then
    let good := if known && bit == want then x.good + 1 else 0
    let s := s.onLane d l fun x => { x with past := bit :: x.past.take 30, good := if good = 64 then 0 else good, winBits := 0, winErrs := 0 }
    if good = 64 then s.put a .LAN_PRBS_BITS_HI_SYNC 1 else s
  else
    let err := natOf (bit != want)
    let full := x.errs == 2 ^ 32 - 1 || x.bits == 2 ^ 48 - 1
    let errs := if full then x.errs else x.errs + err
    let bits := if full then x.bits else x.bits + 1
    let th := s.get a .LAN_PRBS_THRESH_THRESH
    let rise := decide (th ≠ 0 ∧ th ≤ errs) && !x.hit
    let lost := x.winErrs + err == 64
    let closes := lost || x.winBits == 1023
    let s := s.onLane d l fun x =>
      { x with
        errs := errs, bits := bits, hit := x.hit || rise, past := if lost then [] else want :: x.past.take 30
        winBits := if closes then 0 else x.winBits + 1, winErrs := if closes then 0 else x.winErrs + err }
    let s := if lost then s.puts a [(.LAN_PRBS_BITS_HI_SYNC, 0), (.LAN_PRBS_BITS_HI_SYNC_LOST, 1)] else s
    if rise then s.raise d (448 + l) errs else s

/-- Received bits reach the checker of a lane, where it is enabled. -/
def State.prbsTake (s : State) (d : Die) (l : Nat) (bits : List Bool) : State :=
  if s.laneOwn d l && s.flag (atUnit d l) .LAN_PRBS_CTRL_CHK_EN then bits.foldl (fun s b => s.prbsBit d l b) s else s

/-- A lane in TEST with its generator on sends its pattern, from an open place in it (R358): to the line, or in a near-end loopback to its own
checker, and then to the line too only from the serializer with TX_MUTE = 0 (R360). In a far-end loopback the transmitter sends the partner's
data. -/
def State.patternSend (s : State) (d : Die) (l : Nat) : State :=
  let a := atUnit d l
  let loop := s.looped d l
  if s.flag a .LAN_PRBS_CTRL_GEN_EN && s.laneSt d l == 8 && loop != 3 then
    let pat := s.get a .LAN_PRBS_CTRL_GEN_PAT
    let invert := s.flag a .LAN_PRBS_CTRL_INV
    let start := s.free 31
    let s := s.used
    let s := if loop = 0 ∨ (loop = 1 ∧ s.flag a .LAN_LPBK_TX_MUTE = false) then
        s.emit (.pattern d.idx l pat invert (patternLevels 128 pat start invert (s.pam4 d l)))
      else s
    if loop = 0 then s else s.prbsTake d l (patternBits 128 pat start invert (s.pam4 d l))
  else s

/-- A write of LAN_PRBS_CTRL: the snapshot goes before the clear. -/
def State.prbsCtrl (s : State) (d : Die) (l : Nat) (v : Word) : State :=
  let s := if v.getLsbD 10 then s.prbsSnap d l else s
  let s := if v.getLsbD 9 then s.prbsClear d l else s
  let s := s.writeReg (atUnit d l) .LAN_PRBS_CTRL v
  ((if v.getLsbD 7 then s else s.put (atUnit d l) .LAN_PRBS_BITS_HI_SYNC 0).testSync d l).patternSend d l

/-- The generator is enabled or disabled, with its pattern. -/
def execPrbsGeneratorEnable (die : PDie) (lane : Fin 48) (enable : Bool) (pattern : BitVec 3) (s : State) : Res :=
  let a := atUnit die.die lane
  .next (s.ifOwn die.die lane
    (((s.puts a [(.LAN_PRBS_CTRL_GEN_EN, natOf enable), (.LAN_PRBS_CTRL_GEN_PAT, pattern.toNat)]).testSync die.die lane).patternSend die.die lane))

/-- SNAP is written. -/
def execPrbsSnap (die : PDie) (lane : Fin 48) (s : State) : Res := .next (s.ifOwn die.die lane (s.prbsSnap die.die lane))

/-- CLEAR is written. -/
def execPrbsClear (die : PDie) (lane : Fin 48) (s : State) : Res := .next (s.ifOwn die.die lane (s.prbsClear die.die lane))

/-- The checker receives the first `count` of these bits (R359): it compares them with its pattern. In a near-end loopback the receiver takes
the lane's own data in their place (R360). -/
def execLanPrbsThresh (die : PDie) (lane : Fin 48) (bits : BitVec 1024) (count : Fin 1025) (s : State) : Res :=
  let loop := s.looped die.die lane
  .next (if loop = 1 ∨ loop = 2 then s else s.prbsTake die.die lane ((List.range count.val).map bits.getLsbD))

/-- The checker sees 64 errors in 1,024 bits: it leaves SYNC and resynchronises. -/
def execPrbsSyncLost (die : PDie) (lane : Fin 48) (s : State) : Res :=
  let a := atUnit die.die lane
  .next (if s.flag a .LAN_PRBS_BITS_HI_SYNC then s.puts a [(.LAN_PRBS_BITS_HI_SYNC, 0), (.LAN_PRBS_BITS_HI_SYNC_LOST, 1)] else s)

/-- A write of LAN_LPBK (R360). -/
def State.lpbkWrite (s : State) (d : Die) (l mode : Nat) (mute : Bool) : State :=
  let a := atUnit d l
  let st := s.laneSt d l
  let s := s.put a .LAN_LPBK_TX_MUTE (natOf mute)
  if mode ≠ 0 ∧ (¬(st = 5 ∨ st = 8) ∨ (mode = 3 ∧ s.flag a .LAN_LANE_STAT_LOCKED = false)) then s.laneIgnored d l
  else (s.put a .LAN_LPBK_MODE mode).testSync d l

/-- LAN_LPBK is written. -/
def execLoopbackSelect (die : PDie) (lane : Fin 48) (mode : Fin 4) (mute : Bool) (s : State) : Res :=
  .next (s.ifOwn die.die lane (s.lpbkWrite die.die lane mode mute))

/-! ### Release, load, safe outputs and rate changes -/

/-- Stage 1 of a release: lanes leave electrical idle (R210, R335, R339). -/
def State.lanesRelease (s : State) (d : Die) : State :=
  if d.isPort then
    (List.range 48).foldl (fun s l =>
      if !s.laneOwn d l then s.setLaneSt d l 11
      else if s.laneSt d l ≠ 1 then s
      else s.setLaneSt d l (if s.get (atUnit d l) .LAN_LANE_CFG_MODE = 3 then 0 else 2)) s
  else s

/-- A full load starts: every lane goes to electrical idle (R204, R339). -/
def State.lanesIdle (s : State) (d : Die) : State :=
  if d.isPort then
    (List.range 48).foldl (fun s l =>
      if s.laneSt d l = 1 then s
      else (((s.laneLeave d l 1 3).laneUnlock d l).presenceEnd d l).onLane d l fun x => { Lane.idle with seq := x.seq }) s
  else s

/-- The line-facing outputs trip: lanes of this chapter enter SAFE (R356). -/
def State.lanesSafe (s : State) (d : Die) : State :=
  (List.range 48).foldl (fun s l =>
    if s.laneOwn d l then
      ((s.laneLeave d l 10 2).put (atUnit d l) .LAN_LANE_STAT_TX_SAFE 1).onLane d l fun x => { x with send := 0, awake := false }
    else s) s

/-- Whether the pending rates of a quad may be armed (R355). -/
def State.quadReady (s : State) (d : Die) (q : Nat) : Bool :=
  (List.range 4).all fun i =>
    let l := 4 * q + i
    let a := atUnit d l
    let st := s.laneSt d l
    let code := s.get (atUnit d q) (.LAN_QUAD_RATE_NEXT_LANE i)
    (st == 0 || s.get a .LAN_LANE_CFG_MODE == 2) && !(st == 4 || st == 6 || st == 8 || st == 10) &&
      (code == 15 || bitOf (s.get a .LAN_LANE_CFG_ALLOW) code)

/-- The commit of a quad's rates: each lane takes its pending code and retunes its PLL. A lane that was UP adapts under R349 from STEP; one in
LOWPOWER stays there. -/
def State.quadApply (s : State) (d : Die) (q : Nat) : State :=
  (List.range 4).foldl (fun s i =>
    let l := 4 * q + i
    let a := atUnit d l
    if s.laneOwn d l then
      let code := s.get (atUnit d q) (.LAN_QUAD_RATE_NEXT_LANE i)
      let st := s.laneSt d l
      let old := (s.get a .LAN_LANE_STAT_RATE, s.get a .LAN_LANE_CFG_FIXED_RATE, st == 5 || st == 7)
      let s := (s.put a .LAN_LANE_CFG_FIXED_RATE code).onLane d l fun x =>
        { x with prev := some old, fixed := code, stored := none, measured := false }
      if st = 5 then
        ((s.laneLeave d l 4 3).lanePhy d l code 0).put a .LAN_LANE_STAT_PROTO 2
      else if st = 7 then s.lanePhy d l code 0
      else s
    else s) (s.put (atUnit d q) .LAN_QUAD_STAT_LOCK_FAIL 0)

/-- Every PLL of a quad has locked: lanes that were UP adapt, or end in HELD at the floor where their port has no use for the rate (R349,
R355). -/
def State.quadLocked (s : State) (d : Die) (q : Nat) : State :=
  (List.range 4).foldl (fun s i =>
    let l := 4 * q + i
    let x := s.lane d l
    let s := s.onLane d l fun x => { x with prev := none }
    if x.prev.isSome && s.laneSt d l == 4 && !s.fixedFits d l x.fixed then ((s.setLaneSt d l 9).lanePhy d l 0 0).laneEnd d l 3 else s) s

/-- PLLs of a quad have not locked by the end of the heat: every lane reverts (R355). -/
def State.quadRevert (s : State) (d : Die) (q failed : Nat) : State :=
  let s := (List.range 4).foldl (fun s i =>
    let l := 4 * q + i
    match (s.lane d l).prev with
    | none => s
    | some (rate, fixed, was) =>
      let s := s.put (atUnit d l) .LAN_LANE_CFG_FIXED_RATE fixed
      let s := if was then s.lanePhy d l rate 0 else s
      s.onLane d l fun x => { x with prev := none, fixed := fixed }) s
  s.put (atUnit d q) .LAN_QUAD_STAT_LOCK_FAIL failed

end Sys2Proof.Machine
end

