-- ==== Sys2Proof/Machine/Cipher.lean ====
section
/-! DEFINITION. The line cipher and the tags of the protection engines: AES-256 in the XTS mode of IEEE 1619 (R470) and HMAC-SHA-256
(R477). -/

namespace Sys2Proof.Machine

/-! ### The field of AES -/

/-- Twice an element of the field of AES, whose polynomial is x^8 + x^4 + x^3 + x + 1. -/
def aesDouble (a : Nat) : Nat := if a < 128 then 2 * a else (2 * a) % 256 ^^^ 0x1B

/-- The product of two elements, over the bits of the second from bit `n - 1` down. -/
def aesTimes : Nat → Nat → Nat → Nat
  | 0, _, _ => 0
  | n + 1, a, b => let high := aesDouble (aesTimes n a (b / 2)); if b % 2 = 1 then high ^^^ a else high

/-- The product of two bytes. -/
def aesMul (a b : Nat) : Nat := aesTimes 8 a b

/-- The inverse of a byte: its 254th power; 0 stays 0. -/
def aesInverse (a : Nat) : Nat := ((List.range 6).foldl (fun x _ => let s := aesMul x.1 x.1; (s, aesMul x.2 s)) (aesMul a a, aesMul a a)).2

/-- A byte rotated left. -/
def byteLeft (a n : Nat) : Nat := a * 2 ^ n % 256 ||| a / 2 ^ (8 - n)

/-- The substitution of a byte. -/
def aesSub (a : Nat) : Nat :=
  let b := aesInverse a
  [1, 2, 3, 4].foldl (fun x n => x ^^^ byteLeft b n) (b ^^^ 0x63)

/-! ### AES-256 -/

/-- The exclusive-or of two byte strings. -/
def mix (a b : List Nat) : List Nat := List.zipWith Nat.xor a b

/-- The next word of the key schedule, number `i`, from the words so far, newest first. -/
def keyWord (i : Nat) (w : List (List Nat)) : List Nat :=
  let last := w.getD 0 []
  let turned := last.tail ++ last.take 1
  let round := (List.range (i / 8 - 1)).foldl (fun c _ => aesDouble c) 1
  mix (w.getD 7 []) (if i % 8 = 0 then mix (turned.map aesSub) [round, 0, 0, 0] else if i % 8 = 4 then last.map aesSub else last)

/-- The key schedule, newest word first, from word 8. -/
def keyWords (key : List Nat) : List (List Nat) :=
  (List.range 52).foldl (fun w i => keyWord (8 + i) w :: w)
    ((List.range 8).foldl (fun w i => (key.drop (4 * i)).take 4 :: w) [])

/-- The sixteen bytes of each of the fifteen round keys. -/
def roundKeys (key : List Nat) : List (List Nat) :=
  let w := (keyWords key).reverse
  (List.range 15).map fun r => ((w.drop (4 * r)).take 4).flatten

/-- The rows of a block shifted: byte `i` stands in row `i mod 4`. -/
def shiftRows (b : List Nat) : List Nat := (List.range 16).map fun i => b.getD ((i + 4 * (i % 4)) % 16) 0

/-- The columns of a block mixed. -/
def mixColumns (b : List Nat) : List Nat :=
  (List.range 16).map fun i =>
    let at_ (k : Nat) : Nat := b.getD (i / 4 * 4 + (i + k) % 4) 0
    aesDouble (at_ 0) ^^^ aesMul (at_ 1) 3 ^^^ at_ 2 ^^^ at_ 3

/-- A block of sixteen bytes encrypted with the round keys. -/
def aesRounds (keys : List (List Nat)) (b : List Nat) : List Nat :=
  let start := mix b (keys.getD 0 [])
  let b := (List.range 13).foldl (fun b r => mix (mixColumns (shiftRows (b.map aesSub))) (keys.getD (r + 1) [])) start
  mix (shiftRows (b.map aesSub)) (keys.getD 14 [])

/-- AES-256 of a block under a key of 32 bytes. -/
def aes256 (key b : List Nat) : List Nat := aesRounds (roundKeys key) b

/-! ### A line (R470) -/

/-- The tweak value of a line. -/
def tweakValue (line eng : Nat) (prot : Bool) (minor major : Nat) : Nat :=
  line % 2 ^ 42 + eng % 8 * 2 ^ 42 + (if prot then 2 ^ 45 else 0) + minor % 2 ^ 7 * 2 ^ 46 + major % 2 ^ 56 * 2 ^ 53

/-- A tweak multiplied by α. -/
def tweakNext (t : Nat) : Nat := if t < 2 ^ 127 then 2 * t else (2 * t) % 2 ^ 128 ^^^ 0x87

/-- The 64 bytes of a line under the data key `k1`, with the tweak value encrypted under the tweak key `k2`. -/
def xtsLine (k1 k2 : List Nat) (tweak : Nat) (bytes : List Nat) : List Nat :=
  let keys := roundKeys k1
  let first := ofBytesLE (aes256 k2 (bytesLE tweak 16))
  (List.range 4).flatMap fun j =>
    let t := bytesLE ((List.range j).foldl (fun t _ => tweakNext t) first) 16
    mix (aesRounds keys (mix ((bytes.drop (16 * j)).take 16) t)) t

/-! ### Tags (R477) -/

/-- The tag that a message has: the first 7 bytes of its HMAC, byte 0 lowest. -/
def tagOf (kt msg : List Nat) : Nat := ofBytesLE ((hmacSha256 kt msg).take 7)

end Sys2Proof.Machine
end

