-- ==== Sys2Proof/Machine/NetTime.lean ====
section
/-! DEFINITION. Network time: the PTP time counter, its commands, PPS and the time-stamp corrections (chapter 14). -/

namespace Sys2Proof.Machine

/-- A second in units of 2^-28 ns. -/
def secondUnits : Nat := 1000000000 * 2 ^ 28

/-- How far PTP time is past the last whole second plus COMP (R415), in 2^-28 ns. -/
def State.ppsPhase (s : State) : Nat :=
  ((s.tod.sub - signedOf 11 (s.get (atDie .e0) .PKT_PPS_CFG_COMP) * (2 ^ 28 : Nat)) % (secondUnits : Nat)).toNat

/-- Count time-clock cycles: the residence counter always, the PTP counter while RUN = 1 (R402, R407, R412). -/
def State.todAdd (s : State) (n : Nat) : State :=
  let k := n * s.get (atDie .e0) .PKT_TOD_INCR_INCR
  let run := s.flag (atDie .e0) .PKT_TOD_CTRL_RUN
  let sub := if run then s.tod.sub + k else s.tod.sub
  s.setTod { s.tod with
    sec := (s.tod.sec + sub / secondUnits) % 2 ^ 48
    sub := sub % secondUnits
    resid := (s.tod.resid + k) % 2 ^ 76
    due := s.tod.due || (run && decide (secondUnits ≤ s.ppsPhase + k)) }

/-- Count up to a cycle of the stroke in hand, once the datum PLL has locked (R402). -/
def State.timeTo (s : State) (cycle : Nat) : State :=
  if s.clk.locked then
    let t := s.todAdd (cycle - s.tod.done)
    t.setTod { t.tod with done := Nat.max s.tod.done cycle }
  else s

/-- Count up to the cycle of a write that its command does not place within the stroke: which of the cycles that are left is open (DESIGN
CHOICE, log entry 248). -/
def State.timeSome (s : State) : State :=
  if s.clk.locked then
    (s.timeTo (s.tod.done + s.free 13 % (s.get (atDie .e0) .STK_TIMING_PERIOD - s.tod.done + 1))).used
  else s

/-- PTP time in 1/256 ns. -/
def State.ptp (s : State) : Nat := (s.tod.sec * secondUnits + s.tod.sub) / 2 ^ 20

/-- Nanoseconds within the second. -/
def State.todNs (s : State) : Nat := s.tod.sub / 2 ^ 28

/-- PTP time is stepped: LOCKED clears, and the slew of R56 starts again (R57). -/
def State.lockLost (s : State) : State :=
  if s.flag (atDie .e0) .STK_STATUS_LOCKED then
    (s.put (atDie .e0) .STK_STATUS_LOCKED 0).raise .e0 Ev.STROKE_LOCK_LOST (s.get (atDie .e0) .STK_LOCK_ERR_ERR)
  else s

/-- What every step does (R404, R57, R415): `op` is 1 for SET, 2 for ADJ. -/
def State.todStep (s : State) (op : Nat) : State :=
  let ns := s.get (atDie .e0) .PKT_TOD_SET_NS_NS
  let s := s.setTod { s.tod with due := false }
  ((s.bump (atDie .e0) .PKT_TOD_CTRL_STEPS 1).raise .e0 Ev.TOD_STEP (op + ns * 2 ^ 8)).lockLost

/-- PKT_TOD_CTRL.OP = SET (R404). -/
def State.todSet (s : State) : State :=
  let e := atDie .e0
  let ns := s.get e .PKT_TOD_SET_NS_NS
  if 1000000000 ≤ ns then s.put e .PKT_TOD_CTRL_OP_REFUSED 1
  else
    let sec := s.get e .PKT_TOD_SET_SEC_LO_SEC + s.get e .PKT_TOD_SET_SEC_HI_SEC * 2 ^ 32
    (s.setTod { s.tod with sec := sec, sub := ns * 2 ^ 28 }).todStep 1

/-- SET is written in a cycle of the stroke, and takes effect on the next (R404). -/
def execTodSet (cycle : BitVec 13) (s : State) : Res := .next (s.timeTo (cycle.toNat + 1)).todSet

/-- PKT_TOD_CTRL.OP = ADJ: a signed offset, with carry or borrow into the seconds (R404). -/
def State.todAdj (s : State) : State :=
  let off := signedOf 32 (s.get (atDie .e0) .PKT_TOD_SET_NS_NS)
  let t : Int := s.tod.sec * secondUnits + s.tod.sub + off * (2 ^ 28 : Nat)
  let u := (t % ((2 ^ 48 : Nat) * secondUnits : Nat)).toNat
  (s.setTod { s.tod with sec := u / secondUnits, sub := u % secondUnits }).todStep 2

/-- ADJ is written in a cycle of the stroke, and takes effect on the next (R404). -/
def execTodAdj (cycle : BitVec 13) (s : State) : Res := .next (s.timeTo (cycle.toNat + 1)).todAdj

/-- A write of PKT_TOD_INCR (R403). -/
def State.todIncr (s : State) (v : Word) : State :=
  if 0x1E000000 ≤ v.toNat ∧ v.toNat ≤ 0x22000000 then s.timeSome.put (atDie .e0) .PKT_TOD_INCR_INCR v.toNat
  else s.put (atDie .e0) .PKT_TOD_CTRL_INCR_REFUSED 1

/-- PKT_TOD_INCR is written. -/
def execTodIncrWrite (value : BitVec 32) (s : State) : Res := .next (s.todIncr value)

/-- A read of PKT_TOD_NS copies the seconds and the fraction, unless it is quiet (R405). -/
def State.todRead (s : State) (quiet : Bool) : State :=
  let ns := s.todNs
  let s := s.setAnswer (BitVec.ofNat 32 ns)
  if quiet then s
  else s.puts (atDie .e0) [(.PKT_TOD_SEC_LO_SEC, s.tod.sec), (.PKT_TOD_SEC_HI_SEC, s.tod.sec / 2 ^ 32 % 2 ^ 16 + s.tod.sub / 2 ^ 20 % 2 ^ 8 * 2 ^ 16)]

/-- PKT_TOD_NS is read in a cycle of the stroke. -/
def execTodRead (cycle : BitVec 13) (quiet : Bool) (s : State) : Res := .next ((s.timeTo cycle.toNat).todRead quiet)

/-! ### Pulse per second (R415, R416) -/

/-- PPS_OUT. -/
def State.ppsPin (s : State) (high : Bool) : State := s.setPins { s.pins with ppsOut := high }

/-- A write of PKT_PPS_CFG: EN = 1 is ignored while the datum PLL coasts. -/
def State.ppsWrite (s : State) (v : Word) : State :=
  if bitOf v.toNat 31 && s.flag (atDie .e0) .CLK_STATUS_COAST then s.put (atDie .e0) .PKT_TOD_CTRL_OP_REFUSED 1
  else
    let s := s.writeReg (atDie .e0) .PKT_PPS_CFG v
    let s := s.setTod { s.tod with due := false }
    if s.flag (atDie .e0) .PKT_PPS_CFG_EN then s else s.ppsPin false

/-- PKT_PPS_CFG is written. -/
def execPpsEnable (value : BitVec 32) (s : State) : Res := .next (s.ppsWrite value)

/-- PTP time counts up to its next whole second plus COMP, where it gets there in the stroke in hand (R415); a step does not. -/
def State.ppsReach (s : State) : State :=
  let incr := s.get (atDie .e0) .PKT_TOD_INCR_INCR
  let cycle := s.tod.done + (secondUnits - s.ppsPhase + incr - 1) / Nat.max 1 incr
  if s.tod.due = false ∧ s.flag (atDie .e0) .PKT_TOD_CTRL_RUN = true ∧ cycle ≤ s.get (atDie .e0) .STK_TIMING_PERIOD then s.timeTo cycle else s

/-- PPS_OUT rises where PTP time has counted to a whole second plus COMP, with EN = 1, from stage 1 of the release on (R415). -/
def State.ppsRise (s : State) : State :=
  let s := s.ppsReach
  if s.tod.due && s.flag (atDie .e0) .PKT_PPS_CFG_EN && s.get (atDie .e0) .CFG_DIE_STAT_STAGE != 0 then
    (s.setTod { s.tod with due := false, rise := s.cycles + s.tod.done }).ppsPin true
  else s

/-- PTP time reaches a whole second plus COMP. -/
def execPpsPulse (s : State) : Res := .next s.ppsRise

/-- The width of a pulse in time-clock cycles: WIDTH µs, 0 acting as 1 and more than 500,000 as 500,000. -/
def State.ppsWidth (s : State) : Nat := 500 * Nat.min 500000 (Nat.max 1 (s.get (atDie .e0) .PKT_PPS_CFG_WIDTH))

/-- WIDTH µs after it rose, PPS_OUT falls; nothing happens in a stroke that ends before. -/
def execPpsPulseEnd (s : State) : Res :=
  .next (if s.tod.rise + s.ppsWidth ≤ s.cycles + s.get (atDie .e0) .STK_TIMING_PERIOD then s.ppsPin false else s)

/-- A rising edge of PPS_IN after at least 100 ns low captures PTP time. -/
def execPpsInEdge (cycle : BitVec 13) (low : BitVec 32) (s : State) : Res :=
  let s := s.timeTo cycle.toNat
  .next (if low.toNat < 100 then s
  else
    let e := atDie .e0
    let s := (s.puts e [(.PKT_PPS_IN_NS_NS, s.todNs), (.PKT_PPS_IN_SEC_VALID, 1), (.PKT_PPS_IN_SEC_SEC, s.tod.sec)]).bump e
      .PKT_PPS_IN_SEC_COUNT 1
    s.raise .e0 Ev.TOD_PPS_IN s.todNs)

/-- The outputs of network time become safe (R415, R498): PPS_OUT falls and EN clears. -/
def State.ppsSafe (s : State) : State := (s.put (atDie .e0) .PKT_PPS_CFG_EN 0).ppsPin false

/-! ### Time-stamps (R408, R409) -/

/-- The correction of a PHY type and FEC (0 none, 1 Clause 74, 2 RS-FEC) in tenths of ns: receive, transmit. -/
def stampTable (mode fec : Nat) : Int × Int :=
  match mode with
  | 0 => (-660, 246)
  | 1 => (-742, 278)
  | 2 => (-886, 314)
  | 3 => (-964, 342)
  | 4 => if fec = 0 then (-310, 224) else if fec = 1 then (-726, 252) else (-1188, 306)
  | 5 => if fec = 0 then (-582, 416) else (-1624, 480)
  | _ => (-3120, 1840)

/-- Tenths of ns in 1/256 ns, rounded. -/
def tenths256 (n : Int) : Int := (512 * n + 10) / 20

/-- The correction of a port's receive stamps or transmit stamps, with its adjustment, in 1/256 ns. -/
def State.stampCorr (s : State) (d : Die) (port fec : Nat) (tx : Bool) : Int :=
  let c := stampTable (s.macOf d (port / 4)) fec
  if tx then tenths256 c.2 + signedOf 16 (s.get (atUnit d port) .PKT_TS_CORR_TX_ADJ)
  else tenths256 c.1 + signedOf 16 (s.get (atUnit d port) .PKT_TS_CORR_RX_ADJ)

/-- The stamp of a start-of-frame point that the MAC detects `frac` 1/256 ns into the cycle: PTP time and residence in 1/256 ns. -/
def State.stampAt (s : State) (d : Die) (port fec frac : Nat) (tx : Bool) : Nat × Nat :=
  let c := s.stampCorr d port fec tx
  (((s.ptp + frac : Nat) + c) % (2 ^ 48 * 1000000000 * 256 : Nat) |>.toNat, (((s.tod.resid / 2 ^ 20 + frac : Nat) + c) % (2 ^ 56 : Nat)).toNat)

/-- T32 of a stamp in 1/256 ns (R410). -/
def t32 (stamp : Nat) : Nat := stamp / 256 % 2 ^ 32

end Sys2Proof.Machine
end

