-- ==== Sys2Proof/Machine/Parser.lean ====
section
/-! DEFINITION. The frame parser, the key profiles and the ingress priority (R371, R373, R374), and which frames are PTP event
messages (R411). -/

namespace Sys2Proof.Machine

/-- Bytes `o` to `o + n - 1` of a frame, most significant first. -/
def frameBE (l : List Nat) (o n : Nat) : Nat := ofBytesBE ((l.drop o).take n)

/-- What the parser finds in a frame (R373): the tags' control words, the type after them, the labels, where an IPv4 or IPv6 header
starts, and where TCP (6) or UDP (17) starts directly after it. -/
structure Parsed where
  tags : List Nat
  etype : Nat
  labels : List Nat
  ip4 : Option Nat
  ip6 : Option Nat
  l4 : Option (Nat × Nat)
  deriving DecidableEq, Repr

/-- At most two VLAN tags: the control words, and the offset of the type after them. -/
def parseTags (l : List Nat) : Nat → Nat → List Nat × Nat
  | 0, o => ([], o)
  | n + 1, o =>
    if [0x8100, 0x88A8, 0x9100].contains (frameBE l o 2) then
      let (t, e) := parseTags l n (o + 4)
      (frameBE l (o + 2) 2 :: t, e)
    else ([], o)

/-- At most four MPLS labels, to the bottom of the stack: the labels, and what follows it. -/
def parseLabels (l : List Nat) : Nat → Nat → List Nat × Option Nat
  | 0, _ => ([], none)
  | n + 1, o =>
    let w := frameBE l o 4
    if w / 256 % 2 = 1 then ([w / 4096], some (o + 4))
    else
      let (t, e) := parseLabels l n (o + 4)
      (w / 4096 :: t, e)

/-- TCP or UDP at an offset. -/
def parseL4 (proto o : Nat) : Option (Nat × Nat) := if proto = 6 ∨ proto = 17 then some (proto, o) else none

/-- Parse the first 256 bytes of a frame. What follows the labels is taken for IPv4 or IPv6 by its version. -/
def parseFrame (frame : List Nat) : Parsed :=
  let l := frame.take (Nat.min 256 (frame.length - 4))
  let (tags, o) := parseTags l 2 12
  let etype := frameBE l o 2
  let mpls := etype == 0x8847 || etype == 0x8848
  let (labels, after) := if mpls then parseLabels l 4 (o + 2) else ([], none)
  let ver (o : Nat) : Nat := frameBE l o 1 / 16
  let v4 : Option Nat :=
    if etype = 0x0800 then some (o + 2) else after.bind fun a => if ver a = 4 then some a else none
  let v6 : Option Nat :=
    if etype = 0x86DD then some (o + 2) else after.bind fun a => if ver a = 6 then some a else none
  let ip4 := v4.filter fun a => ver a == 4 && decide (5 ≤ frameBE l a 1 % 16) && decide (a + 20 ≤ l.length)
  let ip6 := v6.filter fun a => ver a == 6 && decide (a + 40 ≤ l.length)
  let l4 := match ip4, ip6 with
    | some a, _ => if frameBE l (a + 6) 2 % 2 ^ 13 = 0 then parseL4 (frameBE l (a + 9) 1) (a + 4 * (frameBE l a 1 % 16)) else none
    | none, some a => parseL4 (frameBE l (a + 6) 1) (a + 40)
    | none, none => none
  ⟨tags, etype, labels, ip4, ip6, l4.filter fun e => decide (e.2 + 4 ≤ l.length)⟩

/-- The ingress priority of a frame (R371). -/
def State.ingressPrio (s : State) (d : Die) (port : Nat) (l : List Nat) (p : Parsed) : Nat :=
  let a := atUnit d port
  let def_ := s.get a .PKT_PORT_CFG_DEF_PRIO
  match s.get a .PKT_PORT_CFG_PRIO_SRC with
  | 1 => match p.tags with
    | [] => def_
    | t :: _ => t / 2 ^ 13 % 8
  | 2 => match p.ip4, p.ip6 with
    | some o, _ => frameBE l (o + 1) 1 / 32
    | none, some o => frameBE l o 2 / 2 ^ 9 % 8
    | none, none => def_
  | _ => def_

/-- The value of a parsed field (R373). -/
def parsedField (l : List Nat) (p : Parsed) (prio inport id : Nat) : Nat :=
  match id with
  | 1 => frameBE l 0 6
  | 2 => frameBE l 6 6
  | 3 => p.tags.getD 0 0 % 4096
  | 4 => p.tags.getD 1 0 % 4096
  | 5 => prio
  | 6 => p.etype
  | 7 => p.labels.getD 0 0
  | 8 => p.labels.getD 1 0
  | 9 => (p.ip4.map fun o => frameBE l (o + 12) 4).getD 0
  | 10 => (p.ip4.map fun o => frameBE l (o + 16) 4).getD 0
  | 11 => (p.ip6.map fun o => frameBE l (o + 8) 16).getD 0
  | 12 => (p.ip6.map fun o => frameBE l (o + 24) 16).getD 0
  | 13 => match p.ip4, p.ip6 with
    | some o, _ => frameBE l (o + 9) 1
    | none, some o => frameBE l (o + 6) 1
    | none, none => 0
  | 14 => match p.ip4, p.ip6 with
    | some o, _ => frameBE l (o + 1) 1 / 4
    | none, some o => frameBE l o 2 / 2 ^ 6 % 64
    | none, none => 0
  | 15 => (p.l4.map fun e => frameBE l e.2 2).getD 0
  | 16 => (p.l4.map fun e => frameBE l (e.2 + 2) 2).getD 0
  | 17 => inport
  | 18 => natOf (p.tags != []) + natOf (decide (p.tags.length = 2)) * 2 + natOf (p.labels != []) * 4 + natOf p.ip4.isSome * 8 +
      natOf p.ip6.isSome * 16 + natOf (p.l4.any fun e => e.1 == 6) * 32 + natOf (p.l4.any fun e => e.1 == 17) * 64 +
      natOf (p.ip4.any fun o => frameBE l (o + 6) 2 % 2 ^ 13 != 0) * 128
  | _ => 0

/-- The width of a key of a die's table (R375). -/
def State.keyBits (s : State) (d : Die) : Nat := if s.flag (atDie d) .PKT_LKP_CFG_WIDE then 256 else 128

/-- The key that a profile builds (R374). -/
def State.buildKey (s : State) (d : Die) (prof prio inport : Nat) (l : List Nat) (p : Parsed) : Nat :=
  let (k, _) := (List.range 8).foldl (fun (k, pos) e =>
    let a := atSel d (prof + 16 * e)
    let w := Nat.min 64 (s.get a .PKT_PROF_EXT_WIDTH)
    let v := parsedField l p prio inport (s.get a .PKT_PROF_EXT_FIELD) / 2 ^ s.get a .PKT_PROF_EXT_OFFSET % 2 ^ w
    (k + v * 2 ^ pos, pos + w)) (0, 0)
  k % 2 ^ s.keyBits d

/-- Where the PTP header of an event message starts, and whether it lies under UDP over IPv4 (1), IPv6 (2) or neither (0) (R411). -/
def ptpAt (l : List Nat) (p : Parsed) : Option (Nat × Nat) :=
  let place : Option (Nat × Nat) :=
    if p.etype = 0x88F7 then some (14 + 4 * p.tags.length, 0)
    else match p.l4 with
      | some (17, o) =>
        if frameBE l (o + 2) 2 = 319 then
          match p.ip4 with
          | some a => if frameBE l (a + 6) 2 % 2 ^ 14 = 0 then some (o + 8, 1) else none
          | none => some (o + 8, 2)
        else none
      | _ => none
  place.filter fun e => frameBE l (e.1 + 1) 1 % 16 == 2 && decide (frameBE l e.1 1 % 16 < 4) && decide (e.1 + 34 + 4 ≤ l.length)

/-- Put a number into a frame, most significant byte first. -/
def patchBE (l : List Nat) (o n v : Nat) : List Nat := l.take o ++ (bytesLE v n).reverse ++ l.drop (o + n)

/-- The sum of a frame's 16-bit words from an offset, in ones' complement (RFC 1071 as IEEE 1588 uses it for UDP). -/
def onesSum : List Nat → Nat
  | a :: b :: t =>
    let n := a * 256 + b + onesSum t
    n % 65536 + n / 65536
  | [a] => a * 256
  | [] => 0

end Sys2Proof.Machine
end

