-- ==== Sys2Proof/Machine/Protect.lean ====
section
/-! DEFINITION. The protection engines: rights, protected regions, their counters, nodes and tags, and the protection buffer with its
write-backs (chapter 17). -/

namespace Sys2Proof.Machine

/-! ### Engines -/

/-- The die of an engine: 0 to 3 are the DDR5 channels, 4 to 7 the CXL ports (R467). -/
def engDie (e : Nat) : Die := homeDie (e % 4)

/-- The number by which PROT_IDX.ENG names an engine on its die. -/
def engOn (e : Nat) : Nat := e / 4 * 2 + e % 2

/-- The registers of an engine. -/
def engAt (e : Nat) : At := atSel (engDie e) (engOn e)

/-- The registers of a region of an engine. -/
def rgnAt (e r : Nat) : At := atSel (engDie e) (engOn e * 16 + r)

/-- The first address of an engine's range, and its size (R42). -/
def engRange (e : Nat) : Nat × Nat :=
  if e < 4 then (0x200000000000 + e * 0x1000000000, 0x1000000000) else ((e - 4) * 0x080000000000, 0x080000000000)

/-- An engine with an empty buffer and counters at 0. -/
def Prot.none : Prot := ⟨[], [], [], [], [], [], [], false, [], [], []⟩

/-- What an engine holds. -/
def State.prot (s : State) (e : Nat) : Prot := Tbl.get Prot.none s.prots e

/-- Change what an engine holds. -/
def State.onProt (s : State) (e : Nat) (f : Prot → Prot) : State := s.setProts (Tbl.set s.prots e (f (s.prot e)))

/-- Events limited to one a millisecond per engine. -/
def State.protRaise (s : State) (e loc data : Nat) : State :=
  let key := 2 ^ 18 + e * 512 + loc
  if s.onceBusy key then s else (s.onceStart key).raise (engDie e) loc data

/-- PROT_ERR holds the first failure since VALID was cleared. -/
def State.protErr (s : State) (e kind icls addr : Nat) : State :=
  if s.flag (engAt e) .PROT_ERR_HI_VALID then s
  else s.puts (engAt e) [(.PROT_ERR_HI_VALID, 1), (.PROT_ERR_HI_KIND, kind), (.PROT_ERR_HI_ICLS, icls),
    (.PROT_ERR_HI_ADDR, addr / 2 ^ 32), (.PROT_ERR_LO_ADDR, addr)]

/-! ### Regions -/

/-- The state of a region (R475): 0 OFF, 1 PLAIN, 2 DEFINED, 3 INIT, 4 ACTIVE, 5 LOST. -/
def State.rgnSt (s : State) (e r : Nat) : Nat := s.get (rgnAt e r) .PROT_RGN_STAT_STATE

/-- A region as it is defined; none where it is OFF. -/
def State.region (s : State) (e r : Nat) : Option ProtRegion := (s.regions.find? fun x => x.1 == e * 16 + r).map Prod.snd

/-- The groups of a protected region (R476). -/
def ProtRegion.groups (x : ProtRegion) : Nat := 2 ^ (x.lg - 12)

/-- The levels of the counter tree: the smallest L with G ≤ 8^(L+1). -/
def treeLevels (g : Nat) : Nat := ((List.range 16).find? fun l => decide (g ≤ 8 ^ (l + 1))).getD 0

/-- The nodes of level k: ⌈G / 8^k⌉; level 0 is the counter lines. -/
def treeNodes (g k : Nat) : Nat := (g + 8 ^ k - 1) / 8 ^ k

/-- The first line of the nodes of level k, after the counter and tag lines. -/
def treeBase (g k : Nat) : Nat := 9 * g + (List.range (k - 1)).foldl (fun n i => n + treeNodes g (i + 1)) 0

/-- The lines of a metadata area. -/
def metaLines (g : Nat) : Nat := treeBase g (treeLevels g + 1)

/-- The metadata area's address: PROT_RGN_META, which no write changes while its region is in INIT, ACTIVE or LOST. -/
def State.metaBase (s : State) (e r : Nat) : Nat :=
  s.get (rgnAt e r) .PROT_RGN_META_LO_META + s.get (rgnAt e r) .PROT_RGN_META_HI_META * 2 ^ 32

/-- The metadata area of a region: base and size in bytes; empty for a plain region. -/
def State.metaArea (s : State) (e r : Nat) (x : ProtRegion) : Nat × Nat :=
  if x.integ then (s.metaBase e r, 64 * metaLines x.groups) else (0, 0)

/-- Whether an address lies in a range. -/
def within (a : Nat) (range : Nat × Nat) : Bool := decide (range.1 ≤ a ∧ a < range.1 + range.2)

/-- Whether two ranges share a byte. -/
def meet (a b : Nat × Nat) : Bool := decide (a.1 < b.1 + b.2 ∧ b.1 < a.1 + a.2)

/-- The defined regions of an engine. -/
def State.regionsOf (s : State) (e : Nat) : List (Nat × ProtRegion) :=
  (List.range 16).filterMap fun r => (s.region e r).map fun x => (r, x)

/-- The region of an address. -/
def State.regionAt (s : State) (e addr : Nat) : Option (Nat × ProtRegion) :=
  (s.regionsOf e).find? fun x => within addr (x.2.base, 2 ^ x.2.lg)

/-- The region in whose metadata area an address lies. -/
def State.metaAt (s : State) (e addr : Nat) : Option (Nat × ProtRegion) :=
  (s.regionsOf e).find? fun x => within addr (s.metaArea e x.1 x.2)

/-! ### Rights -/

/-- The rights vector of an address: of its region, or PROT_DEF (R471). -/
def State.rightsOf (s : State) (e addr : Nat) : Nat :=
  match s.regionAt e addr with
  | some (r, _) => s.get (rgnAt e r) .PROT_RGN_RIGHTS_RIGHTS
  | none => s.get (engAt e) .PROT_DEF_RIGHTS

/-- A request fails the check of rights (R472). -/
def State.protDeny (s : State) (e : Nat) (r : NocReq) : State :=
  let s := (s.bump (engAt e) .PROT_CNT_DENIED 1).protErr e 1 r.icls.toNat r.addr.toNat
  s.protRaise e Ev.PROT_DENIED (e + r.icls.toNat * 2 ^ 8 + r.addr.toNat * 2 ^ 16)

/-- What an engine answers before anything else (R469, R472): the status, where it answers. -/
def State.protGate (s : State) (e : Nat) (r : NocReq) : State × Option Nat :=
  if s.flag (atDie .e0) .PROT_KEY_STAT_FAIL then (s, some 6)
  else if (s.metaAt e r.addr.toNat).isSome then (s.protDeny e r, some 6)
  else if r.op = 3 ∨ r.op = 9 ∨ granted (s.rightsOf e r.addr.toNat) r = true then (s, none)
  else (s.protDeny e r, some 6)

/-! ### Counters, nodes and the protection buffer -/

/-- The key of a major counter. -/
def majorKey (r g : Nat) : Nat := r * 2 ^ 32 + g

/-- The key of the counter of a counter line (level 0) or node in its parent or the root. -/
def nodeKey (r k n : Nat) : Nat := (r * 16 + k) * 2 ^ 32 + n

/-- Whether an entry, a region with a counter line or node, covers a group. -/
def covers (r g : Nat) (x : Nat × Nat × Nat) : Bool := x.1 == r && g / 8 ^ x.2.1 == x.2.2

/-- The groups that a node covers: the first, and how many. -/
def nodeGroups (x : ProtRegion) (k n : Nat) : Nat × Nat := (n * 8 ^ k, Nat.min (8 ^ k) (x.groups - n * 8 ^ k))

/-- A counter at its greatest value. -/
def counterTop : Nat := 2 ^ 56 - 1

/-- The counter line or node whose increment a write to a line that is not dirty would ask past its greatest value (R482): the
line's major counter, or a counter on the way to the root. `some (k, n)` locks what node n of level k covers. -/
def State.saturates (s : State) (e r : Nat) (x : ProtRegion) (line g : Nat) : Option (Nat × Nat) :=
  let p := s.prot e
  if Tbl.get 0 p.minors line = 127 ∧ Tbl.get 0 p.majors (majorKey r g) = counterTop then some (0, g)
  else
    ((List.range (treeLevels x.groups + 1)).find? fun k => Tbl.get 0 p.nodes (nodeKey r k (g / 8 ^ k)) == counterTop).map
      fun k => (k, g / 8 ^ k)

/-- Groups are locked until the next package power-on reset (R482). -/
def State.lockGroups (s : State) (e r : Nat) (x : ProtRegion) (k n icls addr : Nat) : State :=
  let (g, count) := nodeGroups x k n
  let s := s.onProt e fun p => { p with locked := (r, k, n) :: p.locked }
  let s := (s.bump (engAt e) .PROT_CNT1_LOCKED_GRP count).protErr e 4 icls addr
  s.raise (engDie e) Ev.PROT_GROUP_LOCKED (e + (x.base + g * 4096) * 2 ^ 8)

/-- A counter line or node fails: what it covers is poisoned until the next package power-on reset; with 64 entries in use, the whole
region is (R484). -/
def State.nodeFail (s : State) (e r k n icls addr : Nat) : State :=
  let p := s.prot e
  if p.failed.contains (r, k, n) || p.whole.contains r then s
  else
    let s :=
      if p.failed.length < 64 then
        (s.onProt e fun p => { p with failed := (r, k, n) :: p.failed }).put (engAt e) .PROT_CNT1_POISON_ENT (p.failed.length + 1)
      else s.onProt e fun p => { p with whole := r :: p.whole }
    (s.protErr e 3 icls addr).raise (engDie e) Ev.PROT_NODE_POISON (e + k * 2 ^ 8 + n * 2 ^ 16)

/-- The tag of a data line fails (R483). -/
def State.integFail (s : State) (e icls addr : Nat) : State :=
  ((s.bump (engAt e) .PROT_CNT_INTEG_FAIL 1).protErr e 2 icls addr).protRaise e Ev.PROT_INTEG_FAIL (e + addr * 2 ^ 8)

/-- The first key from `k` on that a table does not list. -/
def Tbl.firstFree {α : Type} : Tbl α → Nat → Nat
  | [], k => k
  | (i, _) :: t, k => if i = k then firstFree t (k + 1) else k

/-- The words of the protection buffer of an engine where a dirty line stands (R486). -/
def State.bufWords (s : State) (e line : Nat) : List Nat :=
  match (s.prot e).cells.find? fun x => x.2 == line with
  | some (i, _) => (List.range 8).map (engOn e * 2 ^ 14 + 8 * i + ·)
  | none => []

/-- Bytes of a line of the protection buffer are written. -/
def State.bufWrite (s : State) (e line mask : Nat) : State :=
  match s.bufWords e line with
  | a :: _ => s.eccWrites (engDie e) 11 a mask
  | [] => s

/-- Whether a line is in the protection buffer: trusted, and not verified again (R479). -/
def Prot.holds (p : Prot) (line : Nat) : Bool := p.dirty.contains line || p.clean.contains line

/-- Clean lines leave the protection buffer, the least recently used first, until `n` of them are left. -/
def Prot.trim (p : Prot) (n : Nat) : Prot :=
  if p.clean.length ≤ n then p
  else
    let q := { p with clean := p.clean.take n }
    { q with cells := q.cells.filter fun x => q.holds x.2 }

/-- A line is dirty in the protection buffer, in its place or the first that is free (R479; DESIGN CHOICE, log entry 215). -/
def Prot.dirties (p : Prot) (line : Nat) : Prot :=
  if p.dirty.contains line then p
  else
    let q := ({ p with clean := p.clean.filter (· != line), dirty := insertNat line p.dirty }).trim (2047 - p.dirty.length)
    if p.clean.contains line then q else { q with cells := Tbl.set q.cells (Tbl.firstFree q.cells 0) line }

/-- A line that has been read and verified, or that is used again, is the most recent of the clean lines; it enters where dirty lines leave
room (R479). -/
def Prot.touch (p : Prot) (line : Nat) : Prot :=
  if p.dirty.contains line || decide (2048 ≤ p.dirty.length) then p
  else if p.clean.contains line then { p with clean := line :: p.clean.filter (· != line) }
  else
    let q := p.trim (2047 - p.dirty.length)
    { q with clean := line :: q.clean, cells := Tbl.set q.cells (Tbl.firstFree q.cells 0) line }

/-- A line becomes dirty in the protection buffer; `mask` says which of its bytes are written. -/
def State.dirties (s : State) (e line mask : Nat) : State := (s.onProt e fun p => p.dirties line).bufWrite e line mask

/-- Lines come into the protection buffer, or are used there again; one that comes in is written there. -/
def State.bufTouch (s : State) (e : Nat) (lines : List Nat) : State :=
  lines.foldl (fun s l =>
    let new := !(s.prot e).holds l
    let s := s.onProt e fun p => p.touch l
    if new then s.bufWrite e l (2 ^ 64 - 1) else s) s

/-- A line that has been written back stays in the protection buffer, clean. -/
def State.bufDrop (s : State) (e line : Nat) : State :=
  s.onProt e fun p => { p with dirty := removeNat line p.dirty, clean := line :: p.clean.filter (· != line) }

/-- A line leaves the protection buffer. -/
def State.bufLose (s : State) (e line : Nat) : State :=
  s.onProt e fun p => { p with
    dirty := removeNat line p.dirty
    clean := p.clean.filter (· != line)
    cells := p.cells.filter fun x => x.2 != line }

/-! ### Lines as they stand in memory (R470, R476, R477) -/

/-- A key of an engine: 0 the data key, 1 the tweak key, 2 the tag key. -/
def State.engKey (s : State) (e i : Nat) : List Nat := bytesLE (Tbl.get 0 s.keyStore (e * 3 + i)).toNat 32

/-- The major counter of a data line's group. -/
def State.majorOf (s : State) (e r : Nat) (x : ProtRegion) (line : Nat) : Nat :=
  Tbl.get 0 (s.prot e).majors (majorKey r ((line - x.base / 64) / 64))

/-- The tweak value of a line: both counters and P are 0 outside the protected regions. -/
def State.lineTweak (s : State) (e line : Nat) : Nat :=
  match s.regionAt e (line * 64) with
  | some (r, x) =>
    if x.integ then tweakValue line e true (Tbl.get 0 (s.prot e).minors line) (s.majorOf e r x line) else tweakValue line e false 0 0
  | none => tweakValue line e false 0 0

/-- A line encrypted on its way out. -/
def State.lineCipher (s : State) (e line : Nat) (bytes : List Nat) : List Nat :=
  xtsLine (s.engKey e 0) (s.engKey e 1) (s.lineTweak e line) bytes

/-- The plaintext of a line. -/
def Mem.line (m : Mem) (line : Nat) : List Nat := bytesLE (m.read (line * 64) 64) 64

/-- The tag of a data line: over its ciphertext and its tweak. -/
def State.dataTag (s : State) (e line : Nat) : Nat :=
  tagOf (s.engKey e 2) (s.lineCipher e line (s.mem.line line) ++ bytesLE (s.lineTweak e line) 16)

/-- Values side by side, each in `w` bits. -/
def packed (w : Nat) (l : List Nat) : Nat := l.foldr (fun v n => v % 2 ^ w + n * 2 ^ w) 0

/-- The tag of a counter line or node: over its bytes, its counter in its parent or the root, its address and its engine. -/
def State.nodeTag (s : State) (e r k n addr word : Nat) : Nat :=
  tagOf (s.engKey e 2) (bytesLE word 64 ++ bytesLE (Tbl.get 0 (s.prot e).nodes (nodeKey r k n)) 8 ++ bytesLE addr 8 ++ [e])

/-- A counter line. -/
def State.counterLine (s : State) (e r : Nat) (x : ProtRegion) (g : Nat) : Nat :=
  Tbl.get 0 (s.prot e).majors (majorKey r g) % 2 ^ 56 +
    2 ^ 56 * packed 7 ((List.range 64).map fun i => Tbl.get 0 (s.prot e).minors (x.base / 64 + 64 * g + i))

/-- The counters of a node of level `k`. -/
def State.treeNode (s : State) (e r k n : Nat) : Nat :=
  packed 56 ((List.range 8).map fun c => Tbl.get 0 (s.prot e).nodes (nodeKey r (k - 1) (8 * n + c)))

/-- What a line of metadata is: a counter line (level 0) or node, or a tag line. -/
inductive MetaLine where
  | counter (level index : Nat)
  | tag
  deriving DecidableEq, Repr

/-- What the line at an index of a metadata area is (R476). -/
def metaLine (g i : Nat) : MetaLine :=
  if i < g then .counter 0 i
  else match (List.range (treeLevels g)).find? fun k => decide (treeBase g (k + 1) ≤ i ∧ i < treeBase g (k + 2)) with
    | some k => .counter (k + 1) (i - treeBase g (k + 1))
    | none => .tag

/-- A line of a metadata area, by its index. -/
def State.metaWord (s : State) (e r : Nat) (x : ProtRegion) (i : Nat) : Nat :=
  let g := x.groups
  let base := s.metaBase e r
  match metaLine g i with
  | .counter 0 n => s.counterLine e r x n
  | .counter k n => let w := s.treeNode e r k n; w + 2 ^ 448 * s.nodeTag e r k n (base + 64 * i) w
  | .tag =>
    let n := (i - g) / 8
    let j := (i - g) % 8
    packed 56 ((List.range 8).map fun t => s.dataTag e (x.base / 64 + 64 * n + 8 * j + t)) +
      (if j = 0 then 2 ^ 448 * s.nodeTag e r 0 n (base + 64 * n) (s.counterLine e r x n) else 0)

/-- An engine writes a line to its memory. -/
def State.lineOut (s : State) (e line : Nat) (bytes : List Nat) : State := s.emit (.memLine e line (s.lineCipher e line bytes))

/-- A counter line or node is written back: its counter in its parent or the root increments; one at its greatest value locks what the node
covers instead (R480, R482), of an initiator class that is open there. The answer says whether it may be written. -/
def State.nodeBack (s : State) (e r : Nat) (x : ProtRegion) (k n : Nat) : State × Bool :=
  let key := nodeKey r k n
  let c := Tbl.get 0 (s.prot e).nodes key
  if c = counterTop then ((s.used).lockGroups e r x k n (s.free 3) (x.base + (nodeGroups x k n).1 * 4096), false)
  else (s.onProt e fun p => { p with nodes := Tbl.set p.nodes key (c + 1) }, true)

/-- A line of metadata changes: it is dirty in the buffer, or is written back at once where dirty lines leave no room there (DESIGN CHOICE, log
entry 249). Its write-back changes its parent, and that of a counter line the tag line that holds its tag (R476, R480). The first argument
bounds the levels. -/
def State.metaTouch : Nat → State → Nat → Nat → ProtRegion → Nat → State
  | 0, s, _, _, _, _ => s
  | fuel + 1, s, e, r, x, i =>
    let line := s.metaBase e r / 64 + i
    let p := s.prot e
    if p.dirty.contains line || decide (p.dirty.length < 2048) then s.dirties e line 0xFF
    else match metaLine x.groups i with
      | .tag => s.lineOut e line (bytesLE (s.metaWord e r x i) 64)
      | .counter k n =>
        let (s, ok) := s.nodeBack e r x k n
        if !ok then s
        else
          let s := s.lineOut e line (bytesLE (s.metaWord e r x i) 64)
          let s := if k = 0 then State.metaTouch fuel s e r x (x.groups + 8 * n) else s
          if k < treeLevels x.groups then State.metaTouch fuel s e r x (treeBase x.groups (k + 1) + n / 8) else s

/-- A line of metadata changes. -/
def State.metaTouchAt (s : State) (e r : Nat) (x : ProtRegion) (i : Nat) : State := State.metaTouch 20 s e r x i

/-- A data line of a group is written back: its minor counter increments, or the group is encrypted again under its next major
counter, all 64 lines of it but those that are poisoned (R480, R481). Its counter line and its tag line, or all eight of the group, change. -/
def State.dataBack (s : State) (e r : Nat) (x : ProtRegion) (line : Nat) : State :=
  let first := x.base / 64
  let g := (line - first) / 64
  let m := Tbl.get 0 (s.prot e).minors line
  let major := Tbl.get 0 (s.prot e).majors (majorKey r g)
  if m < 127 then
    let s := s.onProt e fun p => { p with minors := Tbl.set p.minors line (m + 1) }
    let s := s.lineOut e line (s.mem.line line)
    (s.metaTouchAt e r x g).metaTouchAt e r x (x.groups + 8 * g + (line - first) % 64 / 8)
  else if major = counterTop then (s.used).lockGroups e r x 0 g (s.free 3) (line * 64)
  else
    let s := (s.onProt e fun p => { p with
      minors := Tbl.keep (fun k => decide (k < first + 64 * g) || decide (first + 64 * g + 64 ≤ k)) p.minors
      majors := Tbl.set p.majors (majorKey r g) (major + 1) }).bump (engAt e) .PROT_CNT1_REENC 1
    let lines := ((List.range 64).map (first + 64 * g + ·)).filter fun l => !s.poison.contains l
    let s := lines.foldl (fun s l => s.lineOut e l (s.mem.line l)) s
    (List.range 8).foldl (fun s j => s.metaTouchAt e r x (x.groups + 8 * g + j)) (s.metaTouchAt e r x g)

/-- A line of metadata is written back: the answer says whether it may be written, and then what it changes changes. -/
def State.metaBack (s : State) (e r : Nat) (x : ProtRegion) (i : Nat) : State :=
  let out (s : State) : State := s.lineOut e (s.metaBase e r / 64 + i) (bytesLE (s.metaWord e r x i) 64)
  match metaLine x.groups i with
  | .tag => out s
  | .counter k n =>
    let (s, ok) := s.nodeBack e r x k n
    if !ok then s
    else
      let s := out s
      let s := if k = 0 then s.metaTouchAt e r x (x.groups + 8 * n) else s
      if k < treeLevels x.groups then s.metaTouchAt e r x (treeBase x.groups (k + 1) + n / 8) else s

/-- The counter line or node that a line of metadata stands for; an uncorrectable tag line stands for the counter line of its group (DESIGN
CHOICE, log entry 215). -/
def metaNode (g i : Nat) : Nat × Nat :=
  match metaLine g i with
  | .counter k n => (k, n)
  | .tag => (0, (i - g) / 8)

/-- A line of the protection buffer that is uncorrectable (R486): a data line fails as by its tag (R483), a line of metadata as a node
(R484). The initiator class that PROT_ERR then names is open. -/
def State.bufBad (s : State) (e line : Nat) : State :=
  let icls := s.free 3
  match s.regionAt e (line * 64) with
  | some _ => (s.used).integFail e icls (line * 64)
  | none => match s.metaAt e (line * 64) with
    | some (r, x) =>
      let node := metaNode x.groups (line - s.metaBase e r / 64)
      (s.used).nodeFail e r node.1 node.2 icls (line * 64)
    | none => s

/-- A line dirty in the buffer is written back; one that is uncorrectable there is not, and reads of its data give POISON from then on. -/
def State.writeBack (s : State) (e line : Nat) : State :=
  let (s, bad) := s.eccReads (engDie e) 11 (s.bufWords e line) false
  let s := if bad then ((s.bufBad e line).bufWrite e line (2 ^ 64 - 1)).bufLose e line else s.bufDrop e line
  match s.regionAt e (line * 64) with
  | some (r, x) => if bad then s.setPoison (insertNat line s.poison) else s.dataBack e r x line
  | none => match s.metaAt e (line * 64) with
    | some (r, x) => if bad then s else s.metaBack e r x (line - s.metaBase e r / 64)
    | none => s

/-- How far from the data a dirty line stands: data lines, then counter lines, tag lines, which hold their tags, and the levels in turn. -/
def State.backRank (s : State) (e line : Nat) : Nat :=
  match s.metaAt e (line * 64) with
  | some (r, x) => match metaLine x.groups (line - s.metaBase e r / 64) with
    | .counter 0 _ => 1
    | .tag => 2
    | .counter k _ => k + 2
  | none => 0

/-- Write the whole buffer back, children before their parents (R479); the count bounds the write-backs. -/
def State.writeBackAll (s : State) (e : Nat) : Nat → State
  | 0 => s
  | n + 1 =>
    let dirty := (s.prot e).dirty
    match (List.range 18).findSome? fun k => dirty.find? fun l => s.backRank e l == k with
    | some l => (s.writeBack e l).writeBackAll e n
    | none => s

/-! ### Data from the die caches -/

/-- The engine of a line. -/
def lineEngine (line : Nat) : Option Nat :=
  match decodeAddr (line * 64) with
  | some (.ddr c _) => some c
  | some (.cxl p _) => some (4 + p)
  | _ => none

/-- Whether the memory of an engine takes write-backs: a CXL port that is ACTIVE, or a DDR5 channel in READY or SELF_REFRESH (R439, R448), with
keys (R469). -/
def State.engTakes (s : State) (e : Nat) : Bool :=
  let a := atUnit (engDie e) (e % 2)
  !s.flag (atDie .e0) .PROT_KEY_STAT_FAIL &&
    (if e < 4 then decide (4 ≤ s.get a .MEM_DDR_STAT_STATE) else s.get a .MEM_CXL_STAT_STATE == 3)

/-- Data of a line from a die cache reaches its memory by the engine of its home, its rights unchecked (R467, R472): it is encrypted and written,
or it merges into the protection buffer (R479). Where the memory takes nothing, and in a region or a group that takes no writes, it is not
performed, as any other write (R475, R482, R484). -/
def State.backStore (s : State) (d : Die) (line : Nat) (v : BitVec 512) : State :=
  match lineEngine line with
  | none => s
  | some e =>
    let put (s : State) : State :=
      ((s.setPoison (removeNat line s.poison)).closeLine line).setMem (s.mem.write (line * 64) v.toNat 64)
    let plain (s : State) : State := let s := put s; s.lineOut e line (s.mem.line line)
    if !s.engTakes e then s
    else match s.regionAt e (line * 64) with
    | none => plain s
    | some (n, x) =>
      match s.rgnSt e n with
      | 4 =>
        let p := s.prot e
        let g := (line * 64 - x.base) / 4096
        if p.whole.contains n || p.failed.any (covers n g) || p.locked.any (covers n g) then s
        else if p.dirty.contains line then (put s).dirties e line (2 ^ 64 - 1)
        else if 2048 ≤ p.dirty.length then
          let r := engineReq (ident d (lineSlice line / 8) (lineSlice line % 8) 4) 0 1 true (line * 64) 6 v.toNat (2 ^ 64 - 1)
          s.onProt e fun y => { y with waiting := y.waiting ++ [(r, .good)] }
        else match s.saturates e n x line g with
        | some (k, i) => (s.used).lockGroups e n x k i (s.free 3) (line * 64)
        | none => (put s).dirties e line (2 ^ 64 - 1)
      | 2 | 3 | 5 => s
      | _ => plain s

end Sys2Proof.Machine
end

