-- ==== Sys2Proof/Machine/Home.lean ====
section
/-! DEFINITION. The home directories, and what reaches them from the die caches (chapter 05, R150 to R154). -/

namespace Sys2Proof.Machine

/-- Data of a line that reaches its home goes to its memory (R151): all 64 bytes, so the line holds no poison any more, but for data
that is itself poisoned (R486). -/
def State.lineArrives (s : State) (d : Die) (line : Nat) : State :=
  match s.net.lines.find? fun e => e.1 == flightKey d line with
  | some (_, v) =>
    if s.net.sick.contains (flightKey d line) then
      ((s.dropLine (flightKey d line)).setSick (flightKey d line) false).setPoison (insertNat line s.poison)
    else
      (s.dropLine (flightKey d line)).backStore d line v
  | none => s

/-- Data of a line reaches its home with a word that is uncorrectable there: the transfer completes with POISON (R135), and the line, whose
dirty data is lost, is poisoned (DEDUCED, log entry 231). -/
def State.lineSpoiled (s : State) (d : Die) (line : Nat) : State :=
  match s.net.lines.find? fun e => e.1 == flightKey d line with
  | some _ => ((s.dropLine (flightKey d line)).setSick (flightKey d line) false).setPoison (insertNat line s.poison)
  | none => s

/-- The data of a line that a die holds M goes back to memory. -/
def State.lineBack (s : State) (d : Die) (line : Nat) : State := (s.lineLeaves d line).lineArrives d line

/-- The home serves a request: the directory takes its record, data that came with a WR_BACK is written, and the request goes to the memory
(R151). `die` 8 is an uncached path. -/
def State.homeServe (s : State) (op : HomeOp) (die line : Nat) : State :=
  let s := match op with
    | .wrBack => s.lineArrives (Die.ofIdx die) line
    | .wrBackBad => s.lineSpoiled (Die.ofIdx die) line
    | _ => s
  let r := s.dirRec line
  let after := dirAfter r op die (Tbl.get 0 s.dieResets die)
  let after := if op = .rd ∧ r.exclusive = false then r else after
  (s.setDirRec line after).emit (.served op die line)

/-- The home snoops the die caches that hold a line before it serves a request, or serves it at once. -/
def State.homeAsk (s : State) (op : HomeOp) (d l snoop : Nat) (who : List Nat) : State :=
  if who = [] then s.homeServe op d l else (s.snoopAll l snoop who).setHomeTxn (Tbl.set s.homeTxn l ⟨op, d, who, []⟩)

/-- The home directory takes up a request: it snoops as the table of R151 says, and serves it. -/
def State.homeTake (s : State) (op : HomeOp) (d l : Nat) : State :=
  let s := (s.dirLook l).refreshDir l
  let r := s.dirRec l
  let others := (r.holders.map Prod.fst).filter fun h => h != d
  match op with
  | .rdShd | .rd => s.homeAsk op d l 1 (if r.exclusive then others else [])
  | .rdUnq | .wr | .atomic => s.homeAsk op d l 0 others
  | .evict | .wrBack | .wrBackBad => s.homeAsk op d l 0 []

/-- The request of a die-cache slice that a fill answers first: the first that waits and asks for the line as the fill does. -/
def State.fillFirst (s : State) (op : HomeOp) (d : Die) (line : Nat) : Option NocReq :=
  (Tbl.get [] s.dcWait (dcKey d line)).find? fun r => r.takes == (op == .rdUnq)

/-- Whether the engine denies a die-cache fill, which carries the ICLS of the request that missed (R469, R472). -/
def State.fillDenies (s : State) (op : HomeOp) (die : Option FDie) (line : Nat) : Bool :=
  match die, lineEngine line with
  | some d, some e =>
    (op == .rdShd || op == .rdUnq) && (s.fillFirst op d.die line).any fun r => (s.protGate e r).2.isSome
  | _, _ => false

/-- A fill is denied: the directory does not act, the requests that have no right are answered, and the fill is asked for again where others
wait (R472; DEDUCED, log entry 250). -/
def State.fillDenied (s : State) (die : Option FDie) (line : Nat) : State :=
  match die, lineEngine line with
  | some d, some e =>
    let l := Tbl.get [] s.dcWait (dcKey d.die line)
    let no := l.filter fun r => (s.protGate e r).2.isSome
    let ok := l.filter fun r => (s.protGate e r).2.isNone
    let t := no.foldl (fun s r => (s.protGate e r).1.respond r 6 0) s
    let t := t.setDcWait (if ok = [] then Tbl.erase t.dcWait (dcKey d.die line) else Tbl.set t.dcWait (dcKey d.die line) ok)
    if ok = [] then t else t.emit (.home (if ok.any NocReq.takes then .rdUnq else .rdShd) d.die.idx line)
  | _, _ => s

/-- The home directory acts on a request before it serves it (R151). `die` is the die cache that asks, none for an uncached path;
`full` is an entry that its set gives up. A request for a line whose snoops are not yet answered waits for them; one whose set can give
nothing up waits at the home, and the command comes again (DESIGN CHOICE, log entry 193). -/
def execHomeDirectoryRequest (op : HomeOp) (die : Option FDie) (line : BitVec 42) (full : Option (BitVec 42)) (s : State) : Res :=
  let l := line.toNat
  let d := match die with
    | some d => d.die.idx
    | none => 8
  .next (match lineHome l with
  | none => s
  | some h =>
    if s.fillDenies op die l then s.fillDenied die l
    else match s.homeTxn.find? fun e => e.1 == l with
    | some (_, t) => s.setHomeTxn (Tbl.set s.homeTxn l { t with queue := t.queue ++ [(op, d)] })
    | none =>
      let (s, room) := if op = .rdShd ∨ op = .rdUnq then s.dirRoom h l full else (s, true)
      if room then s.homeTake op d l else s)

/-- The snoops for a line are answered: the request is served, and what waited behind it is taken up in order, as far as it goes; for what
finds no room in its set, the command comes again (DESIGN CHOICE, log entry 193). -/
def State.homeNext (s : State) (t : HomeTxn) (l : Nat) : State :=
  let s := s.setHomeTxn (Tbl.erase s.homeTxn l)
  let s := if t.op = .evict ∧ t.die = 8 then s else s.homeServe t.op t.die l
  t.queue.foldl (fun s q => match s.homeTxn.find? fun e => e.1 == l with
    | some (_, t) => s.setHomeTxn (Tbl.set s.homeTxn l { t with queue := t.queue ++ [q] })
    | none => match lineHome l with
      | some h =>
        let (s, room) := if q.1 = .rdShd ∨ q.1 = .rdUnq then s.dirRoom h l none else (s, true)
        if room then s.homeTake q.1 q.2 l else s.emit (.home q.1 q.2 l)
      | none => s) s

/-- A snoop answer reaches the home; DIE_DOWN and FENCED count as answered, and lose what the die held exclusive (R152, R153). When
every answer is there the request is served. -/
def execSnoopAckArrival (line : BitVec 42) (die : FDie) (answer : SnoopAnswer) (s : State) : Res :=
  let l := line.toNat
  let d := die.die.idx
  .next (match s.homeTxn.find? fun e => e.1 == l with
  | none => s
  | some (_, t) =>
    if !t.wait.contains d then s
    else
      let lost := answer == .dieDown || answer == .fenced
      let keeps := (t.op == .rdShd || t.op == .rd) && !lost
      let s := match answer with
        | .ackData => s.lineArrives die.die l
        | .ackDataBad => s.lineSpoiled die.die l
        | _ => s
      let s := if keeps then (let r := s.dirRec l; s.setDirRec l ⟨false, r.holders⟩) else s.dropHolder l d lost
      let wait := removeNat d t.wait
      if wait ≠ [] then s.setHomeTxn (Tbl.set s.homeTxn l { t with wait := wait }) else s.homeNext t l)

/-- A home serves a request only after its directory has acted on it (R151): data that a die cache still holds dirty is merged, and the
line stays shared there for a read. -/
def State.recall (s : State) (r : NocReq) : State :=
  let line := r.addr.toNat / 64
  let writes := r.takes || r.op == 2
  Die.all.foldl (fun s d =>
    if s.dcLine d line = 3 then
      let s := (s.lineBack d line).setDcLine d line (if writes then 0 else 1)
      if writes then s.dropHolder line d.idx false else s.setDirRec line ⟨false, (s.dirRec line).holders⟩
    else s) s

/-- The flush is complete: every dirty line has been written back, the cache is empty, and no directory names the die. -/
def execDieCacheFlushDone (die : FDie) (s : State) : Res :=
  let d := die.die
  .next (if s.flag (atDie d) .NOC_DC_CMD_BUSY then
    let lines := (s.dcache.filter fun e => e.1 / 2 ^ 42 == d.idx).map fun e => (e.1 % 2 ^ 42, e.2)
    let s := lines.foldl (fun s e =>
      (((s.lineBack d e.1).setDcLine d e.1 0).dropHolder e.1 d.idx false).emit (.home (if e.2 = 3 then .wrBack else .evict) d.idx e.1)) s
    s.put (atDie d) .NOC_DC_CMD_BUSY 0
  else s)

end Sys2Proof.Machine
end

