-- ==== Sys2Proof/Machine/Service.lean ====
section
/-! DEFINITION. The service of a request to memory behind the protection engines, and the registers of the regions (chapters 16 and 17; rows
308 to 314). -/

namespace Sys2Proof.Machine

/-! ### Pages of the DDR5 channels (R447, R450) -/

/-- A channel with nothing in hand. -/
def DdrCh.idle : DdrCh := ⟨[], false, false, [], 0, 0, 0, []⟩

/-- What a channel holds beside its registers. -/
def State.ddrCh (s : State) (ch : Nat) : DdrCh := Tbl.get DdrCh.idle s.ddr ch

/-- Change what a channel holds. -/
def State.onDdr (s : State) (ch : Nat) (f : DdrCh → DdrCh) : State := s.setDdr (Tbl.set s.ddr ch (f (s.ddrCh ch)))

/-- Where the registers of a DDR5 channel lie. -/
def ddrAt (ch : Nat) : At := atUnit (homeDie ch) (ch % 2)

/-- The bank and the row of a channel offset (R447): above the line, subchannel, bank group, bank, column, rank and row. -/
def State.ddrPlace (s : State) (ch off : Nat) : Nat × Nat :=
  let col := if s.flag (ddrAt ch) .MEM_DDR_CFG_X8 then 6 else 7
  let rank := if s.flag (ddrAt ch) .MEM_DDR_CFG_RANKS2 then 1 else 0
  (bitsOf off 6 6 + bitsOf off (12 + col) rank * 2 ^ 6, off / 2 ^ (12 + col + rank))

/-- A bank with its page closed and no access yet (DESIGN CHOICE, log entry 218). -/
def DdrBank.idle : DdrBank := ⟨none, false, 0⟩

/-- A bank after an access to a row, under MEM_DDR_CFG.POLICY (R450): 0 PREDICT, 1 OPEN, 2 CLOSED; 3 acts as 0. An access misses where its row
is not that of the access before it (DEDUCED, log entry 207). -/
def DdrBank.access (b : DdrBank) (policy row : Nat) : DdrBank :=
  let hist := (2 * b.hist + natOf (b.row != some row)) % 16
  let keep := match policy with
    | 1 => true
    | 2 => false
    | _ => decide ((bitsOf hist 0 1 + bitsOf hist 1 1 + bitsOf hist 2 1 + bitsOf hist 3 1) < 3)
  ⟨some row, keep, hist⟩

/-- An access of a channel to a line at an offset: its bank's page follows, and a page hit is counted (R450, R532). -/
def State.pageAccess (s : State) (ch off : Nat) : State :=
  let (bank, row) := s.ddrPlace ch off
  let b := Tbl.get DdrBank.idle (s.ddrCh ch).banks bank
  let s := if b.isOpen && b.row == some row then s.pmcItems (homeDie ch) 0x262 (ch % 2) 1 else s
  let policy := s.get (ddrAt ch) .MEM_DDR_CFG_POLICY
  s.onDdr ch fun x => { x with banks := Tbl.set x.banks bank (b.access policy row) }

/-! ### Serving a request -/

/-- Answer a request with a status other than OKAY; a die-cache fill goes to its slice. -/
def State.memAnswer (s : State) (r : NocReq) (status : Nat) : State :=
  if (r.op = 1 ∨ r.op = 2) ∧ (idDie r.src.toNat).isFab = true then
    s.cacheFill (idDie r.src.toNat) (r.addr.toNat / 64) status false 0
  else s.respond r status 0

/-- Perform a request at its home and answer it; a fill takes the rights vector of its line (R473). -/
def State.memDo (s : State) (e : Nat) (r : NocReq) : State :=
  let line := r.addr.toNat / 64
  let s := s.recall r
  let s := if fullLine r then s else s.defineLine line
  if (r.op = 1 ∨ r.op = 2) ∧ (idDie r.src.toNat).isFab = true then
    s.cacheFill (idDie r.src.toNat) line (if s.poison.contains line then 1 else 0) (r.op == 2 || (s.dirRec line).exclusive)
      (s.rightsOf e r.addr.toNat)
  else
    let s := if fullLine r then s.closeLine line else s
    s.serveLine r

/-- MEM_DDR_ECC_ADDR holds the first error since VALID was cleared (R449). -/
def State.ddrFirst (s : State) (ch line : Nat) (ue : Bool) : State :=
  if s.flag (ddrAt ch) .MEM_DDR_ECC_ADDR_VALID then s
  else s.puts (ddrAt ch) [(.MEM_DDR_ECC_ADDR_VALID, 1), (.MEM_DDR_ECC_ADDR_UE, natOf ue), (.MEM_DDR_ECC_ADDR_LINE, line)]

/-- A corrected read of a DDR5 channel (R449). -/
def State.ddrCe (s : State) (ch line : Nat) : State :=
  let s := (s.bump (ddrAt ch) .MEM_DDR_ECC_CE 1).ddrFirst ch line false
  let key := 2 ^ 19 + ch
  if s.onceBusy key then s else (s.onceStart key).raise (homeDie ch) Ev.MEM_DDR_CE (ch + line * 2 ^ 8)

/-- An uncorrectable read of a DDR5 channel (R449). -/
def State.ddrUe (s : State) (ch line : Nat) : State :=
  ((s.bump (ddrAt ch) .MEM_DDR_ECC_UE 1).ddrFirst ch line true).raise (homeDie ch) Ev.MEM_DDR_UE (ch + line * 2 ^ 8)

/-- What a read of a line finds is counted at a DDR5 channel. -/
def State.memRead (s : State) (e addr : Nat) (quiet : Bool) (check : MemCheck) : State :=
  let line := (addr - (engRange e).1) / 64
  match check with
  | .corrected => if e < 4 ∧ quiet = false then s.ddrCe e line else s
  | .bad => if e < 4 then s.ddrUe e line else s
  | .good | .tag | .node _ => s

/-- Perform a request on a line outside the protected regions; the memory gets the line that it writes, encrypted: a CXL device has had it with the
request, but for an atomic, which is a read and a write of the line (R440). -/
def State.memWrote (s : State) (e : Nat) (r : NocReq) : State :=
  let line := r.addr.toNat / 64
  let s := s.memDo e r
  if ((r.isWrite && decide (e < 4)) || r.isAtomic) && !s.poison.contains line then s.lineOut e line (s.mem.line line) else s

/-- Serve a request of a line outside protection: a request that reads an uncorrectable line completes with POISON (R440, R449). -/
def State.servePlain (s : State) (e : Nat) (r : NocReq) (check : MemCheck) : State :=
  if fullLine r then s.memWrote e r
  else
    let s := s.memRead e r.addr.toNat (quietRead r) check
    if check = .bad then s.memAnswer r 1 else s.memWrote e r

/-- The lines of metadata of a group, from its counter line to its top node. -/
def State.groupNodes (s : State) (e r : Nat) (x : ProtRegion) (g : Nat) : List Nat :=
  let base := s.metaBase e r / 64
  (List.range (treeLevels x.groups + 1)).map fun k => base + (if k = 0 then g else treeBase x.groups k + g / 8 ^ k)

/-- A read of a line of a protected region has been verified: the line, its tag line, and its counter line and nodes up to the first one that
is in the buffer are there from now on (R479, R480). -/
def State.fetched (s : State) (e r : Nat) (x : ProtRegion) (line g : Nat) : State :=
  let nodes := s.groupNodes e r x g
  let first := (nodes.takeWhile fun l => !(s.prot e).holds l).length
  s.bufTouch e ((nodes.take (first + 1)).reverse ++
    [s.metaBase e r / 64 + x.groups + 8 * g + (line - x.base / 64) % 64 / 8, line])

/-- Serve a request of an ACTIVE region (R480 to R484). A write that finds no room in the protection buffer waits (R479). What is found in a
line counts where the line is fetched: not in one that the buffer holds, nor beyond the first node that it holds. -/
def State.serveProtected (s : State) (e : Nat) (r : NocReq) (check : MemCheck) (n : Nat) (x : ProtRegion) : State :=
  let a := r.addr.toNat
  let line := a / 64
  let g := (a - x.base) / 4096
  let p := s.prot e
  let dirty := p.dirty.contains line
  let held := p.holds line
  let writes := r.isWrite || r.isAtomic
  let sick := if writes then 7 else 1
  let level := match check with
    | .node k => if ((s.groupNodes e n x g).take (k.val + 1)).all (fun l => !p.holds l) && decide (k.val ≤ treeLevels x.groups) then
        some k.val else none
    | _ => none
  if p.whole.contains n || p.failed.any (covers n g) then s.memAnswer r sick
  else match (if held then none else level) with
  | some k => (s.nodeFail e n k (g / 8 ^ k) r.icls.toNat a).memAnswer r sick
  | none =>
    if writes && p.locked.any (covers n g) then s.memAnswer r 7
    else if writes && !dirty && decide (2048 ≤ p.dirty.length) then
      s.onProt e fun y => { y with waiting := y.waiting ++ [(r, check)] }
    else match (if writes && !dirty then s.saturates e n x line g else none) with
    | some (k, i) => (s.lockGroups e n x k i r.icls.toNat a).memAnswer r 7
    | none =>
      let reads := !held && !fullLine r
      let s := if reads then s.memRead e a (quietRead r) check else s
      let (s, bad) := s.eccReads (engDie e) 11 (if held && !fullLine r then s.bufWords e line else []) (quietRead r)
      if bad then (s.integFail e r.icls.toNat a).memAnswer r 1
      else if reads && check == .tag then (s.integFail e r.icls.toNat a).memAnswer r 1
      else if reads && check == .bad then s.memAnswer r 1
      else
        let s := if fullLine r then s else s.fetched e n x line g
        let s := s.memDo e r
        if writes then s.dirties e line (lineMask r) else s

/-- Serve a request by the state of its region (R475). -/
def State.regionServe (s : State) (e : Nat) (r : NocReq) (check : MemCheck) : State :=
  match s.regionAt e r.addr.toNat with
  | none => s.servePlain e r check
  | some (n, x) =>
    match s.rgnSt e n with
    | 2 | 3 => s.memAnswer r 7
    | 4 => s.serveProtected e r check n x
    | 5 => s.memAnswer r (if r.isWrite || r.isAtomic then 7 else 1)
    | _ => s.servePlain e r check

/-- Serve a request that has passed the check of rights and that its memory serves (R475). -/
def State.memServe (s : State) (e : Nat) (r : NocReq) (check : MemCheck) : State :=
  let d := engDie e
  let s := if r.op = 3 then s else s.bwCount d (if e < 4 then 6 else 7) (e % 2) 64 1
  let s := if e < 4 ∧ r.op ≠ 3 then s.pmcItems d (if r.isWrite then 0x261 else 0x260) (e % 2) 1 else s
  let s := if e < 4 ∧ r.op ≠ 3 then s.pageAccess e (r.addr.toNat - (engRange e).1) else s
  if r.op = 3 then s.memAnswer r 0 else s.regionServe e r check

/-- The writes that waited for room in the protection buffer are served, in order, as far as there is room (R479). -/
def State.serveWaiting (s : State) (e : Nat) : State :=
  (s.prot e).waiting.foldl (fun s w => s.regionServe e w.1 w.2) (s.onProt e fun p => { p with waiting := [] })

/-- The buffer is written back before a channel or port stops serving, and with it the writes that wait for room in it. -/
def State.flushBuffer (s : State) (e : Nat) : State :=
  let s := (s.writeBackAll e ((s.prot e).dirty.length * 18)).serveWaiting e
  s.writeBackAll e ((s.prot e).dirty.length * 18)

/-- 5 µs after a line was dirtied, it is written back. -/
def execProtBufferWriteback (eng : Fin 8) (line : BitVec 42) (s : State) : Res :=
  .next (if (s.prot eng).dirty.contains line.toNat then (s.writeBack eng line.toNat).serveWaiting eng else s)

/-! ### Region registers -/

/-- Mark a register command as ignored. -/
def State.rgnIgnored (s : State) (e r : Nat) : State := s.put (rgnAt e r) .PROT_RGN_STAT_CMD_IGNORED 1

/-- Whether a walk of R474 or an INIT runs. -/
def State.rgnBusy (s : State) (e r : Nat) : Bool := s.flag (rgnAt e r) .PROT_RGN_STAT_BUSY

/-- The home's walk starts: BUSY in every region of the engine (R474). -/
def State.walkStart (s : State) (e : Nat) : State :=
  (List.range 16).foldl (fun s r => s.put (rgnAt e r) .PROT_RGN_STAT_BUSY 1) (s.onProt e fun p => { p with walks := true })

/-- A write of rights: PROT_RGN_RIGHTS of a region, or PROT_DEF, whose refusal shows in the region that PROT_IDX selects (R474). -/
def State.rightsWrite (s : State) (e : Nat) (rgn : Option (Fin 16)) (v : Word) : State :=
  match rgn with
  | some r => if s.rgnBusy e r then s.rgnIgnored e r else (s.writeReg (rgnAt e r) .PROT_RGN_RIGHTS v).walkStart e
  | none =>
    let r := s.get (atDie (engDie e)) .PROT_IDX_RGN
    if s.rgnBusy e r then s.rgnIgnored e r else (s.writeReg (engAt e) .PROT_DEF v).walkStart e

/-- A write of rights. -/
def execProtRightsWrite (eng : Fin 8) (rgn : Option (Fin 16)) (value : BitVec 32) (s : State) : Res :=
  .next (s.rightsWrite eng rgn value)

/-- The walk ends: SNP_FLUSH has removed every copy of the engine's lines from the die caches, with dirty data written by the engine (R474). -/
def State.walkEnd (s : State) (e : Nat) : State :=
  if (s.prot e).walks then
    let mine (line : Nat) : Bool := within (line * 64) (engRange e)
    let cached := s.dcache.filter fun x => mine (x.1 % 2 ^ 42)
    let s := cached.foldl (fun s x =>
      let d := Die.ofIdx (x.1 / 2 ^ 42)
      let l := x.1 % 2 ^ 42
      let m := x.2 == 3
      (((s.emit (.snoop l d.idx 2)).lineBack d l).setDcLine d l 0).emit (.snoopAck l d.idx m)) s
    let s := s.dirDrop mine
    let s := s.onProt e fun p => { p with walks := false }
    (List.range 16).foldl (fun s r => s.put (rgnAt e r) .PROT_RGN_STAT_BUSY (natOf (s.rgnSt e r == 3))) s
  else s

/-- The walk ends and BUSY clears. -/
def execProtWalkDone (eng : Fin 8) (s : State) : Res := .next (s.walkEnd eng)

/-- Whether a region's definition keeps the rules of R475 and R476. -/
def State.regionFits (s : State) (e r : Nat) (x : ProtRegion) : Bool :=
  let data := (x.base, 2 ^ x.lg)
  let area := s.metaArea e r x
  let (lo, size) := engRange e
  let inside (y : Nat × Nat) : Bool := decide (lo ≤ y.1 ∧ y.1 + y.2 ≤ lo + size)
  let others := (s.regionsOf e).filter fun y => y.1 != r
  let clear (y : Nat × Nat) : Bool := !others.any fun o => meet y (o.2.base, 2 ^ o.2.lg) || meet y (s.metaArea e o.1 o.2)
  (if x.integ then decide (24 ≤ x.lg ∧ x.lg ≤ 40) else decide (20 ≤ x.lg ∧ x.lg ≤ 43)) &&
    x.base % 2 ^ x.lg == 0 && inside data && clear data &&
    (!x.integ || (area.1 % 2 ^ 20 == 0 && inside area && clear area && !meet data area))

/-- A write of PROT_RGN_CFG defines or clears a region (R475). -/
def State.regionCfg (s : State) (e r : Nat) (v : Word) : State :=
  let a := rgnAt e r
  let x : ProtRegion :=
    ⟨s.get a .PROT_RGN_BASE_LO_BASE + s.get a .PROT_RGN_BASE_HI_BASE * 2 ^ 32, bitsOf v.toNat 0 6, bitOf v.toNat 30⟩
  let on := bitOf v.toNat 31
  if s.rgnBusy e r || decide (3 ≤ s.rgnSt e r) || (on && !s.regionFits e r x) then s.rgnIgnored e r
  else
    let s := s.writeReg a .PROT_RGN_CFG v
    let s := s.setRegions (if on then Tbl.set s.regions (e * 16 + r) x else Tbl.erase s.regions (e * 16 + r))
    let s := s.put a .PROT_RGN_STAT_STATE (if on then (if x.integ then 2 else 1) else 0)
    let s := if on && x.integ then
        s.puts a [(.PROT_RGN_META_SZ_LEVELS, treeLevels x.groups),
          (.PROT_RGN_META_SZ_MIB, (64 * metaLines x.groups + 2 ^ 20 - 1) / 2 ^ 20)]
      else s.puts a [(.PROT_RGN_META_SZ_LEVELS, 0), (.PROT_RGN_META_SZ_MIB, 0)]
    s.walkStart e

/-- A region is configured. -/
def execRegionConfigWrite (eng : Fin 8) (rgn : Fin 16) (value : BitVec 32) (s : State) : Res := .next (s.regionCfg eng rgn value)

/-- INIT of a DEFINED region starts (R478). -/
def State.regionInit (s : State) (e r : Nat) : State :=
  if s.rgnSt e r = 2 ∧ s.rgnBusy e r = false then
    s.puts (rgnAt e r) [(.PROT_RGN_STAT_STATE, 3), (.PROT_RGN_STAT_BUSY, 1), (.PROT_RGN_PROG_LINES, 0)]
  else s.rgnIgnored e r

/-- INIT is written. -/
def execRegionInit (eng : Fin 8) (rgn : Fin 16) (s : State) : Res := .next (s.regionInit eng rgn)

/-- The lines that an INIT writes. -/
def ProtRegion.initLines (x : ProtRegion) : Nat := 2 ^ (x.lg - 6) + metaLines x.groups

/-- An INIT ends with a result: 1 DONE, 2 ABORTED, 3 FAILED. -/
def State.initEnd (s : State) (e r result lines : Nat) (late : Bool) : State :=
  let s := s.puts (rgnAt e r) [(.PROT_RGN_STAT_STATE, if result = 1 then 4 else 2), (.PROT_RGN_STAT_BUSY, natOf (s.prot e).walks),
    (.PROT_RGN_STAT_RESULT, result), (.PROT_RGN_PROG_LINES, lines)]
  let s := if late then s.put (rgnAt e r) .PROT_RGN_STAT_ABORT_LATE 1 else s
  s.raise (engDie e) Ev.PROT_INIT_END (e + r * 2 ^ 8 + result * 2 ^ 16 + natOf late * 2 ^ 24)

/-- The lines that a running INIT has written, from those it has shown on: how fast it goes is open (DESIGN CHOICE, log entry 251). -/
def State.initShown (s : State) (e r : Nat) (x : ProtRegion) : Nat :=
  let n := s.get (rgnAt e r) .PROT_RGN_PROG_LINES
  n + s.free 42 % (x.initLines - n + 1)

/-- A cause under R484 strikes during INIT: which lines have been written is open. -/
def State.initFails (s : State) (e r : Nat) (x : ProtRegion) : State :=
  let n := Nat.min (x.initLines - 1) (s.initShown e r x)
  (((s.used).openRange x.base (2 ^ x.lg)).emit (.memInit e r n)).initEnd e r 3 n false

/-- Keep the table entries of the other regions; `per` is how many keys a region has. -/
def dropRegion (r per : Nat) (t : Tbl Nat) : Tbl Nat := Tbl.keep (fun k => k / per != r) t

/-- INIT ends: every data line holds zero and every counter is 0; or a cause under R484 has struck (R478). -/
def State.regionReady (s : State) (e r : Nat) (failed abort : Bool) : State :=
  match s.region e r with
  | some x =>
    if s.rgnSt e r ≠ 3 then s
    else if failed then s.initFails e r x
    else
      let first := x.base / 64
      let last := (x.base + 2 ^ x.lg) / 64
      let outside (l : Nat) : Bool := decide (l < first) || decide (last ≤ l)
      let s := (s.setMem (s.mem.clear x.base (2 ^ x.lg))).setPoison (s.poison.filter outside)
      let s := s.setOpenMem (s.openMem.flatMap fun y =>
        [(y.1, Nat.min y.2 first), (Nat.max y.1 last, y.2)].filter fun z => decide (z.1 < z.2))
      let s := s.onProt e fun p => { p with
        minors := Tbl.keep outside p.minors
        majors := dropRegion r (2 ^ 32) p.majors
        nodes := dropRegion r (2 ^ 36) p.nodes }
      (s.emit (.memInit e r x.initLines)).initEnd e r 1 x.initLines abort
  | none => s

/-- INIT reaches its end. -/
def execRegionInitDone (eng : Fin 8) (rgn : Fin 16) (failed abort : Bool) (s : State) : Res :=
  .next (s.regionReady eng rgn failed abort)

/-- An ABORT before the commit point stops INIT: which lines hold zero is not stated (R478). One that comes later is late. -/
def State.regionAbort (s : State) (e r n : Nat) : State :=
  match s.region e r with
  | some x =>
    if s.rgnSt e r ≠ 3 then s
    else if n < x.initLines then ((s.openRange x.base (2 ^ x.lg)).emit (.memInit e r n)).initEnd e r 2 n false
    else s.regionReady e r false true
  | none => s

/-- INIT is aborted. -/
def execRegionInitAbort (eng : Fin 8) (rgn : Fin 16) (lines : BitVec 32) (s : State) : Res := .next (s.regionAbort eng rgn lines.toNat)

/-- An ACTIVE region loses its memory: its lines in the buffer are discarded (R485), and what waits there is answered. An INIT ends as
FAILED (R478). -/
def State.regionLose (s : State) (e r : Nat) : State :=
  match s.region e r with
  | some x =>
    if s.rgnSt e r = 3 then
      s.initFails e r x
    else if s.rgnSt e r ≠ 4 then s
    else
      let gone (l : Nat) : Bool := within (l * 64) (x.base, 2 ^ x.lg) || within (l * 64) (s.metaArea e r x)
      let t := (s.put (rgnAt e r) .PROT_RGN_STAT_STATE 5).onProt e fun p => { p with
        dirty := p.dirty.filter fun l => !gone l
        clean := p.clean.filter fun l => !gone l
        cells := p.cells.filter fun y => !gone y.2 }
      (t.raise (engDie e) Ev.PROT_REGION_LOST (e + r * 2 ^ 8)).serveWaiting e
  | none => s

/-- Every ACTIVE region of an engine loses its memory, and what the memory holds is no longer defined. -/
def State.engLose (s : State) (e : Nat) : State :=
  let s := (List.range 16).foldl (fun s r => s.regionLose e r) s
  let (lo, size) := engRange e
  let s := s.setPoison (s.poison.filter fun l => !within (l * 64) (lo, size))
  (s.setOpenMem (s.openMem.filter fun y => !within (y.1 * 64) (lo, size))).openRange lo size

end Sys2Proof.Machine
end

