-- ==== Sys2Proof/Machine/Memory.lean ====
section
/-! DEFINITION. CXL ports, DDR5 channels and the PCIe link (chapter 16; rows 264 to 300). -/

namespace Sys2Proof.Machine

/-! ### CXL ports -/

/-- Where the registers of a CXL port lie. -/
def cxlAt (p : Nat) : At := atUnit (homeDie p) (p % 2)

/-- The state of a CXL port (R437): 0 EMPTY, 1 TRAINING, 2 LINKED, 3 ACTIVE, 4 DETACHED, 5 REFUSED. -/
def State.cxlSt (s : State) (p : Nat) : Nat := s.get (cxlAt p) .MEM_CXL_STAT_STATE

/-- A CXL port with nothing in hand. -/
def CxlPort.idle : CxlPort := ⟨[], false, false, false⟩

/-- What a port holds beside its registers. -/
def State.cxlPort (s : State) (p : Nat) : CxlPort := Tbl.get CxlPort.idle s.cxl p

/-- Change what a port holds. -/
def State.onCxl (s : State) (p : Nat) (f : CxlPort → CxlPort) : State := s.setCxl (Tbl.set s.cxl p (f (s.cxlPort p)))

/-- A port changes its state, which raises MEM_CXL_STATE. -/
def State.setCxlSt (s : State) (p n : Nat) : State :=
  if s.cxlSt p = n then s
  else
    (s.put (cxlAt p) .MEM_CXL_STAT_STATE n).raise (homeDie p) Ev.MEM_CXL_STATE (p + n * 2 ^ 8 +
      s.get (cxlAt p) .MEM_CXL_STAT_SPEED * 2 ^ 16 + s.get (cxlAt p) .MEM_CXL_STAT_WIDTH * 2 ^ 24)

/-- A command does not fit the state of its port. -/
def State.cxlIgnored (s : State) (p : Nat) : State := s.put (cxlAt p) .MEM_CXL_STAT_CMD_IGNORED 1

/-- Whether the two quads of a port are in the CXL role (R334, R435). -/
def State.cxlRole (s : State) (p : Nat) : Bool := s.laneRole (homeDie p) (p % 2 * 8) == 1

/-- The lanes of a port: x8 on both quads of the pair, or x4 on the even quad (R334, R435). -/
def State.cxlWidth (s : State) (p : Nat) : Nat := if s.laneRole (homeDie p) (p % 2 * 8 + 4) = 1 then 8 else 4

/-- Receiver detect finds a partner, once the quads are released: an EMPTY port trains, but not while TX_SAFE = 1 (R335, R437). -/
def State.cxlDetect (s : State) (p : Nat) : State :=
  if s.cxlRole p && s.laneSt (homeDie p) (p % 2 * 8) == 11 then
    let s := s.put (cxlAt p) .MEM_CXL_STAT_PRESENT 1
    if s.cxlSt p = 0 ∧ s.flag (cxlAt p) .MEM_CXL_STAT_TX_SAFE = false then s.setCxlSt p 1 else s
  else s

/-- A partner is detected. -/
def execCxlPartnerDetect (port : Fin 4) (s : State) : Res := .next (s.cxlDetect port)

/-- The link comes up (R436, R437), no faster than MAX_SPEED and no wider than the image's width: REFUSED narrower than x4 or without
CXL.mem. -/
def State.cxlUp (s : State) (p speed width : Nat) (mem : Bool) : State :=
  if s.cxlSt p = 1 then
    let speed := Nat.min speed (Nat.min 2 (s.get (cxlAt p) .MEM_CXL_CTRL_MAX_SPEED))
    let width := Nat.min width (s.cxlWidth p)
    let s := s.puts (cxlAt p) [(.MEM_CXL_STAT_SPEED, speed), (.MEM_CXL_STAT_WIDTH, width)]
    s.setCxlSt p (if decide (4 ≤ width) && mem then 2 else 5)
  else s

/-- A link comes up. -/
def execCxlLinkUp (port : Fin 4) (speed : BitVec 2) (width : Fin 9) (mem : Bool) (s : State) : Res :=
  .next (s.cxlUp port speed.toNat width mem)

/-- ENABLE_MEM takes LINKED to ACTIVE (R438); what the device's memory holds is not stated. -/
def State.cxlEnable (s : State) (p : Nat) : State :=
  if s.cxlSt p = 2 then
    let (lo, size) := engRange (4 + p)
    (s.openRange lo size).setCxlSt p 3
  else s.cxlIgnored p

/-- ENABLE_MEM is written. -/
def execEnableMem (port : Fin 4) (s : State) : Res := .next (s.cxlEnable port)

/-- A write of MEM_CXL_SIZE, ignored outside LINKED (R438). -/
def State.cxlSize (s : State) (p : Nat) (v : Word) : State :=
  if s.cxlSt p = 2 then s.writeReg (cxlAt p) .MEM_CXL_SIZE v else s.cxlIgnored p

/-- MEM_CXL_SIZE is written. -/
def execCxlSizeWrite (port : Fin 4) (value : BitVec 32) (s : State) : Res := .next (s.cxlSize port value)

/-- The bytes of its window that a port serves. -/
def State.cxlServed (s : State) (p : Nat) : Nat := Nat.min 32768 (s.get (cxlAt p) .MEM_CXL_SIZE_UNITS) * 2 ^ 28

/-- A write of MEM_CXL_IOA; GO performs one access in LINKED and ACTIVE (R438). -/
def State.cxlIoGo (s : State) (p : Nat) (v : Word) : State :=
  let s := s.writeReg (cxlAt p) .MEM_CXL_IOA v
  if bitOf v.toNat 31 && (s.cxlSt p == 2 || s.cxlSt p == 3) && !(s.cxlPort p).io then
    let s := (s.puts (cxlAt p) [(.MEM_CXL_IOA_DONE, 0), (.MEM_CXL_IOA_ERR, 0)]).onCxl p fun x => { x with io := true }
    s.emit (.cxlIo p (s.reg (cxlAt p) .MEM_CXL_IOA).toNat (s.reg (cxlAt p) .MEM_CXL_IOD).toNat)
  else s

/-- MEM_CXL_IOA is written. -/
def execCxlIoAccess (port : Fin 4) (value : BitVec 32) (s : State) : Res := .next (s.cxlIoGo port value)

/-- A CXL.io access completes: DONE, ERR, and the data of a read that has no error. -/
def State.cxlIoEnd (s : State) (p err : Nat) (data : Word) : State :=
  if (s.cxlPort p).io then
    let s := (s.onCxl p fun x => { x with io := false }).puts (cxlAt p) [(.MEM_CXL_IOA_DONE, 1), (.MEM_CXL_IOA_ERR, err)]
    if err = 0 ∧ s.flag (cxlAt p) .MEM_CXL_IOA_WRITE = false then s.setReg (cxlAt p) .MEM_CXL_IOD data else s
  else s

/-- A CXL.io access ends. -/
def execCxlIoDone (port : Fin 4) (err : BitVec 2) (data : BitVec 32) (s : State) : Res := .next (s.cxlIoEnd port err.toNat data)

/-- A response that the port synthesises (R439). -/
def State.cxlSynth (s : State) (p : Nat) (r : NocReq) (status : Nat) : State :=
  (s.bump (cxlAt p) .MEM_CXL_CNT_SYNTH 1).memAnswer r status

/-- Which of the four 16-byte blocks of a line a request's bytes lie in, as byte enables (DESIGN CHOICE, log entry 208). -/
def blockMask (a n : Nat) : Nat :=
  (List.range 4).foldl (fun m j => if a % 64 < 16 * j + 16 ∧ 16 * j < a % 64 + n then m + 0xFFFF * 2 ^ (16 * j) else m) 0

/-- A request as the device of a CXL port sees it (R440, R470): a write carries ciphertext, in whole cipher blocks; an atomic, and any
request of a protected region, begins as a read. -/
def State.toDevice (s : State) (p : Nat) (r : NocReq) : NocReq :=
  let line := r.addr.toNat / 64
  let guarded := (s.regionAt (4 + p) r.addr.toNat).any fun x => x.2.integ
  if guarded || r.isAtomic then { r with op := 0, data := 0, be := 0 }
  else if r.isWrite then
    let bytes := s.lineCipher (4 + p) line ((memPerform s.mem r).2.line line)
    { r with
      addr := BitVec.ofNat 48 (line * 64)
      size := 6
      data := BitVec.ofNat 512 (ofBytesLE bytes)
      be := BitVec.ofNat 64 (blockMask r.addr.toNat (2 ^ r.size.toNat)) }
  else r

/-- A request reaches a CXL window (R439, R440, R472): what the port serves goes to the device and waits for its answer. -/
def State.cxlRequest (s : State) (p : Nat) (r : NocReq) : State :=
  let (s, gate) := s.protGate (4 + p) r
  let off := r.addr.toNat - (engRange (4 + p)).1
  match gate with
  | some st => s.memAnswer r st
  | none =>
    if s.cxlSt p = 4 ∨ (s.cxlPort p).drains = true then s.cxlSynth p r 8
    else if s.cxlSt p ≠ 3 ∨ s.cxlServed p ≤ off then s.cxlSynth p r 5
    else (s.onCxl p fun x => { x with waiting := x.waiting ++ [r] }).emit (.cxlMem p (s.toDevice p r))

/-- Whether a request is to the window of a CXL port. -/
def toCxl (p : Nat) (r : NocReq) : Bool :=
  match decodeAddr r.addr.toNat with
  | some (.cxl q _) => q == p && r.known
  | _ => false

/-- A request reaches a CXL port. -/
def execCxlRequest (port : Fin 4) (r : NocReq) (s : State) : Res := .next (if toCxl port r then s.cxlRequest port r else s)

/-- The device answers an open request. -/
def State.cxlResponse (s : State) (p src tag : Nat) (check : MemCheck) : State :=
  match (s.cxlPort p).waiting.find? fun r => r.src.toNat == src && r.tag.toNat == tag with
  | some r => (s.onCxl p fun x => { x with waiting := x.waiting.erase r }).memServe (4 + p) r check
  | none => s

/-- A device response arrives. -/
def execCxlDeviceResponse (port : Fin 4) (src : BitVec 12) (tag : BitVec 10) (check : MemCheck) (s : State) : Res :=
  .next (s.cxlResponse port src.toNat tag.toNat check)

/-- The device sends a request of its own (R440). -/
def State.cxlDevice (s : State) (p : Nat) (write : Bool) (addr data : Nat) : State :=
  if s.cxlSt p = 2 ∨ s.cxlSt p = 3 then
    if write = true ∧ addr = 0xFEE00000 + 0x1000 * p then s.raise (homeDie p) Ev.MEM_CXL_IRQ (p + data * 2 ^ 8)
    else (s.bump (cxlAt p) .MEM_CXL_CNT_DEV_UR 1).emit (.cxlUr p)
  else s

/-- A device-originated request arrives. -/
def execCxlDeviceRequest (port : Fin 4) (write : Bool) (addr : BitVec 64) (data : BitVec 32) (s : State) : Res :=
  .next (s.cxlDevice port write addr.toNat data.toNat)

/-- The open requests of a port complete with DETACHED. -/
def State.cxlAbandon (s : State) (p : Nat) : State :=
  let open_ := (s.cxlPort p).waiting
  let writes := (s.prot (4 + p)).waiting.map Prod.fst
  (open_ ++ writes).foldl (fun s r => s.cxlSynth p r 8)
    ((s.onCxl p fun x => { x with waiting := [] }).onProt (4 + p) fun x => { x with waiting := [] })

/-- A port leaves ACTIVE: cause 0 surprise, 1 planned, 2 safe (R441 to R445, R485). The home's walk of the window starts. -/
def State.cxlDetach (s : State) (p cause : Nat) : State :=
  let s := (s.cxlAbandon p).engLose (4 + p)
  let s := s.onCxl p fun x => { x with drains := false, io := false, walks := true }
  let s := (s.put (cxlAt p) .MEM_CXL_STAT_CAUSE cause).setCxlSt p 4
  s.raise (homeDie p) Ev.MEM_CXL_DETACH (p + cause * 2 ^ 8)

/-- The link is lost (R437, R441). -/
def State.cxlLoss (s : State) (p : Nat) : State :=
  if s.cxlSt p = 3 then s.cxlDetach p 0
  else if s.cxlSt p = 2 then (s.onCxl p fun x => { x with io := false }).setCxlSt p 4
  else s

/-- A link is lost. -/
def execCxlLinkLoss (port : Fin 4) (s : State) : Res := .next (s.cxlLoss port)

/-- The lines that a die-cache slice holds and that meet a test leave it; the answer counts those in M. -/
def State.dropLines (s : State) (p : Nat → Bool) : State × Nat :=
  let cached := s.dcache.filter fun x => p (x.1 % 2 ^ 42)
  let s := cached.foldl (fun s x => s.setDcLine (Die.ofIdx (x.1 / 2 ^ 42)) (x.1 % 2 ^ 42) 0) s
  (s.dirDrop p, (cached.filter fun x => x.2 == 3).length)

/-- The walk of a detached window ends: every line is dropped, and those in M are lost (R442). -/
def State.cxlWalked (s : State) (p : Nat) : State :=
  if (s.cxlPort p).walks then
    let (s, lost) := s.dropLines fun l => within (l * 64) (engRange (4 + p))
    let s := (s.bump (cxlAt p) .MEM_CXL_CNT_LOST_DIRTY lost).onCxl p fun x => { x with walks := false }
    s.raise (homeDie p) Ev.MEM_CXL_DETACH (p + s.get (cxlAt p) .MEM_CXL_STAT_CAUSE * 2 ^ 8 + lost * 2 ^ 16)
  else s

/-- The home's walk ends. -/
def execCxlDetachWalkDone (port : Fin 4) (s : State) : Res := .next (s.cxlWalked port)

/-- DETACH in ACTIVE starts a planned removal: the protection buffer is written back (R443, R479). -/
def State.cxlPlanned (s : State) (p : Nat) : State :=
  if s.cxlSt p = 3 then (s.flushBuffer (4 + p)).onCxl p fun x => { x with drains := true } else s.cxlIgnored p

/-- DETACH is written. -/
def execDetach (port : Fin 4) (s : State) : Res := .next (s.cxlPlanned port)

/-- The drain of a planned removal ends. -/
def State.cxlDrained (s : State) (p : Nat) : State := if (s.cxlPort p).drains then s.cxlDetach p 1 else s

/-- The open requests have completed, or the drain limit has passed. -/
def execCxlDetachDrainEnd (port : Fin 4) (s : State) : Res := .next (s.cxlDrained port)

/-- ACK_DETACH returns a DETACHED port to EMPTY or TRAINING (R444). -/
def State.cxlAck (s : State) (p : Nat) : State :=
  if s.cxlSt p = 4 then
    s.setCxlSt p (natOf (s.flag (cxlAt p) .MEM_CXL_STAT_PRESENT && !s.flag (cxlAt p) .MEM_CXL_STAT_TX_SAFE))
  else s.cxlIgnored p

/-- ACK_DETACH is written. -/
def execAckDetach (port : Fin 4) (s : State) : Res := .next (s.cxlAck port)

/-- TX_REENABLE clears TX_SAFE, but not while the datum PLL coasts (R445). -/
def State.cxlReenable (s : State) (p : Nat) : State :=
  if s.flag (atDie .e0) .CLK_STATUS_COAST || !s.laneRails (homeDie p) then s.cxlIgnored p else s.put (cxlAt p) .MEM_CXL_STAT_TX_SAFE 0

/-- TX_REENABLE is written. -/
def execCxlTxReenable (port : Fin 4) (s : State) : Res := .next (s.cxlReenable port)

/-- A write of MEM_CXL_CTRL: its commands act in bit order (R444). -/
def State.cxlCtrl (s : State) (p : Nat) (v : Word) : State :=
  let n := v.toNat
  let s := s.writeReg (cxlAt p) .MEM_CXL_CTRL v
  let s := if bitOf n 0 then s.cxlEnable p else s
  let s := if bitOf n 1 then s.cxlPlanned p else s
  let s := if bitOf n 2 then s.cxlAck p else s
  if bitOf n 3 then s.cxlReenable p else s

/-- The partner leaves (R437). -/
def State.cxlLeave (s : State) (p : Nat) : State :=
  let s := s.put (cxlAt p) .MEM_CXL_STAT_PRESENT 0
  match s.cxlSt p with
  | 1 | 5 => s.setCxlSt p 0
  | 2 | 3 => s.cxlLoss p
  | _ => s

/-- A partner leaves. -/
def execCxlPartnerLeave (port : Fin 4) (s : State) : Res := .next (s.cxlLeave port)

/-! ### DDR5 channels -/

/-- The state of a channel (R448): 0 OFF, 1 RESET, 2 UNTRAINED, 3 TRAINING, 4 READY, 5 SELF_REFRESH. -/
def State.ddrSt (s : State) (ch : Nat) : Nat := s.get (ddrAt ch) .MEM_DDR_STAT_STATE

/-- Put the state of a channel. -/
def State.setDdrSt (s : State) (ch n : Nat) : State := s.put (ddrAt ch) .MEM_DDR_STAT_STATE n

/-- A command does not fit the state of its channel. -/
def State.ddrIgnored (s : State) (ch : Nat) : State := s.put (ddrAt ch) .MEM_DDR_STAT_CMD_IGNORED 1

/-- The density of a channel's devices in Gbit (R446). -/
def State.ddrDensity (s : State) (ch : Nat) : Nat := 16 + 8 * Nat.min 2 (s.get (ddrAt ch) .MEM_DDR_CFG_DENSITY)

/-- The capacity of a channel in GiB (R446). -/
def State.ddrCapacity (s : State) (ch : Nat) : Nat :=
  (1 + s.get (ddrAt ch) .MEM_DDR_CFG_RANKS2) * (if s.flag (ddrAt ch) .MEM_DDR_CFG_X8 then 8 else 16) * s.ddrDensity ch / 8

/-- The capacity that a channel serves, at most 64 GiB. -/
def State.ddrServed (s : State) (ch : Nat) : Nat := Nat.min 64 (s.ddrCapacity ch)

/-- A request reaches a DDR5 channel (R448, R472): served in READY, held in SELF_REFRESH, else DECODE. -/
def State.ddrRequest (s : State) (ch : Nat) (r : NocReq) (check : MemCheck) : State :=
  let (s, gate) := s.protGate ch r
  match gate with
  | some st => s.memAnswer r st
  | none =>
    if s.ddrServed ch * 2 ^ 30 ≤ r.addr.toNat - (engRange ch).1 then s.memAnswer r 5
    else match s.ddrSt ch with
    | 4 => s.memServe ch r check
    | 5 => s.onDdr ch fun x => { x with held := x.held ++ [(r, check)] }
    | _ => s.memAnswer r 5

/-- Whether a request is to a DDR5 channel. -/
def toDdr (ch : Nat) (r : NocReq) : Bool :=
  match decodeAddr r.addr.toNat with
  | some (.ddr c _) => c == ch && r.known
  | _ => false

/-- A request reaches a channel. -/
def execDdrRequest (ch : Fin 4) (r : NocReq) (check : MemCheck) (s : State) : Res :=
  .next (if toDdr ch r then s.ddrRequest ch r check else s)

/-- INIT in RESET starts the power-up sequence (R455). -/
def State.ddrInit (s : State) (ch : Nat) : State :=
  if s.ddrSt ch = 1 then s.onDdr ch fun x => { x with init := true } else s.ddrIgnored ch

/-- INIT is written. -/
def execInit (ch : Fin 4) (s : State) : Res := .next (s.ddrInit ch)

/-- The power-up sequence ends in UNTRAINED. -/
def State.ddrInitEnd (s : State) (ch : Nat) : State :=
  if s.ddrSt ch = 1 ∧ (s.ddrCh ch).init = true then (s.onDdr ch fun x => { x with init := false }).setDdrSt ch 2 else s

/-- Initialisation ends. -/
def execDdrInitDone (ch : Fin 4) (s : State) : Res := .next (s.ddrInitEnd ch)

/-- GO_READY takes UNTRAINED to READY (R448). -/
def State.ddrGo (s : State) (ch : Nat) : State := if s.ddrSt ch = 2 then s.setDdrSt ch 4 else s.ddrIgnored ch

/-- GO_READY is written. -/
def execGoReady (ch : Fin 4) (s : State) : Res := .next (s.ddrGo ch)

/-- The smallest power of two that is no smaller than a number of GiB. -/
def powerUp (n : Nat) : Nat := ((List.range 16).find? fun k => decide (n ≤ 2 ^ k)).elim n (2 ^ ·)

/-- The part of a channel that eighth `k` of its rows holds, within what it serves: the row bits stand above all others (R447,
R452). -/
def State.ddrEighth (s : State) (ch k : Nat) : Nat × Nat :=
  let size := powerUp (s.ddrCapacity ch) * 2 ^ 27
  let served := s.ddrServed ch * 2 ^ 30
  ((engRange ch).1 + k * size, Nat.min (k * size + size) served - k * size)

/-- The eighths that PASR does not retain. -/
def State.ddrLost (s : State) (ch : Nat) : List (Nat × Nat) :=
  ((List.range 8).filter fun k => s.bit (ddrAt ch) .MEM_DDR_CFG_PASR k).map (s.ddrEighth ch)

/-- Parts of a channel lose their contents, and with them the regions that they meet (R452, R485). -/
def State.ddrForget (s : State) (ch : Nat) (lost : List (Nat × Nat)) : State :=
  let s := (s.regionsOf ch).foldl (fun s x =>
    if lost.any fun y => meet y (x.2.base, 2 ^ x.2.lg) || meet y (s.metaArea ch x.1 x.2) then s.regionLose ch x.1 else s) s
  let s := s.flushBuffer ch
  lost.foldl (fun s y => if y.2 = 0 then s else s.openRange y.1 y.2) s

/-- A channel enters self-refresh: the protection buffer is written back, and what PASR does not retain is lost (R452, R485). -/
def State.ddrSleep (s : State) (ch : Nat) : State := (s.ddrForget ch (s.ddrLost ch)).setDdrSt ch 5

/-- SR_ENTER in READY (R452). -/
def State.ddrSrEnter (s : State) (ch : Nat) : State := if s.ddrSt ch = 4 then s.ddrSleep ch else s.ddrIgnored ch

/-- SR_ENTER is written. -/
def execSrEnter (ch : Fin 4) (s : State) : Res := .next (s.ddrSrEnter ch)

/-- SR_EXIT in SELF_REFRESH starts the return (R452). -/
def State.ddrSrExit (s : State) (ch : Nat) : State :=
  if s.ddrSt ch = 5 then s.onDdr ch fun x => { x with leaves := true } else s.ddrIgnored ch

/-- SR_EXIT is written. -/
def execSrExit (ch : Fin 4) (s : State) : Res := .next (s.ddrSrExit ch)

/-- The channel returns to READY, and what it held proceeds. -/
def State.ddrAwake (s : State) (ch : Nat) : State :=
  if s.ddrSt ch = 5 ∧ (s.ddrCh ch).leaves = true then
    let held := (s.ddrCh ch).held
    let s := (s.onDdr ch fun x => { x with leaves := false, held := [] }).setDdrSt ch 4
    held.foldl (fun s e => s.memServe ch e.1 e.2) s
  else s

/-- The return from self-refresh ends. -/
def execDdrSrExitDone (ch : Fin 4) (s : State) : Res := .next (s.ddrAwake ch)

/-- A write of MEM_DDR_CMD: its commands act in bit order. -/
def State.ddrCmd (s : State) (ch v : Nat) : State :=
  let s := if bitOf v 0 then s.ddrInit ch else s
  let s := if bitOf v 1 then s.ddrGo ch else s
  let s := if bitOf v 2 then s.ddrSrEnter ch else s
  if bitOf v 3 then s.ddrSrExit ch else s

/-- A write of MEM_DDR_MRW: GO writes a mode register of a rank, but not in OFF, RESET and READY (R455). -/
def State.ddrMode (s : State) (ch : Nat) (v : Word) : State :=
  let s := s.writeReg (ddrAt ch) .MEM_DDR_MRW v
  let st := s.ddrSt ch
  if bitOf v.toNat 31 && st != 0 && st != 1 && st != 4 then
    s.emit (.modeReg ch (bitsOf v.toNat 16 1) (bitsOf v.toNat 8 8) (bitsOf v.toNat 0 8))
  else s

/-- MEM_DDR_MRW is written. -/
def execDdrModeRegisterWrite (ch : Fin 4) (value : BitVec 32) (s : State) : Res := .next (s.ddrMode ch value)

/-- The first `n` bits of the training pattern of a byte lane (R455): PRBS23 from the seed PAT_VAL XOR lane, the repeated value of
PAT_VAL, or a one that walks over the eight DQ of the lane, a beat being eight bits (DESIGN CHOICE, log entry 214). -/
def State.ddrPattern (s : State) (ch lane n : Nat) : List Bool :=
  let v := s.get (ddrAt ch) .MEM_DDR_PAT_VAL_VAL
  match s.get (ddrAt ch) .MEM_DDR_PAT_MODE with
  | 1 => (List.range n).map fun i => bitOf v (i % 32)
  | 2 => (List.range n).map fun i => i % 8 == i / 8 % 8
  | _ => prbsBits n 3 (bitsFrom (v ^^^ lane) 23)

/-- A training step starts in UNTRAINED (R455): 1 CA, 2 WLVL, 3 RD, 4 WR. -/
def State.ddrTrain (s : State) (ch op : Nat) (rank : Bool) (count : Nat) : State :=
  let a := ddrAt ch
  let s := s.puts a [(.MEM_DDR_TRN_CTRL_RANK, natOf rank), (.MEM_DDR_TRN_CTRL_COUNT, count)]
  if s.ddrSt ch = 2 ∧ s.flag a .MEM_DDR_TRN_STAT_BUSY = false then
    let lanes := (List.range 10).map fun l => (s.ddrPattern ch l 64).map natOf
    let s := s.emit (.training ch op rank (Nat.max 1 count) lanes)
    ((s.put a .MEM_DDR_TRN_STAT_BUSY 1).onDdr ch fun x => { x with step := op }).setDdrSt ch 3
  else s.put a .MEM_DDR_TRN_STAT_CMD_IGNORED 1

/-- A CA step. -/
def execDdrTrainingCa (ch : Fin 4) (rank : Bool) (count : BitVec 16) (s : State) : Res := .next (s.ddrTrain ch 1 rank count.toNat)

/-- A write-levelling step. -/
def execDdrTrainingWlvl (ch : Fin 4) (rank : Bool) (count : BitVec 16) (s : State) : Res := .next (s.ddrTrain ch 2 rank count.toNat)

/-- A read step. -/
def execDdrTrainingRd (ch : Fin 4) (rank : Bool) (count : BitVec 16) (s : State) : Res := .next (s.ddrTrain ch 3 rank count.toNat)

/-- A write step. -/
def execDdrTrainingWr (ch : Fin 4) (rank : Bool) (count : BitVec 16) (s : State) : Res := .next (s.ddrTrain ch 4 rank count.toNat)

/-- A step ends with a result: 1 DONE, 2 ABORTED (R456). -/
def State.ddrStepEnd (s : State) (ch result : Nat) (late : Bool) : State :=
  let a := ddrAt ch
  let s := s.puts a [(.MEM_DDR_TRN_STAT_BUSY, 0), (.MEM_DDR_TRN_STAT_RESULT, result)]
  let s := if late then s.put a .MEM_DDR_TRN_STAT_ABORT_LATE 1 else s
  ((s.onDdr ch fun x => { x with step := 0 }).setDdrSt ch 2).raise (homeDie ch) Ev.MEM_DDR_TRN_END
    (ch + result * 2 ^ 8 + natOf late * 2 ^ 16)

/-- ABORT stops a step; no result is latched (R456). -/
def State.ddrAbort (s : State) (ch : Nat) : State := if s.ddrSt ch = 3 then s.ddrStepEnd ch 2 false else s

/-- ABORT is written. -/
def execDdrTrainingAbort (ch : Fin 4) (s : State) : Res := .next (s.ddrAbort ch)

/-- The counts of a step are latched (R455, R456). -/
def State.ddrStepDone (s : State) (ch errors fails : Nat) (abort : Bool) : State :=
  if s.ddrSt ch = 3 then (s.onDdr ch fun x => { x with errors := errors, fails := fails }).ddrStepEnd ch 1 abort else s

/-- A step reaches its commit point. -/
def execDdrTrainingStepDone (ch : Fin 4) (errors : BitVec 160) (fails : BitVec 80) (abort : Bool) (s : State) : Res :=
  .next (s.ddrStepDone ch errors.toNat fails.toNat abort)

/-- A write of MEM_DDR_TRN_CTRL: the step that OP names; ABORT acts after it, in bit order. -/
def State.ddrTrnCtrl (s : State) (ch v : Nat) : State :=
  let op := bitsOf v 28 3
  let s := if 1 ≤ op ∧ op ≤ 4 then s.ddrTrain ch op (bitOf v 27) (bitsOf v 0 16)
    else s.puts (ddrAt ch) [(.MEM_DDR_TRN_CTRL_RANK, bitsOf v 27 1), (.MEM_DDR_TRN_CTRL_COUNT, bitsOf v 0 16)]
  if bitOf v 31 then s.ddrAbort ch else s

/-- MEM_DDR_TRN_RES shows the lane that MEM_DDR_DLY_IDX names; a lane above 9 shows nothing. -/
def State.ddrResult (s : State) (ch : Nat) : Word :=
  let lane := s.get (ddrAt ch) .MEM_DDR_DLY_IDX_LANE
  let x := s.ddrCh ch
  if 10 ≤ lane then 0 else BitVec.ofNat 32 (bitsOf x.errors (16 * lane) 16 + bitsOf x.fails (8 * lane) 8 * 2 ^ 24)

/-- The refresh interval of a channel in ns (R451): 3.9 µs, halved while MR4 of a rank reports a high temperature. -/
def State.refreshInterval (s : State) (ch : Nat) : Nat := if (s.ddrCh ch).hot = [] then 3900 else 1950

/-- In READY the controller refreshes (R451). -/
def execDdrRefresh (ch : Fin 4) (s : State) : Res :=
  .next (if s.ddrSt ch = 4 then s.emit (.refresh ch (s.flag (ddrAt ch) .MEM_DDR_CFG_REF_SB) (s.refreshInterval ch)) else s)

/-- MR4 of a rank is read, every 16 ms (R451): a high temperature halves the refresh interval. -/
def execDdrMr4Poll (ch : Fin 4) (rank hot : Bool) (s : State) : Res :=
  .next (if s.ddrSt ch = 4 then
    s.onDdr ch fun x => { x with hot := if hot then insertNat (natOf rank) x.hot else removeNat (natOf rank) x.hot }
  else s)

/-- Where the delay of a rank, kind and lane lies (MEM_DDR_DLY_IDX). -/
def ddrDelay (ch rank kind lane : Nat) : At := { ddrAt ch with sel := rank * 256 + kind * 16 + lane }

/-- The DQS oscillator of a rank is read, and its read and write DQS delays are corrected (R451). -/
def State.ddrDrift (s : State) (ch rank wr rd : Nat) : State :=
  if s.ddrSt ch = 4 then
    (List.range 10).foldl (fun s l => (s.put (ddrDelay ch rank 2 l) .MEM_DDR_DLY_VALUE (bitsOf wr (9 * l) 9)).put
      (ddrDelay ch rank 4 l) .MEM_DDR_DLY_VALUE (bitsOf rd (9 * l) 9)) s
  else s

/-- The drift of the DQS delays is corrected. -/
def execDdrDqsDriftCheck (ch : Fin 4) (rank : Bool) (wr rd : BitVec 90) (s : State) : Res :=
  .next (s.ddrDrift ch (natOf rank) wr.toNat rd.toNat)

/-- The controller writes a line back as its memory holds it, corrected (R449): what a line that is dirty in the protection buffer holds there
is its older contents, which are open. -/
def State.lineAgain (s : State) (e line : Nat) : State :=
  if (s.prot e).dirty.contains line || s.poison.contains line then (s.used).emit (.memLine e line (bytesLE (s.free 512) 64))
  else match s.metaAt e (line * 64) with
    | some (r, x) => s.lineOut e line (bytesLE (s.metaWord e r x (line - s.metaBase e r / 64)) 64)
    | none => s.lineOut e line (s.mem.line line)

/-- The patrol reads a line, writes back what it corrects, and counts and reports what it finds (R449). -/
def State.ddrPatrol (s : State) (ch line : Nat) (check : MemCheck) : State :=
  if s.ddrSt ch = 4 ∧ s.get (ddrAt ch) .MEM_DDR_CFG_PATROL ≠ 0 ∧ line < s.ddrServed ch * 2 ^ 24 then
    let s := s.pageAccess ch (line * 64)
    match check with
    | .corrected => (s.ddrCe ch line).lineAgain ch ((engRange ch).1 / 64 + line)
    | .bad => s.ddrUe ch line
    | .good | .tag | .node _ => s
  else s

/-- The patrol reads a line. -/
def execDdrPatrolRead (ch : Fin 4) (line : BitVec 30) (check : MemCheck) (s : State) : Res := .next (s.ddrPatrol ch line.toNat check)

/-- A channel loses its contents and enters RESET, or OFF where it is not in use (R448, R453, R454); a training step in it is over. -/
def State.ddrReset (s : State) (ch : Nat) : State :=
  (((s.put (ddrAt ch) .MEM_DDR_TRN_STAT_BUSY 0).engLose ch).setDdr (Tbl.erase s.ddr ch)).setDdrSt ch (s.get (ddrAt ch) .MEM_DDR_CFG_EN)

/-- A write of MEM_DDR_CFG; EN = 0 takes the channel to OFF (R448). In self-refresh, the rows of an eighth whose PASR bit comes to 1 are
kept no longer (R452). -/
def State.ddrCfg (s : State) (ch : Nat) (v : Word) : State :=
  let kept := s.ddrLost ch
  let s := s.writeReg (ddrAt ch) .MEM_DDR_CFG v
  if s.flag (ddrAt ch) .MEM_DDR_CFG_EN then
    if s.ddrSt ch = 5 then s.ddrForget ch ((s.ddrLost ch).filter fun y => !kept.contains y) else s
  else if s.ddrSt ch = 0 then s
  else s.ddrReset ch

/-! ### The PCIe link -/

/-- Whether lanes 16 to 31 of E0 are in the PCIe role and released (R334, R335, R457). -/
def State.pcieLanes (s : State) : Bool := (List.range 16).all fun i => s.laneRole .e0 (16 + i) == 2 && s.laneSt .e0 (16 + i) == 11

/-- The link comes up, once the quads are released (R335, R458), at one of the speeds and widths of R457. The host then unmasks MSI-X vectors in the table of BAR4 (R459), which no
command of its own carries; one that pends is sent (R464). -/
def State.pcieUp (s : State) (speed width : Nat) (vectors : List Nat) : State :=
  let a := atDie .e0
  if s.flag a .MEM_PCI_STAT_TX_SAFE || s.pcie.linkUp || !s.pcieLanes || !(decide (1 ≤ speed ∧ speed ≤ 5) && [1, 2, 4, 8, 16].contains width) then s
  else
    let s := s.puts a [(.MEM_PCI_STAT_LINK, 1), (.MEM_PCI_STAT_SPEED, speed), (.MEM_PCI_STAT_WIDTH, width)]
    let due := s.pcie.msixPend.filter fun v => vectors.contains v
    let s := s.setPcie ⟨true, vectors, s.pcie.msixPend.filter fun v => !vectors.contains v⟩
    (due.foldl (fun s v => s.emit (.msix v)) s).raise .e0 Ev.MEM_PCI_LINK (1 + speed * 2 ^ 8 + width * 2 ^ 16)

/-- A link comes up. -/
def execPcieLinkUp (speed : BitVec 3) (width : BitVec 5) (vectors : List (BitVec 11)) (s : State) : Res :=
  .next (s.pcieUp speed.toNat width.toNat (vectors.map BitVec.toNat))

/-- A host ring stops: cause 1 UR, 2 CA, 3 poisoned, 4 completion timeout, 5 NoC status, 6 link down (R465). -/
def State.ringStop (s : State) (ring cause : Nat) : State :=
  s.puts (atSel .e0 ring) [(.MEM_HR_STAT_STOPPED, 1), (.MEM_HR_STAT_CAUSE, cause)]

/-- A ring in use that has not stopped. -/
def State.ringRuns (s : State) (ring : Nat) : Bool :=
  s.flag (atSel .e0 ring) .MEM_HR_CFG_EN && !s.flag (atSel .e0 ring) .MEM_HR_STAT_STOPPED

/-- The link goes down: the endpoint's configuration space resets and every host ring stops (R458, R465). -/
def State.pcieDown (s : State) : State :=
  if s.pcie.linkUp then
    let a := atDie .e0
    let s := s.setPcie ⟨false, [], []⟩
    let s := (s.regSels .MEM_HR_CFG .e0).foldl (fun s r => if s.ringRuns r then s.ringStop r 6 else s) s
    let s := s.puts a [(.MEM_PCI_STAT_LINK, 0), (.MEM_PCI_STAT_SPEED, 0), (.MEM_PCI_STAT_WIDTH, 0)]
    s.raise .e0 Ev.MEM_PCI_LINK 0
  else s

/-- A hot reset, a link-disable or a loss of the link. -/
def execPcieLinkDown (s : State) : Res := .next s.pcieDown

/-- TX_REENABLE clears TX_SAFE of the PCIe lanes, but not while the datum PLL coasts (R445). -/
def State.pcieReenable (s : State) : State :=
  if s.flag (atDie .e0) .CLK_STATUS_COAST || !s.laneRails .e0 then s.put (atDie .e0) .MEM_PCI_STAT_CMD_IGNORED 1
  else s.put (atDie .e0) .MEM_PCI_STAT_TX_SAFE 0

/-- TX_REENABLE of the PCIe lanes is written. -/
def execPcieTxReenable (s : State) : Res := .next s.pcieReenable

/-- The line-facing outputs of a port die trip: its CXL ports detach or enter EMPTY, and E0's PCIe link goes down (R445). -/
def State.memSafe (s : State) (d : Die) : State :=
  let s := (List.range 4).foldl (fun s p =>
    if homeDie p = d then
      let s := match s.cxlSt p with
        | 3 => s.cxlDetach p 2
        | 4 => s
        | _ => (s.onCxl p fun x => { x with io := false }).setCxlSt p 0
      s.put (cxlAt p) .MEM_CXL_STAT_TX_SAFE 1
    else s) s
  if d = .e0 then s.pcieDown.put (atDie .e0) .MEM_PCI_STAT_TX_SAFE 1 else s

/-- A DIE reset of E1 loses what E1 homes (R453): channels 2 and 3 enter RESET, CXL ports 2 and 3 return EMPTY, and every fabric die
cache drops the lines; the answer counts those in M. -/
def State.homeLost (s : State) : State × Nat :=
  let s := [2, 3, 6, 7].foldl (fun s e => s.onProt e fun x => { x with waiting := [] }) s
  let s := [2, 3].foldl (fun s n => ((s.ddrReset n).engLose (4 + n)).setCxl (Tbl.erase s.cxl n)) s
  s.dropLines fun l => lineHome l == some .e1

end Sys2Proof.Machine
end

