-- ==== Sys2Proof/Machine/Lookup.lean ====
section
/-! DEFINITION. The exact-match table and its commands (R375 to R383). -/

namespace Sys2Proof.Machine

/-- A place of the table: way 0 to 3 and bucket, or 4 for the stash and its entry (R376). -/
structure Place where
  way : Nat
  index : Nat
  deriving DecidableEq, Repr

/-- The key of a place in the state. -/
def lkpKey (d : Die) (p : Place) : Nat := d.idx * 2 ^ 19 + p.way * 65536 + p.index

/-- The word of ECC group 9 that a place is (R486). -/
def Place.word (p : Place) : Nat := p.way * 65536 + p.index

/-- The entry at a place, as a lookup sees it: one with an uncorrectable error is treated as absent (R486). -/
def State.entryAt (s : State) (d : Die) (p : Place) : Option LkpEntry :=
  if (s.eccCheck d 9 p.word).2 = .uncorrectable then none
  else (s.lkp.find? fun e => e.1 == lkpKey d p).map fun e => e.2

/-- An access to an entry counts the errors it finds (R487). -/
def State.entrySeen (s : State) (d : Die) (p : Place) : State := (s.eccRead d 9 p.word).1

/-- The words of the stash whose check bits are not those of their data. -/
def State.stashMarked (s : State) (d : Die) : List Place :=
  (s.chk.filter fun e => e.1 / 2 ^ 24 == d.idx * 16 + 9 && decide (4 * 65536 < e.1 % 2 ^ 24)).map fun e => ⟨4, e.1 % 65536⟩

/-- Whether no entry stands at a place. -/
def State.emptyAt (s : State) (d : Die) (p : Place) : Bool := (s.entryAt d p).isNone

/-- The bytes of a key (R375). -/
def State.keyBytes (s : State) (d : Die) (key : Nat) : List Nat := bytesLE key (s.keyBits d / 8)

/-- The bucket of a key in a way (R376). -/
def State.bucket (s : State) (d : Die) (way key : Nat) : Nat :=
  let c := crc32cFrom (0xFFFFFFFF#32 ^^^ BitVec.ofNat 32 (way * 0x11111111)) (s.keyBytes d key) ^^^ 0xFFFFFFFF#32
  c.toNat % (if s.keyBits d = 256 then 2 ^ 15 else 2 ^ 16)

/-- The four buckets of a key, by way. -/
def State.buckets (s : State) (d : Die) (key : Nat) : List Place := (List.range 4).map fun w => ⟨w, s.bucket d w key⟩

/-- The stash entries in use. -/
def State.stashUsed (s : State) (d : Die) : List Place :=
  (s.lkp.filter fun e => e.1 / 65536 == d.idx * 8 + 4).map fun e => ⟨4, e.1 % 65536⟩

/-- Where a key stands: one of its four buckets, or a stash entry. -/
def State.findKey (s : State) (d : Die) (key : Nat) : Option Place :=
  (s.buckets d key ++ s.stashUsed d).find? fun p => (s.entryAt d p).any fun e => e.key == key

/-- A search reads the four buckets of a key and the stash at once, and counts the errors that it finds (R376, R487). -/
def State.lookSeen (s : State) (d : Die) (key : Nat) : State :=
  (s.buckets d key ++ ⟨4, 0⟩ :: s.stashMarked d).foldl (fun s p => s.entrySeen d p) s

/-- PKT_LKP_OCC (R380). -/
def State.lkpOcc (s : State) (d : Die) : State :=
  let n := (s.lkp.filter fun e => e.1 / 2 ^ 19 == d.idx).length
  let m := (s.stashUsed d).length
  s.puts (atDie d) [(.PKT_LKP_OCC_STASH, m), (.PKT_LKP_OCC_ENTRIES, n - m)]

/-- Write an entry. -/
def State.putEntry (s : State) (d : Die) (p : Place) (e : LkpEntry) : State :=
  ((s.setLkp (Tbl.set s.lkp (lkpKey d p) e)).eccFresh d 9 p.word).lkpOcc d

/-- Remove an entry. -/
def State.dropEntry (s : State) (d : Die) (p : Place) : State := (s.setLkp (Tbl.erase s.lkp (lkpKey d p))).lkpOcc d

/-- Empty a die's table (R375). -/
def State.lkpEmpty (s : State) (d : Die) : State :=
  let s := (s.setLkp (Tbl.keep (fun k => k / 2 ^ 19 != d.idx) s.lkp)).setChk
    (Tbl.keep (fun k => k / 2 ^ 24 != d.idx * 16 + 9) s.chk)
  (s.setEccRaw (Tbl.keep (fun k => k / 2 ^ 24 != d.idx * 16 + 9) s.eccRaw)).lkpOcc d

/-! ### The place of a new key (R380) -/

/-- The moves that a resident entry offers: its other buckets, in the order of the ways. -/
def State.moves (s : State) (d : Die) (p : Place) : List Place :=
  match s.entryAt d p with
  | some e => (s.buckets d e.key).filter fun q => q.way != p.way
  | none => []

/-- The first chain in breadth-first order: each chain is given newest place first; `depth` moves remain. -/
def State.chain (s : State) (d : Die) : Nat → List (List Place) → Option (List Place)
  | 0, _ => none
  | n + 1, paths =>
    let longer := paths.flatMap fun path => match path with
      | [] => []
      | p :: _ => (s.moves d p).map fun q => q :: path
    match longer.find? fun path => (path.head?.map fun p => s.emptyAt d p).getD false with
    | some path => some path
    | none => s.chain d n longer

/-- Where an INSERT puts a key: the places of the chain, the free one first and the key's own last; or one stash entry. -/
def State.placeFor (s : State) (d : Die) (key : Nat) : Option (List Place) :=
  match (s.buckets d key).find? fun p => s.emptyAt d p with
  | some p => some [p]
  | none => match s.chain d 3 ((s.buckets d key).map fun p => [p]) with
    | some path => some path
    | none => ((List.range 1024).find? fun i => s.emptyAt d ⟨4, i⟩).map fun i => [⟨4, i⟩]

/-- Make the first `n` moves of a chain, the last resident first: each entry is written to its new place before it leaves the old. -/
def State.moveChain (s : State) (d : Die) : Nat → List Place → State
  | n + 1, p :: q :: t =>
    let s := match s.entryAt d q with
      | some e => (s.putEntry d p e).dropEntry d q
      | none => s
    s.moveChain d n (q :: t)
  | _, _ => s

/-! ### Commands -/

/-- The end of a command: BUSY clears, with a result (PKT_LKP_STAT). -/
def State.lkpEnd (s : State) (d : Die) (result : Nat) : State :=
  s.puts (atDie d) [(.PKT_LKP_STAT_BUSY, 0), (.PKT_LKP_STAT_RESULT, result)]

/-- The place that PKT_LKP_STAT shows. -/
def State.lkpShow (s : State) (d : Die) (p : Place) : State :=
  s.puts (atDie d) [(.PKT_LKP_STAT_WAY, p.way), (.PKT_LKP_STAT_INDEX, p.index)]

/-- A command is written: while BUSY = 1 it is ignored (R383). -/
def State.lkpCmd (s : State) (d : Die) (f : State → State) : State :=
  if s.flag (atDie d) .PKT_LKP_STAT_BUSY then s.put (atDie d) .PKT_LKP_STAT_CMD_IGNORED 1 else f s

/-- An ABORT that comes at or after the commit point (R383). -/
def State.lkpLate (s : State) (d : Die) (late : Bool) : State := if late then s.put (atDie d) .PKT_LKP_STAT_ABORT_LATE 1 else s

/-- INSERT (R380), with its result: 1 DONE, 2 ABORTED, 4 EXISTS, 5 TABLE_FULL. -/
def State.lkpInsert (s : State) (d : Die) (key result : Nat) (abort : Option Nat) : State × Nat :=
  if abort = some 0 then (s, 2)
  else
    let key := key % 2 ^ s.keyBits d
    let s := s.lookSeen d key
    match s.findKey d key with
    | some _ => (s, 4)
    | none => match s.placeFor d key with
      | none => (s, 5)
      | some path =>
        let moves := path.length - 1
        match abort with
        | some n =>
          if n ≤ moves then (s.moveChain d n path, 2) else (finish s path moves, 1)
        | none => (finish s path moves, 1)
where
  finish (s : State) (path : List Place) (moves : Nat) : State :=
    let s := s.moveChain d moves path
    let p := (path.getLast?).getD ⟨4, 0⟩
    let before := (s.stashUsed d).length
    let s := (s.putEntry d p ⟨key % 2 ^ s.keyBits d, result, false⟩).lkpShow d p
    if p.way = 4 ∧ before = 767 then s.raise d Ev.PKT_STASH_HIGH 768 else s

/-- DELETE: 1 DONE, 2 ABORTED, 3 NOT_FOUND. -/
def State.lkpDelete (s : State) (d : Die) (key : Nat) (abort : Option Nat) : State × Nat :=
  if abort = some 0 then (s, 2)
  else
    let key := key % 2 ^ s.keyBits d
    let s := s.lookSeen d key
    match s.findKey d key with
    | none => (s, 3)
    | some p => ((s.dropEntry d p).lkpShow d p, 1)

/-- MODIFY: the result is replaced and HIT is kept. -/
def State.lkpModify (s : State) (d : Die) (key result : Nat) (abort : Option Nat) : State × Nat :=
  if abort = some 0 then (s, 2)
  else
    let key := key % 2 ^ s.keyBits d
    let s := s.lookSeen d key
    match s.findKey d key with
    | none => (s, 3)
    | some p =>
      let hit := (s.entryAt d p).any fun e => e.hit
      ((s.putEntry d p ⟨key, result, hit⟩).lkpShow d p, 1)

/-- A single-entry command ends with its result; an ABORT that did not stop it came at or after its commit point (R383). -/
def State.lkpOver (s : State) (d : Die) (result : Nat) (abort : Bool) : State :=
  (s.lkpLate d (abort && result == 1)).lkpEnd d result

/-- INSERT is commanded. -/
def execLookupInsert (die : PDie) (key : BitVec 256) (result : BitVec 64) (abort : Option (Fin 5)) (s : State) : Res :=
  .next (s.lkpCmd die.die fun s =>
    let (t, r) := s.lkpInsert die.die key.toNat result.toNat (abort.map fun n => n.val)
    t.lkpOver die.die r abort.isSome)

/-- DELETE is commanded. -/
def execLookupDelete (die : PDie) (key : BitVec 256) (abort : Option (Fin 2)) (s : State) : Res :=
  .next (s.lkpCmd die.die fun s =>
    let (t, r) := s.lkpDelete die.die key.toNat (abort.map fun n => n.val)
    t.lkpOver die.die r abort.isSome)

/-- MODIFY is commanded. -/
def execLookupModify (die : PDie) (key : BitVec 256) (result : BitVec 64) (abort : Option (Fin 2)) (s : State) : Res :=
  .next (s.lkpCmd die.die fun s =>
    let (t, r) := s.lkpModify die.die key.toNat result.toNat (abort.map fun n => n.val)
    t.lkpOver die.die r abort.isSome)

/-- PKT_LKP_RES and HIT take an entry that was read. -/
def State.lkpTake (s : State) (d : Die) (p : Place) (e : LkpEntry) : State :=
  (s.puts (atDie d) [(.PKT_LKP_RES_LO_RESULT, e.result), (.PKT_LKP_RES_HI_RESULT, e.result / 2 ^ 32),
    (.PKT_LKP_STAT_HIT, natOf e.hit)]).lkpShow d p

/-- READ (R379). -/
def State.lkpRead (s : State) (d : Die) (key : Nat) : State :=
  let key := key % 2 ^ s.keyBits d
  let s := s.lookSeen d key
  match s.findKey d key with
  | none => s.lkpEnd d 3
  | some p => match s.entryAt d p with
    | none => s.lkpEnd d 3
    | some e => (s.lkpTake d p e).lkpEnd d 1

/-- READ is commanded. -/
def execLookupRead (die : PDie) (key : BitVec 256) (s : State) : Res :=
  .next (s.lkpCmd die.die fun s => s.lkpRead die.die key.toNat)

/-- READ_AT (R379): an empty place, and one that the table does not have, is NOT_FOUND. -/
def State.lkpReadAt (s : State) (d : Die) (way index : Nat) : State :=
  let p : Place := ⟨way, index⟩
  let real := decide (way < 4 ∧ index < 65536 ∨ way = 4 ∧ index < 1024)
  let s := if real then s.entrySeen d p else s
  match if real then s.entryAt d p else none with
  | none => s.lkpEnd d 3
  | some e =>
    let s := (List.range 8).foldl (fun s i => s.put (atElem d i) .PKT_LKP_KEY_KEY (e.key / 2 ^ (32 * i))) (s.lkpTake d p e)
    s.lkpEnd d 1

/-- READ_AT is commanded. -/
def execLookupReadAt (die : PDie) (way : BitVec 3) (index : BitVec 17) (s : State) : Res :=
  .next (s.lkpCmd die.die fun s => s.lkpReadAt die.die way.toNat index.toNat)

/-- CLEAR_HITS (R379). -/
def State.lkpClearHits (s : State) (d : Die) : State :=
  (s.setLkp (s.lkp.map fun e => if e.1 / 2 ^ 19 = d.idx then (e.1, { e.2 with hit := false }) else e)).lkpEnd d 1

/-- CLEAR_HITS is commanded. -/
def execLookupClearHits (die : PDie) (s : State) : Res := .next (s.lkpCmd die.die fun s => s.lkpClearHits die.die)

/-- The end of a BULK raises PKT_LKP_END (R383). -/
def State.bulkEnd (s : State) (d : Die) (result : Nat) (late : Bool) : State :=
  let s := (s.lkpLate d late).lkpEnd d result
  s.raise d Ev.PKT_LKP_END (result + s.get (atDie d) .PKT_LKP_DONE_DONE_CNT * 2 ^ 8 + natOf late * 2 ^ 40)

/-- BULK (R382): the command runs until its records have. -/
def State.lkpBulk (s : State) (d : Die) : State :=
  let s := s.puts (atDie d) [(.PKT_LKP_DONE_DONE_CNT, 0), (.PKT_LKP_STAT_RESULT, 0), (.PKT_LKP_STAT_BUSY, 1)]
  if s.get (atDie d) .PKT_LKP_BULK_CNT_COUNT = 0 then s.bulkEnd d 1 false else s

/-- BULK is commanded. -/
def execLookupBulk (die : PDie) (s : State) : Res := .next (s.lkpCmd die.die fun s => s.lkpBulk die.die)

/-- PKT_LKP_CMD.ABORT between records stops a BULK; while no command runs it is ignored (R383). -/
def State.lkpAbort (s : State) (d : Die) : State := if s.flag (atDie d) .PKT_LKP_STAT_BUSY then s.bulkEnd d 2 false else s

/-- ABORT is commanded. -/
def execLookupAbort (die : PDie) (s : State) : Res := .next (s.lkpAbort die.die)

/-- The engine moves a stash entry back into the lowest free bucket of its key, where one is free (R380). -/
def execStashMoveBack (die : PDie) (entry : Fin 1024) (s : State) : Res :=
  let d := die.die
  let p : Place := ⟨4, entry⟩
  .next (match s.entryAt d p with
  | none => s
  | some e => match (s.buckets d e.key).find? fun q => s.emptyAt d q with
    | none => s
    | some q => (s.putEntry d q e).dropEntry d p)

/-- A frame's lookup (R377, R378): the result of a matching entry, whose HIT is set, or none. -/
def State.lookup (s : State) (d : Die) (key : Nat) : State × Option Nat :=
  let s := (s.pmcItems d 0x252 0 1).lookSeen d key
  match s.findKey d key with
  | none => (s, none)
  | some p => match s.entryAt d p with
    | none => (s, none)
    | some e =>
      let s := (s.setLkp (Tbl.set s.lkp (lkpKey d p) { e with hit := true })).pmcItems d 0x253 0 1
      (s, some e.result)

end Sys2Proof.Machine
end

