-- ==== Sys2Proof/Machine/Packet.lean ====
section
/-! DEFINITION. The packet engine: ports, admission, flow control, spill, the scheduler, cut-through, preemption, the transparent
clock and own event messages, flushes, delivery rings and cross-die moves (chapters 13 and 14). -/

namespace Sys2Proof.Machine

/-! ### Ports, queues and the buffer -/

/-- A packet engine at rest. -/
def PktDie.idle : PktDie := ⟨[], false, [], [], [], false⟩

/-- A packet engine. -/
def State.engine (s : State) (d : Die) : PktDie := Tbl.get PktDie.idle s.pkt d.idx

/-- Change a packet engine. -/
def State.onEngine (s : State) (d : Die) (f : PktDie → PktDie) : State := s.setPkt (Tbl.set s.pkt d.idx (f (s.engine d)))

/-- Whether a port number is in use (R366). -/
def State.portUsed (s : State) (d : Die) (p : Nat) : Bool := s.laneRole d p == 0 && s.leads d p

/-- PKT_PORT_STAT.LINK (R366): every lane of the port is UP at the mode's rate code, and the PCS reports block lock. -/
def State.portLink (s : State) (d : Die) (p : Nat) : Bool :=
  s.portUsed d p && !s.gated d (p / 4) && (s.port d p).pcs && (s.portLanes d p).all fun l =>
    s.laneSt d l == 5 && s.get (atUnit d l) .LAN_LANE_STAT_RATE == macCode (s.macOf d (p / 4))

/-- PKT_PORT_STAT.PREEMPT (R370). -/
def State.preempts (s : State) (d : Die) (p : Nat) : Bool :=
  s.flag (atUnit d p) .PKT_PORT_CFG_PREEMPT_EN && s.portLink d p &&
    (!s.flag (atUnit d p) .PKT_PORT_CFG_VERIFY_EN || (s.port d p).verified)

/-- The MAXLEN that a port uses (R368). -/
def State.maxLen (s : State) (d : Die) (p : Nat) : Nat :=
  let n := s.get (atUnit d p) .PKT_PORT_CFG_MAXLEN
  if 64 ≤ n ∧ n ≤ 10240 then n else 10240

/-- An empty queue. -/
def PktQueue.none : PktQueue := ⟨[], 0, false⟩

/-- A queue. -/
def State.queue (s : State) (d : Die) (q : Nat) : PktQueue := Tbl.get PktQueue.none s.queues (d.idx * 65536 + q)

/-- The cells of a number of bytes. -/
def cellsOf (n : Nat) : Nat := (n + 63) / 64

/-- Cells of frames on the die. -/
def onDieCells (l : List QFrame) : Nat := l.foldl (fun n f => if f.pool = 2 then n else n + f.cells) 0

/-- The queues of a die that hold frames. -/
def State.dieQueues (s : State) (d : Die) : List (Nat × PktQueue) :=
  (s.queues.filter fun e => e.1 / 65536 == d.idx).map fun e => (e.1 % 65536, e.2)

/-- Every frame in a die's buffer or spilled from it. -/
def State.bufFrames (s : State) (d : Die) : List QFrame :=
  ((s.dieQueues d).flatMap fun e => e.2.frames) ++ (s.engine d).moves.map Prod.fst

/-- Whether a queue is enabled (R384): DTYPE 3 acts as EN = 0. -/
def State.queueOn (s : State) (d : Die) (q : Nat) : Bool :=
  s.flag (atSel d q) .PKT_Q_CFG_EN && s.get (atSel d q) .PKT_Q_CFG_DTYPE != 3

/-- The enabled queues of a die. -/
def State.queuesOn (s : State) (d : Die) : List Nat := (s.regSels .PKT_Q_CFG d).filter fun q => s.queueOn d q

/-- The size of the shared pool (R390). -/
def State.sharedSize (s : State) (d : Die) : Nat :=
  let reserved := (s.queuesOn d).foldl (fun n q => n + s.get (atSel d q) .PKT_Q_MIN_MIN) 0
  let headroom := (List.range 48).foldl (fun n p =>
    if s.portUsed d p then
      n + s.get (atUnit d p) .PKT_PORT_HDRM_HDRM * popCount (s.get (atUnit d p) .PKT_PORT_PFC_LOSSLESS) 8
    else n) 0
  1048576 - (reserved + headroom)

/-- The free cells F of the shared pool (R390). -/
def State.sharedFree (s : State) (d : Die) : Nat := s.sharedSize d - (s.bufFrames d).foldl (fun n f => n + f.shared) 0

/-- PKT_BUF_SHARED and PKT_BUF_STAT follow. -/
def State.bufSync (s : State) (d : Die) : State :=
  s.puts (atDie d) [(.PKT_BUF_SHARED_SIZE, s.sharedSize d), (.PKT_BUF_STAT_FREE, s.sharedFree d)]

/-- Put a queue; its status and the buffer's follow. -/
def State.setQueue (s : State) (d : Die) (q : Nat) (x : PktQueue) : State :=
  let s := s.setQueues (Tbl.set s.queues (d.idx * 65536 + q) x)
  (s.puts (atSel d q) [(.PKT_Q_STAT_CELLS, onDieCells x.frames),
    (.PKT_Q_STAT_SPILLING, natOf (x.frames.any fun f => f.pool == 2))]).bufSync d

/-- Whether a flush of a queue runs (R395). -/
def State.flushes (s : State) (d : Die) (q : Nat) : Bool :=
  s.flag (atDie d) .PKT_Q_FLUSH_STAT_BUSY && s.get (atDie d) .PKT_Q_FLUSH_STAT_QUEUE == q

/-! ### Flow control (R392) -/

/-- Whether a frame's ingress priority is lossless on its ingress port on a die. -/
def State.lossless (s : State) (d : Die) (f : QFrame) : Bool :=
  f.mac && f.die == d.idx && s.bit (atUnit d f.port) .PKT_PORT_PFC_LOSSLESS f.prio

/-- The shared cells, and the headroom cells, of a frame's pair of ingress port and priority. -/
def State.pairCells (s : State) (d : Die) (port prio : Nat) : Nat × Nat :=
  (s.bufFrames d).foldl (fun n f =>
    if f.mac && f.die == d.idx && f.port == port && f.prio == prio then
      (n.1 + f.shared, if f.pool = 1 then n.2 + f.cells else n.2)
    else n) (0, 0)

/-- A MAC control frame leaves a port. It is express (R369): it interrupts a preemptable frame on the line at a boundary that leaves the
minimum fragment on both sides. Whether one is still on the line, and at which of its bytes, is open (DESIGN CHOICE, log entry 247). -/
def State.macControl (s : State) (d : Die) (p : Nat) (e : Emit) : State :=
  let x := s.port d p
  let m := 64 * (s.get (atUnit d p) .PKT_PORT_CFG_FRAG + 1)
  if s.preempts d p && decide (x.line ≠ 0 ∧ x.cut + 2 * m ≤ x.line) then
    let cut := x.cut + m + s.free 15 / 2 % (x.line - x.cut - 2 * m + 1)
    let on := s.free 15 % 2 == 1
    let s := s.used
    (if on then (s.setPort d p { x with cut := cut }).emit (.fragment d.idx p cut) else s).emit e
  else s.emit e

/-- A frame has been admitted: its pair sends XOFF where it reaches XOFF_TH, and where the frame went to headroom. -/
def State.xoff (s : State) (d : Die) (f : QFrame) : State :=
  let a := atUnit d f.port
  let held := s.bit a .PKT_PORT_STAT_TX_XOFF f.prio
  if s.lossless d f && (f.pool == 1 || (!held && decide (s.get a .PKT_PORT_PFC_XOFF_TH ≤ (s.pairCells d f.port f.prio).1))) then
    (s.setBit a .PKT_PORT_STAT_TX_XOFF f.prio).macControl d f.port (.pfc d.idx f.port f.prio 0xFFFF)
  else s

/-- A frame has left: its pair sends time 0 once its headroom is empty and its shared cells are below XON_TH. -/
def State.xon (s : State) (d : Die) (f : QFrame) : State :=
  let a := atUnit d f.port
  let n := s.pairCells d f.port f.prio
  if f.mac && f.die == d.idx && s.bit a .PKT_PORT_STAT_TX_XOFF f.prio && n.2 == 0 && decide (n.1 < s.get a .PKT_PORT_HDRM_XON_TH) then
    (s.clrBit a .PKT_PORT_STAT_TX_XOFF f.prio).macControl d f.port (.pfc d.idx f.port f.prio 0)
  else s

/-- The XOFF frame is repeated while the condition holds. -/
def execPfcRepeat (die : PDie) (port : Fin 48) (prio : Fin 8) (s : State) : Res :=
  .next (if s.bit (atUnit die.die port) .PKT_PORT_STAT_TX_XOFF prio then s.macControl die.die port (.pfc die.die.idx port prio 0xFFFF) else s)

/-- A group of a port is paused for a time, or released by 0 (R372). -/
def State.pauseGroup (s : State) (d : Die) (p g time : Nat) : State :=
  let x := s.port d p
  let s := s.setPort d p { x with pause := if time = 0 then Tbl.erase x.pause g else Tbl.set x.pause g time }
  if time = 0 then s.clrBit (atUnit d p) .PKT_PORT_STAT_RX_PAUSED g else s.setBit (atUnit d p) .PKT_PORT_STAT_RX_PAUSED g

/-- A received PFC frame (R372). -/
def execPfcFrameReceived (die : PDie) (port : Fin 48) (mask : BitVec 8) (times : BitVec 128) (s : State) : Res :=
  .next (if s.portLink die.die port then
    (List.range 8).foldl (fun s g =>
      if mask.getLsbD g then s.pauseGroup die.die port g (times.toNat / 2 ^ (16 * g) % 2 ^ 16) else s) s
  else s)

/-- A received PAUSE frame stops every group where PAUSE_EN = 1 (R372). -/
def execPauseFrameReceived (die : PDie) (port : Fin 48) (time : BitVec 16) (s : State) : Res :=
  .next (if s.portLink die.die port && s.flag (atUnit die.die port) .PKT_PORT_CFG_PAUSE_EN then
    (List.range 8).foldl (fun s g => s.pauseGroup die.die port g time.toNat) s
  else s)

/-- The time of a pause runs out. -/
def execPauseTimeExpiry (die : PDie) (port : Fin 48) (group : Fin 8) (s : State) : Res :=
  .next (s.pauseGroup die.die port group 0)

/-- Verification of the MAC merge sublayer ends (R370). -/
def execMacMergeVerify (die : PDie) (port : Fin 48) (works : Bool) (s : State) : Res :=
  let d := die.die
  let a := atUnit d port
  .next (if s.portLink d port && s.flag a .PKT_PORT_CFG_PREEMPT_EN && s.flag a .PKT_PORT_CFG_VERIFY_EN then
    let s := s.setPort d port { s.port d port with verified := works }
    (if works then s else s.put a .PKT_PORT_STAT_VERIFY_FAIL 1).raise d Ev.PKT_VERIFY (port + natOf works * 2 ^ 8)
  else s)

/-! ### Admission (R391, R394) -/

/-- A spill region: its base and size in bytes; none where it is disabled or leaves the die's DDR5 channels (R394). -/
def State.spillBytes (s : State) (d : Die) : Nat × Bool :=
  let base := s.get (atDie d) .PKT_SPILL_BASE_LO_BASE + s.get (atDie d) .PKT_SPILL_BASE_HI_BASE * 2 ^ 32
  let size := s.get (atDie d) .PKT_SPILL_SIZE_MIB * 2 ^ 20
  let lo := 0x200000000000 + d.idx * 2 * 0x1000000000
  let inside := decide (lo ≤ base ∧ base + size ≤ lo + 2 * 0x1000000000)
  (if inside then size else 0, size != 0 && !inside)

/-- PKT_SPILL_STAT.BAD follows the region (R394). -/
def State.spillSync (s : State) (d : Die) : State := s.put (atDie d) .PKT_SPILL_STAT_BAD (natOf (s.spillBytes d).2)

/-- The first lines from `l` on that a list does not hold, `n` of them; the first argument bounds the search. -/
def freeLines : Nat → Nat → Nat → List Nat → List Nat
  | 0, _, _, _ => []
  | k + 1, l, n, taken =>
    if n = 0 then []
    else if taken.contains l then freeLines k (l + 1) n taken
    else l :: freeLines k (l + 1) (n - 1) taken

/-- Cut bytes into pieces of `n`; the count bounds the pieces. -/
def pieces (n : Nat) : Nat → List Nat → List (List Nat)
  | 0, _ => []
  | k + 1, l => if l.isEmpty then [] else l.take n :: pieces n k (l.drop n)

/-- A packet engine master of a die (R133): which of the eight makes an access is not stated (DESIGN CHOICE, log entry 246). -/
def State.pktMaster (s : State) (d : Die) : Nat := ident d (s.free 3) 1 1

/-- A request of a master goes to the packet buffer, or a fence on its way refuses it (R138). The answer is `first`, the first such status so far,
or else that of this request. -/
def State.frameLine (s : State) (first : Nat) (r : NocReq) : State × Nat :=
  match reqTarget r with
  | none => (s, first)
  | some t =>
    match s.refusal r t with
    | some (some h, st) => (s.bump (atDie h) .NOC_FENCE_CNT_SYNTH 1, if first = 0 then st else first)
    | some (none, st) => (s, if first = 0 then st else first)
    | none => (s.emit (.request { r with tgt := BitVec.ofNat 12 t.ident }), first)

/-- The request of a master for a line of a frame at an open place of a die's buffer. -/
def State.frameReq (s : State) (src icls cls : Nat) (write : Bool) (o : Die) (l : List Nat) : NocReq :=
  engineReq src icls cls write (dieWindow o + s.free 23 / 8 * 64) 6 (if write then ofBytesLE l else 0) (if write then 2 ^ l.length - 1 else 0)

/-- One line of such an access: `x` holds the first status so far. -/
def frameStep (src icls cls : Nat) (write : Bool) (o : Die) (x : State × Nat) (l : List Nat) : State × Nat :=
  x.1.used.frameLine x.2 (x.1.frameReq src icls cls write o l)

/-- A master reads or writes a frame in the packet buffer of a die, line by line (R396, R399, R461). In which cells of the buffer the frame
lies is not stated (DESIGN CHOICE, log entry 246): the requests go to open lines. The answer is the first status of a fence on the way. -/
def State.frameAccess (s : State) (src icls cls : Nat) (write : Bool) (o : Die) (lines : List (List Nat)) : State × Nat :=
  lines.foldl (frameStep src icls cls write o) (s, 0)

/-- A word of a frame in the buffer is uncorrectable: it counts in group 8 (R486, R487), at an open address (DESIGN CHOICE, log entry 253). -/
def State.bufferUe (s : State) (d : Die) (bad : Bool) : State :=
  if bad then s.used.eccFound d 8 (s.free 23) .uncorrectable else s

/-- The packet engine accesses a line of its spill region: over the NoC, through the protection engine of the DDR5 channel (R394, R467). The
answer is the status and the data; a request that waits at its channel counts as answered (DESIGN CHOICE, log entry 246). -/
def State.spillAccess (s : State) (d : Die) (write : Bool) (line data : Nat) : State × Nat × Option Nat :=
  let r := engineReq (s.pktMaster d) 3 3 write (line * 64) 6 data (2 ^ 64 - 1)
  let t := ((s.used).emit (.request r)).ddrRequest ((line * 64 - 0x200000000000) / 0x1000000000) r .good
  match t.answered (s.sent.length + 1) r with
  | some (st, v) => (t, st, some v)
  | none => (t, 0, none)

/-- A frame is spilled, or dropped where the rate or the region does not allow it (R394), or a write of it is answered other than OKAY. It
takes the lowest lines of the region that are free (DESIGN CHOICE, log entry 212). -/
def State.spill (s : State) (d : Die) (q : Nat) (f : QFrame) (rate : Bool) : State :=
  let held := (s.bufFrames d).flatMap QFrame.spots
  let base := s.get (atDie d) .PKT_SPILL_BASE_LO_BASE + s.get (atDie d) .PKT_SPILL_BASE_HI_BASE * 2 ^ 32
  let drop (s : State) : State := (s.bump (atDie d) .PKT_SPILL_STAT_DROP 1).raise d Ev.PKT_SPILL_DROP q
  if rate && decide ((held.length + f.cells) * 64 ≤ (s.spillBytes d).1) then
    let spots := freeLines (f.cells + held.length) ((base + 63) / 64) f.cells held
    let (t, bad) := (spots.zip (pieces 64 f.cells f.bytes)).foldl (fun x e =>
      let r := x.1.spillAccess d true e.1 (ofBytesLE e.2)
      (r.1, x.2 || r.2.1 != 0)) (s, false)
    if bad then drop t
    else
      let x := t.queue d q
      t.setQueue d q { x with frames := x.frames ++ [{ f with pool := 2, shared := 0, spots := spots }] }
  else drop s

/-- A spilled frame is read back through the buffer: its bytes as the region holds them, and whether a read was answered other than OKAY, which
spoils it as an uncorrectable word of the buffer does (DESIGN CHOICE, log entry 246). -/
def State.unspill (s : State) (d : Die) (f : QFrame) : State × QFrame × Bool :=
  if f.pool = 2 then
    let (s, l, bad) := (f.spots.zip (pieces 64 f.cells f.bytes)).foldl (fun x e =>
      let r := x.1.spillAccess d false e.1 0
      (r.1, x.2.1 ++ (match r.2.2 with
        | some v => (bytesLE v 64).take e.2.length
        | none => e.2), x.2.2 || r.2.1 != 0)) (s, [], false)
    (s, { f with bytes := l }, bad)
  else (s, f, false)

/-- A frame is dropped at headroom (R391). -/
def State.hdrmDrop (s : State) (d : Die) (f : QFrame) : State :=
  (s.bump (atUnit d f.port) .PKT_PORT_CNT_HDRM_DROP 1).raise d Ev.PKT_HDRM_DROP (f.port + f.prio * 2 ^ 8)

/-- Whether the headroom of a frame's pair covers some cells. -/
def State.headroomFits (s : State) (d : Die) (f : QFrame) (c : Nat) : Bool :=
  decide ((s.pairCells d f.port f.prio).2 + c ≤ s.get (atUnit d f.port) .PKT_PORT_HDRM_HDRM)

/-- A frame is offered to a queue with `c` cells (R391). -/
def State.offer (s : State) (d : Die) (q : Nat) (f : QFrame) (c : Nat) (rate : Bool) : State :=
  let a := atSel d q
  let x := s.queue d q
  let f := { f with cells := cellsOf f.bytes.length }
  if !s.queueOn d q || s.flushes d q then s.bump a .PKT_Q_CNT_ADM_DROP 1
  else
    let n := onDieCells x.frames
    let min := s.get a .PKT_Q_MIN_MIN
    let free := s.sharedFree d
    let t := free * 2 ^ Nat.min 10 (s.get a .PKT_Q_CFG_ALPHA) / 128
    let extra := (n + c - min) - (n - min)
    let spills := x.frames.any fun f => f.pool == 2
    if decide (n + c ≤ min + t) && decide (extra ≤ free) && !spills then
      let f := { f with pool := 0, shared := extra - (c - f.cells) }
      (s.setQueue d q { x with frames := x.frames ++ [f] }).xoff d f
    else if spills || (s.get a .PKT_Q_CFG_CLS == 3 && s.flag a .PKT_Q_CFG_SPILL && (s.spillBytes d).1 != 0) then s.spill d q f rate
    else if s.lossless d f then
      if s.headroomFits d f c then
        let f := { f with pool := 1, shared := 0 }
        (s.setQueue d q { x with frames := x.frames ++ [f] }).xoff d f
      else s.hdrmDrop d f
    else s.bump a .PKT_Q_CNT_ADM_DROP 1

/-- A frame for the other port die is stored on its ingress die (R399). -/
def State.storeMove (s : State) (d : Die) (q : Nat) (f : QFrame) : State :=
  let c := cellsOf f.bytes.length
  if !s.up (Die.ofIdx (1 - d.idx)) then s.bump (atDie d) .PKT_XDIE_DROP_COUNT 1
  else if c ≤ s.sharedFree d then
    let f := { f with cells := c, shared := c, pool := 0 }
    ((s.onEngine d fun e => { e with moves := e.moves ++ [(f, q)] }).bufSync d).xoff d f
  else if s.lossless d f then
    if s.headroomFits d f c then
      let f := { f with cells := c, shared := 0, pool := 1 }
      ((s.onEngine d fun e => { e with moves := e.moves ++ [(f, q)] }).bufSync d).xoff d f
    else s.hdrmDrop d f
  else s.bump (atDie d) .PKT_XDIE_DROP_COUNT 1

/-- A frame goes to the queue that a lookup result names (R377, R399). -/
def State.toQueue (s : State) (d : Die) (result : Nat) (f : QFrame) (c : Nat) (rate : Bool) : State :=
  if bitsOf result 16 1 = d.idx then s.offer d (result % 65536) f c rate else s.storeMove d (result % 65536) f

/-- A frame goes to the compression engine's input buffer of 1 MiB (R424, R429). -/
def State.toEngine (s : State) (d : Die) (result : Nat) (f : QFrame) : State :=
  let prof := bitsOf result 19 5
  let used := (s.engine d).cmpIn.foldl (fun n x => n + x.frame.bytes.length) 0
  if used + f.bytes.length ≤ 2 ^ 20 then
    s.onEngine d fun e => { e with cmpIn := e.cmpIn ++ [⟨f, result % 2 ^ 17, prof⟩] }
  else
    let s := s.bump (atDie d) .CMP_CNT_DROP 1
    let key := 2 ^ 17 + d.idx
    if s.onceBusy key then s else (s.onceStart key).raise d Ev.CMP_DROP (prof + f.port * 2 ^ 8)

/-- The result that a frame's key gives: of the matching entry, else of the profile's miss action (R378). -/
def State.frameResult (s : State) (d : Die) (prof inport prio : Nat) (l : List Nat) : State × Nat :=
  let (s, r) := s.lookup d (s.buildKey d prof prio inport l (parseFrame l))
  (s, r.getD (s.get (atSel d prof) .PKT_PROF_MISS_LO_RESULT + s.get (atSel d prof) .PKT_PROF_MISS_HI_RESULT * 2 ^ 32))

/-- Whether a frame goes cut through (R396). -/
def State.cutThrough (s : State) (d : Die) (port result : Nat) : Bool :=
  let q := result % 65536
  let a := atSel d q
  let p := s.get a .PKT_Q_CFG_DEST
  bitsOf result 16 1 == d.idx && bitsOf result 17 2 == 0 && s.get a .PKT_Q_CFG_DTYPE == 0 && decide (p < 48) &&
    s.flag (atUnit d p) .PKT_PORT_CFG_CT_EN && decide (macRate (s.macOf d (p / 4)) ≤ macRate (s.macOf d (port / 4))) &&
    (s.queue d q).frames.isEmpty

/-- A frame that the parser and the table have seen goes on (R377, R391, R428): ACTION 1 and 3 drop it. -/
def State.frameOn (s : State) (d : Die) (result : Nat) (f : QFrame) (cut rate : Bool) : State :=
  match bitsOf result 17 2 with
  | 0 => s.toQueue d result f (if cut then cellsOf (s.maxLen d f.port) else cellsOf f.bytes.length) rate
  | 2 => s.toEngine d result f
  | _ => s

/-- A frame is dropped at its MAC and counted in the port's frame statistics (R368, R511). -/
def State.macDrop (s : State) (d : Die) (p : Nat) : State :=
  let x := s.port d p
  s.setPort d p { x with drops := x.drops + 1 }

/-- The FEC of a port (R366, R367): what Clause 73 has resolved, else the image's setting, of which the source gives no field: the command's
operand stands for it. -/
def State.portFec (s : State) (d : Die) (p fec : Nat) : Nat :=
  if s.get (atUnit d p) .LAN_LANE_STAT_PROTO = 1 then (s.lane d p).fec else fec

/-- A frame is received at a MAC (R366, R368, R371 to R378, R391, R396). -/
def State.frameIn (s : State) (d : Die) (port : Nat) (l : List Nat) (frac fec : Nat) (rate : Bool) : State :=
  let a := atUnit d port
  let n := l.length
  let good := decide (n ≤ s.maxLen d port) && fcsOk l
  if s.portUsed d port && s.gated d (port / 4) then s.macDrop d port
  else if !s.portLink d port || !s.flag a .PKT_PORT_CFG_EN then s
  else if n < 64 then s.macDrop d port
  else
    let p := parseFrame l
    let prio := s.ingressPrio d port l p
    let (t, result) := s.frameResult d (s.get a .PKT_PORT_CFG_PROFILE) port prio l
    let cut := s.cutThrough d port result
    if !good && !cut then s.macDrop d port
    else
      let stamp := s.stampAt d port (s.portFec d port fec) frac false
      let f : QFrame := ⟨l, d.idx, port, true, prio, bitsOf result 24 16, t32 stamp.1, stamp.2, 0, 0, 0, !good, []⟩
      ((t.pmcItems d 0x251 port 1).bwCount d 4 port n 1).frameOn d result f cut rate

/-- A frame is received. -/
def execFrameReceived (die : PDie) (port : Fin 48) (bytes : List Byte) (cycle : BitVec 13) (frac : BitVec 10) (fec : Fin 3)
    (rate : Bool) (s : State) : Res :=
  .next ((s.timeTo cycle.toNat).frameIn die.die port (bytes.map BitVec.toNat) frac.toNat fec rate)

/-! ### The scheduler (R385 to R389) -/

/-- The charge of a frame (R386). -/
def QFrame.charge (f : QFrame) : Nat := f.bytes.length + 20

/-- One choice of deficit-weighted round robin (R386) among members given as number, quantum and charge of the next frame, in
ascending order: the member and the deficits after it. The count bounds the turns. -/
def dwrr : Nat → List (Nat × Nat × Nat) → Nat → Tbl Nat → Option (Nat × Tbl Nat)
  | 0, _, _, _ => none
  | n + 1, ms, turn, df =>
    match (ms.find? fun m => m.1 == turn).filter fun m => decide (m.2.2 ≤ Tbl.get 0 df m.1) with
    | some m => some (m.1, Tbl.set df m.1 (Tbl.get 0 df m.1 - m.2.2))
    | none =>
      match (ms.find? fun m => decide (turn < m.1)).orElse fun _ => ms.head? with
      | none => none
      | some m => dwrr n ms m.1 (Tbl.set df m.1 (Tbl.get 0 df m.1 + (if m.2.1 = 0 then 64 else m.2.1)))

/-- Turns that always suffice: a quantum of 1 against the longest charge, for every member. -/
def dwrrBound (ms : List (Nat × Nat × Nat)) : Nat := ms.length * 10400 + 1

/-- The queues of an egress port that hold a frame and are not stopped (R372, R385): group, class and queue. -/
def State.readyQueues (s : State) (d : Die) (p : Nat) : List (Nat × Nat × Nat) :=
  (s.dieQueues d).filterMap fun e =>
    let a := atSel d e.1
    let g := s.get a .PKT_Q_CFG_GROUP
    if e.2.frames.isEmpty || s.get a .PKT_Q_CFG_DTYPE != 0 || s.get a .PKT_Q_CFG_DEST != p || s.flushes d e.1 ||
        s.bit (atUnit d p) .PKT_PORT_STAT_RX_PAUSED g then none
    else some (g, s.get a .PKT_Q_CFG_CLS, e.1)

/-- The charge of a queue's head. -/
def State.headCharge (s : State) (d : Die) (q : Nat) : Nat := ((s.queue d q).frames.head?.map QFrame.charge).getD 0

/-- Class X heads that find their credit short are counted, and reported once a stroke (R387). -/
def State.creditShort (s : State) (d : Die) (l : List (Nat × Nat × Nat)) : State :=
  l.foldl (fun s e =>
    let x := s.queue d e.2.2
    if e.2.1 = 0 ∧ x.passed = false ∧ x.credit < s.headCharge d e.2.2 then
      let s := (s.setQueue d e.2.2 { x with passed := true }).bump (atSel d e.2.2) .PKT_Q_CNT_X_OVER 1
      if (s.engine d).xOver then s
      else (s.onEngine d fun e => { e with xOver := true }).raise d Ev.PKT_X_OVER
        (e.2.2 + s.get (atDie d) .STK_STROKE_NUM_NUM % 2 ^ 16 * 2 ^ 16)
    else s) s

/-- The next member of a set of numbers after one that was served, round robin. -/
def nextRound (l : List Nat) (last : Nat) : Option Nat := (l.find? fun n => decide (last < n)).orElse fun _ => l.head?

/-- The lowest of some numbers. -/
def lowest : List Nat → Option Nat
  | [] => none
  | n :: t => some (t.foldl Nat.min n)

/-- The class X queue that goes first, with its group (R385). -/
def State.pickX (s : State) (d : Die) (p : Nat) (ready : List (Nat × Nat × Nat)) : Option (Nat × Nat) :=
  let xs := ready.filter fun e => e.2.1 == 0 && decide (s.headCharge d e.2.2 ≤ (s.queue d e.2.2).credit)
  (lowest (xs.map Prod.fst)).bind fun g =>
    (nextRound ((xs.filter fun e => e.1 == g).map fun e => e.2.2) (Tbl.get 65536 (s.port d p).xturn g)).map fun q => (g, q)

/-- Among the queues of classes H, N and B of a group, the one that goes next, with the deficits after it. -/
def State.pickIn (s : State) (d : Die) (p g : Nat) (ready : List (Nat × Nat × Nat)) : Option (Nat × Tbl Nat) :=
  let qs := (ready.filter fun e => e.1 == g && e.2.1 != 0).map fun e =>
    (e.2.2, s.get (atSel d e.2.2) .PKT_Q_SCHED_WEIGHT, s.headCharge d e.2.2)
  let x := s.port d p
  let df := Tbl.keep (fun q => !(s.queue d q).frames.isEmpty) x.qdeficits
  dwrr (dwrrBound qs) qs (Tbl.get 65536 x.qturn g) df

/-- The quantum of a group of a port (PKT_GRP). -/
def State.groupQuantum (s : State) (d : Die) (p g : Nat) : Nat :=
  bitsOf (s.reg ⟨d, 0, g / 2, p⟩ .PKT_GRP).toNat (16 * (g % 2)) 16

/-- Whether a group of an egress port has a queue that holds a frame. -/
def State.groupBusy (s : State) (d : Die) (p g : Nat) : Bool :=
  (s.dieQueues d).any fun e =>
    !e.2.frames.isEmpty && s.get (atSel d e.1) .PKT_Q_CFG_DEST == p && s.get (atSel d e.1) .PKT_Q_CFG_GROUP == g &&
      s.get (atSel d e.1) .PKT_Q_CFG_DTYPE == 0

/-- The queue of classes H, N and B that goes next, with the port after it (R385, R386). -/
def State.pickRest (s : State) (d : Die) (p : Nat) (ready : List (Nat × Nat × Nat)) : Option (Nat × PktPort) :=
  let x := s.port d p
  let gs := (List.range 8).filterMap fun g => (s.pickIn d p g ready).map fun c =>
    (g, s.groupQuantum d p g, s.headCharge d c.1)
  match dwrr (dwrrBound gs) gs x.turn (Tbl.keep (s.groupBusy d p) x.deficits) with
  | none => none
  | some (g, df) => (s.pickIn d p g ready).map fun c =>
    (c.1, { x with turn := g, deficits := df, qturn := Tbl.set x.qturn g c.1, qdeficits := c.2 })

/-- A queue of an egress port that is empty drops its deficit, and so does its group where that is empty (R386). -/
def State.deficitDrop (s : State) (d : Die) (q : Nat) : State :=
  let p := s.get (atSel d q) .PKT_Q_CFG_DEST
  let g := s.get (atSel d q) .PKT_Q_CFG_GROUP
  if s.get (atSel d q) .PKT_Q_CFG_DTYPE ≠ 0 ∨ (s.queue d q).frames ≠ [] then s
  else
    let x := s.port d p
    s.setPort d p { x with
      qdeficits := Tbl.erase x.qdeficits q
      deficits := if s.groupBusy d p g then x.deficits else Tbl.erase x.deficits g }

/-- A frame leaves the head of its queue. -/
def State.takeHead (s : State) (d : Die) (q : Nat) : State :=
  let x := s.queue d q
  match x.frames with
  | [] => s
  | f :: t => ((s.setQueue d q { x with frames := t, passed := false }).deficitDrop d q).xon d f

/-! ### What an egress MAC changes (R411 to R414) -/

/-- A frame with its PTP message changed, under the checksum rules of R413; none where an IPv6 frame has no room for them. -/
def ptpChecksum (old new : List Nat) (off udp : Nat) : Option (List Nat) :=
  let len := frameBE old (off + 2) 2
  match udp with
  | 0 => some new
  | 1 => some (patchBE new (off - 2) 2 0)
  | _ =>
    if frameBE old (off - 4) 2 < 8 + len + 2 then none
    else
      let swap (v : Nat) : Nat := if len % 2 = 1 then v % 256 * 256 + v / 256 else v
      let a := onesSum ((old.drop off).take len)
      let b := onesSum ((new.drop off).take len)
      let t := (swap (frameBE old (off + len) 2) + a + (65535 - b)) % 65535
      some (patchBE new (off + len) 2 (swap t))

/-- The correctionField plus a number of 2^-16 ns. -/
def addCorrection (l : List Nat) (off v : Nat) : List Nat := patchBE l (off + 8) 8 ((frameBE l (off + 8) 8 + v) % 2 ^ 64)

/-- The residence time is added (R412). -/
def tcChange (l : List Nat) (off inReading outReading : Nat) : List Nat :=
  addCorrection l off ((outReading + 2 ^ 56 - inReading) % 2 ^ 56 * 2 ^ 8)

/-- An own event message takes its egress time (R414). `stamp` is the transmit stamp in 1/256 ns. -/
def ownChange (l : List Nat) (off stamp : Nat) : List Nat :=
  let frac := stamp % 256 * 2 ^ 8
  if frameBE l off 1 % 16 = 3 then
    let t2 := frameBE l (off + 40) 4
    patchBE (addCorrection l off ((t32 stamp + 2 ^ 32 - t2) % 2 ^ 32 * 2 ^ 16 + frac)) (off + 34) 10 0
  else
    let ns := stamp / 256
    addCorrection (patchBE (patchBE l (off + 34) 6 (ns / 1000000000)) (off + 40) 4 (ns % 1000000000)) off frac

/-- The bytes that a frame leaves with, and the counts of PKT_TC_CNT. -/
def State.egressBytes (s : State) (d : Die) (p fec frac : Nat) (f : QFrame) : State × List Nat :=
  let a := atUnit d p
  let on := if f.mac then s.flag a .PKT_TC_CFG_TC_EN else s.flag a .PKT_TC_CFG_OWN_EN
  match if on then ptpAt f.bytes (parseFrame f.bytes) else none with
  | none => (s, f.bytes)
  | some (off, udp) =>
    if f.mac = false ∧ f.bytes.length < off + 48 then (s, f.bytes)
    else
      let stamp := s.stampAt d p (s.portFec d p fec) frac true
      let new := if f.mac then tcChange f.bytes off f.resid stamp.2 else ownChange f.bytes off stamp.1
      match ptpChecksum f.bytes new off udp with
      | some l => (s.bump a .PKT_TC_CNT_CORRECTED 1, fcsAgain l)
      | none => ((s.bump a .PKT_TC_CNT_SKIPPED 1).raise d Ev.PTP_SKIPPED (p + frameBE f.bytes off 1 % 16 * 2 ^ 8), f.bytes)

/-- A frame shorter than 64 bytes is padded with zeros (R427). -/
def padFrame (l : List Nat) : List Nat :=
  if 64 ≤ l.length then l else fcsAgain (l.take (l.length - 4) ++ List.replicate (64 - l.length) 0 ++ [0, 0, 0, 0])

/-- A frame leaves by a port's MAC (R396, R412 to R414): `bad` where a word of it is uncorrectable in the buffer (R486). -/
def State.sendFrame (s : State) (d : Die) (p fec frac : Nat) (f : QFrame) (bad : Bool) : State :=
  let (s, l) := s.egressBytes d p fec frac f
  let l := padFrame l
  let s := if f.bad then s.bump (atUnit d p) .PKT_PORT_CNT_STOMPED 1 else s
  (s.bwCount d 5 p l.length 1).emit (.mac d.idx p l (f.bad || bad))

/-- The scheduler picks a frame, and it is sent (R385). -/
def State.transmit (s : State) (d : Die) (p fec frac : Nat) (bad : Bool) : State :=
  let ready := s.readyQueues d p
  let s := s.creditShort d ready
  match s.pickX d p ready with
  | some (g, q) =>
    let x := s.queue d q
    match x.frames with
    | [] => s
    | f :: _ =>
      let pt := s.port d p
      let s := s.setPort d p { pt with xturn := Tbl.set pt.xturn g q, line := 0, cut := 0 }
      let s := s.setQueue d q { x with credit := x.credit - f.charge }
      ((s.takeHead d q).bufferUe d bad).sendFrame d p fec frac f bad
  | none => match s.pickRest d p ready with
    | none => s
    | some (q, pt) => match (s.queue d q).frames with
      | [] => s
      | f :: _ =>
        let s := s.setPort d p { pt with line := f.bytes.length, cut := 0 }
        let (s, f, lost) := s.unspill d f
        ((s.takeHead d q).bufferUe d bad).sendFrame d p fec frac f (bad || lost)

/-- An express frame interrupts the preemptable frame on the line, of which `n` bytes have been sent, at the next boundary that
leaves the minimum fragment on both sides, between two interruptions too (R369). -/
def State.preempt (s : State) (d : Die) (p fec frac n : Nat) (bad : Bool) : State :=
  let m := 64 * (s.get (atUnit d p) .PKT_PORT_CFG_FRAG + 1)
  let line := (s.port d p).line
  let cut := Nat.max n ((s.port d p).cut + m)
  if s.preempts d p && decide (line ≠ 0 ∧ cut + m ≤ line) && (s.pickX d p (s.readyQueues d p)).isSome then
    let s := (s.emit (.fragment d.idx p cut)).transmit d p fec frac bad
    s.setPort d p { s.port d p with line := line, cut := cut }
  else s

/-- A port's MAC can send. -/
def execFrameTransmit (die : PDie) (port : Fin 48) (after : Option (BitVec 14)) (cycle : BitVec 13) (frac : BitVec 10) (fec : Fin 3)
    (bad : Bool) (s : State) : Res :=
  let s := s.timeTo cycle.toNat
  .next (if !s.portLink die.die port || !s.flag (atUnit die.die port) .PKT_PORT_CFG_EN then s
  else match after with
    | none => s.transmit die.die port fec frac.toNat bad
    | some n => s.preempt die.die port fec frac.toNat n.toNat bad)

/-! ### The scheduler table (R387 to R389) -/

/-- What R389 finds wrong with a table: the reason and the port. -/
def State.schedBreaks (s : State) (d : Die) (weight : Fld) (on : List Nat) : Option (Nat × Nat) :=
  let xs := on.filter fun q => s.get (atSel d q) .PKT_Q_CFG_CLS == 0
  let dest (q : Nat) : Nat := s.get (atSel d q) .PKT_Q_CFG_DEST
  if 512 < xs.length then some (1, 0)
  else if xs.any fun q => s.get (atSel d q) .PKT_Q_CFG_DTYPE != 0 then some (2, 0)
  else match xs.find? fun q => decide (s.get (atSel d q) weight < s.maxLen d (dest q) + 20) with
    | some q => some (3, dest q)
    | none => ((List.range 48).find? fun p =>
        let sum := xs.foldl (fun n q => if dest q = p then n + s.get (atSel d q) weight else n) 0
        decide (625 * macRate (s.macOf d (p / 4)) / 10000 < sum)).map fun p => (4, p)

/-- Whether unit slot 14 can apply the pending table (R389). -/
def State.schedReady (s : State) (d : Die) : State × Bool :=
  match s.schedBreaks d .PKT_Q_SCHED_NEXT_WEIGHT (s.queuesOn d) with
  | none => (s, true)
  | some (r, p) =>
    ((s.puts (atDie d) [(.PKT_SCHED_STAT_NEXT_REFUSED, 1), (.PKT_SCHED_STAT_REASON, r), (.PKT_SCHED_STAT_PORT, p)]).raise d
      Ev.PKT_SCHED_REFUSED (r + p * 2 ^ 8), false)

/-- Copy every unit of a register of a die to another register. -/
def State.copyRegs (s : State) (d : Die) (src dst : Reg) : State :=
  let mine (r : Reg) (k : Nat) : Bool := k / 2 ^ 44 == r.ctorIdx && k % 8 == d.idx
  let rest := Tbl.keep (fun k => !mine dst k) s.regs
  s.setRegs ((s.regs.filter fun e => mine src e.1).foldl (fun t e => Tbl.set t (dst.ctorIdx * 2 ^ 44 + e.1 % 2 ^ 44) e.2) rest)

/-- Every pending value of the scheduler table takes effect (R388). -/
def State.schedApply (s : State) (d : Die) : State :=
  (s.copyRegs d .PKT_Q_SCHED_NEXT .PKT_Q_SCHED).copyRegs d .PKT_GRP_NEXT .PKT_GRP

/-- The express release walk of a stroke (R387). -/
def State.expressWalk (s : State) (d : Die) : State :=
  let s := s.onEngine d fun e => { e with xOver := false }
  (s.queuesOn d).foldl (fun s q =>
    if s.get (atSel d q) .PKT_Q_CFG_CLS = 0 then
      s.setQueue d q { s.queue d q with credit := s.get (atSel d q) .PKT_Q_SCHED_WEIGHT, passed := false }
    else s) s

/-! ### Queue configuration and pools (R384, R389, R390) -/

/-- Apply a write where it leaves at least 65,536 shared cells, else set PKT_BUF_STAT.CFG_REFUSED (R390). -/
def State.poolWrite (s t : State) (d : Die) : State :=
  if t.sharedSize d < 65536 then s.put (atDie d) .PKT_BUF_STAT_CFG_REFUSED 1 else t.bufSync d

/-- A write of PKT_Q_CFG. -/
def State.queueCfg (s : State) (d : Die) (q : Nat) (v : Word) : State :=
  let a := atSel d q
  let t := s.writeReg a .PKT_Q_CFG v
  let dtype := t.get a .PKT_Q_CFG_DTYPE
  let dest := t.get a .PKT_Q_CFG_DEST
  if s.flag a .PKT_Q_CFG_EN && t.flag a .PKT_Q_CFG_EN then s
  else if (dtype = 0 ∧ 48 ≤ dest) ∨ (dtype = 2 ∧ dest / 2048 ≠ d.idx) then s.put (atDie d) .PKT_SCHED_STAT_CFG_REFUSED 1
  else if t.queueOn d q && t.get a .PKT_Q_CFG_CLS == 0 && (t.schedBreaks d .PKT_Q_SCHED_WEIGHT (t.queuesOn d)).isSome then
    s.put (atDie d) .PKT_SCHED_STAT_CFG_REFUSED 1
  else s.poolWrite t d

/-- PKT_Q_CFG is written. -/
def execQueueConfigWrite (die : PDie) (queue : BitVec 16) (value : BitVec 32) (s : State) : Res :=
  .next (s.queueCfg die.die queue.toNat value)

/-- PKT_Q_MIN or PKT_PORT_HDRM is written. -/
def execBufferPoolWrite (die : PDie) (place : PoolAt) (value : BitVec 32) (s : State) : Res :=
  .next (match place with
  | .min q => s.poolWrite (s.writeReg (atSel die.die q.toNat) .PKT_Q_MIN value) die.die
  | .hdrm p => s.poolWrite (s.writeReg (atUnit die.die p) .PKT_PORT_HDRM value) die.die)

/-! ### Flushes (R395) -/

/-- Remove the oldest `n` frames of a queue. -/
def State.discard (s : State) (d : Die) (q : Nat) : Nat → State
  | 0 => s
  | n + 1 => (s.takeHead d q).discard d q n

/-- The end of a flush, with its result: 1 DONE, 2 ABORTED. -/
def State.flushEnd (s : State) (d : Die) (result : Nat) (late : Bool) : State :=
  let a := atDie d
  let s := s.puts a [(.PKT_Q_FLUSH_STAT_BUSY, 0), (.PKT_Q_FLUSH_STAT_RESULT, result)]
  let s := if late then s.put a .PKT_Q_FLUSH_STAT_ABORT_LATE 1 else s
  s.raise d Ev.PKT_FLUSH_END (s.get a .PKT_Q_FLUSH_STAT_QUEUE + result * 2 ^ 16 + natOf late * 2 ^ 24)

/-- FLUSH: ignored while one runs; the flush of an empty queue ends at once. -/
def State.flushStart (s : State) (d : Die) (q : Nat) : State :=
  let a := atDie d
  if s.flag a .PKT_Q_FLUSH_STAT_BUSY then s.put a .PKT_Q_FLUSH_STAT_CMD_IGNORED 1
  else
    let s := s.puts a [(.PKT_Q_FLUSH_STAT_QUEUE, q), (.PKT_Q_FLUSH_STAT_RESULT, 0), (.PKT_Q_FLUSH_STAT_BUSY, 1)]
    if (s.queue d q).frames.isEmpty then s.flushEnd d 1 false else s

/-- FLUSH is commanded. -/
def execQueueFlush (die : PDie) (queue : BitVec 16) (s : State) : Res := .next (s.flushStart die.die queue.toNat)

/-- The queue is empty: the flush ends with DONE; an ABORT in the same cycle is late. -/
def State.flushDone (s : State) (d : Die) (abort : Bool) : State :=
  if s.flag (atDie d) .PKT_Q_FLUSH_STAT_BUSY then
    let q := s.get (atDie d) .PKT_Q_FLUSH_STAT_QUEUE
    (s.discard d q (s.queue d q).frames.length).flushEnd d 1 abort
  else s

/-- The flush reaches its commit point. -/
def execQueueFlushDone (die : PDie) (abort : Bool) (s : State) : Res := .next (s.flushDone die.die abort)

/-- ABORT: `n` frames have gone; where that is all of them it is late, and while no flush runs it is ignored. -/
def State.flushAbort (s : State) (d : Die) (n : Nat) : State :=
  let q := s.get (atDie d) .PKT_Q_FLUSH_STAT_QUEUE
  if !s.flag (atDie d) .PKT_Q_FLUSH_STAT_BUSY then s
  else if (s.queue d q).frames.length ≤ n then s.flushDone d true
  else (s.discard d q n).flushEnd d 2 false

/-- ABORT is commanded. -/
def execQueueFlushAbort (die : PDie) (gone : BitVec 24) (s : State) : Res := .next (s.flushAbort die.die gone.toNat)

/-! ### Delivery rings (R397) -/

/-- The delivery descriptor (R397). -/
def deliveryDescriptor (f : QFrame) (q seq : Nat) : List Nat :=
  bytesLE f.bytes.length 2 ++ [f.port + f.die * 128, f.prio] ++ bytesLE f.user 2 ++ bytesLE q 2 ++ bytesLE f.stamp 4 ++
    bytesLE seq 4 ++ List.replicate 48 0

/-- The consumer writes PKT_DRING_TAIL. -/
def execDeliveryRingTailWrite (die : PDie) (ring : BitVec 10) (line : BitVec 20) (s : State) : Res :=
  .next (s.put (atSel die.die ring.toNat) .PKT_DRING_TAIL_LINE line.toNat)

/-- A port whose queues and pauses are gone: no group is paused any more, and time 0 goes out for what was held off (R372, R392). -/
def State.portEmpty (s : State) (d : Die) (p : Nat) : State :=
  let a := atUnit d p
  if s.reg a .PKT_PORT_STAT = 0 then s
  else
    let held := (List.range 8).filter fun i => s.bit a .PKT_PORT_STAT_TX_XOFF i
    held.foldl (fun s i => s.macControl d p (.pfc d.idx p i 0)) (s.puts a [(.PKT_PORT_STAT_TX_XOFF, 0), (.PKT_PORT_STAT_RX_PAUSED, 0)])

/-- The queues of a die are emptied, with what its engine holds (R375, R432). -/
def State.pktEmpty (s : State) (d : Die) : State :=
  let s := (s.dieQueues d).foldl (fun s e => s.puts (atSel d e.1) [(.PKT_Q_STAT_CELLS, 0), (.PKT_Q_STAT_SPILLING, 0)]) s
  let s := (List.range 48).foldl (fun s p => s.portEmpty d p) s
  let s := (s.setQueues (Tbl.keep (fun k => k / 65536 != d.idx) s.queues)).setPkt (Tbl.erase s.pkt d.idx)
  let s := s.setPorts (Tbl.keep (fun k => k / 48 != d.idx) s.ports)
  s.lkpEmpty d

end Sys2Proof.Machine
end

