-- ==== Sys2Proof/Machine/Compress.lean ====
section
/-! DEFINITION. Sample compression: the block format, frames and jobs (chapter 15). -/

namespace Sys2Proof.Machine

/-! ### The block format (R418 to R423) -/

/-- The largest exponent that a compressor chooses (R419). -/
def maxExp (m : Nat) : Nat := if m = 16 then 0 else 17 - m

/-- Whether a component fits at an exponent. -/
def fitsExp (m e : Nat) (x : Int) : Bool :=
  let q := roundShift x e true
  decide (-((2 ^ (m - 1) : Nat) : Int) ≤ q ∧ q < ((2 ^ (m - 1) : Nat) : Int))

/-- The exponent of a block: the smallest at which every component fits (R419). -/
def blockExp (m : Nat) (xs : List Int) : Nat :=
  ((List.range (maxExp m + 1)).find? fun e => xs.all fun x => fitsExp m e x).getD (maxExp m)

/-- The bits of a compressed block, the first lowest (R422). -/
def packBlock (m : Nat) (xs : List Int) : Nat :=
  let e := blockExp m xs
  e + 16 * xs.foldr (fun x n => patternOf m (roundShift x e true) + 2 ^ m * n) 0

/-- Saturate to a 16-bit component (R420). -/
def sat16 (x : Int) : Int := if x < -32768 then -32768 else if 32767 < x then 32767 else x

/-- The components that a compressed block expands to, and its exponent (R420). -/
def unpackBlock (m count : Nat) (bits : Nat) : List Int × Nat :=
  let e := bits % 16
  ((List.range count).map fun i => sat16 (signedOf m (bits / 16 / 2 ^ (m * i)) * (2 ^ e : Nat)), e)

/-- A profile's values (R424): expand, components of a block, m, format. -/
structure CmpProf where
  expand : Bool
  count : Nat
  m : Nat
  fmt : Nat
  deriving DecidableEq, Repr

/-- The profile that a CMP_PROF_CFG word describes; a frame takes no SLOT24. -/
def profOf (cfg : Nat) (frame : Bool) : CmpProf :=
  let f := bitsOf cfg 28 2
  ⟨bitOf cfg 31, if bitOf cfg 30 then 32 else 24, Nat.min 16 (Nat.max 6 (bitsOf cfg 22 5)), if f = 3 ∨ (f = 2 ∧ frame) then 0 else f⟩

/-- Bytes of an uncompressed component (R423). -/
def compBytes (p : CmpProf) : Nat := if p.fmt = 2 then 4 else 2

/-- Bits of a compressed block (R422). -/
def blockBits (p : CmpProf) : Nat := 4 + p.count * p.m

/-- A component from its bytes (R423). -/
def readComp (p : CmpProf) (l : List Nat) : Int :=
  match p.fmt with
  | 1 => signedOf 16 (ofBytesBE (l.take 2))
  | 2 => signedOf 16 (ofBytesLE (l.take 4) / 256)
  | _ => signedOf 16 (ofBytesLE (l.take 2))

/-- The bytes of a component (R423). -/
def writeComp (p : CmpProf) (x : Int) : List Nat :=
  match p.fmt with
  | 1 => (bytesLE (patternOf 16 x) 2).reverse
  | 2 => bytesLE (patternOf 32 (x * 256)) 4
  | _ => bytesLE (patternOf 16 x) 2

/-- The compressed stream of `b` uncompressed blocks (R422). -/
def compressBytes (p : CmpProf) (b : Nat) (l : List Nat) : List Nat :=
  let comps := (pieces (compBytes p) (b * p.count) l).map (readComp p)
  let bits := (chunks comps p.count b).foldr (fun blk n => packBlock p.m blk + 2 ^ blockBits p * n) 0
  bytesLE bits ((b * blockBits p + 7) / 8)
where
  chunks (l : List Int) (n : Nat) : Nat → List (List Int)
    | 0 => []
    | k + 1 => l.take n :: chunks (l.drop n) n k

/-- The expansion of a stream of `b` blocks, and the exponents above e_max that it read (R420, R433). -/
def expandBytes (p : CmpProf) (b : Nat) (l : List Nat) : List Nat × List Nat :=
  let bits := ofBytesLE l
  let blocks := (List.range b).map fun i => unpackBlock p.m p.count (bits / 2 ^ (i * blockBits p) % 2 ^ blockBits p)
  ((blocks.flatMap fun x => x.1).flatMap (writeComp p), (blocks.map Prod.snd).filter fun e => decide (maxExp p.m < e))

/-! ### Frames (R425 to R429) -/

/-- Count blocks, and the exponents that no compressor makes (R433). -/
def State.cmpBlocks (s : State) (d : Die) (prof b : Nat) (bad : List Nat) : State :=
  let s := s.bump (atDie d) .CMP_BLOCKS_COUNT b
  match bad with
  | [] => s
  | e :: _ =>
    let s := s.bump (atDie d) .CMP_CNT1_BAD_EXP bad.length
    let key := 2 ^ 17 + 16 + d.idx
    if s.onceBusy key then s else (s.onceStart key).raise d Ev.CMP_BAD_EXP (prof + e * 2 ^ 8)

/-- What the engine makes of a frame's sample region (R425, R427): the blocks, the new region and the exponents above e_max; or why
it cannot rewrite it: 0 region, 2 too long. -/
def rewriteRegion (p : CmpProf) (rest : Nat) (region : List Nat) : Except Nat (Nat × List Nat × List Nat) :=
  let n := region.length
  if p.expand then
    let b := 8 * n / blockBits p
    if b = 0 ∨ (b * blockBits p + 7) / 8 ≠ n then .error 0
    else if 10240 < rest + b * p.count * compBytes p then .error 2
    else
      let (l, bad) := expandBytes p b region
      .ok (b, l, bad)
  else
    let size := p.count * compBytes p
    if n = 0 ∨ n % size ≠ 0 then .error 0 else .ok (n / size, compressBytes p (n / size) region, [])

/-- The length fields, the IPv4 header checksum and the UDP checksum after a change of length (R426). -/
def fixLengths (cfg len old new : Nat) (p : Parsed) (l : List Nat) : List Nat :=
  let add (l : List Nat) (o : Nat) : List Nat :=
    if o + 2 ≤ l.length then patchBE l o 2 ((frameBE l o 2 + new + 65536 - old % 65536) % 65536) else l
  let l := if bitOf len 15 then add l (bitsOf len 0 8) else l
  let l := if bitOf len 31 then add l (bitsOf len 16 8) else l
  match if bitOf cfg 27 then p.ip4 else none with
  | none => l
  | some a =>
    let l := patchBE l (a + 10) 2 0
    let l := patchBE l (a + 10) 2 (65535 - onesSum ((l.drop a).take (4 * (frameBE l a 1 % 16))))
    match p.l4 with
    | some (17, o) => patchBE l (o + 6) 2 0
    | _ => l

/-- A frame that the engine cannot rewrite (R427). -/
def State.cmpUnfit (s : State) (d : Die) (prof why : Nat) : State :=
  let s := s.bump (atDie d) .CMP_CNT_UNFIT 1
  let key := 2 ^ 17 + 32 + d.idx
  if s.onceBusy key then s else (s.onceStart key).raise d Ev.CMP_UNFIT (prof + why * 2 ^ 8)

/-- The engine takes its oldest frame under its profile as it is then (R424), and what comes out is offered to its queue (R425 to R428). -/
def State.cmpFrame (s : State) (d : Die) (x : CmpFrame) (rate : Bool) : State :=
  let l := x.frame.bytes
  let cfg := (s.reg (atSel d x.prof) .CMP_PROF_CFG).toNat
  let off := bitsOf cfg 0 8
  let trail := bitsOf cfg 8 8
  let p := parseFrame l
  let size := l.length - 4 - trail - off
  let go (s : State) (f : QFrame) : State := s.toQueue d x.queue f (cellsOf f.bytes.length) rate
  if s.gated d 12 then go (s.bump (atDie d) .CMP_CNT_UNFIT 1) x.frame
  else match rewriteRegion (profOf cfg true) (l.length - size) ((l.drop off).take size) with
  | .error 0 => go (s.cmpUnfit d x.prof 0) x.frame
  | r =>
    if p.ip6.isSome && (p.l4.any fun e => e.1 == 17) then go (s.cmpUnfit d x.prof 1) x.frame
    else match r with
      | .error why => go (s.cmpUnfit d x.prof why) x.frame
      | .ok (b, new, bad) =>
        let out := l.take off ++ new ++ l.drop (off + size)
        let out := fcsAgain (fixLengths cfg (s.reg (atSel d x.prof) .CMP_PROF_LEN).toNat l.length out.length p out)
        go (s.cmpBlocks d x.prof b bad) { x.frame with bytes := out }

/-- The compression engine processes a frame. -/
def execCmpFrameProcess (die : PDie) (rate : Bool) (s : State) : Res :=
  .next (match (s.engine die.die).cmpIn with
  | [] => s
  | x :: t => (s.onEngine die.die fun e => { e with cmpIn := t }).cmpFrame die.die x rate)

/-! ### Jobs (R430 to R432) -/

/-- CMP_JOB_STAT.QUEUED and BUSY follow. -/
def State.jobSync (s : State) (d : Die) : State :=
  s.puts (atDie d) [(.CMP_JOB_STAT_QUEUED, (s.engine d).jobs.length), (.CMP_JOB_STAT_BUSY, natOf (s.engine d).jobRuns)]

/-- CMP_JOB_GO (R430). -/
def State.jobPost (s : State) (d : Die) : State :=
  if 64 ≤ (s.engine d).jobs.length then s.put (atDie d) .CMP_JOB_STAT_POST_IGNORED 1
  else
    let post := (List.range 4).map (fun i => (s.reg (atElem d i) .CMP_JOB_POST).toNat) ++ [(s.reg (atDie d) .CMP_JOB_POST4).toNat]
    (s.onEngine d fun e => { e with jobs := e.jobs ++ [⟨post, 0⟩] }).jobSync d

/-- A job is posted. -/
def execCmpJobPost (die : PDie) (s : State) : Res := .next (s.jobPost die.die)

/-- CMP_JOB_CTRL.FLUSH removes every job that has not started (R430). -/
def State.jobFlush (s : State) (d : Die) : State :=
  (s.onEngine d fun e => { e with jobs := if e.jobRuns then e.jobs.take 1 else [] }).jobSync d

/-- FLUSH is commanded. -/
def execCmpJobFlush (die : PDie) (s : State) : Res := .next (s.jobFlush die.die)

/-- The running job ends (R431, R432): CMP_JOB_END is raised on DONE where EVT = 1, and on ERROR always. -/
def State.jobEnd (s : State) (d : Die) (job : CmpJob) (status out : Nat) : State :=
  let a := atDie d
  let s := (s.onEngine d fun e => { e with jobs := e.jobs.drop 1, jobRuns := false }).jobSync d
  let s := (s.bump a .CMP_JOB_STAT_DONE 1).puts a [(.CMP_JOB_STAT_RESULT, if status = 0 then 1 else 2), (.CMP_JOB_OUT_BYTES, out)]
  let s := if status = 0 then s else s.put a .CMP_JOB_STAT_STATUS status
  if status ≠ 0 ∨ bitOf (job.post.getD 4 0) 31 = true then
    s.raise d Ev.CMP_JOB_END ((if status = 0 then 1 else 2) + status * 2 ^ 8 + out * 2 ^ 16)
  else s

/-- The source and destination of a job. -/
def CmpJob.src (j : CmpJob) : Nat := j.post.getD 0 0 + j.post.getD 1 0 % 2 ^ 16 * 2 ^ 32
/-- The destination of a job. -/
def CmpJob.dst (j : CmpJob) : Nat := j.post.getD 2 0 + j.post.getD 3 0 % 2 ^ 16 * 2 ^ 32
/-- The blocks of a job. -/
def CmpJob.blocks (j : CmpJob) : Nat := j.post.getD 4 0 % 2 ^ 24

/-- The engine starts its next job, under the profile as it is then (DEDUCED, log entry 213): an address that is no multiple of 4 ends it with
DECODE, and B = 0 ends it with DONE. -/
def State.jobStart (s : State) (d : Die) : State :=
  match (s.engine d).jobs with
  | [] => s
  | j :: t =>
    if (s.engine d).jobRuns || s.gated d 12 then s
    else
      let j := { j with cfg := (s.reg (atSel d (bitsOf (j.post.getD 4 0) 24 5)) .CMP_PROF_CFG).toNat }
      let s := (s.onEngine d fun e => { e with jobs := j :: t, jobRuns := true }).jobSync d
      if j.src % 4 ≠ 0 ∨ j.dst % 4 ≠ 0 then s.jobEnd d j 5 0
      else if j.blocks = 0 then s.jobEnd d j 0 0
      else s

/-- The next job starts. -/
def execCmpJobStart (die : PDie) (s : State) : Res := .next (s.jobStart die.die)

end Sys2Proof.Machine
end

