-- ==== Sys2Proof/Machine/HostRing.lean ====
section
/-! DEFINITION. The host rings of the PCIe endpoint (chapter 16, rows 302 to 307). -/

namespace Sys2Proof.Machine

/-- A ring that has sent nothing. -/
def HostRing.idle : HostRing := ⟨0, false⟩

/-- What a ring holds beside its registers. -/
def State.ring (s : State) (r : Nat) : HostRing := Tbl.get HostRing.idle s.rings r

/-- Change what a ring holds. -/
def State.onRing (s : State) (r : Nat) (f : HostRing → HostRing) : State := s.setRings (Tbl.set s.rings r (f (s.ring r)))

/-- The registers of a ring. -/
def hrAt (r : Nat) : At := atSel .e0 r

/-- The port die with which a ring exchanges frames (R398, R461). -/
def ringDie (r : Nat) : Die := if r < 2048 then .e0 else .e1

/-- The descriptors of a ring. -/
def State.ringSize (s : State) (r : Nat) : Nat :=
  let lg := s.get (hrAt r) .MEM_HR_CFG_LOG2_SIZE
  2 ^ (if 4 ≤ lg then lg else 4)

/-- The descriptors that the host has posted and the engine has not completed. -/
def State.ringPosted (s : State) (r : Nat) : Nat :=
  let n := s.ringSize r
  (s.get (hrAt r) .MEM_HR_PTR_TAIL % n + n - s.get (hrAt r) .MEM_HR_PTR_HEAD % n) % n

/-- The host advances TAIL. -/
def execHostRingTailWrite (ring : BitVec 12) (tail : BitVec 16) (s : State) : Res :=
  .next (s.put (hrAt ring.toNat) .MEM_HR_PTR_TAIL tail.toNat)

/-- The bytes of a descriptor. -/
def descBytes (d : BitVec 256) : List Nat := bytesLE d.toNat 32

/-- After a write-back the ring raises its vector, or holds it until HOLDOFF has passed (R464). -/
def State.ringIrq (s : State) (r : Nat) (held : Bool) : State :=
  if held then s.onRing r fun x => { x with waits := true } else s.msix (s.get (hrAt r) .MEM_HR_CFG_VEC)

/-- The frame in hand is discarded, and the ring stops and reports it (R465). -/
def State.ringFail (s : State) (r cause : Nat) : State :=
  ((s.ringStop r cause).bump (hrAt r) .MEM_HR_STAT_ERRS 1).raise .e0 Ev.MEM_HR_ERR (r + cause * 2 ^ 16)

/-- The host address of a ring's descriptor (MEM_HR_BASE). -/
def State.ringAddr (s : State) (r i : Nat) : Nat :=
  s.get (hrAt r) .MEM_HR_BASE_LO_BASE + s.get (hrAt r) .MEM_HR_BASE_HI_BASE * 2 ^ 32 + 32 * i

/-- Write descriptors back from HEAD, and move HEAD past them. -/
def State.ringBack (s : State) (r : Nat) (l : List (List Nat)) : State :=
  let n := s.ringSize r
  let head := s.get (hrAt r) .MEM_HR_PTR_HEAD
  let s := (l.zipIdx).foldl (fun s e => s.emit (.hostDesc r (s.ringAddr r ((head + e.2) % n)) e.1)) s
  (s.put (hrAt r) .MEM_HR_PTR_HEAD ((head + l.length) % n)).onRing r fun x => { x with seq := (x.seq + 1) % 2 ^ 32 }

/-- The descriptors that a frame fills, each with the bytes that go to its buffer; none where they do not hold it. The count bounds
the descriptors. -/
def fillDescs : Nat → List (BitVec 256) → List Nat → Option (List (BitVec 256 × List Nat))
  | 0, _, _ => none
  | _ + 1, _, [] => some []
  | _ + 1, [], _ :: _ => none
  | n + 1, d :: t, b :: l =>
    let k := bitsOf d.toNat 64 16
    (fillDescs n t ((b :: l).drop k)).map fun x => (d, (b :: l).take k) :: x

/-- An RX descriptor as it is written back (R461). -/
def rxBack (d : BitVec 256) (f : QFrame) (q seq n : Nat) (first last : Bool) : List Nat :=
  (descBytes d).take 10 ++ bytesLE n 2 ++ [1 + natOf first * 2 + natOf last * 4, f.port + f.die * 128, f.prio, 0] ++
    bytesLE f.user 2 ++ bytesLE q 2 ++ bytesLE f.stamp 4 ++ bytesLE seq 4 ++ [0, 0, 0, 0]

/-- The endpoint reads or writes a frame in the packet buffer of a ring's die, with ICLS 4 (R461). The class of these requests is not stated
(DESIGN CHOICE, log entry 246). The answer is the NoC status: that of a fence on the way, else the one the command brings. -/
def State.ringAccess (s : State) (r : Nat) (write : Bool) (bytes : List Nat) (status : Nat) : State × Nat :=
  if !s.up (ringDie r) then (s, 4)
  else
    let (s, st) := s.used.frameAccess (ident .e0 4 3 4) 4 (s.free 2) write (ringDie r) (pieces 64 256 bytes)
    (s, if st = 0 then status else st)

/-- A frame goes to the host (R462): it waits for enough descriptors; `status` is the NoC status of reading the packet buffer. -/
def State.ringRx (s : State) (r q : Nat) (descs : List (BitVec 256)) (status : Nat) (held bad : Bool) : State :=
  let d := ringDie r
  match (s.queue d q).frames with
  | [] => s
  | f :: _ =>
    if !s.ringRuns r || s.flag (hrAt r) .MEM_HR_CFG_DIR || !s.pcie.linkUp || s.get (atSel d q) .PKT_Q_CFG_DTYPE != 2 ||
        s.get (atSel d q) .PKT_Q_CFG_DEST != r || s.flushes d q || (fillDescs 16384 (descs.take (s.ringPosted r)) f.bytes).isNone then s
    else
      let (s, f, lost) := s.unspill d f
      let (s, st) := s.ringAccess r false f.bytes status
      let s := s.bufferUe d bad
      if st ≠ 0 then (s.takeHead d q).ringFail r 5
      else if bad || lost then (s.takeHead d q).bump (hrAt r) .MEM_HR_STAT_ERRS 1
      else
        let l := (fillDescs 16384 (descs.take (s.ringPosted r)) f.bytes).getD []
        let seq := (s.ring r).seq
        let n := l.length
        let s := l.foldl (fun s e => s.emit (.hostData (bitsOf e.1.toNat 0 64) e.2)) (s.takeHead d q)
        let back := (l.zipIdx).map fun e => rxBack e.1.1 f q seq e.1.2.length (e.2 == 0) (e.2 + 1 == n)
        (s.ringBack r back).ringIrq r held

/-- A frame of an RX ring. -/
def execHostRingRxFrame (ring : BitVec 12) (queue : BitVec 16) (descs : List (BitVec 256)) (status : BitVec 4) (held bad : Bool)
    (s : State) : Res :=
  .next (s.ringRx ring.toNat queue.toNat descs status.toNat held bad)

/-- A TX descriptor as it is written back (R461). -/
def txBack (d : BitVec 256) (seq : Nat) (err : Bool) : List Nat :=
  let l := descBytes d
  l.take 10 ++ [0, 0, 1 + natOf err * 8, 0, 0, 0] ++ (l.drop 16).take 4 ++ [0, 0, 0, 0] ++ bytesLE seq 4 ++ [0, 0, 0, 0]

/-- Whether a descriptor has EOP. -/
def descEop (d : BitVec 256) : Bool := d.getLsbD 98

/-- Whether a descriptor has SOP. -/
def descSop (d : BitVec 256) : Bool := d.getLsbD 97

/-- The bytes of a frame, as many as its descriptors name: those that the host's reads return, and open ones where the command gives none. -/
def State.descFrame (s : State) (l : List (BitVec 256)) (bytes : List Nat) : List Nat :=
  let n := (l.map fun d => bitsOf d.toNat 64 16).sum
  bytes.take n ++ bytesLE (s.free (8 * (n - bytes.length))) (n - bytes.length)

/-- The descriptors of the frame at HEAD: up to EOP, or 64 without one. -/
def frameDescs : Nat → List (BitVec 256) → Option (List (BitVec 256))
  | 0, _ => some []
  | _ + 1, [] => none
  | n + 1, d :: t => if descEop d then some [d] else (frameDescs n t).map fun l => d :: l

/-- A frame from the host is offered to its queue, or passes the parser and the table with INPORT 63 (R391, R463). Its priority, its
stamp and, without a lookup, its USER are not stated (DESIGN CHOICE, log entry 2). -/
def State.ringOffer (s : State) (r : Nat) (first : BitVec 256) (l : List Nat) (rate : Bool) : State :=
  let d := ringDie r
  let open_ := s.free 64
  let s := s.used
  let prio := open_ % 8
  let frame (user : Nat) : QFrame := ⟨l, d.idx, 63, false, prio, user, bitsOf open_ 8 32, bitsOf open_ 40 8, 0, 0, 0, false, []⟩
  if first.getLsbD 100 then
    let (s, result) := s.frameResult d (s.get (hrAt r) .MEM_HR_CFG_PROFILE) 63 prio l
    s.frameOn d result (frame (bitsOf result 24 16)) false rate
  else s.toQueue d (bitsOf first.toNat 128 17) (frame (bitsOf open_ 48 16)) (cellsOf l.length) rate

/-- A frame comes from the host (R463): `status` is the NoC status of writing the packet buffer. Descriptors that begin without SOP are what is
left of a frame that was dropped: they get ERR, too (DEDUCED, log entry 254). -/
def State.ringTx (s : State) (r : Nat) (descs : List (BitVec 256)) (bytes : List Nat) (status : Nat) (held rate : Bool) : State :=
  if !s.ringRuns r || !s.flag (hrAt r) .MEM_HR_CFG_DIR || !s.pcie.linkUp then s
  else match frameDescs 64 (descs.take (s.ringPosted r)) with
  | none => s
  | some l =>
    let seq := (s.ring r).seq
    if !(l.any descEop) || !(l.take 1).any descSop || decide (10240 < (l.map fun d => bitsOf d.toNat 64 16).sum) then
      (s.ringBack r (l.map fun d => txBack d seq true)).ringIrq r held
    else
      let bytes := s.descFrame l bytes
      let (s, st) := s.used.ringAccess r true bytes status
      if st ≠ 0 then s.ringFail r 5
      else ((s.ringOffer r (l.headD 0) bytes rate).ringBack r (l.map fun d => txBack d seq false)).ringIrq r held

/-- A frame of a TX ring. -/
def execHostRingTxFrame (ring : BitVec 12) (descs : List (BitVec 256)) (bytes : List Byte) (status : BitVec 4) (held rate : Bool)
    (s : State) : Res :=
  .next (s.ringTx ring.toNat descs (bytes.map BitVec.toNat) status.toNat held rate)

/-- A PCIe request of a running ring ends badly: its frame in hand, of an RX ring the head of its queue, is discarded (R465). -/
def State.ringPcie (s : State) (r cause q : Nat) : State :=
  if s.ringRuns r then
    let d := ringDie r
    let rx := !s.flag (hrAt r) .MEM_HR_CFG_DIR && s.get (atSel d q) .PKT_Q_CFG_DTYPE == 2 && s.get (atSel d q) .PKT_Q_CFG_DEST == r
    (if rx then s.takeHead d q else s).ringFail r cause
  else s

/-- A PCIe completion reaches a ring. -/
def execPcieCompletion (ring : BitVec 12) (result : PcieEnd) (queue : BitVec 16) (s : State) : Res :=
  .next (match result with
  | .ok => s
  | .unsupported => s.ringPcie ring.toNat 1 queue.toNat
  | .abort => s.ringPcie ring.toNat 2 queue.toNat
  | .poisoned => s.ringPcie ring.toNat 3 queue.toNat)

/-- A PCIe request of a ring times out. -/
def execPcieCompletionTimeout (ring : BitVec 12) (queue : BitVec 16) (s : State) : Res := .next (s.ringPcie ring.toNat 4 queue.toNat)

/-- HOLDOFF has passed: a vector that waits is raised (R464). -/
def State.ringHoldoff (s : State) (r : Nat) : State :=
  if (s.ring r).waits then (s.onRing r fun x => { x with waits := false }).msix (s.get (hrAt r) .MEM_HR_CFG_VEC) else s

/-- The holdoff of a ring expires. -/
def execMsixHoldoffExpiry (ring : BitVec 12) (s : State) : Res := .next (s.ringHoldoff ring.toNat)

/-- RESUME restarts a stopped ring at HEAD; ignored where it is not stopped or the link is down (R465). -/
def State.ringResume (s : State) (r : Nat) : State :=
  if s.flag (hrAt r) .MEM_HR_STAT_STOPPED && s.pcie.linkUp then
    s.puts (hrAt r) [(.MEM_HR_STAT_STOPPED, 0), (.MEM_HR_STAT_CAUSE, 0)]
  else s.put (hrAt r) .MEM_HR_STAT_CMD_IGNORED 1

/-- RESUME is written. -/
def execHostRingResume (ring : BitVec 12) (s : State) : Res := .next (s.ringResume ring.toNat)

/-- A write of MEM_HR_CFG: ignored while EN = 1 and EN stays 1. -/
def State.ringCfg (s : State) (r : Nat) (v : Word) : State :=
  if s.flag (hrAt r) .MEM_HR_CFG_EN && bitOf v.toNat 31 then s else s.writeReg (hrAt r) .MEM_HR_CFG v

end Sys2Proof.Machine
end

