-- ==== Sys2Proof/Machine/Reserve.lean ====
section
/-! DEFINITION. The reservation table of class X and its check (chapter 05, R139 to R143). -/

namespace Sys2Proof.Machine

/-- The links of a route (R129): router and output port for each link within a die, 4 toward the endpoint; for each crossing of a
die edge, the dies and the channel. Class X leaves a port die in its even row. The first argument bounds the hops. -/
def routeLinks : Nat → Router → Nat → List (Router × Nat) × List (Die × Die × Nat)
  | 0, _, _ => ([], [])
  | n + 1, r, dst =>
    let out := r.out dst
    if out = 4 then ([(r, 4)], [])
    else
      let t := r.next out false
      let (l, w) := routeLinks n t dst
      match crossing r t out with
      | [] => ((r, out) :: l, w)
      | c => (l, c ++ w)

/-- The key of a link within a die: die, row, column, PORT, network, in the order of R142. -/
def linkKey (r : Router) (port net : Nat) : Nat := (((r.die.idx * 8 + r.row) * 8 + r.col) * 8 + port) * 4 + net

/-- The charges of links within dies, by `linkKey`, and of Weld channels, by channel × 2 + DIR (R142). -/
structure Charges where
  links : Tbl Nat
  welds : Tbl Nat
  deriving DecidableEq, Repr

/-- Add to one entry of a table of sums. -/
def addTo (t : Tbl Nat) (k n : Nat) : Tbl Nat := Tbl.set t k (Tbl.get 0 t k + n)

/-- `n` flits of a network go from one endpoint to another (R141): 0 REQ, 1 RSP, 3 DAT. A DAT flit is 5 groups on a channel. -/
def Charges.route (c : Charges) (src dst net n : Nat) : Charges :=
  if n = 0 then c
  else
    let (l, w) := routeLinks 64 (idRouter src) dst
    let groups := if net = 3 then 5 * n else n
    { links := ((idRouter src, 5) :: l).foldl (fun t e => addTo t (linkKey e.1 e.2 net) n) c.links
      welds := w.foldl (fun t e => addTo t (e.2.2 * 2 + natOf (decide (e.2.1.idx < e.1.idx))) groups) c.welds }

/-- What an entry charges in a stroke (R141). -/
def Charges.entry (c : Charges) (e : XEntry) : Charges :=
  (((c.route e.init e.tgt 0 e.rd).route e.init e.tgt 3 (e.wr + e.at_)).route e.tgt e.init 3 (e.rd + e.at_)).route e.tgt e.init 1 e.wr

/-- What a table charges. -/
def chargesOf (l : List XEntry) : Charges := l.foldl Charges.entry ⟨[], []⟩

/-- The capacity of a link within a die in a stroke, in flits (R142). -/
def linkCap (period : Nat) : Nat := 3 * period

/-- The capacity of a Weld channel in a stroke, in groups (R142). -/
def weldCap (period : Nat) : Nat := 45 * period / 4

/-- Whether twice some charge is more than its link's capacity. -/
def Charges.exceeds (c : Charges) (period : Nat) : Bool :=
  c.links.any (fun e => decide (linkCap period < 2 * e.2)) || c.welds.any fun e => decide (weldCap period < 2 * e.2)

/-- NOC_XRES_LINK of a Weld channel. -/
def weldWord (k : Nat) : Nat := 2 ^ 31 + k / 2 * 2 ^ 24 + k % 2 * 2 ^ 23

/-- NOC_XRES_LINK of a link within a die. -/
def linkWord (k : Nat) : Nat := k / 4 % 8 * 8 + k / 32 % 8 * 2 ^ 6 + k / 256 % 8 * 2 ^ 9 + k / 2048 * 2 ^ 12 + k % 4

/-- The link with the highest charge relative to its capacity, as charge, capacity and NOC_XRES_LINK: channels come before links
within dies, and of equal ones the first stands (R142). -/
def Charges.worst (c : Charges) (period : Nat) : Nat × Nat × Nat :=
  let all := c.welds.map (fun e => (e.2, weldCap period, weldWord e.1)) ++ c.links.map fun e => (e.2, linkCap period, linkWord e.1)
  all.foldl (fun b e => if b.1 * e.2.1 < e.1 * b.2.1 then e else b) (0, 1, 0)

/-- The entries of a die in force, in their order. -/
def State.xTable (s : State) (d : Die) : List XEntry :=
  (List.range 256).filterMap fun e =>
    let a := atSel d e
    if s.flag a .NOC_XRES_HI_VALID then
      some ⟨s.get a .NOC_XRES_LO_INIT, s.get a .NOC_XRES_LO_TGT, s.get a .NOC_XRES_HI_RD, s.get a .NOC_XRES_HI_WR, s.get a .NOC_XRES_HI_AT⟩
    else none

/-- The whole table in force. -/
def State.xAll (s : State) : List XEntry := Die.all.flatMap s.xTable

/-- Whether the table in force meets R142 at a period (R143). -/
def State.xFits (s : State) (period : Nat) : Bool := !(chargesOf s.xAll).exceeds period

/-- Put the entries of a die, numbered from 0 (R139). -/
def State.setXTable (s : State) (d : Die) (l : List XEntry) : State :=
  (List.range 256).foldl (fun s n =>
    let a := atSel d n
    match l[n]? with
    | some e => s.puts a [(.NOC_XRES_LO_INIT, e.init), (.NOC_XRES_LO_TGT, e.tgt), (.NOC_XRES_HI_RD, e.rd), (.NOC_XRES_HI_WR, e.wr),
        (.NOC_XRES_HI_AT, e.at_), (.NOC_XRES_HI_VALID, 1)]
    | none =>
      if s.flag a .NOC_XRES_HI_VALID then (s.setReg a .NOC_XRES_LO 0).setReg a .NOC_XRES_HI 0 else s) s

/-- Whether an identity names a fabric port. -/
def isFport (id : Nat) : Bool := (idPort id).isSome

/-- Whether an identity that is no fabric port may be a class X target (R140): a hearth bank, a core, or a packet buffer slice. -/
def xTarget (id : Nat) : Bool :=
  let d := idDie id
  if d.isFab then (id % 8 == 6 && idRow id == 3) || (id % 8 == 5 && idRow id == 4) else id % 8 == 0 && decide (idCol id < 4)

/-- A table is refused: NOC_XRES_REFUSED. -/
def State.xRefused (s : State) (result : Nat) : State :=
  (s.put (atDie .e0) .NOC_XRES_STAT_RESULT result).raise .e0 Ev.NOC_XRES_REFUSED (result + (s.reg (atDie .e0) .NOC_XRES_LINK).toNat * 2 ^ 8)

/-- The check of a load's table (R140, R142): `table` is the package's table after the load, `new` the load's own entries. The
answer says whether it is accepted; targets that are fabric ports are checked after the frames. MAXLOAD, 10 bits of per mille, saturates at
1,023 (DESIGN CHOICE, log entry 209). -/
def State.xCheck (s : State) (table new : List XEntry) : State × Bool :=
  let period := s.get (atDie .e0) .STK_TIMING_PERIOD
  let c := chargesOf table
  let (n, cap, link) := c.worst period
  let s := (s.put (atDie .e0) .NOC_XRES_STAT_MAXLOAD (Nat.min 1023 (n * 1000 / cap))).setReg (atDie .e0) .NOC_XRES_LINK (BitVec.ofNat 32 link)
  if new.any fun e => !isFport e.tgt && !xTarget e.tgt then (s.xRefused 3, false)
  else if c.exceeds period then (s.xRefused 2, false)
  else (s.put (atDie .e0) .NOC_XRES_STAT_RESULT 1, true)

/-- The check of fabric-port targets after the last frame (R140): `mode` is the mode that each port will hold. -/
def State.xPorts (s : State) (mode : Nat → Nat) (new : List XEntry) : State × Bool :=
  if new.any fun e => isFport e.tgt && !(mode e.tgt == 2 || mode e.tgt == 3) then (s.xRefused 3, false) else (s, true)

end Sys2Proof.Machine
end

