-- ==== Sys2Proof/Machine/Clocks.lean ====
section
/-! DEFINITION. Clock sources, the datum PLL and its switcher, fabric PLLs, clock gating, AVSBus and PMBus, rail readings and
temperatures (chapter 18). -/

namespace Sys2Proof.Machine

/-! ### Line-facing outputs and coast (R496 to R498) -/

/-- The line-facing outputs of a port die trip: cause 0 coast, 1 lane rail (R498, R512). -/
def State.lineSafe (s : State) (d : Die) (cause : Nat) : State :=
  let s := (s.lanesSafe d).memSafe d
  let s := if d = .e0 then ((s.ppsSafe).puts (atDie .e0) [(.LAN_RCLK_OUT_EN0, 0), (.LAN_RCLK_OUT_EN1, 0)]).rclkSync else s
  (s.put (atDie .e0) .CLK_STATUS_LINE_SAFE 1).raise d Ev.CLK_LINE_SAFE cause

/-- Strokes become untimed (R53, R407): the lock to network time is dropped. -/
def State.setUntimed (s : State) : State :=
  let s := (s.setUnits { s.units with slews := false, slip := 0 }).lockLost
  if s.flag (atDie .e0) .STK_STATUS_UNTIMED then s
  else
    let s := Die.all.foldl (fun s d => s.put (atDie d) .STK_STATUS_UNTIMED 1) s
    let s := s.raise .e0 Ev.STROKE_UNTIMED 0
    (s.put (atDie .e0) .PKT_TOD_CTRL_UNTIMED 1).raise .e0 Ev.TOD_UNTIMED 0

/-- The datum PLL begins to coast: cause 0 no fallback, 1 loss of lock (R496, R498). -/
def State.coast (s : State) (cause : Nat) : State :=
  let s := s.puts (atDie .e0) [(.CLK_STATUS_COAST, 1), (.CLK_STATUS_LOCKED, 0)]
  let s := (s.setClk { s.clk with relocks := false }).raise .e0 Ev.CLK_COAST (1 + cause * 2 ^ 8)
  let s := s.setUntimed.lineSafe .e0 0
  if s.dieSt .e1 = 0 ∨ s.dieSt .e1 = 2 then s.lineSafe .e1 0 else s

/-! ### Switches (R500 to R502, R570) -/

/-- Whether a source is READY; code 7 names none. -/
def State.srcReady (s : State) (src : Nat) : Bool := decide (src < 7) && s.bit (atDie .e0) .CLK_SRC_STAT_READY src

/-- The active source. -/
def State.active (s : State) : Nat := s.get (atDie .e0) .CLK_STATUS_ACTIVE

/-- A switch or fallback is refused: 0xFF for a fallback. -/
def State.switchRefused (s : State) (src : Nat) : State :=
  (s.put (atDie .e0) .CLK_STATUS_REFUSED 1).raise .e0 Ev.CLK_SWITCH_REFUSED src

/-- A SWITCH acts (R495, R497, R500, R570). -/
def State.clockSwitch (s : State) (sel : Nat) : State :=
  if s.clk.switch.isSome then s.setClk { s.clk with held := some sel }
  else if !s.clk.locked then s.switchRefused sel
  else if sel = s.active ∧ s.flag (atDie .e0) .CLK_STATUS_COAST = false then s
  else if !s.srcReady sel then s.switchRefused sel
  else s.setClk { s.clk with switch := some (sel, false, false), tripped := false }

/-- CLK_CTRL is written with SEL and SWITCH = 1. -/
def execClockSwitch (sel : BitVec 3) (s : State) : Res := .next ((s.put (atDie .e0) .CLK_CTRL_SEL sel.toNat).clockSwitch sel.toNat)

/-- The old source gives no edge: the switch in progress is forced. -/
def execSwitchForced (s : State) : Res :=
  .next (match s.clk.switch with
  | some (t, auto, false) =>
    if t = s.active then s
    else (s.setClk { s.clk with switch := some (t, auto, true) }).put (atDie .e0) .CLK_STATUS_SWITCH_FORCED 1
  | _ => s)

/-- The request held while a switch was in progress acts (R570). -/
def State.heldSwitch (s : State) : State :=
  match s.clk.held with
  | none => s
  | some sel => (s.setClk { s.clk with held := none }).clockSwitch sel

/-- The switch in progress completes; after a coast the PLL relocks (R497, R500). -/
def State.switched (s : State) : State :=
  match s.clk.switch with
  | none => s
  | some (t, auto, forced) =>
    let old := s.active
    let s := s.put (atDie .e0) .CLK_STATUS_ACTIVE t
    let s := s.setClk { s.clk with switch := none, tripped := false, relocks := s.flag (atDie .e0) .CLK_STATUS_COAST }
    (s.raise .e0 Ev.CLK_SWITCH (old + t * 2 ^ 8 + (natOf forced + 2 * natOf auto) * 2 ^ 16)).heldSwitch

/-- The output follows the new source. -/
def execSwitchComplete (s : State) : Res := .next s.switched

/-- The first listed source of the fallback order that is READY and did not trip (R501). -/
def State.fallback (s : State) (src : Nat) : Option Nat :=
  (List.range 4).findSome? fun k =>
    let p := s.get (atDie .e0) (.CLK_CTRL_PRIO k)
    if p ≠ src ∧ s.srcReady p = true then some p else none

/-- The active source has tripped with no switch in progress: a fallback, or coast (R501). The fallback is a switch whose active source has
tripped, should its target trip too (R570). -/
def State.activeTrip (s : State) (src : Nat) : State :=
  if s.flag (atDie .e0) .CLK_CTRL_AUTO then
    match s.fallback src with
    | some t => (s.setClk { s.clk with switch := some (t, true, false), tripped := true }).put (atDie .e0) .CLK_STATUS_FALLBACK 1
    | none => (s.switchRefused 0xFF).coast 0
  else s.coast 0

/-- The target of the switch in progress has left READY: the switch is abandoned (R570). -/
def State.switchDropped (s : State) (t : Nat) : State :=
  let tripped := s.clk.tripped && !s.flag (atDie .e0) .CLK_STATUS_COAST
  let s := (s.setClk { s.clk with switch := none, tripped := false }).switchRefused t
  (if tripped then s.activeTrip s.active else s).heldSwitch

/-! ### Sources (R491 to R493, R503) -/

/-- The recovered-clock selector of a source (R491). -/
def srcSelector (src : Nat) : Die × Nat := (if src < 5 then .e0 else .e1, (src + 1) % 2)

/-- Whether a source may qualify now (R491, R492). -/
def State.srcMay (s : State) (src : Nat) : Bool :=
  let khz := s.get (atElem .e0 src) .CLK_SRC_FREQ_KHZ
  let (d, n) := srcSelector src
  let l := s.get (atDie d) (rckLane n)
  s.clk.power == 2 && decide (10000 ≤ khz ∧ khz ≤ 400000) && (src != 0 || s.flag (atDie .e0) .CLK_CTRL_XTAL_EN) &&
    (src < 3 || (s.flag (atDie d) (rckEn n) && decide (l < 48) && s.flag (atUnit d l) .LAN_LANE_STAT_LOCKED && s.up d))

/-- A source becomes READY: codes 1 to 6 have passed a window. -/
def execSourceReady (source : Fin 7) (s : State) : Res :=
  let n := source.val
  .next (if s.srcMay n && !s.srcReady n && (n == 0 || decide (1 ≤ Tbl.get 0 s.clk.windows n)) then
    (s.setBit (atDie .e0) .CLK_SRC_STAT_READY n).raise .e0 Ev.CLK_SRC_READY n
  else s)

/-- A source meets a condition of R492: 0 loss, 1 frequency, 2 amplitude. One that is not READY starts its qualification again. -/
def State.srcTrip (s : State) (src kind : Nat) : State :=
  let ready := s.srcReady src
  let s := s.setClk { s.clk with windows := Tbl.erase s.clk.windows src }
  if !ready then s
  else
    let s := (s.clrBit (atDie .e0) .CLK_SRC_STAT_READY src).setBit (atDie .e0) .CLK_SRC_STAT_LOSS src
    let s := s.raise .e0 Ev.CLK_REF_LOSS (src + kind * 2 ^ 8)
    match s.clk.switch with
    | some (t, _, _) =>
      if src = t then s.switchDropped t
      else if src = s.active then s.setClk { s.clk with tripped := true }
      else s
    | none =>
      if src ≠ s.active ∨ s.clk.locked = false then s
      else if s.flag (atDie .e0) .CLK_STATUS_COAST then s.setClk { s.clk with relocks := false }
      else s.activeTrip src

/-- A source trips; the amplitude is a condition of the crystal alone. -/
def execSourceTrip (source : Fin 7) (kind : Fin 3) (s : State) : Res :=
  .next (if kind = 2 ∧ source ≠ 0 then s else s.srcTrip source kind)

/-- A frequency window of 4,096 RC cycles ends with a count of edges; `whole`: it began after the counting had started
(R491); where it did not, no window has passed since. -/
def execFreqWindowEnd (source : Fin 7) (count : BitVec 24) (whole : Bool) (s : State) : Res :=
  let n := source.val
  let want := s.get (atElem .e0 n) .CLK_SRC_FREQ_KHZ * 4096
  let got := count.toNat * 100000
  .next (if want < 4 * (got - want + (want - got)) then s.srcTrip n 1
  else s.setClk { s.clk with windows := Tbl.set s.clk.windows n (if whole then Tbl.get 0 s.clk.windows n + 1 else 0) })

/-- The lock detector reports loss of lock while the active source is READY (R496). -/
def execDatumPllUnlock (s : State) : Res :=
  .next (if s.flag (atDie .e0) .CLK_STATUS_LOCKED && s.srcReady s.active then s.coast 1 else s)

/-- RC cycles counted in a millisecond of the time clock (R493). -/
def execRcOscillatorCheck (count : BitVec 32) (s : State) : Res :=
  let n := count.toNat
  .next (if s.flag (atDie .e0) .CLK_STATUS_LOCKED && decide (n < 88000 ∨ 112000 < n) && !s.flag (atDie .e0) .CLK_STATUS_RC_FAULT then
    (s.put (atDie .e0) .CLK_STATUS_RC_FAULT 1).raise .e0 Ev.CLK_RC_FAULT n
  else s)

/-- A write of CLK_CTRL.XTAL_EN (R503). -/
def State.xtalEnable (s : State) (on : Bool) : State :=
  if on then s.put (atDie .e0) .CLK_CTRL_XTAL_EN 1
  else if s.active = 0 then s.put (atDie .e0) .CLK_STATUS_CMD_IGNORED 1
  else
    let s := (s.put (atDie .e0) .CLK_CTRL_XTAL_EN 0).clrBit (atDie .e0) .CLK_SRC_STAT_READY 0
    match s.clk.switch with
    | some (0, _, _) => s.switchDropped 0
    | _ => s

/-- XTAL_EN is written. -/
def execXtalEnable (on : Bool) (s : State) : Res := .next (s.xtalEnable on)

/-- A write of CLK_CTRL: XTAL_EN and SWITCH act. -/
def State.clkCtrl (s : State) (v : Word) : State :=
  let n := v.toNat
  let s := s.writeReg (atDie .e0) .CLK_CTRL (Fld.CLK_CTRL_XTAL_EN.into v (s.get (atDie .e0) .CLK_CTRL_XTAL_EN))
  let s := s.xtalEnable (bitOf n 20)
  if bitOf n 16 then s.clockSwitch (bitsOf n 21 3) else s

/-! ### Fabric PLLs (R504, R505) -/

/-- LOCKED of a PLL of a fabric die: 0 to 3 fabric PLLs, 4 the core PLL. -/
def pllAt (d : Die) (n : Nat) : At × Fld := if n < 4 then (atElem d n, .CLK_FPLL_STAT_LOCKED) else (atDie d, .CLK_CPLL_STAT_LOCKED)

/-- Put LOCKED of a PLL; the seam groups that a fabric PLL clocks unlock with it (R185). -/
def State.setPll (s : State) (d : Die) (n : Nat) (on : Bool) : State :=
  let s := if !on && decide (n < 4) && s.flag (pllAt d n).1 (pllAt d n).2 then s.seamsLose d n else s
  s.put (pllAt d n).1 (pllAt d n).2 (natOf on)

/-- A PLL of a fabric die loses lock in operation. -/
def execFabricPllUnlock (die : FDie) (pll : Fin 5) (s : State) : Res :=
  let d := die.die
  .next (if s.flag (pllAt d pll).1 (pllAt d pll).2 then
    let s := s.setPll d pll false
    let s := if pll.val < 4 then s.bump (atElem d pll) .CLK_FPLL_STAT_UNLOCKS 1 else s.bump (atDie d) .CLK_CPLL_STAT_UNLOCKS 1
    s.raise d Ev.CLK_FPLL_UNLOCK pll
  else s)

/-- Whether a PLL may lock: the datum PLL has locked, the die is not in reset, its regulator has reported 0.75 V after a reset (R507, R568),
and DEEP_SLEEP does not power it down (R511). -/
def State.pllMay (s : State) (d : Die) (n : Nat) : Bool :=
  s.clk.locked && (s.dieSt d == 0 || s.dieSt d == 2) && !s.clk.volt.contains d.idx &&
    !(s.get (atDie d) .PWR_PL_STAT_STATE == 2 &&
      (if n < 4 then s.gated d (9 + n) else (List.range 8).all fun k => s.gated d k))

/-- A PLL of a fabric die locks. -/
def execFabricPllRelock (die : FDie) (pll : Fin 5) (s : State) : Res :=
  .next (if s.pllMay die.die pll then s.setPll die.die pll true else s)

/-! ### Clock gating (R511) -/

/-- Whether a domain's clock runs by the enable of the power state in force. -/
def State.gateRuns (s : State) (d : Die) (dom : Nat) : Bool :=
  match s.get (atDie d) .PWR_PL_STAT_STATE with
  | 1 => s.flag (atSel d dom) .CLK_GATE_SLEEP_EN
  | 2 => s.flag (atSel d dom) .CLK_GATE_DEEP_EN
  | _ => s.flag (atSel d dom) .CLK_GATE_RUN_EN

/-- The tongs of a core go on. -/
def State.tngResume (s : State) (d : Die) (k : Nat) : State :=
  match (s.core d k).run with
  | some r => if s.flag (atUnit d k) .HMR_TNG_STAT_STOPPED then s else State.tngGo (tngFuel r) s d k
  | none => s

/-- In DEEP_SLEEP a fabric die powers down the PLLs whose domains are gated. -/
def State.pllSleep (s : State) (d : Die) : State :=
  if d.isFab && s.get (atDie d) .PWR_PL_STAT_STATE == 2 then
    let s := if (List.range 8).all fun k => s.gated d k then s.setPll d 4 false else s
    (List.range 4).foldl (fun s n => if s.gated d (9 + n) then s.setPll d n false else s) s
  else s

/-- The clock of a domain starts, and its fence opens. -/
def State.gateOpen (s : State) (d : Die) (dom : Nat) : State :=
  let was := s.gated d dom
  let s := s.put (atSel d dom) .CLK_GATE_GATED 0
  if !d.isFab then s
  else
    let s := s.setClk { s.clk with fences := Tbl.erase s.clk.fences (d.idx * 16 + dom) }
    if dom < 8 then (if was then s.coreWdogReload d dom else s).tngResume d dom
    else if dom = 8 then (List.range 8).foldl (fun s k => s.tngResume d k) s
    else s

/-- The clock of a domain stops, unless its enable has returned; a core's reservation clears. -/
def State.gateShut (s : State) (d : Die) (dom : Nat) : State :=
  if s.gateRuns d dom || s.gated d dom then s
  else
    let s := s.put (atSel d dom) .CLK_GATE_GATED 1
    (if d.isFab && decide (dom < 8) then s.onCore d dom fun c => { c with resv := none } else s).pllSleep d

/-- The fence in front of a core or the hearth; other domains have no network endpoint. -/
def domainFence (d : Die) (dom : Nat) : Option FenceId :=
  let fence (f : FDie) : Option FenceId := if h : dom < 9 then some (.domain f ⟨dom, h⟩) else none
  match d with
  | .f0 => fence .f0
  | .f1 => fence .f1
  | .f2 => fence .f2
  | .f3 => fence .f3
  | .f4 => fence .f4
  | .f5 => fence .f5
  | .e0 | .e1 => none

/-- A domain gates or ungates as its enable now says: a domain with network endpoints stops once its fence is CLOSED, any other at once. -/
def State.gateSync (s : State) (d : Die) (dom : Nat) : State :=
  if s.gateRuns d dom then (if s.gated d dom || s.domFence d dom != 0 then s.gateOpen d dom else s)
  else if s.gated d dom then s
  else match domainFence d dom with
    | none => s.gateShut d dom
    | some f =>
      let s := s.fenceRaise f
      if s.fence f = 2 then s.gateShut d dom else s

/-- Every domain of a die follows the power state in force. -/
def State.gatesSync (s : State) (d : Die) : State := ((List.range 13).foldl (fun s n => s.gateSync d n) s).pllSleep d

/-- A write of CLK_GATE. -/
def State.gateWrite (s : State) (d : Die) (dom : Nat) (v : Word) : State :=
  if dom < 13 then ((s.writeReg (atSel d dom) .CLK_GATE v).gateSync d dom).pllSleep d else s

/-- CLK_GATE is written. -/
def execClockGateWrite (die : Die) (domain : Fin 13) (value : Word) (s : State) : Res := .next (s.gateWrite die domain value)

/-! ### Regulators (R507, R508, R510) -/

/-- The voltage of a level in mV (R506). -/
def levelMv (n : Nat) : Nat := 700 + 50 * n

/-- The voltage requested of a die's regulator in mV. -/
def State.vreq (s : State) (d : Die) : Nat := s.get (atDie d) .PWR_PL_STAT_VREQ

/-- The sequencer writes a voltage to a die's regulator. -/
def State.avsWrite (s : State) (d : Die) (mv : Nat) : State :=
  (s.puts (atDie d) [(.PWR_PL_STAT_VREQ, mv), (.PWR_PL_STAT_SEQ, 1)]).emit (.avs d.idx mv)

/-- The rail selector of a fabric die. -/
def avsSel (d : Die) : Nat := d.idx - 2

/-- PWR_AVS_ERR of a die: 0 no response, 1 CRC, 2 fault status, 3 output not good in time. -/
def State.avsErr (s : State) (d : Die) (kind : Nat) : State :=
  (s.put (atDie d) .PWR_PL_STAT_AVS_ERR 1).raise .e0 Ev.PWR_AVS_ERR (avsSel d + kind * 2 ^ 8)

/-- A regulator is not good 10 ms after a write: the voltage is written again. -/
def execAvsTimeout (die : FDie) (s : State) : Res :=
  let d := die.die
  .next (if s.flag (atDie d) .PWR_PL_STAT_SEQ then (s.avsErr d 3).avsWrite d (s.vreq d) else s)

/-- An AVSBus command fails. -/
def execAvsError (die : FDie) (kind : Fin 3) (s : State) : Res := .next (s.avsErr die.die kind)

/-- A write of PWR_PMB_CMD: GO performs a transaction, and is ignored while BUSY. -/
def State.pmbus (s : State) (v : Word) : State :=
  if s.flag (atDie .e0) .PWR_PMB_CMD_BUSY then
    s.writeReg (atDie .e0) .PWR_PMB_CMD v
  else
    let s := s.writeReg (atDie .e0) .PWR_PMB_CMD v
    if bitOf v.toNat 31 then
      (s.put (atDie .e0) .PWR_PMB_CMD_BUSY 1).emit (.pmbus (s.reg (atDie .e0) .PWR_PMB_CMD).toNat (s.get (atDie .e0) .PWR_PMB_DATA_DATA))
    else s

/-- PWR_PMB_CMD.GO is written. -/
def execPmbusTransaction (value : Word) (s : State) : Res := .next (s.pmbus (value ||| 0x80000000))

/-- The transaction ends: 0 OK, 1 no acknowledge, 2 PEC error, 3 clock held; a read that is OK brings data. -/
def execPmbusDone (err : Fin 4) (data : BitVec 16) (s : State) : Res :=
  let a := atDie .e0
  .next (if s.flag a .PWR_PMB_CMD_BUSY then
    let s := s.puts a [(.PWR_PMB_CMD_BUSY, 0), (.PWR_PMB_CMD_ERR, err)]
    if err = 0 ∧ s.flag a .PWR_PMB_CMD_WRITE = false then
      s.put a .PWR_PMB_DATA_DATA (if s.flag a .PWR_PMB_CMD_WORD then data.toNat else data.toNat % 256)
    else s
  else s)

/-! ### Rails (R512 to R514) -/

/-- A voltage is sampled on a rail: MIN keeps the lowest since the last read. -/
def State.railSample (s : State) (rail mv : Nat) : State :=
  let a := atSel .e0 rail
  (s.put a .PWR_RAIL_STAT_MV mv).put a .PWR_RAIL_DIP_MIN (Nat.min (s.get a .PWR_RAIL_DIP_MIN) mv)

/-- The die whose configuration memory or core a dip of this rail alone may have disturbed: VCORE_E1 and VCORE_F0 to VCORE_F5 (R253). -/
def railDie (rail : Nat) : Option Die := if 2 ≤ rail ∧ rail ≤ 8 then some (Die.ofIdx (rail - 1)) else none

/-- Whether a rail is on the high-voltage side. -/
def railHigh (rail : Nat) : Bool := rail == 0 || decide (17 ≤ rail ∧ rail ≤ 20)

/-- A supply dip asks for priority laps: on the die of the rail, and on every die that is UP for another logic-side rail (R253, R254). -/
def State.dipLaps (s : State) (rail : Nat) : State :=
  if railHigh rail then s
  else match railDie rail with
    | some d => s.priorityRequest d 1
    | none => Die.all.foldl (fun s d => if s.up d then s.priorityRequest d 1 else s) s

/-- A rail returns above its warning threshold, having dipped to `min` mV for `us` µs; shorter than 1 µs it only lowers MIN. -/
def execRailWarningDip (rail : Fin 29) (min mv : BitVec 12) (us : BitVec 32) (s : State) : Res :=
  let a := atSel .e0 rail
  let s := (s.railSample rail min.toNat).railSample rail mv.toNat
  .next (if us = 0 ∨ s.flag a .PWR_RAIL_STAT_GOOD = false then s
  else
    let s := (s.bump a .PWR_RAIL_DIP_DIPS 1).put a .PWR_RAIL_STAT_WARN 0
    (s.raise .e0 Ev.PWR_DIP (rail + min.toNat * 2 ^ 8 + us.toNat * 2 ^ 24)).dipLaps rail)

/-- A read of PWR_RAIL_DIP returns MIN and DIPS; unless it is quiet, DIPS clears and MIN takes the present voltage. -/
def State.dipRead (s : State) (rail : Nat) (quiet : Bool) (mv : Nat) : State :=
  let a := atSel .e0 rail
  let s := s.setAnswer (s.reg a .PWR_RAIL_DIP)
  if quiet then s else s.puts a [(.PWR_RAIL_DIP_DIPS, 0), (.PWR_RAIL_DIP_MIN, mv)]

/-- PWR_RAIL_DIP is read for a rail whose present voltage is `mv`. -/
def execRailDipRead (rail : Fin 29) (quiet : Bool) (mv : BitVec 12) (s : State) : Res :=
  .next ((s.put (atSel .e0 rail) .PWR_RAIL_STAT_MV mv.toNat).dipRead rail quiet mv.toNat)

/-! ### Temperature (R189, R517) -/

/-- A reading in 0.25 °C. -/
def State.tempOf (s : State) (d : Die) (n : Nat) : Int := signedOf 16 (s.get (atSel d n) .PWR_TEMP_READING)

/-- The sensor of a die with the highest reading. -/
def State.hottest (s : State) (d : Die) : Nat :=
  (List.range (if d.isFab then 8 else 4)).foldl (fun m n => if s.tempOf d m < s.tempOf d n then n else m) 0

/-- A threshold in 0.25 °C raises its event once, and again after a fall of 3 °C. -/
def State.tempEvent (s : State) (d : Die) (key : Nat) (limit : Int) (ev : Nat) : State :=
  let n := s.hottest d
  let t := s.tempOf d n
  if s.clk.hot.contains key then (if t ≤ limit - 12 then s.setClk { s.clk with hot := removeNat key s.clk.hot } else s)
  else if limit ≤ t then
    (s.setClk { s.clk with hot := insertNat key s.clk.hot }).raise d ev (n + patternOf 16 t * 2 ^ 8)
  else s

/-- A sensor is read. -/
def execTemperatureSample (die : Die) (sensor : Fin 8) (reading : BitVec 16) (s : State) : Res :=
  .next (if !die.isFab && decide (4 ≤ sensor.val) then s
  else
    let s := s.put (atSel die sensor) .PWR_TEMP_READING reading.toNat
    let s := s.put (atSel die 0) .PWR_TEMP_HIGHEST (patternOf 16 (s.tempOf die (s.hottest die)))
    let s := s.tempEvent die (die.idx * 2) (4 * signedOf 8 (s.get (atDie die) .PWR_TEMP_CFG_HOT)) Ev.PWR_HOT
    s.tempEvent die (die.idx * 2 + 1) 500 Ev.PWR_TJ_MAX)

/-- A threshold of an edge in 0.25 °C with its hysteresis. -/
def State.edgeLimit (s : State) (edge diff up down : Nat) (f : Fld) (ev : Nat) : State :=
  let a := atSel .e0 edge
  if s.flag a f then (if diff ≤ down then s.put a f 0 else s)
  else if up ≤ diff then (s.put a f 1).raise .e0 ev (edge + Nat.min 255 (diff / 4) * 2 ^ 8)
  else s

/-- E0 computes the temperature difference of an edge; where a die is not UP there is none. -/
def State.edgeTemp (s : State) (edge : Nat) : State :=
  let (a, b) := edgeDies edge
  if s.up a && s.up b then
    let diff := (s.dieTemp a - s.dieTemp b).natAbs
    let s := s.put (atSel .e0 edge) .WLD_EDGE_STAT_DT (Nat.min 255 (diff / 4))
    (s.edgeLimit edge diff 100 88 .WLD_EDGE_STAT_WARN Ev.WLD_TEMP_WARN).edgeLimit edge diff 120 108 .WLD_EDGE_STAT_LIMIT Ev.WLD_TEMP_LIMIT
  else s.put (atSel .e0 edge) .WLD_EDGE_STAT_DT 0

/-- The check of every edge. -/
def execEdgeTemperatureCheck (s : State) : Res := .next ((List.range 11).foldl (fun s e => s.edgeTemp e) s)

end Sys2Proof.Machine
end

