-- ==== Sys2Proof/Machine/FieldBook.lean ====
section
/-! DEFINITION. The field book and the calibration sets (chapter 19, rows 353 to 363). -/

namespace Sys2Proof.Machine

/-- The 28 bytes of a record before its CRC (R536). -/
def BookRec.body (r : BookRec) : List Nat :=
  bytesLE r.seq 4 ++ bytesLE r.opsec 4 ++ bytesLE r.pcycle 3 ++
    [natOf r.update + 2 * natOf r.sat + 4 * natOf r.early] ++
    bytesLE (r.event % 2 ^ 12 + r.kind * 2 ^ 12) 2 ++ bytesLE r.rep 2 ++ bytesLE r.lastSeen 4 ++ bytesLE r.data 8

/-- The 32 bytes of a record (R536). -/
def BookRec.bytes (r : BookRec) : List Nat := r.body ++ bytesLE (crc32c r.body) 4

/-- Put a record and deliver its REC_LOST, if an entry that had not reached the flash was overwritten (R542). -/
def State.bookAdd (s : State) (kind event data : Nat) : State :=
  let (b, lost) := s.book.record kind event data false
  let s := s.setBook b
  match lost with
  | none => s
  | some q => (s.bump (atDie .e0) .REC_STAT_LOST 1).raise .e0 Ev.REC_LOST q

/-- The sector that must be erased before the next slot is written (R540). -/
def Book.eraseDue (b : Book) : Option Nat :=
  let k := b.nextSlot / 2048
  if b.nextSlot % 2048 = 1792 ∧ b.ahead ≠ some b.nextSlot then some ((k + 1) % 64)
  else if b.erased.contains k || b.resume = some k then none else some k

/-- Whether the field book may use the flash now (R539 to R541). -/
def State.bookWrites (s : State) : Bool :=
  s.flag (atDie .e0) .REC_STAT_MOUNTED && !s.flag (atDie .e0) .REC_STAT_NOFLASH &&
    !s.flag (atDie .e0) .REC_STAT_FL_STOP && !s.flashLoad && !s.repairWaits

/-- A second of operation (R537); at each multiple of 60 a newest record that has changed since its last slot is queued for
an update copy (R539). -/
def execOpsecSecond (s : State) : Res :=
  let now := (s.book.opsec + 1) % 2 ^ 32
  let b := { s.book with opsec := now }
  .next (s.setBook (match b.ring with
    | r :: t => if now % 60 = 0 ∧ r.dirty = true then
        { b with ring := { r with dirty := false } :: t, queue := b.queue ++ [(r.seq, true)] }
      else b
    | [] => b))

/-- Note a failed flash operation: REC_FLASH_ERR, and after eight failures in a row the book stops writing (R539). -/
def State.flashFailed (s : State) (slot what : Nat) : State :=
  let s := s.setBook { s.book with fails := s.book.fails + 1 }
  let s := s.put (atDie .e0) .REC_STAT_FL_ERR 1
  let s := if 8 ≤ s.book.fails then s.put (atDie .e0) .REC_STAT_FL_STOP 1 else s
  s.raise .e0 Ev.REC_FLASH_ERR (slot + what * 2 ^ 32)

/-- Mark the record with a SEQ as written to the flash. -/
def Book.markSaved (b : Book) (seq : Nat) : Book :=
  { b with ring := b.ring.map (fun r => if r.seq = seq then { r with saved := true, dirty := false } else r) }

/-- With the flash path free, the oldest waiting record is programmed to the next slot and read back (R539). A slot that
does not read back is skipped; the record goes into the next one. `result` is what the flash does: 0 the slot reads back,
1 the program fails, 2 it does not read back. -/
def execFieldBookProgram (result : Fin 3) (s : State) : Res :=
  .next (if s.bookWrites ∧ s.book.eraseDue = none then
    match s.book.queue with
    | [] => s
    | (seq, upd) :: rest =>
      let slot := s.book.nextSlot
      let b := { s.book with nextSlot := (slot + 1) % 131072 }
      if result = 0 then
        let s := s.setBook (({ b with queue := rest, fails := 0 }).markSaved seq)
        match s.book.ring.find? fun r => r.seq == seq with
        | some r => s.emit (.flashSlot slot (BookRec.bytes { r with update := upd }))
        | none => s
      else (s.setBook b).flashFailed slot (if result = 1 then 0 else 2)
  else s)

/-- The sector that is due is erased (R540). -/
def execFieldBookErase (works : Bool) (s : State) : Res :=
  .next (if s.bookWrites then
    match s.book.eraseDue with
    | none => s
    | some k =>
      if works then
        s.setBook { s.book with
          erased := insertNat k s.book.erased
          ahead := if s.book.nextSlot % 2048 = 1792 then some s.book.nextSlot else s.book.ahead }
      else s.flashFailed (k * 2048) 1
  else s)

/-- Records made before the mount take their final SEQ, OPSEC and PCYCLE, with EARLY set (R541). Oldest first. -/
def rebase (seq base pcycle : Nat) : List BookRec → List BookRec
  | [] => []
  | r :: t => { r with
      seq := seq, opsec := (r.opsec + base) % 2 ^ 32, lastSeen := (r.lastSeen + base) % 2 ^ 32,
      pcycle := pcycle, early := true } :: rebase (nextSeqOf seq) base pcycle t

/-- The SEQ after `n` records. -/
def seqAfter (seq : Nat) : Nat → Nat
  | 0 => seq
  | n + 1 => seqAfter (nextSeqOf seq) n

/-- The field book mounts (R541). After a reset that began with VAUX rising it searches the flash: `found` is the newest
valid record there, as its slot, SEQ, the larger of OPSEC and LAST_SEEN, and PCYCLE. -/
def execFieldBookMount (responds : Bool) (found : Option (BitVec 17 × BitVec 32 × BitVec 32 × BitVec 24)) (s : State) : Res :=
  .next (if s.flag (atDie .e0) .REC_STAT_MOUNTED || s.flashLoad then s
  else
    let s := (s.put (atDie .e0) .REC_STAT_MOUNTED 1).put (atDie .e0) .REC_STAT_NOFLASH (natOf (!responds))
    if s.flag (atDie .e0) .DIE_RST_CAUSE_PWRUP then
      let (seq, base, pc, slot, resume) :=
        match if responds then found else none with
        | none => (0, 0, 1, 0, none)
        | some (sl, q, o, p) =>
          (nextSeqOf q.toNat, o.toNat, (p.toNat + 1) % 2 ^ 24, (sl.toNat + 1) % 131072, some ((sl.toNat + 1) % 131072 / 2048))
      let old := rebase seq base pc s.book.ring.reverse
      s.setBook { s.book with
        ring := old.reverse
        queue := old.map (fun r => (r.seq, false))
        nextSeq := seqAfter seq old.length
        opsec := (s.book.opsec + base) % 2 ^ 32
        pcycle := pc
        nextSlot := slot
        erased := []
        resume := resume
        ahead := none }
    else s)

/-- REC_NOTE_GO with GO = 1 adds a note of REC_NOTE_LO and REC_NOTE_HI (R543). -/
def execRecNote (code : BitVec 12) (s : State) : Res :=
  let s := s.put (atDie .e0) .REC_NOTE_GO_CODE code.toNat
  .next (s.bookAdd 2 code.toNat (s.get (atDie .e0) .REC_NOTE_LO_DATA + s.get (atDie .e0) .REC_NOTE_HI_DATA * 2 ^ 32))

/-- The eight words of a ring slot (R544). A slot that no record has filled reads 0 (DESIGN CHOICE, log entry 9). -/
def State.ringSlot (s : State) (slot : Nat) : List Nat :=
  match s.book.ring.find? fun r => r.seq % 4096 == slot with
  | none => List.replicate 8 0
  | some r => (List.range 8).map fun w => fieldLE r.bytes (4 * w) 4

/-- A read of the ring window: word 0 loads the shared latch, words 1 to 7 come from it; a quiet read returns the ring's
word and leaves the latch (R544, R14). -/
def State.ringRead (s : State) (slot word : Nat) (quiet : Bool) : State :=
  if quiet then s.setAnswer (BitVec.ofNat 32 ((s.ringSlot slot).getD word 0))
  else if word = 0 then
    (s.setBook { s.book with latch := s.ringSlot slot }).setAnswer (BitVec.ofNat 32 ((s.ringSlot slot).getD 0 0))
  else s.setAnswer (BitVec.ofNat 32 (s.book.latch.getD word 0))

/-- A read of the ring window. -/
def execRecRingRead (slot : Fin 4096) (word : Fin 8) (quiet : Bool) (s : State) : Res := .next (s.ringRead slot word quiet)

/-- REC_FL_SLOT.GO starts the read of a flash slot (R544). -/
def execFlashSlotRead (slot : BitVec 17) (s : State) : Res :=
  .next ((s.put (atDie .e0) .REC_FL_SLOT_SLOT slot.toNat).put (atDie .e0) .REC_FL_SLOT_BUSY 1)

/-- The slot's 32 bytes are in REC_FL_DATA0 to DATA7 and BUSY clears. -/
def execFlashSlotReadDone (bytes : BitVec 256) (s : State) : Res :=
  .next (if s.flag (atDie .e0) .REC_FL_SLOT_BUSY && !s.flashLoad then
    ((List.range 8).foldl (fun t w => t.put (atElem .e0 w) .REC_FL_DATA_WORD (bytes.toNat / 2 ^ (32 * w))) s).put
      (atDie .e0) .REC_FL_SLOT_BUSY 0
  else s)

/-- The fate of a calibration command (R546). -/
def State.calCommand (s : State) (key op : Nat) : State :=
  if s.flag (atDie .e0) .MGT_STAT_CAL_BUSY ∨ s.flashLoad = true ∨ key ≠ 0x4E ∨ 8188 < s.get (atDie .e0) .MGT_CAL_LEN_PAIRS then
    s.put (atDie .e0) .MGT_STAT_CMD_IGNORED 1
  else (s.put (atDie .e0) .MGT_STAT_CAL_BUSY 1).setCal { s.cal with op := op }

/-- MGT_CMD.OP = SAVE_USER. -/
def execSaveUser (key : BitVec 8) (s : State) : Res := .next (s.calCommand key.toNat 1)

/-- MGT_CMD.OP = RETURN_TO_BENCHMARK. -/
def execReturnToBenchmark (key : BitVec 8) (s : State) : Res := .next (s.calCommand key.toNat 2)

/-- A copy of the calibration partition (R545): its header, of which the unnamed bits are open, then its pairs. -/
def calBytes (gen bench filler : Nat) (pairs : List (BitVec 64)) : List Nat :=
  let fill := bytesLE filler 32
  let head := bytesLE 0x4C414341 4 ++ bytesLE gen 4 ++ [bench + fill.getD 8 0 / 2 * 2] ++ (fill.drop 9).take 3 ++ bytesLE pairs.length 2 ++
    (fill.drop 14).take 14
  let body := pairs.flatMap fun p => bytesLE p.toNat 8
  head ++ bytesLE (crc32c (head ++ [0, 0, 0, 0] ++ body)) 4 ++ body

/-- A calibration command completes (R546): a copy that reads back becomes the newest; otherwise the one before stays. The
field book notes each completed command with code 0xFC0 + OP. `pairs` are the pairs that SAVE_USER has read from MGT_CAL_ADDR. The data of the
note and the unnamed bits of the header are open (DESIGN CHOICE, log entry 217). -/
def execMgtCalDone (works : Bool) (pairs : List (BitVec 64)) (s : State) : Res :=
  .next (if s.flag (atDie .e0) .MGT_STAT_CAL_BUSY then
    let op := s.cal.op
    let gen := (s.cal.gen + 1) % 2 ^ 32
    let s := s.puts (atDie .e0) [(.MGT_STAT_CAL_BUSY, 0), (.MGT_STAT_RESULT, if works then 1 else 2)]
    let s :=
      if works then
        let pairs := if op = 1 then pairs.take (s.get (atDie .e0) .MGT_CAL_LEN_PAIRS) else []
        let s := (s.used).emit (.calCopy ((s.cal.sector + 1) % 256) (calBytes gen (natOf (op == 2)) (s.free 256) pairs))
        (s.setCal ⟨(s.cal.sector + 1) % 256, gen, op == 2, 0⟩).put (atDie .e0) .MGT_CAL_STAT_NEXT (if op = 1 then 1 else 0)
      else s.setCal { s.cal with op := 0 }
    ((s.used).bookAdd 2 (0xFC0 + op) (s.free 64)).raise .e0 Ev.MGT_CAL_DONE (op + (if works then 1 else 2) * 2 ^ 8 + gen * 2 ^ 16)
  else s)

end Sys2Proof.Machine
end

