-- ==== Sys2Proof/Machine/Units.lean ====
section
/-! DEFINITION. Unit slots, arming, and the armed change up to its commit (chapter 02, R55 to R67; R508, R509). -/

namespace Sys2Proof.Machine

/-! ### What a unit checks -/

/-- The package unit number (R60). -/
def unitNo (d : Die) (slot : Nat) : Nat := d.idx * 16 + slot

/-- Whether a slot's ARM bit is set. -/
def State.armBit (s : State) (d : Die) (slot : Nat) : Bool := s.bit (atDie d) .STK_UNIT_CTRL_ARM slot

/-- The voltage of the pending level. -/
def State.pendingMv (s : State) (d : Die) : Nat := levelMv (s.get (atDie d) .PWR_PL_NEXT_LEVEL)

/-- The distance of two voltages. -/
def apart (a b : Nat) : Nat := a - b + (b - a)

/-- The first neighbour that the pending level breaks R509 with. -/
def State.neighbourBad (s : State) (d : Die) : Option Die :=
  let new := s.pendingMv d
  Die.all.find? fun n =>
    n.isFab && (edgeOf d n).isSome && s.up n &&
      (decide (100 < apart new (s.vreq n)) || (s.armBit n 0 && decide (100 < apart new (s.pendingMv n))))

/-- Whether slot 0 of a die is ready (R508). -/
def State.levelReady (s : State) (d : Die) : Bool :=
  if d.isFab then
    let new := s.pendingMv d
    s.armBit d 0 && (s.neighbourBad d).isNone &&
      (decide (new ≤ levelMv (s.get (atDie d) .PWR_PL_STAT_LEVEL)) ||
        (decide (new ≤ s.vreq d) && !s.flag (atDie d) .PWR_PL_STAT_SEQ && !s.flag (atDie d) .PWR_PL_STAT_AVS_ERR))
  else true

/-- Whether a period and a heat length divide a second (R55). -/
def dividesSecond (period heat : Nat) : Bool := decide (0 < period * heat) && 1000000000 % (2 * period * heat) == 0

/-- Whether the pending stroke timing meets R49 and R58. -/
def State.timingFits (s : State) : Bool :=
  let e := atDie .e0
  let p := s.get e .STK_TIMING_NEXT_PERIOD
  let h := s.get e .STK_TIMING_NEXT_HEAT
  decide (250 ≤ p ∧ p ≤ 8000 ∧ 1 ≤ h) && (!s.flag e .STK_CTRL_PTP_LOCK || dividesSecond p h)

/-- Whether a slot can apply its pending setting at a heat boundary (R61): what STK_UNIT_STAT.RDY reads. -/
def State.slotReady (s : State) (d : Die) (slot : Nat) : Bool :=
  if slot = 0 then s.levelReady d
  else if slot = 1 then d == .e0 && s.timingFits && s.xFits (s.get (atDie .e0) .STK_TIMING_NEXT_PERIOD)
  else if slot < 14 then d.isPort && s.quadReady d (slot - 2)
  else if slot = 14 then d.isPort && (s.schedReady d).2
  else d.isFab && s.flag (atDie d) .PRC_LOAD_STAT_HELD

/-- Whether a unit is armed (R61). -/
def State.armed (s : State) (d : Die) (slot : Nat) : Bool := s.up d && s.armBit d slot && s.slotReady d slot

/-! ### The level sequencer (R508, R509) -/

/-- The sequencer of an armed die checks R509, and raises the voltage where the pending level needs it. -/
def State.levelSync (s : State) (d : Die) : State :=
  if d.isFab && s.up d && s.armBit d 0 then
    match s.neighbourBad d with
    | some n =>
      let s := s.put (atDie d) .PWR_PL_STAT_NEIGHBOUR 1
      if s.units.limited.contains d.idx then s
      else
        (s.setUnits { s.units with limited := insertNat d.idx s.units.limited }).raise d Ev.PWR_NEIGHBOUR_LIMIT
          (s.get (atDie d) .PWR_PL_NEXT_LEVEL + n.idx * 2 ^ 8)
    | none => if s.vreq d < s.pendingMv d then s.avsWrite d (s.pendingMv d) else s
  else s

/-- Every sequencer looks again. -/
def State.levelsSync (s : State) : State := Die.all.foldl (fun s d => s.levelSync d) s

/-- The regulator of a die goes back to the voltage of the level in force. -/
def State.levelBack (s : State) (d : Die) : State :=
  let mv := levelMv (s.get (atDie d) .PWR_PL_STAT_LEVEL)
  if d.isFab && decide (s.vreq d ≠ mv) then s.avsWrite d mv else s

/-- The nominal voltage of a fabric die's rail follows its level (R512). -/
def State.nomSync (s : State) (d : Die) : State :=
  if d.isFab then s.put (atSel .e0 (d.idx + 1)) .PWR_RAIL_STAT_NOM (levelMv (s.get (atDie d) .PWR_PL_STAT_LEVEL)) else s

/-! ### Arming -/

/-- A slot has been armed: it checks its pending setting, and reports a refusal in its own block (R61). A stroke timing may be refused
for both of its causes at once. -/
def State.slotArmed (s : State) (d : Die) (slot : Nat) : State :=
  if slot = 0 then (s.setUnits { s.units with limited := removeNat d.idx s.units.limited }).levelsSync
  else if slot = 1 then
    if d = .e0 then
      let s := if s.timingFits then s else s.put (atDie .e0) .STK_STATUS_NEXT_REFUSED 1
      if s.xFits (s.get (atDie .e0) .STK_TIMING_NEXT_PERIOD) then s else s.put (atDie .e0) .NOC_XRES_STAT_PERIOD_REFUSED 1
    else s
  else if slot < 14 then
    if d.isPort && !s.quadReady d (slot - 2) then s.put (atUnit d (slot - 2)) .LAN_QUAD_STAT_NEXT_REFUSED 1 else s
  else if slot = 14 then if d.isPort then (s.schedReady d).1 else s
  else s

/-- ARM of a slot clears without a commit: a voltage raised for it goes back (R508). -/
def State.disarm (s : State) (d : Die) (slot : Nat) : State :=
  if s.armBit d slot then
    let s := s.clrBit (atDie d) .STK_UNIT_CTRL_ARM slot
    if slot = 0 then (s.levelBack d).levelsSync else s
  else s

/-- A write of STK_UNIT_CTRL. A slot whose ARM bit already stands is not armed anew by a further written 1: it reports no refusal again
(DESIGN CHOICE, log entry 180). -/
def State.unitArm (s : State) (d : Die) (v : Nat) : State :=
  if s.up d then
    let old := s.get (atDie d) .STK_UNIT_CTRL_ARM
    let s := (List.range 16).foldl (fun s n => if bitOf v n then s else s.disarm d n) s
    let s := s.put (atDie d) .STK_UNIT_CTRL_ARM v
    (List.range 16).foldl (fun s n => if bitOf v n && !bitOf old n then s.slotArmed d n else s) s
  else s

/-- STK_UNIT_CTRL.ARM is written. -/
def execUnitArm (die : Die) (arm : BitVec 16) (s : State) : Res := .next (s.unitArm die arm.toNat)

/-- A write of a register of the pending setting of a slot (R62). -/
def State.pendWrite (s : State) (d : Die) (slot : Nat) (a : At) (r : Reg) (v : Word) : State :=
  if s.up d then (s.writeReg a r v).disarm d slot else s

/-- A pending setting is written. -/
def execPendingSettingWrite (place : PendAt) (value : Word) (s : State) : Res :=
  .next (match place with
  | .level d => s.pendWrite d 0 (atDie d) .PWR_PL_NEXT value
  | .timing => s.pendWrite .e0 1 (atDie .e0) .STK_TIMING_NEXT value
  | .quad d q => s.pendWrite d.die (q + 2) (atUnit d.die q) .LAN_QUAD_RATE_NEXT value
  | .weight d q => s.pendWrite d.die 14 (atSel d.die q.toNat) .PKT_Q_SCHED_NEXT value
  | .group d p k => s.pendWrite d.die 14 ⟨d.die, 0, k, p⟩ .PKT_GRP_NEXT value)

/-! ### The lock to network time (R55) -/

/-- A write of STK_CTRL.PTP_LOCK; a written 0 ends the lock. A request that is refused while the generator already slews or is locked
sets LOCK_REFUSED and leaves that lock as it is (DESIGN CHOICE, log entry 181). -/
def State.ptpLock (s : State) (on : Bool) : State :=
  let e := atDie .e0
  let s := s.put e .STK_CTRL_PTP_LOCK (natOf on)
  if on then
    if dividesSecond (s.get e .STK_TIMING_PERIOD) (s.get e .STK_TIMING_HEAT) && s.flag e .PKT_TOD_CTRL_RUN &&
        !s.flag e .STK_STATUS_UNTIMED then
      s.setUnits { s.units with slews := true }
    else s.put e .STK_STATUS_LOCK_REFUSED 1
  else (s.setUnits { s.units with slews := false, slip := 0 }).put e .STK_STATUS_LOCKED 0

/-- STK_CTRL.PTP_LOCK is written. -/
def execPtpLockRequest (lock : Bool) (s : State) : Res := .next (s.ptpLock lock)

/-! ### The change (R63 to R67) -/

/-- Whether a change names a unit. -/
def State.requested (s : State) (u : Nat) : Bool := s.bit (atElem .e0 (u / 32)) .STK_CHG_REQ_UNITS (u % 32)

/-- The package units that a change names. -/
def State.requests (s : State) : List Nat := (List.range 128).filter fun u => s.requested u

/-- STK_CHG_STATUS.STATE: 0 IDLE, 1 WAITING, 2 APPLYING. -/
def State.chgSt (s : State) : Nat := s.get (atDie .e0) .STK_CHG_STATUS_STATE

/-- GO is written. STK_CHG_STATUS.RESULT keeps the result of the last change until this one ends (DESIGN CHOICE, log entry 222). -/
def State.changeGo (s : State) : State :=
  if s.chgSt = 0 then s.puts (atDie .e0) [(.STK_CHG_STATUS_STATE, 1), (.STK_CHG_STATUS_RETRIES, 0)]
  else s.put (atDie .e0) .STK_CHG_STATUS_GO_IGNORED 1

/-- STK_CHG_CTRL.GO is written. -/
def execChangeGo (s : State) : Res := .next s.changeGo

/-- The change ends without a commit: 3 EXPIRED, 4 ABORTED. -/
def State.changeOff (s : State) (result : Nat) : State :=
  let s := s.requests.foldl (fun s u => s.disarm (Die.ofIdx (u / 16)) (u % 16)) s
  s.puts (atDie .e0) [(.STK_CHG_STATUS_STATE, 0), (.STK_CHG_STATUS_RESULT, result)]

/-- CANCEL is written (R65). -/
def State.changeCancel (s : State) : State :=
  if s.chgSt = 1 then s.changeOff 4
  else if s.chgSt = 2 then s.setUnits { s.units with late := true }
  else s

/-- STK_CHG_CTRL.CANCEL is written. -/
def execChangeCancel (s : State) : Res := .next s.changeCancel

/-- A write of STK_CHG_CTRL: GO acts first and CANCEL after it, so that one write of both opens a change and ends it (DESIGN CHOICE, log
entry 223). -/
def State.changeCtrl (s : State) (v : Word) : State :=
  let s := s.writeReg (atDie .e0) .STK_CHG_CTRL v
  let s := if v.getLsbD 0 then s.changeGo else s
  if v.getLsbD 1 then s.changeCancel else s

/-! ### What the units do -/

/-- The PLLs that a level change retunes: the core PLL and every FOLLOW fabric PLL. -/
def State.retune (s : State) (d : Die) : State :=
  (List.range 4).foldl (fun s n => if s.flag (atElem d n) .CLK_FPLL_STAT_FOLLOW then s.setPll d n false else s) (s.setPll d 4 false)

/-- A level and a power state come into force: PLLs retune where the level changes, domains gate and ungate (R508, R511). -/
def State.levelPut (s : State) (d : Die) (level st : Nat) : State :=
  let changes := d.isFab && s.get (atDie d) .PWR_PL_STAT_LEVEL != level
  let s := if d.isFab then (s.put (atDie d) .PWR_PL_STAT_LEVEL level).nomSync d else s
  let s := s.put (atDie d) .PWR_PL_STAT_STATE st
  let s := (if changes then s.retune d else s).gatesSync d
  s.raise d Ev.PWR_STATE (s.get (atDie d) .PWR_PL_STAT_LEVEL + st * 2 ^ 8)

/-- Slot 0 applies its pending level and power state. -/
def State.levelApply (s : State) (d : Die) : State :=
  let a := atDie d
  let s := s.setUnits { s.units with
    undo := Tbl.set s.units.undo (unitNo d 0) (s.get a .PWR_PL_STAT_LEVEL + 4 * s.get a .PWR_PL_STAT_STATE) }
  s.levelPut d (s.get a .PWR_PL_NEXT_LEVEL) (s.get a .PWR_PL_NEXT_STATE % 3)

/-- Slot 0 has succeeded: every PLL has locked; a voltage above that of the new level is lowered. -/
def State.levelDone (s : State) (d : Die) : State :=
  if d.isFab then
    let s := (List.range 5).foldl (fun s n => if s.pllMay d n then s.setPll d n true else s) s
    if levelMv (s.get (atDie d) .PWR_PL_STAT_LEVEL) < s.vreq d then s.levelBack d else s
  else s

/-- Slot 1 applies: the timing stands on every die (R50, R68). -/
def State.timingPut (s : State) (v : Word) : State := Die.all.foldl (fun s d => s.setReg (atDie d) .STK_TIMING v) s

/-- Slot 1 applies its pending timing. -/
def State.timingApply (s : State) : State :=
  (s.setUnits { s.units with undo := Tbl.set s.units.undo 1 (s.reg (atDie .e0) .STK_TIMING).toNat }).timingPut
    (s.reg (atDie .e0) .STK_TIMING_NEXT)

/-- The lanes of a quad in a list of lane keys. -/
def quadLanes (d : Die) (q : Nat) (l : List Nat) : Nat :=
  (List.range 4).foldl (fun n i => if l.contains (d.idx * 48 + 4 * q + i) then n + 2 ^ i else n) 0

/-- Take a quad out of a list of lane keys. -/
def dropQuad (d : Die) (q : Nat) (l : List Nat) : List Nat := l.filter fun k => k / 4 != d.idx * 12 + q

/-- A quad applies its pending rates: its own lanes' PLLs relock. -/
def State.quadCommit (s : State) (d : Die) (q : Nat) : State :=
  let own := (List.range 4).filter fun i => s.laneOwn d (4 * q + i)
  let keys := own.map fun i => d.idx * 48 + 4 * q + i
  (s.quadApply d q).setUnits { s.units with plls := keys.foldl (fun l k => insertNat k l) s.units.plls }

/-- A unit has reported success. -/
def State.unitDone (s : State) (u : Nat) : State :=
  if s.units.awaits.contains u then
    let d := Die.ofIdx (u / 16)
    let s := s.setUnits { s.units with awaits := removeNat u s.units.awaits, undo := Tbl.erase s.units.undo u }
    let s := s.setBit (atDie d) .STK_UNIT_STAT_APPLIED (u % 16)
    if u % 16 = 0 then s.levelDone d
    else if 2 ≤ u % 16 ∧ u % 16 < 14 then
      (s.setUnits { s.units with plls := dropQuad d (u % 16 - 2) s.units.plls }).quadLocked d (u % 16 - 2)
    else s
  else s

/-- A unit fails, and reverts to its previous setting (R63, R355, R508). -/
def State.unitFails (s : State) (u : Nat) : State :=
  if s.units.awaits.contains u then
    let d := Die.ofIdx (u / 16)
    let old := Tbl.get 0 s.units.undo u
    let s := s.setUnits { s.units with
      awaits := removeNat u s.units.awaits, failed := insertNat u s.units.failed, undo := Tbl.erase s.units.undo u }
    if u % 16 = 0 then (s.levelPut d (old % 4) (old / 4)).levelBack d
    else if u = 1 then s.timingPut (BitVec.ofNat 32 old)
    else if 2 ≤ u % 16 ∧ u % 16 < 14 then
      let q := u % 16 - 2
      let lanes := quadLanes d q s.units.plls
      (s.setUnits { s.units with plls := dropQuad d q s.units.plls }).quadRevert d q lanes
    else s
  else s

/-- A unit reports. Slot 15 reports by itself, at the end of stage 3 of its release (R228). -/
def execUnitApplyReport (die : Die) (slot : Fin 16) (ok : Bool) (s : State) : Res :=
  .next (if slot = 15 then s
  else if ok then s.unitDone (unitNo die slot)
  else s.unitFails (unitNo die slot))

/-- Lane PLLs of a quad lock after a rate change; the unit reports success once every one has (R355). -/
def execLanePllLock (die : PDie) (quad : Fin 12) (lanes : BitVec 4) (s : State) : Res :=
  let d := die.die
  let s := s.setUnits { s.units with
    plls := s.units.plls.filter fun k => !(k / 4 == d.idx * 12 + quad.val && lanes.getLsbD (k % 4)) }
  .next (if quadLanes d quad s.units.plls = 0 then s.unitDone (unitNo d (quad + 2)) else s)

end Sys2Proof.Machine
end

