-- ==== Sys2Proof/Machine/Image.lean ====
section
/-! DEFINITION. The format of an image and the checks of its header (chapter 07, R192 to R199, R205). -/

namespace Sys2Proof.Machine

/-! ### The header (R193) -/

/-- KIND = partial. -/
def hdrPartial (h : List Nat) : Bool := fieldLE h 0x09 1 == 1

/-- TDIE. -/
def hdrTdie (h : List Nat) : Nat := fieldLE h 0x0A 1

/-- TPARCELS. -/
def hdrParcels (h : List Nat) : Nat := fieldLE h 0x0E 2

/-- The target parcels, ascending. -/
def hdrTargets (h : List Nat) : List Nat := (List.range 16).filter fun p => bitOf (hdrParcels h) p

/-- FRAME_COUNT of a die. -/
def hdrCount (h : List Nat) (d : Nat) : Nat := fieldLE h (0x18 + 4 * d) 4

/-- TOTAL_FRAMES. -/
def hdrTotal (h : List Nat) : Nat := fieldLE h 0x38 4

/-- XRES_COUNT. -/
def hdrXres (h : List Nat) : Nat := fieldLE h 0x3C 2

/-- GAP0 to GAP2; 0 means 64. -/
def hdrGap (h : List Nat) (k : Nat) : Nat := if fieldLE h (0x3E + 2 * k) 2 = 0 then 64 else fieldLE h (0x3E + 2 * k) 2

/-- IMAGE_ID. -/
def hdrId (h : List Nat) : Nat := fieldLE h 0x44 4

/-- A flash setup record, 8 bytes (R203). -/
def hdrSetup (h : List Nat) (k : Nat) : List Nat := (h.drop (0x48 + 8 * k)).take 8

/-- DIGEST. -/
def hdrDigest (h : List Nat) : List Nat := (h.drop 0xD8).take 32

/-- The bytes of the reservation entry table with its padding (R192). -/
def tableBytes (h : List Nat) : Nat := 16 * ((hdrXres h + 1) / 2)

/-- The bytes of an image (R192). -/
def imageBytes (h : List Nat) : Nat := 256 + tableBytes h + 528 * hdrTotal h

/-- Whether bytes are zero. -/
def zeroAt (h : List Nat) (lo n : Nat) : Bool := ((h.drop lo).take n).all fun b => b == 0

/-- The frame counts of R198: a full image has every frame of every die; a partial one those of its target parcels. -/
def countsFit (h : List Nat) : Bool :=
  Die.all.all fun d =>
    hdrCount h d.idx ==
      if hdrPartial h then (if hdrTdie h = d.idx then 3328 * (hdrTargets h).length else 0) else dieFrames d

/-- Check 1 of R205: HDR_CRC, MAGIC, FORMAT, the reserved bytes, KIND, CLAMP_DEF, FREQ, XRES_COUNT, TOTAL_FRAMES, the counts. FREQ is
of a flash image alone (R193). -/
def headerGood (flash : Bool) (h : List Nat) : Bool :=
  h.length == 256 && crc32c (h.take 0xFC) == fieldLE h 0xFC 4 && fieldLE h 0 4 == 0x3038384D && fieldLE h 4 2 == 1 &&
    zeroAt h 0x0B 1 && zeroAt h 0x15 3 && zeroAt h 0x6B 109 && zeroAt h 0xF8 4 && decide (fieldLE h 0x09 1 < 2) &&
    decide (fieldLE h 0x14 1 < 3) && (!flash || decide (fieldLE h 0x6A 1 < 4)) && decide (hdrXres h ≤ 2048) &&
    hdrTotal h == Die.all.foldl (fun n d => n + hdrCount h d.idx) 0 && countsFit h

/-- The first slot for which a test fails. -/
def firstSlot (p : Die → Bool) : Option Nat := (Die.all.find? fun d => !p d).map Die.idx

/-- Check 2 of R205 for a slot: FAMILY, PKG and SLOT_MAP against its DIE_ID. -/
def State.identFits (s : State) (h : List Nat) (d : Die) : Bool :=
  fieldLE h 0x06 2 == s.get (atDie d) .DIE_ID_FAMILY && fieldLE h 0x08 1 == s.get (atDie d) .DIE_ID_PKG &&
    bitsOf (fieldLE h 0x0C 2) (2 * d.idx) 2 == s.get (atDie d) .DIE_ID_KIND

/-- Check 3 of R205 for a slot (R29). -/
def steppingFits (h : List Nat) (d : Die) : Bool := decide (bitsOf (fieldLE h 0x10 4) (4 * d.idx) 4 ≤ stepping d)

/-- The checks of R205 in order, for an image from a source (coded as LAST_SRC): the code that refuses it and the slot. -/
def State.headerCheck (s : State) (source : Nat) (h : List Nat) : Option (Nat × Nat) :=
  let flash := source == 1 || source == 2
  if headerGood flash h = false then some (0x10, 0)
  else match firstSlot (s.identFits h), firstSlot (steppingFits h) with
  | some n, _ => some (0x11, n)
  | none, some n => some (0x12, n)
  | none, none =>
    if hdrPartial h then
      if flash || !s.cfg.running then some (0x13, 0)
      else if (Die.ofIdx (hdrTdie h)).isFab = false ∨ 7 < hdrTdie h ∨ hdrParcels h = 0 then some (0x14, 0)
      else none
    else if source = 5 then some (0x13, 0)
    else none

/-! ### The entry table (R199) -/

/-- One reservation entry. -/
def entryOf (l : List Nat) : XEntry :=
  let v := fieldLE l 0 8
  ⟨bitsOf v 0 12, bitsOf v 12 12, bitsOf v 24 10, bitsOf v 34 10, bitsOf v 44 10⟩

/-- The first `n` entries of a table. -/
def entriesOf : Nat → List Nat → List XEntry
  | 0, _ => []
  | n + 1, l => entryOf l :: entriesOf n (l.drop 8)

/-! ### Frame packets (R195, R196, R198) -/

/-- The die and frame of packet `k` from section `d` on: the counts of the sections are those of a header that R205 accepts. -/
def packetPlace (h : List Nat) : List Die → Nat → Die × Nat
  | [], _ => (.e0, 0)
  | d :: rest, k =>
    if k < hdrCount h d.idx then
      if hdrPartial h then (d, (hdrTargets h).getD (k / 3328) 0 * 3328 + k % 3328) else (d, k)
    else packetPlace h rest (k - hdrCount h d.idx)

/-- A packet from its 528 bytes. -/
def packetOf (l : List Nat) : Packet where
  addr := BitVec.ofNat 32 (fieldLE l 0 4)
  data := BitVec.ofNat 4096 (fieldLE l 4 512)
  synd := BitVec.ofNat 16 (fieldLE l 516 2)
  pad := BitVec.ofNat 48 (fieldLE l 518 6)
  crc := BitVec.ofNat 32 (fieldLE l 524 4)

/-- The 528 bytes of a packet. -/
def packetBytes (p : Packet) : List Nat := packetCovered p ++ bytesLE p.crc.toNat 4

/-! ### The digest (R194, R207) -/

/-- A digest that has hashed nothing. -/
def Sha.start : Sha := ⟨shaInit, [], 0⟩

/-- Hash further bytes. -/
def Sha.feed (x : Sha) (l : List Nat) : Sha :=
  let b := x.buf ++ l
  ⟨shaBlocks (b.length / 64) x.h b, b.drop (b.length / 64 * 64), x.len + l.length⟩

/-- The digest bytes. -/
def Sha.digest (x : Sha) : List Nat :=
  let b := x.buf ++ shaPad x.len
  shaBytes (shaBlocks (b.length / 64) x.h b)

end Sys2Proof.Machine
end

