-- ==== Sys2Proof/Machine/Loads.lean ====
section
/-! DEFINITION. The configuration master: full and partial loads, refusal, preparation and abort (chapters 07 and 08). -/

namespace Sys2Proof.Machine

/-- Change the configuration master. -/
def State.onCfg (s : State) (f : CfgMaster → CfgMaster) : State := s.setCfg (f s.cfg)

/-- The master goes to a phase. -/
def State.phase (s : State) (p : LoadPhase) : State := s.onCfg fun c => { c with phase := p }

/-- CFG_STATUS.STAGE. -/
def State.cfgStage (s : State) (n : Nat) : State := s.put (atDie .e0) .CFG_STATUS_STAGE n

/-- The load ends with a code: BUSY, STAGE. -/
def State.cfgEnd (s : State) (code stage : Nat) : State :=
  s.puts (atDie .e0) [(.CFG_STATUS_BUSY, 0), (.CFG_STATUS_CODE, code), (.CFG_STATUS_STAGE, stage)]

/-- Whether the master cannot yet take stream data (R204, R213, R224): from the end of the header of a full image to the end of its
preparation, and from the header of a partial one to WRITING. -/
def State.streamHeld (s : State) : Bool :=
  decide (3 ≤ s.cfg.source) && s.cfg.header != [] &&
    (match s.cfg.phase with
    | .start | .prepare | .fencing | .draining => true
    | _ => false)

/-- Once the master can take data, or the load is over, the completions it held back go out. -/
def State.owedAnswer (s : State) : State :=
  if s.streamHeld then s
  else (s.cfg.owed.foldl (fun s r => s.respond r 0 0) s).onCfg fun c => { c with owed := [] }

/-- A stream takes no further byte. -/
def State.streamShut (s : State) : State := s.onCfg fun c => { c with streamOpen := false, streamBuf := [], again := false }

/-- The fabric die and parcels of a partial load. -/
def State.loadDie (s : State) : Die := Die.ofIdx (hdrTdie s.cfg.header)

/-- PRC_LOAD_STAT.STATE of the partial load's die. -/
def State.loadSt (s : State) : Nat := s.get (atDie s.loadDie) .PRC_LOAD_STAT_STATE

/-- Put PRC_LOAD_STAT.STATE. -/
def State.setLoadSt (s : State) (n : Nat) : State := s.put (atDie s.loadDie) .PRC_LOAD_STAT_STATE n

/-- The fabric die with an index. -/
def fdieOf (d : Die) : FDie :=
  match d with
  | .f1 => .f1 | .f2 => .f2 | .f3 => .f3 | .f4 => .f4 | .f5 => .f5
  | _ => .f0

/-- Each target parcel of the partial load, with the fabric die. -/
def State.loadTargets (s : State) : List (FDie × Fin 16) :=
  ((List.finRange 16).filter fun p : Fin 16 => bitOf (hdrParcels s.cfg.header) p.val).map fun p => (fdieOf s.loadDie, p)

/-! ### Pins and banks while no personality runs (R211, R512) -/

/-- The nominal voltages of the I/O banks return to their default. -/
def State.banksDefault (s : State) : State :=
  (List.range 11).foldl (fun s i => s.put (atSel .e0 (18 + i)) .PWR_RAIL_STAT_NOM (railNominal (18 + i))) s

/-- The nominal voltages of the I/O banks follow the full image in force. -/
def State.banksImage (s : State) : State :=
  let digest := ofBytesLE (hdrDigest s.cfg.inForce)
  (List.range 11).foldl (fun s i =>
    s.put (atSel .e0 (18 + i)) .PWR_RAIL_STAT_NOM (Config.bankNominal digest (18 + i)).toNat) s

/-- The pins before stage 1 of a release. -/
def State.pinsHeld (s : State) : State :=
  s.setPins { s.pins with cfgDone := false, ppsOut := false, rclk0 := false, rclk1 := false }

/-! ### Every parcel at once -/

/-- Every parcel of every fabric die takes a state; its power steps, holds and releases are forgotten, its fence is CLOSED (R219). -/
def State.parcelsAll (s : State) (st : Nat) : State :=
  let s := ((s.setPrcStep []).setPrcBlank []).setPrcHold []
  everyParcel.foldl (fun s x =>
    ((s.setParcelSt x.1.die x.2 st).setFence (.parcel x.1 x.2) 2).clrBit (atDie x.1.die) .PRC_PG_STAT_GATED x.2) s

/-- GSR asserts on every fabric die; rail flags and keepers clear; fabric ports forget what they hold (R99, R92, R158). -/
def State.gsrAll (s : State) : State :=
  let s := (((s.setRelStage []).setFfs []).setMults []).setBramPorts []
  let s := everyParcel.foldl (fun s x => s.gatesLow x.1.die x.2) s
  (((s.setRailKeep []).setPortTags []).setPortFifo []).freeTags isFport

/-- The domains that a full image load resets (R15). -/
def State.loadDomains (s : State) : State :=
  ((s.resetDomain .cfg fun _ => true).resetDomain .parcel fun _ => true).resetDomain .core fun _ => true

/-- Stages of the dies return to 0, and no full image is in force (R204, R210). -/
def State.noImage (s : State) : State :=
  let s := Die.all.foldl (fun s d => s.puts (atDie d) [(.CFG_DIE_STAT_STAGE, 0), (.CFG_DIE_STAT_LOADED, 0)]) s
  (s.puts (atDie .e0) [(.CFG_PROGRESS_FRAMES, 0), (.CFG_SRC_FULL_SRC, 0)]).onCfg fun c =>
    { c with running := false, inForce := [], frames := 0 }

/-- The Hammer cores of every fabric die enter reset, or leave it where their die's STAGE is 3. -/
def State.coresReset (s : State) : State := Die.all.foldl (fun s d => s.coresStart d) s

/-- Memory and links under a full load (R204): READY channels enter self-refresh, CXL and PCIe links drop, die caches and
directories are empty, packet engines are empty, lanes go to electrical idle. -/
def State.loadQuiet (s : State) : State :=
  let s := (List.range 4).foldl (fun s ch => if s.ddrSt ch = 4 then s.ddrSleep ch else s) s
  let s := (List.range 4).foldl (fun s p => s.cxlLoss p) s.pcieDown
  let s := ((((s.setDcache []).setDcRights []).setDcWait []).setDir []).setNet { s.net with lines := [], sick := [], cells := [] }
  let s := Die.all.foldl (fun s d => if d.isFab then s.put (atDie d) .NOC_DC_STAT_DIRTY 0 else s) (s.setHomeTxn [])
  [Die.e0, .e1].foldl (fun s d => (s.pktEmpty d).lanesIdle d) s

/-- A full load takes over: what R15, R99, R204, R211, R219, R239, R252 and R260 say of its start where no personality runs, and of
the end of its preparation where one does. R454 compares with the MEM_DDR_CFG of the personality that ran last. -/
def State.loadBegin (s : State) : State :=
  let s := s.onCfg fun c => if c.running then { c with ddrs := (List.range 4).map fun ch => s.reg (ddrAt ch) .MEM_DDR_CFG } else c
  let s := s.loadQuiet
  let s := s.loadDomains.noImage
  let s := (s.parcelsAll 1).gsrAll
  let s := Die.all.foldl (fun s d => if s.up d then s.scrubStop d else s.repairDrop d) s.coresReset
  (s.setReleases (s.releases.filter fun r => match r.kind with
    | .die _ => true
    | _ => false)).pinsHeld

/-! ### The end of a load before its release -/

/-- A partial load on its die is over: PRC_LOAD_END, and the scrubber resumes (R225, R234, R243). -/
def State.partialOver (s : State) (result : Nat) : State :=
  let d := s.loadDie
  let s := s.puts (atDie d) [(.PRC_LOAD_STAT_STATE, 0), (.PRC_LOAD_STAT_RESULT, result), (.PRC_LOAD_STAT_HELD, 0)]
  let s := s.raise d Ev.PRC_LOAD_END (result + s.get (atDie d) .PRC_LOAD_STAT_TARGETS * 2 ^ 8 +
    s.get (atDie d) .PRC_LOAD_STAT_ABORT_LATE * 2 ^ 24 + s.get (atDie .e0) .CFG_STATUS_CODE * 2 ^ 32)
  (s.scrubResume d).onCfg fun c => { c with partialLoad := false, phase := .idle }

/-- The package enters the refusal state (R208, R219). -/
def State.refusalState (s : State) : State :=
  let s := if s.cfg.running then s.loadBegin else s
  let s := (s.cfgStage 8).setPins { s.pins with cfgErrLow := true }
  let s := (Die.all.foldl (fun s d => s.setXTable d []) (s.parcelsAll 2)).banksDefault
  s.phase .refusal

/-- A load takes over a parcel in a power step: a power-up that has its supply goes on as far as the block RAM's zeroing, and what comes
after it is dropped; any other step ends (R229, R239). -/
def State.powerDrop (s : State) (d : FDie) (p : Fin 16) : State :=
  let s := if s.powerStep d.die p = 4 ∨ s.powerStep d.die p = 5 then s else s.setPowerStep d.die p 0
  s.setReleases (s.releases.filter fun r => r.kind != .power d p)

/-- A target of a load that is being blanked has its fence CLOSED: its clocks stop and its GSR asserts (R219). -/
def State.blankShut (s : State) (d : Die) (p : Nat) : State :=
  if s.cfg.phase = .blanking ∧ s.loadTarget d p = true ∧ s.parcelSt d p = 1 then s.parcelShut d p else s

/-- Blanking starts (R219, R229, R230): the targets that are powered, or power up, are LOADING, and their fences close; capture frames are
cleared (R242); the scrubber stays paused. Reset targets are blanked once the die's channels have trained (R232). -/
def State.blankStart (s : State) (code : Nat) : State :=
  let d := s.loadDie
  let s := (s.streamShut.onCfg fun c => { c with phase := .blanking, endCode := code }).setLoadSt 5
  let s := s.scrubPause d
  (s.loadTargets.foldl (fun s x =>
    let k := parcelKey x.1.die x.2
    let s := (s.setPrcHold (removeNat k s.prcHold)).captureDrop d x.2
    if s.parcelSt d x.2 = 3 ∧ s.powerStep d x.2 < 4 then (s.setPowerStep d x.2 0).setPrcBlank (insertNat k s.prcBlank)
    else
      let s := ((s.powerDrop x.1 x.2).setPrcBlank (removeNat k s.prcBlank)).fenceRaise (.parcel x.1 x.2)
      let s := if s.parcelSt d x.2 = 3 then s else s.setParcelSt d x.2 1
      if s.fence (.parcel x.1 x.2) = 2 then s.blankShut d x.2 else s) s).owedAnswer

/-- The image is refused (R205 to R208, R214, R215, R230). `force` is a refusal that enters the refusal state although a personality
runs (R215). -/
def State.refuse (s : State) (code slot addr : Nat) (force : Bool) : State :=
  let s := s.streamShut
  let part := s.cfg.partialLoad || hdrPartial s.cfg.header
  let s := s.puts (atDie .e0) [(.CFG_STATUS_CODE, code), (.CFG_STATUS_SLOT, slot), (.CFG_STATUS_PARTIAL, natOf part),
    (.CFG_ERR_ADDR_ADDR, addr)]
  let s := s.raise .e0 Ev.CFG_REFUSED (code + slot * 2 ^ 8 + addr * 2 ^ 16 + natOf part * 2 ^ 48)
  if s.cfg.partialLoad ∧ s.loadSt ≠ 0 then
    if s.cfg.phase = .fencing then ((s.cfgEnd code 0).partialOver 3).owedAnswer else s.blankStart code
  else
    let late := s.cfg.phase == .prepare || !s.cfg.running || force
    let s := ((s.cfgEnd code 0).onCfg fun c => { c with partialLoad := false, phase := .idle }).owedAnswer
    if late then s.refusalState else s.scrubsMeet

/-- A load in progress ends without a status of its own (R201, R233). Until the new load begins, CFG_STATUS keeps what it showed (DESIGN
CHOICE, log entry 229). -/
def State.loadKill (s : State) : State :=
  let s := if s.cfg.partialLoad && s.loadSt != 0 then
      ((s.put (atDie s.loadDie) .PRC_LOAD_STAT_HELD 0).setLoadSt 0).scrubResume s.loadDie
    else s
  let s := s.setReleases (s.releases.filter fun r => r.kind != .full && r.kind != .partialLoad)
  (s.streamShut.onCfg fun c => { c with partialLoad := false, phase := .idle }).owedAnswer

/-! ### A full load starts (R200, R204, R215) -/

/-- A new load is reported, and CFG_ERR_N is released. -/
def State.loadOpen (s : State) (stage : Nat) : State :=
  let s := s.puts (atDie .e0) [(.CFG_STATUS_BUSY, 1), (.CFG_STATUS_CODE, 1), (.CFG_STATUS_STAGE, stage), (.CFG_STATUS_SLOT, 0),
    (.CFG_STATUS_PARTIAL, 0), (.CFG_PROGRESS_FRAMES, 0)]
  (s.setPins { s.pins with cfgErrLow := false }).onCfg fun c =>
    { c with header := [], entries := [], sha := Sha.start, frames := 0, again := false, streamOpen := false, streamPos := 0,
             streamBuf := [], setupNext := 0, statics := [], partialLoad := false }

/-- The parcels of a running personality are taken down (R204, R219, R239): fences rise, every parcel becomes LOADING, a gated one once it
is powered. -/
def State.prepStart (s : State) : State :=
  (everyParcel.foldl (fun s x =>
    let d := x.1.die
    let s := if s.parcelSt d x.2 = 3 ∧ s.powerStep d x.2 < 4 then s.setPowerStep d x.2 4 else s.powerDrop x.1 x.2
    let s := if s.parcelSt d x.2 = 3 ∧ (s.powerStep d x.2 = 4 ∨ s.powerStep d x.2 = 5) then s
      else (s.setParcelSt d x.2 1).clrBit (atDie d) .PRC_PG_STAT_GATED x.2
    if s.up d then s.fenceRaise (.parcel x.1 x.2) else s) (s.setPrcHold [])).phase .prepare

/-- The dies and parcels that the image whose header has been read covers. -/
def State.covers (s : State) (d : Die) (p : Nat) : Bool :=
  !hdrPartial s.cfg.header || (d == s.loadDie && bitOf (hdrParcels s.cfg.header) p)

/-- The CLAMP_DEF of an accepted image stands for the wires of parcels that have never been released, and for the seam wires of port dies,
which have no parcels: all theirs count as one (R186, R197, R222). -/
def State.clampsDefault (s : State) : State :=
  (everyParcel.map (fun (x : FDie × Fin 16) => (x.1.die, x.2.val)) ++ [(Die.e0, 0), (Die.e1, 0)]).foldl (fun s (x : Die × Nat) =>
    let k := parcelKey x.1 x.2
    if s.covers x.1 x.2 && !Tbl.has s.clamps k then s.setClampDef (Tbl.set s.clampDef k (fieldLE s.cfg.header 0x14 1)) else s) s

/-- A header that has been read is checked, and an accepted image goes on (R204, R205). -/
def State.headerOn (s : State) : State :=
  let h := s.cfg.header
  let s := s.cfgStage 2
  match s.headerCheck s.cfg.source h with
  | some (code, slot) => (s.phase .header).refuse code slot 0 false
  | none =>
    let s := s.clampsDefault
    let flash := s.cfg.source == 1 || s.cfg.source == 2
    if hdrPartial h then (s.onCfg fun c => { c with partialLoad := true, phase := .table }).cfgStage 3
    else if s.cfg.running then s.prepStart
    else if flash then s.phase .setup
    else ((s.loadBegin).phase .table).cfgStage 3

/-- Step 3 of R204 stops in the WAITING state for a port (R200). -/
def State.waitingState (s : State) : State := (((s.parcelsAll 2).cfgEnd 4 9).banksDefault).phase .waiting

/-- The first load after a package power-on reset has the clock and the core voltages (R204 step 2, R568). -/
def State.loadClocked (s : State) : Bool :=
  s.clk.locked && (s.cfg.started || Die.all.all fun d => !d.isFab || !s.flag (atDie d) .PWR_PL_STAT_SEQ)

/-- A load that waits for the clock or for the dies goes on as soon as it can (R204 steps 2 and 3, R215). -/
def State.loadTry (s : State) : State :=
  if s.cfg.phase ≠ .start ∨ s.loadClocked = false then s
  else
    let s := s.onCfg fun c => { c with started := true }
    match Die.all.find? fun d => s.dieSt d == 3 with
    | some d => s.refuse 0x1C d.idx 0 true
    | none =>
      if Die.all.any fun d => !s.up d then s
      else if s.cfg.header ≠ [] then s.headerOn
      else
        let mode := s.get (atDie .e0) .CFG_SRC_MODE
        if s.cfg.source = 0 ∧ 2 ≤ mode then s.waitingState
        else
          let src := if s.cfg.source = 0 then mode + 1 else s.cfg.source
          let s := s.puts (atDie .e0) [(.CFG_SRC_LAST_SRC, src), (.CFG_FLASH_OCTAL, 0)]
          s.onCfg fun c => { c with source := src, phase := .header }

/-- A full load from a flash partition starts: source 1 or 2 by command, 0 as the straps say (R204, R209). `early` is a start by
CFG_PROG_N, whose preparation comes first. -/
def State.fullStart (s : State) (source : Nat) (early : Bool) : State :=
  let s := (s.loadKill.loadOpen 1).onCfg fun c => { c with source := source }
  if s.cfg.running = false then ((s.loadBegin).phase .start).loadTry
  else if early then s.prepStart.scrubsMeet
  else (s.phase .start).scrubsMeet.loadTry

/-! ### The entry table (R140, R142, R199, R205) -/

/-- Whether an entry names as initiator a fabric port of the target parcels. -/
def State.entryOwn (s : State) (e : XEntry) : Bool :=
  idDie e.init == s.loadDie && match idPort e.init with
    | some (q, _) => bitOf (hdrParcels s.cfg.header) q
    | none => false

/-- The entries of the package after a load. -/
def State.tableAfter (s : State) (new : List XEntry) : List XEntry :=
  if s.cfg.partialLoad then
    Die.all.flatMap fun d =>
      if d = s.loadDie then
        ((s.xTable d).filter fun e => !s.entryOwn e) ++ new
      else s.xTable d
  else Die.all.flatMap fun d => new.filter fun e => idDie e.init == d

/-- The entry table has been received: it is checked, and a partial load enters FENCING (R204 step 5, R225 step 2). -/
def State.tableIn (s : State) (bytes : List Nat) : State :=
  let h := s.cfg.header
  let new := entriesOf (hdrXres h) bytes
  let s := s.onCfg fun c => { c with entries := new, sha := c.sha.feed bytes }
  let after := s.tableAfter new
  if (Die.all.any fun d => decide (256 < (after.filter fun e => idDie e.init == d).length)) ||
      (s.cfg.partialLoad && new.any fun e => !s.entryOwn e) then s.refuse 0x10 0 0 false
  else
    let (s, ok) := s.xCheck after new
    if ok = false then s.refuse 0x15 0 0 false
    else if s.cfg.partialLoad then
      let a := atDie s.loadDie
      let s := s.puts a [(.PRC_LOAD_STAT_STATE, 1), (.PRC_LOAD_STAT_TARGETS, hdrParcels h), (.PRC_LOAD_STAT_HELD, 0)]
      s.onCfg fun c => { c with phase := .fencing, hold := s.flag a .PRC_LOAD_CTRL_HOLD }
    else (s.phase .frames).cfgStage 4

/-! ### Frames (R206, R207, R225) -/

/-- The commit point of a partial load (R225 step 6, R228): entries that are kept take their number anew, with what is used of their
allowances in this stroke (R139, R144). -/
def State.commit (s : State) : State :=
  let d := s.loadDie
  let kept := (s.xTable d).zipIdx.filter fun e => !s.entryOwn e.1
  let used := kept.zipIdx.filterMap fun e => match s.xUsed.find? fun u => u.1 == d.idx * 256 + e.1.2 with
    | some (_, u) => some (d.idx * 256 + e.2, u)
    | none => none
  let s := s.setXUsed (used.foldl (fun t u => Tbl.set t u.1 u.2) (Tbl.keep (fun k => k / 256 != d.idx) s.xUsed))
  let s := s.setXTable d ((s.tableAfter s.cfg.entries).filter fun e => idDie e.init == d)
  let s := (s.setLoadSt 3).put (atDie d) .PRC_LOAD_STAT_HELD (natOf s.cfg.hold)
  s.phase (if s.cfg.hold then .held else .matched)

/-- After the last frame: the fabric-port targets, then the digest (R204 step 7, R225 step 6). -/
def State.framesDone (s : State) : State :=
  let s := s.streamShut.cfgStage 5
  let (s, ok) := s.xPorts (fun id => match idPort id with
    | some (q, p) => s.modeOf (idDie id) q p
    | none => 0) (s.tableAfter s.cfg.entries)
  if ok = false then s.refuse 0x15 0 0 false
  else if s.cfg.sha.digest ≠ hdrDigest s.cfg.header then s.refuse 0x19 0 0 false
  else if s.cfg.partialLoad then s.commit
  else s.phase .matched

/-- The rails on which a frame enables a STATIC driver (R86). -/
def staticRails (d : Die) (f : Nat) (data : BitVec 4096) : List Nat :=
  if d.isFab && !isContent d f then
    ((Config.frameRails d.idx f data).filter fun e => railParcel (e.1 % 24576) == frameParcel d f && e.2.2 % 4 == 1).map fun e =>
      railKey d (e.1 % 24576)
  else []

/-- Whether a list holds something twice. -/
def twice : List Nat → Bool
  | [] => false
  | n :: l => l.contains n || twice l

/-- A frame that has passed its checks is written; the default clamp code of its image stands for wires without one of their own
(R197), and the parcel's block RAM contents are defined once its last frame is written (R117). -/
def State.frameTaken (s : State) (d : Die) (f : Nat) (p : Packet) : State :=
  let k := parcelKey d (if d.isFab then frameParcel d f else 0)
  let rails := staticRails d f p.data
  let s := s.setClampDef (Tbl.set s.clampDef k (fieldLE s.cfg.header 0x14 1))
  let s := s.writeFrame d f none (packetFrame p)
  let s := if d.isFab && f % 3328 == 3327 then s.setBramDef (insertNat k s.bramDef) else s
  let s := s.onCfg fun c =>
    { c with frames := c.frames + 1, again := false, statics := rails ++ c.statics, sha := c.sha.feed (packetBytes p) }
  s.put (atDie .e0) .CFG_PROGRESS_FRAMES s.cfg.frames

/-- A frame packet is checked and written (R86, R206); `second` is its second read from the flash. -/
def State.packetIn (s : State) (p : Packet) (second : Bool) : State :=
  let (d, f) := packetPlace s.cfg.header Die.all s.cfg.frames
  let addr := p.addr.toNat
  let flash := s.cfg.source == 1 || s.cfg.source == 2
  if addr ≠ frameAddr d f then s.refuse 0x18 0 addr false
  else
    let s := if packetSyndOk p then s else s.bump (atDie .e0) .CFG_RETRY_SYND_ERR 1
    if packetCrcOk p && packetSyndOk p then
      let s := if second then s.bump (atDie .e0) .CFG_RETRY_RETRIES 1 else s
      let rails := staticRails d f p.data
      if twice rails || rails.any fun n => s.cfg.statics.contains n then s.refuse 0x16 0 addr false
      else
        let s := s.frameTaken d f p
        if s.cfg.frames = hdrTotal s.cfg.header then s.framesDone else s
    else if flash && !second then s.onCfg fun c => { c with again := true }
    else s.refuse 0x17 0 addr false

/-- Take a number of bytes from the stream's buffer. -/
def State.taken (s : State) (n : Nat) : State := s.onCfg fun c => { c with streamBuf := c.streamBuf.drop n }

/-- What a stream has brought is used, as far as it goes: the header, the table, the packets. The first argument bounds the steps. -/
def State.consume : Nat → State → State
  | 0, s => s
  | n + 1, s =>
    let b := s.cfg.streamBuf
    match s.cfg.phase with
    | .header =>
      if b.length < 256 then s
      else
        let s := (s.taken 256).onCfg fun c => { c with header := b.take 256 }
        let s := s.put (atDie .e0) .CFG_STATUS_PARTIAL (natOf (hdrPartial s.cfg.header))
        if hdrPartial s.cfg.header then (s.headerOn).consume n
        else (((s.cfgStage 1).phase .start).scrubsMeet.loadTry).consume n
    | .table =>
      let t := tableBytes s.cfg.header
      if b.length < t then s else ((s.taken t).tableIn (b.take t)).consume n
    | .frames => if b.length < 528 then s else ((s.taken 528).packetIn (packetOf (b.take 528)) false).consume n
    | _ => s

/-- Use what the buffer of a stream load holds. -/
def State.streamGo (s : State) : State := (s.consume (s.cfg.streamBuf.length / 16 + 4)).owedAnswer

/-- A load that waited goes on, and a stream's buffer with it. -/
def State.loadOn (s : State) : State := if s.cfg.phase = .start then (s.loadTry).streamGo else s

/-! ### Fences and power steps of a partial load (R225, R237, R569) -/

/-- Step 4 of R225: every target is fenced and powered; clocks stop, GSR asserts, and the master takes frames. Capture frames of the
targets, and VALID, are cleared at this step, or where the load ends before it, at the start of the blanking (R242; DESIGN CHOICE, log
entry 228). -/
def State.partialWrite (s : State) : State :=
  let d := s.loadDie
  if s.cfg.phase ≠ .draining ∨
      (s.loadTargets.any fun x => s.fence (.parcel x.1 x.2) != 2 || s.powerStep d x.2 != 0) = true then s
  else
    let s := s.loadTargets.foldl (fun s x =>
      let s := (((s.parcelShut d x.2).captureDrop d x.2).setParcelSt d x.2 1).clrBit (atDie d) .PRC_PG_STAT_GATED x.2
      let s := s.setPrcBlank (removeNat (parcelKey d x.2) s.prcBlank)
      s.clrBit (atDie d) .SCR_SRC_PARCELS x.2) s
    (((s.setLoadSt 2).phase .frames).cfgStage 4).streamGo

/-- Step 3 of R225 at a stroke boundary: it waits for power steps, holds and other repairs to end, and for the die to be UP (R260,
R569). -/
def State.partialFence (s : State) : State :=
  let d := s.loadDie
  let busy := s.loadTargets.any fun x => s.powerStep d x.2 != 0 || s.prcHold.contains (parcelKey d x.2)
  if s.cfg.phase ≠ .fencing ∨ busy = true ∨ s.up d = false then s
  else
    let own := match (s.scrub d).repair with
      | some r => s.loadTarget d (frameParcel d r.frame)
      | none => false
    let s := if own then s.repairDrop d else s
    if (s.scrub d).repair.isSome then s
    else
      let s := (s.scrubPause d).phase .draining
      (s.loadTargets.foldl (fun s x =>
        if s.parcelSt d x.2 = 3 then s.setPowerStep d x.2 4
        else (s.setParcelSt d x.2 1).fenceRaise (.parcel x.1 x.2)) s).partialWrite

/-- What goes on when a fence has closed (R159, R225, R235, R256). -/
def State.fenceClosed (s : State) (f : FenceId) : State :=
  match f with
  | .parcel d p => ((s.parcelClosed d.die p).blankShut d.die p).partialWrite
  | .die _ _ => s
  | .domain d n => s.gateShut d.die n

/-- Whether an ISSUED transaction is owed a response through a fence to the side that it fences (R159). -/
def owedIn (f : FenceId) (src : Nat) (t : TagSt) : Bool :=
  t.st == 1 &&
    match f, decodeAddr t.addr with
    | .parcel d p, _ => idDie src == d.die && (match idPort src with
      | some (q, _) => q == p.val
      | none => false)
    | .die a b, some tgt => crosses b a (reqCrossings src tgt.ident t.low)
    | .domain d n, _ => decide (n.val < 8) && src == coreIdent d.die n.val
    | .die _ _, none => false

/-- Nothing is outstanding across a DRAINING fence: it closes (R159). -/
def execFenceDrained (fence : FenceId) (s : State) : Res :=
  .next (if s.fence fence = 1 ∧ (s.tags.any fun e => owed fence (e.1 / 1024) e.2 || owedIn fence (e.1 / 1024) e.2) = false then
    (s.setFence fence 2).fenceClosed fence
  else s)

/-- The drain limit of a DRAINING fence expires (R159). -/
def execNocFenceLimit (fence : FenceId) (s : State) : Res :=
  .next (if s.fence fence = 1 then (s.fenceLimit fence).fenceClosed fence else s)

/-- Whether a full load prepares, or has taken over (R204, R239). -/
def State.loadHolds (s : State) : Bool := s.cfg.phase == .prepare

/-- Every block RAM word of a parcel that powers up has been zeroed (R235 step 5): it waits for its heat boundary, or is ready for
the load that powered it up (R237, R239) or that is being blanked (R229). A target of a load that still waits for its power steps goes on
with its own power-up (R569). -/
def execParcelBramCleared (die : FDie) (parcel : Fin 16) (s : State) : Res :=
  let d := die.die
  .next (if s.powerStep d parcel = 5 then
    let s := s.bramZero d parcel
    if s.loadHolds then ((s.setPowerStep d parcel 0).setParcelSt d parcel 1).clrBit (atDie d) .PRC_PG_STAT_GATED parcel
    else if s.loadTarget d parcel && s.cfg.phase != .fencing then (s.setPowerStep d parcel 0).partialWrite
    else s.setPowerStep d parcel 6
  else s)

/-! ### Abort and blanking (R229 to R232) -/

/-- PRC_LOAD_CTRL.ABORT on a die. -/
def State.loadAbort (s : State) (d : Die) : State :=
  if s.cfg.partialLoad && s.loadDie == d && s.cfg.phase != .blanking then
    if 3 ≤ s.loadSt then s.put (atDie d) .PRC_LOAD_STAT_ABORT_LATE 1
    else (s.put (atDie d) .PRC_LOAD_STAT_TARGETS (hdrParcels s.cfg.header)).blankStart 3
  else s

/-- PRC_LOAD_CTRL is written with ABORT = 1. -/
def execPartialLoadAbort (die : FDie) (hold : Bool) (s : State) : Res :=
  .next ((s.put (atDie die.die) .PRC_LOAD_CTRL_HOLD (natOf hold)).loadAbort die.die)

/-- Whether blanking can end: the fences of its powered targets are CLOSED, and power-ups that had begun are complete; a die that a
reset interrupts is blanked once its channels have trained (R229, R232). -/
def State.blankReady (s : State) : Bool :=
  let d := s.loadDie
  s.cfg.phase == .blanking &&
    (s.up d || (Tbl.get 0 s.dieStep d.idx == 2 && (List.range 88).all fun ch => !(chanOn d ch && s.chanSt d ch == 1))) &&
    s.loadTargets.all fun x =>
      s.powerStep d x.2 == 0 && (s.prcBlank.contains (parcelKey d x.2) || s.fence (.parcel x.1 x.2) == 2)

/-- The abort state of the targets (R229, R230). -/
def State.blankEnd (s : State) : State :=
  let d := s.loadDie
  let s := s.loadTargets.foldl (fun s x =>
    let s := (s.blankParcel d x.2).clrBit (atDie d) .SCR_SRC_PARCELS x.2
    if s.parcelSt d x.2 = 3 ∧ s.prcBlank.contains (parcelKey d x.2) = true then s
    else ((s.parcelShut d x.2).setParcelSt d x.2 2).clrBit (atDie d) .PRC_PG_STAT_GATED x.2) s
  ((s.cfgEnd s.cfg.endCode 0).partialOver (if s.cfg.endCode = 3 then 2 else 3)).returnTrained d

/-- Blanking ends. -/
def execBlankingDone (s : State) : Res := .next (if s.blankReady then s.blankEnd else s)

/-! ### The steps of a flash load (R203, R204) -/

/-- The header has been read at 25 MHz. -/
def execFlashHeaderRead (header : BitVec 2048) (s : State) : Res :=
  .next (if s.cfg.phase = .header ∧ (s.cfg.source = 1 ∨ s.cfg.source = 2) then
    (s.onCfg fun c => { c with header := bytesLE header.toNat 256 }).headerOn
  else s)

/-- Every fence of a running personality has drained, and its gated parcels are powered: the preparation ends (R204, R239). -/
def execLoadPreparationDone (s : State) : Res :=
  let ready := everyParcel.all fun x =>
    !s.up x.1.die || (s.fence (.parcel x.1 x.2) == 2 && s.powerStep x.1.die x.2 == 0)
  .next (if s.cfg.phase = .prepare ∧ ready = true then
    let s := s.loadBegin
    if s.cfg.header = [] then (s.phase .start).loadOn
    else if s.cfg.source = 1 ∨ s.cfg.source = 2 then s.phase .setup
    else ((s.phase .table).cfgStage 3).streamGo
  else s)

/-- Whether a further setup record follows. -/
def State.setupLeft (s : State) : Bool :=
  decide (s.cfg.setupNext < 4) && (hdrSetup s.cfg.header s.cfg.setupNext).headD 0 != 0

/-- A flash setup record is performed. -/
def execFlashSetupRecord (s : State) : Res :=
  .next (if s.cfg.phase = .setup ∧ s.setupLeft = true then
    (s.emit (.flashSetup (hdrSetup s.cfg.header s.cfg.setupNext))).onCfg fun c => { c with setupNext := c.setupNext + 1 }
  else s)

/-- The header has been read again in 8D-8D-8D. -/
def execFlashHeaderReread (header : BitVec 2048) (s : State) : Res :=
  let h := s.cfg.header
  .next (if s.cfg.phase = .setup ∧ s.setupLeft = false then
    if bytesLE header.toNat 256 = h then
      let s := s.puts (atDie .e0) [(.CFG_FLASH_OCTAL, 1), (.CFG_FLASH_FREQ, fieldLE h 0x6A 1), (.CFG_FLASH_DUMMY, fieldLE h 0x69 1),
        (.CFG_FLASH_READ_OP, fieldLE h 0x68 1)]
      (s.phase .table).cfgStage 3
    else s.refuse 0x1A 0 0 false
  else s)

/-- A failing packet has been read once more. -/
def execFrameReread (packet : Packet) (s : State) : Res :=
  .next (if s.cfg.phase = .frames ∧ s.cfg.again = true then
    let (d, f) := packetPlace s.cfg.header Die.all s.cfg.frames
    ((s.raise .e0 Ev.CFG_FRAME_RETRY (frameAddr d f)).onCfg fun c => { c with again := false }).packetIn packet true
  else s)

end Sys2Proof.Machine
end

