-- ==== Sys2Proof/Machine/Streams.lean ====
section
/-! DEFINITION. What starts a load and what carries an image: CFG_PROG_N, CFG_CMD, the image window, the test port (R200, R201, R209,
R212 to R214). -/

namespace Sys2Proof.Machine

/-! ### CFG_PROG_N and CFG_CMD -/

/-- The filter of CFG_PROG_N accepts a low level: any load ends (R201, R233, R260). -/
def execCfgProgNLow (s : State) : Res :=
  let s := s.onCfg fun c => { c with progLow := true }
  .next (if s.clk.power = 2 then (Die.all.foldl (fun s d => s.repairDrop d) s.loadKill).scrubsMeet else s)

/-- CFG_PROG_N rises after an accepted low: the straps are sampled and a full load starts (R200, R201). -/
def execCfgProgNRise (mode : BitVec 3) (pull : Bool) (s : State) : Res :=
  .next (if s.cfg.progLow = false then s
  else
    let s := s.onCfg fun c => { c with progLow := false }
    if s.clk.power = 2 then
      (s.puts (atDie .e0) [(.CFG_SRC_MODE, mode.toNat), (.CFG_SRC_PULL, natOf pull)]).fullStart 0 true
    else s)

/-- A stream opens (R213, R225 step 1). While a personality runs it counts as partial until its header shows its kind; where none runs
only a full image may come (DEDUCED, log entry 127). -/
def State.streamBegin (s : State) : State :=
  ((s.loadOpen 2).put (atDie .e0) .CFG_STATUS_PARTIAL (natOf s.cfg.running)).onCfg fun c =>
    { c with streamOpen := true, source := 0, phase := .header }

/-- A write of CFG_CMD (R209): a command while a load runs, or while CFG_PROG_N is low, or without its key, is ignored. -/
def State.cfgCmd (s : State) (op key : Nat) : State :=
  if op = 0 ∨ 3 < op then s
  else if s.flag (atDie .e0) .CFG_STATUS_BUSY ∨ s.cfg.progLow = true ∨ (op < 3 ∧ key ≠ 0xC5) then
    s.put (atDie .e0) .CFG_STATUS_CMD_IGNORED 1
  else if op < 3 then s.fullStart op false
  else s.streamBegin

/-- CFG_CMD.OP = LOAD_PRIMARY is written. -/
def execLoadPrimary (key : BitVec 8) (s : State) : Res := .next (s.cfgCmd 1 key.toNat)

/-- CFG_CMD.OP = LOAD_FALLBACK is written. -/
def execLoadFallback (key : BitVec 8) (s : State) : Res := .next (s.cfgCmd 2 key.toNat)

/-- CFG_CMD.OP = ACCEPT_STREAM is written. -/
def execAcceptStream (s : State) : Res := .next (s.cfgCmd 3 0)

/-! ### Bytes of a stream (R212 to R214) -/

/-- Stream bytes are discarded: 0 at the window, with their offset there, or 1 at the test port, for which no offset is stated (DESIGN
CHOICE, log entry 136). -/
def State.streamDrop (s : State) (port place : Nat) : State :=
  let s := s.put (atDie .e0) .CFG_STATUS_WIN_DROP 1
  if port = 0 then s.raise .e0 Ev.CFG_WIN_DROP ((0x40000000 + place) % 2 ^ 32 * 2 ^ 8)
  else s.used.raise .e0 Ev.CFG_WIN_DROP (1 + s.free 32 % 2 ^ 32 * 2 ^ 8)

/-- Where the header, or the image, ends for the stream in hand. -/
def State.streamLimit (s : State) : Nat := if s.cfg.header = [] then 256 else imageBytes s.cfg.header

/-- Bytes that follow on those before them; those past the end of the image are discarded. The first argument bounds the pieces. -/
def State.streamFeed : Nat → State → Nat → List Nat → State
  | 0, s, _, _ => s
  | n + 1, s, port, l =>
    if l = [] then s
    else
      let room := s.streamLimit - s.cfg.streamPos
      if s.cfg.streamOpen = false ∨ room = 0 then s.streamDrop port s.cfg.streamPos
      else
        let s := (s.onCfg fun c =>
          { c with streamBuf := c.streamBuf ++ l.take room, streamPos := c.streamPos + (l.take room).length }).streamGo
        let s := if s.cfg.header ≠ [] ∧ s.cfg.streamPos = s.streamLimit then s.onCfg fun c => { c with streamOpen := false } else s
        s.streamFeed n port (l.drop room)

/-- Bytes of the open stream arrive; the first one settles the source of the load. -/
def State.streamIn (s : State) (source port : Nat) (l : List Nat) : State :=
  let s :=
    if s.cfg.streamPos = 0 ∧ l ≠ [] then (s.put (atDie .e0) .CFG_SRC_LAST_SRC source).onCfg fun c => { c with source := source }
    else s
  s.streamFeed 4 port l

/-- A write to the image window at a place (R213). -/
def State.windowWrite (s : State) (src : WinSrc) (place : Nat) (l : List Nat) : State :=
  match src with
  | .other => s.streamDrop 0 place
  | .management | .pcie =>
    if s.cfg.streamOpen = false then s.streamDrop 0 place
    else if place ≠ s.cfg.streamPos then (s.streamDrop 0 place).refuse 0x1B 0 0 false
    else s.streamIn (if src = .pcie then 5 else 4) 0 l

/-- A write to the configuration image window. -/
def execImageWindowWrite (src : WinSrc) (offset : BitVec 28) (bytes : List Byte) (s : State) : Res :=
  .next (s.windowWrite src offset.toNat (bytes.map BitVec.toNat))

/-- An open stream has received no byte for 10 s (R213, R214). -/
def execStreamStallTimeout (s : State) : Res := .next (if s.cfg.streamOpen then s.refuse 0x1B 0 0 false else s)

/-- The entry table has been received: from the flash, or as the next bytes of the stream. -/
def execEntryTableReceived (bytes : List Byte) (s : State) : Res :=
  let l := bytes.map BitVec.toNat
  .next (if s.cfg.streamOpen then s.streamFeed 4 0 l
  else if s.cfg.phase = .table ∧ (s.cfg.source = 1 ∨ s.cfg.source = 2) ∧ l.length = tableBytes s.cfg.header then s.tableIn l
  else s)

/-- A frame packet arrives: from the flash, or as the next bytes of the stream. -/
def execFramePacket (packet : Packet) (s : State) : Res :=
  .next (if s.cfg.streamOpen then s.streamFeed 4 0 (packetBytes packet)
  else if s.cfg.phase = .frames ∧ (s.cfg.source = 1 ∨ s.cfg.source = 2) ∧ s.cfg.again = false then s.packetIn packet false
  else s)

/-! ### The test port (R212, R321) -/

/-- Whether the test port may act on a running personality, or none runs. -/
def State.tapMay (s : State) : Bool := !s.cfg.running || s.get (atDie .e0) .DBG_SESSION_LEVEL == 3

/-- Update-DR of CFG_IN: four image bytes, byte 0 lowest. -/
def execCfgIn (value : Word) (s : State) : Res :=
  let s := s.tapIr 0x08
  let l := bytesLE value.toNat 4
  .next (if s.tapMay = false then s.streamDrop 1 s.cfg.streamPos
  else
    let s := if s.cfg.phase = .waiting ∨ s.cfg.phase = .refusal then s.streamBegin else s
    if s.cfg.streamOpen then s.streamIn 3 1 l else s.streamDrop 1 s.cfg.streamPos)

/-- Update-DR of CFG_CMD. -/
def execTestPortCfgCmd (value : Word) (s : State) : Res :=
  let s := s.tapIr 0x0A
  .next (if s.tapMay then s.cfgCmd (value.toNat % 8) (value.toNat / 2 ^ 24)
  else s.put (atDie .e0) .CFG_STATUS_CMD_IGNORED 1)

/-- Capture-DR of CFG_STAT loads CFG_STATUS. -/
def execCfgStat (s : State) : Res :=
  let w := s.reg (atDie .e0) .CFG_STATUS
  .next (((s.tapIr 0x09).setAnswer w).emit (.shifted w.toNat))

/-- What IDCODE captures: the stepping code of E0, part 0x0880, manufacturer 0x1A5, 1. -/
def idcode : Word := BitVec.ofNat 32 (stepping .e0 * 2 ^ 28 + 0x0088034B)

/-- IDCODE. -/
def execIdcode (s : State) : Res := .next (((s.tapIr 0x01).setAnswer idcode).emit (.shifted idcode.toNat))

/-- The boundary-scan register captures the pins, and takes the bits shifted in (R212). -/
def State.boundary (s : State) (ir : Nat) (bits : List Bool) : State :=
  ((s.emit (.shifted ((List.range bits.length).foldr (fun i v => natOf (s.scanBit i) + 2 * v) 0))).used).setTap
    { s.tap with ir := ir, cells := bits }

/-- EXTEST: pins are driven from the boundary-scan register (`State.scanned`). -/
def execExtest (bits : List Bool) (s : State) : Res := .next (s.boundary 0x00 bits)

/-- SAMPLE/PRELOAD. -/
def execSamplePreload (bits : List Bool) (s : State) : Res := .next (s.boundary 0x02 bits)

/-- BYPASS selects the one-bit register, which captures 0. -/
def execBypass (s : State) : Res := .next ((s.tapIr 0xFF).emit (.shifted 0))

/-- Update-DR of CFG_READ at the observe level: bit 31 = 1 names a frame. -/
def execCfgRead (value : Word) (s : State) : Res :=
  let s := s.tapIr 0x0B
  .next (if value.getLsbD 31 && decide (1 ≤ s.get (atDie .e0) .DBG_SESSION_LEVEL) then
    s.setTap { s.tap with frame := some (value.toNat % 2 ^ 25), word := 0 }
  else s)

/-- Capture-DR of CFG_READ: the next word of the named frame; with none named, past word 131 or below the observe level the data is
open. While the die of the frame runs a priority lap the readback waits: the data is open and no word is taken (R254; DESIGN CHOICE, log
entry 201). -/
def execCfgReadCapture (s : State) : Res :=
  let shown (s : State) (n : Nat) : State := (s.setAnswer (BitVec.ofNat 32 n)).emit (.shifted n)
  .next (match s.tap.frame with
  | some addr =>
    if s.tap.word < 132 ∧ 1 ≤ s.get (atDie .e0) .DBG_SESSION_LEVEL ∧ (s.scrub (Die.ofIdx (bitsOf addr 20 3))).mode ≠ 2 then
      let (s, w) := s.readbackWord addr s.tap.word
      (shown s w).setTap { s.tap with word := s.tap.word + 1 }
    else shown s.used (s.free 32)
  | none => shown s.used (s.free 32))

end Sys2Proof.Machine
end

