-- ==== Sys2Proof/Machine/Release.lean ====
section
/-! DEFINITION. Staged releases: of a full image, of a returning die, of a partial load, of a parcel that powers up (R33, R210, R225,
R226, R235). -/

namespace Sys2Proof.Machine

/-- Whether a release stands at a stage. -/
def State.releaseAt (s : State) (k : RelKind) (n : Nat) : Bool := s.releases.any fun r => r.kind == k && r.stage == n

/-- A release goes to a stage. -/
def State.releaseTo (s : State) (k : RelKind) (n : Nat) : State :=
  s.setReleases (s.releases.map fun r => if r.kind == k then { r with stage := n } else r)

/-- A release is over. -/
def State.releaseEnd (s : State) (k : RelKind) : State := s.setReleases (s.releases.filter fun r => r.kind != k)

/-! ### The start at a heat boundary -/

/-- The release of a partial load starts (R225 step 7). -/
def State.partialRelease (s : State) : State :=
  if s.up s.loadDie then
    let s := ((s.put (atDie s.loadDie) .PRC_LOAD_STAT_HELD 0).setLoadSt 4).phase .release
    s.setReleases (s.releases ++ [⟨.partialLoad, 1⟩])
  else s

/-- The release of a full image starts on all dies at once (R210 step 1). -/
def State.fullRelease (s : State) : State :=
  let h := s.cfg.header
  let s := Die.all.foldl (fun s d => s.puts (atDie d) [(.CFG_DIE_STAT_STAGE, 0), (.CFG_DIE_STAT_LOADED, 1)]) (s.cfgStage 7)
  let s := s.puts (atDie .e0) [(.CFG_GAP_A_GAP0, hdrGap h 0), (.CFG_GAP_A_GAP1, hdrGap h 1), (.CFG_GAP_B_GAP2, hdrGap h 2),
    (.CFG_IMG_ID_ID, hdrId h), (.CFG_SRC_FULL_SRC, s.cfg.source)]
  (s.onCfg fun c => { c with inForce := h, phase := .release }).setReleases (s.releases ++ [⟨.full, 1⟩])

/-- A load whose digest has matched starts its release at a heat boundary. -/
def State.releaseHeat (s : State) : State :=
  if s.cfg.phase ≠ .matched then s else if s.cfg.partialLoad then s.partialRelease else s.fullRelease

/-- A returning die whose lap is complete starts its release at a heat boundary (R33 step 6). -/
def State.dieHeat (s : State) (d : Die) : State :=
  if Tbl.get 0 s.dieStep d.idx = 4 then
    (s.setDieStep (Tbl.set s.dieStep d.idx 5)).setReleases (s.releases ++ [⟨.die d, 1⟩])
  else s

/-! ### What a stage acts on -/

/-- The parcels that the release of one die acts on: those RUNNING, and the targets of a partial load that a DIE reset met at or
after its commit point (R38, R232). -/
def State.dieParcels (s : State) (d : Die) : List (FDie × Fin 16) :=
  everyParcel.filter fun x =>
    x.1.die == d && (s.parcelRuns d x.2 ||
      (s.cfg.partialLoad && s.loadDie == d && decide (3 ≤ s.loadSt) && bitOf (hdrParcels s.cfg.header) x.2))

/-- The parcels that a release acts on. The release of a die while no personality runs acts on none. -/
def State.releaseParcels (s : State) (k : RelKind) : List (FDie × Fin 16) :=
  match k with
  | .full => everyParcel.filter fun x => s.up x.1.die
  | .die d => if s.cfg.running then s.dieParcels d else []
  | .partialLoad => s.loadTargets
  | .power d p => [(d, p)]

/-- The dies whose CFG_DIE_STAT.STAGE a release moves. -/
def State.releaseDies (s : State) (k : RelKind) : List Die :=
  match k with
  | .full => Die.all.filter fun d => s.up d
  | .die d => if s.cfg.running then [d] else []
  | .partialLoad | .power _ _ => []

/-- Put STAGE of the dies of a release. -/
def State.dieStages (s : State) (k : RelKind) (n : Nat) : State :=
  (s.releaseDies k).foldl (fun s d => s.put (atDie d) .CFG_DIE_STAT_STAGE n) s

/-! ### Stage 1: outputs -/

/-- What the memory of the package does at stage 1 of a full release (R437, R454). -/
def State.memRelease (s : State) : State :=
  let s := (List.range 4).foldl (fun s ch =>
    if s.ddrSt ch = 5 ∧ s.cfg.ddrs[ch]? = some (s.reg (ddrAt ch) .MEM_DDR_CFG) then s else s.ddrReset ch) s
  (List.range 4).foldl (fun s p => s.setCxlSt p 0) (s.setCxl [])

/-- What the release of a full image does at stage 1 beside its parcels: the personality runs, its reservation table, I/O voltages and
repair source come into force (R210, R257, R512). -/
def State.fullOutputs (s : State) : State :=
  let new := s.cfg.entries
  let s := s.onCfg fun c => { c with running := true }
  let s := Die.all.foldl (fun s d => s.setXTable d (new.filter fun e => idDie e.init == d)) s
  let src := if s.cfg.source = 1 ∨ s.cfg.source = 2 then 65535 else 0
  let s := Die.all.foldl (fun s d => if d.isFab then s.put (atDie d) .SCR_SRC_PARCELS src else s) s.banksImage
  let s := [Die.e0, .e1].foldl (fun s d => ((s.clampCopy d 0).bufSync d).spillSync d) s
  s.memRelease.rclkSync

/-- GAP0 after the start: outputs follow the design, fences open, clamps drop, lanes leave electrical idle. -/
def State.stageOutputs (s : State) (k : RelKind) : State :=
  if s.releaseAt k 1 then
    let s := (s.releaseTo k 2).dieStages k 1
    let s := (s.releaseParcels k).foldl (fun s x => s.parcelStage1 x.1 x.2) s
    let s := if k = .full then s.fullOutputs else s
    (s.releaseDies k).foldl (fun s d => s.lanesRelease d) s
  else s

/-- Stage 1 of a release. -/
def execReleaseStageOutputs (kind : RelKind) (s : State) : Res := .next (s.stageOutputs kind)

/-! ### Stage 2: write enables -/

/-- GAP1 later: block RAM writes are enabled and fabric ports pass requests. -/
def State.stageWrites (s : State) (k : RelKind) : State :=
  if s.releaseAt k 2 then
    (s.releaseParcels k).foldl (fun s x => s.parcelStage2 x.1 x.2) ((s.releaseTo k 3).dieStages k 2)
  else s

/-- Stage 2 of a release. -/
def execReleaseStageWriteEnables (kind : RelKind) (s : State) : Res := .next (s.stageWrites kind)

/-! ### Stage 3: resets -/

/-- A partial load is complete (R225 step 9, R228). -/
def State.partialDone (s : State) : State :=
  let d := s.loadDie
  let s := (s.cfgEnd 2 0).raise .e0 Ev.CFG_DONE
    (hdrId s.cfg.header + s.get (atDie .e0) .CFG_SRC_LAST_SRC * 2 ^ 32 + 2 ^ 40)
  (s.partialOver 1).unitDone (unitNo d 15)

/-- The return of a die is complete (R33 step 7). -/
def State.dieUp (s : State) (d : Die) : State :=
  let s := (s.put (atDie .e0) (.DIE_STATE_ST d.idx) 0).setDieStep (Tbl.erase s.dieStep d.idx)
  let s := if s.cfg.partialLoad ∧ s.loadDie = d ∧ 3 ≤ s.loadSt ∧ s.loadSt < 5 then s.partialDone else s
  ((s.scrubSync d).levelsSync).loadOn

/-- GAP2 later: GSR is released, block RAM reads are enabled, Hammer cores leave reset. -/
def State.stageResets (s : State) (k : RelKind) : State :=
  if s.releaseAt k 3 then
    let parcels := s.releaseParcels k
    let s := (s.releaseTo k 4).dieStages k 3
    let s := parcels.foldl (fun s x => s.parcelStage3 x.1 x.2) s
    match k with
    | .full =>
      let s := everyParcel.foldl (fun s x =>
        ((s.setParcelSt x.1.die x.2 0).clrBit (atDie x.1.die) .PRC_PG_STAT_GATED x.2).clrBit (atDie x.1.die) .SCR_HELD_PARCELS x.2) s
      (s.releaseDies .full).foldl (fun s d => (s.coresStart d).scrubFresh d) s
    | .die d => (((s.releaseDies (.die d)).foldl (fun s d => s.coresStart d) s).releaseEnd (.die d)).dieUp d
    | .partialLoad => (s.releaseEnd .partialLoad).partialDone
    | .power d p => (s.releaseEnd (.power d p)).powerDone d p
  else s

/-- Stage 3 of a release. -/
def execReleaseStageResets (kind : RelKind) (s : State) : Res := .next (s.stageResets kind)

/-- One configuration-clock cycle after stage 3 of a full load (R210 step 5). -/
def State.fullDone (s : State) : State :=
  if s.releaseAt .full 4 then
    let s := ((s.releaseEnd .full).cfgEnd 2 0).phase .idle
    let s := (s.setPins { s.pins with cfgDone := true }).scrubsMeet
    s.raise .e0 Ev.CFG_DONE (hdrId s.cfg.header + s.get (atDie .e0) .CFG_SRC_LAST_SRC * 2 ^ 32)
  else s

/-- CFG_DONE goes high. -/
def execCfgDone (s : State) : Res := .next s.fullDone

end Sys2Proof.Machine
end

