-- ==== Sys2Proof/Machine/Dies.lean ====
section
/-! DEFINITION. Power-up, resets and losses of dies, rails, and the first lock of the datum PLL (R30 to R41, R215, R314, R453, R497,
R507, R512 to R516, R568). -/

namespace Sys2Proof.Machine

/-! ### Package power-on reset (R15, R36, R41) -/

/-- The rail monitors go on through a package power-on reset: GOOD, WARN and MV stay, and a core rail's nominal voltage is the lower
of the old one and 0.75 V until its regulator reports good (R512). -/
def State.railsKept (s old : State) : State :=
  (List.range 29).foldl (fun s n =>
    let a := atSel .e0 n
    let s := s.puts a [(.PWR_RAIL_STAT_GOOD, old.get a .PWR_RAIL_STAT_GOOD), (.PWR_RAIL_STAT_WARN, old.get a .PWR_RAIL_STAT_WARN),
      (.PWR_RAIL_STAT_MV, old.get a .PWR_RAIL_STAT_MV)]
    if 3 ≤ n ∧ n ≤ 8 then s.put a .PWR_RAIL_STAT_NOM (Nat.min 750 (old.get a .PWR_RAIL_STAT_NOM)) else s) s

/-- What OTP holds stays: the Weld map records and the debug keys (R165, R317). -/
def State.otpKept (s old : State) : State :=
  let s := old.welds.foldl (fun s e => s.setWeld (Die.ofIdx (e.1 / 128)) (e.1 % 128) { WeldEnd.new with records := e.2.records }) s
  let s := s.setDbg { s.dbg with keys := old.dbg.keys }
  [1, 2, 3].foldl (fun s n => if Tbl.has old.dbg.keys n then s.setBit (atDie .e0) .DBG_KEY_STAT_SLOTS (n - 1) else s) s

/-- The machine as a loss of VAUX leaves it: only OTP, the pin CFG_PROG_N and what waits outside are as before. -/
def State.vauxLost (s : State) : State :=
  ({ State.reset with
    pending := s.pending, sent := s.sent, fresh := s.fresh,
    cfg := { State.reset.cfg with progLow := s.cfg.progLow } }).otpKept s

/-- The causes of a package power-on reset stand on every die (R41): bits of DIE_RST_CAUSE. -/
def State.resetCause (s : State) (bits : Nat) : State :=
  Die.all.foldl (fun s d => s.setReg (atDie d) .DIE_RST_CAUSE (BitVec.ofNat 32 bits)) s

/-- A package power-on reset during which VAUX stays good: the field book, the newest calibration copy, the rails and OTP are kept
(R41, R537, R542). `bits` names its causes beside PKG. -/
def State.packageReset (s : State) (bits : Nat) : State :=
  let book := { s.book with pcycle := (s.book.pcycle + 1) % 2 ^ 24, fails := 0 }
  let t := { State.reset with
    pending := s.pending, sent := s.sent, fresh := s.fresh, book := book, cal := { s.cal with op := 0 },
    cfg := { State.reset.cfg with progLow := s.cfg.progLow },
    clk := { State.reset.clk with power := 1 } }
  ((t.otpKept s).railsKept s).resetCause (2 + bits)

/-- VAUX becomes good and the island starts (R516 step 1). -/
def execIslandStart (s : State) : Res :=
  .next (if s.clk.power = 0 then
    ((s.setClk { s.clk with power := 1 }).put (atSel .e0 0) .PWR_RAIL_STAT_GOOD 1).resetCause 3
  else s)

/-- Whether every rail of R512 is good. -/
def State.railsGood (s : State) : Bool := (List.range 29).all fun n => s.flag (atSel .e0 n) .PWR_RAIL_STAT_GOOD

/-- The package power-on reset is released (R516 step 2, R200, R537, R568): the straps are sampled, the START record is made, every
fabric-die regulator is set to 0.75 V, and a full load begins. -/
def execPowerOnResetRelease (mode : BitVec 3) (pull : Bool) (s : State) : Res :=
  .next (if s.clk.power = 1 ∧ s.railsGood = true ∧ s.cfg.progLow = false then
    let s := s.setClk { s.clk with power := 2 }
    let s := s.bookAdd 3 0 (s.reg (atDie .e0) .DIE_RST_CAUSE).toNat
    let s := s.puts (atDie .e0) [(.CFG_SRC_MODE, mode.toNat), (.CFG_SRC_PULL, natOf pull)]
    let s := Die.all.foldl (fun s d => if d.isFab then s.avsWrite d 750 else s) s
    (s.setClk { s.clk with volt := (Die.all.filter Die.isFab).map Die.idx }).fullStart 0 true
  else s)

/-- The system watchdog expires (R314): first a warning and a reload, then SWD_EXPIRE and a package power-on reset; both events carry PERIOD
(R333). -/
def execSystemWatchdogExpiry (s : State) : Res :=
  let a := atDie .e0
  .next (if s.flag a .DBG_SWD_CTRL_EN && !s.flag a .DBG_SWD_STAT_FROZEN then
    let n := s.get a .DBG_SWD_CTRL_PERIOD
    if s.flag a .DBG_SWD_STAT_WARNED then (s.raise .e0 Ev.SWD_EXPIRE n).packageReset 16
    else (s.swdReload.put a .DBG_SWD_STAT_WARNED 1).raise .e0 Ev.SWD_WARN n
  else s)

/-! ### What other dies see of a die that goes down (R33 step 2, R160, R178) -/

/-- The dies that share an edge with a die. -/
def neighbours (d : Die) : List Die := Die.all.filter fun n => (edgeOf d n).isSome

/-- Requests of other dies whose path leads into a die complete with DIE_DOWN, at the first die that fences it. -/
def State.diesAnswer (s : State) (d : Die) : State :=
  let l := s.tags.filterMap fun e =>
    if e.2.st = 1 ∧ idDie (e.1 / 1024) ≠ d then
      match decodeAddr e.2.addr with
      | some t =>
        match (reqCrossings (e.1 / 1024) t.ident e.2.low).find? fun c => c.2.1 == d with
        | some c => some (e.1, e.2, c.1)
        | none => none
      | none => none
    else none
  l.foldl (fun s (k, t, holder) =>
    let src := k / 1024
    if (Tbl.get [] s.xWait src ++ Tbl.get [] s.xHeld src).any fun w => w.1.tag.toNat == k % 1024 then s
    else (((s.tagDone src (k % 1024)).xLate src t).bump (atDie holder) .NOC_FENCE_CNT_SYNTH 1).deliver src (k % 1024) t.owner 4 0) s

/-- The neighbours of a die fence its channels; the die's own fences stand with them until its channels train again. A neighbour that
returns, and trains with no other die, goes on with its lap (R33 steps 4 and 5, R35). -/
def State.isolate (s : State) (d : Die) : State :=
  let s := (neighbours d).foldl (fun s n => (s.setFence (.die n d) 3).setFence (.die d n) 3) (s.weldDown d)
  (neighbours d).foldl (fun s n => s.returnTrained n) (s.diesAnswer d)

/-! ### What a load makes of it (R38, R215, R232) -/

/-- A load meets a die that goes down. -/
def State.loadMeets (s : State) (d : Die) : State :=
  let past := match s.cfg.phase with
    | .header => s.cfg.source == 1 || s.cfg.source == 2
    | .prepare => !s.cfg.header.isEmpty
    | .setup | .reread | .table | .frames | .matched => true
    | _ => false
  if s.cfg.partialLoad then
    if s.loadDie ≠ d ∨ s.loadSt = 5 then s
    else if s.loadSt < 3 then (s.put (atDie d) .PRC_LOAD_STAT_TARGETS (hdrParcels s.cfg.header)).blankStart 3
    else
      let s := ((s.put (atDie d) .PRC_LOAD_STAT_HELD 0).setLoadSt 3).phase .matched
      (s.releaseEnd .partialLoad).scrubResume d
  else if past then s.refuse 0x1C d.idx 0 false
  else s

/-! ### The DIE reset (R33 step 1) -/

/-- The image's part of a register of the DIE domain, which configuration memory keeps (R33, R45). -/
def Reg.imagePart (r : Reg) (w : Word) : Option Word :=
  match r with
  | .CLK_FPLL_STAT => some (w &&& Fld.CLK_FPLL_STAT_FOLLOW.mask)
  | _ => none

/-- The registers of a die's DIE, PARCEL and CORE domains return to their reset values (R15). -/
def State.dieRegs (s : State) (d : Die) : State :=
  s.setRegs (s.regs.filterMap fun e =>
    match Reg.all[e.1 / 2 ^ 44]? with
    | none => some e
    | some r =>
      match r.info.domain with
      | .por | .cfg => some e
      | .die | .parcel | .core => if e.1 % 8 = d.idx then (r.imagePart e.2).map fun w => (e.1, w) else some e)

/-- A parcel in a DIE reset (R117, R238, R256): a hold that drains is complete; a power-down is complete, and a power-up ends with the
switches open again, so that block RAM contents are lost; its gates close and its GSR asserts. -/
def State.parcelDown (s : State) (d : Die) (p : Nat) : State :=
  let k := parcelKey d p
  let s := if s.prcHold.contains k then (s.setPrcHold (removeNat k s.prcHold)).setParcelSt d p 2 else s
  let s :=
    if s.powerStep d p = 0 then s
    else if s.powerStep d p < 4 then s.switchOpen d p
    else (s.setPowerStep d p 0).setBramDef (removeNat k s.bramDef)
  (s.parcelShut d p).setCapture (Tbl.erase s.capture k)

/-- What a fabric die holds beside its registers, in a DIE reset. -/
def State.fabDown (s : State) (d : Die) : State :=
  let s := (List.range 16).foldl (fun s p => s.parcelDown d p) s
  let s := (s.setFrozen (s.frozen.filter fun k => k / 16 != d.idx)).setCapWait (Tbl.erase s.capWait d.idx)
  let s := s.setDieResets (Tbl.set s.dieResets d.idx (Tbl.get 0 s.dieResets d.idx + 1))
  let away (k : Nat) : Bool := k / 2 ^ 42 != d.idx
  let s := ((((s.setDcache (Tbl.keep away s.dcache)).setDcRights (Tbl.keep away s.dcRights)).setDcWait (Tbl.keep away s.dcWait)).setNet
    { s.net with
      lines := Tbl.keep away s.net.lines
      cells := Tbl.keep (fun k => k / 2 ^ 19 != d.idx) s.net.cells
      sick := s.net.sick.filter away
      used := Tbl.keep (fun k => k / 32 / 256 != d.idx) s.net.used })
  let s := s.setReleases (s.releases.filter fun r => match r.kind with
    | .power x _ => x.die != d
    | _ => true)
  s.setFpFifo (Tbl.keep (fun k => k / 16 != d.idx) s.fpFifo)

/-- What E1 holds beside its registers, in a DIE reset (R339, R364, R375, R432, R453). `out` are the recovered-clock selectors that it has
squelched. -/
def State.portDown (s : State) (d : Die) (out : List Nat) : State :=
  let s := s.setLanes (Tbl.keep (fun k => k / 48 != d.idx) s.lanes)
  let s := (out.foldl (fun s n => s.put (atDie d) (rckSq n) 1) s).rclkSync
  let s := ((s.pktEmpty d).bufSync d).spillSync d
  let s := s.openRange (0x300000000000 + d.idx * 2 ^ 32) (2 ^ 26)
  let s := s.setHomeTxn (Tbl.keep (fun l => lineHome l != some d) s.homeTxn)
  let s := s.setNet { s.net with
    ents := Tbl.keep (fun k => k / 2 ^ 22 != d.idx) s.net.ents
    used := Tbl.keep (fun k => k / 32 / 256 != d.idx) s.net.used }
  let (s, n) := s.homeLost
  s.raise .e0 Ev.MEM_HOME_LOST n

/-- The units of a die in a change that is past its commit point fail, those too that have already reported (R67). -/
def State.unitsDown (s : State) (d : Die) : State :=
  let mine := if s.chgSt = 2 then s.requests.filter fun u => u / 16 == d.idx else []
  s.setUnits { s.units with
    awaits := s.units.awaits.filter fun u => u / 16 != d.idx
    failed := mine.foldl (fun l u => insertNat u l) s.units.failed
    undo := Tbl.keep (fun u => u / 16 != d.idx) s.units.undo
    plls := s.units.plls.filter fun k => k / 48 != d.idx
    limited := removeNat d.idx s.units.limited }

/-- A die enters DIE reset (R33 steps 1 and 2). `bits` are the causes that it adds, and `supply` says that its rail holds it. -/
def State.dieReset (s : State) (d : Die) (bits : Nat) (supply : Bool) : State :=
  let a := atDie d
  let bits := if s.dieSt d = 3 then bits ||| 64 else bits
  let s := s.setReg a .DIE_RST_CAUSE (s.reg a .DIE_RST_CAUSE ||| BitVec.ofNat 32 bits)
  let s := (s.put (atDie .e0) (.DIE_STATE_ST d.idx) 1).setDieStep (Tbl.set s.dieStep d.idx (if supply then 6 else 1))
  let s := s.releaseEnd (.die d)
  let old := s.get (atSel .e0 (d.idx + 1)) .PWR_RAIL_STAT_NOM
  let s := if d.isFab then s.fabDown d else s
  let s := s.freeTags fun i => idDie i == d
  let out := [0, 1].filter fun n => d.isPort && s.flag a (rckEn n)
  let s := out.foldl (fun s n => s.squelchOne d n) s
  let s := (s.dieRegs d).puts a [(.STK_STATUS_ALIGNED, 0), (.CFG_DIE_STAT_STAGE, 0)]
  let s := (s.setXUsed (Tbl.keep (fun k => k / 256 != d.idx) s.xUsed)).setRouters (Tbl.keep (fun k => k / 256 != d.idx) s.routers)
  let s := s.setRtrShare (Tbl.keep (fun k => k / 8 / 256 != d.idx) s.rtrShare)
  let s := (s.setBw (Tbl.keep (fun k => k / 32 != d.idx) s.bw)).setPmcLatch (Tbl.keep (fun k => k / 128 != d.idx) s.pmcLatch)
  let s := (s.setScrubs (Tbl.erase s.scrubs d.idx)).setEccScrub (Tbl.keep (fun k => k / 16 != d.idx) s.eccScrub)
  let s := s.setClk { s.clk with fences := Tbl.keep (fun k => k / 16 != d.idx) s.clk.fences, volt := removeNat d.idx s.clk.volt }
  let s := (s.unitsDown d).isolate d
  let s := if d.isFab then
      let s := s.coresStart d
      (if supply then s else s.avsWrite d 750).put (atSel .e0 (d.idx + 1)) .PWR_RAIL_STAT_NOM (Nat.min old 750)
    else s.portDown d out
  (s.loadMeets d).levelsSync

/-- A request for one die (R34): ignored for a die that is in reset or returning. -/
def State.dieRequest (s : State) (d : Die) (bits : Nat) : State :=
  if s.dieSt d = 1 ∨ s.dieSt d = 2 then s.setBit (atDie .e0) .DIE_STATE_IGNORED d.idx else s.dieReset d bits false

/-- A write of DIE_RESET_REQ (R31, R35). `debug` says that a debug session at the full level writes. -/
def State.dieRequests (s : State) (key dies : Nat) (debug : Bool) : State :=
  if key = 0x5D then
    Die.all.foldl (fun s d => if d ≠ .e0 ∧ bitOf dies d.idx = true then s.dieRequest d (if debug then 36 else 4) else s) s
  else s

/-- DIE_RESET_REQ is written: bit n of `dies` requests the die with index n. -/
def execDieResetRequest (key dies : BitVec 8) (debug : Bool) (s : State) : Res := .next (s.dieRequests key.toNat dies.toNat debug)

/-- The rail of a die's core (R512). -/
def coreRail (d : Die) : Nat := d.idx + 1

/-- The reset of a die is released (R33 steps 3 and 4, R35, R51): its stroke receiver is calibrated, and its channels to dies that are
UP or RETURNING train. -/
def execDieResetRelease (die : Die) (s : State) : Res :=
  let d := die
  .next (if s.dieSt d = 1 ∧ s.flag (atSel .e0 (coreRail d)) .PWR_RAIL_STAT_GOOD = true ∧ s.flag (atDie d) .PWR_PL_STAT_SEQ = false then
    let s := (s.put (atDie .e0) (.DIE_STATE_ST d.idx) 2).setDieStep (Tbl.set s.dieStep d.idx 2)
    let s := s.puts (atDie d) [(.STK_STATUS_ALIGNED, 1), (.STK_STROKE_NUM_NUM, s.get (atDie .e0) .STK_STROKE_NUM_NUM),
      (.STK_HEAT_NUM_NUM, s.get (atDie .e0) .STK_HEAT_NUM_NUM)]
    let s := (List.range 88).foldl (fun s ch =>
      if chanOn d ch then
        let p := s.dieSt (chanPeer d ch)
        if s.clk.locked = true ∧ (p = 0 ∨ p = 2) then s.weldTrain ch else s
      else s) s
    s.returnTrained d
  else s)

/-- A watched die returns no clock edge for 1 µs (R32, R499). -/
def State.clockLost (s : State) (d : Die) : State :=
  let s := if s.dieSt d = 2 then s.setReg (atDie d) .DIE_RST_CAUSE (s.reg (atDie d) .DIE_RST_CAUSE ||| 64) else s
  let s := (s.put (atDie .e0) (.DIE_STATE_ST d.idx) 3).setDieStep (Tbl.erase s.dieStep d.idx)
  let s := s.setScrub d { s.scrub d with mode := 0, waiting := none }
  let s := ((s.releaseEnd (.die d)).isolate d).loadMeets d
  (s.levelsSync).loadOn

/-- The clock of a die is lost. -/
def execDieClockLoss (die : Die) (s : State) : Res :=
  .next (if die ≠ .e0 ∧ s.clk.locked = true ∧ (s.dieSt die = 0 ∨ s.dieSt die = 2) ∧
      s.flag (atSel .e0 (coreRail die)) .PWR_RAIL_STAT_GOOD = true then s.clockLost die
  else s)

/-! ### Rails (R512, R513, R515) -/

/-- The action of a rail below its reset threshold (R512). -/
def State.railAction (s : State) (rail : Nat) : State :=
  match rail with
  | 0 => s.vauxLost
  | 1 | 9 | 10 => s.packageReset 8
  | 2 | 3 | 4 | 5 | 6 | 7 | 8 => s.dieReset (Die.ofIdx (rail - 1)) 8 true
  | 11 | 12 => s.lineSafe .e0 1
  | 13 | 14 => if s.dieSt .e1 = 0 ∨ s.dieSt .e1 = 2 then s.lineSafe .e1 1 else s
  | 15 => (s.ddrReset 0).ddrReset 1
  | 16 => if s.up .e1 then (s.ddrReset 2).ddrReset 3 else s
  | _ => s

/-- A rail has stayed below its reset threshold for 1 µs: `min` is its minimum, `mv` its present voltage. -/
def execRailBelowReset (rail : Fin 29) (min mv : BitVec 12) (s : State) : Res :=
  let a := atSel .e0 rail
  .next (if s.clk.power = 0 ∨ s.flag a .PWR_RAIL_STAT_GOOD = false then s
  else
    let s := ((s.railSample rail min.toNat).railSample rail mv.toNat).puts a [(.PWR_RAIL_STAT_GOOD, 0), (.PWR_RAIL_STAT_WARN, 1)]
    let s := if rail = 0 then s else s.raise .e0 Ev.PWR_RAIL_RESET (rail + min.toNat * 2 ^ 8)
    if s.clk.power = 2 ∨ rail = 0 then s.railAction rail else s)

/-- The core rail of a die that it holds in reset is good: the return starts (R31), on a fabric die with the write of 0.75 V to its
regulator (R507). -/
def State.railReturn (s : State) (d : Die) : State :=
  if Tbl.get 0 s.dieStep d.idx = 6 then
    let s := s.setDieStep (Tbl.set s.dieStep d.idx 1)
    if d.isFab then s.avsWrite d 750 else s
  else s

/-- A rail has stayed above its warning threshold for 100 µs. -/
def execRailGood (rail : Fin 29) (mv : BitVec 12) (s : State) : Res :=
  .next (if s.clk.power = 0 then s
  else
    let s := (s.railSample rail mv.toNat).puts (atSel .e0 rail) [(.PWR_RAIL_STAT_GOOD, 1), (.PWR_RAIL_STAT_WARN, 0)]
    if 2 ≤ rail.val ∧ rail.val ≤ 8 then s.railReturn (Die.ofIdx (rail - 1)) else s)

/-- The regulator of a die reports its output good, and the rail monitor agrees (R507, R508, R512, R568). -/
def execPwrVoltageGood (die : FDie) (s : State) : Res :=
  let d := die.die
  .next (if s.flag (atDie d) .PWR_PL_STAT_SEQ then
    let s := s.setClk { s.clk with volt := removeNat d.idx s.clk.volt }
    (((s.put (atDie d) .PWR_PL_STAT_SEQ 0).nomSync d).levelsSync).loadOn
  else s)

/-! ### The datum PLL -/

/-- The datum PLL locks (R51, R174, R495, R497): for the first time, with every stroke receiver calibrated and every Weld channel
whose dies are both out of reset training (R173); or to the target of a switch that ends a coast. -/
def execDatumPllLock (s : State) : Res :=
  let a := atDie .e0
  .next (if s.clk.power = 2 ∧ s.clk.locked = false ∧ s.srcReady s.active = true then
    let s := (s.put a .CLK_STATUS_LOCKED 1).setClk { s.clk with locked := true }
    let out (d : Die) : Bool := s.dieSt d == 0 || s.dieSt d == 2
    let s := Die.all.foldl (fun s d => if out d then s.put (atDie d) .STK_STATUS_ALIGNED 1 else s) s
    let s := (List.range 88).foldl (fun s ch => if out (chanDies ch).1 && out (chanDies ch).2 then s.weldTrain ch else s) s
    (Die.all.foldl (fun s d => s.returnTrained d) s).loadOn
  else if s.clk.relocks then
    let s := (s.puts a [(.CLK_STATUS_LOCKED, 1), (.CLK_STATUS_COAST, 0)]).setClk { s.clk with relocks := false }
    (s.raise .e0 Ev.CLK_COAST 0).loadOn
  else s)

end Sys2Proof.Machine
end

