-- ==== Sys2Proof/Machine/Stroke.lean ====
section
/-! DEFINITION. The stroke: numbers, the lock to network time, overruns, the armed change at its heat boundaries, and everything that
waits for a boundary (chapter 02; R307 to R310). -/

namespace Sys2Proof.Machine

/-! ### Time -/

/-- Time-clock cycles of the stroke in hand (R48, R56). -/
def State.strokeCycles (s : State) : Nat :=
  let p := s.get (atDie .e0) .STK_TIMING_PERIOD
  if s.units.slip = 1 then p + 1 else if s.units.slip = 2 then p - 1 else p

/-- The stroke in hand is counted out. -/
def State.strokeTime (s : State) : State :=
  let n := s.strokeCycles
  let s := (s.setTod { s.tod with due := false }).timeTo n
  (s.setTod { s.tod with done := s.tod.done - n }).setCycles (s.cycles + n)

/-- A heat in ns, at least 1. -/
def State.heatNs (s : State) : Nat := Nat.max 1 (2 * s.get (atDie .e0) .STK_TIMING_PERIOD * s.get (atDie .e0) .STK_TIMING_HEAT)

/-- The phase error in ns at the start of a stroke of the heat (R56): the boundary minus the nearest start of a heat in PTP time. -/
def State.phaseError (s : State) (stroke : Nat) : Int :=
  let d := s.heatNs
  let x := (s.todNs + d - 2 * s.get (atDie .e0) .STK_TIMING_PERIOD * stroke % d) % d
  if d < 2 * x then (x : Int) - d else x

/-- The length of the coming stroke: one cycle shorter where the generator is late, one longer where it is early (R56). While
PKT_TOD_CTRL.RUN is 0 the time stands, and the generator slews against it and keeps LOCKED (DESIGN CHOICE, log entry 224). -/
def State.slew (s : State) (stroke : Nat) : State :=
  let e := s.phaseError stroke
  s.setUnits { s.units with slip := if s.units.slews = false then 0 else if 2 ≤ e then 2 else if e ≤ -2 then 1 else 0 }

/-- The heat of the second whose start in PTP time is nearest to this heat boundary (R52, R56). -/
def State.heatInSecond (s : State) : Nat :=
  (((s.todNs : Int) - s.phaseError 0).toNat / s.heatNs) % Nat.max 1 (1000000000 / s.heatNs)

/-- The heat number at a heat boundary, and the state of the lock (R52, R56, R57): heats of the second while locked, else heats since
package power-on reset. The error is measured at the boundary nearest to a whole second, and the lock holds from the first such
boundary within 2 ns of it. A timing change that moves the boundaries off the old grid leaves LOCKED set, and the generator slews to
the new one (DESIGN CHOICE, log entry 182). -/
def State.heatMark (s : State) : State :=
  let a := atDie .e0
  let e := s.phaseError 0
  let s := s.setUnits { s.units with heats := (s.units.heats + 1) % 2 ^ 32 }
  let num := if s.flag a .STK_STATUS_LOCKED then s.heatInSecond else s.units.heats
  let s := Die.all.foldl (fun s d => if s.flag (atDie d) .STK_STATUS_ALIGNED then s.put (atDie d) .STK_HEAT_NUM_NUM num else s) s
  if s.units.slews && s.heatInSecond == 0 then
    let s := s.put a .STK_LOCK_ERR_ERR (patternOf 32 e)
    if -2 ≤ e ∧ e ≤ 2 then s.put a .STK_STATUS_LOCKED 1 else s
  else s

/-- UNTIMED clears at the first heat boundary after the datum PLL has locked again (R54, R407). -/
def State.timedAgain (s : State) : State :=
  let a := atDie .e0
  if s.flag a .CLK_STATUS_LOCKED && !s.flag a .CLK_STATUS_COAST && s.flag a .STK_STATUS_UNTIMED then
    (Die.all.foldl (fun s d => s.put (atDie d) .STK_STATUS_UNTIMED 0) s).put a .PKT_TOD_CTRL_UNTIMED 0
  else s

/-! ### Overruns and stroke tasks (R59, R307 to R310) -/

/-- A stroke is not delivered to a unit whose work goes on. -/
def State.overrun (s : State) (d : Die) (unit : Nat) : State :=
  let a := atDie d
  let s := s.bump a .STK_OVR_COUNT 1
  let s := if s.flag a .STK_OVR_VALID then s else s.puts a [(.STK_OVR_VALID, 1), (.STK_OVR_UNIT, unit)]
  s.raise d Ev.STROKE_OVERRUN (unit + s.get a .STK_STROKE_NUM_NUM * 2 ^ 8)

/-- A stroke reaches a core: a bound core gets line 0, or misses the stroke; an unbound core that waits for it goes on. -/
def State.coreStroke (s : State) (d : Die) (k : Nat) : State :=
  let a := atUnit d k
  let st := s.cstate d k
  if st = 0 then s
  else if s.flag a .HMR_STK_CTRL_BIND then
    if st = 5 ∨ s.gated d k = true then s.bump a .HMR_STK_STAT_HALT_SKIPPED 1
    else if (s.core d k).task || s.bit a .HMR_IRQ_PEND_PEND 0 then (s.bump a .HMR_STK_STAT_MISSED 1).overrun d k
    else (s.irq d k 0).taskSync d k
  else if s.gated d k then s
  else
    let s := s.onCore d k fun c => { c with rewait := false }
    if st = 4 then s.setCstate d k 1 else s

/-- A stroke reaches the cores, parcels, scrubber and captures of a fabric die; `late` are the units that are still working. -/
def State.fabStroke (s : State) (d : FDie) (late : List Nat) : State :=
  let s := (List.range 8).foldl (fun s k => s.coreStroke d.die k) s
  let s := (List.range 16).foldl (fun s p =>
    if late.contains (8 + p) && s.parcelRuns d.die p then s.overrun d.die (8 + p) else s) s
  ((List.finRange 16).foldl (fun s p => s.parcelStroke d p) s).captureStroke d.die

/-- A stroke reaches the packet engine of a port die. -/
def State.portStroke (s : State) (d : Die) (late : List Nat) : State :=
  if late.contains 24 then s.overrun d 24 else s.expressWalk d

/-- A stroke reaches a die that is aligned: its settings are voted on (R261), and where it is UP its parts take the stroke. -/
def State.dieStroke (s : State) (d : Die) (late : List Nat) : State :=
  let s := if s.flag (atDie d) .STK_STATUS_ALIGNED && (s.dieSt d == 0 || s.dieSt d == 2) then s.vote d else s
  if s.up d && s.flag (atDie d) .STK_STATUS_ALIGNED then
    let s := match d with
      | .e0 | .e1 => s.portStroke d late
      | .f0 => s.fabStroke .f0 late
      | .f1 => s.fabStroke .f1 late
      | .f2 => s.fabStroke .f2 late
      | .f3 => s.fabStroke .f3 late
      | .f4 => s.fabStroke .f4 late
      | .f5 => s.fabStroke .f5 late
    s.pmcItems d 0x201 0 1
  else s

/-! ### The armed change at a heat boundary (R63, R65, R68) -/

/-- A unit applies its pending setting at the commit point. -/
def State.unitApply (s : State) (u : Nat) : State :=
  let d := Die.ofIdx (u / 16)
  let slot := u % 16
  let s := s.clrBit (atDie d) .STK_UNIT_CTRL_ARM slot
  if slot = 14 then (s.schedApply d).setBit (atDie d) .STK_UNIT_STAT_APPLIED 14
  else
    let s := s.setUnits { s.units with awaits := insertNat u s.units.awaits }
    if slot = 0 then s.levelApply d
    else if slot = 1 then s.timingApply
    else if slot = 15 then (if s.cfg.phase = .held ∧ s.loadDie = d then s.partialRelease else s)
    else s.quadCommit d (slot - 2)

/-- The commit point. -/
def State.changeCommit (s : State) : State :=
  let s := (s.setUnits { s.units with failed := [], late := false }).put (atDie .e0) .STK_CHG_STATUS_STATE 2
  s.requests.foldl (fun s u => s.unitApply u) s

/-- The lowest 64 bits of STK_SPLIT with any bit set. -/
def State.splitData (s : State) : Nat :=
  let w (k : Nat) : Nat := s.get (atElem .e0 k) .STK_SPLIT_UNITS
  let low := w 0 + w 1 * 2 ^ 32
  if low ≠ 0 then low else w 2 + w 3 * 2 ^ 32

/-- The heat after the commit: a unit that has not reported fails, and the change ends (R63 step 7). A parcel release is no such unit:
it goes on to its end (R228). -/
def State.changeEnd (s : State) : State :=
  let a := atDie .e0
  let s := (s.units.awaits.filter fun u => u % 16 != 15).foldl (fun s u => s.unitFails u) s
  let failed := s.units.failed
  let s := failed.foldl (fun s u => s.setBit (atElem .e0 (u / 32)) .STK_SPLIT_UNITS (u % 32)) s
  let s := if s.units.late then s.put a .STK_CHG_STATUS_ABORT_LATE 1 else s
  let s := (s.setUnits { s.units with failed := [], late := false }).puts a
    [(.STK_CHG_STATUS_STATE, 0), (.STK_CHG_STATUS_RESULT, if failed = [] then 1 else 2)]
  if failed = [] then s else s.raise .e0 Ev.COMMIT_SPLIT s.splitData

/-- The change is withheld at this heat boundary. -/
def State.withhold (s : State) (untimed : Bool) : State :=
  let a := atDie .e0
  let s := if untimed then s else s.bump a .STK_CHG_STATUS_RETRIES 1
  (s.put a .STK_CHG_STATUS_COMMIT_WITHHELD 1).raise .e0 Ev.COMMIT_WITHHELD (s.get a .STK_CHG_STATUS_RETRIES + natOf untimed * 2 ^ 8)

/-- The armed change at a heat boundary (R63). A change whose RETRIES is above a RETRY_LIMIT that firmware lowered while it waits
expires like one at the limit (DESIGN CHOICE, log entry 179). -/
def State.changeHeat (s : State) : State :=
  let a := atDie .e0
  match s.chgSt with
  | 1 =>
    if s.flag a .STK_STATUS_UNTIMED then s.withhold true
    else if s.requests.all fun u => s.armed (Die.ofIdx (u / 16)) (u % 16) then s.changeCommit
    else if s.get a .STK_CHG_STATUS_RETRIES < s.get a .STK_CHG_CTRL_RETRY_LIMIT then s.withhold false
    else (s.changeOff 3).raise .e0 Ev.CHANGE_EXPIRED (s.get a .STK_CHG_STATUS_RETRIES)
  | 2 => s.changeEnd
  | _ => s

/-- Everything that a heat boundary starts (R33, R54, R63, R210, R226, R235). -/
def State.heat (s : State) : State :=
  let s := (s.timedAgain.changeHeat).releaseHeat
  let s := Die.all.foldl (fun s d => (s.dieHeat d).pmcItems d 0x202 0 1) s
  let s := everyParcel.foldl (fun s x => s.powerHeat x.1 x.2) s
  s.levelsSync

/-- A stroke: `late` are the stroke ports and walks that are still working, by die and unit code (R59). -/
def State.stroke (s : State) (late : List (Die × Fin 25)) : State :=
  let a := atDie .e0
  let s := s.strokeTime
  let next := s.get a .STK_STROKE_NUM_NUM + 1
  let boundary := decide (s.get a .STK_TIMING_HEAT ≤ next)
  let num := if boundary then 0 else next
  let s := Die.all.foldl (fun s d => if s.flag (atDie d) .STK_STATUS_ALIGNED then s.put (atDie d) .STK_STROKE_NUM_NUM num else s) s
  let s := if boundary then s.heatMark.heat else s
  let s := ((s.slew num).bwStroke boundary).xStroke
  let s := Die.all.foldl (fun s d => s.dieStroke d ((late.filter fun e => e.1 == d).map fun e => e.2.val)) s
  s.partialFence

/-- The stroke generator marks a stroke. It runs from the first lock of the datum PLL. -/
def execStroke (late : List (Die × Fin 25)) (s : State) : Res := .next (if s.clk.locked then s.stroke late else s)

/-! ### A cycle with no command (log entry 7) -/

/-- The value of an occupancy source in a cycle (R531). -/
def State.occupancy (s : State) (d : Die) (src inst : Nat) : Nat :=
  match src with
  | 0x211 => ((Tbl.get [] s.routers (routerKey ⟨d, inst / 8 % 8, inst % 8⟩ (inst / 4096 % 4))).filter fun w =>
      w.flit.cls.toNat == inst / 2 ^ 14 % 4).length
  | 0x212 => (s.tags.filter fun e => e.1 / 1024 == inst && idDie inst == d && e.2.st == 1).length
  | 0x222 => if chanOn d inst then (s.weld d inst).replay.length else 0
  | 0x250 => onDieCells (s.bufFrames d)
  | 0x254 => s.get (atSel d inst) .PKT_Q_STAT_CELLS
  | _ => 0

/-- What a counter counts in a cycle (R531): the cycle itself, a stalled core, or an occupancy, as its value or as 1 where it exceeds
PMC_THRESH. -/
def State.cycleItems (s : State) (d : Die) (c : Nat) : Nat :=
  let a := atSel d c
  let src := s.get a .PMC_SEL_SRC
  let inst := pmcInst src (s.get a .PMC_SEL_INST)
  if src = 0x200 then 1
  else if src = 0x241 then natOf (d.isFab && decide (inst < 8) && s.cstate d inst == 3)
  else
    let v := s.occupancy d src inst
    if s.flag a .PMC_SEL_MODE then natOf (decide (s.get a .PMC_THRESH_THRESH < v)) else v

/-- A counter counts a NoC clock cycle (R531 to R533). -/
def State.pmcCycle (s : State) (d : Die) (c : Nat) : State :=
  let src := s.get (atSel d c) .PMC_SEL_SRC
  let n := s.cycleItems d c
  if n ≠ 0 ∧ s.pmcOn d c src (pmcInst src (s.get (atSel d c) .PMC_SEL_INST)) then
    let t := s.pmcPlus d c n
    match s.pmcWrapped d c n with
    | none => t
    | some k => if t.pmcOvfBit d k then t else (t.setPmcOvf d k).raise d Ev.PMC_OVF k
  else s

/-- A cycle with no command: the outputs of each router send, the receive buffers of Weld channels give what their routers can take, each
event port presents an entry, and the counters count the cycle and the occupancies (R130, R131, R170, R530, R531; DESIGN CHOICE, log entry
7). -/
def State.idle (s : State) : State :=
  let s := s.routersCycle
  let s := (s.welds.filter fun e => e.2.rx != []).foldl (fun s e => s.weldDrain (Die.ofIdx (e.1 / 128)) (e.1 % 128)) s
  let s := s.fpFifo.foldl (fun s e => s.eventOut (Die.ofIdx (e.1 / 16)) (e.1 % 16) (s.clocked (Die.ofIdx (e.1 / 16)) (e.1 % 16))) s
  Die.all.foldl (fun s d => (s.regSels .PMC_SEL d).foldl (fun s c => s.pmcCycle d c) s) s

end Sys2Proof.Machine
end

