-- ==== Sys2Proof/Machine/Access.lean ====
section
/-! DEFINITION. The control space: which register lies where, what a write and a read of it do; and the ways in: a target's access,
the management port, BAR0 and the calibration set (R9 to R14, R45 to R47, R136, R359, R460, R519 to R523, R545; rows 0, 22, 82, 301,
340 to 344, 366 and 367). -/

namespace Sys2Proof.Machine

/-! ### Which register an offset names (R9, R10, R45, R46) -/

/-- Which copy and element of a register an offset within its block names. -/
def RegInfo.at (i : RegInfo) (o : Nat) : Option (Nat × Nat) :=
  if o < i.base then none
  else
    let n := o - i.base
    let hw := if i.stride = 0 then 0 else n / i.stride
    let rest := n - hw * i.stride
    if hw < i.copies ∧ rest / 4 < i.elems ∧ rest % 4 = 0 then some (hw, rest / 4) else none

/-- The unit that an index register selects for a register. -/
def State.selected (s : State) (d : Die) (r : Reg) (hw : Nat) : Nat :=
  match r.info.sel with
  | none => 0
  | some i =>
    let n := (s.reg ⟨d, if i.info.copies = 1 then 0 else hw, 0, 0⟩ i).toNat
    match r with
    | .PROT_DEF | .PROT_CNT | .PROT_CNT1 | .PROT_ERR_LO | .PROT_ERR_HI => n / 16
    | .ECC_LOG_ADDR | .ECC_LOG_INFO => s.get (atDie d) .ECC_GRP_IDX_GROUP * 16 + n
    | .PKT_PROF_MISS_LO | .PKT_PROF_MISS_HI => n % 16
    | _ => n

/-- The register at an offset of a die's control space, and its place. -/
def State.regAt (s : State) (d : Die) (o : Nat) : Option (Reg × At) :=
  let here := Reg.all.find? fun r => r.info.block.ctorIdx == o / 2 ^ 24 && r.on d && (r.info.at (o % 2 ^ 24)).isSome
  here.bind fun r => (r.info.at (o % 2 ^ 24)).map fun e => (r, ⟨d, e.1, e.2, s.selected d r e.1⟩)

/-! ### Writes -/

/-- The registers of which a write changes only bits [15:0]: the upper bits are RSV. -/
def upperRsv (r : Reg) (elem : Nat) : Bool :=
  match r with
  | .PKT_LKP_BULK_ADDR_HI | .PKT_SPILL_BASE_HI | .PKT_DRING_BASE_HI | .PKT_TOD_SET_SEC_HI | .PROT_RGN_BASE_HI | .PROT_RGN_META_HI
  | .MGT_CAL_ADDR_HI | .PMC_CNT_HI => true
  | .CMP_JOB_POST => elem % 2 == 1
  | _ => false

/-- A write of HMR_DBG_CTRL or HMR_BKPT (R325): only a debug session at the halt level or above. -/
def State.haltWrite (s : State) (icls : Nat) (f : State → State) : State := if icls = 5 ∧ s.mayHalt = true then f s else s

/-- A write of HMR_DBG_CTRL: tongs that HALT_TONGS = 1 stopped go on where it is cleared, and at the resume (R328). -/
def State.dbgCtrl (s : State) (d : Die) (k : Nat) (v : Word) : State :=
  let s := (s.writeReg (atUnit d k) .HMR_DBG_CTRL v).tngUnhalt d k
  let s := if v.getLsbD 0 then s.haltRequest d k 0 else s
  let s := if v.getLsbD 1 then s.haltEnd d k false else s
  if v.getLsbD 2 then s.haltEnd d k true else s

/-- A write of PKT_LKP_CMD (R379, R383). -/
def State.lkpWrite (s : State) (d : Die) (v : Word) : State :=
  let n := v.toNat
  let s := s.writeReg (atDie d) .PKT_LKP_CMD v
  let key := (List.range 8).foldl (fun k i => k + s.get (atElem d i) .PKT_LKP_KEY_KEY * 2 ^ (32 * i)) 0
  let res := s.get (atDie d) .PKT_LKP_RES_LO_RESULT + s.get (atDie d) .PKT_LKP_RES_HI_RESULT * 2 ^ 32
  let one (f : State → State × Nat) : State := s.lkpCmd d fun s => (f s).1.lkpEnd d (f s).2
  let s := match n % 8 with
    | 1 => one fun s => s.lkpInsert d key res none
    | 2 => one fun s => s.lkpDelete d key none
    | 3 => one fun s => s.lkpModify d key res none
    | 4 => s.lkpCmd d fun s => s.lkpRead d key
    | 5 => s.lkpCmd d fun s => s.lkpReadAt d (bitsOf n 25 3) (bitsOf n 8 17)
    | 6 => s.lkpCmd d fun s => s.lkpClearHits d
    | 7 => s.lkpCmd d fun s => s.lkpBulk d
    | _ => s
  if bitOf n 4 then s.lkpAbort d else s

/-- A write of PKT_Q_CMD (R395). How many frames had gone when an ABORT comes is open (DESIGN CHOICE, log entry 2). -/
def State.queueCmd (s : State) (d : Die) (q : Nat) (v : Word) : State :=
  let s := if v.getLsbD 0 then s.flushStart d q else s
  if v.getLsbD 1 then s.used.flushAbort d (s.free 24) else s

/-- A write of PKT_TOD_CTRL (R403, R404). -/
def State.todCtrl (s : State) (v : Word) : State :=
  let s := s.timeSome.writeReg (atDie .e0) .PKT_TOD_CTRL v
  match bitsOf v.toNat 1 2 with
  | 1 => s.todSet
  | 2 => s.todAdj
  | _ => s

/-- A write of PROT_RGN_CMD (R478). How many lines an INIT had written when an ABORT comes is open (DESIGN CHOICE, log entry 2). -/
def State.regionCmd (s : State) (e r : Nat) (v : Word) : State :=
  let s := if v.getLsbD 0 then s.regionInit e r else s
  if v.getLsbD 1 then s.used.regionAbort e r (s.free 32) else s

/-- A write of PMC_BW_CFG (R535). -/
def State.bwCfg (s : State) (d : Die) (m : Nat) (v : Word) : State :=
  let t := s.writeReg (atSel d m) .PMC_BW_CFG v
  if t.flag (atSel d m) .PMC_BW_CFG_EN then t.setBw (Tbl.set t.bw (bwKey d m) { BwMon.off with waiting := true })
  else t.setBw (Tbl.erase t.bw (bwKey d m))

/-- A write of REC_NOTE_GO (R543). -/
def State.noteGo (s : State) (v : Word) : State :=
  let e := atDie .e0
  let s := s.writeReg e .REC_NOTE_GO v
  if v.getLsbD 31 then s.bookAdd 2 (bitsOf v.toNat 0 12) (s.get e .REC_NOTE_LO_DATA + s.get e .REC_NOTE_HI_DATA * 2 ^ 32) else s

/-- A write of WLD_CH_CMD. -/
def State.weldCmd (s : State) (d : Die) (ch : Nat) (v : Word) : State :=
  let s := if v.getLsbD 0 then s.weldRetrainCmd d ch else s
  let s := if v.getLsbD 1 then s.weldRemapCmd d ch else s
  if v.getLsbD 2 then s.weldCommitCmd d ch (v.toNat / 2 ^ 24) else s

/-- A write of PRC_CAP_CTRL (R241). -/
def State.capCtrl (s : State) (d : Die) (v : Word) : State :=
  let s := s.writeReg (atDie d) .PRC_CAP_CTRL v
  let s := if v.getLsbD 4 then s.captureRequest d else s
  if v.getLsbD 8 then s.captureResume d else s

/-- The number of the protection engine with a number on its die. -/
def engineOf (d : Die) (on : Nat) : Nat := on / 2 * 4 + (if d = .e0 then 0 else 2) + on % 2

/-- The number of the CXL port or DDR5 channel with a number on its die. -/
def unitOf (d : Die) (on : Nat) : Nat := (if d = .e0 then 0 else 2) + on

/-- A write of the registers of the DIE, STK, CFG, PRC, SCR, NOC, WLD, HMR and DBG blocks whose fields do more than their access type
says. -/
def State.coreWrite (s : State) (a : At) (r : Reg) (v : Word) (icls : Nat) : State :=
  let d := a.die
  let u := a.hw
  let n := v.toNat
  match r with
  | .DIE_RESET_REQ => s.dieRequests (n / 2 ^ 24) (n % 256) (icls == 5)
  | .STK_CTRL => s.ptpLock (bitOf n 0)
  | .STK_TIMING_NEXT => s.pendWrite .e0 1 a r v
  | .STK_UNIT_CTRL => s.unitArm d (n % 2 ^ 16)
  | .STK_CHG_CTRL => s.changeCtrl v
  | .STK_CHG_REQ => if s.chgSt = 0 then s.writeReg a r v else s
  | .CFG_RAIL_DATA => if a.sel < 768 then s.railFlagClear d a.sel n else s
  | .CFG_RAIL_CLR => if bitOf n 0 then s.railClear d else s
  | .CFG_CMD => s.cfgCmd (n % 8) (n / 2 ^ 24)
  | .PRC_LOAD_CTRL =>
    let s := s.put a .PRC_LOAD_CTRL_HOLD (bitsOf n 1 1)
    if bitOf n 0 then s.loadAbort d else s
  | .PRC_PG_CTRL => s.parcelPower d (n % 2 ^ 16) (n / 2 ^ 16)
  | .PRC_CAP_CTRL => s.capCtrl d v
  | .SCR_CTRL => s.scrubEnable d v
  | .SCR_ACTION => s.writeSetting d 1 v
  | .SCR_LAP_LIMIT => s.writeSetting d 2 v
  | .SCR_CMD => if bitOf n 0 then s.priorityRequest d 2 else s
  | .NOC_DC_CMD => if bitOf n 0 && !s.flag a .NOC_DC_CMD_BUSY then s.dcFlush d else s
  | .WLD_CH_CMD => s.weldCmd d a.sel v
  | .HMR_CORE_CTRL => s.coreCtrl d u v
  | .HMR_TNG_GO => if bitOf n 0 then s.hostPost d u else s
  | .HMR_TNG_CTRL => if bitOf n 1 then s.tngControl d u true else if bitOf n 0 then s.tngControl d u false else s
  | .HMR_DBG_CTRL => s.haltWrite icls fun s => s.dbgCtrl d u v
  | .HMR_BKPT => s.haltWrite icls fun s => s.writeReg a r v
  | .HMR_DBG_REG_DATA => s.debugRegWrite d u n
  | .HMR_IRQ_PEND => (s.writeReg a r v).taskSync d u
  | .HMR_IRQ_SET => if bitOf n 0 then s.irq d u 4 else s
  | .HMR_WDOG_CTRL => s.wdogCtrl d u v
  | .HMR_WDOG_KICK => s.wdogKick d u (n % 256)
  | .DBG_CTRL => s.freezeSys icls (bitOf n 0)
  | .DBG_SWD_CTRL => s.swdCtrl v
  | .DBG_SWD_KICK => s.swdKick (n % 256)
  | _ => s.writeReg a r v

/-- A write of the registers of the LAN, PKT and CMP blocks whose fields do more than their access type says. -/
def State.lineWrite (s : State) (a : At) (r : Reg) (v : Word) : State :=
  let d := a.die
  let u := a.hw
  let n := v.toNat
  match r with
  | .LAN_LANE_CMD => s.laneCmd d u n
  | .LAN_LANE_CFG | .LAN_LANE_FREQ | .LAN_LANE_STAT | .LAN_PRBS_BITS_HI => s.ifOwn d u (s.writeReg a r v)
  | .LAN_PRBS_THRESH => s.ifOwn d u ((s.writeReg a r v).onLane d u fun x => { x with hit := false })
  | .LAN_LPBK => s.ifOwn d u (s.lpbkWrite d u (n % 4) (bitOf n 2))
  | .LAN_PRBS_CTRL => s.ifOwn d u (s.prbsCtrl d u v)
  | .LAN_QUAD_RATE_NEXT => s.pendWrite d (u + 2) a r v
  | .LAN_RCK0_CTRL => s.rckWrite d 0 v
  | .LAN_RCK1_CTRL => s.rckWrite d 1 v
  | .LAN_RCLK_OUT => (s.writeReg a r v).rclkSync
  | .PKT_Q_CFG => s.queueCfg d a.sel v
  | .PKT_PORT_PFC => (s.writeReg a r v).bufSync d
  | .PKT_Q_MIN | .PKT_PORT_HDRM => s.poolWrite (s.writeReg a r v) d
  | .PKT_Q_SCHED_NEXT | .PKT_GRP_NEXT => s.pendWrite d 14 a r v
  | .PKT_Q_CMD => s.queueCmd d a.sel v
  | .PKT_LKP_CMD => s.lkpWrite d v
  | .PKT_SPILL_BASE_LO | .PKT_SPILL_BASE_HI | .PKT_SPILL_SIZE => (s.writeReg a r v).spillSync d
  | .PKT_TOD_CTRL => s.todCtrl v
  | .PKT_TOD_INCR => s.todIncr v
  | .PKT_PPS_CFG => s.ppsWrite v
  | .CMP_JOB_GO => if bitOf n 0 then s.jobPost d else s
  | .CMP_JOB_CTRL => if bitOf n 0 then s.jobFlush d else s
  | _ => s.writeReg a r v

/-- A write of the registers of the MEM and PROT blocks whose fields do more than their access type says. -/
def State.memWrite (s : State) (a : At) (r : Reg) (v : Word) : State :=
  let p := unitOf a.die a.hw
  let e := engineOf a.die (a.sel / 16)
  let n := v.toNat
  match r with
  | .MEM_CXL_CTRL => s.cxlCtrl p v
  | .MEM_CXL_SIZE => s.cxlSize p v
  | .MEM_CXL_IOA => s.cxlIoGo p v
  | .MEM_DDR_CFG => s.ddrCfg p v
  | .MEM_DDR_CMD => s.ddrCmd p n
  | .MEM_DDR_MRW => s.ddrMode p v
  | .MEM_DDR_DLY => if a.sel / 16 % 8 = 7 then s else s.writeReg a r v
  | .MEM_DDR_TRN_CTRL => s.ddrTrnCtrl p n
  | .MEM_PCI_CTRL => if bitOf n 0 then s.pcieReenable else s
  | .MEM_HR_CFG => s.ringCfg a.sel v
  | .MEM_HR_STAT =>
    let s := s.writeReg a r v
    if bitOf n 30 then s.ringResume a.sel else s
  | .PROT_DEF => s.rightsWrite (engineOf a.die a.sel) none v
  | .PROT_RGN_RIGHTS => s.rightsWrite e (some (Fin.ofNat 16 a.sel)) v
  | .PROT_RGN_CFG => s.regionCfg e (a.sel % 16) v
  | .PROT_RGN_CMD => s.regionCmd e (a.sel % 16) v
  | .PROT_RGN_META_LO | .PROT_RGN_META_HI => if s.rgnSt e (a.sel % 16) < 3 then s.writeReg a r v else s
  | _ => s.writeReg a r v

/-- A write of the registers of the CLK, PWR, PMC, REC and MGT blocks whose fields do more than their access type says. -/
def State.houseWrite (s : State) (a : At) (r : Reg) (v : Word) : State :=
  let d := a.die
  let n := v.toNat
  match r with
  | .CLK_CTRL => s.clkCtrl v
  | .CLK_SRC_FREQ => if a.elem = 0 then s else s.writeReg a r v
  | .CLK_GATE => s.gateWrite d a.sel v
  | .PWR_PL_NEXT => s.pendWrite d 0 a r v
  | .PWR_PMB_CMD => s.pmbus v
  | .PMC_CTRL =>
    let s := s.writeReg a r v
    if bitOf n 1 then (List.range 64).foldl (fun t c => t.setPmc d c 0) s else s
  | .PMC_BW_CFG => s.bwCfg d a.sel v
  | .REC_NOTE_GO => s.noteGo v
  | .REC_FL_SLOT =>
    let s := s.writeReg a r v
    if bitOf n 31 then s.put a .REC_FL_SLOT_BUSY 1 else s
  | .MGT_CMD => s.calCommand (n / 2 ^ 24) (n % 4)
  | _ => s.writeReg a r v

/-- What a write of a register does (R12). -/
def State.regWrite (s : State) (a : At) (r : Reg) (v : Word) (icls : Nat) : State :=
  let v := if upperRsv r a.elem then v &&& 0xFFFF#32 else v
  match r.info.block with
  | .die | .stk | .cfg | .prc | .scr | .noc | .wld | .hmr | .dbg => s.coreWrite a r v icls
  | .lan | .pkt | .cmp => s.lineWrite a r v
  | .mem | .prot => s.memWrite a r v
  | .ecc | .evt | .clk | .pwr | .pmc | .fieldBook | .mgt => s.houseWrite a r v

/-! ### Reads -/

/-- The word made of one bit for each number that meets a test. -/
def wordWhere (n : Nat) (p : Nat → Bool) : Nat := (List.range n).foldl (fun w i => if p i then w + 2 ^ i else w) 0

/-- The voltage difference of an edge in mV (WLD_EDGE_STAT.DV). -/
def State.edgeDv (s : State) (e : Nat) : Nat :=
  let nom (d : Die) : Nat := s.get (atSel .e0 (coreRail d)) .PWR_RAIL_STAT_NOM
  if 10 < e then 0 else Nat.min 255 (apart (nom (edgeDies e).1) (nom (edgeDies e).2))

/-- WLD_SEAM_STAT of a group: what configuration memory sets reads 0 while the die is held in reset (R15, R181, R182). -/
def State.seamShown (s : State) (d : Die) (edge g : Nat) (w : Word) : Word :=
  let w := Fld.WLD_SEAM_STAT_CLAMPED.into w (natOf (s.seamClamped d edge g))
  if s.dieSt d = 1 then w
  else Fld.WLD_SEAM_STAT_DIR.into (Fld.WLD_SEAM_STAT_MODE.into w (natOf (s.seam d edge g).cfg.async)) (s.seamDir d edge g).toNat

/-- Whether a register belongs to a port number that its MAC mode does not use (R366). -/
def State.portBlank (s : State) (a : At) (r : Reg) : Bool :=
  r.info.block == .pkt && (if r.info.copies = 48 then !s.portUsed a.die a.hw
    else (r == .PKT_GRP || r == .PKT_GRP_NEXT) && !s.portUsed a.die a.sel)

/-- What a read of a register returns: the word it holds, with the fields that follow from the rest of the state. -/
def State.shown (s : State) (a : At) (r : Reg) : Word :=
  let d := a.die
  let w := s.reg a r
  if s.portBlank a r then 0
  else match r with
  | .STK_UNIT_STAT => Fld.STK_UNIT_STAT_RDY.into w (wordWhere 16 fun n => s.slotReady d n)
  | .STK_CHG_ARMED =>
    BitVec.ofNat 32 (wordWhere 32 fun i => s.armed (Die.ofIdx ((32 * a.elem + i) / 16)) ((32 * a.elem + i) % 16))
  | .WLD_SEAM_STAT => s.seamShown d (a.sel / 256) (a.sel % 256) w
  | .WLD_EDGE_STAT =>
    let w := Fld.WLD_EDGE_STAT_DV.into w (s.edgeDv a.sel)
    if s.up (edgeDies a.sel).1 && s.up (edgeDies a.sel).2 then w else Fld.WLD_EDGE_STAT_DT.into w 0
  | .SCR_CTRL => s.setting d 0
  | .SCR_ACTION => s.setting d 1
  | .SCR_LAP_LIMIT => s.setting d 2
  | .HMR_CORE_STAT => Fld.HMR_CORE_STAT_PC.into w (s.core d a.hw).pc.toNat
  | .PKT_PORT_STAT =>
    Fld.PKT_PORT_STAT_LINK.into (Fld.PKT_PORT_STAT_PREEMPT.into w (natOf (s.preempts d a.hw))) (natOf (s.portLink d a.hw))
  | .MEM_DDR_STAT => Fld.MEM_DDR_STAT_GIB.into w (s.ddrServed (unitOf d a.hw))
  | .MEM_DDR_DLY => if a.sel / 16 % 8 = 7 then 0 else w
  | .MEM_DDR_TRN_RES => s.ddrResult (unitOf d a.hw)
  | .MGT_ATTN => Fld.MGT_ATTN_LOW.into w (natOf s.attnLow)
  | .REC_SEQ_OLD => BitVec.ofNat 32 ((s.book.ring.getLast?).elim 0 BookRec.seq)
  | .REC_SEQ_NEW => BitVec.ofNat 32 ((s.book.ring.head?).elim 0 BookRec.seq)
  | .REC_OPSEC => BitVec.ofNat 32 s.book.opsec
  | .REC_PCYCLE => BitVec.ofNat 32 s.book.pcycle
  | .PMC_CNT_HI => BitVec.ofNat 32 (Tbl.get 0 s.pmcLatch (pmcLatchKey d a.sel 1))
  | .PKT_TOD_NS => BitVec.ofNat 32 s.todNs
  | _ => w

/-- A core's register through its debug window (R329): an open value while the core runs (DESIGN CHOICE, log entry 2). -/
def State.windowRead (s : State) (d : Die) (k : Nat) : State × Word :=
  let code := s.get (atUnit d k) .HMR_DBG_REG_IDX_CODE
  if s.cstate d k = 5 ∨ s.cstate d k = 0 then
    if 0x50 ≤ code ∧ code < 0x60 then let x := s.stackAt d k (code - 0x50); (x.1, x.2.setWidth 32)
    else (s, BitVec.ofNat 32 (s.debugGet d k code))
  else (s.used, BitVec.ofNat 32 (s.free 24))

/-- A read of a register, and what it clears or latches unless it is quiet (R12, R14, R406, R513, R533). -/
def State.regRead (s : State) (a : At) (r : Reg) (quiet : Bool) : State × Word :=
  let d := a.die
  match r with
  | .HMR_DBG_REG_DATA => s.windowRead d a.hw
  | .PMC_CNT_LO =>
    let t := s.pmcReadLo d a.sel
    (if quiet then s else t, t.answer)
  | .PKT_TOD_NS => (if quiet then s else s.todRead false, s.shown a r)
  | .PWR_RAIL_DIP => (s.dipRead a.sel quiet (s.get (atSel .e0 a.sel) .PWR_RAIL_STAT_MV), s.shown a r)
  | _ => (if quiet then s else s.readClears a r, s.shown a r)

/-! ### Accesses to the control space -/

/-- Whether a debug request finds the core of a guarded target running (R324). -/
def State.coreRuns (s : State) (d : Die) (k icls : Nat) : Bool := icls == 5 && s.cstate d k != 5 && s.cstate d k != 0

/-- Refuse a debug request of a running core: DENIED, counted as DBG_BUSY (R324). -/
def State.coreBusy (s : State) (d : Die) : State := s.bump (atDie d) .DBG_BUSY_CNT_COUNT 1

/-- Write a word at an offset of a die's control space: the state and the status (R9 to R12, R47). -/
def State.ctlWrite (s : State) (d : Die) (o : Nat) (v : Word) (icls : Nat) : State × Nat :=
  if !s.up d then (s, 4)
  else if o % 4 ≠ 0 then (s, 5)
  else match s.regAt d o with
  | none => (s, 0)
  | some (r, a) =>
    if r = .HMR_DBG_REG_DATA ∧ s.coreRuns d a.hw icls = true then (s.coreBusy d, 6) else (s.regWrite a r v icls, 0)

/-- The slot and word of the field-book ring window that an offset of E0 names (R544). -/
def ringWindow (o : Nat) : Option (Nat × Nat) :=
  if 0x12020000 ≤ o ∧ o < 0x12040000 then some ((o - 0x12020000) / 32, o % 32 / 4) else none

/-- Read a word at an offset of a die's control space: the state, the status and the word (R9 to R14, R47, R544). -/
def State.ctlRead (s : State) (d : Die) (o icls : Nat) : State × Nat × Word :=
  if !s.up d then (s, 4, 0)
  else if o % 4 ≠ 0 then (s, 5, 0)
  else match s.regAt d o with
  | none =>
    match if d = .e0 then ringWindow o else none with
    | some (slot, w) =>
      let t := s.ringRead slot w (icls == 5)
      (t, 0, t.answer)
    | none => (s, 0, 0)
  | some (r, a) =>
    if r = .HMR_DBG_REG_DATA ∧ s.coreRuns d a.hw icls = true then (s.coreBusy d, 6, 0)
    else
      let (t, w) := s.regRead a r (icls == 5)
      (t, 0, w)

/-- A write of a register of a die with its offset in the control space, by an initiator of a class. -/
def execRegisterWrite (die : Die) (offset value : Word) (icls : BitVec 3) (s : State) : Res :=
  let (t, st) := s.ctlWrite die offset.toNat value icls.toNat
  .next (t.setAnswerStatus st)

/-! ### Requests at their targets (R136, R138) -/

/-- A request at the control space: an atomic is performed at the register (R136); a write with partial byte enables is sent, and is answered
with DECODE here (R11, R138; DESIGN CHOICE, log entry 233). -/
def State.ctlServe (s : State) (r : NocReq) (d : Die) (o : Nat) : State :=
  let icls := r.icls.toNat
  if r.isAtomic then
    let (s, st, w) := s.ctlRead d o icls
    if st ≠ 0 then s.respond r st 0
    else
      let n := r.data.toNat
      let v := atomicNew (r.op.toNat - 16) 32 w.toNat (n % 2 ^ 32) (n / 2 ^ 64 % 2 ^ 32)
      let (s, st) := s.ctlWrite d o (BitVec.ofNat 32 v) icls
      s.respond r st w.toNat
  else if r.isWrite then
    if reqMask r ≠ 15 then s.respond r 5 0
    else
      let (s, st) := s.ctlWrite d o (r.data.setWidth 32) icls
      s.respond r st 0
  else if r.isRead then
    let (s, st, w) := s.ctlRead d o icls
    s.respond r st w.toNat
  else s.respond r 0 0

/-- Read the words of `count` slots of `width` bytes: the state, the bytes as a number, and whether a word was uncorrectable. -/
def State.slotsRead (s : State) (d : Die) (g width : Nat) (quiet : Bool) : Nat → Nat → State × Nat × Bool
  | _, 0 => (s, 0, false)
  | a, n + 1 =>
    let (t, v, bad) := s.slotRead d g a quiet
    let (u, rest, more) := State.slotsRead t d g width quiet (a + 1) n
    (u, v + rest * 2 ^ (8 * width), bad || more)

/-- Write the bytes of a slot whose bits are set in `mask`. A whole word takes matching check bits; a narrower write reads and merges,
and leaves the poison pattern where the old word was uncorrectable (R111, R489). `bytes` is how many bytes of the slot are stored. -/
def State.slotWrite (s : State) (d : Die) (g a bytes v mask : Nat) : State :=
  let mask := mask % 2 ^ bytes
  if mask = 0 then s
  else
    let s := if g = 4 then s.unreserve d a else s
    if mask = 2 ^ bytes - 1 then s.eccWrite d g a (v % 2 ^ (8 * bytes))
    else
      let (s, old, bad) := s.slotRead d g a false
      let s := (s.setEccData d g a (mergeBytes old v mask bytes)).setChk (Tbl.erase s.chk (eccKey d g a))
      if bad then s.setChk (Tbl.set s.chk (eccKey d g a) eccPoison) else s

/-- Write `count` slots of `width` bytes from a number and its byte enables. -/
def State.slotsWrite (s : State) (d : Die) (g width bytes : Nat) : Nat → Nat → Nat → Nat → State
  | _, _, _, 0 => s
  | a, v, mask, n + 1 =>
    State.slotsWrite (s.slotWrite d g a bytes (v % 2 ^ (8 * width)) (mask % 2 ^ width)) d g width bytes (a + 1) (v / 2 ^ (8 * width))
      (mask / 2 ^ width) n

/-- A request at an on-die memory (R43, R44, R136, R486): `a` is the word of its first byte, `width` the bytes of a slot and `bytes`
those that are stored. An uncorrectable word makes the whole read POISON. -/
def State.slotServe (s : State) (r : NocReq) (d : Die) (g a width bytes : Nat) : State :=
  let n := 2 ^ r.size.toNat
  let off := r.addr.toNat % width
  let count := (off + n + width - 1) / width
  let at_ (v : Nat) : Nat := v * 2 ^ (8 * off)
  if r.isAtomic then
    let (s, v, bad) := s.slotsRead d g width false a count
    let old := v / 2 ^ (8 * off) % 2 ^ (8 * n)
    let x := r.data.toNat
    let new := atomicNew (r.op.toNat - 16) (8 * n) old (x % 2 ^ (8 * n)) (x / 2 ^ 64 % 2 ^ (8 * n))
    if bad then s.respond r 1 0 else (s.slotsWrite d g width bytes a (at_ new) ((2 ^ n - 1) * 2 ^ off) count).respond r 0 old
  else if r.isWrite then
    (s.slotsWrite d g width bytes a (at_ (r.data.toNat % 2 ^ (8 * n))) (reqMask r * 2 ^ off) count).respond r 0 0
  else if r.isRead then
    let (s, v, bad) := s.slotsRead d g width (r.icls == 5) a count
    s.respond r (natOf bad) (if bad then 0 else v / 2 ^ (8 * off) % 2 ^ (8 * n))
  else s.respond r 0 0

/-- Who writes the configuration image window by a NoC request (R213). -/
def windowSrc (r : NocReq) : WinSrc :=
  if r.src.toNat = ident .e0 4 3 4 then (if r.icls = 7 then .management else if r.icls = 4 then .pcie else .other) else .other

/-- The runs of enabled bytes of a write, each with its first byte. -/
def byteRuns (v : Nat) : Nat → Nat → Nat → List (Nat × List Nat) → List (Nat × List Nat)
  | _, _, 0, l => l.reverse
  | i, mask, n + 1, l =>
    let b := v / 2 ^ (8 * i) % 256
    let l := if mask % 2 = 0 then l
      else match l with
        | (j, bs) :: t => if j + bs.length = i then (j, bs ++ [b]) :: t else (i, [b]) :: (j, bs) :: t
        | [] => [(i, [b])]
    byteRuns v (i + 1) (mask / 2) n l

/-- A request at the configuration image window: a read returns 0, and each run of enabled bytes is a write of R213. The completion of a
write that carries on the stream is held back until the master can take the data (R204, R213, R224). -/
def State.windowServe (s : State) (r : NocReq) (o : Nat) : State :=
  let n := 2 ^ r.size.toNat
  let pos := s.cfg.streamPos
  let s := if r.isWrite then
      (byteRuns r.data.toNat 0 (reqMask r) n []).foldl (fun s e => s.windowWrite (windowSrc r) (o + e.1) e.2) s
    else if r.isAtomic then s.windowWrite .other o []
    else s
  if s.streamHeld && pos != s.cfg.streamPos then s.onCfg fun c => { c with owed := c.owed ++ [r] } else s.respond r 0 0

/-- A request meets a fence in front of its target: FENCED, counted there (R159). -/
def State.fencedAnswer (s : State) (r : NocReq) (d : Die) : State := (s.bump (atDie d) .NOC_FENCE_CNT_SYNTH 1).respond r 3 0

/-- A request reaches its target. -/
def State.targetServe (s : State) (r : NocReq) (check : MemCheck) (t : Target) : State :=
  match t with
  | .control d o => s.ctlServe r d o
  | .localMem d k w =>
    if s.domFence d k ≠ 0 then s.fencedAnswer r d
    else if s.coreRuns d k r.icls.toNat then (s.coreBusy d).respond r 6 0
    else s.slotServe r d 2 (localEcc k w) 4 3
  | .program d k w =>
    if s.domFence d k ≠ 0 then s.fencedAnswer r d
    else if s.coreRuns d k r.icls.toNat then (s.coreBusy d).respond r 6 0
    else s.slotServe r d 3 (k * 2 ^ 15 + w) 4 4
  | .hearth d w => if s.domFence d 8 ≠ 0 then s.fencedAnswer r d else s.slotServe r d 4 w 4 3
  | .buffer d o => (s.defineRange (dieWindow d + o) (2 ^ r.size.toNat)).slotServe r d 8 (o / 8) 8 8
  | .port d q p _ =>
    if s.get (atDie d) (.NOC_FENCE_STAT_P q) ≠ 0 then s.fencedAnswer r d
    else if s.modeOf d q p = 2 ∨ s.modeOf d q p = 3 then s.portTake d q p r
    else s.respond r 5 0
  | .window o => s.windowServe r o
  | .cxl p _ => s.cxlRequest p r
  | .ddr c _ => s.ddrRequest c r check

/-- A request arrives at the endpoint of its target, which performs it and responds; `check` is what a DDR5 line's read finds, and `badEcc`
says that a word of its data is uncorrectable where it leaves the network: the transfer completes with POISON (R135). A debug access to a
die that is not UP completes with DIE_DOWN (R40). -/
def execNocTargetRequest (r : NocReq) (check : MemCheck) (badEcc : Bool) (s : State) : Res :=
  .next (if r.known then
    match reqTarget r with
    | none => s.respond r 5 0
    | some t =>
      if r.icls = 5 ∧ s.up t.die = false then s.respond r 4 0
      else if badEcc && r.takes then s.respond r 1 0
      else
      let n := 2 ^ r.size.toNat
      let s := if r.takes then s.bwCount t.die 0 t.ident n 1 else s
      (if r.brings then s.bwCount t.die 1 t.ident n 1 else s).targetServe r check t
  else s)

/-! ### The management port (R519 to R523) -/

/-- Whether a flash load is between steps 3 and 9 of R204. -/
def State.flashSteps (s : State) : Bool :=
  match s.cfg.phase with
  | .start => s.clk.locked && (s.cfg.source == 1 || s.cfg.source == 2 || (s.cfg.source == 0 && decide (s.get (atDie .e0) .CFG_SRC_MODE < 2)))
  | .header | .prepare | .setup | .reread | .table | .frames | .matched | .release => s.cfg.source == 1 || s.cfg.source == 2
  | _ => false

/-- Whether MGT_RDY is driven high (R521). -/
def State.mgtReady (s : State) : Bool :=
  s.clk.power != 0 && !s.flashSteps && !s.mgt.busy && !(s.mgt.burst && decide (64 ≤ s.mgt.burstHeld))

/-- A transaction is discarded and recorded: DROPPED or FRAME_ERR (R522). -/
def State.mgtDiscard (s : State) (dropped : Bool) : State :=
  (s.bump (atDie .e0) (if dropped then .MGT_STAT_DROPPED else .MGT_STAT_FRAME_ERR) 1).setMgt
    { s.mgt with dropped := dropped, frameErr := !dropped }

/-- Whether the island itself answers an offset of E0's control space before the datum PLL first locks (R516, R523). -/
def State.islandHolds (s : State) (o : Nat) : Bool :=
  let b := o / 2 ^ 24
  b == 0x14 || b == 0x12 || (b == 2 && decide (0x10 ≤ o % 2 ^ 24 ∧ o % 2 ^ 24 ≤ 0x18)) ||
    (s.clk.power == 2 && (b == 1 || o == 0x03000004))

/-- The request that a host port makes as an initiator of a class, from endpoint 4 of E0 in class H (R460, R520). -/
def State.hostReq (s : State) (icls : Nat) (write : Bool) (addr : Nat) (v : Word) : NocReq :=
  let id := ident .e0 4 3 4
  ⟨BitVec.ofNat 12 id, BitVec.ofNat 10 ((s.freeTag id).getD 0), 0, 1, if write then 8 else 0, 2, false, BitVec.ofNat 3 icls,
    BitVec.ofNat 48 addr, v.setWidth 512, if write then 15 else 0, 0, 0⟩

/-- The port makes an access: 0 WRITE, 1 READ, 2 BURST word. Until the datum PLL has locked, the island answers (R523). -/
def State.mgtAccess (s : State) (kind addr : Nat) (v : Word) : State :=
  if s.clk.locked then s.request (s.hostReq 7 (kind != 1) addr v) (.mgt kind)
  else match decodeAddr addr with
  | some (.control .e0 o) =>
    if !s.islandHolds o then s.mgtAnswer kind 4 0
    else if kind = 1 then
      let (s, st, w) := s.ctlRead .e0 o 7
      s.mgtAnswer kind st w.toNat
    else
      let (s, st) := s.ctlWrite .e0 o v 7
      s.mgtAnswer kind st 0
  | _ => s.mgtAnswer kind 4 0

/-- A transaction is accepted: DONE, FRAME_ERR and DROPPED clear (R519). -/
def State.mgtAccept (s : State) (burst : Bool) (addr : Nat) : State :=
  s.setMgt { s.mgt with
    done := false, frameErr := false, dropped := false, busy := !burst, burst := burst, burstAddr := addr, burstHeld := 0 }

/-- A WRITE or READ transaction of `bits` bits; `known` says that its opcode is one of R519. -/
def State.mgtSingle (s : State) (kind addr : Nat) (v : Word) (fits known : Bool) : State :=
  if s.clk.power = 0 ∨ s.mgt.burst = true then s
  else if !s.mgtReady then s.mgtDiscard true
  else if !(fits && known) then s.mgtDiscard false
  else (s.mgtAccept false 0).mgtAccess kind addr v

/-- A WRITE transaction (R520). -/
def execMgtWrite (addr : BitVec 48) (data : Word) (bits : BitVec 16) (known : Bool) (s : State) : Res :=
  .next (s.mgtSingle 0 addr.toNat data (bits == 88) known)

/-- A READ transaction (R520). -/
def execMgtRead (addr : BitVec 48) (bits : BitVec 16) (s : State) : Res := .next (s.mgtSingle 1 addr.toNat 0 (bits == 56) true)

/-- MGT_CS_N rises at the end of a BURST (R519, R521): its result is held once every word is answered. -/
def State.burstEnd (s : State) : State :=
  s.setMgt { s.mgt with burst := false, done := s.mgt.burstHeld == 0, busy := s.mgt.burstHeld != 0 }

/-- A BURST transaction begins (R521): `whole` says that its address was clocked in whole, and `ends` that MGT_CS_N rises then. -/
def execMgtBurst (addr : BitVec 48) (whole ends : Bool) (s : State) : Res :=
  .next (if s.clk.power = 0 ∨ s.mgt.burst = true then s
  else if !s.mgtReady then s.mgtDiscard true
  else if !whole then s.mgtDiscard false
  else
    let s := s.mgtAccept true addr.toNat
    if ends then s.burstEnd else s)

/-- A whole word of a BURST: written, or discarded where MGT_RDY is low; its address is used up either way (R521). -/
def State.burstWord (s : State) (v : Word) : State :=
  let addr := s.mgt.burstAddr
  let ready := s.mgtReady
  let s := s.setMgt { s.mgt with burstAddr := (addr + 4) % 2 ^ 48 }
  if ready then (s.setMgt { s.mgt with burstHeld := s.mgt.burstHeld + 1 }).mgtAccess 2 addr v
  else (s.bump (atDie .e0) .MGT_STAT_DROPPED 1).setMgt { s.mgt with dropped := true }

/-- A word of a BURST, of which `bits` bits are clocked in; `ends` says that MGT_CS_N rises after it. A BURST that ends within a word
loses that word (R522). -/
def execMgtBurstWord (value : Word) (bits : Fin 33) (ends : Bool) (s : State) : Res :=
  .next (if s.mgt.burst = false then s
  else
    let s := if bits = 32 then s.burstWord value
      else if bits = 0 then s
      else (s.bump (atDie .e0) .MGT_STAT_FRAME_ERR 1).setMgt { s.mgt with frameErr := true }
    if ends || bits != 32 then s.burstEnd else s)

/-- A RESULT transaction shifts out the status byte and the held data (R519). -/
def execMgtResult (s : State) : Res :=
  let m := s.mgt
  .next (if s.clk.power = 0 then s
  else
    let status := natOf m.done * 128 + natOf m.frameErr * 64 + natOf m.dropped * 32 + m.status % 16
    (s.setAnswer (BitVec.ofNat 32 m.data)).emit (.mgtResult status m.data))

/-! ### BAR0 (R459, R460) -/

/-- A host access to BAR0 at an offset, of `bytes` bytes. -/
def execBar0Access (write : Bool) (offset : BitVec 26) (bytes : BitVec 13) (value : Word) (s : State) : Res :=
  let o := offset.toNat
  .next (if s.pcie.linkUp = false then s
  else if bytes ≠ 4 ∨ o % 4 ≠ 0 then
    let s := s.bump (atDie .e0) .MEM_PCI_STAT_BAR_ERR 1
    if write then s else s.emit (.bar0 bytes.toNat (2 ^ (8 * bytes.toNat) - 1))
  else
    let addr := 0x3F0000000000 + o / 2 ^ 23 * 2 ^ 32 + o / 2 ^ 18 % 32 * 2 ^ 24 + o % 2 ^ 18
    s.request (s.hostReq 4 write addr value) (.bar0 write))

/-! ### Keys and the calibration set (R468, R469, R545) -/

/-- The random source of E0 draws the 24 keys: each is an open value (R468). -/
def State.keysDraw (s : State) : State :=
  (List.range 24).foldl (fun s k => (s.used).setKeyStore (Tbl.set s.keyStore k (BitVec.ofNat 256 (s.free 256)))) s

/-- The key store draws the keys and loads every engine, or fails its health test (R468, R469). -/
def State.keysLoad (s : State) (works : Bool) : State :=
  if works then s.keysDraw.put (atDie .e0) .PROT_KEY_STAT_LOADED 1
  else (s.put (atDie .e0) .PROT_KEY_STAT_FAIL 1).raise .e0 Ev.PROT_KEY_FAIL 0

/-- One pair of the user set is applied; a status but OKAY is counted. -/
def State.calPair (s : State) (p : Addr × Word) : State :=
  let (s, st) := match decodeAddr p.1.toNat with
    | some (.control d o) => s.ctlWrite d o p.2 7
    | _ => (s, 5)
  if st = 0 then s else s.bump (atDie .e0) .MGT_CAL_STAT_APPLY_ERR 1

/-- At step 3 of R204: the key store loads the keys (`keys` says whether its health test passed), and E0 reads the calibration
partition (`flash` says whether the flash responds; `copy` is the valid copy of highest generation). -/
def execCalibrationApply (flash keys : Bool) (copy : Option CalCopy) (s : State) : Res :=
  let e := atDie .e0
  .next (if s.clk.locked = false ∨ s.flag e .PROT_KEY_STAT_LOADED = true ∨ s.flag e .PROT_KEY_STAT_FAIL = true then s
  else
    let s := s.keysLoad keys
    match if flash then copy else none with
    | none =>
      (s.setCal ⟨255, 0, true, 0⟩).puts e [(.MGT_CAL_STAT_ACTIVE, 0), (.MGT_CAL_STAT_NEXT, 0), (.MGT_CAL_STAT_NOFLASH, natOf (!flash)),
        (.MGT_CAL_STAT_GEN, 0)]
    | some c =>
      let s := (s.setCal ⟨c.sector.toNat, c.gen.toNat, c.bench, 0⟩).puts e
        [(.MGT_CAL_STAT_ACTIVE, natOf (!c.bench)), (.MGT_CAL_STAT_NEXT, natOf (!c.bench)), (.MGT_CAL_STAT_GEN, c.gen.toNat)]
      if c.bench then s else c.pairs.foldl (fun s p => s.calPair p) s)

/-! ### The PRBS checker (R359) -/

/-- The checker has received 64 error-free bits: it is in SYNC and counts. -/
def execPrbsCheckerSync (die : PDie) (lane : Fin 48) (s : State) : Res :=
  let a := atUnit die.die lane
  .next (if s.laneOwn die.die lane && s.flag a .LAN_PRBS_CTRL_CHK_EN then s.put a .LAN_PRBS_BITS_HI_SYNC 1 else s)

/-- A live count reaches its greatest value (`errors`: that of the errors), and both stop. -/
def execPrbsCountSaturated (die : PDie) (lane : Fin 48) (errors : Bool) (s : State) : Res :=
  let d := die.die
  let a := atUnit d lane
  let x := s.lane d lane
  .next (if !s.laneOwn d lane || !s.flag a .LAN_PRBS_CTRL_CHK_EN || !s.flag a .LAN_PRBS_BITS_HI_SYNC then s
  else if x.errs = 2 ^ 32 - 1 ∨ x.bits = 2 ^ 48 - 1 then s
  else if errors then
    let rise := s.get a .LAN_PRBS_THRESH_THRESH != 0 && !x.hit
    let s := s.onLane d lane fun x => { x with errs := 2 ^ 32 - 1, hit := x.hit || rise }
    if rise then s.raise d (448 + lane) (2 ^ 32 - 1) else s
  else s.onLane d lane fun x => { x with bits := 2 ^ 48 - 1 })

end Sys2Proof.Machine
end

