-- ==== Sys2Proof/Machine/Masters.lean ====
section
/-! DEFINITION. The NoC accesses of the packet engines, the compression engines and the host rings, and what runs by them: bulk records,
delivery rings, cross-die moves and compression jobs (chapters 13, 15 and 16); and the scrubbers of the on-die memories (R488). -/

namespace Sys2Proof.Machine

/-! ### Accesses -/

/-- An engine of the part accesses a NoC address (R136 to R138): refused on its way, or performed by its target. The answer is the status and
the data. `status` other than OKAY is what comes back from the network or the target; where the target answers in a later step, `late` is the
data that it brings, open where the command gives none (DESIGN CHOICE, log entry 246). -/
def State.engineAccess (s : State) (r : NocReq) (status : Nat) (late : Option Nat) : State × Nat × Nat :=
  match reqTarget r with
  | none => (s, 5, 0)
  | some t =>
    let r := { r with tgt := BitVec.ofNat 12 t.ident }
    match s.refusal r t with
    | some (some d, st) => (s.bump (atDie d) .NOC_FENCE_CNT_SYNTH 1, st, 0)
    | some (none, st) => (s, st, 0)
    | none =>
      let src := r.src.toNat
      let n := 2 ^ r.size.toNat
      let s := s.emit (.request r)
      if status ≠ 0 then (s, status, 0)
      else
        let s := if r.takes then (s.bwCount (idDie src) 1 src n 1).bwCount t.die 0 t.ident n 1
          else (s.bwCount t.die 1 t.ident n 1).bwCount (idDie src) 0 src n 1
        let u := s.targetServe r .good t
        let u := match t with
          | .cxl p _ => u.cxlResponse p src r.tag.toNat .good
          | _ => u
        match u.answered s.sent.length r, late with
        | some a, _ => (u, a)
        | none, some v => (u, 0, v)
        | none, none => (u.used, 0, u.free 512)

/-- The size code of an engine's next access: naturally aligned, from 4 bytes to a line, within the `n` bytes that are left, and 4 bytes in the
control space, which takes no other (R136, R138; DESIGN CHOICE, log entry 246). -/
def spanSize (a n : Nat) : Nat :=
  match decodeAddr a with
  | some (.control _ _) => 2
  | _ => ([6, 5, 4, 3].find? fun k => a % 2 ^ k == 0 && decide (2 ^ k ≤ n)).getD 2

/-- The accesses of `n` bytes from an address: address, size code and bytes. The first argument bounds them. -/
def spans : Nat → Nat → Nat → List (Nat × Nat × Nat)
  | 0, _, _ => []
  | k + 1, a, n =>
    if n = 0 then []
    else
      let z := spanSize a n
      (a, z, Nat.min n (2 ^ z)) :: spans k (a + 2 ^ z) (n - 2 ^ z)

/-- An engine reads bytes, up to the first answer other than OKAY: the bytes read, and that status. -/
def State.engineRead (src icls cls : Nat) : List (Nat × Nat × Nat) → State → List Nat → State × List Nat × Nat
  | [], s, l => (s, l, 0)
  | (a, z, n) :: t, s, l =>
    let (s, st, v) := s.engineAccess (engineReq src icls cls false a z 0 0) 0 none
    if st ≠ 0 then (s, l, st) else State.engineRead src icls cls t s (l ++ bytesLE v n)

/-- An engine writes bytes, up to the first answer other than OKAY: how many it has written, and that status. -/
def State.engineWrite (src icls cls : Nat) : List (Nat × Nat × Nat) → State → List Nat → Nat → State × Nat × Nat
  | [], s, _, k => (s, k, 0)
  | (a, z, n) :: t, s, l, k =>
    let (s, st, _) := s.engineAccess (engineReq src icls cls true a z (ofBytesLE (l.take n)) (2 ^ n - 1)) 0 none
    if st ≠ 0 then (s, k, st) else State.engineWrite src icls cls t s (l.drop n) (k + n)

/-! ### Bulk records (R382, R383) -/

/-- One record of a BULK, with its result (R382): 6 BAD_OP for another op. `abort` is as for a single command. -/
def State.bulkOne (s : State) (d : Die) (record : Nat) (abort : Option Nat) : State × Nat :=
  let key := record % 2 ^ 256
  let result := record / 2 ^ 256 % 2 ^ 64
  match record / 2 ^ 320 % 256 with
  | 1 => s.lkpInsert d key result abort
  | 2 => s.lkpDelete d key abort
  | 3 => s.lkpModify d key result abort
  | _ => (s, if abort = some 0 then 2 else 6)

/-- A record of a BULK is read over the NoC, from PKT_LKP_BULK_ADDR on, with ICLS 3, in a class that is not stated (R382; DESIGN CHOICE, log
entry 246). -/
def State.bulkRead (s : State) (d : Die) (done status record : Nat) : State × Nat × Nat :=
  let base := s.get (atDie d) .PKT_LKP_BULK_ADDR_LO_ADDR + s.get (atDie d) .PKT_LKP_BULK_ADDR_HI_ADDR * 2 ^ 32
  let r := engineReq (s.pktMaster d) 3 (1 + s.free 5 / 8 % 3) false (base + 64 * done) 6 0 0
  (s.used).engineAccess r status (some record)

/-- The next record of a BULK (R382): a status other than OKAY ends the BULK with NOC_ERR. An ABORT before the record's entry is written stops it there, with the
moves that an INSERT has made; one that comes later stops before the next record, and is late after the last (R383). -/
def State.bulkRecord (s : State) (d : Die) (status record : Nat) (abort : Option Nat) : State :=
  let a := atDie d
  let done := s.get a .PKT_LKP_DONE_DONE_CNT
  let last := done + 1 = s.get a .PKT_LKP_BULK_CNT_COUNT
  if !s.flag a .PKT_LKP_STAT_BUSY then s
  else if abort = some 0 then s.bulkEnd d 2 false
  else
    let (s, st, v) := s.bulkRead d done status record
    if st ≠ 0 then s.bulkEnd d 7 false
    else
      let (t, r) := s.bulkOne d v abort
      if r ≠ 1 then t.bulkEnd d r false
      else
        let t := t.put a .PKT_LKP_DONE_DONE_CNT (done + 1)
        if last then t.bulkEnd d 1 abort.isSome
        else if abort.isSome then t.bulkEnd d 2 false
        else t

/-- A bulk record arrives. -/
def execBulkRecord (die : PDie) (status : BitVec 4) (record : BitVec 512) (abort : Option (Fin 5)) (s : State) : Res :=
  .next (s.bulkRecord die.die status.toNat record.toNat (abort.map fun n => n.val))

/-! ### Delivery rings (R397) -/

/-- The data and the byte enables of one line of a ring: WORD24 puts three bytes into each 32-bit slot. -/
def ringWords (word24 : Bool) (l : List Nat) : Nat × Nat :=
  if word24 then
    (pieces 3 16 l).foldr (fun b n => (ofBytesLE b + 2 ^ 32 * n.1, 2 ^ b.length - 1 + 16 * n.2)) (0, 0)
  else (ofBytesLE l, 2 ^ l.length - 1)

/-- The packet engine writes one line of a ring, with ICLS 3 in the ring's class; a class of 0 acts as 1. The answer is its status. -/
def State.ringLine (s : State) (d : Die) (ring addr : Nat) (l : List Nat) (status : Nat) : State × Nat :=
  let r := atSel d ring
  let w := ringWords (s.flag r .PKT_DRING_CFG_FORMAT) l
  let req := engineReq (s.pktMaster d) 3 (Nat.max 1 (s.get r .PKT_DRING_CFG_CLS)) true addr 6 w.1 w.2
  let (s, st, _) := (s.used).engineAccess req status none
  (s, st)

/-- The lines of a frame are written to a ring, from a line of it on, each with the status that the command brings for it. -/
def State.ringLines (s : State) (d : Die) (ring base size from_ : Nat) (lines : List (List Nat)) (answers : List Nat) : State × List Nat :=
  (lines.zipIdx).foldl (fun x e =>
    let w := x.1.ringLine d ring (base + (from_ + e.2) % size * 64) e.1 (answers.getD e.2 0)
    (w.1, x.2 ++ [w.2])) (s, [])

/-- A frame is written to its delivery ring. -/
def State.ringFrame (s : State) (d : Die) (ring q : Nat) (answers : List Nat) (bad : Bool) : State :=
  let r := atSel d ring
  let a := atSel d q
  let lg := s.get r .PKT_DRING_CFG_LOG2_SIZE
  let size := 2 ^ (if 6 ≤ lg ∧ lg ≤ 20 then lg else 6)
  let word24 := s.flag r .PKT_DRING_CFG_FORMAT
  let head := s.get r .PKT_DRING_HEAD_LINE
  let tail := s.get r .PKT_DRING_TAIL_LINE
  match (s.queue d q).frames with
  | [] => s
  | f :: _ =>
    let seq := Tbl.get 0 (s.engine d).seqs ring
    let n := (64 + f.bytes.length + (if word24 then 47 else 63)) / (if word24 then 48 else 64)
    if s.get a .PKT_Q_CFG_DTYPE ≠ 1 ∨ s.get a .PKT_Q_CFG_DEST ≠ ring ∨ s.flag r .PKT_DRING_CFG_EN = false ∨ s.flushes d q = true ∨
        (tail + 2 * size - head - 1) % size < n then s
    else
      let (s, f, lost) := s.unspill d f
      let s := s.bufferUe d bad
      if bad || lost then (s.takeHead d q).bump r .PKT_DRING_CNT_ERR 1
      else
        let base := s.get r .PKT_DRING_BASE_LO_BASE + s.get r .PKT_DRING_BASE_HI_BASE * 2 ^ 32
        let lines := pieces (if word24 then 48 else 64) 400 (deliveryDescriptor f q seq ++ f.bytes)
        let (s, sts) := s.ringLines d ring base size head lines answers
        let s := s.takeHead d q
        match sts.find? fun x => x != 0 with
        | some st => (s.bump r .PKT_DRING_CNT_ERR 1).raise d Ev.PKT_DRING_ERR (ring + st * 2 ^ 16)
        | none =>
          let s := s.onEngine d fun e => { e with seqs := Tbl.set e.seqs ring ((seq + 1) % 2 ^ 32) }
          s.put r .PKT_DRING_HEAD_LINE ((head + n) % size)

/-- A frame of a delivery ring's queue is written. -/
def execDeliveryRingFrame (die : PDie) (ring : BitVec 10) (queue : BitVec 16) (answers : List (BitVec 4)) (bad : Bool) (s : State) : Res :=
  .next (s.ringFrame die.die ring.toNat queue.toNat (answers.map BitVec.toNat) bad)

/-! ### Cross-die moves (R399) -/

/-- A packet engine master writes a frame to the other die's buffer, in the class of its target queue (R399). -/
def State.moveWrite (s : State) (d o : Die) (q : Nat) (f : QFrame) : State × Nat :=
  s.used.frameAccess (s.pktMaster d) 3 (s.get (atSel o q) .PKT_Q_CFG_CLS) true o (pieces 64 f.cells f.bytes)

/-- A frame moved to the other port die is offered to its queue there (R399); one whose writes a fence refuses is dropped as where its target
die is not UP (DESIGN CHOICE, log entry 246). -/
def execCrossDieMove (die : PDie) (rate : Bool) (s : State) : Res :=
  let d := die.die
  let o := Die.ofIdx (1 - d.idx)
  .next (match (s.engine d).moves with
  | [] => s
  | (f, q) :: t =>
    let (s, st) := if s.up o then s.moveWrite d o q f else (s, 4)
    let s := ((s.onEngine d fun e => { e with moves := t }).bufSync d).xon d f
    if st = 0 then s.offer o q f (cellsOf f.bytes.length) rate else s.bump (atDie d) .PKT_XDIE_DROP_COUNT 1)

/-! ### Compression jobs (R430 to R433) -/

/-- The bytes of `b` blocks as a profile's engine reads them, and as it writes them (R431). -/
def CmpProf.srcBytes (p : CmpProf) (b : Nat) : Nat := if p.expand then (b * blockBits p + 7) / 8 else b * p.count * compBytes p

/-- The whole blocks that lie in `n` bytes of a job's source. -/
def CmpProf.srcBlocks (p : CmpProf) (n : Nat) : Nat := if p.expand then 8 * n / blockBits p else n / (p.count * compBytes p)

/-- The blocks of which `n` bytes of a job's result are made. -/
def CmpProf.dstBlocks (p : CmpProf) (n : Nat) : Nat :=
  if p.expand then (n + p.count * compBytes p - 1) / (p.count * compBytes p) else (8 * n + blockBits p - 1) / blockBits p

/-- What a job writes, and the exponents that its blocks hold above e_max. -/
def jobOut (p : CmpProf) (b : Nat) (src : List Nat) : List Nat × List Nat :=
  if p.expand then expandBytes p b src else (compressBytes p b src, [])

/-- A job has read `b` blocks: it writes `n` bytes of what it makes of them, or up to the answer that ends it, and counts the blocks (R431 to
R433). -/
def State.jobPut (s : State) (d : Die) (j : CmpJob) (status b n : Nat) (out : List Nat × List Nat) : State :=
  let post := j.post.getD 4 0
  let (s, k, st) := State.engineWrite (ident d 3 3 3) 6 (Nat.max 1 (bitsOf post 29 2)) (spans (n + 1) j.dst n) s out.1 0
  let s := s.cmpBlocks d (bitsOf post 24 5) b out.2
  s.jobEnd d j (if st = 0 then status else st) k

/-- A job runs to its end, or to the first response other than OKAY: what it has written stays written (R431, R432). It reads and writes in its
class, 0 acting as 1, with ICLS 6 and ALLOC = 0. Where `status` ends it after `written` bytes, it has read the blocks of which those are made;
where a read ends it, it writes what it has read whole (DESIGN CHOICE, log entry 246). -/
def State.jobRun (s : State) (d : Die) (status written : Nat) : State :=
  match (s.engine d).jobs, (s.engine d).jobRuns with
  | j :: _, true =>
    if s.gated d 12 then s
    else
      let p := profOf j.cfg false
      let b := if status = 0 then j.blocks else Nat.min j.blocks (p.dstBlocks written)
      let size := p.srcBytes b
      let (s, l, st) := State.engineRead (ident d 3 3 3) 6 (Nat.max 1 (bitsOf (j.post.getD 4 0) 29 2)) (spans (size + 1) j.src size) s []
      if st = 0 then
        let out := jobOut p b l
        s.jobPut d j status b (if status = 0 then out.1.length else Nat.min written out.1.length) out
      else
        let b := p.srcBlocks l.length
        let out := jobOut p b l
        s.jobPut d j st b out.1.length out
  | _, _ => s

/-- The running job ends. -/
def execCmpJobEnd (die : PDie) (status : BitVec 4) (written : BitVec 32) (s : State) : Res :=
  .next (s.jobRun die.die status.toNat written.toNat)

/-! ### The scrubbers of the on-die memories (R488) -/

/-- What an uncorrectable word that a scrubber finds does (R486): a lookup entry is emptied, a cached line is poisoned, a directory's set is
flushed, and metadata of a protected region fails. Elsewhere the word fails when it is next read. -/
def State.scrubBad (s : State) (d : Die) (g a : Nat) : State :=
  match g with
  | 1 => match s.net.cells.find? fun e => e.1 == d.idx * 2 ^ 19 + a / 8 with
    | some (_, line) =>
      let s := if s.dcLine d line = 3 ∧ s.free 1 = 1 then s.poisonHeld line d.idx else s
      (s.used).setSick (dcKey d line) true
    | none => s
  | 9 => ((s.setLkp (Tbl.erase s.lkp (d.idx * 2 ^ 19 + a))).eccMend d 9 a).lkpOcc d
  | 10 => s.dirBad d (a / 16 * 16)
  | 11 =>
    let e := bufEngine d a
    match (s.prot e).cells.find? fun x => x.1 == a % 2 ^ 14 / 8 with
    | some (_, line) => if (s.regionAt e (line * 64)).isSome then s else s.bufBad e line
    | none => s
  | _ => s

/-- A word that a scrubber skips: of a die that is not UP, or of a block RAM whose parcel is in reset or gated (R488). -/
def State.scrubSkips (s : State) (d : Die) (g a : Nat) : Bool :=
  !s.up d || (g == 0 && decide (s.stageOf d (bramParcel (a / 1024)) = 0))

/-- The background scrubber of a group reads its next word and writes a correction back (R488). A word of the unit for which a test is armed
is passed over (DESIGN CHOICE, log entry 252), and the scrubber stops at SCRUB = 0. `lap` is the time of the lap in µs, used where the lap ends. -/
def execEccScrubStep (die : Die) (group : Fin 16) (lap : BitVec 16) (s : State) : Res :=
  let a := Tbl.get 0 s.eccScrub (die.idx * 16 + group)
  .next (if eccOn die group && s.flag (atSel die group) .ECC_GRP_CTRL_SCRUB then
    let (v, k) := if s.scrubSkips die group a || s.eccTest die group a 0 || s.eccTest die group a 1 then (0, EccVerdict.clean) else s.eccCheck die group a
    let s := s.eccFound die group a k
    let s := match k with
      | .clean => s
      | .corrected => (s.setEccData die group a v).setChk (Tbl.erase s.chk (eccKey die group a))
      | .uncorrectable => s.scrubBad die group a
    if a + 1 < eccSize group then s.setEccScrub (Tbl.set s.eccScrub (die.idx * 16 + group) (a + 1))
    else
      let s := s.setEccScrub (Tbl.set s.eccScrub (die.idx * 16 + group) 0)
      s.puts (atSel die group) [(.ECC_GRP_LAP_LAST, lap.toNat),
        (.ECC_GRP_LAP_MAX, Nat.max (s.get (atSel die group) .ECC_GRP_LAP_MAX) lap.toNat)]
  else s)

end Sys2Proof.Machine
end

