-- ==== Sys2Proof/Machine/Pins.lean ====
section
/-! DEFINITION. What the pins of the package show (R200, R201, R210, R211, R220, R524): a reading of the state, which no command calls. -/

namespace Sys2Proof.Machine

/-- A pin or pin group of R211. -/
inductive PackagePin where
  | userIo (die : FDie) (n : Nat)
  | laneTx (die : PDie) (lane : Fin 48)
  | laneRx (die : PDie) (lane : Fin 48)
  | ddrReset (ch : Fin 4)
  | ddrOther (ch : Fin 4)
  | ppsOut
  | rclkOut (second : Bool)
  | cfgDone
  | cfgErrN
  | attnN
  | cfgClk
  | cfgCsN
  | cfgDq
  | mgtRdy
  | mgtMiso
  | tdo
  deriving DecidableEq, Repr

/-- What a pin shows: a driven level, high impedance with a pull, electrical idle or a receiver that is off, or what its function does. -/
inductive PinState where
  | driven (high : Bool)
  | highZ (pull : Config.PinPull)
  | idle
  | active
  deriving DecidableEq, Repr

/-- An open-drain pin. -/
def openDrain (low : Bool) : PinState := if low then .driven false else .highZ .none

/-- Whether a lane's receiver is off (R211, R339). -/
def State.laneDeaf (s : State) (d : Die) (l : Nat) : Bool := s.pinsIdle d || decide (s.laneSt d l ≤ 1)

/-- Whether a lane of a negotiating port waits for the one that runs Clause 73 (R347). -/
def State.laneWaits (s : State) (d : Die) (l : Nat) : Bool :=
  s.laneSt d l == 3 && !s.leads d l && (s.portLanes d l).head?.any fun m => s.get (atUnit d m) .LAN_LANE_STAT_PROTO == 1

/-- Whether a near-end loopback keeps a lane's transmit pins at electrical idle (R360). -/
def State.laneMuted (s : State) (d : Die) (l : Nat) : Bool :=
  s.looped d l == 2 || (s.looped d l == 1 && s.flag (atUnit d l) .LAN_LPBK_TX_MUTE)

/-- Whether a lane of the CXL or PCIe role is at electrical idle: after a planned or safe removal, or while the outputs are safe (R443, R445). -/
def State.externQuiet (s : State) (d : Die) (l : Nat) : Bool :=
  s.laneSt d l == 11 && match s.laneRole d l with
    | 1 =>
      let a := atUnit d (l / 8)
      s.flag a .MEM_CXL_STAT_TX_SAFE || (s.get a .MEM_CXL_STAT_STATE == 4 && s.get a .MEM_CXL_STAT_CAUSE != 0)
    | _ => s.flag (atDie .e0) .MEM_PCI_STAT_TX_SAFE

/-- Whether a lane's transmitter is at electrical idle (R211, R339, R347, R353, R356, R360, R443, R445). -/
def State.laneQuiet (s : State) (d : Die) (l : Nat) : Bool :=
  s.laneDeaf d l || s.laneWaits d l || s.laneMuted d l || (s.laneSt d l == 7 && !(s.lane d l).awake) || s.laneSt d l == 10 ||
    s.flag (atUnit d l) .LAN_LANE_STAT_TX_SAFE || s.externQuiet d l

/-- Whether the master is in a flash phase (R203, R211). -/
def State.flashPhase (s : State) : Bool :=
  (s.cfg.source == 1 || s.cfg.source == 2) &&
    match s.cfg.phase with
    | .header | .setup | .reread | .table | .frames => true
    | _ => false

/-- What EXTEST drives at a pin of the package, else what its function shows. -/
def State.pinOr (s : State) (pin : Nat) (x : PinState) : PinState :=
  match s.scanned pin 1 with
  | some v => .driven v
  | none => x

/-- What a pin shows (R200, R201, R211, R212; DEDUCED, log entry 202, for the reset of a DDR5 channel and MGT_MISO). TDO is at high impedance
between scans, as IEEE 1149.1 has it (PRESUMED, log entry 24). -/
def State.pinState (s : State) : PackagePin → PinState
  | .userIo d n =>
    match s.pinDrive d.die n with
    | some v => .driven v
    | none => .highZ (s.pinPull d.die n)
  | .laneTx d l => if s.laneQuiet d.die l then .idle else .active
  | .laneRx d l => if s.laneDeaf d.die l then .idle else .active
  | .ddrReset ch => if s.pinsIdle (homeDie ch) || (s.ddrSt ch == 1 && !(s.ddrCh ch).init) then .driven false else .active
  | .ddrOther ch => if s.pinsIdle (homeDie ch) then .highZ .none else .active
  | .ppsOut => s.pinOr 0 (.driven s.pins.ppsOut)
  | .rclkOut n => s.pinOr (1 + natOf n) (.driven (if n then s.pins.rclk1 else s.pins.rclk0))
  | .cfgDone => .driven s.pins.cfgDone
  | .cfgErrN => openDrain s.pins.cfgErrLow
  | .attnN => s.pinOr 3 (openDrain s.attnLow)
  | .cfgClk => if s.flashPhase then .active else .driven false
  | .cfgCsN => if s.flashPhase then .active else .driven true
  | .cfgDq => if s.flashPhase then .active else .highZ .none
  | .mgtRdy => s.pinOr 4 (.driven s.mgtReady)
  | .mgtMiso => s.pinOr 5 (if s.mgt.burst then .active else .highZ .none)
  | .tdo => .highZ .none

/-! ### What the host reads of the endpoint (R459) -/

/-- What a host read of a word of BAR4 finds: a ring's TAIL and HEAD, and the pending bits. No row writes an entry of the MSI-X table, so the
model holds none of its words: they read as open values (DESIGN CHOICE, log entry 253). -/
def State.bar4Shown (s : State) (o : Nat) : Nat :=
  if o < 0x40000 then
    match o % 0x40 with
    | 0 => s.get (hrAt (o / 0x40)) .MEM_HR_PTR_TAIL
    | 4 => s.get (hrAt (o / 0x40)) .MEM_HR_PTR_HEAD
    | _ => 0
  else if o < 0x48000 then s.free 32
  else if o < 0x48100 then wordWhere 32 fun i => s.pcie.msixPend.contains ((o - 0x48000) / 4 * 32 + i)
  else 0

/-- What a host read of BAR2 finds. -/
def bar2Shown : Nat := 0

/-- The Device ID and the class code of the endpoint's function (R457). -/
def pcieIds : Nat × Nat := (0x0880, 0x120000)

end Sys2Proof.Machine
end

