-- ==== Sys2Proof/Machine/RawLanes.lean ====
section
/-! DEFINITION. Raw lanes over their seam groups, and the clock edges of the fabric that move both (R70 to R79, R94 to R98, R181 to R187,
R361, R362; rows 223 to 225 and 370). -/

namespace Sys2Proof.Machine

/-! ### Raw lanes (R361, R362) -/

/-- LAN_RAW_FIFO, at most once a millisecond for a lane. -/
def State.rawEvent (s : State) (d : Die) (l what : Nat) : State :=
  let key := 4096 + d.idx * 48 + l
  if s.onceBusy key then s else (s.onceStart key).raise d Ev.LAN_RAW_FIFO (l + what * 2 ^ 8)

/-- A raw word leaves by the serializer. -/
def State.rawSend (s : State) (d : Die) (l : Nat) (w : BitVec 128) (fill : Bool) : State :=
  s.emit (.rawSent d.idx l w fill (levelsOf (s.pam4 d l) (bitsFrom w.toNat (if s.w120 d l then 120 else 128))))

/-- A word of a raw lane's width. -/
def State.rawWord (s : State) (d : Die) (l : Nat) (w : BitVec 128) : BitVec 128 := if s.w120 d l then (w <<< 8) >>> 8 else w

/-- The edge of a raw lane's seam groups, and l of its groups 2l, 2l + 1 and 48 + l (R187). -/
def rawSeam (d : Die) (l : Nat) : Nat × Nat :=
  ((if d = .e0 then (if l < 24 then 1 else 0) else if l < 24 then 10 else 9), l % 24)

/-- What the port-die end of a raw lane launches to the fabric: the received word, if one is new, and VALID, TX_READY, UP and SIGDET, on the
receive group, or in W128 on its sideband group (R361). -/
def State.rawLaunch (s : State) (d : Die) (l : Nat) (word : Option (BitVec 128)) : State :=
  let (e, g) := rawSeam d l
  let flags := natOf word.isSome + natOf (decide ((s.lane d l).tx.length ≤ 48)) * 2 + natOf (s.laneSt d l == 5) * 4 +
    natOf (s.flag (atUnit d l) .LAN_LANE_STAT_SIGDET) * 8
  let w := word.getD 0
  if s.w120 d l then s.seamLaunch d e (2 * g) (BitVec.ofNat 128 (w.toNat % 2 ^ 120 + flags * 2 ^ 120))
  else (s.seamLaunch d e (2 * g) w).seamLaunch d e (48 + g) (BitVec.ofNat 128 flags)

/-- A fabric cycle of a raw lane: it gives a received word to the fabric, and may take one to send. A lane that does not carry words gives
none (R362). -/
def State.rawCycle (s : State) (d : Die) (l : Nat) (word : Option (BitVec 128)) : State :=
  if s.laneRole d l != 3 then s
  else if !s.rawOn d l then s.rawLaunch d l none
  else
    let s := match (s.lane d l).rx with
      | [] => s.rawLaunch d l none
      | w :: rest => ((s.onLane d l fun x => { x with rx := rest }).emit (.rawToFabric d.idx l w)).rawLaunch d l (some w)
    match word with
    | none => s
    | some w =>
      if (s.lane d l).tx.length < 64 then s.onLane d l fun x => { x with tx := x.tx ++ [s.rawWord d l w] }
      else (s.bump (atUnit d l) .LAN_RAW_CNT_OVERFLOW 1).rawEvent d l 1

/-- The fabric offers a raw word to the transmit FIFO, or only takes a received one. -/
def execRawWordFromFabric (die : PDie) (lane : Fin 48) (word : Option (BitVec 128)) (s : State) : Res :=
  .next (s.rawCycle die.die lane word)

/-- The port-die end of a raw lane on an edge of its transmit group's clock: it captures, and acts on what its capture registers present
(R185, R361). -/
def State.rawEdge (s : State) (d : Die) (l : Nat) : State :=
  let (e, g) := rawSeam d l
  let s := s.seamCapture d e (2 * g + 1)
  let s := if s.w120 d l then s else s.seamCapture d e (48 + g)
  let valid := if s.w120 d l then s.seamBit d e (2 * g + 1) 120 else s.seamBit d e (48 + g) 32
  s.rawCycle d l (if valid then some (BitVec.ofNat 128 (nodeNum (s.seamBit d e (2 * g + 1)) 0 128)) else none)

/-- A received word enters its FIFO, or is dropped. -/
def State.rawTake (s : State) (d : Die) (l : Nat) (word : BitVec 128) : State :=
  if (s.lane d l).rx.length < 64 then s.onLane d l fun x => { x with rx := x.rx ++ [s.rawWord d l word] }
  else (s.bump (atUnit d l) .LAN_RAW_CNT_OVERFLOW 1).rawEvent d l 1

/-- A word comes from the line: to the FIFO, or in a far-end loopback back to the transmitter. A near-end loopback takes the lane's own data
in its place (R360). -/
def execRawWordReceived (die : PDie) (lane : Fin 48) (word : BitVec 128) (s : State) : Res :=
  let d := die.die
  .next (if s.laneRole d lane != 3 then s
  else if s.laneSt d lane = 5 then s.rawTake d lane word
  else if s.looped d lane = 3 then s.rawSend d lane (s.rawWord d lane word) false
  else s)

/-- A word leaves the serializer: to the pins, or in a near-end serial loopback to the lane's own receiver, and to the pins too where they
are not muted (R360). -/
def State.rawOut (s : State) (d : Die) (l : Nat) (w : BitVec 128) (fill : Bool) : State :=
  if s.looped d l = 1 then
    (if s.flag (atUnit d l) .LAN_LPBK_TX_MUTE then s else s.rawSend d l w fill).rawTake d l w
  else s.rawSend d l w fill

/-- Whether a raw lane in LOWPOWER sends data, after its wake burst (R353). -/
def State.rawAwake (s : State) (d : Die) (l : Nat) : Bool := s.laneRole d l == 3 && s.laneSt d l == 7 && (s.lane d l).awake

/-- The serializer needs a word: the oldest of its FIFO, or, where that is empty, a fill word of alternating ones and zeros. In a near-end
parallel loopback the oldest word goes to the receive path before the serializer, which needs none. -/
def execRawFillWord (die : PDie) (lane : Fin 48) (s : State) : Res :=
  let d := die.die
  .next (if !s.rawOn d lane && !s.rawAwake d lane then s
  else match (s.lane d lane).tx with
    | w :: rest =>
      let s := s.onLane d lane fun x => { x with tx := rest }
      if s.looped d lane = 2 then s.rawTake d lane w else s.rawOut d lane w false
    | [] =>
      if s.looped d lane = 2 then s
      else
        let fill : BitVec 128 := s.rawWord d lane 0x55555555555555555555555555555555#128
        let s := s.rawOut d lane fill true
        (s.bump (atUnit d lane) .LAN_RAW_CNT_UNDERFLOW 1).rawEvent d lane 0)

/-! ### The edge -/

/-- The raw lanes beyond a die's edges whose transmit groups have their clock's edge. -/
def State.rawsOnEdge (t o : State) (d : Die) (edges : Nat → List (Nat × Bool)) : State :=
  ((o.seamEnds d).filter fun e =>
      let tile := seamTile d e.1 e.2
      (edgePort e.1).isSome && e.2 % 2 == 1 && decide (e.2 < 48) &&
        o.edgeAt d (edges (parcelAt tile.1 tile.2)) (tile.1, logicBox tile.2) (o.seam d e.1 e.2).cfg.clk false).foldl
    (fun t e => match edgePort e.1, seamLane e.1 e.2 with
      | some p, some l => t.rawEdge p l
      | _, _ => t) t

/-- An edge of a clock source: the nets on it take it, and with them flip-flops, block RAMs, multiply blocks, seam registers and fabric ports, all
from the values before the edge. -/
def State.clockEdge (o : State) (d : Die) (src : ClkSrc) (rising : Bool) : State :=
  let nets := o.globalEdge d src rising
  let edges := fun p => o.parcelEdges d p src rising nets
  let t := (o.clusters.filter fun e => e.1 / 270336 == d.idx).foldl
    (fun t e => t.clusterEdge o d (e.1 % 270336) (edges (clusterParcel (e.1 % 270336)))) o
  let t := (o.bramCfg.filter fun e => e.1 / 2112 == d.idx).foldl
    (fun t e => t.bramOnEdge o d (e.1 % 2112) (edges (bramParcel (e.1 % 2112)))) t
  let t := (o.multCfg.filter fun e => e.1 / 4224 == d.idx).foldl
    (fun t e => t.multOnEdge o d (e.1 % 4224) (edges (multParcel (e.1 % 4224)))) t
  (((t.seamsOnEdge o d edges).rawsOnEdge o d edges).portsOnEdge o d edges).netsMove d src rising nets edges

/-- An edge of a clock source of a fabric die, after the outside of its routing has come to present `inputs` (R71 to R79, R94 to R98). -/
def execFlipFlopClockEdge (die : FDie) (src : ClkSrc) (rising : Bool) (inputs : List FabInput) (s : State) : Res :=
  let s := (inputs.foldl (fun s i => s.present die.die i) (s.railSettle die.die)).railSettle die.die
  .next (if s.srcMoves die.die src rising then (s.clockEdge die.die src rising).railSettle die.die else s)

end Sys2Proof.Machine
end

