-- ==== Sys2Proof/Machine/Dispatch.lean ====
section
/-! DEFINITION. One arm per command: the meaning it has. -/

namespace Sys2Proof.Machine

/-- The effect of a command on everything but the queue. -/
def exec (i : Instr) (s : State) : Host.Outcome State Fault Refusal :=
  match i with
  | .registerWrite die offset value icls => Sys2Proof.Machine.execRegisterWrite die offset value icls s
  | .islandStart => Sys2Proof.Machine.execIslandStart s
  | .powerOnResetRelease mode pull => Sys2Proof.Machine.execPowerOnResetRelease mode pull s
  | .dieResetRequest key dies debug => Sys2Proof.Machine.execDieResetRequest key dies debug s
  | .dieResetRelease die => Sys2Proof.Machine.execDieResetRelease die s
  | .dieClockLoss die => Sys2Proof.Machine.execDieClockLoss die s
  | .stroke late => Sys2Proof.Machine.execStroke late s
  | .ptpLockRequest lock => Sys2Proof.Machine.execPtpLockRequest lock s
  | .unitArm die arm => Sys2Proof.Machine.execUnitArm die arm s
  | .pendingSettingWrite place value => Sys2Proof.Machine.execPendingSettingWrite place value s
  | .changeGo => Sys2Proof.Machine.execChangeGo s
  | .changeCancel => Sys2Proof.Machine.execChangeCancel s
  | .unitApplyReport die slot ok => Sys2Proof.Machine.execUnitApplyReport die slot ok s
  | .railContention die rail => Sys2Proof.Machine.execRailContention die rail s
  | .railFlagClear die group mask => Sys2Proof.Machine.execRailFlagClear die group mask s
  | .railClearAll die => Sys2Proof.Machine.execRailClearAll die s
  | .bramRead die block portB addr rsto other => Sys2Proof.Machine.execBramRead die block portB addr rsto other s
  | .bramWrite die block portB access other => Sys2Proof.Machine.execBramWrite die block portB access other s
  | .bramNarrowWrite die block portB access other => Sys2Proof.Machine.execBramNarrowWrite die block portB access other s
  | .nocRequestIssue r => Sys2Proof.Machine.execNocRequestIssue r s
  | .classXPacerRelease src => Sys2Proof.Machine.execClassXPacerRelease src s
  | .flitArrival die row col inPort flit free => Sys2Proof.Machine.execFlitArrival die row col inPort flit free s
  | .nocTargetRequest r check badEcc => Sys2Proof.Machine.execNocTargetRequest r check badEcc s
  | .nocResponseArrival dst tag gen resp status data badEcc ns => Sys2Proof.Machine.execNocResponseArrival dst tag gen resp status data badEcc ns s
  | .nocTimeout src tag => Sys2Proof.Machine.execNocTimeout src tag s
  | .staleTagRelease src tag => Sys2Proof.Machine.execStaleTagRelease src tag s
  | .fabricPortInitiatorRequest die parcel port user op cls size alloc addr data be => Sys2Proof.Machine.execFabricPortInitiatorRequest die parcel port user op cls size alloc addr data be s
  | .fabricPortTargetResponse die parcel port ptag status data => Sys2Proof.Machine.execFabricPortTargetResponse die parcel port ptag status data s
  | .dieCacheRequest r victim => Sys2Proof.Machine.execDieCacheRequest r victim s
  | .homeDirectoryRequest op die line full => Sys2Proof.Machine.execHomeDirectoryRequest op die line full s
  | .snoopReceived die line op => Sys2Proof.Machine.execSnoopReceived die line op s
  | .snoopAckArrival line die answer => Sys2Proof.Machine.execSnoopAckArrival line die answer s
  | .homeDownWalkStep line => Sys2Proof.Machine.execHomeDownWalkStep line s
  | .dieCacheFlush die => Sys2Proof.Machine.execDieCacheFlush die s
  | .dieCacheFlushDone die => Sys2Proof.Machine.execDieCacheFlushDone die s
  | .fenceDrained fence => Sys2Proof.Machine.execFenceDrained fence s
  | .nocFenceLimit fence => Sys2Proof.Machine.execNocFenceLimit fence s
  | .weldFlitStart die ch => Sys2Proof.Machine.execWeldFlitStart die ch s
  | .weldDataGroup die ch group => Sys2Proof.Machine.execWeldDataGroup die ch group s
  | .weldControlGroup die ch group => Sys2Proof.Machine.execWeldControlGroup die ch group s
  | .weldReplayRequest die ch group => Sys2Proof.Machine.execWeldReplayRequest die ch group s
  | .weldReplayLimit die ch => Sys2Proof.Machine.execWeldReplayLimit die ch s
  | .weldControlLoss die ch => Sys2Proof.Machine.execWeldControlLoss die ch s
  | .weldRetrainDone ch low high works => Sys2Proof.Machine.execWeldRetrainDone ch low high works s
  | .weldReceiverLock ch => Sys2Proof.Machine.execWeldReceiverLock ch s
  | .weldClockLockTimeout ch => Sys2Proof.Machine.execWeldClockLockTimeout ch s
  | .weldPrbsDone ch low high => Sys2Proof.Machine.execWeldPrbsDone ch low high s
  | .weldDeskewDone ch works => Sys2Proof.Machine.execWeldDeskewDone ch works s
  | .weldTrainingDone ch => Sys2Proof.Machine.execWeldTrainingDone ch s
  | .retrain die ch => Sys2Proof.Machine.execRetrain die ch s
  | .remap die ch => Sys2Proof.Machine.execRemap die ch s
  | .commitMap die ch key => Sys2Proof.Machine.execCommitMap die ch key s
  | .seamUnlock die edge group => Sys2Proof.Machine.execSeamUnlock die edge group s
  | .seamRelock die edge group => Sys2Proof.Machine.execSeamRelock die edge group s
  | .edgeTemperatureCheck => Sys2Proof.Machine.execEdgeTemperatureCheck s
  | .cfgProgNLow => Sys2Proof.Machine.execCfgProgNLow s
  | .cfgProgNRise mode pull => Sys2Proof.Machine.execCfgProgNRise mode pull s
  | .loadPrimary key => Sys2Proof.Machine.execLoadPrimary key s
  | .loadFallback key => Sys2Proof.Machine.execLoadFallback key s
  | .acceptStream => Sys2Proof.Machine.execAcceptStream s
  | .flashHeaderRead header => Sys2Proof.Machine.execFlashHeaderRead header s
  | .loadPreparationDone => Sys2Proof.Machine.execLoadPreparationDone s
  | .flashSetupRecord => Sys2Proof.Machine.execFlashSetupRecord s
  | .flashHeaderReread header => Sys2Proof.Machine.execFlashHeaderReread header s
  | .entryTableReceived bytes => Sys2Proof.Machine.execEntryTableReceived bytes s
  | .framePacket packet => Sys2Proof.Machine.execFramePacket packet s
  | .frameReread packet => Sys2Proof.Machine.execFrameReread packet s
  | .releaseStageOutputs kind => Sys2Proof.Machine.execReleaseStageOutputs kind s
  | .releaseStageWriteEnables kind => Sys2Proof.Machine.execReleaseStageWriteEnables kind s
  | .releaseStageResets kind => Sys2Proof.Machine.execReleaseStageResets kind s
  | .cfgDone => Sys2Proof.Machine.execCfgDone s
  | .imageWindowWrite src offset bytes => Sys2Proof.Machine.execImageWindowWrite src offset bytes s
  | .streamStallTimeout => Sys2Proof.Machine.execStreamStallTimeout s
  | .cfgIn value => Sys2Proof.Machine.execCfgIn value s
  | .testPortCfgCmd value => Sys2Proof.Machine.execTestPortCfgCmd value s
  | .cfgStat => Sys2Proof.Machine.execCfgStat s
  | .idcode => Sys2Proof.Machine.execIdcode s
  | .extest bits => Sys2Proof.Machine.execExtest bits s
  | .samplePreload bits => Sys2Proof.Machine.execSamplePreload bits s
  | .bypass => Sys2Proof.Machine.execBypass s
  | .cfgRead value => Sys2Proof.Machine.execCfgRead value s
  | .cfgReadCapture => Sys2Proof.Machine.execCfgReadCapture s
  | .calibrationApply flash keys copy => Sys2Proof.Machine.execCalibrationApply flash keys copy s
  | .partialLoadAbort die hold => Sys2Proof.Machine.execPartialLoadAbort die hold s
  | .blankingDone => Sys2Proof.Machine.execBlankingDone s
  | .parcelPowerDown die down up => Sys2Proof.Machine.execParcelPowerDown die down up s
  | .parcelSwitchOpen die parcel => Sys2Proof.Machine.execParcelSwitchOpen die parcel s
  | .parcelPowerUp die up => Sys2Proof.Machine.execParcelPowerUp die up s
  | .parcelSupplyGood die parcel => Sys2Proof.Machine.execParcelSupplyGood die parcel s
  | .parcelBramCleared die parcel => Sys2Proof.Machine.execParcelBramCleared die parcel s
  | .captureRequest die parcel freeze => Sys2Proof.Machine.execCaptureRequest die parcel freeze s
  | .captureCopyDone die => Sys2Proof.Machine.execCaptureCopyDone die s
  | .captureResume die => Sys2Proof.Machine.execCaptureResume die s
  | .scrubFrameCheck die lap => Sys2Proof.Machine.execScrubFrameCheck die lap s
  | .prioLap die => Sys2Proof.Machine.execPrioLap die s
  | .scrubberEnable die en => Sys2Proof.Machine.execScrubberEnable die en s
  | .repairHeaderRead die header => Sys2Proof.Machine.execRepairHeaderRead die header s
  | .repairPacketRead die packet => Sys2Proof.Machine.execRepairPacketRead die packet s
  | .repairFrameWritten die => Sys2Proof.Machine.execRepairFrameWritten die s
  | .repairTimeout die => Sys2Proof.Machine.execRepairTimeout die s
  | .hIdle c => Sys2Proof.Machine.execHIdle c s
  | .hNop c => Sys2Proof.Machine.execHNop c s
  | .hWaitStroke c => Sys2Proof.Machine.execHWaitStroke c s
  | .hSync c => Sys2Proof.Machine.execHSync c s
  | .hBkpt c => Sys2Proof.Machine.execHBkpt c s
  | .hB c target => Sys2Proof.Machine.execHB c target s
  | .hBc c cond target => Sys2Proof.Machine.execHBc c cond target s
  | .hCall c target => Sys2Proof.Machine.execHCall c target s
  | .hRet c => Sys2Proof.Machine.execHRet c s
  | .hRti c => Sys2Proof.Machine.execHRti c s
  | .hRpt c fromX count => Sys2Proof.Machine.execHRpt c fromX count s
  | .hLoop c fromX count len => Sys2Proof.Machine.execHLoop c fromX count len s
  | .hMovs c toSpecial code x => Sys2Proof.Machine.execHMovs c toSpecial code x s
  | .hMov c xd xs => Sys2Proof.Machine.execHMov c xd xs s
  | .hAdd c xd xs xt => Sys2Proof.Machine.execHAdd c xd xs xt s
  | .hAdds c xd xs xt => Sys2Proof.Machine.execHAdds c xd xs xt s
  | .hSub c xd xs xt => Sys2Proof.Machine.execHSub c xd xs xt s
  | .hSubs c xd xs xt => Sys2Proof.Machine.execHSubs c xd xs xt s
  | .hCmp c xs xt => Sys2Proof.Machine.execHCmp c xs xt s
  | .hAnd c xd xs xt => Sys2Proof.Machine.execHAnd c xd xs xt s
  | .hOr c xd xs xt => Sys2Proof.Machine.execHOr c xd xs xt s
  | .hXor c xd xs xt => Sys2Proof.Machine.execHXor c xd xs xt s
  | .hNot c xd xs => Sys2Proof.Machine.execHNot c xd xs s
  | .hAsl c xd xs xt => Sys2Proof.Machine.execHAsl c xd xs xt s
  | .hAsr c xd xs xt => Sys2Proof.Machine.execHAsr c xd xs xt s
  | .hLsr c xd xs xt => Sys2Proof.Machine.execHLsr c xd xs xt s
  | .hMin c xd xs xt => Sys2Proof.Machine.execHMin c xd xs xt s
  | .hMax c xd xs xt => Sys2Proof.Machine.execHMax c xd xs xt s
  | .hAbs c xd xs => Sys2Proof.Machine.execHAbs c xd xs s
  | .hMovi c xd imm => Sys2Proof.Machine.execHMovi c xd imm s
  | .hMovhi c xd imm => Sys2Proof.Machine.execHMovhi c xd imm s
  | .hAluImmediate c op xd imm => Sys2Proof.Machine.execHAluImmediate c op xd imm s
  | .hLd c width x m => Sys2Proof.Machine.execHLd c width x m s
  | .hSt c width x m => Sys2Proof.Machine.execHSt c width x m s
  | .hLdp c xa xb sl => Sys2Proof.Machine.execHLdp c xa xb sl s
  | .hWst c a w m => Sys2Proof.Machine.execHWst c a w m s
  | .hWld c a w m => Sys2Proof.Machine.execHWld c a w m s
  | .hAsv c a slice m => Sys2Proof.Machine.execHAsv c a slice m s
  | .hAld c a slice m => Sys2Proof.Machine.execHAld c a slice m s
  | .hRnd c ad w => Sys2Proof.Machine.execHRnd c ad w s
  | .hClra c ad => Sys2Proof.Machine.execHClra c ad s
  | .hAdda c ad as => Sys2Proof.Machine.execHAdda c ad as s
  | .hSuba c ad as => Sys2Proof.Machine.execHSuba c ad as s
  | .hNega c ad => Sys2Proof.Machine.execHNega c ad s
  | .hAsha c ad shift => Sys2Proof.Machine.execHAsha c ad shift s
  | .hMvax c a w x => Sys2Proof.Machine.execHMvax c a w x s
  | .hMvxa c a w x => Sys2Proof.Machine.execHMvxa c a w x s
  | .hMac c ad neg clr xa xb sl => Sys2Proof.Machine.execHMac c ad neg clr xa xb sl s
  | .hMac4 c ad neg clr xa xb sl => Sys2Proof.Machine.execHMac4 c ad neg clr xa xb sl s
  | .hDot4 c ad neg clr xa xb sl => Sys2Proof.Machine.execHDot4 c ad neg clr xa xb sl s
  | .hCmac c ad neg clr xa xb sl conj => Sys2Proof.Machine.execHCmac c ad neg clr xa xb sl conj s
  | .hTng c y => Sys2Proof.Machine.execHTng c y s
  | .hTwait c n => Sys2Proof.Machine.execHTwait c n s
  | .hLdx c xd y => Sys2Proof.Machine.execHLdx c xd y s
  | .hStx c xd xs y => Sys2Proof.Machine.execHStx c xd xs y s
  | .hAtm c op xd xs y => Sys2Proof.Machine.execHAtm c op xd xs y s
  | .interruptEntry c => Sys2Proof.Machine.execInterruptEntry c s
  | .doorbell c => Sys2Proof.Machine.execDoorbell c s
  | .tongsHostPost c => Sys2Proof.Machine.execTongsHostPost c s
  | .tongsDescriptorStart c => Sys2Proof.Machine.execTongsDescriptorStart c s
  | .tongsDescriptorComplete c => Sys2Proof.Machine.execTongsDescriptorComplete c s
  | .tongsResume c => Sys2Proof.Machine.execTongsResume c s
  | .tongsFlush c => Sys2Proof.Machine.execTongsFlush c s
  | .coreReset c => Sys2Proof.Machine.execCoreReset c s
  | .coreHold c hold start => Sys2Proof.Machine.execCoreHold c hold start s
  | .coreWatchdogExpiry c => Sys2Proof.Machine.execCoreWatchdogExpiry c s
  | .coreWatchdogKick c key => Sys2Proof.Machine.execCoreWatchdogKick c key s
  | .coreWatchdogCtrlWrite c value => Sys2Proof.Machine.execCoreWatchdogCtrlWrite c value s
  | .swdEnable value => Sys2Proof.Machine.execSwdEnable value s
  | .swdKick key => Sys2Proof.Machine.execSwdKick key s
  | .systemWatchdogExpiry => Sys2Proof.Machine.execSystemWatchdogExpiry s
  | .freezeSysWrite icls freeze => Sys2Proof.Machine.execFreezeSysWrite icls freeze s
  | .dbgNonce draw => Sys2Proof.Machine.execDbgNonce draw s
  | .dbgAuth level response => Sys2Proof.Machine.execDbgAuth level response s
  | .nonceExpiry => Sys2Proof.Machine.execNonceExpiry s
  | .lockoutExpiry => Sys2Proof.Machine.execLockoutExpiry s
  | .dbgAcc write addr data => Sys2Proof.Machine.execDbgAcc write addr data s
  | .dbgAccCapture => Sys2Proof.Machine.execDbgAccCapture s
  | .sessionEnd => Sys2Proof.Machine.execSessionEnd s
  | .trstNLow => Sys2Proof.Machine.execTrstNLow s
  | .crossTriggerFire => Sys2Proof.Machine.execCrossTriggerFire s
  | .dbgStat => Sys2Proof.Machine.execDbgStat s
  | .dbgKeyprog slot key => Sys2Proof.Machine.execDbgKeyprog slot key s
  | .haltRequest c => Sys2Proof.Machine.execHaltRequest c s
  | .breakpointMatch c point => Sys2Proof.Machine.execBreakpointMatch c point s
  | .haltTakesEffect c => Sys2Proof.Machine.execHaltTakesEffect c s
  | .debugResume c => Sys2Proof.Machine.execDebugResume c s
  | .debugStep c => Sys2Proof.Machine.execDebugStep c s
  | .debugRegWrite c value => Sys2Proof.Machine.execDebugRegWrite c value s
  | .receiverDetect die lane found => Sys2Proof.Machine.execReceiverDetect die lane found s
  | .signalDetectChange die lane energy => Sys2Proof.Machine.execSignalDetectChange die lane energy s
  | .surveyFrameSend die lane abort => Sys2Proof.Machine.execSurveyFrameSend die lane abort s
  | .surveyCapReceived die lane frame => Sys2Proof.Machine.execSurveyCapReceived die lane frame s
  | .surveyStepReqReceived die lane frame => Sys2Proof.Machine.execSurveyStepReqReceived die lane frame s
  | .surveyRateSwitch die lane => Sys2Proof.Machine.execSurveyRateSwitch die lane s
  | .laneTrainingDone die lane => Sys2Proof.Machine.execLaneTrainingDone die lane s
  | .surveyStepDoneReceived die lane frame abort => Sys2Proof.Machine.execSurveyStepDoneReceived die lane frame abort s
  | .surveyHoldReceived die lane frame => Sys2Proof.Machine.execSurveyHoldReceived die lane frame s
  | .laneTrainingTimeout die lane => Sys2Proof.Machine.execLaneTrainingTimeout die lane s
  | .stepDoneTimeout die lane => Sys2Proof.Machine.execStepDoneTimeout die lane s
  | .lanSilent die lane => Sys2Proof.Machine.execLanSilent die lane s
  | .c73PageReceived die lane types complete => Sys2Proof.Machine.execC73PageReceived die lane types complete s
  | .c73TimerFailure die lane => Sys2Proof.Machine.execC73TimerFailure die lane s
  | .pcsLinkUp die lane => Sys2Proof.Machine.execPcsLinkUp die lane s
  | .cdrLock die lane w h => Sys2Proof.Machine.execCdrLock die lane w h s
  | .fixedRateTimeout die lane => Sys2Proof.Machine.execFixedRateTimeout die lane s
  | .fomMeasurementDone die lane w h => Sys2Proof.Machine.execFomMeasurementDone die lane w h s
  | .laneLockLoss die lane => Sys2Proof.Machine.execLaneLockLoss die lane s
  | .recoverTimeout die lane => Sys2Proof.Machine.execRecoverTimeout die lane s
  | .laneRestart die lane => Sys2Proof.Machine.execLaneRestart die lane s
  | .laneAbort die lane => Sys2Proof.Machine.execLaneAbort die lane s
  | .laneSleep die lane => Sys2Proof.Machine.execLaneSleep die lane s
  | .laneWake die lane => Sys2Proof.Machine.execLaneWake die lane s
  | .wakeBurstReceived die lane intervals => Sys2Proof.Machine.execWakeBurstReceived die lane intervals s
  | .laneTxReenable die lane => Sys2Proof.Machine.execLaneTxReenable die lane s
  | .laneMeasure die lane => Sys2Proof.Machine.execLaneMeasure die lane s
  | .lanePllLock die quad lanes => Sys2Proof.Machine.execLanePllLock die quad lanes s
  | .prbsGeneratorEnable die lane enable pattern => Sys2Proof.Machine.execPrbsGeneratorEnable die lane enable pattern s
  | .prbsSnap die lane => Sys2Proof.Machine.execPrbsSnap die lane s
  | .prbsClear die lane => Sys2Proof.Machine.execPrbsClear die lane s
  | .lanPrbsThresh die lane errors bits => Sys2Proof.Machine.execLanPrbsThresh die lane errors bits s
  | .prbsSyncLost die lane => Sys2Proof.Machine.execPrbsSyncLost die lane s
  | .loopbackSelect die lane mode mute => Sys2Proof.Machine.execLoopbackSelect die lane mode mute s
  | .rawWordFromFabric die lane word => Sys2Proof.Machine.execRawWordFromFabric die lane word s
  | .rawWordReceived die lane word => Sys2Proof.Machine.execRawWordReceived die lane word s
  | .rawFillWord die lane => Sys2Proof.Machine.execRawFillWord die lane s
  | .recoveredClockEnable die selector value => Sys2Proof.Machine.execRecoveredClockEnable die selector value s
  | .frameReceived die port bytes cycle frac fec rate => Sys2Proof.Machine.execFrameReceived die port bytes cycle frac fec rate s
  | .pfcFrameReceived die port mask times => Sys2Proof.Machine.execPfcFrameReceived die port mask times s
  | .pauseFrameReceived die port time => Sys2Proof.Machine.execPauseFrameReceived die port time s
  | .pauseTimeExpiry die port group => Sys2Proof.Machine.execPauseTimeExpiry die port group s
  | .pfcRepeat die port prio => Sys2Proof.Machine.execPfcRepeat die port prio s
  | .frameTransmit die port after cycle frac fec bad => Sys2Proof.Machine.execFrameTransmit die port after cycle frac fec bad s
  | .macMergeVerify die port works => Sys2Proof.Machine.execMacMergeVerify die port works s
  | .lookupInsert die key result abort => Sys2Proof.Machine.execLookupInsert die key result abort s
  | .lookupDelete die key abort => Sys2Proof.Machine.execLookupDelete die key abort s
  | .lookupModify die key result abort => Sys2Proof.Machine.execLookupModify die key result abort s
  | .lookupRead die key => Sys2Proof.Machine.execLookupRead die key s
  | .lookupReadAt die way index => Sys2Proof.Machine.execLookupReadAt die way index s
  | .lookupClearHits die => Sys2Proof.Machine.execLookupClearHits die s
  | .lookupBulk die => Sys2Proof.Machine.execLookupBulk die s
  | .bulkRecord die status record abort => Sys2Proof.Machine.execBulkRecord die status record abort s
  | .lookupAbort die => Sys2Proof.Machine.execLookupAbort die s
  | .stashMoveBack die entry => Sys2Proof.Machine.execStashMoveBack die entry s
  | .queueConfigWrite die queue value => Sys2Proof.Machine.execQueueConfigWrite die queue value s
  | .bufferPoolWrite die place value => Sys2Proof.Machine.execBufferPoolWrite die place value s
  | .queueFlush die queue => Sys2Proof.Machine.execQueueFlush die queue s
  | .queueFlushAbort die gone => Sys2Proof.Machine.execQueueFlushAbort die gone s
  | .queueFlushDone die abort => Sys2Proof.Machine.execQueueFlushDone die abort s
  | .deliveryRingFrame die ring queue answers bad => Sys2Proof.Machine.execDeliveryRingFrame die ring queue answers bad s
  | .deliveryRingTailWrite die ring line => Sys2Proof.Machine.execDeliveryRingTailWrite die ring line s
  | .crossDieMove die rate => Sys2Proof.Machine.execCrossDieMove die rate s
  | .todSet cycle => Sys2Proof.Machine.execTodSet cycle s
  | .todAdj cycle => Sys2Proof.Machine.execTodAdj cycle s
  | .todIncrWrite value => Sys2Proof.Machine.execTodIncrWrite value s
  | .todRead cycle quiet => Sys2Proof.Machine.execTodRead cycle quiet s
  | .ppsEnable value => Sys2Proof.Machine.execPpsEnable value s
  | .ppsPulse => Sys2Proof.Machine.execPpsPulse s
  | .ppsPulseEnd => Sys2Proof.Machine.execPpsPulseEnd s
  | .ppsInEdge cycle low => Sys2Proof.Machine.execPpsInEdge cycle low s
  | .cmpFrameProcess die rate => Sys2Proof.Machine.execCmpFrameProcess die rate s
  | .cmpJobPost die => Sys2Proof.Machine.execCmpJobPost die s
  | .cmpJobStart die => Sys2Proof.Machine.execCmpJobStart die s
  | .cmpJobEnd die status written => Sys2Proof.Machine.execCmpJobEnd die status written s
  | .cmpJobFlush die => Sys2Proof.Machine.execCmpJobFlush die s
  | .cxlPartnerDetect port => Sys2Proof.Machine.execCxlPartnerDetect port s
  | .cxlLinkUp port speed width mem => Sys2Proof.Machine.execCxlLinkUp port speed width mem s
  | .enableMem port => Sys2Proof.Machine.execEnableMem port s
  | .cxlSizeWrite port value => Sys2Proof.Machine.execCxlSizeWrite port value s
  | .cxlIoAccess port value => Sys2Proof.Machine.execCxlIoAccess port value s
  | .cxlIoDone port err data => Sys2Proof.Machine.execCxlIoDone port err data s
  | .cxlRequest port r => Sys2Proof.Machine.execCxlRequest port r s
  | .cxlDeviceResponse port src tag check => Sys2Proof.Machine.execCxlDeviceResponse port src tag check s
  | .cxlDeviceRequest port write addr data => Sys2Proof.Machine.execCxlDeviceRequest port write addr data s
  | .cxlLinkLoss port => Sys2Proof.Machine.execCxlLinkLoss port s
  | .cxlDetachWalkDone port => Sys2Proof.Machine.execCxlDetachWalkDone port s
  | .detach port => Sys2Proof.Machine.execDetach port s
  | .cxlDetachDrainEnd port => Sys2Proof.Machine.execCxlDetachDrainEnd port s
  | .ackDetach port => Sys2Proof.Machine.execAckDetach port s
  | .cxlTxReenable port => Sys2Proof.Machine.execCxlTxReenable port s
  | .ddrRequest ch r check => Sys2Proof.Machine.execDdrRequest ch r check s
  | .init ch => Sys2Proof.Machine.execInit ch s
  | .ddrInitDone ch => Sys2Proof.Machine.execDdrInitDone ch s
  | .goReady ch => Sys2Proof.Machine.execGoReady ch s
  | .srEnter ch => Sys2Proof.Machine.execSrEnter ch s
  | .srExit ch => Sys2Proof.Machine.execSrExit ch s
  | .ddrSrExitDone ch => Sys2Proof.Machine.execDdrSrExitDone ch s
  | .ddrModeRegisterWrite ch value => Sys2Proof.Machine.execDdrModeRegisterWrite ch value s
  | .ddrTrainingCa ch rank count => Sys2Proof.Machine.execDdrTrainingCa ch rank count s
  | .ddrTrainingWlvl ch rank count => Sys2Proof.Machine.execDdrTrainingWlvl ch rank count s
  | .ddrTrainingRd ch rank count => Sys2Proof.Machine.execDdrTrainingRd ch rank count s
  | .ddrTrainingWr ch rank count => Sys2Proof.Machine.execDdrTrainingWr ch rank count s
  | .ddrTrainingAbort ch => Sys2Proof.Machine.execDdrTrainingAbort ch s
  | .ddrTrainingStepDone ch errors fails abort => Sys2Proof.Machine.execDdrTrainingStepDone ch errors fails abort s
  | .ddrRefresh ch => Sys2Proof.Machine.execDdrRefresh ch s
  | .ddrMr4Poll ch rank hot => Sys2Proof.Machine.execDdrMr4Poll ch rank hot s
  | .ddrDqsDriftCheck ch rank wr rd => Sys2Proof.Machine.execDdrDqsDriftCheck ch rank wr rd s
  | .ddrPatrolRead ch line check => Sys2Proof.Machine.execDdrPatrolRead ch line check s
  | .pcieLinkUp speed width vectors => Sys2Proof.Machine.execPcieLinkUp speed width vectors s
  | .pcieLinkDown => Sys2Proof.Machine.execPcieLinkDown s
  | .pcieTxReenable => Sys2Proof.Machine.execPcieTxReenable s
  | .bar0Access write offset bytes value => Sys2Proof.Machine.execBar0Access write offset bytes value s
  | .hostRingTailWrite ring tail => Sys2Proof.Machine.execHostRingTailWrite ring tail s
  | .hostRingRxFrame ring queue descs status held bad => Sys2Proof.Machine.execHostRingRxFrame ring queue descs status held bad s
  | .hostRingTxFrame ring descs bytes status held rate => Sys2Proof.Machine.execHostRingTxFrame ring descs bytes status held rate s
  | .pcieCompletion ring result queue => Sys2Proof.Machine.execPcieCompletion ring result queue s
  | .msixHoldoffExpiry ring => Sys2Proof.Machine.execMsixHoldoffExpiry ring s
  | .hostRingResume ring => Sys2Proof.Machine.execHostRingResume ring s
  | .protRightsWrite eng rgn value => Sys2Proof.Machine.execProtRightsWrite eng rgn value s
  | .protWalkDone eng => Sys2Proof.Machine.execProtWalkDone eng s
  | .regionConfigWrite eng rgn value => Sys2Proof.Machine.execRegionConfigWrite eng rgn value s
  | .regionInit eng rgn => Sys2Proof.Machine.execRegionInit eng rgn s
  | .regionInitAbort eng rgn lines => Sys2Proof.Machine.execRegionInitAbort eng rgn lines s
  | .regionInitDone eng rgn failed abort => Sys2Proof.Machine.execRegionInitDone eng rgn failed abort s
  | .protBufferWriteback eng line => Sys2Proof.Machine.execProtBufferWriteback eng line s
  | .eccScrubStep die group lap => Sys2Proof.Machine.execEccScrubStep die group lap s
  | .eccTestArm die value => Sys2Proof.Machine.execEccTestArm die value s
  | .sourceReady source => Sys2Proof.Machine.execSourceReady source s
  | .sourceTrip source kind => Sys2Proof.Machine.execSourceTrip source kind s
  | .freqWindowEnd source count whole => Sys2Proof.Machine.execFreqWindowEnd source count whole s
  | .datumPllUnlock => Sys2Proof.Machine.execDatumPllUnlock s
  | .datumPllLock => Sys2Proof.Machine.execDatumPllLock s
  | .rcOscillatorCheck count => Sys2Proof.Machine.execRcOscillatorCheck count s
  | .clockSwitch sel => Sys2Proof.Machine.execClockSwitch sel s
  | .switchForced => Sys2Proof.Machine.execSwitchForced s
  | .switchComplete => Sys2Proof.Machine.execSwitchComplete s
  | .xtalEnable on => Sys2Proof.Machine.execXtalEnable on s
  | .fabricPllUnlock die pll => Sys2Proof.Machine.execFabricPllUnlock die pll s
  | .fabricPllRelock die pll => Sys2Proof.Machine.execFabricPllRelock die pll s
  | .pwrVoltageGood die => Sys2Proof.Machine.execPwrVoltageGood die s
  | .avsTimeout die => Sys2Proof.Machine.execAvsTimeout die s
  | .avsError die kind => Sys2Proof.Machine.execAvsError die kind s
  | .clockGateWrite die domain value => Sys2Proof.Machine.execClockGateWrite die domain value s
  | .pmbusTransaction value => Sys2Proof.Machine.execPmbusTransaction value s
  | .pmbusDone err data => Sys2Proof.Machine.execPmbusDone err data s
  | .railBelowReset rail min mv => Sys2Proof.Machine.execRailBelowReset rail min mv s
  | .railWarningDip rail min mv us => Sys2Proof.Machine.execRailWarningDip rail min mv us s
  | .railGood rail mv => Sys2Proof.Machine.execRailGood rail mv s
  | .railDipRead rail quiet mv => Sys2Proof.Machine.execRailDipRead rail quiet mv s
  | .temperatureSample die sensor reading => Sys2Proof.Machine.execTemperatureSample die sensor reading s
  | .mgtWrite addr data bits known => Sys2Proof.Machine.execMgtWrite addr data bits known s
  | .mgtRead addr bits => Sys2Proof.Machine.execMgtRead addr bits s
  | .mgtBurst addr whole ends => Sys2Proof.Machine.execMgtBurst addr whole ends s
  | .mgtBurstWord value bits ends => Sys2Proof.Machine.execMgtBurstWord value bits ends s
  | .mgtResult => Sys2Proof.Machine.execMgtResult s
  | .attnForceWrite force => Sys2Proof.Machine.execAttnForceWrite force s
  | .userEventInput die parcel inputs data => Sys2Proof.Machine.execUserEventInput die parcel inputs data s
  | .pmcClear die => Sys2Proof.Machine.execPmcClear die s
  | .pmcFreeze die freeze => Sys2Proof.Machine.execPmcFreeze die freeze s
  | .pmcCounterRead die counter => Sys2Proof.Machine.execPmcCounterRead die counter s
  | .pmcOvf die counter => Sys2Proof.Machine.execPmcOvf die counter s
  | .bwMonitorEnable die monitor value => Sys2Proof.Machine.execBwMonitorEnable die monitor value s
  | .bwWindowEnd die monitor => Sys2Proof.Machine.execBwWindowEnd die monitor s
  | .opsecSecond => Sys2Proof.Machine.execOpsecSecond s
  | .fieldBookProgram result => Sys2Proof.Machine.execFieldBookProgram result s
  | .fieldBookErase works => Sys2Proof.Machine.execFieldBookErase works s
  | .fieldBookMount responds found => Sys2Proof.Machine.execFieldBookMount responds found s
  | .recNote code => Sys2Proof.Machine.execRecNote code s
  | .recRingRead slot word quiet => Sys2Proof.Machine.execRecRingRead slot word quiet s
  | .flashSlotRead slot => Sys2Proof.Machine.execFlashSlotRead slot s
  | .flashSlotReadDone bytes => Sys2Proof.Machine.execFlashSlotReadDone bytes s
  | .saveUser key => Sys2Proof.Machine.execSaveUser key s
  | .returnToBenchmark key => Sys2Proof.Machine.execReturnToBenchmark key s
  | .mgtCalDone works pairs => Sys2Proof.Machine.execMgtCalDone works pairs s
  | .cxlPartnerLeave port => Sys2Proof.Machine.execCxlPartnerLeave port s
  | .pcieCompletionTimeout ring queue => Sys2Proof.Machine.execPcieCompletionTimeout ring queue s
  | .prbsCheckerSync die lane => Sys2Proof.Machine.execPrbsCheckerSync die lane s
  | .prbsCountSaturated die lane errors => Sys2Proof.Machine.execPrbsCountSaturated die lane errors s
  | .configurationUpset place => Sys2Proof.Machine.execConfigurationUpset place s
  | .memoryBitError die group addr bit => Sys2Proof.Machine.execMemoryBitError die group addr bit s
  | .flipFlopClockEdge die src rising inputs => Sys2Proof.Machine.execFlipFlopClockEdge die src rising inputs s
  | .asyncSrAssert die cluster => Sys2Proof.Machine.execAsyncSrAssert die cluster s
  | .multiplyClockEdge die block ce rst ins => Sys2Proof.Machine.execMultiplyClockEdge die block ce rst ins s
  | .reservedEncoding c word => Sys2Proof.Machine.execReservedEncoding c word s

end Sys2Proof.Machine
end

