-- ==== Sys2Proof/Safety.lean ====
section
/-! DEFINITION. What the statements are made of: which registers and bytes a step may change, a core that is ready, what an instruction
of a core leaves, which commands may store, and the invariant. -/

namespace Sys2Proof.Machine

/-- A place of a register: the numbers of R45's map are far below the bound. -/
def At.real (a : At) : Prop := a.code < 2 ^ 44

/-- Every register outside a list reads in `t` as it does in `s`. -/
def State.keepsRegs (L : List Reg) (s t : State) : Prop := ∀ (a : At) (r : Reg), a.real → r ∉ L → t.reg a r = s.reg a r

/-- Every byte of memory reads in `t` as it does in `s`. -/
def State.keepsMem (s t : State) : Prop := ∀ a : Nat, t.mem.byte a = s.mem.byte a

/-- The registers that raising an event may change (R526 to R532, R537, R542): pending bits, counts and data of events, the event
ports, the performance counters, REC_STAT.LOST, and the interrupt lines of the cores that a route names. -/
def eventRegs : List Reg := [.EVT_PEND, .EVT_CNT, .EVT_LAST_LO, .EVT_LAST_HI, .EVT_FP_CTRL, .REC_STAT, .PMC_CNT_LO, .PMC_CNT_HI,
  .PMC_OVF0, .PMC_OVF1, .HMR_IRQ_PEND]

/-- The registers that reading or writing a protected word may change (R486 to R489). -/
def eccRegs : List Reg := [.ECC_GRP_CNT, .ECC_GRP_CTRL, .ECC_LOG_ADDR, .ECC_LOG_INFO, .ECC_TEST_CHK, .ECC_TEST_CTRL] ++ eventRegs

/-- The registers that a lane's bring-up, recovery and commands may change, beside its pattern and loopback controls. -/
def laneRegs : List Reg := [.LAN_LANE_STAT, .LAN_LANE_PARTNER, .LAN_LANE_FOM, .LAN_LANE_CNT, .LAN_RCK0_CTRL, .LAN_RCK1_CTRL] ++ eventRegs

/-- A Hammer core that issues its next instruction with no result on its way, outside delay slots and repeats, and not under a
single step. -/
def State.coreReady (s : State) (c : CoreId) : Prop :=
  s.issues (cdie c) c.k = true ∧ (s.at_ c).pend = [] ∧ (s.at_ c).br = none ∧ (s.at_ c).ld = 0 ∧ (s.at_ c).stepping = false

/-- The program counter of a core goes on by one, and no register but those of the events and a list, and no byte of memory,
changes. -/
def State.corePassed (s : State) (c : CoreId) (L : List Reg) (t : State) : Prop :=
  (t.at_ c).pc = (s.at_ c).pc + 1 ∧ s.keepsRegs (L ++ eventRegs) t ∧ s.keepsMem t

/-- What an ALU instruction leaves: the value in Xd and the other X registers as they were; Z and N of the value, C and V where the
spec gives them, the other bits of SR as they were. -/
def State.aluDone (s : State) (c : CoreId) (xd : Option (Fin 16)) (v : HWord) (cf vf : Option Bool) (t : State) : Prop :=
  (∀ n, xd = some n → (t.at_ c).xr n = v) ∧ (∀ n : Fin 16, xd ≠ some n → (t.at_ c).xr n = (s.at_ c).xr n) ∧
  (t.at_ c).sr.getLsbD 0 = (v == 0) ∧ (t.at_ c).sr.getLsbD 1 = v.msb ∧ (∀ b, cf = some b → (t.at_ c).sr.getLsbD 2 = b) ∧
  (∀ b, vf = some b → (t.at_ c).sr.getLsbD 3 = b) ∧ (∀ k, 4 ≤ k → (t.at_ c).sr.getLsbD k = (s.at_ c).sr.getLsbD k) ∧
  s.corePassed c [] t

/-- What an instruction of the accumulation chain leaves: accumulators as the chain sees them by a rule, X registers as they were. -/
def State.chainDone (s : State) (c : CoreId) (f : Nat → Option (BitVec 56)) (t : State) : Prop :=
  (∀ n v, f n = some v → (t.at_ c).acc n = v) ∧ (∀ n, f n = none → (t.at_ c).acc n = (s.at_ c).acc n) ∧
  (t.at_ c).x = (s.at_ c).x ∧ s.corePassed c [] t

/-- The commands whose effect can reach memory (R42 to R44): they store, answer a request that stores, clear a memory, or start work
that ends in a store in the same step. -/
def Instr.mayStore : Instr → Bool
  | .registerWrite .. => true
  | .powerOnResetRelease .. => true
  | .dieResetRequest .. => true
  | .dieClockLoss .. => true
  | .stroke .. => true
  | .unitApplyReport .. => true
  | .nocRequestIssue .. => true
  | .classXPacerRelease .. => true
  | .nocTargetRequest .. => true
  | .nocResponseArrival .. => true
  | .nocTimeout .. => true
  | .dieCacheRequest .. => true
  | .homeDirectoryRequest .. => true
  | .snoopAckArrival .. => true
  | .dieCacheFlushDone .. => true
  | .fenceDrained .. => true
  | .nocFenceLimit .. => true
  | .weldRetrainDone .. => true
  | .weldClockLockTimeout .. => true
  | .weldPrbsDone .. => true
  | .weldDeskewDone .. => true
  | .cfgProgNRise .. => true
  | .loadPrimary .. => true
  | .loadFallback .. => true
  | .acceptStream => true
  | .flashHeaderRead .. => true
  | .loadPreparationDone => true
  | .flashHeaderReread .. => true
  | .entryTableReceived .. => true
  | .framePacket .. => true
  | .frameReread .. => true
  | .releaseStageOutputs .. => true
  | .releaseStageResets .. => true
  | .imageWindowWrite .. => true
  | .streamStallTimeout => true
  | .cfgIn .. => true
  | .testPortCfgCmd .. => true
  | .calibrationApply .. => true
  | .partialLoadAbort .. => true
  | .parcelBramCleared .. => true
  | .captureCopyDone .. => true
  | .scrubFrameCheck .. => true
  | .repairFrameWritten .. => true
  | .hSt .. => true
  | .hWst .. => true
  | .hAsv .. => true
  | .hStx .. => true
  | .hAtm .. => true
  | .tongsDescriptorStart .. => true
  | .systemWatchdogExpiry => true
  | .dbgAuth .. => true
  | .dbgAcc .. => true
  | .sessionEnd => true
  | .trstNLow => true
  | .debugResume .. => true
  | .debugStep .. => true
  | .deliveryRingFrame .. => true
  | .cmpJobEnd .. => true
  | .cxlRequest .. => true
  | .cxlDeviceResponse .. => true
  | .cxlLinkLoss .. => true
  | .detach .. => true
  | .cxlDetachDrainEnd .. => true
  | .ddrRequest .. => true
  | .srEnter .. => true
  | .ddrSrExitDone .. => true
  | .bar0Access .. => true
  | .protWalkDone .. => true
  | .regionInitDone .. => true
  | .protBufferWriteback .. => true
  | .eccScrubStep .. => true
  | .sourceTrip .. => true
  | .freqWindowEnd .. => true
  | .datumPllUnlock => true
  | .datumPllLock => true
  | .xtalEnable .. => true
  | .pwrVoltageGood .. => true
  | .clockGateWrite .. => true
  | .railBelowReset .. => true
  | .mgtWrite .. => true
  | .mgtRead .. => true
  | .mgtBurstWord .. => true
  | .cxlPartnerLeave .. => true
  | .configurationUpset .. => true
  | .memoryBitError .. => true
  | .frameReceived .. => true
  | .frameTransmit .. => true
  | .bulkRecord .. => true
  | .crossDieMove .. => true
  | .cmpFrameProcess .. => true
  | .hostRingRxFrame .. => true
  | .hostRingTxFrame .. => true
  | .regionInitAbort .. => true
  | .reservedEncoding .. => true
  | _ => false

/-- The die and the slot of the unit that a pending setting belongs to (R60). -/
def pendUnit : PendAt → Die × Nat
  | .level d => (d, 0)
  | .timing => (.e0, 1)
  | .quad d q => (d.die, q + 2)
  | .weight d _ => (d.die, 14)
  | .group d _ _ => (d.die, 14)

/-- The invariant that every step keeps: memory is in its canonical form. -/
def State.memCanonical (s : State) : Prop := Mem.wf s.mem = true

end Sys2Proof.Machine
end

