-- ==== Sys2Proof/Certificates/Slice0/Obligations.lean ====
section
/-! DEFINITION. The statements for the provers: what every command does, from every state (see OBLIGATIONS.json). -/

open Sys2Proof Sys2Proof.Machine

/-- Chapter 19: the commands on ATTN_N, user events, the performance counters and the bandwidth monitors run, with the effect the
rules give (R524, R530, R532, R533, R535). -/
def Obligations.EventCommandsRun : Prop :=
  (∀ (force : Bool) (s : State), ∃ t, exec (.attnForceWrite force) s = .next t ∧
    t.get (atDie .e0) .MGT_ATTN_FORCE = natOf force ∧ s.keepsRegs [.MGT_ATTN] t ∧ s.keepsMem t) ∧
  (∀ (die : FDie) (p : Fin 16) (inputs : BitVec 16) (data : BitVec 64) (s : State), s.parcelRuns die.die p = true →
    exec (.userEventInput die p inputs data) s = .next ((List.range 16).foldl (fun t i =>
      if inputs.getLsbD i then t.raise die.die (256 + 16 * p + i) data.toNat else t) s)) ∧
  (∀ (die : Die) (s : State), ∃ t, exec (.pmcClear die) s = .next t ∧ (∀ c, c < 64 → t.pmcCount die c = 0) ∧
    s.keepsRegs [.PMC_CNT_LO, .PMC_CNT_HI] t ∧ s.keepsMem t) ∧
  (∀ (die : Die) (freeze : Bool) (s : State), ∃ t, exec (.pmcFreeze die freeze) s = .next t ∧
    t.get (atDie die) .PMC_CTRL_FREEZE = natOf freeze ∧ s.keepsRegs [.PMC_CTRL] t ∧ s.keepsMem t) ∧
  (∀ (die : Die) (c : Fin 64) (s : State), s.pmcChained die c = false → ∃ t, exec (.pmcCounterRead die c) s = .next t ∧
    t.answer = BitVec.ofNat 32 (s.pmcCount die c) ∧ s.keepsRegs [] t ∧ s.keepsMem t) ∧
  (∀ (die : Die) (c : Fin 64) (s : State), s.pmcLow die c = false → s.pmcCount die c < 2 ^ 48 →
    (s.setPmc die c 0).pmcOvfBit die c = false →
    exec (.pmcOvf die c) s = .next (((s.setPmc die c 0).setPmcOvf die c).raise die Ev.PMC_OVF c)) ∧
  (∀ (die : Die) (m : Fin 32) (v : Word) (s : State), ∃ t, exec (.bwMonitorEnable die m v) s = .next t ∧
    t.reg (atSel die m) .PMC_BW_CFG = Reg.written .PMC_BW_CFG (s.reg (atSel die m) .PMC_BW_CFG) v ∧
    t.bw = (if t.flag (atSel die m) .PMC_BW_CFG_EN then Tbl.set s.bw (bwKey die m) { BwMon.off with waiting := true }
      else Tbl.erase s.bw (bwKey die m)) ∧ s.keepsRegs [.PMC_BW_CFG] t ∧ s.keepsMem t) ∧
  (∀ (die : Die) (m : Fin 32) (s : State), (Tbl.get BwMon.off s.bw (bwKey die m)).running = true →
    (Tbl.get BwMon.off s.bw (bwKey die m)).strokesLeft = 0 → ∃ t, exec (.bwWindowEnd die m) s = .next t ∧
    t.get (atSel die m) .PMC_BW_BYTES_LO_BYTES = (Tbl.get BwMon.off s.bw (bwKey die m)).bytes % 2 ^ 32 ∧
    t.get (atSel die m) .PMC_BW_COUNT_COUNT = (Tbl.get BwMon.off s.bw (bwKey die m)).items % 2 ^ 32 ∧
    t.get (atSel die m) .PMC_BW_CFG_SEQ = (s.get (atSel die m) .PMC_BW_CFG_SEQ + 1) % 2 ^ 14 ∧
    Tbl.get BwMon.off t.bw (bwKey die m) = ⟨false, true, 0, 0, s.bwWindow die m⟩ ∧ s.keepsMem t)

/-- Chapter 19: the commands on the field book (R537, R539, R540, R541, R543, R544) and the calibration commands (R546) run.
Model's choices: log entries 9 (DESIGN CHOICE), 29 (DEDUCED), 217 (DESIGN CHOICE). -/
def Obligations.FieldBookAndCalibrationCommandsRun : Prop :=
  (∀ (s : State), ∃ t, exec .opsecSecond s = .next t ∧ t.book.opsec = (s.book.opsec + 1) % 2 ^ 32 ∧
    t.book.nextSeq = s.book.nextSeq ∧ t.book.ring.map BookRec.seq = s.book.ring.map BookRec.seq ∧ s.keepsRegs [] t ∧ s.keepsMem t) ∧
  (∀ (s : State) (seq : Nat) (upd : Bool) (rest : List (Nat × Bool)), s.bookWrites = true → s.book.eraseDue = none →
    s.book.queue = (seq, upd) :: rest → ∃ t, exec (.fieldBookProgram 0) s = .next t ∧ t.book.queue = rest ∧ t.book.fails = 0 ∧
    t.book.nextSlot = (s.book.nextSlot + 1) % 131072 ∧ s.keepsRegs [] t ∧ s.keepsMem t) ∧
  (∀ (s : State) (seq : Nat) (upd : Bool) (rest : List (Nat × Bool)) (result : Fin 3), s.bookWrites = true →
    s.book.eraseDue = none → s.book.queue = (seq, upd) :: rest → result ≠ 0 → exec (.fieldBookProgram result) s =
    .next ((s.setBook { s.book with nextSlot := (s.book.nextSlot + 1) % 131072 }).flashFailed s.book.nextSlot (if result = 1 then 0 else 2))) ∧
  (∀ (s : State) (k : Nat), s.bookWrites = true → s.book.eraseDue = some k → ∃ t, exec (.fieldBookErase true) s = .next t ∧
    t.book.erased = insertNat k s.book.erased ∧ t.book.queue = s.book.queue ∧ s.keepsRegs [] t ∧ s.keepsMem t) ∧
  (∀ (s : State) (k : Nat), s.bookWrites = true → s.book.eraseDue = some k →
    exec (.fieldBookErase false) s = .next (s.flashFailed (k * 2048) 1)) ∧
  (∀ (responds : Bool) (found : Option (BitVec 17 × BitVec 32 × BitVec 32 × BitVec 24)) (s : State),
    s.flag (atDie .e0) .REC_STAT_MOUNTED = false → s.flashLoad = false → ∃ t, exec (.fieldBookMount responds found) s = .next t ∧
    t.get (atDie .e0) .REC_STAT_MOUNTED = 1 ∧ t.get (atDie .e0) .REC_STAT_NOFLASH = natOf (!responds) ∧
    s.keepsRegs [.REC_STAT] t ∧ s.keepsMem t) ∧
  (∀ (code : BitVec 12) (s : State), s.book.ring.length < 4096 → ∃ t, exec (.recNote code) s = .next t ∧
    (∃ r rest, t.book.ring = r :: rest ∧ r.kind = 2 ∧ r.event = code.toNat ∧
      r.data = s.get (atDie .e0) .REC_NOTE_LO_DATA + s.get (atDie .e0) .REC_NOTE_HI_DATA * 2 ^ 32) ∧
    s.keepsRegs [.REC_NOTE_GO] t ∧ s.keepsMem t) ∧
  (∀ (slot : Fin 4096) (word : Fin 8) (s : State), ∃ t, exec (.recRingRead slot word true) s = .next t ∧
    t.answer = BitVec.ofNat 32 ((s.ringSlot slot).getD word 0) ∧ t.book = s.book ∧ s.keepsRegs [] t ∧ s.keepsMem t) ∧
  (∀ (slot : Fin 4096) (s : State), ∃ t, exec (.recRingRead slot 0 false) s = .next t ∧
    t.answer = BitVec.ofNat 32 ((s.ringSlot slot).getD 0 0) ∧ t.book.latch = s.ringSlot slot ∧ s.keepsRegs [] t ∧ s.keepsMem t) ∧
  (∀ (slot : Fin 4096) (word : Fin 8) (s : State), word ≠ 0 → ∃ t, exec (.recRingRead slot word false) s = .next t ∧
    t.answer = BitVec.ofNat 32 (s.book.latch.getD word 0) ∧ t.book = s.book ∧ s.keepsRegs [] t ∧ s.keepsMem t) ∧
  (∀ (slot : BitVec 17) (s : State), ∃ t, exec (.flashSlotRead slot) s = .next t ∧
    t.get (atDie .e0) .REC_FL_SLOT_SLOT = slot.toNat ∧ t.get (atDie .e0) .REC_FL_SLOT_BUSY = 1 ∧
    s.keepsRegs [.REC_FL_SLOT] t ∧ s.keepsMem t) ∧
  (∀ (bytes : BitVec 256) (s : State), s.flag (atDie .e0) .REC_FL_SLOT_BUSY = true → s.flashLoad = false →
    ∃ t, exec (.flashSlotReadDone bytes) s = .next t ∧ t.get (atDie .e0) .REC_FL_SLOT_BUSY = 0 ∧
    (∀ w, w < 8 → t.get (atElem .e0 w) .REC_FL_DATA_WORD = bytes.toNat / 2 ^ (32 * w) % 2 ^ 32) ∧
    s.keepsRegs [.REC_FL_SLOT, .REC_FL_DATA] t ∧ s.keepsMem t) ∧
  (∀ (s : State), s.flag (atDie .e0) .MGT_STAT_CAL_BUSY = false → s.flashLoad = false →
    s.get (atDie .e0) .MGT_CAL_LEN_PAIRS ≤ 8188 → ∃ t, exec (.saveUser 0x4E) s = .next t ∧
    t.get (atDie .e0) .MGT_STAT_CAL_BUSY = 1 ∧ t.cal = { s.cal with op := 1 } ∧ s.keepsRegs [.MGT_STAT] t ∧ s.keepsMem t) ∧
  (∀ (s : State), s.flag (atDie .e0) .MGT_STAT_CAL_BUSY = false → s.flashLoad = false →
    s.get (atDie .e0) .MGT_CAL_LEN_PAIRS ≤ 8188 → ∃ t, exec (.returnToBenchmark 0x4E) s = .next t ∧
    t.get (atDie .e0) .MGT_STAT_CAL_BUSY = 1 ∧ t.cal = { s.cal with op := 2 } ∧ s.keepsRegs [.MGT_STAT] t ∧ s.keepsMem t) ∧
  (∀ (key : BitVec 8) (s : State), key ≠ 0x4E → ∃ t, exec (.saveUser key) s = .next t ∧ exec (.returnToBenchmark key) s = .next t ∧
    t.get (atDie .e0) .MGT_STAT_CMD_IGNORED = 1 ∧ t.cal = s.cal ∧ s.keepsRegs [.MGT_STAT] t ∧ s.keepsMem t) ∧
  (∀ (pairs : List (BitVec 64)) (s : State), s.flag (atDie .e0) .MGT_STAT_CAL_BUSY = true → ∃ t, exec (.mgtCalDone true pairs) s = .next t ∧
    t.get (atDie .e0) .MGT_STAT_CAL_BUSY = 0 ∧ t.get (atDie .e0) .MGT_STAT_RESULT = 1 ∧
    t.cal = ⟨(s.cal.sector + 1) % 256, (s.cal.gen + 1) % 2 ^ 32, s.cal.op == 2, 0⟩ ∧
    Emit.calCopy ((s.cal.sector + 1) % 256) (calBytes ((s.cal.gen + 1) % 2 ^ 32) (natOf (s.cal.op == 2)) (s.free 256)
      (if s.cal.op = 1 then pairs.take (s.get (atDie .e0) .MGT_CAL_LEN_PAIRS) else [])) ∈ t.sent ∧ s.keepsMem t) ∧
  (∀ (pairs : List (BitVec 64)) (s : State), s.flag (atDie .e0) .MGT_STAT_CAL_BUSY = true → ∃ t, exec (.mgtCalDone false pairs) s = .next t ∧
    t.get (atDie .e0) .MGT_STAT_CAL_BUSY = 0 ∧ t.get (atDie .e0) .MGT_STAT_RESULT = 2 ∧ t.cal = { s.cal with op := 0 } ∧ s.keepsMem t)

/-- Chapter 17: the commands on the SECDED of the on-die memories run (R486 to R489). A word whose check bits match its data is read as
it was after one of its bits has turned, and counts as corrected; after two have turned it counts as uncorrectable.
Model's choices: log entries 25 (DESIGN CHOICE), 215 (DESIGN CHOICE), 252 (DESIGN CHOICE). -/
def Obligations.EccCommandsRun : Prop :=
  (∀ (die : Die) (g : Fin 16) (lap : BitVec 16) (s : State), eccOn die g = true → s.flag (atSel die g) .ECC_GRP_CTRL_SCRUB = true →
    ∃ t, exec (.eccScrubStep die g lap) s = .next t ∧
    Tbl.get 0 t.eccScrub (die.idx * 16 + g) =
      (if Tbl.get 0 s.eccScrub (die.idx * 16 + g) + 1 < eccSize g then Tbl.get 0 s.eccScrub (die.idx * 16 + g) + 1 else 0)) ∧
  (∀ (die : Die) (v : Word) (s : State), ∃ t, exec (.eccTestArm die v) s = .next t ∧
    t.reg (atDie die) .ECC_TEST_CTRL = Reg.written .ECC_TEST_CTRL (s.reg (atDie die) .ECC_TEST_CTRL) v ∧
    s.keepsRegs [.ECC_TEST_CTRL] t ∧ s.keepsMem t) ∧
  (∀ (die : Die) (g : Fin 16) (a : BitVec 24) (bit : Fin 72) (s : State), eccOn die g = true → a.toNat < eccSize g →
    (bit.val < eccWidth g ∨ 2 ^ (bit.val - eccWidth g) < eccChkMask g) → ∃ t, exec (.memoryBitError die g a bit) s = .next t ∧
    t.eccMarked die g a.toNat = true ∧ s.keepsRegs [] t) ∧
  (∀ (die : Die) (g : Fin 16) (a : BitVec 24) (bit : Fin 72) (s : State), eccOn die g = true → a.toNat < eccSize g →
    (bit.val < eccWidth g ∨ 2 ^ (bit.val - eccWidth g) < eccChkMask g) → s.eccMarked die g a.toNat = false →
    s.eccData die g a.toNat < 2 ^ eccWidth g → ∃ t, exec (.memoryBitError die g a bit) s = .next t ∧
    t.eccCheck die g a.toNat = (s.eccData die g a.toNat, .corrected)) ∧
  (∀ (die : Die) (g : Fin 16) (a : BitVec 24) (bit other : Fin 72) (s u : State), eccOn die g = true → a.toNat < eccSize g →
    (bit.val < eccWidth g ∨ 2 ^ (bit.val - eccWidth g) < eccChkMask g) →
    (other.val < eccWidth g ∨ 2 ^ (other.val - eccWidth g) < eccChkMask g) → bit ≠ other → s.eccMarked die g a.toNat = false →
    s.eccData die g a.toNat < 2 ^ eccWidth g → exec (.memoryBitError die g a other) s = .next u →
    ∃ t, exec (.memoryBitError die g a bit) u = .next t ∧ (t.eccCheck die g a.toNat).2 = .uncorrectable)

/-- Chapter 03, shared column rails (R85 to R92): the detector disables a rail that two drivers drive, counts, and records the first; a
clear re-enables the drivers, and the detector acts again on the rails it still finds contended; a keeper holds the value of the one driver
of its rail, and a rail without a driver shows it.
Model's choices: log entries 158 (DEDUCED). -/
def Obligations.RailCommandsRun : Prop :=
  (∀ (die : FDie) (rail : Fin 24576) (s : State), 2 ≤ (s.railOn die.die rail).length →
    1 ≤ s.stageOf die.die (railParcel rail) → s.railFlag die.die rail = false → ∃ t, exec (.railContention die rail) s = .next t ∧
    t.railFlag die.die rail = true ∧ t.railOff die.die rail = true ∧
    t.get (atDie die.die) .CFG_RAIL_COUNT_COUNT = satAdd (2 ^ 16 - 1) (s.get (atDie die.die) .CFG_RAIL_COUNT_COUNT) 1 ∧
    t.get (atDie die.die) .CFG_RAIL_CONT_VALID = 1 ∧
    (s.get (atDie die.die) .CFG_RAIL_CONT_VALID = 0 → t.get (atDie die.die) .CFG_RAIL_CONT_RAIL = rail % 64 ∧
      t.get (atDie die.die) .CFG_RAIL_CONT_LCOL = rail / 64 % 96 ∧ t.get (atDie die.die) .CFG_RAIL_CONT_PROW = rail / 64 / 96) ∧
    s.keepsRegs (.CFG_RAIL_DATA :: .CFG_RAIL_COUNT :: .CFG_RAIL_CONT :: eventRegs) t ∧ s.keepsMem t) ∧
  (∀ (die : FDie) (rail : Fin 24576) (s : State), ((s.railOn die.die rail).length < 2 ∨ s.stageOf die.die (railParcel rail) = 0 ∨
    s.railFlag die.die rail = true) → exec (.railContention die rail) s = .next (s.railSettle die.die)) ∧
  (∀ (die : FDie) (rail : Fin 24576) (row : Nat) (s : State), s.railOn die.die rail = [row] →
    1 ≤ s.stageOf die.die (railParcel rail) → s.railFlag die.die rail = false → ∃ t, exec (.railContention die rail) s = .next t ∧
    t.keeper die.die rail = s.nodeVal die.die (.railData rail row) ∧ s.keepsRegs [] t ∧ s.keepsMem t) ∧
  (∀ (die : FDie) (group : Fin 768) (mask : BitVec 32) (s u : State),
    u = s.put (atSel die.die group) .CFG_RAIL_DATA_FLAG (s.reg (atSel die.die group) .CFG_RAIL_DATA &&& ~~~ mask).toNat →
    (∀ b, b < 32 → (u.railOn die.die (32 * group + b)).length < 2) → ∃ t, exec (.railFlagClear die group mask) s = .next t ∧
    t.reg (atSel die.die group) .CFG_RAIL_DATA = s.reg (atSel die.die group) .CFG_RAIL_DATA &&& ~~~ mask ∧
    s.keepsRegs [.CFG_RAIL_DATA] t ∧ s.keepsMem t) ∧
  (∀ (die : FDie) (group : Fin 768) (b : Fin 32) (mask : BitVec 32) (s u : State),
    u = s.put (atSel die.die group) .CFG_RAIL_DATA_FLAG (s.reg (atSel die.die group) .CFG_RAIL_DATA &&& ~~~ mask).toNat →
    mask.getLsbD b = true → s.railFlag die.die (32 * group + b) = true → 2 ≤ (u.railOn die.die (32 * group + b)).length →
    1 ≤ s.stageOf die.die (railParcel (32 * group + b)) → ∃ t, exec (.railFlagClear die group mask) s = .next t ∧
    t.railFlag die.die (32 * group + b) = true ∧ t.get (atDie die.die) .CFG_RAIL_CONT_VALID = 1 ∧
    s.keepsRegs (.CFG_RAIL_DATA :: .CFG_RAIL_COUNT :: .CFG_RAIL_CONT :: eventRegs) t ∧ s.keepsMem t) ∧
  (∀ (die : FDie) (s : State), (∀ n, n < 24576 → ((s.railClearAll die.die).railOn die.die n).length < 2) →
    ∃ t, exec (.railClearAll die) s = .next t ∧
    (∀ n, n < 24576 → t.railFlag die.die n = false) ∧ s.keepsRegs [.CFG_RAIL_DATA] t ∧ s.keepsMem t) ∧
  (∀ (die : FDie) (rail : Fin 24576) (s : State), s.railFlag die.die rail = true →
    2 ≤ ((s.railClearAll die.die).railOn die.die rail).length → 1 ≤ s.stageOf die.die (railParcel rail) →
    ∃ t, exec (.railClearAll die) s = .next t ∧ t.railFlag die.die rail = true ∧ t.get (atDie die.die) .CFG_RAIL_CONT_VALID = 1 ∧
    s.keepsRegs (.CFG_RAIL_DATA :: .CFG_RAIL_COUNT :: .CFG_RAIL_CONT :: eventRegs) t ∧ s.keepsMem t) ∧
  (∀ (d : Die) (q : Nat) (rail : Nat) (s : State), s.railOff d rail = true → s.sigVal d (pathBound + 1) q (.rail rail) = s.keeper d rail)

/-- Chapter 03, clock nets and flip-flops (R72, R79, R94 to R99): an edge of a source that can give one takes the global nets on it to their
new level; from stage 3 of its parcel's release the flip-flops of a cluster with an active edge take their next values, and all others keep
theirs; before stage 3 GSR holds them; no cluster's setting and no memory changes.
Model's choices: log entries 35 (DEDUCED), 158 (DEDUCED), 183 (DESIGN CHOICE). -/
def Obligations.FlipFlopCommandsRun : Prop :=
  (∀ (die : FDie) (cluster : Fin 270336) (src : ClkSrc) (rising : Bool) (ins : List FabInput) (edges : List (Nat × Bool))
    (cfg : Config.ClusterCfg) (e0 e1 : Bool) (s u : State),
    u = (ins.foldl (fun s i => s.present die.die i) (s.railSettle die.die)).railSettle die.die → u.srcMoves die.die src rising = true →
    Tbl.has u.clusters (clusterKey die.die cluster) = true → cfg = u.cluster die.die cluster →
    edges = u.parcelEdges die.die (clusterParcel cluster) src rising (u.globalEdge die.die src rising) →
    e0 = u.edgeAt die.die edges (clusterBox cluster) cfg.clk0 cfg.inv0 →
    e1 = u.edgeAt die.die edges (clusterBox cluster) cfg.clk1 cfg.inv1 → (e0 || e1) = true →
    u.stageOf die.die (clusterParcel cluster) = 3 → ∃ t, exec (.flipFlopClockEdge die src rising ins) s = .next t ∧
    t.ff die.die cluster = BitVec.ofNat 16 (ffRow cfg.async e0 e1 (u.nodeVal die.die (.cell cluster 64))
      (u.nodeVal die.die (.cell cluster 65)) (u.nodeVal die.die (.cell cluster 66)) (u.ff die.die cluster) 0
      ((cfg.cells.zip (cellIns fun pin => u.nodeVal die.die (.cell cluster pin))).zip
        (clusterOut cfg cluster (cellIns fun pin => u.nodeVal die.die (.cell cluster pin)) (match clusterBelow cluster with
          | some m => u.sigVal die.die pathBound (clusterParcel cluster) (.out m 32)
          | none => false)).1)) ∧ t.clusters = s.clusters ∧ s.keepsMem t) ∧
  (∀ (die : FDie) (cluster : Fin 270336) (src : ClkSrc) (rising : Bool) (ins : List FabInput) (edges : List (Nat × Bool))
    (cfg : Config.ClusterCfg) (s u : State), u = (ins.foldl (fun s i => s.present die.die i) (s.railSettle die.die)).railSettle die.die →
    cfg = u.cluster die.die cluster →
    edges = u.parcelEdges die.die (clusterParcel cluster) src rising (u.globalEdge die.die src rising) →
    (u.stageOf die.die (clusterParcel cluster) < 3 ∨ (u.edgeAt die.die edges (clusterBox cluster) cfg.clk0 cfg.inv0 = false ∧
      u.edgeAt die.die edges (clusterBox cluster) cfg.clk1 cfg.inv1 = false)) →
    ∃ t, exec (.flipFlopClockEdge die src rising ins) s = .next t ∧ t.ff die.die cluster = s.ff die.die cluster ∧
    t.clusters = s.clusters ∧ s.keepsMem t) ∧
  (∀ (die : FDie) (n : Nat) (src : ClkSrc) (rising : Bool) (ins : List FabInput) (s u : State),
    u = (ins.foldl (fun s i => s.present die.die i) (s.railSettle die.die)).railSettle die.die → u.srcMoves die.die src rising = true →
    n ∈ u.globalEdge die.die src rising → ∃ t, exec (.flipFlopClockEdge die src rising ins) s = .next t ∧
    t.isHigh (globalKey die.die n) = rising ∧ s.keepsMem t) ∧
  (∀ (die : FDie) (src : ClkSrc) (rising : Bool) (ins : List FabInput) (s u : State),
    u = (ins.foldl (fun s i => s.present die.die i) (s.railSettle die.die)).railSettle die.die → u.srcMoves die.die src rising = false →
    exec (.flipFlopClockEdge die src rising ins) s = .next u) ∧
  (∀ (die : FDie) (cluster : Fin 270336) (s : State), (s.cluster die.die cluster).async = true →
    s.stageOf die.die (clusterParcel cluster) = 3 → s.nodeVal die.die (.cell cluster 66) = true →
    ∃ t, exec (.asyncSrAssert die cluster) s = .next t ∧
    t.ff die.die cluster = BitVec.ofNat 16 (srRow (s.ff die.die cluster) 0 (s.cluster die.die cluster).cells) ∧
    t.clusters = s.clusters ∧ s.keepsRegs [] t ∧ s.keepsMem t) ∧
  (∀ (die : FDie) (cluster : Fin 270336) (s : State), ((s.cluster die.die cluster).async = false ∨
    s.stageOf die.die (clusterParcel cluster) ≠ 3 ∨ s.nodeVal die.die (.cell cluster 66) = false) →
    exec (.asyncSrAssert die cluster) s = .next s)

/-- Chapter 04. A true dual-port block RAM of 32-bit words without output registers (R105 to R111, R114): a read from
stage 3 presents the stored word, a write from stage 2 stores its enabled bytes, and nothing else of the block RAMs or of memory
changes; a simple dual-port block of 64-bit words writes and reads two words at once. Multiply blocks (R117 to R123): an enabled edge from stage 3 of the parcel's release moves every stage on; without CE, and
while GSR holds the stages, the block stays as it is; in a block without the optional stages P adds the product of A and B.
Model's choices: log entries 12 (DEDUCED), 25 (DESIGN CHOICE), 32 (DEDUCED), 35 (DEDUCED), 158 (DEDUCED), 185 (DESIGN CHOICE),
225 (DESIGN CHOICE). -/
def Obligations.BlockRamAndMultiplyCommandsRun : Prop :=
  (∀ (die : FDie) (block : Fin 2112) (portB rsto : Bool) (addr : BitVec 12) (c : Config.BramCfg) (s : State),
    s.stageOf die.die (bramParcel block) = 3 → s.frozen.contains (parcelKey die.die (bramParcel block)) = false →
    s.bramSet die.die block = c → c.simple = false → c.geomA = 2 → c.geomB = 2 → c.outA = false → c.outB = false → s.eccMarked die.die 0 (block * 1024 + addr.toNat % 1024) = false →
    ∃ t, exec (.bramRead die block portB addr rsto none) s = .next t ∧
    (Tbl.get BramPort.none t.bramPorts (bramKey die.die block * 2 + natOf portB)).dout =
      s.eccData die.die 0 (block * 1024 + addr.toNat % 1024) ∧ t.bram = s.bram ∧ s.keepsMem t) ∧
  (∀ (die : FDie) (block : Fin 2112) (portB : Bool) (x : BramAccess) (c : Config.BramCfg) (s : State), x.we.toNat % 16 = 15 →
    2 ≤ s.stageOf die.die (bramParcel block) → s.frozen.contains (parcelKey die.die (bramParcel block)) = false →
    s.bramSet die.die block = c → c.simple = false → c.geomA = 2 → c.geomB = 2 →
    ∃ t, exec (.bramWrite die block portB x none) s = .next t ∧
    t.eccData die.die 0 (block * 1024 + x.addr.toNat % 1024) = x.din.toNat % 2 ^ 32 ∧
    (∀ a, a ≠ block * 1024 + x.addr.toNat % 1024 → t.eccData die.die 0 a = s.eccData die.die 0 a) ∧ s.keepsMem t) ∧
  (∀ (die : FDie) (block : Fin 2112) (portB : Bool) (x : BramAccess) (c : Config.BramCfg) (s : State), x.we.toNat % 16 ≠ 0 →
    x.we.toNat % 16 ≠ 15 →
    2 ≤ s.stageOf die.die (bramParcel block) → s.frozen.contains (parcelKey die.die (bramParcel block)) = false →
    s.bramSet die.die block = c → c.simple = false → c.geomA = 2 → c.geomB = 2 →
    s.eccMarked die.die 0 (block * 1024 + x.addr.toNat % 1024) = false → ∃ t, exec (.bramNarrowWrite die block portB x none) s = .next t ∧
    t.eccData die.die 0 (block * 1024 + x.addr.toNat % 1024) =
      mergeBytes (s.eccData die.die 0 (block * 1024 + x.addr.toNat % 1024)) (x.din.toNat % 2 ^ 32) (x.we.toNat % 16) 4 ∧
    (∀ a, a ≠ block * 1024 + x.addr.toNat % 1024 → t.eccData die.die 0 a = s.eccData die.die 0 a) ∧ s.keepsMem t) ∧
  (∀ (die : FDie) (block : Fin 2112) (portB rsto : Bool) (addr : BitVec 12) (s : State),
    s.stageOf die.die (bramParcel block) < 3 →
    exec (.bramRead die block portB addr rsto none) s = .next (s.railSettle die.die)) ∧
  (∀ (die : FDie) (block : Fin 2112) (x : BramAccess) (c : Config.BramCfg) (s : State), x.we = 255 →
    2 ≤ s.stageOf die.die (bramParcel block) → s.frozen.contains (parcelKey die.die (bramParcel block)) = false →
    s.bramSet die.die block = c → c.simple = true → c.geomA = 3 → ∃ t, exec (.bramWrite die block false x none) s = .next t ∧
    t.eccData die.die 0 (block * 1024 + 2 * (x.addr.toNat % 512)) = x.din.toNat % 2 ^ 32 ∧
    t.eccData die.die 0 (block * 1024 + 2 * (x.addr.toNat % 512) + 1) = x.din.toNat / 2 ^ 32 ∧
    (∀ a, a ≠ block * 1024 + 2 * (x.addr.toNat % 512) → a ≠ block * 1024 + 2 * (x.addr.toNat % 512) + 1 →
      t.eccData die.die 0 a = s.eccData die.die 0 a) ∧ s.keepsMem t) ∧
  (∀ (die : FDie) (block : Fin 2112) (addr : BitVec 12) (c : Config.BramCfg) (s : State),
    s.stageOf die.die (bramParcel block) = 3 → s.frozen.contains (parcelKey die.die (bramParcel block)) = false →
    s.bramSet die.die block = c → c.simple = true → c.geomB = 3 → c.outB = false →
    s.eccMarked die.die 0 (block * 1024 + 2 * (addr.toNat % 512)) = false →
    s.eccMarked die.die 0 (block * 1024 + 2 * (addr.toNat % 512) + 1) = false →
    ∃ t, exec (.bramRead die block true addr false none) s = .next t ∧
    (Tbl.get BramPort.none t.bramPorts (bramKey die.die block * 2)).dout = s.eccData die.die 0 (block * 1024 + 2 * (addr.toNat % 512)) ∧
    (Tbl.get BramPort.none t.bramPorts (bramKey die.die block * 2 + 1)).dout =
      s.eccData die.die 0 (block * 1024 + 2 * (addr.toNat % 512) + 1) ∧ t.bram = s.bram ∧ s.keepsMem t) ∧
  (∀ (die : FDie) (block : Fin 4224) (rst : Bool) (i : MultIn) (s : State), s.stageOf die.die (multParcel block) = 3 →
    s.frozen.contains (parcelKey die.die (multParcel block)) = false →
    ∃ t, exec (.multiplyClockEdge die block true rst i) s = .next t ∧ s.keepsRegs [] t ∧ s.keepsMem t ∧
    t.mult die.die block = (if rst then MultRegs.zero else
      multEdge (s.multSet die.die block) (s.mult die.die block) i (s.pcin die.die block) false) ∧
    (∀ c : Config.MultCfg, s.multSet die.die block = c → c.stage1 = false → c.stage2 = false → c.stage3 = false → c.preadd = false →
      rst = false → i.zsel = 1 → i.msub = false →
      (t.mult die.die block).p = wrapS 64 ((s.mult die.die block).p + i.a.toInt * i.b.toInt))) ∧
  (∀ (die : FDie) (block : Fin 4224) (rst : Bool) (i : MultIn) (s : State),
    exec (.multiplyClockEdge die block false rst i) s = .next (s.railSettle die.die)) ∧
  (∀ (die : FDie) (block : Fin 4224) (ce rst : Bool) (i : MultIn) (s : State), s.stageOf die.die (multParcel block) < 3 →
    exec (.multiplyClockEdge die block ce rst i) s = .next (s.railSettle die.die))

/-- R118, R119 and R122, on an enabled edge of a multiply block from stage 3 of its parcel's release, without RST: the pre-adder wraps
A + D or A − D to 26 bits signed (A alone where it is bypassed, and never in the range −2^24 to 2^24 − 1); M is the exact product, of a
magnitude of at most 2^44, which −2^25 times −2^19 alone reaches; and O and SAT of P are its arithmetic shift by SHIFT, truncated or
convergent, with saturation to W bits where that is on. -/
def Obligations.MultiplyBlockArithmetic : Prop :=
  (∀ (die : FDie) (block : Fin 4224) (i : MultIn) (a b d : Int) (psub : Bool) (s : State), s.stageOf die.die (multParcel block) = 3 →
    s.frozen.contains (parcelKey die.die (multParcel block)) = false →
    a = (if (s.multSet die.die block).stage1 then (s.mult die.die block).a else i.a.toInt) →
    b = (if (s.multSet die.die block).stage1 then (s.mult die.die block).b else i.b.toInt) →
    d = (if (s.multSet die.die block).stage1 then (s.mult die.die block).d else i.d.toInt) →
    psub = (if (s.multSet die.die block).stage1 then (s.mult die.die block).psub else i.psub) →
    ∃ t, exec (.multiplyClockEdge die block true false i) s = .next t ∧
    ((s.multSet die.die block).preadd = true → -(2 ^ 25) ≤ (t.mult die.die block).pre ∧ (t.mult die.die block).pre < 2 ^ 25 ∧
      ((t.mult die.die block).pre - (if psub then a - d else a + d)) % 2 ^ 26 = 0 ∧
      (-(2 ^ 24) ≤ a → a < 2 ^ 24 → -(2 ^ 24) ≤ d → d < 2 ^ 24 →
        (t.mult die.die block).pre = if psub then a - d else a + d)) ∧
    ((s.multSet die.die block).preadd = false → (t.mult die.die block).pre = a) ∧
    (t.mult die.die block).m = (if (s.multSet die.die block).stage2 then (s.mult die.die block).pre * (s.mult die.die block).b2
      else (t.mult die.die block).pre * b) ∧
    t.multO die.die block = (if (s.multSet die.die block).stage5 then multOut (s.multSet die.die block) (s.mult die.die block).p
      else multOut (s.multSet die.die block) (t.mult die.die block).p)) ∧
  (∀ x y : Int, -(2 ^ 25) ≤ x → x < 2 ^ 25 → -(2 ^ 19) ≤ y → y < 2 ^ 19 → (x * y).natAbs ≤ 2 ^ 44 ∧
    ((x * y).natAbs = 2 ^ 44 ↔ x = -(2 ^ 25) ∧ y = -(2 ^ 19))) ∧
  (∀ (cfg : Config.MultCfg) (p v : Int), cfg.saturate = false → v = (multOut cfg p).1 → (multOut cfg p).2 = false ∧
    (cfg.shift = 0 → v = p) ∧ (cfg.convergent = false → v * 2 ^ cfg.shift ≤ p ∧ p < (v + 1) * 2 ^ cfg.shift) ∧
    (cfg.convergent = true → 2 * (p - v * 2 ^ cfg.shift).natAbs ≤ 2 ^ cfg.shift ∧
      (cfg.shift ≠ 0 → 2 * (p - v * 2 ^ cfg.shift).natAbs = 2 ^ cfg.shift → v % 2 = 0))) ∧
  (∀ (cfg : Config.MultCfg) (p v : Int), cfg.saturate = true → 2 ≤ cfg.satWidth → cfg.satWidth ≤ 63 →
    v = (multOut { cfg with saturate := false } p).1 →
    (2 ^ (cfg.satWidth - 1) - 1 < v → multOut cfg p = (2 ^ (cfg.satWidth - 1) - 1, true)) ∧
    (v < -(2 ^ (cfg.satWidth - 1)) → multOut cfg p = (-(2 ^ (cfg.satWidth - 1)), true)) ∧
    (-(2 ^ (cfg.satWidth - 1)) ≤ v → v ≤ 2 ^ (cfg.satWidth - 1) - 1 → multOut cfg p = (v, false)))

/-- Chapters 00, 01 and 18, power-up and the losses of dies (R31 to R34, R51, R499, R507, R512, R516).
Model's choices: log entries 35 (DEDUCED), 36 (DEDUCED), 145 (DEDUCED), 147 (DEDUCED), 149 (DEDUCED), 178 (DEDUCED). -/
def Obligations.DieCommandsRun : Prop :=
  (∀ s : State, s.clk.power = 0 → ∃ t, exec .islandStart s = .next t ∧ t.clk.power = 1 ∧
    t.flag (atSel .e0 0) .PWR_RAIL_STAT_GOOD = true ∧ (∀ d : Die, t.reg (atDie d) .DIE_RST_CAUSE = 3) ∧
    s.keepsRegs [.PWR_RAIL_STAT, .DIE_RST_CAUSE] t ∧ s.keepsMem t) ∧
  (∀ (mode : BitVec 3) (pull : Bool) (s u : State), s.clk.power = 1 → s.railsGood = true → s.cfg.progLow = false →
    u = Die.all.foldl (fun s d => if d.isFab then s.avsWrite d 750 else s)
      (((s.setClk { s.clk with power := 2 }).bookAdd 3 0 (s.reg (atDie .e0) .DIE_RST_CAUSE).toNat).puts (atDie .e0)
        [(.CFG_SRC_MODE, mode.toNat), (.CFG_SRC_PULL, natOf pull)]) →
    exec (.powerOnResetRelease mode pull) s =
      .next ((u.setClk { u.clk with volt := (Die.all.filter Die.isFab).map Die.idx }).fullStart 0 true)) ∧
  (∀ (key dies : BitVec 8) (debug : Bool) (s : State), key ≠ 0x5D → exec (.dieResetRequest key dies debug) s = .next s) ∧
  (∀ (d : Die) (debug : Bool) (s : State), d ≠ .e0 → s.dieSt d = 0 ∨ s.dieSt d = 3 →
    exec (.dieResetRequest 0x5D (BitVec.ofNat 8 (2 ^ d.idx)) debug) s = .next (s.dieReset d (if debug then 36 else 4) false)) ∧
  (∀ (d : Die) (debug : Bool) (s : State), d ≠ .e0 → s.dieSt d = 1 ∨ s.dieSt d = 2 →
    ∃ t, exec (.dieResetRequest 0x5D (BitVec.ofNat 8 (2 ^ d.idx)) debug) s = .next t ∧ t.bit (atDie .e0) .DIE_STATE_IGNORED d.idx = true ∧
    s.keepsRegs [.DIE_STATE] t ∧ s.keepsMem t) ∧
  (∀ (d : Die) (s : State), s.dieSt d = 1 → s.flag (atSel .e0 (coreRail d)) .PWR_RAIL_STAT_GOOD = true →
    s.flag (atDie d) .PWR_PL_STAT_SEQ = false → exec (.dieResetRelease d) s = .next (((List.range 88).foldl (fun s ch =>
      if chanOn d ch then (let p := s.dieSt (chanPeer d ch); if s.clk.locked = true ∧ (p = 0 ∨ p = 2) then s.weldTrain ch else s) else s)
      (((s.put (atDie .e0) (.DIE_STATE_ST d.idx) 2).setDieStep (Tbl.set s.dieStep d.idx 2)).puts (atDie d)
        [(.STK_STATUS_ALIGNED, 1), (.STK_STROKE_NUM_NUM, ((s.put (atDie .e0) (.DIE_STATE_ST d.idx) 2).get (atDie .e0) .STK_STROKE_NUM_NUM)),
          (.STK_HEAT_NUM_NUM, ((s.put (atDie .e0) (.DIE_STATE_ST d.idx) 2).get (atDie .e0) .STK_HEAT_NUM_NUM))])).returnTrained d)) ∧
  (∀ (d : Die) (s : State), d ≠ .e0 → s.clk.locked = true → s.dieSt d = 0 ∨ s.dieSt d = 2 →
    s.flag (atSel .e0 (coreRail d)) .PWR_RAIL_STAT_GOOD = true → exec (.dieClockLoss d) s = .next (s.clockLost d)) ∧
  (∀ (rail : Fin 29) (mv : BitVec 12) (s : State), s.clk.power ≠ 0 → ∃ t, exec (.railGood rail mv) s = .next t ∧
    t.get (atSel .e0 rail) .PWR_RAIL_STAT_GOOD = 1 ∧ t.get (atSel .e0 rail) .PWR_RAIL_STAT_WARN = 0 ∧
    t.get (atSel .e0 rail) .PWR_RAIL_STAT_MV = mv.toNat ∧ s.keepsRegs [.PWR_RAIL_STAT, .PWR_RAIL_DIP, .PWR_PL_STAT] t ∧
    (rail.val < 2 ∨ 8 < rail.val ∨ Tbl.get 0 s.dieStep (rail - 1) ≠ 6 → t.dieStep = s.dieStep ∧
      s.keepsRegs [.PWR_RAIL_STAT, .PWR_RAIL_DIP] t) ∧ s.keepsMem t) ∧
  (∀ (die : FDie) (mv : BitVec 12) (s : State), s.clk.power ≠ 0 → Tbl.get 0 s.dieStep die.die.idx = 6 →
    ∃ t, exec (.railGood (Fin.ofNat 29 (coreRail die.die)) mv) s = .next t ∧ Tbl.get 0 t.dieStep die.die.idx = 1 ∧
    t.get (atDie die.die) .PWR_PL_STAT_VREQ = 750 ∧ t.flag (atDie die.die) .PWR_PL_STAT_SEQ = true ∧
    (∀ d : Die, d ≠ die.die → t.reg (atDie d) .PWR_PL_STAT = s.reg (atDie d) .PWR_PL_STAT) ∧ s.keepsMem t) ∧
  (∀ (rail : Fin 29) (min mv : BitVec 12) (s : State), s.clk.power = 1 → rail ≠ 0 →
    s.flag (atSel .e0 rail) .PWR_RAIL_STAT_GOOD = true → ∃ t, exec (.railBelowReset rail min mv) s = .next t ∧
    t.get (atSel .e0 rail) .PWR_RAIL_STAT_GOOD = 0 ∧ t.get (atSel .e0 rail) .PWR_RAIL_STAT_WARN = 1 ∧
    s.keepsRegs (.PWR_RAIL_STAT :: .PWR_RAIL_DIP :: eventRegs) t ∧ s.keepsMem t) ∧
  (∀ (min mv : BitVec 12) (s : State), s.clk.power ≠ 0 → s.flag (atSel .e0 0) .PWR_RAIL_STAT_GOOD = true →
    ∃ t, exec (.railBelowReset 0 min mv) s = .next t ∧ t.mem = [] ∧ t.clk = State.reset.clk) ∧
  (∀ (die : FDie) (s : State), s.flag (atDie die.die) .PWR_PL_STAT_SEQ = true →
    exec (.pwrVoltageGood die) s = .next (((((s.setClk { s.clk with volt := removeNat die.die.idx s.clk.volt }).put (atDie die.die)
      .PWR_PL_STAT_SEQ 0).nomSync die.die).levelsSync).loadOn)) ∧
  (∀ s u : State, s.clk.power = 2 → s.clk.locked = false → s.srcReady s.active = true →
    u = (s.put (atDie .e0) .CLK_STATUS_LOCKED 1).setClk { s.clk with locked := true } → exec .datumPllLock s =
    .next ((Die.all.foldl (fun t d => t.returnTrained d)
      ((List.range 88).foldl (fun t ch => if (u.dieSt (chanDies ch).1 == 0 || u.dieSt (chanDies ch).1 == 2) &&
        (u.dieSt (chanDies ch).2 == 0 || u.dieSt (chanDies ch).2 == 2) then t.weldTrain ch else t)
      (Die.all.foldl (fun t d => if u.dieSt d == 0 || u.dieSt d == 2 then t.put (atDie d) .STK_STATUS_ALIGNED 1 else t) u))).loadOn)) ∧
  (∀ s : State, s.clk.locked = true → s.clk.relocks = true → exec .datumPllLock s =
    .next (((s.puts (atDie .e0) [(.CLK_STATUS_LOCKED, 1), (.CLK_STATUS_COAST, 0)]).setClk { s.clk with relocks := false }).raise
      .e0 Ev.CLK_COAST 0).loadOn)

/-- Chapter 02, strokes and armed changes (R48, R55, R61 to R66): the commands on the stroke generator and on the unit slots.
Model's choices: log entries 35 (DEDUCED), 106 (DEDUCED), 107 (DEDUCED), 120 (DEDUCED), 121 (DEDUCED), 122 (DEDUCED), 154
(DEDUCED), 155 (DEDUCED), 222 (DESIGN CHOICE), 223 (DESIGN CHOICE), 224 (DESIGN CHOICE). -/
def Obligations.StrokeAndChangeCommandsRun : Prop :=
  (∀ (late : List (Die × Fin 25)) (s : State), s.clk.locked = true → exec (.stroke late) s = .next (s.stroke late)) ∧
  (∀ (late : List (Die × Fin 25)) (s : State), s.clk.locked = false → exec (.stroke late) s = .next s) ∧
  (∀ s : State, dividesSecond (s.get (atDie .e0) .STK_TIMING_PERIOD) (s.get (atDie .e0) .STK_TIMING_HEAT) = true →
    s.flag (atDie .e0) .PKT_TOD_CTRL_RUN = true → s.flag (atDie .e0) .STK_STATUS_UNTIMED = false →
    ∃ t, exec (.ptpLockRequest true) s = .next t ∧ t.flag (atDie .e0) .STK_CTRL_PTP_LOCK = true ∧ t.units.slews = true ∧
    s.keepsRegs [.STK_CTRL] t ∧ s.keepsMem t) ∧
  (∀ s : State, dividesSecond (s.get (atDie .e0) .STK_TIMING_PERIOD) (s.get (atDie .e0) .STK_TIMING_HEAT) = false ∨
    s.flag (atDie .e0) .PKT_TOD_CTRL_RUN = false ∨ s.flag (atDie .e0) .STK_STATUS_UNTIMED = true →
    ∃ t, exec (.ptpLockRequest true) s = .next t ∧ t.flag (atDie .e0) .STK_STATUS_LOCK_REFUSED = true ∧ t.units = s.units ∧
    s.keepsRegs [.STK_CTRL, .STK_STATUS] t ∧ s.keepsMem t) ∧
  (∀ s : State, ∃ t, exec (.ptpLockRequest false) s = .next t ∧ t.get (atDie .e0) .STK_CTRL_PTP_LOCK = 0 ∧
    t.get (atDie .e0) .STK_STATUS_LOCKED = 0 ∧ t.units.slews = false ∧ s.keepsRegs [.STK_CTRL, .STK_STATUS] t ∧ s.keepsMem t) ∧
  (∀ (d : Die) (s : State), s.up d = true → s.get (atDie d) .STK_UNIT_CTRL_ARM = 0 → ∃ t, exec (.unitArm d 0x8000) s = .next t ∧
    t.get (atDie d) .STK_UNIT_CTRL_ARM = 0x8000 ∧ s.keepsRegs [.STK_UNIT_CTRL] t ∧ s.keepsMem t) ∧
  (∀ s : State, s.up .e0 = true → s.get (atDie .e0) .STK_UNIT_CTRL_ARM = 0 → s.timingFits = false →
    ∃ t, exec (.unitArm .e0 2) s = .next t ∧ t.get (atDie .e0) .STK_UNIT_CTRL_ARM = 2 ∧
    t.get (atDie .e0) .STK_STATUS_NEXT_REFUSED = 1 ∧ s.keepsRegs [.STK_UNIT_CTRL, .STK_STATUS] t ∧ s.keepsMem t) ∧
  (∀ (d : Die) (arm : BitVec 16) (s : State), s.up d = false → exec (.unitArm d arm) s = .next s) ∧
  (∀ (v : Word) (s : State), s.up .e0 = true → ∃ t, exec (.pendingSettingWrite .timing v) s = .next t ∧
    t.reg (atDie .e0) .STK_TIMING_NEXT = Reg.written .STK_TIMING_NEXT (s.reg (atDie .e0) .STK_TIMING_NEXT) v ∧
    t.armBit .e0 1 = false ∧ s.keepsRegs [.STK_TIMING_NEXT, .STK_UNIT_CTRL] t ∧ s.keepsMem t) ∧
  (∀ (d : PDie) (q : Fin 12) (v : Word) (s : State), s.up d.die = true → ∃ t, exec (.pendingSettingWrite (.quad d q) v) s = .next t ∧
    t.reg (atUnit d.die q) .LAN_QUAD_RATE_NEXT = Reg.written .LAN_QUAD_RATE_NEXT (s.reg (atUnit d.die q) .LAN_QUAD_RATE_NEXT) v ∧
    t.armBit d.die (q + 2) = false ∧ s.keepsRegs [.LAN_QUAD_RATE_NEXT, .STK_UNIT_CTRL] t ∧ s.keepsMem t) ∧
  (∀ (d : PDie) (q : BitVec 16) (v : Word) (s : State), s.up d.die = true → ∃ t, exec (.pendingSettingWrite (.weight d q) v) s = .next t ∧
    t.reg (atSel d.die q.toNat) .PKT_Q_SCHED_NEXT = Reg.written .PKT_Q_SCHED_NEXT (s.reg (atSel d.die q.toNat) .PKT_Q_SCHED_NEXT) v ∧
    t.armBit d.die 14 = false ∧ s.keepsRegs [.PKT_Q_SCHED_NEXT, .STK_UNIT_CTRL] t ∧ s.keepsMem t) ∧
  (∀ (d : PDie) (p : Fin 48) (k : Fin 4) (v : Word) (s : State), s.up d.die = true →
    ∃ t, exec (.pendingSettingWrite (.group d p k) v) s = .next t ∧
    t.reg ⟨d.die, 0, k, p⟩ .PKT_GRP_NEXT = Reg.written .PKT_GRP_NEXT (s.reg ⟨d.die, 0, k, p⟩ .PKT_GRP_NEXT) v ∧
    t.armBit d.die 14 = false ∧ s.keepsRegs [.PKT_GRP_NEXT, .STK_UNIT_CTRL] t ∧ s.keepsMem t) ∧
  (∀ (d : Die) (v : Word) (s : State), s.up d = true → s.armBit d 0 = false → ∃ t, exec (.pendingSettingWrite (.level d) v) s = .next t ∧
    t.reg (atDie d) .PWR_PL_NEXT = Reg.written .PWR_PL_NEXT (s.reg (atDie d) .PWR_PL_NEXT) v ∧
    s.keepsRegs [.PWR_PL_NEXT] t ∧ s.keepsMem t) ∧
  (∀ s : State, s.chgSt = 0 → ∃ t, exec .changeGo s = .next t ∧ t.chgSt = 1 ∧ t.get (atDie .e0) .STK_CHG_STATUS_RETRIES = 0 ∧
    s.keepsRegs [.STK_CHG_STATUS] t ∧ s.keepsMem t) ∧
  (∀ s : State, s.chgSt ≠ 0 → ∃ t, exec .changeGo s = .next t ∧ t.chgSt = s.chgSt ∧
    t.get (atDie .e0) .STK_CHG_STATUS_GO_IGNORED = 1 ∧ s.keepsRegs [.STK_CHG_STATUS] t ∧ s.keepsMem t) ∧
  (∀ s : State, s.chgSt = 1 → ∃ t, exec .changeCancel s = .next t ∧ t.chgSt = 0 ∧ t.get (atDie .e0) .STK_CHG_STATUS_RESULT = 4) ∧
  (∀ s : State, s.chgSt = 2 → ∃ t, exec .changeCancel s = .next t ∧ t.chgSt = 2 ∧ t.units.late = true ∧ s.keepsRegs [] t ∧
    s.keepsMem t) ∧
  (∀ s : State, s.chgSt = 0 → exec .changeCancel s = .next s) ∧
  (∀ s : State, s.units.awaits.contains 1 = true → ∃ t, exec (.unitApplyReport .e0 1 true) s = .next t ∧
    t.bit (atDie .e0) .STK_UNIT_STAT_APPLIED 1 = true ∧ t.units.awaits = removeNat 1 s.units.awaits ∧ t.units.failed = s.units.failed ∧
    s.keepsRegs [.STK_UNIT_STAT] t ∧ s.keepsMem t) ∧
  (∀ s : State, s.units.awaits.contains 1 = true → ∃ t, exec (.unitApplyReport .e0 1 false) s = .next t ∧
    (∀ d : Die, t.reg (atDie d) .STK_TIMING = BitVec.ofNat 32 (Tbl.get 0 s.units.undo 1)) ∧
    t.units.failed = insertNat 1 s.units.failed ∧ s.keepsRegs [.STK_TIMING] t ∧ s.keepsMem t) ∧
  (∀ (d : Die) (slot : Fin 16) (ok : Bool) (s : State), s.units.awaits.contains (unitNo d slot) = false →
    exec (.unitApplyReport d slot ok) s = .next s) ∧
  (∀ (d : PDie) (quad : Fin 12) (lanes : BitVec 4) (s : State),
    let left := s.units.plls.filter fun k => !(k / 4 == d.die.idx * 12 + quad.val && lanes.getLsbD (k % 4))
    exec (.lanePllLock d quad lanes) s = .next (if quadLanes d.die quad left = 0 then
      (s.setUnits { s.units with plls := left }).unitDone (unitNo d.die (quad + 2)) else s.setUnits { s.units with plls := left }))

/-- R66: a GO written while STATE is not IDLE is ignored and sets GO_IGNORED. R62: a write to the pending setting of an armed unit,
whichever unit it is, clears the unit's ARM bit. -/
def Obligations.GoAndPendingWritesWhileArmedOrOpen : Prop :=
  (∀ s : State, s.chgSt ≠ 0 → ∃ t, exec .changeGo s = .next t ∧ t.flag (atDie .e0) .STK_CHG_STATUS_GO_IGNORED = true ∧
    t.chgSt = s.chgSt ∧ t.get (atDie .e0) .STK_CHG_STATUS_RETRIES = s.get (atDie .e0) .STK_CHG_STATUS_RETRIES ∧
    t.get (atDie .e0) .STK_CHG_STATUS_RESULT = s.get (atDie .e0) .STK_CHG_STATUS_RESULT ∧ t.units = s.units ∧
    s.keepsRegs [.STK_CHG_STATUS] t ∧ s.keepsMem t) ∧
  (∀ (place : PendAt) (v : Word) (s : State), s.up (pendUnit place).1 = true → s.armBit (pendUnit place).1 (pendUnit place).2 = true →
    ∃ t, exec (.pendingSettingWrite place v) s = .next t ∧ t.armBit (pendUnit place).1 (pendUnit place).2 = false)

/-- Chapter 18, clock sources and switches (R491 to R503, R570).
Model's choices: log entries 35 (DEDUCED), 104 (DEDUCED), 105 (DEDUCED), 118 (DEDUCED), 123 (DEDUCED), 178 (DEDUCED). -/
def Obligations.ClockCommandsRun : Prop :=
  (∀ (n : Fin 7) (s : State), s.srcMay n = true → s.srcReady n = false → (n.val = 0 ∨ 1 ≤ Tbl.get 0 s.clk.windows n) →
    ∃ t, exec (.sourceReady n) s = .next t ∧ t.srcReady n = true ∧ s.keepsRegs (.CLK_SRC_STAT :: eventRegs) t ∧ s.keepsMem t) ∧
  (∀ (n : Fin 7) (kind : Fin 3) (s : State), (kind = 2 → n = 0) → s.srcReady n = false → ∃ t, exec (.sourceTrip n kind) s = .next t ∧
    t.clk.windows = Tbl.erase s.clk.windows n ∧ s.keepsRegs [] t ∧ s.keepsMem t) ∧
  (∀ (n : Fin 7) (kind : Fin 3) (s : State), (kind = 2 → n = 0) → s.srcReady n = true → s.clk.switch = none → n.val ≠ s.active →
    ∃ t, exec (.sourceTrip n kind) s = .next t ∧ t.srcReady n = false ∧ t.bit (atDie .e0) .CLK_SRC_STAT_LOSS n = true ∧
    s.keepsRegs (.CLK_SRC_STAT :: eventRegs) t ∧ s.keepsMem t) ∧
  (∀ (n : Fin 7) (count : BitVec 24) (s : State),
    s.get (atElem .e0 n) .CLK_SRC_FREQ_KHZ * 4096 ≥ 4 * (count.toNat * 100000 - s.get (atElem .e0 n) .CLK_SRC_FREQ_KHZ * 4096 +
      (s.get (atElem .e0 n) .CLK_SRC_FREQ_KHZ * 4096 - count.toNat * 100000)) → ∃ t, exec (.freqWindowEnd n count true) s = .next t ∧
    Tbl.get 0 t.clk.windows n = Tbl.get 0 s.clk.windows n + 1 ∧ s.keepsRegs [] t ∧ s.keepsMem t) ∧
  (∀ s : State, s.flag (atDie .e0) .CLK_STATUS_LOCKED = true → s.srcReady s.active = true →
    exec .datumPllUnlock s = .next (s.coast 1)) ∧
  (∀ (count : BitVec 32) (s : State), s.flag (atDie .e0) .CLK_STATUS_LOCKED = true → (count.toNat < 88000 ∨ 112000 < count.toNat) →
    s.flag (atDie .e0) .CLK_STATUS_RC_FAULT = false → ∃ t, exec (.rcOscillatorCheck count) s = .next t ∧
    t.flag (atDie .e0) .CLK_STATUS_RC_FAULT = true ∧ s.keepsRegs (.CLK_STATUS :: eventRegs) t ∧ s.keepsMem t) ∧
  (∀ (count : BitVec 32) (s : State), 88000 ≤ count.toNat → count.toNat ≤ 112000 → exec (.rcOscillatorCheck count) s = .next s) ∧
  (∀ (sel : BitVec 3) (s : State), s.clk.switch = none → s.clk.locked = true → s.srcReady sel.toNat = true → sel.toNat ≠ s.active →
    ∃ t, exec (.clockSwitch sel) s = .next t ∧ t.clk.switch = some (sel.toNat, false, false) ∧
    t.get (atDie .e0) .CLK_CTRL_SEL = sel.toNat ∧ s.keepsRegs [.CLK_CTRL] t ∧ s.keepsMem t) ∧
  (∀ (sel : BitVec 3) (s : State), s.clk.switch = none → s.clk.locked = true → s.srcReady sel.toNat = false → sel.toNat ≠ s.active →
    ∃ t, exec (.clockSwitch sel) s = .next t ∧ t.flag (atDie .e0) .CLK_STATUS_REFUSED = true ∧ t.clk = s.clk ∧
    s.keepsRegs (.CLK_CTRL :: .CLK_STATUS :: eventRegs) t ∧ s.keepsMem t) ∧
  (∀ (sel : BitVec 3) (s : State), s.clk.switch.isSome = true → ∃ t, exec (.clockSwitch sel) s = .next t ∧
    t.clk.held = some sel.toNat ∧ t.clk.switch = s.clk.switch ∧ s.keepsRegs [.CLK_CTRL] t ∧ s.keepsMem t) ∧
  (∀ (target : Nat) (auto : Bool) (s : State), s.clk.switch = some (target, auto, false) → target ≠ s.active →
    ∃ t, exec .switchForced s = .next t ∧ t.clk.switch = some (target, auto, true) ∧
    t.flag (atDie .e0) .CLK_STATUS_SWITCH_FORCED = true ∧ s.keepsRegs [.CLK_STATUS] t ∧ s.keepsMem t) ∧
  (∀ (target : Nat) (auto forced : Bool) (s : State), s.clk.switch = some (target, auto, forced) → target < 8 → s.clk.held = none →
    ∃ t, exec .switchComplete s = .next t ∧ t.active = target ∧ t.clk.switch = none ∧
    t.clk.relocks = s.flag (atDie .e0) .CLK_STATUS_COAST ∧ s.keepsRegs (.CLK_STATUS :: eventRegs) t ∧ s.keepsMem t) ∧
  (∀ s : State, ∃ t, exec (.xtalEnable true) s = .next t ∧ t.flag (atDie .e0) .CLK_CTRL_XTAL_EN = true ∧
    s.keepsRegs [.CLK_CTRL] t ∧ s.keepsMem t) ∧
  (∀ s : State, s.active = 0 → ∃ t, exec (.xtalEnable false) s = .next t ∧ t.flag (atDie .e0) .CLK_STATUS_CMD_IGNORED = true ∧
    s.keepsRegs [.CLK_STATUS] t ∧ s.keepsMem t) ∧
  (∀ s : State, s.active ≠ 0 → s.clk.switch = none → ∃ t, exec (.xtalEnable false) s = .next t ∧
    t.flag (atDie .e0) .CLK_CTRL_XTAL_EN = false ∧ t.srcReady 0 = false ∧ s.keepsRegs [.CLK_CTRL, .CLK_SRC_STAT] t ∧ s.keepsMem t)

/-- Chapter 18, fabric PLLs, clock gates, regulators, PMBus, rails and temperatures (R504 to R517, R189).
Model's choices: log entries 103 (DEDUCED), 105 (DEDUCED), 112 (DEDUCED), 113 (DEDUCED), 116 (DEDUCED). -/
def Obligations.SupplyCommandsRun : Prop :=
  (∀ (die : FDie) (pll : Fin 5) (s : State), s.flag (pllAt die.die pll).1 (pllAt die.die pll).2 = true →
    ∃ t, exec (.fabricPllUnlock die pll) s = .next t ∧ t.flag (pllAt die.die pll).1 (pllAt die.die pll).2 = false ∧
    s.keepsRegs (.CLK_FPLL_STAT :: .CLK_CPLL_STAT :: eventRegs) t ∧ s.keepsMem t) ∧
  (∀ (die : FDie) (pll : Fin 5) (s : State), s.pllMay die.die pll = true → ∃ t, exec (.fabricPllRelock die pll) s = .next t ∧
    t.flag (pllAt die.die pll).1 (pllAt die.die pll).2 = true ∧ s.keepsRegs [.CLK_FPLL_STAT, .CLK_CPLL_STAT] t ∧ s.keepsMem t) ∧
  (∀ (die : FDie) (s : State), s.flag (atDie die.die) .PWR_PL_STAT_SEQ = true → ∃ t, exec (.avsTimeout die) s = .next t ∧
    t.flag (atDie die.die) .PWR_PL_STAT_AVS_ERR = true ∧ t.flag (atDie die.die) .PWR_PL_STAT_SEQ = true ∧
    t.vreq die.die = s.vreq die.die ∧ (∃ rest, t.sent = .avs die.die.idx (s.vreq die.die) :: rest) ∧
    s.keepsRegs (.PWR_PL_STAT :: eventRegs) t ∧ s.keepsMem t) ∧
  (∀ (die : FDie) (kind : Fin 3) (s : State), ∃ t, exec (.avsError die kind) s = .next t ∧
    t.flag (atDie die.die) .PWR_PL_STAT_AVS_ERR = true ∧ s.keepsRegs (.PWR_PL_STAT :: eventRegs) t ∧ s.keepsMem t) ∧
  (∀ (d : PDie) (dom : Fin 13) (v : Word) (s : State), ∃ t, exec (.clockGateWrite d.die dom v) s = .next t ∧
    (t.gated d.die dom = !t.gateRuns d.die dom) ∧ s.keepsRegs [.CLK_GATE] t ∧ s.keepsMem t) ∧
  (∀ (d : FDie) (dom : Fin 13) (v : Word) (s : State), exec (.clockGateWrite d.die dom v) s = .next
    (((s.writeReg (atSel d.die dom) .CLK_GATE v).gateSync d.die dom).pllSleep d.die)) ∧
  (∀ (v : Word) (s : State), s.flag (atDie .e0) .PWR_PMB_CMD_BUSY = false → ∃ t, exec (.pmbusTransaction v) s = .next t ∧
    t.flag (atDie .e0) .PWR_PMB_CMD_BUSY = true ∧ (∃ e, t.sent = e :: s.sent) ∧ s.keepsRegs [.PWR_PMB_CMD] t ∧ s.keepsMem t) ∧
  (∀ (err : Fin 4) (data : BitVec 16) (s : State), s.flag (atDie .e0) .PWR_PMB_CMD_BUSY = true →
    ∃ t, exec (.pmbusDone err data) s = .next t ∧ t.flag (atDie .e0) .PWR_PMB_CMD_BUSY = false ∧
    t.get (atDie .e0) .PWR_PMB_CMD_ERR = err ∧ (err = 0 → s.flag (atDie .e0) .PWR_PMB_CMD_WRITE = false →
      s.flag (atDie .e0) .PWR_PMB_CMD_WORD = true → t.get (atDie .e0) .PWR_PMB_DATA_DATA = data.toNat) ∧
    s.keepsRegs [.PWR_PMB_CMD, .PWR_PMB_DATA] t ∧ s.keepsMem t) ∧
  (∀ (rail : Fin 29) (min mv : BitVec 12) (us : BitVec 32) (s : State), us = 0 ∨ s.flag (atSel .e0 rail) .PWR_RAIL_STAT_GOOD = false →
    ∃ t, exec (.railWarningDip rail min mv us) s = .next t ∧ t.get (atSel .e0 rail) .PWR_RAIL_STAT_MV = mv.toNat ∧
    t.get (atSel .e0 rail) .PWR_RAIL_DIP_MIN = Nat.min (Nat.min (s.get (atSel .e0 rail) .PWR_RAIL_DIP_MIN) min.toNat) mv.toNat ∧
    s.keepsRegs [.PWR_RAIL_STAT, .PWR_RAIL_DIP] t ∧ s.keepsMem t) ∧
  (∀ (rail : Fin 29) (min mv : BitVec 12) (us : BitVec 32) (s : State), us ≠ 0 → s.flag (atSel .e0 rail) .PWR_RAIL_STAT_GOOD = true →
    railHigh rail = true → ∃ t, exec (.railWarningDip rail min mv us) s = .next t ∧
    t.get (atSel .e0 rail) .PWR_RAIL_DIP_DIPS = satAdd (2 ^ Fld.PWR_RAIL_DIP_DIPS.width - 1) (s.get (atSel .e0 rail) .PWR_RAIL_DIP_DIPS) 1 ∧
    t.get (atSel .e0 rail) .PWR_RAIL_STAT_WARN = 0 ∧ s.keepsRegs (.PWR_RAIL_STAT :: .PWR_RAIL_DIP :: eventRegs) t ∧ s.keepsMem t) ∧
  (∀ (rail : Fin 29) (mv : BitVec 12) (s : State), ∃ t, exec (.railDipRead rail true mv) s = .next t ∧
    t.answer = s.reg (atSel .e0 rail) .PWR_RAIL_DIP ∧ s.keepsRegs [.PWR_RAIL_STAT] t ∧ s.keepsMem t) ∧
  (∀ (rail : Fin 29) (mv : BitVec 12) (s : State), ∃ t, exec (.railDipRead rail false mv) s = .next t ∧
    t.answer = s.reg (atSel .e0 rail) .PWR_RAIL_DIP ∧ t.get (atSel .e0 rail) .PWR_RAIL_DIP_DIPS = 0 ∧
    t.get (atSel .e0 rail) .PWR_RAIL_DIP_MIN = mv.toNat ∧ s.keepsRegs [.PWR_RAIL_STAT, .PWR_RAIL_DIP] t ∧ s.keepsMem t) ∧
  (∀ (die : Die) (sensor : Fin 8) (reading : BitVec 16) (s : State), (die.isFab = false → sensor.val < 4) →
    ∃ t, exec (.temperatureSample die sensor reading) s = .next t ∧ t.get (atSel die sensor) .PWR_TEMP_READING = reading.toNat ∧
    s.keepsRegs (.PWR_TEMP :: eventRegs) t ∧ s.keepsMem t) ∧
  (∀ s : State, exec .edgeTemperatureCheck s = .next ((List.range 11).foldl (fun s e => s.edgeTemp e) s) ∧
    ∃ t, exec .edgeTemperatureCheck s = .next t ∧ s.keepsRegs (.WLD_EDGE_STAT :: eventRegs) t ∧ s.keepsMem t)

/-- Chapter 05. Routers (R130, R131, R134): a flit whose check code does not match is dropped, counted and recorded; any other joins its
class buffer, and where its output is free and has a credit for its class it is sent on and counted. Initiators (R138, R144, R147, R155,
R156): a request takes its tag and leaves, or, in class X, waits for its pacer within its allowance and for the next stroke beyond it; the
pacer releases what waits; a response frees the tag and is delivered to whoever waits for it; a transaction that reaches its limit is
answered TIMEOUT and leaves its tag STALE, and a further limit frees it.
Model's choices: log entries 6 (DESIGN CHOICE), 40 (DESIGN CHOICE), 150 (DEDUCED), 175 (DEDUCED), 192 (DEDUCED), 200 (DEDUCED),
232 (DESIGN CHOICE), 235 (DESIGN CHOICE). -/
def Obligations.RouterAndInitiatorCommandsRun : Prop :=
  (∀ (die : Die) (row col : Fin 8) (inPort : Fin 5) (flit : Flit) (free : Bool) (s : State), (die.isPort = true → col.val < 4) →
    flit.chkOk = false → ∃ t, exec (.flitArrival die row col inPort flit free) s = .next t ∧
    t.get (atRouter ⟨die, row, col⟩ flit.net.toNat) .NOC_RTR_ERR_COUNT = satAdd (2 ^ Fld.NOC_RTR_ERR_COUNT.width - 1)
      (s.get (atRouter ⟨die, row, col⟩ flit.net.toNat) .NOC_RTR_ERR_COUNT) 1 ∧
    t.get (atRouter ⟨die, row, col⟩ flit.net.toNat) .NOC_RTR_ERR_VALID = 1 ∧ t.routers = s.routers ∧
    s.keepsRegs (.NOC_RTR_ERR :: eventRegs) t ∧ s.keepsMem t) ∧
  (∀ (die : Die) (row col : Fin 8) (inPort : Fin 5) (flit : Flit) (r : Router) (out : Nat) (s : State),
    (die.isPort = true → col.val < 4) → flit.chkOk = true → r = ⟨die, row, col⟩ → out = r.out flit.dst.toNat →
    Tbl.get [] s.routers (routerKey r flit.net.toNat) = [] → s.hasCredit r flit.net.toNat out flit.cls.toNat = true →
    ∃ t, exec (.flitArrival die row col inPort flit true) s = .next t ∧
    t.get (atRouter r flit.net.toNat) .NOC_RTR_FLITS_COUNT = satAdd (2 ^ Fld.NOC_RTR_FLITS_COUNT.width - 1)
      (s.get (atRouter r flit.net.toNat) .NOC_RTR_FLITS_COUNT) 1 ∧
    Emit.flit die.idx flit.net.toNat row col out
      (if out = 4 then 4 else (r.next out (flit.low && flit.cls != 0)).out flit.dst.toNat) flit.bits ∈ t.sent ∧
    Tbl.get [] t.routers (routerKey r flit.net.toNat) = [] ∧ s.keepsRegs (.NOC_RTR_FLITS :: eventRegs) t ∧ s.keepsMem t) ∧
  (∀ (die : Die) (row col : Fin 8) (inPort : Fin 5) (flit : Flit) (s : State), (die.isPort = true → col.val < 4) →
    flit.chkOk = true → s.inputRoom ⟨die, row, col⟩ flit.net.toNat flit.cls.toNat inPort = true →
    ∃ t, exec (.flitArrival die row col inPort flit false) s = .next t ∧
    Tbl.get [] t.routers (routerKey ⟨die, row, col⟩ flit.net.toNat) =
      Tbl.get [] s.routers (routerKey ⟨die, row, col⟩ flit.net.toNat) ++ [⟨flit, inPort, (Router.mk die row col).out flit.dst.toNat⟩] ∧
    s.keepsRegs [] t ∧ s.keepsMem t) ∧
  (∀ (r q : NocReq) (tgt : Target) (s : State), s.mayIssue r.src.toNat = true →
    (s.tag r.src.toNat r.tag.toNat).st = 0 → r.known = true → reqTarget r = some tgt →
    (r.cls ≠ 0 ∨ s.xEntry r.src.toNat tgt.ident = none) →
    q = { r with
      gen := BitVec.ofNat 4 ((s.tag r.src.toNat r.tag.toNat).gen + 1), tgt := BitVec.ofNat 12 tgt.ident, xent := 0
      cls := if r.cls = 0 then 1 else r.cls } → s.refusal q tgt = none →
    (sliceFirst q tgt = true ∨ s.failedBack tgt.ident q.src.toNat q.cls.toNat q.tag.toNat = none) →
    ∃ t, exec (.nocRequestIssue r) s = .next t ∧ (t.tag r.src.toNat r.tag.toNat).st = 1 ∧
    (t.tag r.src.toNat r.tag.toNat).gen = ((s.tag r.src.toNat r.tag.toNat).gen + 1) % 16 ∧
    (t.tag r.src.toNat r.tag.toNat).cls = q.cls.toNat ∧ t.sent = .request q :: s.sent ∧
    s.keepsRegs [.NOC_EP_STAT, .NOC_EP_CNT1] t ∧ s.keepsMem t) ∧
  (∀ (r q : NocReq) (tgt : Target) (e : Nat) (u : Nat × Nat × Nat) (s : State), s.mayIssue r.src.toNat = true →
    (s.tag r.src.toNat r.tag.toNat).st = 0 → r.known = true → reqTarget r = some tgt → r.cls = 0 →
    s.xEntry r.src.toNat tgt.ident = some e →
    q = { r with
      gen := BitVec.ofNat 4 ((s.tag r.src.toNat r.tag.toNat).gen + 1), tgt := BitVec.ofNat 12 tgt.ident, xent := BitVec.ofNat 8 e } → u = Tbl.get (0, 0, 0) s.xUsed ((idDie r.src.toNat).idx * 256 + e) →
    ((if r.isAtomic then u.2.2 else if r.isWrite then u.2.1 else u.1) <
      (if r.isAtomic then s.get (atSel (idDie r.src.toNat) e) .NOC_XRES_HI_AT
        else if r.isWrite then s.get (atSel (idDie r.src.toNat) e) .NOC_XRES_HI_WR
        else s.get (atSel (idDie r.src.toNat) e) .NOC_XRES_HI_RD) → ∃ t, exec (.nocRequestIssue r) s = .next t ∧
      (t.tag r.src.toNat r.tag.toNat).st = 1 ∧
      t.xWait = Tbl.set s.xWait r.src.toNat (Tbl.get [] s.xWait r.src.toNat ++ [(q, .plain)]) ∧
      Tbl.get (0, 0, 0) t.xUsed ((idDie r.src.toNat).idx * 256 + e) =
        (if r.isAtomic then (u.1, u.2.1, u.2.2 + 1) else if r.isWrite then (u.1, u.2.1 + 1, u.2.2) else (u.1 + 1, u.2.1, u.2.2)) ∧
      t.sent = s.sent ∧ s.keepsRegs [.NOC_EP_STAT] t ∧ s.keepsMem t) ∧
    (¬(if r.isAtomic then u.2.2 else if r.isWrite then u.2.1 else u.1) <
      (if r.isAtomic then s.get (atSel (idDie r.src.toNat) e) .NOC_XRES_HI_AT
        else if r.isWrite then s.get (atSel (idDie r.src.toNat) e) .NOC_XRES_HI_WR
        else s.get (atSel (idDie r.src.toNat) e) .NOC_XRES_HI_RD) → ∃ t, exec (.nocRequestIssue r) s = .next t ∧
      (t.tag r.src.toNat r.tag.toNat).st = 1 ∧
      t.xHeld = Tbl.set s.xHeld r.src.toNat (Tbl.get [] s.xHeld r.src.toNat ++ [(q, .plain)]) ∧ t.xWait = s.xWait ∧
      t.sent = s.sent ∧ s.keepsRegs [.NOC_EP_STAT, .NOC_EP_CNT1] t ∧ s.keepsMem t)) ∧
  (∀ (r : NocReq) (s : State), s.mayIssue r.src.toNat = true → (s.tag r.src.toNat r.tag.toNat).st = 0 → r.known = true →
    reqTarget r = none → exec (.nocRequestIssue r) s = .next (s.emit (.delivered r.src.toNat r.tag.toNat 5 0))) ∧
  (∀ (r q : NocReq) (tgt : Target) (a : Option Die) (st : Nat) (s : State), s.mayIssue r.src.toNat = true →
    (s.tag r.src.toNat r.tag.toNat).st = 0 → r.known = true → reqTarget r = some tgt →
    (r.cls ≠ 0 ∨ s.xEntry r.src.toNat tgt.ident = none) →
    q = { r with
      gen := BitVec.ofNat 4 ((s.tag r.src.toNat r.tag.toNat).gen + 1), tgt := BitVec.ofNat 12 tgt.ident, xent := 0
      cls := if r.cls = 0 then 1 else r.cls } → s.refusal q tgt = some (a, st) →
    ∃ t, exec (.nocRequestIssue r) s = .next t ∧ (t.tag r.src.toNat r.tag.toNat).st = 0 ∧
    t.sent = .delivered r.src.toNat r.tag.toNat st 0 :: s.sent ∧
    s.keepsRegs [.NOC_EP_STAT, .NOC_EP_CNT1, .NOC_FENCE_CNT] t ∧ s.keepsMem t) ∧
  (∀ (r : NocReq) (s : State), (s.mayIssue r.src.toNat = false ∨ (s.tag r.src.toNat r.tag.toNat).st ≠ 0 ∨ r.known = false) →
    exec (.nocRequestIssue r) s = .next s) ∧
  (∀ (src : BitVec 12) (r : NocReq) (o : Owner) (rest : List (NocReq × Owner)) (tgt : Target) (s : State),
    Tbl.get [] s.xWait src.toNat = (r, o) :: rest → s.pacerRuns src.toNat = true → reqTarget r = some tgt → s.refusal r tgt = none →
    (sliceFirst r tgt = true ∨ s.failedBack tgt.ident r.src.toNat r.cls.toNat r.tag.toNat = none) →
    ∃ t, exec (.classXPacerRelease src) s = .next t ∧ t.sent = .request r :: s.sent ∧ t.tags = s.tags ∧
    t.xWait = (if rest = [] then Tbl.erase s.xWait src.toNat else Tbl.set s.xWait src.toNat rest) ∧
    s.keepsRegs [] t ∧ s.keepsMem t) ∧
  (∀ (src : BitVec 12) (s : State), (Tbl.get [] s.xWait src.toNat = [] ∨ s.pacerRuns src.toNat = false) →
    exec (.classXPacerRelease src) s = .next s) ∧
  (∀ (dst : BitVec 12) (tag : BitVec 10) (gen : BitVec 4) (resp : BitVec 12) (status : BitVec 4) (data : BitVec 512) (badEcc : Bool)
    (ns : BitVec 32) (s u : State), s.dropAt resp.toNat dst.toNat (s.tag dst.toNat tag.toNat).cls tag.toNat = none →
    (s.tag dst.toNat tag.toNat).st = 1 → (s.tag dst.toNat tag.toNat).gen = gen.toNat →
    ((s.tag dst.toNat tag.toNat).cls ≠ 0 ∨ ns.toNat ≤ s.strokeNs) →
    u = (if (s.tag dst.toNat tag.toNat).bytes = 0 then s.tagDone dst.toNat tag.toNat
      else (s.tagDone dst.toNat tag.toNat).bwCount (idDie dst.toNat) 0 dst.toNat (s.tag dst.toNat tag.toNat).bytes 1) →
    exec (.nocResponseArrival dst tag gen resp status data badEcc ns) s =
      .next (u.deliver dst.toNat tag.toNat (s.tag dst.toNat tag.toNat).owner
        (if badEcc = true ∧ status = 0 then 1 else status.toNat) data.toNat) ∧ (u.tag dst.toNat tag.toNat).st = 0 ∧
    s.keepsRegs [.NOC_EP_STAT] u ∧ s.keepsMem u) ∧
  (∀ (dst : BitVec 12) (tag : BitVec 10) (gen : BitVec 4) (resp : BitVec 12) (status : BitVec 4) (data : BitVec 512) (badEcc : Bool)
    (ns : BitVec 32) (s : State), s.dropAt resp.toNat dst.toNat (s.tag dst.toNat tag.toNat).cls tag.toNat = none →
    (s.tag dst.toNat tag.toNat).st = 1 → (s.tag dst.toNat tag.toNat).gen = gen.toNat →
    (s.tag dst.toNat tag.toNat).owner = .plain →
    ∃ t, exec (.nocResponseArrival dst tag gen resp status data badEcc ns) s = .next t ∧
    (t.tag dst.toNat tag.toNat).st = 0 ∧ (∃ rest, t.sent = .delivered dst.toNat tag.toNat
      (if badEcc = true ∧ status = 0 then 1 else status.toNat) data.toNat :: rest) ∧
    s.keepsRegs (.NOC_EP_STAT :: .NOC_EP_CNT1 :: eventRegs) t ∧ s.keepsMem t) ∧
  (∀ (dst : BitVec 12) (tag : BitVec 10) (gen : BitVec 4) (resp : BitVec 12) (status : BitVec 4) (data : BitVec 512) (badEcc : Bool)
    (ns : BitVec 32) (s : State), s.dropAt resp.toNat dst.toNat (s.tag dst.toNat tag.toNat).cls tag.toNat = none →
    ((s.tag dst.toNat tag.toNat).st ≠ 1 ∨ (s.tag dst.toNat tag.toNat).gen ≠ gen.toNat) →
    exec (.nocResponseArrival dst tag gen resp status data badEcc ns) s = .next (s.lateResponse dst.toNat tag.toNat gen.toNat)) ∧
  (∀ (src : BitVec 12) (tag : BitVec 10) (s : State), (s.tag src.toNat tag.toNat).st = 1 →
    ∃ u, exec (.nocTimeout src tag) s = .next (u.deliver src.toNat tag.toNat (s.tag src.toNat tag.toNat).owner 2 0) ∧
    (u.tag src.toNat tag.toNat).st = 2 ∧ (∀ e, e ∈ Tbl.get [] u.xWait src.toNat → e.1.tag ≠ tag) ∧
    (∀ e, e ∈ Tbl.get [] u.xHeld src.toNat → e.1.tag ≠ tag) ∧
    u.get (atEp src.toNat) .NOC_EP_CNT0_TIMEOUTS =
      satAdd (2 ^ Fld.NOC_EP_CNT0_TIMEOUTS.width - 1) (s.get (atEp src.toNat) .NOC_EP_CNT0_TIMEOUTS) 1 ∧
    s.keepsRegs (.NOC_EP_STAT :: .NOC_EP_CNT0 :: eventRegs) u ∧ s.keepsMem u) ∧
  (∀ (src : BitVec 12) (tag : BitVec 10) (s : State), (s.tag src.toNat tag.toNat).st = 1 →
    (s.tag src.toNat tag.toNat).owner = .plain → ∃ t, exec (.nocTimeout src tag) s = .next t ∧ (t.tag src.toNat tag.toNat).st = 2 ∧
    (∃ rest, t.sent = .delivered src.toNat tag.toNat 2 0 :: rest) ∧
    s.keepsRegs (.NOC_EP_STAT :: .NOC_EP_CNT0 :: eventRegs) t ∧ s.keepsMem t) ∧
  (∀ (src : BitVec 12) (tag : BitVec 10) (s : State), (s.tag src.toNat tag.toNat).st ≠ 1 → exec (.nocTimeout src tag) s = .next s) ∧
  (∀ (src : BitVec 12) (tag : BitVec 10) (s : State), (s.tag src.toNat tag.toNat).st = 2 →
    ∃ t, exec (.staleTagRelease src tag) s = .next t ∧ (t.tag src.toNat tag.toNat).st = 0 ∧ s.keepsRegs [.NOC_EP_STAT] t ∧
    s.keepsMem t)

/-- Chapter 05, fabric ports (R147 to R149): an open initiator port in its mode issues what its logic presents and holds it back
otherwise; a target port sends on the answer that its logic gives, any status but OKAY, POISON, DECODE and DENIED as DECODE.
Model's choices: log entries 14 (DESIGN CHOICE), 35 (DEDUCED). -/
def Obligations.FabricPortCommandsRun : Prop :=
  (∀ (die : FDie) (q p : Fin 16) (user : BitVec 6) (op : BitVec 5) (cls : BitVec 2) (size : BitVec 3) (alloc : Bool)
    (addr : BitVec 48) (data : BitVec 512) (be : BitVec 64) (s : State),
    (s.modeOf die.die q p = 1 ∨ s.modeOf die.die q p = 3) → 2 ≤ s.stageOf die.die q →
    s.get (atDie die.die) (.NOC_FENCE_STAT_P q) = 0 → s.get (atEp (portIdent die.die q p)) .NOC_EP_STAT_OUTST < 64 →
    exec (.fabricPortInitiatorRequest die q p user op cls size alloc addr data be) s = .next (s.request
      ⟨BitVec.ofNat 12 (portIdent die.die q p), BitVec.ofNat 10 ((s.freeTag (portIdent die.die q p)).getD 0), 0, cls, op, size, alloc,
        0, addr, data, be, 0, 0⟩ (.user user.toNat))) ∧
  (∀ (die : FDie) (q p : Fin 16) (user : BitVec 6) (op : BitVec 5) (cls : BitVec 2) (size : BitVec 3) (alloc : Bool)
    (addr : BitVec 48) (data : BitVec 512) (be : BitVec 64) (s : State),
    (s.modeOf die.die q p = 0 ∨ s.modeOf die.die q p = 2 ∨ s.stageOf die.die q < 2 ∨
      s.get (atDie die.die) (.NOC_FENCE_STAT_P q) ≠ 0) →
    exec (.fabricPortInitiatorRequest die q p user op cls size alloc addr data be) s = .next s) ∧
  (∀ (die : FDie) (q p : Fin 16) (ptag : BitVec 6) (status : BitVec 4) (data : BitVec 512) (r : NocReq) (s : State),
    s.portTags.find? (fun e => e.1 == fportKey die.die q p * 64 + ptag.toNat) = some (fportKey die.die q p * 64 + ptag.toNat, r) →
    2 ≤ s.stageOf die.die q → Tbl.get [] s.portFifo (fportKey die.die q p) = [] →
    ∃ t, exec (.fabricPortTargetResponse die q p ptag status data) s = .next t ∧
    t.portTags = Tbl.erase s.portTags (fportKey die.die q p * 64 + ptag.toNat) ∧
    t.sent = .response r.src.toNat r.tag.toNat r.gen.toNat
      (if status = 0 ∨ status = 1 ∨ status = 5 ∨ status = 6 then status.toNat else 5) data.toNat :: s.sent ∧
    s.keepsRegs [] t ∧ s.keepsMem t)

/-- Chapter 05, die caches (R150, R152, R154): hits are served from the slice, misses go to the home, snoops are answered and change
the line's state, a flush empties the cache.
Model's choices: log entries 37 (DEDUCED), 38 (DEDUCED), 173 (DEDUCED), 193 (DESIGN CHOICE), 196 (DEDUCED), 215 (DESIGN CHOICE). -/
def Obligations.DieCacheCommandsRun : Prop :=
  (∀ (r : NocReq) (victim : Option (BitVec 42)) (d : Die) (line : Nat) (s : State), d = idDie r.src.toNat → line = r.addr.toNat / 64 →
    d.isFab = true → r.isRead = true → s.dcLine d line ≠ 0 → s.detached line = false →
    granted (Tbl.get 0 s.dcRights (dcKey d line)) r = true → s.net.sick.contains (dcKey d line) = false →
    (∀ i w, s.dcCell d line = some i → s.eccMarked d 1 (8 * i + w) = false) →
    ∃ t, exec (.dieCacheRequest r victim) s = .next t ∧ (∃ rest, t.sent =
      .response r.src.toNat r.tag.toNat r.gen.toNat 0 ((s.cachedMem d line).read r.addr.toNat (2 ^ r.size.toNat)) :: rest) ∧
    s.keepsRegs (.ECC_TEST_CHK :: .ECC_TEST_CTRL :: eventRegs) t ∧ t.mem = s.mem) ∧
  (∀ (r : NocReq) (victim : Option (BitVec 42)) (d : Die) (line : Nat) (s : State), d = idDie r.src.toNat → line = r.addr.toNat / 64 →
    d.isFab = true → r.isWrite = true → 2 ≤ s.dcLine d line → s.detached line = false →
    granted (Tbl.get 0 s.dcRights (dcKey d line)) r = true → s.net.sick.contains (dcKey d line) = false →
    (∀ i w, s.dcCell d line = some i → s.eccMarked d 1 (8 * i + w) = false) →
    ∃ t, exec (.dieCacheRequest r victim) s = .next t ∧ t.dcLine d line = 3 ∧
    Tbl.get 0 t.net.lines (dcKey d line) = BitVec.ofNat 512
      (((s.cachedMem d line).writeMasked r.addr.toNat r.data.toNat (reqMask r) (2 ^ r.size.toNat)).read (line * 64) 64) ∧
    t.mem = s.mem) ∧
  (∀ (r : NocReq) (victim : Option (BitVec 42)) (d : Die) (line : Nat) (s : State), d = idDie r.src.toNat → line = r.addr.toNat / 64 →
    d.isFab = true → s.dcLine d line ≠ 0 → ((r.isWrite || r.isAtomic) = true → 2 ≤ s.dcLine d line) →
    s.detached line = false → granted (Tbl.get 0 s.dcRights (dcKey d line)) r = true →
    s.net.sick.contains (dcKey d line) = true → fullLine r = false → ∃ t, exec (.dieCacheRequest r victim) s = .next t ∧
    (∃ rest, t.sent = .response r.src.toNat r.tag.toNat r.gen.toNat 1 0 :: rest) ∧ t.mem = s.mem) ∧
  (∀ (r : NocReq) (d : Die) (line : Nat) (s : State), d = idDie r.src.toNat → line = r.addr.toNat / 64 → d.isFab = true →
    s.dcLine d line = 0 → ((decodeAddr r.addr.toNat).bind fun t =>
      s.fenceRefusal (ident d (lineSlice line / 8) (lineSlice line % 8) 4) t.ident r.low) = none →
    ((decodeAddr r.addr.toNat).bind fun t => s.failedBack t.ident r.src.toNat r.cls.toNat r.tag.toNat) = none →
    ∃ t, exec (.dieCacheRequest r none) s = .next t ∧ (∃ rest, t.sent = (if r.alloc then
      .home (if r.isWrite || r.isAtomic then .rdUnq else .rdShd) d.idx line else .request r) :: rest) ∧
    (r.alloc = true → Tbl.get [] t.dcWait (dcKey d line) = Tbl.get [] s.dcWait (dcKey d line) ++ [r]) ∧
    s.keepsRegs eventRegs t ∧ s.keepsMem t) ∧
  (∀ (r : NocReq) (victim : Option (BitVec 42)) (d a : Die) (line st : Nat) (s : State), d = idDie r.src.toNat →
    line = r.addr.toNat / 64 → d.isFab = true → s.dcLine d line = 0 → ((decodeAddr r.addr.toNat).bind fun t =>
      s.fenceRefusal (ident d (lineSlice line / 8) (lineSlice line % 8) 4) t.ident r.low) = some (a, st) →
    ∃ t, exec (.dieCacheRequest r victim) s = .next t ∧
    (∃ rest, t.sent = .response r.src.toNat r.tag.toNat r.gen.toNat st 0 :: rest) ∧
    s.keepsRegs (.NOC_FENCE_CNT :: eventRegs) t ∧ s.keepsMem t) ∧
  (∀ (r : NocReq) (victim : Option (BitVec 42)) (d a : Die) (line : Nat) (s : State), d = idDie r.src.toNat →
    line = r.addr.toNat / 64 → d.isFab = true → s.dcLine d line = 0 → ((decodeAddr r.addr.toNat).bind fun t =>
      s.fenceRefusal (ident d (lineSlice line / 8) (lineSlice line % 8) 4) t.ident r.low) = none →
    ((decodeAddr r.addr.toNat).bind fun t => s.failedBack t.ident r.src.toNat r.cls.toNat r.tag.toNat) = some a →
    ∃ t, exec (.dieCacheRequest r victim) s = .next t ∧
    (∃ rest, t.sent = .response r.src.toNat r.tag.toNat r.gen.toNat 3 0 :: rest) ∧
    s.keepsRegs (.NOC_FENCE_CNT :: eventRegs) t ∧ s.keepsMem t) ∧
  (∀ (die : FDie) (line : BitVec 42) (op : Fin 3) (s : State), s.dcLine die.die line.toNat ≠ 0 →
    s.flag (atDie die.die) .ECC_TEST_CTRL_EN = false →
    (∀ i w, s.dcCell die.die line.toNat = some i → s.eccMarked die.die 1 (8 * i + w) = false) →
    ∃ t, exec (.snoopReceived die line op) s = .next t ∧
    t.sent = .snoopAck line.toNat die.die.idx (s.dcLine die.die line.toNat == 3) :: s.sent ∧
    t.dcLine die.die line.toNat = (if op = 1 then 1 else 0) ∧ s.keepsRegs [.NOC_DC_STAT] t ∧ s.keepsMem t) ∧
  (∀ (die : FDie) (line : BitVec 42) (op : Fin 3) (s : State), s.dcLine die.die line.toNat = 0 →
    exec (.snoopReceived die line op) s = .next (s.emit (.snoopAck line.toNat die.die.idx false))) ∧
  (∀ (die : FDie) (s : State), ∃ t, exec (.dieCacheFlush die) s = .next t ∧ t.flag (atDie die.die) .NOC_DC_CMD_BUSY = true ∧
    s.keepsRegs [.NOC_DC_CMD] t ∧ s.keepsMem t) ∧
  (∀ (die : FDie) (s : State), s.flag (atDie die.die) .NOC_DC_CMD_BUSY = true → ∃ t, exec (.dieCacheFlushDone die) s = .next t ∧
    t.flag (atDie die.die) .NOC_DC_CMD_BUSY = false ∧ (∀ line, line < 2 ^ 42 → t.dcLine die.die line = 0) ∧
    ((∀ e ∈ s.dcache, e.1 / 2 ^ 42 ≠ die.die.idx) → s.keepsRegs [.NOC_DC_CMD] t ∧ s.keepsMem t))

/-- R152: a die cache answers every snoop, with SNP_ACK_DATA where it holds the line M (state 3) and with SNP_ACK otherwise, also where
it does not hold the line. The last field of the answer says whether it carries the data. -/
def Obligations.DieCacheAnswersEverySnoop : Prop :=
  ∀ (die : FDie) (line : BitVec 42) (op : Fin 3) (s : State), ∃ t before, exec (.snoopReceived die line op) s = .next t ∧
    t.sent = .snoopAck line.toNat die.die.idx (decide (s.dcLine die.die line.toNat = 3)) :: (before ++ s.sent)

/-- Chapter 05, home directories (R151 to R153): a line that no die holds is served at once and recorded; one that another die holds
exclusive is snooped first, and served when the last answer is there, with the data that came with it in memory; a request for a line whose
snoops are not answered waits; records older than a die's reset are dropped.
Model's choices: log entries 35 (DEDUCED), 37 (DEDUCED), 193 (DESIGN CHOICE), 196 (DEDUCED), 215 (DESIGN CHOICE), 250 (DEDUCED). -/
def Obligations.HomeDirectoryCommandsRun : Prop :=
  (∀ (die : FDie) (line : BitVec 42) (h : Die) (s : State), lineHome line.toNat = some h → Tbl.has s.homeTxn line.toNat = false →
    ((s.dirSet h line.toNat).contains line.toNat = true ∨ (s.dirSet h line.toNat).length < 16) →
    s.flag (atDie h) .ECC_TEST_CTRL_EN = false → (∀ w, w < 16 → s.eccMarked h 10 (dirBase line.toNat + w) = false) →
    s.fillDenies .rdShd (some die) line.toNat = false →
    (s.dirRec line.toNat).holders = [] → ∃ t, exec (.homeDirectoryRequest .rdShd (some die) line none) s = .next t ∧
    t.dirRec line.toNat = ⟨true, [(die.die.idx, Tbl.get 0 s.dieResets die.die.idx)]⟩ ∧
    t.sent = .served .rdShd die.die.idx line.toNat :: s.sent ∧ s.keepsRegs [] t ∧ s.keepsMem t) ∧
  (∀ (die other : FDie) (line : BitVec 42) (h : Die) (s : State), lineHome line.toNat = some h →
    Tbl.has s.homeTxn line.toNat = false →
    ((s.dirSet h line.toNat).contains line.toNat = true ∨ (s.dirSet h line.toNat).length < 16) →
    s.flag (atDie h) .ECC_TEST_CTRL_EN = false → (∀ w, w < 16 → s.eccMarked h 10 (dirBase line.toNat + w) = false) →
    s.fillDenies .rdUnq (some die) line.toNat = false →
    die ≠ other → s.dirRec line.toNat = ⟨true, [(other.die.idx, Tbl.get 0 s.dieResets other.die.idx)]⟩ →
    ∃ t, exec (.homeDirectoryRequest .rdUnq (some die) line none) s = .next t ∧
    t.sent = .snoop line.toNat other.die.idx 0 :: s.sent ∧
    t.homeTxn = Tbl.set s.homeTxn line.toNat ⟨.rdUnq, die.die.idx, [other.die.idx], []⟩ ∧ s.keepsRegs [] t ∧ s.keepsMem t) ∧
  (∀ (op : HomeOp) (die : FDie) (line : BitVec 42) (full : Option (BitVec 42)) (key : Nat) (x : HomeTxn) (s : State),
    lineHome line.toNat ≠ none → s.fillDenies op (some die) line.toNat = false →
    s.homeTxn.find? (fun e => e.1 == line.toNat) = some (key, x) →
    ∃ t, exec (.homeDirectoryRequest op (some die) line full) s = .next t ∧
    t.homeTxn = Tbl.set s.homeTxn line.toNat { x with queue := x.queue ++ [(op, die.die.idx)] } ∧ t.sent = s.sent ∧
    s.keepsRegs [] t ∧ s.keepsMem t) ∧
  (∀ (op : HomeOp) (die : FDie) (line : BitVec 42) (full : Option (BitVec 42)) (s : State), lineHome line.toNat ≠ none →
    s.fillDenies op (some die) line.toNat = true →
    exec (.homeDirectoryRequest op (some die) line full) s = .next (s.fillDenied (some die) line.toNat)) ∧
  (∀ (die other : FDie) (line : BitVec 42) (h : Die) (key : Nat) (s : State), lineHome line.toNat = some h →
    s.homeTxn.find? (fun e => e.1 == line.toNat) = some (key, ⟨.rdUnq, die.die.idx, [other.die.idx], []⟩) →
    s.flag (atDie h) .ECC_TEST_CTRL_EN = false →
    ∃ t, exec (.snoopAckArrival line other .ackData) s = .next t ∧ t.homeTxn = Tbl.erase s.homeTxn line.toNat ∧
    t.dirRec line.toNat = ⟨true, [(die.die.idx, Tbl.get 0 s.dieResets die.die.idx)]⟩ ∧
    (∃ rest, t.sent = .served .rdUnq die.die.idx line.toNat :: rest) ∧
    (∀ k v, s.net.lines.find? (fun e => e.1 == flightKey other.die line.toNat) = some (k, v) →
      s.net.sick.contains (flightKey other.die line.toNat) = false →
      t.mem = ((s.dropLine (flightKey other.die line.toNat)).backStore other.die line.toNat v).mem ∧
      (∀ e, lineEngine line.toNat = some e → s.engTakes e = true → s.regionAt e (line.toNat * 64) = none →
        t.mem = s.mem.write (line.toNat * 64) v.toNat 64 ∧ s.keepsRegs [] t)) ∧
    (∀ k v, s.net.lines.find? (fun e => e.1 == flightKey other.die line.toNat) = some (k, v) →
      s.net.sick.contains (flightKey other.die line.toNat) = true → line.toNat ∈ t.poison ∧ s.keepsRegs [] t ∧ s.keepsMem t) ∧
    (s.net.lines.find? (fun e => e.1 == flightKey other.die line.toNat) = none → t.sent = .served .rdUnq die.die.idx line.toNat :: s.sent ∧
      s.keepsRegs [] t ∧ s.keepsMem t)) ∧
  (∀ (die : FDie) (line : BitVec 42) (h : Die) (count : Nat) (s : State), lineHome line.toNat = some h →
    s.flag (atDie h) .ECC_TEST_CTRL_EN = false → s.dirRec line.toNat = ⟨true, [(die.die.idx, count)]⟩ →
    count ≠ Tbl.get 0 s.dieResets die.die.idx → ∃ t, exec (.homeDownWalkStep line) s = .next t ∧
    line.toNat ∈ t.poison ∧ (t.dirRec line.toNat).holders = [] ∧ s.keepsRegs (.NOC_DIR_CNT :: eventRegs) t ∧ s.keepsMem t) ∧
  (∀ (line : BitVec 42) (s : State), (∀ h ∈ (s.dirRec line.toNat).holders, h.2 = Tbl.get 0 s.dieResets h.1) →
    exec (.homeDownWalkStep line) s = .next s)

/-- Chapter 07, what starts and carries a load (R200, R201, R209, R212 to R214).
Model's choices: log entries 35 (DEDUCED), 49 (DEDUCED), 126 (DEDUCED), 130 (DEDUCED), 133 (DEDUCED), 141 (DEDUCED), 229 (DESIGN
CHOICE). -/
def Obligations.LoadStartCommandsRun : Prop :=
  (∀ s : State, s.clk.power ≠ 2 → ∃ t, exec .cfgProgNLow s = .next t ∧ t.cfg = { s.cfg with progLow := true } ∧ s.keepsRegs [] t ∧
    s.keepsMem t) ∧
  (∀ s : State, s.clk.power = 2 → exec .cfgProgNLow s =
    .next (Die.all.foldl (fun s d => s.repairDrop d) (s.setCfg { s.cfg with progLow := true }).loadKill).scrubsMeet) ∧
  (∀ (mode : BitVec 3) (pull : Bool) (s : State), s.cfg.progLow = true → s.clk.power = 2 → exec (.cfgProgNRise mode pull) s =
    .next (((s.setCfg { s.cfg with progLow := false }).puts (atDie .e0) [(.CFG_SRC_MODE, mode.toNat), (.CFG_SRC_PULL, natOf pull)]).fullStart
      0 true)) ∧
  (∀ (mode : BitVec 3) (pull : Bool) (s : State), s.cfg.progLow = true → s.clk.power ≠ 2 →
    ∃ t, exec (.cfgProgNRise mode pull) s = .next t ∧ t.cfg = { s.cfg with progLow := false } ∧ s.keepsRegs [] t ∧ s.keepsMem t) ∧
  (∀ s : State, s.flag (atDie .e0) .CFG_STATUS_BUSY = false → s.cfg.progLow = false →
    exec (.loadPrimary 0xC5) s = .next (s.fullStart 1 false) ∧ exec (.loadFallback 0xC5) s = .next (s.fullStart 2 false)) ∧
  (∀ s : State, s.flag (atDie .e0) .CFG_STATUS_BUSY = false → s.cfg.progLow = false →
    ∃ t, exec .acceptStream s = .next t ∧ t.cfg.streamOpen = true ∧ t.cfg.phase = .header ∧ t.cfg.streamPos = 0 ∧
    t.flag (atDie .e0) .CFG_STATUS_BUSY = true ∧ t.get (atDie .e0) .CFG_STATUS_CODE = 1 ∧ t.get (atDie .e0) .CFG_STATUS_STAGE = 2 ∧
    t.pins.cfgErrLow = false ∧ s.keepsRegs [.CFG_STATUS, .CFG_PROGRESS] t ∧ s.keepsMem t) ∧
  (∀ (key : BitVec 8) (s : State), (s.flag (atDie .e0) .CFG_STATUS_BUSY = true ∨ s.cfg.progLow = true ∨ key ≠ 0xC5) →
    ∃ t, exec (.loadPrimary key) s = .next t ∧ exec (.loadFallback key) s = .next t ∧
    t.flag (atDie .e0) .CFG_STATUS_CMD_IGNORED = true ∧ t.cfg = s.cfg ∧ s.keepsRegs [.CFG_STATUS] t ∧ s.keepsMem t) ∧
  (∀ (offset : BitVec 28) (bytes : List Byte) (s : State), ∃ t, exec (.imageWindowWrite .other offset bytes) s = .next t ∧
    t.flag (atDie .e0) .CFG_STATUS_WIN_DROP = true ∧ t.cfg = s.cfg ∧ s.keepsRegs (.CFG_STATUS :: eventRegs) t ∧ s.keepsMem t) ∧
  (∀ (offset : BitVec 28) (bytes : List Byte) (s : State), s.cfg.streamOpen = true → offset.toNat = s.cfg.streamPos →
    exec (.imageWindowWrite .management offset bytes) s = .next (s.streamIn 4 0 (bytes.map BitVec.toNat)) ∧
    exec (.imageWindowWrite .pcie offset bytes) s = .next (s.streamIn 5 0 (bytes.map BitVec.toNat))) ∧
  (∀ (offset : BitVec 28) (bytes : List Byte) (s : State), s.cfg.streamOpen = true → offset.toNat ≠ s.cfg.streamPos →
    exec (.imageWindowWrite .management offset bytes) s = .next ((s.streamDrop 0 offset.toNat).refuse 0x1B 0 0 false)) ∧
  (∀ s : State, s.cfg.streamOpen = true → exec .streamStallTimeout s = .next (s.refuse 0x1B 0 0 false)) ∧
  (∀ (bytes : List Byte) (s : State), s.cfg.streamOpen = false → s.cfg.phase = .table → (s.cfg.source = 1 ∨ s.cfg.source = 2) →
    bytes.length = tableBytes s.cfg.header → exec (.entryTableReceived bytes) s = .next (s.tableIn (bytes.map BitVec.toNat))) ∧
  (∀ (p : Packet) (s : State), s.cfg.streamOpen = false → s.cfg.phase = .frames → (s.cfg.source = 1 ∨ s.cfg.source = 2) →
    s.cfg.again = false → exec (.framePacket p) s = .next (s.packetIn p false)) ∧
  (∀ (p : Packet) (bytes : List Byte) (s : State), s.cfg.streamOpen = true →
    exec (.framePacket p) s = .next (s.streamFeed 4 0 (packetBytes p)) ∧
    exec (.entryTableReceived bytes) s = .next (s.streamFeed 4 0 (bytes.map BitVec.toNat)))

/-- Chapters 07 and 11, the test port (R212, R321). Each instruction selects its data register. CFG_STAT shows CFG_STATUS and IDCODE the
identity; EXTEST and SAMPLE/PRELOAD shift out what the boundary cells capture and keep the bits shifted in; BYPASS shifts out 0. CFG_READ
names a frame at the observe level and its captures read the frame's words in order. CFG_IN passes four bytes of an image, and CFG_CMD gives
a command, while no personality runs or in a session at the full level; otherwise each is discarded with WIN_DROP or CMD_IGNORED.
Model's choices: log entries 24 (PRESUMED), 136 (DESIGN CHOICE), 142 (DESIGN CHOICE), 201 (DESIGN CHOICE), 227 (DESIGN CHOICE). -/
def Obligations.TestPortCommandsRun : Prop :=
  (∀ s : State, ∃ t, exec .cfgStat s = .next t ∧ t.answer = s.reg (atDie .e0) .CFG_STATUS ∧
    t.sent = .shifted (s.reg (atDie .e0) .CFG_STATUS).toNat :: s.sent ∧ t.tap.ir = 0x09 ∧ s.keepsRegs [] t ∧ s.keepsMem t) ∧
  (∀ s : State, ∃ t, exec .idcode s = .next t ∧ t.answer = 0x0088034B ∧ t.sent = .shifted 0x0088034B :: s.sent ∧ t.tap.ir = 0x01 ∧
    s.keepsRegs [] t ∧ s.keepsMem t) ∧
  (∀ (bits : List Bool) (s : State), ∃ t, exec (.extest bits) s = .next t ∧ t.tap.ir = 0x00 ∧ t.tap.cells = bits ∧
    t.sent = .shifted ((List.range bits.length).foldr (fun i v => natOf (s.scanBit i) + 2 * v) 0) :: s.sent ∧ s.keepsRegs [] t ∧
    s.keepsMem t) ∧
  (∀ (bits : List Bool) (s : State), ∃ t, exec (.samplePreload bits) s = .next t ∧ t.tap.ir = 0x02 ∧ t.tap.cells = bits ∧
    t.sent = .shifted ((List.range bits.length).foldr (fun i v => natOf (s.scanBit i) + 2 * v) 0) :: s.sent ∧
    s.keepsRegs [] t ∧ s.keepsMem t) ∧
  (∀ s : State, ∃ t, exec .bypass s = .next t ∧ t.tap.ir = 0xFF ∧ t.sent = .shifted 0 :: s.sent ∧ s.keepsRegs [] t ∧ s.keepsMem t) ∧
  (∀ (v : Word) (s : State), v.getLsbD 31 = true → 1 ≤ s.get (atDie .e0) .DBG_SESSION_LEVEL →
    ∃ t, exec (.cfgRead v) s = .next t ∧ t.tap.ir = 0x0B ∧ t.tap.frame = some (v.toNat % 2 ^ 25) ∧ t.tap.word = 0 ∧ s.keepsRegs [] t ∧
    s.keepsMem t) ∧
  (∀ (v : Word) (s : State), v.getLsbD 31 = false ∨ s.get (atDie .e0) .DBG_SESSION_LEVEL = 0 →
    ∃ t, exec (.cfgRead v) s = .next t ∧ t.tap = { s.tap with ir := 0x0B } ∧ s.keepsRegs [] t ∧ s.keepsMem t) ∧
  (∀ (addr : Nat) (s : State), s.tap.frame = some addr → s.tap.word < 132 → 1 ≤ s.get (atDie .e0) .DBG_SESSION_LEVEL →
    (s.scrub (Die.ofIdx (bitsOf addr 20 3))).mode ≠ 2 →
    ∃ t, exec .cfgReadCapture s = .next t ∧ t.tap.frame = some addr ∧ t.tap.word = s.tap.word + 1 ∧
    t.answer = BitVec.ofNat 32 (s.readbackWord addr s.tap.word).2) ∧
  (∀ s : State, s.tap.frame = none ∨ 132 ≤ s.tap.word ∨ s.get (atDie .e0) .DBG_SESSION_LEVEL = 0 →
    ∃ t, exec .cfgReadCapture s = .next t ∧ t.tap = s.tap ∧ s.keepsRegs [] t ∧ s.keepsMem t) ∧
  (∀ (v : Word) (s : State), s.tapMay = true → s.cfg.streamOpen = true → s.cfg.phase ≠ .waiting → s.cfg.phase ≠ .refusal →
    exec (.cfgIn v) s = .next ((s.tapIr 0x08).streamIn 3 1 (bytesLE v.toNat 4))) ∧
  (∀ (v : Word) (s : State), s.tapMay = true → s.cfg.phase = .waiting ∨ s.cfg.phase = .refusal →
    exec (.cfgIn v) s = .next ((s.tapIr 0x08).streamBegin.streamIn 3 1 (bytesLE v.toNat 4))) ∧
  (∀ (v : Word) (s : State), s.tapMay = true → s.cfg.streamOpen = false → s.cfg.phase ≠ .waiting → s.cfg.phase ≠ .refusal →
    ∃ t, exec (.cfgIn v) s = .next t ∧ t.flag (atDie .e0) .CFG_STATUS_WIN_DROP = true ∧
    t.cfg = s.cfg ∧ s.keepsRegs (.CFG_STATUS :: eventRegs) t ∧ s.keepsMem t) ∧
  (∀ (v : Word) (s : State), s.tapMay = false → ∃ t, exec (.cfgIn v) s = .next t ∧ t.flag (atDie .e0) .CFG_STATUS_WIN_DROP = true ∧
    t.cfg = s.cfg ∧ s.keepsRegs (.CFG_STATUS :: eventRegs) t ∧ s.keepsMem t) ∧
  (∀ (v : Word) (s : State), s.tapMay = true →
    exec (.testPortCfgCmd v) s = .next ((s.tapIr 0x0A).cfgCmd (v.toNat % 8) (v.toNat / 2 ^ 24))) ∧
  (∀ (v : Word) (s : State), s.tapMay = false → ∃ t, exec (.testPortCfgCmd v) s = .next t ∧
    t.flag (atDie .e0) .CFG_STATUS_CMD_IGNORED = true ∧ t.cfg = s.cfg ∧ s.keepsRegs [.CFG_STATUS] t ∧ s.keepsMem t)

/-- Chapters 07 and 08, the steps of a load and of its release (R203 to R210, R225 to R232, R33 step 6).
Model's choices: log entries 35 (DEDUCED), 127 (DEDUCED), 131 (DEDUCED), 132 (DEDUCED), 134 (DEDUCED), 137 (DEDUCED), 139
(DEDUCED). -/
def Obligations.LoadStepCommandsRun : Prop :=
  (∀ (header : BitVec 2048) (s : State), s.cfg.phase = .header → (s.cfg.source = 1 ∨ s.cfg.source = 2) →
    exec (.flashHeaderRead header) s = .next (s.setCfg { s.cfg with header := bytesLE header.toNat 256 }).headerOn) ∧
  (∀ s : State, s.cfg.phase = .prepare → (∀ d : FDie, s.up d.die = false) → exec .loadPreparationDone s =
    .next (let t := s.loadBegin; if t.cfg.header = [] then (t.phase .start).loadOn
      else if t.cfg.source = 1 ∨ t.cfg.source = 2 then t.phase .setup else ((t.phase .table).cfgStage 3).streamGo)) ∧
  (∀ s : State, s.cfg.phase = .prepare → (∀ (d : FDie) (p : Fin 16), s.fence (.parcel d p) = 2 ∧ s.powerStep d.die p = 0) →
    exec .loadPreparationDone s = .next (let t := s.loadBegin; if t.cfg.header = [] then (t.phase .start).loadOn
      else if t.cfg.source = 1 ∨ t.cfg.source = 2 then t.phase .setup else ((t.phase .table).cfgStage 3).streamGo)) ∧
  (∀ s : State, s.cfg.phase = .setup → s.setupLeft = true → ∃ t, exec .flashSetupRecord s = .next t ∧
    t.cfg = { s.cfg with setupNext := s.cfg.setupNext + 1 } ∧
    t.sent = .flashSetup (hdrSetup s.cfg.header s.cfg.setupNext) :: s.sent ∧ s.keepsRegs [] t ∧ s.keepsMem t) ∧
  (∀ (header : BitVec 2048) (s : State), s.cfg.phase = .setup → s.setupLeft = false → bytesLE header.toNat 256 = s.cfg.header →
    ∃ t, exec (.flashHeaderReread header) s = .next t ∧ t.cfg = { s.cfg with phase := .table } ∧
    t.flag (atDie .e0) .CFG_FLASH_OCTAL = true ∧ t.get (atDie .e0) .CFG_STATUS_STAGE = 3 ∧ s.keepsRegs [.CFG_FLASH, .CFG_STATUS] t ∧
    s.keepsMem t) ∧
  (∀ (header : BitVec 2048) (s : State), s.cfg.phase = .setup → s.setupLeft = false → bytesLE header.toNat 256 ≠ s.cfg.header →
    exec (.flashHeaderReread header) s = .next (s.refuse 0x1A 0 0 false)) ∧
  (∀ (p : Packet) (d : Die) (f : Nat) (s : State), s.cfg.phase = .frames → s.cfg.again = true →
    packetPlace s.cfg.header Die.all s.cfg.frames = (d, f) → exec (.frameReread p) s =
    .next (((s.raise .e0 Ev.CFG_FRAME_RETRY (frameAddr d f)).setCfg { s.cfg with again := false }).packetIn p true)) ∧
  (∀ (die : FDie) (hold : Bool) (s : State), s.cfg.partialLoad = false → ∃ t, exec (.partialLoadAbort die hold) s = .next t ∧
    t.get (atDie die.die) .PRC_LOAD_CTRL_HOLD = natOf hold ∧ s.keepsRegs [.PRC_LOAD_CTRL] t ∧ s.keepsMem t) ∧
  (∀ (die : FDie) (hold : Bool) (s : State), s.cfg.partialLoad = true → s.loadDie = die.die → s.cfg.phase ≠ .blanking →
    3 ≤ s.loadSt → ∃ t, exec (.partialLoadAbort die hold) s = .next t ∧ t.flag (atDie die.die) .PRC_LOAD_STAT_ABORT_LATE = true ∧
    t.cfg = s.cfg ∧ s.keepsRegs [.PRC_LOAD_CTRL, .PRC_LOAD_STAT] t ∧ s.keepsMem t) ∧
  (∀ (die : FDie) (hold : Bool) (s : State), s.cfg.partialLoad = true → s.loadDie = die.die → s.cfg.phase ≠ .blanking →
    s.loadSt < 3 → exec (.partialLoadAbort die hold) s = .next (((s.put (atDie die.die) .PRC_LOAD_CTRL_HOLD (natOf hold)).put
      (atDie die.die) .PRC_LOAD_STAT_TARGETS (hdrParcels s.cfg.header)).blankStart 3)) ∧
  (∀ s : State, s.blankReady = true → exec .blankingDone s = .next s.blankEnd) ∧
  (∀ s : State, s.blankReady = false → exec .blankingDone s = .next s) ∧
  (∀ (die : FDie) (p : Fin 16) (s : State), s.powerStep die.die p = 5 → s.loadTarget die.die p = false → s.cfg.phase ≠ .prepare →
    ∃ t, exec (.parcelBramCleared die p) s = .next t ∧ t.powerStep die.die p = 6 ∧ s.keepsRegs [] t ∧ s.keepsMem t) ∧
  (∀ (k : RelKind) (s : State), s.releaseAt k 1 = true → exec (.releaseStageOutputs k) s =
    .next (let t := (s.releaseTo k 2).dieStages k 1; let t := (t.releaseParcels k).foldl (fun s x => s.parcelStage1 x.1 x.2) t;
      let t := if k = .full then t.fullOutputs else t; (t.releaseDies k).foldl (fun s d => s.lanesRelease d) t)) ∧
  (∀ (k : RelKind) (s : State), s.releaseAt k 2 = true → exec (.releaseStageWriteEnables k) s =
    .next ((s.releaseParcels k).foldl (fun s x => s.parcelStage2 x.1 x.2) ((s.releaseTo k 3).dieStages k 2))) ∧
  (∀ (d : FDie) (p : Fin 16) (s : State), s.releaseAt (.power d p) 3 = true → exec (.releaseStageResets (.power d p)) s =
    .next ((((s.releaseTo (.power d p) 4).parcelStage3 d p).releaseEnd (.power d p)).powerDone d p)) ∧
  (∀ s : State, s.releaseAt .full 4 = true → ∃ t, exec .cfgDone s = .next t ∧ t.pins.cfgDone = true ∧ t.cfg.phase = .idle ∧
    t.get (atDie .e0) .CFG_STATUS_CODE = 2 ∧ t.get (atDie .e0) .CFG_STATUS_BUSY = 0 ∧ t.releaseAt .full 4 = false ∧
    s.keepsRegs (.CFG_STATUS :: .SCR_STATUS :: eventRegs) t ∧ s.keepsMem t) ∧
  (∀ (k : RelKind) (s : State), s.releaseAt k 1 = false → exec (.releaseStageOutputs k) s = .next s) ∧
  (∀ (k : RelKind) (s : State), s.releaseAt k 2 = false → exec (.releaseStageWriteEnables k) s = .next s) ∧
  (∀ (k : RelKind) (s : State), s.releaseAt k 3 = false → exec (.releaseStageResets k) s = .next s)

/-- Chapters 05 and 08: fences (R159), where a DRAINING fence closes when nothing is outstanding across it, or at its
limit; power-gating and captures of parcels (R235 to R237, R241, R242).
Model's choices: log entries 35 (DEDUCED), 134 (DEDUCED), 150 (DEDUCED), 226 (DEDUCED), 228 (DESIGN CHOICE). -/
def Obligations.FenceAndParcelCommandsRun : Prop :=
  (∀ (a b : Die) (s : State), s.fence (.die a b) = 1 →
    (s.tags.any fun e => owed (.die a b) (e.1 / 1024) e.2 || owedIn (.die a b) (e.1 / 1024) e.2) = false →
    ∃ t, exec (.fenceDrained (.die a b)) s = .next t ∧ t.fence (.die a b) = 2 ∧ s.keepsRegs [.NOC_DFENCE_STAT] t ∧ s.keepsMem t) ∧
  (∀ (d : FDie) (p : Fin 16) (s : State), s.fence (.parcel d p) = 1 →
    (s.tags.any fun e => owed (.parcel d p) (e.1 / 1024) e.2 || owedIn (.parcel d p) (e.1 / 1024) e.2) = false →
    exec (.fenceDrained (.parcel d p)) s = .next ((((s.setFence (.parcel d p) 2).parcelClosed d.die p).blankShut d.die p).partialWrite)) ∧
  (∀ (f : FenceId) (s : State), s.fence f = 1 → exec (.nocFenceLimit f) s = .next ((s.fenceLimit f).fenceClosed f)) ∧
  (∀ (f : FenceId) (s : State), s.fence f ≠ 1 → exec (.nocFenceLimit f) s = .next s ∧ exec (.fenceDrained f) s = .next s) ∧
  (∀ (die : FDie) (p : Fin 16) (s : State), s.powerMisfit die.die (2 ^ p.val) 0 p = false →
    ∃ t, exec (.parcelPowerDown die (BitVec.ofNat 16 (2 ^ p.val)) 0) s = .next t ∧ t.powerStep die.die p = 1 ∧ s.keepsRegs [] t ∧
    s.keepsMem t) ∧
  (∀ (die : FDie) (p : Fin 16) (s : State), s.powerMisfit die.die (2 ^ p.val) 0 p = true →
    ∃ t, exec (.parcelPowerDown die (BitVec.ofNat 16 (2 ^ p.val)) 0) s = .next t ∧ t.prcStep = s.prcStep ∧
    t.bit (atDie die.die) .PRC_PG_STAT_IGNORED p = true ∧ s.keepsRegs (.PRC_PG_STAT :: eventRegs) t ∧ s.keepsMem t) ∧
  (∀ (die : FDie) (p : Fin 16) (s : State), s.powerMisfit die.die 0 (2 ^ p.val) p = false →
    ∃ t, exec (.parcelPowerUp die (BitVec.ofNat 16 (2 ^ p.val))) s = .next t ∧ t.powerStep die.die p = 4 ∧ s.keepsRegs [] t ∧
    s.keepsMem t) ∧
  (∀ (die : FDie) (p : Fin 16) (s : State), s.powerStep die.die p = 3 → ∃ t, exec (.parcelSwitchOpen die p) s = .next t ∧
    t.parcelSt die.die p = 3 ∧ t.prcStep = Tbl.erase s.prcStep (parcelKey die.die p) ∧
    t.bit (atDie die.die) .PRC_PG_STAT_GATED p = true ∧
    s.keepsRegs (.PRC_STATE :: .PRC_PG_STAT :: .PRC_CAP_STAT :: eventRegs) t ∧ s.keepsMem t) ∧
  (∀ (die : FDie) (p : Fin 16) (s : State), s.powerStep die.die p = 4 → ∃ t, exec (.parcelSupplyGood die p) s = .next t ∧
    t.powerStep die.die p = 5 ∧ s.keepsRegs [] t ∧ s.keepsMem t) ∧
  (∀ (die : FDie) (p : Fin 16) (s : State), s.powerStep die.die p ≠ 3 → exec (.parcelSwitchOpen die p) s = .next s) ∧
  (∀ (die : FDie) (p : Fin 16) (s : State), s.powerStep die.die p ≠ 4 → exec (.parcelSupplyGood die p) s = .next s) ∧
  (∀ (die : FDie) (p : Fin 16) (freeze : Bool) (s : State), s.flag (atDie die.die) .PRC_CAP_STAT_BUSY = false →
    s.flag (atDie die.die) .PRC_CAP_STAT_FROZEN = false → s.parcelSt die.die p ≠ 1 → s.parcelSt die.die p ≠ 3 →
    s.loadTarget die.die p = false → ∃ t, exec (.captureRequest die p freeze) s = .next t ∧
    t.flag (atDie die.die) .PRC_CAP_STAT_BUSY = true ∧ t.get (atDie die.die) .PRC_CAP_CTRL_PARCEL = p ∧
    t.capWait = Tbl.set s.capWait die.die.idx ⟨p, freeze, false, 0, 0⟩ ∧ s.keepsRegs [.PRC_CAP_CTRL, .PRC_CAP_STAT] t ∧ s.keepsMem t) ∧
  (∀ (die : FDie) (p : Fin 16) (freeze : Bool) (s : State), (s.flag (atDie die.die) .PRC_CAP_STAT_BUSY = true ∨
    s.flag (atDie die.die) .PRC_CAP_STAT_FROZEN = true ∨ s.parcelSt die.die p = 1 ∨ s.parcelSt die.die p = 3 ∨
    s.loadTarget die.die p = true) → ∃ t, exec (.captureRequest die p freeze) s = .next t ∧
    t.flag (atDie die.die) .PRC_CAP_STAT_IGNORED = true ∧ t.capWait = s.capWait ∧
    s.keepsRegs (.PRC_CAP_CTRL :: .PRC_CAP_STAT :: eventRegs) t ∧ s.keepsMem t) ∧
  (∀ (die : FDie) (key : Nat) (c : CapReq) (s : State), s.capWait.find? (fun e => e.1 == die.die.idx) = some (key, c) →
    c.copied = true → ∃ t, exec (.captureCopyDone die) s = .next t ∧ t.flag (atDie die.die) .PRC_CAP_STAT_VALID = true ∧
    t.flag (atDie die.die) .PRC_CAP_STAT_BUSY = false ∧ t.capWait = Tbl.erase s.capWait die.die.idx ∧
    s.keepsRegs (.PRC_CAP_STAT :: .PRC_CAP_HEAT :: eventRegs) t ∧ s.keepsMem t) ∧
  (∀ (die : FDie) (s : State), s.flag (atDie die.die) .PRC_CAP_STAT_FROZEN = true → ∃ t, exec (.captureResume die) s = .next t ∧
    t.flag (atDie die.die) .PRC_CAP_STAT_FROZEN = false ∧ (∀ p, p < 16 → t.frozen.contains (parcelKey die.die p) = false) ∧
    s.keepsRegs [.PRC_CAP_STAT] t ∧ s.keepsMem t)

/-- Chapter 09, the scrubbers and their repairs (R246 to R262).
Model's choices: log entries 35 (DEDUCED), 51 (DEDUCED), 230 (DESIGN CHOICE). -/
def Obligations.ScrubCommandsRun : Prop :=
  (∀ (d : Die) (lap : BitVec 32) (n : Nat) (s : State), (s.scrub d).mode ≠ 0 → (s.scrub d).paused = false →
    clean d (s.get (atDie d) .SCR_STATUS_FRAME) (s.frame d (s.get (atDie d) .SCR_STATUS_FRAME)) = true →
    nextFrame d (s.get (atDie d) .SCR_STATUS_FRAME) = some n → n < 65536 → ∃ t, exec (.scrubFrameCheck d lap) s = .next t ∧
    t.get (atDie d) .SCR_STATUS_FRAME = n ∧ t.frames = s.frames ∧ s.keepsRegs [.SCR_STATUS] t ∧ s.keepsMem t) ∧
  (∀ (d : Die) (lap : BitVec 32) (s : State), ((s.scrub d).mode = 0 ∨ (s.scrub d).paused = true) →
    exec (.scrubFrameCheck d lap) s = .next s) ∧
  (∀ (d : Die) (s : State), (s.scrub d).mode = 1 → (s.scrub d).paused = false → s.scrubMay d = true →
    ∃ t, exec (.prioLap d) s = .next t ∧ (t.scrub d).mode = 2 ∧ (t.scrub d).cause = 2 ∧ t.get (atDie d) .SCR_STATUS_FRAME = 0 ∧
    s.keepsRegs [.SCR_STATUS] t ∧ s.keepsMem t) ∧
  (∀ (d : Die) (s : State), (s.scrub d).mode = 1 → (s.scrub d).paused = true → s.scrubMay d = true →
    ∃ t, exec (.prioLap d) s = .next t ∧ (t.scrub d).waiting = some 2 ∧ s.keepsRegs [.SCR_STATUS] t ∧ s.keepsMem t) ∧
  (∀ (d : Die) (en : Bool) (s : State), ∃ t, exec (.scrubberEnable d en) s = .next t ∧ 
    t.reg (atDie d) .SCR_CTRL = Reg.written .SCR_CTRL (s.reg (atDie d) .SCR_CTRL) (BitVec.ofNat 32 (natOf en)) ∧
    s.keepsRegs [.SCR_CTRL, .SCR_STATUS] t ∧ s.keepsMem t) ∧
  (∀ (die : FDie) (header : BitVec 2048) (r : Repair) (s : State), (s.scrub die.die).repair = some r → r.step = 2 →
    s.flag (atDie .e0) .MGT_STAT_CAL_BUSY = false → imageIdentity (bytesLE header.toNat 256) = imageIdentity s.cfg.inForce →
    ∃ t, exec (.repairHeaderRead die header) s = .next t ∧ (t.scrub die.die).repair = some { r with step := 4 } ∧
    t.sent = .flashRead (s.packetAt die.die r.frame) 528 :: s.sent ∧ s.keepsRegs [.SCR_STATUS] t ∧ s.keepsMem t) ∧
  (∀ (die : FDie) (header : BitVec 2048) (r : Repair) (s : State), (s.scrub die.die).repair = some r → r.step = 2 →
    s.flag (atDie .e0) .MGT_STAT_CAL_BUSY = false → imageIdentity (bytesLE header.toNat 256) ≠ imageIdentity s.cfg.inForce →
    exec (.repairHeaderRead die header) s = .next (s.repairFail die.die r 3)) ∧
  (∀ (die : FDie) (header : BitVec 2048) (s : State), s.flag (atDie .e0) .MGT_STAT_CAL_BUSY = true →
    exec (.repairHeaderRead die header) s = .next s) ∧
  (∀ (die : FDie) (p : Packet) (r : Repair) (s : State), (s.scrub die.die).repair = some r → r.step = 4 →
    p.addr.toNat = frameAddr die.die r.frame → packetCrcOk p = true → packetSyndOk p = true →
    ∃ t, exec (.repairPacketRead die p) s = .next t ∧
    (t.scrub die.die).repair = some { r with step := 5, packet := packetFrame p } ∧ s.keepsRegs [.SCR_STATUS] t ∧ s.keepsMem t) ∧
  (∀ (die : FDie) (p : Packet) (r : Repair) (s : State), (s.scrub die.die).repair = some r → r.step = 4 →
    (p.addr.toNat ≠ frameAddr die.die r.frame ∨ packetCrcOk p = false ∨ packetSyndOk p = false) →
    exec (.repairPacketRead die p) s = .next (s.repairFail die.die r 4)) ∧
  (∀ (die : FDie) (r : Repair) (s u : State), (s.scrub die.die).repair = some r → r.step = 5 →
    u = s.writeFrame die.die r.frame (some (s.frame die.die r.frame).data) r.packet → clean die.die r.frame (u.frame die.die r.frame) = true →
    ∃ t, exec (.repairFrameWritten die) s = .next t ∧ (t.scrub die.die).repair = none ∧
    t = (((u.setScrub die.die { u.scrub die.die with repair := none }).bump (atDie die.die) .SCR_REPAIR_CNT_REPAIRED 1).raise
        die.die Ev.SCR_REPAIRED (frameAddr die.die r.frame))) ∧
  (∀ (die : FDie) (r : Repair) (s u : State), (s.scrub die.die).repair = some r → r.step = 5 →
    u = s.writeFrame die.die r.frame (some (s.frame die.die r.frame).data) r.packet → clean die.die r.frame (u.frame die.die r.frame) = false →
    exec (.repairFrameWritten die) s = .next (u.repairFail die.die r 6)) ∧
  (∀ (die : FDie) (r : Repair) (s : State), (s.scrub die.die).repair = some r → r.step ≠ 5 →
    exec (.repairTimeout die) s = .next (s.repairFail die.die r 7)) ∧
  (∀ (die : FDie) (r : Repair) (s : State), (s.scrub die.die).repair = some r → r.step = 5 →
    exec (.repairTimeout die) s = .next s) ∧
  (∀ (die : FDie) (s : State), (s.scrub die.die).repair = none → exec (.repairTimeout die) s = .next s) ∧
  (∀ (d : Die) (f : BitVec 16) (bit : Fin 4144) (s : State), f.toNat < dieFrames d → 4096 ≤ bit.val →
    ∃ t, exec (.configurationUpset (.frame d f bit)) s = .next t ∧ (t.frame d f.toNat).data = (s.frame d f.toNat).data ∧
    s.keepsRegs [] t ∧ s.keepsMem t) ∧
  (∀ (d : Die) (f : BitVec 16) (bit : Fin 4144) (s : State), f.toNat < dieFrames d → bit.val < 4096 → isContent d f.toNat = false →
    ∃ t, exec (.configurationUpset (.frame d f bit)) s = .next t ∧
    (t.frame d f.toNat).data = (s.frame d f.toNat).data ^^^ BitVec.ofNat 4096 (2 ^ bit.val) ∧ s.keepsMem t) ∧
  (∀ (d : Die) (f : BitVec 16) (bit : Fin 4144) (s : State), f.toNat < dieFrames d → bit.val < 4096 → isContent d f.toNat = true →
    exec (.configurationUpset (.frame d f bit)) s = .next
      (s.bitError d 0 ((contentPlace f.toNat).1 * 1024 + (contentPlace f.toNat).2 + bit.val / 32) (bit.val % 32))) ∧
  (∀ (d : Die) (k copy : Fin 3) (bit : Fin 32) (s : State), s.copies d k = [0, 0, 0] →
    ∃ t, exec (.configurationUpset (.setting d k copy bit)) s = .next t ∧ t.setting d k = s.setting d k ∧
    s.keepsRegs [.SCR_STATUS] t ∧ s.keepsMem t)

/-- Chapter 06, groups on Weld channels (R163, R166 to R171, R175, R191).
Model's choices: log entries 35 (DEDUCED), 47 (DEDUCED), 52 (DEDUCED), 53 (DEDUCED), 54 (DEDUCED), 56 (DEDUCED), 197 (DEDUCED),
198 (DESIGN CHOICE), 219 (DEDUCED), 238 (DESIGN CHOICE), 239 (DESIGN CHOICE). -/
def Obligations.WeldGroupCommandsRun : Prop :=
  (∀ (d : Die) (ch : Fin 88) (p : Nat) (sh : List Int) (f : Flit) (s : State), chanOn d ch = true → s.chanSt d ch = 2 →
    (s.weld d ch).cur = none → (s.weld d ch).pick 8 = some (p, sh) → (s.weld d ch).queue.find? (fun f => flitPool f == p) = some f →
    (s.weld d ch).replay.length + flitGroups p ≤ 64 → ∃ t, exec (.weldFlitStart d ch) s = .next t ∧
    (t.weld d ch).txSeq = ((s.weld d ch).txSeq + flitGroups p) % 256 ∧
    (t.weld d ch).replay = (s.weld d ch).replay ++
      (List.range (flitGroups p)).map (fun i => (dataGroup ((s.weld d ch).txSeq + i) p i f.bits, 0)) ∧
    (t.weld d ch).credits = (s.weld d ch).credits.set p ((s.weld d ch).credits.getD p 0 - flitGroups p) ∧
    (t.weld d ch).queue = takePool p (s.weld d ch).queue ∧ (t.weld d ch).cur = none ∧ (t.weld d ch).shares = sh ∧
    (∀ i, i < flitGroups p → Emit.weld d.idx ch (dataGroup ((s.weld d ch).txSeq + i) p i f.bits)
      (groupBeats (s.weld (chanPeer d ch) ch).map (dataGroup ((s.weld d ch).txSeq + i) p i f.bits)) ∈ t.sent) ∧
    s.keepsRegs (.WLD_CH_STAT :: .WLD_CH_REPAIR :: eventRegs) t ∧ s.keepsMem t) ∧
  (∀ (d : Die) (ch : Fin 88) (s : State), chanOn d ch = true → s.chanSt d ch = 2 → (s.weld d ch).cur = none →
    (s.weld d ch).pick 8 = none ∨ (∃ p sh, (s.weld d ch).pick 8 = some (p, sh) ∧ 64 < (s.weld d ch).replay.length + flitGroups p) →
    ∃ t, exec (.weldFlitStart d ch) s = .next t ∧
    Emit.weld d.idx ch idleGroup (groupBeats (s.weld (chanPeer d ch) ch).map idleGroup) ∈ t.sent ∧
    (t.weld d ch).txSeq = (s.weld d ch).txSeq ∧ (t.weld d ch).replay = (s.weld d ch).replay ∧
    s.keepsRegs (.WLD_CH_STAT :: .WLD_CH_REPAIR :: eventRegs) t ∧ s.keepsMem t) ∧
  (∀ (d : Die) (ch : Fin 88) (s : State), chanOn d ch = true → s.chanSt d ch = 1 → (s.weld d ch).step = 5 →
    exec (.weldFlitStart d ch) s = .next (s.weldControl d ch)) ∧
  (∀ (d : Die) (ch : Fin 88) (s : State),
    (chanOn d ch = false ∨ (s.chanSt d ch ≠ 2 ∧ (s.chanSt d ch ≠ 1 ∨ (s.weld d ch).step ≠ 5))) →
    exec (.weldFlitStart d ch) s = .next s) ∧
  (∀ (d : Die) (ch : Fin 88) (p : Nat) (g : BitVec 256) (s : State), chanOn d ch = true → s.chanSt d ch = 2 → weldCrcOk g = true →
    groupBits g 30 2 = 0 → groupBits g 16 8 = ((s.weld d ch).ack + 1) % 256 → p = groupBits g 24 2 * 4 + groupBits g 26 2 →
    ∃ t, exec (.weldDataGroup d ch g) s = .next t ∧ (t.weld d ch).ack = groupBits g 16 8 ∧ (t.weld d ch).nak = false ∧
    ((Tbl.get [] (s.weld d ch).rx p).length + 1 < flitGroups p →
      Tbl.get [] (t.weld d ch).rx p = Tbl.get [] (s.weld d ch).rx p ++ [BitVec.ofNat 224 (groupBits g 32 224)]) ∧
    ((s.weld d ch).rx = [] → flitGroups p = 1 → s.inputRoom (weldRouter d ch).1 (p / 4) (p % 4) (weldRouter d ch).2 = true →
      (t.weld d ch).rx = [] ∧ (t.weld d ch).freed = (s.weld d ch).freed.set p (((s.weld d ch).freed.getD p 0 + 1) % 256)) ∧
    s.keepsRegs (.WLD_CH_STAT :: .WLD_CH_REPAIR :: .NOC_RTR_ERR :: eventRegs) t ∧ s.keepsMem t) ∧
  (∀ (d : Die) (ch : Fin 88) (g : BitVec 256) (s : State), chanOn d ch = true → s.chanSt d ch = 2 → weldCrcOk g = false →
    exec (.weldDataGroup d ch g) s = .next (if groupBits g 30 2 = 0 then (s.weldCrcError d ch).weldAwait d ch else s.weldCrcError d ch) ∧
    exec (.weldControlGroup d ch g) s = .next (s.weldCrcError d ch)) ∧
  (∀ (d : Die) (ch : Fin 88) (g : BitVec 256) (s : State), chanOn d ch = true → s.chanSt d ch = 2 → weldCrcOk g = true →
    groupBits g 30 2 = 1 → groupBits g 24 1 = 0 → ∃ t, exec (.weldControlGroup d ch g) s = .next t ∧
    (t.weld d ch).replay = ackGroups (groupBits g 16 8) (s.weld d ch).replay ∧
    (t.weld d ch).credits = (List.range 16).map (fun p =>
      (s.weld d ch).credits.getD p 0 + (groupBits g (32 + 8 * p) 8 + 256 - (s.weld d ch).seen.getD p 0) % 256) ∧
    (t.weld d ch).seen = (List.range 16).map (fun p => groupBits g (32 + 8 * p) 8) ∧
    s.keepsRegs [.WLD_CH_STAT, .WLD_CH_REPAIR] t ∧ s.keepsMem t) ∧
  (∀ (d : Die) (ch : Fin 88) (g : BitVec 256) (s u : State), chanOn d ch = true → s.chanSt d ch = 2 → weldCrcOk g = true →
    groupBits g 30 2 = 1 → groupBits g 24 1 = 1 → (s.weld d ch).acted ≠ some ((groupBits g 16 8 + 1) % 256) →
    u = s.setWeld d ch { s.weld d ch with
      replay := ackGroups (groupBits g 16 8) (s.weld d ch).replay
      credits := (List.range 16).map fun p =>
        (s.weld d ch).credits.getD p 0 + (groupBits g (32 + 8 * p) 8 + 256 - (s.weld d ch).seen.getD p 0) % 256
      seen := (List.range 16).map fun p => groupBits g (32 + 8 * p) 8
      acted := if s.get (atSel d ch) .WLD_CH_VER_VER = 2 then some ((groupBits g 16 8 + 1) % 256) else none } →
    exec (.weldControlGroup d ch g) s = .next (u.weldReplay d ch ((groupBits g 16 8 + 1) % 256))) ∧
  (∀ (d : Die) (ch : Fin 88) (g : BitVec 256) (s : State), chanOn d ch = true → s.chanSt d ch = 2 → weldCrcOk g = true →
    groupBits g 30 2 = 3 → s.get (atSel d ch) .WLD_CH_VER_VER = 2 → (s.weld d ch).acted ≠ some (groupBits g 16 8) →
    exec (.weldReplayRequest d ch g) s = .next
      ((s.setWeld d ch { s.weld d ch with acted := some (groupBits g 16 8) }).weldReplay d ch (groupBits g 16 8))) ∧
  (∀ (d : Die) (ch : Fin 88) (s : State), chanOn d ch = true → s.chanSt d ch = 2 →
    ((s.weld d ch).replay.any fun e => decide (8 ≤ e.2)) = true → ∃ t, exec (.weldReplayLimit d ch) s = .next t ∧
    t.chanSt (chanDies ch).1 ch = 3 ∧ t.chanSt (chanDies ch).2 ch = 3 ∧ s.keepsRegs (.WLD_CH_STAT :: .WLD_CH_ERR :: eventRegs) t ∧
    s.keepsMem t) ∧
  (∀ (d : Die) (ch : Fin 88) (s : State), chanOn d ch = true → s.chanSt d ch = 2 → ∃ t, exec (.weldControlLoss d ch) s = .next t ∧
    t.chanSt (chanDies ch).1 ch = 3 ∧ t.chanSt (chanDies ch).2 ch = 3 ∧ s.keepsRegs (.WLD_CH_STAT :: .WLD_CH_ERR :: eventRegs) t ∧
    s.keepsMem t)

/-- Chapter 06: training, retraining and repair of Weld channels (R164, R165, R173 to R177); and seam groups (R185): a MESO
group unlocks, counts and reports it, and locks again, and an ASYNC group has no lock to lose.
Model's choices: log entries 35 (DEDUCED), 46 (DEDUCED), 48 (DEDUCED), 55 (DESIGN CHOICE), 56 (DEDUCED), 237 (DESIGN CHOICE),
238 (DESIGN CHOICE). -/
def Obligations.WeldTrainingAndSeamCommandsRun : Prop :=
  (∀ (ch : Fin 88) (s : State), s.weldAt ch 1 = true → ∃ t, exec (.weldReceiverLock ch) s = .next t ∧
    (t.weld (chanDies ch).1 ch).step = 2 ∧ (t.weld (chanDies ch).2 ch).step = 2 ∧ s.keepsRegs [.WLD_CH_STAT, .WLD_CH_REPAIR] t ∧
    s.keepsMem t) ∧
  (∀ (ch : Fin 88) (s : State), s.weldAt ch 1 = true ∨ s.chanSt (chanDies ch).1 ch = 3 → exec (.weldClockLockTimeout ch) s =
    .next (((s.weldFail ch 1).returnTrained (chanDies ch).1).returnTrained (chanDies ch).2)) ∧
  (∀ (ch : Fin 88) (s : State), s.weldAt ch 2 = true → (s.weld (chanDies ch).1 ch).records ≠ [] →
    (s.weld (chanDies ch).2 ch).records ≠ [] → (s.weld (chanDies ch).1 ch).newest.length ≤ 4 →
    (s.weld (chanDies ch).2 ch).newest.length ≤ 4 → ∃ t, exec (.weldPrbsDone ch 0 0) s = .next t ∧
    (t.weld (chanDies ch).1 ch).step = 4 ∧ (t.weld (chanDies ch).2 ch).step = 4 ∧
    (t.weld (chanDies ch).1 ch).map = (s.weld (chanDies ch).1 ch).newest ∧ s.keepsRegs [.WLD_CH_STAT, .WLD_CH_REPAIR] t ∧ s.keepsMem t) ∧
  (∀ (ch : Fin 88) (low high : BitVec 68) (s : State), s.weldAt ch 2 = true →
    4 < (mapWith (s.weld (chanDies ch).1 ch).newest (wiresOf low)).length → exec (.weldPrbsDone ch low high) s =
    .next (((s.weldFail ch 0).returnTrained (chanDies ch).1).returnTrained (chanDies ch).2)) ∧
  (∀ (ch : Fin 88) (s : State), s.weldAt ch 4 = true → ∃ t, exec (.weldDeskewDone ch true) s = .next t ∧
    (t.weld (chanDies ch).1 ch).step = 5 ∧ (t.weld (chanDies ch).2 ch).step = 5 ∧
    ((s.weld (chanDies ch).1 ch).cur = none → (t.weld (chanDies ch).1 ch).credits = weldBuffers) ∧
    ((s.weld (chanDies ch).2 ch).cur = none → (t.weld (chanDies ch).2 ch).credits = weldBuffers) ∧
    (∀ p k bits, (s.weld (chanDies ch).1 ch).cur = some (p, k, bits) →
      (t.weld (chanDies ch).1 ch).credits = weldBuffers.set p (weldBuffers.getD p 0 - flitGroups p)) ∧
    (t.weld (chanDies ch).1 ch).replay = [] ∧ (t.weld (chanDies ch).2 ch).replay = [] ∧
    s.keepsRegs (.WLD_CH_STAT :: .WLD_CH_REPAIR :: eventRegs) t ∧ s.keepsMem t) ∧
  (∀ (ch : Fin 88) (s : State), s.weldAt ch 4 = true → exec (.weldDeskewDone ch false) s =
    .next (((s.weldFail ch 2).returnTrained (chanDies ch).1).returnTrained (chanDies ch).2)) ∧
  (∀ (ch : Fin 88) (s : State), s.weldAt ch 5 = true → (s.weld (chanDies ch).1 ch).heard = true →
    (s.weld (chanDies ch).2 ch).heard = true → Tbl.get 0 s.dieStep (chanDies ch).1.idx ≠ 2 → Tbl.get 0 s.dieStep (chanDies ch).2.idx ≠ 2 →
    ∃ t, exec (.weldTrainingDone ch) s = .next t ∧ t.chanSt (chanDies ch).1 ch = 2 ∧ t.chanSt (chanDies ch).2 ch = 2 ∧
    t.fence (.die (chanDies ch).1 (chanDies ch).2) =
      (if s.fence (.die (chanDies ch).1 (chanDies ch).2) = 3 then 0 else s.fence (.die (chanDies ch).1 (chanDies ch).2)) ∧
    t.fence (.die (chanDies ch).2 (chanDies ch).1) =
      (if s.fence (.die (chanDies ch).2 (chanDies ch).1) = 3 then 0 else s.fence (.die (chanDies ch).2 (chanDies ch).1)) ∧
    s.keepsRegs [.WLD_CH_STAT, .WLD_CH_REPAIR, .NOC_DFENCE_STAT] t ∧ s.keepsMem t) ∧
  (∀ (ch : Fin 88) (s : State), s.chanSt (chanDies ch).1 ch = 3 → (s.weld (chanDies ch).1 ch).records ≠ [] →
    (s.weld (chanDies ch).2 ch).records ≠ [] → (s.weld (chanDies ch).1 ch).map.length ≤ 4 →
    (s.weld (chanDies ch).2 ch).map.length ≤ 4 → ∃ t, exec (.weldRetrainDone ch 0 0 true) s = .next t ∧
    t.chanSt (chanDies ch).1 ch = 2 ∧ t.chanSt (chanDies ch).2 ch = 2 ∧
    s.keepsRegs (.WLD_CH_STAT :: .WLD_CH_REPAIR :: eventRegs) t ∧ s.keepsMem t) ∧
  (∀ (ch : Fin 88) (low high : BitVec 68) (s : State), s.chanSt (chanDies ch).1 ch = 3 →
    4 < (mapWith (s.weld (chanDies ch).1 ch).map (wiresOf low)).length →
    exec (.weldRetrainDone ch low high true) s = .next (s.weldFail ch 0)) ∧
  (∀ (d : Die) (ch : Fin 88) (s : State), chanOn d ch = true → s.chanSt d ch = 2 → ∃ t, exec (.retrain d ch) s = .next t ∧
    t.chanSt (chanDies ch).1 ch = 3 ∧ t.chanSt (chanDies ch).2 ch = 3 ∧ s.keepsRegs (.WLD_CH_STAT :: .WLD_CH_ERR :: eventRegs) t ∧
    s.keepsMem t) ∧
  (∀ (d : Die) (ch : Fin 88) (s : State), chanOn d ch = true → (s.chanSt d ch = 2 ∨ s.chanSt d ch = 5) →
    ∃ t, exec (.remap d ch) s = .next t ∧ t.chanSt (chanDies ch).1 ch = 1 ∧ t.chanSt (chanDies ch).2 ch = 1 ∧
    (t.weld (chanDies ch).1 ch).step = 1 ∧ (t.weld (chanDies ch).2 ch).step = 1 ∧ s.keepsRegs [.WLD_CH_STAT, .WLD_CH_REPAIR] t ∧
    s.keepsMem t) ∧
  (∀ (d : Die) (ch : Fin 88) (s : State), chanOn d ch = true → s.chanSt d ch ≠ 2 → s.chanSt d ch ≠ 5 →
    ∃ t, exec (.remap d ch) s = .next t ∧ exec (.retrain d ch) s = .next t ∧ t.flag (atSel d ch) .WLD_CH_STAT_CMD_IGNORED = true ∧
    t.chanSt d ch = s.chanSt d ch ∧ s.keepsRegs [.WLD_CH_STAT] t ∧ s.keepsMem t) ∧
  (∀ (d : Die) (ch : Fin 88) (s : State), chanOn d ch = true → s.chanSt d ch = 2 →
    (s.weld d ch).records.getLast? ≠ some (s.weld d ch).map → (s.weld d ch).records.length < 4 →
    ∃ t, exec (.commitMap d ch 0xA7) s = .next t ∧ (t.weld d ch).records = (s.weld d ch).records ++ [(s.weld d ch).map] ∧
    s.keepsRegs [.WLD_CH_STAT, .WLD_CH_REPAIR] t ∧ s.keepsMem t) ∧
  (∀ (d : Die) (ch : Fin 88) (key : BitVec 8) (s : State), chanOn d ch = true → (key ≠ 0xA7 ∨ s.chanSt d ch ≠ 2) →
    ∃ t, exec (.commitMap d ch key) s = .next t ∧ t.flag (atSel d ch) .WLD_CH_STAT_CMD_IGNORED = true ∧ t.welds = s.welds ∧
    s.keepsRegs [.WLD_CH_STAT] t ∧ s.keepsMem t) ∧
  (∀ (d : Die) (e : Fin 11) (g : Fin 88) (s : State), edgeOn d e = true → (s.seam d e g).cfg.async = false →
    s.flag (atSeam d e g) .WLD_SEAM_STAT_LOCKED = true → ∃ t, exec (.seamUnlock d e g) s = .next t ∧
    t.flag (atSeam d e g) .WLD_SEAM_STAT_LOCKED = false ∧ t.flag (atSeam d e g) .WLD_SEAM_STAT_UNLOCK = true ∧
    s.keepsRegs (.WLD_SEAM_STAT :: eventRegs) t ∧ s.keepsMem t) ∧
  (∀ (d : Die) (e : Fin 11) (g : Fin 88) (s : State), edgeOn d e = true → (s.seam d e g).cfg.async = false →
    ∃ t, exec (.seamRelock d e g) s = .next t ∧ t.flag (atSeam d e g) .WLD_SEAM_STAT_LOCKED = true ∧
    (t.seam d e g).phase = (if s.flag (atSeam d e g) .WLD_SEAM_STAT_LOCKED then (s.seam d e g).phase
      else [(s.seam (acrossEdge d e) e g).launch]) ∧
    s.keepsRegs [.WLD_SEAM_STAT] t ∧ s.keepsMem t) ∧
  (∀ (d : Die) (e : Fin 11) (g : Fin 88) (s : State), (s.seam d e g).cfg.async = true →
    exec (.seamUnlock d e g) s = .next s ∧ exec (.seamRelock d e g) s = .next s)

/-- Chapter 10, the ALU of a Hammer core (R274, R299): results, Z, N, C and V of every register form. C of MOV, shifts, MIN, MAX and
ABS, V of ASL and the absolute value of 0x800000 are free values (DESIGN CHOICE, log entry 15).
Model's choices: log entries 15 (DESIGN CHOICE), 20 (DESIGN CHOICE). -/
def Obligations.HammerAluCommandsRun : Prop :=
  ∀ (c : CoreId) (xd xs xt : Fin 16) (s : State), s.coreReady c →
  (∃ t, exec (.hMov c xd xs) s = .next t ∧ s.aluDone c (some xd) ((s.at_ c).xr xs) none (some false) t) ∧
  (∃ t, exec (.hAdd c xd xs xt) s = .next t ∧ s.aluDone c (some xd) ((s.at_ c).xr xs + (s.at_ c).xr xt)
    (some (decide (2 ^ 24 ≤ ((s.at_ c).xr xs).toNat + ((s.at_ c).xr xt).toNat)))
    (some (over24 (((s.at_ c).xr xs).toInt + ((s.at_ c).xr xt).toInt))) t) ∧
  (∃ t, exec (.hAdds c xd xs xt) s = .next t ∧ s.aluDone c (some xd) (sat24 (((s.at_ c).xr xs).toInt + ((s.at_ c).xr xt).toInt))
    (some (decide (2 ^ 24 ≤ ((s.at_ c).xr xs).toNat + ((s.at_ c).xr xt).toNat)))
    (some (over24 (((s.at_ c).xr xs).toInt + ((s.at_ c).xr xt).toInt))) t) ∧
  (∃ t, exec (.hSub c xd xs xt) s = .next t ∧ s.aluDone c (some xd) ((s.at_ c).xr xs - (s.at_ c).xr xt)
    (some (decide (((s.at_ c).xr xt).toNat ≤ ((s.at_ c).xr xs).toNat)))
    (some (over24 (((s.at_ c).xr xs).toInt - ((s.at_ c).xr xt).toInt))) t) ∧
  (∃ t, exec (.hSubs c xd xs xt) s = .next t ∧ s.aluDone c (some xd) (sat24 (((s.at_ c).xr xs).toInt - ((s.at_ c).xr xt).toInt))
    (some (decide (((s.at_ c).xr xt).toNat ≤ ((s.at_ c).xr xs).toNat)))
    (some (over24 (((s.at_ c).xr xs).toInt - ((s.at_ c).xr xt).toInt))) t) ∧
  (∃ t, exec (.hCmp c xs xt) s = .next t ∧ s.aluDone c none ((s.at_ c).xr xs - (s.at_ c).xr xt)
    (some (decide (((s.at_ c).xr xt).toNat ≤ ((s.at_ c).xr xs).toNat)))
    (some (over24 (((s.at_ c).xr xs).toInt - ((s.at_ c).xr xt).toInt))) t) ∧
  (∃ t, exec (.hAnd c xd xs xt) s = .next t ∧ s.aluDone c (some xd) ((s.at_ c).xr xs &&& (s.at_ c).xr xt) (some false) (some false) t) ∧
  (∃ t, exec (.hOr c xd xs xt) s = .next t ∧ s.aluDone c (some xd) ((s.at_ c).xr xs ||| (s.at_ c).xr xt) (some false) (some false) t) ∧
  (∃ t, exec (.hXor c xd xs xt) s = .next t ∧ s.aluDone c (some xd) ((s.at_ c).xr xs ^^^ (s.at_ c).xr xt) (some false) (some false) t) ∧
  (∃ t, exec (.hNot c xd xs) s = .next t ∧ s.aluDone c (some xd) (~~~ (s.at_ c).xr xs) (some false) (some false) t) ∧
  (∃ t, exec (.hAsl c xd xs xt) s = .next t ∧
    s.aluDone c (some xd) ((s.at_ c).xr xs <<< (((s.at_ c).xr xt).toNat % 32)) none none t) ∧
  (∃ t, exec (.hAsr c xd xs xt) s = .next t ∧
    s.aluDone c (some xd) (((s.at_ c).xr xs).sshiftRight (((s.at_ c).xr xt).toNat % 32)) none (some false) t) ∧
  (∃ t, exec (.hLsr c xd xs xt) s = .next t ∧
    s.aluDone c (some xd) ((s.at_ c).xr xs >>> (((s.at_ c).xr xt).toNat % 32)) none (some false) t) ∧
  (∃ t, exec (.hMin c xd xs xt) s = .next t ∧ s.aluDone c (some xd)
    (if ((s.at_ c).xr xs).toInt ≤ ((s.at_ c).xr xt).toInt then (s.at_ c).xr xs else (s.at_ c).xr xt) none (some false) t) ∧
  (∃ t, exec (.hMax c xd xs xt) s = .next t ∧ s.aluDone c (some xd)
    (if ((s.at_ c).xr xs).toInt ≤ ((s.at_ c).xr xt).toInt then (s.at_ c).xr xt else (s.at_ c).xr xs) none (some false) t) ∧
  ((s.at_ c).xr xs ≠ 0x800000#24 → ∃ t, exec (.hAbs c xd xs) s = .next t ∧ s.aluDone c (some xd)
    (if ((s.at_ c).xr xs).toInt < 0 then -(s.at_ c).xr xs else (s.at_ c).xr xs) none (some false) t) ∧
  (∀ imm : BitVec 16, ∃ t, exec (.hMovi c xd imm) s = .next t ∧ s.aluDone c (some xd) (imm.signExtend 24) none (some false) t) ∧
  (∀ imm : BitVec 8, ∃ t, exec (.hMovhi c xd imm) s = .next t ∧
    s.aluDone c (some xd) ((((s.at_ c).xr xd) &&& 0x00FFFF#24) ||| (imm.setWidth 24 <<< 16)) none (some false) t) ∧
  (∀ imm : BitVec 16, ∃ t, exec (.hAluImmediate c 1 xd imm) s = .next t ∧
    s.aluDone c (some xd) ((s.at_ c).xr xd + immOperand 1 imm)
      (some (decide (2 ^ 24 ≤ ((s.at_ c).xr xd).toNat + (immOperand 1 imm).toNat)))
      (some (over24 (((s.at_ c).xr xd).toInt + (immOperand 1 imm).toInt))) t) ∧
  (∀ imm : BitVec 16, ∃ t, exec (.hAluImmediate c 5 xd imm) s = .next t ∧
    s.aluDone c none ((s.at_ c).xr xd - immOperand 5 imm)
      (some (decide ((immOperand 5 imm).toNat ≤ ((s.at_ c).xr xd).toNat)))
      (some (over24 (((s.at_ c).xr xd).toInt - (immOperand 5 imm).toInt))) t) ∧
  (∀ imm : BitVec 16, ∃ t, exec (.hAluImmediate c 9 xd imm) s = .next t ∧
    s.aluDone c (some xd) (movhi ((s.at_ c).xr xd) (imm.setWidth 8)) none (some false) t)

/-- Chapters 10 and 11, control flow of a Hammer core (R287 to R293, R299, R304, R305, R308, R330), and special registers (R265, R284):
MOVS reads at once and writes after its delay.
Model's choices: log entries 19 (DEDUCED), 41 (DEDUCED), 42 (DEDUCED). -/
def Obligations.HammerControlCommandsRun : Prop :=
  ∀ (c : CoreId) (s : State), s.coreReady c →
  (∃ t, exec (.hNop c) s = .next t ∧ (t.at_ c).x = (s.at_ c).x ∧ (t.at_ c).sr = (s.at_ c).sr ∧ s.corePassed c [] t) ∧
  (∃ t, exec (.hIdle c) s = .next t ∧ t.cstate (cdie c) c.k = 2 ∧ (t.at_ c).x = (s.at_ c).x ∧ s.corePassed c [.HMR_CORE_STAT] t) ∧
  ((s.at_ c).task = false → ∃ t, exec (.hWaitStroke c) s = .next t ∧ t.cstate (cdie c) c.k = 4 ∧
    s.corePassed c [.HMR_CORE_STAT] t) ∧
  (∀ (a : BitVec 15) (rest : List (BitVec 15)), (s.at_ c).task = true → (s.at_ c).stack = a :: rest →
    ∃ t, exec (.hWaitStroke c) s = .next t ∧ (t.at_ c).task = false ∧ (t.at_ c).stack = rest ∧
    (t.at_ c).br = some ⟨2, a, true⟩ ∧
    t.get (atUnit (cdie c) c.k) .HMR_STK_STAT_TASK = natOf (s.bit (atUnit (cdie c) c.k) .HMR_IRQ_PEND_PEND 0) ∧
    s.corePassed c [.HMR_STK_STAT, .HMR_WDOG_STAT] t) ∧
  ((s.at_ c).stores = 0 → (s.at_ c).heldStores = [] → ∃ t, exec (.hSync c) s = .next t ∧ (t.at_ c).stall = (s.at_ c).stall ∧
    s.corePassed c [] t) ∧
  ((s.at_ c).stores ≠ 0 → ∃ t, exec (.hSync c) s = .next t ∧ (t.at_ c).stall = .sync ∧ t.cstate (cdie c) c.k = 3 ∧
    s.corePassed c [.HMR_CORE_STAT] t) ∧
  (s.get (atDie .e0) .DBG_SESSION_LEVEL < 2 → ∃ t, exec (.hBkpt c) s = .next t ∧
    t.get (atUnit (cdie c) c.k) .HMR_DBG_STAT_BKPT_SKIP = satAdd (2 ^ Fld.HMR_DBG_STAT_BKPT_SKIP.width - 1)
      (s.get (atUnit (cdie c) c.k) .HMR_DBG_STAT_BKPT_SKIP) 1 ∧ s.corePassed c [.HMR_DBG_STAT] t) ∧
  (2 ≤ s.get (atDie .e0) .DBG_SESSION_LEVEL → (s.at_ c).halt = none → ∃ t, exec (.hBkpt c) s = .next t ∧
    (t.at_ c).halt = some 2 ∧ s.corePassed c [] t) ∧
  (∀ a : BitVec 15, ∃ t, exec (.hB c a) s = .next t ∧ (t.at_ c).br = some ⟨2, a, false⟩ ∧ s.corePassed c [] t) ∧
  (∀ (cond : BitVec 4) (a : BitVec 15), ∃ t, exec (.hBc c cond a) s = .next t ∧
    (t.at_ c).br = some ⟨2, if condHolds cond.toNat (s.at_ c).sr (s.at_ c).resv.isSome then some a else none, false⟩ ∧
    s.corePassed c [] t) ∧
  (∀ a : BitVec 15, (s.at_ c).stack.length < 16 → ∃ t, exec (.hCall c a) s = .next t ∧
    (t.at_ c).stack = ((s.at_ c).pc + 3) :: (s.at_ c).stack ∧ (t.at_ c).br = some ⟨2, a, false⟩ ∧ s.corePassed c [] t) ∧
  (∀ (a : BitVec 15) (rest : List (BitVec 15)), (s.at_ c).stack = a :: rest →
    (∃ t, exec (.hRet c) s = .next t ∧ (t.at_ c).stack = rest ∧ (t.at_ c).br = some ⟨2, a, false⟩ ∧ s.corePassed c [] t) ∧
    (∃ t, exec (.hRti c) s = .next t ∧ (t.at_ c).stack = rest ∧ (t.at_ c).br = some ⟨2, a, true⟩ ∧ (t.at_ c).inHandler = false ∧
      s.corePassed c [] t)) ∧
  ((s.at_ c).stack = [] → ∃ t, exec (.hRet c) s = .next t ∧ exec (.hRti c) s = .next t ∧ (t.at_ c).sr.getLsbD 7 = true ∧
    (t.at_ c).br = none ∧ s.corePassed c [.HMR_CORE_ERR] t) ∧
  (∀ n : BitVec 16, n ≠ 0 → ∃ t, exec (.hRpt c false n) s = .next t ∧ (t.at_ c).ld = 1 ∧ (t.at_ c).rpt = true ∧ (t.at_ c).lc = n ∧
    (t.at_ c).ls = (s.at_ c).pc + 1 ∧ (t.at_ c).le = (s.at_ c).pc + 1 ∧ s.corePassed c [] t) ∧
  (∀ (n : BitVec 16) (len : BitVec 6), n ≠ 0 → ∃ t, exec (.hLoop c false n len) s = .next t ∧ (t.at_ c).ld = 1 ∧
    (t.at_ c).rpt = false ∧ (t.at_ c).lc = n ∧ (t.at_ c).ls = (s.at_ c).pc + 1 ∧
    (t.at_ c).le = (s.at_ c).pc + BitVec.ofNat 15 (len.toNat + 1) ∧ s.corePassed c [] t) ∧
  (∃ t, exec (.hRpt c false 0) s = .next t ∧ (t.at_ c).ld = 0 ∧ (t.at_ c).pc = (s.at_ c).pc + 2 ∧ s.keepsMem t) ∧
  (∀ w : BitVec 32, hammerDecode c w.toNat = none → ∃ t, exec (.reservedEncoding c w) s = .next t ∧
    (t.at_ c).sr.getLsbD 7 = true ∧ (t.at_ c).x = (s.at_ c).x ∧ s.corePassed c [.HMR_CORE_ERR] t) ∧
  (∀ (w : BitVec 32) (i : Instr), hammerDecode c w.toNat = some i → exec (.reservedEncoding c w) s = exec i s) ∧
  (∀ (code : BitVec 6) (x : Fin 16),
    (specialCode false code.toNat = true → ∃ t, exec (.hMovs c false code x) s = .next t ∧
      (t.at_ c).xr x = s.special c code.toNat ∧ (∀ n : Fin 16, n ≠ x → (t.at_ c).xr n = (s.at_ c).xr n) ∧ s.corePassed c [] t) ∧
    (specialCode true code.toNat = true → ∃ t, exec (.hMovs c true code x) s = .next t ∧
      (t.at_ c).pend = [⟨(specialDest code.toNat).1, (specialDest code.toNat).2, ((s.at_ c).xr x).toNat⟩] ∧ s.corePassed c [] t) ∧
    (specialCode true code.toNat = false → ∃ t, exec (.hMovs c true code x) s = .next t ∧ (t.at_ c).sr.getLsbD 7 = true ∧
      (t.at_ c).pend = [] ∧ s.corePassed c [.HMR_CORE_ERR] t))

/-- R288: CALL pushes the address of the call plus 3 onto the 16-entry return stack, and goes ahead with the stack full, when the oldest
entry is lost and SR.SO (bit 8) is set; RET pops the stack, and with the stack empty is illegal under R293: it executes as NOP, sets
SR.IL (bit 7) and records its PC and cause. -/
def Obligations.CallAndReturnUseTheReturnStack : Prop :=
  ∀ (c : CoreId) (s : State), s.coreReady c →
  (∀ a : BitVec 15, ∃ t, exec (.hCall c a) s = .next t ∧ (t.at_ c).stack = (((s.at_ c).pc + 3) :: (s.at_ c).stack).take 16 ∧
    (t.at_ c).br = some ⟨2, a, false⟩ ∧
    (t.at_ c).sr = (if (s.at_ c).stack.length < 16 then (s.at_ c).sr else (s.at_ c).sr ||| 0x100#24) ∧
    (t.at_ c).x = (s.at_ c).x ∧ s.corePassed c [] t) ∧
  (∀ (a : BitVec 15) (rest : List (BitVec 15)), (s.at_ c).stack = a :: rest → ∃ t, exec (.hRet c) s = .next t ∧
    (t.at_ c).stack = rest ∧ (t.at_ c).br = some ⟨2, a, false⟩ ∧ (t.at_ c).sr = (s.at_ c).sr ∧ (t.at_ c).x = (s.at_ c).x ∧
    s.corePassed c [] t) ∧
  ((s.at_ c).stack = [] → ∃ t, exec (.hRet c) s = .next t ∧ (t.at_ c).stack = [] ∧ (t.at_ c).br = none ∧
    (t.at_ c).sr = (s.at_ c).sr ||| 0x80#24 ∧ (t.at_ c).x = (s.at_ c).x ∧
    (s.flag (atUnit (cdie c) c.k) .HMR_CORE_ERR_VALID = false →
      t.get (atUnit (cdie c) c.k) .HMR_CORE_ERR_PC = (s.at_ c).pc.toNat ∧ t.flag (atUnit (cdie c) c.k) .HMR_CORE_ERR_VALID = true) ∧
    s.corePassed c [.HMR_CORE_ERR] t)

/-- Chapter 10, accumulators (R270 to R273, R285, R299): the chain value of each accumulator after MAC, MAC4, DOT4, CMAC without
loads, of the moves between accumulators and X registers, and of RND, CLRA, ADDA, SUBA, NEGA and ASHA. -/
def Obligations.HammerAccumulatorCommandsRun : Prop :=
  ∀ (c : CoreId) (ad as w : Fin 4) (x xa xb : Fin 16) (sl : Slots) (s : State), s.coreReady c →
  (∃ t, exec (.hClra c ad) s = .next t ∧ s.chainDone c (fun n => if n = ad.val then some 0 else none) t) ∧
  (∃ t, exec (.hAdda c ad as) s = .next t ∧
    s.chainDone c (fun n => if n = ad.val then some ((s.at_ c).acc ad + (s.at_ c).acc as) else none) t) ∧
  (∃ t, exec (.hSuba c ad as) s = .next t ∧
    s.chainDone c (fun n => if n = ad.val then some ((s.at_ c).acc ad - (s.at_ c).acc as) else none) t) ∧
  (∃ t, exec (.hNega c ad) s = .next t ∧ s.chainDone c (fun n => if n = ad.val then some (-(s.at_ c).acc ad) else none) t) ∧
  (∀ n : BitVec 6, ∃ t, exec (.hAsha c ad n) s = .next t ∧
    s.chainDone c (fun k => if k = ad.val then some (shiftAcc ((s.at_ c).acc ad) n.toInt).1 else none) t) ∧
  (∃ t, exec (.hRnd c ad w) s = .next t ∧
    s.chainDone c (fun k => if k = ad.val then some (windowRound ((s.at_ c).accSeen ad) w).1 else none) t) ∧
  (∃ t, exec (.hMvxa c ad w x) s = .next t ∧
    s.chainDone c (fun k => if k = ad.val then some (windowLoad ((s.at_ c).xr x) w) else none) t) ∧
  (∃ t, exec (.hMvax c ad w x) s = .next t ∧ (t.at_ c).xr x = (windowWord ((s.at_ c).accSeen ad) w).1 ∧ (t.at_ c).a = (s.at_ c).a ∧
    s.corePassed c [] t) ∧
  (sl.w ≠ 3 → sl.xm = 0 → sl.ym = 0 →
    (∃ t, exec (.hMac c ad false false xa xb sl) s = .next t ∧
      s.chainDone c (fun k => if k = ad.val then some (BitVec.ofInt 56 (((s.at_ c).acc ad).toInt + (s.at_ c).prod xa xb)) else none) t) ∧
    (∃ t, exec (.hMac c ad true true xa xb sl) s = .next t ∧
      s.chainDone c (fun k => if k = ad.val then some (BitVec.ofInt 56 (0 - (s.at_ c).prod xa xb)) else none) t) ∧
    (xa.val % 4 = 0 → xb.val % 4 = 0 → ∃ t, exec (.hDot4 c ad false false xa xb sl) s = .next t ∧
      s.chainDone c (fun k => if k = ad.val then some (BitVec.ofInt 56 (((s.at_ c).acc ad).toInt +
        ((s.at_ c).prod xa xb + (s.at_ c).prod (xa.val + 1) (xb.val + 1) + (s.at_ c).prod (xa.val + 2) (xb.val + 2) +
          (s.at_ c).prod (xa.val + 3) (xb.val + 3)))) else none) t) ∧
    (xa.val % 4 = 0 → xb.val % 4 = 0 → ∃ t, exec (.hMac4 c 0 false true xa xb sl) s = .next t ∧
      s.chainDone c (fun k => if k < 4 then some (BitVec.ofInt 56 ((s.at_ c).prod (xa.val + k) (xb.val + k))) else none) t) ∧
    (xa.val % 2 = 0 → xb.val % 2 = 0 → ad.val % 2 = 0 → ∃ t, exec (.hCmac c ad false true xa xb sl false) s = .next t ∧
      s.chainDone c (fun k => if k = ad.val then some (BitVec.ofInt 56 ((s.at_ c).prod xa xb - (s.at_ c).prod (xa.val + 1) (xb.val + 1)))
        else if k = ad.val + 1 then some (BitVec.ofInt 56 ((s.at_ c).prod xa (xb.val + 1) + (s.at_ c).prod (xa.val + 1) xb)) else none) t))

/-- Chapter 10, loads and stores of local data memory with a plain address (R266, R272, R275, R278, R284): a load's word is on its way
with the value of memory, a store changes the three bytes of its word alone.
Model's choices: log entries 25 (DESIGN CHOICE). -/
def Obligations.HammerMemoryCommandsRun : Prop :=
  ∀ (c : CoreId) (x : Fin 16) (m : MemArg) (w : Nat) (s : State), s.coreReady c → m.mode = 0 →
  dataSpace ((s.at_ c).ir m.i) = .localMem w → s.eccMarked (cdie c) 2 (localEcc c.k w) = false →
  (∃ t, exec (.hLd c 0 x m) s = .next t ∧ (t.at_ c).pend = [⟨3, .x x, s.eccData (cdie c) 2 (localEcc c.k w)⟩] ∧
    s.corePassed c [.ECC_TEST_CTRL, .ECC_TEST_CHK] t) ∧
  (∃ t, exec (.hSt c 0 x m) s = .next t ∧ t.eccData (cdie c) 2 (localEcc c.k w) = ((s.at_ c).xr x).toNat ∧
    (t.at_ c).pc = (s.at_ c).pc + 1 ∧ s.keepsRegs (.ECC_TEST_CTRL :: eventRegs) t ∧
    (∀ a, (a < localWordAddr (cdie c) c.k w ∨ localWordAddr (cdie c) c.k w + 3 ≤ a) → t.mem.byte a = s.mem.byte a)) ∧
  (∀ k : Fin 4, ∃ t, exec (.hWst c k 0 m) s = .next t ∧
    t.eccData (cdie c) 2 (localEcc c.k w) = (windowWord ((s.at_ c).accSeen k) 0).1.toNat ∧ (t.at_ c).pc = (s.at_ c).pc + 1 ∧
    (∀ a, (a < localWordAddr (cdie c) c.k w ∨ localWordAddr (cdie c) c.k w + 3 ≤ a) → t.mem.byte a = s.mem.byte a)) ∧
  (∀ k slice : Fin 4, slice ≠ 3 → ∃ t, exec (.hAsv c k slice m) s = .next t ∧
    t.eccData (cdie c) 2 (localEcc c.k w) = (sliceOf ((s.at_ c).accSeen k) slice).toNat ∧ (t.at_ c).pc = (s.at_ c).pc + 1 ∧
    (∀ a, (a < localWordAddr (cdie c) c.k w ∨ localWordAddr (cdie c) c.k w + 3 ≤ a) → t.mem.byte a = s.mem.byte a)) ∧
  (∀ k win : Fin 4, ∃ t, exec (.hWld c k win m) s = .next t ∧
    (t.at_ c).acc k = windowLoad (BitVec.ofNat 24 (s.eccData (cdie c) 2 (localEcc c.k w))) win ∧ (t.at_ c).x = (s.at_ c).x ∧
    s.corePassed c [.ECC_TEST_CTRL, .ECC_TEST_CHK] t) ∧
  (∀ k slice : Fin 4, slice ≠ 3 → ∃ t, exec (.hAld c k slice m) s = .next t ∧
    (t.at_ c).acc k = sliceInto ((s.at_ c).acc k) slice (BitVec.ofNat 24 (s.eccData (cdie c) 2 (localEcc c.k w))) ∧
    (t.at_ c).x = (s.at_ c).x ∧ s.corePassed c [.ECC_TEST_CTRL, .ECC_TEST_CHK] t) ∧
  (∀ (xa xb : Fin 16) (sl : Slots), sl.w = 0 → sl.xm = 1 → sl.ym = 0 → sl.xi.val = m.i.val → (s.at_ c).mode m.i = 0 →
    ∃ t, exec (.hLdp c xa xb sl) s = .next t ∧ (t.at_ c).pend = [⟨3, .x xa, s.eccData (cdie c) 2 (localEcc c.k w)⟩] ∧
    (t.at_ c).ir m.i = (s.at_ c).ir m.i + 1 ∧ s.corePassed c [.ECC_TEST_CTRL, .ECC_TEST_CHK] t)

/-- Chapter 10, locked sequences, atomics and the tongs of a Hammer core (R294 to R296), on ungated hearth words.
Model's choices: log entries 25 (DESIGN CHOICE). -/
def Obligations.HammerLockedCommandsRun : Prop :=
  ∀ (c : CoreId) (xd xs : Fin 16) (i : Fin 8) (w : Nat) (s : State), s.coreReady c → s.gated (cdie c) 8 = false →
  dataSpace ((s.at_ c).ir i) = .hearth w → s.eccMarked (cdie c) 4 w = false →
  (∃ t, exec (.hLdx c xd i) s = .next t ∧ (t.at_ c).resv = some w ∧ (t.at_ c).pend = [⟨3, .x xd, s.eccData (cdie c) 4 w⟩] ∧
    s.corePassed c [.ECC_TEST_CTRL, .ECC_TEST_CHK] t) ∧
  ((s.at_ c).resv = some w → ∃ t, exec (.hStx c xd xs i) s = .next t ∧ (t.at_ c).resv = none ∧ (t.at_ c).pend = [⟨3, .x xd, 0⟩] ∧
    t.eccData (cdie c) 4 w = ((s.at_ c).xr xs).toNat ∧
    (∀ a, (a < hearthAddr (cdie c) w ∨ hearthAddr (cdie c) w + 3 ≤ a) → t.mem.byte a = s.mem.byte a)) ∧
  ((s.at_ c).resv ≠ some w → ∃ t, exec (.hStx c xd xs i) s = .next t ∧ (t.at_ c).resv = none ∧
    (t.at_ c).pend = [⟨3, .x xd, 1⟩] ∧ s.corePassed c [] t) ∧
  (∀ op : BitVec 5, op.toNat ≤ 6 → (op ≠ 2 ∨ xs ≠ 15) → ∃ t, exec (.hAtm c op xd xs i) s = .next t ∧
    (t.at_ c).pend = [⟨3, .x xd, s.eccData (cdie c) 4 w⟩] ∧
    t.eccData (cdie c) 4 w = atomicNew op.toNat 24 (s.eccData (cdie c) 4 w) ((s.at_ c).xr xs).toNat ((s.at_ c).xr (xs.val + 1)).toNat ∧
    (∀ a, (a < hearthAddr (cdie c) w ∨ hearthAddr (cdie c) w + 3 ≤ a) → t.mem.byte a = s.mem.byte a)) ∧
  (∀ n : BitVec 4, (s.at_ c).queued ≤ n.toNat → ∃ t, exec (.hTwait c n) s = .next t ∧ (t.at_ c).stall = (s.at_ c).stall ∧
    s.corePassed c [] t) ∧
  (∀ n : BitVec 4, n.toNat < (s.at_ c).queued → s.flag (atUnit (cdie c) c.k) .HMR_TNG_STAT_STOPPED = false →
    ∃ t, exec (.hTwait c n) s = .next t ∧ (t.at_ c).stall = .twait n.toNat ∧ t.cstate (cdie c) c.k = 3 ∧
    s.corePassed c [.HMR_CORE_STAT] t) ∧
  (∀ j : Fin 8, ((s.at_ c).ir j).toNat + 6 ≤ 0x20000 → (s.at_ c).queued < 8 →
    (∀ n, n < 6 → s.eccMarked (cdie c) 2 (localEcc c.k (((s.at_ c).ir j).toNat + n)) = false) →
    ∃ t, exec (.hTng c j) s = .next t ∧ (t.at_ c).queue = (s.at_ c).queue ++
      [(List.range 6).map fun n => s.eccData (cdie c) 2 (localEcc c.k (((s.at_ c).ir j).toNat + n))] ∧
    s.corePassed c [.HMR_TNG_STAT, .HMR_CORE_STAT, .ECC_TEST_CTRL, .ECC_TEST_CHK] t)

/-- R283, R284: a result due becomes visible to the instruction that issues, and an instruction for a core that does not issue changes
nothing.
Model's choices: log entries 16 (DESIGN CHOICE), 17 (DEDUCED). -/
def Obligations.HammerPipelineDelivers : Prop :=
  (∀ (c : CoreId) (n : Fin 16) (v : Nat) (s : State), s.issues (cdie c) c.k = true → (s.at_ c).pend = [⟨1, .x n, v⟩] →
    (s.at_ c).wrote = [] → (s.at_ c).br = none → (s.at_ c).ld = 0 → (s.at_ c).stepping = false →
    ∃ t, exec (.hNop c) s = .next t ∧ (t.at_ c).xr n = BitVec.ofNat 24 v ∧ (t.at_ c).pend = []) ∧
  (∀ (c : CoreId) (left : Nat) (dest : HDest) (v : Nat) (s : State), s.issues (cdie c) c.k = true → 2 ≤ left →
    (s.at_ c).pend = [⟨left, dest, v⟩] → (s.at_ c).br = none → (s.at_ c).ld = 0 → (s.at_ c).stepping = false →
    ∃ t, exec (.hNop c) s = .next t ∧ (t.at_ c).x = (s.at_ c).x ∧ (t.at_ c).pend = [⟨left - 1, dest, v⟩]) ∧
  (∀ (c : CoreId) (s : State), s.issues (cdie c) c.k = false → exec (.hNop c) s = .next s ∧ exec (.hIdle c) s = .next s ∧
    (∀ a, exec (.hB c a) s = .next s) ∧ (∀ x m, exec (.hSt c 0 x m) s = .next s) ∧ (∀ i, exec (.hTng c i) s = .next s))

/-- Chapter 10, the interrupts of a Hammer core (R301 to R307): a pending and enabled line is taken at a settled boundary that is not
held off, or out of IDLE or WAIT_STROKE; IDLE ends at a line that is pending and enabled but masked by IE;
a WAIT_STROKE before a delay slot, or in the handler of another line, ends at line 0.
Model's choices: log entries 35 (DEDUCED), 45 (DEDUCED). -/
def Obligations.HammerInterruptCommandsRun : Prop :=
  (∀ (c : CoreId) (l : Nat) (s : State), s.coreStill (cdie c) c.k = false → (s.at_ c).halt = none → (s.at_ c).heldOff = false →
    (s.cstate (cdie c) c.k = 1 ∧ (s.at_ c).settled = true) ∨ s.cstate (cdie c) c.k = 2 ∨ s.cstate (cdie c) c.k = 4 →
    s.lineTaken (cdie c) c.k = some l → ∃ t, exec (.interruptEntry c) s = .next t ∧
    (t.at_ c).pc = BitVec.ofNat 15 (s.get (atUnit (cdie c) c.k) .HMR_IRQ_CTRL_VBASE + 4 * l) ∧
    (t.at_ c).stack = ((s.at_ c).pc :: (s.at_ c).stack).take 16 ∧ (t.at_ c).inHandler = true ∧
    (t.at_ c).shadow = BitVec.ofNat 5 ((s.at_ c).sr.toNat % 16 + natOf ((s.at_ c).sr.getLsbD 13) * 16) ∧
    (t.at_ c).sr = ((s.at_ c).sr ||| (if (s.at_ c).stack.length < 16 then 0 else 0x100#24)) &&& ~~~ 0x2000#24 ∧
    (t.at_ c).x = (s.at_ c).x ∧ (t.at_ c).a = (s.at_ c).a ∧ t.bit (atUnit (cdie c) c.k) .HMR_IRQ_PEND_PEND l = false ∧
    t.cstate (cdie c) c.k = 1 ∧ s.keepsRegs [.HMR_IRQ_PEND, .HMR_CORE_STAT, .HMR_STK_STAT] t ∧ s.keepsMem t) ∧
  (∀ (c : CoreId) (l : Nat) (s : State), l < 5 → s.coreStill (cdie c) c.k = false → (s.at_ c).halt = none →
    s.cstate (cdie c) c.k = 2 → s.lineOn (cdie c) c.k l = true → s.lineTaken (cdie c) c.k = none →
    ∃ t, exec (.interruptEntry c) s = .next t ∧ t.cstate (cdie c) c.k = (if (s.at_ c).backToWait then 4 else 1) ∧
    t.at_ c = { s.at_ c with rewait := (s.at_ c).rewait && !(s.at_ c).backToWait } ∧ s.keepsRegs [.HMR_CORE_STAT] t ∧
    s.keepsMem t) ∧
  (∀ (c : CoreId) (s : State), s.coreStill (cdie c) c.k = false → (s.at_ c).halt = none → s.cstate (cdie c) c.k = 4 →
    (s.at_ c).br.isSome = true ∨ (s.at_ c).inHandler = true → s.lineOn (cdie c) c.k 0 = true →
    ∃ t, exec (.interruptEntry c) s = .next t ∧
    t.cstate (cdie c) c.k = 1 ∧ t.at_ c = s.at_ c ∧ s.keepsRegs [.HMR_CORE_STAT] t ∧ s.keepsMem t) ∧
  (∀ (c : CoreId) (s : State), (s.at_ c).heldOff = true → s.cstate (cdie c) c.k ≠ 2 →
    (s.cstate (cdie c) c.k ≠ 4 ∨ ((s.at_ c).br = none ∧ (s.at_ c).inHandler = false) ∨ s.lineOn (cdie c) c.k 0 = false) → exec (.interruptEntry c) s = .next s) ∧
  (∀ (c : CoreId) (s : State), (s.cstate (cdie c) c.k = 1 ∧ (s.at_ c).settled = false) ∨ s.cstate (cdie c) c.k = 0 ∨
    s.cstate (cdie c) c.k = 3 ∨ 5 ≤ s.cstate (cdie c) c.k → exec (.interruptEntry c) s = .next s) ∧
  (∀ (c : CoreId) (s : State), s.coreStill (cdie c) c.k = true ∨ (s.at_ c).halt.isSome = true ∨
    (s.cstate (cdie c) c.k ≠ 2 ∧ s.lineTaken (cdie c) c.k = none) → exec (.interruptEntry c) s = .next s) ∧
  (∀ (c : CoreId) (s : State), ∃ t, exec (.doorbell c) s = .next t ∧ t.bit (atUnit (cdie c) c.k) .HMR_IRQ_PEND_PEND 4 = true ∧
    (∀ l, l ≠ 4 → t.bit (atUnit (cdie c) c.k) .HMR_IRQ_PEND_PEND l = s.bit (atUnit (cdie c) c.k) .HMR_IRQ_PEND_PEND l) ∧
    t.cores = s.cores ∧ s.keepsRegs [.HMR_IRQ_PEND] t ∧ s.keepsMem t)

/-- Chapter 10, the tongs of a Hammer core (R296 to R298): a queue of eight descriptors, a start, a completion and the host's controls.
Model's choices: log entries 18 (DESIGN CHOICE), 35 (DEDUCED), 240 (DESIGN CHOICE). -/
def Obligations.TongsCommandsRun : Prop :=
  (∀ (c : CoreId) (s : State), (s.at_ c).queued < 8 → ∃ t, exec (.tongsHostPost c) s = .next t ∧
    (t.at_ c).queue = (s.at_ c).queue ++ [(List.range 6).map fun j => s.get ⟨cdie c, c.k, j, 0⟩ .HMR_TNG_POST_WORD] ∧
    t.get (atUnit (cdie c) c.k) .HMR_TNG_STAT_QUEUED = (s.at_ c).queued + 1 ∧
    s.keepsRegs [.HMR_TNG_STAT, .HMR_CORE_STAT] t ∧ s.keepsMem t) ∧
  (∀ (c : CoreId) (s : State), 8 ≤ (s.at_ c).queued → ∃ t, exec (.tongsHostPost c) s = .next t ∧
    t.flag (atUnit (cdie c) c.k) .HMR_TNG_STAT_POST_IGNORED = true ∧ t.cores = s.cores ∧ s.keepsRegs [.HMR_TNG_STAT] t ∧
    s.keepsMem t) ∧
  (∀ (c : CoreId) (desc : List Nat) (rest : List (List Nat)) (s : State),
    s.flag (atUnit (cdie c) c.k) .HMR_TNG_STAT_STOPPED = false → (s.at_ c).run = none → (s.at_ c).queue = desc :: rest →
    descWord desc 5 = 0 → ∃ t, exec (.tongsDescriptorStart c) s = .next t ∧
    t.at_ c = { s.at_ c with queue := rest, run := some ⟨desc, 0, 0, 0, false, true, false⟩ } ∧ s.keepsRegs [] t ∧ s.keepsMem t) ∧
  (∀ (c : CoreId) (desc : List Nat) (rest : List (List Nat)) (s : State),
    s.flag (atUnit (cdie c) c.k) .HMR_TNG_STAT_STOPPED = false → (s.at_ c).run = none → (s.at_ c).queue = desc :: rest →
    descWord desc 5 ≠ 0 → descRefused (cdie c) c.k desc = true → ∃ t, exec (.tongsDescriptorStart c) s = .next t ∧ (t.at_ c).run = none ∧
    (t.at_ c).queue = rest ∧ t.flag (atUnit (cdie c) c.k) .HMR_TNG_STAT_STOPPED = true ∧
    t.get (atUnit (cdie c) c.k) .HMR_TNG_STAT_STATUS = 5 ∧ s.keepsRegs (.HMR_TNG_STAT :: .HMR_CORE_STAT :: eventRegs) t ∧
    s.keepsMem t) ∧
  (∀ (c : CoreId) (desc : List Nat) (rest : List (List Nat)) (s : State),
    s.flag (atUnit (cdie c) c.k) .HMR_TNG_STAT_STOPPED = false → (s.at_ c).run = none → (s.at_ c).queue = desc :: rest →
    descWord desc 5 ≠ 0 → descRefused (cdie c) c.k desc = false → exec (.tongsDescriptorStart c) s =
    .next (State.tngGo (tngFuel ⟨desc, 0, 0, 0, false, false, false⟩)
      (s.setCore (cdie c) c.k { s.at_ c with queue := rest, run := some ⟨desc, 0, 0, 0, false, false, false⟩ }) (cdie c) c.k)) ∧
  (∀ (c : CoreId) (s : State), s.flag (atUnit (cdie c) c.k) .HMR_TNG_STAT_STOPPED = true ∨ (s.at_ c).run.isSome = true ∨
    (s.at_ c).queue = [] → exec (.tongsDescriptorStart c) s = .next s) ∧
  (∀ (c : CoreId) (run : TongsRun) (s : State), (s.at_ c).run = some run → run.fin = true →
    ∃ t, exec (.tongsDescriptorComplete c) s = .next t ∧ (t.at_ c).run = none ∧ (t.at_ c).queue = (s.at_ c).queue ∧
    t.get (atUnit (cdie c) c.k) .HMR_TNG_STAT_QUEUED = (s.at_ c).queue.length % 2 ^ Fld.HMR_TNG_STAT_QUEUED.width ∧
    t.get (atUnit (cdie c) c.k) .HMR_TNG_STAT_DONE =
      satAdd (2 ^ Fld.HMR_TNG_STAT_DONE.width - 1) (s.get (atUnit (cdie c) c.k) .HMR_TNG_STAT_DONE) 1 ∧
    (bitOf (descWord run.desc 0) 23 = true → t.bit (atUnit (cdie c) c.k) .HMR_IRQ_PEND_PEND 2 = true) ∧
    s.keepsRegs [.HMR_TNG_STAT, .HMR_IRQ_PEND, .HMR_CORE_STAT] t ∧ s.keepsMem t) ∧
  (∀ (c : CoreId) (s : State), ∃ t, exec (.tongsResume c) s = .next t ∧ (t.at_ c).queue = (s.at_ c).queue ∧
    t.flag (atUnit (cdie c) c.k) .HMR_TNG_STAT_STOPPED = false ∧ s.keepsRegs [.HMR_TNG_STAT, .HMR_CORE_STAT] t ∧ s.keepsMem t) ∧
  (∀ (c : CoreId) (s : State), ∃ t, exec (.tongsFlush c) s = .next t ∧ (t.at_ c).queue = [] ∧ (t.at_ c).run = (s.at_ c).run ∧
    t.flag (atUnit (cdie c) c.k) .HMR_TNG_STAT_STOPPED = false ∧ s.keepsRegs [.HMR_TNG_STAT, .HMR_CORE_STAT] t ∧ s.keepsMem t)

/-- Chapter 10, core reset, hold and the core watchdog (R265, R311, R312). A reset core starts at START_PC with the registers of R265;
the watchdog's first expiry warns with line 1, and its second resets the core where ACTION = 0.
Model's choices: log entries 35 (DEDUCED). -/
def Obligations.CoreResetCommandsRun : Prop :=
  (∀ (c : CoreId) (s : State), s.flag (atUnit (cdie c) c.k) .HMR_CORE_CTRL_HOLD = true ∨ s.get (atDie (cdie c)) .CFG_DIE_STAT_STAGE ≠ 3 →
    ∃ t, exec (.coreReset c) s = .next t ∧
    t.at_ c = { Core.reset with pc := BitVec.ofNat 15 (s.get (atUnit (cdie c) c.k) .HMR_CORE_CTRL_START_PC) } ∧
    t.cstate (cdie c) c.k = 0 ∧
    s.keepsRegs [.HMR_TNG_STAT, .HMR_DBG_STAT, .HMR_STK_STAT, .HMR_HALTED, .HMR_CORE_STAT, .NOC_EP_STAT] t ∧ s.keepsMem t) ∧
  (∀ (c : CoreId) (s : State), s.flag (atUnit (cdie c) c.k) .HMR_CORE_CTRL_HOLD = false → s.get (atDie (cdie c)) .CFG_DIE_STAT_STAGE = 3 →
    s.flag (atUnit (cdie c) c.k) .HMR_DBG_CTRL_RESET_HALT = false → ∃ t, exec (.coreReset c) s = .next t ∧
    t.at_ c = { Core.reset with pc := BitVec.ofNat 15 (s.get (atUnit (cdie c) c.k) .HMR_CORE_CTRL_START_PC) } ∧
    t.cstate (cdie c) c.k = 1 ∧
    s.keepsRegs [.HMR_TNG_STAT, .HMR_DBG_STAT, .HMR_STK_STAT, .HMR_HALTED, .HMR_CORE_STAT, .NOC_EP_STAT] t ∧ s.keepsMem t) ∧
  (∀ (c : CoreId) (s : State), s.flag (atUnit (cdie c) c.k) .HMR_CORE_CTRL_HOLD = false → s.get (atDie (cdie c)) .CFG_DIE_STAT_STAGE = 3 →
    s.flag (atUnit (cdie c) c.k) .HMR_DBG_CTRL_RESET_HALT = true → ∃ t, exec (.coreReset c) s = .next t ∧
    t.cstate (cdie c) c.k = 5 ∧ t.flag (atUnit (cdie c) c.k) .HMR_DBG_STAT_HALTED = true ∧
    t.get (atUnit (cdie c) c.k) .HMR_DBG_STAT_CAUSE = 5 ∧
    s.keepsRegs ([.HMR_TNG_STAT, .HMR_DBG_STAT, .HMR_STK_STAT, .HMR_HALTED, .HMR_CORE_STAT, .NOC_EP_STAT, .HMR_XTRIG_CNT] ++
      eventRegs) t ∧ s.keepsMem t) ∧
  (∀ (c : CoreId) (hold : Bool) (start : BitVec 15) (s : State), s.flag (atUnit (cdie c) c.k) .HMR_CORE_CTRL_HOLD = hold →
    ∃ t, exec (.coreHold c hold start) s = .next t ∧ t.flag (atUnit (cdie c) c.k) .HMR_CORE_CTRL_HOLD = hold ∧
    t.get (atUnit (cdie c) c.k) .HMR_CORE_CTRL_START_PC = start.toNat ∧ t.cores = s.cores ∧ s.keepsRegs [.HMR_CORE_CTRL] t ∧
    s.keepsMem t) ∧
  (∀ (c : CoreId) (start : BitVec 15) (s : State), s.flag (atUnit (cdie c) c.k) .HMR_CORE_CTRL_HOLD = false →
    ∃ t, exec (.coreHold c true start) s = .next t ∧ t.flag (atUnit (cdie c) c.k) .HMR_CORE_CTRL_HOLD = true ∧
    t.at_ c = { Core.reset with pc := start } ∧ t.cstate (cdie c) c.k = 0 ∧
    s.keepsRegs [.HMR_CORE_CTRL, .HMR_TNG_STAT, .HMR_DBG_STAT, .HMR_STK_STAT, .HMR_HALTED, .HMR_CORE_STAT, .NOC_EP_STAT] t ∧
    s.keepsMem t) ∧
  (∀ (c : CoreId) (s : State), s.flag (atUnit (cdie c) c.k) .HMR_WDOG_CTRL_EN = true → s.cstate (cdie c) c.k ≠ 5 →
    s.gated (cdie c) c.k = false → s.up (cdie c) = true → s.flag (atUnit (cdie c) c.k) .HMR_WDOG_STAT_WARNED = false →
    ∃ t, exec (.coreWatchdogExpiry c) s = .next t ∧ t.bit (atUnit (cdie c) c.k) .HMR_IRQ_PEND_PEND 1 = true ∧
    t.flag (atUnit (cdie c) c.k) .HMR_WDOG_STAT_WARNED = true ∧
    t.get (atUnit (cdie c) c.k) .HMR_WDOG_STAT_REMAIN = Nat.max 1 (s.get (atUnit (cdie c) c.k) .HMR_WDOG_CTRL_PERIOD) ∧
    t.cores = s.cores ∧ s.keepsRegs (.HMR_WDOG_STAT :: eventRegs) t ∧ s.keepsMem t) ∧
  (∀ (c : CoreId) (s : State), s.flag (atUnit (cdie c) c.k) .HMR_WDOG_CTRL_EN = true → s.cstate (cdie c) c.k ≠ 5 →
    s.gated (cdie c) c.k = false → s.up (cdie c) = true → s.flag (atUnit (cdie c) c.k) .HMR_WDOG_STAT_WARNED = true →
    s.flag (atUnit (cdie c) c.k) .HMR_WDOG_CTRL_ACTION = true → ∃ t, exec (.coreWatchdogExpiry c) s = .next t ∧
    t.flag (atUnit (cdie c) c.k) .HMR_WDOG_STAT_WARNED = false ∧ t.cores = s.cores ∧
    s.keepsRegs (.HMR_WDOG_STAT :: eventRegs) t ∧ s.keepsMem t) ∧
  (∀ (c : CoreId) (s : State), s.flag (atUnit (cdie c) c.k) .HMR_WDOG_CTRL_EN = true → s.cstate (cdie c) c.k ≠ 5 →
    s.gated (cdie c) c.k = false → s.up (cdie c) = true → s.flag (atUnit (cdie c) c.k) .HMR_WDOG_STAT_WARNED = true →
    s.flag (atUnit (cdie c) c.k) .HMR_WDOG_CTRL_ACTION = false → exec (.coreWatchdogExpiry c) s =
    .next ((((s.coreWdogReload (cdie c) c.k).raise (cdie c) (152 + c.k) (1 + (s.at_ c).pc.toNat * 2 ^ 8)).bump (atUnit (cdie c) c.k)
      .HMR_WDOG_STAT_RESETS 1).coreReset (cdie c) c.k)) ∧
  (∀ (c : CoreId) (s : State), s.flag (atUnit (cdie c) c.k) .HMR_WDOG_CTRL_EN = false ∨ s.cstate (cdie c) c.k = 5 ∨
    s.gated (cdie c) c.k = true → exec (.coreWatchdogExpiry c) s = .next s) ∧
  (∀ (c : CoreId) (s : State), ∃ t, exec (.coreWatchdogKick c 0x3C) s = .next t ∧
    t.get (atUnit (cdie c) c.k) .HMR_WDOG_STAT_REMAIN = Nat.max 1 (s.get (atUnit (cdie c) c.k) .HMR_WDOG_CTRL_PERIOD) ∧
    t.flag (atUnit (cdie c) c.k) .HMR_WDOG_STAT_WARNED = false ∧ s.keepsRegs [.HMR_WDOG_STAT] t ∧ s.keepsMem t) ∧
  (∀ (c : CoreId) (key : BitVec 8) (s : State), key ≠ 0x3C → exec (.coreWatchdogKick c key) s = .next s) ∧
  (∀ (c : CoreId) (value : Word) (s : State), ∃ t, exec (.coreWatchdogCtrlWrite c value) s = .next t ∧
    t.flag (atUnit (cdie c) c.k) .HMR_WDOG_CTRL_EN = value.getLsbD 31 ∧
    t.get (atUnit (cdie c) c.k) .HMR_WDOG_STAT_REMAIN = Nat.max 1 (t.get (atUnit (cdie c) c.k) .HMR_WDOG_CTRL_PERIOD) ∧
    t.flag (atUnit (cdie c) c.k) .HMR_WDOG_STAT_WARNED = false ∧ s.keepsRegs [.HMR_WDOG_CTRL, .HMR_WDOG_STAT] t ∧ s.keepsMem t)

/-- Chapter 11, the system watchdog (R313 to R315, R325): once enabled it stays enabled; the key 0x6D reloads it; a session at the
halt level may freeze it, and it reloads when it is no longer frozen; its first expiry warns and reloads it, its second raises SWD_EXPIRE
and resets the package with the watchdog among the causes; frozen or disabled it does nothing.
Model's choices: log entries 35 (DEDUCED), 145 (DEDUCED). -/
def Obligations.SystemWatchdogCommandsRun : Prop :=
  (∀ (value : Word) (s : State), s.flag (atDie .e0) .DBG_SWD_CTRL_EN = true → ∃ t, exec (.swdEnable value) s = .next t ∧
    t.flag (atDie .e0) .DBG_SWD_CTRL_EN = true ∧ t.get (atDie .e0) .DBG_SWD_CTRL_PERIOD = value.toNat % 2 ^ 16 ∧
    s.keepsRegs [.DBG_SWD_CTRL] t ∧ s.keepsMem t) ∧
  (∀ (value : Word) (s : State), s.flag (atDie .e0) .DBG_SWD_CTRL_EN = false → value.getLsbD 31 = false →
    ∃ t, exec (.swdEnable value) s = .next t ∧ t.flag (atDie .e0) .DBG_SWD_CTRL_EN = false ∧
    t.get (atDie .e0) .DBG_SWD_CTRL_PERIOD = value.toNat % 2 ^ 16 ∧ s.keepsRegs [.DBG_SWD_CTRL] t ∧ s.keepsMem t) ∧
  (∀ (value : Word) (s : State), s.flag (atDie .e0) .DBG_SWD_CTRL_EN = false → value.getLsbD 31 = true →
    ∃ t, exec (.swdEnable value) s = .next t ∧ t.flag (atDie .e0) .DBG_SWD_CTRL_EN = true ∧
    t.get (atDie .e0) .DBG_SWD_CTRL_PERIOD = value.toNat % 2 ^ 16 ∧ t.get (atDie .e0) .DBG_SWD_STAT_REMAIN = Nat.max 1 (t.get (atDie .e0) .DBG_SWD_CTRL_PERIOD) ∧
    t.flag (atDie .e0) .DBG_SWD_STAT_WARNED = false ∧ s.keepsRegs [.DBG_SWD_CTRL, .DBG_SWD_STAT] t ∧ s.keepsMem t) ∧
  (∀ s : State, ∃ t, exec (.swdKick 0x6D) s = .next t ∧
    t.get (atDie .e0) .DBG_SWD_STAT_REMAIN = Nat.max 1 (s.get (atDie .e0) .DBG_SWD_CTRL_PERIOD) ∧
    t.flag (atDie .e0) .DBG_SWD_STAT_WARNED = false ∧ s.keepsRegs [.DBG_SWD_STAT] t ∧ s.keepsMem t) ∧
  (∀ (key : BitVec 8) (s : State), key ≠ 0x6D → exec (.swdKick key) s = .next s) ∧
  (∀ (freeze : Bool) (s : State), 2 ≤ s.get (atDie .e0) .DBG_SESSION_LEVEL → ∃ t, exec (.freezeSysWrite 5 freeze) s = .next t ∧
    t.flag (atDie .e0) .DBG_CTRL_FREEZE_SYS = freeze ∧ t.flag (atDie .e0) .DBG_SWD_STAT_FROZEN = freeze ∧
    (s.flag (atDie .e0) .DBG_SWD_STAT_FROZEN = true → freeze = false →
      t.get (atDie .e0) .DBG_SWD_STAT_REMAIN = Nat.max 1 (s.get (atDie .e0) .DBG_SWD_CTRL_PERIOD) ∧
      t.flag (atDie .e0) .DBG_SWD_STAT_WARNED = false) ∧
    s.keepsRegs [.DBG_CTRL, .DBG_SWD_STAT] t ∧ s.keepsMem t) ∧
  (∀ (icls : BitVec 3) (freeze : Bool) (s : State), icls ≠ 5 ∨ s.get (atDie .e0) .DBG_SESSION_LEVEL < 2 →
    exec (.freezeSysWrite icls freeze) s = .next s) ∧
  (∀ s : State, s.flag (atDie .e0) .DBG_SWD_CTRL_EN = true → s.flag (atDie .e0) .DBG_SWD_STAT_FROZEN = false →
    s.flag (atDie .e0) .DBG_SWD_STAT_WARNED = false → ∃ t, exec .systemWatchdogExpiry s = .next t ∧
    t = (s.swdReload.put (atDie .e0) .DBG_SWD_STAT_WARNED 1).raise .e0 Ev.SWD_WARN
      (s.get (atDie .e0) .DBG_SWD_CTRL_PERIOD) ∧
    t.flag (atDie .e0) .DBG_SWD_STAT_WARNED = true ∧
    t.get (atDie .e0) .DBG_SWD_STAT_REMAIN = Nat.max 1 (s.get (atDie .e0) .DBG_SWD_CTRL_PERIOD) ∧
    s.keepsRegs (.DBG_SWD_STAT :: eventRegs) t ∧ s.keepsMem t) ∧
  (∀ s : State, s.flag (atDie .e0) .DBG_SWD_CTRL_EN = true → s.flag (atDie .e0) .DBG_SWD_STAT_FROZEN = false →
    s.flag (atDie .e0) .DBG_SWD_STAT_WARNED = true → ∃ t, exec .systemWatchdogExpiry s = .next t ∧
    t = (s.raise .e0 Ev.SWD_EXPIRE (s.get (atDie .e0) .DBG_SWD_CTRL_PERIOD)).packageReset 16 ∧
    (∀ d : Die, t.reg (atDie d) .DIE_RST_CAUSE = 18) ∧ t.mem = []) ∧
  (∀ s : State, s.flag (atDie .e0) .DBG_SWD_CTRL_EN = false ∨ s.flag (atDie .e0) .DBG_SWD_STAT_FROZEN = true →
    exec .systemWatchdogExpiry s = .next s)

/-- Chapter 11, the halts of a core (R326 to R331): requests and breakpoints, the halt point, resume, step and debug writes; and the
cross-trigger (R332). They count only in a session at the halt level.
Model's choices: log entries 35 (DEDUCED), 57 (DEDUCED), 241 (DESIGN CHOICE). -/
def Obligations.HaltCommandsRun : Prop :=
  (∀ (c : CoreId) (s : State), 2 ≤ s.get (atDie .e0) .DBG_SESSION_LEVEL → s.cstate (cdie c) c.k ≠ 0 → s.cstate (cdie c) c.k ≠ 5 →
    (s.at_ c).halt = none → ∃ t, exec (.haltRequest c) s = .next t ∧ t.at_ c = { s.at_ c with halt := some 0 } ∧ s.keepsRegs [] t ∧
    s.keepsMem t) ∧
  (∀ (c : CoreId) (s : State), s.get (atDie .e0) .DBG_SESSION_LEVEL < 2 ∨ s.cstate (cdie c) c.k = 0 ∨ s.cstate (cdie c) c.k = 5 ∨
    (s.at_ c).halt.isSome = true → exec (.haltRequest c) s = .next s) ∧
  (∀ (c : CoreId) (point : Fin 4) (s : State), s.flag ⟨cdie c, c.k, point, 0⟩ .HMR_BKPT_EN = true →
    s.get ⟨cdie c, c.k, point, 0⟩ .HMR_BKPT_PC = (s.at_ c).pc.toNat → s.cstate (cdie c) c.k ≠ 0 → s.cstate (cdie c) c.k ≠ 5 →
    (s.at_ c).halt = none → ∃ t, exec (.breakpointMatch c point) s = .next t ∧ t.at_ c = { s.at_ c with halt := some 3 } ∧
    s.keepsRegs [] t ∧ s.keepsMem t) ∧
  (∀ (c : CoreId) (point : Fin 4) (s : State), s.flag ⟨cdie c, c.k, point, 0⟩ .HMR_BKPT_EN = false ∨
    s.get ⟨cdie c, c.k, point, 0⟩ .HMR_BKPT_PC ≠ (s.at_ c).pc.toNat → exec (.breakpointMatch c point) s = .next s) ∧
  (∀ (c : CoreId) (cause : Nat) (s : State), (s.at_ c).halt = some cause → (s.at_ c).br = none ∨ s.cstate (cdie c) c.k ≠ 1 →
    s.cstate (cdie c) c.k ≠ 0 → s.cstate (cdie c) c.k ≠ 5 → (s.at_ c).stall ≠ .load → s.flag (atUnit (cdie c) c.k) .HMR_DBG_CTRL_XT_OUT = false →
    ∃ t, exec (.haltTakesEffect c) s = .next t ∧ t.cstate (cdie c) c.k = 5 ∧
    t.at_ c = { s.at_ c with halt := none, resv := none, under := s.cstate (cdie c) c.k, stepping := false } ∧
    t.flag (atUnit (cdie c) c.k) .HMR_DBG_STAT_HALTED = true ∧ t.flag (atUnit (cdie c) c.k) .HMR_DBG_STAT_PENDING = false ∧
    t.get (atUnit (cdie c) c.k) .HMR_DBG_STAT_CAUSE = cause % 8 ∧ t.get (atUnit (cdie c) c.k) .HMR_DBG_STAT_PC = (s.at_ c).haltPc.toNat ∧
    ((s.at_ c).br = none → t.get (atUnit (cdie c) c.k) .HMR_DBG_STAT_PC = (s.at_ c).pc.toNat) ∧
    t.bit (atDie (cdie c)) .HMR_HALTED_CORES c.k = true ∧
    s.keepsRegs ([.HMR_CORE_STAT, .HMR_DBG_STAT, .HMR_HALTED] ++ eventRegs) t ∧ s.keepsMem t) ∧
  (∀ (c : CoreId) (cause : Nat) (s : State), (s.at_ c).halt = some cause → (s.at_ c).br = none ∨ s.cstate (cdie c) c.k ≠ 1 →
    s.cstate (cdie c) c.k ≠ 0 → s.cstate (cdie c) c.k ≠ 5 → (s.at_ c).stall = .load → ∃ t, exec (.haltTakesEffect c) s = .next t ∧
    t.flag (atUnit (cdie c) c.k) .HMR_DBG_STAT_PENDING = true ∧ t.cores = s.cores ∧ s.keepsRegs [.HMR_DBG_STAT] t ∧ s.keepsMem t) ∧
  (∀ (c : CoreId) (s : State), (s.at_ c).halt = none ∨ ((s.at_ c).br.isSome = true ∧ s.cstate (cdie c) c.k = 1) ∨
    s.cstate (cdie c) c.k = 0 ∨ s.cstate (cdie c) c.k = 5 → exec (.haltTakesEffect c) s = .next s) ∧
  (∀ (c : CoreId) (s : State), 2 ≤ s.get (atDie .e0) .DBG_SESSION_LEVEL → s.cstate (cdie c) c.k = 5 →
    (s.at_ c).run = none → (s.at_ c).heldStores = [] → (s.at_ c).stall = .none →
    (∃ t, exec (.debugResume c) s = .next t ∧
      t.at_ c = { (s.at_ c).again.foldl (fun r e => r.commitOne e.1 e.2) (s.at_ c) with stepping := false, again := [] } ∧
      t.cstate (cdie c) c.k = (s.at_ c).under % 8 ∧ t.flag (atUnit (cdie c) c.k) .HMR_DBG_STAT_HALTED = false ∧
      t.bit (atDie (cdie c)) .HMR_HALTED_CORES c.k = false ∧
      s.keepsRegs [.HMR_CORE_STAT, .HMR_DBG_STAT, .HMR_HALTED, .HMR_WDOG_STAT, .HMR_TNG_STAT] t ∧ s.keepsMem t) ∧
    (∃ t, exec (.debugStep c) s = .next t ∧
      t.at_ c = { (s.at_ c).again.foldl (fun r e => r.commitOne e.1 e.2) (s.at_ c) with stepping := true, again := [] } ∧
      t.cstate (cdie c) c.k = (s.at_ c).under % 8 ∧ t.flag (atUnit (cdie c) c.k) .HMR_DBG_STAT_HALTED = false ∧
      t.bit (atDie (cdie c)) .HMR_HALTED_CORES c.k = false ∧
      s.keepsRegs [.HMR_CORE_STAT, .HMR_DBG_STAT, .HMR_HALTED, .HMR_WDOG_STAT, .HMR_TNG_STAT] t ∧ s.keepsMem t)) ∧
  (∀ (c : CoreId) (s : State), 2 ≤ s.get (atDie .e0) .DBG_SESSION_LEVEL → s.cstate (cdie c) c.k = 5 →
    (s.at_ c).run = none → (s.at_ c).heldStores = [] → (s.at_ c).stall = .sync → (s.at_ c).stores = 0 → (s.at_ c).under = 3 → (s.at_ c).rewait = false →
    ∃ t, exec (.debugResume c) s = .next t ∧ t.cstate (cdie c) c.k = 1 ∧ (t.at_ c).stall = .none ∧
    t.flag (atUnit (cdie c) c.k) .HMR_DBG_STAT_HALTED = false ∧
    s.keepsRegs [.HMR_CORE_STAT, .HMR_DBG_STAT, .HMR_HALTED, .HMR_WDOG_STAT, .HMR_TNG_STAT] t ∧ s.keepsMem t) ∧
  (∀ (c : CoreId) (step : Bool) (r : TongsRun) (s u : State), 2 ≤ s.get (atDie .e0) .DBG_SESSION_LEVEL → s.cstate (cdie c) c.k = 5 →
    (s.at_ c).run = some r →
    u = ((s.setCstate (cdie c) c.k (s.at_ c).under).put (atUnit (cdie c) c.k) .HMR_DBG_STAT_HALTED 0).onCore (cdie c) c.k (fun q =>
      { q.again.foldl (fun q e => q.commitOne e.1 e.2) q with stepping := step, again := [] }) →
    exec (if step then .debugStep c else .debugResume c) s = .next (State.tngGo (tngFuel r)
      ((((u.clrBit (atDie (cdie c)) .HMR_HALTED_CORES c.k).coreWdogReload (cdie c) c.k).moreStores (cdie c) c.k).tngSync (cdie c) c.k)
      (cdie c) c.k)) ∧
  (∀ (c : CoreId) (s : State), s.get (atDie .e0) .DBG_SESSION_LEVEL < 2 ∨ s.cstate (cdie c) c.k ≠ 5 →
    exec (.debugResume c) s = .next s ∧ exec (.debugStep c) s = .next s) ∧
  (∀ (c : CoreId) (value : BitVec 24) (s : State), 2 ≤ s.get (atDie .e0) .DBG_SESSION_LEVEL → s.cstate (cdie c) c.k = 5 →
    s.get (atUnit (cdie c) c.k) .HMR_DBG_REG_IDX_CODE < 16 → ∃ t, exec (.debugRegWrite c value) s = .next t ∧
    (∀ n : Fin 16, (t.at_ c).xr n =
      if n.val = s.get (atUnit (cdie c) c.k) .HMR_DBG_REG_IDX_CODE then value else (s.at_ c).xr n) ∧ (t.at_ c).pc = (s.at_ c).pc ∧
    s.keepsRegs [] t ∧ s.keepsMem t) ∧
  (∀ (c : CoreId) (value : BitVec 24) (s : State), 2 ≤ s.get (atDie .e0) .DBG_SESSION_LEVEL → s.cstate (cdie c) c.k = 5 →
    s.get (atUnit (cdie c) c.k) .HMR_DBG_REG_IDX_CODE = 0x48 → ∃ t, exec (.debugRegWrite c value) s = .next t ∧
    (t.at_ c).pc = value.setWidth 15 ∧ (t.at_ c).ld = 0 ∧ (t.at_ c).br = none ∧ t.get (atUnit (cdie c) c.k) .HMR_DBG_STAT_PC = value.toNat % 2 ^ 15 ∧
    s.keepsRegs [.HMR_DBG_STAT] t ∧ s.keepsMem t) ∧
  (∀ (c : CoreId) (value : BitVec 24) (s : State), 2 ≤ s.get (atDie .e0) .DBG_SESSION_LEVEL → s.cstate (cdie c) c.k = 5 →
    exec (.debugRegWrite c value) s =
    .next ((s.debugPut (cdie c) c.k (s.get (atUnit (cdie c) c.k) .HMR_DBG_REG_IDX_CODE) (value.toNat % 2 ^ 24)).onCore (cdie c) c.k
      fun r => r.rewrites (codeDests (s.get (atUnit (cdie c) c.k) .HMR_DBG_REG_IDX_CODE)))) ∧
  (∀ (c : CoreId) (value : BitVec 24) (s : State), s.get (atDie .e0) .DBG_SESSION_LEVEL < 2 ∨ s.cstate (cdie c) c.k ≠ 5 →
    exec (.debugRegWrite c value) s = .next s) ∧
  (∀ s : State, 2 ≤ s.get (atDie .e0) .DBG_SESSION_LEVEL → ∃ t, exec .crossTriggerFire s = .next t ∧
    (∀ c : CoreId, s.up (cdie c) = true → s.flag (atUnit (cdie c) c.k) .HMR_DBG_CTRL_XT_IN = true → s.cstate (cdie c) c.k ≠ 0 →
      s.cstate (cdie c) c.k ≠ 5 → (s.at_ c).halt = none → (t.at_ c).halt = some 1) ∧
    s.keepsRegs [.HMR_XTRIG_CNT] t ∧ s.keepsMem t) ∧
  (∀ s : State, s.get (atDie .e0) .DBG_SESSION_LEVEL < 2 → exec .crossTriggerFire s = .next s)

/-- Chapter 11, debug authorisation (R316 to R320): the nonce, an accepted and a refused response, the lockout, the key slots, and the
end of a session.
Model's choices: log entries 35 (DEDUCED), 58 (DEDUCED), 59 (DEDUCED). -/
def Obligations.DebugSessionCommandsRun : Prop :=
  (∀ (draw : BitVec 128) (s : State), s.flag (atDie .e0) .DBG_SESSION_LOCKOUT = false → ∃ t, exec (.dbgNonce draw) s = .next t ∧
    t.dbg = { s.dbg with nonce := some (bytesLE draw.toNat 16) } ∧ t.sent = .shifted draw.toNat :: s.sent ∧ t.tap.ir = 0x10 ∧
    s.keepsRegs [] t ∧ s.keepsMem t) ∧
  (∀ (draw : BitVec 128) (s : State), s.flag (atDie .e0) .DBG_SESSION_LOCKOUT = true → ∃ t, exec (.dbgNonce draw) s = .next t ∧
    t.dbg = { s.dbg with nonce := none } ∧ t.sent = .shifted 0 :: s.sent ∧ s.keepsRegs [] t ∧ s.keepsMem t) ∧
  (∀ (level : Nat) (response : BitVec 256) (nonce : List Nat) (s : State), 1 ≤ level → level ≤ 3 → s.dbg.nonce = some nonce →
    s.keyOf level ≠ 0 → hmacSha256 (bytesLE (s.keyOf level).toNat 32) (voxdarMessage nonce level) = bytesLE response.toNat 32 →
    s.get (atDie .e0) .DBG_SESSION_LEVEL < 2 ∨ 2 ≤ level → ∃ t, exec (.dbgAuth (BitVec.ofNat 8 level) response) s = .next t ∧ t.get (atDie .e0) .DBG_SESSION_LEVEL = level ∧
    t.get (atDie .e0) .DBG_SESSION_FAILS = 0 ∧ t.dbg.nonce = none ∧ s.keepsRegs (.DBG_SESSION :: .DBG_SWD_STAT :: eventRegs) t ∧
    s.keepsMem t) ∧
  (∀ (response : BitVec 256) (nonce : List Nat) (s : State), s.dbg.nonce = some nonce → s.keyOf 1 ≠ 0 →
    hmacSha256 (bytesLE (s.keyOf 1).toNat 32) (voxdarMessage nonce 1) = bytesLE response.toNat 32 →
    2 ≤ s.get (atDie .e0) .DBG_SESSION_LEVEL → exec (.dbgAuth 1 response) s =
    .next (((((s.tapIr 0x11).setDbg { s.dbg with nonce := none }).puts (atDie .e0) [(.DBG_SESSION_LEVEL, 1), (.DBG_SESSION_FAILS, 0)]).raise
      .e0 Ev.DBG_SESSION (1 + s.get (atDie .e0) .DBG_SESSION_LEVEL * 2 ^ 8 + 3 * 2 ^ 16)).sessionFall)) ∧
  (∀ (level : BitVec 8) (response : BitVec 256) (s : State), s.dbg.nonce = none ∨ level = 0 ∨ 4 ≤ level.toNat ∨
    s.keyOf level.toNat = 0 ∨ (∃ nonce, s.dbg.nonce = some nonce ∧
      hmacSha256 (bytesLE (s.keyOf level.toNat).toNat 32) (voxdarMessage nonce level.toNat) ≠ bytesLE response.toNat 32) → ∃ t, exec (.dbgAuth level response) s = .next t ∧
    t.get (atDie .e0) .DBG_SESSION_FAILS = satAdd 255 (s.get (atDie .e0) .DBG_SESSION_FAILS) 1 ∧
    (3 ≤ s.get (atDie .e0) .DBG_SESSION_FAILS → t.flag (atDie .e0) .DBG_SESSION_LOCKOUT = true) ∧
    t.get (atDie .e0) .DBG_SESSION_LEVEL = s.get (atDie .e0) .DBG_SESSION_LEVEL ∧ t.dbg.nonce = none ∧
    s.keepsRegs (.DBG_SESSION :: eventRegs) t ∧ s.keepsMem t) ∧
  (∀ s : State, ∃ t, exec .nonceExpiry s = .next t ∧ t.dbg = { s.dbg with nonce := none } ∧ s.keepsRegs [] t ∧ s.keepsMem t) ∧
  (∀ s : State, ∃ t, exec .lockoutExpiry s = .next t ∧ t.flag (atDie .e0) .DBG_SESSION_LOCKOUT = false ∧
    t.get (atDie .e0) .DBG_SESSION_FAILS = s.get (atDie .e0) .DBG_SESSION_FAILS ∧ s.keepsRegs [.DBG_SESSION] t ∧ s.keepsMem t) ∧
  (∀ (slot : Nat) (key : BitVec 256) (s : State), 1 ≤ slot → slot ≤ 3 →
    s.keyOf 3 = 0 ∨ s.get (atDie .e0) .DBG_SESSION_LEVEL = 3 → s.keyOf slot = 0 → key ≠ 0 →
    ∃ t, exec (.dbgKeyprog (BitVec.ofNat 8 slot) key) s = .next t ∧ t.keyOf slot = key ∧
    t.bit (atDie .e0) .DBG_KEY_STAT_SLOTS (slot - 1) = true ∧ s.keepsRegs [.DBG_KEY_STAT] t ∧ s.keepsMem t) ∧
  (∀ (slot : BitVec 8) (key : BitVec 256) (s : State), slot = 0 ∨ 4 ≤ slot.toNat ∨ s.keyOf slot.toNat ≠ 0 ∨ key = 0 ∨
    (s.keyOf 3 ≠ 0 ∧ s.get (atDie .e0) .DBG_SESSION_LEVEL ≠ 3) → ∃ t, exec (.dbgKeyprog slot key) s = .next t ∧ t.dbg = s.dbg ∧
    s.keepsRegs [] t ∧ s.keepsMem t) ∧
  (∀ s : State, ∃ t, exec .dbgStat s = .next t ∧ t.answer = s.reg (atDie .e0) .DBG_SESSION ∧ t.tap.ir = 0x14 ∧
    t.sent = .shifted (s.reg (atDie .e0) .DBG_SESSION).toNat :: s.sent ∧ s.keepsRegs [] t ∧ s.keepsMem t) ∧
  (∀ s : State, s.get (atDie .e0) .DBG_SESSION_LEVEL ≠ 0 →
    exec .sessionEnd s = .next (((((s.tapIr 0x13).put (atDie .e0) .DBG_SESSION_LEVEL 0).sessionFall).raise .e0 Ev.DBG_SESSION
      (s.get (atDie .e0) .DBG_SESSION_LEVEL * 2 ^ 8 + 1 * 2 ^ 16))) ∧
    exec .trstNLow s = .next (((((s.tapIr 1).put (atDie .e0) .DBG_SESSION_LEVEL 0).sessionFall).raise .e0 Ev.DBG_SESSION
      (s.get (atDie .e0) .DBG_SESSION_LEVEL * 2 ^ 8 + 2 * 2 ^ 16)))) ∧
  (∀ s : State, s.get (atDie .e0) .DBG_SESSION_LEVEL = 0 →
    exec .sessionEnd s = .next (s.tapIr 0x13) ∧ exec .trstNLow s = .next (s.tapIr 1))

/-- Chapter 11, debug accesses (R322): an access while one is pending is dropped and reported, one above the session's level is
refused, and any other is a request of 32 bits in class H with ICLS 5 from the debug endpoint of E0.
Model's choices: log entries 14 (DESIGN CHOICE). -/
def Obligations.DebugAccessCommandsRun : Prop :=
  (∀ (write : Bool) (addr : BitVec 48) (data : Word) (s : State), s.dbg.pending = true →
    ∃ t, exec (.dbgAcc write addr data) s = .next t ∧ t.flag (atDie .e0) .DBG_SESSION_ACC_DROP = true ∧ t.dbg = s.dbg ∧
    s.keepsRegs [.DBG_SESSION] t ∧ s.keepsMem t) ∧
  (∀ (write : Bool) (addr : BitVec 48) (data : Word) (s : State), s.dbg.pending = false →
    s.get (atDie .e0) .DBG_SESSION_LEVEL < s.accessLevel write addr.toNat → ∃ t, exec (.dbgAcc write addr data) s = .next t ∧
    t.dbg.dstat = 10 ∧ t.dbg.pending = false ∧ t.dbg.addr = addr.toNat ∧ s.keepsRegs [] t ∧ s.keepsMem t) ∧
  (∀ (write : Bool) (addr : BitVec 48) (data : Word) (s : State), s.dbg.pending = false →
    s.accessLevel write addr.toNat ≤ s.get (atDie .e0) .DBG_SESSION_LEVEL → exec (.dbgAcc write addr data) s =
    .next (((s.tapIr 0x12).setDbg { s.dbg with pending := true, dstat := 11, addr := addr.toNat }).request
      ⟨BitVec.ofNat 12 debugIdent, BitVec.ofNat 10 ((s.freeTag debugIdent).getD 0), 0, 1, if write then 8 else 0, 2, false, 5, addr,
        data.setWidth 512, if write then 15 else 0, 0, 0⟩ .debug)) ∧
  (∀ s : State, ∃ t, exec .dbgAccCapture s = .next t ∧ t.answer = BitVec.ofNat 32 s.dbg.data ∧ t.dbg = s.dbg ∧
    t.sent = .shifted ((if s.dbg.pending then 11 else s.dbg.dstat) + s.dbg.data % 2 ^ 32 * 2 ^ 4 + s.dbg.addr * 2 ^ 36) :: s.sent ∧
    s.keepsRegs [] t ∧ s.keepsMem t)

/-- Chapter 12, presence, power states and commands of a lane (R335, R339 to R342, R352 to R356).
Model's choices: log entries 35 (DEDUCED), 60 (DEDUCED), 61 (DEDUCED), 63 (DEDUCED), 64 (DEDUCED), 242 (DESIGN CHOICE), 243
(DESIGN CHOICE). -/
def Obligations.LaneCommandsRun : Prop :=
  (∀ (die : PDie) (l : Fin 48) (found : Bool) (s : State), s.laneOwn die.die l = true →
    s.laneSt die.die l ≠ 0 → s.laneSt die.die l ≠ 1 → s.laneSt die.die l ≠ 11 →
    (detects (s.laneSt die.die l) = true ∧ found = true) ∨ s.flag (atUnit die.die l) .LAN_LANE_STAT_SIGDET = true →
    s.flag (atUnit die.die l) .LAN_LANE_STAT_PRESENT = true → ∃ t, exec (.receiverDetect die l found) s = .next t ∧
    (t.lane die.die l).misses = 0 ∧ (t.lane die.die l).term = (detects (s.laneSt die.die l) && found) ∧ s.keepsRegs [] t ∧
    s.keepsMem t) ∧
  (∀ (die : PDie) (l : Fin 48) (found : Bool) (s : State), s.laneOwn die.die l = true →
    s.laneSt die.die l ≠ 0 → s.laneSt die.die l ≠ 1 → s.laneSt die.die l ≠ 11 →
    (detects (s.laneSt die.die l) = true ∧ found = true) ∨ s.flag (atUnit die.die l) .LAN_LANE_STAT_SIGDET = true →
    s.flag (atUnit die.die l) .LAN_LANE_STAT_PRESENT = false → ∃ t, exec (.receiverDetect die l found) s = .next t ∧
    (s.laneSt die.die l ≠ 2 ∨ s.flag (atUnit die.die l) .LAN_LANE_CFG_AUTO_START = false ∨
      s.get (atUnit die.die l) .LAN_LANE_CFG_MODE ≠ 3 → t.flag (atUnit die.die l) .LAN_LANE_STAT_PRESENT = true) ∧
    (s.laneSt die.die l ≠ 2 ∨ s.flag (atUnit die.die l) .LAN_LANE_CFG_AUTO_START = false →
      s.laneSt die.die l ≠ 3 ∨ s.get (atUnit die.die l) .LAN_LANE_STAT_PROTO ≠ 2 → t.laneSt die.die l = s.laneSt die.die l) ∧
    (s.laneSt die.die l = 3 → s.get (atUnit die.die l) .LAN_LANE_STAT_PROTO = 2 →
      s.fixedFits die.die l (s.lane die.die l).fixed = true → t.laneSt die.die l = 4 ∧
      t.get (atUnit die.die l) .LAN_LANE_STAT_RATE = (s.lane die.die l).fixed % 16) ∧
    (s.laneSt die.die l = 2 → s.flag (atUnit die.die l) .LAN_LANE_CFG_AUTO_START = true →
      s.get (atUnit die.die l) .LAN_LANE_CFG_MODE = 3 → t.laneSt die.die l = 0 ∧
      t.flag (atUnit die.die l) .LAN_LANE_STAT_PRESENT = false) ∧
    (s.laneSt die.die l = 2 → s.flag (atUnit die.die l) .LAN_LANE_CFG_AUTO_START = true →
      s.get (atUnit die.die l) .LAN_LANE_CFG_MODE = 0 → t.laneSt die.die l = 3) ∧ s.keepsRegs laneRegs t ∧ s.keepsMem t) ∧
  (∀ (die : PDie) (l : Fin 48) (s : State), s.laneOwn die.die l = true → s.laneSt die.die l ≠ 0 → s.laneSt die.die l ≠ 1 →
    s.laneSt die.die l ≠ 11 → s.flag (atUnit die.die l) .LAN_LANE_STAT_SIGDET = false →
    s.flag (atUnit die.die l) .LAN_LANE_STAT_PRESENT = true → ∃ t, exec (.receiverDetect die l false) s = .next t ∧
    (t.lane die.die l).misses = Nat.min 2 ((s.lane die.die l).misses + 1) ∧
    (0 < (s.lane die.die l).misses → t.flag (atUnit die.die l) .LAN_LANE_STAT_PRESENT = false ∧
      (s.laneSt die.die l ≠ 10 → t.laneSt die.die l = 2 ∧ t.get (atUnit die.die l) .LAN_LANE_STAT_RATE = 0 ∧
        t.flag (atUnit die.die l) .LAN_LANE_STAT_LOCKED = false)) ∧
    ((s.lane die.die l).misses = 0 → t.regs = s.regs) ∧ s.keepsRegs laneRegs t ∧ s.keepsMem t) ∧
  (∀ (die : PDie) (l : Fin 48) (found : Bool) (s : State), s.laneOwn die.die l = false ∨ s.laneSt die.die l = 0 ∨
    s.laneSt die.die l = 1 ∨ s.laneSt die.die l = 11 → exec (.receiverDetect die l found) s = .next s) ∧
  (∀ (die : PDie) (l : Fin 48) (energy : Bool) (s : State), s.laneOwn die.die l = true →
    ∃ t, exec (.signalDetectChange die l energy) s = .next t ∧ t.flag (atUnit die.die l) .LAN_LANE_STAT_SIGDET = energy ∧
    (energy = true → s.laneSt die.die l ≠ 0 → s.laneSt die.die l ≠ 1 →
      s.laneSt die.die l ≠ 2 ∨ s.flag (atUnit die.die l) .LAN_LANE_CFG_AUTO_START = false ∨
        s.get (atUnit die.die l) .LAN_LANE_CFG_MODE ≠ 3 → t.flag (atUnit die.die l) .LAN_LANE_STAT_PRESENT = true) ∧
    (energy = false → t.laneSt die.die l = s.laneSt die.die l) ∧ s.keepsRegs laneRegs t ∧ s.keepsMem t) ∧
  (∀ (die : PDie) (l : Fin 48) (s : State), s.laneSt die.die l = 3 → s.flag (atUnit die.die l) .LAN_LANE_STAT_SIGDET = true →
    s.get (atUnit die.die l) .LAN_LANE_STAT_PROTO ≠ 2 → (s.lane die.die l).heard = true ∨ (s.lane die.die l).silent = false →
    ∃ t, exec (.lanSilent die l) s = .next t ∧ t.lane die.die l = { s.lane die.die l with silent := true, heard := false } ∧
    s.keepsRegs eventRegs t ∧ s.keepsMem t) ∧
  (∀ (die : PDie) (l : Fin 48) (s : State), s.laneSt die.die l ≠ 3 ∨ s.flag (atUnit die.die l) .LAN_LANE_STAT_SIGDET = false ∨
    s.get (atUnit die.die l) .LAN_LANE_STAT_PROTO = 2 ∨ ((s.lane die.die l).heard = false ∧ (s.lane die.die l).silent = true) →
    exec (.lanSilent die l) s = .next s) ∧
  (∀ (die : PDie) (l : Fin 48) (s : State), s.laneSt die.die l = 1 ∨ s.laneSt die.die l = 10 ∨
    s.laneSt die.die l = 11 ∨ (s.laneSt die.die l = 0 ∧ s.get (atUnit die.die l) .LAN_LANE_CFG_MODE = 3) → ∃ t, exec (.laneRestart die l) s = .next t ∧
    t.flag (atUnit die.die l) .LAN_LANE_STAT_CMD_IGNORED = true ∧ t.laneSt die.die l = s.laneSt die.die l ∧
    s.keepsRegs [.LAN_LANE_STAT] t ∧ s.keepsMem t) ∧
  (∀ (die : PDie) (l : Fin 48) (s : State), s.laneSt die.die l = 0 → s.get (atUnit die.die l) .LAN_LANE_CFG_MODE ≠ 3 →
    ∃ t, exec (.laneRestart die l) s = .next t ∧ t.laneSt die.die l = 2 ∧ t.get (atUnit die.die l) .LAN_LANE_STAT_RATE = 0 ∧
    s.keepsRegs laneRegs t ∧ s.keepsMem t) ∧
  (∀ (die : PDie) (l : Fin 48) (s : State), s.laneSt die.die l ≠ 0 → s.laneSt die.die l ≠ 1 →
    s.laneSt die.die l ≠ 10 → s.laneSt die.die l ≠ 11 → ∃ t, exec (.laneRestart die l) s = .next t ∧
    (s.flag (atUnit die.die l) .LAN_LANE_STAT_PRESENT = false → t.laneSt die.die l = 2) ∧
    (s.flag (atUnit die.die l) .LAN_LANE_STAT_PRESENT = true → s.get (atUnit die.die l) .LAN_LANE_CFG_MODE = 0 →
      t.laneSt die.die l = 3 ∧ t.get (atUnit die.die l) .LAN_LANE_STAT_RATE = 0 ∧
      t.get (atUnit die.die l) .LAN_LANE_STAT_PROTO = 0 ∧ (t.lane die.die l).send = 1) ∧
    (s.flag (atUnit die.die l) .LAN_LANE_STAT_PRESENT = true → s.get (atUnit die.die l) .LAN_LANE_CFG_MODE = 3 →
      t.laneSt die.die l = 0 ∧ t.flag (atUnit die.die l) .LAN_LANE_STAT_PRESENT = false) ∧
    (s.flag (atUnit die.die l) .LAN_LANE_STAT_PRESENT = true → s.get (atUnit die.die l) .LAN_LANE_CFG_MODE = 2 →
      s.fixedFits die.die l (s.get (atUnit die.die l) .LAN_LANE_CFG_FIXED_RATE) = true → t.laneSt die.die l = 4 ∧
      t.get (atUnit die.die l) .LAN_LANE_STAT_RATE = s.get (atUnit die.die l) .LAN_LANE_CFG_FIXED_RATE) ∧
    (s.flag (atUnit die.die l) .LAN_LANE_STAT_PRESENT = true → s.get (atUnit die.die l) .LAN_LANE_CFG_MODE = 2 →
      s.fixedFits die.die l (s.get (atUnit die.die l) .LAN_LANE_CFG_FIXED_RATE) = false → t.laneSt die.die l = 9 ∧
      t.get (atUnit die.die l) .LAN_LANE_STAT_RESULT = 3) ∧ s.keepsRegs laneRegs t ∧ s.keepsMem t) ∧
  (∀ (die : PDie) (l : Fin 48) (s : State), s.laneSt die.die l = 5 →
    ∃ t, exec (.laneSleep die l) s = .next t ∧ t.laneSt die.die l = 7 ∧ t.flag (atUnit die.die l) .LAN_LANE_STAT_LOCKED = false ∧
    (t.lane die.die l).stored = some (s.cycles, s.dieTemp die.die) ∧ s.keepsRegs laneRegs t ∧ s.keepsMem t) ∧
  (∀ (die : PDie) (l : Fin 48) (s : State), s.laneSt die.die l = 7 →
    ∃ t, exec (.laneWake die l) s = .next t ∧ t.sent = .wakeBurst die.die.idx l 4096 0 (if s.pam4 die.die l then 3 else 1) :: s.sent ∧
    t.lane die.die l = { s.lane die.die l with awake := true } ∧ s.keepsRegs [] t ∧ s.keepsMem t) ∧
  (∀ (die : PDie) (l : Fin 48) (s : State), s.laneSt die.die l = 10 →
    s.flag (atDie .e0) .CLK_STATUS_COAST = false → s.laneRails die.die = true → ∃ t, exec (.laneTxReenable die l) s = .next t ∧
    t.flag (atUnit die.die l) .LAN_LANE_STAT_TX_SAFE = false ∧
    (s.get (atUnit die.die l) .LAN_LANE_CFG_MODE = 0 → t.laneSt die.die l = 3) ∧ s.keepsRegs laneRegs t ∧ s.keepsMem t) ∧
  (∀ (die : PDie) (l : Fin 48) (s : State), s.laneSt die.die l = 8 →
    ∃ t, exec (.laneMeasure die l) s = .next t ∧ t.lane die.die l = { s.lane die.die l with measuring := true } ∧
    s.keepsRegs [] t ∧ s.keepsMem t) ∧
  (∀ (die : PDie) (l : Fin 48) (s : State), ∃ t,
    (s.laneSt die.die l ≠ 5 → exec (.laneSleep die l) s = .next t) ∧ (s.laneSt die.die l ≠ 7 → exec (.laneWake die l) s = .next t) ∧
    (s.laneSt die.die l ≠ 10 → exec (.laneTxReenable die l) s = .next t) ∧
    (s.laneSt die.die l ≠ 8 → exec (.laneMeasure die l) s = .next t) ∧
    t.flag (atUnit die.die l) .LAN_LANE_STAT_CMD_IGNORED = true ∧ t.laneSt die.die l = s.laneSt die.die l ∧
    s.keepsRegs [.LAN_LANE_STAT] t ∧ s.keepsMem t) ∧
  (∀ (die : PDie) (l : Fin 48) (s : State), s.laneSt die.die l = 11 → ∃ t, exec (.laneRestart die l) s = .next t ∧
    exec (.laneSleep die l) s = .next t ∧ exec (.laneWake die l) s = .next t ∧ exec (.laneTxReenable die l) s = .next t ∧
    exec (.laneMeasure die l) s = .next t ∧ t.flag (atUnit die.die l) .LAN_LANE_STAT_CMD_IGNORED = true ∧ t.laneSt die.die l = 11 ∧
    s.keepsRegs [.LAN_LANE_STAT] t ∧ s.keepsMem t) ∧
  (∀ (die : PDie) (l : Fin 48) (s : State), s.surveys die.die l [3, 4] = true → s.portLanes die.die l = [l.val] →
    ∃ t, exec (.laneAbort die l) s = .next t ∧ t.laneSt die.die l = 9 ∧ t.get (atUnit die.die l) .LAN_LANE_STAT_RATE = 0 ∧
    t.get (atUnit die.die l) .LAN_LANE_STAT_RESULT = 2 ∧ (t.lane die.die l).send = 4 ∧ (t.lane die.die l).abort = true ∧
    s.keepsRegs laneRegs t ∧ s.keepsMem t) ∧
  (∀ (die : PDie) (l : Fin 48) (s : State), s.surveys die.die l [3, 4] = false → exec (.laneAbort die l) s = .next s) ∧
  (∀ (die : PDie) (l : Fin 48) (n : BitVec 16) (s : State), s.laneOwn die.die l = true → s.laneSt die.die l = 7 → 1024 ≤ n.toNat →
    s.storedGood die.die l = true → ∃ t, exec (.wakeBurstReceived die l n) s = .next t ∧ t.laneSt die.die l = 5 ∧
    t.flag (atUnit die.die l) .LAN_LANE_STAT_LOCKED = true ∧ (t.lane die.die l).stored = none ∧
    s.keepsRegs (.LAN_LANE_STAT :: eventRegs) t ∧ s.keepsMem t) ∧
  (∀ (die : PDie) (l : Fin 48) (n : BitVec 16) (s : State), s.laneOwn die.die l = true → s.laneSt die.die l = 7 → 1024 ≤ n.toNat →
    s.storedGood die.die l = false → ∃ t, exec (.wakeBurstReceived die l n) s = .next t ∧ t.laneSt die.die l = 6 ∧
    t.get (atUnit die.die l) .LAN_LANE_CNT_WAKES_STALE = satAdd 255 (s.get (atUnit die.die l) .LAN_LANE_CNT_WAKES_STALE) 1 ∧
    t.flag (atUnit die.die l) .LAN_LANE_STAT_LOCKED = false ∧ (t.lane die.die l).stored = none ∧ s.keepsRegs laneRegs t ∧
    s.keepsMem t) ∧
  (∀ (die : PDie) (l : Fin 48) (n : BitVec 16) (s : State), s.laneSt die.die l ≠ 7 ∨ n.toNat < 1024 →
    exec (.wakeBurstReceived die l n) s = .next s) ∧
  (∀ (die : PDie) (l : Fin 48) (s : State), s.laneOwn die.die l = true → s.laneSt die.die l = 5 →
    s.flag (atUnit die.die l) .LAN_LANE_STAT_PRESENT = true → ∃ t, exec (.laneLockLoss die l) s = .next t ∧ t.laneSt die.die l = 6 ∧
    t.flag (atUnit die.die l) .LAN_LANE_STAT_LOCKED = false ∧
    t.get (atUnit die.die l) .LAN_LANE_CNT_RECOVERS = satAdd 255 (s.get (atUnit die.die l) .LAN_LANE_CNT_RECOVERS) 1 ∧
    s.keepsRegs laneRegs t ∧ s.keepsMem t) ∧
  (∀ (die : PDie) (l : Fin 48) (s : State), s.laneOwn die.die l = true → s.laneSt die.die l = 8 →
    ∃ t, exec (.laneLockLoss die l) s = .next t ∧ t.laneSt die.die l = 8 ∧
    t.flag (atUnit die.die l) .LAN_LANE_STAT_LOCKED = false ∧ s.keepsRegs laneRegs t ∧ s.keepsMem t) ∧
  (∀ (die : PDie) (l : Fin 48) (s : State), s.laneOwn die.die l = true → s.laneSt die.die l = 6 → s.portLanes die.die l = [l.val] →
    s.get (atUnit die.die l) .LAN_LANE_CFG_MODE = 0 → ∃ t, exec (.recoverTimeout die l) s = .next t ∧ t.laneSt die.die l = 3 ∧
    t.get (atUnit die.die l) .LAN_LANE_STAT_RATE = 0 ∧ s.keepsRegs laneRegs t ∧ s.keepsMem t) ∧
  (∀ (die : PDie) (l : Fin 48) (s : State), s.laneSt die.die l ≠ 6 → exec (.recoverTimeout die l) s = .next s)

/-- Chapter 12, bring-up (R343 to R350): what each frame, page, timer and measurement does to a port of one lane, or to the lane that
leads a port, and when each is without effect.
Model's choices: log entries 35 (DEDUCED), 62 (DEDUCED), 63 (DEDUCED), 68 (DEDUCED), 244 (PRESUMED). -/
def Obligations.LaneSurveyCommandsRun : Prop :=
  (∀ (die : PDie) (l : Fin 48) (abort : Bool) (s : State), s.surveys die.die l [3, 4, 9] = true → (s.lane die.die l).send ≠ 0 →
    (s.lane die.die l).send ≠ 3 → ((s.lane die.die l).send = 1 → (s.lane die.die l).caps ≠ 3 ∧ (s.lane die.die l).capOut = false) →
    abort = false ∨ s.laneSt die.die l = 9 → ∃ t, exec (.surveyFrameSend die l abort) s = .next t ∧
    t.sent = .survey die.die.idx l (s.surveyFrame die.die l) (levelsOf (s.pam4 die.die l)
      (codeGroups (idlePair ++ surveyGroups (s.surveyFrame die.die l)) (s.lane die.die l).plus).1) :: s.sent ∧
    (t.lane die.die l).seq = ((s.lane die.die l).seq + 1) % 256 ∧
    ((s.lane die.die l).send = 2 → (t.lane die.die l).reqOut = true) ∧ s.keepsRegs [] t ∧ s.keepsMem t) ∧
  (∀ (die : PDie) (l : Fin 48) (r : Nat) (s : State), s.surveys die.die l [3, 4] = true → (s.lane die.die l).send = 1 →
    (s.lane die.die l).caps = 3 → (s.lane die.die l).capIn = true → r ≠ 0 →
    r = stepRate (s.lane die.die l).allow (s.get (atUnit die.die l) .LAN_LANE_PARTNER_PALLOW) (s.lane die.die l).failed →
    ∃ t, exec (.surveyFrameSend die l false) s = .next t ∧ (t.lane die.die l).send = 2 ∧ (t.lane die.die l).rate = r ∧
    t.get (atUnit die.die l) .LAN_LANE_STAT_STEPS = Nat.min 15 (s.lane die.die l).step ∧ s.keepsRegs [.LAN_LANE_STAT] t ∧ s.keepsMem t) ∧
  (∀ (die : PDie) (l : Fin 48) (s : State), s.surveys die.die l [3, 4] = true → (s.lane die.die l).send ≠ 3 →
    ((s.lane die.die l).send = 1 → (s.lane die.die l).caps ≠ 3 ∧ (s.lane die.die l).capOut = false) →
    s.portLanes die.die l = [l.val] → ∃ t, exec (.surveyFrameSend die l true) s = .next t ∧ t.laneSt die.die l = 9 ∧
    t.get (atUnit die.die l) .LAN_LANE_STAT_RESULT = 2 ∧ (t.lane die.die l).send = 4 ∧ (t.lane die.die l).abort = true ∧
    s.keepsRegs laneRegs t ∧ s.keepsMem t) ∧
  (∀ (die : PDie) (l : Fin 48) (abort : Bool) (s : State), s.surveys die.die l [3, 4, 9] = true → (s.lane die.die l).send = 3 →
    (s.lane die.die l).doneIn = false → abort = false ∨ s.laneSt die.die l = 9 →
    ∃ t, exec (.surveyFrameSend die l abort) s = .next t ∧ (t.lane die.die l).doneOut = true ∧
    t.sent = .survey die.die.idx l (s.surveyFrame die.die l) (levelsOf (s.pam4 die.die l)
      (codeGroups (idlePair ++ surveyGroups (s.surveyFrame die.die l)) (s.lane die.die l).plus).1) :: s.sent ∧ s.keepsRegs [] t ∧ s.keepsMem t) ∧
  (∀ (die : PDie) (l : Fin 48) (abort : Bool) (s : State), s.surveys die.die l [3, 4, 9] = true → (s.lane die.die l).send = 3 →
    (s.lane die.die l).doneIn = true → (s.lane die.die l).okOut = true → (s.lane die.die l).okIn = true →
    s.portLanes die.die l = [l.val] → ∃ t, exec (.surveyFrameSend die l abort) s = .next t ∧ t.laneSt die.die l = 5 ∧
    t.get (atUnit die.die l) .LAN_LANE_STAT_RESULT = 1 ∧
    (abort = true → t.flag (atUnit die.die l) .LAN_LANE_STAT_ABORT_LATE = true) ∧ s.keepsRegs laneRegs t ∧ s.keepsMem t) ∧
  (∀ (die : PDie) (l : Fin 48) (abort : Bool) (s : State), s.surveys die.die l [3, 4, 9] = false ∨
      ((s.lane die.die l).send = 0 ∧ (abort = false ∨ s.laneSt die.die l = 9)) →
    exec (.surveyFrameSend die l abort) s = .next s) ∧
  (∀ (die : PDie) (l : Fin 48) (frame : BitVec 224) (s : State), s.surveys die.die l [3] = true →
    surveyValid (bytesLE frame.toNat 28) 1 = true → (bytesLE frame.toNat 28).getD 8 0 = (s.portLanes die.die l).length →
    (s.lane die.die l).send = 1 → (s.lane die.die l).caps < 3 → (s.lane die.die l).capOut = false →
    ∃ t, exec (.surveyCapReceived die l frame) s = .next t ∧ (t.lane die.die l).caps = (s.lane die.die l).caps + 1 ∧
    (t.lane die.die l).heard = true ∧
    (t.lane die.die l).capIn = ((s.lane die.die l).capIn || bitOf ((bytesLE frame.toNat 28).getD 3 0) 0) ∧
    t.get (atUnit die.die l) .LAN_LANE_PARTNER_PALLOW = fieldLE (bytesLE frame.toNat 28) 4 2 % 2 ^ 15 ∧
    t.laneSt die.die l = 3 ∧ s.keepsRegs [.LAN_LANE_PARTNER] t ∧ s.keepsMem t) ∧
  (∀ (die : PDie) (l : Fin 48) (frame : BitVec 224) (r : Nat) (s : State), s.surveys die.die l [3] = true →
    surveyValid (bytesLE frame.toNat 28) 1 = true → (bytesLE frame.toNat 28).getD 8 0 = (s.portLanes die.die l).length →
    (s.lane die.die l).send = 1 → (s.lane die.die l).capOut = true → bitOf ((bytesLE frame.toNat 28).getD 3 0) 0 = true → r ≠ 0 →
    r = stepRate (s.lane die.die l).allow (fieldLE (bytesLE frame.toNat 28) 4 2 % 2 ^ 15) (s.lane die.die l).failed →
    ∃ t, exec (.surveyCapReceived die l frame) s = .next t ∧ (t.lane die.die l).send = 2 ∧ (t.lane die.die l).rate = r ∧
    s.keepsRegs [.LAN_LANE_STAT, .LAN_LANE_PARTNER] t ∧ s.keepsMem t) ∧
  (∀ (die : PDie) (l : Fin 48) (frame : BitVec 224) (s : State), s.surveys die.die l [3] = true →
    surveyValid (bytesLE frame.toNat 28) 1 = true → (bytesLE frame.toNat 28).getD 8 0 ≠ (s.portLanes die.die l).length →
    s.portLanes die.die l = [l.val] → ∃ t, exec (.surveyCapReceived die l frame) s = .next t ∧ t.laneSt die.die l = 9 ∧
    t.get (atUnit die.die l) .LAN_LANE_STAT_RESULT = 6 ∧ s.keepsRegs laneRegs t ∧ s.keepsMem t) ∧
  (∀ (die : PDie) (l : Fin 48) (frame : BitVec 224) (s : State), s.surveys die.die l [3] = true →
    surveyValid (bytesLE frame.toNat 28) 1 = false → (s.lane die.die l).send = 1 →
    ∃ t, exec (.surveyCapReceived die l frame) s = .next t ∧ t.lane die.die l = { s.lane die.die l with caps := 0, capOut := false } ∧
    s.keepsRegs [] t ∧ s.keepsMem t) ∧
  (∀ (die : PDie) (l : Fin 48) (frame : BitVec 224) (s : State), s.surveys die.die l [3] = true →
    surveyValid (bytesLE frame.toNat 28) 2 = true → (s.lane die.die l).send = 2 →
    (bytesLE frame.toNat 28).getD 6 0 = (s.lane die.die l).rate → (bytesLE frame.toNat 28).getD 9 0 = (s.lane die.die l).step % 256 →
    ∃ t, exec (.surveyStepReqReceived die l frame) s = .next t ∧
    t.lane die.die l = { s.lane die.die l with reqIn := true, heard := true } ∧ s.keepsRegs [] t ∧ s.keepsMem t) ∧
  (∀ (die : PDie) (l : Fin 48) (s : State), s.surveys die.die l [3] = true → s.portLanes die.die l = [l.val] →
    (s.lane die.die l).send = 2 → (s.lane die.die l).reqOut = true → (s.lane die.die l).reqIn = true →
    (s.lane die.die l).rate < 16 → ∃ t, exec (.surveyRateSwitch die l) s = .next t ∧ t.laneSt die.die l = 4 ∧
    t.get (atUnit die.die l) .LAN_LANE_STAT_RATE = (s.lane die.die l).rate ∧
    t.flag (atUnit die.die l) .LAN_LANE_STAT_LOCKED = false ∧ (t.lane die.die l).send = 0 ∧ s.keepsRegs laneRegs t ∧ s.keepsMem t) ∧
  (∀ (die : PDie) (l : Fin 48) (s : State), (s.lane die.die l).reqOut = false ∨ (s.lane die.die l).reqIn = false →
    exec (.surveyRateSwitch die l) s = .next s) ∧
  (∀ (die : PDie) (l : Fin 48) (s : State), s.laneSt die.die l = 4 → s.get (atUnit die.die l) .LAN_LANE_STAT_PROTO ≠ 2 →
    ∃ t, exec (.laneTrainingDone die l) s = .next t ∧ t.flag (atUnit die.die l) .LAN_LANE_STAT_LOCKED = true ∧
    t.laneSt die.die l = 4 ∧ s.keepsRegs [.LAN_LANE_STAT] t ∧ s.keepsMem t) ∧
  (∀ (die : PDie) (l : Fin 48) (frame : BitVec 224) (abort : Bool) (s : State), s.surveys die.die l [3, 4] = true →
    surveyValid (bytesLE frame.toNat 28) 3 = true → (bytesLE frame.toNat 28).getD 6 0 = (s.lane die.die l).rate →
    (bytesLE frame.toNat 28).getD 9 0 = (s.lane die.die l).step % 256 → (s.lane die.die l).doneOut = false → abort = false →
    ∃ t, exec (.surveyStepDoneReceived die l frame abort) s = .next t ∧ (t.lane die.die l).doneIn = true ∧
    (t.lane die.die l).okIn = bitOf ((bytesLE frame.toNat 28).getD 3 0) 1 ∧
    t.get (atUnit die.die l) .LAN_LANE_PARTNER_PFOM = (bytesLE frame.toNat 28).getD 7 0 % 256 ∧
    s.keepsRegs [.LAN_LANE_PARTNER] t ∧ s.keepsMem t) ∧
  (∀ (die : PDie) (l : Fin 48) (frame : BitVec 224) (abort : Bool) (s : State), s.surveys die.die l [3, 4] = true →
    surveyValid (bytesLE frame.toNat 28) 3 = true → (bytesLE frame.toNat 28).getD 6 0 = (s.lane die.die l).rate →
    (bytesLE frame.toNat 28).getD 9 0 = (s.lane die.die l).step % 256 → (s.lane die.die l).doneOut = false →
    s.portLanes die.die l = [l.val] → ∃ t, exec (.surveyStepDoneReceived die l frame true) s = .next t ∧ t.laneSt die.die l = 9 ∧
    t.get (atUnit die.die l) .LAN_LANE_STAT_RESULT = 2 ∧ s.keepsRegs laneRegs t ∧ s.keepsMem t) ∧
  (∀ (die : PDie) (l : Fin 48) (frame : BitVec 224) (abort : Bool) (s : State), s.surveys die.die l [3, 4] = true →
    surveyValid (bytesLE frame.toNat 28) 3 = true → (bytesLE frame.toNat 28).getD 6 0 = (s.lane die.die l).rate →
    (bytesLE frame.toNat 28).getD 9 0 = (s.lane die.die l).step % 256 → (s.lane die.die l).doneOut = true →
    (s.lane die.die l).okOut = true → bitOf ((bytesLE frame.toNat 28).getD 3 0) 1 = true → s.portLanes die.die l = [l.val] →
    ∃ t, exec (.surveyStepDoneReceived die l frame abort) s = .next t ∧ t.laneSt die.die l = 5 ∧
    t.get (atUnit die.die l) .LAN_LANE_STAT_RESULT = 1 ∧
    (abort = true → t.flag (atUnit die.die l) .LAN_LANE_STAT_ABORT_LATE = true) ∧
    t.get (atUnit die.die l) .LAN_LANE_FOM_AT_COMMIT = s.get (atUnit die.die l) .LAN_LANE_FOM_LAST ∧ s.keepsRegs laneRegs t ∧
    s.keepsMem t) ∧
  (∀ (die : PDie) (l : Fin 48) (frame : BitVec 224) (s : State), s.surveys die.die l [3, 4] = true →
    surveyValid (bytesLE frame.toNat 28) 4 = true → s.portLanes die.die l = [l.val] →
    ∃ t, exec (.surveyHoldReceived die l frame) s = .next t ∧ t.laneSt die.die l = 9 ∧
    t.get (atUnit die.die l) .LAN_LANE_STAT_RESULT = 5 ∧ s.keepsRegs laneRegs t ∧ s.keepsMem t) ∧
  (∀ (die : PDie) (l : Fin 48) (frame : BitVec 224) (abort : Bool) (s : State), s.surveys die.die l [3, 4] = false →
    s.surveys die.die l [3] = false → exec (.surveyCapReceived die l frame) s = .next s ∧
    exec (.surveyStepReqReceived die l frame) s = .next s ∧ exec (.surveyStepDoneReceived die l frame abort) s = .next s ∧
    exec (.surveyHoldReceived die l frame) s = .next s) ∧
  (∀ (die : PDie) (l : Fin 48) (s : State), s.laneOwn die.die l = true → s.laneSt die.die l = 4 → s.portLanes die.die l = [l.val] →
    s.get (atUnit die.die l) .LAN_LANE_STAT_PROTO < 2 → ∃ t, exec (.laneTrainingTimeout die l) s = .next t ∧ t.laneSt die.die l = 3 ∧
    t.get (atUnit die.die l) .LAN_LANE_STAT_RATE = 0 ∧
    (s.get (atUnit die.die l) .LAN_LANE_STAT_PROTO = 0 → (t.lane die.die l).failed = (s.lane die.die l).rate ∧
      (t.lane die.die l).send = 1) ∧ s.keepsRegs laneRegs t ∧ s.keepsMem t) ∧
  (∀ (die : PDie) (l : Fin 48) (s : State), s.surveys die.die l [3, 4] = true → s.portLanes die.die l = [l.val] →
    (s.lane die.die l).doneOut = true → (s.lane die.die l).doneIn = false → ∃ t, exec (.stepDoneTimeout die l) s = .next t ∧
    t.laneSt die.die l = 3 ∧ (t.lane die.die l).failed = (s.lane die.die l).rate ∧
    (t.lane die.die l).step = (s.lane die.die l).step + 1 ∧ s.keepsRegs laneRegs t ∧ s.keepsMem t) ∧
  (∀ (die : PDie) (l : Fin 48) (s : State), (s.lane die.die l).doneOut = false ∨ (s.lane die.die l).doneIn = true →
    exec (.stepDoneTimeout die l) s = .next s) ∧
  (∀ (die : PDie) (l : Fin 48) (types : BitVec 11) (s : State), s.laneOwn die.die l = true → s.leads die.die l = true →
    s.laneSt die.die l = 3 → s.get (atUnit die.die l) .LAN_LANE_STAT_PROTO = 1 →
    ∃ t, exec (.c73PageReceived die l types false) s = .next t ∧ (t.lane die.die l).heard = true ∧ t.laneSt die.die l = 3 ∧
    (t.lane die.die l).types = ((s.lane die.die l).types ||| types.toNat % 2 ^ 7) ∧
    s.keepsRegs [.LAN_LANE_PARTNER] t ∧ s.keepsMem t) ∧
  (∀ (die : PDie) (l : Fin 48) (s : State), s.laneOwn die.die l = true → s.leads die.die l = true →
    s.laneSt die.die l = 3 → s.get (atUnit die.die l) .LAN_LANE_STAT_PROTO = 1 → s.portLanes die.die l = [l.val] →
    bitOf (s.lane die.die l).allow 13 = true → ∃ t, exec (.c73PageReceived die l 0x7F true) s = .next t ∧ t.laneSt die.die l = 4 ∧
    t.get (atUnit die.die l) .LAN_LANE_STAT_RATE = 13 ∧ t.flag (atUnit die.die l) .LAN_LANE_STAT_LOCKED = false ∧
    s.keepsRegs laneRegs t ∧ s.keepsMem t) ∧
  (∀ (die : PDie) (l : Fin 48) (s : State), s.laneOwn die.die l = true → s.portLanes die.die l = [l.val] →
    s.get (atUnit die.die l) .LAN_LANE_STAT_PROTO = 1 → s.laneSt die.die l = 3 ∨ s.laneSt die.die l = 4 →
    ∃ t, exec (.c73TimerFailure die l) s = .next t ∧ t.laneSt die.die l = 3 ∧ t.get (atUnit die.die l) .LAN_LANE_STAT_RATE = 0 ∧
    (t.lane die.die l).types = 0 ∧ s.keepsRegs laneRegs t ∧ s.keepsMem t) ∧
  (∀ (die : PDie) (l : Fin 48) (s : State), s.laneRole die.die l = 0 → s.portLanes die.die l = [l.val] →
    s.get (atUnit die.die l) .LAN_LANE_STAT_PROTO = 1 → s.laneSt die.die l = 4 → ∃ t, exec (.pcsLinkUp die l) s = .next t ∧
    t.laneSt die.die l = 5 ∧ t.get (atUnit die.die l) .LAN_LANE_STAT_RESULT = 1 ∧ (t.port die.die l).pcs = true ∧
    s.keepsRegs laneRegs t ∧ s.keepsMem t) ∧
  (∀ (die : PDie) (l : Fin 48) (s : State), s.laneRole die.die l = 0 → s.leads die.die l = true →
    (∀ m ∈ s.portLanes die.die l, s.laneSt die.die m = 5) → ∃ t, exec (.pcsLinkUp die l) s = .next t ∧
    t.port die.die l = { s.port die.die l with pcs := true } ∧ s.keepsRegs [] t ∧ s.keepsMem t) ∧
  (∀ (die : PDie) (l : Fin 48) (s : State), s.laneRole die.die l ≠ 0 ∨ s.leads die.die l = false ∨
      (s.laneSt die.die l ≠ 5 ∧ ¬(s.get (atUnit die.die l) .LAN_LANE_STAT_PROTO = 1 ∧ s.laneSt die.die l = 4)) →
    exec (.pcsLinkUp die l) s = .next s) ∧
  (∀ (die : PDie) (l : Fin 48) (types : BitVec 11) (complete : Bool) (s : State),
    s.get (atUnit die.die l) .LAN_LANE_STAT_PROTO ≠ 1 → exec (.c73PageReceived die l types complete) s = .next s ∧
    exec (.c73TimerFailure die l) s = .next s) ∧
  (∀ (die : PDie) (l : Fin 48) (w : List (BitVec 64)) (h : List (BitVec 128)) (e : Nat × Nat) (s : State),
    e = eyeOf (s.pam4 die.die l) w h → s.laneOwn die.die l = true → s.laneSt die.die l = 4 →
    s.get (atUnit die.die l) .LAN_LANE_STAT_PROTO = 2 → (s.lane die.die l).prev = none → s.portLanes die.die l = [l.val] →
    ∃ t, exec (.cdrLock die l w h) s = .next t ∧ t.flag (atUnit die.die l) .LAN_LANE_STAT_LOCKED = true ∧
    t.get (atUnit die.die l) .LAN_LANE_FOM_LAST = fomOf e.1 e.2 ∧
    t.laneSt die.die l = (if s.get (atDie die.die) .LAN_FOM_CFG_MIN ≤ fomOf e.1 e.2 then 5 else 4) ∧ s.keepsRegs laneRegs t ∧
    s.keepsMem t) ∧
  (∀ (die : PDie) (l : Fin 48) (s : State), s.laneOwn die.die l = true → s.laneSt die.die l = 4 →
    s.get (atUnit die.die l) .LAN_LANE_STAT_PROTO = 2 → ∃ t, exec (.fixedRateTimeout die l) s = .next t ∧
    t.get (atUnit die.die l) .LAN_LANE_STAT_RESULT = 7 ∧ t.laneSt die.die l = 4 ∧ s.keepsRegs (.LAN_LANE_STAT :: eventRegs) t ∧
    s.keepsMem t) ∧
  (∀ (die : PDie) (l : Fin 48) (w : List (BitVec 64)) (h : List (BitVec 128)) (e : Nat × Nat) (s : State),
    e = eyeOf (s.pam4 die.die l) w h → s.laneOwn die.die l = true → s.laneSt die.die l = 4 →
    s.get (atUnit die.die l) .LAN_LANE_STAT_PROTO = 0 → s.portLanes die.die l = [l.val] →
    ∃ t, exec (.fomMeasurementDone die l w h) s = .next t ∧ t.get (atUnit die.die l) .LAN_LANE_FOM_LAST = fomOf e.1 e.2 ∧
    (t.lane die.die l).send = 3 ∧
    (t.lane die.die l).okOut = decide (s.get (atDie die.die) .LAN_FOM_CFG_MIN ≤ fomOf e.1 e.2) ∧ s.keepsRegs [.LAN_LANE_FOM] t ∧
    s.keepsMem t) ∧
  (∀ (die : PDie) (l : Fin 48) (w : List (BitVec 64)) (h : List (BitVec 128)) (e : Nat × Nat) (s : State),
    e = eyeOf (s.pam4 die.die l) w h → s.laneOwn die.die l = true → s.laneSt die.die l = 6 →
    s.portLanes die.die l = [l.val] → s.get (atDie die.die) .LAN_FOM_CFG_MIN ≤ fomOf e.1 e.2 →
    ∃ t, exec (.fomMeasurementDone die l w h) s = .next t ∧ t.laneSt die.die l = 5 ∧
    t.flag (atUnit die.die l) .LAN_LANE_STAT_LOCKED = true ∧ s.keepsRegs laneRegs t ∧ s.keepsMem t) ∧
  (∀ (die : PDie) (l : Fin 48) (w : List (BitVec 64)) (h : List (BitVec 128)) (s : State), s.laneOwn die.die l = false ∨ s.laneSt die.die l = 5 →
    exec (.fomMeasurementDone die l w h) s = .next s)

/-- Chapter 12, test patterns, loopbacks, recovered clocks and raw lanes (R358 to R364).
Model's choices: log entries 35 (DEDUCED), 65 (DEDUCED), 66 (DEDUCED), 245 (DESIGN CHOICE). -/
def Obligations.LaneTestCommandsRun : Prop :=
  (∀ (die : PDie) (l : Fin 48) (pattern : BitVec 3) (s : State), s.laneOwn die.die l = true → s.laneSt die.die l = 5 →
    ∃ t, exec (.prbsGeneratorEnable die l true pattern) s = .next t ∧ t.laneSt die.die l = 8 ∧
    t.flag (atUnit die.die l) .LAN_PRBS_CTRL_GEN_EN = true ∧ t.get (atUnit die.die l) .LAN_PRBS_CTRL_GEN_PAT = pattern.toNat ∧
    s.keepsRegs (.LAN_PRBS_CTRL :: .LAN_PRBS_BITS_HI :: laneRegs) t ∧ s.keepsMem t) ∧
  (∀ (die : PDie) (l : Fin 48) (pattern : BitVec 3) (s : State), s.laneOwn die.die l = true → s.laneSt die.die l = 8 →
    s.get (atUnit die.die l) .LAN_LPBK_MODE = 0 → ∃ t, exec (.prbsGeneratorEnable die l false pattern) s = .next t ∧
    t.laneSt die.die l = (if s.flag (atUnit die.die l) .LAN_LANE_STAT_LOCKED = true then 5 else 6) ∧
    t.flag (atUnit die.die l) .LAN_PRBS_CTRL_GEN_EN = false ∧ s.keepsRegs (.LAN_PRBS_CTRL :: laneRegs) t ∧ s.keepsMem t) ∧
  (∀ (die : PDie) (l : Fin 48) (s : State), s.laneOwn die.die l = true → ∃ t, exec (.prbsSnap die l) s = .next t ∧
    t.get (atUnit die.die l) .LAN_PRBS_ERR_ERRORS = (s.lane die.die l).errs % 2 ^ 32 ∧
    t.get (atUnit die.die l) .LAN_PRBS_BITS_LO_BITS = (s.lane die.die l).bits % 2 ^ 32 ∧
    t.get (atUnit die.die l) .LAN_PRBS_BITS_HI_BITS = (s.lane die.die l).bits / 2 ^ 32 % 2 ^ 16 ∧ t.lanes = s.lanes ∧
    s.keepsRegs [.LAN_PRBS_ERR, .LAN_PRBS_BITS_LO, .LAN_PRBS_BITS_HI] t ∧ s.keepsMem t) ∧
  (∀ (die : PDie) (l : Fin 48) (s : State), s.laneOwn die.die l = true → ∃ t, exec (.prbsClear die l) s = .next t ∧
    t.lane die.die l = { s.lane die.die l with errs := 0, bits := 0, hit := false } ∧ s.keepsRegs [] t ∧ s.keepsMem t) ∧
  (∀ (die : PDie) (l : Fin 48) (bits : BitVec 1024) (bit err : Bool) (s : State), s.laneOwn die.die l = true →
    s.flag (atUnit die.die l) .LAN_PRBS_CTRL_CHK_EN = true → s.flag (atUnit die.die l) .LAN_PRBS_BITS_HI_SYNC = true →
    s.looped die.die l ≠ 1 → s.looped die.die l ≠ 2 → (s.lane die.die l).errs < 2 ^ 32 - 1 → (s.lane die.die l).bits < 2 ^ 48 - 1 →
    bit = (bits.getLsbD 0 != s.flag (atUnit die.die l) .LAN_PRBS_CTRL_INV) →
    err = (bit != prbsNext (s.get (atUnit die.die l) .LAN_PRBS_CTRL_CHK_PAT) (s.lane die.die l).past) →
    ∃ t, exec (.lanPrbsThresh die l bits 1) s = .next t ∧ (t.lane die.die l).errs = (s.lane die.die l).errs + natOf err ∧
    (t.lane die.die l).bits = (s.lane die.die l).bits + 1 ∧
    (s.get (atUnit die.die l) .LAN_PRBS_THRESH_THRESH = (s.lane die.die l).errs + 1 → err = true → (t.lane die.die l).hit = true) ∧
    ((s.lane die.die l).winErrs = 63 → err = true → t.flag (atUnit die.die l) .LAN_PRBS_BITS_HI_SYNC = false ∧
      t.flag (atUnit die.die l) .LAN_PRBS_BITS_HI_SYNC_LOST = true) ∧
    s.keepsRegs (.LAN_PRBS_BITS_HI :: eventRegs) t ∧ s.keepsMem t) ∧
  (∀ (die : PDie) (l : Fin 48) (bits : BitVec 1024) (s : State), s.laneOwn die.die l = true →
    s.flag (atUnit die.die l) .LAN_PRBS_CTRL_CHK_EN = true → s.flag (atUnit die.die l) .LAN_PRBS_BITS_HI_SYNC = false →
    s.looped die.die l ≠ 1 → s.looped die.die l ≠ 2 → (s.lane die.die l).good = 63 → 31 ≤ (s.lane die.die l).past.length →
    ((s.lane die.die l).past.take ((prbsTaps (s.get (atUnit die.die l) .LAN_PRBS_CTRL_CHK_PAT)).foldl Nat.max 0)).any id = true →
    (bits.getLsbD 0 != s.flag (atUnit die.die l) .LAN_PRBS_CTRL_INV) =
      prbsNext (s.get (atUnit die.die l) .LAN_PRBS_CTRL_CHK_PAT) (s.lane die.die l).past →
    ∃ t, exec (.lanPrbsThresh die l bits 1) s = .next t ∧ t.flag (atUnit die.die l) .LAN_PRBS_BITS_HI_SYNC = true ∧
    (t.lane die.die l).errs = (s.lane die.die l).errs ∧ (t.lane die.die l).bits = (s.lane die.die l).bits ∧
    s.keepsRegs [.LAN_PRBS_BITS_HI] t ∧ s.keepsMem t) ∧
  (∀ (die : PDie) (l : Fin 48) (bits : BitVec 1024) (n : Fin 1025) (s : State), s.laneOwn die.die l = true →
    s.flag (atUnit die.die l) .LAN_PRBS_CTRL_CHK_EN = true → s.looped die.die l ≠ 1 → s.looped die.die l ≠ 2 →
    exec (.lanPrbsThresh die l bits n) s = .next (((List.range n.val).map bits.getLsbD).foldl (fun t b => t.prbsBit die.die l b) s)) ∧
  (∀ (die : PDie) (l : Fin 48) (bits : BitVec 1024) (n : Fin 1025) (s : State), s.laneOwn die.die l = false ∨
    s.flag (atUnit die.die l) .LAN_PRBS_CTRL_CHK_EN = false → exec (.lanPrbsThresh die l bits n) s = .next s) ∧
  (∀ (die : PDie) (l : Fin 48) (s : State), s.laneOwn die.die l = true →
    s.flag (atUnit die.die l) .LAN_PRBS_CTRL_CHK_EN = true → s.flag (atUnit die.die l) .LAN_PRBS_BITS_HI_SYNC = false →
    ∃ t, exec (.prbsCheckerSync die l) s = .next t ∧ t.flag (atUnit die.die l) .LAN_PRBS_BITS_HI_SYNC = true ∧ t.lanes = s.lanes ∧
    s.keepsRegs [.LAN_PRBS_BITS_HI] t ∧ s.keepsMem t) ∧
  (∀ (die : PDie) (l : Fin 48) (s : State), s.flag (atUnit die.die l) .LAN_PRBS_BITS_HI_SYNC = true →
    ∃ t, exec (.prbsSyncLost die l) s = .next t ∧ t.flag (atUnit die.die l) .LAN_PRBS_BITS_HI_SYNC = false ∧
    t.flag (atUnit die.die l) .LAN_PRBS_BITS_HI_SYNC_LOST = true ∧ s.keepsRegs [.LAN_PRBS_BITS_HI] t ∧ s.keepsMem t) ∧
  (∀ (die : PDie) (l : Fin 48) (s : State), s.laneOwn die.die l = true →
    s.flag (atUnit die.die l) .LAN_PRBS_CTRL_CHK_EN = true → s.flag (atUnit die.die l) .LAN_PRBS_BITS_HI_SYNC = true →
    (s.lane die.die l).errs < 2 ^ 32 - 1 → (s.lane die.die l).bits < 2 ^ 48 - 1 →
    (∃ t, exec (.prbsCountSaturated die l true) s = .next t ∧ (t.lane die.die l).errs = 2 ^ 32 - 1 ∧
      (t.lane die.die l).bits = (s.lane die.die l).bits ∧ s.keepsRegs eventRegs t ∧ s.keepsMem t) ∧
    (∃ t, exec (.prbsCountSaturated die l false) s = .next t ∧ (t.lane die.die l).bits = 2 ^ 48 - 1 ∧
      (t.lane die.die l).errs = (s.lane die.die l).errs ∧ s.keepsRegs [] t ∧ s.keepsMem t)) ∧
  (∀ (die : PDie) (l : Fin 48) (mode : Fin 4) (mute : Bool) (s : State), s.laneOwn die.die l = true → mode ≠ 0 →
    s.laneSt die.die l = 5 → mode ≠ 3 ∨ s.flag (atUnit die.die l) .LAN_LANE_STAT_LOCKED = true →
    ∃ t, exec (.loopbackSelect die l mode mute) s = .next t ∧ t.laneSt die.die l = 8 ∧
    t.get (atUnit die.die l) .LAN_LPBK_MODE = mode ∧ t.flag (atUnit die.die l) .LAN_LPBK_TX_MUTE = mute ∧
    s.keepsRegs (.LAN_LPBK :: laneRegs) t ∧ s.keepsMem t) ∧
  (∀ (die : PDie) (l : Fin 48) (mode : Fin 4) (mute : Bool) (s : State), s.laneOwn die.die l = true → mode ≠ 0 →
    s.laneSt die.die l ≠ 5 → s.laneSt die.die l ≠ 8 → ∃ t, exec (.loopbackSelect die l mode mute) s = .next t ∧
    t.flag (atUnit die.die l) .LAN_LANE_STAT_CMD_IGNORED = true ∧
    t.get (atUnit die.die l) .LAN_LPBK_MODE = s.get (atUnit die.die l) .LAN_LPBK_MODE ∧ s.keepsRegs [.LAN_LPBK, .LAN_LANE_STAT] t ∧
    s.keepsMem t) ∧
  (∀ (die : PDie) (l : Fin 48) (mode : Fin 4) (mute : Bool) (s : State), s.laneOwn die.die l = true →
    s.laneSt die.die l = 5 ∨ s.laneSt die.die l = 8 → mode = 3 → s.flag (atUnit die.die l) .LAN_LANE_STAT_LOCKED = false →
    ∃ t, exec (.loopbackSelect die l mode mute) s = .next t ∧ t.flag (atUnit die.die l) .LAN_LANE_STAT_CMD_IGNORED = true ∧
    t.get (atUnit die.die l) .LAN_LPBK_MODE = s.get (atUnit die.die l) .LAN_LPBK_MODE ∧ s.keepsRegs [.LAN_LPBK, .LAN_LANE_STAT] t ∧
    s.keepsMem t) ∧
  (∀ (die : PDie) (l : Fin 48) (mute : Bool) (s : State), s.laneOwn die.die l = true → s.laneSt die.die l = 8 →
    s.flag (atUnit die.die l) .LAN_PRBS_CTRL_GEN_EN = false → ∃ t, exec (.loopbackSelect die l 0 mute) s = .next t ∧
    t.laneSt die.die l = (if s.flag (atUnit die.die l) .LAN_LANE_STAT_LOCKED = true then 5 else 6) ∧
    t.get (atUnit die.die l) .LAN_LPBK_MODE = 0 ∧ s.keepsRegs (.LAN_LPBK :: laneRegs) t ∧ s.keepsMem t) ∧
  (∀ (die : PDie) (l : Fin 48) (w : BitVec 128) (s : State), s.rawOn die.die l = true → (s.lane die.die l).rx = [] →
    (s.lane die.die l).tx.length < 64 → ∃ t, exec (.rawWordFromFabric die l (some w)) s = .next t ∧
    (t.lane die.die l).tx = (s.lane die.die l).tx ++ [s.rawWord die.die l w] ∧ s.keepsRegs [] t ∧ s.keepsMem t) ∧
  (∀ (die : PDie) (l : Fin 48) (w : BitVec 128) (rest : List (BitVec 128)) (s : State), s.rawOn die.die l = true →
    (s.lane die.die l).rx = w :: rest → ∃ t, exec (.rawWordFromFabric die l none) s = .next t ∧ (t.lane die.die l).rx = rest ∧
    t.sent = .rawToFabric die.die.idx l w :: s.sent ∧ s.keepsRegs [] t ∧ s.keepsMem t) ∧
  (∀ (die : PDie) (l : Fin 48) (w : BitVec 128) (s : State), s.laneRole die.die l = 3 → s.laneSt die.die l = 5 →
    (s.lane die.die l).rx.length < 64 → ∃ t, exec (.rawWordReceived die l w) s = .next t ∧
    (t.lane die.die l).rx = (s.lane die.die l).rx ++ [s.rawWord die.die l w] ∧ s.keepsRegs [] t ∧ s.keepsMem t) ∧
  (∀ (die : PDie) (l : Fin 48) (w : BitVec 128) (s : State), s.laneRole die.die l = 3 → s.laneSt die.die l = 5 →
    64 ≤ (s.lane die.die l).rx.length → ∃ t, exec (.rawWordReceived die l w) s = .next t ∧ t.lanes = s.lanes ∧
    t.get (atUnit die.die l) .LAN_RAW_CNT_OVERFLOW = satAdd 65535 (s.get (atUnit die.die l) .LAN_RAW_CNT_OVERFLOW) 1 ∧
    s.keepsRegs (.LAN_RAW_CNT :: eventRegs) t ∧ s.keepsMem t) ∧
  (∀ (die : PDie) (l : Fin 48) (w : BitVec 128) (s : State), s.laneRole die.die l = 3 → s.looped die.die l = 3 →
    exec (.rawWordReceived die l w) s = .next (s.rawSend die.die l (s.rawWord die.die l w) false)) ∧
  (∀ (die : PDie) (l : Fin 48) (w : BitVec 128) (rest : List (BitVec 128)) (s : State), s.laneRole die.die l = 3 →
    s.laneSt die.die l = 5 → (s.lane die.die l).tx = w :: rest → ∃ t, exec (.rawFillWord die l) s = .next t ∧
    (t.lane die.die l).tx = rest ∧ t.sent = .rawSent die.die.idx l w false
      (levelsOf (s.pam4 die.die l) (bitsFrom w.toNat (if s.w120 die.die l then 120 else 128))) :: s.sent ∧
    s.keepsRegs [] t ∧ s.keepsMem t) ∧
  (∀ (die : PDie) (l : Fin 48) (s : State), s.laneRole die.die l = 3 → s.laneSt die.die l = 5 → (s.lane die.die l).tx = [] →
    ∃ t, exec (.rawFillWord die l) s = .next t ∧ t.get (atUnit die.die l) .LAN_RAW_CNT_UNDERFLOW =
      satAdd 65535 (s.get (atUnit die.die l) .LAN_RAW_CNT_UNDERFLOW) 1 ∧ t.lanes = s.lanes ∧
    s.keepsRegs (.LAN_RAW_CNT :: eventRegs) t ∧ s.keepsMem t) ∧
  (∀ (die : PDie) (l : Fin 48) (w : BitVec 128) (rest : List (BitVec 128)) (s : State), s.rawOn die.die l = true →
    (s.lane die.die l).tx = w :: rest → s.looped die.die l = 2 ∨
      (s.looped die.die l = 1 ∧ s.flag (atUnit die.die l) .LAN_LPBK_TX_MUTE = true) → exec (.rawFillWord die l) s =
    .next ((s.onLane die.die l fun x => { x with tx := rest }).rawTake die.die l w)) ∧
  (∀ (die : PDie) (l : Fin 48) (w : BitVec 128) (s : State), s.laneRole die.die l = 3 → s.rawOn die.die l = false →
    exec (.rawWordFromFabric die l (some w)) s = .next (s.rawLaunch die.die l none) ∧
    exec (.rawWordFromFabric die l none) s = .next (s.rawLaunch die.die l none) ∧ exec (.rawFillWord die l) s = .next s ∧
    (s.looped die.die l ≠ 3 → exec (.rawWordReceived die l w) s = .next s)) ∧
  (∀ (die : PDie) (l : Fin 48) (w : BitVec 128) (o : Option (BitVec 128)) (s : State), s.laneRole die.die l ≠ 3 →
    exec (.rawWordFromFabric die l o) s = .next s ∧ exec (.rawWordReceived die l w) s = .next s ∧
    exec (.rawFillWord die l) s = .next s) ∧
  (∀ (die : PDie) (l : Fin 48) (pattern : BitVec 3) (en : Bool) (mode : Fin 4) (s : State), s.laneOwn die.die l = false →
    exec (.prbsGeneratorEnable die l en pattern) s = .next s ∧ exec (.prbsSnap die l) s = .next s ∧
    exec (.prbsClear die l) s = .next s ∧ exec (.loopbackSelect die l mode en) s = .next s) ∧
  (∀ (die : PDie) (value : Word) (s : State), value.getLsbD 31 = true → (value.toNat / 2 ^ 16 % 64) < 48 →
    s.flag (atUnit die.die (value.toNat / 2 ^ 16 % 64)) .LAN_LANE_STAT_LOCKED = true →
    s.kbps die.die (value.toNat / 2 ^ 16 % 64) (s.get (atUnit die.die (value.toNat / 2 ^ 16 % 64)) .LAN_LANE_STAT_RATE) ≤
      400000 * Nat.max 1 (value.toNat % 2 ^ 12) → ∃ t, exec (.recoveredClockEnable die 0 value) s = .next t ∧
    t.flag (atDie die.die) .LAN_RCK0_CTRL_EN = true ∧ t.get (atDie die.die) .LAN_RCK0_CTRL_LANE = value.toNat / 2 ^ 16 % 64 ∧
    s.keepsRegs [.LAN_RCK0_CTRL] t ∧ s.keepsMem t) ∧
  (∀ (die : PDie) (value : Word) (s : State), value.getLsbD 31 = true → (value.toNat / 2 ^ 16 % 64) < 48 →
    s.flag (atUnit die.die (value.toNat / 2 ^ 16 % 64)) .LAN_LANE_STAT_LOCKED = false →
    ∃ t, exec (.recoveredClockEnable die 1 value) s = .next t ∧ t.flag (atDie die.die) .LAN_RCK1_CTRL_EN = false ∧
    s.keepsRegs [.LAN_RCK1_CTRL] t ∧ s.keepsMem t)

/-- Chapter 14, the PTP time counter and the pulses (R403 to R405, R415, R416). Each command first counts the time clock up to its
cycle of the stroke, from which on a SET or an ADJ takes effect on the next one; a pulse rises where PTP time counts to a whole second
plus COMP (R415).
Model's choices: log entries 35 (DEDUCED), 74 (DEDUCED), 248 (DESIGN CHOICE). -/
def Obligations.NetworkTimeCommandsRun : Prop :=
  (∀ (cycle : BitVec 13) (s : State), s.get (atDie .e0) .PKT_TOD_SET_NS_NS < 1000000000 → ∃ t, exec (.todSet cycle) s = .next t ∧
    t.tod.sec = s.get (atDie .e0) .PKT_TOD_SET_SEC_LO_SEC + s.get (atDie .e0) .PKT_TOD_SET_SEC_HI_SEC * 2 ^ 32 ∧
    t.tod.sub = s.get (atDie .e0) .PKT_TOD_SET_NS_NS * 2 ^ 28 ∧
    t.get (atDie .e0) .PKT_TOD_CTRL_STEPS = satAdd 65535 (s.get (atDie .e0) .PKT_TOD_CTRL_STEPS) 1 ∧
    t.flag (atDie .e0) .STK_STATUS_LOCKED = false ∧ s.keepsRegs (.PKT_TOD_CTRL :: .STK_STATUS :: eventRegs) t ∧ s.keepsMem t) ∧
  (∀ (cycle : BitVec 13) (s : State), 1000000000 ≤ s.get (atDie .e0) .PKT_TOD_SET_NS_NS → ∃ t, exec (.todSet cycle) s = .next t ∧
    t.flag (atDie .e0) .PKT_TOD_CTRL_OP_REFUSED = true ∧ t.tod = (s.timeTo (cycle.toNat + 1)).tod ∧ s.keepsRegs [.PKT_TOD_CTRL] t ∧
    s.keepsMem t) ∧
  (∀ (cycle : BitVec 13) (s : State), ∃ t, exec (.todAdj cycle) s = .next t ∧
    ((t.tod.sec * secondUnits + t.tod.sub : Nat) : Int) =
      (((s.timeTo (cycle.toNat + 1)).tod.sec * secondUnits + (s.timeTo (cycle.toNat + 1)).tod.sub : Nat) +
        signedOf 32 (s.get (atDie .e0) .PKT_TOD_SET_NS_NS) * (2 ^ 28 : Nat)) % ((2 ^ 48 * secondUnits : Nat) : Int) ∧
    t.tod.sub < secondUnits ∧
    t.get (atDie .e0) .PKT_TOD_CTRL_STEPS = satAdd 65535 (s.get (atDie .e0) .PKT_TOD_CTRL_STEPS) 1 ∧
    t.flag (atDie .e0) .STK_STATUS_LOCKED = false ∧ s.keepsRegs (.PKT_TOD_CTRL :: .STK_STATUS :: eventRegs) t ∧ s.keepsMem t) ∧
  (∀ (value : BitVec 32) (s : State), 0x1E000000 ≤ value.toNat → value.toNat ≤ 0x22000000 →
    ∃ t, exec (.todIncrWrite value) s = .next t ∧ t.get (atDie .e0) .PKT_TOD_INCR_INCR = value.toNat ∧
    s.keepsRegs [.PKT_TOD_INCR] t ∧ s.keepsMem t) ∧
  (∀ (value : BitVec 32) (s : State), value.toNat < 0x1E000000 ∨ 0x22000000 < value.toNat →
    ∃ t, exec (.todIncrWrite value) s = .next t ∧ t.flag (atDie .e0) .PKT_TOD_CTRL_INCR_REFUSED = true ∧
    s.keepsRegs [.PKT_TOD_CTRL] t ∧ s.keepsMem t) ∧
  (∀ (cycle : BitVec 13) (s : State), ∃ t, exec (.todRead cycle false) s = .next t ∧
    t.answer = BitVec.ofNat 32 (s.timeTo cycle.toNat).todNs ∧ t.tod = (s.timeTo cycle.toNat).tod ∧
    t.get (atDie .e0) .PKT_TOD_SEC_LO_SEC = (s.timeTo cycle.toNat).tod.sec % 2 ^ 32 ∧
    s.keepsRegs [.PKT_TOD_SEC_LO, .PKT_TOD_SEC_HI] t ∧ s.keepsMem t) ∧
  (∀ (cycle : BitVec 13) (s : State), ∃ t, exec (.todRead cycle true) s = .next t ∧
    t.answer = BitVec.ofNat 32 (s.timeTo cycle.toNat).todNs ∧ s.keepsRegs [] t ∧ s.keepsMem t) ∧
  (∀ (value : BitVec 32) (s : State), value.getLsbD 31 = true → s.flag (atDie .e0) .CLK_STATUS_COAST = true →
    ∃ t, exec (.ppsEnable value) s = .next t ∧ t.flag (atDie .e0) .PKT_TOD_CTRL_OP_REFUSED = true ∧ t.pins = s.pins ∧
    s.keepsRegs [.PKT_TOD_CTRL] t ∧ s.keepsMem t) ∧
  (∀ (value : BitVec 32) (s : State), value.getLsbD 31 = false ∨ s.flag (atDie .e0) .CLK_STATUS_COAST = false →
    ∃ t, exec (.ppsEnable value) s = .next t ∧ t.reg (atDie .e0) .PKT_PPS_CFG = value ∧
    (value.getLsbD 31 = false → t.pins.ppsOut = false) ∧ (value.getLsbD 31 = true → t.pins = s.pins) ∧
    s.keepsRegs [.PKT_PPS_CFG] t ∧ s.keepsMem t) ∧
  (∀ s : State, s.tod.due = true → s.flag (atDie .e0) .PKT_PPS_CFG_EN = true → s.get (atDie .e0) .CFG_DIE_STAT_STAGE ≠ 0 →
    ∃ t, exec .ppsPulse s = .next t ∧ t.pins = { s.pins with ppsOut := true } ∧
    t.tod = { s.tod with due := false, rise := s.cycles + s.tod.done } ∧ s.keepsRegs [] t ∧ s.keepsMem t) ∧
  (∀ (n : Nat) (s : State), s.tod.due = false → s.clk.locked = true → s.flag (atDie .e0) .PKT_TOD_CTRL_RUN = true →
    s.flag (atDie .e0) .PKT_PPS_CFG_EN = true → s.get (atDie .e0) .CFG_DIE_STAT_STAGE ≠ 0 →
    s.get (atDie .e0) .PKT_TOD_INCR_INCR ≠ 0 →
    n = (secondUnits - s.ppsPhase + s.get (atDie .e0) .PKT_TOD_INCR_INCR - 1) / s.get (atDie .e0) .PKT_TOD_INCR_INCR →
    s.tod.done + n ≤ s.get (atDie .e0) .STK_TIMING_PERIOD →
    ∃ t, exec .ppsPulse s = .next t ∧ t.pins = { s.pins with ppsOut := true } ∧ t.tod.done = s.tod.done + n ∧
    t.tod.rise = s.cycles + s.tod.done + n ∧ t.tod.due = false ∧ t.ppsPhase < s.get (atDie .e0) .PKT_TOD_INCR_INCR ∧
    s.keepsRegs [] t ∧ s.keepsMem t) ∧
  (∀ s : State, s.flag (atDie .e0) .PKT_PPS_CFG_EN = false ∨ s.get (atDie .e0) .CFG_DIE_STAT_STAGE = 0 →
    ∃ t, exec .ppsPulse s = .next t ∧ t.pins = s.pins ∧ s.keepsRegs [] t ∧ s.keepsMem t) ∧
  (∀ s : State, s.tod.due = false → s.flag (atDie .e0) .PKT_TOD_CTRL_RUN = false ∨ s.clk.locked = false ∨
    s.get (atDie .e0) .STK_TIMING_PERIOD < s.tod.done + (secondUnits - s.ppsPhase + s.get (atDie .e0) .PKT_TOD_INCR_INCR - 1) /
      Nat.max 1 (s.get (atDie .e0) .PKT_TOD_INCR_INCR) → exec .ppsPulse s = .next s) ∧
  (∀ s : State, s.tod.rise + s.ppsWidth ≤ s.cycles + s.get (atDie .e0) .STK_TIMING_PERIOD →
    ∃ t, exec .ppsPulseEnd s = .next t ∧ t.pins = { s.pins with ppsOut := false } ∧ s.keepsRegs [] t ∧ s.keepsMem t) ∧
  (∀ s : State, s.cycles + s.get (atDie .e0) .STK_TIMING_PERIOD < s.tod.rise + s.ppsWidth → exec .ppsPulseEnd s = .next s) ∧
  (∀ (cycle : BitVec 13) (low : BitVec 32) (s : State), 100 ≤ low.toNat → ∃ t, exec (.ppsInEdge cycle low) s = .next t ∧
    t.get (atDie .e0) .PKT_PPS_IN_NS_NS = (s.timeTo cycle.toNat).todNs % 2 ^ 32 ∧
    t.flag (atDie .e0) .PKT_PPS_IN_SEC_VALID = true ∧
    t.get (atDie .e0) .PKT_PPS_IN_SEC_SEC = (s.timeTo cycle.toNat).tod.sec % 2 ^ 24 ∧
    s.keepsRegs (.PKT_PPS_IN_NS :: .PKT_PPS_IN_SEC :: eventRegs) t ∧ s.keepsMem t) ∧
  (∀ (cycle : BitVec 13) (low : BitVec 32) (s : State), low.toNat < 100 →
    exec (.ppsInEdge cycle low) s = .next (s.timeTo cycle.toNat))

/-- R405: a read of PKT_TOD_NS returns the nanoseconds of PTP time and copies the seconds and the fraction of the same cycle into
PKT_TOD_SEC_LO and PKT_TOD_SEC_HI (bits [15:0] the upper seconds, bits [23:16] the fraction); a quiet debug read makes no copy. -/
def Obligations.NetworkTimeReadIsOneMoment : Prop :=
  ∀ (cycle : BitVec 13) (s u : State), u = s.timeTo cycle.toNat →
  (∃ t, exec (.todRead cycle false) s = .next t ∧ t.answer = BitVec.ofNat 32 (u.tod.sub / 2 ^ 28) ∧ t.tod = u.tod ∧
    (t.reg (atDie .e0) .PKT_TOD_SEC_LO).toNat = u.tod.sec % 2 ^ 32 ∧
    (t.reg (atDie .e0) .PKT_TOD_SEC_HI).toNat % 2 ^ 16 = u.tod.sec / 2 ^ 32 % 2 ^ 16 ∧
    (t.reg (atDie .e0) .PKT_TOD_SEC_HI).toNat / 2 ^ 16 % 2 ^ 8 = u.tod.sub / 2 ^ 20 % 2 ^ 8 ∧
    s.keepsRegs [.PKT_TOD_SEC_LO, .PKT_TOD_SEC_HI] t ∧ s.keepsMem t) ∧
  (∃ t, exec (.todRead cycle true) s = .next t ∧ t.answer = BitVec.ofNat 32 (u.tod.sub / 2 ^ 28) ∧ t.tod = u.tod ∧
    t.reg (atDie .e0) .PKT_TOD_SEC_LO = s.reg (atDie .e0) .PKT_TOD_SEC_LO ∧
    t.reg (atDie .e0) .PKT_TOD_SEC_HI = s.reg (atDie .e0) .PKT_TOD_SEC_HI ∧ s.keepsRegs [] t ∧ s.keepsMem t)

/-- Chapter 13, the exact-match table's commands (R376, R379 to R383).
Model's choices: log entries 35 (DEDUCED), 69 (DESIGN CHOICE), 70 (DEDUCED), 246 (DESIGN CHOICE). -/
def Obligations.LookupCommandsRun : Prop :=
  (∀ (die : PDie) (key : BitVec 256) (result : BitVec 64) (p : Place) (s : State),
    s.flag (atDie die.die) .PKT_LKP_STAT_BUSY = false → s.findKey die.die (key.toNat % 2 ^ s.keyBits die.die) = none →
    s.placeFor die.die (key.toNat % 2 ^ s.keyBits die.die) = some [p] → ∃ t, exec (.lookupInsert die key result none) s = .next t ∧
    t.lkp = Tbl.set s.lkp (lkpKey die.die p) ⟨key.toNat % 2 ^ s.keyBits die.die, result.toNat, false⟩ ∧
    t.get (atDie die.die) .PKT_LKP_STAT_RESULT = 1 ∧ t.get (atDie die.die) .PKT_LKP_STAT_WAY = p.way % 8 ∧
    t.get (atDie die.die) .PKT_LKP_STAT_INDEX = p.index % 2 ^ 17 ∧
    s.keepsRegs ([.PKT_LKP_STAT, .PKT_LKP_OCC] ++ eccRegs) t ∧ s.keepsMem t) ∧
  (∀ (die : PDie) (key : BitVec 256) (result : BitVec 64) (s : State), s.flag (atDie die.die) .PKT_LKP_STAT_BUSY = false →
    (s.findKey die.die (key.toNat % 2 ^ s.keyBits die.die)).isSome = true →
    ∃ t, exec (.lookupInsert die key result none) s = .next t ∧ t.lkp = s.lkp ∧ t.get (atDie die.die) .PKT_LKP_STAT_RESULT = 4 ∧
    s.keepsRegs (.PKT_LKP_STAT :: eccRegs) t ∧ s.keepsMem t) ∧
  (∀ (die : PDie) (key : BitVec 256) (result : BitVec 64) (s : State), s.flag (atDie die.die) .PKT_LKP_STAT_BUSY = false →
    s.findKey die.die (key.toNat % 2 ^ s.keyBits die.die) = none → s.placeFor die.die (key.toNat % 2 ^ s.keyBits die.die) = none →
    ∃ t, exec (.lookupInsert die key result none) s = .next t ∧ t.lkp = s.lkp ∧ t.get (atDie die.die) .PKT_LKP_STAT_RESULT = 5 ∧
    s.keepsRegs (.PKT_LKP_STAT :: eccRegs) t ∧ s.keepsMem t) ∧
  (∀ (die : PDie) (key : BitVec 256) (p : Place) (s : State), s.flag (atDie die.die) .PKT_LKP_STAT_BUSY = false →
    s.findKey die.die (key.toNat % 2 ^ s.keyBits die.die) = some p → ∃ t, exec (.lookupDelete die key none) s = .next t ∧
    t.lkp = Tbl.erase s.lkp (lkpKey die.die p) ∧ t.get (atDie die.die) .PKT_LKP_STAT_RESULT = 1 ∧
    s.keepsRegs ([.PKT_LKP_STAT, .PKT_LKP_OCC] ++ eccRegs) t ∧ s.keepsMem t) ∧
  (∀ (die : PDie) (key : BitVec 256) (result : BitVec 64) (p : Place) (e : LkpEntry) (s : State),
    s.flag (atDie die.die) .PKT_LKP_STAT_BUSY = false → s.findKey die.die (key.toNat % 2 ^ s.keyBits die.die) = some p →
    s.entryAt die.die p = some e → ∃ t, exec (.lookupModify die key result none) s = .next t ∧
    t.lkp = Tbl.set s.lkp (lkpKey die.die p) ⟨key.toNat % 2 ^ s.keyBits die.die, result.toNat, e.hit⟩ ∧
    t.get (atDie die.die) .PKT_LKP_STAT_RESULT = 1 ∧ s.keepsRegs ([.PKT_LKP_STAT, .PKT_LKP_OCC] ++ eccRegs) t ∧ s.keepsMem t) ∧
  (∀ (die : PDie) (key : BitVec 256) (result : BitVec 64) (s : State), s.flag (atDie die.die) .PKT_LKP_STAT_BUSY = false →
    s.findKey die.die (key.toNat % 2 ^ s.keyBits die.die) = none →
    ∃ t, exec (.lookupDelete die key none) s = .next t ∧ exec (.lookupModify die key result none) s = .next t ∧
    exec (.lookupRead die key) s = .next t ∧ t.lkp = s.lkp ∧ t.get (atDie die.die) .PKT_LKP_STAT_RESULT = 3 ∧
    s.keepsRegs (.PKT_LKP_STAT :: eccRegs) t ∧ s.keepsMem t) ∧
  (∀ (die : PDie) (key : BitVec 256) (result : BitVec 64) (s : State), s.flag (atDie die.die) .PKT_LKP_STAT_BUSY = false →
    ∃ t, exec (.lookupInsert die key result (some 0)) s = .next t ∧ exec (.lookupDelete die key (some 0)) s = .next t ∧
    exec (.lookupModify die key result (some 0)) s = .next t ∧ t.get (atDie die.die) .PKT_LKP_STAT_RESULT = 2 ∧ t.lkp = s.lkp ∧
    s.keepsRegs [.PKT_LKP_STAT] t ∧ s.keepsMem t) ∧
  (∀ (die : PDie) (key : BitVec 256) (p : Place) (e : LkpEntry) (s : State), s.flag (atDie die.die) .PKT_LKP_STAT_BUSY = false →
    s.findKey die.die (key.toNat % 2 ^ s.keyBits die.die) = some p → s.entryAt die.die p = some e →
    ∃ t, exec (.lookupRead die key) s = .next t ∧ t.get (atDie die.die) .PKT_LKP_RES_LO_RESULT = e.result % 2 ^ 32 ∧
    t.get (atDie die.die) .PKT_LKP_RES_HI_RESULT = e.result / 2 ^ 32 % 2 ^ 32 ∧
    t.flag (atDie die.die) .PKT_LKP_STAT_HIT = e.hit ∧ t.get (atDie die.die) .PKT_LKP_STAT_RESULT = 1 ∧ t.lkp = s.lkp ∧
    s.keepsRegs ([.PKT_LKP_STAT, .PKT_LKP_RES_LO, .PKT_LKP_RES_HI] ++ eccRegs) t ∧ s.keepsMem t) ∧
  (∀ (die : PDie) (way : BitVec 3) (index : BitVec 17) (e : LkpEntry) (s : State),
    s.flag (atDie die.die) .PKT_LKP_STAT_BUSY = false →
    (way.toNat < 4 ∧ index.toNat < 65536) ∨ (way.toNat = 4 ∧ index.toNat < 1024) → s.entryAt die.die ⟨way.toNat, index.toNat⟩ = some e → ∃ t, exec (.lookupReadAt die way index) s = .next t ∧
    t.get (atDie die.die) .PKT_LKP_RES_LO_RESULT = e.result % 2 ^ 32 ∧
    t.get (atElem die.die 0) .PKT_LKP_KEY_KEY = e.key % 2 ^ 32 ∧ t.get (atDie die.die) .PKT_LKP_STAT_RESULT = 1 ∧ t.lkp = s.lkp ∧
    s.keepsRegs ([.PKT_LKP_STAT, .PKT_LKP_RES_LO, .PKT_LKP_RES_HI, .PKT_LKP_KEY] ++ eccRegs) t ∧ s.keepsMem t) ∧
  (∀ (die : PDie) (way : BitVec 3) (index : BitVec 17) (s : State), s.flag (atDie die.die) .PKT_LKP_STAT_BUSY = false →
    s.entryAt die.die ⟨way.toNat, index.toNat⟩ = none ∨ (way.toNat < 4 ∧ 65536 ≤ index.toNat) ∨
    (way.toNat = 4 ∧ 1024 ≤ index.toNat) ∨ 4 < way.toNat → ∃ t, exec (.lookupReadAt die way index) s = .next t ∧
    t.get (atDie die.die) .PKT_LKP_STAT_RESULT = 3 ∧ t.lkp = s.lkp ∧ s.keepsRegs (.PKT_LKP_STAT :: eccRegs) t ∧ s.keepsMem t) ∧
  (∀ (die : PDie) (s : State), s.flag (atDie die.die) .PKT_LKP_STAT_BUSY = false → ∃ t, exec (.lookupClearHits die) s = .next t ∧
    t.lkp = s.lkp.map (fun e => if e.1 / 2 ^ 19 = die.die.idx then (e.1, { e.2 with hit := false }) else e) ∧
    t.get (atDie die.die) .PKT_LKP_STAT_RESULT = 1 ∧ s.keepsRegs [.PKT_LKP_STAT] t ∧ s.keepsMem t) ∧
  (∀ (die : PDie) (s : State), s.flag (atDie die.die) .PKT_LKP_STAT_BUSY = false →
    s.get (atDie die.die) .PKT_LKP_BULK_CNT_COUNT ≠ 0 → ∃ t, exec (.lookupBulk die) s = .next t ∧
    t.flag (atDie die.die) .PKT_LKP_STAT_BUSY = true ∧ t.get (atDie die.die) .PKT_LKP_DONE_DONE_CNT = 0 ∧
    s.keepsRegs [.PKT_LKP_STAT, .PKT_LKP_DONE] t ∧ s.keepsMem t) ∧
  (∀ (die : PDie) (s : State), s.flag (atDie die.die) .PKT_LKP_STAT_BUSY = false →
    s.get (atDie die.die) .PKT_LKP_BULK_CNT_COUNT = 0 → ∃ t, exec (.lookupBulk die) s = .next t ∧
    t.flag (atDie die.die) .PKT_LKP_STAT_BUSY = false ∧ t.get (atDie die.die) .PKT_LKP_STAT_RESULT = 1 ∧
    s.keepsRegs ([.PKT_LKP_STAT, .PKT_LKP_DONE] ++ eventRegs) t ∧ s.keepsMem t) ∧
  (∀ (die : PDie) (key : BitVec 256) (result : BitVec 64) (a : Option (Fin 5)) (b : Option (Fin 2)) (way : BitVec 3)
    (index : BitVec 17) (s : State), s.flag (atDie die.die) .PKT_LKP_STAT_BUSY = true →
    ∃ t, exec (.lookupInsert die key result a) s = .next t ∧ exec (.lookupDelete die key b) s = .next t ∧
    exec (.lookupModify die key result b) s = .next t ∧ exec (.lookupRead die key) s = .next t ∧
    exec (.lookupReadAt die way index) s = .next t ∧ exec (.lookupClearHits die) s = .next t ∧
    exec (.lookupBulk die) s = .next t ∧ t.flag (atDie die.die) .PKT_LKP_STAT_CMD_IGNORED = true ∧ t.lkp = s.lkp ∧
    s.keepsRegs [.PKT_LKP_STAT] t ∧ s.keepsMem t) ∧
  (∀ (die : PDie) (status : BitVec 4) (record : BitVec 512) (v : Nat) (p : Place) (s u : State),
    s.flag (atDie die.die) .PKT_LKP_STAT_BUSY = true →
    s.bulkRead die.die (s.get (atDie die.die) .PKT_LKP_DONE_DONE_CNT) status.toNat record.toNat = (u, 0, v) → v / 2 ^ 320 % 256 = 2 →
    u.findKey die.die (v % 2 ^ 256 % 2 ^ u.keyBits die.die) = some p →
    s.get (atDie die.die) .PKT_LKP_DONE_DONE_CNT + 1 < s.get (atDie die.die) .PKT_LKP_BULK_CNT_COUNT →
    ∃ t, exec (.bulkRecord die status record none) s = .next t ∧ t.lkp = Tbl.erase u.lkp (lkpKey die.die p) ∧
    t.get (atDie die.die) .PKT_LKP_DONE_DONE_CNT = s.get (atDie die.die) .PKT_LKP_DONE_DONE_CNT + 1 ∧
    t.flag (atDie die.die) .PKT_LKP_STAT_BUSY = u.flag (atDie die.die) .PKT_LKP_STAT_BUSY ∧
    u.keepsRegs ([.PKT_LKP_STAT, .PKT_LKP_OCC, .PKT_LKP_DONE] ++ eccRegs) t ∧ u.keepsMem t) ∧
  (∀ (die : PDie) (status : BitVec 4) (record : BitVec 512) (s : State), s.flag (atDie die.die) .PKT_LKP_STAT_BUSY = true →
    status ≠ 0 → ∃ t, exec (.bulkRecord die status record none) s = .next t ∧ t.lkp = s.lkp ∧
    t.flag (atDie die.die) .PKT_LKP_STAT_BUSY = false ∧ t.get (atDie die.die) .PKT_LKP_STAT_RESULT = 7 ∧
    s.keepsRegs (.PKT_LKP_STAT :: .NOC_FENCE_CNT :: eventRegs) t ∧ s.keepsMem t) ∧
  (∀ (die : PDie) (status : BitVec 4) (record : BitVec 512) (s : State), s.flag (atDie die.die) .PKT_LKP_STAT_BUSY = true →
    ∃ t, exec (.bulkRecord die status record (some 0)) s = .next t ∧ t.lkp = s.lkp ∧
    t.flag (atDie die.die) .PKT_LKP_STAT_BUSY = false ∧ t.get (atDie die.die) .PKT_LKP_STAT_RESULT = 2 ∧
    s.keepsRegs (.PKT_LKP_STAT :: eventRegs) t ∧ s.keepsMem t) ∧
  (∀ (die : PDie) (s : State), s.flag (atDie die.die) .PKT_LKP_STAT_BUSY = true → ∃ t, exec (.lookupAbort die) s = .next t ∧
    t.flag (atDie die.die) .PKT_LKP_STAT_BUSY = false ∧ t.get (atDie die.die) .PKT_LKP_STAT_RESULT = 2 ∧ t.lkp = s.lkp ∧
    s.keepsRegs (.PKT_LKP_STAT :: eventRegs) t ∧ s.keepsMem t) ∧
  (∀ (die : PDie) (status : BitVec 4) (record : BitVec 512) (abort : Option (Fin 5)) (s : State),
    s.flag (atDie die.die) .PKT_LKP_STAT_BUSY = false → exec (.lookupAbort die) s = .next s ∧
    exec (.bulkRecord die status record abort) s = .next s) ∧
  (∀ (die : PDie) (entry : Fin 1024) (e : LkpEntry) (q : Place) (s : State), s.entryAt die.die ⟨4, entry⟩ = some e →
    ((s.buckets die.die e.key).find? fun q => s.emptyAt die.die q) = some q → ∃ t, exec (.stashMoveBack die entry) s = .next t ∧
    t.lkp = Tbl.erase (Tbl.set s.lkp (lkpKey die.die q) e) (lkpKey die.die ⟨4, entry⟩) ∧
    s.keepsRegs (.PKT_LKP_OCC :: eccRegs) t ∧ s.keepsMem t) ∧
  (∀ (die : PDie) (entry : Fin 1024) (s : State), s.entryAt die.die ⟨4, entry⟩ = none →
    exec (.stashMoveBack die entry) s = .next s)

/-- Chapter 13, flow control, preemption and frames at a port (R366 to R372, R391, R396, R399).
Model's choices: log entries 35 (DEDUCED), 67 (DEDUCED), 71 (DEDUCED), 76 (DEDUCED), 84 (DESIGN CHOICE), 246 (DESIGN CHOICE),
247 (DESIGN CHOICE), 253 (DESIGN CHOICE). -/
def Obligations.PacketPortCommandsRun : Prop :=
  (∀ (die : PDie) (port : Fin 48) (prio : Fin 8) (s : State), s.bit (atUnit die.die port) .PKT_PORT_STAT_TX_XOFF prio = true →
    ∃ t, exec (.pfcRepeat die port prio) s = .next t ∧ (t.sent = .pfc die.die.idx port prio 0xFFFF :: s.sent ∨
      (s.preempts die.die port = true ∧ (s.port die.die port).line ≠ 0 ∧
        ∃ cut, t.sent = .pfc die.die.idx port prio 0xFFFF :: .fragment die.die.idx port cut :: s.sent)) ∧ s.keepsRegs [] t ∧
    s.keepsMem t) ∧
  (∀ (die : PDie) (port : Fin 48) (prio : Fin 8) (s : State), s.bit (atUnit die.die port) .PKT_PORT_STAT_TX_XOFF prio = false →
    exec (.pfcRepeat die port prio) s = .next s) ∧
  (∀ (die : PDie) (port : Fin 48) (mask : BitVec 8) (times : BitVec 128) (s : State), s.portLink die.die port = true →
    ∃ t, exec (.pfcFrameReceived die port mask times) s = .next t ∧
    (∀ g : Fin 8, t.bit (atUnit die.die port) .PKT_PORT_STAT_RX_PAUSED g = if mask.getLsbD g = true then
      decide (times.toNat / 2 ^ (16 * g.val) % 2 ^ 16 ≠ 0) else s.bit (atUnit die.die port) .PKT_PORT_STAT_RX_PAUSED g) ∧
    s.keepsRegs [.PKT_PORT_STAT] t ∧ s.keepsMem t) ∧
  (∀ (die : PDie) (port : Fin 48) (time : BitVec 16) (s : State), s.portLink die.die port = true →
    s.flag (atUnit die.die port) .PKT_PORT_CFG_PAUSE_EN = true → ∃ t, exec (.pauseFrameReceived die port time) s = .next t ∧
    (∀ g : Fin 8, t.bit (atUnit die.die port) .PKT_PORT_STAT_RX_PAUSED g = decide (time ≠ 0)) ∧ s.keepsRegs [.PKT_PORT_STAT] t ∧
    s.keepsMem t) ∧
  (∀ (die : PDie) (port : Fin 48) (mask : BitVec 8) (times : BitVec 128) (time : BitVec 16) (s : State),
    s.portLink die.die port = false → exec (.pfcFrameReceived die port mask times) s = .next s ∧
    exec (.pauseFrameReceived die port time) s = .next s) ∧
  (∀ (die : PDie) (port : Fin 48) (g : Fin 8) (s : State), ∃ t, exec (.pauseTimeExpiry die port g) s = .next t ∧
    t.bit (atUnit die.die port) .PKT_PORT_STAT_RX_PAUSED g = false ∧ s.keepsRegs [.PKT_PORT_STAT] t ∧ s.keepsMem t) ∧
  (∀ (die : PDie) (port : Fin 48) (works : Bool) (s : State), s.portLink die.die port = true →
    s.flag (atUnit die.die port) .PKT_PORT_CFG_PREEMPT_EN = true → s.flag (atUnit die.die port) .PKT_PORT_CFG_VERIFY_EN = true →
    ∃ t, exec (.macMergeVerify die port works) s = .next t ∧ (t.port die.die port).verified = works ∧
    (works = false → t.flag (atUnit die.die port) .PKT_PORT_STAT_VERIFY_FAIL = true) ∧
    s.keepsRegs (.PKT_PORT_STAT :: eventRegs) t ∧ s.keepsMem t) ∧
  (∀ (die : PDie) (port : Fin 48) (works : Bool) (s : State), s.portLink die.die port = false ∨
    s.flag (atUnit die.die port) .PKT_PORT_CFG_PREEMPT_EN = false ∨ s.flag (atUnit die.die port) .PKT_PORT_CFG_VERIFY_EN = false →
    exec (.macMergeVerify die port works) s = .next s) ∧
  (∀ (die : PDie) (port : Fin 48) (bytes : List Byte) (cycle : BitVec 13) (frac : BitVec 10) (fec : Fin 3) (rate : Bool) (s : State),
    s.portUsed die.die port = false ∨ s.gated die.die (port.val / 4) = false →
    s.portLink die.die port = false ∨ s.flag (atUnit die.die port) .PKT_PORT_CFG_EN = false →
    exec (.frameReceived die port bytes cycle frac fec rate) s = .next (s.timeTo cycle.toNat)) ∧
  (∀ (die : PDie) (port : Fin 48) (bytes : List Byte) (cycle : BitVec 13) (frac : BitVec 10) (fec : Fin 3) (rate : Bool) (s : State),
    (s.portUsed die.die port = true ∧ s.gated die.die (port.val / 4) = true) ∨
    (s.portLink die.die port = true ∧ s.flag (atUnit die.die port) .PKT_PORT_CFG_EN = true ∧ bytes.length < 64) ∨
    (s.portLink die.die port = true ∧ s.flag (atUnit die.die port) .PKT_PORT_CFG_EN = true ∧ 64 ≤ bytes.length ∧
      (s.maxLen die.die port < bytes.length ∨ fcsOk (bytes.map BitVec.toNat) = false) ∧
      (∀ r, (s.timeTo cycle.toNat).cutThrough die.die port r = false)) →
    exec (.frameReceived die port bytes cycle frac fec rate) s = .next ((s.timeTo cycle.toNat).macDrop die.die port)) ∧
  (∀ (die : PDie) (port : Fin 48) (bytes : List Byte) (cycle : BitVec 13) (frac : BitVec 10) (fec : Fin 3) (rate : Bool) (s : State),
    s.portLink die.die port = true → s.flag (atUnit die.die port) .PKT_PORT_CFG_EN = true → 64 ≤ bytes.length →
    bytes.length ≤ s.maxLen die.die port → fcsOk (bytes.map BitVec.toNat) = true →
    exec (.frameReceived die port bytes cycle frac fec rate) s =
    .next (let l := bytes.map BitVec.toNat
      let u := s.timeTo cycle.toNat
      let prio := u.ingressPrio die.die port l (parseFrame l)
      let r := u.frameResult die.die (u.get (atUnit die.die port) .PKT_PORT_CFG_PROFILE) port prio l
      let stamp := u.stampAt die.die port (u.portFec die.die port fec) frac.toNat false
      ((r.1.pmcItems die.die 0x251 port 1).bwCount die.die 4 port bytes.length 1).frameOn die.die r.2
        ⟨l, die.die.idx, port, true, prio, bitsOf r.2 24 16, t32 stamp.1, stamp.2, 0, 0, 0, false, []⟩ (u.cutThrough die.die port r.2)
        rate)) ∧
  (∀ (die : PDie) (rate : Bool) (f : QFrame) (q st : Nat) (rest : List (QFrame × Nat)) (s u v : State),
    (s.engine die.die).moves = (f, q) :: rest → s.up (Die.ofIdx (1 - die.die.idx)) = true →
    s.moveWrite die.die (Die.ofIdx (1 - die.die.idx)) q f = (u, st) →
    v = ((u.onEngine die.die fun e => { e with moves := rest }).bufSync die.die).xon die.die f → exec (.crossDieMove die rate) s =
    .next (if st = 0 then v.offer (Die.ofIdx (1 - die.die.idx)) q f (cellsOf f.bytes.length) rate
      else v.bump (atDie die.die) .PKT_XDIE_DROP_COUNT 1)) ∧
  (∀ (die : PDie) (rate : Bool) (f : QFrame) (q : Nat) (rest : List (QFrame × Nat)) (s : State),
    (s.engine die.die).moves = (f, q) :: rest → s.up (Die.ofIdx (1 - die.die.idx)) = false → exec (.crossDieMove die rate) s =
    .next ((((s.onEngine die.die fun e => { e with moves := rest }).bufSync die.die).xon die.die f).bump (atDie die.die)
      .PKT_XDIE_DROP_COUNT 1)) ∧
  (∀ (die : PDie) (rate : Bool) (s : State), (s.engine die.die).moves = [] → exec (.crossDieMove die rate) s = .next s) ∧
  (∀ (die : PDie) (port : Fin 48) (cycle : BitVec 13) (frac : BitVec 10) (fec : Fin 3) (bad : Bool) (n : BitVec 14) (s : State),
    s.portLink die.die port = true → s.flag (atUnit die.die port) .PKT_PORT_CFG_EN = true →
    exec (.frameTransmit die port none cycle frac fec bad) s =
      .next ((s.timeTo cycle.toNat).transmit die.die port fec frac.toNat bad) ∧
    exec (.frameTransmit die port (some n) cycle frac fec bad) s =
      .next ((s.timeTo cycle.toNat).preempt die.die port fec frac.toNat n.toNat bad)) ∧
  (∀ (die : PDie) (port : Fin 48) (after : Option (BitVec 14)) (cycle : BitVec 13) (frac : BitVec 10) (fec : Fin 3) (bad : Bool)
    (s : State), s.portLink die.die port = false ∨ s.flag (atUnit die.die port) .PKT_PORT_CFG_EN = false →
    exec (.frameTransmit die port after cycle frac fec bad) s = .next (s.timeTo cycle.toNat))

/-- Chapter 13, queues, pools, flushes and delivery rings (R384, R389, R390, R395, R397).
Model's choices: log entries 35 (DEDUCED), 73 (DEDUCED), 78 (DEDUCED), 246 (DESIGN CHOICE), 253 (DESIGN CHOICE). -/
def Obligations.PacketQueueCommandsRun : Prop :=
  (∀ (die : PDie) (queue : BitVec 16) (value : BitVec 32) (s : State), s.flag (atSel die.die queue.toNat) .PKT_Q_CFG_EN = true →
    value.getLsbD 31 = true → exec (.queueConfigWrite die queue value) s = .next s) ∧
  (∀ (die : PDie) (queue : BitVec 16) (value : BitVec 32) (s : State), s.flag (atSel die.die queue.toNat) .PKT_Q_CFG_EN = false →
    value.toNat / 2 ^ 29 % 4 = 0 → 48 ≤ value.toNat % 2 ^ 12 → ∃ t, exec (.queueConfigWrite die queue value) s = .next t ∧
    t.flag (atDie die.die) .PKT_SCHED_STAT_CFG_REFUSED = true ∧
    t.reg (atSel die.die queue.toNat) .PKT_Q_CFG = s.reg (atSel die.die queue.toNat) .PKT_Q_CFG ∧ s.keepsRegs [.PKT_SCHED_STAT] t ∧
    s.keepsMem t) ∧
  (∀ (die : PDie) (queue : BitVec 16) (value : BitVec 32) (s : State), value.getLsbD 31 = false →
    value.toNat / 2 ^ 29 % 4 = 1 → 65536 ≤ (s.writeReg (atSel die.die queue.toNat) .PKT_Q_CFG value).sharedSize die.die →
    ∃ t, exec (.queueConfigWrite die queue value) s = .next t ∧ t.flag (atSel die.die queue.toNat) .PKT_Q_CFG_EN = false ∧
    t.get (atSel die.die queue.toNat) .PKT_Q_CFG_DEST = value.toNat % 2 ^ 12 ∧
    s.keepsRegs [.PKT_Q_CFG, .PKT_BUF_SHARED, .PKT_BUF_STAT] t ∧ s.keepsMem t) ∧
  (∀ (die : PDie) (q : BitVec 16) (p : Fin 48) (value : BitVec 32) (s : State),
    (65536 ≤ (s.writeReg (atSel die.die q.toNat) .PKT_Q_MIN value).sharedSize die.die →
      ∃ t, exec (.bufferPoolWrite die (.min q) value) s = .next t ∧
      t.get (atSel die.die q.toNat) .PKT_Q_MIN_MIN = value.toNat % 2 ^ 16 ∧
      s.keepsRegs [.PKT_Q_MIN, .PKT_BUF_SHARED, .PKT_BUF_STAT] t ∧ s.keepsMem t) ∧
    (65536 ≤ (s.writeReg (atUnit die.die p) .PKT_PORT_HDRM value).sharedSize die.die →
      ∃ t, exec (.bufferPoolWrite die (.hdrm p) value) s = .next t ∧
      t.get (atUnit die.die p) .PKT_PORT_HDRM_HDRM = value.toNat % 2 ^ 16 ∧
      s.keepsRegs [.PKT_PORT_HDRM, .PKT_BUF_SHARED, .PKT_BUF_STAT] t ∧ s.keepsMem t)) ∧
  (∀ (die : PDie) (q : BitVec 16) (value : BitVec 32) (s : State),
    (s.writeReg (atSel die.die q.toNat) .PKT_Q_MIN value).sharedSize die.die < 65536 →
    ∃ t, exec (.bufferPoolWrite die (.min q) value) s = .next t ∧ t.flag (atDie die.die) .PKT_BUF_STAT_CFG_REFUSED = true ∧
    s.keepsRegs [.PKT_BUF_STAT] t ∧ s.keepsMem t) ∧
  (∀ (die : PDie) (queue : BitVec 16) (s : State), s.flag (atDie die.die) .PKT_Q_FLUSH_STAT_BUSY = false →
    (s.queue die.die queue.toNat).frames ≠ [] → ∃ t, exec (.queueFlush die queue) s = .next t ∧
    t.flag (atDie die.die) .PKT_Q_FLUSH_STAT_BUSY = true ∧ t.get (atDie die.die) .PKT_Q_FLUSH_STAT_QUEUE = queue.toNat ∧
    s.keepsRegs [.PKT_Q_FLUSH_STAT] t ∧ s.keepsMem t) ∧
  (∀ (die : PDie) (queue : BitVec 16) (s : State), s.flag (atDie die.die) .PKT_Q_FLUSH_STAT_BUSY = false →
    (s.queue die.die queue.toNat).frames = [] → ∃ t, exec (.queueFlush die queue) s = .next t ∧
    t.flag (atDie die.die) .PKT_Q_FLUSH_STAT_BUSY = false ∧ t.get (atDie die.die) .PKT_Q_FLUSH_STAT_RESULT = 1 ∧
    s.keepsRegs (.PKT_Q_FLUSH_STAT :: eventRegs) t ∧ s.keepsMem t) ∧
  (∀ (die : PDie) (queue : BitVec 16) (s : State), s.flag (atDie die.die) .PKT_Q_FLUSH_STAT_BUSY = true →
    ∃ t, exec (.queueFlush die queue) s = .next t ∧ t.flag (atDie die.die) .PKT_Q_FLUSH_STAT_CMD_IGNORED = true ∧
    s.keepsRegs [.PKT_Q_FLUSH_STAT] t ∧ s.keepsMem t) ∧
  (∀ (die : PDie) (abort : Bool) (s : State), s.flag (atDie die.die) .PKT_Q_FLUSH_STAT_BUSY = true →
    exec (.queueFlushDone die abort) s = .next ((s.discard die.die (s.get (atDie die.die) .PKT_Q_FLUSH_STAT_QUEUE)
      (s.queue die.die (s.get (atDie die.die) .PKT_Q_FLUSH_STAT_QUEUE)).frames.length).flushEnd die.die 1 abort)) ∧
  (∀ (die : PDie) (gone : BitVec 24) (s : State), s.flag (atDie die.die) .PKT_Q_FLUSH_STAT_BUSY = true →
    gone.toNat < (s.queue die.die (s.get (atDie die.die) .PKT_Q_FLUSH_STAT_QUEUE)).frames.length →
    exec (.queueFlushAbort die gone) s =
    .next ((s.discard die.die (s.get (atDie die.die) .PKT_Q_FLUSH_STAT_QUEUE) gone.toNat).flushEnd die.die 2 false)) ∧
  (∀ (die : PDie) (abort : Bool) (gone : BitVec 24) (s : State), s.flag (atDie die.die) .PKT_Q_FLUSH_STAT_BUSY = false →
    exec (.queueFlushDone die abort) s = .next s ∧ exec (.queueFlushAbort die gone) s = .next s) ∧
  (∀ (die : PDie) (ring : BitVec 10) (queue : BitVec 16) (answers : List (BitVec 4)) (bad : Bool) (s : State),
    (s.queue die.die queue.toNat).frames = [] ∨ s.get (atSel die.die queue.toNat) .PKT_Q_CFG_DTYPE ≠ 1 ∨
    s.get (atSel die.die queue.toNat) .PKT_Q_CFG_DEST ≠ ring.toNat ∨
    s.flag (atSel die.die ring.toNat) .PKT_DRING_CFG_EN = false → exec (.deliveryRingFrame die ring queue answers bad) s = .next s) ∧
  (∀ (die : PDie) (ring : BitVec 10) (queue : BitVec 16) (answers : List (BitVec 4)) (f : QFrame) (rest : List QFrame)
    (lg n head base : Nat) (sts : List Nat) (s u : State), (s.queue die.die queue.toNat).frames = f :: rest → f.pool ≠ 2 →
    s.get (atSel die.die queue.toNat) .PKT_Q_CFG_DTYPE = 1 →
    s.get (atSel die.die queue.toNat) .PKT_Q_CFG_DEST = ring.toNat → s.flag (atSel die.die ring.toNat) .PKT_DRING_CFG_EN = true →
    s.flag (atSel die.die ring.toNat) .PKT_DRING_CFG_FORMAT = false → s.flushes die.die queue.toNat = false →
    s.get (atSel die.die ring.toNat) .PKT_DRING_CFG_LOG2_SIZE = lg → 6 ≤ lg → lg ≤ 20 →
    s.get (atSel die.die ring.toNat) .PKT_DRING_HEAD_LINE = head →
    base = s.get (atSel die.die ring.toNat) .PKT_DRING_BASE_LO_BASE + s.get (atSel die.die ring.toNat) .PKT_DRING_BASE_HI_BASE * 2 ^ 32 →
    n = (64 + f.bytes.length + 63) / 64 →
    n ≤ (s.get (atSel die.die ring.toNat) .PKT_DRING_TAIL_LINE + 2 * 2 ^ lg - head - 1) % 2 ^ lg →
    s.ringLines die.die ring.toNat base (2 ^ lg) head
      (pieces 64 400 (deliveryDescriptor f queue.toNat (Tbl.get 0 (s.engine die.die).seqs ring.toNat) ++ f.bytes))
      (answers.map BitVec.toNat) = (u, sts) → (∀ x ∈ sts, x = 0) →
    ∃ t, exec (.deliveryRingFrame die ring queue answers false) s = .next t ∧
    (t.queue die.die queue.toNat).frames = (u.queue die.die queue.toNat).frames.tail ∧
    t.get (atSel die.die ring.toNat) .PKT_DRING_HEAD_LINE = (head + n) % 2 ^ lg ∧
    Tbl.get 0 (t.engine die.die).seqs ring.toNat = (Tbl.get 0 (s.engine die.die).seqs ring.toNat + 1) % 2 ^ 32 ∧
    u.keepsRegs [.PKT_Q_STAT, .PKT_BUF_SHARED, .PKT_BUF_STAT, .PKT_PORT_STAT, .PKT_DRING_HEAD] t ∧ u.keepsMem t) ∧
  (∀ (die : PDie) (ring : BitVec 10) (queue : BitVec 16) (answers : List (BitVec 4)) (f : QFrame) (rest : List QFrame) (s : State),
    (s.queue die.die queue.toNat).frames = f :: rest → f.pool ≠ 2 → s.get (atSel die.die queue.toNat) .PKT_Q_CFG_DTYPE = 1 →
    s.get (atSel die.die queue.toNat) .PKT_Q_CFG_DEST = ring.toNat → s.flag (atSel die.die ring.toNat) .PKT_DRING_CFG_EN = true →
    s.flag (atSel die.die ring.toNat) .PKT_DRING_CFG_FORMAT = false → s.flushes die.die queue.toNat = false →
    s.get (atSel die.die ring.toNat) .PKT_DRING_CFG_LOG2_SIZE = 6 →
    (64 + f.bytes.length + 63) / 64 ≤ (s.get (atSel die.die ring.toNat) .PKT_DRING_TAIL_LINE + 128 -
      s.get (atSel die.die ring.toNat) .PKT_DRING_HEAD_LINE - 1) % 64 →
    ∃ t, exec (.deliveryRingFrame die ring queue answers true) s = .next t ∧ (t.queue die.die queue.toNat).frames = rest ∧
    t.get (atSel die.die ring.toNat) .PKT_DRING_CNT_ERR = satAdd 65535 (s.get (atSel die.die ring.toNat) .PKT_DRING_CNT_ERR) 1 ∧
    t.get (atSel die.die ring.toNat) .PKT_DRING_HEAD_LINE = s.get (atSel die.die ring.toNat) .PKT_DRING_HEAD_LINE) ∧
  (∀ (die : PDie) (ring : BitVec 10) (queue : BitVec 16) (answers : List (BitVec 4)) (bad : Bool) (s : State),
    exec (.deliveryRingFrame die ring queue answers bad) s =
    .next (s.ringFrame die.die ring.toNat queue.toNat (answers.map BitVec.toNat) bad)) ∧
  (∀ (die : PDie) (ring : BitVec 10) (line : BitVec 20) (s : State), ∃ t, exec (.deliveryRingTailWrite die ring line) s = .next t ∧
    t.get (atSel die.die ring.toNat) .PKT_DRING_TAIL_LINE = line.toNat ∧ s.keepsRegs [.PKT_DRING_TAIL] t ∧ s.keepsMem t)

/-- Chapter 16, CXL ports (R435 to R445): presence and link, memory, CXL.io, the device's answers, and the ways a port leaves ACTIVE.
Model's choices: log entries 35 (DEDUCED), 94 (DEDUCED), 95 (DEDUCED), 96 (DEDUCED). -/
def Obligations.CxlPortCommandsRun : Prop :=
  (∀ (p : Fin 4) (s : State), s.cxlRole p = true → s.laneSt (homeDie p) (p % 2 * 8) = 11 →
    ∃ t, exec (.cxlPartnerDetect p) s = .next t ∧ t.flag (cxlAt p) .MEM_CXL_STAT_PRESENT = true ∧
    t.cxlSt p = (if s.cxlSt p = 0 ∧ s.flag (cxlAt p) .MEM_CXL_STAT_TX_SAFE = false then 1 else s.cxlSt p) ∧
    s.keepsRegs (.MEM_CXL_STAT :: eventRegs) t ∧ s.keepsMem t) ∧
  (∀ (p : Fin 4) (s : State), s.cxlRole p = false ∨ s.laneSt (homeDie p) (p % 2 * 8) ≠ 11 →
    exec (.cxlPartnerDetect p) s = .next s) ∧
  (∀ (p : Fin 4) (speed : BitVec 2) (width : Fin 9) (mem : Bool) (s : State), s.cxlSt p = 1 →
    ∃ t, exec (.cxlLinkUp p speed width mem) s = .next t ∧ 
    t.cxlSt p = (if 4 ≤ Nat.min width (s.cxlWidth p) ∧ mem = true then 2 else 5) ∧
    t.get (cxlAt p) .MEM_CXL_STAT_SPEED = Nat.min speed.toNat (Nat.min 2 (s.get (cxlAt p) .MEM_CXL_CTRL_MAX_SPEED)) ∧
    t.get (cxlAt p) .MEM_CXL_STAT_WIDTH = Nat.min width (s.cxlWidth p) ∧
    s.keepsRegs (.MEM_CXL_STAT :: eventRegs) t ∧ s.keepsMem t) ∧
  (∀ (p : Fin 4) (speed : BitVec 2) (width : Fin 9) (mem : Bool) (s : State), s.cxlSt p ≠ 1 →
    exec (.cxlLinkUp p speed width mem) s = .next s) ∧
  (∀ (p : Fin 4) (s : State), s.cxlSt p = 2 → ∃ t, exec (.enableMem p) s = .next t ∧ t.cxlSt p = 3 ∧
    t.openMem = ((engRange (4 + p)).1 / 64, ((engRange (4 + p)).1 + (engRange (4 + p)).2) / 64) :: s.openMem ∧
    s.keepsRegs (.MEM_CXL_STAT :: eventRegs) t ∧ s.keepsMem t) ∧
  (∀ (p : Fin 4) (value : BitVec 32) (s : State), s.cxlSt p = 2 → ∃ t, exec (.cxlSizeWrite p value) s = .next t ∧
    t.get (cxlAt p) .MEM_CXL_SIZE_UNITS = value.toNat % 2 ^ 16 ∧ s.keepsRegs [.MEM_CXL_SIZE] t ∧ s.keepsMem t) ∧
  (∀ (p : Fin 4) (value : BitVec 32) (s : State), s.cxlSt p ≠ 2 → ∃ t, exec (.enableMem p) s = .next t ∧
    exec (.cxlSizeWrite p value) s = .next t ∧ t.flag (cxlAt p) .MEM_CXL_STAT_CMD_IGNORED = true ∧ t.cxlSt p = s.cxlSt p ∧
    s.keepsRegs [.MEM_CXL_STAT] t ∧ s.keepsMem t) ∧
  (∀ (p : Fin 4) (value : BitVec 32) (s : State), value.getLsbD 31 = true → s.cxlSt p = 2 ∨ s.cxlSt p = 3 →
    (s.cxlPort p).io = false → ∃ t, exec (.cxlIoAccess p value) s = .next t ∧ (t.cxlPort p).io = true ∧
    t.flag (cxlAt p) .MEM_CXL_IOA_DONE = false ∧ t.get (cxlAt p) .MEM_CXL_IOA_ADDR = value.toNat % 2 ^ 26 ∧
    t.sent = .cxlIo p (t.reg (cxlAt p) .MEM_CXL_IOA).toNat (s.reg (cxlAt p) .MEM_CXL_IOD).toNat :: s.sent ∧
    s.keepsRegs [.MEM_CXL_IOA] t ∧ s.keepsMem t) ∧
  (∀ (p : Fin 4) (value : BitVec 32) (s : State), value.getLsbD 31 = false ∨ (s.cxlSt p ≠ 2 ∧ s.cxlSt p ≠ 3) →
    ∃ t, exec (.cxlIoAccess p value) s = .next t ∧ t.sent = s.sent ∧ t.cxl = s.cxl ∧ s.keepsRegs [.MEM_CXL_IOA] t ∧ s.keepsMem t) ∧
  (∀ (p : Fin 4) (err : BitVec 2) (data : BitVec 32) (s : State), (s.cxlPort p).io = true →
    ∃ t, exec (.cxlIoDone p err data) s = .next t ∧ (t.cxlPort p).io = false ∧ t.flag (cxlAt p) .MEM_CXL_IOA_DONE = true ∧
    t.get (cxlAt p) .MEM_CXL_IOA_ERR = err.toNat ∧
    (err = 0 → s.flag (cxlAt p) .MEM_CXL_IOA_WRITE = false → t.reg (cxlAt p) .MEM_CXL_IOD = data) ∧
    s.keepsRegs [.MEM_CXL_IOA, .MEM_CXL_IOD] t ∧ s.keepsMem t) ∧
  (∀ (p : Fin 4) (err : BitVec 2) (data : BitVec 32) (s : State), (s.cxlPort p).io = false →
    exec (.cxlIoDone p err data) s = .next s) ∧
  (∀ (p : Fin 4) (r : NocReq) (s : State), toCxl p r = true → s.protGate (4 + p) r = (s, none) → s.cxlSt p = 3 →
    (s.cxlPort p).drains = false → r.addr.toNat - (engRange (4 + p)).1 < s.cxlServed p →
    ∃ t, exec (.cxlRequest p r) s = .next t ∧ (t.cxlPort p).waiting = (s.cxlPort p).waiting ++ [r] ∧
    t.sent = .cxlMem p (s.toDevice p r) :: s.sent ∧ s.keepsRegs [] t ∧ s.keepsMem t) ∧
  (∀ (p : Fin 4) (r : NocReq) (s : State), toCxl p r = true → s.protGate (4 + p) r = (s, none) →
    s.cxlSt p = 4 ∨ (s.cxlPort p).drains = true → exec (.cxlRequest p r) s = .next (s.cxlSynth p r 8)) ∧
  (∀ (p : Fin 4) (r : NocReq) (s : State), toCxl p r = true → s.protGate (4 + p) r = (s, none) → (s.cxlSt p ≠ 3 ∧ s.cxlSt p ≠ 4) ∨
    (s.cxlSt p = 3 ∧ s.cxlServed p ≤ r.addr.toNat - (engRange (4 + p)).1) → (s.cxlPort p).drains = false →
    exec (.cxlRequest p r) s = .next (s.cxlSynth p r 5)) ∧
  (∀ (p : Fin 4) (r : NocReq) (s : State), toCxl p r = false → exec (.cxlRequest p r) s = .next s) ∧
  (∀ (p : Fin 4) (src : BitVec 12) (tag : BitVec 10) (check : MemCheck) (r : NocReq) (s : State),
    ((s.cxlPort p).waiting.find? fun r => r.src.toNat == src.toNat && r.tag.toNat == tag.toNat) = some r →
    exec (.cxlDeviceResponse p src tag check) s =
    .next ((s.onCxl p fun x => { x with waiting := x.waiting.erase r }).memServe (4 + p) r check)) ∧
  (∀ (p : Fin 4) (src : BitVec 12) (tag : BitVec 10) (check : MemCheck) (s : State),
    ((s.cxlPort p).waiting.find? fun r => r.src.toNat == src.toNat && r.tag.toNat == tag.toNat) = none →
    exec (.cxlDeviceResponse p src tag check) s = .next s) ∧
  (∀ (p : Fin 4) (write : Bool) (addr : BitVec 64) (data : BitVec 32) (s : State), s.cxlSt p = 2 ∨ s.cxlSt p = 3 →
    (write = true → addr.toNat = 0xFEE00000 + 0x1000 * p.val → ∃ t, exec (.cxlDeviceRequest p write addr data) s = .next t ∧
      t = s.raise (homeDie p) Ev.MEM_CXL_IRQ (p + data.toNat * 2 ^ 8) ∧ s.keepsRegs eventRegs t ∧ s.keepsMem t) ∧
    (write = false ∨ addr.toNat ≠ 0xFEE00000 + 0x1000 * p.val → ∃ t, exec (.cxlDeviceRequest p write addr data) s = .next t ∧
      t.get (cxlAt p) .MEM_CXL_CNT_DEV_UR = satAdd 255 (s.get (cxlAt p) .MEM_CXL_CNT_DEV_UR) 1 ∧ t.sent = .cxlUr p :: s.sent ∧
      s.keepsRegs [.MEM_CXL_CNT] t ∧ s.keepsMem t)) ∧
  (∀ (p : Fin 4) (s : State), s.cxlSt p = 3 → exec (.cxlLinkLoss p) s = .next (s.cxlDetach p 0)) ∧
  (∀ (p : Fin 4) (s : State), s.cxlSt p = 2 → ∃ t, exec (.cxlLinkLoss p) s = .next t ∧ t.cxlSt p = 4 ∧
    s.keepsRegs (.MEM_CXL_STAT :: eventRegs) t ∧ s.keepsMem t) ∧
  (∀ (p : Fin 4) (s : State), s.cxlSt p ≠ 2 → s.cxlSt p ≠ 3 → exec (.cxlLinkLoss p) s = .next s) ∧
  (∀ (p : Fin 4) (s : State), (s.cxlPort p).walks = true → ∃ t, exec (.cxlDetachWalkDone p) s = .next t ∧
    (t.cxlPort p).walks = false ∧ (∀ x ∈ t.dir, within (x.1 * 64) (engRange (4 + p)) = false) ∧
    s.keepsRegs (.MEM_CXL_CNT :: .NOC_DC_STAT :: eventRegs) t ∧ s.keepsMem t) ∧
  (∀ (p : Fin 4) (s : State), (s.cxlPort p).walks = false → exec (.cxlDetachWalkDone p) s = .next s) ∧
  (∀ (p : Fin 4) (s : State), s.cxlSt p = 3 → (s.prot (4 + p)).dirty = [] → ∃ t, exec (.detach p) s = .next t ∧
    (t.cxlPort p).drains = true ∧ t.cxlSt p = 3 ∧ s.keepsRegs [] t ∧ s.keepsMem t) ∧
  (∀ (p : Fin 4) (s : State), s.cxlSt p ≠ 3 → ∃ t, exec (.detach p) s = .next t ∧
    t.flag (cxlAt p) .MEM_CXL_STAT_CMD_IGNORED = true ∧ t.cxl = s.cxl ∧ s.keepsRegs [.MEM_CXL_STAT] t ∧ s.keepsMem t) ∧
  (∀ (p : Fin 4) (s : State), (s.cxlPort p).drains = true → exec (.cxlDetachDrainEnd p) s = .next (s.cxlDetach p 1)) ∧
  (∀ (p : Fin 4) (s : State), (s.cxlPort p).drains = false → exec (.cxlDetachDrainEnd p) s = .next s) ∧
  (∀ (p : Fin 4) (s : State), s.cxlSt p = 4 → ∃ t, exec (.ackDetach p) s = .next t ∧
    t.cxlSt p = natOf (s.flag (cxlAt p) .MEM_CXL_STAT_PRESENT && !s.flag (cxlAt p) .MEM_CXL_STAT_TX_SAFE) ∧
    s.keepsRegs (.MEM_CXL_STAT :: eventRegs) t ∧ s.keepsMem t) ∧
  (∀ (p : Fin 4) (s : State), s.cxlSt p ≠ 4 → ∃ t, exec (.ackDetach p) s = .next t ∧
    t.flag (cxlAt p) .MEM_CXL_STAT_CMD_IGNORED = true ∧ t.cxlSt p = s.cxlSt p ∧ s.keepsRegs [.MEM_CXL_STAT] t ∧ s.keepsMem t) ∧
  (∀ (p : Fin 4) (s : State), s.flag (atDie .e0) .CLK_STATUS_COAST = false → s.laneRails (homeDie p) = true →
    ∃ t, exec (.cxlTxReenable p) s = .next t ∧ t.flag (cxlAt p) .MEM_CXL_STAT_TX_SAFE = false ∧ s.keepsRegs [.MEM_CXL_STAT] t ∧
    s.keepsMem t) ∧
  (∀ (p : Fin 4) (s : State), s.flag (atDie .e0) .CLK_STATUS_COAST = true ∨ s.laneRails (homeDie p) = false →
    ∃ t, exec (.cxlTxReenable p) s = .next t ∧
    t.flag (cxlAt p) .MEM_CXL_STAT_CMD_IGNORED = true ∧ s.keepsRegs [.MEM_CXL_STAT] t ∧ s.keepsMem t) ∧
  (∀ (p : Fin 4) (s : State), s.cxlSt p ≠ 3 → ∃ t, exec (.cxlPartnerLeave p) s = .next t ∧
    t.flag (cxlAt p) .MEM_CXL_STAT_PRESENT = false ∧
    t.cxlSt p = (if s.cxlSt p = 1 ∨ s.cxlSt p = 5 then 0 else if s.cxlSt p = 2 then 4 else s.cxlSt p) ∧
    s.keepsRegs (.MEM_CXL_STAT :: eventRegs) t ∧ s.keepsMem t) ∧
  (∀ (p : Fin 4) (s : State), s.cxlSt p = 3 → exec (.cxlPartnerLeave p) s =
    .next ((s.put (cxlAt p) .MEM_CXL_STAT_PRESENT 0).cxlDetach p 0))

/-- Chapter 16, DDR5 channels (R446 to R456): requests, power-up, training, self-refresh and maintenance.
Model's choices: log entries 35 (DEDUCED), 98 (DEDUCED), 99 (DEDUCED). -/
def Obligations.DdrCommandsRun : Prop :=
  (∀ (ch : Fin 4) (r : NocReq) (check : MemCheck) (s : State), toDdr ch r = true → s.protGate ch r = (s, none) →
    r.addr.toNat - (engRange ch).1 < s.ddrServed ch * 2 ^ 30 → s.ddrSt ch = 4 →
    exec (.ddrRequest ch r check) s = .next (s.memServe ch r check)) ∧
  (∀ (ch : Fin 4) (r : NocReq) (check : MemCheck) (s : State), toDdr ch r = true → s.protGate ch r = (s, none) →
    r.addr.toNat - (engRange ch).1 < s.ddrServed ch * 2 ^ 30 → s.ddrSt ch = 5 → ∃ t, exec (.ddrRequest ch r check) s = .next t ∧
    (t.ddrCh ch).held = (s.ddrCh ch).held ++ [(r, check)] ∧ s.keepsRegs [] t ∧ s.keepsMem t) ∧
  (∀ (ch : Fin 4) (r : NocReq) (check : MemCheck) (s : State), toDdr ch r = true → s.protGate ch r = (s, none) →
    s.ddrServed ch * 2 ^ 30 ≤ r.addr.toNat - (engRange ch).1 ∨ s.ddrSt ch < 4 →
    exec (.ddrRequest ch r check) s = .next (s.memAnswer r 5)) ∧
  (∀ (ch : Fin 4) (r : NocReq) (check : MemCheck) (s : State), toDdr ch r = false → exec (.ddrRequest ch r check) s = .next s) ∧
  (∀ (ch : Fin 4) (s : State), s.ddrSt ch = 1 → ∃ t, exec (.init ch) s = .next t ∧ (t.ddrCh ch).init = true ∧ s.keepsRegs [] t ∧
    s.keepsMem t) ∧
  (∀ (ch : Fin 4) (s : State), s.ddrSt ch = 1 → (s.ddrCh ch).init = true → ∃ t, exec (.ddrInitDone ch) s = .next t ∧
    t.ddrSt ch = 2 ∧ (t.ddrCh ch).init = false ∧ s.keepsRegs [.MEM_DDR_STAT] t ∧ s.keepsMem t) ∧
  (∀ (ch : Fin 4) (s : State), s.ddrSt ch ≠ 1 ∨ (s.ddrCh ch).init = false → exec (.ddrInitDone ch) s = .next s) ∧
  (∀ (ch : Fin 4) (s : State), s.ddrSt ch = 2 → ∃ t, exec (.goReady ch) s = .next t ∧ t.ddrSt ch = 4 ∧
    s.keepsRegs [.MEM_DDR_STAT] t ∧ s.keepsMem t) ∧
  (∀ (ch : Fin 4) (s : State), s.ddrSt ch = 4 → exec (.srEnter ch) s = .next (s.ddrSleep ch)) ∧
  (∀ (ch : Fin 4) (s : State), s.ddrSt ch = 5 → ∃ t, exec (.srExit ch) s = .next t ∧ (t.ddrCh ch).leaves = true ∧
    s.keepsRegs [] t ∧ s.keepsMem t) ∧
  (∀ (ch : Fin 4) (s : State), ∃ t, (s.ddrSt ch ≠ 1 → exec (.init ch) s = .next t) ∧
    (s.ddrSt ch ≠ 2 → exec (.goReady ch) s = .next t) ∧ (s.ddrSt ch ≠ 4 → exec (.srEnter ch) s = .next t) ∧
    (s.ddrSt ch ≠ 5 → exec (.srExit ch) s = .next t) ∧
    t.flag (ddrAt ch) .MEM_DDR_STAT_CMD_IGNORED = true ∧ t.ddrSt ch = s.ddrSt ch ∧ s.keepsRegs [.MEM_DDR_STAT] t ∧ s.keepsMem t) ∧
  (∀ (ch : Fin 4) (s : State), s.ddrSt ch = 5 → (s.ddrCh ch).leaves = true → (s.ddrCh ch).held = [] →
    ∃ t, exec (.ddrSrExitDone ch) s = .next t ∧ t.ddrSt ch = 4 ∧ (t.ddrCh ch).leaves = false ∧ s.keepsRegs [.MEM_DDR_STAT] t ∧
    s.keepsMem t) ∧
  (∀ (ch : Fin 4) (s : State), s.ddrSt ch ≠ 5 ∨ (s.ddrCh ch).leaves = false → exec (.ddrSrExitDone ch) s = .next s) ∧
  (∀ (ch : Fin 4) (value : BitVec 32) (s : State), value.getLsbD 31 = true → s.ddrSt ch ≠ 0 → s.ddrSt ch ≠ 1 → s.ddrSt ch ≠ 4 →
    ∃ t, exec (.ddrModeRegisterWrite ch value) s = .next t ∧
    t.sent = .modeReg ch (value.toNat / 2 ^ 16 % 2) (value.toNat / 2 ^ 8 % 2 ^ 8) (value.toNat % 2 ^ 8) :: s.sent ∧
    s.keepsRegs [.MEM_DDR_MRW] t ∧ s.keepsMem t) ∧
  (∀ (ch : Fin 4) (value : BitVec 32) (s : State), s.ddrSt ch = 0 ∨ s.ddrSt ch = 1 ∨ s.ddrSt ch = 4 →
    ∃ t, exec (.ddrModeRegisterWrite ch value) s = .next t ∧ t.sent = s.sent ∧ s.keepsRegs [.MEM_DDR_MRW] t ∧ s.keepsMem t) ∧
  (∀ (ch : Fin 4) (rank : Bool) (count : BitVec 16) (s : State), s.ddrSt ch = 2 →
    s.flag (ddrAt ch) .MEM_DDR_TRN_STAT_BUSY = false →
    (∃ t, exec (.ddrTrainingCa ch rank count) s = .next t ∧ t.ddrSt ch = 3 ∧ (t.ddrCh ch).step = 1 ∧
      t.sent = .training ch 1 rank (Nat.max 1 count.toNat) ((List.range 10).map fun l => (s.ddrPattern ch l 64).map natOf) :: s.sent ∧
      t.flag (ddrAt ch) .MEM_DDR_TRN_STAT_BUSY = true ∧ t.flag (ddrAt ch) .MEM_DDR_TRN_CTRL_RANK = rank ∧
      t.get (ddrAt ch) .MEM_DDR_TRN_CTRL_COUNT = count.toNat ∧
      s.keepsRegs [.MEM_DDR_TRN_CTRL, .MEM_DDR_TRN_STAT, .MEM_DDR_STAT] t ∧ s.keepsMem t) ∧
    (∃ t, exec (.ddrTrainingWlvl ch rank count) s = .next t ∧ t.ddrSt ch = 3 ∧ (t.ddrCh ch).step = 2 ∧
      t.sent = .training ch 2 rank (Nat.max 1 count.toNat) ((List.range 10).map fun l => (s.ddrPattern ch l 64).map natOf) :: s.sent ∧
      t.flag (ddrAt ch) .MEM_DDR_TRN_STAT_BUSY = true ∧ t.flag (ddrAt ch) .MEM_DDR_TRN_CTRL_RANK = rank ∧
      t.get (ddrAt ch) .MEM_DDR_TRN_CTRL_COUNT = count.toNat ∧
      s.keepsRegs [.MEM_DDR_TRN_CTRL, .MEM_DDR_TRN_STAT, .MEM_DDR_STAT] t ∧ s.keepsMem t) ∧
    (∃ t, exec (.ddrTrainingRd ch rank count) s = .next t ∧ t.ddrSt ch = 3 ∧ (t.ddrCh ch).step = 3 ∧
      t.sent = .training ch 3 rank (Nat.max 1 count.toNat) ((List.range 10).map fun l => (s.ddrPattern ch l 64).map natOf) :: s.sent ∧
      t.flag (ddrAt ch) .MEM_DDR_TRN_STAT_BUSY = true ∧ t.flag (ddrAt ch) .MEM_DDR_TRN_CTRL_RANK = rank ∧
      t.get (ddrAt ch) .MEM_DDR_TRN_CTRL_COUNT = count.toNat ∧
      s.keepsRegs [.MEM_DDR_TRN_CTRL, .MEM_DDR_TRN_STAT, .MEM_DDR_STAT] t ∧ s.keepsMem t) ∧
    (∃ t, exec (.ddrTrainingWr ch rank count) s = .next t ∧ t.ddrSt ch = 3 ∧ (t.ddrCh ch).step = 4 ∧
      t.sent = .training ch 4 rank (Nat.max 1 count.toNat) ((List.range 10).map fun l => (s.ddrPattern ch l 64).map natOf) :: s.sent ∧
      t.flag (ddrAt ch) .MEM_DDR_TRN_STAT_BUSY = true ∧ t.flag (ddrAt ch) .MEM_DDR_TRN_CTRL_RANK = rank ∧
      t.get (ddrAt ch) .MEM_DDR_TRN_CTRL_COUNT = count.toNat ∧
      s.keepsRegs [.MEM_DDR_TRN_CTRL, .MEM_DDR_TRN_STAT, .MEM_DDR_STAT] t ∧ s.keepsMem t)) ∧
  (∀ (ch : Fin 4) (rank : Bool) (count : BitVec 16) (s : State),
    s.ddrSt ch ≠ 2 ∨ s.flag (ddrAt ch) .MEM_DDR_TRN_STAT_BUSY = true →
    ∃ t, exec (.ddrTrainingCa ch rank count) s = .next t ∧ exec (.ddrTrainingWlvl ch rank count) s = .next t ∧
    exec (.ddrTrainingRd ch rank count) s = .next t ∧ exec (.ddrTrainingWr ch rank count) s = .next t ∧
    t.flag (ddrAt ch) .MEM_DDR_TRN_STAT_CMD_IGNORED = true ∧ t.ddr = s.ddr ∧
    s.keepsRegs [.MEM_DDR_TRN_CTRL, .MEM_DDR_TRN_STAT] t ∧ s.keepsMem t) ∧
  (∀ (ch : Fin 4) (s : State), s.ddrSt ch = 3 → ∃ t, exec (.ddrTrainingAbort ch) s = .next t ∧ t.ddrSt ch = 2 ∧
    t.flag (ddrAt ch) .MEM_DDR_TRN_STAT_BUSY = false ∧ t.get (ddrAt ch) .MEM_DDR_TRN_STAT_RESULT = 2 ∧
    (t.ddrCh ch).errors = (s.ddrCh ch).errors ∧ s.keepsRegs ([.MEM_DDR_TRN_STAT, .MEM_DDR_STAT] ++ eventRegs) t ∧ s.keepsMem t) ∧
  (∀ (ch : Fin 4) (errors : BitVec 160) (fails : BitVec 80) (abort : Bool) (s : State), s.ddrSt ch = 3 →
    ∃ t, exec (.ddrTrainingStepDone ch errors fails abort) s = .next t ∧ t.ddrSt ch = 2 ∧
    (t.ddrCh ch).errors = errors.toNat ∧ (t.ddrCh ch).fails = fails.toNat ∧
    t.flag (ddrAt ch) .MEM_DDR_TRN_STAT_BUSY = false ∧ t.get (ddrAt ch) .MEM_DDR_TRN_STAT_RESULT = 1 ∧
    (abort = true → t.flag (ddrAt ch) .MEM_DDR_TRN_STAT_ABORT_LATE = true) ∧
    s.keepsRegs ([.MEM_DDR_TRN_STAT, .MEM_DDR_STAT] ++ eventRegs) t ∧ s.keepsMem t) ∧
  (∀ (ch : Fin 4) (errors : BitVec 160) (fails : BitVec 80) (abort : Bool) (s : State), s.ddrSt ch ≠ 3 →
    exec (.ddrTrainingAbort ch) s = .next s ∧ exec (.ddrTrainingStepDone ch errors fails abort) s = .next s) ∧
  (∀ (ch : Fin 4) (s : State), s.ddrSt ch = 4 → ∃ t, exec (.ddrRefresh ch) s = .next t ∧
    t.sent = .refresh ch (s.flag (ddrAt ch) .MEM_DDR_CFG_REF_SB) (if (s.ddrCh ch).hot = [] then 3900 else 1950) :: s.sent ∧
    s.keepsRegs [] t ∧ s.keepsMem t) ∧
  (∀ (ch : Fin 4) (rank hot : Bool) (s : State), s.ddrSt ch = 4 → ∃ t, exec (.ddrMr4Poll ch rank hot) s = .next t ∧
    (hot = true → natOf rank ∈ (t.ddrCh ch).hot ∧ t.refreshInterval ch = 1950) ∧
    (hot = false → natOf rank ∉ (t.ddrCh ch).hot) ∧ (hot = false → (s.ddrCh ch).hot = [natOf rank] → t.refreshInterval ch = 3900) ∧
    s.keepsRegs [] t ∧ s.keepsMem t) ∧
  (∀ (ch : Fin 4) (rank : Bool) (wr rd : BitVec 90) (s : State), s.ddrSt ch = 4 →
    ∃ t, exec (.ddrDqsDriftCheck ch rank wr rd) s = .next t ∧
    (∀ l : Fin 10, t.get (ddrDelay ch (natOf rank) 2 l) .MEM_DDR_DLY_VALUE = wr.toNat / 2 ^ (9 * l.val) % 2 ^ 9 ∧
      t.get (ddrDelay ch (natOf rank) 4 l) .MEM_DDR_DLY_VALUE = rd.toNat / 2 ^ (9 * l.val) % 2 ^ 9) ∧
    s.keepsRegs [.MEM_DDR_DLY] t ∧ s.keepsMem t) ∧
  (∀ (ch : Fin 4) (line : BitVec 30) (s : State), s.ddrSt ch = 4 → s.get (ddrAt ch) .MEM_DDR_CFG_PATROL ≠ 0 →
    line.toNat < s.ddrServed ch * 2 ^ 24 → s.flag (ddrAt ch) .MEM_DDR_ECC_ADDR_VALID = false →
    (∃ t, exec (.ddrPatrolRead ch line .corrected) s = .next t ∧
      t.get (ddrAt ch) .MEM_DDR_ECC_CE = satAdd 65535 (s.get (ddrAt ch) .MEM_DDR_ECC_CE) 1 ∧
      t.flag (ddrAt ch) .MEM_DDR_ECC_ADDR_VALID = true ∧ t.flag (ddrAt ch) .MEM_DDR_ECC_ADDR_UE = false ∧
      t.get (ddrAt ch) .MEM_DDR_ECC_ADDR_LINE = line.toNat ∧
      (∃ l bytes, t.sent.head? = some (.memLine ch l bytes) ∧ l = (engRange ch).1 / 64 + line.toNat) ∧
      s.keepsRegs ([.MEM_DDR_ECC, .MEM_DDR_ECC_ADDR] ++ eventRegs) t ∧ s.keepsMem t) ∧
    (∃ t, exec (.ddrPatrolRead ch line .bad) s = .next t ∧
      t.get (ddrAt ch) .MEM_DDR_ECC_UE = satAdd 65535 (s.get (ddrAt ch) .MEM_DDR_ECC_UE) 1 ∧
      t.flag (ddrAt ch) .MEM_DDR_ECC_ADDR_UE = true ∧ t.get (ddrAt ch) .MEM_DDR_ECC_ADDR_LINE = line.toNat ∧
      s.keepsRegs ([.MEM_DDR_ECC, .MEM_DDR_ECC_ADDR] ++ eventRegs) t ∧ s.keepsMem t)) ∧
  (∀ (ch : Fin 4) (rank hot : Bool) (wr rd : BitVec 90) (line : BitVec 30) (check : MemCheck) (s : State), s.ddrSt ch ≠ 4 →
    exec (.ddrRefresh ch) s = .next s ∧ exec (.ddrMr4Poll ch rank hot) s = .next s ∧
    exec (.ddrDqsDriftCheck ch rank wr rd) s = .next s ∧ exec (.ddrPatrolRead ch line check) s = .next s)

/-- Chapter 16, the PCIe link and its host rings (R457 to R465).
Model's choices: log entries 33 (PRESUMED), 35 (DEDUCED), 73 (DEDUCED), 100 (DEDUCED), 101 (DESIGN CHOICE), 102 (DEDUCED), 246
(DESIGN CHOICE), 254 (DEDUCED). -/
def Obligations.PcieCommandsRun : Prop :=
  (∀ (speed : BitVec 3) (width : BitVec 5) (vectors : List (BitVec 11)) (s : State),
    s.flag (atDie .e0) .MEM_PCI_STAT_TX_SAFE = false → s.pcie.linkUp = false →
    (∀ i, i < 16 → s.laneRole .e0 (16 + i) = 2 ∧ s.laneSt .e0 (16 + i) = 11) → 1 ≤ speed.toNat → speed.toNat ≤ 5 →
    width.toNat ∈ [1, 2, 4, 8, 16] → ∃ t, exec (.pcieLinkUp speed width vectors) s = .next t ∧ t.pcie.linkUp = true ∧ t.pcie.msixOpen = vectors.map BitVec.toNat ∧
    t.pcie.msixPend = s.pcie.msixPend.filter (fun v => !(vectors.map BitVec.toNat).contains v) ∧
    (∀ v ∈ s.pcie.msixPend, v ∈ vectors.map BitVec.toNat → Emit.msix v ∈ t.sent) ∧
    t.flag (atDie .e0) .MEM_PCI_STAT_LINK = true ∧ t.get (atDie .e0) .MEM_PCI_STAT_SPEED = speed.toNat ∧
    t.get (atDie .e0) .MEM_PCI_STAT_WIDTH = width.toNat ∧ s.keepsRegs (.MEM_PCI_STAT :: eventRegs) t ∧ s.keepsMem t) ∧
  (∀ (speed : BitVec 3) (width : BitVec 5) (vectors : List (BitVec 11)) (s : State),
    s.flag (atDie .e0) .MEM_PCI_STAT_TX_SAFE = true ∨ s.pcie.linkUp = true ∨
    (∃ i, i < 16 ∧ (s.laneRole .e0 (16 + i) ≠ 2 ∨ s.laneSt .e0 (16 + i) ≠ 11)) ∨ speed = 0 ∨ 5 < speed.toNat ∨
    width.toNat ∉ [1, 2, 4, 8, 16] → exec (.pcieLinkUp speed width vectors) s = .next s) ∧
  (∀ s : State, s.pcie.linkUp = true → ∃ t, exec .pcieLinkDown s = .next t ∧ t.pcie.linkUp = false ∧ t.pcie.msixOpen = [] ∧
    t.flag (atDie .e0) .MEM_PCI_STAT_LINK = false ∧ s.keepsRegs ([.MEM_PCI_STAT, .MEM_HR_STAT] ++ eventRegs) t ∧ s.keepsMem t) ∧
  (∀ s : State, s.pcie.linkUp = false → exec .pcieLinkDown s = .next s) ∧
  (∀ s : State, s.flag (atDie .e0) .CLK_STATUS_COAST = false → s.laneRails .e0 = true → ∃ t, exec .pcieTxReenable s = .next t ∧
    t.flag (atDie .e0) .MEM_PCI_STAT_TX_SAFE = false ∧ s.keepsRegs [.MEM_PCI_STAT] t ∧ s.keepsMem t) ∧
  (∀ s : State, s.flag (atDie .e0) .CLK_STATUS_COAST = true ∨ s.laneRails .e0 = false → ∃ t, exec .pcieTxReenable s = .next t ∧
    t.flag (atDie .e0) .MEM_PCI_STAT_CMD_IGNORED = true ∧ s.keepsRegs [.MEM_PCI_STAT] t ∧ s.keepsMem t) ∧
  (∀ (ring : BitVec 12) (tail : BitVec 16) (s : State), ∃ t, exec (.hostRingTailWrite ring tail) s = .next t ∧
    t.get (hrAt ring.toNat) .MEM_HR_PTR_TAIL = tail.toNat ∧
    t.get (hrAt ring.toNat) .MEM_HR_PTR_HEAD = s.get (hrAt ring.toNat) .MEM_HR_PTR_HEAD ∧ s.keepsRegs [.MEM_HR_PTR] t ∧
    s.keepsMem t) ∧
  (∀ (ring : BitVec 12) (queue : BitVec 16) (descs : List (BitVec 256)) (held : Bool) (f : QFrame) (rest : List QFrame)
    (l : List (BitVec 256 × List Nat)) (s u : State), (s.queue (ringDie ring.toNat) queue.toNat).frames = f :: rest → f.pool ≠ 2 →
    s.ringAccess ring.toNat false f.bytes 0 = (u, 0) → s.ringRuns ring.toNat = true → s.flag (hrAt ring.toNat) .MEM_HR_CFG_DIR = false → s.pcie.linkUp = true →
    s.get (atSel (ringDie ring.toNat) queue.toNat) .PKT_Q_CFG_DTYPE = 2 →
    s.get (atSel (ringDie ring.toNat) queue.toNat) .PKT_Q_CFG_DEST = ring.toNat →
    s.flushes (ringDie ring.toNat) queue.toNat = false →
    fillDescs 16384 (descs.take (s.ringPosted ring.toNat)) f.bytes = some l →
    ∃ t, exec (.hostRingRxFrame ring queue descs 0 held false) s = .next t ∧
    (t.queue (ringDie ring.toNat) queue.toNat).frames = rest ∧
    t.get (hrAt ring.toNat) .MEM_HR_PTR_HEAD = (s.get (hrAt ring.toNat) .MEM_HR_PTR_HEAD + l.length) % s.ringSize ring.toNat ∧
    (t.ring ring.toNat).seq = ((s.ring ring.toNat).seq + 1) % 2 ^ 32 ∧ (held = true → (t.ring ring.toNat).waits = true) ∧
    (∀ e ∈ l, .hostData (e.1.toNat % 2 ^ 64) e.2 ∈ t.sent) ∧
    s.keepsRegs [.PKT_Q_STAT, .PKT_BUF_SHARED, .PKT_BUF_STAT, .PKT_PORT_STAT, .NOC_FENCE_CNT, .MEM_HR_PTR] t ∧ s.keepsMem t) ∧
  (∀ (ring : BitVec 12) (queue : BitVec 16) (descs : List (BitVec 256)) (status : BitVec 4) (held bad : Bool) (f : QFrame)
    (rest : List QFrame) (s : State), (s.queue (ringDie ring.toNat) queue.toNat).frames = f :: rest → f.pool ≠ 2 → status ≠ 0 →
    s.ringRuns ring.toNat = true → s.flag (hrAt ring.toNat) .MEM_HR_CFG_DIR = false → s.pcie.linkUp = true →
    s.get (atSel (ringDie ring.toNat) queue.toNat) .PKT_Q_CFG_DTYPE = 2 →
    s.get (atSel (ringDie ring.toNat) queue.toNat) .PKT_Q_CFG_DEST = ring.toNat →
    s.flushes (ringDie ring.toNat) queue.toNat = false →
    (fillDescs 16384 (descs.take (s.ringPosted ring.toNat)) f.bytes).isSome = true →
    ∃ t, exec (.hostRingRxFrame ring queue descs status held bad) s = .next t ∧
    (t.queue (ringDie ring.toNat) queue.toNat).frames = rest ∧
    t.flag (hrAt ring.toNat) .MEM_HR_STAT_STOPPED = true ∧ t.get (hrAt ring.toNat) .MEM_HR_STAT_CAUSE = 5 ∧
    t.get (hrAt ring.toNat) .MEM_HR_STAT_ERRS = satAdd 65535 (s.get (hrAt ring.toNat) .MEM_HR_STAT_ERRS) 1 ∧
    t.get (hrAt ring.toNat) .MEM_HR_PTR_HEAD = s.get (hrAt ring.toNat) .MEM_HR_PTR_HEAD ∧ s.keepsMem t) ∧
  (∀ (ring : BitVec 12) (queue : BitVec 16) (descs : List (BitVec 256)) (status : BitVec 4) (held bad : Bool) (s : State),
    (s.queue (ringDie ring.toNat) queue.toNat).frames = [] ∨ s.ringRuns ring.toNat = false ∨ s.pcie.linkUp = false ∨
    s.flag (hrAt ring.toNat) .MEM_HR_CFG_DIR = true → exec (.hostRingRxFrame ring queue descs status held bad) s = .next s) ∧
  (∀ (ring : BitVec 12) (descs l : List (BitVec 256)) (bytes : List Byte) (held rate : Bool) (s u : State),
    s.ringRuns ring.toNat = true → s.flag (hrAt ring.toNat) .MEM_HR_CFG_DIR = true → s.pcie.linkUp = true →
    frameDescs 64 (descs.take (s.ringPosted ring.toNat)) = some l → l.any descEop = true → (l.take 1).any descSop = true →
    (l.map fun d => bitsOf d.toNat 64 16).sum ≤ 10240 →
    s.used.ringAccess ring.toNat true (s.descFrame l (bytes.map BitVec.toNat)) 0 = (u, 0) →
    exec (.hostRingTxFrame ring descs bytes 0 held rate) s =
    .next (((u.ringOffer ring.toNat (l.headD 0) (s.descFrame l (bytes.map BitVec.toNat)) rate).ringBack ring.toNat
      (l.map fun d => txBack d (s.ring ring.toNat).seq false)).ringIrq ring.toNat held)) ∧
  (∀ (ring : BitVec 12) (descs l : List (BitVec 256)) (bytes : List Byte) (held rate : Bool) (status : BitVec 4) (s : State),
    s.ringRuns ring.toNat = true → s.flag (hrAt ring.toNat) .MEM_HR_CFG_DIR = true → s.pcie.linkUp = true →
    frameDescs 64 (descs.take (s.ringPosted ring.toNat)) = some l → l.any descEop = false ∨ (l.take 1).any descSop = false ∨
    10240 < (l.map fun d => bitsOf d.toNat 64 16).sum → exec (.hostRingTxFrame ring descs bytes status held rate) s =
    .next ((s.ringBack ring.toNat (l.map fun d => txBack d (s.ring ring.toNat).seq true)).ringIrq ring.toNat held)) ∧
  (∀ (ring : BitVec 12) (descs l : List (BitVec 256)) (bytes : List Byte) (held rate : Bool) (status : BitVec 4) (s : State),
    s.ringRuns ring.toNat = true → s.flag (hrAt ring.toNat) .MEM_HR_CFG_DIR = true → s.pcie.linkUp = true →
    frameDescs 64 (descs.take (s.ringPosted ring.toNat)) = some l → l.any descEop = true → (l.take 1).any descSop = true →
    (l.map fun d => bitsOf d.toNat 64 16).sum ≤ 10240 → status ≠ 0 →
    ∃ t, exec (.hostRingTxFrame ring descs bytes status held rate) s = .next t ∧
    t.flag (hrAt ring.toNat) .MEM_HR_STAT_STOPPED = true ∧ t.get (hrAt ring.toNat) .MEM_HR_STAT_CAUSE = 5 ∧
    t.get (hrAt ring.toNat) .MEM_HR_STAT_ERRS = satAdd 65535 (s.get (hrAt ring.toNat) .MEM_HR_STAT_ERRS) 1 ∧
    s.keepsRegs (.MEM_HR_STAT :: .NOC_FENCE_CNT :: eventRegs) t ∧ s.keepsMem t) ∧
  (∀ (ring : BitVec 12) (descs : List (BitVec 256)) (bytes : List Byte) (status : BitVec 4) (held rate : Bool) (s : State),
    s.ringRuns ring.toNat = false ∨ s.flag (hrAt ring.toNat) .MEM_HR_CFG_DIR = false ∨ s.pcie.linkUp = false →
    exec (.hostRingTxFrame ring descs bytes status held rate) s = .next s) ∧
  (∀ (ring : BitVec 12) (queue : BitVec 16) (s : State), s.ringRuns ring.toNat = true →
    s.flag (hrAt ring.toNat) .MEM_HR_CFG_DIR = true →
    (∃ t, exec (.pcieCompletion ring .unsupported queue) s = .next t ∧ t.flag (hrAt ring.toNat) .MEM_HR_STAT_STOPPED = true ∧
      t.get (hrAt ring.toNat) .MEM_HR_STAT_CAUSE = 1 ∧
      t.get (hrAt ring.toNat) .MEM_HR_STAT_ERRS = satAdd 65535 (s.get (hrAt ring.toNat) .MEM_HR_STAT_ERRS) 1 ∧
      s.keepsRegs (.MEM_HR_STAT :: eventRegs) t ∧ s.keepsMem t) ∧
    (∃ t, exec (.pcieCompletion ring .abort queue) s = .next t ∧ t.flag (hrAt ring.toNat) .MEM_HR_STAT_STOPPED = true ∧
      t.get (hrAt ring.toNat) .MEM_HR_STAT_CAUSE = 2 ∧
      t.get (hrAt ring.toNat) .MEM_HR_STAT_ERRS = satAdd 65535 (s.get (hrAt ring.toNat) .MEM_HR_STAT_ERRS) 1 ∧
      s.keepsRegs (.MEM_HR_STAT :: eventRegs) t ∧ s.keepsMem t) ∧
    (∃ t, exec (.pcieCompletion ring .poisoned queue) s = .next t ∧ t.flag (hrAt ring.toNat) .MEM_HR_STAT_STOPPED = true ∧
      t.get (hrAt ring.toNat) .MEM_HR_STAT_CAUSE = 3 ∧
      t.get (hrAt ring.toNat) .MEM_HR_STAT_ERRS = satAdd 65535 (s.get (hrAt ring.toNat) .MEM_HR_STAT_ERRS) 1 ∧
      s.keepsRegs (.MEM_HR_STAT :: eventRegs) t ∧ s.keepsMem t) ∧
    (∃ t, exec (.pcieCompletionTimeout ring queue) s = .next t ∧ t.flag (hrAt ring.toNat) .MEM_HR_STAT_STOPPED = true ∧
      t.get (hrAt ring.toNat) .MEM_HR_STAT_CAUSE = 4 ∧
      t.get (hrAt ring.toNat) .MEM_HR_STAT_ERRS = satAdd 65535 (s.get (hrAt ring.toNat) .MEM_HR_STAT_ERRS) 1 ∧
      s.keepsRegs (.MEM_HR_STAT :: eventRegs) t ∧ s.keepsMem t)) ∧
  (∀ (ring : BitVec 12) (queue : BitVec 16) (s : State), exec (.pcieCompletion ring .ok queue) s = .next s) ∧
  (∀ (ring : BitVec 12) (s : State), (s.ring ring.toNat).waits = true → exec (.msixHoldoffExpiry ring) s =
    .next ((s.onRing ring.toNat fun x => { x with waits := false }).msix (s.get (hrAt ring.toNat) .MEM_HR_CFG_VEC))) ∧
  (∀ (ring : BitVec 12) (s : State), (s.ring ring.toNat).waits = false → exec (.msixHoldoffExpiry ring) s = .next s) ∧
  (∀ (ring : BitVec 12) (s : State), s.flag (hrAt ring.toNat) .MEM_HR_STAT_STOPPED = true → s.pcie.linkUp = true →
    ∃ t, exec (.hostRingResume ring) s = .next t ∧ t.flag (hrAt ring.toNat) .MEM_HR_STAT_STOPPED = false ∧
    s.keepsRegs [.MEM_HR_STAT] t ∧ s.keepsMem t) ∧
  (∀ (ring : BitVec 12) (s : State), s.flag (hrAt ring.toNat) .MEM_HR_STAT_STOPPED = false ∨ s.pcie.linkUp = false →
    ∃ t, exec (.hostRingResume ring) s = .next t ∧ t.flag (hrAt ring.toNat) .MEM_HR_STAT_CMD_IGNORED = true ∧
    s.keepsRegs [.MEM_HR_STAT] t ∧ s.keepsMem t)

/-- Chapter 17, the protection engines (R471, R474 to R481): rights, walks, the definition of regions, their initialisation and the
buffer.
Model's choices: log entries 35 (DEDUCED), 87 (DEDUCED), 88 (DEDUCED), 89 (DEDUCED), 249 (DESIGN CHOICE), 251 (DESIGN CHOICE). -/
def Obligations.ProtectionCommandsRun : Prop :=
  (∀ (e : Fin 8) (r : Fin 16) (value : BitVec 32) (s : State), s.rgnBusy e r = false →
    ∃ t, exec (.protRightsWrite e (some r) value) s = .next t ∧
    t.get (rgnAt e r) .PROT_RGN_RIGHTS_RIGHTS = value.toNat % 2 ^ 16 ∧ (t.prot e).walks = true ∧
    (∀ q : Fin 16, t.rgnBusy e q = true) ∧ s.keepsRegs [.PROT_RGN_RIGHTS, .PROT_RGN_STAT] t ∧ s.keepsMem t) ∧
  (∀ (e : Fin 8) (value : BitVec 32) (s : State), s.rgnBusy e (s.get (atDie (engDie e)) .PROT_IDX_RGN) = false →
    ∃ t, exec (.protRightsWrite e none value) s = .next t ∧ t.get (engAt e) .PROT_DEF_RIGHTS = value.toNat % 2 ^ 16 ∧
    (t.prot e).walks = true ∧ s.keepsRegs [.PROT_DEF, .PROT_RGN_STAT] t ∧ s.keepsMem t) ∧
  (∀ (e : Fin 8) (r : Fin 16) (value : BitVec 32) (s : State), s.rgnBusy e r = true →
    ∃ t, exec (.protRightsWrite e (some r) value) s = .next t ∧ t.flag (rgnAt e r) .PROT_RGN_STAT_CMD_IGNORED = true ∧
    t.prots = s.prots ∧ s.keepsRegs [.PROT_RGN_STAT] t ∧ s.keepsMem t) ∧
  (∀ (e : Fin 8) (s : State), (s.prot e).walks = true → ∃ t, exec (.protWalkDone e) s = .next t ∧ (t.prot e).walks = false ∧
    (∀ q : Fin 16, t.rgnBusy e q = decide (s.rgnSt e q = 3)) ∧
    (∀ x ∈ t.dir, within (x.1 * 64) (engRange e) = false) ∧ (s.net.lines = [] → s.keepsMem t)) ∧
  (∀ (e : Fin 8) (s : State), (s.prot e).walks = false → exec (.protWalkDone e) s = .next s) ∧
  (∀ (e : Fin 8) (r : Fin 16) (value : BitVec 32) (x : ProtRegion) (s : State), s.rgnBusy e r = false → s.rgnSt e r < 3 →
    value.getLsbD 31 = true → x = ⟨s.get (rgnAt e r) .PROT_RGN_BASE_LO_BASE + s.get (rgnAt e r) .PROT_RGN_BASE_HI_BASE * 2 ^ 32,
      value.toNat % 2 ^ 6, value.getLsbD 30⟩ → s.regionFits e r x = true → ∃ t, exec (.regionConfigWrite e r value) s = .next t ∧
    t.rgnSt e r = (if x.integ = true then 2 else 1) ∧ t.regions = Tbl.set s.regions (e * 16 + r) x ∧
    t.get (rgnAt e r) .PROT_RGN_META_SZ_LEVELS = (if x.integ = true then treeLevels x.groups % 16 else 0) ∧
    (t.prot e).walks = true ∧ t.rgnBusy e r = true ∧
    s.keepsRegs [.PROT_RGN_CFG, .PROT_RGN_STAT, .PROT_RGN_META_SZ] t ∧ s.keepsMem t) ∧
  (∀ (e : Fin 8) (r : Fin 16) (value : BitVec 32) (s : State), s.rgnBusy e r = false → s.rgnSt e r < 3 → value.getLsbD 31 = false →
    ∃ t, exec (.regionConfigWrite e r value) s = .next t ∧ t.rgnSt e r = 0 ∧ t.regions = Tbl.erase s.regions (e * 16 + r) ∧
    s.keepsRegs [.PROT_RGN_CFG, .PROT_RGN_STAT, .PROT_RGN_META_SZ] t ∧ s.keepsMem t) ∧
  (∀ (e : Fin 8) (r : Fin 16) (value : BitVec 32) (s : State), s.rgnBusy e r = true ∨ 3 ≤ s.rgnSt e r →
    ∃ t, exec (.regionConfigWrite e r value) s = .next t ∧ t.flag (rgnAt e r) .PROT_RGN_STAT_CMD_IGNORED = true ∧
    t.regions = s.regions ∧ s.keepsRegs [.PROT_RGN_STAT] t ∧ s.keepsMem t) ∧
  (∀ (e : Fin 8) (r : Fin 16) (s : State), s.rgnSt e r = 2 → s.rgnBusy e r = false → ∃ t, exec (.regionInit e r) s = .next t ∧
    t.rgnSt e r = 3 ∧ t.rgnBusy e r = true ∧ t.get (rgnAt e r) .PROT_RGN_PROG_LINES = 0 ∧
    s.keepsRegs [.PROT_RGN_STAT, .PROT_RGN_PROG] t ∧ s.keepsMem t) ∧
  (∀ (e : Fin 8) (r : Fin 16) (s : State), s.rgnSt e r ≠ 2 ∨ s.rgnBusy e r = true → ∃ t, exec (.regionInit e r) s = .next t ∧
    t.flag (rgnAt e r) .PROT_RGN_STAT_CMD_IGNORED = true ∧ t.rgnSt e r = s.rgnSt e r ∧ s.keepsRegs [.PROT_RGN_STAT] t ∧
    s.keepsMem t) ∧
  (∀ (e : Fin 8) (r : Fin 16) (lines : BitVec 32) (x : ProtRegion) (s : State), s.region e r = some x → s.rgnSt e r = 3 →
    lines.toNat < x.initLines → ∃ t, exec (.regionInitAbort e r lines) s = .next t ∧ t.rgnSt e r = 2 ∧
    t.get (rgnAt e r) .PROT_RGN_STAT_RESULT = 2 ∧ t.get (rgnAt e r) .PROT_RGN_PROG_LINES = lines.toNat ∧
    s.keepsRegs ([.PROT_RGN_STAT, .PROT_RGN_PROG] ++ eventRegs) t ∧ s.keepsMem t) ∧
  (∀ (e : Fin 8) (r : Fin 16) (lines : BitVec 32) (s : State), s.region e r = none ∨ s.rgnSt e r ≠ 3 →
    exec (.regionInitAbort e r lines) s = .next s) ∧
  (∀ (e : Fin 8) (r : Fin 16) (lines : BitVec 32) (x : ProtRegion) (s : State), s.region e r = some x → s.rgnSt e r = 3 →
    x.initLines ≤ lines.toNat → ∃ t, exec (.regionInitAbort e r lines) s = .next t ∧ t.rgnSt e r = 4 ∧
    t.get (rgnAt e r) .PROT_RGN_STAT_RESULT = 1 ∧ t.flag (rgnAt e r) .PROT_RGN_STAT_ABORT_LATE = true ∧
    t.mem = s.mem.clear x.base (2 ^ x.lg) ∧ s.keepsRegs ([.PROT_RGN_STAT, .PROT_RGN_PROG] ++ eventRegs) t) ∧
  (∀ (e : Fin 8) (r : Fin 16) (abort : Bool) (x : ProtRegion) (s : State), s.region e r = some x → s.rgnSt e r = 3 →
    ∃ t, exec (.regionInitDone e r false abort) s = .next t ∧ t.rgnSt e r = 4 ∧ t.get (rgnAt e r) .PROT_RGN_STAT_RESULT = 1 ∧
    (abort = true → t.flag (rgnAt e r) .PROT_RGN_STAT_ABORT_LATE = true) ∧ t.mem = s.mem.clear x.base (2 ^ x.lg) ∧
    s.keepsRegs ([.PROT_RGN_STAT, .PROT_RGN_PROG] ++ eventRegs) t) ∧
  (∀ (e : Fin 8) (r : Fin 16) (abort : Bool) (x : ProtRegion) (s : State), s.region e r = some x → s.rgnSt e r = 3 →
    ∃ t, exec (.regionInitDone e r true abort) s = .next t ∧ t.rgnSt e r = 2 ∧ t.get (rgnAt e r) .PROT_RGN_STAT_RESULT = 3 ∧
    s.keepsRegs ([.PROT_RGN_STAT, .PROT_RGN_PROG] ++ eventRegs) t ∧ s.keepsMem t) ∧
  (∀ (e : Fin 8) (r : Fin 16) (failed abort : Bool) (s : State), s.region e r = none ∨ s.rgnSt e r ≠ 3 →
    exec (.regionInitDone e r failed abort) s = .next s) ∧
  (∀ (e : Fin 8) (line : BitVec 42) (r : Nat) (x : ProtRegion) (s : State), (s.prot e).dirty.contains line.toNat = true →
    s.regionAt e (line.toNat * 64) = some (r, x) → Tbl.get 0 (s.prot e).minors line.toNat < 127 → (s.prot e).waiting = [] →
    (∀ a ∈ s.bufWords e line.toNat, s.eccMarked (engDie e) 11 a = false) → ∃ t, exec (.protBufferWriteback e line) s = .next t ∧
    Tbl.get 0 (t.prot e).minors line.toNat = Tbl.get 0 (s.prot e).minors line.toNat + 1 ∧
    ((s.prot e).dirty.length ≤ 2048 → s.metaBase e r / 64 + (line.toNat - x.base / 64) / 64 ∈ (t.prot e).dirty) ∧
    (x.integ = true → .memLine e line.toNat (xtsLine (s.engKey e 0) (s.engKey e 1)
      (tweakValue line.toNat e true (Tbl.get 0 (s.prot e).minors line.toNat + 1) (s.majorOf e r x line.toNat))
      (s.mem.line line.toNat)) ∈ t.sent) ∧
    s.keepsRegs [.ECC_TEST_CHK, .ECC_TEST_CTRL] t ∧ s.keepsMem t) ∧
  (∀ (e : Fin 8) (line : BitVec 42) (s : State), (s.prot e).dirty.contains line.toNat = false →
    exec (.protBufferWriteback e line) s = .next s)

/-- Chapter 15, sample compression (R424 to R432): a job is posted, started, run and flushed, and a frame is processed.
Model's choices: log entries 35 (DEDUCED), 246 (DESIGN CHOICE). -/
def Obligations.CompressionCommandsRun : Prop :=
  (∀ (die : PDie) (s : State), (s.engine die.die).jobs.length < 64 → ∃ t, exec (.cmpJobPost die) s = .next t ∧
    (t.engine die.die).jobs = (s.engine die.die).jobs ++ [⟨(List.range 4).map (fun i => (s.reg (atElem die.die i) .CMP_JOB_POST).toNat) ++
      [(s.reg (atDie die.die) .CMP_JOB_POST4).toNat], 0⟩] ∧
    t.get (atDie die.die) .CMP_JOB_STAT_QUEUED = (s.engine die.die).jobs.length + 1 ∧ s.keepsRegs [.CMP_JOB_STAT] t ∧ s.keepsMem t) ∧
  (∀ (die : PDie) (s : State), 64 ≤ (s.engine die.die).jobs.length → ∃ t, exec (.cmpJobPost die) s = .next t ∧
    t.flag (atDie die.die) .CMP_JOB_STAT_POST_IGNORED = true ∧ t.pkt = s.pkt ∧ s.keepsRegs [.CMP_JOB_STAT] t ∧ s.keepsMem t) ∧
  (∀ (die : PDie) (s : State), ∃ t, exec (.cmpJobFlush die) s = .next t ∧
    (t.engine die.die).jobs = (if (s.engine die.die).jobRuns = true then (s.engine die.die).jobs.take 1 else []) ∧
    (t.engine die.die).jobRuns = (s.engine die.die).jobRuns ∧ s.keepsRegs [.CMP_JOB_STAT] t ∧ s.keepsMem t) ∧
  (∀ (die : PDie) (j : CmpJob) (rest : List CmpJob) (s : State), (s.engine die.die).jobs = j :: rest →
    (s.engine die.die).jobRuns = false → s.gated die.die 12 = false → j.src % 4 = 0 → j.dst % 4 = 0 → j.blocks ≠ 0 →
    ∃ t, exec (.cmpJobStart die) s = .next t ∧ (t.engine die.die).jobRuns = true ∧
    t.flag (atDie die.die) .CMP_JOB_STAT_BUSY = true ∧
    (t.engine die.die).jobs = { j with cfg := (s.reg (atSel die.die (bitsOf (j.post.getD 4 0) 24 5)) .CMP_PROF_CFG).toNat } :: rest ∧
    s.keepsRegs [.CMP_JOB_STAT] t ∧ s.keepsMem t) ∧
  (∀ (die : PDie) (j : CmpJob) (rest : List CmpJob) (s : State), (s.engine die.die).jobs = j :: rest →
    (s.engine die.die).jobRuns = false → s.gated die.die 12 = false → j.src % 4 ≠ 0 ∨ j.dst % 4 ≠ 0 →
    ∃ t, exec (.cmpJobStart die) s = .next t ∧ (t.engine die.die).jobs = rest ∧ (t.engine die.die).jobRuns = false ∧
    t.get (atDie die.die) .CMP_JOB_STAT_RESULT = 2 ∧ t.get (atDie die.die) .CMP_JOB_STAT_STATUS = 5 ∧
    s.keepsRegs ([.CMP_JOB_STAT, .CMP_JOB_OUT] ++ eventRegs) t ∧ s.keepsMem t) ∧
  (∀ (die : PDie) (s : State), (s.engine die.die).jobs = [] ∨ (s.engine die.die).jobRuns = true ∨ s.gated die.die 12 = true →
    exec (.cmpJobStart die) s = .next s) ∧
  (∀ (die : PDie) (j : CmpJob) (rest : List CmpJob) (s : State), (s.engine die.die).jobs = j :: rest →
    (s.engine die.die).jobRuns = false → s.gated die.die 12 = false → j.src % 4 = 0 → j.dst % 4 = 0 → j.blocks = 0 →
    ∃ t, exec (.cmpJobStart die) s = .next t ∧ (t.engine die.die).jobs = rest ∧ (t.engine die.die).jobRuns = false ∧
    t.get (atDie die.die) .CMP_JOB_STAT_RESULT = 1 ∧ t.get (atDie die.die) .CMP_JOB_OUT_BYTES = 0 ∧
    s.keepsRegs ([.CMP_JOB_STAT, .CMP_JOB_OUT] ++ eventRegs) t ∧ s.keepsMem t) ∧
  (∀ (die : PDie) (j : CmpJob) (rest : List CmpJob) (status : BitVec 4) (written : BitVec 32) (s : State),
    (s.engine die.die).jobs = j :: rest → (s.engine die.die).jobRuns = true → s.gated die.die 12 = false →
    ∃ t, exec (.cmpJobEnd die status written) s = .next t ∧ (t.engine die.die).jobRuns = false ∧
    (status ≠ 0 → t.get (atDie die.die) .CMP_JOB_STAT_RESULT = 2)) ∧
  (∀ (die : PDie) (j : CmpJob) (rest : List CmpJob) (status : BitVec 4) (written : BitVec 32) (p : CmpProf) (b n cls k : Nat)
    (l : List Nat) (s u v : State), (s.engine die.die).jobs = j :: rest → (s.engine die.die).jobRuns = true →
    s.gated die.die 12 = false → p = profOf j.cfg false → cls = Nat.max 1 (bitsOf (j.post.getD 4 0) 29 2) →
    b = (if status = 0 then j.blocks else Nat.min j.blocks (p.dstBlocks written.toNat)) →
    State.engineRead (ident die.die 3 3 3) 6 cls (spans (p.srcBytes b + 1) j.src (p.srcBytes b)) s [] = (u, l, 0) →
    n = (if status = 0 then (jobOut p b l).1.length else Nat.min written.toNat (jobOut p b l).1.length) →
    State.engineWrite (ident die.die 3 3 3) 6 cls (spans (n + 1) j.dst n) u (jobOut p b l).1 0 = (v, k, 0) →
    ∃ t, exec (.cmpJobEnd die status written) s = .next t ∧ (t.engine die.die).jobs = (v.engine die.die).jobs.drop 1 ∧
    (t.engine die.die).jobRuns = false ∧ t.get (atDie die.die) .CMP_JOB_STAT_RESULT = (if status = 0 then 1 else 2) ∧
    (status ≠ 0 → t.get (atDie die.die) .CMP_JOB_STAT_STATUS = status.toNat) ∧
    t.get (atDie die.die) .CMP_JOB_OUT_BYTES = k % 2 ^ 32 ∧
    v.keepsRegs ([.CMP_JOB_STAT, .CMP_JOB_OUT, .CMP_BLOCKS, .CMP_CNT1] ++ eventRegs) t ∧ v.keepsMem t) ∧
  (∀ (die : PDie) (status : BitVec 4) (written : BitVec 32) (s : State), (s.engine die.die).jobs = [] ∨
    (s.engine die.die).jobRuns = false ∨ s.gated die.die 12 = true → exec (.cmpJobEnd die status written) s = .next s) ∧
  (∀ (die : PDie) (rate : Bool) (x : CmpFrame) (rest : List CmpFrame) (s : State), (s.engine die.die).cmpIn = x :: rest →
    exec (.cmpFrameProcess die rate) s =
    .next ((s.onEngine die.die fun e => { e with cmpIn := rest }).cmpFrame die.die x rate)) ∧
  (∀ (die : PDie) (rate : Bool) (s : State), (s.engine die.die).cmpIn = [] → exec (.cmpFrameProcess die rate) s = .next s)

/-- Chapters 01 and 19 and the management port of chapter 18: accesses to the control space, the management port's transactions, BAR0
and the calibration set (R9 to R14, R45, R47, R136, R459, R460, R519 to R523, R545).
Model's choices: log entries 35 (DEDUCED), 159 (DEDUCED), 160 (DEDUCED), 161 (DEDUCED), 162 (DEDUCED), 171 (DEDUCED). -/
def Obligations.AccessCommandsRun : Prop :=
  (∀ (die : Die) (offset value : Word) (icls : BitVec 3) (r : Reg) (a : At) (s : State), s.up die = true → offset.toNat % 4 = 0 →
    s.regAt die offset.toNat = some (r, a) → r ≠ .HMR_DBG_REG_DATA → exec (.registerWrite die offset value icls) s =
    .next ((s.regWrite a r value icls.toNat).setAnswerStatus 0)) ∧
  (∀ (die : Die) (offset value : Word) (icls : BitVec 3) (s : State), s.up die = true → offset.toNat % 4 = 0 →
    s.regAt die offset.toNat = none → exec (.registerWrite die offset value icls) s = .next (s.setAnswerStatus 0)) ∧
  (∀ (die : Die) (offset value : Word) (icls : BitVec 3) (s : State), s.up die = false →
    exec (.registerWrite die offset value icls) s = .next (s.setAnswerStatus 4)) ∧
  (∀ (die : Die) (offset value : Word) (icls : BitVec 3) (s : State), s.up die = true → offset.toNat % 4 ≠ 0 →
    exec (.registerWrite die offset value icls) s = .next (s.setAnswerStatus 5)) ∧
  (∀ (r : NocReq) (check : MemCheck) (badEcc : Bool) (t : Target) (s : State), r.known = true → reqTarget r = some t →
    r.icls ≠ 5 ∨ s.up t.die = true → badEcc = false ∨ r.takes = false → exec (.nocTargetRequest r check badEcc) s =
    .next (let u := if r.takes then s.bwCount t.die 0 t.ident (2 ^ r.size.toNat) 1 else s
      (if r.brings then u.bwCount t.die 1 t.ident (2 ^ r.size.toNat) 1 else u).targetServe r check t)) ∧
  (∀ (r : NocReq) (check : MemCheck) (badEcc : Bool) (t : Target) (s : State), r.known = true → reqTarget r = some t →
    r.icls = 5 → s.up t.die = false → exec (.nocTargetRequest r check badEcc) s = .next (s.respond r 4 0)) ∧
  (∀ (r : NocReq) (check : MemCheck) (t : Target) (s : State), r.known = true → reqTarget r = some t →
    r.icls ≠ 5 ∨ s.up t.die = true → r.takes = true → exec (.nocTargetRequest r check true) s = .next (s.respond r 1 0)) ∧
  (∀ (r : NocReq) (check : MemCheck) (badEcc : Bool) (s : State), r.known = true → reqTarget r = none →
    exec (.nocTargetRequest r check badEcc) s = .next (s.respond r 5 0)) ∧
  (∀ (r : NocReq) (check : MemCheck) (badEcc : Bool) (s : State), r.known = false →
    exec (.nocTargetRequest r check badEcc) s = .next s) ∧
  (∀ (addr : BitVec 48) (data : Word) (s : State), s.mgt.burst = false → s.mgtReady = true → s.clk.locked = true →
    exec (.mgtWrite addr data 88 true) s = .next ((s.mgtAccept false 0).request ((s.mgtAccept false 0).hostReq 7 true addr.toNat data)
      (.mgt 0)) ∧
    exec (.mgtRead addr 56) s = .next ((s.mgtAccept false 0).request ((s.mgtAccept false 0).hostReq 7 false addr.toNat 0) (.mgt 1))) ∧
  (∀ (addr : BitVec 48) (s : State), s.mgt.burst = false → s.mgtReady = true → ∃ t, exec (.mgtBurst addr true false) s = .next t ∧
    t.mgt.burst = true ∧ t.mgt.burstAddr = addr.toNat ∧ t.mgt.burstHeld = 0 ∧ t.mgt.done = false ∧ s.keepsRegs [] t ∧ s.keepsMem t) ∧
  (∀ (addr : BitVec 48) (data : Word) (s : State), s.mgt.burst = false → s.mgtReady = true →
    ∃ t, exec (.mgtWrite addr data 87 true) s = .next t ∧ exec (.mgtWrite addr data 88 false) s = .next t ∧
    exec (.mgtRead addr 55) s = .next t ∧ exec (.mgtBurst addr false true) s = .next t ∧ t.mgt.frameErr = true ∧
    t.mgt.dropped = false ∧ t.get (atDie .e0) .MGT_STAT_FRAME_ERR = satAdd 255 (s.get (atDie .e0) .MGT_STAT_FRAME_ERR) 1 ∧
    s.keepsRegs [.MGT_STAT] t ∧ s.keepsMem t) ∧
  (∀ (addr : BitVec 48) (data : Word) (s : State), s.clk.power ≠ 0 → s.mgt.burst = false → s.mgtReady = false →
    ∃ t, exec (.mgtWrite addr data 88 true) s = .next t ∧ exec (.mgtRead addr 56) s = .next t ∧
    exec (.mgtBurst addr true false) s = .next t ∧ t.mgt.dropped = true ∧ t.mgt.frameErr = false ∧
    t.get (atDie .e0) .MGT_STAT_DROPPED = satAdd 255 (s.get (atDie .e0) .MGT_STAT_DROPPED) 1 ∧ s.keepsRegs [.MGT_STAT] t ∧
    s.keepsMem t) ∧
  (∀ (value : Word) (s : State), s.mgt.burst = true → s.mgtReady = false → ∃ t, exec (.mgtBurstWord value 32 false) s = .next t ∧
    t.mgt = { s.mgt with burstAddr := (s.mgt.burstAddr + 4) % 2 ^ 48, dropped := true } ∧
    t.get (atDie .e0) .MGT_STAT_DROPPED = satAdd 255 (s.get (atDie .e0) .MGT_STAT_DROPPED) 1 ∧ s.keepsRegs [.MGT_STAT] t ∧
    s.keepsMem t) ∧
  (∀ (value : Word) (s : State), s.mgt.burst = true → s.mgtReady = true → exec (.mgtBurstWord value 32 false) s =
    .next (((s.setMgt { s.mgt with burstAddr := (s.mgt.burstAddr + 4) % 2 ^ 48 }).setMgt
      { s.mgt with burstAddr := (s.mgt.burstAddr + 4) % 2 ^ 48, burstHeld := s.mgt.burstHeld + 1 }).mgtAccess 2 s.mgt.burstAddr
      value)) ∧
  (∀ (value : Word) (s : State), s.mgt.burst = true → s.mgt.burstHeld = 0 → ∃ t, exec (.mgtBurstWord value 16 true) s = .next t ∧
    t.mgt.burst = false ∧ t.mgt.done = true ∧ t.mgt.frameErr = true ∧ s.keepsRegs [.MGT_STAT] t ∧ s.keepsMem t) ∧
  (∀ (value : Word) (bits : Fin 33) (ends : Bool) (s : State), s.mgt.burst = false →
    exec (.mgtBurstWord value bits ends) s = .next s) ∧
  (∀ s : State, s.clk.power ≠ 0 → ∃ t, exec .mgtResult s = .next t ∧ t.answer = BitVec.ofNat 32 s.mgt.data ∧ t.mgt = s.mgt ∧
    t.sent = .mgtResult (natOf s.mgt.done * 128 + natOf s.mgt.frameErr * 64 + natOf s.mgt.dropped * 32 + s.mgt.status % 16) s.mgt.data
      :: s.sent ∧ s.keepsRegs [] t ∧ s.keepsMem t) ∧
  (∀ (write : Bool) (offset : BitVec 26) (value : Word) (s : State), s.pcie.linkUp = true → offset.toNat % 4 = 0 →
    exec (.bar0Access write offset 4 value) s = .next (s.request (s.hostReq 4 write
      (0x3F0000000000 + offset.toNat / 2 ^ 23 * 2 ^ 32 + offset.toNat / 2 ^ 18 % 32 * 2 ^ 24 + offset.toNat % 2 ^ 18) value)
      (.bar0 write))) ∧
  (∀ (offset : BitVec 26) (bytes : BitVec 13) (value : Word) (s : State), s.pcie.linkUp = true → bytes ≠ 4 ∨ offset.toNat % 4 ≠ 0 →
    ∃ t, exec (.bar0Access true offset bytes value) s = .next t ∧
    t.get (atDie .e0) .MEM_PCI_STAT_BAR_ERR = satAdd 65535 (s.get (atDie .e0) .MEM_PCI_STAT_BAR_ERR) 1 ∧
    s.keepsRegs [.MEM_PCI_STAT] t ∧ s.keepsMem t) ∧
  (∀ (write : Bool) (offset : BitVec 26) (bytes : BitVec 13) (value : Word) (s : State), s.pcie.linkUp = false →
    exec (.bar0Access write offset bytes value) s = .next s) ∧
  (∀ (flash : Bool) (s : State), s.clk.locked = true → s.flag (atDie .e0) .PROT_KEY_STAT_LOADED = false →
    s.flag (atDie .e0) .PROT_KEY_STAT_FAIL = false → ∃ t, exec (.calibrationApply flash true none) s = .next t ∧
    t.cal = ⟨255, 0, true, 0⟩ ∧ t.flag (atDie .e0) .PROT_KEY_STAT_LOADED = true ∧
    t.flag (atDie .e0) .MGT_CAL_STAT_ACTIVE = false ∧ t.flag (atDie .e0) .MGT_CAL_STAT_NOFLASH = !flash ∧
    s.keepsRegs [.PROT_KEY_STAT, .MGT_CAL_STAT] t ∧ s.keepsMem t) ∧
  (∀ (c : CalCopy) (s : State), s.clk.locked = true → s.flag (atDie .e0) .PROT_KEY_STAT_LOADED = false →
    s.flag (atDie .e0) .PROT_KEY_STAT_FAIL = false → c.bench = true → ∃ t, exec (.calibrationApply true true (some c)) s = .next t ∧
    t.cal = ⟨c.sector.toNat, c.gen.toNat, true, 0⟩ ∧ t.flag (atDie .e0) .PROT_KEY_STAT_LOADED = true ∧
    t.flag (atDie .e0) .MGT_CAL_STAT_ACTIVE = false ∧ s.keepsRegs [.PROT_KEY_STAT, .MGT_CAL_STAT] t ∧ s.keepsMem t) ∧
  (∀ (c : CalCopy) (s : State), s.clk.locked = true → s.flag (atDie .e0) .PROT_KEY_STAT_LOADED = false →
    s.flag (atDie .e0) .PROT_KEY_STAT_FAIL = false → c.bench = false → exec (.calibrationApply true true (some c)) s =
    .next (c.pairs.foldl (fun s p => s.calPair p) (((s.keysLoad true).setCal ⟨c.sector.toNat, c.gen.toNat, false, 0⟩).puts (atDie .e0)
      [(.MGT_CAL_STAT_ACTIVE, 1), (.MGT_CAL_STAT_NEXT, 1), (.MGT_CAL_STAT_GEN, c.gen.toNat)]))) ∧
  (∀ (flash keys : Bool) (copy : Option CalCopy) (s : State), s.clk.locked = false ∨
    s.flag (atDie .e0) .PROT_KEY_STAT_LOADED = true → exec (.calibrationApply flash keys copy) s = .next s)

/-- The block takes its commands first in, first out: a step with a command at the front of the queue is that command on the state
with the queue's rest, and a step on an empty queue is one cycle of what goes on by itself (the model's choice, DESIGN CHOICE, log entry 7).
Model's choices: log entries 7 (DESIGN CHOICE). -/
def Obligations.StepRunsTheFrontCommand : Prop :=
  (∀ (c : Instr) (rest : List Instr) (s : State), step (s.setPending (c :: rest)) = exec c (s.setPending rest)) ∧
  (∀ (s : State), s.pending = [] → step s = .next s.idle)

/-- Every step goes on: from every state the machine answers a next state, its queue is the old one without its front, and memory
that was in its canonical form is in it again.
Model's choices: log entries 5 (DESIGN CHOICE), 7 (DESIGN CHOICE). -/
def Obligations.StepGoesOnAndKeepsMemoryCanonical : Prop :=
  ∀ (s : State), ∃ t, step s = .next t ∧ t.pending = s.pending.tail ∧ (s.memCanonical → t.memCanonical)

/-- No command outside `Instr.mayStore` changes a byte of memory or the queue, and each of them answers a next state. -/
def Obligations.OnlyStoringCommandsChangeMemory : Prop :=
  ∀ (c : Instr) (s : State), Machine.Instr.mayStore c = false → ∃ t, exec c s = .next t ∧ t.mem = s.mem ∧ t.pending = s.pending

/-- After reset the queue is empty and memory canonical with every byte 0 (the byte is the model's choice, DESIGN CHOICE, log entry 5), and the
registers hold the reset values of the tables of chapters 01 to 19, for every unit.
Model's choices: log entries 5 (DESIGN CHOICE), 36 (DEDUCED). -/
def Obligations.ResetStateHoldsTheTablesValues : Prop :=
  State.reset.memCanonical ∧ State.reset.pending = [] ∧ (∀ a, State.reset.mem.byte a = 0) ∧
  (∀ (a : At), State.reset.get a .DIE_ID_FAMILY = 0x880 ∧ State.reset.get a .DIE_ID_PKG = 1 ∧
    State.reset.get a .DIE_ID_INDEX = a.die.idx ∧ (∀ n, n < 8 → State.reset.get a (.DIE_STATE_ST n) = 0)) ∧
  (∀ (a : At), State.reset.get a .STK_TIMING_PERIOD = 500 ∧ State.reset.get a .STK_TIMING_HEAT = 125 ∧
    State.reset.get a .STK_TIMING_NEXT_PERIOD = 500 ∧ State.reset.get a .STK_TIMING_NEXT_HEAT = 125 ∧
    State.reset.get a .STK_CHG_CTRL_RETRY_LIMIT = 8) ∧
  (∀ (a : At), State.reset.get a .NOC_RTR_CTRL_WGT_H = 8 ∧ State.reset.get a .NOC_RTR_CTRL_WGT_N = 4 ∧
    State.reset.get a .NOC_RTR_CTRL_WGT_B = 1 ∧ State.reset.get a .NOC_TMO_X_LIMIT = 100 ∧ State.reset.get a .NOC_TMO_H_LIMIT = 100 ∧
    State.reset.get a .NOC_TMO_N_LIMIT = 100 ∧ State.reset.get a .NOC_TMO_B_LIMIT = 100 ∧
    State.reset.get a .NOC_FENCE_CFG_DRAIN_LIMIT = 10 ∧ (∀ p, p < 16 → State.reset.get a (.NOC_FENCE_STAT_P p) = 2)) ∧
  (∀ (a : At), State.reset.get a .WLD_ERR_CFG_THRESH = 16 ∧ State.reset.get a .WLD_ERR_CFG_WINDOW = 1000 ∧
    State.reset.get a .CFG_STATUS_CODE = 0 ∧ (∀ p, p < 16 → State.reset.get a (.PRC_STATE_P p) = 2) ∧
    State.reset.get a .SCR_CTRL_EN = 1 ∧ State.reset.get a .SCR_LAP_LIMIT_LIMIT = 10000) ∧
  (∀ (a : At), State.reset.get a .HMR_WDOG_CTRL_PERIOD = 1000 ∧ State.reset.get a .DBG_SWD_CTRL_PERIOD = 1000 ∧
    State.reset.get a .LAN_LANE_STAT_STATE = 1 ∧ State.reset.get a .LAN_LPBK_TX_MUTE = 1 ∧ State.reset.get a .LAN_FOM_CFG_MIN = 64 ∧
    State.reset.get a .LAN_RCK0_CTRL_DIV = 165 ∧ State.reset.get a .LAN_RCK1_CTRL_DIV = 165) ∧
  (∀ (a : At), State.reset.get a .PKT_TOD_CTRL_RUN = 1 ∧ State.reset.get a .PKT_TOD_INCR_INCR = 0x20000000 ∧
    State.reset.get a .PKT_PPS_CFG_WIDTH = 100000 ∧ State.reset.get a .MEM_CXL_CTRL_MAX_SPEED = 2 ∧
    State.reset.get a .MEM_DDR_STAT_STATE = 1 ∧ State.reset.get a .MEM_DDR_DLY_VALUE = 128 ∧
    State.reset.get a .PROT_DEF_RIGHTS = 0xAAAA ∧ State.reset.get a .ECC_GRP_CTRL_SCRUB = 1) ∧
  (∀ (a : At), State.reset.get a .CLK_CTRL_XTAL_EN = 1 ∧ (∀ k, k < 4 → State.reset.get a (.CLK_CTRL_PRIO k) = 15) ∧
    State.reset.get a .CLK_SRC_FREQ_KHZ = (if a.elem = 0 then 50000 else 0) ∧ State.reset.get a .CLK_GATE_RUN_EN = 1 ∧
    State.reset.get a .PWR_PL_NEXT_LEVEL = 1 ∧ State.reset.get a .PWR_PL_STAT_LEVEL = natOf a.die.isFab ∧
    State.reset.get a .PWR_PL_STAT_VREQ = (if a.die.isFab then 750 else 0) ∧ State.reset.get a .PWR_TEMP_CFG_HOT = 110) ∧
  (∀ (a : At), State.reset.get a .EVT_ROUTE_ATTN = natOf (decide (a.sel < 64)) ∧
    State.reset.get a .EVT_ROUTE_BOOK = natOf (decide (a.sel < 64)) ∧ State.reset.get a .PMC_BW_CFG_WINDOW = 125 ∧
    State.reset.get a .REC_FL_CFG_PROG = 0x12 ∧ State.reset.get a .REC_FL_CFG_ERASE = 0xDC ∧
    State.reset.get a .REC_FL_CFG_RDSR = 5 ∧ State.reset.get a .REC_FL_CFG_SR_DUMMY = 8)

/-- Chapter 09: SYND is the exclusive-or of the indices of the set bits with their number's parity in bit 12, and one flipped bit of
the data shows its own index (R245). -/
def Obligations.SyndromeNamesTheFlippedBit : Prop :=
  ∀ (data : BitVec 4096),
    (∀ k, k < 12 → (syndOf data).testBit k =
      decide (((List.range 4096).filter fun i => data.getLsbD i && i.testBit k).length % 2 = 1)) ∧
    (syndOf data).testBit 12 = decide (((List.range 4096).filter fun i => data.getLsbD i).length % 2 = 1) ∧
    syndOf data < 2 ^ 13 ∧
    (∀ i, i < 4096 → syndOf (data ^^^ (1#4096 <<< i)) ^^^ syndOf data = 4096 + i)

/-- Chapter 15, the choice of an exponent (R419) and the rounding of a mantissa (R420): the exponent is the smallest that fits every
component, it is at most e_max, each mantissa is the nearest integer to x / 2^e and the even one of two that are equally near, and
the expander gives q × 2^e held in the 16-bit range. -/
def Obligations.CompressorChoosesTheSmallestExponent : Prop :=
  (∀ (x : Int) (e : Nat), 2 * (x - roundShift x e true * 2 ^ e).natAbs ≤ 2 ^ e ∧
    (2 * (x - roundShift x e true * 2 ^ e).natAbs = 2 ^ e → e ≠ 0 → roundShift x e true % 2 = 0)) ∧
  (∀ (m : Nat) (xs : List Int), 6 ≤ m → m ≤ 16 → (∀ x ∈ xs, -32768 ≤ x ∧ x ≤ 32767) →
    blockExp m xs ≤ (if m = 16 then 0 else 17 - m) ∧
    (∀ x ∈ xs, -(2 ^ (m - 1)) ≤ roundShift x (blockExp m xs) true ∧ roundShift x (blockExp m xs) true ≤ 2 ^ (m - 1) - 1) ∧
    (∀ e, e < blockExp m xs → ∃ x ∈ xs, ¬ (-(2 ^ (m - 1)) ≤ roundShift x e true ∧ roundShift x e true ≤ 2 ^ (m - 1) - 1))) ∧
  (∀ (m : Nat) (xs : List Int), 6 ≤ m → m ≤ 16 → (∀ x ∈ xs, -32768 ≤ x ∧ x ≤ 32767) →
    unpackBlock m xs.length (packBlock m xs) = (xs.map fun x => max (-32768) (min 32767 (roundShift x (blockExp m xs) true * 2 ^ blockExp m xs)),
      blockExp m xs))

/-- Chapter 15, the loss statement (R421): for every component of every block, twice the error of compressing and expanding is at
most 2^e for the block's exponent e, and with m = 16 nothing is lost; no error is above 2^(16 − m). -/
def Obligations.CompressionLossStaysInBounds : Prop :=
  ∀ (m : Nat) (xs : List Int), 6 ≤ m → m ≤ 16 → (∀ x ∈ xs, -32768 ≤ x ∧ x ≤ 32767) →
    (unpackBlock m xs.length (packBlock m xs)).1.length = xs.length ∧
    (∀ p ∈ xs.zip (unpackBlock m xs.length (packBlock m xs)).1,
      2 * (p.1 - p.2).natAbs ≤ 2 ^ (unpackBlock m xs.length (packBlock m xs)).2 ∧ (p.1 - p.2).natAbs ≤ 2 ^ (16 - m)) ∧
    (m = 16 → (unpackBlock m xs.length (packBlock m xs)) = (xs, 0))

/-- Chapter 15, the compressed stream (R422): a block holds the exponent in its first 4 bits, lowest first, then each mantissa as m
bits of two's complement, and nothing more; bit k of the stream is bit k mod 8 of byte k / 8; block i begins at bit i × (4 + 2Nm),
where a block has 2N components; the stream takes that many bits in whole bytes, and the unused bits of its last byte are 0. -/
def Obligations.CompressedStreamHasTheFormat : Prop :=
  (∀ (m : Nat) (xs : List Int), 6 ≤ m → m ≤ 16 → (∀ x ∈ xs, -32768 ≤ x ∧ x ≤ 32767) →
    packBlock m xs % 16 = blockExp m xs ∧ packBlock m xs < 2 ^ (4 + m * xs.length) ∧
    (∀ i (h : i < xs.length), packBlock m xs / 2 ^ (4 + m * i) % 2 ^ m = (roundShift xs[i] (blockExp m xs) true % 2 ^ m).toNat)) ∧
  (∀ (p : CmpProf) (b : Nat) (l : List Nat), 6 ≤ p.m → p.m ≤ 16 → (compressBytes p b l).length = (b * (4 + p.count * p.m) + 7) / 8 ∧
    (∀ i j, i < b → j < 4 + p.count * p.m →
      ((compressBytes p b l).getD ((i * (4 + p.count * p.m) + j) / 8) 0).testBit ((i * (4 + p.count * p.m) + j) % 8) =
        (packBlock p.m ((((pieces (compBytes p) (b * p.count) l).map (readComp p)).drop (i * p.count)).take p.count)).testBit j) ∧
    (∀ k, b * (4 + p.count * p.m) ≤ k → ((compressBytes p b l).getD (k / 8) 0).testBit (k % 8) = false))
end

