-- ==== Sys2Proof/Laws/Codes.lean ====
section
/-! SUPPORT. Laws of the codes: bytes and the numbers they spell, the length of a digest, the CRC of a sealed group, and the codes of a
blank frame. -/

namespace Sys2Proof.Machine

/-! ### Bytes -/

theorem bytesLE_length (v n : Nat) : (bytesLE v n).length = n := by
  induction n generalizing v with
  | zero => rfl
  | succ n ih => simp [bytesLE, ih]

theorem bytesLE_byte (v n : Nat) : ∀ b ∈ bytesLE v n, b < 256 := by
  induction n generalizing v with
  | zero => simp [bytesLE]
  | succ n ih =>
    intro b hb
    rcases List.mem_cons.1 hb with rfl | h
    · omega
    · exact ih _ b h

theorem ofBytesLE_lt (l : List Nat) : ofBytesLE l < 256 ^ l.length := by
  induction l with
  | nil => simp [ofBytesLE]
  | cons b t ih => simp only [ofBytesLE, List.length_cons, Nat.pow_succ]; omega

/-- Bytes spell a number whose bytes they are. -/
theorem bytesLE_ofBytesLE {l : List Nat} (h : ∀ b ∈ l, b < 256) : bytesLE (ofBytesLE l) l.length = l := by
  induction l with
  | nil => rfl
  | cons b t ih =>
    have hb := h b (by simp)
    have ht := ih fun c hc => h c (by simp [hc])
    have e : (b % 256 + 256 * ofBytesLE t) / 256 = ofBytesLE t := by omega
    have e' : (b % 256 + 256 * ofBytesLE t) % 256 = b := by omega
    simp only [ofBytesLE, List.length_cons, bytesLE, e, e', ht]

/-! ### SHA-256 -/

theorem shaRound_length (x : List (BitVec 32) × List (BitVec 32)) (k : BitVec 32) : (shaRound x k).1.length = 8 := rfl

theorem shaInit_length : shaInit.length = 8 := by
  have h : shaPrimes.length = 64 := by decide
  simp [shaInit, h]

theorem shaBlock_length (h : List (BitVec 32)) (block : List Nat) (hh : h.length = 8) : (shaBlock h block).length = 8 := by
  have fold : ∀ (l : List (BitVec 32)) (x : List (BitVec 32) × List (BitVec 32)), x.1.length = 8 → (l.foldl shaRound x).1.length = 8 := by
    intro l
    induction l with
    | nil => exact fun _ hx => hx
    | cons k t ih => exact fun x _ => ih _ (shaRound_length x k)
  have e := fold (shaPrimes.map (rootFraction 3)) (h, shaWords block 16) hh
  simp [shaBlock, hh, e]

theorem shaBlocks_length (n : Nat) (h : List (BitVec 32)) (l : List Nat) (hh : h.length = 8) : (shaBlocks n h l).length = 8 := by
  induction n generalizing h l with
  | zero => exact hh
  | succ n ih =>
    unfold shaBlocks
    split
    · exact hh
    · exact ih _ _ (shaBlock_length _ _ hh)

theorem shaBytes_length (h : List (BitVec 32)) : (shaBytes h).length = 4 * h.length := by
  induction h with
  | nil => rfl
  | cons w t ih =>
    have := bytesLE_length w.toNat 4
    simp only [shaBytes, List.flatMap_cons, List.length_append, List.length_reverse, List.length_cons] at *
    omega

/-- A digest has 32 bytes. -/
theorem sha256_length (l : List Nat) : (sha256 l).length = 32 := by
  simp only [sha256, shaBytes_length, shaBlocks_length _ _ _ shaInit_length]

theorem sha256_byte (l : List Nat) : ∀ b ∈ sha256 l, b < 256 := by
  intro b hb
  obtain ⟨w, -, h⟩ := List.mem_flatMap.1 hb
  exact bytesLE_byte _ _ b (List.mem_reverse.1 h)

/-- A response that matches exists: HMAC-SHA-256 spells 256 bits (R318). -/
theorem hmacSha256_word (key msg : List Nat) : ∃ r : BitVec 256, hmacSha256 key msg = bytesLE r.toNat 32 := by
  have hl : (hmacSha256 key msg).length = 32 := sha256_length _
  have h := bytesLE_ofBytesLE (l := hmacSha256 key msg) (sha256_byte _)
  have hlt := ofBytesLE_lt (hmacSha256 key msg)
  rw [hl] at h hlt
  exact ⟨BitVec.ofNat 256 (ofBytesLE (hmacSha256 key msg)), by
    rw [BitVec.toNat_ofNat, Nat.mod_eq_of_lt (by simpa using hlt), h]⟩

/-! ### Frames -/

theorem crc32c_lt (l : List Nat) : crc32c l < 2 ^ 32 := BitVec.isLt _

/-- SYND of zero data is 0 (R245). -/
theorem syndOf_zero : syndOf 0 = 0 := by
  have fold : ∀ l : List Nat, l.foldl (fun (y i : Nat) => if (0 : BitVec 4096).getLsbD i then y ^^^ (4096 + i) else y) 0 = 0 := by
    intro l
    induction l with
    | nil => rfl
    | cons i t ih => simpa using ih
  exact fold _

/-- The blank frame's codes are right (R229, R244, R245). -/
theorem clean_blankFrame (d : Die) (f : Nat) : clean d f (blankFrame d f) = true := by
  have := syndOf_zero
  simpa [clean, blankFrame] using this

/-- A packet whose CRC is computed from the bytes it covers has a CRC that matches (R195). -/
theorem packetCrcOk_sealed (p : Packet) : packetCrcOk { p with crc := BitVec.ofNat 32 (crc32c (packetCovered p)) } = true := by
  have h := Nat.mod_eq_of_lt (crc32c_lt (packetCovered p))
  unfold packetCovered at h ⊢
  simp only [packetCrcOk, packetCovered, BitVec.toNat_ofNat, h, beq_self_eq_true]

/-! ### Groups of a weld channel -/

theorem weldCrc_congr (n : Nat) (g g' : BitVec 256) (c : BitVec 16) (h : ∀ i, i < n → g.getLsbD (i + 16) = g'.getLsbD (i + 16)) :
    weldCrc n g c = weldCrc n g' c := by
  induction n generalizing c with
  | zero => rfl
  | succ n ih =>
    simp only [weldCrc, h n (by omega)]
    exact ih _ fun i hi => h i (by omega)

theorem weldSeal_getLsbD (g : BitVec 256) (i : Nat) : (weldSeal g).getLsbD (i + 16) = g.getLsbD (i + 16) := by
  by_cases hi : i + 16 < 256
  · have h16 : ¬ i + 16 < 16 := by omega
    have hc : (weldCrc 240 ((g >>> 16) <<< 16) 0xFFFF#16).getLsbD (i + 16) = false := BitVec.getLsbD_of_ge _ _ (by omega)
    simp only [weldSeal, BitVec.getLsbD_or, BitVec.getLsbD_shiftLeft, BitVec.getLsbD_ushiftRight, BitVec.getLsbD_setWidth, hi, h16, hc,
      decide_true, decide_false, Bool.not_false, Bool.true_and, Bool.or_false]
    congr 1; omega
  · simp [BitVec.getLsbD_of_ge, Nat.le_of_not_lt hi]

/-- A sealed group's CRC matches (R166). -/
theorem weldCrcOk_weldSeal (g : BitVec 256) : weldCrcOk (weldSeal g) = true := by
  have e : weldCrc 240 (weldSeal g) 0xFFFF#16 = weldCrc 240 ((g >>> 16) <<< 16) 0xFFFF#16 := by
    refine weldCrc_congr _ _ _ _ fun i hi => ?_
    rw [weldSeal_getLsbD]
    have h : i + 16 < 256 := by omega
    have h16 : ¬ i + 16 < 16 := by omega
    simp only [BitVec.getLsbD_shiftLeft, BitVec.getLsbD_ushiftRight, h, h16, decide_true, decide_false, Bool.not_false, Bool.true_and]
    congr 1; omega
  have low : (weldSeal g).setWidth 16 = weldCrc 240 ((g >>> 16) <<< 16) 0xFFFF#16 := by
    ext i hi
    simp [weldSeal]
  simp [weldCrcOk, e, low]

/-- Sealing a group changes no field above its CRC (R166). -/
theorem groupBits_weldSeal (g : BitVec 256) (lo w : Nat) : groupBits (weldSeal g) (16 + lo) w = groupBits g (16 + lo) w := by
  have e : weldSeal g >>> 16 = g >>> 16 := by
    ext i hi
    simpa [Nat.add_comm] using weldSeal_getLsbD g i
  have e' : (weldSeal g).toNat / 2 ^ 16 = g.toNat / 2 ^ 16 := by
    simpa [BitVec.toNat_ushiftRight, Nat.shiftRight_eq_div_pow] using congrArg BitVec.toNat e
  simp only [groupBits, bitsOf, Nat.pow_add, ← Nat.div_div_eq_div_mul, e']

end Sys2Proof.Machine
end

