-- ==== Sys2Proof/Laws/HammerWords.lean ====
section
/-! SUPPORT. The fields of the Hammer cores' instruction words (R299): what each layout's word holds in each field, and that decoding
the word of an instruction gives the instruction, for every operand that the encoding admits. -/

namespace Sys2Proof

theorem branchWord_major {k : Nat} {c : Nat} {t : Nat} (_h0 : k < 8) (_h1 : c < 16) (_h2 : t < 32768) : hammerField (branchWord k c t)
    27 5 = 1 := by
  unfold hammerField branchWord; omega

theorem branchWord_zero {k : Nat} {c : Nat} {t : Nat} (_h0 : k < 8) (_h1 : c < 16) (_h2 : t < 32768) : hammerField (branchWord k c t)
    15 5 = 0 := by
  unfold hammerField branchWord; omega

theorem branchWord_kind {k : Nat} {c : Nat} {t : Nat} (_h0 : k < 8) (_h1 : c < 16) (_h2 : t < 32768) : hammerField (branchWord k c t)
    24 3 = k := by
  unfold hammerField branchWord; omega

theorem branchWord_cond {k : Nat} {c : Nat} {t : Nat} (_h0 : k < 8) (_h1 : c < 16) (_h2 : t < 32768) : hammerField (branchWord k c t)
    20 4 = c := by
  unfold hammerField branchWord; omega

theorem branchWord_target {k : Nat} {c : Nat} {t : Nat} (_h0 : k < 8) (_h1 : c < 16) (_h2 : t < 32768) : hammerField (branchWord k c t)
    0 15 = t := by
  unfold hammerField branchWord; omega

theorem repeatWord_major {l : Nat} {n : Nat} {x : Bool} {t : Nat} (_h0 : l < 2) (_h1 : n < 64) (_h3 : t < 65536) : hammerField
    (repeatWord l n x t) 27 5 = 2 := by
  unfold hammerField repeatWord; have := Bool.toNat_lt x; omega

theorem repeatWord_zero {l : Nat} {n : Nat} {x : Bool} {t : Nat} (_h0 : l < 2) (_h1 : n < 64) (_h3 : t < 65536) : hammerField
    (repeatWord l n x t) 16 3 = 0 := by
  unfold hammerField repeatWord; have := Bool.toNat_lt x; omega

theorem repeatWord_loop {l : Nat} {n : Nat} {x : Bool} {t : Nat} (_h0 : l < 2) (_h1 : n < 64) (_h3 : t < 65536) : hammerField
    (repeatWord l n x t) 26 1 = l := by
  unfold hammerField repeatWord; have := Bool.toNat_lt x; omega

theorem repeatWord_len {l : Nat} {n : Nat} {x : Bool} {t : Nat} (_h0 : l < 2) (_h1 : n < 64) (_h3 : t < 65536) : hammerField
    (repeatWord l n x t) 20 6 = n := by
  unfold hammerField repeatWord; have := Bool.toNat_lt x; omega

theorem repeatWord_fromX {l : Nat} {n : Nat} {x : Bool} {t : Nat} (_h0 : l < 2) (_h1 : n < 64) (_h3 : t < 65536) : hammerField
    (repeatWord l n x t) 19 1 = x.toNat := by
  unfold hammerField repeatWord; have := Bool.toNat_lt x; omega

theorem repeatWord_count {l : Nat} {n : Nat} {x : Bool} {t : Nat} (_h0 : l < 2) (_h1 : n < 64) (_h3 : t < 65536) : hammerField
    (repeatWord l n x t) 0 16 = t := by
  unfold hammerField repeatWord; have := Bool.toNat_lt x; omega

theorem specialWord_major {b : Bool} {c : Nat} {x : Nat} (_h1 : c < 64) (_h2 : x < 16) : hammerField (specialWord b c x) 27 5 = 3 := by
  unfold hammerField specialWord; have := Bool.toNat_lt b; omega

theorem specialWord_zero {b : Bool} {c : Nat} {x : Nat} (_h1 : c < 64) (_h2 : x < 16) : hammerField (specialWord b c x) 0 16 = 0 := by
  unfold hammerField specialWord; have := Bool.toNat_lt b; omega

theorem specialWord_to {b : Bool} {c : Nat} {x : Nat} (_h1 : c < 64) (_h2 : x < 16) : hammerField (specialWord b c x) 26 1 = b.toNat :=
    by
  unfold hammerField specialWord; have := Bool.toNat_lt b; omega

theorem specialWord_code {b : Bool} {c : Nat} {x : Nat} (_h1 : c < 64) (_h2 : x < 16) : hammerField (specialWord b c x) 20 6 = c := by
  unfold hammerField specialWord; have := Bool.toNat_lt b; omega

theorem specialWord_x {b : Bool} {c : Nat} {x : Nat} (_h1 : c < 64) (_h2 : x < 16) : hammerField (specialWord b c x) 16 4 = x := by
  unfold hammerField specialWord; have := Bool.toNat_lt b; omega

theorem aluWord_major {o : Nat} {d : Nat} {x : Nat} {t : Nat} (_h0 : o < 16) (_h1 : d < 16) (_h2 : x < 16) (_h3 : t < 16) : hammerField
    (aluWord o d x t) 27 5 = 4 := by
  unfold hammerField aluWord; omega

theorem aluWord_zero {o : Nat} {d : Nat} {x : Nat} {t : Nat} (_h0 : o < 16) (_h1 : d < 16) (_h2 : x < 16) (_h3 : t < 16) : hammerField
    (aluWord o d x t) 0 11 = 0 := by
  unfold hammerField aluWord; omega

theorem aluWord_op {o : Nat} {d : Nat} {x : Nat} {t : Nat} (_h0 : o < 16) (_h1 : d < 16) (_h2 : x < 16) (_h3 : t < 16) : hammerField
    (aluWord o d x t) 23 4 = o := by
  unfold hammerField aluWord; omega

theorem aluWord_xd {o : Nat} {d : Nat} {x : Nat} {t : Nat} (_h0 : o < 16) (_h1 : d < 16) (_h2 : x < 16) (_h3 : t < 16) : hammerField
    (aluWord o d x t) 19 4 = d := by
  unfold hammerField aluWord; omega

theorem aluWord_xs {o : Nat} {d : Nat} {x : Nat} {t : Nat} (_h0 : o < 16) (_h1 : d < 16) (_h2 : x < 16) (_h3 : t < 16) : hammerField
    (aluWord o d x t) 15 4 = x := by
  unfold hammerField aluWord; omega

theorem aluWord_xt {o : Nat} {d : Nat} {x : Nat} {t : Nat} (_h0 : o < 16) (_h1 : d < 16) (_h2 : x < 16) (_h3 : t < 16) : hammerField
    (aluWord o d x t) 11 4 = t := by
  unfold hammerField aluWord; omega

theorem immWord_major {o : Nat} {d : Nat} {m : Nat} (_h0 : o < 16) (_h1 : d < 16) (_h2 : m < 65536) : hammerField (immWord o d m) 27 5
    = 5 := by
  unfold hammerField immWord; omega

theorem immWord_zero {o : Nat} {d : Nat} {m : Nat} (_h0 : o < 16) (_h1 : d < 16) (_h2 : m < 65536) : hammerField (immWord o d m) 16 3 =
    0 := by
  unfold hammerField immWord; omega

theorem immWord_op {o : Nat} {d : Nat} {m : Nat} (_h0 : o < 16) (_h1 : d < 16) (_h2 : m < 65536) : hammerField (immWord o d m) 23 4 = o
    := by
  unfold hammerField immWord; omega

theorem immWord_xd {o : Nat} {d : Nat} {m : Nat} (_h0 : o < 16) (_h1 : d < 16) (_h2 : m < 65536) : hammerField (immWord o d m) 19 4 = d
    := by
  unfold hammerField immWord; omega

theorem immWord_imm {o : Nat} {d : Nat} {m : Nat} (_h0 : o < 16) (_h1 : d < 16) (_h2 : m < 65536) : hammerField (immWord o d m) 0 16 =
    m := by
  unfold hammerField immWord; omega

theorem loadWord_major {o : Nat} {w : Nat} {x : Nat} {m : Nat} (_h0 : o < 2) (_h1 : w < 4) (_h2 : x < 16) (_h3 : m < 1048576) :
    hammerField (loadWord o w x m) 27 5 = 6 := by
  unfold hammerField loadWord; omega

theorem loadWord_op {o : Nat} {w : Nat} {x : Nat} {m : Nat} (_h0 : o < 2) (_h1 : w < 4) (_h2 : x < 16) (_h3 : m < 1048576) :
    hammerField (loadWord o w x m) 26 1 = o := by
  unfold hammerField loadWord; omega

theorem loadWord_width {o : Nat} {w : Nat} {x : Nat} {m : Nat} (_h0 : o < 2) (_h1 : w < 4) (_h2 : x < 16) (_h3 : m < 1048576) :
    hammerField (loadWord o w x m) 24 2 = w := by
  unfold hammerField loadWord; omega

theorem loadWord_x {o : Nat} {w : Nat} {x : Nat} {m : Nat} (_h0 : o < 2) (_h1 : w < 4) (_h2 : x < 16) (_h3 : m < 1048576) : hammerField
    (loadWord o w x m) 20 4 = x := by
  unfold hammerField loadWord; omega

theorem loadWord_mem {o : Nat} {w : Nat} {x : Nat} {m : Nat} (_h0 : o < 2) (_h1 : w < 4) (_h2 : x < 16) (_h3 : m < 1048576) :
    hammerField (loadWord o w x m) 0 20 = m := by
  unfold hammerField loadWord; omega

theorem accMemWord_major {o : Nat} {a : Nat} {k : Nat} {m : Nat} (_h0 : o < 4) (_h1 : a < 4) (_h2 : k < 4) (_h3 : m < 1048576) :
    hammerField (accMemWord o a k m) 27 5 = 7 := by
  unfold hammerField accMemWord; omega

theorem accMemWord_op {o : Nat} {a : Nat} {k : Nat} {m : Nat} (_h0 : o < 4) (_h1 : a < 4) (_h2 : k < 4) (_h3 : m < 1048576) :
    hammerField (accMemWord o a k m) 25 2 = o := by
  unfold hammerField accMemWord; omega

theorem accMemWord_a {o : Nat} {a : Nat} {k : Nat} {m : Nat} (_h0 : o < 4) (_h1 : a < 4) (_h2 : k < 4) (_h3 : m < 1048576) :
    hammerField (accMemWord o a k m) 23 2 = a := by
  unfold hammerField accMemWord; omega

theorem accMemWord_k {o : Nat} {a : Nat} {k : Nat} {m : Nat} (_h0 : o < 4) (_h1 : a < 4) (_h2 : k < 4) (_h3 : m < 1048576) :
    hammerField (accMemWord o a k m) 21 2 = k := by
  unfold hammerField accMemWord; omega

theorem accMemWord_zero {o : Nat} {a : Nat} {k : Nat} {m : Nat} (_h0 : o < 4) (_h1 : a < 4) (_h2 : k < 4) (_h3 : m < 1048576) :
    hammerField (accMemWord o a k m) 20 1 = 0 := by
  unfold hammerField accMemWord; omega

theorem accMemWord_mem {o : Nat} {a : Nat} {k : Nat} {m : Nat} (_h0 : o < 4) (_h1 : a < 4) (_h2 : k < 4) (_h3 : m < 1048576) :
    hammerField (accMemWord o a k m) 0 20 = m := by
  unfold hammerField accMemWord; omega

theorem accWord_major {o : Nat} {d : Nat} {a : Nat} {x : Nat} {w : Nat} {n : Nat} (_h0 : o < 16) (_h1 : d < 4) (_h2 : a < 4) (_h3 : x <
    16) (_h4 : w < 4) (_h5 : n < 64) : hammerField (accWord o d a x w n) 27 5 = 8 := by
  unfold hammerField accWord; omega

theorem accWord_zero {o : Nat} {d : Nat} {a : Nat} {x : Nat} {w : Nat} {n : Nat} (_h0 : o < 16) (_h1 : d < 4) (_h2 : a < 4) (_h3 : x <
    16) (_h4 : w < 4) (_h5 : n < 64) : hammerField (accWord o d a x w n) 6 7 = 0 := by
  unfold hammerField accWord; omega

theorem accWord_op {o : Nat} {d : Nat} {a : Nat} {x : Nat} {w : Nat} {n : Nat} (_h0 : o < 16) (_h1 : d < 4) (_h2 : a < 4) (_h3 : x <
    16) (_h4 : w < 4) (_h5 : n < 64) : hammerField (accWord o d a x w n) 23 4 = o := by
  unfold hammerField accWord; omega

theorem accWord_ad {o : Nat} {d : Nat} {a : Nat} {x : Nat} {w : Nat} {n : Nat} (_h0 : o < 16) (_h1 : d < 4) (_h2 : a < 4) (_h3 : x <
    16) (_h4 : w < 4) (_h5 : n < 64) : hammerField (accWord o d a x w n) 21 2 = d := by
  unfold hammerField accWord; omega

theorem accWord_as {o : Nat} {d : Nat} {a : Nat} {x : Nat} {w : Nat} {n : Nat} (_h0 : o < 16) (_h1 : d < 4) (_h2 : a < 4) (_h3 : x <
    16) (_h4 : w < 4) (_h5 : n < 64) : hammerField (accWord o d a x w n) 19 2 = a := by
  unfold hammerField accWord; omega

theorem accWord_x {o : Nat} {d : Nat} {a : Nat} {x : Nat} {w : Nat} {n : Nat} (_h0 : o < 16) (_h1 : d < 4) (_h2 : a < 4) (_h3 : x < 16)
    (_h4 : w < 4) (_h5 : n < 64) : hammerField (accWord o d a x w n) 15 4 = x := by
  unfold hammerField accWord; omega

theorem accWord_win {o : Nat} {d : Nat} {a : Nat} {x : Nat} {w : Nat} {n : Nat} (_h0 : o < 16) (_h1 : d < 4) (_h2 : a < 4) (_h3 : x <
    16) (_h4 : w < 4) (_h5 : n < 64) : hammerField (accWord o d a x w n) 13 2 = w := by
  unfold hammerField accWord; omega

theorem accWord_shift {o : Nat} {d : Nat} {a : Nat} {x : Nat} {w : Nat} {n : Nat} (_h0 : o < 16) (_h1 : d < 4) (_h2 : a < 4) (_h3 : x <
    16) (_h4 : w < 4) (_h5 : n < 64) : hammerField (accWord o d a x w n) 0 6 = n := by
  unfold hammerField accWord; omega

theorem lockedWord_major {o : Nat} {t : Nat} {i : Nat} {d : Nat} {x : Nat} (_h0 : o < 4) (_h1 : t < 32) (_h2 : i < 8) (_h3 : d < 16)
    (_h4 : x < 16) : hammerField (lockedWord o t i d x) 27 5 = 15 := by
  unfold hammerField lockedWord; omega

theorem lockedWord_zero {o : Nat} {t : Nat} {i : Nat} {d : Nat} {x : Nat} (_h0 : o < 4) (_h1 : t < 32) (_h2 : i < 8) (_h3 : d < 16)
    (_h4 : x < 16) : hammerField (lockedWord o t i d x) 0 9 = 0 := by
  unfold hammerField lockedWord; omega

theorem lockedWord_op {o : Nat} {t : Nat} {i : Nat} {d : Nat} {x : Nat} (_h0 : o < 4) (_h1 : t < 32) (_h2 : i < 8) (_h3 : d < 16) (_h4
    : x < 16) : hammerField (lockedWord o t i d x) 25 2 = o := by
  unfold hammerField lockedWord; omega

theorem lockedWord_atomic {o : Nat} {t : Nat} {i : Nat} {d : Nat} {x : Nat} (_h0 : o < 4) (_h1 : t < 32) (_h2 : i < 8) (_h3 : d < 16)
    (_h4 : x < 16) : hammerField (lockedWord o t i d x) 20 5 = t := by
  unfold hammerField lockedWord; omega

theorem lockedWord_ik {o : Nat} {t : Nat} {i : Nat} {d : Nat} {x : Nat} (_h0 : o < 4) (_h1 : t < 32) (_h2 : i < 8) (_h3 : d < 16) (_h4
    : x < 16) : hammerField (lockedWord o t i d x) 17 3 = i := by
  unfold hammerField lockedWord; omega

theorem lockedWord_xd {o : Nat} {t : Nat} {i : Nat} {d : Nat} {x : Nat} (_h0 : o < 4) (_h1 : t < 32) (_h2 : i < 8) (_h3 : d < 16) (_h4
    : x < 16) : hammerField (lockedWord o t i d x) 13 4 = d := by
  unfold hammerField lockedWord; omega

theorem lockedWord_xs {o : Nat} {t : Nat} {i : Nat} {d : Nat} {x : Nat} (_h0 : o < 4) (_h1 : t < 32) (_h2 : i < 8) (_h3 : d < 16) (_h4
    : x < 16) : hammerField (lockedWord o t i d x) 9 4 = x := by
  unfold hammerField lockedWord; omega

theorem repeatWord_high {l n t : Nat} {x : Bool} (_ht : t < 16) : hammerField (repeatWord l n x t) 4 12 = 0 := by
  unfold hammerField repeatWord; omega

theorem macWord_top {g a : Nat} {b k : Bool} {x y m : Nat} {j : Bool} (_h0 : g < 32) (_h1 : a < 4) (_h2 : x < 16) (_h3 : y < 16)
    (_h4 : m < 32768) (_h5 : m % 32 = 0) : hammerField (macWord g a b k x y m j) 27 5 = g ∧ hammerField (macWord g a b k x y m j) 25 2
      = a ∧
    hammerField (macWord g a b k x y m j) 24 1 = b.toNat ∧ hammerField (macWord g a b k x y m j) 23 1 = k.toNat := by
  have := b.toNat_lt; have := k.toNat_lt; have := j.toNat_lt
  unfold hammerField macWord; omega

theorem macWord_low {g a : Nat} {b k : Bool} {x y m : Nat} {j : Bool} (_h2 : x < 16) (_h3 : y < 16)
    (_h4 : m < 32768) (_h5 : m % 32 = 0) : hammerField (macWord g a b k x y m j) 19 4 = x ∧ hammerField (macWord g a b k x y m j) 15 4
      = y ∧
    hammerField (macWord g a b k x y m j) 4 1 = j.toNat ∧ hammerField (macWord g a b k x y m j) 0 4 = 0 := by
  have := b.toNat_lt; have := k.toNat_lt; have := j.toNat_lt
  unfold hammerField macWord; omega

/-- What the MAC layout holds of its load slots. -/
theorem macWord_slot {g a : Nat} {b k : Bool} {x y m : Nat} {j : Bool} (_h4 : m < 32768) (_h5 : m % 32 = 0) :
    hammerField (macWord g a b k x y m j) 13 2 = hammerField m 13 2 ∧ hammerField (macWord g a b k x y m j) 11 2 = hammerField m 11 2 ∧
    hammerField (macWord g a b k x y m j) 9 2 = hammerField m 9 2 ∧ hammerField (macWord g a b k x y m j) 7 2 = hammerField m 7 2 ∧
    hammerField (macWord g a b k x y m j) 5 2 = hammerField m 5 2 := by
  have := b.toNat_lt; have := k.toNat_lt; have := j.toNat_lt
  unfold hammerField macWord; omega

theorem slotsWord_lt (sl : Slots) : slotsWord sl < 32768 ∧ slotsWord sl % 32 = 0 := by
  have := sl.w.isLt; have := sl.xi.isLt; have := sl.xm.isLt; have := sl.yi.isLt; have := sl.ym.isLt
  unfold slotsWord; omega

theorem slotsWord_fields (sl : Slots) : hammerField (slotsWord sl) 13 2 = sl.w.toNat ∧ hammerField (slotsWord sl) 11 2 = sl.xi.val ∧
    hammerField (slotsWord sl) 9 2 = sl.xm.toNat ∧ hammerField (slotsWord sl) 7 2 = sl.yi.val ∧
    hammerField (slotsWord sl) 5 2 = sl.ym.toNat := by
  have := sl.w.isLt; have := sl.xi.isLt; have := sl.xm.isLt; have := sl.yi.isLt; have := sl.ym.isLt
  unfold hammerField slotsWord; omega

theorem memWord_lt (m : MemArg) : memWord m < 1048576 := by
  have := m.i.isLt; have := m.mode.isLt; have := m.imm.isLt
  unfold memWord; omega

theorem memWord_fields (m : MemArg) : hammerField (memWord m) 17 3 = m.i.val ∧ hammerField (memWord m) 15 2 = m.mode.toNat ∧
    hammerField (memWord m) 0 15 = m.imm.toNat := by
  have := m.i.isLt; have := m.mode.isLt; have := m.imm.isLt
  unfold hammerField memWord; omega

/-- A field within the low 20 bits is a field of them. -/
theorem hammerField_low (w : Nat) : hammerField w 17 3 = hammerField (hammerField w 0 20) 17 3 ∧
    hammerField w 15 2 = hammerField (hammerField w 0 20) 15 2 ∧ hammerField w 0 15 = hammerField (hammerField w 0 20) 0 15 := by
  unfold hammerField; omega

theorem tongsWord_fields (i : Fin 8) (n : BitVec 4) : hammerField (14 * 2 ^ 27 + i.val * 2 ^ 17) 27 5 = 14 ∧
    hammerField (14 * 2 ^ 27 + i.val * 2 ^ 17) 26 1 = 0 ∧ hammerField (14 * 2 ^ 27 + i.val * 2 ^ 17) 20 6 = 0 ∧
    hammerField (14 * 2 ^ 27 + i.val * 2 ^ 17) 0 17 = 0 ∧ hammerField (14 * 2 ^ 27 + i.val * 2 ^ 17) 17 3 = i.val ∧
    hammerField (14 * 2 ^ 27 + 2 ^ 26 + n.toNat) 27 5 = 14 ∧ hammerField (14 * 2 ^ 27 + 2 ^ 26 + n.toNat) 26 1 = 1 ∧
    hammerField (14 * 2 ^ 27 + 2 ^ 26 + n.toNat) 4 22 = 0 ∧ hammerField (14 * 2 ^ 27 + 2 ^ 26 + n.toNat) 0 4 = n.toNat := by
  have := i.isLt; have := n.isLt
  unfold hammerField; omega

theorem hammerReg_of {w lo : Nat} {x : Fin 16} (h : hammerField w lo 4 = x.val) : hammerReg w lo = x := Fin.ext h

theorem hammerQuad_of {w lo : Nat} {x : Fin 4} (h : hammerField w lo 2 = x.val) : hammerQuad w lo = x := Fin.ext h

theorem hammerIk_of {w : Nat} {x : Fin 8} (h : hammerField w 17 3 = x.val) : hammerIk w = x := Fin.ext h

theorem hammerBits_of {w lo n : Nat} {x : BitVec n} (h : hammerField w lo n = x.toNat) : hammerBits w lo n = x :=
  BitVec.eq_of_toNat_eq h

theorem hammerSlots_of {w : Nat} {sl : Slots} (h : hammerField w 13 2 = sl.w.toNat) (h1 : hammerField w 11 2 = sl.xi.val)
    (h2 : hammerField w 9 2 = sl.xm.toNat) (h3 : hammerField w 7 2 = sl.yi.val) (h4 : hammerField w 5 2 = sl.ym.toNat) :
    hammerSlots w = sl := by
  rw [hammerSlots, hammerBits_of h, hammerQuad_of h1, hammerBits_of h2, hammerQuad_of h3, hammerBits_of h4]

/-- The address operand comes back from a word whose low 20 bits are its own. -/
theorem hammerMem_of {w : Nat} {m : MemArg} (h : hammerField w 0 20 = memWord m) :
    hammerMem w = m ∧ hammerField w 15 2 = m.mode.toNat := by
  have a := hammerField_low w
  rw [h, (memWord_fields m).1, (memWord_fields m).2.1, (memWord_fields m).2.2] at a
  exact ⟨by rw [hammerMem, hammerIk_of a.1, hammerBits_of a.2.1, hammerBits_of a.2.2], a.2.1⟩

theorem hIdle_roundtrip (c : CoreId) : (hammerEncode (.hIdle c)).bind (hammerDecode c) = some (.hIdle c) := by
  simp [hammerEncode, hammerDecode, decodeControl, hammerField]

theorem hNop_roundtrip (c : CoreId) : (hammerEncode (.hNop c)).bind (hammerDecode c) = some (.hNop c) := by
  simp [hammerEncode, hammerDecode, decodeControl, hammerField]

theorem hWaitStroke_roundtrip (c : CoreId) : (hammerEncode (.hWaitStroke c)).bind (hammerDecode c) = some (.hWaitStroke c) := by
  simp [hammerEncode, hammerDecode, decodeControl, hammerField]

theorem hSync_roundtrip (c : CoreId) : (hammerEncode (.hSync c)).bind (hammerDecode c) = some (.hSync c) := by
  simp [hammerEncode, hammerDecode, decodeControl, hammerField]

theorem hBkpt_roundtrip (c : CoreId) : (hammerEncode (.hBkpt c)).bind (hammerDecode c) = some (.hBkpt c) := by
  simp [hammerEncode, hammerDecode, decodeControl, hammerField]

theorem hB_roundtrip (c : CoreId) (t : BitVec 15) : (hammerEncode (.hB c t)).bind (hammerDecode c) = some (.hB c t) := by
  rw [show hammerEncode (.hB c t) = some (branchWord 0 0 t.toNat) from rfl, Option.bind_some]
  have h1 := branchWord_major (k := 0) (c := 0) (t := t.toNat) (by omega) (by omega) (by omega)
  have h2 := branchWord_zero (k := 0) (c := 0) (t := t.toNat) (by omega) (by omega) (by omega)
  have h3 := branchWord_kind (k := 0) (c := 0) (t := t.toNat) (by omega) (by omega) (by omega)
  have h4 := branchWord_cond (k := 0) (c := 0) (t := t.toNat) (by omega) (by omega) (by omega)
  have h5 := branchWord_target (k := 0) (c := 0) (t := t.toNat) (by omega) (by omega) (by omega)
  generalize branchWord 0 0 t.toNat = word at *
  simp [hammerDecode, decodeBranch, h1, h2, h3, hammerBits_of h5]

theorem hBc_roundtrip (c : CoreId) (cond : BitVec 4) (t : BitVec 15) : (hammerEncode (.hBc c cond t)).bind (hammerDecode c) = some
    (.hBc c cond t) := by
  rw [show hammerEncode (.hBc c cond t) = some (branchWord 1 cond.toNat t.toNat) from rfl, Option.bind_some]
  have h1 := branchWord_major (k := 1) (c := cond.toNat) (t := t.toNat) (by omega) (by omega) (by omega)
  have h2 := branchWord_zero (k := 1) (c := cond.toNat) (t := t.toNat) (by omega) (by omega) (by omega)
  have h3 := branchWord_kind (k := 1) (c := cond.toNat) (t := t.toNat) (by omega) (by omega) (by omega)
  have h4 := branchWord_cond (k := 1) (c := cond.toNat) (t := t.toNat) (by omega) (by omega) (by omega)
  have h5 := branchWord_target (k := 1) (c := cond.toNat) (t := t.toNat) (by omega) (by omega) (by omega)
  generalize branchWord 1 cond.toNat t.toNat = word at *
  simp [hammerDecode, decodeBranch, h1, h2, h3, hammerBits_of h4, hammerBits_of h5]

theorem hCall_roundtrip (c : CoreId) (t : BitVec 15) : (hammerEncode (.hCall c t)).bind (hammerDecode c) = some (.hCall c t) := by
  rw [show hammerEncode (.hCall c t) = some (branchWord 2 0 t.toNat) from rfl, Option.bind_some]
  have h1 := branchWord_major (k := 2) (c := 0) (t := t.toNat) (by omega) (by omega) (by omega)
  have h2 := branchWord_zero (k := 2) (c := 0) (t := t.toNat) (by omega) (by omega) (by omega)
  have h3 := branchWord_kind (k := 2) (c := 0) (t := t.toNat) (by omega) (by omega) (by omega)
  have h4 := branchWord_cond (k := 2) (c := 0) (t := t.toNat) (by omega) (by omega) (by omega)
  have h5 := branchWord_target (k := 2) (c := 0) (t := t.toNat) (by omega) (by omega) (by omega)
  generalize branchWord 2 0 t.toNat = word at *
  simp [hammerDecode, decodeBranch, h1, h2, h3, hammerBits_of h5]

theorem hRet_roundtrip (c : CoreId) : (hammerEncode (.hRet c)).bind (hammerDecode c) = some (.hRet c) := by
  rw [show hammerEncode (.hRet c) = some (branchWord 3 0 0) from rfl, Option.bind_some]
  have h1 := branchWord_major (k := 3) (c := 0) (t := 0) (by omega) (by omega) (by omega)
  have h2 := branchWord_zero (k := 3) (c := 0) (t := 0) (by omega) (by omega) (by omega)
  have h3 := branchWord_kind (k := 3) (c := 0) (t := 0) (by omega) (by omega) (by omega)
  have h4 := branchWord_cond (k := 3) (c := 0) (t := 0) (by omega) (by omega) (by omega)
  have h5 := branchWord_target (k := 3) (c := 0) (t := 0) (by omega) (by omega) (by omega)
  generalize branchWord 3 0 0 = word at *
  simp [hammerDecode, decodeBranch, h1, h2, h3]

theorem hRti_roundtrip (c : CoreId) : (hammerEncode (.hRti c)).bind (hammerDecode c) = some (.hRti c) := by
  rw [show hammerEncode (.hRti c) = some (branchWord 4 0 0) from rfl, Option.bind_some]
  have h1 := branchWord_major (k := 4) (c := 0) (t := 0) (by omega) (by omega) (by omega)
  have h2 := branchWord_zero (k := 4) (c := 0) (t := 0) (by omega) (by omega) (by omega)
  have h3 := branchWord_kind (k := 4) (c := 0) (t := 0) (by omega) (by omega) (by omega)
  have h4 := branchWord_cond (k := 4) (c := 0) (t := 0) (by omega) (by omega) (by omega)
  have h5 := branchWord_target (k := 4) (c := 0) (t := 0) (by omega) (by omega) (by omega)
  generalize branchWord 4 0 0 = word at *
  simp [hammerDecode, decodeBranch, h1, h2, h3]

theorem hRpt_roundtrip (c : CoreId) (x : Bool) (t : BitVec 16) (h : x = true → t.toNat < 16) : (hammerEncode (.hRpt c x t)).bind
    (hammerDecode c) = some (.hRpt c x t) := by
  rw [show hammerEncode (.hRpt c x t) = some (repeatWord 0 0 x t.toNat) from rfl, Option.bind_some]
  have h1 := repeatWord_major (l := 0) (n := 0) (x := x) (t := t.toNat) (by omega) (by omega) (by omega)
  have h2 := repeatWord_zero (l := 0) (n := 0) (x := x) (t := t.toNat) (by omega) (by omega) (by omega)
  have h3 := repeatWord_loop (l := 0) (n := 0) (x := x) (t := t.toNat) (by omega) (by omega) (by omega)
  have h4 := repeatWord_len (l := 0) (n := 0) (x := x) (t := t.toNat) (by omega) (by omega) (by omega)
  have h5 := repeatWord_fromX (l := 0) (n := 0) (x := x) (t := t.toNat) (by omega) (by omega) (by omega)
  have h6 := repeatWord_count (l := 0) (n := 0) (x := x) (t := t.toNat) (by omega) (by omega) (by omega)
  have h7 : x = true → hammerField (repeatWord 0 0 x t.toNat) 4 12 = 0 := fun e => repeatWord_high (h e)
  generalize repeatWord 0 0 x t.toNat = word at *
  cases x <;> simp_all [hammerDecode, decodeRepeat, hammerBits_of h6]

theorem hLoop_roundtrip (c : CoreId) (x : Bool) (t : BitVec 16) (n : BitVec 6) (h : x = true → t.toNat < 16) : (hammerEncode (.hLoop c
    x t n)).bind (hammerDecode c) = some (.hLoop c x t n) := by
  rw [show hammerEncode (.hLoop c x t n) = some (repeatWord 1 n.toNat x t.toNat) from rfl, Option.bind_some]
  have h1 := repeatWord_major (l := 1) (n := n.toNat) (x := x) (t := t.toNat) (by omega) (by omega) (by omega)
  have h2 := repeatWord_zero (l := 1) (n := n.toNat) (x := x) (t := t.toNat) (by omega) (by omega) (by omega)
  have h3 := repeatWord_loop (l := 1) (n := n.toNat) (x := x) (t := t.toNat) (by omega) (by omega) (by omega)
  have h4 := repeatWord_len (l := 1) (n := n.toNat) (x := x) (t := t.toNat) (by omega) (by omega) (by omega)
  have h5 := repeatWord_fromX (l := 1) (n := n.toNat) (x := x) (t := t.toNat) (by omega) (by omega) (by omega)
  have h6 := repeatWord_count (l := 1) (n := n.toNat) (x := x) (t := t.toNat) (by omega) (by omega) (by omega)
  have h7 : x = true → hammerField (repeatWord 1 n.toNat x t.toNat) 4 12 = 0 := fun e => repeatWord_high (h e)
  generalize repeatWord 1 n.toNat x t.toNat = word at *
  cases x <;> simp_all [hammerDecode, decodeRepeat, hammerBits_of h6, hammerBits_of h4]

theorem hMovs_roundtrip (c : CoreId) (b : Bool) (k : BitVec 6) (x : Fin 16) : (hammerEncode (.hMovs c b k x)).bind (hammerDecode c) =
    some (.hMovs c b k x) := by
  rw [show hammerEncode (.hMovs c b k x) = some (specialWord b k.toNat x.val) from rfl, Option.bind_some]
  have h1 := specialWord_major (b := b) (c := k.toNat) (x := x.val) (by omega) (by omega)
  have h2 := specialWord_zero (b := b) (c := k.toNat) (x := x.val) (by omega) (by omega)
  have h3 := specialWord_to (b := b) (c := k.toNat) (x := x.val) (by omega) (by omega)
  have h4 := specialWord_code (b := b) (c := k.toNat) (x := x.val) (by omega) (by omega)
  have h5 := specialWord_x (b := b) (c := k.toNat) (x := x.val) (by omega) (by omega)
  generalize specialWord b k.toNat x.val = word at *
  cases b <;> simp_all [hammerDecode, decodeSpecial, hammerBits_of h4, hammerReg_of h5]

theorem hMov_roundtrip (c : CoreId) (xd xs : Fin 16) : (hammerEncode (.hMov c xd xs)).bind (hammerDecode c) = some (.hMov c xd xs) := by
  rw [show hammerEncode (.hMov c xd xs) = some (aluWord 0 xd.val xs.val 0) from rfl, Option.bind_some]
  have h1 := aluWord_major (o := 0) (d := xd.val) (x := xs.val) (t := 0) (by omega) (by omega) (by omega) (by omega)
  have h2 := aluWord_zero (o := 0) (d := xd.val) (x := xs.val) (t := 0) (by omega) (by omega) (by omega) (by omega)
  have h3 := aluWord_op (o := 0) (d := xd.val) (x := xs.val) (t := 0) (by omega) (by omega) (by omega) (by omega)
  have h4 := aluWord_xd (o := 0) (d := xd.val) (x := xs.val) (t := 0) (by omega) (by omega) (by omega) (by omega)
  have h5 := aluWord_xs (o := 0) (d := xd.val) (x := xs.val) (t := 0) (by omega) (by omega) (by omega) (by omega)
  generalize aluWord 0 xd.val xs.val 0 = word at *
  simp [hammerDecode, decodeAlu, h1, h2, h3, hammerReg_of h4, hammerReg_of h5]

theorem hAdd_roundtrip (c : CoreId) (xd xs xt : Fin 16) : (hammerEncode (.hAdd c xd xs xt)).bind (hammerDecode c) = some (.hAdd c xd xs
    xt) := by
  rw [show hammerEncode (.hAdd c xd xs xt) = some (aluWord 1 xd.val xs.val xt.val) from rfl, Option.bind_some]
  have h1 := aluWord_major (o := 1) (d := xd.val) (x := xs.val) (t := xt.val) (by omega) (by omega) (by omega) (by omega)
  have h2 := aluWord_zero (o := 1) (d := xd.val) (x := xs.val) (t := xt.val) (by omega) (by omega) (by omega) (by omega)
  have h3 := aluWord_op (o := 1) (d := xd.val) (x := xs.val) (t := xt.val) (by omega) (by omega) (by omega) (by omega)
  have h4 := aluWord_xd (o := 1) (d := xd.val) (x := xs.val) (t := xt.val) (by omega) (by omega) (by omega) (by omega)
  have h5 := aluWord_xs (o := 1) (d := xd.val) (x := xs.val) (t := xt.val) (by omega) (by omega) (by omega) (by omega)
  have h6 := aluWord_xt (o := 1) (d := xd.val) (x := xs.val) (t := xt.val) (by omega) (by omega) (by omega) (by omega)
  generalize aluWord 1 xd.val xs.val xt.val = word at *
  simp [hammerDecode, decodeAlu, h1, h2, h3, hammerReg_of h4, hammerReg_of h5, hammerReg_of h6]

theorem hAdds_roundtrip (c : CoreId) (xd xs xt : Fin 16) : (hammerEncode (.hAdds c xd xs xt)).bind (hammerDecode c) = some (.hAdds c xd
    xs xt) := by
  rw [show hammerEncode (.hAdds c xd xs xt) = some (aluWord 2 xd.val xs.val xt.val) from rfl, Option.bind_some]
  have h1 := aluWord_major (o := 2) (d := xd.val) (x := xs.val) (t := xt.val) (by omega) (by omega) (by omega) (by omega)
  have h2 := aluWord_zero (o := 2) (d := xd.val) (x := xs.val) (t := xt.val) (by omega) (by omega) (by omega) (by omega)
  have h3 := aluWord_op (o := 2) (d := xd.val) (x := xs.val) (t := xt.val) (by omega) (by omega) (by omega) (by omega)
  have h4 := aluWord_xd (o := 2) (d := xd.val) (x := xs.val) (t := xt.val) (by omega) (by omega) (by omega) (by omega)
  have h5 := aluWord_xs (o := 2) (d := xd.val) (x := xs.val) (t := xt.val) (by omega) (by omega) (by omega) (by omega)
  have h6 := aluWord_xt (o := 2) (d := xd.val) (x := xs.val) (t := xt.val) (by omega) (by omega) (by omega) (by omega)
  generalize aluWord 2 xd.val xs.val xt.val = word at *
  simp [hammerDecode, decodeAlu, h1, h2, h3, hammerReg_of h4, hammerReg_of h5, hammerReg_of h6]

theorem hSub_roundtrip (c : CoreId) (xd xs xt : Fin 16) : (hammerEncode (.hSub c xd xs xt)).bind (hammerDecode c) = some (.hSub c xd xs
    xt) := by
  rw [show hammerEncode (.hSub c xd xs xt) = some (aluWord 3 xd.val xs.val xt.val) from rfl, Option.bind_some]
  have h1 := aluWord_major (o := 3) (d := xd.val) (x := xs.val) (t := xt.val) (by omega) (by omega) (by omega) (by omega)
  have h2 := aluWord_zero (o := 3) (d := xd.val) (x := xs.val) (t := xt.val) (by omega) (by omega) (by omega) (by omega)
  have h3 := aluWord_op (o := 3) (d := xd.val) (x := xs.val) (t := xt.val) (by omega) (by omega) (by omega) (by omega)
  have h4 := aluWord_xd (o := 3) (d := xd.val) (x := xs.val) (t := xt.val) (by omega) (by omega) (by omega) (by omega)
  have h5 := aluWord_xs (o := 3) (d := xd.val) (x := xs.val) (t := xt.val) (by omega) (by omega) (by omega) (by omega)
  have h6 := aluWord_xt (o := 3) (d := xd.val) (x := xs.val) (t := xt.val) (by omega) (by omega) (by omega) (by omega)
  generalize aluWord 3 xd.val xs.val xt.val = word at *
  simp [hammerDecode, decodeAlu, h1, h2, h3, hammerReg_of h4, hammerReg_of h5, hammerReg_of h6]

theorem hSubs_roundtrip (c : CoreId) (xd xs xt : Fin 16) : (hammerEncode (.hSubs c xd xs xt)).bind (hammerDecode c) = some (.hSubs c xd
    xs xt) := by
  rw [show hammerEncode (.hSubs c xd xs xt) = some (aluWord 4 xd.val xs.val xt.val) from rfl, Option.bind_some]
  have h1 := aluWord_major (o := 4) (d := xd.val) (x := xs.val) (t := xt.val) (by omega) (by omega) (by omega) (by omega)
  have h2 := aluWord_zero (o := 4) (d := xd.val) (x := xs.val) (t := xt.val) (by omega) (by omega) (by omega) (by omega)
  have h3 := aluWord_op (o := 4) (d := xd.val) (x := xs.val) (t := xt.val) (by omega) (by omega) (by omega) (by omega)
  have h4 := aluWord_xd (o := 4) (d := xd.val) (x := xs.val) (t := xt.val) (by omega) (by omega) (by omega) (by omega)
  have h5 := aluWord_xs (o := 4) (d := xd.val) (x := xs.val) (t := xt.val) (by omega) (by omega) (by omega) (by omega)
  have h6 := aluWord_xt (o := 4) (d := xd.val) (x := xs.val) (t := xt.val) (by omega) (by omega) (by omega) (by omega)
  generalize aluWord 4 xd.val xs.val xt.val = word at *
  simp [hammerDecode, decodeAlu, h1, h2, h3, hammerReg_of h4, hammerReg_of h5, hammerReg_of h6]

theorem hCmp_roundtrip (c : CoreId) (xs xt : Fin 16) : (hammerEncode (.hCmp c xs xt)).bind (hammerDecode c) = some (.hCmp c xs xt) := by
  rw [show hammerEncode (.hCmp c xs xt) = some (aluWord 5 0 xs.val xt.val) from rfl, Option.bind_some]
  have h1 := aluWord_major (o := 5) (d := 0) (x := xs.val) (t := xt.val) (by omega) (by omega) (by omega) (by omega)
  have h2 := aluWord_zero (o := 5) (d := 0) (x := xs.val) (t := xt.val) (by omega) (by omega) (by omega) (by omega)
  have h3 := aluWord_op (o := 5) (d := 0) (x := xs.val) (t := xt.val) (by omega) (by omega) (by omega) (by omega)
  have h5 := aluWord_xs (o := 5) (d := 0) (x := xs.val) (t := xt.val) (by omega) (by omega) (by omega) (by omega)
  have h6 := aluWord_xt (o := 5) (d := 0) (x := xs.val) (t := xt.val) (by omega) (by omega) (by omega) (by omega)
  generalize aluWord 5 0 xs.val xt.val = word at *
  simp [hammerDecode, decodeAlu, h1, h2, h3, hammerReg_of h5, hammerReg_of h6]

theorem hAnd_roundtrip (c : CoreId) (xd xs xt : Fin 16) : (hammerEncode (.hAnd c xd xs xt)).bind (hammerDecode c) = some (.hAnd c xd xs
    xt) := by
  rw [show hammerEncode (.hAnd c xd xs xt) = some (aluWord 6 xd.val xs.val xt.val) from rfl, Option.bind_some]
  have h1 := aluWord_major (o := 6) (d := xd.val) (x := xs.val) (t := xt.val) (by omega) (by omega) (by omega) (by omega)
  have h2 := aluWord_zero (o := 6) (d := xd.val) (x := xs.val) (t := xt.val) (by omega) (by omega) (by omega) (by omega)
  have h3 := aluWord_op (o := 6) (d := xd.val) (x := xs.val) (t := xt.val) (by omega) (by omega) (by omega) (by omega)
  have h4 := aluWord_xd (o := 6) (d := xd.val) (x := xs.val) (t := xt.val) (by omega) (by omega) (by omega) (by omega)
  have h5 := aluWord_xs (o := 6) (d := xd.val) (x := xs.val) (t := xt.val) (by omega) (by omega) (by omega) (by omega)
  have h6 := aluWord_xt (o := 6) (d := xd.val) (x := xs.val) (t := xt.val) (by omega) (by omega) (by omega) (by omega)
  generalize aluWord 6 xd.val xs.val xt.val = word at *
  simp [hammerDecode, decodeAlu, h1, h2, h3, hammerReg_of h4, hammerReg_of h5, hammerReg_of h6]

theorem hOr_roundtrip (c : CoreId) (xd xs xt : Fin 16) : (hammerEncode (.hOr c xd xs xt)).bind (hammerDecode c) = some (.hOr c xd xs
    xt) := by
  rw [show hammerEncode (.hOr c xd xs xt) = some (aluWord 7 xd.val xs.val xt.val) from rfl, Option.bind_some]
  have h1 := aluWord_major (o := 7) (d := xd.val) (x := xs.val) (t := xt.val) (by omega) (by omega) (by omega) (by omega)
  have h2 := aluWord_zero (o := 7) (d := xd.val) (x := xs.val) (t := xt.val) (by omega) (by omega) (by omega) (by omega)
  have h3 := aluWord_op (o := 7) (d := xd.val) (x := xs.val) (t := xt.val) (by omega) (by omega) (by omega) (by omega)
  have h4 := aluWord_xd (o := 7) (d := xd.val) (x := xs.val) (t := xt.val) (by omega) (by omega) (by omega) (by omega)
  have h5 := aluWord_xs (o := 7) (d := xd.val) (x := xs.val) (t := xt.val) (by omega) (by omega) (by omega) (by omega)
  have h6 := aluWord_xt (o := 7) (d := xd.val) (x := xs.val) (t := xt.val) (by omega) (by omega) (by omega) (by omega)
  generalize aluWord 7 xd.val xs.val xt.val = word at *
  simp [hammerDecode, decodeAlu, h1, h2, h3, hammerReg_of h4, hammerReg_of h5, hammerReg_of h6]

theorem hXor_roundtrip (c : CoreId) (xd xs xt : Fin 16) : (hammerEncode (.hXor c xd xs xt)).bind (hammerDecode c) = some (.hXor c xd xs
    xt) := by
  rw [show hammerEncode (.hXor c xd xs xt) = some (aluWord 8 xd.val xs.val xt.val) from rfl, Option.bind_some]
  have h1 := aluWord_major (o := 8) (d := xd.val) (x := xs.val) (t := xt.val) (by omega) (by omega) (by omega) (by omega)
  have h2 := aluWord_zero (o := 8) (d := xd.val) (x := xs.val) (t := xt.val) (by omega) (by omega) (by omega) (by omega)
  have h3 := aluWord_op (o := 8) (d := xd.val) (x := xs.val) (t := xt.val) (by omega) (by omega) (by omega) (by omega)
  have h4 := aluWord_xd (o := 8) (d := xd.val) (x := xs.val) (t := xt.val) (by omega) (by omega) (by omega) (by omega)
  have h5 := aluWord_xs (o := 8) (d := xd.val) (x := xs.val) (t := xt.val) (by omega) (by omega) (by omega) (by omega)
  have h6 := aluWord_xt (o := 8) (d := xd.val) (x := xs.val) (t := xt.val) (by omega) (by omega) (by omega) (by omega)
  generalize aluWord 8 xd.val xs.val xt.val = word at *
  simp [hammerDecode, decodeAlu, h1, h2, h3, hammerReg_of h4, hammerReg_of h5, hammerReg_of h6]

theorem hNot_roundtrip (c : CoreId) (xd xs : Fin 16) : (hammerEncode (.hNot c xd xs)).bind (hammerDecode c) = some (.hNot c xd xs) := by
  rw [show hammerEncode (.hNot c xd xs) = some (aluWord 9 xd.val xs.val 0) from rfl, Option.bind_some]
  have h1 := aluWord_major (o := 9) (d := xd.val) (x := xs.val) (t := 0) (by omega) (by omega) (by omega) (by omega)
  have h2 := aluWord_zero (o := 9) (d := xd.val) (x := xs.val) (t := 0) (by omega) (by omega) (by omega) (by omega)
  have h3 := aluWord_op (o := 9) (d := xd.val) (x := xs.val) (t := 0) (by omega) (by omega) (by omega) (by omega)
  have h4 := aluWord_xd (o := 9) (d := xd.val) (x := xs.val) (t := 0) (by omega) (by omega) (by omega) (by omega)
  have h5 := aluWord_xs (o := 9) (d := xd.val) (x := xs.val) (t := 0) (by omega) (by omega) (by omega) (by omega)
  generalize aluWord 9 xd.val xs.val 0 = word at *
  simp [hammerDecode, decodeAlu, h1, h2, h3, hammerReg_of h4, hammerReg_of h5]

theorem hAsl_roundtrip (c : CoreId) (xd xs xt : Fin 16) : (hammerEncode (.hAsl c xd xs xt)).bind (hammerDecode c) = some (.hAsl c xd xs
    xt) := by
  rw [show hammerEncode (.hAsl c xd xs xt) = some (aluWord 10 xd.val xs.val xt.val) from rfl, Option.bind_some]
  have h1 := aluWord_major (o := 10) (d := xd.val) (x := xs.val) (t := xt.val) (by omega) (by omega) (by omega) (by omega)
  have h2 := aluWord_zero (o := 10) (d := xd.val) (x := xs.val) (t := xt.val) (by omega) (by omega) (by omega) (by omega)
  have h3 := aluWord_op (o := 10) (d := xd.val) (x := xs.val) (t := xt.val) (by omega) (by omega) (by omega) (by omega)
  have h4 := aluWord_xd (o := 10) (d := xd.val) (x := xs.val) (t := xt.val) (by omega) (by omega) (by omega) (by omega)
  have h5 := aluWord_xs (o := 10) (d := xd.val) (x := xs.val) (t := xt.val) (by omega) (by omega) (by omega) (by omega)
  have h6 := aluWord_xt (o := 10) (d := xd.val) (x := xs.val) (t := xt.val) (by omega) (by omega) (by omega) (by omega)
  generalize aluWord 10 xd.val xs.val xt.val = word at *
  simp [hammerDecode, decodeAlu, h1, h2, h3, hammerReg_of h4, hammerReg_of h5, hammerReg_of h6]

theorem hAsr_roundtrip (c : CoreId) (xd xs xt : Fin 16) : (hammerEncode (.hAsr c xd xs xt)).bind (hammerDecode c) = some (.hAsr c xd xs
    xt) := by
  rw [show hammerEncode (.hAsr c xd xs xt) = some (aluWord 11 xd.val xs.val xt.val) from rfl, Option.bind_some]
  have h1 := aluWord_major (o := 11) (d := xd.val) (x := xs.val) (t := xt.val) (by omega) (by omega) (by omega) (by omega)
  have h2 := aluWord_zero (o := 11) (d := xd.val) (x := xs.val) (t := xt.val) (by omega) (by omega) (by omega) (by omega)
  have h3 := aluWord_op (o := 11) (d := xd.val) (x := xs.val) (t := xt.val) (by omega) (by omega) (by omega) (by omega)
  have h4 := aluWord_xd (o := 11) (d := xd.val) (x := xs.val) (t := xt.val) (by omega) (by omega) (by omega) (by omega)
  have h5 := aluWord_xs (o := 11) (d := xd.val) (x := xs.val) (t := xt.val) (by omega) (by omega) (by omega) (by omega)
  have h6 := aluWord_xt (o := 11) (d := xd.val) (x := xs.val) (t := xt.val) (by omega) (by omega) (by omega) (by omega)
  generalize aluWord 11 xd.val xs.val xt.val = word at *
  simp [hammerDecode, decodeAlu, h1, h2, h3, hammerReg_of h4, hammerReg_of h5, hammerReg_of h6]

theorem hLsr_roundtrip (c : CoreId) (xd xs xt : Fin 16) : (hammerEncode (.hLsr c xd xs xt)).bind (hammerDecode c) = some (.hLsr c xd xs
    xt) := by
  rw [show hammerEncode (.hLsr c xd xs xt) = some (aluWord 12 xd.val xs.val xt.val) from rfl, Option.bind_some]
  have h1 := aluWord_major (o := 12) (d := xd.val) (x := xs.val) (t := xt.val) (by omega) (by omega) (by omega) (by omega)
  have h2 := aluWord_zero (o := 12) (d := xd.val) (x := xs.val) (t := xt.val) (by omega) (by omega) (by omega) (by omega)
  have h3 := aluWord_op (o := 12) (d := xd.val) (x := xs.val) (t := xt.val) (by omega) (by omega) (by omega) (by omega)
  have h4 := aluWord_xd (o := 12) (d := xd.val) (x := xs.val) (t := xt.val) (by omega) (by omega) (by omega) (by omega)
  have h5 := aluWord_xs (o := 12) (d := xd.val) (x := xs.val) (t := xt.val) (by omega) (by omega) (by omega) (by omega)
  have h6 := aluWord_xt (o := 12) (d := xd.val) (x := xs.val) (t := xt.val) (by omega) (by omega) (by omega) (by omega)
  generalize aluWord 12 xd.val xs.val xt.val = word at *
  simp [hammerDecode, decodeAlu, h1, h2, h3, hammerReg_of h4, hammerReg_of h5, hammerReg_of h6]

theorem hMin_roundtrip (c : CoreId) (xd xs xt : Fin 16) : (hammerEncode (.hMin c xd xs xt)).bind (hammerDecode c) = some (.hMin c xd xs
    xt) := by
  rw [show hammerEncode (.hMin c xd xs xt) = some (aluWord 13 xd.val xs.val xt.val) from rfl, Option.bind_some]
  have h1 := aluWord_major (o := 13) (d := xd.val) (x := xs.val) (t := xt.val) (by omega) (by omega) (by omega) (by omega)
  have h2 := aluWord_zero (o := 13) (d := xd.val) (x := xs.val) (t := xt.val) (by omega) (by omega) (by omega) (by omega)
  have h3 := aluWord_op (o := 13) (d := xd.val) (x := xs.val) (t := xt.val) (by omega) (by omega) (by omega) (by omega)
  have h4 := aluWord_xd (o := 13) (d := xd.val) (x := xs.val) (t := xt.val) (by omega) (by omega) (by omega) (by omega)
  have h5 := aluWord_xs (o := 13) (d := xd.val) (x := xs.val) (t := xt.val) (by omega) (by omega) (by omega) (by omega)
  have h6 := aluWord_xt (o := 13) (d := xd.val) (x := xs.val) (t := xt.val) (by omega) (by omega) (by omega) (by omega)
  generalize aluWord 13 xd.val xs.val xt.val = word at *
  simp [hammerDecode, decodeAlu, h1, h2, h3, hammerReg_of h4, hammerReg_of h5, hammerReg_of h6]

theorem hMax_roundtrip (c : CoreId) (xd xs xt : Fin 16) : (hammerEncode (.hMax c xd xs xt)).bind (hammerDecode c) = some (.hMax c xd xs
    xt) := by
  rw [show hammerEncode (.hMax c xd xs xt) = some (aluWord 14 xd.val xs.val xt.val) from rfl, Option.bind_some]
  have h1 := aluWord_major (o := 14) (d := xd.val) (x := xs.val) (t := xt.val) (by omega) (by omega) (by omega) (by omega)
  have h2 := aluWord_zero (o := 14) (d := xd.val) (x := xs.val) (t := xt.val) (by omega) (by omega) (by omega) (by omega)
  have h3 := aluWord_op (o := 14) (d := xd.val) (x := xs.val) (t := xt.val) (by omega) (by omega) (by omega) (by omega)
  have h4 := aluWord_xd (o := 14) (d := xd.val) (x := xs.val) (t := xt.val) (by omega) (by omega) (by omega) (by omega)
  have h5 := aluWord_xs (o := 14) (d := xd.val) (x := xs.val) (t := xt.val) (by omega) (by omega) (by omega) (by omega)
  have h6 := aluWord_xt (o := 14) (d := xd.val) (x := xs.val) (t := xt.val) (by omega) (by omega) (by omega) (by omega)
  generalize aluWord 14 xd.val xs.val xt.val = word at *
  simp [hammerDecode, decodeAlu, h1, h2, h3, hammerReg_of h4, hammerReg_of h5, hammerReg_of h6]

theorem hAbs_roundtrip (c : CoreId) (xd xs : Fin 16) : (hammerEncode (.hAbs c xd xs)).bind (hammerDecode c) = some (.hAbs c xd xs) := by
  rw [show hammerEncode (.hAbs c xd xs) = some (aluWord 15 xd.val xs.val 0) from rfl, Option.bind_some]
  have h1 := aluWord_major (o := 15) (d := xd.val) (x := xs.val) (t := 0) (by omega) (by omega) (by omega) (by omega)
  have h2 := aluWord_zero (o := 15) (d := xd.val) (x := xs.val) (t := 0) (by omega) (by omega) (by omega) (by omega)
  have h3 := aluWord_op (o := 15) (d := xd.val) (x := xs.val) (t := 0) (by omega) (by omega) (by omega) (by omega)
  have h4 := aluWord_xd (o := 15) (d := xd.val) (x := xs.val) (t := 0) (by omega) (by omega) (by omega) (by omega)
  have h5 := aluWord_xs (o := 15) (d := xd.val) (x := xs.val) (t := 0) (by omega) (by omega) (by omega) (by omega)
  generalize aluWord 15 xd.val xs.val 0 = word at *
  simp [hammerDecode, decodeAlu, h1, h2, h3, hammerReg_of h4, hammerReg_of h5]

theorem hMovi_roundtrip (c : CoreId) (xd : Fin 16) (imm : BitVec 16) : (hammerEncode (.hMovi c xd imm)).bind (hammerDecode c) = some
    (.hMovi c xd imm) := by
  rw [show hammerEncode (.hMovi c xd imm) = some (immWord 0 xd.val imm.toNat) from rfl, Option.bind_some]
  have h1 := immWord_major (o := 0) (d := xd.val) (m := imm.toNat) (by omega) (by omega) (by omega)
  have h2 := immWord_zero (o := 0) (d := xd.val) (m := imm.toNat) (by omega) (by omega) (by omega)
  have h3 := immWord_op (o := 0) (d := xd.val) (m := imm.toNat) (by omega) (by omega) (by omega)
  have h4 := immWord_xd (o := 0) (d := xd.val) (m := imm.toNat) (by omega) (by omega) (by omega)
  have h5 := immWord_imm (o := 0) (d := xd.val) (m := imm.toNat) (by omega) (by omega) (by omega)
  generalize immWord 0 xd.val imm.toNat = word at *
  simp [hammerDecode, decodeAluImmediate, h1, h2, h3, hammerReg_of h4, hammerBits_of h5]

theorem hMovhi_roundtrip (c : CoreId) (xd : Fin 16) (imm : BitVec 8) : (hammerEncode (.hMovhi c xd imm)).bind (hammerDecode c) = some
    (.hMovhi c xd imm) := by
  rw [show hammerEncode (.hMovhi c xd imm) = some (immWord 9 xd.val imm.toNat) from rfl, Option.bind_some]
  have h1 := immWord_major (o := 9) (d := xd.val) (m := imm.toNat) (by omega) (by omega) (by omega)
  have h2 := immWord_zero (o := 9) (d := xd.val) (m := imm.toNat) (by omega) (by omega) (by omega)
  have h3 := immWord_op (o := 9) (d := xd.val) (m := imm.toNat) (by omega) (by omega) (by omega)
  have h4 := immWord_xd (o := 9) (d := xd.val) (m := imm.toNat) (by omega) (by omega) (by omega)
  have h5 := immWord_imm (o := 9) (d := xd.val) (m := imm.toNat) (by omega) (by omega) (by omega)
  have h6 : hammerField (immWord 9 xd.val imm.toNat) 0 8 = imm.toNat := by unfold hammerField immWord; omega
  generalize immWord 9 xd.val imm.toNat = word at *
  simp [hammerDecode, decodeAluImmediate, h1, h2, h3, hammerReg_of h4, hammerBits_of h6]

theorem hAluImmediate_roundtrip (c : CoreId) (op : BitVec 4) (xd : Fin 16) (imm : BitVec 16) (h0 : op.toNat ≠ 0) (h9 : op.toNat ≠ 9) :
    (hammerEncode (.hAluImmediate c op xd imm)).bind (hammerDecode c) = some (.hAluImmediate c op xd imm) := by
  rw [show hammerEncode (.hAluImmediate c op xd imm) = some (immWord op.toNat xd.val imm.toNat) from rfl, Option.bind_some]
  have h1 := immWord_major (o := op.toNat) (d := xd.val) (m := imm.toNat) (by omega) (by omega) (by omega)
  have h2 := immWord_zero (o := op.toNat) (d := xd.val) (m := imm.toNat) (by omega) (by omega) (by omega)
  have h3 := immWord_op (o := op.toNat) (d := xd.val) (m := imm.toNat) (by omega) (by omega) (by omega)
  have h4 := immWord_xd (o := op.toNat) (d := xd.val) (m := imm.toNat) (by omega) (by omega) (by omega)
  have h5 := immWord_imm (o := op.toNat) (d := xd.val) (m := imm.toNat) (by omega) (by omega) (by omega)
  have e : hammerBits (immWord op.toNat xd.val imm.toNat) 23 4 = op := hammerBits_of h3
  generalize immWord op.toNat xd.val imm.toNat = word at *
  simp only [hammerDecode, h1, decodeAluImmediate, h2, h3, hammerReg_of h4, hammerBits_of h5, e]
  split <;> simp_all

theorem hLd_roundtrip (c : CoreId) (w : BitVec 2) (x : Fin 16) (m : MemArg) (hw : w.toNat ≠ 3)
    (hm : m.mode.toNat ≠ 3) : (hammerEncode (.hLd c w x m)).bind (hammerDecode c) = some (.hLd c w x m) := by
  rw [show hammerEncode (.hLd c w x m) = some (loadWord 0 w.toNat x.val (memWord m)) from rfl, Option.bind_some]
  have h1 := loadWord_major (o := 0) (w := w.toNat) (x := x.val) (m := memWord m) (by omega) (by omega) (by omega) (memWord_lt m)
  have h2 := loadWord_op (o := 0) (w := w.toNat) (x := x.val) (m := memWord m) (by omega) (by omega) (by omega) (memWord_lt m)
  have h3 := loadWord_width (o := 0) (w := w.toNat) (x := x.val) (m := memWord m) (by omega) (by omega) (by omega) (memWord_lt m)
  have h4 := loadWord_x (o := 0) (w := w.toNat) (x := x.val) (m := memWord m) (by omega) (by omega) (by omega) (memWord_lt m)
  obtain ⟨h5, h6⟩ := hammerMem_of (loadWord_mem (o := 0) (w := w.toNat) (x := x.val) (m := memWord m) (by omega) (by omega) (by omega)
    (memWord_lt m))
  generalize loadWord 0 w.toNat x.val (memWord m) = word at *
  simp [hammerDecode, decodeLoadStore, h1, h2, h3, h4, h5, h6, hw, hm, hammerBits_of h3, hammerReg_of h4]

theorem hSt_roundtrip (c : CoreId) (w : BitVec 2) (x : Fin 16) (m : MemArg) (hw : w.toNat ≠ 3)
    (hm : m.mode.toNat ≠ 3) : (hammerEncode (.hSt c w x m)).bind (hammerDecode c) = some (.hSt c w x m) := by
  rw [show hammerEncode (.hSt c w x m) = some (loadWord 1 w.toNat x.val (memWord m)) from rfl, Option.bind_some]
  have h1 := loadWord_major (o := 1) (w := w.toNat) (x := x.val) (m := memWord m) (by omega) (by omega) (by omega) (memWord_lt m)
  have h2 := loadWord_op (o := 1) (w := w.toNat) (x := x.val) (m := memWord m) (by omega) (by omega) (by omega) (memWord_lt m)
  have h3 := loadWord_width (o := 1) (w := w.toNat) (x := x.val) (m := memWord m) (by omega) (by omega) (by omega) (memWord_lt m)
  have h4 := loadWord_x (o := 1) (w := w.toNat) (x := x.val) (m := memWord m) (by omega) (by omega) (by omega) (memWord_lt m)
  obtain ⟨h5, h6⟩ := hammerMem_of (loadWord_mem (o := 1) (w := w.toNat) (x := x.val) (m := memWord m) (by omega) (by omega) (by omega)
    (memWord_lt m))
  generalize loadWord 1 w.toNat x.val (memWord m) = word at *
  simp [hammerDecode, decodeLoadStore, h1, h2, h3, h4, h5, h6, hw, hm, hammerBits_of h3, hammerReg_of h4]

theorem hWst_roundtrip (c : CoreId) (a k : Fin 4) (m : MemArg) (hm : m.mode.toNat ≠ 3) : (hammerEncode (.hWst c a k m)).bind
    (hammerDecode c) = some (.hWst c a k m) := by
  rw [show hammerEncode (.hWst c a k m) = some (accMemWord 0 a.val k.val (memWord m)) from rfl, Option.bind_some]
  have h1 := accMemWord_major (o := 0) (a := a.val) (k := k.val) (m := memWord m) (by omega) (by omega) (by omega) (memWord_lt m)
  have h2 := accMemWord_op (o := 0) (a := a.val) (k := k.val) (m := memWord m) (by omega) (by omega) (by omega) (memWord_lt m)
  have h3 := accMemWord_a (o := 0) (a := a.val) (k := k.val) (m := memWord m) (by omega) (by omega) (by omega) (memWord_lt m)
  have h4 := accMemWord_k (o := 0) (a := a.val) (k := k.val) (m := memWord m) (by omega) (by omega) (by omega) (memWord_lt m)
  have h0 := accMemWord_zero (o := 0) (a := a.val) (k := k.val) (m := memWord m) (by omega) (by omega) (by omega) (memWord_lt m)
  obtain ⟨h5, h6⟩ := hammerMem_of (accMemWord_mem (o := 0) (a := a.val) (k := k.val) (m := memWord m) (by omega) (by omega) (by omega)
    (memWord_lt m))
  generalize accMemWord 0 a.val k.val (memWord m) = word at *
  simp [hammerDecode, decodeAccMemory, h0, h1, h2, h4, h5, h6, hm, hammerQuad_of h3, hammerQuad_of h4]

theorem hWld_roundtrip (c : CoreId) (a k : Fin 4) (m : MemArg) (hm : m.mode.toNat ≠ 3) : (hammerEncode (.hWld c a k m)).bind
    (hammerDecode c) = some (.hWld c a k m) := by
  rw [show hammerEncode (.hWld c a k m) = some (accMemWord 1 a.val k.val (memWord m)) from rfl, Option.bind_some]
  have h1 := accMemWord_major (o := 1) (a := a.val) (k := k.val) (m := memWord m) (by omega) (by omega) (by omega) (memWord_lt m)
  have h2 := accMemWord_op (o := 1) (a := a.val) (k := k.val) (m := memWord m) (by omega) (by omega) (by omega) (memWord_lt m)
  have h3 := accMemWord_a (o := 1) (a := a.val) (k := k.val) (m := memWord m) (by omega) (by omega) (by omega) (memWord_lt m)
  have h4 := accMemWord_k (o := 1) (a := a.val) (k := k.val) (m := memWord m) (by omega) (by omega) (by omega) (memWord_lt m)
  have h0 := accMemWord_zero (o := 1) (a := a.val) (k := k.val) (m := memWord m) (by omega) (by omega) (by omega) (memWord_lt m)
  obtain ⟨h5, h6⟩ := hammerMem_of (accMemWord_mem (o := 1) (a := a.val) (k := k.val) (m := memWord m) (by omega) (by omega) (by omega)
    (memWord_lt m))
  generalize accMemWord 1 a.val k.val (memWord m) = word at *
  simp [hammerDecode, decodeAccMemory, h0, h1, h2, h4, h5, h6, hm, hammerQuad_of h3, hammerQuad_of h4]

theorem hAsv_roundtrip (c : CoreId) (a k : Fin 4) (m : MemArg) (hk : k.val ≠ 3) (hm : m.mode.toNat ≠ 3) : (hammerEncode (.hAsv c a k
    m)).bind (hammerDecode c) = some (.hAsv c a k m) := by
  rw [show hammerEncode (.hAsv c a k m) = some (accMemWord 2 a.val k.val (memWord m)) from rfl, Option.bind_some]
  have h1 := accMemWord_major (o := 2) (a := a.val) (k := k.val) (m := memWord m) (by omega) (by omega) (by omega) (memWord_lt m)
  have h2 := accMemWord_op (o := 2) (a := a.val) (k := k.val) (m := memWord m) (by omega) (by omega) (by omega) (memWord_lt m)
  have h3 := accMemWord_a (o := 2) (a := a.val) (k := k.val) (m := memWord m) (by omega) (by omega) (by omega) (memWord_lt m)
  have h4 := accMemWord_k (o := 2) (a := a.val) (k := k.val) (m := memWord m) (by omega) (by omega) (by omega) (memWord_lt m)
  have h0 := accMemWord_zero (o := 2) (a := a.val) (k := k.val) (m := memWord m) (by omega) (by omega) (by omega) (memWord_lt m)
  obtain ⟨h5, h6⟩ := hammerMem_of (accMemWord_mem (o := 2) (a := a.val) (k := k.val) (m := memWord m) (by omega) (by omega) (by omega)
    (memWord_lt m))
  generalize accMemWord 2 a.val k.val (memWord m) = word at *
  simp [hammerDecode, decodeAccMemory, h0, h1, h2, h4, h5, h6, hm, hk, hammerQuad_of h3, hammerQuad_of h4]

theorem hAld_roundtrip (c : CoreId) (a k : Fin 4) (m : MemArg) (hk : k.val ≠ 3) (hm : m.mode.toNat ≠ 3) : (hammerEncode (.hAld c a k
    m)).bind (hammerDecode c) = some (.hAld c a k m) := by
  rw [show hammerEncode (.hAld c a k m) = some (accMemWord 3 a.val k.val (memWord m)) from rfl, Option.bind_some]
  have h1 := accMemWord_major (o := 3) (a := a.val) (k := k.val) (m := memWord m) (by omega) (by omega) (by omega) (memWord_lt m)
  have h2 := accMemWord_op (o := 3) (a := a.val) (k := k.val) (m := memWord m) (by omega) (by omega) (by omega) (memWord_lt m)
  have h3 := accMemWord_a (o := 3) (a := a.val) (k := k.val) (m := memWord m) (by omega) (by omega) (by omega) (memWord_lt m)
  have h4 := accMemWord_k (o := 3) (a := a.val) (k := k.val) (m := memWord m) (by omega) (by omega) (by omega) (memWord_lt m)
  have h0 := accMemWord_zero (o := 3) (a := a.val) (k := k.val) (m := memWord m) (by omega) (by omega) (by omega) (memWord_lt m)
  obtain ⟨h5, h6⟩ := hammerMem_of (accMemWord_mem (o := 3) (a := a.val) (k := k.val) (m := memWord m) (by omega) (by omega) (by omega)
    (memWord_lt m))
  generalize accMemWord 3 a.val k.val (memWord m) = word at *
  simp [hammerDecode, decodeAccMemory, h0, h1, h2, h4, h5, h6, hm, hk, hammerQuad_of h3, hammerQuad_of h4]

theorem hRnd_roundtrip (c : CoreId) (d w : Fin 4) : (hammerEncode (.hRnd c d w)).bind (hammerDecode c) = some (.hRnd c d w) := by
  rw [show hammerEncode (.hRnd c d w) = some (accWord 0 d.val 0 0 w.val 0) from rfl, Option.bind_some]
  have h0 := accWord_major (o := 0) (d := d.val) (a := 0) (x := 0) (w := w.val) (n := 0) (by omega) (by omega) (by omega) (by omega)
    (by omega) (by omega)
  have h1 := accWord_zero (o := 0) (d := d.val) (a := 0) (x := 0) (w := w.val) (n := 0) (by omega) (by omega) (by omega) (by omega) (by
    omega) (by omega)
  have h2 := accWord_op (o := 0) (d := d.val) (a := 0) (x := 0) (w := w.val) (n := 0) (by omega) (by omega) (by omega) (by omega) (by
    omega) (by omega)
  have h3 := accWord_ad (o := 0) (d := d.val) (a := 0) (x := 0) (w := w.val) (n := 0) (by omega) (by omega) (by omega) (by omega) (by
    omega) (by omega)
  have h4 := accWord_as (o := 0) (d := d.val) (a := 0) (x := 0) (w := w.val) (n := 0) (by omega) (by omega) (by omega) (by omega) (by
    omega) (by omega)
  have h5 := accWord_x (o := 0) (d := d.val) (a := 0) (x := 0) (w := w.val) (n := 0) (by omega) (by omega) (by omega) (by omega) (by
    omega) (by omega)
  have h6 := accWord_win (o := 0) (d := d.val) (a := 0) (x := 0) (w := w.val) (n := 0) (by omega) (by omega) (by omega) (by omega) (by
    omega) (by omega)
  have h7 := accWord_shift (o := 0) (d := d.val) (a := 0) (x := 0) (w := w.val) (n := 0) (by omega) (by omega) (by omega) (by omega)
    (by omega) (by omega)
  generalize accWord 0 d.val 0 0 w.val 0 = word at *
  simp [hammerDecode, decodeAccRegister, h0, h1, h2, h6, h7, hammerQuad_of h3, hammerQuad_of h6]

theorem hClra_roundtrip (c : CoreId) (d : Fin 4) : (hammerEncode (.hClra c d)).bind (hammerDecode c) = some (.hClra c d) := by
  rw [show hammerEncode (.hClra c d) = some (accWord 1 d.val 0 0 0 0) from rfl, Option.bind_some]
  have h0 := accWord_major (o := 1) (d := d.val) (a := 0) (x := 0) (w := 0) (n := 0) (by omega) (by omega) (by omega) (by omega) (by
    omega) (by omega)
  have h1 := accWord_zero (o := 1) (d := d.val) (a := 0) (x := 0) (w := 0) (n := 0) (by omega) (by omega) (by omega) (by omega) (by
    omega) (by omega)
  have h2 := accWord_op (o := 1) (d := d.val) (a := 0) (x := 0) (w := 0) (n := 0) (by omega) (by omega) (by omega) (by omega) (by
    omega) (by omega)
  have h3 := accWord_ad (o := 1) (d := d.val) (a := 0) (x := 0) (w := 0) (n := 0) (by omega) (by omega) (by omega) (by omega) (by
    omega) (by omega)
  have h4 := accWord_as (o := 1) (d := d.val) (a := 0) (x := 0) (w := 0) (n := 0) (by omega) (by omega) (by omega) (by omega) (by
    omega) (by omega)
  have h5 := accWord_x (o := 1) (d := d.val) (a := 0) (x := 0) (w := 0) (n := 0) (by omega) (by omega) (by omega) (by omega) (by omega)
    (by omega)
  have h6 := accWord_win (o := 1) (d := d.val) (a := 0) (x := 0) (w := 0) (n := 0) (by omega) (by omega) (by omega) (by omega) (by
    omega) (by omega)
  have h7 := accWord_shift (o := 1) (d := d.val) (a := 0) (x := 0) (w := 0) (n := 0) (by omega) (by omega) (by omega) (by omega) (by
    omega) (by omega)
  generalize accWord 1 d.val 0 0 0 0 = word at *
  simp [hammerDecode, decodeAccRegister, h0, h1, h2, h6, h7, hammerQuad_of h3]

theorem hAdda_roundtrip (c : CoreId) (d a : Fin 4) : (hammerEncode (.hAdda c d a)).bind (hammerDecode c) = some (.hAdda c d a) := by
  rw [show hammerEncode (.hAdda c d a) = some (accWord 2 d.val a.val 0 0 0) from rfl, Option.bind_some]
  have h0 := accWord_major (o := 2) (d := d.val) (a := a.val) (x := 0) (w := 0) (n := 0) (by omega) (by omega) (by omega) (by omega)
    (by omega) (by omega)
  have h1 := accWord_zero (o := 2) (d := d.val) (a := a.val) (x := 0) (w := 0) (n := 0) (by omega) (by omega) (by omega) (by omega) (by
    omega) (by omega)
  have h2 := accWord_op (o := 2) (d := d.val) (a := a.val) (x := 0) (w := 0) (n := 0) (by omega) (by omega) (by omega) (by omega) (by
    omega) (by omega)
  have h3 := accWord_ad (o := 2) (d := d.val) (a := a.val) (x := 0) (w := 0) (n := 0) (by omega) (by omega) (by omega) (by omega) (by
    omega) (by omega)
  have h4 := accWord_as (o := 2) (d := d.val) (a := a.val) (x := 0) (w := 0) (n := 0) (by omega) (by omega) (by omega) (by omega) (by
    omega) (by omega)
  have h5 := accWord_x (o := 2) (d := d.val) (a := a.val) (x := 0) (w := 0) (n := 0) (by omega) (by omega) (by omega) (by omega) (by
    omega) (by omega)
  have h6 := accWord_win (o := 2) (d := d.val) (a := a.val) (x := 0) (w := 0) (n := 0) (by omega) (by omega) (by omega) (by omega) (by
    omega) (by omega)
  have h7 := accWord_shift (o := 2) (d := d.val) (a := a.val) (x := 0) (w := 0) (n := 0) (by omega) (by omega) (by omega) (by omega)
    (by omega) (by omega)
  generalize accWord 2 d.val a.val 0 0 0 = word at *
  simp [hammerDecode, decodeAccRegister, h0, h1, h2, h6, h7, hammerQuad_of h3, hammerQuad_of h4]

theorem hSuba_roundtrip (c : CoreId) (d a : Fin 4) : (hammerEncode (.hSuba c d a)).bind (hammerDecode c) = some (.hSuba c d a) := by
  rw [show hammerEncode (.hSuba c d a) = some (accWord 3 d.val a.val 0 0 0) from rfl, Option.bind_some]
  have h0 := accWord_major (o := 3) (d := d.val) (a := a.val) (x := 0) (w := 0) (n := 0) (by omega) (by omega) (by omega) (by omega)
    (by omega) (by omega)
  have h1 := accWord_zero (o := 3) (d := d.val) (a := a.val) (x := 0) (w := 0) (n := 0) (by omega) (by omega) (by omega) (by omega) (by
    omega) (by omega)
  have h2 := accWord_op (o := 3) (d := d.val) (a := a.val) (x := 0) (w := 0) (n := 0) (by omega) (by omega) (by omega) (by omega) (by
    omega) (by omega)
  have h3 := accWord_ad (o := 3) (d := d.val) (a := a.val) (x := 0) (w := 0) (n := 0) (by omega) (by omega) (by omega) (by omega) (by
    omega) (by omega)
  have h4 := accWord_as (o := 3) (d := d.val) (a := a.val) (x := 0) (w := 0) (n := 0) (by omega) (by omega) (by omega) (by omega) (by
    omega) (by omega)
  have h5 := accWord_x (o := 3) (d := d.val) (a := a.val) (x := 0) (w := 0) (n := 0) (by omega) (by omega) (by omega) (by omega) (by
    omega) (by omega)
  have h6 := accWord_win (o := 3) (d := d.val) (a := a.val) (x := 0) (w := 0) (n := 0) (by omega) (by omega) (by omega) (by omega) (by
    omega) (by omega)
  have h7 := accWord_shift (o := 3) (d := d.val) (a := a.val) (x := 0) (w := 0) (n := 0) (by omega) (by omega) (by omega) (by omega)
    (by omega) (by omega)
  generalize accWord 3 d.val a.val 0 0 0 = word at *
  simp [hammerDecode, decodeAccRegister, h0, h1, h2, h6, h7, hammerQuad_of h3, hammerQuad_of h4]

theorem hNega_roundtrip (c : CoreId) (d : Fin 4) : (hammerEncode (.hNega c d)).bind (hammerDecode c) = some (.hNega c d) := by
  rw [show hammerEncode (.hNega c d) = some (accWord 4 d.val 0 0 0 0) from rfl, Option.bind_some]
  have h0 := accWord_major (o := 4) (d := d.val) (a := 0) (x := 0) (w := 0) (n := 0) (by omega) (by omega) (by omega) (by omega) (by
    omega) (by omega)
  have h1 := accWord_zero (o := 4) (d := d.val) (a := 0) (x := 0) (w := 0) (n := 0) (by omega) (by omega) (by omega) (by omega) (by
    omega) (by omega)
  have h2 := accWord_op (o := 4) (d := d.val) (a := 0) (x := 0) (w := 0) (n := 0) (by omega) (by omega) (by omega) (by omega) (by
    omega) (by omega)
  have h3 := accWord_ad (o := 4) (d := d.val) (a := 0) (x := 0) (w := 0) (n := 0) (by omega) (by omega) (by omega) (by omega) (by
    omega) (by omega)
  have h4 := accWord_as (o := 4) (d := d.val) (a := 0) (x := 0) (w := 0) (n := 0) (by omega) (by omega) (by omega) (by omega) (by
    omega) (by omega)
  have h5 := accWord_x (o := 4) (d := d.val) (a := 0) (x := 0) (w := 0) (n := 0) (by omega) (by omega) (by omega) (by omega) (by omega)
    (by omega)
  have h6 := accWord_win (o := 4) (d := d.val) (a := 0) (x := 0) (w := 0) (n := 0) (by omega) (by omega) (by omega) (by omega) (by
    omega) (by omega)
  have h7 := accWord_shift (o := 4) (d := d.val) (a := 0) (x := 0) (w := 0) (n := 0) (by omega) (by omega) (by omega) (by omega) (by
    omega) (by omega)
  generalize accWord 4 d.val 0 0 0 0 = word at *
  simp [hammerDecode, decodeAccRegister, h0, h1, h2, h6, h7, hammerQuad_of h3]

theorem hAsha_roundtrip (c : CoreId) (d : Fin 4) (n : BitVec 6) : (hammerEncode (.hAsha c d n)).bind (hammerDecode c) = some (.hAsha c
    d n) := by
  rw [show hammerEncode (.hAsha c d n) = some (accWord 5 d.val 0 0 0 n.toNat) from rfl, Option.bind_some]
  have h0 := accWord_major (o := 5) (d := d.val) (a := 0) (x := 0) (w := 0) (n := n.toNat) (by omega) (by omega) (by omega) (by omega)
    (by omega) (by omega)
  have h1 := accWord_zero (o := 5) (d := d.val) (a := 0) (x := 0) (w := 0) (n := n.toNat) (by omega) (by omega) (by omega) (by omega)
    (by omega) (by omega)
  have h2 := accWord_op (o := 5) (d := d.val) (a := 0) (x := 0) (w := 0) (n := n.toNat) (by omega) (by omega) (by omega) (by omega) (by
    omega) (by omega)
  have h3 := accWord_ad (o := 5) (d := d.val) (a := 0) (x := 0) (w := 0) (n := n.toNat) (by omega) (by omega) (by omega) (by omega) (by
    omega) (by omega)
  have h4 := accWord_as (o := 5) (d := d.val) (a := 0) (x := 0) (w := 0) (n := n.toNat) (by omega) (by omega) (by omega) (by omega) (by
    omega) (by omega)
  have h5 := accWord_x (o := 5) (d := d.val) (a := 0) (x := 0) (w := 0) (n := n.toNat) (by omega) (by omega) (by omega) (by omega) (by
    omega) (by omega)
  have h6 := accWord_win (o := 5) (d := d.val) (a := 0) (x := 0) (w := 0) (n := n.toNat) (by omega) (by omega) (by omega) (by omega)
    (by omega) (by omega)
  have h7 := accWord_shift (o := 5) (d := d.val) (a := 0) (x := 0) (w := 0) (n := n.toNat) (by omega) (by omega) (by omega) (by omega)
    (by omega) (by omega)
  generalize accWord 5 d.val 0 0 0 n.toNat = word at *
  simp [hammerDecode, decodeAccRegister, h0, h1, h2, h6, h7, hammerQuad_of h3, hammerBits_of h7]

theorem hMvax_roundtrip (c : CoreId) (d w : Fin 4) (x : Fin 16) : (hammerEncode (.hMvax c d w x)).bind (hammerDecode c) = some (.hMvax
    c d w x) := by
  rw [show hammerEncode (.hMvax c d w x) = some (accWord 6 d.val 0 x.val w.val 0) from rfl, Option.bind_some]
  have h0 := accWord_major (o := 6) (d := d.val) (a := 0) (x := x.val) (w := w.val) (n := 0) (by omega) (by omega) (by omega) (by
    omega) (by omega) (by omega)
  have h1 := accWord_zero (o := 6) (d := d.val) (a := 0) (x := x.val) (w := w.val) (n := 0) (by omega) (by omega) (by omega) (by omega)
    (by omega) (by omega)
  have h2 := accWord_op (o := 6) (d := d.val) (a := 0) (x := x.val) (w := w.val) (n := 0) (by omega) (by omega) (by omega) (by omega)
    (by omega) (by omega)
  have h3 := accWord_ad (o := 6) (d := d.val) (a := 0) (x := x.val) (w := w.val) (n := 0) (by omega) (by omega) (by omega) (by omega)
    (by omega) (by omega)
  have h4 := accWord_as (o := 6) (d := d.val) (a := 0) (x := x.val) (w := w.val) (n := 0) (by omega) (by omega) (by omega) (by omega)
    (by omega) (by omega)
  have h5 := accWord_x (o := 6) (d := d.val) (a := 0) (x := x.val) (w := w.val) (n := 0) (by omega) (by omega) (by omega) (by omega)
    (by omega) (by omega)
  have h6 := accWord_win (o := 6) (d := d.val) (a := 0) (x := x.val) (w := w.val) (n := 0) (by omega) (by omega) (by omega) (by omega)
    (by omega) (by omega)
  have h7 := accWord_shift (o := 6) (d := d.val) (a := 0) (x := x.val) (w := w.val) (n := 0) (by omega) (by omega) (by omega) (by
    omega) (by omega) (by omega)
  generalize accWord 6 d.val 0 x.val w.val 0 = word at *
  simp [hammerDecode, decodeAccRegister, h0, h1, h2, h6, h7, hammerQuad_of h3, hammerQuad_of h6, hammerReg_of h5]

theorem hMvxa_roundtrip (c : CoreId) (d w : Fin 4) (x : Fin 16) : (hammerEncode (.hMvxa c d w x)).bind (hammerDecode c) = some (.hMvxa
    c d w x) := by
  rw [show hammerEncode (.hMvxa c d w x) = some (accWord 7 d.val 0 x.val w.val 0) from rfl, Option.bind_some]
  have h0 := accWord_major (o := 7) (d := d.val) (a := 0) (x := x.val) (w := w.val) (n := 0) (by omega) (by omega) (by omega) (by
    omega) (by omega) (by omega)
  have h1 := accWord_zero (o := 7) (d := d.val) (a := 0) (x := x.val) (w := w.val) (n := 0) (by omega) (by omega) (by omega) (by omega)
    (by omega) (by omega)
  have h2 := accWord_op (o := 7) (d := d.val) (a := 0) (x := x.val) (w := w.val) (n := 0) (by omega) (by omega) (by omega) (by omega)
    (by omega) (by omega)
  have h3 := accWord_ad (o := 7) (d := d.val) (a := 0) (x := x.val) (w := w.val) (n := 0) (by omega) (by omega) (by omega) (by omega)
    (by omega) (by omega)
  have h4 := accWord_as (o := 7) (d := d.val) (a := 0) (x := x.val) (w := w.val) (n := 0) (by omega) (by omega) (by omega) (by omega)
    (by omega) (by omega)
  have h5 := accWord_x (o := 7) (d := d.val) (a := 0) (x := x.val) (w := w.val) (n := 0) (by omega) (by omega) (by omega) (by omega)
    (by omega) (by omega)
  have h6 := accWord_win (o := 7) (d := d.val) (a := 0) (x := x.val) (w := w.val) (n := 0) (by omega) (by omega) (by omega) (by omega)
    (by omega) (by omega)
  have h7 := accWord_shift (o := 7) (d := d.val) (a := 0) (x := x.val) (w := w.val) (n := 0) (by omega) (by omega) (by omega) (by
    omega) (by omega) (by omega)
  generalize accWord 7 d.val 0 x.val w.val 0 = word at *
  simp [hammerDecode, decodeAccRegister, h0, h1, h2, h6, h7, hammerQuad_of h3, hammerQuad_of h6, hammerReg_of h5]

theorem hLdp_roundtrip (c : CoreId) (xa xb : Fin 16) (sl : Slots) (hw : sl.w.toNat ≠ 3) : (hammerEncode (.hLdp c xa xb sl)).bind
    (hammerDecode c) = some (.hLdp c xa xb sl) := by
  rw [show hammerEncode (.hLdp c xa xb sl) = some (macWord 9 0 false false xa.val xb.val (slotsWord sl) false) from rfl,
    Option.bind_some]
  obtain ⟨l, z⟩ := slotsWord_lt sl
  obtain ⟨s1, s2, s3, s4, s5⟩ := slotsWord_fields sl
  obtain ⟨h1, h2, h3, h4⟩ := macWord_top (g := 9) (a := 0) (b := false) (k := false) (x := xa.val) (y := xb.val) (m := slotsWord sl) (j
    := false) (by omega) (by omega) (by omega) (by omega) l z
  obtain ⟨h5, h6, h7, h8⟩ := macWord_low (g := 9) (a := 0) (b := false) (k := false) (x := xa.val) (y := xb.val) (m := slotsWord sl) (j
    := false) (by omega) (by omega) l z
  obtain ⟨t1, t2, t3, t4, t5⟩ := macWord_slot (g := 9) (a := 0) (b := false) (k := false) (x := xa.val) (y := xb.val) (m := slotsWord
    sl) (j := false) l z
  have e := hammerSlots_of (t1.trans s1) (t2.trans s2) (t3.trans s3) (t4.trans s4) (t5.trans s5)
  have hw' := t1.trans s1
  generalize macWord 9 0 false false xa.val xb.val (slotsWord sl) false = word at *
  simp_all [hammerDecode, decodeMac, hammerReg_of h5, hammerReg_of h6]

theorem hMac_roundtrip (c : CoreId) (ad : Fin 4) (neg clr : Bool) (xa xb : Fin 16) (sl : Slots) (hw : sl.w.toNat ≠ 3) : (hammerEncode
    (.hMac c ad neg clr xa xb sl)).bind (hammerDecode c) = some (.hMac c ad neg clr xa xb sl) := by
  rw [show hammerEncode (.hMac c ad neg clr xa xb sl) = some (macWord 10 ad.val neg clr xa.val xb.val (slotsWord sl) false) from rfl,
    Option.bind_some]
  obtain ⟨l, z⟩ := slotsWord_lt sl
  obtain ⟨s1, s2, s3, s4, s5⟩ := slotsWord_fields sl
  obtain ⟨h1, h2, h3, h4⟩ := macWord_top (g := 10) (a := ad.val) (b := neg) (k := clr) (x := xa.val) (y := xb.val) (m := slotsWord sl)
    (j := false) (by omega) (by omega) (by omega) (by omega) l z
  obtain ⟨h5, h6, h7, h8⟩ := macWord_low (g := 10) (a := ad.val) (b := neg) (k := clr) (x := xa.val) (y := xb.val) (m := slotsWord sl)
    (j := false) (by omega) (by omega) l z
  obtain ⟨t1, t2, t3, t4, t5⟩ := macWord_slot (g := 10) (a := ad.val) (b := neg) (k := clr) (x := xa.val) (y := xb.val) (m := slotsWord
    sl) (j := false) l z
  have e := hammerSlots_of (t1.trans s1) (t2.trans s2) (t3.trans s3) (t4.trans s4) (t5.trans s5)
  have hw' := t1.trans s1
  generalize macWord 10 ad.val neg clr xa.val xb.val (slotsWord sl) false = word at *
  cases neg <;> cases clr <;> simp_all [hammerDecode, decodeMac, hammerReg_of h5, hammerReg_of h6, hammerQuad_of h2]

theorem hMac4_roundtrip (c : CoreId) (ad : Fin 4) (neg clr : Bool) (xa xb : Fin 16) (sl : Slots) (hw : sl.w.toNat ≠ 3) : (hammerEncode
    (.hMac4 c ad neg clr xa xb sl)).bind (hammerDecode c) = some (.hMac4 c ad neg clr xa xb sl) := by
  rw [show hammerEncode (.hMac4 c ad neg clr xa xb sl) = some (macWord 11 ad.val neg clr xa.val xb.val (slotsWord sl) false) from rfl,
    Option.bind_some]
  obtain ⟨l, z⟩ := slotsWord_lt sl
  obtain ⟨s1, s2, s3, s4, s5⟩ := slotsWord_fields sl
  obtain ⟨h1, h2, h3, h4⟩ := macWord_top (g := 11) (a := ad.val) (b := neg) (k := clr) (x := xa.val) (y := xb.val) (m := slotsWord sl)
    (j := false) (by omega) (by omega) (by omega) (by omega) l z
  obtain ⟨h5, h6, h7, h8⟩ := macWord_low (g := 11) (a := ad.val) (b := neg) (k := clr) (x := xa.val) (y := xb.val) (m := slotsWord sl)
    (j := false) (by omega) (by omega) l z
  obtain ⟨t1, t2, t3, t4, t5⟩ := macWord_slot (g := 11) (a := ad.val) (b := neg) (k := clr) (x := xa.val) (y := xb.val) (m := slotsWord
    sl) (j := false) l z
  have e := hammerSlots_of (t1.trans s1) (t2.trans s2) (t3.trans s3) (t4.trans s4) (t5.trans s5)
  have hw' := t1.trans s1
  generalize macWord 11 ad.val neg clr xa.val xb.val (slotsWord sl) false = word at *
  cases neg <;> cases clr <;> simp_all [hammerDecode, decodeMac, hammerReg_of h5, hammerReg_of h6, hammerQuad_of h2]

theorem hDot4_roundtrip (c : CoreId) (ad : Fin 4) (neg clr : Bool) (xa xb : Fin 16) (sl : Slots) (hw : sl.w.toNat ≠ 3) : (hammerEncode
    (.hDot4 c ad neg clr xa xb sl)).bind (hammerDecode c) = some (.hDot4 c ad neg clr xa xb sl) := by
  rw [show hammerEncode (.hDot4 c ad neg clr xa xb sl) = some (macWord 12 ad.val neg clr xa.val xb.val (slotsWord sl) false) from rfl,
    Option.bind_some]
  obtain ⟨l, z⟩ := slotsWord_lt sl
  obtain ⟨s1, s2, s3, s4, s5⟩ := slotsWord_fields sl
  obtain ⟨h1, h2, h3, h4⟩ := macWord_top (g := 12) (a := ad.val) (b := neg) (k := clr) (x := xa.val) (y := xb.val) (m := slotsWord sl)
    (j := false) (by omega) (by omega) (by omega) (by omega) l z
  obtain ⟨h5, h6, h7, h8⟩ := macWord_low (g := 12) (a := ad.val) (b := neg) (k := clr) (x := xa.val) (y := xb.val) (m := slotsWord sl)
    (j := false) (by omega) (by omega) l z
  obtain ⟨t1, t2, t3, t4, t5⟩ := macWord_slot (g := 12) (a := ad.val) (b := neg) (k := clr) (x := xa.val) (y := xb.val) (m := slotsWord
    sl) (j := false) l z
  have e := hammerSlots_of (t1.trans s1) (t2.trans s2) (t3.trans s3) (t4.trans s4) (t5.trans s5)
  have hw' := t1.trans s1
  generalize macWord 12 ad.val neg clr xa.val xb.val (slotsWord sl) false = word at *
  cases neg <;> cases clr <;> simp_all [hammerDecode, decodeMac, hammerReg_of h5, hammerReg_of h6, hammerQuad_of h2]

theorem hCmac_roundtrip (c : CoreId) (ad : Fin 4) (neg clr : Bool) (xa xb : Fin 16) (sl : Slots) (conj : Bool) (hw : sl.w.toNat ≠ 3) :
    (hammerEncode (.hCmac c ad neg clr xa xb sl conj)).bind (hammerDecode c) = some (.hCmac c ad neg clr xa xb sl conj) := by
  rw [show hammerEncode (.hCmac c ad neg clr xa xb sl conj) = some (macWord 13 ad.val neg clr xa.val xb.val (slotsWord sl) conj) from
    rfl, Option.bind_some]
  obtain ⟨l, z⟩ := slotsWord_lt sl
  obtain ⟨s1, s2, s3, s4, s5⟩ := slotsWord_fields sl
  obtain ⟨h1, h2, h3, h4⟩ := macWord_top (g := 13) (a := ad.val) (b := neg) (k := clr) (x := xa.val) (y := xb.val) (m := slotsWord sl)
    (j := conj) (by omega) (by omega) (by omega) (by omega) l z
  obtain ⟨h5, h6, h7, h8⟩ := macWord_low (g := 13) (a := ad.val) (b := neg) (k := clr) (x := xa.val) (y := xb.val) (m := slotsWord sl)
    (j := conj) (by omega) (by omega) l z
  obtain ⟨t1, t2, t3, t4, t5⟩ := macWord_slot (g := 13) (a := ad.val) (b := neg) (k := clr) (x := xa.val) (y := xb.val) (m := slotsWord
    sl) (j := conj) l z
  have e := hammerSlots_of (t1.trans s1) (t2.trans s2) (t3.trans s3) (t4.trans s4) (t5.trans s5)
  have hw' := t1.trans s1
  generalize macWord 13 ad.val neg clr xa.val xb.val (slotsWord sl) conj = word at *
  cases neg <;> cases clr <;> cases conj <;> simp_all [hammerDecode, decodeMac, hammerReg_of h5, hammerReg_of h6, hammerQuad_of h2]

theorem hTng_roundtrip (c : CoreId) (i : Fin 8) : (hammerEncode (.hTng c i)).bind (hammerDecode c) = some (.hTng c i) := by
  obtain ⟨h1, h2, h3, h4, h5, -⟩ := tongsWord_fields i 0
  rw [show hammerEncode (.hTng c i) = some (14 * 2 ^ 27 + i.val * 2 ^ 17) from rfl, Option.bind_some]
  generalize 14 * 2 ^ 27 + i.val * 2 ^ 17 = word at h1 h2 h3 h4 h5 ⊢
  simp [hammerDecode, h1, decodeTongs, h2, h3, h4, hammerIk_of h5]

theorem hTwait_roundtrip (c : CoreId) (n : BitVec 4) : (hammerEncode (.hTwait c n)).bind (hammerDecode c) = some (.hTwait c n) := by
  obtain ⟨-, -, -, -, -, h1, h2, h3, h4⟩ := tongsWord_fields 0 n
  rw [show hammerEncode (.hTwait c n) = some (14 * 2 ^ 27 + 2 ^ 26 + n.toNat) from rfl, Option.bind_some]
  generalize 14 * 2 ^ 27 + 2 ^ 26 + n.toNat = word at h1 h2 h3 h4 ⊢
  simp [hammerDecode, h1, decodeTongs, h2, h3, hammerBits_of h4]

theorem hLdx_roundtrip (c : CoreId) (d : Fin 16) (i : Fin 8) : (hammerEncode (.hLdx c d i)).bind (hammerDecode c) = some (.hLdx c d i)
    := by
  rw [show hammerEncode (.hLdx c d i) = some (lockedWord 0 0 i.val d.val 0) from rfl, Option.bind_some]
  have h0 := lockedWord_major (o := 0) (t := 0) (i := i.val) (d := d.val) (x := 0) (by omega) (by omega) (by omega) (by omega) (by
    omega)
  have h1 := lockedWord_zero (o := 0) (t := 0) (i := i.val) (d := d.val) (x := 0) (by omega) (by omega) (by omega) (by omega) (by omega)
  have h2 := lockedWord_op (o := 0) (t := 0) (i := i.val) (d := d.val) (x := 0) (by omega) (by omega) (by omega) (by omega) (by omega)
  have h3 := lockedWord_atomic (o := 0) (t := 0) (i := i.val) (d := d.val) (x := 0) (by omega) (by omega) (by omega) (by omega) (by
    omega)
  have h4 := lockedWord_ik (o := 0) (t := 0) (i := i.val) (d := d.val) (x := 0) (by omega) (by omega) (by omega) (by omega) (by omega)
  have h5 := lockedWord_xd (o := 0) (t := 0) (i := i.val) (d := d.val) (x := 0) (by omega) (by omega) (by omega) (by omega) (by omega)
  have h6 := lockedWord_xs (o := 0) (t := 0) (i := i.val) (d := d.val) (x := 0) (by omega) (by omega) (by omega) (by omega) (by omega)
  generalize lockedWord 0 0 i.val d.val 0 = word at *
  simp [hammerDecode, decodeLocked, h0, h1, h2, hammerIk_of h4, hammerReg_of h5]

theorem hStx_roundtrip (c : CoreId) (d x : Fin 16) (i : Fin 8) : (hammerEncode (.hStx c d x i)).bind (hammerDecode c) = some (.hStx c d
    x i) := by
  rw [show hammerEncode (.hStx c d x i) = some (lockedWord 1 0 i.val d.val x.val) from rfl, Option.bind_some]
  have h0 := lockedWord_major (o := 1) (t := 0) (i := i.val) (d := d.val) (x := x.val) (by omega) (by omega) (by omega) (by omega) (by
    omega)
  have h1 := lockedWord_zero (o := 1) (t := 0) (i := i.val) (d := d.val) (x := x.val) (by omega) (by omega) (by omega) (by omega) (by
    omega)
  have h2 := lockedWord_op (o := 1) (t := 0) (i := i.val) (d := d.val) (x := x.val) (by omega) (by omega) (by omega) (by omega) (by
    omega)
  have h3 := lockedWord_atomic (o := 1) (t := 0) (i := i.val) (d := d.val) (x := x.val) (by omega) (by omega) (by omega) (by omega) (by
    omega)
  have h4 := lockedWord_ik (o := 1) (t := 0) (i := i.val) (d := d.val) (x := x.val) (by omega) (by omega) (by omega) (by omega) (by
    omega)
  have h5 := lockedWord_xd (o := 1) (t := 0) (i := i.val) (d := d.val) (x := x.val) (by omega) (by omega) (by omega) (by omega) (by
    omega)
  have h6 := lockedWord_xs (o := 1) (t := 0) (i := i.val) (d := d.val) (x := x.val) (by omega) (by omega) (by omega) (by omega) (by
    omega)
  generalize lockedWord 1 0 i.val d.val x.val = word at *
  simp [hammerDecode, decodeLocked, h0, h1, h2, hammerIk_of h4, hammerReg_of h5, hammerReg_of h6]

theorem hAtm_roundtrip (c : CoreId) (op : BitVec 5) (d x : Fin 16) (i : Fin 8) (ho : op.toNat ≤ 6) : (hammerEncode (.hAtm c op d x
    i)).bind (hammerDecode c) = some (.hAtm c op d x i) := by
  rw [show hammerEncode (.hAtm c op d x i) = some (lockedWord 2 op.toNat i.val d.val x.val) from rfl, Option.bind_some]
  have h0 := lockedWord_major (o := 2) (t := op.toNat) (i := i.val) (d := d.val) (x := x.val) (by omega) (by omega) (by omega) (by
    omega) (by omega)
  have h1 := lockedWord_zero (o := 2) (t := op.toNat) (i := i.val) (d := d.val) (x := x.val) (by omega) (by omega) (by omega) (by
    omega) (by omega)
  have h2 := lockedWord_op (o := 2) (t := op.toNat) (i := i.val) (d := d.val) (x := x.val) (by omega) (by omega) (by omega) (by omega)
    (by omega)
  have h3 := lockedWord_atomic (o := 2) (t := op.toNat) (i := i.val) (d := d.val) (x := x.val) (by omega) (by omega) (by omega) (by
    omega) (by omega)
  have h4 := lockedWord_ik (o := 2) (t := op.toNat) (i := i.val) (d := d.val) (x := x.val) (by omega) (by omega) (by omega) (by omega)
    (by omega)
  have h5 := lockedWord_xd (o := 2) (t := op.toNat) (i := i.val) (d := d.val) (x := x.val) (by omega) (by omega) (by omega) (by omega)
    (by omega)
  have h6 := lockedWord_xs (o := 2) (t := op.toNat) (i := i.val) (d := d.val) (x := x.val) (by omega) (by omega) (by omega) (by omega)
    (by omega)
  generalize lockedWord 2 op.toNat i.val d.val x.val = word at *
  simp [hammerDecode, decodeLocked, h0, h1, h2, h3, ho, hammerIk_of h4, hammerReg_of h5, hammerReg_of h6, hammerBits_of h3]

end Sys2Proof
end

