-- ==== Sys2Proof/Laws/State.lean ====
section
/-! SUPPORT. One lemma for each field of State under each update, so that no later proof unfolds a record update. -/

namespace Sys2Proof.Machine

@[simp] theorem State.setPending_pending (s : State) (v : List Instr) : (s.setPending v).pending = v := (rfl)
@[simp] theorem State.setPending_regs (s : State) (v : List Instr) : (s.setPending v).regs = s.regs := (rfl)
@[simp] theorem State.setPending_mem (s : State) (v : List Instr) : (s.setPending v).mem = s.mem := (rfl)
@[simp] theorem State.setPending_poison (s : State) (v : List Instr) : (s.setPending v).poison = s.poison := (rfl)
@[simp] theorem State.setPending_fresh (s : State) (v : List Instr) : (s.setPending v).fresh = s.fresh := (rfl)
@[simp] theorem State.setPending_answer (s : State) (v : List Instr) : (s.setPending v).answer = s.answer := (rfl)
@[simp] theorem State.setPending_answerStatus (s : State) (v : List Instr) : (s.setPending v).answerStatus = s.answerStatus := (rfl)
@[simp] theorem State.setPending_book (s : State) (v : List Instr) : (s.setPending v).book = s.book := (rfl)
@[simp] theorem State.setPending_mgt (s : State) (v : List Instr) : (s.setPending v).mgt = s.mgt := (rfl)
@[simp] theorem State.setPending_fpFifo (s : State) (v : List Instr) : (s.setPending v).fpFifo = s.fpFifo := (rfl)
@[simp] theorem State.setPending_evtOnce (s : State) (v : List Instr) : (s.setPending v).evtOnce = s.evtOnce := (rfl)
@[simp] theorem State.setPending_cycles (s : State) (v : List Instr) : (s.setPending v).cycles = s.cycles := (rfl)
@[simp] theorem State.setPending_pcie (s : State) (v : List Instr) : (s.setPending v).pcie = s.pcie := (rfl)
@[simp] theorem State.setPending_sent (s : State) (v : List Instr) : (s.setPending v).sent = s.sent := (rfl)
@[simp] theorem State.setPending_bw (s : State) (v : List Instr) : (s.setPending v).bw = s.bw := (rfl)
@[simp] theorem State.setPending_pmcLatch (s : State) (v : List Instr) : (s.setPending v).pmcLatch = s.pmcLatch := (rfl)
@[simp] theorem State.setPending_cal (s : State) (v : List Instr) : (s.setPending v).cal = s.cal := (rfl)
@[simp] theorem State.setPending_cfg (s : State) (v : List Instr) : (s.setPending v).cfg = s.cfg := (rfl)
@[simp] theorem State.setPending_tap (s : State) (v : List Instr) : (s.setPending v).tap = s.tap := (rfl)
@[simp] theorem State.setPending_pins (s : State) (v : List Instr) : (s.setPending v).pins = s.pins := (rfl)
@[simp] theorem State.setPending_frames (s : State) (v : List Instr) : (s.setPending v).frames = s.frames := (rfl)
@[simp] theorem State.setPending_clusters (s : State) (v : List Instr) : (s.setPending v).clusters = s.clusters := (rfl)
@[simp] theorem State.setPending_ffs (s : State) (v : List Instr) : (s.setPending v).ffs = s.ffs := (rfl)
@[simp] theorem State.setPending_relStage (s : State) (v : List Instr) : (s.setPending v).relStage = s.relStage := (rfl)
@[simp] theorem State.setPending_frozen (s : State) (v : List Instr) : (s.setPending v).frozen = s.frozen := (rfl)
@[simp] theorem State.setPending_bramCfg (s : State) (v : List Instr) : (s.setPending v).bramCfg = s.bramCfg := (rfl)
@[simp] theorem State.setPending_bram (s : State) (v : List Instr) : (s.setPending v).bram = s.bram := (rfl)
@[simp] theorem State.setPending_bramPorts (s : State) (v : List Instr) : (s.setPending v).bramPorts = s.bramPorts := (rfl)
@[simp] theorem State.setPending_multCfg (s : State) (v : List Instr) : (s.setPending v).multCfg = s.multCfg := (rfl)
@[simp] theorem State.setPending_mults (s : State) (v : List Instr) : (s.setPending v).mults = s.mults := (rfl)
@[simp] theorem State.setPending_railKeep (s : State) (v : List Instr) : (s.setPending v).railKeep = s.railKeep := (rfl)
@[simp] theorem State.setPending_chk (s : State) (v : List Instr) : (s.setPending v).chk = s.chk := (rfl)
@[simp] theorem State.setPending_eccRaw (s : State) (v : List Instr) : (s.setPending v).eccRaw = s.eccRaw := (rfl)
@[simp] theorem State.setPending_eccScrub (s : State) (v : List Instr) : (s.setPending v).eccScrub = s.eccScrub := (rfl)
@[simp] theorem State.setPending_tags (s : State) (v : List Instr) : (s.setPending v).tags = s.tags := (rfl)
@[simp] theorem State.setPending_xUsed (s : State) (v : List Instr) : (s.setPending v).xUsed = s.xUsed := (rfl)
@[simp] theorem State.setPending_xWait (s : State) (v : List Instr) : (s.setPending v).xWait = s.xWait := (rfl)
@[simp] theorem State.setPending_xHeld (s : State) (v : List Instr) : (s.setPending v).xHeld = s.xHeld := (rfl)
@[simp] theorem State.setPending_routers (s : State) (v : List Instr) : (s.setPending v).routers = s.routers := (rfl)
@[simp] theorem State.setPending_portMode (s : State) (v : List Instr) : (s.setPending v).portMode = s.portMode := (rfl)
@[simp] theorem State.setPending_portTags (s : State) (v : List Instr) : (s.setPending v).portTags = s.portTags := (rfl)
@[simp] theorem State.setPending_portFifo (s : State) (v : List Instr) : (s.setPending v).portFifo = s.portFifo := (rfl)
@[simp] theorem State.setPending_dcache (s : State) (v : List Instr) : (s.setPending v).dcache = s.dcache := (rfl)
@[simp] theorem State.setPending_dir (s : State) (v : List Instr) : (s.setPending v).dir = s.dir := (rfl)
@[simp] theorem State.setPending_dieResets (s : State) (v : List Instr) : (s.setPending v).dieResets = s.dieResets := (rfl)
@[simp] theorem State.setPending_homeTxn (s : State) (v : List Instr) : (s.setPending v).homeTxn = s.homeTxn := (rfl)
@[simp] theorem State.setPending_cores (s : State) (v : List Instr) : (s.setPending v).cores = s.cores := (rfl)
@[simp] theorem State.setPending_tngDone (s : State) (v : List Instr) : (s.setPending v).tngDone = s.tngDone := (rfl)
@[simp] theorem State.setPending_fab (s : State) (v : List Instr) : (s.setPending v).fab = s.fab := (rfl)
@[simp] theorem State.setPending_net (s : State) (v : List Instr) : (s.setPending v).net = s.net := (rfl)
@[simp] theorem State.setPending_rtrShare (s : State) (v : List Instr) : (s.setPending v).rtrShare = s.rtrShare := (rfl)
@[simp] theorem State.setPending_dbg (s : State) (v : List Instr) : (s.setPending v).dbg = s.dbg := (rfl)
@[simp] theorem State.setPending_dcWait (s : State) (v : List Instr) : (s.setPending v).dcWait = s.dcWait := (rfl)
@[simp] theorem State.setPending_prcStep (s : State) (v : List Instr) : (s.setPending v).prcStep = s.prcStep := (rfl)
@[simp] theorem State.setPending_prcBlank (s : State) (v : List Instr) : (s.setPending v).prcBlank = s.prcBlank := (rfl)
@[simp] theorem State.setPending_prcHold (s : State) (v : List Instr) : (s.setPending v).prcHold = s.prcHold := (rfl)
@[simp] theorem State.setPending_capWait (s : State) (v : List Instr) : (s.setPending v).capWait = s.capWait := (rfl)
@[simp] theorem State.setPending_capture (s : State) (v : List Instr) : (s.setPending v).capture = s.capture := (rfl)
@[simp] theorem State.setPending_bramDef (s : State) (v : List Instr) : (s.setPending v).bramDef = s.bramDef := (rfl)
@[simp] theorem State.setPending_scrubs (s : State) (v : List Instr) : (s.setPending v).scrubs = s.scrubs := (rfl)
@[simp] theorem State.setPending_scrCopy (s : State) (v : List Instr) : (s.setPending v).scrCopy = s.scrCopy := (rfl)
@[simp] theorem State.setPending_releases (s : State) (v : List Instr) : (s.setPending v).releases = s.releases := (rfl)
@[simp] theorem State.setPending_dieStep (s : State) (v : List Instr) : (s.setPending v).dieStep = s.dieStep := (rfl)
@[simp] theorem State.setPending_clampDef (s : State) (v : List Instr) : (s.setPending v).clampDef = s.clampDef := (rfl)
@[simp] theorem State.setPending_clamps (s : State) (v : List Instr) : (s.setPending v).clamps = s.clamps := (rfl)
@[simp] theorem State.setPending_welds (s : State) (v : List Instr) : (s.setPending v).welds = s.welds := (rfl)
@[simp] theorem State.setPending_lanes (s : State) (v : List Instr) : (s.setPending v).lanes = s.lanes := (rfl)
@[simp] theorem State.setPending_macMode (s : State) (v : List Instr) : (s.setPending v).macMode = s.macMode := (rfl)
@[simp] theorem State.setPending_tod (s : State) (v : List Instr) : (s.setPending v).tod = s.tod := (rfl)
@[simp] theorem State.setPending_lkp (s : State) (v : List Instr) : (s.setPending v).lkp = s.lkp := (rfl)
@[simp] theorem State.setPending_queues (s : State) (v : List Instr) : (s.setPending v).queues = s.queues := (rfl)
@[simp] theorem State.setPending_ports (s : State) (v : List Instr) : (s.setPending v).ports = s.ports := (rfl)
@[simp] theorem State.setPending_pkt (s : State) (v : List Instr) : (s.setPending v).pkt = s.pkt := (rfl)
@[simp] theorem State.setPending_cxl (s : State) (v : List Instr) : (s.setPending v).cxl = s.cxl := (rfl)
@[simp] theorem State.setPending_ddr (s : State) (v : List Instr) : (s.setPending v).ddr = s.ddr := (rfl)
@[simp] theorem State.setPending_regions (s : State) (v : List Instr) : (s.setPending v).regions = s.regions := (rfl)
@[simp] theorem State.setPending_prots (s : State) (v : List Instr) : (s.setPending v).prots = s.prots := (rfl)
@[simp] theorem State.setPending_keyStore (s : State) (v : List Instr) : (s.setPending v).keyStore = s.keyStore := (rfl)
@[simp] theorem State.setPending_rings (s : State) (v : List Instr) : (s.setPending v).rings = s.rings := (rfl)
@[simp] theorem State.setPending_openMem (s : State) (v : List Instr) : (s.setPending v).openMem = s.openMem := (rfl)
@[simp] theorem State.setPending_dcRights (s : State) (v : List Instr) : (s.setPending v).dcRights = s.dcRights := (rfl)
@[simp] theorem State.setPending_clk (s : State) (v : List Instr) : (s.setPending v).clk = s.clk := (rfl)
@[simp] theorem State.setPending_units (s : State) (v : List Instr) : (s.setPending v).units = s.units := (rfl)
@[simp] theorem State.setPending_hearthHit (s : State) (v : List Instr) : (s.setPending v).hearthHit = s.hearthHit := (rfl)
@[simp] theorem State.setRegs_pending (s : State) (v : Tbl Word) : (s.setRegs v).pending = s.pending := (rfl)
@[simp] theorem State.setRegs_regs (s : State) (v : Tbl Word) : (s.setRegs v).regs = v := (rfl)
@[simp] theorem State.setRegs_mem (s : State) (v : Tbl Word) : (s.setRegs v).mem = s.mem := (rfl)
@[simp] theorem State.setRegs_poison (s : State) (v : Tbl Word) : (s.setRegs v).poison = s.poison := (rfl)
@[simp] theorem State.setRegs_fresh (s : State) (v : Tbl Word) : (s.setRegs v).fresh = s.fresh := (rfl)
@[simp] theorem State.setRegs_answer (s : State) (v : Tbl Word) : (s.setRegs v).answer = s.answer := (rfl)
@[simp] theorem State.setRegs_answerStatus (s : State) (v : Tbl Word) : (s.setRegs v).answerStatus = s.answerStatus := (rfl)
@[simp] theorem State.setRegs_book (s : State) (v : Tbl Word) : (s.setRegs v).book = s.book := (rfl)
@[simp] theorem State.setRegs_mgt (s : State) (v : Tbl Word) : (s.setRegs v).mgt = s.mgt := (rfl)
@[simp] theorem State.setRegs_fpFifo (s : State) (v : Tbl Word) : (s.setRegs v).fpFifo = s.fpFifo := (rfl)
@[simp] theorem State.setRegs_evtOnce (s : State) (v : Tbl Word) : (s.setRegs v).evtOnce = s.evtOnce := (rfl)
@[simp] theorem State.setRegs_cycles (s : State) (v : Tbl Word) : (s.setRegs v).cycles = s.cycles := (rfl)
@[simp] theorem State.setRegs_pcie (s : State) (v : Tbl Word) : (s.setRegs v).pcie = s.pcie := (rfl)
@[simp] theorem State.setRegs_sent (s : State) (v : Tbl Word) : (s.setRegs v).sent = s.sent := (rfl)
@[simp] theorem State.setRegs_bw (s : State) (v : Tbl Word) : (s.setRegs v).bw = s.bw := (rfl)
@[simp] theorem State.setRegs_pmcLatch (s : State) (v : Tbl Word) : (s.setRegs v).pmcLatch = s.pmcLatch := (rfl)
@[simp] theorem State.setRegs_cal (s : State) (v : Tbl Word) : (s.setRegs v).cal = s.cal := (rfl)
@[simp] theorem State.setRegs_cfg (s : State) (v : Tbl Word) : (s.setRegs v).cfg = s.cfg := (rfl)
@[simp] theorem State.setRegs_tap (s : State) (v : Tbl Word) : (s.setRegs v).tap = s.tap := (rfl)
@[simp] theorem State.setRegs_pins (s : State) (v : Tbl Word) : (s.setRegs v).pins = s.pins := (rfl)
@[simp] theorem State.setRegs_frames (s : State) (v : Tbl Word) : (s.setRegs v).frames = s.frames := (rfl)
@[simp] theorem State.setRegs_clusters (s : State) (v : Tbl Word) : (s.setRegs v).clusters = s.clusters := (rfl)
@[simp] theorem State.setRegs_ffs (s : State) (v : Tbl Word) : (s.setRegs v).ffs = s.ffs := (rfl)
@[simp] theorem State.setRegs_relStage (s : State) (v : Tbl Word) : (s.setRegs v).relStage = s.relStage := (rfl)
@[simp] theorem State.setRegs_frozen (s : State) (v : Tbl Word) : (s.setRegs v).frozen = s.frozen := (rfl)
@[simp] theorem State.setRegs_bramCfg (s : State) (v : Tbl Word) : (s.setRegs v).bramCfg = s.bramCfg := (rfl)
@[simp] theorem State.setRegs_bram (s : State) (v : Tbl Word) : (s.setRegs v).bram = s.bram := (rfl)
@[simp] theorem State.setRegs_bramPorts (s : State) (v : Tbl Word) : (s.setRegs v).bramPorts = s.bramPorts := (rfl)
@[simp] theorem State.setRegs_multCfg (s : State) (v : Tbl Word) : (s.setRegs v).multCfg = s.multCfg := (rfl)
@[simp] theorem State.setRegs_mults (s : State) (v : Tbl Word) : (s.setRegs v).mults = s.mults := (rfl)
@[simp] theorem State.setRegs_railKeep (s : State) (v : Tbl Word) : (s.setRegs v).railKeep = s.railKeep := (rfl)
@[simp] theorem State.setRegs_chk (s : State) (v : Tbl Word) : (s.setRegs v).chk = s.chk := (rfl)
@[simp] theorem State.setRegs_eccRaw (s : State) (v : Tbl Word) : (s.setRegs v).eccRaw = s.eccRaw := (rfl)
@[simp] theorem State.setRegs_eccScrub (s : State) (v : Tbl Word) : (s.setRegs v).eccScrub = s.eccScrub := (rfl)
@[simp] theorem State.setRegs_tags (s : State) (v : Tbl Word) : (s.setRegs v).tags = s.tags := (rfl)
@[simp] theorem State.setRegs_xUsed (s : State) (v : Tbl Word) : (s.setRegs v).xUsed = s.xUsed := (rfl)
@[simp] theorem State.setRegs_xWait (s : State) (v : Tbl Word) : (s.setRegs v).xWait = s.xWait := (rfl)
@[simp] theorem State.setRegs_xHeld (s : State) (v : Tbl Word) : (s.setRegs v).xHeld = s.xHeld := (rfl)
@[simp] theorem State.setRegs_routers (s : State) (v : Tbl Word) : (s.setRegs v).routers = s.routers := (rfl)
@[simp] theorem State.setRegs_portMode (s : State) (v : Tbl Word) : (s.setRegs v).portMode = s.portMode := (rfl)
@[simp] theorem State.setRegs_portTags (s : State) (v : Tbl Word) : (s.setRegs v).portTags = s.portTags := (rfl)
@[simp] theorem State.setRegs_portFifo (s : State) (v : Tbl Word) : (s.setRegs v).portFifo = s.portFifo := (rfl)
@[simp] theorem State.setRegs_dcache (s : State) (v : Tbl Word) : (s.setRegs v).dcache = s.dcache := (rfl)
@[simp] theorem State.setRegs_dir (s : State) (v : Tbl Word) : (s.setRegs v).dir = s.dir := (rfl)
@[simp] theorem State.setRegs_dieResets (s : State) (v : Tbl Word) : (s.setRegs v).dieResets = s.dieResets := (rfl)
@[simp] theorem State.setRegs_homeTxn (s : State) (v : Tbl Word) : (s.setRegs v).homeTxn = s.homeTxn := (rfl)
@[simp] theorem State.setRegs_cores (s : State) (v : Tbl Word) : (s.setRegs v).cores = s.cores := (rfl)
@[simp] theorem State.setRegs_tngDone (s : State) (v : Tbl Word) : (s.setRegs v).tngDone = s.tngDone := (rfl)
@[simp] theorem State.setRegs_fab (s : State) (v : Tbl Word) : (s.setRegs v).fab = s.fab := (rfl)
@[simp] theorem State.setRegs_net (s : State) (v : Tbl Word) : (s.setRegs v).net = s.net := (rfl)
@[simp] theorem State.setRegs_rtrShare (s : State) (v : Tbl Word) : (s.setRegs v).rtrShare = s.rtrShare := (rfl)
@[simp] theorem State.setRegs_dbg (s : State) (v : Tbl Word) : (s.setRegs v).dbg = s.dbg := (rfl)
@[simp] theorem State.setRegs_dcWait (s : State) (v : Tbl Word) : (s.setRegs v).dcWait = s.dcWait := (rfl)
@[simp] theorem State.setRegs_prcStep (s : State) (v : Tbl Word) : (s.setRegs v).prcStep = s.prcStep := (rfl)
@[simp] theorem State.setRegs_prcBlank (s : State) (v : Tbl Word) : (s.setRegs v).prcBlank = s.prcBlank := (rfl)
@[simp] theorem State.setRegs_prcHold (s : State) (v : Tbl Word) : (s.setRegs v).prcHold = s.prcHold := (rfl)
@[simp] theorem State.setRegs_capWait (s : State) (v : Tbl Word) : (s.setRegs v).capWait = s.capWait := (rfl)
@[simp] theorem State.setRegs_capture (s : State) (v : Tbl Word) : (s.setRegs v).capture = s.capture := (rfl)
@[simp] theorem State.setRegs_bramDef (s : State) (v : Tbl Word) : (s.setRegs v).bramDef = s.bramDef := (rfl)
@[simp] theorem State.setRegs_scrubs (s : State) (v : Tbl Word) : (s.setRegs v).scrubs = s.scrubs := (rfl)
@[simp] theorem State.setRegs_scrCopy (s : State) (v : Tbl Word) : (s.setRegs v).scrCopy = s.scrCopy := (rfl)
@[simp] theorem State.setRegs_releases (s : State) (v : Tbl Word) : (s.setRegs v).releases = s.releases := (rfl)
@[simp] theorem State.setRegs_dieStep (s : State) (v : Tbl Word) : (s.setRegs v).dieStep = s.dieStep := (rfl)
@[simp] theorem State.setRegs_clampDef (s : State) (v : Tbl Word) : (s.setRegs v).clampDef = s.clampDef := (rfl)
@[simp] theorem State.setRegs_clamps (s : State) (v : Tbl Word) : (s.setRegs v).clamps = s.clamps := (rfl)
@[simp] theorem State.setRegs_welds (s : State) (v : Tbl Word) : (s.setRegs v).welds = s.welds := (rfl)
@[simp] theorem State.setRegs_lanes (s : State) (v : Tbl Word) : (s.setRegs v).lanes = s.lanes := (rfl)
@[simp] theorem State.setRegs_macMode (s : State) (v : Tbl Word) : (s.setRegs v).macMode = s.macMode := (rfl)
@[simp] theorem State.setRegs_tod (s : State) (v : Tbl Word) : (s.setRegs v).tod = s.tod := (rfl)
@[simp] theorem State.setRegs_lkp (s : State) (v : Tbl Word) : (s.setRegs v).lkp = s.lkp := (rfl)
@[simp] theorem State.setRegs_queues (s : State) (v : Tbl Word) : (s.setRegs v).queues = s.queues := (rfl)
@[simp] theorem State.setRegs_ports (s : State) (v : Tbl Word) : (s.setRegs v).ports = s.ports := (rfl)
@[simp] theorem State.setRegs_pkt (s : State) (v : Tbl Word) : (s.setRegs v).pkt = s.pkt := (rfl)
@[simp] theorem State.setRegs_cxl (s : State) (v : Tbl Word) : (s.setRegs v).cxl = s.cxl := (rfl)
@[simp] theorem State.setRegs_ddr (s : State) (v : Tbl Word) : (s.setRegs v).ddr = s.ddr := (rfl)
@[simp] theorem State.setRegs_regions (s : State) (v : Tbl Word) : (s.setRegs v).regions = s.regions := (rfl)
@[simp] theorem State.setRegs_prots (s : State) (v : Tbl Word) : (s.setRegs v).prots = s.prots := (rfl)
@[simp] theorem State.setRegs_keyStore (s : State) (v : Tbl Word) : (s.setRegs v).keyStore = s.keyStore := (rfl)
@[simp] theorem State.setRegs_rings (s : State) (v : Tbl Word) : (s.setRegs v).rings = s.rings := (rfl)
@[simp] theorem State.setRegs_openMem (s : State) (v : Tbl Word) : (s.setRegs v).openMem = s.openMem := (rfl)
@[simp] theorem State.setRegs_dcRights (s : State) (v : Tbl Word) : (s.setRegs v).dcRights = s.dcRights := (rfl)
@[simp] theorem State.setRegs_clk (s : State) (v : Tbl Word) : (s.setRegs v).clk = s.clk := (rfl)
@[simp] theorem State.setRegs_units (s : State) (v : Tbl Word) : (s.setRegs v).units = s.units := (rfl)
@[simp] theorem State.setRegs_hearthHit (s : State) (v : Tbl Word) : (s.setRegs v).hearthHit = s.hearthHit := (rfl)
@[simp] theorem State.setMem_pending (s : State) (v : Mem) : (s.setMem v).pending = s.pending := (rfl)
@[simp] theorem State.setMem_regs (s : State) (v : Mem) : (s.setMem v).regs = s.regs := (rfl)
@[simp] theorem State.setMem_mem (s : State) (v : Mem) : (s.setMem v).mem = v := (rfl)
@[simp] theorem State.setMem_poison (s : State) (v : Mem) : (s.setMem v).poison = s.poison := (rfl)
@[simp] theorem State.setMem_fresh (s : State) (v : Mem) : (s.setMem v).fresh = s.fresh := (rfl)
@[simp] theorem State.setMem_answer (s : State) (v : Mem) : (s.setMem v).answer = s.answer := (rfl)
@[simp] theorem State.setMem_answerStatus (s : State) (v : Mem) : (s.setMem v).answerStatus = s.answerStatus := (rfl)
@[simp] theorem State.setMem_book (s : State) (v : Mem) : (s.setMem v).book = s.book := (rfl)
@[simp] theorem State.setMem_mgt (s : State) (v : Mem) : (s.setMem v).mgt = s.mgt := (rfl)
@[simp] theorem State.setMem_fpFifo (s : State) (v : Mem) : (s.setMem v).fpFifo = s.fpFifo := (rfl)
@[simp] theorem State.setMem_evtOnce (s : State) (v : Mem) : (s.setMem v).evtOnce = s.evtOnce := (rfl)
@[simp] theorem State.setMem_cycles (s : State) (v : Mem) : (s.setMem v).cycles = s.cycles := (rfl)
@[simp] theorem State.setMem_pcie (s : State) (v : Mem) : (s.setMem v).pcie = s.pcie := (rfl)
@[simp] theorem State.setMem_sent (s : State) (v : Mem) : (s.setMem v).sent = s.sent := (rfl)
@[simp] theorem State.setMem_bw (s : State) (v : Mem) : (s.setMem v).bw = s.bw := (rfl)
@[simp] theorem State.setMem_pmcLatch (s : State) (v : Mem) : (s.setMem v).pmcLatch = s.pmcLatch := (rfl)
@[simp] theorem State.setMem_cal (s : State) (v : Mem) : (s.setMem v).cal = s.cal := (rfl)
@[simp] theorem State.setMem_cfg (s : State) (v : Mem) : (s.setMem v).cfg = s.cfg := (rfl)
@[simp] theorem State.setMem_tap (s : State) (v : Mem) : (s.setMem v).tap = s.tap := (rfl)
@[simp] theorem State.setMem_pins (s : State) (v : Mem) : (s.setMem v).pins = s.pins := (rfl)
@[simp] theorem State.setMem_frames (s : State) (v : Mem) : (s.setMem v).frames = s.frames := (rfl)
@[simp] theorem State.setMem_clusters (s : State) (v : Mem) : (s.setMem v).clusters = s.clusters := (rfl)
@[simp] theorem State.setMem_ffs (s : State) (v : Mem) : (s.setMem v).ffs = s.ffs := (rfl)
@[simp] theorem State.setMem_relStage (s : State) (v : Mem) : (s.setMem v).relStage = s.relStage := (rfl)
@[simp] theorem State.setMem_frozen (s : State) (v : Mem) : (s.setMem v).frozen = s.frozen := (rfl)
@[simp] theorem State.setMem_bramCfg (s : State) (v : Mem) : (s.setMem v).bramCfg = s.bramCfg := (rfl)
@[simp] theorem State.setMem_bram (s : State) (v : Mem) : (s.setMem v).bram = s.bram := (rfl)
@[simp] theorem State.setMem_bramPorts (s : State) (v : Mem) : (s.setMem v).bramPorts = s.bramPorts := (rfl)
@[simp] theorem State.setMem_multCfg (s : State) (v : Mem) : (s.setMem v).multCfg = s.multCfg := (rfl)
@[simp] theorem State.setMem_mults (s : State) (v : Mem) : (s.setMem v).mults = s.mults := (rfl)
@[simp] theorem State.setMem_railKeep (s : State) (v : Mem) : (s.setMem v).railKeep = s.railKeep := (rfl)
@[simp] theorem State.setMem_chk (s : State) (v : Mem) : (s.setMem v).chk = s.chk := (rfl)
@[simp] theorem State.setMem_eccRaw (s : State) (v : Mem) : (s.setMem v).eccRaw = s.eccRaw := (rfl)
@[simp] theorem State.setMem_eccScrub (s : State) (v : Mem) : (s.setMem v).eccScrub = s.eccScrub := (rfl)
@[simp] theorem State.setMem_tags (s : State) (v : Mem) : (s.setMem v).tags = s.tags := (rfl)
@[simp] theorem State.setMem_xUsed (s : State) (v : Mem) : (s.setMem v).xUsed = s.xUsed := (rfl)
@[simp] theorem State.setMem_xWait (s : State) (v : Mem) : (s.setMem v).xWait = s.xWait := (rfl)
@[simp] theorem State.setMem_xHeld (s : State) (v : Mem) : (s.setMem v).xHeld = s.xHeld := (rfl)
@[simp] theorem State.setMem_routers (s : State) (v : Mem) : (s.setMem v).routers = s.routers := (rfl)
@[simp] theorem State.setMem_portMode (s : State) (v : Mem) : (s.setMem v).portMode = s.portMode := (rfl)
@[simp] theorem State.setMem_portTags (s : State) (v : Mem) : (s.setMem v).portTags = s.portTags := (rfl)
@[simp] theorem State.setMem_portFifo (s : State) (v : Mem) : (s.setMem v).portFifo = s.portFifo := (rfl)
@[simp] theorem State.setMem_dcache (s : State) (v : Mem) : (s.setMem v).dcache = s.dcache := (rfl)
@[simp] theorem State.setMem_dir (s : State) (v : Mem) : (s.setMem v).dir = s.dir := (rfl)
@[simp] theorem State.setMem_dieResets (s : State) (v : Mem) : (s.setMem v).dieResets = s.dieResets := (rfl)
@[simp] theorem State.setMem_homeTxn (s : State) (v : Mem) : (s.setMem v).homeTxn = s.homeTxn := (rfl)
@[simp] theorem State.setMem_cores (s : State) (v : Mem) : (s.setMem v).cores = s.cores := (rfl)
@[simp] theorem State.setMem_tngDone (s : State) (v : Mem) : (s.setMem v).tngDone = s.tngDone := (rfl)
@[simp] theorem State.setMem_fab (s : State) (v : Mem) : (s.setMem v).fab = s.fab := (rfl)
@[simp] theorem State.setMem_net (s : State) (v : Mem) : (s.setMem v).net = s.net := (rfl)
@[simp] theorem State.setMem_rtrShare (s : State) (v : Mem) : (s.setMem v).rtrShare = s.rtrShare := (rfl)
@[simp] theorem State.setMem_dbg (s : State) (v : Mem) : (s.setMem v).dbg = s.dbg := (rfl)
@[simp] theorem State.setMem_dcWait (s : State) (v : Mem) : (s.setMem v).dcWait = s.dcWait := (rfl)
@[simp] theorem State.setMem_prcStep (s : State) (v : Mem) : (s.setMem v).prcStep = s.prcStep := (rfl)
@[simp] theorem State.setMem_prcBlank (s : State) (v : Mem) : (s.setMem v).prcBlank = s.prcBlank := (rfl)
@[simp] theorem State.setMem_prcHold (s : State) (v : Mem) : (s.setMem v).prcHold = s.prcHold := (rfl)
@[simp] theorem State.setMem_capWait (s : State) (v : Mem) : (s.setMem v).capWait = s.capWait := (rfl)
@[simp] theorem State.setMem_capture (s : State) (v : Mem) : (s.setMem v).capture = s.capture := (rfl)
@[simp] theorem State.setMem_bramDef (s : State) (v : Mem) : (s.setMem v).bramDef = s.bramDef := (rfl)
@[simp] theorem State.setMem_scrubs (s : State) (v : Mem) : (s.setMem v).scrubs = s.scrubs := (rfl)
@[simp] theorem State.setMem_scrCopy (s : State) (v : Mem) : (s.setMem v).scrCopy = s.scrCopy := (rfl)
@[simp] theorem State.setMem_releases (s : State) (v : Mem) : (s.setMem v).releases = s.releases := (rfl)
@[simp] theorem State.setMem_dieStep (s : State) (v : Mem) : (s.setMem v).dieStep = s.dieStep := (rfl)
@[simp] theorem State.setMem_clampDef (s : State) (v : Mem) : (s.setMem v).clampDef = s.clampDef := (rfl)
@[simp] theorem State.setMem_clamps (s : State) (v : Mem) : (s.setMem v).clamps = s.clamps := (rfl)
@[simp] theorem State.setMem_welds (s : State) (v : Mem) : (s.setMem v).welds = s.welds := (rfl)
@[simp] theorem State.setMem_lanes (s : State) (v : Mem) : (s.setMem v).lanes = s.lanes := (rfl)
@[simp] theorem State.setMem_macMode (s : State) (v : Mem) : (s.setMem v).macMode = s.macMode := (rfl)
@[simp] theorem State.setMem_tod (s : State) (v : Mem) : (s.setMem v).tod = s.tod := (rfl)
@[simp] theorem State.setMem_lkp (s : State) (v : Mem) : (s.setMem v).lkp = s.lkp := (rfl)
@[simp] theorem State.setMem_queues (s : State) (v : Mem) : (s.setMem v).queues = s.queues := (rfl)
@[simp] theorem State.setMem_ports (s : State) (v : Mem) : (s.setMem v).ports = s.ports := (rfl)
@[simp] theorem State.setMem_pkt (s : State) (v : Mem) : (s.setMem v).pkt = s.pkt := (rfl)
@[simp] theorem State.setMem_cxl (s : State) (v : Mem) : (s.setMem v).cxl = s.cxl := (rfl)
@[simp] theorem State.setMem_ddr (s : State) (v : Mem) : (s.setMem v).ddr = s.ddr := (rfl)
@[simp] theorem State.setMem_regions (s : State) (v : Mem) : (s.setMem v).regions = s.regions := (rfl)
@[simp] theorem State.setMem_prots (s : State) (v : Mem) : (s.setMem v).prots = s.prots := (rfl)
@[simp] theorem State.setMem_keyStore (s : State) (v : Mem) : (s.setMem v).keyStore = s.keyStore := (rfl)
@[simp] theorem State.setMem_rings (s : State) (v : Mem) : (s.setMem v).rings = s.rings := (rfl)
@[simp] theorem State.setMem_openMem (s : State) (v : Mem) : (s.setMem v).openMem = s.openMem := (rfl)
@[simp] theorem State.setMem_dcRights (s : State) (v : Mem) : (s.setMem v).dcRights = s.dcRights := (rfl)
@[simp] theorem State.setMem_clk (s : State) (v : Mem) : (s.setMem v).clk = s.clk := (rfl)
@[simp] theorem State.setMem_units (s : State) (v : Mem) : (s.setMem v).units = s.units := (rfl)
@[simp] theorem State.setMem_hearthHit (s : State) (v : Mem) : (s.setMem v).hearthHit = s.hearthHit := (rfl)
@[simp] theorem State.setPoison_pending (s : State) (v : List Nat) : (s.setPoison v).pending = s.pending := (rfl)
@[simp] theorem State.setPoison_regs (s : State) (v : List Nat) : (s.setPoison v).regs = s.regs := (rfl)
@[simp] theorem State.setPoison_mem (s : State) (v : List Nat) : (s.setPoison v).mem = s.mem := (rfl)
@[simp] theorem State.setPoison_poison (s : State) (v : List Nat) : (s.setPoison v).poison = v := (rfl)
@[simp] theorem State.setPoison_fresh (s : State) (v : List Nat) : (s.setPoison v).fresh = s.fresh := (rfl)
@[simp] theorem State.setPoison_answer (s : State) (v : List Nat) : (s.setPoison v).answer = s.answer := (rfl)
@[simp] theorem State.setPoison_answerStatus (s : State) (v : List Nat) : (s.setPoison v).answerStatus = s.answerStatus := (rfl)
@[simp] theorem State.setPoison_book (s : State) (v : List Nat) : (s.setPoison v).book = s.book := (rfl)
@[simp] theorem State.setPoison_mgt (s : State) (v : List Nat) : (s.setPoison v).mgt = s.mgt := (rfl)
@[simp] theorem State.setPoison_fpFifo (s : State) (v : List Nat) : (s.setPoison v).fpFifo = s.fpFifo := (rfl)
@[simp] theorem State.setPoison_evtOnce (s : State) (v : List Nat) : (s.setPoison v).evtOnce = s.evtOnce := (rfl)
@[simp] theorem State.setPoison_cycles (s : State) (v : List Nat) : (s.setPoison v).cycles = s.cycles := (rfl)
@[simp] theorem State.setPoison_pcie (s : State) (v : List Nat) : (s.setPoison v).pcie = s.pcie := (rfl)
@[simp] theorem State.setPoison_sent (s : State) (v : List Nat) : (s.setPoison v).sent = s.sent := (rfl)
@[simp] theorem State.setPoison_bw (s : State) (v : List Nat) : (s.setPoison v).bw = s.bw := (rfl)
@[simp] theorem State.setPoison_pmcLatch (s : State) (v : List Nat) : (s.setPoison v).pmcLatch = s.pmcLatch := (rfl)
@[simp] theorem State.setPoison_cal (s : State) (v : List Nat) : (s.setPoison v).cal = s.cal := (rfl)
@[simp] theorem State.setPoison_cfg (s : State) (v : List Nat) : (s.setPoison v).cfg = s.cfg := (rfl)
@[simp] theorem State.setPoison_tap (s : State) (v : List Nat) : (s.setPoison v).tap = s.tap := (rfl)
@[simp] theorem State.setPoison_pins (s : State) (v : List Nat) : (s.setPoison v).pins = s.pins := (rfl)
@[simp] theorem State.setPoison_frames (s : State) (v : List Nat) : (s.setPoison v).frames = s.frames := (rfl)
@[simp] theorem State.setPoison_clusters (s : State) (v : List Nat) : (s.setPoison v).clusters = s.clusters := (rfl)
@[simp] theorem State.setPoison_ffs (s : State) (v : List Nat) : (s.setPoison v).ffs = s.ffs := (rfl)
@[simp] theorem State.setPoison_relStage (s : State) (v : List Nat) : (s.setPoison v).relStage = s.relStage := (rfl)
@[simp] theorem State.setPoison_frozen (s : State) (v : List Nat) : (s.setPoison v).frozen = s.frozen := (rfl)
@[simp] theorem State.setPoison_bramCfg (s : State) (v : List Nat) : (s.setPoison v).bramCfg = s.bramCfg := (rfl)
@[simp] theorem State.setPoison_bram (s : State) (v : List Nat) : (s.setPoison v).bram = s.bram := (rfl)
@[simp] theorem State.setPoison_bramPorts (s : State) (v : List Nat) : (s.setPoison v).bramPorts = s.bramPorts := (rfl)
@[simp] theorem State.setPoison_multCfg (s : State) (v : List Nat) : (s.setPoison v).multCfg = s.multCfg := (rfl)
@[simp] theorem State.setPoison_mults (s : State) (v : List Nat) : (s.setPoison v).mults = s.mults := (rfl)
@[simp] theorem State.setPoison_railKeep (s : State) (v : List Nat) : (s.setPoison v).railKeep = s.railKeep := (rfl)
@[simp] theorem State.setPoison_chk (s : State) (v : List Nat) : (s.setPoison v).chk = s.chk := (rfl)
@[simp] theorem State.setPoison_eccRaw (s : State) (v : List Nat) : (s.setPoison v).eccRaw = s.eccRaw := (rfl)
@[simp] theorem State.setPoison_eccScrub (s : State) (v : List Nat) : (s.setPoison v).eccScrub = s.eccScrub := (rfl)
@[simp] theorem State.setPoison_tags (s : State) (v : List Nat) : (s.setPoison v).tags = s.tags := (rfl)
@[simp] theorem State.setPoison_xUsed (s : State) (v : List Nat) : (s.setPoison v).xUsed = s.xUsed := (rfl)
@[simp] theorem State.setPoison_xWait (s : State) (v : List Nat) : (s.setPoison v).xWait = s.xWait := (rfl)
@[simp] theorem State.setPoison_xHeld (s : State) (v : List Nat) : (s.setPoison v).xHeld = s.xHeld := (rfl)
@[simp] theorem State.setPoison_routers (s : State) (v : List Nat) : (s.setPoison v).routers = s.routers := (rfl)
@[simp] theorem State.setPoison_portMode (s : State) (v : List Nat) : (s.setPoison v).portMode = s.portMode := (rfl)
@[simp] theorem State.setPoison_portTags (s : State) (v : List Nat) : (s.setPoison v).portTags = s.portTags := (rfl)
@[simp] theorem State.setPoison_portFifo (s : State) (v : List Nat) : (s.setPoison v).portFifo = s.portFifo := (rfl)
@[simp] theorem State.setPoison_dcache (s : State) (v : List Nat) : (s.setPoison v).dcache = s.dcache := (rfl)
@[simp] theorem State.setPoison_dir (s : State) (v : List Nat) : (s.setPoison v).dir = s.dir := (rfl)
@[simp] theorem State.setPoison_dieResets (s : State) (v : List Nat) : (s.setPoison v).dieResets = s.dieResets := (rfl)
@[simp] theorem State.setPoison_homeTxn (s : State) (v : List Nat) : (s.setPoison v).homeTxn = s.homeTxn := (rfl)
@[simp] theorem State.setPoison_cores (s : State) (v : List Nat) : (s.setPoison v).cores = s.cores := (rfl)
@[simp] theorem State.setPoison_tngDone (s : State) (v : List Nat) : (s.setPoison v).tngDone = s.tngDone := (rfl)
@[simp] theorem State.setPoison_fab (s : State) (v : List Nat) : (s.setPoison v).fab = s.fab := (rfl)
@[simp] theorem State.setPoison_net (s : State) (v : List Nat) : (s.setPoison v).net = s.net := (rfl)
@[simp] theorem State.setPoison_rtrShare (s : State) (v : List Nat) : (s.setPoison v).rtrShare = s.rtrShare := (rfl)
@[simp] theorem State.setPoison_dbg (s : State) (v : List Nat) : (s.setPoison v).dbg = s.dbg := (rfl)
@[simp] theorem State.setPoison_dcWait (s : State) (v : List Nat) : (s.setPoison v).dcWait = s.dcWait := (rfl)
@[simp] theorem State.setPoison_prcStep (s : State) (v : List Nat) : (s.setPoison v).prcStep = s.prcStep := (rfl)
@[simp] theorem State.setPoison_prcBlank (s : State) (v : List Nat) : (s.setPoison v).prcBlank = s.prcBlank := (rfl)
@[simp] theorem State.setPoison_prcHold (s : State) (v : List Nat) : (s.setPoison v).prcHold = s.prcHold := (rfl)
@[simp] theorem State.setPoison_capWait (s : State) (v : List Nat) : (s.setPoison v).capWait = s.capWait := (rfl)
@[simp] theorem State.setPoison_capture (s : State) (v : List Nat) : (s.setPoison v).capture = s.capture := (rfl)
@[simp] theorem State.setPoison_bramDef (s : State) (v : List Nat) : (s.setPoison v).bramDef = s.bramDef := (rfl)
@[simp] theorem State.setPoison_scrubs (s : State) (v : List Nat) : (s.setPoison v).scrubs = s.scrubs := (rfl)
@[simp] theorem State.setPoison_scrCopy (s : State) (v : List Nat) : (s.setPoison v).scrCopy = s.scrCopy := (rfl)
@[simp] theorem State.setPoison_releases (s : State) (v : List Nat) : (s.setPoison v).releases = s.releases := (rfl)
@[simp] theorem State.setPoison_dieStep (s : State) (v : List Nat) : (s.setPoison v).dieStep = s.dieStep := (rfl)
@[simp] theorem State.setPoison_clampDef (s : State) (v : List Nat) : (s.setPoison v).clampDef = s.clampDef := (rfl)
@[simp] theorem State.setPoison_clamps (s : State) (v : List Nat) : (s.setPoison v).clamps = s.clamps := (rfl)
@[simp] theorem State.setPoison_welds (s : State) (v : List Nat) : (s.setPoison v).welds = s.welds := (rfl)
@[simp] theorem State.setPoison_lanes (s : State) (v : List Nat) : (s.setPoison v).lanes = s.lanes := (rfl)
@[simp] theorem State.setPoison_macMode (s : State) (v : List Nat) : (s.setPoison v).macMode = s.macMode := (rfl)
@[simp] theorem State.setPoison_tod (s : State) (v : List Nat) : (s.setPoison v).tod = s.tod := (rfl)
@[simp] theorem State.setPoison_lkp (s : State) (v : List Nat) : (s.setPoison v).lkp = s.lkp := (rfl)
@[simp] theorem State.setPoison_queues (s : State) (v : List Nat) : (s.setPoison v).queues = s.queues := (rfl)
@[simp] theorem State.setPoison_ports (s : State) (v : List Nat) : (s.setPoison v).ports = s.ports := (rfl)
@[simp] theorem State.setPoison_pkt (s : State) (v : List Nat) : (s.setPoison v).pkt = s.pkt := (rfl)
@[simp] theorem State.setPoison_cxl (s : State) (v : List Nat) : (s.setPoison v).cxl = s.cxl := (rfl)
@[simp] theorem State.setPoison_ddr (s : State) (v : List Nat) : (s.setPoison v).ddr = s.ddr := (rfl)
@[simp] theorem State.setPoison_regions (s : State) (v : List Nat) : (s.setPoison v).regions = s.regions := (rfl)
@[simp] theorem State.setPoison_prots (s : State) (v : List Nat) : (s.setPoison v).prots = s.prots := (rfl)
@[simp] theorem State.setPoison_keyStore (s : State) (v : List Nat) : (s.setPoison v).keyStore = s.keyStore := (rfl)
@[simp] theorem State.setPoison_rings (s : State) (v : List Nat) : (s.setPoison v).rings = s.rings := (rfl)
@[simp] theorem State.setPoison_openMem (s : State) (v : List Nat) : (s.setPoison v).openMem = s.openMem := (rfl)
@[simp] theorem State.setPoison_dcRights (s : State) (v : List Nat) : (s.setPoison v).dcRights = s.dcRights := (rfl)
@[simp] theorem State.setPoison_clk (s : State) (v : List Nat) : (s.setPoison v).clk = s.clk := (rfl)
@[simp] theorem State.setPoison_units (s : State) (v : List Nat) : (s.setPoison v).units = s.units := (rfl)
@[simp] theorem State.setPoison_hearthHit (s : State) (v : List Nat) : (s.setPoison v).hearthHit = s.hearthHit := (rfl)
@[simp] theorem State.setFresh_pending (s : State) (v : Nat) : (s.setFresh v).pending = s.pending := (rfl)
@[simp] theorem State.setFresh_regs (s : State) (v : Nat) : (s.setFresh v).regs = s.regs := (rfl)
@[simp] theorem State.setFresh_mem (s : State) (v : Nat) : (s.setFresh v).mem = s.mem := (rfl)
@[simp] theorem State.setFresh_poison (s : State) (v : Nat) : (s.setFresh v).poison = s.poison := (rfl)
@[simp] theorem State.setFresh_fresh (s : State) (v : Nat) : (s.setFresh v).fresh = v := (rfl)
@[simp] theorem State.setFresh_answer (s : State) (v : Nat) : (s.setFresh v).answer = s.answer := (rfl)
@[simp] theorem State.setFresh_answerStatus (s : State) (v : Nat) : (s.setFresh v).answerStatus = s.answerStatus := (rfl)
@[simp] theorem State.setFresh_book (s : State) (v : Nat) : (s.setFresh v).book = s.book := (rfl)
@[simp] theorem State.setFresh_mgt (s : State) (v : Nat) : (s.setFresh v).mgt = s.mgt := (rfl)
@[simp] theorem State.setFresh_fpFifo (s : State) (v : Nat) : (s.setFresh v).fpFifo = s.fpFifo := (rfl)
@[simp] theorem State.setFresh_evtOnce (s : State) (v : Nat) : (s.setFresh v).evtOnce = s.evtOnce := (rfl)
@[simp] theorem State.setFresh_cycles (s : State) (v : Nat) : (s.setFresh v).cycles = s.cycles := (rfl)
@[simp] theorem State.setFresh_pcie (s : State) (v : Nat) : (s.setFresh v).pcie = s.pcie := (rfl)
@[simp] theorem State.setFresh_sent (s : State) (v : Nat) : (s.setFresh v).sent = s.sent := (rfl)
@[simp] theorem State.setFresh_bw (s : State) (v : Nat) : (s.setFresh v).bw = s.bw := (rfl)
@[simp] theorem State.setFresh_pmcLatch (s : State) (v : Nat) : (s.setFresh v).pmcLatch = s.pmcLatch := (rfl)
@[simp] theorem State.setFresh_cal (s : State) (v : Nat) : (s.setFresh v).cal = s.cal := (rfl)
@[simp] theorem State.setFresh_cfg (s : State) (v : Nat) : (s.setFresh v).cfg = s.cfg := (rfl)
@[simp] theorem State.setFresh_tap (s : State) (v : Nat) : (s.setFresh v).tap = s.tap := (rfl)
@[simp] theorem State.setFresh_pins (s : State) (v : Nat) : (s.setFresh v).pins = s.pins := (rfl)
@[simp] theorem State.setFresh_frames (s : State) (v : Nat) : (s.setFresh v).frames = s.frames := (rfl)
@[simp] theorem State.setFresh_clusters (s : State) (v : Nat) : (s.setFresh v).clusters = s.clusters := (rfl)
@[simp] theorem State.setFresh_ffs (s : State) (v : Nat) : (s.setFresh v).ffs = s.ffs := (rfl)
@[simp] theorem State.setFresh_relStage (s : State) (v : Nat) : (s.setFresh v).relStage = s.relStage := (rfl)
@[simp] theorem State.setFresh_frozen (s : State) (v : Nat) : (s.setFresh v).frozen = s.frozen := (rfl)
@[simp] theorem State.setFresh_bramCfg (s : State) (v : Nat) : (s.setFresh v).bramCfg = s.bramCfg := (rfl)
@[simp] theorem State.setFresh_bram (s : State) (v : Nat) : (s.setFresh v).bram = s.bram := (rfl)
@[simp] theorem State.setFresh_bramPorts (s : State) (v : Nat) : (s.setFresh v).bramPorts = s.bramPorts := (rfl)
@[simp] theorem State.setFresh_multCfg (s : State) (v : Nat) : (s.setFresh v).multCfg = s.multCfg := (rfl)
@[simp] theorem State.setFresh_mults (s : State) (v : Nat) : (s.setFresh v).mults = s.mults := (rfl)
@[simp] theorem State.setFresh_railKeep (s : State) (v : Nat) : (s.setFresh v).railKeep = s.railKeep := (rfl)
@[simp] theorem State.setFresh_chk (s : State) (v : Nat) : (s.setFresh v).chk = s.chk := (rfl)
@[simp] theorem State.setFresh_eccRaw (s : State) (v : Nat) : (s.setFresh v).eccRaw = s.eccRaw := (rfl)
@[simp] theorem State.setFresh_eccScrub (s : State) (v : Nat) : (s.setFresh v).eccScrub = s.eccScrub := (rfl)
@[simp] theorem State.setFresh_tags (s : State) (v : Nat) : (s.setFresh v).tags = s.tags := (rfl)
@[simp] theorem State.setFresh_xUsed (s : State) (v : Nat) : (s.setFresh v).xUsed = s.xUsed := (rfl)
@[simp] theorem State.setFresh_xWait (s : State) (v : Nat) : (s.setFresh v).xWait = s.xWait := (rfl)
@[simp] theorem State.setFresh_xHeld (s : State) (v : Nat) : (s.setFresh v).xHeld = s.xHeld := (rfl)
@[simp] theorem State.setFresh_routers (s : State) (v : Nat) : (s.setFresh v).routers = s.routers := (rfl)
@[simp] theorem State.setFresh_portMode (s : State) (v : Nat) : (s.setFresh v).portMode = s.portMode := (rfl)
@[simp] theorem State.setFresh_portTags (s : State) (v : Nat) : (s.setFresh v).portTags = s.portTags := (rfl)
@[simp] theorem State.setFresh_portFifo (s : State) (v : Nat) : (s.setFresh v).portFifo = s.portFifo := (rfl)
@[simp] theorem State.setFresh_dcache (s : State) (v : Nat) : (s.setFresh v).dcache = s.dcache := (rfl)
@[simp] theorem State.setFresh_dir (s : State) (v : Nat) : (s.setFresh v).dir = s.dir := (rfl)
@[simp] theorem State.setFresh_dieResets (s : State) (v : Nat) : (s.setFresh v).dieResets = s.dieResets := (rfl)
@[simp] theorem State.setFresh_homeTxn (s : State) (v : Nat) : (s.setFresh v).homeTxn = s.homeTxn := (rfl)
@[simp] theorem State.setFresh_cores (s : State) (v : Nat) : (s.setFresh v).cores = s.cores := (rfl)
@[simp] theorem State.setFresh_tngDone (s : State) (v : Nat) : (s.setFresh v).tngDone = s.tngDone := (rfl)
@[simp] theorem State.setFresh_fab (s : State) (v : Nat) : (s.setFresh v).fab = s.fab := (rfl)
@[simp] theorem State.setFresh_net (s : State) (v : Nat) : (s.setFresh v).net = s.net := (rfl)
@[simp] theorem State.setFresh_rtrShare (s : State) (v : Nat) : (s.setFresh v).rtrShare = s.rtrShare := (rfl)
@[simp] theorem State.setFresh_dbg (s : State) (v : Nat) : (s.setFresh v).dbg = s.dbg := (rfl)
@[simp] theorem State.setFresh_dcWait (s : State) (v : Nat) : (s.setFresh v).dcWait = s.dcWait := (rfl)
@[simp] theorem State.setFresh_prcStep (s : State) (v : Nat) : (s.setFresh v).prcStep = s.prcStep := (rfl)
@[simp] theorem State.setFresh_prcBlank (s : State) (v : Nat) : (s.setFresh v).prcBlank = s.prcBlank := (rfl)
@[simp] theorem State.setFresh_prcHold (s : State) (v : Nat) : (s.setFresh v).prcHold = s.prcHold := (rfl)
@[simp] theorem State.setFresh_capWait (s : State) (v : Nat) : (s.setFresh v).capWait = s.capWait := (rfl)
@[simp] theorem State.setFresh_capture (s : State) (v : Nat) : (s.setFresh v).capture = s.capture := (rfl)
@[simp] theorem State.setFresh_bramDef (s : State) (v : Nat) : (s.setFresh v).bramDef = s.bramDef := (rfl)
@[simp] theorem State.setFresh_scrubs (s : State) (v : Nat) : (s.setFresh v).scrubs = s.scrubs := (rfl)
@[simp] theorem State.setFresh_scrCopy (s : State) (v : Nat) : (s.setFresh v).scrCopy = s.scrCopy := (rfl)
@[simp] theorem State.setFresh_releases (s : State) (v : Nat) : (s.setFresh v).releases = s.releases := (rfl)
@[simp] theorem State.setFresh_dieStep (s : State) (v : Nat) : (s.setFresh v).dieStep = s.dieStep := (rfl)
@[simp] theorem State.setFresh_clampDef (s : State) (v : Nat) : (s.setFresh v).clampDef = s.clampDef := (rfl)
@[simp] theorem State.setFresh_clamps (s : State) (v : Nat) : (s.setFresh v).clamps = s.clamps := (rfl)
@[simp] theorem State.setFresh_welds (s : State) (v : Nat) : (s.setFresh v).welds = s.welds := (rfl)
@[simp] theorem State.setFresh_lanes (s : State) (v : Nat) : (s.setFresh v).lanes = s.lanes := (rfl)
@[simp] theorem State.setFresh_macMode (s : State) (v : Nat) : (s.setFresh v).macMode = s.macMode := (rfl)
@[simp] theorem State.setFresh_tod (s : State) (v : Nat) : (s.setFresh v).tod = s.tod := (rfl)
@[simp] theorem State.setFresh_lkp (s : State) (v : Nat) : (s.setFresh v).lkp = s.lkp := (rfl)
@[simp] theorem State.setFresh_queues (s : State) (v : Nat) : (s.setFresh v).queues = s.queues := (rfl)
@[simp] theorem State.setFresh_ports (s : State) (v : Nat) : (s.setFresh v).ports = s.ports := (rfl)
@[simp] theorem State.setFresh_pkt (s : State) (v : Nat) : (s.setFresh v).pkt = s.pkt := (rfl)
@[simp] theorem State.setFresh_cxl (s : State) (v : Nat) : (s.setFresh v).cxl = s.cxl := (rfl)
@[simp] theorem State.setFresh_ddr (s : State) (v : Nat) : (s.setFresh v).ddr = s.ddr := (rfl)
@[simp] theorem State.setFresh_regions (s : State) (v : Nat) : (s.setFresh v).regions = s.regions := (rfl)
@[simp] theorem State.setFresh_prots (s : State) (v : Nat) : (s.setFresh v).prots = s.prots := (rfl)
@[simp] theorem State.setFresh_keyStore (s : State) (v : Nat) : (s.setFresh v).keyStore = s.keyStore := (rfl)
@[simp] theorem State.setFresh_rings (s : State) (v : Nat) : (s.setFresh v).rings = s.rings := (rfl)
@[simp] theorem State.setFresh_openMem (s : State) (v : Nat) : (s.setFresh v).openMem = s.openMem := (rfl)
@[simp] theorem State.setFresh_dcRights (s : State) (v : Nat) : (s.setFresh v).dcRights = s.dcRights := (rfl)
@[simp] theorem State.setFresh_clk (s : State) (v : Nat) : (s.setFresh v).clk = s.clk := (rfl)
@[simp] theorem State.setFresh_units (s : State) (v : Nat) : (s.setFresh v).units = s.units := (rfl)
@[simp] theorem State.setFresh_hearthHit (s : State) (v : Nat) : (s.setFresh v).hearthHit = s.hearthHit := (rfl)
@[simp] theorem State.setAnswer_pending (s : State) (v : Word) : (s.setAnswer v).pending = s.pending := (rfl)
@[simp] theorem State.setAnswer_regs (s : State) (v : Word) : (s.setAnswer v).regs = s.regs := (rfl)
@[simp] theorem State.setAnswer_mem (s : State) (v : Word) : (s.setAnswer v).mem = s.mem := (rfl)
@[simp] theorem State.setAnswer_poison (s : State) (v : Word) : (s.setAnswer v).poison = s.poison := (rfl)
@[simp] theorem State.setAnswer_fresh (s : State) (v : Word) : (s.setAnswer v).fresh = s.fresh := (rfl)
@[simp] theorem State.setAnswer_answer (s : State) (v : Word) : (s.setAnswer v).answer = v := (rfl)
@[simp] theorem State.setAnswer_answerStatus (s : State) (v : Word) : (s.setAnswer v).answerStatus = s.answerStatus := (rfl)
@[simp] theorem State.setAnswer_book (s : State) (v : Word) : (s.setAnswer v).book = s.book := (rfl)
@[simp] theorem State.setAnswer_mgt (s : State) (v : Word) : (s.setAnswer v).mgt = s.mgt := (rfl)
@[simp] theorem State.setAnswer_fpFifo (s : State) (v : Word) : (s.setAnswer v).fpFifo = s.fpFifo := (rfl)
@[simp] theorem State.setAnswer_evtOnce (s : State) (v : Word) : (s.setAnswer v).evtOnce = s.evtOnce := (rfl)
@[simp] theorem State.setAnswer_cycles (s : State) (v : Word) : (s.setAnswer v).cycles = s.cycles := (rfl)
@[simp] theorem State.setAnswer_pcie (s : State) (v : Word) : (s.setAnswer v).pcie = s.pcie := (rfl)
@[simp] theorem State.setAnswer_sent (s : State) (v : Word) : (s.setAnswer v).sent = s.sent := (rfl)
@[simp] theorem State.setAnswer_bw (s : State) (v : Word) : (s.setAnswer v).bw = s.bw := (rfl)
@[simp] theorem State.setAnswer_pmcLatch (s : State) (v : Word) : (s.setAnswer v).pmcLatch = s.pmcLatch := (rfl)
@[simp] theorem State.setAnswer_cal (s : State) (v : Word) : (s.setAnswer v).cal = s.cal := (rfl)
@[simp] theorem State.setAnswer_cfg (s : State) (v : Word) : (s.setAnswer v).cfg = s.cfg := (rfl)
@[simp] theorem State.setAnswer_tap (s : State) (v : Word) : (s.setAnswer v).tap = s.tap := (rfl)
@[simp] theorem State.setAnswer_pins (s : State) (v : Word) : (s.setAnswer v).pins = s.pins := (rfl)
@[simp] theorem State.setAnswer_frames (s : State) (v : Word) : (s.setAnswer v).frames = s.frames := (rfl)
@[simp] theorem State.setAnswer_clusters (s : State) (v : Word) : (s.setAnswer v).clusters = s.clusters := (rfl)
@[simp] theorem State.setAnswer_ffs (s : State) (v : Word) : (s.setAnswer v).ffs = s.ffs := (rfl)
@[simp] theorem State.setAnswer_relStage (s : State) (v : Word) : (s.setAnswer v).relStage = s.relStage := (rfl)
@[simp] theorem State.setAnswer_frozen (s : State) (v : Word) : (s.setAnswer v).frozen = s.frozen := (rfl)
@[simp] theorem State.setAnswer_bramCfg (s : State) (v : Word) : (s.setAnswer v).bramCfg = s.bramCfg := (rfl)
@[simp] theorem State.setAnswer_bram (s : State) (v : Word) : (s.setAnswer v).bram = s.bram := (rfl)
@[simp] theorem State.setAnswer_bramPorts (s : State) (v : Word) : (s.setAnswer v).bramPorts = s.bramPorts := (rfl)
@[simp] theorem State.setAnswer_multCfg (s : State) (v : Word) : (s.setAnswer v).multCfg = s.multCfg := (rfl)
@[simp] theorem State.setAnswer_mults (s : State) (v : Word) : (s.setAnswer v).mults = s.mults := (rfl)
@[simp] theorem State.setAnswer_railKeep (s : State) (v : Word) : (s.setAnswer v).railKeep = s.railKeep := (rfl)
@[simp] theorem State.setAnswer_chk (s : State) (v : Word) : (s.setAnswer v).chk = s.chk := (rfl)
@[simp] theorem State.setAnswer_eccRaw (s : State) (v : Word) : (s.setAnswer v).eccRaw = s.eccRaw := (rfl)
@[simp] theorem State.setAnswer_eccScrub (s : State) (v : Word) : (s.setAnswer v).eccScrub = s.eccScrub := (rfl)
@[simp] theorem State.setAnswer_tags (s : State) (v : Word) : (s.setAnswer v).tags = s.tags := (rfl)
@[simp] theorem State.setAnswer_xUsed (s : State) (v : Word) : (s.setAnswer v).xUsed = s.xUsed := (rfl)
@[simp] theorem State.setAnswer_xWait (s : State) (v : Word) : (s.setAnswer v).xWait = s.xWait := (rfl)
@[simp] theorem State.setAnswer_xHeld (s : State) (v : Word) : (s.setAnswer v).xHeld = s.xHeld := (rfl)
@[simp] theorem State.setAnswer_routers (s : State) (v : Word) : (s.setAnswer v).routers = s.routers := (rfl)
@[simp] theorem State.setAnswer_portMode (s : State) (v : Word) : (s.setAnswer v).portMode = s.portMode := (rfl)
@[simp] theorem State.setAnswer_portTags (s : State) (v : Word) : (s.setAnswer v).portTags = s.portTags := (rfl)
@[simp] theorem State.setAnswer_portFifo (s : State) (v : Word) : (s.setAnswer v).portFifo = s.portFifo := (rfl)
@[simp] theorem State.setAnswer_dcache (s : State) (v : Word) : (s.setAnswer v).dcache = s.dcache := (rfl)
@[simp] theorem State.setAnswer_dir (s : State) (v : Word) : (s.setAnswer v).dir = s.dir := (rfl)
@[simp] theorem State.setAnswer_dieResets (s : State) (v : Word) : (s.setAnswer v).dieResets = s.dieResets := (rfl)
@[simp] theorem State.setAnswer_homeTxn (s : State) (v : Word) : (s.setAnswer v).homeTxn = s.homeTxn := (rfl)
@[simp] theorem State.setAnswer_cores (s : State) (v : Word) : (s.setAnswer v).cores = s.cores := (rfl)
@[simp] theorem State.setAnswer_tngDone (s : State) (v : Word) : (s.setAnswer v).tngDone = s.tngDone := (rfl)
@[simp] theorem State.setAnswer_fab (s : State) (v : Word) : (s.setAnswer v).fab = s.fab := (rfl)
@[simp] theorem State.setAnswer_net (s : State) (v : Word) : (s.setAnswer v).net = s.net := (rfl)
@[simp] theorem State.setAnswer_rtrShare (s : State) (v : Word) : (s.setAnswer v).rtrShare = s.rtrShare := (rfl)
@[simp] theorem State.setAnswer_dbg (s : State) (v : Word) : (s.setAnswer v).dbg = s.dbg := (rfl)
@[simp] theorem State.setAnswer_dcWait (s : State) (v : Word) : (s.setAnswer v).dcWait = s.dcWait := (rfl)
@[simp] theorem State.setAnswer_prcStep (s : State) (v : Word) : (s.setAnswer v).prcStep = s.prcStep := (rfl)
@[simp] theorem State.setAnswer_prcBlank (s : State) (v : Word) : (s.setAnswer v).prcBlank = s.prcBlank := (rfl)
@[simp] theorem State.setAnswer_prcHold (s : State) (v : Word) : (s.setAnswer v).prcHold = s.prcHold := (rfl)
@[simp] theorem State.setAnswer_capWait (s : State) (v : Word) : (s.setAnswer v).capWait = s.capWait := (rfl)
@[simp] theorem State.setAnswer_capture (s : State) (v : Word) : (s.setAnswer v).capture = s.capture := (rfl)
@[simp] theorem State.setAnswer_bramDef (s : State) (v : Word) : (s.setAnswer v).bramDef = s.bramDef := (rfl)
@[simp] theorem State.setAnswer_scrubs (s : State) (v : Word) : (s.setAnswer v).scrubs = s.scrubs := (rfl)
@[simp] theorem State.setAnswer_scrCopy (s : State) (v : Word) : (s.setAnswer v).scrCopy = s.scrCopy := (rfl)
@[simp] theorem State.setAnswer_releases (s : State) (v : Word) : (s.setAnswer v).releases = s.releases := (rfl)
@[simp] theorem State.setAnswer_dieStep (s : State) (v : Word) : (s.setAnswer v).dieStep = s.dieStep := (rfl)
@[simp] theorem State.setAnswer_clampDef (s : State) (v : Word) : (s.setAnswer v).clampDef = s.clampDef := (rfl)
@[simp] theorem State.setAnswer_clamps (s : State) (v : Word) : (s.setAnswer v).clamps = s.clamps := (rfl)
@[simp] theorem State.setAnswer_welds (s : State) (v : Word) : (s.setAnswer v).welds = s.welds := (rfl)
@[simp] theorem State.setAnswer_lanes (s : State) (v : Word) : (s.setAnswer v).lanes = s.lanes := (rfl)
@[simp] theorem State.setAnswer_macMode (s : State) (v : Word) : (s.setAnswer v).macMode = s.macMode := (rfl)
@[simp] theorem State.setAnswer_tod (s : State) (v : Word) : (s.setAnswer v).tod = s.tod := (rfl)
@[simp] theorem State.setAnswer_lkp (s : State) (v : Word) : (s.setAnswer v).lkp = s.lkp := (rfl)
@[simp] theorem State.setAnswer_queues (s : State) (v : Word) : (s.setAnswer v).queues = s.queues := (rfl)
@[simp] theorem State.setAnswer_ports (s : State) (v : Word) : (s.setAnswer v).ports = s.ports := (rfl)
@[simp] theorem State.setAnswer_pkt (s : State) (v : Word) : (s.setAnswer v).pkt = s.pkt := (rfl)
@[simp] theorem State.setAnswer_cxl (s : State) (v : Word) : (s.setAnswer v).cxl = s.cxl := (rfl)
@[simp] theorem State.setAnswer_ddr (s : State) (v : Word) : (s.setAnswer v).ddr = s.ddr := (rfl)
@[simp] theorem State.setAnswer_regions (s : State) (v : Word) : (s.setAnswer v).regions = s.regions := (rfl)
@[simp] theorem State.setAnswer_prots (s : State) (v : Word) : (s.setAnswer v).prots = s.prots := (rfl)
@[simp] theorem State.setAnswer_keyStore (s : State) (v : Word) : (s.setAnswer v).keyStore = s.keyStore := (rfl)
@[simp] theorem State.setAnswer_rings (s : State) (v : Word) : (s.setAnswer v).rings = s.rings := (rfl)
@[simp] theorem State.setAnswer_openMem (s : State) (v : Word) : (s.setAnswer v).openMem = s.openMem := (rfl)
@[simp] theorem State.setAnswer_dcRights (s : State) (v : Word) : (s.setAnswer v).dcRights = s.dcRights := (rfl)
@[simp] theorem State.setAnswer_clk (s : State) (v : Word) : (s.setAnswer v).clk = s.clk := (rfl)
@[simp] theorem State.setAnswer_units (s : State) (v : Word) : (s.setAnswer v).units = s.units := (rfl)
@[simp] theorem State.setAnswer_hearthHit (s : State) (v : Word) : (s.setAnswer v).hearthHit = s.hearthHit := (rfl)
@[simp] theorem State.setAnswerStatus_pending (s : State) (v : Nat) : (s.setAnswerStatus v).pending = s.pending := (rfl)
@[simp] theorem State.setAnswerStatus_regs (s : State) (v : Nat) : (s.setAnswerStatus v).regs = s.regs := (rfl)
@[simp] theorem State.setAnswerStatus_mem (s : State) (v : Nat) : (s.setAnswerStatus v).mem = s.mem := (rfl)
@[simp] theorem State.setAnswerStatus_poison (s : State) (v : Nat) : (s.setAnswerStatus v).poison = s.poison := (rfl)
@[simp] theorem State.setAnswerStatus_fresh (s : State) (v : Nat) : (s.setAnswerStatus v).fresh = s.fresh := (rfl)
@[simp] theorem State.setAnswerStatus_answer (s : State) (v : Nat) : (s.setAnswerStatus v).answer = s.answer := (rfl)
@[simp] theorem State.setAnswerStatus_answerStatus (s : State) (v : Nat) : (s.setAnswerStatus v).answerStatus = v := (rfl)
@[simp] theorem State.setAnswerStatus_book (s : State) (v : Nat) : (s.setAnswerStatus v).book = s.book := (rfl)
@[simp] theorem State.setAnswerStatus_mgt (s : State) (v : Nat) : (s.setAnswerStatus v).mgt = s.mgt := (rfl)
@[simp] theorem State.setAnswerStatus_fpFifo (s : State) (v : Nat) : (s.setAnswerStatus v).fpFifo = s.fpFifo := (rfl)
@[simp] theorem State.setAnswerStatus_evtOnce (s : State) (v : Nat) : (s.setAnswerStatus v).evtOnce = s.evtOnce := (rfl)
@[simp] theorem State.setAnswerStatus_cycles (s : State) (v : Nat) : (s.setAnswerStatus v).cycles = s.cycles := (rfl)
@[simp] theorem State.setAnswerStatus_pcie (s : State) (v : Nat) : (s.setAnswerStatus v).pcie = s.pcie := (rfl)
@[simp] theorem State.setAnswerStatus_sent (s : State) (v : Nat) : (s.setAnswerStatus v).sent = s.sent := (rfl)
@[simp] theorem State.setAnswerStatus_bw (s : State) (v : Nat) : (s.setAnswerStatus v).bw = s.bw := (rfl)
@[simp] theorem State.setAnswerStatus_pmcLatch (s : State) (v : Nat) : (s.setAnswerStatus v).pmcLatch = s.pmcLatch := (rfl)
@[simp] theorem State.setAnswerStatus_cal (s : State) (v : Nat) : (s.setAnswerStatus v).cal = s.cal := (rfl)
@[simp] theorem State.setAnswerStatus_cfg (s : State) (v : Nat) : (s.setAnswerStatus v).cfg = s.cfg := (rfl)
@[simp] theorem State.setAnswerStatus_tap (s : State) (v : Nat) : (s.setAnswerStatus v).tap = s.tap := (rfl)
@[simp] theorem State.setAnswerStatus_pins (s : State) (v : Nat) : (s.setAnswerStatus v).pins = s.pins := (rfl)
@[simp] theorem State.setAnswerStatus_frames (s : State) (v : Nat) : (s.setAnswerStatus v).frames = s.frames := (rfl)
@[simp] theorem State.setAnswerStatus_clusters (s : State) (v : Nat) : (s.setAnswerStatus v).clusters = s.clusters := (rfl)
@[simp] theorem State.setAnswerStatus_ffs (s : State) (v : Nat) : (s.setAnswerStatus v).ffs = s.ffs := (rfl)
@[simp] theorem State.setAnswerStatus_relStage (s : State) (v : Nat) : (s.setAnswerStatus v).relStage = s.relStage := (rfl)
@[simp] theorem State.setAnswerStatus_frozen (s : State) (v : Nat) : (s.setAnswerStatus v).frozen = s.frozen := (rfl)
@[simp] theorem State.setAnswerStatus_bramCfg (s : State) (v : Nat) : (s.setAnswerStatus v).bramCfg = s.bramCfg := (rfl)
@[simp] theorem State.setAnswerStatus_bram (s : State) (v : Nat) : (s.setAnswerStatus v).bram = s.bram := (rfl)
@[simp] theorem State.setAnswerStatus_bramPorts (s : State) (v : Nat) : (s.setAnswerStatus v).bramPorts = s.bramPorts := (rfl)
@[simp] theorem State.setAnswerStatus_multCfg (s : State) (v : Nat) : (s.setAnswerStatus v).multCfg = s.multCfg := (rfl)
@[simp] theorem State.setAnswerStatus_mults (s : State) (v : Nat) : (s.setAnswerStatus v).mults = s.mults := (rfl)
@[simp] theorem State.setAnswerStatus_railKeep (s : State) (v : Nat) : (s.setAnswerStatus v).railKeep = s.railKeep := (rfl)
@[simp] theorem State.setAnswerStatus_chk (s : State) (v : Nat) : (s.setAnswerStatus v).chk = s.chk := (rfl)
@[simp] theorem State.setAnswerStatus_eccRaw (s : State) (v : Nat) : (s.setAnswerStatus v).eccRaw = s.eccRaw := (rfl)
@[simp] theorem State.setAnswerStatus_eccScrub (s : State) (v : Nat) : (s.setAnswerStatus v).eccScrub = s.eccScrub := (rfl)
@[simp] theorem State.setAnswerStatus_tags (s : State) (v : Nat) : (s.setAnswerStatus v).tags = s.tags := (rfl)
@[simp] theorem State.setAnswerStatus_xUsed (s : State) (v : Nat) : (s.setAnswerStatus v).xUsed = s.xUsed := (rfl)
@[simp] theorem State.setAnswerStatus_xWait (s : State) (v : Nat) : (s.setAnswerStatus v).xWait = s.xWait := (rfl)
@[simp] theorem State.setAnswerStatus_xHeld (s : State) (v : Nat) : (s.setAnswerStatus v).xHeld = s.xHeld := (rfl)
@[simp] theorem State.setAnswerStatus_routers (s : State) (v : Nat) : (s.setAnswerStatus v).routers = s.routers := (rfl)
@[simp] theorem State.setAnswerStatus_portMode (s : State) (v : Nat) : (s.setAnswerStatus v).portMode = s.portMode := (rfl)
@[simp] theorem State.setAnswerStatus_portTags (s : State) (v : Nat) : (s.setAnswerStatus v).portTags = s.portTags := (rfl)
@[simp] theorem State.setAnswerStatus_portFifo (s : State) (v : Nat) : (s.setAnswerStatus v).portFifo = s.portFifo := (rfl)
@[simp] theorem State.setAnswerStatus_dcache (s : State) (v : Nat) : (s.setAnswerStatus v).dcache = s.dcache := (rfl)
@[simp] theorem State.setAnswerStatus_dir (s : State) (v : Nat) : (s.setAnswerStatus v).dir = s.dir := (rfl)
@[simp] theorem State.setAnswerStatus_dieResets (s : State) (v : Nat) : (s.setAnswerStatus v).dieResets = s.dieResets := (rfl)
@[simp] theorem State.setAnswerStatus_homeTxn (s : State) (v : Nat) : (s.setAnswerStatus v).homeTxn = s.homeTxn := (rfl)
@[simp] theorem State.setAnswerStatus_cores (s : State) (v : Nat) : (s.setAnswerStatus v).cores = s.cores := (rfl)
@[simp] theorem State.setAnswerStatus_tngDone (s : State) (v : Nat) : (s.setAnswerStatus v).tngDone = s.tngDone := (rfl)
@[simp] theorem State.setAnswerStatus_fab (s : State) (v : Nat) : (s.setAnswerStatus v).fab = s.fab := (rfl)
@[simp] theorem State.setAnswerStatus_net (s : State) (v : Nat) : (s.setAnswerStatus v).net = s.net := (rfl)
@[simp] theorem State.setAnswerStatus_rtrShare (s : State) (v : Nat) : (s.setAnswerStatus v).rtrShare = s.rtrShare := (rfl)
@[simp] theorem State.setAnswerStatus_dbg (s : State) (v : Nat) : (s.setAnswerStatus v).dbg = s.dbg := (rfl)
@[simp] theorem State.setAnswerStatus_dcWait (s : State) (v : Nat) : (s.setAnswerStatus v).dcWait = s.dcWait := (rfl)
@[simp] theorem State.setAnswerStatus_prcStep (s : State) (v : Nat) : (s.setAnswerStatus v).prcStep = s.prcStep := (rfl)
@[simp] theorem State.setAnswerStatus_prcBlank (s : State) (v : Nat) : (s.setAnswerStatus v).prcBlank = s.prcBlank := (rfl)
@[simp] theorem State.setAnswerStatus_prcHold (s : State) (v : Nat) : (s.setAnswerStatus v).prcHold = s.prcHold := (rfl)
@[simp] theorem State.setAnswerStatus_capWait (s : State) (v : Nat) : (s.setAnswerStatus v).capWait = s.capWait := (rfl)
@[simp] theorem State.setAnswerStatus_capture (s : State) (v : Nat) : (s.setAnswerStatus v).capture = s.capture := (rfl)
@[simp] theorem State.setAnswerStatus_bramDef (s : State) (v : Nat) : (s.setAnswerStatus v).bramDef = s.bramDef := (rfl)
@[simp] theorem State.setAnswerStatus_scrubs (s : State) (v : Nat) : (s.setAnswerStatus v).scrubs = s.scrubs := (rfl)
@[simp] theorem State.setAnswerStatus_scrCopy (s : State) (v : Nat) : (s.setAnswerStatus v).scrCopy = s.scrCopy := (rfl)
@[simp] theorem State.setAnswerStatus_releases (s : State) (v : Nat) : (s.setAnswerStatus v).releases = s.releases := (rfl)
@[simp] theorem State.setAnswerStatus_dieStep (s : State) (v : Nat) : (s.setAnswerStatus v).dieStep = s.dieStep := (rfl)
@[simp] theorem State.setAnswerStatus_clampDef (s : State) (v : Nat) : (s.setAnswerStatus v).clampDef = s.clampDef := (rfl)
@[simp] theorem State.setAnswerStatus_clamps (s : State) (v : Nat) : (s.setAnswerStatus v).clamps = s.clamps := (rfl)
@[simp] theorem State.setAnswerStatus_welds (s : State) (v : Nat) : (s.setAnswerStatus v).welds = s.welds := (rfl)
@[simp] theorem State.setAnswerStatus_lanes (s : State) (v : Nat) : (s.setAnswerStatus v).lanes = s.lanes := (rfl)
@[simp] theorem State.setAnswerStatus_macMode (s : State) (v : Nat) : (s.setAnswerStatus v).macMode = s.macMode := (rfl)
@[simp] theorem State.setAnswerStatus_tod (s : State) (v : Nat) : (s.setAnswerStatus v).tod = s.tod := (rfl)
@[simp] theorem State.setAnswerStatus_lkp (s : State) (v : Nat) : (s.setAnswerStatus v).lkp = s.lkp := (rfl)
@[simp] theorem State.setAnswerStatus_queues (s : State) (v : Nat) : (s.setAnswerStatus v).queues = s.queues := (rfl)
@[simp] theorem State.setAnswerStatus_ports (s : State) (v : Nat) : (s.setAnswerStatus v).ports = s.ports := (rfl)
@[simp] theorem State.setAnswerStatus_pkt (s : State) (v : Nat) : (s.setAnswerStatus v).pkt = s.pkt := (rfl)
@[simp] theorem State.setAnswerStatus_cxl (s : State) (v : Nat) : (s.setAnswerStatus v).cxl = s.cxl := (rfl)
@[simp] theorem State.setAnswerStatus_ddr (s : State) (v : Nat) : (s.setAnswerStatus v).ddr = s.ddr := (rfl)
@[simp] theorem State.setAnswerStatus_regions (s : State) (v : Nat) : (s.setAnswerStatus v).regions = s.regions := (rfl)
@[simp] theorem State.setAnswerStatus_prots (s : State) (v : Nat) : (s.setAnswerStatus v).prots = s.prots := (rfl)
@[simp] theorem State.setAnswerStatus_keyStore (s : State) (v : Nat) : (s.setAnswerStatus v).keyStore = s.keyStore := (rfl)
@[simp] theorem State.setAnswerStatus_rings (s : State) (v : Nat) : (s.setAnswerStatus v).rings = s.rings := (rfl)
@[simp] theorem State.setAnswerStatus_openMem (s : State) (v : Nat) : (s.setAnswerStatus v).openMem = s.openMem := (rfl)
@[simp] theorem State.setAnswerStatus_dcRights (s : State) (v : Nat) : (s.setAnswerStatus v).dcRights = s.dcRights := (rfl)
@[simp] theorem State.setAnswerStatus_clk (s : State) (v : Nat) : (s.setAnswerStatus v).clk = s.clk := (rfl)
@[simp] theorem State.setAnswerStatus_units (s : State) (v : Nat) : (s.setAnswerStatus v).units = s.units := (rfl)
@[simp] theorem State.setAnswerStatus_hearthHit (s : State) (v : Nat) : (s.setAnswerStatus v).hearthHit = s.hearthHit := (rfl)
@[simp] theorem State.setBook_pending (s : State) (v : Book) : (s.setBook v).pending = s.pending := (rfl)
@[simp] theorem State.setBook_regs (s : State) (v : Book) : (s.setBook v).regs = s.regs := (rfl)
@[simp] theorem State.setBook_mem (s : State) (v : Book) : (s.setBook v).mem = s.mem := (rfl)
@[simp] theorem State.setBook_poison (s : State) (v : Book) : (s.setBook v).poison = s.poison := (rfl)
@[simp] theorem State.setBook_fresh (s : State) (v : Book) : (s.setBook v).fresh = s.fresh := (rfl)
@[simp] theorem State.setBook_answer (s : State) (v : Book) : (s.setBook v).answer = s.answer := (rfl)
@[simp] theorem State.setBook_answerStatus (s : State) (v : Book) : (s.setBook v).answerStatus = s.answerStatus := (rfl)
@[simp] theorem State.setBook_book (s : State) (v : Book) : (s.setBook v).book = v := (rfl)
@[simp] theorem State.setBook_mgt (s : State) (v : Book) : (s.setBook v).mgt = s.mgt := (rfl)
@[simp] theorem State.setBook_fpFifo (s : State) (v : Book) : (s.setBook v).fpFifo = s.fpFifo := (rfl)
@[simp] theorem State.setBook_evtOnce (s : State) (v : Book) : (s.setBook v).evtOnce = s.evtOnce := (rfl)
@[simp] theorem State.setBook_cycles (s : State) (v : Book) : (s.setBook v).cycles = s.cycles := (rfl)
@[simp] theorem State.setBook_pcie (s : State) (v : Book) : (s.setBook v).pcie = s.pcie := (rfl)
@[simp] theorem State.setBook_sent (s : State) (v : Book) : (s.setBook v).sent = s.sent := (rfl)
@[simp] theorem State.setBook_bw (s : State) (v : Book) : (s.setBook v).bw = s.bw := (rfl)
@[simp] theorem State.setBook_pmcLatch (s : State) (v : Book) : (s.setBook v).pmcLatch = s.pmcLatch := (rfl)
@[simp] theorem State.setBook_cal (s : State) (v : Book) : (s.setBook v).cal = s.cal := (rfl)
@[simp] theorem State.setBook_cfg (s : State) (v : Book) : (s.setBook v).cfg = s.cfg := (rfl)
@[simp] theorem State.setBook_tap (s : State) (v : Book) : (s.setBook v).tap = s.tap := (rfl)
@[simp] theorem State.setBook_pins (s : State) (v : Book) : (s.setBook v).pins = s.pins := (rfl)
@[simp] theorem State.setBook_frames (s : State) (v : Book) : (s.setBook v).frames = s.frames := (rfl)
@[simp] theorem State.setBook_clusters (s : State) (v : Book) : (s.setBook v).clusters = s.clusters := (rfl)
@[simp] theorem State.setBook_ffs (s : State) (v : Book) : (s.setBook v).ffs = s.ffs := (rfl)
@[simp] theorem State.setBook_relStage (s : State) (v : Book) : (s.setBook v).relStage = s.relStage := (rfl)
@[simp] theorem State.setBook_frozen (s : State) (v : Book) : (s.setBook v).frozen = s.frozen := (rfl)
@[simp] theorem State.setBook_bramCfg (s : State) (v : Book) : (s.setBook v).bramCfg = s.bramCfg := (rfl)
@[simp] theorem State.setBook_bram (s : State) (v : Book) : (s.setBook v).bram = s.bram := (rfl)
@[simp] theorem State.setBook_bramPorts (s : State) (v : Book) : (s.setBook v).bramPorts = s.bramPorts := (rfl)
@[simp] theorem State.setBook_multCfg (s : State) (v : Book) : (s.setBook v).multCfg = s.multCfg := (rfl)
@[simp] theorem State.setBook_mults (s : State) (v : Book) : (s.setBook v).mults = s.mults := (rfl)
@[simp] theorem State.setBook_railKeep (s : State) (v : Book) : (s.setBook v).railKeep = s.railKeep := (rfl)
@[simp] theorem State.setBook_chk (s : State) (v : Book) : (s.setBook v).chk = s.chk := (rfl)
@[simp] theorem State.setBook_eccRaw (s : State) (v : Book) : (s.setBook v).eccRaw = s.eccRaw := (rfl)
@[simp] theorem State.setBook_eccScrub (s : State) (v : Book) : (s.setBook v).eccScrub = s.eccScrub := (rfl)
@[simp] theorem State.setBook_tags (s : State) (v : Book) : (s.setBook v).tags = s.tags := (rfl)
@[simp] theorem State.setBook_xUsed (s : State) (v : Book) : (s.setBook v).xUsed = s.xUsed := (rfl)
@[simp] theorem State.setBook_xWait (s : State) (v : Book) : (s.setBook v).xWait = s.xWait := (rfl)
@[simp] theorem State.setBook_xHeld (s : State) (v : Book) : (s.setBook v).xHeld = s.xHeld := (rfl)
@[simp] theorem State.setBook_routers (s : State) (v : Book) : (s.setBook v).routers = s.routers := (rfl)
@[simp] theorem State.setBook_portMode (s : State) (v : Book) : (s.setBook v).portMode = s.portMode := (rfl)
@[simp] theorem State.setBook_portTags (s : State) (v : Book) : (s.setBook v).portTags = s.portTags := (rfl)
@[simp] theorem State.setBook_portFifo (s : State) (v : Book) : (s.setBook v).portFifo = s.portFifo := (rfl)
@[simp] theorem State.setBook_dcache (s : State) (v : Book) : (s.setBook v).dcache = s.dcache := (rfl)
@[simp] theorem State.setBook_dir (s : State) (v : Book) : (s.setBook v).dir = s.dir := (rfl)
@[simp] theorem State.setBook_dieResets (s : State) (v : Book) : (s.setBook v).dieResets = s.dieResets := (rfl)
@[simp] theorem State.setBook_homeTxn (s : State) (v : Book) : (s.setBook v).homeTxn = s.homeTxn := (rfl)
@[simp] theorem State.setBook_cores (s : State) (v : Book) : (s.setBook v).cores = s.cores := (rfl)
@[simp] theorem State.setBook_tngDone (s : State) (v : Book) : (s.setBook v).tngDone = s.tngDone := (rfl)
@[simp] theorem State.setBook_fab (s : State) (v : Book) : (s.setBook v).fab = s.fab := (rfl)
@[simp] theorem State.setBook_net (s : State) (v : Book) : (s.setBook v).net = s.net := (rfl)
@[simp] theorem State.setBook_rtrShare (s : State) (v : Book) : (s.setBook v).rtrShare = s.rtrShare := (rfl)
@[simp] theorem State.setBook_dbg (s : State) (v : Book) : (s.setBook v).dbg = s.dbg := (rfl)
@[simp] theorem State.setBook_dcWait (s : State) (v : Book) : (s.setBook v).dcWait = s.dcWait := (rfl)
@[simp] theorem State.setBook_prcStep (s : State) (v : Book) : (s.setBook v).prcStep = s.prcStep := (rfl)
@[simp] theorem State.setBook_prcBlank (s : State) (v : Book) : (s.setBook v).prcBlank = s.prcBlank := (rfl)
@[simp] theorem State.setBook_prcHold (s : State) (v : Book) : (s.setBook v).prcHold = s.prcHold := (rfl)
@[simp] theorem State.setBook_capWait (s : State) (v : Book) : (s.setBook v).capWait = s.capWait := (rfl)
@[simp] theorem State.setBook_capture (s : State) (v : Book) : (s.setBook v).capture = s.capture := (rfl)
@[simp] theorem State.setBook_bramDef (s : State) (v : Book) : (s.setBook v).bramDef = s.bramDef := (rfl)
@[simp] theorem State.setBook_scrubs (s : State) (v : Book) : (s.setBook v).scrubs = s.scrubs := (rfl)
@[simp] theorem State.setBook_scrCopy (s : State) (v : Book) : (s.setBook v).scrCopy = s.scrCopy := (rfl)
@[simp] theorem State.setBook_releases (s : State) (v : Book) : (s.setBook v).releases = s.releases := (rfl)
@[simp] theorem State.setBook_dieStep (s : State) (v : Book) : (s.setBook v).dieStep = s.dieStep := (rfl)
@[simp] theorem State.setBook_clampDef (s : State) (v : Book) : (s.setBook v).clampDef = s.clampDef := (rfl)
@[simp] theorem State.setBook_clamps (s : State) (v : Book) : (s.setBook v).clamps = s.clamps := (rfl)
@[simp] theorem State.setBook_welds (s : State) (v : Book) : (s.setBook v).welds = s.welds := (rfl)
@[simp] theorem State.setBook_lanes (s : State) (v : Book) : (s.setBook v).lanes = s.lanes := (rfl)
@[simp] theorem State.setBook_macMode (s : State) (v : Book) : (s.setBook v).macMode = s.macMode := (rfl)
@[simp] theorem State.setBook_tod (s : State) (v : Book) : (s.setBook v).tod = s.tod := (rfl)
@[simp] theorem State.setBook_lkp (s : State) (v : Book) : (s.setBook v).lkp = s.lkp := (rfl)
@[simp] theorem State.setBook_queues (s : State) (v : Book) : (s.setBook v).queues = s.queues := (rfl)
@[simp] theorem State.setBook_ports (s : State) (v : Book) : (s.setBook v).ports = s.ports := (rfl)
@[simp] theorem State.setBook_pkt (s : State) (v : Book) : (s.setBook v).pkt = s.pkt := (rfl)
@[simp] theorem State.setBook_cxl (s : State) (v : Book) : (s.setBook v).cxl = s.cxl := (rfl)
@[simp] theorem State.setBook_ddr (s : State) (v : Book) : (s.setBook v).ddr = s.ddr := (rfl)
@[simp] theorem State.setBook_regions (s : State) (v : Book) : (s.setBook v).regions = s.regions := (rfl)
@[simp] theorem State.setBook_prots (s : State) (v : Book) : (s.setBook v).prots = s.prots := (rfl)
@[simp] theorem State.setBook_keyStore (s : State) (v : Book) : (s.setBook v).keyStore = s.keyStore := (rfl)
@[simp] theorem State.setBook_rings (s : State) (v : Book) : (s.setBook v).rings = s.rings := (rfl)
@[simp] theorem State.setBook_openMem (s : State) (v : Book) : (s.setBook v).openMem = s.openMem := (rfl)
@[simp] theorem State.setBook_dcRights (s : State) (v : Book) : (s.setBook v).dcRights = s.dcRights := (rfl)
@[simp] theorem State.setBook_clk (s : State) (v : Book) : (s.setBook v).clk = s.clk := (rfl)
@[simp] theorem State.setBook_units (s : State) (v : Book) : (s.setBook v).units = s.units := (rfl)
@[simp] theorem State.setBook_hearthHit (s : State) (v : Book) : (s.setBook v).hearthHit = s.hearthHit := (rfl)
@[simp] theorem State.setMgt_pending (s : State) (v : Mgt) : (s.setMgt v).pending = s.pending := (rfl)
@[simp] theorem State.setMgt_regs (s : State) (v : Mgt) : (s.setMgt v).regs = s.regs := (rfl)
@[simp] theorem State.setMgt_mem (s : State) (v : Mgt) : (s.setMgt v).mem = s.mem := (rfl)
@[simp] theorem State.setMgt_poison (s : State) (v : Mgt) : (s.setMgt v).poison = s.poison := (rfl)
@[simp] theorem State.setMgt_fresh (s : State) (v : Mgt) : (s.setMgt v).fresh = s.fresh := (rfl)
@[simp] theorem State.setMgt_answer (s : State) (v : Mgt) : (s.setMgt v).answer = s.answer := (rfl)
@[simp] theorem State.setMgt_answerStatus (s : State) (v : Mgt) : (s.setMgt v).answerStatus = s.answerStatus := (rfl)
@[simp] theorem State.setMgt_book (s : State) (v : Mgt) : (s.setMgt v).book = s.book := (rfl)
@[simp] theorem State.setMgt_mgt (s : State) (v : Mgt) : (s.setMgt v).mgt = v := (rfl)
@[simp] theorem State.setMgt_fpFifo (s : State) (v : Mgt) : (s.setMgt v).fpFifo = s.fpFifo := (rfl)
@[simp] theorem State.setMgt_evtOnce (s : State) (v : Mgt) : (s.setMgt v).evtOnce = s.evtOnce := (rfl)
@[simp] theorem State.setMgt_cycles (s : State) (v : Mgt) : (s.setMgt v).cycles = s.cycles := (rfl)
@[simp] theorem State.setMgt_pcie (s : State) (v : Mgt) : (s.setMgt v).pcie = s.pcie := (rfl)
@[simp] theorem State.setMgt_sent (s : State) (v : Mgt) : (s.setMgt v).sent = s.sent := (rfl)
@[simp] theorem State.setMgt_bw (s : State) (v : Mgt) : (s.setMgt v).bw = s.bw := (rfl)
@[simp] theorem State.setMgt_pmcLatch (s : State) (v : Mgt) : (s.setMgt v).pmcLatch = s.pmcLatch := (rfl)
@[simp] theorem State.setMgt_cal (s : State) (v : Mgt) : (s.setMgt v).cal = s.cal := (rfl)
@[simp] theorem State.setMgt_cfg (s : State) (v : Mgt) : (s.setMgt v).cfg = s.cfg := (rfl)
@[simp] theorem State.setMgt_tap (s : State) (v : Mgt) : (s.setMgt v).tap = s.tap := (rfl)
@[simp] theorem State.setMgt_pins (s : State) (v : Mgt) : (s.setMgt v).pins = s.pins := (rfl)
@[simp] theorem State.setMgt_frames (s : State) (v : Mgt) : (s.setMgt v).frames = s.frames := (rfl)
@[simp] theorem State.setMgt_clusters (s : State) (v : Mgt) : (s.setMgt v).clusters = s.clusters := (rfl)
@[simp] theorem State.setMgt_ffs (s : State) (v : Mgt) : (s.setMgt v).ffs = s.ffs := (rfl)
@[simp] theorem State.setMgt_relStage (s : State) (v : Mgt) : (s.setMgt v).relStage = s.relStage := (rfl)
@[simp] theorem State.setMgt_frozen (s : State) (v : Mgt) : (s.setMgt v).frozen = s.frozen := (rfl)
@[simp] theorem State.setMgt_bramCfg (s : State) (v : Mgt) : (s.setMgt v).bramCfg = s.bramCfg := (rfl)
@[simp] theorem State.setMgt_bram (s : State) (v : Mgt) : (s.setMgt v).bram = s.bram := (rfl)
@[simp] theorem State.setMgt_bramPorts (s : State) (v : Mgt) : (s.setMgt v).bramPorts = s.bramPorts := (rfl)
@[simp] theorem State.setMgt_multCfg (s : State) (v : Mgt) : (s.setMgt v).multCfg = s.multCfg := (rfl)
@[simp] theorem State.setMgt_mults (s : State) (v : Mgt) : (s.setMgt v).mults = s.mults := (rfl)
@[simp] theorem State.setMgt_railKeep (s : State) (v : Mgt) : (s.setMgt v).railKeep = s.railKeep := (rfl)
@[simp] theorem State.setMgt_chk (s : State) (v : Mgt) : (s.setMgt v).chk = s.chk := (rfl)
@[simp] theorem State.setMgt_eccRaw (s : State) (v : Mgt) : (s.setMgt v).eccRaw = s.eccRaw := (rfl)
@[simp] theorem State.setMgt_eccScrub (s : State) (v : Mgt) : (s.setMgt v).eccScrub = s.eccScrub := (rfl)
@[simp] theorem State.setMgt_tags (s : State) (v : Mgt) : (s.setMgt v).tags = s.tags := (rfl)
@[simp] theorem State.setMgt_xUsed (s : State) (v : Mgt) : (s.setMgt v).xUsed = s.xUsed := (rfl)
@[simp] theorem State.setMgt_xWait (s : State) (v : Mgt) : (s.setMgt v).xWait = s.xWait := (rfl)
@[simp] theorem State.setMgt_xHeld (s : State) (v : Mgt) : (s.setMgt v).xHeld = s.xHeld := (rfl)
@[simp] theorem State.setMgt_routers (s : State) (v : Mgt) : (s.setMgt v).routers = s.routers := (rfl)
@[simp] theorem State.setMgt_portMode (s : State) (v : Mgt) : (s.setMgt v).portMode = s.portMode := (rfl)
@[simp] theorem State.setMgt_portTags (s : State) (v : Mgt) : (s.setMgt v).portTags = s.portTags := (rfl)
@[simp] theorem State.setMgt_portFifo (s : State) (v : Mgt) : (s.setMgt v).portFifo = s.portFifo := (rfl)
@[simp] theorem State.setMgt_dcache (s : State) (v : Mgt) : (s.setMgt v).dcache = s.dcache := (rfl)
@[simp] theorem State.setMgt_dir (s : State) (v : Mgt) : (s.setMgt v).dir = s.dir := (rfl)
@[simp] theorem State.setMgt_dieResets (s : State) (v : Mgt) : (s.setMgt v).dieResets = s.dieResets := (rfl)
@[simp] theorem State.setMgt_homeTxn (s : State) (v : Mgt) : (s.setMgt v).homeTxn = s.homeTxn := (rfl)
@[simp] theorem State.setMgt_cores (s : State) (v : Mgt) : (s.setMgt v).cores = s.cores := (rfl)
@[simp] theorem State.setMgt_tngDone (s : State) (v : Mgt) : (s.setMgt v).tngDone = s.tngDone := (rfl)
@[simp] theorem State.setMgt_fab (s : State) (v : Mgt) : (s.setMgt v).fab = s.fab := (rfl)
@[simp] theorem State.setMgt_net (s : State) (v : Mgt) : (s.setMgt v).net = s.net := (rfl)
@[simp] theorem State.setMgt_rtrShare (s : State) (v : Mgt) : (s.setMgt v).rtrShare = s.rtrShare := (rfl)
@[simp] theorem State.setMgt_dbg (s : State) (v : Mgt) : (s.setMgt v).dbg = s.dbg := (rfl)
@[simp] theorem State.setMgt_dcWait (s : State) (v : Mgt) : (s.setMgt v).dcWait = s.dcWait := (rfl)
@[simp] theorem State.setMgt_prcStep (s : State) (v : Mgt) : (s.setMgt v).prcStep = s.prcStep := (rfl)
@[simp] theorem State.setMgt_prcBlank (s : State) (v : Mgt) : (s.setMgt v).prcBlank = s.prcBlank := (rfl)
@[simp] theorem State.setMgt_prcHold (s : State) (v : Mgt) : (s.setMgt v).prcHold = s.prcHold := (rfl)
@[simp] theorem State.setMgt_capWait (s : State) (v : Mgt) : (s.setMgt v).capWait = s.capWait := (rfl)
@[simp] theorem State.setMgt_capture (s : State) (v : Mgt) : (s.setMgt v).capture = s.capture := (rfl)
@[simp] theorem State.setMgt_bramDef (s : State) (v : Mgt) : (s.setMgt v).bramDef = s.bramDef := (rfl)
@[simp] theorem State.setMgt_scrubs (s : State) (v : Mgt) : (s.setMgt v).scrubs = s.scrubs := (rfl)
@[simp] theorem State.setMgt_scrCopy (s : State) (v : Mgt) : (s.setMgt v).scrCopy = s.scrCopy := (rfl)
@[simp] theorem State.setMgt_releases (s : State) (v : Mgt) : (s.setMgt v).releases = s.releases := (rfl)
@[simp] theorem State.setMgt_dieStep (s : State) (v : Mgt) : (s.setMgt v).dieStep = s.dieStep := (rfl)
@[simp] theorem State.setMgt_clampDef (s : State) (v : Mgt) : (s.setMgt v).clampDef = s.clampDef := (rfl)
@[simp] theorem State.setMgt_clamps (s : State) (v : Mgt) : (s.setMgt v).clamps = s.clamps := (rfl)
@[simp] theorem State.setMgt_welds (s : State) (v : Mgt) : (s.setMgt v).welds = s.welds := (rfl)
@[simp] theorem State.setMgt_lanes (s : State) (v : Mgt) : (s.setMgt v).lanes = s.lanes := (rfl)
@[simp] theorem State.setMgt_macMode (s : State) (v : Mgt) : (s.setMgt v).macMode = s.macMode := (rfl)
@[simp] theorem State.setMgt_tod (s : State) (v : Mgt) : (s.setMgt v).tod = s.tod := (rfl)
@[simp] theorem State.setMgt_lkp (s : State) (v : Mgt) : (s.setMgt v).lkp = s.lkp := (rfl)
@[simp] theorem State.setMgt_queues (s : State) (v : Mgt) : (s.setMgt v).queues = s.queues := (rfl)
@[simp] theorem State.setMgt_ports (s : State) (v : Mgt) : (s.setMgt v).ports = s.ports := (rfl)
@[simp] theorem State.setMgt_pkt (s : State) (v : Mgt) : (s.setMgt v).pkt = s.pkt := (rfl)
@[simp] theorem State.setMgt_cxl (s : State) (v : Mgt) : (s.setMgt v).cxl = s.cxl := (rfl)
@[simp] theorem State.setMgt_ddr (s : State) (v : Mgt) : (s.setMgt v).ddr = s.ddr := (rfl)
@[simp] theorem State.setMgt_regions (s : State) (v : Mgt) : (s.setMgt v).regions = s.regions := (rfl)
@[simp] theorem State.setMgt_prots (s : State) (v : Mgt) : (s.setMgt v).prots = s.prots := (rfl)
@[simp] theorem State.setMgt_keyStore (s : State) (v : Mgt) : (s.setMgt v).keyStore = s.keyStore := (rfl)
@[simp] theorem State.setMgt_rings (s : State) (v : Mgt) : (s.setMgt v).rings = s.rings := (rfl)
@[simp] theorem State.setMgt_openMem (s : State) (v : Mgt) : (s.setMgt v).openMem = s.openMem := (rfl)
@[simp] theorem State.setMgt_dcRights (s : State) (v : Mgt) : (s.setMgt v).dcRights = s.dcRights := (rfl)
@[simp] theorem State.setMgt_clk (s : State) (v : Mgt) : (s.setMgt v).clk = s.clk := (rfl)
@[simp] theorem State.setMgt_units (s : State) (v : Mgt) : (s.setMgt v).units = s.units := (rfl)
@[simp] theorem State.setMgt_hearthHit (s : State) (v : Mgt) : (s.setMgt v).hearthHit = s.hearthHit := (rfl)
@[simp] theorem State.setFpFifo_pending (s : State) (v : Tbl (List (Nat × Nat))) : (s.setFpFifo v).pending = s.pending := (rfl)
@[simp] theorem State.setFpFifo_regs (s : State) (v : Tbl (List (Nat × Nat))) : (s.setFpFifo v).regs = s.regs := (rfl)
@[simp] theorem State.setFpFifo_mem (s : State) (v : Tbl (List (Nat × Nat))) : (s.setFpFifo v).mem = s.mem := (rfl)
@[simp] theorem State.setFpFifo_poison (s : State) (v : Tbl (List (Nat × Nat))) : (s.setFpFifo v).poison = s.poison := (rfl)
@[simp] theorem State.setFpFifo_fresh (s : State) (v : Tbl (List (Nat × Nat))) : (s.setFpFifo v).fresh = s.fresh := (rfl)
@[simp] theorem State.setFpFifo_answer (s : State) (v : Tbl (List (Nat × Nat))) : (s.setFpFifo v).answer = s.answer := (rfl)
@[simp] theorem State.setFpFifo_answerStatus (s : State) (v : Tbl (List (Nat × Nat))) : (s.setFpFifo v).answerStatus = s.answerStatus := (rfl)
@[simp] theorem State.setFpFifo_book (s : State) (v : Tbl (List (Nat × Nat))) : (s.setFpFifo v).book = s.book := (rfl)
@[simp] theorem State.setFpFifo_mgt (s : State) (v : Tbl (List (Nat × Nat))) : (s.setFpFifo v).mgt = s.mgt := (rfl)
@[simp] theorem State.setFpFifo_fpFifo (s : State) (v : Tbl (List (Nat × Nat))) : (s.setFpFifo v).fpFifo = v := (rfl)
@[simp] theorem State.setFpFifo_evtOnce (s : State) (v : Tbl (List (Nat × Nat))) : (s.setFpFifo v).evtOnce = s.evtOnce := (rfl)
@[simp] theorem State.setFpFifo_cycles (s : State) (v : Tbl (List (Nat × Nat))) : (s.setFpFifo v).cycles = s.cycles := (rfl)
@[simp] theorem State.setFpFifo_pcie (s : State) (v : Tbl (List (Nat × Nat))) : (s.setFpFifo v).pcie = s.pcie := (rfl)
@[simp] theorem State.setFpFifo_sent (s : State) (v : Tbl (List (Nat × Nat))) : (s.setFpFifo v).sent = s.sent := (rfl)
@[simp] theorem State.setFpFifo_bw (s : State) (v : Tbl (List (Nat × Nat))) : (s.setFpFifo v).bw = s.bw := (rfl)
@[simp] theorem State.setFpFifo_pmcLatch (s : State) (v : Tbl (List (Nat × Nat))) : (s.setFpFifo v).pmcLatch = s.pmcLatch := (rfl)
@[simp] theorem State.setFpFifo_cal (s : State) (v : Tbl (List (Nat × Nat))) : (s.setFpFifo v).cal = s.cal := (rfl)
@[simp] theorem State.setFpFifo_cfg (s : State) (v : Tbl (List (Nat × Nat))) : (s.setFpFifo v).cfg = s.cfg := (rfl)
@[simp] theorem State.setFpFifo_tap (s : State) (v : Tbl (List (Nat × Nat))) : (s.setFpFifo v).tap = s.tap := (rfl)
@[simp] theorem State.setFpFifo_pins (s : State) (v : Tbl (List (Nat × Nat))) : (s.setFpFifo v).pins = s.pins := (rfl)
@[simp] theorem State.setFpFifo_frames (s : State) (v : Tbl (List (Nat × Nat))) : (s.setFpFifo v).frames = s.frames := (rfl)
@[simp] theorem State.setFpFifo_clusters (s : State) (v : Tbl (List (Nat × Nat))) : (s.setFpFifo v).clusters = s.clusters := (rfl)
@[simp] theorem State.setFpFifo_ffs (s : State) (v : Tbl (List (Nat × Nat))) : (s.setFpFifo v).ffs = s.ffs := (rfl)
@[simp] theorem State.setFpFifo_relStage (s : State) (v : Tbl (List (Nat × Nat))) : (s.setFpFifo v).relStage = s.relStage := (rfl)
@[simp] theorem State.setFpFifo_frozen (s : State) (v : Tbl (List (Nat × Nat))) : (s.setFpFifo v).frozen = s.frozen := (rfl)
@[simp] theorem State.setFpFifo_bramCfg (s : State) (v : Tbl (List (Nat × Nat))) : (s.setFpFifo v).bramCfg = s.bramCfg := (rfl)
@[simp] theorem State.setFpFifo_bram (s : State) (v : Tbl (List (Nat × Nat))) : (s.setFpFifo v).bram = s.bram := (rfl)
@[simp] theorem State.setFpFifo_bramPorts (s : State) (v : Tbl (List (Nat × Nat))) : (s.setFpFifo v).bramPorts = s.bramPorts := (rfl)
@[simp] theorem State.setFpFifo_multCfg (s : State) (v : Tbl (List (Nat × Nat))) : (s.setFpFifo v).multCfg = s.multCfg := (rfl)
@[simp] theorem State.setFpFifo_mults (s : State) (v : Tbl (List (Nat × Nat))) : (s.setFpFifo v).mults = s.mults := (rfl)
@[simp] theorem State.setFpFifo_railKeep (s : State) (v : Tbl (List (Nat × Nat))) : (s.setFpFifo v).railKeep = s.railKeep := (rfl)
@[simp] theorem State.setFpFifo_chk (s : State) (v : Tbl (List (Nat × Nat))) : (s.setFpFifo v).chk = s.chk := (rfl)
@[simp] theorem State.setFpFifo_eccRaw (s : State) (v : Tbl (List (Nat × Nat))) : (s.setFpFifo v).eccRaw = s.eccRaw := (rfl)
@[simp] theorem State.setFpFifo_eccScrub (s : State) (v : Tbl (List (Nat × Nat))) : (s.setFpFifo v).eccScrub = s.eccScrub := (rfl)
@[simp] theorem State.setFpFifo_tags (s : State) (v : Tbl (List (Nat × Nat))) : (s.setFpFifo v).tags = s.tags := (rfl)
@[simp] theorem State.setFpFifo_xUsed (s : State) (v : Tbl (List (Nat × Nat))) : (s.setFpFifo v).xUsed = s.xUsed := (rfl)
@[simp] theorem State.setFpFifo_xWait (s : State) (v : Tbl (List (Nat × Nat))) : (s.setFpFifo v).xWait = s.xWait := (rfl)
@[simp] theorem State.setFpFifo_xHeld (s : State) (v : Tbl (List (Nat × Nat))) : (s.setFpFifo v).xHeld = s.xHeld := (rfl)
@[simp] theorem State.setFpFifo_routers (s : State) (v : Tbl (List (Nat × Nat))) : (s.setFpFifo v).routers = s.routers := (rfl)
@[simp] theorem State.setFpFifo_portMode (s : State) (v : Tbl (List (Nat × Nat))) : (s.setFpFifo v).portMode = s.portMode := (rfl)
@[simp] theorem State.setFpFifo_portTags (s : State) (v : Tbl (List (Nat × Nat))) : (s.setFpFifo v).portTags = s.portTags := (rfl)
@[simp] theorem State.setFpFifo_portFifo (s : State) (v : Tbl (List (Nat × Nat))) : (s.setFpFifo v).portFifo = s.portFifo := (rfl)
@[simp] theorem State.setFpFifo_dcache (s : State) (v : Tbl (List (Nat × Nat))) : (s.setFpFifo v).dcache = s.dcache := (rfl)
@[simp] theorem State.setFpFifo_dir (s : State) (v : Tbl (List (Nat × Nat))) : (s.setFpFifo v).dir = s.dir := (rfl)
@[simp] theorem State.setFpFifo_dieResets (s : State) (v : Tbl (List (Nat × Nat))) : (s.setFpFifo v).dieResets = s.dieResets := (rfl)
@[simp] theorem State.setFpFifo_homeTxn (s : State) (v : Tbl (List (Nat × Nat))) : (s.setFpFifo v).homeTxn = s.homeTxn := (rfl)
@[simp] theorem State.setFpFifo_cores (s : State) (v : Tbl (List (Nat × Nat))) : (s.setFpFifo v).cores = s.cores := (rfl)
@[simp] theorem State.setFpFifo_tngDone (s : State) (v : Tbl (List (Nat × Nat))) : (s.setFpFifo v).tngDone = s.tngDone := (rfl)
@[simp] theorem State.setFpFifo_fab (s : State) (v : Tbl (List (Nat × Nat))) : (s.setFpFifo v).fab = s.fab := (rfl)
@[simp] theorem State.setFpFifo_net (s : State) (v : Tbl (List (Nat × Nat))) : (s.setFpFifo v).net = s.net := (rfl)
@[simp] theorem State.setFpFifo_rtrShare (s : State) (v : Tbl (List (Nat × Nat))) : (s.setFpFifo v).rtrShare = s.rtrShare := (rfl)
@[simp] theorem State.setFpFifo_dbg (s : State) (v : Tbl (List (Nat × Nat))) : (s.setFpFifo v).dbg = s.dbg := (rfl)
@[simp] theorem State.setFpFifo_dcWait (s : State) (v : Tbl (List (Nat × Nat))) : (s.setFpFifo v).dcWait = s.dcWait := (rfl)
@[simp] theorem State.setFpFifo_prcStep (s : State) (v : Tbl (List (Nat × Nat))) : (s.setFpFifo v).prcStep = s.prcStep := (rfl)
@[simp] theorem State.setFpFifo_prcBlank (s : State) (v : Tbl (List (Nat × Nat))) : (s.setFpFifo v).prcBlank = s.prcBlank := (rfl)
@[simp] theorem State.setFpFifo_prcHold (s : State) (v : Tbl (List (Nat × Nat))) : (s.setFpFifo v).prcHold = s.prcHold := (rfl)
@[simp] theorem State.setFpFifo_capWait (s : State) (v : Tbl (List (Nat × Nat))) : (s.setFpFifo v).capWait = s.capWait := (rfl)
@[simp] theorem State.setFpFifo_capture (s : State) (v : Tbl (List (Nat × Nat))) : (s.setFpFifo v).capture = s.capture := (rfl)
@[simp] theorem State.setFpFifo_bramDef (s : State) (v : Tbl (List (Nat × Nat))) : (s.setFpFifo v).bramDef = s.bramDef := (rfl)
@[simp] theorem State.setFpFifo_scrubs (s : State) (v : Tbl (List (Nat × Nat))) : (s.setFpFifo v).scrubs = s.scrubs := (rfl)
@[simp] theorem State.setFpFifo_scrCopy (s : State) (v : Tbl (List (Nat × Nat))) : (s.setFpFifo v).scrCopy = s.scrCopy := (rfl)
@[simp] theorem State.setFpFifo_releases (s : State) (v : Tbl (List (Nat × Nat))) : (s.setFpFifo v).releases = s.releases := (rfl)
@[simp] theorem State.setFpFifo_dieStep (s : State) (v : Tbl (List (Nat × Nat))) : (s.setFpFifo v).dieStep = s.dieStep := (rfl)
@[simp] theorem State.setFpFifo_clampDef (s : State) (v : Tbl (List (Nat × Nat))) : (s.setFpFifo v).clampDef = s.clampDef := (rfl)
@[simp] theorem State.setFpFifo_clamps (s : State) (v : Tbl (List (Nat × Nat))) : (s.setFpFifo v).clamps = s.clamps := (rfl)
@[simp] theorem State.setFpFifo_welds (s : State) (v : Tbl (List (Nat × Nat))) : (s.setFpFifo v).welds = s.welds := (rfl)
@[simp] theorem State.setFpFifo_lanes (s : State) (v : Tbl (List (Nat × Nat))) : (s.setFpFifo v).lanes = s.lanes := (rfl)
@[simp] theorem State.setFpFifo_macMode (s : State) (v : Tbl (List (Nat × Nat))) : (s.setFpFifo v).macMode = s.macMode := (rfl)
@[simp] theorem State.setFpFifo_tod (s : State) (v : Tbl (List (Nat × Nat))) : (s.setFpFifo v).tod = s.tod := (rfl)
@[simp] theorem State.setFpFifo_lkp (s : State) (v : Tbl (List (Nat × Nat))) : (s.setFpFifo v).lkp = s.lkp := (rfl)
@[simp] theorem State.setFpFifo_queues (s : State) (v : Tbl (List (Nat × Nat))) : (s.setFpFifo v).queues = s.queues := (rfl)
@[simp] theorem State.setFpFifo_ports (s : State) (v : Tbl (List (Nat × Nat))) : (s.setFpFifo v).ports = s.ports := (rfl)
@[simp] theorem State.setFpFifo_pkt (s : State) (v : Tbl (List (Nat × Nat))) : (s.setFpFifo v).pkt = s.pkt := (rfl)
@[simp] theorem State.setFpFifo_cxl (s : State) (v : Tbl (List (Nat × Nat))) : (s.setFpFifo v).cxl = s.cxl := (rfl)
@[simp] theorem State.setFpFifo_ddr (s : State) (v : Tbl (List (Nat × Nat))) : (s.setFpFifo v).ddr = s.ddr := (rfl)
@[simp] theorem State.setFpFifo_regions (s : State) (v : Tbl (List (Nat × Nat))) : (s.setFpFifo v).regions = s.regions := (rfl)
@[simp] theorem State.setFpFifo_prots (s : State) (v : Tbl (List (Nat × Nat))) : (s.setFpFifo v).prots = s.prots := (rfl)
@[simp] theorem State.setFpFifo_keyStore (s : State) (v : Tbl (List (Nat × Nat))) : (s.setFpFifo v).keyStore = s.keyStore := (rfl)
@[simp] theorem State.setFpFifo_rings (s : State) (v : Tbl (List (Nat × Nat))) : (s.setFpFifo v).rings = s.rings := (rfl)
@[simp] theorem State.setFpFifo_openMem (s : State) (v : Tbl (List (Nat × Nat))) : (s.setFpFifo v).openMem = s.openMem := (rfl)
@[simp] theorem State.setFpFifo_dcRights (s : State) (v : Tbl (List (Nat × Nat))) : (s.setFpFifo v).dcRights = s.dcRights := (rfl)
@[simp] theorem State.setFpFifo_clk (s : State) (v : Tbl (List (Nat × Nat))) : (s.setFpFifo v).clk = s.clk := (rfl)
@[simp] theorem State.setFpFifo_units (s : State) (v : Tbl (List (Nat × Nat))) : (s.setFpFifo v).units = s.units := (rfl)
@[simp] theorem State.setFpFifo_hearthHit (s : State) (v : Tbl (List (Nat × Nat))) : (s.setFpFifo v).hearthHit = s.hearthHit := (rfl)
@[simp] theorem State.setEvtOnce_pending (s : State) (v : Tbl Nat) : (s.setEvtOnce v).pending = s.pending := (rfl)
@[simp] theorem State.setEvtOnce_regs (s : State) (v : Tbl Nat) : (s.setEvtOnce v).regs = s.regs := (rfl)
@[simp] theorem State.setEvtOnce_mem (s : State) (v : Tbl Nat) : (s.setEvtOnce v).mem = s.mem := (rfl)
@[simp] theorem State.setEvtOnce_poison (s : State) (v : Tbl Nat) : (s.setEvtOnce v).poison = s.poison := (rfl)
@[simp] theorem State.setEvtOnce_fresh (s : State) (v : Tbl Nat) : (s.setEvtOnce v).fresh = s.fresh := (rfl)
@[simp] theorem State.setEvtOnce_answer (s : State) (v : Tbl Nat) : (s.setEvtOnce v).answer = s.answer := (rfl)
@[simp] theorem State.setEvtOnce_answerStatus (s : State) (v : Tbl Nat) : (s.setEvtOnce v).answerStatus = s.answerStatus := (rfl)
@[simp] theorem State.setEvtOnce_book (s : State) (v : Tbl Nat) : (s.setEvtOnce v).book = s.book := (rfl)
@[simp] theorem State.setEvtOnce_mgt (s : State) (v : Tbl Nat) : (s.setEvtOnce v).mgt = s.mgt := (rfl)
@[simp] theorem State.setEvtOnce_fpFifo (s : State) (v : Tbl Nat) : (s.setEvtOnce v).fpFifo = s.fpFifo := (rfl)
@[simp] theorem State.setEvtOnce_evtOnce (s : State) (v : Tbl Nat) : (s.setEvtOnce v).evtOnce = v := (rfl)
@[simp] theorem State.setEvtOnce_cycles (s : State) (v : Tbl Nat) : (s.setEvtOnce v).cycles = s.cycles := (rfl)
@[simp] theorem State.setEvtOnce_pcie (s : State) (v : Tbl Nat) : (s.setEvtOnce v).pcie = s.pcie := (rfl)
@[simp] theorem State.setEvtOnce_sent (s : State) (v : Tbl Nat) : (s.setEvtOnce v).sent = s.sent := (rfl)
@[simp] theorem State.setEvtOnce_bw (s : State) (v : Tbl Nat) : (s.setEvtOnce v).bw = s.bw := (rfl)
@[simp] theorem State.setEvtOnce_pmcLatch (s : State) (v : Tbl Nat) : (s.setEvtOnce v).pmcLatch = s.pmcLatch := (rfl)
@[simp] theorem State.setEvtOnce_cal (s : State) (v : Tbl Nat) : (s.setEvtOnce v).cal = s.cal := (rfl)
@[simp] theorem State.setEvtOnce_cfg (s : State) (v : Tbl Nat) : (s.setEvtOnce v).cfg = s.cfg := (rfl)
@[simp] theorem State.setEvtOnce_tap (s : State) (v : Tbl Nat) : (s.setEvtOnce v).tap = s.tap := (rfl)
@[simp] theorem State.setEvtOnce_pins (s : State) (v : Tbl Nat) : (s.setEvtOnce v).pins = s.pins := (rfl)
@[simp] theorem State.setEvtOnce_frames (s : State) (v : Tbl Nat) : (s.setEvtOnce v).frames = s.frames := (rfl)
@[simp] theorem State.setEvtOnce_clusters (s : State) (v : Tbl Nat) : (s.setEvtOnce v).clusters = s.clusters := (rfl)
@[simp] theorem State.setEvtOnce_ffs (s : State) (v : Tbl Nat) : (s.setEvtOnce v).ffs = s.ffs := (rfl)
@[simp] theorem State.setEvtOnce_relStage (s : State) (v : Tbl Nat) : (s.setEvtOnce v).relStage = s.relStage := (rfl)
@[simp] theorem State.setEvtOnce_frozen (s : State) (v : Tbl Nat) : (s.setEvtOnce v).frozen = s.frozen := (rfl)
@[simp] theorem State.setEvtOnce_bramCfg (s : State) (v : Tbl Nat) : (s.setEvtOnce v).bramCfg = s.bramCfg := (rfl)
@[simp] theorem State.setEvtOnce_bram (s : State) (v : Tbl Nat) : (s.setEvtOnce v).bram = s.bram := (rfl)
@[simp] theorem State.setEvtOnce_bramPorts (s : State) (v : Tbl Nat) : (s.setEvtOnce v).bramPorts = s.bramPorts := (rfl)
@[simp] theorem State.setEvtOnce_multCfg (s : State) (v : Tbl Nat) : (s.setEvtOnce v).multCfg = s.multCfg := (rfl)
@[simp] theorem State.setEvtOnce_mults (s : State) (v : Tbl Nat) : (s.setEvtOnce v).mults = s.mults := (rfl)
@[simp] theorem State.setEvtOnce_railKeep (s : State) (v : Tbl Nat) : (s.setEvtOnce v).railKeep = s.railKeep := (rfl)
@[simp] theorem State.setEvtOnce_chk (s : State) (v : Tbl Nat) : (s.setEvtOnce v).chk = s.chk := (rfl)
@[simp] theorem State.setEvtOnce_eccRaw (s : State) (v : Tbl Nat) : (s.setEvtOnce v).eccRaw = s.eccRaw := (rfl)
@[simp] theorem State.setEvtOnce_eccScrub (s : State) (v : Tbl Nat) : (s.setEvtOnce v).eccScrub = s.eccScrub := (rfl)
@[simp] theorem State.setEvtOnce_tags (s : State) (v : Tbl Nat) : (s.setEvtOnce v).tags = s.tags := (rfl)
@[simp] theorem State.setEvtOnce_xUsed (s : State) (v : Tbl Nat) : (s.setEvtOnce v).xUsed = s.xUsed := (rfl)
@[simp] theorem State.setEvtOnce_xWait (s : State) (v : Tbl Nat) : (s.setEvtOnce v).xWait = s.xWait := (rfl)
@[simp] theorem State.setEvtOnce_xHeld (s : State) (v : Tbl Nat) : (s.setEvtOnce v).xHeld = s.xHeld := (rfl)
@[simp] theorem State.setEvtOnce_routers (s : State) (v : Tbl Nat) : (s.setEvtOnce v).routers = s.routers := (rfl)
@[simp] theorem State.setEvtOnce_portMode (s : State) (v : Tbl Nat) : (s.setEvtOnce v).portMode = s.portMode := (rfl)
@[simp] theorem State.setEvtOnce_portTags (s : State) (v : Tbl Nat) : (s.setEvtOnce v).portTags = s.portTags := (rfl)
@[simp] theorem State.setEvtOnce_portFifo (s : State) (v : Tbl Nat) : (s.setEvtOnce v).portFifo = s.portFifo := (rfl)
@[simp] theorem State.setEvtOnce_dcache (s : State) (v : Tbl Nat) : (s.setEvtOnce v).dcache = s.dcache := (rfl)
@[simp] theorem State.setEvtOnce_dir (s : State) (v : Tbl Nat) : (s.setEvtOnce v).dir = s.dir := (rfl)
@[simp] theorem State.setEvtOnce_dieResets (s : State) (v : Tbl Nat) : (s.setEvtOnce v).dieResets = s.dieResets := (rfl)
@[simp] theorem State.setEvtOnce_homeTxn (s : State) (v : Tbl Nat) : (s.setEvtOnce v).homeTxn = s.homeTxn := (rfl)
@[simp] theorem State.setEvtOnce_cores (s : State) (v : Tbl Nat) : (s.setEvtOnce v).cores = s.cores := (rfl)
@[simp] theorem State.setEvtOnce_tngDone (s : State) (v : Tbl Nat) : (s.setEvtOnce v).tngDone = s.tngDone := (rfl)
@[simp] theorem State.setEvtOnce_fab (s : State) (v : Tbl Nat) : (s.setEvtOnce v).fab = s.fab := (rfl)
@[simp] theorem State.setEvtOnce_net (s : State) (v : Tbl Nat) : (s.setEvtOnce v).net = s.net := (rfl)
@[simp] theorem State.setEvtOnce_rtrShare (s : State) (v : Tbl Nat) : (s.setEvtOnce v).rtrShare = s.rtrShare := (rfl)
@[simp] theorem State.setEvtOnce_dbg (s : State) (v : Tbl Nat) : (s.setEvtOnce v).dbg = s.dbg := (rfl)
@[simp] theorem State.setEvtOnce_dcWait (s : State) (v : Tbl Nat) : (s.setEvtOnce v).dcWait = s.dcWait := (rfl)
@[simp] theorem State.setEvtOnce_prcStep (s : State) (v : Tbl Nat) : (s.setEvtOnce v).prcStep = s.prcStep := (rfl)
@[simp] theorem State.setEvtOnce_prcBlank (s : State) (v : Tbl Nat) : (s.setEvtOnce v).prcBlank = s.prcBlank := (rfl)
@[simp] theorem State.setEvtOnce_prcHold (s : State) (v : Tbl Nat) : (s.setEvtOnce v).prcHold = s.prcHold := (rfl)
@[simp] theorem State.setEvtOnce_capWait (s : State) (v : Tbl Nat) : (s.setEvtOnce v).capWait = s.capWait := (rfl)
@[simp] theorem State.setEvtOnce_capture (s : State) (v : Tbl Nat) : (s.setEvtOnce v).capture = s.capture := (rfl)
@[simp] theorem State.setEvtOnce_bramDef (s : State) (v : Tbl Nat) : (s.setEvtOnce v).bramDef = s.bramDef := (rfl)
@[simp] theorem State.setEvtOnce_scrubs (s : State) (v : Tbl Nat) : (s.setEvtOnce v).scrubs = s.scrubs := (rfl)
@[simp] theorem State.setEvtOnce_scrCopy (s : State) (v : Tbl Nat) : (s.setEvtOnce v).scrCopy = s.scrCopy := (rfl)
@[simp] theorem State.setEvtOnce_releases (s : State) (v : Tbl Nat) : (s.setEvtOnce v).releases = s.releases := (rfl)
@[simp] theorem State.setEvtOnce_dieStep (s : State) (v : Tbl Nat) : (s.setEvtOnce v).dieStep = s.dieStep := (rfl)
@[simp] theorem State.setEvtOnce_clampDef (s : State) (v : Tbl Nat) : (s.setEvtOnce v).clampDef = s.clampDef := (rfl)
@[simp] theorem State.setEvtOnce_clamps (s : State) (v : Tbl Nat) : (s.setEvtOnce v).clamps = s.clamps := (rfl)
@[simp] theorem State.setEvtOnce_welds (s : State) (v : Tbl Nat) : (s.setEvtOnce v).welds = s.welds := (rfl)
@[simp] theorem State.setEvtOnce_lanes (s : State) (v : Tbl Nat) : (s.setEvtOnce v).lanes = s.lanes := (rfl)
@[simp] theorem State.setEvtOnce_macMode (s : State) (v : Tbl Nat) : (s.setEvtOnce v).macMode = s.macMode := (rfl)
@[simp] theorem State.setEvtOnce_tod (s : State) (v : Tbl Nat) : (s.setEvtOnce v).tod = s.tod := (rfl)
@[simp] theorem State.setEvtOnce_lkp (s : State) (v : Tbl Nat) : (s.setEvtOnce v).lkp = s.lkp := (rfl)
@[simp] theorem State.setEvtOnce_queues (s : State) (v : Tbl Nat) : (s.setEvtOnce v).queues = s.queues := (rfl)
@[simp] theorem State.setEvtOnce_ports (s : State) (v : Tbl Nat) : (s.setEvtOnce v).ports = s.ports := (rfl)
@[simp] theorem State.setEvtOnce_pkt (s : State) (v : Tbl Nat) : (s.setEvtOnce v).pkt = s.pkt := (rfl)
@[simp] theorem State.setEvtOnce_cxl (s : State) (v : Tbl Nat) : (s.setEvtOnce v).cxl = s.cxl := (rfl)
@[simp] theorem State.setEvtOnce_ddr (s : State) (v : Tbl Nat) : (s.setEvtOnce v).ddr = s.ddr := (rfl)
@[simp] theorem State.setEvtOnce_regions (s : State) (v : Tbl Nat) : (s.setEvtOnce v).regions = s.regions := (rfl)
@[simp] theorem State.setEvtOnce_prots (s : State) (v : Tbl Nat) : (s.setEvtOnce v).prots = s.prots := (rfl)
@[simp] theorem State.setEvtOnce_keyStore (s : State) (v : Tbl Nat) : (s.setEvtOnce v).keyStore = s.keyStore := (rfl)
@[simp] theorem State.setEvtOnce_rings (s : State) (v : Tbl Nat) : (s.setEvtOnce v).rings = s.rings := (rfl)
@[simp] theorem State.setEvtOnce_openMem (s : State) (v : Tbl Nat) : (s.setEvtOnce v).openMem = s.openMem := (rfl)
@[simp] theorem State.setEvtOnce_dcRights (s : State) (v : Tbl Nat) : (s.setEvtOnce v).dcRights = s.dcRights := (rfl)
@[simp] theorem State.setEvtOnce_clk (s : State) (v : Tbl Nat) : (s.setEvtOnce v).clk = s.clk := (rfl)
@[simp] theorem State.setEvtOnce_units (s : State) (v : Tbl Nat) : (s.setEvtOnce v).units = s.units := (rfl)
@[simp] theorem State.setEvtOnce_hearthHit (s : State) (v : Tbl Nat) : (s.setEvtOnce v).hearthHit = s.hearthHit := (rfl)
@[simp] theorem State.setCycles_pending (s : State) (v : Nat) : (s.setCycles v).pending = s.pending := (rfl)
@[simp] theorem State.setCycles_regs (s : State) (v : Nat) : (s.setCycles v).regs = s.regs := (rfl)
@[simp] theorem State.setCycles_mem (s : State) (v : Nat) : (s.setCycles v).mem = s.mem := (rfl)
@[simp] theorem State.setCycles_poison (s : State) (v : Nat) : (s.setCycles v).poison = s.poison := (rfl)
@[simp] theorem State.setCycles_fresh (s : State) (v : Nat) : (s.setCycles v).fresh = s.fresh := (rfl)
@[simp] theorem State.setCycles_answer (s : State) (v : Nat) : (s.setCycles v).answer = s.answer := (rfl)
@[simp] theorem State.setCycles_answerStatus (s : State) (v : Nat) : (s.setCycles v).answerStatus = s.answerStatus := (rfl)
@[simp] theorem State.setCycles_book (s : State) (v : Nat) : (s.setCycles v).book = s.book := (rfl)
@[simp] theorem State.setCycles_mgt (s : State) (v : Nat) : (s.setCycles v).mgt = s.mgt := (rfl)
@[simp] theorem State.setCycles_fpFifo (s : State) (v : Nat) : (s.setCycles v).fpFifo = s.fpFifo := (rfl)
@[simp] theorem State.setCycles_evtOnce (s : State) (v : Nat) : (s.setCycles v).evtOnce = s.evtOnce := (rfl)
@[simp] theorem State.setCycles_cycles (s : State) (v : Nat) : (s.setCycles v).cycles = v := (rfl)
@[simp] theorem State.setCycles_pcie (s : State) (v : Nat) : (s.setCycles v).pcie = s.pcie := (rfl)
@[simp] theorem State.setCycles_sent (s : State) (v : Nat) : (s.setCycles v).sent = s.sent := (rfl)
@[simp] theorem State.setCycles_bw (s : State) (v : Nat) : (s.setCycles v).bw = s.bw := (rfl)
@[simp] theorem State.setCycles_pmcLatch (s : State) (v : Nat) : (s.setCycles v).pmcLatch = s.pmcLatch := (rfl)
@[simp] theorem State.setCycles_cal (s : State) (v : Nat) : (s.setCycles v).cal = s.cal := (rfl)
@[simp] theorem State.setCycles_cfg (s : State) (v : Nat) : (s.setCycles v).cfg = s.cfg := (rfl)
@[simp] theorem State.setCycles_tap (s : State) (v : Nat) : (s.setCycles v).tap = s.tap := (rfl)
@[simp] theorem State.setCycles_pins (s : State) (v : Nat) : (s.setCycles v).pins = s.pins := (rfl)
@[simp] theorem State.setCycles_frames (s : State) (v : Nat) : (s.setCycles v).frames = s.frames := (rfl)
@[simp] theorem State.setCycles_clusters (s : State) (v : Nat) : (s.setCycles v).clusters = s.clusters := (rfl)
@[simp] theorem State.setCycles_ffs (s : State) (v : Nat) : (s.setCycles v).ffs = s.ffs := (rfl)
@[simp] theorem State.setCycles_relStage (s : State) (v : Nat) : (s.setCycles v).relStage = s.relStage := (rfl)
@[simp] theorem State.setCycles_frozen (s : State) (v : Nat) : (s.setCycles v).frozen = s.frozen := (rfl)
@[simp] theorem State.setCycles_bramCfg (s : State) (v : Nat) : (s.setCycles v).bramCfg = s.bramCfg := (rfl)
@[simp] theorem State.setCycles_bram (s : State) (v : Nat) : (s.setCycles v).bram = s.bram := (rfl)
@[simp] theorem State.setCycles_bramPorts (s : State) (v : Nat) : (s.setCycles v).bramPorts = s.bramPorts := (rfl)
@[simp] theorem State.setCycles_multCfg (s : State) (v : Nat) : (s.setCycles v).multCfg = s.multCfg := (rfl)
@[simp] theorem State.setCycles_mults (s : State) (v : Nat) : (s.setCycles v).mults = s.mults := (rfl)
@[simp] theorem State.setCycles_railKeep (s : State) (v : Nat) : (s.setCycles v).railKeep = s.railKeep := (rfl)
@[simp] theorem State.setCycles_chk (s : State) (v : Nat) : (s.setCycles v).chk = s.chk := (rfl)
@[simp] theorem State.setCycles_eccRaw (s : State) (v : Nat) : (s.setCycles v).eccRaw = s.eccRaw := (rfl)
@[simp] theorem State.setCycles_eccScrub (s : State) (v : Nat) : (s.setCycles v).eccScrub = s.eccScrub := (rfl)
@[simp] theorem State.setCycles_tags (s : State) (v : Nat) : (s.setCycles v).tags = s.tags := (rfl)
@[simp] theorem State.setCycles_xUsed (s : State) (v : Nat) : (s.setCycles v).xUsed = s.xUsed := (rfl)
@[simp] theorem State.setCycles_xWait (s : State) (v : Nat) : (s.setCycles v).xWait = s.xWait := (rfl)
@[simp] theorem State.setCycles_xHeld (s : State) (v : Nat) : (s.setCycles v).xHeld = s.xHeld := (rfl)
@[simp] theorem State.setCycles_routers (s : State) (v : Nat) : (s.setCycles v).routers = s.routers := (rfl)
@[simp] theorem State.setCycles_portMode (s : State) (v : Nat) : (s.setCycles v).portMode = s.portMode := (rfl)
@[simp] theorem State.setCycles_portTags (s : State) (v : Nat) : (s.setCycles v).portTags = s.portTags := (rfl)
@[simp] theorem State.setCycles_portFifo (s : State) (v : Nat) : (s.setCycles v).portFifo = s.portFifo := (rfl)
@[simp] theorem State.setCycles_dcache (s : State) (v : Nat) : (s.setCycles v).dcache = s.dcache := (rfl)
@[simp] theorem State.setCycles_dir (s : State) (v : Nat) : (s.setCycles v).dir = s.dir := (rfl)
@[simp] theorem State.setCycles_dieResets (s : State) (v : Nat) : (s.setCycles v).dieResets = s.dieResets := (rfl)
@[simp] theorem State.setCycles_homeTxn (s : State) (v : Nat) : (s.setCycles v).homeTxn = s.homeTxn := (rfl)
@[simp] theorem State.setCycles_cores (s : State) (v : Nat) : (s.setCycles v).cores = s.cores := (rfl)
@[simp] theorem State.setCycles_tngDone (s : State) (v : Nat) : (s.setCycles v).tngDone = s.tngDone := (rfl)
@[simp] theorem State.setCycles_fab (s : State) (v : Nat) : (s.setCycles v).fab = s.fab := (rfl)
@[simp] theorem State.setCycles_net (s : State) (v : Nat) : (s.setCycles v).net = s.net := (rfl)
@[simp] theorem State.setCycles_rtrShare (s : State) (v : Nat) : (s.setCycles v).rtrShare = s.rtrShare := (rfl)
@[simp] theorem State.setCycles_dbg (s : State) (v : Nat) : (s.setCycles v).dbg = s.dbg := (rfl)
@[simp] theorem State.setCycles_dcWait (s : State) (v : Nat) : (s.setCycles v).dcWait = s.dcWait := (rfl)
@[simp] theorem State.setCycles_prcStep (s : State) (v : Nat) : (s.setCycles v).prcStep = s.prcStep := (rfl)
@[simp] theorem State.setCycles_prcBlank (s : State) (v : Nat) : (s.setCycles v).prcBlank = s.prcBlank := (rfl)
@[simp] theorem State.setCycles_prcHold (s : State) (v : Nat) : (s.setCycles v).prcHold = s.prcHold := (rfl)
@[simp] theorem State.setCycles_capWait (s : State) (v : Nat) : (s.setCycles v).capWait = s.capWait := (rfl)
@[simp] theorem State.setCycles_capture (s : State) (v : Nat) : (s.setCycles v).capture = s.capture := (rfl)
@[simp] theorem State.setCycles_bramDef (s : State) (v : Nat) : (s.setCycles v).bramDef = s.bramDef := (rfl)
@[simp] theorem State.setCycles_scrubs (s : State) (v : Nat) : (s.setCycles v).scrubs = s.scrubs := (rfl)
@[simp] theorem State.setCycles_scrCopy (s : State) (v : Nat) : (s.setCycles v).scrCopy = s.scrCopy := (rfl)
@[simp] theorem State.setCycles_releases (s : State) (v : Nat) : (s.setCycles v).releases = s.releases := (rfl)
@[simp] theorem State.setCycles_dieStep (s : State) (v : Nat) : (s.setCycles v).dieStep = s.dieStep := (rfl)
@[simp] theorem State.setCycles_clampDef (s : State) (v : Nat) : (s.setCycles v).clampDef = s.clampDef := (rfl)
@[simp] theorem State.setCycles_clamps (s : State) (v : Nat) : (s.setCycles v).clamps = s.clamps := (rfl)
@[simp] theorem State.setCycles_welds (s : State) (v : Nat) : (s.setCycles v).welds = s.welds := (rfl)
@[simp] theorem State.setCycles_lanes (s : State) (v : Nat) : (s.setCycles v).lanes = s.lanes := (rfl)
@[simp] theorem State.setCycles_macMode (s : State) (v : Nat) : (s.setCycles v).macMode = s.macMode := (rfl)
@[simp] theorem State.setCycles_tod (s : State) (v : Nat) : (s.setCycles v).tod = s.tod := (rfl)
@[simp] theorem State.setCycles_lkp (s : State) (v : Nat) : (s.setCycles v).lkp = s.lkp := (rfl)
@[simp] theorem State.setCycles_queues (s : State) (v : Nat) : (s.setCycles v).queues = s.queues := (rfl)
@[simp] theorem State.setCycles_ports (s : State) (v : Nat) : (s.setCycles v).ports = s.ports := (rfl)
@[simp] theorem State.setCycles_pkt (s : State) (v : Nat) : (s.setCycles v).pkt = s.pkt := (rfl)
@[simp] theorem State.setCycles_cxl (s : State) (v : Nat) : (s.setCycles v).cxl = s.cxl := (rfl)
@[simp] theorem State.setCycles_ddr (s : State) (v : Nat) : (s.setCycles v).ddr = s.ddr := (rfl)
@[simp] theorem State.setCycles_regions (s : State) (v : Nat) : (s.setCycles v).regions = s.regions := (rfl)
@[simp] theorem State.setCycles_prots (s : State) (v : Nat) : (s.setCycles v).prots = s.prots := (rfl)
@[simp] theorem State.setCycles_keyStore (s : State) (v : Nat) : (s.setCycles v).keyStore = s.keyStore := (rfl)
@[simp] theorem State.setCycles_rings (s : State) (v : Nat) : (s.setCycles v).rings = s.rings := (rfl)
@[simp] theorem State.setCycles_openMem (s : State) (v : Nat) : (s.setCycles v).openMem = s.openMem := (rfl)
@[simp] theorem State.setCycles_dcRights (s : State) (v : Nat) : (s.setCycles v).dcRights = s.dcRights := (rfl)
@[simp] theorem State.setCycles_clk (s : State) (v : Nat) : (s.setCycles v).clk = s.clk := (rfl)
@[simp] theorem State.setCycles_units (s : State) (v : Nat) : (s.setCycles v).units = s.units := (rfl)
@[simp] theorem State.setCycles_hearthHit (s : State) (v : Nat) : (s.setCycles v).hearthHit = s.hearthHit := (rfl)
@[simp] theorem State.setPcie_pending (s : State) (v : Pcie) : (s.setPcie v).pending = s.pending := (rfl)
@[simp] theorem State.setPcie_regs (s : State) (v : Pcie) : (s.setPcie v).regs = s.regs := (rfl)
@[simp] theorem State.setPcie_mem (s : State) (v : Pcie) : (s.setPcie v).mem = s.mem := (rfl)
@[simp] theorem State.setPcie_poison (s : State) (v : Pcie) : (s.setPcie v).poison = s.poison := (rfl)
@[simp] theorem State.setPcie_fresh (s : State) (v : Pcie) : (s.setPcie v).fresh = s.fresh := (rfl)
@[simp] theorem State.setPcie_answer (s : State) (v : Pcie) : (s.setPcie v).answer = s.answer := (rfl)
@[simp] theorem State.setPcie_answerStatus (s : State) (v : Pcie) : (s.setPcie v).answerStatus = s.answerStatus := (rfl)
@[simp] theorem State.setPcie_book (s : State) (v : Pcie) : (s.setPcie v).book = s.book := (rfl)
@[simp] theorem State.setPcie_mgt (s : State) (v : Pcie) : (s.setPcie v).mgt = s.mgt := (rfl)
@[simp] theorem State.setPcie_fpFifo (s : State) (v : Pcie) : (s.setPcie v).fpFifo = s.fpFifo := (rfl)
@[simp] theorem State.setPcie_evtOnce (s : State) (v : Pcie) : (s.setPcie v).evtOnce = s.evtOnce := (rfl)
@[simp] theorem State.setPcie_cycles (s : State) (v : Pcie) : (s.setPcie v).cycles = s.cycles := (rfl)
@[simp] theorem State.setPcie_pcie (s : State) (v : Pcie) : (s.setPcie v).pcie = v := (rfl)
@[simp] theorem State.setPcie_sent (s : State) (v : Pcie) : (s.setPcie v).sent = s.sent := (rfl)
@[simp] theorem State.setPcie_bw (s : State) (v : Pcie) : (s.setPcie v).bw = s.bw := (rfl)
@[simp] theorem State.setPcie_pmcLatch (s : State) (v : Pcie) : (s.setPcie v).pmcLatch = s.pmcLatch := (rfl)
@[simp] theorem State.setPcie_cal (s : State) (v : Pcie) : (s.setPcie v).cal = s.cal := (rfl)
@[simp] theorem State.setPcie_cfg (s : State) (v : Pcie) : (s.setPcie v).cfg = s.cfg := (rfl)
@[simp] theorem State.setPcie_tap (s : State) (v : Pcie) : (s.setPcie v).tap = s.tap := (rfl)
@[simp] theorem State.setPcie_pins (s : State) (v : Pcie) : (s.setPcie v).pins = s.pins := (rfl)
@[simp] theorem State.setPcie_frames (s : State) (v : Pcie) : (s.setPcie v).frames = s.frames := (rfl)
@[simp] theorem State.setPcie_clusters (s : State) (v : Pcie) : (s.setPcie v).clusters = s.clusters := (rfl)
@[simp] theorem State.setPcie_ffs (s : State) (v : Pcie) : (s.setPcie v).ffs = s.ffs := (rfl)
@[simp] theorem State.setPcie_relStage (s : State) (v : Pcie) : (s.setPcie v).relStage = s.relStage := (rfl)
@[simp] theorem State.setPcie_frozen (s : State) (v : Pcie) : (s.setPcie v).frozen = s.frozen := (rfl)
@[simp] theorem State.setPcie_bramCfg (s : State) (v : Pcie) : (s.setPcie v).bramCfg = s.bramCfg := (rfl)
@[simp] theorem State.setPcie_bram (s : State) (v : Pcie) : (s.setPcie v).bram = s.bram := (rfl)
@[simp] theorem State.setPcie_bramPorts (s : State) (v : Pcie) : (s.setPcie v).bramPorts = s.bramPorts := (rfl)
@[simp] theorem State.setPcie_multCfg (s : State) (v : Pcie) : (s.setPcie v).multCfg = s.multCfg := (rfl)
@[simp] theorem State.setPcie_mults (s : State) (v : Pcie) : (s.setPcie v).mults = s.mults := (rfl)
@[simp] theorem State.setPcie_railKeep (s : State) (v : Pcie) : (s.setPcie v).railKeep = s.railKeep := (rfl)
@[simp] theorem State.setPcie_chk (s : State) (v : Pcie) : (s.setPcie v).chk = s.chk := (rfl)
@[simp] theorem State.setPcie_eccRaw (s : State) (v : Pcie) : (s.setPcie v).eccRaw = s.eccRaw := (rfl)
@[simp] theorem State.setPcie_eccScrub (s : State) (v : Pcie) : (s.setPcie v).eccScrub = s.eccScrub := (rfl)
@[simp] theorem State.setPcie_tags (s : State) (v : Pcie) : (s.setPcie v).tags = s.tags := (rfl)
@[simp] theorem State.setPcie_xUsed (s : State) (v : Pcie) : (s.setPcie v).xUsed = s.xUsed := (rfl)
@[simp] theorem State.setPcie_xWait (s : State) (v : Pcie) : (s.setPcie v).xWait = s.xWait := (rfl)
@[simp] theorem State.setPcie_xHeld (s : State) (v : Pcie) : (s.setPcie v).xHeld = s.xHeld := (rfl)
@[simp] theorem State.setPcie_routers (s : State) (v : Pcie) : (s.setPcie v).routers = s.routers := (rfl)
@[simp] theorem State.setPcie_portMode (s : State) (v : Pcie) : (s.setPcie v).portMode = s.portMode := (rfl)
@[simp] theorem State.setPcie_portTags (s : State) (v : Pcie) : (s.setPcie v).portTags = s.portTags := (rfl)
@[simp] theorem State.setPcie_portFifo (s : State) (v : Pcie) : (s.setPcie v).portFifo = s.portFifo := (rfl)
@[simp] theorem State.setPcie_dcache (s : State) (v : Pcie) : (s.setPcie v).dcache = s.dcache := (rfl)
@[simp] theorem State.setPcie_dir (s : State) (v : Pcie) : (s.setPcie v).dir = s.dir := (rfl)
@[simp] theorem State.setPcie_dieResets (s : State) (v : Pcie) : (s.setPcie v).dieResets = s.dieResets := (rfl)
@[simp] theorem State.setPcie_homeTxn (s : State) (v : Pcie) : (s.setPcie v).homeTxn = s.homeTxn := (rfl)
@[simp] theorem State.setPcie_cores (s : State) (v : Pcie) : (s.setPcie v).cores = s.cores := (rfl)
@[simp] theorem State.setPcie_tngDone (s : State) (v : Pcie) : (s.setPcie v).tngDone = s.tngDone := (rfl)
@[simp] theorem State.setPcie_fab (s : State) (v : Pcie) : (s.setPcie v).fab = s.fab := (rfl)
@[simp] theorem State.setPcie_net (s : State) (v : Pcie) : (s.setPcie v).net = s.net := (rfl)
@[simp] theorem State.setPcie_rtrShare (s : State) (v : Pcie) : (s.setPcie v).rtrShare = s.rtrShare := (rfl)
@[simp] theorem State.setPcie_dbg (s : State) (v : Pcie) : (s.setPcie v).dbg = s.dbg := (rfl)
@[simp] theorem State.setPcie_dcWait (s : State) (v : Pcie) : (s.setPcie v).dcWait = s.dcWait := (rfl)
@[simp] theorem State.setPcie_prcStep (s : State) (v : Pcie) : (s.setPcie v).prcStep = s.prcStep := (rfl)
@[simp] theorem State.setPcie_prcBlank (s : State) (v : Pcie) : (s.setPcie v).prcBlank = s.prcBlank := (rfl)
@[simp] theorem State.setPcie_prcHold (s : State) (v : Pcie) : (s.setPcie v).prcHold = s.prcHold := (rfl)
@[simp] theorem State.setPcie_capWait (s : State) (v : Pcie) : (s.setPcie v).capWait = s.capWait := (rfl)
@[simp] theorem State.setPcie_capture (s : State) (v : Pcie) : (s.setPcie v).capture = s.capture := (rfl)
@[simp] theorem State.setPcie_bramDef (s : State) (v : Pcie) : (s.setPcie v).bramDef = s.bramDef := (rfl)
@[simp] theorem State.setPcie_scrubs (s : State) (v : Pcie) : (s.setPcie v).scrubs = s.scrubs := (rfl)
@[simp] theorem State.setPcie_scrCopy (s : State) (v : Pcie) : (s.setPcie v).scrCopy = s.scrCopy := (rfl)
@[simp] theorem State.setPcie_releases (s : State) (v : Pcie) : (s.setPcie v).releases = s.releases := (rfl)
@[simp] theorem State.setPcie_dieStep (s : State) (v : Pcie) : (s.setPcie v).dieStep = s.dieStep := (rfl)
@[simp] theorem State.setPcie_clampDef (s : State) (v : Pcie) : (s.setPcie v).clampDef = s.clampDef := (rfl)
@[simp] theorem State.setPcie_clamps (s : State) (v : Pcie) : (s.setPcie v).clamps = s.clamps := (rfl)
@[simp] theorem State.setPcie_welds (s : State) (v : Pcie) : (s.setPcie v).welds = s.welds := (rfl)
@[simp] theorem State.setPcie_lanes (s : State) (v : Pcie) : (s.setPcie v).lanes = s.lanes := (rfl)
@[simp] theorem State.setPcie_macMode (s : State) (v : Pcie) : (s.setPcie v).macMode = s.macMode := (rfl)
@[simp] theorem State.setPcie_tod (s : State) (v : Pcie) : (s.setPcie v).tod = s.tod := (rfl)
@[simp] theorem State.setPcie_lkp (s : State) (v : Pcie) : (s.setPcie v).lkp = s.lkp := (rfl)
@[simp] theorem State.setPcie_queues (s : State) (v : Pcie) : (s.setPcie v).queues = s.queues := (rfl)
@[simp] theorem State.setPcie_ports (s : State) (v : Pcie) : (s.setPcie v).ports = s.ports := (rfl)
@[simp] theorem State.setPcie_pkt (s : State) (v : Pcie) : (s.setPcie v).pkt = s.pkt := (rfl)
@[simp] theorem State.setPcie_cxl (s : State) (v : Pcie) : (s.setPcie v).cxl = s.cxl := (rfl)
@[simp] theorem State.setPcie_ddr (s : State) (v : Pcie) : (s.setPcie v).ddr = s.ddr := (rfl)
@[simp] theorem State.setPcie_regions (s : State) (v : Pcie) : (s.setPcie v).regions = s.regions := (rfl)
@[simp] theorem State.setPcie_prots (s : State) (v : Pcie) : (s.setPcie v).prots = s.prots := (rfl)
@[simp] theorem State.setPcie_keyStore (s : State) (v : Pcie) : (s.setPcie v).keyStore = s.keyStore := (rfl)
@[simp] theorem State.setPcie_rings (s : State) (v : Pcie) : (s.setPcie v).rings = s.rings := (rfl)
@[simp] theorem State.setPcie_openMem (s : State) (v : Pcie) : (s.setPcie v).openMem = s.openMem := (rfl)
@[simp] theorem State.setPcie_dcRights (s : State) (v : Pcie) : (s.setPcie v).dcRights = s.dcRights := (rfl)
@[simp] theorem State.setPcie_clk (s : State) (v : Pcie) : (s.setPcie v).clk = s.clk := (rfl)
@[simp] theorem State.setPcie_units (s : State) (v : Pcie) : (s.setPcie v).units = s.units := (rfl)
@[simp] theorem State.setPcie_hearthHit (s : State) (v : Pcie) : (s.setPcie v).hearthHit = s.hearthHit := (rfl)
@[simp] theorem State.setSent_pending (s : State) (v : List Emit) : (s.setSent v).pending = s.pending := (rfl)
@[simp] theorem State.setSent_regs (s : State) (v : List Emit) : (s.setSent v).regs = s.regs := (rfl)
@[simp] theorem State.setSent_mem (s : State) (v : List Emit) : (s.setSent v).mem = s.mem := (rfl)
@[simp] theorem State.setSent_poison (s : State) (v : List Emit) : (s.setSent v).poison = s.poison := (rfl)
@[simp] theorem State.setSent_fresh (s : State) (v : List Emit) : (s.setSent v).fresh = s.fresh := (rfl)
@[simp] theorem State.setSent_answer (s : State) (v : List Emit) : (s.setSent v).answer = s.answer := (rfl)
@[simp] theorem State.setSent_answerStatus (s : State) (v : List Emit) : (s.setSent v).answerStatus = s.answerStatus := (rfl)
@[simp] theorem State.setSent_book (s : State) (v : List Emit) : (s.setSent v).book = s.book := (rfl)
@[simp] theorem State.setSent_mgt (s : State) (v : List Emit) : (s.setSent v).mgt = s.mgt := (rfl)
@[simp] theorem State.setSent_fpFifo (s : State) (v : List Emit) : (s.setSent v).fpFifo = s.fpFifo := (rfl)
@[simp] theorem State.setSent_evtOnce (s : State) (v : List Emit) : (s.setSent v).evtOnce = s.evtOnce := (rfl)
@[simp] theorem State.setSent_cycles (s : State) (v : List Emit) : (s.setSent v).cycles = s.cycles := (rfl)
@[simp] theorem State.setSent_pcie (s : State) (v : List Emit) : (s.setSent v).pcie = s.pcie := (rfl)
@[simp] theorem State.setSent_sent (s : State) (v : List Emit) : (s.setSent v).sent = v := (rfl)
@[simp] theorem State.setSent_bw (s : State) (v : List Emit) : (s.setSent v).bw = s.bw := (rfl)
@[simp] theorem State.setSent_pmcLatch (s : State) (v : List Emit) : (s.setSent v).pmcLatch = s.pmcLatch := (rfl)
@[simp] theorem State.setSent_cal (s : State) (v : List Emit) : (s.setSent v).cal = s.cal := (rfl)
@[simp] theorem State.setSent_cfg (s : State) (v : List Emit) : (s.setSent v).cfg = s.cfg := (rfl)
@[simp] theorem State.setSent_tap (s : State) (v : List Emit) : (s.setSent v).tap = s.tap := (rfl)
@[simp] theorem State.setSent_pins (s : State) (v : List Emit) : (s.setSent v).pins = s.pins := (rfl)
@[simp] theorem State.setSent_frames (s : State) (v : List Emit) : (s.setSent v).frames = s.frames := (rfl)
@[simp] theorem State.setSent_clusters (s : State) (v : List Emit) : (s.setSent v).clusters = s.clusters := (rfl)
@[simp] theorem State.setSent_ffs (s : State) (v : List Emit) : (s.setSent v).ffs = s.ffs := (rfl)
@[simp] theorem State.setSent_relStage (s : State) (v : List Emit) : (s.setSent v).relStage = s.relStage := (rfl)
@[simp] theorem State.setSent_frozen (s : State) (v : List Emit) : (s.setSent v).frozen = s.frozen := (rfl)
@[simp] theorem State.setSent_bramCfg (s : State) (v : List Emit) : (s.setSent v).bramCfg = s.bramCfg := (rfl)
@[simp] theorem State.setSent_bram (s : State) (v : List Emit) : (s.setSent v).bram = s.bram := (rfl)
@[simp] theorem State.setSent_bramPorts (s : State) (v : List Emit) : (s.setSent v).bramPorts = s.bramPorts := (rfl)
@[simp] theorem State.setSent_multCfg (s : State) (v : List Emit) : (s.setSent v).multCfg = s.multCfg := (rfl)
@[simp] theorem State.setSent_mults (s : State) (v : List Emit) : (s.setSent v).mults = s.mults := (rfl)
@[simp] theorem State.setSent_railKeep (s : State) (v : List Emit) : (s.setSent v).railKeep = s.railKeep := (rfl)
@[simp] theorem State.setSent_chk (s : State) (v : List Emit) : (s.setSent v).chk = s.chk := (rfl)
@[simp] theorem State.setSent_eccRaw (s : State) (v : List Emit) : (s.setSent v).eccRaw = s.eccRaw := (rfl)
@[simp] theorem State.setSent_eccScrub (s : State) (v : List Emit) : (s.setSent v).eccScrub = s.eccScrub := (rfl)
@[simp] theorem State.setSent_tags (s : State) (v : List Emit) : (s.setSent v).tags = s.tags := (rfl)
@[simp] theorem State.setSent_xUsed (s : State) (v : List Emit) : (s.setSent v).xUsed = s.xUsed := (rfl)
@[simp] theorem State.setSent_xWait (s : State) (v : List Emit) : (s.setSent v).xWait = s.xWait := (rfl)
@[simp] theorem State.setSent_xHeld (s : State) (v : List Emit) : (s.setSent v).xHeld = s.xHeld := (rfl)
@[simp] theorem State.setSent_routers (s : State) (v : List Emit) : (s.setSent v).routers = s.routers := (rfl)
@[simp] theorem State.setSent_portMode (s : State) (v : List Emit) : (s.setSent v).portMode = s.portMode := (rfl)
@[simp] theorem State.setSent_portTags (s : State) (v : List Emit) : (s.setSent v).portTags = s.portTags := (rfl)
@[simp] theorem State.setSent_portFifo (s : State) (v : List Emit) : (s.setSent v).portFifo = s.portFifo := (rfl)
@[simp] theorem State.setSent_dcache (s : State) (v : List Emit) : (s.setSent v).dcache = s.dcache := (rfl)
@[simp] theorem State.setSent_dir (s : State) (v : List Emit) : (s.setSent v).dir = s.dir := (rfl)
@[simp] theorem State.setSent_dieResets (s : State) (v : List Emit) : (s.setSent v).dieResets = s.dieResets := (rfl)
@[simp] theorem State.setSent_homeTxn (s : State) (v : List Emit) : (s.setSent v).homeTxn = s.homeTxn := (rfl)
@[simp] theorem State.setSent_cores (s : State) (v : List Emit) : (s.setSent v).cores = s.cores := (rfl)
@[simp] theorem State.setSent_tngDone (s : State) (v : List Emit) : (s.setSent v).tngDone = s.tngDone := (rfl)
@[simp] theorem State.setSent_fab (s : State) (v : List Emit) : (s.setSent v).fab = s.fab := (rfl)
@[simp] theorem State.setSent_net (s : State) (v : List Emit) : (s.setSent v).net = s.net := (rfl)
@[simp] theorem State.setSent_rtrShare (s : State) (v : List Emit) : (s.setSent v).rtrShare = s.rtrShare := (rfl)
@[simp] theorem State.setSent_dbg (s : State) (v : List Emit) : (s.setSent v).dbg = s.dbg := (rfl)
@[simp] theorem State.setSent_dcWait (s : State) (v : List Emit) : (s.setSent v).dcWait = s.dcWait := (rfl)
@[simp] theorem State.setSent_prcStep (s : State) (v : List Emit) : (s.setSent v).prcStep = s.prcStep := (rfl)
@[simp] theorem State.setSent_prcBlank (s : State) (v : List Emit) : (s.setSent v).prcBlank = s.prcBlank := (rfl)
@[simp] theorem State.setSent_prcHold (s : State) (v : List Emit) : (s.setSent v).prcHold = s.prcHold := (rfl)
@[simp] theorem State.setSent_capWait (s : State) (v : List Emit) : (s.setSent v).capWait = s.capWait := (rfl)
@[simp] theorem State.setSent_capture (s : State) (v : List Emit) : (s.setSent v).capture = s.capture := (rfl)
@[simp] theorem State.setSent_bramDef (s : State) (v : List Emit) : (s.setSent v).bramDef = s.bramDef := (rfl)
@[simp] theorem State.setSent_scrubs (s : State) (v : List Emit) : (s.setSent v).scrubs = s.scrubs := (rfl)
@[simp] theorem State.setSent_scrCopy (s : State) (v : List Emit) : (s.setSent v).scrCopy = s.scrCopy := (rfl)
@[simp] theorem State.setSent_releases (s : State) (v : List Emit) : (s.setSent v).releases = s.releases := (rfl)
@[simp] theorem State.setSent_dieStep (s : State) (v : List Emit) : (s.setSent v).dieStep = s.dieStep := (rfl)
@[simp] theorem State.setSent_clampDef (s : State) (v : List Emit) : (s.setSent v).clampDef = s.clampDef := (rfl)
@[simp] theorem State.setSent_clamps (s : State) (v : List Emit) : (s.setSent v).clamps = s.clamps := (rfl)
@[simp] theorem State.setSent_welds (s : State) (v : List Emit) : (s.setSent v).welds = s.welds := (rfl)
@[simp] theorem State.setSent_lanes (s : State) (v : List Emit) : (s.setSent v).lanes = s.lanes := (rfl)
@[simp] theorem State.setSent_macMode (s : State) (v : List Emit) : (s.setSent v).macMode = s.macMode := (rfl)
@[simp] theorem State.setSent_tod (s : State) (v : List Emit) : (s.setSent v).tod = s.tod := (rfl)
@[simp] theorem State.setSent_lkp (s : State) (v : List Emit) : (s.setSent v).lkp = s.lkp := (rfl)
@[simp] theorem State.setSent_queues (s : State) (v : List Emit) : (s.setSent v).queues = s.queues := (rfl)
@[simp] theorem State.setSent_ports (s : State) (v : List Emit) : (s.setSent v).ports = s.ports := (rfl)
@[simp] theorem State.setSent_pkt (s : State) (v : List Emit) : (s.setSent v).pkt = s.pkt := (rfl)
@[simp] theorem State.setSent_cxl (s : State) (v : List Emit) : (s.setSent v).cxl = s.cxl := (rfl)
@[simp] theorem State.setSent_ddr (s : State) (v : List Emit) : (s.setSent v).ddr = s.ddr := (rfl)
@[simp] theorem State.setSent_regions (s : State) (v : List Emit) : (s.setSent v).regions = s.regions := (rfl)
@[simp] theorem State.setSent_prots (s : State) (v : List Emit) : (s.setSent v).prots = s.prots := (rfl)
@[simp] theorem State.setSent_keyStore (s : State) (v : List Emit) : (s.setSent v).keyStore = s.keyStore := (rfl)
@[simp] theorem State.setSent_rings (s : State) (v : List Emit) : (s.setSent v).rings = s.rings := (rfl)
@[simp] theorem State.setSent_openMem (s : State) (v : List Emit) : (s.setSent v).openMem = s.openMem := (rfl)
@[simp] theorem State.setSent_dcRights (s : State) (v : List Emit) : (s.setSent v).dcRights = s.dcRights := (rfl)
@[simp] theorem State.setSent_clk (s : State) (v : List Emit) : (s.setSent v).clk = s.clk := (rfl)
@[simp] theorem State.setSent_units (s : State) (v : List Emit) : (s.setSent v).units = s.units := (rfl)
@[simp] theorem State.setSent_hearthHit (s : State) (v : List Emit) : (s.setSent v).hearthHit = s.hearthHit := (rfl)
@[simp] theorem State.setBw_pending (s : State) (v : Tbl BwMon) : (s.setBw v).pending = s.pending := (rfl)
@[simp] theorem State.setBw_regs (s : State) (v : Tbl BwMon) : (s.setBw v).regs = s.regs := (rfl)
@[simp] theorem State.setBw_mem (s : State) (v : Tbl BwMon) : (s.setBw v).mem = s.mem := (rfl)
@[simp] theorem State.setBw_poison (s : State) (v : Tbl BwMon) : (s.setBw v).poison = s.poison := (rfl)
@[simp] theorem State.setBw_fresh (s : State) (v : Tbl BwMon) : (s.setBw v).fresh = s.fresh := (rfl)
@[simp] theorem State.setBw_answer (s : State) (v : Tbl BwMon) : (s.setBw v).answer = s.answer := (rfl)
@[simp] theorem State.setBw_answerStatus (s : State) (v : Tbl BwMon) : (s.setBw v).answerStatus = s.answerStatus := (rfl)
@[simp] theorem State.setBw_book (s : State) (v : Tbl BwMon) : (s.setBw v).book = s.book := (rfl)
@[simp] theorem State.setBw_mgt (s : State) (v : Tbl BwMon) : (s.setBw v).mgt = s.mgt := (rfl)
@[simp] theorem State.setBw_fpFifo (s : State) (v : Tbl BwMon) : (s.setBw v).fpFifo = s.fpFifo := (rfl)
@[simp] theorem State.setBw_evtOnce (s : State) (v : Tbl BwMon) : (s.setBw v).evtOnce = s.evtOnce := (rfl)
@[simp] theorem State.setBw_cycles (s : State) (v : Tbl BwMon) : (s.setBw v).cycles = s.cycles := (rfl)
@[simp] theorem State.setBw_pcie (s : State) (v : Tbl BwMon) : (s.setBw v).pcie = s.pcie := (rfl)
@[simp] theorem State.setBw_sent (s : State) (v : Tbl BwMon) : (s.setBw v).sent = s.sent := (rfl)
@[simp] theorem State.setBw_bw (s : State) (v : Tbl BwMon) : (s.setBw v).bw = v := (rfl)
@[simp] theorem State.setBw_pmcLatch (s : State) (v : Tbl BwMon) : (s.setBw v).pmcLatch = s.pmcLatch := (rfl)
@[simp] theorem State.setBw_cal (s : State) (v : Tbl BwMon) : (s.setBw v).cal = s.cal := (rfl)
@[simp] theorem State.setBw_cfg (s : State) (v : Tbl BwMon) : (s.setBw v).cfg = s.cfg := (rfl)
@[simp] theorem State.setBw_tap (s : State) (v : Tbl BwMon) : (s.setBw v).tap = s.tap := (rfl)
@[simp] theorem State.setBw_pins (s : State) (v : Tbl BwMon) : (s.setBw v).pins = s.pins := (rfl)
@[simp] theorem State.setBw_frames (s : State) (v : Tbl BwMon) : (s.setBw v).frames = s.frames := (rfl)
@[simp] theorem State.setBw_clusters (s : State) (v : Tbl BwMon) : (s.setBw v).clusters = s.clusters := (rfl)
@[simp] theorem State.setBw_ffs (s : State) (v : Tbl BwMon) : (s.setBw v).ffs = s.ffs := (rfl)
@[simp] theorem State.setBw_relStage (s : State) (v : Tbl BwMon) : (s.setBw v).relStage = s.relStage := (rfl)
@[simp] theorem State.setBw_frozen (s : State) (v : Tbl BwMon) : (s.setBw v).frozen = s.frozen := (rfl)
@[simp] theorem State.setBw_bramCfg (s : State) (v : Tbl BwMon) : (s.setBw v).bramCfg = s.bramCfg := (rfl)
@[simp] theorem State.setBw_bram (s : State) (v : Tbl BwMon) : (s.setBw v).bram = s.bram := (rfl)
@[simp] theorem State.setBw_bramPorts (s : State) (v : Tbl BwMon) : (s.setBw v).bramPorts = s.bramPorts := (rfl)
@[simp] theorem State.setBw_multCfg (s : State) (v : Tbl BwMon) : (s.setBw v).multCfg = s.multCfg := (rfl)
@[simp] theorem State.setBw_mults (s : State) (v : Tbl BwMon) : (s.setBw v).mults = s.mults := (rfl)
@[simp] theorem State.setBw_railKeep (s : State) (v : Tbl BwMon) : (s.setBw v).railKeep = s.railKeep := (rfl)
@[simp] theorem State.setBw_chk (s : State) (v : Tbl BwMon) : (s.setBw v).chk = s.chk := (rfl)
@[simp] theorem State.setBw_eccRaw (s : State) (v : Tbl BwMon) : (s.setBw v).eccRaw = s.eccRaw := (rfl)
@[simp] theorem State.setBw_eccScrub (s : State) (v : Tbl BwMon) : (s.setBw v).eccScrub = s.eccScrub := (rfl)
@[simp] theorem State.setBw_tags (s : State) (v : Tbl BwMon) : (s.setBw v).tags = s.tags := (rfl)
@[simp] theorem State.setBw_xUsed (s : State) (v : Tbl BwMon) : (s.setBw v).xUsed = s.xUsed := (rfl)
@[simp] theorem State.setBw_xWait (s : State) (v : Tbl BwMon) : (s.setBw v).xWait = s.xWait := (rfl)
@[simp] theorem State.setBw_xHeld (s : State) (v : Tbl BwMon) : (s.setBw v).xHeld = s.xHeld := (rfl)
@[simp] theorem State.setBw_routers (s : State) (v : Tbl BwMon) : (s.setBw v).routers = s.routers := (rfl)
@[simp] theorem State.setBw_portMode (s : State) (v : Tbl BwMon) : (s.setBw v).portMode = s.portMode := (rfl)
@[simp] theorem State.setBw_portTags (s : State) (v : Tbl BwMon) : (s.setBw v).portTags = s.portTags := (rfl)
@[simp] theorem State.setBw_portFifo (s : State) (v : Tbl BwMon) : (s.setBw v).portFifo = s.portFifo := (rfl)
@[simp] theorem State.setBw_dcache (s : State) (v : Tbl BwMon) : (s.setBw v).dcache = s.dcache := (rfl)
@[simp] theorem State.setBw_dir (s : State) (v : Tbl BwMon) : (s.setBw v).dir = s.dir := (rfl)
@[simp] theorem State.setBw_dieResets (s : State) (v : Tbl BwMon) : (s.setBw v).dieResets = s.dieResets := (rfl)
@[simp] theorem State.setBw_homeTxn (s : State) (v : Tbl BwMon) : (s.setBw v).homeTxn = s.homeTxn := (rfl)
@[simp] theorem State.setBw_cores (s : State) (v : Tbl BwMon) : (s.setBw v).cores = s.cores := (rfl)
@[simp] theorem State.setBw_tngDone (s : State) (v : Tbl BwMon) : (s.setBw v).tngDone = s.tngDone := (rfl)
@[simp] theorem State.setBw_fab (s : State) (v : Tbl BwMon) : (s.setBw v).fab = s.fab := (rfl)
@[simp] theorem State.setBw_net (s : State) (v : Tbl BwMon) : (s.setBw v).net = s.net := (rfl)
@[simp] theorem State.setBw_rtrShare (s : State) (v : Tbl BwMon) : (s.setBw v).rtrShare = s.rtrShare := (rfl)
@[simp] theorem State.setBw_dbg (s : State) (v : Tbl BwMon) : (s.setBw v).dbg = s.dbg := (rfl)
@[simp] theorem State.setBw_dcWait (s : State) (v : Tbl BwMon) : (s.setBw v).dcWait = s.dcWait := (rfl)
@[simp] theorem State.setBw_prcStep (s : State) (v : Tbl BwMon) : (s.setBw v).prcStep = s.prcStep := (rfl)
@[simp] theorem State.setBw_prcBlank (s : State) (v : Tbl BwMon) : (s.setBw v).prcBlank = s.prcBlank := (rfl)
@[simp] theorem State.setBw_prcHold (s : State) (v : Tbl BwMon) : (s.setBw v).prcHold = s.prcHold := (rfl)
@[simp] theorem State.setBw_capWait (s : State) (v : Tbl BwMon) : (s.setBw v).capWait = s.capWait := (rfl)
@[simp] theorem State.setBw_capture (s : State) (v : Tbl BwMon) : (s.setBw v).capture = s.capture := (rfl)
@[simp] theorem State.setBw_bramDef (s : State) (v : Tbl BwMon) : (s.setBw v).bramDef = s.bramDef := (rfl)
@[simp] theorem State.setBw_scrubs (s : State) (v : Tbl BwMon) : (s.setBw v).scrubs = s.scrubs := (rfl)
@[simp] theorem State.setBw_scrCopy (s : State) (v : Tbl BwMon) : (s.setBw v).scrCopy = s.scrCopy := (rfl)
@[simp] theorem State.setBw_releases (s : State) (v : Tbl BwMon) : (s.setBw v).releases = s.releases := (rfl)
@[simp] theorem State.setBw_dieStep (s : State) (v : Tbl BwMon) : (s.setBw v).dieStep = s.dieStep := (rfl)
@[simp] theorem State.setBw_clampDef (s : State) (v : Tbl BwMon) : (s.setBw v).clampDef = s.clampDef := (rfl)
@[simp] theorem State.setBw_clamps (s : State) (v : Tbl BwMon) : (s.setBw v).clamps = s.clamps := (rfl)
@[simp] theorem State.setBw_welds (s : State) (v : Tbl BwMon) : (s.setBw v).welds = s.welds := (rfl)
@[simp] theorem State.setBw_lanes (s : State) (v : Tbl BwMon) : (s.setBw v).lanes = s.lanes := (rfl)
@[simp] theorem State.setBw_macMode (s : State) (v : Tbl BwMon) : (s.setBw v).macMode = s.macMode := (rfl)
@[simp] theorem State.setBw_tod (s : State) (v : Tbl BwMon) : (s.setBw v).tod = s.tod := (rfl)
@[simp] theorem State.setBw_lkp (s : State) (v : Tbl BwMon) : (s.setBw v).lkp = s.lkp := (rfl)
@[simp] theorem State.setBw_queues (s : State) (v : Tbl BwMon) : (s.setBw v).queues = s.queues := (rfl)
@[simp] theorem State.setBw_ports (s : State) (v : Tbl BwMon) : (s.setBw v).ports = s.ports := (rfl)
@[simp] theorem State.setBw_pkt (s : State) (v : Tbl BwMon) : (s.setBw v).pkt = s.pkt := (rfl)
@[simp] theorem State.setBw_cxl (s : State) (v : Tbl BwMon) : (s.setBw v).cxl = s.cxl := (rfl)
@[simp] theorem State.setBw_ddr (s : State) (v : Tbl BwMon) : (s.setBw v).ddr = s.ddr := (rfl)
@[simp] theorem State.setBw_regions (s : State) (v : Tbl BwMon) : (s.setBw v).regions = s.regions := (rfl)
@[simp] theorem State.setBw_prots (s : State) (v : Tbl BwMon) : (s.setBw v).prots = s.prots := (rfl)
@[simp] theorem State.setBw_keyStore (s : State) (v : Tbl BwMon) : (s.setBw v).keyStore = s.keyStore := (rfl)
@[simp] theorem State.setBw_rings (s : State) (v : Tbl BwMon) : (s.setBw v).rings = s.rings := (rfl)
@[simp] theorem State.setBw_openMem (s : State) (v : Tbl BwMon) : (s.setBw v).openMem = s.openMem := (rfl)
@[simp] theorem State.setBw_dcRights (s : State) (v : Tbl BwMon) : (s.setBw v).dcRights = s.dcRights := (rfl)
@[simp] theorem State.setBw_clk (s : State) (v : Tbl BwMon) : (s.setBw v).clk = s.clk := (rfl)
@[simp] theorem State.setBw_units (s : State) (v : Tbl BwMon) : (s.setBw v).units = s.units := (rfl)
@[simp] theorem State.setBw_hearthHit (s : State) (v : Tbl BwMon) : (s.setBw v).hearthHit = s.hearthHit := (rfl)
@[simp] theorem State.setPmcLatch_pending (s : State) (v : Tbl Nat) : (s.setPmcLatch v).pending = s.pending := (rfl)
@[simp] theorem State.setPmcLatch_regs (s : State) (v : Tbl Nat) : (s.setPmcLatch v).regs = s.regs := (rfl)
@[simp] theorem State.setPmcLatch_mem (s : State) (v : Tbl Nat) : (s.setPmcLatch v).mem = s.mem := (rfl)
@[simp] theorem State.setPmcLatch_poison (s : State) (v : Tbl Nat) : (s.setPmcLatch v).poison = s.poison := (rfl)
@[simp] theorem State.setPmcLatch_fresh (s : State) (v : Tbl Nat) : (s.setPmcLatch v).fresh = s.fresh := (rfl)
@[simp] theorem State.setPmcLatch_answer (s : State) (v : Tbl Nat) : (s.setPmcLatch v).answer = s.answer := (rfl)
@[simp] theorem State.setPmcLatch_answerStatus (s : State) (v : Tbl Nat) : (s.setPmcLatch v).answerStatus = s.answerStatus := (rfl)
@[simp] theorem State.setPmcLatch_book (s : State) (v : Tbl Nat) : (s.setPmcLatch v).book = s.book := (rfl)
@[simp] theorem State.setPmcLatch_mgt (s : State) (v : Tbl Nat) : (s.setPmcLatch v).mgt = s.mgt := (rfl)
@[simp] theorem State.setPmcLatch_fpFifo (s : State) (v : Tbl Nat) : (s.setPmcLatch v).fpFifo = s.fpFifo := (rfl)
@[simp] theorem State.setPmcLatch_evtOnce (s : State) (v : Tbl Nat) : (s.setPmcLatch v).evtOnce = s.evtOnce := (rfl)
@[simp] theorem State.setPmcLatch_cycles (s : State) (v : Tbl Nat) : (s.setPmcLatch v).cycles = s.cycles := (rfl)
@[simp] theorem State.setPmcLatch_pcie (s : State) (v : Tbl Nat) : (s.setPmcLatch v).pcie = s.pcie := (rfl)
@[simp] theorem State.setPmcLatch_sent (s : State) (v : Tbl Nat) : (s.setPmcLatch v).sent = s.sent := (rfl)
@[simp] theorem State.setPmcLatch_bw (s : State) (v : Tbl Nat) : (s.setPmcLatch v).bw = s.bw := (rfl)
@[simp] theorem State.setPmcLatch_pmcLatch (s : State) (v : Tbl Nat) : (s.setPmcLatch v).pmcLatch = v := (rfl)
@[simp] theorem State.setPmcLatch_cal (s : State) (v : Tbl Nat) : (s.setPmcLatch v).cal = s.cal := (rfl)
@[simp] theorem State.setPmcLatch_cfg (s : State) (v : Tbl Nat) : (s.setPmcLatch v).cfg = s.cfg := (rfl)
@[simp] theorem State.setPmcLatch_tap (s : State) (v : Tbl Nat) : (s.setPmcLatch v).tap = s.tap := (rfl)
@[simp] theorem State.setPmcLatch_pins (s : State) (v : Tbl Nat) : (s.setPmcLatch v).pins = s.pins := (rfl)
@[simp] theorem State.setPmcLatch_frames (s : State) (v : Tbl Nat) : (s.setPmcLatch v).frames = s.frames := (rfl)
@[simp] theorem State.setPmcLatch_clusters (s : State) (v : Tbl Nat) : (s.setPmcLatch v).clusters = s.clusters := (rfl)
@[simp] theorem State.setPmcLatch_ffs (s : State) (v : Tbl Nat) : (s.setPmcLatch v).ffs = s.ffs := (rfl)
@[simp] theorem State.setPmcLatch_relStage (s : State) (v : Tbl Nat) : (s.setPmcLatch v).relStage = s.relStage := (rfl)
@[simp] theorem State.setPmcLatch_frozen (s : State) (v : Tbl Nat) : (s.setPmcLatch v).frozen = s.frozen := (rfl)
@[simp] theorem State.setPmcLatch_bramCfg (s : State) (v : Tbl Nat) : (s.setPmcLatch v).bramCfg = s.bramCfg := (rfl)
@[simp] theorem State.setPmcLatch_bram (s : State) (v : Tbl Nat) : (s.setPmcLatch v).bram = s.bram := (rfl)
@[simp] theorem State.setPmcLatch_bramPorts (s : State) (v : Tbl Nat) : (s.setPmcLatch v).bramPorts = s.bramPorts := (rfl)
@[simp] theorem State.setPmcLatch_multCfg (s : State) (v : Tbl Nat) : (s.setPmcLatch v).multCfg = s.multCfg := (rfl)
@[simp] theorem State.setPmcLatch_mults (s : State) (v : Tbl Nat) : (s.setPmcLatch v).mults = s.mults := (rfl)
@[simp] theorem State.setPmcLatch_railKeep (s : State) (v : Tbl Nat) : (s.setPmcLatch v).railKeep = s.railKeep := (rfl)
@[simp] theorem State.setPmcLatch_chk (s : State) (v : Tbl Nat) : (s.setPmcLatch v).chk = s.chk := (rfl)
@[simp] theorem State.setPmcLatch_eccRaw (s : State) (v : Tbl Nat) : (s.setPmcLatch v).eccRaw = s.eccRaw := (rfl)
@[simp] theorem State.setPmcLatch_eccScrub (s : State) (v : Tbl Nat) : (s.setPmcLatch v).eccScrub = s.eccScrub := (rfl)
@[simp] theorem State.setPmcLatch_tags (s : State) (v : Tbl Nat) : (s.setPmcLatch v).tags = s.tags := (rfl)
@[simp] theorem State.setPmcLatch_xUsed (s : State) (v : Tbl Nat) : (s.setPmcLatch v).xUsed = s.xUsed := (rfl)
@[simp] theorem State.setPmcLatch_xWait (s : State) (v : Tbl Nat) : (s.setPmcLatch v).xWait = s.xWait := (rfl)
@[simp] theorem State.setPmcLatch_xHeld (s : State) (v : Tbl Nat) : (s.setPmcLatch v).xHeld = s.xHeld := (rfl)
@[simp] theorem State.setPmcLatch_routers (s : State) (v : Tbl Nat) : (s.setPmcLatch v).routers = s.routers := (rfl)
@[simp] theorem State.setPmcLatch_portMode (s : State) (v : Tbl Nat) : (s.setPmcLatch v).portMode = s.portMode := (rfl)
@[simp] theorem State.setPmcLatch_portTags (s : State) (v : Tbl Nat) : (s.setPmcLatch v).portTags = s.portTags := (rfl)
@[simp] theorem State.setPmcLatch_portFifo (s : State) (v : Tbl Nat) : (s.setPmcLatch v).portFifo = s.portFifo := (rfl)
@[simp] theorem State.setPmcLatch_dcache (s : State) (v : Tbl Nat) : (s.setPmcLatch v).dcache = s.dcache := (rfl)
@[simp] theorem State.setPmcLatch_dir (s : State) (v : Tbl Nat) : (s.setPmcLatch v).dir = s.dir := (rfl)
@[simp] theorem State.setPmcLatch_dieResets (s : State) (v : Tbl Nat) : (s.setPmcLatch v).dieResets = s.dieResets := (rfl)
@[simp] theorem State.setPmcLatch_homeTxn (s : State) (v : Tbl Nat) : (s.setPmcLatch v).homeTxn = s.homeTxn := (rfl)
@[simp] theorem State.setPmcLatch_cores (s : State) (v : Tbl Nat) : (s.setPmcLatch v).cores = s.cores := (rfl)
@[simp] theorem State.setPmcLatch_tngDone (s : State) (v : Tbl Nat) : (s.setPmcLatch v).tngDone = s.tngDone := (rfl)
@[simp] theorem State.setPmcLatch_fab (s : State) (v : Tbl Nat) : (s.setPmcLatch v).fab = s.fab := (rfl)
@[simp] theorem State.setPmcLatch_net (s : State) (v : Tbl Nat) : (s.setPmcLatch v).net = s.net := (rfl)
@[simp] theorem State.setPmcLatch_rtrShare (s : State) (v : Tbl Nat) : (s.setPmcLatch v).rtrShare = s.rtrShare := (rfl)
@[simp] theorem State.setPmcLatch_dbg (s : State) (v : Tbl Nat) : (s.setPmcLatch v).dbg = s.dbg := (rfl)
@[simp] theorem State.setPmcLatch_dcWait (s : State) (v : Tbl Nat) : (s.setPmcLatch v).dcWait = s.dcWait := (rfl)
@[simp] theorem State.setPmcLatch_prcStep (s : State) (v : Tbl Nat) : (s.setPmcLatch v).prcStep = s.prcStep := (rfl)
@[simp] theorem State.setPmcLatch_prcBlank (s : State) (v : Tbl Nat) : (s.setPmcLatch v).prcBlank = s.prcBlank := (rfl)
@[simp] theorem State.setPmcLatch_prcHold (s : State) (v : Tbl Nat) : (s.setPmcLatch v).prcHold = s.prcHold := (rfl)
@[simp] theorem State.setPmcLatch_capWait (s : State) (v : Tbl Nat) : (s.setPmcLatch v).capWait = s.capWait := (rfl)
@[simp] theorem State.setPmcLatch_capture (s : State) (v : Tbl Nat) : (s.setPmcLatch v).capture = s.capture := (rfl)
@[simp] theorem State.setPmcLatch_bramDef (s : State) (v : Tbl Nat) : (s.setPmcLatch v).bramDef = s.bramDef := (rfl)
@[simp] theorem State.setPmcLatch_scrubs (s : State) (v : Tbl Nat) : (s.setPmcLatch v).scrubs = s.scrubs := (rfl)
@[simp] theorem State.setPmcLatch_scrCopy (s : State) (v : Tbl Nat) : (s.setPmcLatch v).scrCopy = s.scrCopy := (rfl)
@[simp] theorem State.setPmcLatch_releases (s : State) (v : Tbl Nat) : (s.setPmcLatch v).releases = s.releases := (rfl)
@[simp] theorem State.setPmcLatch_dieStep (s : State) (v : Tbl Nat) : (s.setPmcLatch v).dieStep = s.dieStep := (rfl)
@[simp] theorem State.setPmcLatch_clampDef (s : State) (v : Tbl Nat) : (s.setPmcLatch v).clampDef = s.clampDef := (rfl)
@[simp] theorem State.setPmcLatch_clamps (s : State) (v : Tbl Nat) : (s.setPmcLatch v).clamps = s.clamps := (rfl)
@[simp] theorem State.setPmcLatch_welds (s : State) (v : Tbl Nat) : (s.setPmcLatch v).welds = s.welds := (rfl)
@[simp] theorem State.setPmcLatch_lanes (s : State) (v : Tbl Nat) : (s.setPmcLatch v).lanes = s.lanes := (rfl)
@[simp] theorem State.setPmcLatch_macMode (s : State) (v : Tbl Nat) : (s.setPmcLatch v).macMode = s.macMode := (rfl)
@[simp] theorem State.setPmcLatch_tod (s : State) (v : Tbl Nat) : (s.setPmcLatch v).tod = s.tod := (rfl)
@[simp] theorem State.setPmcLatch_lkp (s : State) (v : Tbl Nat) : (s.setPmcLatch v).lkp = s.lkp := (rfl)
@[simp] theorem State.setPmcLatch_queues (s : State) (v : Tbl Nat) : (s.setPmcLatch v).queues = s.queues := (rfl)
@[simp] theorem State.setPmcLatch_ports (s : State) (v : Tbl Nat) : (s.setPmcLatch v).ports = s.ports := (rfl)
@[simp] theorem State.setPmcLatch_pkt (s : State) (v : Tbl Nat) : (s.setPmcLatch v).pkt = s.pkt := (rfl)
@[simp] theorem State.setPmcLatch_cxl (s : State) (v : Tbl Nat) : (s.setPmcLatch v).cxl = s.cxl := (rfl)
@[simp] theorem State.setPmcLatch_ddr (s : State) (v : Tbl Nat) : (s.setPmcLatch v).ddr = s.ddr := (rfl)
@[simp] theorem State.setPmcLatch_regions (s : State) (v : Tbl Nat) : (s.setPmcLatch v).regions = s.regions := (rfl)
@[simp] theorem State.setPmcLatch_prots (s : State) (v : Tbl Nat) : (s.setPmcLatch v).prots = s.prots := (rfl)
@[simp] theorem State.setPmcLatch_keyStore (s : State) (v : Tbl Nat) : (s.setPmcLatch v).keyStore = s.keyStore := (rfl)
@[simp] theorem State.setPmcLatch_rings (s : State) (v : Tbl Nat) : (s.setPmcLatch v).rings = s.rings := (rfl)
@[simp] theorem State.setPmcLatch_openMem (s : State) (v : Tbl Nat) : (s.setPmcLatch v).openMem = s.openMem := (rfl)
@[simp] theorem State.setPmcLatch_dcRights (s : State) (v : Tbl Nat) : (s.setPmcLatch v).dcRights = s.dcRights := (rfl)
@[simp] theorem State.setPmcLatch_clk (s : State) (v : Tbl Nat) : (s.setPmcLatch v).clk = s.clk := (rfl)
@[simp] theorem State.setPmcLatch_units (s : State) (v : Tbl Nat) : (s.setPmcLatch v).units = s.units := (rfl)
@[simp] theorem State.setPmcLatch_hearthHit (s : State) (v : Tbl Nat) : (s.setPmcLatch v).hearthHit = s.hearthHit := (rfl)
@[simp] theorem State.setCal_pending (s : State) (v : Cal) : (s.setCal v).pending = s.pending := (rfl)
@[simp] theorem State.setCal_regs (s : State) (v : Cal) : (s.setCal v).regs = s.regs := (rfl)
@[simp] theorem State.setCal_mem (s : State) (v : Cal) : (s.setCal v).mem = s.mem := (rfl)
@[simp] theorem State.setCal_poison (s : State) (v : Cal) : (s.setCal v).poison = s.poison := (rfl)
@[simp] theorem State.setCal_fresh (s : State) (v : Cal) : (s.setCal v).fresh = s.fresh := (rfl)
@[simp] theorem State.setCal_answer (s : State) (v : Cal) : (s.setCal v).answer = s.answer := (rfl)
@[simp] theorem State.setCal_answerStatus (s : State) (v : Cal) : (s.setCal v).answerStatus = s.answerStatus := (rfl)
@[simp] theorem State.setCal_book (s : State) (v : Cal) : (s.setCal v).book = s.book := (rfl)
@[simp] theorem State.setCal_mgt (s : State) (v : Cal) : (s.setCal v).mgt = s.mgt := (rfl)
@[simp] theorem State.setCal_fpFifo (s : State) (v : Cal) : (s.setCal v).fpFifo = s.fpFifo := (rfl)
@[simp] theorem State.setCal_evtOnce (s : State) (v : Cal) : (s.setCal v).evtOnce = s.evtOnce := (rfl)
@[simp] theorem State.setCal_cycles (s : State) (v : Cal) : (s.setCal v).cycles = s.cycles := (rfl)
@[simp] theorem State.setCal_pcie (s : State) (v : Cal) : (s.setCal v).pcie = s.pcie := (rfl)
@[simp] theorem State.setCal_sent (s : State) (v : Cal) : (s.setCal v).sent = s.sent := (rfl)
@[simp] theorem State.setCal_bw (s : State) (v : Cal) : (s.setCal v).bw = s.bw := (rfl)
@[simp] theorem State.setCal_pmcLatch (s : State) (v : Cal) : (s.setCal v).pmcLatch = s.pmcLatch := (rfl)
@[simp] theorem State.setCal_cal (s : State) (v : Cal) : (s.setCal v).cal = v := (rfl)
@[simp] theorem State.setCal_cfg (s : State) (v : Cal) : (s.setCal v).cfg = s.cfg := (rfl)
@[simp] theorem State.setCal_tap (s : State) (v : Cal) : (s.setCal v).tap = s.tap := (rfl)
@[simp] theorem State.setCal_pins (s : State) (v : Cal) : (s.setCal v).pins = s.pins := (rfl)
@[simp] theorem State.setCal_frames (s : State) (v : Cal) : (s.setCal v).frames = s.frames := (rfl)
@[simp] theorem State.setCal_clusters (s : State) (v : Cal) : (s.setCal v).clusters = s.clusters := (rfl)
@[simp] theorem State.setCal_ffs (s : State) (v : Cal) : (s.setCal v).ffs = s.ffs := (rfl)
@[simp] theorem State.setCal_relStage (s : State) (v : Cal) : (s.setCal v).relStage = s.relStage := (rfl)
@[simp] theorem State.setCal_frozen (s : State) (v : Cal) : (s.setCal v).frozen = s.frozen := (rfl)
@[simp] theorem State.setCal_bramCfg (s : State) (v : Cal) : (s.setCal v).bramCfg = s.bramCfg := (rfl)
@[simp] theorem State.setCal_bram (s : State) (v : Cal) : (s.setCal v).bram = s.bram := (rfl)
@[simp] theorem State.setCal_bramPorts (s : State) (v : Cal) : (s.setCal v).bramPorts = s.bramPorts := (rfl)
@[simp] theorem State.setCal_multCfg (s : State) (v : Cal) : (s.setCal v).multCfg = s.multCfg := (rfl)
@[simp] theorem State.setCal_mults (s : State) (v : Cal) : (s.setCal v).mults = s.mults := (rfl)
@[simp] theorem State.setCal_railKeep (s : State) (v : Cal) : (s.setCal v).railKeep = s.railKeep := (rfl)
@[simp] theorem State.setCal_chk (s : State) (v : Cal) : (s.setCal v).chk = s.chk := (rfl)
@[simp] theorem State.setCal_eccRaw (s : State) (v : Cal) : (s.setCal v).eccRaw = s.eccRaw := (rfl)
@[simp] theorem State.setCal_eccScrub (s : State) (v : Cal) : (s.setCal v).eccScrub = s.eccScrub := (rfl)
@[simp] theorem State.setCal_tags (s : State) (v : Cal) : (s.setCal v).tags = s.tags := (rfl)
@[simp] theorem State.setCal_xUsed (s : State) (v : Cal) : (s.setCal v).xUsed = s.xUsed := (rfl)
@[simp] theorem State.setCal_xWait (s : State) (v : Cal) : (s.setCal v).xWait = s.xWait := (rfl)
@[simp] theorem State.setCal_xHeld (s : State) (v : Cal) : (s.setCal v).xHeld = s.xHeld := (rfl)
@[simp] theorem State.setCal_routers (s : State) (v : Cal) : (s.setCal v).routers = s.routers := (rfl)
@[simp] theorem State.setCal_portMode (s : State) (v : Cal) : (s.setCal v).portMode = s.portMode := (rfl)
@[simp] theorem State.setCal_portTags (s : State) (v : Cal) : (s.setCal v).portTags = s.portTags := (rfl)
@[simp] theorem State.setCal_portFifo (s : State) (v : Cal) : (s.setCal v).portFifo = s.portFifo := (rfl)
@[simp] theorem State.setCal_dcache (s : State) (v : Cal) : (s.setCal v).dcache = s.dcache := (rfl)
@[simp] theorem State.setCal_dir (s : State) (v : Cal) : (s.setCal v).dir = s.dir := (rfl)
@[simp] theorem State.setCal_dieResets (s : State) (v : Cal) : (s.setCal v).dieResets = s.dieResets := (rfl)
@[simp] theorem State.setCal_homeTxn (s : State) (v : Cal) : (s.setCal v).homeTxn = s.homeTxn := (rfl)
@[simp] theorem State.setCal_cores (s : State) (v : Cal) : (s.setCal v).cores = s.cores := (rfl)
@[simp] theorem State.setCal_tngDone (s : State) (v : Cal) : (s.setCal v).tngDone = s.tngDone := (rfl)
@[simp] theorem State.setCal_fab (s : State) (v : Cal) : (s.setCal v).fab = s.fab := (rfl)
@[simp] theorem State.setCal_net (s : State) (v : Cal) : (s.setCal v).net = s.net := (rfl)
@[simp] theorem State.setCal_rtrShare (s : State) (v : Cal) : (s.setCal v).rtrShare = s.rtrShare := (rfl)
@[simp] theorem State.setCal_dbg (s : State) (v : Cal) : (s.setCal v).dbg = s.dbg := (rfl)
@[simp] theorem State.setCal_dcWait (s : State) (v : Cal) : (s.setCal v).dcWait = s.dcWait := (rfl)
@[simp] theorem State.setCal_prcStep (s : State) (v : Cal) : (s.setCal v).prcStep = s.prcStep := (rfl)
@[simp] theorem State.setCal_prcBlank (s : State) (v : Cal) : (s.setCal v).prcBlank = s.prcBlank := (rfl)
@[simp] theorem State.setCal_prcHold (s : State) (v : Cal) : (s.setCal v).prcHold = s.prcHold := (rfl)
@[simp] theorem State.setCal_capWait (s : State) (v : Cal) : (s.setCal v).capWait = s.capWait := (rfl)
@[simp] theorem State.setCal_capture (s : State) (v : Cal) : (s.setCal v).capture = s.capture := (rfl)
@[simp] theorem State.setCal_bramDef (s : State) (v : Cal) : (s.setCal v).bramDef = s.bramDef := (rfl)
@[simp] theorem State.setCal_scrubs (s : State) (v : Cal) : (s.setCal v).scrubs = s.scrubs := (rfl)
@[simp] theorem State.setCal_scrCopy (s : State) (v : Cal) : (s.setCal v).scrCopy = s.scrCopy := (rfl)
@[simp] theorem State.setCal_releases (s : State) (v : Cal) : (s.setCal v).releases = s.releases := (rfl)
@[simp] theorem State.setCal_dieStep (s : State) (v : Cal) : (s.setCal v).dieStep = s.dieStep := (rfl)
@[simp] theorem State.setCal_clampDef (s : State) (v : Cal) : (s.setCal v).clampDef = s.clampDef := (rfl)
@[simp] theorem State.setCal_clamps (s : State) (v : Cal) : (s.setCal v).clamps = s.clamps := (rfl)
@[simp] theorem State.setCal_welds (s : State) (v : Cal) : (s.setCal v).welds = s.welds := (rfl)
@[simp] theorem State.setCal_lanes (s : State) (v : Cal) : (s.setCal v).lanes = s.lanes := (rfl)
@[simp] theorem State.setCal_macMode (s : State) (v : Cal) : (s.setCal v).macMode = s.macMode := (rfl)
@[simp] theorem State.setCal_tod (s : State) (v : Cal) : (s.setCal v).tod = s.tod := (rfl)
@[simp] theorem State.setCal_lkp (s : State) (v : Cal) : (s.setCal v).lkp = s.lkp := (rfl)
@[simp] theorem State.setCal_queues (s : State) (v : Cal) : (s.setCal v).queues = s.queues := (rfl)
@[simp] theorem State.setCal_ports (s : State) (v : Cal) : (s.setCal v).ports = s.ports := (rfl)
@[simp] theorem State.setCal_pkt (s : State) (v : Cal) : (s.setCal v).pkt = s.pkt := (rfl)
@[simp] theorem State.setCal_cxl (s : State) (v : Cal) : (s.setCal v).cxl = s.cxl := (rfl)
@[simp] theorem State.setCal_ddr (s : State) (v : Cal) : (s.setCal v).ddr = s.ddr := (rfl)
@[simp] theorem State.setCal_regions (s : State) (v : Cal) : (s.setCal v).regions = s.regions := (rfl)
@[simp] theorem State.setCal_prots (s : State) (v : Cal) : (s.setCal v).prots = s.prots := (rfl)
@[simp] theorem State.setCal_keyStore (s : State) (v : Cal) : (s.setCal v).keyStore = s.keyStore := (rfl)
@[simp] theorem State.setCal_rings (s : State) (v : Cal) : (s.setCal v).rings = s.rings := (rfl)
@[simp] theorem State.setCal_openMem (s : State) (v : Cal) : (s.setCal v).openMem = s.openMem := (rfl)
@[simp] theorem State.setCal_dcRights (s : State) (v : Cal) : (s.setCal v).dcRights = s.dcRights := (rfl)
@[simp] theorem State.setCal_clk (s : State) (v : Cal) : (s.setCal v).clk = s.clk := (rfl)
@[simp] theorem State.setCal_units (s : State) (v : Cal) : (s.setCal v).units = s.units := (rfl)
@[simp] theorem State.setCal_hearthHit (s : State) (v : Cal) : (s.setCal v).hearthHit = s.hearthHit := (rfl)
@[simp] theorem State.setCfg_pending (s : State) (v : CfgMaster) : (s.setCfg v).pending = s.pending := (rfl)
@[simp] theorem State.setCfg_regs (s : State) (v : CfgMaster) : (s.setCfg v).regs = s.regs := (rfl)
@[simp] theorem State.setCfg_mem (s : State) (v : CfgMaster) : (s.setCfg v).mem = s.mem := (rfl)
@[simp] theorem State.setCfg_poison (s : State) (v : CfgMaster) : (s.setCfg v).poison = s.poison := (rfl)
@[simp] theorem State.setCfg_fresh (s : State) (v : CfgMaster) : (s.setCfg v).fresh = s.fresh := (rfl)
@[simp] theorem State.setCfg_answer (s : State) (v : CfgMaster) : (s.setCfg v).answer = s.answer := (rfl)
@[simp] theorem State.setCfg_answerStatus (s : State) (v : CfgMaster) : (s.setCfg v).answerStatus = s.answerStatus := (rfl)
@[simp] theorem State.setCfg_book (s : State) (v : CfgMaster) : (s.setCfg v).book = s.book := (rfl)
@[simp] theorem State.setCfg_mgt (s : State) (v : CfgMaster) : (s.setCfg v).mgt = s.mgt := (rfl)
@[simp] theorem State.setCfg_fpFifo (s : State) (v : CfgMaster) : (s.setCfg v).fpFifo = s.fpFifo := (rfl)
@[simp] theorem State.setCfg_evtOnce (s : State) (v : CfgMaster) : (s.setCfg v).evtOnce = s.evtOnce := (rfl)
@[simp] theorem State.setCfg_cycles (s : State) (v : CfgMaster) : (s.setCfg v).cycles = s.cycles := (rfl)
@[simp] theorem State.setCfg_pcie (s : State) (v : CfgMaster) : (s.setCfg v).pcie = s.pcie := (rfl)
@[simp] theorem State.setCfg_sent (s : State) (v : CfgMaster) : (s.setCfg v).sent = s.sent := (rfl)
@[simp] theorem State.setCfg_bw (s : State) (v : CfgMaster) : (s.setCfg v).bw = s.bw := (rfl)
@[simp] theorem State.setCfg_pmcLatch (s : State) (v : CfgMaster) : (s.setCfg v).pmcLatch = s.pmcLatch := (rfl)
@[simp] theorem State.setCfg_cal (s : State) (v : CfgMaster) : (s.setCfg v).cal = s.cal := (rfl)
@[simp] theorem State.setCfg_cfg (s : State) (v : CfgMaster) : (s.setCfg v).cfg = v := (rfl)
@[simp] theorem State.setCfg_tap (s : State) (v : CfgMaster) : (s.setCfg v).tap = s.tap := (rfl)
@[simp] theorem State.setCfg_pins (s : State) (v : CfgMaster) : (s.setCfg v).pins = s.pins := (rfl)
@[simp] theorem State.setCfg_frames (s : State) (v : CfgMaster) : (s.setCfg v).frames = s.frames := (rfl)
@[simp] theorem State.setCfg_clusters (s : State) (v : CfgMaster) : (s.setCfg v).clusters = s.clusters := (rfl)
@[simp] theorem State.setCfg_ffs (s : State) (v : CfgMaster) : (s.setCfg v).ffs = s.ffs := (rfl)
@[simp] theorem State.setCfg_relStage (s : State) (v : CfgMaster) : (s.setCfg v).relStage = s.relStage := (rfl)
@[simp] theorem State.setCfg_frozen (s : State) (v : CfgMaster) : (s.setCfg v).frozen = s.frozen := (rfl)
@[simp] theorem State.setCfg_bramCfg (s : State) (v : CfgMaster) : (s.setCfg v).bramCfg = s.bramCfg := (rfl)
@[simp] theorem State.setCfg_bram (s : State) (v : CfgMaster) : (s.setCfg v).bram = s.bram := (rfl)
@[simp] theorem State.setCfg_bramPorts (s : State) (v : CfgMaster) : (s.setCfg v).bramPorts = s.bramPorts := (rfl)
@[simp] theorem State.setCfg_multCfg (s : State) (v : CfgMaster) : (s.setCfg v).multCfg = s.multCfg := (rfl)
@[simp] theorem State.setCfg_mults (s : State) (v : CfgMaster) : (s.setCfg v).mults = s.mults := (rfl)
@[simp] theorem State.setCfg_railKeep (s : State) (v : CfgMaster) : (s.setCfg v).railKeep = s.railKeep := (rfl)
@[simp] theorem State.setCfg_chk (s : State) (v : CfgMaster) : (s.setCfg v).chk = s.chk := (rfl)
@[simp] theorem State.setCfg_eccRaw (s : State) (v : CfgMaster) : (s.setCfg v).eccRaw = s.eccRaw := (rfl)
@[simp] theorem State.setCfg_eccScrub (s : State) (v : CfgMaster) : (s.setCfg v).eccScrub = s.eccScrub := (rfl)
@[simp] theorem State.setCfg_tags (s : State) (v : CfgMaster) : (s.setCfg v).tags = s.tags := (rfl)
@[simp] theorem State.setCfg_xUsed (s : State) (v : CfgMaster) : (s.setCfg v).xUsed = s.xUsed := (rfl)
@[simp] theorem State.setCfg_xWait (s : State) (v : CfgMaster) : (s.setCfg v).xWait = s.xWait := (rfl)
@[simp] theorem State.setCfg_xHeld (s : State) (v : CfgMaster) : (s.setCfg v).xHeld = s.xHeld := (rfl)
@[simp] theorem State.setCfg_routers (s : State) (v : CfgMaster) : (s.setCfg v).routers = s.routers := (rfl)
@[simp] theorem State.setCfg_portMode (s : State) (v : CfgMaster) : (s.setCfg v).portMode = s.portMode := (rfl)
@[simp] theorem State.setCfg_portTags (s : State) (v : CfgMaster) : (s.setCfg v).portTags = s.portTags := (rfl)
@[simp] theorem State.setCfg_portFifo (s : State) (v : CfgMaster) : (s.setCfg v).portFifo = s.portFifo := (rfl)
@[simp] theorem State.setCfg_dcache (s : State) (v : CfgMaster) : (s.setCfg v).dcache = s.dcache := (rfl)
@[simp] theorem State.setCfg_dir (s : State) (v : CfgMaster) : (s.setCfg v).dir = s.dir := (rfl)
@[simp] theorem State.setCfg_dieResets (s : State) (v : CfgMaster) : (s.setCfg v).dieResets = s.dieResets := (rfl)
@[simp] theorem State.setCfg_homeTxn (s : State) (v : CfgMaster) : (s.setCfg v).homeTxn = s.homeTxn := (rfl)
@[simp] theorem State.setCfg_cores (s : State) (v : CfgMaster) : (s.setCfg v).cores = s.cores := (rfl)
@[simp] theorem State.setCfg_tngDone (s : State) (v : CfgMaster) : (s.setCfg v).tngDone = s.tngDone := (rfl)
@[simp] theorem State.setCfg_fab (s : State) (v : CfgMaster) : (s.setCfg v).fab = s.fab := (rfl)
@[simp] theorem State.setCfg_net (s : State) (v : CfgMaster) : (s.setCfg v).net = s.net := (rfl)
@[simp] theorem State.setCfg_rtrShare (s : State) (v : CfgMaster) : (s.setCfg v).rtrShare = s.rtrShare := (rfl)
@[simp] theorem State.setCfg_dbg (s : State) (v : CfgMaster) : (s.setCfg v).dbg = s.dbg := (rfl)
@[simp] theorem State.setCfg_dcWait (s : State) (v : CfgMaster) : (s.setCfg v).dcWait = s.dcWait := (rfl)
@[simp] theorem State.setCfg_prcStep (s : State) (v : CfgMaster) : (s.setCfg v).prcStep = s.prcStep := (rfl)
@[simp] theorem State.setCfg_prcBlank (s : State) (v : CfgMaster) : (s.setCfg v).prcBlank = s.prcBlank := (rfl)
@[simp] theorem State.setCfg_prcHold (s : State) (v : CfgMaster) : (s.setCfg v).prcHold = s.prcHold := (rfl)
@[simp] theorem State.setCfg_capWait (s : State) (v : CfgMaster) : (s.setCfg v).capWait = s.capWait := (rfl)
@[simp] theorem State.setCfg_capture (s : State) (v : CfgMaster) : (s.setCfg v).capture = s.capture := (rfl)
@[simp] theorem State.setCfg_bramDef (s : State) (v : CfgMaster) : (s.setCfg v).bramDef = s.bramDef := (rfl)
@[simp] theorem State.setCfg_scrubs (s : State) (v : CfgMaster) : (s.setCfg v).scrubs = s.scrubs := (rfl)
@[simp] theorem State.setCfg_scrCopy (s : State) (v : CfgMaster) : (s.setCfg v).scrCopy = s.scrCopy := (rfl)
@[simp] theorem State.setCfg_releases (s : State) (v : CfgMaster) : (s.setCfg v).releases = s.releases := (rfl)
@[simp] theorem State.setCfg_dieStep (s : State) (v : CfgMaster) : (s.setCfg v).dieStep = s.dieStep := (rfl)
@[simp] theorem State.setCfg_clampDef (s : State) (v : CfgMaster) : (s.setCfg v).clampDef = s.clampDef := (rfl)
@[simp] theorem State.setCfg_clamps (s : State) (v : CfgMaster) : (s.setCfg v).clamps = s.clamps := (rfl)
@[simp] theorem State.setCfg_welds (s : State) (v : CfgMaster) : (s.setCfg v).welds = s.welds := (rfl)
@[simp] theorem State.setCfg_lanes (s : State) (v : CfgMaster) : (s.setCfg v).lanes = s.lanes := (rfl)
@[simp] theorem State.setCfg_macMode (s : State) (v : CfgMaster) : (s.setCfg v).macMode = s.macMode := (rfl)
@[simp] theorem State.setCfg_tod (s : State) (v : CfgMaster) : (s.setCfg v).tod = s.tod := (rfl)
@[simp] theorem State.setCfg_lkp (s : State) (v : CfgMaster) : (s.setCfg v).lkp = s.lkp := (rfl)
@[simp] theorem State.setCfg_queues (s : State) (v : CfgMaster) : (s.setCfg v).queues = s.queues := (rfl)
@[simp] theorem State.setCfg_ports (s : State) (v : CfgMaster) : (s.setCfg v).ports = s.ports := (rfl)
@[simp] theorem State.setCfg_pkt (s : State) (v : CfgMaster) : (s.setCfg v).pkt = s.pkt := (rfl)
@[simp] theorem State.setCfg_cxl (s : State) (v : CfgMaster) : (s.setCfg v).cxl = s.cxl := (rfl)
@[simp] theorem State.setCfg_ddr (s : State) (v : CfgMaster) : (s.setCfg v).ddr = s.ddr := (rfl)
@[simp] theorem State.setCfg_regions (s : State) (v : CfgMaster) : (s.setCfg v).regions = s.regions := (rfl)
@[simp] theorem State.setCfg_prots (s : State) (v : CfgMaster) : (s.setCfg v).prots = s.prots := (rfl)
@[simp] theorem State.setCfg_keyStore (s : State) (v : CfgMaster) : (s.setCfg v).keyStore = s.keyStore := (rfl)
@[simp] theorem State.setCfg_rings (s : State) (v : CfgMaster) : (s.setCfg v).rings = s.rings := (rfl)
@[simp] theorem State.setCfg_openMem (s : State) (v : CfgMaster) : (s.setCfg v).openMem = s.openMem := (rfl)
@[simp] theorem State.setCfg_dcRights (s : State) (v : CfgMaster) : (s.setCfg v).dcRights = s.dcRights := (rfl)
@[simp] theorem State.setCfg_clk (s : State) (v : CfgMaster) : (s.setCfg v).clk = s.clk := (rfl)
@[simp] theorem State.setCfg_units (s : State) (v : CfgMaster) : (s.setCfg v).units = s.units := (rfl)
@[simp] theorem State.setCfg_hearthHit (s : State) (v : CfgMaster) : (s.setCfg v).hearthHit = s.hearthHit := (rfl)
@[simp] theorem State.setTap_pending (s : State) (v : Tap) : (s.setTap v).pending = s.pending := (rfl)
@[simp] theorem State.setTap_regs (s : State) (v : Tap) : (s.setTap v).regs = s.regs := (rfl)
@[simp] theorem State.setTap_mem (s : State) (v : Tap) : (s.setTap v).mem = s.mem := (rfl)
@[simp] theorem State.setTap_poison (s : State) (v : Tap) : (s.setTap v).poison = s.poison := (rfl)
@[simp] theorem State.setTap_fresh (s : State) (v : Tap) : (s.setTap v).fresh = s.fresh := (rfl)
@[simp] theorem State.setTap_answer (s : State) (v : Tap) : (s.setTap v).answer = s.answer := (rfl)
@[simp] theorem State.setTap_answerStatus (s : State) (v : Tap) : (s.setTap v).answerStatus = s.answerStatus := (rfl)
@[simp] theorem State.setTap_book (s : State) (v : Tap) : (s.setTap v).book = s.book := (rfl)
@[simp] theorem State.setTap_mgt (s : State) (v : Tap) : (s.setTap v).mgt = s.mgt := (rfl)
@[simp] theorem State.setTap_fpFifo (s : State) (v : Tap) : (s.setTap v).fpFifo = s.fpFifo := (rfl)
@[simp] theorem State.setTap_evtOnce (s : State) (v : Tap) : (s.setTap v).evtOnce = s.evtOnce := (rfl)
@[simp] theorem State.setTap_cycles (s : State) (v : Tap) : (s.setTap v).cycles = s.cycles := (rfl)
@[simp] theorem State.setTap_pcie (s : State) (v : Tap) : (s.setTap v).pcie = s.pcie := (rfl)
@[simp] theorem State.setTap_sent (s : State) (v : Tap) : (s.setTap v).sent = s.sent := (rfl)
@[simp] theorem State.setTap_bw (s : State) (v : Tap) : (s.setTap v).bw = s.bw := (rfl)
@[simp] theorem State.setTap_pmcLatch (s : State) (v : Tap) : (s.setTap v).pmcLatch = s.pmcLatch := (rfl)
@[simp] theorem State.setTap_cal (s : State) (v : Tap) : (s.setTap v).cal = s.cal := (rfl)
@[simp] theorem State.setTap_cfg (s : State) (v : Tap) : (s.setTap v).cfg = s.cfg := (rfl)
@[simp] theorem State.setTap_tap (s : State) (v : Tap) : (s.setTap v).tap = v := (rfl)
@[simp] theorem State.setTap_pins (s : State) (v : Tap) : (s.setTap v).pins = s.pins := (rfl)
@[simp] theorem State.setTap_frames (s : State) (v : Tap) : (s.setTap v).frames = s.frames := (rfl)
@[simp] theorem State.setTap_clusters (s : State) (v : Tap) : (s.setTap v).clusters = s.clusters := (rfl)
@[simp] theorem State.setTap_ffs (s : State) (v : Tap) : (s.setTap v).ffs = s.ffs := (rfl)
@[simp] theorem State.setTap_relStage (s : State) (v : Tap) : (s.setTap v).relStage = s.relStage := (rfl)
@[simp] theorem State.setTap_frozen (s : State) (v : Tap) : (s.setTap v).frozen = s.frozen := (rfl)
@[simp] theorem State.setTap_bramCfg (s : State) (v : Tap) : (s.setTap v).bramCfg = s.bramCfg := (rfl)
@[simp] theorem State.setTap_bram (s : State) (v : Tap) : (s.setTap v).bram = s.bram := (rfl)
@[simp] theorem State.setTap_bramPorts (s : State) (v : Tap) : (s.setTap v).bramPorts = s.bramPorts := (rfl)
@[simp] theorem State.setTap_multCfg (s : State) (v : Tap) : (s.setTap v).multCfg = s.multCfg := (rfl)
@[simp] theorem State.setTap_mults (s : State) (v : Tap) : (s.setTap v).mults = s.mults := (rfl)
@[simp] theorem State.setTap_railKeep (s : State) (v : Tap) : (s.setTap v).railKeep = s.railKeep := (rfl)
@[simp] theorem State.setTap_chk (s : State) (v : Tap) : (s.setTap v).chk = s.chk := (rfl)
@[simp] theorem State.setTap_eccRaw (s : State) (v : Tap) : (s.setTap v).eccRaw = s.eccRaw := (rfl)
@[simp] theorem State.setTap_eccScrub (s : State) (v : Tap) : (s.setTap v).eccScrub = s.eccScrub := (rfl)
@[simp] theorem State.setTap_tags (s : State) (v : Tap) : (s.setTap v).tags = s.tags := (rfl)
@[simp] theorem State.setTap_xUsed (s : State) (v : Tap) : (s.setTap v).xUsed = s.xUsed := (rfl)
@[simp] theorem State.setTap_xWait (s : State) (v : Tap) : (s.setTap v).xWait = s.xWait := (rfl)
@[simp] theorem State.setTap_xHeld (s : State) (v : Tap) : (s.setTap v).xHeld = s.xHeld := (rfl)
@[simp] theorem State.setTap_routers (s : State) (v : Tap) : (s.setTap v).routers = s.routers := (rfl)
@[simp] theorem State.setTap_portMode (s : State) (v : Tap) : (s.setTap v).portMode = s.portMode := (rfl)
@[simp] theorem State.setTap_portTags (s : State) (v : Tap) : (s.setTap v).portTags = s.portTags := (rfl)
@[simp] theorem State.setTap_portFifo (s : State) (v : Tap) : (s.setTap v).portFifo = s.portFifo := (rfl)
@[simp] theorem State.setTap_dcache (s : State) (v : Tap) : (s.setTap v).dcache = s.dcache := (rfl)
@[simp] theorem State.setTap_dir (s : State) (v : Tap) : (s.setTap v).dir = s.dir := (rfl)
@[simp] theorem State.setTap_dieResets (s : State) (v : Tap) : (s.setTap v).dieResets = s.dieResets := (rfl)
@[simp] theorem State.setTap_homeTxn (s : State) (v : Tap) : (s.setTap v).homeTxn = s.homeTxn := (rfl)
@[simp] theorem State.setTap_cores (s : State) (v : Tap) : (s.setTap v).cores = s.cores := (rfl)
@[simp] theorem State.setTap_tngDone (s : State) (v : Tap) : (s.setTap v).tngDone = s.tngDone := (rfl)
@[simp] theorem State.setTap_fab (s : State) (v : Tap) : (s.setTap v).fab = s.fab := (rfl)
@[simp] theorem State.setTap_net (s : State) (v : Tap) : (s.setTap v).net = s.net := (rfl)
@[simp] theorem State.setTap_rtrShare (s : State) (v : Tap) : (s.setTap v).rtrShare = s.rtrShare := (rfl)
@[simp] theorem State.setTap_dbg (s : State) (v : Tap) : (s.setTap v).dbg = s.dbg := (rfl)
@[simp] theorem State.setTap_dcWait (s : State) (v : Tap) : (s.setTap v).dcWait = s.dcWait := (rfl)
@[simp] theorem State.setTap_prcStep (s : State) (v : Tap) : (s.setTap v).prcStep = s.prcStep := (rfl)
@[simp] theorem State.setTap_prcBlank (s : State) (v : Tap) : (s.setTap v).prcBlank = s.prcBlank := (rfl)
@[simp] theorem State.setTap_prcHold (s : State) (v : Tap) : (s.setTap v).prcHold = s.prcHold := (rfl)
@[simp] theorem State.setTap_capWait (s : State) (v : Tap) : (s.setTap v).capWait = s.capWait := (rfl)
@[simp] theorem State.setTap_capture (s : State) (v : Tap) : (s.setTap v).capture = s.capture := (rfl)
@[simp] theorem State.setTap_bramDef (s : State) (v : Tap) : (s.setTap v).bramDef = s.bramDef := (rfl)
@[simp] theorem State.setTap_scrubs (s : State) (v : Tap) : (s.setTap v).scrubs = s.scrubs := (rfl)
@[simp] theorem State.setTap_scrCopy (s : State) (v : Tap) : (s.setTap v).scrCopy = s.scrCopy := (rfl)
@[simp] theorem State.setTap_releases (s : State) (v : Tap) : (s.setTap v).releases = s.releases := (rfl)
@[simp] theorem State.setTap_dieStep (s : State) (v : Tap) : (s.setTap v).dieStep = s.dieStep := (rfl)
@[simp] theorem State.setTap_clampDef (s : State) (v : Tap) : (s.setTap v).clampDef = s.clampDef := (rfl)
@[simp] theorem State.setTap_clamps (s : State) (v : Tap) : (s.setTap v).clamps = s.clamps := (rfl)
@[simp] theorem State.setTap_welds (s : State) (v : Tap) : (s.setTap v).welds = s.welds := (rfl)
@[simp] theorem State.setTap_lanes (s : State) (v : Tap) : (s.setTap v).lanes = s.lanes := (rfl)
@[simp] theorem State.setTap_macMode (s : State) (v : Tap) : (s.setTap v).macMode = s.macMode := (rfl)
@[simp] theorem State.setTap_tod (s : State) (v : Tap) : (s.setTap v).tod = s.tod := (rfl)
@[simp] theorem State.setTap_lkp (s : State) (v : Tap) : (s.setTap v).lkp = s.lkp := (rfl)
@[simp] theorem State.setTap_queues (s : State) (v : Tap) : (s.setTap v).queues = s.queues := (rfl)
@[simp] theorem State.setTap_ports (s : State) (v : Tap) : (s.setTap v).ports = s.ports := (rfl)
@[simp] theorem State.setTap_pkt (s : State) (v : Tap) : (s.setTap v).pkt = s.pkt := (rfl)
@[simp] theorem State.setTap_cxl (s : State) (v : Tap) : (s.setTap v).cxl = s.cxl := (rfl)
@[simp] theorem State.setTap_ddr (s : State) (v : Tap) : (s.setTap v).ddr = s.ddr := (rfl)
@[simp] theorem State.setTap_regions (s : State) (v : Tap) : (s.setTap v).regions = s.regions := (rfl)
@[simp] theorem State.setTap_prots (s : State) (v : Tap) : (s.setTap v).prots = s.prots := (rfl)
@[simp] theorem State.setTap_keyStore (s : State) (v : Tap) : (s.setTap v).keyStore = s.keyStore := (rfl)
@[simp] theorem State.setTap_rings (s : State) (v : Tap) : (s.setTap v).rings = s.rings := (rfl)
@[simp] theorem State.setTap_openMem (s : State) (v : Tap) : (s.setTap v).openMem = s.openMem := (rfl)
@[simp] theorem State.setTap_dcRights (s : State) (v : Tap) : (s.setTap v).dcRights = s.dcRights := (rfl)
@[simp] theorem State.setTap_clk (s : State) (v : Tap) : (s.setTap v).clk = s.clk := (rfl)
@[simp] theorem State.setTap_units (s : State) (v : Tap) : (s.setTap v).units = s.units := (rfl)
@[simp] theorem State.setTap_hearthHit (s : State) (v : Tap) : (s.setTap v).hearthHit = s.hearthHit := (rfl)
@[simp] theorem State.setPins_pending (s : State) (v : Pins) : (s.setPins v).pending = s.pending := (rfl)
@[simp] theorem State.setPins_regs (s : State) (v : Pins) : (s.setPins v).regs = s.regs := (rfl)
@[simp] theorem State.setPins_mem (s : State) (v : Pins) : (s.setPins v).mem = s.mem := (rfl)
@[simp] theorem State.setPins_poison (s : State) (v : Pins) : (s.setPins v).poison = s.poison := (rfl)
@[simp] theorem State.setPins_fresh (s : State) (v : Pins) : (s.setPins v).fresh = s.fresh := (rfl)
@[simp] theorem State.setPins_answer (s : State) (v : Pins) : (s.setPins v).answer = s.answer := (rfl)
@[simp] theorem State.setPins_answerStatus (s : State) (v : Pins) : (s.setPins v).answerStatus = s.answerStatus := (rfl)
@[simp] theorem State.setPins_book (s : State) (v : Pins) : (s.setPins v).book = s.book := (rfl)
@[simp] theorem State.setPins_mgt (s : State) (v : Pins) : (s.setPins v).mgt = s.mgt := (rfl)
@[simp] theorem State.setPins_fpFifo (s : State) (v : Pins) : (s.setPins v).fpFifo = s.fpFifo := (rfl)
@[simp] theorem State.setPins_evtOnce (s : State) (v : Pins) : (s.setPins v).evtOnce = s.evtOnce := (rfl)
@[simp] theorem State.setPins_cycles (s : State) (v : Pins) : (s.setPins v).cycles = s.cycles := (rfl)
@[simp] theorem State.setPins_pcie (s : State) (v : Pins) : (s.setPins v).pcie = s.pcie := (rfl)
@[simp] theorem State.setPins_sent (s : State) (v : Pins) : (s.setPins v).sent = s.sent := (rfl)
@[simp] theorem State.setPins_bw (s : State) (v : Pins) : (s.setPins v).bw = s.bw := (rfl)
@[simp] theorem State.setPins_pmcLatch (s : State) (v : Pins) : (s.setPins v).pmcLatch = s.pmcLatch := (rfl)
@[simp] theorem State.setPins_cal (s : State) (v : Pins) : (s.setPins v).cal = s.cal := (rfl)
@[simp] theorem State.setPins_cfg (s : State) (v : Pins) : (s.setPins v).cfg = s.cfg := (rfl)
@[simp] theorem State.setPins_tap (s : State) (v : Pins) : (s.setPins v).tap = s.tap := (rfl)
@[simp] theorem State.setPins_pins (s : State) (v : Pins) : (s.setPins v).pins = v := (rfl)
@[simp] theorem State.setPins_frames (s : State) (v : Pins) : (s.setPins v).frames = s.frames := (rfl)
@[simp] theorem State.setPins_clusters (s : State) (v : Pins) : (s.setPins v).clusters = s.clusters := (rfl)
@[simp] theorem State.setPins_ffs (s : State) (v : Pins) : (s.setPins v).ffs = s.ffs := (rfl)
@[simp] theorem State.setPins_relStage (s : State) (v : Pins) : (s.setPins v).relStage = s.relStage := (rfl)
@[simp] theorem State.setPins_frozen (s : State) (v : Pins) : (s.setPins v).frozen = s.frozen := (rfl)
@[simp] theorem State.setPins_bramCfg (s : State) (v : Pins) : (s.setPins v).bramCfg = s.bramCfg := (rfl)
@[simp] theorem State.setPins_bram (s : State) (v : Pins) : (s.setPins v).bram = s.bram := (rfl)
@[simp] theorem State.setPins_bramPorts (s : State) (v : Pins) : (s.setPins v).bramPorts = s.bramPorts := (rfl)
@[simp] theorem State.setPins_multCfg (s : State) (v : Pins) : (s.setPins v).multCfg = s.multCfg := (rfl)
@[simp] theorem State.setPins_mults (s : State) (v : Pins) : (s.setPins v).mults = s.mults := (rfl)
@[simp] theorem State.setPins_railKeep (s : State) (v : Pins) : (s.setPins v).railKeep = s.railKeep := (rfl)
@[simp] theorem State.setPins_chk (s : State) (v : Pins) : (s.setPins v).chk = s.chk := (rfl)
@[simp] theorem State.setPins_eccRaw (s : State) (v : Pins) : (s.setPins v).eccRaw = s.eccRaw := (rfl)
@[simp] theorem State.setPins_eccScrub (s : State) (v : Pins) : (s.setPins v).eccScrub = s.eccScrub := (rfl)
@[simp] theorem State.setPins_tags (s : State) (v : Pins) : (s.setPins v).tags = s.tags := (rfl)
@[simp] theorem State.setPins_xUsed (s : State) (v : Pins) : (s.setPins v).xUsed = s.xUsed := (rfl)
@[simp] theorem State.setPins_xWait (s : State) (v : Pins) : (s.setPins v).xWait = s.xWait := (rfl)
@[simp] theorem State.setPins_xHeld (s : State) (v : Pins) : (s.setPins v).xHeld = s.xHeld := (rfl)
@[simp] theorem State.setPins_routers (s : State) (v : Pins) : (s.setPins v).routers = s.routers := (rfl)
@[simp] theorem State.setPins_portMode (s : State) (v : Pins) : (s.setPins v).portMode = s.portMode := (rfl)
@[simp] theorem State.setPins_portTags (s : State) (v : Pins) : (s.setPins v).portTags = s.portTags := (rfl)
@[simp] theorem State.setPins_portFifo (s : State) (v : Pins) : (s.setPins v).portFifo = s.portFifo := (rfl)
@[simp] theorem State.setPins_dcache (s : State) (v : Pins) : (s.setPins v).dcache = s.dcache := (rfl)
@[simp] theorem State.setPins_dir (s : State) (v : Pins) : (s.setPins v).dir = s.dir := (rfl)
@[simp] theorem State.setPins_dieResets (s : State) (v : Pins) : (s.setPins v).dieResets = s.dieResets := (rfl)
@[simp] theorem State.setPins_homeTxn (s : State) (v : Pins) : (s.setPins v).homeTxn = s.homeTxn := (rfl)
@[simp] theorem State.setPins_cores (s : State) (v : Pins) : (s.setPins v).cores = s.cores := (rfl)
@[simp] theorem State.setPins_tngDone (s : State) (v : Pins) : (s.setPins v).tngDone = s.tngDone := (rfl)
@[simp] theorem State.setPins_fab (s : State) (v : Pins) : (s.setPins v).fab = s.fab := (rfl)
@[simp] theorem State.setPins_net (s : State) (v : Pins) : (s.setPins v).net = s.net := (rfl)
@[simp] theorem State.setPins_rtrShare (s : State) (v : Pins) : (s.setPins v).rtrShare = s.rtrShare := (rfl)
@[simp] theorem State.setPins_dbg (s : State) (v : Pins) : (s.setPins v).dbg = s.dbg := (rfl)
@[simp] theorem State.setPins_dcWait (s : State) (v : Pins) : (s.setPins v).dcWait = s.dcWait := (rfl)
@[simp] theorem State.setPins_prcStep (s : State) (v : Pins) : (s.setPins v).prcStep = s.prcStep := (rfl)
@[simp] theorem State.setPins_prcBlank (s : State) (v : Pins) : (s.setPins v).prcBlank = s.prcBlank := (rfl)
@[simp] theorem State.setPins_prcHold (s : State) (v : Pins) : (s.setPins v).prcHold = s.prcHold := (rfl)
@[simp] theorem State.setPins_capWait (s : State) (v : Pins) : (s.setPins v).capWait = s.capWait := (rfl)
@[simp] theorem State.setPins_capture (s : State) (v : Pins) : (s.setPins v).capture = s.capture := (rfl)
@[simp] theorem State.setPins_bramDef (s : State) (v : Pins) : (s.setPins v).bramDef = s.bramDef := (rfl)
@[simp] theorem State.setPins_scrubs (s : State) (v : Pins) : (s.setPins v).scrubs = s.scrubs := (rfl)
@[simp] theorem State.setPins_scrCopy (s : State) (v : Pins) : (s.setPins v).scrCopy = s.scrCopy := (rfl)
@[simp] theorem State.setPins_releases (s : State) (v : Pins) : (s.setPins v).releases = s.releases := (rfl)
@[simp] theorem State.setPins_dieStep (s : State) (v : Pins) : (s.setPins v).dieStep = s.dieStep := (rfl)
@[simp] theorem State.setPins_clampDef (s : State) (v : Pins) : (s.setPins v).clampDef = s.clampDef := (rfl)
@[simp] theorem State.setPins_clamps (s : State) (v : Pins) : (s.setPins v).clamps = s.clamps := (rfl)
@[simp] theorem State.setPins_welds (s : State) (v : Pins) : (s.setPins v).welds = s.welds := (rfl)
@[simp] theorem State.setPins_lanes (s : State) (v : Pins) : (s.setPins v).lanes = s.lanes := (rfl)
@[simp] theorem State.setPins_macMode (s : State) (v : Pins) : (s.setPins v).macMode = s.macMode := (rfl)
@[simp] theorem State.setPins_tod (s : State) (v : Pins) : (s.setPins v).tod = s.tod := (rfl)
@[simp] theorem State.setPins_lkp (s : State) (v : Pins) : (s.setPins v).lkp = s.lkp := (rfl)
@[simp] theorem State.setPins_queues (s : State) (v : Pins) : (s.setPins v).queues = s.queues := (rfl)
@[simp] theorem State.setPins_ports (s : State) (v : Pins) : (s.setPins v).ports = s.ports := (rfl)
@[simp] theorem State.setPins_pkt (s : State) (v : Pins) : (s.setPins v).pkt = s.pkt := (rfl)
@[simp] theorem State.setPins_cxl (s : State) (v : Pins) : (s.setPins v).cxl = s.cxl := (rfl)
@[simp] theorem State.setPins_ddr (s : State) (v : Pins) : (s.setPins v).ddr = s.ddr := (rfl)
@[simp] theorem State.setPins_regions (s : State) (v : Pins) : (s.setPins v).regions = s.regions := (rfl)
@[simp] theorem State.setPins_prots (s : State) (v : Pins) : (s.setPins v).prots = s.prots := (rfl)
@[simp] theorem State.setPins_keyStore (s : State) (v : Pins) : (s.setPins v).keyStore = s.keyStore := (rfl)
@[simp] theorem State.setPins_rings (s : State) (v : Pins) : (s.setPins v).rings = s.rings := (rfl)
@[simp] theorem State.setPins_openMem (s : State) (v : Pins) : (s.setPins v).openMem = s.openMem := (rfl)
@[simp] theorem State.setPins_dcRights (s : State) (v : Pins) : (s.setPins v).dcRights = s.dcRights := (rfl)
@[simp] theorem State.setPins_clk (s : State) (v : Pins) : (s.setPins v).clk = s.clk := (rfl)
@[simp] theorem State.setPins_units (s : State) (v : Pins) : (s.setPins v).units = s.units := (rfl)
@[simp] theorem State.setPins_hearthHit (s : State) (v : Pins) : (s.setPins v).hearthHit = s.hearthHit := (rfl)
@[simp] theorem State.setFrames_pending (s : State) (v : Tbl Frame) : (s.setFrames v).pending = s.pending := (rfl)
@[simp] theorem State.setFrames_regs (s : State) (v : Tbl Frame) : (s.setFrames v).regs = s.regs := (rfl)
@[simp] theorem State.setFrames_mem (s : State) (v : Tbl Frame) : (s.setFrames v).mem = s.mem := (rfl)
@[simp] theorem State.setFrames_poison (s : State) (v : Tbl Frame) : (s.setFrames v).poison = s.poison := (rfl)
@[simp] theorem State.setFrames_fresh (s : State) (v : Tbl Frame) : (s.setFrames v).fresh = s.fresh := (rfl)
@[simp] theorem State.setFrames_answer (s : State) (v : Tbl Frame) : (s.setFrames v).answer = s.answer := (rfl)
@[simp] theorem State.setFrames_answerStatus (s : State) (v : Tbl Frame) : (s.setFrames v).answerStatus = s.answerStatus := (rfl)
@[simp] theorem State.setFrames_book (s : State) (v : Tbl Frame) : (s.setFrames v).book = s.book := (rfl)
@[simp] theorem State.setFrames_mgt (s : State) (v : Tbl Frame) : (s.setFrames v).mgt = s.mgt := (rfl)
@[simp] theorem State.setFrames_fpFifo (s : State) (v : Tbl Frame) : (s.setFrames v).fpFifo = s.fpFifo := (rfl)
@[simp] theorem State.setFrames_evtOnce (s : State) (v : Tbl Frame) : (s.setFrames v).evtOnce = s.evtOnce := (rfl)
@[simp] theorem State.setFrames_cycles (s : State) (v : Tbl Frame) : (s.setFrames v).cycles = s.cycles := (rfl)
@[simp] theorem State.setFrames_pcie (s : State) (v : Tbl Frame) : (s.setFrames v).pcie = s.pcie := (rfl)
@[simp] theorem State.setFrames_sent (s : State) (v : Tbl Frame) : (s.setFrames v).sent = s.sent := (rfl)
@[simp] theorem State.setFrames_bw (s : State) (v : Tbl Frame) : (s.setFrames v).bw = s.bw := (rfl)
@[simp] theorem State.setFrames_pmcLatch (s : State) (v : Tbl Frame) : (s.setFrames v).pmcLatch = s.pmcLatch := (rfl)
@[simp] theorem State.setFrames_cal (s : State) (v : Tbl Frame) : (s.setFrames v).cal = s.cal := (rfl)
@[simp] theorem State.setFrames_cfg (s : State) (v : Tbl Frame) : (s.setFrames v).cfg = s.cfg := (rfl)
@[simp] theorem State.setFrames_tap (s : State) (v : Tbl Frame) : (s.setFrames v).tap = s.tap := (rfl)
@[simp] theorem State.setFrames_pins (s : State) (v : Tbl Frame) : (s.setFrames v).pins = s.pins := (rfl)
@[simp] theorem State.setFrames_frames (s : State) (v : Tbl Frame) : (s.setFrames v).frames = v := (rfl)
@[simp] theorem State.setFrames_clusters (s : State) (v : Tbl Frame) : (s.setFrames v).clusters = s.clusters := (rfl)
@[simp] theorem State.setFrames_ffs (s : State) (v : Tbl Frame) : (s.setFrames v).ffs = s.ffs := (rfl)
@[simp] theorem State.setFrames_relStage (s : State) (v : Tbl Frame) : (s.setFrames v).relStage = s.relStage := (rfl)
@[simp] theorem State.setFrames_frozen (s : State) (v : Tbl Frame) : (s.setFrames v).frozen = s.frozen := (rfl)
@[simp] theorem State.setFrames_bramCfg (s : State) (v : Tbl Frame) : (s.setFrames v).bramCfg = s.bramCfg := (rfl)
@[simp] theorem State.setFrames_bram (s : State) (v : Tbl Frame) : (s.setFrames v).bram = s.bram := (rfl)
@[simp] theorem State.setFrames_bramPorts (s : State) (v : Tbl Frame) : (s.setFrames v).bramPorts = s.bramPorts := (rfl)
@[simp] theorem State.setFrames_multCfg (s : State) (v : Tbl Frame) : (s.setFrames v).multCfg = s.multCfg := (rfl)
@[simp] theorem State.setFrames_mults (s : State) (v : Tbl Frame) : (s.setFrames v).mults = s.mults := (rfl)
@[simp] theorem State.setFrames_railKeep (s : State) (v : Tbl Frame) : (s.setFrames v).railKeep = s.railKeep := (rfl)
@[simp] theorem State.setFrames_chk (s : State) (v : Tbl Frame) : (s.setFrames v).chk = s.chk := (rfl)
@[simp] theorem State.setFrames_eccRaw (s : State) (v : Tbl Frame) : (s.setFrames v).eccRaw = s.eccRaw := (rfl)
@[simp] theorem State.setFrames_eccScrub (s : State) (v : Tbl Frame) : (s.setFrames v).eccScrub = s.eccScrub := (rfl)
@[simp] theorem State.setFrames_tags (s : State) (v : Tbl Frame) : (s.setFrames v).tags = s.tags := (rfl)
@[simp] theorem State.setFrames_xUsed (s : State) (v : Tbl Frame) : (s.setFrames v).xUsed = s.xUsed := (rfl)
@[simp] theorem State.setFrames_xWait (s : State) (v : Tbl Frame) : (s.setFrames v).xWait = s.xWait := (rfl)
@[simp] theorem State.setFrames_xHeld (s : State) (v : Tbl Frame) : (s.setFrames v).xHeld = s.xHeld := (rfl)
@[simp] theorem State.setFrames_routers (s : State) (v : Tbl Frame) : (s.setFrames v).routers = s.routers := (rfl)
@[simp] theorem State.setFrames_portMode (s : State) (v : Tbl Frame) : (s.setFrames v).portMode = s.portMode := (rfl)
@[simp] theorem State.setFrames_portTags (s : State) (v : Tbl Frame) : (s.setFrames v).portTags = s.portTags := (rfl)
@[simp] theorem State.setFrames_portFifo (s : State) (v : Tbl Frame) : (s.setFrames v).portFifo = s.portFifo := (rfl)
@[simp] theorem State.setFrames_dcache (s : State) (v : Tbl Frame) : (s.setFrames v).dcache = s.dcache := (rfl)
@[simp] theorem State.setFrames_dir (s : State) (v : Tbl Frame) : (s.setFrames v).dir = s.dir := (rfl)
@[simp] theorem State.setFrames_dieResets (s : State) (v : Tbl Frame) : (s.setFrames v).dieResets = s.dieResets := (rfl)
@[simp] theorem State.setFrames_homeTxn (s : State) (v : Tbl Frame) : (s.setFrames v).homeTxn = s.homeTxn := (rfl)
@[simp] theorem State.setFrames_cores (s : State) (v : Tbl Frame) : (s.setFrames v).cores = s.cores := (rfl)
@[simp] theorem State.setFrames_tngDone (s : State) (v : Tbl Frame) : (s.setFrames v).tngDone = s.tngDone := (rfl)
@[simp] theorem State.setFrames_fab (s : State) (v : Tbl Frame) : (s.setFrames v).fab = s.fab := (rfl)
@[simp] theorem State.setFrames_net (s : State) (v : Tbl Frame) : (s.setFrames v).net = s.net := (rfl)
@[simp] theorem State.setFrames_rtrShare (s : State) (v : Tbl Frame) : (s.setFrames v).rtrShare = s.rtrShare := (rfl)
@[simp] theorem State.setFrames_dbg (s : State) (v : Tbl Frame) : (s.setFrames v).dbg = s.dbg := (rfl)
@[simp] theorem State.setFrames_dcWait (s : State) (v : Tbl Frame) : (s.setFrames v).dcWait = s.dcWait := (rfl)
@[simp] theorem State.setFrames_prcStep (s : State) (v : Tbl Frame) : (s.setFrames v).prcStep = s.prcStep := (rfl)
@[simp] theorem State.setFrames_prcBlank (s : State) (v : Tbl Frame) : (s.setFrames v).prcBlank = s.prcBlank := (rfl)
@[simp] theorem State.setFrames_prcHold (s : State) (v : Tbl Frame) : (s.setFrames v).prcHold = s.prcHold := (rfl)
@[simp] theorem State.setFrames_capWait (s : State) (v : Tbl Frame) : (s.setFrames v).capWait = s.capWait := (rfl)
@[simp] theorem State.setFrames_capture (s : State) (v : Tbl Frame) : (s.setFrames v).capture = s.capture := (rfl)
@[simp] theorem State.setFrames_bramDef (s : State) (v : Tbl Frame) : (s.setFrames v).bramDef = s.bramDef := (rfl)
@[simp] theorem State.setFrames_scrubs (s : State) (v : Tbl Frame) : (s.setFrames v).scrubs = s.scrubs := (rfl)
@[simp] theorem State.setFrames_scrCopy (s : State) (v : Tbl Frame) : (s.setFrames v).scrCopy = s.scrCopy := (rfl)
@[simp] theorem State.setFrames_releases (s : State) (v : Tbl Frame) : (s.setFrames v).releases = s.releases := (rfl)
@[simp] theorem State.setFrames_dieStep (s : State) (v : Tbl Frame) : (s.setFrames v).dieStep = s.dieStep := (rfl)
@[simp] theorem State.setFrames_clampDef (s : State) (v : Tbl Frame) : (s.setFrames v).clampDef = s.clampDef := (rfl)
@[simp] theorem State.setFrames_clamps (s : State) (v : Tbl Frame) : (s.setFrames v).clamps = s.clamps := (rfl)
@[simp] theorem State.setFrames_welds (s : State) (v : Tbl Frame) : (s.setFrames v).welds = s.welds := (rfl)
@[simp] theorem State.setFrames_lanes (s : State) (v : Tbl Frame) : (s.setFrames v).lanes = s.lanes := (rfl)
@[simp] theorem State.setFrames_macMode (s : State) (v : Tbl Frame) : (s.setFrames v).macMode = s.macMode := (rfl)
@[simp] theorem State.setFrames_tod (s : State) (v : Tbl Frame) : (s.setFrames v).tod = s.tod := (rfl)
@[simp] theorem State.setFrames_lkp (s : State) (v : Tbl Frame) : (s.setFrames v).lkp = s.lkp := (rfl)
@[simp] theorem State.setFrames_queues (s : State) (v : Tbl Frame) : (s.setFrames v).queues = s.queues := (rfl)
@[simp] theorem State.setFrames_ports (s : State) (v : Tbl Frame) : (s.setFrames v).ports = s.ports := (rfl)
@[simp] theorem State.setFrames_pkt (s : State) (v : Tbl Frame) : (s.setFrames v).pkt = s.pkt := (rfl)
@[simp] theorem State.setFrames_cxl (s : State) (v : Tbl Frame) : (s.setFrames v).cxl = s.cxl := (rfl)
@[simp] theorem State.setFrames_ddr (s : State) (v : Tbl Frame) : (s.setFrames v).ddr = s.ddr := (rfl)
@[simp] theorem State.setFrames_regions (s : State) (v : Tbl Frame) : (s.setFrames v).regions = s.regions := (rfl)
@[simp] theorem State.setFrames_prots (s : State) (v : Tbl Frame) : (s.setFrames v).prots = s.prots := (rfl)
@[simp] theorem State.setFrames_keyStore (s : State) (v : Tbl Frame) : (s.setFrames v).keyStore = s.keyStore := (rfl)
@[simp] theorem State.setFrames_rings (s : State) (v : Tbl Frame) : (s.setFrames v).rings = s.rings := (rfl)
@[simp] theorem State.setFrames_openMem (s : State) (v : Tbl Frame) : (s.setFrames v).openMem = s.openMem := (rfl)
@[simp] theorem State.setFrames_dcRights (s : State) (v : Tbl Frame) : (s.setFrames v).dcRights = s.dcRights := (rfl)
@[simp] theorem State.setFrames_clk (s : State) (v : Tbl Frame) : (s.setFrames v).clk = s.clk := (rfl)
@[simp] theorem State.setFrames_units (s : State) (v : Tbl Frame) : (s.setFrames v).units = s.units := (rfl)
@[simp] theorem State.setFrames_hearthHit (s : State) (v : Tbl Frame) : (s.setFrames v).hearthHit = s.hearthHit := (rfl)
@[simp] theorem State.setClusters_pending (s : State) (v : Tbl Config.ClusterCfg) : (s.setClusters v).pending = s.pending := (rfl)
@[simp] theorem State.setClusters_regs (s : State) (v : Tbl Config.ClusterCfg) : (s.setClusters v).regs = s.regs := (rfl)
@[simp] theorem State.setClusters_mem (s : State) (v : Tbl Config.ClusterCfg) : (s.setClusters v).mem = s.mem := (rfl)
@[simp] theorem State.setClusters_poison (s : State) (v : Tbl Config.ClusterCfg) : (s.setClusters v).poison = s.poison := (rfl)
@[simp] theorem State.setClusters_fresh (s : State) (v : Tbl Config.ClusterCfg) : (s.setClusters v).fresh = s.fresh := (rfl)
@[simp] theorem State.setClusters_answer (s : State) (v : Tbl Config.ClusterCfg) : (s.setClusters v).answer = s.answer := (rfl)
@[simp] theorem State.setClusters_answerStatus (s : State) (v : Tbl Config.ClusterCfg) : (s.setClusters v).answerStatus = s.answerStatus := (rfl)
@[simp] theorem State.setClusters_book (s : State) (v : Tbl Config.ClusterCfg) : (s.setClusters v).book = s.book := (rfl)
@[simp] theorem State.setClusters_mgt (s : State) (v : Tbl Config.ClusterCfg) : (s.setClusters v).mgt = s.mgt := (rfl)
@[simp] theorem State.setClusters_fpFifo (s : State) (v : Tbl Config.ClusterCfg) : (s.setClusters v).fpFifo = s.fpFifo := (rfl)
@[simp] theorem State.setClusters_evtOnce (s : State) (v : Tbl Config.ClusterCfg) : (s.setClusters v).evtOnce = s.evtOnce := (rfl)
@[simp] theorem State.setClusters_cycles (s : State) (v : Tbl Config.ClusterCfg) : (s.setClusters v).cycles = s.cycles := (rfl)
@[simp] theorem State.setClusters_pcie (s : State) (v : Tbl Config.ClusterCfg) : (s.setClusters v).pcie = s.pcie := (rfl)
@[simp] theorem State.setClusters_sent (s : State) (v : Tbl Config.ClusterCfg) : (s.setClusters v).sent = s.sent := (rfl)
@[simp] theorem State.setClusters_bw (s : State) (v : Tbl Config.ClusterCfg) : (s.setClusters v).bw = s.bw := (rfl)
@[simp] theorem State.setClusters_pmcLatch (s : State) (v : Tbl Config.ClusterCfg) : (s.setClusters v).pmcLatch = s.pmcLatch := (rfl)
@[simp] theorem State.setClusters_cal (s : State) (v : Tbl Config.ClusterCfg) : (s.setClusters v).cal = s.cal := (rfl)
@[simp] theorem State.setClusters_cfg (s : State) (v : Tbl Config.ClusterCfg) : (s.setClusters v).cfg = s.cfg := (rfl)
@[simp] theorem State.setClusters_tap (s : State) (v : Tbl Config.ClusterCfg) : (s.setClusters v).tap = s.tap := (rfl)
@[simp] theorem State.setClusters_pins (s : State) (v : Tbl Config.ClusterCfg) : (s.setClusters v).pins = s.pins := (rfl)
@[simp] theorem State.setClusters_frames (s : State) (v : Tbl Config.ClusterCfg) : (s.setClusters v).frames = s.frames := (rfl)
@[simp] theorem State.setClusters_clusters (s : State) (v : Tbl Config.ClusterCfg) : (s.setClusters v).clusters = v := (rfl)
@[simp] theorem State.setClusters_ffs (s : State) (v : Tbl Config.ClusterCfg) : (s.setClusters v).ffs = s.ffs := (rfl)
@[simp] theorem State.setClusters_relStage (s : State) (v : Tbl Config.ClusterCfg) : (s.setClusters v).relStage = s.relStage := (rfl)
@[simp] theorem State.setClusters_frozen (s : State) (v : Tbl Config.ClusterCfg) : (s.setClusters v).frozen = s.frozen := (rfl)
@[simp] theorem State.setClusters_bramCfg (s : State) (v : Tbl Config.ClusterCfg) : (s.setClusters v).bramCfg = s.bramCfg := (rfl)
@[simp] theorem State.setClusters_bram (s : State) (v : Tbl Config.ClusterCfg) : (s.setClusters v).bram = s.bram := (rfl)
@[simp] theorem State.setClusters_bramPorts (s : State) (v : Tbl Config.ClusterCfg) : (s.setClusters v).bramPorts = s.bramPorts := (rfl)
@[simp] theorem State.setClusters_multCfg (s : State) (v : Tbl Config.ClusterCfg) : (s.setClusters v).multCfg = s.multCfg := (rfl)
@[simp] theorem State.setClusters_mults (s : State) (v : Tbl Config.ClusterCfg) : (s.setClusters v).mults = s.mults := (rfl)
@[simp] theorem State.setClusters_railKeep (s : State) (v : Tbl Config.ClusterCfg) : (s.setClusters v).railKeep = s.railKeep := (rfl)
@[simp] theorem State.setClusters_chk (s : State) (v : Tbl Config.ClusterCfg) : (s.setClusters v).chk = s.chk := (rfl)
@[simp] theorem State.setClusters_eccRaw (s : State) (v : Tbl Config.ClusterCfg) : (s.setClusters v).eccRaw = s.eccRaw := (rfl)
@[simp] theorem State.setClusters_eccScrub (s : State) (v : Tbl Config.ClusterCfg) : (s.setClusters v).eccScrub = s.eccScrub := (rfl)
@[simp] theorem State.setClusters_tags (s : State) (v : Tbl Config.ClusterCfg) : (s.setClusters v).tags = s.tags := (rfl)
@[simp] theorem State.setClusters_xUsed (s : State) (v : Tbl Config.ClusterCfg) : (s.setClusters v).xUsed = s.xUsed := (rfl)
@[simp] theorem State.setClusters_xWait (s : State) (v : Tbl Config.ClusterCfg) : (s.setClusters v).xWait = s.xWait := (rfl)
@[simp] theorem State.setClusters_xHeld (s : State) (v : Tbl Config.ClusterCfg) : (s.setClusters v).xHeld = s.xHeld := (rfl)
@[simp] theorem State.setClusters_routers (s : State) (v : Tbl Config.ClusterCfg) : (s.setClusters v).routers = s.routers := (rfl)
@[simp] theorem State.setClusters_portMode (s : State) (v : Tbl Config.ClusterCfg) : (s.setClusters v).portMode = s.portMode := (rfl)
@[simp] theorem State.setClusters_portTags (s : State) (v : Tbl Config.ClusterCfg) : (s.setClusters v).portTags = s.portTags := (rfl)
@[simp] theorem State.setClusters_portFifo (s : State) (v : Tbl Config.ClusterCfg) : (s.setClusters v).portFifo = s.portFifo := (rfl)
@[simp] theorem State.setClusters_dcache (s : State) (v : Tbl Config.ClusterCfg) : (s.setClusters v).dcache = s.dcache := (rfl)
@[simp] theorem State.setClusters_dir (s : State) (v : Tbl Config.ClusterCfg) : (s.setClusters v).dir = s.dir := (rfl)
@[simp] theorem State.setClusters_dieResets (s : State) (v : Tbl Config.ClusterCfg) : (s.setClusters v).dieResets = s.dieResets := (rfl)
@[simp] theorem State.setClusters_homeTxn (s : State) (v : Tbl Config.ClusterCfg) : (s.setClusters v).homeTxn = s.homeTxn := (rfl)
@[simp] theorem State.setClusters_cores (s : State) (v : Tbl Config.ClusterCfg) : (s.setClusters v).cores = s.cores := (rfl)
@[simp] theorem State.setClusters_tngDone (s : State) (v : Tbl Config.ClusterCfg) : (s.setClusters v).tngDone = s.tngDone := (rfl)
@[simp] theorem State.setClusters_fab (s : State) (v : Tbl Config.ClusterCfg) : (s.setClusters v).fab = s.fab := (rfl)
@[simp] theorem State.setClusters_net (s : State) (v : Tbl Config.ClusterCfg) : (s.setClusters v).net = s.net := (rfl)
@[simp] theorem State.setClusters_rtrShare (s : State) (v : Tbl Config.ClusterCfg) : (s.setClusters v).rtrShare = s.rtrShare := (rfl)
@[simp] theorem State.setClusters_dbg (s : State) (v : Tbl Config.ClusterCfg) : (s.setClusters v).dbg = s.dbg := (rfl)
@[simp] theorem State.setClusters_dcWait (s : State) (v : Tbl Config.ClusterCfg) : (s.setClusters v).dcWait = s.dcWait := (rfl)
@[simp] theorem State.setClusters_prcStep (s : State) (v : Tbl Config.ClusterCfg) : (s.setClusters v).prcStep = s.prcStep := (rfl)
@[simp] theorem State.setClusters_prcBlank (s : State) (v : Tbl Config.ClusterCfg) : (s.setClusters v).prcBlank = s.prcBlank := (rfl)
@[simp] theorem State.setClusters_prcHold (s : State) (v : Tbl Config.ClusterCfg) : (s.setClusters v).prcHold = s.prcHold := (rfl)
@[simp] theorem State.setClusters_capWait (s : State) (v : Tbl Config.ClusterCfg) : (s.setClusters v).capWait = s.capWait := (rfl)
@[simp] theorem State.setClusters_capture (s : State) (v : Tbl Config.ClusterCfg) : (s.setClusters v).capture = s.capture := (rfl)
@[simp] theorem State.setClusters_bramDef (s : State) (v : Tbl Config.ClusterCfg) : (s.setClusters v).bramDef = s.bramDef := (rfl)
@[simp] theorem State.setClusters_scrubs (s : State) (v : Tbl Config.ClusterCfg) : (s.setClusters v).scrubs = s.scrubs := (rfl)
@[simp] theorem State.setClusters_scrCopy (s : State) (v : Tbl Config.ClusterCfg) : (s.setClusters v).scrCopy = s.scrCopy := (rfl)
@[simp] theorem State.setClusters_releases (s : State) (v : Tbl Config.ClusterCfg) : (s.setClusters v).releases = s.releases := (rfl)
@[simp] theorem State.setClusters_dieStep (s : State) (v : Tbl Config.ClusterCfg) : (s.setClusters v).dieStep = s.dieStep := (rfl)
@[simp] theorem State.setClusters_clampDef (s : State) (v : Tbl Config.ClusterCfg) : (s.setClusters v).clampDef = s.clampDef := (rfl)
@[simp] theorem State.setClusters_clamps (s : State) (v : Tbl Config.ClusterCfg) : (s.setClusters v).clamps = s.clamps := (rfl)
@[simp] theorem State.setClusters_welds (s : State) (v : Tbl Config.ClusterCfg) : (s.setClusters v).welds = s.welds := (rfl)
@[simp] theorem State.setClusters_lanes (s : State) (v : Tbl Config.ClusterCfg) : (s.setClusters v).lanes = s.lanes := (rfl)
@[simp] theorem State.setClusters_macMode (s : State) (v : Tbl Config.ClusterCfg) : (s.setClusters v).macMode = s.macMode := (rfl)
@[simp] theorem State.setClusters_tod (s : State) (v : Tbl Config.ClusterCfg) : (s.setClusters v).tod = s.tod := (rfl)
@[simp] theorem State.setClusters_lkp (s : State) (v : Tbl Config.ClusterCfg) : (s.setClusters v).lkp = s.lkp := (rfl)
@[simp] theorem State.setClusters_queues (s : State) (v : Tbl Config.ClusterCfg) : (s.setClusters v).queues = s.queues := (rfl)
@[simp] theorem State.setClusters_ports (s : State) (v : Tbl Config.ClusterCfg) : (s.setClusters v).ports = s.ports := (rfl)
@[simp] theorem State.setClusters_pkt (s : State) (v : Tbl Config.ClusterCfg) : (s.setClusters v).pkt = s.pkt := (rfl)
@[simp] theorem State.setClusters_cxl (s : State) (v : Tbl Config.ClusterCfg) : (s.setClusters v).cxl = s.cxl := (rfl)
@[simp] theorem State.setClusters_ddr (s : State) (v : Tbl Config.ClusterCfg) : (s.setClusters v).ddr = s.ddr := (rfl)
@[simp] theorem State.setClusters_regions (s : State) (v : Tbl Config.ClusterCfg) : (s.setClusters v).regions = s.regions := (rfl)
@[simp] theorem State.setClusters_prots (s : State) (v : Tbl Config.ClusterCfg) : (s.setClusters v).prots = s.prots := (rfl)
@[simp] theorem State.setClusters_keyStore (s : State) (v : Tbl Config.ClusterCfg) : (s.setClusters v).keyStore = s.keyStore := (rfl)
@[simp] theorem State.setClusters_rings (s : State) (v : Tbl Config.ClusterCfg) : (s.setClusters v).rings = s.rings := (rfl)
@[simp] theorem State.setClusters_openMem (s : State) (v : Tbl Config.ClusterCfg) : (s.setClusters v).openMem = s.openMem := (rfl)
@[simp] theorem State.setClusters_dcRights (s : State) (v : Tbl Config.ClusterCfg) : (s.setClusters v).dcRights = s.dcRights := (rfl)
@[simp] theorem State.setClusters_clk (s : State) (v : Tbl Config.ClusterCfg) : (s.setClusters v).clk = s.clk := (rfl)
@[simp] theorem State.setClusters_units (s : State) (v : Tbl Config.ClusterCfg) : (s.setClusters v).units = s.units := (rfl)
@[simp] theorem State.setClusters_hearthHit (s : State) (v : Tbl Config.ClusterCfg) : (s.setClusters v).hearthHit = s.hearthHit := (rfl)
@[simp] theorem State.setFfs_pending (s : State) (v : Tbl (BitVec 16)) : (s.setFfs v).pending = s.pending := (rfl)
@[simp] theorem State.setFfs_regs (s : State) (v : Tbl (BitVec 16)) : (s.setFfs v).regs = s.regs := (rfl)
@[simp] theorem State.setFfs_mem (s : State) (v : Tbl (BitVec 16)) : (s.setFfs v).mem = s.mem := (rfl)
@[simp] theorem State.setFfs_poison (s : State) (v : Tbl (BitVec 16)) : (s.setFfs v).poison = s.poison := (rfl)
@[simp] theorem State.setFfs_fresh (s : State) (v : Tbl (BitVec 16)) : (s.setFfs v).fresh = s.fresh := (rfl)
@[simp] theorem State.setFfs_answer (s : State) (v : Tbl (BitVec 16)) : (s.setFfs v).answer = s.answer := (rfl)
@[simp] theorem State.setFfs_answerStatus (s : State) (v : Tbl (BitVec 16)) : (s.setFfs v).answerStatus = s.answerStatus := (rfl)
@[simp] theorem State.setFfs_book (s : State) (v : Tbl (BitVec 16)) : (s.setFfs v).book = s.book := (rfl)
@[simp] theorem State.setFfs_mgt (s : State) (v : Tbl (BitVec 16)) : (s.setFfs v).mgt = s.mgt := (rfl)
@[simp] theorem State.setFfs_fpFifo (s : State) (v : Tbl (BitVec 16)) : (s.setFfs v).fpFifo = s.fpFifo := (rfl)
@[simp] theorem State.setFfs_evtOnce (s : State) (v : Tbl (BitVec 16)) : (s.setFfs v).evtOnce = s.evtOnce := (rfl)
@[simp] theorem State.setFfs_cycles (s : State) (v : Tbl (BitVec 16)) : (s.setFfs v).cycles = s.cycles := (rfl)
@[simp] theorem State.setFfs_pcie (s : State) (v : Tbl (BitVec 16)) : (s.setFfs v).pcie = s.pcie := (rfl)
@[simp] theorem State.setFfs_sent (s : State) (v : Tbl (BitVec 16)) : (s.setFfs v).sent = s.sent := (rfl)
@[simp] theorem State.setFfs_bw (s : State) (v : Tbl (BitVec 16)) : (s.setFfs v).bw = s.bw := (rfl)
@[simp] theorem State.setFfs_pmcLatch (s : State) (v : Tbl (BitVec 16)) : (s.setFfs v).pmcLatch = s.pmcLatch := (rfl)
@[simp] theorem State.setFfs_cal (s : State) (v : Tbl (BitVec 16)) : (s.setFfs v).cal = s.cal := (rfl)
@[simp] theorem State.setFfs_cfg (s : State) (v : Tbl (BitVec 16)) : (s.setFfs v).cfg = s.cfg := (rfl)
@[simp] theorem State.setFfs_tap (s : State) (v : Tbl (BitVec 16)) : (s.setFfs v).tap = s.tap := (rfl)
@[simp] theorem State.setFfs_pins (s : State) (v : Tbl (BitVec 16)) : (s.setFfs v).pins = s.pins := (rfl)
@[simp] theorem State.setFfs_frames (s : State) (v : Tbl (BitVec 16)) : (s.setFfs v).frames = s.frames := (rfl)
@[simp] theorem State.setFfs_clusters (s : State) (v : Tbl (BitVec 16)) : (s.setFfs v).clusters = s.clusters := (rfl)
@[simp] theorem State.setFfs_ffs (s : State) (v : Tbl (BitVec 16)) : (s.setFfs v).ffs = v := (rfl)
@[simp] theorem State.setFfs_relStage (s : State) (v : Tbl (BitVec 16)) : (s.setFfs v).relStage = s.relStage := (rfl)
@[simp] theorem State.setFfs_frozen (s : State) (v : Tbl (BitVec 16)) : (s.setFfs v).frozen = s.frozen := (rfl)
@[simp] theorem State.setFfs_bramCfg (s : State) (v : Tbl (BitVec 16)) : (s.setFfs v).bramCfg = s.bramCfg := (rfl)
@[simp] theorem State.setFfs_bram (s : State) (v : Tbl (BitVec 16)) : (s.setFfs v).bram = s.bram := (rfl)
@[simp] theorem State.setFfs_bramPorts (s : State) (v : Tbl (BitVec 16)) : (s.setFfs v).bramPorts = s.bramPorts := (rfl)
@[simp] theorem State.setFfs_multCfg (s : State) (v : Tbl (BitVec 16)) : (s.setFfs v).multCfg = s.multCfg := (rfl)
@[simp] theorem State.setFfs_mults (s : State) (v : Tbl (BitVec 16)) : (s.setFfs v).mults = s.mults := (rfl)
@[simp] theorem State.setFfs_railKeep (s : State) (v : Tbl (BitVec 16)) : (s.setFfs v).railKeep = s.railKeep := (rfl)
@[simp] theorem State.setFfs_chk (s : State) (v : Tbl (BitVec 16)) : (s.setFfs v).chk = s.chk := (rfl)
@[simp] theorem State.setFfs_eccRaw (s : State) (v : Tbl (BitVec 16)) : (s.setFfs v).eccRaw = s.eccRaw := (rfl)
@[simp] theorem State.setFfs_eccScrub (s : State) (v : Tbl (BitVec 16)) : (s.setFfs v).eccScrub = s.eccScrub := (rfl)
@[simp] theorem State.setFfs_tags (s : State) (v : Tbl (BitVec 16)) : (s.setFfs v).tags = s.tags := (rfl)
@[simp] theorem State.setFfs_xUsed (s : State) (v : Tbl (BitVec 16)) : (s.setFfs v).xUsed = s.xUsed := (rfl)
@[simp] theorem State.setFfs_xWait (s : State) (v : Tbl (BitVec 16)) : (s.setFfs v).xWait = s.xWait := (rfl)
@[simp] theorem State.setFfs_xHeld (s : State) (v : Tbl (BitVec 16)) : (s.setFfs v).xHeld = s.xHeld := (rfl)
@[simp] theorem State.setFfs_routers (s : State) (v : Tbl (BitVec 16)) : (s.setFfs v).routers = s.routers := (rfl)
@[simp] theorem State.setFfs_portMode (s : State) (v : Tbl (BitVec 16)) : (s.setFfs v).portMode = s.portMode := (rfl)
@[simp] theorem State.setFfs_portTags (s : State) (v : Tbl (BitVec 16)) : (s.setFfs v).portTags = s.portTags := (rfl)
@[simp] theorem State.setFfs_portFifo (s : State) (v : Tbl (BitVec 16)) : (s.setFfs v).portFifo = s.portFifo := (rfl)
@[simp] theorem State.setFfs_dcache (s : State) (v : Tbl (BitVec 16)) : (s.setFfs v).dcache = s.dcache := (rfl)
@[simp] theorem State.setFfs_dir (s : State) (v : Tbl (BitVec 16)) : (s.setFfs v).dir = s.dir := (rfl)
@[simp] theorem State.setFfs_dieResets (s : State) (v : Tbl (BitVec 16)) : (s.setFfs v).dieResets = s.dieResets := (rfl)
@[simp] theorem State.setFfs_homeTxn (s : State) (v : Tbl (BitVec 16)) : (s.setFfs v).homeTxn = s.homeTxn := (rfl)
@[simp] theorem State.setFfs_cores (s : State) (v : Tbl (BitVec 16)) : (s.setFfs v).cores = s.cores := (rfl)
@[simp] theorem State.setFfs_tngDone (s : State) (v : Tbl (BitVec 16)) : (s.setFfs v).tngDone = s.tngDone := (rfl)
@[simp] theorem State.setFfs_fab (s : State) (v : Tbl (BitVec 16)) : (s.setFfs v).fab = s.fab := (rfl)
@[simp] theorem State.setFfs_net (s : State) (v : Tbl (BitVec 16)) : (s.setFfs v).net = s.net := (rfl)
@[simp] theorem State.setFfs_rtrShare (s : State) (v : Tbl (BitVec 16)) : (s.setFfs v).rtrShare = s.rtrShare := (rfl)
@[simp] theorem State.setFfs_dbg (s : State) (v : Tbl (BitVec 16)) : (s.setFfs v).dbg = s.dbg := (rfl)
@[simp] theorem State.setFfs_dcWait (s : State) (v : Tbl (BitVec 16)) : (s.setFfs v).dcWait = s.dcWait := (rfl)
@[simp] theorem State.setFfs_prcStep (s : State) (v : Tbl (BitVec 16)) : (s.setFfs v).prcStep = s.prcStep := (rfl)
@[simp] theorem State.setFfs_prcBlank (s : State) (v : Tbl (BitVec 16)) : (s.setFfs v).prcBlank = s.prcBlank := (rfl)
@[simp] theorem State.setFfs_prcHold (s : State) (v : Tbl (BitVec 16)) : (s.setFfs v).prcHold = s.prcHold := (rfl)
@[simp] theorem State.setFfs_capWait (s : State) (v : Tbl (BitVec 16)) : (s.setFfs v).capWait = s.capWait := (rfl)
@[simp] theorem State.setFfs_capture (s : State) (v : Tbl (BitVec 16)) : (s.setFfs v).capture = s.capture := (rfl)
@[simp] theorem State.setFfs_bramDef (s : State) (v : Tbl (BitVec 16)) : (s.setFfs v).bramDef = s.bramDef := (rfl)
@[simp] theorem State.setFfs_scrubs (s : State) (v : Tbl (BitVec 16)) : (s.setFfs v).scrubs = s.scrubs := (rfl)
@[simp] theorem State.setFfs_scrCopy (s : State) (v : Tbl (BitVec 16)) : (s.setFfs v).scrCopy = s.scrCopy := (rfl)
@[simp] theorem State.setFfs_releases (s : State) (v : Tbl (BitVec 16)) : (s.setFfs v).releases = s.releases := (rfl)
@[simp] theorem State.setFfs_dieStep (s : State) (v : Tbl (BitVec 16)) : (s.setFfs v).dieStep = s.dieStep := (rfl)
@[simp] theorem State.setFfs_clampDef (s : State) (v : Tbl (BitVec 16)) : (s.setFfs v).clampDef = s.clampDef := (rfl)
@[simp] theorem State.setFfs_clamps (s : State) (v : Tbl (BitVec 16)) : (s.setFfs v).clamps = s.clamps := (rfl)
@[simp] theorem State.setFfs_welds (s : State) (v : Tbl (BitVec 16)) : (s.setFfs v).welds = s.welds := (rfl)
@[simp] theorem State.setFfs_lanes (s : State) (v : Tbl (BitVec 16)) : (s.setFfs v).lanes = s.lanes := (rfl)
@[simp] theorem State.setFfs_macMode (s : State) (v : Tbl (BitVec 16)) : (s.setFfs v).macMode = s.macMode := (rfl)
@[simp] theorem State.setFfs_tod (s : State) (v : Tbl (BitVec 16)) : (s.setFfs v).tod = s.tod := (rfl)
@[simp] theorem State.setFfs_lkp (s : State) (v : Tbl (BitVec 16)) : (s.setFfs v).lkp = s.lkp := (rfl)
@[simp] theorem State.setFfs_queues (s : State) (v : Tbl (BitVec 16)) : (s.setFfs v).queues = s.queues := (rfl)
@[simp] theorem State.setFfs_ports (s : State) (v : Tbl (BitVec 16)) : (s.setFfs v).ports = s.ports := (rfl)
@[simp] theorem State.setFfs_pkt (s : State) (v : Tbl (BitVec 16)) : (s.setFfs v).pkt = s.pkt := (rfl)
@[simp] theorem State.setFfs_cxl (s : State) (v : Tbl (BitVec 16)) : (s.setFfs v).cxl = s.cxl := (rfl)
@[simp] theorem State.setFfs_ddr (s : State) (v : Tbl (BitVec 16)) : (s.setFfs v).ddr = s.ddr := (rfl)
@[simp] theorem State.setFfs_regions (s : State) (v : Tbl (BitVec 16)) : (s.setFfs v).regions = s.regions := (rfl)
@[simp] theorem State.setFfs_prots (s : State) (v : Tbl (BitVec 16)) : (s.setFfs v).prots = s.prots := (rfl)
@[simp] theorem State.setFfs_keyStore (s : State) (v : Tbl (BitVec 16)) : (s.setFfs v).keyStore = s.keyStore := (rfl)
@[simp] theorem State.setFfs_rings (s : State) (v : Tbl (BitVec 16)) : (s.setFfs v).rings = s.rings := (rfl)
@[simp] theorem State.setFfs_openMem (s : State) (v : Tbl (BitVec 16)) : (s.setFfs v).openMem = s.openMem := (rfl)
@[simp] theorem State.setFfs_dcRights (s : State) (v : Tbl (BitVec 16)) : (s.setFfs v).dcRights = s.dcRights := (rfl)
@[simp] theorem State.setFfs_clk (s : State) (v : Tbl (BitVec 16)) : (s.setFfs v).clk = s.clk := (rfl)
@[simp] theorem State.setFfs_units (s : State) (v : Tbl (BitVec 16)) : (s.setFfs v).units = s.units := (rfl)
@[simp] theorem State.setFfs_hearthHit (s : State) (v : Tbl (BitVec 16)) : (s.setFfs v).hearthHit = s.hearthHit := (rfl)
@[simp] theorem State.setRelStage_pending (s : State) (v : Tbl Nat) : (s.setRelStage v).pending = s.pending := (rfl)
@[simp] theorem State.setRelStage_regs (s : State) (v : Tbl Nat) : (s.setRelStage v).regs = s.regs := (rfl)
@[simp] theorem State.setRelStage_mem (s : State) (v : Tbl Nat) : (s.setRelStage v).mem = s.mem := (rfl)
@[simp] theorem State.setRelStage_poison (s : State) (v : Tbl Nat) : (s.setRelStage v).poison = s.poison := (rfl)
@[simp] theorem State.setRelStage_fresh (s : State) (v : Tbl Nat) : (s.setRelStage v).fresh = s.fresh := (rfl)
@[simp] theorem State.setRelStage_answer (s : State) (v : Tbl Nat) : (s.setRelStage v).answer = s.answer := (rfl)
@[simp] theorem State.setRelStage_answerStatus (s : State) (v : Tbl Nat) : (s.setRelStage v).answerStatus = s.answerStatus := (rfl)
@[simp] theorem State.setRelStage_book (s : State) (v : Tbl Nat) : (s.setRelStage v).book = s.book := (rfl)
@[simp] theorem State.setRelStage_mgt (s : State) (v : Tbl Nat) : (s.setRelStage v).mgt = s.mgt := (rfl)
@[simp] theorem State.setRelStage_fpFifo (s : State) (v : Tbl Nat) : (s.setRelStage v).fpFifo = s.fpFifo := (rfl)
@[simp] theorem State.setRelStage_evtOnce (s : State) (v : Tbl Nat) : (s.setRelStage v).evtOnce = s.evtOnce := (rfl)
@[simp] theorem State.setRelStage_cycles (s : State) (v : Tbl Nat) : (s.setRelStage v).cycles = s.cycles := (rfl)
@[simp] theorem State.setRelStage_pcie (s : State) (v : Tbl Nat) : (s.setRelStage v).pcie = s.pcie := (rfl)
@[simp] theorem State.setRelStage_sent (s : State) (v : Tbl Nat) : (s.setRelStage v).sent = s.sent := (rfl)
@[simp] theorem State.setRelStage_bw (s : State) (v : Tbl Nat) : (s.setRelStage v).bw = s.bw := (rfl)
@[simp] theorem State.setRelStage_pmcLatch (s : State) (v : Tbl Nat) : (s.setRelStage v).pmcLatch = s.pmcLatch := (rfl)
@[simp] theorem State.setRelStage_cal (s : State) (v : Tbl Nat) : (s.setRelStage v).cal = s.cal := (rfl)
@[simp] theorem State.setRelStage_cfg (s : State) (v : Tbl Nat) : (s.setRelStage v).cfg = s.cfg := (rfl)
@[simp] theorem State.setRelStage_tap (s : State) (v : Tbl Nat) : (s.setRelStage v).tap = s.tap := (rfl)
@[simp] theorem State.setRelStage_pins (s : State) (v : Tbl Nat) : (s.setRelStage v).pins = s.pins := (rfl)
@[simp] theorem State.setRelStage_frames (s : State) (v : Tbl Nat) : (s.setRelStage v).frames = s.frames := (rfl)
@[simp] theorem State.setRelStage_clusters (s : State) (v : Tbl Nat) : (s.setRelStage v).clusters = s.clusters := (rfl)
@[simp] theorem State.setRelStage_ffs (s : State) (v : Tbl Nat) : (s.setRelStage v).ffs = s.ffs := (rfl)
@[simp] theorem State.setRelStage_relStage (s : State) (v : Tbl Nat) : (s.setRelStage v).relStage = v := (rfl)
@[simp] theorem State.setRelStage_frozen (s : State) (v : Tbl Nat) : (s.setRelStage v).frozen = s.frozen := (rfl)
@[simp] theorem State.setRelStage_bramCfg (s : State) (v : Tbl Nat) : (s.setRelStage v).bramCfg = s.bramCfg := (rfl)
@[simp] theorem State.setRelStage_bram (s : State) (v : Tbl Nat) : (s.setRelStage v).bram = s.bram := (rfl)
@[simp] theorem State.setRelStage_bramPorts (s : State) (v : Tbl Nat) : (s.setRelStage v).bramPorts = s.bramPorts := (rfl)
@[simp] theorem State.setRelStage_multCfg (s : State) (v : Tbl Nat) : (s.setRelStage v).multCfg = s.multCfg := (rfl)
@[simp] theorem State.setRelStage_mults (s : State) (v : Tbl Nat) : (s.setRelStage v).mults = s.mults := (rfl)
@[simp] theorem State.setRelStage_railKeep (s : State) (v : Tbl Nat) : (s.setRelStage v).railKeep = s.railKeep := (rfl)
@[simp] theorem State.setRelStage_chk (s : State) (v : Tbl Nat) : (s.setRelStage v).chk = s.chk := (rfl)
@[simp] theorem State.setRelStage_eccRaw (s : State) (v : Tbl Nat) : (s.setRelStage v).eccRaw = s.eccRaw := (rfl)
@[simp] theorem State.setRelStage_eccScrub (s : State) (v : Tbl Nat) : (s.setRelStage v).eccScrub = s.eccScrub := (rfl)
@[simp] theorem State.setRelStage_tags (s : State) (v : Tbl Nat) : (s.setRelStage v).tags = s.tags := (rfl)
@[simp] theorem State.setRelStage_xUsed (s : State) (v : Tbl Nat) : (s.setRelStage v).xUsed = s.xUsed := (rfl)
@[simp] theorem State.setRelStage_xWait (s : State) (v : Tbl Nat) : (s.setRelStage v).xWait = s.xWait := (rfl)
@[simp] theorem State.setRelStage_xHeld (s : State) (v : Tbl Nat) : (s.setRelStage v).xHeld = s.xHeld := (rfl)
@[simp] theorem State.setRelStage_routers (s : State) (v : Tbl Nat) : (s.setRelStage v).routers = s.routers := (rfl)
@[simp] theorem State.setRelStage_portMode (s : State) (v : Tbl Nat) : (s.setRelStage v).portMode = s.portMode := (rfl)
@[simp] theorem State.setRelStage_portTags (s : State) (v : Tbl Nat) : (s.setRelStage v).portTags = s.portTags := (rfl)
@[simp] theorem State.setRelStage_portFifo (s : State) (v : Tbl Nat) : (s.setRelStage v).portFifo = s.portFifo := (rfl)
@[simp] theorem State.setRelStage_dcache (s : State) (v : Tbl Nat) : (s.setRelStage v).dcache = s.dcache := (rfl)
@[simp] theorem State.setRelStage_dir (s : State) (v : Tbl Nat) : (s.setRelStage v).dir = s.dir := (rfl)
@[simp] theorem State.setRelStage_dieResets (s : State) (v : Tbl Nat) : (s.setRelStage v).dieResets = s.dieResets := (rfl)
@[simp] theorem State.setRelStage_homeTxn (s : State) (v : Tbl Nat) : (s.setRelStage v).homeTxn = s.homeTxn := (rfl)
@[simp] theorem State.setRelStage_cores (s : State) (v : Tbl Nat) : (s.setRelStage v).cores = s.cores := (rfl)
@[simp] theorem State.setRelStage_tngDone (s : State) (v : Tbl Nat) : (s.setRelStage v).tngDone = s.tngDone := (rfl)
@[simp] theorem State.setRelStage_fab (s : State) (v : Tbl Nat) : (s.setRelStage v).fab = s.fab := (rfl)
@[simp] theorem State.setRelStage_net (s : State) (v : Tbl Nat) : (s.setRelStage v).net = s.net := (rfl)
@[simp] theorem State.setRelStage_rtrShare (s : State) (v : Tbl Nat) : (s.setRelStage v).rtrShare = s.rtrShare := (rfl)
@[simp] theorem State.setRelStage_dbg (s : State) (v : Tbl Nat) : (s.setRelStage v).dbg = s.dbg := (rfl)
@[simp] theorem State.setRelStage_dcWait (s : State) (v : Tbl Nat) : (s.setRelStage v).dcWait = s.dcWait := (rfl)
@[simp] theorem State.setRelStage_prcStep (s : State) (v : Tbl Nat) : (s.setRelStage v).prcStep = s.prcStep := (rfl)
@[simp] theorem State.setRelStage_prcBlank (s : State) (v : Tbl Nat) : (s.setRelStage v).prcBlank = s.prcBlank := (rfl)
@[simp] theorem State.setRelStage_prcHold (s : State) (v : Tbl Nat) : (s.setRelStage v).prcHold = s.prcHold := (rfl)
@[simp] theorem State.setRelStage_capWait (s : State) (v : Tbl Nat) : (s.setRelStage v).capWait = s.capWait := (rfl)
@[simp] theorem State.setRelStage_capture (s : State) (v : Tbl Nat) : (s.setRelStage v).capture = s.capture := (rfl)
@[simp] theorem State.setRelStage_bramDef (s : State) (v : Tbl Nat) : (s.setRelStage v).bramDef = s.bramDef := (rfl)
@[simp] theorem State.setRelStage_scrubs (s : State) (v : Tbl Nat) : (s.setRelStage v).scrubs = s.scrubs := (rfl)
@[simp] theorem State.setRelStage_scrCopy (s : State) (v : Tbl Nat) : (s.setRelStage v).scrCopy = s.scrCopy := (rfl)
@[simp] theorem State.setRelStage_releases (s : State) (v : Tbl Nat) : (s.setRelStage v).releases = s.releases := (rfl)
@[simp] theorem State.setRelStage_dieStep (s : State) (v : Tbl Nat) : (s.setRelStage v).dieStep = s.dieStep := (rfl)
@[simp] theorem State.setRelStage_clampDef (s : State) (v : Tbl Nat) : (s.setRelStage v).clampDef = s.clampDef := (rfl)
@[simp] theorem State.setRelStage_clamps (s : State) (v : Tbl Nat) : (s.setRelStage v).clamps = s.clamps := (rfl)
@[simp] theorem State.setRelStage_welds (s : State) (v : Tbl Nat) : (s.setRelStage v).welds = s.welds := (rfl)
@[simp] theorem State.setRelStage_lanes (s : State) (v : Tbl Nat) : (s.setRelStage v).lanes = s.lanes := (rfl)
@[simp] theorem State.setRelStage_macMode (s : State) (v : Tbl Nat) : (s.setRelStage v).macMode = s.macMode := (rfl)
@[simp] theorem State.setRelStage_tod (s : State) (v : Tbl Nat) : (s.setRelStage v).tod = s.tod := (rfl)
@[simp] theorem State.setRelStage_lkp (s : State) (v : Tbl Nat) : (s.setRelStage v).lkp = s.lkp := (rfl)
@[simp] theorem State.setRelStage_queues (s : State) (v : Tbl Nat) : (s.setRelStage v).queues = s.queues := (rfl)
@[simp] theorem State.setRelStage_ports (s : State) (v : Tbl Nat) : (s.setRelStage v).ports = s.ports := (rfl)
@[simp] theorem State.setRelStage_pkt (s : State) (v : Tbl Nat) : (s.setRelStage v).pkt = s.pkt := (rfl)
@[simp] theorem State.setRelStage_cxl (s : State) (v : Tbl Nat) : (s.setRelStage v).cxl = s.cxl := (rfl)
@[simp] theorem State.setRelStage_ddr (s : State) (v : Tbl Nat) : (s.setRelStage v).ddr = s.ddr := (rfl)
@[simp] theorem State.setRelStage_regions (s : State) (v : Tbl Nat) : (s.setRelStage v).regions = s.regions := (rfl)
@[simp] theorem State.setRelStage_prots (s : State) (v : Tbl Nat) : (s.setRelStage v).prots = s.prots := (rfl)
@[simp] theorem State.setRelStage_keyStore (s : State) (v : Tbl Nat) : (s.setRelStage v).keyStore = s.keyStore := (rfl)
@[simp] theorem State.setRelStage_rings (s : State) (v : Tbl Nat) : (s.setRelStage v).rings = s.rings := (rfl)
@[simp] theorem State.setRelStage_openMem (s : State) (v : Tbl Nat) : (s.setRelStage v).openMem = s.openMem := (rfl)
@[simp] theorem State.setRelStage_dcRights (s : State) (v : Tbl Nat) : (s.setRelStage v).dcRights = s.dcRights := (rfl)
@[simp] theorem State.setRelStage_clk (s : State) (v : Tbl Nat) : (s.setRelStage v).clk = s.clk := (rfl)
@[simp] theorem State.setRelStage_units (s : State) (v : Tbl Nat) : (s.setRelStage v).units = s.units := (rfl)
@[simp] theorem State.setRelStage_hearthHit (s : State) (v : Tbl Nat) : (s.setRelStage v).hearthHit = s.hearthHit := (rfl)
@[simp] theorem State.setFrozen_pending (s : State) (v : List Nat) : (s.setFrozen v).pending = s.pending := (rfl)
@[simp] theorem State.setFrozen_regs (s : State) (v : List Nat) : (s.setFrozen v).regs = s.regs := (rfl)
@[simp] theorem State.setFrozen_mem (s : State) (v : List Nat) : (s.setFrozen v).mem = s.mem := (rfl)
@[simp] theorem State.setFrozen_poison (s : State) (v : List Nat) : (s.setFrozen v).poison = s.poison := (rfl)
@[simp] theorem State.setFrozen_fresh (s : State) (v : List Nat) : (s.setFrozen v).fresh = s.fresh := (rfl)
@[simp] theorem State.setFrozen_answer (s : State) (v : List Nat) : (s.setFrozen v).answer = s.answer := (rfl)
@[simp] theorem State.setFrozen_answerStatus (s : State) (v : List Nat) : (s.setFrozen v).answerStatus = s.answerStatus := (rfl)
@[simp] theorem State.setFrozen_book (s : State) (v : List Nat) : (s.setFrozen v).book = s.book := (rfl)
@[simp] theorem State.setFrozen_mgt (s : State) (v : List Nat) : (s.setFrozen v).mgt = s.mgt := (rfl)
@[simp] theorem State.setFrozen_fpFifo (s : State) (v : List Nat) : (s.setFrozen v).fpFifo = s.fpFifo := (rfl)
@[simp] theorem State.setFrozen_evtOnce (s : State) (v : List Nat) : (s.setFrozen v).evtOnce = s.evtOnce := (rfl)
@[simp] theorem State.setFrozen_cycles (s : State) (v : List Nat) : (s.setFrozen v).cycles = s.cycles := (rfl)
@[simp] theorem State.setFrozen_pcie (s : State) (v : List Nat) : (s.setFrozen v).pcie = s.pcie := (rfl)
@[simp] theorem State.setFrozen_sent (s : State) (v : List Nat) : (s.setFrozen v).sent = s.sent := (rfl)
@[simp] theorem State.setFrozen_bw (s : State) (v : List Nat) : (s.setFrozen v).bw = s.bw := (rfl)
@[simp] theorem State.setFrozen_pmcLatch (s : State) (v : List Nat) : (s.setFrozen v).pmcLatch = s.pmcLatch := (rfl)
@[simp] theorem State.setFrozen_cal (s : State) (v : List Nat) : (s.setFrozen v).cal = s.cal := (rfl)
@[simp] theorem State.setFrozen_cfg (s : State) (v : List Nat) : (s.setFrozen v).cfg = s.cfg := (rfl)
@[simp] theorem State.setFrozen_tap (s : State) (v : List Nat) : (s.setFrozen v).tap = s.tap := (rfl)
@[simp] theorem State.setFrozen_pins (s : State) (v : List Nat) : (s.setFrozen v).pins = s.pins := (rfl)
@[simp] theorem State.setFrozen_frames (s : State) (v : List Nat) : (s.setFrozen v).frames = s.frames := (rfl)
@[simp] theorem State.setFrozen_clusters (s : State) (v : List Nat) : (s.setFrozen v).clusters = s.clusters := (rfl)
@[simp] theorem State.setFrozen_ffs (s : State) (v : List Nat) : (s.setFrozen v).ffs = s.ffs := (rfl)
@[simp] theorem State.setFrozen_relStage (s : State) (v : List Nat) : (s.setFrozen v).relStage = s.relStage := (rfl)
@[simp] theorem State.setFrozen_frozen (s : State) (v : List Nat) : (s.setFrozen v).frozen = v := (rfl)
@[simp] theorem State.setFrozen_bramCfg (s : State) (v : List Nat) : (s.setFrozen v).bramCfg = s.bramCfg := (rfl)
@[simp] theorem State.setFrozen_bram (s : State) (v : List Nat) : (s.setFrozen v).bram = s.bram := (rfl)
@[simp] theorem State.setFrozen_bramPorts (s : State) (v : List Nat) : (s.setFrozen v).bramPorts = s.bramPorts := (rfl)
@[simp] theorem State.setFrozen_multCfg (s : State) (v : List Nat) : (s.setFrozen v).multCfg = s.multCfg := (rfl)
@[simp] theorem State.setFrozen_mults (s : State) (v : List Nat) : (s.setFrozen v).mults = s.mults := (rfl)
@[simp] theorem State.setFrozen_railKeep (s : State) (v : List Nat) : (s.setFrozen v).railKeep = s.railKeep := (rfl)
@[simp] theorem State.setFrozen_chk (s : State) (v : List Nat) : (s.setFrozen v).chk = s.chk := (rfl)
@[simp] theorem State.setFrozen_eccRaw (s : State) (v : List Nat) : (s.setFrozen v).eccRaw = s.eccRaw := (rfl)
@[simp] theorem State.setFrozen_eccScrub (s : State) (v : List Nat) : (s.setFrozen v).eccScrub = s.eccScrub := (rfl)
@[simp] theorem State.setFrozen_tags (s : State) (v : List Nat) : (s.setFrozen v).tags = s.tags := (rfl)
@[simp] theorem State.setFrozen_xUsed (s : State) (v : List Nat) : (s.setFrozen v).xUsed = s.xUsed := (rfl)
@[simp] theorem State.setFrozen_xWait (s : State) (v : List Nat) : (s.setFrozen v).xWait = s.xWait := (rfl)
@[simp] theorem State.setFrozen_xHeld (s : State) (v : List Nat) : (s.setFrozen v).xHeld = s.xHeld := (rfl)
@[simp] theorem State.setFrozen_routers (s : State) (v : List Nat) : (s.setFrozen v).routers = s.routers := (rfl)
@[simp] theorem State.setFrozen_portMode (s : State) (v : List Nat) : (s.setFrozen v).portMode = s.portMode := (rfl)
@[simp] theorem State.setFrozen_portTags (s : State) (v : List Nat) : (s.setFrozen v).portTags = s.portTags := (rfl)
@[simp] theorem State.setFrozen_portFifo (s : State) (v : List Nat) : (s.setFrozen v).portFifo = s.portFifo := (rfl)
@[simp] theorem State.setFrozen_dcache (s : State) (v : List Nat) : (s.setFrozen v).dcache = s.dcache := (rfl)
@[simp] theorem State.setFrozen_dir (s : State) (v : List Nat) : (s.setFrozen v).dir = s.dir := (rfl)
@[simp] theorem State.setFrozen_dieResets (s : State) (v : List Nat) : (s.setFrozen v).dieResets = s.dieResets := (rfl)
@[simp] theorem State.setFrozen_homeTxn (s : State) (v : List Nat) : (s.setFrozen v).homeTxn = s.homeTxn := (rfl)
@[simp] theorem State.setFrozen_cores (s : State) (v : List Nat) : (s.setFrozen v).cores = s.cores := (rfl)
@[simp] theorem State.setFrozen_tngDone (s : State) (v : List Nat) : (s.setFrozen v).tngDone = s.tngDone := (rfl)
@[simp] theorem State.setFrozen_fab (s : State) (v : List Nat) : (s.setFrozen v).fab = s.fab := (rfl)
@[simp] theorem State.setFrozen_net (s : State) (v : List Nat) : (s.setFrozen v).net = s.net := (rfl)
@[simp] theorem State.setFrozen_rtrShare (s : State) (v : List Nat) : (s.setFrozen v).rtrShare = s.rtrShare := (rfl)
@[simp] theorem State.setFrozen_dbg (s : State) (v : List Nat) : (s.setFrozen v).dbg = s.dbg := (rfl)
@[simp] theorem State.setFrozen_dcWait (s : State) (v : List Nat) : (s.setFrozen v).dcWait = s.dcWait := (rfl)
@[simp] theorem State.setFrozen_prcStep (s : State) (v : List Nat) : (s.setFrozen v).prcStep = s.prcStep := (rfl)
@[simp] theorem State.setFrozen_prcBlank (s : State) (v : List Nat) : (s.setFrozen v).prcBlank = s.prcBlank := (rfl)
@[simp] theorem State.setFrozen_prcHold (s : State) (v : List Nat) : (s.setFrozen v).prcHold = s.prcHold := (rfl)
@[simp] theorem State.setFrozen_capWait (s : State) (v : List Nat) : (s.setFrozen v).capWait = s.capWait := (rfl)
@[simp] theorem State.setFrozen_capture (s : State) (v : List Nat) : (s.setFrozen v).capture = s.capture := (rfl)
@[simp] theorem State.setFrozen_bramDef (s : State) (v : List Nat) : (s.setFrozen v).bramDef = s.bramDef := (rfl)
@[simp] theorem State.setFrozen_scrubs (s : State) (v : List Nat) : (s.setFrozen v).scrubs = s.scrubs := (rfl)
@[simp] theorem State.setFrozen_scrCopy (s : State) (v : List Nat) : (s.setFrozen v).scrCopy = s.scrCopy := (rfl)
@[simp] theorem State.setFrozen_releases (s : State) (v : List Nat) : (s.setFrozen v).releases = s.releases := (rfl)
@[simp] theorem State.setFrozen_dieStep (s : State) (v : List Nat) : (s.setFrozen v).dieStep = s.dieStep := (rfl)
@[simp] theorem State.setFrozen_clampDef (s : State) (v : List Nat) : (s.setFrozen v).clampDef = s.clampDef := (rfl)
@[simp] theorem State.setFrozen_clamps (s : State) (v : List Nat) : (s.setFrozen v).clamps = s.clamps := (rfl)
@[simp] theorem State.setFrozen_welds (s : State) (v : List Nat) : (s.setFrozen v).welds = s.welds := (rfl)
@[simp] theorem State.setFrozen_lanes (s : State) (v : List Nat) : (s.setFrozen v).lanes = s.lanes := (rfl)
@[simp] theorem State.setFrozen_macMode (s : State) (v : List Nat) : (s.setFrozen v).macMode = s.macMode := (rfl)
@[simp] theorem State.setFrozen_tod (s : State) (v : List Nat) : (s.setFrozen v).tod = s.tod := (rfl)
@[simp] theorem State.setFrozen_lkp (s : State) (v : List Nat) : (s.setFrozen v).lkp = s.lkp := (rfl)
@[simp] theorem State.setFrozen_queues (s : State) (v : List Nat) : (s.setFrozen v).queues = s.queues := (rfl)
@[simp] theorem State.setFrozen_ports (s : State) (v : List Nat) : (s.setFrozen v).ports = s.ports := (rfl)
@[simp] theorem State.setFrozen_pkt (s : State) (v : List Nat) : (s.setFrozen v).pkt = s.pkt := (rfl)
@[simp] theorem State.setFrozen_cxl (s : State) (v : List Nat) : (s.setFrozen v).cxl = s.cxl := (rfl)
@[simp] theorem State.setFrozen_ddr (s : State) (v : List Nat) : (s.setFrozen v).ddr = s.ddr := (rfl)
@[simp] theorem State.setFrozen_regions (s : State) (v : List Nat) : (s.setFrozen v).regions = s.regions := (rfl)
@[simp] theorem State.setFrozen_prots (s : State) (v : List Nat) : (s.setFrozen v).prots = s.prots := (rfl)
@[simp] theorem State.setFrozen_keyStore (s : State) (v : List Nat) : (s.setFrozen v).keyStore = s.keyStore := (rfl)
@[simp] theorem State.setFrozen_rings (s : State) (v : List Nat) : (s.setFrozen v).rings = s.rings := (rfl)
@[simp] theorem State.setFrozen_openMem (s : State) (v : List Nat) : (s.setFrozen v).openMem = s.openMem := (rfl)
@[simp] theorem State.setFrozen_dcRights (s : State) (v : List Nat) : (s.setFrozen v).dcRights = s.dcRights := (rfl)
@[simp] theorem State.setFrozen_clk (s : State) (v : List Nat) : (s.setFrozen v).clk = s.clk := (rfl)
@[simp] theorem State.setFrozen_units (s : State) (v : List Nat) : (s.setFrozen v).units = s.units := (rfl)
@[simp] theorem State.setFrozen_hearthHit (s : State) (v : List Nat) : (s.setFrozen v).hearthHit = s.hearthHit := (rfl)
@[simp] theorem State.setBramCfg_pending (s : State) (v : Tbl Config.BramCfg) : (s.setBramCfg v).pending = s.pending := (rfl)
@[simp] theorem State.setBramCfg_regs (s : State) (v : Tbl Config.BramCfg) : (s.setBramCfg v).regs = s.regs := (rfl)
@[simp] theorem State.setBramCfg_mem (s : State) (v : Tbl Config.BramCfg) : (s.setBramCfg v).mem = s.mem := (rfl)
@[simp] theorem State.setBramCfg_poison (s : State) (v : Tbl Config.BramCfg) : (s.setBramCfg v).poison = s.poison := (rfl)
@[simp] theorem State.setBramCfg_fresh (s : State) (v : Tbl Config.BramCfg) : (s.setBramCfg v).fresh = s.fresh := (rfl)
@[simp] theorem State.setBramCfg_answer (s : State) (v : Tbl Config.BramCfg) : (s.setBramCfg v).answer = s.answer := (rfl)
@[simp] theorem State.setBramCfg_answerStatus (s : State) (v : Tbl Config.BramCfg) : (s.setBramCfg v).answerStatus = s.answerStatus := (rfl)
@[simp] theorem State.setBramCfg_book (s : State) (v : Tbl Config.BramCfg) : (s.setBramCfg v).book = s.book := (rfl)
@[simp] theorem State.setBramCfg_mgt (s : State) (v : Tbl Config.BramCfg) : (s.setBramCfg v).mgt = s.mgt := (rfl)
@[simp] theorem State.setBramCfg_fpFifo (s : State) (v : Tbl Config.BramCfg) : (s.setBramCfg v).fpFifo = s.fpFifo := (rfl)
@[simp] theorem State.setBramCfg_evtOnce (s : State) (v : Tbl Config.BramCfg) : (s.setBramCfg v).evtOnce = s.evtOnce := (rfl)
@[simp] theorem State.setBramCfg_cycles (s : State) (v : Tbl Config.BramCfg) : (s.setBramCfg v).cycles = s.cycles := (rfl)
@[simp] theorem State.setBramCfg_pcie (s : State) (v : Tbl Config.BramCfg) : (s.setBramCfg v).pcie = s.pcie := (rfl)
@[simp] theorem State.setBramCfg_sent (s : State) (v : Tbl Config.BramCfg) : (s.setBramCfg v).sent = s.sent := (rfl)
@[simp] theorem State.setBramCfg_bw (s : State) (v : Tbl Config.BramCfg) : (s.setBramCfg v).bw = s.bw := (rfl)
@[simp] theorem State.setBramCfg_pmcLatch (s : State) (v : Tbl Config.BramCfg) : (s.setBramCfg v).pmcLatch = s.pmcLatch := (rfl)
@[simp] theorem State.setBramCfg_cal (s : State) (v : Tbl Config.BramCfg) : (s.setBramCfg v).cal = s.cal := (rfl)
@[simp] theorem State.setBramCfg_cfg (s : State) (v : Tbl Config.BramCfg) : (s.setBramCfg v).cfg = s.cfg := (rfl)
@[simp] theorem State.setBramCfg_tap (s : State) (v : Tbl Config.BramCfg) : (s.setBramCfg v).tap = s.tap := (rfl)
@[simp] theorem State.setBramCfg_pins (s : State) (v : Tbl Config.BramCfg) : (s.setBramCfg v).pins = s.pins := (rfl)
@[simp] theorem State.setBramCfg_frames (s : State) (v : Tbl Config.BramCfg) : (s.setBramCfg v).frames = s.frames := (rfl)
@[simp] theorem State.setBramCfg_clusters (s : State) (v : Tbl Config.BramCfg) : (s.setBramCfg v).clusters = s.clusters := (rfl)
@[simp] theorem State.setBramCfg_ffs (s : State) (v : Tbl Config.BramCfg) : (s.setBramCfg v).ffs = s.ffs := (rfl)
@[simp] theorem State.setBramCfg_relStage (s : State) (v : Tbl Config.BramCfg) : (s.setBramCfg v).relStage = s.relStage := (rfl)
@[simp] theorem State.setBramCfg_frozen (s : State) (v : Tbl Config.BramCfg) : (s.setBramCfg v).frozen = s.frozen := (rfl)
@[simp] theorem State.setBramCfg_bramCfg (s : State) (v : Tbl Config.BramCfg) : (s.setBramCfg v).bramCfg = v := (rfl)
@[simp] theorem State.setBramCfg_bram (s : State) (v : Tbl Config.BramCfg) : (s.setBramCfg v).bram = s.bram := (rfl)
@[simp] theorem State.setBramCfg_bramPorts (s : State) (v : Tbl Config.BramCfg) : (s.setBramCfg v).bramPorts = s.bramPorts := (rfl)
@[simp] theorem State.setBramCfg_multCfg (s : State) (v : Tbl Config.BramCfg) : (s.setBramCfg v).multCfg = s.multCfg := (rfl)
@[simp] theorem State.setBramCfg_mults (s : State) (v : Tbl Config.BramCfg) : (s.setBramCfg v).mults = s.mults := (rfl)
@[simp] theorem State.setBramCfg_railKeep (s : State) (v : Tbl Config.BramCfg) : (s.setBramCfg v).railKeep = s.railKeep := (rfl)
@[simp] theorem State.setBramCfg_chk (s : State) (v : Tbl Config.BramCfg) : (s.setBramCfg v).chk = s.chk := (rfl)
@[simp] theorem State.setBramCfg_eccRaw (s : State) (v : Tbl Config.BramCfg) : (s.setBramCfg v).eccRaw = s.eccRaw := (rfl)
@[simp] theorem State.setBramCfg_eccScrub (s : State) (v : Tbl Config.BramCfg) : (s.setBramCfg v).eccScrub = s.eccScrub := (rfl)
@[simp] theorem State.setBramCfg_tags (s : State) (v : Tbl Config.BramCfg) : (s.setBramCfg v).tags = s.tags := (rfl)
@[simp] theorem State.setBramCfg_xUsed (s : State) (v : Tbl Config.BramCfg) : (s.setBramCfg v).xUsed = s.xUsed := (rfl)
@[simp] theorem State.setBramCfg_xWait (s : State) (v : Tbl Config.BramCfg) : (s.setBramCfg v).xWait = s.xWait := (rfl)
@[simp] theorem State.setBramCfg_xHeld (s : State) (v : Tbl Config.BramCfg) : (s.setBramCfg v).xHeld = s.xHeld := (rfl)
@[simp] theorem State.setBramCfg_routers (s : State) (v : Tbl Config.BramCfg) : (s.setBramCfg v).routers = s.routers := (rfl)
@[simp] theorem State.setBramCfg_portMode (s : State) (v : Tbl Config.BramCfg) : (s.setBramCfg v).portMode = s.portMode := (rfl)
@[simp] theorem State.setBramCfg_portTags (s : State) (v : Tbl Config.BramCfg) : (s.setBramCfg v).portTags = s.portTags := (rfl)
@[simp] theorem State.setBramCfg_portFifo (s : State) (v : Tbl Config.BramCfg) : (s.setBramCfg v).portFifo = s.portFifo := (rfl)
@[simp] theorem State.setBramCfg_dcache (s : State) (v : Tbl Config.BramCfg) : (s.setBramCfg v).dcache = s.dcache := (rfl)
@[simp] theorem State.setBramCfg_dir (s : State) (v : Tbl Config.BramCfg) : (s.setBramCfg v).dir = s.dir := (rfl)
@[simp] theorem State.setBramCfg_dieResets (s : State) (v : Tbl Config.BramCfg) : (s.setBramCfg v).dieResets = s.dieResets := (rfl)
@[simp] theorem State.setBramCfg_homeTxn (s : State) (v : Tbl Config.BramCfg) : (s.setBramCfg v).homeTxn = s.homeTxn := (rfl)
@[simp] theorem State.setBramCfg_cores (s : State) (v : Tbl Config.BramCfg) : (s.setBramCfg v).cores = s.cores := (rfl)
@[simp] theorem State.setBramCfg_tngDone (s : State) (v : Tbl Config.BramCfg) : (s.setBramCfg v).tngDone = s.tngDone := (rfl)
@[simp] theorem State.setBramCfg_fab (s : State) (v : Tbl Config.BramCfg) : (s.setBramCfg v).fab = s.fab := (rfl)
@[simp] theorem State.setBramCfg_net (s : State) (v : Tbl Config.BramCfg) : (s.setBramCfg v).net = s.net := (rfl)
@[simp] theorem State.setBramCfg_rtrShare (s : State) (v : Tbl Config.BramCfg) : (s.setBramCfg v).rtrShare = s.rtrShare := (rfl)
@[simp] theorem State.setBramCfg_dbg (s : State) (v : Tbl Config.BramCfg) : (s.setBramCfg v).dbg = s.dbg := (rfl)
@[simp] theorem State.setBramCfg_dcWait (s : State) (v : Tbl Config.BramCfg) : (s.setBramCfg v).dcWait = s.dcWait := (rfl)
@[simp] theorem State.setBramCfg_prcStep (s : State) (v : Tbl Config.BramCfg) : (s.setBramCfg v).prcStep = s.prcStep := (rfl)
@[simp] theorem State.setBramCfg_prcBlank (s : State) (v : Tbl Config.BramCfg) : (s.setBramCfg v).prcBlank = s.prcBlank := (rfl)
@[simp] theorem State.setBramCfg_prcHold (s : State) (v : Tbl Config.BramCfg) : (s.setBramCfg v).prcHold = s.prcHold := (rfl)
@[simp] theorem State.setBramCfg_capWait (s : State) (v : Tbl Config.BramCfg) : (s.setBramCfg v).capWait = s.capWait := (rfl)
@[simp] theorem State.setBramCfg_capture (s : State) (v : Tbl Config.BramCfg) : (s.setBramCfg v).capture = s.capture := (rfl)
@[simp] theorem State.setBramCfg_bramDef (s : State) (v : Tbl Config.BramCfg) : (s.setBramCfg v).bramDef = s.bramDef := (rfl)
@[simp] theorem State.setBramCfg_scrubs (s : State) (v : Tbl Config.BramCfg) : (s.setBramCfg v).scrubs = s.scrubs := (rfl)
@[simp] theorem State.setBramCfg_scrCopy (s : State) (v : Tbl Config.BramCfg) : (s.setBramCfg v).scrCopy = s.scrCopy := (rfl)
@[simp] theorem State.setBramCfg_releases (s : State) (v : Tbl Config.BramCfg) : (s.setBramCfg v).releases = s.releases := (rfl)
@[simp] theorem State.setBramCfg_dieStep (s : State) (v : Tbl Config.BramCfg) : (s.setBramCfg v).dieStep = s.dieStep := (rfl)
@[simp] theorem State.setBramCfg_clampDef (s : State) (v : Tbl Config.BramCfg) : (s.setBramCfg v).clampDef = s.clampDef := (rfl)
@[simp] theorem State.setBramCfg_clamps (s : State) (v : Tbl Config.BramCfg) : (s.setBramCfg v).clamps = s.clamps := (rfl)
@[simp] theorem State.setBramCfg_welds (s : State) (v : Tbl Config.BramCfg) : (s.setBramCfg v).welds = s.welds := (rfl)
@[simp] theorem State.setBramCfg_lanes (s : State) (v : Tbl Config.BramCfg) : (s.setBramCfg v).lanes = s.lanes := (rfl)
@[simp] theorem State.setBramCfg_macMode (s : State) (v : Tbl Config.BramCfg) : (s.setBramCfg v).macMode = s.macMode := (rfl)
@[simp] theorem State.setBramCfg_tod (s : State) (v : Tbl Config.BramCfg) : (s.setBramCfg v).tod = s.tod := (rfl)
@[simp] theorem State.setBramCfg_lkp (s : State) (v : Tbl Config.BramCfg) : (s.setBramCfg v).lkp = s.lkp := (rfl)
@[simp] theorem State.setBramCfg_queues (s : State) (v : Tbl Config.BramCfg) : (s.setBramCfg v).queues = s.queues := (rfl)
@[simp] theorem State.setBramCfg_ports (s : State) (v : Tbl Config.BramCfg) : (s.setBramCfg v).ports = s.ports := (rfl)
@[simp] theorem State.setBramCfg_pkt (s : State) (v : Tbl Config.BramCfg) : (s.setBramCfg v).pkt = s.pkt := (rfl)
@[simp] theorem State.setBramCfg_cxl (s : State) (v : Tbl Config.BramCfg) : (s.setBramCfg v).cxl = s.cxl := (rfl)
@[simp] theorem State.setBramCfg_ddr (s : State) (v : Tbl Config.BramCfg) : (s.setBramCfg v).ddr = s.ddr := (rfl)
@[simp] theorem State.setBramCfg_regions (s : State) (v : Tbl Config.BramCfg) : (s.setBramCfg v).regions = s.regions := (rfl)
@[simp] theorem State.setBramCfg_prots (s : State) (v : Tbl Config.BramCfg) : (s.setBramCfg v).prots = s.prots := (rfl)
@[simp] theorem State.setBramCfg_keyStore (s : State) (v : Tbl Config.BramCfg) : (s.setBramCfg v).keyStore = s.keyStore := (rfl)
@[simp] theorem State.setBramCfg_rings (s : State) (v : Tbl Config.BramCfg) : (s.setBramCfg v).rings = s.rings := (rfl)
@[simp] theorem State.setBramCfg_openMem (s : State) (v : Tbl Config.BramCfg) : (s.setBramCfg v).openMem = s.openMem := (rfl)
@[simp] theorem State.setBramCfg_dcRights (s : State) (v : Tbl Config.BramCfg) : (s.setBramCfg v).dcRights = s.dcRights := (rfl)
@[simp] theorem State.setBramCfg_clk (s : State) (v : Tbl Config.BramCfg) : (s.setBramCfg v).clk = s.clk := (rfl)
@[simp] theorem State.setBramCfg_units (s : State) (v : Tbl Config.BramCfg) : (s.setBramCfg v).units = s.units := (rfl)
@[simp] theorem State.setBramCfg_hearthHit (s : State) (v : Tbl Config.BramCfg) : (s.setBramCfg v).hearthHit = s.hearthHit := (rfl)
@[simp] theorem State.setBram_pending (s : State) (v : Tbl Nat) : (s.setBram v).pending = s.pending := (rfl)
@[simp] theorem State.setBram_regs (s : State) (v : Tbl Nat) : (s.setBram v).regs = s.regs := (rfl)
@[simp] theorem State.setBram_mem (s : State) (v : Tbl Nat) : (s.setBram v).mem = s.mem := (rfl)
@[simp] theorem State.setBram_poison (s : State) (v : Tbl Nat) : (s.setBram v).poison = s.poison := (rfl)
@[simp] theorem State.setBram_fresh (s : State) (v : Tbl Nat) : (s.setBram v).fresh = s.fresh := (rfl)
@[simp] theorem State.setBram_answer (s : State) (v : Tbl Nat) : (s.setBram v).answer = s.answer := (rfl)
@[simp] theorem State.setBram_answerStatus (s : State) (v : Tbl Nat) : (s.setBram v).answerStatus = s.answerStatus := (rfl)
@[simp] theorem State.setBram_book (s : State) (v : Tbl Nat) : (s.setBram v).book = s.book := (rfl)
@[simp] theorem State.setBram_mgt (s : State) (v : Tbl Nat) : (s.setBram v).mgt = s.mgt := (rfl)
@[simp] theorem State.setBram_fpFifo (s : State) (v : Tbl Nat) : (s.setBram v).fpFifo = s.fpFifo := (rfl)
@[simp] theorem State.setBram_evtOnce (s : State) (v : Tbl Nat) : (s.setBram v).evtOnce = s.evtOnce := (rfl)
@[simp] theorem State.setBram_cycles (s : State) (v : Tbl Nat) : (s.setBram v).cycles = s.cycles := (rfl)
@[simp] theorem State.setBram_pcie (s : State) (v : Tbl Nat) : (s.setBram v).pcie = s.pcie := (rfl)
@[simp] theorem State.setBram_sent (s : State) (v : Tbl Nat) : (s.setBram v).sent = s.sent := (rfl)
@[simp] theorem State.setBram_bw (s : State) (v : Tbl Nat) : (s.setBram v).bw = s.bw := (rfl)
@[simp] theorem State.setBram_pmcLatch (s : State) (v : Tbl Nat) : (s.setBram v).pmcLatch = s.pmcLatch := (rfl)
@[simp] theorem State.setBram_cal (s : State) (v : Tbl Nat) : (s.setBram v).cal = s.cal := (rfl)
@[simp] theorem State.setBram_cfg (s : State) (v : Tbl Nat) : (s.setBram v).cfg = s.cfg := (rfl)
@[simp] theorem State.setBram_tap (s : State) (v : Tbl Nat) : (s.setBram v).tap = s.tap := (rfl)
@[simp] theorem State.setBram_pins (s : State) (v : Tbl Nat) : (s.setBram v).pins = s.pins := (rfl)
@[simp] theorem State.setBram_frames (s : State) (v : Tbl Nat) : (s.setBram v).frames = s.frames := (rfl)
@[simp] theorem State.setBram_clusters (s : State) (v : Tbl Nat) : (s.setBram v).clusters = s.clusters := (rfl)
@[simp] theorem State.setBram_ffs (s : State) (v : Tbl Nat) : (s.setBram v).ffs = s.ffs := (rfl)
@[simp] theorem State.setBram_relStage (s : State) (v : Tbl Nat) : (s.setBram v).relStage = s.relStage := (rfl)
@[simp] theorem State.setBram_frozen (s : State) (v : Tbl Nat) : (s.setBram v).frozen = s.frozen := (rfl)
@[simp] theorem State.setBram_bramCfg (s : State) (v : Tbl Nat) : (s.setBram v).bramCfg = s.bramCfg := (rfl)
@[simp] theorem State.setBram_bram (s : State) (v : Tbl Nat) : (s.setBram v).bram = v := (rfl)
@[simp] theorem State.setBram_bramPorts (s : State) (v : Tbl Nat) : (s.setBram v).bramPorts = s.bramPorts := (rfl)
@[simp] theorem State.setBram_multCfg (s : State) (v : Tbl Nat) : (s.setBram v).multCfg = s.multCfg := (rfl)
@[simp] theorem State.setBram_mults (s : State) (v : Tbl Nat) : (s.setBram v).mults = s.mults := (rfl)
@[simp] theorem State.setBram_railKeep (s : State) (v : Tbl Nat) : (s.setBram v).railKeep = s.railKeep := (rfl)
@[simp] theorem State.setBram_chk (s : State) (v : Tbl Nat) : (s.setBram v).chk = s.chk := (rfl)
@[simp] theorem State.setBram_eccRaw (s : State) (v : Tbl Nat) : (s.setBram v).eccRaw = s.eccRaw := (rfl)
@[simp] theorem State.setBram_eccScrub (s : State) (v : Tbl Nat) : (s.setBram v).eccScrub = s.eccScrub := (rfl)
@[simp] theorem State.setBram_tags (s : State) (v : Tbl Nat) : (s.setBram v).tags = s.tags := (rfl)
@[simp] theorem State.setBram_xUsed (s : State) (v : Tbl Nat) : (s.setBram v).xUsed = s.xUsed := (rfl)
@[simp] theorem State.setBram_xWait (s : State) (v : Tbl Nat) : (s.setBram v).xWait = s.xWait := (rfl)
@[simp] theorem State.setBram_xHeld (s : State) (v : Tbl Nat) : (s.setBram v).xHeld = s.xHeld := (rfl)
@[simp] theorem State.setBram_routers (s : State) (v : Tbl Nat) : (s.setBram v).routers = s.routers := (rfl)
@[simp] theorem State.setBram_portMode (s : State) (v : Tbl Nat) : (s.setBram v).portMode = s.portMode := (rfl)
@[simp] theorem State.setBram_portTags (s : State) (v : Tbl Nat) : (s.setBram v).portTags = s.portTags := (rfl)
@[simp] theorem State.setBram_portFifo (s : State) (v : Tbl Nat) : (s.setBram v).portFifo = s.portFifo := (rfl)
@[simp] theorem State.setBram_dcache (s : State) (v : Tbl Nat) : (s.setBram v).dcache = s.dcache := (rfl)
@[simp] theorem State.setBram_dir (s : State) (v : Tbl Nat) : (s.setBram v).dir = s.dir := (rfl)
@[simp] theorem State.setBram_dieResets (s : State) (v : Tbl Nat) : (s.setBram v).dieResets = s.dieResets := (rfl)
@[simp] theorem State.setBram_homeTxn (s : State) (v : Tbl Nat) : (s.setBram v).homeTxn = s.homeTxn := (rfl)
@[simp] theorem State.setBram_cores (s : State) (v : Tbl Nat) : (s.setBram v).cores = s.cores := (rfl)
@[simp] theorem State.setBram_tngDone (s : State) (v : Tbl Nat) : (s.setBram v).tngDone = s.tngDone := (rfl)
@[simp] theorem State.setBram_fab (s : State) (v : Tbl Nat) : (s.setBram v).fab = s.fab := (rfl)
@[simp] theorem State.setBram_net (s : State) (v : Tbl Nat) : (s.setBram v).net = s.net := (rfl)
@[simp] theorem State.setBram_rtrShare (s : State) (v : Tbl Nat) : (s.setBram v).rtrShare = s.rtrShare := (rfl)
@[simp] theorem State.setBram_dbg (s : State) (v : Tbl Nat) : (s.setBram v).dbg = s.dbg := (rfl)
@[simp] theorem State.setBram_dcWait (s : State) (v : Tbl Nat) : (s.setBram v).dcWait = s.dcWait := (rfl)
@[simp] theorem State.setBram_prcStep (s : State) (v : Tbl Nat) : (s.setBram v).prcStep = s.prcStep := (rfl)
@[simp] theorem State.setBram_prcBlank (s : State) (v : Tbl Nat) : (s.setBram v).prcBlank = s.prcBlank := (rfl)
@[simp] theorem State.setBram_prcHold (s : State) (v : Tbl Nat) : (s.setBram v).prcHold = s.prcHold := (rfl)
@[simp] theorem State.setBram_capWait (s : State) (v : Tbl Nat) : (s.setBram v).capWait = s.capWait := (rfl)
@[simp] theorem State.setBram_capture (s : State) (v : Tbl Nat) : (s.setBram v).capture = s.capture := (rfl)
@[simp] theorem State.setBram_bramDef (s : State) (v : Tbl Nat) : (s.setBram v).bramDef = s.bramDef := (rfl)
@[simp] theorem State.setBram_scrubs (s : State) (v : Tbl Nat) : (s.setBram v).scrubs = s.scrubs := (rfl)
@[simp] theorem State.setBram_scrCopy (s : State) (v : Tbl Nat) : (s.setBram v).scrCopy = s.scrCopy := (rfl)
@[simp] theorem State.setBram_releases (s : State) (v : Tbl Nat) : (s.setBram v).releases = s.releases := (rfl)
@[simp] theorem State.setBram_dieStep (s : State) (v : Tbl Nat) : (s.setBram v).dieStep = s.dieStep := (rfl)
@[simp] theorem State.setBram_clampDef (s : State) (v : Tbl Nat) : (s.setBram v).clampDef = s.clampDef := (rfl)
@[simp] theorem State.setBram_clamps (s : State) (v : Tbl Nat) : (s.setBram v).clamps = s.clamps := (rfl)
@[simp] theorem State.setBram_welds (s : State) (v : Tbl Nat) : (s.setBram v).welds = s.welds := (rfl)
@[simp] theorem State.setBram_lanes (s : State) (v : Tbl Nat) : (s.setBram v).lanes = s.lanes := (rfl)
@[simp] theorem State.setBram_macMode (s : State) (v : Tbl Nat) : (s.setBram v).macMode = s.macMode := (rfl)
@[simp] theorem State.setBram_tod (s : State) (v : Tbl Nat) : (s.setBram v).tod = s.tod := (rfl)
@[simp] theorem State.setBram_lkp (s : State) (v : Tbl Nat) : (s.setBram v).lkp = s.lkp := (rfl)
@[simp] theorem State.setBram_queues (s : State) (v : Tbl Nat) : (s.setBram v).queues = s.queues := (rfl)
@[simp] theorem State.setBram_ports (s : State) (v : Tbl Nat) : (s.setBram v).ports = s.ports := (rfl)
@[simp] theorem State.setBram_pkt (s : State) (v : Tbl Nat) : (s.setBram v).pkt = s.pkt := (rfl)
@[simp] theorem State.setBram_cxl (s : State) (v : Tbl Nat) : (s.setBram v).cxl = s.cxl := (rfl)
@[simp] theorem State.setBram_ddr (s : State) (v : Tbl Nat) : (s.setBram v).ddr = s.ddr := (rfl)
@[simp] theorem State.setBram_regions (s : State) (v : Tbl Nat) : (s.setBram v).regions = s.regions := (rfl)
@[simp] theorem State.setBram_prots (s : State) (v : Tbl Nat) : (s.setBram v).prots = s.prots := (rfl)
@[simp] theorem State.setBram_keyStore (s : State) (v : Tbl Nat) : (s.setBram v).keyStore = s.keyStore := (rfl)
@[simp] theorem State.setBram_rings (s : State) (v : Tbl Nat) : (s.setBram v).rings = s.rings := (rfl)
@[simp] theorem State.setBram_openMem (s : State) (v : Tbl Nat) : (s.setBram v).openMem = s.openMem := (rfl)
@[simp] theorem State.setBram_dcRights (s : State) (v : Tbl Nat) : (s.setBram v).dcRights = s.dcRights := (rfl)
@[simp] theorem State.setBram_clk (s : State) (v : Tbl Nat) : (s.setBram v).clk = s.clk := (rfl)
@[simp] theorem State.setBram_units (s : State) (v : Tbl Nat) : (s.setBram v).units = s.units := (rfl)
@[simp] theorem State.setBram_hearthHit (s : State) (v : Tbl Nat) : (s.setBram v).hearthHit = s.hearthHit := (rfl)
@[simp] theorem State.setBramPorts_pending (s : State) (v : Tbl BramPort) : (s.setBramPorts v).pending = s.pending := (rfl)
@[simp] theorem State.setBramPorts_regs (s : State) (v : Tbl BramPort) : (s.setBramPorts v).regs = s.regs := (rfl)
@[simp] theorem State.setBramPorts_mem (s : State) (v : Tbl BramPort) : (s.setBramPorts v).mem = s.mem := (rfl)
@[simp] theorem State.setBramPorts_poison (s : State) (v : Tbl BramPort) : (s.setBramPorts v).poison = s.poison := (rfl)
@[simp] theorem State.setBramPorts_fresh (s : State) (v : Tbl BramPort) : (s.setBramPorts v).fresh = s.fresh := (rfl)
@[simp] theorem State.setBramPorts_answer (s : State) (v : Tbl BramPort) : (s.setBramPorts v).answer = s.answer := (rfl)
@[simp] theorem State.setBramPorts_answerStatus (s : State) (v : Tbl BramPort) : (s.setBramPorts v).answerStatus = s.answerStatus := (rfl)
@[simp] theorem State.setBramPorts_book (s : State) (v : Tbl BramPort) : (s.setBramPorts v).book = s.book := (rfl)
@[simp] theorem State.setBramPorts_mgt (s : State) (v : Tbl BramPort) : (s.setBramPorts v).mgt = s.mgt := (rfl)
@[simp] theorem State.setBramPorts_fpFifo (s : State) (v : Tbl BramPort) : (s.setBramPorts v).fpFifo = s.fpFifo := (rfl)
@[simp] theorem State.setBramPorts_evtOnce (s : State) (v : Tbl BramPort) : (s.setBramPorts v).evtOnce = s.evtOnce := (rfl)
@[simp] theorem State.setBramPorts_cycles (s : State) (v : Tbl BramPort) : (s.setBramPorts v).cycles = s.cycles := (rfl)
@[simp] theorem State.setBramPorts_pcie (s : State) (v : Tbl BramPort) : (s.setBramPorts v).pcie = s.pcie := (rfl)
@[simp] theorem State.setBramPorts_sent (s : State) (v : Tbl BramPort) : (s.setBramPorts v).sent = s.sent := (rfl)
@[simp] theorem State.setBramPorts_bw (s : State) (v : Tbl BramPort) : (s.setBramPorts v).bw = s.bw := (rfl)
@[simp] theorem State.setBramPorts_pmcLatch (s : State) (v : Tbl BramPort) : (s.setBramPorts v).pmcLatch = s.pmcLatch := (rfl)
@[simp] theorem State.setBramPorts_cal (s : State) (v : Tbl BramPort) : (s.setBramPorts v).cal = s.cal := (rfl)
@[simp] theorem State.setBramPorts_cfg (s : State) (v : Tbl BramPort) : (s.setBramPorts v).cfg = s.cfg := (rfl)
@[simp] theorem State.setBramPorts_tap (s : State) (v : Tbl BramPort) : (s.setBramPorts v).tap = s.tap := (rfl)
@[simp] theorem State.setBramPorts_pins (s : State) (v : Tbl BramPort) : (s.setBramPorts v).pins = s.pins := (rfl)
@[simp] theorem State.setBramPorts_frames (s : State) (v : Tbl BramPort) : (s.setBramPorts v).frames = s.frames := (rfl)
@[simp] theorem State.setBramPorts_clusters (s : State) (v : Tbl BramPort) : (s.setBramPorts v).clusters = s.clusters := (rfl)
@[simp] theorem State.setBramPorts_ffs (s : State) (v : Tbl BramPort) : (s.setBramPorts v).ffs = s.ffs := (rfl)
@[simp] theorem State.setBramPorts_relStage (s : State) (v : Tbl BramPort) : (s.setBramPorts v).relStage = s.relStage := (rfl)
@[simp] theorem State.setBramPorts_frozen (s : State) (v : Tbl BramPort) : (s.setBramPorts v).frozen = s.frozen := (rfl)
@[simp] theorem State.setBramPorts_bramCfg (s : State) (v : Tbl BramPort) : (s.setBramPorts v).bramCfg = s.bramCfg := (rfl)
@[simp] theorem State.setBramPorts_bram (s : State) (v : Tbl BramPort) : (s.setBramPorts v).bram = s.bram := (rfl)
@[simp] theorem State.setBramPorts_bramPorts (s : State) (v : Tbl BramPort) : (s.setBramPorts v).bramPorts = v := (rfl)
@[simp] theorem State.setBramPorts_multCfg (s : State) (v : Tbl BramPort) : (s.setBramPorts v).multCfg = s.multCfg := (rfl)
@[simp] theorem State.setBramPorts_mults (s : State) (v : Tbl BramPort) : (s.setBramPorts v).mults = s.mults := (rfl)
@[simp] theorem State.setBramPorts_railKeep (s : State) (v : Tbl BramPort) : (s.setBramPorts v).railKeep = s.railKeep := (rfl)
@[simp] theorem State.setBramPorts_chk (s : State) (v : Tbl BramPort) : (s.setBramPorts v).chk = s.chk := (rfl)
@[simp] theorem State.setBramPorts_eccRaw (s : State) (v : Tbl BramPort) : (s.setBramPorts v).eccRaw = s.eccRaw := (rfl)
@[simp] theorem State.setBramPorts_eccScrub (s : State) (v : Tbl BramPort) : (s.setBramPorts v).eccScrub = s.eccScrub := (rfl)
@[simp] theorem State.setBramPorts_tags (s : State) (v : Tbl BramPort) : (s.setBramPorts v).tags = s.tags := (rfl)
@[simp] theorem State.setBramPorts_xUsed (s : State) (v : Tbl BramPort) : (s.setBramPorts v).xUsed = s.xUsed := (rfl)
@[simp] theorem State.setBramPorts_xWait (s : State) (v : Tbl BramPort) : (s.setBramPorts v).xWait = s.xWait := (rfl)
@[simp] theorem State.setBramPorts_xHeld (s : State) (v : Tbl BramPort) : (s.setBramPorts v).xHeld = s.xHeld := (rfl)
@[simp] theorem State.setBramPorts_routers (s : State) (v : Tbl BramPort) : (s.setBramPorts v).routers = s.routers := (rfl)
@[simp] theorem State.setBramPorts_portMode (s : State) (v : Tbl BramPort) : (s.setBramPorts v).portMode = s.portMode := (rfl)
@[simp] theorem State.setBramPorts_portTags (s : State) (v : Tbl BramPort) : (s.setBramPorts v).portTags = s.portTags := (rfl)
@[simp] theorem State.setBramPorts_portFifo (s : State) (v : Tbl BramPort) : (s.setBramPorts v).portFifo = s.portFifo := (rfl)
@[simp] theorem State.setBramPorts_dcache (s : State) (v : Tbl BramPort) : (s.setBramPorts v).dcache = s.dcache := (rfl)
@[simp] theorem State.setBramPorts_dir (s : State) (v : Tbl BramPort) : (s.setBramPorts v).dir = s.dir := (rfl)
@[simp] theorem State.setBramPorts_dieResets (s : State) (v : Tbl BramPort) : (s.setBramPorts v).dieResets = s.dieResets := (rfl)
@[simp] theorem State.setBramPorts_homeTxn (s : State) (v : Tbl BramPort) : (s.setBramPorts v).homeTxn = s.homeTxn := (rfl)
@[simp] theorem State.setBramPorts_cores (s : State) (v : Tbl BramPort) : (s.setBramPorts v).cores = s.cores := (rfl)
@[simp] theorem State.setBramPorts_tngDone (s : State) (v : Tbl BramPort) : (s.setBramPorts v).tngDone = s.tngDone := (rfl)
@[simp] theorem State.setBramPorts_fab (s : State) (v : Tbl BramPort) : (s.setBramPorts v).fab = s.fab := (rfl)
@[simp] theorem State.setBramPorts_net (s : State) (v : Tbl BramPort) : (s.setBramPorts v).net = s.net := (rfl)
@[simp] theorem State.setBramPorts_rtrShare (s : State) (v : Tbl BramPort) : (s.setBramPorts v).rtrShare = s.rtrShare := (rfl)
@[simp] theorem State.setBramPorts_dbg (s : State) (v : Tbl BramPort) : (s.setBramPorts v).dbg = s.dbg := (rfl)
@[simp] theorem State.setBramPorts_dcWait (s : State) (v : Tbl BramPort) : (s.setBramPorts v).dcWait = s.dcWait := (rfl)
@[simp] theorem State.setBramPorts_prcStep (s : State) (v : Tbl BramPort) : (s.setBramPorts v).prcStep = s.prcStep := (rfl)
@[simp] theorem State.setBramPorts_prcBlank (s : State) (v : Tbl BramPort) : (s.setBramPorts v).prcBlank = s.prcBlank := (rfl)
@[simp] theorem State.setBramPorts_prcHold (s : State) (v : Tbl BramPort) : (s.setBramPorts v).prcHold = s.prcHold := (rfl)
@[simp] theorem State.setBramPorts_capWait (s : State) (v : Tbl BramPort) : (s.setBramPorts v).capWait = s.capWait := (rfl)
@[simp] theorem State.setBramPorts_capture (s : State) (v : Tbl BramPort) : (s.setBramPorts v).capture = s.capture := (rfl)
@[simp] theorem State.setBramPorts_bramDef (s : State) (v : Tbl BramPort) : (s.setBramPorts v).bramDef = s.bramDef := (rfl)
@[simp] theorem State.setBramPorts_scrubs (s : State) (v : Tbl BramPort) : (s.setBramPorts v).scrubs = s.scrubs := (rfl)
@[simp] theorem State.setBramPorts_scrCopy (s : State) (v : Tbl BramPort) : (s.setBramPorts v).scrCopy = s.scrCopy := (rfl)
@[simp] theorem State.setBramPorts_releases (s : State) (v : Tbl BramPort) : (s.setBramPorts v).releases = s.releases := (rfl)
@[simp] theorem State.setBramPorts_dieStep (s : State) (v : Tbl BramPort) : (s.setBramPorts v).dieStep = s.dieStep := (rfl)
@[simp] theorem State.setBramPorts_clampDef (s : State) (v : Tbl BramPort) : (s.setBramPorts v).clampDef = s.clampDef := (rfl)
@[simp] theorem State.setBramPorts_clamps (s : State) (v : Tbl BramPort) : (s.setBramPorts v).clamps = s.clamps := (rfl)
@[simp] theorem State.setBramPorts_welds (s : State) (v : Tbl BramPort) : (s.setBramPorts v).welds = s.welds := (rfl)
@[simp] theorem State.setBramPorts_lanes (s : State) (v : Tbl BramPort) : (s.setBramPorts v).lanes = s.lanes := (rfl)
@[simp] theorem State.setBramPorts_macMode (s : State) (v : Tbl BramPort) : (s.setBramPorts v).macMode = s.macMode := (rfl)
@[simp] theorem State.setBramPorts_tod (s : State) (v : Tbl BramPort) : (s.setBramPorts v).tod = s.tod := (rfl)
@[simp] theorem State.setBramPorts_lkp (s : State) (v : Tbl BramPort) : (s.setBramPorts v).lkp = s.lkp := (rfl)
@[simp] theorem State.setBramPorts_queues (s : State) (v : Tbl BramPort) : (s.setBramPorts v).queues = s.queues := (rfl)
@[simp] theorem State.setBramPorts_ports (s : State) (v : Tbl BramPort) : (s.setBramPorts v).ports = s.ports := (rfl)
@[simp] theorem State.setBramPorts_pkt (s : State) (v : Tbl BramPort) : (s.setBramPorts v).pkt = s.pkt := (rfl)
@[simp] theorem State.setBramPorts_cxl (s : State) (v : Tbl BramPort) : (s.setBramPorts v).cxl = s.cxl := (rfl)
@[simp] theorem State.setBramPorts_ddr (s : State) (v : Tbl BramPort) : (s.setBramPorts v).ddr = s.ddr := (rfl)
@[simp] theorem State.setBramPorts_regions (s : State) (v : Tbl BramPort) : (s.setBramPorts v).regions = s.regions := (rfl)
@[simp] theorem State.setBramPorts_prots (s : State) (v : Tbl BramPort) : (s.setBramPorts v).prots = s.prots := (rfl)
@[simp] theorem State.setBramPorts_keyStore (s : State) (v : Tbl BramPort) : (s.setBramPorts v).keyStore = s.keyStore := (rfl)
@[simp] theorem State.setBramPorts_rings (s : State) (v : Tbl BramPort) : (s.setBramPorts v).rings = s.rings := (rfl)
@[simp] theorem State.setBramPorts_openMem (s : State) (v : Tbl BramPort) : (s.setBramPorts v).openMem = s.openMem := (rfl)
@[simp] theorem State.setBramPorts_dcRights (s : State) (v : Tbl BramPort) : (s.setBramPorts v).dcRights = s.dcRights := (rfl)
@[simp] theorem State.setBramPorts_clk (s : State) (v : Tbl BramPort) : (s.setBramPorts v).clk = s.clk := (rfl)
@[simp] theorem State.setBramPorts_units (s : State) (v : Tbl BramPort) : (s.setBramPorts v).units = s.units := (rfl)
@[simp] theorem State.setBramPorts_hearthHit (s : State) (v : Tbl BramPort) : (s.setBramPorts v).hearthHit = s.hearthHit := (rfl)
@[simp] theorem State.setMultCfg_pending (s : State) (v : Tbl Config.MultCfg) : (s.setMultCfg v).pending = s.pending := (rfl)
@[simp] theorem State.setMultCfg_regs (s : State) (v : Tbl Config.MultCfg) : (s.setMultCfg v).regs = s.regs := (rfl)
@[simp] theorem State.setMultCfg_mem (s : State) (v : Tbl Config.MultCfg) : (s.setMultCfg v).mem = s.mem := (rfl)
@[simp] theorem State.setMultCfg_poison (s : State) (v : Tbl Config.MultCfg) : (s.setMultCfg v).poison = s.poison := (rfl)
@[simp] theorem State.setMultCfg_fresh (s : State) (v : Tbl Config.MultCfg) : (s.setMultCfg v).fresh = s.fresh := (rfl)
@[simp] theorem State.setMultCfg_answer (s : State) (v : Tbl Config.MultCfg) : (s.setMultCfg v).answer = s.answer := (rfl)
@[simp] theorem State.setMultCfg_answerStatus (s : State) (v : Tbl Config.MultCfg) : (s.setMultCfg v).answerStatus = s.answerStatus := (rfl)
@[simp] theorem State.setMultCfg_book (s : State) (v : Tbl Config.MultCfg) : (s.setMultCfg v).book = s.book := (rfl)
@[simp] theorem State.setMultCfg_mgt (s : State) (v : Tbl Config.MultCfg) : (s.setMultCfg v).mgt = s.mgt := (rfl)
@[simp] theorem State.setMultCfg_fpFifo (s : State) (v : Tbl Config.MultCfg) : (s.setMultCfg v).fpFifo = s.fpFifo := (rfl)
@[simp] theorem State.setMultCfg_evtOnce (s : State) (v : Tbl Config.MultCfg) : (s.setMultCfg v).evtOnce = s.evtOnce := (rfl)
@[simp] theorem State.setMultCfg_cycles (s : State) (v : Tbl Config.MultCfg) : (s.setMultCfg v).cycles = s.cycles := (rfl)
@[simp] theorem State.setMultCfg_pcie (s : State) (v : Tbl Config.MultCfg) : (s.setMultCfg v).pcie = s.pcie := (rfl)
@[simp] theorem State.setMultCfg_sent (s : State) (v : Tbl Config.MultCfg) : (s.setMultCfg v).sent = s.sent := (rfl)
@[simp] theorem State.setMultCfg_bw (s : State) (v : Tbl Config.MultCfg) : (s.setMultCfg v).bw = s.bw := (rfl)
@[simp] theorem State.setMultCfg_pmcLatch (s : State) (v : Tbl Config.MultCfg) : (s.setMultCfg v).pmcLatch = s.pmcLatch := (rfl)
@[simp] theorem State.setMultCfg_cal (s : State) (v : Tbl Config.MultCfg) : (s.setMultCfg v).cal = s.cal := (rfl)
@[simp] theorem State.setMultCfg_cfg (s : State) (v : Tbl Config.MultCfg) : (s.setMultCfg v).cfg = s.cfg := (rfl)
@[simp] theorem State.setMultCfg_tap (s : State) (v : Tbl Config.MultCfg) : (s.setMultCfg v).tap = s.tap := (rfl)
@[simp] theorem State.setMultCfg_pins (s : State) (v : Tbl Config.MultCfg) : (s.setMultCfg v).pins = s.pins := (rfl)
@[simp] theorem State.setMultCfg_frames (s : State) (v : Tbl Config.MultCfg) : (s.setMultCfg v).frames = s.frames := (rfl)
@[simp] theorem State.setMultCfg_clusters (s : State) (v : Tbl Config.MultCfg) : (s.setMultCfg v).clusters = s.clusters := (rfl)
@[simp] theorem State.setMultCfg_ffs (s : State) (v : Tbl Config.MultCfg) : (s.setMultCfg v).ffs = s.ffs := (rfl)
@[simp] theorem State.setMultCfg_relStage (s : State) (v : Tbl Config.MultCfg) : (s.setMultCfg v).relStage = s.relStage := (rfl)
@[simp] theorem State.setMultCfg_frozen (s : State) (v : Tbl Config.MultCfg) : (s.setMultCfg v).frozen = s.frozen := (rfl)
@[simp] theorem State.setMultCfg_bramCfg (s : State) (v : Tbl Config.MultCfg) : (s.setMultCfg v).bramCfg = s.bramCfg := (rfl)
@[simp] theorem State.setMultCfg_bram (s : State) (v : Tbl Config.MultCfg) : (s.setMultCfg v).bram = s.bram := (rfl)
@[simp] theorem State.setMultCfg_bramPorts (s : State) (v : Tbl Config.MultCfg) : (s.setMultCfg v).bramPorts = s.bramPorts := (rfl)
@[simp] theorem State.setMultCfg_multCfg (s : State) (v : Tbl Config.MultCfg) : (s.setMultCfg v).multCfg = v := (rfl)
@[simp] theorem State.setMultCfg_mults (s : State) (v : Tbl Config.MultCfg) : (s.setMultCfg v).mults = s.mults := (rfl)
@[simp] theorem State.setMultCfg_railKeep (s : State) (v : Tbl Config.MultCfg) : (s.setMultCfg v).railKeep = s.railKeep := (rfl)
@[simp] theorem State.setMultCfg_chk (s : State) (v : Tbl Config.MultCfg) : (s.setMultCfg v).chk = s.chk := (rfl)
@[simp] theorem State.setMultCfg_eccRaw (s : State) (v : Tbl Config.MultCfg) : (s.setMultCfg v).eccRaw = s.eccRaw := (rfl)
@[simp] theorem State.setMultCfg_eccScrub (s : State) (v : Tbl Config.MultCfg) : (s.setMultCfg v).eccScrub = s.eccScrub := (rfl)
@[simp] theorem State.setMultCfg_tags (s : State) (v : Tbl Config.MultCfg) : (s.setMultCfg v).tags = s.tags := (rfl)
@[simp] theorem State.setMultCfg_xUsed (s : State) (v : Tbl Config.MultCfg) : (s.setMultCfg v).xUsed = s.xUsed := (rfl)
@[simp] theorem State.setMultCfg_xWait (s : State) (v : Tbl Config.MultCfg) : (s.setMultCfg v).xWait = s.xWait := (rfl)
@[simp] theorem State.setMultCfg_xHeld (s : State) (v : Tbl Config.MultCfg) : (s.setMultCfg v).xHeld = s.xHeld := (rfl)
@[simp] theorem State.setMultCfg_routers (s : State) (v : Tbl Config.MultCfg) : (s.setMultCfg v).routers = s.routers := (rfl)
@[simp] theorem State.setMultCfg_portMode (s : State) (v : Tbl Config.MultCfg) : (s.setMultCfg v).portMode = s.portMode := (rfl)
@[simp] theorem State.setMultCfg_portTags (s : State) (v : Tbl Config.MultCfg) : (s.setMultCfg v).portTags = s.portTags := (rfl)
@[simp] theorem State.setMultCfg_portFifo (s : State) (v : Tbl Config.MultCfg) : (s.setMultCfg v).portFifo = s.portFifo := (rfl)
@[simp] theorem State.setMultCfg_dcache (s : State) (v : Tbl Config.MultCfg) : (s.setMultCfg v).dcache = s.dcache := (rfl)
@[simp] theorem State.setMultCfg_dir (s : State) (v : Tbl Config.MultCfg) : (s.setMultCfg v).dir = s.dir := (rfl)
@[simp] theorem State.setMultCfg_dieResets (s : State) (v : Tbl Config.MultCfg) : (s.setMultCfg v).dieResets = s.dieResets := (rfl)
@[simp] theorem State.setMultCfg_homeTxn (s : State) (v : Tbl Config.MultCfg) : (s.setMultCfg v).homeTxn = s.homeTxn := (rfl)
@[simp] theorem State.setMultCfg_cores (s : State) (v : Tbl Config.MultCfg) : (s.setMultCfg v).cores = s.cores := (rfl)
@[simp] theorem State.setMultCfg_tngDone (s : State) (v : Tbl Config.MultCfg) : (s.setMultCfg v).tngDone = s.tngDone := (rfl)
@[simp] theorem State.setMultCfg_fab (s : State) (v : Tbl Config.MultCfg) : (s.setMultCfg v).fab = s.fab := (rfl)
@[simp] theorem State.setMultCfg_net (s : State) (v : Tbl Config.MultCfg) : (s.setMultCfg v).net = s.net := (rfl)
@[simp] theorem State.setMultCfg_rtrShare (s : State) (v : Tbl Config.MultCfg) : (s.setMultCfg v).rtrShare = s.rtrShare := (rfl)
@[simp] theorem State.setMultCfg_dbg (s : State) (v : Tbl Config.MultCfg) : (s.setMultCfg v).dbg = s.dbg := (rfl)
@[simp] theorem State.setMultCfg_dcWait (s : State) (v : Tbl Config.MultCfg) : (s.setMultCfg v).dcWait = s.dcWait := (rfl)
@[simp] theorem State.setMultCfg_prcStep (s : State) (v : Tbl Config.MultCfg) : (s.setMultCfg v).prcStep = s.prcStep := (rfl)
@[simp] theorem State.setMultCfg_prcBlank (s : State) (v : Tbl Config.MultCfg) : (s.setMultCfg v).prcBlank = s.prcBlank := (rfl)
@[simp] theorem State.setMultCfg_prcHold (s : State) (v : Tbl Config.MultCfg) : (s.setMultCfg v).prcHold = s.prcHold := (rfl)
@[simp] theorem State.setMultCfg_capWait (s : State) (v : Tbl Config.MultCfg) : (s.setMultCfg v).capWait = s.capWait := (rfl)
@[simp] theorem State.setMultCfg_capture (s : State) (v : Tbl Config.MultCfg) : (s.setMultCfg v).capture = s.capture := (rfl)
@[simp] theorem State.setMultCfg_bramDef (s : State) (v : Tbl Config.MultCfg) : (s.setMultCfg v).bramDef = s.bramDef := (rfl)
@[simp] theorem State.setMultCfg_scrubs (s : State) (v : Tbl Config.MultCfg) : (s.setMultCfg v).scrubs = s.scrubs := (rfl)
@[simp] theorem State.setMultCfg_scrCopy (s : State) (v : Tbl Config.MultCfg) : (s.setMultCfg v).scrCopy = s.scrCopy := (rfl)
@[simp] theorem State.setMultCfg_releases (s : State) (v : Tbl Config.MultCfg) : (s.setMultCfg v).releases = s.releases := (rfl)
@[simp] theorem State.setMultCfg_dieStep (s : State) (v : Tbl Config.MultCfg) : (s.setMultCfg v).dieStep = s.dieStep := (rfl)
@[simp] theorem State.setMultCfg_clampDef (s : State) (v : Tbl Config.MultCfg) : (s.setMultCfg v).clampDef = s.clampDef := (rfl)
@[simp] theorem State.setMultCfg_clamps (s : State) (v : Tbl Config.MultCfg) : (s.setMultCfg v).clamps = s.clamps := (rfl)
@[simp] theorem State.setMultCfg_welds (s : State) (v : Tbl Config.MultCfg) : (s.setMultCfg v).welds = s.welds := (rfl)
@[simp] theorem State.setMultCfg_lanes (s : State) (v : Tbl Config.MultCfg) : (s.setMultCfg v).lanes = s.lanes := (rfl)
@[simp] theorem State.setMultCfg_macMode (s : State) (v : Tbl Config.MultCfg) : (s.setMultCfg v).macMode = s.macMode := (rfl)
@[simp] theorem State.setMultCfg_tod (s : State) (v : Tbl Config.MultCfg) : (s.setMultCfg v).tod = s.tod := (rfl)
@[simp] theorem State.setMultCfg_lkp (s : State) (v : Tbl Config.MultCfg) : (s.setMultCfg v).lkp = s.lkp := (rfl)
@[simp] theorem State.setMultCfg_queues (s : State) (v : Tbl Config.MultCfg) : (s.setMultCfg v).queues = s.queues := (rfl)
@[simp] theorem State.setMultCfg_ports (s : State) (v : Tbl Config.MultCfg) : (s.setMultCfg v).ports = s.ports := (rfl)
@[simp] theorem State.setMultCfg_pkt (s : State) (v : Tbl Config.MultCfg) : (s.setMultCfg v).pkt = s.pkt := (rfl)
@[simp] theorem State.setMultCfg_cxl (s : State) (v : Tbl Config.MultCfg) : (s.setMultCfg v).cxl = s.cxl := (rfl)
@[simp] theorem State.setMultCfg_ddr (s : State) (v : Tbl Config.MultCfg) : (s.setMultCfg v).ddr = s.ddr := (rfl)
@[simp] theorem State.setMultCfg_regions (s : State) (v : Tbl Config.MultCfg) : (s.setMultCfg v).regions = s.regions := (rfl)
@[simp] theorem State.setMultCfg_prots (s : State) (v : Tbl Config.MultCfg) : (s.setMultCfg v).prots = s.prots := (rfl)
@[simp] theorem State.setMultCfg_keyStore (s : State) (v : Tbl Config.MultCfg) : (s.setMultCfg v).keyStore = s.keyStore := (rfl)
@[simp] theorem State.setMultCfg_rings (s : State) (v : Tbl Config.MultCfg) : (s.setMultCfg v).rings = s.rings := (rfl)
@[simp] theorem State.setMultCfg_openMem (s : State) (v : Tbl Config.MultCfg) : (s.setMultCfg v).openMem = s.openMem := (rfl)
@[simp] theorem State.setMultCfg_dcRights (s : State) (v : Tbl Config.MultCfg) : (s.setMultCfg v).dcRights = s.dcRights := (rfl)
@[simp] theorem State.setMultCfg_clk (s : State) (v : Tbl Config.MultCfg) : (s.setMultCfg v).clk = s.clk := (rfl)
@[simp] theorem State.setMultCfg_units (s : State) (v : Tbl Config.MultCfg) : (s.setMultCfg v).units = s.units := (rfl)
@[simp] theorem State.setMultCfg_hearthHit (s : State) (v : Tbl Config.MultCfg) : (s.setMultCfg v).hearthHit = s.hearthHit := (rfl)
@[simp] theorem State.setMults_pending (s : State) (v : Tbl MultRegs) : (s.setMults v).pending = s.pending := (rfl)
@[simp] theorem State.setMults_regs (s : State) (v : Tbl MultRegs) : (s.setMults v).regs = s.regs := (rfl)
@[simp] theorem State.setMults_mem (s : State) (v : Tbl MultRegs) : (s.setMults v).mem = s.mem := (rfl)
@[simp] theorem State.setMults_poison (s : State) (v : Tbl MultRegs) : (s.setMults v).poison = s.poison := (rfl)
@[simp] theorem State.setMults_fresh (s : State) (v : Tbl MultRegs) : (s.setMults v).fresh = s.fresh := (rfl)
@[simp] theorem State.setMults_answer (s : State) (v : Tbl MultRegs) : (s.setMults v).answer = s.answer := (rfl)
@[simp] theorem State.setMults_answerStatus (s : State) (v : Tbl MultRegs) : (s.setMults v).answerStatus = s.answerStatus := (rfl)
@[simp] theorem State.setMults_book (s : State) (v : Tbl MultRegs) : (s.setMults v).book = s.book := (rfl)
@[simp] theorem State.setMults_mgt (s : State) (v : Tbl MultRegs) : (s.setMults v).mgt = s.mgt := (rfl)
@[simp] theorem State.setMults_fpFifo (s : State) (v : Tbl MultRegs) : (s.setMults v).fpFifo = s.fpFifo := (rfl)
@[simp] theorem State.setMults_evtOnce (s : State) (v : Tbl MultRegs) : (s.setMults v).evtOnce = s.evtOnce := (rfl)
@[simp] theorem State.setMults_cycles (s : State) (v : Tbl MultRegs) : (s.setMults v).cycles = s.cycles := (rfl)
@[simp] theorem State.setMults_pcie (s : State) (v : Tbl MultRegs) : (s.setMults v).pcie = s.pcie := (rfl)
@[simp] theorem State.setMults_sent (s : State) (v : Tbl MultRegs) : (s.setMults v).sent = s.sent := (rfl)
@[simp] theorem State.setMults_bw (s : State) (v : Tbl MultRegs) : (s.setMults v).bw = s.bw := (rfl)
@[simp] theorem State.setMults_pmcLatch (s : State) (v : Tbl MultRegs) : (s.setMults v).pmcLatch = s.pmcLatch := (rfl)
@[simp] theorem State.setMults_cal (s : State) (v : Tbl MultRegs) : (s.setMults v).cal = s.cal := (rfl)
@[simp] theorem State.setMults_cfg (s : State) (v : Tbl MultRegs) : (s.setMults v).cfg = s.cfg := (rfl)
@[simp] theorem State.setMults_tap (s : State) (v : Tbl MultRegs) : (s.setMults v).tap = s.tap := (rfl)
@[simp] theorem State.setMults_pins (s : State) (v : Tbl MultRegs) : (s.setMults v).pins = s.pins := (rfl)
@[simp] theorem State.setMults_frames (s : State) (v : Tbl MultRegs) : (s.setMults v).frames = s.frames := (rfl)
@[simp] theorem State.setMults_clusters (s : State) (v : Tbl MultRegs) : (s.setMults v).clusters = s.clusters := (rfl)
@[simp] theorem State.setMults_ffs (s : State) (v : Tbl MultRegs) : (s.setMults v).ffs = s.ffs := (rfl)
@[simp] theorem State.setMults_relStage (s : State) (v : Tbl MultRegs) : (s.setMults v).relStage = s.relStage := (rfl)
@[simp] theorem State.setMults_frozen (s : State) (v : Tbl MultRegs) : (s.setMults v).frozen = s.frozen := (rfl)
@[simp] theorem State.setMults_bramCfg (s : State) (v : Tbl MultRegs) : (s.setMults v).bramCfg = s.bramCfg := (rfl)
@[simp] theorem State.setMults_bram (s : State) (v : Tbl MultRegs) : (s.setMults v).bram = s.bram := (rfl)
@[simp] theorem State.setMults_bramPorts (s : State) (v : Tbl MultRegs) : (s.setMults v).bramPorts = s.bramPorts := (rfl)
@[simp] theorem State.setMults_multCfg (s : State) (v : Tbl MultRegs) : (s.setMults v).multCfg = s.multCfg := (rfl)
@[simp] theorem State.setMults_mults (s : State) (v : Tbl MultRegs) : (s.setMults v).mults = v := (rfl)
@[simp] theorem State.setMults_railKeep (s : State) (v : Tbl MultRegs) : (s.setMults v).railKeep = s.railKeep := (rfl)
@[simp] theorem State.setMults_chk (s : State) (v : Tbl MultRegs) : (s.setMults v).chk = s.chk := (rfl)
@[simp] theorem State.setMults_eccRaw (s : State) (v : Tbl MultRegs) : (s.setMults v).eccRaw = s.eccRaw := (rfl)
@[simp] theorem State.setMults_eccScrub (s : State) (v : Tbl MultRegs) : (s.setMults v).eccScrub = s.eccScrub := (rfl)
@[simp] theorem State.setMults_tags (s : State) (v : Tbl MultRegs) : (s.setMults v).tags = s.tags := (rfl)
@[simp] theorem State.setMults_xUsed (s : State) (v : Tbl MultRegs) : (s.setMults v).xUsed = s.xUsed := (rfl)
@[simp] theorem State.setMults_xWait (s : State) (v : Tbl MultRegs) : (s.setMults v).xWait = s.xWait := (rfl)
@[simp] theorem State.setMults_xHeld (s : State) (v : Tbl MultRegs) : (s.setMults v).xHeld = s.xHeld := (rfl)
@[simp] theorem State.setMults_routers (s : State) (v : Tbl MultRegs) : (s.setMults v).routers = s.routers := (rfl)
@[simp] theorem State.setMults_portMode (s : State) (v : Tbl MultRegs) : (s.setMults v).portMode = s.portMode := (rfl)
@[simp] theorem State.setMults_portTags (s : State) (v : Tbl MultRegs) : (s.setMults v).portTags = s.portTags := (rfl)
@[simp] theorem State.setMults_portFifo (s : State) (v : Tbl MultRegs) : (s.setMults v).portFifo = s.portFifo := (rfl)
@[simp] theorem State.setMults_dcache (s : State) (v : Tbl MultRegs) : (s.setMults v).dcache = s.dcache := (rfl)
@[simp] theorem State.setMults_dir (s : State) (v : Tbl MultRegs) : (s.setMults v).dir = s.dir := (rfl)
@[simp] theorem State.setMults_dieResets (s : State) (v : Tbl MultRegs) : (s.setMults v).dieResets = s.dieResets := (rfl)
@[simp] theorem State.setMults_homeTxn (s : State) (v : Tbl MultRegs) : (s.setMults v).homeTxn = s.homeTxn := (rfl)
@[simp] theorem State.setMults_cores (s : State) (v : Tbl MultRegs) : (s.setMults v).cores = s.cores := (rfl)
@[simp] theorem State.setMults_tngDone (s : State) (v : Tbl MultRegs) : (s.setMults v).tngDone = s.tngDone := (rfl)
@[simp] theorem State.setMults_fab (s : State) (v : Tbl MultRegs) : (s.setMults v).fab = s.fab := (rfl)
@[simp] theorem State.setMults_net (s : State) (v : Tbl MultRegs) : (s.setMults v).net = s.net := (rfl)
@[simp] theorem State.setMults_rtrShare (s : State) (v : Tbl MultRegs) : (s.setMults v).rtrShare = s.rtrShare := (rfl)
@[simp] theorem State.setMults_dbg (s : State) (v : Tbl MultRegs) : (s.setMults v).dbg = s.dbg := (rfl)
@[simp] theorem State.setMults_dcWait (s : State) (v : Tbl MultRegs) : (s.setMults v).dcWait = s.dcWait := (rfl)
@[simp] theorem State.setMults_prcStep (s : State) (v : Tbl MultRegs) : (s.setMults v).prcStep = s.prcStep := (rfl)
@[simp] theorem State.setMults_prcBlank (s : State) (v : Tbl MultRegs) : (s.setMults v).prcBlank = s.prcBlank := (rfl)
@[simp] theorem State.setMults_prcHold (s : State) (v : Tbl MultRegs) : (s.setMults v).prcHold = s.prcHold := (rfl)
@[simp] theorem State.setMults_capWait (s : State) (v : Tbl MultRegs) : (s.setMults v).capWait = s.capWait := (rfl)
@[simp] theorem State.setMults_capture (s : State) (v : Tbl MultRegs) : (s.setMults v).capture = s.capture := (rfl)
@[simp] theorem State.setMults_bramDef (s : State) (v : Tbl MultRegs) : (s.setMults v).bramDef = s.bramDef := (rfl)
@[simp] theorem State.setMults_scrubs (s : State) (v : Tbl MultRegs) : (s.setMults v).scrubs = s.scrubs := (rfl)
@[simp] theorem State.setMults_scrCopy (s : State) (v : Tbl MultRegs) : (s.setMults v).scrCopy = s.scrCopy := (rfl)
@[simp] theorem State.setMults_releases (s : State) (v : Tbl MultRegs) : (s.setMults v).releases = s.releases := (rfl)
@[simp] theorem State.setMults_dieStep (s : State) (v : Tbl MultRegs) : (s.setMults v).dieStep = s.dieStep := (rfl)
@[simp] theorem State.setMults_clampDef (s : State) (v : Tbl MultRegs) : (s.setMults v).clampDef = s.clampDef := (rfl)
@[simp] theorem State.setMults_clamps (s : State) (v : Tbl MultRegs) : (s.setMults v).clamps = s.clamps := (rfl)
@[simp] theorem State.setMults_welds (s : State) (v : Tbl MultRegs) : (s.setMults v).welds = s.welds := (rfl)
@[simp] theorem State.setMults_lanes (s : State) (v : Tbl MultRegs) : (s.setMults v).lanes = s.lanes := (rfl)
@[simp] theorem State.setMults_macMode (s : State) (v : Tbl MultRegs) : (s.setMults v).macMode = s.macMode := (rfl)
@[simp] theorem State.setMults_tod (s : State) (v : Tbl MultRegs) : (s.setMults v).tod = s.tod := (rfl)
@[simp] theorem State.setMults_lkp (s : State) (v : Tbl MultRegs) : (s.setMults v).lkp = s.lkp := (rfl)
@[simp] theorem State.setMults_queues (s : State) (v : Tbl MultRegs) : (s.setMults v).queues = s.queues := (rfl)
@[simp] theorem State.setMults_ports (s : State) (v : Tbl MultRegs) : (s.setMults v).ports = s.ports := (rfl)
@[simp] theorem State.setMults_pkt (s : State) (v : Tbl MultRegs) : (s.setMults v).pkt = s.pkt := (rfl)
@[simp] theorem State.setMults_cxl (s : State) (v : Tbl MultRegs) : (s.setMults v).cxl = s.cxl := (rfl)
@[simp] theorem State.setMults_ddr (s : State) (v : Tbl MultRegs) : (s.setMults v).ddr = s.ddr := (rfl)
@[simp] theorem State.setMults_regions (s : State) (v : Tbl MultRegs) : (s.setMults v).regions = s.regions := (rfl)
@[simp] theorem State.setMults_prots (s : State) (v : Tbl MultRegs) : (s.setMults v).prots = s.prots := (rfl)
@[simp] theorem State.setMults_keyStore (s : State) (v : Tbl MultRegs) : (s.setMults v).keyStore = s.keyStore := (rfl)
@[simp] theorem State.setMults_rings (s : State) (v : Tbl MultRegs) : (s.setMults v).rings = s.rings := (rfl)
@[simp] theorem State.setMults_openMem (s : State) (v : Tbl MultRegs) : (s.setMults v).openMem = s.openMem := (rfl)
@[simp] theorem State.setMults_dcRights (s : State) (v : Tbl MultRegs) : (s.setMults v).dcRights = s.dcRights := (rfl)
@[simp] theorem State.setMults_clk (s : State) (v : Tbl MultRegs) : (s.setMults v).clk = s.clk := (rfl)
@[simp] theorem State.setMults_units (s : State) (v : Tbl MultRegs) : (s.setMults v).units = s.units := (rfl)
@[simp] theorem State.setMults_hearthHit (s : State) (v : Tbl MultRegs) : (s.setMults v).hearthHit = s.hearthHit := (rfl)
@[simp] theorem State.setRailKeep_pending (s : State) (v : Tbl Nat) : (s.setRailKeep v).pending = s.pending := (rfl)
@[simp] theorem State.setRailKeep_regs (s : State) (v : Tbl Nat) : (s.setRailKeep v).regs = s.regs := (rfl)
@[simp] theorem State.setRailKeep_mem (s : State) (v : Tbl Nat) : (s.setRailKeep v).mem = s.mem := (rfl)
@[simp] theorem State.setRailKeep_poison (s : State) (v : Tbl Nat) : (s.setRailKeep v).poison = s.poison := (rfl)
@[simp] theorem State.setRailKeep_fresh (s : State) (v : Tbl Nat) : (s.setRailKeep v).fresh = s.fresh := (rfl)
@[simp] theorem State.setRailKeep_answer (s : State) (v : Tbl Nat) : (s.setRailKeep v).answer = s.answer := (rfl)
@[simp] theorem State.setRailKeep_answerStatus (s : State) (v : Tbl Nat) : (s.setRailKeep v).answerStatus = s.answerStatus := (rfl)
@[simp] theorem State.setRailKeep_book (s : State) (v : Tbl Nat) : (s.setRailKeep v).book = s.book := (rfl)
@[simp] theorem State.setRailKeep_mgt (s : State) (v : Tbl Nat) : (s.setRailKeep v).mgt = s.mgt := (rfl)
@[simp] theorem State.setRailKeep_fpFifo (s : State) (v : Tbl Nat) : (s.setRailKeep v).fpFifo = s.fpFifo := (rfl)
@[simp] theorem State.setRailKeep_evtOnce (s : State) (v : Tbl Nat) : (s.setRailKeep v).evtOnce = s.evtOnce := (rfl)
@[simp] theorem State.setRailKeep_cycles (s : State) (v : Tbl Nat) : (s.setRailKeep v).cycles = s.cycles := (rfl)
@[simp] theorem State.setRailKeep_pcie (s : State) (v : Tbl Nat) : (s.setRailKeep v).pcie = s.pcie := (rfl)
@[simp] theorem State.setRailKeep_sent (s : State) (v : Tbl Nat) : (s.setRailKeep v).sent = s.sent := (rfl)
@[simp] theorem State.setRailKeep_bw (s : State) (v : Tbl Nat) : (s.setRailKeep v).bw = s.bw := (rfl)
@[simp] theorem State.setRailKeep_pmcLatch (s : State) (v : Tbl Nat) : (s.setRailKeep v).pmcLatch = s.pmcLatch := (rfl)
@[simp] theorem State.setRailKeep_cal (s : State) (v : Tbl Nat) : (s.setRailKeep v).cal = s.cal := (rfl)
@[simp] theorem State.setRailKeep_cfg (s : State) (v : Tbl Nat) : (s.setRailKeep v).cfg = s.cfg := (rfl)
@[simp] theorem State.setRailKeep_tap (s : State) (v : Tbl Nat) : (s.setRailKeep v).tap = s.tap := (rfl)
@[simp] theorem State.setRailKeep_pins (s : State) (v : Tbl Nat) : (s.setRailKeep v).pins = s.pins := (rfl)
@[simp] theorem State.setRailKeep_frames (s : State) (v : Tbl Nat) : (s.setRailKeep v).frames = s.frames := (rfl)
@[simp] theorem State.setRailKeep_clusters (s : State) (v : Tbl Nat) : (s.setRailKeep v).clusters = s.clusters := (rfl)
@[simp] theorem State.setRailKeep_ffs (s : State) (v : Tbl Nat) : (s.setRailKeep v).ffs = s.ffs := (rfl)
@[simp] theorem State.setRailKeep_relStage (s : State) (v : Tbl Nat) : (s.setRailKeep v).relStage = s.relStage := (rfl)
@[simp] theorem State.setRailKeep_frozen (s : State) (v : Tbl Nat) : (s.setRailKeep v).frozen = s.frozen := (rfl)
@[simp] theorem State.setRailKeep_bramCfg (s : State) (v : Tbl Nat) : (s.setRailKeep v).bramCfg = s.bramCfg := (rfl)
@[simp] theorem State.setRailKeep_bram (s : State) (v : Tbl Nat) : (s.setRailKeep v).bram = s.bram := (rfl)
@[simp] theorem State.setRailKeep_bramPorts (s : State) (v : Tbl Nat) : (s.setRailKeep v).bramPorts = s.bramPorts := (rfl)
@[simp] theorem State.setRailKeep_multCfg (s : State) (v : Tbl Nat) : (s.setRailKeep v).multCfg = s.multCfg := (rfl)
@[simp] theorem State.setRailKeep_mults (s : State) (v : Tbl Nat) : (s.setRailKeep v).mults = s.mults := (rfl)
@[simp] theorem State.setRailKeep_railKeep (s : State) (v : Tbl Nat) : (s.setRailKeep v).railKeep = v := (rfl)
@[simp] theorem State.setRailKeep_chk (s : State) (v : Tbl Nat) : (s.setRailKeep v).chk = s.chk := (rfl)
@[simp] theorem State.setRailKeep_eccRaw (s : State) (v : Tbl Nat) : (s.setRailKeep v).eccRaw = s.eccRaw := (rfl)
@[simp] theorem State.setRailKeep_eccScrub (s : State) (v : Tbl Nat) : (s.setRailKeep v).eccScrub = s.eccScrub := (rfl)
@[simp] theorem State.setRailKeep_tags (s : State) (v : Tbl Nat) : (s.setRailKeep v).tags = s.tags := (rfl)
@[simp] theorem State.setRailKeep_xUsed (s : State) (v : Tbl Nat) : (s.setRailKeep v).xUsed = s.xUsed := (rfl)
@[simp] theorem State.setRailKeep_xWait (s : State) (v : Tbl Nat) : (s.setRailKeep v).xWait = s.xWait := (rfl)
@[simp] theorem State.setRailKeep_xHeld (s : State) (v : Tbl Nat) : (s.setRailKeep v).xHeld = s.xHeld := (rfl)
@[simp] theorem State.setRailKeep_routers (s : State) (v : Tbl Nat) : (s.setRailKeep v).routers = s.routers := (rfl)
@[simp] theorem State.setRailKeep_portMode (s : State) (v : Tbl Nat) : (s.setRailKeep v).portMode = s.portMode := (rfl)
@[simp] theorem State.setRailKeep_portTags (s : State) (v : Tbl Nat) : (s.setRailKeep v).portTags = s.portTags := (rfl)
@[simp] theorem State.setRailKeep_portFifo (s : State) (v : Tbl Nat) : (s.setRailKeep v).portFifo = s.portFifo := (rfl)
@[simp] theorem State.setRailKeep_dcache (s : State) (v : Tbl Nat) : (s.setRailKeep v).dcache = s.dcache := (rfl)
@[simp] theorem State.setRailKeep_dir (s : State) (v : Tbl Nat) : (s.setRailKeep v).dir = s.dir := (rfl)
@[simp] theorem State.setRailKeep_dieResets (s : State) (v : Tbl Nat) : (s.setRailKeep v).dieResets = s.dieResets := (rfl)
@[simp] theorem State.setRailKeep_homeTxn (s : State) (v : Tbl Nat) : (s.setRailKeep v).homeTxn = s.homeTxn := (rfl)
@[simp] theorem State.setRailKeep_cores (s : State) (v : Tbl Nat) : (s.setRailKeep v).cores = s.cores := (rfl)
@[simp] theorem State.setRailKeep_tngDone (s : State) (v : Tbl Nat) : (s.setRailKeep v).tngDone = s.tngDone := (rfl)
@[simp] theorem State.setRailKeep_fab (s : State) (v : Tbl Nat) : (s.setRailKeep v).fab = s.fab := (rfl)
@[simp] theorem State.setRailKeep_net (s : State) (v : Tbl Nat) : (s.setRailKeep v).net = s.net := (rfl)
@[simp] theorem State.setRailKeep_rtrShare (s : State) (v : Tbl Nat) : (s.setRailKeep v).rtrShare = s.rtrShare := (rfl)
@[simp] theorem State.setRailKeep_dbg (s : State) (v : Tbl Nat) : (s.setRailKeep v).dbg = s.dbg := (rfl)
@[simp] theorem State.setRailKeep_dcWait (s : State) (v : Tbl Nat) : (s.setRailKeep v).dcWait = s.dcWait := (rfl)
@[simp] theorem State.setRailKeep_prcStep (s : State) (v : Tbl Nat) : (s.setRailKeep v).prcStep = s.prcStep := (rfl)
@[simp] theorem State.setRailKeep_prcBlank (s : State) (v : Tbl Nat) : (s.setRailKeep v).prcBlank = s.prcBlank := (rfl)
@[simp] theorem State.setRailKeep_prcHold (s : State) (v : Tbl Nat) : (s.setRailKeep v).prcHold = s.prcHold := (rfl)
@[simp] theorem State.setRailKeep_capWait (s : State) (v : Tbl Nat) : (s.setRailKeep v).capWait = s.capWait := (rfl)
@[simp] theorem State.setRailKeep_capture (s : State) (v : Tbl Nat) : (s.setRailKeep v).capture = s.capture := (rfl)
@[simp] theorem State.setRailKeep_bramDef (s : State) (v : Tbl Nat) : (s.setRailKeep v).bramDef = s.bramDef := (rfl)
@[simp] theorem State.setRailKeep_scrubs (s : State) (v : Tbl Nat) : (s.setRailKeep v).scrubs = s.scrubs := (rfl)
@[simp] theorem State.setRailKeep_scrCopy (s : State) (v : Tbl Nat) : (s.setRailKeep v).scrCopy = s.scrCopy := (rfl)
@[simp] theorem State.setRailKeep_releases (s : State) (v : Tbl Nat) : (s.setRailKeep v).releases = s.releases := (rfl)
@[simp] theorem State.setRailKeep_dieStep (s : State) (v : Tbl Nat) : (s.setRailKeep v).dieStep = s.dieStep := (rfl)
@[simp] theorem State.setRailKeep_clampDef (s : State) (v : Tbl Nat) : (s.setRailKeep v).clampDef = s.clampDef := (rfl)
@[simp] theorem State.setRailKeep_clamps (s : State) (v : Tbl Nat) : (s.setRailKeep v).clamps = s.clamps := (rfl)
@[simp] theorem State.setRailKeep_welds (s : State) (v : Tbl Nat) : (s.setRailKeep v).welds = s.welds := (rfl)
@[simp] theorem State.setRailKeep_lanes (s : State) (v : Tbl Nat) : (s.setRailKeep v).lanes = s.lanes := (rfl)
@[simp] theorem State.setRailKeep_macMode (s : State) (v : Tbl Nat) : (s.setRailKeep v).macMode = s.macMode := (rfl)
@[simp] theorem State.setRailKeep_tod (s : State) (v : Tbl Nat) : (s.setRailKeep v).tod = s.tod := (rfl)
@[simp] theorem State.setRailKeep_lkp (s : State) (v : Tbl Nat) : (s.setRailKeep v).lkp = s.lkp := (rfl)
@[simp] theorem State.setRailKeep_queues (s : State) (v : Tbl Nat) : (s.setRailKeep v).queues = s.queues := (rfl)
@[simp] theorem State.setRailKeep_ports (s : State) (v : Tbl Nat) : (s.setRailKeep v).ports = s.ports := (rfl)
@[simp] theorem State.setRailKeep_pkt (s : State) (v : Tbl Nat) : (s.setRailKeep v).pkt = s.pkt := (rfl)
@[simp] theorem State.setRailKeep_cxl (s : State) (v : Tbl Nat) : (s.setRailKeep v).cxl = s.cxl := (rfl)
@[simp] theorem State.setRailKeep_ddr (s : State) (v : Tbl Nat) : (s.setRailKeep v).ddr = s.ddr := (rfl)
@[simp] theorem State.setRailKeep_regions (s : State) (v : Tbl Nat) : (s.setRailKeep v).regions = s.regions := (rfl)
@[simp] theorem State.setRailKeep_prots (s : State) (v : Tbl Nat) : (s.setRailKeep v).prots = s.prots := (rfl)
@[simp] theorem State.setRailKeep_keyStore (s : State) (v : Tbl Nat) : (s.setRailKeep v).keyStore = s.keyStore := (rfl)
@[simp] theorem State.setRailKeep_rings (s : State) (v : Tbl Nat) : (s.setRailKeep v).rings = s.rings := (rfl)
@[simp] theorem State.setRailKeep_openMem (s : State) (v : Tbl Nat) : (s.setRailKeep v).openMem = s.openMem := (rfl)
@[simp] theorem State.setRailKeep_dcRights (s : State) (v : Tbl Nat) : (s.setRailKeep v).dcRights = s.dcRights := (rfl)
@[simp] theorem State.setRailKeep_clk (s : State) (v : Tbl Nat) : (s.setRailKeep v).clk = s.clk := (rfl)
@[simp] theorem State.setRailKeep_units (s : State) (v : Tbl Nat) : (s.setRailKeep v).units = s.units := (rfl)
@[simp] theorem State.setRailKeep_hearthHit (s : State) (v : Tbl Nat) : (s.setRailKeep v).hearthHit = s.hearthHit := (rfl)
@[simp] theorem State.setChk_pending (s : State) (v : Tbl Nat) : (s.setChk v).pending = s.pending := (rfl)
@[simp] theorem State.setChk_regs (s : State) (v : Tbl Nat) : (s.setChk v).regs = s.regs := (rfl)
@[simp] theorem State.setChk_mem (s : State) (v : Tbl Nat) : (s.setChk v).mem = s.mem := (rfl)
@[simp] theorem State.setChk_poison (s : State) (v : Tbl Nat) : (s.setChk v).poison = s.poison := (rfl)
@[simp] theorem State.setChk_fresh (s : State) (v : Tbl Nat) : (s.setChk v).fresh = s.fresh := (rfl)
@[simp] theorem State.setChk_answer (s : State) (v : Tbl Nat) : (s.setChk v).answer = s.answer := (rfl)
@[simp] theorem State.setChk_answerStatus (s : State) (v : Tbl Nat) : (s.setChk v).answerStatus = s.answerStatus := (rfl)
@[simp] theorem State.setChk_book (s : State) (v : Tbl Nat) : (s.setChk v).book = s.book := (rfl)
@[simp] theorem State.setChk_mgt (s : State) (v : Tbl Nat) : (s.setChk v).mgt = s.mgt := (rfl)
@[simp] theorem State.setChk_fpFifo (s : State) (v : Tbl Nat) : (s.setChk v).fpFifo = s.fpFifo := (rfl)
@[simp] theorem State.setChk_evtOnce (s : State) (v : Tbl Nat) : (s.setChk v).evtOnce = s.evtOnce := (rfl)
@[simp] theorem State.setChk_cycles (s : State) (v : Tbl Nat) : (s.setChk v).cycles = s.cycles := (rfl)
@[simp] theorem State.setChk_pcie (s : State) (v : Tbl Nat) : (s.setChk v).pcie = s.pcie := (rfl)
@[simp] theorem State.setChk_sent (s : State) (v : Tbl Nat) : (s.setChk v).sent = s.sent := (rfl)
@[simp] theorem State.setChk_bw (s : State) (v : Tbl Nat) : (s.setChk v).bw = s.bw := (rfl)
@[simp] theorem State.setChk_pmcLatch (s : State) (v : Tbl Nat) : (s.setChk v).pmcLatch = s.pmcLatch := (rfl)
@[simp] theorem State.setChk_cal (s : State) (v : Tbl Nat) : (s.setChk v).cal = s.cal := (rfl)
@[simp] theorem State.setChk_cfg (s : State) (v : Tbl Nat) : (s.setChk v).cfg = s.cfg := (rfl)
@[simp] theorem State.setChk_tap (s : State) (v : Tbl Nat) : (s.setChk v).tap = s.tap := (rfl)
@[simp] theorem State.setChk_pins (s : State) (v : Tbl Nat) : (s.setChk v).pins = s.pins := (rfl)
@[simp] theorem State.setChk_frames (s : State) (v : Tbl Nat) : (s.setChk v).frames = s.frames := (rfl)
@[simp] theorem State.setChk_clusters (s : State) (v : Tbl Nat) : (s.setChk v).clusters = s.clusters := (rfl)
@[simp] theorem State.setChk_ffs (s : State) (v : Tbl Nat) : (s.setChk v).ffs = s.ffs := (rfl)
@[simp] theorem State.setChk_relStage (s : State) (v : Tbl Nat) : (s.setChk v).relStage = s.relStage := (rfl)
@[simp] theorem State.setChk_frozen (s : State) (v : Tbl Nat) : (s.setChk v).frozen = s.frozen := (rfl)
@[simp] theorem State.setChk_bramCfg (s : State) (v : Tbl Nat) : (s.setChk v).bramCfg = s.bramCfg := (rfl)
@[simp] theorem State.setChk_bram (s : State) (v : Tbl Nat) : (s.setChk v).bram = s.bram := (rfl)
@[simp] theorem State.setChk_bramPorts (s : State) (v : Tbl Nat) : (s.setChk v).bramPorts = s.bramPorts := (rfl)
@[simp] theorem State.setChk_multCfg (s : State) (v : Tbl Nat) : (s.setChk v).multCfg = s.multCfg := (rfl)
@[simp] theorem State.setChk_mults (s : State) (v : Tbl Nat) : (s.setChk v).mults = s.mults := (rfl)
@[simp] theorem State.setChk_railKeep (s : State) (v : Tbl Nat) : (s.setChk v).railKeep = s.railKeep := (rfl)
@[simp] theorem State.setChk_chk (s : State) (v : Tbl Nat) : (s.setChk v).chk = v := (rfl)
@[simp] theorem State.setChk_eccRaw (s : State) (v : Tbl Nat) : (s.setChk v).eccRaw = s.eccRaw := (rfl)
@[simp] theorem State.setChk_eccScrub (s : State) (v : Tbl Nat) : (s.setChk v).eccScrub = s.eccScrub := (rfl)
@[simp] theorem State.setChk_tags (s : State) (v : Tbl Nat) : (s.setChk v).tags = s.tags := (rfl)
@[simp] theorem State.setChk_xUsed (s : State) (v : Tbl Nat) : (s.setChk v).xUsed = s.xUsed := (rfl)
@[simp] theorem State.setChk_xWait (s : State) (v : Tbl Nat) : (s.setChk v).xWait = s.xWait := (rfl)
@[simp] theorem State.setChk_xHeld (s : State) (v : Tbl Nat) : (s.setChk v).xHeld = s.xHeld := (rfl)
@[simp] theorem State.setChk_routers (s : State) (v : Tbl Nat) : (s.setChk v).routers = s.routers := (rfl)
@[simp] theorem State.setChk_portMode (s : State) (v : Tbl Nat) : (s.setChk v).portMode = s.portMode := (rfl)
@[simp] theorem State.setChk_portTags (s : State) (v : Tbl Nat) : (s.setChk v).portTags = s.portTags := (rfl)
@[simp] theorem State.setChk_portFifo (s : State) (v : Tbl Nat) : (s.setChk v).portFifo = s.portFifo := (rfl)
@[simp] theorem State.setChk_dcache (s : State) (v : Tbl Nat) : (s.setChk v).dcache = s.dcache := (rfl)
@[simp] theorem State.setChk_dir (s : State) (v : Tbl Nat) : (s.setChk v).dir = s.dir := (rfl)
@[simp] theorem State.setChk_dieResets (s : State) (v : Tbl Nat) : (s.setChk v).dieResets = s.dieResets := (rfl)
@[simp] theorem State.setChk_homeTxn (s : State) (v : Tbl Nat) : (s.setChk v).homeTxn = s.homeTxn := (rfl)
@[simp] theorem State.setChk_cores (s : State) (v : Tbl Nat) : (s.setChk v).cores = s.cores := (rfl)
@[simp] theorem State.setChk_tngDone (s : State) (v : Tbl Nat) : (s.setChk v).tngDone = s.tngDone := (rfl)
@[simp] theorem State.setChk_fab (s : State) (v : Tbl Nat) : (s.setChk v).fab = s.fab := (rfl)
@[simp] theorem State.setChk_net (s : State) (v : Tbl Nat) : (s.setChk v).net = s.net := (rfl)
@[simp] theorem State.setChk_rtrShare (s : State) (v : Tbl Nat) : (s.setChk v).rtrShare = s.rtrShare := (rfl)
@[simp] theorem State.setChk_dbg (s : State) (v : Tbl Nat) : (s.setChk v).dbg = s.dbg := (rfl)
@[simp] theorem State.setChk_dcWait (s : State) (v : Tbl Nat) : (s.setChk v).dcWait = s.dcWait := (rfl)
@[simp] theorem State.setChk_prcStep (s : State) (v : Tbl Nat) : (s.setChk v).prcStep = s.prcStep := (rfl)
@[simp] theorem State.setChk_prcBlank (s : State) (v : Tbl Nat) : (s.setChk v).prcBlank = s.prcBlank := (rfl)
@[simp] theorem State.setChk_prcHold (s : State) (v : Tbl Nat) : (s.setChk v).prcHold = s.prcHold := (rfl)
@[simp] theorem State.setChk_capWait (s : State) (v : Tbl Nat) : (s.setChk v).capWait = s.capWait := (rfl)
@[simp] theorem State.setChk_capture (s : State) (v : Tbl Nat) : (s.setChk v).capture = s.capture := (rfl)
@[simp] theorem State.setChk_bramDef (s : State) (v : Tbl Nat) : (s.setChk v).bramDef = s.bramDef := (rfl)
@[simp] theorem State.setChk_scrubs (s : State) (v : Tbl Nat) : (s.setChk v).scrubs = s.scrubs := (rfl)
@[simp] theorem State.setChk_scrCopy (s : State) (v : Tbl Nat) : (s.setChk v).scrCopy = s.scrCopy := (rfl)
@[simp] theorem State.setChk_releases (s : State) (v : Tbl Nat) : (s.setChk v).releases = s.releases := (rfl)
@[simp] theorem State.setChk_dieStep (s : State) (v : Tbl Nat) : (s.setChk v).dieStep = s.dieStep := (rfl)
@[simp] theorem State.setChk_clampDef (s : State) (v : Tbl Nat) : (s.setChk v).clampDef = s.clampDef := (rfl)
@[simp] theorem State.setChk_clamps (s : State) (v : Tbl Nat) : (s.setChk v).clamps = s.clamps := (rfl)
@[simp] theorem State.setChk_welds (s : State) (v : Tbl Nat) : (s.setChk v).welds = s.welds := (rfl)
@[simp] theorem State.setChk_lanes (s : State) (v : Tbl Nat) : (s.setChk v).lanes = s.lanes := (rfl)
@[simp] theorem State.setChk_macMode (s : State) (v : Tbl Nat) : (s.setChk v).macMode = s.macMode := (rfl)
@[simp] theorem State.setChk_tod (s : State) (v : Tbl Nat) : (s.setChk v).tod = s.tod := (rfl)
@[simp] theorem State.setChk_lkp (s : State) (v : Tbl Nat) : (s.setChk v).lkp = s.lkp := (rfl)
@[simp] theorem State.setChk_queues (s : State) (v : Tbl Nat) : (s.setChk v).queues = s.queues := (rfl)
@[simp] theorem State.setChk_ports (s : State) (v : Tbl Nat) : (s.setChk v).ports = s.ports := (rfl)
@[simp] theorem State.setChk_pkt (s : State) (v : Tbl Nat) : (s.setChk v).pkt = s.pkt := (rfl)
@[simp] theorem State.setChk_cxl (s : State) (v : Tbl Nat) : (s.setChk v).cxl = s.cxl := (rfl)
@[simp] theorem State.setChk_ddr (s : State) (v : Tbl Nat) : (s.setChk v).ddr = s.ddr := (rfl)
@[simp] theorem State.setChk_regions (s : State) (v : Tbl Nat) : (s.setChk v).regions = s.regions := (rfl)
@[simp] theorem State.setChk_prots (s : State) (v : Tbl Nat) : (s.setChk v).prots = s.prots := (rfl)
@[simp] theorem State.setChk_keyStore (s : State) (v : Tbl Nat) : (s.setChk v).keyStore = s.keyStore := (rfl)
@[simp] theorem State.setChk_rings (s : State) (v : Tbl Nat) : (s.setChk v).rings = s.rings := (rfl)
@[simp] theorem State.setChk_openMem (s : State) (v : Tbl Nat) : (s.setChk v).openMem = s.openMem := (rfl)
@[simp] theorem State.setChk_dcRights (s : State) (v : Tbl Nat) : (s.setChk v).dcRights = s.dcRights := (rfl)
@[simp] theorem State.setChk_clk (s : State) (v : Tbl Nat) : (s.setChk v).clk = s.clk := (rfl)
@[simp] theorem State.setChk_units (s : State) (v : Tbl Nat) : (s.setChk v).units = s.units := (rfl)
@[simp] theorem State.setChk_hearthHit (s : State) (v : Tbl Nat) : (s.setChk v).hearthHit = s.hearthHit := (rfl)
@[simp] theorem State.setEccRaw_pending (s : State) (v : Tbl Nat) : (s.setEccRaw v).pending = s.pending := (rfl)
@[simp] theorem State.setEccRaw_regs (s : State) (v : Tbl Nat) : (s.setEccRaw v).regs = s.regs := (rfl)
@[simp] theorem State.setEccRaw_mem (s : State) (v : Tbl Nat) : (s.setEccRaw v).mem = s.mem := (rfl)
@[simp] theorem State.setEccRaw_poison (s : State) (v : Tbl Nat) : (s.setEccRaw v).poison = s.poison := (rfl)
@[simp] theorem State.setEccRaw_fresh (s : State) (v : Tbl Nat) : (s.setEccRaw v).fresh = s.fresh := (rfl)
@[simp] theorem State.setEccRaw_answer (s : State) (v : Tbl Nat) : (s.setEccRaw v).answer = s.answer := (rfl)
@[simp] theorem State.setEccRaw_answerStatus (s : State) (v : Tbl Nat) : (s.setEccRaw v).answerStatus = s.answerStatus := (rfl)
@[simp] theorem State.setEccRaw_book (s : State) (v : Tbl Nat) : (s.setEccRaw v).book = s.book := (rfl)
@[simp] theorem State.setEccRaw_mgt (s : State) (v : Tbl Nat) : (s.setEccRaw v).mgt = s.mgt := (rfl)
@[simp] theorem State.setEccRaw_fpFifo (s : State) (v : Tbl Nat) : (s.setEccRaw v).fpFifo = s.fpFifo := (rfl)
@[simp] theorem State.setEccRaw_evtOnce (s : State) (v : Tbl Nat) : (s.setEccRaw v).evtOnce = s.evtOnce := (rfl)
@[simp] theorem State.setEccRaw_cycles (s : State) (v : Tbl Nat) : (s.setEccRaw v).cycles = s.cycles := (rfl)
@[simp] theorem State.setEccRaw_pcie (s : State) (v : Tbl Nat) : (s.setEccRaw v).pcie = s.pcie := (rfl)
@[simp] theorem State.setEccRaw_sent (s : State) (v : Tbl Nat) : (s.setEccRaw v).sent = s.sent := (rfl)
@[simp] theorem State.setEccRaw_bw (s : State) (v : Tbl Nat) : (s.setEccRaw v).bw = s.bw := (rfl)
@[simp] theorem State.setEccRaw_pmcLatch (s : State) (v : Tbl Nat) : (s.setEccRaw v).pmcLatch = s.pmcLatch := (rfl)
@[simp] theorem State.setEccRaw_cal (s : State) (v : Tbl Nat) : (s.setEccRaw v).cal = s.cal := (rfl)
@[simp] theorem State.setEccRaw_cfg (s : State) (v : Tbl Nat) : (s.setEccRaw v).cfg = s.cfg := (rfl)
@[simp] theorem State.setEccRaw_tap (s : State) (v : Tbl Nat) : (s.setEccRaw v).tap = s.tap := (rfl)
@[simp] theorem State.setEccRaw_pins (s : State) (v : Tbl Nat) : (s.setEccRaw v).pins = s.pins := (rfl)
@[simp] theorem State.setEccRaw_frames (s : State) (v : Tbl Nat) : (s.setEccRaw v).frames = s.frames := (rfl)
@[simp] theorem State.setEccRaw_clusters (s : State) (v : Tbl Nat) : (s.setEccRaw v).clusters = s.clusters := (rfl)
@[simp] theorem State.setEccRaw_ffs (s : State) (v : Tbl Nat) : (s.setEccRaw v).ffs = s.ffs := (rfl)
@[simp] theorem State.setEccRaw_relStage (s : State) (v : Tbl Nat) : (s.setEccRaw v).relStage = s.relStage := (rfl)
@[simp] theorem State.setEccRaw_frozen (s : State) (v : Tbl Nat) : (s.setEccRaw v).frozen = s.frozen := (rfl)
@[simp] theorem State.setEccRaw_bramCfg (s : State) (v : Tbl Nat) : (s.setEccRaw v).bramCfg = s.bramCfg := (rfl)
@[simp] theorem State.setEccRaw_bram (s : State) (v : Tbl Nat) : (s.setEccRaw v).bram = s.bram := (rfl)
@[simp] theorem State.setEccRaw_bramPorts (s : State) (v : Tbl Nat) : (s.setEccRaw v).bramPorts = s.bramPorts := (rfl)
@[simp] theorem State.setEccRaw_multCfg (s : State) (v : Tbl Nat) : (s.setEccRaw v).multCfg = s.multCfg := (rfl)
@[simp] theorem State.setEccRaw_mults (s : State) (v : Tbl Nat) : (s.setEccRaw v).mults = s.mults := (rfl)
@[simp] theorem State.setEccRaw_railKeep (s : State) (v : Tbl Nat) : (s.setEccRaw v).railKeep = s.railKeep := (rfl)
@[simp] theorem State.setEccRaw_chk (s : State) (v : Tbl Nat) : (s.setEccRaw v).chk = s.chk := (rfl)
@[simp] theorem State.setEccRaw_eccRaw (s : State) (v : Tbl Nat) : (s.setEccRaw v).eccRaw = v := (rfl)
@[simp] theorem State.setEccRaw_eccScrub (s : State) (v : Tbl Nat) : (s.setEccRaw v).eccScrub = s.eccScrub := (rfl)
@[simp] theorem State.setEccRaw_tags (s : State) (v : Tbl Nat) : (s.setEccRaw v).tags = s.tags := (rfl)
@[simp] theorem State.setEccRaw_xUsed (s : State) (v : Tbl Nat) : (s.setEccRaw v).xUsed = s.xUsed := (rfl)
@[simp] theorem State.setEccRaw_xWait (s : State) (v : Tbl Nat) : (s.setEccRaw v).xWait = s.xWait := (rfl)
@[simp] theorem State.setEccRaw_xHeld (s : State) (v : Tbl Nat) : (s.setEccRaw v).xHeld = s.xHeld := (rfl)
@[simp] theorem State.setEccRaw_routers (s : State) (v : Tbl Nat) : (s.setEccRaw v).routers = s.routers := (rfl)
@[simp] theorem State.setEccRaw_portMode (s : State) (v : Tbl Nat) : (s.setEccRaw v).portMode = s.portMode := (rfl)
@[simp] theorem State.setEccRaw_portTags (s : State) (v : Tbl Nat) : (s.setEccRaw v).portTags = s.portTags := (rfl)
@[simp] theorem State.setEccRaw_portFifo (s : State) (v : Tbl Nat) : (s.setEccRaw v).portFifo = s.portFifo := (rfl)
@[simp] theorem State.setEccRaw_dcache (s : State) (v : Tbl Nat) : (s.setEccRaw v).dcache = s.dcache := (rfl)
@[simp] theorem State.setEccRaw_dir (s : State) (v : Tbl Nat) : (s.setEccRaw v).dir = s.dir := (rfl)
@[simp] theorem State.setEccRaw_dieResets (s : State) (v : Tbl Nat) : (s.setEccRaw v).dieResets = s.dieResets := (rfl)
@[simp] theorem State.setEccRaw_homeTxn (s : State) (v : Tbl Nat) : (s.setEccRaw v).homeTxn = s.homeTxn := (rfl)
@[simp] theorem State.setEccRaw_cores (s : State) (v : Tbl Nat) : (s.setEccRaw v).cores = s.cores := (rfl)
@[simp] theorem State.setEccRaw_tngDone (s : State) (v : Tbl Nat) : (s.setEccRaw v).tngDone = s.tngDone := (rfl)
@[simp] theorem State.setEccRaw_fab (s : State) (v : Tbl Nat) : (s.setEccRaw v).fab = s.fab := (rfl)
@[simp] theorem State.setEccRaw_net (s : State) (v : Tbl Nat) : (s.setEccRaw v).net = s.net := (rfl)
@[simp] theorem State.setEccRaw_rtrShare (s : State) (v : Tbl Nat) : (s.setEccRaw v).rtrShare = s.rtrShare := (rfl)
@[simp] theorem State.setEccRaw_dbg (s : State) (v : Tbl Nat) : (s.setEccRaw v).dbg = s.dbg := (rfl)
@[simp] theorem State.setEccRaw_dcWait (s : State) (v : Tbl Nat) : (s.setEccRaw v).dcWait = s.dcWait := (rfl)
@[simp] theorem State.setEccRaw_prcStep (s : State) (v : Tbl Nat) : (s.setEccRaw v).prcStep = s.prcStep := (rfl)
@[simp] theorem State.setEccRaw_prcBlank (s : State) (v : Tbl Nat) : (s.setEccRaw v).prcBlank = s.prcBlank := (rfl)
@[simp] theorem State.setEccRaw_prcHold (s : State) (v : Tbl Nat) : (s.setEccRaw v).prcHold = s.prcHold := (rfl)
@[simp] theorem State.setEccRaw_capWait (s : State) (v : Tbl Nat) : (s.setEccRaw v).capWait = s.capWait := (rfl)
@[simp] theorem State.setEccRaw_capture (s : State) (v : Tbl Nat) : (s.setEccRaw v).capture = s.capture := (rfl)
@[simp] theorem State.setEccRaw_bramDef (s : State) (v : Tbl Nat) : (s.setEccRaw v).bramDef = s.bramDef := (rfl)
@[simp] theorem State.setEccRaw_scrubs (s : State) (v : Tbl Nat) : (s.setEccRaw v).scrubs = s.scrubs := (rfl)
@[simp] theorem State.setEccRaw_scrCopy (s : State) (v : Tbl Nat) : (s.setEccRaw v).scrCopy = s.scrCopy := (rfl)
@[simp] theorem State.setEccRaw_releases (s : State) (v : Tbl Nat) : (s.setEccRaw v).releases = s.releases := (rfl)
@[simp] theorem State.setEccRaw_dieStep (s : State) (v : Tbl Nat) : (s.setEccRaw v).dieStep = s.dieStep := (rfl)
@[simp] theorem State.setEccRaw_clampDef (s : State) (v : Tbl Nat) : (s.setEccRaw v).clampDef = s.clampDef := (rfl)
@[simp] theorem State.setEccRaw_clamps (s : State) (v : Tbl Nat) : (s.setEccRaw v).clamps = s.clamps := (rfl)
@[simp] theorem State.setEccRaw_welds (s : State) (v : Tbl Nat) : (s.setEccRaw v).welds = s.welds := (rfl)
@[simp] theorem State.setEccRaw_lanes (s : State) (v : Tbl Nat) : (s.setEccRaw v).lanes = s.lanes := (rfl)
@[simp] theorem State.setEccRaw_macMode (s : State) (v : Tbl Nat) : (s.setEccRaw v).macMode = s.macMode := (rfl)
@[simp] theorem State.setEccRaw_tod (s : State) (v : Tbl Nat) : (s.setEccRaw v).tod = s.tod := (rfl)
@[simp] theorem State.setEccRaw_lkp (s : State) (v : Tbl Nat) : (s.setEccRaw v).lkp = s.lkp := (rfl)
@[simp] theorem State.setEccRaw_queues (s : State) (v : Tbl Nat) : (s.setEccRaw v).queues = s.queues := (rfl)
@[simp] theorem State.setEccRaw_ports (s : State) (v : Tbl Nat) : (s.setEccRaw v).ports = s.ports := (rfl)
@[simp] theorem State.setEccRaw_pkt (s : State) (v : Tbl Nat) : (s.setEccRaw v).pkt = s.pkt := (rfl)
@[simp] theorem State.setEccRaw_cxl (s : State) (v : Tbl Nat) : (s.setEccRaw v).cxl = s.cxl := (rfl)
@[simp] theorem State.setEccRaw_ddr (s : State) (v : Tbl Nat) : (s.setEccRaw v).ddr = s.ddr := (rfl)
@[simp] theorem State.setEccRaw_regions (s : State) (v : Tbl Nat) : (s.setEccRaw v).regions = s.regions := (rfl)
@[simp] theorem State.setEccRaw_prots (s : State) (v : Tbl Nat) : (s.setEccRaw v).prots = s.prots := (rfl)
@[simp] theorem State.setEccRaw_keyStore (s : State) (v : Tbl Nat) : (s.setEccRaw v).keyStore = s.keyStore := (rfl)
@[simp] theorem State.setEccRaw_rings (s : State) (v : Tbl Nat) : (s.setEccRaw v).rings = s.rings := (rfl)
@[simp] theorem State.setEccRaw_openMem (s : State) (v : Tbl Nat) : (s.setEccRaw v).openMem = s.openMem := (rfl)
@[simp] theorem State.setEccRaw_dcRights (s : State) (v : Tbl Nat) : (s.setEccRaw v).dcRights = s.dcRights := (rfl)
@[simp] theorem State.setEccRaw_clk (s : State) (v : Tbl Nat) : (s.setEccRaw v).clk = s.clk := (rfl)
@[simp] theorem State.setEccRaw_units (s : State) (v : Tbl Nat) : (s.setEccRaw v).units = s.units := (rfl)
@[simp] theorem State.setEccRaw_hearthHit (s : State) (v : Tbl Nat) : (s.setEccRaw v).hearthHit = s.hearthHit := (rfl)
@[simp] theorem State.setEccScrub_pending (s : State) (v : Tbl Nat) : (s.setEccScrub v).pending = s.pending := (rfl)
@[simp] theorem State.setEccScrub_regs (s : State) (v : Tbl Nat) : (s.setEccScrub v).regs = s.regs := (rfl)
@[simp] theorem State.setEccScrub_mem (s : State) (v : Tbl Nat) : (s.setEccScrub v).mem = s.mem := (rfl)
@[simp] theorem State.setEccScrub_poison (s : State) (v : Tbl Nat) : (s.setEccScrub v).poison = s.poison := (rfl)
@[simp] theorem State.setEccScrub_fresh (s : State) (v : Tbl Nat) : (s.setEccScrub v).fresh = s.fresh := (rfl)
@[simp] theorem State.setEccScrub_answer (s : State) (v : Tbl Nat) : (s.setEccScrub v).answer = s.answer := (rfl)
@[simp] theorem State.setEccScrub_answerStatus (s : State) (v : Tbl Nat) : (s.setEccScrub v).answerStatus = s.answerStatus := (rfl)
@[simp] theorem State.setEccScrub_book (s : State) (v : Tbl Nat) : (s.setEccScrub v).book = s.book := (rfl)
@[simp] theorem State.setEccScrub_mgt (s : State) (v : Tbl Nat) : (s.setEccScrub v).mgt = s.mgt := (rfl)
@[simp] theorem State.setEccScrub_fpFifo (s : State) (v : Tbl Nat) : (s.setEccScrub v).fpFifo = s.fpFifo := (rfl)
@[simp] theorem State.setEccScrub_evtOnce (s : State) (v : Tbl Nat) : (s.setEccScrub v).evtOnce = s.evtOnce := (rfl)
@[simp] theorem State.setEccScrub_cycles (s : State) (v : Tbl Nat) : (s.setEccScrub v).cycles = s.cycles := (rfl)
@[simp] theorem State.setEccScrub_pcie (s : State) (v : Tbl Nat) : (s.setEccScrub v).pcie = s.pcie := (rfl)
@[simp] theorem State.setEccScrub_sent (s : State) (v : Tbl Nat) : (s.setEccScrub v).sent = s.sent := (rfl)
@[simp] theorem State.setEccScrub_bw (s : State) (v : Tbl Nat) : (s.setEccScrub v).bw = s.bw := (rfl)
@[simp] theorem State.setEccScrub_pmcLatch (s : State) (v : Tbl Nat) : (s.setEccScrub v).pmcLatch = s.pmcLatch := (rfl)
@[simp] theorem State.setEccScrub_cal (s : State) (v : Tbl Nat) : (s.setEccScrub v).cal = s.cal := (rfl)
@[simp] theorem State.setEccScrub_cfg (s : State) (v : Tbl Nat) : (s.setEccScrub v).cfg = s.cfg := (rfl)
@[simp] theorem State.setEccScrub_tap (s : State) (v : Tbl Nat) : (s.setEccScrub v).tap = s.tap := (rfl)
@[simp] theorem State.setEccScrub_pins (s : State) (v : Tbl Nat) : (s.setEccScrub v).pins = s.pins := (rfl)
@[simp] theorem State.setEccScrub_frames (s : State) (v : Tbl Nat) : (s.setEccScrub v).frames = s.frames := (rfl)
@[simp] theorem State.setEccScrub_clusters (s : State) (v : Tbl Nat) : (s.setEccScrub v).clusters = s.clusters := (rfl)
@[simp] theorem State.setEccScrub_ffs (s : State) (v : Tbl Nat) : (s.setEccScrub v).ffs = s.ffs := (rfl)
@[simp] theorem State.setEccScrub_relStage (s : State) (v : Tbl Nat) : (s.setEccScrub v).relStage = s.relStage := (rfl)
@[simp] theorem State.setEccScrub_frozen (s : State) (v : Tbl Nat) : (s.setEccScrub v).frozen = s.frozen := (rfl)
@[simp] theorem State.setEccScrub_bramCfg (s : State) (v : Tbl Nat) : (s.setEccScrub v).bramCfg = s.bramCfg := (rfl)
@[simp] theorem State.setEccScrub_bram (s : State) (v : Tbl Nat) : (s.setEccScrub v).bram = s.bram := (rfl)
@[simp] theorem State.setEccScrub_bramPorts (s : State) (v : Tbl Nat) : (s.setEccScrub v).bramPorts = s.bramPorts := (rfl)
@[simp] theorem State.setEccScrub_multCfg (s : State) (v : Tbl Nat) : (s.setEccScrub v).multCfg = s.multCfg := (rfl)
@[simp] theorem State.setEccScrub_mults (s : State) (v : Tbl Nat) : (s.setEccScrub v).mults = s.mults := (rfl)
@[simp] theorem State.setEccScrub_railKeep (s : State) (v : Tbl Nat) : (s.setEccScrub v).railKeep = s.railKeep := (rfl)
@[simp] theorem State.setEccScrub_chk (s : State) (v : Tbl Nat) : (s.setEccScrub v).chk = s.chk := (rfl)
@[simp] theorem State.setEccScrub_eccRaw (s : State) (v : Tbl Nat) : (s.setEccScrub v).eccRaw = s.eccRaw := (rfl)
@[simp] theorem State.setEccScrub_eccScrub (s : State) (v : Tbl Nat) : (s.setEccScrub v).eccScrub = v := (rfl)
@[simp] theorem State.setEccScrub_tags (s : State) (v : Tbl Nat) : (s.setEccScrub v).tags = s.tags := (rfl)
@[simp] theorem State.setEccScrub_xUsed (s : State) (v : Tbl Nat) : (s.setEccScrub v).xUsed = s.xUsed := (rfl)
@[simp] theorem State.setEccScrub_xWait (s : State) (v : Tbl Nat) : (s.setEccScrub v).xWait = s.xWait := (rfl)
@[simp] theorem State.setEccScrub_xHeld (s : State) (v : Tbl Nat) : (s.setEccScrub v).xHeld = s.xHeld := (rfl)
@[simp] theorem State.setEccScrub_routers (s : State) (v : Tbl Nat) : (s.setEccScrub v).routers = s.routers := (rfl)
@[simp] theorem State.setEccScrub_portMode (s : State) (v : Tbl Nat) : (s.setEccScrub v).portMode = s.portMode := (rfl)
@[simp] theorem State.setEccScrub_portTags (s : State) (v : Tbl Nat) : (s.setEccScrub v).portTags = s.portTags := (rfl)
@[simp] theorem State.setEccScrub_portFifo (s : State) (v : Tbl Nat) : (s.setEccScrub v).portFifo = s.portFifo := (rfl)
@[simp] theorem State.setEccScrub_dcache (s : State) (v : Tbl Nat) : (s.setEccScrub v).dcache = s.dcache := (rfl)
@[simp] theorem State.setEccScrub_dir (s : State) (v : Tbl Nat) : (s.setEccScrub v).dir = s.dir := (rfl)
@[simp] theorem State.setEccScrub_dieResets (s : State) (v : Tbl Nat) : (s.setEccScrub v).dieResets = s.dieResets := (rfl)
@[simp] theorem State.setEccScrub_homeTxn (s : State) (v : Tbl Nat) : (s.setEccScrub v).homeTxn = s.homeTxn := (rfl)
@[simp] theorem State.setEccScrub_cores (s : State) (v : Tbl Nat) : (s.setEccScrub v).cores = s.cores := (rfl)
@[simp] theorem State.setEccScrub_tngDone (s : State) (v : Tbl Nat) : (s.setEccScrub v).tngDone = s.tngDone := (rfl)
@[simp] theorem State.setEccScrub_fab (s : State) (v : Tbl Nat) : (s.setEccScrub v).fab = s.fab := (rfl)
@[simp] theorem State.setEccScrub_net (s : State) (v : Tbl Nat) : (s.setEccScrub v).net = s.net := (rfl)
@[simp] theorem State.setEccScrub_rtrShare (s : State) (v : Tbl Nat) : (s.setEccScrub v).rtrShare = s.rtrShare := (rfl)
@[simp] theorem State.setEccScrub_dbg (s : State) (v : Tbl Nat) : (s.setEccScrub v).dbg = s.dbg := (rfl)
@[simp] theorem State.setEccScrub_dcWait (s : State) (v : Tbl Nat) : (s.setEccScrub v).dcWait = s.dcWait := (rfl)
@[simp] theorem State.setEccScrub_prcStep (s : State) (v : Tbl Nat) : (s.setEccScrub v).prcStep = s.prcStep := (rfl)
@[simp] theorem State.setEccScrub_prcBlank (s : State) (v : Tbl Nat) : (s.setEccScrub v).prcBlank = s.prcBlank := (rfl)
@[simp] theorem State.setEccScrub_prcHold (s : State) (v : Tbl Nat) : (s.setEccScrub v).prcHold = s.prcHold := (rfl)
@[simp] theorem State.setEccScrub_capWait (s : State) (v : Tbl Nat) : (s.setEccScrub v).capWait = s.capWait := (rfl)
@[simp] theorem State.setEccScrub_capture (s : State) (v : Tbl Nat) : (s.setEccScrub v).capture = s.capture := (rfl)
@[simp] theorem State.setEccScrub_bramDef (s : State) (v : Tbl Nat) : (s.setEccScrub v).bramDef = s.bramDef := (rfl)
@[simp] theorem State.setEccScrub_scrubs (s : State) (v : Tbl Nat) : (s.setEccScrub v).scrubs = s.scrubs := (rfl)
@[simp] theorem State.setEccScrub_scrCopy (s : State) (v : Tbl Nat) : (s.setEccScrub v).scrCopy = s.scrCopy := (rfl)
@[simp] theorem State.setEccScrub_releases (s : State) (v : Tbl Nat) : (s.setEccScrub v).releases = s.releases := (rfl)
@[simp] theorem State.setEccScrub_dieStep (s : State) (v : Tbl Nat) : (s.setEccScrub v).dieStep = s.dieStep := (rfl)
@[simp] theorem State.setEccScrub_clampDef (s : State) (v : Tbl Nat) : (s.setEccScrub v).clampDef = s.clampDef := (rfl)
@[simp] theorem State.setEccScrub_clamps (s : State) (v : Tbl Nat) : (s.setEccScrub v).clamps = s.clamps := (rfl)
@[simp] theorem State.setEccScrub_welds (s : State) (v : Tbl Nat) : (s.setEccScrub v).welds = s.welds := (rfl)
@[simp] theorem State.setEccScrub_lanes (s : State) (v : Tbl Nat) : (s.setEccScrub v).lanes = s.lanes := (rfl)
@[simp] theorem State.setEccScrub_macMode (s : State) (v : Tbl Nat) : (s.setEccScrub v).macMode = s.macMode := (rfl)
@[simp] theorem State.setEccScrub_tod (s : State) (v : Tbl Nat) : (s.setEccScrub v).tod = s.tod := (rfl)
@[simp] theorem State.setEccScrub_lkp (s : State) (v : Tbl Nat) : (s.setEccScrub v).lkp = s.lkp := (rfl)
@[simp] theorem State.setEccScrub_queues (s : State) (v : Tbl Nat) : (s.setEccScrub v).queues = s.queues := (rfl)
@[simp] theorem State.setEccScrub_ports (s : State) (v : Tbl Nat) : (s.setEccScrub v).ports = s.ports := (rfl)
@[simp] theorem State.setEccScrub_pkt (s : State) (v : Tbl Nat) : (s.setEccScrub v).pkt = s.pkt := (rfl)
@[simp] theorem State.setEccScrub_cxl (s : State) (v : Tbl Nat) : (s.setEccScrub v).cxl = s.cxl := (rfl)
@[simp] theorem State.setEccScrub_ddr (s : State) (v : Tbl Nat) : (s.setEccScrub v).ddr = s.ddr := (rfl)
@[simp] theorem State.setEccScrub_regions (s : State) (v : Tbl Nat) : (s.setEccScrub v).regions = s.regions := (rfl)
@[simp] theorem State.setEccScrub_prots (s : State) (v : Tbl Nat) : (s.setEccScrub v).prots = s.prots := (rfl)
@[simp] theorem State.setEccScrub_keyStore (s : State) (v : Tbl Nat) : (s.setEccScrub v).keyStore = s.keyStore := (rfl)
@[simp] theorem State.setEccScrub_rings (s : State) (v : Tbl Nat) : (s.setEccScrub v).rings = s.rings := (rfl)
@[simp] theorem State.setEccScrub_openMem (s : State) (v : Tbl Nat) : (s.setEccScrub v).openMem = s.openMem := (rfl)
@[simp] theorem State.setEccScrub_dcRights (s : State) (v : Tbl Nat) : (s.setEccScrub v).dcRights = s.dcRights := (rfl)
@[simp] theorem State.setEccScrub_clk (s : State) (v : Tbl Nat) : (s.setEccScrub v).clk = s.clk := (rfl)
@[simp] theorem State.setEccScrub_units (s : State) (v : Tbl Nat) : (s.setEccScrub v).units = s.units := (rfl)
@[simp] theorem State.setEccScrub_hearthHit (s : State) (v : Tbl Nat) : (s.setEccScrub v).hearthHit = s.hearthHit := (rfl)
@[simp] theorem State.setTags_pending (s : State) (v : Tbl TagSt) : (s.setTags v).pending = s.pending := (rfl)
@[simp] theorem State.setTags_regs (s : State) (v : Tbl TagSt) : (s.setTags v).regs = s.regs := (rfl)
@[simp] theorem State.setTags_mem (s : State) (v : Tbl TagSt) : (s.setTags v).mem = s.mem := (rfl)
@[simp] theorem State.setTags_poison (s : State) (v : Tbl TagSt) : (s.setTags v).poison = s.poison := (rfl)
@[simp] theorem State.setTags_fresh (s : State) (v : Tbl TagSt) : (s.setTags v).fresh = s.fresh := (rfl)
@[simp] theorem State.setTags_answer (s : State) (v : Tbl TagSt) : (s.setTags v).answer = s.answer := (rfl)
@[simp] theorem State.setTags_answerStatus (s : State) (v : Tbl TagSt) : (s.setTags v).answerStatus = s.answerStatus := (rfl)
@[simp] theorem State.setTags_book (s : State) (v : Tbl TagSt) : (s.setTags v).book = s.book := (rfl)
@[simp] theorem State.setTags_mgt (s : State) (v : Tbl TagSt) : (s.setTags v).mgt = s.mgt := (rfl)
@[simp] theorem State.setTags_fpFifo (s : State) (v : Tbl TagSt) : (s.setTags v).fpFifo = s.fpFifo := (rfl)
@[simp] theorem State.setTags_evtOnce (s : State) (v : Tbl TagSt) : (s.setTags v).evtOnce = s.evtOnce := (rfl)
@[simp] theorem State.setTags_cycles (s : State) (v : Tbl TagSt) : (s.setTags v).cycles = s.cycles := (rfl)
@[simp] theorem State.setTags_pcie (s : State) (v : Tbl TagSt) : (s.setTags v).pcie = s.pcie := (rfl)
@[simp] theorem State.setTags_sent (s : State) (v : Tbl TagSt) : (s.setTags v).sent = s.sent := (rfl)
@[simp] theorem State.setTags_bw (s : State) (v : Tbl TagSt) : (s.setTags v).bw = s.bw := (rfl)
@[simp] theorem State.setTags_pmcLatch (s : State) (v : Tbl TagSt) : (s.setTags v).pmcLatch = s.pmcLatch := (rfl)
@[simp] theorem State.setTags_cal (s : State) (v : Tbl TagSt) : (s.setTags v).cal = s.cal := (rfl)
@[simp] theorem State.setTags_cfg (s : State) (v : Tbl TagSt) : (s.setTags v).cfg = s.cfg := (rfl)
@[simp] theorem State.setTags_tap (s : State) (v : Tbl TagSt) : (s.setTags v).tap = s.tap := (rfl)
@[simp] theorem State.setTags_pins (s : State) (v : Tbl TagSt) : (s.setTags v).pins = s.pins := (rfl)
@[simp] theorem State.setTags_frames (s : State) (v : Tbl TagSt) : (s.setTags v).frames = s.frames := (rfl)
@[simp] theorem State.setTags_clusters (s : State) (v : Tbl TagSt) : (s.setTags v).clusters = s.clusters := (rfl)
@[simp] theorem State.setTags_ffs (s : State) (v : Tbl TagSt) : (s.setTags v).ffs = s.ffs := (rfl)
@[simp] theorem State.setTags_relStage (s : State) (v : Tbl TagSt) : (s.setTags v).relStage = s.relStage := (rfl)
@[simp] theorem State.setTags_frozen (s : State) (v : Tbl TagSt) : (s.setTags v).frozen = s.frozen := (rfl)
@[simp] theorem State.setTags_bramCfg (s : State) (v : Tbl TagSt) : (s.setTags v).bramCfg = s.bramCfg := (rfl)
@[simp] theorem State.setTags_bram (s : State) (v : Tbl TagSt) : (s.setTags v).bram = s.bram := (rfl)
@[simp] theorem State.setTags_bramPorts (s : State) (v : Tbl TagSt) : (s.setTags v).bramPorts = s.bramPorts := (rfl)
@[simp] theorem State.setTags_multCfg (s : State) (v : Tbl TagSt) : (s.setTags v).multCfg = s.multCfg := (rfl)
@[simp] theorem State.setTags_mults (s : State) (v : Tbl TagSt) : (s.setTags v).mults = s.mults := (rfl)
@[simp] theorem State.setTags_railKeep (s : State) (v : Tbl TagSt) : (s.setTags v).railKeep = s.railKeep := (rfl)
@[simp] theorem State.setTags_chk (s : State) (v : Tbl TagSt) : (s.setTags v).chk = s.chk := (rfl)
@[simp] theorem State.setTags_eccRaw (s : State) (v : Tbl TagSt) : (s.setTags v).eccRaw = s.eccRaw := (rfl)
@[simp] theorem State.setTags_eccScrub (s : State) (v : Tbl TagSt) : (s.setTags v).eccScrub = s.eccScrub := (rfl)
@[simp] theorem State.setTags_tags (s : State) (v : Tbl TagSt) : (s.setTags v).tags = v := (rfl)
@[simp] theorem State.setTags_xUsed (s : State) (v : Tbl TagSt) : (s.setTags v).xUsed = s.xUsed := (rfl)
@[simp] theorem State.setTags_xWait (s : State) (v : Tbl TagSt) : (s.setTags v).xWait = s.xWait := (rfl)
@[simp] theorem State.setTags_xHeld (s : State) (v : Tbl TagSt) : (s.setTags v).xHeld = s.xHeld := (rfl)
@[simp] theorem State.setTags_routers (s : State) (v : Tbl TagSt) : (s.setTags v).routers = s.routers := (rfl)
@[simp] theorem State.setTags_portMode (s : State) (v : Tbl TagSt) : (s.setTags v).portMode = s.portMode := (rfl)
@[simp] theorem State.setTags_portTags (s : State) (v : Tbl TagSt) : (s.setTags v).portTags = s.portTags := (rfl)
@[simp] theorem State.setTags_portFifo (s : State) (v : Tbl TagSt) : (s.setTags v).portFifo = s.portFifo := (rfl)
@[simp] theorem State.setTags_dcache (s : State) (v : Tbl TagSt) : (s.setTags v).dcache = s.dcache := (rfl)
@[simp] theorem State.setTags_dir (s : State) (v : Tbl TagSt) : (s.setTags v).dir = s.dir := (rfl)
@[simp] theorem State.setTags_dieResets (s : State) (v : Tbl TagSt) : (s.setTags v).dieResets = s.dieResets := (rfl)
@[simp] theorem State.setTags_homeTxn (s : State) (v : Tbl TagSt) : (s.setTags v).homeTxn = s.homeTxn := (rfl)
@[simp] theorem State.setTags_cores (s : State) (v : Tbl TagSt) : (s.setTags v).cores = s.cores := (rfl)
@[simp] theorem State.setTags_tngDone (s : State) (v : Tbl TagSt) : (s.setTags v).tngDone = s.tngDone := (rfl)
@[simp] theorem State.setTags_fab (s : State) (v : Tbl TagSt) : (s.setTags v).fab = s.fab := (rfl)
@[simp] theorem State.setTags_net (s : State) (v : Tbl TagSt) : (s.setTags v).net = s.net := (rfl)
@[simp] theorem State.setTags_rtrShare (s : State) (v : Tbl TagSt) : (s.setTags v).rtrShare = s.rtrShare := (rfl)
@[simp] theorem State.setTags_dbg (s : State) (v : Tbl TagSt) : (s.setTags v).dbg = s.dbg := (rfl)
@[simp] theorem State.setTags_dcWait (s : State) (v : Tbl TagSt) : (s.setTags v).dcWait = s.dcWait := (rfl)
@[simp] theorem State.setTags_prcStep (s : State) (v : Tbl TagSt) : (s.setTags v).prcStep = s.prcStep := (rfl)
@[simp] theorem State.setTags_prcBlank (s : State) (v : Tbl TagSt) : (s.setTags v).prcBlank = s.prcBlank := (rfl)
@[simp] theorem State.setTags_prcHold (s : State) (v : Tbl TagSt) : (s.setTags v).prcHold = s.prcHold := (rfl)
@[simp] theorem State.setTags_capWait (s : State) (v : Tbl TagSt) : (s.setTags v).capWait = s.capWait := (rfl)
@[simp] theorem State.setTags_capture (s : State) (v : Tbl TagSt) : (s.setTags v).capture = s.capture := (rfl)
@[simp] theorem State.setTags_bramDef (s : State) (v : Tbl TagSt) : (s.setTags v).bramDef = s.bramDef := (rfl)
@[simp] theorem State.setTags_scrubs (s : State) (v : Tbl TagSt) : (s.setTags v).scrubs = s.scrubs := (rfl)
@[simp] theorem State.setTags_scrCopy (s : State) (v : Tbl TagSt) : (s.setTags v).scrCopy = s.scrCopy := (rfl)
@[simp] theorem State.setTags_releases (s : State) (v : Tbl TagSt) : (s.setTags v).releases = s.releases := (rfl)
@[simp] theorem State.setTags_dieStep (s : State) (v : Tbl TagSt) : (s.setTags v).dieStep = s.dieStep := (rfl)
@[simp] theorem State.setTags_clampDef (s : State) (v : Tbl TagSt) : (s.setTags v).clampDef = s.clampDef := (rfl)
@[simp] theorem State.setTags_clamps (s : State) (v : Tbl TagSt) : (s.setTags v).clamps = s.clamps := (rfl)
@[simp] theorem State.setTags_welds (s : State) (v : Tbl TagSt) : (s.setTags v).welds = s.welds := (rfl)
@[simp] theorem State.setTags_lanes (s : State) (v : Tbl TagSt) : (s.setTags v).lanes = s.lanes := (rfl)
@[simp] theorem State.setTags_macMode (s : State) (v : Tbl TagSt) : (s.setTags v).macMode = s.macMode := (rfl)
@[simp] theorem State.setTags_tod (s : State) (v : Tbl TagSt) : (s.setTags v).tod = s.tod := (rfl)
@[simp] theorem State.setTags_lkp (s : State) (v : Tbl TagSt) : (s.setTags v).lkp = s.lkp := (rfl)
@[simp] theorem State.setTags_queues (s : State) (v : Tbl TagSt) : (s.setTags v).queues = s.queues := (rfl)
@[simp] theorem State.setTags_ports (s : State) (v : Tbl TagSt) : (s.setTags v).ports = s.ports := (rfl)
@[simp] theorem State.setTags_pkt (s : State) (v : Tbl TagSt) : (s.setTags v).pkt = s.pkt := (rfl)
@[simp] theorem State.setTags_cxl (s : State) (v : Tbl TagSt) : (s.setTags v).cxl = s.cxl := (rfl)
@[simp] theorem State.setTags_ddr (s : State) (v : Tbl TagSt) : (s.setTags v).ddr = s.ddr := (rfl)
@[simp] theorem State.setTags_regions (s : State) (v : Tbl TagSt) : (s.setTags v).regions = s.regions := (rfl)
@[simp] theorem State.setTags_prots (s : State) (v : Tbl TagSt) : (s.setTags v).prots = s.prots := (rfl)
@[simp] theorem State.setTags_keyStore (s : State) (v : Tbl TagSt) : (s.setTags v).keyStore = s.keyStore := (rfl)
@[simp] theorem State.setTags_rings (s : State) (v : Tbl TagSt) : (s.setTags v).rings = s.rings := (rfl)
@[simp] theorem State.setTags_openMem (s : State) (v : Tbl TagSt) : (s.setTags v).openMem = s.openMem := (rfl)
@[simp] theorem State.setTags_dcRights (s : State) (v : Tbl TagSt) : (s.setTags v).dcRights = s.dcRights := (rfl)
@[simp] theorem State.setTags_clk (s : State) (v : Tbl TagSt) : (s.setTags v).clk = s.clk := (rfl)
@[simp] theorem State.setTags_units (s : State) (v : Tbl TagSt) : (s.setTags v).units = s.units := (rfl)
@[simp] theorem State.setTags_hearthHit (s : State) (v : Tbl TagSt) : (s.setTags v).hearthHit = s.hearthHit := (rfl)
@[simp] theorem State.setXUsed_pending (s : State) (v : Tbl (Nat × Nat × Nat)) : (s.setXUsed v).pending = s.pending := (rfl)
@[simp] theorem State.setXUsed_regs (s : State) (v : Tbl (Nat × Nat × Nat)) : (s.setXUsed v).regs = s.regs := (rfl)
@[simp] theorem State.setXUsed_mem (s : State) (v : Tbl (Nat × Nat × Nat)) : (s.setXUsed v).mem = s.mem := (rfl)
@[simp] theorem State.setXUsed_poison (s : State) (v : Tbl (Nat × Nat × Nat)) : (s.setXUsed v).poison = s.poison := (rfl)
@[simp] theorem State.setXUsed_fresh (s : State) (v : Tbl (Nat × Nat × Nat)) : (s.setXUsed v).fresh = s.fresh := (rfl)
@[simp] theorem State.setXUsed_answer (s : State) (v : Tbl (Nat × Nat × Nat)) : (s.setXUsed v).answer = s.answer := (rfl)
@[simp] theorem State.setXUsed_answerStatus (s : State) (v : Tbl (Nat × Nat × Nat)) : (s.setXUsed v).answerStatus = s.answerStatus := (rfl)
@[simp] theorem State.setXUsed_book (s : State) (v : Tbl (Nat × Nat × Nat)) : (s.setXUsed v).book = s.book := (rfl)
@[simp] theorem State.setXUsed_mgt (s : State) (v : Tbl (Nat × Nat × Nat)) : (s.setXUsed v).mgt = s.mgt := (rfl)
@[simp] theorem State.setXUsed_fpFifo (s : State) (v : Tbl (Nat × Nat × Nat)) : (s.setXUsed v).fpFifo = s.fpFifo := (rfl)
@[simp] theorem State.setXUsed_evtOnce (s : State) (v : Tbl (Nat × Nat × Nat)) : (s.setXUsed v).evtOnce = s.evtOnce := (rfl)
@[simp] theorem State.setXUsed_cycles (s : State) (v : Tbl (Nat × Nat × Nat)) : (s.setXUsed v).cycles = s.cycles := (rfl)
@[simp] theorem State.setXUsed_pcie (s : State) (v : Tbl (Nat × Nat × Nat)) : (s.setXUsed v).pcie = s.pcie := (rfl)
@[simp] theorem State.setXUsed_sent (s : State) (v : Tbl (Nat × Nat × Nat)) : (s.setXUsed v).sent = s.sent := (rfl)
@[simp] theorem State.setXUsed_bw (s : State) (v : Tbl (Nat × Nat × Nat)) : (s.setXUsed v).bw = s.bw := (rfl)
@[simp] theorem State.setXUsed_pmcLatch (s : State) (v : Tbl (Nat × Nat × Nat)) : (s.setXUsed v).pmcLatch = s.pmcLatch := (rfl)
@[simp] theorem State.setXUsed_cal (s : State) (v : Tbl (Nat × Nat × Nat)) : (s.setXUsed v).cal = s.cal := (rfl)
@[simp] theorem State.setXUsed_cfg (s : State) (v : Tbl (Nat × Nat × Nat)) : (s.setXUsed v).cfg = s.cfg := (rfl)
@[simp] theorem State.setXUsed_tap (s : State) (v : Tbl (Nat × Nat × Nat)) : (s.setXUsed v).tap = s.tap := (rfl)
@[simp] theorem State.setXUsed_pins (s : State) (v : Tbl (Nat × Nat × Nat)) : (s.setXUsed v).pins = s.pins := (rfl)
@[simp] theorem State.setXUsed_frames (s : State) (v : Tbl (Nat × Nat × Nat)) : (s.setXUsed v).frames = s.frames := (rfl)
@[simp] theorem State.setXUsed_clusters (s : State) (v : Tbl (Nat × Nat × Nat)) : (s.setXUsed v).clusters = s.clusters := (rfl)
@[simp] theorem State.setXUsed_ffs (s : State) (v : Tbl (Nat × Nat × Nat)) : (s.setXUsed v).ffs = s.ffs := (rfl)
@[simp] theorem State.setXUsed_relStage (s : State) (v : Tbl (Nat × Nat × Nat)) : (s.setXUsed v).relStage = s.relStage := (rfl)
@[simp] theorem State.setXUsed_frozen (s : State) (v : Tbl (Nat × Nat × Nat)) : (s.setXUsed v).frozen = s.frozen := (rfl)
@[simp] theorem State.setXUsed_bramCfg (s : State) (v : Tbl (Nat × Nat × Nat)) : (s.setXUsed v).bramCfg = s.bramCfg := (rfl)
@[simp] theorem State.setXUsed_bram (s : State) (v : Tbl (Nat × Nat × Nat)) : (s.setXUsed v).bram = s.bram := (rfl)
@[simp] theorem State.setXUsed_bramPorts (s : State) (v : Tbl (Nat × Nat × Nat)) : (s.setXUsed v).bramPorts = s.bramPorts := (rfl)
@[simp] theorem State.setXUsed_multCfg (s : State) (v : Tbl (Nat × Nat × Nat)) : (s.setXUsed v).multCfg = s.multCfg := (rfl)
@[simp] theorem State.setXUsed_mults (s : State) (v : Tbl (Nat × Nat × Nat)) : (s.setXUsed v).mults = s.mults := (rfl)
@[simp] theorem State.setXUsed_railKeep (s : State) (v : Tbl (Nat × Nat × Nat)) : (s.setXUsed v).railKeep = s.railKeep := (rfl)
@[simp] theorem State.setXUsed_chk (s : State) (v : Tbl (Nat × Nat × Nat)) : (s.setXUsed v).chk = s.chk := (rfl)
@[simp] theorem State.setXUsed_eccRaw (s : State) (v : Tbl (Nat × Nat × Nat)) : (s.setXUsed v).eccRaw = s.eccRaw := (rfl)
@[simp] theorem State.setXUsed_eccScrub (s : State) (v : Tbl (Nat × Nat × Nat)) : (s.setXUsed v).eccScrub = s.eccScrub := (rfl)
@[simp] theorem State.setXUsed_tags (s : State) (v : Tbl (Nat × Nat × Nat)) : (s.setXUsed v).tags = s.tags := (rfl)
@[simp] theorem State.setXUsed_xUsed (s : State) (v : Tbl (Nat × Nat × Nat)) : (s.setXUsed v).xUsed = v := (rfl)
@[simp] theorem State.setXUsed_xWait (s : State) (v : Tbl (Nat × Nat × Nat)) : (s.setXUsed v).xWait = s.xWait := (rfl)
@[simp] theorem State.setXUsed_xHeld (s : State) (v : Tbl (Nat × Nat × Nat)) : (s.setXUsed v).xHeld = s.xHeld := (rfl)
@[simp] theorem State.setXUsed_routers (s : State) (v : Tbl (Nat × Nat × Nat)) : (s.setXUsed v).routers = s.routers := (rfl)
@[simp] theorem State.setXUsed_portMode (s : State) (v : Tbl (Nat × Nat × Nat)) : (s.setXUsed v).portMode = s.portMode := (rfl)
@[simp] theorem State.setXUsed_portTags (s : State) (v : Tbl (Nat × Nat × Nat)) : (s.setXUsed v).portTags = s.portTags := (rfl)
@[simp] theorem State.setXUsed_portFifo (s : State) (v : Tbl (Nat × Nat × Nat)) : (s.setXUsed v).portFifo = s.portFifo := (rfl)
@[simp] theorem State.setXUsed_dcache (s : State) (v : Tbl (Nat × Nat × Nat)) : (s.setXUsed v).dcache = s.dcache := (rfl)
@[simp] theorem State.setXUsed_dir (s : State) (v : Tbl (Nat × Nat × Nat)) : (s.setXUsed v).dir = s.dir := (rfl)
@[simp] theorem State.setXUsed_dieResets (s : State) (v : Tbl (Nat × Nat × Nat)) : (s.setXUsed v).dieResets = s.dieResets := (rfl)
@[simp] theorem State.setXUsed_homeTxn (s : State) (v : Tbl (Nat × Nat × Nat)) : (s.setXUsed v).homeTxn = s.homeTxn := (rfl)
@[simp] theorem State.setXUsed_cores (s : State) (v : Tbl (Nat × Nat × Nat)) : (s.setXUsed v).cores = s.cores := (rfl)
@[simp] theorem State.setXUsed_tngDone (s : State) (v : Tbl (Nat × Nat × Nat)) : (s.setXUsed v).tngDone = s.tngDone := (rfl)
@[simp] theorem State.setXUsed_fab (s : State) (v : Tbl (Nat × Nat × Nat)) : (s.setXUsed v).fab = s.fab := (rfl)
@[simp] theorem State.setXUsed_net (s : State) (v : Tbl (Nat × Nat × Nat)) : (s.setXUsed v).net = s.net := (rfl)
@[simp] theorem State.setXUsed_rtrShare (s : State) (v : Tbl (Nat × Nat × Nat)) : (s.setXUsed v).rtrShare = s.rtrShare := (rfl)
@[simp] theorem State.setXUsed_dbg (s : State) (v : Tbl (Nat × Nat × Nat)) : (s.setXUsed v).dbg = s.dbg := (rfl)
@[simp] theorem State.setXUsed_dcWait (s : State) (v : Tbl (Nat × Nat × Nat)) : (s.setXUsed v).dcWait = s.dcWait := (rfl)
@[simp] theorem State.setXUsed_prcStep (s : State) (v : Tbl (Nat × Nat × Nat)) : (s.setXUsed v).prcStep = s.prcStep := (rfl)
@[simp] theorem State.setXUsed_prcBlank (s : State) (v : Tbl (Nat × Nat × Nat)) : (s.setXUsed v).prcBlank = s.prcBlank := (rfl)
@[simp] theorem State.setXUsed_prcHold (s : State) (v : Tbl (Nat × Nat × Nat)) : (s.setXUsed v).prcHold = s.prcHold := (rfl)
@[simp] theorem State.setXUsed_capWait (s : State) (v : Tbl (Nat × Nat × Nat)) : (s.setXUsed v).capWait = s.capWait := (rfl)
@[simp] theorem State.setXUsed_capture (s : State) (v : Tbl (Nat × Nat × Nat)) : (s.setXUsed v).capture = s.capture := (rfl)
@[simp] theorem State.setXUsed_bramDef (s : State) (v : Tbl (Nat × Nat × Nat)) : (s.setXUsed v).bramDef = s.bramDef := (rfl)
@[simp] theorem State.setXUsed_scrubs (s : State) (v : Tbl (Nat × Nat × Nat)) : (s.setXUsed v).scrubs = s.scrubs := (rfl)
@[simp] theorem State.setXUsed_scrCopy (s : State) (v : Tbl (Nat × Nat × Nat)) : (s.setXUsed v).scrCopy = s.scrCopy := (rfl)
@[simp] theorem State.setXUsed_releases (s : State) (v : Tbl (Nat × Nat × Nat)) : (s.setXUsed v).releases = s.releases := (rfl)
@[simp] theorem State.setXUsed_dieStep (s : State) (v : Tbl (Nat × Nat × Nat)) : (s.setXUsed v).dieStep = s.dieStep := (rfl)
@[simp] theorem State.setXUsed_clampDef (s : State) (v : Tbl (Nat × Nat × Nat)) : (s.setXUsed v).clampDef = s.clampDef := (rfl)
@[simp] theorem State.setXUsed_clamps (s : State) (v : Tbl (Nat × Nat × Nat)) : (s.setXUsed v).clamps = s.clamps := (rfl)
@[simp] theorem State.setXUsed_welds (s : State) (v : Tbl (Nat × Nat × Nat)) : (s.setXUsed v).welds = s.welds := (rfl)
@[simp] theorem State.setXUsed_lanes (s : State) (v : Tbl (Nat × Nat × Nat)) : (s.setXUsed v).lanes = s.lanes := (rfl)
@[simp] theorem State.setXUsed_macMode (s : State) (v : Tbl (Nat × Nat × Nat)) : (s.setXUsed v).macMode = s.macMode := (rfl)
@[simp] theorem State.setXUsed_tod (s : State) (v : Tbl (Nat × Nat × Nat)) : (s.setXUsed v).tod = s.tod := (rfl)
@[simp] theorem State.setXUsed_lkp (s : State) (v : Tbl (Nat × Nat × Nat)) : (s.setXUsed v).lkp = s.lkp := (rfl)
@[simp] theorem State.setXUsed_queues (s : State) (v : Tbl (Nat × Nat × Nat)) : (s.setXUsed v).queues = s.queues := (rfl)
@[simp] theorem State.setXUsed_ports (s : State) (v : Tbl (Nat × Nat × Nat)) : (s.setXUsed v).ports = s.ports := (rfl)
@[simp] theorem State.setXUsed_pkt (s : State) (v : Tbl (Nat × Nat × Nat)) : (s.setXUsed v).pkt = s.pkt := (rfl)
@[simp] theorem State.setXUsed_cxl (s : State) (v : Tbl (Nat × Nat × Nat)) : (s.setXUsed v).cxl = s.cxl := (rfl)
@[simp] theorem State.setXUsed_ddr (s : State) (v : Tbl (Nat × Nat × Nat)) : (s.setXUsed v).ddr = s.ddr := (rfl)
@[simp] theorem State.setXUsed_regions (s : State) (v : Tbl (Nat × Nat × Nat)) : (s.setXUsed v).regions = s.regions := (rfl)
@[simp] theorem State.setXUsed_prots (s : State) (v : Tbl (Nat × Nat × Nat)) : (s.setXUsed v).prots = s.prots := (rfl)
@[simp] theorem State.setXUsed_keyStore (s : State) (v : Tbl (Nat × Nat × Nat)) : (s.setXUsed v).keyStore = s.keyStore := (rfl)
@[simp] theorem State.setXUsed_rings (s : State) (v : Tbl (Nat × Nat × Nat)) : (s.setXUsed v).rings = s.rings := (rfl)
@[simp] theorem State.setXUsed_openMem (s : State) (v : Tbl (Nat × Nat × Nat)) : (s.setXUsed v).openMem = s.openMem := (rfl)
@[simp] theorem State.setXUsed_dcRights (s : State) (v : Tbl (Nat × Nat × Nat)) : (s.setXUsed v).dcRights = s.dcRights := (rfl)
@[simp] theorem State.setXUsed_clk (s : State) (v : Tbl (Nat × Nat × Nat)) : (s.setXUsed v).clk = s.clk := (rfl)
@[simp] theorem State.setXUsed_units (s : State) (v : Tbl (Nat × Nat × Nat)) : (s.setXUsed v).units = s.units := (rfl)
@[simp] theorem State.setXUsed_hearthHit (s : State) (v : Tbl (Nat × Nat × Nat)) : (s.setXUsed v).hearthHit = s.hearthHit := (rfl)
@[simp] theorem State.setXWait_pending (s : State) (v : Tbl (List (NocReq × Owner))) : (s.setXWait v).pending = s.pending := (rfl)
@[simp] theorem State.setXWait_regs (s : State) (v : Tbl (List (NocReq × Owner))) : (s.setXWait v).regs = s.regs := (rfl)
@[simp] theorem State.setXWait_mem (s : State) (v : Tbl (List (NocReq × Owner))) : (s.setXWait v).mem = s.mem := (rfl)
@[simp] theorem State.setXWait_poison (s : State) (v : Tbl (List (NocReq × Owner))) : (s.setXWait v).poison = s.poison := (rfl)
@[simp] theorem State.setXWait_fresh (s : State) (v : Tbl (List (NocReq × Owner))) : (s.setXWait v).fresh = s.fresh := (rfl)
@[simp] theorem State.setXWait_answer (s : State) (v : Tbl (List (NocReq × Owner))) : (s.setXWait v).answer = s.answer := (rfl)
@[simp] theorem State.setXWait_answerStatus (s : State) (v : Tbl (List (NocReq × Owner))) : (s.setXWait v).answerStatus = s.answerStatus := (rfl)
@[simp] theorem State.setXWait_book (s : State) (v : Tbl (List (NocReq × Owner))) : (s.setXWait v).book = s.book := (rfl)
@[simp] theorem State.setXWait_mgt (s : State) (v : Tbl (List (NocReq × Owner))) : (s.setXWait v).mgt = s.mgt := (rfl)
@[simp] theorem State.setXWait_fpFifo (s : State) (v : Tbl (List (NocReq × Owner))) : (s.setXWait v).fpFifo = s.fpFifo := (rfl)
@[simp] theorem State.setXWait_evtOnce (s : State) (v : Tbl (List (NocReq × Owner))) : (s.setXWait v).evtOnce = s.evtOnce := (rfl)
@[simp] theorem State.setXWait_cycles (s : State) (v : Tbl (List (NocReq × Owner))) : (s.setXWait v).cycles = s.cycles := (rfl)
@[simp] theorem State.setXWait_pcie (s : State) (v : Tbl (List (NocReq × Owner))) : (s.setXWait v).pcie = s.pcie := (rfl)
@[simp] theorem State.setXWait_sent (s : State) (v : Tbl (List (NocReq × Owner))) : (s.setXWait v).sent = s.sent := (rfl)
@[simp] theorem State.setXWait_bw (s : State) (v : Tbl (List (NocReq × Owner))) : (s.setXWait v).bw = s.bw := (rfl)
@[simp] theorem State.setXWait_pmcLatch (s : State) (v : Tbl (List (NocReq × Owner))) : (s.setXWait v).pmcLatch = s.pmcLatch := (rfl)
@[simp] theorem State.setXWait_cal (s : State) (v : Tbl (List (NocReq × Owner))) : (s.setXWait v).cal = s.cal := (rfl)
@[simp] theorem State.setXWait_cfg (s : State) (v : Tbl (List (NocReq × Owner))) : (s.setXWait v).cfg = s.cfg := (rfl)
@[simp] theorem State.setXWait_tap (s : State) (v : Tbl (List (NocReq × Owner))) : (s.setXWait v).tap = s.tap := (rfl)
@[simp] theorem State.setXWait_pins (s : State) (v : Tbl (List (NocReq × Owner))) : (s.setXWait v).pins = s.pins := (rfl)
@[simp] theorem State.setXWait_frames (s : State) (v : Tbl (List (NocReq × Owner))) : (s.setXWait v).frames = s.frames := (rfl)
@[simp] theorem State.setXWait_clusters (s : State) (v : Tbl (List (NocReq × Owner))) : (s.setXWait v).clusters = s.clusters := (rfl)
@[simp] theorem State.setXWait_ffs (s : State) (v : Tbl (List (NocReq × Owner))) : (s.setXWait v).ffs = s.ffs := (rfl)
@[simp] theorem State.setXWait_relStage (s : State) (v : Tbl (List (NocReq × Owner))) : (s.setXWait v).relStage = s.relStage := (rfl)
@[simp] theorem State.setXWait_frozen (s : State) (v : Tbl (List (NocReq × Owner))) : (s.setXWait v).frozen = s.frozen := (rfl)
@[simp] theorem State.setXWait_bramCfg (s : State) (v : Tbl (List (NocReq × Owner))) : (s.setXWait v).bramCfg = s.bramCfg := (rfl)
@[simp] theorem State.setXWait_bram (s : State) (v : Tbl (List (NocReq × Owner))) : (s.setXWait v).bram = s.bram := (rfl)
@[simp] theorem State.setXWait_bramPorts (s : State) (v : Tbl (List (NocReq × Owner))) : (s.setXWait v).bramPorts = s.bramPorts := (rfl)
@[simp] theorem State.setXWait_multCfg (s : State) (v : Tbl (List (NocReq × Owner))) : (s.setXWait v).multCfg = s.multCfg := (rfl)
@[simp] theorem State.setXWait_mults (s : State) (v : Tbl (List (NocReq × Owner))) : (s.setXWait v).mults = s.mults := (rfl)
@[simp] theorem State.setXWait_railKeep (s : State) (v : Tbl (List (NocReq × Owner))) : (s.setXWait v).railKeep = s.railKeep := (rfl)
@[simp] theorem State.setXWait_chk (s : State) (v : Tbl (List (NocReq × Owner))) : (s.setXWait v).chk = s.chk := (rfl)
@[simp] theorem State.setXWait_eccRaw (s : State) (v : Tbl (List (NocReq × Owner))) : (s.setXWait v).eccRaw = s.eccRaw := (rfl)
@[simp] theorem State.setXWait_eccScrub (s : State) (v : Tbl (List (NocReq × Owner))) : (s.setXWait v).eccScrub = s.eccScrub := (rfl)
@[simp] theorem State.setXWait_tags (s : State) (v : Tbl (List (NocReq × Owner))) : (s.setXWait v).tags = s.tags := (rfl)
@[simp] theorem State.setXWait_xUsed (s : State) (v : Tbl (List (NocReq × Owner))) : (s.setXWait v).xUsed = s.xUsed := (rfl)
@[simp] theorem State.setXWait_xWait (s : State) (v : Tbl (List (NocReq × Owner))) : (s.setXWait v).xWait = v := (rfl)
@[simp] theorem State.setXWait_xHeld (s : State) (v : Tbl (List (NocReq × Owner))) : (s.setXWait v).xHeld = s.xHeld := (rfl)
@[simp] theorem State.setXWait_routers (s : State) (v : Tbl (List (NocReq × Owner))) : (s.setXWait v).routers = s.routers := (rfl)
@[simp] theorem State.setXWait_portMode (s : State) (v : Tbl (List (NocReq × Owner))) : (s.setXWait v).portMode = s.portMode := (rfl)
@[simp] theorem State.setXWait_portTags (s : State) (v : Tbl (List (NocReq × Owner))) : (s.setXWait v).portTags = s.portTags := (rfl)
@[simp] theorem State.setXWait_portFifo (s : State) (v : Tbl (List (NocReq × Owner))) : (s.setXWait v).portFifo = s.portFifo := (rfl)
@[simp] theorem State.setXWait_dcache (s : State) (v : Tbl (List (NocReq × Owner))) : (s.setXWait v).dcache = s.dcache := (rfl)
@[simp] theorem State.setXWait_dir (s : State) (v : Tbl (List (NocReq × Owner))) : (s.setXWait v).dir = s.dir := (rfl)
@[simp] theorem State.setXWait_dieResets (s : State) (v : Tbl (List (NocReq × Owner))) : (s.setXWait v).dieResets = s.dieResets := (rfl)
@[simp] theorem State.setXWait_homeTxn (s : State) (v : Tbl (List (NocReq × Owner))) : (s.setXWait v).homeTxn = s.homeTxn := (rfl)
@[simp] theorem State.setXWait_cores (s : State) (v : Tbl (List (NocReq × Owner))) : (s.setXWait v).cores = s.cores := (rfl)
@[simp] theorem State.setXWait_tngDone (s : State) (v : Tbl (List (NocReq × Owner))) : (s.setXWait v).tngDone = s.tngDone := (rfl)
@[simp] theorem State.setXWait_fab (s : State) (v : Tbl (List (NocReq × Owner))) : (s.setXWait v).fab = s.fab := (rfl)
@[simp] theorem State.setXWait_net (s : State) (v : Tbl (List (NocReq × Owner))) : (s.setXWait v).net = s.net := (rfl)
@[simp] theorem State.setXWait_rtrShare (s : State) (v : Tbl (List (NocReq × Owner))) : (s.setXWait v).rtrShare = s.rtrShare := (rfl)
@[simp] theorem State.setXWait_dbg (s : State) (v : Tbl (List (NocReq × Owner))) : (s.setXWait v).dbg = s.dbg := (rfl)
@[simp] theorem State.setXWait_dcWait (s : State) (v : Tbl (List (NocReq × Owner))) : (s.setXWait v).dcWait = s.dcWait := (rfl)
@[simp] theorem State.setXWait_prcStep (s : State) (v : Tbl (List (NocReq × Owner))) : (s.setXWait v).prcStep = s.prcStep := (rfl)
@[simp] theorem State.setXWait_prcBlank (s : State) (v : Tbl (List (NocReq × Owner))) : (s.setXWait v).prcBlank = s.prcBlank := (rfl)
@[simp] theorem State.setXWait_prcHold (s : State) (v : Tbl (List (NocReq × Owner))) : (s.setXWait v).prcHold = s.prcHold := (rfl)
@[simp] theorem State.setXWait_capWait (s : State) (v : Tbl (List (NocReq × Owner))) : (s.setXWait v).capWait = s.capWait := (rfl)
@[simp] theorem State.setXWait_capture (s : State) (v : Tbl (List (NocReq × Owner))) : (s.setXWait v).capture = s.capture := (rfl)
@[simp] theorem State.setXWait_bramDef (s : State) (v : Tbl (List (NocReq × Owner))) : (s.setXWait v).bramDef = s.bramDef := (rfl)
@[simp] theorem State.setXWait_scrubs (s : State) (v : Tbl (List (NocReq × Owner))) : (s.setXWait v).scrubs = s.scrubs := (rfl)
@[simp] theorem State.setXWait_scrCopy (s : State) (v : Tbl (List (NocReq × Owner))) : (s.setXWait v).scrCopy = s.scrCopy := (rfl)
@[simp] theorem State.setXWait_releases (s : State) (v : Tbl (List (NocReq × Owner))) : (s.setXWait v).releases = s.releases := (rfl)
@[simp] theorem State.setXWait_dieStep (s : State) (v : Tbl (List (NocReq × Owner))) : (s.setXWait v).dieStep = s.dieStep := (rfl)
@[simp] theorem State.setXWait_clampDef (s : State) (v : Tbl (List (NocReq × Owner))) : (s.setXWait v).clampDef = s.clampDef := (rfl)
@[simp] theorem State.setXWait_clamps (s : State) (v : Tbl (List (NocReq × Owner))) : (s.setXWait v).clamps = s.clamps := (rfl)
@[simp] theorem State.setXWait_welds (s : State) (v : Tbl (List (NocReq × Owner))) : (s.setXWait v).welds = s.welds := (rfl)
@[simp] theorem State.setXWait_lanes (s : State) (v : Tbl (List (NocReq × Owner))) : (s.setXWait v).lanes = s.lanes := (rfl)
@[simp] theorem State.setXWait_macMode (s : State) (v : Tbl (List (NocReq × Owner))) : (s.setXWait v).macMode = s.macMode := (rfl)
@[simp] theorem State.setXWait_tod (s : State) (v : Tbl (List (NocReq × Owner))) : (s.setXWait v).tod = s.tod := (rfl)
@[simp] theorem State.setXWait_lkp (s : State) (v : Tbl (List (NocReq × Owner))) : (s.setXWait v).lkp = s.lkp := (rfl)
@[simp] theorem State.setXWait_queues (s : State) (v : Tbl (List (NocReq × Owner))) : (s.setXWait v).queues = s.queues := (rfl)
@[simp] theorem State.setXWait_ports (s : State) (v : Tbl (List (NocReq × Owner))) : (s.setXWait v).ports = s.ports := (rfl)
@[simp] theorem State.setXWait_pkt (s : State) (v : Tbl (List (NocReq × Owner))) : (s.setXWait v).pkt = s.pkt := (rfl)
@[simp] theorem State.setXWait_cxl (s : State) (v : Tbl (List (NocReq × Owner))) : (s.setXWait v).cxl = s.cxl := (rfl)
@[simp] theorem State.setXWait_ddr (s : State) (v : Tbl (List (NocReq × Owner))) : (s.setXWait v).ddr = s.ddr := (rfl)
@[simp] theorem State.setXWait_regions (s : State) (v : Tbl (List (NocReq × Owner))) : (s.setXWait v).regions = s.regions := (rfl)
@[simp] theorem State.setXWait_prots (s : State) (v : Tbl (List (NocReq × Owner))) : (s.setXWait v).prots = s.prots := (rfl)
@[simp] theorem State.setXWait_keyStore (s : State) (v : Tbl (List (NocReq × Owner))) : (s.setXWait v).keyStore = s.keyStore := (rfl)
@[simp] theorem State.setXWait_rings (s : State) (v : Tbl (List (NocReq × Owner))) : (s.setXWait v).rings = s.rings := (rfl)
@[simp] theorem State.setXWait_openMem (s : State) (v : Tbl (List (NocReq × Owner))) : (s.setXWait v).openMem = s.openMem := (rfl)
@[simp] theorem State.setXWait_dcRights (s : State) (v : Tbl (List (NocReq × Owner))) : (s.setXWait v).dcRights = s.dcRights := (rfl)
@[simp] theorem State.setXWait_clk (s : State) (v : Tbl (List (NocReq × Owner))) : (s.setXWait v).clk = s.clk := (rfl)
@[simp] theorem State.setXWait_units (s : State) (v : Tbl (List (NocReq × Owner))) : (s.setXWait v).units = s.units := (rfl)
@[simp] theorem State.setXWait_hearthHit (s : State) (v : Tbl (List (NocReq × Owner))) : (s.setXWait v).hearthHit = s.hearthHit := (rfl)
@[simp] theorem State.setXHeld_pending (s : State) (v : Tbl (List (NocReq × Owner))) : (s.setXHeld v).pending = s.pending := (rfl)
@[simp] theorem State.setXHeld_regs (s : State) (v : Tbl (List (NocReq × Owner))) : (s.setXHeld v).regs = s.regs := (rfl)
@[simp] theorem State.setXHeld_mem (s : State) (v : Tbl (List (NocReq × Owner))) : (s.setXHeld v).mem = s.mem := (rfl)
@[simp] theorem State.setXHeld_poison (s : State) (v : Tbl (List (NocReq × Owner))) : (s.setXHeld v).poison = s.poison := (rfl)
@[simp] theorem State.setXHeld_fresh (s : State) (v : Tbl (List (NocReq × Owner))) : (s.setXHeld v).fresh = s.fresh := (rfl)
@[simp] theorem State.setXHeld_answer (s : State) (v : Tbl (List (NocReq × Owner))) : (s.setXHeld v).answer = s.answer := (rfl)
@[simp] theorem State.setXHeld_answerStatus (s : State) (v : Tbl (List (NocReq × Owner))) : (s.setXHeld v).answerStatus = s.answerStatus := (rfl)
@[simp] theorem State.setXHeld_book (s : State) (v : Tbl (List (NocReq × Owner))) : (s.setXHeld v).book = s.book := (rfl)
@[simp] theorem State.setXHeld_mgt (s : State) (v : Tbl (List (NocReq × Owner))) : (s.setXHeld v).mgt = s.mgt := (rfl)
@[simp] theorem State.setXHeld_fpFifo (s : State) (v : Tbl (List (NocReq × Owner))) : (s.setXHeld v).fpFifo = s.fpFifo := (rfl)
@[simp] theorem State.setXHeld_evtOnce (s : State) (v : Tbl (List (NocReq × Owner))) : (s.setXHeld v).evtOnce = s.evtOnce := (rfl)
@[simp] theorem State.setXHeld_cycles (s : State) (v : Tbl (List (NocReq × Owner))) : (s.setXHeld v).cycles = s.cycles := (rfl)
@[simp] theorem State.setXHeld_pcie (s : State) (v : Tbl (List (NocReq × Owner))) : (s.setXHeld v).pcie = s.pcie := (rfl)
@[simp] theorem State.setXHeld_sent (s : State) (v : Tbl (List (NocReq × Owner))) : (s.setXHeld v).sent = s.sent := (rfl)
@[simp] theorem State.setXHeld_bw (s : State) (v : Tbl (List (NocReq × Owner))) : (s.setXHeld v).bw = s.bw := (rfl)
@[simp] theorem State.setXHeld_pmcLatch (s : State) (v : Tbl (List (NocReq × Owner))) : (s.setXHeld v).pmcLatch = s.pmcLatch := (rfl)
@[simp] theorem State.setXHeld_cal (s : State) (v : Tbl (List (NocReq × Owner))) : (s.setXHeld v).cal = s.cal := (rfl)
@[simp] theorem State.setXHeld_cfg (s : State) (v : Tbl (List (NocReq × Owner))) : (s.setXHeld v).cfg = s.cfg := (rfl)
@[simp] theorem State.setXHeld_tap (s : State) (v : Tbl (List (NocReq × Owner))) : (s.setXHeld v).tap = s.tap := (rfl)
@[simp] theorem State.setXHeld_pins (s : State) (v : Tbl (List (NocReq × Owner))) : (s.setXHeld v).pins = s.pins := (rfl)
@[simp] theorem State.setXHeld_frames (s : State) (v : Tbl (List (NocReq × Owner))) : (s.setXHeld v).frames = s.frames := (rfl)
@[simp] theorem State.setXHeld_clusters (s : State) (v : Tbl (List (NocReq × Owner))) : (s.setXHeld v).clusters = s.clusters := (rfl)
@[simp] theorem State.setXHeld_ffs (s : State) (v : Tbl (List (NocReq × Owner))) : (s.setXHeld v).ffs = s.ffs := (rfl)
@[simp] theorem State.setXHeld_relStage (s : State) (v : Tbl (List (NocReq × Owner))) : (s.setXHeld v).relStage = s.relStage := (rfl)
@[simp] theorem State.setXHeld_frozen (s : State) (v : Tbl (List (NocReq × Owner))) : (s.setXHeld v).frozen = s.frozen := (rfl)
@[simp] theorem State.setXHeld_bramCfg (s : State) (v : Tbl (List (NocReq × Owner))) : (s.setXHeld v).bramCfg = s.bramCfg := (rfl)
@[simp] theorem State.setXHeld_bram (s : State) (v : Tbl (List (NocReq × Owner))) : (s.setXHeld v).bram = s.bram := (rfl)
@[simp] theorem State.setXHeld_bramPorts (s : State) (v : Tbl (List (NocReq × Owner))) : (s.setXHeld v).bramPorts = s.bramPorts := (rfl)
@[simp] theorem State.setXHeld_multCfg (s : State) (v : Tbl (List (NocReq × Owner))) : (s.setXHeld v).multCfg = s.multCfg := (rfl)
@[simp] theorem State.setXHeld_mults (s : State) (v : Tbl (List (NocReq × Owner))) : (s.setXHeld v).mults = s.mults := (rfl)
@[simp] theorem State.setXHeld_railKeep (s : State) (v : Tbl (List (NocReq × Owner))) : (s.setXHeld v).railKeep = s.railKeep := (rfl)
@[simp] theorem State.setXHeld_chk (s : State) (v : Tbl (List (NocReq × Owner))) : (s.setXHeld v).chk = s.chk := (rfl)
@[simp] theorem State.setXHeld_eccRaw (s : State) (v : Tbl (List (NocReq × Owner))) : (s.setXHeld v).eccRaw = s.eccRaw := (rfl)
@[simp] theorem State.setXHeld_eccScrub (s : State) (v : Tbl (List (NocReq × Owner))) : (s.setXHeld v).eccScrub = s.eccScrub := (rfl)
@[simp] theorem State.setXHeld_tags (s : State) (v : Tbl (List (NocReq × Owner))) : (s.setXHeld v).tags = s.tags := (rfl)
@[simp] theorem State.setXHeld_xUsed (s : State) (v : Tbl (List (NocReq × Owner))) : (s.setXHeld v).xUsed = s.xUsed := (rfl)
@[simp] theorem State.setXHeld_xWait (s : State) (v : Tbl (List (NocReq × Owner))) : (s.setXHeld v).xWait = s.xWait := (rfl)
@[simp] theorem State.setXHeld_xHeld (s : State) (v : Tbl (List (NocReq × Owner))) : (s.setXHeld v).xHeld = v := (rfl)
@[simp] theorem State.setXHeld_routers (s : State) (v : Tbl (List (NocReq × Owner))) : (s.setXHeld v).routers = s.routers := (rfl)
@[simp] theorem State.setXHeld_portMode (s : State) (v : Tbl (List (NocReq × Owner))) : (s.setXHeld v).portMode = s.portMode := (rfl)
@[simp] theorem State.setXHeld_portTags (s : State) (v : Tbl (List (NocReq × Owner))) : (s.setXHeld v).portTags = s.portTags := (rfl)
@[simp] theorem State.setXHeld_portFifo (s : State) (v : Tbl (List (NocReq × Owner))) : (s.setXHeld v).portFifo = s.portFifo := (rfl)
@[simp] theorem State.setXHeld_dcache (s : State) (v : Tbl (List (NocReq × Owner))) : (s.setXHeld v).dcache = s.dcache := (rfl)
@[simp] theorem State.setXHeld_dir (s : State) (v : Tbl (List (NocReq × Owner))) : (s.setXHeld v).dir = s.dir := (rfl)
@[simp] theorem State.setXHeld_dieResets (s : State) (v : Tbl (List (NocReq × Owner))) : (s.setXHeld v).dieResets = s.dieResets := (rfl)
@[simp] theorem State.setXHeld_homeTxn (s : State) (v : Tbl (List (NocReq × Owner))) : (s.setXHeld v).homeTxn = s.homeTxn := (rfl)
@[simp] theorem State.setXHeld_cores (s : State) (v : Tbl (List (NocReq × Owner))) : (s.setXHeld v).cores = s.cores := (rfl)
@[simp] theorem State.setXHeld_tngDone (s : State) (v : Tbl (List (NocReq × Owner))) : (s.setXHeld v).tngDone = s.tngDone := (rfl)
@[simp] theorem State.setXHeld_fab (s : State) (v : Tbl (List (NocReq × Owner))) : (s.setXHeld v).fab = s.fab := (rfl)
@[simp] theorem State.setXHeld_net (s : State) (v : Tbl (List (NocReq × Owner))) : (s.setXHeld v).net = s.net := (rfl)
@[simp] theorem State.setXHeld_rtrShare (s : State) (v : Tbl (List (NocReq × Owner))) : (s.setXHeld v).rtrShare = s.rtrShare := (rfl)
@[simp] theorem State.setXHeld_dbg (s : State) (v : Tbl (List (NocReq × Owner))) : (s.setXHeld v).dbg = s.dbg := (rfl)
@[simp] theorem State.setXHeld_dcWait (s : State) (v : Tbl (List (NocReq × Owner))) : (s.setXHeld v).dcWait = s.dcWait := (rfl)
@[simp] theorem State.setXHeld_prcStep (s : State) (v : Tbl (List (NocReq × Owner))) : (s.setXHeld v).prcStep = s.prcStep := (rfl)
@[simp] theorem State.setXHeld_prcBlank (s : State) (v : Tbl (List (NocReq × Owner))) : (s.setXHeld v).prcBlank = s.prcBlank := (rfl)
@[simp] theorem State.setXHeld_prcHold (s : State) (v : Tbl (List (NocReq × Owner))) : (s.setXHeld v).prcHold = s.prcHold := (rfl)
@[simp] theorem State.setXHeld_capWait (s : State) (v : Tbl (List (NocReq × Owner))) : (s.setXHeld v).capWait = s.capWait := (rfl)
@[simp] theorem State.setXHeld_capture (s : State) (v : Tbl (List (NocReq × Owner))) : (s.setXHeld v).capture = s.capture := (rfl)
@[simp] theorem State.setXHeld_bramDef (s : State) (v : Tbl (List (NocReq × Owner))) : (s.setXHeld v).bramDef = s.bramDef := (rfl)
@[simp] theorem State.setXHeld_scrubs (s : State) (v : Tbl (List (NocReq × Owner))) : (s.setXHeld v).scrubs = s.scrubs := (rfl)
@[simp] theorem State.setXHeld_scrCopy (s : State) (v : Tbl (List (NocReq × Owner))) : (s.setXHeld v).scrCopy = s.scrCopy := (rfl)
@[simp] theorem State.setXHeld_releases (s : State) (v : Tbl (List (NocReq × Owner))) : (s.setXHeld v).releases = s.releases := (rfl)
@[simp] theorem State.setXHeld_dieStep (s : State) (v : Tbl (List (NocReq × Owner))) : (s.setXHeld v).dieStep = s.dieStep := (rfl)
@[simp] theorem State.setXHeld_clampDef (s : State) (v : Tbl (List (NocReq × Owner))) : (s.setXHeld v).clampDef = s.clampDef := (rfl)
@[simp] theorem State.setXHeld_clamps (s : State) (v : Tbl (List (NocReq × Owner))) : (s.setXHeld v).clamps = s.clamps := (rfl)
@[simp] theorem State.setXHeld_welds (s : State) (v : Tbl (List (NocReq × Owner))) : (s.setXHeld v).welds = s.welds := (rfl)
@[simp] theorem State.setXHeld_lanes (s : State) (v : Tbl (List (NocReq × Owner))) : (s.setXHeld v).lanes = s.lanes := (rfl)
@[simp] theorem State.setXHeld_macMode (s : State) (v : Tbl (List (NocReq × Owner))) : (s.setXHeld v).macMode = s.macMode := (rfl)
@[simp] theorem State.setXHeld_tod (s : State) (v : Tbl (List (NocReq × Owner))) : (s.setXHeld v).tod = s.tod := (rfl)
@[simp] theorem State.setXHeld_lkp (s : State) (v : Tbl (List (NocReq × Owner))) : (s.setXHeld v).lkp = s.lkp := (rfl)
@[simp] theorem State.setXHeld_queues (s : State) (v : Tbl (List (NocReq × Owner))) : (s.setXHeld v).queues = s.queues := (rfl)
@[simp] theorem State.setXHeld_ports (s : State) (v : Tbl (List (NocReq × Owner))) : (s.setXHeld v).ports = s.ports := (rfl)
@[simp] theorem State.setXHeld_pkt (s : State) (v : Tbl (List (NocReq × Owner))) : (s.setXHeld v).pkt = s.pkt := (rfl)
@[simp] theorem State.setXHeld_cxl (s : State) (v : Tbl (List (NocReq × Owner))) : (s.setXHeld v).cxl = s.cxl := (rfl)
@[simp] theorem State.setXHeld_ddr (s : State) (v : Tbl (List (NocReq × Owner))) : (s.setXHeld v).ddr = s.ddr := (rfl)
@[simp] theorem State.setXHeld_regions (s : State) (v : Tbl (List (NocReq × Owner))) : (s.setXHeld v).regions = s.regions := (rfl)
@[simp] theorem State.setXHeld_prots (s : State) (v : Tbl (List (NocReq × Owner))) : (s.setXHeld v).prots = s.prots := (rfl)
@[simp] theorem State.setXHeld_keyStore (s : State) (v : Tbl (List (NocReq × Owner))) : (s.setXHeld v).keyStore = s.keyStore := (rfl)
@[simp] theorem State.setXHeld_rings (s : State) (v : Tbl (List (NocReq × Owner))) : (s.setXHeld v).rings = s.rings := (rfl)
@[simp] theorem State.setXHeld_openMem (s : State) (v : Tbl (List (NocReq × Owner))) : (s.setXHeld v).openMem = s.openMem := (rfl)
@[simp] theorem State.setXHeld_dcRights (s : State) (v : Tbl (List (NocReq × Owner))) : (s.setXHeld v).dcRights = s.dcRights := (rfl)
@[simp] theorem State.setXHeld_clk (s : State) (v : Tbl (List (NocReq × Owner))) : (s.setXHeld v).clk = s.clk := (rfl)
@[simp] theorem State.setXHeld_units (s : State) (v : Tbl (List (NocReq × Owner))) : (s.setXHeld v).units = s.units := (rfl)
@[simp] theorem State.setXHeld_hearthHit (s : State) (v : Tbl (List (NocReq × Owner))) : (s.setXHeld v).hearthHit = s.hearthHit := (rfl)
@[simp] theorem State.setRouters_pending (s : State) (v : Tbl (List WaitFlit)) : (s.setRouters v).pending = s.pending := (rfl)
@[simp] theorem State.setRouters_regs (s : State) (v : Tbl (List WaitFlit)) : (s.setRouters v).regs = s.regs := (rfl)
@[simp] theorem State.setRouters_mem (s : State) (v : Tbl (List WaitFlit)) : (s.setRouters v).mem = s.mem := (rfl)
@[simp] theorem State.setRouters_poison (s : State) (v : Tbl (List WaitFlit)) : (s.setRouters v).poison = s.poison := (rfl)
@[simp] theorem State.setRouters_fresh (s : State) (v : Tbl (List WaitFlit)) : (s.setRouters v).fresh = s.fresh := (rfl)
@[simp] theorem State.setRouters_answer (s : State) (v : Tbl (List WaitFlit)) : (s.setRouters v).answer = s.answer := (rfl)
@[simp] theorem State.setRouters_answerStatus (s : State) (v : Tbl (List WaitFlit)) : (s.setRouters v).answerStatus = s.answerStatus := (rfl)
@[simp] theorem State.setRouters_book (s : State) (v : Tbl (List WaitFlit)) : (s.setRouters v).book = s.book := (rfl)
@[simp] theorem State.setRouters_mgt (s : State) (v : Tbl (List WaitFlit)) : (s.setRouters v).mgt = s.mgt := (rfl)
@[simp] theorem State.setRouters_fpFifo (s : State) (v : Tbl (List WaitFlit)) : (s.setRouters v).fpFifo = s.fpFifo := (rfl)
@[simp] theorem State.setRouters_evtOnce (s : State) (v : Tbl (List WaitFlit)) : (s.setRouters v).evtOnce = s.evtOnce := (rfl)
@[simp] theorem State.setRouters_cycles (s : State) (v : Tbl (List WaitFlit)) : (s.setRouters v).cycles = s.cycles := (rfl)
@[simp] theorem State.setRouters_pcie (s : State) (v : Tbl (List WaitFlit)) : (s.setRouters v).pcie = s.pcie := (rfl)
@[simp] theorem State.setRouters_sent (s : State) (v : Tbl (List WaitFlit)) : (s.setRouters v).sent = s.sent := (rfl)
@[simp] theorem State.setRouters_bw (s : State) (v : Tbl (List WaitFlit)) : (s.setRouters v).bw = s.bw := (rfl)
@[simp] theorem State.setRouters_pmcLatch (s : State) (v : Tbl (List WaitFlit)) : (s.setRouters v).pmcLatch = s.pmcLatch := (rfl)
@[simp] theorem State.setRouters_cal (s : State) (v : Tbl (List WaitFlit)) : (s.setRouters v).cal = s.cal := (rfl)
@[simp] theorem State.setRouters_cfg (s : State) (v : Tbl (List WaitFlit)) : (s.setRouters v).cfg = s.cfg := (rfl)
@[simp] theorem State.setRouters_tap (s : State) (v : Tbl (List WaitFlit)) : (s.setRouters v).tap = s.tap := (rfl)
@[simp] theorem State.setRouters_pins (s : State) (v : Tbl (List WaitFlit)) : (s.setRouters v).pins = s.pins := (rfl)
@[simp] theorem State.setRouters_frames (s : State) (v : Tbl (List WaitFlit)) : (s.setRouters v).frames = s.frames := (rfl)
@[simp] theorem State.setRouters_clusters (s : State) (v : Tbl (List WaitFlit)) : (s.setRouters v).clusters = s.clusters := (rfl)
@[simp] theorem State.setRouters_ffs (s : State) (v : Tbl (List WaitFlit)) : (s.setRouters v).ffs = s.ffs := (rfl)
@[simp] theorem State.setRouters_relStage (s : State) (v : Tbl (List WaitFlit)) : (s.setRouters v).relStage = s.relStage := (rfl)
@[simp] theorem State.setRouters_frozen (s : State) (v : Tbl (List WaitFlit)) : (s.setRouters v).frozen = s.frozen := (rfl)
@[simp] theorem State.setRouters_bramCfg (s : State) (v : Tbl (List WaitFlit)) : (s.setRouters v).bramCfg = s.bramCfg := (rfl)
@[simp] theorem State.setRouters_bram (s : State) (v : Tbl (List WaitFlit)) : (s.setRouters v).bram = s.bram := (rfl)
@[simp] theorem State.setRouters_bramPorts (s : State) (v : Tbl (List WaitFlit)) : (s.setRouters v).bramPorts = s.bramPorts := (rfl)
@[simp] theorem State.setRouters_multCfg (s : State) (v : Tbl (List WaitFlit)) : (s.setRouters v).multCfg = s.multCfg := (rfl)
@[simp] theorem State.setRouters_mults (s : State) (v : Tbl (List WaitFlit)) : (s.setRouters v).mults = s.mults := (rfl)
@[simp] theorem State.setRouters_railKeep (s : State) (v : Tbl (List WaitFlit)) : (s.setRouters v).railKeep = s.railKeep := (rfl)
@[simp] theorem State.setRouters_chk (s : State) (v : Tbl (List WaitFlit)) : (s.setRouters v).chk = s.chk := (rfl)
@[simp] theorem State.setRouters_eccRaw (s : State) (v : Tbl (List WaitFlit)) : (s.setRouters v).eccRaw = s.eccRaw := (rfl)
@[simp] theorem State.setRouters_eccScrub (s : State) (v : Tbl (List WaitFlit)) : (s.setRouters v).eccScrub = s.eccScrub := (rfl)
@[simp] theorem State.setRouters_tags (s : State) (v : Tbl (List WaitFlit)) : (s.setRouters v).tags = s.tags := (rfl)
@[simp] theorem State.setRouters_xUsed (s : State) (v : Tbl (List WaitFlit)) : (s.setRouters v).xUsed = s.xUsed := (rfl)
@[simp] theorem State.setRouters_xWait (s : State) (v : Tbl (List WaitFlit)) : (s.setRouters v).xWait = s.xWait := (rfl)
@[simp] theorem State.setRouters_xHeld (s : State) (v : Tbl (List WaitFlit)) : (s.setRouters v).xHeld = s.xHeld := (rfl)
@[simp] theorem State.setRouters_routers (s : State) (v : Tbl (List WaitFlit)) : (s.setRouters v).routers = v := (rfl)
@[simp] theorem State.setRouters_portMode (s : State) (v : Tbl (List WaitFlit)) : (s.setRouters v).portMode = s.portMode := (rfl)
@[simp] theorem State.setRouters_portTags (s : State) (v : Tbl (List WaitFlit)) : (s.setRouters v).portTags = s.portTags := (rfl)
@[simp] theorem State.setRouters_portFifo (s : State) (v : Tbl (List WaitFlit)) : (s.setRouters v).portFifo = s.portFifo := (rfl)
@[simp] theorem State.setRouters_dcache (s : State) (v : Tbl (List WaitFlit)) : (s.setRouters v).dcache = s.dcache := (rfl)
@[simp] theorem State.setRouters_dir (s : State) (v : Tbl (List WaitFlit)) : (s.setRouters v).dir = s.dir := (rfl)
@[simp] theorem State.setRouters_dieResets (s : State) (v : Tbl (List WaitFlit)) : (s.setRouters v).dieResets = s.dieResets := (rfl)
@[simp] theorem State.setRouters_homeTxn (s : State) (v : Tbl (List WaitFlit)) : (s.setRouters v).homeTxn = s.homeTxn := (rfl)
@[simp] theorem State.setRouters_cores (s : State) (v : Tbl (List WaitFlit)) : (s.setRouters v).cores = s.cores := (rfl)
@[simp] theorem State.setRouters_tngDone (s : State) (v : Tbl (List WaitFlit)) : (s.setRouters v).tngDone = s.tngDone := (rfl)
@[simp] theorem State.setRouters_fab (s : State) (v : Tbl (List WaitFlit)) : (s.setRouters v).fab = s.fab := (rfl)
@[simp] theorem State.setRouters_net (s : State) (v : Tbl (List WaitFlit)) : (s.setRouters v).net = s.net := (rfl)
@[simp] theorem State.setRouters_rtrShare (s : State) (v : Tbl (List WaitFlit)) : (s.setRouters v).rtrShare = s.rtrShare := (rfl)
@[simp] theorem State.setRouters_dbg (s : State) (v : Tbl (List WaitFlit)) : (s.setRouters v).dbg = s.dbg := (rfl)
@[simp] theorem State.setRouters_dcWait (s : State) (v : Tbl (List WaitFlit)) : (s.setRouters v).dcWait = s.dcWait := (rfl)
@[simp] theorem State.setRouters_prcStep (s : State) (v : Tbl (List WaitFlit)) : (s.setRouters v).prcStep = s.prcStep := (rfl)
@[simp] theorem State.setRouters_prcBlank (s : State) (v : Tbl (List WaitFlit)) : (s.setRouters v).prcBlank = s.prcBlank := (rfl)
@[simp] theorem State.setRouters_prcHold (s : State) (v : Tbl (List WaitFlit)) : (s.setRouters v).prcHold = s.prcHold := (rfl)
@[simp] theorem State.setRouters_capWait (s : State) (v : Tbl (List WaitFlit)) : (s.setRouters v).capWait = s.capWait := (rfl)
@[simp] theorem State.setRouters_capture (s : State) (v : Tbl (List WaitFlit)) : (s.setRouters v).capture = s.capture := (rfl)
@[simp] theorem State.setRouters_bramDef (s : State) (v : Tbl (List WaitFlit)) : (s.setRouters v).bramDef = s.bramDef := (rfl)
@[simp] theorem State.setRouters_scrubs (s : State) (v : Tbl (List WaitFlit)) : (s.setRouters v).scrubs = s.scrubs := (rfl)
@[simp] theorem State.setRouters_scrCopy (s : State) (v : Tbl (List WaitFlit)) : (s.setRouters v).scrCopy = s.scrCopy := (rfl)
@[simp] theorem State.setRouters_releases (s : State) (v : Tbl (List WaitFlit)) : (s.setRouters v).releases = s.releases := (rfl)
@[simp] theorem State.setRouters_dieStep (s : State) (v : Tbl (List WaitFlit)) : (s.setRouters v).dieStep = s.dieStep := (rfl)
@[simp] theorem State.setRouters_clampDef (s : State) (v : Tbl (List WaitFlit)) : (s.setRouters v).clampDef = s.clampDef := (rfl)
@[simp] theorem State.setRouters_clamps (s : State) (v : Tbl (List WaitFlit)) : (s.setRouters v).clamps = s.clamps := (rfl)
@[simp] theorem State.setRouters_welds (s : State) (v : Tbl (List WaitFlit)) : (s.setRouters v).welds = s.welds := (rfl)
@[simp] theorem State.setRouters_lanes (s : State) (v : Tbl (List WaitFlit)) : (s.setRouters v).lanes = s.lanes := (rfl)
@[simp] theorem State.setRouters_macMode (s : State) (v : Tbl (List WaitFlit)) : (s.setRouters v).macMode = s.macMode := (rfl)
@[simp] theorem State.setRouters_tod (s : State) (v : Tbl (List WaitFlit)) : (s.setRouters v).tod = s.tod := (rfl)
@[simp] theorem State.setRouters_lkp (s : State) (v : Tbl (List WaitFlit)) : (s.setRouters v).lkp = s.lkp := (rfl)
@[simp] theorem State.setRouters_queues (s : State) (v : Tbl (List WaitFlit)) : (s.setRouters v).queues = s.queues := (rfl)
@[simp] theorem State.setRouters_ports (s : State) (v : Tbl (List WaitFlit)) : (s.setRouters v).ports = s.ports := (rfl)
@[simp] theorem State.setRouters_pkt (s : State) (v : Tbl (List WaitFlit)) : (s.setRouters v).pkt = s.pkt := (rfl)
@[simp] theorem State.setRouters_cxl (s : State) (v : Tbl (List WaitFlit)) : (s.setRouters v).cxl = s.cxl := (rfl)
@[simp] theorem State.setRouters_ddr (s : State) (v : Tbl (List WaitFlit)) : (s.setRouters v).ddr = s.ddr := (rfl)
@[simp] theorem State.setRouters_regions (s : State) (v : Tbl (List WaitFlit)) : (s.setRouters v).regions = s.regions := (rfl)
@[simp] theorem State.setRouters_prots (s : State) (v : Tbl (List WaitFlit)) : (s.setRouters v).prots = s.prots := (rfl)
@[simp] theorem State.setRouters_keyStore (s : State) (v : Tbl (List WaitFlit)) : (s.setRouters v).keyStore = s.keyStore := (rfl)
@[simp] theorem State.setRouters_rings (s : State) (v : Tbl (List WaitFlit)) : (s.setRouters v).rings = s.rings := (rfl)
@[simp] theorem State.setRouters_openMem (s : State) (v : Tbl (List WaitFlit)) : (s.setRouters v).openMem = s.openMem := (rfl)
@[simp] theorem State.setRouters_dcRights (s : State) (v : Tbl (List WaitFlit)) : (s.setRouters v).dcRights = s.dcRights := (rfl)
@[simp] theorem State.setRouters_clk (s : State) (v : Tbl (List WaitFlit)) : (s.setRouters v).clk = s.clk := (rfl)
@[simp] theorem State.setRouters_units (s : State) (v : Tbl (List WaitFlit)) : (s.setRouters v).units = s.units := (rfl)
@[simp] theorem State.setRouters_hearthHit (s : State) (v : Tbl (List WaitFlit)) : (s.setRouters v).hearthHit = s.hearthHit := (rfl)
@[simp] theorem State.setPortMode_pending (s : State) (v : Tbl Nat) : (s.setPortMode v).pending = s.pending := (rfl)
@[simp] theorem State.setPortMode_regs (s : State) (v : Tbl Nat) : (s.setPortMode v).regs = s.regs := (rfl)
@[simp] theorem State.setPortMode_mem (s : State) (v : Tbl Nat) : (s.setPortMode v).mem = s.mem := (rfl)
@[simp] theorem State.setPortMode_poison (s : State) (v : Tbl Nat) : (s.setPortMode v).poison = s.poison := (rfl)
@[simp] theorem State.setPortMode_fresh (s : State) (v : Tbl Nat) : (s.setPortMode v).fresh = s.fresh := (rfl)
@[simp] theorem State.setPortMode_answer (s : State) (v : Tbl Nat) : (s.setPortMode v).answer = s.answer := (rfl)
@[simp] theorem State.setPortMode_answerStatus (s : State) (v : Tbl Nat) : (s.setPortMode v).answerStatus = s.answerStatus := (rfl)
@[simp] theorem State.setPortMode_book (s : State) (v : Tbl Nat) : (s.setPortMode v).book = s.book := (rfl)
@[simp] theorem State.setPortMode_mgt (s : State) (v : Tbl Nat) : (s.setPortMode v).mgt = s.mgt := (rfl)
@[simp] theorem State.setPortMode_fpFifo (s : State) (v : Tbl Nat) : (s.setPortMode v).fpFifo = s.fpFifo := (rfl)
@[simp] theorem State.setPortMode_evtOnce (s : State) (v : Tbl Nat) : (s.setPortMode v).evtOnce = s.evtOnce := (rfl)
@[simp] theorem State.setPortMode_cycles (s : State) (v : Tbl Nat) : (s.setPortMode v).cycles = s.cycles := (rfl)
@[simp] theorem State.setPortMode_pcie (s : State) (v : Tbl Nat) : (s.setPortMode v).pcie = s.pcie := (rfl)
@[simp] theorem State.setPortMode_sent (s : State) (v : Tbl Nat) : (s.setPortMode v).sent = s.sent := (rfl)
@[simp] theorem State.setPortMode_bw (s : State) (v : Tbl Nat) : (s.setPortMode v).bw = s.bw := (rfl)
@[simp] theorem State.setPortMode_pmcLatch (s : State) (v : Tbl Nat) : (s.setPortMode v).pmcLatch = s.pmcLatch := (rfl)
@[simp] theorem State.setPortMode_cal (s : State) (v : Tbl Nat) : (s.setPortMode v).cal = s.cal := (rfl)
@[simp] theorem State.setPortMode_cfg (s : State) (v : Tbl Nat) : (s.setPortMode v).cfg = s.cfg := (rfl)
@[simp] theorem State.setPortMode_tap (s : State) (v : Tbl Nat) : (s.setPortMode v).tap = s.tap := (rfl)
@[simp] theorem State.setPortMode_pins (s : State) (v : Tbl Nat) : (s.setPortMode v).pins = s.pins := (rfl)
@[simp] theorem State.setPortMode_frames (s : State) (v : Tbl Nat) : (s.setPortMode v).frames = s.frames := (rfl)
@[simp] theorem State.setPortMode_clusters (s : State) (v : Tbl Nat) : (s.setPortMode v).clusters = s.clusters := (rfl)
@[simp] theorem State.setPortMode_ffs (s : State) (v : Tbl Nat) : (s.setPortMode v).ffs = s.ffs := (rfl)
@[simp] theorem State.setPortMode_relStage (s : State) (v : Tbl Nat) : (s.setPortMode v).relStage = s.relStage := (rfl)
@[simp] theorem State.setPortMode_frozen (s : State) (v : Tbl Nat) : (s.setPortMode v).frozen = s.frozen := (rfl)
@[simp] theorem State.setPortMode_bramCfg (s : State) (v : Tbl Nat) : (s.setPortMode v).bramCfg = s.bramCfg := (rfl)
@[simp] theorem State.setPortMode_bram (s : State) (v : Tbl Nat) : (s.setPortMode v).bram = s.bram := (rfl)
@[simp] theorem State.setPortMode_bramPorts (s : State) (v : Tbl Nat) : (s.setPortMode v).bramPorts = s.bramPorts := (rfl)
@[simp] theorem State.setPortMode_multCfg (s : State) (v : Tbl Nat) : (s.setPortMode v).multCfg = s.multCfg := (rfl)
@[simp] theorem State.setPortMode_mults (s : State) (v : Tbl Nat) : (s.setPortMode v).mults = s.mults := (rfl)
@[simp] theorem State.setPortMode_railKeep (s : State) (v : Tbl Nat) : (s.setPortMode v).railKeep = s.railKeep := (rfl)
@[simp] theorem State.setPortMode_chk (s : State) (v : Tbl Nat) : (s.setPortMode v).chk = s.chk := (rfl)
@[simp] theorem State.setPortMode_eccRaw (s : State) (v : Tbl Nat) : (s.setPortMode v).eccRaw = s.eccRaw := (rfl)
@[simp] theorem State.setPortMode_eccScrub (s : State) (v : Tbl Nat) : (s.setPortMode v).eccScrub = s.eccScrub := (rfl)
@[simp] theorem State.setPortMode_tags (s : State) (v : Tbl Nat) : (s.setPortMode v).tags = s.tags := (rfl)
@[simp] theorem State.setPortMode_xUsed (s : State) (v : Tbl Nat) : (s.setPortMode v).xUsed = s.xUsed := (rfl)
@[simp] theorem State.setPortMode_xWait (s : State) (v : Tbl Nat) : (s.setPortMode v).xWait = s.xWait := (rfl)
@[simp] theorem State.setPortMode_xHeld (s : State) (v : Tbl Nat) : (s.setPortMode v).xHeld = s.xHeld := (rfl)
@[simp] theorem State.setPortMode_routers (s : State) (v : Tbl Nat) : (s.setPortMode v).routers = s.routers := (rfl)
@[simp] theorem State.setPortMode_portMode (s : State) (v : Tbl Nat) : (s.setPortMode v).portMode = v := (rfl)
@[simp] theorem State.setPortMode_portTags (s : State) (v : Tbl Nat) : (s.setPortMode v).portTags = s.portTags := (rfl)
@[simp] theorem State.setPortMode_portFifo (s : State) (v : Tbl Nat) : (s.setPortMode v).portFifo = s.portFifo := (rfl)
@[simp] theorem State.setPortMode_dcache (s : State) (v : Tbl Nat) : (s.setPortMode v).dcache = s.dcache := (rfl)
@[simp] theorem State.setPortMode_dir (s : State) (v : Tbl Nat) : (s.setPortMode v).dir = s.dir := (rfl)
@[simp] theorem State.setPortMode_dieResets (s : State) (v : Tbl Nat) : (s.setPortMode v).dieResets = s.dieResets := (rfl)
@[simp] theorem State.setPortMode_homeTxn (s : State) (v : Tbl Nat) : (s.setPortMode v).homeTxn = s.homeTxn := (rfl)
@[simp] theorem State.setPortMode_cores (s : State) (v : Tbl Nat) : (s.setPortMode v).cores = s.cores := (rfl)
@[simp] theorem State.setPortMode_tngDone (s : State) (v : Tbl Nat) : (s.setPortMode v).tngDone = s.tngDone := (rfl)
@[simp] theorem State.setPortMode_fab (s : State) (v : Tbl Nat) : (s.setPortMode v).fab = s.fab := (rfl)
@[simp] theorem State.setPortMode_net (s : State) (v : Tbl Nat) : (s.setPortMode v).net = s.net := (rfl)
@[simp] theorem State.setPortMode_rtrShare (s : State) (v : Tbl Nat) : (s.setPortMode v).rtrShare = s.rtrShare := (rfl)
@[simp] theorem State.setPortMode_dbg (s : State) (v : Tbl Nat) : (s.setPortMode v).dbg = s.dbg := (rfl)
@[simp] theorem State.setPortMode_dcWait (s : State) (v : Tbl Nat) : (s.setPortMode v).dcWait = s.dcWait := (rfl)
@[simp] theorem State.setPortMode_prcStep (s : State) (v : Tbl Nat) : (s.setPortMode v).prcStep = s.prcStep := (rfl)
@[simp] theorem State.setPortMode_prcBlank (s : State) (v : Tbl Nat) : (s.setPortMode v).prcBlank = s.prcBlank := (rfl)
@[simp] theorem State.setPortMode_prcHold (s : State) (v : Tbl Nat) : (s.setPortMode v).prcHold = s.prcHold := (rfl)
@[simp] theorem State.setPortMode_capWait (s : State) (v : Tbl Nat) : (s.setPortMode v).capWait = s.capWait := (rfl)
@[simp] theorem State.setPortMode_capture (s : State) (v : Tbl Nat) : (s.setPortMode v).capture = s.capture := (rfl)
@[simp] theorem State.setPortMode_bramDef (s : State) (v : Tbl Nat) : (s.setPortMode v).bramDef = s.bramDef := (rfl)
@[simp] theorem State.setPortMode_scrubs (s : State) (v : Tbl Nat) : (s.setPortMode v).scrubs = s.scrubs := (rfl)
@[simp] theorem State.setPortMode_scrCopy (s : State) (v : Tbl Nat) : (s.setPortMode v).scrCopy = s.scrCopy := (rfl)
@[simp] theorem State.setPortMode_releases (s : State) (v : Tbl Nat) : (s.setPortMode v).releases = s.releases := (rfl)
@[simp] theorem State.setPortMode_dieStep (s : State) (v : Tbl Nat) : (s.setPortMode v).dieStep = s.dieStep := (rfl)
@[simp] theorem State.setPortMode_clampDef (s : State) (v : Tbl Nat) : (s.setPortMode v).clampDef = s.clampDef := (rfl)
@[simp] theorem State.setPortMode_clamps (s : State) (v : Tbl Nat) : (s.setPortMode v).clamps = s.clamps := (rfl)
@[simp] theorem State.setPortMode_welds (s : State) (v : Tbl Nat) : (s.setPortMode v).welds = s.welds := (rfl)
@[simp] theorem State.setPortMode_lanes (s : State) (v : Tbl Nat) : (s.setPortMode v).lanes = s.lanes := (rfl)
@[simp] theorem State.setPortMode_macMode (s : State) (v : Tbl Nat) : (s.setPortMode v).macMode = s.macMode := (rfl)
@[simp] theorem State.setPortMode_tod (s : State) (v : Tbl Nat) : (s.setPortMode v).tod = s.tod := (rfl)
@[simp] theorem State.setPortMode_lkp (s : State) (v : Tbl Nat) : (s.setPortMode v).lkp = s.lkp := (rfl)
@[simp] theorem State.setPortMode_queues (s : State) (v : Tbl Nat) : (s.setPortMode v).queues = s.queues := (rfl)
@[simp] theorem State.setPortMode_ports (s : State) (v : Tbl Nat) : (s.setPortMode v).ports = s.ports := (rfl)
@[simp] theorem State.setPortMode_pkt (s : State) (v : Tbl Nat) : (s.setPortMode v).pkt = s.pkt := (rfl)
@[simp] theorem State.setPortMode_cxl (s : State) (v : Tbl Nat) : (s.setPortMode v).cxl = s.cxl := (rfl)
@[simp] theorem State.setPortMode_ddr (s : State) (v : Tbl Nat) : (s.setPortMode v).ddr = s.ddr := (rfl)
@[simp] theorem State.setPortMode_regions (s : State) (v : Tbl Nat) : (s.setPortMode v).regions = s.regions := (rfl)
@[simp] theorem State.setPortMode_prots (s : State) (v : Tbl Nat) : (s.setPortMode v).prots = s.prots := (rfl)
@[simp] theorem State.setPortMode_keyStore (s : State) (v : Tbl Nat) : (s.setPortMode v).keyStore = s.keyStore := (rfl)
@[simp] theorem State.setPortMode_rings (s : State) (v : Tbl Nat) : (s.setPortMode v).rings = s.rings := (rfl)
@[simp] theorem State.setPortMode_openMem (s : State) (v : Tbl Nat) : (s.setPortMode v).openMem = s.openMem := (rfl)
@[simp] theorem State.setPortMode_dcRights (s : State) (v : Tbl Nat) : (s.setPortMode v).dcRights = s.dcRights := (rfl)
@[simp] theorem State.setPortMode_clk (s : State) (v : Tbl Nat) : (s.setPortMode v).clk = s.clk := (rfl)
@[simp] theorem State.setPortMode_units (s : State) (v : Tbl Nat) : (s.setPortMode v).units = s.units := (rfl)
@[simp] theorem State.setPortMode_hearthHit (s : State) (v : Tbl Nat) : (s.setPortMode v).hearthHit = s.hearthHit := (rfl)
@[simp] theorem State.setPortTags_pending (s : State) (v : Tbl NocReq) : (s.setPortTags v).pending = s.pending := (rfl)
@[simp] theorem State.setPortTags_regs (s : State) (v : Tbl NocReq) : (s.setPortTags v).regs = s.regs := (rfl)
@[simp] theorem State.setPortTags_mem (s : State) (v : Tbl NocReq) : (s.setPortTags v).mem = s.mem := (rfl)
@[simp] theorem State.setPortTags_poison (s : State) (v : Tbl NocReq) : (s.setPortTags v).poison = s.poison := (rfl)
@[simp] theorem State.setPortTags_fresh (s : State) (v : Tbl NocReq) : (s.setPortTags v).fresh = s.fresh := (rfl)
@[simp] theorem State.setPortTags_answer (s : State) (v : Tbl NocReq) : (s.setPortTags v).answer = s.answer := (rfl)
@[simp] theorem State.setPortTags_answerStatus (s : State) (v : Tbl NocReq) : (s.setPortTags v).answerStatus = s.answerStatus := (rfl)
@[simp] theorem State.setPortTags_book (s : State) (v : Tbl NocReq) : (s.setPortTags v).book = s.book := (rfl)
@[simp] theorem State.setPortTags_mgt (s : State) (v : Tbl NocReq) : (s.setPortTags v).mgt = s.mgt := (rfl)
@[simp] theorem State.setPortTags_fpFifo (s : State) (v : Tbl NocReq) : (s.setPortTags v).fpFifo = s.fpFifo := (rfl)
@[simp] theorem State.setPortTags_evtOnce (s : State) (v : Tbl NocReq) : (s.setPortTags v).evtOnce = s.evtOnce := (rfl)
@[simp] theorem State.setPortTags_cycles (s : State) (v : Tbl NocReq) : (s.setPortTags v).cycles = s.cycles := (rfl)
@[simp] theorem State.setPortTags_pcie (s : State) (v : Tbl NocReq) : (s.setPortTags v).pcie = s.pcie := (rfl)
@[simp] theorem State.setPortTags_sent (s : State) (v : Tbl NocReq) : (s.setPortTags v).sent = s.sent := (rfl)
@[simp] theorem State.setPortTags_bw (s : State) (v : Tbl NocReq) : (s.setPortTags v).bw = s.bw := (rfl)
@[simp] theorem State.setPortTags_pmcLatch (s : State) (v : Tbl NocReq) : (s.setPortTags v).pmcLatch = s.pmcLatch := (rfl)
@[simp] theorem State.setPortTags_cal (s : State) (v : Tbl NocReq) : (s.setPortTags v).cal = s.cal := (rfl)
@[simp] theorem State.setPortTags_cfg (s : State) (v : Tbl NocReq) : (s.setPortTags v).cfg = s.cfg := (rfl)
@[simp] theorem State.setPortTags_tap (s : State) (v : Tbl NocReq) : (s.setPortTags v).tap = s.tap := (rfl)
@[simp] theorem State.setPortTags_pins (s : State) (v : Tbl NocReq) : (s.setPortTags v).pins = s.pins := (rfl)
@[simp] theorem State.setPortTags_frames (s : State) (v : Tbl NocReq) : (s.setPortTags v).frames = s.frames := (rfl)
@[simp] theorem State.setPortTags_clusters (s : State) (v : Tbl NocReq) : (s.setPortTags v).clusters = s.clusters := (rfl)
@[simp] theorem State.setPortTags_ffs (s : State) (v : Tbl NocReq) : (s.setPortTags v).ffs = s.ffs := (rfl)
@[simp] theorem State.setPortTags_relStage (s : State) (v : Tbl NocReq) : (s.setPortTags v).relStage = s.relStage := (rfl)
@[simp] theorem State.setPortTags_frozen (s : State) (v : Tbl NocReq) : (s.setPortTags v).frozen = s.frozen := (rfl)
@[simp] theorem State.setPortTags_bramCfg (s : State) (v : Tbl NocReq) : (s.setPortTags v).bramCfg = s.bramCfg := (rfl)
@[simp] theorem State.setPortTags_bram (s : State) (v : Tbl NocReq) : (s.setPortTags v).bram = s.bram := (rfl)
@[simp] theorem State.setPortTags_bramPorts (s : State) (v : Tbl NocReq) : (s.setPortTags v).bramPorts = s.bramPorts := (rfl)
@[simp] theorem State.setPortTags_multCfg (s : State) (v : Tbl NocReq) : (s.setPortTags v).multCfg = s.multCfg := (rfl)
@[simp] theorem State.setPortTags_mults (s : State) (v : Tbl NocReq) : (s.setPortTags v).mults = s.mults := (rfl)
@[simp] theorem State.setPortTags_railKeep (s : State) (v : Tbl NocReq) : (s.setPortTags v).railKeep = s.railKeep := (rfl)
@[simp] theorem State.setPortTags_chk (s : State) (v : Tbl NocReq) : (s.setPortTags v).chk = s.chk := (rfl)
@[simp] theorem State.setPortTags_eccRaw (s : State) (v : Tbl NocReq) : (s.setPortTags v).eccRaw = s.eccRaw := (rfl)
@[simp] theorem State.setPortTags_eccScrub (s : State) (v : Tbl NocReq) : (s.setPortTags v).eccScrub = s.eccScrub := (rfl)
@[simp] theorem State.setPortTags_tags (s : State) (v : Tbl NocReq) : (s.setPortTags v).tags = s.tags := (rfl)
@[simp] theorem State.setPortTags_xUsed (s : State) (v : Tbl NocReq) : (s.setPortTags v).xUsed = s.xUsed := (rfl)
@[simp] theorem State.setPortTags_xWait (s : State) (v : Tbl NocReq) : (s.setPortTags v).xWait = s.xWait := (rfl)
@[simp] theorem State.setPortTags_xHeld (s : State) (v : Tbl NocReq) : (s.setPortTags v).xHeld = s.xHeld := (rfl)
@[simp] theorem State.setPortTags_routers (s : State) (v : Tbl NocReq) : (s.setPortTags v).routers = s.routers := (rfl)
@[simp] theorem State.setPortTags_portMode (s : State) (v : Tbl NocReq) : (s.setPortTags v).portMode = s.portMode := (rfl)
@[simp] theorem State.setPortTags_portTags (s : State) (v : Tbl NocReq) : (s.setPortTags v).portTags = v := (rfl)
@[simp] theorem State.setPortTags_portFifo (s : State) (v : Tbl NocReq) : (s.setPortTags v).portFifo = s.portFifo := (rfl)
@[simp] theorem State.setPortTags_dcache (s : State) (v : Tbl NocReq) : (s.setPortTags v).dcache = s.dcache := (rfl)
@[simp] theorem State.setPortTags_dir (s : State) (v : Tbl NocReq) : (s.setPortTags v).dir = s.dir := (rfl)
@[simp] theorem State.setPortTags_dieResets (s : State) (v : Tbl NocReq) : (s.setPortTags v).dieResets = s.dieResets := (rfl)
@[simp] theorem State.setPortTags_homeTxn (s : State) (v : Tbl NocReq) : (s.setPortTags v).homeTxn = s.homeTxn := (rfl)
@[simp] theorem State.setPortTags_cores (s : State) (v : Tbl NocReq) : (s.setPortTags v).cores = s.cores := (rfl)
@[simp] theorem State.setPortTags_tngDone (s : State) (v : Tbl NocReq) : (s.setPortTags v).tngDone = s.tngDone := (rfl)
@[simp] theorem State.setPortTags_fab (s : State) (v : Tbl NocReq) : (s.setPortTags v).fab = s.fab := (rfl)
@[simp] theorem State.setPortTags_net (s : State) (v : Tbl NocReq) : (s.setPortTags v).net = s.net := (rfl)
@[simp] theorem State.setPortTags_rtrShare (s : State) (v : Tbl NocReq) : (s.setPortTags v).rtrShare = s.rtrShare := (rfl)
@[simp] theorem State.setPortTags_dbg (s : State) (v : Tbl NocReq) : (s.setPortTags v).dbg = s.dbg := (rfl)
@[simp] theorem State.setPortTags_dcWait (s : State) (v : Tbl NocReq) : (s.setPortTags v).dcWait = s.dcWait := (rfl)
@[simp] theorem State.setPortTags_prcStep (s : State) (v : Tbl NocReq) : (s.setPortTags v).prcStep = s.prcStep := (rfl)
@[simp] theorem State.setPortTags_prcBlank (s : State) (v : Tbl NocReq) : (s.setPortTags v).prcBlank = s.prcBlank := (rfl)
@[simp] theorem State.setPortTags_prcHold (s : State) (v : Tbl NocReq) : (s.setPortTags v).prcHold = s.prcHold := (rfl)
@[simp] theorem State.setPortTags_capWait (s : State) (v : Tbl NocReq) : (s.setPortTags v).capWait = s.capWait := (rfl)
@[simp] theorem State.setPortTags_capture (s : State) (v : Tbl NocReq) : (s.setPortTags v).capture = s.capture := (rfl)
@[simp] theorem State.setPortTags_bramDef (s : State) (v : Tbl NocReq) : (s.setPortTags v).bramDef = s.bramDef := (rfl)
@[simp] theorem State.setPortTags_scrubs (s : State) (v : Tbl NocReq) : (s.setPortTags v).scrubs = s.scrubs := (rfl)
@[simp] theorem State.setPortTags_scrCopy (s : State) (v : Tbl NocReq) : (s.setPortTags v).scrCopy = s.scrCopy := (rfl)
@[simp] theorem State.setPortTags_releases (s : State) (v : Tbl NocReq) : (s.setPortTags v).releases = s.releases := (rfl)
@[simp] theorem State.setPortTags_dieStep (s : State) (v : Tbl NocReq) : (s.setPortTags v).dieStep = s.dieStep := (rfl)
@[simp] theorem State.setPortTags_clampDef (s : State) (v : Tbl NocReq) : (s.setPortTags v).clampDef = s.clampDef := (rfl)
@[simp] theorem State.setPortTags_clamps (s : State) (v : Tbl NocReq) : (s.setPortTags v).clamps = s.clamps := (rfl)
@[simp] theorem State.setPortTags_welds (s : State) (v : Tbl NocReq) : (s.setPortTags v).welds = s.welds := (rfl)
@[simp] theorem State.setPortTags_lanes (s : State) (v : Tbl NocReq) : (s.setPortTags v).lanes = s.lanes := (rfl)
@[simp] theorem State.setPortTags_macMode (s : State) (v : Tbl NocReq) : (s.setPortTags v).macMode = s.macMode := (rfl)
@[simp] theorem State.setPortTags_tod (s : State) (v : Tbl NocReq) : (s.setPortTags v).tod = s.tod := (rfl)
@[simp] theorem State.setPortTags_lkp (s : State) (v : Tbl NocReq) : (s.setPortTags v).lkp = s.lkp := (rfl)
@[simp] theorem State.setPortTags_queues (s : State) (v : Tbl NocReq) : (s.setPortTags v).queues = s.queues := (rfl)
@[simp] theorem State.setPortTags_ports (s : State) (v : Tbl NocReq) : (s.setPortTags v).ports = s.ports := (rfl)
@[simp] theorem State.setPortTags_pkt (s : State) (v : Tbl NocReq) : (s.setPortTags v).pkt = s.pkt := (rfl)
@[simp] theorem State.setPortTags_cxl (s : State) (v : Tbl NocReq) : (s.setPortTags v).cxl = s.cxl := (rfl)
@[simp] theorem State.setPortTags_ddr (s : State) (v : Tbl NocReq) : (s.setPortTags v).ddr = s.ddr := (rfl)
@[simp] theorem State.setPortTags_regions (s : State) (v : Tbl NocReq) : (s.setPortTags v).regions = s.regions := (rfl)
@[simp] theorem State.setPortTags_prots (s : State) (v : Tbl NocReq) : (s.setPortTags v).prots = s.prots := (rfl)
@[simp] theorem State.setPortTags_keyStore (s : State) (v : Tbl NocReq) : (s.setPortTags v).keyStore = s.keyStore := (rfl)
@[simp] theorem State.setPortTags_rings (s : State) (v : Tbl NocReq) : (s.setPortTags v).rings = s.rings := (rfl)
@[simp] theorem State.setPortTags_openMem (s : State) (v : Tbl NocReq) : (s.setPortTags v).openMem = s.openMem := (rfl)
@[simp] theorem State.setPortTags_dcRights (s : State) (v : Tbl NocReq) : (s.setPortTags v).dcRights = s.dcRights := (rfl)
@[simp] theorem State.setPortTags_clk (s : State) (v : Tbl NocReq) : (s.setPortTags v).clk = s.clk := (rfl)
@[simp] theorem State.setPortTags_units (s : State) (v : Tbl NocReq) : (s.setPortTags v).units = s.units := (rfl)
@[simp] theorem State.setPortTags_hearthHit (s : State) (v : Tbl NocReq) : (s.setPortTags v).hearthHit = s.hearthHit := (rfl)
@[simp] theorem State.setPortFifo_pending (s : State) (v : Tbl (List NocReq)) : (s.setPortFifo v).pending = s.pending := (rfl)
@[simp] theorem State.setPortFifo_regs (s : State) (v : Tbl (List NocReq)) : (s.setPortFifo v).regs = s.regs := (rfl)
@[simp] theorem State.setPortFifo_mem (s : State) (v : Tbl (List NocReq)) : (s.setPortFifo v).mem = s.mem := (rfl)
@[simp] theorem State.setPortFifo_poison (s : State) (v : Tbl (List NocReq)) : (s.setPortFifo v).poison = s.poison := (rfl)
@[simp] theorem State.setPortFifo_fresh (s : State) (v : Tbl (List NocReq)) : (s.setPortFifo v).fresh = s.fresh := (rfl)
@[simp] theorem State.setPortFifo_answer (s : State) (v : Tbl (List NocReq)) : (s.setPortFifo v).answer = s.answer := (rfl)
@[simp] theorem State.setPortFifo_answerStatus (s : State) (v : Tbl (List NocReq)) : (s.setPortFifo v).answerStatus = s.answerStatus := (rfl)
@[simp] theorem State.setPortFifo_book (s : State) (v : Tbl (List NocReq)) : (s.setPortFifo v).book = s.book := (rfl)
@[simp] theorem State.setPortFifo_mgt (s : State) (v : Tbl (List NocReq)) : (s.setPortFifo v).mgt = s.mgt := (rfl)
@[simp] theorem State.setPortFifo_fpFifo (s : State) (v : Tbl (List NocReq)) : (s.setPortFifo v).fpFifo = s.fpFifo := (rfl)
@[simp] theorem State.setPortFifo_evtOnce (s : State) (v : Tbl (List NocReq)) : (s.setPortFifo v).evtOnce = s.evtOnce := (rfl)
@[simp] theorem State.setPortFifo_cycles (s : State) (v : Tbl (List NocReq)) : (s.setPortFifo v).cycles = s.cycles := (rfl)
@[simp] theorem State.setPortFifo_pcie (s : State) (v : Tbl (List NocReq)) : (s.setPortFifo v).pcie = s.pcie := (rfl)
@[simp] theorem State.setPortFifo_sent (s : State) (v : Tbl (List NocReq)) : (s.setPortFifo v).sent = s.sent := (rfl)
@[simp] theorem State.setPortFifo_bw (s : State) (v : Tbl (List NocReq)) : (s.setPortFifo v).bw = s.bw := (rfl)
@[simp] theorem State.setPortFifo_pmcLatch (s : State) (v : Tbl (List NocReq)) : (s.setPortFifo v).pmcLatch = s.pmcLatch := (rfl)
@[simp] theorem State.setPortFifo_cal (s : State) (v : Tbl (List NocReq)) : (s.setPortFifo v).cal = s.cal := (rfl)
@[simp] theorem State.setPortFifo_cfg (s : State) (v : Tbl (List NocReq)) : (s.setPortFifo v).cfg = s.cfg := (rfl)
@[simp] theorem State.setPortFifo_tap (s : State) (v : Tbl (List NocReq)) : (s.setPortFifo v).tap = s.tap := (rfl)
@[simp] theorem State.setPortFifo_pins (s : State) (v : Tbl (List NocReq)) : (s.setPortFifo v).pins = s.pins := (rfl)
@[simp] theorem State.setPortFifo_frames (s : State) (v : Tbl (List NocReq)) : (s.setPortFifo v).frames = s.frames := (rfl)
@[simp] theorem State.setPortFifo_clusters (s : State) (v : Tbl (List NocReq)) : (s.setPortFifo v).clusters = s.clusters := (rfl)
@[simp] theorem State.setPortFifo_ffs (s : State) (v : Tbl (List NocReq)) : (s.setPortFifo v).ffs = s.ffs := (rfl)
@[simp] theorem State.setPortFifo_relStage (s : State) (v : Tbl (List NocReq)) : (s.setPortFifo v).relStage = s.relStage := (rfl)
@[simp] theorem State.setPortFifo_frozen (s : State) (v : Tbl (List NocReq)) : (s.setPortFifo v).frozen = s.frozen := (rfl)
@[simp] theorem State.setPortFifo_bramCfg (s : State) (v : Tbl (List NocReq)) : (s.setPortFifo v).bramCfg = s.bramCfg := (rfl)
@[simp] theorem State.setPortFifo_bram (s : State) (v : Tbl (List NocReq)) : (s.setPortFifo v).bram = s.bram := (rfl)
@[simp] theorem State.setPortFifo_bramPorts (s : State) (v : Tbl (List NocReq)) : (s.setPortFifo v).bramPorts = s.bramPorts := (rfl)
@[simp] theorem State.setPortFifo_multCfg (s : State) (v : Tbl (List NocReq)) : (s.setPortFifo v).multCfg = s.multCfg := (rfl)
@[simp] theorem State.setPortFifo_mults (s : State) (v : Tbl (List NocReq)) : (s.setPortFifo v).mults = s.mults := (rfl)
@[simp] theorem State.setPortFifo_railKeep (s : State) (v : Tbl (List NocReq)) : (s.setPortFifo v).railKeep = s.railKeep := (rfl)
@[simp] theorem State.setPortFifo_chk (s : State) (v : Tbl (List NocReq)) : (s.setPortFifo v).chk = s.chk := (rfl)
@[simp] theorem State.setPortFifo_eccRaw (s : State) (v : Tbl (List NocReq)) : (s.setPortFifo v).eccRaw = s.eccRaw := (rfl)
@[simp] theorem State.setPortFifo_eccScrub (s : State) (v : Tbl (List NocReq)) : (s.setPortFifo v).eccScrub = s.eccScrub := (rfl)
@[simp] theorem State.setPortFifo_tags (s : State) (v : Tbl (List NocReq)) : (s.setPortFifo v).tags = s.tags := (rfl)
@[simp] theorem State.setPortFifo_xUsed (s : State) (v : Tbl (List NocReq)) : (s.setPortFifo v).xUsed = s.xUsed := (rfl)
@[simp] theorem State.setPortFifo_xWait (s : State) (v : Tbl (List NocReq)) : (s.setPortFifo v).xWait = s.xWait := (rfl)
@[simp] theorem State.setPortFifo_xHeld (s : State) (v : Tbl (List NocReq)) : (s.setPortFifo v).xHeld = s.xHeld := (rfl)
@[simp] theorem State.setPortFifo_routers (s : State) (v : Tbl (List NocReq)) : (s.setPortFifo v).routers = s.routers := (rfl)
@[simp] theorem State.setPortFifo_portMode (s : State) (v : Tbl (List NocReq)) : (s.setPortFifo v).portMode = s.portMode := (rfl)
@[simp] theorem State.setPortFifo_portTags (s : State) (v : Tbl (List NocReq)) : (s.setPortFifo v).portTags = s.portTags := (rfl)
@[simp] theorem State.setPortFifo_portFifo (s : State) (v : Tbl (List NocReq)) : (s.setPortFifo v).portFifo = v := (rfl)
@[simp] theorem State.setPortFifo_dcache (s : State) (v : Tbl (List NocReq)) : (s.setPortFifo v).dcache = s.dcache := (rfl)
@[simp] theorem State.setPortFifo_dir (s : State) (v : Tbl (List NocReq)) : (s.setPortFifo v).dir = s.dir := (rfl)
@[simp] theorem State.setPortFifo_dieResets (s : State) (v : Tbl (List NocReq)) : (s.setPortFifo v).dieResets = s.dieResets := (rfl)
@[simp] theorem State.setPortFifo_homeTxn (s : State) (v : Tbl (List NocReq)) : (s.setPortFifo v).homeTxn = s.homeTxn := (rfl)
@[simp] theorem State.setPortFifo_cores (s : State) (v : Tbl (List NocReq)) : (s.setPortFifo v).cores = s.cores := (rfl)
@[simp] theorem State.setPortFifo_tngDone (s : State) (v : Tbl (List NocReq)) : (s.setPortFifo v).tngDone = s.tngDone := (rfl)
@[simp] theorem State.setPortFifo_fab (s : State) (v : Tbl (List NocReq)) : (s.setPortFifo v).fab = s.fab := (rfl)
@[simp] theorem State.setPortFifo_net (s : State) (v : Tbl (List NocReq)) : (s.setPortFifo v).net = s.net := (rfl)
@[simp] theorem State.setPortFifo_rtrShare (s : State) (v : Tbl (List NocReq)) : (s.setPortFifo v).rtrShare = s.rtrShare := (rfl)
@[simp] theorem State.setPortFifo_dbg (s : State) (v : Tbl (List NocReq)) : (s.setPortFifo v).dbg = s.dbg := (rfl)
@[simp] theorem State.setPortFifo_dcWait (s : State) (v : Tbl (List NocReq)) : (s.setPortFifo v).dcWait = s.dcWait := (rfl)
@[simp] theorem State.setPortFifo_prcStep (s : State) (v : Tbl (List NocReq)) : (s.setPortFifo v).prcStep = s.prcStep := (rfl)
@[simp] theorem State.setPortFifo_prcBlank (s : State) (v : Tbl (List NocReq)) : (s.setPortFifo v).prcBlank = s.prcBlank := (rfl)
@[simp] theorem State.setPortFifo_prcHold (s : State) (v : Tbl (List NocReq)) : (s.setPortFifo v).prcHold = s.prcHold := (rfl)
@[simp] theorem State.setPortFifo_capWait (s : State) (v : Tbl (List NocReq)) : (s.setPortFifo v).capWait = s.capWait := (rfl)
@[simp] theorem State.setPortFifo_capture (s : State) (v : Tbl (List NocReq)) : (s.setPortFifo v).capture = s.capture := (rfl)
@[simp] theorem State.setPortFifo_bramDef (s : State) (v : Tbl (List NocReq)) : (s.setPortFifo v).bramDef = s.bramDef := (rfl)
@[simp] theorem State.setPortFifo_scrubs (s : State) (v : Tbl (List NocReq)) : (s.setPortFifo v).scrubs = s.scrubs := (rfl)
@[simp] theorem State.setPortFifo_scrCopy (s : State) (v : Tbl (List NocReq)) : (s.setPortFifo v).scrCopy = s.scrCopy := (rfl)
@[simp] theorem State.setPortFifo_releases (s : State) (v : Tbl (List NocReq)) : (s.setPortFifo v).releases = s.releases := (rfl)
@[simp] theorem State.setPortFifo_dieStep (s : State) (v : Tbl (List NocReq)) : (s.setPortFifo v).dieStep = s.dieStep := (rfl)
@[simp] theorem State.setPortFifo_clampDef (s : State) (v : Tbl (List NocReq)) : (s.setPortFifo v).clampDef = s.clampDef := (rfl)
@[simp] theorem State.setPortFifo_clamps (s : State) (v : Tbl (List NocReq)) : (s.setPortFifo v).clamps = s.clamps := (rfl)
@[simp] theorem State.setPortFifo_welds (s : State) (v : Tbl (List NocReq)) : (s.setPortFifo v).welds = s.welds := (rfl)
@[simp] theorem State.setPortFifo_lanes (s : State) (v : Tbl (List NocReq)) : (s.setPortFifo v).lanes = s.lanes := (rfl)
@[simp] theorem State.setPortFifo_macMode (s : State) (v : Tbl (List NocReq)) : (s.setPortFifo v).macMode = s.macMode := (rfl)
@[simp] theorem State.setPortFifo_tod (s : State) (v : Tbl (List NocReq)) : (s.setPortFifo v).tod = s.tod := (rfl)
@[simp] theorem State.setPortFifo_lkp (s : State) (v : Tbl (List NocReq)) : (s.setPortFifo v).lkp = s.lkp := (rfl)
@[simp] theorem State.setPortFifo_queues (s : State) (v : Tbl (List NocReq)) : (s.setPortFifo v).queues = s.queues := (rfl)
@[simp] theorem State.setPortFifo_ports (s : State) (v : Tbl (List NocReq)) : (s.setPortFifo v).ports = s.ports := (rfl)
@[simp] theorem State.setPortFifo_pkt (s : State) (v : Tbl (List NocReq)) : (s.setPortFifo v).pkt = s.pkt := (rfl)
@[simp] theorem State.setPortFifo_cxl (s : State) (v : Tbl (List NocReq)) : (s.setPortFifo v).cxl = s.cxl := (rfl)
@[simp] theorem State.setPortFifo_ddr (s : State) (v : Tbl (List NocReq)) : (s.setPortFifo v).ddr = s.ddr := (rfl)
@[simp] theorem State.setPortFifo_regions (s : State) (v : Tbl (List NocReq)) : (s.setPortFifo v).regions = s.regions := (rfl)
@[simp] theorem State.setPortFifo_prots (s : State) (v : Tbl (List NocReq)) : (s.setPortFifo v).prots = s.prots := (rfl)
@[simp] theorem State.setPortFifo_keyStore (s : State) (v : Tbl (List NocReq)) : (s.setPortFifo v).keyStore = s.keyStore := (rfl)
@[simp] theorem State.setPortFifo_rings (s : State) (v : Tbl (List NocReq)) : (s.setPortFifo v).rings = s.rings := (rfl)
@[simp] theorem State.setPortFifo_openMem (s : State) (v : Tbl (List NocReq)) : (s.setPortFifo v).openMem = s.openMem := (rfl)
@[simp] theorem State.setPortFifo_dcRights (s : State) (v : Tbl (List NocReq)) : (s.setPortFifo v).dcRights = s.dcRights := (rfl)
@[simp] theorem State.setPortFifo_clk (s : State) (v : Tbl (List NocReq)) : (s.setPortFifo v).clk = s.clk := (rfl)
@[simp] theorem State.setPortFifo_units (s : State) (v : Tbl (List NocReq)) : (s.setPortFifo v).units = s.units := (rfl)
@[simp] theorem State.setPortFifo_hearthHit (s : State) (v : Tbl (List NocReq)) : (s.setPortFifo v).hearthHit = s.hearthHit := (rfl)
@[simp] theorem State.setDcache_pending (s : State) (v : Tbl Nat) : (s.setDcache v).pending = s.pending := (rfl)
@[simp] theorem State.setDcache_regs (s : State) (v : Tbl Nat) : (s.setDcache v).regs = s.regs := (rfl)
@[simp] theorem State.setDcache_mem (s : State) (v : Tbl Nat) : (s.setDcache v).mem = s.mem := (rfl)
@[simp] theorem State.setDcache_poison (s : State) (v : Tbl Nat) : (s.setDcache v).poison = s.poison := (rfl)
@[simp] theorem State.setDcache_fresh (s : State) (v : Tbl Nat) : (s.setDcache v).fresh = s.fresh := (rfl)
@[simp] theorem State.setDcache_answer (s : State) (v : Tbl Nat) : (s.setDcache v).answer = s.answer := (rfl)
@[simp] theorem State.setDcache_answerStatus (s : State) (v : Tbl Nat) : (s.setDcache v).answerStatus = s.answerStatus := (rfl)
@[simp] theorem State.setDcache_book (s : State) (v : Tbl Nat) : (s.setDcache v).book = s.book := (rfl)
@[simp] theorem State.setDcache_mgt (s : State) (v : Tbl Nat) : (s.setDcache v).mgt = s.mgt := (rfl)
@[simp] theorem State.setDcache_fpFifo (s : State) (v : Tbl Nat) : (s.setDcache v).fpFifo = s.fpFifo := (rfl)
@[simp] theorem State.setDcache_evtOnce (s : State) (v : Tbl Nat) : (s.setDcache v).evtOnce = s.evtOnce := (rfl)
@[simp] theorem State.setDcache_cycles (s : State) (v : Tbl Nat) : (s.setDcache v).cycles = s.cycles := (rfl)
@[simp] theorem State.setDcache_pcie (s : State) (v : Tbl Nat) : (s.setDcache v).pcie = s.pcie := (rfl)
@[simp] theorem State.setDcache_sent (s : State) (v : Tbl Nat) : (s.setDcache v).sent = s.sent := (rfl)
@[simp] theorem State.setDcache_bw (s : State) (v : Tbl Nat) : (s.setDcache v).bw = s.bw := (rfl)
@[simp] theorem State.setDcache_pmcLatch (s : State) (v : Tbl Nat) : (s.setDcache v).pmcLatch = s.pmcLatch := (rfl)
@[simp] theorem State.setDcache_cal (s : State) (v : Tbl Nat) : (s.setDcache v).cal = s.cal := (rfl)
@[simp] theorem State.setDcache_cfg (s : State) (v : Tbl Nat) : (s.setDcache v).cfg = s.cfg := (rfl)
@[simp] theorem State.setDcache_tap (s : State) (v : Tbl Nat) : (s.setDcache v).tap = s.tap := (rfl)
@[simp] theorem State.setDcache_pins (s : State) (v : Tbl Nat) : (s.setDcache v).pins = s.pins := (rfl)
@[simp] theorem State.setDcache_frames (s : State) (v : Tbl Nat) : (s.setDcache v).frames = s.frames := (rfl)
@[simp] theorem State.setDcache_clusters (s : State) (v : Tbl Nat) : (s.setDcache v).clusters = s.clusters := (rfl)
@[simp] theorem State.setDcache_ffs (s : State) (v : Tbl Nat) : (s.setDcache v).ffs = s.ffs := (rfl)
@[simp] theorem State.setDcache_relStage (s : State) (v : Tbl Nat) : (s.setDcache v).relStage = s.relStage := (rfl)
@[simp] theorem State.setDcache_frozen (s : State) (v : Tbl Nat) : (s.setDcache v).frozen = s.frozen := (rfl)
@[simp] theorem State.setDcache_bramCfg (s : State) (v : Tbl Nat) : (s.setDcache v).bramCfg = s.bramCfg := (rfl)
@[simp] theorem State.setDcache_bram (s : State) (v : Tbl Nat) : (s.setDcache v).bram = s.bram := (rfl)
@[simp] theorem State.setDcache_bramPorts (s : State) (v : Tbl Nat) : (s.setDcache v).bramPorts = s.bramPorts := (rfl)
@[simp] theorem State.setDcache_multCfg (s : State) (v : Tbl Nat) : (s.setDcache v).multCfg = s.multCfg := (rfl)
@[simp] theorem State.setDcache_mults (s : State) (v : Tbl Nat) : (s.setDcache v).mults = s.mults := (rfl)
@[simp] theorem State.setDcache_railKeep (s : State) (v : Tbl Nat) : (s.setDcache v).railKeep = s.railKeep := (rfl)
@[simp] theorem State.setDcache_chk (s : State) (v : Tbl Nat) : (s.setDcache v).chk = s.chk := (rfl)
@[simp] theorem State.setDcache_eccRaw (s : State) (v : Tbl Nat) : (s.setDcache v).eccRaw = s.eccRaw := (rfl)
@[simp] theorem State.setDcache_eccScrub (s : State) (v : Tbl Nat) : (s.setDcache v).eccScrub = s.eccScrub := (rfl)
@[simp] theorem State.setDcache_tags (s : State) (v : Tbl Nat) : (s.setDcache v).tags = s.tags := (rfl)
@[simp] theorem State.setDcache_xUsed (s : State) (v : Tbl Nat) : (s.setDcache v).xUsed = s.xUsed := (rfl)
@[simp] theorem State.setDcache_xWait (s : State) (v : Tbl Nat) : (s.setDcache v).xWait = s.xWait := (rfl)
@[simp] theorem State.setDcache_xHeld (s : State) (v : Tbl Nat) : (s.setDcache v).xHeld = s.xHeld := (rfl)
@[simp] theorem State.setDcache_routers (s : State) (v : Tbl Nat) : (s.setDcache v).routers = s.routers := (rfl)
@[simp] theorem State.setDcache_portMode (s : State) (v : Tbl Nat) : (s.setDcache v).portMode = s.portMode := (rfl)
@[simp] theorem State.setDcache_portTags (s : State) (v : Tbl Nat) : (s.setDcache v).portTags = s.portTags := (rfl)
@[simp] theorem State.setDcache_portFifo (s : State) (v : Tbl Nat) : (s.setDcache v).portFifo = s.portFifo := (rfl)
@[simp] theorem State.setDcache_dcache (s : State) (v : Tbl Nat) : (s.setDcache v).dcache = v := (rfl)
@[simp] theorem State.setDcache_dir (s : State) (v : Tbl Nat) : (s.setDcache v).dir = s.dir := (rfl)
@[simp] theorem State.setDcache_dieResets (s : State) (v : Tbl Nat) : (s.setDcache v).dieResets = s.dieResets := (rfl)
@[simp] theorem State.setDcache_homeTxn (s : State) (v : Tbl Nat) : (s.setDcache v).homeTxn = s.homeTxn := (rfl)
@[simp] theorem State.setDcache_cores (s : State) (v : Tbl Nat) : (s.setDcache v).cores = s.cores := (rfl)
@[simp] theorem State.setDcache_tngDone (s : State) (v : Tbl Nat) : (s.setDcache v).tngDone = s.tngDone := (rfl)
@[simp] theorem State.setDcache_fab (s : State) (v : Tbl Nat) : (s.setDcache v).fab = s.fab := (rfl)
@[simp] theorem State.setDcache_net (s : State) (v : Tbl Nat) : (s.setDcache v).net = s.net := (rfl)
@[simp] theorem State.setDcache_rtrShare (s : State) (v : Tbl Nat) : (s.setDcache v).rtrShare = s.rtrShare := (rfl)
@[simp] theorem State.setDcache_dbg (s : State) (v : Tbl Nat) : (s.setDcache v).dbg = s.dbg := (rfl)
@[simp] theorem State.setDcache_dcWait (s : State) (v : Tbl Nat) : (s.setDcache v).dcWait = s.dcWait := (rfl)
@[simp] theorem State.setDcache_prcStep (s : State) (v : Tbl Nat) : (s.setDcache v).prcStep = s.prcStep := (rfl)
@[simp] theorem State.setDcache_prcBlank (s : State) (v : Tbl Nat) : (s.setDcache v).prcBlank = s.prcBlank := (rfl)
@[simp] theorem State.setDcache_prcHold (s : State) (v : Tbl Nat) : (s.setDcache v).prcHold = s.prcHold := (rfl)
@[simp] theorem State.setDcache_capWait (s : State) (v : Tbl Nat) : (s.setDcache v).capWait = s.capWait := (rfl)
@[simp] theorem State.setDcache_capture (s : State) (v : Tbl Nat) : (s.setDcache v).capture = s.capture := (rfl)
@[simp] theorem State.setDcache_bramDef (s : State) (v : Tbl Nat) : (s.setDcache v).bramDef = s.bramDef := (rfl)
@[simp] theorem State.setDcache_scrubs (s : State) (v : Tbl Nat) : (s.setDcache v).scrubs = s.scrubs := (rfl)
@[simp] theorem State.setDcache_scrCopy (s : State) (v : Tbl Nat) : (s.setDcache v).scrCopy = s.scrCopy := (rfl)
@[simp] theorem State.setDcache_releases (s : State) (v : Tbl Nat) : (s.setDcache v).releases = s.releases := (rfl)
@[simp] theorem State.setDcache_dieStep (s : State) (v : Tbl Nat) : (s.setDcache v).dieStep = s.dieStep := (rfl)
@[simp] theorem State.setDcache_clampDef (s : State) (v : Tbl Nat) : (s.setDcache v).clampDef = s.clampDef := (rfl)
@[simp] theorem State.setDcache_clamps (s : State) (v : Tbl Nat) : (s.setDcache v).clamps = s.clamps := (rfl)
@[simp] theorem State.setDcache_welds (s : State) (v : Tbl Nat) : (s.setDcache v).welds = s.welds := (rfl)
@[simp] theorem State.setDcache_lanes (s : State) (v : Tbl Nat) : (s.setDcache v).lanes = s.lanes := (rfl)
@[simp] theorem State.setDcache_macMode (s : State) (v : Tbl Nat) : (s.setDcache v).macMode = s.macMode := (rfl)
@[simp] theorem State.setDcache_tod (s : State) (v : Tbl Nat) : (s.setDcache v).tod = s.tod := (rfl)
@[simp] theorem State.setDcache_lkp (s : State) (v : Tbl Nat) : (s.setDcache v).lkp = s.lkp := (rfl)
@[simp] theorem State.setDcache_queues (s : State) (v : Tbl Nat) : (s.setDcache v).queues = s.queues := (rfl)
@[simp] theorem State.setDcache_ports (s : State) (v : Tbl Nat) : (s.setDcache v).ports = s.ports := (rfl)
@[simp] theorem State.setDcache_pkt (s : State) (v : Tbl Nat) : (s.setDcache v).pkt = s.pkt := (rfl)
@[simp] theorem State.setDcache_cxl (s : State) (v : Tbl Nat) : (s.setDcache v).cxl = s.cxl := (rfl)
@[simp] theorem State.setDcache_ddr (s : State) (v : Tbl Nat) : (s.setDcache v).ddr = s.ddr := (rfl)
@[simp] theorem State.setDcache_regions (s : State) (v : Tbl Nat) : (s.setDcache v).regions = s.regions := (rfl)
@[simp] theorem State.setDcache_prots (s : State) (v : Tbl Nat) : (s.setDcache v).prots = s.prots := (rfl)
@[simp] theorem State.setDcache_keyStore (s : State) (v : Tbl Nat) : (s.setDcache v).keyStore = s.keyStore := (rfl)
@[simp] theorem State.setDcache_rings (s : State) (v : Tbl Nat) : (s.setDcache v).rings = s.rings := (rfl)
@[simp] theorem State.setDcache_openMem (s : State) (v : Tbl Nat) : (s.setDcache v).openMem = s.openMem := (rfl)
@[simp] theorem State.setDcache_dcRights (s : State) (v : Tbl Nat) : (s.setDcache v).dcRights = s.dcRights := (rfl)
@[simp] theorem State.setDcache_clk (s : State) (v : Tbl Nat) : (s.setDcache v).clk = s.clk := (rfl)
@[simp] theorem State.setDcache_units (s : State) (v : Tbl Nat) : (s.setDcache v).units = s.units := (rfl)
@[simp] theorem State.setDcache_hearthHit (s : State) (v : Tbl Nat) : (s.setDcache v).hearthHit = s.hearthHit := (rfl)
@[simp] theorem State.setDir_pending (s : State) (v : Tbl DirRec) : (s.setDir v).pending = s.pending := (rfl)
@[simp] theorem State.setDir_regs (s : State) (v : Tbl DirRec) : (s.setDir v).regs = s.regs := (rfl)
@[simp] theorem State.setDir_mem (s : State) (v : Tbl DirRec) : (s.setDir v).mem = s.mem := (rfl)
@[simp] theorem State.setDir_poison (s : State) (v : Tbl DirRec) : (s.setDir v).poison = s.poison := (rfl)
@[simp] theorem State.setDir_fresh (s : State) (v : Tbl DirRec) : (s.setDir v).fresh = s.fresh := (rfl)
@[simp] theorem State.setDir_answer (s : State) (v : Tbl DirRec) : (s.setDir v).answer = s.answer := (rfl)
@[simp] theorem State.setDir_answerStatus (s : State) (v : Tbl DirRec) : (s.setDir v).answerStatus = s.answerStatus := (rfl)
@[simp] theorem State.setDir_book (s : State) (v : Tbl DirRec) : (s.setDir v).book = s.book := (rfl)
@[simp] theorem State.setDir_mgt (s : State) (v : Tbl DirRec) : (s.setDir v).mgt = s.mgt := (rfl)
@[simp] theorem State.setDir_fpFifo (s : State) (v : Tbl DirRec) : (s.setDir v).fpFifo = s.fpFifo := (rfl)
@[simp] theorem State.setDir_evtOnce (s : State) (v : Tbl DirRec) : (s.setDir v).evtOnce = s.evtOnce := (rfl)
@[simp] theorem State.setDir_cycles (s : State) (v : Tbl DirRec) : (s.setDir v).cycles = s.cycles := (rfl)
@[simp] theorem State.setDir_pcie (s : State) (v : Tbl DirRec) : (s.setDir v).pcie = s.pcie := (rfl)
@[simp] theorem State.setDir_sent (s : State) (v : Tbl DirRec) : (s.setDir v).sent = s.sent := (rfl)
@[simp] theorem State.setDir_bw (s : State) (v : Tbl DirRec) : (s.setDir v).bw = s.bw := (rfl)
@[simp] theorem State.setDir_pmcLatch (s : State) (v : Tbl DirRec) : (s.setDir v).pmcLatch = s.pmcLatch := (rfl)
@[simp] theorem State.setDir_cal (s : State) (v : Tbl DirRec) : (s.setDir v).cal = s.cal := (rfl)
@[simp] theorem State.setDir_cfg (s : State) (v : Tbl DirRec) : (s.setDir v).cfg = s.cfg := (rfl)
@[simp] theorem State.setDir_tap (s : State) (v : Tbl DirRec) : (s.setDir v).tap = s.tap := (rfl)
@[simp] theorem State.setDir_pins (s : State) (v : Tbl DirRec) : (s.setDir v).pins = s.pins := (rfl)
@[simp] theorem State.setDir_frames (s : State) (v : Tbl DirRec) : (s.setDir v).frames = s.frames := (rfl)
@[simp] theorem State.setDir_clusters (s : State) (v : Tbl DirRec) : (s.setDir v).clusters = s.clusters := (rfl)
@[simp] theorem State.setDir_ffs (s : State) (v : Tbl DirRec) : (s.setDir v).ffs = s.ffs := (rfl)
@[simp] theorem State.setDir_relStage (s : State) (v : Tbl DirRec) : (s.setDir v).relStage = s.relStage := (rfl)
@[simp] theorem State.setDir_frozen (s : State) (v : Tbl DirRec) : (s.setDir v).frozen = s.frozen := (rfl)
@[simp] theorem State.setDir_bramCfg (s : State) (v : Tbl DirRec) : (s.setDir v).bramCfg = s.bramCfg := (rfl)
@[simp] theorem State.setDir_bram (s : State) (v : Tbl DirRec) : (s.setDir v).bram = s.bram := (rfl)
@[simp] theorem State.setDir_bramPorts (s : State) (v : Tbl DirRec) : (s.setDir v).bramPorts = s.bramPorts := (rfl)
@[simp] theorem State.setDir_multCfg (s : State) (v : Tbl DirRec) : (s.setDir v).multCfg = s.multCfg := (rfl)
@[simp] theorem State.setDir_mults (s : State) (v : Tbl DirRec) : (s.setDir v).mults = s.mults := (rfl)
@[simp] theorem State.setDir_railKeep (s : State) (v : Tbl DirRec) : (s.setDir v).railKeep = s.railKeep := (rfl)
@[simp] theorem State.setDir_chk (s : State) (v : Tbl DirRec) : (s.setDir v).chk = s.chk := (rfl)
@[simp] theorem State.setDir_eccRaw (s : State) (v : Tbl DirRec) : (s.setDir v).eccRaw = s.eccRaw := (rfl)
@[simp] theorem State.setDir_eccScrub (s : State) (v : Tbl DirRec) : (s.setDir v).eccScrub = s.eccScrub := (rfl)
@[simp] theorem State.setDir_tags (s : State) (v : Tbl DirRec) : (s.setDir v).tags = s.tags := (rfl)
@[simp] theorem State.setDir_xUsed (s : State) (v : Tbl DirRec) : (s.setDir v).xUsed = s.xUsed := (rfl)
@[simp] theorem State.setDir_xWait (s : State) (v : Tbl DirRec) : (s.setDir v).xWait = s.xWait := (rfl)
@[simp] theorem State.setDir_xHeld (s : State) (v : Tbl DirRec) : (s.setDir v).xHeld = s.xHeld := (rfl)
@[simp] theorem State.setDir_routers (s : State) (v : Tbl DirRec) : (s.setDir v).routers = s.routers := (rfl)
@[simp] theorem State.setDir_portMode (s : State) (v : Tbl DirRec) : (s.setDir v).portMode = s.portMode := (rfl)
@[simp] theorem State.setDir_portTags (s : State) (v : Tbl DirRec) : (s.setDir v).portTags = s.portTags := (rfl)
@[simp] theorem State.setDir_portFifo (s : State) (v : Tbl DirRec) : (s.setDir v).portFifo = s.portFifo := (rfl)
@[simp] theorem State.setDir_dcache (s : State) (v : Tbl DirRec) : (s.setDir v).dcache = s.dcache := (rfl)
@[simp] theorem State.setDir_dir (s : State) (v : Tbl DirRec) : (s.setDir v).dir = v := (rfl)
@[simp] theorem State.setDir_dieResets (s : State) (v : Tbl DirRec) : (s.setDir v).dieResets = s.dieResets := (rfl)
@[simp] theorem State.setDir_homeTxn (s : State) (v : Tbl DirRec) : (s.setDir v).homeTxn = s.homeTxn := (rfl)
@[simp] theorem State.setDir_cores (s : State) (v : Tbl DirRec) : (s.setDir v).cores = s.cores := (rfl)
@[simp] theorem State.setDir_tngDone (s : State) (v : Tbl DirRec) : (s.setDir v).tngDone = s.tngDone := (rfl)
@[simp] theorem State.setDir_fab (s : State) (v : Tbl DirRec) : (s.setDir v).fab = s.fab := (rfl)
@[simp] theorem State.setDir_net (s : State) (v : Tbl DirRec) : (s.setDir v).net = s.net := (rfl)
@[simp] theorem State.setDir_rtrShare (s : State) (v : Tbl DirRec) : (s.setDir v).rtrShare = s.rtrShare := (rfl)
@[simp] theorem State.setDir_dbg (s : State) (v : Tbl DirRec) : (s.setDir v).dbg = s.dbg := (rfl)
@[simp] theorem State.setDir_dcWait (s : State) (v : Tbl DirRec) : (s.setDir v).dcWait = s.dcWait := (rfl)
@[simp] theorem State.setDir_prcStep (s : State) (v : Tbl DirRec) : (s.setDir v).prcStep = s.prcStep := (rfl)
@[simp] theorem State.setDir_prcBlank (s : State) (v : Tbl DirRec) : (s.setDir v).prcBlank = s.prcBlank := (rfl)
@[simp] theorem State.setDir_prcHold (s : State) (v : Tbl DirRec) : (s.setDir v).prcHold = s.prcHold := (rfl)
@[simp] theorem State.setDir_capWait (s : State) (v : Tbl DirRec) : (s.setDir v).capWait = s.capWait := (rfl)
@[simp] theorem State.setDir_capture (s : State) (v : Tbl DirRec) : (s.setDir v).capture = s.capture := (rfl)
@[simp] theorem State.setDir_bramDef (s : State) (v : Tbl DirRec) : (s.setDir v).bramDef = s.bramDef := (rfl)
@[simp] theorem State.setDir_scrubs (s : State) (v : Tbl DirRec) : (s.setDir v).scrubs = s.scrubs := (rfl)
@[simp] theorem State.setDir_scrCopy (s : State) (v : Tbl DirRec) : (s.setDir v).scrCopy = s.scrCopy := (rfl)
@[simp] theorem State.setDir_releases (s : State) (v : Tbl DirRec) : (s.setDir v).releases = s.releases := (rfl)
@[simp] theorem State.setDir_dieStep (s : State) (v : Tbl DirRec) : (s.setDir v).dieStep = s.dieStep := (rfl)
@[simp] theorem State.setDir_clampDef (s : State) (v : Tbl DirRec) : (s.setDir v).clampDef = s.clampDef := (rfl)
@[simp] theorem State.setDir_clamps (s : State) (v : Tbl DirRec) : (s.setDir v).clamps = s.clamps := (rfl)
@[simp] theorem State.setDir_welds (s : State) (v : Tbl DirRec) : (s.setDir v).welds = s.welds := (rfl)
@[simp] theorem State.setDir_lanes (s : State) (v : Tbl DirRec) : (s.setDir v).lanes = s.lanes := (rfl)
@[simp] theorem State.setDir_macMode (s : State) (v : Tbl DirRec) : (s.setDir v).macMode = s.macMode := (rfl)
@[simp] theorem State.setDir_tod (s : State) (v : Tbl DirRec) : (s.setDir v).tod = s.tod := (rfl)
@[simp] theorem State.setDir_lkp (s : State) (v : Tbl DirRec) : (s.setDir v).lkp = s.lkp := (rfl)
@[simp] theorem State.setDir_queues (s : State) (v : Tbl DirRec) : (s.setDir v).queues = s.queues := (rfl)
@[simp] theorem State.setDir_ports (s : State) (v : Tbl DirRec) : (s.setDir v).ports = s.ports := (rfl)
@[simp] theorem State.setDir_pkt (s : State) (v : Tbl DirRec) : (s.setDir v).pkt = s.pkt := (rfl)
@[simp] theorem State.setDir_cxl (s : State) (v : Tbl DirRec) : (s.setDir v).cxl = s.cxl := (rfl)
@[simp] theorem State.setDir_ddr (s : State) (v : Tbl DirRec) : (s.setDir v).ddr = s.ddr := (rfl)
@[simp] theorem State.setDir_regions (s : State) (v : Tbl DirRec) : (s.setDir v).regions = s.regions := (rfl)
@[simp] theorem State.setDir_prots (s : State) (v : Tbl DirRec) : (s.setDir v).prots = s.prots := (rfl)
@[simp] theorem State.setDir_keyStore (s : State) (v : Tbl DirRec) : (s.setDir v).keyStore = s.keyStore := (rfl)
@[simp] theorem State.setDir_rings (s : State) (v : Tbl DirRec) : (s.setDir v).rings = s.rings := (rfl)
@[simp] theorem State.setDir_openMem (s : State) (v : Tbl DirRec) : (s.setDir v).openMem = s.openMem := (rfl)
@[simp] theorem State.setDir_dcRights (s : State) (v : Tbl DirRec) : (s.setDir v).dcRights = s.dcRights := (rfl)
@[simp] theorem State.setDir_clk (s : State) (v : Tbl DirRec) : (s.setDir v).clk = s.clk := (rfl)
@[simp] theorem State.setDir_units (s : State) (v : Tbl DirRec) : (s.setDir v).units = s.units := (rfl)
@[simp] theorem State.setDir_hearthHit (s : State) (v : Tbl DirRec) : (s.setDir v).hearthHit = s.hearthHit := (rfl)
@[simp] theorem State.setDieResets_pending (s : State) (v : Tbl Nat) : (s.setDieResets v).pending = s.pending := (rfl)
@[simp] theorem State.setDieResets_regs (s : State) (v : Tbl Nat) : (s.setDieResets v).regs = s.regs := (rfl)
@[simp] theorem State.setDieResets_mem (s : State) (v : Tbl Nat) : (s.setDieResets v).mem = s.mem := (rfl)
@[simp] theorem State.setDieResets_poison (s : State) (v : Tbl Nat) : (s.setDieResets v).poison = s.poison := (rfl)
@[simp] theorem State.setDieResets_fresh (s : State) (v : Tbl Nat) : (s.setDieResets v).fresh = s.fresh := (rfl)
@[simp] theorem State.setDieResets_answer (s : State) (v : Tbl Nat) : (s.setDieResets v).answer = s.answer := (rfl)
@[simp] theorem State.setDieResets_answerStatus (s : State) (v : Tbl Nat) : (s.setDieResets v).answerStatus = s.answerStatus := (rfl)
@[simp] theorem State.setDieResets_book (s : State) (v : Tbl Nat) : (s.setDieResets v).book = s.book := (rfl)
@[simp] theorem State.setDieResets_mgt (s : State) (v : Tbl Nat) : (s.setDieResets v).mgt = s.mgt := (rfl)
@[simp] theorem State.setDieResets_fpFifo (s : State) (v : Tbl Nat) : (s.setDieResets v).fpFifo = s.fpFifo := (rfl)
@[simp] theorem State.setDieResets_evtOnce (s : State) (v : Tbl Nat) : (s.setDieResets v).evtOnce = s.evtOnce := (rfl)
@[simp] theorem State.setDieResets_cycles (s : State) (v : Tbl Nat) : (s.setDieResets v).cycles = s.cycles := (rfl)
@[simp] theorem State.setDieResets_pcie (s : State) (v : Tbl Nat) : (s.setDieResets v).pcie = s.pcie := (rfl)
@[simp] theorem State.setDieResets_sent (s : State) (v : Tbl Nat) : (s.setDieResets v).sent = s.sent := (rfl)
@[simp] theorem State.setDieResets_bw (s : State) (v : Tbl Nat) : (s.setDieResets v).bw = s.bw := (rfl)
@[simp] theorem State.setDieResets_pmcLatch (s : State) (v : Tbl Nat) : (s.setDieResets v).pmcLatch = s.pmcLatch := (rfl)
@[simp] theorem State.setDieResets_cal (s : State) (v : Tbl Nat) : (s.setDieResets v).cal = s.cal := (rfl)
@[simp] theorem State.setDieResets_cfg (s : State) (v : Tbl Nat) : (s.setDieResets v).cfg = s.cfg := (rfl)
@[simp] theorem State.setDieResets_tap (s : State) (v : Tbl Nat) : (s.setDieResets v).tap = s.tap := (rfl)
@[simp] theorem State.setDieResets_pins (s : State) (v : Tbl Nat) : (s.setDieResets v).pins = s.pins := (rfl)
@[simp] theorem State.setDieResets_frames (s : State) (v : Tbl Nat) : (s.setDieResets v).frames = s.frames := (rfl)
@[simp] theorem State.setDieResets_clusters (s : State) (v : Tbl Nat) : (s.setDieResets v).clusters = s.clusters := (rfl)
@[simp] theorem State.setDieResets_ffs (s : State) (v : Tbl Nat) : (s.setDieResets v).ffs = s.ffs := (rfl)
@[simp] theorem State.setDieResets_relStage (s : State) (v : Tbl Nat) : (s.setDieResets v).relStage = s.relStage := (rfl)
@[simp] theorem State.setDieResets_frozen (s : State) (v : Tbl Nat) : (s.setDieResets v).frozen = s.frozen := (rfl)
@[simp] theorem State.setDieResets_bramCfg (s : State) (v : Tbl Nat) : (s.setDieResets v).bramCfg = s.bramCfg := (rfl)
@[simp] theorem State.setDieResets_bram (s : State) (v : Tbl Nat) : (s.setDieResets v).bram = s.bram := (rfl)
@[simp] theorem State.setDieResets_bramPorts (s : State) (v : Tbl Nat) : (s.setDieResets v).bramPorts = s.bramPorts := (rfl)
@[simp] theorem State.setDieResets_multCfg (s : State) (v : Tbl Nat) : (s.setDieResets v).multCfg = s.multCfg := (rfl)
@[simp] theorem State.setDieResets_mults (s : State) (v : Tbl Nat) : (s.setDieResets v).mults = s.mults := (rfl)
@[simp] theorem State.setDieResets_railKeep (s : State) (v : Tbl Nat) : (s.setDieResets v).railKeep = s.railKeep := (rfl)
@[simp] theorem State.setDieResets_chk (s : State) (v : Tbl Nat) : (s.setDieResets v).chk = s.chk := (rfl)
@[simp] theorem State.setDieResets_eccRaw (s : State) (v : Tbl Nat) : (s.setDieResets v).eccRaw = s.eccRaw := (rfl)
@[simp] theorem State.setDieResets_eccScrub (s : State) (v : Tbl Nat) : (s.setDieResets v).eccScrub = s.eccScrub := (rfl)
@[simp] theorem State.setDieResets_tags (s : State) (v : Tbl Nat) : (s.setDieResets v).tags = s.tags := (rfl)
@[simp] theorem State.setDieResets_xUsed (s : State) (v : Tbl Nat) : (s.setDieResets v).xUsed = s.xUsed := (rfl)
@[simp] theorem State.setDieResets_xWait (s : State) (v : Tbl Nat) : (s.setDieResets v).xWait = s.xWait := (rfl)
@[simp] theorem State.setDieResets_xHeld (s : State) (v : Tbl Nat) : (s.setDieResets v).xHeld = s.xHeld := (rfl)
@[simp] theorem State.setDieResets_routers (s : State) (v : Tbl Nat) : (s.setDieResets v).routers = s.routers := (rfl)
@[simp] theorem State.setDieResets_portMode (s : State) (v : Tbl Nat) : (s.setDieResets v).portMode = s.portMode := (rfl)
@[simp] theorem State.setDieResets_portTags (s : State) (v : Tbl Nat) : (s.setDieResets v).portTags = s.portTags := (rfl)
@[simp] theorem State.setDieResets_portFifo (s : State) (v : Tbl Nat) : (s.setDieResets v).portFifo = s.portFifo := (rfl)
@[simp] theorem State.setDieResets_dcache (s : State) (v : Tbl Nat) : (s.setDieResets v).dcache = s.dcache := (rfl)
@[simp] theorem State.setDieResets_dir (s : State) (v : Tbl Nat) : (s.setDieResets v).dir = s.dir := (rfl)
@[simp] theorem State.setDieResets_dieResets (s : State) (v : Tbl Nat) : (s.setDieResets v).dieResets = v := (rfl)
@[simp] theorem State.setDieResets_homeTxn (s : State) (v : Tbl Nat) : (s.setDieResets v).homeTxn = s.homeTxn := (rfl)
@[simp] theorem State.setDieResets_cores (s : State) (v : Tbl Nat) : (s.setDieResets v).cores = s.cores := (rfl)
@[simp] theorem State.setDieResets_tngDone (s : State) (v : Tbl Nat) : (s.setDieResets v).tngDone = s.tngDone := (rfl)
@[simp] theorem State.setDieResets_fab (s : State) (v : Tbl Nat) : (s.setDieResets v).fab = s.fab := (rfl)
@[simp] theorem State.setDieResets_net (s : State) (v : Tbl Nat) : (s.setDieResets v).net = s.net := (rfl)
@[simp] theorem State.setDieResets_rtrShare (s : State) (v : Tbl Nat) : (s.setDieResets v).rtrShare = s.rtrShare := (rfl)
@[simp] theorem State.setDieResets_dbg (s : State) (v : Tbl Nat) : (s.setDieResets v).dbg = s.dbg := (rfl)
@[simp] theorem State.setDieResets_dcWait (s : State) (v : Tbl Nat) : (s.setDieResets v).dcWait = s.dcWait := (rfl)
@[simp] theorem State.setDieResets_prcStep (s : State) (v : Tbl Nat) : (s.setDieResets v).prcStep = s.prcStep := (rfl)
@[simp] theorem State.setDieResets_prcBlank (s : State) (v : Tbl Nat) : (s.setDieResets v).prcBlank = s.prcBlank := (rfl)
@[simp] theorem State.setDieResets_prcHold (s : State) (v : Tbl Nat) : (s.setDieResets v).prcHold = s.prcHold := (rfl)
@[simp] theorem State.setDieResets_capWait (s : State) (v : Tbl Nat) : (s.setDieResets v).capWait = s.capWait := (rfl)
@[simp] theorem State.setDieResets_capture (s : State) (v : Tbl Nat) : (s.setDieResets v).capture = s.capture := (rfl)
@[simp] theorem State.setDieResets_bramDef (s : State) (v : Tbl Nat) : (s.setDieResets v).bramDef = s.bramDef := (rfl)
@[simp] theorem State.setDieResets_scrubs (s : State) (v : Tbl Nat) : (s.setDieResets v).scrubs = s.scrubs := (rfl)
@[simp] theorem State.setDieResets_scrCopy (s : State) (v : Tbl Nat) : (s.setDieResets v).scrCopy = s.scrCopy := (rfl)
@[simp] theorem State.setDieResets_releases (s : State) (v : Tbl Nat) : (s.setDieResets v).releases = s.releases := (rfl)
@[simp] theorem State.setDieResets_dieStep (s : State) (v : Tbl Nat) : (s.setDieResets v).dieStep = s.dieStep := (rfl)
@[simp] theorem State.setDieResets_clampDef (s : State) (v : Tbl Nat) : (s.setDieResets v).clampDef = s.clampDef := (rfl)
@[simp] theorem State.setDieResets_clamps (s : State) (v : Tbl Nat) : (s.setDieResets v).clamps = s.clamps := (rfl)
@[simp] theorem State.setDieResets_welds (s : State) (v : Tbl Nat) : (s.setDieResets v).welds = s.welds := (rfl)
@[simp] theorem State.setDieResets_lanes (s : State) (v : Tbl Nat) : (s.setDieResets v).lanes = s.lanes := (rfl)
@[simp] theorem State.setDieResets_macMode (s : State) (v : Tbl Nat) : (s.setDieResets v).macMode = s.macMode := (rfl)
@[simp] theorem State.setDieResets_tod (s : State) (v : Tbl Nat) : (s.setDieResets v).tod = s.tod := (rfl)
@[simp] theorem State.setDieResets_lkp (s : State) (v : Tbl Nat) : (s.setDieResets v).lkp = s.lkp := (rfl)
@[simp] theorem State.setDieResets_queues (s : State) (v : Tbl Nat) : (s.setDieResets v).queues = s.queues := (rfl)
@[simp] theorem State.setDieResets_ports (s : State) (v : Tbl Nat) : (s.setDieResets v).ports = s.ports := (rfl)
@[simp] theorem State.setDieResets_pkt (s : State) (v : Tbl Nat) : (s.setDieResets v).pkt = s.pkt := (rfl)
@[simp] theorem State.setDieResets_cxl (s : State) (v : Tbl Nat) : (s.setDieResets v).cxl = s.cxl := (rfl)
@[simp] theorem State.setDieResets_ddr (s : State) (v : Tbl Nat) : (s.setDieResets v).ddr = s.ddr := (rfl)
@[simp] theorem State.setDieResets_regions (s : State) (v : Tbl Nat) : (s.setDieResets v).regions = s.regions := (rfl)
@[simp] theorem State.setDieResets_prots (s : State) (v : Tbl Nat) : (s.setDieResets v).prots = s.prots := (rfl)
@[simp] theorem State.setDieResets_keyStore (s : State) (v : Tbl Nat) : (s.setDieResets v).keyStore = s.keyStore := (rfl)
@[simp] theorem State.setDieResets_rings (s : State) (v : Tbl Nat) : (s.setDieResets v).rings = s.rings := (rfl)
@[simp] theorem State.setDieResets_openMem (s : State) (v : Tbl Nat) : (s.setDieResets v).openMem = s.openMem := (rfl)
@[simp] theorem State.setDieResets_dcRights (s : State) (v : Tbl Nat) : (s.setDieResets v).dcRights = s.dcRights := (rfl)
@[simp] theorem State.setDieResets_clk (s : State) (v : Tbl Nat) : (s.setDieResets v).clk = s.clk := (rfl)
@[simp] theorem State.setDieResets_units (s : State) (v : Tbl Nat) : (s.setDieResets v).units = s.units := (rfl)
@[simp] theorem State.setDieResets_hearthHit (s : State) (v : Tbl Nat) : (s.setDieResets v).hearthHit = s.hearthHit := (rfl)
@[simp] theorem State.setHomeTxn_pending (s : State) (v : Tbl HomeTxn) : (s.setHomeTxn v).pending = s.pending := (rfl)
@[simp] theorem State.setHomeTxn_regs (s : State) (v : Tbl HomeTxn) : (s.setHomeTxn v).regs = s.regs := (rfl)
@[simp] theorem State.setHomeTxn_mem (s : State) (v : Tbl HomeTxn) : (s.setHomeTxn v).mem = s.mem := (rfl)
@[simp] theorem State.setHomeTxn_poison (s : State) (v : Tbl HomeTxn) : (s.setHomeTxn v).poison = s.poison := (rfl)
@[simp] theorem State.setHomeTxn_fresh (s : State) (v : Tbl HomeTxn) : (s.setHomeTxn v).fresh = s.fresh := (rfl)
@[simp] theorem State.setHomeTxn_answer (s : State) (v : Tbl HomeTxn) : (s.setHomeTxn v).answer = s.answer := (rfl)
@[simp] theorem State.setHomeTxn_answerStatus (s : State) (v : Tbl HomeTxn) : (s.setHomeTxn v).answerStatus = s.answerStatus := (rfl)
@[simp] theorem State.setHomeTxn_book (s : State) (v : Tbl HomeTxn) : (s.setHomeTxn v).book = s.book := (rfl)
@[simp] theorem State.setHomeTxn_mgt (s : State) (v : Tbl HomeTxn) : (s.setHomeTxn v).mgt = s.mgt := (rfl)
@[simp] theorem State.setHomeTxn_fpFifo (s : State) (v : Tbl HomeTxn) : (s.setHomeTxn v).fpFifo = s.fpFifo := (rfl)
@[simp] theorem State.setHomeTxn_evtOnce (s : State) (v : Tbl HomeTxn) : (s.setHomeTxn v).evtOnce = s.evtOnce := (rfl)
@[simp] theorem State.setHomeTxn_cycles (s : State) (v : Tbl HomeTxn) : (s.setHomeTxn v).cycles = s.cycles := (rfl)
@[simp] theorem State.setHomeTxn_pcie (s : State) (v : Tbl HomeTxn) : (s.setHomeTxn v).pcie = s.pcie := (rfl)
@[simp] theorem State.setHomeTxn_sent (s : State) (v : Tbl HomeTxn) : (s.setHomeTxn v).sent = s.sent := (rfl)
@[simp] theorem State.setHomeTxn_bw (s : State) (v : Tbl HomeTxn) : (s.setHomeTxn v).bw = s.bw := (rfl)
@[simp] theorem State.setHomeTxn_pmcLatch (s : State) (v : Tbl HomeTxn) : (s.setHomeTxn v).pmcLatch = s.pmcLatch := (rfl)
@[simp] theorem State.setHomeTxn_cal (s : State) (v : Tbl HomeTxn) : (s.setHomeTxn v).cal = s.cal := (rfl)
@[simp] theorem State.setHomeTxn_cfg (s : State) (v : Tbl HomeTxn) : (s.setHomeTxn v).cfg = s.cfg := (rfl)
@[simp] theorem State.setHomeTxn_tap (s : State) (v : Tbl HomeTxn) : (s.setHomeTxn v).tap = s.tap := (rfl)
@[simp] theorem State.setHomeTxn_pins (s : State) (v : Tbl HomeTxn) : (s.setHomeTxn v).pins = s.pins := (rfl)
@[simp] theorem State.setHomeTxn_frames (s : State) (v : Tbl HomeTxn) : (s.setHomeTxn v).frames = s.frames := (rfl)
@[simp] theorem State.setHomeTxn_clusters (s : State) (v : Tbl HomeTxn) : (s.setHomeTxn v).clusters = s.clusters := (rfl)
@[simp] theorem State.setHomeTxn_ffs (s : State) (v : Tbl HomeTxn) : (s.setHomeTxn v).ffs = s.ffs := (rfl)
@[simp] theorem State.setHomeTxn_relStage (s : State) (v : Tbl HomeTxn) : (s.setHomeTxn v).relStage = s.relStage := (rfl)
@[simp] theorem State.setHomeTxn_frozen (s : State) (v : Tbl HomeTxn) : (s.setHomeTxn v).frozen = s.frozen := (rfl)
@[simp] theorem State.setHomeTxn_bramCfg (s : State) (v : Tbl HomeTxn) : (s.setHomeTxn v).bramCfg = s.bramCfg := (rfl)
@[simp] theorem State.setHomeTxn_bram (s : State) (v : Tbl HomeTxn) : (s.setHomeTxn v).bram = s.bram := (rfl)
@[simp] theorem State.setHomeTxn_bramPorts (s : State) (v : Tbl HomeTxn) : (s.setHomeTxn v).bramPorts = s.bramPorts := (rfl)
@[simp] theorem State.setHomeTxn_multCfg (s : State) (v : Tbl HomeTxn) : (s.setHomeTxn v).multCfg = s.multCfg := (rfl)
@[simp] theorem State.setHomeTxn_mults (s : State) (v : Tbl HomeTxn) : (s.setHomeTxn v).mults = s.mults := (rfl)
@[simp] theorem State.setHomeTxn_railKeep (s : State) (v : Tbl HomeTxn) : (s.setHomeTxn v).railKeep = s.railKeep := (rfl)
@[simp] theorem State.setHomeTxn_chk (s : State) (v : Tbl HomeTxn) : (s.setHomeTxn v).chk = s.chk := (rfl)
@[simp] theorem State.setHomeTxn_eccRaw (s : State) (v : Tbl HomeTxn) : (s.setHomeTxn v).eccRaw = s.eccRaw := (rfl)
@[simp] theorem State.setHomeTxn_eccScrub (s : State) (v : Tbl HomeTxn) : (s.setHomeTxn v).eccScrub = s.eccScrub := (rfl)
@[simp] theorem State.setHomeTxn_tags (s : State) (v : Tbl HomeTxn) : (s.setHomeTxn v).tags = s.tags := (rfl)
@[simp] theorem State.setHomeTxn_xUsed (s : State) (v : Tbl HomeTxn) : (s.setHomeTxn v).xUsed = s.xUsed := (rfl)
@[simp] theorem State.setHomeTxn_xWait (s : State) (v : Tbl HomeTxn) : (s.setHomeTxn v).xWait = s.xWait := (rfl)
@[simp] theorem State.setHomeTxn_xHeld (s : State) (v : Tbl HomeTxn) : (s.setHomeTxn v).xHeld = s.xHeld := (rfl)
@[simp] theorem State.setHomeTxn_routers (s : State) (v : Tbl HomeTxn) : (s.setHomeTxn v).routers = s.routers := (rfl)
@[simp] theorem State.setHomeTxn_portMode (s : State) (v : Tbl HomeTxn) : (s.setHomeTxn v).portMode = s.portMode := (rfl)
@[simp] theorem State.setHomeTxn_portTags (s : State) (v : Tbl HomeTxn) : (s.setHomeTxn v).portTags = s.portTags := (rfl)
@[simp] theorem State.setHomeTxn_portFifo (s : State) (v : Tbl HomeTxn) : (s.setHomeTxn v).portFifo = s.portFifo := (rfl)
@[simp] theorem State.setHomeTxn_dcache (s : State) (v : Tbl HomeTxn) : (s.setHomeTxn v).dcache = s.dcache := (rfl)
@[simp] theorem State.setHomeTxn_dir (s : State) (v : Tbl HomeTxn) : (s.setHomeTxn v).dir = s.dir := (rfl)
@[simp] theorem State.setHomeTxn_dieResets (s : State) (v : Tbl HomeTxn) : (s.setHomeTxn v).dieResets = s.dieResets := (rfl)
@[simp] theorem State.setHomeTxn_homeTxn (s : State) (v : Tbl HomeTxn) : (s.setHomeTxn v).homeTxn = v := (rfl)
@[simp] theorem State.setHomeTxn_cores (s : State) (v : Tbl HomeTxn) : (s.setHomeTxn v).cores = s.cores := (rfl)
@[simp] theorem State.setHomeTxn_tngDone (s : State) (v : Tbl HomeTxn) : (s.setHomeTxn v).tngDone = s.tngDone := (rfl)
@[simp] theorem State.setHomeTxn_fab (s : State) (v : Tbl HomeTxn) : (s.setHomeTxn v).fab = s.fab := (rfl)
@[simp] theorem State.setHomeTxn_net (s : State) (v : Tbl HomeTxn) : (s.setHomeTxn v).net = s.net := (rfl)
@[simp] theorem State.setHomeTxn_rtrShare (s : State) (v : Tbl HomeTxn) : (s.setHomeTxn v).rtrShare = s.rtrShare := (rfl)
@[simp] theorem State.setHomeTxn_dbg (s : State) (v : Tbl HomeTxn) : (s.setHomeTxn v).dbg = s.dbg := (rfl)
@[simp] theorem State.setHomeTxn_dcWait (s : State) (v : Tbl HomeTxn) : (s.setHomeTxn v).dcWait = s.dcWait := (rfl)
@[simp] theorem State.setHomeTxn_prcStep (s : State) (v : Tbl HomeTxn) : (s.setHomeTxn v).prcStep = s.prcStep := (rfl)
@[simp] theorem State.setHomeTxn_prcBlank (s : State) (v : Tbl HomeTxn) : (s.setHomeTxn v).prcBlank = s.prcBlank := (rfl)
@[simp] theorem State.setHomeTxn_prcHold (s : State) (v : Tbl HomeTxn) : (s.setHomeTxn v).prcHold = s.prcHold := (rfl)
@[simp] theorem State.setHomeTxn_capWait (s : State) (v : Tbl HomeTxn) : (s.setHomeTxn v).capWait = s.capWait := (rfl)
@[simp] theorem State.setHomeTxn_capture (s : State) (v : Tbl HomeTxn) : (s.setHomeTxn v).capture = s.capture := (rfl)
@[simp] theorem State.setHomeTxn_bramDef (s : State) (v : Tbl HomeTxn) : (s.setHomeTxn v).bramDef = s.bramDef := (rfl)
@[simp] theorem State.setHomeTxn_scrubs (s : State) (v : Tbl HomeTxn) : (s.setHomeTxn v).scrubs = s.scrubs := (rfl)
@[simp] theorem State.setHomeTxn_scrCopy (s : State) (v : Tbl HomeTxn) : (s.setHomeTxn v).scrCopy = s.scrCopy := (rfl)
@[simp] theorem State.setHomeTxn_releases (s : State) (v : Tbl HomeTxn) : (s.setHomeTxn v).releases = s.releases := (rfl)
@[simp] theorem State.setHomeTxn_dieStep (s : State) (v : Tbl HomeTxn) : (s.setHomeTxn v).dieStep = s.dieStep := (rfl)
@[simp] theorem State.setHomeTxn_clampDef (s : State) (v : Tbl HomeTxn) : (s.setHomeTxn v).clampDef = s.clampDef := (rfl)
@[simp] theorem State.setHomeTxn_clamps (s : State) (v : Tbl HomeTxn) : (s.setHomeTxn v).clamps = s.clamps := (rfl)
@[simp] theorem State.setHomeTxn_welds (s : State) (v : Tbl HomeTxn) : (s.setHomeTxn v).welds = s.welds := (rfl)
@[simp] theorem State.setHomeTxn_lanes (s : State) (v : Tbl HomeTxn) : (s.setHomeTxn v).lanes = s.lanes := (rfl)
@[simp] theorem State.setHomeTxn_macMode (s : State) (v : Tbl HomeTxn) : (s.setHomeTxn v).macMode = s.macMode := (rfl)
@[simp] theorem State.setHomeTxn_tod (s : State) (v : Tbl HomeTxn) : (s.setHomeTxn v).tod = s.tod := (rfl)
@[simp] theorem State.setHomeTxn_lkp (s : State) (v : Tbl HomeTxn) : (s.setHomeTxn v).lkp = s.lkp := (rfl)
@[simp] theorem State.setHomeTxn_queues (s : State) (v : Tbl HomeTxn) : (s.setHomeTxn v).queues = s.queues := (rfl)
@[simp] theorem State.setHomeTxn_ports (s : State) (v : Tbl HomeTxn) : (s.setHomeTxn v).ports = s.ports := (rfl)
@[simp] theorem State.setHomeTxn_pkt (s : State) (v : Tbl HomeTxn) : (s.setHomeTxn v).pkt = s.pkt := (rfl)
@[simp] theorem State.setHomeTxn_cxl (s : State) (v : Tbl HomeTxn) : (s.setHomeTxn v).cxl = s.cxl := (rfl)
@[simp] theorem State.setHomeTxn_ddr (s : State) (v : Tbl HomeTxn) : (s.setHomeTxn v).ddr = s.ddr := (rfl)
@[simp] theorem State.setHomeTxn_regions (s : State) (v : Tbl HomeTxn) : (s.setHomeTxn v).regions = s.regions := (rfl)
@[simp] theorem State.setHomeTxn_prots (s : State) (v : Tbl HomeTxn) : (s.setHomeTxn v).prots = s.prots := (rfl)
@[simp] theorem State.setHomeTxn_keyStore (s : State) (v : Tbl HomeTxn) : (s.setHomeTxn v).keyStore = s.keyStore := (rfl)
@[simp] theorem State.setHomeTxn_rings (s : State) (v : Tbl HomeTxn) : (s.setHomeTxn v).rings = s.rings := (rfl)
@[simp] theorem State.setHomeTxn_openMem (s : State) (v : Tbl HomeTxn) : (s.setHomeTxn v).openMem = s.openMem := (rfl)
@[simp] theorem State.setHomeTxn_dcRights (s : State) (v : Tbl HomeTxn) : (s.setHomeTxn v).dcRights = s.dcRights := (rfl)
@[simp] theorem State.setHomeTxn_clk (s : State) (v : Tbl HomeTxn) : (s.setHomeTxn v).clk = s.clk := (rfl)
@[simp] theorem State.setHomeTxn_units (s : State) (v : Tbl HomeTxn) : (s.setHomeTxn v).units = s.units := (rfl)
@[simp] theorem State.setHomeTxn_hearthHit (s : State) (v : Tbl HomeTxn) : (s.setHomeTxn v).hearthHit = s.hearthHit := (rfl)
@[simp] theorem State.setCores_pending (s : State) (v : Tbl Core) : (s.setCores v).pending = s.pending := (rfl)
@[simp] theorem State.setCores_regs (s : State) (v : Tbl Core) : (s.setCores v).regs = s.regs := (rfl)
@[simp] theorem State.setCores_mem (s : State) (v : Tbl Core) : (s.setCores v).mem = s.mem := (rfl)
@[simp] theorem State.setCores_poison (s : State) (v : Tbl Core) : (s.setCores v).poison = s.poison := (rfl)
@[simp] theorem State.setCores_fresh (s : State) (v : Tbl Core) : (s.setCores v).fresh = s.fresh := (rfl)
@[simp] theorem State.setCores_answer (s : State) (v : Tbl Core) : (s.setCores v).answer = s.answer := (rfl)
@[simp] theorem State.setCores_answerStatus (s : State) (v : Tbl Core) : (s.setCores v).answerStatus = s.answerStatus := (rfl)
@[simp] theorem State.setCores_book (s : State) (v : Tbl Core) : (s.setCores v).book = s.book := (rfl)
@[simp] theorem State.setCores_mgt (s : State) (v : Tbl Core) : (s.setCores v).mgt = s.mgt := (rfl)
@[simp] theorem State.setCores_fpFifo (s : State) (v : Tbl Core) : (s.setCores v).fpFifo = s.fpFifo := (rfl)
@[simp] theorem State.setCores_evtOnce (s : State) (v : Tbl Core) : (s.setCores v).evtOnce = s.evtOnce := (rfl)
@[simp] theorem State.setCores_cycles (s : State) (v : Tbl Core) : (s.setCores v).cycles = s.cycles := (rfl)
@[simp] theorem State.setCores_pcie (s : State) (v : Tbl Core) : (s.setCores v).pcie = s.pcie := (rfl)
@[simp] theorem State.setCores_sent (s : State) (v : Tbl Core) : (s.setCores v).sent = s.sent := (rfl)
@[simp] theorem State.setCores_bw (s : State) (v : Tbl Core) : (s.setCores v).bw = s.bw := (rfl)
@[simp] theorem State.setCores_pmcLatch (s : State) (v : Tbl Core) : (s.setCores v).pmcLatch = s.pmcLatch := (rfl)
@[simp] theorem State.setCores_cal (s : State) (v : Tbl Core) : (s.setCores v).cal = s.cal := (rfl)
@[simp] theorem State.setCores_cfg (s : State) (v : Tbl Core) : (s.setCores v).cfg = s.cfg := (rfl)
@[simp] theorem State.setCores_tap (s : State) (v : Tbl Core) : (s.setCores v).tap = s.tap := (rfl)
@[simp] theorem State.setCores_pins (s : State) (v : Tbl Core) : (s.setCores v).pins = s.pins := (rfl)
@[simp] theorem State.setCores_frames (s : State) (v : Tbl Core) : (s.setCores v).frames = s.frames := (rfl)
@[simp] theorem State.setCores_clusters (s : State) (v : Tbl Core) : (s.setCores v).clusters = s.clusters := (rfl)
@[simp] theorem State.setCores_ffs (s : State) (v : Tbl Core) : (s.setCores v).ffs = s.ffs := (rfl)
@[simp] theorem State.setCores_relStage (s : State) (v : Tbl Core) : (s.setCores v).relStage = s.relStage := (rfl)
@[simp] theorem State.setCores_frozen (s : State) (v : Tbl Core) : (s.setCores v).frozen = s.frozen := (rfl)
@[simp] theorem State.setCores_bramCfg (s : State) (v : Tbl Core) : (s.setCores v).bramCfg = s.bramCfg := (rfl)
@[simp] theorem State.setCores_bram (s : State) (v : Tbl Core) : (s.setCores v).bram = s.bram := (rfl)
@[simp] theorem State.setCores_bramPorts (s : State) (v : Tbl Core) : (s.setCores v).bramPorts = s.bramPorts := (rfl)
@[simp] theorem State.setCores_multCfg (s : State) (v : Tbl Core) : (s.setCores v).multCfg = s.multCfg := (rfl)
@[simp] theorem State.setCores_mults (s : State) (v : Tbl Core) : (s.setCores v).mults = s.mults := (rfl)
@[simp] theorem State.setCores_railKeep (s : State) (v : Tbl Core) : (s.setCores v).railKeep = s.railKeep := (rfl)
@[simp] theorem State.setCores_chk (s : State) (v : Tbl Core) : (s.setCores v).chk = s.chk := (rfl)
@[simp] theorem State.setCores_eccRaw (s : State) (v : Tbl Core) : (s.setCores v).eccRaw = s.eccRaw := (rfl)
@[simp] theorem State.setCores_eccScrub (s : State) (v : Tbl Core) : (s.setCores v).eccScrub = s.eccScrub := (rfl)
@[simp] theorem State.setCores_tags (s : State) (v : Tbl Core) : (s.setCores v).tags = s.tags := (rfl)
@[simp] theorem State.setCores_xUsed (s : State) (v : Tbl Core) : (s.setCores v).xUsed = s.xUsed := (rfl)
@[simp] theorem State.setCores_xWait (s : State) (v : Tbl Core) : (s.setCores v).xWait = s.xWait := (rfl)
@[simp] theorem State.setCores_xHeld (s : State) (v : Tbl Core) : (s.setCores v).xHeld = s.xHeld := (rfl)
@[simp] theorem State.setCores_routers (s : State) (v : Tbl Core) : (s.setCores v).routers = s.routers := (rfl)
@[simp] theorem State.setCores_portMode (s : State) (v : Tbl Core) : (s.setCores v).portMode = s.portMode := (rfl)
@[simp] theorem State.setCores_portTags (s : State) (v : Tbl Core) : (s.setCores v).portTags = s.portTags := (rfl)
@[simp] theorem State.setCores_portFifo (s : State) (v : Tbl Core) : (s.setCores v).portFifo = s.portFifo := (rfl)
@[simp] theorem State.setCores_dcache (s : State) (v : Tbl Core) : (s.setCores v).dcache = s.dcache := (rfl)
@[simp] theorem State.setCores_dir (s : State) (v : Tbl Core) : (s.setCores v).dir = s.dir := (rfl)
@[simp] theorem State.setCores_dieResets (s : State) (v : Tbl Core) : (s.setCores v).dieResets = s.dieResets := (rfl)
@[simp] theorem State.setCores_homeTxn (s : State) (v : Tbl Core) : (s.setCores v).homeTxn = s.homeTxn := (rfl)
@[simp] theorem State.setCores_cores (s : State) (v : Tbl Core) : (s.setCores v).cores = v := (rfl)
@[simp] theorem State.setCores_tngDone (s : State) (v : Tbl Core) : (s.setCores v).tngDone = s.tngDone := (rfl)
@[simp] theorem State.setCores_fab (s : State) (v : Tbl Core) : (s.setCores v).fab = s.fab := (rfl)
@[simp] theorem State.setCores_net (s : State) (v : Tbl Core) : (s.setCores v).net = s.net := (rfl)
@[simp] theorem State.setCores_rtrShare (s : State) (v : Tbl Core) : (s.setCores v).rtrShare = s.rtrShare := (rfl)
@[simp] theorem State.setCores_dbg (s : State) (v : Tbl Core) : (s.setCores v).dbg = s.dbg := (rfl)
@[simp] theorem State.setCores_dcWait (s : State) (v : Tbl Core) : (s.setCores v).dcWait = s.dcWait := (rfl)
@[simp] theorem State.setCores_prcStep (s : State) (v : Tbl Core) : (s.setCores v).prcStep = s.prcStep := (rfl)
@[simp] theorem State.setCores_prcBlank (s : State) (v : Tbl Core) : (s.setCores v).prcBlank = s.prcBlank := (rfl)
@[simp] theorem State.setCores_prcHold (s : State) (v : Tbl Core) : (s.setCores v).prcHold = s.prcHold := (rfl)
@[simp] theorem State.setCores_capWait (s : State) (v : Tbl Core) : (s.setCores v).capWait = s.capWait := (rfl)
@[simp] theorem State.setCores_capture (s : State) (v : Tbl Core) : (s.setCores v).capture = s.capture := (rfl)
@[simp] theorem State.setCores_bramDef (s : State) (v : Tbl Core) : (s.setCores v).bramDef = s.bramDef := (rfl)
@[simp] theorem State.setCores_scrubs (s : State) (v : Tbl Core) : (s.setCores v).scrubs = s.scrubs := (rfl)
@[simp] theorem State.setCores_scrCopy (s : State) (v : Tbl Core) : (s.setCores v).scrCopy = s.scrCopy := (rfl)
@[simp] theorem State.setCores_releases (s : State) (v : Tbl Core) : (s.setCores v).releases = s.releases := (rfl)
@[simp] theorem State.setCores_dieStep (s : State) (v : Tbl Core) : (s.setCores v).dieStep = s.dieStep := (rfl)
@[simp] theorem State.setCores_clampDef (s : State) (v : Tbl Core) : (s.setCores v).clampDef = s.clampDef := (rfl)
@[simp] theorem State.setCores_clamps (s : State) (v : Tbl Core) : (s.setCores v).clamps = s.clamps := (rfl)
@[simp] theorem State.setCores_welds (s : State) (v : Tbl Core) : (s.setCores v).welds = s.welds := (rfl)
@[simp] theorem State.setCores_lanes (s : State) (v : Tbl Core) : (s.setCores v).lanes = s.lanes := (rfl)
@[simp] theorem State.setCores_macMode (s : State) (v : Tbl Core) : (s.setCores v).macMode = s.macMode := (rfl)
@[simp] theorem State.setCores_tod (s : State) (v : Tbl Core) : (s.setCores v).tod = s.tod := (rfl)
@[simp] theorem State.setCores_lkp (s : State) (v : Tbl Core) : (s.setCores v).lkp = s.lkp := (rfl)
@[simp] theorem State.setCores_queues (s : State) (v : Tbl Core) : (s.setCores v).queues = s.queues := (rfl)
@[simp] theorem State.setCores_ports (s : State) (v : Tbl Core) : (s.setCores v).ports = s.ports := (rfl)
@[simp] theorem State.setCores_pkt (s : State) (v : Tbl Core) : (s.setCores v).pkt = s.pkt := (rfl)
@[simp] theorem State.setCores_cxl (s : State) (v : Tbl Core) : (s.setCores v).cxl = s.cxl := (rfl)
@[simp] theorem State.setCores_ddr (s : State) (v : Tbl Core) : (s.setCores v).ddr = s.ddr := (rfl)
@[simp] theorem State.setCores_regions (s : State) (v : Tbl Core) : (s.setCores v).regions = s.regions := (rfl)
@[simp] theorem State.setCores_prots (s : State) (v : Tbl Core) : (s.setCores v).prots = s.prots := (rfl)
@[simp] theorem State.setCores_keyStore (s : State) (v : Tbl Core) : (s.setCores v).keyStore = s.keyStore := (rfl)
@[simp] theorem State.setCores_rings (s : State) (v : Tbl Core) : (s.setCores v).rings = s.rings := (rfl)
@[simp] theorem State.setCores_openMem (s : State) (v : Tbl Core) : (s.setCores v).openMem = s.openMem := (rfl)
@[simp] theorem State.setCores_dcRights (s : State) (v : Tbl Core) : (s.setCores v).dcRights = s.dcRights := (rfl)
@[simp] theorem State.setCores_clk (s : State) (v : Tbl Core) : (s.setCores v).clk = s.clk := (rfl)
@[simp] theorem State.setCores_units (s : State) (v : Tbl Core) : (s.setCores v).units = s.units := (rfl)
@[simp] theorem State.setCores_hearthHit (s : State) (v : Tbl Core) : (s.setCores v).hearthHit = s.hearthHit := (rfl)
@[simp] theorem State.setTngDone_pending (s : State) (v : Tbl Nat) : (s.setTngDone v).pending = s.pending := (rfl)
@[simp] theorem State.setTngDone_regs (s : State) (v : Tbl Nat) : (s.setTngDone v).regs = s.regs := (rfl)
@[simp] theorem State.setTngDone_mem (s : State) (v : Tbl Nat) : (s.setTngDone v).mem = s.mem := (rfl)
@[simp] theorem State.setTngDone_poison (s : State) (v : Tbl Nat) : (s.setTngDone v).poison = s.poison := (rfl)
@[simp] theorem State.setTngDone_fresh (s : State) (v : Tbl Nat) : (s.setTngDone v).fresh = s.fresh := (rfl)
@[simp] theorem State.setTngDone_answer (s : State) (v : Tbl Nat) : (s.setTngDone v).answer = s.answer := (rfl)
@[simp] theorem State.setTngDone_answerStatus (s : State) (v : Tbl Nat) : (s.setTngDone v).answerStatus = s.answerStatus := (rfl)
@[simp] theorem State.setTngDone_book (s : State) (v : Tbl Nat) : (s.setTngDone v).book = s.book := (rfl)
@[simp] theorem State.setTngDone_mgt (s : State) (v : Tbl Nat) : (s.setTngDone v).mgt = s.mgt := (rfl)
@[simp] theorem State.setTngDone_fpFifo (s : State) (v : Tbl Nat) : (s.setTngDone v).fpFifo = s.fpFifo := (rfl)
@[simp] theorem State.setTngDone_evtOnce (s : State) (v : Tbl Nat) : (s.setTngDone v).evtOnce = s.evtOnce := (rfl)
@[simp] theorem State.setTngDone_cycles (s : State) (v : Tbl Nat) : (s.setTngDone v).cycles = s.cycles := (rfl)
@[simp] theorem State.setTngDone_pcie (s : State) (v : Tbl Nat) : (s.setTngDone v).pcie = s.pcie := (rfl)
@[simp] theorem State.setTngDone_sent (s : State) (v : Tbl Nat) : (s.setTngDone v).sent = s.sent := (rfl)
@[simp] theorem State.setTngDone_bw (s : State) (v : Tbl Nat) : (s.setTngDone v).bw = s.bw := (rfl)
@[simp] theorem State.setTngDone_pmcLatch (s : State) (v : Tbl Nat) : (s.setTngDone v).pmcLatch = s.pmcLatch := (rfl)
@[simp] theorem State.setTngDone_cal (s : State) (v : Tbl Nat) : (s.setTngDone v).cal = s.cal := (rfl)
@[simp] theorem State.setTngDone_cfg (s : State) (v : Tbl Nat) : (s.setTngDone v).cfg = s.cfg := (rfl)
@[simp] theorem State.setTngDone_tap (s : State) (v : Tbl Nat) : (s.setTngDone v).tap = s.tap := (rfl)
@[simp] theorem State.setTngDone_pins (s : State) (v : Tbl Nat) : (s.setTngDone v).pins = s.pins := (rfl)
@[simp] theorem State.setTngDone_frames (s : State) (v : Tbl Nat) : (s.setTngDone v).frames = s.frames := (rfl)
@[simp] theorem State.setTngDone_clusters (s : State) (v : Tbl Nat) : (s.setTngDone v).clusters = s.clusters := (rfl)
@[simp] theorem State.setTngDone_ffs (s : State) (v : Tbl Nat) : (s.setTngDone v).ffs = s.ffs := (rfl)
@[simp] theorem State.setTngDone_relStage (s : State) (v : Tbl Nat) : (s.setTngDone v).relStage = s.relStage := (rfl)
@[simp] theorem State.setTngDone_frozen (s : State) (v : Tbl Nat) : (s.setTngDone v).frozen = s.frozen := (rfl)
@[simp] theorem State.setTngDone_bramCfg (s : State) (v : Tbl Nat) : (s.setTngDone v).bramCfg = s.bramCfg := (rfl)
@[simp] theorem State.setTngDone_bram (s : State) (v : Tbl Nat) : (s.setTngDone v).bram = s.bram := (rfl)
@[simp] theorem State.setTngDone_bramPorts (s : State) (v : Tbl Nat) : (s.setTngDone v).bramPorts = s.bramPorts := (rfl)
@[simp] theorem State.setTngDone_multCfg (s : State) (v : Tbl Nat) : (s.setTngDone v).multCfg = s.multCfg := (rfl)
@[simp] theorem State.setTngDone_mults (s : State) (v : Tbl Nat) : (s.setTngDone v).mults = s.mults := (rfl)
@[simp] theorem State.setTngDone_railKeep (s : State) (v : Tbl Nat) : (s.setTngDone v).railKeep = s.railKeep := (rfl)
@[simp] theorem State.setTngDone_chk (s : State) (v : Tbl Nat) : (s.setTngDone v).chk = s.chk := (rfl)
@[simp] theorem State.setTngDone_eccRaw (s : State) (v : Tbl Nat) : (s.setTngDone v).eccRaw = s.eccRaw := (rfl)
@[simp] theorem State.setTngDone_eccScrub (s : State) (v : Tbl Nat) : (s.setTngDone v).eccScrub = s.eccScrub := (rfl)
@[simp] theorem State.setTngDone_tags (s : State) (v : Tbl Nat) : (s.setTngDone v).tags = s.tags := (rfl)
@[simp] theorem State.setTngDone_xUsed (s : State) (v : Tbl Nat) : (s.setTngDone v).xUsed = s.xUsed := (rfl)
@[simp] theorem State.setTngDone_xWait (s : State) (v : Tbl Nat) : (s.setTngDone v).xWait = s.xWait := (rfl)
@[simp] theorem State.setTngDone_xHeld (s : State) (v : Tbl Nat) : (s.setTngDone v).xHeld = s.xHeld := (rfl)
@[simp] theorem State.setTngDone_routers (s : State) (v : Tbl Nat) : (s.setTngDone v).routers = s.routers := (rfl)
@[simp] theorem State.setTngDone_portMode (s : State) (v : Tbl Nat) : (s.setTngDone v).portMode = s.portMode := (rfl)
@[simp] theorem State.setTngDone_portTags (s : State) (v : Tbl Nat) : (s.setTngDone v).portTags = s.portTags := (rfl)
@[simp] theorem State.setTngDone_portFifo (s : State) (v : Tbl Nat) : (s.setTngDone v).portFifo = s.portFifo := (rfl)
@[simp] theorem State.setTngDone_dcache (s : State) (v : Tbl Nat) : (s.setTngDone v).dcache = s.dcache := (rfl)
@[simp] theorem State.setTngDone_dir (s : State) (v : Tbl Nat) : (s.setTngDone v).dir = s.dir := (rfl)
@[simp] theorem State.setTngDone_dieResets (s : State) (v : Tbl Nat) : (s.setTngDone v).dieResets = s.dieResets := (rfl)
@[simp] theorem State.setTngDone_homeTxn (s : State) (v : Tbl Nat) : (s.setTngDone v).homeTxn = s.homeTxn := (rfl)
@[simp] theorem State.setTngDone_cores (s : State) (v : Tbl Nat) : (s.setTngDone v).cores = s.cores := (rfl)
@[simp] theorem State.setTngDone_tngDone (s : State) (v : Tbl Nat) : (s.setTngDone v).tngDone = v := (rfl)
@[simp] theorem State.setTngDone_fab (s : State) (v : Tbl Nat) : (s.setTngDone v).fab = s.fab := (rfl)
@[simp] theorem State.setTngDone_net (s : State) (v : Tbl Nat) : (s.setTngDone v).net = s.net := (rfl)
@[simp] theorem State.setTngDone_rtrShare (s : State) (v : Tbl Nat) : (s.setTngDone v).rtrShare = s.rtrShare := (rfl)
@[simp] theorem State.setTngDone_dbg (s : State) (v : Tbl Nat) : (s.setTngDone v).dbg = s.dbg := (rfl)
@[simp] theorem State.setTngDone_dcWait (s : State) (v : Tbl Nat) : (s.setTngDone v).dcWait = s.dcWait := (rfl)
@[simp] theorem State.setTngDone_prcStep (s : State) (v : Tbl Nat) : (s.setTngDone v).prcStep = s.prcStep := (rfl)
@[simp] theorem State.setTngDone_prcBlank (s : State) (v : Tbl Nat) : (s.setTngDone v).prcBlank = s.prcBlank := (rfl)
@[simp] theorem State.setTngDone_prcHold (s : State) (v : Tbl Nat) : (s.setTngDone v).prcHold = s.prcHold := (rfl)
@[simp] theorem State.setTngDone_capWait (s : State) (v : Tbl Nat) : (s.setTngDone v).capWait = s.capWait := (rfl)
@[simp] theorem State.setTngDone_capture (s : State) (v : Tbl Nat) : (s.setTngDone v).capture = s.capture := (rfl)
@[simp] theorem State.setTngDone_bramDef (s : State) (v : Tbl Nat) : (s.setTngDone v).bramDef = s.bramDef := (rfl)
@[simp] theorem State.setTngDone_scrubs (s : State) (v : Tbl Nat) : (s.setTngDone v).scrubs = s.scrubs := (rfl)
@[simp] theorem State.setTngDone_scrCopy (s : State) (v : Tbl Nat) : (s.setTngDone v).scrCopy = s.scrCopy := (rfl)
@[simp] theorem State.setTngDone_releases (s : State) (v : Tbl Nat) : (s.setTngDone v).releases = s.releases := (rfl)
@[simp] theorem State.setTngDone_dieStep (s : State) (v : Tbl Nat) : (s.setTngDone v).dieStep = s.dieStep := (rfl)
@[simp] theorem State.setTngDone_clampDef (s : State) (v : Tbl Nat) : (s.setTngDone v).clampDef = s.clampDef := (rfl)
@[simp] theorem State.setTngDone_clamps (s : State) (v : Tbl Nat) : (s.setTngDone v).clamps = s.clamps := (rfl)
@[simp] theorem State.setTngDone_welds (s : State) (v : Tbl Nat) : (s.setTngDone v).welds = s.welds := (rfl)
@[simp] theorem State.setTngDone_lanes (s : State) (v : Tbl Nat) : (s.setTngDone v).lanes = s.lanes := (rfl)
@[simp] theorem State.setTngDone_macMode (s : State) (v : Tbl Nat) : (s.setTngDone v).macMode = s.macMode := (rfl)
@[simp] theorem State.setTngDone_tod (s : State) (v : Tbl Nat) : (s.setTngDone v).tod = s.tod := (rfl)
@[simp] theorem State.setTngDone_lkp (s : State) (v : Tbl Nat) : (s.setTngDone v).lkp = s.lkp := (rfl)
@[simp] theorem State.setTngDone_queues (s : State) (v : Tbl Nat) : (s.setTngDone v).queues = s.queues := (rfl)
@[simp] theorem State.setTngDone_ports (s : State) (v : Tbl Nat) : (s.setTngDone v).ports = s.ports := (rfl)
@[simp] theorem State.setTngDone_pkt (s : State) (v : Tbl Nat) : (s.setTngDone v).pkt = s.pkt := (rfl)
@[simp] theorem State.setTngDone_cxl (s : State) (v : Tbl Nat) : (s.setTngDone v).cxl = s.cxl := (rfl)
@[simp] theorem State.setTngDone_ddr (s : State) (v : Tbl Nat) : (s.setTngDone v).ddr = s.ddr := (rfl)
@[simp] theorem State.setTngDone_regions (s : State) (v : Tbl Nat) : (s.setTngDone v).regions = s.regions := (rfl)
@[simp] theorem State.setTngDone_prots (s : State) (v : Tbl Nat) : (s.setTngDone v).prots = s.prots := (rfl)
@[simp] theorem State.setTngDone_keyStore (s : State) (v : Tbl Nat) : (s.setTngDone v).keyStore = s.keyStore := (rfl)
@[simp] theorem State.setTngDone_rings (s : State) (v : Tbl Nat) : (s.setTngDone v).rings = s.rings := (rfl)
@[simp] theorem State.setTngDone_openMem (s : State) (v : Tbl Nat) : (s.setTngDone v).openMem = s.openMem := (rfl)
@[simp] theorem State.setTngDone_dcRights (s : State) (v : Tbl Nat) : (s.setTngDone v).dcRights = s.dcRights := (rfl)
@[simp] theorem State.setTngDone_clk (s : State) (v : Tbl Nat) : (s.setTngDone v).clk = s.clk := (rfl)
@[simp] theorem State.setTngDone_units (s : State) (v : Tbl Nat) : (s.setTngDone v).units = s.units := (rfl)
@[simp] theorem State.setTngDone_hearthHit (s : State) (v : Tbl Nat) : (s.setTngDone v).hearthHit = s.hearthHit := (rfl)
@[simp] theorem State.setFab_pending (s : State) (v : Fab) : (s.setFab v).pending = s.pending := (rfl)
@[simp] theorem State.setFab_regs (s : State) (v : Fab) : (s.setFab v).regs = s.regs := (rfl)
@[simp] theorem State.setFab_mem (s : State) (v : Fab) : (s.setFab v).mem = s.mem := (rfl)
@[simp] theorem State.setFab_poison (s : State) (v : Fab) : (s.setFab v).poison = s.poison := (rfl)
@[simp] theorem State.setFab_fresh (s : State) (v : Fab) : (s.setFab v).fresh = s.fresh := (rfl)
@[simp] theorem State.setFab_answer (s : State) (v : Fab) : (s.setFab v).answer = s.answer := (rfl)
@[simp] theorem State.setFab_answerStatus (s : State) (v : Fab) : (s.setFab v).answerStatus = s.answerStatus := (rfl)
@[simp] theorem State.setFab_book (s : State) (v : Fab) : (s.setFab v).book = s.book := (rfl)
@[simp] theorem State.setFab_mgt (s : State) (v : Fab) : (s.setFab v).mgt = s.mgt := (rfl)
@[simp] theorem State.setFab_fpFifo (s : State) (v : Fab) : (s.setFab v).fpFifo = s.fpFifo := (rfl)
@[simp] theorem State.setFab_evtOnce (s : State) (v : Fab) : (s.setFab v).evtOnce = s.evtOnce := (rfl)
@[simp] theorem State.setFab_cycles (s : State) (v : Fab) : (s.setFab v).cycles = s.cycles := (rfl)
@[simp] theorem State.setFab_pcie (s : State) (v : Fab) : (s.setFab v).pcie = s.pcie := (rfl)
@[simp] theorem State.setFab_sent (s : State) (v : Fab) : (s.setFab v).sent = s.sent := (rfl)
@[simp] theorem State.setFab_bw (s : State) (v : Fab) : (s.setFab v).bw = s.bw := (rfl)
@[simp] theorem State.setFab_pmcLatch (s : State) (v : Fab) : (s.setFab v).pmcLatch = s.pmcLatch := (rfl)
@[simp] theorem State.setFab_cal (s : State) (v : Fab) : (s.setFab v).cal = s.cal := (rfl)
@[simp] theorem State.setFab_cfg (s : State) (v : Fab) : (s.setFab v).cfg = s.cfg := (rfl)
@[simp] theorem State.setFab_tap (s : State) (v : Fab) : (s.setFab v).tap = s.tap := (rfl)
@[simp] theorem State.setFab_pins (s : State) (v : Fab) : (s.setFab v).pins = s.pins := (rfl)
@[simp] theorem State.setFab_frames (s : State) (v : Fab) : (s.setFab v).frames = s.frames := (rfl)
@[simp] theorem State.setFab_clusters (s : State) (v : Fab) : (s.setFab v).clusters = s.clusters := (rfl)
@[simp] theorem State.setFab_ffs (s : State) (v : Fab) : (s.setFab v).ffs = s.ffs := (rfl)
@[simp] theorem State.setFab_relStage (s : State) (v : Fab) : (s.setFab v).relStage = s.relStage := (rfl)
@[simp] theorem State.setFab_frozen (s : State) (v : Fab) : (s.setFab v).frozen = s.frozen := (rfl)
@[simp] theorem State.setFab_bramCfg (s : State) (v : Fab) : (s.setFab v).bramCfg = s.bramCfg := (rfl)
@[simp] theorem State.setFab_bram (s : State) (v : Fab) : (s.setFab v).bram = s.bram := (rfl)
@[simp] theorem State.setFab_bramPorts (s : State) (v : Fab) : (s.setFab v).bramPorts = s.bramPorts := (rfl)
@[simp] theorem State.setFab_multCfg (s : State) (v : Fab) : (s.setFab v).multCfg = s.multCfg := (rfl)
@[simp] theorem State.setFab_mults (s : State) (v : Fab) : (s.setFab v).mults = s.mults := (rfl)
@[simp] theorem State.setFab_railKeep (s : State) (v : Fab) : (s.setFab v).railKeep = s.railKeep := (rfl)
@[simp] theorem State.setFab_chk (s : State) (v : Fab) : (s.setFab v).chk = s.chk := (rfl)
@[simp] theorem State.setFab_eccRaw (s : State) (v : Fab) : (s.setFab v).eccRaw = s.eccRaw := (rfl)
@[simp] theorem State.setFab_eccScrub (s : State) (v : Fab) : (s.setFab v).eccScrub = s.eccScrub := (rfl)
@[simp] theorem State.setFab_tags (s : State) (v : Fab) : (s.setFab v).tags = s.tags := (rfl)
@[simp] theorem State.setFab_xUsed (s : State) (v : Fab) : (s.setFab v).xUsed = s.xUsed := (rfl)
@[simp] theorem State.setFab_xWait (s : State) (v : Fab) : (s.setFab v).xWait = s.xWait := (rfl)
@[simp] theorem State.setFab_xHeld (s : State) (v : Fab) : (s.setFab v).xHeld = s.xHeld := (rfl)
@[simp] theorem State.setFab_routers (s : State) (v : Fab) : (s.setFab v).routers = s.routers := (rfl)
@[simp] theorem State.setFab_portMode (s : State) (v : Fab) : (s.setFab v).portMode = s.portMode := (rfl)
@[simp] theorem State.setFab_portTags (s : State) (v : Fab) : (s.setFab v).portTags = s.portTags := (rfl)
@[simp] theorem State.setFab_portFifo (s : State) (v : Fab) : (s.setFab v).portFifo = s.portFifo := (rfl)
@[simp] theorem State.setFab_dcache (s : State) (v : Fab) : (s.setFab v).dcache = s.dcache := (rfl)
@[simp] theorem State.setFab_dir (s : State) (v : Fab) : (s.setFab v).dir = s.dir := (rfl)
@[simp] theorem State.setFab_dieResets (s : State) (v : Fab) : (s.setFab v).dieResets = s.dieResets := (rfl)
@[simp] theorem State.setFab_homeTxn (s : State) (v : Fab) : (s.setFab v).homeTxn = s.homeTxn := (rfl)
@[simp] theorem State.setFab_cores (s : State) (v : Fab) : (s.setFab v).cores = s.cores := (rfl)
@[simp] theorem State.setFab_tngDone (s : State) (v : Fab) : (s.setFab v).tngDone = s.tngDone := (rfl)
@[simp] theorem State.setFab_fab (s : State) (v : Fab) : (s.setFab v).fab = v := (rfl)
@[simp] theorem State.setFab_net (s : State) (v : Fab) : (s.setFab v).net = s.net := (rfl)
@[simp] theorem State.setFab_rtrShare (s : State) (v : Fab) : (s.setFab v).rtrShare = s.rtrShare := (rfl)
@[simp] theorem State.setFab_dbg (s : State) (v : Fab) : (s.setFab v).dbg = s.dbg := (rfl)
@[simp] theorem State.setFab_dcWait (s : State) (v : Fab) : (s.setFab v).dcWait = s.dcWait := (rfl)
@[simp] theorem State.setFab_prcStep (s : State) (v : Fab) : (s.setFab v).prcStep = s.prcStep := (rfl)
@[simp] theorem State.setFab_prcBlank (s : State) (v : Fab) : (s.setFab v).prcBlank = s.prcBlank := (rfl)
@[simp] theorem State.setFab_prcHold (s : State) (v : Fab) : (s.setFab v).prcHold = s.prcHold := (rfl)
@[simp] theorem State.setFab_capWait (s : State) (v : Fab) : (s.setFab v).capWait = s.capWait := (rfl)
@[simp] theorem State.setFab_capture (s : State) (v : Fab) : (s.setFab v).capture = s.capture := (rfl)
@[simp] theorem State.setFab_bramDef (s : State) (v : Fab) : (s.setFab v).bramDef = s.bramDef := (rfl)
@[simp] theorem State.setFab_scrubs (s : State) (v : Fab) : (s.setFab v).scrubs = s.scrubs := (rfl)
@[simp] theorem State.setFab_scrCopy (s : State) (v : Fab) : (s.setFab v).scrCopy = s.scrCopy := (rfl)
@[simp] theorem State.setFab_releases (s : State) (v : Fab) : (s.setFab v).releases = s.releases := (rfl)
@[simp] theorem State.setFab_dieStep (s : State) (v : Fab) : (s.setFab v).dieStep = s.dieStep := (rfl)
@[simp] theorem State.setFab_clampDef (s : State) (v : Fab) : (s.setFab v).clampDef = s.clampDef := (rfl)
@[simp] theorem State.setFab_clamps (s : State) (v : Fab) : (s.setFab v).clamps = s.clamps := (rfl)
@[simp] theorem State.setFab_welds (s : State) (v : Fab) : (s.setFab v).welds = s.welds := (rfl)
@[simp] theorem State.setFab_lanes (s : State) (v : Fab) : (s.setFab v).lanes = s.lanes := (rfl)
@[simp] theorem State.setFab_macMode (s : State) (v : Fab) : (s.setFab v).macMode = s.macMode := (rfl)
@[simp] theorem State.setFab_tod (s : State) (v : Fab) : (s.setFab v).tod = s.tod := (rfl)
@[simp] theorem State.setFab_lkp (s : State) (v : Fab) : (s.setFab v).lkp = s.lkp := (rfl)
@[simp] theorem State.setFab_queues (s : State) (v : Fab) : (s.setFab v).queues = s.queues := (rfl)
@[simp] theorem State.setFab_ports (s : State) (v : Fab) : (s.setFab v).ports = s.ports := (rfl)
@[simp] theorem State.setFab_pkt (s : State) (v : Fab) : (s.setFab v).pkt = s.pkt := (rfl)
@[simp] theorem State.setFab_cxl (s : State) (v : Fab) : (s.setFab v).cxl = s.cxl := (rfl)
@[simp] theorem State.setFab_ddr (s : State) (v : Fab) : (s.setFab v).ddr = s.ddr := (rfl)
@[simp] theorem State.setFab_regions (s : State) (v : Fab) : (s.setFab v).regions = s.regions := (rfl)
@[simp] theorem State.setFab_prots (s : State) (v : Fab) : (s.setFab v).prots = s.prots := (rfl)
@[simp] theorem State.setFab_keyStore (s : State) (v : Fab) : (s.setFab v).keyStore = s.keyStore := (rfl)
@[simp] theorem State.setFab_rings (s : State) (v : Fab) : (s.setFab v).rings = s.rings := (rfl)
@[simp] theorem State.setFab_openMem (s : State) (v : Fab) : (s.setFab v).openMem = s.openMem := (rfl)
@[simp] theorem State.setFab_dcRights (s : State) (v : Fab) : (s.setFab v).dcRights = s.dcRights := (rfl)
@[simp] theorem State.setFab_clk (s : State) (v : Fab) : (s.setFab v).clk = s.clk := (rfl)
@[simp] theorem State.setFab_units (s : State) (v : Fab) : (s.setFab v).units = s.units := (rfl)
@[simp] theorem State.setFab_hearthHit (s : State) (v : Fab) : (s.setFab v).hearthHit = s.hearthHit := (rfl)
@[simp] theorem State.setNet_pending (s : State) (v : NetSt) : (s.setNet v).pending = s.pending := (rfl)
@[simp] theorem State.setNet_regs (s : State) (v : NetSt) : (s.setNet v).regs = s.regs := (rfl)
@[simp] theorem State.setNet_mem (s : State) (v : NetSt) : (s.setNet v).mem = s.mem := (rfl)
@[simp] theorem State.setNet_poison (s : State) (v : NetSt) : (s.setNet v).poison = s.poison := (rfl)
@[simp] theorem State.setNet_fresh (s : State) (v : NetSt) : (s.setNet v).fresh = s.fresh := (rfl)
@[simp] theorem State.setNet_answer (s : State) (v : NetSt) : (s.setNet v).answer = s.answer := (rfl)
@[simp] theorem State.setNet_answerStatus (s : State) (v : NetSt) : (s.setNet v).answerStatus = s.answerStatus := (rfl)
@[simp] theorem State.setNet_book (s : State) (v : NetSt) : (s.setNet v).book = s.book := (rfl)
@[simp] theorem State.setNet_mgt (s : State) (v : NetSt) : (s.setNet v).mgt = s.mgt := (rfl)
@[simp] theorem State.setNet_fpFifo (s : State) (v : NetSt) : (s.setNet v).fpFifo = s.fpFifo := (rfl)
@[simp] theorem State.setNet_evtOnce (s : State) (v : NetSt) : (s.setNet v).evtOnce = s.evtOnce := (rfl)
@[simp] theorem State.setNet_cycles (s : State) (v : NetSt) : (s.setNet v).cycles = s.cycles := (rfl)
@[simp] theorem State.setNet_pcie (s : State) (v : NetSt) : (s.setNet v).pcie = s.pcie := (rfl)
@[simp] theorem State.setNet_sent (s : State) (v : NetSt) : (s.setNet v).sent = s.sent := (rfl)
@[simp] theorem State.setNet_bw (s : State) (v : NetSt) : (s.setNet v).bw = s.bw := (rfl)
@[simp] theorem State.setNet_pmcLatch (s : State) (v : NetSt) : (s.setNet v).pmcLatch = s.pmcLatch := (rfl)
@[simp] theorem State.setNet_cal (s : State) (v : NetSt) : (s.setNet v).cal = s.cal := (rfl)
@[simp] theorem State.setNet_cfg (s : State) (v : NetSt) : (s.setNet v).cfg = s.cfg := (rfl)
@[simp] theorem State.setNet_tap (s : State) (v : NetSt) : (s.setNet v).tap = s.tap := (rfl)
@[simp] theorem State.setNet_pins (s : State) (v : NetSt) : (s.setNet v).pins = s.pins := (rfl)
@[simp] theorem State.setNet_frames (s : State) (v : NetSt) : (s.setNet v).frames = s.frames := (rfl)
@[simp] theorem State.setNet_clusters (s : State) (v : NetSt) : (s.setNet v).clusters = s.clusters := (rfl)
@[simp] theorem State.setNet_ffs (s : State) (v : NetSt) : (s.setNet v).ffs = s.ffs := (rfl)
@[simp] theorem State.setNet_relStage (s : State) (v : NetSt) : (s.setNet v).relStage = s.relStage := (rfl)
@[simp] theorem State.setNet_frozen (s : State) (v : NetSt) : (s.setNet v).frozen = s.frozen := (rfl)
@[simp] theorem State.setNet_bramCfg (s : State) (v : NetSt) : (s.setNet v).bramCfg = s.bramCfg := (rfl)
@[simp] theorem State.setNet_bram (s : State) (v : NetSt) : (s.setNet v).bram = s.bram := (rfl)
@[simp] theorem State.setNet_bramPorts (s : State) (v : NetSt) : (s.setNet v).bramPorts = s.bramPorts := (rfl)
@[simp] theorem State.setNet_multCfg (s : State) (v : NetSt) : (s.setNet v).multCfg = s.multCfg := (rfl)
@[simp] theorem State.setNet_mults (s : State) (v : NetSt) : (s.setNet v).mults = s.mults := (rfl)
@[simp] theorem State.setNet_railKeep (s : State) (v : NetSt) : (s.setNet v).railKeep = s.railKeep := (rfl)
@[simp] theorem State.setNet_chk (s : State) (v : NetSt) : (s.setNet v).chk = s.chk := (rfl)
@[simp] theorem State.setNet_eccRaw (s : State) (v : NetSt) : (s.setNet v).eccRaw = s.eccRaw := (rfl)
@[simp] theorem State.setNet_eccScrub (s : State) (v : NetSt) : (s.setNet v).eccScrub = s.eccScrub := (rfl)
@[simp] theorem State.setNet_tags (s : State) (v : NetSt) : (s.setNet v).tags = s.tags := (rfl)
@[simp] theorem State.setNet_xUsed (s : State) (v : NetSt) : (s.setNet v).xUsed = s.xUsed := (rfl)
@[simp] theorem State.setNet_xWait (s : State) (v : NetSt) : (s.setNet v).xWait = s.xWait := (rfl)
@[simp] theorem State.setNet_xHeld (s : State) (v : NetSt) : (s.setNet v).xHeld = s.xHeld := (rfl)
@[simp] theorem State.setNet_routers (s : State) (v : NetSt) : (s.setNet v).routers = s.routers := (rfl)
@[simp] theorem State.setNet_portMode (s : State) (v : NetSt) : (s.setNet v).portMode = s.portMode := (rfl)
@[simp] theorem State.setNet_portTags (s : State) (v : NetSt) : (s.setNet v).portTags = s.portTags := (rfl)
@[simp] theorem State.setNet_portFifo (s : State) (v : NetSt) : (s.setNet v).portFifo = s.portFifo := (rfl)
@[simp] theorem State.setNet_dcache (s : State) (v : NetSt) : (s.setNet v).dcache = s.dcache := (rfl)
@[simp] theorem State.setNet_dir (s : State) (v : NetSt) : (s.setNet v).dir = s.dir := (rfl)
@[simp] theorem State.setNet_dieResets (s : State) (v : NetSt) : (s.setNet v).dieResets = s.dieResets := (rfl)
@[simp] theorem State.setNet_homeTxn (s : State) (v : NetSt) : (s.setNet v).homeTxn = s.homeTxn := (rfl)
@[simp] theorem State.setNet_cores (s : State) (v : NetSt) : (s.setNet v).cores = s.cores := (rfl)
@[simp] theorem State.setNet_tngDone (s : State) (v : NetSt) : (s.setNet v).tngDone = s.tngDone := (rfl)
@[simp] theorem State.setNet_fab (s : State) (v : NetSt) : (s.setNet v).fab = s.fab := (rfl)
@[simp] theorem State.setNet_net (s : State) (v : NetSt) : (s.setNet v).net = v := (rfl)
@[simp] theorem State.setNet_rtrShare (s : State) (v : NetSt) : (s.setNet v).rtrShare = s.rtrShare := (rfl)
@[simp] theorem State.setNet_dbg (s : State) (v : NetSt) : (s.setNet v).dbg = s.dbg := (rfl)
@[simp] theorem State.setNet_dcWait (s : State) (v : NetSt) : (s.setNet v).dcWait = s.dcWait := (rfl)
@[simp] theorem State.setNet_prcStep (s : State) (v : NetSt) : (s.setNet v).prcStep = s.prcStep := (rfl)
@[simp] theorem State.setNet_prcBlank (s : State) (v : NetSt) : (s.setNet v).prcBlank = s.prcBlank := (rfl)
@[simp] theorem State.setNet_prcHold (s : State) (v : NetSt) : (s.setNet v).prcHold = s.prcHold := (rfl)
@[simp] theorem State.setNet_capWait (s : State) (v : NetSt) : (s.setNet v).capWait = s.capWait := (rfl)
@[simp] theorem State.setNet_capture (s : State) (v : NetSt) : (s.setNet v).capture = s.capture := (rfl)
@[simp] theorem State.setNet_bramDef (s : State) (v : NetSt) : (s.setNet v).bramDef = s.bramDef := (rfl)
@[simp] theorem State.setNet_scrubs (s : State) (v : NetSt) : (s.setNet v).scrubs = s.scrubs := (rfl)
@[simp] theorem State.setNet_scrCopy (s : State) (v : NetSt) : (s.setNet v).scrCopy = s.scrCopy := (rfl)
@[simp] theorem State.setNet_releases (s : State) (v : NetSt) : (s.setNet v).releases = s.releases := (rfl)
@[simp] theorem State.setNet_dieStep (s : State) (v : NetSt) : (s.setNet v).dieStep = s.dieStep := (rfl)
@[simp] theorem State.setNet_clampDef (s : State) (v : NetSt) : (s.setNet v).clampDef = s.clampDef := (rfl)
@[simp] theorem State.setNet_clamps (s : State) (v : NetSt) : (s.setNet v).clamps = s.clamps := (rfl)
@[simp] theorem State.setNet_welds (s : State) (v : NetSt) : (s.setNet v).welds = s.welds := (rfl)
@[simp] theorem State.setNet_lanes (s : State) (v : NetSt) : (s.setNet v).lanes = s.lanes := (rfl)
@[simp] theorem State.setNet_macMode (s : State) (v : NetSt) : (s.setNet v).macMode = s.macMode := (rfl)
@[simp] theorem State.setNet_tod (s : State) (v : NetSt) : (s.setNet v).tod = s.tod := (rfl)
@[simp] theorem State.setNet_lkp (s : State) (v : NetSt) : (s.setNet v).lkp = s.lkp := (rfl)
@[simp] theorem State.setNet_queues (s : State) (v : NetSt) : (s.setNet v).queues = s.queues := (rfl)
@[simp] theorem State.setNet_ports (s : State) (v : NetSt) : (s.setNet v).ports = s.ports := (rfl)
@[simp] theorem State.setNet_pkt (s : State) (v : NetSt) : (s.setNet v).pkt = s.pkt := (rfl)
@[simp] theorem State.setNet_cxl (s : State) (v : NetSt) : (s.setNet v).cxl = s.cxl := (rfl)
@[simp] theorem State.setNet_ddr (s : State) (v : NetSt) : (s.setNet v).ddr = s.ddr := (rfl)
@[simp] theorem State.setNet_regions (s : State) (v : NetSt) : (s.setNet v).regions = s.regions := (rfl)
@[simp] theorem State.setNet_prots (s : State) (v : NetSt) : (s.setNet v).prots = s.prots := (rfl)
@[simp] theorem State.setNet_keyStore (s : State) (v : NetSt) : (s.setNet v).keyStore = s.keyStore := (rfl)
@[simp] theorem State.setNet_rings (s : State) (v : NetSt) : (s.setNet v).rings = s.rings := (rfl)
@[simp] theorem State.setNet_openMem (s : State) (v : NetSt) : (s.setNet v).openMem = s.openMem := (rfl)
@[simp] theorem State.setNet_dcRights (s : State) (v : NetSt) : (s.setNet v).dcRights = s.dcRights := (rfl)
@[simp] theorem State.setNet_clk (s : State) (v : NetSt) : (s.setNet v).clk = s.clk := (rfl)
@[simp] theorem State.setNet_units (s : State) (v : NetSt) : (s.setNet v).units = s.units := (rfl)
@[simp] theorem State.setNet_hearthHit (s : State) (v : NetSt) : (s.setNet v).hearthHit = s.hearthHit := (rfl)
@[simp] theorem State.setRtrShare_pending (s : State) (v : Tbl (List Nat)) : (s.setRtrShare v).pending = s.pending := (rfl)
@[simp] theorem State.setRtrShare_regs (s : State) (v : Tbl (List Nat)) : (s.setRtrShare v).regs = s.regs := (rfl)
@[simp] theorem State.setRtrShare_mem (s : State) (v : Tbl (List Nat)) : (s.setRtrShare v).mem = s.mem := (rfl)
@[simp] theorem State.setRtrShare_poison (s : State) (v : Tbl (List Nat)) : (s.setRtrShare v).poison = s.poison := (rfl)
@[simp] theorem State.setRtrShare_fresh (s : State) (v : Tbl (List Nat)) : (s.setRtrShare v).fresh = s.fresh := (rfl)
@[simp] theorem State.setRtrShare_answer (s : State) (v : Tbl (List Nat)) : (s.setRtrShare v).answer = s.answer := (rfl)
@[simp] theorem State.setRtrShare_answerStatus (s : State) (v : Tbl (List Nat)) : (s.setRtrShare v).answerStatus = s.answerStatus := (rfl)
@[simp] theorem State.setRtrShare_book (s : State) (v : Tbl (List Nat)) : (s.setRtrShare v).book = s.book := (rfl)
@[simp] theorem State.setRtrShare_mgt (s : State) (v : Tbl (List Nat)) : (s.setRtrShare v).mgt = s.mgt := (rfl)
@[simp] theorem State.setRtrShare_fpFifo (s : State) (v : Tbl (List Nat)) : (s.setRtrShare v).fpFifo = s.fpFifo := (rfl)
@[simp] theorem State.setRtrShare_evtOnce (s : State) (v : Tbl (List Nat)) : (s.setRtrShare v).evtOnce = s.evtOnce := (rfl)
@[simp] theorem State.setRtrShare_cycles (s : State) (v : Tbl (List Nat)) : (s.setRtrShare v).cycles = s.cycles := (rfl)
@[simp] theorem State.setRtrShare_pcie (s : State) (v : Tbl (List Nat)) : (s.setRtrShare v).pcie = s.pcie := (rfl)
@[simp] theorem State.setRtrShare_sent (s : State) (v : Tbl (List Nat)) : (s.setRtrShare v).sent = s.sent := (rfl)
@[simp] theorem State.setRtrShare_bw (s : State) (v : Tbl (List Nat)) : (s.setRtrShare v).bw = s.bw := (rfl)
@[simp] theorem State.setRtrShare_pmcLatch (s : State) (v : Tbl (List Nat)) : (s.setRtrShare v).pmcLatch = s.pmcLatch := (rfl)
@[simp] theorem State.setRtrShare_cal (s : State) (v : Tbl (List Nat)) : (s.setRtrShare v).cal = s.cal := (rfl)
@[simp] theorem State.setRtrShare_cfg (s : State) (v : Tbl (List Nat)) : (s.setRtrShare v).cfg = s.cfg := (rfl)
@[simp] theorem State.setRtrShare_tap (s : State) (v : Tbl (List Nat)) : (s.setRtrShare v).tap = s.tap := (rfl)
@[simp] theorem State.setRtrShare_pins (s : State) (v : Tbl (List Nat)) : (s.setRtrShare v).pins = s.pins := (rfl)
@[simp] theorem State.setRtrShare_frames (s : State) (v : Tbl (List Nat)) : (s.setRtrShare v).frames = s.frames := (rfl)
@[simp] theorem State.setRtrShare_clusters (s : State) (v : Tbl (List Nat)) : (s.setRtrShare v).clusters = s.clusters := (rfl)
@[simp] theorem State.setRtrShare_ffs (s : State) (v : Tbl (List Nat)) : (s.setRtrShare v).ffs = s.ffs := (rfl)
@[simp] theorem State.setRtrShare_relStage (s : State) (v : Tbl (List Nat)) : (s.setRtrShare v).relStage = s.relStage := (rfl)
@[simp] theorem State.setRtrShare_frozen (s : State) (v : Tbl (List Nat)) : (s.setRtrShare v).frozen = s.frozen := (rfl)
@[simp] theorem State.setRtrShare_bramCfg (s : State) (v : Tbl (List Nat)) : (s.setRtrShare v).bramCfg = s.bramCfg := (rfl)
@[simp] theorem State.setRtrShare_bram (s : State) (v : Tbl (List Nat)) : (s.setRtrShare v).bram = s.bram := (rfl)
@[simp] theorem State.setRtrShare_bramPorts (s : State) (v : Tbl (List Nat)) : (s.setRtrShare v).bramPorts = s.bramPorts := (rfl)
@[simp] theorem State.setRtrShare_multCfg (s : State) (v : Tbl (List Nat)) : (s.setRtrShare v).multCfg = s.multCfg := (rfl)
@[simp] theorem State.setRtrShare_mults (s : State) (v : Tbl (List Nat)) : (s.setRtrShare v).mults = s.mults := (rfl)
@[simp] theorem State.setRtrShare_railKeep (s : State) (v : Tbl (List Nat)) : (s.setRtrShare v).railKeep = s.railKeep := (rfl)
@[simp] theorem State.setRtrShare_chk (s : State) (v : Tbl (List Nat)) : (s.setRtrShare v).chk = s.chk := (rfl)
@[simp] theorem State.setRtrShare_eccRaw (s : State) (v : Tbl (List Nat)) : (s.setRtrShare v).eccRaw = s.eccRaw := (rfl)
@[simp] theorem State.setRtrShare_eccScrub (s : State) (v : Tbl (List Nat)) : (s.setRtrShare v).eccScrub = s.eccScrub := (rfl)
@[simp] theorem State.setRtrShare_tags (s : State) (v : Tbl (List Nat)) : (s.setRtrShare v).tags = s.tags := (rfl)
@[simp] theorem State.setRtrShare_xUsed (s : State) (v : Tbl (List Nat)) : (s.setRtrShare v).xUsed = s.xUsed := (rfl)
@[simp] theorem State.setRtrShare_xWait (s : State) (v : Tbl (List Nat)) : (s.setRtrShare v).xWait = s.xWait := (rfl)
@[simp] theorem State.setRtrShare_xHeld (s : State) (v : Tbl (List Nat)) : (s.setRtrShare v).xHeld = s.xHeld := (rfl)
@[simp] theorem State.setRtrShare_routers (s : State) (v : Tbl (List Nat)) : (s.setRtrShare v).routers = s.routers := (rfl)
@[simp] theorem State.setRtrShare_portMode (s : State) (v : Tbl (List Nat)) : (s.setRtrShare v).portMode = s.portMode := (rfl)
@[simp] theorem State.setRtrShare_portTags (s : State) (v : Tbl (List Nat)) : (s.setRtrShare v).portTags = s.portTags := (rfl)
@[simp] theorem State.setRtrShare_portFifo (s : State) (v : Tbl (List Nat)) : (s.setRtrShare v).portFifo = s.portFifo := (rfl)
@[simp] theorem State.setRtrShare_dcache (s : State) (v : Tbl (List Nat)) : (s.setRtrShare v).dcache = s.dcache := (rfl)
@[simp] theorem State.setRtrShare_dir (s : State) (v : Tbl (List Nat)) : (s.setRtrShare v).dir = s.dir := (rfl)
@[simp] theorem State.setRtrShare_dieResets (s : State) (v : Tbl (List Nat)) : (s.setRtrShare v).dieResets = s.dieResets := (rfl)
@[simp] theorem State.setRtrShare_homeTxn (s : State) (v : Tbl (List Nat)) : (s.setRtrShare v).homeTxn = s.homeTxn := (rfl)
@[simp] theorem State.setRtrShare_cores (s : State) (v : Tbl (List Nat)) : (s.setRtrShare v).cores = s.cores := (rfl)
@[simp] theorem State.setRtrShare_tngDone (s : State) (v : Tbl (List Nat)) : (s.setRtrShare v).tngDone = s.tngDone := (rfl)
@[simp] theorem State.setRtrShare_fab (s : State) (v : Tbl (List Nat)) : (s.setRtrShare v).fab = s.fab := (rfl)
@[simp] theorem State.setRtrShare_net (s : State) (v : Tbl (List Nat)) : (s.setRtrShare v).net = s.net := (rfl)
@[simp] theorem State.setRtrShare_rtrShare (s : State) (v : Tbl (List Nat)) : (s.setRtrShare v).rtrShare = v := (rfl)
@[simp] theorem State.setRtrShare_dbg (s : State) (v : Tbl (List Nat)) : (s.setRtrShare v).dbg = s.dbg := (rfl)
@[simp] theorem State.setRtrShare_dcWait (s : State) (v : Tbl (List Nat)) : (s.setRtrShare v).dcWait = s.dcWait := (rfl)
@[simp] theorem State.setRtrShare_prcStep (s : State) (v : Tbl (List Nat)) : (s.setRtrShare v).prcStep = s.prcStep := (rfl)
@[simp] theorem State.setRtrShare_prcBlank (s : State) (v : Tbl (List Nat)) : (s.setRtrShare v).prcBlank = s.prcBlank := (rfl)
@[simp] theorem State.setRtrShare_prcHold (s : State) (v : Tbl (List Nat)) : (s.setRtrShare v).prcHold = s.prcHold := (rfl)
@[simp] theorem State.setRtrShare_capWait (s : State) (v : Tbl (List Nat)) : (s.setRtrShare v).capWait = s.capWait := (rfl)
@[simp] theorem State.setRtrShare_capture (s : State) (v : Tbl (List Nat)) : (s.setRtrShare v).capture = s.capture := (rfl)
@[simp] theorem State.setRtrShare_bramDef (s : State) (v : Tbl (List Nat)) : (s.setRtrShare v).bramDef = s.bramDef := (rfl)
@[simp] theorem State.setRtrShare_scrubs (s : State) (v : Tbl (List Nat)) : (s.setRtrShare v).scrubs = s.scrubs := (rfl)
@[simp] theorem State.setRtrShare_scrCopy (s : State) (v : Tbl (List Nat)) : (s.setRtrShare v).scrCopy = s.scrCopy := (rfl)
@[simp] theorem State.setRtrShare_releases (s : State) (v : Tbl (List Nat)) : (s.setRtrShare v).releases = s.releases := (rfl)
@[simp] theorem State.setRtrShare_dieStep (s : State) (v : Tbl (List Nat)) : (s.setRtrShare v).dieStep = s.dieStep := (rfl)
@[simp] theorem State.setRtrShare_clampDef (s : State) (v : Tbl (List Nat)) : (s.setRtrShare v).clampDef = s.clampDef := (rfl)
@[simp] theorem State.setRtrShare_clamps (s : State) (v : Tbl (List Nat)) : (s.setRtrShare v).clamps = s.clamps := (rfl)
@[simp] theorem State.setRtrShare_welds (s : State) (v : Tbl (List Nat)) : (s.setRtrShare v).welds = s.welds := (rfl)
@[simp] theorem State.setRtrShare_lanes (s : State) (v : Tbl (List Nat)) : (s.setRtrShare v).lanes = s.lanes := (rfl)
@[simp] theorem State.setRtrShare_macMode (s : State) (v : Tbl (List Nat)) : (s.setRtrShare v).macMode = s.macMode := (rfl)
@[simp] theorem State.setRtrShare_tod (s : State) (v : Tbl (List Nat)) : (s.setRtrShare v).tod = s.tod := (rfl)
@[simp] theorem State.setRtrShare_lkp (s : State) (v : Tbl (List Nat)) : (s.setRtrShare v).lkp = s.lkp := (rfl)
@[simp] theorem State.setRtrShare_queues (s : State) (v : Tbl (List Nat)) : (s.setRtrShare v).queues = s.queues := (rfl)
@[simp] theorem State.setRtrShare_ports (s : State) (v : Tbl (List Nat)) : (s.setRtrShare v).ports = s.ports := (rfl)
@[simp] theorem State.setRtrShare_pkt (s : State) (v : Tbl (List Nat)) : (s.setRtrShare v).pkt = s.pkt := (rfl)
@[simp] theorem State.setRtrShare_cxl (s : State) (v : Tbl (List Nat)) : (s.setRtrShare v).cxl = s.cxl := (rfl)
@[simp] theorem State.setRtrShare_ddr (s : State) (v : Tbl (List Nat)) : (s.setRtrShare v).ddr = s.ddr := (rfl)
@[simp] theorem State.setRtrShare_regions (s : State) (v : Tbl (List Nat)) : (s.setRtrShare v).regions = s.regions := (rfl)
@[simp] theorem State.setRtrShare_prots (s : State) (v : Tbl (List Nat)) : (s.setRtrShare v).prots = s.prots := (rfl)
@[simp] theorem State.setRtrShare_keyStore (s : State) (v : Tbl (List Nat)) : (s.setRtrShare v).keyStore = s.keyStore := (rfl)
@[simp] theorem State.setRtrShare_rings (s : State) (v : Tbl (List Nat)) : (s.setRtrShare v).rings = s.rings := (rfl)
@[simp] theorem State.setRtrShare_openMem (s : State) (v : Tbl (List Nat)) : (s.setRtrShare v).openMem = s.openMem := (rfl)
@[simp] theorem State.setRtrShare_dcRights (s : State) (v : Tbl (List Nat)) : (s.setRtrShare v).dcRights = s.dcRights := (rfl)
@[simp] theorem State.setRtrShare_clk (s : State) (v : Tbl (List Nat)) : (s.setRtrShare v).clk = s.clk := (rfl)
@[simp] theorem State.setRtrShare_units (s : State) (v : Tbl (List Nat)) : (s.setRtrShare v).units = s.units := (rfl)
@[simp] theorem State.setRtrShare_hearthHit (s : State) (v : Tbl (List Nat)) : (s.setRtrShare v).hearthHit = s.hearthHit := (rfl)
@[simp] theorem State.setDbg_pending (s : State) (v : Dbg) : (s.setDbg v).pending = s.pending := (rfl)
@[simp] theorem State.setDbg_regs (s : State) (v : Dbg) : (s.setDbg v).regs = s.regs := (rfl)
@[simp] theorem State.setDbg_mem (s : State) (v : Dbg) : (s.setDbg v).mem = s.mem := (rfl)
@[simp] theorem State.setDbg_poison (s : State) (v : Dbg) : (s.setDbg v).poison = s.poison := (rfl)
@[simp] theorem State.setDbg_fresh (s : State) (v : Dbg) : (s.setDbg v).fresh = s.fresh := (rfl)
@[simp] theorem State.setDbg_answer (s : State) (v : Dbg) : (s.setDbg v).answer = s.answer := (rfl)
@[simp] theorem State.setDbg_answerStatus (s : State) (v : Dbg) : (s.setDbg v).answerStatus = s.answerStatus := (rfl)
@[simp] theorem State.setDbg_book (s : State) (v : Dbg) : (s.setDbg v).book = s.book := (rfl)
@[simp] theorem State.setDbg_mgt (s : State) (v : Dbg) : (s.setDbg v).mgt = s.mgt := (rfl)
@[simp] theorem State.setDbg_fpFifo (s : State) (v : Dbg) : (s.setDbg v).fpFifo = s.fpFifo := (rfl)
@[simp] theorem State.setDbg_evtOnce (s : State) (v : Dbg) : (s.setDbg v).evtOnce = s.evtOnce := (rfl)
@[simp] theorem State.setDbg_cycles (s : State) (v : Dbg) : (s.setDbg v).cycles = s.cycles := (rfl)
@[simp] theorem State.setDbg_pcie (s : State) (v : Dbg) : (s.setDbg v).pcie = s.pcie := (rfl)
@[simp] theorem State.setDbg_sent (s : State) (v : Dbg) : (s.setDbg v).sent = s.sent := (rfl)
@[simp] theorem State.setDbg_bw (s : State) (v : Dbg) : (s.setDbg v).bw = s.bw := (rfl)
@[simp] theorem State.setDbg_pmcLatch (s : State) (v : Dbg) : (s.setDbg v).pmcLatch = s.pmcLatch := (rfl)
@[simp] theorem State.setDbg_cal (s : State) (v : Dbg) : (s.setDbg v).cal = s.cal := (rfl)
@[simp] theorem State.setDbg_cfg (s : State) (v : Dbg) : (s.setDbg v).cfg = s.cfg := (rfl)
@[simp] theorem State.setDbg_tap (s : State) (v : Dbg) : (s.setDbg v).tap = s.tap := (rfl)
@[simp] theorem State.setDbg_pins (s : State) (v : Dbg) : (s.setDbg v).pins = s.pins := (rfl)
@[simp] theorem State.setDbg_frames (s : State) (v : Dbg) : (s.setDbg v).frames = s.frames := (rfl)
@[simp] theorem State.setDbg_clusters (s : State) (v : Dbg) : (s.setDbg v).clusters = s.clusters := (rfl)
@[simp] theorem State.setDbg_ffs (s : State) (v : Dbg) : (s.setDbg v).ffs = s.ffs := (rfl)
@[simp] theorem State.setDbg_relStage (s : State) (v : Dbg) : (s.setDbg v).relStage = s.relStage := (rfl)
@[simp] theorem State.setDbg_frozen (s : State) (v : Dbg) : (s.setDbg v).frozen = s.frozen := (rfl)
@[simp] theorem State.setDbg_bramCfg (s : State) (v : Dbg) : (s.setDbg v).bramCfg = s.bramCfg := (rfl)
@[simp] theorem State.setDbg_bram (s : State) (v : Dbg) : (s.setDbg v).bram = s.bram := (rfl)
@[simp] theorem State.setDbg_bramPorts (s : State) (v : Dbg) : (s.setDbg v).bramPorts = s.bramPorts := (rfl)
@[simp] theorem State.setDbg_multCfg (s : State) (v : Dbg) : (s.setDbg v).multCfg = s.multCfg := (rfl)
@[simp] theorem State.setDbg_mults (s : State) (v : Dbg) : (s.setDbg v).mults = s.mults := (rfl)
@[simp] theorem State.setDbg_railKeep (s : State) (v : Dbg) : (s.setDbg v).railKeep = s.railKeep := (rfl)
@[simp] theorem State.setDbg_chk (s : State) (v : Dbg) : (s.setDbg v).chk = s.chk := (rfl)
@[simp] theorem State.setDbg_eccRaw (s : State) (v : Dbg) : (s.setDbg v).eccRaw = s.eccRaw := (rfl)
@[simp] theorem State.setDbg_eccScrub (s : State) (v : Dbg) : (s.setDbg v).eccScrub = s.eccScrub := (rfl)
@[simp] theorem State.setDbg_tags (s : State) (v : Dbg) : (s.setDbg v).tags = s.tags := (rfl)
@[simp] theorem State.setDbg_xUsed (s : State) (v : Dbg) : (s.setDbg v).xUsed = s.xUsed := (rfl)
@[simp] theorem State.setDbg_xWait (s : State) (v : Dbg) : (s.setDbg v).xWait = s.xWait := (rfl)
@[simp] theorem State.setDbg_xHeld (s : State) (v : Dbg) : (s.setDbg v).xHeld = s.xHeld := (rfl)
@[simp] theorem State.setDbg_routers (s : State) (v : Dbg) : (s.setDbg v).routers = s.routers := (rfl)
@[simp] theorem State.setDbg_portMode (s : State) (v : Dbg) : (s.setDbg v).portMode = s.portMode := (rfl)
@[simp] theorem State.setDbg_portTags (s : State) (v : Dbg) : (s.setDbg v).portTags = s.portTags := (rfl)
@[simp] theorem State.setDbg_portFifo (s : State) (v : Dbg) : (s.setDbg v).portFifo = s.portFifo := (rfl)
@[simp] theorem State.setDbg_dcache (s : State) (v : Dbg) : (s.setDbg v).dcache = s.dcache := (rfl)
@[simp] theorem State.setDbg_dir (s : State) (v : Dbg) : (s.setDbg v).dir = s.dir := (rfl)
@[simp] theorem State.setDbg_dieResets (s : State) (v : Dbg) : (s.setDbg v).dieResets = s.dieResets := (rfl)
@[simp] theorem State.setDbg_homeTxn (s : State) (v : Dbg) : (s.setDbg v).homeTxn = s.homeTxn := (rfl)
@[simp] theorem State.setDbg_cores (s : State) (v : Dbg) : (s.setDbg v).cores = s.cores := (rfl)
@[simp] theorem State.setDbg_tngDone (s : State) (v : Dbg) : (s.setDbg v).tngDone = s.tngDone := (rfl)
@[simp] theorem State.setDbg_fab (s : State) (v : Dbg) : (s.setDbg v).fab = s.fab := (rfl)
@[simp] theorem State.setDbg_net (s : State) (v : Dbg) : (s.setDbg v).net = s.net := (rfl)
@[simp] theorem State.setDbg_rtrShare (s : State) (v : Dbg) : (s.setDbg v).rtrShare = s.rtrShare := (rfl)
@[simp] theorem State.setDbg_dbg (s : State) (v : Dbg) : (s.setDbg v).dbg = v := (rfl)
@[simp] theorem State.setDbg_dcWait (s : State) (v : Dbg) : (s.setDbg v).dcWait = s.dcWait := (rfl)
@[simp] theorem State.setDbg_prcStep (s : State) (v : Dbg) : (s.setDbg v).prcStep = s.prcStep := (rfl)
@[simp] theorem State.setDbg_prcBlank (s : State) (v : Dbg) : (s.setDbg v).prcBlank = s.prcBlank := (rfl)
@[simp] theorem State.setDbg_prcHold (s : State) (v : Dbg) : (s.setDbg v).prcHold = s.prcHold := (rfl)
@[simp] theorem State.setDbg_capWait (s : State) (v : Dbg) : (s.setDbg v).capWait = s.capWait := (rfl)
@[simp] theorem State.setDbg_capture (s : State) (v : Dbg) : (s.setDbg v).capture = s.capture := (rfl)
@[simp] theorem State.setDbg_bramDef (s : State) (v : Dbg) : (s.setDbg v).bramDef = s.bramDef := (rfl)
@[simp] theorem State.setDbg_scrubs (s : State) (v : Dbg) : (s.setDbg v).scrubs = s.scrubs := (rfl)
@[simp] theorem State.setDbg_scrCopy (s : State) (v : Dbg) : (s.setDbg v).scrCopy = s.scrCopy := (rfl)
@[simp] theorem State.setDbg_releases (s : State) (v : Dbg) : (s.setDbg v).releases = s.releases := (rfl)
@[simp] theorem State.setDbg_dieStep (s : State) (v : Dbg) : (s.setDbg v).dieStep = s.dieStep := (rfl)
@[simp] theorem State.setDbg_clampDef (s : State) (v : Dbg) : (s.setDbg v).clampDef = s.clampDef := (rfl)
@[simp] theorem State.setDbg_clamps (s : State) (v : Dbg) : (s.setDbg v).clamps = s.clamps := (rfl)
@[simp] theorem State.setDbg_welds (s : State) (v : Dbg) : (s.setDbg v).welds = s.welds := (rfl)
@[simp] theorem State.setDbg_lanes (s : State) (v : Dbg) : (s.setDbg v).lanes = s.lanes := (rfl)
@[simp] theorem State.setDbg_macMode (s : State) (v : Dbg) : (s.setDbg v).macMode = s.macMode := (rfl)
@[simp] theorem State.setDbg_tod (s : State) (v : Dbg) : (s.setDbg v).tod = s.tod := (rfl)
@[simp] theorem State.setDbg_lkp (s : State) (v : Dbg) : (s.setDbg v).lkp = s.lkp := (rfl)
@[simp] theorem State.setDbg_queues (s : State) (v : Dbg) : (s.setDbg v).queues = s.queues := (rfl)
@[simp] theorem State.setDbg_ports (s : State) (v : Dbg) : (s.setDbg v).ports = s.ports := (rfl)
@[simp] theorem State.setDbg_pkt (s : State) (v : Dbg) : (s.setDbg v).pkt = s.pkt := (rfl)
@[simp] theorem State.setDbg_cxl (s : State) (v : Dbg) : (s.setDbg v).cxl = s.cxl := (rfl)
@[simp] theorem State.setDbg_ddr (s : State) (v : Dbg) : (s.setDbg v).ddr = s.ddr := (rfl)
@[simp] theorem State.setDbg_regions (s : State) (v : Dbg) : (s.setDbg v).regions = s.regions := (rfl)
@[simp] theorem State.setDbg_prots (s : State) (v : Dbg) : (s.setDbg v).prots = s.prots := (rfl)
@[simp] theorem State.setDbg_keyStore (s : State) (v : Dbg) : (s.setDbg v).keyStore = s.keyStore := (rfl)
@[simp] theorem State.setDbg_rings (s : State) (v : Dbg) : (s.setDbg v).rings = s.rings := (rfl)
@[simp] theorem State.setDbg_openMem (s : State) (v : Dbg) : (s.setDbg v).openMem = s.openMem := (rfl)
@[simp] theorem State.setDbg_dcRights (s : State) (v : Dbg) : (s.setDbg v).dcRights = s.dcRights := (rfl)
@[simp] theorem State.setDbg_clk (s : State) (v : Dbg) : (s.setDbg v).clk = s.clk := (rfl)
@[simp] theorem State.setDbg_units (s : State) (v : Dbg) : (s.setDbg v).units = s.units := (rfl)
@[simp] theorem State.setDbg_hearthHit (s : State) (v : Dbg) : (s.setDbg v).hearthHit = s.hearthHit := (rfl)
@[simp] theorem State.setDcWait_pending (s : State) (v : Tbl (List NocReq)) : (s.setDcWait v).pending = s.pending := (rfl)
@[simp] theorem State.setDcWait_regs (s : State) (v : Tbl (List NocReq)) : (s.setDcWait v).regs = s.regs := (rfl)
@[simp] theorem State.setDcWait_mem (s : State) (v : Tbl (List NocReq)) : (s.setDcWait v).mem = s.mem := (rfl)
@[simp] theorem State.setDcWait_poison (s : State) (v : Tbl (List NocReq)) : (s.setDcWait v).poison = s.poison := (rfl)
@[simp] theorem State.setDcWait_fresh (s : State) (v : Tbl (List NocReq)) : (s.setDcWait v).fresh = s.fresh := (rfl)
@[simp] theorem State.setDcWait_answer (s : State) (v : Tbl (List NocReq)) : (s.setDcWait v).answer = s.answer := (rfl)
@[simp] theorem State.setDcWait_answerStatus (s : State) (v : Tbl (List NocReq)) : (s.setDcWait v).answerStatus = s.answerStatus := (rfl)
@[simp] theorem State.setDcWait_book (s : State) (v : Tbl (List NocReq)) : (s.setDcWait v).book = s.book := (rfl)
@[simp] theorem State.setDcWait_mgt (s : State) (v : Tbl (List NocReq)) : (s.setDcWait v).mgt = s.mgt := (rfl)
@[simp] theorem State.setDcWait_fpFifo (s : State) (v : Tbl (List NocReq)) : (s.setDcWait v).fpFifo = s.fpFifo := (rfl)
@[simp] theorem State.setDcWait_evtOnce (s : State) (v : Tbl (List NocReq)) : (s.setDcWait v).evtOnce = s.evtOnce := (rfl)
@[simp] theorem State.setDcWait_cycles (s : State) (v : Tbl (List NocReq)) : (s.setDcWait v).cycles = s.cycles := (rfl)
@[simp] theorem State.setDcWait_pcie (s : State) (v : Tbl (List NocReq)) : (s.setDcWait v).pcie = s.pcie := (rfl)
@[simp] theorem State.setDcWait_sent (s : State) (v : Tbl (List NocReq)) : (s.setDcWait v).sent = s.sent := (rfl)
@[simp] theorem State.setDcWait_bw (s : State) (v : Tbl (List NocReq)) : (s.setDcWait v).bw = s.bw := (rfl)
@[simp] theorem State.setDcWait_pmcLatch (s : State) (v : Tbl (List NocReq)) : (s.setDcWait v).pmcLatch = s.pmcLatch := (rfl)
@[simp] theorem State.setDcWait_cal (s : State) (v : Tbl (List NocReq)) : (s.setDcWait v).cal = s.cal := (rfl)
@[simp] theorem State.setDcWait_cfg (s : State) (v : Tbl (List NocReq)) : (s.setDcWait v).cfg = s.cfg := (rfl)
@[simp] theorem State.setDcWait_tap (s : State) (v : Tbl (List NocReq)) : (s.setDcWait v).tap = s.tap := (rfl)
@[simp] theorem State.setDcWait_pins (s : State) (v : Tbl (List NocReq)) : (s.setDcWait v).pins = s.pins := (rfl)
@[simp] theorem State.setDcWait_frames (s : State) (v : Tbl (List NocReq)) : (s.setDcWait v).frames = s.frames := (rfl)
@[simp] theorem State.setDcWait_clusters (s : State) (v : Tbl (List NocReq)) : (s.setDcWait v).clusters = s.clusters := (rfl)
@[simp] theorem State.setDcWait_ffs (s : State) (v : Tbl (List NocReq)) : (s.setDcWait v).ffs = s.ffs := (rfl)
@[simp] theorem State.setDcWait_relStage (s : State) (v : Tbl (List NocReq)) : (s.setDcWait v).relStage = s.relStage := (rfl)
@[simp] theorem State.setDcWait_frozen (s : State) (v : Tbl (List NocReq)) : (s.setDcWait v).frozen = s.frozen := (rfl)
@[simp] theorem State.setDcWait_bramCfg (s : State) (v : Tbl (List NocReq)) : (s.setDcWait v).bramCfg = s.bramCfg := (rfl)
@[simp] theorem State.setDcWait_bram (s : State) (v : Tbl (List NocReq)) : (s.setDcWait v).bram = s.bram := (rfl)
@[simp] theorem State.setDcWait_bramPorts (s : State) (v : Tbl (List NocReq)) : (s.setDcWait v).bramPorts = s.bramPorts := (rfl)
@[simp] theorem State.setDcWait_multCfg (s : State) (v : Tbl (List NocReq)) : (s.setDcWait v).multCfg = s.multCfg := (rfl)
@[simp] theorem State.setDcWait_mults (s : State) (v : Tbl (List NocReq)) : (s.setDcWait v).mults = s.mults := (rfl)
@[simp] theorem State.setDcWait_railKeep (s : State) (v : Tbl (List NocReq)) : (s.setDcWait v).railKeep = s.railKeep := (rfl)
@[simp] theorem State.setDcWait_chk (s : State) (v : Tbl (List NocReq)) : (s.setDcWait v).chk = s.chk := (rfl)
@[simp] theorem State.setDcWait_eccRaw (s : State) (v : Tbl (List NocReq)) : (s.setDcWait v).eccRaw = s.eccRaw := (rfl)
@[simp] theorem State.setDcWait_eccScrub (s : State) (v : Tbl (List NocReq)) : (s.setDcWait v).eccScrub = s.eccScrub := (rfl)
@[simp] theorem State.setDcWait_tags (s : State) (v : Tbl (List NocReq)) : (s.setDcWait v).tags = s.tags := (rfl)
@[simp] theorem State.setDcWait_xUsed (s : State) (v : Tbl (List NocReq)) : (s.setDcWait v).xUsed = s.xUsed := (rfl)
@[simp] theorem State.setDcWait_xWait (s : State) (v : Tbl (List NocReq)) : (s.setDcWait v).xWait = s.xWait := (rfl)
@[simp] theorem State.setDcWait_xHeld (s : State) (v : Tbl (List NocReq)) : (s.setDcWait v).xHeld = s.xHeld := (rfl)
@[simp] theorem State.setDcWait_routers (s : State) (v : Tbl (List NocReq)) : (s.setDcWait v).routers = s.routers := (rfl)
@[simp] theorem State.setDcWait_portMode (s : State) (v : Tbl (List NocReq)) : (s.setDcWait v).portMode = s.portMode := (rfl)
@[simp] theorem State.setDcWait_portTags (s : State) (v : Tbl (List NocReq)) : (s.setDcWait v).portTags = s.portTags := (rfl)
@[simp] theorem State.setDcWait_portFifo (s : State) (v : Tbl (List NocReq)) : (s.setDcWait v).portFifo = s.portFifo := (rfl)
@[simp] theorem State.setDcWait_dcache (s : State) (v : Tbl (List NocReq)) : (s.setDcWait v).dcache = s.dcache := (rfl)
@[simp] theorem State.setDcWait_dir (s : State) (v : Tbl (List NocReq)) : (s.setDcWait v).dir = s.dir := (rfl)
@[simp] theorem State.setDcWait_dieResets (s : State) (v : Tbl (List NocReq)) : (s.setDcWait v).dieResets = s.dieResets := (rfl)
@[simp] theorem State.setDcWait_homeTxn (s : State) (v : Tbl (List NocReq)) : (s.setDcWait v).homeTxn = s.homeTxn := (rfl)
@[simp] theorem State.setDcWait_cores (s : State) (v : Tbl (List NocReq)) : (s.setDcWait v).cores = s.cores := (rfl)
@[simp] theorem State.setDcWait_tngDone (s : State) (v : Tbl (List NocReq)) : (s.setDcWait v).tngDone = s.tngDone := (rfl)
@[simp] theorem State.setDcWait_fab (s : State) (v : Tbl (List NocReq)) : (s.setDcWait v).fab = s.fab := (rfl)
@[simp] theorem State.setDcWait_net (s : State) (v : Tbl (List NocReq)) : (s.setDcWait v).net = s.net := (rfl)
@[simp] theorem State.setDcWait_rtrShare (s : State) (v : Tbl (List NocReq)) : (s.setDcWait v).rtrShare = s.rtrShare := (rfl)
@[simp] theorem State.setDcWait_dbg (s : State) (v : Tbl (List NocReq)) : (s.setDcWait v).dbg = s.dbg := (rfl)
@[simp] theorem State.setDcWait_dcWait (s : State) (v : Tbl (List NocReq)) : (s.setDcWait v).dcWait = v := (rfl)
@[simp] theorem State.setDcWait_prcStep (s : State) (v : Tbl (List NocReq)) : (s.setDcWait v).prcStep = s.prcStep := (rfl)
@[simp] theorem State.setDcWait_prcBlank (s : State) (v : Tbl (List NocReq)) : (s.setDcWait v).prcBlank = s.prcBlank := (rfl)
@[simp] theorem State.setDcWait_prcHold (s : State) (v : Tbl (List NocReq)) : (s.setDcWait v).prcHold = s.prcHold := (rfl)
@[simp] theorem State.setDcWait_capWait (s : State) (v : Tbl (List NocReq)) : (s.setDcWait v).capWait = s.capWait := (rfl)
@[simp] theorem State.setDcWait_capture (s : State) (v : Tbl (List NocReq)) : (s.setDcWait v).capture = s.capture := (rfl)
@[simp] theorem State.setDcWait_bramDef (s : State) (v : Tbl (List NocReq)) : (s.setDcWait v).bramDef = s.bramDef := (rfl)
@[simp] theorem State.setDcWait_scrubs (s : State) (v : Tbl (List NocReq)) : (s.setDcWait v).scrubs = s.scrubs := (rfl)
@[simp] theorem State.setDcWait_scrCopy (s : State) (v : Tbl (List NocReq)) : (s.setDcWait v).scrCopy = s.scrCopy := (rfl)
@[simp] theorem State.setDcWait_releases (s : State) (v : Tbl (List NocReq)) : (s.setDcWait v).releases = s.releases := (rfl)
@[simp] theorem State.setDcWait_dieStep (s : State) (v : Tbl (List NocReq)) : (s.setDcWait v).dieStep = s.dieStep := (rfl)
@[simp] theorem State.setDcWait_clampDef (s : State) (v : Tbl (List NocReq)) : (s.setDcWait v).clampDef = s.clampDef := (rfl)
@[simp] theorem State.setDcWait_clamps (s : State) (v : Tbl (List NocReq)) : (s.setDcWait v).clamps = s.clamps := (rfl)
@[simp] theorem State.setDcWait_welds (s : State) (v : Tbl (List NocReq)) : (s.setDcWait v).welds = s.welds := (rfl)
@[simp] theorem State.setDcWait_lanes (s : State) (v : Tbl (List NocReq)) : (s.setDcWait v).lanes = s.lanes := (rfl)
@[simp] theorem State.setDcWait_macMode (s : State) (v : Tbl (List NocReq)) : (s.setDcWait v).macMode = s.macMode := (rfl)
@[simp] theorem State.setDcWait_tod (s : State) (v : Tbl (List NocReq)) : (s.setDcWait v).tod = s.tod := (rfl)
@[simp] theorem State.setDcWait_lkp (s : State) (v : Tbl (List NocReq)) : (s.setDcWait v).lkp = s.lkp := (rfl)
@[simp] theorem State.setDcWait_queues (s : State) (v : Tbl (List NocReq)) : (s.setDcWait v).queues = s.queues := (rfl)
@[simp] theorem State.setDcWait_ports (s : State) (v : Tbl (List NocReq)) : (s.setDcWait v).ports = s.ports := (rfl)
@[simp] theorem State.setDcWait_pkt (s : State) (v : Tbl (List NocReq)) : (s.setDcWait v).pkt = s.pkt := (rfl)
@[simp] theorem State.setDcWait_cxl (s : State) (v : Tbl (List NocReq)) : (s.setDcWait v).cxl = s.cxl := (rfl)
@[simp] theorem State.setDcWait_ddr (s : State) (v : Tbl (List NocReq)) : (s.setDcWait v).ddr = s.ddr := (rfl)
@[simp] theorem State.setDcWait_regions (s : State) (v : Tbl (List NocReq)) : (s.setDcWait v).regions = s.regions := (rfl)
@[simp] theorem State.setDcWait_prots (s : State) (v : Tbl (List NocReq)) : (s.setDcWait v).prots = s.prots := (rfl)
@[simp] theorem State.setDcWait_keyStore (s : State) (v : Tbl (List NocReq)) : (s.setDcWait v).keyStore = s.keyStore := (rfl)
@[simp] theorem State.setDcWait_rings (s : State) (v : Tbl (List NocReq)) : (s.setDcWait v).rings = s.rings := (rfl)
@[simp] theorem State.setDcWait_openMem (s : State) (v : Tbl (List NocReq)) : (s.setDcWait v).openMem = s.openMem := (rfl)
@[simp] theorem State.setDcWait_dcRights (s : State) (v : Tbl (List NocReq)) : (s.setDcWait v).dcRights = s.dcRights := (rfl)
@[simp] theorem State.setDcWait_clk (s : State) (v : Tbl (List NocReq)) : (s.setDcWait v).clk = s.clk := (rfl)
@[simp] theorem State.setDcWait_units (s : State) (v : Tbl (List NocReq)) : (s.setDcWait v).units = s.units := (rfl)
@[simp] theorem State.setDcWait_hearthHit (s : State) (v : Tbl (List NocReq)) : (s.setDcWait v).hearthHit = s.hearthHit := (rfl)
@[simp] theorem State.setPrcStep_pending (s : State) (v : Tbl Nat) : (s.setPrcStep v).pending = s.pending := (rfl)
@[simp] theorem State.setPrcStep_regs (s : State) (v : Tbl Nat) : (s.setPrcStep v).regs = s.regs := (rfl)
@[simp] theorem State.setPrcStep_mem (s : State) (v : Tbl Nat) : (s.setPrcStep v).mem = s.mem := (rfl)
@[simp] theorem State.setPrcStep_poison (s : State) (v : Tbl Nat) : (s.setPrcStep v).poison = s.poison := (rfl)
@[simp] theorem State.setPrcStep_fresh (s : State) (v : Tbl Nat) : (s.setPrcStep v).fresh = s.fresh := (rfl)
@[simp] theorem State.setPrcStep_answer (s : State) (v : Tbl Nat) : (s.setPrcStep v).answer = s.answer := (rfl)
@[simp] theorem State.setPrcStep_answerStatus (s : State) (v : Tbl Nat) : (s.setPrcStep v).answerStatus = s.answerStatus := (rfl)
@[simp] theorem State.setPrcStep_book (s : State) (v : Tbl Nat) : (s.setPrcStep v).book = s.book := (rfl)
@[simp] theorem State.setPrcStep_mgt (s : State) (v : Tbl Nat) : (s.setPrcStep v).mgt = s.mgt := (rfl)
@[simp] theorem State.setPrcStep_fpFifo (s : State) (v : Tbl Nat) : (s.setPrcStep v).fpFifo = s.fpFifo := (rfl)
@[simp] theorem State.setPrcStep_evtOnce (s : State) (v : Tbl Nat) : (s.setPrcStep v).evtOnce = s.evtOnce := (rfl)
@[simp] theorem State.setPrcStep_cycles (s : State) (v : Tbl Nat) : (s.setPrcStep v).cycles = s.cycles := (rfl)
@[simp] theorem State.setPrcStep_pcie (s : State) (v : Tbl Nat) : (s.setPrcStep v).pcie = s.pcie := (rfl)
@[simp] theorem State.setPrcStep_sent (s : State) (v : Tbl Nat) : (s.setPrcStep v).sent = s.sent := (rfl)
@[simp] theorem State.setPrcStep_bw (s : State) (v : Tbl Nat) : (s.setPrcStep v).bw = s.bw := (rfl)
@[simp] theorem State.setPrcStep_pmcLatch (s : State) (v : Tbl Nat) : (s.setPrcStep v).pmcLatch = s.pmcLatch := (rfl)
@[simp] theorem State.setPrcStep_cal (s : State) (v : Tbl Nat) : (s.setPrcStep v).cal = s.cal := (rfl)
@[simp] theorem State.setPrcStep_cfg (s : State) (v : Tbl Nat) : (s.setPrcStep v).cfg = s.cfg := (rfl)
@[simp] theorem State.setPrcStep_tap (s : State) (v : Tbl Nat) : (s.setPrcStep v).tap = s.tap := (rfl)
@[simp] theorem State.setPrcStep_pins (s : State) (v : Tbl Nat) : (s.setPrcStep v).pins = s.pins := (rfl)
@[simp] theorem State.setPrcStep_frames (s : State) (v : Tbl Nat) : (s.setPrcStep v).frames = s.frames := (rfl)
@[simp] theorem State.setPrcStep_clusters (s : State) (v : Tbl Nat) : (s.setPrcStep v).clusters = s.clusters := (rfl)
@[simp] theorem State.setPrcStep_ffs (s : State) (v : Tbl Nat) : (s.setPrcStep v).ffs = s.ffs := (rfl)
@[simp] theorem State.setPrcStep_relStage (s : State) (v : Tbl Nat) : (s.setPrcStep v).relStage = s.relStage := (rfl)
@[simp] theorem State.setPrcStep_frozen (s : State) (v : Tbl Nat) : (s.setPrcStep v).frozen = s.frozen := (rfl)
@[simp] theorem State.setPrcStep_bramCfg (s : State) (v : Tbl Nat) : (s.setPrcStep v).bramCfg = s.bramCfg := (rfl)
@[simp] theorem State.setPrcStep_bram (s : State) (v : Tbl Nat) : (s.setPrcStep v).bram = s.bram := (rfl)
@[simp] theorem State.setPrcStep_bramPorts (s : State) (v : Tbl Nat) : (s.setPrcStep v).bramPorts = s.bramPorts := (rfl)
@[simp] theorem State.setPrcStep_multCfg (s : State) (v : Tbl Nat) : (s.setPrcStep v).multCfg = s.multCfg := (rfl)
@[simp] theorem State.setPrcStep_mults (s : State) (v : Tbl Nat) : (s.setPrcStep v).mults = s.mults := (rfl)
@[simp] theorem State.setPrcStep_railKeep (s : State) (v : Tbl Nat) : (s.setPrcStep v).railKeep = s.railKeep := (rfl)
@[simp] theorem State.setPrcStep_chk (s : State) (v : Tbl Nat) : (s.setPrcStep v).chk = s.chk := (rfl)
@[simp] theorem State.setPrcStep_eccRaw (s : State) (v : Tbl Nat) : (s.setPrcStep v).eccRaw = s.eccRaw := (rfl)
@[simp] theorem State.setPrcStep_eccScrub (s : State) (v : Tbl Nat) : (s.setPrcStep v).eccScrub = s.eccScrub := (rfl)
@[simp] theorem State.setPrcStep_tags (s : State) (v : Tbl Nat) : (s.setPrcStep v).tags = s.tags := (rfl)
@[simp] theorem State.setPrcStep_xUsed (s : State) (v : Tbl Nat) : (s.setPrcStep v).xUsed = s.xUsed := (rfl)
@[simp] theorem State.setPrcStep_xWait (s : State) (v : Tbl Nat) : (s.setPrcStep v).xWait = s.xWait := (rfl)
@[simp] theorem State.setPrcStep_xHeld (s : State) (v : Tbl Nat) : (s.setPrcStep v).xHeld = s.xHeld := (rfl)
@[simp] theorem State.setPrcStep_routers (s : State) (v : Tbl Nat) : (s.setPrcStep v).routers = s.routers := (rfl)
@[simp] theorem State.setPrcStep_portMode (s : State) (v : Tbl Nat) : (s.setPrcStep v).portMode = s.portMode := (rfl)
@[simp] theorem State.setPrcStep_portTags (s : State) (v : Tbl Nat) : (s.setPrcStep v).portTags = s.portTags := (rfl)
@[simp] theorem State.setPrcStep_portFifo (s : State) (v : Tbl Nat) : (s.setPrcStep v).portFifo = s.portFifo := (rfl)
@[simp] theorem State.setPrcStep_dcache (s : State) (v : Tbl Nat) : (s.setPrcStep v).dcache = s.dcache := (rfl)
@[simp] theorem State.setPrcStep_dir (s : State) (v : Tbl Nat) : (s.setPrcStep v).dir = s.dir := (rfl)
@[simp] theorem State.setPrcStep_dieResets (s : State) (v : Tbl Nat) : (s.setPrcStep v).dieResets = s.dieResets := (rfl)
@[simp] theorem State.setPrcStep_homeTxn (s : State) (v : Tbl Nat) : (s.setPrcStep v).homeTxn = s.homeTxn := (rfl)
@[simp] theorem State.setPrcStep_cores (s : State) (v : Tbl Nat) : (s.setPrcStep v).cores = s.cores := (rfl)
@[simp] theorem State.setPrcStep_tngDone (s : State) (v : Tbl Nat) : (s.setPrcStep v).tngDone = s.tngDone := (rfl)
@[simp] theorem State.setPrcStep_fab (s : State) (v : Tbl Nat) : (s.setPrcStep v).fab = s.fab := (rfl)
@[simp] theorem State.setPrcStep_net (s : State) (v : Tbl Nat) : (s.setPrcStep v).net = s.net := (rfl)
@[simp] theorem State.setPrcStep_rtrShare (s : State) (v : Tbl Nat) : (s.setPrcStep v).rtrShare = s.rtrShare := (rfl)
@[simp] theorem State.setPrcStep_dbg (s : State) (v : Tbl Nat) : (s.setPrcStep v).dbg = s.dbg := (rfl)
@[simp] theorem State.setPrcStep_dcWait (s : State) (v : Tbl Nat) : (s.setPrcStep v).dcWait = s.dcWait := (rfl)
@[simp] theorem State.setPrcStep_prcStep (s : State) (v : Tbl Nat) : (s.setPrcStep v).prcStep = v := (rfl)
@[simp] theorem State.setPrcStep_prcBlank (s : State) (v : Tbl Nat) : (s.setPrcStep v).prcBlank = s.prcBlank := (rfl)
@[simp] theorem State.setPrcStep_prcHold (s : State) (v : Tbl Nat) : (s.setPrcStep v).prcHold = s.prcHold := (rfl)
@[simp] theorem State.setPrcStep_capWait (s : State) (v : Tbl Nat) : (s.setPrcStep v).capWait = s.capWait := (rfl)
@[simp] theorem State.setPrcStep_capture (s : State) (v : Tbl Nat) : (s.setPrcStep v).capture = s.capture := (rfl)
@[simp] theorem State.setPrcStep_bramDef (s : State) (v : Tbl Nat) : (s.setPrcStep v).bramDef = s.bramDef := (rfl)
@[simp] theorem State.setPrcStep_scrubs (s : State) (v : Tbl Nat) : (s.setPrcStep v).scrubs = s.scrubs := (rfl)
@[simp] theorem State.setPrcStep_scrCopy (s : State) (v : Tbl Nat) : (s.setPrcStep v).scrCopy = s.scrCopy := (rfl)
@[simp] theorem State.setPrcStep_releases (s : State) (v : Tbl Nat) : (s.setPrcStep v).releases = s.releases := (rfl)
@[simp] theorem State.setPrcStep_dieStep (s : State) (v : Tbl Nat) : (s.setPrcStep v).dieStep = s.dieStep := (rfl)
@[simp] theorem State.setPrcStep_clampDef (s : State) (v : Tbl Nat) : (s.setPrcStep v).clampDef = s.clampDef := (rfl)
@[simp] theorem State.setPrcStep_clamps (s : State) (v : Tbl Nat) : (s.setPrcStep v).clamps = s.clamps := (rfl)
@[simp] theorem State.setPrcStep_welds (s : State) (v : Tbl Nat) : (s.setPrcStep v).welds = s.welds := (rfl)
@[simp] theorem State.setPrcStep_lanes (s : State) (v : Tbl Nat) : (s.setPrcStep v).lanes = s.lanes := (rfl)
@[simp] theorem State.setPrcStep_macMode (s : State) (v : Tbl Nat) : (s.setPrcStep v).macMode = s.macMode := (rfl)
@[simp] theorem State.setPrcStep_tod (s : State) (v : Tbl Nat) : (s.setPrcStep v).tod = s.tod := (rfl)
@[simp] theorem State.setPrcStep_lkp (s : State) (v : Tbl Nat) : (s.setPrcStep v).lkp = s.lkp := (rfl)
@[simp] theorem State.setPrcStep_queues (s : State) (v : Tbl Nat) : (s.setPrcStep v).queues = s.queues := (rfl)
@[simp] theorem State.setPrcStep_ports (s : State) (v : Tbl Nat) : (s.setPrcStep v).ports = s.ports := (rfl)
@[simp] theorem State.setPrcStep_pkt (s : State) (v : Tbl Nat) : (s.setPrcStep v).pkt = s.pkt := (rfl)
@[simp] theorem State.setPrcStep_cxl (s : State) (v : Tbl Nat) : (s.setPrcStep v).cxl = s.cxl := (rfl)
@[simp] theorem State.setPrcStep_ddr (s : State) (v : Tbl Nat) : (s.setPrcStep v).ddr = s.ddr := (rfl)
@[simp] theorem State.setPrcStep_regions (s : State) (v : Tbl Nat) : (s.setPrcStep v).regions = s.regions := (rfl)
@[simp] theorem State.setPrcStep_prots (s : State) (v : Tbl Nat) : (s.setPrcStep v).prots = s.prots := (rfl)
@[simp] theorem State.setPrcStep_keyStore (s : State) (v : Tbl Nat) : (s.setPrcStep v).keyStore = s.keyStore := (rfl)
@[simp] theorem State.setPrcStep_rings (s : State) (v : Tbl Nat) : (s.setPrcStep v).rings = s.rings := (rfl)
@[simp] theorem State.setPrcStep_openMem (s : State) (v : Tbl Nat) : (s.setPrcStep v).openMem = s.openMem := (rfl)
@[simp] theorem State.setPrcStep_dcRights (s : State) (v : Tbl Nat) : (s.setPrcStep v).dcRights = s.dcRights := (rfl)
@[simp] theorem State.setPrcStep_clk (s : State) (v : Tbl Nat) : (s.setPrcStep v).clk = s.clk := (rfl)
@[simp] theorem State.setPrcStep_units (s : State) (v : Tbl Nat) : (s.setPrcStep v).units = s.units := (rfl)
@[simp] theorem State.setPrcStep_hearthHit (s : State) (v : Tbl Nat) : (s.setPrcStep v).hearthHit = s.hearthHit := (rfl)
@[simp] theorem State.setPrcBlank_pending (s : State) (v : List Nat) : (s.setPrcBlank v).pending = s.pending := (rfl)
@[simp] theorem State.setPrcBlank_regs (s : State) (v : List Nat) : (s.setPrcBlank v).regs = s.regs := (rfl)
@[simp] theorem State.setPrcBlank_mem (s : State) (v : List Nat) : (s.setPrcBlank v).mem = s.mem := (rfl)
@[simp] theorem State.setPrcBlank_poison (s : State) (v : List Nat) : (s.setPrcBlank v).poison = s.poison := (rfl)
@[simp] theorem State.setPrcBlank_fresh (s : State) (v : List Nat) : (s.setPrcBlank v).fresh = s.fresh := (rfl)
@[simp] theorem State.setPrcBlank_answer (s : State) (v : List Nat) : (s.setPrcBlank v).answer = s.answer := (rfl)
@[simp] theorem State.setPrcBlank_answerStatus (s : State) (v : List Nat) : (s.setPrcBlank v).answerStatus = s.answerStatus := (rfl)
@[simp] theorem State.setPrcBlank_book (s : State) (v : List Nat) : (s.setPrcBlank v).book = s.book := (rfl)
@[simp] theorem State.setPrcBlank_mgt (s : State) (v : List Nat) : (s.setPrcBlank v).mgt = s.mgt := (rfl)
@[simp] theorem State.setPrcBlank_fpFifo (s : State) (v : List Nat) : (s.setPrcBlank v).fpFifo = s.fpFifo := (rfl)
@[simp] theorem State.setPrcBlank_evtOnce (s : State) (v : List Nat) : (s.setPrcBlank v).evtOnce = s.evtOnce := (rfl)
@[simp] theorem State.setPrcBlank_cycles (s : State) (v : List Nat) : (s.setPrcBlank v).cycles = s.cycles := (rfl)
@[simp] theorem State.setPrcBlank_pcie (s : State) (v : List Nat) : (s.setPrcBlank v).pcie = s.pcie := (rfl)
@[simp] theorem State.setPrcBlank_sent (s : State) (v : List Nat) : (s.setPrcBlank v).sent = s.sent := (rfl)
@[simp] theorem State.setPrcBlank_bw (s : State) (v : List Nat) : (s.setPrcBlank v).bw = s.bw := (rfl)
@[simp] theorem State.setPrcBlank_pmcLatch (s : State) (v : List Nat) : (s.setPrcBlank v).pmcLatch = s.pmcLatch := (rfl)
@[simp] theorem State.setPrcBlank_cal (s : State) (v : List Nat) : (s.setPrcBlank v).cal = s.cal := (rfl)
@[simp] theorem State.setPrcBlank_cfg (s : State) (v : List Nat) : (s.setPrcBlank v).cfg = s.cfg := (rfl)
@[simp] theorem State.setPrcBlank_tap (s : State) (v : List Nat) : (s.setPrcBlank v).tap = s.tap := (rfl)
@[simp] theorem State.setPrcBlank_pins (s : State) (v : List Nat) : (s.setPrcBlank v).pins = s.pins := (rfl)
@[simp] theorem State.setPrcBlank_frames (s : State) (v : List Nat) : (s.setPrcBlank v).frames = s.frames := (rfl)
@[simp] theorem State.setPrcBlank_clusters (s : State) (v : List Nat) : (s.setPrcBlank v).clusters = s.clusters := (rfl)
@[simp] theorem State.setPrcBlank_ffs (s : State) (v : List Nat) : (s.setPrcBlank v).ffs = s.ffs := (rfl)
@[simp] theorem State.setPrcBlank_relStage (s : State) (v : List Nat) : (s.setPrcBlank v).relStage = s.relStage := (rfl)
@[simp] theorem State.setPrcBlank_frozen (s : State) (v : List Nat) : (s.setPrcBlank v).frozen = s.frozen := (rfl)
@[simp] theorem State.setPrcBlank_bramCfg (s : State) (v : List Nat) : (s.setPrcBlank v).bramCfg = s.bramCfg := (rfl)
@[simp] theorem State.setPrcBlank_bram (s : State) (v : List Nat) : (s.setPrcBlank v).bram = s.bram := (rfl)
@[simp] theorem State.setPrcBlank_bramPorts (s : State) (v : List Nat) : (s.setPrcBlank v).bramPorts = s.bramPorts := (rfl)
@[simp] theorem State.setPrcBlank_multCfg (s : State) (v : List Nat) : (s.setPrcBlank v).multCfg = s.multCfg := (rfl)
@[simp] theorem State.setPrcBlank_mults (s : State) (v : List Nat) : (s.setPrcBlank v).mults = s.mults := (rfl)
@[simp] theorem State.setPrcBlank_railKeep (s : State) (v : List Nat) : (s.setPrcBlank v).railKeep = s.railKeep := (rfl)
@[simp] theorem State.setPrcBlank_chk (s : State) (v : List Nat) : (s.setPrcBlank v).chk = s.chk := (rfl)
@[simp] theorem State.setPrcBlank_eccRaw (s : State) (v : List Nat) : (s.setPrcBlank v).eccRaw = s.eccRaw := (rfl)
@[simp] theorem State.setPrcBlank_eccScrub (s : State) (v : List Nat) : (s.setPrcBlank v).eccScrub = s.eccScrub := (rfl)
@[simp] theorem State.setPrcBlank_tags (s : State) (v : List Nat) : (s.setPrcBlank v).tags = s.tags := (rfl)
@[simp] theorem State.setPrcBlank_xUsed (s : State) (v : List Nat) : (s.setPrcBlank v).xUsed = s.xUsed := (rfl)
@[simp] theorem State.setPrcBlank_xWait (s : State) (v : List Nat) : (s.setPrcBlank v).xWait = s.xWait := (rfl)
@[simp] theorem State.setPrcBlank_xHeld (s : State) (v : List Nat) : (s.setPrcBlank v).xHeld = s.xHeld := (rfl)
@[simp] theorem State.setPrcBlank_routers (s : State) (v : List Nat) : (s.setPrcBlank v).routers = s.routers := (rfl)
@[simp] theorem State.setPrcBlank_portMode (s : State) (v : List Nat) : (s.setPrcBlank v).portMode = s.portMode := (rfl)
@[simp] theorem State.setPrcBlank_portTags (s : State) (v : List Nat) : (s.setPrcBlank v).portTags = s.portTags := (rfl)
@[simp] theorem State.setPrcBlank_portFifo (s : State) (v : List Nat) : (s.setPrcBlank v).portFifo = s.portFifo := (rfl)
@[simp] theorem State.setPrcBlank_dcache (s : State) (v : List Nat) : (s.setPrcBlank v).dcache = s.dcache := (rfl)
@[simp] theorem State.setPrcBlank_dir (s : State) (v : List Nat) : (s.setPrcBlank v).dir = s.dir := (rfl)
@[simp] theorem State.setPrcBlank_dieResets (s : State) (v : List Nat) : (s.setPrcBlank v).dieResets = s.dieResets := (rfl)
@[simp] theorem State.setPrcBlank_homeTxn (s : State) (v : List Nat) : (s.setPrcBlank v).homeTxn = s.homeTxn := (rfl)
@[simp] theorem State.setPrcBlank_cores (s : State) (v : List Nat) : (s.setPrcBlank v).cores = s.cores := (rfl)
@[simp] theorem State.setPrcBlank_tngDone (s : State) (v : List Nat) : (s.setPrcBlank v).tngDone = s.tngDone := (rfl)
@[simp] theorem State.setPrcBlank_fab (s : State) (v : List Nat) : (s.setPrcBlank v).fab = s.fab := (rfl)
@[simp] theorem State.setPrcBlank_net (s : State) (v : List Nat) : (s.setPrcBlank v).net = s.net := (rfl)
@[simp] theorem State.setPrcBlank_rtrShare (s : State) (v : List Nat) : (s.setPrcBlank v).rtrShare = s.rtrShare := (rfl)
@[simp] theorem State.setPrcBlank_dbg (s : State) (v : List Nat) : (s.setPrcBlank v).dbg = s.dbg := (rfl)
@[simp] theorem State.setPrcBlank_dcWait (s : State) (v : List Nat) : (s.setPrcBlank v).dcWait = s.dcWait := (rfl)
@[simp] theorem State.setPrcBlank_prcStep (s : State) (v : List Nat) : (s.setPrcBlank v).prcStep = s.prcStep := (rfl)
@[simp] theorem State.setPrcBlank_prcBlank (s : State) (v : List Nat) : (s.setPrcBlank v).prcBlank = v := (rfl)
@[simp] theorem State.setPrcBlank_prcHold (s : State) (v : List Nat) : (s.setPrcBlank v).prcHold = s.prcHold := (rfl)
@[simp] theorem State.setPrcBlank_capWait (s : State) (v : List Nat) : (s.setPrcBlank v).capWait = s.capWait := (rfl)
@[simp] theorem State.setPrcBlank_capture (s : State) (v : List Nat) : (s.setPrcBlank v).capture = s.capture := (rfl)
@[simp] theorem State.setPrcBlank_bramDef (s : State) (v : List Nat) : (s.setPrcBlank v).bramDef = s.bramDef := (rfl)
@[simp] theorem State.setPrcBlank_scrubs (s : State) (v : List Nat) : (s.setPrcBlank v).scrubs = s.scrubs := (rfl)
@[simp] theorem State.setPrcBlank_scrCopy (s : State) (v : List Nat) : (s.setPrcBlank v).scrCopy = s.scrCopy := (rfl)
@[simp] theorem State.setPrcBlank_releases (s : State) (v : List Nat) : (s.setPrcBlank v).releases = s.releases := (rfl)
@[simp] theorem State.setPrcBlank_dieStep (s : State) (v : List Nat) : (s.setPrcBlank v).dieStep = s.dieStep := (rfl)
@[simp] theorem State.setPrcBlank_clampDef (s : State) (v : List Nat) : (s.setPrcBlank v).clampDef = s.clampDef := (rfl)
@[simp] theorem State.setPrcBlank_clamps (s : State) (v : List Nat) : (s.setPrcBlank v).clamps = s.clamps := (rfl)
@[simp] theorem State.setPrcBlank_welds (s : State) (v : List Nat) : (s.setPrcBlank v).welds = s.welds := (rfl)
@[simp] theorem State.setPrcBlank_lanes (s : State) (v : List Nat) : (s.setPrcBlank v).lanes = s.lanes := (rfl)
@[simp] theorem State.setPrcBlank_macMode (s : State) (v : List Nat) : (s.setPrcBlank v).macMode = s.macMode := (rfl)
@[simp] theorem State.setPrcBlank_tod (s : State) (v : List Nat) : (s.setPrcBlank v).tod = s.tod := (rfl)
@[simp] theorem State.setPrcBlank_lkp (s : State) (v : List Nat) : (s.setPrcBlank v).lkp = s.lkp := (rfl)
@[simp] theorem State.setPrcBlank_queues (s : State) (v : List Nat) : (s.setPrcBlank v).queues = s.queues := (rfl)
@[simp] theorem State.setPrcBlank_ports (s : State) (v : List Nat) : (s.setPrcBlank v).ports = s.ports := (rfl)
@[simp] theorem State.setPrcBlank_pkt (s : State) (v : List Nat) : (s.setPrcBlank v).pkt = s.pkt := (rfl)
@[simp] theorem State.setPrcBlank_cxl (s : State) (v : List Nat) : (s.setPrcBlank v).cxl = s.cxl := (rfl)
@[simp] theorem State.setPrcBlank_ddr (s : State) (v : List Nat) : (s.setPrcBlank v).ddr = s.ddr := (rfl)
@[simp] theorem State.setPrcBlank_regions (s : State) (v : List Nat) : (s.setPrcBlank v).regions = s.regions := (rfl)
@[simp] theorem State.setPrcBlank_prots (s : State) (v : List Nat) : (s.setPrcBlank v).prots = s.prots := (rfl)
@[simp] theorem State.setPrcBlank_keyStore (s : State) (v : List Nat) : (s.setPrcBlank v).keyStore = s.keyStore := (rfl)
@[simp] theorem State.setPrcBlank_rings (s : State) (v : List Nat) : (s.setPrcBlank v).rings = s.rings := (rfl)
@[simp] theorem State.setPrcBlank_openMem (s : State) (v : List Nat) : (s.setPrcBlank v).openMem = s.openMem := (rfl)
@[simp] theorem State.setPrcBlank_dcRights (s : State) (v : List Nat) : (s.setPrcBlank v).dcRights = s.dcRights := (rfl)
@[simp] theorem State.setPrcBlank_clk (s : State) (v : List Nat) : (s.setPrcBlank v).clk = s.clk := (rfl)
@[simp] theorem State.setPrcBlank_units (s : State) (v : List Nat) : (s.setPrcBlank v).units = s.units := (rfl)
@[simp] theorem State.setPrcBlank_hearthHit (s : State) (v : List Nat) : (s.setPrcBlank v).hearthHit = s.hearthHit := (rfl)
@[simp] theorem State.setPrcHold_pending (s : State) (v : List Nat) : (s.setPrcHold v).pending = s.pending := (rfl)
@[simp] theorem State.setPrcHold_regs (s : State) (v : List Nat) : (s.setPrcHold v).regs = s.regs := (rfl)
@[simp] theorem State.setPrcHold_mem (s : State) (v : List Nat) : (s.setPrcHold v).mem = s.mem := (rfl)
@[simp] theorem State.setPrcHold_poison (s : State) (v : List Nat) : (s.setPrcHold v).poison = s.poison := (rfl)
@[simp] theorem State.setPrcHold_fresh (s : State) (v : List Nat) : (s.setPrcHold v).fresh = s.fresh := (rfl)
@[simp] theorem State.setPrcHold_answer (s : State) (v : List Nat) : (s.setPrcHold v).answer = s.answer := (rfl)
@[simp] theorem State.setPrcHold_answerStatus (s : State) (v : List Nat) : (s.setPrcHold v).answerStatus = s.answerStatus := (rfl)
@[simp] theorem State.setPrcHold_book (s : State) (v : List Nat) : (s.setPrcHold v).book = s.book := (rfl)
@[simp] theorem State.setPrcHold_mgt (s : State) (v : List Nat) : (s.setPrcHold v).mgt = s.mgt := (rfl)
@[simp] theorem State.setPrcHold_fpFifo (s : State) (v : List Nat) : (s.setPrcHold v).fpFifo = s.fpFifo := (rfl)
@[simp] theorem State.setPrcHold_evtOnce (s : State) (v : List Nat) : (s.setPrcHold v).evtOnce = s.evtOnce := (rfl)
@[simp] theorem State.setPrcHold_cycles (s : State) (v : List Nat) : (s.setPrcHold v).cycles = s.cycles := (rfl)
@[simp] theorem State.setPrcHold_pcie (s : State) (v : List Nat) : (s.setPrcHold v).pcie = s.pcie := (rfl)
@[simp] theorem State.setPrcHold_sent (s : State) (v : List Nat) : (s.setPrcHold v).sent = s.sent := (rfl)
@[simp] theorem State.setPrcHold_bw (s : State) (v : List Nat) : (s.setPrcHold v).bw = s.bw := (rfl)
@[simp] theorem State.setPrcHold_pmcLatch (s : State) (v : List Nat) : (s.setPrcHold v).pmcLatch = s.pmcLatch := (rfl)
@[simp] theorem State.setPrcHold_cal (s : State) (v : List Nat) : (s.setPrcHold v).cal = s.cal := (rfl)
@[simp] theorem State.setPrcHold_cfg (s : State) (v : List Nat) : (s.setPrcHold v).cfg = s.cfg := (rfl)
@[simp] theorem State.setPrcHold_tap (s : State) (v : List Nat) : (s.setPrcHold v).tap = s.tap := (rfl)
@[simp] theorem State.setPrcHold_pins (s : State) (v : List Nat) : (s.setPrcHold v).pins = s.pins := (rfl)
@[simp] theorem State.setPrcHold_frames (s : State) (v : List Nat) : (s.setPrcHold v).frames = s.frames := (rfl)
@[simp] theorem State.setPrcHold_clusters (s : State) (v : List Nat) : (s.setPrcHold v).clusters = s.clusters := (rfl)
@[simp] theorem State.setPrcHold_ffs (s : State) (v : List Nat) : (s.setPrcHold v).ffs = s.ffs := (rfl)
@[simp] theorem State.setPrcHold_relStage (s : State) (v : List Nat) : (s.setPrcHold v).relStage = s.relStage := (rfl)
@[simp] theorem State.setPrcHold_frozen (s : State) (v : List Nat) : (s.setPrcHold v).frozen = s.frozen := (rfl)
@[simp] theorem State.setPrcHold_bramCfg (s : State) (v : List Nat) : (s.setPrcHold v).bramCfg = s.bramCfg := (rfl)
@[simp] theorem State.setPrcHold_bram (s : State) (v : List Nat) : (s.setPrcHold v).bram = s.bram := (rfl)
@[simp] theorem State.setPrcHold_bramPorts (s : State) (v : List Nat) : (s.setPrcHold v).bramPorts = s.bramPorts := (rfl)
@[simp] theorem State.setPrcHold_multCfg (s : State) (v : List Nat) : (s.setPrcHold v).multCfg = s.multCfg := (rfl)
@[simp] theorem State.setPrcHold_mults (s : State) (v : List Nat) : (s.setPrcHold v).mults = s.mults := (rfl)
@[simp] theorem State.setPrcHold_railKeep (s : State) (v : List Nat) : (s.setPrcHold v).railKeep = s.railKeep := (rfl)
@[simp] theorem State.setPrcHold_chk (s : State) (v : List Nat) : (s.setPrcHold v).chk = s.chk := (rfl)
@[simp] theorem State.setPrcHold_eccRaw (s : State) (v : List Nat) : (s.setPrcHold v).eccRaw = s.eccRaw := (rfl)
@[simp] theorem State.setPrcHold_eccScrub (s : State) (v : List Nat) : (s.setPrcHold v).eccScrub = s.eccScrub := (rfl)
@[simp] theorem State.setPrcHold_tags (s : State) (v : List Nat) : (s.setPrcHold v).tags = s.tags := (rfl)
@[simp] theorem State.setPrcHold_xUsed (s : State) (v : List Nat) : (s.setPrcHold v).xUsed = s.xUsed := (rfl)
@[simp] theorem State.setPrcHold_xWait (s : State) (v : List Nat) : (s.setPrcHold v).xWait = s.xWait := (rfl)
@[simp] theorem State.setPrcHold_xHeld (s : State) (v : List Nat) : (s.setPrcHold v).xHeld = s.xHeld := (rfl)
@[simp] theorem State.setPrcHold_routers (s : State) (v : List Nat) : (s.setPrcHold v).routers = s.routers := (rfl)
@[simp] theorem State.setPrcHold_portMode (s : State) (v : List Nat) : (s.setPrcHold v).portMode = s.portMode := (rfl)
@[simp] theorem State.setPrcHold_portTags (s : State) (v : List Nat) : (s.setPrcHold v).portTags = s.portTags := (rfl)
@[simp] theorem State.setPrcHold_portFifo (s : State) (v : List Nat) : (s.setPrcHold v).portFifo = s.portFifo := (rfl)
@[simp] theorem State.setPrcHold_dcache (s : State) (v : List Nat) : (s.setPrcHold v).dcache = s.dcache := (rfl)
@[simp] theorem State.setPrcHold_dir (s : State) (v : List Nat) : (s.setPrcHold v).dir = s.dir := (rfl)
@[simp] theorem State.setPrcHold_dieResets (s : State) (v : List Nat) : (s.setPrcHold v).dieResets = s.dieResets := (rfl)
@[simp] theorem State.setPrcHold_homeTxn (s : State) (v : List Nat) : (s.setPrcHold v).homeTxn = s.homeTxn := (rfl)
@[simp] theorem State.setPrcHold_cores (s : State) (v : List Nat) : (s.setPrcHold v).cores = s.cores := (rfl)
@[simp] theorem State.setPrcHold_tngDone (s : State) (v : List Nat) : (s.setPrcHold v).tngDone = s.tngDone := (rfl)
@[simp] theorem State.setPrcHold_fab (s : State) (v : List Nat) : (s.setPrcHold v).fab = s.fab := (rfl)
@[simp] theorem State.setPrcHold_net (s : State) (v : List Nat) : (s.setPrcHold v).net = s.net := (rfl)
@[simp] theorem State.setPrcHold_rtrShare (s : State) (v : List Nat) : (s.setPrcHold v).rtrShare = s.rtrShare := (rfl)
@[simp] theorem State.setPrcHold_dbg (s : State) (v : List Nat) : (s.setPrcHold v).dbg = s.dbg := (rfl)
@[simp] theorem State.setPrcHold_dcWait (s : State) (v : List Nat) : (s.setPrcHold v).dcWait = s.dcWait := (rfl)
@[simp] theorem State.setPrcHold_prcStep (s : State) (v : List Nat) : (s.setPrcHold v).prcStep = s.prcStep := (rfl)
@[simp] theorem State.setPrcHold_prcBlank (s : State) (v : List Nat) : (s.setPrcHold v).prcBlank = s.prcBlank := (rfl)
@[simp] theorem State.setPrcHold_prcHold (s : State) (v : List Nat) : (s.setPrcHold v).prcHold = v := (rfl)
@[simp] theorem State.setPrcHold_capWait (s : State) (v : List Nat) : (s.setPrcHold v).capWait = s.capWait := (rfl)
@[simp] theorem State.setPrcHold_capture (s : State) (v : List Nat) : (s.setPrcHold v).capture = s.capture := (rfl)
@[simp] theorem State.setPrcHold_bramDef (s : State) (v : List Nat) : (s.setPrcHold v).bramDef = s.bramDef := (rfl)
@[simp] theorem State.setPrcHold_scrubs (s : State) (v : List Nat) : (s.setPrcHold v).scrubs = s.scrubs := (rfl)
@[simp] theorem State.setPrcHold_scrCopy (s : State) (v : List Nat) : (s.setPrcHold v).scrCopy = s.scrCopy := (rfl)
@[simp] theorem State.setPrcHold_releases (s : State) (v : List Nat) : (s.setPrcHold v).releases = s.releases := (rfl)
@[simp] theorem State.setPrcHold_dieStep (s : State) (v : List Nat) : (s.setPrcHold v).dieStep = s.dieStep := (rfl)
@[simp] theorem State.setPrcHold_clampDef (s : State) (v : List Nat) : (s.setPrcHold v).clampDef = s.clampDef := (rfl)
@[simp] theorem State.setPrcHold_clamps (s : State) (v : List Nat) : (s.setPrcHold v).clamps = s.clamps := (rfl)
@[simp] theorem State.setPrcHold_welds (s : State) (v : List Nat) : (s.setPrcHold v).welds = s.welds := (rfl)
@[simp] theorem State.setPrcHold_lanes (s : State) (v : List Nat) : (s.setPrcHold v).lanes = s.lanes := (rfl)
@[simp] theorem State.setPrcHold_macMode (s : State) (v : List Nat) : (s.setPrcHold v).macMode = s.macMode := (rfl)
@[simp] theorem State.setPrcHold_tod (s : State) (v : List Nat) : (s.setPrcHold v).tod = s.tod := (rfl)
@[simp] theorem State.setPrcHold_lkp (s : State) (v : List Nat) : (s.setPrcHold v).lkp = s.lkp := (rfl)
@[simp] theorem State.setPrcHold_queues (s : State) (v : List Nat) : (s.setPrcHold v).queues = s.queues := (rfl)
@[simp] theorem State.setPrcHold_ports (s : State) (v : List Nat) : (s.setPrcHold v).ports = s.ports := (rfl)
@[simp] theorem State.setPrcHold_pkt (s : State) (v : List Nat) : (s.setPrcHold v).pkt = s.pkt := (rfl)
@[simp] theorem State.setPrcHold_cxl (s : State) (v : List Nat) : (s.setPrcHold v).cxl = s.cxl := (rfl)
@[simp] theorem State.setPrcHold_ddr (s : State) (v : List Nat) : (s.setPrcHold v).ddr = s.ddr := (rfl)
@[simp] theorem State.setPrcHold_regions (s : State) (v : List Nat) : (s.setPrcHold v).regions = s.regions := (rfl)
@[simp] theorem State.setPrcHold_prots (s : State) (v : List Nat) : (s.setPrcHold v).prots = s.prots := (rfl)
@[simp] theorem State.setPrcHold_keyStore (s : State) (v : List Nat) : (s.setPrcHold v).keyStore = s.keyStore := (rfl)
@[simp] theorem State.setPrcHold_rings (s : State) (v : List Nat) : (s.setPrcHold v).rings = s.rings := (rfl)
@[simp] theorem State.setPrcHold_openMem (s : State) (v : List Nat) : (s.setPrcHold v).openMem = s.openMem := (rfl)
@[simp] theorem State.setPrcHold_dcRights (s : State) (v : List Nat) : (s.setPrcHold v).dcRights = s.dcRights := (rfl)
@[simp] theorem State.setPrcHold_clk (s : State) (v : List Nat) : (s.setPrcHold v).clk = s.clk := (rfl)
@[simp] theorem State.setPrcHold_units (s : State) (v : List Nat) : (s.setPrcHold v).units = s.units := (rfl)
@[simp] theorem State.setPrcHold_hearthHit (s : State) (v : List Nat) : (s.setPrcHold v).hearthHit = s.hearthHit := (rfl)
@[simp] theorem State.setCapWait_pending (s : State) (v : Tbl CapReq) : (s.setCapWait v).pending = s.pending := (rfl)
@[simp] theorem State.setCapWait_regs (s : State) (v : Tbl CapReq) : (s.setCapWait v).regs = s.regs := (rfl)
@[simp] theorem State.setCapWait_mem (s : State) (v : Tbl CapReq) : (s.setCapWait v).mem = s.mem := (rfl)
@[simp] theorem State.setCapWait_poison (s : State) (v : Tbl CapReq) : (s.setCapWait v).poison = s.poison := (rfl)
@[simp] theorem State.setCapWait_fresh (s : State) (v : Tbl CapReq) : (s.setCapWait v).fresh = s.fresh := (rfl)
@[simp] theorem State.setCapWait_answer (s : State) (v : Tbl CapReq) : (s.setCapWait v).answer = s.answer := (rfl)
@[simp] theorem State.setCapWait_answerStatus (s : State) (v : Tbl CapReq) : (s.setCapWait v).answerStatus = s.answerStatus := (rfl)
@[simp] theorem State.setCapWait_book (s : State) (v : Tbl CapReq) : (s.setCapWait v).book = s.book := (rfl)
@[simp] theorem State.setCapWait_mgt (s : State) (v : Tbl CapReq) : (s.setCapWait v).mgt = s.mgt := (rfl)
@[simp] theorem State.setCapWait_fpFifo (s : State) (v : Tbl CapReq) : (s.setCapWait v).fpFifo = s.fpFifo := (rfl)
@[simp] theorem State.setCapWait_evtOnce (s : State) (v : Tbl CapReq) : (s.setCapWait v).evtOnce = s.evtOnce := (rfl)
@[simp] theorem State.setCapWait_cycles (s : State) (v : Tbl CapReq) : (s.setCapWait v).cycles = s.cycles := (rfl)
@[simp] theorem State.setCapWait_pcie (s : State) (v : Tbl CapReq) : (s.setCapWait v).pcie = s.pcie := (rfl)
@[simp] theorem State.setCapWait_sent (s : State) (v : Tbl CapReq) : (s.setCapWait v).sent = s.sent := (rfl)
@[simp] theorem State.setCapWait_bw (s : State) (v : Tbl CapReq) : (s.setCapWait v).bw = s.bw := (rfl)
@[simp] theorem State.setCapWait_pmcLatch (s : State) (v : Tbl CapReq) : (s.setCapWait v).pmcLatch = s.pmcLatch := (rfl)
@[simp] theorem State.setCapWait_cal (s : State) (v : Tbl CapReq) : (s.setCapWait v).cal = s.cal := (rfl)
@[simp] theorem State.setCapWait_cfg (s : State) (v : Tbl CapReq) : (s.setCapWait v).cfg = s.cfg := (rfl)
@[simp] theorem State.setCapWait_tap (s : State) (v : Tbl CapReq) : (s.setCapWait v).tap = s.tap := (rfl)
@[simp] theorem State.setCapWait_pins (s : State) (v : Tbl CapReq) : (s.setCapWait v).pins = s.pins := (rfl)
@[simp] theorem State.setCapWait_frames (s : State) (v : Tbl CapReq) : (s.setCapWait v).frames = s.frames := (rfl)
@[simp] theorem State.setCapWait_clusters (s : State) (v : Tbl CapReq) : (s.setCapWait v).clusters = s.clusters := (rfl)
@[simp] theorem State.setCapWait_ffs (s : State) (v : Tbl CapReq) : (s.setCapWait v).ffs = s.ffs := (rfl)
@[simp] theorem State.setCapWait_relStage (s : State) (v : Tbl CapReq) : (s.setCapWait v).relStage = s.relStage := (rfl)
@[simp] theorem State.setCapWait_frozen (s : State) (v : Tbl CapReq) : (s.setCapWait v).frozen = s.frozen := (rfl)
@[simp] theorem State.setCapWait_bramCfg (s : State) (v : Tbl CapReq) : (s.setCapWait v).bramCfg = s.bramCfg := (rfl)
@[simp] theorem State.setCapWait_bram (s : State) (v : Tbl CapReq) : (s.setCapWait v).bram = s.bram := (rfl)
@[simp] theorem State.setCapWait_bramPorts (s : State) (v : Tbl CapReq) : (s.setCapWait v).bramPorts = s.bramPorts := (rfl)
@[simp] theorem State.setCapWait_multCfg (s : State) (v : Tbl CapReq) : (s.setCapWait v).multCfg = s.multCfg := (rfl)
@[simp] theorem State.setCapWait_mults (s : State) (v : Tbl CapReq) : (s.setCapWait v).mults = s.mults := (rfl)
@[simp] theorem State.setCapWait_railKeep (s : State) (v : Tbl CapReq) : (s.setCapWait v).railKeep = s.railKeep := (rfl)
@[simp] theorem State.setCapWait_chk (s : State) (v : Tbl CapReq) : (s.setCapWait v).chk = s.chk := (rfl)
@[simp] theorem State.setCapWait_eccRaw (s : State) (v : Tbl CapReq) : (s.setCapWait v).eccRaw = s.eccRaw := (rfl)
@[simp] theorem State.setCapWait_eccScrub (s : State) (v : Tbl CapReq) : (s.setCapWait v).eccScrub = s.eccScrub := (rfl)
@[simp] theorem State.setCapWait_tags (s : State) (v : Tbl CapReq) : (s.setCapWait v).tags = s.tags := (rfl)
@[simp] theorem State.setCapWait_xUsed (s : State) (v : Tbl CapReq) : (s.setCapWait v).xUsed = s.xUsed := (rfl)
@[simp] theorem State.setCapWait_xWait (s : State) (v : Tbl CapReq) : (s.setCapWait v).xWait = s.xWait := (rfl)
@[simp] theorem State.setCapWait_xHeld (s : State) (v : Tbl CapReq) : (s.setCapWait v).xHeld = s.xHeld := (rfl)
@[simp] theorem State.setCapWait_routers (s : State) (v : Tbl CapReq) : (s.setCapWait v).routers = s.routers := (rfl)
@[simp] theorem State.setCapWait_portMode (s : State) (v : Tbl CapReq) : (s.setCapWait v).portMode = s.portMode := (rfl)
@[simp] theorem State.setCapWait_portTags (s : State) (v : Tbl CapReq) : (s.setCapWait v).portTags = s.portTags := (rfl)
@[simp] theorem State.setCapWait_portFifo (s : State) (v : Tbl CapReq) : (s.setCapWait v).portFifo = s.portFifo := (rfl)
@[simp] theorem State.setCapWait_dcache (s : State) (v : Tbl CapReq) : (s.setCapWait v).dcache = s.dcache := (rfl)
@[simp] theorem State.setCapWait_dir (s : State) (v : Tbl CapReq) : (s.setCapWait v).dir = s.dir := (rfl)
@[simp] theorem State.setCapWait_dieResets (s : State) (v : Tbl CapReq) : (s.setCapWait v).dieResets = s.dieResets := (rfl)
@[simp] theorem State.setCapWait_homeTxn (s : State) (v : Tbl CapReq) : (s.setCapWait v).homeTxn = s.homeTxn := (rfl)
@[simp] theorem State.setCapWait_cores (s : State) (v : Tbl CapReq) : (s.setCapWait v).cores = s.cores := (rfl)
@[simp] theorem State.setCapWait_tngDone (s : State) (v : Tbl CapReq) : (s.setCapWait v).tngDone = s.tngDone := (rfl)
@[simp] theorem State.setCapWait_fab (s : State) (v : Tbl CapReq) : (s.setCapWait v).fab = s.fab := (rfl)
@[simp] theorem State.setCapWait_net (s : State) (v : Tbl CapReq) : (s.setCapWait v).net = s.net := (rfl)
@[simp] theorem State.setCapWait_rtrShare (s : State) (v : Tbl CapReq) : (s.setCapWait v).rtrShare = s.rtrShare := (rfl)
@[simp] theorem State.setCapWait_dbg (s : State) (v : Tbl CapReq) : (s.setCapWait v).dbg = s.dbg := (rfl)
@[simp] theorem State.setCapWait_dcWait (s : State) (v : Tbl CapReq) : (s.setCapWait v).dcWait = s.dcWait := (rfl)
@[simp] theorem State.setCapWait_prcStep (s : State) (v : Tbl CapReq) : (s.setCapWait v).prcStep = s.prcStep := (rfl)
@[simp] theorem State.setCapWait_prcBlank (s : State) (v : Tbl CapReq) : (s.setCapWait v).prcBlank = s.prcBlank := (rfl)
@[simp] theorem State.setCapWait_prcHold (s : State) (v : Tbl CapReq) : (s.setCapWait v).prcHold = s.prcHold := (rfl)
@[simp] theorem State.setCapWait_capWait (s : State) (v : Tbl CapReq) : (s.setCapWait v).capWait = v := (rfl)
@[simp] theorem State.setCapWait_capture (s : State) (v : Tbl CapReq) : (s.setCapWait v).capture = s.capture := (rfl)
@[simp] theorem State.setCapWait_bramDef (s : State) (v : Tbl CapReq) : (s.setCapWait v).bramDef = s.bramDef := (rfl)
@[simp] theorem State.setCapWait_scrubs (s : State) (v : Tbl CapReq) : (s.setCapWait v).scrubs = s.scrubs := (rfl)
@[simp] theorem State.setCapWait_scrCopy (s : State) (v : Tbl CapReq) : (s.setCapWait v).scrCopy = s.scrCopy := (rfl)
@[simp] theorem State.setCapWait_releases (s : State) (v : Tbl CapReq) : (s.setCapWait v).releases = s.releases := (rfl)
@[simp] theorem State.setCapWait_dieStep (s : State) (v : Tbl CapReq) : (s.setCapWait v).dieStep = s.dieStep := (rfl)
@[simp] theorem State.setCapWait_clampDef (s : State) (v : Tbl CapReq) : (s.setCapWait v).clampDef = s.clampDef := (rfl)
@[simp] theorem State.setCapWait_clamps (s : State) (v : Tbl CapReq) : (s.setCapWait v).clamps = s.clamps := (rfl)
@[simp] theorem State.setCapWait_welds (s : State) (v : Tbl CapReq) : (s.setCapWait v).welds = s.welds := (rfl)
@[simp] theorem State.setCapWait_lanes (s : State) (v : Tbl CapReq) : (s.setCapWait v).lanes = s.lanes := (rfl)
@[simp] theorem State.setCapWait_macMode (s : State) (v : Tbl CapReq) : (s.setCapWait v).macMode = s.macMode := (rfl)
@[simp] theorem State.setCapWait_tod (s : State) (v : Tbl CapReq) : (s.setCapWait v).tod = s.tod := (rfl)
@[simp] theorem State.setCapWait_lkp (s : State) (v : Tbl CapReq) : (s.setCapWait v).lkp = s.lkp := (rfl)
@[simp] theorem State.setCapWait_queues (s : State) (v : Tbl CapReq) : (s.setCapWait v).queues = s.queues := (rfl)
@[simp] theorem State.setCapWait_ports (s : State) (v : Tbl CapReq) : (s.setCapWait v).ports = s.ports := (rfl)
@[simp] theorem State.setCapWait_pkt (s : State) (v : Tbl CapReq) : (s.setCapWait v).pkt = s.pkt := (rfl)
@[simp] theorem State.setCapWait_cxl (s : State) (v : Tbl CapReq) : (s.setCapWait v).cxl = s.cxl := (rfl)
@[simp] theorem State.setCapWait_ddr (s : State) (v : Tbl CapReq) : (s.setCapWait v).ddr = s.ddr := (rfl)
@[simp] theorem State.setCapWait_regions (s : State) (v : Tbl CapReq) : (s.setCapWait v).regions = s.regions := (rfl)
@[simp] theorem State.setCapWait_prots (s : State) (v : Tbl CapReq) : (s.setCapWait v).prots = s.prots := (rfl)
@[simp] theorem State.setCapWait_keyStore (s : State) (v : Tbl CapReq) : (s.setCapWait v).keyStore = s.keyStore := (rfl)
@[simp] theorem State.setCapWait_rings (s : State) (v : Tbl CapReq) : (s.setCapWait v).rings = s.rings := (rfl)
@[simp] theorem State.setCapWait_openMem (s : State) (v : Tbl CapReq) : (s.setCapWait v).openMem = s.openMem := (rfl)
@[simp] theorem State.setCapWait_dcRights (s : State) (v : Tbl CapReq) : (s.setCapWait v).dcRights = s.dcRights := (rfl)
@[simp] theorem State.setCapWait_clk (s : State) (v : Tbl CapReq) : (s.setCapWait v).clk = s.clk := (rfl)
@[simp] theorem State.setCapWait_units (s : State) (v : Tbl CapReq) : (s.setCapWait v).units = s.units := (rfl)
@[simp] theorem State.setCapWait_hearthHit (s : State) (v : Tbl CapReq) : (s.setCapWait v).hearthHit = s.hearthHit := (rfl)
@[simp] theorem State.setCapture_pending (s : State) (v : Tbl (Tbl (BitVec 16))) : (s.setCapture v).pending = s.pending := (rfl)
@[simp] theorem State.setCapture_regs (s : State) (v : Tbl (Tbl (BitVec 16))) : (s.setCapture v).regs = s.regs := (rfl)
@[simp] theorem State.setCapture_mem (s : State) (v : Tbl (Tbl (BitVec 16))) : (s.setCapture v).mem = s.mem := (rfl)
@[simp] theorem State.setCapture_poison (s : State) (v : Tbl (Tbl (BitVec 16))) : (s.setCapture v).poison = s.poison := (rfl)
@[simp] theorem State.setCapture_fresh (s : State) (v : Tbl (Tbl (BitVec 16))) : (s.setCapture v).fresh = s.fresh := (rfl)
@[simp] theorem State.setCapture_answer (s : State) (v : Tbl (Tbl (BitVec 16))) : (s.setCapture v).answer = s.answer := (rfl)
@[simp] theorem State.setCapture_answerStatus (s : State) (v : Tbl (Tbl (BitVec 16))) : (s.setCapture v).answerStatus = s.answerStatus := (rfl)
@[simp] theorem State.setCapture_book (s : State) (v : Tbl (Tbl (BitVec 16))) : (s.setCapture v).book = s.book := (rfl)
@[simp] theorem State.setCapture_mgt (s : State) (v : Tbl (Tbl (BitVec 16))) : (s.setCapture v).mgt = s.mgt := (rfl)
@[simp] theorem State.setCapture_fpFifo (s : State) (v : Tbl (Tbl (BitVec 16))) : (s.setCapture v).fpFifo = s.fpFifo := (rfl)
@[simp] theorem State.setCapture_evtOnce (s : State) (v : Tbl (Tbl (BitVec 16))) : (s.setCapture v).evtOnce = s.evtOnce := (rfl)
@[simp] theorem State.setCapture_cycles (s : State) (v : Tbl (Tbl (BitVec 16))) : (s.setCapture v).cycles = s.cycles := (rfl)
@[simp] theorem State.setCapture_pcie (s : State) (v : Tbl (Tbl (BitVec 16))) : (s.setCapture v).pcie = s.pcie := (rfl)
@[simp] theorem State.setCapture_sent (s : State) (v : Tbl (Tbl (BitVec 16))) : (s.setCapture v).sent = s.sent := (rfl)
@[simp] theorem State.setCapture_bw (s : State) (v : Tbl (Tbl (BitVec 16))) : (s.setCapture v).bw = s.bw := (rfl)
@[simp] theorem State.setCapture_pmcLatch (s : State) (v : Tbl (Tbl (BitVec 16))) : (s.setCapture v).pmcLatch = s.pmcLatch := (rfl)
@[simp] theorem State.setCapture_cal (s : State) (v : Tbl (Tbl (BitVec 16))) : (s.setCapture v).cal = s.cal := (rfl)
@[simp] theorem State.setCapture_cfg (s : State) (v : Tbl (Tbl (BitVec 16))) : (s.setCapture v).cfg = s.cfg := (rfl)
@[simp] theorem State.setCapture_tap (s : State) (v : Tbl (Tbl (BitVec 16))) : (s.setCapture v).tap = s.tap := (rfl)
@[simp] theorem State.setCapture_pins (s : State) (v : Tbl (Tbl (BitVec 16))) : (s.setCapture v).pins = s.pins := (rfl)
@[simp] theorem State.setCapture_frames (s : State) (v : Tbl (Tbl (BitVec 16))) : (s.setCapture v).frames = s.frames := (rfl)
@[simp] theorem State.setCapture_clusters (s : State) (v : Tbl (Tbl (BitVec 16))) : (s.setCapture v).clusters = s.clusters := (rfl)
@[simp] theorem State.setCapture_ffs (s : State) (v : Tbl (Tbl (BitVec 16))) : (s.setCapture v).ffs = s.ffs := (rfl)
@[simp] theorem State.setCapture_relStage (s : State) (v : Tbl (Tbl (BitVec 16))) : (s.setCapture v).relStage = s.relStage := (rfl)
@[simp] theorem State.setCapture_frozen (s : State) (v : Tbl (Tbl (BitVec 16))) : (s.setCapture v).frozen = s.frozen := (rfl)
@[simp] theorem State.setCapture_bramCfg (s : State) (v : Tbl (Tbl (BitVec 16))) : (s.setCapture v).bramCfg = s.bramCfg := (rfl)
@[simp] theorem State.setCapture_bram (s : State) (v : Tbl (Tbl (BitVec 16))) : (s.setCapture v).bram = s.bram := (rfl)
@[simp] theorem State.setCapture_bramPorts (s : State) (v : Tbl (Tbl (BitVec 16))) : (s.setCapture v).bramPorts = s.bramPorts := (rfl)
@[simp] theorem State.setCapture_multCfg (s : State) (v : Tbl (Tbl (BitVec 16))) : (s.setCapture v).multCfg = s.multCfg := (rfl)
@[simp] theorem State.setCapture_mults (s : State) (v : Tbl (Tbl (BitVec 16))) : (s.setCapture v).mults = s.mults := (rfl)
@[simp] theorem State.setCapture_railKeep (s : State) (v : Tbl (Tbl (BitVec 16))) : (s.setCapture v).railKeep = s.railKeep := (rfl)
@[simp] theorem State.setCapture_chk (s : State) (v : Tbl (Tbl (BitVec 16))) : (s.setCapture v).chk = s.chk := (rfl)
@[simp] theorem State.setCapture_eccRaw (s : State) (v : Tbl (Tbl (BitVec 16))) : (s.setCapture v).eccRaw = s.eccRaw := (rfl)
@[simp] theorem State.setCapture_eccScrub (s : State) (v : Tbl (Tbl (BitVec 16))) : (s.setCapture v).eccScrub = s.eccScrub := (rfl)
@[simp] theorem State.setCapture_tags (s : State) (v : Tbl (Tbl (BitVec 16))) : (s.setCapture v).tags = s.tags := (rfl)
@[simp] theorem State.setCapture_xUsed (s : State) (v : Tbl (Tbl (BitVec 16))) : (s.setCapture v).xUsed = s.xUsed := (rfl)
@[simp] theorem State.setCapture_xWait (s : State) (v : Tbl (Tbl (BitVec 16))) : (s.setCapture v).xWait = s.xWait := (rfl)
@[simp] theorem State.setCapture_xHeld (s : State) (v : Tbl (Tbl (BitVec 16))) : (s.setCapture v).xHeld = s.xHeld := (rfl)
@[simp] theorem State.setCapture_routers (s : State) (v : Tbl (Tbl (BitVec 16))) : (s.setCapture v).routers = s.routers := (rfl)
@[simp] theorem State.setCapture_portMode (s : State) (v : Tbl (Tbl (BitVec 16))) : (s.setCapture v).portMode = s.portMode := (rfl)
@[simp] theorem State.setCapture_portTags (s : State) (v : Tbl (Tbl (BitVec 16))) : (s.setCapture v).portTags = s.portTags := (rfl)
@[simp] theorem State.setCapture_portFifo (s : State) (v : Tbl (Tbl (BitVec 16))) : (s.setCapture v).portFifo = s.portFifo := (rfl)
@[simp] theorem State.setCapture_dcache (s : State) (v : Tbl (Tbl (BitVec 16))) : (s.setCapture v).dcache = s.dcache := (rfl)
@[simp] theorem State.setCapture_dir (s : State) (v : Tbl (Tbl (BitVec 16))) : (s.setCapture v).dir = s.dir := (rfl)
@[simp] theorem State.setCapture_dieResets (s : State) (v : Tbl (Tbl (BitVec 16))) : (s.setCapture v).dieResets = s.dieResets := (rfl)
@[simp] theorem State.setCapture_homeTxn (s : State) (v : Tbl (Tbl (BitVec 16))) : (s.setCapture v).homeTxn = s.homeTxn := (rfl)
@[simp] theorem State.setCapture_cores (s : State) (v : Tbl (Tbl (BitVec 16))) : (s.setCapture v).cores = s.cores := (rfl)
@[simp] theorem State.setCapture_tngDone (s : State) (v : Tbl (Tbl (BitVec 16))) : (s.setCapture v).tngDone = s.tngDone := (rfl)
@[simp] theorem State.setCapture_fab (s : State) (v : Tbl (Tbl (BitVec 16))) : (s.setCapture v).fab = s.fab := (rfl)
@[simp] theorem State.setCapture_net (s : State) (v : Tbl (Tbl (BitVec 16))) : (s.setCapture v).net = s.net := (rfl)
@[simp] theorem State.setCapture_rtrShare (s : State) (v : Tbl (Tbl (BitVec 16))) : (s.setCapture v).rtrShare = s.rtrShare := (rfl)
@[simp] theorem State.setCapture_dbg (s : State) (v : Tbl (Tbl (BitVec 16))) : (s.setCapture v).dbg = s.dbg := (rfl)
@[simp] theorem State.setCapture_dcWait (s : State) (v : Tbl (Tbl (BitVec 16))) : (s.setCapture v).dcWait = s.dcWait := (rfl)
@[simp] theorem State.setCapture_prcStep (s : State) (v : Tbl (Tbl (BitVec 16))) : (s.setCapture v).prcStep = s.prcStep := (rfl)
@[simp] theorem State.setCapture_prcBlank (s : State) (v : Tbl (Tbl (BitVec 16))) : (s.setCapture v).prcBlank = s.prcBlank := (rfl)
@[simp] theorem State.setCapture_prcHold (s : State) (v : Tbl (Tbl (BitVec 16))) : (s.setCapture v).prcHold = s.prcHold := (rfl)
@[simp] theorem State.setCapture_capWait (s : State) (v : Tbl (Tbl (BitVec 16))) : (s.setCapture v).capWait = s.capWait := (rfl)
@[simp] theorem State.setCapture_capture (s : State) (v : Tbl (Tbl (BitVec 16))) : (s.setCapture v).capture = v := (rfl)
@[simp] theorem State.setCapture_bramDef (s : State) (v : Tbl (Tbl (BitVec 16))) : (s.setCapture v).bramDef = s.bramDef := (rfl)
@[simp] theorem State.setCapture_scrubs (s : State) (v : Tbl (Tbl (BitVec 16))) : (s.setCapture v).scrubs = s.scrubs := (rfl)
@[simp] theorem State.setCapture_scrCopy (s : State) (v : Tbl (Tbl (BitVec 16))) : (s.setCapture v).scrCopy = s.scrCopy := (rfl)
@[simp] theorem State.setCapture_releases (s : State) (v : Tbl (Tbl (BitVec 16))) : (s.setCapture v).releases = s.releases := (rfl)
@[simp] theorem State.setCapture_dieStep (s : State) (v : Tbl (Tbl (BitVec 16))) : (s.setCapture v).dieStep = s.dieStep := (rfl)
@[simp] theorem State.setCapture_clampDef (s : State) (v : Tbl (Tbl (BitVec 16))) : (s.setCapture v).clampDef = s.clampDef := (rfl)
@[simp] theorem State.setCapture_clamps (s : State) (v : Tbl (Tbl (BitVec 16))) : (s.setCapture v).clamps = s.clamps := (rfl)
@[simp] theorem State.setCapture_welds (s : State) (v : Tbl (Tbl (BitVec 16))) : (s.setCapture v).welds = s.welds := (rfl)
@[simp] theorem State.setCapture_lanes (s : State) (v : Tbl (Tbl (BitVec 16))) : (s.setCapture v).lanes = s.lanes := (rfl)
@[simp] theorem State.setCapture_macMode (s : State) (v : Tbl (Tbl (BitVec 16))) : (s.setCapture v).macMode = s.macMode := (rfl)
@[simp] theorem State.setCapture_tod (s : State) (v : Tbl (Tbl (BitVec 16))) : (s.setCapture v).tod = s.tod := (rfl)
@[simp] theorem State.setCapture_lkp (s : State) (v : Tbl (Tbl (BitVec 16))) : (s.setCapture v).lkp = s.lkp := (rfl)
@[simp] theorem State.setCapture_queues (s : State) (v : Tbl (Tbl (BitVec 16))) : (s.setCapture v).queues = s.queues := (rfl)
@[simp] theorem State.setCapture_ports (s : State) (v : Tbl (Tbl (BitVec 16))) : (s.setCapture v).ports = s.ports := (rfl)
@[simp] theorem State.setCapture_pkt (s : State) (v : Tbl (Tbl (BitVec 16))) : (s.setCapture v).pkt = s.pkt := (rfl)
@[simp] theorem State.setCapture_cxl (s : State) (v : Tbl (Tbl (BitVec 16))) : (s.setCapture v).cxl = s.cxl := (rfl)
@[simp] theorem State.setCapture_ddr (s : State) (v : Tbl (Tbl (BitVec 16))) : (s.setCapture v).ddr = s.ddr := (rfl)
@[simp] theorem State.setCapture_regions (s : State) (v : Tbl (Tbl (BitVec 16))) : (s.setCapture v).regions = s.regions := (rfl)
@[simp] theorem State.setCapture_prots (s : State) (v : Tbl (Tbl (BitVec 16))) : (s.setCapture v).prots = s.prots := (rfl)
@[simp] theorem State.setCapture_keyStore (s : State) (v : Tbl (Tbl (BitVec 16))) : (s.setCapture v).keyStore = s.keyStore := (rfl)
@[simp] theorem State.setCapture_rings (s : State) (v : Tbl (Tbl (BitVec 16))) : (s.setCapture v).rings = s.rings := (rfl)
@[simp] theorem State.setCapture_openMem (s : State) (v : Tbl (Tbl (BitVec 16))) : (s.setCapture v).openMem = s.openMem := (rfl)
@[simp] theorem State.setCapture_dcRights (s : State) (v : Tbl (Tbl (BitVec 16))) : (s.setCapture v).dcRights = s.dcRights := (rfl)
@[simp] theorem State.setCapture_clk (s : State) (v : Tbl (Tbl (BitVec 16))) : (s.setCapture v).clk = s.clk := (rfl)
@[simp] theorem State.setCapture_units (s : State) (v : Tbl (Tbl (BitVec 16))) : (s.setCapture v).units = s.units := (rfl)
@[simp] theorem State.setCapture_hearthHit (s : State) (v : Tbl (Tbl (BitVec 16))) : (s.setCapture v).hearthHit = s.hearthHit := (rfl)
@[simp] theorem State.setBramDef_pending (s : State) (v : List Nat) : (s.setBramDef v).pending = s.pending := (rfl)
@[simp] theorem State.setBramDef_regs (s : State) (v : List Nat) : (s.setBramDef v).regs = s.regs := (rfl)
@[simp] theorem State.setBramDef_mem (s : State) (v : List Nat) : (s.setBramDef v).mem = s.mem := (rfl)
@[simp] theorem State.setBramDef_poison (s : State) (v : List Nat) : (s.setBramDef v).poison = s.poison := (rfl)
@[simp] theorem State.setBramDef_fresh (s : State) (v : List Nat) : (s.setBramDef v).fresh = s.fresh := (rfl)
@[simp] theorem State.setBramDef_answer (s : State) (v : List Nat) : (s.setBramDef v).answer = s.answer := (rfl)
@[simp] theorem State.setBramDef_answerStatus (s : State) (v : List Nat) : (s.setBramDef v).answerStatus = s.answerStatus := (rfl)
@[simp] theorem State.setBramDef_book (s : State) (v : List Nat) : (s.setBramDef v).book = s.book := (rfl)
@[simp] theorem State.setBramDef_mgt (s : State) (v : List Nat) : (s.setBramDef v).mgt = s.mgt := (rfl)
@[simp] theorem State.setBramDef_fpFifo (s : State) (v : List Nat) : (s.setBramDef v).fpFifo = s.fpFifo := (rfl)
@[simp] theorem State.setBramDef_evtOnce (s : State) (v : List Nat) : (s.setBramDef v).evtOnce = s.evtOnce := (rfl)
@[simp] theorem State.setBramDef_cycles (s : State) (v : List Nat) : (s.setBramDef v).cycles = s.cycles := (rfl)
@[simp] theorem State.setBramDef_pcie (s : State) (v : List Nat) : (s.setBramDef v).pcie = s.pcie := (rfl)
@[simp] theorem State.setBramDef_sent (s : State) (v : List Nat) : (s.setBramDef v).sent = s.sent := (rfl)
@[simp] theorem State.setBramDef_bw (s : State) (v : List Nat) : (s.setBramDef v).bw = s.bw := (rfl)
@[simp] theorem State.setBramDef_pmcLatch (s : State) (v : List Nat) : (s.setBramDef v).pmcLatch = s.pmcLatch := (rfl)
@[simp] theorem State.setBramDef_cal (s : State) (v : List Nat) : (s.setBramDef v).cal = s.cal := (rfl)
@[simp] theorem State.setBramDef_cfg (s : State) (v : List Nat) : (s.setBramDef v).cfg = s.cfg := (rfl)
@[simp] theorem State.setBramDef_tap (s : State) (v : List Nat) : (s.setBramDef v).tap = s.tap := (rfl)
@[simp] theorem State.setBramDef_pins (s : State) (v : List Nat) : (s.setBramDef v).pins = s.pins := (rfl)
@[simp] theorem State.setBramDef_frames (s : State) (v : List Nat) : (s.setBramDef v).frames = s.frames := (rfl)
@[simp] theorem State.setBramDef_clusters (s : State) (v : List Nat) : (s.setBramDef v).clusters = s.clusters := (rfl)
@[simp] theorem State.setBramDef_ffs (s : State) (v : List Nat) : (s.setBramDef v).ffs = s.ffs := (rfl)
@[simp] theorem State.setBramDef_relStage (s : State) (v : List Nat) : (s.setBramDef v).relStage = s.relStage := (rfl)
@[simp] theorem State.setBramDef_frozen (s : State) (v : List Nat) : (s.setBramDef v).frozen = s.frozen := (rfl)
@[simp] theorem State.setBramDef_bramCfg (s : State) (v : List Nat) : (s.setBramDef v).bramCfg = s.bramCfg := (rfl)
@[simp] theorem State.setBramDef_bram (s : State) (v : List Nat) : (s.setBramDef v).bram = s.bram := (rfl)
@[simp] theorem State.setBramDef_bramPorts (s : State) (v : List Nat) : (s.setBramDef v).bramPorts = s.bramPorts := (rfl)
@[simp] theorem State.setBramDef_multCfg (s : State) (v : List Nat) : (s.setBramDef v).multCfg = s.multCfg := (rfl)
@[simp] theorem State.setBramDef_mults (s : State) (v : List Nat) : (s.setBramDef v).mults = s.mults := (rfl)
@[simp] theorem State.setBramDef_railKeep (s : State) (v : List Nat) : (s.setBramDef v).railKeep = s.railKeep := (rfl)
@[simp] theorem State.setBramDef_chk (s : State) (v : List Nat) : (s.setBramDef v).chk = s.chk := (rfl)
@[simp] theorem State.setBramDef_eccRaw (s : State) (v : List Nat) : (s.setBramDef v).eccRaw = s.eccRaw := (rfl)
@[simp] theorem State.setBramDef_eccScrub (s : State) (v : List Nat) : (s.setBramDef v).eccScrub = s.eccScrub := (rfl)
@[simp] theorem State.setBramDef_tags (s : State) (v : List Nat) : (s.setBramDef v).tags = s.tags := (rfl)
@[simp] theorem State.setBramDef_xUsed (s : State) (v : List Nat) : (s.setBramDef v).xUsed = s.xUsed := (rfl)
@[simp] theorem State.setBramDef_xWait (s : State) (v : List Nat) : (s.setBramDef v).xWait = s.xWait := (rfl)
@[simp] theorem State.setBramDef_xHeld (s : State) (v : List Nat) : (s.setBramDef v).xHeld = s.xHeld := (rfl)
@[simp] theorem State.setBramDef_routers (s : State) (v : List Nat) : (s.setBramDef v).routers = s.routers := (rfl)
@[simp] theorem State.setBramDef_portMode (s : State) (v : List Nat) : (s.setBramDef v).portMode = s.portMode := (rfl)
@[simp] theorem State.setBramDef_portTags (s : State) (v : List Nat) : (s.setBramDef v).portTags = s.portTags := (rfl)
@[simp] theorem State.setBramDef_portFifo (s : State) (v : List Nat) : (s.setBramDef v).portFifo = s.portFifo := (rfl)
@[simp] theorem State.setBramDef_dcache (s : State) (v : List Nat) : (s.setBramDef v).dcache = s.dcache := (rfl)
@[simp] theorem State.setBramDef_dir (s : State) (v : List Nat) : (s.setBramDef v).dir = s.dir := (rfl)
@[simp] theorem State.setBramDef_dieResets (s : State) (v : List Nat) : (s.setBramDef v).dieResets = s.dieResets := (rfl)
@[simp] theorem State.setBramDef_homeTxn (s : State) (v : List Nat) : (s.setBramDef v).homeTxn = s.homeTxn := (rfl)
@[simp] theorem State.setBramDef_cores (s : State) (v : List Nat) : (s.setBramDef v).cores = s.cores := (rfl)
@[simp] theorem State.setBramDef_tngDone (s : State) (v : List Nat) : (s.setBramDef v).tngDone = s.tngDone := (rfl)
@[simp] theorem State.setBramDef_fab (s : State) (v : List Nat) : (s.setBramDef v).fab = s.fab := (rfl)
@[simp] theorem State.setBramDef_net (s : State) (v : List Nat) : (s.setBramDef v).net = s.net := (rfl)
@[simp] theorem State.setBramDef_rtrShare (s : State) (v : List Nat) : (s.setBramDef v).rtrShare = s.rtrShare := (rfl)
@[simp] theorem State.setBramDef_dbg (s : State) (v : List Nat) : (s.setBramDef v).dbg = s.dbg := (rfl)
@[simp] theorem State.setBramDef_dcWait (s : State) (v : List Nat) : (s.setBramDef v).dcWait = s.dcWait := (rfl)
@[simp] theorem State.setBramDef_prcStep (s : State) (v : List Nat) : (s.setBramDef v).prcStep = s.prcStep := (rfl)
@[simp] theorem State.setBramDef_prcBlank (s : State) (v : List Nat) : (s.setBramDef v).prcBlank = s.prcBlank := (rfl)
@[simp] theorem State.setBramDef_prcHold (s : State) (v : List Nat) : (s.setBramDef v).prcHold = s.prcHold := (rfl)
@[simp] theorem State.setBramDef_capWait (s : State) (v : List Nat) : (s.setBramDef v).capWait = s.capWait := (rfl)
@[simp] theorem State.setBramDef_capture (s : State) (v : List Nat) : (s.setBramDef v).capture = s.capture := (rfl)
@[simp] theorem State.setBramDef_bramDef (s : State) (v : List Nat) : (s.setBramDef v).bramDef = v := (rfl)
@[simp] theorem State.setBramDef_scrubs (s : State) (v : List Nat) : (s.setBramDef v).scrubs = s.scrubs := (rfl)
@[simp] theorem State.setBramDef_scrCopy (s : State) (v : List Nat) : (s.setBramDef v).scrCopy = s.scrCopy := (rfl)
@[simp] theorem State.setBramDef_releases (s : State) (v : List Nat) : (s.setBramDef v).releases = s.releases := (rfl)
@[simp] theorem State.setBramDef_dieStep (s : State) (v : List Nat) : (s.setBramDef v).dieStep = s.dieStep := (rfl)
@[simp] theorem State.setBramDef_clampDef (s : State) (v : List Nat) : (s.setBramDef v).clampDef = s.clampDef := (rfl)
@[simp] theorem State.setBramDef_clamps (s : State) (v : List Nat) : (s.setBramDef v).clamps = s.clamps := (rfl)
@[simp] theorem State.setBramDef_welds (s : State) (v : List Nat) : (s.setBramDef v).welds = s.welds := (rfl)
@[simp] theorem State.setBramDef_lanes (s : State) (v : List Nat) : (s.setBramDef v).lanes = s.lanes := (rfl)
@[simp] theorem State.setBramDef_macMode (s : State) (v : List Nat) : (s.setBramDef v).macMode = s.macMode := (rfl)
@[simp] theorem State.setBramDef_tod (s : State) (v : List Nat) : (s.setBramDef v).tod = s.tod := (rfl)
@[simp] theorem State.setBramDef_lkp (s : State) (v : List Nat) : (s.setBramDef v).lkp = s.lkp := (rfl)
@[simp] theorem State.setBramDef_queues (s : State) (v : List Nat) : (s.setBramDef v).queues = s.queues := (rfl)
@[simp] theorem State.setBramDef_ports (s : State) (v : List Nat) : (s.setBramDef v).ports = s.ports := (rfl)
@[simp] theorem State.setBramDef_pkt (s : State) (v : List Nat) : (s.setBramDef v).pkt = s.pkt := (rfl)
@[simp] theorem State.setBramDef_cxl (s : State) (v : List Nat) : (s.setBramDef v).cxl = s.cxl := (rfl)
@[simp] theorem State.setBramDef_ddr (s : State) (v : List Nat) : (s.setBramDef v).ddr = s.ddr := (rfl)
@[simp] theorem State.setBramDef_regions (s : State) (v : List Nat) : (s.setBramDef v).regions = s.regions := (rfl)
@[simp] theorem State.setBramDef_prots (s : State) (v : List Nat) : (s.setBramDef v).prots = s.prots := (rfl)
@[simp] theorem State.setBramDef_keyStore (s : State) (v : List Nat) : (s.setBramDef v).keyStore = s.keyStore := (rfl)
@[simp] theorem State.setBramDef_rings (s : State) (v : List Nat) : (s.setBramDef v).rings = s.rings := (rfl)
@[simp] theorem State.setBramDef_openMem (s : State) (v : List Nat) : (s.setBramDef v).openMem = s.openMem := (rfl)
@[simp] theorem State.setBramDef_dcRights (s : State) (v : List Nat) : (s.setBramDef v).dcRights = s.dcRights := (rfl)
@[simp] theorem State.setBramDef_clk (s : State) (v : List Nat) : (s.setBramDef v).clk = s.clk := (rfl)
@[simp] theorem State.setBramDef_units (s : State) (v : List Nat) : (s.setBramDef v).units = s.units := (rfl)
@[simp] theorem State.setBramDef_hearthHit (s : State) (v : List Nat) : (s.setBramDef v).hearthHit = s.hearthHit := (rfl)
@[simp] theorem State.setScrubs_pending (s : State) (v : Tbl Scrub) : (s.setScrubs v).pending = s.pending := (rfl)
@[simp] theorem State.setScrubs_regs (s : State) (v : Tbl Scrub) : (s.setScrubs v).regs = s.regs := (rfl)
@[simp] theorem State.setScrubs_mem (s : State) (v : Tbl Scrub) : (s.setScrubs v).mem = s.mem := (rfl)
@[simp] theorem State.setScrubs_poison (s : State) (v : Tbl Scrub) : (s.setScrubs v).poison = s.poison := (rfl)
@[simp] theorem State.setScrubs_fresh (s : State) (v : Tbl Scrub) : (s.setScrubs v).fresh = s.fresh := (rfl)
@[simp] theorem State.setScrubs_answer (s : State) (v : Tbl Scrub) : (s.setScrubs v).answer = s.answer := (rfl)
@[simp] theorem State.setScrubs_answerStatus (s : State) (v : Tbl Scrub) : (s.setScrubs v).answerStatus = s.answerStatus := (rfl)
@[simp] theorem State.setScrubs_book (s : State) (v : Tbl Scrub) : (s.setScrubs v).book = s.book := (rfl)
@[simp] theorem State.setScrubs_mgt (s : State) (v : Tbl Scrub) : (s.setScrubs v).mgt = s.mgt := (rfl)
@[simp] theorem State.setScrubs_fpFifo (s : State) (v : Tbl Scrub) : (s.setScrubs v).fpFifo = s.fpFifo := (rfl)
@[simp] theorem State.setScrubs_evtOnce (s : State) (v : Tbl Scrub) : (s.setScrubs v).evtOnce = s.evtOnce := (rfl)
@[simp] theorem State.setScrubs_cycles (s : State) (v : Tbl Scrub) : (s.setScrubs v).cycles = s.cycles := (rfl)
@[simp] theorem State.setScrubs_pcie (s : State) (v : Tbl Scrub) : (s.setScrubs v).pcie = s.pcie := (rfl)
@[simp] theorem State.setScrubs_sent (s : State) (v : Tbl Scrub) : (s.setScrubs v).sent = s.sent := (rfl)
@[simp] theorem State.setScrubs_bw (s : State) (v : Tbl Scrub) : (s.setScrubs v).bw = s.bw := (rfl)
@[simp] theorem State.setScrubs_pmcLatch (s : State) (v : Tbl Scrub) : (s.setScrubs v).pmcLatch = s.pmcLatch := (rfl)
@[simp] theorem State.setScrubs_cal (s : State) (v : Tbl Scrub) : (s.setScrubs v).cal = s.cal := (rfl)
@[simp] theorem State.setScrubs_cfg (s : State) (v : Tbl Scrub) : (s.setScrubs v).cfg = s.cfg := (rfl)
@[simp] theorem State.setScrubs_tap (s : State) (v : Tbl Scrub) : (s.setScrubs v).tap = s.tap := (rfl)
@[simp] theorem State.setScrubs_pins (s : State) (v : Tbl Scrub) : (s.setScrubs v).pins = s.pins := (rfl)
@[simp] theorem State.setScrubs_frames (s : State) (v : Tbl Scrub) : (s.setScrubs v).frames = s.frames := (rfl)
@[simp] theorem State.setScrubs_clusters (s : State) (v : Tbl Scrub) : (s.setScrubs v).clusters = s.clusters := (rfl)
@[simp] theorem State.setScrubs_ffs (s : State) (v : Tbl Scrub) : (s.setScrubs v).ffs = s.ffs := (rfl)
@[simp] theorem State.setScrubs_relStage (s : State) (v : Tbl Scrub) : (s.setScrubs v).relStage = s.relStage := (rfl)
@[simp] theorem State.setScrubs_frozen (s : State) (v : Tbl Scrub) : (s.setScrubs v).frozen = s.frozen := (rfl)
@[simp] theorem State.setScrubs_bramCfg (s : State) (v : Tbl Scrub) : (s.setScrubs v).bramCfg = s.bramCfg := (rfl)
@[simp] theorem State.setScrubs_bram (s : State) (v : Tbl Scrub) : (s.setScrubs v).bram = s.bram := (rfl)
@[simp] theorem State.setScrubs_bramPorts (s : State) (v : Tbl Scrub) : (s.setScrubs v).bramPorts = s.bramPorts := (rfl)
@[simp] theorem State.setScrubs_multCfg (s : State) (v : Tbl Scrub) : (s.setScrubs v).multCfg = s.multCfg := (rfl)
@[simp] theorem State.setScrubs_mults (s : State) (v : Tbl Scrub) : (s.setScrubs v).mults = s.mults := (rfl)
@[simp] theorem State.setScrubs_railKeep (s : State) (v : Tbl Scrub) : (s.setScrubs v).railKeep = s.railKeep := (rfl)
@[simp] theorem State.setScrubs_chk (s : State) (v : Tbl Scrub) : (s.setScrubs v).chk = s.chk := (rfl)
@[simp] theorem State.setScrubs_eccRaw (s : State) (v : Tbl Scrub) : (s.setScrubs v).eccRaw = s.eccRaw := (rfl)
@[simp] theorem State.setScrubs_eccScrub (s : State) (v : Tbl Scrub) : (s.setScrubs v).eccScrub = s.eccScrub := (rfl)
@[simp] theorem State.setScrubs_tags (s : State) (v : Tbl Scrub) : (s.setScrubs v).tags = s.tags := (rfl)
@[simp] theorem State.setScrubs_xUsed (s : State) (v : Tbl Scrub) : (s.setScrubs v).xUsed = s.xUsed := (rfl)
@[simp] theorem State.setScrubs_xWait (s : State) (v : Tbl Scrub) : (s.setScrubs v).xWait = s.xWait := (rfl)
@[simp] theorem State.setScrubs_xHeld (s : State) (v : Tbl Scrub) : (s.setScrubs v).xHeld = s.xHeld := (rfl)
@[simp] theorem State.setScrubs_routers (s : State) (v : Tbl Scrub) : (s.setScrubs v).routers = s.routers := (rfl)
@[simp] theorem State.setScrubs_portMode (s : State) (v : Tbl Scrub) : (s.setScrubs v).portMode = s.portMode := (rfl)
@[simp] theorem State.setScrubs_portTags (s : State) (v : Tbl Scrub) : (s.setScrubs v).portTags = s.portTags := (rfl)
@[simp] theorem State.setScrubs_portFifo (s : State) (v : Tbl Scrub) : (s.setScrubs v).portFifo = s.portFifo := (rfl)
@[simp] theorem State.setScrubs_dcache (s : State) (v : Tbl Scrub) : (s.setScrubs v).dcache = s.dcache := (rfl)
@[simp] theorem State.setScrubs_dir (s : State) (v : Tbl Scrub) : (s.setScrubs v).dir = s.dir := (rfl)
@[simp] theorem State.setScrubs_dieResets (s : State) (v : Tbl Scrub) : (s.setScrubs v).dieResets = s.dieResets := (rfl)
@[simp] theorem State.setScrubs_homeTxn (s : State) (v : Tbl Scrub) : (s.setScrubs v).homeTxn = s.homeTxn := (rfl)
@[simp] theorem State.setScrubs_cores (s : State) (v : Tbl Scrub) : (s.setScrubs v).cores = s.cores := (rfl)
@[simp] theorem State.setScrubs_tngDone (s : State) (v : Tbl Scrub) : (s.setScrubs v).tngDone = s.tngDone := (rfl)
@[simp] theorem State.setScrubs_fab (s : State) (v : Tbl Scrub) : (s.setScrubs v).fab = s.fab := (rfl)
@[simp] theorem State.setScrubs_net (s : State) (v : Tbl Scrub) : (s.setScrubs v).net = s.net := (rfl)
@[simp] theorem State.setScrubs_rtrShare (s : State) (v : Tbl Scrub) : (s.setScrubs v).rtrShare = s.rtrShare := (rfl)
@[simp] theorem State.setScrubs_dbg (s : State) (v : Tbl Scrub) : (s.setScrubs v).dbg = s.dbg := (rfl)
@[simp] theorem State.setScrubs_dcWait (s : State) (v : Tbl Scrub) : (s.setScrubs v).dcWait = s.dcWait := (rfl)
@[simp] theorem State.setScrubs_prcStep (s : State) (v : Tbl Scrub) : (s.setScrubs v).prcStep = s.prcStep := (rfl)
@[simp] theorem State.setScrubs_prcBlank (s : State) (v : Tbl Scrub) : (s.setScrubs v).prcBlank = s.prcBlank := (rfl)
@[simp] theorem State.setScrubs_prcHold (s : State) (v : Tbl Scrub) : (s.setScrubs v).prcHold = s.prcHold := (rfl)
@[simp] theorem State.setScrubs_capWait (s : State) (v : Tbl Scrub) : (s.setScrubs v).capWait = s.capWait := (rfl)
@[simp] theorem State.setScrubs_capture (s : State) (v : Tbl Scrub) : (s.setScrubs v).capture = s.capture := (rfl)
@[simp] theorem State.setScrubs_bramDef (s : State) (v : Tbl Scrub) : (s.setScrubs v).bramDef = s.bramDef := (rfl)
@[simp] theorem State.setScrubs_scrubs (s : State) (v : Tbl Scrub) : (s.setScrubs v).scrubs = v := (rfl)
@[simp] theorem State.setScrubs_scrCopy (s : State) (v : Tbl Scrub) : (s.setScrubs v).scrCopy = s.scrCopy := (rfl)
@[simp] theorem State.setScrubs_releases (s : State) (v : Tbl Scrub) : (s.setScrubs v).releases = s.releases := (rfl)
@[simp] theorem State.setScrubs_dieStep (s : State) (v : Tbl Scrub) : (s.setScrubs v).dieStep = s.dieStep := (rfl)
@[simp] theorem State.setScrubs_clampDef (s : State) (v : Tbl Scrub) : (s.setScrubs v).clampDef = s.clampDef := (rfl)
@[simp] theorem State.setScrubs_clamps (s : State) (v : Tbl Scrub) : (s.setScrubs v).clamps = s.clamps := (rfl)
@[simp] theorem State.setScrubs_welds (s : State) (v : Tbl Scrub) : (s.setScrubs v).welds = s.welds := (rfl)
@[simp] theorem State.setScrubs_lanes (s : State) (v : Tbl Scrub) : (s.setScrubs v).lanes = s.lanes := (rfl)
@[simp] theorem State.setScrubs_macMode (s : State) (v : Tbl Scrub) : (s.setScrubs v).macMode = s.macMode := (rfl)
@[simp] theorem State.setScrubs_tod (s : State) (v : Tbl Scrub) : (s.setScrubs v).tod = s.tod := (rfl)
@[simp] theorem State.setScrubs_lkp (s : State) (v : Tbl Scrub) : (s.setScrubs v).lkp = s.lkp := (rfl)
@[simp] theorem State.setScrubs_queues (s : State) (v : Tbl Scrub) : (s.setScrubs v).queues = s.queues := (rfl)
@[simp] theorem State.setScrubs_ports (s : State) (v : Tbl Scrub) : (s.setScrubs v).ports = s.ports := (rfl)
@[simp] theorem State.setScrubs_pkt (s : State) (v : Tbl Scrub) : (s.setScrubs v).pkt = s.pkt := (rfl)
@[simp] theorem State.setScrubs_cxl (s : State) (v : Tbl Scrub) : (s.setScrubs v).cxl = s.cxl := (rfl)
@[simp] theorem State.setScrubs_ddr (s : State) (v : Tbl Scrub) : (s.setScrubs v).ddr = s.ddr := (rfl)
@[simp] theorem State.setScrubs_regions (s : State) (v : Tbl Scrub) : (s.setScrubs v).regions = s.regions := (rfl)
@[simp] theorem State.setScrubs_prots (s : State) (v : Tbl Scrub) : (s.setScrubs v).prots = s.prots := (rfl)
@[simp] theorem State.setScrubs_keyStore (s : State) (v : Tbl Scrub) : (s.setScrubs v).keyStore = s.keyStore := (rfl)
@[simp] theorem State.setScrubs_rings (s : State) (v : Tbl Scrub) : (s.setScrubs v).rings = s.rings := (rfl)
@[simp] theorem State.setScrubs_openMem (s : State) (v : Tbl Scrub) : (s.setScrubs v).openMem = s.openMem := (rfl)
@[simp] theorem State.setScrubs_dcRights (s : State) (v : Tbl Scrub) : (s.setScrubs v).dcRights = s.dcRights := (rfl)
@[simp] theorem State.setScrubs_clk (s : State) (v : Tbl Scrub) : (s.setScrubs v).clk = s.clk := (rfl)
@[simp] theorem State.setScrubs_units (s : State) (v : Tbl Scrub) : (s.setScrubs v).units = s.units := (rfl)
@[simp] theorem State.setScrubs_hearthHit (s : State) (v : Tbl Scrub) : (s.setScrubs v).hearthHit = s.hearthHit := (rfl)
@[simp] theorem State.setScrCopy_pending (s : State) (v : Tbl (List Word)) : (s.setScrCopy v).pending = s.pending := (rfl)
@[simp] theorem State.setScrCopy_regs (s : State) (v : Tbl (List Word)) : (s.setScrCopy v).regs = s.regs := (rfl)
@[simp] theorem State.setScrCopy_mem (s : State) (v : Tbl (List Word)) : (s.setScrCopy v).mem = s.mem := (rfl)
@[simp] theorem State.setScrCopy_poison (s : State) (v : Tbl (List Word)) : (s.setScrCopy v).poison = s.poison := (rfl)
@[simp] theorem State.setScrCopy_fresh (s : State) (v : Tbl (List Word)) : (s.setScrCopy v).fresh = s.fresh := (rfl)
@[simp] theorem State.setScrCopy_answer (s : State) (v : Tbl (List Word)) : (s.setScrCopy v).answer = s.answer := (rfl)
@[simp] theorem State.setScrCopy_answerStatus (s : State) (v : Tbl (List Word)) : (s.setScrCopy v).answerStatus = s.answerStatus := (rfl)
@[simp] theorem State.setScrCopy_book (s : State) (v : Tbl (List Word)) : (s.setScrCopy v).book = s.book := (rfl)
@[simp] theorem State.setScrCopy_mgt (s : State) (v : Tbl (List Word)) : (s.setScrCopy v).mgt = s.mgt := (rfl)
@[simp] theorem State.setScrCopy_fpFifo (s : State) (v : Tbl (List Word)) : (s.setScrCopy v).fpFifo = s.fpFifo := (rfl)
@[simp] theorem State.setScrCopy_evtOnce (s : State) (v : Tbl (List Word)) : (s.setScrCopy v).evtOnce = s.evtOnce := (rfl)
@[simp] theorem State.setScrCopy_cycles (s : State) (v : Tbl (List Word)) : (s.setScrCopy v).cycles = s.cycles := (rfl)
@[simp] theorem State.setScrCopy_pcie (s : State) (v : Tbl (List Word)) : (s.setScrCopy v).pcie = s.pcie := (rfl)
@[simp] theorem State.setScrCopy_sent (s : State) (v : Tbl (List Word)) : (s.setScrCopy v).sent = s.sent := (rfl)
@[simp] theorem State.setScrCopy_bw (s : State) (v : Tbl (List Word)) : (s.setScrCopy v).bw = s.bw := (rfl)
@[simp] theorem State.setScrCopy_pmcLatch (s : State) (v : Tbl (List Word)) : (s.setScrCopy v).pmcLatch = s.pmcLatch := (rfl)
@[simp] theorem State.setScrCopy_cal (s : State) (v : Tbl (List Word)) : (s.setScrCopy v).cal = s.cal := (rfl)
@[simp] theorem State.setScrCopy_cfg (s : State) (v : Tbl (List Word)) : (s.setScrCopy v).cfg = s.cfg := (rfl)
@[simp] theorem State.setScrCopy_tap (s : State) (v : Tbl (List Word)) : (s.setScrCopy v).tap = s.tap := (rfl)
@[simp] theorem State.setScrCopy_pins (s : State) (v : Tbl (List Word)) : (s.setScrCopy v).pins = s.pins := (rfl)
@[simp] theorem State.setScrCopy_frames (s : State) (v : Tbl (List Word)) : (s.setScrCopy v).frames = s.frames := (rfl)
@[simp] theorem State.setScrCopy_clusters (s : State) (v : Tbl (List Word)) : (s.setScrCopy v).clusters = s.clusters := (rfl)
@[simp] theorem State.setScrCopy_ffs (s : State) (v : Tbl (List Word)) : (s.setScrCopy v).ffs = s.ffs := (rfl)
@[simp] theorem State.setScrCopy_relStage (s : State) (v : Tbl (List Word)) : (s.setScrCopy v).relStage = s.relStage := (rfl)
@[simp] theorem State.setScrCopy_frozen (s : State) (v : Tbl (List Word)) : (s.setScrCopy v).frozen = s.frozen := (rfl)
@[simp] theorem State.setScrCopy_bramCfg (s : State) (v : Tbl (List Word)) : (s.setScrCopy v).bramCfg = s.bramCfg := (rfl)
@[simp] theorem State.setScrCopy_bram (s : State) (v : Tbl (List Word)) : (s.setScrCopy v).bram = s.bram := (rfl)
@[simp] theorem State.setScrCopy_bramPorts (s : State) (v : Tbl (List Word)) : (s.setScrCopy v).bramPorts = s.bramPorts := (rfl)
@[simp] theorem State.setScrCopy_multCfg (s : State) (v : Tbl (List Word)) : (s.setScrCopy v).multCfg = s.multCfg := (rfl)
@[simp] theorem State.setScrCopy_mults (s : State) (v : Tbl (List Word)) : (s.setScrCopy v).mults = s.mults := (rfl)
@[simp] theorem State.setScrCopy_railKeep (s : State) (v : Tbl (List Word)) : (s.setScrCopy v).railKeep = s.railKeep := (rfl)
@[simp] theorem State.setScrCopy_chk (s : State) (v : Tbl (List Word)) : (s.setScrCopy v).chk = s.chk := (rfl)
@[simp] theorem State.setScrCopy_eccRaw (s : State) (v : Tbl (List Word)) : (s.setScrCopy v).eccRaw = s.eccRaw := (rfl)
@[simp] theorem State.setScrCopy_eccScrub (s : State) (v : Tbl (List Word)) : (s.setScrCopy v).eccScrub = s.eccScrub := (rfl)
@[simp] theorem State.setScrCopy_tags (s : State) (v : Tbl (List Word)) : (s.setScrCopy v).tags = s.tags := (rfl)
@[simp] theorem State.setScrCopy_xUsed (s : State) (v : Tbl (List Word)) : (s.setScrCopy v).xUsed = s.xUsed := (rfl)
@[simp] theorem State.setScrCopy_xWait (s : State) (v : Tbl (List Word)) : (s.setScrCopy v).xWait = s.xWait := (rfl)
@[simp] theorem State.setScrCopy_xHeld (s : State) (v : Tbl (List Word)) : (s.setScrCopy v).xHeld = s.xHeld := (rfl)
@[simp] theorem State.setScrCopy_routers (s : State) (v : Tbl (List Word)) : (s.setScrCopy v).routers = s.routers := (rfl)
@[simp] theorem State.setScrCopy_portMode (s : State) (v : Tbl (List Word)) : (s.setScrCopy v).portMode = s.portMode := (rfl)
@[simp] theorem State.setScrCopy_portTags (s : State) (v : Tbl (List Word)) : (s.setScrCopy v).portTags = s.portTags := (rfl)
@[simp] theorem State.setScrCopy_portFifo (s : State) (v : Tbl (List Word)) : (s.setScrCopy v).portFifo = s.portFifo := (rfl)
@[simp] theorem State.setScrCopy_dcache (s : State) (v : Tbl (List Word)) : (s.setScrCopy v).dcache = s.dcache := (rfl)
@[simp] theorem State.setScrCopy_dir (s : State) (v : Tbl (List Word)) : (s.setScrCopy v).dir = s.dir := (rfl)
@[simp] theorem State.setScrCopy_dieResets (s : State) (v : Tbl (List Word)) : (s.setScrCopy v).dieResets = s.dieResets := (rfl)
@[simp] theorem State.setScrCopy_homeTxn (s : State) (v : Tbl (List Word)) : (s.setScrCopy v).homeTxn = s.homeTxn := (rfl)
@[simp] theorem State.setScrCopy_cores (s : State) (v : Tbl (List Word)) : (s.setScrCopy v).cores = s.cores := (rfl)
@[simp] theorem State.setScrCopy_tngDone (s : State) (v : Tbl (List Word)) : (s.setScrCopy v).tngDone = s.tngDone := (rfl)
@[simp] theorem State.setScrCopy_fab (s : State) (v : Tbl (List Word)) : (s.setScrCopy v).fab = s.fab := (rfl)
@[simp] theorem State.setScrCopy_net (s : State) (v : Tbl (List Word)) : (s.setScrCopy v).net = s.net := (rfl)
@[simp] theorem State.setScrCopy_rtrShare (s : State) (v : Tbl (List Word)) : (s.setScrCopy v).rtrShare = s.rtrShare := (rfl)
@[simp] theorem State.setScrCopy_dbg (s : State) (v : Tbl (List Word)) : (s.setScrCopy v).dbg = s.dbg := (rfl)
@[simp] theorem State.setScrCopy_dcWait (s : State) (v : Tbl (List Word)) : (s.setScrCopy v).dcWait = s.dcWait := (rfl)
@[simp] theorem State.setScrCopy_prcStep (s : State) (v : Tbl (List Word)) : (s.setScrCopy v).prcStep = s.prcStep := (rfl)
@[simp] theorem State.setScrCopy_prcBlank (s : State) (v : Tbl (List Word)) : (s.setScrCopy v).prcBlank = s.prcBlank := (rfl)
@[simp] theorem State.setScrCopy_prcHold (s : State) (v : Tbl (List Word)) : (s.setScrCopy v).prcHold = s.prcHold := (rfl)
@[simp] theorem State.setScrCopy_capWait (s : State) (v : Tbl (List Word)) : (s.setScrCopy v).capWait = s.capWait := (rfl)
@[simp] theorem State.setScrCopy_capture (s : State) (v : Tbl (List Word)) : (s.setScrCopy v).capture = s.capture := (rfl)
@[simp] theorem State.setScrCopy_bramDef (s : State) (v : Tbl (List Word)) : (s.setScrCopy v).bramDef = s.bramDef := (rfl)
@[simp] theorem State.setScrCopy_scrubs (s : State) (v : Tbl (List Word)) : (s.setScrCopy v).scrubs = s.scrubs := (rfl)
@[simp] theorem State.setScrCopy_scrCopy (s : State) (v : Tbl (List Word)) : (s.setScrCopy v).scrCopy = v := (rfl)
@[simp] theorem State.setScrCopy_releases (s : State) (v : Tbl (List Word)) : (s.setScrCopy v).releases = s.releases := (rfl)
@[simp] theorem State.setScrCopy_dieStep (s : State) (v : Tbl (List Word)) : (s.setScrCopy v).dieStep = s.dieStep := (rfl)
@[simp] theorem State.setScrCopy_clampDef (s : State) (v : Tbl (List Word)) : (s.setScrCopy v).clampDef = s.clampDef := (rfl)
@[simp] theorem State.setScrCopy_clamps (s : State) (v : Tbl (List Word)) : (s.setScrCopy v).clamps = s.clamps := (rfl)
@[simp] theorem State.setScrCopy_welds (s : State) (v : Tbl (List Word)) : (s.setScrCopy v).welds = s.welds := (rfl)
@[simp] theorem State.setScrCopy_lanes (s : State) (v : Tbl (List Word)) : (s.setScrCopy v).lanes = s.lanes := (rfl)
@[simp] theorem State.setScrCopy_macMode (s : State) (v : Tbl (List Word)) : (s.setScrCopy v).macMode = s.macMode := (rfl)
@[simp] theorem State.setScrCopy_tod (s : State) (v : Tbl (List Word)) : (s.setScrCopy v).tod = s.tod := (rfl)
@[simp] theorem State.setScrCopy_lkp (s : State) (v : Tbl (List Word)) : (s.setScrCopy v).lkp = s.lkp := (rfl)
@[simp] theorem State.setScrCopy_queues (s : State) (v : Tbl (List Word)) : (s.setScrCopy v).queues = s.queues := (rfl)
@[simp] theorem State.setScrCopy_ports (s : State) (v : Tbl (List Word)) : (s.setScrCopy v).ports = s.ports := (rfl)
@[simp] theorem State.setScrCopy_pkt (s : State) (v : Tbl (List Word)) : (s.setScrCopy v).pkt = s.pkt := (rfl)
@[simp] theorem State.setScrCopy_cxl (s : State) (v : Tbl (List Word)) : (s.setScrCopy v).cxl = s.cxl := (rfl)
@[simp] theorem State.setScrCopy_ddr (s : State) (v : Tbl (List Word)) : (s.setScrCopy v).ddr = s.ddr := (rfl)
@[simp] theorem State.setScrCopy_regions (s : State) (v : Tbl (List Word)) : (s.setScrCopy v).regions = s.regions := (rfl)
@[simp] theorem State.setScrCopy_prots (s : State) (v : Tbl (List Word)) : (s.setScrCopy v).prots = s.prots := (rfl)
@[simp] theorem State.setScrCopy_keyStore (s : State) (v : Tbl (List Word)) : (s.setScrCopy v).keyStore = s.keyStore := (rfl)
@[simp] theorem State.setScrCopy_rings (s : State) (v : Tbl (List Word)) : (s.setScrCopy v).rings = s.rings := (rfl)
@[simp] theorem State.setScrCopy_openMem (s : State) (v : Tbl (List Word)) : (s.setScrCopy v).openMem = s.openMem := (rfl)
@[simp] theorem State.setScrCopy_dcRights (s : State) (v : Tbl (List Word)) : (s.setScrCopy v).dcRights = s.dcRights := (rfl)
@[simp] theorem State.setScrCopy_clk (s : State) (v : Tbl (List Word)) : (s.setScrCopy v).clk = s.clk := (rfl)
@[simp] theorem State.setScrCopy_units (s : State) (v : Tbl (List Word)) : (s.setScrCopy v).units = s.units := (rfl)
@[simp] theorem State.setScrCopy_hearthHit (s : State) (v : Tbl (List Word)) : (s.setScrCopy v).hearthHit = s.hearthHit := (rfl)
@[simp] theorem State.setReleases_pending (s : State) (v : List Release) : (s.setReleases v).pending = s.pending := (rfl)
@[simp] theorem State.setReleases_regs (s : State) (v : List Release) : (s.setReleases v).regs = s.regs := (rfl)
@[simp] theorem State.setReleases_mem (s : State) (v : List Release) : (s.setReleases v).mem = s.mem := (rfl)
@[simp] theorem State.setReleases_poison (s : State) (v : List Release) : (s.setReleases v).poison = s.poison := (rfl)
@[simp] theorem State.setReleases_fresh (s : State) (v : List Release) : (s.setReleases v).fresh = s.fresh := (rfl)
@[simp] theorem State.setReleases_answer (s : State) (v : List Release) : (s.setReleases v).answer = s.answer := (rfl)
@[simp] theorem State.setReleases_answerStatus (s : State) (v : List Release) : (s.setReleases v).answerStatus = s.answerStatus := (rfl)
@[simp] theorem State.setReleases_book (s : State) (v : List Release) : (s.setReleases v).book = s.book := (rfl)
@[simp] theorem State.setReleases_mgt (s : State) (v : List Release) : (s.setReleases v).mgt = s.mgt := (rfl)
@[simp] theorem State.setReleases_fpFifo (s : State) (v : List Release) : (s.setReleases v).fpFifo = s.fpFifo := (rfl)
@[simp] theorem State.setReleases_evtOnce (s : State) (v : List Release) : (s.setReleases v).evtOnce = s.evtOnce := (rfl)
@[simp] theorem State.setReleases_cycles (s : State) (v : List Release) : (s.setReleases v).cycles = s.cycles := (rfl)
@[simp] theorem State.setReleases_pcie (s : State) (v : List Release) : (s.setReleases v).pcie = s.pcie := (rfl)
@[simp] theorem State.setReleases_sent (s : State) (v : List Release) : (s.setReleases v).sent = s.sent := (rfl)
@[simp] theorem State.setReleases_bw (s : State) (v : List Release) : (s.setReleases v).bw = s.bw := (rfl)
@[simp] theorem State.setReleases_pmcLatch (s : State) (v : List Release) : (s.setReleases v).pmcLatch = s.pmcLatch := (rfl)
@[simp] theorem State.setReleases_cal (s : State) (v : List Release) : (s.setReleases v).cal = s.cal := (rfl)
@[simp] theorem State.setReleases_cfg (s : State) (v : List Release) : (s.setReleases v).cfg = s.cfg := (rfl)
@[simp] theorem State.setReleases_tap (s : State) (v : List Release) : (s.setReleases v).tap = s.tap := (rfl)
@[simp] theorem State.setReleases_pins (s : State) (v : List Release) : (s.setReleases v).pins = s.pins := (rfl)
@[simp] theorem State.setReleases_frames (s : State) (v : List Release) : (s.setReleases v).frames = s.frames := (rfl)
@[simp] theorem State.setReleases_clusters (s : State) (v : List Release) : (s.setReleases v).clusters = s.clusters := (rfl)
@[simp] theorem State.setReleases_ffs (s : State) (v : List Release) : (s.setReleases v).ffs = s.ffs := (rfl)
@[simp] theorem State.setReleases_relStage (s : State) (v : List Release) : (s.setReleases v).relStage = s.relStage := (rfl)
@[simp] theorem State.setReleases_frozen (s : State) (v : List Release) : (s.setReleases v).frozen = s.frozen := (rfl)
@[simp] theorem State.setReleases_bramCfg (s : State) (v : List Release) : (s.setReleases v).bramCfg = s.bramCfg := (rfl)
@[simp] theorem State.setReleases_bram (s : State) (v : List Release) : (s.setReleases v).bram = s.bram := (rfl)
@[simp] theorem State.setReleases_bramPorts (s : State) (v : List Release) : (s.setReleases v).bramPorts = s.bramPorts := (rfl)
@[simp] theorem State.setReleases_multCfg (s : State) (v : List Release) : (s.setReleases v).multCfg = s.multCfg := (rfl)
@[simp] theorem State.setReleases_mults (s : State) (v : List Release) : (s.setReleases v).mults = s.mults := (rfl)
@[simp] theorem State.setReleases_railKeep (s : State) (v : List Release) : (s.setReleases v).railKeep = s.railKeep := (rfl)
@[simp] theorem State.setReleases_chk (s : State) (v : List Release) : (s.setReleases v).chk = s.chk := (rfl)
@[simp] theorem State.setReleases_eccRaw (s : State) (v : List Release) : (s.setReleases v).eccRaw = s.eccRaw := (rfl)
@[simp] theorem State.setReleases_eccScrub (s : State) (v : List Release) : (s.setReleases v).eccScrub = s.eccScrub := (rfl)
@[simp] theorem State.setReleases_tags (s : State) (v : List Release) : (s.setReleases v).tags = s.tags := (rfl)
@[simp] theorem State.setReleases_xUsed (s : State) (v : List Release) : (s.setReleases v).xUsed = s.xUsed := (rfl)
@[simp] theorem State.setReleases_xWait (s : State) (v : List Release) : (s.setReleases v).xWait = s.xWait := (rfl)
@[simp] theorem State.setReleases_xHeld (s : State) (v : List Release) : (s.setReleases v).xHeld = s.xHeld := (rfl)
@[simp] theorem State.setReleases_routers (s : State) (v : List Release) : (s.setReleases v).routers = s.routers := (rfl)
@[simp] theorem State.setReleases_portMode (s : State) (v : List Release) : (s.setReleases v).portMode = s.portMode := (rfl)
@[simp] theorem State.setReleases_portTags (s : State) (v : List Release) : (s.setReleases v).portTags = s.portTags := (rfl)
@[simp] theorem State.setReleases_portFifo (s : State) (v : List Release) : (s.setReleases v).portFifo = s.portFifo := (rfl)
@[simp] theorem State.setReleases_dcache (s : State) (v : List Release) : (s.setReleases v).dcache = s.dcache := (rfl)
@[simp] theorem State.setReleases_dir (s : State) (v : List Release) : (s.setReleases v).dir = s.dir := (rfl)
@[simp] theorem State.setReleases_dieResets (s : State) (v : List Release) : (s.setReleases v).dieResets = s.dieResets := (rfl)
@[simp] theorem State.setReleases_homeTxn (s : State) (v : List Release) : (s.setReleases v).homeTxn = s.homeTxn := (rfl)
@[simp] theorem State.setReleases_cores (s : State) (v : List Release) : (s.setReleases v).cores = s.cores := (rfl)
@[simp] theorem State.setReleases_tngDone (s : State) (v : List Release) : (s.setReleases v).tngDone = s.tngDone := (rfl)
@[simp] theorem State.setReleases_fab (s : State) (v : List Release) : (s.setReleases v).fab = s.fab := (rfl)
@[simp] theorem State.setReleases_net (s : State) (v : List Release) : (s.setReleases v).net = s.net := (rfl)
@[simp] theorem State.setReleases_rtrShare (s : State) (v : List Release) : (s.setReleases v).rtrShare = s.rtrShare := (rfl)
@[simp] theorem State.setReleases_dbg (s : State) (v : List Release) : (s.setReleases v).dbg = s.dbg := (rfl)
@[simp] theorem State.setReleases_dcWait (s : State) (v : List Release) : (s.setReleases v).dcWait = s.dcWait := (rfl)
@[simp] theorem State.setReleases_prcStep (s : State) (v : List Release) : (s.setReleases v).prcStep = s.prcStep := (rfl)
@[simp] theorem State.setReleases_prcBlank (s : State) (v : List Release) : (s.setReleases v).prcBlank = s.prcBlank := (rfl)
@[simp] theorem State.setReleases_prcHold (s : State) (v : List Release) : (s.setReleases v).prcHold = s.prcHold := (rfl)
@[simp] theorem State.setReleases_capWait (s : State) (v : List Release) : (s.setReleases v).capWait = s.capWait := (rfl)
@[simp] theorem State.setReleases_capture (s : State) (v : List Release) : (s.setReleases v).capture = s.capture := (rfl)
@[simp] theorem State.setReleases_bramDef (s : State) (v : List Release) : (s.setReleases v).bramDef = s.bramDef := (rfl)
@[simp] theorem State.setReleases_scrubs (s : State) (v : List Release) : (s.setReleases v).scrubs = s.scrubs := (rfl)
@[simp] theorem State.setReleases_scrCopy (s : State) (v : List Release) : (s.setReleases v).scrCopy = s.scrCopy := (rfl)
@[simp] theorem State.setReleases_releases (s : State) (v : List Release) : (s.setReleases v).releases = v := (rfl)
@[simp] theorem State.setReleases_dieStep (s : State) (v : List Release) : (s.setReleases v).dieStep = s.dieStep := (rfl)
@[simp] theorem State.setReleases_clampDef (s : State) (v : List Release) : (s.setReleases v).clampDef = s.clampDef := (rfl)
@[simp] theorem State.setReleases_clamps (s : State) (v : List Release) : (s.setReleases v).clamps = s.clamps := (rfl)
@[simp] theorem State.setReleases_welds (s : State) (v : List Release) : (s.setReleases v).welds = s.welds := (rfl)
@[simp] theorem State.setReleases_lanes (s : State) (v : List Release) : (s.setReleases v).lanes = s.lanes := (rfl)
@[simp] theorem State.setReleases_macMode (s : State) (v : List Release) : (s.setReleases v).macMode = s.macMode := (rfl)
@[simp] theorem State.setReleases_tod (s : State) (v : List Release) : (s.setReleases v).tod = s.tod := (rfl)
@[simp] theorem State.setReleases_lkp (s : State) (v : List Release) : (s.setReleases v).lkp = s.lkp := (rfl)
@[simp] theorem State.setReleases_queues (s : State) (v : List Release) : (s.setReleases v).queues = s.queues := (rfl)
@[simp] theorem State.setReleases_ports (s : State) (v : List Release) : (s.setReleases v).ports = s.ports := (rfl)
@[simp] theorem State.setReleases_pkt (s : State) (v : List Release) : (s.setReleases v).pkt = s.pkt := (rfl)
@[simp] theorem State.setReleases_cxl (s : State) (v : List Release) : (s.setReleases v).cxl = s.cxl := (rfl)
@[simp] theorem State.setReleases_ddr (s : State) (v : List Release) : (s.setReleases v).ddr = s.ddr := (rfl)
@[simp] theorem State.setReleases_regions (s : State) (v : List Release) : (s.setReleases v).regions = s.regions := (rfl)
@[simp] theorem State.setReleases_prots (s : State) (v : List Release) : (s.setReleases v).prots = s.prots := (rfl)
@[simp] theorem State.setReleases_keyStore (s : State) (v : List Release) : (s.setReleases v).keyStore = s.keyStore := (rfl)
@[simp] theorem State.setReleases_rings (s : State) (v : List Release) : (s.setReleases v).rings = s.rings := (rfl)
@[simp] theorem State.setReleases_openMem (s : State) (v : List Release) : (s.setReleases v).openMem = s.openMem := (rfl)
@[simp] theorem State.setReleases_dcRights (s : State) (v : List Release) : (s.setReleases v).dcRights = s.dcRights := (rfl)
@[simp] theorem State.setReleases_clk (s : State) (v : List Release) : (s.setReleases v).clk = s.clk := (rfl)
@[simp] theorem State.setReleases_units (s : State) (v : List Release) : (s.setReleases v).units = s.units := (rfl)
@[simp] theorem State.setReleases_hearthHit (s : State) (v : List Release) : (s.setReleases v).hearthHit = s.hearthHit := (rfl)
@[simp] theorem State.setDieStep_pending (s : State) (v : Tbl Nat) : (s.setDieStep v).pending = s.pending := (rfl)
@[simp] theorem State.setDieStep_regs (s : State) (v : Tbl Nat) : (s.setDieStep v).regs = s.regs := (rfl)
@[simp] theorem State.setDieStep_mem (s : State) (v : Tbl Nat) : (s.setDieStep v).mem = s.mem := (rfl)
@[simp] theorem State.setDieStep_poison (s : State) (v : Tbl Nat) : (s.setDieStep v).poison = s.poison := (rfl)
@[simp] theorem State.setDieStep_fresh (s : State) (v : Tbl Nat) : (s.setDieStep v).fresh = s.fresh := (rfl)
@[simp] theorem State.setDieStep_answer (s : State) (v : Tbl Nat) : (s.setDieStep v).answer = s.answer := (rfl)
@[simp] theorem State.setDieStep_answerStatus (s : State) (v : Tbl Nat) : (s.setDieStep v).answerStatus = s.answerStatus := (rfl)
@[simp] theorem State.setDieStep_book (s : State) (v : Tbl Nat) : (s.setDieStep v).book = s.book := (rfl)
@[simp] theorem State.setDieStep_mgt (s : State) (v : Tbl Nat) : (s.setDieStep v).mgt = s.mgt := (rfl)
@[simp] theorem State.setDieStep_fpFifo (s : State) (v : Tbl Nat) : (s.setDieStep v).fpFifo = s.fpFifo := (rfl)
@[simp] theorem State.setDieStep_evtOnce (s : State) (v : Tbl Nat) : (s.setDieStep v).evtOnce = s.evtOnce := (rfl)
@[simp] theorem State.setDieStep_cycles (s : State) (v : Tbl Nat) : (s.setDieStep v).cycles = s.cycles := (rfl)
@[simp] theorem State.setDieStep_pcie (s : State) (v : Tbl Nat) : (s.setDieStep v).pcie = s.pcie := (rfl)
@[simp] theorem State.setDieStep_sent (s : State) (v : Tbl Nat) : (s.setDieStep v).sent = s.sent := (rfl)
@[simp] theorem State.setDieStep_bw (s : State) (v : Tbl Nat) : (s.setDieStep v).bw = s.bw := (rfl)
@[simp] theorem State.setDieStep_pmcLatch (s : State) (v : Tbl Nat) : (s.setDieStep v).pmcLatch = s.pmcLatch := (rfl)
@[simp] theorem State.setDieStep_cal (s : State) (v : Tbl Nat) : (s.setDieStep v).cal = s.cal := (rfl)
@[simp] theorem State.setDieStep_cfg (s : State) (v : Tbl Nat) : (s.setDieStep v).cfg = s.cfg := (rfl)
@[simp] theorem State.setDieStep_tap (s : State) (v : Tbl Nat) : (s.setDieStep v).tap = s.tap := (rfl)
@[simp] theorem State.setDieStep_pins (s : State) (v : Tbl Nat) : (s.setDieStep v).pins = s.pins := (rfl)
@[simp] theorem State.setDieStep_frames (s : State) (v : Tbl Nat) : (s.setDieStep v).frames = s.frames := (rfl)
@[simp] theorem State.setDieStep_clusters (s : State) (v : Tbl Nat) : (s.setDieStep v).clusters = s.clusters := (rfl)
@[simp] theorem State.setDieStep_ffs (s : State) (v : Tbl Nat) : (s.setDieStep v).ffs = s.ffs := (rfl)
@[simp] theorem State.setDieStep_relStage (s : State) (v : Tbl Nat) : (s.setDieStep v).relStage = s.relStage := (rfl)
@[simp] theorem State.setDieStep_frozen (s : State) (v : Tbl Nat) : (s.setDieStep v).frozen = s.frozen := (rfl)
@[simp] theorem State.setDieStep_bramCfg (s : State) (v : Tbl Nat) : (s.setDieStep v).bramCfg = s.bramCfg := (rfl)
@[simp] theorem State.setDieStep_bram (s : State) (v : Tbl Nat) : (s.setDieStep v).bram = s.bram := (rfl)
@[simp] theorem State.setDieStep_bramPorts (s : State) (v : Tbl Nat) : (s.setDieStep v).bramPorts = s.bramPorts := (rfl)
@[simp] theorem State.setDieStep_multCfg (s : State) (v : Tbl Nat) : (s.setDieStep v).multCfg = s.multCfg := (rfl)
@[simp] theorem State.setDieStep_mults (s : State) (v : Tbl Nat) : (s.setDieStep v).mults = s.mults := (rfl)
@[simp] theorem State.setDieStep_railKeep (s : State) (v : Tbl Nat) : (s.setDieStep v).railKeep = s.railKeep := (rfl)
@[simp] theorem State.setDieStep_chk (s : State) (v : Tbl Nat) : (s.setDieStep v).chk = s.chk := (rfl)
@[simp] theorem State.setDieStep_eccRaw (s : State) (v : Tbl Nat) : (s.setDieStep v).eccRaw = s.eccRaw := (rfl)
@[simp] theorem State.setDieStep_eccScrub (s : State) (v : Tbl Nat) : (s.setDieStep v).eccScrub = s.eccScrub := (rfl)
@[simp] theorem State.setDieStep_tags (s : State) (v : Tbl Nat) : (s.setDieStep v).tags = s.tags := (rfl)
@[simp] theorem State.setDieStep_xUsed (s : State) (v : Tbl Nat) : (s.setDieStep v).xUsed = s.xUsed := (rfl)
@[simp] theorem State.setDieStep_xWait (s : State) (v : Tbl Nat) : (s.setDieStep v).xWait = s.xWait := (rfl)
@[simp] theorem State.setDieStep_xHeld (s : State) (v : Tbl Nat) : (s.setDieStep v).xHeld = s.xHeld := (rfl)
@[simp] theorem State.setDieStep_routers (s : State) (v : Tbl Nat) : (s.setDieStep v).routers = s.routers := (rfl)
@[simp] theorem State.setDieStep_portMode (s : State) (v : Tbl Nat) : (s.setDieStep v).portMode = s.portMode := (rfl)
@[simp] theorem State.setDieStep_portTags (s : State) (v : Tbl Nat) : (s.setDieStep v).portTags = s.portTags := (rfl)
@[simp] theorem State.setDieStep_portFifo (s : State) (v : Tbl Nat) : (s.setDieStep v).portFifo = s.portFifo := (rfl)
@[simp] theorem State.setDieStep_dcache (s : State) (v : Tbl Nat) : (s.setDieStep v).dcache = s.dcache := (rfl)
@[simp] theorem State.setDieStep_dir (s : State) (v : Tbl Nat) : (s.setDieStep v).dir = s.dir := (rfl)
@[simp] theorem State.setDieStep_dieResets (s : State) (v : Tbl Nat) : (s.setDieStep v).dieResets = s.dieResets := (rfl)
@[simp] theorem State.setDieStep_homeTxn (s : State) (v : Tbl Nat) : (s.setDieStep v).homeTxn = s.homeTxn := (rfl)
@[simp] theorem State.setDieStep_cores (s : State) (v : Tbl Nat) : (s.setDieStep v).cores = s.cores := (rfl)
@[simp] theorem State.setDieStep_tngDone (s : State) (v : Tbl Nat) : (s.setDieStep v).tngDone = s.tngDone := (rfl)
@[simp] theorem State.setDieStep_fab (s : State) (v : Tbl Nat) : (s.setDieStep v).fab = s.fab := (rfl)
@[simp] theorem State.setDieStep_net (s : State) (v : Tbl Nat) : (s.setDieStep v).net = s.net := (rfl)
@[simp] theorem State.setDieStep_rtrShare (s : State) (v : Tbl Nat) : (s.setDieStep v).rtrShare = s.rtrShare := (rfl)
@[simp] theorem State.setDieStep_dbg (s : State) (v : Tbl Nat) : (s.setDieStep v).dbg = s.dbg := (rfl)
@[simp] theorem State.setDieStep_dcWait (s : State) (v : Tbl Nat) : (s.setDieStep v).dcWait = s.dcWait := (rfl)
@[simp] theorem State.setDieStep_prcStep (s : State) (v : Tbl Nat) : (s.setDieStep v).prcStep = s.prcStep := (rfl)
@[simp] theorem State.setDieStep_prcBlank (s : State) (v : Tbl Nat) : (s.setDieStep v).prcBlank = s.prcBlank := (rfl)
@[simp] theorem State.setDieStep_prcHold (s : State) (v : Tbl Nat) : (s.setDieStep v).prcHold = s.prcHold := (rfl)
@[simp] theorem State.setDieStep_capWait (s : State) (v : Tbl Nat) : (s.setDieStep v).capWait = s.capWait := (rfl)
@[simp] theorem State.setDieStep_capture (s : State) (v : Tbl Nat) : (s.setDieStep v).capture = s.capture := (rfl)
@[simp] theorem State.setDieStep_bramDef (s : State) (v : Tbl Nat) : (s.setDieStep v).bramDef = s.bramDef := (rfl)
@[simp] theorem State.setDieStep_scrubs (s : State) (v : Tbl Nat) : (s.setDieStep v).scrubs = s.scrubs := (rfl)
@[simp] theorem State.setDieStep_scrCopy (s : State) (v : Tbl Nat) : (s.setDieStep v).scrCopy = s.scrCopy := (rfl)
@[simp] theorem State.setDieStep_releases (s : State) (v : Tbl Nat) : (s.setDieStep v).releases = s.releases := (rfl)
@[simp] theorem State.setDieStep_dieStep (s : State) (v : Tbl Nat) : (s.setDieStep v).dieStep = v := (rfl)
@[simp] theorem State.setDieStep_clampDef (s : State) (v : Tbl Nat) : (s.setDieStep v).clampDef = s.clampDef := (rfl)
@[simp] theorem State.setDieStep_clamps (s : State) (v : Tbl Nat) : (s.setDieStep v).clamps = s.clamps := (rfl)
@[simp] theorem State.setDieStep_welds (s : State) (v : Tbl Nat) : (s.setDieStep v).welds = s.welds := (rfl)
@[simp] theorem State.setDieStep_lanes (s : State) (v : Tbl Nat) : (s.setDieStep v).lanes = s.lanes := (rfl)
@[simp] theorem State.setDieStep_macMode (s : State) (v : Tbl Nat) : (s.setDieStep v).macMode = s.macMode := (rfl)
@[simp] theorem State.setDieStep_tod (s : State) (v : Tbl Nat) : (s.setDieStep v).tod = s.tod := (rfl)
@[simp] theorem State.setDieStep_lkp (s : State) (v : Tbl Nat) : (s.setDieStep v).lkp = s.lkp := (rfl)
@[simp] theorem State.setDieStep_queues (s : State) (v : Tbl Nat) : (s.setDieStep v).queues = s.queues := (rfl)
@[simp] theorem State.setDieStep_ports (s : State) (v : Tbl Nat) : (s.setDieStep v).ports = s.ports := (rfl)
@[simp] theorem State.setDieStep_pkt (s : State) (v : Tbl Nat) : (s.setDieStep v).pkt = s.pkt := (rfl)
@[simp] theorem State.setDieStep_cxl (s : State) (v : Tbl Nat) : (s.setDieStep v).cxl = s.cxl := (rfl)
@[simp] theorem State.setDieStep_ddr (s : State) (v : Tbl Nat) : (s.setDieStep v).ddr = s.ddr := (rfl)
@[simp] theorem State.setDieStep_regions (s : State) (v : Tbl Nat) : (s.setDieStep v).regions = s.regions := (rfl)
@[simp] theorem State.setDieStep_prots (s : State) (v : Tbl Nat) : (s.setDieStep v).prots = s.prots := (rfl)
@[simp] theorem State.setDieStep_keyStore (s : State) (v : Tbl Nat) : (s.setDieStep v).keyStore = s.keyStore := (rfl)
@[simp] theorem State.setDieStep_rings (s : State) (v : Tbl Nat) : (s.setDieStep v).rings = s.rings := (rfl)
@[simp] theorem State.setDieStep_openMem (s : State) (v : Tbl Nat) : (s.setDieStep v).openMem = s.openMem := (rfl)
@[simp] theorem State.setDieStep_dcRights (s : State) (v : Tbl Nat) : (s.setDieStep v).dcRights = s.dcRights := (rfl)
@[simp] theorem State.setDieStep_clk (s : State) (v : Tbl Nat) : (s.setDieStep v).clk = s.clk := (rfl)
@[simp] theorem State.setDieStep_units (s : State) (v : Tbl Nat) : (s.setDieStep v).units = s.units := (rfl)
@[simp] theorem State.setDieStep_hearthHit (s : State) (v : Tbl Nat) : (s.setDieStep v).hearthHit = s.hearthHit := (rfl)
@[simp] theorem State.setClampDef_pending (s : State) (v : Tbl Nat) : (s.setClampDef v).pending = s.pending := (rfl)
@[simp] theorem State.setClampDef_regs (s : State) (v : Tbl Nat) : (s.setClampDef v).regs = s.regs := (rfl)
@[simp] theorem State.setClampDef_mem (s : State) (v : Tbl Nat) : (s.setClampDef v).mem = s.mem := (rfl)
@[simp] theorem State.setClampDef_poison (s : State) (v : Tbl Nat) : (s.setClampDef v).poison = s.poison := (rfl)
@[simp] theorem State.setClampDef_fresh (s : State) (v : Tbl Nat) : (s.setClampDef v).fresh = s.fresh := (rfl)
@[simp] theorem State.setClampDef_answer (s : State) (v : Tbl Nat) : (s.setClampDef v).answer = s.answer := (rfl)
@[simp] theorem State.setClampDef_answerStatus (s : State) (v : Tbl Nat) : (s.setClampDef v).answerStatus = s.answerStatus := (rfl)
@[simp] theorem State.setClampDef_book (s : State) (v : Tbl Nat) : (s.setClampDef v).book = s.book := (rfl)
@[simp] theorem State.setClampDef_mgt (s : State) (v : Tbl Nat) : (s.setClampDef v).mgt = s.mgt := (rfl)
@[simp] theorem State.setClampDef_fpFifo (s : State) (v : Tbl Nat) : (s.setClampDef v).fpFifo = s.fpFifo := (rfl)
@[simp] theorem State.setClampDef_evtOnce (s : State) (v : Tbl Nat) : (s.setClampDef v).evtOnce = s.evtOnce := (rfl)
@[simp] theorem State.setClampDef_cycles (s : State) (v : Tbl Nat) : (s.setClampDef v).cycles = s.cycles := (rfl)
@[simp] theorem State.setClampDef_pcie (s : State) (v : Tbl Nat) : (s.setClampDef v).pcie = s.pcie := (rfl)
@[simp] theorem State.setClampDef_sent (s : State) (v : Tbl Nat) : (s.setClampDef v).sent = s.sent := (rfl)
@[simp] theorem State.setClampDef_bw (s : State) (v : Tbl Nat) : (s.setClampDef v).bw = s.bw := (rfl)
@[simp] theorem State.setClampDef_pmcLatch (s : State) (v : Tbl Nat) : (s.setClampDef v).pmcLatch = s.pmcLatch := (rfl)
@[simp] theorem State.setClampDef_cal (s : State) (v : Tbl Nat) : (s.setClampDef v).cal = s.cal := (rfl)
@[simp] theorem State.setClampDef_cfg (s : State) (v : Tbl Nat) : (s.setClampDef v).cfg = s.cfg := (rfl)
@[simp] theorem State.setClampDef_tap (s : State) (v : Tbl Nat) : (s.setClampDef v).tap = s.tap := (rfl)
@[simp] theorem State.setClampDef_pins (s : State) (v : Tbl Nat) : (s.setClampDef v).pins = s.pins := (rfl)
@[simp] theorem State.setClampDef_frames (s : State) (v : Tbl Nat) : (s.setClampDef v).frames = s.frames := (rfl)
@[simp] theorem State.setClampDef_clusters (s : State) (v : Tbl Nat) : (s.setClampDef v).clusters = s.clusters := (rfl)
@[simp] theorem State.setClampDef_ffs (s : State) (v : Tbl Nat) : (s.setClampDef v).ffs = s.ffs := (rfl)
@[simp] theorem State.setClampDef_relStage (s : State) (v : Tbl Nat) : (s.setClampDef v).relStage = s.relStage := (rfl)
@[simp] theorem State.setClampDef_frozen (s : State) (v : Tbl Nat) : (s.setClampDef v).frozen = s.frozen := (rfl)
@[simp] theorem State.setClampDef_bramCfg (s : State) (v : Tbl Nat) : (s.setClampDef v).bramCfg = s.bramCfg := (rfl)
@[simp] theorem State.setClampDef_bram (s : State) (v : Tbl Nat) : (s.setClampDef v).bram = s.bram := (rfl)
@[simp] theorem State.setClampDef_bramPorts (s : State) (v : Tbl Nat) : (s.setClampDef v).bramPorts = s.bramPorts := (rfl)
@[simp] theorem State.setClampDef_multCfg (s : State) (v : Tbl Nat) : (s.setClampDef v).multCfg = s.multCfg := (rfl)
@[simp] theorem State.setClampDef_mults (s : State) (v : Tbl Nat) : (s.setClampDef v).mults = s.mults := (rfl)
@[simp] theorem State.setClampDef_railKeep (s : State) (v : Tbl Nat) : (s.setClampDef v).railKeep = s.railKeep := (rfl)
@[simp] theorem State.setClampDef_chk (s : State) (v : Tbl Nat) : (s.setClampDef v).chk = s.chk := (rfl)
@[simp] theorem State.setClampDef_eccRaw (s : State) (v : Tbl Nat) : (s.setClampDef v).eccRaw = s.eccRaw := (rfl)
@[simp] theorem State.setClampDef_eccScrub (s : State) (v : Tbl Nat) : (s.setClampDef v).eccScrub = s.eccScrub := (rfl)
@[simp] theorem State.setClampDef_tags (s : State) (v : Tbl Nat) : (s.setClampDef v).tags = s.tags := (rfl)
@[simp] theorem State.setClampDef_xUsed (s : State) (v : Tbl Nat) : (s.setClampDef v).xUsed = s.xUsed := (rfl)
@[simp] theorem State.setClampDef_xWait (s : State) (v : Tbl Nat) : (s.setClampDef v).xWait = s.xWait := (rfl)
@[simp] theorem State.setClampDef_xHeld (s : State) (v : Tbl Nat) : (s.setClampDef v).xHeld = s.xHeld := (rfl)
@[simp] theorem State.setClampDef_routers (s : State) (v : Tbl Nat) : (s.setClampDef v).routers = s.routers := (rfl)
@[simp] theorem State.setClampDef_portMode (s : State) (v : Tbl Nat) : (s.setClampDef v).portMode = s.portMode := (rfl)
@[simp] theorem State.setClampDef_portTags (s : State) (v : Tbl Nat) : (s.setClampDef v).portTags = s.portTags := (rfl)
@[simp] theorem State.setClampDef_portFifo (s : State) (v : Tbl Nat) : (s.setClampDef v).portFifo = s.portFifo := (rfl)
@[simp] theorem State.setClampDef_dcache (s : State) (v : Tbl Nat) : (s.setClampDef v).dcache = s.dcache := (rfl)
@[simp] theorem State.setClampDef_dir (s : State) (v : Tbl Nat) : (s.setClampDef v).dir = s.dir := (rfl)
@[simp] theorem State.setClampDef_dieResets (s : State) (v : Tbl Nat) : (s.setClampDef v).dieResets = s.dieResets := (rfl)
@[simp] theorem State.setClampDef_homeTxn (s : State) (v : Tbl Nat) : (s.setClampDef v).homeTxn = s.homeTxn := (rfl)
@[simp] theorem State.setClampDef_cores (s : State) (v : Tbl Nat) : (s.setClampDef v).cores = s.cores := (rfl)
@[simp] theorem State.setClampDef_tngDone (s : State) (v : Tbl Nat) : (s.setClampDef v).tngDone = s.tngDone := (rfl)
@[simp] theorem State.setClampDef_fab (s : State) (v : Tbl Nat) : (s.setClampDef v).fab = s.fab := (rfl)
@[simp] theorem State.setClampDef_net (s : State) (v : Tbl Nat) : (s.setClampDef v).net = s.net := (rfl)
@[simp] theorem State.setClampDef_rtrShare (s : State) (v : Tbl Nat) : (s.setClampDef v).rtrShare = s.rtrShare := (rfl)
@[simp] theorem State.setClampDef_dbg (s : State) (v : Tbl Nat) : (s.setClampDef v).dbg = s.dbg := (rfl)
@[simp] theorem State.setClampDef_dcWait (s : State) (v : Tbl Nat) : (s.setClampDef v).dcWait = s.dcWait := (rfl)
@[simp] theorem State.setClampDef_prcStep (s : State) (v : Tbl Nat) : (s.setClampDef v).prcStep = s.prcStep := (rfl)
@[simp] theorem State.setClampDef_prcBlank (s : State) (v : Tbl Nat) : (s.setClampDef v).prcBlank = s.prcBlank := (rfl)
@[simp] theorem State.setClampDef_prcHold (s : State) (v : Tbl Nat) : (s.setClampDef v).prcHold = s.prcHold := (rfl)
@[simp] theorem State.setClampDef_capWait (s : State) (v : Tbl Nat) : (s.setClampDef v).capWait = s.capWait := (rfl)
@[simp] theorem State.setClampDef_capture (s : State) (v : Tbl Nat) : (s.setClampDef v).capture = s.capture := (rfl)
@[simp] theorem State.setClampDef_bramDef (s : State) (v : Tbl Nat) : (s.setClampDef v).bramDef = s.bramDef := (rfl)
@[simp] theorem State.setClampDef_scrubs (s : State) (v : Tbl Nat) : (s.setClampDef v).scrubs = s.scrubs := (rfl)
@[simp] theorem State.setClampDef_scrCopy (s : State) (v : Tbl Nat) : (s.setClampDef v).scrCopy = s.scrCopy := (rfl)
@[simp] theorem State.setClampDef_releases (s : State) (v : Tbl Nat) : (s.setClampDef v).releases = s.releases := (rfl)
@[simp] theorem State.setClampDef_dieStep (s : State) (v : Tbl Nat) : (s.setClampDef v).dieStep = s.dieStep := (rfl)
@[simp] theorem State.setClampDef_clampDef (s : State) (v : Tbl Nat) : (s.setClampDef v).clampDef = v := (rfl)
@[simp] theorem State.setClampDef_clamps (s : State) (v : Tbl Nat) : (s.setClampDef v).clamps = s.clamps := (rfl)
@[simp] theorem State.setClampDef_welds (s : State) (v : Tbl Nat) : (s.setClampDef v).welds = s.welds := (rfl)
@[simp] theorem State.setClampDef_lanes (s : State) (v : Tbl Nat) : (s.setClampDef v).lanes = s.lanes := (rfl)
@[simp] theorem State.setClampDef_macMode (s : State) (v : Tbl Nat) : (s.setClampDef v).macMode = s.macMode := (rfl)
@[simp] theorem State.setClampDef_tod (s : State) (v : Tbl Nat) : (s.setClampDef v).tod = s.tod := (rfl)
@[simp] theorem State.setClampDef_lkp (s : State) (v : Tbl Nat) : (s.setClampDef v).lkp = s.lkp := (rfl)
@[simp] theorem State.setClampDef_queues (s : State) (v : Tbl Nat) : (s.setClampDef v).queues = s.queues := (rfl)
@[simp] theorem State.setClampDef_ports (s : State) (v : Tbl Nat) : (s.setClampDef v).ports = s.ports := (rfl)
@[simp] theorem State.setClampDef_pkt (s : State) (v : Tbl Nat) : (s.setClampDef v).pkt = s.pkt := (rfl)
@[simp] theorem State.setClampDef_cxl (s : State) (v : Tbl Nat) : (s.setClampDef v).cxl = s.cxl := (rfl)
@[simp] theorem State.setClampDef_ddr (s : State) (v : Tbl Nat) : (s.setClampDef v).ddr = s.ddr := (rfl)
@[simp] theorem State.setClampDef_regions (s : State) (v : Tbl Nat) : (s.setClampDef v).regions = s.regions := (rfl)
@[simp] theorem State.setClampDef_prots (s : State) (v : Tbl Nat) : (s.setClampDef v).prots = s.prots := (rfl)
@[simp] theorem State.setClampDef_keyStore (s : State) (v : Tbl Nat) : (s.setClampDef v).keyStore = s.keyStore := (rfl)
@[simp] theorem State.setClampDef_rings (s : State) (v : Tbl Nat) : (s.setClampDef v).rings = s.rings := (rfl)
@[simp] theorem State.setClampDef_openMem (s : State) (v : Tbl Nat) : (s.setClampDef v).openMem = s.openMem := (rfl)
@[simp] theorem State.setClampDef_dcRights (s : State) (v : Tbl Nat) : (s.setClampDef v).dcRights = s.dcRights := (rfl)
@[simp] theorem State.setClampDef_clk (s : State) (v : Tbl Nat) : (s.setClampDef v).clk = s.clk := (rfl)
@[simp] theorem State.setClampDef_units (s : State) (v : Tbl Nat) : (s.setClampDef v).units = s.units := (rfl)
@[simp] theorem State.setClampDef_hearthHit (s : State) (v : Tbl Nat) : (s.setClampDef v).hearthHit = s.hearthHit := (rfl)
@[simp] theorem State.setClamps_pending (s : State) (v : Tbl (Nat × List (Nat × Nat))) : (s.setClamps v).pending = s.pending := (rfl)
@[simp] theorem State.setClamps_regs (s : State) (v : Tbl (Nat × List (Nat × Nat))) : (s.setClamps v).regs = s.regs := (rfl)
@[simp] theorem State.setClamps_mem (s : State) (v : Tbl (Nat × List (Nat × Nat))) : (s.setClamps v).mem = s.mem := (rfl)
@[simp] theorem State.setClamps_poison (s : State) (v : Tbl (Nat × List (Nat × Nat))) : (s.setClamps v).poison = s.poison := (rfl)
@[simp] theorem State.setClamps_fresh (s : State) (v : Tbl (Nat × List (Nat × Nat))) : (s.setClamps v).fresh = s.fresh := (rfl)
@[simp] theorem State.setClamps_answer (s : State) (v : Tbl (Nat × List (Nat × Nat))) : (s.setClamps v).answer = s.answer := (rfl)
@[simp] theorem State.setClamps_answerStatus (s : State) (v : Tbl (Nat × List (Nat × Nat))) : (s.setClamps v).answerStatus = s.answerStatus := (rfl)
@[simp] theorem State.setClamps_book (s : State) (v : Tbl (Nat × List (Nat × Nat))) : (s.setClamps v).book = s.book := (rfl)
@[simp] theorem State.setClamps_mgt (s : State) (v : Tbl (Nat × List (Nat × Nat))) : (s.setClamps v).mgt = s.mgt := (rfl)
@[simp] theorem State.setClamps_fpFifo (s : State) (v : Tbl (Nat × List (Nat × Nat))) : (s.setClamps v).fpFifo = s.fpFifo := (rfl)
@[simp] theorem State.setClamps_evtOnce (s : State) (v : Tbl (Nat × List (Nat × Nat))) : (s.setClamps v).evtOnce = s.evtOnce := (rfl)
@[simp] theorem State.setClamps_cycles (s : State) (v : Tbl (Nat × List (Nat × Nat))) : (s.setClamps v).cycles = s.cycles := (rfl)
@[simp] theorem State.setClamps_pcie (s : State) (v : Tbl (Nat × List (Nat × Nat))) : (s.setClamps v).pcie = s.pcie := (rfl)
@[simp] theorem State.setClamps_sent (s : State) (v : Tbl (Nat × List (Nat × Nat))) : (s.setClamps v).sent = s.sent := (rfl)
@[simp] theorem State.setClamps_bw (s : State) (v : Tbl (Nat × List (Nat × Nat))) : (s.setClamps v).bw = s.bw := (rfl)
@[simp] theorem State.setClamps_pmcLatch (s : State) (v : Tbl (Nat × List (Nat × Nat))) : (s.setClamps v).pmcLatch = s.pmcLatch := (rfl)
@[simp] theorem State.setClamps_cal (s : State) (v : Tbl (Nat × List (Nat × Nat))) : (s.setClamps v).cal = s.cal := (rfl)
@[simp] theorem State.setClamps_cfg (s : State) (v : Tbl (Nat × List (Nat × Nat))) : (s.setClamps v).cfg = s.cfg := (rfl)
@[simp] theorem State.setClamps_tap (s : State) (v : Tbl (Nat × List (Nat × Nat))) : (s.setClamps v).tap = s.tap := (rfl)
@[simp] theorem State.setClamps_pins (s : State) (v : Tbl (Nat × List (Nat × Nat))) : (s.setClamps v).pins = s.pins := (rfl)
@[simp] theorem State.setClamps_frames (s : State) (v : Tbl (Nat × List (Nat × Nat))) : (s.setClamps v).frames = s.frames := (rfl)
@[simp] theorem State.setClamps_clusters (s : State) (v : Tbl (Nat × List (Nat × Nat))) : (s.setClamps v).clusters = s.clusters := (rfl)
@[simp] theorem State.setClamps_ffs (s : State) (v : Tbl (Nat × List (Nat × Nat))) : (s.setClamps v).ffs = s.ffs := (rfl)
@[simp] theorem State.setClamps_relStage (s : State) (v : Tbl (Nat × List (Nat × Nat))) : (s.setClamps v).relStage = s.relStage := (rfl)
@[simp] theorem State.setClamps_frozen (s : State) (v : Tbl (Nat × List (Nat × Nat))) : (s.setClamps v).frozen = s.frozen := (rfl)
@[simp] theorem State.setClamps_bramCfg (s : State) (v : Tbl (Nat × List (Nat × Nat))) : (s.setClamps v).bramCfg = s.bramCfg := (rfl)
@[simp] theorem State.setClamps_bram (s : State) (v : Tbl (Nat × List (Nat × Nat))) : (s.setClamps v).bram = s.bram := (rfl)
@[simp] theorem State.setClamps_bramPorts (s : State) (v : Tbl (Nat × List (Nat × Nat))) : (s.setClamps v).bramPorts = s.bramPorts := (rfl)
@[simp] theorem State.setClamps_multCfg (s : State) (v : Tbl (Nat × List (Nat × Nat))) : (s.setClamps v).multCfg = s.multCfg := (rfl)
@[simp] theorem State.setClamps_mults (s : State) (v : Tbl (Nat × List (Nat × Nat))) : (s.setClamps v).mults = s.mults := (rfl)
@[simp] theorem State.setClamps_railKeep (s : State) (v : Tbl (Nat × List (Nat × Nat))) : (s.setClamps v).railKeep = s.railKeep := (rfl)
@[simp] theorem State.setClamps_chk (s : State) (v : Tbl (Nat × List (Nat × Nat))) : (s.setClamps v).chk = s.chk := (rfl)
@[simp] theorem State.setClamps_eccRaw (s : State) (v : Tbl (Nat × List (Nat × Nat))) : (s.setClamps v).eccRaw = s.eccRaw := (rfl)
@[simp] theorem State.setClamps_eccScrub (s : State) (v : Tbl (Nat × List (Nat × Nat))) : (s.setClamps v).eccScrub = s.eccScrub := (rfl)
@[simp] theorem State.setClamps_tags (s : State) (v : Tbl (Nat × List (Nat × Nat))) : (s.setClamps v).tags = s.tags := (rfl)
@[simp] theorem State.setClamps_xUsed (s : State) (v : Tbl (Nat × List (Nat × Nat))) : (s.setClamps v).xUsed = s.xUsed := (rfl)
@[simp] theorem State.setClamps_xWait (s : State) (v : Tbl (Nat × List (Nat × Nat))) : (s.setClamps v).xWait = s.xWait := (rfl)
@[simp] theorem State.setClamps_xHeld (s : State) (v : Tbl (Nat × List (Nat × Nat))) : (s.setClamps v).xHeld = s.xHeld := (rfl)
@[simp] theorem State.setClamps_routers (s : State) (v : Tbl (Nat × List (Nat × Nat))) : (s.setClamps v).routers = s.routers := (rfl)
@[simp] theorem State.setClamps_portMode (s : State) (v : Tbl (Nat × List (Nat × Nat))) : (s.setClamps v).portMode = s.portMode := (rfl)
@[simp] theorem State.setClamps_portTags (s : State) (v : Tbl (Nat × List (Nat × Nat))) : (s.setClamps v).portTags = s.portTags := (rfl)
@[simp] theorem State.setClamps_portFifo (s : State) (v : Tbl (Nat × List (Nat × Nat))) : (s.setClamps v).portFifo = s.portFifo := (rfl)
@[simp] theorem State.setClamps_dcache (s : State) (v : Tbl (Nat × List (Nat × Nat))) : (s.setClamps v).dcache = s.dcache := (rfl)
@[simp] theorem State.setClamps_dir (s : State) (v : Tbl (Nat × List (Nat × Nat))) : (s.setClamps v).dir = s.dir := (rfl)
@[simp] theorem State.setClamps_dieResets (s : State) (v : Tbl (Nat × List (Nat × Nat))) : (s.setClamps v).dieResets = s.dieResets := (rfl)
@[simp] theorem State.setClamps_homeTxn (s : State) (v : Tbl (Nat × List (Nat × Nat))) : (s.setClamps v).homeTxn = s.homeTxn := (rfl)
@[simp] theorem State.setClamps_cores (s : State) (v : Tbl (Nat × List (Nat × Nat))) : (s.setClamps v).cores = s.cores := (rfl)
@[simp] theorem State.setClamps_tngDone (s : State) (v : Tbl (Nat × List (Nat × Nat))) : (s.setClamps v).tngDone = s.tngDone := (rfl)
@[simp] theorem State.setClamps_fab (s : State) (v : Tbl (Nat × List (Nat × Nat))) : (s.setClamps v).fab = s.fab := (rfl)
@[simp] theorem State.setClamps_net (s : State) (v : Tbl (Nat × List (Nat × Nat))) : (s.setClamps v).net = s.net := (rfl)
@[simp] theorem State.setClamps_rtrShare (s : State) (v : Tbl (Nat × List (Nat × Nat))) : (s.setClamps v).rtrShare = s.rtrShare := (rfl)
@[simp] theorem State.setClamps_dbg (s : State) (v : Tbl (Nat × List (Nat × Nat))) : (s.setClamps v).dbg = s.dbg := (rfl)
@[simp] theorem State.setClamps_dcWait (s : State) (v : Tbl (Nat × List (Nat × Nat))) : (s.setClamps v).dcWait = s.dcWait := (rfl)
@[simp] theorem State.setClamps_prcStep (s : State) (v : Tbl (Nat × List (Nat × Nat))) : (s.setClamps v).prcStep = s.prcStep := (rfl)
@[simp] theorem State.setClamps_prcBlank (s : State) (v : Tbl (Nat × List (Nat × Nat))) : (s.setClamps v).prcBlank = s.prcBlank := (rfl)
@[simp] theorem State.setClamps_prcHold (s : State) (v : Tbl (Nat × List (Nat × Nat))) : (s.setClamps v).prcHold = s.prcHold := (rfl)
@[simp] theorem State.setClamps_capWait (s : State) (v : Tbl (Nat × List (Nat × Nat))) : (s.setClamps v).capWait = s.capWait := (rfl)
@[simp] theorem State.setClamps_capture (s : State) (v : Tbl (Nat × List (Nat × Nat))) : (s.setClamps v).capture = s.capture := (rfl)
@[simp] theorem State.setClamps_bramDef (s : State) (v : Tbl (Nat × List (Nat × Nat))) : (s.setClamps v).bramDef = s.bramDef := (rfl)
@[simp] theorem State.setClamps_scrubs (s : State) (v : Tbl (Nat × List (Nat × Nat))) : (s.setClamps v).scrubs = s.scrubs := (rfl)
@[simp] theorem State.setClamps_scrCopy (s : State) (v : Tbl (Nat × List (Nat × Nat))) : (s.setClamps v).scrCopy = s.scrCopy := (rfl)
@[simp] theorem State.setClamps_releases (s : State) (v : Tbl (Nat × List (Nat × Nat))) : (s.setClamps v).releases = s.releases := (rfl)
@[simp] theorem State.setClamps_dieStep (s : State) (v : Tbl (Nat × List (Nat × Nat))) : (s.setClamps v).dieStep = s.dieStep := (rfl)
@[simp] theorem State.setClamps_clampDef (s : State) (v : Tbl (Nat × List (Nat × Nat))) : (s.setClamps v).clampDef = s.clampDef := (rfl)
@[simp] theorem State.setClamps_clamps (s : State) (v : Tbl (Nat × List (Nat × Nat))) : (s.setClamps v).clamps = v := (rfl)
@[simp] theorem State.setClamps_welds (s : State) (v : Tbl (Nat × List (Nat × Nat))) : (s.setClamps v).welds = s.welds := (rfl)
@[simp] theorem State.setClamps_lanes (s : State) (v : Tbl (Nat × List (Nat × Nat))) : (s.setClamps v).lanes = s.lanes := (rfl)
@[simp] theorem State.setClamps_macMode (s : State) (v : Tbl (Nat × List (Nat × Nat))) : (s.setClamps v).macMode = s.macMode := (rfl)
@[simp] theorem State.setClamps_tod (s : State) (v : Tbl (Nat × List (Nat × Nat))) : (s.setClamps v).tod = s.tod := (rfl)
@[simp] theorem State.setClamps_lkp (s : State) (v : Tbl (Nat × List (Nat × Nat))) : (s.setClamps v).lkp = s.lkp := (rfl)
@[simp] theorem State.setClamps_queues (s : State) (v : Tbl (Nat × List (Nat × Nat))) : (s.setClamps v).queues = s.queues := (rfl)
@[simp] theorem State.setClamps_ports (s : State) (v : Tbl (Nat × List (Nat × Nat))) : (s.setClamps v).ports = s.ports := (rfl)
@[simp] theorem State.setClamps_pkt (s : State) (v : Tbl (Nat × List (Nat × Nat))) : (s.setClamps v).pkt = s.pkt := (rfl)
@[simp] theorem State.setClamps_cxl (s : State) (v : Tbl (Nat × List (Nat × Nat))) : (s.setClamps v).cxl = s.cxl := (rfl)
@[simp] theorem State.setClamps_ddr (s : State) (v : Tbl (Nat × List (Nat × Nat))) : (s.setClamps v).ddr = s.ddr := (rfl)
@[simp] theorem State.setClamps_regions (s : State) (v : Tbl (Nat × List (Nat × Nat))) : (s.setClamps v).regions = s.regions := (rfl)
@[simp] theorem State.setClamps_prots (s : State) (v : Tbl (Nat × List (Nat × Nat))) : (s.setClamps v).prots = s.prots := (rfl)
@[simp] theorem State.setClamps_keyStore (s : State) (v : Tbl (Nat × List (Nat × Nat))) : (s.setClamps v).keyStore = s.keyStore := (rfl)
@[simp] theorem State.setClamps_rings (s : State) (v : Tbl (Nat × List (Nat × Nat))) : (s.setClamps v).rings = s.rings := (rfl)
@[simp] theorem State.setClamps_openMem (s : State) (v : Tbl (Nat × List (Nat × Nat))) : (s.setClamps v).openMem = s.openMem := (rfl)
@[simp] theorem State.setClamps_dcRights (s : State) (v : Tbl (Nat × List (Nat × Nat))) : (s.setClamps v).dcRights = s.dcRights := (rfl)
@[simp] theorem State.setClamps_clk (s : State) (v : Tbl (Nat × List (Nat × Nat))) : (s.setClamps v).clk = s.clk := (rfl)
@[simp] theorem State.setClamps_units (s : State) (v : Tbl (Nat × List (Nat × Nat))) : (s.setClamps v).units = s.units := (rfl)
@[simp] theorem State.setClamps_hearthHit (s : State) (v : Tbl (Nat × List (Nat × Nat))) : (s.setClamps v).hearthHit = s.hearthHit := (rfl)
@[simp] theorem State.setWelds_pending (s : State) (v : Tbl WeldEnd) : (s.setWelds v).pending = s.pending := (rfl)
@[simp] theorem State.setWelds_regs (s : State) (v : Tbl WeldEnd) : (s.setWelds v).regs = s.regs := (rfl)
@[simp] theorem State.setWelds_mem (s : State) (v : Tbl WeldEnd) : (s.setWelds v).mem = s.mem := (rfl)
@[simp] theorem State.setWelds_poison (s : State) (v : Tbl WeldEnd) : (s.setWelds v).poison = s.poison := (rfl)
@[simp] theorem State.setWelds_fresh (s : State) (v : Tbl WeldEnd) : (s.setWelds v).fresh = s.fresh := (rfl)
@[simp] theorem State.setWelds_answer (s : State) (v : Tbl WeldEnd) : (s.setWelds v).answer = s.answer := (rfl)
@[simp] theorem State.setWelds_answerStatus (s : State) (v : Tbl WeldEnd) : (s.setWelds v).answerStatus = s.answerStatus := (rfl)
@[simp] theorem State.setWelds_book (s : State) (v : Tbl WeldEnd) : (s.setWelds v).book = s.book := (rfl)
@[simp] theorem State.setWelds_mgt (s : State) (v : Tbl WeldEnd) : (s.setWelds v).mgt = s.mgt := (rfl)
@[simp] theorem State.setWelds_fpFifo (s : State) (v : Tbl WeldEnd) : (s.setWelds v).fpFifo = s.fpFifo := (rfl)
@[simp] theorem State.setWelds_evtOnce (s : State) (v : Tbl WeldEnd) : (s.setWelds v).evtOnce = s.evtOnce := (rfl)
@[simp] theorem State.setWelds_cycles (s : State) (v : Tbl WeldEnd) : (s.setWelds v).cycles = s.cycles := (rfl)
@[simp] theorem State.setWelds_pcie (s : State) (v : Tbl WeldEnd) : (s.setWelds v).pcie = s.pcie := (rfl)
@[simp] theorem State.setWelds_sent (s : State) (v : Tbl WeldEnd) : (s.setWelds v).sent = s.sent := (rfl)
@[simp] theorem State.setWelds_bw (s : State) (v : Tbl WeldEnd) : (s.setWelds v).bw = s.bw := (rfl)
@[simp] theorem State.setWelds_pmcLatch (s : State) (v : Tbl WeldEnd) : (s.setWelds v).pmcLatch = s.pmcLatch := (rfl)
@[simp] theorem State.setWelds_cal (s : State) (v : Tbl WeldEnd) : (s.setWelds v).cal = s.cal := (rfl)
@[simp] theorem State.setWelds_cfg (s : State) (v : Tbl WeldEnd) : (s.setWelds v).cfg = s.cfg := (rfl)
@[simp] theorem State.setWelds_tap (s : State) (v : Tbl WeldEnd) : (s.setWelds v).tap = s.tap := (rfl)
@[simp] theorem State.setWelds_pins (s : State) (v : Tbl WeldEnd) : (s.setWelds v).pins = s.pins := (rfl)
@[simp] theorem State.setWelds_frames (s : State) (v : Tbl WeldEnd) : (s.setWelds v).frames = s.frames := (rfl)
@[simp] theorem State.setWelds_clusters (s : State) (v : Tbl WeldEnd) : (s.setWelds v).clusters = s.clusters := (rfl)
@[simp] theorem State.setWelds_ffs (s : State) (v : Tbl WeldEnd) : (s.setWelds v).ffs = s.ffs := (rfl)
@[simp] theorem State.setWelds_relStage (s : State) (v : Tbl WeldEnd) : (s.setWelds v).relStage = s.relStage := (rfl)
@[simp] theorem State.setWelds_frozen (s : State) (v : Tbl WeldEnd) : (s.setWelds v).frozen = s.frozen := (rfl)
@[simp] theorem State.setWelds_bramCfg (s : State) (v : Tbl WeldEnd) : (s.setWelds v).bramCfg = s.bramCfg := (rfl)
@[simp] theorem State.setWelds_bram (s : State) (v : Tbl WeldEnd) : (s.setWelds v).bram = s.bram := (rfl)
@[simp] theorem State.setWelds_bramPorts (s : State) (v : Tbl WeldEnd) : (s.setWelds v).bramPorts = s.bramPorts := (rfl)
@[simp] theorem State.setWelds_multCfg (s : State) (v : Tbl WeldEnd) : (s.setWelds v).multCfg = s.multCfg := (rfl)
@[simp] theorem State.setWelds_mults (s : State) (v : Tbl WeldEnd) : (s.setWelds v).mults = s.mults := (rfl)
@[simp] theorem State.setWelds_railKeep (s : State) (v : Tbl WeldEnd) : (s.setWelds v).railKeep = s.railKeep := (rfl)
@[simp] theorem State.setWelds_chk (s : State) (v : Tbl WeldEnd) : (s.setWelds v).chk = s.chk := (rfl)
@[simp] theorem State.setWelds_eccRaw (s : State) (v : Tbl WeldEnd) : (s.setWelds v).eccRaw = s.eccRaw := (rfl)
@[simp] theorem State.setWelds_eccScrub (s : State) (v : Tbl WeldEnd) : (s.setWelds v).eccScrub = s.eccScrub := (rfl)
@[simp] theorem State.setWelds_tags (s : State) (v : Tbl WeldEnd) : (s.setWelds v).tags = s.tags := (rfl)
@[simp] theorem State.setWelds_xUsed (s : State) (v : Tbl WeldEnd) : (s.setWelds v).xUsed = s.xUsed := (rfl)
@[simp] theorem State.setWelds_xWait (s : State) (v : Tbl WeldEnd) : (s.setWelds v).xWait = s.xWait := (rfl)
@[simp] theorem State.setWelds_xHeld (s : State) (v : Tbl WeldEnd) : (s.setWelds v).xHeld = s.xHeld := (rfl)
@[simp] theorem State.setWelds_routers (s : State) (v : Tbl WeldEnd) : (s.setWelds v).routers = s.routers := (rfl)
@[simp] theorem State.setWelds_portMode (s : State) (v : Tbl WeldEnd) : (s.setWelds v).portMode = s.portMode := (rfl)
@[simp] theorem State.setWelds_portTags (s : State) (v : Tbl WeldEnd) : (s.setWelds v).portTags = s.portTags := (rfl)
@[simp] theorem State.setWelds_portFifo (s : State) (v : Tbl WeldEnd) : (s.setWelds v).portFifo = s.portFifo := (rfl)
@[simp] theorem State.setWelds_dcache (s : State) (v : Tbl WeldEnd) : (s.setWelds v).dcache = s.dcache := (rfl)
@[simp] theorem State.setWelds_dir (s : State) (v : Tbl WeldEnd) : (s.setWelds v).dir = s.dir := (rfl)
@[simp] theorem State.setWelds_dieResets (s : State) (v : Tbl WeldEnd) : (s.setWelds v).dieResets = s.dieResets := (rfl)
@[simp] theorem State.setWelds_homeTxn (s : State) (v : Tbl WeldEnd) : (s.setWelds v).homeTxn = s.homeTxn := (rfl)
@[simp] theorem State.setWelds_cores (s : State) (v : Tbl WeldEnd) : (s.setWelds v).cores = s.cores := (rfl)
@[simp] theorem State.setWelds_tngDone (s : State) (v : Tbl WeldEnd) : (s.setWelds v).tngDone = s.tngDone := (rfl)
@[simp] theorem State.setWelds_fab (s : State) (v : Tbl WeldEnd) : (s.setWelds v).fab = s.fab := (rfl)
@[simp] theorem State.setWelds_net (s : State) (v : Tbl WeldEnd) : (s.setWelds v).net = s.net := (rfl)
@[simp] theorem State.setWelds_rtrShare (s : State) (v : Tbl WeldEnd) : (s.setWelds v).rtrShare = s.rtrShare := (rfl)
@[simp] theorem State.setWelds_dbg (s : State) (v : Tbl WeldEnd) : (s.setWelds v).dbg = s.dbg := (rfl)
@[simp] theorem State.setWelds_dcWait (s : State) (v : Tbl WeldEnd) : (s.setWelds v).dcWait = s.dcWait := (rfl)
@[simp] theorem State.setWelds_prcStep (s : State) (v : Tbl WeldEnd) : (s.setWelds v).prcStep = s.prcStep := (rfl)
@[simp] theorem State.setWelds_prcBlank (s : State) (v : Tbl WeldEnd) : (s.setWelds v).prcBlank = s.prcBlank := (rfl)
@[simp] theorem State.setWelds_prcHold (s : State) (v : Tbl WeldEnd) : (s.setWelds v).prcHold = s.prcHold := (rfl)
@[simp] theorem State.setWelds_capWait (s : State) (v : Tbl WeldEnd) : (s.setWelds v).capWait = s.capWait := (rfl)
@[simp] theorem State.setWelds_capture (s : State) (v : Tbl WeldEnd) : (s.setWelds v).capture = s.capture := (rfl)
@[simp] theorem State.setWelds_bramDef (s : State) (v : Tbl WeldEnd) : (s.setWelds v).bramDef = s.bramDef := (rfl)
@[simp] theorem State.setWelds_scrubs (s : State) (v : Tbl WeldEnd) : (s.setWelds v).scrubs = s.scrubs := (rfl)
@[simp] theorem State.setWelds_scrCopy (s : State) (v : Tbl WeldEnd) : (s.setWelds v).scrCopy = s.scrCopy := (rfl)
@[simp] theorem State.setWelds_releases (s : State) (v : Tbl WeldEnd) : (s.setWelds v).releases = s.releases := (rfl)
@[simp] theorem State.setWelds_dieStep (s : State) (v : Tbl WeldEnd) : (s.setWelds v).dieStep = s.dieStep := (rfl)
@[simp] theorem State.setWelds_clampDef (s : State) (v : Tbl WeldEnd) : (s.setWelds v).clampDef = s.clampDef := (rfl)
@[simp] theorem State.setWelds_clamps (s : State) (v : Tbl WeldEnd) : (s.setWelds v).clamps = s.clamps := (rfl)
@[simp] theorem State.setWelds_welds (s : State) (v : Tbl WeldEnd) : (s.setWelds v).welds = v := (rfl)
@[simp] theorem State.setWelds_lanes (s : State) (v : Tbl WeldEnd) : (s.setWelds v).lanes = s.lanes := (rfl)
@[simp] theorem State.setWelds_macMode (s : State) (v : Tbl WeldEnd) : (s.setWelds v).macMode = s.macMode := (rfl)
@[simp] theorem State.setWelds_tod (s : State) (v : Tbl WeldEnd) : (s.setWelds v).tod = s.tod := (rfl)
@[simp] theorem State.setWelds_lkp (s : State) (v : Tbl WeldEnd) : (s.setWelds v).lkp = s.lkp := (rfl)
@[simp] theorem State.setWelds_queues (s : State) (v : Tbl WeldEnd) : (s.setWelds v).queues = s.queues := (rfl)
@[simp] theorem State.setWelds_ports (s : State) (v : Tbl WeldEnd) : (s.setWelds v).ports = s.ports := (rfl)
@[simp] theorem State.setWelds_pkt (s : State) (v : Tbl WeldEnd) : (s.setWelds v).pkt = s.pkt := (rfl)
@[simp] theorem State.setWelds_cxl (s : State) (v : Tbl WeldEnd) : (s.setWelds v).cxl = s.cxl := (rfl)
@[simp] theorem State.setWelds_ddr (s : State) (v : Tbl WeldEnd) : (s.setWelds v).ddr = s.ddr := (rfl)
@[simp] theorem State.setWelds_regions (s : State) (v : Tbl WeldEnd) : (s.setWelds v).regions = s.regions := (rfl)
@[simp] theorem State.setWelds_prots (s : State) (v : Tbl WeldEnd) : (s.setWelds v).prots = s.prots := (rfl)
@[simp] theorem State.setWelds_keyStore (s : State) (v : Tbl WeldEnd) : (s.setWelds v).keyStore = s.keyStore := (rfl)
@[simp] theorem State.setWelds_rings (s : State) (v : Tbl WeldEnd) : (s.setWelds v).rings = s.rings := (rfl)
@[simp] theorem State.setWelds_openMem (s : State) (v : Tbl WeldEnd) : (s.setWelds v).openMem = s.openMem := (rfl)
@[simp] theorem State.setWelds_dcRights (s : State) (v : Tbl WeldEnd) : (s.setWelds v).dcRights = s.dcRights := (rfl)
@[simp] theorem State.setWelds_clk (s : State) (v : Tbl WeldEnd) : (s.setWelds v).clk = s.clk := (rfl)
@[simp] theorem State.setWelds_units (s : State) (v : Tbl WeldEnd) : (s.setWelds v).units = s.units := (rfl)
@[simp] theorem State.setWelds_hearthHit (s : State) (v : Tbl WeldEnd) : (s.setWelds v).hearthHit = s.hearthHit := (rfl)
@[simp] theorem State.setLanes_pending (s : State) (v : Tbl Lane) : (s.setLanes v).pending = s.pending := (rfl)
@[simp] theorem State.setLanes_regs (s : State) (v : Tbl Lane) : (s.setLanes v).regs = s.regs := (rfl)
@[simp] theorem State.setLanes_mem (s : State) (v : Tbl Lane) : (s.setLanes v).mem = s.mem := (rfl)
@[simp] theorem State.setLanes_poison (s : State) (v : Tbl Lane) : (s.setLanes v).poison = s.poison := (rfl)
@[simp] theorem State.setLanes_fresh (s : State) (v : Tbl Lane) : (s.setLanes v).fresh = s.fresh := (rfl)
@[simp] theorem State.setLanes_answer (s : State) (v : Tbl Lane) : (s.setLanes v).answer = s.answer := (rfl)
@[simp] theorem State.setLanes_answerStatus (s : State) (v : Tbl Lane) : (s.setLanes v).answerStatus = s.answerStatus := (rfl)
@[simp] theorem State.setLanes_book (s : State) (v : Tbl Lane) : (s.setLanes v).book = s.book := (rfl)
@[simp] theorem State.setLanes_mgt (s : State) (v : Tbl Lane) : (s.setLanes v).mgt = s.mgt := (rfl)
@[simp] theorem State.setLanes_fpFifo (s : State) (v : Tbl Lane) : (s.setLanes v).fpFifo = s.fpFifo := (rfl)
@[simp] theorem State.setLanes_evtOnce (s : State) (v : Tbl Lane) : (s.setLanes v).evtOnce = s.evtOnce := (rfl)
@[simp] theorem State.setLanes_cycles (s : State) (v : Tbl Lane) : (s.setLanes v).cycles = s.cycles := (rfl)
@[simp] theorem State.setLanes_pcie (s : State) (v : Tbl Lane) : (s.setLanes v).pcie = s.pcie := (rfl)
@[simp] theorem State.setLanes_sent (s : State) (v : Tbl Lane) : (s.setLanes v).sent = s.sent := (rfl)
@[simp] theorem State.setLanes_bw (s : State) (v : Tbl Lane) : (s.setLanes v).bw = s.bw := (rfl)
@[simp] theorem State.setLanes_pmcLatch (s : State) (v : Tbl Lane) : (s.setLanes v).pmcLatch = s.pmcLatch := (rfl)
@[simp] theorem State.setLanes_cal (s : State) (v : Tbl Lane) : (s.setLanes v).cal = s.cal := (rfl)
@[simp] theorem State.setLanes_cfg (s : State) (v : Tbl Lane) : (s.setLanes v).cfg = s.cfg := (rfl)
@[simp] theorem State.setLanes_tap (s : State) (v : Tbl Lane) : (s.setLanes v).tap = s.tap := (rfl)
@[simp] theorem State.setLanes_pins (s : State) (v : Tbl Lane) : (s.setLanes v).pins = s.pins := (rfl)
@[simp] theorem State.setLanes_frames (s : State) (v : Tbl Lane) : (s.setLanes v).frames = s.frames := (rfl)
@[simp] theorem State.setLanes_clusters (s : State) (v : Tbl Lane) : (s.setLanes v).clusters = s.clusters := (rfl)
@[simp] theorem State.setLanes_ffs (s : State) (v : Tbl Lane) : (s.setLanes v).ffs = s.ffs := (rfl)
@[simp] theorem State.setLanes_relStage (s : State) (v : Tbl Lane) : (s.setLanes v).relStage = s.relStage := (rfl)
@[simp] theorem State.setLanes_frozen (s : State) (v : Tbl Lane) : (s.setLanes v).frozen = s.frozen := (rfl)
@[simp] theorem State.setLanes_bramCfg (s : State) (v : Tbl Lane) : (s.setLanes v).bramCfg = s.bramCfg := (rfl)
@[simp] theorem State.setLanes_bram (s : State) (v : Tbl Lane) : (s.setLanes v).bram = s.bram := (rfl)
@[simp] theorem State.setLanes_bramPorts (s : State) (v : Tbl Lane) : (s.setLanes v).bramPorts = s.bramPorts := (rfl)
@[simp] theorem State.setLanes_multCfg (s : State) (v : Tbl Lane) : (s.setLanes v).multCfg = s.multCfg := (rfl)
@[simp] theorem State.setLanes_mults (s : State) (v : Tbl Lane) : (s.setLanes v).mults = s.mults := (rfl)
@[simp] theorem State.setLanes_railKeep (s : State) (v : Tbl Lane) : (s.setLanes v).railKeep = s.railKeep := (rfl)
@[simp] theorem State.setLanes_chk (s : State) (v : Tbl Lane) : (s.setLanes v).chk = s.chk := (rfl)
@[simp] theorem State.setLanes_eccRaw (s : State) (v : Tbl Lane) : (s.setLanes v).eccRaw = s.eccRaw := (rfl)
@[simp] theorem State.setLanes_eccScrub (s : State) (v : Tbl Lane) : (s.setLanes v).eccScrub = s.eccScrub := (rfl)
@[simp] theorem State.setLanes_tags (s : State) (v : Tbl Lane) : (s.setLanes v).tags = s.tags := (rfl)
@[simp] theorem State.setLanes_xUsed (s : State) (v : Tbl Lane) : (s.setLanes v).xUsed = s.xUsed := (rfl)
@[simp] theorem State.setLanes_xWait (s : State) (v : Tbl Lane) : (s.setLanes v).xWait = s.xWait := (rfl)
@[simp] theorem State.setLanes_xHeld (s : State) (v : Tbl Lane) : (s.setLanes v).xHeld = s.xHeld := (rfl)
@[simp] theorem State.setLanes_routers (s : State) (v : Tbl Lane) : (s.setLanes v).routers = s.routers := (rfl)
@[simp] theorem State.setLanes_portMode (s : State) (v : Tbl Lane) : (s.setLanes v).portMode = s.portMode := (rfl)
@[simp] theorem State.setLanes_portTags (s : State) (v : Tbl Lane) : (s.setLanes v).portTags = s.portTags := (rfl)
@[simp] theorem State.setLanes_portFifo (s : State) (v : Tbl Lane) : (s.setLanes v).portFifo = s.portFifo := (rfl)
@[simp] theorem State.setLanes_dcache (s : State) (v : Tbl Lane) : (s.setLanes v).dcache = s.dcache := (rfl)
@[simp] theorem State.setLanes_dir (s : State) (v : Tbl Lane) : (s.setLanes v).dir = s.dir := (rfl)
@[simp] theorem State.setLanes_dieResets (s : State) (v : Tbl Lane) : (s.setLanes v).dieResets = s.dieResets := (rfl)
@[simp] theorem State.setLanes_homeTxn (s : State) (v : Tbl Lane) : (s.setLanes v).homeTxn = s.homeTxn := (rfl)
@[simp] theorem State.setLanes_cores (s : State) (v : Tbl Lane) : (s.setLanes v).cores = s.cores := (rfl)
@[simp] theorem State.setLanes_tngDone (s : State) (v : Tbl Lane) : (s.setLanes v).tngDone = s.tngDone := (rfl)
@[simp] theorem State.setLanes_fab (s : State) (v : Tbl Lane) : (s.setLanes v).fab = s.fab := (rfl)
@[simp] theorem State.setLanes_net (s : State) (v : Tbl Lane) : (s.setLanes v).net = s.net := (rfl)
@[simp] theorem State.setLanes_rtrShare (s : State) (v : Tbl Lane) : (s.setLanes v).rtrShare = s.rtrShare := (rfl)
@[simp] theorem State.setLanes_dbg (s : State) (v : Tbl Lane) : (s.setLanes v).dbg = s.dbg := (rfl)
@[simp] theorem State.setLanes_dcWait (s : State) (v : Tbl Lane) : (s.setLanes v).dcWait = s.dcWait := (rfl)
@[simp] theorem State.setLanes_prcStep (s : State) (v : Tbl Lane) : (s.setLanes v).prcStep = s.prcStep := (rfl)
@[simp] theorem State.setLanes_prcBlank (s : State) (v : Tbl Lane) : (s.setLanes v).prcBlank = s.prcBlank := (rfl)
@[simp] theorem State.setLanes_prcHold (s : State) (v : Tbl Lane) : (s.setLanes v).prcHold = s.prcHold := (rfl)
@[simp] theorem State.setLanes_capWait (s : State) (v : Tbl Lane) : (s.setLanes v).capWait = s.capWait := (rfl)
@[simp] theorem State.setLanes_capture (s : State) (v : Tbl Lane) : (s.setLanes v).capture = s.capture := (rfl)
@[simp] theorem State.setLanes_bramDef (s : State) (v : Tbl Lane) : (s.setLanes v).bramDef = s.bramDef := (rfl)
@[simp] theorem State.setLanes_scrubs (s : State) (v : Tbl Lane) : (s.setLanes v).scrubs = s.scrubs := (rfl)
@[simp] theorem State.setLanes_scrCopy (s : State) (v : Tbl Lane) : (s.setLanes v).scrCopy = s.scrCopy := (rfl)
@[simp] theorem State.setLanes_releases (s : State) (v : Tbl Lane) : (s.setLanes v).releases = s.releases := (rfl)
@[simp] theorem State.setLanes_dieStep (s : State) (v : Tbl Lane) : (s.setLanes v).dieStep = s.dieStep := (rfl)
@[simp] theorem State.setLanes_clampDef (s : State) (v : Tbl Lane) : (s.setLanes v).clampDef = s.clampDef := (rfl)
@[simp] theorem State.setLanes_clamps (s : State) (v : Tbl Lane) : (s.setLanes v).clamps = s.clamps := (rfl)
@[simp] theorem State.setLanes_welds (s : State) (v : Tbl Lane) : (s.setLanes v).welds = s.welds := (rfl)
@[simp] theorem State.setLanes_lanes (s : State) (v : Tbl Lane) : (s.setLanes v).lanes = v := (rfl)
@[simp] theorem State.setLanes_macMode (s : State) (v : Tbl Lane) : (s.setLanes v).macMode = s.macMode := (rfl)
@[simp] theorem State.setLanes_tod (s : State) (v : Tbl Lane) : (s.setLanes v).tod = s.tod := (rfl)
@[simp] theorem State.setLanes_lkp (s : State) (v : Tbl Lane) : (s.setLanes v).lkp = s.lkp := (rfl)
@[simp] theorem State.setLanes_queues (s : State) (v : Tbl Lane) : (s.setLanes v).queues = s.queues := (rfl)
@[simp] theorem State.setLanes_ports (s : State) (v : Tbl Lane) : (s.setLanes v).ports = s.ports := (rfl)
@[simp] theorem State.setLanes_pkt (s : State) (v : Tbl Lane) : (s.setLanes v).pkt = s.pkt := (rfl)
@[simp] theorem State.setLanes_cxl (s : State) (v : Tbl Lane) : (s.setLanes v).cxl = s.cxl := (rfl)
@[simp] theorem State.setLanes_ddr (s : State) (v : Tbl Lane) : (s.setLanes v).ddr = s.ddr := (rfl)
@[simp] theorem State.setLanes_regions (s : State) (v : Tbl Lane) : (s.setLanes v).regions = s.regions := (rfl)
@[simp] theorem State.setLanes_prots (s : State) (v : Tbl Lane) : (s.setLanes v).prots = s.prots := (rfl)
@[simp] theorem State.setLanes_keyStore (s : State) (v : Tbl Lane) : (s.setLanes v).keyStore = s.keyStore := (rfl)
@[simp] theorem State.setLanes_rings (s : State) (v : Tbl Lane) : (s.setLanes v).rings = s.rings := (rfl)
@[simp] theorem State.setLanes_openMem (s : State) (v : Tbl Lane) : (s.setLanes v).openMem = s.openMem := (rfl)
@[simp] theorem State.setLanes_dcRights (s : State) (v : Tbl Lane) : (s.setLanes v).dcRights = s.dcRights := (rfl)
@[simp] theorem State.setLanes_clk (s : State) (v : Tbl Lane) : (s.setLanes v).clk = s.clk := (rfl)
@[simp] theorem State.setLanes_units (s : State) (v : Tbl Lane) : (s.setLanes v).units = s.units := (rfl)
@[simp] theorem State.setLanes_hearthHit (s : State) (v : Tbl Lane) : (s.setLanes v).hearthHit = s.hearthHit := (rfl)
@[simp] theorem State.setMacMode_pending (s : State) (v : Tbl Nat) : (s.setMacMode v).pending = s.pending := (rfl)
@[simp] theorem State.setMacMode_regs (s : State) (v : Tbl Nat) : (s.setMacMode v).regs = s.regs := (rfl)
@[simp] theorem State.setMacMode_mem (s : State) (v : Tbl Nat) : (s.setMacMode v).mem = s.mem := (rfl)
@[simp] theorem State.setMacMode_poison (s : State) (v : Tbl Nat) : (s.setMacMode v).poison = s.poison := (rfl)
@[simp] theorem State.setMacMode_fresh (s : State) (v : Tbl Nat) : (s.setMacMode v).fresh = s.fresh := (rfl)
@[simp] theorem State.setMacMode_answer (s : State) (v : Tbl Nat) : (s.setMacMode v).answer = s.answer := (rfl)
@[simp] theorem State.setMacMode_answerStatus (s : State) (v : Tbl Nat) : (s.setMacMode v).answerStatus = s.answerStatus := (rfl)
@[simp] theorem State.setMacMode_book (s : State) (v : Tbl Nat) : (s.setMacMode v).book = s.book := (rfl)
@[simp] theorem State.setMacMode_mgt (s : State) (v : Tbl Nat) : (s.setMacMode v).mgt = s.mgt := (rfl)
@[simp] theorem State.setMacMode_fpFifo (s : State) (v : Tbl Nat) : (s.setMacMode v).fpFifo = s.fpFifo := (rfl)
@[simp] theorem State.setMacMode_evtOnce (s : State) (v : Tbl Nat) : (s.setMacMode v).evtOnce = s.evtOnce := (rfl)
@[simp] theorem State.setMacMode_cycles (s : State) (v : Tbl Nat) : (s.setMacMode v).cycles = s.cycles := (rfl)
@[simp] theorem State.setMacMode_pcie (s : State) (v : Tbl Nat) : (s.setMacMode v).pcie = s.pcie := (rfl)
@[simp] theorem State.setMacMode_sent (s : State) (v : Tbl Nat) : (s.setMacMode v).sent = s.sent := (rfl)
@[simp] theorem State.setMacMode_bw (s : State) (v : Tbl Nat) : (s.setMacMode v).bw = s.bw := (rfl)
@[simp] theorem State.setMacMode_pmcLatch (s : State) (v : Tbl Nat) : (s.setMacMode v).pmcLatch = s.pmcLatch := (rfl)
@[simp] theorem State.setMacMode_cal (s : State) (v : Tbl Nat) : (s.setMacMode v).cal = s.cal := (rfl)
@[simp] theorem State.setMacMode_cfg (s : State) (v : Tbl Nat) : (s.setMacMode v).cfg = s.cfg := (rfl)
@[simp] theorem State.setMacMode_tap (s : State) (v : Tbl Nat) : (s.setMacMode v).tap = s.tap := (rfl)
@[simp] theorem State.setMacMode_pins (s : State) (v : Tbl Nat) : (s.setMacMode v).pins = s.pins := (rfl)
@[simp] theorem State.setMacMode_frames (s : State) (v : Tbl Nat) : (s.setMacMode v).frames = s.frames := (rfl)
@[simp] theorem State.setMacMode_clusters (s : State) (v : Tbl Nat) : (s.setMacMode v).clusters = s.clusters := (rfl)
@[simp] theorem State.setMacMode_ffs (s : State) (v : Tbl Nat) : (s.setMacMode v).ffs = s.ffs := (rfl)
@[simp] theorem State.setMacMode_relStage (s : State) (v : Tbl Nat) : (s.setMacMode v).relStage = s.relStage := (rfl)
@[simp] theorem State.setMacMode_frozen (s : State) (v : Tbl Nat) : (s.setMacMode v).frozen = s.frozen := (rfl)
@[simp] theorem State.setMacMode_bramCfg (s : State) (v : Tbl Nat) : (s.setMacMode v).bramCfg = s.bramCfg := (rfl)
@[simp] theorem State.setMacMode_bram (s : State) (v : Tbl Nat) : (s.setMacMode v).bram = s.bram := (rfl)
@[simp] theorem State.setMacMode_bramPorts (s : State) (v : Tbl Nat) : (s.setMacMode v).bramPorts = s.bramPorts := (rfl)
@[simp] theorem State.setMacMode_multCfg (s : State) (v : Tbl Nat) : (s.setMacMode v).multCfg = s.multCfg := (rfl)
@[simp] theorem State.setMacMode_mults (s : State) (v : Tbl Nat) : (s.setMacMode v).mults = s.mults := (rfl)
@[simp] theorem State.setMacMode_railKeep (s : State) (v : Tbl Nat) : (s.setMacMode v).railKeep = s.railKeep := (rfl)
@[simp] theorem State.setMacMode_chk (s : State) (v : Tbl Nat) : (s.setMacMode v).chk = s.chk := (rfl)
@[simp] theorem State.setMacMode_eccRaw (s : State) (v : Tbl Nat) : (s.setMacMode v).eccRaw = s.eccRaw := (rfl)
@[simp] theorem State.setMacMode_eccScrub (s : State) (v : Tbl Nat) : (s.setMacMode v).eccScrub = s.eccScrub := (rfl)
@[simp] theorem State.setMacMode_tags (s : State) (v : Tbl Nat) : (s.setMacMode v).tags = s.tags := (rfl)
@[simp] theorem State.setMacMode_xUsed (s : State) (v : Tbl Nat) : (s.setMacMode v).xUsed = s.xUsed := (rfl)
@[simp] theorem State.setMacMode_xWait (s : State) (v : Tbl Nat) : (s.setMacMode v).xWait = s.xWait := (rfl)
@[simp] theorem State.setMacMode_xHeld (s : State) (v : Tbl Nat) : (s.setMacMode v).xHeld = s.xHeld := (rfl)
@[simp] theorem State.setMacMode_routers (s : State) (v : Tbl Nat) : (s.setMacMode v).routers = s.routers := (rfl)
@[simp] theorem State.setMacMode_portMode (s : State) (v : Tbl Nat) : (s.setMacMode v).portMode = s.portMode := (rfl)
@[simp] theorem State.setMacMode_portTags (s : State) (v : Tbl Nat) : (s.setMacMode v).portTags = s.portTags := (rfl)
@[simp] theorem State.setMacMode_portFifo (s : State) (v : Tbl Nat) : (s.setMacMode v).portFifo = s.portFifo := (rfl)
@[simp] theorem State.setMacMode_dcache (s : State) (v : Tbl Nat) : (s.setMacMode v).dcache = s.dcache := (rfl)
@[simp] theorem State.setMacMode_dir (s : State) (v : Tbl Nat) : (s.setMacMode v).dir = s.dir := (rfl)
@[simp] theorem State.setMacMode_dieResets (s : State) (v : Tbl Nat) : (s.setMacMode v).dieResets = s.dieResets := (rfl)
@[simp] theorem State.setMacMode_homeTxn (s : State) (v : Tbl Nat) : (s.setMacMode v).homeTxn = s.homeTxn := (rfl)
@[simp] theorem State.setMacMode_cores (s : State) (v : Tbl Nat) : (s.setMacMode v).cores = s.cores := (rfl)
@[simp] theorem State.setMacMode_tngDone (s : State) (v : Tbl Nat) : (s.setMacMode v).tngDone = s.tngDone := (rfl)
@[simp] theorem State.setMacMode_fab (s : State) (v : Tbl Nat) : (s.setMacMode v).fab = s.fab := (rfl)
@[simp] theorem State.setMacMode_net (s : State) (v : Tbl Nat) : (s.setMacMode v).net = s.net := (rfl)
@[simp] theorem State.setMacMode_rtrShare (s : State) (v : Tbl Nat) : (s.setMacMode v).rtrShare = s.rtrShare := (rfl)
@[simp] theorem State.setMacMode_dbg (s : State) (v : Tbl Nat) : (s.setMacMode v).dbg = s.dbg := (rfl)
@[simp] theorem State.setMacMode_dcWait (s : State) (v : Tbl Nat) : (s.setMacMode v).dcWait = s.dcWait := (rfl)
@[simp] theorem State.setMacMode_prcStep (s : State) (v : Tbl Nat) : (s.setMacMode v).prcStep = s.prcStep := (rfl)
@[simp] theorem State.setMacMode_prcBlank (s : State) (v : Tbl Nat) : (s.setMacMode v).prcBlank = s.prcBlank := (rfl)
@[simp] theorem State.setMacMode_prcHold (s : State) (v : Tbl Nat) : (s.setMacMode v).prcHold = s.prcHold := (rfl)
@[simp] theorem State.setMacMode_capWait (s : State) (v : Tbl Nat) : (s.setMacMode v).capWait = s.capWait := (rfl)
@[simp] theorem State.setMacMode_capture (s : State) (v : Tbl Nat) : (s.setMacMode v).capture = s.capture := (rfl)
@[simp] theorem State.setMacMode_bramDef (s : State) (v : Tbl Nat) : (s.setMacMode v).bramDef = s.bramDef := (rfl)
@[simp] theorem State.setMacMode_scrubs (s : State) (v : Tbl Nat) : (s.setMacMode v).scrubs = s.scrubs := (rfl)
@[simp] theorem State.setMacMode_scrCopy (s : State) (v : Tbl Nat) : (s.setMacMode v).scrCopy = s.scrCopy := (rfl)
@[simp] theorem State.setMacMode_releases (s : State) (v : Tbl Nat) : (s.setMacMode v).releases = s.releases := (rfl)
@[simp] theorem State.setMacMode_dieStep (s : State) (v : Tbl Nat) : (s.setMacMode v).dieStep = s.dieStep := (rfl)
@[simp] theorem State.setMacMode_clampDef (s : State) (v : Tbl Nat) : (s.setMacMode v).clampDef = s.clampDef := (rfl)
@[simp] theorem State.setMacMode_clamps (s : State) (v : Tbl Nat) : (s.setMacMode v).clamps = s.clamps := (rfl)
@[simp] theorem State.setMacMode_welds (s : State) (v : Tbl Nat) : (s.setMacMode v).welds = s.welds := (rfl)
@[simp] theorem State.setMacMode_lanes (s : State) (v : Tbl Nat) : (s.setMacMode v).lanes = s.lanes := (rfl)
@[simp] theorem State.setMacMode_macMode (s : State) (v : Tbl Nat) : (s.setMacMode v).macMode = v := (rfl)
@[simp] theorem State.setMacMode_tod (s : State) (v : Tbl Nat) : (s.setMacMode v).tod = s.tod := (rfl)
@[simp] theorem State.setMacMode_lkp (s : State) (v : Tbl Nat) : (s.setMacMode v).lkp = s.lkp := (rfl)
@[simp] theorem State.setMacMode_queues (s : State) (v : Tbl Nat) : (s.setMacMode v).queues = s.queues := (rfl)
@[simp] theorem State.setMacMode_ports (s : State) (v : Tbl Nat) : (s.setMacMode v).ports = s.ports := (rfl)
@[simp] theorem State.setMacMode_pkt (s : State) (v : Tbl Nat) : (s.setMacMode v).pkt = s.pkt := (rfl)
@[simp] theorem State.setMacMode_cxl (s : State) (v : Tbl Nat) : (s.setMacMode v).cxl = s.cxl := (rfl)
@[simp] theorem State.setMacMode_ddr (s : State) (v : Tbl Nat) : (s.setMacMode v).ddr = s.ddr := (rfl)
@[simp] theorem State.setMacMode_regions (s : State) (v : Tbl Nat) : (s.setMacMode v).regions = s.regions := (rfl)
@[simp] theorem State.setMacMode_prots (s : State) (v : Tbl Nat) : (s.setMacMode v).prots = s.prots := (rfl)
@[simp] theorem State.setMacMode_keyStore (s : State) (v : Tbl Nat) : (s.setMacMode v).keyStore = s.keyStore := (rfl)
@[simp] theorem State.setMacMode_rings (s : State) (v : Tbl Nat) : (s.setMacMode v).rings = s.rings := (rfl)
@[simp] theorem State.setMacMode_openMem (s : State) (v : Tbl Nat) : (s.setMacMode v).openMem = s.openMem := (rfl)
@[simp] theorem State.setMacMode_dcRights (s : State) (v : Tbl Nat) : (s.setMacMode v).dcRights = s.dcRights := (rfl)
@[simp] theorem State.setMacMode_clk (s : State) (v : Tbl Nat) : (s.setMacMode v).clk = s.clk := (rfl)
@[simp] theorem State.setMacMode_units (s : State) (v : Tbl Nat) : (s.setMacMode v).units = s.units := (rfl)
@[simp] theorem State.setMacMode_hearthHit (s : State) (v : Tbl Nat) : (s.setMacMode v).hearthHit = s.hearthHit := (rfl)
@[simp] theorem State.setTod_pending (s : State) (v : Tod) : (s.setTod v).pending = s.pending := (rfl)
@[simp] theorem State.setTod_regs (s : State) (v : Tod) : (s.setTod v).regs = s.regs := (rfl)
@[simp] theorem State.setTod_mem (s : State) (v : Tod) : (s.setTod v).mem = s.mem := (rfl)
@[simp] theorem State.setTod_poison (s : State) (v : Tod) : (s.setTod v).poison = s.poison := (rfl)
@[simp] theorem State.setTod_fresh (s : State) (v : Tod) : (s.setTod v).fresh = s.fresh := (rfl)
@[simp] theorem State.setTod_answer (s : State) (v : Tod) : (s.setTod v).answer = s.answer := (rfl)
@[simp] theorem State.setTod_answerStatus (s : State) (v : Tod) : (s.setTod v).answerStatus = s.answerStatus := (rfl)
@[simp] theorem State.setTod_book (s : State) (v : Tod) : (s.setTod v).book = s.book := (rfl)
@[simp] theorem State.setTod_mgt (s : State) (v : Tod) : (s.setTod v).mgt = s.mgt := (rfl)
@[simp] theorem State.setTod_fpFifo (s : State) (v : Tod) : (s.setTod v).fpFifo = s.fpFifo := (rfl)
@[simp] theorem State.setTod_evtOnce (s : State) (v : Tod) : (s.setTod v).evtOnce = s.evtOnce := (rfl)
@[simp] theorem State.setTod_cycles (s : State) (v : Tod) : (s.setTod v).cycles = s.cycles := (rfl)
@[simp] theorem State.setTod_pcie (s : State) (v : Tod) : (s.setTod v).pcie = s.pcie := (rfl)
@[simp] theorem State.setTod_sent (s : State) (v : Tod) : (s.setTod v).sent = s.sent := (rfl)
@[simp] theorem State.setTod_bw (s : State) (v : Tod) : (s.setTod v).bw = s.bw := (rfl)
@[simp] theorem State.setTod_pmcLatch (s : State) (v : Tod) : (s.setTod v).pmcLatch = s.pmcLatch := (rfl)
@[simp] theorem State.setTod_cal (s : State) (v : Tod) : (s.setTod v).cal = s.cal := (rfl)
@[simp] theorem State.setTod_cfg (s : State) (v : Tod) : (s.setTod v).cfg = s.cfg := (rfl)
@[simp] theorem State.setTod_tap (s : State) (v : Tod) : (s.setTod v).tap = s.tap := (rfl)
@[simp] theorem State.setTod_pins (s : State) (v : Tod) : (s.setTod v).pins = s.pins := (rfl)
@[simp] theorem State.setTod_frames (s : State) (v : Tod) : (s.setTod v).frames = s.frames := (rfl)
@[simp] theorem State.setTod_clusters (s : State) (v : Tod) : (s.setTod v).clusters = s.clusters := (rfl)
@[simp] theorem State.setTod_ffs (s : State) (v : Tod) : (s.setTod v).ffs = s.ffs := (rfl)
@[simp] theorem State.setTod_relStage (s : State) (v : Tod) : (s.setTod v).relStage = s.relStage := (rfl)
@[simp] theorem State.setTod_frozen (s : State) (v : Tod) : (s.setTod v).frozen = s.frozen := (rfl)
@[simp] theorem State.setTod_bramCfg (s : State) (v : Tod) : (s.setTod v).bramCfg = s.bramCfg := (rfl)
@[simp] theorem State.setTod_bram (s : State) (v : Tod) : (s.setTod v).bram = s.bram := (rfl)
@[simp] theorem State.setTod_bramPorts (s : State) (v : Tod) : (s.setTod v).bramPorts = s.bramPorts := (rfl)
@[simp] theorem State.setTod_multCfg (s : State) (v : Tod) : (s.setTod v).multCfg = s.multCfg := (rfl)
@[simp] theorem State.setTod_mults (s : State) (v : Tod) : (s.setTod v).mults = s.mults := (rfl)
@[simp] theorem State.setTod_railKeep (s : State) (v : Tod) : (s.setTod v).railKeep = s.railKeep := (rfl)
@[simp] theorem State.setTod_chk (s : State) (v : Tod) : (s.setTod v).chk = s.chk := (rfl)
@[simp] theorem State.setTod_eccRaw (s : State) (v : Tod) : (s.setTod v).eccRaw = s.eccRaw := (rfl)
@[simp] theorem State.setTod_eccScrub (s : State) (v : Tod) : (s.setTod v).eccScrub = s.eccScrub := (rfl)
@[simp] theorem State.setTod_tags (s : State) (v : Tod) : (s.setTod v).tags = s.tags := (rfl)
@[simp] theorem State.setTod_xUsed (s : State) (v : Tod) : (s.setTod v).xUsed = s.xUsed := (rfl)
@[simp] theorem State.setTod_xWait (s : State) (v : Tod) : (s.setTod v).xWait = s.xWait := (rfl)
@[simp] theorem State.setTod_xHeld (s : State) (v : Tod) : (s.setTod v).xHeld = s.xHeld := (rfl)
@[simp] theorem State.setTod_routers (s : State) (v : Tod) : (s.setTod v).routers = s.routers := (rfl)
@[simp] theorem State.setTod_portMode (s : State) (v : Tod) : (s.setTod v).portMode = s.portMode := (rfl)
@[simp] theorem State.setTod_portTags (s : State) (v : Tod) : (s.setTod v).portTags = s.portTags := (rfl)
@[simp] theorem State.setTod_portFifo (s : State) (v : Tod) : (s.setTod v).portFifo = s.portFifo := (rfl)
@[simp] theorem State.setTod_dcache (s : State) (v : Tod) : (s.setTod v).dcache = s.dcache := (rfl)
@[simp] theorem State.setTod_dir (s : State) (v : Tod) : (s.setTod v).dir = s.dir := (rfl)
@[simp] theorem State.setTod_dieResets (s : State) (v : Tod) : (s.setTod v).dieResets = s.dieResets := (rfl)
@[simp] theorem State.setTod_homeTxn (s : State) (v : Tod) : (s.setTod v).homeTxn = s.homeTxn := (rfl)
@[simp] theorem State.setTod_cores (s : State) (v : Tod) : (s.setTod v).cores = s.cores := (rfl)
@[simp] theorem State.setTod_tngDone (s : State) (v : Tod) : (s.setTod v).tngDone = s.tngDone := (rfl)
@[simp] theorem State.setTod_fab (s : State) (v : Tod) : (s.setTod v).fab = s.fab := (rfl)
@[simp] theorem State.setTod_net (s : State) (v : Tod) : (s.setTod v).net = s.net := (rfl)
@[simp] theorem State.setTod_rtrShare (s : State) (v : Tod) : (s.setTod v).rtrShare = s.rtrShare := (rfl)
@[simp] theorem State.setTod_dbg (s : State) (v : Tod) : (s.setTod v).dbg = s.dbg := (rfl)
@[simp] theorem State.setTod_dcWait (s : State) (v : Tod) : (s.setTod v).dcWait = s.dcWait := (rfl)
@[simp] theorem State.setTod_prcStep (s : State) (v : Tod) : (s.setTod v).prcStep = s.prcStep := (rfl)
@[simp] theorem State.setTod_prcBlank (s : State) (v : Tod) : (s.setTod v).prcBlank = s.prcBlank := (rfl)
@[simp] theorem State.setTod_prcHold (s : State) (v : Tod) : (s.setTod v).prcHold = s.prcHold := (rfl)
@[simp] theorem State.setTod_capWait (s : State) (v : Tod) : (s.setTod v).capWait = s.capWait := (rfl)
@[simp] theorem State.setTod_capture (s : State) (v : Tod) : (s.setTod v).capture = s.capture := (rfl)
@[simp] theorem State.setTod_bramDef (s : State) (v : Tod) : (s.setTod v).bramDef = s.bramDef := (rfl)
@[simp] theorem State.setTod_scrubs (s : State) (v : Tod) : (s.setTod v).scrubs = s.scrubs := (rfl)
@[simp] theorem State.setTod_scrCopy (s : State) (v : Tod) : (s.setTod v).scrCopy = s.scrCopy := (rfl)
@[simp] theorem State.setTod_releases (s : State) (v : Tod) : (s.setTod v).releases = s.releases := (rfl)
@[simp] theorem State.setTod_dieStep (s : State) (v : Tod) : (s.setTod v).dieStep = s.dieStep := (rfl)
@[simp] theorem State.setTod_clampDef (s : State) (v : Tod) : (s.setTod v).clampDef = s.clampDef := (rfl)
@[simp] theorem State.setTod_clamps (s : State) (v : Tod) : (s.setTod v).clamps = s.clamps := (rfl)
@[simp] theorem State.setTod_welds (s : State) (v : Tod) : (s.setTod v).welds = s.welds := (rfl)
@[simp] theorem State.setTod_lanes (s : State) (v : Tod) : (s.setTod v).lanes = s.lanes := (rfl)
@[simp] theorem State.setTod_macMode (s : State) (v : Tod) : (s.setTod v).macMode = s.macMode := (rfl)
@[simp] theorem State.setTod_tod (s : State) (v : Tod) : (s.setTod v).tod = v := (rfl)
@[simp] theorem State.setTod_lkp (s : State) (v : Tod) : (s.setTod v).lkp = s.lkp := (rfl)
@[simp] theorem State.setTod_queues (s : State) (v : Tod) : (s.setTod v).queues = s.queues := (rfl)
@[simp] theorem State.setTod_ports (s : State) (v : Tod) : (s.setTod v).ports = s.ports := (rfl)
@[simp] theorem State.setTod_pkt (s : State) (v : Tod) : (s.setTod v).pkt = s.pkt := (rfl)
@[simp] theorem State.setTod_cxl (s : State) (v : Tod) : (s.setTod v).cxl = s.cxl := (rfl)
@[simp] theorem State.setTod_ddr (s : State) (v : Tod) : (s.setTod v).ddr = s.ddr := (rfl)
@[simp] theorem State.setTod_regions (s : State) (v : Tod) : (s.setTod v).regions = s.regions := (rfl)
@[simp] theorem State.setTod_prots (s : State) (v : Tod) : (s.setTod v).prots = s.prots := (rfl)
@[simp] theorem State.setTod_keyStore (s : State) (v : Tod) : (s.setTod v).keyStore = s.keyStore := (rfl)
@[simp] theorem State.setTod_rings (s : State) (v : Tod) : (s.setTod v).rings = s.rings := (rfl)
@[simp] theorem State.setTod_openMem (s : State) (v : Tod) : (s.setTod v).openMem = s.openMem := (rfl)
@[simp] theorem State.setTod_dcRights (s : State) (v : Tod) : (s.setTod v).dcRights = s.dcRights := (rfl)
@[simp] theorem State.setTod_clk (s : State) (v : Tod) : (s.setTod v).clk = s.clk := (rfl)
@[simp] theorem State.setTod_units (s : State) (v : Tod) : (s.setTod v).units = s.units := (rfl)
@[simp] theorem State.setTod_hearthHit (s : State) (v : Tod) : (s.setTod v).hearthHit = s.hearthHit := (rfl)
@[simp] theorem State.setLkp_pending (s : State) (v : Tbl LkpEntry) : (s.setLkp v).pending = s.pending := (rfl)
@[simp] theorem State.setLkp_regs (s : State) (v : Tbl LkpEntry) : (s.setLkp v).regs = s.regs := (rfl)
@[simp] theorem State.setLkp_mem (s : State) (v : Tbl LkpEntry) : (s.setLkp v).mem = s.mem := (rfl)
@[simp] theorem State.setLkp_poison (s : State) (v : Tbl LkpEntry) : (s.setLkp v).poison = s.poison := (rfl)
@[simp] theorem State.setLkp_fresh (s : State) (v : Tbl LkpEntry) : (s.setLkp v).fresh = s.fresh := (rfl)
@[simp] theorem State.setLkp_answer (s : State) (v : Tbl LkpEntry) : (s.setLkp v).answer = s.answer := (rfl)
@[simp] theorem State.setLkp_answerStatus (s : State) (v : Tbl LkpEntry) : (s.setLkp v).answerStatus = s.answerStatus := (rfl)
@[simp] theorem State.setLkp_book (s : State) (v : Tbl LkpEntry) : (s.setLkp v).book = s.book := (rfl)
@[simp] theorem State.setLkp_mgt (s : State) (v : Tbl LkpEntry) : (s.setLkp v).mgt = s.mgt := (rfl)
@[simp] theorem State.setLkp_fpFifo (s : State) (v : Tbl LkpEntry) : (s.setLkp v).fpFifo = s.fpFifo := (rfl)
@[simp] theorem State.setLkp_evtOnce (s : State) (v : Tbl LkpEntry) : (s.setLkp v).evtOnce = s.evtOnce := (rfl)
@[simp] theorem State.setLkp_cycles (s : State) (v : Tbl LkpEntry) : (s.setLkp v).cycles = s.cycles := (rfl)
@[simp] theorem State.setLkp_pcie (s : State) (v : Tbl LkpEntry) : (s.setLkp v).pcie = s.pcie := (rfl)
@[simp] theorem State.setLkp_sent (s : State) (v : Tbl LkpEntry) : (s.setLkp v).sent = s.sent := (rfl)
@[simp] theorem State.setLkp_bw (s : State) (v : Tbl LkpEntry) : (s.setLkp v).bw = s.bw := (rfl)
@[simp] theorem State.setLkp_pmcLatch (s : State) (v : Tbl LkpEntry) : (s.setLkp v).pmcLatch = s.pmcLatch := (rfl)
@[simp] theorem State.setLkp_cal (s : State) (v : Tbl LkpEntry) : (s.setLkp v).cal = s.cal := (rfl)
@[simp] theorem State.setLkp_cfg (s : State) (v : Tbl LkpEntry) : (s.setLkp v).cfg = s.cfg := (rfl)
@[simp] theorem State.setLkp_tap (s : State) (v : Tbl LkpEntry) : (s.setLkp v).tap = s.tap := (rfl)
@[simp] theorem State.setLkp_pins (s : State) (v : Tbl LkpEntry) : (s.setLkp v).pins = s.pins := (rfl)
@[simp] theorem State.setLkp_frames (s : State) (v : Tbl LkpEntry) : (s.setLkp v).frames = s.frames := (rfl)
@[simp] theorem State.setLkp_clusters (s : State) (v : Tbl LkpEntry) : (s.setLkp v).clusters = s.clusters := (rfl)
@[simp] theorem State.setLkp_ffs (s : State) (v : Tbl LkpEntry) : (s.setLkp v).ffs = s.ffs := (rfl)
@[simp] theorem State.setLkp_relStage (s : State) (v : Tbl LkpEntry) : (s.setLkp v).relStage = s.relStage := (rfl)
@[simp] theorem State.setLkp_frozen (s : State) (v : Tbl LkpEntry) : (s.setLkp v).frozen = s.frozen := (rfl)
@[simp] theorem State.setLkp_bramCfg (s : State) (v : Tbl LkpEntry) : (s.setLkp v).bramCfg = s.bramCfg := (rfl)
@[simp] theorem State.setLkp_bram (s : State) (v : Tbl LkpEntry) : (s.setLkp v).bram = s.bram := (rfl)
@[simp] theorem State.setLkp_bramPorts (s : State) (v : Tbl LkpEntry) : (s.setLkp v).bramPorts = s.bramPorts := (rfl)
@[simp] theorem State.setLkp_multCfg (s : State) (v : Tbl LkpEntry) : (s.setLkp v).multCfg = s.multCfg := (rfl)
@[simp] theorem State.setLkp_mults (s : State) (v : Tbl LkpEntry) : (s.setLkp v).mults = s.mults := (rfl)
@[simp] theorem State.setLkp_railKeep (s : State) (v : Tbl LkpEntry) : (s.setLkp v).railKeep = s.railKeep := (rfl)
@[simp] theorem State.setLkp_chk (s : State) (v : Tbl LkpEntry) : (s.setLkp v).chk = s.chk := (rfl)
@[simp] theorem State.setLkp_eccRaw (s : State) (v : Tbl LkpEntry) : (s.setLkp v).eccRaw = s.eccRaw := (rfl)
@[simp] theorem State.setLkp_eccScrub (s : State) (v : Tbl LkpEntry) : (s.setLkp v).eccScrub = s.eccScrub := (rfl)
@[simp] theorem State.setLkp_tags (s : State) (v : Tbl LkpEntry) : (s.setLkp v).tags = s.tags := (rfl)
@[simp] theorem State.setLkp_xUsed (s : State) (v : Tbl LkpEntry) : (s.setLkp v).xUsed = s.xUsed := (rfl)
@[simp] theorem State.setLkp_xWait (s : State) (v : Tbl LkpEntry) : (s.setLkp v).xWait = s.xWait := (rfl)
@[simp] theorem State.setLkp_xHeld (s : State) (v : Tbl LkpEntry) : (s.setLkp v).xHeld = s.xHeld := (rfl)
@[simp] theorem State.setLkp_routers (s : State) (v : Tbl LkpEntry) : (s.setLkp v).routers = s.routers := (rfl)
@[simp] theorem State.setLkp_portMode (s : State) (v : Tbl LkpEntry) : (s.setLkp v).portMode = s.portMode := (rfl)
@[simp] theorem State.setLkp_portTags (s : State) (v : Tbl LkpEntry) : (s.setLkp v).portTags = s.portTags := (rfl)
@[simp] theorem State.setLkp_portFifo (s : State) (v : Tbl LkpEntry) : (s.setLkp v).portFifo = s.portFifo := (rfl)
@[simp] theorem State.setLkp_dcache (s : State) (v : Tbl LkpEntry) : (s.setLkp v).dcache = s.dcache := (rfl)
@[simp] theorem State.setLkp_dir (s : State) (v : Tbl LkpEntry) : (s.setLkp v).dir = s.dir := (rfl)
@[simp] theorem State.setLkp_dieResets (s : State) (v : Tbl LkpEntry) : (s.setLkp v).dieResets = s.dieResets := (rfl)
@[simp] theorem State.setLkp_homeTxn (s : State) (v : Tbl LkpEntry) : (s.setLkp v).homeTxn = s.homeTxn := (rfl)
@[simp] theorem State.setLkp_cores (s : State) (v : Tbl LkpEntry) : (s.setLkp v).cores = s.cores := (rfl)
@[simp] theorem State.setLkp_tngDone (s : State) (v : Tbl LkpEntry) : (s.setLkp v).tngDone = s.tngDone := (rfl)
@[simp] theorem State.setLkp_fab (s : State) (v : Tbl LkpEntry) : (s.setLkp v).fab = s.fab := (rfl)
@[simp] theorem State.setLkp_net (s : State) (v : Tbl LkpEntry) : (s.setLkp v).net = s.net := (rfl)
@[simp] theorem State.setLkp_rtrShare (s : State) (v : Tbl LkpEntry) : (s.setLkp v).rtrShare = s.rtrShare := (rfl)
@[simp] theorem State.setLkp_dbg (s : State) (v : Tbl LkpEntry) : (s.setLkp v).dbg = s.dbg := (rfl)
@[simp] theorem State.setLkp_dcWait (s : State) (v : Tbl LkpEntry) : (s.setLkp v).dcWait = s.dcWait := (rfl)
@[simp] theorem State.setLkp_prcStep (s : State) (v : Tbl LkpEntry) : (s.setLkp v).prcStep = s.prcStep := (rfl)
@[simp] theorem State.setLkp_prcBlank (s : State) (v : Tbl LkpEntry) : (s.setLkp v).prcBlank = s.prcBlank := (rfl)
@[simp] theorem State.setLkp_prcHold (s : State) (v : Tbl LkpEntry) : (s.setLkp v).prcHold = s.prcHold := (rfl)
@[simp] theorem State.setLkp_capWait (s : State) (v : Tbl LkpEntry) : (s.setLkp v).capWait = s.capWait := (rfl)
@[simp] theorem State.setLkp_capture (s : State) (v : Tbl LkpEntry) : (s.setLkp v).capture = s.capture := (rfl)
@[simp] theorem State.setLkp_bramDef (s : State) (v : Tbl LkpEntry) : (s.setLkp v).bramDef = s.bramDef := (rfl)
@[simp] theorem State.setLkp_scrubs (s : State) (v : Tbl LkpEntry) : (s.setLkp v).scrubs = s.scrubs := (rfl)
@[simp] theorem State.setLkp_scrCopy (s : State) (v : Tbl LkpEntry) : (s.setLkp v).scrCopy = s.scrCopy := (rfl)
@[simp] theorem State.setLkp_releases (s : State) (v : Tbl LkpEntry) : (s.setLkp v).releases = s.releases := (rfl)
@[simp] theorem State.setLkp_dieStep (s : State) (v : Tbl LkpEntry) : (s.setLkp v).dieStep = s.dieStep := (rfl)
@[simp] theorem State.setLkp_clampDef (s : State) (v : Tbl LkpEntry) : (s.setLkp v).clampDef = s.clampDef := (rfl)
@[simp] theorem State.setLkp_clamps (s : State) (v : Tbl LkpEntry) : (s.setLkp v).clamps = s.clamps := (rfl)
@[simp] theorem State.setLkp_welds (s : State) (v : Tbl LkpEntry) : (s.setLkp v).welds = s.welds := (rfl)
@[simp] theorem State.setLkp_lanes (s : State) (v : Tbl LkpEntry) : (s.setLkp v).lanes = s.lanes := (rfl)
@[simp] theorem State.setLkp_macMode (s : State) (v : Tbl LkpEntry) : (s.setLkp v).macMode = s.macMode := (rfl)
@[simp] theorem State.setLkp_tod (s : State) (v : Tbl LkpEntry) : (s.setLkp v).tod = s.tod := (rfl)
@[simp] theorem State.setLkp_lkp (s : State) (v : Tbl LkpEntry) : (s.setLkp v).lkp = v := (rfl)
@[simp] theorem State.setLkp_queues (s : State) (v : Tbl LkpEntry) : (s.setLkp v).queues = s.queues := (rfl)
@[simp] theorem State.setLkp_ports (s : State) (v : Tbl LkpEntry) : (s.setLkp v).ports = s.ports := (rfl)
@[simp] theorem State.setLkp_pkt (s : State) (v : Tbl LkpEntry) : (s.setLkp v).pkt = s.pkt := (rfl)
@[simp] theorem State.setLkp_cxl (s : State) (v : Tbl LkpEntry) : (s.setLkp v).cxl = s.cxl := (rfl)
@[simp] theorem State.setLkp_ddr (s : State) (v : Tbl LkpEntry) : (s.setLkp v).ddr = s.ddr := (rfl)
@[simp] theorem State.setLkp_regions (s : State) (v : Tbl LkpEntry) : (s.setLkp v).regions = s.regions := (rfl)
@[simp] theorem State.setLkp_prots (s : State) (v : Tbl LkpEntry) : (s.setLkp v).prots = s.prots := (rfl)
@[simp] theorem State.setLkp_keyStore (s : State) (v : Tbl LkpEntry) : (s.setLkp v).keyStore = s.keyStore := (rfl)
@[simp] theorem State.setLkp_rings (s : State) (v : Tbl LkpEntry) : (s.setLkp v).rings = s.rings := (rfl)
@[simp] theorem State.setLkp_openMem (s : State) (v : Tbl LkpEntry) : (s.setLkp v).openMem = s.openMem := (rfl)
@[simp] theorem State.setLkp_dcRights (s : State) (v : Tbl LkpEntry) : (s.setLkp v).dcRights = s.dcRights := (rfl)
@[simp] theorem State.setLkp_clk (s : State) (v : Tbl LkpEntry) : (s.setLkp v).clk = s.clk := (rfl)
@[simp] theorem State.setLkp_units (s : State) (v : Tbl LkpEntry) : (s.setLkp v).units = s.units := (rfl)
@[simp] theorem State.setLkp_hearthHit (s : State) (v : Tbl LkpEntry) : (s.setLkp v).hearthHit = s.hearthHit := (rfl)
@[simp] theorem State.setQueues_pending (s : State) (v : Tbl PktQueue) : (s.setQueues v).pending = s.pending := (rfl)
@[simp] theorem State.setQueues_regs (s : State) (v : Tbl PktQueue) : (s.setQueues v).regs = s.regs := (rfl)
@[simp] theorem State.setQueues_mem (s : State) (v : Tbl PktQueue) : (s.setQueues v).mem = s.mem := (rfl)
@[simp] theorem State.setQueues_poison (s : State) (v : Tbl PktQueue) : (s.setQueues v).poison = s.poison := (rfl)
@[simp] theorem State.setQueues_fresh (s : State) (v : Tbl PktQueue) : (s.setQueues v).fresh = s.fresh := (rfl)
@[simp] theorem State.setQueues_answer (s : State) (v : Tbl PktQueue) : (s.setQueues v).answer = s.answer := (rfl)
@[simp] theorem State.setQueues_answerStatus (s : State) (v : Tbl PktQueue) : (s.setQueues v).answerStatus = s.answerStatus := (rfl)
@[simp] theorem State.setQueues_book (s : State) (v : Tbl PktQueue) : (s.setQueues v).book = s.book := (rfl)
@[simp] theorem State.setQueues_mgt (s : State) (v : Tbl PktQueue) : (s.setQueues v).mgt = s.mgt := (rfl)
@[simp] theorem State.setQueues_fpFifo (s : State) (v : Tbl PktQueue) : (s.setQueues v).fpFifo = s.fpFifo := (rfl)
@[simp] theorem State.setQueues_evtOnce (s : State) (v : Tbl PktQueue) : (s.setQueues v).evtOnce = s.evtOnce := (rfl)
@[simp] theorem State.setQueues_cycles (s : State) (v : Tbl PktQueue) : (s.setQueues v).cycles = s.cycles := (rfl)
@[simp] theorem State.setQueues_pcie (s : State) (v : Tbl PktQueue) : (s.setQueues v).pcie = s.pcie := (rfl)
@[simp] theorem State.setQueues_sent (s : State) (v : Tbl PktQueue) : (s.setQueues v).sent = s.sent := (rfl)
@[simp] theorem State.setQueues_bw (s : State) (v : Tbl PktQueue) : (s.setQueues v).bw = s.bw := (rfl)
@[simp] theorem State.setQueues_pmcLatch (s : State) (v : Tbl PktQueue) : (s.setQueues v).pmcLatch = s.pmcLatch := (rfl)
@[simp] theorem State.setQueues_cal (s : State) (v : Tbl PktQueue) : (s.setQueues v).cal = s.cal := (rfl)
@[simp] theorem State.setQueues_cfg (s : State) (v : Tbl PktQueue) : (s.setQueues v).cfg = s.cfg := (rfl)
@[simp] theorem State.setQueues_tap (s : State) (v : Tbl PktQueue) : (s.setQueues v).tap = s.tap := (rfl)
@[simp] theorem State.setQueues_pins (s : State) (v : Tbl PktQueue) : (s.setQueues v).pins = s.pins := (rfl)
@[simp] theorem State.setQueues_frames (s : State) (v : Tbl PktQueue) : (s.setQueues v).frames = s.frames := (rfl)
@[simp] theorem State.setQueues_clusters (s : State) (v : Tbl PktQueue) : (s.setQueues v).clusters = s.clusters := (rfl)
@[simp] theorem State.setQueues_ffs (s : State) (v : Tbl PktQueue) : (s.setQueues v).ffs = s.ffs := (rfl)
@[simp] theorem State.setQueues_relStage (s : State) (v : Tbl PktQueue) : (s.setQueues v).relStage = s.relStage := (rfl)
@[simp] theorem State.setQueues_frozen (s : State) (v : Tbl PktQueue) : (s.setQueues v).frozen = s.frozen := (rfl)
@[simp] theorem State.setQueues_bramCfg (s : State) (v : Tbl PktQueue) : (s.setQueues v).bramCfg = s.bramCfg := (rfl)
@[simp] theorem State.setQueues_bram (s : State) (v : Tbl PktQueue) : (s.setQueues v).bram = s.bram := (rfl)
@[simp] theorem State.setQueues_bramPorts (s : State) (v : Tbl PktQueue) : (s.setQueues v).bramPorts = s.bramPorts := (rfl)
@[simp] theorem State.setQueues_multCfg (s : State) (v : Tbl PktQueue) : (s.setQueues v).multCfg = s.multCfg := (rfl)
@[simp] theorem State.setQueues_mults (s : State) (v : Tbl PktQueue) : (s.setQueues v).mults = s.mults := (rfl)
@[simp] theorem State.setQueues_railKeep (s : State) (v : Tbl PktQueue) : (s.setQueues v).railKeep = s.railKeep := (rfl)
@[simp] theorem State.setQueues_chk (s : State) (v : Tbl PktQueue) : (s.setQueues v).chk = s.chk := (rfl)
@[simp] theorem State.setQueues_eccRaw (s : State) (v : Tbl PktQueue) : (s.setQueues v).eccRaw = s.eccRaw := (rfl)
@[simp] theorem State.setQueues_eccScrub (s : State) (v : Tbl PktQueue) : (s.setQueues v).eccScrub = s.eccScrub := (rfl)
@[simp] theorem State.setQueues_tags (s : State) (v : Tbl PktQueue) : (s.setQueues v).tags = s.tags := (rfl)
@[simp] theorem State.setQueues_xUsed (s : State) (v : Tbl PktQueue) : (s.setQueues v).xUsed = s.xUsed := (rfl)
@[simp] theorem State.setQueues_xWait (s : State) (v : Tbl PktQueue) : (s.setQueues v).xWait = s.xWait := (rfl)
@[simp] theorem State.setQueues_xHeld (s : State) (v : Tbl PktQueue) : (s.setQueues v).xHeld = s.xHeld := (rfl)
@[simp] theorem State.setQueues_routers (s : State) (v : Tbl PktQueue) : (s.setQueues v).routers = s.routers := (rfl)
@[simp] theorem State.setQueues_portMode (s : State) (v : Tbl PktQueue) : (s.setQueues v).portMode = s.portMode := (rfl)
@[simp] theorem State.setQueues_portTags (s : State) (v : Tbl PktQueue) : (s.setQueues v).portTags = s.portTags := (rfl)
@[simp] theorem State.setQueues_portFifo (s : State) (v : Tbl PktQueue) : (s.setQueues v).portFifo = s.portFifo := (rfl)
@[simp] theorem State.setQueues_dcache (s : State) (v : Tbl PktQueue) : (s.setQueues v).dcache = s.dcache := (rfl)
@[simp] theorem State.setQueues_dir (s : State) (v : Tbl PktQueue) : (s.setQueues v).dir = s.dir := (rfl)
@[simp] theorem State.setQueues_dieResets (s : State) (v : Tbl PktQueue) : (s.setQueues v).dieResets = s.dieResets := (rfl)
@[simp] theorem State.setQueues_homeTxn (s : State) (v : Tbl PktQueue) : (s.setQueues v).homeTxn = s.homeTxn := (rfl)
@[simp] theorem State.setQueues_cores (s : State) (v : Tbl PktQueue) : (s.setQueues v).cores = s.cores := (rfl)
@[simp] theorem State.setQueues_tngDone (s : State) (v : Tbl PktQueue) : (s.setQueues v).tngDone = s.tngDone := (rfl)
@[simp] theorem State.setQueues_fab (s : State) (v : Tbl PktQueue) : (s.setQueues v).fab = s.fab := (rfl)
@[simp] theorem State.setQueues_net (s : State) (v : Tbl PktQueue) : (s.setQueues v).net = s.net := (rfl)
@[simp] theorem State.setQueues_rtrShare (s : State) (v : Tbl PktQueue) : (s.setQueues v).rtrShare = s.rtrShare := (rfl)
@[simp] theorem State.setQueues_dbg (s : State) (v : Tbl PktQueue) : (s.setQueues v).dbg = s.dbg := (rfl)
@[simp] theorem State.setQueues_dcWait (s : State) (v : Tbl PktQueue) : (s.setQueues v).dcWait = s.dcWait := (rfl)
@[simp] theorem State.setQueues_prcStep (s : State) (v : Tbl PktQueue) : (s.setQueues v).prcStep = s.prcStep := (rfl)
@[simp] theorem State.setQueues_prcBlank (s : State) (v : Tbl PktQueue) : (s.setQueues v).prcBlank = s.prcBlank := (rfl)
@[simp] theorem State.setQueues_prcHold (s : State) (v : Tbl PktQueue) : (s.setQueues v).prcHold = s.prcHold := (rfl)
@[simp] theorem State.setQueues_capWait (s : State) (v : Tbl PktQueue) : (s.setQueues v).capWait = s.capWait := (rfl)
@[simp] theorem State.setQueues_capture (s : State) (v : Tbl PktQueue) : (s.setQueues v).capture = s.capture := (rfl)
@[simp] theorem State.setQueues_bramDef (s : State) (v : Tbl PktQueue) : (s.setQueues v).bramDef = s.bramDef := (rfl)
@[simp] theorem State.setQueues_scrubs (s : State) (v : Tbl PktQueue) : (s.setQueues v).scrubs = s.scrubs := (rfl)
@[simp] theorem State.setQueues_scrCopy (s : State) (v : Tbl PktQueue) : (s.setQueues v).scrCopy = s.scrCopy := (rfl)
@[simp] theorem State.setQueues_releases (s : State) (v : Tbl PktQueue) : (s.setQueues v).releases = s.releases := (rfl)
@[simp] theorem State.setQueues_dieStep (s : State) (v : Tbl PktQueue) : (s.setQueues v).dieStep = s.dieStep := (rfl)
@[simp] theorem State.setQueues_clampDef (s : State) (v : Tbl PktQueue) : (s.setQueues v).clampDef = s.clampDef := (rfl)
@[simp] theorem State.setQueues_clamps (s : State) (v : Tbl PktQueue) : (s.setQueues v).clamps = s.clamps := (rfl)
@[simp] theorem State.setQueues_welds (s : State) (v : Tbl PktQueue) : (s.setQueues v).welds = s.welds := (rfl)
@[simp] theorem State.setQueues_lanes (s : State) (v : Tbl PktQueue) : (s.setQueues v).lanes = s.lanes := (rfl)
@[simp] theorem State.setQueues_macMode (s : State) (v : Tbl PktQueue) : (s.setQueues v).macMode = s.macMode := (rfl)
@[simp] theorem State.setQueues_tod (s : State) (v : Tbl PktQueue) : (s.setQueues v).tod = s.tod := (rfl)
@[simp] theorem State.setQueues_lkp (s : State) (v : Tbl PktQueue) : (s.setQueues v).lkp = s.lkp := (rfl)
@[simp] theorem State.setQueues_queues (s : State) (v : Tbl PktQueue) : (s.setQueues v).queues = v := (rfl)
@[simp] theorem State.setQueues_ports (s : State) (v : Tbl PktQueue) : (s.setQueues v).ports = s.ports := (rfl)
@[simp] theorem State.setQueues_pkt (s : State) (v : Tbl PktQueue) : (s.setQueues v).pkt = s.pkt := (rfl)
@[simp] theorem State.setQueues_cxl (s : State) (v : Tbl PktQueue) : (s.setQueues v).cxl = s.cxl := (rfl)
@[simp] theorem State.setQueues_ddr (s : State) (v : Tbl PktQueue) : (s.setQueues v).ddr = s.ddr := (rfl)
@[simp] theorem State.setQueues_regions (s : State) (v : Tbl PktQueue) : (s.setQueues v).regions = s.regions := (rfl)
@[simp] theorem State.setQueues_prots (s : State) (v : Tbl PktQueue) : (s.setQueues v).prots = s.prots := (rfl)
@[simp] theorem State.setQueues_keyStore (s : State) (v : Tbl PktQueue) : (s.setQueues v).keyStore = s.keyStore := (rfl)
@[simp] theorem State.setQueues_rings (s : State) (v : Tbl PktQueue) : (s.setQueues v).rings = s.rings := (rfl)
@[simp] theorem State.setQueues_openMem (s : State) (v : Tbl PktQueue) : (s.setQueues v).openMem = s.openMem := (rfl)
@[simp] theorem State.setQueues_dcRights (s : State) (v : Tbl PktQueue) : (s.setQueues v).dcRights = s.dcRights := (rfl)
@[simp] theorem State.setQueues_clk (s : State) (v : Tbl PktQueue) : (s.setQueues v).clk = s.clk := (rfl)
@[simp] theorem State.setQueues_units (s : State) (v : Tbl PktQueue) : (s.setQueues v).units = s.units := (rfl)
@[simp] theorem State.setQueues_hearthHit (s : State) (v : Tbl PktQueue) : (s.setQueues v).hearthHit = s.hearthHit := (rfl)
@[simp] theorem State.setPorts_pending (s : State) (v : Tbl PktPort) : (s.setPorts v).pending = s.pending := (rfl)
@[simp] theorem State.setPorts_regs (s : State) (v : Tbl PktPort) : (s.setPorts v).regs = s.regs := (rfl)
@[simp] theorem State.setPorts_mem (s : State) (v : Tbl PktPort) : (s.setPorts v).mem = s.mem := (rfl)
@[simp] theorem State.setPorts_poison (s : State) (v : Tbl PktPort) : (s.setPorts v).poison = s.poison := (rfl)
@[simp] theorem State.setPorts_fresh (s : State) (v : Tbl PktPort) : (s.setPorts v).fresh = s.fresh := (rfl)
@[simp] theorem State.setPorts_answer (s : State) (v : Tbl PktPort) : (s.setPorts v).answer = s.answer := (rfl)
@[simp] theorem State.setPorts_answerStatus (s : State) (v : Tbl PktPort) : (s.setPorts v).answerStatus = s.answerStatus := (rfl)
@[simp] theorem State.setPorts_book (s : State) (v : Tbl PktPort) : (s.setPorts v).book = s.book := (rfl)
@[simp] theorem State.setPorts_mgt (s : State) (v : Tbl PktPort) : (s.setPorts v).mgt = s.mgt := (rfl)
@[simp] theorem State.setPorts_fpFifo (s : State) (v : Tbl PktPort) : (s.setPorts v).fpFifo = s.fpFifo := (rfl)
@[simp] theorem State.setPorts_evtOnce (s : State) (v : Tbl PktPort) : (s.setPorts v).evtOnce = s.evtOnce := (rfl)
@[simp] theorem State.setPorts_cycles (s : State) (v : Tbl PktPort) : (s.setPorts v).cycles = s.cycles := (rfl)
@[simp] theorem State.setPorts_pcie (s : State) (v : Tbl PktPort) : (s.setPorts v).pcie = s.pcie := (rfl)
@[simp] theorem State.setPorts_sent (s : State) (v : Tbl PktPort) : (s.setPorts v).sent = s.sent := (rfl)
@[simp] theorem State.setPorts_bw (s : State) (v : Tbl PktPort) : (s.setPorts v).bw = s.bw := (rfl)
@[simp] theorem State.setPorts_pmcLatch (s : State) (v : Tbl PktPort) : (s.setPorts v).pmcLatch = s.pmcLatch := (rfl)
@[simp] theorem State.setPorts_cal (s : State) (v : Tbl PktPort) : (s.setPorts v).cal = s.cal := (rfl)
@[simp] theorem State.setPorts_cfg (s : State) (v : Tbl PktPort) : (s.setPorts v).cfg = s.cfg := (rfl)
@[simp] theorem State.setPorts_tap (s : State) (v : Tbl PktPort) : (s.setPorts v).tap = s.tap := (rfl)
@[simp] theorem State.setPorts_pins (s : State) (v : Tbl PktPort) : (s.setPorts v).pins = s.pins := (rfl)
@[simp] theorem State.setPorts_frames (s : State) (v : Tbl PktPort) : (s.setPorts v).frames = s.frames := (rfl)
@[simp] theorem State.setPorts_clusters (s : State) (v : Tbl PktPort) : (s.setPorts v).clusters = s.clusters := (rfl)
@[simp] theorem State.setPorts_ffs (s : State) (v : Tbl PktPort) : (s.setPorts v).ffs = s.ffs := (rfl)
@[simp] theorem State.setPorts_relStage (s : State) (v : Tbl PktPort) : (s.setPorts v).relStage = s.relStage := (rfl)
@[simp] theorem State.setPorts_frozen (s : State) (v : Tbl PktPort) : (s.setPorts v).frozen = s.frozen := (rfl)
@[simp] theorem State.setPorts_bramCfg (s : State) (v : Tbl PktPort) : (s.setPorts v).bramCfg = s.bramCfg := (rfl)
@[simp] theorem State.setPorts_bram (s : State) (v : Tbl PktPort) : (s.setPorts v).bram = s.bram := (rfl)
@[simp] theorem State.setPorts_bramPorts (s : State) (v : Tbl PktPort) : (s.setPorts v).bramPorts = s.bramPorts := (rfl)
@[simp] theorem State.setPorts_multCfg (s : State) (v : Tbl PktPort) : (s.setPorts v).multCfg = s.multCfg := (rfl)
@[simp] theorem State.setPorts_mults (s : State) (v : Tbl PktPort) : (s.setPorts v).mults = s.mults := (rfl)
@[simp] theorem State.setPorts_railKeep (s : State) (v : Tbl PktPort) : (s.setPorts v).railKeep = s.railKeep := (rfl)
@[simp] theorem State.setPorts_chk (s : State) (v : Tbl PktPort) : (s.setPorts v).chk = s.chk := (rfl)
@[simp] theorem State.setPorts_eccRaw (s : State) (v : Tbl PktPort) : (s.setPorts v).eccRaw = s.eccRaw := (rfl)
@[simp] theorem State.setPorts_eccScrub (s : State) (v : Tbl PktPort) : (s.setPorts v).eccScrub = s.eccScrub := (rfl)
@[simp] theorem State.setPorts_tags (s : State) (v : Tbl PktPort) : (s.setPorts v).tags = s.tags := (rfl)
@[simp] theorem State.setPorts_xUsed (s : State) (v : Tbl PktPort) : (s.setPorts v).xUsed = s.xUsed := (rfl)
@[simp] theorem State.setPorts_xWait (s : State) (v : Tbl PktPort) : (s.setPorts v).xWait = s.xWait := (rfl)
@[simp] theorem State.setPorts_xHeld (s : State) (v : Tbl PktPort) : (s.setPorts v).xHeld = s.xHeld := (rfl)
@[simp] theorem State.setPorts_routers (s : State) (v : Tbl PktPort) : (s.setPorts v).routers = s.routers := (rfl)
@[simp] theorem State.setPorts_portMode (s : State) (v : Tbl PktPort) : (s.setPorts v).portMode = s.portMode := (rfl)
@[simp] theorem State.setPorts_portTags (s : State) (v : Tbl PktPort) : (s.setPorts v).portTags = s.portTags := (rfl)
@[simp] theorem State.setPorts_portFifo (s : State) (v : Tbl PktPort) : (s.setPorts v).portFifo = s.portFifo := (rfl)
@[simp] theorem State.setPorts_dcache (s : State) (v : Tbl PktPort) : (s.setPorts v).dcache = s.dcache := (rfl)
@[simp] theorem State.setPorts_dir (s : State) (v : Tbl PktPort) : (s.setPorts v).dir = s.dir := (rfl)
@[simp] theorem State.setPorts_dieResets (s : State) (v : Tbl PktPort) : (s.setPorts v).dieResets = s.dieResets := (rfl)
@[simp] theorem State.setPorts_homeTxn (s : State) (v : Tbl PktPort) : (s.setPorts v).homeTxn = s.homeTxn := (rfl)
@[simp] theorem State.setPorts_cores (s : State) (v : Tbl PktPort) : (s.setPorts v).cores = s.cores := (rfl)
@[simp] theorem State.setPorts_tngDone (s : State) (v : Tbl PktPort) : (s.setPorts v).tngDone = s.tngDone := (rfl)
@[simp] theorem State.setPorts_fab (s : State) (v : Tbl PktPort) : (s.setPorts v).fab = s.fab := (rfl)
@[simp] theorem State.setPorts_net (s : State) (v : Tbl PktPort) : (s.setPorts v).net = s.net := (rfl)
@[simp] theorem State.setPorts_rtrShare (s : State) (v : Tbl PktPort) : (s.setPorts v).rtrShare = s.rtrShare := (rfl)
@[simp] theorem State.setPorts_dbg (s : State) (v : Tbl PktPort) : (s.setPorts v).dbg = s.dbg := (rfl)
@[simp] theorem State.setPorts_dcWait (s : State) (v : Tbl PktPort) : (s.setPorts v).dcWait = s.dcWait := (rfl)
@[simp] theorem State.setPorts_prcStep (s : State) (v : Tbl PktPort) : (s.setPorts v).prcStep = s.prcStep := (rfl)
@[simp] theorem State.setPorts_prcBlank (s : State) (v : Tbl PktPort) : (s.setPorts v).prcBlank = s.prcBlank := (rfl)
@[simp] theorem State.setPorts_prcHold (s : State) (v : Tbl PktPort) : (s.setPorts v).prcHold = s.prcHold := (rfl)
@[simp] theorem State.setPorts_capWait (s : State) (v : Tbl PktPort) : (s.setPorts v).capWait = s.capWait := (rfl)
@[simp] theorem State.setPorts_capture (s : State) (v : Tbl PktPort) : (s.setPorts v).capture = s.capture := (rfl)
@[simp] theorem State.setPorts_bramDef (s : State) (v : Tbl PktPort) : (s.setPorts v).bramDef = s.bramDef := (rfl)
@[simp] theorem State.setPorts_scrubs (s : State) (v : Tbl PktPort) : (s.setPorts v).scrubs = s.scrubs := (rfl)
@[simp] theorem State.setPorts_scrCopy (s : State) (v : Tbl PktPort) : (s.setPorts v).scrCopy = s.scrCopy := (rfl)
@[simp] theorem State.setPorts_releases (s : State) (v : Tbl PktPort) : (s.setPorts v).releases = s.releases := (rfl)
@[simp] theorem State.setPorts_dieStep (s : State) (v : Tbl PktPort) : (s.setPorts v).dieStep = s.dieStep := (rfl)
@[simp] theorem State.setPorts_clampDef (s : State) (v : Tbl PktPort) : (s.setPorts v).clampDef = s.clampDef := (rfl)
@[simp] theorem State.setPorts_clamps (s : State) (v : Tbl PktPort) : (s.setPorts v).clamps = s.clamps := (rfl)
@[simp] theorem State.setPorts_welds (s : State) (v : Tbl PktPort) : (s.setPorts v).welds = s.welds := (rfl)
@[simp] theorem State.setPorts_lanes (s : State) (v : Tbl PktPort) : (s.setPorts v).lanes = s.lanes := (rfl)
@[simp] theorem State.setPorts_macMode (s : State) (v : Tbl PktPort) : (s.setPorts v).macMode = s.macMode := (rfl)
@[simp] theorem State.setPorts_tod (s : State) (v : Tbl PktPort) : (s.setPorts v).tod = s.tod := (rfl)
@[simp] theorem State.setPorts_lkp (s : State) (v : Tbl PktPort) : (s.setPorts v).lkp = s.lkp := (rfl)
@[simp] theorem State.setPorts_queues (s : State) (v : Tbl PktPort) : (s.setPorts v).queues = s.queues := (rfl)
@[simp] theorem State.setPorts_ports (s : State) (v : Tbl PktPort) : (s.setPorts v).ports = v := (rfl)
@[simp] theorem State.setPorts_pkt (s : State) (v : Tbl PktPort) : (s.setPorts v).pkt = s.pkt := (rfl)
@[simp] theorem State.setPorts_cxl (s : State) (v : Tbl PktPort) : (s.setPorts v).cxl = s.cxl := (rfl)
@[simp] theorem State.setPorts_ddr (s : State) (v : Tbl PktPort) : (s.setPorts v).ddr = s.ddr := (rfl)
@[simp] theorem State.setPorts_regions (s : State) (v : Tbl PktPort) : (s.setPorts v).regions = s.regions := (rfl)
@[simp] theorem State.setPorts_prots (s : State) (v : Tbl PktPort) : (s.setPorts v).prots = s.prots := (rfl)
@[simp] theorem State.setPorts_keyStore (s : State) (v : Tbl PktPort) : (s.setPorts v).keyStore = s.keyStore := (rfl)
@[simp] theorem State.setPorts_rings (s : State) (v : Tbl PktPort) : (s.setPorts v).rings = s.rings := (rfl)
@[simp] theorem State.setPorts_openMem (s : State) (v : Tbl PktPort) : (s.setPorts v).openMem = s.openMem := (rfl)
@[simp] theorem State.setPorts_dcRights (s : State) (v : Tbl PktPort) : (s.setPorts v).dcRights = s.dcRights := (rfl)
@[simp] theorem State.setPorts_clk (s : State) (v : Tbl PktPort) : (s.setPorts v).clk = s.clk := (rfl)
@[simp] theorem State.setPorts_units (s : State) (v : Tbl PktPort) : (s.setPorts v).units = s.units := (rfl)
@[simp] theorem State.setPorts_hearthHit (s : State) (v : Tbl PktPort) : (s.setPorts v).hearthHit = s.hearthHit := (rfl)
@[simp] theorem State.setPkt_pending (s : State) (v : Tbl PktDie) : (s.setPkt v).pending = s.pending := (rfl)
@[simp] theorem State.setPkt_regs (s : State) (v : Tbl PktDie) : (s.setPkt v).regs = s.regs := (rfl)
@[simp] theorem State.setPkt_mem (s : State) (v : Tbl PktDie) : (s.setPkt v).mem = s.mem := (rfl)
@[simp] theorem State.setPkt_poison (s : State) (v : Tbl PktDie) : (s.setPkt v).poison = s.poison := (rfl)
@[simp] theorem State.setPkt_fresh (s : State) (v : Tbl PktDie) : (s.setPkt v).fresh = s.fresh := (rfl)
@[simp] theorem State.setPkt_answer (s : State) (v : Tbl PktDie) : (s.setPkt v).answer = s.answer := (rfl)
@[simp] theorem State.setPkt_answerStatus (s : State) (v : Tbl PktDie) : (s.setPkt v).answerStatus = s.answerStatus := (rfl)
@[simp] theorem State.setPkt_book (s : State) (v : Tbl PktDie) : (s.setPkt v).book = s.book := (rfl)
@[simp] theorem State.setPkt_mgt (s : State) (v : Tbl PktDie) : (s.setPkt v).mgt = s.mgt := (rfl)
@[simp] theorem State.setPkt_fpFifo (s : State) (v : Tbl PktDie) : (s.setPkt v).fpFifo = s.fpFifo := (rfl)
@[simp] theorem State.setPkt_evtOnce (s : State) (v : Tbl PktDie) : (s.setPkt v).evtOnce = s.evtOnce := (rfl)
@[simp] theorem State.setPkt_cycles (s : State) (v : Tbl PktDie) : (s.setPkt v).cycles = s.cycles := (rfl)
@[simp] theorem State.setPkt_pcie (s : State) (v : Tbl PktDie) : (s.setPkt v).pcie = s.pcie := (rfl)
@[simp] theorem State.setPkt_sent (s : State) (v : Tbl PktDie) : (s.setPkt v).sent = s.sent := (rfl)
@[simp] theorem State.setPkt_bw (s : State) (v : Tbl PktDie) : (s.setPkt v).bw = s.bw := (rfl)
@[simp] theorem State.setPkt_pmcLatch (s : State) (v : Tbl PktDie) : (s.setPkt v).pmcLatch = s.pmcLatch := (rfl)
@[simp] theorem State.setPkt_cal (s : State) (v : Tbl PktDie) : (s.setPkt v).cal = s.cal := (rfl)
@[simp] theorem State.setPkt_cfg (s : State) (v : Tbl PktDie) : (s.setPkt v).cfg = s.cfg := (rfl)
@[simp] theorem State.setPkt_tap (s : State) (v : Tbl PktDie) : (s.setPkt v).tap = s.tap := (rfl)
@[simp] theorem State.setPkt_pins (s : State) (v : Tbl PktDie) : (s.setPkt v).pins = s.pins := (rfl)
@[simp] theorem State.setPkt_frames (s : State) (v : Tbl PktDie) : (s.setPkt v).frames = s.frames := (rfl)
@[simp] theorem State.setPkt_clusters (s : State) (v : Tbl PktDie) : (s.setPkt v).clusters = s.clusters := (rfl)
@[simp] theorem State.setPkt_ffs (s : State) (v : Tbl PktDie) : (s.setPkt v).ffs = s.ffs := (rfl)
@[simp] theorem State.setPkt_relStage (s : State) (v : Tbl PktDie) : (s.setPkt v).relStage = s.relStage := (rfl)
@[simp] theorem State.setPkt_frozen (s : State) (v : Tbl PktDie) : (s.setPkt v).frozen = s.frozen := (rfl)
@[simp] theorem State.setPkt_bramCfg (s : State) (v : Tbl PktDie) : (s.setPkt v).bramCfg = s.bramCfg := (rfl)
@[simp] theorem State.setPkt_bram (s : State) (v : Tbl PktDie) : (s.setPkt v).bram = s.bram := (rfl)
@[simp] theorem State.setPkt_bramPorts (s : State) (v : Tbl PktDie) : (s.setPkt v).bramPorts = s.bramPorts := (rfl)
@[simp] theorem State.setPkt_multCfg (s : State) (v : Tbl PktDie) : (s.setPkt v).multCfg = s.multCfg := (rfl)
@[simp] theorem State.setPkt_mults (s : State) (v : Tbl PktDie) : (s.setPkt v).mults = s.mults := (rfl)
@[simp] theorem State.setPkt_railKeep (s : State) (v : Tbl PktDie) : (s.setPkt v).railKeep = s.railKeep := (rfl)
@[simp] theorem State.setPkt_chk (s : State) (v : Tbl PktDie) : (s.setPkt v).chk = s.chk := (rfl)
@[simp] theorem State.setPkt_eccRaw (s : State) (v : Tbl PktDie) : (s.setPkt v).eccRaw = s.eccRaw := (rfl)
@[simp] theorem State.setPkt_eccScrub (s : State) (v : Tbl PktDie) : (s.setPkt v).eccScrub = s.eccScrub := (rfl)
@[simp] theorem State.setPkt_tags (s : State) (v : Tbl PktDie) : (s.setPkt v).tags = s.tags := (rfl)
@[simp] theorem State.setPkt_xUsed (s : State) (v : Tbl PktDie) : (s.setPkt v).xUsed = s.xUsed := (rfl)
@[simp] theorem State.setPkt_xWait (s : State) (v : Tbl PktDie) : (s.setPkt v).xWait = s.xWait := (rfl)
@[simp] theorem State.setPkt_xHeld (s : State) (v : Tbl PktDie) : (s.setPkt v).xHeld = s.xHeld := (rfl)
@[simp] theorem State.setPkt_routers (s : State) (v : Tbl PktDie) : (s.setPkt v).routers = s.routers := (rfl)
@[simp] theorem State.setPkt_portMode (s : State) (v : Tbl PktDie) : (s.setPkt v).portMode = s.portMode := (rfl)
@[simp] theorem State.setPkt_portTags (s : State) (v : Tbl PktDie) : (s.setPkt v).portTags = s.portTags := (rfl)
@[simp] theorem State.setPkt_portFifo (s : State) (v : Tbl PktDie) : (s.setPkt v).portFifo = s.portFifo := (rfl)
@[simp] theorem State.setPkt_dcache (s : State) (v : Tbl PktDie) : (s.setPkt v).dcache = s.dcache := (rfl)
@[simp] theorem State.setPkt_dir (s : State) (v : Tbl PktDie) : (s.setPkt v).dir = s.dir := (rfl)
@[simp] theorem State.setPkt_dieResets (s : State) (v : Tbl PktDie) : (s.setPkt v).dieResets = s.dieResets := (rfl)
@[simp] theorem State.setPkt_homeTxn (s : State) (v : Tbl PktDie) : (s.setPkt v).homeTxn = s.homeTxn := (rfl)
@[simp] theorem State.setPkt_cores (s : State) (v : Tbl PktDie) : (s.setPkt v).cores = s.cores := (rfl)
@[simp] theorem State.setPkt_tngDone (s : State) (v : Tbl PktDie) : (s.setPkt v).tngDone = s.tngDone := (rfl)
@[simp] theorem State.setPkt_fab (s : State) (v : Tbl PktDie) : (s.setPkt v).fab = s.fab := (rfl)
@[simp] theorem State.setPkt_net (s : State) (v : Tbl PktDie) : (s.setPkt v).net = s.net := (rfl)
@[simp] theorem State.setPkt_rtrShare (s : State) (v : Tbl PktDie) : (s.setPkt v).rtrShare = s.rtrShare := (rfl)
@[simp] theorem State.setPkt_dbg (s : State) (v : Tbl PktDie) : (s.setPkt v).dbg = s.dbg := (rfl)
@[simp] theorem State.setPkt_dcWait (s : State) (v : Tbl PktDie) : (s.setPkt v).dcWait = s.dcWait := (rfl)
@[simp] theorem State.setPkt_prcStep (s : State) (v : Tbl PktDie) : (s.setPkt v).prcStep = s.prcStep := (rfl)
@[simp] theorem State.setPkt_prcBlank (s : State) (v : Tbl PktDie) : (s.setPkt v).prcBlank = s.prcBlank := (rfl)
@[simp] theorem State.setPkt_prcHold (s : State) (v : Tbl PktDie) : (s.setPkt v).prcHold = s.prcHold := (rfl)
@[simp] theorem State.setPkt_capWait (s : State) (v : Tbl PktDie) : (s.setPkt v).capWait = s.capWait := (rfl)
@[simp] theorem State.setPkt_capture (s : State) (v : Tbl PktDie) : (s.setPkt v).capture = s.capture := (rfl)
@[simp] theorem State.setPkt_bramDef (s : State) (v : Tbl PktDie) : (s.setPkt v).bramDef = s.bramDef := (rfl)
@[simp] theorem State.setPkt_scrubs (s : State) (v : Tbl PktDie) : (s.setPkt v).scrubs = s.scrubs := (rfl)
@[simp] theorem State.setPkt_scrCopy (s : State) (v : Tbl PktDie) : (s.setPkt v).scrCopy = s.scrCopy := (rfl)
@[simp] theorem State.setPkt_releases (s : State) (v : Tbl PktDie) : (s.setPkt v).releases = s.releases := (rfl)
@[simp] theorem State.setPkt_dieStep (s : State) (v : Tbl PktDie) : (s.setPkt v).dieStep = s.dieStep := (rfl)
@[simp] theorem State.setPkt_clampDef (s : State) (v : Tbl PktDie) : (s.setPkt v).clampDef = s.clampDef := (rfl)
@[simp] theorem State.setPkt_clamps (s : State) (v : Tbl PktDie) : (s.setPkt v).clamps = s.clamps := (rfl)
@[simp] theorem State.setPkt_welds (s : State) (v : Tbl PktDie) : (s.setPkt v).welds = s.welds := (rfl)
@[simp] theorem State.setPkt_lanes (s : State) (v : Tbl PktDie) : (s.setPkt v).lanes = s.lanes := (rfl)
@[simp] theorem State.setPkt_macMode (s : State) (v : Tbl PktDie) : (s.setPkt v).macMode = s.macMode := (rfl)
@[simp] theorem State.setPkt_tod (s : State) (v : Tbl PktDie) : (s.setPkt v).tod = s.tod := (rfl)
@[simp] theorem State.setPkt_lkp (s : State) (v : Tbl PktDie) : (s.setPkt v).lkp = s.lkp := (rfl)
@[simp] theorem State.setPkt_queues (s : State) (v : Tbl PktDie) : (s.setPkt v).queues = s.queues := (rfl)
@[simp] theorem State.setPkt_ports (s : State) (v : Tbl PktDie) : (s.setPkt v).ports = s.ports := (rfl)
@[simp] theorem State.setPkt_pkt (s : State) (v : Tbl PktDie) : (s.setPkt v).pkt = v := (rfl)
@[simp] theorem State.setPkt_cxl (s : State) (v : Tbl PktDie) : (s.setPkt v).cxl = s.cxl := (rfl)
@[simp] theorem State.setPkt_ddr (s : State) (v : Tbl PktDie) : (s.setPkt v).ddr = s.ddr := (rfl)
@[simp] theorem State.setPkt_regions (s : State) (v : Tbl PktDie) : (s.setPkt v).regions = s.regions := (rfl)
@[simp] theorem State.setPkt_prots (s : State) (v : Tbl PktDie) : (s.setPkt v).prots = s.prots := (rfl)
@[simp] theorem State.setPkt_keyStore (s : State) (v : Tbl PktDie) : (s.setPkt v).keyStore = s.keyStore := (rfl)
@[simp] theorem State.setPkt_rings (s : State) (v : Tbl PktDie) : (s.setPkt v).rings = s.rings := (rfl)
@[simp] theorem State.setPkt_openMem (s : State) (v : Tbl PktDie) : (s.setPkt v).openMem = s.openMem := (rfl)
@[simp] theorem State.setPkt_dcRights (s : State) (v : Tbl PktDie) : (s.setPkt v).dcRights = s.dcRights := (rfl)
@[simp] theorem State.setPkt_clk (s : State) (v : Tbl PktDie) : (s.setPkt v).clk = s.clk := (rfl)
@[simp] theorem State.setPkt_units (s : State) (v : Tbl PktDie) : (s.setPkt v).units = s.units := (rfl)
@[simp] theorem State.setPkt_hearthHit (s : State) (v : Tbl PktDie) : (s.setPkt v).hearthHit = s.hearthHit := (rfl)
@[simp] theorem State.setCxl_pending (s : State) (v : Tbl CxlPort) : (s.setCxl v).pending = s.pending := (rfl)
@[simp] theorem State.setCxl_regs (s : State) (v : Tbl CxlPort) : (s.setCxl v).regs = s.regs := (rfl)
@[simp] theorem State.setCxl_mem (s : State) (v : Tbl CxlPort) : (s.setCxl v).mem = s.mem := (rfl)
@[simp] theorem State.setCxl_poison (s : State) (v : Tbl CxlPort) : (s.setCxl v).poison = s.poison := (rfl)
@[simp] theorem State.setCxl_fresh (s : State) (v : Tbl CxlPort) : (s.setCxl v).fresh = s.fresh := (rfl)
@[simp] theorem State.setCxl_answer (s : State) (v : Tbl CxlPort) : (s.setCxl v).answer = s.answer := (rfl)
@[simp] theorem State.setCxl_answerStatus (s : State) (v : Tbl CxlPort) : (s.setCxl v).answerStatus = s.answerStatus := (rfl)
@[simp] theorem State.setCxl_book (s : State) (v : Tbl CxlPort) : (s.setCxl v).book = s.book := (rfl)
@[simp] theorem State.setCxl_mgt (s : State) (v : Tbl CxlPort) : (s.setCxl v).mgt = s.mgt := (rfl)
@[simp] theorem State.setCxl_fpFifo (s : State) (v : Tbl CxlPort) : (s.setCxl v).fpFifo = s.fpFifo := (rfl)
@[simp] theorem State.setCxl_evtOnce (s : State) (v : Tbl CxlPort) : (s.setCxl v).evtOnce = s.evtOnce := (rfl)
@[simp] theorem State.setCxl_cycles (s : State) (v : Tbl CxlPort) : (s.setCxl v).cycles = s.cycles := (rfl)
@[simp] theorem State.setCxl_pcie (s : State) (v : Tbl CxlPort) : (s.setCxl v).pcie = s.pcie := (rfl)
@[simp] theorem State.setCxl_sent (s : State) (v : Tbl CxlPort) : (s.setCxl v).sent = s.sent := (rfl)
@[simp] theorem State.setCxl_bw (s : State) (v : Tbl CxlPort) : (s.setCxl v).bw = s.bw := (rfl)
@[simp] theorem State.setCxl_pmcLatch (s : State) (v : Tbl CxlPort) : (s.setCxl v).pmcLatch = s.pmcLatch := (rfl)
@[simp] theorem State.setCxl_cal (s : State) (v : Tbl CxlPort) : (s.setCxl v).cal = s.cal := (rfl)
@[simp] theorem State.setCxl_cfg (s : State) (v : Tbl CxlPort) : (s.setCxl v).cfg = s.cfg := (rfl)
@[simp] theorem State.setCxl_tap (s : State) (v : Tbl CxlPort) : (s.setCxl v).tap = s.tap := (rfl)
@[simp] theorem State.setCxl_pins (s : State) (v : Tbl CxlPort) : (s.setCxl v).pins = s.pins := (rfl)
@[simp] theorem State.setCxl_frames (s : State) (v : Tbl CxlPort) : (s.setCxl v).frames = s.frames := (rfl)
@[simp] theorem State.setCxl_clusters (s : State) (v : Tbl CxlPort) : (s.setCxl v).clusters = s.clusters := (rfl)
@[simp] theorem State.setCxl_ffs (s : State) (v : Tbl CxlPort) : (s.setCxl v).ffs = s.ffs := (rfl)
@[simp] theorem State.setCxl_relStage (s : State) (v : Tbl CxlPort) : (s.setCxl v).relStage = s.relStage := (rfl)
@[simp] theorem State.setCxl_frozen (s : State) (v : Tbl CxlPort) : (s.setCxl v).frozen = s.frozen := (rfl)
@[simp] theorem State.setCxl_bramCfg (s : State) (v : Tbl CxlPort) : (s.setCxl v).bramCfg = s.bramCfg := (rfl)
@[simp] theorem State.setCxl_bram (s : State) (v : Tbl CxlPort) : (s.setCxl v).bram = s.bram := (rfl)
@[simp] theorem State.setCxl_bramPorts (s : State) (v : Tbl CxlPort) : (s.setCxl v).bramPorts = s.bramPorts := (rfl)
@[simp] theorem State.setCxl_multCfg (s : State) (v : Tbl CxlPort) : (s.setCxl v).multCfg = s.multCfg := (rfl)
@[simp] theorem State.setCxl_mults (s : State) (v : Tbl CxlPort) : (s.setCxl v).mults = s.mults := (rfl)
@[simp] theorem State.setCxl_railKeep (s : State) (v : Tbl CxlPort) : (s.setCxl v).railKeep = s.railKeep := (rfl)
@[simp] theorem State.setCxl_chk (s : State) (v : Tbl CxlPort) : (s.setCxl v).chk = s.chk := (rfl)
@[simp] theorem State.setCxl_eccRaw (s : State) (v : Tbl CxlPort) : (s.setCxl v).eccRaw = s.eccRaw := (rfl)
@[simp] theorem State.setCxl_eccScrub (s : State) (v : Tbl CxlPort) : (s.setCxl v).eccScrub = s.eccScrub := (rfl)
@[simp] theorem State.setCxl_tags (s : State) (v : Tbl CxlPort) : (s.setCxl v).tags = s.tags := (rfl)
@[simp] theorem State.setCxl_xUsed (s : State) (v : Tbl CxlPort) : (s.setCxl v).xUsed = s.xUsed := (rfl)
@[simp] theorem State.setCxl_xWait (s : State) (v : Tbl CxlPort) : (s.setCxl v).xWait = s.xWait := (rfl)
@[simp] theorem State.setCxl_xHeld (s : State) (v : Tbl CxlPort) : (s.setCxl v).xHeld = s.xHeld := (rfl)
@[simp] theorem State.setCxl_routers (s : State) (v : Tbl CxlPort) : (s.setCxl v).routers = s.routers := (rfl)
@[simp] theorem State.setCxl_portMode (s : State) (v : Tbl CxlPort) : (s.setCxl v).portMode = s.portMode := (rfl)
@[simp] theorem State.setCxl_portTags (s : State) (v : Tbl CxlPort) : (s.setCxl v).portTags = s.portTags := (rfl)
@[simp] theorem State.setCxl_portFifo (s : State) (v : Tbl CxlPort) : (s.setCxl v).portFifo = s.portFifo := (rfl)
@[simp] theorem State.setCxl_dcache (s : State) (v : Tbl CxlPort) : (s.setCxl v).dcache = s.dcache := (rfl)
@[simp] theorem State.setCxl_dir (s : State) (v : Tbl CxlPort) : (s.setCxl v).dir = s.dir := (rfl)
@[simp] theorem State.setCxl_dieResets (s : State) (v : Tbl CxlPort) : (s.setCxl v).dieResets = s.dieResets := (rfl)
@[simp] theorem State.setCxl_homeTxn (s : State) (v : Tbl CxlPort) : (s.setCxl v).homeTxn = s.homeTxn := (rfl)
@[simp] theorem State.setCxl_cores (s : State) (v : Tbl CxlPort) : (s.setCxl v).cores = s.cores := (rfl)
@[simp] theorem State.setCxl_tngDone (s : State) (v : Tbl CxlPort) : (s.setCxl v).tngDone = s.tngDone := (rfl)
@[simp] theorem State.setCxl_fab (s : State) (v : Tbl CxlPort) : (s.setCxl v).fab = s.fab := (rfl)
@[simp] theorem State.setCxl_net (s : State) (v : Tbl CxlPort) : (s.setCxl v).net = s.net := (rfl)
@[simp] theorem State.setCxl_rtrShare (s : State) (v : Tbl CxlPort) : (s.setCxl v).rtrShare = s.rtrShare := (rfl)
@[simp] theorem State.setCxl_dbg (s : State) (v : Tbl CxlPort) : (s.setCxl v).dbg = s.dbg := (rfl)
@[simp] theorem State.setCxl_dcWait (s : State) (v : Tbl CxlPort) : (s.setCxl v).dcWait = s.dcWait := (rfl)
@[simp] theorem State.setCxl_prcStep (s : State) (v : Tbl CxlPort) : (s.setCxl v).prcStep = s.prcStep := (rfl)
@[simp] theorem State.setCxl_prcBlank (s : State) (v : Tbl CxlPort) : (s.setCxl v).prcBlank = s.prcBlank := (rfl)
@[simp] theorem State.setCxl_prcHold (s : State) (v : Tbl CxlPort) : (s.setCxl v).prcHold = s.prcHold := (rfl)
@[simp] theorem State.setCxl_capWait (s : State) (v : Tbl CxlPort) : (s.setCxl v).capWait = s.capWait := (rfl)
@[simp] theorem State.setCxl_capture (s : State) (v : Tbl CxlPort) : (s.setCxl v).capture = s.capture := (rfl)
@[simp] theorem State.setCxl_bramDef (s : State) (v : Tbl CxlPort) : (s.setCxl v).bramDef = s.bramDef := (rfl)
@[simp] theorem State.setCxl_scrubs (s : State) (v : Tbl CxlPort) : (s.setCxl v).scrubs = s.scrubs := (rfl)
@[simp] theorem State.setCxl_scrCopy (s : State) (v : Tbl CxlPort) : (s.setCxl v).scrCopy = s.scrCopy := (rfl)
@[simp] theorem State.setCxl_releases (s : State) (v : Tbl CxlPort) : (s.setCxl v).releases = s.releases := (rfl)
@[simp] theorem State.setCxl_dieStep (s : State) (v : Tbl CxlPort) : (s.setCxl v).dieStep = s.dieStep := (rfl)
@[simp] theorem State.setCxl_clampDef (s : State) (v : Tbl CxlPort) : (s.setCxl v).clampDef = s.clampDef := (rfl)
@[simp] theorem State.setCxl_clamps (s : State) (v : Tbl CxlPort) : (s.setCxl v).clamps = s.clamps := (rfl)
@[simp] theorem State.setCxl_welds (s : State) (v : Tbl CxlPort) : (s.setCxl v).welds = s.welds := (rfl)
@[simp] theorem State.setCxl_lanes (s : State) (v : Tbl CxlPort) : (s.setCxl v).lanes = s.lanes := (rfl)
@[simp] theorem State.setCxl_macMode (s : State) (v : Tbl CxlPort) : (s.setCxl v).macMode = s.macMode := (rfl)
@[simp] theorem State.setCxl_tod (s : State) (v : Tbl CxlPort) : (s.setCxl v).tod = s.tod := (rfl)
@[simp] theorem State.setCxl_lkp (s : State) (v : Tbl CxlPort) : (s.setCxl v).lkp = s.lkp := (rfl)
@[simp] theorem State.setCxl_queues (s : State) (v : Tbl CxlPort) : (s.setCxl v).queues = s.queues := (rfl)
@[simp] theorem State.setCxl_ports (s : State) (v : Tbl CxlPort) : (s.setCxl v).ports = s.ports := (rfl)
@[simp] theorem State.setCxl_pkt (s : State) (v : Tbl CxlPort) : (s.setCxl v).pkt = s.pkt := (rfl)
@[simp] theorem State.setCxl_cxl (s : State) (v : Tbl CxlPort) : (s.setCxl v).cxl = v := (rfl)
@[simp] theorem State.setCxl_ddr (s : State) (v : Tbl CxlPort) : (s.setCxl v).ddr = s.ddr := (rfl)
@[simp] theorem State.setCxl_regions (s : State) (v : Tbl CxlPort) : (s.setCxl v).regions = s.regions := (rfl)
@[simp] theorem State.setCxl_prots (s : State) (v : Tbl CxlPort) : (s.setCxl v).prots = s.prots := (rfl)
@[simp] theorem State.setCxl_keyStore (s : State) (v : Tbl CxlPort) : (s.setCxl v).keyStore = s.keyStore := (rfl)
@[simp] theorem State.setCxl_rings (s : State) (v : Tbl CxlPort) : (s.setCxl v).rings = s.rings := (rfl)
@[simp] theorem State.setCxl_openMem (s : State) (v : Tbl CxlPort) : (s.setCxl v).openMem = s.openMem := (rfl)
@[simp] theorem State.setCxl_dcRights (s : State) (v : Tbl CxlPort) : (s.setCxl v).dcRights = s.dcRights := (rfl)
@[simp] theorem State.setCxl_clk (s : State) (v : Tbl CxlPort) : (s.setCxl v).clk = s.clk := (rfl)
@[simp] theorem State.setCxl_units (s : State) (v : Tbl CxlPort) : (s.setCxl v).units = s.units := (rfl)
@[simp] theorem State.setCxl_hearthHit (s : State) (v : Tbl CxlPort) : (s.setCxl v).hearthHit = s.hearthHit := (rfl)
@[simp] theorem State.setDdr_pending (s : State) (v : Tbl DdrCh) : (s.setDdr v).pending = s.pending := (rfl)
@[simp] theorem State.setDdr_regs (s : State) (v : Tbl DdrCh) : (s.setDdr v).regs = s.regs := (rfl)
@[simp] theorem State.setDdr_mem (s : State) (v : Tbl DdrCh) : (s.setDdr v).mem = s.mem := (rfl)
@[simp] theorem State.setDdr_poison (s : State) (v : Tbl DdrCh) : (s.setDdr v).poison = s.poison := (rfl)
@[simp] theorem State.setDdr_fresh (s : State) (v : Tbl DdrCh) : (s.setDdr v).fresh = s.fresh := (rfl)
@[simp] theorem State.setDdr_answer (s : State) (v : Tbl DdrCh) : (s.setDdr v).answer = s.answer := (rfl)
@[simp] theorem State.setDdr_answerStatus (s : State) (v : Tbl DdrCh) : (s.setDdr v).answerStatus = s.answerStatus := (rfl)
@[simp] theorem State.setDdr_book (s : State) (v : Tbl DdrCh) : (s.setDdr v).book = s.book := (rfl)
@[simp] theorem State.setDdr_mgt (s : State) (v : Tbl DdrCh) : (s.setDdr v).mgt = s.mgt := (rfl)
@[simp] theorem State.setDdr_fpFifo (s : State) (v : Tbl DdrCh) : (s.setDdr v).fpFifo = s.fpFifo := (rfl)
@[simp] theorem State.setDdr_evtOnce (s : State) (v : Tbl DdrCh) : (s.setDdr v).evtOnce = s.evtOnce := (rfl)
@[simp] theorem State.setDdr_cycles (s : State) (v : Tbl DdrCh) : (s.setDdr v).cycles = s.cycles := (rfl)
@[simp] theorem State.setDdr_pcie (s : State) (v : Tbl DdrCh) : (s.setDdr v).pcie = s.pcie := (rfl)
@[simp] theorem State.setDdr_sent (s : State) (v : Tbl DdrCh) : (s.setDdr v).sent = s.sent := (rfl)
@[simp] theorem State.setDdr_bw (s : State) (v : Tbl DdrCh) : (s.setDdr v).bw = s.bw := (rfl)
@[simp] theorem State.setDdr_pmcLatch (s : State) (v : Tbl DdrCh) : (s.setDdr v).pmcLatch = s.pmcLatch := (rfl)
@[simp] theorem State.setDdr_cal (s : State) (v : Tbl DdrCh) : (s.setDdr v).cal = s.cal := (rfl)
@[simp] theorem State.setDdr_cfg (s : State) (v : Tbl DdrCh) : (s.setDdr v).cfg = s.cfg := (rfl)
@[simp] theorem State.setDdr_tap (s : State) (v : Tbl DdrCh) : (s.setDdr v).tap = s.tap := (rfl)
@[simp] theorem State.setDdr_pins (s : State) (v : Tbl DdrCh) : (s.setDdr v).pins = s.pins := (rfl)
@[simp] theorem State.setDdr_frames (s : State) (v : Tbl DdrCh) : (s.setDdr v).frames = s.frames := (rfl)
@[simp] theorem State.setDdr_clusters (s : State) (v : Tbl DdrCh) : (s.setDdr v).clusters = s.clusters := (rfl)
@[simp] theorem State.setDdr_ffs (s : State) (v : Tbl DdrCh) : (s.setDdr v).ffs = s.ffs := (rfl)
@[simp] theorem State.setDdr_relStage (s : State) (v : Tbl DdrCh) : (s.setDdr v).relStage = s.relStage := (rfl)
@[simp] theorem State.setDdr_frozen (s : State) (v : Tbl DdrCh) : (s.setDdr v).frozen = s.frozen := (rfl)
@[simp] theorem State.setDdr_bramCfg (s : State) (v : Tbl DdrCh) : (s.setDdr v).bramCfg = s.bramCfg := (rfl)
@[simp] theorem State.setDdr_bram (s : State) (v : Tbl DdrCh) : (s.setDdr v).bram = s.bram := (rfl)
@[simp] theorem State.setDdr_bramPorts (s : State) (v : Tbl DdrCh) : (s.setDdr v).bramPorts = s.bramPorts := (rfl)
@[simp] theorem State.setDdr_multCfg (s : State) (v : Tbl DdrCh) : (s.setDdr v).multCfg = s.multCfg := (rfl)
@[simp] theorem State.setDdr_mults (s : State) (v : Tbl DdrCh) : (s.setDdr v).mults = s.mults := (rfl)
@[simp] theorem State.setDdr_railKeep (s : State) (v : Tbl DdrCh) : (s.setDdr v).railKeep = s.railKeep := (rfl)
@[simp] theorem State.setDdr_chk (s : State) (v : Tbl DdrCh) : (s.setDdr v).chk = s.chk := (rfl)
@[simp] theorem State.setDdr_eccRaw (s : State) (v : Tbl DdrCh) : (s.setDdr v).eccRaw = s.eccRaw := (rfl)
@[simp] theorem State.setDdr_eccScrub (s : State) (v : Tbl DdrCh) : (s.setDdr v).eccScrub = s.eccScrub := (rfl)
@[simp] theorem State.setDdr_tags (s : State) (v : Tbl DdrCh) : (s.setDdr v).tags = s.tags := (rfl)
@[simp] theorem State.setDdr_xUsed (s : State) (v : Tbl DdrCh) : (s.setDdr v).xUsed = s.xUsed := (rfl)
@[simp] theorem State.setDdr_xWait (s : State) (v : Tbl DdrCh) : (s.setDdr v).xWait = s.xWait := (rfl)
@[simp] theorem State.setDdr_xHeld (s : State) (v : Tbl DdrCh) : (s.setDdr v).xHeld = s.xHeld := (rfl)
@[simp] theorem State.setDdr_routers (s : State) (v : Tbl DdrCh) : (s.setDdr v).routers = s.routers := (rfl)
@[simp] theorem State.setDdr_portMode (s : State) (v : Tbl DdrCh) : (s.setDdr v).portMode = s.portMode := (rfl)
@[simp] theorem State.setDdr_portTags (s : State) (v : Tbl DdrCh) : (s.setDdr v).portTags = s.portTags := (rfl)
@[simp] theorem State.setDdr_portFifo (s : State) (v : Tbl DdrCh) : (s.setDdr v).portFifo = s.portFifo := (rfl)
@[simp] theorem State.setDdr_dcache (s : State) (v : Tbl DdrCh) : (s.setDdr v).dcache = s.dcache := (rfl)
@[simp] theorem State.setDdr_dir (s : State) (v : Tbl DdrCh) : (s.setDdr v).dir = s.dir := (rfl)
@[simp] theorem State.setDdr_dieResets (s : State) (v : Tbl DdrCh) : (s.setDdr v).dieResets = s.dieResets := (rfl)
@[simp] theorem State.setDdr_homeTxn (s : State) (v : Tbl DdrCh) : (s.setDdr v).homeTxn = s.homeTxn := (rfl)
@[simp] theorem State.setDdr_cores (s : State) (v : Tbl DdrCh) : (s.setDdr v).cores = s.cores := (rfl)
@[simp] theorem State.setDdr_tngDone (s : State) (v : Tbl DdrCh) : (s.setDdr v).tngDone = s.tngDone := (rfl)
@[simp] theorem State.setDdr_fab (s : State) (v : Tbl DdrCh) : (s.setDdr v).fab = s.fab := (rfl)
@[simp] theorem State.setDdr_net (s : State) (v : Tbl DdrCh) : (s.setDdr v).net = s.net := (rfl)
@[simp] theorem State.setDdr_rtrShare (s : State) (v : Tbl DdrCh) : (s.setDdr v).rtrShare = s.rtrShare := (rfl)
@[simp] theorem State.setDdr_dbg (s : State) (v : Tbl DdrCh) : (s.setDdr v).dbg = s.dbg := (rfl)
@[simp] theorem State.setDdr_dcWait (s : State) (v : Tbl DdrCh) : (s.setDdr v).dcWait = s.dcWait := (rfl)
@[simp] theorem State.setDdr_prcStep (s : State) (v : Tbl DdrCh) : (s.setDdr v).prcStep = s.prcStep := (rfl)
@[simp] theorem State.setDdr_prcBlank (s : State) (v : Tbl DdrCh) : (s.setDdr v).prcBlank = s.prcBlank := (rfl)
@[simp] theorem State.setDdr_prcHold (s : State) (v : Tbl DdrCh) : (s.setDdr v).prcHold = s.prcHold := (rfl)
@[simp] theorem State.setDdr_capWait (s : State) (v : Tbl DdrCh) : (s.setDdr v).capWait = s.capWait := (rfl)
@[simp] theorem State.setDdr_capture (s : State) (v : Tbl DdrCh) : (s.setDdr v).capture = s.capture := (rfl)
@[simp] theorem State.setDdr_bramDef (s : State) (v : Tbl DdrCh) : (s.setDdr v).bramDef = s.bramDef := (rfl)
@[simp] theorem State.setDdr_scrubs (s : State) (v : Tbl DdrCh) : (s.setDdr v).scrubs = s.scrubs := (rfl)
@[simp] theorem State.setDdr_scrCopy (s : State) (v : Tbl DdrCh) : (s.setDdr v).scrCopy = s.scrCopy := (rfl)
@[simp] theorem State.setDdr_releases (s : State) (v : Tbl DdrCh) : (s.setDdr v).releases = s.releases := (rfl)
@[simp] theorem State.setDdr_dieStep (s : State) (v : Tbl DdrCh) : (s.setDdr v).dieStep = s.dieStep := (rfl)
@[simp] theorem State.setDdr_clampDef (s : State) (v : Tbl DdrCh) : (s.setDdr v).clampDef = s.clampDef := (rfl)
@[simp] theorem State.setDdr_clamps (s : State) (v : Tbl DdrCh) : (s.setDdr v).clamps = s.clamps := (rfl)
@[simp] theorem State.setDdr_welds (s : State) (v : Tbl DdrCh) : (s.setDdr v).welds = s.welds := (rfl)
@[simp] theorem State.setDdr_lanes (s : State) (v : Tbl DdrCh) : (s.setDdr v).lanes = s.lanes := (rfl)
@[simp] theorem State.setDdr_macMode (s : State) (v : Tbl DdrCh) : (s.setDdr v).macMode = s.macMode := (rfl)
@[simp] theorem State.setDdr_tod (s : State) (v : Tbl DdrCh) : (s.setDdr v).tod = s.tod := (rfl)
@[simp] theorem State.setDdr_lkp (s : State) (v : Tbl DdrCh) : (s.setDdr v).lkp = s.lkp := (rfl)
@[simp] theorem State.setDdr_queues (s : State) (v : Tbl DdrCh) : (s.setDdr v).queues = s.queues := (rfl)
@[simp] theorem State.setDdr_ports (s : State) (v : Tbl DdrCh) : (s.setDdr v).ports = s.ports := (rfl)
@[simp] theorem State.setDdr_pkt (s : State) (v : Tbl DdrCh) : (s.setDdr v).pkt = s.pkt := (rfl)
@[simp] theorem State.setDdr_cxl (s : State) (v : Tbl DdrCh) : (s.setDdr v).cxl = s.cxl := (rfl)
@[simp] theorem State.setDdr_ddr (s : State) (v : Tbl DdrCh) : (s.setDdr v).ddr = v := (rfl)
@[simp] theorem State.setDdr_regions (s : State) (v : Tbl DdrCh) : (s.setDdr v).regions = s.regions := (rfl)
@[simp] theorem State.setDdr_prots (s : State) (v : Tbl DdrCh) : (s.setDdr v).prots = s.prots := (rfl)
@[simp] theorem State.setDdr_keyStore (s : State) (v : Tbl DdrCh) : (s.setDdr v).keyStore = s.keyStore := (rfl)
@[simp] theorem State.setDdr_rings (s : State) (v : Tbl DdrCh) : (s.setDdr v).rings = s.rings := (rfl)
@[simp] theorem State.setDdr_openMem (s : State) (v : Tbl DdrCh) : (s.setDdr v).openMem = s.openMem := (rfl)
@[simp] theorem State.setDdr_dcRights (s : State) (v : Tbl DdrCh) : (s.setDdr v).dcRights = s.dcRights := (rfl)
@[simp] theorem State.setDdr_clk (s : State) (v : Tbl DdrCh) : (s.setDdr v).clk = s.clk := (rfl)
@[simp] theorem State.setDdr_units (s : State) (v : Tbl DdrCh) : (s.setDdr v).units = s.units := (rfl)
@[simp] theorem State.setDdr_hearthHit (s : State) (v : Tbl DdrCh) : (s.setDdr v).hearthHit = s.hearthHit := (rfl)
@[simp] theorem State.setRegions_pending (s : State) (v : Tbl ProtRegion) : (s.setRegions v).pending = s.pending := (rfl)
@[simp] theorem State.setRegions_regs (s : State) (v : Tbl ProtRegion) : (s.setRegions v).regs = s.regs := (rfl)
@[simp] theorem State.setRegions_mem (s : State) (v : Tbl ProtRegion) : (s.setRegions v).mem = s.mem := (rfl)
@[simp] theorem State.setRegions_poison (s : State) (v : Tbl ProtRegion) : (s.setRegions v).poison = s.poison := (rfl)
@[simp] theorem State.setRegions_fresh (s : State) (v : Tbl ProtRegion) : (s.setRegions v).fresh = s.fresh := (rfl)
@[simp] theorem State.setRegions_answer (s : State) (v : Tbl ProtRegion) : (s.setRegions v).answer = s.answer := (rfl)
@[simp] theorem State.setRegions_answerStatus (s : State) (v : Tbl ProtRegion) : (s.setRegions v).answerStatus = s.answerStatus := (rfl)
@[simp] theorem State.setRegions_book (s : State) (v : Tbl ProtRegion) : (s.setRegions v).book = s.book := (rfl)
@[simp] theorem State.setRegions_mgt (s : State) (v : Tbl ProtRegion) : (s.setRegions v).mgt = s.mgt := (rfl)
@[simp] theorem State.setRegions_fpFifo (s : State) (v : Tbl ProtRegion) : (s.setRegions v).fpFifo = s.fpFifo := (rfl)
@[simp] theorem State.setRegions_evtOnce (s : State) (v : Tbl ProtRegion) : (s.setRegions v).evtOnce = s.evtOnce := (rfl)
@[simp] theorem State.setRegions_cycles (s : State) (v : Tbl ProtRegion) : (s.setRegions v).cycles = s.cycles := (rfl)
@[simp] theorem State.setRegions_pcie (s : State) (v : Tbl ProtRegion) : (s.setRegions v).pcie = s.pcie := (rfl)
@[simp] theorem State.setRegions_sent (s : State) (v : Tbl ProtRegion) : (s.setRegions v).sent = s.sent := (rfl)
@[simp] theorem State.setRegions_bw (s : State) (v : Tbl ProtRegion) : (s.setRegions v).bw = s.bw := (rfl)
@[simp] theorem State.setRegions_pmcLatch (s : State) (v : Tbl ProtRegion) : (s.setRegions v).pmcLatch = s.pmcLatch := (rfl)
@[simp] theorem State.setRegions_cal (s : State) (v : Tbl ProtRegion) : (s.setRegions v).cal = s.cal := (rfl)
@[simp] theorem State.setRegions_cfg (s : State) (v : Tbl ProtRegion) : (s.setRegions v).cfg = s.cfg := (rfl)
@[simp] theorem State.setRegions_tap (s : State) (v : Tbl ProtRegion) : (s.setRegions v).tap = s.tap := (rfl)
@[simp] theorem State.setRegions_pins (s : State) (v : Tbl ProtRegion) : (s.setRegions v).pins = s.pins := (rfl)
@[simp] theorem State.setRegions_frames (s : State) (v : Tbl ProtRegion) : (s.setRegions v).frames = s.frames := (rfl)
@[simp] theorem State.setRegions_clusters (s : State) (v : Tbl ProtRegion) : (s.setRegions v).clusters = s.clusters := (rfl)
@[simp] theorem State.setRegions_ffs (s : State) (v : Tbl ProtRegion) : (s.setRegions v).ffs = s.ffs := (rfl)
@[simp] theorem State.setRegions_relStage (s : State) (v : Tbl ProtRegion) : (s.setRegions v).relStage = s.relStage := (rfl)
@[simp] theorem State.setRegions_frozen (s : State) (v : Tbl ProtRegion) : (s.setRegions v).frozen = s.frozen := (rfl)
@[simp] theorem State.setRegions_bramCfg (s : State) (v : Tbl ProtRegion) : (s.setRegions v).bramCfg = s.bramCfg := (rfl)
@[simp] theorem State.setRegions_bram (s : State) (v : Tbl ProtRegion) : (s.setRegions v).bram = s.bram := (rfl)
@[simp] theorem State.setRegions_bramPorts (s : State) (v : Tbl ProtRegion) : (s.setRegions v).bramPorts = s.bramPorts := (rfl)
@[simp] theorem State.setRegions_multCfg (s : State) (v : Tbl ProtRegion) : (s.setRegions v).multCfg = s.multCfg := (rfl)
@[simp] theorem State.setRegions_mults (s : State) (v : Tbl ProtRegion) : (s.setRegions v).mults = s.mults := (rfl)
@[simp] theorem State.setRegions_railKeep (s : State) (v : Tbl ProtRegion) : (s.setRegions v).railKeep = s.railKeep := (rfl)
@[simp] theorem State.setRegions_chk (s : State) (v : Tbl ProtRegion) : (s.setRegions v).chk = s.chk := (rfl)
@[simp] theorem State.setRegions_eccRaw (s : State) (v : Tbl ProtRegion) : (s.setRegions v).eccRaw = s.eccRaw := (rfl)
@[simp] theorem State.setRegions_eccScrub (s : State) (v : Tbl ProtRegion) : (s.setRegions v).eccScrub = s.eccScrub := (rfl)
@[simp] theorem State.setRegions_tags (s : State) (v : Tbl ProtRegion) : (s.setRegions v).tags = s.tags := (rfl)
@[simp] theorem State.setRegions_xUsed (s : State) (v : Tbl ProtRegion) : (s.setRegions v).xUsed = s.xUsed := (rfl)
@[simp] theorem State.setRegions_xWait (s : State) (v : Tbl ProtRegion) : (s.setRegions v).xWait = s.xWait := (rfl)
@[simp] theorem State.setRegions_xHeld (s : State) (v : Tbl ProtRegion) : (s.setRegions v).xHeld = s.xHeld := (rfl)
@[simp] theorem State.setRegions_routers (s : State) (v : Tbl ProtRegion) : (s.setRegions v).routers = s.routers := (rfl)
@[simp] theorem State.setRegions_portMode (s : State) (v : Tbl ProtRegion) : (s.setRegions v).portMode = s.portMode := (rfl)
@[simp] theorem State.setRegions_portTags (s : State) (v : Tbl ProtRegion) : (s.setRegions v).portTags = s.portTags := (rfl)
@[simp] theorem State.setRegions_portFifo (s : State) (v : Tbl ProtRegion) : (s.setRegions v).portFifo = s.portFifo := (rfl)
@[simp] theorem State.setRegions_dcache (s : State) (v : Tbl ProtRegion) : (s.setRegions v).dcache = s.dcache := (rfl)
@[simp] theorem State.setRegions_dir (s : State) (v : Tbl ProtRegion) : (s.setRegions v).dir = s.dir := (rfl)
@[simp] theorem State.setRegions_dieResets (s : State) (v : Tbl ProtRegion) : (s.setRegions v).dieResets = s.dieResets := (rfl)
@[simp] theorem State.setRegions_homeTxn (s : State) (v : Tbl ProtRegion) : (s.setRegions v).homeTxn = s.homeTxn := (rfl)
@[simp] theorem State.setRegions_cores (s : State) (v : Tbl ProtRegion) : (s.setRegions v).cores = s.cores := (rfl)
@[simp] theorem State.setRegions_tngDone (s : State) (v : Tbl ProtRegion) : (s.setRegions v).tngDone = s.tngDone := (rfl)
@[simp] theorem State.setRegions_fab (s : State) (v : Tbl ProtRegion) : (s.setRegions v).fab = s.fab := (rfl)
@[simp] theorem State.setRegions_net (s : State) (v : Tbl ProtRegion) : (s.setRegions v).net = s.net := (rfl)
@[simp] theorem State.setRegions_rtrShare (s : State) (v : Tbl ProtRegion) : (s.setRegions v).rtrShare = s.rtrShare := (rfl)
@[simp] theorem State.setRegions_dbg (s : State) (v : Tbl ProtRegion) : (s.setRegions v).dbg = s.dbg := (rfl)
@[simp] theorem State.setRegions_dcWait (s : State) (v : Tbl ProtRegion) : (s.setRegions v).dcWait = s.dcWait := (rfl)
@[simp] theorem State.setRegions_prcStep (s : State) (v : Tbl ProtRegion) : (s.setRegions v).prcStep = s.prcStep := (rfl)
@[simp] theorem State.setRegions_prcBlank (s : State) (v : Tbl ProtRegion) : (s.setRegions v).prcBlank = s.prcBlank := (rfl)
@[simp] theorem State.setRegions_prcHold (s : State) (v : Tbl ProtRegion) : (s.setRegions v).prcHold = s.prcHold := (rfl)
@[simp] theorem State.setRegions_capWait (s : State) (v : Tbl ProtRegion) : (s.setRegions v).capWait = s.capWait := (rfl)
@[simp] theorem State.setRegions_capture (s : State) (v : Tbl ProtRegion) : (s.setRegions v).capture = s.capture := (rfl)
@[simp] theorem State.setRegions_bramDef (s : State) (v : Tbl ProtRegion) : (s.setRegions v).bramDef = s.bramDef := (rfl)
@[simp] theorem State.setRegions_scrubs (s : State) (v : Tbl ProtRegion) : (s.setRegions v).scrubs = s.scrubs := (rfl)
@[simp] theorem State.setRegions_scrCopy (s : State) (v : Tbl ProtRegion) : (s.setRegions v).scrCopy = s.scrCopy := (rfl)
@[simp] theorem State.setRegions_releases (s : State) (v : Tbl ProtRegion) : (s.setRegions v).releases = s.releases := (rfl)
@[simp] theorem State.setRegions_dieStep (s : State) (v : Tbl ProtRegion) : (s.setRegions v).dieStep = s.dieStep := (rfl)
@[simp] theorem State.setRegions_clampDef (s : State) (v : Tbl ProtRegion) : (s.setRegions v).clampDef = s.clampDef := (rfl)
@[simp] theorem State.setRegions_clamps (s : State) (v : Tbl ProtRegion) : (s.setRegions v).clamps = s.clamps := (rfl)
@[simp] theorem State.setRegions_welds (s : State) (v : Tbl ProtRegion) : (s.setRegions v).welds = s.welds := (rfl)
@[simp] theorem State.setRegions_lanes (s : State) (v : Tbl ProtRegion) : (s.setRegions v).lanes = s.lanes := (rfl)
@[simp] theorem State.setRegions_macMode (s : State) (v : Tbl ProtRegion) : (s.setRegions v).macMode = s.macMode := (rfl)
@[simp] theorem State.setRegions_tod (s : State) (v : Tbl ProtRegion) : (s.setRegions v).tod = s.tod := (rfl)
@[simp] theorem State.setRegions_lkp (s : State) (v : Tbl ProtRegion) : (s.setRegions v).lkp = s.lkp := (rfl)
@[simp] theorem State.setRegions_queues (s : State) (v : Tbl ProtRegion) : (s.setRegions v).queues = s.queues := (rfl)
@[simp] theorem State.setRegions_ports (s : State) (v : Tbl ProtRegion) : (s.setRegions v).ports = s.ports := (rfl)
@[simp] theorem State.setRegions_pkt (s : State) (v : Tbl ProtRegion) : (s.setRegions v).pkt = s.pkt := (rfl)
@[simp] theorem State.setRegions_cxl (s : State) (v : Tbl ProtRegion) : (s.setRegions v).cxl = s.cxl := (rfl)
@[simp] theorem State.setRegions_ddr (s : State) (v : Tbl ProtRegion) : (s.setRegions v).ddr = s.ddr := (rfl)
@[simp] theorem State.setRegions_regions (s : State) (v : Tbl ProtRegion) : (s.setRegions v).regions = v := (rfl)
@[simp] theorem State.setRegions_prots (s : State) (v : Tbl ProtRegion) : (s.setRegions v).prots = s.prots := (rfl)
@[simp] theorem State.setRegions_keyStore (s : State) (v : Tbl ProtRegion) : (s.setRegions v).keyStore = s.keyStore := (rfl)
@[simp] theorem State.setRegions_rings (s : State) (v : Tbl ProtRegion) : (s.setRegions v).rings = s.rings := (rfl)
@[simp] theorem State.setRegions_openMem (s : State) (v : Tbl ProtRegion) : (s.setRegions v).openMem = s.openMem := (rfl)
@[simp] theorem State.setRegions_dcRights (s : State) (v : Tbl ProtRegion) : (s.setRegions v).dcRights = s.dcRights := (rfl)
@[simp] theorem State.setRegions_clk (s : State) (v : Tbl ProtRegion) : (s.setRegions v).clk = s.clk := (rfl)
@[simp] theorem State.setRegions_units (s : State) (v : Tbl ProtRegion) : (s.setRegions v).units = s.units := (rfl)
@[simp] theorem State.setRegions_hearthHit (s : State) (v : Tbl ProtRegion) : (s.setRegions v).hearthHit = s.hearthHit := (rfl)
@[simp] theorem State.setProts_pending (s : State) (v : Tbl Prot) : (s.setProts v).pending = s.pending := (rfl)
@[simp] theorem State.setProts_regs (s : State) (v : Tbl Prot) : (s.setProts v).regs = s.regs := (rfl)
@[simp] theorem State.setProts_mem (s : State) (v : Tbl Prot) : (s.setProts v).mem = s.mem := (rfl)
@[simp] theorem State.setProts_poison (s : State) (v : Tbl Prot) : (s.setProts v).poison = s.poison := (rfl)
@[simp] theorem State.setProts_fresh (s : State) (v : Tbl Prot) : (s.setProts v).fresh = s.fresh := (rfl)
@[simp] theorem State.setProts_answer (s : State) (v : Tbl Prot) : (s.setProts v).answer = s.answer := (rfl)
@[simp] theorem State.setProts_answerStatus (s : State) (v : Tbl Prot) : (s.setProts v).answerStatus = s.answerStatus := (rfl)
@[simp] theorem State.setProts_book (s : State) (v : Tbl Prot) : (s.setProts v).book = s.book := (rfl)
@[simp] theorem State.setProts_mgt (s : State) (v : Tbl Prot) : (s.setProts v).mgt = s.mgt := (rfl)
@[simp] theorem State.setProts_fpFifo (s : State) (v : Tbl Prot) : (s.setProts v).fpFifo = s.fpFifo := (rfl)
@[simp] theorem State.setProts_evtOnce (s : State) (v : Tbl Prot) : (s.setProts v).evtOnce = s.evtOnce := (rfl)
@[simp] theorem State.setProts_cycles (s : State) (v : Tbl Prot) : (s.setProts v).cycles = s.cycles := (rfl)
@[simp] theorem State.setProts_pcie (s : State) (v : Tbl Prot) : (s.setProts v).pcie = s.pcie := (rfl)
@[simp] theorem State.setProts_sent (s : State) (v : Tbl Prot) : (s.setProts v).sent = s.sent := (rfl)
@[simp] theorem State.setProts_bw (s : State) (v : Tbl Prot) : (s.setProts v).bw = s.bw := (rfl)
@[simp] theorem State.setProts_pmcLatch (s : State) (v : Tbl Prot) : (s.setProts v).pmcLatch = s.pmcLatch := (rfl)
@[simp] theorem State.setProts_cal (s : State) (v : Tbl Prot) : (s.setProts v).cal = s.cal := (rfl)
@[simp] theorem State.setProts_cfg (s : State) (v : Tbl Prot) : (s.setProts v).cfg = s.cfg := (rfl)
@[simp] theorem State.setProts_tap (s : State) (v : Tbl Prot) : (s.setProts v).tap = s.tap := (rfl)
@[simp] theorem State.setProts_pins (s : State) (v : Tbl Prot) : (s.setProts v).pins = s.pins := (rfl)
@[simp] theorem State.setProts_frames (s : State) (v : Tbl Prot) : (s.setProts v).frames = s.frames := (rfl)
@[simp] theorem State.setProts_clusters (s : State) (v : Tbl Prot) : (s.setProts v).clusters = s.clusters := (rfl)
@[simp] theorem State.setProts_ffs (s : State) (v : Tbl Prot) : (s.setProts v).ffs = s.ffs := (rfl)
@[simp] theorem State.setProts_relStage (s : State) (v : Tbl Prot) : (s.setProts v).relStage = s.relStage := (rfl)
@[simp] theorem State.setProts_frozen (s : State) (v : Tbl Prot) : (s.setProts v).frozen = s.frozen := (rfl)
@[simp] theorem State.setProts_bramCfg (s : State) (v : Tbl Prot) : (s.setProts v).bramCfg = s.bramCfg := (rfl)
@[simp] theorem State.setProts_bram (s : State) (v : Tbl Prot) : (s.setProts v).bram = s.bram := (rfl)
@[simp] theorem State.setProts_bramPorts (s : State) (v : Tbl Prot) : (s.setProts v).bramPorts = s.bramPorts := (rfl)
@[simp] theorem State.setProts_multCfg (s : State) (v : Tbl Prot) : (s.setProts v).multCfg = s.multCfg := (rfl)
@[simp] theorem State.setProts_mults (s : State) (v : Tbl Prot) : (s.setProts v).mults = s.mults := (rfl)
@[simp] theorem State.setProts_railKeep (s : State) (v : Tbl Prot) : (s.setProts v).railKeep = s.railKeep := (rfl)
@[simp] theorem State.setProts_chk (s : State) (v : Tbl Prot) : (s.setProts v).chk = s.chk := (rfl)
@[simp] theorem State.setProts_eccRaw (s : State) (v : Tbl Prot) : (s.setProts v).eccRaw = s.eccRaw := (rfl)
@[simp] theorem State.setProts_eccScrub (s : State) (v : Tbl Prot) : (s.setProts v).eccScrub = s.eccScrub := (rfl)
@[simp] theorem State.setProts_tags (s : State) (v : Tbl Prot) : (s.setProts v).tags = s.tags := (rfl)
@[simp] theorem State.setProts_xUsed (s : State) (v : Tbl Prot) : (s.setProts v).xUsed = s.xUsed := (rfl)
@[simp] theorem State.setProts_xWait (s : State) (v : Tbl Prot) : (s.setProts v).xWait = s.xWait := (rfl)
@[simp] theorem State.setProts_xHeld (s : State) (v : Tbl Prot) : (s.setProts v).xHeld = s.xHeld := (rfl)
@[simp] theorem State.setProts_routers (s : State) (v : Tbl Prot) : (s.setProts v).routers = s.routers := (rfl)
@[simp] theorem State.setProts_portMode (s : State) (v : Tbl Prot) : (s.setProts v).portMode = s.portMode := (rfl)
@[simp] theorem State.setProts_portTags (s : State) (v : Tbl Prot) : (s.setProts v).portTags = s.portTags := (rfl)
@[simp] theorem State.setProts_portFifo (s : State) (v : Tbl Prot) : (s.setProts v).portFifo = s.portFifo := (rfl)
@[simp] theorem State.setProts_dcache (s : State) (v : Tbl Prot) : (s.setProts v).dcache = s.dcache := (rfl)
@[simp] theorem State.setProts_dir (s : State) (v : Tbl Prot) : (s.setProts v).dir = s.dir := (rfl)
@[simp] theorem State.setProts_dieResets (s : State) (v : Tbl Prot) : (s.setProts v).dieResets = s.dieResets := (rfl)
@[simp] theorem State.setProts_homeTxn (s : State) (v : Tbl Prot) : (s.setProts v).homeTxn = s.homeTxn := (rfl)
@[simp] theorem State.setProts_cores (s : State) (v : Tbl Prot) : (s.setProts v).cores = s.cores := (rfl)
@[simp] theorem State.setProts_tngDone (s : State) (v : Tbl Prot) : (s.setProts v).tngDone = s.tngDone := (rfl)
@[simp] theorem State.setProts_fab (s : State) (v : Tbl Prot) : (s.setProts v).fab = s.fab := (rfl)
@[simp] theorem State.setProts_net (s : State) (v : Tbl Prot) : (s.setProts v).net = s.net := (rfl)
@[simp] theorem State.setProts_rtrShare (s : State) (v : Tbl Prot) : (s.setProts v).rtrShare = s.rtrShare := (rfl)
@[simp] theorem State.setProts_dbg (s : State) (v : Tbl Prot) : (s.setProts v).dbg = s.dbg := (rfl)
@[simp] theorem State.setProts_dcWait (s : State) (v : Tbl Prot) : (s.setProts v).dcWait = s.dcWait := (rfl)
@[simp] theorem State.setProts_prcStep (s : State) (v : Tbl Prot) : (s.setProts v).prcStep = s.prcStep := (rfl)
@[simp] theorem State.setProts_prcBlank (s : State) (v : Tbl Prot) : (s.setProts v).prcBlank = s.prcBlank := (rfl)
@[simp] theorem State.setProts_prcHold (s : State) (v : Tbl Prot) : (s.setProts v).prcHold = s.prcHold := (rfl)
@[simp] theorem State.setProts_capWait (s : State) (v : Tbl Prot) : (s.setProts v).capWait = s.capWait := (rfl)
@[simp] theorem State.setProts_capture (s : State) (v : Tbl Prot) : (s.setProts v).capture = s.capture := (rfl)
@[simp] theorem State.setProts_bramDef (s : State) (v : Tbl Prot) : (s.setProts v).bramDef = s.bramDef := (rfl)
@[simp] theorem State.setProts_scrubs (s : State) (v : Tbl Prot) : (s.setProts v).scrubs = s.scrubs := (rfl)
@[simp] theorem State.setProts_scrCopy (s : State) (v : Tbl Prot) : (s.setProts v).scrCopy = s.scrCopy := (rfl)
@[simp] theorem State.setProts_releases (s : State) (v : Tbl Prot) : (s.setProts v).releases = s.releases := (rfl)
@[simp] theorem State.setProts_dieStep (s : State) (v : Tbl Prot) : (s.setProts v).dieStep = s.dieStep := (rfl)
@[simp] theorem State.setProts_clampDef (s : State) (v : Tbl Prot) : (s.setProts v).clampDef = s.clampDef := (rfl)
@[simp] theorem State.setProts_clamps (s : State) (v : Tbl Prot) : (s.setProts v).clamps = s.clamps := (rfl)
@[simp] theorem State.setProts_welds (s : State) (v : Tbl Prot) : (s.setProts v).welds = s.welds := (rfl)
@[simp] theorem State.setProts_lanes (s : State) (v : Tbl Prot) : (s.setProts v).lanes = s.lanes := (rfl)
@[simp] theorem State.setProts_macMode (s : State) (v : Tbl Prot) : (s.setProts v).macMode = s.macMode := (rfl)
@[simp] theorem State.setProts_tod (s : State) (v : Tbl Prot) : (s.setProts v).tod = s.tod := (rfl)
@[simp] theorem State.setProts_lkp (s : State) (v : Tbl Prot) : (s.setProts v).lkp = s.lkp := (rfl)
@[simp] theorem State.setProts_queues (s : State) (v : Tbl Prot) : (s.setProts v).queues = s.queues := (rfl)
@[simp] theorem State.setProts_ports (s : State) (v : Tbl Prot) : (s.setProts v).ports = s.ports := (rfl)
@[simp] theorem State.setProts_pkt (s : State) (v : Tbl Prot) : (s.setProts v).pkt = s.pkt := (rfl)
@[simp] theorem State.setProts_cxl (s : State) (v : Tbl Prot) : (s.setProts v).cxl = s.cxl := (rfl)
@[simp] theorem State.setProts_ddr (s : State) (v : Tbl Prot) : (s.setProts v).ddr = s.ddr := (rfl)
@[simp] theorem State.setProts_regions (s : State) (v : Tbl Prot) : (s.setProts v).regions = s.regions := (rfl)
@[simp] theorem State.setProts_prots (s : State) (v : Tbl Prot) : (s.setProts v).prots = v := (rfl)
@[simp] theorem State.setProts_keyStore (s : State) (v : Tbl Prot) : (s.setProts v).keyStore = s.keyStore := (rfl)
@[simp] theorem State.setProts_rings (s : State) (v : Tbl Prot) : (s.setProts v).rings = s.rings := (rfl)
@[simp] theorem State.setProts_openMem (s : State) (v : Tbl Prot) : (s.setProts v).openMem = s.openMem := (rfl)
@[simp] theorem State.setProts_dcRights (s : State) (v : Tbl Prot) : (s.setProts v).dcRights = s.dcRights := (rfl)
@[simp] theorem State.setProts_clk (s : State) (v : Tbl Prot) : (s.setProts v).clk = s.clk := (rfl)
@[simp] theorem State.setProts_units (s : State) (v : Tbl Prot) : (s.setProts v).units = s.units := (rfl)
@[simp] theorem State.setProts_hearthHit (s : State) (v : Tbl Prot) : (s.setProts v).hearthHit = s.hearthHit := (rfl)
@[simp] theorem State.setKeyStore_pending (s : State) (v : Tbl (BitVec 256)) : (s.setKeyStore v).pending = s.pending := (rfl)
@[simp] theorem State.setKeyStore_regs (s : State) (v : Tbl (BitVec 256)) : (s.setKeyStore v).regs = s.regs := (rfl)
@[simp] theorem State.setKeyStore_mem (s : State) (v : Tbl (BitVec 256)) : (s.setKeyStore v).mem = s.mem := (rfl)
@[simp] theorem State.setKeyStore_poison (s : State) (v : Tbl (BitVec 256)) : (s.setKeyStore v).poison = s.poison := (rfl)
@[simp] theorem State.setKeyStore_fresh (s : State) (v : Tbl (BitVec 256)) : (s.setKeyStore v).fresh = s.fresh := (rfl)
@[simp] theorem State.setKeyStore_answer (s : State) (v : Tbl (BitVec 256)) : (s.setKeyStore v).answer = s.answer := (rfl)
@[simp] theorem State.setKeyStore_answerStatus (s : State) (v : Tbl (BitVec 256)) : (s.setKeyStore v).answerStatus = s.answerStatus := (rfl)
@[simp] theorem State.setKeyStore_book (s : State) (v : Tbl (BitVec 256)) : (s.setKeyStore v).book = s.book := (rfl)
@[simp] theorem State.setKeyStore_mgt (s : State) (v : Tbl (BitVec 256)) : (s.setKeyStore v).mgt = s.mgt := (rfl)
@[simp] theorem State.setKeyStore_fpFifo (s : State) (v : Tbl (BitVec 256)) : (s.setKeyStore v).fpFifo = s.fpFifo := (rfl)
@[simp] theorem State.setKeyStore_evtOnce (s : State) (v : Tbl (BitVec 256)) : (s.setKeyStore v).evtOnce = s.evtOnce := (rfl)
@[simp] theorem State.setKeyStore_cycles (s : State) (v : Tbl (BitVec 256)) : (s.setKeyStore v).cycles = s.cycles := (rfl)
@[simp] theorem State.setKeyStore_pcie (s : State) (v : Tbl (BitVec 256)) : (s.setKeyStore v).pcie = s.pcie := (rfl)
@[simp] theorem State.setKeyStore_sent (s : State) (v : Tbl (BitVec 256)) : (s.setKeyStore v).sent = s.sent := (rfl)
@[simp] theorem State.setKeyStore_bw (s : State) (v : Tbl (BitVec 256)) : (s.setKeyStore v).bw = s.bw := (rfl)
@[simp] theorem State.setKeyStore_pmcLatch (s : State) (v : Tbl (BitVec 256)) : (s.setKeyStore v).pmcLatch = s.pmcLatch := (rfl)
@[simp] theorem State.setKeyStore_cal (s : State) (v : Tbl (BitVec 256)) : (s.setKeyStore v).cal = s.cal := (rfl)
@[simp] theorem State.setKeyStore_cfg (s : State) (v : Tbl (BitVec 256)) : (s.setKeyStore v).cfg = s.cfg := (rfl)
@[simp] theorem State.setKeyStore_tap (s : State) (v : Tbl (BitVec 256)) : (s.setKeyStore v).tap = s.tap := (rfl)
@[simp] theorem State.setKeyStore_pins (s : State) (v : Tbl (BitVec 256)) : (s.setKeyStore v).pins = s.pins := (rfl)
@[simp] theorem State.setKeyStore_frames (s : State) (v : Tbl (BitVec 256)) : (s.setKeyStore v).frames = s.frames := (rfl)
@[simp] theorem State.setKeyStore_clusters (s : State) (v : Tbl (BitVec 256)) : (s.setKeyStore v).clusters = s.clusters := (rfl)
@[simp] theorem State.setKeyStore_ffs (s : State) (v : Tbl (BitVec 256)) : (s.setKeyStore v).ffs = s.ffs := (rfl)
@[simp] theorem State.setKeyStore_relStage (s : State) (v : Tbl (BitVec 256)) : (s.setKeyStore v).relStage = s.relStage := (rfl)
@[simp] theorem State.setKeyStore_frozen (s : State) (v : Tbl (BitVec 256)) : (s.setKeyStore v).frozen = s.frozen := (rfl)
@[simp] theorem State.setKeyStore_bramCfg (s : State) (v : Tbl (BitVec 256)) : (s.setKeyStore v).bramCfg = s.bramCfg := (rfl)
@[simp] theorem State.setKeyStore_bram (s : State) (v : Tbl (BitVec 256)) : (s.setKeyStore v).bram = s.bram := (rfl)
@[simp] theorem State.setKeyStore_bramPorts (s : State) (v : Tbl (BitVec 256)) : (s.setKeyStore v).bramPorts = s.bramPorts := (rfl)
@[simp] theorem State.setKeyStore_multCfg (s : State) (v : Tbl (BitVec 256)) : (s.setKeyStore v).multCfg = s.multCfg := (rfl)
@[simp] theorem State.setKeyStore_mults (s : State) (v : Tbl (BitVec 256)) : (s.setKeyStore v).mults = s.mults := (rfl)
@[simp] theorem State.setKeyStore_railKeep (s : State) (v : Tbl (BitVec 256)) : (s.setKeyStore v).railKeep = s.railKeep := (rfl)
@[simp] theorem State.setKeyStore_chk (s : State) (v : Tbl (BitVec 256)) : (s.setKeyStore v).chk = s.chk := (rfl)
@[simp] theorem State.setKeyStore_eccRaw (s : State) (v : Tbl (BitVec 256)) : (s.setKeyStore v).eccRaw = s.eccRaw := (rfl)
@[simp] theorem State.setKeyStore_eccScrub (s : State) (v : Tbl (BitVec 256)) : (s.setKeyStore v).eccScrub = s.eccScrub := (rfl)
@[simp] theorem State.setKeyStore_tags (s : State) (v : Tbl (BitVec 256)) : (s.setKeyStore v).tags = s.tags := (rfl)
@[simp] theorem State.setKeyStore_xUsed (s : State) (v : Tbl (BitVec 256)) : (s.setKeyStore v).xUsed = s.xUsed := (rfl)
@[simp] theorem State.setKeyStore_xWait (s : State) (v : Tbl (BitVec 256)) : (s.setKeyStore v).xWait = s.xWait := (rfl)
@[simp] theorem State.setKeyStore_xHeld (s : State) (v : Tbl (BitVec 256)) : (s.setKeyStore v).xHeld = s.xHeld := (rfl)
@[simp] theorem State.setKeyStore_routers (s : State) (v : Tbl (BitVec 256)) : (s.setKeyStore v).routers = s.routers := (rfl)
@[simp] theorem State.setKeyStore_portMode (s : State) (v : Tbl (BitVec 256)) : (s.setKeyStore v).portMode = s.portMode := (rfl)
@[simp] theorem State.setKeyStore_portTags (s : State) (v : Tbl (BitVec 256)) : (s.setKeyStore v).portTags = s.portTags := (rfl)
@[simp] theorem State.setKeyStore_portFifo (s : State) (v : Tbl (BitVec 256)) : (s.setKeyStore v).portFifo = s.portFifo := (rfl)
@[simp] theorem State.setKeyStore_dcache (s : State) (v : Tbl (BitVec 256)) : (s.setKeyStore v).dcache = s.dcache := (rfl)
@[simp] theorem State.setKeyStore_dir (s : State) (v : Tbl (BitVec 256)) : (s.setKeyStore v).dir = s.dir := (rfl)
@[simp] theorem State.setKeyStore_dieResets (s : State) (v : Tbl (BitVec 256)) : (s.setKeyStore v).dieResets = s.dieResets := (rfl)
@[simp] theorem State.setKeyStore_homeTxn (s : State) (v : Tbl (BitVec 256)) : (s.setKeyStore v).homeTxn = s.homeTxn := (rfl)
@[simp] theorem State.setKeyStore_cores (s : State) (v : Tbl (BitVec 256)) : (s.setKeyStore v).cores = s.cores := (rfl)
@[simp] theorem State.setKeyStore_tngDone (s : State) (v : Tbl (BitVec 256)) : (s.setKeyStore v).tngDone = s.tngDone := (rfl)
@[simp] theorem State.setKeyStore_fab (s : State) (v : Tbl (BitVec 256)) : (s.setKeyStore v).fab = s.fab := (rfl)
@[simp] theorem State.setKeyStore_net (s : State) (v : Tbl (BitVec 256)) : (s.setKeyStore v).net = s.net := (rfl)
@[simp] theorem State.setKeyStore_rtrShare (s : State) (v : Tbl (BitVec 256)) : (s.setKeyStore v).rtrShare = s.rtrShare := (rfl)
@[simp] theorem State.setKeyStore_dbg (s : State) (v : Tbl (BitVec 256)) : (s.setKeyStore v).dbg = s.dbg := (rfl)
@[simp] theorem State.setKeyStore_dcWait (s : State) (v : Tbl (BitVec 256)) : (s.setKeyStore v).dcWait = s.dcWait := (rfl)
@[simp] theorem State.setKeyStore_prcStep (s : State) (v : Tbl (BitVec 256)) : (s.setKeyStore v).prcStep = s.prcStep := (rfl)
@[simp] theorem State.setKeyStore_prcBlank (s : State) (v : Tbl (BitVec 256)) : (s.setKeyStore v).prcBlank = s.prcBlank := (rfl)
@[simp] theorem State.setKeyStore_prcHold (s : State) (v : Tbl (BitVec 256)) : (s.setKeyStore v).prcHold = s.prcHold := (rfl)
@[simp] theorem State.setKeyStore_capWait (s : State) (v : Tbl (BitVec 256)) : (s.setKeyStore v).capWait = s.capWait := (rfl)
@[simp] theorem State.setKeyStore_capture (s : State) (v : Tbl (BitVec 256)) : (s.setKeyStore v).capture = s.capture := (rfl)
@[simp] theorem State.setKeyStore_bramDef (s : State) (v : Tbl (BitVec 256)) : (s.setKeyStore v).bramDef = s.bramDef := (rfl)
@[simp] theorem State.setKeyStore_scrubs (s : State) (v : Tbl (BitVec 256)) : (s.setKeyStore v).scrubs = s.scrubs := (rfl)
@[simp] theorem State.setKeyStore_scrCopy (s : State) (v : Tbl (BitVec 256)) : (s.setKeyStore v).scrCopy = s.scrCopy := (rfl)
@[simp] theorem State.setKeyStore_releases (s : State) (v : Tbl (BitVec 256)) : (s.setKeyStore v).releases = s.releases := (rfl)
@[simp] theorem State.setKeyStore_dieStep (s : State) (v : Tbl (BitVec 256)) : (s.setKeyStore v).dieStep = s.dieStep := (rfl)
@[simp] theorem State.setKeyStore_clampDef (s : State) (v : Tbl (BitVec 256)) : (s.setKeyStore v).clampDef = s.clampDef := (rfl)
@[simp] theorem State.setKeyStore_clamps (s : State) (v : Tbl (BitVec 256)) : (s.setKeyStore v).clamps = s.clamps := (rfl)
@[simp] theorem State.setKeyStore_welds (s : State) (v : Tbl (BitVec 256)) : (s.setKeyStore v).welds = s.welds := (rfl)
@[simp] theorem State.setKeyStore_lanes (s : State) (v : Tbl (BitVec 256)) : (s.setKeyStore v).lanes = s.lanes := (rfl)
@[simp] theorem State.setKeyStore_macMode (s : State) (v : Tbl (BitVec 256)) : (s.setKeyStore v).macMode = s.macMode := (rfl)
@[simp] theorem State.setKeyStore_tod (s : State) (v : Tbl (BitVec 256)) : (s.setKeyStore v).tod = s.tod := (rfl)
@[simp] theorem State.setKeyStore_lkp (s : State) (v : Tbl (BitVec 256)) : (s.setKeyStore v).lkp = s.lkp := (rfl)
@[simp] theorem State.setKeyStore_queues (s : State) (v : Tbl (BitVec 256)) : (s.setKeyStore v).queues = s.queues := (rfl)
@[simp] theorem State.setKeyStore_ports (s : State) (v : Tbl (BitVec 256)) : (s.setKeyStore v).ports = s.ports := (rfl)
@[simp] theorem State.setKeyStore_pkt (s : State) (v : Tbl (BitVec 256)) : (s.setKeyStore v).pkt = s.pkt := (rfl)
@[simp] theorem State.setKeyStore_cxl (s : State) (v : Tbl (BitVec 256)) : (s.setKeyStore v).cxl = s.cxl := (rfl)
@[simp] theorem State.setKeyStore_ddr (s : State) (v : Tbl (BitVec 256)) : (s.setKeyStore v).ddr = s.ddr := (rfl)
@[simp] theorem State.setKeyStore_regions (s : State) (v : Tbl (BitVec 256)) : (s.setKeyStore v).regions = s.regions := (rfl)
@[simp] theorem State.setKeyStore_prots (s : State) (v : Tbl (BitVec 256)) : (s.setKeyStore v).prots = s.prots := (rfl)
@[simp] theorem State.setKeyStore_keyStore (s : State) (v : Tbl (BitVec 256)) : (s.setKeyStore v).keyStore = v := (rfl)
@[simp] theorem State.setKeyStore_rings (s : State) (v : Tbl (BitVec 256)) : (s.setKeyStore v).rings = s.rings := (rfl)
@[simp] theorem State.setKeyStore_openMem (s : State) (v : Tbl (BitVec 256)) : (s.setKeyStore v).openMem = s.openMem := (rfl)
@[simp] theorem State.setKeyStore_dcRights (s : State) (v : Tbl (BitVec 256)) : (s.setKeyStore v).dcRights = s.dcRights := (rfl)
@[simp] theorem State.setKeyStore_clk (s : State) (v : Tbl (BitVec 256)) : (s.setKeyStore v).clk = s.clk := (rfl)
@[simp] theorem State.setKeyStore_units (s : State) (v : Tbl (BitVec 256)) : (s.setKeyStore v).units = s.units := (rfl)
@[simp] theorem State.setKeyStore_hearthHit (s : State) (v : Tbl (BitVec 256)) : (s.setKeyStore v).hearthHit = s.hearthHit := (rfl)
@[simp] theorem State.setRings_pending (s : State) (v : Tbl HostRing) : (s.setRings v).pending = s.pending := (rfl)
@[simp] theorem State.setRings_regs (s : State) (v : Tbl HostRing) : (s.setRings v).regs = s.regs := (rfl)
@[simp] theorem State.setRings_mem (s : State) (v : Tbl HostRing) : (s.setRings v).mem = s.mem := (rfl)
@[simp] theorem State.setRings_poison (s : State) (v : Tbl HostRing) : (s.setRings v).poison = s.poison := (rfl)
@[simp] theorem State.setRings_fresh (s : State) (v : Tbl HostRing) : (s.setRings v).fresh = s.fresh := (rfl)
@[simp] theorem State.setRings_answer (s : State) (v : Tbl HostRing) : (s.setRings v).answer = s.answer := (rfl)
@[simp] theorem State.setRings_answerStatus (s : State) (v : Tbl HostRing) : (s.setRings v).answerStatus = s.answerStatus := (rfl)
@[simp] theorem State.setRings_book (s : State) (v : Tbl HostRing) : (s.setRings v).book = s.book := (rfl)
@[simp] theorem State.setRings_mgt (s : State) (v : Tbl HostRing) : (s.setRings v).mgt = s.mgt := (rfl)
@[simp] theorem State.setRings_fpFifo (s : State) (v : Tbl HostRing) : (s.setRings v).fpFifo = s.fpFifo := (rfl)
@[simp] theorem State.setRings_evtOnce (s : State) (v : Tbl HostRing) : (s.setRings v).evtOnce = s.evtOnce := (rfl)
@[simp] theorem State.setRings_cycles (s : State) (v : Tbl HostRing) : (s.setRings v).cycles = s.cycles := (rfl)
@[simp] theorem State.setRings_pcie (s : State) (v : Tbl HostRing) : (s.setRings v).pcie = s.pcie := (rfl)
@[simp] theorem State.setRings_sent (s : State) (v : Tbl HostRing) : (s.setRings v).sent = s.sent := (rfl)
@[simp] theorem State.setRings_bw (s : State) (v : Tbl HostRing) : (s.setRings v).bw = s.bw := (rfl)
@[simp] theorem State.setRings_pmcLatch (s : State) (v : Tbl HostRing) : (s.setRings v).pmcLatch = s.pmcLatch := (rfl)
@[simp] theorem State.setRings_cal (s : State) (v : Tbl HostRing) : (s.setRings v).cal = s.cal := (rfl)
@[simp] theorem State.setRings_cfg (s : State) (v : Tbl HostRing) : (s.setRings v).cfg = s.cfg := (rfl)
@[simp] theorem State.setRings_tap (s : State) (v : Tbl HostRing) : (s.setRings v).tap = s.tap := (rfl)
@[simp] theorem State.setRings_pins (s : State) (v : Tbl HostRing) : (s.setRings v).pins = s.pins := (rfl)
@[simp] theorem State.setRings_frames (s : State) (v : Tbl HostRing) : (s.setRings v).frames = s.frames := (rfl)
@[simp] theorem State.setRings_clusters (s : State) (v : Tbl HostRing) : (s.setRings v).clusters = s.clusters := (rfl)
@[simp] theorem State.setRings_ffs (s : State) (v : Tbl HostRing) : (s.setRings v).ffs = s.ffs := (rfl)
@[simp] theorem State.setRings_relStage (s : State) (v : Tbl HostRing) : (s.setRings v).relStage = s.relStage := (rfl)
@[simp] theorem State.setRings_frozen (s : State) (v : Tbl HostRing) : (s.setRings v).frozen = s.frozen := (rfl)
@[simp] theorem State.setRings_bramCfg (s : State) (v : Tbl HostRing) : (s.setRings v).bramCfg = s.bramCfg := (rfl)
@[simp] theorem State.setRings_bram (s : State) (v : Tbl HostRing) : (s.setRings v).bram = s.bram := (rfl)
@[simp] theorem State.setRings_bramPorts (s : State) (v : Tbl HostRing) : (s.setRings v).bramPorts = s.bramPorts := (rfl)
@[simp] theorem State.setRings_multCfg (s : State) (v : Tbl HostRing) : (s.setRings v).multCfg = s.multCfg := (rfl)
@[simp] theorem State.setRings_mults (s : State) (v : Tbl HostRing) : (s.setRings v).mults = s.mults := (rfl)
@[simp] theorem State.setRings_railKeep (s : State) (v : Tbl HostRing) : (s.setRings v).railKeep = s.railKeep := (rfl)
@[simp] theorem State.setRings_chk (s : State) (v : Tbl HostRing) : (s.setRings v).chk = s.chk := (rfl)
@[simp] theorem State.setRings_eccRaw (s : State) (v : Tbl HostRing) : (s.setRings v).eccRaw = s.eccRaw := (rfl)
@[simp] theorem State.setRings_eccScrub (s : State) (v : Tbl HostRing) : (s.setRings v).eccScrub = s.eccScrub := (rfl)
@[simp] theorem State.setRings_tags (s : State) (v : Tbl HostRing) : (s.setRings v).tags = s.tags := (rfl)
@[simp] theorem State.setRings_xUsed (s : State) (v : Tbl HostRing) : (s.setRings v).xUsed = s.xUsed := (rfl)
@[simp] theorem State.setRings_xWait (s : State) (v : Tbl HostRing) : (s.setRings v).xWait = s.xWait := (rfl)
@[simp] theorem State.setRings_xHeld (s : State) (v : Tbl HostRing) : (s.setRings v).xHeld = s.xHeld := (rfl)
@[simp] theorem State.setRings_routers (s : State) (v : Tbl HostRing) : (s.setRings v).routers = s.routers := (rfl)
@[simp] theorem State.setRings_portMode (s : State) (v : Tbl HostRing) : (s.setRings v).portMode = s.portMode := (rfl)
@[simp] theorem State.setRings_portTags (s : State) (v : Tbl HostRing) : (s.setRings v).portTags = s.portTags := (rfl)
@[simp] theorem State.setRings_portFifo (s : State) (v : Tbl HostRing) : (s.setRings v).portFifo = s.portFifo := (rfl)
@[simp] theorem State.setRings_dcache (s : State) (v : Tbl HostRing) : (s.setRings v).dcache = s.dcache := (rfl)
@[simp] theorem State.setRings_dir (s : State) (v : Tbl HostRing) : (s.setRings v).dir = s.dir := (rfl)
@[simp] theorem State.setRings_dieResets (s : State) (v : Tbl HostRing) : (s.setRings v).dieResets = s.dieResets := (rfl)
@[simp] theorem State.setRings_homeTxn (s : State) (v : Tbl HostRing) : (s.setRings v).homeTxn = s.homeTxn := (rfl)
@[simp] theorem State.setRings_cores (s : State) (v : Tbl HostRing) : (s.setRings v).cores = s.cores := (rfl)
@[simp] theorem State.setRings_tngDone (s : State) (v : Tbl HostRing) : (s.setRings v).tngDone = s.tngDone := (rfl)
@[simp] theorem State.setRings_fab (s : State) (v : Tbl HostRing) : (s.setRings v).fab = s.fab := (rfl)
@[simp] theorem State.setRings_net (s : State) (v : Tbl HostRing) : (s.setRings v).net = s.net := (rfl)
@[simp] theorem State.setRings_rtrShare (s : State) (v : Tbl HostRing) : (s.setRings v).rtrShare = s.rtrShare := (rfl)
@[simp] theorem State.setRings_dbg (s : State) (v : Tbl HostRing) : (s.setRings v).dbg = s.dbg := (rfl)
@[simp] theorem State.setRings_dcWait (s : State) (v : Tbl HostRing) : (s.setRings v).dcWait = s.dcWait := (rfl)
@[simp] theorem State.setRings_prcStep (s : State) (v : Tbl HostRing) : (s.setRings v).prcStep = s.prcStep := (rfl)
@[simp] theorem State.setRings_prcBlank (s : State) (v : Tbl HostRing) : (s.setRings v).prcBlank = s.prcBlank := (rfl)
@[simp] theorem State.setRings_prcHold (s : State) (v : Tbl HostRing) : (s.setRings v).prcHold = s.prcHold := (rfl)
@[simp] theorem State.setRings_capWait (s : State) (v : Tbl HostRing) : (s.setRings v).capWait = s.capWait := (rfl)
@[simp] theorem State.setRings_capture (s : State) (v : Tbl HostRing) : (s.setRings v).capture = s.capture := (rfl)
@[simp] theorem State.setRings_bramDef (s : State) (v : Tbl HostRing) : (s.setRings v).bramDef = s.bramDef := (rfl)
@[simp] theorem State.setRings_scrubs (s : State) (v : Tbl HostRing) : (s.setRings v).scrubs = s.scrubs := (rfl)
@[simp] theorem State.setRings_scrCopy (s : State) (v : Tbl HostRing) : (s.setRings v).scrCopy = s.scrCopy := (rfl)
@[simp] theorem State.setRings_releases (s : State) (v : Tbl HostRing) : (s.setRings v).releases = s.releases := (rfl)
@[simp] theorem State.setRings_dieStep (s : State) (v : Tbl HostRing) : (s.setRings v).dieStep = s.dieStep := (rfl)
@[simp] theorem State.setRings_clampDef (s : State) (v : Tbl HostRing) : (s.setRings v).clampDef = s.clampDef := (rfl)
@[simp] theorem State.setRings_clamps (s : State) (v : Tbl HostRing) : (s.setRings v).clamps = s.clamps := (rfl)
@[simp] theorem State.setRings_welds (s : State) (v : Tbl HostRing) : (s.setRings v).welds = s.welds := (rfl)
@[simp] theorem State.setRings_lanes (s : State) (v : Tbl HostRing) : (s.setRings v).lanes = s.lanes := (rfl)
@[simp] theorem State.setRings_macMode (s : State) (v : Tbl HostRing) : (s.setRings v).macMode = s.macMode := (rfl)
@[simp] theorem State.setRings_tod (s : State) (v : Tbl HostRing) : (s.setRings v).tod = s.tod := (rfl)
@[simp] theorem State.setRings_lkp (s : State) (v : Tbl HostRing) : (s.setRings v).lkp = s.lkp := (rfl)
@[simp] theorem State.setRings_queues (s : State) (v : Tbl HostRing) : (s.setRings v).queues = s.queues := (rfl)
@[simp] theorem State.setRings_ports (s : State) (v : Tbl HostRing) : (s.setRings v).ports = s.ports := (rfl)
@[simp] theorem State.setRings_pkt (s : State) (v : Tbl HostRing) : (s.setRings v).pkt = s.pkt := (rfl)
@[simp] theorem State.setRings_cxl (s : State) (v : Tbl HostRing) : (s.setRings v).cxl = s.cxl := (rfl)
@[simp] theorem State.setRings_ddr (s : State) (v : Tbl HostRing) : (s.setRings v).ddr = s.ddr := (rfl)
@[simp] theorem State.setRings_regions (s : State) (v : Tbl HostRing) : (s.setRings v).regions = s.regions := (rfl)
@[simp] theorem State.setRings_prots (s : State) (v : Tbl HostRing) : (s.setRings v).prots = s.prots := (rfl)
@[simp] theorem State.setRings_keyStore (s : State) (v : Tbl HostRing) : (s.setRings v).keyStore = s.keyStore := (rfl)
@[simp] theorem State.setRings_rings (s : State) (v : Tbl HostRing) : (s.setRings v).rings = v := (rfl)
@[simp] theorem State.setRings_openMem (s : State) (v : Tbl HostRing) : (s.setRings v).openMem = s.openMem := (rfl)
@[simp] theorem State.setRings_dcRights (s : State) (v : Tbl HostRing) : (s.setRings v).dcRights = s.dcRights := (rfl)
@[simp] theorem State.setRings_clk (s : State) (v : Tbl HostRing) : (s.setRings v).clk = s.clk := (rfl)
@[simp] theorem State.setRings_units (s : State) (v : Tbl HostRing) : (s.setRings v).units = s.units := (rfl)
@[simp] theorem State.setRings_hearthHit (s : State) (v : Tbl HostRing) : (s.setRings v).hearthHit = s.hearthHit := (rfl)
@[simp] theorem State.setOpenMem_pending (s : State) (v : List (Nat × Nat)) : (s.setOpenMem v).pending = s.pending := (rfl)
@[simp] theorem State.setOpenMem_regs (s : State) (v : List (Nat × Nat)) : (s.setOpenMem v).regs = s.regs := (rfl)
@[simp] theorem State.setOpenMem_mem (s : State) (v : List (Nat × Nat)) : (s.setOpenMem v).mem = s.mem := (rfl)
@[simp] theorem State.setOpenMem_poison (s : State) (v : List (Nat × Nat)) : (s.setOpenMem v).poison = s.poison := (rfl)
@[simp] theorem State.setOpenMem_fresh (s : State) (v : List (Nat × Nat)) : (s.setOpenMem v).fresh = s.fresh := (rfl)
@[simp] theorem State.setOpenMem_answer (s : State) (v : List (Nat × Nat)) : (s.setOpenMem v).answer = s.answer := (rfl)
@[simp] theorem State.setOpenMem_answerStatus (s : State) (v : List (Nat × Nat)) : (s.setOpenMem v).answerStatus = s.answerStatus := (rfl)
@[simp] theorem State.setOpenMem_book (s : State) (v : List (Nat × Nat)) : (s.setOpenMem v).book = s.book := (rfl)
@[simp] theorem State.setOpenMem_mgt (s : State) (v : List (Nat × Nat)) : (s.setOpenMem v).mgt = s.mgt := (rfl)
@[simp] theorem State.setOpenMem_fpFifo (s : State) (v : List (Nat × Nat)) : (s.setOpenMem v).fpFifo = s.fpFifo := (rfl)
@[simp] theorem State.setOpenMem_evtOnce (s : State) (v : List (Nat × Nat)) : (s.setOpenMem v).evtOnce = s.evtOnce := (rfl)
@[simp] theorem State.setOpenMem_cycles (s : State) (v : List (Nat × Nat)) : (s.setOpenMem v).cycles = s.cycles := (rfl)
@[simp] theorem State.setOpenMem_pcie (s : State) (v : List (Nat × Nat)) : (s.setOpenMem v).pcie = s.pcie := (rfl)
@[simp] theorem State.setOpenMem_sent (s : State) (v : List (Nat × Nat)) : (s.setOpenMem v).sent = s.sent := (rfl)
@[simp] theorem State.setOpenMem_bw (s : State) (v : List (Nat × Nat)) : (s.setOpenMem v).bw = s.bw := (rfl)
@[simp] theorem State.setOpenMem_pmcLatch (s : State) (v : List (Nat × Nat)) : (s.setOpenMem v).pmcLatch = s.pmcLatch := (rfl)
@[simp] theorem State.setOpenMem_cal (s : State) (v : List (Nat × Nat)) : (s.setOpenMem v).cal = s.cal := (rfl)
@[simp] theorem State.setOpenMem_cfg (s : State) (v : List (Nat × Nat)) : (s.setOpenMem v).cfg = s.cfg := (rfl)
@[simp] theorem State.setOpenMem_tap (s : State) (v : List (Nat × Nat)) : (s.setOpenMem v).tap = s.tap := (rfl)
@[simp] theorem State.setOpenMem_pins (s : State) (v : List (Nat × Nat)) : (s.setOpenMem v).pins = s.pins := (rfl)
@[simp] theorem State.setOpenMem_frames (s : State) (v : List (Nat × Nat)) : (s.setOpenMem v).frames = s.frames := (rfl)
@[simp] theorem State.setOpenMem_clusters (s : State) (v : List (Nat × Nat)) : (s.setOpenMem v).clusters = s.clusters := (rfl)
@[simp] theorem State.setOpenMem_ffs (s : State) (v : List (Nat × Nat)) : (s.setOpenMem v).ffs = s.ffs := (rfl)
@[simp] theorem State.setOpenMem_relStage (s : State) (v : List (Nat × Nat)) : (s.setOpenMem v).relStage = s.relStage := (rfl)
@[simp] theorem State.setOpenMem_frozen (s : State) (v : List (Nat × Nat)) : (s.setOpenMem v).frozen = s.frozen := (rfl)
@[simp] theorem State.setOpenMem_bramCfg (s : State) (v : List (Nat × Nat)) : (s.setOpenMem v).bramCfg = s.bramCfg := (rfl)
@[simp] theorem State.setOpenMem_bram (s : State) (v : List (Nat × Nat)) : (s.setOpenMem v).bram = s.bram := (rfl)
@[simp] theorem State.setOpenMem_bramPorts (s : State) (v : List (Nat × Nat)) : (s.setOpenMem v).bramPorts = s.bramPorts := (rfl)
@[simp] theorem State.setOpenMem_multCfg (s : State) (v : List (Nat × Nat)) : (s.setOpenMem v).multCfg = s.multCfg := (rfl)
@[simp] theorem State.setOpenMem_mults (s : State) (v : List (Nat × Nat)) : (s.setOpenMem v).mults = s.mults := (rfl)
@[simp] theorem State.setOpenMem_railKeep (s : State) (v : List (Nat × Nat)) : (s.setOpenMem v).railKeep = s.railKeep := (rfl)
@[simp] theorem State.setOpenMem_chk (s : State) (v : List (Nat × Nat)) : (s.setOpenMem v).chk = s.chk := (rfl)
@[simp] theorem State.setOpenMem_eccRaw (s : State) (v : List (Nat × Nat)) : (s.setOpenMem v).eccRaw = s.eccRaw := (rfl)
@[simp] theorem State.setOpenMem_eccScrub (s : State) (v : List (Nat × Nat)) : (s.setOpenMem v).eccScrub = s.eccScrub := (rfl)
@[simp] theorem State.setOpenMem_tags (s : State) (v : List (Nat × Nat)) : (s.setOpenMem v).tags = s.tags := (rfl)
@[simp] theorem State.setOpenMem_xUsed (s : State) (v : List (Nat × Nat)) : (s.setOpenMem v).xUsed = s.xUsed := (rfl)
@[simp] theorem State.setOpenMem_xWait (s : State) (v : List (Nat × Nat)) : (s.setOpenMem v).xWait = s.xWait := (rfl)
@[simp] theorem State.setOpenMem_xHeld (s : State) (v : List (Nat × Nat)) : (s.setOpenMem v).xHeld = s.xHeld := (rfl)
@[simp] theorem State.setOpenMem_routers (s : State) (v : List (Nat × Nat)) : (s.setOpenMem v).routers = s.routers := (rfl)
@[simp] theorem State.setOpenMem_portMode (s : State) (v : List (Nat × Nat)) : (s.setOpenMem v).portMode = s.portMode := (rfl)
@[simp] theorem State.setOpenMem_portTags (s : State) (v : List (Nat × Nat)) : (s.setOpenMem v).portTags = s.portTags := (rfl)
@[simp] theorem State.setOpenMem_portFifo (s : State) (v : List (Nat × Nat)) : (s.setOpenMem v).portFifo = s.portFifo := (rfl)
@[simp] theorem State.setOpenMem_dcache (s : State) (v : List (Nat × Nat)) : (s.setOpenMem v).dcache = s.dcache := (rfl)
@[simp] theorem State.setOpenMem_dir (s : State) (v : List (Nat × Nat)) : (s.setOpenMem v).dir = s.dir := (rfl)
@[simp] theorem State.setOpenMem_dieResets (s : State) (v : List (Nat × Nat)) : (s.setOpenMem v).dieResets = s.dieResets := (rfl)
@[simp] theorem State.setOpenMem_homeTxn (s : State) (v : List (Nat × Nat)) : (s.setOpenMem v).homeTxn = s.homeTxn := (rfl)
@[simp] theorem State.setOpenMem_cores (s : State) (v : List (Nat × Nat)) : (s.setOpenMem v).cores = s.cores := (rfl)
@[simp] theorem State.setOpenMem_tngDone (s : State) (v : List (Nat × Nat)) : (s.setOpenMem v).tngDone = s.tngDone := (rfl)
@[simp] theorem State.setOpenMem_fab (s : State) (v : List (Nat × Nat)) : (s.setOpenMem v).fab = s.fab := (rfl)
@[simp] theorem State.setOpenMem_net (s : State) (v : List (Nat × Nat)) : (s.setOpenMem v).net = s.net := (rfl)
@[simp] theorem State.setOpenMem_rtrShare (s : State) (v : List (Nat × Nat)) : (s.setOpenMem v).rtrShare = s.rtrShare := (rfl)
@[simp] theorem State.setOpenMem_dbg (s : State) (v : List (Nat × Nat)) : (s.setOpenMem v).dbg = s.dbg := (rfl)
@[simp] theorem State.setOpenMem_dcWait (s : State) (v : List (Nat × Nat)) : (s.setOpenMem v).dcWait = s.dcWait := (rfl)
@[simp] theorem State.setOpenMem_prcStep (s : State) (v : List (Nat × Nat)) : (s.setOpenMem v).prcStep = s.prcStep := (rfl)
@[simp] theorem State.setOpenMem_prcBlank (s : State) (v : List (Nat × Nat)) : (s.setOpenMem v).prcBlank = s.prcBlank := (rfl)
@[simp] theorem State.setOpenMem_prcHold (s : State) (v : List (Nat × Nat)) : (s.setOpenMem v).prcHold = s.prcHold := (rfl)
@[simp] theorem State.setOpenMem_capWait (s : State) (v : List (Nat × Nat)) : (s.setOpenMem v).capWait = s.capWait := (rfl)
@[simp] theorem State.setOpenMem_capture (s : State) (v : List (Nat × Nat)) : (s.setOpenMem v).capture = s.capture := (rfl)
@[simp] theorem State.setOpenMem_bramDef (s : State) (v : List (Nat × Nat)) : (s.setOpenMem v).bramDef = s.bramDef := (rfl)
@[simp] theorem State.setOpenMem_scrubs (s : State) (v : List (Nat × Nat)) : (s.setOpenMem v).scrubs = s.scrubs := (rfl)
@[simp] theorem State.setOpenMem_scrCopy (s : State) (v : List (Nat × Nat)) : (s.setOpenMem v).scrCopy = s.scrCopy := (rfl)
@[simp] theorem State.setOpenMem_releases (s : State) (v : List (Nat × Nat)) : (s.setOpenMem v).releases = s.releases := (rfl)
@[simp] theorem State.setOpenMem_dieStep (s : State) (v : List (Nat × Nat)) : (s.setOpenMem v).dieStep = s.dieStep := (rfl)
@[simp] theorem State.setOpenMem_clampDef (s : State) (v : List (Nat × Nat)) : (s.setOpenMem v).clampDef = s.clampDef := (rfl)
@[simp] theorem State.setOpenMem_clamps (s : State) (v : List (Nat × Nat)) : (s.setOpenMem v).clamps = s.clamps := (rfl)
@[simp] theorem State.setOpenMem_welds (s : State) (v : List (Nat × Nat)) : (s.setOpenMem v).welds = s.welds := (rfl)
@[simp] theorem State.setOpenMem_lanes (s : State) (v : List (Nat × Nat)) : (s.setOpenMem v).lanes = s.lanes := (rfl)
@[simp] theorem State.setOpenMem_macMode (s : State) (v : List (Nat × Nat)) : (s.setOpenMem v).macMode = s.macMode := (rfl)
@[simp] theorem State.setOpenMem_tod (s : State) (v : List (Nat × Nat)) : (s.setOpenMem v).tod = s.tod := (rfl)
@[simp] theorem State.setOpenMem_lkp (s : State) (v : List (Nat × Nat)) : (s.setOpenMem v).lkp = s.lkp := (rfl)
@[simp] theorem State.setOpenMem_queues (s : State) (v : List (Nat × Nat)) : (s.setOpenMem v).queues = s.queues := (rfl)
@[simp] theorem State.setOpenMem_ports (s : State) (v : List (Nat × Nat)) : (s.setOpenMem v).ports = s.ports := (rfl)
@[simp] theorem State.setOpenMem_pkt (s : State) (v : List (Nat × Nat)) : (s.setOpenMem v).pkt = s.pkt := (rfl)
@[simp] theorem State.setOpenMem_cxl (s : State) (v : List (Nat × Nat)) : (s.setOpenMem v).cxl = s.cxl := (rfl)
@[simp] theorem State.setOpenMem_ddr (s : State) (v : List (Nat × Nat)) : (s.setOpenMem v).ddr = s.ddr := (rfl)
@[simp] theorem State.setOpenMem_regions (s : State) (v : List (Nat × Nat)) : (s.setOpenMem v).regions = s.regions := (rfl)
@[simp] theorem State.setOpenMem_prots (s : State) (v : List (Nat × Nat)) : (s.setOpenMem v).prots = s.prots := (rfl)
@[simp] theorem State.setOpenMem_keyStore (s : State) (v : List (Nat × Nat)) : (s.setOpenMem v).keyStore = s.keyStore := (rfl)
@[simp] theorem State.setOpenMem_rings (s : State) (v : List (Nat × Nat)) : (s.setOpenMem v).rings = s.rings := (rfl)
@[simp] theorem State.setOpenMem_openMem (s : State) (v : List (Nat × Nat)) : (s.setOpenMem v).openMem = v := (rfl)
@[simp] theorem State.setOpenMem_dcRights (s : State) (v : List (Nat × Nat)) : (s.setOpenMem v).dcRights = s.dcRights := (rfl)
@[simp] theorem State.setOpenMem_clk (s : State) (v : List (Nat × Nat)) : (s.setOpenMem v).clk = s.clk := (rfl)
@[simp] theorem State.setOpenMem_units (s : State) (v : List (Nat × Nat)) : (s.setOpenMem v).units = s.units := (rfl)
@[simp] theorem State.setOpenMem_hearthHit (s : State) (v : List (Nat × Nat)) : (s.setOpenMem v).hearthHit = s.hearthHit := (rfl)
@[simp] theorem State.setDcRights_pending (s : State) (v : Tbl Nat) : (s.setDcRights v).pending = s.pending := (rfl)
@[simp] theorem State.setDcRights_regs (s : State) (v : Tbl Nat) : (s.setDcRights v).regs = s.regs := (rfl)
@[simp] theorem State.setDcRights_mem (s : State) (v : Tbl Nat) : (s.setDcRights v).mem = s.mem := (rfl)
@[simp] theorem State.setDcRights_poison (s : State) (v : Tbl Nat) : (s.setDcRights v).poison = s.poison := (rfl)
@[simp] theorem State.setDcRights_fresh (s : State) (v : Tbl Nat) : (s.setDcRights v).fresh = s.fresh := (rfl)
@[simp] theorem State.setDcRights_answer (s : State) (v : Tbl Nat) : (s.setDcRights v).answer = s.answer := (rfl)
@[simp] theorem State.setDcRights_answerStatus (s : State) (v : Tbl Nat) : (s.setDcRights v).answerStatus = s.answerStatus := (rfl)
@[simp] theorem State.setDcRights_book (s : State) (v : Tbl Nat) : (s.setDcRights v).book = s.book := (rfl)
@[simp] theorem State.setDcRights_mgt (s : State) (v : Tbl Nat) : (s.setDcRights v).mgt = s.mgt := (rfl)
@[simp] theorem State.setDcRights_fpFifo (s : State) (v : Tbl Nat) : (s.setDcRights v).fpFifo = s.fpFifo := (rfl)
@[simp] theorem State.setDcRights_evtOnce (s : State) (v : Tbl Nat) : (s.setDcRights v).evtOnce = s.evtOnce := (rfl)
@[simp] theorem State.setDcRights_cycles (s : State) (v : Tbl Nat) : (s.setDcRights v).cycles = s.cycles := (rfl)
@[simp] theorem State.setDcRights_pcie (s : State) (v : Tbl Nat) : (s.setDcRights v).pcie = s.pcie := (rfl)
@[simp] theorem State.setDcRights_sent (s : State) (v : Tbl Nat) : (s.setDcRights v).sent = s.sent := (rfl)
@[simp] theorem State.setDcRights_bw (s : State) (v : Tbl Nat) : (s.setDcRights v).bw = s.bw := (rfl)
@[simp] theorem State.setDcRights_pmcLatch (s : State) (v : Tbl Nat) : (s.setDcRights v).pmcLatch = s.pmcLatch := (rfl)
@[simp] theorem State.setDcRights_cal (s : State) (v : Tbl Nat) : (s.setDcRights v).cal = s.cal := (rfl)
@[simp] theorem State.setDcRights_cfg (s : State) (v : Tbl Nat) : (s.setDcRights v).cfg = s.cfg := (rfl)
@[simp] theorem State.setDcRights_tap (s : State) (v : Tbl Nat) : (s.setDcRights v).tap = s.tap := (rfl)
@[simp] theorem State.setDcRights_pins (s : State) (v : Tbl Nat) : (s.setDcRights v).pins = s.pins := (rfl)
@[simp] theorem State.setDcRights_frames (s : State) (v : Tbl Nat) : (s.setDcRights v).frames = s.frames := (rfl)
@[simp] theorem State.setDcRights_clusters (s : State) (v : Tbl Nat) : (s.setDcRights v).clusters = s.clusters := (rfl)
@[simp] theorem State.setDcRights_ffs (s : State) (v : Tbl Nat) : (s.setDcRights v).ffs = s.ffs := (rfl)
@[simp] theorem State.setDcRights_relStage (s : State) (v : Tbl Nat) : (s.setDcRights v).relStage = s.relStage := (rfl)
@[simp] theorem State.setDcRights_frozen (s : State) (v : Tbl Nat) : (s.setDcRights v).frozen = s.frozen := (rfl)
@[simp] theorem State.setDcRights_bramCfg (s : State) (v : Tbl Nat) : (s.setDcRights v).bramCfg = s.bramCfg := (rfl)
@[simp] theorem State.setDcRights_bram (s : State) (v : Tbl Nat) : (s.setDcRights v).bram = s.bram := (rfl)
@[simp] theorem State.setDcRights_bramPorts (s : State) (v : Tbl Nat) : (s.setDcRights v).bramPorts = s.bramPorts := (rfl)
@[simp] theorem State.setDcRights_multCfg (s : State) (v : Tbl Nat) : (s.setDcRights v).multCfg = s.multCfg := (rfl)
@[simp] theorem State.setDcRights_mults (s : State) (v : Tbl Nat) : (s.setDcRights v).mults = s.mults := (rfl)
@[simp] theorem State.setDcRights_railKeep (s : State) (v : Tbl Nat) : (s.setDcRights v).railKeep = s.railKeep := (rfl)
@[simp] theorem State.setDcRights_chk (s : State) (v : Tbl Nat) : (s.setDcRights v).chk = s.chk := (rfl)
@[simp] theorem State.setDcRights_eccRaw (s : State) (v : Tbl Nat) : (s.setDcRights v).eccRaw = s.eccRaw := (rfl)
@[simp] theorem State.setDcRights_eccScrub (s : State) (v : Tbl Nat) : (s.setDcRights v).eccScrub = s.eccScrub := (rfl)
@[simp] theorem State.setDcRights_tags (s : State) (v : Tbl Nat) : (s.setDcRights v).tags = s.tags := (rfl)
@[simp] theorem State.setDcRights_xUsed (s : State) (v : Tbl Nat) : (s.setDcRights v).xUsed = s.xUsed := (rfl)
@[simp] theorem State.setDcRights_xWait (s : State) (v : Tbl Nat) : (s.setDcRights v).xWait = s.xWait := (rfl)
@[simp] theorem State.setDcRights_xHeld (s : State) (v : Tbl Nat) : (s.setDcRights v).xHeld = s.xHeld := (rfl)
@[simp] theorem State.setDcRights_routers (s : State) (v : Tbl Nat) : (s.setDcRights v).routers = s.routers := (rfl)
@[simp] theorem State.setDcRights_portMode (s : State) (v : Tbl Nat) : (s.setDcRights v).portMode = s.portMode := (rfl)
@[simp] theorem State.setDcRights_portTags (s : State) (v : Tbl Nat) : (s.setDcRights v).portTags = s.portTags := (rfl)
@[simp] theorem State.setDcRights_portFifo (s : State) (v : Tbl Nat) : (s.setDcRights v).portFifo = s.portFifo := (rfl)
@[simp] theorem State.setDcRights_dcache (s : State) (v : Tbl Nat) : (s.setDcRights v).dcache = s.dcache := (rfl)
@[simp] theorem State.setDcRights_dir (s : State) (v : Tbl Nat) : (s.setDcRights v).dir = s.dir := (rfl)
@[simp] theorem State.setDcRights_dieResets (s : State) (v : Tbl Nat) : (s.setDcRights v).dieResets = s.dieResets := (rfl)
@[simp] theorem State.setDcRights_homeTxn (s : State) (v : Tbl Nat) : (s.setDcRights v).homeTxn = s.homeTxn := (rfl)
@[simp] theorem State.setDcRights_cores (s : State) (v : Tbl Nat) : (s.setDcRights v).cores = s.cores := (rfl)
@[simp] theorem State.setDcRights_tngDone (s : State) (v : Tbl Nat) : (s.setDcRights v).tngDone = s.tngDone := (rfl)
@[simp] theorem State.setDcRights_fab (s : State) (v : Tbl Nat) : (s.setDcRights v).fab = s.fab := (rfl)
@[simp] theorem State.setDcRights_net (s : State) (v : Tbl Nat) : (s.setDcRights v).net = s.net := (rfl)
@[simp] theorem State.setDcRights_rtrShare (s : State) (v : Tbl Nat) : (s.setDcRights v).rtrShare = s.rtrShare := (rfl)
@[simp] theorem State.setDcRights_dbg (s : State) (v : Tbl Nat) : (s.setDcRights v).dbg = s.dbg := (rfl)
@[simp] theorem State.setDcRights_dcWait (s : State) (v : Tbl Nat) : (s.setDcRights v).dcWait = s.dcWait := (rfl)
@[simp] theorem State.setDcRights_prcStep (s : State) (v : Tbl Nat) : (s.setDcRights v).prcStep = s.prcStep := (rfl)
@[simp] theorem State.setDcRights_prcBlank (s : State) (v : Tbl Nat) : (s.setDcRights v).prcBlank = s.prcBlank := (rfl)
@[simp] theorem State.setDcRights_prcHold (s : State) (v : Tbl Nat) : (s.setDcRights v).prcHold = s.prcHold := (rfl)
@[simp] theorem State.setDcRights_capWait (s : State) (v : Tbl Nat) : (s.setDcRights v).capWait = s.capWait := (rfl)
@[simp] theorem State.setDcRights_capture (s : State) (v : Tbl Nat) : (s.setDcRights v).capture = s.capture := (rfl)
@[simp] theorem State.setDcRights_bramDef (s : State) (v : Tbl Nat) : (s.setDcRights v).bramDef = s.bramDef := (rfl)
@[simp] theorem State.setDcRights_scrubs (s : State) (v : Tbl Nat) : (s.setDcRights v).scrubs = s.scrubs := (rfl)
@[simp] theorem State.setDcRights_scrCopy (s : State) (v : Tbl Nat) : (s.setDcRights v).scrCopy = s.scrCopy := (rfl)
@[simp] theorem State.setDcRights_releases (s : State) (v : Tbl Nat) : (s.setDcRights v).releases = s.releases := (rfl)
@[simp] theorem State.setDcRights_dieStep (s : State) (v : Tbl Nat) : (s.setDcRights v).dieStep = s.dieStep := (rfl)
@[simp] theorem State.setDcRights_clampDef (s : State) (v : Tbl Nat) : (s.setDcRights v).clampDef = s.clampDef := (rfl)
@[simp] theorem State.setDcRights_clamps (s : State) (v : Tbl Nat) : (s.setDcRights v).clamps = s.clamps := (rfl)
@[simp] theorem State.setDcRights_welds (s : State) (v : Tbl Nat) : (s.setDcRights v).welds = s.welds := (rfl)
@[simp] theorem State.setDcRights_lanes (s : State) (v : Tbl Nat) : (s.setDcRights v).lanes = s.lanes := (rfl)
@[simp] theorem State.setDcRights_macMode (s : State) (v : Tbl Nat) : (s.setDcRights v).macMode = s.macMode := (rfl)
@[simp] theorem State.setDcRights_tod (s : State) (v : Tbl Nat) : (s.setDcRights v).tod = s.tod := (rfl)
@[simp] theorem State.setDcRights_lkp (s : State) (v : Tbl Nat) : (s.setDcRights v).lkp = s.lkp := (rfl)
@[simp] theorem State.setDcRights_queues (s : State) (v : Tbl Nat) : (s.setDcRights v).queues = s.queues := (rfl)
@[simp] theorem State.setDcRights_ports (s : State) (v : Tbl Nat) : (s.setDcRights v).ports = s.ports := (rfl)
@[simp] theorem State.setDcRights_pkt (s : State) (v : Tbl Nat) : (s.setDcRights v).pkt = s.pkt := (rfl)
@[simp] theorem State.setDcRights_cxl (s : State) (v : Tbl Nat) : (s.setDcRights v).cxl = s.cxl := (rfl)
@[simp] theorem State.setDcRights_ddr (s : State) (v : Tbl Nat) : (s.setDcRights v).ddr = s.ddr := (rfl)
@[simp] theorem State.setDcRights_regions (s : State) (v : Tbl Nat) : (s.setDcRights v).regions = s.regions := (rfl)
@[simp] theorem State.setDcRights_prots (s : State) (v : Tbl Nat) : (s.setDcRights v).prots = s.prots := (rfl)
@[simp] theorem State.setDcRights_keyStore (s : State) (v : Tbl Nat) : (s.setDcRights v).keyStore = s.keyStore := (rfl)
@[simp] theorem State.setDcRights_rings (s : State) (v : Tbl Nat) : (s.setDcRights v).rings = s.rings := (rfl)
@[simp] theorem State.setDcRights_openMem (s : State) (v : Tbl Nat) : (s.setDcRights v).openMem = s.openMem := (rfl)
@[simp] theorem State.setDcRights_dcRights (s : State) (v : Tbl Nat) : (s.setDcRights v).dcRights = v := (rfl)
@[simp] theorem State.setDcRights_clk (s : State) (v : Tbl Nat) : (s.setDcRights v).clk = s.clk := (rfl)
@[simp] theorem State.setDcRights_units (s : State) (v : Tbl Nat) : (s.setDcRights v).units = s.units := (rfl)
@[simp] theorem State.setDcRights_hearthHit (s : State) (v : Tbl Nat) : (s.setDcRights v).hearthHit = s.hearthHit := (rfl)
@[simp] theorem State.setClk_pending (s : State) (v : Clk) : (s.setClk v).pending = s.pending := (rfl)
@[simp] theorem State.setClk_regs (s : State) (v : Clk) : (s.setClk v).regs = s.regs := (rfl)
@[simp] theorem State.setClk_mem (s : State) (v : Clk) : (s.setClk v).mem = s.mem := (rfl)
@[simp] theorem State.setClk_poison (s : State) (v : Clk) : (s.setClk v).poison = s.poison := (rfl)
@[simp] theorem State.setClk_fresh (s : State) (v : Clk) : (s.setClk v).fresh = s.fresh := (rfl)
@[simp] theorem State.setClk_answer (s : State) (v : Clk) : (s.setClk v).answer = s.answer := (rfl)
@[simp] theorem State.setClk_answerStatus (s : State) (v : Clk) : (s.setClk v).answerStatus = s.answerStatus := (rfl)
@[simp] theorem State.setClk_book (s : State) (v : Clk) : (s.setClk v).book = s.book := (rfl)
@[simp] theorem State.setClk_mgt (s : State) (v : Clk) : (s.setClk v).mgt = s.mgt := (rfl)
@[simp] theorem State.setClk_fpFifo (s : State) (v : Clk) : (s.setClk v).fpFifo = s.fpFifo := (rfl)
@[simp] theorem State.setClk_evtOnce (s : State) (v : Clk) : (s.setClk v).evtOnce = s.evtOnce := (rfl)
@[simp] theorem State.setClk_cycles (s : State) (v : Clk) : (s.setClk v).cycles = s.cycles := (rfl)
@[simp] theorem State.setClk_pcie (s : State) (v : Clk) : (s.setClk v).pcie = s.pcie := (rfl)
@[simp] theorem State.setClk_sent (s : State) (v : Clk) : (s.setClk v).sent = s.sent := (rfl)
@[simp] theorem State.setClk_bw (s : State) (v : Clk) : (s.setClk v).bw = s.bw := (rfl)
@[simp] theorem State.setClk_pmcLatch (s : State) (v : Clk) : (s.setClk v).pmcLatch = s.pmcLatch := (rfl)
@[simp] theorem State.setClk_cal (s : State) (v : Clk) : (s.setClk v).cal = s.cal := (rfl)
@[simp] theorem State.setClk_cfg (s : State) (v : Clk) : (s.setClk v).cfg = s.cfg := (rfl)
@[simp] theorem State.setClk_tap (s : State) (v : Clk) : (s.setClk v).tap = s.tap := (rfl)
@[simp] theorem State.setClk_pins (s : State) (v : Clk) : (s.setClk v).pins = s.pins := (rfl)
@[simp] theorem State.setClk_frames (s : State) (v : Clk) : (s.setClk v).frames = s.frames := (rfl)
@[simp] theorem State.setClk_clusters (s : State) (v : Clk) : (s.setClk v).clusters = s.clusters := (rfl)
@[simp] theorem State.setClk_ffs (s : State) (v : Clk) : (s.setClk v).ffs = s.ffs := (rfl)
@[simp] theorem State.setClk_relStage (s : State) (v : Clk) : (s.setClk v).relStage = s.relStage := (rfl)
@[simp] theorem State.setClk_frozen (s : State) (v : Clk) : (s.setClk v).frozen = s.frozen := (rfl)
@[simp] theorem State.setClk_bramCfg (s : State) (v : Clk) : (s.setClk v).bramCfg = s.bramCfg := (rfl)
@[simp] theorem State.setClk_bram (s : State) (v : Clk) : (s.setClk v).bram = s.bram := (rfl)
@[simp] theorem State.setClk_bramPorts (s : State) (v : Clk) : (s.setClk v).bramPorts = s.bramPorts := (rfl)
@[simp] theorem State.setClk_multCfg (s : State) (v : Clk) : (s.setClk v).multCfg = s.multCfg := (rfl)
@[simp] theorem State.setClk_mults (s : State) (v : Clk) : (s.setClk v).mults = s.mults := (rfl)
@[simp] theorem State.setClk_railKeep (s : State) (v : Clk) : (s.setClk v).railKeep = s.railKeep := (rfl)
@[simp] theorem State.setClk_chk (s : State) (v : Clk) : (s.setClk v).chk = s.chk := (rfl)
@[simp] theorem State.setClk_eccRaw (s : State) (v : Clk) : (s.setClk v).eccRaw = s.eccRaw := (rfl)
@[simp] theorem State.setClk_eccScrub (s : State) (v : Clk) : (s.setClk v).eccScrub = s.eccScrub := (rfl)
@[simp] theorem State.setClk_tags (s : State) (v : Clk) : (s.setClk v).tags = s.tags := (rfl)
@[simp] theorem State.setClk_xUsed (s : State) (v : Clk) : (s.setClk v).xUsed = s.xUsed := (rfl)
@[simp] theorem State.setClk_xWait (s : State) (v : Clk) : (s.setClk v).xWait = s.xWait := (rfl)
@[simp] theorem State.setClk_xHeld (s : State) (v : Clk) : (s.setClk v).xHeld = s.xHeld := (rfl)
@[simp] theorem State.setClk_routers (s : State) (v : Clk) : (s.setClk v).routers = s.routers := (rfl)
@[simp] theorem State.setClk_portMode (s : State) (v : Clk) : (s.setClk v).portMode = s.portMode := (rfl)
@[simp] theorem State.setClk_portTags (s : State) (v : Clk) : (s.setClk v).portTags = s.portTags := (rfl)
@[simp] theorem State.setClk_portFifo (s : State) (v : Clk) : (s.setClk v).portFifo = s.portFifo := (rfl)
@[simp] theorem State.setClk_dcache (s : State) (v : Clk) : (s.setClk v).dcache = s.dcache := (rfl)
@[simp] theorem State.setClk_dir (s : State) (v : Clk) : (s.setClk v).dir = s.dir := (rfl)
@[simp] theorem State.setClk_dieResets (s : State) (v : Clk) : (s.setClk v).dieResets = s.dieResets := (rfl)
@[simp] theorem State.setClk_homeTxn (s : State) (v : Clk) : (s.setClk v).homeTxn = s.homeTxn := (rfl)
@[simp] theorem State.setClk_cores (s : State) (v : Clk) : (s.setClk v).cores = s.cores := (rfl)
@[simp] theorem State.setClk_tngDone (s : State) (v : Clk) : (s.setClk v).tngDone = s.tngDone := (rfl)
@[simp] theorem State.setClk_fab (s : State) (v : Clk) : (s.setClk v).fab = s.fab := (rfl)
@[simp] theorem State.setClk_net (s : State) (v : Clk) : (s.setClk v).net = s.net := (rfl)
@[simp] theorem State.setClk_rtrShare (s : State) (v : Clk) : (s.setClk v).rtrShare = s.rtrShare := (rfl)
@[simp] theorem State.setClk_dbg (s : State) (v : Clk) : (s.setClk v).dbg = s.dbg := (rfl)
@[simp] theorem State.setClk_dcWait (s : State) (v : Clk) : (s.setClk v).dcWait = s.dcWait := (rfl)
@[simp] theorem State.setClk_prcStep (s : State) (v : Clk) : (s.setClk v).prcStep = s.prcStep := (rfl)
@[simp] theorem State.setClk_prcBlank (s : State) (v : Clk) : (s.setClk v).prcBlank = s.prcBlank := (rfl)
@[simp] theorem State.setClk_prcHold (s : State) (v : Clk) : (s.setClk v).prcHold = s.prcHold := (rfl)
@[simp] theorem State.setClk_capWait (s : State) (v : Clk) : (s.setClk v).capWait = s.capWait := (rfl)
@[simp] theorem State.setClk_capture (s : State) (v : Clk) : (s.setClk v).capture = s.capture := (rfl)
@[simp] theorem State.setClk_bramDef (s : State) (v : Clk) : (s.setClk v).bramDef = s.bramDef := (rfl)
@[simp] theorem State.setClk_scrubs (s : State) (v : Clk) : (s.setClk v).scrubs = s.scrubs := (rfl)
@[simp] theorem State.setClk_scrCopy (s : State) (v : Clk) : (s.setClk v).scrCopy = s.scrCopy := (rfl)
@[simp] theorem State.setClk_releases (s : State) (v : Clk) : (s.setClk v).releases = s.releases := (rfl)
@[simp] theorem State.setClk_dieStep (s : State) (v : Clk) : (s.setClk v).dieStep = s.dieStep := (rfl)
@[simp] theorem State.setClk_clampDef (s : State) (v : Clk) : (s.setClk v).clampDef = s.clampDef := (rfl)
@[simp] theorem State.setClk_clamps (s : State) (v : Clk) : (s.setClk v).clamps = s.clamps := (rfl)
@[simp] theorem State.setClk_welds (s : State) (v : Clk) : (s.setClk v).welds = s.welds := (rfl)
@[simp] theorem State.setClk_lanes (s : State) (v : Clk) : (s.setClk v).lanes = s.lanes := (rfl)
@[simp] theorem State.setClk_macMode (s : State) (v : Clk) : (s.setClk v).macMode = s.macMode := (rfl)
@[simp] theorem State.setClk_tod (s : State) (v : Clk) : (s.setClk v).tod = s.tod := (rfl)
@[simp] theorem State.setClk_lkp (s : State) (v : Clk) : (s.setClk v).lkp = s.lkp := (rfl)
@[simp] theorem State.setClk_queues (s : State) (v : Clk) : (s.setClk v).queues = s.queues := (rfl)
@[simp] theorem State.setClk_ports (s : State) (v : Clk) : (s.setClk v).ports = s.ports := (rfl)
@[simp] theorem State.setClk_pkt (s : State) (v : Clk) : (s.setClk v).pkt = s.pkt := (rfl)
@[simp] theorem State.setClk_cxl (s : State) (v : Clk) : (s.setClk v).cxl = s.cxl := (rfl)
@[simp] theorem State.setClk_ddr (s : State) (v : Clk) : (s.setClk v).ddr = s.ddr := (rfl)
@[simp] theorem State.setClk_regions (s : State) (v : Clk) : (s.setClk v).regions = s.regions := (rfl)
@[simp] theorem State.setClk_prots (s : State) (v : Clk) : (s.setClk v).prots = s.prots := (rfl)
@[simp] theorem State.setClk_keyStore (s : State) (v : Clk) : (s.setClk v).keyStore = s.keyStore := (rfl)
@[simp] theorem State.setClk_rings (s : State) (v : Clk) : (s.setClk v).rings = s.rings := (rfl)
@[simp] theorem State.setClk_openMem (s : State) (v : Clk) : (s.setClk v).openMem = s.openMem := (rfl)
@[simp] theorem State.setClk_dcRights (s : State) (v : Clk) : (s.setClk v).dcRights = s.dcRights := (rfl)
@[simp] theorem State.setClk_clk (s : State) (v : Clk) : (s.setClk v).clk = v := (rfl)
@[simp] theorem State.setClk_units (s : State) (v : Clk) : (s.setClk v).units = s.units := (rfl)
@[simp] theorem State.setClk_hearthHit (s : State) (v : Clk) : (s.setClk v).hearthHit = s.hearthHit := (rfl)
@[simp] theorem State.setUnits_pending (s : State) (v : Units) : (s.setUnits v).pending = s.pending := (rfl)
@[simp] theorem State.setUnits_regs (s : State) (v : Units) : (s.setUnits v).regs = s.regs := (rfl)
@[simp] theorem State.setUnits_mem (s : State) (v : Units) : (s.setUnits v).mem = s.mem := (rfl)
@[simp] theorem State.setUnits_poison (s : State) (v : Units) : (s.setUnits v).poison = s.poison := (rfl)
@[simp] theorem State.setUnits_fresh (s : State) (v : Units) : (s.setUnits v).fresh = s.fresh := (rfl)
@[simp] theorem State.setUnits_answer (s : State) (v : Units) : (s.setUnits v).answer = s.answer := (rfl)
@[simp] theorem State.setUnits_answerStatus (s : State) (v : Units) : (s.setUnits v).answerStatus = s.answerStatus := (rfl)
@[simp] theorem State.setUnits_book (s : State) (v : Units) : (s.setUnits v).book = s.book := (rfl)
@[simp] theorem State.setUnits_mgt (s : State) (v : Units) : (s.setUnits v).mgt = s.mgt := (rfl)
@[simp] theorem State.setUnits_fpFifo (s : State) (v : Units) : (s.setUnits v).fpFifo = s.fpFifo := (rfl)
@[simp] theorem State.setUnits_evtOnce (s : State) (v : Units) : (s.setUnits v).evtOnce = s.evtOnce := (rfl)
@[simp] theorem State.setUnits_cycles (s : State) (v : Units) : (s.setUnits v).cycles = s.cycles := (rfl)
@[simp] theorem State.setUnits_pcie (s : State) (v : Units) : (s.setUnits v).pcie = s.pcie := (rfl)
@[simp] theorem State.setUnits_sent (s : State) (v : Units) : (s.setUnits v).sent = s.sent := (rfl)
@[simp] theorem State.setUnits_bw (s : State) (v : Units) : (s.setUnits v).bw = s.bw := (rfl)
@[simp] theorem State.setUnits_pmcLatch (s : State) (v : Units) : (s.setUnits v).pmcLatch = s.pmcLatch := (rfl)
@[simp] theorem State.setUnits_cal (s : State) (v : Units) : (s.setUnits v).cal = s.cal := (rfl)
@[simp] theorem State.setUnits_cfg (s : State) (v : Units) : (s.setUnits v).cfg = s.cfg := (rfl)
@[simp] theorem State.setUnits_tap (s : State) (v : Units) : (s.setUnits v).tap = s.tap := (rfl)
@[simp] theorem State.setUnits_pins (s : State) (v : Units) : (s.setUnits v).pins = s.pins := (rfl)
@[simp] theorem State.setUnits_frames (s : State) (v : Units) : (s.setUnits v).frames = s.frames := (rfl)
@[simp] theorem State.setUnits_clusters (s : State) (v : Units) : (s.setUnits v).clusters = s.clusters := (rfl)
@[simp] theorem State.setUnits_ffs (s : State) (v : Units) : (s.setUnits v).ffs = s.ffs := (rfl)
@[simp] theorem State.setUnits_relStage (s : State) (v : Units) : (s.setUnits v).relStage = s.relStage := (rfl)
@[simp] theorem State.setUnits_frozen (s : State) (v : Units) : (s.setUnits v).frozen = s.frozen := (rfl)
@[simp] theorem State.setUnits_bramCfg (s : State) (v : Units) : (s.setUnits v).bramCfg = s.bramCfg := (rfl)
@[simp] theorem State.setUnits_bram (s : State) (v : Units) : (s.setUnits v).bram = s.bram := (rfl)
@[simp] theorem State.setUnits_bramPorts (s : State) (v : Units) : (s.setUnits v).bramPorts = s.bramPorts := (rfl)
@[simp] theorem State.setUnits_multCfg (s : State) (v : Units) : (s.setUnits v).multCfg = s.multCfg := (rfl)
@[simp] theorem State.setUnits_mults (s : State) (v : Units) : (s.setUnits v).mults = s.mults := (rfl)
@[simp] theorem State.setUnits_railKeep (s : State) (v : Units) : (s.setUnits v).railKeep = s.railKeep := (rfl)
@[simp] theorem State.setUnits_chk (s : State) (v : Units) : (s.setUnits v).chk = s.chk := (rfl)
@[simp] theorem State.setUnits_eccRaw (s : State) (v : Units) : (s.setUnits v).eccRaw = s.eccRaw := (rfl)
@[simp] theorem State.setUnits_eccScrub (s : State) (v : Units) : (s.setUnits v).eccScrub = s.eccScrub := (rfl)
@[simp] theorem State.setUnits_tags (s : State) (v : Units) : (s.setUnits v).tags = s.tags := (rfl)
@[simp] theorem State.setUnits_xUsed (s : State) (v : Units) : (s.setUnits v).xUsed = s.xUsed := (rfl)
@[simp] theorem State.setUnits_xWait (s : State) (v : Units) : (s.setUnits v).xWait = s.xWait := (rfl)
@[simp] theorem State.setUnits_xHeld (s : State) (v : Units) : (s.setUnits v).xHeld = s.xHeld := (rfl)
@[simp] theorem State.setUnits_routers (s : State) (v : Units) : (s.setUnits v).routers = s.routers := (rfl)
@[simp] theorem State.setUnits_portMode (s : State) (v : Units) : (s.setUnits v).portMode = s.portMode := (rfl)
@[simp] theorem State.setUnits_portTags (s : State) (v : Units) : (s.setUnits v).portTags = s.portTags := (rfl)
@[simp] theorem State.setUnits_portFifo (s : State) (v : Units) : (s.setUnits v).portFifo = s.portFifo := (rfl)
@[simp] theorem State.setUnits_dcache (s : State) (v : Units) : (s.setUnits v).dcache = s.dcache := (rfl)
@[simp] theorem State.setUnits_dir (s : State) (v : Units) : (s.setUnits v).dir = s.dir := (rfl)
@[simp] theorem State.setUnits_dieResets (s : State) (v : Units) : (s.setUnits v).dieResets = s.dieResets := (rfl)
@[simp] theorem State.setUnits_homeTxn (s : State) (v : Units) : (s.setUnits v).homeTxn = s.homeTxn := (rfl)
@[simp] theorem State.setUnits_cores (s : State) (v : Units) : (s.setUnits v).cores = s.cores := (rfl)
@[simp] theorem State.setUnits_tngDone (s : State) (v : Units) : (s.setUnits v).tngDone = s.tngDone := (rfl)
@[simp] theorem State.setUnits_fab (s : State) (v : Units) : (s.setUnits v).fab = s.fab := (rfl)
@[simp] theorem State.setUnits_net (s : State) (v : Units) : (s.setUnits v).net = s.net := (rfl)
@[simp] theorem State.setUnits_rtrShare (s : State) (v : Units) : (s.setUnits v).rtrShare = s.rtrShare := (rfl)
@[simp] theorem State.setUnits_dbg (s : State) (v : Units) : (s.setUnits v).dbg = s.dbg := (rfl)
@[simp] theorem State.setUnits_dcWait (s : State) (v : Units) : (s.setUnits v).dcWait = s.dcWait := (rfl)
@[simp] theorem State.setUnits_prcStep (s : State) (v : Units) : (s.setUnits v).prcStep = s.prcStep := (rfl)
@[simp] theorem State.setUnits_prcBlank (s : State) (v : Units) : (s.setUnits v).prcBlank = s.prcBlank := (rfl)
@[simp] theorem State.setUnits_prcHold (s : State) (v : Units) : (s.setUnits v).prcHold = s.prcHold := (rfl)
@[simp] theorem State.setUnits_capWait (s : State) (v : Units) : (s.setUnits v).capWait = s.capWait := (rfl)
@[simp] theorem State.setUnits_capture (s : State) (v : Units) : (s.setUnits v).capture = s.capture := (rfl)
@[simp] theorem State.setUnits_bramDef (s : State) (v : Units) : (s.setUnits v).bramDef = s.bramDef := (rfl)
@[simp] theorem State.setUnits_scrubs (s : State) (v : Units) : (s.setUnits v).scrubs = s.scrubs := (rfl)
@[simp] theorem State.setUnits_scrCopy (s : State) (v : Units) : (s.setUnits v).scrCopy = s.scrCopy := (rfl)
@[simp] theorem State.setUnits_releases (s : State) (v : Units) : (s.setUnits v).releases = s.releases := (rfl)
@[simp] theorem State.setUnits_dieStep (s : State) (v : Units) : (s.setUnits v).dieStep = s.dieStep := (rfl)
@[simp] theorem State.setUnits_clampDef (s : State) (v : Units) : (s.setUnits v).clampDef = s.clampDef := (rfl)
@[simp] theorem State.setUnits_clamps (s : State) (v : Units) : (s.setUnits v).clamps = s.clamps := (rfl)
@[simp] theorem State.setUnits_welds (s : State) (v : Units) : (s.setUnits v).welds = s.welds := (rfl)
@[simp] theorem State.setUnits_lanes (s : State) (v : Units) : (s.setUnits v).lanes = s.lanes := (rfl)
@[simp] theorem State.setUnits_macMode (s : State) (v : Units) : (s.setUnits v).macMode = s.macMode := (rfl)
@[simp] theorem State.setUnits_tod (s : State) (v : Units) : (s.setUnits v).tod = s.tod := (rfl)
@[simp] theorem State.setUnits_lkp (s : State) (v : Units) : (s.setUnits v).lkp = s.lkp := (rfl)
@[simp] theorem State.setUnits_queues (s : State) (v : Units) : (s.setUnits v).queues = s.queues := (rfl)
@[simp] theorem State.setUnits_ports (s : State) (v : Units) : (s.setUnits v).ports = s.ports := (rfl)
@[simp] theorem State.setUnits_pkt (s : State) (v : Units) : (s.setUnits v).pkt = s.pkt := (rfl)
@[simp] theorem State.setUnits_cxl (s : State) (v : Units) : (s.setUnits v).cxl = s.cxl := (rfl)
@[simp] theorem State.setUnits_ddr (s : State) (v : Units) : (s.setUnits v).ddr = s.ddr := (rfl)
@[simp] theorem State.setUnits_regions (s : State) (v : Units) : (s.setUnits v).regions = s.regions := (rfl)
@[simp] theorem State.setUnits_prots (s : State) (v : Units) : (s.setUnits v).prots = s.prots := (rfl)
@[simp] theorem State.setUnits_keyStore (s : State) (v : Units) : (s.setUnits v).keyStore = s.keyStore := (rfl)
@[simp] theorem State.setUnits_rings (s : State) (v : Units) : (s.setUnits v).rings = s.rings := (rfl)
@[simp] theorem State.setUnits_openMem (s : State) (v : Units) : (s.setUnits v).openMem = s.openMem := (rfl)
@[simp] theorem State.setUnits_dcRights (s : State) (v : Units) : (s.setUnits v).dcRights = s.dcRights := (rfl)
@[simp] theorem State.setUnits_clk (s : State) (v : Units) : (s.setUnits v).clk = s.clk := (rfl)
@[simp] theorem State.setUnits_units (s : State) (v : Units) : (s.setUnits v).units = v := (rfl)
@[simp] theorem State.setUnits_hearthHit (s : State) (v : Units) : (s.setUnits v).hearthHit = s.hearthHit := (rfl)
@[simp] theorem State.setHearthHit_pending (s : State) (v : Bool) : (s.setHearthHit v).pending = s.pending := (rfl)
@[simp] theorem State.setHearthHit_regs (s : State) (v : Bool) : (s.setHearthHit v).regs = s.regs := (rfl)
@[simp] theorem State.setHearthHit_mem (s : State) (v : Bool) : (s.setHearthHit v).mem = s.mem := (rfl)
@[simp] theorem State.setHearthHit_poison (s : State) (v : Bool) : (s.setHearthHit v).poison = s.poison := (rfl)
@[simp] theorem State.setHearthHit_fresh (s : State) (v : Bool) : (s.setHearthHit v).fresh = s.fresh := (rfl)
@[simp] theorem State.setHearthHit_answer (s : State) (v : Bool) : (s.setHearthHit v).answer = s.answer := (rfl)
@[simp] theorem State.setHearthHit_answerStatus (s : State) (v : Bool) : (s.setHearthHit v).answerStatus = s.answerStatus := (rfl)
@[simp] theorem State.setHearthHit_book (s : State) (v : Bool) : (s.setHearthHit v).book = s.book := (rfl)
@[simp] theorem State.setHearthHit_mgt (s : State) (v : Bool) : (s.setHearthHit v).mgt = s.mgt := (rfl)
@[simp] theorem State.setHearthHit_fpFifo (s : State) (v : Bool) : (s.setHearthHit v).fpFifo = s.fpFifo := (rfl)
@[simp] theorem State.setHearthHit_evtOnce (s : State) (v : Bool) : (s.setHearthHit v).evtOnce = s.evtOnce := (rfl)
@[simp] theorem State.setHearthHit_cycles (s : State) (v : Bool) : (s.setHearthHit v).cycles = s.cycles := (rfl)
@[simp] theorem State.setHearthHit_pcie (s : State) (v : Bool) : (s.setHearthHit v).pcie = s.pcie := (rfl)
@[simp] theorem State.setHearthHit_sent (s : State) (v : Bool) : (s.setHearthHit v).sent = s.sent := (rfl)
@[simp] theorem State.setHearthHit_bw (s : State) (v : Bool) : (s.setHearthHit v).bw = s.bw := (rfl)
@[simp] theorem State.setHearthHit_pmcLatch (s : State) (v : Bool) : (s.setHearthHit v).pmcLatch = s.pmcLatch := (rfl)
@[simp] theorem State.setHearthHit_cal (s : State) (v : Bool) : (s.setHearthHit v).cal = s.cal := (rfl)
@[simp] theorem State.setHearthHit_cfg (s : State) (v : Bool) : (s.setHearthHit v).cfg = s.cfg := (rfl)
@[simp] theorem State.setHearthHit_tap (s : State) (v : Bool) : (s.setHearthHit v).tap = s.tap := (rfl)
@[simp] theorem State.setHearthHit_pins (s : State) (v : Bool) : (s.setHearthHit v).pins = s.pins := (rfl)
@[simp] theorem State.setHearthHit_frames (s : State) (v : Bool) : (s.setHearthHit v).frames = s.frames := (rfl)
@[simp] theorem State.setHearthHit_clusters (s : State) (v : Bool) : (s.setHearthHit v).clusters = s.clusters := (rfl)
@[simp] theorem State.setHearthHit_ffs (s : State) (v : Bool) : (s.setHearthHit v).ffs = s.ffs := (rfl)
@[simp] theorem State.setHearthHit_relStage (s : State) (v : Bool) : (s.setHearthHit v).relStage = s.relStage := (rfl)
@[simp] theorem State.setHearthHit_frozen (s : State) (v : Bool) : (s.setHearthHit v).frozen = s.frozen := (rfl)
@[simp] theorem State.setHearthHit_bramCfg (s : State) (v : Bool) : (s.setHearthHit v).bramCfg = s.bramCfg := (rfl)
@[simp] theorem State.setHearthHit_bram (s : State) (v : Bool) : (s.setHearthHit v).bram = s.bram := (rfl)
@[simp] theorem State.setHearthHit_bramPorts (s : State) (v : Bool) : (s.setHearthHit v).bramPorts = s.bramPorts := (rfl)
@[simp] theorem State.setHearthHit_multCfg (s : State) (v : Bool) : (s.setHearthHit v).multCfg = s.multCfg := (rfl)
@[simp] theorem State.setHearthHit_mults (s : State) (v : Bool) : (s.setHearthHit v).mults = s.mults := (rfl)
@[simp] theorem State.setHearthHit_railKeep (s : State) (v : Bool) : (s.setHearthHit v).railKeep = s.railKeep := (rfl)
@[simp] theorem State.setHearthHit_chk (s : State) (v : Bool) : (s.setHearthHit v).chk = s.chk := (rfl)
@[simp] theorem State.setHearthHit_eccRaw (s : State) (v : Bool) : (s.setHearthHit v).eccRaw = s.eccRaw := (rfl)
@[simp] theorem State.setHearthHit_eccScrub (s : State) (v : Bool) : (s.setHearthHit v).eccScrub = s.eccScrub := (rfl)
@[simp] theorem State.setHearthHit_tags (s : State) (v : Bool) : (s.setHearthHit v).tags = s.tags := (rfl)
@[simp] theorem State.setHearthHit_xUsed (s : State) (v : Bool) : (s.setHearthHit v).xUsed = s.xUsed := (rfl)
@[simp] theorem State.setHearthHit_xWait (s : State) (v : Bool) : (s.setHearthHit v).xWait = s.xWait := (rfl)
@[simp] theorem State.setHearthHit_xHeld (s : State) (v : Bool) : (s.setHearthHit v).xHeld = s.xHeld := (rfl)
@[simp] theorem State.setHearthHit_routers (s : State) (v : Bool) : (s.setHearthHit v).routers = s.routers := (rfl)
@[simp] theorem State.setHearthHit_portMode (s : State) (v : Bool) : (s.setHearthHit v).portMode = s.portMode := (rfl)
@[simp] theorem State.setHearthHit_portTags (s : State) (v : Bool) : (s.setHearthHit v).portTags = s.portTags := (rfl)
@[simp] theorem State.setHearthHit_portFifo (s : State) (v : Bool) : (s.setHearthHit v).portFifo = s.portFifo := (rfl)
@[simp] theorem State.setHearthHit_dcache (s : State) (v : Bool) : (s.setHearthHit v).dcache = s.dcache := (rfl)
@[simp] theorem State.setHearthHit_dir (s : State) (v : Bool) : (s.setHearthHit v).dir = s.dir := (rfl)
@[simp] theorem State.setHearthHit_dieResets (s : State) (v : Bool) : (s.setHearthHit v).dieResets = s.dieResets := (rfl)
@[simp] theorem State.setHearthHit_homeTxn (s : State) (v : Bool) : (s.setHearthHit v).homeTxn = s.homeTxn := (rfl)
@[simp] theorem State.setHearthHit_cores (s : State) (v : Bool) : (s.setHearthHit v).cores = s.cores := (rfl)
@[simp] theorem State.setHearthHit_tngDone (s : State) (v : Bool) : (s.setHearthHit v).tngDone = s.tngDone := (rfl)
@[simp] theorem State.setHearthHit_fab (s : State) (v : Bool) : (s.setHearthHit v).fab = s.fab := (rfl)
@[simp] theorem State.setHearthHit_net (s : State) (v : Bool) : (s.setHearthHit v).net = s.net := (rfl)
@[simp] theorem State.setHearthHit_rtrShare (s : State) (v : Bool) : (s.setHearthHit v).rtrShare = s.rtrShare := (rfl)
@[simp] theorem State.setHearthHit_dbg (s : State) (v : Bool) : (s.setHearthHit v).dbg = s.dbg := (rfl)
@[simp] theorem State.setHearthHit_dcWait (s : State) (v : Bool) : (s.setHearthHit v).dcWait = s.dcWait := (rfl)
@[simp] theorem State.setHearthHit_prcStep (s : State) (v : Bool) : (s.setHearthHit v).prcStep = s.prcStep := (rfl)
@[simp] theorem State.setHearthHit_prcBlank (s : State) (v : Bool) : (s.setHearthHit v).prcBlank = s.prcBlank := (rfl)
@[simp] theorem State.setHearthHit_prcHold (s : State) (v : Bool) : (s.setHearthHit v).prcHold = s.prcHold := (rfl)
@[simp] theorem State.setHearthHit_capWait (s : State) (v : Bool) : (s.setHearthHit v).capWait = s.capWait := (rfl)
@[simp] theorem State.setHearthHit_capture (s : State) (v : Bool) : (s.setHearthHit v).capture = s.capture := (rfl)
@[simp] theorem State.setHearthHit_bramDef (s : State) (v : Bool) : (s.setHearthHit v).bramDef = s.bramDef := (rfl)
@[simp] theorem State.setHearthHit_scrubs (s : State) (v : Bool) : (s.setHearthHit v).scrubs = s.scrubs := (rfl)
@[simp] theorem State.setHearthHit_scrCopy (s : State) (v : Bool) : (s.setHearthHit v).scrCopy = s.scrCopy := (rfl)
@[simp] theorem State.setHearthHit_releases (s : State) (v : Bool) : (s.setHearthHit v).releases = s.releases := (rfl)
@[simp] theorem State.setHearthHit_dieStep (s : State) (v : Bool) : (s.setHearthHit v).dieStep = s.dieStep := (rfl)
@[simp] theorem State.setHearthHit_clampDef (s : State) (v : Bool) : (s.setHearthHit v).clampDef = s.clampDef := (rfl)
@[simp] theorem State.setHearthHit_clamps (s : State) (v : Bool) : (s.setHearthHit v).clamps = s.clamps := (rfl)
@[simp] theorem State.setHearthHit_welds (s : State) (v : Bool) : (s.setHearthHit v).welds = s.welds := (rfl)
@[simp] theorem State.setHearthHit_lanes (s : State) (v : Bool) : (s.setHearthHit v).lanes = s.lanes := (rfl)
@[simp] theorem State.setHearthHit_macMode (s : State) (v : Bool) : (s.setHearthHit v).macMode = s.macMode := (rfl)
@[simp] theorem State.setHearthHit_tod (s : State) (v : Bool) : (s.setHearthHit v).tod = s.tod := (rfl)
@[simp] theorem State.setHearthHit_lkp (s : State) (v : Bool) : (s.setHearthHit v).lkp = s.lkp := (rfl)
@[simp] theorem State.setHearthHit_queues (s : State) (v : Bool) : (s.setHearthHit v).queues = s.queues := (rfl)
@[simp] theorem State.setHearthHit_ports (s : State) (v : Bool) : (s.setHearthHit v).ports = s.ports := (rfl)
@[simp] theorem State.setHearthHit_pkt (s : State) (v : Bool) : (s.setHearthHit v).pkt = s.pkt := (rfl)
@[simp] theorem State.setHearthHit_cxl (s : State) (v : Bool) : (s.setHearthHit v).cxl = s.cxl := (rfl)
@[simp] theorem State.setHearthHit_ddr (s : State) (v : Bool) : (s.setHearthHit v).ddr = s.ddr := (rfl)
@[simp] theorem State.setHearthHit_regions (s : State) (v : Bool) : (s.setHearthHit v).regions = s.regions := (rfl)
@[simp] theorem State.setHearthHit_prots (s : State) (v : Bool) : (s.setHearthHit v).prots = s.prots := (rfl)
@[simp] theorem State.setHearthHit_keyStore (s : State) (v : Bool) : (s.setHearthHit v).keyStore = s.keyStore := (rfl)
@[simp] theorem State.setHearthHit_rings (s : State) (v : Bool) : (s.setHearthHit v).rings = s.rings := (rfl)
@[simp] theorem State.setHearthHit_openMem (s : State) (v : Bool) : (s.setHearthHit v).openMem = s.openMem := (rfl)
@[simp] theorem State.setHearthHit_dcRights (s : State) (v : Bool) : (s.setHearthHit v).dcRights = s.dcRights := (rfl)
@[simp] theorem State.setHearthHit_clk (s : State) (v : Bool) : (s.setHearthHit v).clk = s.clk := (rfl)
@[simp] theorem State.setHearthHit_units (s : State) (v : Bool) : (s.setHearthHit v).units = s.units := (rfl)
@[simp] theorem State.setHearthHit_hearthHit (s : State) (v : Bool) : (s.setHearthHit v).hearthHit = v := (rfl)

end Sys2Proof.Machine
end

