-- ==== Sys2Proof/Laws/Tbl.lean ====
section
/-! SUPPORT. Laws of the sparse tables and of the memory: reading after writing, and that every operation keeps the canonical form. -/

namespace Sys2Proof.Machine

/-- The first key of a table is at least a bound. -/
def Tbl.above {α : Type} (n : Nat) : Tbl α → Prop
  | [] => True
  | (a, _) :: _ => n < a

theorem Tbl.wf_cons {α : Type} {a : Nat} {x : α} {t : Tbl α} : Tbl.wf ((a, x) :: t) = true ↔ Tbl.above a t ∧ Tbl.wf t = true := by
  cases t with
  | nil => simp [Tbl.wf, Tbl.above]
  | cons e t => cases e; simp [Tbl.wf, Tbl.above]

theorem Tbl.above_set {α : Type} {n i : Nat} {x : α} {t : Tbl α} (h : Tbl.above n t) (hi : n < i) : Tbl.above n (Tbl.set t i x) := by
  cases t with
  | nil => exact hi
  | cons e t =>
    obtain ⟨k, v⟩ := e
    simp only [Tbl.set]
    split
    · exact hi
    · split <;> exact h

theorem Tbl.set_wf {α : Type} {i : Nat} {x : α} {t : Tbl α} (h : Tbl.wf t = true) : Tbl.wf (Tbl.set t i x) = true := by
  induction t with
  | nil => rfl
  | cons e t ih =>
    obtain ⟨k, v⟩ := e
    have h' := Tbl.wf_cons.1 h
    simp only [Tbl.set]
    split
    · exact Tbl.wf_cons.2 ⟨‹_›, h⟩
    · split
      · exact Tbl.wf_cons.2 h'
      · exact Tbl.wf_cons.2 ⟨Tbl.above_set h'.1 (by omega), ih h'.2⟩

theorem Tbl.above_trans {α : Type} {a b : Nat} {t : Tbl α} (hab : a < b) (h : Tbl.above b t) : Tbl.above a t := by
  cases t with
  | nil => trivial
  | cons e t => exact Nat.lt_trans hab h

theorem Tbl.above_erase {α : Type} {n i : Nat} {t : Tbl α} (h : Tbl.above n t) (hw : Tbl.wf t = true) : Tbl.above n (Tbl.erase t i) := by
  cases t with
  | nil => trivial
  | cons e t =>
    obtain ⟨k, v⟩ := e
    simp only [Tbl.erase]
    split
    · exact Tbl.above_trans h (Tbl.wf_cons.1 hw).1
    · exact h

theorem Tbl.erase_wf {α : Type} {i : Nat} {t : Tbl α} (h : Tbl.wf t = true) : Tbl.wf (Tbl.erase t i) = true := by
  induction t with
  | nil => rfl
  | cons e t ih =>
    obtain ⟨k, v⟩ := e
    have h' := Tbl.wf_cons.1 h
    simp only [Tbl.erase]
    split
    · exact h'.2
    · exact Tbl.wf_cons.2 ⟨Tbl.above_erase h'.1 h'.2, ih h'.2⟩

theorem Tbl.above_keep {α : Type} {n : Nat} {p : Nat → Bool} {t : Tbl α} (h : Tbl.above n t) (hw : Tbl.wf t = true) :
    Tbl.above n (Tbl.keep p t) := by
  induction t with
  | nil => trivial
  | cons e t ih =>
    obtain ⟨k, v⟩ := e
    have h' := Tbl.wf_cons.1 hw
    unfold Tbl.keep
    rw [List.filter_cons]
    split
    · exact h
    · exact ih (Tbl.above_trans h h'.1) h'.2

theorem Tbl.keep_wf {α : Type} {p : Nat → Bool} {t : Tbl α} (h : Tbl.wf t = true) : Tbl.wf (Tbl.keep p t) = true := by
  induction t with
  | nil => rfl
  | cons e t ih =>
    obtain ⟨k, v⟩ := e
    have h' := Tbl.wf_cons.1 h
    have i := ih h'.2
    have a := Tbl.above_keep (p := p) h'.1 h'.2
    unfold Tbl.keep at *
    rw [List.filter_cons]
    split
    · exact Tbl.wf_cons.2 ⟨a, i⟩
    · exact i

theorem Mem.wf_iff {m : Mem} : Mem.wf m = true ↔ Tbl.wf m = true ∧ ∀ e ∈ m, e.2 ≠ 0 := by
  simp [Mem.wf, List.all_eq_true]

theorem Tbl.mem_set {α : Type} {t : Tbl α} {i : Nat} {x : α} {e : Nat × α} (h : e ∈ Tbl.set t i x) : e = (i, x) ∨ e ∈ t := by
  induction t with
  | nil => simpa [Tbl.set] using h
  | cons p t ih =>
    obtain ⟨k, v⟩ := p
    simp only [Tbl.set] at h
    split at h
    · simpa using h
    · split at h
      · rename_i _ hk
        rcases List.mem_cons.1 h with h | h
        · exact .inl (by rw [h, hk])
        · exact .inr (List.mem_cons_of_mem _ h)
      · rcases List.mem_cons.1 h with h | h
        · exact .inr (by simp [h])
        · rcases ih h with h | h
          · exact .inl h
          · exact .inr (List.mem_cons_of_mem _ h)

theorem Tbl.mem_erase {α : Type} {t : Tbl α} {i : Nat} {e : Nat × α} (h : e ∈ Tbl.erase t i) : e ∈ t := by
  induction t with
  | nil => simp [Tbl.erase] at h
  | cons p t ih =>
    obtain ⟨k, v⟩ := p
    simp only [Tbl.erase] at h
    split at h
    · exact List.mem_cons_of_mem _ h
    · rcases List.mem_cons.1 h with h | h
      · simp [h]
      · exact List.mem_cons_of_mem _ (ih h)

theorem Mem.setByte_wf {m : Mem} {a : Nat} {b : BitVec 8} (h : Mem.wf m = true) : Mem.wf (m.setByte a b) = true := by
  have h' := Mem.wf_iff.1 h
  unfold Mem.setByte
  split
  · exact Mem.wf_iff.2 ⟨Tbl.erase_wf h'.1, fun e he => h'.2 e (Tbl.mem_erase he)⟩
  · exact Mem.wf_iff.2 ⟨Tbl.set_wf h'.1, fun e he => (Tbl.mem_set he).elim (fun k => by rw [k]; assumption) (h'.2 e)⟩

theorem Mem.write_wf {m : Mem} {a v n : Nat} (h : Mem.wf m = true) : Mem.wf (m.write a v n) = true := by
  induction n generalizing m a v with
  | zero => exact h
  | succ n ih => exact ih (Mem.setByte_wf h)

theorem Mem.writeMasked_wf {m : Mem} {a v k n : Nat} (h : Mem.wf m = true) : Mem.wf (m.writeMasked a v k n) = true := by
  induction n generalizing m a v k with
  | zero => exact h
  | succ n ih =>
    unfold Mem.writeMasked
    split
    · exact ih (Mem.setByte_wf h)
    · exact ih h

theorem Mem.clear_wf {m : Mem} {a n : Nat} (h : Mem.wf m = true) : Mem.wf (m.clear a n) = true := by
  have h' := Mem.wf_iff.1 h
  exact Mem.wf_iff.2 ⟨Tbl.keep_wf h'.1, fun e he => h'.2 e (List.mem_filter.1 he).1⟩

theorem Tbl.get_set_self {α : Type} (d : α) (t : Tbl α) (i : Nat) (x : α) : Tbl.get d (Tbl.set t i x) i = x := by
  induction t with
  | nil => simp [Tbl.set, Tbl.get]
  | cons e t ih =>
    obtain ⟨k, v⟩ := e
    simp only [Tbl.set]
    split
    · simp [Tbl.get]
    · split
      · simp_all [Tbl.get]
      · simp_all [Tbl.get]

theorem Tbl.get_set_ne {α : Type} (d : α) (t : Tbl α) {i j : Nat} (x : α) (h : j ≠ i) : Tbl.get d (Tbl.set t i x) j = Tbl.get d t j := by
  induction t with
  | nil => simp [Tbl.set, Tbl.get, h]
  | cons e t ih =>
    obtain ⟨k, v⟩ := e
    simp only [Tbl.set]
    split
    · simp [Tbl.get, h]
    · split
      · simp_all [Tbl.get]
      · simp only [Tbl.get, ih]

theorem Tbl.above_get {α : Type} {d : α} {n j : Nat} {t : Tbl α} (h : Tbl.wf t = true) (ha : ∀ e ∈ t, n < e.1) (hj : j ≤ n) :
    Tbl.get d t j = d := by
  induction t with
  | nil => rfl
  | cons e t ih =>
    obtain ⟨k, v⟩ := e
    have hk := ha (k, v) (by simp)
    have : j ≠ k := by simp at hk; omega
    simp only [Tbl.get, this, if_false]
    exact ih (by cases t with
      | nil => rfl
      | cons e t => obtain ⟨l, w⟩ := e; simp [Tbl.wf] at h; exact h.2) fun e he => ha e (List.mem_cons_of_mem _ he)

end Sys2Proof.Machine
end

