-- ==== Sys2Proof/Laws/Held.lean ====
section
/-! SUPPORT. What an operation keeps of the command queue and of the memory, and how it passes through branches, folds and outcomes. -/

namespace Sys2Proof.Machine

/-- What no register operation touches: the queue and the memory. -/
def State.held (s : State) : List Instr × Mem := (s.pending, s.mem)

/-- The queue of a state is that of `x`, and its memory is canonical if that of `x` is. -/
def State.Ok (x : List Instr × Mem) (s : State) : Prop := s.held.1 = x.1 ∧ (Mem.wf x.2 = true → Mem.wf s.held.2 = true)

theorem ok_rfl {s : State} : State.Ok s.held s := ⟨rfl, id⟩
theorem ok_of {s t : State} {x : List Instr × Mem} (e : t.held = s.held) (h : State.Ok x s) : State.Ok x t := by
  unfold State.Ok at *; rw [e]; exact h
theorem State.setMem_ok {s : State} {x : List Instr × Mem} {m : Mem} (h : State.Ok x s) (hm : Mem.wf s.mem = true → Mem.wf m = true) :
    State.Ok x (s.setMem m) := ⟨h.1, fun k => hm (h.2 k)⟩

theorem ite_h {c : Prop} [Decidable c] {a b : State} {x : List Instr × Mem} (ha : c → a.held = x) (hb : ¬c → b.held = x) :
    (if c then a else b).held = x := by
  split
  · exact ha ‹_›
  · exact hb ‹_›
theorem ite1_h {β : Type} {c : Prop} [Decidable c] {a b : State × β} {x : List Instr × Mem} (ha : c → a.1.held = x)
    (hb : ¬c → b.1.held = x) : (if c then a else b).1.held = x := by
  split
  · exact ha ‹_›
  · exact hb ‹_›
theorem foldl_h {α : Type} {f : State → α → State} {l : List α} {s : State} {x : List Instr × Mem}
    (h : ∀ (t : State) a, t.held = x → (f t a).held = x) (hs : s.held = x) : (l.foldl f s).held = x := by
  induction l generalizing s with
  | nil => exact hs
  | cons a l ih => exact ih (h s a hs)
theorem fold1_h {α β : Type} {f : State × β → α → State × β} {l : List α} {p : State × β} {x : List Instr × Mem}
    (h : ∀ (p : State × β) a, p.1.held = x → (f p a).1.held = x) (hs : p.1.held = x) : (l.foldl f p).1.held = x := by
  induction l generalizing p with
  | nil => exact hs
  | cons a l ih => exact ih (h p a hs)
theorem next_h {t : State} {x : List Instr × Mem} (h : t.held = x) :
    ∃ u, (Host.Outcome.next t : Host.Outcome State Fault Refusal) = .next u ∧ u.held = x := ⟨t, rfl, h⟩

theorem held_res_ok {r : Res} {s : State} {mx : List Instr × Mem} (h : ∃ tv, r = .next tv ∧ tv.held = s.held) (hs : State.Ok mx s) :
    ∃ tv, r = .next tv ∧ State.Ok mx tv := by
  obtain ⟨t, e, k⟩ := h
  exact ⟨t, e, ok_of k hs⟩

theorem ite_ok {c : Prop} [Decidable c] {a b : State} {x : List Instr × Mem} (ha : c → State.Ok x a) (hb : ¬c → State.Ok x b) :
    State.Ok x (if c then a else b) := by
  split
  · exact ha ‹_›
  · exact hb ‹_›
theorem ite1_ok {β : Type} {c : Prop} [Decidable c] {a b : State × β} {x : List Instr × Mem} (ha : c → State.Ok x a.1)
    (hb : ¬c → State.Ok x b.1) : State.Ok x (if c then a else b).1 := by
  split
  · exact ha ‹_›
  · exact hb ‹_›
theorem foldl_ok {α : Type} {f : State → α → State} {l : List α} {s : State} {x : List Instr × Mem}
    (h : ∀ (t : State) a, State.Ok x t → State.Ok x (f t a)) (hs : State.Ok x s) : State.Ok x (l.foldl f s) := by
  induction l generalizing s with
  | nil => exact hs
  | cons a l ih => exact ih (h s a hs)
theorem fold1_ok {α β : Type} {f : State × β → α → State × β} {l : List α} {p : State × β} {x : List Instr × Mem}
    (h : ∀ (p : State × β) a, State.Ok x p.1 → State.Ok x (f p a).1) (hs : State.Ok x p.1) : State.Ok x (l.foldl f p).1 := by
  induction l generalizing p with
  | nil => exact hs
  | cons a l ih => exact ih (h p a hs)
theorem next_ok {t : State} {x : List Instr × Mem} (h : State.Ok x t) :
    ∃ u, (Host.Outcome.next t : Host.Outcome State Fault Refusal) = .next u ∧ State.Ok x u := ⟨t, rfl, h⟩
theorem State.setRegs_held {s : State} {v : Tbl Word} {x : List Instr × Mem} (h : s.held = x) : (s.setRegs v).held = x := h
theorem State.setPoison_held {s : State} {v : List Nat} {x : List Instr × Mem} (h : s.held = x) : (s.setPoison v).held = x := h
theorem State.setFresh_held {s : State} {v : Nat} {x : List Instr × Mem} (h : s.held = x) : (s.setFresh v).held = x := h
theorem State.setAnswer_held {s : State} {v : Word} {x : List Instr × Mem} (h : s.held = x) : (s.setAnswer v).held = x := h
theorem State.setAnswerStatus_held {s : State} {v : Nat} {x : List Instr × Mem} (h : s.held = x) : (s.setAnswerStatus v).held = x := h
theorem State.setBook_held {s : State} {v : Book} {x : List Instr × Mem} (h : s.held = x) : (s.setBook v).held = x := h
theorem State.setMgt_held {s : State} {v : Mgt} {x : List Instr × Mem} (h : s.held = x) : (s.setMgt v).held = x := h
theorem State.setFpFifo_held {s : State} {v : Tbl (List (Nat × Nat))} {x : List Instr × Mem} (h : s.held = x) : (s.setFpFifo v).held = x := h
theorem State.setEvtOnce_held {s : State} {v : Tbl Nat} {x : List Instr × Mem} (h : s.held = x) : (s.setEvtOnce v).held = x := h
theorem State.setCycles_held {s : State} {v : Nat} {x : List Instr × Mem} (h : s.held = x) : (s.setCycles v).held = x := h
theorem State.setPcie_held {s : State} {v : Pcie} {x : List Instr × Mem} (h : s.held = x) : (s.setPcie v).held = x := h
theorem State.setSent_held {s : State} {v : List Emit} {x : List Instr × Mem} (h : s.held = x) : (s.setSent v).held = x := h
theorem State.setBw_held {s : State} {v : Tbl BwMon} {x : List Instr × Mem} (h : s.held = x) : (s.setBw v).held = x := h
theorem State.setPmcLatch_held {s : State} {v : Tbl Nat} {x : List Instr × Mem} (h : s.held = x) : (s.setPmcLatch v).held = x := h
theorem State.setCal_held {s : State} {v : Cal} {x : List Instr × Mem} (h : s.held = x) : (s.setCal v).held = x := h
theorem State.setCfg_held {s : State} {v : CfgMaster} {x : List Instr × Mem} (h : s.held = x) : (s.setCfg v).held = x := h
theorem State.setTap_held {s : State} {v : Tap} {x : List Instr × Mem} (h : s.held = x) : (s.setTap v).held = x := h
theorem State.setPins_held {s : State} {v : Pins} {x : List Instr × Mem} (h : s.held = x) : (s.setPins v).held = x := h
theorem State.setFrames_held {s : State} {v : Tbl Frame} {x : List Instr × Mem} (h : s.held = x) : (s.setFrames v).held = x := h
theorem State.setClusters_held {s : State} {v : Tbl Config.ClusterCfg} {x : List Instr × Mem} (h : s.held = x) : (s.setClusters v).held = x := h
theorem State.setFfs_held {s : State} {v : Tbl (BitVec 16)} {x : List Instr × Mem} (h : s.held = x) : (s.setFfs v).held = x := h
theorem State.setRelStage_held {s : State} {v : Tbl Nat} {x : List Instr × Mem} (h : s.held = x) : (s.setRelStage v).held = x := h
theorem State.setFrozen_held {s : State} {v : List Nat} {x : List Instr × Mem} (h : s.held = x) : (s.setFrozen v).held = x := h
theorem State.setBramCfg_held {s : State} {v : Tbl Config.BramCfg} {x : List Instr × Mem} (h : s.held = x) : (s.setBramCfg v).held = x := h
theorem State.setBram_held {s : State} {v : Tbl Nat} {x : List Instr × Mem} (h : s.held = x) : (s.setBram v).held = x := h
theorem State.setBramPorts_held {s : State} {v : Tbl BramPort} {x : List Instr × Mem} (h : s.held = x) : (s.setBramPorts v).held = x := h
theorem State.setMultCfg_held {s : State} {v : Tbl Config.MultCfg} {x : List Instr × Mem} (h : s.held = x) : (s.setMultCfg v).held = x := h
theorem State.setMults_held {s : State} {v : Tbl MultRegs} {x : List Instr × Mem} (h : s.held = x) : (s.setMults v).held = x := h
theorem State.setRailKeep_held {s : State} {v : Tbl Nat} {x : List Instr × Mem} (h : s.held = x) : (s.setRailKeep v).held = x := h
theorem State.setChk_held {s : State} {v : Tbl Nat} {x : List Instr × Mem} (h : s.held = x) : (s.setChk v).held = x := h
theorem State.setEccRaw_held {s : State} {v : Tbl Nat} {x : List Instr × Mem} (h : s.held = x) : (s.setEccRaw v).held = x := h
theorem State.setEccScrub_held {s : State} {v : Tbl Nat} {x : List Instr × Mem} (h : s.held = x) : (s.setEccScrub v).held = x := h
theorem State.setTags_held {s : State} {v : Tbl TagSt} {x : List Instr × Mem} (h : s.held = x) : (s.setTags v).held = x := h
theorem State.setXUsed_held {s : State} {v : Tbl (Nat × Nat × Nat)} {x : List Instr × Mem} (h : s.held = x) : (s.setXUsed v).held = x := h
theorem State.setXWait_held {s : State} {v : Tbl (List (NocReq × Owner))} {x : List Instr × Mem} (h : s.held = x) : (s.setXWait v).held = x := h
theorem State.setXHeld_held {s : State} {v : Tbl (List (NocReq × Owner))} {x : List Instr × Mem} (h : s.held = x) : (s.setXHeld v).held = x := h
theorem State.setRouters_held {s : State} {v : Tbl (List WaitFlit)} {x : List Instr × Mem} (h : s.held = x) : (s.setRouters v).held = x := h
theorem State.setPortMode_held {s : State} {v : Tbl Nat} {x : List Instr × Mem} (h : s.held = x) : (s.setPortMode v).held = x := h
theorem State.setPortTags_held {s : State} {v : Tbl NocReq} {x : List Instr × Mem} (h : s.held = x) : (s.setPortTags v).held = x := h
theorem State.setPortFifo_held {s : State} {v : Tbl (List NocReq)} {x : List Instr × Mem} (h : s.held = x) : (s.setPortFifo v).held = x := h
theorem State.setDcache_held {s : State} {v : Tbl Nat} {x : List Instr × Mem} (h : s.held = x) : (s.setDcache v).held = x := h
theorem State.setDir_held {s : State} {v : Tbl DirRec} {x : List Instr × Mem} (h : s.held = x) : (s.setDir v).held = x := h
theorem State.setDieResets_held {s : State} {v : Tbl Nat} {x : List Instr × Mem} (h : s.held = x) : (s.setDieResets v).held = x := h
theorem State.setHomeTxn_held {s : State} {v : Tbl HomeTxn} {x : List Instr × Mem} (h : s.held = x) : (s.setHomeTxn v).held = x := h
theorem State.setCores_held {s : State} {v : Tbl Core} {x : List Instr × Mem} (h : s.held = x) : (s.setCores v).held = x := h
theorem State.setTngDone_held {s : State} {v : Tbl Nat} {x : List Instr × Mem} (h : s.held = x) : (s.setTngDone v).held = x := h
theorem State.setFab_held {s : State} {v : Fab} {x : List Instr × Mem} (h : s.held = x) : (s.setFab v).held = x := h
theorem State.setNet_held {s : State} {v : NetSt} {x : List Instr × Mem} (h : s.held = x) : (s.setNet v).held = x := h
theorem State.setRtrShare_held {s : State} {v : Tbl (List Nat)} {x : List Instr × Mem} (h : s.held = x) : (s.setRtrShare v).held = x := h
theorem State.setDbg_held {s : State} {v : Dbg} {x : List Instr × Mem} (h : s.held = x) : (s.setDbg v).held = x := h
theorem State.setDcWait_held {s : State} {v : Tbl (List NocReq)} {x : List Instr × Mem} (h : s.held = x) : (s.setDcWait v).held = x := h
theorem State.setPrcStep_held {s : State} {v : Tbl Nat} {x : List Instr × Mem} (h : s.held = x) : (s.setPrcStep v).held = x := h
theorem State.setPrcBlank_held {s : State} {v : List Nat} {x : List Instr × Mem} (h : s.held = x) : (s.setPrcBlank v).held = x := h
theorem State.setPrcHold_held {s : State} {v : List Nat} {x : List Instr × Mem} (h : s.held = x) : (s.setPrcHold v).held = x := h
theorem State.setCapWait_held {s : State} {v : Tbl CapReq} {x : List Instr × Mem} (h : s.held = x) : (s.setCapWait v).held = x := h
theorem State.setCapture_held {s : State} {v : Tbl (Tbl (BitVec 16))} {x : List Instr × Mem} (h : s.held = x) : (s.setCapture v).held = x := h
theorem State.setBramDef_held {s : State} {v : List Nat} {x : List Instr × Mem} (h : s.held = x) : (s.setBramDef v).held = x := h
theorem State.setScrubs_held {s : State} {v : Tbl Scrub} {x : List Instr × Mem} (h : s.held = x) : (s.setScrubs v).held = x := h
theorem State.setScrCopy_held {s : State} {v : Tbl (List Word)} {x : List Instr × Mem} (h : s.held = x) : (s.setScrCopy v).held = x := h
theorem State.setReleases_held {s : State} {v : List Release} {x : List Instr × Mem} (h : s.held = x) : (s.setReleases v).held = x := h
theorem State.setDieStep_held {s : State} {v : Tbl Nat} {x : List Instr × Mem} (h : s.held = x) : (s.setDieStep v).held = x := h
theorem State.setClampDef_held {s : State} {v : Tbl Nat} {x : List Instr × Mem} (h : s.held = x) : (s.setClampDef v).held = x := h
theorem State.setClamps_held {s : State} {v : Tbl (Nat × List (Nat × Nat))} {x : List Instr × Mem} (h : s.held = x) : (s.setClamps v).held = x := h
theorem State.setWelds_held {s : State} {v : Tbl WeldEnd} {x : List Instr × Mem} (h : s.held = x) : (s.setWelds v).held = x := h
theorem State.setLanes_held {s : State} {v : Tbl Lane} {x : List Instr × Mem} (h : s.held = x) : (s.setLanes v).held = x := h
theorem State.setMacMode_held {s : State} {v : Tbl Nat} {x : List Instr × Mem} (h : s.held = x) : (s.setMacMode v).held = x := h
theorem State.setTod_held {s : State} {v : Tod} {x : List Instr × Mem} (h : s.held = x) : (s.setTod v).held = x := h
theorem State.setLkp_held {s : State} {v : Tbl LkpEntry} {x : List Instr × Mem} (h : s.held = x) : (s.setLkp v).held = x := h
theorem State.setQueues_held {s : State} {v : Tbl PktQueue} {x : List Instr × Mem} (h : s.held = x) : (s.setQueues v).held = x := h
theorem State.setPorts_held {s : State} {v : Tbl PktPort} {x : List Instr × Mem} (h : s.held = x) : (s.setPorts v).held = x := h
theorem State.setPkt_held {s : State} {v : Tbl PktDie} {x : List Instr × Mem} (h : s.held = x) : (s.setPkt v).held = x := h
theorem State.setCxl_held {s : State} {v : Tbl CxlPort} {x : List Instr × Mem} (h : s.held = x) : (s.setCxl v).held = x := h
theorem State.setDdr_held {s : State} {v : Tbl DdrCh} {x : List Instr × Mem} (h : s.held = x) : (s.setDdr v).held = x := h
theorem State.setRegions_held {s : State} {v : Tbl ProtRegion} {x : List Instr × Mem} (h : s.held = x) : (s.setRegions v).held = x := h
theorem State.setProts_held {s : State} {v : Tbl Prot} {x : List Instr × Mem} (h : s.held = x) : (s.setProts v).held = x := h
theorem State.setKeyStore_held {s : State} {v : Tbl (BitVec 256)} {x : List Instr × Mem} (h : s.held = x) : (s.setKeyStore v).held = x := h
theorem State.setRings_held {s : State} {v : Tbl HostRing} {x : List Instr × Mem} (h : s.held = x) : (s.setRings v).held = x := h
theorem State.setOpenMem_held {s : State} {v : List (Nat × Nat)} {x : List Instr × Mem} (h : s.held = x) : (s.setOpenMem v).held = x := h
theorem State.setDcRights_held {s : State} {v : Tbl Nat} {x : List Instr × Mem} (h : s.held = x) : (s.setDcRights v).held = x := h
theorem State.setClk_held {s : State} {v : Clk} {x : List Instr × Mem} (h : s.held = x) : (s.setClk v).held = x := h
theorem State.setUnits_held {s : State} {v : Units} {x : List Instr × Mem} (h : s.held = x) : (s.setUnits v).held = x := h
theorem State.setHearthHit_held {s : State} {v : Bool} {x : List Instr × Mem} (h : s.held = x) : (s.setHearthHit v).held = x := h

end Sys2Proof.Machine
end

