-- ==== Sys2Proof/Laws/HeldOps.lean ====
section
/-! SUPPORT. For each operation of Machine/Ops.lean: the queue and the memory it keeps (`_held`), or, where it stores, that the queue stays and the memory keeps its canonical form (`_ok`). -/

namespace Sys2Proof.Machine
open Sys2Proof
set_option linter.tactic.unusedName false

theorem State.setReg_held {s : State} {a : At} {r : Reg} {v : Word} {mx : List Instr × Mem} (hh : s.held = mx) : (State.setReg s a r v).held = mx := by
  unfold State.setReg
  with_reducible repeat' (first
    | assumption
    | rfl
    | apply State.setRegs_held)

theorem State.put_held {s : State} {a : At} {f : Fld} {v : Nat} {mx : List Instr × Mem} (hh : s.held = mx) : (State.put s a f v).held = mx := by
  unfold State.put
  with_reducible repeat' (first
    | assumption
    | rfl
    | apply State.setReg_held)

theorem State.puts_held {s : State} {a : At} {l : List (Fld × Nat)} {mx : List Instr × Mem} (hh : s.held = mx) : (State.puts s a l).held = mx := by
  unfold State.puts
  with_reducible repeat' (first
    | (intro _)
    | assumption
    | rfl
    | apply State.put_held
    | apply foldl_h)

theorem State.bump_held {s : State} {a : At} {f : Fld} {n : Nat} {mx : List Instr × Mem} (hh : s.held = mx) : (State.bump s a f n).held = mx := by
  unfold State.bump
  with_reducible repeat' (first
    | assumption
    | rfl
    | apply State.put_held)

theorem State.setBit_held {s : State} {a : At} {f : Fld} {k : Nat} {mx : List Instr × Mem} (hh : s.held = mx) : (State.setBit s a f k).held = mx := by
  unfold State.setBit
  with_reducible repeat' (first
    | assumption
    | rfl
    | apply State.put_held)

theorem State.clrBit_held {s : State} {a : At} {f : Fld} {k : Nat} {mx : List Instr × Mem} (hh : s.held = mx) : (State.clrBit s a f k).held = mx := by
  unfold State.clrBit
  with_reducible repeat' (first
    | (intro _)
    | assumption
    | rfl
    | apply State.put_held
    | apply ite_h)

theorem State.used_held {s : State} {mx : List Instr × Mem} (hh : s.held = mx) : (State.used s).held = mx := by
  unfold State.used
  with_reducible repeat' (first
    | assumption
    | rfl
    | apply State.setFresh_held)

theorem State.emit_held {s : State} {e : Emit} {mx : List Instr × Mem} (hh : s.held = mx) : (State.emit s e).held = mx := by
  unfold State.emit
  with_reducible repeat' (first
    | assumption
    | rfl
    | apply State.setSent_held)

theorem State.resetDomain_held {s : State} {dom : Domain} {p : At → Bool} {mx : List Instr × Mem} (hh : s.held = mx) : (State.resetDomain s dom p).held = mx := by
  unfold State.resetDomain
  with_reducible repeat' (first
    | (intro _)
    | (extract_lets +onlyGivenNames tv; first | (refine (fun ht : State.held tv = mx => ?_) ?_; clear_value tv; rotate_left; subst tv; rotate_right) | (refine (fun ht : State.held (Prod.fst tv) = mx => ?_) ?_; clear_value tv; rotate_left; subst tv; rotate_right) | (have hu := tv; clear hu))
    | assumption
    | rfl
    | apply State.setRegs_held
    | (clear_value *; split))

theorem State.writeReg_held {s : State} {a : At} {r : Reg} {v : Word} {mx : List Instr × Mem} (hh : s.held = mx) : (State.writeReg s a r v).held = mx := by
  unfold State.writeReg
  with_reducible repeat' (first
    | assumption
    | rfl
    | apply State.setReg_held)

theorem State.readClears_held {s : State} {a : At} {r : Reg} {mx : List Instr × Mem} (hh : s.held = mx) : (State.readClears s a r).held = mx := by
  unfold State.readClears
  with_reducible repeat' (first
    | assumption
    | rfl
    | apply State.setReg_held)

theorem State.setPmc_held {s : State} {d : Die} {c : Nat} {n : Nat} {mx : List Instr × Mem} (hh : s.held = mx) : (State.setPmc s d c n).held = mx := by
  unfold State.setPmc
  with_reducible repeat' (first
    | assumption
    | rfl
    | apply State.put_held)

theorem State.pmcPlus_held {s : State} {d : Die} {c : Nat} {n : Nat} {mx : List Instr × Mem} (hh : s.held = mx) : (State.pmcPlus s d c n).held = mx := by
  unfold State.pmcPlus
  with_reducible repeat' (first
    | (intro _)
    | (extract_lets +onlyGivenNames tv; first | (refine (fun ht : State.held tv = mx => ?_) ?_; clear_value tv; rotate_left; subst tv; rotate_right) | (have hu := tv; clear hu))
    | assumption
    | rfl
    | apply State.setPmc_held
    | apply ite_h)

theorem State.setPmcOvf_held {s : State} {d : Die} {c : Nat} {mx : List Instr × Mem} (hh : s.held = mx) : (State.setPmcOvf s d c).held = mx := by
  unfold State.setPmcOvf
  with_reducible repeat' (first
    | (intro _)
    | assumption
    | rfl
    | apply State.setBit_held
    | apply ite_h)

theorem State.bwCount_held {s : State} {d : Die} {kind : Nat} {inst : Nat} {bytes : Nat} {items : Nat} {mx : List Instr × Mem} (hh : s.held = mx) : (State.bwCount s d kind inst bytes items).held = mx := by
  unfold State.bwCount
  with_reducible repeat' (first
    | (intro _)
    | (extract_lets +onlyGivenNames tv; first | (refine (fun ht : State.held tv = mx => ?_) ?_; clear_value tv; rotate_left; subst tv; rotate_right) | (refine (fun ht : State.held (Prod.fst tv) = mx => ?_) ?_; clear_value tv; rotate_left; subst tv; rotate_right) | (have hu := tv; clear hu))
    | assumption
    | rfl
    | apply State.setBw_held)

theorem State.onceStart_held {s : State} {key : Nat} {mx : List Instr × Mem} (hh : s.held = mx) : (State.onceStart s key).held = mx := by
  unfold State.onceStart
  with_reducible repeat' (first
    | assumption
    | rfl
    | apply State.setEvtOnce_held)

theorem State.irq_held {s : State} {d : Die} {core : Nat} {line : Nat} {mx : List Instr × Mem} (hh : s.held = mx) : (State.irq s d core line).held = mx := by
  unfold State.irq
  with_reducible repeat' (first
    | assumption
    | rfl
    | apply State.setBit_held)

theorem State.evtBits_held {s : State} {d : Die} {loc : Nat} {data : Nat} {mx : List Instr × Mem} (hh : s.held = mx) : (State.evtBits s d loc data).held = mx := by
  unfold State.evtBits
  with_reducible repeat' (first
    | (extract_lets +onlyGivenNames tv; first | (refine (fun ht : State.held tv = mx => ?_) ?_; clear_value tv; rotate_left; subst tv; rotate_right) | (have hu := tv; clear hu))
    | assumption
    | rfl
    | apply State.setBit_held
    | apply State.bump_held
    | apply State.put_held)

theorem State.msix_held {s : State} {vec : Nat} {mx : List Instr × Mem} (hh : s.held = mx) : (State.msix s vec).held = mx := by
  unfold State.msix
  with_reducible repeat' (first
    | (intro _)
    | assumption
    | rfl
    | apply State.emit_held
    | apply State.setPcie_held
    | apply ite_h)

theorem State.evtCores_held {s : State} {tdie : Die} {cores : Nat} {mx : List Instr × Mem} (hh : s.held = mx) : (State.evtCores s tdie cores).held = mx := by
  unfold State.evtCores
  with_reducible repeat' (first
    | (intro _)
    | assumption
    | rfl
    | apply State.irq_held
    | apply ite_h
    | apply foldl_h)

theorem State.evtPorts_held {s : State} {tdie : Die} {number : Nat} {data : Nat} {mx : List Instr × Mem} (hh : s.held = mx) : (State.evtPorts s tdie number data).1.held = mx := by
  unfold State.evtPorts
  with_reducible repeat' (first
    | (intro _)
    | (extract_lets +onlyGivenNames tv; have hu := tv; clear hu)
    | assumption
    | rfl
    | apply State.setFpFifo_held
    | apply State.bump_held
    | apply ite_h
    | apply foldl_h
    | apply ite1_h
    | apply fold1_h)
theorem State.evtPorts_heldp {s : State} {tdie : Die} {number : Nat} {data : Nat} {mx : List Instr × Mem} {tv : State} {ov : List Nat} (he : State.evtPorts s tdie number data = (tv, ov)) (hh : s.held = mx) : tv.held = mx := by
  have k := State.evtPorts_held (s := s) (tdie := tdie) (number := number) (data := data) hh
  rw [he] at k; exact k

theorem State.raiseBook_held {inner : State → Die → Nat → Nat → State} {s : State} {d : Die} {loc : Nat} {data : Nat} {mx : List Instr × Mem} (hi : ∀ {s : State} {d : Die} {a b : Nat}, s.held = mx → (inner s d a b).held = mx) (hh : s.held = mx) : (State.raiseBook inner s d loc data).held = mx := by
  unfold State.raiseBook
  with_reducible repeat' (first
    | (intro _)
    | (extract_lets +onlyGivenNames tv; have hu := tv; clear hu)
    | assumption
    | apply hi
    | rfl
    | apply State.setBook_held
    | apply State.bump_held
    | apply ite_h
    | split
    | (clear_value *; split))

theorem State.raisePorts_held {inner : State → Die → Nat → Nat → State} {s : State} {tdie : Die} {number : Nat} {data : Nat} {mx : List Instr × Mem} (hi : ∀ {s : State} {d : Die} {a b : Nat}, s.held = mx → (inner s d a b).held = mx) (hh : s.held = mx) : (State.raisePorts inner s tdie number data).held = mx := by
  unfold State.raisePorts
  with_reducible repeat' (first
    | (intro _)
    | (extract_lets +onlyGivenNames tv; first | (refine (fun ht : State.held (Prod.fst tv) = mx => ?_) ?_; clear_value tv; rotate_left; subst tv; rotate_right) | (have hu := tv; clear hu))
    | assumption
    | apply hi
    | rfl
    | refine State.evtPorts_heldp ‹_› ?_
    | apply State.evtPorts_held
    | apply State.onceStart_held
    | apply ite_h
    | apply ite1_h
    | split
    | (clear_value *; split))

theorem State.raisePmc_held {inner : State → Die → Nat → Nat → State} {s : State} {d : Die} {loc : Nat} {c : Nat} {mx : List Instr × Mem} (hi : ∀ {s : State} {d : Die} {a b : Nat}, s.held = mx → (inner s d a b).held = mx) (hh : s.held = mx) : (State.raisePmc inner s d loc c).held = mx := by
  unfold State.raisePmc
  with_reducible repeat' (first
    | (intro _)
    | (extract_lets +onlyGivenNames tv; first | (refine (fun ht : State.held tv = mx => ?_) ?_; clear_value tv; rotate_left; subst tv; rotate_right) | (have hu := tv; clear hu))
    | assumption
    | apply hi
    | rfl
    | apply State.pmcPlus_held
    | apply State.setPmcOvf_held
    | apply ite_h
    | split
    | (clear_value *; split))

theorem State.raiseWith_held {inner : State → Die → Nat → Nat → State} {s : State} {d : Die} {loc : Nat} {data : Nat} {mx : List Instr × Mem} (hi : ∀ {s : State} {d : Die} {a b : Nat}, s.held = mx → (inner s d a b).held = mx) (hh : s.held = mx) : (State.raiseWith inner s d loc data).held = mx := by
  unfold State.raiseWith
  with_reducible repeat' (first
    | (intro _)
    | (extract_lets +onlyGivenNames tv; first | (refine (fun ht : State.held tv = mx => ?_) ?_; clear_value tv; rotate_left; subst tv; rotate_right) | (have hu := tv; clear hu))
    | assumption
    | apply hi
    | apply State.raiseBook_held hi
    | apply State.raisePorts_held hi
    | apply State.raisePmc_held hi
    | rfl
    | apply State.evtBits_held
    | apply State.raiseBook_held
    | apply State.msix_held
    | apply State.evtCores_held
    | apply State.raisePorts_held
    | apply State.raisePmc_held
    | apply ite_h
    | apply foldl_h)

theorem State.raiseN_held {n : Nat} {s : State} {d : Die} {a b : Nat} {x : List Instr × Mem} (h : s.held = x) :
    (State.raiseN n s d a b).held = x := by
  induction n generalizing s d a b with
  | zero => exact State.evtBits_held h
  | succ n ih => exact State.raiseWith_held ih h

theorem State.raise_held {s : State} {d : Die} {loc : Nat} {data : Nat} {mx : List Instr × Mem} (hh : s.held = mx) : (State.raise s d loc data).held = mx := by
  unfold State.raise
  with_reducible repeat' (first
    | assumption
    | rfl
    | apply State.raiseN_held)

end Sys2Proof.Machine
end

