-- ==== Sys2Proof/Laws/HeldEvents.lean ====
section
/-! SUPPORT. For each operation of Machine/Events.lean: the queue and the memory it keeps (`_held`), or, where it stores, that the queue stays and the memory keeps its canonical form (`_ok`). -/

namespace Sys2Proof.Machine
open Sys2Proof
set_option linter.tactic.unusedName false

theorem execAttnForceWrite_held {force : Bool} {s : State} {mx : List Instr × Mem} (hh : s.held = mx) : ∃ tv, execAttnForceWrite force s = .next tv ∧ tv.held = mx := by
  unfold execAttnForceWrite
  with_reducible repeat' (first
    | assumption
    | rfl
    | apply next_h
    | apply State.put_held)

theorem execUserEventInput_held {die : FDie} {parcel : Fin 16} {inputs : BitVec 16} {data : BitVec 64} {s : State} {mx : List Instr × Mem} (hh : s.held = mx) : ∃ tv, execUserEventInput die parcel inputs data s = .next tv ∧ tv.held = mx := by
  unfold execUserEventInput
  with_reducible repeat' (first
    | (intro _)
    | assumption
    | rfl
    | apply next_h
    | apply State.raise_held
    | apply ite_h
    | apply foldl_h)

theorem State.emptyEventPort_held {s : State} {d : Die} {p : Nat} {mx : List Instr × Mem} (hh : s.held = mx) : (State.emptyEventPort s d p).held = mx := by
  unfold State.emptyEventPort
  with_reducible repeat' (first
    | assumption
    | rfl
    | apply State.setFpFifo_held)

theorem State.eventOut_held {s : State} {d : Die} {p : Nat} {clocks : Bool} {mx : List Instr × Mem} (hh : s.held = mx) : (State.eventOut s d p clocks).held = mx := by
  unfold State.eventOut
  with_reducible repeat' (first
    | (intro _)
    | assumption
    | rfl
    | apply State.setFpFifo_held
    | apply State.emit_held
    | apply ite_h
    | apply foldl_h
    | apply ite1_h
    | apply fold1_h
    | split
    | (clear_value *; split))

theorem execPmcClear_held {die : Die} {s : State} {mx : List Instr × Mem} (hh : s.held = mx) : ∃ tv, execPmcClear die s = .next tv ∧ tv.held = mx := by
  unfold execPmcClear
  with_reducible repeat' (first
    | (intro _)
    | assumption
    | rfl
    | apply next_h
    | apply State.setPmc_held
    | apply foldl_h)

theorem execPmcFreeze_held {die : Die} {freeze : Bool} {s : State} {mx : List Instr × Mem} (hh : s.held = mx) : ∃ tv, execPmcFreeze die freeze s = .next tv ∧ tv.held = mx := by
  unfold execPmcFreeze
  with_reducible repeat' (first
    | assumption
    | rfl
    | apply next_h
    | apply State.put_held)

theorem State.pmcReadLo_held {s : State} {d : Die} {c : Nat} {mx : List Instr × Mem} (hh : s.held = mx) : (State.pmcReadLo s d c).held = mx := by
  unfold State.pmcReadLo
  with_reducible repeat' (first
    | (intro _)
    | (extract_lets +onlyGivenNames tv; have hu := tv; clear hu)
    | assumption
    | rfl
    | apply State.setAnswer_held
    | apply State.setPmcLatch_held
    | apply ite_h)

theorem State.pmcReadHi_held {s : State} {d : Die} {c : Nat} {mx : List Instr × Mem} (hh : s.held = mx) : (State.pmcReadHi s d c).held = mx := by
  unfold State.pmcReadHi
  with_reducible repeat' (first
    | assumption
    | rfl
    | apply State.setAnswer_held)

theorem execPmcCounterRead_held {die : Die} {counter : Fin 64} {s : State} {mx : List Instr × Mem} (hh : s.held = mx) : ∃ tv, execPmcCounterRead die counter s = .next tv ∧ tv.held = mx := by
  unfold execPmcCounterRead
  with_reducible repeat' (first
    | assumption
    | rfl
    | apply next_h
    | apply State.pmcReadLo_held)

theorem execPmcOvf_held {die : Die} {counter : Fin 64} {s : State} {mx : List Instr × Mem} (hh : s.held = mx) : ∃ tv, execPmcOvf die counter s = .next tv ∧ tv.held = mx := by
  unfold execPmcOvf
  with_reducible repeat' (first
    | (intro _)
    | (extract_lets +onlyGivenNames tv; first | (refine (fun ht : State.held tv = mx => ?_) ?_; clear_value tv; rotate_left; subst tv; rotate_right) | (have hu := tv; clear hu))
    | assumption
    | rfl
    | apply next_h
    | apply State.pmcPlus_held
    | apply State.setPmcOvf_held
    | apply State.raise_held
    | apply ite_h
    | split
    | (clear_value *; split))

theorem execBwMonitorEnable_held {die : Die} {monitor : Fin 32} {value : Word} {s : State} {mx : List Instr × Mem} (hh : s.held = mx) : ∃ tv, execBwMonitorEnable die monitor value s = .next tv ∧ tv.held = mx := by
  unfold execBwMonitorEnable
  with_reducible repeat' (first
    | (intro _)
    | (extract_lets +onlyGivenNames tv; first | (refine (fun ht : State.held tv = mx => ?_) ?_; clear_value tv; rotate_left; subst tv; rotate_right) | (have hu := tv; clear hu))
    | assumption
    | rfl
    | apply next_h
    | apply State.writeReg_held
    | apply State.setBw_held
    | apply ite_h)

theorem State.bwStroke_held {s : State} {boundary : Bool} {mx : List Instr × Mem} (hh : s.held = mx) : (State.bwStroke s boundary).held = mx := by
  unfold State.bwStroke
  with_reducible repeat' (first
    | (intro _)
    | assumption
    | rfl
    | apply State.setBw_held)

theorem State.bwWindowEnd_held {s : State} {d : Die} {m : Nat} {mx : List Instr × Mem} (hh : s.held = mx) : (State.bwWindowEnd s d m).held = mx := by
  unfold State.bwWindowEnd
  with_reducible repeat' (first
    | (intro _)
    | (extract_lets +onlyGivenNames tv; first | (refine (fun ht : State.held tv = mx => ?_) ?_; clear_value tv; rotate_left; subst tv; rotate_right) | (have hu := tv; clear hu))
    | assumption
    | rfl
    | apply State.puts_held
    | apply State.setBw_held
    | apply State.raise_held
    | apply ite_h)

theorem execBwWindowEnd_held {die : Die} {monitor : Fin 32} {s : State} {mx : List Instr × Mem} (hh : s.held = mx) : ∃ tv, execBwWindowEnd die monitor s = .next tv ∧ tv.held = mx := by
  unfold execBwWindowEnd
  with_reducible repeat' (first
    | assumption
    | rfl
    | apply next_h
    | apply State.bwWindowEnd_held)

theorem State.pmcItems_held {s : State} {d : Die} {src : Nat} {inst : Nat} {n : Nat} {mx : List Instr × Mem} (hh : s.held = mx) : (State.pmcItems s d src inst n).held = mx := by
  unfold State.pmcItems
  with_reducible repeat' (first
    | (intro _)
    | (extract_lets +onlyGivenNames tv; first | (refine (fun ht : State.held tv = mx => ?_) ?_; clear_value tv; rotate_left; subst tv; rotate_right) | (have hu := tv; clear hu))
    | assumption
    | rfl
    | apply State.pmcPlus_held
    | apply State.setPmcOvf_held
    | apply State.raise_held
    | apply ite_h
    | apply foldl_h
    | apply ite1_h
    | apply fold1_h
    | split
    | (clear_value *; split))

end Sys2Proof.Machine
end

