-- ==== Sys2Proof/Laws/HeldEcc.lean ====
section
/-! SUPPORT. For each operation of Machine/Ecc.lean: the queue and the memory it keeps (`_held`), or, where it stores, that the queue stays and the memory keeps its canonical form (`_ok`). -/

namespace Sys2Proof.Machine
open Sys2Proof
set_option linter.tactic.unusedName false

theorem State.setEccData_ok {s : State} {d : Die} {g : Nat} {a : Nat} {v : Nat} {mx : List Instr × Mem} (hh : State.Ok mx s) : State.Ok mx (State.setEccData s d g a v) := by
  unfold State.setEccData
  with_reducible repeat' (first
    | (intro _)
    | assumption
    | exact ok_rfl
    | refine ok_of (State.setBram_held rfl) ?_
    | apply State.setMem_ok
    | refine ok_of (State.setEccRaw_held rfl) ?_
    | split
    | apply Mem.write_wf)

theorem State.eccLog_held {s : State} {d : Die} {g : Nat} {a : Nat} {ue : Bool} {synd : Nat} {mx : List Instr × Mem} (hh : s.held = mx) : (State.eccLog s d g a ue synd).held = mx := by
  unfold State.eccLog
  with_reducible repeat' (first
    | (intro _)
    | (extract_lets +onlyGivenNames tv; first | (refine (fun ht : State.held tv = mx => ?_) ?_; clear_value tv; rotate_left; subst tv; rotate_right) | (have hu := tv; clear hu))
    | assumption
    | rfl
    | apply State.bump_held
    | apply State.put_held
    | apply State.puts_held
    | apply State.raise_held
    | apply ite_h
    | split
    | (clear_value *; split))

theorem State.eccFound_held {s : State} {d : Die} {g : Nat} {a : Nat} {v : EccVerdict} {mx : List Instr × Mem} (hh : s.held = mx) : (State.eccFound s d g a v).held = mx := by
  unfold State.eccFound
  with_reducible repeat' (first
    | (intro _)
    | (extract_lets +onlyGivenNames tv; first | (refine (fun ht : State.held tv = mx => ?_) ?_; clear_value tv; rotate_left; subst tv; rotate_right) | (refine (fun ht : State.held (Prod.fst tv) = mx => ?_) ?_; clear_value tv; rotate_left; subst tv; rotate_right) | (have hu := tv; clear hu))
    | assumption
    | rfl
    | apply State.bump_held
    | apply State.onceStart_held
    | apply State.raise_held
    | apply State.eccLog_held
    | apply ite_h
    | apply foldl_h
    | apply ite1_h
    | apply fold1_h
    | split
    | (clear_value *; split))

theorem State.eccCapture_held {s : State} {d : Die} {g : Nat} {a : Nat} {mx : List Instr × Mem} (hh : s.held = mx) : (State.eccCapture s d g a).held = mx := by
  unfold State.eccCapture
  with_reducible repeat' (first
    | (intro _)
    | assumption
    | rfl
    | apply State.put_held
    | apply ite_h
    | apply foldl_h
    | apply ite1_h
    | apply fold1_h
    | split
    | (clear_value *; split))

theorem State.eccRead_held {s : State} {d : Die} {g : Nat} {a : Nat} {mx : List Instr × Mem} (hh : s.held = mx) : (State.eccRead s d g a).1.held = mx := by
  unfold State.eccRead
  with_reducible repeat' (first
    | (intro _)
    | (extract_lets +onlyGivenNames tv; first | (refine (fun ht : State.held tv = mx => ?_) ?_; clear_value tv; rotate_left; subst tv; rotate_right) | (refine (fun ht : State.held (Prod.fst tv) = mx => ?_) ?_; clear_value tv; rotate_left; subst tv; rotate_right) | (have hu := tv; clear hu))
    | assumption
    | rfl
    | apply State.eccFound_held
    | apply State.eccCapture_held
    | apply ite_h
    | apply foldl_h
    | apply ite1_h
    | apply fold1_h
    | split
    | (clear_value *; split))
theorem State.eccRead_heldp {s : State} {d : Die} {g : Nat} {a : Nat} {mx : List Instr × Mem} {tv : State} {ov : Nat × EccVerdict} (he : State.eccRead s d g a = (tv, ov)) (hh : s.held = mx) : tv.held = mx := by
  have k := State.eccRead_held (s := s) (d := d) (g := g) (a := a) hh
  rw [he] at k; exact k

theorem State.eccWrite_ok {s : State} {d : Die} {g : Nat} {a : Nat} {v : Nat} {mx : List Instr × Mem} (hh : State.Ok mx s) : State.Ok mx (State.eccWrite s d g a v) := by
  unfold State.eccWrite
  with_reducible repeat' (first
    | (intro _)
    | (extract_lets +onlyGivenNames tv; first | (refine (fun ht : State.Ok mx tv => ?_) ?_; clear_value tv; rotate_left; subst tv; rotate_right) | (have hu := tv; clear hu))
    | assumption
    | exact ok_rfl
    | apply State.setEccData_ok
    | refine ok_of (State.setChk_held rfl) ?_
    | refine ok_of (State.put_held rfl) ?_
    | apply ite_ok)

theorem State.eccFresh_held {s : State} {d : Die} {g : Nat} {a : Nat} {mx : List Instr × Mem} (hh : s.held = mx) : (State.eccFresh s d g a).held = mx := by
  unfold State.eccFresh
  with_reducible repeat' (first
    | (intro _)
    | (extract_lets +onlyGivenNames tv; first | (refine (fun ht : State.held tv = mx => ?_) ?_; clear_value tv; rotate_left; subst tv; rotate_right) | (refine (fun ht : State.held (Prod.fst tv) = mx => ?_) ?_; clear_value tv; rotate_left; subst tv; rotate_right) | (have hu := tv; clear hu))
    | assumption
    | rfl
    | apply State.setChk_held
    | apply State.setEccRaw_held
    | apply State.put_held
    | apply ite_h
    | apply foldl_h
    | apply ite1_h
    | apply fold1_h
    | split
    | (clear_value *; split))

theorem State.eccMend_held {s : State} {d : Die} {g : Nat} {a : Nat} {mx : List Instr × Mem} (hh : s.held = mx) : (State.eccMend s d g a).held = mx := by
  unfold State.eccMend
  with_reducible repeat' (first
    | (intro _)
    | assumption
    | rfl
    | apply State.setChk_held
    | apply State.setEccRaw_held
    | apply ite_h
    | apply foldl_h
    | apply ite1_h
    | apply fold1_h
    | split
    | (clear_value *; split))

theorem State.eccWrites_held {s : State} {d : Die} {g : Nat} {a : Nat} {mask : Nat} {mx : List Instr × Mem} (hh : s.held = mx) : (State.eccWrites s d g a mask).held = mx := by
  unfold State.eccWrites
  with_reducible repeat' (first
    | (intro _)
    | (extract_lets +onlyGivenNames tv; first | (refine (fun ht : State.held tv = mx => ?_) ?_; clear_value tv; rotate_left; subst tv; rotate_right) | (refine (fun ht : State.held (Prod.fst tv) = mx => ?_) ?_; clear_value tv; rotate_left; subst tv; rotate_right) | (have hu := tv; clear hu))
    | assumption
    | rfl
    | apply State.eccFresh_held
    | apply State.eccMend_held
    | apply ite_h
    | apply foldl_h
    | apply ite1_h
    | apply fold1_h
    | split
    | (clear_value *; split))

theorem State.slotRead_held {s : State} {d : Die} {g : Nat} {a : Nat} {quiet : Bool} {mx : List Instr × Mem} (hh : s.held = mx) : (State.slotRead s d g a quiet).1.held = mx := by
  unfold State.slotRead
  with_reducible repeat' (first
    | (intro _)
    | (extract_lets +onlyGivenNames tv; first | (refine (fun ht : State.held tv = mx => ?_) ?_; clear_value tv; rotate_left; subst tv; rotate_right) | (refine (fun ht : State.held (Prod.fst tv) = mx => ?_) ?_; clear_value tv; rotate_left; subst tv; rotate_right) | (have hu := tv; clear hu))
    | assumption
    | rfl
    | apply State.eccCapture_held
    | refine State.eccRead_heldp ‹_› ?_
    | apply State.eccRead_held
    | apply ite_h
    | apply foldl_h
    | apply ite1_h
    | apply fold1_h
    | split
    | (clear_value *; split))
theorem State.slotRead_heldp {s : State} {d : Die} {g : Nat} {a : Nat} {quiet : Bool} {mx : List Instr × Mem} {tv : State} {ov : Nat × Bool} (he : State.slotRead s d g a quiet = (tv, ov)) (hh : s.held = mx) : tv.held = mx := by
  have k := State.slotRead_held (s := s) (d := d) (g := g) (a := a) (quiet := quiet) hh
  rw [he] at k; exact k

theorem State.eccReads_held {s : State} {d : Die} {g : Nat} {words : List Nat} {quiet : Bool} {mx : List Instr × Mem} (hh : s.held = mx) : (State.eccReads s d g words quiet).1.held = mx := by
  unfold State.eccReads
  with_reducible repeat' (first
    | (intro _)
    | (extract_lets +onlyGivenNames tv; first | (refine (fun ht : State.held tv = mx => ?_) ?_; clear_value tv; rotate_left; subst tv; rotate_right) | (refine (fun ht : State.held (Prod.fst tv) = mx => ?_) ?_; clear_value tv; rotate_left; subst tv; rotate_right) | (have hu := tv; clear hu))
    | assumption
    | rfl
    | refine State.slotRead_heldp ‹_› ?_
    | apply State.slotRead_held
    | apply ite_h
    | apply foldl_h
    | apply ite1_h
    | apply fold1_h
    | split
    | (clear_value *; split))
theorem State.eccReads_heldp {s : State} {d : Die} {g : Nat} {words : List Nat} {quiet : Bool} {mx : List Instr × Mem} {tv : State} {ov : Bool} (he : State.eccReads s d g words quiet = (tv, ov)) (hh : s.held = mx) : tv.held = mx := by
  have k := State.eccReads_held (s := s) (d := d) (g := g) (words := words) (quiet := quiet) hh
  rw [he] at k; exact k

theorem execEccTestArm_held {die : Die} {value : Word} {s : State} {mx : List Instr × Mem} (hh : s.held = mx) : ∃ tv, execEccTestArm die value s = .next tv ∧ tv.held = mx := by
  unfold execEccTestArm
  with_reducible repeat' (first
    | assumption
    | rfl
    | apply next_h
    | apply State.writeReg_held)

theorem State.bitError_ok {s : State} {d : Die} {group : Nat} {a : Nat} {bit : Nat} {mx : List Instr × Mem} (hh : State.Ok mx s) : State.Ok mx (State.bitError s d group a bit) := by
  unfold State.bitError
  with_reducible repeat' (first
    | (intro _)
    | (extract_lets +onlyGivenNames tv; first | (refine (fun ht : State.Ok mx tv => ?_) ?_; clear_value tv; rotate_left; subst tv; rotate_right) | (refine (fun ht : State.Ok mx (Prod.fst tv) => ?_) ?_; clear_value tv; rotate_left; subst tv; rotate_right) | (have hu := tv; clear hu))
    | assumption
    | exact ok_rfl
    | refine ok_of (State.setChk_held rfl) ?_
    | apply State.setEccData_ok
    | apply ite_ok
    | apply foldl_ok
    | apply ite1_ok
    | apply fold1_ok
    | split
    | (clear_value *; split))

theorem execMemoryBitError_ok {die : Die} {group : Fin 16} {addr : BitVec 24} {bit : Fin 72} {s : State} {mx : List Instr × Mem} (hh : State.Ok mx s) : ∃ tv, execMemoryBitError die group addr bit s = .next tv ∧ State.Ok mx tv := by
  unfold execMemoryBitError
  with_reducible repeat' (first
    | assumption
    | exact ok_rfl
    | apply next_ok
    | apply State.bitError_ok)

end Sys2Proof.Machine
end

