-- ==== Sys2Proof/Laws/HeldFabric.lean ====
section
/-! SUPPORT. For each operation of Machine/Fabric.lean: the queue and the memory it keeps (`_held`), or, where it stores, that the queue stays and the memory keeps its canonical form (`_ok`). -/

namespace Sys2Proof.Machine
open Sys2Proof
set_option linter.tactic.unusedName false

/-- A block RAM's word is its own: it stands in no memory of the address map. -/
theorem State.eccWrite0_held {s : State} {d : Die} {a : Nat} {v : Nat} {mx : List Instr × Mem} (hh : s.held = mx) : (State.eccWrite s d 0 a v).held = mx := by
  unfold State.eccWrite
  dsimp only
  split
  · exact State.put_held (State.setChk_held (State.setBram_held hh))
  · exact State.setChk_held (State.setBram_held hh)

theorem State.railFollow_held {s : State} {d : Die} {n : Nat} {v : Bool} {mx : List Instr × Mem} (hh : s.held = mx) : (State.railFollow s d n v).held = mx := by
  unfold State.railFollow
  with_reducible repeat' (first
    | (intro _)
    | assumption
    | rfl
    | apply State.setRailKeep_held
    | apply ite_h)

theorem State.railContend_held {s : State} {d : Die} {n : Nat} {drivers : Nat} {mx : List Instr × Mem} (hh : s.held = mx) : (State.railContend s d n drivers).held = mx := by
  unfold State.railContend
  with_reducible repeat' (first
    | (intro _)
    | (extract_lets +onlyGivenNames tv; first | (refine (fun ht : State.held tv = mx => ?_) ?_; clear_value tv; rotate_left; subst tv; rotate_right) | (have hu := tv; clear hu))
    | assumption
    | rfl
    | apply State.setBit_held
    | apply State.bump_held
    | apply State.puts_held
    | apply State.raise_held
    | apply ite_h)

theorem State.railClearAll_held {s : State} {d : Die} {mx : List Instr × Mem} (hh : s.held = mx) : (State.railClearAll s d).held = mx := by
  unfold State.railClearAll
  with_reducible repeat' (first
    | (intro _)
    | assumption
    | rfl
    | apply State.put_held
    | apply ite_h
    | apply foldl_h)

theorem State.railReset_held {s : State} {d : Die} {p : Nat} {mx : List Instr × Mem} (hh : s.held = mx) : (State.railReset s d p).held = mx := by
  unfold State.railReset
  with_reducible repeat' (first
    | (intro _)
    | (extract_lets +onlyGivenNames tv; first | (refine (fun ht : State.held tv = mx => ?_) ?_; clear_value tv; rotate_left; subst tv; rotate_right) | (have hu := tv; clear hu))
    | assumption
    | rfl
    | apply State.setRailKeep_held
    | apply State.put_held
    | apply ite_h
    | apply foldl_h)

theorem State.gatesLow_held {s : State} {d : Die} {p : Nat} {mx : List Instr × Mem} (hh : s.held = mx) : (State.gatesLow s d p).held = mx := by
  unfold State.gatesLow
  with_reducible repeat' (first
    | (intro _)
    | assumption
    | rfl
    | apply State.setFab_held
    | apply ite_h
    | apply foldl_h
    | apply ite1_h
    | apply fold1_h
    | split
    | (clear_value *; split))

theorem State.assertGsr_held {s : State} {d : Die} {p : Nat} {mx : List Instr × Mem} (hh : s.held = mx) : (State.assertGsr s d p).held = mx := by
  unfold State.assertGsr
  with_reducible repeat' (first
    | (intro _)
    | (extract_lets +onlyGivenNames tv; first | (refine (fun ht : State.held tv = mx => ?_) ?_; clear_value tv; rotate_left; subst tv; rotate_right) | (refine (fun ht : State.held (Prod.fst tv) = mx => ?_) ?_; clear_value tv; rotate_left; subst tv; rotate_right) | (have hu := tv; clear hu))
    | assumption
    | rfl
    | apply State.setFfs_held
    | apply State.setRelStage_held
    | apply State.setBramPorts_held
    | apply State.setMults_held
    | apply State.gatesLow_held
    | apply ite_h
    | apply foldl_h
    | apply ite1_h
    | apply fold1_h
    | split
    | (clear_value *; split))

theorem State.bramStore_held {s : State} {d : Die} {n : Nat} {w : Nat} {mask : Nat} {v : Nat} {mx : List Instr × Mem} (hh : s.held = mx) : (State.bramStore s d n w mask v).held = mx := by
  unfold State.bramStore
  split
  · exact hh
  · split
    · exact State.eccWrite0_held hh
    · dsimp only
      split
      · exact State.setChk_held (State.setBram_held (State.eccFound_held hh))
      · exact State.setChk_held (State.setBram_held (State.eccFound_held hh))

theorem State.bramShow_held {s : State} {d : Die} {n : Nat} {port : Nat} {outReg : Bool} {rsto : Bool} {v : Nat} {k : EccVerdict} {mx : List Instr × Mem} (hh : s.held = mx) : (State.bramShow s d n port outReg rsto v k).held = mx := by
  unfold State.bramShow
  with_reducible repeat' (first
    | (intro _)
    | (extract_lets +onlyGivenNames tv; first | (refine (fun ht : State.held tv = mx => ?_) ?_; clear_value tv; rotate_left; subst tv; rotate_right) | (refine (fun ht : State.held (Prod.fst tv) = mx => ?_) ?_; clear_value tv; rotate_left; subst tv; rotate_right) | (have hu := tv; clear hu))
    | assumption
    | rfl
    | apply State.setBramPorts_held
    | apply ite_h
    | apply foldl_h
    | apply ite1_h
    | apply fold1_h
    | split
    | (clear_value *; split))

theorem State.bramLoad_held {s : State} {d : Die} {n : Nat} {port : Nat} {geom : Nat} {addr : Nat} {w : Nat} {outReg : Bool} {rsto : Bool} {mx : List Instr × Mem} (hh : s.held = mx) : (State.bramLoad s d n port geom addr w outReg rsto).held = mx := by
  unfold State.bramLoad
  with_reducible repeat' (first
    | (intro _)
    | (extract_lets +onlyGivenNames tv; first | (refine (fun ht : State.held tv = mx => ?_) ?_; clear_value tv; rotate_left; subst tv; rotate_right) | (refine (fun ht : State.held (Prod.fst tv) = mx => ?_) ?_; clear_value tv; rotate_left; subst tv; rotate_right) | (have hu := tv; clear hu))
    | assumption
    | rfl
    | refine State.eccRead_heldp ‹_› ?_
    | apply State.eccRead_held
    | apply State.bramShow_held
    | apply ite_h
    | apply foldl_h
    | apply ite1_h
    | apply fold1_h
    | split
    | (clear_value *; split))

theorem State.bramEcho_held {s : State} {d : Die} {n : Nat} {port : Nat} {geom : Nat} {outReg : Bool} {x : BramAccess} {mx : List Instr × Mem} (hh : s.held = mx) : (State.bramEcho s d n port geom outReg x).held = mx := by
  unfold State.bramEcho
  with_reducible repeat' (first
    | (intro _)
    | (extract_lets +onlyGivenNames tv; first | (refine (fun ht : State.held tv = mx => ?_) ?_; clear_value tv; rotate_left; subst tv; rotate_right) | (refine (fun ht : State.held (Prod.fst tv) = mx => ?_) ?_; clear_value tv; rotate_left; subst tv; rotate_right) | (have hu := tv; clear hu))
    | assumption
    | rfl
    | apply State.bramShow_held
    | apply ite_h
    | apply foldl_h
    | apply ite1_h
    | apply fold1_h
    | split
    | (clear_value *; split))

theorem State.bramSimpleRead_held {s : State} {d : Die} {n : Nat} {cfg : Config.BramCfg} {x : BramAccess} {mx : List Instr × Mem} (hh : s.held = mx) : (State.bramSimpleRead s d n cfg x).held = mx := by
  unfold State.bramSimpleRead
  with_reducible repeat' (first
    | (intro _)
    | assumption
    | rfl
    | apply State.bramLoad_held
    | apply ite_h
    | apply foldl_h
    | apply ite1_h
    | apply fold1_h
    | split
    | (clear_value *; split))

theorem State.bramSimpleWrite_held {s : State} {d : Die} {n : Nat} {cfg : Config.BramCfg} {x : BramAccess} {mx : List Instr × Mem} (hh : s.held = mx) : (State.bramSimpleWrite s d n cfg x).held = mx := by
  unfold State.bramSimpleWrite
  with_reducible repeat' (first
    | (intro _)
    | (extract_lets +onlyGivenNames tv; first | (refine (fun ht : State.held tv = mx => ?_) ?_; clear_value tv; rotate_left; subst tv; rotate_right) | (refine (fun ht : State.held (Prod.fst tv) = mx => ?_) ?_; clear_value tv; rotate_left; subst tv; rotate_right) | (have hu := tv; clear hu))
    | assumption
    | rfl
    | apply State.bramStore_held
    | apply ite_h
    | apply foldl_h
    | apply ite1_h
    | apply fold1_h
    | split
    | (clear_value *; split))

theorem State.bramPortRead_held {s : State} {d : Die} {n : Nat} {port : Nat} {geom : Nat} {outReg : Bool} {a0 : Option BramAccess} {mx : List Instr × Mem} (hh : s.held = mx) : (State.bramPortRead s d n port geom outReg a0).held = mx := by
  unfold State.bramPortRead
  with_reducible repeat' (first
    | (intro _)
    | assumption
    | rfl
    | apply State.bramLoad_held
    | apply ite_h
    | apply foldl_h
    | apply ite1_h
    | apply fold1_h
    | split
    | (clear_value *; split))

theorem State.bramPortWrite_held {s : State} {d : Die} {n : Nat} {geom : Nat} {a0 : Option BramAccess} {mx : List Instr × Mem} (hh : s.held = mx) : (State.bramPortWrite s d n geom a0).held = mx := by
  unfold State.bramPortWrite
  with_reducible repeat' (first
    | (intro _)
    | (extract_lets +onlyGivenNames tv; first | (refine (fun ht : State.held tv = mx => ?_) ?_; clear_value tv; rotate_left; subst tv; rotate_right) | (refine (fun ht : State.held (Prod.fst tv) = mx => ?_) ?_; clear_value tv; rotate_left; subst tv; rotate_right) | (have hu := tv; clear hu))
    | assumption
    | rfl
    | apply State.bramStore_held
    | apply ite_h
    | apply foldl_h
    | apply ite1_h
    | apply fold1_h
    | split
    | (clear_value *; split))

theorem State.bramPortEcho_held {s : State} {d : Die} {n : Nat} {port : Nat} {geom : Nat} {outReg : Bool} {a0 : Option BramAccess} {mx : List Instr × Mem} (hh : s.held = mx) : (State.bramPortEcho s d n port geom outReg a0).held = mx := by
  unfold State.bramPortEcho
  with_reducible repeat' (first
    | (intro _)
    | assumption
    | rfl
    | apply State.bramEcho_held
    | apply ite_h
    | apply foldl_h
    | apply ite1_h
    | apply fold1_h
    | split
    | (clear_value *; split))

theorem State.bramSimple_held {s : State} {d : Die} {n : Nat} {cfg : Config.BramCfg} {reads : Bool} {a : Option BramAccess} {b : Option BramAccess} {mx : List Instr × Mem} (hh : s.held = mx) : (State.bramSimple s d n cfg reads a b).held = mx := by
  unfold State.bramSimple
  with_reducible repeat' (first
    | (intro _)
    | (extract_lets +onlyGivenNames tv; first | (refine (fun ht : State.held tv = mx => ?_) ?_; clear_value tv; rotate_left; subst tv; rotate_right) | (refine (fun ht : State.held (Prod.fst tv) = mx => ?_) ?_; clear_value tv; rotate_left; subst tv; rotate_right) | (have hu := tv; clear hu))
    | assumption
    | rfl
    | apply State.bramSimpleRead_held
    | apply State.bramSimpleWrite_held
    | apply ite_h
    | apply foldl_h
    | apply ite1_h
    | apply fold1_h
    | split
    | (clear_value *; split))

theorem State.bramDual_held {s : State} {d : Die} {n : Nat} {cfg : Config.BramCfg} {reads : Bool} {a : Option BramAccess} {b : Option BramAccess} {mx : List Instr × Mem} (hh : s.held = mx) : (State.bramDual s d n cfg reads a b).held = mx := by
  unfold State.bramDual
  with_reducible repeat' (first
    | (intro _)
    | (extract_lets +onlyGivenNames tv; first | (refine (fun ht : State.held tv = mx => ?_) ?_; clear_value tv; rotate_left; subst tv; rotate_right) | (refine (fun ht : State.held (Prod.fst tv) = mx => ?_) ?_; clear_value tv; rotate_left; subst tv; rotate_right) | (have hu := tv; clear hu))
    | assumption
    | rfl
    | apply State.bramPortRead_held
    | apply State.bramPortWrite_held
    | apply State.bramPortEcho_held
    | apply ite_h
    | apply foldl_h
    | apply ite1_h
    | apply fold1_h
    | split
    | (clear_value *; split))

theorem State.bramEdge_held {s : State} {d : Die} {n : Nat} {a : Option BramAccess} {b : Option BramAccess} {mx : List Instr × Mem} (hh : s.held = mx) : (State.bramEdge s d n a b).held = mx := by
  unfold State.bramEdge
  with_reducible repeat' (first
    | (intro _)
    | (extract_lets +onlyGivenNames tv; first | (refine (fun ht : State.held tv = mx => ?_) ?_; clear_value tv; rotate_left; subst tv; rotate_right) | (refine (fun ht : State.held (Prod.fst tv) = mx => ?_) ?_; clear_value tv; rotate_left; subst tv; rotate_right) | (have hu := tv; clear hu))
    | assumption
    | rfl
    | apply State.bramSimple_held
    | apply State.bramDual_held
    | apply ite_h
    | apply foldl_h
    | apply ite1_h
    | apply fold1_h
    | split
    | (clear_value *; split))

theorem State.bramAccess_held {s : State} {d : Die} {n : Nat} {portB : Bool} {x : BramAccess} {other : Option BramAccess} {mx : List Instr × Mem} (hh : s.held = mx) : (State.bramAccess s d n portB x other).held = mx := by
  unfold State.bramAccess
  with_reducible repeat' (first
    | (intro _)
    | assumption
    | rfl
    | apply State.bramEdge_held
    | apply ite_h
    | apply foldl_h
    | apply ite1_h
    | apply fold1_h
    | split
    | (clear_value *; split))

theorem State.multClock_held {s : State} {d : Die} {n : Nat} {ce : Bool} {rst : Bool} {i : MultIn} {pcin : Int} {mx : List Instr × Mem} (hh : s.held = mx) : (State.multClock s d n ce rst i pcin).held = mx := by
  unfold State.multClock
  with_reducible repeat' (first
    | (intro _)
    | assumption
    | rfl
    | apply State.setMults_held
    | apply ite_h
    | apply foldl_h
    | apply ite1_h
    | apply fold1_h
    | split
    | (clear_value *; split))

end Sys2Proof.Machine
end

