-- ==== Sys2Proof/Laws/HeldRouting.lean ====
section
/-! SUPPORT. For each operation of Machine/Routing.lean: the queue and the memory it keeps (`_held`), or, where it stores, that the queue stays and the memory keeps its canonical form (`_ok`). -/

namespace Sys2Proof.Machine
open Sys2Proof Config
set_option linter.tactic.unusedName false

theorem State.setSeam_held {s : State} {d : Die} {edge : Nat} {g : Nat} {x : Seam} {mx : List Instr × Mem} (hh : s.held = mx) : (State.setSeam s d edge g x).held = mx := by
  unfold State.setSeam
  with_reducible repeat' (first
    | (intro _)
    | assumption
    | rfl
    | apply State.setFab_held
    | apply ite_h
    | apply foldl_h
    | apply ite1_h
    | apply fold1_h
    | split
    | (clear_value *; split))

theorem State.muxSet_held {s : State} {d : Die} {m : Node} {code : Nat} {mx : List Instr × Mem} (hh : s.held = mx) : (State.muxSet s d m code).held = mx := by
  unfold State.muxSet
  with_reducible repeat' (first
    | (intro _)
    | assumption
    | rfl
    | apply State.setFab_held
    | apply ite_h
    | apply foldl_h
    | apply ite1_h
    | apply fold1_h
    | split
    | (clear_value *; split))

theorem State.carry_held {s : State} {d : Die} {p : Nat} {mx : List Instr × Mem} (hh : s.held = mx) : (State.carry s d p).held = mx := by
  unfold State.carry
  with_reducible repeat' (first
    | (intro _)
    | (extract_lets +onlyGivenNames tv; first | (refine (fun ht : State.held tv = mx => ?_) ?_; clear_value tv; rotate_left; subst tv; rotate_right) | (refine (fun ht : State.held (Prod.fst tv) = mx => ?_) ?_; clear_value tv; rotate_left; subst tv; rotate_right) | (have hu := tv; clear hu))
    | assumption
    | rfl
    | apply State.setFab_held
    | apply ite_h
    | apply foldl_h
    | apply ite1_h
    | apply fold1_h
    | split
    | (clear_value *; split))

end Sys2Proof.Machine
end

