-- ==== Sys2Proof/Laws/HeldFabricClocks.lean ====
section
/-! SUPPORT. For each operation of Machine/FabricClocks.lean: the queue and the memory it keeps (`_held`), or, where it stores, that the queue stays and the memory keeps its canonical form (`_ok`). -/

namespace Sys2Proof.Machine
open Sys2Proof Config
set_option linter.tactic.unusedName false

theorem State.railSettle_held {s : State} {d : Die} {mx : List Instr × Mem} (hh : s.held = mx) : (State.railSettle s d).held = mx := by
  unfold State.railSettle
  with_reducible repeat' (first
    | (intro _)
    | assumption
    | rfl
    | apply State.railFollow_held
    | apply ite_h
    | apply foldl_h
    | apply ite1_h
    | apply fold1_h
    | split
    | (clear_value *; split))

theorem State.railDetect_held {s : State} {d : Die} {n : Nat} {mx : List Instr × Mem} (hh : s.held = mx) : (State.railDetect s d n).held = mx := by
  unfold State.railDetect
  with_reducible repeat' (first
    | (intro _)
    | assumption
    | rfl
    | apply State.railContend_held
    | apply State.railSettle_held
    | apply ite_h
    | apply foldl_h
    | apply ite1_h
    | apply fold1_h
    | split
    | (clear_value *; split))

theorem State.railFlagClear_held {s : State} {d : Die} {group : Nat} {mask : Nat} {mx : List Instr × Mem} (hh : s.held = mx) : (State.railFlagClear s d group mask).held = mx := by
  unfold State.railFlagClear
  with_reducible repeat' (first
    | (intro _)
    | (extract_lets +onlyGivenNames tv; first | (refine (fun ht : State.held tv = mx => ?_) ?_; clear_value tv; rotate_left; subst tv; rotate_right) | (refine (fun ht : State.held (Prod.fst tv) = mx => ?_) ?_; clear_value tv; rotate_left; subst tv; rotate_right) | (have hu := tv; clear hu))
    | assumption
    | rfl
    | apply State.put_held
    | apply State.railContend_held
    | apply State.railSettle_held
    | apply ite_h
    | apply foldl_h
    | apply ite1_h
    | apply fold1_h
    | split
    | (clear_value *; split))

theorem State.railClear_held {s : State} {d : Die} {mx : List Instr × Mem} (hh : s.held = mx) : (State.railClear s d).held = mx := by
  unfold State.railClear
  with_reducible repeat' (first
    | (intro _)
    | (extract_lets +onlyGivenNames tv; first | (refine (fun ht : State.held tv = mx => ?_) ?_; clear_value tv; rotate_left; subst tv; rotate_right) | (refine (fun ht : State.held (Prod.fst tv) = mx => ?_) ?_; clear_value tv; rotate_left; subst tv; rotate_right) | (have hu := tv; clear hu))
    | assumption
    | rfl
    | apply State.railContend_held
    | apply State.railClearAll_held
    | apply State.railSettle_held
    | apply ite_h
    | apply foldl_h
    | apply ite1_h
    | apply fold1_h
    | split
    | (clear_value *; split))

theorem execRailContention_held {die : FDie} {rail : Fin 24576} {s : State} {mx : List Instr × Mem} (hh : s.held = mx) : ∃ tv, execRailContention die rail s = .next tv ∧ tv.held = mx := by
  unfold execRailContention
  with_reducible repeat' (first
    | (intro _)
    | assumption
    | rfl
    | apply next_h
    | apply State.railDetect_held
    | apply ite_h
    | apply foldl_h
    | apply ite1_h
    | apply fold1_h
    | split
    | (clear_value *; split))

theorem execRailFlagClear_held {die : FDie} {group : Fin 768} {mask : BitVec 32} {s : State} {mx : List Instr × Mem} (hh : s.held = mx) : ∃ tv, execRailFlagClear die group mask s = .next tv ∧ tv.held = mx := by
  unfold execRailFlagClear
  with_reducible repeat' (first
    | (intro _)
    | assumption
    | rfl
    | apply next_h
    | apply State.railFlagClear_held
    | apply ite_h
    | apply foldl_h
    | apply ite1_h
    | apply fold1_h
    | split
    | (clear_value *; split))

theorem execRailClearAll_held {die : FDie} {s : State} {mx : List Instr × Mem} (hh : s.held = mx) : ∃ tv, execRailClearAll die s = .next tv ∧ tv.held = mx := by
  unfold execRailClearAll
  with_reducible repeat' (first
    | (intro _)
    | assumption
    | rfl
    | apply next_h
    | apply State.railClear_held
    | apply ite_h
    | apply foldl_h
    | apply ite1_h
    | apply fold1_h
    | split
    | (clear_value *; split))

theorem State.clusterEdge_held {t : State} {o : State} {d : Die} {n : Nat} {edges : List (Nat × Bool)} {mx : List Instr × Mem} (hh : t.held = mx) : (State.clusterEdge t o d n edges).held = mx := by
  unfold State.clusterEdge
  with_reducible repeat' (first
    | (intro _)
    | (extract_lets +onlyGivenNames tv; first | (refine (fun ht : State.held tv = mx => ?_) ?_; clear_value tv; rotate_left; subst tv; rotate_right) | (refine (fun ht : State.held (Prod.fst tv) = mx => ?_) ?_; clear_value tv; rotate_left; subst tv; rotate_right) | (have hu := tv; clear hu))
    | assumption
    | rfl
    | apply State.setFfs_held
    | apply ite_h
    | apply foldl_h
    | apply ite1_h
    | apply fold1_h
    | split
    | (clear_value *; split))

theorem State.bramOnEdge_held {t : State} {o : State} {d : Die} {n : Nat} {edges : List (Nat × Bool)} {mx : List Instr × Mem} (hh : t.held = mx) : (State.bramOnEdge t o d n edges).held = mx := by
  unfold State.bramOnEdge
  with_reducible repeat' (first
    | (intro _)
    | (extract_lets +onlyGivenNames tv; first | (refine (fun ht : State.held tv = mx => ?_) ?_; clear_value tv; rotate_left; subst tv; rotate_right) | (refine (fun ht : State.held (Prod.fst tv) = mx => ?_) ?_; clear_value tv; rotate_left; subst tv; rotate_right) | (have hu := tv; clear hu))
    | assumption
    | rfl
    | apply State.used_held
    | apply State.bramEdge_held
    | apply ite_h
    | apply foldl_h
    | apply ite1_h
    | apply fold1_h
    | split
    | (clear_value *; split))

theorem State.multOnEdge_held {t : State} {o : State} {d : Die} {n : Nat} {edges : List (Nat × Bool)} {mx : List Instr × Mem} (hh : t.held = mx) : (State.multOnEdge t o d n edges).held = mx := by
  unfold State.multOnEdge
  with_reducible repeat' (first
    | (intro _)
    | assumption
    | rfl
    | apply State.multClock_held
    | apply ite_h
    | apply foldl_h
    | apply ite1_h
    | apply fold1_h
    | split
    | (clear_value *; split))

theorem State.seamLaunch_held {s : State} {d : Die} {edge : Nat} {g : Nat} {v : BitVec 128} {mx : List Instr × Mem} (hh : s.held = mx) : (State.seamLaunch s d edge g v).held = mx := by
  unfold State.seamLaunch
  with_reducible repeat' (first
    | (intro _)
    | (extract_lets +onlyGivenNames tv; first | (refine (fun ht : State.held tv = mx => ?_) ?_; clear_value tv; rotate_left; subst tv; rotate_right) | (refine (fun ht : State.held (Prod.fst tv) = mx => ?_) ?_; clear_value tv; rotate_left; subst tv; rotate_right) | (have hu := tv; clear hu))
    | assumption
    | rfl
    | apply State.setSeam_held
    | apply ite_h
    | apply foldl_h
    | apply ite1_h
    | apply fold1_h
    | split
    | (clear_value *; split))

theorem State.seamCapture_held {s : State} {d : Die} {edge : Nat} {g : Nat} {mx : List Instr × Mem} (hh : s.held = mx) : (State.seamCapture s d edge g).held = mx := by
  unfold State.seamCapture
  with_reducible repeat' (first
    | (intro _)
    | (extract_lets +onlyGivenNames tv; first | (refine (fun ht : State.held tv = mx => ?_) ?_; clear_value tv; rotate_left; subst tv; rotate_right) | (refine (fun ht : State.held (Prod.fst tv) = mx => ?_) ?_; clear_value tv; rotate_left; subst tv; rotate_right) | (have hu := tv; clear hu))
    | assumption
    | rfl
    | apply State.setSeam_held
    | apply State.used_held
    | apply ite_h
    | apply foldl_h
    | apply ite1_h
    | apply fold1_h
    | split
    | (clear_value *; split))

theorem State.seamUnlock_held {s : State} {d : Die} {edge : Nat} {g : Nat} {mx : List Instr × Mem} (hh : s.held = mx) : (State.seamUnlock s d edge g).held = mx := by
  unfold State.seamUnlock
  with_reducible repeat' (first
    | (intro _)
    | (extract_lets +onlyGivenNames tv; first | (refine (fun ht : State.held tv = mx => ?_) ?_; clear_value tv; rotate_left; subst tv; rotate_right) | (refine (fun ht : State.held (Prod.fst tv) = mx => ?_) ?_; clear_value tv; rotate_left; subst tv; rotate_right) | (have hu := tv; clear hu))
    | assumption
    | rfl
    | apply State.puts_held
    | apply State.bump_held
    | apply State.raise_held
    | apply ite_h
    | apply foldl_h
    | apply ite1_h
    | apply fold1_h
    | split
    | (clear_value *; split))

theorem State.seamsLose_held {s : State} {d : Die} {pll : Nat} {mx : List Instr × Mem} (hh : s.held = mx) : (State.seamsLose s d pll).held = mx := by
  unfold State.seamsLose
  with_reducible repeat' (first
    | (intro _)
    | (extract_lets +onlyGivenNames tv; first | (refine (fun ht : State.held tv = mx => ?_) ?_; clear_value tv; rotate_left; subst tv; rotate_right) | (refine (fun ht : State.held (Prod.fst tv) = mx => ?_) ?_; clear_value tv; rotate_left; subst tv; rotate_right) | (have hu := tv; clear hu))
    | assumption
    | rfl
    | apply State.seamUnlock_held
    | apply ite_h
    | apply foldl_h
    | apply ite1_h
    | apply fold1_h
    | split
    | (clear_value *; split))

theorem State.seamsOnEdge_held {t : State} {o : State} {d : Die} {edges : Nat → List (Nat × Bool)} {mx : List Instr × Mem} (hh : t.held = mx) : (State.seamsOnEdge t o d edges).held = mx := by
  unfold State.seamsOnEdge
  with_reducible repeat' (first
    | (intro _)
    | (extract_lets +onlyGivenNames tv; first | (refine (fun ht : State.held tv = mx => ?_) ?_; clear_value tv; rotate_left; subst tv; rotate_right) | (refine (fun ht : State.held (Prod.fst tv) = mx => ?_) ?_; clear_value tv; rotate_left; subst tv; rotate_right) | (have hu := tv; clear hu))
    | assumption
    | rfl
    | apply State.seamLaunch_held
    | apply State.seamCapture_held
    | apply ite_h
    | apply foldl_h
    | apply ite1_h
    | apply fold1_h
    | split
    | (clear_value *; split))

theorem State.present_held {s : State} {d : Die} {i : FabInput} {mx : List Instr × Mem} (hh : s.held = mx) : (State.present s d i).held = mx := by
  unfold State.present
  with_reducible repeat' (first
    | (intro _)
    | assumption
    | rfl
    | apply State.setFab_held
    | apply ite_h
    | apply foldl_h
    | apply ite1_h
    | apply fold1_h
    | split
    | (clear_value *; split))

theorem State.netsMove_held {s : State} {d : Die} {src : ClkSrc} {rising : Bool} {nets : List Nat} {edges : Nat → List (Nat × Bool)} {mx : List Instr × Mem} (hh : s.held = mx) : (State.netsMove s d src rising nets edges).held = mx := by
  unfold State.netsMove
  with_reducible repeat' (first
    | (intro _)
    | (extract_lets +onlyGivenNames tv; first | (refine (fun ht : State.held tv = mx => ?_) ?_; clear_value tv; rotate_left; subst tv; rotate_right) | (refine (fun ht : State.held (Prod.fst tv) = mx => ?_) ?_; clear_value tv; rotate_left; subst tv; rotate_right) | (have hu := tv; clear hu))
    | assumption
    | rfl
    | apply State.setFab_held
    | apply ite_h
    | apply foldl_h
    | apply ite1_h
    | apply fold1_h
    | split
    | (clear_value *; split))

theorem execAsyncSrAssert_held {die : FDie} {cluster : Fin 270336} {s : State} {mx : List Instr × Mem} (hh : s.held = mx) : ∃ tv, execAsyncSrAssert die cluster s = .next tv ∧ tv.held = mx := by
  unfold execAsyncSrAssert
  with_reducible repeat' (first
    | (intro _)
    | (extract_lets +onlyGivenNames tv; first | (refine (fun ht : State.held tv = mx => ?_) ?_; clear_value tv; rotate_left; subst tv; rotate_right) | (refine (fun ht : State.held (Prod.fst tv) = mx => ?_) ?_; clear_value tv; rotate_left; subst tv; rotate_right) | (have hu := tv; clear hu))
    | assumption
    | rfl
    | apply next_h
    | apply State.setFfs_held
    | apply State.railSettle_held
    | apply ite_h
    | apply foldl_h
    | apply ite1_h
    | apply fold1_h
    | split
    | (clear_value *; split))

theorem execBramRead_held {die : FDie} {block : Fin 2112} {portB : Bool} {addr : BitVec 12} {rsto : Bool} {other : Option BramAccess} {s : State} {mx : List Instr × Mem} (hh : s.held = mx) : ∃ tv, execBramRead die block portB addr rsto other s = .next tv ∧ tv.held = mx := by
  unfold execBramRead
  with_reducible repeat' (first
    | (intro _)
    | assumption
    | rfl
    | apply next_h
    | apply State.bramAccess_held
    | apply State.railSettle_held
    | apply ite_h
    | apply foldl_h
    | apply ite1_h
    | apply fold1_h
    | split
    | (clear_value *; split))

theorem execBramWrite_held {die : FDie} {block : Fin 2112} {portB : Bool} {access : BramAccess} {other : Option BramAccess} {s : State} {mx : List Instr × Mem} (hh : s.held = mx) : ∃ tv, execBramWrite die block portB access other s = .next tv ∧ tv.held = mx := by
  unfold execBramWrite
  with_reducible repeat' (first
    | (intro _)
    | assumption
    | rfl
    | apply next_h
    | apply State.bramAccess_held
    | apply State.railSettle_held
    | apply ite_h
    | apply foldl_h
    | apply ite1_h
    | apply fold1_h
    | split
    | (clear_value *; split))

theorem execBramNarrowWrite_held {die : FDie} {block : Fin 2112} {portB : Bool} {access : BramAccess} {other : Option BramAccess} {s : State} {mx : List Instr × Mem} (hh : s.held = mx) : ∃ tv, execBramNarrowWrite die block portB access other s = .next tv ∧ tv.held = mx := by
  unfold execBramNarrowWrite
  with_reducible repeat' (first
    | (intro _)
    | assumption
    | rfl
    | apply next_h
    | apply State.bramAccess_held
    | apply State.railSettle_held
    | apply ite_h
    | apply foldl_h
    | apply ite1_h
    | apply fold1_h
    | split
    | (clear_value *; split))

theorem execMultiplyClockEdge_held {die : FDie} {block : Fin 4224} {ce : Bool} {rst : Bool} {ins : MultIn} {s : State} {mx : List Instr × Mem} (hh : s.held = mx) : ∃ tv, execMultiplyClockEdge die block ce rst ins s = .next tv ∧ tv.held = mx := by
  unfold execMultiplyClockEdge
  with_reducible repeat' (first
    | (intro _)
    | assumption
    | rfl
    | apply next_h
    | apply State.multClock_held
    | apply State.railSettle_held
    | apply ite_h
    | apply foldl_h
    | apply ite1_h
    | apply fold1_h
    | split
    | (clear_value *; split))

end Sys2Proof.Machine
end

