-- ==== Sys2Proof/Laws/HeldNoc.lean ====
section
/-! SUPPORT. For each operation of Machine/Noc.lean: the queue and the memory it keeps (`_held`), or, where it stores, that the queue stays and the memory keeps its canonical form (`_ok`). -/

namespace Sys2Proof.Machine
open Sys2Proof
set_option linter.tactic.unusedName false

theorem State.weldPut_held {s : State} {d : Die} {ch : Nat} {f : Flit} {mx : List Instr × Mem} (hh : s.held = mx) : (State.weldPut s d ch f).held = mx := by
  unfold State.weldPut
  with_reducible repeat' (first
    | (intro _)
    | (extract_lets +onlyGivenNames tv; first | (refine (fun ht : State.held tv = mx => ?_) ?_; clear_value tv; rotate_left; subst tv; rotate_right) | (refine (fun ht : State.held (Prod.fst tv) = mx => ?_) ?_; clear_value tv; rotate_left; subst tv; rotate_right) | (have hu := tv; clear hu))
    | assumption
    | rfl
    | apply State.setWelds_held
    | apply ite_h
    | apply foldl_h
    | apply ite1_h
    | apply fold1_h
    | split
    | (clear_value *; split))

theorem State.useCredit_held {s : State} {r : Router} {net : Nat} {out : Nat} {cls : Nat} {up : Bool} {mx : List Instr × Mem} (hh : s.held = mx) : (State.useCredit s r net out cls up).held = mx := by
  unfold State.useCredit
  with_reducible repeat' (first
    | (intro _)
    | (extract_lets +onlyGivenNames tv; first | (refine (fun ht : State.held tv = mx => ?_) ?_; clear_value tv; rotate_left; subst tv; rotate_right) | (refine (fun ht : State.held (Prod.fst tv) = mx => ?_) ?_; clear_value tv; rotate_left; subst tv; rotate_right) | (have hu := tv; clear hu))
    | assumption
    | rfl
    | apply State.setNet_held
    | apply State.used_held
    | apply ite_h
    | apply foldl_h
    | apply ite1_h
    | apply fold1_h
    | split
    | (clear_value *; split))

theorem State.forward_held {s : State} {r : Router} {net : Nat} {w : WaitFlit} {mx : List Instr × Mem} (hh : s.held = mx) : (State.forward s r net w).held = mx := by
  unfold State.forward
  with_reducible repeat' (first
    | (intro _)
    | (extract_lets +onlyGivenNames tv; first | (refine (fun ht : State.held tv = mx => ?_) ?_; clear_value tv; rotate_left; subst tv; rotate_right) | (refine (fun ht : State.held (Prod.fst tv) = mx => ?_) ?_; clear_value tv; rotate_left; subst tv; rotate_right) | (have hu := tv; clear hu))
    | assumption
    | rfl
    | apply State.bump_held
    | apply State.emit_held
    | apply State.pmcItems_held
    | apply State.weldPut_held
    | apply State.useCredit_held
    | apply ite_h
    | apply foldl_h
    | apply ite1_h
    | apply fold1_h
    | split
    | (clear_value *; split))

theorem State.routerSend_held {s : State} {r : Router} {net : Nat} {out : Nat} {mx : List Instr × Mem} (hh : s.held = mx) : (State.routerSend s r net out).held = mx := by
  unfold State.routerSend
  with_reducible repeat' (first
    | (intro _)
    | (extract_lets +onlyGivenNames tv; first | (refine (fun ht : State.held tv = mx => ?_) ?_; clear_value tv; rotate_left; subst tv; rotate_right) | (refine (fun ht : State.held (Prod.fst tv) = mx => ?_) ?_; clear_value tv; rotate_left; subst tv; rotate_right) | (have hu := tv; clear hu))
    | assumption
    | rfl
    | apply State.setRouters_held
    | apply State.setRtrShare_held
    | apply State.forward_held
    | apply ite_h
    | apply foldl_h
    | apply ite1_h
    | apply fold1_h
    | split
    | (clear_value *; split))

theorem State.routersCycle_held {s : State} {mx : List Instr × Mem} (hh : s.held = mx) : (State.routersCycle s).held = mx := by
  unfold State.routersCycle
  with_reducible repeat' (first
    | (intro _)
    | assumption
    | rfl
    | apply State.routerSend_held
    | apply ite_h
    | apply foldl_h
    | apply ite1_h
    | apply fold1_h
    | split
    | (clear_value *; split))

theorem State.flitIn_held {s : State} {r : Router} {inPort : Nat} {flit : Flit} {mx : List Instr × Mem} (hh : s.held = mx) : (State.flitIn s r inPort flit).held = mx := by
  unfold State.flitIn
  with_reducible repeat' (first
    | (intro _)
    | (extract_lets +onlyGivenNames tv; first | (refine (fun ht : State.held tv = mx => ?_) ?_; clear_value tv; rotate_left; subst tv; rotate_right) | (refine (fun ht : State.held (Prod.fst tv) = mx => ?_) ?_; clear_value tv; rotate_left; subst tv; rotate_right) | (have hu := tv; clear hu))
    | assumption
    | rfl
    | apply State.setRouters_held
    | apply State.puts_held
    | apply State.bump_held
    | apply State.raise_held
    | apply State.useCredit_held
    | apply ite_h
    | apply foldl_h
    | apply ite1_h
    | apply fold1_h
    | split
    | (clear_value *; split))

theorem execFlitArrival_held {die : Die} {row : Fin 8} {col : Fin 8} {inPort : Fin 5} {flit : Flit} {free : Bool} {s : State} {mx : List Instr × Mem} (hh : s.held = mx) : ∃ tv, execFlitArrival die row col inPort flit free s = .next tv ∧ tv.held = mx := by
  unfold execFlitArrival
  with_reducible repeat' (first
    | (intro _)
    | (extract_lets +onlyGivenNames tv; first | (refine (fun ht : State.held tv = mx => ?_) ?_; clear_value tv; rotate_left; subst tv; rotate_right) | (refine (fun ht : State.held (Prod.fst tv) = mx => ?_) ?_; clear_value tv; rotate_left; subst tv; rotate_right) | (have hu := tv; clear hu))
    | assumption
    | rfl
    | apply next_h
    | apply State.routerSend_held
    | apply State.flitIn_held
    | apply ite_h
    | apply foldl_h
    | apply ite1_h
    | apply fold1_h
    | split
    | (clear_value *; split))

theorem State.setTag_held {s : State} {id : Nat} {tag : Nat} {t : TagSt} {mx : List Instr × Mem} (hh : s.held = mx) : (State.setTag s id tag t).held = mx := by
  unfold State.setTag
  with_reducible repeat' (first
    | assumption
    | rfl
    | apply State.setTags_held
    | (simp only [id]; assumption))

theorem State.outst_held {s : State} {id : Nat} {up : Bool} {mx : List Instr × Mem} (hh : s.held = mx) : (State.outst s id up).held = mx := by
  unfold State.outst
  with_reducible repeat' (first
    | (intro _)
    | (extract_lets +onlyGivenNames tv; have hu := tv; clear hu)
    | assumption
    | rfl
    | apply State.put_held
    | (simp only [id]; assumption))

theorem State.stale_held {s : State} {id : Nat} {up : Bool} {mx : List Instr × Mem} (hh : s.held = mx) : (State.stale s id up).held = mx := by
  unfold State.stale
  with_reducible repeat' (first
    | (intro _)
    | (extract_lets +onlyGivenNames tv; have hu := tv; clear hu)
    | assumption
    | rfl
    | apply State.put_held
    | (simp only [id]; assumption))

theorem State.tagDone_held {s : State} {id : Nat} {tag : Nat} {mx : List Instr × Mem} (hh : s.held = mx) : (State.tagDone s id tag).held = mx := by
  unfold State.tagDone
  with_reducible repeat' (first
    | assumption
    | rfl
    | apply State.setTag_held
    | apply State.outst_held
    | (simp only [id]; assumption))

theorem State.freeTags_held {s : State} {p : Nat → Bool} {mx : List Instr × Mem} (hh : s.held = mx) : (State.freeTags s p).held = mx := by
  unfold State.freeTags
  with_reducible repeat' (first
    | (intro _)
    | (extract_lets +onlyGivenNames tv; first | (refine (fun ht : State.held tv = mx => ?_) ?_; clear_value tv; rotate_left; subst tv; rotate_right) | (have hu := tv; clear hu))
    | assumption
    | rfl
    | apply State.setTags_held
    | apply State.setXWait_held
    | apply State.setXHeld_held
    | apply State.puts_held
    | apply ite_h
    | apply foldl_h)

theorem State.sendReq_held {s : State} {r : NocReq} {mx : List Instr × Mem} (hh : s.held = mx) : (State.sendReq s r).1.held = mx := by
  unfold State.sendReq
  with_reducible repeat' (first
    | (intro _)
    | (extract_lets +onlyGivenNames tv; first | (refine (fun ht : State.held tv = mx => ?_) ?_; clear_value tv; rotate_left; subst tv; rotate_right) | (refine (fun ht : State.held (Prod.fst tv) = mx => ?_) ?_; clear_value tv; rotate_left; subst tv; rotate_right) | (have hu := tv; clear hu))
    | assumption
    | rfl
    | apply State.bump_held
    | apply State.emit_held
    | apply State.bwCount_held
    | apply State.tagDone_held
    | apply ite_h
    | apply foldl_h
    | apply ite1_h
    | apply fold1_h
    | split
    | (clear_value *; split))
theorem State.sendReq_heldp {s : State} {r : NocReq} {mx : List Instr × Mem} {tv : State} {ov : Option Nat} (he : State.sendReq s r = (tv, ov)) (hh : s.held = mx) : tv.held = mx := by
  have k := State.sendReq_held (s := s) (r := r) hh
  rw [he] at k; exact k

theorem State.xAdmit_held {s : State} {r : NocReq} {o : Owner} {e : Nat} {count : Bool} {mx : List Instr × Mem} (hh : s.held = mx) : (State.xAdmit s r o e count).held = mx := by
  unfold State.xAdmit
  with_reducible repeat' (first
    | (intro _)
    | (extract_lets +onlyGivenNames tv; first | (refine (fun ht : State.held tv = mx => ?_) ?_; clear_value tv; rotate_left; subst tv; rotate_right) | (refine (fun ht : State.held (Prod.fst tv) = mx => ?_) ?_; clear_value tv; rotate_left; subst tv; rotate_right) | (have hu := tv; clear hu))
    | assumption
    | rfl
    | apply State.setXUsed_held
    | apply State.setXWait_held
    | apply State.setXHeld_held
    | apply State.setTag_held
    | apply State.bump_held
    | apply ite_h
    | apply foldl_h
    | apply ite1_h
    | apply fold1_h
    | split
    | (clear_value *; split))

theorem State.issue_held {s : State} {r : NocReq} {o : Owner} {mx : List Instr × Mem} (hh : s.held = mx) : (State.issue s r o).1.held = mx := by
  unfold State.issue
  with_reducible repeat' (first
    | (intro _)
    | (extract_lets +onlyGivenNames tv; first | (refine (fun ht : State.held tv = mx => ?_) ?_; clear_value tv; rotate_left; subst tv; rotate_right) | (refine (fun ht : State.held (Prod.fst tv) = mx => ?_) ?_; clear_value tv; rotate_left; subst tv; rotate_right) | (have hu := tv; clear hu))
    | assumption
    | rfl
    | apply State.setTag_held
    | apply State.bump_held
    | apply State.outst_held
    | refine State.sendReq_heldp ‹_› ?_
    | apply State.sendReq_held
    | apply State.xAdmit_held
    | apply ite_h
    | apply foldl_h
    | apply ite1_h
    | apply fold1_h
    | split
    | (clear_value *; split))
theorem State.issue_heldp {s : State} {r : NocReq} {o : Owner} {mx : List Instr × Mem} {tv : State} {ov : Option Nat} (he : State.issue s r o = (tv, ov)) (hh : s.held = mx) : tv.held = mx := by
  have k := State.issue_held (s := s) (r := r) (o := o) hh
  rw [he] at k; exact k

end Sys2Proof.Machine
end

