-- ==== Sys2Proof/Laws/HeldHammerCore.lean ====
section
/-! SUPPORT. For each operation of Machine/HammerCore.lean: the queue and the memory it keeps (`_held`), or, where it stores, that the queue stays and the memory keeps its canonical form (`_ok`). -/

namespace Sys2Proof.Machine
open Sys2Proof
set_option linter.tactic.unusedName false

theorem State.setCore_held {s : State} {d : Die} {k : Nat} {c : Core} {mx : List Instr × Mem} (hh : s.held = mx) : (State.setCore s d k c).held = mx := by
  unfold State.setCore
  with_reducible repeat' (first
    | assumption
    | rfl
    | apply State.setCores_held)

theorem State.onCore_held {s : State} {d : Die} {k : Nat} {f : Core → Core} {mx : List Instr × Mem} (hh : s.held = mx) : (State.onCore s d k f).held = mx := by
  unfold State.onCore
  with_reducible repeat' (first
    | assumption
    | rfl
    | apply State.setCore_held)

theorem State.setCstate_held {s : State} {d : Die} {k : Nat} {n : Nat} {mx : List Instr × Mem} (hh : s.held = mx) : (State.setCstate s d k n).held = mx := by
  unfold State.setCstate
  with_reducible repeat' (first
    | assumption
    | rfl
    | apply State.put_held)

theorem State.setSr_held {s : State} {d : Die} {k : Nat} {bit : Nat} {mx : List Instr × Mem} (hh : s.held = mx) : (State.setSr s d k bit).held = mx := by
  unfold State.setSr
  with_reducible repeat' (first
    | (intro _)
    | assumption
    | rfl
    | apply State.onCore_held
    | apply ite_h
    | apply foldl_h
    | apply ite1_h
    | apply fold1_h
    | split
    | (clear_value *; split))

theorem State.coreErr_held {s : State} {d : Die} {k : Nat} {cause : Nat} {status : Nat} {pc : BitVec 15} {mx : List Instr × Mem} (hh : s.held = mx) : (State.coreErr s d k cause status pc).held = mx := by
  unfold State.coreErr
  with_reducible repeat' (first
    | (intro _)
    | (extract_lets +onlyGivenNames tv; first | (refine (fun ht : State.held tv = mx => ?_) ?_; clear_value tv; rotate_left; subst tv; rotate_right) | (have hu := tv; clear hu))
    | assumption
    | rfl
    | apply State.bump_held
    | apply State.puts_held
    | apply ite_h)

theorem State.hIllegal_held {s : State} {d : Die} {k : Nat} {cause : Nat} {pc : BitVec 15} {mx : List Instr × Mem} (hh : s.held = mx) : (State.hIllegal s d k cause pc).held = mx := by
  unfold State.hIllegal
  with_reducible repeat' (first
    | assumption
    | rfl
    | apply State.setSr_held
    | apply State.coreErr_held
    | apply State.raise_held)

theorem State.hAddrErr_held {s : State} {d : Die} {k : Nat} {pc : BitVec 15} {mx : List Instr × Mem} (hh : s.held = mx) : (State.hAddrErr s d k pc).held = mx := by
  unfold State.hAddrErr
  with_reducible repeat' (first
    | assumption
    | rfl
    | apply State.setSr_held
    | apply State.coreErr_held
    | apply State.raise_held)

theorem State.hNocErr_held {s : State} {d : Die} {k : Nat} {status : Nat} {pc : BitVec 15} {mx : List Instr × Mem} (hh : s.held = mx) : (State.hNocErr s d k status pc).held = mx := by
  unfold State.hNocErr
  with_reducible repeat' (first
    | (intro _)
    | assumption
    | rfl
    | apply State.raise_held
    | apply State.onCore_held
    | apply State.coreErr_held
    | apply ite_h
    | apply foldl_h
    | apply ite1_h
    | apply fold1_h
    | split
    | (clear_value *; split))

theorem State.hCommit_held {s : State} {d : Die} {k : Nat} {mx : List Instr × Mem} (hh : s.held = mx) : (State.hCommit s d k).held = mx := by
  unfold State.hCommit
  with_reducible repeat' (first
    | (intro _)
    | (extract_lets +onlyGivenNames tv; first | (refine (fun ht : State.held tv = mx => ?_) ?_; clear_value tv; rotate_left; subst tv; rotate_right) | (refine (fun ht : State.held (Prod.fst tv) = mx => ?_) ?_; clear_value tv; rotate_left; subst tv; rotate_right) | (have hu := tv; clear hu))
    | assumption
    | rfl
    | apply State.used_held
    | apply State.onCore_held
    | apply ite_h
    | apply foldl_h
    | apply ite1_h
    | apply fold1_h
    | split
    | (clear_value *; split))

theorem State.later_held {s : State} {d : Die} {k : Nat} {left : Nat} {dest : HDest} {v : Nat} {mx : List Instr × Mem} (hh : s.held = mx) : (State.later s d k left dest v).held = mx := by
  unfold State.later
  with_reducible repeat' (first
    | (intro _)
    | assumption
    | rfl
    | apply State.onCore_held)

theorem State.now_held {s : State} {d : Die} {k : Nat} {dest : HDest} {v : Nat} {mx : List Instr × Mem} (hh : s.held = mx) : (State.now s d k dest v).held = mx := by
  unfold State.now
  with_reducible repeat' (first
    | (intro _)
    | (extract_lets +onlyGivenNames tv; first | (refine (fun ht : State.held tv = mx => ?_) ?_; clear_value tv; rotate_left; subst tv; rotate_right) | (refine (fun ht : State.held (Prod.fst tv) = mx => ?_) ?_; clear_value tv; rotate_left; subst tv; rotate_right) | (have hu := tv; clear hu))
    | assumption
    | rfl
    | apply State.onCore_held
    | apply ite_h
    | apply foldl_h
    | apply ite1_h
    | apply fold1_h
    | split
    | (clear_value *; split))

theorem State.putAcc_held {s : State} {d : Die} {k : Nat} {n : Nat} {v : BitVec 56} {wraps : Bool} {mx : List Instr × Mem} (hh : s.held = mx) : (State.putAcc s d k n v wraps).held = mx := by
  unfold State.putAcc
  with_reducible repeat' (first
    | (intro _)
    | (extract_lets +onlyGivenNames tv; first | (refine (fun ht : State.held tv = mx => ?_) ?_; clear_value tv; rotate_left; subst tv; rotate_right) | (have hu := tv; clear hu))
    | assumption
    | rfl
    | apply State.onCore_held
    | apply State.later_held
    | apply ite_h)

theorem State.crossTrigger_held {s : State} {mx : List Instr × Mem} (hh : s.held = mx) : (State.crossTrigger s).held = mx := by
  unfold State.crossTrigger
  with_reducible repeat' (first
    | (intro _)
    | assumption
    | rfl
    | apply State.onCore_held
    | apply State.bump_held
    | apply ite_h
    | apply foldl_h)

theorem State.haltNow_held {s : State} {d : Die} {k : Nat} {cause : Nat} {mx : List Instr × Mem} (hh : s.held = mx) : (State.haltNow s d k cause).held = mx := by
  unfold State.haltNow
  with_reducible repeat' (first
    | (intro _)
    | (extract_lets +onlyGivenNames tv; first | (refine (fun ht : State.held tv = mx => ?_) ?_; clear_value tv; rotate_left; subst tv; rotate_right) | (refine (fun ht : State.held (Prod.fst tv) = mx => ?_) ?_; clear_value tv; rotate_left; subst tv; rotate_right) | (have hu := tv; clear hu))
    | assumption
    | rfl
    | apply State.setBit_held
    | apply State.setCore_held
    | apply State.setCstate_held
    | apply State.puts_held
    | apply State.raise_held
    | apply State.crossTrigger_held
    | apply ite_h
    | apply foldl_h
    | apply ite1_h
    | apply fold1_h
    | split
    | (clear_value *; split))

theorem State.haltTry_held {s : State} {d : Die} {k : Nat} {mx : List Instr × Mem} (hh : s.held = mx) : (State.haltTry s d k).held = mx := by
  unfold State.haltTry
  with_reducible repeat' (first
    | (intro _)
    | (extract_lets +onlyGivenNames tv; first | (refine (fun ht : State.held tv = mx => ?_) ?_; clear_value tv; rotate_left; subst tv; rotate_right) | (refine (fun ht : State.held (Prod.fst tv) = mx => ?_) ?_; clear_value tv; rotate_left; subst tv; rotate_right) | (have hu := tv; clear hu))
    | assumption
    | rfl
    | apply State.put_held
    | apply State.haltNow_held
    | apply ite_h
    | apply foldl_h
    | apply ite1_h
    | apply fold1_h
    | split
    | (clear_value *; split))

theorem State.haltRequest_held {s : State} {d : Die} {k : Nat} {cause : Nat} {mx : List Instr × Mem} (hh : s.held = mx) : (State.haltRequest s d k cause).held = mx := by
  unfold State.haltRequest
  with_reducible repeat' (first
    | (intro _)
    | assumption
    | rfl
    | apply State.onCore_held
    | apply ite_h)

theorem State.goOn_held {s : State} {d : Die} {k : Nat} {mx : List Instr × Mem} (hh : s.held = mx) : (State.goOn s d k).held = mx := by
  unfold State.goOn
  with_reducible repeat' (first
    | (intro _)
    | assumption
    | rfl
    | apply State.setCstate_held
    | apply State.onCore_held
    | apply ite_h
    | apply foldl_h
    | apply ite1_h
    | apply fold1_h
    | split
    | (clear_value *; split))

theorem State.hIssue_held {s : State} {d : Die} {k : Nat} {unsettles : Bool} {bad : Core → Option Nat} {body : State → State} {mx : List Instr × Mem} (hh : s.held = mx) (hf : ∀ x0, x0.held = mx → (body x0).held = mx) : (State.hIssue s d k unsettles bad body).held = mx := by
  unfold State.hIssue
  with_reducible repeat' (first
    | (intro _)
    | apply hf
    | (extract_lets +onlyGivenNames tv; first | (refine (fun ht : State.held tv = mx => ?_) ?_; clear_value tv; rotate_left; subst tv; rotate_right) | (refine (fun ht : State.held (Prod.fst tv) = mx => ?_) ?_; clear_value tv; rotate_left; subst tv; rotate_right) | (have hu := tv; clear hu))
    | assumption
    | rfl
    | apply State.setHearthHit_held
    | apply State.setCore_held
    | apply State.pmcItems_held
    | apply State.onCore_held
    | apply State.hIllegal_held
    | apply State.hCommit_held
    | apply State.haltTry_held
    | apply State.goOn_held
    | apply ite_h
    | apply foldl_h
    | apply ite1_h
    | apply fold1_h
    | split
    | (clear_value *; split))
theorem State.hIssue_ok {s : State} {d : Die} {k : Nat} {unsettles : Bool} {bad : Core → Option Nat} {body : State → State} {mx : List Instr × Mem} (hh : State.Ok mx s) (hf : ∀ x0, State.Ok mx x0 → State.Ok mx (body x0)) : State.Ok mx (State.hIssue s d k unsettles bad body) := by
  unfold State.hIssue
  with_reducible repeat' (first
    | (intro _)
    | apply hf
    | (extract_lets +onlyGivenNames tv; first | (refine (fun ht : State.Ok mx tv => ?_) ?_; clear_value tv; rotate_left; subst tv; rotate_right) | (refine (fun ht : State.Ok mx (Prod.fst tv) => ?_) ?_; clear_value tv; rotate_left; subst tv; rotate_right) | (have hu := tv; clear hu))
    | assumption
    | exact ok_rfl
    | refine ok_of (State.setHearthHit_held rfl) ?_
    | refine ok_of (State.setCore_held rfl) ?_
    | refine ok_of (State.pmcItems_held rfl) ?_
    | refine ok_of (State.onCore_held rfl) ?_
    | refine ok_of (State.hIllegal_held rfl) ?_
    | refine ok_of (State.hCommit_held rfl) ?_
    | refine ok_of (State.haltTry_held rfl) ?_
    | refine ok_of (State.goOn_held rfl) ?_
    | apply ite_ok
    | apply foldl_ok
    | apply ite1_ok
    | apply fold1_ok
    | split
    | (clear_value *; split))

theorem State.stallFor_held {s : State} {d : Die} {k : Nat} {w : HStall} {mx : List Instr × Mem} (hh : s.held = mx) : (State.stallFor s d k w).held = mx := by
  unfold State.stallFor
  with_reducible repeat' (first
    | (intro _)
    | assumption
    | rfl
    | apply State.onCore_held
    | apply State.setCstate_held)

theorem State.unstall_held {s : State} {d : Die} {k : Nat} {mx : List Instr × Mem} (hh : s.held = mx) : (State.unstall s d k).held = mx := by
  unfold State.unstall
  with_reducible repeat' (first
    | (intro _)
    | (extract_lets +onlyGivenNames tv; first | (refine (fun ht : State.held tv = mx => ?_) ?_; clear_value tv; rotate_left; subst tv; rotate_right) | (refine (fun ht : State.held (Prod.fst tv) = mx => ?_) ?_; clear_value tv; rotate_left; subst tv; rotate_right) | (have hu := tv; clear hu))
    | assumption
    | rfl
    | apply State.onCore_held
    | apply State.goOn_held
    | apply ite_h
    | apply foldl_h
    | apply ite1_h
    | apply fold1_h
    | split
    | (clear_value *; split))

theorem State.unreserve_held {s : State} {d : Die} {w : Nat} {mx : List Instr × Mem} (hh : s.held = mx) : (State.unreserve s d w).held = mx := by
  unfold State.unreserve
  with_reducible repeat' (first
    | (intro _)
    | assumption
    | rfl
    | apply State.onCore_held
    | apply ite_h
    | apply foldl_h)

theorem State.hearthWrite_ok {s : State} {d : Die} {w : Nat} {v : HWord} {mx : List Instr × Mem} (hh : State.Ok mx s) : State.Ok mx (State.hearthWrite s d w v) := by
  unfold State.hearthWrite
  with_reducible repeat' (first
    | assumption
    | exact ok_rfl
    | refine ok_of (State.setHearthHit_held rfl) ?_
    | refine ok_of (State.unreserve_held rfl) ?_
    | apply State.eccWrite_ok)

theorem State.hearthRead_held {s : State} {d : Die} {w : Nat} {mx : List Instr × Mem} (hh : s.held = mx) : (State.hearthRead s d w).1.held = mx := by
  unfold State.hearthRead
  with_reducible repeat' (first
    | (extract_lets +onlyGivenNames tv; first | (refine (fun ht : State.held tv = mx => ?_) ?_; clear_value tv; rotate_left; subst tv; rotate_right) | (refine (fun ht : State.held (Prod.fst tv) = mx => ?_) ?_; clear_value tv; rotate_left; subst tv; rotate_right) | (have hu := tv; clear hu))
    | assumption
    | rfl
    | apply State.setHearthHit_held
    | refine State.eccRead_heldp ‹_› ?_
    | apply State.eccRead_held)
theorem State.hearthRead_heldp {s : State} {d : Die} {w : Nat} {mx : List Instr × Mem} {tv : State} {ov : HWord} (he : State.hearthRead s d w = (tv, ov)) (hh : s.held = mx) : tv.held = mx := by
  have k := State.hearthRead_held (s := s) (d := d) (w := w) hh
  rw [he] at k; exact k

theorem State.sendStore_held {s : State} {d : Die} {k : Nat} {r : NocReq} {pc : Nat} {mx : List Instr × Mem} (hh : s.held = mx) : (State.sendStore s d k r pc).held = mx := by
  unfold State.sendStore
  with_reducible repeat' (first
    | (intro _)
    | (extract_lets +onlyGivenNames tv; first | (refine (fun ht : State.held tv = mx => ?_) ?_; clear_value tv; rotate_left; subst tv; rotate_right) | (refine (fun ht : State.held (Prod.fst tv) = mx => ?_) ?_; clear_value tv; rotate_left; subst tv; rotate_right) | (have hu := tv; clear hu))
    | assumption
    | rfl
    | refine State.issue_heldp ‹_› ?_
    | apply State.issue_held
    | apply State.onCore_held
    | apply State.hNocErr_held
    | apply ite_h
    | apply foldl_h
    | apply ite1_h
    | apply fold1_h
    | split
    | (clear_value *; split))

theorem State.storeWord_ok {s : State} {d : Die} {k : Nat} {w : HWord} {v : HWord} {mx : List Instr × Mem} (hh : State.Ok mx s) : State.Ok mx (State.storeWord s d k w v) := by
  unfold State.storeWord
  with_reducible repeat' (first
    | (intro _)
    | (extract_lets +onlyGivenNames tv; first | (refine (fun ht : State.Ok mx tv => ?_) ?_; clear_value tv; rotate_left; subst tv; rotate_right) | (refine (fun ht : State.Ok mx (Prod.fst tv) => ?_) ?_; clear_value tv; rotate_left; subst tv; rotate_right) | (have hu := tv; clear hu))
    | assumption
    | exact ok_rfl
    | apply State.eccWrite_ok
    | refine ok_of (State.onCore_held rfl) ?_
    | refine ok_of (State.hAddrErr_held rfl) ?_
    | refine ok_of (State.stallFor_held rfl) ?_
    | apply State.hearthWrite_ok
    | refine ok_of (State.sendStore_held rfl) ?_
    | apply ite_ok
    | apply foldl_ok
    | apply ite1_ok
    | apply fold1_ok
    | split
    | (clear_value *; split))

theorem State.alignFlag_held {s : State} {d : Die} {k : Nat} {w : HWord} {width : Nat} {mx : List Instr × Mem} (hh : s.held = mx) : (State.alignFlag s d k w width).held = mx := by
  unfold State.alignFlag
  with_reducible repeat' (first
    | (intro _)
    | assumption
    | rfl
    | apply State.setSr_held
    | apply ite_h)

theorem State.tngSync_held {s : State} {d : Die} {k : Nat} {mx : List Instr × Mem} (hh : s.held = mx) : (State.tngSync s d k).held = mx := by
  unfold State.tngSync
  with_reducible repeat' (first
    | (intro _)
    | (extract_lets +onlyGivenNames tv; first | (refine (fun ht : State.held tv = mx => ?_) ?_; clear_value tv; rotate_left; subst tv; rotate_right) | (refine (fun ht : State.held (Prod.fst tv) = mx => ?_) ?_; clear_value tv; rotate_left; subst tv; rotate_right) | (have hu := tv; clear hu))
    | assumption
    | rfl
    | apply State.put_held
    | apply State.unstall_held
    | apply ite_h
    | apply foldl_h
    | apply ite1_h
    | apply fold1_h
    | split
    | (clear_value *; split))

theorem State.tngPost_held {s : State} {d : Die} {k : Nat} {desc : List Nat} {mx : List Instr × Mem} (hh : s.held = mx) : (State.tngPost s d k desc).1.held = mx := by
  unfold State.tngPost
  with_reducible repeat' (first
    | (intro _)
    | assumption
    | rfl
    | apply State.onCore_held
    | apply State.tngSync_held
    | apply ite_h
    | apply ite1_h)
theorem State.tngPost_heldp {s : State} {d : Die} {k : Nat} {desc : List Nat} {mx : List Instr × Mem} {tv : State} {ov : Bool} (he : State.tngPost s d k desc = (tv, ov)) (hh : s.held = mx) : tv.held = mx := by
  have k := State.tngPost_held (s := s) (d := d) (k := k) (desc := desc) hh
  rw [he] at k; exact k

theorem State.tngStop_held {s : State} {d : Die} {k : Nat} {status : Nat} {mx : List Instr × Mem} (hh : s.held = mx) : (State.tngStop s d k status).held = mx := by
  unfold State.tngStop
  with_reducible repeat' (first
    | (intro _)
    | (extract_lets +onlyGivenNames tv; first | (refine (fun ht : State.held tv = mx => ?_) ?_; clear_value tv; rotate_left; subst tv; rotate_right) | (have hu := tv; clear hu))
    | assumption
    | rfl
    | apply State.onCore_held
    | refine State.run_held ?_ ?_
    | apply State.puts_held
    | apply State.tngSync_held
    | apply State.raise_held)

theorem State.tngSet_held {s : State} {d : Die} {k : Nat} {r : TongsRun} {mx : List Instr × Mem} (hh : s.held = mx) : (State.tngSet s d k r).held = mx := by
  unfold State.tngSet
  with_reducible repeat' (first
    | (intro _)
    | assumption
    | rfl
    | apply State.onCore_held)

theorem State.tngStore_ok {s : State} {d : Die} {k : Nat} {g : Nat} {w : Nat} {r : TongsRun} {mx : List Instr × Mem} (hh : State.Ok mx s) : State.Ok mx (State.tngStore s d k g w r) := by
  unfold State.tngStore
  with_reducible repeat' (first
    | (intro _)
    | (extract_lets +onlyGivenNames tv; first | (refine (fun ht : State.Ok mx tv => ?_) ?_; clear_value tv; rotate_left; subst tv; rotate_right) | (have hu := tv; clear hu))
    | assumption
    | exact ok_rfl
    | apply State.hearthWrite_ok
    | apply State.eccWrite_ok
    | refine ok_of (State.tngSet_held rfl) ?_
    | apply ite_ok)

theorem State.tngLoad_held {s : State} {d : Die} {k : Nat} {g : Nat} {w : Nat} {r : TongsRun} {mx : List Instr × Mem} (hh : s.held = mx) : (State.tngLoad s d k g w r).1.held = mx := by
  unfold State.tngLoad
  with_reducible repeat' (first
    | (intro _)
    | (extract_lets +onlyGivenNames tv; first | (refine (fun ht : State.held (Prod.fst tv) = mx => ?_) ?_; clear_value tv; rotate_left; subst tv; rotate_right) | (have hu := tv; clear hu))
    | assumption
    | rfl
    | refine State.eccRead_heldp ‹_› ?_
    | apply State.eccRead_held
    | apply State.uncorrectable_held
    | apply State.tngStop_held
    | apply State.tngSet_held
    | apply ite_h
    | apply ite1_h)
theorem State.tngLoad_heldp {s : State} {d : Die} {k : Nat} {g : Nat} {w : Nat} {r : TongsRun} {mx : List Instr × Mem} {tv : State} {ov : Bool} (he : State.tngLoad s d k g w r = (tv, ov)) (hh : s.held = mx) : tv.held = mx := by
  have k := State.tngLoad_held (s := s) (d := d) (k := k) (g := g) (w := w) (r := r) hh
  rw [he] at k; exact k

theorem State.tngSend_held {s : State} {d : Die} {k : Nat} {r : TongsRun} {mx : List Instr × Mem} (hh : s.held = mx) : (State.tngSend s d k r).held = mx := by
  unfold State.tngSend
  with_reducible repeat' (first
    | (intro _)
    | (extract_lets +onlyGivenNames tv; first | (refine (fun ht : State.held tv = mx => ?_) ?_; clear_value tv; rotate_left; subst tv; rotate_right) | (refine (fun ht : State.held (Prod.fst tv) = mx => ?_) ?_; clear_value tv; rotate_left; subst tv; rotate_right) | (have hu := tv; clear hu))
    | assumption
    | rfl
    | refine State.issue_heldp ‹_› ?_
    | apply State.issue_held
    | apply State.tngStop_held
    | apply State.tngSet_held
    | apply ite_h
    | apply foldl_h
    | apply ite1_h
    | apply fold1_h
    | split
    | (clear_value *; split))

theorem State.tngMove_ok {s : State} {d : Die} {k : Nat} {r : TongsRun} {mx : List Instr × Mem} (hh : State.Ok mx s) : State.Ok mx (State.tngMove s d k r).1 := by
  unfold State.tngMove
  with_reducible repeat' (first
    | (intro _)
    | assumption
    | exact ok_rfl
    | refine ok_of (State.tngSet_held rfl) ?_
    | apply State.tngStore_ok
    | refine ok_of (State.tngLoad_heldp ‹_› rfl) ?_
    | refine ok_of (State.tngLoad_held rfl) ?_
    | refine ok_of (State.tngSend_held rfl) ?_
    | apply ite_ok
    | apply foldl_ok
    | apply ite1_ok
    | apply fold1_ok
    | split
    | (clear_value *; split))
theorem State.tngMove_okp {s : State} {d : Die} {k : Nat} {r : TongsRun} {mx : List Instr × Mem} {tv : State} {ov : Bool} (he : State.tngMove s d k r = (tv, ov)) (hh : State.Ok mx s) : State.Ok mx tv := by
  have k := State.tngMove_ok (s := s) (d := d) (k := k) (r := r) hh
  rw [he] at k; exact k

theorem State.tngOne_ok {s : State} {d : Die} {k : Nat} {mx : List Instr × Mem} (hh : State.Ok mx s) : State.Ok mx (State.tngOne s d k).1 := by
  unfold State.tngOne
  with_reducible repeat' (first
    | (intro _)
    | assumption
    | exact ok_rfl
    | refine State.run_ok ?_ ?_
    | refine State.tngMove_okp ‹_› ?_
    | apply State.tngMove_ok
    | split)
theorem State.tngOne_okp {s : State} {d : Die} {k : Nat} {mx : List Instr × Mem} {tv : State} {ov : Bool} (he : State.tngOne s d k = (tv, ov)) (hh : State.Ok mx s) : State.Ok mx tv := by
  have k := State.tngOne_ok (s := s) (d := d) (k := k) hh
  rw [he] at k; exact k

theorem State.tngGo_ok {n : Nat} {s : State} {d : Die} {k : Nat} {mx : List Instr × Mem} (hh : State.Ok mx s) :
    State.Ok mx (State.tngGo n s d k) := by
  induction n generalizing s with
  | zero => exact hh
  | succ n ih =>
    rw [State.tngGo]
    exact ite_ok (fun _ => ih (State.tngOne_ok hh)) (fun _ => State.tngOne_ok hh)

theorem State.tngAnswer_ok {s : State} {d : Die} {k : Nat} {status : Nat} {data : Nat} {mx : List Instr × Mem} (hh : State.Ok mx s) : State.Ok mx (State.tngAnswer s d k status data) := by
  unfold State.tngAnswer
  with_reducible repeat' (first
    | (intro _)
    | (extract_lets +onlyGivenNames tv; first | (refine (fun ht : State.Ok mx tv => ?_) ?_; clear_value tv; rotate_left; subst tv; rotate_right) | (refine (fun ht : State.Ok mx (Prod.fst tv) => ?_) ?_; clear_value tv; rotate_left; subst tv; rotate_right) | (have hu := tv; clear hu))
    | assumption
    | exact ok_rfl
    | refine ok_of (State.tngStop_held rfl) ?_
    | refine ok_of (State.tngSet_held rfl) ?_
    | apply State.tngGo_ok
    | apply ite_ok
    | apply foldl_ok
    | apply ite1_ok
    | apply fold1_ok
    | split
    | (clear_value *; split))

theorem State.tngIssue_held {s : State} {d : Die} {k : Nat} {pc : BitVec 15} {mx : List Instr × Mem} (hh : s.held = mx) : (State.tngIssue s d k pc).held = mx := by
  unfold State.tngIssue
  with_reducible repeat' (first
    | (intro _)
    | (extract_lets +onlyGivenNames tv; have hu := tv; clear hu)
    | assumption
    | rfl
    | refine State.tngPost_heldp ‹_› ?_
    | apply State.tngPost_held
    | apply State.hIllegal_held
    | apply ite_h)

theorem State.loadDone_held {s : State} {d : Die} {k : Nat} {mx : List Instr × Mem} (hh : s.held = mx) : (State.loadDone s d k).held = mx := by
  unfold State.loadDone
  with_reducible repeat' (first
    | (intro _)
    | (extract_lets +onlyGivenNames tv; first | (refine (fun ht : State.held tv = mx => ?_) ?_; clear_value tv; rotate_left; subst tv; rotate_right) | (have hu := tv; clear hu))
    | assumption
    | rfl
    | apply State.setCore_held
    | apply State.later_held
    | apply State.putAcc_held
    | apply foldl_h
    | apply fold1_h
    | split
    | (clear_value *; split))

theorem State.loadWord_held {s : State} {d : Die} {k : Nat} {pc : BitVec 15} {first : Bool} {j : Nat} {w : HWord} {mx : List Instr × Mem} (hh : s.held = mx) : (State.loadWord s d k pc first j w).held = mx := by
  unfold State.loadWord
  with_reducible repeat' (first
    | (intro _)
    | (extract_lets +onlyGivenNames tv; first | (refine (fun ht : State.held tv = mx => ?_) ?_; clear_value tv; rotate_left; subst tv; rotate_right) | (refine (fun ht : State.held (Prod.fst tv) = mx => ?_) ?_; clear_value tv; rotate_left; subst tv; rotate_right) | (have hu := tv; clear hu))
    | assumption
    | rfl
    | refine State.eccRead_heldp ‹_› ?_
    | apply State.eccRead_held
    | refine State.issue_heldp ‹_› ?_
    | apply State.issue_held
    | apply State.onCore_held
    | apply State.hAddrErr_held
    | apply State.hNocErr_held
    | refine State.hearthRead_heldp ‹_› ?_
    | apply State.hearthRead_held
    | apply ite_h
    | apply foldl_h
    | apply ite1_h
    | apply fold1_h
    | split
    | (clear_value *; split))

theorem State.loadRest_held {s : State} {d : Die} {k : Nat} {pc : BitVec 15} {mx : List Instr × Mem} (hh : s.held = mx) : (State.loadRest s d k pc).held = mx := by
  unfold State.loadRest
  with_reducible repeat' (first
    | (intro _)
    | (extract_lets +onlyGivenNames tv; first | (refine (fun ht : State.held tv = mx => ?_) ?_; clear_value tv; rotate_left; subst tv; rotate_right) | (refine (fun ht : State.held (Prod.fst tv) = mx => ?_) ?_; clear_value tv; rotate_left; subst tv; rotate_right) | (have hu := tv; clear hu))
    | assumption
    | rfl
    | apply State.onCore_held
    | apply State.loadWord_held
    | apply ite_h
    | apply foldl_h
    | apply ite1_h
    | apply fold1_h
    | split
    | (clear_value *; split))

theorem State.loadWords_held {s : State} {d : Die} {k : Nat} {n : Nat} {words : List HWord} {rest : List (Nat × HWord)} {cont : HCont} {mx : List Instr × Mem} (hh : s.held = mx) : (State.loadWords s d k n words rest cont).held = mx := by
  unfold State.loadWords
  with_reducible repeat' (first
    | (intro _)
    | (extract_lets +onlyGivenNames tv; first | (refine (fun ht : State.held tv = mx => ?_) ?_; clear_value tv; rotate_left; subst tv; rotate_right) | (refine (fun ht : State.held (Prod.fst tv) = mx => ?_) ?_; clear_value tv; rotate_left; subst tv; rotate_right) | (have hu := tv; clear hu))
    | assumption
    | rfl
    | apply State.onCore_held
    | apply State.stallFor_held
    | apply State.tngIssue_held
    | apply State.loadDone_held
    | apply State.loadWord_held
    | apply State.loadRest_held
    | apply ite_h
    | apply foldl_h
    | apply ite1_h
    | apply fold1_h
    | split
    | (clear_value *; split))

theorem State.moreStores_held {s : State} {d : Die} {k : Nat} {mx : List Instr × Mem} (hh : s.held = mx) : (State.moreStores s d k).held = mx := by
  unfold State.moreStores
  with_reducible repeat' (first
    | (intro _)
    | (extract_lets +onlyGivenNames tv; first | (refine (fun ht : State.held tv = mx => ?_) ?_; clear_value tv; rotate_left; subst tv; rotate_right) | (refine (fun ht : State.held (Prod.fst tv) = mx => ?_) ?_; clear_value tv; rotate_left; subst tv; rotate_right) | (have hu := tv; clear hu))
    | assumption
    | rfl
    | apply State.onCore_held
    | apply State.unstall_held
    | apply State.sendStore_held
    | apply ite_h
    | apply foldl_h
    | apply ite1_h
    | apply fold1_h
    | split
    | (clear_value *; split))

theorem State.coreLoaded_held {s : State} {d : Die} {k : Nat} {slot : Nat} {pc : Nat} {status : Nat} {data : Nat} {mx : List Instr × Mem} (hh : s.held = mx) : (State.coreLoaded s d k slot pc status data).held = mx := by
  unfold State.coreLoaded
  with_reducible repeat' (first
    | (intro _)
    | (extract_lets +onlyGivenNames tv; first | (refine (fun ht : State.held tv = mx => ?_) ?_; clear_value tv; rotate_left; subst tv; rotate_right) | (refine (fun ht : State.held (Prod.fst tv) = mx => ?_) ?_; clear_value tv; rotate_left; subst tv; rotate_right) | (have hu := tv; clear hu))
    | assumption
    | rfl
    | apply State.put_held
    | apply State.onCore_held
    | apply State.hNocErr_held
    | apply State.unstall_held
    | apply State.tngIssue_held
    | apply State.loadDone_held
    | apply State.loadRest_held
    | apply ite_h
    | apply foldl_h
    | apply ite1_h
    | apply fold1_h
    | split
    | (clear_value *; split))

theorem State.coreStored_held {s : State} {d : Die} {k : Nat} {pc : Nat} {status : Nat} {mx : List Instr × Mem} (hh : s.held = mx) : (State.coreStored s d k pc status).held = mx := by
  unfold State.coreStored
  with_reducible repeat' (first
    | (intro _)
    | (extract_lets +onlyGivenNames tv; first | (refine (fun ht : State.held tv = mx => ?_) ?_; clear_value tv; rotate_left; subst tv; rotate_right) | (refine (fun ht : State.held (Prod.fst tv) = mx => ?_) ?_; clear_value tv; rotate_left; subst tv; rotate_right) | (have hu := tv; clear hu))
    | assumption
    | rfl
    | apply State.onCore_held
    | apply State.hNocErr_held
    | apply State.moreStores_held
    | apply ite_h
    | apply foldl_h
    | apply ite1_h
    | apply fold1_h
    | split
    | (clear_value *; split))

theorem State.taskSync_held {s : State} {d : Die} {k : Nat} {mx : List Instr × Mem} (hh : s.held = mx) : (State.taskSync s d k).held = mx := by
  unfold State.taskSync
  with_reducible repeat' (first
    | (intro _)
    | assumption
    | rfl
    | apply State.put_held
    | apply ite_h
    | apply foldl_h
    | apply ite1_h
    | apply fold1_h
    | split
    | (clear_value *; split))

theorem State.coreReset_held {s : State} {d : Die} {k : Nat} {mx : List Instr × Mem} (hh : s.held = mx) : (State.coreReset s d k).held = mx := by
  unfold State.coreReset
  with_reducible repeat' (first
    | (intro _)
    | (extract_lets +onlyGivenNames tv; first | (refine (fun ht : State.held tv = mx => ?_) ?_; clear_value tv; rotate_left; subst tv; rotate_right) | (refine (fun ht : State.held (Prod.fst tv) = mx => ?_) ?_; clear_value tv; rotate_left; subst tv; rotate_right) | (have hu := tv; clear hu))
    | assumption
    | rfl
    | apply State.setTngDone_held
    | apply State.setCore_held
    | apply State.setCstate_held
    | apply State.puts_held
    | apply State.clrBit_held
    | apply State.freeTags_held
    | apply State.haltNow_held
    | apply State.taskSync_held
    | apply ite_h
    | apply foldl_h
    | apply ite1_h
    | apply fold1_h
    | split
    | (clear_value *; split))

theorem State.coresStart_held {s : State} {d : Die} {mx : List Instr × Mem} (hh : s.held = mx) : (State.coresStart s d).held = mx := by
  unfold State.coresStart
  with_reducible repeat' (first
    | (intro _)
    | assumption
    | rfl
    | apply State.coreReset_held
    | apply ite_h
    | apply foldl_h)

theorem State.coreWdogReload_held {s : State} {d : Die} {k : Nat} {mx : List Instr × Mem} (hh : s.held = mx) : (State.coreWdogReload s d k).held = mx := by
  unfold State.coreWdogReload
  with_reducible repeat' (first
    | assumption
    | rfl
    | apply State.puts_held)

end Sys2Proof.Machine
end

