-- ==== Sys2Proof/Laws/HeldHammer.lean ====
section
/-! SUPPORT. For each operation of Machine/Hammer.lean: the queue and the memory it keeps (`_held`), or, where it stores, that the queue stays and the memory keeps its canonical form (`_ok`). -/

namespace Sys2Proof.Machine
open Sys2Proof
set_option linter.tactic.unusedName false

theorem State.run_held {s : State} {c : CoreId} {unsettles : Bool} {bad : Core → Option Nat} {body : State → State} {mx : List Instr × Mem} (hh : s.held = mx) (hf : ∀ x0, x0.held = mx → (body x0).held = mx) : ∃ tv, State.run s c unsettles bad body = .next tv ∧ tv.held = mx := by
  unfold State.run
  with_reducible repeat' (first
    | (intro _)
    | apply hf
    | assumption
    | rfl
    | apply next_h
    | refine State.hIssue_held ?_ ?_
    | apply ite_h
    | apply foldl_h
    | apply ite1_h
    | apply fold1_h
    | split
    | (clear_value *; split))
theorem State.run_ok {s : State} {c : CoreId} {unsettles : Bool} {bad : Core → Option Nat} {body : State → State} {mx : List Instr × Mem} (hh : State.Ok mx s) (hf : ∀ x0, State.Ok mx x0 → State.Ok mx (body x0)) : ∃ tv, State.run s c unsettles bad body = .next tv ∧ State.Ok mx tv := by
  unfold State.run
  with_reducible repeat' (first
    | (intro _)
    | apply hf
    | assumption
    | exact ok_rfl
    | apply next_ok
    | refine State.hIssue_ok ?_ ?_
    | apply ite_ok
    | apply foldl_ok
    | apply ite1_ok
    | apply fold1_ok
    | split
    | (clear_value *; split))

theorem execHIdle_held {c : CoreId} {s : State} {mx : List Instr × Mem} (hh : s.held = mx) : ∃ tv, execHIdle c s = .next tv ∧ tv.held = mx := by
  unfold execHIdle
  with_reducible repeat' (first
    | (intro _)
    | assumption
    | rfl
    | apply next_h
    | refine State.run_held ?_ ?_
    | apply State.setCstate_held)

theorem execHNop_held {c : CoreId} {s : State} {mx : List Instr × Mem} (hh : s.held = mx) : ∃ tv, execHNop c s = .next tv ∧ tv.held = mx := by
  unfold execHNop
  with_reducible repeat' (first
    | (intro _)
    | assumption
    | rfl
    | apply next_h
    | refine State.run_held ?_ ?_
    | (simp only [id]; assumption))

theorem State.branch_held {s : State} {c : CoreId} {target : Option (BitVec 15)} {restore : Bool} {mx : List Instr × Mem} (hh : s.held = mx) : (State.branch s c target restore).held = mx := by
  unfold State.branch
  with_reducible repeat' (first
    | (intro _)
    | assumption
    | rfl
    | apply State.onCore_held
    | apply ite_h
    | apply foldl_h
    | apply ite1_h
    | apply fold1_h
    | split
    | (clear_value *; split))

theorem State.ret_held {s : State} {c : CoreId} {restore : Bool} {mx : List Instr × Mem} (hh : s.held = mx) : (State.ret s c restore).held = mx := by
  unfold State.ret
  with_reducible repeat' (first
    | (intro _)
    | assumption
    | rfl
    | apply State.onCore_held
    | apply State.branch_held
    | apply ite_h
    | apply foldl_h
    | apply ite1_h
    | apply fold1_h
    | split
    | (clear_value *; split))

theorem execHWaitStroke_held {c : CoreId} {s : State} {mx : List Instr × Mem} (hh : s.held = mx) : ∃ tv, execHWaitStroke c s = .next tv ∧ tv.held = mx := by
  unfold execHWaitStroke
  with_reducible repeat' (first
    | (intro _)
    | (extract_lets +onlyGivenNames tv; first | (refine (fun ht : State.held tv = mx => ?_) ?_; clear_value tv; rotate_left; subst tv; rotate_right) | (refine (fun ht : State.held (Prod.fst tv) = mx => ?_) ?_; clear_value tv; rotate_left; subst tv; rotate_right) | (have hu := tv; clear hu))
    | assumption
    | rfl
    | apply next_h
    | apply State.setCstate_held
    | apply State.onCore_held
    | apply State.taskSync_held
    | apply State.coreWdogReload_held
    | refine State.run_held ?_ ?_
    | apply State.ret_held
    | apply ite_h
    | apply foldl_h
    | apply ite1_h
    | apply fold1_h
    | split
    | (clear_value *; split))

theorem execHSync_held {c : CoreId} {s : State} {mx : List Instr × Mem} (hh : s.held = mx) : ∃ tv, execHSync c s = .next tv ∧ tv.held = mx := by
  unfold execHSync
  with_reducible repeat' (first
    | (intro _)
    | assumption
    | rfl
    | apply next_h
    | refine State.run_held ?_ ?_
    | apply State.stallFor_held
    | apply ite_h)

theorem execHBkpt_held {c : CoreId} {s : State} {mx : List Instr × Mem} (hh : s.held = mx) : ∃ tv, execHBkpt c s = .next tv ∧ tv.held = mx := by
  unfold execHBkpt
  with_reducible repeat' (first
    | (intro _)
    | assumption
    | rfl
    | apply next_h
    | refine State.run_held ?_ ?_
    | apply State.haltRequest_held
    | apply State.bump_held
    | apply ite_h)

theorem execHB_held {c : CoreId} {target : BitVec 15} {s : State} {mx : List Instr × Mem} (hh : s.held = mx) : ∃ tv, execHB c target s = .next tv ∧ tv.held = mx := by
  unfold execHB
  with_reducible repeat' (first
    | (intro _)
    | assumption
    | rfl
    | apply next_h
    | refine State.run_held ?_ ?_
    | apply State.branch_held
    | apply ite_h
    | apply foldl_h
    | apply ite1_h
    | apply fold1_h
    | split
    | (clear_value *; split))

theorem execHBc_held {c : CoreId} {cond : BitVec 4} {target : BitVec 15} {s : State} {mx : List Instr × Mem} (hh : s.held = mx) : ∃ tv, execHBc c cond target s = .next tv ∧ tv.held = mx := by
  unfold execHBc
  with_reducible repeat' (first
    | (intro _)
    | (extract_lets +onlyGivenNames tv; first | (refine (fun ht : State.held tv = mx => ?_) ?_; clear_value tv; rotate_left; subst tv; rotate_right) | (refine (fun ht : State.held (Prod.fst tv) = mx => ?_) ?_; clear_value tv; rotate_left; subst tv; rotate_right) | (have hu := tv; clear hu))
    | assumption
    | rfl
    | apply next_h
    | refine State.run_held ?_ ?_
    | apply State.branch_held
    | apply ite_h
    | apply foldl_h
    | apply ite1_h
    | apply fold1_h
    | split
    | (clear_value *; split))

theorem execHCall_held {c : CoreId} {target : BitVec 15} {s : State} {mx : List Instr × Mem} (hh : s.held = mx) : ∃ tv, execHCall c target s = .next tv ∧ tv.held = mx := by
  unfold execHCall
  with_reducible repeat' (first
    | (intro _)
    | assumption
    | rfl
    | apply next_h
    | apply State.onCore_held
    | refine State.run_held ?_ ?_
    | apply State.branch_held
    | apply ite_h
    | apply foldl_h
    | apply ite1_h
    | apply fold1_h
    | split
    | (clear_value *; split))

theorem execHRet_held {c : CoreId} {s : State} {mx : List Instr × Mem} (hh : s.held = mx) : ∃ tv, execHRet c s = .next tv ∧ tv.held = mx := by
  unfold execHRet
  with_reducible repeat' (first
    | (intro _)
    | assumption
    | rfl
    | apply next_h
    | refine State.run_held ?_ ?_
    | apply State.ret_held)

theorem execHRti_held {c : CoreId} {s : State} {mx : List Instr × Mem} (hh : s.held = mx) : ∃ tv, execHRti c s = .next tv ∧ tv.held = mx := by
  unfold execHRti
  with_reducible repeat' (first
    | (intro _)
    | assumption
    | rfl
    | apply next_h
    | refine State.run_held ?_ ?_
    | apply State.ret_held
    | apply State.onCore_held)

theorem State.repeats_held {s : State} {c : CoreId} {isRpt : Bool} {fromX : Bool} {count : BitVec 16} {len : Nat} {mx : List Instr × Mem} (hh : s.held = mx) : (State.repeats s c isRpt fromX count len).held = mx := by
  unfold State.repeats
  with_reducible repeat' (first
    | (intro _)
    | assumption
    | rfl
    | refine State.hIssue_held ?_ ?_
    | apply State.onCore_held
    | (simp only [id]; assumption)
    | apply ite_h
    | split)

theorem execHRpt_held {c : CoreId} {fromX : Bool} {count : BitVec 16} {s : State} {mx : List Instr × Mem} (hh : s.held = mx) : ∃ tv, execHRpt c fromX count s = .next tv ∧ tv.held = mx := by
  unfold execHRpt
  with_reducible repeat' (first
    | assumption
    | rfl
    | apply next_h
    | apply State.repeats_held)

theorem execHLoop_held {c : CoreId} {fromX : Bool} {count : BitVec 16} {len : BitVec 6} {s : State} {mx : List Instr × Mem} (hh : s.held = mx) : ∃ tv, execHLoop c fromX count len s = .next tv ∧ tv.held = mx := by
  unfold execHLoop
  with_reducible repeat' (first
    | assumption
    | rfl
    | apply next_h
    | apply State.repeats_held)

theorem execHMovs_held {c : CoreId} {toSpecial : Bool} {code : BitVec 6} {x : Fin 16} {s : State} {mx : List Instr × Mem} (hh : s.held = mx) : ∃ tv, execHMovs c toSpecial code x s = .next tv ∧ tv.held = mx := by
  unfold execHMovs
  with_reducible repeat' (first
    | (intro _)
    | (extract_lets +onlyGivenNames tv; first | (refine (fun ht : State.held tv = mx => ?_) ?_; clear_value tv; rotate_left; subst tv; rotate_right) | (refine (fun ht : State.held (Prod.fst tv) = mx => ?_) ?_; clear_value tv; rotate_left; subst tv; rotate_right) | (have hu := tv; clear hu))
    | assumption
    | rfl
    | apply next_h
    | refine State.run_held ?_ ?_
    | apply State.later_held
    | apply State.now_held
    | apply ite_h)

theorem State.bitOr_held {s : State} {a0 : Option Bool} {mx : List Instr × Mem} (hh : s.held = mx) : (State.bitOr s a0).1.held = mx := by
  unfold State.bitOr
  with_reducible repeat' (first
    | assumption
    | rfl
    | apply State.used_held
    | split)
theorem State.bitOr_heldp {s : State} {a0 : Option Bool} {mx : List Instr × Mem} {tv : State} {ov : Bool} (he : State.bitOr s a0 = (tv, ov)) (hh : s.held = mx) : tv.held = mx := by
  have k := State.bitOr_held (s := s) (a0 := a0) hh
  rw [he] at k; exact k

theorem State.wordOr_held {s : State} {a0 : Option HWord} {mx : List Instr × Mem} (hh : s.held = mx) : (State.wordOr s a0).1.held = mx := by
  unfold State.wordOr
  with_reducible repeat' (first
    | assumption
    | rfl
    | apply State.used_held
    | split)
theorem State.wordOr_heldp {s : State} {a0 : Option HWord} {mx : List Instr × Mem} {tv : State} {ov : HWord} (he : State.wordOr s a0 = (tv, ov)) (hh : s.held = mx) : tv.held = mx := by
  have k := State.wordOr_held (s := s) (a0 := a0) hh
  rw [he] at k; exact k

theorem State.alu_held {s : State} {c : CoreId} {op : Nat} {a : HWord} {b : HWord} {xd : Option Nat} {mx : List Instr × Mem} (hh : s.held = mx) : (State.alu s c op a b xd).held = mx := by
  unfold State.alu
  with_reducible repeat' (first
    | (extract_lets +onlyGivenNames tv; first | (refine (fun ht : State.held tv = mx => ?_) ?_; clear_value tv; rotate_left; subst tv; rotate_right) | (refine (fun ht : State.held (Prod.fst tv) = mx => ?_) ?_; clear_value tv; rotate_left; subst tv; rotate_right) | (have hu := tv; clear hu))
    | assumption
    | rfl
    | refine State.wordOr_heldp ‹_› ?_
    | apply State.wordOr_held
    | refine State.bitOr_heldp ‹_› ?_
    | apply State.bitOr_held
    | apply State.now_held
    | split
    | (clear_value *; split))

theorem State.aluReg_held {s : State} {c : CoreId} {op : Nat} {xd : Option Nat} {xs : Fin 16} {xt : Fin 16} {mx : List Instr × Mem} (hh : s.held = mx) : ∃ tv, State.aluReg s c op xd xs xt = .next tv ∧ tv.held = mx := by
  unfold State.aluReg
  with_reducible repeat' (first
    | (intro _)
    | assumption
    | rfl
    | apply next_h
    | refine State.run_held ?_ ?_
    | apply State.alu_held)

theorem execHMov_held {c : CoreId} {xd : Fin 16} {xs : Fin 16} {s : State} {mx : List Instr × Mem} (hh : s.held = mx) : ∃ tv, execHMov c xd xs s = .next tv ∧ tv.held = mx := by
  unfold execHMov
  with_reducible repeat' (first
    | assumption
    | rfl
    | apply next_h
    | apply State.aluReg_held)

theorem execHAdd_held {c : CoreId} {xd : Fin 16} {xs : Fin 16} {xt : Fin 16} {s : State} {mx : List Instr × Mem} (hh : s.held = mx) : ∃ tv, execHAdd c xd xs xt s = .next tv ∧ tv.held = mx := by
  unfold execHAdd
  with_reducible repeat' (first
    | assumption
    | rfl
    | apply next_h
    | apply State.aluReg_held)

theorem execHAdds_held {c : CoreId} {xd : Fin 16} {xs : Fin 16} {xt : Fin 16} {s : State} {mx : List Instr × Mem} (hh : s.held = mx) : ∃ tv, execHAdds c xd xs xt s = .next tv ∧ tv.held = mx := by
  unfold execHAdds
  with_reducible repeat' (first
    | assumption
    | rfl
    | apply next_h
    | apply State.aluReg_held)

theorem execHSub_held {c : CoreId} {xd : Fin 16} {xs : Fin 16} {xt : Fin 16} {s : State} {mx : List Instr × Mem} (hh : s.held = mx) : ∃ tv, execHSub c xd xs xt s = .next tv ∧ tv.held = mx := by
  unfold execHSub
  with_reducible repeat' (first
    | assumption
    | rfl
    | apply next_h
    | apply State.aluReg_held)

theorem execHSubs_held {c : CoreId} {xd : Fin 16} {xs : Fin 16} {xt : Fin 16} {s : State} {mx : List Instr × Mem} (hh : s.held = mx) : ∃ tv, execHSubs c xd xs xt s = .next tv ∧ tv.held = mx := by
  unfold execHSubs
  with_reducible repeat' (first
    | assumption
    | rfl
    | apply next_h
    | apply State.aluReg_held)

theorem execHCmp_held {c : CoreId} {xs : Fin 16} {xt : Fin 16} {s : State} {mx : List Instr × Mem} (hh : s.held = mx) : ∃ tv, execHCmp c xs xt s = .next tv ∧ tv.held = mx := by
  unfold execHCmp
  with_reducible repeat' (first
    | assumption
    | rfl
    | apply next_h
    | apply State.aluReg_held)

theorem execHAnd_held {c : CoreId} {xd : Fin 16} {xs : Fin 16} {xt : Fin 16} {s : State} {mx : List Instr × Mem} (hh : s.held = mx) : ∃ tv, execHAnd c xd xs xt s = .next tv ∧ tv.held = mx := by
  unfold execHAnd
  with_reducible repeat' (first
    | assumption
    | rfl
    | apply next_h
    | apply State.aluReg_held)

theorem execHOr_held {c : CoreId} {xd : Fin 16} {xs : Fin 16} {xt : Fin 16} {s : State} {mx : List Instr × Mem} (hh : s.held = mx) : ∃ tv, execHOr c xd xs xt s = .next tv ∧ tv.held = mx := by
  unfold execHOr
  with_reducible repeat' (first
    | assumption
    | rfl
    | apply next_h
    | apply State.aluReg_held)

theorem execHXor_held {c : CoreId} {xd : Fin 16} {xs : Fin 16} {xt : Fin 16} {s : State} {mx : List Instr × Mem} (hh : s.held = mx) : ∃ tv, execHXor c xd xs xt s = .next tv ∧ tv.held = mx := by
  unfold execHXor
  with_reducible repeat' (first
    | assumption
    | rfl
    | apply next_h
    | apply State.aluReg_held)

theorem execHNot_held {c : CoreId} {xd : Fin 16} {xs : Fin 16} {s : State} {mx : List Instr × Mem} (hh : s.held = mx) : ∃ tv, execHNot c xd xs s = .next tv ∧ tv.held = mx := by
  unfold execHNot
  with_reducible repeat' (first
    | assumption
    | rfl
    | apply next_h
    | apply State.aluReg_held)

theorem execHAsl_held {c : CoreId} {xd : Fin 16} {xs : Fin 16} {xt : Fin 16} {s : State} {mx : List Instr × Mem} (hh : s.held = mx) : ∃ tv, execHAsl c xd xs xt s = .next tv ∧ tv.held = mx := by
  unfold execHAsl
  with_reducible repeat' (first
    | assumption
    | rfl
    | apply next_h
    | apply State.aluReg_held)

theorem execHAsr_held {c : CoreId} {xd : Fin 16} {xs : Fin 16} {xt : Fin 16} {s : State} {mx : List Instr × Mem} (hh : s.held = mx) : ∃ tv, execHAsr c xd xs xt s = .next tv ∧ tv.held = mx := by
  unfold execHAsr
  with_reducible repeat' (first
    | assumption
    | rfl
    | apply next_h
    | apply State.aluReg_held)

theorem execHLsr_held {c : CoreId} {xd : Fin 16} {xs : Fin 16} {xt : Fin 16} {s : State} {mx : List Instr × Mem} (hh : s.held = mx) : ∃ tv, execHLsr c xd xs xt s = .next tv ∧ tv.held = mx := by
  unfold execHLsr
  with_reducible repeat' (first
    | assumption
    | rfl
    | apply next_h
    | apply State.aluReg_held)

theorem execHMin_held {c : CoreId} {xd : Fin 16} {xs : Fin 16} {xt : Fin 16} {s : State} {mx : List Instr × Mem} (hh : s.held = mx) : ∃ tv, execHMin c xd xs xt s = .next tv ∧ tv.held = mx := by
  unfold execHMin
  with_reducible repeat' (first
    | assumption
    | rfl
    | apply next_h
    | apply State.aluReg_held)

theorem execHMax_held {c : CoreId} {xd : Fin 16} {xs : Fin 16} {xt : Fin 16} {s : State} {mx : List Instr × Mem} (hh : s.held = mx) : ∃ tv, execHMax c xd xs xt s = .next tv ∧ tv.held = mx := by
  unfold execHMax
  with_reducible repeat' (first
    | assumption
    | rfl
    | apply next_h
    | apply State.aluReg_held)

theorem execHAbs_held {c : CoreId} {xd : Fin 16} {xs : Fin 16} {s : State} {mx : List Instr × Mem} (hh : s.held = mx) : ∃ tv, execHAbs c xd xs s = .next tv ∧ tv.held = mx := by
  unfold execHAbs
  with_reducible repeat' (first
    | assumption
    | rfl
    | apply next_h
    | apply State.aluReg_held)

theorem execHMovi_held {c : CoreId} {xd : Fin 16} {imm : BitVec 16} {s : State} {mx : List Instr × Mem} (hh : s.held = mx) : ∃ tv, execHMovi c xd imm s = .next tv ∧ tv.held = mx := by
  unfold execHMovi
  with_reducible repeat' (first
    | (intro _)
    | assumption
    | rfl
    | apply next_h
    | refine State.run_held ?_ ?_
    | apply State.alu_held)

theorem execHMovhi_held {c : CoreId} {xd : Fin 16} {imm : BitVec 8} {s : State} {mx : List Instr × Mem} (hh : s.held = mx) : ∃ tv, execHMovhi c xd imm s = .next tv ∧ tv.held = mx := by
  unfold execHMovhi
  with_reducible repeat' (first
    | (intro _)
    | assumption
    | rfl
    | apply next_h
    | refine State.run_held ?_ ?_
    | apply State.alu_held)

theorem execHAluImmediate_held {c : CoreId} {op : BitVec 4} {xd : Fin 16} {imm : BitVec 16} {s : State} {mx : List Instr × Mem} (hh : s.held = mx) : ∃ tv, execHAluImmediate c op xd imm s = .next tv ∧ tv.held = mx := by
  unfold execHAluImmediate
  with_reducible repeat' (first
    | (intro _)
    | (extract_lets +onlyGivenNames tv; have hu := tv; clear hu)
    | assumption
    | rfl
    | apply next_h
    | refine State.run_held ?_ ?_
    | apply State.alu_held
    | split
    | (clear_value *; split))

theorem State.stepArg_held {s : State} {c : CoreId} {m : MemArg} {mx : List Instr × Mem} (hh : s.held = mx) : (State.stepArg s c m).held = mx := by
  unfold State.stepArg
  with_reducible repeat' (first
    | (intro _)
    | assumption
    | rfl
    | apply State.onCore_held)

theorem execHLd_held {c : CoreId} {width : BitVec 2} {x : Fin 16} {m : MemArg} {s : State} {mx : List Instr × Mem} (hh : s.held = mx) : ∃ tv, execHLd c width x m s = .next tv ∧ tv.held = mx := by
  unfold execHLd
  with_reducible repeat' (first
    | (intro _)
    | (extract_lets +onlyGivenNames tv; first | (refine (fun ht : State.held tv = mx => ?_) ?_; clear_value tv; rotate_left; subst tv; rotate_right) | (refine (fun ht : State.held (Prod.fst tv) = mx => ?_) ?_; clear_value tv; rotate_left; subst tv; rotate_right) | (have hu := tv; clear hu))
    | assumption
    | rfl
    | apply next_h
    | apply State.alignFlag_held
    | apply State.loadWords_held
    | refine State.run_held ?_ ?_
    | apply State.stepArg_held
    | apply ite_h
    | apply foldl_h
    | apply ite1_h
    | apply fold1_h
    | split
    | (clear_value *; split))

theorem execHSt_ok {c : CoreId} {width : BitVec 2} {x : Fin 16} {m : MemArg} {s : State} {mx : List Instr × Mem} (hh : State.Ok mx s) : ∃ tv, execHSt c width x m s = .next tv ∧ State.Ok mx tv := by
  unfold execHSt
  with_reducible repeat' (first
    | (intro _)
    | (extract_lets +onlyGivenNames tv; first | (refine (fun ht : State.Ok mx tv => ?_) ?_; clear_value tv; rotate_left; subst tv; rotate_right) | (refine (fun ht : State.Ok mx (Prod.fst tv) => ?_) ?_; clear_value tv; rotate_left; subst tv; rotate_right) | (have hu := tv; clear hu))
    | assumption
    | exact ok_rfl
    | apply next_ok
    | refine ok_of (State.hAddrErr_held rfl) ?_
    | apply State.storeWord_ok
    | refine ok_of (State.alignFlag_held rfl) ?_
    | refine State.run_ok ?_ ?_
    | refine ok_of (State.stepArg_held rfl) ?_
    | apply ite_ok
    | apply foldl_ok
    | apply ite1_ok
    | apply fold1_ok
    | split
    | (clear_value *; split))

theorem State.slots_held {s : State} {c : CoreId} {xa : Fin 16} {xb : Fin 16} {sl : Slots} {mx : List Instr × Mem} (hh : s.held = mx) : (State.slots s c xa xb sl).held = mx := by
  unfold State.slots
  with_reducible repeat' (first
    | (intro _)
    | (extract_lets +onlyGivenNames tv; first | (refine (fun ht : State.held tv = mx => ?_) ?_; clear_value tv; rotate_left; subst tv; rotate_right) | (refine (fun ht : State.held (Prod.fst tv) = mx => ?_) ?_; clear_value tv; rotate_left; subst tv; rotate_right) | (have hu := tv; clear hu))
    | assumption
    | rfl
    | apply State.onCore_held
    | apply State.alignFlag_held
    | apply State.loadWords_held
    | apply ite_h
    | apply foldl_h
    | apply ite1_h
    | apply fold1_h
    | split
    | (clear_value *; split))

theorem execHLdp_held {c : CoreId} {xa : Fin 16} {xb : Fin 16} {sl : Slots} {s : State} {mx : List Instr × Mem} (hh : s.held = mx) : ∃ tv, execHLdp c xa xb sl s = .next tv ∧ tv.held = mx := by
  unfold execHLdp
  with_reducible repeat' (first
    | (intro _)
    | assumption
    | rfl
    | apply next_h
    | refine State.run_held ?_ ?_
    | apply State.slots_held
    | apply ite_h
    | apply foldl_h
    | apply ite1_h
    | apply fold1_h
    | split
    | (clear_value *; split))

theorem execHWst_ok {c : CoreId} {a : Fin 4} {w : Fin 4} {m : MemArg} {s : State} {mx : List Instr × Mem} (hh : State.Ok mx s) : ∃ tv, execHWst c a w m s = .next tv ∧ State.Ok mx tv := by
  unfold execHWst
  with_reducible repeat' (first
    | (intro _)
    | (extract_lets +onlyGivenNames tv; have hu := tv; clear hu)
    | assumption
    | exact ok_rfl
    | apply next_ok
    | refine State.run_ok ?_ ?_
    | refine ok_of (State.setSr_held rfl) ?_
    | refine ok_of (State.stepArg_held rfl) ?_
    | apply State.storeWord_ok
    | apply ite_ok)

theorem execHWld_held {c : CoreId} {a : Fin 4} {w : Fin 4} {m : MemArg} {s : State} {mx : List Instr × Mem} (hh : s.held = mx) : ∃ tv, execHWld c a w m s = .next tv ∧ tv.held = mx := by
  unfold execHWld
  with_reducible repeat' (first
    | (intro _)
    | (extract_lets +onlyGivenNames tv; first | (refine (fun ht : State.held tv = mx => ?_) ?_; clear_value tv; rotate_left; subst tv; rotate_right) | (refine (fun ht : State.held (Prod.fst tv) = mx => ?_) ?_; clear_value tv; rotate_left; subst tv; rotate_right) | (have hu := tv; clear hu))
    | assumption
    | rfl
    | apply next_h
    | apply State.loadWords_held
    | refine State.run_held ?_ ?_
    | apply State.stepArg_held
    | apply ite_h
    | apply foldl_h
    | apply ite1_h
    | apply fold1_h
    | split
    | (clear_value *; split))

theorem execHAsv_ok {c : CoreId} {a : Fin 4} {slice : Fin 4} {m : MemArg} {s : State} {mx : List Instr × Mem} (hh : State.Ok mx s) : ∃ tv, execHAsv c a slice m s = .next tv ∧ State.Ok mx tv := by
  unfold execHAsv
  with_reducible repeat' (first
    | (intro _)
    | (extract_lets +onlyGivenNames tv; have hu := tv; clear hu)
    | assumption
    | exact ok_rfl
    | apply next_ok
    | refine State.run_ok ?_ ?_
    | refine ok_of (State.stepArg_held rfl) ?_
    | apply State.storeWord_ok
    | (clear_value *; split))

theorem execHAld_held {c : CoreId} {a : Fin 4} {slice : Fin 4} {m : MemArg} {s : State} {mx : List Instr × Mem} (hh : s.held = mx) : ∃ tv, execHAld c a slice m s = .next tv ∧ tv.held = mx := by
  unfold execHAld
  with_reducible repeat' (first
    | (intro _)
    | (extract_lets +onlyGivenNames tv; first | (refine (fun ht : State.held tv = mx => ?_) ?_; clear_value tv; rotate_left; subst tv; rotate_right) | (refine (fun ht : State.held (Prod.fst tv) = mx => ?_) ?_; clear_value tv; rotate_left; subst tv; rotate_right) | (have hu := tv; clear hu))
    | assumption
    | rfl
    | apply next_h
    | apply State.loadWords_held
    | refine State.run_held ?_ ?_
    | apply State.stepArg_held
    | apply ite_h
    | apply foldl_h
    | apply ite1_h
    | apply fold1_h
    | split
    | (clear_value *; split))

theorem execHRnd_held {c : CoreId} {ad : Fin 4} {w : Fin 4} {s : State} {mx : List Instr × Mem} (hh : s.held = mx) : ∃ tv, execHRnd c ad w s = .next tv ∧ tv.held = mx := by
  unfold execHRnd
  with_reducible repeat' (first
    | (intro _)
    | (extract_lets +onlyGivenNames tv; first | (refine (fun ht : State.held tv = mx => ?_) ?_; clear_value tv; rotate_left; subst tv; rotate_right) | (refine (fun ht : State.held (Prod.fst tv) = mx => ?_) ?_; clear_value tv; rotate_left; subst tv; rotate_right) | (have hu := tv; clear hu))
    | assumption
    | rfl
    | apply next_h
    | refine State.run_held ?_ ?_
    | apply State.putAcc_held)

theorem execHClra_held {c : CoreId} {ad : Fin 4} {s : State} {mx : List Instr × Mem} (hh : s.held = mx) : ∃ tv, execHClra c ad s = .next tv ∧ tv.held = mx := by
  unfold execHClra
  with_reducible repeat' (first
    | (intro _)
    | assumption
    | rfl
    | apply next_h
    | refine State.run_held ?_ ?_
    | apply State.putAcc_held)

theorem State.sumInto_held {s : State} {c : CoreId} {ad : Nat} {v : Int} {mx : List Instr × Mem} (hh : s.held = mx) : (State.sumInto s c ad v).held = mx := by
  unfold State.sumInto
  with_reducible repeat' (first
    | assumption
    | rfl
    | apply State.putAcc_held)

theorem execHAdda_held {c : CoreId} {ad : Fin 4} {as : Fin 4} {s : State} {mx : List Instr × Mem} (hh : s.held = mx) : ∃ tv, execHAdda c ad as s = .next tv ∧ tv.held = mx := by
  unfold execHAdda
  with_reducible repeat' (first
    | (intro _)
    | assumption
    | rfl
    | apply next_h
    | refine State.run_held ?_ ?_
    | apply State.sumInto_held)

theorem execHSuba_held {c : CoreId} {ad : Fin 4} {as : Fin 4} {s : State} {mx : List Instr × Mem} (hh : s.held = mx) : ∃ tv, execHSuba c ad as s = .next tv ∧ tv.held = mx := by
  unfold execHSuba
  with_reducible repeat' (first
    | (intro _)
    | assumption
    | rfl
    | apply next_h
    | refine State.run_held ?_ ?_
    | apply State.sumInto_held)

theorem execHNega_held {c : CoreId} {ad : Fin 4} {s : State} {mx : List Instr × Mem} (hh : s.held = mx) : ∃ tv, execHNega c ad s = .next tv ∧ tv.held = mx := by
  unfold execHNega
  with_reducible repeat' (first
    | (intro _)
    | assumption
    | rfl
    | apply next_h
    | refine State.run_held ?_ ?_
    | apply State.sumInto_held)

theorem execHAsha_held {c : CoreId} {ad : Fin 4} {shift : BitVec 6} {s : State} {mx : List Instr × Mem} (hh : s.held = mx) : ∃ tv, execHAsha c ad shift s = .next tv ∧ tv.held = mx := by
  unfold execHAsha
  with_reducible repeat' (first
    | (intro _)
    | (extract_lets +onlyGivenNames tv; first | (refine (fun ht : State.held tv = mx => ?_) ?_; clear_value tv; rotate_left; subst tv; rotate_right) | (refine (fun ht : State.held (Prod.fst tv) = mx => ?_) ?_; clear_value tv; rotate_left; subst tv; rotate_right) | (have hu := tv; clear hu))
    | assumption
    | rfl
    | apply next_h
    | refine State.run_held ?_ ?_
    | apply State.putAcc_held)

theorem execHMvax_held {c : CoreId} {a : Fin 4} {w : Fin 4} {x : Fin 16} {s : State} {mx : List Instr × Mem} (hh : s.held = mx) : ∃ tv, execHMvax c a w x s = .next tv ∧ tv.held = mx := by
  unfold execHMvax
  with_reducible repeat' (first
    | (intro _)
    | (extract_lets +onlyGivenNames tv; first | (refine (fun ht : State.held tv = mx => ?_) ?_; clear_value tv; rotate_left; subst tv; rotate_right) | (refine (fun ht : State.held (Prod.fst tv) = mx => ?_) ?_; clear_value tv; rotate_left; subst tv; rotate_right) | (have hu := tv; clear hu))
    | assumption
    | rfl
    | apply next_h
    | refine State.run_held ?_ ?_
    | apply State.setSr_held
    | apply State.now_held
    | apply ite_h)

theorem execHMvxa_held {c : CoreId} {a : Fin 4} {w : Fin 4} {x : Fin 16} {s : State} {mx : List Instr × Mem} (hh : s.held = mx) : ∃ tv, execHMvxa c a w x s = .next tv ∧ tv.held = mx := by
  unfold execHMvxa
  with_reducible repeat' (first
    | (intro _)
    | assumption
    | rfl
    | apply next_h
    | refine State.run_held ?_ ?_
    | apply State.putAcc_held)

theorem State.macInto_held {s : State} {c : CoreId} {ad : Nat} {neg : Bool} {clr : Bool} {sum : Int} {mx : List Instr × Mem} (hh : s.held = mx) : (State.macInto s c ad neg clr sum).held = mx := by
  unfold State.macInto
  with_reducible repeat' (first
    | (intro _)
    | (extract_lets +onlyGivenNames tv; have hu := tv; clear hu)
    | assumption
    | rfl
    | apply State.sumInto_held)

theorem execHMac_held {c : CoreId} {ad : Fin 4} {neg : Bool} {clr : Bool} {xa : Fin 16} {xb : Fin 16} {sl : Slots} {s : State} {mx : List Instr × Mem} (hh : s.held = mx) : ∃ tv, execHMac c ad neg clr xa xb sl s = .next tv ∧ tv.held = mx := by
  unfold execHMac
  with_reducible repeat' (first
    | (intro _)
    | assumption
    | rfl
    | apply next_h
    | refine State.run_held ?_ ?_
    | apply State.slots_held
    | apply State.macInto_held
    | apply ite_h
    | apply foldl_h
    | apply ite1_h
    | apply fold1_h
    | split
    | (clear_value *; split))

theorem execHMac4_held {c : CoreId} {ad : Fin 4} {neg : Bool} {clr : Bool} {xa : Fin 16} {xb : Fin 16} {sl : Slots} {s : State} {mx : List Instr × Mem} (hh : s.held = mx) : ∃ tv, execHMac4 c ad neg clr xa xb sl s = .next tv ∧ tv.held = mx := by
  unfold execHMac4
  with_reducible repeat' (first
    | (intro _)
    | (extract_lets +onlyGivenNames tv; first | (refine (fun ht : State.held tv = mx => ?_) ?_; clear_value tv; rotate_left; subst tv; rotate_right) | (refine (fun ht : State.held (Prod.fst tv) = mx => ?_) ?_; clear_value tv; rotate_left; subst tv; rotate_right) | (have hu := tv; clear hu))
    | assumption
    | rfl
    | apply next_h
    | refine State.run_held ?_ ?_
    | apply State.slots_held
    | apply State.macInto_held
    | apply ite_h
    | apply foldl_h
    | apply ite1_h
    | apply fold1_h
    | split
    | (clear_value *; split))

theorem execHDot4_held {c : CoreId} {ad : Fin 4} {neg : Bool} {clr : Bool} {xa : Fin 16} {xb : Fin 16} {sl : Slots} {s : State} {mx : List Instr × Mem} (hh : s.held = mx) : ∃ tv, execHDot4 c ad neg clr xa xb sl s = .next tv ∧ tv.held = mx := by
  unfold execHDot4
  with_reducible repeat' (first
    | (intro _)
    | (extract_lets +onlyGivenNames tv; first | (refine (fun ht : State.held tv = mx => ?_) ?_; clear_value tv; rotate_left; subst tv; rotate_right) | (refine (fun ht : State.held (Prod.fst tv) = mx => ?_) ?_; clear_value tv; rotate_left; subst tv; rotate_right) | (have hu := tv; clear hu))
    | assumption
    | rfl
    | apply next_h
    | refine State.run_held ?_ ?_
    | apply State.slots_held
    | apply State.macInto_held
    | apply ite_h
    | apply foldl_h
    | apply ite1_h
    | apply fold1_h
    | split
    | (clear_value *; split))

theorem execHCmac_held {c : CoreId} {ad : Fin 4} {neg : Bool} {clr : Bool} {xa : Fin 16} {xb : Fin 16} {sl : Slots} {conj : Bool} {s : State} {mx : List Instr × Mem} (hh : s.held = mx) : ∃ tv, execHCmac c ad neg clr xa xb sl conj s = .next tv ∧ tv.held = mx := by
  unfold execHCmac
  with_reducible repeat' (first
    | (intro _)
    | (extract_lets +onlyGivenNames tv; first | (refine (fun ht : State.held tv = mx => ?_) ?_; clear_value tv; rotate_left; subst tv; rotate_right) | (refine (fun ht : State.held (Prod.fst tv) = mx => ?_) ?_; clear_value tv; rotate_left; subst tv; rotate_right) | (have hu := tv; clear hu))
    | assumption
    | rfl
    | apply next_h
    | refine State.run_held ?_ ?_
    | apply State.slots_held
    | apply State.macInto_held
    | apply ite_h
    | apply foldl_h
    | apply ite1_h
    | apply fold1_h
    | split
    | (clear_value *; split))

theorem execHTng_held {c : CoreId} {i : Fin 8} {s : State} {mx : List Instr × Mem} (hh : s.held = mx) : ∃ tv, execHTng c i s = .next tv ∧ tv.held = mx := by
  unfold execHTng
  with_reducible repeat' (first
    | (intro _)
    | (extract_lets +onlyGivenNames tv; first | (refine (fun ht : State.held tv = mx => ?_) ?_; clear_value tv; rotate_left; subst tv; rotate_right) | (refine (fun ht : State.held (Prod.fst tv) = mx => ?_) ?_; clear_value tv; rotate_left; subst tv; rotate_right) | (have hu := tv; clear hu))
    | assumption
    | rfl
    | apply next_h
    | apply State.loadWords_held
    | refine State.run_held ?_ ?_
    | apply ite_h
    | apply foldl_h
    | apply ite1_h
    | apply fold1_h
    | split
    | (clear_value *; split))

theorem execHTwait_held {c : CoreId} {n : BitVec 4} {s : State} {mx : List Instr × Mem} (hh : s.held = mx) : ∃ tv, execHTwait c n s = .next tv ∧ tv.held = mx := by
  unfold execHTwait
  with_reducible repeat' (first
    | (intro _)
    | assumption
    | rfl
    | apply next_h
    | refine State.run_held ?_ ?_
    | apply State.stallFor_held
    | apply ite_h)

theorem execHLdx_held {c : CoreId} {xd : Fin 16} {i : Fin 8} {s : State} {mx : List Instr × Mem} (hh : s.held = mx) : ∃ tv, execHLdx c xd i s = .next tv ∧ tv.held = mx := by
  unfold execHLdx
  with_reducible repeat' (first
    | (intro _)
    | (extract_lets +onlyGivenNames tv; first | (refine (fun ht : State.held tv = mx => ?_) ?_; clear_value tv; rotate_left; subst tv; rotate_right) | (have hu := tv; clear hu))
    | assumption
    | rfl
    | apply next_h
    | refine State.run_held ?_ ?_
    | apply State.onCore_held
    | refine State.hearthRead_heldp ‹_› ?_
    | apply State.hearthRead_held
    | apply State.later_held
    | apply State.hAddrErr_held
    | split
    | (clear_value *; split))

theorem execHStx_ok {c : CoreId} {xd : Fin 16} {xs : Fin 16} {i : Fin 8} {s : State} {mx : List Instr × Mem} (hh : State.Ok mx s) : ∃ tv, execHStx c xd xs i s = .next tv ∧ State.Ok mx tv := by
  unfold execHStx
  with_reducible repeat' (first
    | (intro _)
    | (extract_lets +onlyGivenNames tv; first | (refine (fun ht : State.Ok mx tv => ?_) ?_; clear_value tv; rotate_left; subst tv; rotate_right) | (have hu := tv; clear hu))
    | assumption
    | exact ok_rfl
    | apply next_ok
    | refine State.run_ok ?_ ?_
    | refine ok_of (State.onCore_held rfl) ?_
    | apply State.hearthWrite_ok
    | refine ok_of (State.later_held rfl) ?_
    | refine ok_of (State.hAddrErr_held rfl) ?_
    | apply ite_ok
    | split
    | (clear_value *; split))

theorem execHAtm_ok {c : CoreId} {op : BitVec 5} {xd : Fin 16} {xs : Fin 16} {i : Fin 8} {s : State} {mx : List Instr × Mem} (hh : State.Ok mx s) : ∃ tv, execHAtm c op xd xs i s = .next tv ∧ State.Ok mx tv := by
  unfold execHAtm
  with_reducible repeat' (first
    | (intro _)
    | (extract_lets +onlyGivenNames tv; first | (refine (fun ht : State.Ok mx tv => ?_) ?_; clear_value tv; rotate_left; subst tv; rotate_right) | (refine (fun ht : State.Ok mx (Prod.fst tv) => ?_) ?_; clear_value tv; rotate_left; subst tv; rotate_right) | (have hu := tv; clear hu))
    | assumption
    | exact ok_rfl
    | apply next_ok
    | refine ok_of (State.issue_heldp ‹_› rfl) ?_
    | refine ok_of (State.issue_held rfl) ?_
    | refine ok_of (State.onCore_held rfl) ?_
    | refine ok_of (State.hAddrErr_held rfl) ?_
    | refine ok_of (State.hNocErr_held rfl) ?_
    | refine ok_of (State.later_held rfl) ?_
    | refine ok_of (State.stallFor_held rfl) ?_
    | apply State.hearthWrite_ok
    | refine ok_of (State.hearthRead_heldp ‹_› rfl) ?_
    | refine ok_of (State.hearthRead_held rfl) ?_
    | refine ok_of (State.loadDone_held rfl) ?_
    | refine State.run_ok ?_ ?_
    | apply ite_ok
    | apply foldl_ok
    | apply ite1_ok
    | apply fold1_ok
    | split
    | (clear_value *; split))

theorem State.runWord_ok {s : State} {c : CoreId} {a0 : Option Instr} {mx : List Instr × Mem} (hh : State.Ok mx s) :
    ∃ tv, State.runWord s c a0 = .next tv ∧ State.Ok mx tv := by
  unfold State.runWord
  split
  · exact held_res_ok (execHIdle_held rfl) hh
  · exact held_res_ok (execHNop_held rfl) hh
  · exact held_res_ok (execHWaitStroke_held rfl) hh
  · exact held_res_ok (execHSync_held rfl) hh
  · exact held_res_ok (execHBkpt_held rfl) hh
  · exact held_res_ok (execHB_held rfl) hh
  · exact held_res_ok (execHBc_held rfl) hh
  · exact held_res_ok (execHCall_held rfl) hh
  · exact held_res_ok (execHRet_held rfl) hh
  · exact held_res_ok (execHRti_held rfl) hh
  · exact held_res_ok (execHRpt_held rfl) hh
  · exact held_res_ok (execHLoop_held rfl) hh
  · exact held_res_ok (execHMovs_held rfl) hh
  · exact held_res_ok (execHMov_held rfl) hh
  · exact held_res_ok (execHAdd_held rfl) hh
  · exact held_res_ok (execHAdds_held rfl) hh
  · exact held_res_ok (execHSub_held rfl) hh
  · exact held_res_ok (execHSubs_held rfl) hh
  · exact held_res_ok (execHCmp_held rfl) hh
  · exact held_res_ok (execHAnd_held rfl) hh
  · exact held_res_ok (execHOr_held rfl) hh
  · exact held_res_ok (execHXor_held rfl) hh
  · exact held_res_ok (execHNot_held rfl) hh
  · exact held_res_ok (execHAsl_held rfl) hh
  · exact held_res_ok (execHAsr_held rfl) hh
  · exact held_res_ok (execHLsr_held rfl) hh
  · exact held_res_ok (execHMin_held rfl) hh
  · exact held_res_ok (execHMax_held rfl) hh
  · exact held_res_ok (execHAbs_held rfl) hh
  · exact held_res_ok (execHMovi_held rfl) hh
  · exact held_res_ok (execHMovhi_held rfl) hh
  · exact held_res_ok (execHAluImmediate_held rfl) hh
  · exact held_res_ok (execHLd_held rfl) hh
  · exact execHSt_ok hh
  · exact held_res_ok (execHLdp_held rfl) hh
  · exact execHWst_ok hh
  · exact held_res_ok (execHWld_held rfl) hh
  · exact execHAsv_ok hh
  · exact held_res_ok (execHAld_held rfl) hh
  · exact held_res_ok (execHRnd_held rfl) hh
  · exact held_res_ok (execHClra_held rfl) hh
  · exact held_res_ok (execHAdda_held rfl) hh
  · exact held_res_ok (execHSuba_held rfl) hh
  · exact held_res_ok (execHNega_held rfl) hh
  · exact held_res_ok (execHAsha_held rfl) hh
  · exact held_res_ok (execHMvax_held rfl) hh
  · exact held_res_ok (execHMvxa_held rfl) hh
  · exact held_res_ok (execHMac_held rfl) hh
  · exact held_res_ok (execHMac4_held rfl) hh
  · exact held_res_ok (execHDot4_held rfl) hh
  · exact held_res_ok (execHCmac_held rfl) hh
  · exact held_res_ok (execHTng_held rfl) hh
  · exact held_res_ok (execHTwait_held rfl) hh
  · exact held_res_ok (execHLdx_held rfl) hh
  · exact execHStx_ok hh
  · exact execHAtm_ok hh
  · exact held_res_ok (State.run_held rfl fun _ h => h) hh

theorem execReservedEncoding_ok {c : CoreId} {word : BitVec 32} {s : State} {mx : List Instr × Mem} (hh : State.Ok mx s) : ∃ tv, execReservedEncoding c word s = .next tv ∧ State.Ok mx tv := by
  unfold execReservedEncoding
  with_reducible repeat' (first
    | (intro _)
    | assumption
    | exact ok_rfl
    | apply next_ok
    | apply State.runWord_ok
    | apply ite_ok
    | apply foldl_ok
    | apply ite1_ok
    | apply fold1_ok
    | split
    | (clear_value *; split))

end Sys2Proof.Machine
end

