-- ==== Sys2Proof/Laws/HeldDeliver.lean ====
section
/-! SUPPORT. For each operation of Machine/Deliver.lean: the queue and the memory it keeps (`_held`), or, where it stores, that the queue stays and the memory keeps its canonical form (`_ok`). -/

namespace Sys2Proof.Machine
open Sys2Proof
set_option linter.tactic.unusedName false

theorem State.mgtAnswer_held {s : State} {kind : Nat} {status : Nat} {data : Nat} {mx : List Instr × Mem} (hh : s.held = mx) : (State.mgtAnswer s kind status data).held = mx := by
  unfold State.mgtAnswer
  with_reducible repeat' (first
    | (intro _)
    | (extract_lets +onlyGivenNames tv; have hu := tv; clear hu)
    | assumption
    | rfl
    | apply State.setMgt_held
    | apply State.used_held
    | apply ite_h
    | split
    | (clear_value *; split))

theorem State.debugAnswer_held {s : State} {status : Nat} {data : Nat} {mx : List Instr × Mem} (hh : s.held = mx) : (State.debugAnswer s status data).held = mx := by
  unfold State.debugAnswer
  with_reducible repeat' (first
    | (intro _)
    | (extract_lets +onlyGivenNames tv; have hu := tv; clear hu)
    | assumption
    | rfl
    | apply State.setDbg_held)

theorem State.barAnswer_held {s : State} {write : Bool} {status : Nat} {data : Nat} {mx : List Instr × Mem} (hh : s.held = mx) : (State.barAnswer s write status data).held = mx := by
  unfold State.barAnswer
  with_reducible repeat' (first
    | (intro _)
    | (extract_lets +onlyGivenNames tv; first | (refine (fun ht : State.held tv = mx => ?_) ?_; clear_value tv; rotate_left; subst tv; rotate_right) | (have hu := tv; clear hu))
    | assumption
    | rfl
    | apply State.bump_held
    | apply State.emit_held
    | apply ite_h)

theorem State.deliver_ok {s : State} {src : Nat} {tag : Nat} {o : Owner} {status : Nat} {data : Nat} {mx : List Instr × Mem} (hh : State.Ok mx s) : State.Ok mx (State.deliver s src tag o status data) := by
  unfold State.deliver
  with_reducible repeat' (first
    | (intro _)
    | assumption
    | exact ok_rfl
    | refine ok_of (State.emit_held rfl) ?_
    | apply State.tngAnswer_ok
    | refine ok_of (State.coreLoaded_held rfl) ?_
    | refine ok_of (State.coreStored_held rfl) ?_
    | refine ok_of (State.mgtAnswer_held rfl) ?_
    | refine ok_of (State.debugAnswer_held rfl) ?_
    | refine ok_of (State.barAnswer_held rfl) ?_
    | apply ite_ok
    | apply foldl_ok
    | apply ite1_ok
    | apply fold1_ok
    | split
    | (clear_value *; split))

theorem State.request_ok {s : State} {r : NocReq} {o : Owner} {mx : List Instr × Mem} (hh : State.Ok mx s) : State.Ok mx (State.request s r o) := by
  unfold State.request
  with_reducible repeat' (first
    | (intro _)
    | (extract_lets +onlyGivenNames tv; first | (refine (fun ht : State.Ok mx tv => ?_) ?_; clear_value tv; rotate_left; subst tv; rotate_right) | (refine (fun ht : State.Ok mx (Prod.fst tv) => ?_) ?_; clear_value tv; rotate_left; subst tv; rotate_right) | (have hu := tv; clear hu))
    | assumption
    | exact ok_rfl
    | refine ok_of (State.issue_heldp ‹_› rfl) ?_
    | refine ok_of (State.issue_held rfl) ?_
    | apply State.deliver_ok
    | apply ite_ok
    | apply foldl_ok
    | apply ite1_ok
    | apply fold1_ok
    | split
    | (clear_value *; split))

theorem State.xDemote_ok {s : State} {r : NocReq} {o : Owner} {mx : List Instr × Mem} (hh : State.Ok mx s) : State.Ok mx (State.xDemote s r o) := by
  unfold State.xDemote
  with_reducible repeat' (first
    | (intro _)
    | (extract_lets +onlyGivenNames tv; first | (refine (fun ht : State.Ok mx tv => ?_) ?_; clear_value tv; rotate_left; subst tv; rotate_right) | (refine (fun ht : State.Ok mx (Prod.fst tv) => ?_) ?_; clear_value tv; rotate_left; subst tv; rotate_right) | (have hu := tv; clear hu))
    | assumption
    | exact ok_rfl
    | refine ok_of (State.setTag_held rfl) ?_
    | refine ok_of (State.bump_held rfl) ?_
    | refine ok_of (State.sendReq_heldp ‹_› rfl) ?_
    | refine ok_of (State.sendReq_held rfl) ?_
    | apply State.deliver_ok
    | apply ite_ok
    | apply foldl_ok
    | apply ite1_ok
    | apply fold1_ok
    | split
    | (clear_value *; split))

theorem State.xStroke_ok {s : State} {mx : List Instr × Mem} (hh : State.Ok mx s) : State.Ok mx (State.xStroke s) := by
  unfold State.xStroke
  with_reducible repeat' (first
    | (intro _)
    | (extract_lets +onlyGivenNames tv; first | (refine (fun ht : State.Ok mx tv => ?_) ?_; clear_value tv; rotate_left; subst tv; rotate_right) | (refine (fun ht : State.Ok mx (Prod.fst tv) => ?_) ?_; clear_value tv; rotate_left; subst tv; rotate_right) | (have hu := tv; clear hu))
    | assumption
    | exact ok_rfl
    | refine ok_of (State.setXUsed_held rfl) ?_
    | refine ok_of (State.setXHeld_held rfl) ?_
    | refine ok_of (State.xAdmit_held rfl) ?_
    | apply State.xDemote_ok
    | apply ite_ok
    | apply foldl_ok
    | apply ite1_ok
    | apply fold1_ok
    | split
    | (clear_value *; split))

theorem State.xLate_held {s : State} {id : Nat} {t : TagSt} {mx : List Instr × Mem} (hh : s.held = mx) : (State.xLate s id t).held = mx := by
  unfold State.xLate
  with_reducible repeat' (first
    | (intro _)
    | (extract_lets +onlyGivenNames tv; first | (refine (fun ht : State.held tv = mx => ?_) ?_; clear_value tv; rotate_left; subst tv; rotate_right) | (refine (fun ht : State.held (Prod.fst tv) = mx => ?_) ?_; clear_value tv; rotate_left; subst tv; rotate_right) | (have hu := tv; clear hu))
    | assumption
    | rfl
    | apply State.bump_held
    | apply State.used_held
    | apply State.raise_held
    | apply ite_h
    | apply foldl_h
    | apply ite1_h
    | apply fold1_h
    | simp only [id_eq]
    | split
    | (clear_value *; split))

theorem execNocRequestIssue_ok {r : NocReq} {s : State} {mx : List Instr × Mem} (hh : State.Ok mx s) : ∃ tv, execNocRequestIssue r s = .next tv ∧ State.Ok mx tv := by
  unfold execNocRequestIssue
  with_reducible repeat' (first
    | (intro _)
    | assumption
    | exact ok_rfl
    | apply next_ok
    | apply State.request_ok
    | apply ite_ok
    | apply foldl_ok
    | apply ite1_ok
    | apply fold1_ok
    | split
    | (clear_value *; split))

theorem execClassXPacerRelease_ok {src : BitVec 12} {s : State} {mx : List Instr × Mem} (hh : State.Ok mx s) : ∃ tv, execClassXPacerRelease src s = .next tv ∧ State.Ok mx tv := by
  unfold execClassXPacerRelease
  with_reducible repeat' (first
    | (intro _)
    | (extract_lets +onlyGivenNames tv; first | (refine (fun ht : State.Ok mx tv => ?_) ?_; clear_value tv; rotate_left; subst tv; rotate_right) | (refine (fun ht : State.Ok mx (Prod.fst tv) => ?_) ?_; clear_value tv; rotate_left; subst tv; rotate_right) | (have hu := tv; clear hu))
    | assumption
    | exact ok_rfl
    | apply next_ok
    | refine ok_of (State.setXWait_held rfl) ?_
    | refine ok_of (State.sendReq_heldp ‹_› rfl) ?_
    | refine ok_of (State.sendReq_held rfl) ?_
    | apply State.deliver_ok
    | apply ite_ok
    | apply foldl_ok
    | apply ite1_ok
    | apply fold1_ok
    | split
    | (clear_value *; split))

theorem State.lateResponse_held {s : State} {dst : Nat} {tag : Nat} {gen : Nat} {mx : List Instr × Mem} (hh : s.held = mx) : (State.lateResponse s dst tag gen).held = mx := by
  unfold State.lateResponse
  with_reducible repeat' (first
    | (intro _)
    | (extract_lets +onlyGivenNames tv; first | (refine (fun ht : State.held tv = mx => ?_) ?_; clear_value tv; rotate_left; subst tv; rotate_right) | (have hu := tv; clear hu))
    | assumption
    | rfl
    | apply State.setTag_held
    | apply State.stale_held
    | apply State.bump_held
    | apply State.raise_held
    | apply ite_h)

theorem execNocResponseArrival_ok {dst : BitVec 12} {tag : BitVec 10} {gen : BitVec 4} {resp : BitVec 12} {status : BitVec 4} {data : BitVec 512} {badEcc : Bool} {ns : BitVec 32} {s : State} {mx : List Instr × Mem} (hh : State.Ok mx s) : ∃ tv, execNocResponseArrival dst tag gen resp status data badEcc ns s = .next tv ∧ State.Ok mx tv := by
  unfold execNocResponseArrival
  with_reducible repeat' (first
    | (intro _)
    | (extract_lets +onlyGivenNames tv; first | (refine (fun ht : State.Ok mx tv => ?_) ?_; clear_value tv; rotate_left; subst tv; rotate_right) | (have hu := tv; clear hu))
    | assumption
    | exact ok_rfl
    | apply next_ok
    | refine ok_of (State.bump_held rfl) ?_
    | refine ok_of (State.tagDone_held rfl) ?_
    | refine ok_of (State.bwCount_held rfl) ?_
    | refine ok_of (State.raise_held rfl) ?_
    | apply State.deliver_ok
    | refine ok_of (State.lateResponse_held rfl) ?_
    | apply ite_ok
    | split
    | (clear_value *; split))

theorem execNocTimeout_ok {src : BitVec 12} {tag : BitVec 10} {s : State} {mx : List Instr × Mem} (hh : State.Ok mx s) : ∃ tv, execNocTimeout src tag s = .next tv ∧ State.Ok mx tv := by
  unfold execNocTimeout
  with_reducible repeat' (first
    | (intro _)
    | (extract_lets +onlyGivenNames tv; first | (refine (fun ht : State.Ok mx tv => ?_) ?_; clear_value tv; rotate_left; subst tv; rotate_right) | (have hu := tv; clear hu))
    | assumption
    | exact ok_rfl
    | apply next_ok
    | refine ok_of (State.setXWait_held rfl) ?_
    | refine ok_of (State.setXHeld_held rfl) ?_
    | refine ok_of (State.setTag_held rfl) ?_
    | refine ok_of (State.outst_held rfl) ?_
    | refine ok_of (State.stale_held rfl) ?_
    | refine ok_of (State.bump_held rfl) ?_
    | refine ok_of (State.raise_held rfl) ?_
    | apply State.deliver_ok
    | apply ite_ok)

theorem execStaleTagRelease_held {src : BitVec 12} {tag : BitVec 10} {s : State} {mx : List Instr × Mem} (hh : s.held = mx) : ∃ tv, execStaleTagRelease src tag s = .next tv ∧ tv.held = mx := by
  unfold execStaleTagRelease
  with_reducible repeat' (first
    | (intro _)
    | (extract_lets +onlyGivenNames tv; have hu := tv; clear hu)
    | assumption
    | rfl
    | apply next_h
    | apply State.setTag_held
    | apply State.stale_held
    | apply ite_h)

theorem State.request_user_held {s : State} {r : NocReq} {u : Nat} {mx : List Instr × Mem} (hh : s.held = mx) : (State.request s r (.user u)).held = mx := by
  have k := State.issue_held (r := r) (o := .user u) hh
  unfold State.request
  generalize s.issue r (.user u) = x at k ⊢
  obtain ⟨t, _ | st⟩ := x
  · exact k
  · exact State.emit_held k
theorem State.portAsk_held {s : State} {d : Die} {q : Nat} {p : Nat} {x : PortReq} {mx : List Instr × Mem} (hh : s.held = mx) : (State.portAsk s d q p x).held = mx := by
  unfold State.portAsk
  extract_lets
  split
  · exact State.request_user_held hh
  · exact hh

theorem execFabricPortInitiatorRequest_held {die : FDie} {parcel : Fin 16} {port : Fin 16} {user : BitVec 6} {op : BitVec 5} {cls : BitVec 2} {size : BitVec 3} {alloc : Bool} {addr : BitVec 48} {data : BitVec 512} {be : BitVec 64} {s : State} {mx : List Instr × Mem} (hh : s.held = mx) : ∃ tv, execFabricPortInitiatorRequest die parcel port user op cls size alloc addr data be s = .next tv ∧ tv.held = mx := by
  unfold execFabricPortInitiatorRequest
  with_reducible repeat' (first
    | (intro _)
    | assumption
    | rfl
    | apply next_h
    | apply State.portAsk_held
    | apply ite_h
    | apply foldl_h
    | apply ite1_h
    | apply fold1_h
    | split
    | (clear_value *; split))

theorem State.presentAll_held {s : State} {d : Die} {q : Nat} {p : Nat} {mx : List Instr × Mem} (hh : s.held = mx) : (State.presentAll s d q p).held = mx := by
  unfold State.presentAll
  with_reducible repeat' (first
    | (intro _)
    | (extract_lets +onlyGivenNames tv; first | (refine (fun ht : State.held tv = mx => ?_) ?_; clear_value tv; rotate_left; subst tv; rotate_right) | (refine (fun ht : State.held (Prod.fst tv) = mx => ?_) ?_; clear_value tv; rotate_left; subst tv; rotate_right) | (have hu := tv; clear hu))
    | assumption
    | rfl
    | apply State.setPortTags_held
    | apply State.setPortFifo_held
    | apply State.emit_held
    | apply ite_h
    | apply foldl_h
    | apply ite1_h
    | apply fold1_h
    | split
    | (clear_value *; split))

theorem State.portTake_held {s : State} {d : Die} {q : Nat} {p : Nat} {r : NocReq} {mx : List Instr × Mem} (hh : s.held = mx) : (State.portTake s d q p r).held = mx := by
  unfold State.portTake
  with_reducible repeat' (first
    | (intro _)
    | (extract_lets +onlyGivenNames tv; first | (refine (fun ht : State.held tv = mx => ?_) ?_; clear_value tv; rotate_left; subst tv; rotate_right) | (refine (fun ht : State.held (Prod.fst tv) = mx => ?_) ?_; clear_value tv; rotate_left; subst tv; rotate_right) | (have hu := tv; clear hu))
    | assumption
    | rfl
    | apply State.setPortFifo_held
    | apply State.presentAll_held
    | apply ite_h
    | apply foldl_h
    | apply ite1_h
    | apply fold1_h
    | split
    | (clear_value *; split))

theorem State.portsOpen_held {s : State} {d : Die} {q : Nat} {mx : List Instr × Mem} (hh : s.held = mx) : (State.portsOpen s d q).held = mx := by
  unfold State.portsOpen
  with_reducible repeat' (first
    | (intro _)
    | assumption
    | rfl
    | apply State.presentAll_held
    | apply foldl_h)

theorem State.portsClear_held {s : State} {d : Die} {q : Nat} {mx : List Instr × Mem} (hh : s.held = mx) : (State.portsClear s d q).held = mx := by
  unfold State.portsClear
  with_reducible repeat' (first
    | (intro _)
    | assumption
    | rfl
    | apply State.setPortTags_held
    | apply State.setPortFifo_held)

theorem State.portReply_held {s : State} {d : Die} {q : Nat} {p : Nat} {ptag : Nat} {status : BitVec 4} {data : BitVec 512} {mx : List Instr × Mem} (hh : s.held = mx) : (State.portReply s d q p ptag status data).held = mx := by
  unfold State.portReply
  with_reducible repeat' (first
    | (intro _)
    | (extract_lets +onlyGivenNames tv; first | (refine (fun ht : State.held tv = mx => ?_) ?_; clear_value tv; rotate_left; subst tv; rotate_right) | (refine (fun ht : State.held (Prod.fst tv) = mx => ?_) ?_; clear_value tv; rotate_left; subst tv; rotate_right) | (have hu := tv; clear hu))
    | assumption
    | rfl
    | apply State.setPortTags_held
    | apply State.emit_held
    | apply State.presentAll_held
    | apply ite_h
    | apply foldl_h
    | apply ite1_h
    | apply fold1_h
    | split
    | (clear_value *; split))

theorem execFabricPortTargetResponse_held {die : FDie} {parcel : Fin 16} {port : Fin 16} {ptag : BitVec 6} {status : BitVec 4} {data : BitVec 512} {s : State} {mx : List Instr × Mem} (hh : s.held = mx) : ∃ tv, execFabricPortTargetResponse die parcel port ptag status data s = .next tv ∧ tv.held = mx := by
  unfold execFabricPortTargetResponse
  with_reducible repeat' (first
    | (intro _)
    | assumption
    | rfl
    | apply next_h
    | apply State.portReply_held
    | apply ite_h
    | apply foldl_h
    | apply ite1_h
    | apply fold1_h
    | split
    | (clear_value *; split))

theorem State.portEdge_held {t : State} {o : State} {d : Die} {q : Nat} {p : Nat} {mx : List Instr × Mem} (hh : t.held = mx) : (State.portEdge t o d q p).held = mx := by
  unfold State.portEdge
  with_reducible repeat' (first
    | (intro _)
    | (extract_lets +onlyGivenNames tv; first | (refine (fun ht : State.held tv = mx => ?_) ?_; clear_value tv; rotate_left; subst tv; rotate_right) | (refine (fun ht : State.held (Prod.fst tv) = mx => ?_) ?_; clear_value tv; rotate_left; subst tv; rotate_right) | (have hu := tv; clear hu))
    | assumption
    | rfl
    | apply State.portAsk_held
    | apply State.portReply_held
    | apply ite_h
    | apply foldl_h
    | apply ite1_h
    | apply fold1_h
    | split
    | (clear_value *; split))

theorem State.portsOnEdge_held {t : State} {o : State} {d : Die} {edges : Nat → List (Nat × Bool)} {mx : List Instr × Mem} (hh : t.held = mx) : (State.portsOnEdge t o d edges).held = mx := by
  unfold State.portsOnEdge
  with_reducible repeat' (first
    | (intro _)
    | assumption
    | rfl
    | apply State.portEdge_held
    | apply ite_h
    | apply foldl_h
    | apply ite1_h
    | apply fold1_h
    | split
    | (clear_value *; split))

theorem State.setFence_held {s : State} {f : FenceId} {n : Nat} {mx : List Instr × Mem} (hh : s.held = mx) : (State.setFence s f n).held = mx := by
  unfold State.setFence
  with_reducible repeat' (first
    | (intro _)
    | (extract_lets +onlyGivenNames tv; first | (refine (fun ht : State.held tv = mx => ?_) ?_; clear_value tv; rotate_left; subst tv; rotate_right) | (refine (fun ht : State.held (Prod.fst tv) = mx => ?_) ?_; clear_value tv; rotate_left; subst tv; rotate_right) | (have hu := tv; clear hu))
    | assumption
    | rfl
    | apply State.setClk_held
    | apply State.put_held
    | apply ite_h
    | apply foldl_h
    | apply ite1_h
    | apply fold1_h
    | split
    | (clear_value *; split))

theorem State.synthAt_ok {s : State} {holder : Die} {p : Nat → Nat → TagSt → Bool} {mx : List Instr × Mem} (hh : State.Ok mx s) : State.Ok mx (State.synthAt s holder p).1 := by
  unfold State.synthAt
  with_reducible repeat' (first
    | (intro _)
    | (extract_lets +onlyGivenNames tv; first | (refine (fun ht : State.Ok mx tv => ?_) ?_; clear_value tv; rotate_left; subst tv; rotate_right) | (refine (fun ht : State.Ok mx (Prod.fst tv) => ?_) ?_; clear_value tv; rotate_left; subst tv; rotate_right) | (have hu := tv; clear hu))
    | assumption
    | exact ok_rfl
    | refine ok_of (State.bump_held rfl) ?_
    | refine ok_of (State.tagDone_held rfl) ?_
    | apply State.deliver_ok
    | refine ok_of (State.xLate_held rfl) ?_
    | apply ite_ok
    | apply foldl_ok
    | apply ite1_ok
    | apply fold1_ok
    | split
    | (clear_value *; split))
theorem State.synthAt_okp {s : State} {holder : Die} {p : Nat → Nat → TagSt → Bool} {mx : List Instr × Mem} {tv : State} {ov : Nat} (he : State.synthAt s holder p = (tv, ov)) (hh : State.Ok mx s) : State.Ok mx tv := by
  have k := State.synthAt_ok (s := s) (holder := holder) (p := p) hh
  rw [he] at k; exact k

theorem State.synthesise_ok {s : State} {f : FenceId} {mx : List Instr × Mem} (hh : State.Ok mx s) : State.Ok mx (State.synthesise s f).1 := by
  unfold State.synthesise
  with_reducible repeat' (first
    | (intro _)
    | (extract_lets +onlyGivenNames tv; first | (refine (fun ht : State.Ok mx tv => ?_) ?_; clear_value tv; rotate_left; subst tv; rotate_right) | (refine (fun ht : State.Ok mx (Prod.fst tv) => ?_) ?_; clear_value tv; rotate_left; subst tv; rotate_right) | (have hu := tv; clear hu))
    | assumption
    | exact ok_rfl
    | refine ok_of (State.portsClear_held rfl) ?_
    | refine State.synthAt_okp ‹_› ?_
    | apply State.synthAt_ok
    | apply ite_ok
    | apply foldl_ok
    | apply ite1_ok
    | apply fold1_ok
    | split
    | (clear_value *; split))
theorem State.synthesise_okp {s : State} {f : FenceId} {mx : List Instr × Mem} {tv : State} {ov : Nat} (he : State.synthesise s f = (tv, ov)) (hh : State.Ok mx s) : State.Ok mx tv := by
  have k := State.synthesise_ok (s := s) (f := f) hh
  rw [he] at k; exact k

theorem State.fenceLimit_ok {s : State} {f : FenceId} {mx : List Instr × Mem} (hh : State.Ok mx s) : State.Ok mx (State.fenceLimit s f) := by
  unfold State.fenceLimit
  with_reducible repeat' (first
    | (intro _)
    | (extract_lets +onlyGivenNames tv; first | (refine (fun ht : State.Ok mx tv => ?_) ?_; clear_value tv; rotate_left; subst tv; rotate_right) | (refine (fun ht : State.Ok mx (Prod.fst tv) => ?_) ?_; clear_value tv; rotate_left; subst tv; rotate_right) | (have hu := tv; clear hu))
    | assumption
    | exact ok_rfl
    | refine ok_of (State.setFence_held rfl) ?_
    | refine ok_of (State.used_held rfl) ?_
    | refine ok_of (State.raise_held rfl) ?_
    | refine State.synthesise_okp ‹_› ?_
    | apply State.synthesise_ok
    | apply ite_ok
    | apply foldl_ok
    | apply ite1_ok
    | apply fold1_ok
    | split
    | (clear_value *; split))

theorem State.fenceRaise_ok {s : State} {f : FenceId} {mx : List Instr × Mem} (hh : State.Ok mx s) : State.Ok mx (State.fenceRaise s f) := by
  unfold State.fenceRaise
  with_reducible repeat' (first
    | (intro _)
    | (extract_lets +onlyGivenNames tv; first | (refine (fun ht : State.Ok mx tv => ?_) ?_; clear_value tv; rotate_left; subst tv; rotate_right) | (refine (fun ht : State.Ok mx (Prod.fst tv) => ?_) ?_; clear_value tv; rotate_left; subst tv; rotate_right) | (have hu := tv; clear hu))
    | assumption
    | exact ok_rfl
    | refine ok_of (State.setFence_held rfl) ?_
    | refine ok_of (State.carry_held rfl) ?_
    | refine ok_of (State.railSettle_held rfl) ?_
    | apply State.fenceLimit_ok
    | apply ite_ok
    | apply foldl_ok
    | apply ite1_ok
    | apply fold1_ok
    | split
    | (clear_value *; split))

theorem State.setLine_held {s : State} {key : Nat} {v : BitVec 512} {mx : List Instr × Mem} (hh : s.held = mx) : (State.setLine s key v).held = mx := by
  unfold State.setLine
  with_reducible repeat' (first
    | (intro _)
    | assumption
    | rfl
    | apply State.setNet_held
    | apply ite_h
    | apply foldl_h
    | apply ite1_h
    | apply fold1_h
    | split
    | (clear_value *; split))

theorem State.dropLine_held {s : State} {key : Nat} {mx : List Instr × Mem} (hh : s.held = mx) : (State.dropLine s key).held = mx := by
  unfold State.dropLine
  with_reducible repeat' (first
    | (intro _)
    | assumption
    | rfl
    | apply State.setNet_held
    | apply ite_h
    | apply foldl_h
    | apply ite1_h
    | apply fold1_h
    | split
    | (clear_value *; split))

theorem State.setSick_held {s : State} {key : Nat} {on : Bool} {mx : List Instr × Mem} (hh : s.held = mx) : (State.setSick s key on).held = mx := by
  unfold State.setSick
  with_reducible repeat' (first
    | (intro _)
    | assumption
    | rfl
    | apply State.setNet_held
    | apply ite_h
    | apply foldl_h
    | apply ite1_h
    | apply fold1_h
    | split
    | (clear_value *; split))

theorem State.dcLeft_held {s : State} {d : Die} {line : Nat} {mx : List Instr × Mem} (hh : s.held = mx) : (State.dcLeft s d line).held = mx := by
  unfold State.dcLeft
  with_reducible repeat' (first
    | (intro _)
    | assumption
    | rfl
    | apply State.setNet_held
    | apply State.setSick_held
    | apply ite_h
    | apply foldl_h
    | apply ite1_h
    | apply fold1_h
    | split
    | (clear_value *; split))

theorem State.setDcLine_held {s : State} {d : Die} {line : Nat} {n : Nat} {mx : List Instr × Mem} (hh : s.held = mx) : (State.setDcLine s d line n).held = mx := by
  unfold State.setDcLine
  with_reducible repeat' (first
    | (intro _)
    | (extract_lets +onlyGivenNames tv; first | (refine (fun ht : State.held tv = mx => ?_) ?_; clear_value tv; rotate_left; subst tv; rotate_right) | (refine (fun ht : State.held (Prod.fst tv) = mx => ?_) ?_; clear_value tv; rotate_left; subst tv; rotate_right) | (have hu := tv; clear hu))
    | assumption
    | rfl
    | apply State.setDcache_held
    | apply State.setDcRights_held
    | apply State.put_held
    | apply State.dropLine_held
    | apply State.dcLeft_held
    | apply ite_h
    | apply foldl_h
    | apply ite1_h
    | apply fold1_h
    | split
    | (clear_value *; split))

theorem State.respond_held {s : State} {r : NocReq} {status : Nat} {data : Nat} {mx : List Instr × Mem} (hh : s.held = mx) : (State.respond s r status data).held = mx := by
  unfold State.respond
  with_reducible repeat' (first
    | assumption
    | rfl
    | apply State.emit_held)

theorem memPerform_wf {m : Mem} {r : NocReq} (h : Mem.wf m = true) : Mem.wf (memPerform m r).2 = true := by
  unfold memPerform
  dsimp only
  with_reducible repeat' (first | assumption | apply Mem.write_wf | apply Mem.writeMasked_wf | apply Mem.setByte_wf | split)
theorem State.serveLine_ok {s : State} {r : NocReq} {mx : List Instr × Mem} (hh : State.Ok mx s) : State.Ok mx (State.serveLine s r) := by
  unfold State.serveLine
  extract_lets l u
  have h1 : State.Ok mx u := ite_ok (fun _ => ok_of (State.setPoison_held rfl) hh) (fun _ => hh)
  clear_value u
  refine ite_ok (fun _ => ok_of (State.respond_held rfl) h1) (fun _ => ?_)
  exact ok_of (State.respond_held rfl) (State.setMem_ok h1 memPerform_wf)

theorem State.poisonHeld_held {s : State} {line : Nat} {holder : Nat} {mx : List Instr × Mem} (hh : s.held = mx) : (State.poisonHeld s line holder).held = mx := by
  unfold State.poisonHeld
  with_reducible repeat' (first
    | (extract_lets +onlyGivenNames tv; first | (refine (fun ht : State.held tv = mx => ?_) ?_; clear_value tv; rotate_left; subst tv; rotate_right) | (have hu := tv; clear hu))
    | assumption
    | rfl
    | apply State.setPoison_held
    | apply State.bump_held
    | apply State.raise_held
    | split
    | (clear_value *; split))

theorem State.dcRead_held {s : State} {d : Die} {line : Nat} {words : List Nat} {quiet : Bool} {mx : List Instr × Mem} (hh : s.held = mx) : (State.dcRead s d line words quiet).held = mx := by
  unfold State.dcRead
  with_reducible repeat' (first
    | (intro _)
    | (extract_lets +onlyGivenNames tv; first | (refine (fun ht : State.held tv = mx => ?_) ?_; clear_value tv; rotate_left; subst tv; rotate_right) | (refine (fun ht : State.held (Prod.fst tv) = mx => ?_) ?_; clear_value tv; rotate_left; subst tv; rotate_right) | (have hu := tv; clear hu))
    | assumption
    | rfl
    | apply State.setSick_held
    | apply State.used_held
    | refine State.eccReads_heldp ‹_› ?_
    | apply State.eccReads_held
    | apply State.poisonHeld_held
    | apply ite_h
    | apply foldl_h
    | apply ite1_h
    | apply fold1_h
    | split
    | (clear_value *; split))

theorem State.serveCached_held {s : State} {d : Die} {r : NocReq} {mx : List Instr × Mem} (hh : s.held = mx) : (State.serveCached s d r).held = mx := by
  unfold State.serveCached
  with_reducible repeat' (first
    | (intro _)
    | (extract_lets +onlyGivenNames tv; first | (refine (fun ht : State.held tv = mx => ?_) ?_; clear_value tv; rotate_left; subst tv; rotate_right) | (refine (fun ht : State.held (Prod.fst tv) = mx => ?_) ?_; clear_value tv; rotate_left; subst tv; rotate_right) | (have hu := tv; clear hu))
    | assumption
    | rfl
    | apply State.setLine_held
    | apply State.setSick_held
    | apply State.setDcLine_held
    | apply State.eccWrites_held
    | apply State.respond_held
    | apply State.dcRead_held
    | apply ite_h
    | apply foldl_h
    | apply ite1_h
    | apply fold1_h
    | split
    | (clear_value *; split))

theorem State.lineLeaves_held {s : State} {d : Die} {line : Nat} {mx : List Instr × Mem} (hh : s.held = mx) : (State.lineLeaves s d line).held = mx := by
  unfold State.lineLeaves
  with_reducible repeat' (first
    | (intro _)
    | (extract_lets +onlyGivenNames tv; first | (refine (fun ht : State.held tv = mx => ?_) ?_; clear_value tv; rotate_left; subst tv; rotate_right) | (refine (fun ht : State.held (Prod.fst tv) = mx => ?_) ?_; clear_value tv; rotate_left; subst tv; rotate_right) | (have hu := tv; clear hu))
    | assumption
    | rfl
    | apply State.setLine_held
    | apply State.setSick_held
    | apply State.dropLine_held
    | apply State.dcRead_held
    | apply ite_h
    | apply foldl_h
    | apply ite1_h
    | apply fold1_h
    | split
    | (clear_value *; split))

theorem State.openRange_held {s : State} {lo : Nat} {size : Nat} {mx : List Instr × Mem} (hh : s.held = mx) : (State.openRange s lo size).held = mx := by
  unfold State.openRange
  with_reducible repeat' (first
    | (intro _)
    | assumption
    | rfl
    | apply State.setOpenMem_held
    | apply ite_h
    | apply foldl_h
    | apply ite1_h
    | apply fold1_h
    | split
    | (clear_value *; split))

theorem State.closeLine_held {s : State} {line : Nat} {mx : List Instr × Mem} (hh : s.held = mx) : (State.closeLine s line).held = mx := by
  unfold State.closeLine
  with_reducible repeat' (first
    | (intro _)
    | assumption
    | rfl
    | apply State.setOpenMem_held
    | apply ite_h
    | apply foldl_h
    | apply ite1_h
    | apply fold1_h
    | split
    | (clear_value *; split))

theorem State.defineLine_ok {s : State} {line : Nat} {mx : List Instr × Mem} (hh : State.Ok mx s) : State.Ok mx (State.defineLine s line) := by
  unfold State.defineLine
  with_reducible repeat' (first
    | (intro _)
    | assumption
    | exact ok_rfl
    | refine State.setMem_ok ?_ ?_
    | refine ok_of (State.used_held rfl) ?_
    | refine ok_of (State.closeLine_held rfl) ?_
    | apply Mem.write_wf
    | apply Mem.writeMasked_wf
    | apply Mem.clear_wf
    | apply ite_ok
    | apply foldl_ok
    | apply ite1_ok
    | apply fold1_ok
    | split
    | (clear_value *; split)
    | (with_unfolding_all assumption))

theorem State.defineRange_ok {s : State} {a : Nat} {n : Nat} {mx : List Instr × Mem} (hh : State.Ok mx s) : State.Ok mx (State.defineRange s a n) := by
  unfold State.defineRange
  with_reducible repeat' (first
    | (intro _)
    | assumption
    | exact ok_rfl
    | apply State.defineLine_ok
    | apply ite_ok
    | apply foldl_ok)

theorem State.dcEvict_held {s : State} {d : Die} {line : Nat} {mx : List Instr × Mem} (hh : s.held = mx) : (State.dcEvict s d line).held = mx := by
  unfold State.dcEvict
  with_reducible repeat' (first
    | (intro _)
    | (extract_lets +onlyGivenNames tv; first | (refine (fun ht : State.held tv = mx => ?_) ?_; clear_value tv; rotate_left; subst tv; rotate_right) | (refine (fun ht : State.held (Prod.fst tv) = mx => ?_) ?_; clear_value tv; rotate_left; subst tv; rotate_right) | (have hu := tv; clear hu))
    | assumption
    | rfl
    | apply State.setDcLine_held
    | apply State.emit_held
    | apply State.lineLeaves_held
    | apply ite_h
    | apply foldl_h
    | apply ite1_h
    | apply fold1_h
    | split
    | (clear_value *; split))

theorem State.dcRoom_held {s : State} {d : Die} {line : Nat} {mx : List Instr × Mem} (hh : s.held = mx) : (State.dcRoom s d line).held = mx := by
  unfold State.dcRoom
  with_reducible repeat' (first
    | (intro _)
    | (extract_lets +onlyGivenNames tv; first | (refine (fun ht : State.held tv = mx => ?_) ?_; clear_value tv; rotate_left; subst tv; rotate_right) | (refine (fun ht : State.held (Prod.fst tv) = mx => ?_) ?_; clear_value tv; rotate_left; subst tv; rotate_right) | (have hu := tv; clear hu))
    | assumption
    | rfl
    | apply State.used_held
    | apply State.dcEvict_held
    | apply ite_h
    | apply foldl_h
    | apply ite1_h
    | apply fold1_h
    | split
    | (clear_value *; split))

theorem execDieCacheRequest_ok {r : NocReq} {victim : Option (BitVec 42)} {s : State} {mx : List Instr × Mem} (hh : State.Ok mx s) : ∃ tv, execDieCacheRequest r victim s = .next tv ∧ State.Ok mx tv := by
  unfold execDieCacheRequest
  with_reducible repeat' (first
    | (intro _)
    | (extract_lets +onlyGivenNames tv; first | (refine (fun ht : State.Ok mx tv => ?_) ?_; clear_value tv; rotate_left; subst tv; rotate_right) | (refine (fun ht : State.Ok mx (Prod.fst tv) => ?_) ?_; clear_value tv; rotate_left; subst tv; rotate_right) | (have hu := tv; clear hu))
    | assumption
    | exact ok_rfl
    | apply next_ok
    | refine ok_of (State.setDcWait_held rfl) ?_
    | refine ok_of (State.bump_held rfl) ?_
    | refine ok_of (State.emit_held rfl) ?_
    | refine ok_of (State.pmcItems_held rfl) ?_
    | apply State.request_ok
    | refine ok_of (State.respond_held rfl) ?_
    | refine ok_of (State.serveCached_held rfl) ?_
    | refine ok_of (State.dcEvict_held rfl) ?_
    | apply ite_ok
    | apply foldl_ok
    | apply ite1_ok
    | apply fold1_ok
    | split
    | (clear_value *; split))

theorem State.dcTake_held {s : State} {d : Die} {line : Nat} {mx : List Instr × Mem} (hh : s.held = mx) : (State.dcTake s d line).held = mx := by
  unfold State.dcTake
  with_reducible repeat' (first
    | (intro _)
    | (extract_lets +onlyGivenNames tv; first | (refine (fun ht : State.held tv = mx => ?_) ?_; clear_value tv; rotate_left; subst tv; rotate_right) | (refine (fun ht : State.held (Prod.fst tv) = mx => ?_) ?_; clear_value tv; rotate_left; subst tv; rotate_right) | (have hu := tv; clear hu))
    | assumption
    | rfl
    | apply State.setNet_held
    | apply State.used_held
    | apply State.eccWrites_held
    | apply ite_h
    | apply foldl_h
    | apply ite1_h
    | apply fold1_h
    | split
    | (clear_value *; split))

theorem State.cacheFill_ok {s : State} {d : Die} {line : Nat} {status : Nat} {exclusive : Bool} {rights : Nat} {mx : List Instr × Mem} (hh : State.Ok mx s) : State.Ok mx (State.cacheFill s d line status exclusive rights) := by
  unfold State.cacheFill
  with_reducible repeat' (first
    | (intro _)
    | (extract_lets +onlyGivenNames tv; first | (refine (fun ht : State.Ok mx tv => ?_) ?_; clear_value tv; rotate_left; subst tv; rotate_right) | (refine (fun ht : State.Ok mx (Prod.fst tv) => ?_) ?_; clear_value tv; rotate_left; subst tv; rotate_right) | (have hu := tv; clear hu))
    | assumption
    | exact ok_rfl
    | refine ok_of (State.setDcWait_held rfl) ?_
    | refine ok_of (State.setDcRights_held rfl) ?_
    | refine ok_of (State.setDcLine_held rfl) ?_
    | refine ok_of (State.emit_held rfl) ?_
    | apply State.request_ok
    | refine ok_of (State.respond_held rfl) ?_
    | refine ok_of (State.serveCached_held rfl) ?_
    | refine ok_of (State.dcRoom_held rfl) ?_
    | refine ok_of (State.dcTake_held rfl) ?_
    | apply ite_ok
    | apply foldl_ok
    | apply ite1_ok
    | apply fold1_ok
    | split
    | (clear_value *; split))

theorem State.dirEntry_held {s : State} {h : Die} {line : Nat} {on : Bool} {mx : List Instr × Mem} (hh : s.held = mx) : (State.dirEntry s h line on).held = mx := by
  unfold State.dirEntry
  with_reducible repeat' (first
    | (intro _)
    | (extract_lets +onlyGivenNames tv; first | (refine (fun ht : State.held tv = mx => ?_) ?_; clear_value tv; rotate_left; subst tv; rotate_right) | (refine (fun ht : State.held (Prod.fst tv) = mx => ?_) ?_; clear_value tv; rotate_left; subst tv; rotate_right) | (have hu := tv; clear hu))
    | assumption
    | rfl
    | apply State.setNet_held
    | apply State.used_held
    | apply State.eccFresh_held
    | apply ite_h
    | apply foldl_h
    | apply ite1_h
    | apply fold1_h
    | split
    | (clear_value *; split))

theorem State.setDirRec_held {s : State} {line : Nat} {r : DirRec} {mx : List Instr × Mem} (hh : s.held = mx) : (State.setDirRec s line r).held = mx := by
  unfold State.setDirRec
  with_reducible repeat' (first
    | (intro _)
    | (extract_lets +onlyGivenNames tv; first | (refine (fun ht : State.held tv = mx => ?_) ?_; clear_value tv; rotate_left; subst tv; rotate_right) | (refine (fun ht : State.held (Prod.fst tv) = mx => ?_) ?_; clear_value tv; rotate_left; subst tv; rotate_right) | (have hu := tv; clear hu))
    | assumption
    | rfl
    | apply State.setDir_held
    | apply State.dirEntry_held
    | apply ite_h
    | apply foldl_h
    | apply ite1_h
    | apply fold1_h
    | split
    | (clear_value *; split))

theorem State.dropHolder_held {s : State} {line : Nat} {die : Nat} {lost : Bool} {mx : List Instr × Mem} (hh : s.held = mx) : (State.dropHolder s line die lost).held = mx := by
  unfold State.dropHolder
  with_reducible repeat' (first
    | (intro _)
    | (extract_lets +onlyGivenNames tv; first | (refine (fun ht : State.held tv = mx => ?_) ?_; clear_value tv; rotate_left; subst tv; rotate_right) | (have hu := tv; clear hu))
    | assumption
    | rfl
    | apply State.poisonHeld_held
    | apply State.setDirRec_held
    | apply ite_h)

theorem State.refreshDir_held {s : State} {line : Nat} {mx : List Instr × Mem} (hh : s.held = mx) : (State.refreshDir s line).held = mx := by
  unfold State.refreshDir
  with_reducible repeat' (first
    | (intro _)
    | assumption
    | rfl
    | apply State.dropHolder_held
    | apply ite_h
    | apply foldl_h)

theorem State.snoopAll_held {s : State} {line : Nat} {op : Nat} {dies : List Nat} {mx : List Instr × Mem} (hh : s.held = mx) : (State.snoopAll s line op dies).held = mx := by
  unfold State.snoopAll
  with_reducible repeat' (first
    | (intro _)
    | assumption
    | rfl
    | apply State.emit_held
    | apply foldl_h)

theorem State.dirDrop_held {s : State} {p : Nat → Bool} {mx : List Instr × Mem} (hh : s.held = mx) : (State.dirDrop s p).held = mx := by
  unfold State.dirDrop
  with_reducible repeat' (first
    | (intro _)
    | assumption
    | rfl
    | apply State.setDir_held
    | apply State.setNet_held
    | apply ite_h
    | apply foldl_h
    | apply ite1_h
    | apply fold1_h
    | split
    | (clear_value *; split))

theorem State.dirBad_held {s : State} {h : Die} {base : Nat} {mx : List Instr × Mem} (hh : s.held = mx) : (State.dirBad s h base).held = mx := by
  unfold State.dirBad
  with_reducible repeat' (first
    | (intro _)
    | (extract_lets +onlyGivenNames tv; first | (refine (fun ht : State.held tv = mx => ?_) ?_; clear_value tv; rotate_left; subst tv; rotate_right) | (refine (fun ht : State.held (Prod.fst tv) = mx => ?_) ?_; clear_value tv; rotate_left; subst tv; rotate_right) | (have hu := tv; clear hu))
    | assumption
    | rfl
    | apply State.setDcLine_held
    | apply State.eccMend_held
    | apply State.poisonHeld_held
    | apply State.dirDrop_held
    | apply ite_h
    | apply foldl_h
    | apply ite1_h
    | apply fold1_h
    | split
    | (clear_value *; split))

theorem State.dirLook_held {s : State} {line : Nat} {mx : List Instr × Mem} (hh : s.held = mx) : (State.dirLook s line).held = mx := by
  unfold State.dirLook
  with_reducible repeat' (first
    | (intro _)
    | (extract_lets +onlyGivenNames tv; first | (refine (fun ht : State.held tv = mx => ?_) ?_; clear_value tv; rotate_left; subst tv; rotate_right) | (refine (fun ht : State.held (Prod.fst tv) = mx => ?_) ?_; clear_value tv; rotate_left; subst tv; rotate_right) | (have hu := tv; clear hu))
    | assumption
    | rfl
    | refine State.eccReads_heldp ‹_› ?_
    | apply State.eccReads_held
    | apply State.dirBad_held
    | apply ite_h
    | apply foldl_h
    | apply ite1_h
    | apply fold1_h
    | split
    | (clear_value *; split))

theorem State.dirEvict_held {s : State} {h : Die} {line : Nat} {mx : List Instr × Mem} (hh : s.held = mx) : (State.dirEvict s h line).held = mx := by
  unfold State.dirEvict
  with_reducible repeat' (first
    | (intro _)
    | (extract_lets +onlyGivenNames tv; first | (refine (fun ht : State.held tv = mx => ?_) ?_; clear_value tv; rotate_left; subst tv; rotate_right) | (refine (fun ht : State.held (Prod.fst tv) = mx => ?_) ?_; clear_value tv; rotate_left; subst tv; rotate_right) | (have hu := tv; clear hu))
    | assumption
    | rfl
    | apply State.setHomeTxn_held
    | apply State.bump_held
    | apply State.dirEntry_held
    | apply State.snoopAll_held
    | apply ite_h
    | apply foldl_h
    | apply ite1_h
    | apply fold1_h
    | split
    | (clear_value *; split))

theorem State.dirRoom_held {s : State} {h : Die} {line : Nat} {full : Option (BitVec 42)} {mx : List Instr × Mem} (hh : s.held = mx) : (State.dirRoom s h line full).1.held = mx := by
  unfold State.dirRoom
  with_reducible repeat' (first
    | (intro _)
    | (extract_lets +onlyGivenNames tv; first | (refine (fun ht : State.held tv = mx => ?_) ?_; clear_value tv; rotate_left; subst tv; rotate_right) | (refine (fun ht : State.held (Prod.fst tv) = mx => ?_) ?_; clear_value tv; rotate_left; subst tv; rotate_right) | (have hu := tv; clear hu))
    | assumption
    | rfl
    | apply State.used_held
    | apply State.dirEvict_held
    | apply ite_h
    | apply foldl_h
    | apply ite1_h
    | apply fold1_h
    | split
    | (clear_value *; split))
theorem State.dirRoom_heldp {s : State} {h : Die} {line : Nat} {full : Option (BitVec 42)} {mx : List Instr × Mem} {tv : State} {ov : Bool} (he : State.dirRoom s h line full = (tv, ov)) (hh : s.held = mx) : tv.held = mx := by
  have k := State.dirRoom_held (s := s) (h := h) (line := line) (full := full) hh
  rw [he] at k; exact k

theorem execSnoopReceived_held {die : FDie} {line : BitVec 42} {op : Fin 3} {s : State} {mx : List Instr × Mem} (hh : s.held = mx) : ∃ tv, execSnoopReceived die line op s = .next tv ∧ tv.held = mx := by
  unfold execSnoopReceived
  with_reducible repeat' (first
    | (intro _)
    | (extract_lets +onlyGivenNames tv; first | (refine (fun ht : State.held tv = mx => ?_) ?_; clear_value tv; rotate_left; subst tv; rotate_right) | (refine (fun ht : State.held (Prod.fst tv) = mx => ?_) ?_; clear_value tv; rotate_left; subst tv; rotate_right) | (have hu := tv; clear hu))
    | assumption
    | rfl
    | apply next_h
    | apply State.setDcLine_held
    | apply State.emit_held
    | apply State.lineLeaves_held
    | apply ite_h
    | apply foldl_h
    | apply ite1_h
    | apply fold1_h
    | split
    | (clear_value *; split))

theorem execHomeDownWalkStep_held {line : BitVec 42} {s : State} {mx : List Instr × Mem} (hh : s.held = mx) : ∃ tv, execHomeDownWalkStep line s = .next tv ∧ tv.held = mx := by
  unfold execHomeDownWalkStep
  with_reducible repeat' (first
    | assumption
    | rfl
    | apply next_h
    | apply State.refreshDir_held)

theorem State.dcFlush_held {s : State} {d : Die} {mx : List Instr × Mem} (hh : s.held = mx) : (State.dcFlush s d).held = mx := by
  unfold State.dcFlush
  with_reducible repeat' (first
    | assumption
    | rfl
    | apply State.put_held)

theorem execDieCacheFlush_held {die : FDie} {s : State} {mx : List Instr × Mem} (hh : s.held = mx) : ∃ tv, execDieCacheFlush die s = .next tv ∧ tv.held = mx := by
  unfold execDieCacheFlush
  with_reducible repeat' (first
    | assumption
    | rfl
    | apply next_h
    | apply State.dcFlush_held)

end Sys2Proof.Machine
end

