-- ==== Sys2Proof/Laws/HeldFrames.lean ====
section
/-! SUPPORT. For each operation of Machine/Frames.lean: the queue and the memory it keeps (`_held`), or, where it stores, that the queue stays and the memory keeps its canonical form (`_ok`). -/

namespace Sys2Proof.Machine
open Sys2Proof
set_option linter.tactic.unusedName false

theorem State.setCluster_held {s : State} {d : Die} {n : Nat} {c : Config.ClusterCfg} {mx : List Instr × Mem} (hh : s.held = mx) : (State.setCluster s d n c).held = mx := by
  unfold State.setCluster
  with_reducible repeat' (first
    | (intro _)
    | (extract_lets +onlyGivenNames tv; first | (refine (fun ht : State.held tv = mx => ?_) ?_; clear_value tv; rotate_left; subst tv; rotate_right) | (have hu := tv; clear hu))
    | assumption
    | rfl
    | apply State.setFfs_held
    | apply State.setClusters_held
    | apply ite_h)

theorem State.imageReg_held {s : State} {d : Die} {was : Option (List (Nat × Word))} {now : List (Nat × Word)} {key : Nat} {mx : List Instr × Mem} (hh : s.held = mx) : (State.imageReg s d was now key).held = mx := by
  unfold State.imageReg
  with_reducible repeat' (first
    | (intro _)
    | (extract_lets +onlyGivenNames tv; first | (refine (fun ht : State.held tv = mx => ?_) ?_; clear_value tv; rotate_left; subst tv; rotate_right) | (refine (fun ht : State.held (Prod.fst tv) = mx => ?_) ?_; clear_value tv; rotate_left; subst tv; rotate_right) | (have hu := tv; clear hu))
    | assumption
    | rfl
    | apply State.setRegs_held
    | apply ite_h
    | apply foldl_h
    | apply ite1_h
    | apply fold1_h
    | split
    | (clear_value *; split))

theorem State.imageRegs_held {s : State} {d : Die} {f : Nat} {was : Option (BitVec 4096)} {data : BitVec 4096} {mx : List Instr × Mem} (hh : s.held = mx) : (State.imageRegs s d f was data).held = mx := by
  unfold State.imageRegs
  with_reducible repeat' (first
    | (intro _)
    | (extract_lets +onlyGivenNames tv; first | (refine (fun ht : State.held tv = mx => ?_) ?_; clear_value tv; rotate_left; subst tv; rotate_right) | (refine (fun ht : State.held (Prod.fst tv) = mx => ?_) ?_; clear_value tv; rotate_left; subst tv; rotate_right) | (have hu := tv; clear hu))
    | assumption
    | rfl
    | apply State.imageReg_held
    | apply ite_h
    | apply foldl_h
    | apply ite1_h
    | apply fold1_h
    | split
    | (clear_value *; split))

theorem State.setCodes_held {s : State} {d : Die} {p : Nat} {l : List (Config.Node × Nat)} {mx : List Instr × Mem} (hh : s.held = mx) : (State.setCodes s d p l).held = mx := by
  unfold State.setCodes
  with_reducible repeat' (first
    | (intro _)
    | (extract_lets +onlyGivenNames tv; first | (refine (fun ht : State.held tv = mx => ?_) ?_; clear_value tv; rotate_left; subst tv; rotate_right) | (refine (fun ht : State.held (Prod.fst tv) = mx => ?_) ?_; clear_value tv; rotate_left; subst tv; rotate_right) | (have hu := tv; clear hu))
    | assumption
    | rfl
    | apply State.setFab_held
    | apply ite_h
    | apply foldl_h
    | apply ite1_h
    | apply fold1_h
    | split
    | (clear_value *; split))

theorem State.applyRouting_held {s : State} {d : Die} {f : Nat} {was : Option (BitVec 4096)} {data : BitVec 4096} {mx : List Instr × Mem} (hh : s.held = mx) : (State.applyRouting s d f was data).held = mx := by
  unfold State.applyRouting
  with_reducible repeat' (first
    | (intro _)
    | (extract_lets +onlyGivenNames tv; first | (refine (fun ht : State.held tv = mx => ?_) ?_; clear_value tv; rotate_left; subst tv; rotate_right) | (refine (fun ht : State.held (Prod.fst tv) = mx => ?_) ?_; clear_value tv; rotate_left; subst tv; rotate_right) | (have hu := tv; clear hu))
    | assumption
    | rfl
    | apply State.setFab_held
    | apply State.setSeam_held
    | apply State.setCodes_held
    | apply State.muxSet_held
    | apply ite_h
    | apply foldl_h
    | apply ite1_h
    | apply fold1_h
    | split
    | (clear_value *; split))

theorem State.applyFrame_held {s : State} {d : Die} {f : Nat} {was : Option (BitVec 4096)} {data : BitVec 4096} {mx : List Instr × Mem} (hh : s.held = mx) : (State.applyFrame s d f was data).held = mx := by
  unfold State.applyFrame
  with_reducible repeat' (first
    | (intro _)
    | (extract_lets +onlyGivenNames tv; first | (refine (fun ht : State.held tv = mx => ?_) ?_; clear_value tv; rotate_left; subst tv; rotate_right) | (refine (fun ht : State.held (Prod.fst tv) = mx => ?_) ?_; clear_value tv; rotate_left; subst tv; rotate_right) | (have hu := tv; clear hu))
    | assumption
    | rfl
    | apply State.setBramCfg_held
    | apply State.setMultCfg_held
    | apply State.setPortMode_held
    | apply State.setFab_held
    | apply State.setMacMode_held
    | apply State.setCluster_held
    | apply State.setCodes_held
    | apply State.imageRegs_held
    | apply State.applyRouting_held
    | apply ite_h
    | apply foldl_h
    | apply ite1_h
    | apply fold1_h
    | split
    | (clear_value *; split))

theorem State.writeFrame_ok {s : State} {d : Die} {f : Nat} {was : Option (BitVec 4096)} {fr : Frame} {mx : List Instr × Mem} (hh : State.Ok mx s) : State.Ok mx (State.writeFrame s d f was fr) := by
  unfold State.writeFrame
  with_reducible repeat' (first
    | (intro _)
    | (extract_lets +onlyGivenNames tv; first | (refine (fun ht : State.Ok mx tv => ?_) ?_; clear_value tv; rotate_left; subst tv; rotate_right) | (refine (fun ht : State.Ok mx (Prod.fst tv) => ?_) ?_; clear_value tv; rotate_left; subst tv; rotate_right) | (have hu := tv; clear hu))
    | assumption
    | exact ok_rfl
    | refine ok_of (State.setFrames_held rfl) ?_
    | refine ok_of (State.setChk_held rfl) ?_
    | apply State.setEccData_ok
    | refine ok_of (State.applyFrame_held rfl) ?_
    | apply ite_ok
    | apply foldl_ok
    | apply ite1_ok
    | apply fold1_ok
    | split
    | (clear_value *; split))

theorem State.blankRouting_held {s : State} {d : Die} {q : Nat} {mx : List Instr × Mem} (hh : s.held = mx) : (State.blankRouting s d q).held = mx := by
  unfold State.blankRouting
  with_reducible repeat' (first
    | (intro _)
    | (extract_lets +onlyGivenNames tv; first | (refine (fun ht : State.held tv = mx => ?_) ?_; clear_value tv; rotate_left; subst tv; rotate_right) | (refine (fun ht : State.held (Prod.fst tv) = mx => ?_) ?_; clear_value tv; rotate_left; subst tv; rotate_right) | (have hu := tv; clear hu))
    | assumption
    | rfl
    | apply State.setFab_held
    | apply ite_h
    | apply foldl_h
    | apply ite1_h
    | apply fold1_h
    | split
    | (clear_value *; split))

theorem State.blankParcel_held {s : State} {d : Die} {q : Nat} {mx : List Instr × Mem} (hh : s.held = mx) : (State.blankParcel s d q).held = mx := by
  unfold State.blankParcel
  with_reducible repeat' (first
    | (intro _)
    | (extract_lets +onlyGivenNames tv; first | (refine (fun ht : State.held tv = mx => ?_) ?_; clear_value tv; rotate_left; subst tv; rotate_right) | (refine (fun ht : State.held (Prod.fst tv) = mx => ?_) ?_; clear_value tv; rotate_left; subst tv; rotate_right) | (have hu := tv; clear hu))
    | assumption
    | rfl
    | apply State.setFrames_held
    | apply State.setClusters_held
    | apply State.setBramCfg_held
    | apply State.setMultCfg_held
    | apply State.setPortMode_held
    | apply State.setBramDef_held
    | apply State.blankRouting_held
    | apply ite_h
    | apply foldl_h
    | apply ite1_h
    | apply fold1_h
    | split
    | (clear_value *; split))

theorem State.contentData_held {s : State} {d : Die} {f : Nat} {mx : List Instr × Mem} (hh : s.held = mx) : (State.contentData s d f).1.held = mx := by
  unfold State.contentData
  with_reducible repeat' (first
    | (intro _)
    | (extract_lets +onlyGivenNames tv; first | (refine (fun ht : State.held tv = mx => ?_) ?_; clear_value tv; rotate_left; subst tv; rotate_right) | (refine (fun ht : State.held (Prod.fst tv) = mx => ?_) ?_; clear_value tv; rotate_left; subst tv; rotate_right) | (have hu := tv; clear hu))
    | assumption
    | rfl
    | apply State.used_held
    | apply ite_h
    | apply ite1_h)
theorem State.contentData_heldp {s : State} {d : Die} {f : Nat} {mx : List Instr × Mem} {tv : State} {ov : BitVec 4096} (he : State.contentData s d f = (tv, ov)) (hh : s.held = mx) : tv.held = mx := by
  have k := State.contentData_held (s := s) (d := d) (f := f) hh
  rw [he] at k; exact k

theorem State.readbackWord_held {s : State} {addr : Nat} {w : Nat} {mx : List Instr × Mem} (hh : s.held = mx) : (State.readbackWord s addr w).1.held = mx := by
  unfold State.readbackWord
  with_reducible repeat' (first
    | (intro _)
    | (extract_lets +onlyGivenNames tv; have hu := tv; clear hu)
    | assumption
    | rfl
    | refine State.contentData_heldp ‹_› ?_
    | apply State.contentData_held
    | apply ite_h
    | apply ite1_h)
theorem State.readbackWord_heldp {s : State} {addr : Nat} {w : Nat} {mx : List Instr × Mem} {tv : State} {ov : Nat} (he : State.readbackWord s addr w = (tv, ov)) (hh : s.held = mx) : tv.held = mx := by
  have k := State.readbackWord_held (s := s) (addr := addr) (w := w) hh
  rw [he] at k; exact k

end Sys2Proof.Machine
end

