-- ==== Sys2Proof/Laws/HeldParcels.lean ====
section
/-! SUPPORT. For each operation of Machine/Parcels.lean: the queue and the memory it keeps (`_held`), or, where it stores, that the queue stays and the memory keeps its canonical form (`_ok`). -/

namespace Sys2Proof.Machine
open Sys2Proof
set_option linter.tactic.unusedName false

theorem State.setParcelSt_held {s : State} {d : Die} {p : Nat} {n : Nat} {mx : List Instr × Mem} (hh : s.held = mx) : (State.setParcelSt s d p n).held = mx := by
  unfold State.setParcelSt
  with_reducible repeat' (first
    | assumption
    | rfl
    | apply State.put_held)

theorem State.setPowerStep_held {s : State} {d : Die} {p : Nat} {n : Nat} {mx : List Instr × Mem} (hh : s.held = mx) : (State.setPowerStep s d p n).held = mx := by
  unfold State.setPowerStep
  with_reducible repeat' (first
    | (intro _)
    | assumption
    | rfl
    | apply State.setPrcStep_held)

theorem State.parcelShut_held {s : State} {d : Die} {p : Nat} {mx : List Instr × Mem} (hh : s.held = mx) : (State.parcelShut s d p).held = mx := by
  unfold State.parcelShut
  with_reducible repeat' (first
    | (intro _)
    | (extract_lets +onlyGivenNames tv; first | (refine (fun ht : State.held tv = mx => ?_) ?_; clear_value tv; rotate_left; subst tv; rotate_right) | (have hu := tv; clear hu))
    | assumption
    | rfl
    | apply State.assertGsr_held
    | apply State.railReset_held
    | apply State.freeTags_held
    | apply State.portsClear_held)

theorem State.parcelClosed_held {s : State} {d : Die} {p : Nat} {mx : List Instr × Mem} (hh : s.held = mx) : (State.parcelClosed s d p).held = mx := by
  unfold State.parcelClosed
  with_reducible repeat' (first
    | (intro _)
    | (extract_lets +onlyGivenNames tv; first | (refine (fun ht : State.held tv = mx => ?_) ?_; clear_value tv; rotate_left; subst tv; rotate_right) | (have hu := tv; clear hu))
    | assumption
    | rfl
    | apply State.parcelShut_held
    | apply State.setPowerStep_held
    | apply State.setPrcHold_held
    | apply State.setParcelSt_held
    | apply ite_h)

theorem State.parcelFence_ok {s : State} {d : FDie} {p : Fin 16} {mx : List Instr × Mem} (hh : State.Ok mx s) : State.Ok mx (State.parcelFence s d p) := by
  unfold State.parcelFence
  with_reducible repeat' (first
    | (intro _)
    | (extract_lets +onlyGivenNames tv; first | (refine (fun ht : State.Ok mx tv => ?_) ?_; clear_value tv; rotate_left; subst tv; rotate_right) | (have hu := tv; clear hu))
    | assumption
    | exact ok_rfl
    | apply State.fenceRaise_ok
    | refine ok_of (State.parcelClosed_held rfl) ?_
    | apply ite_ok)

theorem State.parcelPower_held {s : State} {d : Die} {down : Nat} {up : Nat} {mx : List Instr × Mem} (hh : s.held = mx) : (State.parcelPower s d down up).held = mx := by
  unfold State.parcelPower
  with_reducible repeat' (first
    | (intro _)
    | (extract_lets +onlyGivenNames tv; first | (refine (fun ht : State.held tv = mx => ?_) ?_; clear_value tv; rotate_left; subst tv; rotate_right) | (have hu := tv; clear hu))
    | assumption
    | rfl
    | apply State.setPowerStep_held
    | apply State.put_held
    | apply State.raise_held
    | apply ite_h
    | apply foldl_h
    | (clear_value *; split))

theorem execParcelPowerDown_held {die : FDie} {down : BitVec 16} {up : BitVec 16} {s : State} {mx : List Instr × Mem} (hh : s.held = mx) : ∃ tv, execParcelPowerDown die down up s = .next tv ∧ tv.held = mx := by
  unfold execParcelPowerDown
  with_reducible repeat' (first
    | assumption
    | rfl
    | apply next_h
    | apply State.parcelPower_held)

theorem execParcelPowerUp_held {die : FDie} {up : BitVec 16} {s : State} {mx : List Instr × Mem} (hh : s.held = mx) : ∃ tv, execParcelPowerUp die up s = .next tv ∧ tv.held = mx := by
  unfold execParcelPowerUp
  with_reducible repeat' (first
    | assumption
    | rfl
    | apply next_h
    | apply State.parcelPower_held)

theorem State.captureDrop_held {s : State} {d : Die} {p : Nat} {mx : List Instr × Mem} (hh : s.held = mx) : (State.captureDrop s d p).held = mx := by
  unfold State.captureDrop
  with_reducible repeat' (first
    | (intro _)
    | (extract_lets +onlyGivenNames tv; first | (refine (fun ht : State.held tv = mx => ?_) ?_; clear_value tv; rotate_left; subst tv; rotate_right) | (have hu := tv; clear hu))
    | assumption
    | rfl
    | apply State.setCapture_held
    | apply State.put_held
    | apply ite_h)

theorem State.switchOpen_held {s : State} {d : Die} {p : Nat} {mx : List Instr × Mem} (hh : s.held = mx) : (State.switchOpen s d p).held = mx := by
  unfold State.switchOpen
  with_reducible repeat' (first
    | (intro _)
    | (extract_lets +onlyGivenNames tv; first | (refine (fun ht : State.held tv = mx => ?_) ?_; clear_value tv; rotate_left; subst tv; rotate_right) | (have hu := tv; clear hu))
    | assumption
    | rfl
    | apply State.setPrcBlank_held
    | apply State.setParcelSt_held
    | apply State.setPowerStep_held
    | apply State.setBit_held
    | apply State.captureDrop_held
    | apply State.setBramDef_held
    | apply State.raise_held
    | apply ite_h)

theorem execParcelSwitchOpen_held {die : FDie} {parcel : Fin 16} {s : State} {mx : List Instr × Mem} (hh : s.held = mx) : ∃ tv, execParcelSwitchOpen die parcel s = .next tv ∧ tv.held = mx := by
  unfold execParcelSwitchOpen
  with_reducible repeat' (first
    | (intro _)
    | assumption
    | rfl
    | apply next_h
    | apply State.switchOpen_held
    | apply ite_h)

theorem execParcelSupplyGood_held {die : FDie} {parcel : Fin 16} {s : State} {mx : List Instr × Mem} (hh : s.held = mx) : ∃ tv, execParcelSupplyGood die parcel s = .next tv ∧ tv.held = mx := by
  unfold execParcelSupplyGood
  with_reducible repeat' (first
    | (intro _)
    | assumption
    | rfl
    | apply next_h
    | apply State.setPowerStep_held
    | apply ite_h)

theorem State.bramZero_held {s : State} {d : Die} {p : Nat} {mx : List Instr × Mem} (hh : s.held = mx) : (State.bramZero s d p).held = mx := by
  unfold State.bramZero
  with_reducible repeat' (first
    | (intro _)
    | (extract_lets +onlyGivenNames tv; first | (refine (fun ht : State.held tv = mx => ?_) ?_; clear_value tv; rotate_left; subst tv; rotate_right) | (have hu := tv; clear hu))
    | assumption
    | rfl
    | apply State.setBram_held
    | apply State.setChk_held
    | apply State.setBramDef_held)

theorem State.powerHeat_held {s : State} {d : FDie} {p : Fin 16} {mx : List Instr × Mem} (hh : s.held = mx) : (State.powerHeat s d p).held = mx := by
  unfold State.powerHeat
  with_reducible repeat' (first
    | (intro _)
    | (extract_lets +onlyGivenNames tv; first | (refine (fun ht : State.held tv = mx => ?_) ?_; clear_value tv; rotate_left; subst tv; rotate_right) | (have hu := tv; clear hu))
    | assumption
    | rfl
    | apply State.setPowerStep_held
    | apply State.setPrcBlank_held
    | apply State.setParcelSt_held
    | apply State.clrBit_held
    | apply State.raise_held
    | apply State.setReleases_held
    | apply ite_h
    | (clear_value *; split))

theorem State.clampCopy_held {s : State} {d : Die} {p : Nat} {mx : List Instr × Mem} (hh : s.held = mx) : (State.clampCopy s d p).held = mx := by
  unfold State.clampCopy
  with_reducible repeat' (first
    | (intro _)
    | (extract_lets +onlyGivenNames tv; first | (refine (fun ht : State.held tv = mx => ?_) ?_; clear_value tv; rotate_left; subst tv; rotate_right) | (refine (fun ht : State.held (Prod.fst tv) = mx => ?_) ?_; clear_value tv; rotate_left; subst tv; rotate_right) | (have hu := tv; clear hu))
    | assumption
    | rfl
    | apply State.setFab_held
    | apply State.setClamps_held
    | apply ite_h
    | apply foldl_h
    | apply ite1_h
    | apply fold1_h
    | split
    | (clear_value *; split))

theorem State.parcelStage1_held {s : State} {d : FDie} {p : Fin 16} {mx : List Instr × Mem} (hh : s.held = mx) : (State.parcelStage1 s d p).held = mx := by
  unfold State.parcelStage1
  with_reducible repeat' (first
    | (intro _)
    | assumption
    | rfl
    | apply State.setRelStage_held
    | apply State.setFence_held
    | apply State.railSettle_held
    | apply State.clampCopy_held
    | apply ite_h
    | apply foldl_h
    | apply ite1_h
    | apply fold1_h
    | split
    | (clear_value *; split))

theorem State.parcelStage2_held {s : State} {d : FDie} {p : Fin 16} {mx : List Instr × Mem} (hh : s.held = mx) : (State.parcelStage2 s d p).held = mx := by
  unfold State.parcelStage2
  with_reducible repeat' (first
    | assumption
    | rfl
    | apply State.setRelStage_held
    | apply State.portsOpen_held)

theorem State.parcelStage3_held {s : State} {d : FDie} {p : Fin 16} {mx : List Instr × Mem} (hh : s.held = mx) : (State.parcelStage3 s d p).held = mx := by
  unfold State.parcelStage3
  with_reducible repeat' (first
    | (intro _)
    | (extract_lets +onlyGivenNames tv; first | (refine (fun ht : State.held tv = mx => ?_) ?_; clear_value tv; rotate_left; subst tv; rotate_right) | (refine (fun ht : State.held (Prod.fst tv) = mx => ?_) ?_; clear_value tv; rotate_left; subst tv; rotate_right) | (have hu := tv; clear hu))
    | assumption
    | rfl
    | apply State.setRelStage_held
    | apply State.setParcelSt_held
    | apply State.clrBit_held
    | apply State.railSettle_held
    | apply ite_h
    | apply foldl_h
    | apply ite1_h
    | apply fold1_h
    | split
    | (clear_value *; split))

theorem State.powerDone_held {s : State} {d : FDie} {p : Fin 16} {mx : List Instr × Mem} (hh : s.held = mx) : (State.powerDone s d p).held = mx := by
  unfold State.powerDone
  with_reducible repeat' (first
    | (extract_lets +onlyGivenNames tv; first | (refine (fun ht : State.held tv = mx => ?_) ?_; clear_value tv; rotate_left; subst tv; rotate_right) | (have hu := tv; clear hu))
    | assumption
    | rfl
    | apply State.setPowerStep_held
    | apply State.clrBit_held
    | apply State.raise_held)

theorem State.parcelHold_held {s : State} {d : Die} {p : Nat} {mx : List Instr × Mem} (hh : s.held = mx) : (State.parcelHold s d p).held = mx := by
  unfold State.parcelHold
  with_reducible repeat' (first
    | (intro _)
    | (extract_lets +onlyGivenNames tv; first | (refine (fun ht : State.held tv = mx => ?_) ?_; clear_value tv; rotate_left; subst tv; rotate_right) | (refine (fun ht : State.held (Prod.fst tv) = mx => ?_) ?_; clear_value tv; rotate_left; subst tv; rotate_right) | (have hu := tv; clear hu))
    | assumption
    | rfl
    | apply State.setPrcBlank_held
    | apply State.setPrcHold_held
    | apply State.setReleases_held
    | apply State.setBit_held
    | apply State.setParcelSt_held
    | apply State.setPowerStep_held
    | apply State.put_held
    | apply State.clrBit_held
    | apply State.raise_held
    | apply ite_h
    | apply foldl_h
    | apply ite1_h
    | apply fold1_h
    | split
    | (clear_value *; split))

theorem State.parcelStroke_ok {s : State} {d : FDie} {p : Fin 16} {mx : List Instr × Mem} (hh : State.Ok mx s) : State.Ok mx (State.parcelStroke s d p) := by
  unfold State.parcelStroke
  with_reducible repeat' (first
    | (intro _)
    | assumption
    | exact ok_rfl
    | refine ok_of (State.setPowerStep_held rfl) ?_
    | apply State.parcelFence_ok
    | apply ite_ok)

theorem State.captureRequest_held {s : State} {d : Die} {mx : List Instr × Mem} (hh : s.held = mx) : (State.captureRequest s d).held = mx := by
  unfold State.captureRequest
  with_reducible repeat' (first
    | (intro _)
    | (extract_lets +onlyGivenNames tv; have hu := tv; clear hu)
    | assumption
    | rfl
    | apply State.put_held
    | apply State.raise_held
    | apply State.setCapWait_held
    | apply ite_h
    | (clear_value *; split))

theorem execCaptureRequest_held {die : FDie} {parcel : Fin 16} {freeze : Bool} {s : State} {mx : List Instr × Mem} (hh : s.held = mx) : ∃ tv, execCaptureRequest die parcel freeze s = .next tv ∧ tv.held = mx := by
  unfold execCaptureRequest
  with_reducible repeat' (first
    | assumption
    | rfl
    | apply next_h
    | apply State.puts_held
    | apply State.captureRequest_held)

theorem State.captureStroke_held {s : State} {d : Die} {mx : List Instr × Mem} (hh : s.held = mx) : (State.captureStroke s d).held = mx := by
  unfold State.captureStroke
  with_reducible repeat' (first
    | (intro _)
    | (extract_lets +onlyGivenNames tv; first | (refine (fun ht : State.held tv = mx => ?_) ?_; clear_value tv; rotate_left; subst tv; rotate_right) | (refine (fun ht : State.held (Prod.fst tv) = mx => ?_) ?_; clear_value tv; rotate_left; subst tv; rotate_right) | (have hu := tv; clear hu))
    | assumption
    | rfl
    | apply State.setFrozen_held
    | apply State.setCapWait_held
    | apply State.setCapture_held
    | apply State.put_held
    | apply State.gatesLow_held
    | apply ite_h
    | apply foldl_h
    | apply ite1_h
    | apply fold1_h
    | split
    | (clear_value *; split))

theorem execCaptureCopyDone_ok {die : FDie} {s : State} {mx : List Instr × Mem} (hh : State.Ok mx s) : ∃ tv, execCaptureCopyDone die s = .next tv ∧ State.Ok mx tv := by
  unfold execCaptureCopyDone
  with_reducible repeat' (first
    | (intro _)
    | (extract_lets +onlyGivenNames tv; first | (refine (fun ht : State.Ok mx tv => ?_) ?_; clear_value tv; rotate_left; subst tv; rotate_right) | (have hu := tv; clear hu))
    | assumption
    | exact ok_rfl
    | apply next_ok
    | refine ok_of (State.setCapWait_held rfl) ?_
    | refine ok_of (State.puts_held rfl) ?_
    | apply State.stroke_ok
    | apply State.heat_ok
    | refine ok_of (State.raise_held rfl) ?_
    | apply ite_ok
    | split
    | (clear_value *; split))

theorem State.captureResume_held {s : State} {d : Die} {mx : List Instr × Mem} (hh : s.held = mx) : (State.captureResume s d).held = mx := by
  unfold State.captureResume
  with_reducible repeat' (first
    | (intro _)
    | (extract_lets +onlyGivenNames tv; first | (refine (fun ht : State.held tv = mx => ?_) ?_; clear_value tv; rotate_left; subst tv; rotate_right) | (refine (fun ht : State.held (Prod.fst tv) = mx => ?_) ?_; clear_value tv; rotate_left; subst tv; rotate_right) | (have hu := tv; clear hu))
    | assumption
    | rfl
    | apply State.setFrozen_held
    | apply State.put_held
    | apply State.portsOpen_held
    | apply ite_h
    | apply foldl_h
    | apply ite1_h
    | apply fold1_h
    | split
    | (clear_value *; split))

theorem execCaptureResume_held {die : FDie} {s : State} {mx : List Instr × Mem} (hh : s.held = mx) : ∃ tv, execCaptureResume die s = .next tv ∧ tv.held = mx := by
  unfold execCaptureResume
  with_reducible repeat' (first
    | assumption
    | rfl
    | apply next_h
    | apply State.captureResume_held)

end Sys2Proof.Machine
end

