-- ==== Sys2Proof/Laws/HeldScrub.lean ====
section
/-! SUPPORT. For each operation of Machine/Scrub.lean: the queue and the memory it keeps (`_held`), or, where it stores, that the queue stays and the memory keeps its canonical form (`_ok`). -/

namespace Sys2Proof.Machine
open Sys2Proof
set_option linter.tactic.unusedName false

theorem State.setScrub_held {s : State} {d : Die} {c : Scrub} {mx : List Instr × Mem} (hh : s.held = mx) : (State.setScrub s d c).held = mx := by
  unfold State.setScrub
  with_reducible repeat' (first
    | assumption
    | rfl
    | apply State.setScrubs_held
    | apply State.puts_held)

theorem State.writeSetting_held {s : State} {d : Die} {k : Nat} {v : Word} {mx : List Instr × Mem} (hh : s.held = mx) : (State.writeSetting s d k v).held = mx := by
  unfold State.writeSetting
  with_reducible repeat' (first
    | assumption
    | rfl
    | apply State.setScrCopy_held
    | apply State.writeReg_held)

theorem State.voteOne_held {s : State} {d : Die} {k : Nat} {mx : List Instr × Mem} (hh : s.held = mx) : (State.voteOne s d k).held = mx := by
  unfold State.voteOne
  with_reducible repeat' (first
    | (intro _)
    | (extract_lets +onlyGivenNames tv; first | (refine (fun ht : State.held tv = mx => ?_) ?_; clear_value tv; rotate_left; subst tv; rotate_right) | (refine (fun ht : State.held (Prod.fst tv) = mx => ?_) ?_; clear_value tv; rotate_left; subst tv; rotate_right) | (have hu := tv; clear hu))
    | assumption
    | rfl
    | apply State.setScrCopy_held
    | apply State.setReg_held
    | apply State.setBit_held
    | apply State.bump_held
    | apply State.raise_held
    | apply ite_h
    | apply foldl_h
    | apply ite1_h
    | apply fold1_h
    | split
    | (clear_value *; split))

theorem State.vote_held {s : State} {d : Die} {mx : List Instr × Mem} (hh : s.held = mx) : (State.vote s d).held = mx := by
  unfold State.vote
  with_reducible repeat' (first
    | (intro _)
    | assumption
    | rfl
    | apply State.voteOne_held
    | apply ite_h
    | apply foldl_h
    | apply ite1_h
    | apply fold1_h
    | split
    | (clear_value *; split))

theorem State.scrubSync_held {s : State} {d : Die} {mx : List Instr × Mem} (hh : s.held = mx) : (State.scrubSync s d).held = mx := by
  unfold State.scrubSync
  with_reducible repeat' (first
    | (intro _)
    | (extract_lets +onlyGivenNames tv; have hu := tv; clear hu)
    | assumption
    | rfl
    | apply State.setScrub_held
    | apply ite_h)

theorem State.lapStart_held {s : State} {d : Die} {mode : Nat} {cause : Nat} {mx : List Instr × Mem} (hh : s.held = mx) : (State.lapStart s d mode cause).held = mx := by
  unfold State.lapStart
  with_reducible repeat' (first
    | assumption
    | rfl
    | apply State.setScrub_held
    | apply State.put_held)

theorem State.scrubFresh_held {s : State} {d : Die} {mx : List Instr × Mem} (hh : s.held = mx) : (State.scrubFresh s d).held = mx := by
  unfold State.scrubFresh
  with_reducible repeat' (first
    | assumption
    | rfl
    | apply State.lapStart_held
    | apply State.scrubSync_held)

theorem State.priorityRequest_held {s : State} {d : Die} {cause : Nat} {mx : List Instr × Mem} (hh : s.held = mx) : (State.priorityRequest s d cause).held = mx := by
  unfold State.priorityRequest
  with_reducible repeat' (first
    | (intro _)
    | (extract_lets +onlyGivenNames tv; have hu := tv; clear hu)
    | assumption
    | rfl
    | apply State.lapStart_held
    | apply State.bump_held
    | apply State.setScrub_held
    | apply ite_h)

theorem State.returnLap_held {s : State} {d : Die} {mx : List Instr × Mem} (hh : s.held = mx) : (State.returnLap s d).held = mx := by
  unfold State.returnLap
  with_reducible repeat' (first
    | assumption
    | rfl
    | apply State.setScrub_held
    | apply State.lapStart_held)

theorem State.scrubPause_held {s : State} {d : Die} {mx : List Instr × Mem} (hh : s.held = mx) : (State.scrubPause s d).held = mx := by
  unfold State.scrubPause
  with_reducible repeat' (first
    | assumption
    | rfl
    | apply State.setScrub_held)

theorem State.scrubResume_held {s : State} {d : Die} {mx : List Instr × Mem} (hh : s.held = mx) : (State.scrubResume s d).held = mx := by
  unfold State.scrubResume
  with_reducible repeat' (first
    | (extract_lets +onlyGivenNames tv; first | (refine (fun ht : State.held tv = mx => ?_) ?_; clear_value tv; rotate_left; subst tv; rotate_right) | (have hu := tv; clear hu))
    | assumption
    | rfl
    | apply State.setScrub_held
    | apply State.scrubSync_held
    | apply State.priorityRequest_held
    | split
    | (clear_value *; split))

theorem State.repairDrop_held {s : State} {d : Die} {mx : List Instr × Mem} (hh : s.held = mx) : (State.repairDrop s d).held = mx := by
  unfold State.repairDrop
  with_reducible repeat' (first
    | (intro _)
    | assumption
    | rfl
    | apply State.setScrub_held
    | apply ite_h)

theorem State.scrubStop_held {s : State} {d : Die} {mx : List Instr × Mem} (hh : s.held = mx) : (State.scrubStop s d).held = mx := by
  unfold State.scrubStop
  with_reducible repeat' (first
    | assumption
    | rfl
    | apply State.setScrub_held)

theorem State.scrubsMeet_held {s : State} {mx : List Instr × Mem} (hh : s.held = mx) : (State.scrubsMeet s).held = mx := by
  unfold State.scrubsMeet
  with_reducible repeat' (first
    | (intro _)
    | assumption
    | rfl
    | apply State.scrubSync_held
    | apply State.repairDrop_held
    | apply ite_h
    | apply foldl_h
    | apply ite1_h
    | apply fold1_h
    | split
    | (clear_value *; split))

theorem State.scrubEnable_held {s : State} {d : Die} {v : Word} {mx : List Instr × Mem} (hh : s.held = mx) : (State.scrubEnable s d v).held = mx := by
  unfold State.scrubEnable
  with_reducible repeat' (first
    | (intro _)
    | (extract_lets +onlyGivenNames tv; first | (refine (fun ht : State.held tv = mx => ?_) ?_; clear_value tv; rotate_left; subst tv; rotate_right) | (have hu := tv; clear hu))
    | assumption
    | rfl
    | apply State.writeSetting_held
    | apply State.scrubFresh_held
    | apply State.scrubSync_held
    | apply ite_h)

theorem execScrubberEnable_held {die : Die} {en : Bool} {s : State} {mx : List Instr × Mem} (hh : s.held = mx) : ∃ tv, execScrubberEnable die en s = .next tv ∧ tv.held = mx := by
  unfold execScrubberEnable
  with_reducible repeat' (first
    | assumption
    | rfl
    | apply next_h
    | apply State.scrubEnable_held)

theorem execPrioLap_held {die : Die} {s : State} {mx : List Instr × Mem} (hh : s.held = mx) : ∃ tv, execPrioLap die s = .next tv ∧ tv.held = mx := by
  unfold execPrioLap
  with_reducible repeat' (first
    | assumption
    | rfl
    | apply next_h
    | apply State.priorityRequest_held)

theorem State.takeAction_held {s : State} {d : Die} {f : Nat} {act : Nat} {mx : List Instr × Mem} (hh : s.held = mx) : (State.takeAction s d f act).held = mx := by
  unfold State.takeAction
  with_reducible repeat' (first
    | assumption
    | rfl
    | apply State.parcelHold_held
    | apply State.setScrub_held
    | split)

theorem State.uncorrectable_held {s : State} {d : Die} {f : Nat} {mx : List Instr × Mem} (hh : s.held = mx) : (State.uncorrectable s d f).held = mx := by
  unfold State.uncorrectable
  with_reducible repeat' (first
    | (intro _)
    | (extract_lets +onlyGivenNames tv; first | (refine (fun ht : State.held tv = mx => ?_) ?_; clear_value tv; rotate_left; subst tv; rotate_right) | (have hu := tv; clear hu))
    | assumption
    | rfl
    | apply State.bump_held
    | apply State.puts_held
    | apply State.raise_held
    | apply State.takeAction_held
    | apply ite_h)

theorem State.checkFrame_ok {s : State} {d : Die} {f : Nat} {mx : List Instr × Mem} (hh : State.Ok mx s) : State.Ok mx (State.checkFrame s d f) := by
  unfold State.checkFrame
  with_reducible repeat' (first
    | (intro _)
    | (extract_lets +onlyGivenNames tv; first | (refine (fun ht : State.Ok mx tv => ?_) ?_; clear_value tv; rotate_left; subst tv; rotate_right) | (refine (fun ht : State.Ok mx (Prod.fst tv) => ?_) ?_; clear_value tv; rotate_left; subst tv; rotate_right) | (have hu := tv; clear hu))
    | assumption
    | exact ok_rfl
    | refine ok_of (State.bump_held rfl) ?_
    | refine ok_of (State.raise_held rfl) ?_
    | apply State.writeFrame_ok
    | refine ok_of (State.uncorrectable_held rfl) ?_
    | apply ite_ok
    | apply foldl_ok
    | apply ite1_ok
    | apply fold1_ok
    | split
    | (clear_value *; split))

theorem State.lapEnd_held {s : State} {d : Die} {time : Nat} {mx : List Instr × Mem} (hh : s.held = mx) : (State.lapEnd s d time).held = mx := by
  unfold State.lapEnd
  with_reducible repeat' (first
    | (intro _)
    | (extract_lets +onlyGivenNames tv; first | (refine (fun ht : State.held tv = mx => ?_) ?_; clear_value tv; rotate_left; subst tv; rotate_right) | (have hu := tv; clear hu))
    | assumption
    | rfl
    | apply State.puts_held
    | apply State.raise_held
    | apply State.setDieStep_held
    | apply State.scrubFresh_held
    | apply State.put_held
    | apply ite_h)

theorem execScrubFrameCheck_ok {die : Die} {lap : BitVec 32} {s : State} {mx : List Instr × Mem} (hh : State.Ok mx s) : ∃ tv, execScrubFrameCheck die lap s = .next tv ∧ State.Ok mx tv := by
  unfold execScrubFrameCheck
  with_reducible repeat' (first
    | (intro _)
    | (extract_lets +onlyGivenNames tv; first | (refine (fun ht : State.Ok mx tv => ?_) ?_; clear_value tv; rotate_left; subst tv; rotate_right) | (have hu := tv; clear hu))
    | assumption
    | exact ok_rfl
    | apply next_ok
    | apply State.checkFrame_ok
    | refine ok_of (State.put_held rfl) ?_
    | refine ok_of (State.lapEnd_held rfl) ?_
    | apply ite_ok
    | split
    | (clear_value *; split))

theorem State.repairFail_held {s : State} {d : Die} {r : Repair} {step : Nat} {mx : List Instr × Mem} (hh : s.held = mx) : (State.repairFail s d r step).held = mx := by
  unfold State.repairFail
  with_reducible repeat' (first
    | (intro _)
    | (extract_lets +onlyGivenNames tv; first | (refine (fun ht : State.held tv = mx => ?_) ?_; clear_value tv; rotate_left; subst tv; rotate_right) | (have hu := tv; clear hu))
    | assumption
    | rfl
    | apply State.setScrub_held
    | apply State.bump_held
    | apply State.raise_held
    | apply State.put_held
    | apply State.parcelHold_held
    | apply ite_h
    | apply foldl_h)

theorem execRepairHeaderRead_held {die : FDie} {header : BitVec 2048} {s : State} {mx : List Instr × Mem} (hh : s.held = mx) : ∃ tv, execRepairHeaderRead die header s = .next tv ∧ tv.held = mx := by
  unfold execRepairHeaderRead
  with_reducible repeat' (first
    | (intro _)
    | (extract_lets +onlyGivenNames tv; first | (refine (fun ht : State.held tv = mx => ?_) ?_; clear_value tv; rotate_left; subst tv; rotate_right) | (refine (fun ht : State.held (Prod.fst tv) = mx => ?_) ?_; clear_value tv; rotate_left; subst tv; rotate_right) | (have hu := tv; clear hu))
    | assumption
    | rfl
    | apply next_h
    | apply State.setScrub_held
    | apply State.emit_held
    | apply State.repairFail_held
    | apply ite_h
    | apply foldl_h
    | apply ite1_h
    | apply fold1_h
    | split
    | (clear_value *; split))

theorem execRepairPacketRead_held {die : FDie} {packet : Packet} {s : State} {mx : List Instr × Mem} (hh : s.held = mx) : ∃ tv, execRepairPacketRead die packet s = .next tv ∧ tv.held = mx := by
  unfold execRepairPacketRead
  with_reducible repeat' (first
    | (intro _)
    | (extract_lets +onlyGivenNames tv; have hu := tv; clear hu)
    | assumption
    | rfl
    | apply next_h
    | apply State.setScrub_held
    | apply State.repairFail_held
    | apply ite_h
    | split
    | (clear_value *; split))

theorem execRepairFrameWritten_ok {die : FDie} {s : State} {mx : List Instr × Mem} (hh : State.Ok mx s) : ∃ tv, execRepairFrameWritten die s = .next tv ∧ State.Ok mx tv := by
  unfold execRepairFrameWritten
  with_reducible repeat' (first
    | (intro _)
    | (extract_lets +onlyGivenNames tv; first | (refine (fun ht : State.Ok mx tv => ?_) ?_; clear_value tv; rotate_left; subst tv; rotate_right) | (refine (fun ht : State.Ok mx (Prod.fst tv) => ?_) ?_; clear_value tv; rotate_left; subst tv; rotate_right) | (have hu := tv; clear hu))
    | assumption
    | exact ok_rfl
    | apply next_ok
    | refine ok_of (State.setScrub_held rfl) ?_
    | refine ok_of (State.bump_held rfl) ?_
    | refine ok_of (State.raise_held rfl) ?_
    | apply State.writeFrame_ok
    | refine ok_of (State.repairFail_held rfl) ?_
    | apply ite_ok
    | apply foldl_ok
    | apply ite1_ok
    | apply fold1_ok
    | split
    | (clear_value *; split))

theorem execRepairTimeout_held {die : FDie} {s : State} {mx : List Instr × Mem} (hh : s.held = mx) : ∃ tv, execRepairTimeout die s = .next tv ∧ tv.held = mx := by
  unfold execRepairTimeout
  with_reducible repeat' (first
    | (intro _)
    | assumption
    | rfl
    | apply next_h
    | apply State.repairFail_held
    | apply ite_h
    | apply foldl_h
    | apply ite1_h
    | apply fold1_h
    | split
    | (clear_value *; split))

theorem execConfigurationUpset_ok {place : UpsetAt} {s : State} {mx : List Instr × Mem} (hh : State.Ok mx s) : ∃ tv, execConfigurationUpset place s = .next tv ∧ State.Ok mx tv := by
  unfold execConfigurationUpset
  with_reducible repeat' (first
    | (intro _)
    | (extract_lets +onlyGivenNames tv; first | (refine (fun ht : State.Ok mx tv => ?_) ?_; clear_value tv; rotate_left; subst tv; rotate_right) | (refine (fun ht : State.Ok mx (Prod.fst tv) => ?_) ?_; clear_value tv; rotate_left; subst tv; rotate_right) | (have hu := tv; clear hu))
    | assumption
    | exact ok_rfl
    | apply next_ok
    | refine ok_of (State.setFrames_held rfl) ?_
    | refine ok_of (State.setScrCopy_held rfl) ?_
    | apply State.bitError_ok
    | refine ok_of (State.applyFrame_held rfl) ?_
    | refine ok_of (State.scrubSync_held rfl) ?_
    | apply ite_ok
    | apply foldl_ok
    | apply ite1_ok
    | apply fold1_ok
    | split
    | (clear_value *; split))

end Sys2Proof.Machine
end

