-- ==== Sys2Proof/Laws/HeldWeld.lean ====
section
/-! SUPPORT. For each operation of Machine/Weld.lean: the queue and the memory it keeps (`_held`), or, where it stores, that the queue stays and the memory keeps its canonical form (`_ok`). -/

namespace Sys2Proof.Machine
open Sys2Proof
set_option linter.tactic.unusedName false

theorem State.setWeld_held {s : State} {d : Die} {ch : Nat} {w : WeldEnd} {mx : List Instr × Mem} (hh : s.held = mx) : (State.setWeld s d ch w).held = mx := by
  unfold State.setWeld
  with_reducible repeat' (first
    | (intro _)
    | (extract_lets +onlyGivenNames tv; first | (refine (fun ht : State.held tv = mx => ?_) ?_; clear_value tv; rotate_left; subst tv; rotate_right) | (have hu := tv; clear hu))
    | assumption
    | rfl
    | apply State.setWelds_held
    | apply State.puts_held
    | apply State.put_held
    | apply foldl_h
    | (clear_value *; split))

theorem State.setChanSt_held {s : State} {d : Die} {ch : Nat} {n : Nat} {mx : List Instr × Mem} (hh : s.held = mx) : (State.setChanSt s d ch n).held = mx := by
  unfold State.setChanSt
  with_reducible repeat' (first
    | assumption
    | rfl
    | apply State.put_held)

theorem State.setChan_held {s : State} {ch : Nat} {n : Nat} {mx : List Instr × Mem} (hh : s.held = mx) : (State.setChan s ch n).held = mx := by
  unfold State.setChan
  with_reducible repeat' (first
    | assumption
    | rfl
    | apply State.setChanSt_held)

theorem State.weldGroup_held {s : State} {d : Die} {ch : Nat} {g : BitVec 256} {mx : List Instr × Mem} (hh : s.held = mx) : (State.weldGroup s d ch g).held = mx := by
  unfold State.weldGroup
  with_reducible repeat' (first
    | (intro _)
    | (extract_lets +onlyGivenNames tv; first | (refine (fun ht : State.held tv = mx => ?_) ?_; clear_value tv; rotate_left; subst tv; rotate_right) | (refine (fun ht : State.held (Prod.fst tv) = mx => ?_) ?_; clear_value tv; rotate_left; subst tv; rotate_right) | (have hu := tv; clear hu))
    | assumption
    | rfl
    | apply State.emit_held
    | apply State.bwCount_held
    | apply State.pmcItems_held
    | apply ite_h
    | apply foldl_h
    | apply ite1_h
    | apply fold1_h
    | split
    | (clear_value *; split))

theorem State.weldControl_held {s : State} {d : Die} {ch : Nat} {mx : List Instr × Mem} (hh : s.held = mx) : (State.weldControl s d ch).held = mx := by
  unfold State.weldControl
  with_reducible repeat' (first
    | (intro _)
    | (extract_lets +onlyGivenNames tv; first | (refine (fun ht : State.held tv = mx => ?_) ?_; clear_value tv; rotate_left; subst tv; rotate_right) | (refine (fun ht : State.held (Prod.fst tv) = mx => ?_) ?_; clear_value tv; rotate_left; subst tv; rotate_right) | (have hu := tv; clear hu))
    | assumption
    | rfl
    | apply State.setWeld_held
    | apply State.weldGroup_held
    | apply ite_h
    | apply foldl_h
    | apply ite1_h
    | apply fold1_h
    | split
    | (clear_value *; split))

theorem State.weldSend_held {s : State} {d : Die} {ch : Nat} {l : List (BitVec 256)} {mx : List Instr × Mem} (hh : s.held = mx) : (State.weldSend s d ch l).held = mx := by
  unfold State.weldSend
  with_reducible repeat' (first
    | (intro _)
    | (extract_lets +onlyGivenNames tv; first | (refine (fun ht : State.held tv = mx => ?_) ?_; clear_value tv; rotate_left; subst tv; rotate_right) | (refine (fun ht : State.held (Prod.fst tv) = mx => ?_) ?_; clear_value tv; rotate_left; subst tv; rotate_right) | (have hu := tv; clear hu))
    | assumption
    | rfl
    | apply State.setWeld_held
    | apply State.weldGroup_held
    | apply State.weldControl_held
    | apply ite_h
    | apply foldl_h
    | apply ite1_h
    | apply fold1_h
    | split
    | (clear_value *; split))

theorem State.weldSlot_held {s : State} {d : Die} {ch : Nat} {mx : List Instr × Mem} (hh : s.held = mx) : (State.weldSlot s d ch).held = mx := by
  unfold State.weldSlot
  with_reducible repeat' (first
    | (intro _)
    | (extract_lets +onlyGivenNames tv; first | (refine (fun ht : State.held tv = mx => ?_) ?_; clear_value tv; rotate_left; subst tv; rotate_right) | (refine (fun ht : State.held (Prod.fst tv) = mx => ?_) ?_; clear_value tv; rotate_left; subst tv; rotate_right) | (have hu := tv; clear hu))
    | assumption
    | rfl
    | apply State.setWeld_held
    | apply State.weldSend_held
    | apply ite_h
    | apply foldl_h
    | apply ite1_h
    | apply fold1_h
    | split
    | (clear_value *; split))

theorem execWeldFlitStart_held {die : Die} {ch : Fin 88} {s : State} {mx : List Instr × Mem} (hh : s.held = mx) : ∃ tv, execWeldFlitStart die ch s = .next tv ∧ tv.held = mx := by
  unfold execWeldFlitStart
  with_reducible repeat' (first
    | (intro _)
    | assumption
    | rfl
    | apply next_h
    | apply State.weldControl_held
    | apply State.weldSlot_held
    | apply ite_h
    | apply foldl_h
    | apply ite1_h
    | apply fold1_h
    | split
    | (clear_value *; split))

theorem State.weldReplay_held {s : State} {d : Die} {ch : Nat} {seq : Nat} {mx : List Instr × Mem} (hh : s.held = mx) : (State.weldReplay s d ch seq).held = mx := by
  unfold State.weldReplay
  with_reducible repeat' (first
    | (intro _)
    | (extract_lets +onlyGivenNames tv; first | (refine (fun ht : State.held tv = mx => ?_) ?_; clear_value tv; rotate_left; subst tv; rotate_right) | (refine (fun ht : State.held (Prod.fst tv) = mx => ?_) ?_; clear_value tv; rotate_left; subst tv; rotate_right) | (have hu := tv; clear hu))
    | assumption
    | rfl
    | apply State.setWeld_held
    | apply State.bump_held
    | apply State.pmcItems_held
    | apply State.weldSend_held
    | apply ite_h
    | apply foldl_h
    | apply ite1_h
    | apply fold1_h
    | split
    | (clear_value *; split))

theorem State.weldCrcError_held {s : State} {d : Die} {ch : Nat} {mx : List Instr × Mem} (hh : s.held = mx) : (State.weldCrcError s d ch).held = mx := by
  unfold State.weldCrcError
  with_reducible repeat' (first
    | (intro _)
    | (extract_lets +onlyGivenNames tv; first | (refine (fun ht : State.held tv = mx => ?_) ?_; clear_value tv; rotate_left; subst tv; rotate_right) | (have hu := tv; clear hu))
    | assumption
    | rfl
    | apply State.setWeld_held
    | apply State.bump_held
    | apply State.raise_held
    | apply ite_h
    | (clear_value *; split))

theorem State.weldAwait_held {s : State} {d : Die} {ch : Nat} {mx : List Instr × Mem} (hh : s.held = mx) : (State.weldAwait s d ch).held = mx := by
  unfold State.weldAwait
  with_reducible repeat' (first
    | (intro _)
    | (extract_lets +onlyGivenNames tv; first | (refine (fun ht : State.held tv = mx => ?_) ?_; clear_value tv; rotate_left; subst tv; rotate_right) | (refine (fun ht : State.held (Prod.fst tv) = mx => ?_) ?_; clear_value tv; rotate_left; subst tv; rotate_right) | (have hu := tv; clear hu))
    | assumption
    | rfl
    | apply State.setWeld_held
    | apply State.weldSend_held
    | apply ite_h
    | apply foldl_h
    | apply ite1_h
    | apply fold1_h
    | split
    | (clear_value *; split))

theorem State.weldOut_held {s : State} {d : Die} {ch : Nat} {p : Nat} {mx : List Instr × Mem} (hh : s.held = mx) : (State.weldOut s d ch p).held = mx := by
  unfold State.weldOut
  with_reducible repeat' (first
    | (intro _)
    | (extract_lets +onlyGivenNames tv; first | (refine (fun ht : State.held tv = mx => ?_) ?_; clear_value tv; rotate_left; subst tv; rotate_right) | (refine (fun ht : State.held (Prod.fst tv) = mx => ?_) ?_; clear_value tv; rotate_left; subst tv; rotate_right) | (have hu := tv; clear hu))
    | assumption
    | rfl
    | apply State.setWeld_held
    | apply State.flitIn_held
    | apply ite_h
    | apply foldl_h
    | apply ite1_h
    | apply fold1_h
    | split
    | (clear_value *; split))

theorem State.weldDrain_held {s : State} {d : Die} {ch : Nat} {mx : List Instr × Mem} (hh : s.held = mx) : (State.weldDrain s d ch).held = mx := by
  unfold State.weldDrain
  with_reducible repeat' (first
    | (intro _)
    | assumption
    | rfl
    | apply State.weldOut_held
    | apply ite_h
    | apply foldl_h
    | apply ite1_h
    | apply fold1_h
    | split
    | (clear_value *; split))

theorem execWeldDataGroup_held {die : Die} {ch : Fin 88} {group : BitVec 256} {s : State} {mx : List Instr × Mem} (hh : s.held = mx) : ∃ tv, execWeldDataGroup die ch group s = .next tv ∧ tv.held = mx := by
  unfold execWeldDataGroup
  with_reducible repeat' (first
    | (intro _)
    | (extract_lets +onlyGivenNames tv; first | (refine (fun ht : State.held tv = mx => ?_) ?_; clear_value tv; rotate_left; subst tv; rotate_right) | (refine (fun ht : State.held (Prod.fst tv) = mx => ?_) ?_; clear_value tv; rotate_left; subst tv; rotate_right) | (have hu := tv; clear hu))
    | assumption
    | rfl
    | apply next_h
    | apply State.setWeld_held
    | apply State.bwCount_held
    | apply State.weldCrcError_held
    | apply State.weldAwait_held
    | apply State.weldDrain_held
    | apply ite_h
    | apply foldl_h
    | apply ite1_h
    | apply fold1_h
    | split
    | (clear_value *; split))

theorem execWeldControlGroup_held {die : Die} {ch : Fin 88} {group : BitVec 256} {s : State} {mx : List Instr × Mem} (hh : s.held = mx) : ∃ tv, execWeldControlGroup die ch group s = .next tv ∧ tv.held = mx := by
  unfold execWeldControlGroup
  with_reducible repeat' (first
    | (intro _)
    | (extract_lets +onlyGivenNames tv; first | (refine (fun ht : State.held tv = mx => ?_) ?_; clear_value tv; rotate_left; subst tv; rotate_right) | (refine (fun ht : State.held (Prod.fst tv) = mx => ?_) ?_; clear_value tv; rotate_left; subst tv; rotate_right) | (have hu := tv; clear hu))
    | assumption
    | rfl
    | apply next_h
    | apply State.setWeld_held
    | apply State.puts_held
    | apply State.weldReplay_held
    | apply State.weldCrcError_held
    | apply ite_h
    | apply foldl_h
    | apply ite1_h
    | apply fold1_h
    | split
    | (clear_value *; split))

theorem execWeldReplayRequest_held {die : Die} {ch : Fin 88} {group : BitVec 256} {s : State} {mx : List Instr × Mem} (hh : s.held = mx) : ∃ tv, execWeldReplayRequest die ch group s = .next tv ∧ tv.held = mx := by
  unfold execWeldReplayRequest
  with_reducible repeat' (first
    | (intro _)
    | (extract_lets +onlyGivenNames tv; first | (refine (fun ht : State.held tv = mx => ?_) ?_; clear_value tv; rotate_left; subst tv; rotate_right) | (refine (fun ht : State.held (Prod.fst tv) = mx => ?_) ?_; clear_value tv; rotate_left; subst tv; rotate_right) | (have hu := tv; clear hu))
    | assumption
    | rfl
    | apply next_h
    | apply State.setWeld_held
    | apply State.weldReplay_held
    | apply State.weldCrcError_held
    | apply ite_h
    | apply foldl_h
    | apply ite1_h
    | apply fold1_h
    | split
    | (clear_value *; split))

theorem State.weldRetrain_held {s : State} {ch : Nat} {cause : Nat} {mx : List Instr × Mem} (hh : s.held = mx) : (State.weldRetrain s ch cause).held = mx := by
  unfold State.weldRetrain
  with_reducible repeat' (first
    | (extract_lets +onlyGivenNames tv; have hu := tv; clear hu)
    | assumption
    | rfl
    | apply State.bump_held
    | apply State.raise_held
    | apply State.setChan_held)

theorem execWeldReplayLimit_held {die : Die} {ch : Fin 88} {s : State} {mx : List Instr × Mem} (hh : s.held = mx) : ∃ tv, execWeldReplayLimit die ch s = .next tv ∧ tv.held = mx := by
  unfold execWeldReplayLimit
  with_reducible repeat' (first
    | (intro _)
    | assumption
    | rfl
    | apply next_h
    | apply State.weldRetrain_held
    | apply ite_h)

theorem execWeldControlLoss_held {die : Die} {ch : Fin 88} {s : State} {mx : List Instr × Mem} (hh : s.held = mx) : ∃ tv, execWeldControlLoss die ch s = .next tv ∧ tv.held = mx := by
  unfold execWeldControlLoss
  with_reducible repeat' (first
    | (intro _)
    | assumption
    | rfl
    | apply next_h
    | apply State.weldRetrain_held
    | apply ite_h)

theorem State.weldFence_ok {s : State} {d : Die} {ch : Nat} {mx : List Instr × Mem} (hh : State.Ok mx s) : State.Ok mx (State.weldFence s d ch) := by
  unfold State.weldFence
  with_reducible repeat' (first
    | (intro _)
    | (extract_lets +onlyGivenNames tv; first | (refine (fun ht : State.Ok mx tv => ?_) ?_; clear_value tv; rotate_left; subst tv; rotate_right) | (refine (fun ht : State.Ok mx (Prod.fst tv) => ?_) ?_; clear_value tv; rotate_left; subst tv; rotate_right) | (have hu := tv; clear hu))
    | assumption
    | exact ok_rfl
    | refine State.synthAt_okp ‹_› ?_
    | apply State.synthAt_ok
    | apply ite_ok
    | apply foldl_ok
    | apply ite1_ok
    | apply fold1_ok
    | split
    | (clear_value *; split))

theorem State.weldFail_ok {s : State} {ch : Nat} {reason : Nat} {mx : List Instr × Mem} (hh : State.Ok mx s) : State.Ok mx (State.weldFail s ch reason) := by
  unfold State.weldFail
  with_reducible repeat' (first
    | (intro _)
    | (extract_lets +onlyGivenNames tv; first | (refine (fun ht : State.Ok mx tv => ?_) ?_; clear_value tv; rotate_left; subst tv; rotate_right) | (refine (fun ht : State.Ok mx (Prod.fst tv) => ?_) ?_; clear_value tv; rotate_left; subst tv; rotate_right) | (have hu := tv; clear hu))
    | assumption
    | exact ok_rfl
    | refine ok_of (State.setWeld_held rfl) ?_
    | refine ok_of (State.setChan_held rfl) ?_
    | refine ok_of (State.raise_held rfl) ?_
    | apply State.weldFence_ok
    | apply ite_ok
    | apply foldl_ok
    | apply ite1_ok
    | apply fold1_ok
    | split
    | (clear_value *; split))

theorem State.weldMap_held {s : State} {d : Die} {ch : Nat} {base : List Nat} {fails : List Nat} {mx : List Instr × Mem} (hh : s.held = mx) : (State.weldMap s d ch base fails).held = mx := by
  unfold State.weldMap
  with_reducible repeat' (first
    | (intro _)
    | (extract_lets +onlyGivenNames tv; first | (refine (fun ht : State.held tv = mx => ?_) ?_; clear_value tv; rotate_left; subst tv; rotate_right) | (have hu := tv; clear hu))
    | assumption
    | rfl
    | apply State.setWeld_held
    | apply State.raise_held
    | apply ite_h
    | apply foldl_h
    | apply ite1_h
    | apply fold1_h)

theorem State.weldTrain_held {s : State} {ch : Nat} {mx : List Instr × Mem} (hh : s.held = mx) : (State.weldTrain s ch).held = mx := by
  unfold State.weldTrain
  with_reducible repeat' (first
    | (extract_lets +onlyGivenNames tv; have hu := tv; clear hu)
    | assumption
    | rfl
    | apply State.setWeld_held
    | apply State.setChan_held)

theorem State.weldStep_held {s : State} {ch : Nat} {step : Nat} {mx : List Instr × Mem} (hh : s.held = mx) : (State.weldStep s ch step).held = mx := by
  unfold State.weldStep
  with_reducible repeat' (first
    | (extract_lets +onlyGivenNames tv; have hu := tv; clear hu)
    | assumption
    | rfl
    | apply State.setWeld_held)

theorem execWeldReceiverLock_held {ch : Fin 88} {s : State} {mx : List Instr × Mem} (hh : s.held = mx) : ∃ tv, execWeldReceiverLock ch s = .next tv ∧ tv.held = mx := by
  unfold execWeldReceiverLock
  with_reducible repeat' (first
    | (intro _)
    | assumption
    | rfl
    | apply next_h
    | apply State.weldStep_held
    | apply ite_h)

theorem State.returnTrained_held {s : State} {d : Die} {mx : List Instr × Mem} (hh : s.held = mx) : (State.returnTrained s d).held = mx := by
  unfold State.returnTrained
  with_reducible repeat' (first
    | (intro _)
    | assumption
    | rfl
    | apply State.setDieStep_held
    | apply State.returnLap_held
    | apply ite_h
    | apply foldl_h
    | apply ite1_h
    | apply fold1_h
    | split
    | (clear_value *; split))

theorem execWeldClockLockTimeout_ok {ch : Fin 88} {s : State} {mx : List Instr × Mem} (hh : State.Ok mx s) : ∃ tv, execWeldClockLockTimeout ch s = .next tv ∧ State.Ok mx tv := by
  unfold execWeldClockLockTimeout
  with_reducible repeat' (first
    | (intro _)
    | assumption
    | exact ok_rfl
    | apply next_ok
    | apply State.weldFail_ok
    | refine ok_of (State.returnTrained_held rfl) ?_
    | apply ite_ok)

theorem execWeldPrbsDone_ok {ch : Fin 88} {low : BitVec 68} {high : BitVec 68} {s : State} {mx : List Instr × Mem} (hh : State.Ok mx s) : ∃ tv, execWeldPrbsDone ch low high s = .next tv ∧ State.Ok mx tv := by
  unfold execWeldPrbsDone
  with_reducible repeat' (first
    | (intro _)
    | (extract_lets +onlyGivenNames tv; first | (refine (fun ht : State.Ok mx tv => ?_) ?_; clear_value tv; rotate_left; subst tv; rotate_right) | (refine (fun ht : State.Ok mx (Prod.fst tv) => ?_) ?_; clear_value tv; rotate_left; subst tv; rotate_right) | (have hu := tv; clear hu))
    | assumption
    | exact ok_rfl
    | apply next_ok
    | apply State.weldFail_ok
    | refine ok_of (State.returnTrained_held rfl) ?_
    | refine ok_of (State.weldMap_held rfl) ?_
    | refine ok_of (State.weldStep_held rfl) ?_
    | apply ite_ok)

theorem execWeldDeskewDone_ok {ch : Fin 88} {works : Bool} {s : State} {mx : List Instr × Mem} (hh : State.Ok mx s) : ∃ tv, execWeldDeskewDone ch works s = .next tv ∧ State.Ok mx tv := by
  unfold execWeldDeskewDone
  with_reducible repeat' (first
    | (intro _)
    | (extract_lets +onlyGivenNames tv; first | (refine (fun ht : State.Ok mx tv => ?_) ?_; clear_value tv; rotate_left; subst tv; rotate_right) | (refine (fun ht : State.Ok mx (Prod.fst tv) => ?_) ?_; clear_value tv; rotate_left; subst tv; rotate_right) | (have hu := tv; clear hu))
    | assumption
    | exact ok_rfl
    | apply next_ok
    | refine ok_of (State.setWeld_held rfl) ?_
    | refine ok_of (State.weldControl_held rfl) ?_
    | apply State.weldFail_ok
    | refine ok_of (State.returnTrained_held rfl) ?_
    | apply ite_ok
    | apply foldl_ok
    | apply ite1_ok
    | apply fold1_ok
    | split
    | (clear_value *; split))

theorem State.dieFenceUp_held {s : State} {f : FenceId} {mx : List Instr × Mem} (hh : s.held = mx) : (State.dieFenceUp s f).held = mx := by
  unfold State.dieFenceUp
  with_reducible repeat' (first
    | (intro _)
    | assumption
    | rfl
    | apply State.setFence_held
    | apply ite_h
    | apply foldl_h
    | apply ite1_h
    | apply fold1_h
    | split
    | (clear_value *; split))

theorem execWeldTrainingDone_held {ch : Fin 88} {s : State} {mx : List Instr × Mem} (hh : s.held = mx) : ∃ tv, execWeldTrainingDone ch s = .next tv ∧ tv.held = mx := by
  unfold execWeldTrainingDone
  with_reducible repeat' (first
    | (intro _)
    | (extract_lets +onlyGivenNames tv; first | (refine (fun ht : State.held tv = mx => ?_) ?_; clear_value tv; rotate_left; subst tv; rotate_right) | (refine (fun ht : State.held (Prod.fst tv) = mx => ?_) ?_; clear_value tv; rotate_left; subst tv; rotate_right) | (have hu := tv; clear hu))
    | assumption
    | rfl
    | apply next_h
    | apply State.setChan_held
    | apply State.weldStep_held
    | apply State.returnTrained_held
    | apply State.dieFenceUp_held
    | apply ite_h
    | apply foldl_h
    | apply ite1_h
    | apply fold1_h
    | split
    | (clear_value *; split))

theorem execWeldRetrainDone_ok {ch : Fin 88} {low : BitVec 68} {high : BitVec 68} {works : Bool} {s : State} {mx : List Instr × Mem} (hh : State.Ok mx s) : ∃ tv, execWeldRetrainDone ch low high works s = .next tv ∧ State.Ok mx tv := by
  unfold execWeldRetrainDone
  with_reducible repeat' (first
    | (intro _)
    | (extract_lets +onlyGivenNames tv; first | (refine (fun ht : State.Ok mx tv => ?_) ?_; clear_value tv; rotate_left; subst tv; rotate_right) | (have hu := tv; clear hu))
    | assumption
    | exact ok_rfl
    | apply next_ok
    | refine ok_of (State.setWeld_held rfl) ?_
    | refine ok_of (State.weldSend_held rfl) ?_
    | apply State.weldFail_ok
    | refine ok_of (State.weldMap_held rfl) ?_
    | refine ok_of (State.setChan_held rfl) ?_
    | apply ite_ok)

theorem State.weldIgnored_held {s : State} {d : Die} {ch : Nat} {mx : List Instr × Mem} (hh : s.held = mx) : (State.weldIgnored s d ch).held = mx := by
  unfold State.weldIgnored
  with_reducible repeat' (first
    | assumption
    | rfl
    | apply State.put_held)

theorem State.weldRetrainCmd_held {s : State} {d : Die} {ch : Nat} {mx : List Instr × Mem} (hh : s.held = mx) : (State.weldRetrainCmd s d ch).held = mx := by
  unfold State.weldRetrainCmd
  with_reducible repeat' (first
    | (intro _)
    | assumption
    | rfl
    | apply State.weldRetrain_held
    | apply State.weldTrain_held
    | apply State.weldIgnored_held
    | apply ite_h)

theorem State.weldRemapCmd_held {s : State} {d : Die} {ch : Nat} {mx : List Instr × Mem} (hh : s.held = mx) : (State.weldRemapCmd s d ch).held = mx := by
  unfold State.weldRemapCmd
  with_reducible repeat' (first
    | (intro _)
    | assumption
    | rfl
    | apply State.weldTrain_held
    | apply State.weldIgnored_held
    | apply ite_h)

theorem State.weldCommitCmd_held {s : State} {d : Die} {ch : Nat} {key : Nat} {mx : List Instr × Mem} (hh : s.held = mx) : (State.weldCommitCmd s d ch key).held = mx := by
  unfold State.weldCommitCmd
  with_reducible repeat' (first
    | (intro _)
    | (extract_lets +onlyGivenNames tv; have hu := tv; clear hu)
    | assumption
    | rfl
    | apply State.weldIgnored_held
    | apply State.put_held
    | apply State.setWeld_held
    | apply ite_h)

theorem execRetrain_held {die : Die} {ch : Fin 88} {s : State} {mx : List Instr × Mem} (hh : s.held = mx) : ∃ tv, execRetrain die ch s = .next tv ∧ tv.held = mx := by
  unfold execRetrain
  with_reducible repeat' (first
    | assumption
    | rfl
    | apply next_h
    | apply State.weldRetrainCmd_held)

theorem execRemap_held {die : Die} {ch : Fin 88} {s : State} {mx : List Instr × Mem} (hh : s.held = mx) : ∃ tv, execRemap die ch s = .next tv ∧ tv.held = mx := by
  unfold execRemap
  with_reducible repeat' (first
    | assumption
    | rfl
    | apply next_h
    | apply State.weldRemapCmd_held)

theorem execCommitMap_held {die : Die} {ch : Fin 88} {key : BitVec 8} {s : State} {mx : List Instr × Mem} (hh : s.held = mx) : ∃ tv, execCommitMap die ch key s = .next tv ∧ tv.held = mx := by
  unfold execCommitMap
  with_reducible repeat' (first
    | assumption
    | rfl
    | apply next_h
    | apply State.weldCommitCmd_held)

theorem State.weldDown_held {s : State} {d : Die} {mx : List Instr × Mem} (hh : s.held = mx) : (State.weldDown s d).held = mx := by
  unfold State.weldDown
  with_reducible repeat' (first
    | (intro _)
    | (extract_lets +onlyGivenNames tv; first | (refine (fun ht : State.held tv = mx => ?_) ?_; clear_value tv; rotate_left; subst tv; rotate_right) | (refine (fun ht : State.held (Prod.fst tv) = mx => ?_) ?_; clear_value tv; rotate_left; subst tv; rotate_right) | (have hu := tv; clear hu))
    | assumption
    | rfl
    | apply State.setWeld_held
    | apply State.setChan_held
    | apply ite_h
    | apply foldl_h
    | apply ite1_h
    | apply fold1_h
    | split
    | (clear_value *; split))

theorem execSeamUnlock_held {die : Die} {edge : Fin 11} {group : Fin 88} {s : State} {mx : List Instr × Mem} (hh : s.held = mx) : ∃ tv, execSeamUnlock die edge group s = .next tv ∧ tv.held = mx := by
  unfold execSeamUnlock
  with_reducible repeat' (first
    | (intro _)
    | assumption
    | rfl
    | apply next_h
    | apply State.seamUnlock_held
    | apply ite_h
    | apply foldl_h
    | apply ite1_h
    | apply fold1_h
    | split
    | (clear_value *; split))

theorem State.seamAlign_held {s : State} {d : Die} {edge : Nat} {g : Nat} {mx : List Instr × Mem} (hh : s.held = mx) : (State.seamAlign s d edge g).held = mx := by
  unfold State.seamAlign
  with_reducible repeat' (first
    | (intro _)
    | assumption
    | rfl
    | apply State.setSeam_held
    | apply ite_h
    | apply foldl_h
    | apply ite1_h
    | apply fold1_h
    | split
    | (clear_value *; split))

theorem execSeamRelock_held {die : Die} {edge : Fin 11} {group : Fin 88} {s : State} {mx : List Instr × Mem} (hh : s.held = mx) : ∃ tv, execSeamRelock die edge group s = .next tv ∧ tv.held = mx := by
  unfold execSeamRelock
  with_reducible repeat' (first
    | (intro _)
    | (extract_lets +onlyGivenNames tv; first | (refine (fun ht : State.held tv = mx => ?_) ?_; clear_value tv; rotate_left; subst tv; rotate_right) | (refine (fun ht : State.held (Prod.fst tv) = mx => ?_) ?_; clear_value tv; rotate_left; subst tv; rotate_right) | (have hu := tv; clear hu))
    | assumption
    | rfl
    | apply next_h
    | apply State.put_held
    | apply State.seamAlign_held
    | apply ite_h
    | apply foldl_h
    | apply ite1_h
    | apply fold1_h
    | split
    | (clear_value *; split))

end Sys2Proof.Machine
end

