-- ==== Sys2Proof/Laws/HeldRunControl.lean ====
section
/-! SUPPORT. For each operation of Machine/RunControl.lean: the queue and the memory it keeps (`_held`), or, where it stores, that the queue stays and the memory keeps its canonical form (`_ok`). -/

namespace Sys2Proof.Machine
open Sys2Proof
set_option linter.tactic.unusedName false

theorem State.takeLine_held {s : State} {d : Die} {k : Nat} {line : Nat} {mx : List Instr × Mem} (hh : s.held = mx) : (State.takeLine s d k line).held = mx := by
  unfold State.takeLine
  with_reducible repeat' (first
    | (intro _)
    | (extract_lets +onlyGivenNames tv; first | (refine (fun ht : State.held tv = mx => ?_) ?_; clear_value tv; rotate_left; subst tv; rotate_right) | (refine (fun ht : State.held (Prod.fst tv) = mx => ?_) ?_; clear_value tv; rotate_left; subst tv; rotate_right) | (have hu := tv; clear hu))
    | assumption
    | rfl
    | apply State.setCstate_held
    | apply State.clrBit_held
    | apply State.onCore_held
    | apply State.taskSync_held
    | apply ite_h
    | apply foldl_h
    | apply ite1_h
    | apply fold1_h
    | split
    | (clear_value *; split))

theorem State.interrupt_held {s : State} {d : Die} {k : Nat} {mx : List Instr × Mem} (hh : s.held = mx) : (State.interrupt s d k).held = mx := by
  unfold State.interrupt
  with_reducible repeat' (first
    | (intro _)
    | (extract_lets +onlyGivenNames tv; first | (refine (fun ht : State.held tv = mx => ?_) ?_; clear_value tv; rotate_left; subst tv; rotate_right) | (refine (fun ht : State.held (Prod.fst tv) = mx => ?_) ?_; clear_value tv; rotate_left; subst tv; rotate_right) | (have hu := tv; clear hu))
    | assumption
    | rfl
    | apply State.goOn_held
    | apply State.takeLine_held
    | apply ite_h
    | apply foldl_h
    | apply ite1_h
    | apply fold1_h
    | split
    | (clear_value *; split))

theorem execInterruptEntry_held {c : CoreId} {s : State} {mx : List Instr × Mem} (hh : s.held = mx) : ∃ tv, execInterruptEntry c s = .next tv ∧ tv.held = mx := by
  unfold execInterruptEntry
  with_reducible repeat' (first
    | assumption
    | rfl
    | apply next_h
    | apply State.interrupt_held)

theorem execDoorbell_held {c : CoreId} {s : State} {mx : List Instr × Mem} (hh : s.held = mx) : ∃ tv, execDoorbell c s = .next tv ∧ tv.held = mx := by
  unfold execDoorbell
  with_reducible repeat' (first
    | assumption
    | rfl
    | apply next_h
    | apply State.irq_held)

theorem State.hostPost_held {s : State} {d : Die} {k : Nat} {mx : List Instr × Mem} (hh : s.held = mx) : (State.hostPost s d k).held = mx := by
  unfold State.hostPost
  with_reducible repeat' (first
    | (intro _)
    | (extract_lets +onlyGivenNames tv; first | (refine (fun ht : State.held tv = mx => ?_) ?_; clear_value tv; rotate_left; subst tv; rotate_right) | (refine (fun ht : State.held (Prod.fst tv) = mx => ?_) ?_; clear_value tv; rotate_left; subst tv; rotate_right) | (have hu := tv; clear hu))
    | assumption
    | rfl
    | refine State.tngPost_heldp ‹_› ?_
    | apply State.tngPost_held
    | apply State.put_held
    | apply ite_h)

theorem execTongsHostPost_held {c : CoreId} {s : State} {mx : List Instr × Mem} (hh : s.held = mx) : ∃ tv, execTongsHostPost c s = .next tv ∧ tv.held = mx := by
  unfold execTongsHostPost
  with_reducible repeat' (first
    | assumption
    | rfl
    | apply next_h
    | apply State.hostPost_held)

theorem execTongsDescriptorStart_ok {c : CoreId} {s : State} {mx : List Instr × Mem} (hh : State.Ok mx s) : ∃ tv, execTongsDescriptorStart c s = .next tv ∧ State.Ok mx tv := by
  unfold execTongsDescriptorStart
  with_reducible repeat' (first
    | (intro _)
    | (extract_lets +onlyGivenNames tv; first | (refine (fun ht : State.Ok mx tv => ?_) ?_; clear_value tv; rotate_left; subst tv; rotate_right) | (refine (fun ht : State.Ok mx (Prod.fst tv) => ?_) ?_; clear_value tv; rotate_left; subst tv; rotate_right) | (have hu := tv; clear hu))
    | assumption
    | exact ok_rfl
    | apply next_ok
    | refine ok_of (State.setCore_held rfl) ?_
    | refine ok_of (State.tngStop_held rfl) ?_
    | apply State.tngGo_ok
    | refine State.run_ok ?_ ?_
    | apply ite_ok
    | apply foldl_ok
    | apply ite1_ok
    | apply fold1_ok
    | split
    | (clear_value *; split))

theorem execTongsDescriptorComplete_held {c : CoreId} {s : State} {mx : List Instr × Mem} (hh : s.held = mx) : ∃ tv, execTongsDescriptorComplete c s = .next tv ∧ tv.held = mx := by
  unfold execTongsDescriptorComplete
  with_reducible repeat' (first
    | (intro _)
    | (extract_lets +onlyGivenNames tv; first | (refine (fun ht : State.held tv = mx => ?_) ?_; clear_value tv; rotate_left; subst tv; rotate_right) | (have hu := tv; clear hu))
    | assumption
    | rfl
    | apply next_h
    | refine State.run_held ?_ ?_
    | apply State.setCore_held
    | apply State.setTngDone_held
    | apply State.bump_held
    | apply State.irq_held
    | apply State.tngSync_held
    | apply ite_h
    | split
    | (clear_value *; split))

theorem State.tngControl_held {s : State} {d : Die} {k : Nat} {flush : Bool} {mx : List Instr × Mem} (hh : s.held = mx) : (State.tngControl s d k flush).held = mx := by
  unfold State.tngControl
  with_reducible repeat' (first
    | (intro _)
    | (extract_lets +onlyGivenNames tv; first | (refine (fun ht : State.held tv = mx => ?_) ?_; clear_value tv; rotate_left; subst tv; rotate_right) | (have hu := tv; clear hu))
    | assumption
    | rfl
    | apply State.onCore_held
    | apply State.put_held
    | apply State.tngSync_held
    | apply ite_h)

theorem execTongsResume_held {c : CoreId} {s : State} {mx : List Instr × Mem} (hh : s.held = mx) : ∃ tv, execTongsResume c s = .next tv ∧ tv.held = mx := by
  unfold execTongsResume
  with_reducible repeat' (first
    | assumption
    | rfl
    | apply next_h
    | apply State.tngControl_held)

theorem execTongsFlush_held {c : CoreId} {s : State} {mx : List Instr × Mem} (hh : s.held = mx) : ∃ tv, execTongsFlush c s = .next tv ∧ tv.held = mx := by
  unfold execTongsFlush
  with_reducible repeat' (first
    | assumption
    | rfl
    | apply next_h
    | apply State.tngControl_held)

theorem execCoreReset_held {c : CoreId} {s : State} {mx : List Instr × Mem} (hh : s.held = mx) : ∃ tv, execCoreReset c s = .next tv ∧ tv.held = mx := by
  unfold execCoreReset
  with_reducible repeat' (first
    | assumption
    | rfl
    | apply next_h
    | apply State.coreReset_held)

theorem State.coreCtrl_held {s : State} {d : Die} {k : Nat} {v : Word} {mx : List Instr × Mem} (hh : s.held = mx) : (State.coreCtrl s d k v).held = mx := by
  unfold State.coreCtrl
  with_reducible repeat' (first
    | (intro _)
    | (extract_lets +onlyGivenNames tv; first | (refine (fun ht : State.held tv = mx => ?_) ?_; clear_value tv; rotate_left; subst tv; rotate_right) | (have hu := tv; clear hu))
    | assumption
    | rfl
    | apply State.writeReg_held
    | apply State.coreReset_held
    | apply ite_h
    | (clear_value *; split))

theorem execCoreHold_held {c : CoreId} {hold : Bool} {start : BitVec 15} {s : State} {mx : List Instr × Mem} (hh : s.held = mx) : ∃ tv, execCoreHold c hold start s = .next tv ∧ tv.held = mx := by
  unfold execCoreHold
  with_reducible repeat' (first
    | assumption
    | rfl
    | apply next_h
    | apply State.coreCtrl_held)

theorem execCoreWatchdogExpiry_held {c : CoreId} {s : State} {mx : List Instr × Mem} (hh : s.held = mx) : ∃ tv, execCoreWatchdogExpiry c s = .next tv ∧ tv.held = mx := by
  unfold execCoreWatchdogExpiry
  with_reducible repeat' (first
    | (intro _)
    | (extract_lets +onlyGivenNames tv; first | (refine (fun ht : State.held tv = mx => ?_) ?_; clear_value tv; rotate_left; subst tv; rotate_right) | (have hu := tv; clear hu))
    | assumption
    | rfl
    | apply next_h
    | apply State.irq_held
    | apply State.coreWdogReload_held
    | apply State.put_held
    | apply State.raise_held
    | apply State.bump_held
    | apply State.coreReset_held
    | apply ite_h
    | (clear_value *; split))

theorem State.wdogKick_held {s : State} {d : Die} {k : Nat} {key : Nat} {mx : List Instr × Mem} (hh : s.held = mx) : (State.wdogKick s d k key).held = mx := by
  unfold State.wdogKick
  with_reducible repeat' (first
    | (intro _)
    | assumption
    | rfl
    | apply State.coreWdogReload_held
    | apply ite_h)

theorem execCoreWatchdogKick_held {c : CoreId} {key : BitVec 8} {s : State} {mx : List Instr × Mem} (hh : s.held = mx) : ∃ tv, execCoreWatchdogKick c key s = .next tv ∧ tv.held = mx := by
  unfold execCoreWatchdogKick
  with_reducible repeat' (first
    | assumption
    | rfl
    | apply next_h
    | apply State.wdogKick_held)

theorem State.wdogCtrl_held {s : State} {d : Die} {k : Nat} {v : Word} {mx : List Instr × Mem} (hh : s.held = mx) : (State.wdogCtrl s d k v).held = mx := by
  unfold State.wdogCtrl
  with_reducible repeat' (first
    | assumption
    | rfl
    | apply State.writeReg_held
    | apply State.coreWdogReload_held)

theorem execCoreWatchdogCtrlWrite_held {c : CoreId} {value : Word} {s : State} {mx : List Instr × Mem} (hh : s.held = mx) : ∃ tv, execCoreWatchdogCtrlWrite c value s = .next tv ∧ tv.held = mx := by
  unfold execCoreWatchdogCtrlWrite
  with_reducible repeat' (first
    | assumption
    | rfl
    | apply next_h
    | apply State.wdogCtrl_held)

theorem State.swdReload_held {s : State} {mx : List Instr × Mem} (hh : s.held = mx) : (State.swdReload s).held = mx := by
  unfold State.swdReload
  with_reducible repeat' (first
    | assumption
    | rfl
    | apply State.puts_held)

theorem State.swdCtrl_held {s : State} {v : Word} {mx : List Instr × Mem} (hh : s.held = mx) : (State.swdCtrl s v).held = mx := by
  unfold State.swdCtrl
  with_reducible repeat' (first
    | (intro _)
    | (extract_lets +onlyGivenNames tv; first | (refine (fun ht : State.held tv = mx => ?_) ?_; clear_value tv; rotate_left; subst tv; rotate_right) | (have hu := tv; clear hu))
    | assumption
    | rfl
    | apply State.puts_held
    | apply State.swdReload_held
    | apply ite_h
    | (clear_value *; split))

theorem execSwdEnable_held {value : Word} {s : State} {mx : List Instr × Mem} (hh : s.held = mx) : ∃ tv, execSwdEnable value s = .next tv ∧ tv.held = mx := by
  unfold execSwdEnable
  with_reducible repeat' (first
    | assumption
    | rfl
    | apply next_h
    | apply State.swdCtrl_held)

theorem State.swdKick_held {s : State} {key : Nat} {mx : List Instr × Mem} (hh : s.held = mx) : (State.swdKick s key).held = mx := by
  unfold State.swdKick
  with_reducible repeat' (first
    | (intro _)
    | assumption
    | rfl
    | apply State.swdReload_held
    | apply ite_h)

theorem execSwdKick_held {key : BitVec 8} {s : State} {mx : List Instr × Mem} (hh : s.held = mx) : ∃ tv, execSwdKick key s = .next tv ∧ tv.held = mx := by
  unfold execSwdKick
  with_reducible repeat' (first
    | assumption
    | rfl
    | apply next_h
    | apply State.swdKick_held)

theorem State.swdSync_held {s : State} {mx : List Instr × Mem} (hh : s.held = mx) : (State.swdSync s).held = mx := by
  unfold State.swdSync
  with_reducible repeat' (first
    | (intro _)
    | (extract_lets +onlyGivenNames tv; first | (refine (fun ht : State.held tv = mx => ?_) ?_; clear_value tv; rotate_left; subst tv; rotate_right) | (have hu := tv; clear hu))
    | assumption
    | rfl
    | apply State.now_held
    | apply State.put_held
    | apply State.swdReload_held
    | apply ite_h)

theorem State.freezeSys_held {s : State} {icls : Nat} {freeze : Bool} {mx : List Instr × Mem} (hh : s.held = mx) : (State.freezeSys s icls freeze).held = mx := by
  unfold State.freezeSys
  with_reducible repeat' (first
    | (intro _)
    | assumption
    | rfl
    | apply State.put_held
    | apply State.swdSync_held
    | apply ite_h)

theorem execFreezeSysWrite_held {icls : BitVec 3} {freeze : Bool} {s : State} {mx : List Instr × Mem} (hh : s.held = mx) : ∃ tv, execFreezeSysWrite icls freeze s = .next tv ∧ tv.held = mx := by
  unfold execFreezeSysWrite
  with_reducible repeat' (first
    | assumption
    | rfl
    | apply next_h
    | apply State.freezeSys_held)

theorem State.tngUnhalt_ok {s : State} {d : Die} {k : Nat} {mx : List Instr × Mem} (hh : State.Ok mx s) : State.Ok mx (State.tngUnhalt s d k) := by
  unfold State.tngUnhalt
  with_reducible repeat' (first
    | (intro _)
    | assumption
    | exact ok_rfl
    | apply State.tngGo_ok
    | refine State.run_ok ?_ ?_
    | apply ite_ok
    | apply foldl_ok
    | apply ite1_ok
    | apply fold1_ok
    | split
    | (clear_value *; split))

theorem State.haltEnd_ok {s : State} {d : Die} {k : Nat} {step : Bool} {mx : List Instr × Mem} (hh : State.Ok mx s) : State.Ok mx (State.haltEnd s d k step) := by
  unfold State.haltEnd
  with_reducible repeat' (first
    | (intro _)
    | (extract_lets +onlyGivenNames tv; first | (refine (fun ht : State.Ok mx tv => ?_) ?_; clear_value tv; rotate_left; subst tv; rotate_right) | (refine (fun ht : State.Ok mx (Prod.fst tv) => ?_) ?_; clear_value tv; rotate_left; subst tv; rotate_right) | (have hu := tv; clear hu))
    | assumption
    | exact ok_rfl
    | refine ok_of (State.setCstate_held rfl) ?_
    | refine ok_of (State.put_held rfl) ?_
    | refine ok_of (State.clrBit_held rfl) ?_
    | refine ok_of (State.onCore_held rfl) ?_
    | refine ok_of (State.tngSync_held rfl) ?_
    | refine ok_of (State.moreStores_held rfl) ?_
    | refine ok_of (State.coreWdogReload_held rfl) ?_
    | apply State.tngUnhalt_ok
    | apply ite_ok
    | apply foldl_ok
    | apply ite1_ok
    | apply fold1_ok
    | split
    | (clear_value *; split))

theorem execHaltRequest_held {c : CoreId} {s : State} {mx : List Instr × Mem} (hh : s.held = mx) : ∃ tv, execHaltRequest c s = .next tv ∧ tv.held = mx := by
  unfold execHaltRequest
  with_reducible repeat' (first
    | (intro _)
    | assumption
    | rfl
    | apply next_h
    | apply State.haltRequest_held
    | apply ite_h)

theorem execBreakpointMatch_held {c : CoreId} {point : Fin 4} {s : State} {mx : List Instr × Mem} (hh : s.held = mx) : ∃ tv, execBreakpointMatch c point s = .next tv ∧ tv.held = mx := by
  unfold execBreakpointMatch
  with_reducible repeat' (first
    | (intro _)
    | (extract_lets +onlyGivenNames tv; have hu := tv; clear hu)
    | assumption
    | rfl
    | apply next_h
    | apply State.haltRequest_held
    | apply ite_h)

theorem execHaltTakesEffect_held {c : CoreId} {s : State} {mx : List Instr × Mem} (hh : s.held = mx) : ∃ tv, execHaltTakesEffect c s = .next tv ∧ tv.held = mx := by
  unfold execHaltTakesEffect
  with_reducible repeat' (first
    | assumption
    | rfl
    | apply next_h
    | apply State.haltTry_held)

theorem execDebugResume_ok {c : CoreId} {s : State} {mx : List Instr × Mem} (hh : State.Ok mx s) : ∃ tv, execDebugResume c s = .next tv ∧ State.Ok mx tv := by
  unfold execDebugResume
  with_reducible repeat' (first
    | (intro _)
    | assumption
    | exact ok_rfl
    | apply next_ok
    | apply State.haltEnd_ok
    | apply ite_ok)

theorem execDebugStep_ok {c : CoreId} {s : State} {mx : List Instr × Mem} (hh : State.Ok mx s) : ∃ tv, execDebugStep c s = .next tv ∧ State.Ok mx tv := by
  unfold execDebugStep
  with_reducible repeat' (first
    | (intro _)
    | assumption
    | exact ok_rfl
    | apply next_ok
    | apply State.haltEnd_ok
    | apply ite_ok)

theorem State.stackAt_held {s : State} {d : Die} {k : Nat} {e : Nat} {mx : List Instr × Mem} (hh : s.held = mx) : (State.stackAt s d k e).1.held = mx := by
  unfold State.stackAt
  with_reducible repeat' (first
    | (intro _)
    | (extract_lets +onlyGivenNames tv; first | (refine (fun ht : State.held tv = mx => ?_) ?_; clear_value tv; rotate_left; subst tv; rotate_right) | (refine (fun ht : State.held (Prod.fst tv) = mx => ?_) ?_; clear_value tv; rotate_left; subst tv; rotate_right) | (have hu := tv; clear hu))
    | assumption
    | rfl
    | apply State.used_held
    | apply ite_h
    | apply foldl_h
    | apply ite1_h
    | apply fold1_h
    | split
    | (clear_value *; split))
theorem State.stackAt_heldp {s : State} {d : Die} {k : Nat} {e : Nat} {mx : List Instr × Mem} {tv : State} {ov : BitVec 15} (he : State.stackAt s d k e = (tv, ov)) (hh : s.held = mx) : tv.held = mx := by
  have k := State.stackAt_held (s := s) (d := d) (k := k) (e := e) hh
  rw [he] at k; exact k

theorem State.setDepth_held {s : State} {d : Die} {k : Nat} {n : Nat} {mx : List Instr × Mem} (hh : s.held = mx) : (State.setDepth s d k n).held = mx := by
  unfold State.setDepth
  with_reducible repeat' (first
    | (intro _)
    | (extract_lets +onlyGivenNames tv; first | (refine (fun ht : State.held tv = mx => ?_) ?_; clear_value tv; rotate_left; subst tv; rotate_right) | (refine (fun ht : State.held (Prod.fst tv) = mx => ?_) ?_; clear_value tv; rotate_left; subst tv; rotate_right) | (have hu := tv; clear hu))
    | assumption
    | rfl
    | apply State.onCore_held
    | refine State.stackAt_heldp ‹_› ?_
    | apply State.stackAt_held
    | apply ite_h
    | apply foldl_h
    | apply ite1_h
    | apply fold1_h
    | split
    | (clear_value *; split))

theorem State.debugPut_held {s : State} {d : Die} {k : Nat} {code : Nat} {v : Nat} {mx : List Instr × Mem} (hh : s.held = mx) : (State.debugPut s d k code v).held = mx := by
  unfold State.debugPut
  with_reducible repeat' (first
    | (intro _)
    | (extract_lets +onlyGivenNames tv; first | (refine (fun ht : State.held tv = mx => ?_) ?_; clear_value tv; rotate_left; subst tv; rotate_right) | (refine (fun ht : State.held (Prod.fst tv) = mx => ?_) ?_; clear_value tv; rotate_left; subst tv; rotate_right) | (have hu := tv; clear hu))
    | assumption
    | rfl
    | apply State.setDepth_held
    | apply State.put_held
    | apply State.onCore_held
    | apply ite_h
    | apply foldl_h
    | apply ite1_h
    | apply fold1_h
    | split
    | (clear_value *; split))

theorem State.debugRegWrite_held {s : State} {d : Die} {k : Nat} {v : Nat} {mx : List Instr × Mem} (hh : s.held = mx) : (State.debugRegWrite s d k v).held = mx := by
  unfold State.debugRegWrite
  with_reducible repeat' (first
    | (intro _)
    | (extract_lets +onlyGivenNames tv; first | (refine (fun ht : State.held tv = mx => ?_) ?_; clear_value tv; rotate_left; subst tv; rotate_right) | (refine (fun ht : State.held (Prod.fst tv) = mx => ?_) ?_; clear_value tv; rotate_left; subst tv; rotate_right) | (have hu := tv; clear hu))
    | assumption
    | rfl
    | apply State.onCore_held
    | apply State.debugPut_held
    | apply ite_h
    | apply foldl_h
    | apply ite1_h
    | apply fold1_h
    | split
    | (clear_value *; split))

theorem execDebugRegWrite_held {c : CoreId} {value : BitVec 24} {s : State} {mx : List Instr × Mem} (hh : s.held = mx) : ∃ tv, execDebugRegWrite c value s = .next tv ∧ tv.held = mx := by
  unfold execDebugRegWrite
  with_reducible repeat' (first
    | (intro _)
    | assumption
    | rfl
    | apply next_h
    | apply State.debugRegWrite_held
    | apply ite_h)

theorem State.sessionFall_ok {s : State} {mx : List Instr × Mem} (hh : State.Ok mx s) : State.Ok mx (State.sessionFall s) := by
  unfold State.sessionFall
  with_reducible repeat' (first
    | (intro _)
    | (extract_lets +onlyGivenNames tv; first | (refine (fun ht : State.Ok mx tv => ?_) ?_; clear_value tv; rotate_left; subst tv; rotate_right) | (have hu := tv; clear hu))
    | assumption
    | exact ok_rfl
    | refine ok_of (State.puts_held rfl) ?_
    | apply State.haltEnd_ok
    | refine ok_of (State.onCore_held rfl) ?_
    | refine ok_of (State.put_held rfl) ?_
    | refine ok_of (State.swdSync_held rfl) ?_
    | apply ite_ok
    | apply foldl_ok)

theorem State.sessionEnd_ok {s : State} {cause : Nat} {mx : List Instr × Mem} (hh : State.Ok mx s) : State.Ok mx (State.sessionEnd s cause) := by
  unfold State.sessionEnd
  with_reducible repeat' (first
    | (intro _)
    | (extract_lets +onlyGivenNames tv; have hu := tv; clear hu)
    | assumption
    | exact ok_rfl
    | refine ok_of (State.put_held rfl) ?_
    | apply State.sessionFall_ok
    | refine ok_of (State.raise_held rfl) ?_
    | apply ite_ok)

theorem State.tapIr_held {s : State} {ir : Nat} {mx : List Instr × Mem} (hh : s.held = mx) : (State.tapIr s ir).held = mx := by
  unfold State.tapIr
  with_reducible repeat' (first
    | assumption
    | rfl
    | apply State.setTap_held)

theorem execSessionEnd_ok {s : State} {mx : List Instr × Mem} (hh : State.Ok mx s) : ∃ tv, execSessionEnd s = .next tv ∧ State.Ok mx tv := by
  unfold execSessionEnd
  with_reducible repeat' (first
    | assumption
    | exact ok_rfl
    | apply next_ok
    | refine ok_of (State.tapIr_held rfl) ?_
    | apply State.sessionEnd_ok)

theorem execTrstNLow_ok {s : State} {mx : List Instr × Mem} (hh : State.Ok mx s) : ∃ tv, execTrstNLow s = .next tv ∧ State.Ok mx tv := by
  unfold execTrstNLow
  with_reducible repeat' (first
    | assumption
    | exact ok_rfl
    | apply next_ok
    | refine ok_of (State.tapIr_held rfl) ?_
    | apply State.sessionEnd_ok)

theorem execDbgNonce_held {draw : BitVec 128} {s : State} {mx : List Instr × Mem} (hh : s.held = mx) : ∃ tv, execDbgNonce draw s = .next tv ∧ tv.held = mx := by
  unfold execDbgNonce
  with_reducible repeat' (first
    | (intro _)
    | (extract_lets +onlyGivenNames tv; first | (refine (fun ht : State.held tv = mx => ?_) ?_; clear_value tv; rotate_left; subst tv; rotate_right) | (have hu := tv; clear hu))
    | assumption
    | rfl
    | apply next_h
    | apply State.tapIr_held
    | apply State.setDbg_held
    | apply State.emit_held
    | apply ite_h)

theorem execDbgAuth_ok {level : BitVec 8} {response : BitVec 256} {s : State} {mx : List Instr × Mem} (hh : State.Ok mx s) : ∃ tv, execDbgAuth level response s = .next tv ∧ State.Ok mx tv := by
  unfold execDbgAuth
  with_reducible repeat' (first
    | (intro _)
    | (extract_lets +onlyGivenNames tv; first | (refine (fun ht : State.Ok mx tv => ?_) ?_; clear_value tv; rotate_left; subst tv; rotate_right) | (have hu := tv; clear hu))
    | assumption
    | exact ok_rfl
    | apply next_ok
    | refine ok_of (State.tapIr_held rfl) ?_
    | refine ok_of (State.setDbg_held rfl) ?_
    | refine ok_of (State.puts_held rfl) ?_
    | refine ok_of (State.raise_held rfl) ?_
    | apply State.sessionFall_ok
    | refine ok_of (State.swdSync_held rfl) ?_
    | refine ok_of (State.bump_held rfl) ?_
    | refine ok_of (State.put_held rfl) ?_
    | apply ite_ok
    | (clear_value *; split))

theorem execNonceExpiry_held {s : State} {mx : List Instr × Mem} (hh : s.held = mx) : ∃ tv, execNonceExpiry s = .next tv ∧ tv.held = mx := by
  unfold execNonceExpiry
  with_reducible repeat' (first
    | assumption
    | rfl
    | apply next_h
    | apply State.setDbg_held)

theorem execLockoutExpiry_held {s : State} {mx : List Instr × Mem} (hh : s.held = mx) : ∃ tv, execLockoutExpiry s = .next tv ∧ tv.held = mx := by
  unfold execLockoutExpiry
  with_reducible repeat' (first
    | assumption
    | rfl
    | apply next_h
    | apply State.put_held)

theorem execDbgKeyprog_held {slot : BitVec 8} {key : BitVec 256} {s : State} {mx : List Instr × Mem} (hh : s.held = mx) : ∃ tv, execDbgKeyprog slot key s = .next tv ∧ tv.held = mx := by
  unfold execDbgKeyprog
  with_reducible repeat' (first
    | (intro _)
    | (extract_lets +onlyGivenNames tv; first | (refine (fun ht : State.held tv = mx => ?_) ?_; clear_value tv; rotate_left; subst tv; rotate_right) | (have hu := tv; clear hu))
    | assumption
    | rfl
    | apply next_h
    | apply State.tapIr_held
    | apply State.setDbg_held
    | apply State.setBit_held
    | apply ite_h)

theorem execDbgStat_held {s : State} {mx : List Instr × Mem} (hh : s.held = mx) : ∃ tv, execDbgStat s = .next tv ∧ tv.held = mx := by
  unfold execDbgStat
  with_reducible repeat' (first
    | (extract_lets +onlyGivenNames tv; have hu := tv; clear hu)
    | assumption
    | rfl
    | apply next_h
    | apply State.tapIr_held
    | apply State.setAnswer_held
    | apply State.emit_held)

theorem execCrossTriggerFire_held {s : State} {mx : List Instr × Mem} (hh : s.held = mx) : ∃ tv, execCrossTriggerFire s = .next tv ∧ tv.held = mx := by
  unfold execCrossTriggerFire
  with_reducible repeat' (first
    | (intro _)
    | assumption
    | rfl
    | apply next_h
    | apply State.crossTrigger_held
    | apply ite_h)

theorem execDbgAcc_ok {write : Bool} {addr : BitVec 48} {data : Word} {s : State} {mx : List Instr × Mem} (hh : State.Ok mx s) : ∃ tv, execDbgAcc write addr data s = .next tv ∧ State.Ok mx tv := by
  unfold execDbgAcc
  with_reducible repeat' (first
    | (intro _)
    | (extract_lets +onlyGivenNames tv; first | (refine (fun ht : State.Ok mx tv => ?_) ?_; clear_value tv; rotate_left; subst tv; rotate_right) | (refine (fun ht : State.Ok mx (Prod.fst tv) => ?_) ?_; clear_value tv; rotate_left; subst tv; rotate_right) | (have hu := tv; clear hu))
    | assumption
    | exact ok_rfl
    | apply next_ok
    | refine ok_of (State.setDbg_held rfl) ?_
    | refine ok_of (State.put_held rfl) ?_
    | refine ok_of (State.used_held rfl) ?_
    | apply State.request_ok
    | refine ok_of (State.tapIr_held rfl) ?_
    | apply ite_ok
    | apply foldl_ok
    | apply ite1_ok
    | apply fold1_ok
    | split
    | (clear_value *; split))

theorem execDbgAccCapture_held {s : State} {mx : List Instr × Mem} (hh : s.held = mx) : ∃ tv, execDbgAccCapture s = .next tv ∧ tv.held = mx := by
  unfold execDbgAccCapture
  with_reducible repeat' (first
    | (intro _)
    | (extract_lets +onlyGivenNames tv; have hu := tv; clear hu)
    | assumption
    | rfl
    | apply next_h
    | apply State.setAnswer_held
    | apply State.emit_held)

end Sys2Proof.Machine
end

