-- ==== Sys2Proof/Laws/HeldLanes.lean ====
section
/-! SUPPORT. For each operation of Machine/Lanes.lean: the queue and the memory it keeps (`_held`), or, where it stores, that the queue stays and the memory keeps its canonical form (`_ok`). -/

namespace Sys2Proof.Machine
open Sys2Proof
set_option linter.tactic.unusedName false

theorem State.onLane_held {s : State} {d : Die} {l : Nat} {f : Lane → Lane} {mx : List Instr × Mem} (hh : s.held = mx) : (State.onLane s d l f).held = mx := by
  unfold State.onLane
  with_reducible repeat' (first
    | assumption
    | rfl
    | apply State.setLanes_held)

theorem State.setPort_held {s : State} {d : Die} {p : Nat} {x : PktPort} {mx : List Instr × Mem} (hh : s.held = mx) : (State.setPort s d p x).held = mx := by
  unfold State.setPort
  with_reducible repeat' (first
    | (intro _)
    | assumption
    | rfl
    | apply State.setPorts_held
    | apply ite_h
    | apply foldl_h
    | apply ite1_h
    | apply fold1_h
    | split
    | (clear_value *; split))

theorem State.setLaneSt_held {s : State} {d : Die} {l : Nat} {n : Nat} {mx : List Instr × Mem} (hh : s.held = mx) : (State.setLaneSt s d l n).held = mx := by
  unfold State.setLaneSt
  with_reducible repeat' (first
    | assumption
    | rfl
    | apply State.put_held)

theorem State.onPort_held {s : State} {d : Die} {l : Nat} {f : State → Nat → State} {mx : List Instr × Mem} (hh : s.held = mx) (hf : ∀ x0 x1, x0.held = mx → (f x0 x1).held = mx) : (State.onPort s d l f).held = mx := by
  unfold State.onPort
  with_reducible repeat' (first
    | (intro _)
    | apply hf
    | assumption
    | rfl
    | apply ite_h
    | apply foldl_h
    | apply ite1_h
    | apply fold1_h
    | split
    | (clear_value *; split))
theorem State.onPort_ok {s : State} {d : Die} {l : Nat} {f : State → Nat → State} {mx : List Instr × Mem} (hh : State.Ok mx s) (hf : ∀ x0 x1, State.Ok mx x0 → State.Ok mx (f x0 x1)) : State.Ok mx (State.onPort s d l f) := by
  unfold State.onPort
  with_reducible repeat' (first
    | (intro _)
    | apply hf
    | assumption
    | exact ok_rfl
    | apply ite_ok
    | apply foldl_ok
    | apply ite1_ok
    | apply fold1_ok
    | split
    | (clear_value *; split))

theorem State.rclkSync_held {s : State} {mx : List Instr × Mem} (hh : s.held = mx) : (State.rclkSync s).held = mx := by
  unfold State.rclkSync
  with_reducible repeat' (first
    | assumption
    | rfl
    | apply State.setPins_held)

theorem State.squelchOne_held {s : State} {d : Die} {n : Nat} {mx : List Instr × Mem} (hh : s.held = mx) : (State.squelchOne s d n).held = mx := by
  unfold State.squelchOne
  with_reducible repeat' (first
    | (extract_lets +onlyGivenNames tv; first | (refine (fun ht : State.held tv = mx => ?_) ?_; clear_value tv; rotate_left; subst tv; rotate_right) | (have hu := tv; clear hu))
    | assumption
    | rfl
    | apply State.puts_held
    | apply State.rclkSync_held
    | apply State.raise_held)

theorem State.squelch_held {s : State} {d : Die} {l : Nat} {mx : List Instr × Mem} (hh : s.held = mx) : (State.squelch s d l).held = mx := by
  unfold State.squelch
  with_reducible repeat' (first
    | (intro _)
    | assumption
    | rfl
    | apply State.squelchOne_held
    | apply ite_h
    | apply foldl_h)

theorem State.lanePhy_held {s : State} {d : Die} {l : Nat} {rate : Nat} {locked : Nat} {mx : List Instr × Mem} (hh : s.held = mx) : (State.lanePhy s d l rate locked).held = mx := by
  unfold State.lanePhy
  with_reducible repeat' (first
    | (intro _)
    | (extract_lets +onlyGivenNames tv; first | (refine (fun ht : State.held tv = mx => ?_) ?_; clear_value tv; rotate_left; subst tv; rotate_right) | (refine (fun ht : State.held (Prod.fst tv) = mx => ?_) ?_; clear_value tv; rotate_left; subst tv; rotate_right) | (have hu := tv; clear hu))
    | assumption
    | rfl
    | apply State.puts_held
    | apply State.squelch_held
    | apply ite_h
    | apply foldl_h
    | apply ite1_h
    | apply fold1_h
    | split
    | (clear_value *; split))

theorem State.laneUnlock_held {s : State} {d : Die} {l : Nat} {mx : List Instr × Mem} (hh : s.held = mx) : (State.laneUnlock s d l).held = mx := by
  unfold State.laneUnlock
  with_reducible repeat' (first
    | (intro _)
    | assumption
    | rfl
    | apply State.lanePhy_held
    | apply ite_h
    | apply foldl_h
    | apply ite1_h
    | apply fold1_h
    | split
    | (clear_value *; split))

theorem State.rckWrite_held {s : State} {d : Die} {n : Nat} {v : Word} {mx : List Instr × Mem} (hh : s.held = mx) : (State.rckWrite s d n v).held = mx := by
  unfold State.rckWrite
  with_reducible repeat' (first
    | (intro _)
    | (extract_lets +onlyGivenNames tv; first | (refine (fun ht : State.held tv = mx => ?_) ?_; clear_value tv; rotate_left; subst tv; rotate_right) | (have hu := tv; clear hu))
    | assumption
    | rfl
    | apply State.writeReg_held
    | apply State.rclkSync_held
    | apply State.put_held
    | apply State.squelchOne_held
    | apply ite_h)

theorem execRecoveredClockEnable_held {die : PDie} {selector : Fin 2} {value : Word} {s : State} {mx : List Instr × Mem} (hh : s.held = mx) : ∃ tv, execRecoveredClockEnable die selector value s = .next tv ∧ tv.held = mx := by
  unfold execRecoveredClockEnable
  with_reducible repeat' (first
    | assumption
    | rfl
    | apply next_h
    | apply State.rckWrite_held)

theorem State.laneLink_held {s : State} {d : Die} {l : Nat} {up : Nat} {cause : Nat} {mx : List Instr × Mem} (hh : s.held = mx) : (State.laneLink s d l up cause).held = mx := by
  unfold State.laneLink
  with_reducible repeat' (first
    | (extract_lets +onlyGivenNames tv; have hu := tv; clear hu)
    | assumption
    | rfl
    | apply State.raise_held)

theorem State.laneLeave_held {s : State} {d : Die} {l : Nat} {st : Nat} {cause : Nat} {mx : List Instr × Mem} (hh : s.held = mx) : (State.laneLeave s d l st cause).held = mx := by
  unfold State.laneLeave
  with_reducible repeat' (first
    | (intro _)
    | (extract_lets +onlyGivenNames tv; first | (refine (fun ht : State.held tv = mx => ?_) ?_; clear_value tv; rotate_left; subst tv; rotate_right) | (refine (fun ht : State.held (Prod.fst tv) = mx => ?_) ?_; clear_value tv; rotate_left; subst tv; rotate_right) | (have hu := tv; clear hu))
    | assumption
    | rfl
    | apply State.setPorts_held
    | apply State.setLaneSt_held
    | apply State.bump_held
    | apply State.onLane_held
    | apply State.squelch_held
    | apply State.laneLink_held
    | apply ite_h
    | apply foldl_h
    | apply ite1_h
    | apply fold1_h
    | split
    | (clear_value *; split))

theorem State.laneUp_held {s : State} {d : Die} {l : Nat} {mx : List Instr × Mem} (hh : s.held = mx) : (State.laneUp s d l).held = mx := by
  unfold State.laneUp
  with_reducible repeat' (first
    | assumption
    | rfl
    | apply State.setLaneSt_held
    | apply State.laneLink_held)

theorem State.laneEnd_held {s : State} {d : Die} {l : Nat} {result : Nat} {mx : List Instr × Mem} (hh : s.held = mx) : (State.laneEnd s d l result).held = mx := by
  unfold State.laneEnd
  with_reducible repeat' (first
    | (extract_lets +onlyGivenNames tv; first | (refine (fun ht : State.held tv = mx => ?_) ?_; clear_value tv; rotate_left; subst tv; rotate_right) | (have hu := tv; clear hu))
    | assumption
    | rfl
    | apply State.put_held
    | apply State.raise_held)

theorem State.portHeld_held {s : State} {d : Die} {l : Nat} {result : Nat} {abort : Bool} {mx : List Instr × Mem} (hh : s.held = mx) : (State.portHeld s d l result abort).held = mx := by
  unfold State.portHeld
  with_reducible repeat' (first
    | (intro _)
    | (extract_lets +onlyGivenNames tv; first | (refine (fun ht : State.held tv = mx => ?_) ?_; clear_value tv; rotate_left; subst tv; rotate_right) | (refine (fun ht : State.held (Prod.fst tv) = mx => ?_) ?_; clear_value tv; rotate_left; subst tv; rotate_right) | (have hu := tv; clear hu))
    | assumption
    | rfl
    | apply State.onLane_held
    | refine State.onPort_held ?_ ?_
    | apply State.lanePhy_held
    | apply State.laneLeave_held
    | apply State.laneEnd_held
    | apply ite_h
    | apply foldl_h
    | apply ite1_h
    | apply fold1_h
    | split
    | (clear_value *; split))

theorem State.portCommit_held {s : State} {d : Die} {l : Nat} {mx : List Instr × Mem} (hh : s.held = mx) : (State.portCommit s d l).held = mx := by
  unfold State.portCommit
  with_reducible repeat' (first
    | (intro _)
    | (extract_lets +onlyGivenNames tv; first | (refine (fun ht : State.held tv = mx => ?_) ?_; clear_value tv; rotate_left; subst tv; rotate_right) | (refine (fun ht : State.held (Prod.fst tv) = mx => ?_) ?_; clear_value tv; rotate_left; subst tv; rotate_right) | (have hu := tv; clear hu))
    | assumption
    | rfl
    | apply State.puts_held
    | apply State.onLane_held
    | refine State.onPort_held ?_ ?_
    | apply State.laneUp_held
    | apply State.laneEnd_held
    | apply ite_h
    | apply foldl_h
    | apply ite1_h
    | apply fold1_h
    | split
    | (clear_value *; split))

theorem State.c73Send_held {s : State} {d : Die} {l : Nat} {mx : List Instr × Mem} (hh : s.held = mx) : (State.c73Send s d l).held = mx := by
  unfold State.c73Send
  with_reducible repeat' (first
    | (intro _)
    | (extract_lets +onlyGivenNames tv; first | (refine (fun ht : State.held tv = mx => ?_) ?_; clear_value tv; rotate_left; subst tv; rotate_right) | (refine (fun ht : State.held (Prod.fst tv) = mx => ?_) ?_; clear_value tv; rotate_left; subst tv; rotate_right) | (have hu := tv; clear hu))
    | assumption
    | rfl
    | apply State.used_held
    | apply State.emit_held
    | apply State.onLane_held
    | apply ite_h
    | apply foldl_h
    | apply ite1_h
    | apply fold1_h
    | split
    | (clear_value *; split))

theorem State.presenceEnd_held {s : State} {d : Die} {l : Nat} {mx : List Instr × Mem} (hh : s.held = mx) : (State.presenceEnd s d l).held = mx := by
  unfold State.presenceEnd
  with_reducible repeat' (first
    | (intro _)
    | assumption
    | rfl
    | apply State.put_held
    | apply State.raise_held
    | apply ite_h
    | apply foldl_h
    | apply ite1_h
    | apply fold1_h
    | split
    | (clear_value *; split))

theorem State.fixedGo_held {s : State} {d : Die} {l : Nat} {mx : List Instr × Mem} (hh : s.held = mx) : (State.fixedGo s d l).held = mx := by
  unfold State.fixedGo
  with_reducible repeat' (first
    | (intro _)
    | (extract_lets +onlyGivenNames tv; first | (refine (fun ht : State.held tv = mx => ?_) ?_; clear_value tv; rotate_left; subst tv; rotate_right) | (refine (fun ht : State.held (Prod.fst tv) = mx => ?_) ?_; clear_value tv; rotate_left; subst tv; rotate_right) | (have hu := tv; clear hu))
    | assumption
    | rfl
    | apply State.setLaneSt_held
    | apply State.lanePhy_held
    | apply State.laneEnd_held
    | apply ite_h
    | apply foldl_h
    | apply ite1_h
    | apply fold1_h
    | split
    | (clear_value *; split))

theorem State.laneStart_held {s : State} {d : Die} {l : Nat} {mx : List Instr × Mem} (hh : s.held = mx) : (State.laneStart s d l).held = mx := by
  unfold State.laneStart
  with_reducible repeat' (first
    | (intro _)
    | (extract_lets +onlyGivenNames tv; first | (refine (fun ht : State.held tv = mx => ?_) ?_; clear_value tv; rotate_left; subst tv; rotate_right) | (refine (fun ht : State.held (Prod.fst tv) = mx => ?_) ?_; clear_value tv; rotate_left; subst tv; rotate_right) | (have hu := tv; clear hu))
    | assumption
    | rfl
    | apply State.puts_held
    | apply State.onLane_held
    | apply State.lanePhy_held
    | apply State.laneUnlock_held
    | apply State.laneLeave_held
    | apply State.c73Send_held
    | apply State.presenceEnd_held
    | apply State.fixedGo_held
    | apply ite_h
    | apply foldl_h
    | apply ite1_h
    | apply fold1_h
    | split
    | (clear_value *; split))

theorem State.portStart_held {s : State} {d : Die} {l : Nat} {cause : Nat} {mx : List Instr × Mem} (hh : s.held = mx) : (State.portStart s d l cause).held = mx := by
  unfold State.portStart
  with_reducible repeat' (first
    | (intro _)
    | assumption
    | rfl
    | refine State.onPort_held ?_ ?_
    | apply State.laneLeave_held
    | apply State.laneStart_held
    | apply ite_h
    | apply foldl_h
    | apply ite1_h
    | apply fold1_h
    | split
    | (clear_value *; split))

theorem State.partnerArrive_held {s : State} {d : Die} {l : Nat} {mx : List Instr × Mem} (hh : s.held = mx) : (State.partnerArrive s d l).held = mx := by
  unfold State.partnerArrive
  with_reducible repeat' (first
    | (intro _)
    | (extract_lets +onlyGivenNames tv; first | (refine (fun ht : State.held tv = mx => ?_) ?_; clear_value tv; rotate_left; subst tv; rotate_right) | (refine (fun ht : State.held (Prod.fst tv) = mx => ?_) ?_; clear_value tv; rotate_left; subst tv; rotate_right) | (have hu := tv; clear hu))
    | assumption
    | rfl
    | apply State.put_held
    | apply State.raise_held
    | apply State.fixedGo_held
    | apply State.laneStart_held
    | apply ite_h
    | apply foldl_h
    | apply ite1_h
    | apply fold1_h
    | split
    | (clear_value *; split))

theorem State.partnerLeave_held {s : State} {d : Die} {l : Nat} {mx : List Instr × Mem} (hh : s.held = mx) : (State.partnerLeave s d l).held = mx := by
  unfold State.partnerLeave
  with_reducible repeat' (first
    | (intro _)
    | (extract_lets +onlyGivenNames tv; first | (refine (fun ht : State.held tv = mx => ?_) ?_; clear_value tv; rotate_left; subst tv; rotate_right) | (refine (fun ht : State.held (Prod.fst tv) = mx => ?_) ?_; clear_value tv; rotate_left; subst tv; rotate_right) | (have hu := tv; clear hu))
    | assumption
    | rfl
    | apply State.put_held
    | apply State.raise_held
    | apply State.onLane_held
    | apply State.lanePhy_held
    | apply State.laneLeave_held
    | apply State.laneEnd_held
    | apply ite_h
    | apply foldl_h
    | apply ite1_h
    | apply fold1_h
    | split
    | (clear_value *; split))

theorem execReceiverDetect_held {die : PDie} {lane : Fin 48} {found : Bool} {s : State} {mx : List Instr × Mem} (hh : s.held = mx) : ∃ tv, execReceiverDetect die lane found s = .next tv ∧ tv.held = mx := by
  unfold execReceiverDetect
  with_reducible repeat' (first
    | (intro _)
    | (extract_lets +onlyGivenNames tv; first | (refine (fun ht : State.held tv = mx => ?_) ?_; clear_value tv; rotate_left; subst tv; rotate_right) | (have hu := tv; clear hu))
    | assumption
    | rfl
    | apply next_h
    | apply State.onLane_held
    | apply State.partnerArrive_held
    | apply State.partnerLeave_held
    | apply ite_h
    | (clear_value *; split))

theorem execSignalDetectChange_held {die : PDie} {lane : Fin 48} {energy : Bool} {s : State} {mx : List Instr × Mem} (hh : s.held = mx) : ∃ tv, execSignalDetectChange die lane energy s = .next tv ∧ tv.held = mx := by
  unfold execSignalDetectChange
  with_reducible repeat' (first
    | (intro _)
    | (extract_lets +onlyGivenNames tv; first | (refine (fun ht : State.held tv = mx => ?_) ?_; clear_value tv; rotate_left; subst tv; rotate_right) | (have hu := tv; clear hu))
    | assumption
    | rfl
    | apply next_h
    | apply State.put_held
    | apply State.onLane_held
    | apply State.partnerArrive_held
    | apply ite_h)

theorem State.stepFail_held {s : State} {d : Die} {l : Nat} {mx : List Instr × Mem} (hh : s.held = mx) : (State.stepFail s d l).held = mx := by
  unfold State.stepFail
  with_reducible repeat' (first
    | (intro _)
    | (extract_lets +onlyGivenNames tv; first | (refine (fun ht : State.held tv = mx => ?_) ?_; clear_value tv; rotate_left; subst tv; rotate_right) | (refine (fun ht : State.held (Prod.fst tv) = mx => ?_) ?_; clear_value tv; rotate_left; subst tv; rotate_right) | (have hu := tv; clear hu))
    | assumption
    | rfl
    | apply State.setLaneSt_held
    | apply State.onLane_held
    | refine State.onPort_held ?_ ?_
    | apply State.lanePhy_held
    | apply ite_h
    | apply foldl_h
    | apply ite1_h
    | apply fold1_h
    | split
    | (clear_value *; split))

theorem State.stepSettle_held {s : State} {d : Die} {l : Nat} {abort : Bool} {mx : List Instr × Mem} (hh : s.held = mx) : (State.stepSettle s d l abort).held = mx := by
  unfold State.stepSettle
  with_reducible repeat' (first
    | (intro _)
    | (extract_lets +onlyGivenNames tv; first | (refine (fun ht : State.held tv = mx => ?_) ?_; clear_value tv; rotate_left; subst tv; rotate_right) | (refine (fun ht : State.held (Prod.fst tv) = mx => ?_) ?_; clear_value tv; rotate_left; subst tv; rotate_right) | (have hu := tv; clear hu))
    | assumption
    | rfl
    | apply State.put_held
    | refine State.onPort_held ?_ ?_
    | apply State.lanePhy_held
    | apply State.portCommit_held
    | apply State.stepFail_held
    | apply ite_h
    | apply foldl_h
    | apply ite1_h
    | apply fold1_h
    | split
    | (clear_value *; split))

theorem State.stepChoose_held {s : State} {d : Die} {l : Nat} {mx : List Instr × Mem} (hh : s.held = mx) : (State.stepChoose s d l).held = mx := by
  unfold State.stepChoose
  with_reducible repeat' (first
    | (intro _)
    | (extract_lets +onlyGivenNames tv; first | (refine (fun ht : State.held tv = mx => ?_) ?_; clear_value tv; rotate_left; subst tv; rotate_right) | (have hu := tv; clear hu))
    | assumption
    | rfl
    | apply State.put_held
    | apply State.onLane_held
    | apply State.portHeld_held
    | apply ite_h)

theorem State.laneAbort_held {s : State} {d : Die} {l : Nat} {mx : List Instr × Mem} (hh : s.held = mx) : (State.laneAbort s d l).held = mx := by
  unfold State.laneAbort
  with_reducible repeat' (first
    | (intro _)
    | assumption
    | rfl
    | apply State.portHeld_held
    | apply ite_h)

theorem State.abortIf_held {s : State} {d : Die} {l : Nat} {abort : Bool} {mx : List Instr × Mem} (hh : s.held = mx) : (State.abortIf s d l abort).held = mx := by
  unfold State.abortIf
  with_reducible repeat' (first
    | (intro _)
    | assumption
    | rfl
    | apply State.laneAbort_held
    | apply ite_h
    | apply foldl_h
    | apply ite1_h
    | apply fold1_h
    | split
    | (clear_value *; split))

theorem execSurveyFrameSend_held {die : PDie} {lane : Fin 48} {abort : Bool} {s : State} {mx : List Instr × Mem} (hh : s.held = mx) : ∃ tv, execSurveyFrameSend die lane abort s = .next tv ∧ tv.held = mx := by
  unfold execSurveyFrameSend
  with_reducible repeat' (first
    | (intro _)
    | (extract_lets +onlyGivenNames tv; first | (refine (fun ht : State.held tv = mx => ?_) ?_; clear_value tv; rotate_left; subst tv; rotate_right) | (refine (fun ht : State.held (Prod.fst tv) = mx => ?_) ?_; clear_value tv; rotate_left; subst tv; rotate_right) | (have hu := tv; clear hu))
    | assumption
    | rfl
    | apply next_h
    | apply State.emit_held
    | apply State.onLane_held
    | apply State.stepSettle_held
    | apply State.stepChoose_held
    | apply State.abortIf_held
    | apply ite_h
    | apply foldl_h
    | apply ite1_h
    | apply fold1_h
    | split
    | (clear_value *; split))

theorem execSurveyCapReceived_held {die : PDie} {lane : Fin 48} {frame : BitVec 224} {s : State} {mx : List Instr × Mem} (hh : s.held = mx) : ∃ tv, execSurveyCapReceived die lane frame s = .next tv ∧ tv.held = mx := by
  unfold execSurveyCapReceived
  with_reducible repeat' (first
    | (intro _)
    | (extract_lets +onlyGivenNames tv; first | (refine (fun ht : State.held tv = mx => ?_) ?_; clear_value tv; rotate_left; subst tv; rotate_right) | (refine (fun ht : State.held (Prod.fst tv) = mx => ?_) ?_; clear_value tv; rotate_left; subst tv; rotate_right) | (have hu := tv; clear hu))
    | assumption
    | rfl
    | apply next_h
    | apply State.puts_held
    | apply State.onLane_held
    | apply State.portHeld_held
    | apply State.stepChoose_held
    | apply ite_h
    | apply foldl_h
    | apply ite1_h
    | apply fold1_h
    | split
    | (clear_value *; split))

theorem execSurveyStepReqReceived_held {die : PDie} {lane : Fin 48} {frame : BitVec 224} {s : State} {mx : List Instr × Mem} (hh : s.held = mx) : ∃ tv, execSurveyStepReqReceived die lane frame s = .next tv ∧ tv.held = mx := by
  unfold execSurveyStepReqReceived
  with_reducible repeat' (first
    | (intro _)
    | (extract_lets +onlyGivenNames tv; first | (refine (fun ht : State.held tv = mx => ?_) ?_; clear_value tv; rotate_left; subst tv; rotate_right) | (refine (fun ht : State.held (Prod.fst tv) = mx => ?_) ?_; clear_value tv; rotate_left; subst tv; rotate_right) | (have hu := tv; clear hu))
    | assumption
    | rfl
    | apply next_h
    | apply State.onLane_held
    | apply ite_h
    | apply foldl_h
    | apply ite1_h
    | apply fold1_h
    | split
    | (clear_value *; split))

theorem execSurveyRateSwitch_held {die : PDie} {lane : Fin 48} {s : State} {mx : List Instr × Mem} (hh : s.held = mx) : ∃ tv, execSurveyRateSwitch die lane s = .next tv ∧ tv.held = mx := by
  unfold execSurveyRateSwitch
  with_reducible repeat' (first
    | (intro _)
    | (extract_lets +onlyGivenNames tv; first | (refine (fun ht : State.held tv = mx => ?_) ?_; clear_value tv; rotate_left; subst tv; rotate_right) | (refine (fun ht : State.held (Prod.fst tv) = mx => ?_) ?_; clear_value tv; rotate_left; subst tv; rotate_right) | (have hu := tv; clear hu))
    | assumption
    | rfl
    | apply next_h
    | apply State.onLane_held
    | refine State.onPort_held ?_ ?_
    | apply State.lanePhy_held
    | apply State.laneLeave_held
    | apply ite_h
    | apply foldl_h
    | apply ite1_h
    | apply fold1_h
    | split
    | (clear_value *; split))

theorem execLaneTrainingDone_held {die : PDie} {lane : Fin 48} {s : State} {mx : List Instr × Mem} (hh : s.held = mx) : ∃ tv, execLaneTrainingDone die lane s = .next tv ∧ tv.held = mx := by
  unfold execLaneTrainingDone
  with_reducible repeat' (first
    | (intro _)
    | (extract_lets +onlyGivenNames tv; have hu := tv; clear hu)
    | assumption
    | rfl
    | apply next_h
    | apply State.put_held
    | apply ite_h)

theorem execSurveyStepDoneReceived_held {die : PDie} {lane : Fin 48} {frame : BitVec 224} {abort : Bool} {s : State} {mx : List Instr × Mem} (hh : s.held = mx) : ∃ tv, execSurveyStepDoneReceived die lane frame abort s = .next tv ∧ tv.held = mx := by
  unfold execSurveyStepDoneReceived
  with_reducible repeat' (first
    | (intro _)
    | (extract_lets +onlyGivenNames tv; first | (refine (fun ht : State.held tv = mx => ?_) ?_; clear_value tv; rotate_left; subst tv; rotate_right) | (refine (fun ht : State.held (Prod.fst tv) = mx => ?_) ?_; clear_value tv; rotate_left; subst tv; rotate_right) | (have hu := tv; clear hu))
    | assumption
    | rfl
    | apply next_h
    | apply State.put_held
    | apply State.onLane_held
    | apply State.stepSettle_held
    | apply State.abortIf_held
    | apply ite_h
    | apply foldl_h
    | apply ite1_h
    | apply fold1_h
    | split
    | (clear_value *; split))

theorem execSurveyHoldReceived_held {die : PDie} {lane : Fin 48} {frame : BitVec 224} {s : State} {mx : List Instr × Mem} (hh : s.held = mx) : ∃ tv, execSurveyHoldReceived die lane frame s = .next tv ∧ tv.held = mx := by
  unfold execSurveyHoldReceived
  with_reducible repeat' (first
    | (intro _)
    | assumption
    | rfl
    | apply next_h
    | apply State.portHeld_held
    | apply ite_h)

theorem State.c73Restart_held {s : State} {d : Die} {l : Nat} {mx : List Instr × Mem} (hh : s.held = mx) : (State.c73Restart s d l).held = mx := by
  unfold State.c73Restart
  with_reducible repeat' (first
    | (intro _)
    | assumption
    | rfl
    | apply State.setLaneSt_held
    | apply State.onLane_held
    | refine State.onPort_held ?_ ?_
    | apply State.lanePhy_held
    | apply State.c73Send_held
    | apply ite_h
    | apply foldl_h
    | apply ite1_h
    | apply fold1_h
    | split
    | (clear_value *; split))

theorem execLaneTrainingTimeout_held {die : PDie} {lane : Fin 48} {s : State} {mx : List Instr × Mem} (hh : s.held = mx) : ∃ tv, execLaneTrainingTimeout die lane s = .next tv ∧ tv.held = mx := by
  unfold execLaneTrainingTimeout
  with_reducible repeat' (first
    | (intro _)
    | (extract_lets +onlyGivenNames tv; have hu := tv; clear hu)
    | assumption
    | rfl
    | apply next_h
    | apply State.stepFail_held
    | apply State.c73Restart_held
    | apply ite_h
    | split
    | (clear_value *; split))

theorem execStepDoneTimeout_held {die : PDie} {lane : Fin 48} {s : State} {mx : List Instr × Mem} (hh : s.held = mx) : ∃ tv, execStepDoneTimeout die lane s = .next tv ∧ tv.held = mx := by
  unfold execStepDoneTimeout
  with_reducible repeat' (first
    | (intro _)
    | (extract_lets +onlyGivenNames tv; have hu := tv; clear hu)
    | assumption
    | rfl
    | apply next_h
    | apply State.stepFail_held
    | apply ite_h)

theorem execLanSilent_held {die : PDie} {lane : Fin 48} {s : State} {mx : List Instr × Mem} (hh : s.held = mx) : ∃ tv, execLanSilent die lane s = .next tv ∧ tv.held = mx := by
  unfold execLanSilent
  with_reducible repeat' (first
    | (intro _)
    | (extract_lets +onlyGivenNames tv; first | (refine (fun ht : State.held tv = mx => ?_) ?_; clear_value tv; rotate_left; subst tv; rotate_right) | (refine (fun ht : State.held (Prod.fst tv) = mx => ?_) ?_; clear_value tv; rotate_left; subst tv; rotate_right) | (have hu := tv; clear hu))
    | assumption
    | rfl
    | apply next_h
    | apply State.raise_held
    | apply State.onLane_held
    | apply ite_h
    | apply foldl_h
    | apply ite1_h
    | apply fold1_h
    | split
    | (clear_value *; split))

theorem execLaneAbort_held {die : PDie} {lane : Fin 48} {s : State} {mx : List Instr × Mem} (hh : s.held = mx) : ∃ tv, execLaneAbort die lane s = .next tv ∧ tv.held = mx := by
  unfold execLaneAbort
  with_reducible repeat' (first
    | assumption
    | rfl
    | apply next_h
    | apply State.laneAbort_held)

theorem execC73PageReceived_held {die : PDie} {lane : Fin 48} {types : BitVec 11} {complete : Bool} {s : State} {mx : List Instr × Mem} (hh : s.held = mx) : ∃ tv, execC73PageReceived die lane types complete s = .next tv ∧ tv.held = mx := by
  unfold execC73PageReceived
  with_reducible repeat' (first
    | (intro _)
    | (extract_lets +onlyGivenNames tv; first | (refine (fun ht : State.held tv = mx => ?_) ?_; clear_value tv; rotate_left; subst tv; rotate_right) | (refine (fun ht : State.held (Prod.fst tv) = mx => ?_) ?_; clear_value tv; rotate_left; subst tv; rotate_right) | (have hu := tv; clear hu))
    | assumption
    | rfl
    | apply next_h
    | apply State.put_held
    | apply State.emit_held
    | apply State.onLane_held
    | refine State.onPort_held ?_ ?_
    | apply State.lanePhy_held
    | apply State.laneLeave_held
    | apply ite_h
    | apply foldl_h
    | apply ite1_h
    | apply fold1_h
    | split
    | (clear_value *; split))

theorem execC73TimerFailure_held {die : PDie} {lane : Fin 48} {s : State} {mx : List Instr × Mem} (hh : s.held = mx) : ∃ tv, execC73TimerFailure die lane s = .next tv ∧ tv.held = mx := by
  unfold execC73TimerFailure
  with_reducible repeat' (first
    | (intro _)
    | (extract_lets +onlyGivenNames tv; have hu := tv; clear hu)
    | assumption
    | rfl
    | apply next_h
    | apply State.c73Restart_held
    | apply ite_h
    | (clear_value *; split))

theorem State.pcsLock_held {s : State} {d : Die} {l : Nat} {mx : List Instr × Mem} (hh : s.held = mx) : (State.pcsLock s d l).held = mx := by
  unfold State.pcsLock
  with_reducible repeat' (first
    | (intro _)
    | assumption
    | rfl
    | apply State.setPort_held
    | apply ite_h
    | apply foldl_h
    | apply ite1_h
    | apply fold1_h
    | split
    | (clear_value *; split))

theorem execPcsLinkUp_held {die : PDie} {lane : Fin 48} {s : State} {mx : List Instr × Mem} (hh : s.held = mx) : ∃ tv, execPcsLinkUp die lane s = .next tv ∧ tv.held = mx := by
  unfold execPcsLinkUp
  with_reducible repeat' (first
    | (intro _)
    | (extract_lets +onlyGivenNames tv; first | (refine (fun ht : State.held tv = mx => ?_) ?_; clear_value tv; rotate_left; subst tv; rotate_right) | (refine (fun ht : State.held (Prod.fst tv) = mx => ?_) ?_; clear_value tv; rotate_left; subst tv; rotate_right) | (have hu := tv; clear hu))
    | assumption
    | rfl
    | apply next_h
    | apply State.portCommit_held
    | apply State.pcsLock_held
    | apply ite_h
    | apply foldl_h
    | apply ite1_h
    | apply fold1_h
    | split
    | (clear_value *; split))

theorem State.putFom_held {s : State} {d : Die} {l : Nat} {w : Nat} {h : Nat} {mx : List Instr × Mem} (hh : s.held = mx) : (State.putFom s d l w h).held = mx := by
  unfold State.putFom
  with_reducible repeat' (first
    | (intro _)
    | assumption
    | rfl
    | apply State.puts_held
    | apply State.onLane_held)

theorem State.fixedSettle_held {s : State} {d : Die} {l : Nat} {mx : List Instr × Mem} (hh : s.held = mx) : (State.fixedSettle s d l).held = mx := by
  unfold State.fixedSettle
  with_reducible repeat' (first
    | (intro _)
    | assumption
    | rfl
    | apply State.portCommit_held
    | apply ite_h
    | apply foldl_h
    | apply ite1_h
    | apply fold1_h
    | split
    | (clear_value *; split))

theorem execCdrLock_held {die : PDie} {lane : Fin 48} {w : List (BitVec 64)} {h : List (BitVec 128)} {s : State} {mx : List Instr × Mem} (hh : s.held = mx) : ∃ tv, execCdrLock die lane w h s = .next tv ∧ tv.held = mx := by
  unfold execCdrLock
  with_reducible repeat' (first
    | (intro _)
    | (extract_lets +onlyGivenNames tv; first | (refine (fun ht : State.held tv = mx => ?_) ?_; clear_value tv; rotate_left; subst tv; rotate_right) | (refine (fun ht : State.held (Prod.fst tv) = mx => ?_) ?_; clear_value tv; rotate_left; subst tv; rotate_right) | (have hu := tv; clear hu))
    | assumption
    | rfl
    | apply next_h
    | apply State.put_held
    | apply State.putFom_held
    | apply State.fixedSettle_held
    | apply ite_h
    | apply foldl_h
    | apply ite1_h
    | apply fold1_h
    | split
    | (clear_value *; split))

theorem execFixedRateTimeout_held {die : PDie} {lane : Fin 48} {s : State} {mx : List Instr × Mem} (hh : s.held = mx) : ∃ tv, execFixedRateTimeout die lane s = .next tv ∧ tv.held = mx := by
  unfold execFixedRateTimeout
  with_reducible repeat' (first
    | (intro _)
    | (extract_lets +onlyGivenNames tv; have hu := tv; clear hu)
    | assumption
    | rfl
    | apply next_h
    | apply State.laneEnd_held
    | apply ite_h)

theorem State.laneRecover_held {s : State} {d : Die} {l : Nat} {what : Nat} {mx : List Instr × Mem} (hh : s.held = mx) : (State.laneRecover s d l what).held = mx := by
  unfold State.laneRecover
  with_reducible repeat' (first
    | assumption
    | rfl
    | apply State.raise_held)

theorem State.recoverStart_held {s : State} {d : Die} {l : Nat} {cause : Nat} {mx : List Instr × Mem} (hh : s.held = mx) : (State.recoverStart s d l cause).held = mx := by
  unfold State.recoverStart
  with_reducible repeat' (first
    | (intro _)
    | (extract_lets +onlyGivenNames tv; first | (refine (fun ht : State.held tv = mx => ?_) ?_; clear_value tv; rotate_left; subst tv; rotate_right) | (refine (fun ht : State.held (Prod.fst tv) = mx => ?_) ?_; clear_value tv; rotate_left; subst tv; rotate_right) | (have hu := tv; clear hu))
    | assumption
    | rfl
    | apply State.bump_held
    | apply State.onLane_held
    | apply State.laneUnlock_held
    | apply State.laneLeave_held
    | apply State.laneRecover_held
    | apply ite_h
    | apply foldl_h
    | apply ite1_h
    | apply fold1_h
    | split
    | (clear_value *; split))

theorem State.recoverFail_held {s : State} {d : Die} {l : Nat} {mx : List Instr × Mem} (hh : s.held = mx) : (State.recoverFail s d l).held = mx := by
  unfold State.recoverFail
  with_reducible repeat' (first
    | (intro _)
    | assumption
    | rfl
    | apply State.portStart_held
    | apply State.laneRecover_held
    | apply ite_h
    | apply foldl_h
    | apply ite1_h
    | apply fold1_h
    | split
    | (clear_value *; split))

theorem execFomMeasurementDone_held {die : PDie} {lane : Fin 48} {w : List (BitVec 64)} {h : List (BitVec 128)} {s : State} {mx : List Instr × Mem} (hh : s.held = mx) : ∃ tv, execFomMeasurementDone die lane w h s = .next tv ∧ tv.held = mx := by
  unfold execFomMeasurementDone
  with_reducible repeat' (first
    | (intro _)
    | (extract_lets +onlyGivenNames tv; first | (refine (fun ht : State.held tv = mx => ?_) ?_; clear_value tv; rotate_left; subst tv; rotate_right) | (refine (fun ht : State.held (Prod.fst tv) = mx => ?_) ?_; clear_value tv; rotate_left; subst tv; rotate_right) | (have hu := tv; clear hu))
    | assumption
    | rfl
    | apply next_h
    | apply State.put_held
    | apply State.onLane_held
    | apply State.laneUp_held
    | apply State.putFom_held
    | apply State.fixedSettle_held
    | apply State.laneRecover_held
    | apply State.recoverFail_held
    | apply ite_h
    | apply foldl_h
    | apply ite1_h
    | apply fold1_h
    | split
    | (clear_value *; split))

theorem execLaneLockLoss_held {die : PDie} {lane : Fin 48} {s : State} {mx : List Instr × Mem} (hh : s.held = mx) : ∃ tv, execLaneLockLoss die lane s = .next tv ∧ tv.held = mx := by
  unfold execLaneLockLoss
  with_reducible repeat' (first
    | (intro _)
    | (extract_lets +onlyGivenNames tv; first | (refine (fun ht : State.held tv = mx => ?_) ?_; clear_value tv; rotate_left; subst tv; rotate_right) | (refine (fun ht : State.held (Prod.fst tv) = mx => ?_) ?_; clear_value tv; rotate_left; subst tv; rotate_right) | (have hu := tv; clear hu))
    | assumption
    | rfl
    | apply next_h
    | apply State.laneUnlock_held
    | apply State.recoverStart_held
    | apply ite_h
    | apply foldl_h
    | apply ite1_h
    | apply fold1_h
    | split
    | (clear_value *; split))

theorem execRecoverTimeout_held {die : PDie} {lane : Fin 48} {s : State} {mx : List Instr × Mem} (hh : s.held = mx) : ∃ tv, execRecoverTimeout die lane s = .next tv ∧ tv.held = mx := by
  unfold execRecoverTimeout
  with_reducible repeat' (first
    | (intro _)
    | assumption
    | rfl
    | apply next_h
    | apply State.recoverFail_held
    | apply ite_h)

theorem State.laneIgnored_held {s : State} {d : Die} {l : Nat} {mx : List Instr × Mem} (hh : s.held = mx) : (State.laneIgnored s d l).held = mx := by
  unfold State.laneIgnored
  with_reducible repeat' (first
    | assumption
    | rfl
    | apply State.put_held)

theorem State.laneRestart_held {s : State} {d : Die} {l : Nat} {mx : List Instr × Mem} (hh : s.held = mx) : (State.laneRestart s d l).held = mx := by
  unfold State.laneRestart
  with_reducible repeat' (first
    | (intro _)
    | (extract_lets +onlyGivenNames tv; first | (refine (fun ht : State.held tv = mx => ?_) ?_; clear_value tv; rotate_left; subst tv; rotate_right) | (refine (fun ht : State.held (Prod.fst tv) = mx => ?_) ?_; clear_value tv; rotate_left; subst tv; rotate_right) | (have hu := tv; clear hu))
    | assumption
    | rfl
    | apply State.lanePhy_held
    | apply State.laneLeave_held
    | apply State.laneStart_held
    | apply State.laneIgnored_held
    | apply ite_h
    | apply foldl_h
    | apply ite1_h
    | apply fold1_h
    | split
    | (clear_value *; split))

theorem State.laneSleep_held {s : State} {d : Die} {l : Nat} {mx : List Instr × Mem} (hh : s.held = mx) : (State.laneSleep s d l).held = mx := by
  unfold State.laneSleep
  with_reducible repeat' (first
    | (intro _)
    | assumption
    | rfl
    | apply State.onLane_held
    | apply State.laneUnlock_held
    | apply State.laneLeave_held
    | apply State.laneIgnored_held
    | apply ite_h
    | apply foldl_h
    | apply ite1_h
    | apply fold1_h
    | split
    | (clear_value *; split))

theorem State.laneWake_held {s : State} {d : Die} {l : Nat} {mx : List Instr × Mem} (hh : s.held = mx) : (State.laneWake s d l).held = mx := by
  unfold State.laneWake
  with_reducible repeat' (first
    | (intro _)
    | assumption
    | rfl
    | apply State.emit_held
    | apply State.onLane_held
    | apply State.laneIgnored_held
    | apply ite_h
    | apply foldl_h
    | apply ite1_h
    | apply fold1_h
    | split
    | (clear_value *; split))

theorem State.laneReenable_held {s : State} {d : Die} {l : Nat} {mx : List Instr × Mem} (hh : s.held = mx) : (State.laneReenable s d l).held = mx := by
  unfold State.laneReenable
  with_reducible repeat' (first
    | (intro _)
    | assumption
    | rfl
    | apply State.put_held
    | apply State.laneStart_held
    | apply State.laneIgnored_held
    | apply ite_h)

theorem State.laneMeasure_held {s : State} {d : Die} {l : Nat} {mx : List Instr × Mem} (hh : s.held = mx) : (State.laneMeasure s d l).held = mx := by
  unfold State.laneMeasure
  with_reducible repeat' (first
    | (intro _)
    | assumption
    | rfl
    | apply State.onLane_held
    | apply State.laneIgnored_held
    | apply ite_h)

theorem State.laneCmd_held {s : State} {d : Die} {l : Nat} {v : Nat} {mx : List Instr × Mem} (hh : s.held = mx) : (State.laneCmd s d l v).held = mx := by
  unfold State.laneCmd
  with_reducible repeat' (first
    | (intro _)
    | (extract_lets +onlyGivenNames tv; first | (refine (fun ht : State.held tv = mx => ?_) ?_; clear_value tv; rotate_left; subst tv; rotate_right) | (have hu := tv; clear hu))
    | assumption
    | rfl
    | apply State.laneRestart_held
    | apply State.laneAbort_held
    | apply State.laneSleep_held
    | apply State.laneWake_held
    | apply State.laneReenable_held
    | apply State.laneMeasure_held
    | apply ite_h)

theorem State.ifOwn_held {s : State} {d : Die} {l : Nat} {t : State} {mx : List Instr × Mem} (ht : t.held = mx) (hh : s.held = mx) :
    (State.ifOwn s d l t).held = mx := by
  unfold State.ifOwn
  exact ite_h (fun _ => ht) (fun _ => hh)
theorem State.ifOwn_ok {s : State} {d : Die} {l : Nat} {t : State} {mx : List Instr × Mem} (ht : State.Ok mx t) (hh : State.Ok mx s) :
    State.Ok mx (State.ifOwn s d l t) := by
  unfold State.ifOwn
  exact ite_ok (fun _ => ht) (fun _ => hh)

theorem execLaneRestart_held {die : PDie} {lane : Fin 48} {s : State} {mx : List Instr × Mem} (hh : s.held = mx) : ∃ tv, execLaneRestart die lane s = .next tv ∧ tv.held = mx := by
  unfold execLaneRestart
  with_reducible repeat' (first
    | (intro _)
    | assumption
    | rfl
    | apply next_h
    | apply State.laneRestart_held
    | apply ite_h
    | apply foldl_h
    | apply ite1_h
    | apply fold1_h
    | split
    | (clear_value *; split))

theorem execLaneSleep_held {die : PDie} {lane : Fin 48} {s : State} {mx : List Instr × Mem} (hh : s.held = mx) : ∃ tv, execLaneSleep die lane s = .next tv ∧ tv.held = mx := by
  unfold execLaneSleep
  with_reducible repeat' (first
    | (intro _)
    | assumption
    | rfl
    | apply next_h
    | apply State.laneSleep_held
    | apply ite_h
    | apply foldl_h
    | apply ite1_h
    | apply fold1_h
    | split
    | (clear_value *; split))

theorem execLaneWake_held {die : PDie} {lane : Fin 48} {s : State} {mx : List Instr × Mem} (hh : s.held = mx) : ∃ tv, execLaneWake die lane s = .next tv ∧ tv.held = mx := by
  unfold execLaneWake
  with_reducible repeat' (first
    | (intro _)
    | assumption
    | rfl
    | apply next_h
    | apply State.laneWake_held
    | apply ite_h
    | apply foldl_h
    | apply ite1_h
    | apply fold1_h
    | split
    | (clear_value *; split))

theorem execLaneTxReenable_held {die : PDie} {lane : Fin 48} {s : State} {mx : List Instr × Mem} (hh : s.held = mx) : ∃ tv, execLaneTxReenable die lane s = .next tv ∧ tv.held = mx := by
  unfold execLaneTxReenable
  with_reducible repeat' (first
    | (intro _)
    | assumption
    | rfl
    | apply next_h
    | apply State.laneReenable_held
    | apply ite_h
    | apply foldl_h
    | apply ite1_h
    | apply fold1_h
    | split
    | (clear_value *; split))

theorem execLaneMeasure_held {die : PDie} {lane : Fin 48} {s : State} {mx : List Instr × Mem} (hh : s.held = mx) : ∃ tv, execLaneMeasure die lane s = .next tv ∧ tv.held = mx := by
  unfold execLaneMeasure
  with_reducible repeat' (first
    | (intro _)
    | assumption
    | rfl
    | apply next_h
    | apply State.laneMeasure_held
    | apply ite_h
    | apply foldl_h
    | apply ite1_h
    | apply fold1_h
    | split
    | (clear_value *; split))

theorem execWakeBurstReceived_held {die : PDie} {lane : Fin 48} {intervals : BitVec 16} {s : State} {mx : List Instr × Mem} (hh : s.held = mx) : ∃ tv, execWakeBurstReceived die lane intervals s = .next tv ∧ tv.held = mx := by
  unfold execWakeBurstReceived
  with_reducible repeat' (first
    | (intro _)
    | (extract_lets +onlyGivenNames tv; first | (refine (fun ht : State.held tv = mx => ?_) ?_; clear_value tv; rotate_left; subst tv; rotate_right) | (have hu := tv; clear hu))
    | assumption
    | rfl
    | apply next_h
    | apply State.put_held
    | apply State.onLane_held
    | apply State.laneUp_held
    | apply State.bump_held
    | apply State.raise_held
    | apply State.recoverStart_held
    | apply ite_h)

theorem State.rawFlush_held {s : State} {d : Die} {l : Nat} {mx : List Instr × Mem} (hh : s.held = mx) : (State.rawFlush s d l).held = mx := by
  unfold State.rawFlush
  with_reducible repeat' (first
    | (intro _)
    | assumption
    | rfl
    | apply State.onLane_held
    | apply ite_h
    | apply foldl_h
    | apply ite1_h
    | apply fold1_h
    | split
    | (clear_value *; split))

theorem State.testSync_held {s : State} {d : Die} {l : Nat} {mx : List Instr × Mem} (hh : s.held = mx) : (State.testSync s d l).held = mx := by
  unfold State.testSync
  with_reducible repeat' (first
    | (intro _)
    | (extract_lets +onlyGivenNames tv; first | (refine (fun ht : State.held tv = mx => ?_) ?_; clear_value tv; rotate_left; subst tv; rotate_right) | (refine (fun ht : State.held (Prod.fst tv) = mx => ?_) ?_; clear_value tv; rotate_left; subst tv; rotate_right) | (have hu := tv; clear hu))
    | assumption
    | rfl
    | apply State.laneLeave_held
    | apply State.laneUp_held
    | apply State.recoverStart_held
    | apply State.rawFlush_held
    | apply ite_h
    | apply foldl_h
    | apply ite1_h
    | apply fold1_h
    | split
    | (clear_value *; split))

theorem State.prbsSnap_held {s : State} {d : Die} {l : Nat} {mx : List Instr × Mem} (hh : s.held = mx) : (State.prbsSnap s d l).held = mx := by
  unfold State.prbsSnap
  with_reducible repeat' (first
    | (extract_lets +onlyGivenNames tv; have hu := tv; clear hu)
    | assumption
    | rfl
    | apply State.puts_held)

theorem State.prbsClear_held {s : State} {d : Die} {l : Nat} {mx : List Instr × Mem} (hh : s.held = mx) : (State.prbsClear s d l).held = mx := by
  unfold State.prbsClear
  with_reducible repeat' (first
    | (intro _)
    | assumption
    | rfl
    | apply State.onLane_held)

theorem State.prbsBit_held {s : State} {d : Die} {l : Nat} {bit : Bool} {mx : List Instr × Mem} (hh : s.held = mx) : (State.prbsBit s d l bit).held = mx := by
  unfold State.prbsBit
  with_reducible repeat' (first
    | (intro _)
    | (extract_lets +onlyGivenNames tv; first | (refine (fun ht : State.held tv = mx => ?_) ?_; clear_value tv; rotate_left; subst tv; rotate_right) | (refine (fun ht : State.held (Prod.fst tv) = mx => ?_) ?_; clear_value tv; rotate_left; subst tv; rotate_right) | (have hu := tv; clear hu))
    | assumption
    | rfl
    | apply State.put_held
    | apply State.puts_held
    | apply State.raise_held
    | apply State.onLane_held
    | apply ite_h
    | apply foldl_h
    | apply ite1_h
    | apply fold1_h
    | simp only [id_eq]
    | split
    | (clear_value *; split))

theorem State.prbsTake_held {s : State} {d : Die} {l : Nat} {bits : List Bool} {mx : List Instr × Mem} (hh : s.held = mx) : (State.prbsTake s d l bits).held = mx := by
  unfold State.prbsTake
  with_reducible repeat' (first
    | (intro _)
    | assumption
    | rfl
    | apply State.prbsBit_held
    | apply ite_h
    | apply foldl_h
    | apply ite1_h
    | apply fold1_h
    | split
    | (clear_value *; split))

theorem State.patternSend_held {s : State} {d : Die} {l : Nat} {mx : List Instr × Mem} (hh : s.held = mx) : (State.patternSend s d l).held = mx := by
  unfold State.patternSend
  with_reducible repeat' (first
    | (intro _)
    | (extract_lets +onlyGivenNames tv; first | (refine (fun ht : State.held tv = mx => ?_) ?_; clear_value tv; rotate_left; subst tv; rotate_right) | (refine (fun ht : State.held (Prod.fst tv) = mx => ?_) ?_; clear_value tv; rotate_left; subst tv; rotate_right) | (have hu := tv; clear hu))
    | assumption
    | rfl
    | apply State.used_held
    | apply State.emit_held
    | apply State.prbsTake_held
    | apply ite_h
    | apply foldl_h
    | apply ite1_h
    | apply fold1_h
    | split
    | (clear_value *; split))

theorem State.prbsCtrl_held {s : State} {d : Die} {l : Nat} {v : Word} {mx : List Instr × Mem} (hh : s.held = mx) : (State.prbsCtrl s d l v).held = mx := by
  unfold State.prbsCtrl
  with_reducible repeat' (first
    | (intro _)
    | (extract_lets +onlyGivenNames tv; first | (refine (fun ht : State.held tv = mx => ?_) ?_; clear_value tv; rotate_left; subst tv; rotate_right) | (refine (fun ht : State.held (Prod.fst tv) = mx => ?_) ?_; clear_value tv; rotate_left; subst tv; rotate_right) | (have hu := tv; clear hu))
    | assumption
    | rfl
    | apply State.put_held
    | apply State.writeReg_held
    | apply State.testSync_held
    | apply State.prbsSnap_held
    | apply State.prbsClear_held
    | apply State.patternSend_held
    | apply ite_h
    | apply foldl_h
    | apply ite1_h
    | apply fold1_h
    | split
    | (clear_value *; split))

theorem execPrbsGeneratorEnable_held {die : PDie} {lane : Fin 48} {enable : Bool} {pattern : BitVec 3} {s : State} {mx : List Instr × Mem} (hh : s.held = mx) : ∃ tv, execPrbsGeneratorEnable die lane enable pattern s = .next tv ∧ tv.held = mx := by
  unfold execPrbsGeneratorEnable
  with_reducible repeat' (first
    | (intro _)
    | (extract_lets +onlyGivenNames tv; first | (refine (fun ht : State.held tv = mx => ?_) ?_; clear_value tv; rotate_left; subst tv; rotate_right) | (refine (fun ht : State.held (Prod.fst tv) = mx => ?_) ?_; clear_value tv; rotate_left; subst tv; rotate_right) | (have hu := tv; clear hu))
    | assumption
    | rfl
    | apply next_h
    | apply State.puts_held
    | refine State.ifOwn_held ?_ ?_
    | apply State.testSync_held
    | apply State.patternSend_held
    | apply ite_h
    | apply foldl_h
    | apply ite1_h
    | apply fold1_h
    | split
    | (clear_value *; split))

theorem execPrbsSnap_held {die : PDie} {lane : Fin 48} {s : State} {mx : List Instr × Mem} (hh : s.held = mx) : ∃ tv, execPrbsSnap die lane s = .next tv ∧ tv.held = mx := by
  unfold execPrbsSnap
  with_reducible repeat' (first
    | (intro _)
    | assumption
    | rfl
    | apply next_h
    | refine State.ifOwn_held ?_ ?_
    | apply State.prbsSnap_held)

theorem execPrbsClear_held {die : PDie} {lane : Fin 48} {s : State} {mx : List Instr × Mem} (hh : s.held = mx) : ∃ tv, execPrbsClear die lane s = .next tv ∧ tv.held = mx := by
  unfold execPrbsClear
  with_reducible repeat' (first
    | (intro _)
    | assumption
    | rfl
    | apply next_h
    | refine State.ifOwn_held ?_ ?_
    | apply State.prbsClear_held)

theorem execLanPrbsThresh_held {die : PDie} {lane : Fin 48} {bits : BitVec 1024} {count : Fin 1025} {s : State} {mx : List Instr × Mem} (hh : s.held = mx) : ∃ tv, execLanPrbsThresh die lane bits count s = .next tv ∧ tv.held = mx := by
  unfold execLanPrbsThresh
  with_reducible repeat' (first
    | (intro _)
    | (extract_lets +onlyGivenNames tv; first | (refine (fun ht : State.held tv = mx => ?_) ?_; clear_value tv; rotate_left; subst tv; rotate_right) | (refine (fun ht : State.held (Prod.fst tv) = mx => ?_) ?_; clear_value tv; rotate_left; subst tv; rotate_right) | (have hu := tv; clear hu))
    | assumption
    | rfl
    | apply next_h
    | apply State.prbsTake_held
    | apply ite_h
    | apply foldl_h
    | apply ite1_h
    | apply fold1_h
    | split
    | (clear_value *; split))

theorem execPrbsSyncLost_held {die : PDie} {lane : Fin 48} {s : State} {mx : List Instr × Mem} (hh : s.held = mx) : ∃ tv, execPrbsSyncLost die lane s = .next tv ∧ tv.held = mx := by
  unfold execPrbsSyncLost
  with_reducible repeat' (first
    | (intro _)
    | (extract_lets +onlyGivenNames tv; have hu := tv; clear hu)
    | assumption
    | rfl
    | apply next_h
    | apply State.puts_held
    | apply ite_h)

theorem State.lpbkWrite_held {s : State} {d : Die} {l : Nat} {mode : Nat} {mute : Bool} {mx : List Instr × Mem} (hh : s.held = mx) : (State.lpbkWrite s d l mode mute).held = mx := by
  unfold State.lpbkWrite
  with_reducible repeat' (first
    | (intro _)
    | (extract_lets +onlyGivenNames tv; first | (refine (fun ht : State.held tv = mx => ?_) ?_; clear_value tv; rotate_left; subst tv; rotate_right) | (have hu := tv; clear hu))
    | assumption
    | rfl
    | apply State.put_held
    | apply State.laneIgnored_held
    | apply State.testSync_held
    | apply ite_h)

theorem execLoopbackSelect_held {die : PDie} {lane : Fin 48} {mode : Fin 4} {mute : Bool} {s : State} {mx : List Instr × Mem} (hh : s.held = mx) : ∃ tv, execLoopbackSelect die lane mode mute s = .next tv ∧ tv.held = mx := by
  unfold execLoopbackSelect
  with_reducible repeat' (first
    | (intro _)
    | assumption
    | rfl
    | apply next_h
    | refine State.ifOwn_held ?_ ?_
    | apply State.lpbkWrite_held)

theorem State.lanesRelease_held {s : State} {d : Die} {mx : List Instr × Mem} (hh : s.held = mx) : (State.lanesRelease s d).held = mx := by
  unfold State.lanesRelease
  with_reducible repeat' (first
    | (intro _)
    | assumption
    | rfl
    | apply State.setLaneSt_held
    | apply ite_h
    | apply foldl_h)

theorem State.lanesIdle_held {s : State} {d : Die} {mx : List Instr × Mem} (hh : s.held = mx) : (State.lanesIdle s d).held = mx := by
  unfold State.lanesIdle
  with_reducible repeat' (first
    | (intro _)
    | assumption
    | rfl
    | apply State.onLane_held
    | apply State.laneUnlock_held
    | apply State.laneLeave_held
    | apply State.presenceEnd_held
    | apply ite_h
    | apply foldl_h
    | apply ite1_h
    | apply fold1_h
    | split
    | (clear_value *; split))

theorem State.lanesSafe_held {s : State} {d : Die} {mx : List Instr × Mem} (hh : s.held = mx) : (State.lanesSafe s d).held = mx := by
  unfold State.lanesSafe
  with_reducible repeat' (first
    | (intro _)
    | assumption
    | rfl
    | apply State.put_held
    | apply State.onLane_held
    | apply State.laneLeave_held
    | apply ite_h
    | apply foldl_h
    | apply ite1_h
    | apply fold1_h
    | split
    | (clear_value *; split))

theorem State.quadApply_held {s : State} {d : Die} {q : Nat} {mx : List Instr × Mem} (hh : s.held = mx) : (State.quadApply s d q).held = mx := by
  unfold State.quadApply
  with_reducible repeat' (first
    | (intro _)
    | (extract_lets +onlyGivenNames tv; first | (refine (fun ht : State.held tv = mx => ?_) ?_; clear_value tv; rotate_left; subst tv; rotate_right) | (refine (fun ht : State.held (Prod.fst tv) = mx => ?_) ?_; clear_value tv; rotate_left; subst tv; rotate_right) | (have hu := tv; clear hu))
    | assumption
    | rfl
    | apply State.put_held
    | apply State.onLane_held
    | apply State.lanePhy_held
    | apply State.laneLeave_held
    | apply ite_h
    | apply foldl_h
    | apply ite1_h
    | apply fold1_h
    | split
    | (clear_value *; split))

theorem State.quadLocked_held {s : State} {d : Die} {q : Nat} {mx : List Instr × Mem} (hh : s.held = mx) : (State.quadLocked s d q).held = mx := by
  unfold State.quadLocked
  with_reducible repeat' (first
    | (intro _)
    | (extract_lets +onlyGivenNames tv; first | (refine (fun ht : State.held tv = mx => ?_) ?_; clear_value tv; rotate_left; subst tv; rotate_right) | (refine (fun ht : State.held (Prod.fst tv) = mx => ?_) ?_; clear_value tv; rotate_left; subst tv; rotate_right) | (have hu := tv; clear hu))
    | assumption
    | rfl
    | apply State.setLaneSt_held
    | apply State.onLane_held
    | apply State.lanePhy_held
    | apply State.laneEnd_held
    | apply ite_h
    | apply foldl_h
    | apply ite1_h
    | apply fold1_h
    | split
    | (clear_value *; split))

theorem State.quadRevert_held {s : State} {d : Die} {q : Nat} {failed : Nat} {mx : List Instr × Mem} (hh : s.held = mx) : (State.quadRevert s d q failed).held = mx := by
  unfold State.quadRevert
  with_reducible repeat' (first
    | (intro _)
    | (extract_lets +onlyGivenNames tv; first | (refine (fun ht : State.held tv = mx => ?_) ?_; clear_value tv; rotate_left; subst tv; rotate_right) | (refine (fun ht : State.held (Prod.fst tv) = mx => ?_) ?_; clear_value tv; rotate_left; subst tv; rotate_right) | (have hu := tv; clear hu))
    | assumption
    | rfl
    | apply State.put_held
    | apply State.onLane_held
    | apply State.lanePhy_held
    | apply ite_h
    | apply foldl_h
    | apply ite1_h
    | apply fold1_h
    | split
    | (clear_value *; split))

end Sys2Proof.Machine
end

