-- ==== Sys2Proof/Laws/HeldNetTime.lean ====
section
/-! SUPPORT. For each operation of Machine/NetTime.lean: the queue and the memory it keeps (`_held`), or, where it stores, that the queue stays and the memory keeps its canonical form (`_ok`). -/

namespace Sys2Proof.Machine
open Sys2Proof
set_option linter.tactic.unusedName false

theorem State.todAdd_held {s : State} {n : Nat} {mx : List Instr × Mem} (hh : s.held = mx) : (State.todAdd s n).held = mx := by
  unfold State.todAdd
  with_reducible repeat' (first
    | (intro _)
    | (extract_lets +onlyGivenNames tv; first | (refine (fun ht : State.held tv = mx => ?_) ?_; clear_value tv; rotate_left; subst tv; rotate_right) | (refine (fun ht : State.held (Prod.fst tv) = mx => ?_) ?_; clear_value tv; rotate_left; subst tv; rotate_right) | (have hu := tv; clear hu))
    | assumption
    | rfl
    | apply State.setTod_held
    | apply ite_h
    | apply foldl_h
    | apply ite1_h
    | apply fold1_h
    | split
    | (clear_value *; split))

theorem State.timeTo_held {s : State} {cycle : Nat} {mx : List Instr × Mem} (hh : s.held = mx) : (State.timeTo s cycle).held = mx := by
  unfold State.timeTo
  with_reducible repeat' (first
    | (intro _)
    | (extract_lets +onlyGivenNames tv; first | (refine (fun ht : State.held tv = mx => ?_) ?_; clear_value tv; rotate_left; subst tv; rotate_right) | (refine (fun ht : State.held (Prod.fst tv) = mx => ?_) ?_; clear_value tv; rotate_left; subst tv; rotate_right) | (have hu := tv; clear hu))
    | assumption
    | rfl
    | apply State.setTod_held
    | apply State.todAdd_held
    | apply ite_h
    | apply foldl_h
    | apply ite1_h
    | apply fold1_h
    | split
    | (clear_value *; split))

theorem State.timeSome_held {s : State} {mx : List Instr × Mem} (hh : s.held = mx) : (State.timeSome s).held = mx := by
  unfold State.timeSome
  with_reducible repeat' (first
    | (intro _)
    | assumption
    | rfl
    | apply State.used_held
    | apply State.timeTo_held
    | apply ite_h
    | apply foldl_h
    | apply ite1_h
    | apply fold1_h
    | split
    | (clear_value *; split))

theorem State.lockLost_held {s : State} {mx : List Instr × Mem} (hh : s.held = mx) : (State.lockLost s).held = mx := by
  unfold State.lockLost
  with_reducible repeat' (first
    | (intro _)
    | assumption
    | rfl
    | apply State.put_held
    | apply State.raise_held
    | apply ite_h)

theorem State.todStep_held {s : State} {op : Nat} {mx : List Instr × Mem} (hh : s.held = mx) : (State.todStep s op).held = mx := by
  unfold State.todStep
  with_reducible repeat' (first
    | (intro _)
    | (extract_lets +onlyGivenNames tv; first | (refine (fun ht : State.held tv = mx => ?_) ?_; clear_value tv; rotate_left; subst tv; rotate_right) | (refine (fun ht : State.held (Prod.fst tv) = mx => ?_) ?_; clear_value tv; rotate_left; subst tv; rotate_right) | (have hu := tv; clear hu))
    | assumption
    | rfl
    | apply State.setTod_held
    | apply State.bump_held
    | apply State.raise_held
    | apply State.lockLost_held
    | apply ite_h
    | apply foldl_h
    | apply ite1_h
    | apply fold1_h
    | split
    | (clear_value *; split))

theorem State.todSet_held {s : State} {mx : List Instr × Mem} (hh : s.held = mx) : (State.todSet s).held = mx := by
  unfold State.todSet
  with_reducible repeat' (first
    | (intro _)
    | (extract_lets +onlyGivenNames tv; have hu := tv; clear hu)
    | assumption
    | rfl
    | apply State.put_held
    | apply State.setTod_held
    | apply State.todStep_held
    | apply ite_h)

theorem execTodSet_held {cycle : BitVec 13} {s : State} {mx : List Instr × Mem} (hh : s.held = mx) : ∃ tv, execTodSet cycle s = .next tv ∧ tv.held = mx := by
  unfold execTodSet
  with_reducible repeat' (first
    | (intro _)
    | assumption
    | rfl
    | apply next_h
    | apply State.timeTo_held
    | apply State.todSet_held
    | apply ite_h
    | apply foldl_h
    | apply ite1_h
    | apply fold1_h
    | split
    | (clear_value *; split))

theorem State.todAdj_held {s : State} {mx : List Instr × Mem} (hh : s.held = mx) : (State.todAdj s).held = mx := by
  unfold State.todAdj
  with_reducible repeat' (first
    | (extract_lets +onlyGivenNames tv; have hu := tv; clear hu)
    | assumption
    | rfl
    | apply State.setTod_held
    | apply State.todStep_held)

theorem execTodAdj_held {cycle : BitVec 13} {s : State} {mx : List Instr × Mem} (hh : s.held = mx) : ∃ tv, execTodAdj cycle s = .next tv ∧ tv.held = mx := by
  unfold execTodAdj
  with_reducible repeat' (first
    | (intro _)
    | assumption
    | rfl
    | apply next_h
    | apply State.timeTo_held
    | apply State.todAdj_held
    | apply ite_h
    | apply foldl_h
    | apply ite1_h
    | apply fold1_h
    | split
    | (clear_value *; split))

theorem State.todIncr_held {s : State} {v : Word} {mx : List Instr × Mem} (hh : s.held = mx) : (State.todIncr s v).held = mx := by
  unfold State.todIncr
  with_reducible repeat' (first
    | (intro _)
    | assumption
    | rfl
    | apply State.put_held
    | apply State.timeSome_held
    | apply ite_h
    | apply foldl_h
    | apply ite1_h
    | apply fold1_h
    | split
    | (clear_value *; split))

theorem execTodIncrWrite_held {value : BitVec 32} {s : State} {mx : List Instr × Mem} (hh : s.held = mx) : ∃ tv, execTodIncrWrite value s = .next tv ∧ tv.held = mx := by
  unfold execTodIncrWrite
  with_reducible repeat' (first
    | (intro _)
    | assumption
    | rfl
    | apply next_h
    | apply State.todIncr_held
    | apply ite_h
    | apply foldl_h
    | apply ite1_h
    | apply fold1_h
    | split
    | (clear_value *; split))

theorem State.todRead_held {s : State} {quiet : Bool} {mx : List Instr × Mem} (hh : s.held = mx) : (State.todRead s quiet).held = mx := by
  unfold State.todRead
  with_reducible repeat' (first
    | (intro _)
    | (extract_lets +onlyGivenNames tv; first | (refine (fun ht : State.held tv = mx => ?_) ?_; clear_value tv; rotate_left; subst tv; rotate_right) | (have hu := tv; clear hu))
    | assumption
    | rfl
    | apply State.setAnswer_held
    | apply State.puts_held
    | apply ite_h)

theorem execTodRead_held {cycle : BitVec 13} {quiet : Bool} {s : State} {mx : List Instr × Mem} (hh : s.held = mx) : ∃ tv, execTodRead cycle quiet s = .next tv ∧ tv.held = mx := by
  unfold execTodRead
  with_reducible repeat' (first
    | assumption
    | rfl
    | apply next_h
    | apply State.timeTo_held
    | apply State.todRead_held)

theorem State.ppsPin_held {s : State} {high : Bool} {mx : List Instr × Mem} (hh : s.held = mx) : (State.ppsPin s high).held = mx := by
  unfold State.ppsPin
  with_reducible repeat' (first
    | assumption
    | rfl
    | apply State.setPins_held)

theorem State.ppsWrite_held {s : State} {v : Word} {mx : List Instr × Mem} (hh : s.held = mx) : (State.ppsWrite s v).held = mx := by
  unfold State.ppsWrite
  with_reducible repeat' (first
    | (intro _)
    | (extract_lets +onlyGivenNames tv; first | (refine (fun ht : State.held tv = mx => ?_) ?_; clear_value tv; rotate_left; subst tv; rotate_right) | (refine (fun ht : State.held (Prod.fst tv) = mx => ?_) ?_; clear_value tv; rotate_left; subst tv; rotate_right) | (have hu := tv; clear hu))
    | assumption
    | rfl
    | apply State.setTod_held
    | apply State.put_held
    | apply State.writeReg_held
    | apply State.ppsPin_held
    | apply ite_h
    | apply foldl_h
    | apply ite1_h
    | apply fold1_h
    | split
    | (clear_value *; split))

theorem execPpsEnable_held {value : BitVec 32} {s : State} {mx : List Instr × Mem} (hh : s.held = mx) : ∃ tv, execPpsEnable value s = .next tv ∧ tv.held = mx := by
  unfold execPpsEnable
  with_reducible repeat' (first
    | assumption
    | rfl
    | apply next_h
    | apply State.ppsWrite_held)

theorem State.ppsReach_held {s : State} {mx : List Instr × Mem} (hh : s.held = mx) : (State.ppsReach s).held = mx := by
  unfold State.ppsReach
  with_reducible repeat' (first
    | (intro _)
    | (extract_lets +onlyGivenNames tv; first | (refine (fun ht : State.held tv = mx => ?_) ?_; clear_value tv; rotate_left; subst tv; rotate_right) | (refine (fun ht : State.held (Prod.fst tv) = mx => ?_) ?_; clear_value tv; rotate_left; subst tv; rotate_right) | (have hu := tv; clear hu))
    | assumption
    | rfl
    | apply State.timeTo_held
    | apply ite_h
    | apply foldl_h
    | apply ite1_h
    | apply fold1_h
    | split
    | (clear_value *; split))

theorem State.ppsRise_held {s : State} {mx : List Instr × Mem} (hh : s.held = mx) : (State.ppsRise s).held = mx := by
  unfold State.ppsRise
  with_reducible repeat' (first
    | (intro _)
    | (extract_lets +onlyGivenNames tv; first | (refine (fun ht : State.held tv = mx => ?_) ?_; clear_value tv; rotate_left; subst tv; rotate_right) | (refine (fun ht : State.held (Prod.fst tv) = mx => ?_) ?_; clear_value tv; rotate_left; subst tv; rotate_right) | (have hu := tv; clear hu))
    | assumption
    | rfl
    | apply State.setTod_held
    | apply State.ppsPin_held
    | apply State.ppsReach_held
    | apply ite_h
    | apply foldl_h
    | apply ite1_h
    | apply fold1_h
    | split
    | (clear_value *; split))

theorem execPpsPulse_held {s : State} {mx : List Instr × Mem} (hh : s.held = mx) : ∃ tv, execPpsPulse s = .next tv ∧ tv.held = mx := by
  unfold execPpsPulse
  with_reducible repeat' (first
    | (intro _)
    | assumption
    | rfl
    | apply next_h
    | apply State.ppsRise_held
    | apply ite_h
    | apply foldl_h
    | apply ite1_h
    | apply fold1_h
    | split
    | (clear_value *; split))

theorem execPpsPulseEnd_held {s : State} {mx : List Instr × Mem} (hh : s.held = mx) : ∃ tv, execPpsPulseEnd s = .next tv ∧ tv.held = mx := by
  unfold execPpsPulseEnd
  with_reducible repeat' (first
    | (intro _)
    | assumption
    | rfl
    | apply next_h
    | apply State.ppsPin_held
    | apply ite_h
    | apply foldl_h
    | apply ite1_h
    | apply fold1_h
    | split
    | (clear_value *; split))

theorem execPpsInEdge_held {cycle : BitVec 13} {low : BitVec 32} {s : State} {mx : List Instr × Mem} (hh : s.held = mx) : ∃ tv, execPpsInEdge cycle low s = .next tv ∧ tv.held = mx := by
  unfold execPpsInEdge
  with_reducible repeat' (first
    | (intro _)
    | (extract_lets +onlyGivenNames tv; first | (refine (fun ht : State.held tv = mx => ?_) ?_; clear_value tv; rotate_left; subst tv; rotate_right) | (have hu := tv; clear hu))
    | assumption
    | rfl
    | apply next_h
    | apply State.timeTo_held
    | apply State.puts_held
    | apply State.bump_held
    | apply State.raise_held
    | apply ite_h)

theorem State.ppsSafe_held {s : State} {mx : List Instr × Mem} (hh : s.held = mx) : (State.ppsSafe s).held = mx := by
  unfold State.ppsSafe
  with_reducible repeat' (first
    | assumption
    | rfl
    | apply State.put_held
    | apply State.ppsPin_held)

end Sys2Proof.Machine
end

