-- ==== Sys2Proof/Laws/HeldProtect.lean ====
section
/-! SUPPORT. For each operation of Machine/Protect.lean: the queue and the memory it keeps (`_held`), or, where it stores, that the queue stays and the memory keeps its canonical form (`_ok`). -/

namespace Sys2Proof.Machine
open Sys2Proof
set_option linter.tactic.unusedName false

theorem State.onProt_held {s : State} {e : Nat} {f : Prot → Prot} {mx : List Instr × Mem} (hh : s.held = mx) : (State.onProt s e f).held = mx := by
  unfold State.onProt
  with_reducible repeat' (first
    | assumption
    | rfl
    | apply State.setProts_held)

theorem State.protRaise_held {s : State} {e : Nat} {loc : Nat} {data : Nat} {mx : List Instr × Mem} (hh : s.held = mx) : (State.protRaise s e loc data).held = mx := by
  unfold State.protRaise
  with_reducible repeat' (first
    | (intro _)
    | (extract_lets +onlyGivenNames tv; have hu := tv; clear hu)
    | assumption
    | rfl
    | apply State.onceStart_held
    | apply State.raise_held
    | apply ite_h)

theorem State.protErr_held {s : State} {e : Nat} {kind : Nat} {icls : Nat} {addr : Nat} {mx : List Instr × Mem} (hh : s.held = mx) : (State.protErr s e kind icls addr).held = mx := by
  unfold State.protErr
  with_reducible repeat' (first
    | (intro _)
    | assumption
    | rfl
    | apply State.puts_held
    | apply ite_h)

theorem State.protDeny_held {s : State} {e : Nat} {r : NocReq} {mx : List Instr × Mem} (hh : s.held = mx) : (State.protDeny s e r).held = mx := by
  unfold State.protDeny
  with_reducible repeat' (first
    | (extract_lets +onlyGivenNames tv; first | (refine (fun ht : State.held tv = mx => ?_) ?_; clear_value tv; rotate_left; subst tv; rotate_right) | (have hu := tv; clear hu))
    | assumption
    | rfl
    | apply State.bump_held
    | apply State.protErr_held
    | apply State.protRaise_held)

theorem State.protGate_held {s : State} {e : Nat} {r : NocReq} {mx : List Instr × Mem} (hh : s.held = mx) : (State.protGate s e r).1.held = mx := by
  unfold State.protGate
  with_reducible repeat' (first
    | (intro _)
    | assumption
    | rfl
    | apply State.protDeny_held
    | apply ite_h
    | apply ite1_h)
theorem State.protGate_heldp {s : State} {e : Nat} {r : NocReq} {mx : List Instr × Mem} {tv : State} {ov : Option Nat} (he : State.protGate s e r = (tv, ov)) (hh : s.held = mx) : tv.held = mx := by
  have k := State.protGate_held (s := s) (e := e) (r := r) hh
  rw [he] at k; exact k

theorem State.lockGroups_held {s : State} {e : Nat} {r : Nat} {x : ProtRegion} {k : Nat} {n : Nat} {icls : Nat} {addr : Nat} {mx : List Instr × Mem} (hh : s.held = mx) : (State.lockGroups s e r x k n icls addr).held = mx := by
  unfold State.lockGroups
  with_reducible repeat' (first
    | (intro _)
    | (extract_lets +onlyGivenNames tv; first | (refine (fun ht : State.held tv = mx => ?_) ?_; clear_value tv; rotate_left; subst tv; rotate_right) | (have hu := tv; clear hu))
    | assumption
    | rfl
    | apply State.onProt_held
    | apply State.bump_held
    | apply State.protErr_held
    | apply State.raise_held)

theorem State.nodeFail_held {s : State} {e : Nat} {r : Nat} {k : Nat} {n : Nat} {icls : Nat} {addr : Nat} {mx : List Instr × Mem} (hh : s.held = mx) : (State.nodeFail s e r k n icls addr).held = mx := by
  unfold State.nodeFail
  with_reducible repeat' (first
    | (intro _)
    | (extract_lets +onlyGivenNames tv; first | (refine (fun ht : State.held tv = mx => ?_) ?_; clear_value tv; rotate_left; subst tv; rotate_right) | (have hu := tv; clear hu))
    | assumption
    | rfl
    | apply State.onProt_held
    | apply State.put_held
    | apply State.protErr_held
    | apply State.raise_held
    | apply ite_h
    | (clear_value *; split))

theorem State.integFail_held {s : State} {e : Nat} {icls : Nat} {addr : Nat} {mx : List Instr × Mem} (hh : s.held = mx) : (State.integFail s e icls addr).held = mx := by
  unfold State.integFail
  with_reducible repeat' (first
    | assumption
    | rfl
    | apply State.bump_held
    | apply State.protErr_held
    | apply State.protRaise_held)

theorem State.bufWrite_held {s : State} {e : Nat} {line : Nat} {mask : Nat} {mx : List Instr × Mem} (hh : s.held = mx) : (State.bufWrite s e line mask).held = mx := by
  unfold State.bufWrite
  with_reducible repeat' (first
    | (intro _)
    | assumption
    | rfl
    | apply State.eccWrites_held
    | apply ite_h
    | apply foldl_h
    | apply ite1_h
    | apply fold1_h
    | split
    | (clear_value *; split))

theorem State.dirties_held {s : State} {e : Nat} {line : Nat} {mask : Nat} {mx : List Instr × Mem} (hh : s.held = mx) : (State.dirties s e line mask).held = mx := by
  unfold State.dirties
  with_reducible repeat' (first
    | (intro _)
    | assumption
    | rfl
    | apply State.onProt_held
    | apply State.bufWrite_held
    | apply ite_h
    | apply foldl_h
    | apply ite1_h
    | apply fold1_h
    | split
    | (clear_value *; split))

theorem State.bufTouch_held {s : State} {e : Nat} {lines : List Nat} {mx : List Instr × Mem} (hh : s.held = mx) : (State.bufTouch s e lines).held = mx := by
  unfold State.bufTouch
  with_reducible repeat' (first
    | (intro _)
    | (extract_lets +onlyGivenNames tv; first | (refine (fun ht : State.held tv = mx => ?_) ?_; clear_value tv; rotate_left; subst tv; rotate_right) | (refine (fun ht : State.held (Prod.fst tv) = mx => ?_) ?_; clear_value tv; rotate_left; subst tv; rotate_right) | (have hu := tv; clear hu))
    | assumption
    | rfl
    | apply State.onProt_held
    | apply State.bufWrite_held
    | apply ite_h
    | apply foldl_h
    | apply ite1_h
    | apply fold1_h
    | split
    | (clear_value *; split))

theorem State.bufDrop_held {s : State} {e : Nat} {line : Nat} {mx : List Instr × Mem} (hh : s.held = mx) : (State.bufDrop s e line).held = mx := by
  unfold State.bufDrop
  with_reducible repeat' (first
    | (intro _)
    | assumption
    | rfl
    | apply State.onProt_held
    | apply ite_h
    | apply foldl_h
    | apply ite1_h
    | apply fold1_h
    | split
    | (clear_value *; split))

theorem State.bufLose_held {s : State} {e : Nat} {line : Nat} {mx : List Instr × Mem} (hh : s.held = mx) : (State.bufLose s e line).held = mx := by
  unfold State.bufLose
  with_reducible repeat' (first
    | (intro _)
    | assumption
    | rfl
    | apply State.onProt_held
    | apply ite_h
    | apply foldl_h
    | apply ite1_h
    | apply fold1_h
    | split
    | (clear_value *; split))

theorem State.lineOut_held {s : State} {e : Nat} {line : Nat} {bytes : List Nat} {mx : List Instr × Mem} (hh : s.held = mx) : (State.lineOut s e line bytes).held = mx := by
  unfold State.lineOut
  with_reducible repeat' (first
    | (intro _)
    | assumption
    | rfl
    | apply State.emit_held
    | apply ite_h
    | apply foldl_h
    | apply ite1_h
    | apply fold1_h
    | split
    | (clear_value *; split))

theorem State.nodeBack_held {s : State} {e : Nat} {r : Nat} {x : ProtRegion} {k : Nat} {n : Nat} {mx : List Instr × Mem} (hh : s.held = mx) : (State.nodeBack s e r x k n).1.held = mx := by
  unfold State.nodeBack
  with_reducible repeat' (first
    | (intro _)
    | (extract_lets +onlyGivenNames tv; first | (refine (fun ht : State.held tv = mx => ?_) ?_; clear_value tv; rotate_left; subst tv; rotate_right) | (refine (fun ht : State.held (Prod.fst tv) = mx => ?_) ?_; clear_value tv; rotate_left; subst tv; rotate_right) | (have hu := tv; clear hu))
    | assumption
    | rfl
    | apply State.used_held
    | apply State.onProt_held
    | apply State.lockGroups_held
    | apply ite_h
    | apply foldl_h
    | apply ite1_h
    | apply fold1_h
    | split
    | (clear_value *; split))
theorem State.nodeBack_heldp {s : State} {e : Nat} {r : Nat} {x : ProtRegion} {k : Nat} {n : Nat} {mx : List Instr × Mem} {tv : State} {ov : Bool} (he : State.nodeBack s e r x k n = (tv, ov)) (hh : s.held = mx) : tv.held = mx := by
  have k := State.nodeBack_held (s := s) (e := e) (r := r) (x := x) (k := k) (n := n) hh
  rw [he] at k; exact k

theorem State.metaTouch_held {a0 : Nat} {a1 : State} {a2 : Nat} {a3 : Nat} {a4 : ProtRegion} {a5 : Nat} {mx : List Instr × Mem} (hh : a1.held = mx) : (State.metaTouch a0 a1 a2 a3 a4 a5).held = mx := by
  induction a0 generalizing a1 a5 with
  | zero => exact hh
  | succ n ih =>
    unfold State.metaTouch
    simp only []
    split
    · exact State.dirties_held hh
    · split
      · exact State.lineOut_held hh
      · rename_i k m _
        have hn := State.nodeBack_held (s := a1) (e := a2) (r := a3) (x := a4) (k := k) (n := m) hh
        refine ite_h (fun _ => hn) fun _ => ?_
        have h1 := fun l b => State.lineOut_held (s := (a1.nodeBack a2 a3 a4 k m).1) (e := a2) (line := l) (bytes := b) hn
        refine ite_h (fun _ => ih ?_) fun _ => ?_
        all_goals exact ite_h (fun _ => ih (h1 _ _)) fun _ => h1 _ _

theorem State.metaTouchAt_held {s : State} {e : Nat} {r : Nat} {x : ProtRegion} {i : Nat} {mx : List Instr × Mem} (hh : s.held = mx) : (State.metaTouchAt s e r x i).held = mx := by
  unfold State.metaTouchAt
  with_reducible repeat' (first
    | (intro _)
    | assumption
    | rfl
    | apply State.metaTouch_held
    | apply ite_h
    | apply foldl_h
    | apply ite1_h
    | apply fold1_h
    | split
    | (clear_value *; split))

theorem State.dataBack_held {s : State} {e : Nat} {r : Nat} {x : ProtRegion} {line : Nat} {mx : List Instr × Mem} (hh : s.held = mx) : (State.dataBack s e r x line).held = mx := by
  unfold State.dataBack
  with_reducible repeat' (first
    | (intro _)
    | (extract_lets +onlyGivenNames tv; first | (refine (fun ht : State.held tv = mx => ?_) ?_; clear_value tv; rotate_left; subst tv; rotate_right) | (refine (fun ht : State.held (Prod.fst tv) = mx => ?_) ?_; clear_value tv; rotate_left; subst tv; rotate_right) | (have hu := tv; clear hu))
    | assumption
    | rfl
    | apply State.bump_held
    | apply State.used_held
    | apply State.onProt_held
    | apply State.lockGroups_held
    | apply State.lineOut_held
    | apply State.metaTouchAt_held
    | apply ite_h
    | apply foldl_h
    | apply ite1_h
    | apply fold1_h
    | split
    | (clear_value *; split))

theorem State.metaBack_held {s : State} {e : Nat} {r : Nat} {x : ProtRegion} {i : Nat} {mx : List Instr × Mem} (hh : s.held = mx) : (State.metaBack s e r x i).held = mx := by
  unfold State.metaBack
  with_reducible repeat' (first
    | (intro _)
    | (extract_lets +onlyGivenNames tv; first | (refine (fun ht : State.held tv = mx => ?_) ?_; clear_value tv; rotate_left; subst tv; rotate_right) | (refine (fun ht : State.held (Prod.fst tv) = mx => ?_) ?_; clear_value tv; rotate_left; subst tv; rotate_right) | (have hu := tv; clear hu))
    | assumption
    | rfl
    | apply State.lineOut_held
    | refine State.nodeBack_heldp ‹_› ?_
    | apply State.nodeBack_held
    | apply State.metaTouchAt_held
    | apply ite_h
    | apply foldl_h
    | apply ite1_h
    | apply fold1_h
    | split
    | (clear_value *; split))

theorem State.bufBad_held {s : State} {e : Nat} {line : Nat} {mx : List Instr × Mem} (hh : s.held = mx) : (State.bufBad s e line).held = mx := by
  unfold State.bufBad
  with_reducible repeat' (first
    | (intro _)
    | (extract_lets +onlyGivenNames tv; first | (refine (fun ht : State.held tv = mx => ?_) ?_; clear_value tv; rotate_left; subst tv; rotate_right) | (refine (fun ht : State.held (Prod.fst tv) = mx => ?_) ?_; clear_value tv; rotate_left; subst tv; rotate_right) | (have hu := tv; clear hu))
    | assumption
    | rfl
    | apply State.used_held
    | apply State.nodeFail_held
    | apply State.integFail_held
    | apply ite_h
    | apply foldl_h
    | apply ite1_h
    | apply fold1_h
    | split
    | (clear_value *; split))

theorem State.writeBack_held {s : State} {e : Nat} {line : Nat} {mx : List Instr × Mem} (hh : s.held = mx) : (State.writeBack s e line).held = mx := by
  unfold State.writeBack
  with_reducible repeat' (first
    | (intro _)
    | (extract_lets +onlyGivenNames tv; first | (refine (fun ht : State.held tv = mx => ?_) ?_; clear_value tv; rotate_left; subst tv; rotate_right) | (refine (fun ht : State.held (Prod.fst tv) = mx => ?_) ?_; clear_value tv; rotate_left; subst tv; rotate_right) | (have hu := tv; clear hu))
    | assumption
    | rfl
    | apply State.setPoison_held
    | refine State.eccReads_heldp ‹_› ?_
    | apply State.eccReads_held
    | apply State.bufWrite_held
    | apply State.bufDrop_held
    | apply State.bufLose_held
    | apply State.dataBack_held
    | apply State.metaBack_held
    | apply State.bufBad_held
    | apply ite_h
    | apply foldl_h
    | apply ite1_h
    | apply fold1_h
    | split
    | (clear_value *; split))

theorem State.writeBackAll_held {s : State} {e n : Nat} {mx : List Instr × Mem} (hh : s.held = mx) :
    (State.writeBackAll s e n).held = mx := by
  induction n generalizing s with
  | zero => exact hh
  | succ n ih =>
    rw [State.writeBackAll]
    split
    · exact ih (State.writeBack_held hh)
    · exact hh

theorem State.backStore_ok {s : State} {d : Die} {line : Nat} {v : BitVec 512} {mx : List Instr × Mem} (hh : State.Ok mx s) : State.Ok mx (State.backStore s d line v) := by
  unfold State.backStore
  with_reducible repeat' (first
    | (intro _)
    | (extract_lets +onlyGivenNames tv; first | (refine (fun ht : State.Ok mx tv => ?_) ?_; clear_value tv; rotate_left; subst tv; rotate_right) | (refine (fun ht : State.Ok mx (Prod.fst tv) => ?_) ?_; clear_value tv; rotate_left; subst tv; rotate_right) | (have hu := tv; clear hu))
    | assumption
    | exact ok_rfl
    | refine State.setMem_ok ?_ ?_
    | refine ok_of (State.setPoison_held rfl) ?_
    | refine ok_of (State.used_held rfl) ?_
    | refine ok_of (State.closeLine_held rfl) ?_
    | refine ok_of (State.onProt_held rfl) ?_
    | refine ok_of (State.lockGroups_held rfl) ?_
    | refine ok_of (State.dirties_held rfl) ?_
    | refine ok_of (State.lineOut_held rfl) ?_
    | apply Mem.write_wf
    | apply Mem.writeMasked_wf
    | apply Mem.clear_wf
    | apply ite_ok
    | apply foldl_ok
    | apply ite1_ok
    | apply fold1_ok
    | split
    | (clear_value *; split)
    | (with_unfolding_all assumption))

end Sys2Proof.Machine
end

