-- ==== Sys2Proof/Laws/HeldHome.lean ====
section
/-! SUPPORT. For each operation of Machine/Home.lean: the queue and the memory it keeps (`_held`), or, where it stores, that the queue stays and the memory keeps its canonical form (`_ok`). -/

namespace Sys2Proof.Machine
open Sys2Proof
set_option linter.tactic.unusedName false

theorem State.lineArrives_ok {s : State} {d : Die} {line : Nat} {mx : List Instr × Mem} (hh : State.Ok mx s) : State.Ok mx (State.lineArrives s d line) := by
  unfold State.lineArrives
  with_reducible repeat' (first
    | (intro _)
    | assumption
    | exact ok_rfl
    | refine ok_of (State.setPoison_held rfl) ?_
    | refine ok_of (State.setSick_held rfl) ?_
    | refine ok_of (State.dropLine_held rfl) ?_
    | apply State.backStore_ok
    | apply ite_ok
    | apply foldl_ok
    | apply ite1_ok
    | apply fold1_ok
    | split
    | (clear_value *; split))

theorem State.lineSpoiled_held {s : State} {d : Die} {line : Nat} {mx : List Instr × Mem} (hh : s.held = mx) : (State.lineSpoiled s d line).held = mx := by
  unfold State.lineSpoiled
  with_reducible repeat' (first
    | (intro _)
    | assumption
    | rfl
    | apply State.setPoison_held
    | apply State.setSick_held
    | apply State.dropLine_held
    | apply ite_h
    | apply foldl_h
    | apply ite1_h
    | apply fold1_h
    | split
    | (clear_value *; split))

theorem State.lineBack_ok {s : State} {d : Die} {line : Nat} {mx : List Instr × Mem} (hh : State.Ok mx s) : State.Ok mx (State.lineBack s d line) := by
  unfold State.lineBack
  with_reducible repeat' (first
    | (intro _)
    | assumption
    | exact ok_rfl
    | refine ok_of (State.lineLeaves_held rfl) ?_
    | apply State.lineArrives_ok
    | apply ite_ok
    | apply foldl_ok
    | apply ite1_ok
    | apply fold1_ok
    | split
    | (clear_value *; split))

theorem State.homeServe_ok {s : State} {op : HomeOp} {die : Nat} {line : Nat} {mx : List Instr × Mem} (hh : State.Ok mx s) : State.Ok mx (State.homeServe s op die line) := by
  unfold State.homeServe
  with_reducible repeat' (first
    | (intro _)
    | (extract_lets +onlyGivenNames tv; first | (refine (fun ht : State.Ok mx tv => ?_) ?_; clear_value tv; rotate_left; subst tv; rotate_right) | (refine (fun ht : State.Ok mx (Prod.fst tv) => ?_) ?_; clear_value tv; rotate_left; subst tv; rotate_right) | (have hu := tv; clear hu))
    | assumption
    | exact ok_rfl
    | refine ok_of (State.setDirRec_held rfl) ?_
    | refine ok_of (State.emit_held rfl) ?_
    | apply State.lineArrives_ok
    | refine ok_of (State.lineSpoiled_held rfl) ?_
    | apply ite_ok
    | apply foldl_ok
    | apply ite1_ok
    | apply fold1_ok
    | split
    | (clear_value *; split))

theorem State.homeAsk_ok {s : State} {op : HomeOp} {d : Nat} {l : Nat} {snoop : Nat} {who : List Nat} {mx : List Instr × Mem} (hh : State.Ok mx s) : State.Ok mx (State.homeAsk s op d l snoop who) := by
  unfold State.homeAsk
  with_reducible repeat' (first
    | (intro _)
    | assumption
    | exact ok_rfl
    | refine ok_of (State.setHomeTxn_held rfl) ?_
    | refine ok_of (State.snoopAll_held rfl) ?_
    | apply State.homeServe_ok
    | apply ite_ok
    | apply foldl_ok
    | apply ite1_ok
    | apply fold1_ok
    | split
    | (clear_value *; split))

theorem State.homeTake_ok {s : State} {op : HomeOp} {d : Nat} {l : Nat} {mx : List Instr × Mem} (hh : State.Ok mx s) : State.Ok mx (State.homeTake s op d l) := by
  unfold State.homeTake
  with_reducible repeat' (first
    | (intro _)
    | (extract_lets +onlyGivenNames tv; first | (refine (fun ht : State.Ok mx tv => ?_) ?_; clear_value tv; rotate_left; subst tv; rotate_right) | (refine (fun ht : State.Ok mx (Prod.fst tv) => ?_) ?_; clear_value tv; rotate_left; subst tv; rotate_right) | (have hu := tv; clear hu))
    | assumption
    | exact ok_rfl
    | refine ok_of (State.refreshDir_held rfl) ?_
    | refine ok_of (State.dirLook_held rfl) ?_
    | apply State.homeAsk_ok
    | apply ite_ok
    | apply foldl_ok
    | apply ite1_ok
    | apply fold1_ok
    | split
    | (clear_value *; split))

theorem State.fillDenied_held {s : State} {die : Option FDie} {line : Nat} {mx : List Instr × Mem} (hh : s.held = mx) : (State.fillDenied s die line).held = mx := by
  unfold State.fillDenied
  with_reducible repeat' (first
    | (intro _)
    | (extract_lets +onlyGivenNames tv; first | (refine (fun ht : State.held tv = mx => ?_) ?_; clear_value tv; rotate_left; subst tv; rotate_right) | (refine (fun ht : State.held (Prod.fst tv) = mx => ?_) ?_; clear_value tv; rotate_left; subst tv; rotate_right) | (have hu := tv; clear hu))
    | assumption
    | rfl
    | apply State.setDcWait_held
    | apply State.emit_held
    | apply State.respond_held
    | refine State.protGate_heldp ‹_› ?_
    | apply State.protGate_held
    | apply ite_h
    | apply foldl_h
    | apply ite1_h
    | apply fold1_h
    | split
    | (clear_value *; split))

theorem execHomeDirectoryRequest_ok {op : HomeOp} {die : Option FDie} {line : BitVec 42} {full : Option (BitVec 42)} {s : State} {mx : List Instr × Mem} (hh : State.Ok mx s) : ∃ tv, execHomeDirectoryRequest op die line full s = .next tv ∧ State.Ok mx tv := by
  unfold execHomeDirectoryRequest
  with_reducible repeat' (first
    | (intro _)
    | (extract_lets +onlyGivenNames tv; first | (refine (fun ht : State.Ok mx tv => ?_) ?_; clear_value tv; rotate_left; subst tv; rotate_right) | (refine (fun ht : State.Ok mx (Prod.fst tv) => ?_) ?_; clear_value tv; rotate_left; subst tv; rotate_right) | (have hu := tv; clear hu))
    | assumption
    | exact ok_rfl
    | apply next_ok
    | refine ok_of (State.setHomeTxn_held rfl) ?_
    | refine ok_of (State.dirRoom_heldp ‹_› rfl) ?_
    | refine ok_of (State.dirRoom_held rfl) ?_
    | apply State.homeTake_ok
    | refine ok_of (State.fillDenied_held rfl) ?_
    | apply ite_ok
    | apply foldl_ok
    | apply ite1_ok
    | apply fold1_ok
    | split
    | (clear_value *; split))

theorem State.homeNext_ok {s : State} {t : HomeTxn} {l : Nat} {mx : List Instr × Mem} (hh : State.Ok mx s) : State.Ok mx (State.homeNext s t l) := by
  unfold State.homeNext
  with_reducible repeat' (first
    | (intro _)
    | (extract_lets +onlyGivenNames tv; first | (refine (fun ht : State.Ok mx tv => ?_) ?_; clear_value tv; rotate_left; subst tv; rotate_right) | (refine (fun ht : State.Ok mx (Prod.fst tv) => ?_) ?_; clear_value tv; rotate_left; subst tv; rotate_right) | (have hu := tv; clear hu))
    | assumption
    | exact ok_rfl
    | refine ok_of (State.setHomeTxn_held rfl) ?_
    | refine ok_of (State.emit_held rfl) ?_
    | refine ok_of (State.dirRoom_heldp ‹_› rfl) ?_
    | refine ok_of (State.dirRoom_held rfl) ?_
    | apply State.homeServe_ok
    | apply State.homeTake_ok
    | apply ite_ok
    | apply foldl_ok
    | apply ite1_ok
    | apply fold1_ok
    | split
    | (clear_value *; split))

theorem execSnoopAckArrival_ok {line : BitVec 42} {die : FDie} {answer : SnoopAnswer} {s : State} {mx : List Instr × Mem} (hh : State.Ok mx s) : ∃ tv, execSnoopAckArrival line die answer s = .next tv ∧ State.Ok mx tv := by
  unfold execSnoopAckArrival
  with_reducible repeat' (first
    | (intro _)
    | (extract_lets +onlyGivenNames tv; first | (refine (fun ht : State.Ok mx tv => ?_) ?_; clear_value tv; rotate_left; subst tv; rotate_right) | (refine (fun ht : State.Ok mx (Prod.fst tv) => ?_) ?_; clear_value tv; rotate_left; subst tv; rotate_right) | (have hu := tv; clear hu))
    | assumption
    | exact ok_rfl
    | apply next_ok
    | refine ok_of (State.setHomeTxn_held rfl) ?_
    | refine ok_of (State.setDirRec_held rfl) ?_
    | refine ok_of (State.dropHolder_held rfl) ?_
    | apply State.lineArrives_ok
    | refine ok_of (State.lineSpoiled_held rfl) ?_
    | apply State.homeNext_ok
    | apply ite_ok
    | apply foldl_ok
    | apply ite1_ok
    | apply fold1_ok
    | split
    | (clear_value *; split))

theorem State.recall_ok {s : State} {r : NocReq} {mx : List Instr × Mem} (hh : State.Ok mx s) : State.Ok mx (State.recall s r) := by
  unfold State.recall
  with_reducible repeat' (first
    | (intro _)
    | (extract_lets +onlyGivenNames tv; first | (refine (fun ht : State.Ok mx tv => ?_) ?_; clear_value tv; rotate_left; subst tv; rotate_right) | (refine (fun ht : State.Ok mx (Prod.fst tv) => ?_) ?_; clear_value tv; rotate_left; subst tv; rotate_right) | (have hu := tv; clear hu))
    | assumption
    | exact ok_rfl
    | refine ok_of (State.setDcLine_held rfl) ?_
    | refine ok_of (State.setDirRec_held rfl) ?_
    | refine ok_of (State.dropHolder_held rfl) ?_
    | apply State.lineBack_ok
    | apply ite_ok
    | apply foldl_ok
    | apply ite1_ok
    | apply fold1_ok
    | split
    | (clear_value *; split))

theorem execDieCacheFlushDone_ok {die : FDie} {s : State} {mx : List Instr × Mem} (hh : State.Ok mx s) : ∃ tv, execDieCacheFlushDone die s = .next tv ∧ State.Ok mx tv := by
  unfold execDieCacheFlushDone
  with_reducible repeat' (first
    | (intro _)
    | (extract_lets +onlyGivenNames tv; first | (refine (fun ht : State.Ok mx tv => ?_) ?_; clear_value tv; rotate_left; subst tv; rotate_right) | (refine (fun ht : State.Ok mx (Prod.fst tv) => ?_) ?_; clear_value tv; rotate_left; subst tv; rotate_right) | (have hu := tv; clear hu))
    | assumption
    | exact ok_rfl
    | apply next_ok
    | refine ok_of (State.setDcLine_held rfl) ?_
    | refine ok_of (State.put_held rfl) ?_
    | refine ok_of (State.emit_held rfl) ?_
    | refine ok_of (State.dropHolder_held rfl) ?_
    | apply State.lineBack_ok
    | apply ite_ok
    | apply foldl_ok
    | apply ite1_ok
    | apply fold1_ok
    | split
    | (clear_value *; split))

end Sys2Proof.Machine
end

