-- ==== Sys2Proof/Laws/HeldService.lean ====
section
/-! SUPPORT. For each operation of Machine/Service.lean: the queue and the memory it keeps (`_held`), or, where it stores, that the queue stays and the memory keeps its canonical form (`_ok`). -/

namespace Sys2Proof.Machine
open Sys2Proof
set_option linter.tactic.unusedName false

theorem State.onDdr_held {s : State} {ch : Nat} {f : DdrCh → DdrCh} {mx : List Instr × Mem} (hh : s.held = mx) : (State.onDdr s ch f).held = mx := by
  unfold State.onDdr
  with_reducible repeat' (first
    | (intro _)
    | assumption
    | rfl
    | apply State.setDdr_held
    | apply ite_h
    | apply foldl_h
    | apply ite1_h
    | apply fold1_h
    | split
    | (clear_value *; split))

theorem State.pageAccess_held {s : State} {ch : Nat} {off : Nat} {mx : List Instr × Mem} (hh : s.held = mx) : (State.pageAccess s ch off).held = mx := by
  unfold State.pageAccess
  with_reducible repeat' (first
    | (intro _)
    | (extract_lets +onlyGivenNames tv; first | (refine (fun ht : State.held tv = mx => ?_) ?_; clear_value tv; rotate_left; subst tv; rotate_right) | (refine (fun ht : State.held (Prod.fst tv) = mx => ?_) ?_; clear_value tv; rotate_left; subst tv; rotate_right) | (have hu := tv; clear hu))
    | assumption
    | rfl
    | apply State.pmcItems_held
    | apply State.onDdr_held
    | apply ite_h
    | apply foldl_h
    | apply ite1_h
    | apply fold1_h
    | split
    | (clear_value *; split))

theorem State.memAnswer_ok {s : State} {r : NocReq} {status : Nat} {mx : List Instr × Mem} (hh : State.Ok mx s) : State.Ok mx (State.memAnswer s r status) := by
  unfold State.memAnswer
  with_reducible repeat' (first
    | (intro _)
    | assumption
    | exact ok_rfl
    | refine ok_of (State.respond_held rfl) ?_
    | apply State.cacheFill_ok
    | apply ite_ok
    | apply foldl_ok
    | apply ite1_ok
    | apply fold1_ok
    | split
    | (clear_value *; split))

theorem State.memDo_ok {s : State} {e : Nat} {r : NocReq} {mx : List Instr × Mem} (hh : State.Ok mx s) : State.Ok mx (State.memDo s e r) := by
  unfold State.memDo
  with_reducible repeat' (first
    | (intro _)
    | (extract_lets +onlyGivenNames tv; first | (refine (fun ht : State.Ok mx tv => ?_) ?_; clear_value tv; rotate_left; subst tv; rotate_right) | (refine (fun ht : State.Ok mx (Prod.fst tv) => ?_) ?_; clear_value tv; rotate_left; subst tv; rotate_right) | (have hu := tv; clear hu))
    | assumption
    | exact ok_rfl
    | apply State.serveLine_ok
    | refine ok_of (State.closeLine_held rfl) ?_
    | apply State.defineLine_ok
    | apply State.cacheFill_ok
    | apply State.recall_ok
    | apply ite_ok
    | apply foldl_ok
    | apply ite1_ok
    | apply fold1_ok
    | split
    | (clear_value *; split))

theorem State.ddrFirst_held {s : State} {ch : Nat} {line : Nat} {ue : Bool} {mx : List Instr × Mem} (hh : s.held = mx) : (State.ddrFirst s ch line ue).held = mx := by
  unfold State.ddrFirst
  with_reducible repeat' (first
    | (intro _)
    | assumption
    | rfl
    | apply State.puts_held
    | apply ite_h
    | apply foldl_h
    | apply ite1_h
    | apply fold1_h
    | split
    | (clear_value *; split))

theorem State.ddrCe_held {s : State} {ch : Nat} {line : Nat} {mx : List Instr × Mem} (hh : s.held = mx) : (State.ddrCe s ch line).held = mx := by
  unfold State.ddrCe
  with_reducible repeat' (first
    | (intro _)
    | (extract_lets +onlyGivenNames tv; first | (refine (fun ht : State.held tv = mx => ?_) ?_; clear_value tv; rotate_left; subst tv; rotate_right) | (refine (fun ht : State.held (Prod.fst tv) = mx => ?_) ?_; clear_value tv; rotate_left; subst tv; rotate_right) | (have hu := tv; clear hu))
    | assumption
    | rfl
    | apply State.bump_held
    | apply State.onceStart_held
    | apply State.raise_held
    | apply State.ddrFirst_held
    | apply ite_h
    | apply foldl_h
    | apply ite1_h
    | apply fold1_h
    | split
    | (clear_value *; split))

theorem State.ddrUe_held {s : State} {ch : Nat} {line : Nat} {mx : List Instr × Mem} (hh : s.held = mx) : (State.ddrUe s ch line).held = mx := by
  unfold State.ddrUe
  with_reducible repeat' (first
    | (intro _)
    | assumption
    | rfl
    | apply State.bump_held
    | apply State.raise_held
    | apply State.ddrFirst_held
    | apply ite_h
    | apply foldl_h
    | apply ite1_h
    | apply fold1_h
    | split
    | (clear_value *; split))

theorem State.memRead_held {s : State} {e : Nat} {addr : Nat} {quiet : Bool} {check : MemCheck} {mx : List Instr × Mem} (hh : s.held = mx) : (State.memRead s e addr quiet check).held = mx := by
  unfold State.memRead
  with_reducible repeat' (first
    | (intro _)
    | (extract_lets +onlyGivenNames tv; first | (refine (fun ht : State.held tv = mx => ?_) ?_; clear_value tv; rotate_left; subst tv; rotate_right) | (refine (fun ht : State.held (Prod.fst tv) = mx => ?_) ?_; clear_value tv; rotate_left; subst tv; rotate_right) | (have hu := tv; clear hu))
    | assumption
    | rfl
    | apply State.ddrCe_held
    | apply State.ddrUe_held
    | apply ite_h
    | apply foldl_h
    | apply ite1_h
    | apply fold1_h
    | split
    | (clear_value *; split))

theorem State.memWrote_ok {s : State} {e : Nat} {r : NocReq} {mx : List Instr × Mem} (hh : State.Ok mx s) : State.Ok mx (State.memWrote s e r) := by
  unfold State.memWrote
  with_reducible repeat' (first
    | (intro _)
    | (extract_lets +onlyGivenNames tv; first | (refine (fun ht : State.Ok mx tv => ?_) ?_; clear_value tv; rotate_left; subst tv; rotate_right) | (refine (fun ht : State.Ok mx (Prod.fst tv) => ?_) ?_; clear_value tv; rotate_left; subst tv; rotate_right) | (have hu := tv; clear hu))
    | assumption
    | exact ok_rfl
    | refine ok_of (State.lineOut_held rfl) ?_
    | apply State.memDo_ok
    | apply ite_ok
    | apply foldl_ok
    | apply ite1_ok
    | apply fold1_ok
    | split
    | (clear_value *; split))

theorem State.servePlain_ok {s : State} {e : Nat} {r : NocReq} {check : MemCheck} {mx : List Instr × Mem} (hh : State.Ok mx s) : State.Ok mx (State.servePlain s e r check) := by
  unfold State.servePlain
  with_reducible repeat' (first
    | (intro _)
    | (extract_lets +onlyGivenNames tv; first | (refine (fun ht : State.Ok mx tv => ?_) ?_; clear_value tv; rotate_left; subst tv; rotate_right) | (refine (fun ht : State.Ok mx (Prod.fst tv) => ?_) ?_; clear_value tv; rotate_left; subst tv; rotate_right) | (have hu := tv; clear hu))
    | assumption
    | exact ok_rfl
    | apply State.memAnswer_ok
    | refine ok_of (State.memRead_held rfl) ?_
    | apply State.memWrote_ok
    | apply ite_ok
    | apply foldl_ok
    | apply ite1_ok
    | apply fold1_ok
    | split
    | (clear_value *; split))

theorem State.fetched_held {s : State} {e : Nat} {r : Nat} {x : ProtRegion} {line : Nat} {g : Nat} {mx : List Instr × Mem} (hh : s.held = mx) : (State.fetched s e r x line g).held = mx := by
  unfold State.fetched
  with_reducible repeat' (first
    | (intro _)
    | (extract_lets +onlyGivenNames tv; first | (refine (fun ht : State.held tv = mx => ?_) ?_; clear_value tv; rotate_left; subst tv; rotate_right) | (refine (fun ht : State.held (Prod.fst tv) = mx => ?_) ?_; clear_value tv; rotate_left; subst tv; rotate_right) | (have hu := tv; clear hu))
    | assumption
    | rfl
    | apply State.bufTouch_held
    | apply ite_h
    | apply foldl_h
    | apply ite1_h
    | apply fold1_h
    | split
    | (clear_value *; split))

theorem State.serveProtected_ok {s : State} {e : Nat} {r : NocReq} {check : MemCheck} {n : Nat} {x : ProtRegion} {mx : List Instr × Mem} (hh : State.Ok mx s) : State.Ok mx (State.serveProtected s e r check n x) := by
  unfold State.serveProtected
  with_reducible repeat' (first
    | (intro _)
    | (extract_lets +onlyGivenNames tv; first | (refine (fun ht : State.Ok mx tv => ?_) ?_; clear_value tv; rotate_left; subst tv; rotate_right) | (refine (fun ht : State.Ok mx (Prod.fst tv) => ?_) ?_; clear_value tv; rotate_left; subst tv; rotate_right) | (have hu := tv; clear hu))
    | assumption
    | exact ok_rfl
    | refine ok_of (State.eccReads_heldp ‹_› rfl) ?_
    | refine ok_of (State.eccReads_held rfl) ?_
    | refine ok_of (State.onProt_held rfl) ?_
    | refine ok_of (State.lockGroups_held rfl) ?_
    | refine ok_of (State.nodeFail_held rfl) ?_
    | refine ok_of (State.integFail_held rfl) ?_
    | refine ok_of (State.dirties_held rfl) ?_
    | apply State.memAnswer_ok
    | apply State.memDo_ok
    | refine ok_of (State.memRead_held rfl) ?_
    | refine ok_of (State.fetched_held rfl) ?_
    | apply ite_ok
    | apply foldl_ok
    | apply ite1_ok
    | apply fold1_ok
    | split
    | (clear_value *; split))

theorem State.regionServe_ok {s : State} {e : Nat} {r : NocReq} {check : MemCheck} {mx : List Instr × Mem} (hh : State.Ok mx s) : State.Ok mx (State.regionServe s e r check) := by
  unfold State.regionServe
  with_reducible repeat' (first
    | (intro _)
    | assumption
    | exact ok_rfl
    | apply State.memAnswer_ok
    | apply State.servePlain_ok
    | apply State.serveProtected_ok
    | apply ite_ok
    | apply foldl_ok
    | apply ite1_ok
    | apply fold1_ok
    | split
    | (clear_value *; split))

theorem State.memServe_ok {s : State} {e : Nat} {r : NocReq} {check : MemCheck} {mx : List Instr × Mem} (hh : State.Ok mx s) : State.Ok mx (State.memServe s e r check) := by
  unfold State.memServe
  with_reducible repeat' (first
    | (intro _)
    | (extract_lets +onlyGivenNames tv; first | (refine (fun ht : State.Ok mx tv => ?_) ?_; clear_value tv; rotate_left; subst tv; rotate_right) | (refine (fun ht : State.Ok mx (Prod.fst tv) => ?_) ?_; clear_value tv; rotate_left; subst tv; rotate_right) | (have hu := tv; clear hu))
    | assumption
    | exact ok_rfl
    | refine ok_of (State.bwCount_held rfl) ?_
    | refine ok_of (State.pmcItems_held rfl) ?_
    | refine ok_of (State.pageAccess_held rfl) ?_
    | apply State.memAnswer_ok
    | apply State.regionServe_ok
    | apply ite_ok
    | apply foldl_ok
    | apply ite1_ok
    | apply fold1_ok
    | split
    | (clear_value *; split))

theorem State.serveWaiting_ok {s : State} {e : Nat} {mx : List Instr × Mem} (hh : State.Ok mx s) : State.Ok mx (State.serveWaiting s e) := by
  unfold State.serveWaiting
  with_reducible repeat' (first
    | (intro _)
    | assumption
    | exact ok_rfl
    | refine ok_of (State.onProt_held rfl) ?_
    | apply State.regionServe_ok
    | apply ite_ok
    | apply foldl_ok
    | apply ite1_ok
    | apply fold1_ok
    | split
    | (clear_value *; split))

theorem State.flushBuffer_ok {s : State} {e : Nat} {mx : List Instr × Mem} (hh : State.Ok mx s) : State.Ok mx (State.flushBuffer s e) := by
  unfold State.flushBuffer
  with_reducible repeat' (first
    | (intro _)
    | (extract_lets +onlyGivenNames tv; first | (refine (fun ht : State.Ok mx tv => ?_) ?_; clear_value tv; rotate_left; subst tv; rotate_right) | (refine (fun ht : State.Ok mx (Prod.fst tv) => ?_) ?_; clear_value tv; rotate_left; subst tv; rotate_right) | (have hu := tv; clear hu))
    | assumption
    | exact ok_rfl
    | refine ok_of (State.writeBackAll_held rfl) ?_
    | apply State.serveWaiting_ok
    | apply ite_ok
    | apply foldl_ok
    | apply ite1_ok
    | apply fold1_ok
    | split
    | (clear_value *; split))

theorem execProtBufferWriteback_ok {eng : Fin 8} {line : BitVec 42} {s : State} {mx : List Instr × Mem} (hh : State.Ok mx s) : ∃ tv, execProtBufferWriteback eng line s = .next tv ∧ State.Ok mx tv := by
  unfold execProtBufferWriteback
  with_reducible repeat' (first
    | (intro _)
    | assumption
    | exact ok_rfl
    | apply next_ok
    | refine ok_of (State.writeBack_held rfl) ?_
    | apply State.serveWaiting_ok
    | apply ite_ok
    | apply foldl_ok
    | apply ite1_ok
    | apply fold1_ok
    | split
    | (clear_value *; split))

theorem State.rgnIgnored_held {s : State} {e : Nat} {r : Nat} {mx : List Instr × Mem} (hh : s.held = mx) : (State.rgnIgnored s e r).held = mx := by
  unfold State.rgnIgnored
  with_reducible repeat' (first
    | (intro _)
    | assumption
    | rfl
    | apply State.put_held
    | apply ite_h
    | apply foldl_h
    | apply ite1_h
    | apply fold1_h
    | split
    | (clear_value *; split))

theorem State.walkStart_held {s : State} {e : Nat} {mx : List Instr × Mem} (hh : s.held = mx) : (State.walkStart s e).held = mx := by
  unfold State.walkStart
  with_reducible repeat' (first
    | (intro _)
    | assumption
    | rfl
    | apply State.put_held
    | apply State.onProt_held
    | apply ite_h
    | apply foldl_h
    | apply ite1_h
    | apply fold1_h
    | split
    | (clear_value *; split))

theorem State.rightsWrite_held {s : State} {e : Nat} {rgn : Option (Fin 16)} {v : Word} {mx : List Instr × Mem} (hh : s.held = mx) : (State.rightsWrite s e rgn v).held = mx := by
  unfold State.rightsWrite
  with_reducible repeat' (first
    | (intro _)
    | (extract_lets +onlyGivenNames tv; first | (refine (fun ht : State.held tv = mx => ?_) ?_; clear_value tv; rotate_left; subst tv; rotate_right) | (refine (fun ht : State.held (Prod.fst tv) = mx => ?_) ?_; clear_value tv; rotate_left; subst tv; rotate_right) | (have hu := tv; clear hu))
    | assumption
    | rfl
    | apply State.writeReg_held
    | apply State.rgnIgnored_held
    | apply State.walkStart_held
    | apply ite_h
    | apply foldl_h
    | apply ite1_h
    | apply fold1_h
    | split
    | (clear_value *; split))

theorem execProtRightsWrite_held {eng : Fin 8} {rgn : Option (Fin 16)} {value : BitVec 32} {s : State} {mx : List Instr × Mem} (hh : s.held = mx) : ∃ tv, execProtRightsWrite eng rgn value s = .next tv ∧ tv.held = mx := by
  unfold execProtRightsWrite
  with_reducible repeat' (first
    | (intro _)
    | assumption
    | rfl
    | apply next_h
    | apply State.rightsWrite_held
    | apply ite_h
    | apply foldl_h
    | apply ite1_h
    | apply fold1_h
    | split
    | (clear_value *; split))

theorem State.walkEnd_ok {s : State} {e : Nat} {mx : List Instr × Mem} (hh : State.Ok mx s) : State.Ok mx (State.walkEnd s e) := by
  unfold State.walkEnd
  with_reducible repeat' (first
    | (intro _)
    | (extract_lets +onlyGivenNames tv; first | (refine (fun ht : State.Ok mx tv => ?_) ?_; clear_value tv; rotate_left; subst tv; rotate_right) | (refine (fun ht : State.Ok mx (Prod.fst tv) => ?_) ?_; clear_value tv; rotate_left; subst tv; rotate_right) | (have hu := tv; clear hu))
    | assumption
    | exact ok_rfl
    | refine ok_of (State.setDcLine_held rfl) ?_
    | refine ok_of (State.put_held rfl) ?_
    | refine ok_of (State.emit_held rfl) ?_
    | refine ok_of (State.dirDrop_held rfl) ?_
    | refine ok_of (State.onProt_held rfl) ?_
    | apply State.lineBack_ok
    | apply ite_ok
    | apply foldl_ok
    | apply ite1_ok
    | apply fold1_ok
    | split
    | (clear_value *; split))

theorem execProtWalkDone_ok {eng : Fin 8} {s : State} {mx : List Instr × Mem} (hh : State.Ok mx s) : ∃ tv, execProtWalkDone eng s = .next tv ∧ State.Ok mx tv := by
  unfold execProtWalkDone
  with_reducible repeat' (first
    | (intro _)
    | assumption
    | exact ok_rfl
    | apply next_ok
    | apply State.walkEnd_ok
    | apply ite_ok
    | apply foldl_ok
    | apply ite1_ok
    | apply fold1_ok
    | split
    | (clear_value *; split))

theorem State.regionCfg_held {s : State} {e : Nat} {r : Nat} {v : Word} {mx : List Instr × Mem} (hh : s.held = mx) : (State.regionCfg s e r v).held = mx := by
  unfold State.regionCfg
  with_reducible repeat' (first
    | (intro _)
    | (extract_lets +onlyGivenNames tv; first | (refine (fun ht : State.held tv = mx => ?_) ?_; clear_value tv; rotate_left; subst tv; rotate_right) | (refine (fun ht : State.held (Prod.fst tv) = mx => ?_) ?_; clear_value tv; rotate_left; subst tv; rotate_right) | (have hu := tv; clear hu))
    | assumption
    | rfl
    | apply State.setRegions_held
    | apply State.put_held
    | apply State.puts_held
    | apply State.writeReg_held
    | apply State.rgnIgnored_held
    | apply State.walkStart_held
    | apply ite_h
    | apply foldl_h
    | apply ite1_h
    | apply fold1_h
    | split
    | (clear_value *; split))

theorem execRegionConfigWrite_held {eng : Fin 8} {rgn : Fin 16} {value : BitVec 32} {s : State} {mx : List Instr × Mem} (hh : s.held = mx) : ∃ tv, execRegionConfigWrite eng rgn value s = .next tv ∧ tv.held = mx := by
  unfold execRegionConfigWrite
  with_reducible repeat' (first
    | (intro _)
    | assumption
    | rfl
    | apply next_h
    | apply State.regionCfg_held
    | apply ite_h
    | apply foldl_h
    | apply ite1_h
    | apply fold1_h
    | split
    | (clear_value *; split))

theorem State.regionInit_held {s : State} {e : Nat} {r : Nat} {mx : List Instr × Mem} (hh : s.held = mx) : (State.regionInit s e r).held = mx := by
  unfold State.regionInit
  with_reducible repeat' (first
    | (intro _)
    | assumption
    | rfl
    | apply State.puts_held
    | apply State.rgnIgnored_held
    | apply ite_h
    | apply foldl_h
    | apply ite1_h
    | apply fold1_h
    | split
    | (clear_value *; split))

theorem execRegionInit_held {eng : Fin 8} {rgn : Fin 16} {s : State} {mx : List Instr × Mem} (hh : s.held = mx) : ∃ tv, execRegionInit eng rgn s = .next tv ∧ tv.held = mx := by
  unfold execRegionInit
  with_reducible repeat' (first
    | (intro _)
    | assumption
    | rfl
    | apply next_h
    | apply State.regionInit_held
    | apply ite_h
    | apply foldl_h
    | apply ite1_h
    | apply fold1_h
    | split
    | (clear_value *; split))

theorem State.initEnd_held {s : State} {e : Nat} {r : Nat} {result : Nat} {lines : Nat} {late : Bool} {mx : List Instr × Mem} (hh : s.held = mx) : (State.initEnd s e r result lines late).held = mx := by
  unfold State.initEnd
  with_reducible repeat' (first
    | (intro _)
    | (extract_lets +onlyGivenNames tv; first | (refine (fun ht : State.held tv = mx => ?_) ?_; clear_value tv; rotate_left; subst tv; rotate_right) | (refine (fun ht : State.held (Prod.fst tv) = mx => ?_) ?_; clear_value tv; rotate_left; subst tv; rotate_right) | (have hu := tv; clear hu))
    | assumption
    | rfl
    | apply State.put_held
    | apply State.puts_held
    | apply State.raise_held
    | apply ite_h
    | apply foldl_h
    | apply ite1_h
    | apply fold1_h
    | split
    | (clear_value *; split))

theorem State.initFails_held {s : State} {e : Nat} {r : Nat} {x : ProtRegion} {mx : List Instr × Mem} (hh : s.held = mx) : (State.initFails s e r x).held = mx := by
  unfold State.initFails
  with_reducible repeat' (first
    | (intro _)
    | (extract_lets +onlyGivenNames tv; first | (refine (fun ht : State.held tv = mx => ?_) ?_; clear_value tv; rotate_left; subst tv; rotate_right) | (refine (fun ht : State.held (Prod.fst tv) = mx => ?_) ?_; clear_value tv; rotate_left; subst tv; rotate_right) | (have hu := tv; clear hu))
    | assumption
    | rfl
    | apply State.used_held
    | apply State.emit_held
    | apply State.openRange_held
    | apply State.initEnd_held
    | apply ite_h
    | apply foldl_h
    | apply ite1_h
    | apply fold1_h
    | split
    | (clear_value *; split))

theorem State.regionReady_ok {s : State} {e : Nat} {r : Nat} {failed : Bool} {abort : Bool} {mx : List Instr × Mem} (hh : State.Ok mx s) : State.Ok mx (State.regionReady s e r failed abort) := by
  unfold State.regionReady
  with_reducible repeat' (first
    | (intro _)
    | (extract_lets +onlyGivenNames tv; first | (refine (fun ht : State.Ok mx tv => ?_) ?_; clear_value tv; rotate_left; subst tv; rotate_right) | (refine (fun ht : State.Ok mx (Prod.fst tv) => ?_) ?_; clear_value tv; rotate_left; subst tv; rotate_right) | (have hu := tv; clear hu))
    | assumption
    | exact ok_rfl
    | refine State.setMem_ok ?_ ?_
    | refine ok_of (State.setPoison_held rfl) ?_
    | refine ok_of (State.setOpenMem_held rfl) ?_
    | refine ok_of (State.emit_held rfl) ?_
    | refine ok_of (State.onProt_held rfl) ?_
    | refine ok_of (State.initEnd_held rfl) ?_
    | refine ok_of (State.initFails_held rfl) ?_
    | apply Mem.write_wf
    | apply Mem.writeMasked_wf
    | apply Mem.clear_wf
    | apply ite_ok
    | apply foldl_ok
    | apply ite1_ok
    | apply fold1_ok
    | split
    | (clear_value *; split)
    | (with_unfolding_all assumption))

theorem execRegionInitDone_ok {eng : Fin 8} {rgn : Fin 16} {failed : Bool} {abort : Bool} {s : State} {mx : List Instr × Mem} (hh : State.Ok mx s) : ∃ tv, execRegionInitDone eng rgn failed abort s = .next tv ∧ State.Ok mx tv := by
  unfold execRegionInitDone
  with_reducible repeat' (first
    | (intro _)
    | assumption
    | exact ok_rfl
    | apply next_ok
    | apply State.regionReady_ok
    | apply ite_ok
    | apply foldl_ok
    | apply ite1_ok
    | apply fold1_ok
    | split
    | (clear_value *; split))

theorem State.regionAbort_ok {s : State} {e : Nat} {r : Nat} {n : Nat} {mx : List Instr × Mem} (hh : State.Ok mx s) : State.Ok mx (State.regionAbort s e r n) := by
  unfold State.regionAbort
  with_reducible repeat' (first
    | (intro _)
    | assumption
    | exact ok_rfl
    | refine ok_of (State.emit_held rfl) ?_
    | refine ok_of (State.openRange_held rfl) ?_
    | refine ok_of (State.initEnd_held rfl) ?_
    | apply State.regionReady_ok
    | apply ite_ok
    | apply foldl_ok
    | apply ite1_ok
    | apply fold1_ok
    | split
    | (clear_value *; split))

theorem execRegionInitAbort_ok {eng : Fin 8} {rgn : Fin 16} {lines : BitVec 32} {s : State} {mx : List Instr × Mem} (hh : State.Ok mx s) : ∃ tv, execRegionInitAbort eng rgn lines s = .next tv ∧ State.Ok mx tv := by
  unfold execRegionInitAbort
  with_reducible repeat' (first
    | (intro _)
    | assumption
    | exact ok_rfl
    | apply next_ok
    | apply State.regionAbort_ok
    | apply ite_ok
    | apply foldl_ok
    | apply ite1_ok
    | apply fold1_ok
    | split
    | (clear_value *; split))

theorem State.regionLose_ok {s : State} {e : Nat} {r : Nat} {mx : List Instr × Mem} (hh : State.Ok mx s) : State.Ok mx (State.regionLose s e r) := by
  unfold State.regionLose
  with_reducible repeat' (first
    | (intro _)
    | (extract_lets +onlyGivenNames tv; first | (refine (fun ht : State.Ok mx tv => ?_) ?_; clear_value tv; rotate_left; subst tv; rotate_right) | (refine (fun ht : State.Ok mx (Prod.fst tv) => ?_) ?_; clear_value tv; rotate_left; subst tv; rotate_right) | (have hu := tv; clear hu))
    | assumption
    | exact ok_rfl
    | refine ok_of (State.put_held rfl) ?_
    | refine ok_of (State.raise_held rfl) ?_
    | refine ok_of (State.onProt_held rfl) ?_
    | apply State.serveWaiting_ok
    | refine ok_of (State.initFails_held rfl) ?_
    | apply ite_ok
    | apply foldl_ok
    | apply ite1_ok
    | apply fold1_ok
    | split
    | (clear_value *; split))

theorem State.engLose_ok {s : State} {e : Nat} {mx : List Instr × Mem} (hh : State.Ok mx s) : State.Ok mx (State.engLose s e) := by
  unfold State.engLose
  with_reducible repeat' (first
    | (intro _)
    | (extract_lets +onlyGivenNames tv; first | (refine (fun ht : State.Ok mx tv => ?_) ?_; clear_value tv; rotate_left; subst tv; rotate_right) | (refine (fun ht : State.Ok mx (Prod.fst tv) => ?_) ?_; clear_value tv; rotate_left; subst tv; rotate_right) | (have hu := tv; clear hu))
    | assumption
    | exact ok_rfl
    | refine ok_of (State.setPoison_held rfl) ?_
    | refine ok_of (State.setOpenMem_held rfl) ?_
    | refine ok_of (State.openRange_held rfl) ?_
    | apply State.regionLose_ok
    | apply ite_ok
    | apply foldl_ok
    | apply ite1_ok
    | apply fold1_ok
    | split
    | (clear_value *; split))

end Sys2Proof.Machine
end

