-- ==== Sys2Proof/Laws/HeldMemory.lean ====
section
/-! SUPPORT. For each operation of Machine/Memory.lean: the queue and the memory it keeps (`_held`), or, where it stores, that the queue stays and the memory keeps its canonical form (`_ok`). -/

namespace Sys2Proof.Machine
open Sys2Proof
set_option linter.tactic.unusedName false

theorem State.onCxl_held {s : State} {p : Nat} {f : CxlPort → CxlPort} {mx : List Instr × Mem} (hh : s.held = mx) : (State.onCxl s p f).held = mx := by
  unfold State.onCxl
  with_reducible repeat' (first
    | assumption
    | rfl
    | apply State.setCxl_held)

theorem State.setCxlSt_held {s : State} {p : Nat} {n : Nat} {mx : List Instr × Mem} (hh : s.held = mx) : (State.setCxlSt s p n).held = mx := by
  unfold State.setCxlSt
  with_reducible repeat' (first
    | (intro _)
    | assumption
    | rfl
    | apply State.put_held
    | apply State.raise_held
    | apply ite_h)

theorem State.cxlIgnored_held {s : State} {p : Nat} {mx : List Instr × Mem} (hh : s.held = mx) : (State.cxlIgnored s p).held = mx := by
  unfold State.cxlIgnored
  with_reducible repeat' (first
    | assumption
    | rfl
    | apply State.put_held)

theorem State.cxlDetect_held {s : State} {p : Nat} {mx : List Instr × Mem} (hh : s.held = mx) : (State.cxlDetect s p).held = mx := by
  unfold State.cxlDetect
  with_reducible repeat' (first
    | (intro _)
    | (extract_lets +onlyGivenNames tv; first | (refine (fun ht : State.held tv = mx => ?_) ?_; clear_value tv; rotate_left; subst tv; rotate_right) | (refine (fun ht : State.held (Prod.fst tv) = mx => ?_) ?_; clear_value tv; rotate_left; subst tv; rotate_right) | (have hu := tv; clear hu))
    | assumption
    | rfl
    | apply State.setCxlSt_held
    | apply State.put_held
    | apply ite_h
    | apply foldl_h
    | apply ite1_h
    | apply fold1_h
    | split
    | (clear_value *; split))

theorem execCxlPartnerDetect_held {port : Fin 4} {s : State} {mx : List Instr × Mem} (hh : s.held = mx) : ∃ tv, execCxlPartnerDetect port s = .next tv ∧ tv.held = mx := by
  unfold execCxlPartnerDetect
  with_reducible repeat' (first
    | assumption
    | rfl
    | apply next_h
    | apply State.cxlDetect_held)

theorem State.cxlUp_held {s : State} {p : Nat} {speed : Nat} {width : Nat} {mem : Bool} {mx : List Instr × Mem} (hh : s.held = mx) : (State.cxlUp s p speed width mem).held = mx := by
  unfold State.cxlUp
  with_reducible repeat' (first
    | (intro _)
    | (extract_lets +onlyGivenNames tv; first | (refine (fun ht : State.held tv = mx => ?_) ?_; clear_value tv; rotate_left; subst tv; rotate_right) | (refine (fun ht : State.held (Prod.fst tv) = mx => ?_) ?_; clear_value tv; rotate_left; subst tv; rotate_right) | (have hu := tv; clear hu))
    | assumption
    | rfl
    | apply State.setCxlSt_held
    | apply State.puts_held
    | apply ite_h
    | apply foldl_h
    | apply ite1_h
    | apply fold1_h
    | split
    | (clear_value *; split))

theorem execCxlLinkUp_held {port : Fin 4} {speed : BitVec 2} {width : Fin 9} {mem : Bool} {s : State} {mx : List Instr × Mem} (hh : s.held = mx) : ∃ tv, execCxlLinkUp port speed width mem s = .next tv ∧ tv.held = mx := by
  unfold execCxlLinkUp
  with_reducible repeat' (first
    | assumption
    | rfl
    | apply next_h
    | apply State.cxlUp_held)

theorem State.cxlEnable_held {s : State} {p : Nat} {mx : List Instr × Mem} (hh : s.held = mx) : (State.cxlEnable s p).held = mx := by
  unfold State.cxlEnable
  with_reducible repeat' (first
    | (intro _)
    | (extract_lets +onlyGivenNames tv; first | (refine (fun ht : State.held tv = mx => ?_) ?_; clear_value tv; rotate_left; subst tv; rotate_right) | (refine (fun ht : State.held (Prod.fst tv) = mx => ?_) ?_; clear_value tv; rotate_left; subst tv; rotate_right) | (have hu := tv; clear hu))
    | assumption
    | rfl
    | apply State.openRange_held
    | apply State.setCxlSt_held
    | apply State.cxlIgnored_held
    | apply ite_h)

theorem execEnableMem_held {port : Fin 4} {s : State} {mx : List Instr × Mem} (hh : s.held = mx) : ∃ tv, execEnableMem port s = .next tv ∧ tv.held = mx := by
  unfold execEnableMem
  with_reducible repeat' (first
    | assumption
    | rfl
    | apply next_h
    | apply State.cxlEnable_held)

theorem State.cxlSize_held {s : State} {p : Nat} {v : Word} {mx : List Instr × Mem} (hh : s.held = mx) : (State.cxlSize s p v).held = mx := by
  unfold State.cxlSize
  with_reducible repeat' (first
    | (intro _)
    | assumption
    | rfl
    | apply State.writeReg_held
    | apply State.cxlIgnored_held
    | apply ite_h)

theorem execCxlSizeWrite_held {port : Fin 4} {value : BitVec 32} {s : State} {mx : List Instr × Mem} (hh : s.held = mx) : ∃ tv, execCxlSizeWrite port value s = .next tv ∧ tv.held = mx := by
  unfold execCxlSizeWrite
  with_reducible repeat' (first
    | assumption
    | rfl
    | apply next_h
    | apply State.cxlSize_held)

theorem State.cxlIoGo_held {s : State} {p : Nat} {v : Word} {mx : List Instr × Mem} (hh : s.held = mx) : (State.cxlIoGo s p v).held = mx := by
  unfold State.cxlIoGo
  with_reducible repeat' (first
    | (intro _)
    | (extract_lets +onlyGivenNames tv; first | (refine (fun ht : State.held tv = mx => ?_) ?_; clear_value tv; rotate_left; subst tv; rotate_right) | (have hu := tv; clear hu))
    | assumption
    | rfl
    | apply State.writeReg_held
    | apply State.puts_held
    | apply State.onCxl_held
    | apply State.emit_held
    | apply ite_h
    | (clear_value *; split))

theorem execCxlIoAccess_held {port : Fin 4} {value : BitVec 32} {s : State} {mx : List Instr × Mem} (hh : s.held = mx) : ∃ tv, execCxlIoAccess port value s = .next tv ∧ tv.held = mx := by
  unfold execCxlIoAccess
  with_reducible repeat' (first
    | assumption
    | rfl
    | apply next_h
    | apply State.cxlIoGo_held)

theorem State.cxlIoEnd_held {s : State} {p : Nat} {err : Nat} {data : Word} {mx : List Instr × Mem} (hh : s.held = mx) : (State.cxlIoEnd s p err data).held = mx := by
  unfold State.cxlIoEnd
  with_reducible repeat' (first
    | (intro _)
    | (extract_lets +onlyGivenNames tv; first | (refine (fun ht : State.held tv = mx => ?_) ?_; clear_value tv; rotate_left; subst tv; rotate_right) | (have hu := tv; clear hu))
    | assumption
    | rfl
    | apply State.onCxl_held
    | apply State.puts_held
    | apply State.setReg_held
    | apply ite_h)

theorem execCxlIoDone_held {port : Fin 4} {err : BitVec 2} {data : BitVec 32} {s : State} {mx : List Instr × Mem} (hh : s.held = mx) : ∃ tv, execCxlIoDone port err data s = .next tv ∧ tv.held = mx := by
  unfold execCxlIoDone
  with_reducible repeat' (first
    | assumption
    | rfl
    | apply next_h
    | apply State.cxlIoEnd_held)

theorem State.cxlSynth_ok {s : State} {p : Nat} {r : NocReq} {status : Nat} {mx : List Instr × Mem} (hh : State.Ok mx s) : State.Ok mx (State.cxlSynth s p r status) := by
  unfold State.cxlSynth
  with_reducible repeat' (first
    | assumption
    | exact ok_rfl
    | refine ok_of (State.bump_held rfl) ?_
    | apply State.memAnswer_ok)

theorem State.cxlRequest_ok {s : State} {p : Nat} {r : NocReq} {mx : List Instr × Mem} (hh : State.Ok mx s) : State.Ok mx (State.cxlRequest s p r) := by
  unfold State.cxlRequest
  with_reducible repeat' (first
    | (intro _)
    | (extract_lets +onlyGivenNames tv; first | (refine (fun ht : State.Ok mx tv => ?_) ?_; clear_value tv; rotate_left; subst tv; rotate_right) | (refine (fun ht : State.Ok mx (Prod.fst tv) => ?_) ?_; clear_value tv; rotate_left; subst tv; rotate_right) | (have hu := tv; clear hu))
    | assumption
    | exact ok_rfl
    | refine ok_of (State.emit_held rfl) ?_
    | refine ok_of (State.protGate_heldp ‹_› rfl) ?_
    | refine ok_of (State.protGate_held rfl) ?_
    | apply State.memAnswer_ok
    | refine ok_of (State.onCxl_held rfl) ?_
    | apply State.cxlSynth_ok
    | apply ite_ok
    | apply foldl_ok
    | apply ite1_ok
    | apply fold1_ok
    | split
    | (clear_value *; split))

theorem execCxlRequest_ok {port : Fin 4} {r : NocReq} {s : State} {mx : List Instr × Mem} (hh : State.Ok mx s) : ∃ tv, execCxlRequest port r s = .next tv ∧ State.Ok mx tv := by
  unfold execCxlRequest
  with_reducible repeat' (first
    | (intro _)
    | assumption
    | exact ok_rfl
    | apply next_ok
    | apply State.cxlRequest_ok
    | apply ite_ok)

theorem State.cxlResponse_ok {s : State} {p : Nat} {src : Nat} {tag : Nat} {check : MemCheck} {mx : List Instr × Mem} (hh : State.Ok mx s) : State.Ok mx (State.cxlResponse s p src tag check) := by
  unfold State.cxlResponse
  with_reducible repeat' (first
    | (intro _)
    | assumption
    | exact ok_rfl
    | refine ok_of (State.onCxl_held rfl) ?_
    | apply State.memServe_ok
    | split)

theorem execCxlDeviceResponse_ok {port : Fin 4} {src : BitVec 12} {tag : BitVec 10} {check : MemCheck} {s : State} {mx : List Instr × Mem} (hh : State.Ok mx s) : ∃ tv, execCxlDeviceResponse port src tag check s = .next tv ∧ State.Ok mx tv := by
  unfold execCxlDeviceResponse
  with_reducible repeat' (first
    | assumption
    | exact ok_rfl
    | apply next_ok
    | apply State.cxlResponse_ok)

theorem State.cxlDevice_held {s : State} {p : Nat} {write : Bool} {addr : Nat} {data : Nat} {mx : List Instr × Mem} (hh : s.held = mx) : (State.cxlDevice s p write addr data).held = mx := by
  unfold State.cxlDevice
  with_reducible repeat' (first
    | (intro _)
    | assumption
    | rfl
    | apply State.bump_held
    | apply State.emit_held
    | apply State.raise_held
    | apply ite_h
    | apply foldl_h
    | apply ite1_h
    | apply fold1_h
    | split
    | (clear_value *; split))

theorem execCxlDeviceRequest_held {port : Fin 4} {write : Bool} {addr : BitVec 64} {data : BitVec 32} {s : State} {mx : List Instr × Mem} (hh : s.held = mx) : ∃ tv, execCxlDeviceRequest port write addr data s = .next tv ∧ tv.held = mx := by
  unfold execCxlDeviceRequest
  with_reducible repeat' (first
    | assumption
    | rfl
    | apply next_h
    | apply State.cxlDevice_held)

theorem State.cxlAbandon_ok {s : State} {p : Nat} {mx : List Instr × Mem} (hh : State.Ok mx s) : State.Ok mx (State.cxlAbandon s p) := by
  unfold State.cxlAbandon
  with_reducible repeat' (first
    | (intro _)
    | (extract_lets +onlyGivenNames tv; first | (refine (fun ht : State.Ok mx tv => ?_) ?_; clear_value tv; rotate_left; subst tv; rotate_right) | (refine (fun ht : State.Ok mx (Prod.fst tv) => ?_) ?_; clear_value tv; rotate_left; subst tv; rotate_right) | (have hu := tv; clear hu))
    | assumption
    | exact ok_rfl
    | refine ok_of (State.onProt_held rfl) ?_
    | refine ok_of (State.onCxl_held rfl) ?_
    | apply State.cxlSynth_ok
    | apply ite_ok
    | apply foldl_ok
    | apply ite1_ok
    | apply fold1_ok
    | split
    | (clear_value *; split))

theorem State.cxlDetach_ok {s : State} {p : Nat} {cause : Nat} {mx : List Instr × Mem} (hh : State.Ok mx s) : State.Ok mx (State.cxlDetach s p cause) := by
  unfold State.cxlDetach
  with_reducible repeat' (first
    | (intro _)
    | (extract_lets +onlyGivenNames tv; first | (refine (fun ht : State.Ok mx tv => ?_) ?_; clear_value tv; rotate_left; subst tv; rotate_right) | (refine (fun ht : State.Ok mx (Prod.fst tv) => ?_) ?_; clear_value tv; rotate_left; subst tv; rotate_right) | (have hu := tv; clear hu))
    | assumption
    | exact ok_rfl
    | refine ok_of (State.setCxlSt_held rfl) ?_
    | refine ok_of (State.put_held rfl) ?_
    | refine ok_of (State.raise_held rfl) ?_
    | apply State.engLose_ok
    | refine ok_of (State.onCxl_held rfl) ?_
    | apply State.cxlAbandon_ok
    | apply ite_ok
    | apply foldl_ok
    | apply ite1_ok
    | apply fold1_ok
    | split
    | (clear_value *; split))

theorem State.cxlLoss_ok {s : State} {p : Nat} {mx : List Instr × Mem} (hh : State.Ok mx s) : State.Ok mx (State.cxlLoss s p) := by
  unfold State.cxlLoss
  with_reducible repeat' (first
    | (intro _)
    | assumption
    | exact ok_rfl
    | apply State.cxlDetach_ok
    | refine ok_of (State.onCxl_held rfl) ?_
    | refine ok_of (State.setCxlSt_held rfl) ?_
    | apply ite_ok)

theorem execCxlLinkLoss_ok {port : Fin 4} {s : State} {mx : List Instr × Mem} (hh : State.Ok mx s) : ∃ tv, execCxlLinkLoss port s = .next tv ∧ State.Ok mx tv := by
  unfold execCxlLinkLoss
  with_reducible repeat' (first
    | assumption
    | exact ok_rfl
    | apply next_ok
    | apply State.cxlLoss_ok)

theorem State.dropLines_held {s : State} {p : Nat → Bool} {mx : List Instr × Mem} (hh : s.held = mx) : (State.dropLines s p).1.held = mx := by
  unfold State.dropLines
  with_reducible repeat' (first
    | (intro _)
    | (extract_lets +onlyGivenNames tv; first | (refine (fun ht : State.held tv = mx => ?_) ?_; clear_value tv; rotate_left; subst tv; rotate_right) | (refine (fun ht : State.held (Prod.fst tv) = mx => ?_) ?_; clear_value tv; rotate_left; subst tv; rotate_right) | (have hu := tv; clear hu))
    | assumption
    | rfl
    | apply State.setDcLine_held
    | apply State.dirDrop_held
    | apply ite_h
    | apply foldl_h
    | apply ite1_h
    | apply fold1_h
    | split
    | (clear_value *; split))
theorem State.dropLines_heldp {s : State} {p : Nat → Bool} {mx : List Instr × Mem} {tv : State} {ov : Nat} (he : State.dropLines s p = (tv, ov)) (hh : s.held = mx) : tv.held = mx := by
  have k := State.dropLines_held (s := s) (p := p) hh
  rw [he] at k; exact k

theorem State.cxlWalked_held {s : State} {p : Nat} {mx : List Instr × Mem} (hh : s.held = mx) : (State.cxlWalked s p).held = mx := by
  unfold State.cxlWalked
  with_reducible repeat' (first
    | (intro _)
    | (extract_lets +onlyGivenNames tv; first | (refine (fun ht : State.held tv = mx => ?_) ?_; clear_value tv; rotate_left; subst tv; rotate_right) | (refine (fun ht : State.held (Prod.fst tv) = mx => ?_) ?_; clear_value tv; rotate_left; subst tv; rotate_right) | (have hu := tv; clear hu))
    | assumption
    | rfl
    | refine State.dropLines_heldp ‹_› ?_
    | apply State.dropLines_held
    | apply State.bump_held
    | apply State.onCxl_held
    | apply State.raise_held
    | apply ite_h)

theorem execCxlDetachWalkDone_held {port : Fin 4} {s : State} {mx : List Instr × Mem} (hh : s.held = mx) : ∃ tv, execCxlDetachWalkDone port s = .next tv ∧ tv.held = mx := by
  unfold execCxlDetachWalkDone
  with_reducible repeat' (first
    | assumption
    | rfl
    | apply next_h
    | apply State.cxlWalked_held)

theorem State.cxlPlanned_ok {s : State} {p : Nat} {mx : List Instr × Mem} (hh : State.Ok mx s) : State.Ok mx (State.cxlPlanned s p) := by
  unfold State.cxlPlanned
  with_reducible repeat' (first
    | (intro _)
    | assumption
    | exact ok_rfl
    | apply State.flushBuffer_ok
    | refine ok_of (State.onCxl_held rfl) ?_
    | refine ok_of (State.cxlIgnored_held rfl) ?_
    | apply ite_ok
    | apply foldl_ok
    | apply ite1_ok
    | apply fold1_ok
    | split
    | (clear_value *; split))

theorem execDetach_ok {port : Fin 4} {s : State} {mx : List Instr × Mem} (hh : State.Ok mx s) : ∃ tv, execDetach port s = .next tv ∧ State.Ok mx tv := by
  unfold execDetach
  with_reducible repeat' (first
    | (intro _)
    | assumption
    | exact ok_rfl
    | apply next_ok
    | apply State.cxlPlanned_ok
    | apply ite_ok
    | apply foldl_ok
    | apply ite1_ok
    | apply fold1_ok
    | split
    | (clear_value *; split))

theorem State.cxlDrained_ok {s : State} {p : Nat} {mx : List Instr × Mem} (hh : State.Ok mx s) : State.Ok mx (State.cxlDrained s p) := by
  unfold State.cxlDrained
  with_reducible repeat' (first
    | (intro _)
    | assumption
    | exact ok_rfl
    | apply State.cxlDetach_ok
    | apply ite_ok)

theorem execCxlDetachDrainEnd_ok {port : Fin 4} {s : State} {mx : List Instr × Mem} (hh : State.Ok mx s) : ∃ tv, execCxlDetachDrainEnd port s = .next tv ∧ State.Ok mx tv := by
  unfold execCxlDetachDrainEnd
  with_reducible repeat' (first
    | assumption
    | exact ok_rfl
    | apply next_ok
    | apply State.cxlDrained_ok)

theorem State.cxlAck_held {s : State} {p : Nat} {mx : List Instr × Mem} (hh : s.held = mx) : (State.cxlAck s p).held = mx := by
  unfold State.cxlAck
  with_reducible repeat' (first
    | (intro _)
    | assumption
    | rfl
    | apply State.setCxlSt_held
    | apply State.cxlIgnored_held
    | apply ite_h)

theorem execAckDetach_held {port : Fin 4} {s : State} {mx : List Instr × Mem} (hh : s.held = mx) : ∃ tv, execAckDetach port s = .next tv ∧ tv.held = mx := by
  unfold execAckDetach
  with_reducible repeat' (first
    | assumption
    | rfl
    | apply next_h
    | apply State.cxlAck_held)

theorem State.cxlReenable_held {s : State} {p : Nat} {mx : List Instr × Mem} (hh : s.held = mx) : (State.cxlReenable s p).held = mx := by
  unfold State.cxlReenable
  with_reducible repeat' (first
    | (intro _)
    | assumption
    | rfl
    | apply State.cxlIgnored_held
    | apply State.put_held
    | apply ite_h)

theorem execCxlTxReenable_held {port : Fin 4} {s : State} {mx : List Instr × Mem} (hh : s.held = mx) : ∃ tv, execCxlTxReenable port s = .next tv ∧ tv.held = mx := by
  unfold execCxlTxReenable
  with_reducible repeat' (first
    | assumption
    | rfl
    | apply next_h
    | apply State.cxlReenable_held)

theorem State.cxlCtrl_ok {s : State} {p : Nat} {v : Word} {mx : List Instr × Mem} (hh : State.Ok mx s) : State.Ok mx (State.cxlCtrl s p v) := by
  unfold State.cxlCtrl
  with_reducible repeat' (first
    | (intro _)
    | (extract_lets +onlyGivenNames tv; first | (refine (fun ht : State.Ok mx tv => ?_) ?_; clear_value tv; rotate_left; subst tv; rotate_right) | (refine (fun ht : State.Ok mx (Prod.fst tv) => ?_) ?_; clear_value tv; rotate_left; subst tv; rotate_right) | (have hu := tv; clear hu))
    | assumption
    | exact ok_rfl
    | refine ok_of (State.writeReg_held rfl) ?_
    | refine ok_of (State.cxlEnable_held rfl) ?_
    | apply State.cxlPlanned_ok
    | refine ok_of (State.cxlAck_held rfl) ?_
    | refine ok_of (State.cxlReenable_held rfl) ?_
    | apply ite_ok
    | apply foldl_ok
    | apply ite1_ok
    | apply fold1_ok
    | split
    | (clear_value *; split))

theorem State.cxlLeave_ok {s : State} {p : Nat} {mx : List Instr × Mem} (hh : State.Ok mx s) : State.Ok mx (State.cxlLeave s p) := by
  unfold State.cxlLeave
  with_reducible repeat' (first
    | (extract_lets +onlyGivenNames tv; first | (refine (fun ht : State.Ok mx tv => ?_) ?_; clear_value tv; rotate_left; subst tv; rotate_right) | (have hu := tv; clear hu))
    | assumption
    | exact ok_rfl
    | refine ok_of (State.put_held rfl) ?_
    | refine ok_of (State.setCxlSt_held rfl) ?_
    | apply State.cxlLoss_ok
    | split
    | (clear_value *; split))

theorem execCxlPartnerLeave_ok {port : Fin 4} {s : State} {mx : List Instr × Mem} (hh : State.Ok mx s) : ∃ tv, execCxlPartnerLeave port s = .next tv ∧ State.Ok mx tv := by
  unfold execCxlPartnerLeave
  with_reducible repeat' (first
    | assumption
    | exact ok_rfl
    | apply next_ok
    | apply State.cxlLeave_ok)

theorem State.setDdrSt_held {s : State} {ch : Nat} {n : Nat} {mx : List Instr × Mem} (hh : s.held = mx) : (State.setDdrSt s ch n).held = mx := by
  unfold State.setDdrSt
  with_reducible repeat' (first
    | assumption
    | rfl
    | apply State.put_held)

theorem State.ddrIgnored_held {s : State} {ch : Nat} {mx : List Instr × Mem} (hh : s.held = mx) : (State.ddrIgnored s ch).held = mx := by
  unfold State.ddrIgnored
  with_reducible repeat' (first
    | assumption
    | rfl
    | apply State.put_held)

theorem State.ddrRequest_ok {s : State} {ch : Nat} {r : NocReq} {check : MemCheck} {mx : List Instr × Mem} (hh : State.Ok mx s) : State.Ok mx (State.ddrRequest s ch r check) := by
  unfold State.ddrRequest
  with_reducible repeat' (first
    | (intro _)
    | (extract_lets +onlyGivenNames tv; first | (refine (fun ht : State.Ok mx tv => ?_) ?_; clear_value tv; rotate_left; subst tv; rotate_right) | (refine (fun ht : State.Ok mx (Prod.fst tv) => ?_) ?_; clear_value tv; rotate_left; subst tv; rotate_right) | (have hu := tv; clear hu))
    | assumption
    | exact ok_rfl
    | refine ok_of (State.protGate_heldp ‹_› rfl) ?_
    | refine ok_of (State.protGate_held rfl) ?_
    | refine ok_of (State.onDdr_held rfl) ?_
    | apply State.memAnswer_ok
    | apply State.memServe_ok
    | apply ite_ok
    | apply foldl_ok
    | apply ite1_ok
    | apply fold1_ok
    | split
    | (clear_value *; split))

theorem execDdrRequest_ok {ch : Fin 4} {r : NocReq} {check : MemCheck} {s : State} {mx : List Instr × Mem} (hh : State.Ok mx s) : ∃ tv, execDdrRequest ch r check s = .next tv ∧ State.Ok mx tv := by
  unfold execDdrRequest
  with_reducible repeat' (first
    | (intro _)
    | assumption
    | exact ok_rfl
    | apply next_ok
    | apply State.ddrRequest_ok
    | apply ite_ok)

theorem State.ddrInit_held {s : State} {ch : Nat} {mx : List Instr × Mem} (hh : s.held = mx) : (State.ddrInit s ch).held = mx := by
  unfold State.ddrInit
  with_reducible repeat' (first
    | (intro _)
    | assumption
    | rfl
    | apply State.onDdr_held
    | apply State.ddrIgnored_held
    | apply ite_h)

theorem execInit_held {ch : Fin 4} {s : State} {mx : List Instr × Mem} (hh : s.held = mx) : ∃ tv, execInit ch s = .next tv ∧ tv.held = mx := by
  unfold execInit
  with_reducible repeat' (first
    | assumption
    | rfl
    | apply next_h
    | apply State.ddrInit_held)

theorem State.ddrInitEnd_held {s : State} {ch : Nat} {mx : List Instr × Mem} (hh : s.held = mx) : (State.ddrInitEnd s ch).held = mx := by
  unfold State.ddrInitEnd
  with_reducible repeat' (first
    | (intro _)
    | assumption
    | rfl
    | apply State.setDdrSt_held
    | apply State.onDdr_held
    | apply ite_h
    | apply foldl_h
    | apply ite1_h
    | apply fold1_h
    | split
    | (clear_value *; split))

theorem execDdrInitDone_held {ch : Fin 4} {s : State} {mx : List Instr × Mem} (hh : s.held = mx) : ∃ tv, execDdrInitDone ch s = .next tv ∧ tv.held = mx := by
  unfold execDdrInitDone
  with_reducible repeat' (first
    | assumption
    | rfl
    | apply next_h
    | apply State.ddrInitEnd_held)

theorem State.ddrGo_held {s : State} {ch : Nat} {mx : List Instr × Mem} (hh : s.held = mx) : (State.ddrGo s ch).held = mx := by
  unfold State.ddrGo
  with_reducible repeat' (first
    | (intro _)
    | assumption
    | rfl
    | apply State.setDdrSt_held
    | apply State.ddrIgnored_held
    | apply ite_h)

theorem execGoReady_held {ch : Fin 4} {s : State} {mx : List Instr × Mem} (hh : s.held = mx) : ∃ tv, execGoReady ch s = .next tv ∧ tv.held = mx := by
  unfold execGoReady
  with_reducible repeat' (first
    | assumption
    | rfl
    | apply next_h
    | apply State.ddrGo_held)

theorem State.ddrForget_ok {s : State} {ch : Nat} {lost : List (Nat × Nat)} {mx : List Instr × Mem} (hh : State.Ok mx s) : State.Ok mx (State.ddrForget s ch lost) := by
  unfold State.ddrForget
  with_reducible repeat' (first
    | (intro _)
    | (extract_lets +onlyGivenNames tv; first | (refine (fun ht : State.Ok mx tv => ?_) ?_; clear_value tv; rotate_left; subst tv; rotate_right) | (refine (fun ht : State.Ok mx (Prod.fst tv) => ?_) ?_; clear_value tv; rotate_left; subst tv; rotate_right) | (have hu := tv; clear hu))
    | assumption
    | exact ok_rfl
    | refine ok_of (State.openRange_held rfl) ?_
    | apply State.flushBuffer_ok
    | apply State.regionLose_ok
    | apply ite_ok
    | apply foldl_ok
    | apply ite1_ok
    | apply fold1_ok
    | split
    | (clear_value *; split))

theorem State.ddrSleep_ok {s : State} {ch : Nat} {mx : List Instr × Mem} (hh : State.Ok mx s) : State.Ok mx (State.ddrSleep s ch) := by
  unfold State.ddrSleep
  with_reducible repeat' (first
    | (intro _)
    | assumption
    | exact ok_rfl
    | refine ok_of (State.setDdrSt_held rfl) ?_
    | apply State.ddrForget_ok
    | apply ite_ok
    | apply foldl_ok
    | apply ite1_ok
    | apply fold1_ok
    | split
    | (clear_value *; split))

theorem State.ddrSrEnter_ok {s : State} {ch : Nat} {mx : List Instr × Mem} (hh : State.Ok mx s) : State.Ok mx (State.ddrSrEnter s ch) := by
  unfold State.ddrSrEnter
  with_reducible repeat' (first
    | (intro _)
    | assumption
    | exact ok_rfl
    | refine ok_of (State.ddrIgnored_held rfl) ?_
    | apply State.ddrSleep_ok
    | apply ite_ok
    | apply foldl_ok
    | apply ite1_ok
    | apply fold1_ok
    | split
    | (clear_value *; split))

theorem execSrEnter_ok {ch : Fin 4} {s : State} {mx : List Instr × Mem} (hh : State.Ok mx s) : ∃ tv, execSrEnter ch s = .next tv ∧ State.Ok mx tv := by
  unfold execSrEnter
  with_reducible repeat' (first
    | (intro _)
    | assumption
    | exact ok_rfl
    | apply next_ok
    | apply State.ddrSrEnter_ok
    | apply ite_ok
    | apply foldl_ok
    | apply ite1_ok
    | apply fold1_ok
    | split
    | (clear_value *; split))

theorem State.ddrSrExit_held {s : State} {ch : Nat} {mx : List Instr × Mem} (hh : s.held = mx) : (State.ddrSrExit s ch).held = mx := by
  unfold State.ddrSrExit
  with_reducible repeat' (first
    | (intro _)
    | assumption
    | rfl
    | apply State.onDdr_held
    | apply State.ddrIgnored_held
    | apply ite_h)

theorem execSrExit_held {ch : Fin 4} {s : State} {mx : List Instr × Mem} (hh : s.held = mx) : ∃ tv, execSrExit ch s = .next tv ∧ tv.held = mx := by
  unfold execSrExit
  with_reducible repeat' (first
    | assumption
    | rfl
    | apply next_h
    | apply State.ddrSrExit_held)

theorem State.ddrAwake_ok {s : State} {ch : Nat} {mx : List Instr × Mem} (hh : State.Ok mx s) : State.Ok mx (State.ddrAwake s ch) := by
  unfold State.ddrAwake
  with_reducible repeat' (first
    | (intro _)
    | (extract_lets +onlyGivenNames tv; first | (refine (fun ht : State.Ok mx tv => ?_) ?_; clear_value tv; rotate_left; subst tv; rotate_right) | (refine (fun ht : State.Ok mx (Prod.fst tv) => ?_) ?_; clear_value tv; rotate_left; subst tv; rotate_right) | (have hu := tv; clear hu))
    | assumption
    | exact ok_rfl
    | refine ok_of (State.setDdrSt_held rfl) ?_
    | refine ok_of (State.onDdr_held rfl) ?_
    | apply State.memServe_ok
    | apply ite_ok
    | apply foldl_ok
    | apply ite1_ok
    | apply fold1_ok
    | split
    | (clear_value *; split))

theorem execDdrSrExitDone_ok {ch : Fin 4} {s : State} {mx : List Instr × Mem} (hh : State.Ok mx s) : ∃ tv, execDdrSrExitDone ch s = .next tv ∧ State.Ok mx tv := by
  unfold execDdrSrExitDone
  with_reducible repeat' (first
    | assumption
    | exact ok_rfl
    | apply next_ok
    | apply State.ddrAwake_ok)

theorem State.ddrCmd_ok {s : State} {ch : Nat} {v : Nat} {mx : List Instr × Mem} (hh : State.Ok mx s) : State.Ok mx (State.ddrCmd s ch v) := by
  unfold State.ddrCmd
  with_reducible repeat' (first
    | (intro _)
    | (extract_lets +onlyGivenNames tv; first | (refine (fun ht : State.Ok mx tv => ?_) ?_; clear_value tv; rotate_left; subst tv; rotate_right) | (refine (fun ht : State.Ok mx (Prod.fst tv) => ?_) ?_; clear_value tv; rotate_left; subst tv; rotate_right) | (have hu := tv; clear hu))
    | assumption
    | exact ok_rfl
    | refine ok_of (State.ddrInit_held rfl) ?_
    | refine ok_of (State.ddrGo_held rfl) ?_
    | apply State.ddrSrEnter_ok
    | refine ok_of (State.ddrSrExit_held rfl) ?_
    | apply ite_ok
    | apply foldl_ok
    | apply ite1_ok
    | apply fold1_ok
    | split
    | (clear_value *; split))

theorem State.ddrMode_held {s : State} {ch : Nat} {v : Word} {mx : List Instr × Mem} (hh : s.held = mx) : (State.ddrMode s ch v).held = mx := by
  unfold State.ddrMode
  with_reducible repeat' (first
    | (intro _)
    | (extract_lets +onlyGivenNames tv; first | (refine (fun ht : State.held tv = mx => ?_) ?_; clear_value tv; rotate_left; subst tv; rotate_right) | (have hu := tv; clear hu))
    | assumption
    | rfl
    | apply State.writeReg_held
    | apply State.emit_held
    | apply ite_h)

theorem execDdrModeRegisterWrite_held {ch : Fin 4} {value : BitVec 32} {s : State} {mx : List Instr × Mem} (hh : s.held = mx) : ∃ tv, execDdrModeRegisterWrite ch value s = .next tv ∧ tv.held = mx := by
  unfold execDdrModeRegisterWrite
  with_reducible repeat' (first
    | assumption
    | rfl
    | apply next_h
    | apply State.ddrMode_held)

theorem State.ddrTrain_held {s : State} {ch : Nat} {op : Nat} {rank : Bool} {count : Nat} {mx : List Instr × Mem} (hh : s.held = mx) : (State.ddrTrain s ch op rank count).held = mx := by
  unfold State.ddrTrain
  with_reducible repeat' (first
    | (intro _)
    | (extract_lets +onlyGivenNames tv; first | (refine (fun ht : State.held tv = mx => ?_) ?_; clear_value tv; rotate_left; subst tv; rotate_right) | (refine (fun ht : State.held (Prod.fst tv) = mx => ?_) ?_; clear_value tv; rotate_left; subst tv; rotate_right) | (have hu := tv; clear hu))
    | assumption
    | rfl
    | apply State.setDdrSt_held
    | apply State.put_held
    | apply State.puts_held
    | apply State.emit_held
    | apply State.onDdr_held
    | apply ite_h
    | apply foldl_h
    | apply ite1_h
    | apply fold1_h
    | split
    | (clear_value *; split))

theorem execDdrTrainingCa_held {ch : Fin 4} {rank : Bool} {count : BitVec 16} {s : State} {mx : List Instr × Mem} (hh : s.held = mx) : ∃ tv, execDdrTrainingCa ch rank count s = .next tv ∧ tv.held = mx := by
  unfold execDdrTrainingCa
  with_reducible repeat' (first
    | assumption
    | rfl
    | apply next_h
    | apply State.ddrTrain_held)

theorem execDdrTrainingWlvl_held {ch : Fin 4} {rank : Bool} {count : BitVec 16} {s : State} {mx : List Instr × Mem} (hh : s.held = mx) : ∃ tv, execDdrTrainingWlvl ch rank count s = .next tv ∧ tv.held = mx := by
  unfold execDdrTrainingWlvl
  with_reducible repeat' (first
    | assumption
    | rfl
    | apply next_h
    | apply State.ddrTrain_held)

theorem execDdrTrainingRd_held {ch : Fin 4} {rank : Bool} {count : BitVec 16} {s : State} {mx : List Instr × Mem} (hh : s.held = mx) : ∃ tv, execDdrTrainingRd ch rank count s = .next tv ∧ tv.held = mx := by
  unfold execDdrTrainingRd
  with_reducible repeat' (first
    | assumption
    | rfl
    | apply next_h
    | apply State.ddrTrain_held)

theorem execDdrTrainingWr_held {ch : Fin 4} {rank : Bool} {count : BitVec 16} {s : State} {mx : List Instr × Mem} (hh : s.held = mx) : ∃ tv, execDdrTrainingWr ch rank count s = .next tv ∧ tv.held = mx := by
  unfold execDdrTrainingWr
  with_reducible repeat' (first
    | assumption
    | rfl
    | apply next_h
    | apply State.ddrTrain_held)

theorem State.ddrStepEnd_held {s : State} {ch : Nat} {result : Nat} {late : Bool} {mx : List Instr × Mem} (hh : s.held = mx) : (State.ddrStepEnd s ch result late).held = mx := by
  unfold State.ddrStepEnd
  with_reducible repeat' (first
    | (intro _)
    | (extract_lets +onlyGivenNames tv; first | (refine (fun ht : State.held tv = mx => ?_) ?_; clear_value tv; rotate_left; subst tv; rotate_right) | (refine (fun ht : State.held (Prod.fst tv) = mx => ?_) ?_; clear_value tv; rotate_left; subst tv; rotate_right) | (have hu := tv; clear hu))
    | assumption
    | rfl
    | apply State.setDdrSt_held
    | apply State.put_held
    | apply State.puts_held
    | apply State.raise_held
    | apply State.onDdr_held
    | apply ite_h
    | apply foldl_h
    | apply ite1_h
    | apply fold1_h
    | split
    | (clear_value *; split))

theorem State.ddrAbort_held {s : State} {ch : Nat} {mx : List Instr × Mem} (hh : s.held = mx) : (State.ddrAbort s ch).held = mx := by
  unfold State.ddrAbort
  with_reducible repeat' (first
    | (intro _)
    | assumption
    | rfl
    | apply State.ddrStepEnd_held
    | apply ite_h)

theorem execDdrTrainingAbort_held {ch : Fin 4} {s : State} {mx : List Instr × Mem} (hh : s.held = mx) : ∃ tv, execDdrTrainingAbort ch s = .next tv ∧ tv.held = mx := by
  unfold execDdrTrainingAbort
  with_reducible repeat' (first
    | assumption
    | rfl
    | apply next_h
    | apply State.ddrAbort_held)

theorem State.ddrStepDone_held {s : State} {ch : Nat} {errors : Nat} {fails : Nat} {abort : Bool} {mx : List Instr × Mem} (hh : s.held = mx) : (State.ddrStepDone s ch errors fails abort).held = mx := by
  unfold State.ddrStepDone
  with_reducible repeat' (first
    | (intro _)
    | assumption
    | rfl
    | apply State.onDdr_held
    | apply State.ddrStepEnd_held
    | apply ite_h)

theorem execDdrTrainingStepDone_held {ch : Fin 4} {errors : BitVec 160} {fails : BitVec 80} {abort : Bool} {s : State} {mx : List Instr × Mem} (hh : s.held = mx) : ∃ tv, execDdrTrainingStepDone ch errors fails abort s = .next tv ∧ tv.held = mx := by
  unfold execDdrTrainingStepDone
  with_reducible repeat' (first
    | assumption
    | rfl
    | apply next_h
    | apply State.ddrStepDone_held)

theorem State.ddrTrnCtrl_held {s : State} {ch : Nat} {v : Nat} {mx : List Instr × Mem} (hh : s.held = mx) : (State.ddrTrnCtrl s ch v).held = mx := by
  unfold State.ddrTrnCtrl
  with_reducible repeat' (first
    | (intro _)
    | (extract_lets +onlyGivenNames tv; first | (refine (fun ht : State.held tv = mx => ?_) ?_; clear_value tv; rotate_left; subst tv; rotate_right) | (have hu := tv; clear hu))
    | assumption
    | rfl
    | apply State.ddrTrain_held
    | apply State.puts_held
    | apply State.ddrAbort_held
    | apply ite_h)

theorem execDdrRefresh_held {ch : Fin 4} {s : State} {mx : List Instr × Mem} (hh : s.held = mx) : ∃ tv, execDdrRefresh ch s = .next tv ∧ tv.held = mx := by
  unfold execDdrRefresh
  with_reducible repeat' (first
    | (intro _)
    | assumption
    | rfl
    | apply next_h
    | apply State.emit_held
    | apply ite_h
    | apply foldl_h
    | apply ite1_h
    | apply fold1_h
    | split
    | (clear_value *; split))

theorem execDdrMr4Poll_held {ch : Fin 4} {rank : Bool} {hot : Bool} {s : State} {mx : List Instr × Mem} (hh : s.held = mx) : ∃ tv, execDdrMr4Poll ch rank hot s = .next tv ∧ tv.held = mx := by
  unfold execDdrMr4Poll
  with_reducible repeat' (first
    | (intro _)
    | assumption
    | rfl
    | apply next_h
    | apply State.onDdr_held
    | apply ite_h)

theorem State.ddrDrift_held {s : State} {ch : Nat} {rank : Nat} {wr : Nat} {rd : Nat} {mx : List Instr × Mem} (hh : s.held = mx) : (State.ddrDrift s ch rank wr rd).held = mx := by
  unfold State.ddrDrift
  with_reducible repeat' (first
    | (intro _)
    | assumption
    | rfl
    | apply State.put_held
    | apply ite_h
    | apply foldl_h)

theorem execDdrDqsDriftCheck_held {ch : Fin 4} {rank : Bool} {wr : BitVec 90} {rd : BitVec 90} {s : State} {mx : List Instr × Mem} (hh : s.held = mx) : ∃ tv, execDdrDqsDriftCheck ch rank wr rd s = .next tv ∧ tv.held = mx := by
  unfold execDdrDqsDriftCheck
  with_reducible repeat' (first
    | assumption
    | rfl
    | apply next_h
    | apply State.ddrDrift_held)

theorem State.lineAgain_held {s : State} {e : Nat} {line : Nat} {mx : List Instr × Mem} (hh : s.held = mx) : (State.lineAgain s e line).held = mx := by
  unfold State.lineAgain
  with_reducible repeat' (first
    | (intro _)
    | assumption
    | rfl
    | apply State.used_held
    | apply State.emit_held
    | apply State.lineOut_held
    | apply ite_h
    | apply foldl_h
    | apply ite1_h
    | apply fold1_h
    | split
    | (clear_value *; split))

theorem State.ddrPatrol_held {s : State} {ch : Nat} {line : Nat} {check : MemCheck} {mx : List Instr × Mem} (hh : s.held = mx) : (State.ddrPatrol s ch line check).held = mx := by
  unfold State.ddrPatrol
  with_reducible repeat' (first
    | (intro _)
    | (extract_lets +onlyGivenNames tv; first | (refine (fun ht : State.held tv = mx => ?_) ?_; clear_value tv; rotate_left; subst tv; rotate_right) | (refine (fun ht : State.held (Prod.fst tv) = mx => ?_) ?_; clear_value tv; rotate_left; subst tv; rotate_right) | (have hu := tv; clear hu))
    | assumption
    | rfl
    | apply State.pageAccess_held
    | apply State.ddrCe_held
    | apply State.ddrUe_held
    | apply State.lineAgain_held
    | apply ite_h
    | apply foldl_h
    | apply ite1_h
    | apply fold1_h
    | split
    | (clear_value *; split))

theorem execDdrPatrolRead_held {ch : Fin 4} {line : BitVec 30} {check : MemCheck} {s : State} {mx : List Instr × Mem} (hh : s.held = mx) : ∃ tv, execDdrPatrolRead ch line check s = .next tv ∧ tv.held = mx := by
  unfold execDdrPatrolRead
  with_reducible repeat' (first
    | assumption
    | rfl
    | apply next_h
    | apply State.ddrPatrol_held)

theorem State.ddrReset_ok {s : State} {ch : Nat} {mx : List Instr × Mem} (hh : State.Ok mx s) : State.Ok mx (State.ddrReset s ch) := by
  unfold State.ddrReset
  with_reducible repeat' (first
    | (intro _)
    | assumption
    | exact ok_rfl
    | refine ok_of (State.setDdr_held rfl) ?_
    | refine ok_of (State.setDdrSt_held rfl) ?_
    | refine ok_of (State.put_held rfl) ?_
    | apply State.engLose_ok
    | apply ite_ok
    | apply foldl_ok
    | apply ite1_ok
    | apply fold1_ok
    | split
    | (clear_value *; split))

theorem State.ddrCfg_ok {s : State} {ch : Nat} {v : Word} {mx : List Instr × Mem} (hh : State.Ok mx s) : State.Ok mx (State.ddrCfg s ch v) := by
  unfold State.ddrCfg
  with_reducible repeat' (first
    | (intro _)
    | (extract_lets +onlyGivenNames tv; first | (refine (fun ht : State.Ok mx tv => ?_) ?_; clear_value tv; rotate_left; subst tv; rotate_right) | (refine (fun ht : State.Ok mx (Prod.fst tv) => ?_) ?_; clear_value tv; rotate_left; subst tv; rotate_right) | (have hu := tv; clear hu))
    | assumption
    | exact ok_rfl
    | refine ok_of (State.writeReg_held rfl) ?_
    | apply State.ddrForget_ok
    | apply State.ddrReset_ok
    | apply ite_ok
    | apply foldl_ok
    | apply ite1_ok
    | apply fold1_ok
    | split
    | (clear_value *; split))

theorem State.pcieUp_held {s : State} {speed : Nat} {width : Nat} {vectors : List Nat} {mx : List Instr × Mem} (hh : s.held = mx) : (State.pcieUp s speed width vectors).held = mx := by
  unfold State.pcieUp
  with_reducible repeat' (first
    | (intro _)
    | (extract_lets +onlyGivenNames tv; first | (refine (fun ht : State.held tv = mx => ?_) ?_; clear_value tv; rotate_left; subst tv; rotate_right) | (refine (fun ht : State.held (Prod.fst tv) = mx => ?_) ?_; clear_value tv; rotate_left; subst tv; rotate_right) | (have hu := tv; clear hu))
    | assumption
    | rfl
    | apply State.setPcie_held
    | apply State.puts_held
    | apply State.emit_held
    | apply State.msix_held
    | apply State.raise_held
    | apply ite_h
    | apply foldl_h
    | apply ite1_h
    | apply fold1_h
    | split
    | (clear_value *; split))

theorem execPcieLinkUp_held {speed : BitVec 3} {width : BitVec 5} {vectors : List (BitVec 11)} {s : State} {mx : List Instr × Mem} (hh : s.held = mx) : ∃ tv, execPcieLinkUp speed width vectors s = .next tv ∧ tv.held = mx := by
  unfold execPcieLinkUp
  with_reducible repeat' (first
    | (intro _)
    | assumption
    | rfl
    | apply next_h
    | apply State.pcieUp_held
    | apply ite_h
    | apply foldl_h
    | apply ite1_h
    | apply fold1_h
    | split
    | (clear_value *; split))

theorem State.ringStop_held {s : State} {ring : Nat} {cause : Nat} {mx : List Instr × Mem} (hh : s.held = mx) : (State.ringStop s ring cause).held = mx := by
  unfold State.ringStop
  with_reducible repeat' (first
    | assumption
    | rfl
    | apply State.puts_held)

theorem State.pcieDown_held {s : State} {mx : List Instr × Mem} (hh : s.held = mx) : (State.pcieDown s).held = mx := by
  unfold State.pcieDown
  with_reducible repeat' (first
    | (intro _)
    | (extract_lets +onlyGivenNames tv; first | (refine (fun ht : State.held tv = mx => ?_) ?_; clear_value tv; rotate_left; subst tv; rotate_right) | (have hu := tv; clear hu))
    | assumption
    | rfl
    | apply State.setPcie_held
    | apply State.ringStop_held
    | apply State.puts_held
    | apply State.raise_held
    | apply ite_h
    | apply foldl_h)

theorem execPcieLinkDown_held {s : State} {mx : List Instr × Mem} (hh : s.held = mx) : ∃ tv, execPcieLinkDown s = .next tv ∧ tv.held = mx := by
  unfold execPcieLinkDown
  with_reducible repeat' (first
    | assumption
    | rfl
    | apply next_h
    | apply State.pcieDown_held)

theorem State.pcieReenable_held {s : State} {mx : List Instr × Mem} (hh : s.held = mx) : (State.pcieReenable s).held = mx := by
  unfold State.pcieReenable
  with_reducible repeat' (first
    | (intro _)
    | assumption
    | rfl
    | apply State.put_held
    | apply ite_h)

theorem execPcieTxReenable_held {s : State} {mx : List Instr × Mem} (hh : s.held = mx) : ∃ tv, execPcieTxReenable s = .next tv ∧ tv.held = mx := by
  unfold execPcieTxReenable
  with_reducible repeat' (first
    | assumption
    | rfl
    | apply next_h
    | apply State.pcieReenable_held)

theorem State.memSafe_ok {s : State} {d : Die} {mx : List Instr × Mem} (hh : State.Ok mx s) : State.Ok mx (State.memSafe s d) := by
  unfold State.memSafe
  with_reducible repeat' (first
    | (intro _)
    | (extract_lets +onlyGivenNames tv; first | (refine (fun ht : State.Ok mx tv => ?_) ?_; clear_value tv; rotate_left; subst tv; rotate_right) | (have hu := tv; clear hu))
    | assumption
    | exact ok_rfl
    | apply State.cxlDetach_ok
    | refine ok_of (State.onCxl_held rfl) ?_
    | refine ok_of (State.setCxlSt_held rfl) ?_
    | refine ok_of (State.put_held rfl) ?_
    | refine ok_of (State.pcieDown_held rfl) ?_
    | apply ite_ok
    | apply foldl_ok
    | apply ite1_ok
    | apply fold1_ok
    | split
    | (clear_value *; split))

theorem State.homeLost_ok {s : State} {mx : List Instr × Mem} (hh : State.Ok mx s) : State.Ok mx (State.homeLost s).1 := by
  unfold State.homeLost
  with_reducible repeat' (first
    | (intro _)
    | (extract_lets +onlyGivenNames tv; first | (refine (fun ht : State.Ok mx tv => ?_) ?_; clear_value tv; rotate_left; subst tv; rotate_right) | (refine (fun ht : State.Ok mx (Prod.fst tv) => ?_) ?_; clear_value tv; rotate_left; subst tv; rotate_right) | (have hu := tv; clear hu))
    | assumption
    | exact ok_rfl
    | refine ok_of (State.setCxl_held rfl) ?_
    | refine ok_of (State.onProt_held rfl) ?_
    | apply State.engLose_ok
    | refine ok_of (State.dropLines_heldp ‹_› rfl) ?_
    | refine ok_of (State.dropLines_held rfl) ?_
    | apply State.ddrReset_ok
    | apply ite_ok
    | apply foldl_ok
    | apply ite1_ok
    | apply fold1_ok
    | split
    | (clear_value *; split))
theorem State.homeLost_okp {s : State} {mx : List Instr × Mem} {tv : State} {ov : Nat} (he : State.homeLost s = (tv, ov)) (hh : State.Ok mx s) : State.Ok mx tv := by
  have k := State.homeLost_ok (s := s) hh
  rw [he] at k; exact k

end Sys2Proof.Machine
end

