-- ==== Sys2Proof/Laws/HeldLookup.lean ====
section
/-! SUPPORT. For each operation of Machine/Lookup.lean: the queue and the memory it keeps (`_held`), or, where it stores, that the queue stays and the memory keeps its canonical form (`_ok`). -/

namespace Sys2Proof.Machine
open Sys2Proof
set_option linter.tactic.unusedName false

theorem State.entrySeen_held {s : State} {d : Die} {p : Place} {mx : List Instr × Mem} (hh : s.held = mx) : (State.entrySeen s d p).held = mx := by
  unfold State.entrySeen
  with_reducible repeat' (first
    | assumption
    | rfl
    | refine State.eccRead_heldp ‹_› ?_
    | apply State.eccRead_held)

theorem State.lookSeen_held {s : State} {d : Die} {key : Nat} {mx : List Instr × Mem} (hh : s.held = mx) : (State.lookSeen s d key).held = mx := by
  unfold State.lookSeen
  with_reducible repeat' (first
    | (intro _)
    | assumption
    | rfl
    | apply State.entrySeen_held
    | apply ite_h
    | apply foldl_h
    | apply ite1_h
    | apply fold1_h
    | split
    | (clear_value *; split))

theorem State.lkpOcc_held {s : State} {d : Die} {mx : List Instr × Mem} (hh : s.held = mx) : (State.lkpOcc s d).held = mx := by
  unfold State.lkpOcc
  with_reducible repeat' (first
    | (intro _)
    | (extract_lets +onlyGivenNames tv; have hu := tv; clear hu)
    | assumption
    | rfl
    | apply State.puts_held)

theorem State.putEntry_held {s : State} {d : Die} {p : Place} {e : LkpEntry} {mx : List Instr × Mem} (hh : s.held = mx) : (State.putEntry s d p e).held = mx := by
  unfold State.putEntry
  with_reducible repeat' (first
    | (intro _)
    | assumption
    | rfl
    | apply State.setLkp_held
    | apply State.eccFresh_held
    | apply State.lkpOcc_held
    | apply ite_h
    | apply foldl_h
    | apply ite1_h
    | apply fold1_h
    | split
    | (clear_value *; split))

theorem State.dropEntry_held {s : State} {d : Die} {p : Place} {mx : List Instr × Mem} (hh : s.held = mx) : (State.dropEntry s d p).held = mx := by
  unfold State.dropEntry
  with_reducible repeat' (first
    | assumption
    | rfl
    | apply State.setLkp_held
    | apply State.lkpOcc_held)

theorem State.lkpEmpty_held {s : State} {d : Die} {mx : List Instr × Mem} (hh : s.held = mx) : (State.lkpEmpty s d).held = mx := by
  unfold State.lkpEmpty
  with_reducible repeat' (first
    | (intro _)
    | (extract_lets +onlyGivenNames tv; first | (refine (fun ht : State.held tv = mx => ?_) ?_; clear_value tv; rotate_left; subst tv; rotate_right) | (have hu := tv; clear hu))
    | assumption
    | rfl
    | apply State.setLkp_held
    | apply State.setChk_held
    | apply State.setEccRaw_held
    | apply State.lkpOcc_held)

theorem State.moveChain_held {s : State} {d : Die} {n : Nat} {l : List Place} {mx : List Instr × Mem} (hh : s.held = mx) :
    (State.moveChain s d n l).held = mx := by
  induction n generalizing s l with
  | zero => unfold State.moveChain; exact hh
  | succ n ih =>
    match l with
    | [] => unfold State.moveChain; exact hh
    | [_] => unfold State.moveChain; exact hh
    | p :: q :: t =>
      rw [State.moveChain]
      apply ih
      split
      · exact State.dropEntry_held (State.putEntry_held hh)
      · exact hh

theorem State.lkpEnd_held {s : State} {d : Die} {result : Nat} {mx : List Instr × Mem} (hh : s.held = mx) : (State.lkpEnd s d result).held = mx := by
  unfold State.lkpEnd
  with_reducible repeat' (first
    | assumption
    | rfl
    | apply State.puts_held)

theorem State.lkpShow_held {s : State} {d : Die} {p : Place} {mx : List Instr × Mem} (hh : s.held = mx) : (State.lkpShow s d p).held = mx := by
  unfold State.lkpShow
  with_reducible repeat' (first
    | assumption
    | rfl
    | apply State.puts_held)

theorem State.lkpCmd_held {s : State} {d : Die} {f : State → State} {mx : List Instr × Mem} (hi : ∀ {s : State}, s.held = mx → (f s).held = mx) (hh : s.held = mx) : (State.lkpCmd s d f).held = mx := by
  unfold State.lkpCmd
  with_reducible repeat' (first
    | (intro _)
    | assumption
    | apply hi
    | rfl
    | apply State.put_held
    | apply ite_h)
theorem State.lkpCmd_ok {s : State} {d : Die} {f : State → State} {mx : List Instr × Mem} (hi : ∀ {s : State}, State.Ok mx s → State.Ok mx (f s)) (hh : State.Ok mx s) : State.Ok mx (State.lkpCmd s d f) := by
  unfold State.lkpCmd
  with_reducible repeat' (first
    | (intro _)
    | assumption
    | apply hi
    | exact ok_rfl
    | refine ok_of (State.put_held rfl) ?_
    | apply ite_ok)

theorem State.lkpLate_held {s : State} {d : Die} {late : Bool} {mx : List Instr × Mem} (hh : s.held = mx) : (State.lkpLate s d late).held = mx := by
  unfold State.lkpLate
  with_reducible repeat' (first
    | (intro _)
    | assumption
    | rfl
    | apply State.put_held
    | apply ite_h)

theorem State.lkpInsert_finish_held {d : Die} {key result : Nat} {s : State} {path : List Place} {moves : Nat} {mx : List Instr × Mem}
    (hh : s.held = mx) : (State.lkpInsert.finish d key result s path moves).held = mx := by
  unfold State.lkpInsert.finish
  with_reducible repeat' (first
    | (intro _)
    | (extract_lets +onlyGivenNames tv; first | (refine (fun ht : State.held tv = mx => ?_) ?_; clear_value tv; rotate_left; subst tv; rotate_right) | (have hu := tv; clear hu))
    | assumption
    | rfl
    | apply State.moveChain_held
    | apply State.lkpLate_held
    | apply State.putEntry_held
    | apply State.lkpShow_held
    | apply State.raise_held
    | apply ite_h
    | (clear_value *; split))
theorem State.lkpInsert_held {s : State} {d : Die} {key : Nat} {result : Nat} {abort : Option Nat} {mx : List Instr × Mem} (hh : s.held = mx) : (State.lkpInsert s d key result abort).1.held = mx := by
  unfold State.lkpInsert
  with_reducible repeat' (first
    | (intro _)
    | (extract_lets +onlyGivenNames k tv; have ht : tv.held = mx := State.lookSeen_held hh; clear_value tv)
    | (extract_lets +onlyGivenNames tv; have hu := tv; clear hu)
    | assumption
    | apply State.lkpInsert_finish_held
    | rfl
    | apply State.moveChain_held
    | apply State.lkpLate_held
    | apply State.putEntry_held
    | apply State.lkpShow_held
    | apply State.raise_held
    | apply ite_h
    | apply ite1_h
    | split
    | (clear_value *; split))
theorem State.lkpInsert_heldp {s : State} {d : Die} {key : Nat} {result : Nat} {abort : Option Nat} {mx : List Instr × Mem} {tv : State} {ov : Nat} (he : State.lkpInsert s d key result abort = (tv, ov)) (hh : s.held = mx) : tv.held = mx := by
  have k := State.lkpInsert_held (s := s) (d := d) (key := key) (result := result) (abort := abort) hh
  rw [he] at k; exact k

theorem State.lkpDelete_held {s : State} {d : Die} {key : Nat} {abort : Option Nat} {mx : List Instr × Mem} (hh : s.held = mx) : (State.lkpDelete s d key abort).1.held = mx := by
  unfold State.lkpDelete
  with_reducible repeat' (first
    | (intro _)
    | (extract_lets +onlyGivenNames tv; first | (refine (fun ht : State.held tv = mx => ?_) ?_; clear_value tv; rotate_left; subst tv; rotate_right) | (refine (fun ht : State.held (Prod.fst tv) = mx => ?_) ?_; clear_value tv; rotate_left; subst tv; rotate_right) | (have hu := tv; clear hu))
    | assumption
    | rfl
    | apply State.lookSeen_held
    | apply State.dropEntry_held
    | apply State.lkpShow_held
    | apply ite_h
    | apply foldl_h
    | apply ite1_h
    | apply fold1_h
    | split
    | (clear_value *; split))
theorem State.lkpDelete_heldp {s : State} {d : Die} {key : Nat} {abort : Option Nat} {mx : List Instr × Mem} {tv : State} {ov : Nat} (he : State.lkpDelete s d key abort = (tv, ov)) (hh : s.held = mx) : tv.held = mx := by
  have k := State.lkpDelete_held (s := s) (d := d) (key := key) (abort := abort) hh
  rw [he] at k; exact k

theorem State.lkpModify_held {s : State} {d : Die} {key : Nat} {result : Nat} {abort : Option Nat} {mx : List Instr × Mem} (hh : s.held = mx) : (State.lkpModify s d key result abort).1.held = mx := by
  unfold State.lkpModify
  with_reducible repeat' (first
    | (intro _)
    | (extract_lets +onlyGivenNames tv; first | (refine (fun ht : State.held tv = mx => ?_) ?_; clear_value tv; rotate_left; subst tv; rotate_right) | (refine (fun ht : State.held (Prod.fst tv) = mx => ?_) ?_; clear_value tv; rotate_left; subst tv; rotate_right) | (have hu := tv; clear hu))
    | assumption
    | rfl
    | apply State.lookSeen_held
    | apply State.putEntry_held
    | apply State.lkpShow_held
    | apply ite_h
    | apply foldl_h
    | apply ite1_h
    | apply fold1_h
    | split
    | (clear_value *; split))
theorem State.lkpModify_heldp {s : State} {d : Die} {key : Nat} {result : Nat} {abort : Option Nat} {mx : List Instr × Mem} {tv : State} {ov : Nat} (he : State.lkpModify s d key result abort = (tv, ov)) (hh : s.held = mx) : tv.held = mx := by
  have k := State.lkpModify_held (s := s) (d := d) (key := key) (result := result) (abort := abort) hh
  rw [he] at k; exact k

theorem State.lkpOver_held {s : State} {d : Die} {result : Nat} {abort : Bool} {mx : List Instr × Mem} (hh : s.held = mx) : (State.lkpOver s d result abort).held = mx := by
  unfold State.lkpOver
  with_reducible repeat' (first
    | (intro _)
    | assumption
    | rfl
    | apply State.lkpEnd_held
    | apply State.lkpLate_held
    | apply ite_h
    | apply foldl_h
    | apply ite1_h
    | apply fold1_h
    | split
    | (clear_value *; split))

theorem execLookupInsert_held {die : PDie} {key : BitVec 256} {result : BitVec 64} {abort : Option (Fin 5)} {s : State} {mx : List Instr × Mem} (hh : s.held = mx) : ∃ tv, execLookupInsert die key result abort s = .next tv ∧ tv.held = mx := by
  unfold execLookupInsert
  with_reducible repeat' (first
    | (intro _)
    | (extract_lets +onlyGivenNames tv; first | (refine (fun ht : State.held tv = mx => ?_) ?_; clear_value tv; rotate_left; subst tv; rotate_right) | (refine (fun ht : State.held (Prod.fst tv) = mx => ?_) ?_; clear_value tv; rotate_left; subst tv; rotate_right) | (have hu := tv; clear hu))
    | assumption
    | rfl
    | apply next_h
    | refine State.lkpCmd_held ?_ ?_
    | refine State.lkpInsert_heldp ‹_› ?_
    | apply State.lkpInsert_held
    | apply State.lkpOver_held
    | apply ite_h
    | apply foldl_h
    | apply ite1_h
    | apply fold1_h
    | split
    | (clear_value *; split))

theorem execLookupDelete_held {die : PDie} {key : BitVec 256} {abort : Option (Fin 2)} {s : State} {mx : List Instr × Mem} (hh : s.held = mx) : ∃ tv, execLookupDelete die key abort s = .next tv ∧ tv.held = mx := by
  unfold execLookupDelete
  with_reducible repeat' (first
    | (intro _)
    | (extract_lets +onlyGivenNames tv; first | (refine (fun ht : State.held tv = mx => ?_) ?_; clear_value tv; rotate_left; subst tv; rotate_right) | (refine (fun ht : State.held (Prod.fst tv) = mx => ?_) ?_; clear_value tv; rotate_left; subst tv; rotate_right) | (have hu := tv; clear hu))
    | assumption
    | rfl
    | apply next_h
    | refine State.lkpCmd_held ?_ ?_
    | refine State.lkpDelete_heldp ‹_› ?_
    | apply State.lkpDelete_held
    | apply State.lkpOver_held
    | apply ite_h
    | apply foldl_h
    | apply ite1_h
    | apply fold1_h
    | split
    | (clear_value *; split))

theorem execLookupModify_held {die : PDie} {key : BitVec 256} {result : BitVec 64} {abort : Option (Fin 2)} {s : State} {mx : List Instr × Mem} (hh : s.held = mx) : ∃ tv, execLookupModify die key result abort s = .next tv ∧ tv.held = mx := by
  unfold execLookupModify
  with_reducible repeat' (first
    | (intro _)
    | (extract_lets +onlyGivenNames tv; first | (refine (fun ht : State.held tv = mx => ?_) ?_; clear_value tv; rotate_left; subst tv; rotate_right) | (refine (fun ht : State.held (Prod.fst tv) = mx => ?_) ?_; clear_value tv; rotate_left; subst tv; rotate_right) | (have hu := tv; clear hu))
    | assumption
    | rfl
    | apply next_h
    | refine State.lkpCmd_held ?_ ?_
    | refine State.lkpModify_heldp ‹_› ?_
    | apply State.lkpModify_held
    | apply State.lkpOver_held
    | apply ite_h
    | apply foldl_h
    | apply ite1_h
    | apply fold1_h
    | split
    | (clear_value *; split))

theorem State.lkpTake_held {s : State} {d : Die} {p : Place} {e : LkpEntry} {mx : List Instr × Mem} (hh : s.held = mx) : (State.lkpTake s d p e).held = mx := by
  unfold State.lkpTake
  with_reducible repeat' (first
    | (intro _)
    | assumption
    | rfl
    | apply State.puts_held
    | apply State.lkpShow_held
    | apply ite_h
    | apply foldl_h
    | apply ite1_h
    | apply fold1_h
    | split
    | (clear_value *; split))

theorem State.lkpRead_held {s : State} {d : Die} {key : Nat} {mx : List Instr × Mem} (hh : s.held = mx) : (State.lkpRead s d key).held = mx := by
  unfold State.lkpRead
  with_reducible repeat' (first
    | (intro _)
    | (extract_lets +onlyGivenNames tv; first | (refine (fun ht : State.held tv = mx => ?_) ?_; clear_value tv; rotate_left; subst tv; rotate_right) | (refine (fun ht : State.held (Prod.fst tv) = mx => ?_) ?_; clear_value tv; rotate_left; subst tv; rotate_right) | (have hu := tv; clear hu))
    | assumption
    | rfl
    | apply State.lookSeen_held
    | apply State.lkpEnd_held
    | apply State.lkpTake_held
    | apply ite_h
    | apply foldl_h
    | apply ite1_h
    | apply fold1_h
    | split
    | (clear_value *; split))

theorem execLookupRead_held {die : PDie} {key : BitVec 256} {s : State} {mx : List Instr × Mem} (hh : s.held = mx) : ∃ tv, execLookupRead die key s = .next tv ∧ tv.held = mx := by
  unfold execLookupRead
  with_reducible repeat' (first
    | (intro _)
    | assumption
    | rfl
    | apply next_h
    | refine State.lkpCmd_held ?_ ?_
    | apply State.lkpRead_held)

theorem State.lkpReadAt_held {s : State} {d : Die} {way : Nat} {index : Nat} {mx : List Instr × Mem} (hh : s.held = mx) : (State.lkpReadAt s d way index).held = mx := by
  unfold State.lkpReadAt
  with_reducible repeat' (first
    | (intro _)
    | (extract_lets +onlyGivenNames tv; first | (refine (fun ht : State.held tv = mx => ?_) ?_; clear_value tv; rotate_left; subst tv; rotate_right) | (refine (fun ht : State.held (Prod.fst tv) = mx => ?_) ?_; clear_value tv; rotate_left; subst tv; rotate_right) | (have hu := tv; clear hu))
    | assumption
    | rfl
    | apply State.put_held
    | apply State.entrySeen_held
    | apply State.lkpEnd_held
    | apply State.lkpTake_held
    | apply ite_h
    | apply foldl_h
    | apply ite1_h
    | apply fold1_h
    | split
    | (clear_value *; split))

theorem execLookupReadAt_held {die : PDie} {way : BitVec 3} {index : BitVec 17} {s : State} {mx : List Instr × Mem} (hh : s.held = mx) : ∃ tv, execLookupReadAt die way index s = .next tv ∧ tv.held = mx := by
  unfold execLookupReadAt
  with_reducible repeat' (first
    | (intro _)
    | assumption
    | rfl
    | apply next_h
    | refine State.lkpCmd_held ?_ ?_
    | apply State.lkpReadAt_held)

theorem State.lkpClearHits_held {s : State} {d : Die} {mx : List Instr × Mem} (hh : s.held = mx) : (State.lkpClearHits s d).held = mx := by
  unfold State.lkpClearHits
  with_reducible repeat' (first
    | (intro _)
    | assumption
    | rfl
    | apply State.setLkp_held
    | apply State.lkpEnd_held)

theorem execLookupClearHits_held {die : PDie} {s : State} {mx : List Instr × Mem} (hh : s.held = mx) : ∃ tv, execLookupClearHits die s = .next tv ∧ tv.held = mx := by
  unfold execLookupClearHits
  with_reducible repeat' (first
    | (intro _)
    | assumption
    | rfl
    | apply next_h
    | refine State.lkpCmd_held ?_ ?_
    | apply State.lkpClearHits_held)

theorem State.bulkEnd_held {s : State} {d : Die} {result : Nat} {late : Bool} {mx : List Instr × Mem} (hh : s.held = mx) : (State.bulkEnd s d result late).held = mx := by
  unfold State.bulkEnd
  with_reducible repeat' (first
    | (extract_lets +onlyGivenNames tv; first | (refine (fun ht : State.held tv = mx => ?_) ?_; clear_value tv; rotate_left; subst tv; rotate_right) | (have hu := tv; clear hu))
    | assumption
    | rfl
    | apply State.lkpLate_held
    | apply State.lkpEnd_held
    | apply State.raise_held)

theorem State.lkpBulk_held {s : State} {d : Die} {mx : List Instr × Mem} (hh : s.held = mx) : (State.lkpBulk s d).held = mx := by
  unfold State.lkpBulk
  with_reducible repeat' (first
    | (intro _)
    | (extract_lets +onlyGivenNames tv; first | (refine (fun ht : State.held tv = mx => ?_) ?_; clear_value tv; rotate_left; subst tv; rotate_right) | (have hu := tv; clear hu))
    | assumption
    | rfl
    | apply State.puts_held
    | apply State.bulkEnd_held
    | apply ite_h)

theorem execLookupBulk_held {die : PDie} {s : State} {mx : List Instr × Mem} (hh : s.held = mx) : ∃ tv, execLookupBulk die s = .next tv ∧ tv.held = mx := by
  unfold execLookupBulk
  with_reducible repeat' (first
    | (intro _)
    | assumption
    | rfl
    | apply next_h
    | refine State.lkpCmd_held ?_ ?_
    | apply State.lkpBulk_held)

theorem State.lkpAbort_held {s : State} {d : Die} {mx : List Instr × Mem} (hh : s.held = mx) : (State.lkpAbort s d).held = mx := by
  unfold State.lkpAbort
  with_reducible repeat' (first
    | (intro _)
    | assumption
    | rfl
    | apply State.bulkEnd_held
    | apply ite_h)

theorem execLookupAbort_held {die : PDie} {s : State} {mx : List Instr × Mem} (hh : s.held = mx) : ∃ tv, execLookupAbort die s = .next tv ∧ tv.held = mx := by
  unfold execLookupAbort
  with_reducible repeat' (first
    | assumption
    | rfl
    | apply next_h
    | apply State.lkpAbort_held)

theorem execStashMoveBack_held {die : PDie} {entry : Fin 1024} {s : State} {mx : List Instr × Mem} (hh : s.held = mx) : ∃ tv, execStashMoveBack die entry s = .next tv ∧ tv.held = mx := by
  unfold execStashMoveBack
  with_reducible repeat' (first
    | (intro _)
    | (extract_lets +onlyGivenNames tv; first | (refine (fun ht : State.held tv = mx => ?_) ?_; clear_value tv; rotate_left; subst tv; rotate_right) | (refine (fun ht : State.held (Prod.fst tv) = mx => ?_) ?_; clear_value tv; rotate_left; subst tv; rotate_right) | (have hu := tv; clear hu))
    | assumption
    | rfl
    | apply next_h
    | apply State.putEntry_held
    | apply State.dropEntry_held
    | apply ite_h
    | apply foldl_h
    | apply ite1_h
    | apply fold1_h
    | split
    | (clear_value *; split))

theorem State.lookup_held {s : State} {d : Die} {key : Nat} {mx : List Instr × Mem} (hh : s.held = mx) : (State.lookup s d key).1.held = mx := by
  unfold State.lookup
  with_reducible repeat' (first
    | (intro _)
    | (extract_lets +onlyGivenNames tv; first | (refine (fun ht : State.held tv = mx => ?_) ?_; clear_value tv; rotate_left; subst tv; rotate_right) | (refine (fun ht : State.held (Prod.fst tv) = mx => ?_) ?_; clear_value tv; rotate_left; subst tv; rotate_right) | (have hu := tv; clear hu))
    | assumption
    | rfl
    | apply State.setLkp_held
    | apply State.pmcItems_held
    | apply State.lookSeen_held
    | apply ite_h
    | apply foldl_h
    | apply ite1_h
    | apply fold1_h
    | split
    | (clear_value *; split))
theorem State.lookup_heldp {s : State} {d : Die} {key : Nat} {mx : List Instr × Mem} {tv : State} {ov : Option Nat} (he : State.lookup s d key = (tv, ov)) (hh : s.held = mx) : tv.held = mx := by
  have k := State.lookup_held (s := s) (d := d) (key := key) hh
  rw [he] at k; exact k

end Sys2Proof.Machine
end

