-- ==== Sys2Proof/Laws/HeldPacket.lean ====
section
/-! SUPPORT. For each operation of Machine/Packet.lean: the queue and the memory it keeps (`_held`), or, where it stores, that the queue stays and the memory keeps its canonical form (`_ok`). -/

namespace Sys2Proof.Machine
open Sys2Proof
set_option linter.tactic.unusedName false

theorem State.onEngine_held {s : State} {d : Die} {f : PktDie → PktDie} {mx : List Instr × Mem} (hh : s.held = mx) : (State.onEngine s d f).held = mx := by
  unfold State.onEngine
  with_reducible repeat' (first
    | assumption
    | rfl
    | apply State.setPkt_held)

theorem State.bufSync_held {s : State} {d : Die} {mx : List Instr × Mem} (hh : s.held = mx) : (State.bufSync s d).held = mx := by
  unfold State.bufSync
  with_reducible repeat' (first
    | assumption
    | rfl
    | apply State.puts_held)

theorem State.setQueue_held {s : State} {d : Die} {q : Nat} {x : PktQueue} {mx : List Instr × Mem} (hh : s.held = mx) : (State.setQueue s d q x).held = mx := by
  unfold State.setQueue
  with_reducible repeat' (first
    | (intro _)
    | (extract_lets +onlyGivenNames tv; first | (refine (fun ht : State.held tv = mx => ?_) ?_; clear_value tv; rotate_left; subst tv; rotate_right) | (have hu := tv; clear hu))
    | assumption
    | rfl
    | apply State.setQueues_held
    | apply State.puts_held
    | apply State.bufSync_held)

theorem State.macControl_held {s : State} {d : Die} {p : Nat} {e : Emit} {mx : List Instr × Mem} (hh : s.held = mx) : (State.macControl s d p e).held = mx := by
  unfold State.macControl
  with_reducible repeat' (first
    | (intro _)
    | (extract_lets +onlyGivenNames tv; first | (refine (fun ht : State.held tv = mx => ?_) ?_; clear_value tv; rotate_left; subst tv; rotate_right) | (refine (fun ht : State.held (Prod.fst tv) = mx => ?_) ?_; clear_value tv; rotate_left; subst tv; rotate_right) | (have hu := tv; clear hu))
    | assumption
    | rfl
    | apply State.setPort_held
    | apply State.used_held
    | apply State.emit_held
    | apply ite_h
    | apply foldl_h
    | apply ite1_h
    | apply fold1_h
    | split
    | (clear_value *; split))

theorem State.xoff_held {s : State} {d : Die} {f : QFrame} {mx : List Instr × Mem} (hh : s.held = mx) : (State.xoff s d f).held = mx := by
  unfold State.xoff
  with_reducible repeat' (first
    | (intro _)
    | (extract_lets +onlyGivenNames tv; first | (refine (fun ht : State.held tv = mx => ?_) ?_; clear_value tv; rotate_left; subst tv; rotate_right) | (refine (fun ht : State.held (Prod.fst tv) = mx => ?_) ?_; clear_value tv; rotate_left; subst tv; rotate_right) | (have hu := tv; clear hu))
    | assumption
    | rfl
    | apply State.setBit_held
    | apply State.macControl_held
    | apply ite_h
    | apply foldl_h
    | apply ite1_h
    | apply fold1_h
    | split
    | (clear_value *; split))

theorem State.xon_held {s : State} {d : Die} {f : QFrame} {mx : List Instr × Mem} (hh : s.held = mx) : (State.xon s d f).held = mx := by
  unfold State.xon
  with_reducible repeat' (first
    | (intro _)
    | (extract_lets +onlyGivenNames tv; first | (refine (fun ht : State.held tv = mx => ?_) ?_; clear_value tv; rotate_left; subst tv; rotate_right) | (refine (fun ht : State.held (Prod.fst tv) = mx => ?_) ?_; clear_value tv; rotate_left; subst tv; rotate_right) | (have hu := tv; clear hu))
    | assumption
    | rfl
    | apply State.clrBit_held
    | apply State.macControl_held
    | apply ite_h
    | apply foldl_h
    | apply ite1_h
    | apply fold1_h
    | split
    | (clear_value *; split))

theorem execPfcRepeat_held {die : PDie} {port : Fin 48} {prio : Fin 8} {s : State} {mx : List Instr × Mem} (hh : s.held = mx) : ∃ tv, execPfcRepeat die port prio s = .next tv ∧ tv.held = mx := by
  unfold execPfcRepeat
  with_reducible repeat' (first
    | (intro _)
    | assumption
    | rfl
    | apply next_h
    | apply State.macControl_held
    | apply ite_h
    | apply foldl_h
    | apply ite1_h
    | apply fold1_h
    | split
    | (clear_value *; split))

theorem State.pauseGroup_held {s : State} {d : Die} {p : Nat} {g : Nat} {time : Nat} {mx : List Instr × Mem} (hh : s.held = mx) : (State.pauseGroup s d p g time).held = mx := by
  unfold State.pauseGroup
  with_reducible repeat' (first
    | (intro _)
    | (extract_lets +onlyGivenNames tv; first | (refine (fun ht : State.held tv = mx => ?_) ?_; clear_value tv; rotate_left; subst tv; rotate_right) | (have hu := tv; clear hu))
    | assumption
    | rfl
    | apply State.setPort_held
    | apply State.clrBit_held
    | apply State.setBit_held
    | apply ite_h)

theorem execPfcFrameReceived_held {die : PDie} {port : Fin 48} {mask : BitVec 8} {times : BitVec 128} {s : State} {mx : List Instr × Mem} (hh : s.held = mx) : ∃ tv, execPfcFrameReceived die port mask times s = .next tv ∧ tv.held = mx := by
  unfold execPfcFrameReceived
  with_reducible repeat' (first
    | (intro _)
    | assumption
    | rfl
    | apply next_h
    | apply State.pauseGroup_held
    | apply ite_h
    | apply foldl_h)

theorem execPauseFrameReceived_held {die : PDie} {port : Fin 48} {time : BitVec 16} {s : State} {mx : List Instr × Mem} (hh : s.held = mx) : ∃ tv, execPauseFrameReceived die port time s = .next tv ∧ tv.held = mx := by
  unfold execPauseFrameReceived
  with_reducible repeat' (first
    | (intro _)
    | assumption
    | rfl
    | apply next_h
    | apply State.pauseGroup_held
    | apply ite_h
    | apply foldl_h)

theorem execPauseTimeExpiry_held {die : PDie} {port : Fin 48} {group : Fin 8} {s : State} {mx : List Instr × Mem} (hh : s.held = mx) : ∃ tv, execPauseTimeExpiry die port group s = .next tv ∧ tv.held = mx := by
  unfold execPauseTimeExpiry
  with_reducible repeat' (first
    | assumption
    | rfl
    | apply next_h
    | apply State.pauseGroup_held)

theorem execMacMergeVerify_held {die : PDie} {port : Fin 48} {works : Bool} {s : State} {mx : List Instr × Mem} (hh : s.held = mx) : ∃ tv, execMacMergeVerify die port works s = .next tv ∧ tv.held = mx := by
  unfold execMacMergeVerify
  with_reducible repeat' (first
    | (intro _)
    | (extract_lets +onlyGivenNames tv; first | (refine (fun ht : State.held tv = mx => ?_) ?_; clear_value tv; rotate_left; subst tv; rotate_right) | (have hu := tv; clear hu))
    | assumption
    | rfl
    | apply next_h
    | apply State.setPort_held
    | apply State.put_held
    | apply State.raise_held
    | apply ite_h)

theorem State.spillSync_held {s : State} {d : Die} {mx : List Instr × Mem} (hh : s.held = mx) : (State.spillSync s d).held = mx := by
  unfold State.spillSync
  with_reducible repeat' (first
    | assumption
    | rfl
    | apply State.put_held)

theorem State.frameLine_ok {s : State} {first : Nat} {r : NocReq} {mx : List Instr × Mem} (hh : State.Ok mx s) : State.Ok mx (State.frameLine s first r).1 := by
  unfold State.frameLine
  with_reducible repeat' (first
    | (intro _)
    | assumption
    | exact ok_rfl
    | refine ok_of (State.bump_held rfl) ?_
    | refine ok_of (State.emit_held rfl) ?_
    | apply State.request_ok
    | apply ite_ok
    | apply foldl_ok
    | apply ite1_ok
    | apply fold1_ok
    | split
    | (clear_value *; split))
theorem State.frameLine_okp {s : State} {first : Nat} {r : NocReq} {mx : List Instr × Mem} {tv : State} {ov : Nat} (he : State.frameLine s first r = (tv, ov)) (hh : State.Ok mx s) : State.Ok mx tv := by
  have k := State.frameLine_ok (s := s) (first := first) (r := r) hh
  rw [he] at k; exact k

theorem frameStep_ok {src icls cls : Nat} {write : Bool} {o : Die} {mx : List Instr × Mem} (x : State × Nat) (l : List Nat) (h : State.Ok mx x.1) : State.Ok mx (frameStep src icls cls write o x l).1 := by
  unfold frameStep
  exact State.frameLine_ok (ok_of (State.used_held rfl) h)

theorem State.frameAccess_ok {s : State} {src : Nat} {icls : Nat} {cls : Nat} {write : Bool} {o : Die} {lines : List (List Nat)} {mx : List Instr × Mem} (hh : State.Ok mx s) : State.Ok mx (State.frameAccess s src icls cls write o lines).1 := by
  unfold State.frameAccess
  exact fold1_ok frameStep_ok hh
theorem State.frameAccess_okp {s : State} {src : Nat} {icls : Nat} {cls : Nat} {write : Bool} {o : Die} {lines : List (List Nat)} {mx : List Instr × Mem} {tv : State} {ov : Nat} (he : State.frameAccess s src icls cls write o lines = (tv, ov)) (hh : State.Ok mx s) : State.Ok mx tv := by
  have k := State.frameAccess_ok (s := s) (src := src) (icls := icls) (cls := cls) (write := write) (o := o) (lines := lines) hh
  rw [he] at k; exact k

theorem State.bufferUe_held {s : State} {d : Die} {bad : Bool} {mx : List Instr × Mem} (hh : s.held = mx) : (State.bufferUe s d bad).held = mx := by
  unfold State.bufferUe
  with_reducible repeat' (first
    | (intro _)
    | assumption
    | rfl
    | apply State.used_held
    | apply State.eccFound_held
    | apply State.uncorrectable_held
    | apply ite_h
    | apply foldl_h
    | apply ite1_h
    | apply fold1_h
    | split
    | (clear_value *; split))

theorem State.spillAccess_ok {s : State} {d : Die} {write : Bool} {line : Nat} {data : Nat} {mx : List Instr × Mem} (hh : State.Ok mx s) : State.Ok mx (State.spillAccess s d write line data).1 := by
  unfold State.spillAccess
  with_reducible repeat' (first
    | (intro _)
    | (extract_lets +onlyGivenNames tv; first | (refine (fun ht : State.Ok mx tv => ?_) ?_; clear_value tv; rotate_left; subst tv; rotate_right) | (refine (fun ht : State.Ok mx (Prod.fst tv) => ?_) ?_; clear_value tv; rotate_left; subst tv; rotate_right) | (have hu := tv; clear hu))
    | assumption
    | exact ok_rfl
    | refine ok_of (State.used_held rfl) ?_
    | refine ok_of (State.emit_held rfl) ?_
    | apply State.request_ok
    | apply State.ddrRequest_ok
    | apply ite_ok
    | apply foldl_ok
    | apply ite1_ok
    | apply fold1_ok
    | split
    | (clear_value *; split))
theorem State.spillAccess_okp {s : State} {d : Die} {write : Bool} {line : Nat} {data : Nat} {mx : List Instr × Mem} {tv : State} {ov : Nat × Option Nat} (he : State.spillAccess s d write line data = (tv, ov)) (hh : State.Ok mx s) : State.Ok mx tv := by
  have k := State.spillAccess_ok (s := s) (d := d) (write := write) (line := line) (data := data) hh
  rw [he] at k; exact k

theorem State.spill_ok {s : State} {d : Die} {q : Nat} {f : QFrame} {rate : Bool} {mx : List Instr × Mem} (hh : State.Ok mx s) : State.Ok mx (State.spill s d q f rate) := by
  unfold State.spill
  with_reducible repeat' (first
    | (intro _)
    | (extract_lets +onlyGivenNames tv; first | (refine (fun ht : State.Ok mx tv => ?_) ?_; clear_value tv; rotate_left; subst tv; rotate_right) | (refine (fun ht : State.Ok mx (Prod.fst tv) => ?_) ?_; clear_value tv; rotate_left; subst tv; rotate_right) | (have hu := tv; clear hu))
    | assumption
    | exact ok_rfl
    | refine ok_of (State.setQueue_held rfl) ?_
    | refine ok_of (State.bump_held rfl) ?_
    | refine ok_of (State.raise_held rfl) ?_
    | refine State.spillAccess_okp ‹_› ?_
    | apply State.spillAccess_ok
    | apply ite_ok
    | apply foldl_ok
    | apply ite1_ok
    | apply fold1_ok
    | split
    | (clear_value *; split))

theorem State.unspill_ok {s : State} {d : Die} {f : QFrame} {mx : List Instr × Mem} (hh : State.Ok mx s) : State.Ok mx (State.unspill s d f).1 := by
  unfold State.unspill
  with_reducible repeat' (first
    | (intro _)
    | (extract_lets +onlyGivenNames tv; first | (refine (fun ht : State.Ok mx tv => ?_) ?_; clear_value tv; rotate_left; subst tv; rotate_right) | (refine (fun ht : State.Ok mx (Prod.fst tv) => ?_) ?_; clear_value tv; rotate_left; subst tv; rotate_right) | (have hu := tv; clear hu))
    | assumption
    | exact ok_rfl
    | refine State.spillAccess_okp ‹_› ?_
    | apply State.spillAccess_ok
    | apply ite_ok
    | apply foldl_ok
    | apply ite1_ok
    | apply fold1_ok
    | split
    | (clear_value *; split))
theorem State.unspill_okp {s : State} {d : Die} {f : QFrame} {mx : List Instr × Mem} {tv : State} {ov : QFrame × Bool} (he : State.unspill s d f = (tv, ov)) (hh : State.Ok mx s) : State.Ok mx tv := by
  have k := State.unspill_ok (s := s) (d := d) (f := f) hh
  rw [he] at k; exact k

theorem State.hdrmDrop_held {s : State} {d : Die} {f : QFrame} {mx : List Instr × Mem} (hh : s.held = mx) : (State.hdrmDrop s d f).held = mx := by
  unfold State.hdrmDrop
  with_reducible repeat' (first
    | assumption
    | rfl
    | apply State.bump_held
    | apply State.raise_held)

theorem State.offer_ok {s : State} {d : Die} {q : Nat} {f : QFrame} {c : Nat} {rate : Bool} {mx : List Instr × Mem} (hh : State.Ok mx s) : State.Ok mx (State.offer s d q f c rate) := by
  unfold State.offer
  with_reducible repeat' (first
    | (intro _)
    | (extract_lets +onlyGivenNames tv; first | (refine (fun ht : State.Ok mx tv => ?_) ?_; clear_value tv; rotate_left; subst tv; rotate_right) | (refine (fun ht : State.Ok mx (Prod.fst tv) => ?_) ?_; clear_value tv; rotate_left; subst tv; rotate_right) | (have hu := tv; clear hu))
    | assumption
    | exact ok_rfl
    | refine ok_of (State.setQueue_held rfl) ?_
    | refine ok_of (State.bump_held rfl) ?_
    | refine ok_of (State.xoff_held rfl) ?_
    | apply State.spill_ok
    | refine ok_of (State.hdrmDrop_held rfl) ?_
    | apply ite_ok
    | apply foldl_ok
    | apply ite1_ok
    | apply fold1_ok
    | split
    | (clear_value *; split))

theorem State.storeMove_held {s : State} {d : Die} {q : Nat} {f : QFrame} {mx : List Instr × Mem} (hh : s.held = mx) : (State.storeMove s d q f).held = mx := by
  unfold State.storeMove
  with_reducible repeat' (first
    | (intro _)
    | (extract_lets +onlyGivenNames tv; have hu := tv; clear hu)
    | assumption
    | rfl
    | apply State.bump_held
    | apply State.onEngine_held
    | apply State.bufSync_held
    | apply State.xoff_held
    | apply State.hdrmDrop_held
    | apply ite_h)

theorem State.toQueue_ok {s : State} {d : Die} {result : Nat} {f : QFrame} {c : Nat} {rate : Bool} {mx : List Instr × Mem} (hh : State.Ok mx s) : State.Ok mx (State.toQueue s d result f c rate) := by
  unfold State.toQueue
  with_reducible repeat' (first
    | (intro _)
    | assumption
    | exact ok_rfl
    | apply State.offer_ok
    | refine ok_of (State.storeMove_held rfl) ?_
    | apply ite_ok
    | apply foldl_ok
    | apply ite1_ok
    | apply fold1_ok
    | split
    | (clear_value *; split))

theorem State.toEngine_held {s : State} {d : Die} {result : Nat} {f : QFrame} {mx : List Instr × Mem} (hh : s.held = mx) : (State.toEngine s d result f).held = mx := by
  unfold State.toEngine
  with_reducible repeat' (first
    | (intro _)
    | (extract_lets +onlyGivenNames tv; first | (refine (fun ht : State.held tv = mx => ?_) ?_; clear_value tv; rotate_left; subst tv; rotate_right) | (refine (fun ht : State.held (Prod.fst tv) = mx => ?_) ?_; clear_value tv; rotate_left; subst tv; rotate_right) | (have hu := tv; clear hu))
    | assumption
    | rfl
    | apply State.bump_held
    | apply State.onceStart_held
    | apply State.raise_held
    | apply State.onEngine_held
    | apply ite_h
    | apply foldl_h
    | apply ite1_h
    | apply fold1_h
    | split
    | (clear_value *; split))

theorem State.frameResult_held {s : State} {d : Die} {prof : Nat} {inport : Nat} {prio : Nat} {l : List Nat} {mx : List Instr × Mem} (hh : s.held = mx) : (State.frameResult s d prof inport prio l).1.held = mx := by
  unfold State.frameResult
  with_reducible repeat' (first
    | (extract_lets +onlyGivenNames tv; first | (refine (fun ht : State.held tv = mx => ?_) ?_; clear_value tv; rotate_left; subst tv; rotate_right) | (refine (fun ht : State.held (Prod.fst tv) = mx => ?_) ?_; clear_value tv; rotate_left; subst tv; rotate_right) | (have hu := tv; clear hu))
    | assumption
    | rfl
    | refine State.lookup_heldp ‹_› ?_
    | apply State.lookup_held)
theorem State.frameResult_heldp {s : State} {d : Die} {prof : Nat} {inport : Nat} {prio : Nat} {l : List Nat} {mx : List Instr × Mem} {tv : State} {ov : Nat} (he : State.frameResult s d prof inport prio l = (tv, ov)) (hh : s.held = mx) : tv.held = mx := by
  have k := State.frameResult_held (s := s) (d := d) (prof := prof) (inport := inport) (prio := prio) (l := l) hh
  rw [he] at k; exact k

theorem State.frameOn_ok {s : State} {d : Die} {result : Nat} {f : QFrame} {cut : Bool} {rate : Bool} {mx : List Instr × Mem} (hh : State.Ok mx s) : State.Ok mx (State.frameOn s d result f cut rate) := by
  unfold State.frameOn
  with_reducible repeat' (first
    | (intro _)
    | assumption
    | exact ok_rfl
    | apply State.toQueue_ok
    | refine ok_of (State.toEngine_held rfl) ?_
    | apply ite_ok
    | apply foldl_ok
    | apply ite1_ok
    | apply fold1_ok
    | split
    | (clear_value *; split))

theorem State.macDrop_held {s : State} {d : Die} {p : Nat} {mx : List Instr × Mem} (hh : s.held = mx) : (State.macDrop s d p).held = mx := by
  unfold State.macDrop
  with_reducible repeat' (first
    | (intro _)
    | (extract_lets +onlyGivenNames tv; first | (refine (fun ht : State.held tv = mx => ?_) ?_; clear_value tv; rotate_left; subst tv; rotate_right) | (refine (fun ht : State.held (Prod.fst tv) = mx => ?_) ?_; clear_value tv; rotate_left; subst tv; rotate_right) | (have hu := tv; clear hu))
    | assumption
    | rfl
    | apply State.setPort_held
    | apply ite_h
    | apply foldl_h
    | apply ite1_h
    | apply fold1_h
    | split
    | (clear_value *; split))

theorem State.frameIn_ok {s : State} {d : Die} {port : Nat} {l : List Nat} {frac : Nat} {fec : Nat} {rate : Bool} {mx : List Instr × Mem} (hh : State.Ok mx s) : State.Ok mx (State.frameIn s d port l frac fec rate) := by
  unfold State.frameIn
  with_reducible repeat' (first
    | (intro _)
    | (extract_lets +onlyGivenNames tv; first | (refine (fun ht : State.Ok mx tv => ?_) ?_; clear_value tv; rotate_left; subst tv; rotate_right) | (refine (fun ht : State.Ok mx (Prod.fst tv) => ?_) ?_; clear_value tv; rotate_left; subst tv; rotate_right) | (have hu := tv; clear hu))
    | assumption
    | exact ok_rfl
    | refine ok_of (State.bwCount_held rfl) ?_
    | refine ok_of (State.pmcItems_held rfl) ?_
    | refine ok_of (State.frameResult_heldp ‹_› rfl) ?_
    | refine ok_of (State.frameResult_held rfl) ?_
    | apply State.frameOn_ok
    | refine ok_of (State.macDrop_held rfl) ?_
    | apply ite_ok
    | apply foldl_ok
    | apply ite1_ok
    | apply fold1_ok
    | split
    | (clear_value *; split))

theorem execFrameReceived_ok {die : PDie} {port : Fin 48} {bytes : List Byte} {cycle : BitVec 13} {frac : BitVec 10} {fec : Fin 3} {rate : Bool} {s : State} {mx : List Instr × Mem} (hh : State.Ok mx s) : ∃ tv, execFrameReceived die port bytes cycle frac fec rate s = .next tv ∧ State.Ok mx tv := by
  unfold execFrameReceived
  with_reducible repeat' (first
    | (intro _)
    | assumption
    | exact ok_rfl
    | apply next_ok
    | refine ok_of (State.timeTo_held rfl) ?_
    | apply State.frameIn_ok
    | apply ite_ok
    | apply foldl_ok
    | apply ite1_ok
    | apply fold1_ok
    | split
    | (clear_value *; split))

theorem State.creditShort_held {s : State} {d : Die} {l : List (Nat × Nat × Nat)} {mx : List Instr × Mem} (hh : s.held = mx) : (State.creditShort s d l).held = mx := by
  unfold State.creditShort
  with_reducible repeat' (first
    | (intro _)
    | (extract_lets +onlyGivenNames tv; first | (refine (fun ht : State.held tv = mx => ?_) ?_; clear_value tv; rotate_left; subst tv; rotate_right) | (have hu := tv; clear hu))
    | assumption
    | rfl
    | apply State.setQueue_held
    | apply State.bump_held
    | apply State.onEngine_held
    | apply State.raise_held
    | apply ite_h
    | apply foldl_h)

theorem State.deficitDrop_held {s : State} {d : Die} {q : Nat} {mx : List Instr × Mem} (hh : s.held = mx) : (State.deficitDrop s d q).held = mx := by
  unfold State.deficitDrop
  with_reducible repeat' (first
    | (intro _)
    | (extract_lets +onlyGivenNames tv; first | (refine (fun ht : State.held tv = mx => ?_) ?_; clear_value tv; rotate_left; subst tv; rotate_right) | (refine (fun ht : State.held (Prod.fst tv) = mx => ?_) ?_; clear_value tv; rotate_left; subst tv; rotate_right) | (have hu := tv; clear hu))
    | assumption
    | rfl
    | apply State.setPort_held
    | apply ite_h
    | apply foldl_h
    | apply ite1_h
    | apply fold1_h
    | split
    | (clear_value *; split))

theorem State.takeHead_held {s : State} {d : Die} {q : Nat} {mx : List Instr × Mem} (hh : s.held = mx) : (State.takeHead s d q).held = mx := by
  unfold State.takeHead
  with_reducible repeat' (first
    | (intro _)
    | (extract_lets +onlyGivenNames tv; first | (refine (fun ht : State.held tv = mx => ?_) ?_; clear_value tv; rotate_left; subst tv; rotate_right) | (refine (fun ht : State.held (Prod.fst tv) = mx => ?_) ?_; clear_value tv; rotate_left; subst tv; rotate_right) | (have hu := tv; clear hu))
    | assumption
    | rfl
    | apply State.setQueue_held
    | apply State.xon_held
    | apply State.deficitDrop_held
    | apply ite_h
    | apply foldl_h
    | apply ite1_h
    | apply fold1_h
    | split
    | (clear_value *; split))

theorem State.egressBytes_held {s : State} {d : Die} {p : Nat} {fec : Nat} {frac : Nat} {f : QFrame} {mx : List Instr × Mem} (hh : s.held = mx) : (State.egressBytes s d p fec frac f).1.held = mx := by
  unfold State.egressBytes
  with_reducible repeat' (first
    | (intro _)
    | (extract_lets +onlyGivenNames tv; first | (refine (fun ht : State.held tv = mx => ?_) ?_; clear_value tv; rotate_left; subst tv; rotate_right) | (refine (fun ht : State.held (Prod.fst tv) = mx => ?_) ?_; clear_value tv; rotate_left; subst tv; rotate_right) | (have hu := tv; clear hu))
    | assumption
    | rfl
    | apply State.bump_held
    | apply State.raise_held
    | apply ite_h
    | apply foldl_h
    | apply ite1_h
    | apply fold1_h
    | split
    | (clear_value *; split))
theorem State.egressBytes_heldp {s : State} {d : Die} {p : Nat} {fec : Nat} {frac : Nat} {f : QFrame} {mx : List Instr × Mem} {tv : State} {ov : List Nat} (he : State.egressBytes s d p fec frac f = (tv, ov)) (hh : s.held = mx) : tv.held = mx := by
  have k := State.egressBytes_held (s := s) (d := d) (p := p) (fec := fec) (frac := frac) (f := f) hh
  rw [he] at k; exact k

theorem State.sendFrame_held {s : State} {d : Die} {p : Nat} {fec : Nat} {frac : Nat} {f : QFrame} {bad : Bool} {mx : List Instr × Mem} (hh : s.held = mx) : (State.sendFrame s d p fec frac f bad).held = mx := by
  unfold State.sendFrame
  with_reducible repeat' (first
    | (intro _)
    | (extract_lets +onlyGivenNames tv; first | (refine (fun ht : State.held tv = mx => ?_) ?_; clear_value tv; rotate_left; subst tv; rotate_right) | (refine (fun ht : State.held (Prod.fst tv) = mx => ?_) ?_; clear_value tv; rotate_left; subst tv; rotate_right) | (have hu := tv; clear hu))
    | assumption
    | rfl
    | refine State.egressBytes_heldp ‹_› ?_
    | apply State.egressBytes_held
    | apply State.bump_held
    | apply State.bwCount_held
    | apply State.emit_held
    | apply ite_h
    | (clear_value *; split))

theorem State.transmit_ok {s : State} {d : Die} {p : Nat} {fec : Nat} {frac : Nat} {bad : Bool} {mx : List Instr × Mem} (hh : State.Ok mx s) : State.Ok mx (State.transmit s d p fec frac bad) := by
  unfold State.transmit
  with_reducible repeat' (first
    | (intro _)
    | (extract_lets +onlyGivenNames tv; first | (refine (fun ht : State.Ok mx tv => ?_) ?_; clear_value tv; rotate_left; subst tv; rotate_right) | (refine (fun ht : State.Ok mx (Prod.fst tv) => ?_) ?_; clear_value tv; rotate_left; subst tv; rotate_right) | (have hu := tv; clear hu))
    | assumption
    | exact ok_rfl
    | refine ok_of (State.setPort_held rfl) ?_
    | refine ok_of (State.setQueue_held rfl) ?_
    | refine ok_of (State.bufferUe_held rfl) ?_
    | refine State.unspill_okp ‹_› ?_
    | apply State.unspill_ok
    | refine ok_of (State.creditShort_held rfl) ?_
    | refine ok_of (State.takeHead_held rfl) ?_
    | refine ok_of (State.sendFrame_held rfl) ?_
    | apply ite_ok
    | apply foldl_ok
    | apply ite1_ok
    | apply fold1_ok
    | split
    | (clear_value *; split))

theorem State.preempt_ok {s : State} {d : Die} {p : Nat} {fec : Nat} {frac : Nat} {n : Nat} {bad : Bool} {mx : List Instr × Mem} (hh : State.Ok mx s) : State.Ok mx (State.preempt s d p fec frac n bad) := by
  unfold State.preempt
  with_reducible repeat' (first
    | (intro _)
    | (extract_lets +onlyGivenNames tv; first | (refine (fun ht : State.Ok mx tv => ?_) ?_; clear_value tv; rotate_left; subst tv; rotate_right) | (refine (fun ht : State.Ok mx (Prod.fst tv) => ?_) ?_; clear_value tv; rotate_left; subst tv; rotate_right) | (have hu := tv; clear hu))
    | assumption
    | exact ok_rfl
    | refine ok_of (State.setPort_held rfl) ?_
    | refine ok_of (State.emit_held rfl) ?_
    | apply State.transmit_ok
    | apply ite_ok
    | apply foldl_ok
    | apply ite1_ok
    | apply fold1_ok
    | split
    | (clear_value *; split))

theorem execFrameTransmit_ok {die : PDie} {port : Fin 48} {after : Option (BitVec 14)} {cycle : BitVec 13} {frac : BitVec 10} {fec : Fin 3} {bad : Bool} {s : State} {mx : List Instr × Mem} (hh : State.Ok mx s) : ∃ tv, execFrameTransmit die port after cycle frac fec bad s = .next tv ∧ State.Ok mx tv := by
  unfold execFrameTransmit
  with_reducible repeat' (first
    | (intro _)
    | (extract_lets +onlyGivenNames tv; first | (refine (fun ht : State.Ok mx tv => ?_) ?_; clear_value tv; rotate_left; subst tv; rotate_right) | (refine (fun ht : State.Ok mx (Prod.fst tv) => ?_) ?_; clear_value tv; rotate_left; subst tv; rotate_right) | (have hu := tv; clear hu))
    | assumption
    | exact ok_rfl
    | apply next_ok
    | refine ok_of (State.timeTo_held rfl) ?_
    | apply State.transmit_ok
    | apply State.preempt_ok
    | apply ite_ok
    | apply foldl_ok
    | apply ite1_ok
    | apply fold1_ok
    | split
    | (clear_value *; split))

theorem State.schedReady_held {s : State} {d : Die} {mx : List Instr × Mem} (hh : s.held = mx) : (State.schedReady s d).1.held = mx := by
  unfold State.schedReady
  with_reducible repeat' (first
    | assumption
    | rfl
    | apply State.puts_held
    | apply State.raise_held
    | split)
theorem State.schedReady_heldp {s : State} {d : Die} {mx : List Instr × Mem} {tv : State} {ov : Bool} (he : State.schedReady s d = (tv, ov)) (hh : s.held = mx) : tv.held = mx := by
  have k := State.schedReady_held (s := s) (d := d) hh
  rw [he] at k; exact k

theorem State.copyRegs_held {s : State} {d : Die} {src : Reg} {dst : Reg} {mx : List Instr × Mem} (hh : s.held = mx) : (State.copyRegs s d src dst).held = mx := by
  unfold State.copyRegs
  with_reducible repeat' (first
    | (intro _)
    | (extract_lets +onlyGivenNames tv; have hu := tv; clear hu)
    | assumption
    | rfl
    | apply State.setRegs_held)

theorem State.schedApply_held {s : State} {d : Die} {mx : List Instr × Mem} (hh : s.held = mx) : (State.schedApply s d).held = mx := by
  unfold State.schedApply
  with_reducible repeat' (first
    | assumption
    | rfl
    | apply State.copyRegs_held)

theorem State.expressWalk_held {s : State} {d : Die} {mx : List Instr × Mem} (hh : s.held = mx) : (State.expressWalk s d).held = mx := by
  unfold State.expressWalk
  with_reducible repeat' (first
    | (intro _)
    | (extract_lets +onlyGivenNames tv; first | (refine (fun ht : State.held tv = mx => ?_) ?_; clear_value tv; rotate_left; subst tv; rotate_right) | (have hu := tv; clear hu))
    | assumption
    | rfl
    | apply State.onEngine_held
    | apply State.setQueue_held
    | apply ite_h
    | apply foldl_h)

theorem State.poolWrite_held {s t : State} {d : Die} {mx : List Instr × Mem} (ht : t.held = mx) (hh : s.held = mx) :
    (State.poolWrite s t d).held = mx := by
  unfold State.poolWrite
  exact ite_h (fun _ => State.put_held hh) (fun _ => State.bufSync_held ht)
theorem State.poolWrite_ok {s t : State} {d : Die} {mx : List Instr × Mem} (ht : State.Ok mx t) (hh : State.Ok mx s) :
    State.Ok mx (State.poolWrite s t d) := by
  unfold State.poolWrite
  exact ite_ok (fun _ => ok_of (State.put_held rfl) hh) (fun _ => ok_of (State.bufSync_held rfl) ht)

theorem State.queueCfg_held {s : State} {d : Die} {q : Nat} {v : Word} {mx : List Instr × Mem} (hh : s.held = mx) : (State.queueCfg s d q v).held = mx := by
  unfold State.queueCfg
  with_reducible repeat' (first
    | (intro _)
    | (extract_lets +onlyGivenNames tv; first | (refine (fun ht : State.held tv = mx => ?_) ?_; clear_value tv; rotate_left; subst tv; rotate_right) | (have hu := tv; clear hu))
    | assumption
    | rfl
    | apply State.writeReg_held
    | apply State.put_held
    | refine State.poolWrite_held ?_ ?_
    | apply ite_h)

theorem execQueueConfigWrite_held {die : PDie} {queue : BitVec 16} {value : BitVec 32} {s : State} {mx : List Instr × Mem} (hh : s.held = mx) : ∃ tv, execQueueConfigWrite die queue value s = .next tv ∧ tv.held = mx := by
  unfold execQueueConfigWrite
  with_reducible repeat' (first
    | assumption
    | rfl
    | apply next_h
    | apply State.queueCfg_held)

theorem execBufferPoolWrite_held {die : PDie} {place : PoolAt} {value : BitVec 32} {s : State} {mx : List Instr × Mem} (hh : s.held = mx) : ∃ tv, execBufferPoolWrite die place value s = .next tv ∧ tv.held = mx := by
  unfold execBufferPoolWrite
  with_reducible repeat' (first
    | (intro _)
    | assumption
    | rfl
    | apply next_h
    | refine State.poolWrite_held ?_ ?_
    | apply State.writeReg_held
    | split)

theorem State.discard_held {s : State} {d : Die} {q n : Nat} {mx : List Instr × Mem} (hh : s.held = mx) :
    (State.discard s d q n).held = mx := by
  induction n generalizing s with
  | zero => exact hh
  | succ n ih => rw [State.discard]; exact ih (State.takeHead_held hh)

theorem State.flushEnd_held {s : State} {d : Die} {result : Nat} {late : Bool} {mx : List Instr × Mem} (hh : s.held = mx) : (State.flushEnd s d result late).held = mx := by
  unfold State.flushEnd
  with_reducible repeat' (first
    | (intro _)
    | (extract_lets +onlyGivenNames tv; first | (refine (fun ht : State.held tv = mx => ?_) ?_; clear_value tv; rotate_left; subst tv; rotate_right) | (have hu := tv; clear hu))
    | assumption
    | rfl
    | apply State.puts_held
    | apply State.put_held
    | apply State.raise_held
    | apply ite_h)

theorem State.flushStart_held {s : State} {d : Die} {q : Nat} {mx : List Instr × Mem} (hh : s.held = mx) : (State.flushStart s d q).held = mx := by
  unfold State.flushStart
  with_reducible repeat' (first
    | (intro _)
    | (extract_lets +onlyGivenNames tv; first | (refine (fun ht : State.held tv = mx => ?_) ?_; clear_value tv; rotate_left; subst tv; rotate_right) | (have hu := tv; clear hu))
    | assumption
    | rfl
    | apply State.put_held
    | apply State.puts_held
    | apply State.flushEnd_held
    | apply ite_h)

theorem execQueueFlush_held {die : PDie} {queue : BitVec 16} {s : State} {mx : List Instr × Mem} (hh : s.held = mx) : ∃ tv, execQueueFlush die queue s = .next tv ∧ tv.held = mx := by
  unfold execQueueFlush
  with_reducible repeat' (first
    | assumption
    | rfl
    | apply next_h
    | apply State.flushStart_held)

theorem State.flushDone_held {s : State} {d : Die} {abort : Bool} {mx : List Instr × Mem} (hh : s.held = mx) : (State.flushDone s d abort).held = mx := by
  unfold State.flushDone
  with_reducible repeat' (first
    | (intro _)
    | (extract_lets +onlyGivenNames tv; have hu := tv; clear hu)
    | assumption
    | rfl
    | apply State.discard_held
    | apply State.flushEnd_held
    | apply ite_h)

theorem execQueueFlushDone_held {die : PDie} {abort : Bool} {s : State} {mx : List Instr × Mem} (hh : s.held = mx) : ∃ tv, execQueueFlushDone die abort s = .next tv ∧ tv.held = mx := by
  unfold execQueueFlushDone
  with_reducible repeat' (first
    | assumption
    | rfl
    | apply next_h
    | apply State.flushDone_held)

theorem State.flushAbort_held {s : State} {d : Die} {n : Nat} {mx : List Instr × Mem} (hh : s.held = mx) : (State.flushAbort s d n).held = mx := by
  unfold State.flushAbort
  with_reducible repeat' (first
    | (intro _)
    | (extract_lets +onlyGivenNames tv; have hu := tv; clear hu)
    | assumption
    | rfl
    | apply State.flushDone_held
    | apply State.discard_held
    | apply State.flushEnd_held
    | apply ite_h)

theorem execQueueFlushAbort_held {die : PDie} {gone : BitVec 24} {s : State} {mx : List Instr × Mem} (hh : s.held = mx) : ∃ tv, execQueueFlushAbort die gone s = .next tv ∧ tv.held = mx := by
  unfold execQueueFlushAbort
  with_reducible repeat' (first
    | assumption
    | rfl
    | apply next_h
    | apply State.flushAbort_held)

theorem execDeliveryRingTailWrite_held {die : PDie} {ring : BitVec 10} {line : BitVec 20} {s : State} {mx : List Instr × Mem} (hh : s.held = mx) : ∃ tv, execDeliveryRingTailWrite die ring line s = .next tv ∧ tv.held = mx := by
  unfold execDeliveryRingTailWrite
  with_reducible repeat' (first
    | assumption
    | rfl
    | apply next_h
    | apply State.put_held)

theorem State.portEmpty_held {s : State} {d : Die} {p : Nat} {mx : List Instr × Mem} (hh : s.held = mx) : (State.portEmpty s d p).held = mx := by
  unfold State.portEmpty
  with_reducible repeat' (first
    | (intro _)
    | (extract_lets +onlyGivenNames tv; first | (refine (fun ht : State.held tv = mx => ?_) ?_; clear_value tv; rotate_left; subst tv; rotate_right) | (refine (fun ht : State.held (Prod.fst tv) = mx => ?_) ?_; clear_value tv; rotate_left; subst tv; rotate_right) | (have hu := tv; clear hu))
    | assumption
    | rfl
    | apply State.puts_held
    | apply State.macControl_held
    | apply ite_h
    | apply foldl_h
    | apply ite1_h
    | apply fold1_h
    | split
    | (clear_value *; split))

theorem State.pktEmpty_held {s : State} {d : Die} {mx : List Instr × Mem} (hh : s.held = mx) : (State.pktEmpty s d).held = mx := by
  unfold State.pktEmpty
  with_reducible repeat' (first
    | (intro _)
    | (extract_lets +onlyGivenNames tv; first | (refine (fun ht : State.held tv = mx => ?_) ?_; clear_value tv; rotate_left; subst tv; rotate_right) | (refine (fun ht : State.held (Prod.fst tv) = mx => ?_) ?_; clear_value tv; rotate_left; subst tv; rotate_right) | (have hu := tv; clear hu))
    | assumption
    | rfl
    | apply State.setQueues_held
    | apply State.setPorts_held
    | apply State.setPkt_held
    | apply State.puts_held
    | apply State.lkpEmpty_held
    | apply State.portEmpty_held
    | apply ite_h
    | apply foldl_h
    | apply ite1_h
    | apply fold1_h
    | split
    | (clear_value *; split))

end Sys2Proof.Machine
end

