-- ==== Sys2Proof/Laws/HeldCompress.lean ====
section
/-! SUPPORT. For each operation of Machine/Compress.lean: the queue and the memory it keeps (`_held`), or, where it stores, that the queue stays and the memory keeps its canonical form (`_ok`). -/

namespace Sys2Proof.Machine
open Sys2Proof
set_option linter.tactic.unusedName false

theorem State.cmpBlocks_held {s : State} {d : Die} {prof : Nat} {b : Nat} {bad : List Nat} {mx : List Instr × Mem} (hh : s.held = mx) : (State.cmpBlocks s d prof b bad).held = mx := by
  unfold State.cmpBlocks
  with_reducible repeat' (first
    | (intro _)
    | (extract_lets +onlyGivenNames tv; first | (refine (fun ht : State.held tv = mx => ?_) ?_; clear_value tv; rotate_left; subst tv; rotate_right) | (have hu := tv; clear hu))
    | assumption
    | rfl
    | apply State.bump_held
    | apply State.onceStart_held
    | apply State.raise_held
    | apply ite_h
    | split
    | (clear_value *; split))

theorem State.cmpUnfit_held {s : State} {d : Die} {prof : Nat} {why : Nat} {mx : List Instr × Mem} (hh : s.held = mx) : (State.cmpUnfit s d prof why).held = mx := by
  unfold State.cmpUnfit
  with_reducible repeat' (first
    | (intro _)
    | (extract_lets +onlyGivenNames tv; first | (refine (fun ht : State.held tv = mx => ?_) ?_; clear_value tv; rotate_left; subst tv; rotate_right) | (have hu := tv; clear hu))
    | assumption
    | rfl
    | apply State.bump_held
    | apply State.onceStart_held
    | apply State.raise_held
    | apply ite_h)

theorem State.cmpFrame_ok {s : State} {d : Die} {x : CmpFrame} {rate : Bool} {mx : List Instr × Mem} (hh : State.Ok mx s) : State.Ok mx (State.cmpFrame s d x rate) := by
  unfold State.cmpFrame
  with_reducible repeat' (first
    | (intro _)
    | (extract_lets +onlyGivenNames tv; first | (refine (fun ht : State.Ok mx tv => ?_) ?_; clear_value tv; rotate_left; subst tv; rotate_right) | (refine (fun ht : State.Ok mx (Prod.fst tv) => ?_) ?_; clear_value tv; rotate_left; subst tv; rotate_right) | (have hu := tv; clear hu))
    | assumption
    | exact ok_rfl
    | refine ok_of (State.bump_held rfl) ?_
    | apply State.toQueue_ok
    | refine ok_of (State.cmpBlocks_held rfl) ?_
    | refine ok_of (State.cmpUnfit_held rfl) ?_
    | apply ite_ok
    | apply foldl_ok
    | apply ite1_ok
    | apply fold1_ok
    | split
    | (clear_value *; split))

theorem execCmpFrameProcess_ok {die : PDie} {rate : Bool} {s : State} {mx : List Instr × Mem} (hh : State.Ok mx s) : ∃ tv, execCmpFrameProcess die rate s = .next tv ∧ State.Ok mx tv := by
  unfold execCmpFrameProcess
  with_reducible repeat' (first
    | (intro _)
    | assumption
    | exact ok_rfl
    | apply next_ok
    | refine ok_of (State.onEngine_held rfl) ?_
    | apply State.cmpFrame_ok
    | apply ite_ok
    | apply foldl_ok
    | apply ite1_ok
    | apply fold1_ok
    | split
    | (clear_value *; split))

theorem State.jobSync_held {s : State} {d : Die} {mx : List Instr × Mem} (hh : s.held = mx) : (State.jobSync s d).held = mx := by
  unfold State.jobSync
  with_reducible repeat' (first
    | assumption
    | rfl
    | apply State.puts_held)

theorem State.jobPost_held {s : State} {d : Die} {mx : List Instr × Mem} (hh : s.held = mx) : (State.jobPost s d).held = mx := by
  unfold State.jobPost
  with_reducible repeat' (first
    | (intro _)
    | (extract_lets +onlyGivenNames tv; have hu := tv; clear hu)
    | assumption
    | rfl
    | apply State.put_held
    | apply State.onEngine_held
    | apply State.jobSync_held
    | apply ite_h)

theorem execCmpJobPost_held {die : PDie} {s : State} {mx : List Instr × Mem} (hh : s.held = mx) : ∃ tv, execCmpJobPost die s = .next tv ∧ tv.held = mx := by
  unfold execCmpJobPost
  with_reducible repeat' (first
    | assumption
    | rfl
    | apply next_h
    | apply State.jobPost_held)

theorem State.jobFlush_held {s : State} {d : Die} {mx : List Instr × Mem} (hh : s.held = mx) : (State.jobFlush s d).held = mx := by
  unfold State.jobFlush
  with_reducible repeat' (first
    | (intro _)
    | assumption
    | rfl
    | apply State.onEngine_held
    | apply State.jobSync_held)

theorem execCmpJobFlush_held {die : PDie} {s : State} {mx : List Instr × Mem} (hh : s.held = mx) : ∃ tv, execCmpJobFlush die s = .next tv ∧ tv.held = mx := by
  unfold execCmpJobFlush
  with_reducible repeat' (first
    | assumption
    | rfl
    | apply next_h
    | apply State.jobFlush_held)

theorem State.jobEnd_held {s : State} {d : Die} {job : CmpJob} {status : Nat} {out : Nat} {mx : List Instr × Mem} (hh : s.held = mx) : (State.jobEnd s d job status out).held = mx := by
  unfold State.jobEnd
  with_reducible repeat' (first
    | (intro _)
    | (extract_lets +onlyGivenNames tv; first | (refine (fun ht : State.held tv = mx => ?_) ?_; clear_value tv; rotate_left; subst tv; rotate_right) | (have hu := tv; clear hu))
    | assumption
    | rfl
    | apply State.onEngine_held
    | apply State.jobSync_held
    | apply State.bump_held
    | apply State.puts_held
    | apply State.put_held
    | apply State.raise_held
    | apply ite_h)

theorem State.jobStart_held {s : State} {d : Die} {mx : List Instr × Mem} (hh : s.held = mx) : (State.jobStart s d).held = mx := by
  unfold State.jobStart
  with_reducible repeat' (first
    | (intro _)
    | (extract_lets +onlyGivenNames tv; first | (refine (fun ht : State.held tv = mx => ?_) ?_; clear_value tv; rotate_left; subst tv; rotate_right) | (have hu := tv; clear hu))
    | assumption
    | rfl
    | apply State.onEngine_held
    | apply State.jobSync_held
    | apply State.jobEnd_held
    | apply ite_h
    | split
    | (clear_value *; split))

theorem execCmpJobStart_held {die : PDie} {s : State} {mx : List Instr × Mem} (hh : s.held = mx) : ∃ tv, execCmpJobStart die s = .next tv ∧ tv.held = mx := by
  unfold execCmpJobStart
  with_reducible repeat' (first
    | assumption
    | rfl
    | apply next_h
    | apply State.jobStart_held)

end Sys2Proof.Machine
end

