-- ==== Sys2Proof/Laws/HeldHostRing.lean ====
section
/-! SUPPORT. For each operation of Machine/HostRing.lean: the queue and the memory it keeps (`_held`), or, where it stores, that the queue stays and the memory keeps its canonical form (`_ok`). -/

namespace Sys2Proof.Machine
open Sys2Proof
set_option linter.tactic.unusedName false

theorem State.onRing_held {s : State} {r : Nat} {f : HostRing → HostRing} {mx : List Instr × Mem} (hh : s.held = mx) : (State.onRing s r f).held = mx := by
  unfold State.onRing
  with_reducible repeat' (first
    | assumption
    | rfl
    | apply State.setRings_held)

theorem execHostRingTailWrite_held {ring : BitVec 12} {tail : BitVec 16} {s : State} {mx : List Instr × Mem} (hh : s.held = mx) : ∃ tv, execHostRingTailWrite ring tail s = .next tv ∧ tv.held = mx := by
  unfold execHostRingTailWrite
  with_reducible repeat' (first
    | assumption
    | rfl
    | apply next_h
    | apply State.put_held)

theorem State.ringIrq_held {s : State} {r : Nat} {held : Bool} {mx : List Instr × Mem} (hh : s.held = mx) : (State.ringIrq s r held).held = mx := by
  unfold State.ringIrq
  with_reducible repeat' (first
    | (intro _)
    | assumption
    | rfl
    | apply State.onRing_held
    | apply State.msix_held
    | apply ite_h)

theorem State.ringFail_held {s : State} {r : Nat} {cause : Nat} {mx : List Instr × Mem} (hh : s.held = mx) : (State.ringFail s r cause).held = mx := by
  unfold State.ringFail
  with_reducible repeat' (first
    | assumption
    | rfl
    | apply State.ringStop_held
    | apply State.bump_held
    | apply State.raise_held)

theorem State.ringBack_held {s : State} {r : Nat} {l : List (List Nat)} {mx : List Instr × Mem} (hh : s.held = mx) : (State.ringBack s r l).held = mx := by
  unfold State.ringBack
  with_reducible repeat' (first
    | (intro _)
    | (extract_lets +onlyGivenNames tv; first | (refine (fun ht : State.held tv = mx => ?_) ?_; clear_value tv; rotate_left; subst tv; rotate_right) | (refine (fun ht : State.held (Prod.fst tv) = mx => ?_) ?_; clear_value tv; rotate_left; subst tv; rotate_right) | (have hu := tv; clear hu))
    | assumption
    | rfl
    | apply State.put_held
    | apply State.emit_held
    | apply State.onRing_held
    | apply ite_h
    | apply foldl_h
    | apply ite1_h
    | apply fold1_h
    | split
    | (clear_value *; split))

theorem State.ringAccess_ok {s : State} {r : Nat} {write : Bool} {bytes : List Nat} {status : Nat} {mx : List Instr × Mem} (hh : State.Ok mx s) : State.Ok mx (State.ringAccess s r write bytes status).1 := by
  unfold State.ringAccess
  with_reducible repeat' (first
    | (intro _)
    | (extract_lets +onlyGivenNames tv; first | (refine (fun ht : State.Ok mx tv => ?_) ?_; clear_value tv; rotate_left; subst tv; rotate_right) | (refine (fun ht : State.Ok mx (Prod.fst tv) => ?_) ?_; clear_value tv; rotate_left; subst tv; rotate_right) | (have hu := tv; clear hu))
    | assumption
    | exact ok_rfl
    | refine ok_of (State.used_held rfl) ?_
    | refine State.frameAccess_okp ‹_› ?_
    | apply State.frameAccess_ok
    | apply ite_ok
    | apply foldl_ok
    | apply ite1_ok
    | apply fold1_ok
    | split
    | (clear_value *; split))
theorem State.ringAccess_okp {s : State} {r : Nat} {write : Bool} {bytes : List Nat} {status : Nat} {mx : List Instr × Mem} {tv : State} {ov : Nat} (he : State.ringAccess s r write bytes status = (tv, ov)) (hh : State.Ok mx s) : State.Ok mx tv := by
  have k := State.ringAccess_ok (s := s) (r := r) (write := write) (bytes := bytes) (status := status) hh
  rw [he] at k; exact k

theorem State.ringRx_ok {s : State} {r : Nat} {q : Nat} {descs : List (BitVec 256)} {status : Nat} {held : Bool} {bad : Bool} {mx : List Instr × Mem} (hh : State.Ok mx s) : State.Ok mx (State.ringRx s r q descs status held bad) := by
  unfold State.ringRx
  with_reducible repeat' (first
    | (intro _)
    | (extract_lets +onlyGivenNames tv; first | (refine (fun ht : State.Ok mx tv => ?_) ?_; clear_value tv; rotate_left; subst tv; rotate_right) | (refine (fun ht : State.Ok mx (Prod.fst tv) => ?_) ?_; clear_value tv; rotate_left; subst tv; rotate_right) | (have hu := tv; clear hu))
    | assumption
    | exact ok_rfl
    | refine ok_of (State.bump_held rfl) ?_
    | refine ok_of (State.emit_held rfl) ?_
    | refine ok_of (State.bufferUe_held rfl) ?_
    | refine State.unspill_okp ‹_› ?_
    | apply State.unspill_ok
    | refine ok_of (State.takeHead_held rfl) ?_
    | refine ok_of (State.ringIrq_held rfl) ?_
    | refine ok_of (State.ringFail_held rfl) ?_
    | refine ok_of (State.ringBack_held rfl) ?_
    | refine State.ringAccess_okp ‹_› ?_
    | apply State.ringAccess_ok
    | apply ite_ok
    | apply foldl_ok
    | apply ite1_ok
    | apply fold1_ok
    | split
    | (clear_value *; split))

theorem execHostRingRxFrame_ok {ring : BitVec 12} {queue : BitVec 16} {descs : List (BitVec 256)} {status : BitVec 4} {held : Bool} {bad : Bool} {s : State} {mx : List Instr × Mem} (hh : State.Ok mx s) : ∃ tv, execHostRingRxFrame ring queue descs status held bad s = .next tv ∧ State.Ok mx tv := by
  unfold execHostRingRxFrame
  with_reducible repeat' (first
    | (intro _)
    | assumption
    | exact ok_rfl
    | apply next_ok
    | apply State.ringRx_ok
    | apply ite_ok
    | apply foldl_ok
    | apply ite1_ok
    | apply fold1_ok
    | split
    | (clear_value *; split))

theorem State.ringOffer_ok {s : State} {r : Nat} {first : BitVec 256} {l : List Nat} {rate : Bool} {mx : List Instr × Mem} (hh : State.Ok mx s) : State.Ok mx (State.ringOffer s r first l rate) := by
  unfold State.ringOffer
  with_reducible repeat' (first
    | (intro _)
    | (extract_lets +onlyGivenNames tv; first | (refine (fun ht : State.Ok mx tv => ?_) ?_; clear_value tv; rotate_left; subst tv; rotate_right) | (refine (fun ht : State.Ok mx (Prod.fst tv) => ?_) ?_; clear_value tv; rotate_left; subst tv; rotate_right) | (have hu := tv; clear hu))
    | assumption
    | exact ok_rfl
    | refine ok_of (State.used_held rfl) ?_
    | apply State.toQueue_ok
    | refine ok_of (State.frameResult_heldp ‹_› rfl) ?_
    | refine ok_of (State.frameResult_held rfl) ?_
    | apply State.frameOn_ok
    | apply ite_ok
    | apply foldl_ok
    | apply ite1_ok
    | apply fold1_ok
    | split
    | (clear_value *; split))

theorem State.ringTx_ok {s : State} {r : Nat} {descs : List (BitVec 256)} {bytes : List Nat} {status : Nat} {held : Bool} {rate : Bool} {mx : List Instr × Mem} (hh : State.Ok mx s) : State.Ok mx (State.ringTx s r descs bytes status held rate) := by
  unfold State.ringTx
  with_reducible repeat' (first
    | (intro _)
    | (extract_lets +onlyGivenNames tv; first | (refine (fun ht : State.Ok mx tv => ?_) ?_; clear_value tv; rotate_left; subst tv; rotate_right) | (refine (fun ht : State.Ok mx (Prod.fst tv) => ?_) ?_; clear_value tv; rotate_left; subst tv; rotate_right) | (have hu := tv; clear hu))
    | assumption
    | exact ok_rfl
    | refine ok_of (State.used_held rfl) ?_
    | refine ok_of (State.ringIrq_held rfl) ?_
    | refine ok_of (State.ringFail_held rfl) ?_
    | refine ok_of (State.ringBack_held rfl) ?_
    | refine State.ringAccess_okp ‹_› ?_
    | apply State.ringAccess_ok
    | apply State.ringOffer_ok
    | apply ite_ok
    | apply foldl_ok
    | apply ite1_ok
    | apply fold1_ok
    | split
    | (clear_value *; split))

theorem execHostRingTxFrame_ok {ring : BitVec 12} {descs : List (BitVec 256)} {bytes : List Byte} {status : BitVec 4} {held : Bool} {rate : Bool} {s : State} {mx : List Instr × Mem} (hh : State.Ok mx s) : ∃ tv, execHostRingTxFrame ring descs bytes status held rate s = .next tv ∧ State.Ok mx tv := by
  unfold execHostRingTxFrame
  with_reducible repeat' (first
    | (intro _)
    | assumption
    | exact ok_rfl
    | apply next_ok
    | apply State.ringTx_ok
    | apply ite_ok
    | apply foldl_ok
    | apply ite1_ok
    | apply fold1_ok
    | split
    | (clear_value *; split))

theorem State.ringPcie_held {s : State} {r : Nat} {cause : Nat} {q : Nat} {mx : List Instr × Mem} (hh : s.held = mx) : (State.ringPcie s r cause q).held = mx := by
  unfold State.ringPcie
  with_reducible repeat' (first
    | (intro _)
    | (extract_lets +onlyGivenNames tv; have hu := tv; clear hu)
    | assumption
    | rfl
    | apply State.takeHead_held
    | apply State.ringFail_held
    | apply ite_h)

theorem execPcieCompletion_held {ring : BitVec 12} {result : PcieEnd} {queue : BitVec 16} {s : State} {mx : List Instr × Mem} (hh : s.held = mx) : ∃ tv, execPcieCompletion ring result queue s = .next tv ∧ tv.held = mx := by
  unfold execPcieCompletion
  with_reducible repeat' (first
    | assumption
    | rfl
    | apply next_h
    | apply State.ringPcie_held
    | split)

theorem execPcieCompletionTimeout_held {ring : BitVec 12} {queue : BitVec 16} {s : State} {mx : List Instr × Mem} (hh : s.held = mx) : ∃ tv, execPcieCompletionTimeout ring queue s = .next tv ∧ tv.held = mx := by
  unfold execPcieCompletionTimeout
  with_reducible repeat' (first
    | assumption
    | rfl
    | apply next_h
    | apply State.ringPcie_held)

theorem State.ringHoldoff_held {s : State} {r : Nat} {mx : List Instr × Mem} (hh : s.held = mx) : (State.ringHoldoff s r).held = mx := by
  unfold State.ringHoldoff
  with_reducible repeat' (first
    | (intro _)
    | assumption
    | rfl
    | apply State.onRing_held
    | apply State.msix_held
    | apply ite_h)

theorem execMsixHoldoffExpiry_held {ring : BitVec 12} {s : State} {mx : List Instr × Mem} (hh : s.held = mx) : ∃ tv, execMsixHoldoffExpiry ring s = .next tv ∧ tv.held = mx := by
  unfold execMsixHoldoffExpiry
  with_reducible repeat' (first
    | assumption
    | rfl
    | apply next_h
    | apply State.ringHoldoff_held)

theorem State.ringResume_held {s : State} {r : Nat} {mx : List Instr × Mem} (hh : s.held = mx) : (State.ringResume s r).held = mx := by
  unfold State.ringResume
  with_reducible repeat' (first
    | (intro _)
    | assumption
    | rfl
    | apply State.puts_held
    | apply State.put_held
    | apply ite_h)

theorem execHostRingResume_held {ring : BitVec 12} {s : State} {mx : List Instr × Mem} (hh : s.held = mx) : ∃ tv, execHostRingResume ring s = .next tv ∧ tv.held = mx := by
  unfold execHostRingResume
  with_reducible repeat' (first
    | assumption
    | rfl
    | apply next_h
    | apply State.ringResume_held)

theorem State.ringCfg_held {s : State} {r : Nat} {v : Word} {mx : List Instr × Mem} (hh : s.held = mx) : (State.ringCfg s r v).held = mx := by
  unfold State.ringCfg
  with_reducible repeat' (first
    | (intro _)
    | assumption
    | rfl
    | apply State.writeReg_held
    | apply ite_h)

end Sys2Proof.Machine
end

