-- ==== Sys2Proof/Laws/HeldReserve.lean ====
section
/-! SUPPORT. For each operation of Machine/Reserve.lean: the queue and the memory it keeps (`_held`), or, where it stores, that the queue stays and the memory keeps its canonical form (`_ok`). -/

namespace Sys2Proof.Machine
open Sys2Proof
set_option linter.tactic.unusedName false

theorem State.setXTable_held {s : State} {d : Die} {l : List XEntry} {mx : List Instr × Mem} (hh : s.held = mx) : (State.setXTable s d l).held = mx := by
  unfold State.setXTable
  with_reducible repeat' (first
    | (intro _)
    | (extract_lets +onlyGivenNames tv; have hu := tv; clear hu)
    | assumption
    | rfl
    | apply State.puts_held
    | apply State.setReg_held
    | apply ite_h
    | apply foldl_h
    | apply ite1_h
    | apply fold1_h
    | split
    | (clear_value *; split))

theorem State.xRefused_held {s : State} {result : Nat} {mx : List Instr × Mem} (hh : s.held = mx) : (State.xRefused s result).held = mx := by
  unfold State.xRefused
  with_reducible repeat' (first
    | assumption
    | rfl
    | apply State.put_held
    | apply State.raise_held)

theorem State.xCheck_held {s : State} {table : List XEntry} {new : List XEntry} {mx : List Instr × Mem} (hh : s.held = mx) : (State.xCheck s table new).1.held = mx := by
  unfold State.xCheck
  with_reducible repeat' (first
    | (intro _)
    | (extract_lets +onlyGivenNames tv; have hu := tv; clear hu)
    | assumption
    | rfl
    | apply State.put_held
    | apply State.setReg_held
    | apply State.xRefused_held
    | apply ite_h
    | apply ite1_h)
theorem State.xCheck_heldp {s : State} {table : List XEntry} {new : List XEntry} {mx : List Instr × Mem} {tv : State} {ov : Bool} (he : State.xCheck s table new = (tv, ov)) (hh : s.held = mx) : tv.held = mx := by
  have k := State.xCheck_held (s := s) (table := table) (new := new) hh
  rw [he] at k; exact k

theorem State.xPorts_held {s : State} {mode : Nat → Nat} {new : List XEntry} {mx : List Instr × Mem} (hh : s.held = mx) : (State.xPorts s mode new).1.held = mx := by
  unfold State.xPorts
  with_reducible repeat' (first
    | (intro _)
    | assumption
    | rfl
    | apply State.xRefused_held
    | apply ite_h
    | apply ite1_h)
theorem State.xPorts_heldp {s : State} {mode : Nat → Nat} {new : List XEntry} {mx : List Instr × Mem} {tv : State} {ov : Bool} (he : State.xPorts s mode new = (tv, ov)) (hh : s.held = mx) : tv.held = mx := by
  have k := State.xPorts_held (s := s) (mode := mode) (new := new) hh
  rw [he] at k; exact k

end Sys2Proof.Machine
end

