-- ==== Sys2Proof/Laws/HeldClocks.lean ====
section
/-! SUPPORT. For each operation of Machine/Clocks.lean: the queue and the memory it keeps (`_held`), or, where it stores, that the queue stays and the memory keeps its canonical form (`_ok`). -/

namespace Sys2Proof.Machine
open Sys2Proof
set_option linter.tactic.unusedName false

theorem State.lineSafe_ok {s : State} {d : Die} {cause : Nat} {mx : List Instr × Mem} (hh : State.Ok mx s) : State.Ok mx (State.lineSafe s d cause) := by
  unfold State.lineSafe
  with_reducible repeat' (first
    | (intro _)
    | (extract_lets +onlyGivenNames tv; first | (refine (fun ht : State.Ok mx tv => ?_) ?_; clear_value tv; rotate_left; subst tv; rotate_right) | (have hu := tv; clear hu))
    | assumption
    | exact ok_rfl
    | refine ok_of (State.lanesSafe_held rfl) ?_
    | apply State.memSafe_ok
    | refine ok_of (State.ppsSafe_held rfl) ?_
    | refine ok_of (State.puts_held rfl) ?_
    | refine ok_of (State.rclkSync_held rfl) ?_
    | refine ok_of (State.put_held rfl) ?_
    | refine ok_of (State.raise_held rfl) ?_
    | apply ite_ok)

theorem State.setUntimed_held {s : State} {mx : List Instr × Mem} (hh : s.held = mx) : (State.setUntimed s).held = mx := by
  unfold State.setUntimed
  with_reducible repeat' (first
    | (intro _)
    | (extract_lets +onlyGivenNames tv; first | (refine (fun ht : State.held tv = mx => ?_) ?_; clear_value tv; rotate_left; subst tv; rotate_right) | (have hu := tv; clear hu))
    | assumption
    | rfl
    | apply State.setUnits_held
    | apply State.lockLost_held
    | apply State.put_held
    | apply State.raise_held
    | apply ite_h
    | apply foldl_h)

theorem State.coast_ok {s : State} {cause : Nat} {mx : List Instr × Mem} (hh : State.Ok mx s) : State.Ok mx (State.coast s cause) := by
  unfold State.coast
  with_reducible repeat' (first
    | (intro _)
    | (extract_lets +onlyGivenNames tv; first | (refine (fun ht : State.Ok mx tv => ?_) ?_; clear_value tv; rotate_left; subst tv; rotate_right) | (refine (fun ht : State.Ok mx (Prod.fst tv) => ?_) ?_; clear_value tv; rotate_left; subst tv; rotate_right) | (have hu := tv; clear hu))
    | assumption
    | exact ok_rfl
    | refine ok_of (State.setClk_held rfl) ?_
    | refine ok_of (State.setUntimed_held rfl) ?_
    | refine ok_of (State.puts_held rfl) ?_
    | refine ok_of (State.raise_held rfl) ?_
    | apply State.lineSafe_ok
    | apply ite_ok
    | apply foldl_ok
    | apply ite1_ok
    | apply fold1_ok
    | split
    | (clear_value *; split))

theorem State.switchRefused_held {s : State} {src : Nat} {mx : List Instr × Mem} (hh : s.held = mx) : (State.switchRefused s src).held = mx := by
  unfold State.switchRefused
  with_reducible repeat' (first
    | assumption
    | rfl
    | apply State.put_held
    | apply State.raise_held)

theorem State.clockSwitch_held {s : State} {sel : Nat} {mx : List Instr × Mem} (hh : s.held = mx) : (State.clockSwitch s sel).held = mx := by
  unfold State.clockSwitch
  with_reducible repeat' (first
    | (intro _)
    | assumption
    | rfl
    | apply State.setClk_held
    | apply State.switchRefused_held
    | apply ite_h)

theorem execClockSwitch_held {sel : BitVec 3} {s : State} {mx : List Instr × Mem} (hh : s.held = mx) : ∃ tv, execClockSwitch sel s = .next tv ∧ tv.held = mx := by
  unfold execClockSwitch
  with_reducible repeat' (first
    | assumption
    | rfl
    | apply next_h
    | apply State.put_held
    | apply State.clockSwitch_held)

theorem execSwitchForced_held {s : State} {mx : List Instr × Mem} (hh : s.held = mx) : ∃ tv, execSwitchForced s = .next tv ∧ tv.held = mx := by
  unfold execSwitchForced
  with_reducible repeat' (first
    | (intro _)
    | assumption
    | rfl
    | apply next_h
    | apply State.setClk_held
    | apply State.put_held
    | apply ite_h
    | split)

theorem State.heldSwitch_held {s : State} {mx : List Instr × Mem} (hh : s.held = mx) : (State.heldSwitch s).held = mx := by
  unfold State.heldSwitch
  with_reducible repeat' (first
    | assumption
    | rfl
    | apply State.setClk_held
    | apply State.clockSwitch_held
    | split)

theorem State.switched_held {s : State} {mx : List Instr × Mem} (hh : s.held = mx) : (State.switched s).held = mx := by
  unfold State.switched
  with_reducible repeat' (first
    | (extract_lets +onlyGivenNames tv; first | (refine (fun ht : State.held tv = mx => ?_) ?_; clear_value tv; rotate_left; subst tv; rotate_right) | (have hu := tv; clear hu))
    | assumption
    | rfl
    | apply State.put_held
    | apply State.setClk_held
    | apply State.raise_held
    | apply State.heldSwitch_held
    | split
    | (clear_value *; split))

theorem execSwitchComplete_held {s : State} {mx : List Instr × Mem} (hh : s.held = mx) : ∃ tv, execSwitchComplete s = .next tv ∧ tv.held = mx := by
  unfold execSwitchComplete
  with_reducible repeat' (first
    | assumption
    | rfl
    | apply next_h
    | apply State.switched_held)

theorem State.activeTrip_ok {s : State} {src : Nat} {mx : List Instr × Mem} (hh : State.Ok mx s) : State.Ok mx (State.activeTrip s src) := by
  unfold State.activeTrip
  with_reducible repeat' (first
    | (intro _)
    | assumption
    | exact ok_rfl
    | refine ok_of (State.setClk_held rfl) ?_
    | refine ok_of (State.put_held rfl) ?_
    | apply State.coast_ok
    | refine ok_of (State.switchRefused_held rfl) ?_
    | apply ite_ok
    | apply foldl_ok
    | apply ite1_ok
    | apply fold1_ok
    | split
    | (clear_value *; split))

theorem State.switchDropped_ok {s : State} {t : Nat} {mx : List Instr × Mem} (hh : State.Ok mx s) : State.Ok mx (State.switchDropped s t) := by
  unfold State.switchDropped
  with_reducible repeat' (first
    | (intro _)
    | (extract_lets +onlyGivenNames tv; first | (refine (fun ht : State.Ok mx tv => ?_) ?_; clear_value tv; rotate_left; subst tv; rotate_right) | (have hu := tv; clear hu))
    | assumption
    | exact ok_rfl
    | refine ok_of (State.setClk_held rfl) ?_
    | refine ok_of (State.switchRefused_held rfl) ?_
    | apply State.activeTrip_ok
    | refine ok_of (State.heldSwitch_held rfl) ?_
    | apply ite_ok)

theorem execSourceReady_held {source : Fin 7} {s : State} {mx : List Instr × Mem} (hh : s.held = mx) : ∃ tv, execSourceReady source s = .next tv ∧ tv.held = mx := by
  unfold execSourceReady
  with_reducible repeat' (first
    | (intro _)
    | (extract_lets +onlyGivenNames tv; have hu := tv; clear hu)
    | assumption
    | rfl
    | apply next_h
    | apply State.setBit_held
    | apply State.raise_held
    | apply ite_h
    | (clear_value *; split))

theorem State.srcTrip_ok {s : State} {src : Nat} {kind : Nat} {mx : List Instr × Mem} (hh : State.Ok mx s) : State.Ok mx (State.srcTrip s src kind) := by
  unfold State.srcTrip
  with_reducible repeat' (first
    | (intro _)
    | (extract_lets +onlyGivenNames tv; first | (refine (fun ht : State.Ok mx tv => ?_) ?_; clear_value tv; rotate_left; subst tv; rotate_right) | (have hu := tv; clear hu))
    | assumption
    | exact ok_rfl
    | refine ok_of (State.setClk_held rfl) ?_
    | refine ok_of (State.clrBit_held rfl) ?_
    | refine ok_of (State.setBit_held rfl) ?_
    | refine ok_of (State.raise_held rfl) ?_
    | apply State.switchDropped_ok
    | apply State.activeTrip_ok
    | apply ite_ok
    | split
    | (clear_value *; split))

theorem execSourceTrip_ok {source : Fin 7} {kind : Fin 3} {s : State} {mx : List Instr × Mem} (hh : State.Ok mx s) : ∃ tv, execSourceTrip source kind s = .next tv ∧ State.Ok mx tv := by
  unfold execSourceTrip
  with_reducible repeat' (first
    | (intro _)
    | assumption
    | exact ok_rfl
    | apply next_ok
    | apply State.srcTrip_ok
    | apply ite_ok)

theorem execFreqWindowEnd_ok {source : Fin 7} {count : BitVec 24} {whole : Bool} {s : State} {mx : List Instr × Mem} (hh : State.Ok mx s) : ∃ tv, execFreqWindowEnd source count whole s = .next tv ∧ State.Ok mx tv := by
  unfold execFreqWindowEnd
  with_reducible repeat' (first
    | (intro _)
    | (extract_lets +onlyGivenNames tv; first | (refine (fun ht : State.Ok mx tv => ?_) ?_; clear_value tv; rotate_left; subst tv; rotate_right) | (refine (fun ht : State.Ok mx (Prod.fst tv) => ?_) ?_; clear_value tv; rotate_left; subst tv; rotate_right) | (have hu := tv; clear hu))
    | assumption
    | exact ok_rfl
    | apply next_ok
    | refine ok_of (State.setClk_held rfl) ?_
    | apply State.srcTrip_ok
    | apply ite_ok
    | apply foldl_ok
    | apply ite1_ok
    | apply fold1_ok
    | split
    | (clear_value *; split))

theorem execDatumPllUnlock_ok {s : State} {mx : List Instr × Mem} (hh : State.Ok mx s) : ∃ tv, execDatumPllUnlock s = .next tv ∧ State.Ok mx tv := by
  unfold execDatumPllUnlock
  with_reducible repeat' (first
    | (intro _)
    | assumption
    | exact ok_rfl
    | apply next_ok
    | apply State.coast_ok
    | apply ite_ok)

theorem execRcOscillatorCheck_held {count : BitVec 32} {s : State} {mx : List Instr × Mem} (hh : s.held = mx) : ∃ tv, execRcOscillatorCheck count s = .next tv ∧ tv.held = mx := by
  unfold execRcOscillatorCheck
  with_reducible repeat' (first
    | (intro _)
    | (extract_lets +onlyGivenNames tv; have hu := tv; clear hu)
    | assumption
    | rfl
    | apply next_h
    | apply State.put_held
    | apply State.raise_held
    | apply ite_h)

theorem State.xtalEnable_ok {s : State} {on : Bool} {mx : List Instr × Mem} (hh : State.Ok mx s) : State.Ok mx (State.xtalEnable s on) := by
  unfold State.xtalEnable
  with_reducible repeat' (first
    | (intro _)
    | (extract_lets +onlyGivenNames tv; first | (refine (fun ht : State.Ok mx tv => ?_) ?_; clear_value tv; rotate_left; subst tv; rotate_right) | (have hu := tv; clear hu))
    | assumption
    | exact ok_rfl
    | refine ok_of (State.put_held rfl) ?_
    | refine ok_of (State.clrBit_held rfl) ?_
    | apply State.switchDropped_ok
    | apply ite_ok
    | split
    | (clear_value *; split))

theorem execXtalEnable_ok {on : Bool} {s : State} {mx : List Instr × Mem} (hh : State.Ok mx s) : ∃ tv, execXtalEnable on s = .next tv ∧ State.Ok mx tv := by
  unfold execXtalEnable
  with_reducible repeat' (first
    | assumption
    | exact ok_rfl
    | apply next_ok
    | apply State.xtalEnable_ok)

theorem State.clkCtrl_ok {s : State} {v : Word} {mx : List Instr × Mem} (hh : State.Ok mx s) : State.Ok mx (State.clkCtrl s v) := by
  unfold State.clkCtrl
  with_reducible repeat' (first
    | (intro _)
    | (extract_lets +onlyGivenNames tv; first | (refine (fun ht : State.Ok mx tv => ?_) ?_; clear_value tv; rotate_left; subst tv; rotate_right) | (have hu := tv; clear hu))
    | assumption
    | exact ok_rfl
    | refine ok_of (State.writeReg_held rfl) ?_
    | apply State.xtalEnable_ok
    | refine ok_of (State.clockSwitch_held rfl) ?_
    | apply ite_ok)

theorem State.setPll_held {s : State} {d : Die} {n : Nat} {on : Bool} {mx : List Instr × Mem} (hh : s.held = mx) : (State.setPll s d n on).held = mx := by
  unfold State.setPll
  with_reducible repeat' (first
    | (intro _)
    | (extract_lets +onlyGivenNames tv; first | (refine (fun ht : State.held tv = mx => ?_) ?_; clear_value tv; rotate_left; subst tv; rotate_right) | (refine (fun ht : State.held (Prod.fst tv) = mx => ?_) ?_; clear_value tv; rotate_left; subst tv; rotate_right) | (have hu := tv; clear hu))
    | assumption
    | rfl
    | apply State.put_held
    | apply State.seamsLose_held
    | apply ite_h
    | apply foldl_h
    | apply ite1_h
    | apply fold1_h
    | split
    | (clear_value *; split))

theorem execFabricPllUnlock_held {die : FDie} {pll : Fin 5} {s : State} {mx : List Instr × Mem} (hh : s.held = mx) : ∃ tv, execFabricPllUnlock die pll s = .next tv ∧ tv.held = mx := by
  unfold execFabricPllUnlock
  with_reducible repeat' (first
    | (intro _)
    | (extract_lets +onlyGivenNames tv; first | (refine (fun ht : State.held tv = mx => ?_) ?_; clear_value tv; rotate_left; subst tv; rotate_right) | (have hu := tv; clear hu))
    | assumption
    | rfl
    | apply next_h
    | apply State.setPll_held
    | apply State.bump_held
    | apply State.raise_held
    | apply ite_h)

theorem execFabricPllRelock_held {die : FDie} {pll : Fin 5} {s : State} {mx : List Instr × Mem} (hh : s.held = mx) : ∃ tv, execFabricPllRelock die pll s = .next tv ∧ tv.held = mx := by
  unfold execFabricPllRelock
  with_reducible repeat' (first
    | (intro _)
    | assumption
    | rfl
    | apply next_h
    | apply State.setPll_held
    | apply ite_h)

theorem State.tngResume_ok {s : State} {d : Die} {k : Nat} {mx : List Instr × Mem} (hh : State.Ok mx s) : State.Ok mx (State.tngResume s d k) := by
  unfold State.tngResume
  with_reducible repeat' (first
    | (intro _)
    | assumption
    | exact ok_rfl
    | refine State.run_ok ?_ ?_
    | apply State.tngGo_ok
    | apply ite_ok
    | split)

theorem State.pllSleep_held {s : State} {d : Die} {mx : List Instr × Mem} (hh : s.held = mx) : (State.pllSleep s d).held = mx := by
  unfold State.pllSleep
  with_reducible repeat' (first
    | (intro _)
    | (extract_lets +onlyGivenNames tv; first | (refine (fun ht : State.held tv = mx => ?_) ?_; clear_value tv; rotate_left; subst tv; rotate_right) | (have hu := tv; clear hu))
    | assumption
    | rfl
    | apply State.setPll_held
    | apply ite_h
    | apply foldl_h)

theorem State.gateOpen_ok {s : State} {d : Die} {dom : Nat} {mx : List Instr × Mem} (hh : State.Ok mx s) : State.Ok mx (State.gateOpen s d dom) := by
  unfold State.gateOpen
  with_reducible repeat' (first
    | (intro _)
    | (extract_lets +onlyGivenNames tv; first | (refine (fun ht : State.Ok mx tv => ?_) ?_; clear_value tv; rotate_left; subst tv; rotate_right) | (refine (fun ht : State.Ok mx (Prod.fst tv) => ?_) ?_; clear_value tv; rotate_left; subst tv; rotate_right) | (have hu := tv; clear hu))
    | assumption
    | exact ok_rfl
    | refine ok_of (State.setClk_held rfl) ?_
    | refine ok_of (State.put_held rfl) ?_
    | refine ok_of (State.coreWdogReload_held rfl) ?_
    | apply State.tngResume_ok
    | apply ite_ok
    | apply foldl_ok
    | apply ite1_ok
    | apply fold1_ok
    | split
    | (clear_value *; split))

theorem State.gateShut_held {s : State} {d : Die} {dom : Nat} {mx : List Instr × Mem} (hh : s.held = mx) : (State.gateShut s d dom).held = mx := by
  unfold State.gateShut
  with_reducible repeat' (first
    | (intro _)
    | (extract_lets +onlyGivenNames tv; first | (refine (fun ht : State.held tv = mx => ?_) ?_; clear_value tv; rotate_left; subst tv; rotate_right) | (refine (fun ht : State.held (Prod.fst tv) = mx => ?_) ?_; clear_value tv; rotate_left; subst tv; rotate_right) | (have hu := tv; clear hu))
    | assumption
    | rfl
    | apply State.put_held
    | apply State.onCore_held
    | apply State.pllSleep_held
    | apply ite_h
    | apply foldl_h
    | apply ite1_h
    | apply fold1_h
    | split
    | (clear_value *; split))

theorem State.gateSync_ok {s : State} {d : Die} {dom : Nat} {mx : List Instr × Mem} (hh : State.Ok mx s) : State.Ok mx (State.gateSync s d dom) := by
  unfold State.gateSync
  with_reducible repeat' (first
    | (intro _)
    | (extract_lets +onlyGivenNames tv; first | (refine (fun ht : State.Ok mx tv => ?_) ?_; clear_value tv; rotate_left; subst tv; rotate_right) | (refine (fun ht : State.Ok mx (Prod.fst tv) => ?_) ?_; clear_value tv; rotate_left; subst tv; rotate_right) | (have hu := tv; clear hu))
    | assumption
    | exact ok_rfl
    | apply State.fenceRaise_ok
    | apply State.gateOpen_ok
    | refine ok_of (State.gateShut_held rfl) ?_
    | apply ite_ok
    | apply foldl_ok
    | apply ite1_ok
    | apply fold1_ok
    | split
    | (clear_value *; split))

theorem State.gatesSync_ok {s : State} {d : Die} {mx : List Instr × Mem} (hh : State.Ok mx s) : State.Ok mx (State.gatesSync s d) := by
  unfold State.gatesSync
  with_reducible repeat' (first
    | (intro _)
    | assumption
    | exact ok_rfl
    | refine ok_of (State.pllSleep_held rfl) ?_
    | apply State.gateSync_ok
    | apply ite_ok
    | apply foldl_ok
    | apply ite1_ok
    | apply fold1_ok
    | split
    | (clear_value *; split))

theorem State.gateWrite_ok {s : State} {d : Die} {dom : Nat} {v : Word} {mx : List Instr × Mem} (hh : State.Ok mx s) : State.Ok mx (State.gateWrite s d dom v) := by
  unfold State.gateWrite
  with_reducible repeat' (first
    | (intro _)
    | assumption
    | exact ok_rfl
    | refine ok_of (State.writeReg_held rfl) ?_
    | refine ok_of (State.pllSleep_held rfl) ?_
    | apply State.gateSync_ok
    | apply ite_ok
    | apply foldl_ok
    | apply ite1_ok
    | apply fold1_ok
    | split
    | (clear_value *; split))

theorem execClockGateWrite_ok {die : Die} {domain : Fin 13} {value : Word} {s : State} {mx : List Instr × Mem} (hh : State.Ok mx s) : ∃ tv, execClockGateWrite die domain value s = .next tv ∧ State.Ok mx tv := by
  unfold execClockGateWrite
  with_reducible repeat' (first
    | assumption
    | exact ok_rfl
    | apply next_ok
    | apply State.gateWrite_ok)

theorem State.avsWrite_held {s : State} {d : Die} {mv : Nat} {mx : List Instr × Mem} (hh : s.held = mx) : (State.avsWrite s d mv).held = mx := by
  unfold State.avsWrite
  with_reducible repeat' (first
    | assumption
    | rfl
    | apply State.puts_held
    | apply State.emit_held)

theorem State.avsErr_held {s : State} {d : Die} {kind : Nat} {mx : List Instr × Mem} (hh : s.held = mx) : (State.avsErr s d kind).held = mx := by
  unfold State.avsErr
  with_reducible repeat' (first
    | assumption
    | rfl
    | apply State.put_held
    | apply State.raise_held)

theorem execAvsTimeout_held {die : FDie} {s : State} {mx : List Instr × Mem} (hh : s.held = mx) : ∃ tv, execAvsTimeout die s = .next tv ∧ tv.held = mx := by
  unfold execAvsTimeout
  with_reducible repeat' (first
    | (intro _)
    | (extract_lets +onlyGivenNames tv; have hu := tv; clear hu)
    | assumption
    | rfl
    | apply next_h
    | apply State.avsErr_held
    | apply State.avsWrite_held
    | apply ite_h)

theorem execAvsError_held {die : FDie} {kind : Fin 3} {s : State} {mx : List Instr × Mem} (hh : s.held = mx) : ∃ tv, execAvsError die kind s = .next tv ∧ tv.held = mx := by
  unfold execAvsError
  with_reducible repeat' (first
    | assumption
    | rfl
    | apply next_h
    | apply State.avsErr_held)

theorem State.pmbus_held {s : State} {v : Word} {mx : List Instr × Mem} (hh : s.held = mx) : (State.pmbus s v).held = mx := by
  unfold State.pmbus
  with_reducible repeat' (first
    | (intro _)
    | (extract_lets +onlyGivenNames tv; first | (refine (fun ht : State.held tv = mx => ?_) ?_; clear_value tv; rotate_left; subst tv; rotate_right) | (have hu := tv; clear hu))
    | assumption
    | rfl
    | apply State.writeReg_held
    | apply State.put_held
    | apply State.emit_held
    | apply ite_h)

theorem execPmbusTransaction_held {value : Word} {s : State} {mx : List Instr × Mem} (hh : s.held = mx) : ∃ tv, execPmbusTransaction value s = .next tv ∧ tv.held = mx := by
  unfold execPmbusTransaction
  with_reducible repeat' (first
    | assumption
    | rfl
    | apply next_h
    | apply State.pmbus_held)

theorem execPmbusDone_held {err : Fin 4} {data : BitVec 16} {s : State} {mx : List Instr × Mem} (hh : s.held = mx) : ∃ tv, execPmbusDone err data s = .next tv ∧ tv.held = mx := by
  unfold execPmbusDone
  with_reducible repeat' (first
    | (intro _)
    | (extract_lets +onlyGivenNames tv; first | (refine (fun ht : State.held tv = mx => ?_) ?_; clear_value tv; rotate_left; subst tv; rotate_right) | (have hu := tv; clear hu))
    | assumption
    | rfl
    | apply next_h
    | apply State.puts_held
    | apply State.put_held
    | apply ite_h)

theorem State.railSample_held {s : State} {rail : Nat} {mv : Nat} {mx : List Instr × Mem} (hh : s.held = mx) : (State.railSample s rail mv).held = mx := by
  unfold State.railSample
  with_reducible repeat' (first
    | (extract_lets +onlyGivenNames tv; have hu := tv; clear hu)
    | assumption
    | rfl
    | apply State.put_held)

theorem State.dipLaps_held {s : State} {rail : Nat} {mx : List Instr × Mem} (hh : s.held = mx) : (State.dipLaps s rail).held = mx := by
  unfold State.dipLaps
  with_reducible repeat' (first
    | (intro _)
    | assumption
    | rfl
    | apply State.priorityRequest_held
    | apply ite_h
    | apply foldl_h
    | apply ite1_h
    | apply fold1_h
    | split
    | (clear_value *; split))

theorem execRailWarningDip_held {rail : Fin 29} {min : BitVec 12} {mv : BitVec 12} {us : BitVec 32} {s : State} {mx : List Instr × Mem} (hh : s.held = mx) : ∃ tv, execRailWarningDip rail min mv us s = .next tv ∧ tv.held = mx := by
  unfold execRailWarningDip
  with_reducible repeat' (first
    | (intro _)
    | (extract_lets +onlyGivenNames tv; first | (refine (fun ht : State.held tv = mx => ?_) ?_; clear_value tv; rotate_left; subst tv; rotate_right) | (have hu := tv; clear hu))
    | assumption
    | rfl
    | apply next_h
    | apply State.railSample_held
    | apply State.bump_held
    | apply State.put_held
    | apply State.raise_held
    | apply State.dipLaps_held
    | apply ite_h)

theorem State.dipRead_held {s : State} {rail : Nat} {quiet : Bool} {mv : Nat} {mx : List Instr × Mem} (hh : s.held = mx) : (State.dipRead s rail quiet mv).held = mx := by
  unfold State.dipRead
  with_reducible repeat' (first
    | (intro _)
    | (extract_lets +onlyGivenNames tv; first | (refine (fun ht : State.held tv = mx => ?_) ?_; clear_value tv; rotate_left; subst tv; rotate_right) | (have hu := tv; clear hu))
    | assumption
    | rfl
    | apply State.setAnswer_held
    | apply State.puts_held
    | apply ite_h)

theorem execRailDipRead_held {rail : Fin 29} {quiet : Bool} {mv : BitVec 12} {s : State} {mx : List Instr × Mem} (hh : s.held = mx) : ∃ tv, execRailDipRead rail quiet mv s = .next tv ∧ tv.held = mx := by
  unfold execRailDipRead
  with_reducible repeat' (first
    | assumption
    | rfl
    | apply next_h
    | apply State.put_held
    | apply State.dipRead_held)

theorem State.tempEvent_held {s : State} {d : Die} {key : Nat} {limit : Int} {ev : Nat} {mx : List Instr × Mem} (hh : s.held = mx) : (State.tempEvent s d key limit ev).held = mx := by
  unfold State.tempEvent
  with_reducible repeat' (first
    | (intro _)
    | (extract_lets +onlyGivenNames tv; have hu := tv; clear hu)
    | assumption
    | rfl
    | apply State.setClk_held
    | apply State.raise_held
    | apply ite_h)

theorem execTemperatureSample_held {die : Die} {sensor : Fin 8} {reading : BitVec 16} {s : State} {mx : List Instr × Mem} (hh : s.held = mx) : ∃ tv, execTemperatureSample die sensor reading s = .next tv ∧ tv.held = mx := by
  unfold execTemperatureSample
  with_reducible repeat' (first
    | (intro _)
    | (extract_lets +onlyGivenNames tv; first | (refine (fun ht : State.held tv = mx => ?_) ?_; clear_value tv; rotate_left; subst tv; rotate_right) | (have hu := tv; clear hu))
    | assumption
    | rfl
    | apply next_h
    | apply State.put_held
    | apply State.tempEvent_held
    | apply ite_h)

theorem State.edgeLimit_held {s : State} {edge : Nat} {diff : Nat} {up : Nat} {down : Nat} {f : Fld} {ev : Nat} {mx : List Instr × Mem} (hh : s.held = mx) : (State.edgeLimit s edge diff up down f ev).held = mx := by
  unfold State.edgeLimit
  with_reducible repeat' (first
    | (intro _)
    | (extract_lets +onlyGivenNames tv; have hu := tv; clear hu)
    | assumption
    | rfl
    | apply State.put_held
    | apply State.raise_held
    | apply ite_h)

theorem State.edgeTemp_held {s : State} {edge : Nat} {mx : List Instr × Mem} (hh : s.held = mx) : (State.edgeTemp s edge).held = mx := by
  unfold State.edgeTemp
  with_reducible repeat' (first
    | (intro _)
    | (extract_lets +onlyGivenNames tv; first | (refine (fun ht : State.held tv = mx => ?_) ?_; clear_value tv; rotate_left; subst tv; rotate_right) | (have hu := tv; clear hu))
    | assumption
    | rfl
    | apply State.put_held
    | apply State.edgeLimit_held
    | apply ite_h)

theorem execEdgeTemperatureCheck_held {s : State} {mx : List Instr × Mem} (hh : s.held = mx) : ∃ tv, execEdgeTemperatureCheck s = .next tv ∧ tv.held = mx := by
  unfold execEdgeTemperatureCheck
  with_reducible repeat' (first
    | (intro _)
    | assumption
    | rfl
    | apply next_h
    | apply State.edgeTemp_held
    | apply foldl_h)

end Sys2Proof.Machine
end

