-- ==== Sys2Proof/Laws/HeldUnits.lean ====
section
/-! SUPPORT. For each operation of Machine/Units.lean: the queue and the memory it keeps (`_held`), or, where it stores, that the queue stays and the memory keeps its canonical form (`_ok`). -/

namespace Sys2Proof.Machine
open Sys2Proof
set_option linter.tactic.unusedName false

theorem State.levelSync_held {s : State} {d : Die} {mx : List Instr × Mem} (hh : s.held = mx) : (State.levelSync s d).held = mx := by
  unfold State.levelSync
  with_reducible repeat' (first
    | (intro _)
    | (extract_lets +onlyGivenNames tv; first | (refine (fun ht : State.held tv = mx => ?_) ?_; clear_value tv; rotate_left; subst tv; rotate_right) | (have hu := tv; clear hu))
    | assumption
    | rfl
    | apply State.put_held
    | apply State.setUnits_held
    | apply State.raise_held
    | apply State.avsWrite_held
    | apply ite_h
    | split
    | (clear_value *; split))

theorem State.levelsSync_held {s : State} {mx : List Instr × Mem} (hh : s.held = mx) : (State.levelsSync s).held = mx := by
  unfold State.levelsSync
  with_reducible repeat' (first
    | (intro _)
    | assumption
    | rfl
    | apply State.levelSync_held
    | apply foldl_h)

theorem State.levelBack_held {s : State} {d : Die} {mx : List Instr × Mem} (hh : s.held = mx) : (State.levelBack s d).held = mx := by
  unfold State.levelBack
  with_reducible repeat' (first
    | (intro _)
    | (extract_lets +onlyGivenNames tv; have hu := tv; clear hu)
    | assumption
    | rfl
    | apply State.avsWrite_held
    | apply ite_h)

theorem State.nomSync_held {s : State} {d : Die} {mx : List Instr × Mem} (hh : s.held = mx) : (State.nomSync s d).held = mx := by
  unfold State.nomSync
  with_reducible repeat' (first
    | (intro _)
    | assumption
    | rfl
    | apply State.put_held
    | apply ite_h)

theorem State.slotArmed_held {s : State} {d : Die} {slot : Nat} {mx : List Instr × Mem} (hh : s.held = mx) : (State.slotArmed s d slot).held = mx := by
  unfold State.slotArmed
  with_reducible repeat' (first
    | (intro _)
    | (extract_lets +onlyGivenNames tv; first | (refine (fun ht : State.held tv = mx => ?_) ?_; clear_value tv; rotate_left; subst tv; rotate_right) | (refine (fun ht : State.held (Prod.fst tv) = mx => ?_) ?_; clear_value tv; rotate_left; subst tv; rotate_right) | (have hu := tv; clear hu))
    | assumption
    | rfl
    | apply State.setUnits_held
    | apply State.put_held
    | refine State.schedReady_heldp ‹_› ?_
    | apply State.schedReady_held
    | apply State.levelsSync_held
    | apply ite_h
    | apply foldl_h
    | apply ite1_h
    | apply fold1_h
    | split
    | (clear_value *; split))

theorem State.disarm_held {s : State} {d : Die} {slot : Nat} {mx : List Instr × Mem} (hh : s.held = mx) : (State.disarm s d slot).held = mx := by
  unfold State.disarm
  with_reducible repeat' (first
    | (intro _)
    | (extract_lets +onlyGivenNames tv; first | (refine (fun ht : State.held tv = mx => ?_) ?_; clear_value tv; rotate_left; subst tv; rotate_right) | (have hu := tv; clear hu))
    | assumption
    | rfl
    | apply State.clrBit_held
    | apply State.levelBack_held
    | apply State.levelsSync_held
    | apply ite_h)

theorem State.unitArm_held {s : State} {d : Die} {v : Nat} {mx : List Instr × Mem} (hh : s.held = mx) : (State.unitArm s d v).held = mx := by
  unfold State.unitArm
  with_reducible repeat' (first
    | (intro _)
    | (extract_lets +onlyGivenNames tv; first | (refine (fun ht : State.held tv = mx => ?_) ?_; clear_value tv; rotate_left; subst tv; rotate_right) | (have hu := tv; clear hu))
    | assumption
    | rfl
    | apply State.disarm_held
    | apply State.put_held
    | apply State.slotArmed_held
    | apply ite_h
    | apply foldl_h)

theorem execUnitArm_held {die : Die} {arm : BitVec 16} {s : State} {mx : List Instr × Mem} (hh : s.held = mx) : ∃ tv, execUnitArm die arm s = .next tv ∧ tv.held = mx := by
  unfold execUnitArm
  with_reducible repeat' (first
    | assumption
    | rfl
    | apply next_h
    | apply State.unitArm_held)

theorem State.pendWrite_held {s : State} {d : Die} {slot : Nat} {a : At} {r : Reg} {v : Word} {mx : List Instr × Mem} (hh : s.held = mx) : (State.pendWrite s d slot a r v).held = mx := by
  unfold State.pendWrite
  with_reducible repeat' (first
    | (intro _)
    | assumption
    | rfl
    | apply State.writeReg_held
    | apply State.disarm_held
    | apply ite_h)

theorem execPendingSettingWrite_held {place : PendAt} {value : Word} {s : State} {mx : List Instr × Mem} (hh : s.held = mx) : ∃ tv, execPendingSettingWrite place value s = .next tv ∧ tv.held = mx := by
  unfold execPendingSettingWrite
  with_reducible repeat' (first
    | assumption
    | rfl
    | apply next_h
    | apply State.pendWrite_held
    | split)

theorem State.ptpLock_held {s : State} {on : Bool} {mx : List Instr × Mem} (hh : s.held = mx) : (State.ptpLock s on).held = mx := by
  unfold State.ptpLock
  with_reducible repeat' (first
    | (intro _)
    | (extract_lets +onlyGivenNames tv; first | (refine (fun ht : State.held tv = mx => ?_) ?_; clear_value tv; rotate_left; subst tv; rotate_right) | (have hu := tv; clear hu))
    | assumption
    | rfl
    | apply State.put_held
    | apply State.setUnits_held
    | apply ite_h)

theorem execPtpLockRequest_held {lock : Bool} {s : State} {mx : List Instr × Mem} (hh : s.held = mx) : ∃ tv, execPtpLockRequest lock s = .next tv ∧ tv.held = mx := by
  unfold execPtpLockRequest
  with_reducible repeat' (first
    | assumption
    | rfl
    | apply next_h
    | apply State.ptpLock_held)

theorem State.changeGo_held {s : State} {mx : List Instr × Mem} (hh : s.held = mx) : (State.changeGo s).held = mx := by
  unfold State.changeGo
  with_reducible repeat' (first
    | (intro _)
    | assumption
    | rfl
    | apply State.puts_held
    | apply State.put_held
    | apply ite_h)

theorem execChangeGo_held {s : State} {mx : List Instr × Mem} (hh : s.held = mx) : ∃ tv, execChangeGo s = .next tv ∧ tv.held = mx := by
  unfold execChangeGo
  with_reducible repeat' (first
    | assumption
    | rfl
    | apply next_h
    | apply State.changeGo_held)

theorem State.changeOff_held {s : State} {result : Nat} {mx : List Instr × Mem} (hh : s.held = mx) : (State.changeOff s result).held = mx := by
  unfold State.changeOff
  with_reducible repeat' (first
    | (intro _)
    | (extract_lets +onlyGivenNames tv; first | (refine (fun ht : State.held tv = mx => ?_) ?_; clear_value tv; rotate_left; subst tv; rotate_right) | (have hu := tv; clear hu))
    | assumption
    | rfl
    | apply State.disarm_held
    | apply State.puts_held
    | apply foldl_h)

theorem State.changeCancel_held {s : State} {mx : List Instr × Mem} (hh : s.held = mx) : (State.changeCancel s).held = mx := by
  unfold State.changeCancel
  with_reducible repeat' (first
    | (intro _)
    | assumption
    | rfl
    | apply State.changeOff_held
    | apply State.setUnits_held
    | apply ite_h)

theorem execChangeCancel_held {s : State} {mx : List Instr × Mem} (hh : s.held = mx) : ∃ tv, execChangeCancel s = .next tv ∧ tv.held = mx := by
  unfold execChangeCancel
  with_reducible repeat' (first
    | assumption
    | rfl
    | apply next_h
    | apply State.changeCancel_held)

theorem State.changeCtrl_held {s : State} {v : Word} {mx : List Instr × Mem} (hh : s.held = mx) : (State.changeCtrl s v).held = mx := by
  unfold State.changeCtrl
  with_reducible repeat' (first
    | (intro _)
    | (extract_lets +onlyGivenNames tv; first | (refine (fun ht : State.held tv = mx => ?_) ?_; clear_value tv; rotate_left; subst tv; rotate_right) | (have hu := tv; clear hu))
    | assumption
    | rfl
    | apply State.writeReg_held
    | apply State.changeGo_held
    | apply State.changeCancel_held
    | apply ite_h)

theorem State.retune_held {s : State} {d : Die} {mx : List Instr × Mem} (hh : s.held = mx) : (State.retune s d).held = mx := by
  unfold State.retune
  with_reducible repeat' (first
    | (intro _)
    | assumption
    | rfl
    | apply State.setPll_held
    | apply ite_h
    | apply foldl_h)

theorem State.levelPut_ok {s : State} {d : Die} {level : Nat} {st : Nat} {mx : List Instr × Mem} (hh : State.Ok mx s) : State.Ok mx (State.levelPut s d level st) := by
  unfold State.levelPut
  with_reducible repeat' (first
    | (intro _)
    | (extract_lets +onlyGivenNames tv; first | (refine (fun ht : State.Ok mx tv => ?_) ?_; clear_value tv; rotate_left; subst tv; rotate_right) | (have hu := tv; clear hu))
    | assumption
    | exact ok_rfl
    | refine ok_of (State.put_held rfl) ?_
    | refine ok_of (State.nomSync_held rfl) ?_
    | refine ok_of (State.retune_held rfl) ?_
    | apply State.gatesSync_ok
    | refine ok_of (State.raise_held rfl) ?_
    | apply ite_ok)

theorem State.levelApply_ok {s : State} {d : Die} {mx : List Instr × Mem} (hh : State.Ok mx s) : State.Ok mx (State.levelApply s d) := by
  unfold State.levelApply
  with_reducible repeat' (first
    | (extract_lets +onlyGivenNames tv; first | (refine (fun ht : State.Ok mx tv => ?_) ?_; clear_value tv; rotate_left; subst tv; rotate_right) | (have hu := tv; clear hu))
    | assumption
    | exact ok_rfl
    | refine ok_of (State.setUnits_held rfl) ?_
    | apply State.levelPut_ok)

theorem State.levelDone_held {s : State} {d : Die} {mx : List Instr × Mem} (hh : s.held = mx) : (State.levelDone s d).held = mx := by
  unfold State.levelDone
  with_reducible repeat' (first
    | (intro _)
    | (extract_lets +onlyGivenNames tv; first | (refine (fun ht : State.held tv = mx => ?_) ?_; clear_value tv; rotate_left; subst tv; rotate_right) | (have hu := tv; clear hu))
    | assumption
    | rfl
    | apply State.setPll_held
    | apply State.levelBack_held
    | apply ite_h
    | apply foldl_h)

theorem State.timingPut_held {s : State} {v : Word} {mx : List Instr × Mem} (hh : s.held = mx) : (State.timingPut s v).held = mx := by
  unfold State.timingPut
  with_reducible repeat' (first
    | (intro _)
    | assumption
    | rfl
    | apply State.setReg_held
    | apply foldl_h)

theorem State.timingApply_held {s : State} {mx : List Instr × Mem} (hh : s.held = mx) : (State.timingApply s).held = mx := by
  unfold State.timingApply
  with_reducible repeat' (first
    | assumption
    | rfl
    | apply State.setUnits_held
    | apply State.timingPut_held)

theorem State.quadCommit_held {s : State} {d : Die} {q : Nat} {mx : List Instr × Mem} (hh : s.held = mx) : (State.quadCommit s d q).held = mx := by
  unfold State.quadCommit
  with_reducible repeat' (first
    | (intro _)
    | (extract_lets +onlyGivenNames tv; have hu := tv; clear hu)
    | assumption
    | rfl
    | apply State.quadApply_held
    | apply State.setUnits_held)

theorem State.unitDone_held {s : State} {u : Nat} {mx : List Instr × Mem} (hh : s.held = mx) : (State.unitDone s u).held = mx := by
  unfold State.unitDone
  with_reducible repeat' (first
    | (intro _)
    | (extract_lets +onlyGivenNames tv; first | (refine (fun ht : State.held tv = mx => ?_) ?_; clear_value tv; rotate_left; subst tv; rotate_right) | (have hu := tv; clear hu))
    | assumption
    | rfl
    | apply State.setUnits_held
    | apply State.setBit_held
    | apply State.levelDone_held
    | apply State.quadLocked_held
    | apply ite_h)

theorem State.unitFails_ok {s : State} {u : Nat} {mx : List Instr × Mem} (hh : State.Ok mx s) : State.Ok mx (State.unitFails s u) := by
  unfold State.unitFails
  with_reducible repeat' (first
    | (intro _)
    | (extract_lets +onlyGivenNames tv; first | (refine (fun ht : State.Ok mx tv => ?_) ?_; clear_value tv; rotate_left; subst tv; rotate_right) | (have hu := tv; clear hu))
    | assumption
    | exact ok_rfl
    | refine ok_of (State.setUnits_held rfl) ?_
    | apply State.levelPut_ok
    | refine ok_of (State.levelBack_held rfl) ?_
    | refine ok_of (State.timingPut_held rfl) ?_
    | refine ok_of (State.quadRevert_held rfl) ?_
    | apply ite_ok)

theorem execUnitApplyReport_ok {die : Die} {slot : Fin 16} {ok : Bool} {s : State} {mx : List Instr × Mem} (hh : State.Ok mx s) : ∃ tv, execUnitApplyReport die slot ok s = .next tv ∧ State.Ok mx tv := by
  unfold execUnitApplyReport
  with_reducible repeat' (first
    | (intro _)
    | assumption
    | exact ok_rfl
    | apply next_ok
    | refine ok_of (State.unitDone_held rfl) ?_
    | apply State.unitFails_ok
    | apply ite_ok)

theorem execLanePllLock_held {die : PDie} {quad : Fin 12} {lanes : BitVec 4} {s : State} {mx : List Instr × Mem} (hh : s.held = mx) : ∃ tv, execLanePllLock die quad lanes s = .next tv ∧ tv.held = mx := by
  unfold execLanePllLock
  with_reducible repeat' (first
    | (intro _)
    | (extract_lets +onlyGivenNames tv; first | (refine (fun ht : State.held tv = mx => ?_) ?_; clear_value tv; rotate_left; subst tv; rotate_right) | (have hu := tv; clear hu))
    | assumption
    | rfl
    | apply next_h
    | apply State.setUnits_held
    | apply State.unitDone_held
    | apply ite_h)

end Sys2Proof.Machine
end

