-- ==== Sys2Proof/Laws/HeldLoads.lean ====
section
/-! SUPPORT. For each operation of Machine/Loads.lean: the queue and the memory it keeps (`_held`), or, where it stores, that the queue stays and the memory keeps its canonical form (`_ok`). -/

namespace Sys2Proof.Machine
open Sys2Proof
set_option linter.tactic.unusedName false

theorem State.onCfg_held {s : State} {f : CfgMaster → CfgMaster} {mx : List Instr × Mem} (hh : s.held = mx) : (State.onCfg s f).held = mx := by
  unfold State.onCfg
  with_reducible repeat' (first
    | assumption
    | rfl
    | apply State.setCfg_held)

theorem State.phase_held {s : State} {p : LoadPhase} {mx : List Instr × Mem} (hh : s.held = mx) : (State.phase s p).held = mx := by
  unfold State.phase
  with_reducible repeat' (first
    | (intro _)
    | assumption
    | rfl
    | apply State.onCfg_held)

theorem State.cfgStage_held {s : State} {n : Nat} {mx : List Instr × Mem} (hh : s.held = mx) : (State.cfgStage s n).held = mx := by
  unfold State.cfgStage
  with_reducible repeat' (first
    | assumption
    | rfl
    | apply State.put_held)

theorem State.cfgEnd_held {s : State} {code : Nat} {stage : Nat} {mx : List Instr × Mem} (hh : s.held = mx) : (State.cfgEnd s code stage).held = mx := by
  unfold State.cfgEnd
  with_reducible repeat' (first
    | assumption
    | rfl
    | apply State.puts_held)

theorem State.owedAnswer_held {s : State} {mx : List Instr × Mem} (hh : s.held = mx) : (State.owedAnswer s).held = mx := by
  unfold State.owedAnswer
  with_reducible repeat' (first
    | (intro _)
    | assumption
    | rfl
    | apply State.respond_held
    | apply State.onCfg_held
    | apply ite_h
    | apply foldl_h
    | apply ite1_h
    | apply fold1_h
    | split
    | (clear_value *; split))

theorem State.streamShut_held {s : State} {mx : List Instr × Mem} (hh : s.held = mx) : (State.streamShut s).held = mx := by
  unfold State.streamShut
  with_reducible repeat' (first
    | (intro _)
    | assumption
    | rfl
    | apply State.onCfg_held)

theorem State.setLoadSt_held {s : State} {n : Nat} {mx : List Instr × Mem} (hh : s.held = mx) : (State.setLoadSt s n).held = mx := by
  unfold State.setLoadSt
  with_reducible repeat' (first
    | assumption
    | rfl
    | apply State.put_held)

theorem State.banksDefault_held {s : State} {mx : List Instr × Mem} (hh : s.held = mx) : (State.banksDefault s).held = mx := by
  unfold State.banksDefault
  with_reducible repeat' (first
    | (intro _)
    | assumption
    | rfl
    | apply State.put_held
    | apply foldl_h)

theorem State.banksImage_held {s : State} {mx : List Instr × Mem} (hh : s.held = mx) : (State.banksImage s).held = mx := by
  unfold State.banksImage
  with_reducible repeat' (first
    | (intro _)
    | (extract_lets +onlyGivenNames tv; have hu := tv; clear hu)
    | assumption
    | rfl
    | apply State.put_held
    | apply foldl_h)

theorem State.pinsHeld_held {s : State} {mx : List Instr × Mem} (hh : s.held = mx) : (State.pinsHeld s).held = mx := by
  unfold State.pinsHeld
  with_reducible repeat' (first
    | assumption
    | rfl
    | apply State.setPins_held)

theorem State.parcelsAll_held {s : State} {st : Nat} {mx : List Instr × Mem} (hh : s.held = mx) : (State.parcelsAll s st).held = mx := by
  unfold State.parcelsAll
  with_reducible repeat' (first
    | (intro _)
    | (extract_lets +onlyGivenNames tv; first | (refine (fun ht : State.held tv = mx => ?_) ?_; clear_value tv; rotate_left; subst tv; rotate_right) | (have hu := tv; clear hu))
    | assumption
    | rfl
    | apply State.setPrcStep_held
    | apply State.setPrcBlank_held
    | apply State.setPrcHold_held
    | apply State.setParcelSt_held
    | apply State.setFence_held
    | apply State.clrBit_held
    | apply foldl_h)

theorem State.gsrAll_held {s : State} {mx : List Instr × Mem} (hh : s.held = mx) : (State.gsrAll s).held = mx := by
  unfold State.gsrAll
  with_reducible repeat' (first
    | (intro _)
    | (extract_lets +onlyGivenNames tv; first | (refine (fun ht : State.held tv = mx => ?_) ?_; clear_value tv; rotate_left; subst tv; rotate_right) | (refine (fun ht : State.held (Prod.fst tv) = mx => ?_) ?_; clear_value tv; rotate_left; subst tv; rotate_right) | (have hu := tv; clear hu))
    | assumption
    | rfl
    | apply State.setFfs_held
    | apply State.setRelStage_held
    | apply State.setBramPorts_held
    | apply State.setMults_held
    | apply State.setRailKeep_held
    | apply State.setPortTags_held
    | apply State.setPortFifo_held
    | apply State.gatesLow_held
    | apply State.freeTags_held
    | apply ite_h
    | apply foldl_h
    | apply ite1_h
    | apply fold1_h
    | split
    | (clear_value *; split))

theorem State.loadDomains_held {s : State} {mx : List Instr × Mem} (hh : s.held = mx) : (State.loadDomains s).held = mx := by
  unfold State.loadDomains
  with_reducible repeat' (first
    | (intro _)
    | assumption
    | rfl
    | apply State.resetDomain_held)

theorem State.noImage_held {s : State} {mx : List Instr × Mem} (hh : s.held = mx) : (State.noImage s).held = mx := by
  unfold State.noImage
  with_reducible repeat' (first
    | (intro _)
    | (extract_lets +onlyGivenNames tv; first | (refine (fun ht : State.held tv = mx => ?_) ?_; clear_value tv; rotate_left; subst tv; rotate_right) | (have hu := tv; clear hu))
    | assumption
    | rfl
    | apply State.puts_held
    | apply State.onCfg_held
    | apply foldl_h)

theorem State.coresReset_held {s : State} {mx : List Instr × Mem} (hh : s.held = mx) : (State.coresReset s).held = mx := by
  unfold State.coresReset
  with_reducible repeat' (first
    | (intro _)
    | assumption
    | rfl
    | apply State.coresStart_held
    | apply foldl_h)

theorem State.loadQuiet_ok {s : State} {mx : List Instr × Mem} (hh : State.Ok mx s) : State.Ok mx (State.loadQuiet s) := by
  unfold State.loadQuiet
  with_reducible repeat' (first
    | (intro _)
    | (extract_lets +onlyGivenNames tv; first | (refine (fun ht : State.Ok mx tv => ?_) ?_; clear_value tv; rotate_left; subst tv; rotate_right) | (refine (fun ht : State.Ok mx (Prod.fst tv) => ?_) ?_; clear_value tv; rotate_left; subst tv; rotate_right) | (have hu := tv; clear hu))
    | assumption
    | exact ok_rfl
    | refine ok_of (State.setDcache_held rfl) ?_
    | refine ok_of (State.setDir_held rfl) ?_
    | refine ok_of (State.setHomeTxn_held rfl) ?_
    | refine ok_of (State.setNet_held rfl) ?_
    | refine ok_of (State.setDcWait_held rfl) ?_
    | refine ok_of (State.setDcRights_held rfl) ?_
    | refine ok_of (State.put_held rfl) ?_
    | refine ok_of (State.lanesIdle_held rfl) ?_
    | apply State.cxlLoss_ok
    | apply State.ddrSleep_ok
    | refine ok_of (State.pcieDown_held rfl) ?_
    | refine ok_of (State.pktEmpty_held rfl) ?_
    | apply ite_ok
    | apply foldl_ok
    | apply ite1_ok
    | apply fold1_ok
    | split
    | (clear_value *; split))

theorem State.loadBegin_ok {s : State} {mx : List Instr × Mem} (hh : State.Ok mx s) : State.Ok mx (State.loadBegin s) := by
  unfold State.loadBegin
  with_reducible repeat' (first
    | (intro _)
    | (extract_lets +onlyGivenNames tv; first | (refine (fun ht : State.Ok mx tv => ?_) ?_; clear_value tv; rotate_left; subst tv; rotate_right) | (refine (fun ht : State.Ok mx (Prod.fst tv) => ?_) ?_; clear_value tv; rotate_left; subst tv; rotate_right) | (have hu := tv; clear hu))
    | assumption
    | exact ok_rfl
    | refine ok_of (State.setReleases_held rfl) ?_
    | refine ok_of (State.repairDrop_held rfl) ?_
    | refine ok_of (State.scrubStop_held rfl) ?_
    | refine ok_of (State.onCfg_held rfl) ?_
    | refine ok_of (State.pinsHeld_held rfl) ?_
    | refine ok_of (State.parcelsAll_held rfl) ?_
    | refine ok_of (State.gsrAll_held rfl) ?_
    | refine ok_of (State.loadDomains_held rfl) ?_
    | refine ok_of (State.noImage_held rfl) ?_
    | refine ok_of (State.coresReset_held rfl) ?_
    | apply State.loadQuiet_ok
    | apply ite_ok
    | apply foldl_ok
    | apply ite1_ok
    | apply fold1_ok
    | split
    | (clear_value *; split))

theorem State.partialOver_held {s : State} {result : Nat} {mx : List Instr × Mem} (hh : s.held = mx) : (State.partialOver s result).held = mx := by
  unfold State.partialOver
  with_reducible repeat' (first
    | (intro _)
    | (extract_lets +onlyGivenNames tv; first | (refine (fun ht : State.held tv = mx => ?_) ?_; clear_value tv; rotate_left; subst tv; rotate_right) | (have hu := tv; clear hu))
    | assumption
    | rfl
    | apply State.puts_held
    | apply State.raise_held
    | apply State.scrubResume_held
    | apply State.onCfg_held)

theorem State.refusalState_ok {s : State} {mx : List Instr × Mem} (hh : State.Ok mx s) : State.Ok mx (State.refusalState s) := by
  unfold State.refusalState
  with_reducible repeat' (first
    | (intro _)
    | (extract_lets +onlyGivenNames tv; first | (refine (fun ht : State.Ok mx tv => ?_) ?_; clear_value tv; rotate_left; subst tv; rotate_right) | (have hu := tv; clear hu))
    | assumption
    | exact ok_rfl
    | apply State.loadBegin_ok
    | refine ok_of (State.cfgStage_held rfl) ?_
    | refine ok_of (State.setPins_held rfl) ?_
    | refine ok_of (State.setXTable_held rfl) ?_
    | refine ok_of (State.parcelsAll_held rfl) ?_
    | refine ok_of (State.banksDefault_held rfl) ?_
    | refine ok_of (State.phase_held rfl) ?_
    | apply ite_ok
    | apply foldl_ok)

theorem State.powerDrop_held {s : State} {d : FDie} {p : Fin 16} {mx : List Instr × Mem} (hh : s.held = mx) : (State.powerDrop s d p).held = mx := by
  unfold State.powerDrop
  with_reducible repeat' (first
    | (intro _)
    | (extract_lets +onlyGivenNames tv; first | (refine (fun ht : State.held tv = mx => ?_) ?_; clear_value tv; rotate_left; subst tv; rotate_right) | (refine (fun ht : State.held (Prod.fst tv) = mx => ?_) ?_; clear_value tv; rotate_left; subst tv; rotate_right) | (have hu := tv; clear hu))
    | assumption
    | rfl
    | apply State.setReleases_held
    | apply State.setPowerStep_held
    | apply ite_h
    | apply foldl_h
    | apply ite1_h
    | apply fold1_h
    | split
    | (clear_value *; split))

theorem State.blankShut_held {s : State} {d : Die} {p : Nat} {mx : List Instr × Mem} (hh : s.held = mx) : (State.blankShut s d p).held = mx := by
  unfold State.blankShut
  with_reducible repeat' (first
    | (intro _)
    | assumption
    | rfl
    | apply State.parcelShut_held
    | apply State.phase_held
    | apply ite_h
    | apply foldl_h
    | apply ite1_h
    | apply fold1_h
    | split
    | (clear_value *; split))

theorem State.blankStart_ok {s : State} {code : Nat} {mx : List Instr × Mem} (hh : State.Ok mx s) : State.Ok mx (State.blankStart s code) := by
  unfold State.blankStart
  with_reducible repeat' (first
    | (intro _)
    | (extract_lets +onlyGivenNames tv; first | (refine (fun ht : State.Ok mx tv => ?_) ?_; clear_value tv; rotate_left; subst tv; rotate_right) | (refine (fun ht : State.Ok mx (Prod.fst tv) => ?_) ?_; clear_value tv; rotate_left; subst tv; rotate_right) | (have hu := tv; clear hu))
    | assumption
    | exact ok_rfl
    | refine ok_of (State.setPrcBlank_held rfl) ?_
    | refine ok_of (State.setPrcHold_held rfl) ?_
    | refine ok_of (State.setParcelSt_held rfl) ?_
    | refine ok_of (State.setPowerStep_held rfl) ?_
    | refine ok_of (State.setLoadSt_held rfl) ?_
    | apply State.fenceRaise_ok
    | refine ok_of (State.captureDrop_held rfl) ?_
    | refine ok_of (State.scrubPause_held rfl) ?_
    | refine ok_of (State.onCfg_held rfl) ?_
    | refine ok_of (State.owedAnswer_held rfl) ?_
    | refine ok_of (State.streamShut_held rfl) ?_
    | refine ok_of (State.powerDrop_held rfl) ?_
    | refine ok_of (State.blankShut_held rfl) ?_
    | apply ite_ok
    | apply foldl_ok
    | apply ite1_ok
    | apply fold1_ok
    | split
    | (clear_value *; split))

theorem State.refuse_ok {s : State} {code : Nat} {slot : Nat} {addr : Nat} {force : Bool} {mx : List Instr × Mem} (hh : State.Ok mx s) : State.Ok mx (State.refuse s code slot addr force) := by
  unfold State.refuse
  with_reducible repeat' (first
    | (intro _)
    | (extract_lets +onlyGivenNames tv; first | (refine (fun ht : State.Ok mx tv => ?_) ?_; clear_value tv; rotate_left; subst tv; rotate_right) | (refine (fun ht : State.Ok mx (Prod.fst tv) => ?_) ?_; clear_value tv; rotate_left; subst tv; rotate_right) | (have hu := tv; clear hu))
    | assumption
    | exact ok_rfl
    | refine ok_of (State.puts_held rfl) ?_
    | refine ok_of (State.raise_held rfl) ?_
    | refine ok_of (State.scrubsMeet_held rfl) ?_
    | refine ok_of (State.onCfg_held rfl) ?_
    | refine ok_of (State.phase_held rfl) ?_
    | refine ok_of (State.cfgEnd_held rfl) ?_
    | refine ok_of (State.owedAnswer_held rfl) ?_
    | refine ok_of (State.streamShut_held rfl) ?_
    | refine ok_of (State.partialOver_held rfl) ?_
    | apply State.refusalState_ok
    | apply State.blankStart_ok
    | apply ite_ok
    | apply foldl_ok
    | apply ite1_ok
    | apply fold1_ok
    | split
    | (clear_value *; split))

theorem State.loadKill_held {s : State} {mx : List Instr × Mem} (hh : s.held = mx) : (State.loadKill s).held = mx := by
  unfold State.loadKill
  with_reducible repeat' (first
    | (intro _)
    | (extract_lets +onlyGivenNames tv; first | (refine (fun ht : State.held tv = mx => ?_) ?_; clear_value tv; rotate_left; subst tv; rotate_right) | (refine (fun ht : State.held (Prod.fst tv) = mx => ?_) ?_; clear_value tv; rotate_left; subst tv; rotate_right) | (have hu := tv; clear hu))
    | assumption
    | rfl
    | apply State.setReleases_held
    | apply State.setLoadSt_held
    | apply State.put_held
    | apply State.scrubResume_held
    | apply State.onCfg_held
    | apply State.owedAnswer_held
    | apply State.streamShut_held
    | apply ite_h
    | apply foldl_h
    | apply ite1_h
    | apply fold1_h
    | split
    | (clear_value *; split))

theorem State.loadOpen_held {s : State} {stage : Nat} {mx : List Instr × Mem} (hh : s.held = mx) : (State.loadOpen s stage).held = mx := by
  unfold State.loadOpen
  with_reducible repeat' (first
    | (intro _)
    | (extract_lets +onlyGivenNames tv; first | (refine (fun ht : State.held tv = mx => ?_) ?_; clear_value tv; rotate_left; subst tv; rotate_right) | (have hu := tv; clear hu))
    | assumption
    | rfl
    | apply State.puts_held
    | apply State.setPins_held
    | apply State.onCfg_held)

theorem State.prepStart_ok {s : State} {mx : List Instr × Mem} (hh : State.Ok mx s) : State.Ok mx (State.prepStart s) := by
  unfold State.prepStart
  with_reducible repeat' (first
    | (intro _)
    | (extract_lets +onlyGivenNames tv; first | (refine (fun ht : State.Ok mx tv => ?_) ?_; clear_value tv; rotate_left; subst tv; rotate_right) | (refine (fun ht : State.Ok mx (Prod.fst tv) => ?_) ?_; clear_value tv; rotate_left; subst tv; rotate_right) | (have hu := tv; clear hu))
    | assumption
    | exact ok_rfl
    | refine ok_of (State.setPrcHold_held rfl) ?_
    | refine ok_of (State.setParcelSt_held rfl) ?_
    | refine ok_of (State.setPowerStep_held rfl) ?_
    | refine ok_of (State.clrBit_held rfl) ?_
    | apply State.fenceRaise_ok
    | refine ok_of (State.phase_held rfl) ?_
    | refine ok_of (State.powerDrop_held rfl) ?_
    | apply ite_ok
    | apply foldl_ok
    | apply ite1_ok
    | apply fold1_ok
    | split
    | (clear_value *; split))

theorem State.clampsDefault_held {s : State} {mx : List Instr × Mem} (hh : s.held = mx) : (State.clampsDefault s).held = mx := by
  unfold State.clampsDefault
  with_reducible repeat' (first
    | (intro _)
    | (extract_lets +onlyGivenNames tv; first | (refine (fun ht : State.held tv = mx => ?_) ?_; clear_value tv; rotate_left; subst tv; rotate_right) | (refine (fun ht : State.held (Prod.fst tv) = mx => ?_) ?_; clear_value tv; rotate_left; subst tv; rotate_right) | (have hu := tv; clear hu))
    | assumption
    | rfl
    | apply State.setClampDef_held
    | apply ite_h
    | apply foldl_h
    | apply ite1_h
    | apply fold1_h
    | split
    | (clear_value *; split))

theorem State.headerOn_ok {s : State} {mx : List Instr × Mem} (hh : State.Ok mx s) : State.Ok mx (State.headerOn s) := by
  unfold State.headerOn
  with_reducible repeat' (first
    | (intro _)
    | (extract_lets +onlyGivenNames tv; first | (refine (fun ht : State.Ok mx tv => ?_) ?_; clear_value tv; rotate_left; subst tv; rotate_right) | (refine (fun ht : State.Ok mx (Prod.fst tv) => ?_) ?_; clear_value tv; rotate_left; subst tv; rotate_right) | (have hu := tv; clear hu))
    | assumption
    | exact ok_rfl
    | refine ok_of (State.onCfg_held rfl) ?_
    | refine ok_of (State.phase_held rfl) ?_
    | refine ok_of (State.cfgStage_held rfl) ?_
    | apply State.loadBegin_ok
    | apply State.refuse_ok
    | apply State.prepStart_ok
    | refine ok_of (State.clampsDefault_held rfl) ?_
    | apply ite_ok
    | apply foldl_ok
    | apply ite1_ok
    | apply fold1_ok
    | split
    | (clear_value *; split))

theorem State.waitingState_held {s : State} {mx : List Instr × Mem} (hh : s.held = mx) : (State.waitingState s).held = mx := by
  unfold State.waitingState
  with_reducible repeat' (first
    | assumption
    | rfl
    | apply State.parcelsAll_held
    | apply State.cfgEnd_held
    | apply State.banksDefault_held
    | apply State.phase_held)

theorem State.loadTry_ok {s : State} {mx : List Instr × Mem} (hh : State.Ok mx s) : State.Ok mx (State.loadTry s) := by
  unfold State.loadTry
  with_reducible repeat' (first
    | (intro _)
    | (extract_lets +onlyGivenNames tv; first | (refine (fun ht : State.Ok mx tv => ?_) ?_; clear_value tv; rotate_left; subst tv; rotate_right) | (have hu := tv; clear hu))
    | assumption
    | exact ok_rfl
    | refine ok_of (State.phase_held rfl) ?_
    | refine ok_of (State.onCfg_held rfl) ?_
    | apply State.refuse_ok
    | apply State.headerOn_ok
    | refine ok_of (State.waitingState_held rfl) ?_
    | refine ok_of (State.puts_held rfl) ?_
    | apply ite_ok
    | split
    | (clear_value *; split))

theorem State.fullStart_ok {s : State} {source : Nat} {early : Bool} {mx : List Instr × Mem} (hh : State.Ok mx s) : State.Ok mx (State.fullStart s source early) := by
  unfold State.fullStart
  with_reducible repeat' (first
    | (intro _)
    | (extract_lets +onlyGivenNames tv; first | (refine (fun ht : State.Ok mx tv => ?_) ?_; clear_value tv; rotate_left; subst tv; rotate_right) | (refine (fun ht : State.Ok mx (Prod.fst tv) => ?_) ?_; clear_value tv; rotate_left; subst tv; rotate_right) | (have hu := tv; clear hu))
    | assumption
    | exact ok_rfl
    | refine ok_of (State.scrubsMeet_held rfl) ?_
    | refine ok_of (State.onCfg_held rfl) ?_
    | refine ok_of (State.phase_held rfl) ?_
    | apply State.loadBegin_ok
    | refine ok_of (State.loadKill_held rfl) ?_
    | refine ok_of (State.loadOpen_held rfl) ?_
    | apply State.prepStart_ok
    | apply State.loadTry_ok
    | apply ite_ok
    | apply foldl_ok
    | apply ite1_ok
    | apply fold1_ok
    | split
    | (clear_value *; split))

theorem State.tableIn_ok {s : State} {bytes : List Nat} {mx : List Instr × Mem} (hh : State.Ok mx s) : State.Ok mx (State.tableIn s bytes) := by
  unfold State.tableIn
  with_reducible repeat' (first
    | (intro _)
    | (extract_lets +onlyGivenNames tv; first | (refine (fun ht : State.Ok mx tv => ?_) ?_; clear_value tv; rotate_left; subst tv; rotate_right) | (have hu := tv; clear hu))
    | assumption
    | exact ok_rfl
    | refine ok_of (State.onCfg_held rfl) ?_
    | apply State.refuse_ok
    | refine ok_of (State.xCheck_heldp ‹_› rfl) ?_
    | refine ok_of (State.xCheck_held rfl) ?_
    | refine ok_of (State.puts_held rfl) ?_
    | refine ok_of (State.phase_held rfl) ?_
    | refine ok_of (State.cfgStage_held rfl) ?_
    | apply ite_ok)

theorem State.commit_held {s : State} {mx : List Instr × Mem} (hh : s.held = mx) : (State.commit s).held = mx := by
  unfold State.commit
  with_reducible repeat' (first
    | (intro _)
    | (extract_lets +onlyGivenNames tv; first | (refine (fun ht : State.held tv = mx => ?_) ?_; clear_value tv; rotate_left; subst tv; rotate_right) | (refine (fun ht : State.held (Prod.fst tv) = mx => ?_) ?_; clear_value tv; rotate_left; subst tv; rotate_right) | (have hu := tv; clear hu))
    | assumption
    | rfl
    | apply State.setXUsed_held
    | apply State.setXTable_held
    | apply State.setLoadSt_held
    | apply State.put_held
    | apply State.phase_held
    | apply ite_h
    | apply foldl_h
    | apply ite1_h
    | apply fold1_h
    | split
    | (clear_value *; split))

theorem State.framesDone_ok {s : State} {mx : List Instr × Mem} (hh : State.Ok mx s) : State.Ok mx (State.framesDone s) := by
  unfold State.framesDone
  with_reducible repeat' (first
    | (intro _)
    | (extract_lets +onlyGivenNames tv; first | (refine (fun ht : State.Ok mx tv => ?_) ?_; clear_value tv; rotate_left; subst tv; rotate_right) | (refine (fun ht : State.Ok mx (Prod.fst tv) => ?_) ?_; clear_value tv; rotate_left; subst tv; rotate_right) | (have hu := tv; clear hu))
    | assumption
    | exact ok_rfl
    | refine ok_of (State.xPorts_heldp ‹_› rfl) ?_
    | refine ok_of (State.xPorts_held rfl) ?_
    | refine ok_of (State.phase_held rfl) ?_
    | refine ok_of (State.cfgStage_held rfl) ?_
    | refine ok_of (State.streamShut_held rfl) ?_
    | apply State.refuse_ok
    | refine ok_of (State.commit_held rfl) ?_
    | apply ite_ok
    | apply foldl_ok
    | apply ite1_ok
    | apply fold1_ok
    | simp only [id_eq]
    | split
    | (clear_value *; split))

theorem State.frameTaken_ok {s : State} {d : Die} {f : Nat} {p : Packet} {mx : List Instr × Mem} (hh : State.Ok mx s) : State.Ok mx (State.frameTaken s d f p) := by
  unfold State.frameTaken
  with_reducible repeat' (first
    | (intro _)
    | (extract_lets +onlyGivenNames tv; first | (refine (fun ht : State.Ok mx tv => ?_) ?_; clear_value tv; rotate_left; subst tv; rotate_right) | (refine (fun ht : State.Ok mx (Prod.fst tv) => ?_) ?_; clear_value tv; rotate_left; subst tv; rotate_right) | (have hu := tv; clear hu))
    | assumption
    | exact ok_rfl
    | refine ok_of (State.setBramDef_held rfl) ?_
    | refine ok_of (State.setClampDef_held rfl) ?_
    | refine ok_of (State.put_held rfl) ?_
    | apply State.writeFrame_ok
    | refine ok_of (State.onCfg_held rfl) ?_
    | apply ite_ok
    | apply foldl_ok
    | apply ite1_ok
    | apply fold1_ok
    | split
    | (clear_value *; split))

theorem State.packetIn_ok {s : State} {p : Packet} {second : Bool} {mx : List Instr × Mem} (hh : State.Ok mx s) : State.Ok mx (State.packetIn s p second) := by
  unfold State.packetIn
  with_reducible repeat' (first
    | (intro _)
    | (extract_lets +onlyGivenNames tv; first | (refine (fun ht : State.Ok mx tv => ?_) ?_; clear_value tv; rotate_left; subst tv; rotate_right) | (have hu := tv; clear hu))
    | assumption
    | exact ok_rfl
    | apply State.refuse_ok
    | refine ok_of (State.bump_held rfl) ?_
    | apply State.frameTaken_ok
    | apply State.framesDone_ok
    | refine ok_of (State.onCfg_held rfl) ?_
    | apply ite_ok
    | (clear_value *; split))

theorem State.taken_held {s : State} {n : Nat} {mx : List Instr × Mem} (hh : s.held = mx) : (State.taken s n).held = mx := by
  unfold State.taken
  with_reducible repeat' (first
    | (intro _)
    | assumption
    | rfl
    | apply State.onCfg_held)

theorem State.consume_ok {a0 : Nat} {s : State} {mx : List Instr × Mem} (hh : State.Ok mx s) : State.Ok mx (State.consume a0 s) := by
  induction a0 generalizing s with
  | zero =>
    rw [State.consume]
    with_reducible repeat' (first
      | (intro _)
      | (extract_lets +onlyGivenNames tv; first | (refine (fun ht : State.Ok mx tv => ?_) ?_; clear_value tv; rotate_left; subst tv; rotate_right) | (refine (fun ht : State.Ok mx (Prod.fst tv) => ?_) ?_; clear_value tv; rotate_left; subst tv; rotate_right) | (have hu := tv; clear hu))
      | assumption
      | exact ok_rfl
      | apply ih
      | refine ok_of (State.scrubsMeet_held rfl) ?_
      | refine ok_of (State.phase_held rfl) ?_
      | refine ok_of (State.taken_held rfl) ?_
      | refine ok_of (State.onCfg_held rfl) ?_
      | refine ok_of (State.put_held rfl) ?_
      | apply State.headerOn_ok
      | refine ok_of (State.cfgStage_held rfl) ?_
      | apply State.loadTry_ok
      | apply State.tableIn_ok
      | apply State.packetIn_ok
      | apply ite_ok
      | split
      | (clear_value *; split))
  | succ n ih =>
    rw [State.consume]
    with_reducible repeat' (first
      | (intro _)
      | (extract_lets +onlyGivenNames tv; first | (refine (fun ht : State.Ok mx tv => ?_) ?_; clear_value tv; rotate_left; subst tv; rotate_right) | (refine (fun ht : State.Ok mx (Prod.fst tv) => ?_) ?_; clear_value tv; rotate_left; subst tv; rotate_right) | (have hu := tv; clear hu))
      | assumption
      | exact ok_rfl
      | apply ih
      | refine ok_of (State.scrubsMeet_held rfl) ?_
      | refine ok_of (State.phase_held rfl) ?_
      | refine ok_of (State.taken_held rfl) ?_
      | refine ok_of (State.onCfg_held rfl) ?_
      | refine ok_of (State.put_held rfl) ?_
      | apply State.headerOn_ok
      | refine ok_of (State.cfgStage_held rfl) ?_
      | apply State.loadTry_ok
      | apply State.tableIn_ok
      | apply State.packetIn_ok
      | apply ite_ok
      | split
      | (clear_value *; split))

theorem State.streamGo_ok {s : State} {mx : List Instr × Mem} (hh : State.Ok mx s) : State.Ok mx (State.streamGo s) := by
  unfold State.streamGo
  with_reducible repeat' (first
    | (intro _)
    | assumption
    | exact ok_rfl
    | refine ok_of (State.owedAnswer_held rfl) ?_
    | apply State.consume_ok
    | apply ite_ok
    | apply foldl_ok
    | apply ite1_ok
    | apply fold1_ok
    | split
    | (clear_value *; split))

theorem State.loadOn_ok {s : State} {mx : List Instr × Mem} (hh : State.Ok mx s) : State.Ok mx (State.loadOn s) := by
  unfold State.loadOn
  with_reducible repeat' (first
    | (intro _)
    | assumption
    | exact ok_rfl
    | refine ok_of (State.phase_held rfl) ?_
    | apply State.loadTry_ok
    | apply State.streamGo_ok
    | apply ite_ok)

theorem State.partialWrite_ok {s : State} {mx : List Instr × Mem} (hh : State.Ok mx s) : State.Ok mx (State.partialWrite s) := by
  unfold State.partialWrite
  with_reducible repeat' (first
    | (intro _)
    | (extract_lets +onlyGivenNames tv; first | (refine (fun ht : State.Ok mx tv => ?_) ?_; clear_value tv; rotate_left; subst tv; rotate_right) | (refine (fun ht : State.Ok mx (Prod.fst tv) => ?_) ?_; clear_value tv; rotate_left; subst tv; rotate_right) | (have hu := tv; clear hu))
    | assumption
    | exact ok_rfl
    | refine ok_of (State.setPrcBlank_held rfl) ?_
    | refine ok_of (State.setParcelSt_held rfl) ?_
    | refine ok_of (State.setLoadSt_held rfl) ?_
    | refine ok_of (State.clrBit_held rfl) ?_
    | refine ok_of (State.parcelShut_held rfl) ?_
    | refine ok_of (State.captureDrop_held rfl) ?_
    | refine ok_of (State.phase_held rfl) ?_
    | refine ok_of (State.cfgStage_held rfl) ?_
    | apply State.streamGo_ok
    | apply ite_ok
    | apply foldl_ok
    | apply ite1_ok
    | apply fold1_ok
    | split
    | (clear_value *; split))

theorem State.partialFence_ok {s : State} {mx : List Instr × Mem} (hh : State.Ok mx s) : State.Ok mx (State.partialFence s) := by
  unfold State.partialFence
  with_reducible repeat' (first
    | (intro _)
    | (extract_lets +onlyGivenNames tv; first | (refine (fun ht : State.Ok mx tv => ?_) ?_; clear_value tv; rotate_left; subst tv; rotate_right) | (refine (fun ht : State.Ok mx (Prod.fst tv) => ?_) ?_; clear_value tv; rotate_left; subst tv; rotate_right) | (have hu := tv; clear hu))
    | assumption
    | exact ok_rfl
    | refine ok_of (State.setParcelSt_held rfl) ?_
    | refine ok_of (State.setPowerStep_held rfl) ?_
    | apply State.fenceRaise_ok
    | refine ok_of (State.scrubPause_held rfl) ?_
    | refine ok_of (State.repairDrop_held rfl) ?_
    | refine ok_of (State.phase_held rfl) ?_
    | apply State.partialWrite_ok
    | apply ite_ok
    | apply foldl_ok
    | apply ite1_ok
    | apply fold1_ok
    | split
    | (clear_value *; split))

theorem State.fenceClosed_ok {s : State} {f : FenceId} {mx : List Instr × Mem} (hh : State.Ok mx s) : State.Ok mx (State.fenceClosed s f) := by
  unfold State.fenceClosed
  with_reducible repeat' (first
    | (intro _)
    | assumption
    | exact ok_rfl
    | refine ok_of (State.parcelClosed_held rfl) ?_
    | refine ok_of (State.gateShut_held rfl) ?_
    | refine ok_of (State.blankShut_held rfl) ?_
    | apply State.partialWrite_ok
    | apply ite_ok
    | apply foldl_ok
    | apply ite1_ok
    | apply fold1_ok
    | split
    | (clear_value *; split))

theorem execFenceDrained_ok {fence : FenceId} {s : State} {mx : List Instr × Mem} (hh : State.Ok mx s) : ∃ tv, execFenceDrained fence s = .next tv ∧ State.Ok mx tv := by
  unfold execFenceDrained
  with_reducible repeat' (first
    | (intro _)
    | assumption
    | exact ok_rfl
    | apply next_ok
    | refine ok_of (State.setFence_held rfl) ?_
    | apply State.fenceClosed_ok
    | apply ite_ok)

theorem execNocFenceLimit_ok {fence : FenceId} {s : State} {mx : List Instr × Mem} (hh : State.Ok mx s) : ∃ tv, execNocFenceLimit fence s = .next tv ∧ State.Ok mx tv := by
  unfold execNocFenceLimit
  with_reducible repeat' (first
    | (intro _)
    | assumption
    | exact ok_rfl
    | apply next_ok
    | apply State.fenceLimit_ok
    | apply State.fenceClosed_ok
    | apply ite_ok)

theorem execParcelBramCleared_ok {die : FDie} {parcel : Fin 16} {s : State} {mx : List Instr × Mem} (hh : State.Ok mx s) : ∃ tv, execParcelBramCleared die parcel s = .next tv ∧ State.Ok mx tv := by
  unfold execParcelBramCleared
  with_reducible repeat' (first
    | (intro _)
    | (extract_lets +onlyGivenNames tv; first | (refine (fun ht : State.Ok mx tv => ?_) ?_; clear_value tv; rotate_left; subst tv; rotate_right) | (refine (fun ht : State.Ok mx (Prod.fst tv) => ?_) ?_; clear_value tv; rotate_left; subst tv; rotate_right) | (have hu := tv; clear hu))
    | assumption
    | exact ok_rfl
    | apply next_ok
    | refine ok_of (State.setParcelSt_held rfl) ?_
    | refine ok_of (State.setPowerStep_held rfl) ?_
    | refine ok_of (State.clrBit_held rfl) ?_
    | refine ok_of (State.bramZero_held rfl) ?_
    | refine ok_of (State.phase_held rfl) ?_
    | apply State.partialWrite_ok
    | apply ite_ok
    | apply foldl_ok
    | apply ite1_ok
    | apply fold1_ok
    | split
    | (clear_value *; split))

theorem State.loadAbort_ok {s : State} {d : Die} {mx : List Instr × Mem} (hh : State.Ok mx s) : State.Ok mx (State.loadAbort s d) := by
  unfold State.loadAbort
  with_reducible repeat' (first
    | (intro _)
    | assumption
    | exact ok_rfl
    | refine ok_of (State.phase_held rfl) ?_
    | refine ok_of (State.put_held rfl) ?_
    | apply State.blankStart_ok
    | apply ite_ok)

theorem execPartialLoadAbort_ok {die : FDie} {hold : Bool} {s : State} {mx : List Instr × Mem} (hh : State.Ok mx s) : ∃ tv, execPartialLoadAbort die hold s = .next tv ∧ State.Ok mx tv := by
  unfold execPartialLoadAbort
  with_reducible repeat' (first
    | assumption
    | exact ok_rfl
    | apply next_ok
    | refine ok_of (State.put_held rfl) ?_
    | apply State.loadAbort_ok)

theorem State.blankEnd_held {s : State} {mx : List Instr × Mem} (hh : s.held = mx) : (State.blankEnd s).held = mx := by
  unfold State.blankEnd
  with_reducible repeat' (first
    | (intro _)
    | (extract_lets +onlyGivenNames tv; first | (refine (fun ht : State.held tv = mx => ?_) ?_; clear_value tv; rotate_left; subst tv; rotate_right) | (have hu := tv; clear hu))
    | assumption
    | rfl
    | apply State.blankParcel_held
    | apply State.clrBit_held
    | apply State.parcelShut_held
    | apply State.setParcelSt_held
    | apply State.cfgEnd_held
    | apply State.partialOver_held
    | apply State.returnTrained_held
    | apply ite_h
    | apply foldl_h)

theorem execBlankingDone_held {s : State} {mx : List Instr × Mem} (hh : s.held = mx) : ∃ tv, execBlankingDone s = .next tv ∧ tv.held = mx := by
  unfold execBlankingDone
  with_reducible repeat' (first
    | (intro _)
    | assumption
    | rfl
    | apply next_h
    | apply State.blankEnd_held
    | apply ite_h)

theorem execFlashHeaderRead_ok {header : BitVec 2048} {s : State} {mx : List Instr × Mem} (hh : State.Ok mx s) : ∃ tv, execFlashHeaderRead header s = .next tv ∧ State.Ok mx tv := by
  unfold execFlashHeaderRead
  with_reducible repeat' (first
    | (intro _)
    | assumption
    | exact ok_rfl
    | apply next_ok
    | refine ok_of (State.phase_held rfl) ?_
    | refine ok_of (State.onCfg_held rfl) ?_
    | apply State.headerOn_ok
    | apply ite_ok)

theorem execLoadPreparationDone_ok {s : State} {mx : List Instr × Mem} (hh : State.Ok mx s) : ∃ tv, execLoadPreparationDone s = .next tv ∧ State.Ok mx tv := by
  unfold execLoadPreparationDone
  with_reducible repeat' (first
    | (intro _)
    | (extract_lets +onlyGivenNames tv; first | (refine (fun ht : State.Ok mx tv => ?_) ?_; clear_value tv; rotate_left; subst tv; rotate_right) | (have hu := tv; clear hu))
    | assumption
    | exact ok_rfl
    | apply next_ok
    | refine ok_of (State.phase_held rfl) ?_
    | apply State.loadBegin_ok
    | apply State.loadOn_ok
    | refine ok_of (State.cfgStage_held rfl) ?_
    | apply State.streamGo_ok
    | apply ite_ok
    | (clear_value *; split))

theorem execFlashSetupRecord_held {s : State} {mx : List Instr × Mem} (hh : s.held = mx) : ∃ tv, execFlashSetupRecord s = .next tv ∧ tv.held = mx := by
  unfold execFlashSetupRecord
  with_reducible repeat' (first
    | (intro _)
    | assumption
    | rfl
    | apply next_h
    | apply State.phase_held
    | apply State.emit_held
    | apply State.onCfg_held
    | apply ite_h)

theorem execFlashHeaderReread_ok {header : BitVec 2048} {s : State} {mx : List Instr × Mem} (hh : State.Ok mx s) : ∃ tv, execFlashHeaderReread header s = .next tv ∧ State.Ok mx tv := by
  unfold execFlashHeaderReread
  with_reducible repeat' (first
    | (intro _)
    | (extract_lets +onlyGivenNames tv; first | (refine (fun ht : State.Ok mx tv => ?_) ?_; clear_value tv; rotate_left; subst tv; rotate_right) | (have hu := tv; clear hu))
    | assumption
    | exact ok_rfl
    | apply next_ok
    | refine ok_of (State.phase_held rfl) ?_
    | refine ok_of (State.puts_held rfl) ?_
    | refine ok_of (State.cfgStage_held rfl) ?_
    | apply State.refuse_ok
    | apply ite_ok)

theorem execFrameReread_ok {packet : Packet} {s : State} {mx : List Instr × Mem} (hh : State.Ok mx s) : ∃ tv, execFrameReread packet s = .next tv ∧ State.Ok mx tv := by
  unfold execFrameReread
  with_reducible repeat' (first
    | (intro _)
    | (extract_lets +onlyGivenNames tv; first | (refine (fun ht : State.Ok mx tv => ?_) ?_; clear_value tv; rotate_left; subst tv; rotate_right) | (refine (fun ht : State.Ok mx (Prod.fst tv) => ?_) ?_; clear_value tv; rotate_left; subst tv; rotate_right) | (have hu := tv; clear hu))
    | assumption
    | exact ok_rfl
    | apply next_ok
    | refine ok_of (State.phase_held rfl) ?_
    | refine ok_of (State.raise_held rfl) ?_
    | refine ok_of (State.onCfg_held rfl) ?_
    | apply State.packetIn_ok
    | apply ite_ok)

end Sys2Proof.Machine
end

