-- ==== Sys2Proof/Laws/HeldStreams.lean ====
section
/-! SUPPORT. For each operation of Machine/Streams.lean: the queue and the memory it keeps (`_held`), or, where it stores, that the queue stays and the memory keeps its canonical form (`_ok`). -/

namespace Sys2Proof.Machine
open Sys2Proof
set_option linter.tactic.unusedName false

theorem execCfgProgNLow_held {s : State} {mx : List Instr × Mem} (hh : s.held = mx) : ∃ tv, execCfgProgNLow s = .next tv ∧ tv.held = mx := by
  unfold execCfgProgNLow
  with_reducible repeat' (first
    | (intro _)
    | (extract_lets +onlyGivenNames tv; first | (refine (fun ht : State.held tv = mx => ?_) ?_; clear_value tv; rotate_left; subst tv; rotate_right) | (refine (fun ht : State.held (Prod.fst tv) = mx => ?_) ?_; clear_value tv; rotate_left; subst tv; rotate_right) | (have hu := tv; clear hu))
    | assumption
    | rfl
    | apply next_h
    | apply State.repairDrop_held
    | apply State.scrubsMeet_held
    | apply State.onCfg_held
    | apply State.loadKill_held
    | apply ite_h
    | apply foldl_h
    | apply ite1_h
    | apply fold1_h
    | split
    | (clear_value *; split))

theorem execCfgProgNRise_ok {mode : BitVec 3} {pull : Bool} {s : State} {mx : List Instr × Mem} (hh : State.Ok mx s) : ∃ tv, execCfgProgNRise mode pull s = .next tv ∧ State.Ok mx tv := by
  unfold execCfgProgNRise
  with_reducible repeat' (first
    | (intro _)
    | (extract_lets +onlyGivenNames tv; first | (refine (fun ht : State.Ok mx tv => ?_) ?_; clear_value tv; rotate_left; subst tv; rotate_right) | (have hu := tv; clear hu))
    | assumption
    | exact ok_rfl
    | apply next_ok
    | refine ok_of (State.onCfg_held rfl) ?_
    | refine ok_of (State.puts_held rfl) ?_
    | apply State.fullStart_ok
    | apply ite_ok)

theorem State.streamBegin_held {s : State} {mx : List Instr × Mem} (hh : s.held = mx) : (State.streamBegin s).held = mx := by
  unfold State.streamBegin
  with_reducible repeat' (first
    | (intro _)
    | assumption
    | rfl
    | apply State.put_held
    | apply State.onCfg_held
    | apply State.loadOpen_held
    | apply ite_h
    | apply foldl_h
    | apply ite1_h
    | apply fold1_h
    | split
    | (clear_value *; split))

theorem State.cfgCmd_ok {s : State} {op : Nat} {key : Nat} {mx : List Instr × Mem} (hh : State.Ok mx s) : State.Ok mx (State.cfgCmd s op key) := by
  unfold State.cfgCmd
  with_reducible repeat' (first
    | (intro _)
    | assumption
    | exact ok_rfl
    | refine ok_of (State.put_held rfl) ?_
    | apply State.fullStart_ok
    | refine ok_of (State.streamBegin_held rfl) ?_
    | apply ite_ok)

theorem execLoadPrimary_ok {key : BitVec 8} {s : State} {mx : List Instr × Mem} (hh : State.Ok mx s) : ∃ tv, execLoadPrimary key s = .next tv ∧ State.Ok mx tv := by
  unfold execLoadPrimary
  with_reducible repeat' (first
    | assumption
    | exact ok_rfl
    | apply next_ok
    | apply State.cfgCmd_ok)

theorem execLoadFallback_ok {key : BitVec 8} {s : State} {mx : List Instr × Mem} (hh : State.Ok mx s) : ∃ tv, execLoadFallback key s = .next tv ∧ State.Ok mx tv := by
  unfold execLoadFallback
  with_reducible repeat' (first
    | assumption
    | exact ok_rfl
    | apply next_ok
    | apply State.cfgCmd_ok)

theorem execAcceptStream_ok {s : State} {mx : List Instr × Mem} (hh : State.Ok mx s) : ∃ tv, execAcceptStream s = .next tv ∧ State.Ok mx tv := by
  unfold execAcceptStream
  with_reducible repeat' (first
    | assumption
    | exact ok_rfl
    | apply next_ok
    | apply State.cfgCmd_ok)

theorem State.streamDrop_held {s : State} {port : Nat} {place : Nat} {mx : List Instr × Mem} (hh : s.held = mx) : (State.streamDrop s port place).held = mx := by
  unfold State.streamDrop
  with_reducible repeat' (first
    | (intro _)
    | (extract_lets +onlyGivenNames tv; first | (refine (fun ht : State.held tv = mx => ?_) ?_; clear_value tv; rotate_left; subst tv; rotate_right) | (refine (fun ht : State.held (Prod.fst tv) = mx => ?_) ?_; clear_value tv; rotate_left; subst tv; rotate_right) | (have hu := tv; clear hu))
    | assumption
    | rfl
    | apply State.put_held
    | apply State.used_held
    | apply State.raise_held
    | apply ite_h
    | apply foldl_h
    | apply ite1_h
    | apply fold1_h
    | split
    | (clear_value *; split))

theorem State.streamFeed_ok {a0 : Nat} {s : State} {a2 : Nat} {a3 : List Nat} {mx : List Instr × Mem} (hh : State.Ok mx s) : State.Ok mx (State.streamFeed a0 s a2 a3) := by
  induction a0 generalizing s a2 a3 with
  | zero =>
    rw [State.streamFeed]
    with_reducible repeat' (first
      | (intro _)
      | (extract_lets +onlyGivenNames tv; first | (refine (fun ht : State.Ok mx tv => ?_) ?_; clear_value tv; rotate_left; subst tv; rotate_right) | (refine (fun ht : State.Ok mx (Prod.fst tv) => ?_) ?_; clear_value tv; rotate_left; subst tv; rotate_right) | (have hu := tv; clear hu))
      | assumption
      | exact ok_rfl
      | apply ih
      | refine ok_of (State.streamDrop_held rfl) ?_
      | refine ok_of (State.onCfg_held rfl) ?_
      | apply State.streamGo_ok
      | apply ite_ok
      | split
      | (clear_value *; split))
  | succ n ih =>
    rw [State.streamFeed]
    with_reducible repeat' (first
      | (intro _)
      | (extract_lets +onlyGivenNames tv; first | (refine (fun ht : State.Ok mx tv => ?_) ?_; clear_value tv; rotate_left; subst tv; rotate_right) | (refine (fun ht : State.Ok mx (Prod.fst tv) => ?_) ?_; clear_value tv; rotate_left; subst tv; rotate_right) | (have hu := tv; clear hu))
      | assumption
      | exact ok_rfl
      | apply ih
      | refine ok_of (State.streamDrop_held rfl) ?_
      | refine ok_of (State.onCfg_held rfl) ?_
      | apply State.streamGo_ok
      | apply ite_ok
      | split
      | (clear_value *; split))

theorem State.streamIn_ok {s : State} {source : Nat} {port : Nat} {l : List Nat} {mx : List Instr × Mem} (hh : State.Ok mx s) : State.Ok mx (State.streamIn s source port l) := by
  unfold State.streamIn
  with_reducible repeat' (first
    | (intro _)
    | (extract_lets +onlyGivenNames tv; first | (refine (fun ht : State.Ok mx tv => ?_) ?_; clear_value tv; rotate_left; subst tv; rotate_right) | (have hu := tv; clear hu))
    | assumption
    | exact ok_rfl
    | refine ok_of (State.put_held rfl) ?_
    | refine ok_of (State.onCfg_held rfl) ?_
    | apply State.streamFeed_ok
    | apply ite_ok)

theorem State.windowWrite_ok {s : State} {src : WinSrc} {place : Nat} {l : List Nat} {mx : List Instr × Mem} (hh : State.Ok mx s) : State.Ok mx (State.windowWrite s src place l) := by
  unfold State.windowWrite
  with_reducible repeat' (first
    | (intro _)
    | assumption
    | exact ok_rfl
    | refine ok_of (State.streamDrop_held rfl) ?_
    | apply State.refuse_ok
    | apply State.streamIn_ok
    | apply ite_ok
    | split)

theorem execImageWindowWrite_ok {src : WinSrc} {offset : BitVec 28} {bytes : List Byte} {s : State} {mx : List Instr × Mem} (hh : State.Ok mx s) : ∃ tv, execImageWindowWrite src offset bytes s = .next tv ∧ State.Ok mx tv := by
  unfold execImageWindowWrite
  with_reducible repeat' (first
    | assumption
    | exact ok_rfl
    | apply next_ok
    | apply State.windowWrite_ok)

theorem execStreamStallTimeout_ok {s : State} {mx : List Instr × Mem} (hh : State.Ok mx s) : ∃ tv, execStreamStallTimeout s = .next tv ∧ State.Ok mx tv := by
  unfold execStreamStallTimeout
  with_reducible repeat' (first
    | (intro _)
    | assumption
    | exact ok_rfl
    | apply next_ok
    | apply State.refuse_ok
    | apply ite_ok)

theorem execEntryTableReceived_ok {bytes : List Byte} {s : State} {mx : List Instr × Mem} (hh : State.Ok mx s) : ∃ tv, execEntryTableReceived bytes s = .next tv ∧ State.Ok mx tv := by
  unfold execEntryTableReceived
  with_reducible repeat' (first
    | (intro _)
    | (extract_lets +onlyGivenNames tv; have hu := tv; clear hu)
    | assumption
    | exact ok_rfl
    | apply next_ok
    | apply State.streamFeed_ok
    | refine ok_of (State.phase_held rfl) ?_
    | apply State.tableIn_ok
    | apply ite_ok)

theorem execFramePacket_ok {packet : Packet} {s : State} {mx : List Instr × Mem} (hh : State.Ok mx s) : ∃ tv, execFramePacket packet s = .next tv ∧ State.Ok mx tv := by
  unfold execFramePacket
  with_reducible repeat' (first
    | (intro _)
    | assumption
    | exact ok_rfl
    | apply next_ok
    | apply State.streamFeed_ok
    | refine ok_of (State.phase_held rfl) ?_
    | apply State.packetIn_ok
    | apply ite_ok)

theorem execCfgIn_ok {value : Word} {s : State} {mx : List Instr × Mem} (hh : State.Ok mx s) : ∃ tv, execCfgIn value s = .next tv ∧ State.Ok mx tv := by
  unfold execCfgIn
  with_reducible repeat' (first
    | (intro _)
    | (extract_lets +onlyGivenNames tv; first | (refine (fun ht : State.Ok mx tv => ?_) ?_; clear_value tv; rotate_left; subst tv; rotate_right) | (have hu := tv; clear hu))
    | assumption
    | exact ok_rfl
    | apply next_ok
    | refine ok_of (State.tapIr_held rfl) ?_
    | refine ok_of (State.streamDrop_held rfl) ?_
    | refine ok_of (State.phase_held rfl) ?_
    | refine ok_of (State.streamBegin_held rfl) ?_
    | apply State.streamIn_ok
    | apply ite_ok)

theorem execTestPortCfgCmd_ok {value : Word} {s : State} {mx : List Instr × Mem} (hh : State.Ok mx s) : ∃ tv, execTestPortCfgCmd value s = .next tv ∧ State.Ok mx tv := by
  unfold execTestPortCfgCmd
  with_reducible repeat' (first
    | (intro _)
    | (extract_lets +onlyGivenNames tv; first | (refine (fun ht : State.Ok mx tv => ?_) ?_; clear_value tv; rotate_left; subst tv; rotate_right) | (have hu := tv; clear hu))
    | assumption
    | exact ok_rfl
    | apply next_ok
    | refine ok_of (State.tapIr_held rfl) ?_
    | apply State.cfgCmd_ok
    | refine ok_of (State.put_held rfl) ?_
    | apply ite_ok)

theorem execCfgStat_held {s : State} {mx : List Instr × Mem} (hh : s.held = mx) : ∃ tv, execCfgStat s = .next tv ∧ tv.held = mx := by
  unfold execCfgStat
  with_reducible repeat' (first
    | (extract_lets +onlyGivenNames tv; have hu := tv; clear hu)
    | assumption
    | rfl
    | apply next_h
    | apply State.tapIr_held
    | apply State.setAnswer_held
    | apply State.emit_held)

theorem execIdcode_held {s : State} {mx : List Instr × Mem} (hh : s.held = mx) : ∃ tv, execIdcode s = .next tv ∧ tv.held = mx := by
  unfold execIdcode
  with_reducible repeat' (first
    | assumption
    | rfl
    | apply next_h
    | apply State.tapIr_held
    | apply State.setAnswer_held
    | apply State.emit_held)

theorem State.boundary_held {s : State} {ir : Nat} {bits : List Bool} {mx : List Instr × Mem} (hh : s.held = mx) : (State.boundary s ir bits).held = mx := by
  unfold State.boundary
  with_reducible repeat' (first
    | (intro _)
    | assumption
    | rfl
    | apply State.setTap_held
    | apply State.used_held
    | apply State.emit_held
    | apply ite_h
    | apply foldl_h
    | apply ite1_h
    | apply fold1_h
    | split
    | (clear_value *; split))

theorem execExtest_held {bits : List Bool} {s : State} {mx : List Instr × Mem} (hh : s.held = mx) : ∃ tv, execExtest bits s = .next tv ∧ tv.held = mx := by
  unfold execExtest
  with_reducible repeat' (first
    | assumption
    | rfl
    | apply next_h
    | apply State.boundary_held)

theorem execSamplePreload_held {bits : List Bool} {s : State} {mx : List Instr × Mem} (hh : s.held = mx) : ∃ tv, execSamplePreload bits s = .next tv ∧ tv.held = mx := by
  unfold execSamplePreload
  with_reducible repeat' (first
    | assumption
    | rfl
    | apply next_h
    | apply State.boundary_held)

theorem execBypass_held {s : State} {mx : List Instr × Mem} (hh : s.held = mx) : ∃ tv, execBypass s = .next tv ∧ tv.held = mx := by
  unfold execBypass
  with_reducible repeat' (first
    | assumption
    | rfl
    | apply next_h
    | apply State.tapIr_held
    | apply State.emit_held)

theorem execCfgRead_held {value : Word} {s : State} {mx : List Instr × Mem} (hh : s.held = mx) : ∃ tv, execCfgRead value s = .next tv ∧ tv.held = mx := by
  unfold execCfgRead
  with_reducible repeat' (first
    | (intro _)
    | (extract_lets +onlyGivenNames tv; first | (refine (fun ht : State.held tv = mx => ?_) ?_; clear_value tv; rotate_left; subst tv; rotate_right) | (have hu := tv; clear hu))
    | assumption
    | rfl
    | apply next_h
    | apply State.tapIr_held
    | apply State.setTap_held
    | apply ite_h)

theorem execCfgReadCapture_held {s : State} {mx : List Instr × Mem} (hh : s.held = mx) : ∃ tv, execCfgReadCapture s = .next tv ∧ tv.held = mx := by
  unfold execCfgReadCapture
  with_reducible repeat' (first
    | (intro _)
    | (extract_lets +onlyGivenNames tv; first | (refine (fun ht : State.held tv = mx => ?_) ?_; clear_value tv; rotate_left; subst tv; rotate_right) | (refine (fun ht : State.held (Prod.fst tv) = mx => ?_) ?_; clear_value tv; rotate_left; subst tv; rotate_right) | (have hu := tv; clear hu))
    | assumption
    | rfl
    | apply next_h
    | apply State.setAnswer_held
    | apply State.setTap_held
    | apply State.used_held
    | apply State.emit_held
    | refine State.readbackWord_heldp ‹_› ?_
    | apply State.readbackWord_held
    | apply ite_h
    | apply foldl_h
    | apply ite1_h
    | apply fold1_h
    | split
    | (clear_value *; split))

end Sys2Proof.Machine
end

