-- ==== Sys2Proof/Laws/HeldRelease.lean ====
section
/-! SUPPORT. For each operation of Machine/Release.lean: the queue and the memory it keeps (`_held`), or, where it stores, that the queue stays and the memory keeps its canonical form (`_ok`). -/

namespace Sys2Proof.Machine
open Sys2Proof
set_option linter.tactic.unusedName false

theorem State.releaseTo_held {s : State} {k : RelKind} {n : Nat} {mx : List Instr × Mem} (hh : s.held = mx) : (State.releaseTo s k n).held = mx := by
  unfold State.releaseTo
  with_reducible repeat' (first
    | (intro _)
    | assumption
    | rfl
    | apply State.setReleases_held)

theorem State.releaseEnd_held {s : State} {k : RelKind} {mx : List Instr × Mem} (hh : s.held = mx) : (State.releaseEnd s k).held = mx := by
  unfold State.releaseEnd
  with_reducible repeat' (first
    | (intro _)
    | assumption
    | rfl
    | apply State.setReleases_held)

theorem State.partialRelease_held {s : State} {mx : List Instr × Mem} (hh : s.held = mx) : (State.partialRelease s).held = mx := by
  unfold State.partialRelease
  with_reducible repeat' (first
    | (intro _)
    | (extract_lets +onlyGivenNames tv; first | (refine (fun ht : State.held tv = mx => ?_) ?_; clear_value tv; rotate_left; subst tv; rotate_right) | (have hu := tv; clear hu))
    | assumption
    | rfl
    | apply State.put_held
    | apply State.setLoadSt_held
    | apply State.phase_held
    | apply State.setReleases_held
    | apply ite_h)

theorem State.fullRelease_held {s : State} {mx : List Instr × Mem} (hh : s.held = mx) : (State.fullRelease s).held = mx := by
  unfold State.fullRelease
  with_reducible repeat' (first
    | (intro _)
    | (extract_lets +onlyGivenNames tv; first | (refine (fun ht : State.held tv = mx => ?_) ?_; clear_value tv; rotate_left; subst tv; rotate_right) | (have hu := tv; clear hu))
    | assumption
    | rfl
    | apply State.puts_held
    | apply State.cfgStage_held
    | apply State.onCfg_held
    | apply State.phase_held
    | apply State.setReleases_held
    | apply foldl_h)

theorem State.releaseHeat_held {s : State} {mx : List Instr × Mem} (hh : s.held = mx) : (State.releaseHeat s).held = mx := by
  unfold State.releaseHeat
  with_reducible repeat' (first
    | (intro _)
    | assumption
    | rfl
    | apply State.phase_held
    | apply State.partialRelease_held
    | apply State.fullRelease_held
    | apply ite_h)

theorem State.dieHeat_held {s : State} {d : Die} {mx : List Instr × Mem} (hh : s.held = mx) : (State.dieHeat s d).held = mx := by
  unfold State.dieHeat
  with_reducible repeat' (first
    | (intro _)
    | assumption
    | rfl
    | apply State.setDieStep_held
    | apply State.setReleases_held
    | apply ite_h)

theorem State.dieStages_held {s : State} {k : RelKind} {n : Nat} {mx : List Instr × Mem} (hh : s.held = mx) : (State.dieStages s k n).held = mx := by
  unfold State.dieStages
  with_reducible repeat' (first
    | (intro _)
    | assumption
    | rfl
    | apply State.put_held
    | apply foldl_h)

theorem State.memRelease_ok {s : State} {mx : List Instr × Mem} (hh : State.Ok mx s) : State.Ok mx (State.memRelease s) := by
  unfold State.memRelease
  with_reducible repeat' (first
    | (intro _)
    | (extract_lets +onlyGivenNames tv; first | (refine (fun ht : State.Ok mx tv => ?_) ?_; clear_value tv; rotate_left; subst tv; rotate_right) | (refine (fun ht : State.Ok mx (Prod.fst tv) => ?_) ?_; clear_value tv; rotate_left; subst tv; rotate_right) | (have hu := tv; clear hu))
    | assumption
    | exact ok_rfl
    | refine ok_of (State.setCxl_held rfl) ?_
    | refine ok_of (State.setCxlSt_held rfl) ?_
    | apply State.ddrReset_ok
    | apply ite_ok
    | apply foldl_ok
    | apply ite1_ok
    | apply fold1_ok
    | split
    | (clear_value *; split))

theorem State.fullOutputs_ok {s : State} {mx : List Instr × Mem} (hh : State.Ok mx s) : State.Ok mx (State.fullOutputs s) := by
  unfold State.fullOutputs
  with_reducible repeat' (first
    | (intro _)
    | (extract_lets +onlyGivenNames tv; first | (refine (fun ht : State.Ok mx tv => ?_) ?_; clear_value tv; rotate_left; subst tv; rotate_right) | (refine (fun ht : State.Ok mx (Prod.fst tv) => ?_) ?_; clear_value tv; rotate_left; subst tv; rotate_right) | (have hu := tv; clear hu))
    | assumption
    | exact ok_rfl
    | refine ok_of (State.setXTable_held rfl) ?_
    | refine ok_of (State.put_held rfl) ?_
    | refine ok_of (State.clampCopy_held rfl) ?_
    | refine ok_of (State.rclkSync_held rfl) ?_
    | refine ok_of (State.bufSync_held rfl) ?_
    | refine ok_of (State.spillSync_held rfl) ?_
    | refine ok_of (State.onCfg_held rfl) ?_
    | refine ok_of (State.banksImage_held rfl) ?_
    | apply State.memRelease_ok
    | apply ite_ok
    | apply foldl_ok
    | apply ite1_ok
    | apply fold1_ok
    | split
    | (clear_value *; split))

theorem State.stageOutputs_ok {s : State} {k : RelKind} {mx : List Instr × Mem} (hh : State.Ok mx s) : State.Ok mx (State.stageOutputs s k) := by
  unfold State.stageOutputs
  with_reducible repeat' (first
    | (intro _)
    | (extract_lets +onlyGivenNames tv; first | (refine (fun ht : State.Ok mx tv => ?_) ?_; clear_value tv; rotate_left; subst tv; rotate_right) | (refine (fun ht : State.Ok mx (Prod.fst tv) => ?_) ?_; clear_value tv; rotate_left; subst tv; rotate_right) | (have hu := tv; clear hu))
    | assumption
    | exact ok_rfl
    | refine ok_of (State.parcelStage1_held rfl) ?_
    | refine ok_of (State.lanesRelease_held rfl) ?_
    | refine ok_of (State.releaseTo_held rfl) ?_
    | refine ok_of (State.dieStages_held rfl) ?_
    | apply State.fullOutputs_ok
    | apply ite_ok
    | apply foldl_ok
    | apply ite1_ok
    | apply fold1_ok
    | split
    | (clear_value *; split))

theorem execReleaseStageOutputs_ok {kind : RelKind} {s : State} {mx : List Instr × Mem} (hh : State.Ok mx s) : ∃ tv, execReleaseStageOutputs kind s = .next tv ∧ State.Ok mx tv := by
  unfold execReleaseStageOutputs
  with_reducible repeat' (first
    | (intro _)
    | assumption
    | exact ok_rfl
    | apply next_ok
    | apply State.stageOutputs_ok
    | apply ite_ok
    | apply foldl_ok
    | apply ite1_ok
    | apply fold1_ok
    | split
    | (clear_value *; split))

theorem State.stageWrites_held {s : State} {k : RelKind} {mx : List Instr × Mem} (hh : s.held = mx) : (State.stageWrites s k).held = mx := by
  unfold State.stageWrites
  with_reducible repeat' (first
    | (intro _)
    | assumption
    | rfl
    | apply State.parcelStage2_held
    | apply State.releaseTo_held
    | apply State.dieStages_held
    | apply ite_h
    | apply foldl_h)

theorem execReleaseStageWriteEnables_held {kind : RelKind} {s : State} {mx : List Instr × Mem} (hh : s.held = mx) : ∃ tv, execReleaseStageWriteEnables kind s = .next tv ∧ tv.held = mx := by
  unfold execReleaseStageWriteEnables
  with_reducible repeat' (first
    | assumption
    | rfl
    | apply next_h
    | apply State.stageWrites_held)

theorem State.partialDone_held {s : State} {mx : List Instr × Mem} (hh : s.held = mx) : (State.partialDone s).held = mx := by
  unfold State.partialDone
  with_reducible repeat' (first
    | (extract_lets +onlyGivenNames tv; first | (refine (fun ht : State.held tv = mx => ?_) ?_; clear_value tv; rotate_left; subst tv; rotate_right) | (have hu := tv; clear hu))
    | assumption
    | rfl
    | apply State.cfgEnd_held
    | apply State.raise_held
    | apply State.partialOver_held
    | apply State.unitDone_held)

theorem State.dieUp_ok {s : State} {d : Die} {mx : List Instr × Mem} (hh : State.Ok mx s) : State.Ok mx (State.dieUp s d) := by
  unfold State.dieUp
  with_reducible repeat' (first
    | (intro _)
    | (extract_lets +onlyGivenNames tv; first | (refine (fun ht : State.Ok mx tv => ?_) ?_; clear_value tv; rotate_left; subst tv; rotate_right) | (have hu := tv; clear hu))
    | assumption
    | exact ok_rfl
    | refine ok_of (State.put_held rfl) ?_
    | refine ok_of (State.setDieStep_held rfl) ?_
    | refine ok_of (State.partialDone_held rfl) ?_
    | refine ok_of (State.scrubSync_held rfl) ?_
    | refine ok_of (State.levelsSync_held rfl) ?_
    | apply State.loadOn_ok
    | apply ite_ok)

theorem State.stageResets_ok {s : State} {k : RelKind} {mx : List Instr × Mem} (hh : State.Ok mx s) : State.Ok mx (State.stageResets s k) := by
  unfold State.stageResets
  with_reducible repeat' (first
    | (intro _)
    | (extract_lets +onlyGivenNames tv; first | (refine (fun ht : State.Ok mx tv => ?_) ?_; clear_value tv; rotate_left; subst tv; rotate_right) | (have hu := tv; clear hu))
    | assumption
    | exact ok_rfl
    | refine ok_of (State.releaseTo_held rfl) ?_
    | refine ok_of (State.dieStages_held rfl) ?_
    | refine ok_of (State.parcelStage3_held rfl) ?_
    | refine ok_of (State.setParcelSt_held rfl) ?_
    | refine ok_of (State.clrBit_held rfl) ?_
    | refine ok_of (State.coresStart_held rfl) ?_
    | refine ok_of (State.scrubFresh_held rfl) ?_
    | refine ok_of (State.releaseEnd_held rfl) ?_
    | apply State.dieUp_ok
    | refine ok_of (State.partialDone_held rfl) ?_
    | refine ok_of (State.powerDone_held rfl) ?_
    | apply ite_ok
    | apply foldl_ok
    | apply ite1_ok
    | apply fold1_ok
    | split
    | (clear_value *; split))

theorem execReleaseStageResets_ok {kind : RelKind} {s : State} {mx : List Instr × Mem} (hh : State.Ok mx s) : ∃ tv, execReleaseStageResets kind s = .next tv ∧ State.Ok mx tv := by
  unfold execReleaseStageResets
  with_reducible repeat' (first
    | assumption
    | exact ok_rfl
    | apply next_ok
    | apply State.stageResets_ok)

theorem State.fullDone_held {s : State} {mx : List Instr × Mem} (hh : s.held = mx) : (State.fullDone s).held = mx := by
  unfold State.fullDone
  with_reducible repeat' (first
    | (intro _)
    | (extract_lets +onlyGivenNames tv; first | (refine (fun ht : State.held tv = mx => ?_) ?_; clear_value tv; rotate_left; subst tv; rotate_right) | (refine (fun ht : State.held (Prod.fst tv) = mx => ?_) ?_; clear_value tv; rotate_left; subst tv; rotate_right) | (have hu := tv; clear hu))
    | assumption
    | rfl
    | apply State.setPins_held
    | apply State.raise_held
    | apply State.scrubsMeet_held
    | apply State.phase_held
    | apply State.cfgEnd_held
    | apply State.releaseEnd_held
    | apply ite_h
    | apply foldl_h
    | apply ite1_h
    | apply fold1_h
    | split
    | (clear_value *; split))

theorem execCfgDone_held {s : State} {mx : List Instr × Mem} (hh : s.held = mx) : ∃ tv, execCfgDone s = .next tv ∧ tv.held = mx := by
  unfold execCfgDone
  with_reducible repeat' (first
    | assumption
    | rfl
    | apply next_h
    | apply State.fullDone_held)

end Sys2Proof.Machine
end

