-- ==== Sys2Proof/Laws/HeldFieldBook.lean ====
section
/-! SUPPORT. For each operation of Machine/FieldBook.lean: the queue and the memory it keeps (`_held`), or, where it stores, that the queue stays and the memory keeps its canonical form (`_ok`). -/

namespace Sys2Proof.Machine
open Sys2Proof
set_option linter.tactic.unusedName false

theorem State.bookAdd_held {s : State} {kind : Nat} {event : Nat} {data : Nat} {mx : List Instr × Mem} (hh : s.held = mx) : (State.bookAdd s kind event data).held = mx := by
  unfold State.bookAdd
  with_reducible repeat' (first
    | (extract_lets +onlyGivenNames tv; first | (refine (fun ht : State.held tv = mx => ?_) ?_; clear_value tv; rotate_left; subst tv; rotate_right) | (have hu := tv; clear hu))
    | assumption
    | rfl
    | apply State.setBook_held
    | apply State.bump_held
    | apply State.raise_held
    | split
    | (clear_value *; split))

theorem execOpsecSecond_held {s : State} {mx : List Instr × Mem} (hh : s.held = mx) : ∃ tv, execOpsecSecond s = .next tv ∧ tv.held = mx := by
  unfold execOpsecSecond
  with_reducible repeat' (first
    | (intro _)
    | (extract_lets +onlyGivenNames tv; have hu := tv; clear hu)
    | assumption
    | rfl
    | apply next_h
    | apply State.now_held
    | apply State.setBook_held
    | (clear_value *; split))

theorem State.flashFailed_held {s : State} {slot : Nat} {what : Nat} {mx : List Instr × Mem} (hh : s.held = mx) : (State.flashFailed s slot what).held = mx := by
  unfold State.flashFailed
  with_reducible repeat' (first
    | (intro _)
    | (extract_lets +onlyGivenNames tv; first | (refine (fun ht : State.held tv = mx => ?_) ?_; clear_value tv; rotate_left; subst tv; rotate_right) | (have hu := tv; clear hu))
    | assumption
    | rfl
    | apply State.setBook_held
    | apply State.put_held
    | apply State.raise_held
    | apply ite_h)

theorem execFieldBookProgram_held {result : Fin 3} {s : State} {mx : List Instr × Mem} (hh : s.held = mx) : ∃ tv, execFieldBookProgram result s = .next tv ∧ tv.held = mx := by
  unfold execFieldBookProgram
  with_reducible repeat' (first
    | (intro _)
    | (extract_lets +onlyGivenNames tv; first | (refine (fun ht : State.held tv = mx => ?_) ?_; clear_value tv; rotate_left; subst tv; rotate_right) | (have hu := tv; clear hu))
    | assumption
    | rfl
    | apply next_h
    | apply State.setBook_held
    | apply State.emit_held
    | apply State.flashFailed_held
    | apply ite_h
    | split
    | (clear_value *; split))

theorem execFieldBookErase_held {works : Bool} {s : State} {mx : List Instr × Mem} (hh : s.held = mx) : ∃ tv, execFieldBookErase works s = .next tv ∧ tv.held = mx := by
  unfold execFieldBookErase
  with_reducible repeat' (first
    | (intro _)
    | assumption
    | rfl
    | apply next_h
    | apply State.setBook_held
    | apply State.flashFailed_held
    | apply ite_h
    | split)

theorem execFieldBookMount_held {responds : Bool} {found : Option (BitVec 17 × BitVec 32 × BitVec 32 × BitVec 24)} {s : State} {mx : List Instr × Mem} (hh : s.held = mx) : ∃ tv, execFieldBookMount responds found s = .next tv ∧ tv.held = mx := by
  unfold execFieldBookMount
  with_reducible repeat' (first
    | (intro _)
    | (extract_lets +onlyGivenNames tv; first | (refine (fun ht : State.held tv = mx => ?_) ?_; clear_value tv; rotate_left; subst tv; rotate_right) | (have hu := tv; clear hu))
    | assumption
    | rfl
    | apply next_h
    | apply State.put_held
    | apply State.setBook_held
    | apply ite_h
    | (clear_value *; split))

theorem execRecNote_held {code : BitVec 12} {s : State} {mx : List Instr × Mem} (hh : s.held = mx) : ∃ tv, execRecNote code s = .next tv ∧ tv.held = mx := by
  unfold execRecNote
  with_reducible repeat' (first
    | (extract_lets +onlyGivenNames tv; first | (refine (fun ht : State.held tv = mx => ?_) ?_; clear_value tv; rotate_left; subst tv; rotate_right) | (have hu := tv; clear hu))
    | assumption
    | rfl
    | apply next_h
    | apply State.put_held
    | apply State.bookAdd_held)

theorem State.ringRead_held {s : State} {slot : Nat} {word : Nat} {quiet : Bool} {mx : List Instr × Mem} (hh : s.held = mx) : (State.ringRead s slot word quiet).held = mx := by
  unfold State.ringRead
  with_reducible repeat' (first
    | (intro _)
    | assumption
    | rfl
    | apply State.setAnswer_held
    | apply State.setBook_held
    | apply ite_h)

theorem execRecRingRead_held {slot : Fin 4096} {word : Fin 8} {quiet : Bool} {s : State} {mx : List Instr × Mem} (hh : s.held = mx) : ∃ tv, execRecRingRead slot word quiet s = .next tv ∧ tv.held = mx := by
  unfold execRecRingRead
  with_reducible repeat' (first
    | assumption
    | rfl
    | apply next_h
    | apply State.ringRead_held)

theorem execFlashSlotRead_held {slot : BitVec 17} {s : State} {mx : List Instr × Mem} (hh : s.held = mx) : ∃ tv, execFlashSlotRead slot s = .next tv ∧ tv.held = mx := by
  unfold execFlashSlotRead
  with_reducible repeat' (first
    | assumption
    | rfl
    | apply next_h
    | apply State.put_held)

theorem execFlashSlotReadDone_held {bytes : BitVec 256} {s : State} {mx : List Instr × Mem} (hh : s.held = mx) : ∃ tv, execFlashSlotReadDone bytes s = .next tv ∧ tv.held = mx := by
  unfold execFlashSlotReadDone
  with_reducible repeat' (first
    | (intro _)
    | assumption
    | rfl
    | apply next_h
    | apply State.put_held
    | apply ite_h
    | apply foldl_h)

theorem State.calCommand_held {s : State} {key : Nat} {op : Nat} {mx : List Instr × Mem} (hh : s.held = mx) : (State.calCommand s key op).held = mx := by
  unfold State.calCommand
  with_reducible repeat' (first
    | (intro _)
    | assumption
    | rfl
    | apply State.put_held
    | apply State.setCal_held
    | apply ite_h)

theorem execSaveUser_held {key : BitVec 8} {s : State} {mx : List Instr × Mem} (hh : s.held = mx) : ∃ tv, execSaveUser key s = .next tv ∧ tv.held = mx := by
  unfold execSaveUser
  with_reducible repeat' (first
    | assumption
    | rfl
    | apply next_h
    | apply State.calCommand_held)

theorem execReturnToBenchmark_held {key : BitVec 8} {s : State} {mx : List Instr × Mem} (hh : s.held = mx) : ∃ tv, execReturnToBenchmark key s = .next tv ∧ tv.held = mx := by
  unfold execReturnToBenchmark
  with_reducible repeat' (first
    | assumption
    | rfl
    | apply next_h
    | apply State.calCommand_held)

theorem execMgtCalDone_held {works : Bool} {pairs : List (BitVec 64)} {s : State} {mx : List Instr × Mem} (hh : s.held = mx) : ∃ tv, execMgtCalDone works pairs s = .next tv ∧ tv.held = mx := by
  unfold execMgtCalDone
  with_reducible repeat' (first
    | (intro _)
    | (extract_lets +onlyGivenNames tv; first | (refine (fun ht : State.held tv = mx => ?_) ?_; clear_value tv; rotate_left; subst tv; rotate_right) | (refine (fun ht : State.held (Prod.fst tv) = mx => ?_) ?_; clear_value tv; rotate_left; subst tv; rotate_right) | (have hu := tv; clear hu))
    | assumption
    | rfl
    | apply next_h
    | apply State.setCal_held
    | apply State.put_held
    | apply State.puts_held
    | apply State.used_held
    | apply State.emit_held
    | apply State.raise_held
    | apply State.bookAdd_held
    | apply ite_h
    | apply foldl_h
    | apply ite1_h
    | apply fold1_h
    | split
    | (clear_value *; split))

end Sys2Proof.Machine
end

