-- ==== Sys2Proof/Laws/HeldDies.lean ====
section
/-! SUPPORT. For each operation of Machine/Dies.lean: the queue and the memory it keeps (`_held`), or, where it stores, that the queue stays and the memory keeps its canonical form (`_ok`). -/

namespace Sys2Proof.Machine
open Sys2Proof
set_option linter.tactic.unusedName false

theorem State.railsKept_held {s : State} {old : State} {mx : List Instr × Mem} (hh : s.held = mx) : (State.railsKept s old).held = mx := by
  unfold State.railsKept
  with_reducible repeat' (first
    | (intro _)
    | (extract_lets +onlyGivenNames tv; first | (refine (fun ht : State.held tv = mx => ?_) ?_; clear_value tv; rotate_left; subst tv; rotate_right) | (have hu := tv; clear hu))
    | assumption
    | rfl
    | apply State.puts_held
    | apply State.put_held
    | apply ite_h
    | apply foldl_h)

theorem State.otpKept_held {s : State} {old : State} {mx : List Instr × Mem} (hh : s.held = mx) : (State.otpKept s old).held = mx := by
  unfold State.otpKept
  with_reducible repeat' (first
    | (intro _)
    | (extract_lets +onlyGivenNames tv; first | (refine (fun ht : State.held tv = mx => ?_) ?_; clear_value tv; rotate_left; subst tv; rotate_right) | (have hu := tv; clear hu))
    | assumption
    | rfl
    | apply State.setWeld_held
    | apply State.setDbg_held
    | apply State.setBit_held
    | apply ite_h
    | apply foldl_h)

theorem State.vauxLost_ok {s : State} {mx : List Instr × Mem} (hh : State.Ok mx s) : State.Ok mx (State.vauxLost s) := by
  unfold State.vauxLost
  refine ok_of (State.otpKept_held rfl) ?_
  exact ⟨hh.1, fun _ => rfl⟩

theorem State.resetCause_held {s : State} {bits : Nat} {mx : List Instr × Mem} (hh : s.held = mx) : (State.resetCause s bits).held = mx := by
  unfold State.resetCause
  with_reducible repeat' (first
    | (intro _)
    | assumption
    | rfl
    | apply State.setReg_held
    | apply foldl_h)

theorem State.packageReset_ok {s : State} {bits : Nat} {mx : List Instr × Mem} (hh : State.Ok mx s) :
    State.Ok mx (State.packageReset s bits) := by
  unfold State.packageReset
  extract_lets a b c d e f t
  have ht : State.Ok mx t := ⟨hh.1, fun _ => rfl⟩
  clear_value t
  exact ok_of (State.resetCause_held rfl) (ok_of (State.railsKept_held rfl) (ok_of (State.otpKept_held rfl) ht))

theorem execIslandStart_held {s : State} {mx : List Instr × Mem} (hh : s.held = mx) : ∃ tv, execIslandStart s = .next tv ∧ tv.held = mx := by
  unfold execIslandStart
  with_reducible repeat' (first
    | (intro _)
    | assumption
    | rfl
    | apply next_h
    | apply State.setClk_held
    | apply State.put_held
    | apply State.resetCause_held
    | apply ite_h)

theorem execPowerOnResetRelease_ok {mode : BitVec 3} {pull : Bool} {s : State} {mx : List Instr × Mem} (hh : State.Ok mx s) : ∃ tv, execPowerOnResetRelease mode pull s = .next tv ∧ State.Ok mx tv := by
  unfold execPowerOnResetRelease
  with_reducible repeat' (first
    | (intro _)
    | (extract_lets +onlyGivenNames tv; first | (refine (fun ht : State.Ok mx tv => ?_) ?_; clear_value tv; rotate_left; subst tv; rotate_right) | (refine (fun ht : State.Ok mx (Prod.fst tv) => ?_) ?_; clear_value tv; rotate_left; subst tv; rotate_right) | (have hu := tv; clear hu))
    | assumption
    | exact ok_rfl
    | apply next_ok
    | refine ok_of (State.setClk_held rfl) ?_
    | refine ok_of (State.puts_held rfl) ?_
    | refine ok_of (State.avsWrite_held rfl) ?_
    | apply State.fullStart_ok
    | refine ok_of (State.bookAdd_held rfl) ?_
    | apply ite_ok
    | apply foldl_ok
    | apply ite1_ok
    | apply fold1_ok
    | split
    | (clear_value *; split))

theorem execSystemWatchdogExpiry_ok {s : State} {mx : List Instr × Mem} (hh : State.Ok mx s) : ∃ tv, execSystemWatchdogExpiry s = .next tv ∧ State.Ok mx tv := by
  unfold execSystemWatchdogExpiry
  with_reducible repeat' (first
    | (intro _)
    | (extract_lets +onlyGivenNames tv; first | (refine (fun ht : State.Ok mx tv => ?_) ?_; clear_value tv; rotate_left; subst tv; rotate_right) | (refine (fun ht : State.Ok mx (Prod.fst tv) => ?_) ?_; clear_value tv; rotate_left; subst tv; rotate_right) | (have hu := tv; clear hu))
    | assumption
    | exact ok_rfl
    | apply next_ok
    | refine ok_of (State.put_held rfl) ?_
    | refine ok_of (State.raise_held rfl) ?_
    | refine ok_of (State.swdReload_held rfl) ?_
    | apply State.packageReset_ok
    | apply ite_ok
    | apply foldl_ok
    | apply ite1_ok
    | apply fold1_ok
    | split
    | (clear_value *; split))

theorem State.diesAnswer_ok {s : State} {d : Die} {mx : List Instr × Mem} (hh : State.Ok mx s) : State.Ok mx (State.diesAnswer s d) := by
  unfold State.diesAnswer
  with_reducible repeat' (first
    | (intro _)
    | (extract_lets +onlyGivenNames tv; first | (refine (fun ht : State.Ok mx tv => ?_) ?_; clear_value tv; rotate_left; subst tv; rotate_right) | (refine (fun ht : State.Ok mx (Prod.fst tv) => ?_) ?_; clear_value tv; rotate_left; subst tv; rotate_right) | (have hu := tv; clear hu))
    | assumption
    | exact ok_rfl
    | refine ok_of (State.bump_held rfl) ?_
    | refine ok_of (State.tagDone_held rfl) ?_
    | apply State.deliver_ok
    | refine ok_of (State.xLate_held rfl) ?_
    | apply ite_ok
    | apply foldl_ok
    | apply ite1_ok
    | apply fold1_ok
    | split
    | (clear_value *; split))

theorem State.isolate_ok {s : State} {d : Die} {mx : List Instr × Mem} (hh : State.Ok mx s) : State.Ok mx (State.isolate s d) := by
  unfold State.isolate
  with_reducible repeat' (first
    | (intro _)
    | (extract_lets +onlyGivenNames tv; first | (refine (fun ht : State.Ok mx tv => ?_) ?_; clear_value tv; rotate_left; subst tv; rotate_right) | (refine (fun ht : State.Ok mx (Prod.fst tv) => ?_) ?_; clear_value tv; rotate_left; subst tv; rotate_right) | (have hu := tv; clear hu))
    | assumption
    | exact ok_rfl
    | refine ok_of (State.setFence_held rfl) ?_
    | refine ok_of (State.returnTrained_held rfl) ?_
    | refine ok_of (State.weldDown_held rfl) ?_
    | apply State.diesAnswer_ok
    | apply ite_ok
    | apply foldl_ok
    | apply ite1_ok
    | apply fold1_ok
    | split
    | (clear_value *; split))

theorem State.loadMeets_ok {s : State} {d : Die} {mx : List Instr × Mem} (hh : State.Ok mx s) : State.Ok mx (State.loadMeets s d) := by
  unfold State.loadMeets
  with_reducible repeat' (first
    | (intro _)
    | (extract_lets +onlyGivenNames tv; first | (refine (fun ht : State.Ok mx tv => ?_) ?_; clear_value tv; rotate_left; subst tv; rotate_right) | (have hu := tv; clear hu))
    | assumption
    | exact ok_rfl
    | refine ok_of (State.phase_held rfl) ?_
    | refine ok_of (State.put_held rfl) ?_
    | apply State.blankStart_ok
    | refine ok_of (State.setLoadSt_held rfl) ?_
    | refine ok_of (State.releaseEnd_held rfl) ?_
    | refine ok_of (State.scrubResume_held rfl) ?_
    | apply State.refuse_ok
    | apply ite_ok
    | (clear_value *; split))

theorem State.dieRegs_held {s : State} {d : Die} {mx : List Instr × Mem} (hh : s.held = mx) : (State.dieRegs s d).held = mx := by
  unfold State.dieRegs
  with_reducible repeat' (first
    | (intro _)
    | assumption
    | rfl
    | apply State.setRegs_held)

theorem State.parcelDown_held {s : State} {d : Die} {p : Nat} {mx : List Instr × Mem} (hh : s.held = mx) : (State.parcelDown s d p).held = mx := by
  unfold State.parcelDown
  with_reducible repeat' (first
    | (intro _)
    | (extract_lets +onlyGivenNames tv; first | (refine (fun ht : State.held tv = mx => ?_) ?_; clear_value tv; rotate_left; subst tv; rotate_right) | (refine (fun ht : State.held (Prod.fst tv) = mx => ?_) ?_; clear_value tv; rotate_left; subst tv; rotate_right) | (have hu := tv; clear hu))
    | assumption
    | rfl
    | apply State.setPrcHold_held
    | apply State.setCapture_held
    | apply State.setBramDef_held
    | apply State.setParcelSt_held
    | apply State.setPowerStep_held
    | apply State.parcelShut_held
    | apply State.switchOpen_held
    | apply ite_h
    | apply foldl_h
    | apply ite1_h
    | apply fold1_h
    | split
    | (clear_value *; split))

theorem State.fabDown_held {s : State} {d : Die} {mx : List Instr × Mem} (hh : s.held = mx) : (State.fabDown s d).held = mx := by
  unfold State.fabDown
  with_reducible repeat' (first
    | (intro _)
    | (extract_lets +onlyGivenNames tv; first | (refine (fun ht : State.held tv = mx => ?_) ?_; clear_value tv; rotate_left; subst tv; rotate_right) | (refine (fun ht : State.held (Prod.fst tv) = mx => ?_) ?_; clear_value tv; rotate_left; subst tv; rotate_right) | (have hu := tv; clear hu))
    | assumption
    | rfl
    | apply State.setFpFifo_held
    | apply State.setFrozen_held
    | apply State.setDcache_held
    | apply State.setDieResets_held
    | apply State.setNet_held
    | apply State.setDcWait_held
    | apply State.setCapWait_held
    | apply State.setReleases_held
    | apply State.setDcRights_held
    | apply State.used_held
    | apply State.parcelDown_held
    | apply ite_h
    | apply foldl_h
    | apply ite1_h
    | apply fold1_h
    | split
    | (clear_value *; split))

theorem State.portDown_ok {s : State} {d : Die} {out : List Nat} {mx : List Instr × Mem} (hh : State.Ok mx s) : State.Ok mx (State.portDown s d out) := by
  unfold State.portDown
  with_reducible repeat' (first
    | (intro _)
    | (extract_lets +onlyGivenNames tv; first | (refine (fun ht : State.Ok mx tv => ?_) ?_; clear_value tv; rotate_left; subst tv; rotate_right) | (refine (fun ht : State.Ok mx (Prod.fst tv) => ?_) ?_; clear_value tv; rotate_left; subst tv; rotate_right) | (have hu := tv; clear hu))
    | assumption
    | exact ok_rfl
    | refine ok_of (State.setHomeTxn_held rfl) ?_
    | refine ok_of (State.setNet_held rfl) ?_
    | refine ok_of (State.setLanes_held rfl) ?_
    | refine ok_of (State.put_held rfl) ?_
    | refine ok_of (State.used_held rfl) ?_
    | refine ok_of (State.raise_held rfl) ?_
    | refine ok_of (State.openRange_held rfl) ?_
    | refine ok_of (State.rclkSync_held rfl) ?_
    | refine State.homeLost_okp ‹_› ?_
    | apply State.homeLost_ok
    | refine ok_of (State.bufSync_held rfl) ?_
    | refine ok_of (State.spillSync_held rfl) ?_
    | refine ok_of (State.pktEmpty_held rfl) ?_
    | apply ite_ok
    | apply foldl_ok
    | apply ite1_ok
    | apply fold1_ok
    | split
    | (clear_value *; split))

theorem State.unitsDown_held {s : State} {d : Die} {mx : List Instr × Mem} (hh : s.held = mx) : (State.unitsDown s d).held = mx := by
  unfold State.unitsDown
  with_reducible repeat' (first
    | (intro _)
    | (extract_lets +onlyGivenNames tv; first | (refine (fun ht : State.held tv = mx => ?_) ?_; clear_value tv; rotate_left; subst tv; rotate_right) | (refine (fun ht : State.held (Prod.fst tv) = mx => ?_) ?_; clear_value tv; rotate_left; subst tv; rotate_right) | (have hu := tv; clear hu))
    | assumption
    | rfl
    | apply State.setUnits_held
    | apply ite_h
    | apply foldl_h
    | apply ite1_h
    | apply fold1_h
    | split
    | (clear_value *; split))

theorem State.dieReset_ok {s : State} {d : Die} {bits : Nat} {supply : Bool} {mx : List Instr × Mem} (hh : State.Ok mx s) : State.Ok mx (State.dieReset s d bits supply) := by
  unfold State.dieReset
  with_reducible repeat' (first
    | (intro _)
    | (extract_lets +onlyGivenNames tv; first | (refine (fun ht : State.Ok mx tv => ?_) ?_; clear_value tv; rotate_left; subst tv; rotate_right) | (refine (fun ht : State.Ok mx (Prod.fst tv) => ?_) ?_; clear_value tv; rotate_left; subst tv; rotate_right) | (have hu := tv; clear hu))
    | assumption
    | exact ok_rfl
    | refine ok_of (State.setBw_held rfl) ?_
    | refine ok_of (State.setPmcLatch_held rfl) ?_
    | refine ok_of (State.setEccScrub_held rfl) ?_
    | refine ok_of (State.setXUsed_held rfl) ?_
    | refine ok_of (State.setRouters_held rfl) ?_
    | refine ok_of (State.setRtrShare_held rfl) ?_
    | refine ok_of (State.setScrubs_held rfl) ?_
    | refine ok_of (State.setDieStep_held rfl) ?_
    | refine ok_of (State.setClk_held rfl) ?_
    | refine ok_of (State.setReg_held rfl) ?_
    | refine ok_of (State.put_held rfl) ?_
    | refine ok_of (State.puts_held rfl) ?_
    | refine ok_of (State.freeTags_held rfl) ?_
    | refine ok_of (State.coresStart_held rfl) ?_
    | refine ok_of (State.squelchOne_held rfl) ?_
    | refine ok_of (State.avsWrite_held rfl) ?_
    | refine ok_of (State.levelsSync_held rfl) ?_
    | refine ok_of (State.releaseEnd_held rfl) ?_
    | apply State.isolate_ok
    | apply State.loadMeets_ok
    | refine ok_of (State.dieRegs_held rfl) ?_
    | refine ok_of (State.fabDown_held rfl) ?_
    | apply State.portDown_ok
    | refine ok_of (State.unitsDown_held rfl) ?_
    | apply ite_ok
    | apply foldl_ok
    | apply ite1_ok
    | apply fold1_ok
    | split
    | (clear_value *; split))

theorem State.dieRequest_ok {s : State} {d : Die} {bits : Nat} {mx : List Instr × Mem} (hh : State.Ok mx s) : State.Ok mx (State.dieRequest s d bits) := by
  unfold State.dieRequest
  with_reducible repeat' (first
    | (intro _)
    | assumption
    | exact ok_rfl
    | refine ok_of (State.setBit_held rfl) ?_
    | apply State.dieReset_ok
    | apply ite_ok)

theorem State.dieRequests_ok {s : State} {key : Nat} {dies : Nat} {debug : Bool} {mx : List Instr × Mem} (hh : State.Ok mx s) : State.Ok mx (State.dieRequests s key dies debug) := by
  unfold State.dieRequests
  with_reducible repeat' (first
    | (intro _)
    | assumption
    | exact ok_rfl
    | apply State.dieRequest_ok
    | apply ite_ok
    | apply foldl_ok)

theorem execDieResetRequest_ok {key : BitVec 8} {dies : BitVec 8} {debug : Bool} {s : State} {mx : List Instr × Mem} (hh : State.Ok mx s) : ∃ tv, execDieResetRequest key dies debug s = .next tv ∧ State.Ok mx tv := by
  unfold execDieResetRequest
  with_reducible repeat' (first
    | assumption
    | exact ok_rfl
    | apply next_ok
    | apply State.dieRequests_ok)

theorem execDieResetRelease_held {die : Die} {s : State} {mx : List Instr × Mem} (hh : s.held = mx) : ∃ tv, execDieResetRelease die s = .next tv ∧ tv.held = mx := by
  unfold execDieResetRelease
  with_reducible repeat' (first
    | (intro _)
    | (extract_lets +onlyGivenNames tv; first | (refine (fun ht : State.held tv = mx => ?_) ?_; clear_value tv; rotate_left; subst tv; rotate_right) | (refine (fun ht : State.held (Prod.fst tv) = mx => ?_) ?_; clear_value tv; rotate_left; subst tv; rotate_right) | (have hu := tv; clear hu))
    | assumption
    | rfl
    | apply next_h
    | apply State.setDieStep_held
    | apply State.put_held
    | apply State.puts_held
    | apply State.weldTrain_held
    | apply State.returnTrained_held
    | apply ite_h
    | apply foldl_h
    | apply ite1_h
    | apply fold1_h
    | split
    | (clear_value *; split))

theorem State.clockLost_ok {s : State} {d : Die} {mx : List Instr × Mem} (hh : State.Ok mx s) : State.Ok mx (State.clockLost s d) := by
  unfold State.clockLost
  with_reducible repeat' (first
    | (intro _)
    | (extract_lets +onlyGivenNames tv; first | (refine (fun ht : State.Ok mx tv => ?_) ?_; clear_value tv; rotate_left; subst tv; rotate_right) | (refine (fun ht : State.Ok mx (Prod.fst tv) => ?_) ?_; clear_value tv; rotate_left; subst tv; rotate_right) | (have hu := tv; clear hu))
    | assumption
    | exact ok_rfl
    | refine ok_of (State.setDieStep_held rfl) ?_
    | refine ok_of (State.setReg_held rfl) ?_
    | refine ok_of (State.setScrub_held rfl) ?_
    | refine ok_of (State.put_held rfl) ?_
    | refine ok_of (State.levelsSync_held rfl) ?_
    | apply State.loadOn_ok
    | refine ok_of (State.releaseEnd_held rfl) ?_
    | apply State.isolate_ok
    | apply State.loadMeets_ok
    | apply ite_ok
    | apply foldl_ok
    | apply ite1_ok
    | apply fold1_ok
    | split
    | (clear_value *; split))

theorem execDieClockLoss_ok {die : Die} {s : State} {mx : List Instr × Mem} (hh : State.Ok mx s) : ∃ tv, execDieClockLoss die s = .next tv ∧ State.Ok mx tv := by
  unfold execDieClockLoss
  with_reducible repeat' (first
    | (intro _)
    | assumption
    | exact ok_rfl
    | apply next_ok
    | apply State.clockLost_ok
    | apply ite_ok)

theorem State.railAction_ok {s : State} {rail : Nat} {mx : List Instr × Mem} (hh : State.Ok mx s) : State.Ok mx (State.railAction s rail) := by
  unfold State.railAction
  with_reducible repeat' (first
    | (intro _)
    | assumption
    | exact ok_rfl
    | apply State.ddrReset_ok
    | apply State.lineSafe_ok
    | apply State.vauxLost_ok
    | apply State.packageReset_ok
    | apply State.dieReset_ok
    | apply ite_ok
    | apply foldl_ok
    | apply ite1_ok
    | apply fold1_ok
    | split
    | (clear_value *; split))

theorem execRailBelowReset_ok {rail : Fin 29} {min : BitVec 12} {mv : BitVec 12} {s : State} {mx : List Instr × Mem} (hh : State.Ok mx s) : ∃ tv, execRailBelowReset rail min mv s = .next tv ∧ State.Ok mx tv := by
  unfold execRailBelowReset
  with_reducible repeat' (first
    | (intro _)
    | (extract_lets +onlyGivenNames tv; first | (refine (fun ht : State.Ok mx tv => ?_) ?_; clear_value tv; rotate_left; subst tv; rotate_right) | (have hu := tv; clear hu))
    | assumption
    | exact ok_rfl
    | apply next_ok
    | refine ok_of (State.railSample_held rfl) ?_
    | refine ok_of (State.puts_held rfl) ?_
    | refine ok_of (State.raise_held rfl) ?_
    | apply State.railAction_ok
    | apply ite_ok)

theorem State.railReturn_held {s : State} {d : Die} {mx : List Instr × Mem} (hh : s.held = mx) : (State.railReturn s d).held = mx := by
  unfold State.railReturn
  with_reducible repeat' (first
    | (intro _)
    | (extract_lets +onlyGivenNames tv; first | (refine (fun ht : State.held tv = mx => ?_) ?_; clear_value tv; rotate_left; subst tv; rotate_right) | (refine (fun ht : State.held (Prod.fst tv) = mx => ?_) ?_; clear_value tv; rotate_left; subst tv; rotate_right) | (have hu := tv; clear hu))
    | assumption
    | rfl
    | apply State.setDieStep_held
    | apply State.avsWrite_held
    | apply ite_h
    | apply foldl_h
    | apply ite1_h
    | apply fold1_h
    | split
    | (clear_value *; split))

theorem execRailGood_held {rail : Fin 29} {mv : BitVec 12} {s : State} {mx : List Instr × Mem} (hh : s.held = mx) : ∃ tv, execRailGood rail mv s = .next tv ∧ tv.held = mx := by
  unfold execRailGood
  with_reducible repeat' (first
    | (intro _)
    | (extract_lets +onlyGivenNames tv; first | (refine (fun ht : State.held tv = mx => ?_) ?_; clear_value tv; rotate_left; subst tv; rotate_right) | (refine (fun ht : State.held (Prod.fst tv) = mx => ?_) ?_; clear_value tv; rotate_left; subst tv; rotate_right) | (have hu := tv; clear hu))
    | assumption
    | rfl
    | apply next_h
    | apply State.puts_held
    | apply State.railSample_held
    | apply State.railReturn_held
    | apply ite_h
    | apply foldl_h
    | apply ite1_h
    | apply fold1_h
    | split
    | (clear_value *; split))

theorem execPwrVoltageGood_ok {die : FDie} {s : State} {mx : List Instr × Mem} (hh : State.Ok mx s) : ∃ tv, execPwrVoltageGood die s = .next tv ∧ State.Ok mx tv := by
  unfold execPwrVoltageGood
  with_reducible repeat' (first
    | (intro _)
    | (extract_lets +onlyGivenNames tv; first | (refine (fun ht : State.Ok mx tv => ?_) ?_; clear_value tv; rotate_left; subst tv; rotate_right) | (refine (fun ht : State.Ok mx (Prod.fst tv) => ?_) ?_; clear_value tv; rotate_left; subst tv; rotate_right) | (have hu := tv; clear hu))
    | assumption
    | exact ok_rfl
    | apply next_ok
    | refine ok_of (State.setClk_held rfl) ?_
    | refine ok_of (State.put_held rfl) ?_
    | refine ok_of (State.levelsSync_held rfl) ?_
    | refine ok_of (State.nomSync_held rfl) ?_
    | apply State.loadOn_ok
    | apply ite_ok
    | apply foldl_ok
    | apply ite1_ok
    | apply fold1_ok
    | split
    | (clear_value *; split))

theorem execDatumPllLock_ok {s : State} {mx : List Instr × Mem} (hh : State.Ok mx s) : ∃ tv, execDatumPllLock s = .next tv ∧ State.Ok mx tv := by
  unfold execDatumPllLock
  with_reducible repeat' (first
    | (intro _)
    | (extract_lets +onlyGivenNames tv; first | (refine (fun ht : State.Ok mx tv => ?_) ?_; clear_value tv; rotate_left; subst tv; rotate_right) | (refine (fun ht : State.Ok mx (Prod.fst tv) => ?_) ?_; clear_value tv; rotate_left; subst tv; rotate_right) | (have hu := tv; clear hu))
    | assumption
    | exact ok_rfl
    | apply next_ok
    | refine ok_of (State.setClk_held rfl) ?_
    | refine ok_of (State.put_held rfl) ?_
    | refine ok_of (State.puts_held rfl) ?_
    | refine ok_of (State.raise_held rfl) ?_
    | refine ok_of (State.weldTrain_held rfl) ?_
    | refine ok_of (State.returnTrained_held rfl) ?_
    | apply State.loadOn_ok
    | apply ite_ok
    | apply foldl_ok
    | apply ite1_ok
    | apply fold1_ok
    | split
    | (clear_value *; split))

end Sys2Proof.Machine
end

