-- ==== Sys2Proof/Laws/HeldStroke.lean ====
section
/-! SUPPORT. For each operation of Machine/Stroke.lean: the queue and the memory it keeps (`_held`), or, where it stores, that the queue stays and the memory keeps its canonical form (`_ok`). -/

namespace Sys2Proof.Machine
open Sys2Proof
set_option linter.tactic.unusedName false

theorem State.strokeTime_held {s : State} {mx : List Instr × Mem} (hh : s.held = mx) : (State.strokeTime s).held = mx := by
  unfold State.strokeTime
  with_reducible repeat' (first
    | (intro _)
    | (extract_lets +onlyGivenNames tv; first | (refine (fun ht : State.held tv = mx => ?_) ?_; clear_value tv; rotate_left; subst tv; rotate_right) | (refine (fun ht : State.held (Prod.fst tv) = mx => ?_) ?_; clear_value tv; rotate_left; subst tv; rotate_right) | (have hu := tv; clear hu))
    | assumption
    | rfl
    | apply State.setCycles_held
    | apply State.setTod_held
    | apply State.timeTo_held
    | apply ite_h
    | apply foldl_h
    | apply ite1_h
    | apply fold1_h
    | split
    | (clear_value *; split))

theorem State.slew_ok {s : State} {stroke : Nat} {mx : List Instr × Mem} (hh : State.Ok mx s) : State.Ok mx (State.slew s stroke) := by
  unfold State.slew
  with_reducible repeat' (first
    | (intro _)
    | (extract_lets +onlyGivenNames tv; have hu := tv; clear hu)
    | assumption
    | exact ok_rfl
    | apply State.stroke_ok
    | refine ok_of (State.setUnits_held rfl) ?_)

theorem State.heatMark_held {s : State} {mx : List Instr × Mem} (hh : s.held = mx) : (State.heatMark s).held = mx := by
  unfold State.heatMark
  with_reducible repeat' (first
    | (intro _)
    | (extract_lets +onlyGivenNames tv; first | (refine (fun ht : State.held tv = mx => ?_) ?_; clear_value tv; rotate_left; subst tv; rotate_right) | (refine (fun ht : State.held (Prod.fst tv) = mx => ?_) ?_; clear_value tv; rotate_left; subst tv; rotate_right) | (have hu := tv; clear hu))
    | assumption
    | rfl
    | apply State.setUnits_held
    | apply State.put_held
    | apply ite_h
    | apply foldl_h
    | apply ite1_h
    | apply fold1_h
    | split
    | (clear_value *; split))

theorem State.timedAgain_held {s : State} {mx : List Instr × Mem} (hh : s.held = mx) : (State.timedAgain s).held = mx := by
  unfold State.timedAgain
  with_reducible repeat' (first
    | (intro _)
    | (extract_lets +onlyGivenNames tv; have hu := tv; clear hu)
    | assumption
    | rfl
    | apply State.put_held
    | apply ite_h
    | apply foldl_h)

theorem State.overrun_held {s : State} {d : Die} {unit : Nat} {mx : List Instr × Mem} (hh : s.held = mx) : (State.overrun s d unit).held = mx := by
  unfold State.overrun
  with_reducible repeat' (first
    | (intro _)
    | (extract_lets +onlyGivenNames tv; first | (refine (fun ht : State.held tv = mx => ?_) ?_; clear_value tv; rotate_left; subst tv; rotate_right) | (have hu := tv; clear hu))
    | assumption
    | rfl
    | apply State.bump_held
    | apply State.puts_held
    | apply State.raise_held
    | apply ite_h)

theorem State.coreStroke_held {s : State} {d : Die} {k : Nat} {mx : List Instr × Mem} (hh : s.held = mx) : (State.coreStroke s d k).held = mx := by
  unfold State.coreStroke
  with_reducible repeat' (first
    | (intro _)
    | (extract_lets +onlyGivenNames tv; first | (refine (fun ht : State.held tv = mx => ?_) ?_; clear_value tv; rotate_left; subst tv; rotate_right) | (refine (fun ht : State.held (Prod.fst tv) = mx => ?_) ?_; clear_value tv; rotate_left; subst tv; rotate_right) | (have hu := tv; clear hu))
    | assumption
    | rfl
    | apply State.setCstate_held
    | apply State.bump_held
    | apply State.irq_held
    | apply State.onCore_held
    | apply State.taskSync_held
    | apply State.overrun_held
    | apply ite_h
    | apply foldl_h
    | apply ite1_h
    | apply fold1_h
    | split
    | (clear_value *; split))

theorem State.fabStroke_ok {s : State} {d : FDie} {late : List Nat} {mx : List Instr × Mem} (hh : State.Ok mx s) : State.Ok mx (State.fabStroke s d late) := by
  unfold State.fabStroke
  with_reducible repeat' (first
    | (intro _)
    | (extract_lets +onlyGivenNames tv; first | (refine (fun ht : State.Ok mx tv => ?_) ?_; clear_value tv; rotate_left; subst tv; rotate_right) | (refine (fun ht : State.Ok mx (Prod.fst tv) => ?_) ?_; clear_value tv; rotate_left; subst tv; rotate_right) | (have hu := tv; clear hu))
    | assumption
    | exact ok_rfl
    | apply State.parcelStroke_ok
    | refine ok_of (State.captureStroke_held rfl) ?_
    | refine ok_of (State.overrun_held rfl) ?_
    | refine ok_of (State.coreStroke_held rfl) ?_
    | apply ite_ok
    | apply foldl_ok
    | apply ite1_ok
    | apply fold1_ok
    | split
    | (clear_value *; split))

theorem State.portStroke_held {s : State} {d : Die} {late : List Nat} {mx : List Instr × Mem} (hh : s.held = mx) : (State.portStroke s d late).held = mx := by
  unfold State.portStroke
  with_reducible repeat' (first
    | (intro _)
    | assumption
    | rfl
    | apply State.overrun_held
    | apply State.expressWalk_held
    | apply ite_h)

theorem State.dieStroke_ok {s : State} {d : Die} {late : List Nat} {mx : List Instr × Mem} (hh : State.Ok mx s) : State.Ok mx (State.dieStroke s d late) := by
  unfold State.dieStroke
  with_reducible repeat' (first
    | (intro _)
    | (extract_lets +onlyGivenNames tv; first | (refine (fun ht : State.Ok mx tv => ?_) ?_; clear_value tv; rotate_left; subst tv; rotate_right) | (refine (fun ht : State.Ok mx (Prod.fst tv) => ?_) ?_; clear_value tv; rotate_left; subst tv; rotate_right) | (have hu := tv; clear hu))
    | assumption
    | exact ok_rfl
    | refine ok_of (State.pmcItems_held rfl) ?_
    | refine ok_of (State.vote_held rfl) ?_
    | apply State.fabStroke_ok
    | refine ok_of (State.portStroke_held rfl) ?_
    | apply ite_ok
    | apply foldl_ok
    | apply ite1_ok
    | apply fold1_ok
    | split
    | (clear_value *; split))

theorem State.unitApply_ok {s : State} {u : Nat} {mx : List Instr × Mem} (hh : State.Ok mx s) : State.Ok mx (State.unitApply s u) := by
  unfold State.unitApply
  with_reducible repeat' (first
    | (intro _)
    | (extract_lets +onlyGivenNames tv; first | (refine (fun ht : State.Ok mx tv => ?_) ?_; clear_value tv; rotate_left; subst tv; rotate_right) | (have hu := tv; clear hu))
    | assumption
    | exact ok_rfl
    | refine ok_of (State.clrBit_held rfl) ?_
    | refine ok_of (State.schedApply_held rfl) ?_
    | refine ok_of (State.setBit_held rfl) ?_
    | refine ok_of (State.setUnits_held rfl) ?_
    | apply State.levelApply_ok
    | refine ok_of (State.timingApply_held rfl) ?_
    | refine ok_of (State.phase_held rfl) ?_
    | refine ok_of (State.partialRelease_held rfl) ?_
    | refine ok_of (State.quadCommit_held rfl) ?_
    | apply ite_ok)

theorem State.changeCommit_ok {s : State} {mx : List Instr × Mem} (hh : State.Ok mx s) : State.Ok mx (State.changeCommit s) := by
  unfold State.changeCommit
  with_reducible repeat' (first
    | (intro _)
    | (extract_lets +onlyGivenNames tv; first | (refine (fun ht : State.Ok mx tv => ?_) ?_; clear_value tv; rotate_left; subst tv; rotate_right) | (have hu := tv; clear hu))
    | assumption
    | exact ok_rfl
    | refine ok_of (State.setUnits_held rfl) ?_
    | refine ok_of (State.put_held rfl) ?_
    | apply State.unitApply_ok
    | apply foldl_ok)

theorem State.changeEnd_ok {s : State} {mx : List Instr × Mem} (hh : State.Ok mx s) : State.Ok mx (State.changeEnd s) := by
  unfold State.changeEnd
  with_reducible repeat' (first
    | (intro _)
    | (extract_lets +onlyGivenNames tv; first | (refine (fun ht : State.Ok mx tv => ?_) ?_; clear_value tv; rotate_left; subst tv; rotate_right) | (have hu := tv; clear hu))
    | assumption
    | exact ok_rfl
    | apply State.unitFails_ok
    | refine ok_of (State.setBit_held rfl) ?_
    | refine ok_of (State.put_held rfl) ?_
    | refine ok_of (State.setUnits_held rfl) ?_
    | refine ok_of (State.puts_held rfl) ?_
    | refine ok_of (State.raise_held rfl) ?_
    | apply ite_ok
    | apply foldl_ok)

theorem State.withhold_held {s : State} {untimed : Bool} {mx : List Instr × Mem} (hh : s.held = mx) : (State.withhold s untimed).held = mx := by
  unfold State.withhold
  with_reducible repeat' (first
    | (intro _)
    | (extract_lets +onlyGivenNames tv; first | (refine (fun ht : State.held tv = mx => ?_) ?_; clear_value tv; rotate_left; subst tv; rotate_right) | (have hu := tv; clear hu))
    | assumption
    | rfl
    | apply State.bump_held
    | apply State.put_held
    | apply State.raise_held
    | apply ite_h)

theorem State.changeHeat_ok {s : State} {mx : List Instr × Mem} (hh : State.Ok mx s) : State.Ok mx (State.changeHeat s) := by
  unfold State.changeHeat
  with_reducible repeat' (first
    | (intro _)
    | (extract_lets +onlyGivenNames tv; have hu := tv; clear hu)
    | assumption
    | exact ok_rfl
    | refine ok_of (State.withhold_held rfl) ?_
    | apply State.changeCommit_ok
    | refine ok_of (State.changeOff_held rfl) ?_
    | refine ok_of (State.raise_held rfl) ?_
    | apply State.changeEnd_ok
    | apply ite_ok
    | split
    | (clear_value *; split))

theorem State.heat_ok {s : State} {mx : List Instr × Mem} (hh : State.Ok mx s) : State.Ok mx (State.heat s) := by
  unfold State.heat
  with_reducible repeat' (first
    | (intro _)
    | (extract_lets +onlyGivenNames tv; first | (refine (fun ht : State.Ok mx tv => ?_) ?_; clear_value tv; rotate_left; subst tv; rotate_right) | (have hu := tv; clear hu))
    | assumption
    | exact ok_rfl
    | refine ok_of (State.timedAgain_held rfl) ?_
    | apply State.changeHeat_ok
    | refine ok_of (State.releaseHeat_held rfl) ?_
    | refine ok_of (State.dieHeat_held rfl) ?_
    | refine ok_of (State.pmcItems_held rfl) ?_
    | refine ok_of (State.powerHeat_held rfl) ?_
    | refine ok_of (State.levelsSync_held rfl) ?_
    | apply foldl_ok)

theorem State.stroke_ok {s : State} {late : List (Die × Fin 25)} {mx : List Instr × Mem} (hh : State.Ok mx s) : State.Ok mx (State.stroke s late) := by
  unfold State.stroke
  with_reducible repeat' (first
    | (intro _)
    | (extract_lets +onlyGivenNames tv; first | (refine (fun ht : State.Ok mx tv => ?_) ?_; clear_value tv; rotate_left; subst tv; rotate_right) | (refine (fun ht : State.Ok mx (Prod.fst tv) => ?_) ?_; clear_value tv; rotate_left; subst tv; rotate_right) | (have hu := tv; clear hu))
    | assumption
    | exact ok_rfl
    | refine ok_of (State.put_held rfl) ?_
    | refine ok_of (State.bwStroke_held rfl) ?_
    | apply State.xStroke_ok
    | apply State.partialFence_ok
    | refine ok_of (State.strokeTime_held rfl) ?_
    | apply State.slew_ok
    | refine ok_of (State.heatMark_held rfl) ?_
    | apply State.dieStroke_ok
    | apply State.heat_ok
    | apply ite_ok
    | apply foldl_ok
    | apply ite1_ok
    | apply fold1_ok
    | split
    | (clear_value *; split))

theorem execStroke_ok {late : List (Die × Fin 25)} {s : State} {mx : List Instr × Mem} (hh : State.Ok mx s) : ∃ tv, execStroke late s = .next tv ∧ State.Ok mx tv := by
  unfold execStroke
  with_reducible repeat' (first
    | (intro _)
    | assumption
    | exact ok_rfl
    | apply next_ok
    | apply State.stroke_ok
    | apply ite_ok)

theorem State.pmcCycle_held {s : State} {d : Die} {c : Nat} {mx : List Instr × Mem} (hh : s.held = mx) : (State.pmcCycle s d c).held = mx := by
  unfold State.pmcCycle
  with_reducible repeat' (first
    | (intro _)
    | (extract_lets +onlyGivenNames tv; first | (refine (fun ht : State.held tv = mx => ?_) ?_; clear_value tv; rotate_left; subst tv; rotate_right) | (refine (fun ht : State.held (Prod.fst tv) = mx => ?_) ?_; clear_value tv; rotate_left; subst tv; rotate_right) | (have hu := tv; clear hu))
    | assumption
    | rfl
    | apply State.setPmcOvf_held
    | apply State.pmcPlus_held
    | apply State.raise_held
    | apply ite_h
    | apply foldl_h
    | apply ite1_h
    | apply fold1_h
    | split
    | (clear_value *; split))

theorem State.idle_held {s : State} {mx : List Instr × Mem} (hh : s.held = mx) : (State.idle s).held = mx := by
  unfold State.idle
  with_reducible repeat' (first
    | (intro _)
    | (extract_lets +onlyGivenNames tv; first | (refine (fun ht : State.held tv = mx => ?_) ?_; clear_value tv; rotate_left; subst tv; rotate_right) | (refine (fun ht : State.held (Prod.fst tv) = mx => ?_) ?_; clear_value tv; rotate_left; subst tv; rotate_right) | (have hu := tv; clear hu))
    | assumption
    | rfl
    | apply State.eventOut_held
    | apply State.routersCycle_held
    | apply State.weldDrain_held
    | apply State.pmcCycle_held
    | apply ite_h
    | apply foldl_h
    | apply ite1_h
    | apply fold1_h
    | split
    | (clear_value *; split))

end Sys2Proof.Machine
end

