-- ==== Sys2Proof/Laws/HeldAccess.lean ====
section
/-! SUPPORT. For each operation of Machine/Access.lean: the queue and the memory it keeps (`_held`), or, where it stores, that the queue stays and the memory keeps its canonical form (`_ok`). -/

namespace Sys2Proof.Machine
open Sys2Proof
set_option linter.tactic.unusedName false

theorem State.haltWrite_held {s : State} {icls : Nat} {f : State → State} {mx : List Instr × Mem} (hi : ∀ {s : State}, s.held = mx → (f s).held = mx) (hh : s.held = mx) : (State.haltWrite s icls f).held = mx := by
  unfold State.haltWrite
  with_reducible repeat' (first
    | (intro _)
    | assumption
    | apply hi
    | rfl
    | apply ite_h)
theorem State.haltWrite_ok {s : State} {icls : Nat} {f : State → State} {mx : List Instr × Mem} (hi : ∀ {s : State}, State.Ok mx s → State.Ok mx (f s)) (hh : State.Ok mx s) : State.Ok mx (State.haltWrite s icls f) := by
  unfold State.haltWrite
  with_reducible repeat' (first
    | (intro _)
    | assumption
    | apply hi
    | exact ok_rfl
    | apply ite_ok)

theorem State.dbgCtrl_ok {s : State} {d : Die} {k : Nat} {v : Word} {mx : List Instr × Mem} (hh : State.Ok mx s) : State.Ok mx (State.dbgCtrl s d k v) := by
  unfold State.dbgCtrl
  with_reducible repeat' (first
    | (intro _)
    | (extract_lets +onlyGivenNames tv; first | (refine (fun ht : State.Ok mx tv => ?_) ?_; clear_value tv; rotate_left; subst tv; rotate_right) | (refine (fun ht : State.Ok mx (Prod.fst tv) => ?_) ?_; clear_value tv; rotate_left; subst tv; rotate_right) | (have hu := tv; clear hu))
    | assumption
    | exact ok_rfl
    | refine ok_of (State.writeReg_held rfl) ?_
    | refine ok_of (State.haltRequest_held rfl) ?_
    | apply State.tngUnhalt_ok
    | apply State.haltEnd_ok
    | apply ite_ok
    | apply foldl_ok
    | apply ite1_ok
    | apply fold1_ok
    | split
    | (clear_value *; split))

theorem State.lkpWrite_held {s : State} {d : Die} {v : Word} {mx : List Instr × Mem} (hh : s.held = mx) : (State.lkpWrite s d v).held = mx := by
  unfold State.lkpWrite
  with_reducible repeat' (first
    | (intro _)
    | (extract_lets +onlyGivenNames tv; first | (refine (fun ht : State.held tv = mx => ?_) ?_; clear_value tv; rotate_left; subst tv; rotate_right) | (refine (fun ht : State.held (Prod.fst tv) = mx => ?_) ?_; clear_value tv; rotate_left; subst tv; rotate_right) | (have hu := tv; clear hu))
    | assumption
    | rfl
    | apply State.writeReg_held
    | apply State.lkpEnd_held
    | refine State.lkpCmd_held ?_ ?_
    | refine State.lkpInsert_heldp ‹_› ?_
    | apply State.lkpInsert_held
    | refine State.lkpDelete_heldp ‹_› ?_
    | apply State.lkpDelete_held
    | refine State.lkpModify_heldp ‹_› ?_
    | apply State.lkpModify_held
    | apply State.lkpRead_held
    | apply State.lkpReadAt_held
    | apply State.lkpClearHits_held
    | apply State.lkpBulk_held
    | apply State.lkpAbort_held
    | apply ite_h
    | apply foldl_h
    | apply ite1_h
    | apply fold1_h
    | split
    | (clear_value *; split))

theorem State.queueCmd_held {s : State} {d : Die} {q : Nat} {v : Word} {mx : List Instr × Mem} (hh : s.held = mx) : (State.queueCmd s d q v).held = mx := by
  unfold State.queueCmd
  with_reducible repeat' (first
    | (intro _)
    | (extract_lets +onlyGivenNames tv; first | (refine (fun ht : State.held tv = mx => ?_) ?_; clear_value tv; rotate_left; subst tv; rotate_right) | (have hu := tv; clear hu))
    | assumption
    | rfl
    | apply State.flushStart_held
    | apply State.used_held
    | apply State.flushAbort_held
    | apply ite_h)

theorem State.todCtrl_held {s : State} {v : Word} {mx : List Instr × Mem} (hh : s.held = mx) : (State.todCtrl s v).held = mx := by
  unfold State.todCtrl
  with_reducible repeat' (first
    | (intro _)
    | (extract_lets +onlyGivenNames tv; first | (refine (fun ht : State.held tv = mx => ?_) ?_; clear_value tv; rotate_left; subst tv; rotate_right) | (refine (fun ht : State.held (Prod.fst tv) = mx => ?_) ?_; clear_value tv; rotate_left; subst tv; rotate_right) | (have hu := tv; clear hu))
    | assumption
    | rfl
    | apply State.writeReg_held
    | apply State.timeSome_held
    | apply State.todSet_held
    | apply State.todAdj_held
    | apply ite_h
    | apply foldl_h
    | apply ite1_h
    | apply fold1_h
    | split
    | (clear_value *; split))

theorem State.regionCmd_ok {s : State} {e : Nat} {r : Nat} {v : Word} {mx : List Instr × Mem} (hh : State.Ok mx s) : State.Ok mx (State.regionCmd s e r v) := by
  unfold State.regionCmd
  with_reducible repeat' (first
    | (intro _)
    | (extract_lets +onlyGivenNames tv; first | (refine (fun ht : State.Ok mx tv => ?_) ?_; clear_value tv; rotate_left; subst tv; rotate_right) | (refine (fun ht : State.Ok mx (Prod.fst tv) => ?_) ?_; clear_value tv; rotate_left; subst tv; rotate_right) | (have hu := tv; clear hu))
    | assumption
    | exact ok_rfl
    | refine ok_of (State.used_held rfl) ?_
    | refine ok_of (State.regionInit_held rfl) ?_
    | apply State.regionAbort_ok
    | apply ite_ok
    | apply foldl_ok
    | apply ite1_ok
    | apply fold1_ok
    | split
    | (clear_value *; split))

theorem State.bwCfg_held {s : State} {d : Die} {m : Nat} {v : Word} {mx : List Instr × Mem} (hh : s.held = mx) : (State.bwCfg s d m v).held = mx := by
  unfold State.bwCfg
  with_reducible repeat' (first
    | (intro _)
    | (extract_lets +onlyGivenNames tv; first | (refine (fun ht : State.held tv = mx => ?_) ?_; clear_value tv; rotate_left; subst tv; rotate_right) | (have hu := tv; clear hu))
    | assumption
    | rfl
    | apply State.writeReg_held
    | apply State.setBw_held
    | apply ite_h)

theorem State.noteGo_held {s : State} {v : Word} {mx : List Instr × Mem} (hh : s.held = mx) : (State.noteGo s v).held = mx := by
  unfold State.noteGo
  with_reducible repeat' (first
    | (intro _)
    | (extract_lets +onlyGivenNames tv; first | (refine (fun ht : State.held tv = mx => ?_) ?_; clear_value tv; rotate_left; subst tv; rotate_right) | (have hu := tv; clear hu))
    | assumption
    | rfl
    | apply State.writeReg_held
    | apply State.bookAdd_held
    | apply ite_h)

theorem State.weldCmd_held {s : State} {d : Die} {ch : Nat} {v : Word} {mx : List Instr × Mem} (hh : s.held = mx) : (State.weldCmd s d ch v).held = mx := by
  unfold State.weldCmd
  with_reducible repeat' (first
    | (intro _)
    | (extract_lets +onlyGivenNames tv; first | (refine (fun ht : State.held tv = mx => ?_) ?_; clear_value tv; rotate_left; subst tv; rotate_right) | (have hu := tv; clear hu))
    | assumption
    | rfl
    | apply State.weldRetrainCmd_held
    | apply State.weldRemapCmd_held
    | apply State.weldCommitCmd_held
    | apply ite_h)

theorem State.capCtrl_held {s : State} {d : Die} {v : Word} {mx : List Instr × Mem} (hh : s.held = mx) : (State.capCtrl s d v).held = mx := by
  unfold State.capCtrl
  with_reducible repeat' (first
    | (intro _)
    | (extract_lets +onlyGivenNames tv; first | (refine (fun ht : State.held tv = mx => ?_) ?_; clear_value tv; rotate_left; subst tv; rotate_right) | (have hu := tv; clear hu))
    | assumption
    | rfl
    | apply State.writeReg_held
    | apply State.captureRequest_held
    | apply State.captureResume_held
    | apply ite_h)

theorem State.coreWrite_ok {s : State} {a : At} {r : Reg} {v : Word} {icls : Nat} {mx : List Instr × Mem} (hh : State.Ok mx s) : State.Ok mx (State.coreWrite s a r v icls) := by
  unfold State.coreWrite
  with_reducible repeat' (first
    | (intro _)
    | (extract_lets +onlyGivenNames tv; first | (refine (fun ht : State.Ok mx tv => ?_) ?_; clear_value tv; rotate_left; subst tv; rotate_right) | (refine (fun ht : State.Ok mx (Prod.fst tv) => ?_) ?_; clear_value tv; rotate_left; subst tv; rotate_right) | (have hu := tv; clear hu))
    | assumption
    | exact ok_rfl
    | refine ok_of (State.put_held rfl) ?_
    | refine ok_of (State.writeReg_held rfl) ?_
    | refine ok_of (State.irq_held rfl) ?_
    | refine ok_of (State.railFlagClear_held rfl) ?_
    | refine ok_of (State.railClear_held rfl) ?_
    | refine ok_of (State.taskSync_held rfl) ?_
    | refine ok_of (State.dcFlush_held rfl) ?_
    | refine ok_of (State.parcelPower_held rfl) ?_
    | refine ok_of (State.writeSetting_held rfl) ?_
    | refine ok_of (State.priorityRequest_held rfl) ?_
    | refine ok_of (State.scrubEnable_held rfl) ?_
    | refine ok_of (State.hostPost_held rfl) ?_
    | refine ok_of (State.tngControl_held rfl) ?_
    | refine ok_of (State.coreCtrl_held rfl) ?_
    | refine ok_of (State.wdogKick_held rfl) ?_
    | refine ok_of (State.wdogCtrl_held rfl) ?_
    | refine ok_of (State.swdCtrl_held rfl) ?_
    | refine ok_of (State.swdKick_held rfl) ?_
    | refine ok_of (State.freezeSys_held rfl) ?_
    | refine ok_of (State.debugRegWrite_held rfl) ?_
    | refine ok_of (State.unitArm_held rfl) ?_
    | refine ok_of (State.pendWrite_held rfl) ?_
    | refine ok_of (State.ptpLock_held rfl) ?_
    | refine ok_of (State.changeCtrl_held rfl) ?_
    | apply State.loadAbort_ok
    | apply State.cfgCmd_ok
    | apply State.dieRequests_ok
    | refine State.haltWrite_ok ?_ ?_
    | apply State.dbgCtrl_ok
    | refine ok_of (State.weldCmd_held rfl) ?_
    | refine ok_of (State.capCtrl_held rfl) ?_
    | apply ite_ok
    | apply foldl_ok
    | apply ite1_ok
    | apply fold1_ok
    | split
    | (clear_value *; split))

theorem State.lineWrite_held {s : State} {a : At} {r : Reg} {v : Word} {mx : List Instr × Mem} (hh : s.held = mx) : (State.lineWrite s a r v).held = mx := by
  unfold State.lineWrite
  with_reducible repeat' (first
    | (intro _)
    | (extract_lets +onlyGivenNames tv; first | (refine (fun ht : State.held tv = mx => ?_) ?_; clear_value tv; rotate_left; subst tv; rotate_right) | (refine (fun ht : State.held (Prod.fst tv) = mx => ?_) ?_; clear_value tv; rotate_left; subst tv; rotate_right) | (have hu := tv; clear hu))
    | assumption
    | rfl
    | apply State.writeReg_held
    | apply State.onLane_held
    | apply State.rclkSync_held
    | apply State.rckWrite_held
    | apply State.laneCmd_held
    | refine State.ifOwn_held ?_ ?_
    | apply State.prbsCtrl_held
    | apply State.lpbkWrite_held
    | apply State.todIncr_held
    | apply State.ppsWrite_held
    | apply State.bufSync_held
    | apply State.spillSync_held
    | refine State.poolWrite_held ?_ ?_
    | apply State.queueCfg_held
    | apply State.jobPost_held
    | apply State.jobFlush_held
    | apply State.pendWrite_held
    | apply State.lkpWrite_held
    | apply State.queueCmd_held
    | apply State.todCtrl_held
    | apply ite_h
    | apply foldl_h
    | apply ite1_h
    | apply fold1_h
    | split
    | (clear_value *; split))

theorem State.memWrite_ok {s : State} {a : At} {r : Reg} {v : Word} {mx : List Instr × Mem} (hh : State.Ok mx s) : State.Ok mx (State.memWrite s a r v) := by
  unfold State.memWrite
  with_reducible repeat' (first
    | (intro _)
    | (extract_lets +onlyGivenNames tv; first | (refine (fun ht : State.Ok mx tv => ?_) ?_; clear_value tv; rotate_left; subst tv; rotate_right) | (refine (fun ht : State.Ok mx (Prod.fst tv) => ?_) ?_; clear_value tv; rotate_left; subst tv; rotate_right) | (have hu := tv; clear hu))
    | assumption
    | exact ok_rfl
    | refine ok_of (State.writeReg_held rfl) ?_
    | refine ok_of (State.rightsWrite_held rfl) ?_
    | refine ok_of (State.regionCfg_held rfl) ?_
    | refine ok_of (State.cxlSize_held rfl) ?_
    | refine ok_of (State.cxlIoGo_held rfl) ?_
    | apply State.cxlCtrl_ok
    | apply State.ddrCmd_ok
    | refine ok_of (State.ddrMode_held rfl) ?_
    | refine ok_of (State.ddrTrnCtrl_held rfl) ?_
    | apply State.ddrCfg_ok
    | refine ok_of (State.pcieReenable_held rfl) ?_
    | refine ok_of (State.ringResume_held rfl) ?_
    | refine ok_of (State.ringCfg_held rfl) ?_
    | apply State.regionCmd_ok
    | apply ite_ok
    | apply foldl_ok
    | apply ite1_ok
    | apply fold1_ok
    | split
    | (clear_value *; split))

theorem State.houseWrite_ok {s : State} {a : At} {r : Reg} {v : Word} {mx : List Instr × Mem} (hh : State.Ok mx s) : State.Ok mx (State.houseWrite s a r v) := by
  unfold State.houseWrite
  with_reducible repeat' (first
    | (intro _)
    | (extract_lets +onlyGivenNames tv; first | (refine (fun ht : State.Ok mx tv => ?_) ?_; clear_value tv; rotate_left; subst tv; rotate_right) | (refine (fun ht : State.Ok mx (Prod.fst tv) => ?_) ?_; clear_value tv; rotate_left; subst tv; rotate_right) | (have hu := tv; clear hu))
    | assumption
    | exact ok_rfl
    | refine ok_of (State.setPmc_held rfl) ?_
    | refine ok_of (State.put_held rfl) ?_
    | refine ok_of (State.writeReg_held rfl) ?_
    | apply State.clkCtrl_ok
    | apply State.gateWrite_ok
    | refine ok_of (State.pmbus_held rfl) ?_
    | refine ok_of (State.pendWrite_held rfl) ?_
    | refine ok_of (State.calCommand_held rfl) ?_
    | refine ok_of (State.bwCfg_held rfl) ?_
    | refine ok_of (State.noteGo_held rfl) ?_
    | apply ite_ok
    | apply foldl_ok
    | apply ite1_ok
    | apply fold1_ok
    | split
    | (clear_value *; split))

theorem State.regWrite_ok {s : State} {a : At} {r : Reg} {v : Word} {icls : Nat} {mx : List Instr × Mem} (hh : State.Ok mx s) : State.Ok mx (State.regWrite s a r v icls) := by
  unfold State.regWrite
  with_reducible repeat' (first
    | (intro _)
    | (extract_lets +onlyGivenNames tv; first | (refine (fun ht : State.Ok mx tv => ?_) ?_; clear_value tv; rotate_left; subst tv; rotate_right) | (refine (fun ht : State.Ok mx (Prod.fst tv) => ?_) ?_; clear_value tv; rotate_left; subst tv; rotate_right) | (have hu := tv; clear hu))
    | assumption
    | exact ok_rfl
    | apply State.coreWrite_ok
    | refine ok_of (State.lineWrite_held rfl) ?_
    | apply State.memWrite_ok
    | apply State.houseWrite_ok
    | apply ite_ok
    | apply foldl_ok
    | apply ite1_ok
    | apply fold1_ok
    | split
    | (clear_value *; split))

theorem State.windowRead_held {s : State} {d : Die} {k : Nat} {mx : List Instr × Mem} (hh : s.held = mx) : (State.windowRead s d k).1.held = mx := by
  unfold State.windowRead
  with_reducible repeat' (first
    | (intro _)
    | (extract_lets +onlyGivenNames tv; first | (refine (fun ht : State.held tv = mx => ?_) ?_; clear_value tv; rotate_left; subst tv; rotate_right) | (refine (fun ht : State.held (Prod.fst tv) = mx => ?_) ?_; clear_value tv; rotate_left; subst tv; rotate_right) | (have hu := tv; clear hu))
    | assumption
    | rfl
    | apply State.used_held
    | refine State.stackAt_heldp ‹_› ?_
    | apply State.stackAt_held
    | apply ite_h
    | apply foldl_h
    | apply ite1_h
    | apply fold1_h
    | split
    | (clear_value *; split))
theorem State.windowRead_heldp {s : State} {d : Die} {k : Nat} {mx : List Instr × Mem} {tv : State} {ov : Word} (he : State.windowRead s d k = (tv, ov)) (hh : s.held = mx) : tv.held = mx := by
  have k := State.windowRead_held (s := s) (d := d) (k := k) hh
  rw [he] at k; exact k

theorem State.regRead_held {s : State} {a : At} {r : Reg} {quiet : Bool} {mx : List Instr × Mem} (hh : s.held = mx) : (State.regRead s a r quiet).1.held = mx := by
  unfold State.regRead
  with_reducible repeat' (first
    | (intro _)
    | (extract_lets +onlyGivenNames tv; first | (refine (fun ht : State.held tv = mx => ?_) ?_; clear_value tv; rotate_left; subst tv; rotate_right) | (have hu := tv; clear hu))
    | assumption
    | rfl
    | refine State.windowRead_heldp ‹_› ?_
    | apply State.windowRead_held
    | apply State.pmcReadLo_held
    | apply State.todRead_held
    | apply State.dipRead_held
    | apply State.readClears_held
    | apply ite_h
    | apply ite1_h
    | split
    | (clear_value *; split))
theorem State.regRead_heldp {s : State} {a : At} {r : Reg} {quiet : Bool} {mx : List Instr × Mem} {tv : State} {ov : Word} (he : State.regRead s a r quiet = (tv, ov)) (hh : s.held = mx) : tv.held = mx := by
  have k := State.regRead_held (s := s) (a := a) (r := r) (quiet := quiet) hh
  rw [he] at k; exact k

theorem State.coreBusy_held {s : State} {d : Die} {mx : List Instr × Mem} (hh : s.held = mx) : (State.coreBusy s d).held = mx := by
  unfold State.coreBusy
  with_reducible repeat' (first
    | assumption
    | rfl
    | apply State.bump_held)

theorem State.ctlWrite_ok {s : State} {d : Die} {o : Nat} {v : Word} {icls : Nat} {mx : List Instr × Mem} (hh : State.Ok mx s) : State.Ok mx (State.ctlWrite s d o v icls).1 := by
  unfold State.ctlWrite
  with_reducible repeat' (first
    | (intro _)
    | assumption
    | exact ok_rfl
    | refine ok_of (State.coreBusy_held rfl) ?_
    | apply State.regWrite_ok
    | apply ite_ok
    | apply ite1_ok
    | split)
theorem State.ctlWrite_okp {s : State} {d : Die} {o : Nat} {v : Word} {icls : Nat} {mx : List Instr × Mem} {tv : State} {ov : Nat} (he : State.ctlWrite s d o v icls = (tv, ov)) (hh : State.Ok mx s) : State.Ok mx tv := by
  have k := State.ctlWrite_ok (s := s) (d := d) (o := o) (v := v) (icls := icls) hh
  rw [he] at k; exact k

theorem State.ctlRead_held {s : State} {d : Die} {o : Nat} {icls : Nat} {mx : List Instr × Mem} (hh : s.held = mx) : (State.ctlRead s d o icls).1.held = mx := by
  unfold State.ctlRead
  with_reducible repeat' (first
    | (intro _)
    | (extract_lets +onlyGivenNames tv; refine (fun ht : State.held tv = mx => ?_) ?_; clear_value tv; rotate_left; subst tv; rotate_right)
    | assumption
    | rfl
    | apply State.ringRead_held
    | apply State.coreBusy_held
    | refine State.regRead_heldp ‹_› ?_
    | apply State.regRead_held
    | apply ite_h
    | apply ite1_h
    | split
    | (clear_value *; split))
theorem State.ctlRead_heldp {s : State} {d : Die} {o : Nat} {icls : Nat} {mx : List Instr × Mem} {tv : State} {ov : Nat × Word} (he : State.ctlRead s d o icls = (tv, ov)) (hh : s.held = mx) : tv.held = mx := by
  have k := State.ctlRead_held (s := s) (d := d) (o := o) (icls := icls) hh
  rw [he] at k; exact k

theorem execRegisterWrite_ok {die : Die} {offset : Word} {value : Word} {icls : BitVec 3} {s : State} {mx : List Instr × Mem} (hh : State.Ok mx s) : ∃ tv, execRegisterWrite die offset value icls s = .next tv ∧ State.Ok mx tv := by
  unfold execRegisterWrite
  with_reducible repeat' (first
    | (extract_lets +onlyGivenNames tv; first | (refine (fun ht : State.Ok mx tv => ?_) ?_; clear_value tv; rotate_left; subst tv; rotate_right) | (refine (fun ht : State.Ok mx (Prod.fst tv) => ?_) ?_; clear_value tv; rotate_left; subst tv; rotate_right) | (have hu := tv; clear hu))
    | assumption
    | exact ok_rfl
    | apply next_ok
    | refine State.ctlWrite_okp ‹_› ?_
    | apply State.ctlWrite_ok
    | refine ok_of (State.setAnswerStatus_held rfl) ?_)

theorem State.ctlServe_ok {s : State} {r : NocReq} {d : Die} {o : Nat} {mx : List Instr × Mem} (hh : State.Ok mx s) : State.Ok mx (State.ctlServe s r d o) := by
  unfold State.ctlServe
  with_reducible repeat' (first
    | (intro _)
    | (extract_lets +onlyGivenNames tv; have hu := tv; clear hu)
    | assumption
    | exact ok_rfl
    | refine ok_of (State.ctlRead_heldp ‹_› rfl) ?_
    | refine ok_of (State.ctlRead_held rfl) ?_
    | refine ok_of (State.respond_held rfl) ?_
    | refine State.ctlWrite_okp ‹_› ?_
    | apply State.ctlWrite_ok
    | apply ite_ok)

theorem State.slotsRead_held {s : State} {d : Die} {g w : Nat} {q : Bool} {a n : Nat} {mx : List Instr × Mem} (hh : s.held = mx) :
    (State.slotsRead s d g w q a n).1.held = mx := by
  induction n generalizing s a with
  | zero => exact hh
  | succ n ih => rw [State.slotsRead]; exact ih (State.slotRead_held hh)

theorem State.slotWrite_ok {s : State} {d : Die} {g : Nat} {a : Nat} {bytes : Nat} {v : Nat} {mask : Nat} {mx : List Instr × Mem} (hh : State.Ok mx s) : State.Ok mx (State.slotWrite s d g a bytes v mask) := by
  unfold State.slotWrite
  with_reducible repeat' (first
    | (intro _)
    | (extract_lets +onlyGivenNames tv; first | (refine (fun ht : State.Ok mx tv => ?_) ?_; clear_value tv; rotate_left; subst tv; rotate_right) | (refine (fun ht : State.Ok mx (Prod.fst tv) => ?_) ?_; clear_value tv; rotate_left; subst tv; rotate_right) | (have hu := tv; clear hu))
    | assumption
    | exact ok_rfl
    | refine ok_of (State.setChk_held rfl) ?_
    | apply State.setEccData_ok
    | apply State.eccWrite_ok
    | refine ok_of (State.slotRead_heldp ‹_› rfl) ?_
    | refine ok_of (State.slotRead_held rfl) ?_
    | refine ok_of (State.unreserve_held rfl) ?_
    | apply ite_ok
    | apply foldl_ok
    | apply ite1_ok
    | apply fold1_ok
    | split
    | (clear_value *; split))

theorem State.slotsWrite_ok {s : State} {d : Die} {g w b a v m n : Nat} {mx : List Instr × Mem} (hh : State.Ok mx s) :
    State.Ok mx (State.slotsWrite s d g w b a v m n) := by
  induction n generalizing s a v m with
  | zero => exact hh
  | succ n ih => rw [State.slotsWrite]; exact ih (State.slotWrite_ok hh)

theorem State.slotServe_ok {s : State} {r : NocReq} {d : Die} {g : Nat} {a : Nat} {width : Nat} {bytes : Nat} {mx : List Instr × Mem} (hh : State.Ok mx s) : State.Ok mx (State.slotServe s r d g a width bytes) := by
  unfold State.slotServe
  with_reducible repeat' (first
    | (intro _)
    | (extract_lets +onlyGivenNames tv; have hu := tv; clear hu)
    | assumption
    | exact ok_rfl
    | refine ok_of (State.slotsRead_heldp ‹_› rfl) ?_
    | refine ok_of (State.slotsRead_held rfl) ?_
    | refine ok_of (State.respond_held rfl) ?_
    | apply State.slotsWrite_ok
    | apply ite_ok)

theorem State.windowServe_ok {s : State} {r : NocReq} {o : Nat} {mx : List Instr × Mem} (hh : State.Ok mx s) : State.Ok mx (State.windowServe s r o) := by
  unfold State.windowServe
  with_reducible repeat' (first
    | (intro _)
    | (extract_lets +onlyGivenNames tv; first | (refine (fun ht : State.Ok mx tv => ?_) ?_; clear_value tv; rotate_left; subst tv; rotate_right) | (refine (fun ht : State.Ok mx (Prod.fst tv) => ?_) ?_; clear_value tv; rotate_left; subst tv; rotate_right) | (have hu := tv; clear hu))
    | assumption
    | exact ok_rfl
    | refine ok_of (State.respond_held rfl) ?_
    | refine ok_of (State.onCfg_held rfl) ?_
    | apply State.windowWrite_ok
    | apply ite_ok
    | apply foldl_ok
    | apply ite1_ok
    | apply fold1_ok
    | split
    | (clear_value *; split))

theorem State.fencedAnswer_held {s : State} {r : NocReq} {d : Die} {mx : List Instr × Mem} (hh : s.held = mx) : (State.fencedAnswer s r d).held = mx := by
  unfold State.fencedAnswer
  with_reducible repeat' (first
    | (intro _)
    | assumption
    | rfl
    | apply State.bump_held
    | apply State.respond_held
    | apply ite_h
    | apply foldl_h
    | apply ite1_h
    | apply fold1_h
    | split
    | (clear_value *; split))

theorem State.targetServe_ok {s : State} {r : NocReq} {check : MemCheck} {t : Target} {mx : List Instr × Mem} (hh : State.Ok mx s) : State.Ok mx (State.targetServe s r check t) := by
  unfold State.targetServe
  with_reducible repeat' (first
    | (intro _)
    | assumption
    | exact ok_rfl
    | refine ok_of (State.portTake_held rfl) ?_
    | refine ok_of (State.respond_held rfl) ?_
    | apply State.defineRange_ok
    | apply State.cxlRequest_ok
    | apply State.ddrRequest_ok
    | refine ok_of (State.coreBusy_held rfl) ?_
    | apply State.ctlServe_ok
    | apply State.slotServe_ok
    | apply State.windowServe_ok
    | refine ok_of (State.fencedAnswer_held rfl) ?_
    | apply ite_ok
    | apply foldl_ok
    | apply ite1_ok
    | apply fold1_ok
    | split
    | (clear_value *; split))

theorem execNocTargetRequest_ok {r : NocReq} {check : MemCheck} {badEcc : Bool} {s : State} {mx : List Instr × Mem} (hh : State.Ok mx s) : ∃ tv, execNocTargetRequest r check badEcc s = .next tv ∧ State.Ok mx tv := by
  unfold execNocTargetRequest
  with_reducible repeat' (first
    | (intro _)
    | (extract_lets +onlyGivenNames tv; first | (refine (fun ht : State.Ok mx tv => ?_) ?_; clear_value tv; rotate_left; subst tv; rotate_right) | (refine (fun ht : State.Ok mx (Prod.fst tv) => ?_) ?_; clear_value tv; rotate_left; subst tv; rotate_right) | (have hu := tv; clear hu))
    | assumption
    | exact ok_rfl
    | apply next_ok
    | refine ok_of (State.bwCount_held rfl) ?_
    | refine ok_of (State.respond_held rfl) ?_
    | apply State.targetServe_ok
    | apply ite_ok
    | apply foldl_ok
    | apply ite1_ok
    | apply fold1_ok
    | split
    | (clear_value *; split))

theorem State.mgtDiscard_held {s : State} {dropped : Bool} {mx : List Instr × Mem} (hh : s.held = mx) : (State.mgtDiscard s dropped).held = mx := by
  unfold State.mgtDiscard
  with_reducible repeat' (first
    | (intro _)
    | assumption
    | rfl
    | apply State.bump_held
    | apply State.setMgt_held)

theorem State.mgtAccess_ok {s : State} {kind : Nat} {addr : Nat} {v : Word} {mx : List Instr × Mem} (hh : State.Ok mx s) : State.Ok mx (State.mgtAccess s kind addr v) := by
  unfold State.mgtAccess
  with_reducible repeat' (first
    | (intro _)
    | (extract_lets +onlyGivenNames tv; first | (refine (fun ht : State.Ok mx tv => ?_) ?_; clear_value tv; rotate_left; subst tv; rotate_right) | (refine (fun ht : State.Ok mx (Prod.fst tv) => ?_) ?_; clear_value tv; rotate_left; subst tv; rotate_right) | (have hu := tv; clear hu))
    | assumption
    | exact ok_rfl
    | apply State.request_ok
    | refine ok_of (State.mgtAnswer_held rfl) ?_
    | refine ok_of (State.ctlRead_heldp ‹_› rfl) ?_
    | refine ok_of (State.ctlRead_held rfl) ?_
    | refine State.ctlWrite_okp ‹_› ?_
    | apply State.ctlWrite_ok
    | apply ite_ok
    | apply ite1_ok
    | split
    | (clear_value *; split))

theorem State.mgtAccept_held {s : State} {burst : Bool} {addr : Nat} {mx : List Instr × Mem} (hh : s.held = mx) : (State.mgtAccept s burst addr).held = mx := by
  unfold State.mgtAccept
  with_reducible repeat' (first
    | assumption
    | rfl
    | apply State.setMgt_held)

theorem State.mgtSingle_ok {s : State} {kind : Nat} {addr : Nat} {v : Word} {fits : Bool} {known : Bool} {mx : List Instr × Mem} (hh : State.Ok mx s) : State.Ok mx (State.mgtSingle s kind addr v fits known) := by
  unfold State.mgtSingle
  with_reducible repeat' (first
    | (intro _)
    | assumption
    | exact ok_rfl
    | refine ok_of (State.mgtDiscard_held rfl) ?_
    | refine ok_of (State.mgtAccept_held rfl) ?_
    | apply State.mgtAccess_ok
    | apply ite_ok)

theorem execMgtWrite_ok {addr : BitVec 48} {data : Word} {bits : BitVec 16} {known : Bool} {s : State} {mx : List Instr × Mem} (hh : State.Ok mx s) : ∃ tv, execMgtWrite addr data bits known s = .next tv ∧ State.Ok mx tv := by
  unfold execMgtWrite
  with_reducible repeat' (first
    | assumption
    | exact ok_rfl
    | apply next_ok
    | apply State.mgtSingle_ok)

theorem execMgtRead_ok {addr : BitVec 48} {bits : BitVec 16} {s : State} {mx : List Instr × Mem} (hh : State.Ok mx s) : ∃ tv, execMgtRead addr bits s = .next tv ∧ State.Ok mx tv := by
  unfold execMgtRead
  with_reducible repeat' (first
    | assumption
    | exact ok_rfl
    | apply next_ok
    | apply State.mgtSingle_ok)

theorem State.burstEnd_held {s : State} {mx : List Instr × Mem} (hh : s.held = mx) : (State.burstEnd s).held = mx := by
  unfold State.burstEnd
  with_reducible repeat' (first
    | assumption
    | rfl
    | apply State.setMgt_held)

theorem execMgtBurst_held {addr : BitVec 48} {whole : Bool} {ends : Bool} {s : State} {mx : List Instr × Mem} (hh : s.held = mx) : ∃ tv, execMgtBurst addr whole ends s = .next tv ∧ tv.held = mx := by
  unfold execMgtBurst
  with_reducible repeat' (first
    | (intro _)
    | (extract_lets +onlyGivenNames tv; first | (refine (fun ht : State.held tv = mx => ?_) ?_; clear_value tv; rotate_left; subst tv; rotate_right) | (have hu := tv; clear hu))
    | assumption
    | rfl
    | apply next_h
    | apply State.mgtDiscard_held
    | apply State.mgtAccept_held
    | apply State.burstEnd_held
    | apply ite_h)

theorem State.burstWord_ok {s : State} {v : Word} {mx : List Instr × Mem} (hh : State.Ok mx s) : State.Ok mx (State.burstWord s v) := by
  unfold State.burstWord
  with_reducible repeat' (first
    | (intro _)
    | (extract_lets +onlyGivenNames tv; first | (refine (fun ht : State.Ok mx tv => ?_) ?_; clear_value tv; rotate_left; subst tv; rotate_right) | (have hu := tv; clear hu))
    | assumption
    | exact ok_rfl
    | refine ok_of (State.setMgt_held rfl) ?_
    | apply State.mgtAccess_ok
    | refine ok_of (State.bump_held rfl) ?_
    | apply ite_ok)

theorem execMgtBurstWord_ok {value : Word} {bits : Fin 33} {ends : Bool} {s : State} {mx : List Instr × Mem} (hh : State.Ok mx s) : ∃ tv, execMgtBurstWord value bits ends s = .next tv ∧ State.Ok mx tv := by
  unfold execMgtBurstWord
  with_reducible repeat' (first
    | (intro _)
    | (extract_lets +onlyGivenNames tv; first | (refine (fun ht : State.Ok mx tv => ?_) ?_; clear_value tv; rotate_left; subst tv; rotate_right) | (have hu := tv; clear hu))
    | assumption
    | exact ok_rfl
    | apply next_ok
    | apply State.burstWord_ok
    | refine ok_of (State.bump_held rfl) ?_
    | refine ok_of (State.setMgt_held rfl) ?_
    | refine ok_of (State.burstEnd_held rfl) ?_
    | apply ite_ok
    | (clear_value *; split))

theorem execMgtResult_held {s : State} {mx : List Instr × Mem} (hh : s.held = mx) : ∃ tv, execMgtResult s = .next tv ∧ tv.held = mx := by
  unfold execMgtResult
  with_reducible repeat' (first
    | (intro _)
    | (extract_lets +onlyGivenNames tv; have hu := tv; clear hu)
    | assumption
    | rfl
    | apply next_h
    | apply State.setAnswer_held
    | apply State.emit_held
    | apply ite_h)

theorem execBar0Access_ok {write : Bool} {offset : BitVec 26} {bytes : BitVec 13} {value : Word} {s : State} {mx : List Instr × Mem} (hh : State.Ok mx s) : ∃ tv, execBar0Access write offset bytes value s = .next tv ∧ State.Ok mx tv := by
  unfold execBar0Access
  with_reducible repeat' (first
    | (intro _)
    | (extract_lets +onlyGivenNames tv; first | (refine (fun ht : State.Ok mx tv => ?_) ?_; clear_value tv; rotate_left; subst tv; rotate_right) | (have hu := tv; clear hu))
    | assumption
    | exact ok_rfl
    | apply next_ok
    | refine ok_of (State.bump_held rfl) ?_
    | refine ok_of (State.emit_held rfl) ?_
    | apply State.request_ok
    | apply ite_ok)

theorem State.keysDraw_held {s : State} {mx : List Instr × Mem} (hh : s.held = mx) : (State.keysDraw s).held = mx := by
  unfold State.keysDraw
  with_reducible repeat' (first
    | (intro _)
    | assumption
    | rfl
    | apply State.setKeyStore_held
    | apply State.used_held
    | apply ite_h
    | apply foldl_h
    | apply ite1_h
    | apply fold1_h
    | split
    | (clear_value *; split))

theorem State.keysLoad_held {s : State} {works : Bool} {mx : List Instr × Mem} (hh : s.held = mx) : (State.keysLoad s works).held = mx := by
  unfold State.keysLoad
  with_reducible repeat' (first
    | (intro _)
    | assumption
    | rfl
    | apply State.put_held
    | apply State.raise_held
    | apply State.keysDraw_held
    | apply ite_h
    | apply foldl_h
    | apply ite1_h
    | apply fold1_h
    | split
    | (clear_value *; split))

theorem State.calPair_ok {s : State} {p : Addr × Word} {mx : List Instr × Mem} (hh : State.Ok mx s) : State.Ok mx (State.calPair s p) := by
  unfold State.calPair
  with_reducible repeat' (first
    | (intro _)
    | (extract_lets +onlyGivenNames tv; first | (refine (fun ht : State.Ok mx tv => ?_) ?_; clear_value tv; rotate_left; subst tv; rotate_right) | (refine (fun ht : State.Ok mx (Prod.fst tv) => ?_) ?_; clear_value tv; rotate_left; subst tv; rotate_right) | (have hu := tv; clear hu))
    | assumption
    | exact ok_rfl
    | refine State.ctlWrite_okp ‹_› ?_
    | apply State.ctlWrite_ok
    | refine ok_of (State.bump_held rfl) ?_
    | apply ite_ok
    | apply ite1_ok
    | split
    | (clear_value *; split))

theorem execCalibrationApply_ok {flash : Bool} {keys : Bool} {copy : Option CalCopy} {s : State} {mx : List Instr × Mem} (hh : State.Ok mx s) : ∃ tv, execCalibrationApply flash keys copy s = .next tv ∧ State.Ok mx tv := by
  unfold execCalibrationApply
  with_reducible repeat' (first
    | (intro _)
    | (extract_lets +onlyGivenNames tv; first | (refine (fun ht : State.Ok mx tv => ?_) ?_; clear_value tv; rotate_left; subst tv; rotate_right) | (have hu := tv; clear hu))
    | assumption
    | exact ok_rfl
    | apply next_ok
    | refine ok_of (State.keysLoad_held rfl) ?_
    | refine ok_of (State.setCal_held rfl) ?_
    | refine ok_of (State.puts_held rfl) ?_
    | apply State.calPair_ok
    | apply ite_ok
    | apply foldl_ok
    | apply ite1_ok
    | apply fold1_ok
    | split
    | (clear_value *; split))

theorem execPrbsCheckerSync_held {die : PDie} {lane : Fin 48} {s : State} {mx : List Instr × Mem} (hh : s.held = mx) : ∃ tv, execPrbsCheckerSync die lane s = .next tv ∧ tv.held = mx := by
  unfold execPrbsCheckerSync
  with_reducible repeat' (first
    | (intro _)
    | (extract_lets +onlyGivenNames tv; have hu := tv; clear hu)
    | assumption
    | rfl
    | apply next_h
    | apply State.put_held
    | apply ite_h)

theorem execPrbsCountSaturated_held {die : PDie} {lane : Fin 48} {errors : Bool} {s : State} {mx : List Instr × Mem} (hh : s.held = mx) : ∃ tv, execPrbsCountSaturated die lane errors s = .next tv ∧ tv.held = mx := by
  unfold execPrbsCountSaturated
  with_reducible repeat' (first
    | (intro _)
    | (extract_lets +onlyGivenNames tv; first | (refine (fun ht : State.held tv = mx => ?_) ?_; clear_value tv; rotate_left; subst tv; rotate_right) | (have hu := tv; clear hu))
    | assumption
    | rfl
    | apply next_h
    | apply State.onLane_held
    | apply State.raise_held
    | apply ite_h
    | (clear_value *; split))

end Sys2Proof.Machine
end

