-- ==== Sys2Proof/Laws/HeldRawLanes.lean ====
section
/-! SUPPORT. For each operation of Machine/RawLanes.lean: the queue and the memory it keeps (`_held`), or, where it stores, that the queue stays and the memory keeps its canonical form (`_ok`). -/

namespace Sys2Proof.Machine
open Sys2Proof
set_option linter.tactic.unusedName false

theorem State.rawEvent_held {s : State} {d : Die} {l : Nat} {what : Nat} {mx : List Instr × Mem} (hh : s.held = mx) : (State.rawEvent s d l what).held = mx := by
  unfold State.rawEvent
  with_reducible repeat' (first
    | (intro _)
    | (extract_lets +onlyGivenNames tv; first | (refine (fun ht : State.held tv = mx => ?_) ?_; clear_value tv; rotate_left; subst tv; rotate_right) | (refine (fun ht : State.held (Prod.fst tv) = mx => ?_) ?_; clear_value tv; rotate_left; subst tv; rotate_right) | (have hu := tv; clear hu))
    | assumption
    | rfl
    | apply State.onceStart_held
    | apply State.raise_held
    | apply ite_h
    | apply foldl_h
    | apply ite1_h
    | apply fold1_h
    | split
    | (clear_value *; split))

theorem State.rawSend_held {s : State} {d : Die} {l : Nat} {w : BitVec 128} {fill : Bool} {mx : List Instr × Mem} (hh : s.held = mx) : (State.rawSend s d l w fill).held = mx := by
  unfold State.rawSend
  with_reducible repeat' (first
    | (intro _)
    | assumption
    | rfl
    | apply State.emit_held
    | apply ite_h
    | apply foldl_h
    | apply ite1_h
    | apply fold1_h
    | split
    | (clear_value *; split))

theorem State.rawLaunch_held {s : State} {d : Die} {l : Nat} {word : Option (BitVec 128)} {mx : List Instr × Mem} (hh : s.held = mx) : (State.rawLaunch s d l word).held = mx := by
  unfold State.rawLaunch
  with_reducible repeat' (first
    | (intro _)
    | (extract_lets +onlyGivenNames tv; first | (refine (fun ht : State.held tv = mx => ?_) ?_; clear_value tv; rotate_left; subst tv; rotate_right) | (refine (fun ht : State.held (Prod.fst tv) = mx => ?_) ?_; clear_value tv; rotate_left; subst tv; rotate_right) | (have hu := tv; clear hu))
    | assumption
    | rfl
    | apply State.seamLaunch_held
    | apply ite_h
    | apply foldl_h
    | apply ite1_h
    | apply fold1_h
    | split
    | (clear_value *; split))

theorem State.rawCycle_held {s : State} {d : Die} {l : Nat} {word : Option (BitVec 128)} {mx : List Instr × Mem} (hh : s.held = mx) : (State.rawCycle s d l word).held = mx := by
  unfold State.rawCycle
  with_reducible repeat' (first
    | (intro _)
    | (extract_lets +onlyGivenNames tv; first | (refine (fun ht : State.held tv = mx => ?_) ?_; clear_value tv; rotate_left; subst tv; rotate_right) | (refine (fun ht : State.held (Prod.fst tv) = mx => ?_) ?_; clear_value tv; rotate_left; subst tv; rotate_right) | (have hu := tv; clear hu))
    | assumption
    | rfl
    | apply State.bump_held
    | apply State.emit_held
    | apply State.onLane_held
    | apply State.rawEvent_held
    | apply State.rawLaunch_held
    | apply ite_h
    | apply foldl_h
    | apply ite1_h
    | apply fold1_h
    | split
    | (clear_value *; split))

theorem execRawWordFromFabric_held {die : PDie} {lane : Fin 48} {word : Option (BitVec 128)} {s : State} {mx : List Instr × Mem} (hh : s.held = mx) : ∃ tv, execRawWordFromFabric die lane word s = .next tv ∧ tv.held = mx := by
  unfold execRawWordFromFabric
  with_reducible repeat' (first
    | (intro _)
    | assumption
    | rfl
    | apply next_h
    | apply State.rawCycle_held
    | apply ite_h
    | apply foldl_h
    | apply ite1_h
    | apply fold1_h
    | split
    | (clear_value *; split))

theorem State.rawEdge_held {s : State} {d : Die} {l : Nat} {mx : List Instr × Mem} (hh : s.held = mx) : (State.rawEdge s d l).held = mx := by
  unfold State.rawEdge
  with_reducible repeat' (first
    | (intro _)
    | (extract_lets +onlyGivenNames tv; first | (refine (fun ht : State.held tv = mx => ?_) ?_; clear_value tv; rotate_left; subst tv; rotate_right) | (refine (fun ht : State.held (Prod.fst tv) = mx => ?_) ?_; clear_value tv; rotate_left; subst tv; rotate_right) | (have hu := tv; clear hu))
    | assumption
    | rfl
    | apply State.seamCapture_held
    | apply State.rawCycle_held
    | apply ite_h
    | apply foldl_h
    | apply ite1_h
    | apply fold1_h
    | split
    | (clear_value *; split))

theorem State.rawTake_held {s : State} {d : Die} {l : Nat} {word : BitVec 128} {mx : List Instr × Mem} (hh : s.held = mx) : (State.rawTake s d l word).held = mx := by
  unfold State.rawTake
  with_reducible repeat' (first
    | (intro _)
    | assumption
    | rfl
    | apply State.bump_held
    | apply State.onLane_held
    | apply State.rawEvent_held
    | apply ite_h
    | apply foldl_h
    | apply ite1_h
    | apply fold1_h
    | split
    | (clear_value *; split))

theorem execRawWordReceived_held {die : PDie} {lane : Fin 48} {word : BitVec 128} {s : State} {mx : List Instr × Mem} (hh : s.held = mx) : ∃ tv, execRawWordReceived die lane word s = .next tv ∧ tv.held = mx := by
  unfold execRawWordReceived
  with_reducible repeat' (first
    | (intro _)
    | (extract_lets +onlyGivenNames tv; first | (refine (fun ht : State.held tv = mx => ?_) ?_; clear_value tv; rotate_left; subst tv; rotate_right) | (refine (fun ht : State.held (Prod.fst tv) = mx => ?_) ?_; clear_value tv; rotate_left; subst tv; rotate_right) | (have hu := tv; clear hu))
    | assumption
    | rfl
    | apply next_h
    | apply State.rawSend_held
    | apply State.rawTake_held
    | apply ite_h
    | apply foldl_h
    | apply ite1_h
    | apply fold1_h
    | split
    | (clear_value *; split))

theorem State.rawOut_held {s : State} {d : Die} {l : Nat} {w : BitVec 128} {fill : Bool} {mx : List Instr × Mem} (hh : s.held = mx) : (State.rawOut s d l w fill).held = mx := by
  unfold State.rawOut
  with_reducible repeat' (first
    | (intro _)
    | assumption
    | rfl
    | apply State.rawSend_held
    | apply State.rawTake_held
    | apply ite_h
    | apply foldl_h
    | apply ite1_h
    | apply fold1_h
    | split
    | (clear_value *; split))

theorem execRawFillWord_held {die : PDie} {lane : Fin 48} {s : State} {mx : List Instr × Mem} (hh : s.held = mx) : ∃ tv, execRawFillWord die lane s = .next tv ∧ tv.held = mx := by
  unfold execRawFillWord
  with_reducible repeat' (first
    | (intro _)
    | (extract_lets +onlyGivenNames tv; first | (refine (fun ht : State.held tv = mx => ?_) ?_; clear_value tv; rotate_left; subst tv; rotate_right) | (refine (fun ht : State.held (Prod.fst tv) = mx => ?_) ?_; clear_value tv; rotate_left; subst tv; rotate_right) | (have hu := tv; clear hu))
    | assumption
    | rfl
    | apply next_h
    | apply State.bump_held
    | apply State.onLane_held
    | apply State.rawEvent_held
    | apply State.rawTake_held
    | apply State.rawOut_held
    | apply ite_h
    | apply foldl_h
    | apply ite1_h
    | apply fold1_h
    | split
    | (clear_value *; split))

theorem State.rawsOnEdge_held {t : State} {o : State} {d : Die} {edges : Nat → List (Nat × Bool)} {mx : List Instr × Mem} (hh : t.held = mx) : (State.rawsOnEdge t o d edges).held = mx := by
  unfold State.rawsOnEdge
  with_reducible repeat' (first
    | (intro _)
    | (extract_lets +onlyGivenNames tv; first | (refine (fun ht : State.held tv = mx => ?_) ?_; clear_value tv; rotate_left; subst tv; rotate_right) | (refine (fun ht : State.held (Prod.fst tv) = mx => ?_) ?_; clear_value tv; rotate_left; subst tv; rotate_right) | (have hu := tv; clear hu))
    | assumption
    | rfl
    | apply State.rawEdge_held
    | apply ite_h
    | apply foldl_h
    | apply ite1_h
    | apply fold1_h
    | split
    | (clear_value *; split))

theorem State.clockEdge_held {o : State} {d : Die} {src : ClkSrc} {rising : Bool} {mx : List Instr × Mem} (hh : o.held = mx) : (State.clockEdge o d src rising).held = mx := by
  unfold State.clockEdge
  with_reducible repeat' (first
    | (intro _)
    | (extract_lets +onlyGivenNames tv; first | (refine (fun ht : State.held tv = mx => ?_) ?_; clear_value tv; rotate_left; subst tv; rotate_right) | (refine (fun ht : State.held (Prod.fst tv) = mx => ?_) ?_; clear_value tv; rotate_left; subst tv; rotate_right) | (have hu := tv; clear hu))
    | assumption
    | rfl
    | apply State.clusterEdge_held
    | apply State.bramOnEdge_held
    | apply State.multOnEdge_held
    | apply State.seamsOnEdge_held
    | apply State.netsMove_held
    | apply State.portsOnEdge_held
    | apply State.rawsOnEdge_held
    | apply ite_h
    | apply foldl_h
    | apply ite1_h
    | apply fold1_h
    | split
    | (clear_value *; split))

theorem execFlipFlopClockEdge_held {die : FDie} {src : ClkSrc} {rising : Bool} {inputs : List FabInput} {s : State} {mx : List Instr × Mem} (hh : s.held = mx) : ∃ tv, execFlipFlopClockEdge die src rising inputs s = .next tv ∧ tv.held = mx := by
  unfold execFlipFlopClockEdge
  with_reducible repeat' (first
    | (intro _)
    | (extract_lets +onlyGivenNames tv; first | (refine (fun ht : State.held tv = mx => ?_) ?_; clear_value tv; rotate_left; subst tv; rotate_right) | (refine (fun ht : State.held (Prod.fst tv) = mx => ?_) ?_; clear_value tv; rotate_left; subst tv; rotate_right) | (have hu := tv; clear hu))
    | assumption
    | rfl
    | apply next_h
    | apply State.railSettle_held
    | apply State.present_held
    | apply State.clockEdge_held
    | apply ite_h
    | apply foldl_h
    | apply ite1_h
    | apply fold1_h
    | split
    | (clear_value *; split))

end Sys2Proof.Machine
end

