-- ==== Sys2Proof/Laws/HeldMasters.lean ====
section
/-! SUPPORT. For each operation of Machine/Masters.lean: the queue and the memory it keeps (`_held`), or, where it stores, that the queue stays and the memory keeps its canonical form (`_ok`). -/

namespace Sys2Proof.Machine
open Sys2Proof
set_option linter.tactic.unusedName false

theorem State.engineAccess_ok {s : State} {r : NocReq} {status : Nat} {late : Option Nat} {mx : List Instr × Mem} (hh : State.Ok mx s) : State.Ok mx (State.engineAccess s r status late).1 := by
  unfold State.engineAccess
  with_reducible repeat' (first
    | (intro _)
    | (extract_lets +onlyGivenNames tv; first | (refine (fun ht : State.Ok mx tv => ?_) ?_; clear_value tv; rotate_left; subst tv; rotate_right) | (refine (fun ht : State.Ok mx (Prod.fst tv) => ?_) ?_; clear_value tv; rotate_left; subst tv; rotate_right) | (have hu := tv; clear hu))
    | assumption
    | exact ok_rfl
    | refine ok_of (State.bump_held rfl) ?_
    | refine ok_of (State.used_held rfl) ?_
    | refine ok_of (State.emit_held rfl) ?_
    | refine ok_of (State.bwCount_held rfl) ?_
    | apply State.request_ok
    | apply State.cxlResponse_ok
    | apply State.targetServe_ok
    | apply ite_ok
    | apply foldl_ok
    | apply ite1_ok
    | apply fold1_ok
    | split
    | (clear_value *; split))
theorem State.engineAccess_okp {s : State} {r : NocReq} {status : Nat} {late : Option Nat} {mx : List Instr × Mem} {tv : State} {ov : Nat × Nat} (he : State.engineAccess s r status late = (tv, ov)) (hh : State.Ok mx s) : State.Ok mx tv := by
  have k := State.engineAccess_ok (s := s) (r := r) (status := status) (late := late) hh
  rw [he] at k; exact k

theorem State.engineRead_ok {src icls cls : Nat} {l : List (Nat × Nat × Nat)} {s : State} {b : List Nat} {mx : List Instr × Mem} (hh : State.Ok mx s) : State.Ok mx (State.engineRead src icls cls l s b).1 := by
  induction l generalizing s b with
  | nil => exact hh
  | cons e t ih =>
    obtain ⟨a, z, n⟩ := e
    unfold State.engineRead
    simp only []
    have h := State.engineAccess_ok (s := s) (r := engineReq src icls cls false a z 0 0) (status := 0) (late := none) hh
    split
    · exact h
    · exact ih h
theorem State.engineRead_okp {src icls cls : Nat} {l : List (Nat × Nat × Nat)} {s : State} {b : List Nat} {mx : List Instr × Mem} {tv : State} {ov : List Nat × Nat} (he : State.engineRead src icls cls l s b = (tv, ov)) (hh : State.Ok mx s) : State.Ok mx tv := by
  have k := State.engineRead_ok (src := src) (icls := icls) (cls := cls) (l := l) (s := s) (b := b) hh
  rw [he] at k; exact k

theorem State.engineWrite_ok {src icls cls : Nat} {l : List (Nat × Nat × Nat)} {s : State} {b : List Nat} {k : Nat} {mx : List Instr × Mem} (hh : State.Ok mx s) : State.Ok mx (State.engineWrite src icls cls l s b k).1 := by
  induction l generalizing s b k with
  | nil => exact hh
  | cons e t ih =>
    obtain ⟨a, z, n⟩ := e
    unfold State.engineWrite
    simp only []
    have h := State.engineAccess_ok (s := s) (r := engineReq src icls cls true a z (ofBytesLE (b.take n)) (2 ^ n - 1)) (status := 0) (late := none) hh
    split
    · exact h
    · exact ih h
theorem State.engineWrite_okp {src icls cls : Nat} {l : List (Nat × Nat × Nat)} {s : State} {b : List Nat} {k : Nat} {mx : List Instr × Mem} {tv : State} {ov : Nat × Nat} (he : State.engineWrite src icls cls l s b k = (tv, ov)) (hh : State.Ok mx s) : State.Ok mx tv := by
  have k := State.engineWrite_ok (src := src) (icls := icls) (cls := cls) (l := l) (s := s) (b := b) (k := k) hh
  rw [he] at k; exact k

theorem State.bulkOne_held {s : State} {d : Die} {record : Nat} {abort : Option Nat} {mx : List Instr × Mem} (hh : s.held = mx) : (State.bulkOne s d record abort).1.held = mx := by
  unfold State.bulkOne
  with_reducible repeat' (first
    | (intro _)
    | (extract_lets +onlyGivenNames tv; first | (refine (fun ht : State.held tv = mx => ?_) ?_; clear_value tv; rotate_left; subst tv; rotate_right) | (refine (fun ht : State.held (Prod.fst tv) = mx => ?_) ?_; clear_value tv; rotate_left; subst tv; rotate_right) | (have hu := tv; clear hu))
    | assumption
    | rfl
    | refine State.lkpInsert_heldp ‹_› ?_
    | apply State.lkpInsert_held
    | refine State.lkpDelete_heldp ‹_› ?_
    | apply State.lkpDelete_held
    | refine State.lkpModify_heldp ‹_› ?_
    | apply State.lkpModify_held
    | apply ite_h
    | apply foldl_h
    | apply ite1_h
    | apply fold1_h
    | split
    | (clear_value *; split))
theorem State.bulkOne_heldp {s : State} {d : Die} {record : Nat} {abort : Option Nat} {mx : List Instr × Mem} {tv : State} {ov : Nat} (he : State.bulkOne s d record abort = (tv, ov)) (hh : s.held = mx) : tv.held = mx := by
  have k := State.bulkOne_held (s := s) (d := d) (record := record) (abort := abort) hh
  rw [he] at k; exact k

theorem State.bulkRead_ok {s : State} {d : Die} {done : Nat} {status : Nat} {record : Nat} {mx : List Instr × Mem} (hh : State.Ok mx s) : State.Ok mx (State.bulkRead s d done status record).1 := by
  unfold State.bulkRead
  with_reducible repeat' (first
    | (intro _)
    | (extract_lets +onlyGivenNames tv; first | (refine (fun ht : State.Ok mx tv => ?_) ?_; clear_value tv; rotate_left; subst tv; rotate_right) | (refine (fun ht : State.Ok mx (Prod.fst tv) => ?_) ?_; clear_value tv; rotate_left; subst tv; rotate_right) | (have hu := tv; clear hu))
    | assumption
    | exact ok_rfl
    | refine ok_of (State.used_held rfl) ?_
    | refine State.engineAccess_okp ‹_› ?_
    | apply State.engineAccess_ok
    | apply ite_ok
    | apply foldl_ok
    | apply ite1_ok
    | apply fold1_ok
    | split
    | (clear_value *; split))
theorem State.bulkRead_okp {s : State} {d : Die} {done : Nat} {status : Nat} {record : Nat} {mx : List Instr × Mem} {tv : State} {ov : Nat × Nat} (he : State.bulkRead s d done status record = (tv, ov)) (hh : State.Ok mx s) : State.Ok mx tv := by
  have k := State.bulkRead_ok (s := s) (d := d) (done := done) (status := status) (record := record) hh
  rw [he] at k; exact k

theorem State.bulkRecord_ok {s : State} {d : Die} {status : Nat} {record : Nat} {abort : Option Nat} {mx : List Instr × Mem} (hh : State.Ok mx s) : State.Ok mx (State.bulkRecord s d status record abort) := by
  unfold State.bulkRecord
  extract_lets a done last
  refine ite_ok (fun _ => hh) fun _ => ite_ok (fun _ => ok_of (State.bulkEnd_held rfl) hh) fun _ => ?_
  have h := State.bulkRead_ok (s := s) (d := d) (done := done) (status := status) (record := record) hh
  revert h
  generalize s.bulkRead d done status record = w
  obtain ⟨s1, st, v⟩ := w
  intro h
  refine ite_ok (fun _ => ok_of (State.bulkEnd_held rfl) h) fun _ => ?_
  have h2 := ok_of (State.bulkOne_held (s := s1) (d := d) (record := v) (abort := abort) rfl) h
  revert h2
  generalize s1.bulkOne d v abort = w
  obtain ⟨t, r⟩ := w
  intro h2
  exact ite_ok (fun _ => ok_of (State.bulkEnd_held rfl) h2) fun _ =>
    ite_ok (fun _ => ok_of (State.bulkEnd_held (State.put_held rfl)) h2) fun _ =>
      ite_ok (fun _ => ok_of (State.bulkEnd_held (State.put_held rfl)) h2) fun _ => ok_of (State.put_held rfl) h2

theorem execBulkRecord_ok {die : PDie} {status : BitVec 4} {record : BitVec 512} {abort : Option (Fin 5)} {s : State} {mx : List Instr × Mem} (hh : State.Ok mx s) : ∃ tv, execBulkRecord die status record abort s = .next tv ∧ State.Ok mx tv := by
  unfold execBulkRecord
  with_reducible repeat' (first
    | (intro _)
    | assumption
    | exact ok_rfl
    | apply next_ok
    | apply State.bulkRecord_ok
    | apply ite_ok
    | apply foldl_ok
    | apply ite1_ok
    | apply fold1_ok
    | split
    | (clear_value *; split))

theorem State.ringLine_ok {s : State} {d : Die} {ring : Nat} {addr : Nat} {l : List Nat} {status : Nat} {mx : List Instr × Mem} (hh : State.Ok mx s) : State.Ok mx (State.ringLine s d ring addr l status).1 := by
  unfold State.ringLine
  with_reducible repeat' (first
    | (intro _)
    | (extract_lets +onlyGivenNames tv; first | (refine (fun ht : State.Ok mx tv => ?_) ?_; clear_value tv; rotate_left; subst tv; rotate_right) | (refine (fun ht : State.Ok mx (Prod.fst tv) => ?_) ?_; clear_value tv; rotate_left; subst tv; rotate_right) | (have hu := tv; clear hu))
    | assumption
    | exact ok_rfl
    | refine ok_of (State.used_held rfl) ?_
    | refine State.engineAccess_okp ‹_› ?_
    | apply State.engineAccess_ok
    | apply ite_ok
    | apply foldl_ok
    | apply ite1_ok
    | apply fold1_ok
    | split
    | (clear_value *; split))
theorem State.ringLine_okp {s : State} {d : Die} {ring : Nat} {addr : Nat} {l : List Nat} {status : Nat} {mx : List Instr × Mem} {tv : State} {ov : Nat} (he : State.ringLine s d ring addr l status = (tv, ov)) (hh : State.Ok mx s) : State.Ok mx tv := by
  have k := State.ringLine_ok (s := s) (d := d) (ring := ring) (addr := addr) (l := l) (status := status) hh
  rw [he] at k; exact k

theorem State.ringLines_ok {s : State} {d : Die} {ring : Nat} {base : Nat} {size : Nat} {from_ : Nat} {lines : List (List Nat)} {answers : List Nat} {mx : List Instr × Mem} (hh : State.Ok mx s) : State.Ok mx (State.ringLines s d ring base size from_ lines answers).1 := by
  unfold State.ringLines
  with_reducible repeat' (first
    | (intro _)
    | (extract_lets +onlyGivenNames tv; first | (refine (fun ht : State.Ok mx tv => ?_) ?_; clear_value tv; rotate_left; subst tv; rotate_right) | (refine (fun ht : State.Ok mx (Prod.fst tv) => ?_) ?_; clear_value tv; rotate_left; subst tv; rotate_right) | (have hu := tv; clear hu))
    | assumption
    | exact ok_rfl
    | refine State.ringLine_okp ‹_› ?_
    | apply State.ringLine_ok
    | apply ite_ok
    | apply foldl_ok
    | apply ite1_ok
    | apply fold1_ok
    | split
    | (clear_value *; split))
theorem State.ringLines_okp {s : State} {d : Die} {ring : Nat} {base : Nat} {size : Nat} {from_ : Nat} {lines : List (List Nat)} {answers : List Nat} {mx : List Instr × Mem} {tv : State} {ov : List Nat} (he : State.ringLines s d ring base size from_ lines answers = (tv, ov)) (hh : State.Ok mx s) : State.Ok mx tv := by
  have k := State.ringLines_ok (s := s) (d := d) (ring := ring) (base := base) (size := size) (from_ := from_) (lines := lines) (answers := answers) hh
  rw [he] at k; exact k

theorem State.ringFrame_ok {s : State} {d : Die} {ring : Nat} {q : Nat} {answers : List Nat} {bad : Bool} {mx : List Instr × Mem} (hh : State.Ok mx s) : State.Ok mx (State.ringFrame s d ring q answers bad) := by
  unfold State.ringFrame
  with_reducible repeat' (first
    | (intro _)
    | (extract_lets +onlyGivenNames tv; first | (refine (fun ht : State.Ok mx tv => ?_) ?_; clear_value tv; rotate_left; subst tv; rotate_right) | (refine (fun ht : State.Ok mx (Prod.fst tv) => ?_) ?_; clear_value tv; rotate_left; subst tv; rotate_right) | (have hu := tv; clear hu))
    | assumption
    | exact ok_rfl
    | refine ok_of (State.put_held rfl) ?_
    | refine ok_of (State.bump_held rfl) ?_
    | refine ok_of (State.raise_held rfl) ?_
    | refine ok_of (State.onEngine_held rfl) ?_
    | refine ok_of (State.bufferUe_held rfl) ?_
    | refine State.unspill_okp ‹_› ?_
    | apply State.unspill_ok
    | refine ok_of (State.takeHead_held rfl) ?_
    | refine State.ringLines_okp ‹_› ?_
    | apply State.ringLines_ok
    | apply ite_ok
    | apply foldl_ok
    | apply ite1_ok
    | apply fold1_ok
    | split
    | (clear_value *; split))

theorem execDeliveryRingFrame_ok {die : PDie} {ring : BitVec 10} {queue : BitVec 16} {answers : List (BitVec 4)} {bad : Bool} {s : State} {mx : List Instr × Mem} (hh : State.Ok mx s) : ∃ tv, execDeliveryRingFrame die ring queue answers bad s = .next tv ∧ State.Ok mx tv := by
  unfold execDeliveryRingFrame
  with_reducible repeat' (first
    | (intro _)
    | assumption
    | exact ok_rfl
    | apply next_ok
    | apply State.ringFrame_ok
    | apply ite_ok
    | apply foldl_ok
    | apply ite1_ok
    | apply fold1_ok
    | split
    | (clear_value *; split))

theorem State.moveWrite_ok {s : State} {d : Die} {o : Die} {q : Nat} {f : QFrame} {mx : List Instr × Mem} (hh : State.Ok mx s) : State.Ok mx (State.moveWrite s d o q f).1 := by
  unfold State.moveWrite
  with_reducible repeat' (first
    | (intro _)
    | assumption
    | exact ok_rfl
    | refine ok_of (State.used_held rfl) ?_
    | refine State.frameAccess_okp ‹_› ?_
    | apply State.frameAccess_ok
    | apply ite_ok
    | apply foldl_ok
    | apply ite1_ok
    | apply fold1_ok
    | split
    | (clear_value *; split))
theorem State.moveWrite_okp {s : State} {d : Die} {o : Die} {q : Nat} {f : QFrame} {mx : List Instr × Mem} {tv : State} {ov : Nat} (he : State.moveWrite s d o q f = (tv, ov)) (hh : State.Ok mx s) : State.Ok mx tv := by
  have k := State.moveWrite_ok (s := s) (d := d) (o := o) (q := q) (f := f) hh
  rw [he] at k; exact k

theorem execCrossDieMove_ok {die : PDie} {rate : Bool} {s : State} {mx : List Instr × Mem} (hh : State.Ok mx s) : ∃ tv, execCrossDieMove die rate s = .next tv ∧ State.Ok mx tv := by
  unfold execCrossDieMove
  with_reducible repeat' (first
    | (intro _)
    | (extract_lets +onlyGivenNames tv; first | (refine (fun ht : State.Ok mx tv => ?_) ?_; clear_value tv; rotate_left; subst tv; rotate_right) | (refine (fun ht : State.Ok mx (Prod.fst tv) => ?_) ?_; clear_value tv; rotate_left; subst tv; rotate_right) | (have hu := tv; clear hu))
    | assumption
    | exact ok_rfl
    | apply next_ok
    | refine ok_of (State.bump_held rfl) ?_
    | refine ok_of (State.onEngine_held rfl) ?_
    | refine ok_of (State.bufSync_held rfl) ?_
    | refine ok_of (State.xon_held rfl) ?_
    | apply State.offer_ok
    | refine State.moveWrite_okp ‹_› ?_
    | apply State.moveWrite_ok
    | apply ite_ok
    | apply foldl_ok
    | apply ite1_ok
    | apply fold1_ok
    | split
    | (clear_value *; split))

theorem State.jobPut_ok {s : State} {d : Die} {j : CmpJob} {status : Nat} {b : Nat} {n : Nat} {out : List Nat × List Nat} {mx : List Instr × Mem} (hh : State.Ok mx s) : State.Ok mx (State.jobPut s d j status b n out) := by
  unfold State.jobPut
  with_reducible repeat' (first
    | (intro _)
    | (extract_lets +onlyGivenNames tv; first | (refine (fun ht : State.Ok mx tv => ?_) ?_; clear_value tv; rotate_left; subst tv; rotate_right) | (refine (fun ht : State.Ok mx (Prod.fst tv) => ?_) ?_; clear_value tv; rotate_left; subst tv; rotate_right) | (have hu := tv; clear hu))
    | assumption
    | exact ok_rfl
    | refine ok_of (State.cmpBlocks_held rfl) ?_
    | refine ok_of (State.jobEnd_held rfl) ?_
    | refine State.engineWrite_okp ‹_› ?_
    | apply State.engineWrite_ok
    | apply ite_ok
    | apply foldl_ok
    | apply ite1_ok
    | apply fold1_ok
    | split
    | (clear_value *; split))

theorem State.jobRun_ok {s : State} {d : Die} {status : Nat} {written : Nat} {mx : List Instr × Mem} (hh : State.Ok mx s) : State.Ok mx (State.jobRun s d status written) := by
  unfold State.jobRun
  split
  · refine ite_ok (fun _ => hh) fun _ => ?_
    simp only []
    split
    · exact ite_ok (fun _ => State.jobPut_ok (State.engineRead_ok hh)) fun _ => State.jobPut_ok (State.engineRead_ok hh)
    · exact ite_ok (fun _ => State.jobPut_ok (State.engineRead_ok hh)) fun _ => State.jobPut_ok (State.engineRead_ok hh)
  · exact hh

theorem execCmpJobEnd_ok {die : PDie} {status : BitVec 4} {written : BitVec 32} {s : State} {mx : List Instr × Mem} (hh : State.Ok mx s) : ∃ tv, execCmpJobEnd die status written s = .next tv ∧ State.Ok mx tv := by
  unfold execCmpJobEnd
  with_reducible repeat' (first
    | (intro _)
    | assumption
    | exact ok_rfl
    | apply next_ok
    | apply State.jobRun_ok
    | apply ite_ok
    | apply foldl_ok
    | apply ite1_ok
    | apply fold1_ok
    | split
    | (clear_value *; split))

theorem State.scrubBad_held {s : State} {d : Die} {g : Nat} {a : Nat} {mx : List Instr × Mem} (hh : s.held = mx) : (State.scrubBad s d g a).held = mx := by
  unfold State.scrubBad
  with_reducible repeat' (first
    | (intro _)
    | (extract_lets +onlyGivenNames tv; first | (refine (fun ht : State.held tv = mx => ?_) ?_; clear_value tv; rotate_left; subst tv; rotate_right) | (refine (fun ht : State.held (Prod.fst tv) = mx => ?_) ?_; clear_value tv; rotate_left; subst tv; rotate_right) | (have hu := tv; clear hu))
    | assumption
    | rfl
    | apply State.setLkp_held
    | apply State.setSick_held
    | apply State.used_held
    | apply State.eccMend_held
    | apply State.poisonHeld_held
    | apply State.dirBad_held
    | apply State.bufBad_held
    | apply State.lkpOcc_held
    | apply ite_h
    | apply foldl_h
    | apply ite1_h
    | apply fold1_h
    | split
    | (clear_value *; split))

theorem execEccScrubStep_ok {die : Die} {group : Fin 16} {lap : BitVec 16} {s : State} {mx : List Instr × Mem} (hh : State.Ok mx s) : ∃ tv, execEccScrubStep die group lap s = .next tv ∧ State.Ok mx tv := by
  unfold execEccScrubStep
  with_reducible repeat' (first
    | (intro _)
    | (extract_lets +onlyGivenNames tv; first | (refine (fun ht : State.Ok mx tv => ?_) ?_; clear_value tv; rotate_left; subst tv; rotate_right) | (refine (fun ht : State.Ok mx (Prod.fst tv) => ?_) ?_; clear_value tv; rotate_left; subst tv; rotate_right) | (have hu := tv; clear hu))
    | assumption
    | exact ok_rfl
    | apply next_ok
    | refine ok_of (State.setChk_held rfl) ?_
    | refine ok_of (State.setEccScrub_held rfl) ?_
    | apply State.setEccData_ok
    | refine ok_of (State.puts_held rfl) ?_
    | refine ok_of (State.eccFound_held rfl) ?_
    | refine ok_of (State.uncorrectable_held rfl) ?_
    | refine ok_of (State.scrubBad_held rfl) ?_
    | apply ite_ok
    | apply foldl_ok
    | apply ite1_ok
    | apply fold1_ok
    | split
    | (clear_value *; split))

end Sys2Proof.Machine
end

