-- ==== Sys2Proof/Laws/Regs.lean ====
section
/-! SUPPORT. Laws of reading a register or a field after writing one. -/

namespace Sys2Proof.Machine

/-- The bits of a field of a word. -/
theorem testBit_bitsOf (n lo w i : Nat) : (bitsOf n lo w).testBit i = (decide (i < w) && n.testBit (lo + i)) := by
  simp [bitsOf, Nat.testBit_mod_two_pow, Nat.testBit_div_two_pow, Nat.add_comm]

theorem Fld.mask_bit (f : Fld) (i : Nat) : f.mask.getLsbD i = (decide (i < 32) && decide (f.lo ≤ i) && decide (i < f.lo + f.width)) := by
  simp only [Fld.mask, BitVec.getLsbD_shiftLeft, BitVec.getLsbD_ofNat, Nat.testBit_two_pow_sub_one]
  by_cases h : i < 32 <;> by_cases h2 : f.lo ≤ i <;> by_cases h3 : i < f.lo + f.width <;> simp [h, h2, h3] <;> omega

theorem Fld.of_into_self (f : Fld) (w : Word) (v : Nat) (h : f.lo + f.width ≤ 32) : f.of (f.into w v) = v % 2 ^ f.width := by
  apply Nat.eq_of_testBit_eq
  intro i
  rw [Fld.of, testBit_bitsOf, Nat.testBit_mod_two_pow]
  by_cases hi : i < f.width
  · have h1 : f.lo + i < 32 := by omega
    have h2 : i < 32 := by omega
    have h3 : f.lo + i < f.lo + f.width := by omega
    rw [BitVec.testBit_toNat, Fld.into, BitVec.getLsbD_or, BitVec.getLsbD_and, BitVec.getLsbD_not, BitVec.getLsbD_and, Fld.mask_bit,
      BitVec.getLsbD_shiftLeft, BitVec.getLsbD_ofNat]
    simp [hi, h1, h2]
  · simp [hi]

theorem Fld.of_into_other (f g : Fld) (w : Word) (v : Nat) (h : f.lo + f.width ≤ g.lo ∨ g.lo + g.width ≤ f.lo) :
    g.of (f.into w v) = g.of w := by
  apply Nat.eq_of_testBit_eq
  intro i
  rw [Fld.of, Fld.of, testBit_bitsOf, testBit_bitsOf]
  by_cases hi : i < g.width
  · have h1 : f.mask.getLsbD (g.lo + i) = false := by rw [Fld.mask_bit]; simp; omega
    rw [BitVec.testBit_toNat, BitVec.testBit_toNat, Fld.into, BitVec.getLsbD_or, BitVec.getLsbD_and, BitVec.getLsbD_not,
      BitVec.getLsbD_and, h1]
    simp only [hi, Bool.not_false, Bool.and_true, Bool.and_false, Bool.or_false, decide_true, Bool.true_and]
    cases hb : w.getLsbD (g.lo + i)
    · rfl
    · simp [BitVec.lt_of_getLsbD hb]
  · simp [hi]

theorem Fld.of_lt (f : Fld) (w : Word) : f.of w < 2 ^ f.width := Nat.mod_lt _ (Nat.two_pow_pos _)

/-- Places of different registers have different keys. -/
theorem regKey_ne {r q : Reg} {a b : At} (h : r.ctorIdx ≠ q.ctorIdx) (ha : a.code < 2 ^ 44) (hb : b.code < 2 ^ 44) :
    regKey q b ≠ regKey r a := by
  unfold regKey; omega

theorem regKey_inj {r q : Reg} {a b : At} (ha : a.code < 2 ^ 44) (hb : b.code < 2 ^ 44) (h : regKey q b = regKey r a) :
    q.ctorIdx = r.ctorIdx ∧ b.code = a.code := by
  unfold regKey at h; omega

@[simp] theorem State.reg_setReg_self (s : State) (a : At) (r : Reg) (v : Word) : (s.setReg a r v).reg a r = v := Tbl.get_set_self ..

theorem State.reg_setReg_ne (s : State) {a b : At} {r q : Reg} (v : Word) (h : regKey q b ≠ regKey r a) :
    (s.setReg a r v).reg b q = s.reg b q := Tbl.get_set_ne _ _ _ h

theorem State.get_put_self (s : State) (a : At) (f : Fld) (v : Nat) (h : f.lo + f.width ≤ 32) :
    (s.put a f v).get a f = v % 2 ^ f.width := by
  unfold State.get State.put
  rw [State.reg_setReg_self, Fld.of_into_self _ _ _ h]

theorem State.get_put_field (s : State) (a : At) (f g : Fld) (v : Nat) (hr : g.reg = f.reg)
    (h : f.lo + f.width ≤ g.lo ∨ g.lo + g.width ≤ f.lo) : (s.put a f v).get a g = s.get a g := by
  unfold State.get State.put
  rw [hr, State.reg_setReg_self, Fld.of_into_other _ _ _ _ h]

theorem State.reg_put_ne (s : State) {a b : At} {f : Fld} {q : Reg} (v : Nat) (h : regKey q b ≠ regKey f.reg a) :
    (s.put a f v).reg b q = s.reg b q := State.reg_setReg_ne s _ h

theorem State.get_put_ne (s : State) {a b : At} {f g : Fld} (v : Nat) (h : regKey g.reg b ≠ regKey f.reg a) :
    (s.put a f v).get b g = s.get b g := by unfold State.get; rw [State.reg_put_ne s v h]

end Sys2Proof.Machine
end

