-- ==== Sys2Proof/Laws/Raise.lean ====
section
/-! SUPPORT. What raising an event leaves alone: every register outside `eventRegs` and every field outside the event unit. -/

namespace Sys2Proof.Machine

/-- A state with everything that raising an event can change, the registers among it, set aside. -/
def State.unraised (s : State) : State where
  pending := s.pending
  regs := []
  mem := s.mem
  poison := s.poison
  fresh := s.fresh
  answer := s.answer
  answerStatus := s.answerStatus
  book := State.reset.book
  mgt := s.mgt
  fab := s.fab
  net := s.net
  keyStore := s.keyStore
  fpFifo := []
  evtOnce := []
  cycles := s.cycles
  pcie := State.reset.pcie
  sent := []
  bw := s.bw
  pmcLatch := s.pmcLatch
  cal := s.cal
  cfg := s.cfg
  tap := s.tap
  pins := s.pins
  frames := s.frames
  clusters := s.clusters
  ffs := s.ffs
  relStage := s.relStage
  frozen := s.frozen
  bramCfg := s.bramCfg
  bram := s.bram
  bramPorts := s.bramPorts
  multCfg := s.multCfg
  mults := s.mults
  railKeep := s.railKeep
  chk := s.chk
  eccRaw := s.eccRaw
  eccScrub := s.eccScrub
  tags := s.tags
  xUsed := s.xUsed
  xWait := s.xWait
  xHeld := s.xHeld
  routers := s.routers
  portMode := s.portMode
  portTags := s.portTags
  portFifo := s.portFifo
  dcache := s.dcache
  dir := s.dir
  dieResets := s.dieResets
  homeTxn := s.homeTxn
  cores := s.cores
  tngDone := s.tngDone
  rtrShare := s.rtrShare
  dbg := s.dbg
  dcWait := s.dcWait
  prcStep := s.prcStep
  prcBlank := s.prcBlank
  prcHold := s.prcHold
  capWait := s.capWait
  capture := s.capture
  bramDef := s.bramDef
  scrubs := s.scrubs
  scrCopy := s.scrCopy
  releases := s.releases
  dieStep := s.dieStep
  clampDef := s.clampDef
  clamps := s.clamps
  welds := s.welds
  lanes := s.lanes
  macMode := s.macMode
  tod := s.tod
  lkp := s.lkp
  queues := s.queues
  ports := s.ports
  pkt := s.pkt
  cxl := s.cxl
  ddr := s.ddr
  regions := s.regions
  prots := s.prots
  rings := s.rings
  openMem := s.openMem
  dcRights := s.dcRights
  clk := s.clk
  units := s.units
  hearthHit := s.hearthHit

/-- `t` differs from `s` in nothing but registers of the list, the field book, the PCIe endpoint, what is sent, the event ports and the
events limited to one a millisecond. -/
structure State.Raised (L : List Reg) (s t : State) : Prop where
  reg : ∀ b q, q ∉ L → b.code < 2 ^ 44 → t.reg b q = s.reg b q
  rest : t.unraised = s.unraised

theorem Raised.refl (L : List Reg) (s : State) : State.Raised L s s := ⟨fun _ _ _ _ => rfl, rfl⟩

theorem Raised.trans {L : List Reg} {s t u : State} (h : State.Raised L s t) (k : State.Raised L t u) : State.Raised L s u :=
  ⟨fun b q hq hb => (k.reg b q hq hb).trans (h.reg b q hq hb), k.rest.trans h.rest⟩

theorem Reg.ctorIdx_inj {r q : Reg} (h : r.ctorIdx = q.ctorIdx) : r = q := by
  rw [← Reg.ofNat_ctorIdx r, h, Reg.ofNat_ctorIdx]

/-- A write of one register at a real place changes that register alone. -/
theorem Raised.put {L : List Reg} {s t : State} {a : At} {f : Fld} {v : Nat} (hf : f.reg ∈ L) (ha : a.code < 2 ^ 44)
    (h : State.Raised L s t) : State.Raised L s (t.put a f v) := by
  refine Raised.trans h ⟨fun b q hq hb => State.reg_put_ne t v ?_, rfl⟩
  refine regKey_ne (fun e => hq ?_) ha hb
  rw [← Reg.ctorIdx_inj e]; exact hf

theorem Raised.setBit {L : List Reg} {s t : State} {a : At} {f : Fld} {v : Nat} (hf : f.reg ∈ L) (ha : a.code < 2 ^ 44)
    (h : State.Raised L s t) : State.Raised L s (t.setBit a f v) := Raised.put hf ha h

theorem Raised.bump {L : List Reg} {s t : State} {a : At} {f : Fld} {v : Nat} (hf : f.reg ∈ L) (ha : a.code < 2 ^ 44)
    (h : State.Raised L s t) : State.Raised L s (t.bump a f v) := Raised.put hf ha h

theorem Raised.foldl {α : Type} {L : List Reg} {s : State} {f : State → α → State} {l : List α}
    (hf : ∀ t x, x ∈ l → State.Raised L s t → State.Raised L s (f t x)) {t : State} (h : State.Raised L s t) :
    State.Raised L s (l.foldl f t) := by
  induction l generalizing t with
  | nil => exact h
  | cons x l ih =>
    exact ih (fun t y hy => hf t y (List.mem_cons_of_mem _ hy)) (hf t x (List.mem_cons_self ..) h)

theorem Die.idx_lt (d : Die) : d.idx < 8 := by cases d <;> decide

theorem atDie_code (d : Die) : (atDie d).code < 2 ^ 44 := by have := Die.idx_lt d; simp only [At.code, atDie]; omega

theorem atUnit_code (d : Die) {n : Nat} (h : n < 64) : (atUnit d n).code < 2 ^ 44 := by
  have := Die.idx_lt d; simp only [At.code, atUnit]; omega

theorem atElem_code (d : Die) {n : Nat} (h : n < 2 ^ 31) : (atElem d n).code < 2 ^ 44 := by
  have := Die.idx_lt d; simp only [At.code, atElem]; omega

theorem atSel_code (d : Die) {n : Nat} (h : n < 2 ^ 30) : (atSel d n).code < 2 ^ 44 := by
  have := Die.idx_lt d; simp only [At.code, atSel]; omega

theorem Raised.evtBits {s t : State} {d : Die} {loc x : Nat} (hl : loc < 2 ^ 30) (h : State.Raised eventRegs s t) :
    State.Raised eventRegs s (t.evtBits d loc x) := by
  unfold State.evtBits
  exact Raised.put (by decide) (atSel_code d hl) (Raised.put (by decide) (atSel_code d hl) (Raised.bump (by decide) (atSel_code d hl)
    (Raised.setBit (by decide) (atElem_code d (by omega)) h)))

theorem Raised.pmcPlus {s t : State} {d : Die} {c n : Nat} (hc : c < 64) (h : State.Raised eventRegs s t) :
    State.Raised eventRegs s (t.pmcPlus d c n) := by
  unfold State.pmcPlus State.setPmc
  dsimp only
  have h1 : State.Raised eventRegs s ((t.put (atSel d c) .PMC_CNT_LO_COUNT ((t.pmcCount d c + n) % 2 ^ 48)).put (atSel d c)
      .PMC_CNT_HI_COUNT ((t.pmcCount d c + n) % 2 ^ 48 / 2 ^ 32 % 2 ^ 16)) :=
    Raised.put (by decide) (atSel_code d (by omega)) (Raised.put (by decide) (atSel_code d (by omega)) h)
  generalize ((t.put (atSel d c) .PMC_CNT_LO_COUNT ((t.pmcCount d c + n) % 2 ^ 48)).put (atSel d c)
      .PMC_CNT_HI_COUNT ((t.pmcCount d c + n) % 2 ^ 48 / 2 ^ 32 % 2 ^ 16)) = u at *
  split
  · exact Raised.put (by decide) (atSel_code d (by omega)) (Raised.put (by decide) (atSel_code d (by omega)) h1)
  · exact h1

theorem Raised.setPmcOvf {s t : State} {d : Die} {c : Nat} (h : State.Raised eventRegs s t) :
    State.Raised eventRegs s (t.setPmcOvf d c) := by
  unfold State.setPmcOvf
  split
  · exact Raised.setBit (by decide) (atDie_code d) h
  · exact Raised.setBit (by decide) (atDie_code d) h

/-- What the event that an event raises in turn may do. -/
def InnerRaises (inner : State → Die → Nat → Nat → State) : Prop :=
  ∀ (s t : State) (d : Die) (loc x : Nat), loc < 2 ^ 30 → State.Raised eventRegs s t → State.Raised eventRegs s (inner t d loc x)

theorem Raised.raiseBook {inner : State → Die → Nat → Nat → State} (hi : InnerRaises inner) {s t : State} {d : Die} {loc x : Nat}
    (h : State.Raised eventRegs s t) : State.Raised eventRegs s (t.raiseBook inner d loc x) := by
  unfold State.raiseBook
  dsimp only
  have hb (b : Book) : State.Raised eventRegs s (t.setBook b) := Raised.trans h ⟨fun _ _ _ _ => rfl, rfl⟩
  split
  · split
    · exact hb _
    · exact hi _ _ _ _ _ (by decide) (Raised.bump (by decide) (atDie_code .e0) (hb _))
  · exact h

theorem Raised.evtPorts {s t : State} {d : Die} {n x : Nat} (h : State.Raised eventRegs s t) :
    State.Raised eventRegs s (t.evtPorts d n x).1 := by
  unfold State.evtPorts
  generalize (List.range 16) = l
  suffices ∀ (p : State × List Nat), State.Raised eventRegs s p.1 → State.Raised eventRegs s (l.foldl (fun (t, full) p =>
    if bitOf (t.get (atDie d) .EVT_FP_CTRL_MASK) p && t.parcelRuns d p then
      let q := Tbl.get [] t.fpFifo (d.idx * 16 + p)
      if q.length < 16 then (t.setFpFifo (Tbl.set t.fpFifo (d.idx * 16 + p) (q ++ [(n, x)])), full)
      else (t.bump (atDie d) .EVT_FP_CTRL_DROP 1, full ++ [p])
    else (t, full)) p).1 from this (t, []) h
  induction l with
  | nil => exact fun _ h => h
  | cons a l ih =>
    rintro ⟨u, full⟩ hu
    refine ih _ ?_
    dsimp only
    split
    · split
      · exact Raised.trans hu ⟨fun _ _ _ _ => rfl, rfl⟩
      · exact Raised.bump (by decide) (atDie_code d) hu
    · exact hu

theorem Raised.raisePorts {inner : State → Die → Nat → Nat → State} (hi : InnerRaises inner) {s t : State} {d : Die} {n x : Nat}
    (h : State.Raised eventRegs s t) : State.Raised eventRegs s (t.raisePorts inner d n x) := by
  unfold State.raisePorts
  dsimp only
  have h1 : State.Raised eventRegs s (t.evtPorts d n x).1 := Raised.evtPorts h
  generalize t.evtPorts d n x = r at *
  split
  · exact h1
  · split
    · exact h1
    · exact hi _ _ _ _ _ (by decide) (Raised.trans h1 ⟨fun _ _ _ _ => rfl, rfl⟩)

theorem Raised.raisePmc {inner : State → Die → Nat → Nat → State} (hi : InnerRaises inner) {s t : State} {d : Die} {loc c : Nat}
    (hc : c < 64) (h : State.Raised eventRegs s t) : State.Raised eventRegs s (t.raisePmc inner d loc c) := by
  unfold State.raisePmc
  have h1 : State.Raised eventRegs s (t.pmcPlus d c 1) := Raised.pmcPlus hc h
  generalize t.pmcPlus d c 1 = u at *
  generalize t.pmcWrapped d c 1 = w at *
  split
  · cases w with
    | none => exact h1
    | some k =>
      dsimp only
      split
      · exact h1
      · exact hi _ _ _ _ _ (by decide) (Raised.setPmcOvf h1)
  · exact h

theorem Raised.msix {s t : State} {v : Nat} (h : State.Raised eventRegs s t) : State.Raised eventRegs s (t.msix v) := by
  unfold State.msix
  split
  · exact Raised.trans h ⟨fun _ _ _ _ => rfl, rfl⟩
  · exact Raised.trans h ⟨fun _ _ _ _ => rfl, rfl⟩

theorem Raised.evtCores {s t : State} {d : Die} {m : Nat} (h : State.Raised eventRegs s t) :
    State.Raised eventRegs s (t.evtCores d m) := by
  unfold State.evtCores State.irq
  refine Raised.foldl (fun u k hk hu => ?_) h
  split
  · exact Raised.setBit (by decide) (atUnit_code d (by have := List.mem_range.1 hk; omega)) hu
  · exact hu

theorem Raised.raiseWith {inner : State → Die → Nat → Nat → State} (hi : InnerRaises inner) {s t : State} {d : Die} {loc x : Nat}
    (hl : loc < 2 ^ 30) (h : State.Raised eventRegs s t) : State.Raised eventRegs s (t.raiseWith inner d loc x) := by
  unfold State.raiseWith
  extract_lets rose route tdie there u v w y
  have hu : State.Raised eventRegs s u := Raised.raiseBook hi (Raised.evtBits hl h)
  have hv : State.Raised eventRegs s v := by
    simp only [v]; split
    · exact Raised.msix hu
    · exact hu
  have hw : State.Raised eventRegs s w := by
    simp only [w]; split
    · exact Raised.evtCores hv
    · exact hv
  have hy : State.Raised eventRegs s y := by
    simp only [y]; split
    · exact Raised.raisePorts hi hw
    · exact hw
  exact Raised.foldl (fun z c hc hz => Raised.raisePmc hi (by have := List.mem_range.1 hc; omega) hz) hy

theorem raiseN_inner (n : Nat) : InnerRaises (State.raiseN n) := by
  induction n with
  | zero => exact fun _ _ _ _ _ hl h => Raised.evtBits hl h
  | succ n ih => exact fun _ _ _ _ _ hl h => Raised.raiseWith ih hl h

/-- Everything that raising an event can change. -/
theorem State.raise_raised (s : State) (d : Die) {loc : Nat} (x : Nat) (hl : loc < 2 ^ 30) :
    State.Raised eventRegs s (s.raise d loc x) := raiseN_inner 2 s s d loc x hl (Raised.refl _ s)

theorem State.raise_reg (s : State) (d : Die) {loc : Nat} (x : Nat) (hl : loc < 2 ^ 30) {b : At} {q : Reg} (hq : q ∉ eventRegs)
    (hb : b.code < 2 ^ 44) : (s.raise d loc x).reg b q = s.reg b q := (s.raise_raised d x hl).reg b q hq hb

theorem State.raise_get (s : State) (d : Die) {loc : Nat} (x : Nat) (hl : loc < 2 ^ 30) {b : At} {f : Fld} (hq : f.reg ∉ eventRegs)
    (hb : b.code < 2 ^ 44) : (s.raise d loc x).get b f = s.get b f := by unfold State.get; rw [s.raise_reg d x hl hq hb]

theorem Raised.pending_eq {L : List Reg} {s t : State} (h : State.Raised L s t) : t.pending = s.pending := by
  have e := congrArg State.pending h.rest; exact e
theorem Raised.mem_eq {L : List Reg} {s t : State} (h : State.Raised L s t) : t.mem = s.mem := by
  have e := congrArg State.mem h.rest; exact e
theorem Raised.poison_eq {L : List Reg} {s t : State} (h : State.Raised L s t) : t.poison = s.poison := by
  have e := congrArg State.poison h.rest; exact e
theorem Raised.fresh_eq {L : List Reg} {s t : State} (h : State.Raised L s t) : t.fresh = s.fresh := by
  have e := congrArg State.fresh h.rest; exact e
theorem Raised.answer_eq {L : List Reg} {s t : State} (h : State.Raised L s t) : t.answer = s.answer := by
  have e := congrArg State.answer h.rest; exact e
theorem Raised.answerStatus_eq {L : List Reg} {s t : State} (h : State.Raised L s t) : t.answerStatus = s.answerStatus := by
  have e := congrArg State.answerStatus h.rest; exact e
theorem Raised.mgt_eq {L : List Reg} {s t : State} (h : State.Raised L s t) : t.mgt = s.mgt := by
  have e := congrArg State.mgt h.rest; exact e
theorem Raised.cycles_eq {L : List Reg} {s t : State} (h : State.Raised L s t) : t.cycles = s.cycles := by
  have e := congrArg State.cycles h.rest; exact e
theorem Raised.bw_eq {L : List Reg} {s t : State} (h : State.Raised L s t) : t.bw = s.bw := by
  have e := congrArg State.bw h.rest; exact e
theorem Raised.pmcLatch_eq {L : List Reg} {s t : State} (h : State.Raised L s t) : t.pmcLatch = s.pmcLatch := by
  have e := congrArg State.pmcLatch h.rest; exact e
theorem Raised.cal_eq {L : List Reg} {s t : State} (h : State.Raised L s t) : t.cal = s.cal := by
  have e := congrArg State.cal h.rest; exact e
theorem Raised.cfg_eq {L : List Reg} {s t : State} (h : State.Raised L s t) : t.cfg = s.cfg := by
  have e := congrArg State.cfg h.rest; exact e
theorem Raised.tap_eq {L : List Reg} {s t : State} (h : State.Raised L s t) : t.tap = s.tap := by
  have e := congrArg State.tap h.rest; exact e
theorem Raised.pins_eq {L : List Reg} {s t : State} (h : State.Raised L s t) : t.pins = s.pins := by
  have e := congrArg State.pins h.rest; exact e
theorem Raised.frames_eq {L : List Reg} {s t : State} (h : State.Raised L s t) : t.frames = s.frames := by
  have e := congrArg State.frames h.rest; exact e
theorem Raised.clusters_eq {L : List Reg} {s t : State} (h : State.Raised L s t) : t.clusters = s.clusters := by
  have e := congrArg State.clusters h.rest; exact e
theorem Raised.ffs_eq {L : List Reg} {s t : State} (h : State.Raised L s t) : t.ffs = s.ffs := by
  have e := congrArg State.ffs h.rest; exact e
theorem Raised.relStage_eq {L : List Reg} {s t : State} (h : State.Raised L s t) : t.relStage = s.relStage := by
  have e := congrArg State.relStage h.rest; exact e
theorem Raised.frozen_eq {L : List Reg} {s t : State} (h : State.Raised L s t) : t.frozen = s.frozen := by
  have e := congrArg State.frozen h.rest; exact e
theorem Raised.bramCfg_eq {L : List Reg} {s t : State} (h : State.Raised L s t) : t.bramCfg = s.bramCfg := by
  have e := congrArg State.bramCfg h.rest; exact e
theorem Raised.bram_eq {L : List Reg} {s t : State} (h : State.Raised L s t) : t.bram = s.bram := by
  have e := congrArg State.bram h.rest; exact e
theorem Raised.bramPorts_eq {L : List Reg} {s t : State} (h : State.Raised L s t) : t.bramPorts = s.bramPorts := by
  have e := congrArg State.bramPorts h.rest; exact e
theorem Raised.multCfg_eq {L : List Reg} {s t : State} (h : State.Raised L s t) : t.multCfg = s.multCfg := by
  have e := congrArg State.multCfg h.rest; exact e
theorem Raised.mults_eq {L : List Reg} {s t : State} (h : State.Raised L s t) : t.mults = s.mults := by
  have e := congrArg State.mults h.rest; exact e
theorem Raised.railKeep_eq {L : List Reg} {s t : State} (h : State.Raised L s t) : t.railKeep = s.railKeep := by
  have e := congrArg State.railKeep h.rest; exact e
theorem Raised.chk_eq {L : List Reg} {s t : State} (h : State.Raised L s t) : t.chk = s.chk := by
  have e := congrArg State.chk h.rest; exact e
theorem Raised.eccRaw_eq {L : List Reg} {s t : State} (h : State.Raised L s t) : t.eccRaw = s.eccRaw := by
  have e := congrArg State.eccRaw h.rest; exact e
theorem Raised.eccScrub_eq {L : List Reg} {s t : State} (h : State.Raised L s t) : t.eccScrub = s.eccScrub := by
  have e := congrArg State.eccScrub h.rest; exact e
theorem Raised.tags_eq {L : List Reg} {s t : State} (h : State.Raised L s t) : t.tags = s.tags := by
  have e := congrArg State.tags h.rest; exact e
theorem Raised.xUsed_eq {L : List Reg} {s t : State} (h : State.Raised L s t) : t.xUsed = s.xUsed := by
  have e := congrArg State.xUsed h.rest; exact e
theorem Raised.xWait_eq {L : List Reg} {s t : State} (h : State.Raised L s t) : t.xWait = s.xWait := by
  have e := congrArg State.xWait h.rest; exact e
theorem Raised.xHeld_eq {L : List Reg} {s t : State} (h : State.Raised L s t) : t.xHeld = s.xHeld := by
  have e := congrArg State.xHeld h.rest; exact e
theorem Raised.routers_eq {L : List Reg} {s t : State} (h : State.Raised L s t) : t.routers = s.routers := by
  have e := congrArg State.routers h.rest; exact e
theorem Raised.portMode_eq {L : List Reg} {s t : State} (h : State.Raised L s t) : t.portMode = s.portMode := by
  have e := congrArg State.portMode h.rest; exact e
theorem Raised.portTags_eq {L : List Reg} {s t : State} (h : State.Raised L s t) : t.portTags = s.portTags := by
  have e := congrArg State.portTags h.rest; exact e
theorem Raised.portFifo_eq {L : List Reg} {s t : State} (h : State.Raised L s t) : t.portFifo = s.portFifo := by
  have e := congrArg State.portFifo h.rest; exact e
theorem Raised.dcache_eq {L : List Reg} {s t : State} (h : State.Raised L s t) : t.dcache = s.dcache := by
  have e := congrArg State.dcache h.rest; exact e
theorem Raised.dir_eq {L : List Reg} {s t : State} (h : State.Raised L s t) : t.dir = s.dir := by
  have e := congrArg State.dir h.rest; exact e
theorem Raised.dieResets_eq {L : List Reg} {s t : State} (h : State.Raised L s t) : t.dieResets = s.dieResets := by
  have e := congrArg State.dieResets h.rest; exact e
theorem Raised.homeTxn_eq {L : List Reg} {s t : State} (h : State.Raised L s t) : t.homeTxn = s.homeTxn := by
  have e := congrArg State.homeTxn h.rest; exact e
theorem Raised.cores_eq {L : List Reg} {s t : State} (h : State.Raised L s t) : t.cores = s.cores := by
  have e := congrArg State.cores h.rest; exact e
theorem Raised.tngDone_eq {L : List Reg} {s t : State} (h : State.Raised L s t) : t.tngDone = s.tngDone := by
  have e := congrArg State.tngDone h.rest; exact e
theorem Raised.rtrShare_eq {L : List Reg} {s t : State} (h : State.Raised L s t) : t.rtrShare = s.rtrShare := by
  have e := congrArg State.rtrShare h.rest; exact e
theorem Raised.dbg_eq {L : List Reg} {s t : State} (h : State.Raised L s t) : t.dbg = s.dbg := by
  have e := congrArg State.dbg h.rest; exact e
theorem Raised.dcWait_eq {L : List Reg} {s t : State} (h : State.Raised L s t) : t.dcWait = s.dcWait := by
  have e := congrArg State.dcWait h.rest; exact e
theorem Raised.prcStep_eq {L : List Reg} {s t : State} (h : State.Raised L s t) : t.prcStep = s.prcStep := by
  have e := congrArg State.prcStep h.rest; exact e
theorem Raised.prcBlank_eq {L : List Reg} {s t : State} (h : State.Raised L s t) : t.prcBlank = s.prcBlank := by
  have e := congrArg State.prcBlank h.rest; exact e
theorem Raised.prcHold_eq {L : List Reg} {s t : State} (h : State.Raised L s t) : t.prcHold = s.prcHold := by
  have e := congrArg State.prcHold h.rest; exact e
theorem Raised.capWait_eq {L : List Reg} {s t : State} (h : State.Raised L s t) : t.capWait = s.capWait := by
  have e := congrArg State.capWait h.rest; exact e
theorem Raised.capture_eq {L : List Reg} {s t : State} (h : State.Raised L s t) : t.capture = s.capture := by
  have e := congrArg State.capture h.rest; exact e
theorem Raised.bramDef_eq {L : List Reg} {s t : State} (h : State.Raised L s t) : t.bramDef = s.bramDef := by
  have e := congrArg State.bramDef h.rest; exact e
theorem Raised.scrubs_eq {L : List Reg} {s t : State} (h : State.Raised L s t) : t.scrubs = s.scrubs := by
  have e := congrArg State.scrubs h.rest; exact e
theorem Raised.scrCopy_eq {L : List Reg} {s t : State} (h : State.Raised L s t) : t.scrCopy = s.scrCopy := by
  have e := congrArg State.scrCopy h.rest; exact e
theorem Raised.releases_eq {L : List Reg} {s t : State} (h : State.Raised L s t) : t.releases = s.releases := by
  have e := congrArg State.releases h.rest; exact e
theorem Raised.dieStep_eq {L : List Reg} {s t : State} (h : State.Raised L s t) : t.dieStep = s.dieStep := by
  have e := congrArg State.dieStep h.rest; exact e
theorem Raised.clampDef_eq {L : List Reg} {s t : State} (h : State.Raised L s t) : t.clampDef = s.clampDef := by
  have e := congrArg State.clampDef h.rest; exact e
theorem Raised.clamps_eq {L : List Reg} {s t : State} (h : State.Raised L s t) : t.clamps = s.clamps := by
  have e := congrArg State.clamps h.rest; exact e
theorem Raised.welds_eq {L : List Reg} {s t : State} (h : State.Raised L s t) : t.welds = s.welds := by
  have e := congrArg State.welds h.rest; exact e
theorem Raised.lanes_eq {L : List Reg} {s t : State} (h : State.Raised L s t) : t.lanes = s.lanes := by
  have e := congrArg State.lanes h.rest; exact e
theorem Raised.macMode_eq {L : List Reg} {s t : State} (h : State.Raised L s t) : t.macMode = s.macMode := by
  have e := congrArg State.macMode h.rest; exact e
theorem Raised.tod_eq {L : List Reg} {s t : State} (h : State.Raised L s t) : t.tod = s.tod := by
  have e := congrArg State.tod h.rest; exact e
theorem Raised.lkp_eq {L : List Reg} {s t : State} (h : State.Raised L s t) : t.lkp = s.lkp := by
  have e := congrArg State.lkp h.rest; exact e
theorem Raised.queues_eq {L : List Reg} {s t : State} (h : State.Raised L s t) : t.queues = s.queues := by
  have e := congrArg State.queues h.rest; exact e
theorem Raised.ports_eq {L : List Reg} {s t : State} (h : State.Raised L s t) : t.ports = s.ports := by
  have e := congrArg State.ports h.rest; exact e
theorem Raised.pkt_eq {L : List Reg} {s t : State} (h : State.Raised L s t) : t.pkt = s.pkt := by
  have e := congrArg State.pkt h.rest; exact e
theorem Raised.cxl_eq {L : List Reg} {s t : State} (h : State.Raised L s t) : t.cxl = s.cxl := by
  have e := congrArg State.cxl h.rest; exact e
theorem Raised.ddr_eq {L : List Reg} {s t : State} (h : State.Raised L s t) : t.ddr = s.ddr := by
  have e := congrArg State.ddr h.rest; exact e
theorem Raised.regions_eq {L : List Reg} {s t : State} (h : State.Raised L s t) : t.regions = s.regions := by
  have e := congrArg State.regions h.rest; exact e
theorem Raised.prots_eq {L : List Reg} {s t : State} (h : State.Raised L s t) : t.prots = s.prots := by
  have e := congrArg State.prots h.rest; exact e
theorem Raised.rings_eq {L : List Reg} {s t : State} (h : State.Raised L s t) : t.rings = s.rings := by
  have e := congrArg State.rings h.rest; exact e
theorem Raised.openMem_eq {L : List Reg} {s t : State} (h : State.Raised L s t) : t.openMem = s.openMem := by
  have e := congrArg State.openMem h.rest; exact e
theorem Raised.dcRights_eq {L : List Reg} {s t : State} (h : State.Raised L s t) : t.dcRights = s.dcRights := by
  have e := congrArg State.dcRights h.rest; exact e
theorem Raised.clk_eq {L : List Reg} {s t : State} (h : State.Raised L s t) : t.clk = s.clk := by
  have e := congrArg State.clk h.rest; exact e
theorem Raised.units_eq {L : List Reg} {s t : State} (h : State.Raised L s t) : t.units = s.units := by
  have e := congrArg State.units h.rest; exact e
theorem Raised.hearthHit_eq {L : List Reg} {s t : State} (h : State.Raised L s t) : t.hearthHit = s.hearthHit := by
  have e := congrArg State.hearthHit h.rest; exact e

end Sys2Proof.Machine
end

