-- ==== Sys2Proof/Laws/Keeps.lean ====
section
/-! SUPPORT. The frame of a write to a register or of an event: `State.keepsRegs` and `State.keepsMem` for each. -/

namespace Sys2Proof.Machine

theorem keeps_refl (L : List Reg) (s : State) : s.keepsRegs L s := fun _ _ _ _ => rfl
theorem keeps_trans {L : List Reg} {s t u : State} (h : s.keepsRegs L t) (k : t.keepsRegs L u) : s.keepsRegs L u :=
  fun a r ha hr => (k a r ha hr).trans (h a r ha hr)
theorem keeps_same {L : List Reg} {s t u : State} (h : s.keepsRegs L t) (k : u.regs = t.regs) : s.keepsRegs L u := by
  intro a r ha hr
  have : u.reg a r = t.reg a r := by unfold State.reg; rw [k]
  rw [this, h a r ha hr]
theorem keeps_put {L : List Reg} {s t : State} {a : At} {f : Fld} {v : Nat} (hf : f.reg ∈ L) (ha : a.code < 2 ^ 44)
    (h : s.keepsRegs L t) : s.keepsRegs L (t.put a f v) := by
  intro b q hb hq
  rw [State.reg_put_ne t v (regKey_ne (fun e => hq (by rw [← Reg.ctorIdx_inj e]; exact hf)) ha hb), h b q hb hq]
theorem keeps_setReg {L : List Reg} {s t : State} {a : At} {r : Reg} {v : Word} (hf : r ∈ L) (ha : a.code < 2 ^ 44)
    (h : s.keepsRegs L t) : s.keepsRegs L (t.setReg a r v) := by
  intro b q hb hq
  rw [State.reg_setReg_ne t v (regKey_ne (fun e => hq (by rw [← Reg.ctorIdx_inj e]; exact hf)) ha hb), h b q hb hq]
theorem keeps_puts {L : List Reg} {s t : State} {a : At} (l : List (Fld × Nat)) (hf : ∀ e ∈ l, e.1.reg ∈ L) (ha : a.code < 2 ^ 44)
    (h : s.keepsRegs L t) : s.keepsRegs L (t.puts a l) := by
  unfold State.puts
  induction l generalizing t with
  | nil => exact h
  | cons e l ih => exact ih (fun x hx => hf x (List.mem_cons_of_mem _ hx)) (keeps_put (hf e List.mem_cons_self) ha h)
theorem keeps_bump {L : List Reg} {s t : State} {a : At} {f : Fld} {v : Nat} (hf : f.reg ∈ L) (ha : a.code < 2 ^ 44)
    (h : s.keepsRegs L t) : s.keepsRegs L (t.bump a f v) := keeps_put hf ha h
theorem keeps_setBit {L : List Reg} {s t : State} {a : At} {f : Fld} {v : Nat} (hf : f.reg ∈ L) (ha : a.code < 2 ^ 44)
    (h : s.keepsRegs L t) : s.keepsRegs L (t.setBit a f v) := keeps_put hf ha h
theorem keeps_clrBit {L : List Reg} {s t : State} {a : At} {f : Fld} {v : Nat} (hf : f.reg ∈ L) (ha : a.code < 2 ^ 44)
    (h : s.keepsRegs L t) : s.keepsRegs L (t.clrBit a f v) := by
  unfold State.clrBit
  split
  · exact keeps_put hf ha h
  · exact h
theorem keeps_writeReg {L : List Reg} {s t : State} {a : At} {r : Reg} {v : Word} (hf : r ∈ L) (ha : a.code < 2 ^ 44)
    (h : s.keepsRegs L t) : s.keepsRegs L (t.writeReg a r v) := keeps_setReg hf ha h
theorem keeps_raise {L : List Reg} {s t : State} {d : Die} {loc x : Nat} (hL : ∀ r ∈ eventRegs, r ∈ L) (hl : loc < 2 ^ 30)
    (h : s.keepsRegs L t) : s.keepsRegs L (t.raise d loc x) := by
  intro a r ha hr
  rw [t.raise_reg d x hl (fun e => hr (hL r e)) ha, h a r ha hr]
theorem keeps_foldl {α : Type} {L : List Reg} {s : State} {f : State → α → State} {l : List α}
    (hf : ∀ t x, x ∈ l → s.keepsRegs L t → s.keepsRegs L (f t x)) {t : State} (h : s.keepsRegs L t) :
    s.keepsRegs L (l.foldl f t) := by
  induction l generalizing t with
  | nil => exact h
  | cons x l ih => exact ih (fun t y hy => hf t y (List.mem_cons_of_mem _ hy)) (hf t x List.mem_cons_self h)

theorem reg_put_of_ne (s : State) {a b : At} {f : Fld} {q : Reg} (v : Nat) (h : f.reg.ctorIdx ≠ q.ctorIdx) (ha : a.code < 2 ^ 44)
    (hb : b.code < 2 ^ 44) : (s.put a f v).reg b q = s.reg b q := State.reg_put_ne s v (regKey_ne h ha hb)
theorem get_put_of_ne (s : State) {a b : At} {f g : Fld} (v : Nat) (h : f.reg.ctorIdx ≠ g.reg.ctorIdx) (ha : a.code < 2 ^ 44)
    (hb : b.code < 2 ^ 44) : (s.put a f v).get b g = s.get b g := State.get_put_ne s v (regKey_ne h ha hb)
theorem reg_put_at_ne (s : State) {a b : At} {f : Fld} {q : Reg} (v : Nat) (h : b.code ≠ a.code) (ha : a.code < 2 ^ 44)
    (hb : b.code < 2 ^ 44) : (s.put a f v).reg b q = s.reg b q :=
  State.reg_put_ne s v (fun e => h (regKey_inj ha hb e).2)
theorem get_put_at_ne (s : State) {a b : At} {f g : Fld} (v : Nat) (h : b.code ≠ a.code) (ha : a.code < 2 ^ 44)
    (hb : b.code < 2 ^ 44) : (s.put a f v).get b g = s.get b g := by unfold State.get; rw [reg_put_at_ne s v h ha hb]
theorem atDie_ne {d e : Die} (h : e ≠ d) : (atDie e).code ≠ (atDie d).code := by
  simp only [At.code, atDie]; intro hh; apply h; cases d <;> cases e <;> simp_all [Die.idx]
end Sys2Proof.Machine
end

