-- ==== Sys2Proof/Machine/Package.lean ====
section
/-! DEFINITION. The package's figures (chapter 20): balls, dedicated pins, supply ranges, currents, lane power and temperatures. They are
readings of the state and tables of the spec; no command calls them. -/

namespace Sys2Proof.Machine

/-! ### Balls and pins (R548, R549, R551) -/

/-- A ball by its row and column, each from 1 to 78 (R548). -/
def ballOk (row col : Nat) : Bool := decide (1 ≤ row ∧ row ≤ 78 ∧ 1 ≤ col ∧ col ≤ 78)

/-- The ball groups, and the balls of each (R548). -/
def ballGroups : List (String × Nat) :=
  [("lane pins", 384), ("DDR5 channels", 636), ("HP user I/O", 384), ("HV user I/O", 72), ("dedicated pins", 45), ("VCORE_F0 to VCORE_F5", 1680),
    ("VCORE_E0, VCORE_E1", 240), ("VUNC", 160), ("VSRAM", 120), ("VLA09_E0, VLA09_E1", 160), ("VLA12_E0, VLA12_E1", 120),
    ("VDDQ_E0, VDDQ_E1", 120), ("VHP0 to VHP7", 64), ("VHV0 to VHV3", 16), ("VAUX", 4), ("GND", 1855), ("reserved", 24)]

/-- The signals of a DDR5 channel (R549): DQ, DQS pairs, CA and CS_N and CK of each subchannel, and RESET_N, ALERT_N and ZQ. -/
def ddrSignals : Nat := 80 + 2 * 20 + 2 * (14 + 2 + 2) + 3

/-- The direction of a dedicated pin (R551). -/
inductive PinDir where
  | input | output | both
  deriving DecidableEq, Repr

/-- A group of dedicated pins (R551): its pins, their direction and supply rail (R512), and their internal pull. -/
structure DedicatedPin where
  name : String
  count : Nat
  dir : PinDir
  rail : Nat
  pull : Config.PinPull
  deriving DecidableEq, Repr

/-- The dedicated pins (R551). -/
def dedicatedPins : List DedicatedPin :=
  [⟨"CFG_CLK", 1, .output, 17, .none⟩, ⟨"CFG_CS_N", 1, .output, 17, .none⟩, ⟨"CFG_DQ", 8, .both, 17, .none⟩, ⟨"CFG_DQS", 1, .input, 17, .none⟩,
    ⟨"CFG_PROG_N", 1, .input, 0, .up⟩, ⟨"CFG_DONE", 1, .output, 0, .none⟩, ⟨"CFG_ERR_N", 1, .output, 0, .none⟩, ⟨"ATTN_N", 1, .output, 0, .none⟩,
    ⟨"CFG_PULL", 1, .input, 0, .none⟩, ⟨"MODE", 3, .input, 0, .none⟩, ⟨"TCK", 1, .input, 0, .down⟩, ⟨"TMS", 1, .input, 0, .up⟩,
    ⟨"TDI", 1, .input, 0, .up⟩, ⟨"TRST_N", 1, .input, 0, .up⟩, ⟨"TDO", 1, .output, 0, .none⟩, ⟨"MGT_SCK", 1, .input, 0, .none⟩,
    ⟨"MGT_CS_N", 1, .input, 0, .up⟩, ⟨"MGT_MOSI", 1, .input, 0, .none⟩, ⟨"MGT_MISO", 1, .output, 0, .none⟩, ⟨"MGT_RDY", 1, .output, 0, .none⟩,
    ⟨"AVS_CLK", 1, .output, 0, .none⟩, ⟨"AVS_MDATA", 1, .output, 0, .none⟩, ⟨"AVS_SDATA", 1, .input, 0, .up⟩, ⟨"PMB_SCL", 1, .both, 0, .none⟩,
    ⟨"PMB_SDA", 1, .both, 0, .none⟩, ⟨"PMB_ALERT_N", 1, .input, 0, .none⟩, ⟨"XTAL_IN", 1, .input, 0, .none⟩, ⟨"XTAL_OUT", 1, .output, 0, .none⟩,
    ⟨"REFCLK0", 2, .input, 11, .none⟩, ⟨"REFCLK1", 2, .input, 11, .none⟩, ⟨"PPS_IN", 1, .input, 12, .down⟩, ⟨"PPS_OUT", 1, .output, 12, .none⟩,
    ⟨"RCLK_OUT0", 1, .output, 12, .none⟩, ⟨"RCLK_OUT1", 1, .output, 12, .none⟩]

/-- The pull that acts on a dedicated pin: its own while its supply is good (R551). -/
def State.dedicatedPull (s : State) (p : DedicatedPin) : Config.PinPull :=
  if s.flag (atSel .e0 p.rail) .PWR_RAIL_STAT_GOOD then p.pull else .none

/-! ### Supplies (R553, R554) -/

/-- The absolute maximum voltage of a rail in mV (R553). -/
def railAbsMax (rail : Nat) : Nat :=
  if rail = 0 ∨ (17 ≤ rail ∧ rail ≤ 20) then 3630
  else if rail = 11 ∨ rail = 13 then 1000
  else if rail = 12 ∨ rail = 14 ∨ 21 ≤ rail then 1320
  else if rail = 15 ∨ rail = 16 then 1300
  else 950

/-- The recommended range of a rail for its nominal voltage, in units of mV / 100 (R554): from 97 % to 103 %, or to 105 % on the high-voltage
side. -/
def railRange (rail nom : Nat) : Nat × Nat := (97 * nom, (if railHigh rail then 105 else 103) * nom)

/-- Whether a rail lies within its recommended range now (R554). -/
def State.railFit (s : State) (rail : Nat) : Bool :=
  let a := atSel .e0 rail
  let r := railRange rail (s.get a .PWR_RAIL_STAT_NOM)
  decide (r.1 ≤ 100 * s.get a .PWR_RAIL_STAT_MV ∧ 100 * s.get a .PWR_RAIL_STAT_MV ≤ r.2)

/-! ### Power and temperature (R563 to R565) -/

/-- The most current that a fabric die's core rail draws at a level, in mA (R563). -/
def coreMa (level : Nat) : Nat :=
  match level with
  | 0 => 13000 | 1 => 18200 | 2 => 22000 | _ => 26000

/-- The most power of a fabric die at a level, in mW, its share of VUNC and VSRAM included (R563). -/
def fabricMw (level : Nat) : Nat :=
  match level with
  | 0 => 11000 | 1 => 15500 | 2 => 19500 | _ => 24000

/-- The most power of a lane, in mW, by its state and its rate in kbit/s (R564). -/
def laneMw (st kbps : Nat) : Nat :=
  if st ≤ 2 ∨ st = 7 ∨ st = 10 then 10
  else if kbps ≤ 6250000 then 70
  else if kbps ≤ 12500000 then 110
  else if kbps ≤ 32000000 then 200
  else 325

/-- The most power of a die, in mW (R563, R564): of a fabric die by its level, of a port die by its lanes. -/
def State.dieMw (s : State) (d : Die) : Nat :=
  if d.isFab then fabricMw (s.get (atDie d) .PWR_PL_STAT_LEVEL)
  else (List.range 48).foldl (fun n l =>
    n + laneMw (s.laneSt d l) (s.kbps d l (s.get (atUnit d l) .LAN_LANE_STAT_RATE))) 17400

/-- The junction temperature of a die in m°C, over a lid at a temperature in m°C (R565): 0.40 °C/W from a fabric die, 0.30 from a port die. -/
def junction (d : Die) (lid mw : Nat) : Nat := lid + (if d.isFab then 40 else 30) * mw / 100

/-- The least high and the greatest low input level, in mV, of an HV or 3.3 V pin at a supply in mV (R556). -/
def hvInput (supply : Nat) : Nat × Nat :=
  if supply = 3300 then (2000, 800) else if supply = 2500 then (1700, 700) else (65 * supply / 100, 35 * supply / 100)

/-- The least high and the greatest low output level, in mV, of an HV or 3.3 V pin at its drive current (R556). -/
def hvOutput (supply : Nat) : Nat × Nat :=
  if supply = 3300 then (2400, 400) else if supply = 2500 then (2000, 400) else (supply - 450, 450)

end Sys2Proof.Machine
end

