-- ==== Sys2Proof/WellFormed.lean ====
section
/-! DEFINITION. Well-formed commands: the operands a command can have on this hardware, beyond what their types say. The machine
gives every command an outcome, well-formed or not. -/

namespace Sys2Proof

/-- SIZE of a request is 0 to 6 (R134). -/
def NocReq.wf (r : NocReq) : Bool := decide (r.size.toNat < 7)

/-- A die fence stands between two different dies (R160). -/
def FenceId.wf : FenceId → Bool
  | .parcel _ _ => true
  | .die holder toward => decide (holder ≠ toward)
  | .domain _ _ => true

/-- The unit slots that the table of R60 fills. -/
def slotExists (d : Die) (slot : Fin 16) : Bool :=
  match d with
  | .e0 => decide (slot.val ≤ 14)
  | .e1 => decide (slot.val ≠ 1 ∧ slot.val ≤ 14)
  | _ => decide (slot.val = 0 ∨ slot.val = 15)

/-- Router columns: 8 on a fabric die, 4 on a port die (R127). -/
def routerExists (d : Die) (_row col : Fin 8) : Bool := d.isFab || decide (col.val < 4)

/-- The user I/O pins of a fabric die (R550): 96 HP pins, or the 24 or 48 HV pins of F1 and F4. A parcel's port signal is on every die. -/
def FabInput.fits (d : FDie) : FabInput → Bool
  | .pin n _ => decide (n.val < match d with
    | .f1 => 24
    | .f4 => 48
    | _ => 96)
  | .port _ _ _ => true

/-- The checks on a command's operands: control-space addresses are whole words (R9); E0 never loses its own clock (R32); the units
that overrun are stroke ports of fabric dies and the walk of port dies (R59, R387); only slots of R60 report; SIZE is not 7 (R134);
routers and fences exist (R127, R160); the entry table is padded to 16 bytes and has at most 256 entries for each die (R192, R139); a window write has data within
the window (R213); a core moves 1, 2 or 4 words (R275) and has seven atomics (R295); a CXL link has 1, 2, 4 or 8 lanes (R437); only
the crystal has an amplitude (R492); ECC groups are those of the die (R486); a user I/O pin is one of the die's (R550); a frame has bytes. -/
def Instr.wf (i : Instr) : Bool :=
  match i with
  | .registerWrite _ offset _ _ => offset.toNat % 4 == 0
  | .islandStart => true
  | .powerOnResetRelease _ _ => true
  | .dieResetRequest _ _ _ => true
  | .dieResetRelease _ => true
  | .dieClockLoss die => decide (die ≠ .e0)
  | .stroke late => late.all fun e => if e.1.isFab then decide (8 ≤ e.2.val ∧ e.2.val < 24) else decide (e.2.val = 24)
  | .ptpLockRequest _ => true
  | .unitArm _ _ => true
  | .pendingSettingWrite _ _ => true
  | .changeGo => true
  | .changeCancel => true
  | .unitApplyReport die slot _ => slotExists die slot
  | .railContention _ _ => true
  | .railFlagClear _ _ _ => true
  | .railClearAll _ => true
  | .bramRead _ _ _ _ _ _ => true
  | .bramWrite _ _ _ _ _ => true
  | .bramNarrowWrite _ _ _ _ _ => true
  | .nocRequestIssue r => r.wf
  | .classXPacerRelease _ => true
  | .flitArrival die row col _ _ _ => routerExists die row col
  | .nocTargetRequest r _ _ => r.wf
  | .nocResponseArrival _ _ _ _ _ _ _ _ => true
  | .nocTimeout _ _ => true
  | .staleTagRelease _ _ => true
  | .fabricPortInitiatorRequest _ _ _ _ _ _ size _ _ _ _ => decide (size.toNat < 7)
  | .fabricPortTargetResponse _ _ _ _ _ _ => true
  | .dieCacheRequest r _ => r.wf
  | .homeDirectoryRequest _ _ _ _ => true
  | .snoopReceived _ _ _ => true
  | .snoopAckArrival _ _ _ => true
  | .homeDownWalkStep _ => true
  | .dieCacheFlush _ => true
  | .dieCacheFlushDone _ => true
  | .fenceDrained fence => fence.wf
  | .nocFenceLimit fence => fence.wf
  | .weldFlitStart _ _ => true
  | .weldDataGroup _ _ _ => true
  | .weldControlGroup _ _ _ => true
  | .weldReplayRequest _ _ _ => true
  | .weldReplayLimit _ _ => true
  | .weldControlLoss _ _ => true
  | .weldRetrainDone _ _ _ _ => true
  | .weldReceiverLock _ => true
  | .weldClockLockTimeout _ => true
  | .weldPrbsDone _ _ _ => true
  | .weldDeskewDone _ _ => true
  | .weldTrainingDone _ => true
  | .retrain _ _ => true
  | .remap _ _ => true
  | .commitMap _ _ _ => true
  | .seamUnlock _ _ _ => true
  | .seamRelock _ _ _ => true
  | .edgeTemperatureCheck => true
  | .cfgProgNLow => true
  | .cfgProgNRise _ _ => true
  | .loadPrimary _ => true
  | .loadFallback _ => true
  | .acceptStream => true
  | .flashHeaderRead _ => true
  | .loadPreparationDone => true
  | .flashSetupRecord => true
  | .flashHeaderReread _ => true
  | .entryTableReceived bytes => bytes.length % 16 == 0 && decide (bytes.length ≤ 16384)
  | .framePacket _ => true
  | .frameReread _ => true
  | .releaseStageOutputs _ => true
  | .releaseStageWriteEnables _ => true
  | .releaseStageResets _ => true
  | .cfgDone => true
  | .imageWindowWrite _ offset bytes => !bytes.isEmpty && decide (offset.toNat + bytes.length ≤ 2 ^ 28)
  | .streamStallTimeout => true
  | .cfgIn _ => true
  | .testPortCfgCmd _ => true
  | .cfgStat => true
  | .idcode => true
  | .extest _ => true
  | .samplePreload _ => true
  | .bypass => true
  | .cfgRead _ => true
  | .cfgReadCapture => true
  | .calibrationApply _ _ _ => true
  | .partialLoadAbort _ _ => true
  | .blankingDone => true
  | .parcelPowerDown _ _ _ => true
  | .parcelSwitchOpen _ _ => true
  | .parcelPowerUp _ _ => true
  | .parcelSupplyGood _ _ => true
  | .parcelBramCleared _ _ => true
  | .captureRequest _ _ _ => true
  | .captureCopyDone _ => true
  | .captureResume _ => true
  | .scrubFrameCheck _ _ => true
  | .prioLap _ => true
  | .scrubberEnable _ _ => true
  | .repairHeaderRead _ _ => true
  | .repairPacketRead _ _ => true
  | .repairFrameWritten _ => true
  | .repairTimeout _ => true
  | .hIdle _ => true
  | .hNop _ => true
  | .hWaitStroke _ => true
  | .hSync _ => true
  | .hBkpt _ => true
  | .hB _ _ => true
  | .hBc _ _ _ => true
  | .hCall _ _ => true
  | .hRet _ => true
  | .hRti _ => true
  | .hRpt _ _ _ => true
  | .hLoop _ _ _ _ => true
  | .hMovs _ _ _ _ => true
  | .hMov _ _ _ => true
  | .hAdd _ _ _ _ => true
  | .hAdds _ _ _ _ => true
  | .hSub _ _ _ _ => true
  | .hSubs _ _ _ _ => true
  | .hCmp _ _ _ => true
  | .hAnd _ _ _ _ => true
  | .hOr _ _ _ _ => true
  | .hXor _ _ _ _ => true
  | .hNot _ _ _ => true
  | .hAsl _ _ _ _ => true
  | .hAsr _ _ _ _ => true
  | .hLsr _ _ _ _ => true
  | .hMin _ _ _ _ => true
  | .hMax _ _ _ _ => true
  | .hAbs _ _ _ => true
  | .hMovi _ _ _ => true
  | .hMovhi _ _ _ => true
  | .hAluImmediate _ _ _ _ => true
  | .hLd _ width _ _ => decide (width.toNat < 3)
  | .hSt _ width _ _ => decide (width.toNat < 3)
  | .hLdp _ _ _ _ => true
  | .hWst _ _ _ _ => true
  | .hWld _ _ _ _ => true
  | .hAsv _ _ _ _ => true
  | .hAld _ _ _ _ => true
  | .hRnd _ _ _ => true
  | .hClra _ _ => true
  | .hAdda _ _ _ => true
  | .hSuba _ _ _ => true
  | .hNega _ _ => true
  | .hAsha _ _ _ => true
  | .hMvax _ _ _ _ => true
  | .hMvxa _ _ _ _ => true
  | .hMac _ _ _ _ _ _ _ => true
  | .hMac4 _ _ _ _ _ _ _ => true
  | .hDot4 _ _ _ _ _ _ _ => true
  | .hCmac _ _ _ _ _ _ _ _ => true
  | .hTng _ _ => true
  | .hTwait _ _ => true
  | .hLdx _ _ _ => true
  | .hStx _ _ _ _ => true
  | .hAtm _ op _ _ _ => decide (op.toNat < 7)
  | .interruptEntry _ => true
  | .doorbell _ => true
  | .tongsHostPost _ => true
  | .tongsDescriptorStart _ => true
  | .tongsDescriptorComplete _ => true
  | .tongsResume _ => true
  | .tongsFlush _ => true
  | .coreReset _ => true
  | .coreHold _ _ _ => true
  | .coreWatchdogExpiry _ => true
  | .coreWatchdogKick _ _ => true
  | .coreWatchdogCtrlWrite _ _ => true
  | .swdEnable _ => true
  | .swdKick _ => true
  | .systemWatchdogExpiry => true
  | .freezeSysWrite _ _ => true
  | .dbgNonce _ => true
  | .dbgAuth _ _ => true
  | .nonceExpiry => true
  | .lockoutExpiry => true
  | .dbgAcc _ _ _ => true
  | .dbgAccCapture => true
  | .sessionEnd => true
  | .trstNLow => true
  | .crossTriggerFire => true
  | .dbgStat => true
  | .dbgKeyprog _ _ => true
  | .haltRequest _ => true
  | .breakpointMatch _ _ => true
  | .haltTakesEffect _ => true
  | .debugResume _ => true
  | .debugStep _ => true
  | .debugRegWrite _ _ => true
  | .receiverDetect _ _ _ => true
  | .signalDetectChange _ _ _ => true
  | .surveyFrameSend _ _ _ => true
  | .surveyCapReceived _ _ _ => true
  | .surveyStepReqReceived _ _ _ => true
  | .surveyRateSwitch _ _ => true
  | .laneTrainingDone _ _ => true
  | .surveyStepDoneReceived _ _ _ _ => true
  | .surveyHoldReceived _ _ _ => true
  | .laneTrainingTimeout _ _ => true
  | .stepDoneTimeout _ _ => true
  | .lanSilent _ _ => true
  | .c73PageReceived _ _ _ _ => true
  | .c73TimerFailure _ _ => true
  | .pcsLinkUp _ _ => true
  | .cdrLock _ _ _ _ => true
  | .fixedRateTimeout _ _ => true
  | .fomMeasurementDone _ _ _ _ => true
  | .laneLockLoss _ _ => true
  | .recoverTimeout _ _ => true
  | .laneRestart _ _ => true
  | .laneAbort _ _ => true
  | .laneSleep _ _ => true
  | .laneWake _ _ => true
  | .wakeBurstReceived _ _ _ => true
  | .laneTxReenable _ _ => true
  | .laneMeasure _ _ => true
  | .lanePllLock _ _ _ => true
  | .prbsGeneratorEnable _ _ _ _ => true
  | .prbsSnap _ _ => true
  | .prbsClear _ _ => true
  | .lanPrbsThresh _ _ _ _ => true
  | .prbsSyncLost _ _ => true
  | .loopbackSelect _ _ _ _ => true
  | .rawWordFromFabric _ _ _ => true
  | .rawWordReceived _ _ _ => true
  | .rawFillWord _ _ => true
  | .recoveredClockEnable _ _ _ => true
  | .frameReceived _ _ bytes _ _ _ _ => !bytes.isEmpty
  | .pfcFrameReceived _ _ _ _ => true
  | .pauseFrameReceived _ _ _ => true
  | .pauseTimeExpiry _ _ _ => true
  | .pfcRepeat _ _ _ => true
  | .frameTransmit _ _ _ _ _ _ _ => true
  | .macMergeVerify _ _ _ => true
  | .lookupInsert _ _ _ _ => true
  | .lookupDelete _ _ _ => true
  | .lookupModify _ _ _ _ => true
  | .lookupRead _ _ => true
  | .lookupReadAt _ _ _ => true
  | .lookupClearHits _ => true
  | .lookupBulk _ => true
  | .bulkRecord _ _ _ _ => true
  | .lookupAbort _ => true
  | .stashMoveBack _ _ => true
  | .queueConfigWrite _ _ _ => true
  | .bufferPoolWrite _ _ _ => true
  | .queueFlush _ _ => true
  | .queueFlushAbort _ _ => true
  | .queueFlushDone _ _ => true
  | .deliveryRingFrame _ _ _ _ _ => true
  | .deliveryRingTailWrite _ _ _ => true
  | .crossDieMove _ _ => true
  | .todSet _ => true
  | .todAdj _ => true
  | .todIncrWrite _ => true
  | .todRead _ _ => true
  | .ppsEnable _ => true
  | .ppsPulse => true
  | .ppsPulseEnd => true
  | .ppsInEdge _ _ => true
  | .cmpFrameProcess _ _ => true
  | .cmpJobPost _ => true
  | .cmpJobStart _ => true
  | .cmpJobEnd _ _ _ => true
  | .cmpJobFlush _ => true
  | .cxlPartnerDetect _ => true
  | .cxlLinkUp _ _ width _ => decide (width.val = 1 ∨ width.val = 2 ∨ width.val = 4 ∨ width.val = 8)
  | .enableMem _ => true
  | .cxlSizeWrite _ _ => true
  | .cxlIoAccess _ _ => true
  | .cxlIoDone _ _ _ => true
  | .cxlRequest _ r => r.wf
  | .cxlDeviceResponse _ _ _ _ => true
  | .cxlDeviceRequest _ _ _ _ => true
  | .cxlLinkLoss _ => true
  | .cxlDetachWalkDone _ => true
  | .detach _ => true
  | .cxlDetachDrainEnd _ => true
  | .ackDetach _ => true
  | .cxlTxReenable _ => true
  | .ddrRequest _ r _ => r.wf
  | .init _ => true
  | .ddrInitDone _ => true
  | .goReady _ => true
  | .srEnter _ => true
  | .srExit _ => true
  | .ddrSrExitDone _ => true
  | .ddrModeRegisterWrite _ _ => true
  | .ddrTrainingCa _ _ _ => true
  | .ddrTrainingWlvl _ _ _ => true
  | .ddrTrainingRd _ _ _ => true
  | .ddrTrainingWr _ _ _ => true
  | .ddrTrainingAbort _ => true
  | .ddrTrainingStepDone _ _ _ _ => true
  | .ddrRefresh _ => true
  | .ddrMr4Poll _ _ _ => true
  | .ddrDqsDriftCheck _ _ _ _ => true
  | .ddrPatrolRead _ _ _ => true
  | .pcieLinkUp _ _ _ => true
  | .pcieLinkDown => true
  | .pcieTxReenable => true
  | .bar0Access _ _ _ _ => true
  | .hostRingTailWrite _ _ => true
  | .hostRingRxFrame _ _ _ _ _ _ => true
  | .hostRingTxFrame _ _ _ _ _ _ => true
  | .pcieCompletion _ _ _ => true
  | .msixHoldoffExpiry _ => true
  | .hostRingResume _ => true
  | .protRightsWrite _ _ _ => true
  | .protWalkDone _ => true
  | .regionConfigWrite _ _ _ => true
  | .regionInit _ _ => true
  | .regionInitAbort _ _ _ => true
  | .regionInitDone _ _ _ _ => true
  | .protBufferWriteback _ _ => true
  | .eccScrubStep die group _ => if die.isFab then decide (group.val < 5) else decide (8 ≤ group.val ∧ group.val < 12)
  | .eccTestArm _ _ => true
  | .sourceReady _ => true
  | .sourceTrip source kind => decide (kind.val = 2 → source.val = 0)
  | .freqWindowEnd _ _ _ => true
  | .datumPllUnlock => true
  | .datumPllLock => true
  | .rcOscillatorCheck _ => true
  | .clockSwitch _ => true
  | .switchForced => true
  | .switchComplete => true
  | .xtalEnable _ => true
  | .fabricPllUnlock _ _ => true
  | .fabricPllRelock _ _ => true
  | .pwrVoltageGood _ => true
  | .avsTimeout _ => true
  | .avsError _ _ => true
  | .clockGateWrite _ _ _ => true
  | .pmbusTransaction _ => true
  | .pmbusDone _ _ => true
  | .railBelowReset _ _ _ => true
  | .railWarningDip _ _ _ _ => true
  | .railGood _ _ => true
  | .railDipRead _ _ _ => true
  | .temperatureSample _ _ _ => true
  | .mgtWrite _ _ _ _ => true
  | .mgtRead _ _ => true
  | .mgtBurst _ _ _ => true
  | .mgtBurstWord _ _ _ => true
  | .mgtResult => true
  | .attnForceWrite _ => true
  | .userEventInput _ _ _ _ => true
  | .pmcClear _ => true
  | .pmcFreeze _ _ => true
  | .pmcCounterRead _ _ => true
  | .pmcOvf _ _ => true
  | .bwMonitorEnable _ _ _ => true
  | .bwWindowEnd _ _ => true
  | .opsecSecond => true
  | .fieldBookProgram _ => true
  | .fieldBookErase _ => true
  | .fieldBookMount _ _ => true
  | .recNote _ => true
  | .recRingRead _ _ _ => true
  | .flashSlotRead _ => true
  | .flashSlotReadDone _ => true
  | .saveUser _ => true
  | .returnToBenchmark _ => true
  | .mgtCalDone _ pairs => decide (pairs.length ≤ 8188)
  | .cxlPartnerLeave _ => true
  | .pcieCompletionTimeout _ _ => true
  | .prbsCheckerSync _ _ => true
  | .prbsCountSaturated _ _ _ => true
  | .configurationUpset _ => true
  | .memoryBitError die group _ _ => if die.isFab then decide (group.val < 5) else decide (8 ≤ group.val ∧ group.val < 12)
  | .flipFlopClockEdge die _ _ inputs => inputs.all fun i => i.fits die
  | .asyncSrAssert _ _ => true
  | .multiplyClockEdge _ _ _ _ _ => true
  | .reservedEncoding _ _ => true

end Sys2Proof
end

