-- ==== Sys2Proof/Tests/Slice0.lean ====
section
/-! SUPPORT. The model's own tests: commands that the well-formedness check refuses, worked examples of the spec, and for every
statement with hypotheses a witness: for each clause a state and operands that meet all its hypotheses together. -/

namespace Sys2Proof.Tests

open Sys2Proof Sys2Proof.Machine

-- One theorem at a time: each waits for the kernel on its own evaluation.
set_option Elab.async false

/-! ### Helpers -/

/-- The state after reset with fields written. -/
def R (l : List (At × Fld × Nat)) : State := l.foldl (fun s x => s.put x.1 x.2.1 x.2.2) State.reset

/-- A read of 4 bytes by core 0 of die F0, class H. -/
def rd : NocReq := ⟨1285, 1, 0, 1, 0, 2, false, 1, 0, 0, 15, 0, 0⟩

/-- A response flit with the check code that its bits call for. -/
def goodFlit : Flit := ⟨1, false, BitVec.ofNat 1024 (Config.flitCheck 88 0 % 2 ^ 8 * 2 ^ 88)⟩

/-- A response flit with another check code. -/
def badFlit : Flit := ⟨1, false, BitVec.ofNat 1024 ((Config.flitCheck 88 0 + 1) % 2 ^ 8 * 2 ^ 88)⟩

/-- One cell of a cluster, set to nothing. -/
def plainCluster : Config.ClusterCfg := ⟨.off, .chain, true, 0, 0, true, false, []⟩

/-- A released parcel of F5 with cluster 0 on the falling edges of global net 0, which the reference drives and which is high. -/
def clockState (stage : Nat) : State := { State.reset with
  clk := { State.reset.clk with locked := true }
  relStage := [(parcelKey .f5 0, stage)]
  clusters := [(clusterKey .f5 0, plainCluster)]
  fab := { State.reset.fab with
    tileClks := [(((7 * 88 + (clusterBox 0).1) * 120 + (clusterBox 0).2) * 16, 1)], globals := [(globalKey .f5 0, 17)], high := [globalKey .f5 0] } }

/-- Two static drivers on rail 0 of F5, or one. -/
def railState (two : Bool) (flag : Nat) : State := { State.reset.put (atSel .f5 0) .CFG_RAIL_DATA_FLAG flag with
  relStage := [(parcelKey .f5 0, 1)]
  fab := { State.reset.fab with drivers := if two then [(railKey .f5 0 * 32, 1), (railKey .f5 0 * 32 + 1, 1)] else [(railKey .f5 0 * 32, 1)] } }

/-- A block RAM's set: true dual port, or simple with ×64 ports. -/
def bramOf (wide : Bool) : Config.BramCfg := ⟨wide, if wide then 3 else 2, if wide then 3 else 2, false, false, 0, 0, false, false⟩

/-- A frame packet of zeros. -/
def pkt : Packet := ⟨0, 0, 0, 0, 0⟩

/-- The packet of frame 0 of die F5 with zero data. -/
def barePacket : Packet := ⟨BitVec.ofNat 32 (frameAddr .f5 0), 0, 0, 0, 0⟩

/-- The same packet with its CRC right. -/
def goodPacket : Packet := { barePacket with crc := BitVec.ofNat 32 (crc32c (packetCovered barePacket)) }

theorem goodPacket_crc : packetCrcOk goodPacket = true := packetCrcOk_sealed barePacket

theorem goodPacket_synd : packetSyndOk goodPacket = true := by
  have h : syndOf goodPacket.data = 0 := syndOf_zero
  simp only [packetSyndOk, h]; decide

/-- A value shifted up within a word keeps its bits. -/
theorem shifted_bits (c a w n m : Nat) (hc : c < 2 ^ w) (hn : a + w ≤ n) (hm : n ≤ m) :
    (BitVec.ofNat m (c * 2 ^ a)).toNat % 2 ^ n = c * 2 ^ a := by
  have h : c * 2 ^ a < 2 ^ n := by
    refine Nat.lt_of_lt_of_le ?_ (Nat.pow_le_pow_right (by decide) hn)
    rw [Nat.pow_add, Nat.mul_comm]
    exact Nat.mul_lt_mul_of_pos_left hc (Nat.two_pow_pos a)
  rw [BitVec.toNat_ofNat, Nat.mod_eq_of_lt (Nat.lt_of_lt_of_le h (Nat.pow_le_pow_right (by decide) hm)), Nat.mod_eq_of_lt h]

/-- The check code at [95:88] of a response flit with no other bit set. -/
theorem chkOk_shifted (c a : Nat) (ha : a = 88) :
    (⟨1, false, BitVec.ofNat 1024 (c % 2 ^ 8 * 2 ^ a)⟩ : Flit).chkOk = (c % 2 ^ 8 == Config.flitCheck 88 0 % 2 ^ 8) := by
  have e := shifted_bits (c % 2 ^ 8) a 8 160 1024 (Nat.mod_lt _ (by decide)) (by omega) (by decide)
  have hd : (⟨1, false, BitVec.ofNat 1024 (c % 2 ^ 8 * 2 ^ a)⟩ : Flit).head = c % 2 ^ 8 * 2 ^ a := e
  have hr : (⟨1, false, BitVec.ofNat 1024 (c % 2 ^ 8 * 2 ^ a)⟩ : Flit).isReq = false := rfl
  rw [Flit.chkOk, hr, hd]
  simp only [Bool.false_eq_true, if_false, bitsOf, ← ha]
  rw [Nat.mul_div_cancel _ (Nat.two_pow_pos a), Nat.mul_mod_left, Nat.mod_mod]

theorem goodFlit_chk : goodFlit.chkOk = true := by rw [goodFlit, chkOk_shifted _ _ rfl]; exact beq_self_eq_true _

theorem badFlit_chk : badFlit.chkOk = false := by
  rw [badFlit, chkOk_shifted _ _ rfl, beq_eq_false_iff_ne]
  generalize Config.flitCheck 88 0 = n
  omega

theorem groups_zero : 0 = groupBits (weldSeal 0) 24 2 * 4 + groupBits (weldSeal 0) 26 2 := by
  have h1 : groupBits (weldSeal 0) 24 2 = groupBits 0 24 2 := groupBits_weldSeal 0 8 2
  have h2 : groupBits (weldSeal 0) 26 2 = groupBits 0 26 2 := groupBits_weldSeal 0 10 2
  rw [h1, h2]; decide +kernel

theorem hasCredit_reset (r : Router) (net out cls : Nat) : State.reset.hasCredit r net out cls = true := by
  simp [State.hasCredit, show State.reset.net.used = [] from rfl, Tbl.get]

theorem railOn_nil (s : State) (d : Die) (n : Nat) (h : s.fab.drivers = []) : s.railOn d n = [] := by
  simp [State.railOn, State.driverCode, h, Tbl.get]

/-- Clearing the flags of a die's rails leaves its routing. -/
theorem railClearAll_fab (s : State) (d : Die) : (s.railClearAll d).fab = s.fab := by
  have h : ∀ (l : List Nat) (t : State), (l.foldl (fun t g =>
      if t.get (atSel d g) .CFG_RAIL_DATA_FLAG = 0 then t else t.put (atSel d g) .CFG_RAIL_DATA_FLAG 0) t).fab = t.fab := by
    intro l
    induction l with
    | nil => intro t; rfl
    | cons g l ih => intro t; rw [List.foldl_cons, ih]; split <;> rfl
  exact h _ s

theorem put_fab (s : State) (a : At) (f : Fld) (v : Nat) : (s.put a f v).fab = s.fab := rfl

/-- A line that a directory holds is in its set. -/
theorem dirSet_one (h : Die) (s : State) (hd : s.dir.map Prod.fst = [1]) (ht : s.homeTxn = []) (hh : lineHome 1 = some h) : (s.dirSet h 1).contains 1 = true := by
  simp [State.dirSet, hd, ht, hh]

/-- A frame with another CRC than its bits call for is not clean. -/
theorem unclean_of (d : Die) (f : Nat) (fr : Frame) (h : fr.crc = frameCrc (frameAddr d f) fr.data fr.synd + 1) : clean d f fr = false := by
  rw [clean, h, show (frameCrc (frameAddr d f) fr.data fr.synd == frameCrc (frameAddr d f) fr.data fr.synd + 1) = false from
    beq_eq_false_iff_ne.2 (Nat.ne_of_lt (Nat.lt_succ_self _)), Bool.and_false]

theorem unclean_bad (d : Die) (f : Nat) : clean d f { blankFrame d f with crc := (blankFrame d f).crc + 1 } = false := unclean_of _ _ _ rfl

/-- Which static drivers a rail has is a matter of its routing alone. -/
theorem railOn_fab (s t : State) (d : Die) (n : Nat) (h : s.fab = t.fab) (hc : ∀ row ∈ List.range 22, t.driverCode d n row < 2) :
    s.railOn d n = t.railOn d n := by
  refine List.filter_congr fun row hr => ?_
  have hd : s.driverCode d n row = t.driverCode d n row := by rw [State.driverCode, State.driverCode, h]
  have := hc row hr
  rw [hd]
  split <;> first | rfl | omega

/-- The state after reset with every rail good. -/
def railsUp : State := (List.range 29).foldl (fun s n => s.put (atSel .e0 n) .PWR_RAIL_STAT_GOOD 1) State.reset

/-- A survey frame with these 24 bytes and its CRC (R343). -/
def surveyOf (l : List Nat) : BitVec 224 := BitVec.ofNat 224 (ofBytesLE (l ++ bytesLE (crc32c l) 4))

/-- A frame of 64 bytes with its check sequence. -/
def frame64 : List Byte := ((List.replicate 60 0) ++ fcsOf (List.replicate 60 0)).map (BitVec.ofNat 8)

/-- A drawn nonce, and key 1 in one key slot. -/
def withNonce (slot : Nat) : State :=
  { State.reset with dbg := { State.reset.dbg with nonce := some (List.replicate 16 0), keys := [(slot, 1)] } }

/-- A lookup table in which the four buckets of key 1 and the whole stash are taken. -/
def fullLookup : State :=
  { State.reset with lkp :=
      ((List.range 4).map fun w => (lkpKey .e1 ⟨w, State.reset.bucket .e1 w 1⟩, ⟨2 ^ 128 + 1, 0, false⟩)) ++
      (List.range 1024).map fun i => (lkpKey .e1 ⟨4, i⟩, ⟨2, 0, false⟩) }

theorem fullLookup_ecc (w : Nat) : (fullLookup.eccCheck .e1 9 w).2 ≠ .uncorrectable := by
  intro h; cases h

theorem fullLookup_key : (1 : BitVec 256).toNat % 2 ^ fullLookup.keyBits PDie.e1.die = 1 := by decide +kernel

theorem fullLookup_otherKeys : (fullLookup.lkp.all fun e => e.2.key != 1) = true := by decide +kernel

theorem fullLookup_findKey :
    fullLookup.findKey PDie.e1.die ((1 : BitVec 256).toNat % 2 ^ fullLookup.keyBits PDie.e1.die) = none := by
  rw [fullLookup_key, State.findKey, List.find?_eq_none]
  intro p _ h
  obtain ⟨e, he, hk⟩ := Option.any_eq_true _ _ |>.1 h
  simp only [State.entryAt] at he
  split at he
  · cases he
  obtain ⟨x, hx, rfl⟩ := Option.map_eq_some_iff.1 he
  have := List.all_eq_true.1 fullLookup_otherKeys x (List.mem_of_find?_eq_some hx)
  simp_all

theorem fullLookup_buckets : (fullLookup.buckets .e1 1).find? (fun p => fullLookup.emptyAt .e1 p) = none := by decide +kernel

theorem fullLookup_chain : fullLookup.chain .e1 3 ((fullLookup.buckets .e1 1).map fun p => [p]) = none := by decide +kernel

theorem fullLookup_stash : (List.range 1024).find? (fun i => fullLookup.emptyAt .e1 ⟨4, i⟩) = none := by
  rw [List.find?_eq_none]
  intro i hi h
  have hm : (lkpKey .e1 ⟨4, i⟩, (⟨2, 0, false⟩ : LkpEntry)) ∈ fullLookup.lkp :=
    List.mem_append.2 (Or.inr (List.mem_map.2 ⟨i, hi, rfl⟩))
  have hf : (fullLookup.lkp.find? fun e => e.1 == lkpKey .e1 ⟨4, i⟩).isSome = true :=
    List.find?_isSome.2 ⟨_, hm, by simp⟩
  obtain ⟨x, hx⟩ := Option.isSome_iff_exists.1 hf
  simp [State.emptyAt, State.entryAt, fullLookup_ecc, hx] at h

theorem fullLookup_placeFor :
    fullLookup.placeFor PDie.e1.die ((1 : BitVec 256).toNat % 2 ^ fullLookup.keyBits PDie.e1.die) = none := by
  rw [fullLookup_key]
  have e : PDie.e1.die = Die.e1 := rfl
  simp only [State.placeFor, e, fullLookup_buckets, fullLookup_chain, fullLookup_stash, Option.map_none]

/-- A bulk record that deletes key 1. -/
def bulkWord : Nat := 2 ^ 161 * 2 ^ 160 + 1

/-- A running BULK of two records in a DDR5 channel in self-refresh, with key 1 in its first bucket. -/
def bulkState : State :=
  { R [(atDie .e1, .PKT_LKP_STAT_BUSY, 1), (atDie .e1, .PKT_LKP_BULK_CNT_COUNT, 2), (atDie .e1, .PKT_LKP_BULK_ADDR_HI_ADDR, 0x2000),
      (ddrAt 0, .MEM_DDR_STAT_STATE, 5)] with lkp := [(lkpKey .e1 ⟨0, State.reset.bucket .e1 0 1⟩, ⟨1, 5, true⟩)] }

/-- A BULK's read that waits at its channel brings the record of the command, whichever master and class it takes. -/
theorem bulk_access : ∀ (k : Fin 8) (c : Fin 3),
    (bulkState.used.engineAccess (engineReq (ident .e1 k 1 1) 3 (1 + c) false 0x200000000000 6 0 0) 0 (some bulkWord)).2 = (0, bulkWord) ∧
    (let u := (bulkState.used.engineAccess (engineReq (ident .e1 k 1 1) 3 (1 + c) false 0x200000000000 6 0 0) 0 (some bulkWord)).1
     u.findKey .e1 (bulkWord % 2 ^ 256 % 2 ^ u.keyBits .e1) = some ⟨0, State.reset.bucket .e1 0 1⟩) := by decide +kernel

theorem bulk_base : bulkState.get (atDie .e1) .PKT_LKP_BULK_ADDR_LO_ADDR + bulkState.get (atDie .e1) .PKT_LKP_BULK_ADDR_HI_ADDR * 2 ^ 32 +
    64 * bulkState.get (atDie .e1) .PKT_LKP_DONE_DONE_CNT = 0x200000000000 := by decide +kernel

theorem bulk_toNat : (BitVec.ofNat 512 bulkWord).toNat = bulkWord := by decide +kernel

theorem bulk_witness : ∃ u, bulkState.bulkRead PDie.e1.die (bulkState.get (atDie PDie.e1.die) .PKT_LKP_DONE_DONE_CNT) (0 : BitVec 4).toNat
    (BitVec.ofNat 512 bulkWord).toNat = (u, 0, bulkWord) ∧
    u.findKey .e1 (bulkWord % 2 ^ 256 % 2 ^ u.keyBits .e1) = some ⟨0, State.reset.bucket .e1 0 1⟩ := by
  have h := bulk_access ⟨bulkState.free 3, (Config.freeBits 3 bulkState.fresh).isLt⟩ ⟨bulkState.free 5 / 8 % 3, Nat.mod_lt _ (by decide)⟩
  have e : PDie.e1.die = Die.e1 := rfl
  have z : (0 : BitVec 4).toNat = 0 := rfl
  rw [bulk_toNat, e, z, State.bulkRead, bulk_base]
  exact ⟨_, Prod.ext rfl h.1, h.2⟩

/-- A frame without bytes. -/
def bareFrame : QFrame := ⟨[], 1, 0, true, 0, 0, 0, 0, 1, 1, 0, false, []⟩

/-- A queue that goes to a delivery ring in a DDR5 channel in self-refresh. -/
def ringState : State :=
  { R [(atSel .e1 1, .PKT_Q_CFG_DTYPE, 1), (atSel .e1 1, .PKT_Q_CFG_DEST, 1), (atSel .e1 1, .PKT_DRING_CFG_EN, 1),
      (atSel .e1 1, .PKT_DRING_CFG_LOG2_SIZE, 6), (atSel .e1 1, .PKT_DRING_BASE_HI_BASE, 0x2000), (ddrAt 0, .MEM_DDR_STAT_STATE, 5)] with
    queues := [(65537, ⟨[bareFrame], 0, false⟩)] }

/-- The write of a ring's line that waits at its channel counts as answered, whichever master makes it. -/
theorem ring_access : ∀ k : Fin 8, (ringState.used.engineAccess (engineReq (ident .e1 k 1 1) 3 1 true 0x200000000000 6
    (ringWords false (deliveryDescriptor bareFrame 1 0)).1 (ringWords false (deliveryDescriptor bareFrame 1 0)).2) 0 none).2.1 = 0 := by
  decide +kernel

theorem ring_line : pieces 64 400 (deliveryDescriptor bareFrame 1 0 ++ bareFrame.bytes) = [deliveryDescriptor bareFrame 1 0] := by
  decide +kernel

theorem ring_regs : ringState.flag (atSel .e1 1) .PKT_DRING_CFG_FORMAT = false ∧
    Nat.max 1 (ringState.get (atSel .e1 1) .PKT_DRING_CFG_CLS) = 1 := by decide +kernel

theorem ring_witness : ∀ x ∈ (ringState.ringLines .e1 1 0x200000000000 (2 ^ 6) 0
    (pieces 64 400 (deliveryDescriptor bareFrame 1 0 ++ bareFrame.bytes)) []).2, x = 0 := by
  have h := ring_access ⟨ringState.free 3, (Config.freeBits 3 ringState.fresh).isLt⟩
  rw [ring_line]
  intro x hx
  rw [State.ringLines] at hx
  simp only [List.zipIdx_cons, List.zipIdx_nil, List.foldl_cons, List.foldl_nil, State.ringLine, ring_regs, List.nil_append,
    List.mem_singleton] at hx
  exact hx.trans h

/-! ### Commands that are not well-formed -/

theorem test_wf_places :
    Instr.wf (.registerWrite .e0 0x102 0 0) = false ∧ Instr.wf (.dieClockLoss .e0) = false ∧
    Instr.wf (.stroke [(.f0, 24)]) = false ∧ Instr.wf (.stroke [(.e1, 8)]) = false ∧
    Instr.wf (.unitApplyReport .e1 1 true) = false ∧ Instr.wf (.unitApplyReport .f0 7 true) = false ∧
    Instr.wf (.flitArrival .e0 3 4 0 goodFlit true) = false ∧
    Instr.wf (.fenceDrained (.die .f1 .f1)) = false ∧ Instr.wf (.nocFenceLimit (.die .e0 .e0)) = false := by decide

theorem test_wf_pins :
    Instr.wf (.flipFlopClockEdge .f0 .reference true [.pin 95 none]) = true ∧
    Instr.wf (.flipFlopClockEdge .f1 .reference true [.pin 24 none]) = false ∧
    Instr.wf (.flipFlopClockEdge .f4 .reference true [.pin 48 none]) = false := by decide

theorem test_wf_sizes :
    Instr.wf (.nocRequestIssue { rd with size := 7 }) = false ∧ Instr.wf (.nocTargetRequest { rd with size := 7 } .good false) = false ∧
    Instr.wf (.fabricPortInitiatorRequest .f0 0 0 0 0 0 7 false 0 0 0) = false ∧
    Instr.wf (.dieCacheRequest { rd with size := 7 } none) = false ∧ Instr.wf (.cxlRequest 0 { rd with size := 7 }) = false ∧
    Instr.wf (.ddrRequest 0 { rd with size := 7 } .good) = false ∧ Instr.wf (.hLd ⟨.f0, 0⟩ 3 0 ⟨0, 0, 0⟩) = false ∧
    Instr.wf (.hSt ⟨.f0, 0⟩ 3 0 ⟨0, 0, 0⟩) = false ∧ Instr.wf (.hAtm ⟨.f0, 0⟩ 7 0 0 0) = false ∧
    Instr.wf (.cxlLinkUp 0 0 3 true) = false := by decide

theorem test_wf_bytes :
    Instr.wf (.entryTableReceived [1]) = false ∧ Instr.wf (.imageWindowWrite .management 0 []) = false ∧
    Instr.wf (.imageWindowWrite .management 0xFFFFFFF [1, 2]) = false ∧
    Instr.wf (.frameReceived .e0 0 [] 0 0 0 true) = false := by decide

theorem test_wf_tableLength : Instr.wf (.entryTableReceived (List.replicate 16400 0)) = false := by decide +kernel

theorem test_wf_calibration :
    Instr.wf (.mgtCalDone true (List.replicate 8188 0)) = true ∧
    Instr.wf (.mgtCalDone true (List.replicate 8189 0)) = false := by decide +kernel

theorem test_wf_groups :
    Instr.wf (.eccScrubStep .f0 5 0) = false ∧ Instr.wf (.eccScrubStep .e0 7 0) = false ∧
    Instr.wf (.memoryBitError .f0 8 0 0) = false ∧ Instr.wf (.memoryBitError .e1 12 0 0) = false ∧
    Instr.wf (.sourceTrip 1 2) = false := by decide

/-! ### Worked examples of the spec -/

/-- The block of R422's worked example: its first six bytes. -/
theorem test_compress_workedExample :
    (compressBytes ⟨false, 24, 8, 0⟩ 1
      (([2701, -3000, 80, 112, -48, 0] ++ List.replicate 18 0 : List Int).flatMap (writeComp ⟨false, 24, 8, 0⟩))).take 6 =
      [0x45, 0x25, 0x2A, 0x40, 0xE0, 0x0F] := by decide +kernel

/-- The output of the worked example after R123. -/
theorem test_multiply_workedExample : multOut ⟨true, true, true, true, true, 8, true, true, 12, 0⟩ (-3641500) = (-2048, true) := by
  decide +kernel

/-- The report of the worked example after R90: rail 14,217 of F1, its parcel released. -/
theorem test_contention_workedExample :
    ∃ t, exec (.railContention .f1 14217) { State.reset with
        relStage := [(parcelKey .f1 (railParcel 14217), 3)]
        fab := { State.reset.fab with drivers := [(railKey .f1 14217 * 32, 1), (railKey .f1 14217 * 32 + 21, 1)] } } = .next t ∧
      t.reg (atDie .f1) .CFG_RAIL_CONT = 0x80004789 :=
  ⟨_, rfl, by decide +kernel⟩

/-- The window stores of R272's table: to even, up from an odd half, above a half, and saturated. -/
theorem test_window_workedExamples :
    windowWord 0x00_1234_5680_0000 3 = (0x123456, false) ∧ windowWord 0x00_1234_5780_0000 3 = (0x123458, false) ∧
    windowWord 0x00_1234_5680_0001 3 = (0x123457, false) ∧ windowWord 0xFF_FFFF_FE80_0000 3 = (0xFFFFFE, false) ∧
    windowWord 0x00_7FFF_FF80_0000 3 = (0x7FFFFF, true) ∧ windowWord 0x01_0000_0000_0000 3 = (0x7FFFFF, true) := by decide +kernel

/-! ### Witnesses of the statements' hypotheses -/

/-- Words written out from the encoding of R299: NOP, ADD X3, X1, X2, a clearing MAC into A1 with two quad loads, a load of four words
and two reserved encodings. -/
theorem test_hammer_words (c : CoreId) :
    hammerDecode c 0x00400000 = some (.hNop c) ∧ hammerDecode c 0x20989000 = some (.hAdd c 3 1 2) ∧
    hammerDecode c 0x5280C220 = some (.hMac c 1 false true 0 1 ⟨2, 0, 1, 0, 1⟩) ∧
    hammerDecode c 0x32480000 = some (.hLd c 2 4 ⟨4, 0, 0⟩) ∧ hammerDecode c 0x80000000 = none ∧ hammerDecode c 0x33000000 = none :=
  ⟨rfl, rfl, rfl, rfl, rfl, rfl⟩

theorem witness_EventCommandsRun :
    (∃ (die : FDie) (p : Fin 16) (s : State), s.parcelRuns die.die p = true) ∧
    (∃ (die : Die) (c : Fin 64) (s : State), s.pmcChained die c = false) ∧
    (∃ (die : Die) (c : Fin 64) (s : State), s.pmcLow die c = false ∧ s.pmcCount die c < 2 ^ 48 ∧ (s.setPmc die c 0).pmcOvfBit die c =
    false) ∧
    (∃ (die : Die) (m : Fin 32) (s : State), (Tbl.get BwMon.off s.bw (bwKey die m)).running = true ∧ (Tbl.get BwMon.off s.bw (bwKey die
    m)).strokesLeft = 0) :=
  ⟨⟨.f5, 15, R [(atDie (.f5 : FDie).die, .PRC_STATE_P (15 : Fin 16), 0)], by decide +kernel⟩,
   ⟨.e1, 63, State.reset, by decide +kernel⟩,
   ⟨.e1, 63, State.reset, by decide +kernel⟩,
   ⟨.e1, 31, { State.reset with bw := [(bwKey (.e1 : Die) (31 : Fin 32), ⟨false, true, 100, 5, 0⟩)] }, by decide +kernel⟩⟩

theorem witness_FieldBookAndCalibrationCommandsRun :
    (∃ (s : State) (seq : Nat) (upd : Bool) (rest : List (Nat × Bool)), s.bookWrites = true ∧ s.book.eraseDue = none ∧ s.book.queue =
    (seq, upd) :: rest) ∧
    (∃ (s : State) (seq : Nat) (upd : Bool) (rest : List (Nat × Bool)) (result : Fin 3), s.bookWrites = true ∧ s.book.eraseDue = none ∧
    s.book.queue = (seq, upd) :: rest ∧ result ≠ 0) ∧
    (∃ (s : State) (k : Nat), s.bookWrites = true ∧ s.book.eraseDue = some k) ∧
    (∃ (s : State) (k : Nat), s.bookWrites = true ∧ s.book.eraseDue = some k) ∧
    (∃ (s : State), s.flag (atDie .e0) .REC_STAT_MOUNTED = false ∧ s.flashLoad = false) ∧
    (∃ (s : State), s.book.ring.length < 4096) ∧
    (∃ (word : Fin 8), word ≠ 0) ∧
    (∃ (s : State), s.flag (atDie .e0) .REC_FL_SLOT_BUSY = true ∧ s.flashLoad = false) ∧
    (∃ (s : State), s.flag (atDie .e0) .MGT_STAT_CAL_BUSY = false ∧ s.flashLoad = false ∧ s.get (atDie .e0) .MGT_CAL_LEN_PAIRS ≤ 8188) ∧
    (∃ (s : State), s.flag (atDie .e0) .MGT_STAT_CAL_BUSY = false ∧ s.flashLoad = false ∧ s.get (atDie .e0) .MGT_CAL_LEN_PAIRS ≤ 8188) ∧
    (∃ (key : BitVec 8), key ≠ 0x4E) ∧
    (∃ (s : State), s.flag (atDie .e0) .MGT_STAT_CAL_BUSY = true) ∧
    (∃ (s : State), s.flag (atDie .e0) .MGT_STAT_CAL_BUSY = true) :=
  ⟨⟨{ R [(atDie .e0, .REC_STAT_MOUNTED, 1)] with book := { State.reset.book with queue := (0, true) :: ([] : List (Nat × Bool)), erased := [0] } }, 0, true, [], by decide +kernel⟩,
   ⟨{ R [(atDie .e0, .REC_STAT_MOUNTED, 1)] with book := { State.reset.book with queue := (0, true) :: ([] : List (Nat × Bool)), erased := [0] } }, 0, true, [], 2, by decide +kernel⟩,
   ⟨R [(atDie .e0, .REC_STAT_MOUNTED, 1)], 0, by decide +kernel⟩,
   ⟨R [(atDie .e0, .REC_STAT_MOUNTED, 1)], 0, by decide +kernel⟩,
   ⟨State.reset, by decide +kernel⟩,
   ⟨State.reset, by decide +kernel⟩,
   ⟨7, by decide +kernel⟩,
   ⟨R [((atDie .e0), .REC_FL_SLOT_BUSY, 1)], by decide +kernel⟩,
   ⟨R [(atDie .e0, .MGT_CAL_LEN_PAIRS, 8188)], by decide +kernel⟩,
   ⟨R [(atDie .e0, .MGT_CAL_LEN_PAIRS, 8188)], by decide +kernel⟩,
   ⟨1, by decide +kernel⟩,
   ⟨R [((atDie .e0), .MGT_STAT_CAL_BUSY, 1)], by decide +kernel⟩,
   ⟨R [((atDie .e0), .MGT_STAT_CAL_BUSY, 1)], by decide +kernel⟩⟩

theorem witness_EccCommandsRun :
    (∃ (die : Die) (g : Fin 16) (s : State), eccOn die g = true ∧ s.flag (atSel die g) .ECC_GRP_CTRL_SCRUB = true) ∧
    (∃ (die : Die) (g : Fin 16) (a : BitVec 24) (bit : Fin 72), eccOn die g = true ∧ a.toNat < eccSize g ∧ (bit.val < eccWidth g ∨ 2 ^
    (bit.val - eccWidth g) < eccChkMask g)) ∧
    (∃ (die : Die) (g : Fin 16) (a : BitVec 24) (bit : Fin 72) (s : State), eccOn die g = true ∧ a.toNat < eccSize g ∧ (bit.val <
    eccWidth g ∨ 2 ^ (bit.val - eccWidth g) < eccChkMask g) ∧ s.eccMarked die g a.toNat = false ∧ s.eccData die g a.toNat < 2 ^
    eccWidth g) ∧
    (∃ (die : Die) (g : Fin 16) (a : BitVec 24) (bit : Fin 72) (other : Fin 72) (s : State), eccOn die g = true ∧ a.toNat < eccSize g ∧
    (bit.val < eccWidth g ∨ 2 ^ (bit.val - eccWidth g) < eccChkMask g) ∧ (other.val < eccWidth g ∨ 2 ^ (other.val - eccWidth g) <
    eccChkMask g) ∧ bit ≠ other ∧ s.eccMarked die g a.toNat = false ∧ s.eccData die g a.toNat < 2 ^ eccWidth g) :=
  ⟨⟨.f5, 4, R [((atSel (.f5 : Die) (4 : Fin 16)), .ECC_GRP_CTRL_SCRUB, 1)], by decide +kernel⟩,
   ⟨.f5, 4, 524287, 29, by decide +kernel⟩,
   ⟨.f5, 4, 524287, 29, State.reset, by decide +kernel⟩,
   ⟨.f5, 4, 524287, 29, 3, State.reset, by decide +kernel, by decide +kernel, by decide +kernel, by decide +kernel, by decide +kernel, by decide +kernel, by decide +kernel⟩⟩

theorem witness_RailCommandsRun :
    (∃ (die : FDie) (rail : Fin 24576) (s : State), 2 ≤ (s.railOn die.die rail).length ∧ 1 ≤ s.stageOf die.die (railParcel rail) ∧
    s.railFlag die.die rail = false) ∧
    (∃ (die : FDie) (rail : Fin 24576) (s : State), ((s.railOn die.die rail).length < 2 ∨ s.stageOf die.die (railParcel rail) = 0 ∨
    s.railFlag die.die rail = true)) ∧
    (∃ (die : FDie) (rail : Fin 24576) (row : Nat) (s : State), s.railOn die.die rail = [row] ∧ 1 ≤ s.stageOf die.die (railParcel rail)
    ∧ s.railFlag die.die rail = false) ∧
    (∃ (die : FDie) (group : Fin 768) (mask : BitVec 32) (s : State) (u : State), u = s.put (atSel die.die group) .CFG_RAIL_DATA_FLAG
    (s.reg (atSel die.die group) .CFG_RAIL_DATA &&& ~~~ mask).toNat ∧ (∀ b, b < 32 → (u.railOn die.die (32 * group + b)).length < 2)) ∧
    (∃ (die : FDie) (group : Fin 768) (b : Fin 32) (mask : BitVec 32) (s : State) (u : State), u = s.put (atSel die.die group)
    .CFG_RAIL_DATA_FLAG (s.reg (atSel die.die group) .CFG_RAIL_DATA &&& ~~~ mask).toNat ∧ mask.getLsbD b = true ∧ s.railFlag die.die
    (32 * group + b) = true ∧ 2 ≤ (u.railOn die.die (32 * group + b)).length ∧ 1 ≤ s.stageOf die.die (railParcel (32 * group + b))) ∧
    (∃ (die : FDie) (s : State), (∀ n, n < 24576 → ((s.railClearAll die.die).railOn die.die n).length < 2)) ∧
    (∃ (die : FDie) (rail : Fin 24576) (s : State), s.railFlag die.die rail = true ∧ 2 ≤ ((s.railClearAll die.die).railOn die.die
    rail).length ∧ 1 ≤ s.stageOf die.die (railParcel rail)) ∧
    (∃ (d : Die) (rail : Nat) (s : State), s.railOff d rail = true) :=
  ⟨⟨.f5, 0, railState true 0, by decide +kernel⟩,
   ⟨.f5, 24575, State.reset, by decide +kernel⟩,
   ⟨.f5, 0, 0, railState false 0, by decide +kernel⟩,
   ⟨.f5, 0, 1, State.reset, State.reset.put (atSel FDie.f5.die (0 : Fin 768)) .CFG_RAIL_DATA_FLAG (State.reset.reg (atSel FDie.f5.die (0 : Fin 768)) .CFG_RAIL_DATA &&& ~~~ (1 : BitVec 32)).toNat, rfl, fun b _ => by rw [railOn_nil _ _ _ ((congrArg Fab.drivers (put_fab _ _ _ _)).trans rfl)]; decide⟩,
   ⟨.f5, 0, 0, 1, railState true 1, (railState true 1).put (atSel FDie.f5.die (0 : Fin 768)) .CFG_RAIL_DATA_FLAG ((railState true 1).reg (atSel FDie.f5.die (0 : Fin 768)) .CFG_RAIL_DATA &&& ~~~ (1 : BitVec 32)).toNat, rfl, by decide +kernel, by decide +kernel, by decide +kernel, by decide +kernel⟩,
   ⟨.f5, State.reset, fun n _ => by rw [railOn_nil _ _ _ ((congrArg Fab.drivers (railClearAll_fab _ _)).trans rfl)]; decide⟩,
   ⟨.f5, 0, railState true 1, by decide +kernel, by rw [railOn_fab _ (railState true 1) FDie.f5.die (0 : Fin 24576).val (railClearAll_fab _ _) (by decide +kernel)]; decide +kernel, by decide +kernel⟩,
   ⟨.e1, 0, State.reset, by decide +kernel⟩⟩

theorem witness_FlipFlopCommandsRun :
    (∃ (die : FDie) (cluster : Fin 270336) (src : ClkSrc) (rising : Bool) (ins : List FabInput) (edges : List (Nat × Bool)) (cfg :
    Config.ClusterCfg) (e0 : Bool) (e1 : Bool) (s : State) (u : State), u = (ins.foldl (fun s i => s.present die.die i) (s.railSettle
    die.die)).railSettle die.die ∧ u.srcMoves die.die src rising = true ∧ Tbl.has u.clusters (clusterKey die.die cluster) = true ∧ cfg
    = u.cluster die.die cluster ∧ edges = u.parcelEdges die.die (clusterParcel cluster) src rising (u.globalEdge die.die src rising) ∧
    e0 = u.edgeAt die.die edges (clusterBox cluster) cfg.clk0 cfg.inv0 ∧ e1 = u.edgeAt die.die edges (clusterBox cluster) cfg.clk1
    cfg.inv1 ∧ (e0 || e1) = true ∧ u.stageOf die.die (clusterParcel cluster) = 3) ∧
    (∃ (die : FDie) (cluster : Fin 270336) (src : ClkSrc) (rising : Bool) (ins : List FabInput) (edges : List (Nat × Bool)) (cfg :
    Config.ClusterCfg) (s : State) (u : State), u = (ins.foldl (fun s i => s.present die.die i) (s.railSettle die.die)).railSettle
    die.die ∧ cfg = u.cluster die.die cluster ∧ edges = u.parcelEdges die.die (clusterParcel cluster) src rising (u.globalEdge die.die
    src rising) ∧ (u.stageOf die.die (clusterParcel cluster) < 3 ∨ (u.edgeAt die.die edges (clusterBox cluster) cfg.clk0 cfg.inv0 =
    false ∧ u.edgeAt die.die edges (clusterBox cluster) cfg.clk1 cfg.inv1 = false))) ∧
    (∃ (die : FDie) (n : Nat) (src : ClkSrc) (rising : Bool) (ins : List FabInput) (s : State) (u : State), u = (ins.foldl (fun s i =>
    s.present die.die i) (s.railSettle die.die)).railSettle die.die ∧ u.srcMoves die.die src rising = true ∧ n ∈ u.globalEdge die.die
    src rising) ∧
    (∃ (die : FDie) (src : ClkSrc) (rising : Bool) (ins : List FabInput) (s : State) (u : State), u = (ins.foldl (fun s i => s.present
    die.die i) (s.railSettle die.die)).railSettle die.die ∧ u.srcMoves die.die src rising = false) ∧
    (∃ (die : FDie) (cluster : Fin 270336) (s : State), (s.cluster die.die cluster).async = true ∧ s.stageOf die.die (clusterParcel
    cluster) = 3 ∧ s.nodeVal die.die (.cell cluster 66) = true) ∧
    (∃ (die : FDie) (cluster : Fin 270336) (s : State), ((s.cluster die.die cluster).async = false ∨ s.stageOf die.die (clusterParcel
    cluster) ≠ 3 ∨ s.nodeVal die.die (.cell cluster 66) = false)) :=
  ⟨⟨.f5, 0, .reference, false, [], (((([] : List FabInput).foldl (fun s i => s.present .f5 i) ((clockState 3).railSettle .f5)).railSettle .f5).parcelEdges .f5 0 .reference false (((([] : List FabInput).foldl (fun s i => s.present .f5 i) ((clockState 3).railSettle .f5)).railSettle .f5).globalEdge .f5 .reference false)), plainCluster, true, false, clockState 3, ((([] : List FabInput).foldl (fun s i => s.present .f5 i) ((clockState 3).railSettle .f5)).railSettle .f5), rfl, by decide +kernel, by decide +kernel, by decide +kernel, rfl, by decide +kernel, by decide +kernel, by decide +kernel, by decide +kernel⟩,
   ⟨.f5, 0, .reference, false, [], (((([] : List FabInput).foldl (fun s i => s.present .f5 i) ((clockState 1).railSettle .f5)).railSettle .f5).parcelEdges .f5 0 .reference false (((([] : List FabInput).foldl (fun s i => s.present .f5 i) ((clockState 1).railSettle .f5)).railSettle .f5).globalEdge .f5 .reference false)), plainCluster, clockState 1, ((([] : List FabInput).foldl (fun s i => s.present .f5 i) ((clockState 1).railSettle .f5)).railSettle .f5), rfl, by decide +kernel, rfl, Or.inl (by decide +kernel)⟩,
   ⟨.f5, 0, .reference, false, [], clockState 3, ((([] : List FabInput).foldl (fun s i => s.present .f5 i) ((clockState 3).railSettle .f5)).railSettle .f5), rfl, by decide +kernel, by decide +kernel⟩,
   ⟨.f5, .reference, true, [], State.reset, ((([] : List FabInput).foldl (fun s i => s.present .f5 i) (State.reset.railSettle .f5)).railSettle .f5), rfl, by decide +kernel⟩,
   ⟨.f5, 0, { clockState 3 with fab := { State.reset.fab with muxes := [(muxKey .f5 (.cell 0 66), (.cell 0 66, .out 0 16))] }, ffs := [(clusterKey .f5 0, 1)] }, by decide +kernel⟩,
   ⟨.f5, 0, State.reset, by decide +kernel⟩⟩

theorem witness_BlockRamAndMultiplyCommandsRun :
    (∃ (die : FDie) (block : Fin 2112) (addr : BitVec 12) (c : Config.BramCfg) (s : State), s.stageOf die.die (bramParcel block) = 3 ∧
    s.frozen.contains (parcelKey die.die (bramParcel block)) = false ∧ s.bramSet die.die block = c ∧ c.simple = false ∧ c.geomA = 2 ∧
    c.geomB = 2 ∧ c.outA = false ∧ c.outB = false ∧ s.eccMarked die.die 0 (block * 1024 + addr.toNat % 1024) = false) ∧
    (∃ (die : FDie) (block : Fin 2112) (x : BramAccess) (c : Config.BramCfg) (s : State), x.we.toNat % 16 = 15 ∧ 2 ≤ s.stageOf die.die
    (bramParcel block) ∧ s.frozen.contains (parcelKey die.die (bramParcel block)) = false ∧ s.bramSet die.die block = c ∧ c.simple =
    false ∧ c.geomA = 2 ∧ c.geomB = 2) ∧
    (∃ (die : FDie) (block : Fin 2112) (x : BramAccess) (c : Config.BramCfg) (s : State), x.we.toNat % 16 ≠ 0 ∧ x.we.toNat % 16 ≠ 15 ∧
    2 ≤ s.stageOf die.die (bramParcel block) ∧ s.frozen.contains (parcelKey die.die (bramParcel block)) = false ∧ s.bramSet die.die
    block = c ∧ c.simple = false ∧ c.geomA = 2 ∧ c.geomB = 2 ∧ s.eccMarked die.die 0 (block * 1024 + x.addr.toNat % 1024) = false) ∧
    (∃ (die : FDie) (block : Fin 2112) (s : State), s.stageOf die.die (bramParcel block) < 3) ∧
    (∃ (die : FDie) (block : Fin 2112) (x : BramAccess) (c : Config.BramCfg) (s : State), x.we = 255 ∧ 2 ≤ s.stageOf die.die
    (bramParcel block) ∧ s.frozen.contains (parcelKey die.die (bramParcel block)) = false ∧ s.bramSet die.die block = c ∧ c.simple =
    true ∧ c.geomA = 3) ∧
    (∃ (die : FDie) (block : Fin 2112) (addr : BitVec 12) (c : Config.BramCfg) (s : State), s.stageOf die.die (bramParcel block) = 3 ∧
    s.frozen.contains (parcelKey die.die (bramParcel block)) = false ∧ s.bramSet die.die block = c ∧ c.simple = true ∧ c.geomB = 3 ∧
    c.outB = false ∧ s.eccMarked die.die 0 (block * 1024 + 2 * (addr.toNat % 512)) = false ∧ s.eccMarked die.die 0 (block * 1024 + 2 *
    (addr.toNat % 512) + 1) = false) ∧
    (∃ (die : FDie) (block : Fin 4224) (s : State), s.stageOf die.die (multParcel block) = 3 ∧ s.frozen.contains (parcelKey die.die
    (multParcel block)) = false) ∧
    (∃ (die : FDie) (block : Fin 4224) (s : State), s.stageOf die.die (multParcel block) < 3) :=
  ⟨⟨.f5, 2111, 1, bramOf false, { State.reset with relStage := [(parcelKey .f5 15, 3)], bramCfg := [(bramKey .f5 2111, bramOf false)] }, by decide +kernel⟩,
   ⟨.f5, 2111, ⟨4095, 15, 0xFFFFFFFF, false⟩, bramOf false, { State.reset with relStage := [(parcelKey .f5 15, 2)], bramCfg := [(bramKey .f5 2111, bramOf false)] }, by decide +kernel⟩,
   ⟨.f5, 2111, ⟨4095, 5, 0xFFFFFFFF, false⟩, bramOf false, { State.reset with relStage := [(parcelKey .f5 15, 2)], bramCfg := [(bramKey .f5 2111, bramOf false)] }, by decide +kernel⟩,
   ⟨.f5, 2111, State.reset, by decide +kernel⟩,
   ⟨.f5, 2111, ⟨511, 255, 0xFFFFFFFF00000001, false⟩, bramOf true, { State.reset with relStage := [(parcelKey .f5 15, 2)], bramCfg := [(bramKey .f5 2111, bramOf true)] }, by decide +kernel⟩,
   ⟨.f5, 2111, 1, bramOf true, { State.reset with relStage := [(parcelKey .f5 15, 3)], bramCfg := [(bramKey .f5 2111, bramOf true)] }, by decide +kernel⟩,
   ⟨.f5, 4223, { State.reset with relStage := [(parcelKey (.f5 : FDie).die (multParcel (4223 : Fin 4224)), 3)] }, by decide +kernel⟩,
   ⟨.f5, 4223, State.reset, by decide +kernel⟩⟩

theorem witness_MultiplyBlockArithmetic :
    (∃ (die : FDie) (block : Fin 4224) (i : MultIn) (a : Int) (b : Int) (d : Int) (psub : Bool) (s : State), s.stageOf die.die
    (multParcel block) = 3 ∧ s.frozen.contains (parcelKey die.die (multParcel block)) = false ∧ a = (if (s.multSet die.die
    block).stage1 then (s.mult die.die block).a else i.a.toInt) ∧ b = (if (s.multSet die.die block).stage1 then (s.mult die.die
    block).b else i.b.toInt) ∧ d = (if (s.multSet die.die block).stage1 then (s.mult die.die block).d else i.d.toInt) ∧ psub = (if
    (s.multSet die.die block).stage1 then (s.mult die.die block).psub else i.psub)) ∧
    (∃ (x : Int) (y : Int), -(2 ^ 25) ≤ x ∧ x < 2 ^ 25 ∧ -(2 ^ 19) ≤ y ∧ y < 2 ^ 19) ∧
    (∃ (cfg : Config.MultCfg) (p : Int) (v : Int), cfg.saturate = false ∧ v = (multOut cfg p).1) ∧
    (∃ (cfg : Config.MultCfg) (p : Int) (v : Int), cfg.saturate = true ∧ 2 ≤ cfg.satWidth ∧ cfg.satWidth ≤ 63 ∧ v = (multOut
    { cfg with saturate := false } p).1) :=
  ⟨⟨.f5, 4223, ⟨5, 6, 7, 8, false, true, 1⟩, 5, 7, 6, false, { State.reset with relStage := [(parcelKey (.f5 : FDie).die (multParcel (4223 : Fin 4224)), 3)] }, by decide +kernel⟩,
   ⟨-(2 ^ 25), 2 ^ 19 - 1, by decide +kernel⟩,
   ⟨⟨true, true, true, true, true, 63, true, false, 2, 0⟩, 12345, (multOut ⟨true, true, true, true, true, 63, true, false, 2, 0⟩ 12345).1, by decide +kernel⟩,
   ⟨⟨true, true, true, true, true, 1, true, true, 2, 0⟩, 12345, (multOut ⟨true, true, true, true, true, 1, true, false, 2, 0⟩ 12345).1, by decide +kernel⟩⟩

theorem witness_DieCommandsRun :
    (∃ (s : State), s.clk.power = 0) ∧
    (∃ (mode : BitVec 3) (pull : Bool) (s : State) (u : State), s.clk.power = 1 ∧ s.railsGood = true ∧ s.cfg.progLow = false ∧ u =
    Die.all.foldl (fun s d => if d.isFab then s.avsWrite d 750 else s) (((s.setClk { s.clk with power := 2 }).bookAdd 3 0 (s.reg (atDie
    .e0) .DIE_RST_CAUSE).toNat).puts (atDie .e0) [(.CFG_SRC_MODE, mode.toNat), (.CFG_SRC_PULL, natOf pull)])) ∧
    (∃ (key : BitVec 8), key ≠ 0x5D) ∧
    (∃ (d : Die) (s : State), d ≠ .e0 ∧ (s.dieSt d = 0 ∨ s.dieSt d = 3)) ∧
    (∃ (d : Die) (s : State), d ≠ .e0 ∧ (s.dieSt d = 1 ∨ s.dieSt d = 2)) ∧
    (∃ (d : Die) (s : State), s.dieSt d = 1 ∧ s.flag (atSel .e0 (coreRail d)) .PWR_RAIL_STAT_GOOD = true ∧ s.flag (atDie d)
    .PWR_PL_STAT_SEQ = false) ∧
    (∃ (d : Die) (s : State), d ≠ .e0 ∧ s.clk.locked = true ∧ (s.dieSt d = 0 ∨ s.dieSt d = 2) ∧ s.flag (atSel .e0 (coreRail d))
    .PWR_RAIL_STAT_GOOD = true) ∧
    (∃ (s : State), s.clk.power ≠ 0) ∧
    (∃ (die : FDie) (s : State), s.clk.power ≠ 0 ∧ Tbl.get 0 s.dieStep die.die.idx = 6) ∧
    (∃ (rail : Fin 29) (s : State), s.clk.power = 1 ∧ rail ≠ 0 ∧ s.flag (atSel .e0 rail) .PWR_RAIL_STAT_GOOD = true) ∧
    (∃ (s : State), s.clk.power ≠ 0 ∧ s.flag (atSel .e0 0) .PWR_RAIL_STAT_GOOD = true) ∧
    (∃ (die : FDie) (s : State), s.flag (atDie die.die) .PWR_PL_STAT_SEQ = true) ∧
    (∃ (s : State) (u : State), s.clk.power = 2 ∧ s.clk.locked = false ∧ s.srcReady s.active = true ∧ u = (s.put (atDie .e0)
    .CLK_STATUS_LOCKED 1).setClk { s.clk with locked := true }) ∧
    (∃ (s : State), s.clk.locked = true ∧ s.clk.relocks = true) :=
  ⟨⟨{ State.reset with clk := { State.reset.clk with power := 0 } }, by decide +kernel⟩,
   ⟨1, true, { railsUp with clk := { State.reset.clk with power := 1 } }, Die.all.foldl (fun s d => if d.isFab then s.avsWrite d 750 else s) (((({ railsUp with clk := { State.reset.clk with power := 1 } } : State).setClk { ({ railsUp with clk := { State.reset.clk with power := 1 } } : State).clk with power := 2 }).bookAdd 3 0 (({ railsUp with clk := { State.reset.clk with power := 1 } } : State).reg (atDie .e0) .DIE_RST_CAUSE).toNat).puts (atDie .e0) [(.CFG_SRC_MODE, (1 : BitVec 3).toNat), (.CFG_SRC_PULL, natOf true)]), by decide +kernel, by decide +kernel, by decide +kernel, rfl⟩,
   ⟨0x5C, by decide +kernel⟩,
   ⟨.e1, R [(atDie .e0, .DIE_STATE_ST (.e1 : Die).idx, 0)], by decide +kernel⟩,
   ⟨.e1, R [(atDie .e0, .DIE_STATE_ST (.e1 : Die).idx, 1)], by decide +kernel⟩,
   ⟨.e1, R [(atDie .e0, .DIE_STATE_ST (.e1 : Die).idx, 1), ((atSel .e0 (coreRail (.e1 : Die))), .PWR_RAIL_STAT_GOOD, 1)], by decide +kernel⟩,
   ⟨.e1, { R [(atDie .e0, .DIE_STATE_ST (.e1 : Die).idx, 0), ((atSel .e0 (coreRail (.e1 : Die))), .PWR_RAIL_STAT_GOOD, 1)] with clk := { State.reset.clk with locked := true } }, by decide +kernel⟩,
   ⟨{ State.reset with clk := { State.reset.clk with power := 1 } }, by decide +kernel⟩,
   ⟨.f5, { State.reset with clk := { State.reset.clk with power := 1 }, dieStep := [(7, 6)] }, by decide +kernel⟩,
   ⟨28, { R [((atSel .e0 (28 : Fin 29)), .PWR_RAIL_STAT_GOOD, 1)] with clk := { State.reset.clk with power := 1 } }, by decide +kernel⟩,
   ⟨{ R [((atSel .e0 0), .PWR_RAIL_STAT_GOOD, 1)] with clk := { State.reset.clk with power := 1 } }, by decide +kernel⟩,
   ⟨.f5, R [((atDie (.f5 : FDie).die), .PWR_PL_STAT_SEQ, 1)], by decide +kernel⟩,
   ⟨{ R [(atDie .e0, .CLK_SRC_STAT_READY, 1)] with clk := { State.reset.clk with power := 2 } }, (({ R [(atDie .e0, .CLK_SRC_STAT_READY, 1)] with clk := { State.reset.clk with power := 2 } } : State).put (atDie .e0) .CLK_STATUS_LOCKED 1).setClk { ({ R [(atDie .e0, .CLK_SRC_STAT_READY, 1)] with clk := { State.reset.clk with power := 2 } } : State).clk with locked := true }, by decide +kernel, by decide +kernel, by decide +kernel, rfl⟩,
   ⟨{ State.reset with clk := { State.reset.clk with locked := true, relocks := true } }, by decide +kernel⟩⟩

theorem witness_StrokeAndChangeCommandsRun :
    (∃ (s : State), s.clk.locked = true) ∧
    (∃ (s : State), s.clk.locked = false) ∧
    (∃ (s : State), dividesSecond (s.get (atDie .e0) .STK_TIMING_PERIOD) (s.get (atDie .e0) .STK_TIMING_HEAT) = true ∧ s.flag (atDie
    .e0) .PKT_TOD_CTRL_RUN = true ∧ s.flag (atDie .e0) .STK_STATUS_UNTIMED = false) ∧
    (∃ (s : State), (dividesSecond (s.get (atDie .e0) .STK_TIMING_PERIOD) (s.get (atDie .e0) .STK_TIMING_HEAT) = false ∨ s.flag (atDie
    .e0) .PKT_TOD_CTRL_RUN = false ∨ s.flag (atDie .e0) .STK_STATUS_UNTIMED = true)) ∧
    (∃ (d : Die) (s : State), s.up d = true ∧ s.get (atDie d) .STK_UNIT_CTRL_ARM = 0) ∧
    (∃ (s : State), s.up .e0 = true ∧ s.get (atDie .e0) .STK_UNIT_CTRL_ARM = 0 ∧ s.timingFits = false) ∧
    (∃ (d : Die) (s : State), s.up d = false) ∧
    (∃ (s : State), s.up .e0 = true) ∧
    (∃ (d : PDie) (s : State), s.up d.die = true) ∧
    (∃ (d : PDie) (s : State), s.up d.die = true) ∧
    (∃ (d : PDie) (s : State), s.up d.die = true) ∧
    (∃ (d : Die) (s : State), s.up d = true ∧ s.armBit d 0 = false) ∧
    (∃ (s : State), s.chgSt = 0) ∧
    (∃ (s : State), s.chgSt ≠ 0) ∧
    (∃ (s : State), s.chgSt = 1) ∧
    (∃ (s : State), s.chgSt = 2) ∧
    (∃ (s : State), s.chgSt = 0) ∧
    (∃ (s : State), s.units.awaits.contains 1 = true) ∧
    (∃ (s : State), s.units.awaits.contains 1 = true) ∧
    (∃ (d : Die) (slot : Fin 16) (s : State), s.units.awaits.contains (unitNo d slot) = false) :=
  ⟨⟨{ State.reset with clk := { State.reset.clk with locked := true } }, by decide +kernel⟩,
   ⟨{ State.reset with clk := { State.reset.clk with locked := false } }, by decide +kernel⟩,
   ⟨R [((atDie .e0), .PKT_TOD_CTRL_RUN, 1)], by decide +kernel⟩,
   ⟨R [(atDie .e0, .PKT_TOD_CTRL_RUN, 0)], by decide +kernel⟩,
   ⟨.e1, State.reset, by decide +kernel⟩,
   ⟨R [(atDie .e0, .STK_TIMING_NEXT_PERIOD, 249)], by decide +kernel⟩,
   ⟨.e1, R [(atDie .e0, .DIE_STATE_ST (.e1 : Die).idx, 1)], by decide +kernel⟩,
   ⟨State.reset, by decide +kernel⟩,
   ⟨.e1, State.reset, by decide +kernel⟩,
   ⟨.e1, State.reset, by decide +kernel⟩,
   ⟨.e1, State.reset, by decide +kernel⟩,
   ⟨.e1, State.reset, by decide +kernel⟩,
   ⟨R [(atDie .e0, .STK_CHG_STATUS_STATE, 0)], by decide +kernel⟩,
   ⟨R [(atDie .e0, .STK_CHG_STATUS_STATE, 1)], by decide +kernel⟩,
   ⟨R [(atDie .e0, .STK_CHG_STATUS_STATE, 1)], by decide +kernel⟩,
   ⟨R [(atDie .e0, .STK_CHG_STATUS_STATE, 2)], by decide +kernel⟩,
   ⟨R [(atDie .e0, .STK_CHG_STATUS_STATE, 0)], by decide +kernel⟩,
   ⟨{ State.reset with units := { State.reset.units with awaits := [1] } }, by decide +kernel⟩,
   ⟨{ State.reset with units := { State.reset.units with awaits := [1] } }, by decide +kernel⟩,
   ⟨.e1, 15, State.reset, by decide +kernel⟩⟩

theorem witness_GoAndPendingWritesWhileArmedOrOpen :
    (∃ (s : State), s.chgSt ≠ 0) ∧
    (∃ (place : PendAt) (s : State), s.up (pendUnit place).1 = true ∧ s.armBit (pendUnit place).1 (pendUnit place).2 = true) :=
  ⟨⟨R [(atDie .e0, .STK_CHG_STATUS_STATE, 1)], by decide +kernel⟩,
   ⟨.group .e1 47 3, R [(atDie .e1, .STK_UNIT_CTRL_ARM, 2 ^ 14)], by decide +kernel⟩⟩

theorem witness_ClockCommandsRun :
    (∃ (n : Fin 7) (s : State), s.srcMay n = true ∧ s.srcReady n = false ∧ (n.val = 0 ∨ 1 ≤ Tbl.get 0 s.clk.windows n)) ∧
    (∃ (n : Fin 7) (kind : Fin 3) (s : State), (kind = 2 → n = 0) ∧ s.srcReady n = false) ∧
    (∃ (n : Fin 7) (kind : Fin 3) (s : State), (kind = 2 → n = 0) ∧ s.srcReady n = true ∧ s.clk.switch = none ∧ n.val ≠ s.active) ∧
    (∃ (n : Fin 7) (count : BitVec 24) (s : State), s.get (atElem .e0 n) .CLK_SRC_FREQ_KHZ * 4096 ≥ 4 * (count.toNat * 100000 - s.get
    (atElem .e0 n) .CLK_SRC_FREQ_KHZ * 4096 + (s.get (atElem .e0 n) .CLK_SRC_FREQ_KHZ * 4096 - count.toNat * 100000))) ∧
    (∃ (s : State), s.flag (atDie .e0) .CLK_STATUS_LOCKED = true ∧ s.srcReady s.active = true) ∧
    (∃ (count : BitVec 32) (s : State), s.flag (atDie .e0) .CLK_STATUS_LOCKED = true ∧ (count.toNat < 88000 ∨ 112000 < count.toNat) ∧
    s.flag (atDie .e0) .CLK_STATUS_RC_FAULT = false) ∧
    (∃ (count : BitVec 32), 88000 ≤ count.toNat ∧ count.toNat ≤ 112000) ∧
    (∃ (sel : BitVec 3) (s : State), s.clk.switch = none ∧ s.clk.locked = true ∧ s.srcReady sel.toNat = true ∧ sel.toNat ≠ s.active) ∧
    (∃ (sel : BitVec 3) (s : State), s.clk.switch = none ∧ s.clk.locked = true ∧ s.srcReady sel.toNat = false ∧ sel.toNat ≠ s.active) ∧
    (∃ (s : State), s.clk.switch.isSome = true) ∧
    (∃ (target : Nat) (auto : Bool) (s : State), s.clk.switch = some (target, auto, false) ∧ target ≠ s.active) ∧
    (∃ (target : Nat) (auto : Bool) (forced : Bool) (s : State), s.clk.switch = some (target, auto, forced) ∧ target < 8 ∧ s.clk.held =
    none) ∧
    (∃ (s : State), s.active = 0) ∧
    (∃ (s : State), s.active ≠ 0 ∧ s.clk.switch = none) :=
  ⟨⟨2, { R [(atElem .e0 2, .CLK_SRC_FREQ_KHZ, 10000)] with clk := { State.reset.clk with power := 2, windows := [(2, 1)] } }, by decide +kernel⟩,
   ⟨0, 2, State.reset, by decide +kernel⟩,
   ⟨6, 1, R [(atDie .e0, .CLK_SRC_STAT_READY, 2 ^ 6)], by decide +kernel⟩,
   ⟨6, 5120, R [(atElem .e0 6, .CLK_SRC_FREQ_KHZ, 100000)], by decide +kernel⟩,
   ⟨R [((atDie .e0), .CLK_STATUS_LOCKED, 1), (atDie .e0, .CLK_SRC_STAT_READY, 1)], by decide +kernel⟩,
   ⟨87999, R [((atDie .e0), .CLK_STATUS_LOCKED, 1)], by decide +kernel⟩,
   ⟨88000, by decide +kernel⟩,
   ⟨1, { R [(atDie .e0, .CLK_SRC_STAT_READY, 2)] with clk := { State.reset.clk with locked := true } }, by decide +kernel⟩,
   ⟨1, { State.reset with clk := { State.reset.clk with locked := true } }, by decide +kernel⟩,
   ⟨{ State.reset with clk := { State.reset.clk with switch := some (1, false, false) } }, by decide +kernel⟩,
   ⟨6, true, { State.reset with clk := { State.reset.clk with switch := some (6, true, false) } }, by decide +kernel⟩,
   ⟨7, true, true, { State.reset with clk := { State.reset.clk with switch := some (7, true, true) } }, by decide +kernel⟩,
   ⟨State.reset, by decide +kernel⟩,
   ⟨R [(atDie .e0, .CLK_STATUS_ACTIVE, 1)], by decide +kernel⟩⟩

theorem witness_SupplyCommandsRun :
    (∃ (die : FDie) (pll : Fin 5) (s : State), s.flag (pllAt die.die pll).1 (pllAt die.die pll).2 = true) ∧
    (∃ (die : FDie) (pll : Fin 5) (s : State), s.pllMay die.die pll = true) ∧
    (∃ (die : FDie) (s : State), s.flag (atDie die.die) .PWR_PL_STAT_SEQ = true) ∧
    (∃ (s : State), s.flag (atDie .e0) .PWR_PMB_CMD_BUSY = false) ∧
    (∃ (s : State), s.flag (atDie .e0) .PWR_PMB_CMD_BUSY = true) ∧
    (∃ (rail : Fin 29) (us : BitVec 32) (s : State), (us = 0 ∨ s.flag (atSel .e0 rail) .PWR_RAIL_STAT_GOOD = false)) ∧
    (∃ (rail : Fin 29) (us : BitVec 32) (s : State), us ≠ 0 ∧ s.flag (atSel .e0 rail) .PWR_RAIL_STAT_GOOD = true ∧ railHigh rail =
    true) ∧
    (∃ (die : Die) (sensor : Fin 8), (die.isFab = false → sensor.val < 4)) :=
  ⟨⟨.f5, 4, R [((pllAt (.f5 : FDie).die (4 : Fin 5)).1, (pllAt (.f5 : FDie).die (4 : Fin 5)).2, 1)], by decide +kernel⟩,
   ⟨.f5, 4, { State.reset with clk := { State.reset.clk with locked := true } }, by decide +kernel⟩,
   ⟨.f5, R [((atDie (.f5 : FDie).die), .PWR_PL_STAT_SEQ, 1)], by decide +kernel⟩,
   ⟨State.reset, by decide +kernel⟩,
   ⟨R [((atDie .e0), .PWR_PMB_CMD_BUSY, 1)], by decide +kernel⟩,
   ⟨28, 0, State.reset, by decide +kernel⟩,
   ⟨20, 1, R [((atSel .e0 (20 : Fin 29)), .PWR_RAIL_STAT_GOOD, 1)], by decide +kernel⟩,
   ⟨.e1, 3, by decide +kernel⟩⟩

theorem witness_RouterAndInitiatorCommandsRun :
    (∃ (die : Die) (col : Fin 8) (flit : Flit), (die.isPort = true → col.val < 4) ∧ flit.chkOk = false) ∧
    (∃ (die : Die) (row : Fin 8) (col : Fin 8) (flit : Flit) (r : Router) (out : Nat) (s : State), (die.isPort = true → col.val < 4) ∧
    flit.chkOk = true ∧ r = ⟨die, row, col⟩ ∧ out = r.out flit.dst.toNat ∧ Tbl.get [] s.routers (routerKey r flit.net.toNat) = [] ∧
    s.hasCredit r flit.net.toNat out flit.cls.toNat = true) ∧
    (∃ (die : Die) (row : Fin 8) (col : Fin 8) (inPort : Fin 5) (flit : Flit) (s : State), (die.isPort = true → col.val < 4) ∧
    flit.chkOk = true ∧ s.inputRoom ⟨die, row, col⟩ flit.net.toNat flit.cls.toNat inPort = true) ∧
    (∃ (r : NocReq) (q : NocReq) (tgt : Target) (s : State), s.mayIssue r.src.toNat = true ∧ (s.tag r.src.toNat r.tag.toNat).st = 0 ∧
    r.known = true ∧ reqTarget r = some tgt ∧ (r.cls ≠ 0 ∨ s.xEntry r.src.toNat tgt.ident = none) ∧ q =
    { r with gen := BitVec.ofNat 4 ((s.tag r.src.toNat r.tag.toNat).gen + 1), tgt := BitVec.ofNat 12 tgt.ident, xent := 0, cls := if r.cls = 0 then 1 else r.cls }
    ∧ s.refusal q tgt = none ∧ (sliceFirst q tgt = true ∨ s.failedBack tgt.ident q.src.toNat q.cls.toNat q.tag.toNat = none)) ∧
    (∃ (r : NocReq) (q : NocReq) (tgt : Target) (e : Nat) (u : Nat × Nat × Nat) (s : State), s.mayIssue r.src.toNat = true ∧ (s.tag
    r.src.toNat r.tag.toNat).st = 0 ∧ r.known = true ∧ reqTarget r = some tgt ∧ r.cls = 0 ∧ s.xEntry r.src.toNat tgt.ident = some e ∧ q
    =
    { r with gen := BitVec.ofNat 4 ((s.tag r.src.toNat r.tag.toNat).gen + 1), tgt := BitVec.ofNat 12 tgt.ident, xent := BitVec.ofNat 8 e }
    ∧ u = Tbl.get (0, 0, 0) s.xUsed ((idDie r.src.toNat).idx * 256 + e)) ∧
    (∃ (r : NocReq) (s : State), s.mayIssue r.src.toNat = true ∧ (s.tag r.src.toNat r.tag.toNat).st = 0 ∧ r.known = true ∧ reqTarget r
    = none) ∧
    (∃ (r : NocReq) (q : NocReq) (tgt : Target) (a : Option Die) (st : Nat) (s : State), s.mayIssue r.src.toNat = true ∧ (s.tag
    r.src.toNat r.tag.toNat).st = 0 ∧ r.known = true ∧ reqTarget r = some tgt ∧ (r.cls ≠ 0 ∨ s.xEntry r.src.toNat tgt.ident = none) ∧ q
    =
    { r with gen := BitVec.ofNat 4 ((s.tag r.src.toNat r.tag.toNat).gen + 1), tgt := BitVec.ofNat 12 tgt.ident, xent := 0, cls := if r.cls = 0 then 1 else r.cls }
    ∧ s.refusal q tgt = some (a, st)) ∧
    (∃ (r : NocReq) (s : State), (s.mayIssue r.src.toNat = false ∨ (s.tag r.src.toNat r.tag.toNat).st ≠ 0 ∨ r.known = false)) ∧
    (∃ (src : BitVec 12) (r : NocReq) (o : Owner) (rest : List (NocReq × Owner)) (tgt : Target) (s : State), Tbl.get [] s.xWait
    src.toNat = (r, o) :: rest ∧ s.pacerRuns src.toNat = true ∧ reqTarget r = some tgt ∧ s.refusal r tgt = none ∧ (sliceFirst r tgt =
    true ∨ s.failedBack tgt.ident r.src.toNat r.cls.toNat r.tag.toNat = none)) ∧
    (∃ (src : BitVec 12) (s : State), (Tbl.get [] s.xWait src.toNat = [] ∨ s.pacerRuns src.toNat = false)) ∧
    (∃ (dst : BitVec 12) (tag : BitVec 10) (gen : BitVec 4) (resp : BitVec 12) (ns : BitVec 32) (s : State) (u : State), s.dropAt
    resp.toNat dst.toNat (s.tag dst.toNat tag.toNat).cls tag.toNat = none ∧ (s.tag dst.toNat tag.toNat).st = 1 ∧ (s.tag dst.toNat
    tag.toNat).gen = gen.toNat ∧ ((s.tag dst.toNat tag.toNat).cls ≠ 0 ∨ ns.toNat ≤ s.strokeNs) ∧ u = (if (s.tag dst.toNat
    tag.toNat).bytes = 0 then s.tagDone dst.toNat tag.toNat else (s.tagDone dst.toNat tag.toNat).bwCount (idDie dst.toNat) 0 dst.toNat
    (s.tag dst.toNat tag.toNat).bytes 1)) ∧
    (∃ (dst : BitVec 12) (tag : BitVec 10) (gen : BitVec 4) (resp : BitVec 12) (s : State), s.dropAt resp.toNat dst.toNat (s.tag
    dst.toNat tag.toNat).cls tag.toNat = none ∧ (s.tag dst.toNat tag.toNat).st = 1 ∧ (s.tag dst.toNat tag.toNat).gen = gen.toNat ∧
    (s.tag dst.toNat tag.toNat).owner = .plain) ∧
    (∃ (dst : BitVec 12) (tag : BitVec 10) (gen : BitVec 4) (resp : BitVec 12) (s : State), s.dropAt resp.toNat dst.toNat (s.tag
    dst.toNat tag.toNat).cls tag.toNat = none ∧ ((s.tag dst.toNat tag.toNat).st ≠ 1 ∨ (s.tag dst.toNat tag.toNat).gen ≠ gen.toNat)) ∧
    (∃ (src : BitVec 12) (tag : BitVec 10) (s : State), (s.tag src.toNat tag.toNat).st = 1) ∧
    (∃ (src : BitVec 12) (tag : BitVec 10) (s : State), (s.tag src.toNat tag.toNat).st = 1 ∧ (s.tag src.toNat tag.toNat).owner =
    .plain) ∧
    (∃ (src : BitVec 12) (tag : BitVec 10) (s : State), (s.tag src.toNat tag.toNat).st ≠ 1) ∧
    (∃ (src : BitVec 12) (tag : BitVec 10) (s : State), (s.tag src.toNat tag.toNat).st = 2) :=
  ⟨⟨.e1, 3, badFlit, by decide +kernel, badFlit_chk⟩,
   ⟨.e1, 0, 3, goodFlit, ⟨.e1, 0, 3⟩, (Router.mk .e1 0 3).out goodFlit.dst.toNat, State.reset, by decide +kernel, goodFlit_chk, rfl, rfl, by decide +kernel, hasCredit_reset _ _ _ _⟩,
   ⟨.e1, 0, 3, 4, goodFlit, State.reset, by decide +kernel, goodFlit_chk, rfl⟩,
   ⟨{ rd with addr := 0x300200000000 }, { rd with addr := 0x300200000000, gen := 1, tgt := BitVec.ofNat 12 (Target.localMem .f0 0 0).ident }, .localMem .f0 0 0, State.reset, by decide +kernel⟩,
   ⟨{ rd with addr := 0x300200000000, cls := 0 }, { rd with addr := 0x300200000000, cls := 0, gen := 1, tgt := BitVec.ofNat 12 (Target.localMem .f0 0 0).ident, xent := 5 }, .localMem .f0 0 0, 5, (0, 0, 0), R [(atSel .f0 5, .NOC_XRES_HI_VALID, 1), (atSel .f0 5, .NOC_XRES_LO_INIT, 1285), (atSel .f0 5, .NOC_XRES_LO_TGT, (Target.localMem .f0 0 0).ident), (atSel .f0 5, .NOC_XRES_HI_RD, 1)], by decide +kernel⟩,
   ⟨{ rd with size := 7 }, State.reset, by decide +kernel⟩,
   ⟨{ rd with addr := 0x300200000000 }, { rd with addr := 0x300200000000, gen := 1, tgt := BitVec.ofNat 12 (Target.localMem .f0 0 0).ident }, .localMem .f0 0 0, some .f0, 3, { State.reset with clk := { State.reset.clk with fences := [(2 * 16, 1)] } }, by decide +kernel⟩,
   ⟨{ rd with op := 31 }, State.reset, Or.inr (Or.inr (by decide +kernel))⟩,
   ⟨1285, { rd with addr := 0x300200000000 }, .plain, [], .localMem .f0 0 0, { State.reset with xWait := [(1285, [({ rd with addr := 0x300200000000 }, .plain)])] }, by decide +kernel⟩,
   ⟨1, State.reset, by decide +kernel⟩,
   ⟨1285, 1, 1, 1284, 1, { State.reset with tags := [(tagKey 1285 1, ⟨1, 1, 1, 100, 0, 4, .plain, false, 0⟩)] }, (({ State.reset with tags := [(tagKey 1285 1, ⟨1, 1, 1, 100, 0, 4, .plain, false, 0⟩)] } : State).tagDone (1285 : BitVec 12).toNat (1 : BitVec 10).toNat).bwCount (idDie (1285 : BitVec 12).toNat) 0 (1285 : BitVec 12).toNat (({ State.reset with tags := [(tagKey 1285 1, ⟨1, 1, 1, 100, 0, 4, .plain, false, 0⟩)] } : State).tag (1285 : BitVec 12).toNat (1 : BitVec 10).toNat).bytes 1, by decide +kernel, by decide +kernel, by decide +kernel, by decide +kernel, (if_neg (by decide +kernel)).symm⟩,
   ⟨1285, 1, 1, 1284, { State.reset with tags := [(tagKey 1285 1, ⟨1, 1, 1, 100, 0, 4, .plain, false, 0⟩)] }, by decide +kernel⟩,
   ⟨1285, 1, 1, 1284, State.reset, by decide +kernel⟩,
   ⟨1285, 1, { State.reset with tags := [(tagKey 1285 1, ⟨1, 1, 1, 100, 0, 4, .plain, false, 0⟩)] }, by decide +kernel⟩,
   ⟨1285, 1, { State.reset with tags := [(tagKey 1285 1, ⟨1, 1, 1, 100, 0, 4, .plain, false, 0⟩)] }, by decide +kernel⟩,
   ⟨1285, 1, State.reset, by decide +kernel⟩,
   ⟨1285, 1, { State.reset with tags := [(tagKey 1285 1, ⟨2, 1, 1, 100, 0, 4, .plain, false, 0⟩)] }, by decide +kernel⟩⟩

theorem witness_FabricPortCommandsRun :
    (∃ (die : FDie) (q : Fin 16) (p : Fin 16) (s : State), (s.modeOf die.die q p = 1 ∨ s.modeOf die.die q p = 3) ∧ 2 ≤ s.stageOf
    die.die q ∧ s.get (atDie die.die) (.NOC_FENCE_STAT_P q) = 0 ∧ s.get (atEp (portIdent die.die q p)) .NOC_EP_STAT_OUTST < 64) ∧
    (∃ (die : FDie) (q : Fin 16) (p : Fin 16) (s : State), (s.modeOf die.die q p = 0 ∨ s.modeOf die.die q p = 2 ∨ s.stageOf die.die q <
    2 ∨ s.get (atDie die.die) (.NOC_FENCE_STAT_P q) ≠ 0)) ∧
    (∃ (die : FDie) (q : Fin 16) (p : Fin 16) (ptag : BitVec 6) (r : NocReq) (s : State), s.portTags.find? (fun e => e.1 == fportKey
    die.die q p * 64 + ptag.toNat) = some (fportKey die.die q p * 64 + ptag.toNat, r) ∧ 2 ≤ s.stageOf die.die q ∧ Tbl.get [] s.portFifo
    (fportKey die.die q p) = []) :=
  ⟨⟨.f5, 15, 15, { R [(atDie (.f5 : FDie).die, .NOC_FENCE_STAT_P (15 : Fin 16), 0), (atEp (portIdent (.f5 : FDie).die (15 : Fin 16) (15 : Fin 16)), .NOC_EP_STAT_OUTST, 63)] with relStage := [(parcelKey (.f5 : FDie).die (15 : Fin 16), 2)], portMode := [((.f5 : FDie).die.idx * 256 + (15 : Fin 16) * 16 + (15 : Fin 16), 1)] }, by decide +kernel⟩,
   ⟨.f5, 15, 15, State.reset, by decide +kernel⟩,
   ⟨.f5, 15, 15, 1, rd, { State.reset with relStage := [(parcelKey (.f5 : FDie).die (15 : Fin 16), 2)], portTags := [(fportKey (.f5 : FDie).die (15 : Fin 16) (15 : Fin 16) * 64 + (1 : BitVec 6).toNat, rd)] }, by decide +kernel⟩⟩

theorem witness_DieCacheCommandsRun :
    (∃ (r : NocReq) (d : Die) (line : Nat) (s : State), d = idDie r.src.toNat ∧ line = r.addr.toNat / 64 ∧ d.isFab = true ∧ r.isRead =
    true ∧ s.dcLine d line ≠ 0 ∧ s.detached line = false ∧ granted (Tbl.get 0 s.dcRights (dcKey d line)) r = true ∧ s.net.sick.contains
    (dcKey d line) = false ∧ (∀ i w, s.dcCell d line = some i → s.eccMarked d 1 (8 * i + w) = false)) ∧
    (∃ (r : NocReq) (d : Die) (line : Nat) (s : State), d = idDie r.src.toNat ∧ line = r.addr.toNat / 64 ∧ d.isFab = true ∧ r.isWrite =
    true ∧ 2 ≤ s.dcLine d line ∧ s.detached line = false ∧ granted (Tbl.get 0 s.dcRights (dcKey d line)) r = true ∧ s.net.sick.contains
    (dcKey d line) = false ∧ (∀ i w, s.dcCell d line = some i → s.eccMarked d 1 (8 * i + w) = false)) ∧
    (∃ (r : NocReq) (d : Die) (line : Nat) (s : State), d = idDie r.src.toNat ∧ line = r.addr.toNat / 64 ∧ d.isFab = true ∧ s.dcLine d
    line ≠ 0 ∧ ((r.isWrite || r.isAtomic) = true → 2 ≤ s.dcLine d line) ∧ s.detached line = false ∧ granted (Tbl.get 0 s.dcRights
    (dcKey d line)) r = true ∧ s.net.sick.contains (dcKey d line) = true ∧ fullLine r = false) ∧
    (∃ (r : NocReq) (d : Die) (line : Nat) (s : State), d = idDie r.src.toNat ∧ line = r.addr.toNat / 64 ∧ d.isFab = true ∧ s.dcLine d
    line = 0 ∧ ((decodeAddr r.addr.toNat).bind fun t => s.fenceRefusal (ident d (lineSlice line / 8) (lineSlice line % 8) 4) t.ident
    r.low) = none ∧ ((decodeAddr r.addr.toNat).bind fun t => s.failedBack t.ident r.src.toNat r.cls.toNat r.tag.toNat) = none) ∧
    (∃ (r : NocReq) (d : Die) (a : Die) (line : Nat) (st : Nat) (s : State), d = idDie r.src.toNat ∧ line = r.addr.toNat / 64 ∧ d.isFab
    = true ∧ s.dcLine d line = 0 ∧ ((decodeAddr r.addr.toNat).bind fun t => s.fenceRefusal (ident d (lineSlice line / 8) (lineSlice
    line % 8) 4) t.ident r.low) = some (a, st)) ∧
    (∃ (r : NocReq) (d : Die) (a : Die) (line : Nat) (s : State), d = idDie r.src.toNat ∧ line = r.addr.toNat / 64 ∧ d.isFab = true ∧
    s.dcLine d line = 0 ∧ ((decodeAddr r.addr.toNat).bind fun t => s.fenceRefusal (ident d (lineSlice line / 8) (lineSlice line % 8) 4)
    t.ident r.low) = none ∧ ((decodeAddr r.addr.toNat).bind fun t => s.failedBack t.ident r.src.toNat r.cls.toNat r.tag.toNat) = some
    a) ∧
    (∃ (die : FDie) (line : BitVec 42) (s : State), s.dcLine die.die line.toNat ≠ 0 ∧ s.flag (atDie die.die) .ECC_TEST_CTRL_EN = false
    ∧ (∀ i w, s.dcCell die.die line.toNat = some i → s.eccMarked die.die 1 (8 * i + w) = false)) ∧
    (∃ (die : FDie) (line : BitVec 42) (s : State), s.dcLine die.die line.toNat = 0) ∧
    (∃ (die : FDie) (s : State), s.flag (atDie die.die) .NOC_DC_CMD_BUSY = true) :=
  ⟨⟨rd, .f0, 0, { State.reset with dcache := [(dcKey .f0 0, 1)], dcRights := [(dcKey .f0 0, 0xAAAA)] }, by decide +kernel, by decide +kernel, by decide +kernel, by decide +kernel, by decide +kernel, by decide +kernel, by decide +kernel, by decide +kernel, fun i w h => by cases h⟩,
   ⟨{ rd with op := 8, data := 0xAB }, .f0, 0, { State.reset with dcache := [(dcKey .f0 0, 2)], dcRights := [(dcKey .f0 0, 0xAAAA)] }, by decide +kernel, by decide +kernel, by decide +kernel, by decide +kernel, by decide +kernel, by decide +kernel, by decide +kernel, by decide +kernel, fun i w h => by cases h⟩,
   ⟨rd, .f0, 0, { State.reset with dcache := [(dcKey .f0 0, 1)], dcRights := [(dcKey .f0 0, 0xAAAA)], net := { State.reset.net with sick := [dcKey .f0 0] } }, by decide +kernel, by decide +kernel, by decide +kernel, by decide +kernel, fun h => absurd h (by decide), by decide +kernel, by decide +kernel, by decide +kernel, by decide +kernel⟩,
   ⟨{ rd with alloc := true }, .f0, 0, State.reset, by decide +kernel⟩,
   ⟨rd, .f0, .f0, 0, 3, R [(atDie .f0, .NOC_DFENCE_STAT_D 0, 1)], by decide +kernel⟩,
   ⟨{ rd with addr := 0x200000000000 }, .f0, .f3, 0x8000000000, R [(atSel .f3 13, .WLD_CH_STAT_STATE, 5)], by decide +kernel⟩,
   ⟨.f5, 1, { State.reset with dcache := [(dcKey (.f5 : FDie).die (1 : BitVec 42).toNat, 3)] }, by decide +kernel, by decide +kernel, fun i w h => by cases h⟩,
   ⟨.f5, 1, State.reset, by decide +kernel⟩,
   ⟨.f5, R [((atDie (.f5 : FDie).die), .NOC_DC_CMD_BUSY, 1)], by decide +kernel⟩⟩

theorem witness_HomeDirectoryCommandsRun :
    (∃ (die : FDie) (line : BitVec 42) (h : Die) (s : State), lineHome line.toNat = some h ∧ Tbl.has s.homeTxn line.toNat = false ∧
    ((s.dirSet h line.toNat).contains line.toNat = true ∨ (s.dirSet h line.toNat).length < 16) ∧ s.flag (atDie h) .ECC_TEST_CTRL_EN =
    false ∧ (∀ w, w < 16 → s.eccMarked h 10 (dirBase line.toNat + w) = false) ∧ s.fillDenies .rdShd (some die) line.toNat = false ∧
    (s.dirRec line.toNat).holders = []) ∧
    (∃ (die : FDie) (other : FDie) (line : BitVec 42) (h : Die) (s : State), lineHome line.toNat = some h ∧ Tbl.has s.homeTxn
    line.toNat = false ∧ ((s.dirSet h line.toNat).contains line.toNat = true ∨ (s.dirSet h line.toNat).length < 16) ∧ s.flag (atDie h)
    .ECC_TEST_CTRL_EN = false ∧ (∀ w, w < 16 → s.eccMarked h 10 (dirBase line.toNat + w) = false) ∧ s.fillDenies .rdUnq (some die)
    line.toNat = false ∧ die ≠ other ∧ s.dirRec line.toNat = ⟨true, [(other.die.idx, Tbl.get 0 s.dieResets other.die.idx)]⟩) ∧
    (∃ (op : HomeOp) (die : FDie) (line : BitVec 42) (key : Nat) (x : HomeTxn) (s : State), lineHome line.toNat ≠ none ∧ s.fillDenies
    op (some die) line.toNat = false ∧ s.homeTxn.find? (fun e => e.1 == line.toNat) = some (key, x)) ∧
    (∃ (op : HomeOp) (die : FDie) (line : BitVec 42) (s : State), lineHome line.toNat ≠ none ∧ s.fillDenies op (some die) line.toNat =
    true) ∧
    (∃ (die : FDie) (other : FDie) (line : BitVec 42) (h : Die) (key : Nat) (s : State), lineHome line.toNat = some h ∧ s.homeTxn.find?
    (fun e => e.1 == line.toNat) = some (key, ⟨.rdUnq, die.die.idx, [other.die.idx], []⟩) ∧ s.flag (atDie h) .ECC_TEST_CTRL_EN = false) ∧
    (∃ (die : FDie) (line : BitVec 42) (h : Die) (count : Nat) (s : State), lineHome line.toNat = some h ∧ s.flag (atDie h)
    .ECC_TEST_CTRL_EN = false ∧ s.dirRec line.toNat = ⟨true, [(die.die.idx, count)]⟩ ∧ count ≠ Tbl.get 0 s.dieResets die.die.idx) ∧
    (∃ (line : BitVec 42) (s : State), (∀ h ∈ (s.dirRec line.toNat).holders, h.2 = Tbl.get 0 s.dieResets h.1)) :=
  ⟨⟨.f5, 1, homeDie 0, State.reset, by decide +kernel, by decide +kernel, by decide +kernel, by decide +kernel, fun _ _ => rfl, by decide +kernel, by decide +kernel⟩,
   ⟨.f5, .f0, 1, homeDie 0, { State.reset with dir := [(1, ⟨true, [(2, 0)]⟩)] }, by decide +kernel, by decide +kernel, Or.inl (dirSet_one _ _ rfl rfl (by decide +kernel)), by decide +kernel, fun _ _ => rfl, by decide +kernel, by decide +kernel, by decide +kernel⟩,
   ⟨.rdShd, .f5, 1, 1, ⟨.rdUnq, 7, [2], []⟩, { State.reset with homeTxn := [(1, ⟨.rdUnq, 7, [2], []⟩)] }, by decide +kernel⟩,
   ⟨.rdShd, .f0, 1, { R [(atDie .e0, .PROT_KEY_STAT_FAIL, 1)] with dcWait := [(dcKey .f0 1, [{ rd with addr := 64 }])] }, by decide +kernel⟩,
   ⟨.f5, .f0, 1, homeDie 0, 1, { State.reset with homeTxn := [(1, ⟨.rdUnq, 7, [2], []⟩)] }, by decide +kernel⟩,
   ⟨.f5, 1, homeDie 0, 1, { State.reset with dir := [(1, ⟨true, [(7, 1)]⟩)] }, by decide +kernel⟩,
   ⟨1, { State.reset with dir := [(1, ⟨true, [(7, 0)]⟩)] }, by decide +kernel⟩⟩

theorem witness_LoadStartCommandsRun :
    (∃ (s : State), s.clk.power ≠ 2) ∧
    (∃ (s : State), s.clk.power = 2) ∧
    (∃ (s : State), s.cfg.progLow = true ∧ s.clk.power = 2) ∧
    (∃ (s : State), s.cfg.progLow = true ∧ s.clk.power ≠ 2) ∧
    (∃ (s : State), s.flag (atDie .e0) .CFG_STATUS_BUSY = false ∧ s.cfg.progLow = false) ∧
    (∃ (s : State), s.flag (atDie .e0) .CFG_STATUS_BUSY = false ∧ s.cfg.progLow = false) ∧
    (∃ (key : BitVec 8) (s : State), (s.flag (atDie .e0) .CFG_STATUS_BUSY = true ∨ s.cfg.progLow = true ∨ key ≠ 0xC5)) ∧
    (∃ (offset : BitVec 28) (s : State), s.cfg.streamOpen = true ∧ offset.toNat = s.cfg.streamPos) ∧
    (∃ (offset : BitVec 28) (s : State), s.cfg.streamOpen = true ∧ offset.toNat ≠ s.cfg.streamPos) ∧
    (∃ (s : State), s.cfg.streamOpen = true) ∧
    (∃ (bytes : List Byte) (s : State), s.cfg.streamOpen = false ∧ s.cfg.phase = .table ∧ (s.cfg.source = 1 ∨ s.cfg.source = 2) ∧
    bytes.length = tableBytes s.cfg.header) ∧
    (∃ (s : State), s.cfg.streamOpen = false ∧ s.cfg.phase = .frames ∧ (s.cfg.source = 1 ∨ s.cfg.source = 2) ∧ s.cfg.again = false) ∧
    (∃ (s : State), s.cfg.streamOpen = true) :=
  ⟨⟨State.reset, by decide +kernel⟩,
   ⟨{ State.reset with clk := { State.reset.clk with power := 2 } }, by decide +kernel⟩,
   ⟨{ State.reset with cfg := { State.reset.cfg with progLow := true }, clk := { State.reset.clk with power := 2 } }, by decide +kernel⟩,
   ⟨{ State.reset with cfg := { State.reset.cfg with progLow := true } }, by decide +kernel⟩,
   ⟨{ State.reset with cfg := { State.reset.cfg with progLow := false } }, by decide +kernel⟩,
   ⟨{ State.reset with cfg := { State.reset.cfg with progLow := false } }, by decide +kernel⟩,
   ⟨0xC4, R [((atDie .e0), .CFG_STATUS_BUSY, 1)], by decide +kernel⟩,
   ⟨1, { State.reset with cfg := { State.reset.cfg with streamOpen := true, streamPos := 1 } }, by decide +kernel⟩,
   ⟨1, { State.reset with cfg := { State.reset.cfg with streamOpen := true } }, by decide +kernel⟩,
   ⟨{ State.reset with cfg := { State.reset.cfg with streamOpen := true } }, by decide +kernel⟩,
   ⟨List.replicate 16 0, { State.reset with cfg := { State.reset.cfg with streamOpen := false, phase := .table, source := 1, header := List.replicate 0x3C 0 ++ [1] } }, by decide +kernel⟩,
   ⟨{ State.reset with cfg := { State.reset.cfg with streamOpen := false, phase := .frames, source := 1, again := false } }, by decide +kernel⟩,
   ⟨{ State.reset with cfg := { State.reset.cfg with streamOpen := true } }, by decide +kernel⟩⟩

theorem witness_TestPortCommandsRun :
    (∃ (v : Word) (s : State), v.getLsbD 31 = true ∧ 1 ≤ s.get (atDie .e0) .DBG_SESSION_LEVEL) ∧
    (∃ (v : Word) (s : State), (v.getLsbD 31 = false ∨ s.get (atDie .e0) .DBG_SESSION_LEVEL = 0)) ∧
    (∃ (addr : Nat) (s : State), s.tap.frame = some addr ∧ s.tap.word < 132 ∧ 1 ≤ s.get (atDie .e0) .DBG_SESSION_LEVEL ∧ (s.scrub
    (Die.ofIdx (bitsOf addr 20 3))).mode ≠ 2) ∧
    (∃ (s : State), (s.tap.frame = none ∨ 132 ≤ s.tap.word ∨ s.get (atDie .e0) .DBG_SESSION_LEVEL = 0)) ∧
    (∃ (s : State), s.tapMay = true ∧ s.cfg.streamOpen = true ∧ s.cfg.phase ≠ .waiting ∧ s.cfg.phase ≠ .refusal) ∧
    (∃ (s : State), s.tapMay = true ∧ (s.cfg.phase = .waiting ∨ s.cfg.phase = .refusal)) ∧
    (∃ (s : State), s.tapMay = true ∧ s.cfg.streamOpen = false ∧ s.cfg.phase ≠ .waiting ∧ s.cfg.phase ≠ .refusal) ∧
    (∃ (s : State), s.tapMay = false) ∧
    (∃ (s : State), s.tapMay = true) ∧
    (∃ (s : State), s.tapMay = false) :=
  ⟨⟨0x80000001, R [((atDie .e0), .DBG_SESSION_LEVEL, 1)], by decide +kernel⟩,
   ⟨0, State.reset, by decide +kernel⟩,
   ⟨0, { R [((atDie .e0), .DBG_SESSION_LEVEL, 1)] with tap := { State.reset.tap with frame := some 0, word := 131 } }, by decide +kernel⟩,
   ⟨State.reset, by decide +kernel⟩,
   ⟨{ State.reset with cfg := { State.reset.cfg with streamOpen := true } }, by decide +kernel⟩,
   ⟨{ State.reset with cfg := { State.reset.cfg with phase := .waiting } }, by decide +kernel⟩,
   ⟨{ State.reset with cfg := { State.reset.cfg with streamOpen := false } }, by decide +kernel⟩,
   ⟨{ State.reset with cfg := { State.reset.cfg with running := true } }, by decide +kernel⟩,
   ⟨State.reset, by decide +kernel⟩,
   ⟨{ State.reset with cfg := { State.reset.cfg with running := true } }, by decide +kernel⟩⟩

theorem witness_LoadStepCommandsRun :
    (∃ (s : State), s.cfg.phase = .header ∧ (s.cfg.source = 1 ∨ s.cfg.source = 2)) ∧
    (∃ (s : State), s.cfg.phase = .prepare ∧ (∀ d : FDie, s.up d.die = false)) ∧
    (∃ (s : State), s.cfg.phase = .prepare ∧ (∀ (d : FDie) (p : Fin 16), s.fence (.parcel d p) = 2 ∧ s.powerStep d.die p = 0)) ∧
    (∃ (s : State), s.cfg.phase = .setup ∧ s.setupLeft = true) ∧
    (∃ (header : BitVec 2048) (s : State), s.cfg.phase = .setup ∧ s.setupLeft = false ∧ bytesLE header.toNat 256 = s.cfg.header) ∧
    (∃ (header : BitVec 2048) (s : State), s.cfg.phase = .setup ∧ s.setupLeft = false ∧ bytesLE header.toNat 256 ≠ s.cfg.header) ∧
    (∃ (d : Die) (f : Nat) (s : State), s.cfg.phase = .frames ∧ s.cfg.again = true ∧ packetPlace s.cfg.header Die.all s.cfg.frames =
    (d, f)) ∧
    (∃ (s : State), s.cfg.partialLoad = false) ∧
    (∃ (die : FDie) (s : State), s.cfg.partialLoad = true ∧ s.loadDie = die.die ∧ s.cfg.phase ≠ .blanking ∧ 3 ≤ s.loadSt) ∧
    (∃ (die : FDie) (s : State), s.cfg.partialLoad = true ∧ s.loadDie = die.die ∧ s.cfg.phase ≠ .blanking ∧ s.loadSt < 3) ∧
    (∃ (s : State), s.blankReady = true) ∧
    (∃ (s : State), s.blankReady = false) ∧
    (∃ (die : FDie) (p : Fin 16) (s : State), s.powerStep die.die p = 5 ∧ s.loadTarget die.die p = false ∧ s.cfg.phase ≠ .prepare) ∧
    (∃ (k : RelKind) (s : State), s.releaseAt k 1 = true) ∧
    (∃ (k : RelKind) (s : State), s.releaseAt k 2 = true) ∧
    (∃ (d : FDie) (p : Fin 16) (s : State), s.releaseAt (.power d p) 3 = true) ∧
    (∃ (s : State), s.releaseAt .full 4 = true) ∧
    (∃ (k : RelKind) (s : State), s.releaseAt k 1 = false) ∧
    (∃ (k : RelKind) (s : State), s.releaseAt k 2 = false) ∧
    (∃ (k : RelKind) (s : State), s.releaseAt k 3 = false) :=
  ⟨⟨{ State.reset with cfg := { State.reset.cfg with phase := .header, source := 1 } }, by decide +kernel⟩,
   ⟨{ R [(atDie .e0, .DIE_STATE_ST 2, 1), (atDie .e0, .DIE_STATE_ST 3, 1), (atDie .e0, .DIE_STATE_ST 4, 1), (atDie .e0, .DIE_STATE_ST 5, 1), (atDie .e0, .DIE_STATE_ST 6, 1), (atDie .e0, .DIE_STATE_ST 7, 1)] with cfg := { State.reset.cfg with phase := .prepare } }, ⟨by decide +kernel, fun d => by cases d <;> decide +kernel⟩⟩,
   ⟨{ State.reset with cfg := { State.reset.cfg with phase := .prepare } }, ⟨by decide +kernel, fun d => by cases d <;> decide +kernel⟩⟩,
   ⟨{ State.reset with cfg := { State.reset.cfg with phase := .setup, header := List.replicate 0x48 0 ++ [1] } }, by decide +kernel⟩,
   ⟨0, { State.reset with cfg := { State.reset.cfg with phase := .setup, header := List.replicate 256 0 } }, by decide +kernel⟩,
   ⟨1, { State.reset with cfg := { State.reset.cfg with phase := .setup } }, by decide +kernel⟩,
   ⟨.e0, 0, { State.reset with cfg := { State.reset.cfg with phase := .frames, again := true } }, by decide +kernel⟩,
   ⟨{ State.reset with cfg := { State.reset.cfg with partialLoad := false } }, by decide +kernel⟩,
   ⟨.f5, { R [(atDie .f5, .PRC_LOAD_STAT_STATE, 3)] with cfg := { State.reset.cfg with partialLoad := true, header := List.replicate 0x0A 0 ++ [7] } }, by decide +kernel⟩,
   ⟨.f5, { R [(atDie .f5, .PRC_LOAD_STAT_STATE, 2)] with cfg := { State.reset.cfg with partialLoad := true, header := List.replicate 0x0A 0 ++ [7] } }, by decide +kernel⟩,
   ⟨{ State.reset with cfg := { State.reset.cfg with phase := .blanking } }, by decide +kernel⟩,
   ⟨State.reset, by decide +kernel⟩,
   ⟨.f5, 15, { State.reset with prcStep := [(parcelKey (.f5 : FDie).die (15 : Fin 16), 5)] }, by decide +kernel⟩,
   ⟨.full, { State.reset with releases := [⟨.full, 1⟩] }, by decide +kernel⟩,
   ⟨.die .e1, { State.reset with releases := [⟨.die .e1, 2⟩] }, by decide +kernel⟩,
   ⟨.f5, 15, { State.reset with releases := [⟨.power .f5 15, 3⟩] }, by decide +kernel⟩,
   ⟨{ State.reset with releases := [⟨.full, 4⟩] }, by decide +kernel⟩,
   ⟨.power .f5 15, State.reset, by decide +kernel⟩,
   ⟨.power .f5 15, State.reset, by decide +kernel⟩,
   ⟨.power .f5 15, State.reset, by decide +kernel⟩⟩

theorem witness_FenceAndParcelCommandsRun :
    (∃ (a : Die) (b : Die) (s : State), s.fence (.die a b) = 1 ∧ (s.tags.any fun e => owed (.die a b) (e.1 / 1024) e.2 || owedIn (.die
    a b) (e.1 / 1024) e.2) = false) ∧
    (∃ (d : FDie) (p : Fin 16) (s : State), s.fence (.parcel d p) = 1 ∧ (s.tags.any fun e => owed (.parcel d p) (e.1 / 1024) e.2 ||
    owedIn (.parcel d p) (e.1 / 1024) e.2) = false) ∧
    (∃ (f : FenceId) (s : State), s.fence f = 1) ∧
    (∃ (f : FenceId) (s : State), s.fence f ≠ 1) ∧
    (∃ (die : FDie) (p : Fin 16) (s : State), s.powerMisfit die.die (2 ^ p.val) 0 p = false) ∧
    (∃ (die : FDie) (p : Fin 16) (s : State), s.powerMisfit die.die (2 ^ p.val) 0 p = true) ∧
    (∃ (die : FDie) (p : Fin 16) (s : State), s.powerMisfit die.die 0 (2 ^ p.val) p = false) ∧
    (∃ (die : FDie) (p : Fin 16) (s : State), s.powerStep die.die p = 3) ∧
    (∃ (die : FDie) (p : Fin 16) (s : State), s.powerStep die.die p = 4) ∧
    (∃ (die : FDie) (p : Fin 16) (s : State), s.powerStep die.die p ≠ 3) ∧
    (∃ (die : FDie) (p : Fin 16) (s : State), s.powerStep die.die p ≠ 4) ∧
    (∃ (die : FDie) (p : Fin 16) (s : State), s.flag (atDie die.die) .PRC_CAP_STAT_BUSY = false ∧ s.flag (atDie die.die)
    .PRC_CAP_STAT_FROZEN = false ∧ s.parcelSt die.die p ≠ 1 ∧ s.parcelSt die.die p ≠ 3 ∧ s.loadTarget die.die p = false) ∧
    (∃ (die : FDie) (p : Fin 16) (s : State), (s.flag (atDie die.die) .PRC_CAP_STAT_BUSY = true ∨ s.flag (atDie die.die)
    .PRC_CAP_STAT_FROZEN = true ∨ s.parcelSt die.die p = 1 ∨ s.parcelSt die.die p = 3 ∨ s.loadTarget die.die p = true)) ∧
    (∃ (die : FDie) (key : Nat) (c : CapReq) (s : State), s.capWait.find? (fun e => e.1 == die.die.idx) = some (key, c) ∧ c.copied =
    true) ∧
    (∃ (die : FDie) (s : State), s.flag (atDie die.die) .PRC_CAP_STAT_FROZEN = true) :=
  ⟨⟨.e1, .f2, R [(atDie (.e1 : Die), .NOC_DFENCE_STAT_D (.f2 : Die).idx, 1)], by decide +kernel⟩,
   ⟨.f5, 15, R [(atDie (.f5 : FDie).die, .NOC_FENCE_STAT_P (15 : Fin 16), 1)], by decide +kernel⟩,
   ⟨.die .e1 .f2, R [(atDie .e1, .NOC_DFENCE_STAT_D 4, 1)], by decide +kernel⟩,
   ⟨.die .e1 .f2, State.reset, by decide +kernel⟩,
   ⟨.f5, 15, State.reset, by decide +kernel⟩,
   ⟨.f5, 15, R [(atDie (.f5 : FDie).die, .PRC_STATE_P (15 : Fin 16), 3)], by decide +kernel⟩,
   ⟨.f5, 15, R [(atDie (.f5 : FDie).die, .PRC_STATE_P (15 : Fin 16), 3)], by decide +kernel⟩,
   ⟨.f5, 15, { State.reset with prcStep := [(parcelKey (.f5 : FDie).die (15 : Fin 16), 3)] }, by decide +kernel⟩,
   ⟨.f5, 15, { State.reset with prcStep := [(parcelKey (.f5 : FDie).die (15 : Fin 16), 4)] }, by decide +kernel⟩,
   ⟨.f5, 15, State.reset, by decide +kernel⟩,
   ⟨.f5, 15, State.reset, by decide +kernel⟩,
   ⟨.f5, 15, State.reset, by decide +kernel⟩,
   ⟨.f5, 15, R [((atDie (.f5 : FDie).die), .PRC_CAP_STAT_BUSY, 1)], by decide +kernel⟩,
   ⟨.f5, 7, ⟨15, true, true, 1, 1⟩, { State.reset with capWait := [(7, ⟨15, true, true, 1, 1⟩)] }, by decide +kernel⟩,
   ⟨.f5, R [((atDie (.f5 : FDie).die), .PRC_CAP_STAT_FROZEN, 1)], by decide +kernel⟩⟩

theorem witness_ScrubCommandsRun :
    (∃ (d : Die) (n : Nat) (s : State), (s.scrub d).mode ≠ 0 ∧ (s.scrub d).paused = false ∧ clean d (s.get (atDie d) .SCR_STATUS_FRAME)
    (s.frame d (s.get (atDie d) .SCR_STATUS_FRAME)) = true ∧ nextFrame d (s.get (atDie d) .SCR_STATUS_FRAME) = some n ∧ n < 65536) ∧
    (∃ (d : Die) (s : State), ((s.scrub d).mode = 0 ∨ (s.scrub d).paused = true)) ∧
    (∃ (d : Die) (s : State), (s.scrub d).mode = 1 ∧ (s.scrub d).paused = false ∧ s.scrubMay d = true) ∧
    (∃ (d : Die) (s : State), (s.scrub d).mode = 1 ∧ (s.scrub d).paused = true ∧ s.scrubMay d = true) ∧
    (∃ (die : FDie) (header : BitVec 2048) (r : Repair) (s : State), (s.scrub die.die).repair = some r ∧ r.step = 2 ∧ s.flag (atDie
    .e0) .MGT_STAT_CAL_BUSY = false ∧ imageIdentity (bytesLE header.toNat 256) = imageIdentity s.cfg.inForce) ∧
    (∃ (die : FDie) (header : BitVec 2048) (r : Repair) (s : State), (s.scrub die.die).repair = some r ∧ r.step = 2 ∧ s.flag (atDie
    .e0) .MGT_STAT_CAL_BUSY = false ∧ imageIdentity (bytesLE header.toNat 256) ≠ imageIdentity s.cfg.inForce) ∧
    (∃ (s : State), s.flag (atDie .e0) .MGT_STAT_CAL_BUSY = true) ∧
    (∃ (die : FDie) (p : Packet) (r : Repair) (s : State), (s.scrub die.die).repair = some r ∧ r.step = 4 ∧ p.addr.toNat = frameAddr
    die.die r.frame ∧ packetCrcOk p = true ∧ packetSyndOk p = true) ∧
    (∃ (die : FDie) (p : Packet) (r : Repair) (s : State), (s.scrub die.die).repair = some r ∧ r.step = 4 ∧ (p.addr.toNat ≠ frameAddr
    die.die r.frame ∨ packetCrcOk p = false ∨ packetSyndOk p = false)) ∧
    (∃ (die : FDie) (r : Repair) (s : State) (u : State), (s.scrub die.die).repair = some r ∧ r.step = 5 ∧ u = s.writeFrame die.die
    r.frame (some (s.frame die.die r.frame).data) r.packet ∧ clean die.die r.frame (u.frame die.die r.frame) = true) ∧
    (∃ (die : FDie) (r : Repair) (s : State) (u : State), (s.scrub die.die).repair = some r ∧ r.step = 5 ∧ u = s.writeFrame die.die
    r.frame (some (s.frame die.die r.frame).data) r.packet ∧ clean die.die r.frame (u.frame die.die r.frame) = false) ∧
    (∃ (die : FDie) (r : Repair) (s : State), (s.scrub die.die).repair = some r ∧ r.step ≠ 5) ∧
    (∃ (die : FDie) (r : Repair) (s : State), (s.scrub die.die).repair = some r ∧ r.step = 5) ∧
    (∃ (die : FDie) (s : State), (s.scrub die.die).repair = none) ∧
    (∃ (d : Die) (f : BitVec 16) (bit : Fin 4144), f.toNat < dieFrames d ∧ 4096 ≤ bit.val) ∧
    (∃ (d : Die) (f : BitVec 16) (bit : Fin 4144), f.toNat < dieFrames d ∧ bit.val < 4096 ∧ isContent d f.toNat = false) ∧
    (∃ (d : Die) (f : BitVec 16) (bit : Fin 4144), f.toNat < dieFrames d ∧ bit.val < 4096 ∧ isContent d f.toNat = true) ∧
    (∃ (d : Die) (k : Fin 3) (s : State), s.copies d k = [0, 0, 0]) :=
  ⟨⟨.e1, 1, { State.reset with scrubs := [((.e1 : Die).idx, { Scrub.off with mode := 1, paused := false })] }, by decide +kernel, by decide +kernel, clean_blankFrame _ _, by decide +kernel, by decide +kernel⟩,
   ⟨.e1, { State.reset with scrubs := [((.e1 : Die).idx, { Scrub.off with mode := 0 })] }, by decide +kernel⟩,
   ⟨.e1, { R [(atDie (.e1 : Die), .CFG_DIE_STAT_STAGE, 3)] with scrubs := [((.e1 : Die).idx, { Scrub.off with mode := 1, paused := false })] }, by decide +kernel⟩,
   ⟨.e1, { R [(atDie (.e1 : Die), .CFG_DIE_STAT_STAGE, 3)] with scrubs := [((.e1 : Die).idx, { Scrub.off with mode := 1, paused := true })] }, by decide +kernel⟩,
   ⟨.f5, 0, ⟨0, 2, 2, ⟨0, 0, 0⟩⟩, { State.reset with cfg := { State.reset.cfg with inForce := List.replicate 256 0 }, scrubs := [((.f5 : FDie).die.idx, { Scrub.off with repair := some (⟨0, 2, 2, ⟨0, 0, 0⟩⟩ : Repair) })] }, by decide +kernel⟩,
   ⟨.f5, 1, ⟨0, 2, 2, ⟨0, 0, 0⟩⟩, { State.reset with scrubs := [((.f5 : FDie).die.idx, { Scrub.off with repair := some (⟨0, 2, 2, ⟨0, 0, 0⟩⟩ : Repair) })] }, by decide +kernel⟩,
   ⟨R [((atDie .e0), .MGT_STAT_CAL_BUSY, 1)], by decide +kernel⟩,
   ⟨.f5, goodPacket, ⟨0, 2, 4, ⟨0, 0, 0⟩⟩, { State.reset with scrubs := [((.f5 : FDie).die.idx, { Scrub.off with repair := some (⟨0, 2, 4, ⟨0, 0, 0⟩⟩ : Repair) })] }, by decide +kernel, by decide +kernel, by decide +kernel, goodPacket_crc, goodPacket_synd⟩,
   ⟨.f5, pkt, ⟨0, 2, 4, ⟨0, 0, 0⟩⟩, { State.reset with scrubs := [((.f5 : FDie).die.idx, { Scrub.off with repair := some (⟨0, 2, 4, ⟨0, 0, 0⟩⟩ : Repair) })] }, by decide +kernel⟩,
   ⟨.f5, ⟨2272, 2, 5, blankFrame .f5 2272⟩, { State.reset with scrubs := [(7, { Scrub.off with repair := some ⟨2272, 2, 5, blankFrame .f5 2272⟩ })] }, ({ State.reset with scrubs := [(7, { Scrub.off with repair := some ⟨2272, 2, 5, blankFrame .f5 2272⟩ })] } : State).writeFrame .f5 2272 (some (({ State.reset with scrubs := [(7, { Scrub.off with repair := some ⟨2272, 2, 5, blankFrame .f5 2272⟩ })] } : State).frame .f5 2272).data) (⟨2272, 2, 5, blankFrame .f5 2272⟩ : Repair).packet, rfl, rfl, rfl, clean_blankFrame .f5 2272⟩,
   ⟨.f5, ⟨2272, 2, 5, { blankFrame .f5 2272 with crc := (blankFrame .f5 2272).crc + 1 }⟩, { State.reset with scrubs := [(7, { Scrub.off with repair := some ⟨2272, 2, 5, { blankFrame .f5 2272 with crc := (blankFrame .f5 2272).crc + 1 }⟩ })] }, ({ State.reset with scrubs := [(7, { Scrub.off with repair := some ⟨2272, 2, 5, { blankFrame .f5 2272 with crc := (blankFrame .f5 2272).crc + 1 }⟩ })] } : State).writeFrame .f5 2272 (some (({ State.reset with scrubs := [(7, { Scrub.off with repair := some ⟨2272, 2, 5, { blankFrame .f5 2272 with crc := (blankFrame .f5 2272).crc + 1 }⟩ })] } : State).frame .f5 2272).data) (⟨2272, 2, 5, { blankFrame .f5 2272 with crc := (blankFrame .f5 2272).crc + 1 }⟩ : Repair).packet, rfl, rfl, rfl, unclean_bad .f5 2272⟩,
   ⟨.f5, ⟨0, 2, 4, ⟨0, 0, 0⟩⟩, { State.reset with scrubs := [((.f5 : FDie).die.idx, { Scrub.off with repair := some (⟨0, 2, 4, ⟨0, 0, 0⟩⟩ : Repair) })] }, by decide +kernel⟩,
   ⟨.f5, ⟨2272, 2, 5, blankFrame .f5 2272⟩, { State.reset with scrubs := [(7, { Scrub.off with repair := some ⟨2272, 2, 5, blankFrame .f5 2272⟩ })] }, rfl, by decide +kernel⟩,
   ⟨.f5, { State.reset with scrubs := [((.f5 : FDie).die.idx, { Scrub.off with repair := none })] }, by decide +kernel⟩,
   ⟨.e1, 6143, 4143, by decide +kernel⟩,
   ⟨.f5, 0, 4095, by decide +kernel⟩,
   ⟨.f5, 2272, 4095, by decide +kernel⟩,
   ⟨.e1, 2, State.reset, by decide +kernel⟩⟩

theorem witness_WeldGroupCommandsRun :
    (∃ (d : Die) (ch : Fin 88) (p : Nat) (sh : List Int) (f : Flit) (s : State), chanOn d ch = true ∧ s.chanSt d ch = 2 ∧ (s.weld d
    ch).cur = none ∧ (s.weld d ch).pick 8 = some (p, sh) ∧ (s.weld d ch).queue.find? (fun f => flitPool f == p) = some f ∧ (s.weld d
    ch).replay.length + flitGroups p ≤ 64) ∧
    (∃ (d : Die) (ch : Fin 88) (s : State), chanOn d ch = true ∧ s.chanSt d ch = 2 ∧ (s.weld d ch).cur = none ∧ ((s.weld d ch).pick 8 =
    none ∨ (∃ p sh, (s.weld d ch).pick 8 = some (p, sh) ∧ 64 < (s.weld d ch).replay.length + flitGroups p))) ∧
    (∃ (d : Die) (ch : Fin 88) (s : State), chanOn d ch = true ∧ s.chanSt d ch = 1 ∧ (s.weld d ch).step = 5) ∧
    (∃ (d : Die) (ch : Fin 88) (s : State), (chanOn d ch = false ∨ (s.chanSt d ch ≠ 2 ∧ (s.chanSt d ch ≠ 1 ∨ (s.weld d ch).step ≠ 5)))) ∧
    (∃ (d : Die) (ch : Fin 88) (p : Nat) (g : BitVec 256) (s : State), chanOn d ch = true ∧ s.chanSt d ch = 2 ∧ weldCrcOk g = true ∧
    groupBits g 30 2 = 0 ∧ groupBits g 16 8 = ((s.weld d ch).ack + 1) % 256 ∧ p = groupBits g 24 2 * 4 + groupBits g 26 2) ∧
    (∃ (d : Die) (ch : Fin 88) (g : BitVec 256) (s : State), chanOn d ch = true ∧ s.chanSt d ch = 2 ∧ weldCrcOk g = false) ∧
    (∃ (d : Die) (ch : Fin 88) (g : BitVec 256) (s : State), chanOn d ch = true ∧ s.chanSt d ch = 2 ∧ weldCrcOk g = true ∧ groupBits g
    30 2 = 1 ∧ groupBits g 24 1 = 0) ∧
    (∃ (d : Die) (ch : Fin 88) (g : BitVec 256) (s : State) (u : State), chanOn d ch = true ∧ s.chanSt d ch = 2 ∧ weldCrcOk g = true ∧
    groupBits g 30 2 = 1 ∧ groupBits g 24 1 = 1 ∧ (s.weld d ch).acted ≠ some ((groupBits g 16 8 + 1) % 256) ∧ u = s.setWeld d ch
    { s.weld d ch with replay := ackGroups (groupBits g 16 8) (s.weld d ch).replay, credits := (List.range 16).map fun p => (s.weld d ch).credits.getD p 0 + (groupBits g (32 + 8 * p) 8 + 256 - (s.weld d ch).seen.getD p 0) % 256, seen := (List.range 16).map fun p => groupBits g (32 + 8 * p) 8, acted := if s.get (atSel d ch) .WLD_CH_VER_VER = 2 then some ((groupBits g 16 8 + 1) % 256) else none }) ∧
    (∃ (d : Die) (ch : Fin 88) (g : BitVec 256) (s : State), chanOn d ch = true ∧ s.chanSt d ch = 2 ∧ weldCrcOk g = true ∧ groupBits g
    30 2 = 3 ∧ s.get (atSel d ch) .WLD_CH_VER_VER = 2 ∧ (s.weld d ch).acted ≠ some (groupBits g 16 8)) ∧
    (∃ (d : Die) (ch : Fin 88) (s : State), chanOn d ch = true ∧ s.chanSt d ch = 2 ∧ ((s.weld d ch).replay.any fun e => decide (8 ≤
    e.2)) = true) ∧
    (∃ (d : Die) (ch : Fin 88) (s : State), chanOn d ch = true ∧ s.chanSt d ch = 2) :=
  ⟨⟨.e1, 87, 4, WeldEnd.new.shares, ⟨1, false, 0⟩, { R [(atSel (.e1 : Die) (87 : Fin 88), .WLD_CH_STAT_STATE, 2)] with welds := [(weldKey (.e1 : Die) (87 : Fin 88), { WeldEnd.new with cur := none, credits := List.replicate 16 1, queue := [⟨1, false, 0⟩], replay := List.replicate 63 (0, 0) })] }, by decide +kernel⟩,
   ⟨.e1, 87, { R [(atSel .e1 87, .WLD_CH_STAT_STATE, 2)] with welds := [(weldKey .e1 87, WeldEnd.new)] }, by decide +kernel, by decide +kernel, by decide +kernel, Or.inl (by decide +kernel)⟩,
   ⟨.e1, 87, { R [(atSel (.e1 : Die) (87 : Fin 88), .WLD_CH_STAT_STATE, 1)] with welds := [(weldKey (.e1 : Die) (87 : Fin 88), { WeldEnd.new with step := 5 })] }, by decide +kernel⟩,
   ⟨.e1, 87, State.reset, by decide +kernel⟩,
   ⟨.e1, 87, 0, weldSeal 0, R [(atSel (.e1 : Die) (87 : Fin 88), .WLD_CH_STAT_STATE, 2)], by decide +kernel, by decide +kernel, weldCrcOk_weldSeal _, (groupBits_weldSeal _ 14 2).trans (by decide +kernel), (groupBits_weldSeal _ 0 8).trans (by decide +kernel), groups_zero⟩,
   ⟨.e1, 87, 1, R [(atSel (.e1 : Die) (87 : Fin 88), .WLD_CH_STAT_STATE, 2)], by decide +kernel⟩,
   ⟨.e1, 87, weldSeal 0x40000000, R [(atSel (.e1 : Die) (87 : Fin 88), .WLD_CH_STAT_STATE, 2)], by decide +kernel, by decide +kernel, weldCrcOk_weldSeal _, (groupBits_weldSeal _ 14 2).trans (by decide +kernel), (groupBits_weldSeal _ 8 1).trans (by decide +kernel)⟩,
   (⟨.e1, 87, weldSeal 0x41000000, { R [(atSel .e1 87, .WLD_CH_STAT_STATE, 2)] with welds := [(weldKey .e1 87, WeldEnd.new)] }, (({ R [(atSel .e1 87, .WLD_CH_STAT_STATE, 2)] with welds := [(weldKey .e1 87, WeldEnd.new)] } : State).setWeld .e1 87 { ({ R [(atSel .e1 87, .WLD_CH_STAT_STATE, 2)] with welds := [(weldKey .e1 87, WeldEnd.new)] } : State).weld .e1 87 with
        replay := ackGroups (groupBits (weldSeal 0x41000000) 16 8) (({ R [(atSel .e1 87, .WLD_CH_STAT_STATE, 2)] with welds := [(weldKey .e1 87, WeldEnd.new)] } : State).weld .e1 87).replay
        credits := (List.range 16).map fun p => (({ R [(atSel .e1 87, .WLD_CH_STAT_STATE, 2)] with welds := [(weldKey .e1 87, WeldEnd.new)] } : State).weld .e1 87).credits.getD p 0 + (groupBits (weldSeal 0x41000000) (32 + 8 * p) 8 + 256 - (({ R [(atSel .e1 87, .WLD_CH_STAT_STATE, 2)] with welds := [(weldKey .e1 87, WeldEnd.new)] } : State).weld .e1 87).seen.getD p 0) % 256
        seen := (List.range 16).map fun p => groupBits (weldSeal 0x41000000) (32 + 8 * p) 8
        acted := if ({ R [(atSel .e1 87, .WLD_CH_STAT_STATE, 2)] with welds := [(weldKey .e1 87, WeldEnd.new)] } : State).get (atSel .e1 87) .WLD_CH_VER_VER = 2 then some ((groupBits (weldSeal 0x41000000) 16 8 + 1) % 256) else none }), by decide +kernel, by decide +kernel, weldCrcOk_weldSeal _, (groupBits_weldSeal _ 14 2).trans (by decide +kernel), (groupBits_weldSeal _ 8 1).trans (by decide +kernel), by decide +kernel, rfl⟩),
   ⟨.e1, 87, weldSeal 0xC0000000, R [(atSel (.e1 : Die) (87 : Fin 88), .WLD_CH_STAT_STATE, 2), ((atSel (.e1 : Die) (87 : Fin 88)), .WLD_CH_VER_VER, 2)], by decide +kernel, by decide +kernel, weldCrcOk_weldSeal _, (groupBits_weldSeal _ 14 2).trans (by decide +kernel), by decide +kernel, by decide +kernel⟩,
   ⟨.e1, 87, { R [(atSel (.e1 : Die) (87 : Fin 88), .WLD_CH_STAT_STATE, 2)] with welds := [(weldKey (.e1 : Die) (87 : Fin 88), { WeldEnd.new with replay := [(0, 8)] })] }, by decide +kernel⟩,
   ⟨.e1, 87, R [(atSel (.e1 : Die) (87 : Fin 88), .WLD_CH_STAT_STATE, 2)], by decide +kernel⟩⟩

theorem witness_WeldTrainingAndSeamCommandsRun :
    (∃ (ch : Fin 88) (s : State), s.weldAt ch 1 = true) ∧
    (∃ (ch : Fin 88) (s : State), (s.weldAt ch 1 = true ∨ s.chanSt (chanDies ch).1 ch = 3)) ∧
    (∃ (ch : Fin 88) (s : State), s.weldAt ch 2 = true ∧ (s.weld (chanDies ch).1 ch).records ≠ [] ∧ (s.weld (chanDies ch).2 ch).records
    ≠ [] ∧ (s.weld (chanDies ch).1 ch).newest.length ≤ 4 ∧ (s.weld (chanDies ch).2 ch).newest.length ≤ 4) ∧
    (∃ (ch : Fin 88) (low : BitVec 68) (s : State), s.weldAt ch 2 = true ∧ 4 < (mapWith (s.weld (chanDies ch).1 ch).newest (wiresOf
    low)).length) ∧
    (∃ (ch : Fin 88) (s : State), s.weldAt ch 4 = true) ∧
    (∃ (ch : Fin 88) (s : State), s.weldAt ch 4 = true) ∧
    (∃ (ch : Fin 88) (s : State), s.weldAt ch 5 = true ∧ (s.weld (chanDies ch).1 ch).heard = true ∧ (s.weld (chanDies ch).2 ch).heard =
    true ∧ Tbl.get 0 s.dieStep (chanDies ch).1.idx ≠ 2 ∧ Tbl.get 0 s.dieStep (chanDies ch).2.idx ≠ 2) ∧
    (∃ (ch : Fin 88) (s : State), s.chanSt (chanDies ch).1 ch = 3 ∧ (s.weld (chanDies ch).1 ch).records ≠ [] ∧ (s.weld (chanDies ch).2
    ch).records ≠ [] ∧ (s.weld (chanDies ch).1 ch).map.length ≤ 4 ∧ (s.weld (chanDies ch).2 ch).map.length ≤ 4) ∧
    (∃ (ch : Fin 88) (low : BitVec 68) (s : State), s.chanSt (chanDies ch).1 ch = 3 ∧ 4 < (mapWith (s.weld (chanDies ch).1 ch).map
    (wiresOf low)).length) ∧
    (∃ (d : Die) (ch : Fin 88) (s : State), chanOn d ch = true ∧ s.chanSt d ch = 2) ∧
    (∃ (d : Die) (ch : Fin 88) (s : State), chanOn d ch = true ∧ (s.chanSt d ch = 2 ∨ s.chanSt d ch = 5)) ∧
    (∃ (d : Die) (ch : Fin 88) (s : State), chanOn d ch = true ∧ s.chanSt d ch ≠ 2 ∧ s.chanSt d ch ≠ 5) ∧
    (∃ (d : Die) (ch : Fin 88) (s : State), chanOn d ch = true ∧ s.chanSt d ch = 2 ∧ (s.weld d ch).records.getLast? ≠ some (s.weld d
    ch).map ∧ (s.weld d ch).records.length < 4) ∧
    (∃ (d : Die) (ch : Fin 88) (key : BitVec 8) (s : State), chanOn d ch = true ∧ (key ≠ 0xA7 ∨ s.chanSt d ch ≠ 2)) ∧
    (∃ (d : Die) (e : Fin 11) (g : Fin 88) (s : State), edgeOn d e = true ∧ (s.seam d e g).cfg.async = false ∧ s.flag (atSeam d e g)
    .WLD_SEAM_STAT_LOCKED = true) ∧
    (∃ (d : Die) (e : Fin 11) (g : Fin 88) (s : State), edgeOn d e = true ∧ (s.seam d e g).cfg.async = false) ∧
    (∃ (d : Die) (e : Fin 11) (g : Fin 88) (s : State), (s.seam d e g).cfg.async = true) :=
  ⟨⟨87, { R [(atSel .e1 87, .WLD_CH_STAT_STATE, 1)] with welds := [(weldKey .e1 87, { WeldEnd.new with step := 1 }), (weldKey .f5 87, { WeldEnd.new with step := 1 })] }, by decide +kernel⟩,
   ⟨87, { R [(atSel .e1 87, .WLD_CH_STAT_STATE, 1)] with welds := [(weldKey .e1 87, { WeldEnd.new with step := 1 }), (weldKey .f5 87, { WeldEnd.new with step := 1 })] }, by decide +kernel⟩,
   ⟨87, { R [(atSel .e1 87, .WLD_CH_STAT_STATE, 1)] with welds := [(weldKey .e1 87, { WeldEnd.new with step := 2, records := [[1, 2, 3, 4]] }), (weldKey .f5 87, { WeldEnd.new with step := 2, records := [[]] })] }, by decide +kernel⟩,
   ⟨87, 0x1F, { R [(atSel .e1 87, .WLD_CH_STAT_STATE, 1)] with welds := [(weldKey .e1 87, { WeldEnd.new with step := 2 }), (weldKey .f5 87, { WeldEnd.new with step := 2 })] }, by decide +kernel⟩,
   ⟨87, { R [(atSel .e1 87, .WLD_CH_STAT_STATE, 1)] with welds := [(weldKey .e1 87, { WeldEnd.new with step := 4 }), (weldKey .f5 87, { WeldEnd.new with step := 4 })] }, by decide +kernel⟩,
   ⟨87, { R [(atSel .e1 87, .WLD_CH_STAT_STATE, 1)] with welds := [(weldKey .e1 87, { WeldEnd.new with step := 4 }), (weldKey .f5 87, { WeldEnd.new with step := 4 })] }, by decide +kernel⟩,
   ⟨87, { R [(atSel .e1 87, .WLD_CH_STAT_STATE, 1)] with welds := [(weldKey .e1 87, { WeldEnd.new with step := 5, heard := true }), (weldKey .f5 87, { WeldEnd.new with step := 5, heard := true })] }, by decide +kernel⟩,
   ⟨87, { R [(atSel (chanDies (87 : Fin 88)).1 (87 : Fin 88), .WLD_CH_STAT_STATE, 3)] with welds := [(weldKey .e1 87, { WeldEnd.new with records := [[]], map := [1, 2, 3, 4] }), (weldKey .f5 87, { WeldEnd.new with records := [[]] })] }, by decide +kernel⟩,
   ⟨87, 0x1F, R [(atSel (chanDies (87 : Fin 88)).1 (87 : Fin 88), .WLD_CH_STAT_STATE, 3)], by decide +kernel⟩,
   ⟨.e1, 87, R [(atSel (.e1 : Die) (87 : Fin 88), .WLD_CH_STAT_STATE, 2)], by decide +kernel⟩,
   ⟨.e1, 87, R [(atSel (.e1 : Die) (87 : Fin 88), .WLD_CH_STAT_STATE, 2)], by decide +kernel⟩,
   ⟨.e1, 87, State.reset, by decide +kernel⟩,
   ⟨.e1, 87, R [(atSel (.e1 : Die) (87 : Fin 88), .WLD_CH_STAT_STATE, 2)], by decide +kernel⟩,
   ⟨.e1, 87, 1, State.reset, by decide +kernel⟩,
   ⟨.e1, 10, 87, R [((atSeam (.e1 : Die) (10 : Fin 11) (87 : Fin 88)), .WLD_SEAM_STAT_LOCKED, 1)], by decide +kernel⟩,
   ⟨.e1, 10, 87, State.reset, by decide +kernel⟩,
   ⟨.f5, 10, 87, { State.reset with fab := { State.reset.fab with seams := [(seamKey .f5 10 87, { Seam.none with cfg := { Seam.none.cfg with async := true } })] } }, by decide +kernel⟩⟩

theorem witness_HammerAluCommandsRun :
    ∃ (c : CoreId) (s : State), s.coreReady c :=
  ⟨⟨.f5, 7⟩, R [(atUnit .f5 7, .HMR_CORE_STAT_STATE, 1), (atDie .f5, .CLK_CPLL_STAT_LOCKED, 1)], by unfold State.coreReady; decide +kernel⟩

theorem witness_HammerControlCommandsRun :
    ∃ (c : CoreId) (s : State), s.coreReady c :=
  ⟨⟨.f5, 7⟩, R [(atUnit .f5 7, .HMR_CORE_STAT_STATE, 1), (atDie .f5, .CLK_CPLL_STAT_LOCKED, 1)], by unfold State.coreReady; decide +kernel⟩

theorem witness_CallAndReturnUseTheReturnStack :
    ∃ (c : CoreId) (s : State), s.coreReady c :=
  ⟨⟨.f5, 7⟩, R [(atUnit .f5 7, .HMR_CORE_STAT_STATE, 1), (atDie .f5, .CLK_CPLL_STAT_LOCKED, 1)], by unfold State.coreReady; decide +kernel⟩

theorem witness_HammerAccumulatorCommandsRun :
    ∃ (c : CoreId) (s : State), s.coreReady c :=
  ⟨⟨.f5, 7⟩, R [(atUnit .f5 7, .HMR_CORE_STAT_STATE, 1), (atDie .f5, .CLK_CPLL_STAT_LOCKED, 1)], by unfold State.coreReady; decide +kernel⟩

theorem witness_HammerMemoryCommandsRun :
    ∃ (c : CoreId) (m : MemArg) (w : Nat) (s : State), s.coreReady c ∧ m.mode = 0 ∧ dataSpace ((s.at_ c).ir m.i) = .localMem w ∧
    s.eccMarked (cdie c) 2 (localEcc c.k w) = false :=
  ⟨⟨.f5, 7⟩, ⟨7, 0, 5⟩, 0, R [(atUnit .f5 7, .HMR_CORE_STAT_STATE, 1), (atDie .f5, .CLK_CPLL_STAT_LOCKED, 1)], by unfold State.coreReady; decide +kernel⟩

theorem witness_HammerLockedCommandsRun :
    ∃ (c : CoreId) (i : Fin 8) (w : Nat) (s : State), s.coreReady c ∧ s.gated (cdie c) 8 = false ∧ dataSpace ((s.at_ c).ir i) = .hearth
    w ∧ s.eccMarked (cdie c) 4 w = false :=
  ⟨⟨.f5, 7⟩, 7, 0, { R [(atSel (cdie (⟨.f5, 7⟩ : CoreId)) 8, .CLK_GATE_GATED, 0), (atUnit .f5 7, .HMR_CORE_STAT_STATE, 1), (atDie .f5, .CLK_CPLL_STAT_LOCKED, 1)] with cores := [(coreKey .f5 7, { Core.reset with i := [(7, 0x80000)] })] }, by unfold State.coreReady; decide +kernel⟩

theorem witness_HammerPipelineDelivers :
    (∃ (c : CoreId) (n : Fin 16) (v : Nat) (s : State), s.issues (cdie c) c.k = true ∧ (s.at_ c).pend = [⟨1, .x n, v⟩] ∧ (s.at_
    c).wrote = [] ∧ (s.at_ c).br = none ∧ (s.at_ c).ld = 0 ∧ (s.at_ c).stepping = false) ∧
    (∃ (c : CoreId) (left : Nat) (dest : HDest) (v : Nat) (s : State), s.issues (cdie c) c.k = true ∧ 2 ≤ left ∧ (s.at_ c).pend =
    [⟨left, dest, v⟩] ∧ (s.at_ c).br = none ∧ (s.at_ c).ld = 0 ∧ (s.at_ c).stepping = false) ∧
    (∃ (c : CoreId) (s : State), s.issues (cdie c) c.k = false) :=
  ⟨⟨⟨.f5, 7⟩, 15, 0x123456, { R [(atUnit .f5 7, .HMR_CORE_STAT_STATE, 1), (atDie .f5, .CLK_CPLL_STAT_LOCKED, 1)] with cores := [(coreKey (cdie (⟨.f5, 7⟩ : CoreId)) (⟨.f5, 7⟩ : CoreId).k, { Core.reset with pend := [⟨1, .x (15 : Fin 16), 0x123456⟩], wrote := [], br := none, ld := 0, stepping := false })] }, by decide +kernel⟩,
   ⟨⟨.f5, 7⟩, 2, .lc, 0, { R [(atUnit .f5 7, .HMR_CORE_STAT_STATE, 1), (atDie .f5, .CLK_CPLL_STAT_LOCKED, 1)] with cores := [(coreKey (cdie (⟨.f5, 7⟩ : CoreId)) (⟨.f5, 7⟩ : CoreId).k, { Core.reset with pend := [⟨2, (.lc : HDest), 0⟩], br := none, ld := 0, stepping := false })] }, by decide +kernel⟩,
   ⟨⟨.f5, 7⟩, State.reset, by decide +kernel⟩⟩

theorem witness_HammerInterruptCommandsRun :
    (∃ (c : CoreId) (l : Nat) (s : State), s.coreStill (cdie c) c.k = false ∧ (s.at_ c).halt = none ∧ (s.at_ c).heldOff = false ∧
    ((s.cstate (cdie c) c.k = 1 ∧ (s.at_ c).settled = true) ∨ s.cstate (cdie c) c.k = 2 ∨ s.cstate (cdie c) c.k = 4) ∧ s.lineTaken
    (cdie c) c.k = some l) ∧
    (∃ (c : CoreId) (l : Nat) (s : State), l < 5 ∧ s.coreStill (cdie c) c.k = false ∧ (s.at_ c).halt = none ∧ s.cstate (cdie c) c.k = 2
    ∧ s.lineOn (cdie c) c.k l = true ∧ s.lineTaken (cdie c) c.k = none) ∧
    (∃ (c : CoreId) (s : State), s.coreStill (cdie c) c.k = false ∧ (s.at_ c).halt = none ∧ s.cstate (cdie c) c.k = 4 ∧ ((s.at_
    c).br.isSome = true ∨ (s.at_ c).inHandler = true) ∧ s.lineOn (cdie c) c.k 0 = true) ∧
    (∃ (c : CoreId) (s : State), (s.at_ c).heldOff = true ∧ s.cstate (cdie c) c.k ≠ 2 ∧ (s.cstate (cdie c) c.k ≠ 4 ∨ ((s.at_ c).br =
    none ∧ (s.at_ c).inHandler = false) ∨ s.lineOn (cdie c) c.k 0 = false)) ∧
    (∃ (c : CoreId) (s : State), ((s.cstate (cdie c) c.k = 1 ∧ (s.at_ c).settled = false) ∨ s.cstate (cdie c) c.k = 0 ∨ s.cstate (cdie
    c) c.k = 3 ∨ 5 ≤ s.cstate (cdie c) c.k)) ∧
    (∃ (c : CoreId) (s : State), (s.coreStill (cdie c) c.k = true ∨ (s.at_ c).halt.isSome = true ∨ (s.cstate (cdie c) c.k ≠ 2 ∧
    s.lineTaken (cdie c) c.k = none))) :=
  ⟨⟨⟨.f5, 7⟩, 4, { R [(atUnit (cdie (⟨.f5, 7⟩ : CoreId)) (⟨.f5, 7⟩ : CoreId).k, .HMR_CORE_STAT_STATE, 1), (atUnit .f5 7, .HMR_CORE_STAT_STATE, 1), (atDie .f5, .CLK_CPLL_STAT_LOCKED, 1), (atUnit .f5 7, .HMR_IRQ_PEND_PEND, 16), (atUnit .f5 7, .HMR_IRQ_CTRL_EN, 8)] with cores := [(coreKey (cdie (⟨.f5, 7⟩ : CoreId)) (⟨.f5, 7⟩ : CoreId).k, { Core.reset with halt := none, sr := 0x2000 })] }, by decide +kernel⟩,
   ⟨⟨.f5, 7⟩, 4, { R [(atUnit (cdie (⟨.f5, 7⟩ : CoreId)) (⟨.f5, 7⟩ : CoreId).k, .HMR_CORE_STAT_STATE, 2), (atDie .f5, .CLK_CPLL_STAT_LOCKED, 1), (atUnit .f5 7, .HMR_IRQ_PEND_PEND, 16), (atUnit .f5 7, .HMR_IRQ_CTRL_EN, 8)] with cores := [(coreKey (cdie (⟨.f5, 7⟩ : CoreId)) (⟨.f5, 7⟩ : CoreId).k, { Core.reset with halt := none })] }, by decide +kernel⟩,
   ⟨⟨.f5, 7⟩, { R [(atUnit .f5 7, .HMR_CORE_STAT_STATE, 4), (atDie .f5, .CLK_CPLL_STAT_LOCKED, 1), (atUnit .f5 7, .HMR_IRQ_PEND_PEND, 1), (atUnit .f5 7, .HMR_STK_CTRL_BIND, 1)] with cores := [(coreKey .f5 7, { Core.reset with ld := 0, br := some ⟨1, none, false⟩ })] }, by decide +kernel⟩,
   ⟨⟨.f5, 7⟩, { R [(atUnit .f5 7, .HMR_CORE_STAT_STATE, 1), (atDie .f5, .CLK_CPLL_STAT_LOCKED, 1)] with cores := [(coreKey .f5 7, { Core.reset with ld := 0, br := some ⟨1, none, false⟩ })] }, by decide +kernel, by decide +kernel, Or.inl (by decide +kernel)⟩,
   ⟨⟨.f5, 7⟩, State.reset, Or.inr (Or.inl (by decide +kernel))⟩,
   ⟨⟨.f5, 7⟩, State.reset, by decide +kernel⟩⟩

theorem witness_TongsCommandsRun :
    (∃ (c : CoreId) (s : State), (s.at_ c).queued < 8) ∧
    (∃ (c : CoreId) (s : State), 8 ≤ (s.at_ c).queued) ∧
    (∃ (c : CoreId) (desc : List Nat) (rest : List (List Nat)) (s : State), s.flag (atUnit (cdie c) c.k) .HMR_TNG_STAT_STOPPED = false
    ∧ (s.at_ c).run = none ∧ (s.at_ c).queue = desc :: rest ∧ descWord desc 5 = 0) ∧
    (∃ (c : CoreId) (desc : List Nat) (rest : List (List Nat)) (s : State), s.flag (atUnit (cdie c) c.k) .HMR_TNG_STAT_STOPPED = false
    ∧ (s.at_ c).run = none ∧ (s.at_ c).queue = desc :: rest ∧ descWord desc 5 ≠ 0 ∧ descRefused (cdie c) c.k desc = true) ∧
    (∃ (c : CoreId) (desc : List Nat) (rest : List (List Nat)) (s : State), s.flag (atUnit (cdie c) c.k) .HMR_TNG_STAT_STOPPED = false
    ∧ (s.at_ c).run = none ∧ (s.at_ c).queue = desc :: rest ∧ descWord desc 5 ≠ 0 ∧ descRefused (cdie c) c.k desc = false) ∧
    (∃ (c : CoreId) (s : State), (s.flag (atUnit (cdie c) c.k) .HMR_TNG_STAT_STOPPED = true ∨ (s.at_ c).run.isSome = true ∨ (s.at_
    c).queue = [])) ∧
    (∃ (c : CoreId) (run : TongsRun) (s : State), (s.at_ c).run = some run ∧ run.fin = true) :=
  ⟨⟨⟨.f5, 7⟩, { State.reset with cores := [(coreKey (cdie (⟨.f5, 7⟩ : CoreId)) (⟨.f5, 7⟩ : CoreId).k, { Core.reset with queue := List.replicate 7 [] })] }, by decide +kernel⟩,
   ⟨⟨.f5, 7⟩, { State.reset with cores := [(coreKey (cdie (⟨.f5, 7⟩ : CoreId)) (⟨.f5, 7⟩ : CoreId).k, { Core.reset with queue := List.replicate 8 [] })] }, by decide +kernel⟩,
   ⟨⟨.f5, 7⟩, [0, 0, 0, 0, 0, 0], [], { State.reset with cores := [(coreKey (cdie (⟨.f5, 7⟩ : CoreId)) (⟨.f5, 7⟩ : CoreId).k, { Core.reset with run := none, queue := ([0, 0, 0, 0, 0, 0] : List Nat) :: ([] : List (List Nat)) })] }, by decide +kernel⟩,
   ⟨⟨.f5, 7⟩, [0, 1, 0, 0, 0, 1], [], { State.reset with cores := [(coreKey (cdie (⟨.f5, 7⟩ : CoreId)) (⟨.f5, 7⟩ : CoreId).k, { Core.reset with run := none, queue := ([0, 1, 0, 0, 0, 1] : List Nat) :: ([] : List (List Nat)) })] }, by decide +kernel⟩,
   ⟨⟨.f5, 7⟩, [0, 0, 0, 0, 0, 1], [], { State.reset with cores := [(coreKey (cdie (⟨.f5, 7⟩ : CoreId)) (⟨.f5, 7⟩ : CoreId).k, { Core.reset with run := none, queue := ([0, 0, 0, 0, 0, 1] : List Nat) :: ([] : List (List Nat)) })] }, by decide +kernel⟩,
   ⟨⟨.f5, 7⟩, R [((atUnit (cdie (⟨.f5, 7⟩ : CoreId)) (⟨.f5, 7⟩ : CoreId).k), .HMR_TNG_STAT_STOPPED, 1)], by decide +kernel⟩,
   ⟨⟨.f5, 7⟩, ⟨[0x800000, 0, 0, 0, 0, 1], 1, 0, 0, false, true, false⟩, { State.reset with cores := [(coreKey (cdie (⟨.f5, 7⟩ : CoreId)) (⟨.f5, 7⟩ : CoreId).k, { Core.reset with run := some (⟨[0x800000, 0, 0, 0, 0, 1], 1, 0, 0, false, true, false⟩ : TongsRun) })] }, by decide +kernel⟩⟩

theorem witness_CoreResetCommandsRun :
    (∃ (c : CoreId) (s : State), (s.flag (atUnit (cdie c) c.k) .HMR_CORE_CTRL_HOLD = true ∨ s.get (atDie (cdie c)) .CFG_DIE_STAT_STAGE
    ≠ 3)) ∧
    (∃ (c : CoreId) (s : State), s.flag (atUnit (cdie c) c.k) .HMR_CORE_CTRL_HOLD = false ∧ s.get (atDie (cdie c)) .CFG_DIE_STAT_STAGE
    = 3 ∧ s.flag (atUnit (cdie c) c.k) .HMR_DBG_CTRL_RESET_HALT = false) ∧
    (∃ (c : CoreId) (s : State), s.flag (atUnit (cdie c) c.k) .HMR_CORE_CTRL_HOLD = false ∧ s.get (atDie (cdie c)) .CFG_DIE_STAT_STAGE
    = 3 ∧ s.flag (atUnit (cdie c) c.k) .HMR_DBG_CTRL_RESET_HALT = true) ∧
    (∃ (c : CoreId) (hold : Bool) (s : State), s.flag (atUnit (cdie c) c.k) .HMR_CORE_CTRL_HOLD = hold) ∧
    (∃ (c : CoreId) (s : State), s.flag (atUnit (cdie c) c.k) .HMR_CORE_CTRL_HOLD = false) ∧
    (∃ (c : CoreId) (s : State), s.flag (atUnit (cdie c) c.k) .HMR_WDOG_CTRL_EN = true ∧ s.cstate (cdie c) c.k ≠ 5 ∧ s.gated (cdie c)
    c.k = false ∧ s.up (cdie c) = true ∧ s.flag (atUnit (cdie c) c.k) .HMR_WDOG_STAT_WARNED = false) ∧
    (∃ (c : CoreId) (s : State), s.flag (atUnit (cdie c) c.k) .HMR_WDOG_CTRL_EN = true ∧ s.cstate (cdie c) c.k ≠ 5 ∧ s.gated (cdie c)
    c.k = false ∧ s.up (cdie c) = true ∧ s.flag (atUnit (cdie c) c.k) .HMR_WDOG_STAT_WARNED = true ∧ s.flag (atUnit (cdie c) c.k)
    .HMR_WDOG_CTRL_ACTION = true) ∧
    (∃ (c : CoreId) (s : State), s.flag (atUnit (cdie c) c.k) .HMR_WDOG_CTRL_EN = true ∧ s.cstate (cdie c) c.k ≠ 5 ∧ s.gated (cdie c)
    c.k = false ∧ s.up (cdie c) = true ∧ s.flag (atUnit (cdie c) c.k) .HMR_WDOG_STAT_WARNED = true ∧ s.flag (atUnit (cdie c) c.k)
    .HMR_WDOG_CTRL_ACTION = false) ∧
    (∃ (c : CoreId) (s : State), (s.flag (atUnit (cdie c) c.k) .HMR_WDOG_CTRL_EN = false ∨ s.cstate (cdie c) c.k = 5 ∨ s.gated (cdie c)
    c.k = true)) ∧
    (∃ (key : BitVec 8), key ≠ 0x3C) :=
  ⟨⟨⟨.f5, 7⟩, R [((atUnit (cdie (⟨.f5, 7⟩ : CoreId)) (⟨.f5, 7⟩ : CoreId).k), .HMR_CORE_CTRL_HOLD, 1)], by decide +kernel⟩,
   ⟨⟨.f5, 7⟩, R [((atDie (cdie (⟨.f5, 7⟩ : CoreId))), .CFG_DIE_STAT_STAGE, 3)], by decide +kernel⟩,
   ⟨⟨.f5, 7⟩, R [((atDie (cdie (⟨.f5, 7⟩ : CoreId))), .CFG_DIE_STAT_STAGE, 3), ((atUnit (cdie (⟨.f5, 7⟩ : CoreId)) (⟨.f5, 7⟩ : CoreId).k), .HMR_DBG_CTRL_RESET_HALT, 1)], by decide +kernel⟩,
   ⟨⟨.f5, 7⟩, false, State.reset, by decide +kernel⟩,
   ⟨⟨.f5, 7⟩, State.reset, by decide +kernel⟩,
   ⟨⟨.f5, 7⟩, R [((atUnit (cdie (⟨.f5, 7⟩ : CoreId)) (⟨.f5, 7⟩ : CoreId).k), .HMR_WDOG_CTRL_EN, 1), (atSel (cdie (⟨.f5, 7⟩ : CoreId)) (⟨.f5, 7⟩ : CoreId).k, .CLK_GATE_GATED, 0)], by decide +kernel⟩,
   ⟨⟨.f5, 7⟩, R [((atUnit (cdie (⟨.f5, 7⟩ : CoreId)) (⟨.f5, 7⟩ : CoreId).k), .HMR_WDOG_CTRL_EN, 1), (atSel (cdie (⟨.f5, 7⟩ : CoreId)) (⟨.f5, 7⟩ : CoreId).k, .CLK_GATE_GATED, 0), ((atUnit (cdie (⟨.f5, 7⟩ : CoreId)) (⟨.f5, 7⟩ : CoreId).k), .HMR_WDOG_STAT_WARNED, 1), ((atUnit (cdie (⟨.f5, 7⟩ : CoreId)) (⟨.f5, 7⟩ : CoreId).k), .HMR_WDOG_CTRL_ACTION, 1)], by decide +kernel⟩,
   ⟨⟨.f5, 7⟩, R [((atUnit (cdie (⟨.f5, 7⟩ : CoreId)) (⟨.f5, 7⟩ : CoreId).k), .HMR_WDOG_CTRL_EN, 1), (atSel (cdie (⟨.f5, 7⟩ : CoreId)) (⟨.f5, 7⟩ : CoreId).k, .CLK_GATE_GATED, 0), ((atUnit (cdie (⟨.f5, 7⟩ : CoreId)) (⟨.f5, 7⟩ : CoreId).k), .HMR_WDOG_STAT_WARNED, 1)], by decide +kernel⟩,
   ⟨⟨.f5, 7⟩, State.reset, by decide +kernel⟩,
   ⟨0x3D, by decide +kernel⟩⟩

theorem witness_SystemWatchdogCommandsRun :
    (∃ (s : State), s.flag (atDie .e0) .DBG_SWD_CTRL_EN = true) ∧
    (∃ (value : Word) (s : State), s.flag (atDie .e0) .DBG_SWD_CTRL_EN = false ∧ value.getLsbD 31 = false) ∧
    (∃ (value : Word) (s : State), s.flag (atDie .e0) .DBG_SWD_CTRL_EN = false ∧ value.getLsbD 31 = true) ∧
    (∃ (key : BitVec 8), key ≠ 0x6D) ∧
    (∃ (s : State), 2 ≤ s.get (atDie .e0) .DBG_SESSION_LEVEL) ∧
    (∃ (icls : BitVec 3) (s : State), (icls ≠ 5 ∨ s.get (atDie .e0) .DBG_SESSION_LEVEL < 2)) ∧
    (∃ (s : State), s.flag (atDie .e0) .DBG_SWD_CTRL_EN = true ∧ s.flag (atDie .e0) .DBG_SWD_STAT_FROZEN = false ∧ s.flag (atDie .e0)
    .DBG_SWD_STAT_WARNED = false) ∧
    (∃ (s : State), s.flag (atDie .e0) .DBG_SWD_CTRL_EN = true ∧ s.flag (atDie .e0) .DBG_SWD_STAT_FROZEN = false ∧ s.flag (atDie .e0)
    .DBG_SWD_STAT_WARNED = true) ∧
    (∃ (s : State), (s.flag (atDie .e0) .DBG_SWD_CTRL_EN = false ∨ s.flag (atDie .e0) .DBG_SWD_STAT_FROZEN = true)) :=
  ⟨⟨R [((atDie .e0), .DBG_SWD_CTRL_EN, 1)], by decide +kernel⟩,
   ⟨0, State.reset, by decide +kernel⟩,
   ⟨0x80000001, State.reset, by decide +kernel⟩,
   ⟨0x6C, by decide +kernel⟩,
   ⟨R [((atDie .e0), .DBG_SESSION_LEVEL, 2)], by decide +kernel⟩,
   ⟨1, State.reset, by decide +kernel⟩,
   ⟨R [((atDie .e0), .DBG_SWD_CTRL_EN, 1)], by decide +kernel⟩,
   ⟨R [((atDie .e0), .DBG_SWD_CTRL_EN, 1), ((atDie .e0), .DBG_SWD_STAT_WARNED, 1)], by decide +kernel⟩,
   ⟨State.reset, by decide +kernel⟩⟩

theorem witness_HaltCommandsRun :
    (∃ (c : CoreId) (s : State), 2 ≤ s.get (atDie .e0) .DBG_SESSION_LEVEL ∧ s.cstate (cdie c) c.k ≠ 0 ∧ s.cstate (cdie c) c.k ≠ 5 ∧
    (s.at_ c).halt = none) ∧
    (∃ (c : CoreId) (s : State), (s.get (atDie .e0) .DBG_SESSION_LEVEL < 2 ∨ s.cstate (cdie c) c.k = 0 ∨ s.cstate (cdie c) c.k = 5 ∨
    (s.at_ c).halt.isSome = true)) ∧
    (∃ (c : CoreId) (point : Fin 4) (s : State), s.flag ⟨cdie c, c.k, point, 0⟩ .HMR_BKPT_EN = true ∧ s.get ⟨cdie c, c.k, point, 0⟩
    .HMR_BKPT_PC = (s.at_ c).pc.toNat ∧ s.cstate (cdie c) c.k ≠ 0 ∧ s.cstate (cdie c) c.k ≠ 5 ∧ (s.at_ c).halt = none) ∧
    (∃ (c : CoreId) (point : Fin 4) (s : State), (s.flag ⟨cdie c, c.k, point, 0⟩ .HMR_BKPT_EN = false ∨ s.get ⟨cdie c, c.k, point, 0⟩
    .HMR_BKPT_PC ≠ (s.at_ c).pc.toNat)) ∧
    (∃ (c : CoreId) (cause : Nat) (s : State), (s.at_ c).halt = some cause ∧ ((s.at_ c).br = none ∨ s.cstate (cdie c) c.k ≠ 1) ∧
    s.cstate (cdie c) c.k ≠ 0 ∧ s.cstate (cdie c) c.k ≠ 5 ∧ (s.at_ c).stall ≠ .load ∧ s.flag (atUnit (cdie c) c.k) .HMR_DBG_CTRL_XT_OUT
    = false) ∧
    (∃ (c : CoreId) (cause : Nat) (s : State), (s.at_ c).halt = some cause ∧ ((s.at_ c).br = none ∨ s.cstate (cdie c) c.k ≠ 1) ∧
    s.cstate (cdie c) c.k ≠ 0 ∧ s.cstate (cdie c) c.k ≠ 5 ∧ (s.at_ c).stall = .load) ∧
    (∃ (c : CoreId) (s : State), ((s.at_ c).halt = none ∨ ((s.at_ c).br.isSome = true ∧ s.cstate (cdie c) c.k = 1) ∨ s.cstate (cdie c)
    c.k = 0 ∨ s.cstate (cdie c) c.k = 5)) ∧
    (∃ (c : CoreId) (s : State), 2 ≤ s.get (atDie .e0) .DBG_SESSION_LEVEL ∧ s.cstate (cdie c) c.k = 5 ∧ (s.at_ c).run = none ∧ (s.at_
    c).heldStores = [] ∧ (s.at_ c).stall = .none) ∧
    (∃ (c : CoreId) (s : State), 2 ≤ s.get (atDie .e0) .DBG_SESSION_LEVEL ∧ s.cstate (cdie c) c.k = 5 ∧ (s.at_ c).run = none ∧ (s.at_
    c).heldStores = [] ∧ (s.at_ c).stall = .sync ∧ (s.at_ c).stores = 0 ∧ (s.at_ c).under = 3 ∧ (s.at_ c).rewait = false) ∧
    (∃ (c : CoreId) (step : Bool) (r : TongsRun) (s : State) (u : State), 2 ≤ s.get (atDie .e0) .DBG_SESSION_LEVEL ∧ s.cstate (cdie c)
    c.k = 5 ∧ (s.at_ c).run = some r ∧ u = ((s.setCstate (cdie c) c.k (s.at_ c).under).put (atUnit (cdie c) c.k) .HMR_DBG_STAT_HALTED
    0).onCore (cdie c) c.k (fun q => { q.again.foldl (fun q e => q.commitOne e.1 e.2) q with stepping := step, again := [] })) ∧
    (∃ (c : CoreId) (s : State), (s.get (atDie .e0) .DBG_SESSION_LEVEL < 2 ∨ s.cstate (cdie c) c.k ≠ 5)) ∧
    (∃ (c : CoreId) (s : State), 2 ≤ s.get (atDie .e0) .DBG_SESSION_LEVEL ∧ s.cstate (cdie c) c.k = 5 ∧ s.get (atUnit (cdie c) c.k)
    .HMR_DBG_REG_IDX_CODE < 16) ∧
    (∃ (c : CoreId) (s : State), 2 ≤ s.get (atDie .e0) .DBG_SESSION_LEVEL ∧ s.cstate (cdie c) c.k = 5 ∧ s.get (atUnit (cdie c) c.k)
    .HMR_DBG_REG_IDX_CODE = 0x48) ∧
    (∃ (c : CoreId) (s : State), 2 ≤ s.get (atDie .e0) .DBG_SESSION_LEVEL ∧ s.cstate (cdie c) c.k = 5) ∧
    (∃ (c : CoreId) (s : State), (s.get (atDie .e0) .DBG_SESSION_LEVEL < 2 ∨ s.cstate (cdie c) c.k ≠ 5)) ∧
    (∃ (s : State), 2 ≤ s.get (atDie .e0) .DBG_SESSION_LEVEL) ∧
    (∃ (s : State), s.get (atDie .e0) .DBG_SESSION_LEVEL < 2) :=
  ⟨⟨⟨.f5, 7⟩, { R [((atDie .e0), .DBG_SESSION_LEVEL, 2), (atUnit (cdie (⟨.f5, 7⟩ : CoreId)) (⟨.f5, 7⟩ : CoreId).k, .HMR_CORE_STAT_STATE, 1)] with cores := [(coreKey (cdie (⟨.f5, 7⟩ : CoreId)) (⟨.f5, 7⟩ : CoreId).k, { Core.reset with halt := none })] }, by decide +kernel⟩,
   ⟨⟨.f5, 7⟩, State.reset, by decide +kernel⟩,
   ⟨⟨.f5, 7⟩, 3, R [(⟨.f5, 7, 3, 0⟩, .HMR_BKPT_EN, 1), (⟨.f5, 7, 3, 0⟩, .HMR_BKPT_PC, 0), (atUnit .f5 7, .HMR_CORE_STAT_STATE, 1)], by decide +kernel⟩,
   ⟨⟨.f5, 7⟩, 3, R [(⟨.f5, 7, 3, 0⟩, .HMR_BKPT_EN, 1), (⟨.f5, 7, 3, 0⟩, .HMR_BKPT_PC, 1)], by decide +kernel⟩,
   ⟨⟨.f5, 7⟩, 0, { R [(atUnit (cdie (⟨.f5, 7⟩ : CoreId)) (⟨.f5, 7⟩ : CoreId).k, .HMR_CORE_STAT_STATE, 1)] with cores := [(coreKey (cdie (⟨.f5, 7⟩ : CoreId)) (⟨.f5, 7⟩ : CoreId).k, { Core.reset with halt := some 0, br := none })] }, by decide +kernel⟩,
   ⟨⟨.f5, 7⟩, 0, { R [(atUnit (cdie (⟨.f5, 7⟩ : CoreId)) (⟨.f5, 7⟩ : CoreId).k, .HMR_CORE_STAT_STATE, 1)] with cores := [(coreKey (cdie (⟨.f5, 7⟩ : CoreId)) (⟨.f5, 7⟩ : CoreId).k, { Core.reset with halt := some 0, br := none, stall := .load })] }, by decide +kernel⟩,
   ⟨⟨.f5, 7⟩, { State.reset with cores := [(coreKey (cdie (⟨.f5, 7⟩ : CoreId)) (⟨.f5, 7⟩ : CoreId).k, { Core.reset with halt := none })] }, by decide +kernel⟩,
   ⟨⟨.f5, 7⟩, { R [((atDie .e0), .DBG_SESSION_LEVEL, 2), (atUnit (cdie (⟨.f5, 7⟩ : CoreId)) (⟨.f5, 7⟩ : CoreId).k, .HMR_CORE_STAT_STATE, 5)] with cores := [(coreKey (cdie (⟨.f5, 7⟩ : CoreId)) (⟨.f5, 7⟩ : CoreId).k, { Core.reset with run := none, heldStores := [], stall := .none })] }, by decide +kernel⟩,
   ⟨⟨.f5, 7⟩, { R [((atDie .e0), .DBG_SESSION_LEVEL, 2), (atUnit (cdie (⟨.f5, 7⟩ : CoreId)) (⟨.f5, 7⟩ : CoreId).k, .HMR_CORE_STAT_STATE, 5)] with cores := [(coreKey (cdie (⟨.f5, 7⟩ : CoreId)) (⟨.f5, 7⟩ : CoreId).k, { Core.reset with run := none, heldStores := [], stall := .sync, stores := 0, under := 3, rewait := false })] }, by decide +kernel⟩,
   ⟨⟨.f5, 7⟩, true, ⟨[0x800000, 0, 0, 0, 0, 1], 1, 0, 0, false, true, false⟩, { R [(atDie .e0, .DBG_SESSION_LEVEL, 2), (atUnit .f5 7, .HMR_CORE_STAT_STATE, 5)] with cores := [(coreKey .f5 7, { Core.reset with run := some ⟨[0x800000, 0, 0, 0, 0, 1], 1, 0, 0, false, true, false⟩ })] }, (((({ R [(atDie .e0, .DBG_SESSION_LEVEL, 2), (atUnit .f5 7, .HMR_CORE_STAT_STATE, 5)] with cores := [(coreKey .f5 7, { Core.reset with run := some ⟨[0x800000, 0, 0, 0, 0, 1], 1, 0, 0, false, true, false⟩ })] } : State).setCstate (cdie ⟨.f5, 7⟩) 7 (({ R [(atDie .e0, .DBG_SESSION_LEVEL, 2), (atUnit .f5 7, .HMR_CORE_STAT_STATE, 5)] with cores := [(coreKey .f5 7, { Core.reset with run := some ⟨[0x800000, 0, 0, 0, 0, 1], 1, 0, 0, false, true, false⟩ })] } : State).at_ ⟨.f5, 7⟩).under).put (atUnit (cdie ⟨.f5, 7⟩) 7) .HMR_DBG_STAT_HALTED 0).onCore (cdie ⟨.f5, 7⟩) 7 (fun q => { q.again.foldl (fun q e => q.commitOne e.1 e.2) q with stepping := true, again := [] })), by decide +kernel, by decide +kernel, by decide +kernel, rfl⟩,
   ⟨⟨.f5, 7⟩, State.reset, by decide +kernel⟩,
   ⟨⟨.f5, 7⟩, R [((atDie .e0), .DBG_SESSION_LEVEL, 2), (atUnit (cdie (⟨.f5, 7⟩ : CoreId)) (⟨.f5, 7⟩ : CoreId).k, .HMR_CORE_STAT_STATE, 5), (atUnit .f5 7, .HMR_DBG_REG_IDX_CODE, 15)], by decide +kernel⟩,
   ⟨⟨.f5, 7⟩, R [((atDie .e0), .DBG_SESSION_LEVEL, 2), (atUnit (cdie (⟨.f5, 7⟩ : CoreId)) (⟨.f5, 7⟩ : CoreId).k, .HMR_CORE_STAT_STATE, 5), ((atUnit (cdie (⟨.f5, 7⟩ : CoreId)) (⟨.f5, 7⟩ : CoreId).k), .HMR_DBG_REG_IDX_CODE, 0x48)], by decide +kernel⟩,
   ⟨⟨.f5, 7⟩, R [((atDie .e0), .DBG_SESSION_LEVEL, 2), (atUnit (cdie (⟨.f5, 7⟩ : CoreId)) (⟨.f5, 7⟩ : CoreId).k, .HMR_CORE_STAT_STATE, 5)], by decide +kernel⟩,
   ⟨⟨.f5, 7⟩, State.reset, by decide +kernel⟩,
   ⟨R [((atDie .e0), .DBG_SESSION_LEVEL, 2)], by decide +kernel⟩,
   ⟨State.reset, by decide +kernel⟩⟩

theorem witness_DebugSessionCommandsRun :
    (∃ (s : State), s.flag (atDie .e0) .DBG_SESSION_LOCKOUT = false) ∧
    (∃ (s : State), s.flag (atDie .e0) .DBG_SESSION_LOCKOUT = true) ∧
    (∃ (level : Nat) (response : BitVec 256) (nonce : List Nat) (s : State), 1 ≤ level ∧ level ≤ 3 ∧ s.dbg.nonce = some nonce ∧ s.keyOf
    level ≠ 0 ∧ hmacSha256 (bytesLE (s.keyOf level).toNat 32) (voxdarMessage nonce level) = bytesLE response.toNat 32 ∧ (s.get (atDie
    .e0) .DBG_SESSION_LEVEL < 2 ∨ 2 ≤ level)) ∧
    (∃ (response : BitVec 256) (nonce : List Nat) (s : State), s.dbg.nonce = some nonce ∧ s.keyOf 1 ≠ 0 ∧ hmacSha256 (bytesLE (s.keyOf
    1).toNat 32) (voxdarMessage nonce 1) = bytesLE response.toNat 32 ∧ 2 ≤ s.get (atDie .e0) .DBG_SESSION_LEVEL) ∧
    (∃ (level : BitVec 8) (response : BitVec 256) (s : State), (s.dbg.nonce = none ∨ level = 0 ∨ 4 ≤ level.toNat ∨ s.keyOf level.toNat
    = 0 ∨ (∃ nonce, s.dbg.nonce = some nonce ∧ hmacSha256 (bytesLE (s.keyOf level.toNat).toNat 32) (voxdarMessage nonce level.toNat) ≠
    bytesLE response.toNat 32))) ∧
    (∃ (slot : Nat) (key : BitVec 256) (s : State), 1 ≤ slot ∧ slot ≤ 3 ∧ (s.keyOf 3 = 0 ∨ s.get (atDie .e0) .DBG_SESSION_LEVEL = 3) ∧
    s.keyOf slot = 0 ∧ key ≠ 0) ∧
    (∃ (slot : BitVec 8) (key : BitVec 256) (s : State), (slot = 0 ∨ 4 ≤ slot.toNat ∨ s.keyOf slot.toNat ≠ 0 ∨ key = 0 ∨ (s.keyOf 3 ≠ 0
    ∧ s.get (atDie .e0) .DBG_SESSION_LEVEL ≠ 3))) ∧
    (∃ (s : State), s.get (atDie .e0) .DBG_SESSION_LEVEL ≠ 0) ∧
    (∃ (s : State), s.get (atDie .e0) .DBG_SESSION_LEVEL = 0) :=
  ⟨⟨State.reset, by decide +kernel⟩,
   ⟨R [((atDie .e0), .DBG_SESSION_LOCKOUT, 1)], by decide +kernel⟩,
   ((hmacSha256_word (bytesLE 1 32) (voxdarMessage (List.replicate 16 0) 3)).elim fun r hr =>
    ⟨3, r, (List.replicate 16 0), withNonce 3, by decide +kernel, by decide +kernel, rfl, by decide +kernel, hr, Or.inl (by decide +kernel)⟩),
   ((hmacSha256_word (bytesLE 1 32) (voxdarMessage (List.replicate 16 0) 1)).elim fun r hr =>
    ⟨r, (List.replicate 16 0), (withNonce 1).put (atDie .e0) .DBG_SESSION_LEVEL 2, rfl, by decide +kernel, hr, by decide +kernel⟩),
   ⟨1, 1, State.reset, Or.inl rfl⟩,
   ⟨3, 1, { State.reset with dbg := { State.reset.dbg with keys := [(3, 0)] } }, by decide +kernel⟩,
   ⟨0, 1, State.reset, by decide +kernel⟩,
   ⟨R [((atDie .e0), .DBG_SESSION_LEVEL, 1)], by decide +kernel⟩,
   ⟨State.reset, by decide +kernel⟩⟩

theorem witness_DebugAccessCommandsRun :
    (∃ (s : State), s.dbg.pending = true) ∧
    (∃ (write : Bool) (addr : BitVec 48) (s : State), s.dbg.pending = false ∧ s.get (atDie .e0) .DBG_SESSION_LEVEL < s.accessLevel
    write addr.toNat) ∧
    (∃ (write : Bool) (addr : BitVec 48) (s : State), s.dbg.pending = false ∧ s.accessLevel write addr.toNat ≤ s.get (atDie .e0)
    .DBG_SESSION_LEVEL) :=
  ⟨⟨{ State.reset with dbg := { State.reset.dbg with pending := true } }, by decide +kernel⟩,
   ⟨true, 1, { State.reset with dbg := { State.reset.dbg with pending := false } }, by decide +kernel⟩,
   ⟨true, 1, { R [(atDie .e0, .DBG_SESSION_LEVEL, 3)] with dbg := { State.reset.dbg with pending := false } }, by decide +kernel⟩⟩

theorem witness_LaneCommandsRun :
    (∃ (die : PDie) (l : Fin 48) (found : Bool) (s : State), s.laneOwn die.die l = true ∧ s.laneSt die.die l ≠ 0 ∧ s.laneSt die.die l ≠
    1 ∧ s.laneSt die.die l ≠ 11 ∧ ((detects (s.laneSt die.die l) = true ∧ found = true) ∨ s.flag (atUnit die.die l)
    .LAN_LANE_STAT_SIGDET = true) ∧ s.flag (atUnit die.die l) .LAN_LANE_STAT_PRESENT = true) ∧
    (∃ (die : PDie) (l : Fin 48) (found : Bool) (s : State), s.laneOwn die.die l = true ∧ s.laneSt die.die l ≠ 0 ∧ s.laneSt die.die l ≠
    1 ∧ s.laneSt die.die l ≠ 11 ∧ ((detects (s.laneSt die.die l) = true ∧ found = true) ∨ s.flag (atUnit die.die l)
    .LAN_LANE_STAT_SIGDET = true) ∧ s.flag (atUnit die.die l) .LAN_LANE_STAT_PRESENT = false) ∧
    (∃ (die : PDie) (l : Fin 48) (s : State), s.laneOwn die.die l = true ∧ s.laneSt die.die l ≠ 0 ∧ s.laneSt die.die l ≠ 1 ∧ s.laneSt
    die.die l ≠ 11 ∧ s.flag (atUnit die.die l) .LAN_LANE_STAT_SIGDET = false ∧ s.flag (atUnit die.die l) .LAN_LANE_STAT_PRESENT = true) ∧
    (∃ (die : PDie) (l : Fin 48) (s : State), (s.laneOwn die.die l = false ∨ s.laneSt die.die l = 0 ∨ s.laneSt die.die l = 1 ∨ s.laneSt
    die.die l = 11)) ∧
    (∃ (die : PDie) (l : Fin 48) (s : State), s.laneOwn die.die l = true) ∧
    (∃ (die : PDie) (l : Fin 48) (s : State), s.laneSt die.die l = 3 ∧ s.flag (atUnit die.die l) .LAN_LANE_STAT_SIGDET = true ∧ s.get
    (atUnit die.die l) .LAN_LANE_STAT_PROTO ≠ 2 ∧ ((s.lane die.die l).heard = true ∨ (s.lane die.die l).silent = false)) ∧
    (∃ (die : PDie) (l : Fin 48) (s : State), (s.laneSt die.die l ≠ 3 ∨ s.flag (atUnit die.die l) .LAN_LANE_STAT_SIGDET = false ∨ s.get
    (atUnit die.die l) .LAN_LANE_STAT_PROTO = 2 ∨ ((s.lane die.die l).heard = false ∧ (s.lane die.die l).silent = true))) ∧
    (∃ (die : PDie) (l : Fin 48) (s : State), (s.laneSt die.die l = 1 ∨ s.laneSt die.die l = 10 ∨ s.laneSt die.die l = 11 ∨ (s.laneSt
    die.die l = 0 ∧ s.get (atUnit die.die l) .LAN_LANE_CFG_MODE = 3))) ∧
    (∃ (die : PDie) (l : Fin 48) (s : State), s.laneSt die.die l = 0 ∧ s.get (atUnit die.die l) .LAN_LANE_CFG_MODE ≠ 3) ∧
    (∃ (die : PDie) (l : Fin 48) (s : State), s.laneSt die.die l ≠ 0 ∧ s.laneSt die.die l ≠ 1 ∧ s.laneSt die.die l ≠ 10 ∧ s.laneSt
    die.die l ≠ 11) ∧
    (∃ (die : PDie) (l : Fin 48) (s : State), s.laneSt die.die l = 5) ∧
    (∃ (die : PDie) (l : Fin 48) (s : State), s.laneSt die.die l = 7) ∧
    (∃ (die : PDie) (l : Fin 48) (s : State), s.laneSt die.die l = 10 ∧ s.flag (atDie .e0) .CLK_STATUS_COAST = false ∧ s.laneRails
    die.die = true) ∧
    (∃ (die : PDie) (l : Fin 48) (s : State), s.laneSt die.die l = 8) ∧
    (∃ (die : PDie) (l : Fin 48) (s : State), s.laneSt die.die l = 11) ∧
    (∃ (die : PDie) (l : Fin 48) (s : State), s.surveys die.die l [3, 4] = true ∧ s.portLanes die.die l = [l.val]) ∧
    (∃ (die : PDie) (l : Fin 48) (s : State), s.surveys die.die l [3, 4] = false) ∧
    (∃ (die : PDie) (l : Fin 48) (n : BitVec 16) (s : State), s.laneOwn die.die l = true ∧ s.laneSt die.die l = 7 ∧ 1024 ≤ n.toNat ∧
    s.storedGood die.die l = true) ∧
    (∃ (die : PDie) (l : Fin 48) (n : BitVec 16) (s : State), s.laneOwn die.die l = true ∧ s.laneSt die.die l = 7 ∧ 1024 ≤ n.toNat ∧
    s.storedGood die.die l = false) ∧
    (∃ (die : PDie) (l : Fin 48) (n : BitVec 16) (s : State), (s.laneSt die.die l ≠ 7 ∨ n.toNat < 1024)) ∧
    (∃ (die : PDie) (l : Fin 48) (s : State), s.laneOwn die.die l = true ∧ s.laneSt die.die l = 5 ∧ s.flag (atUnit die.die l)
    .LAN_LANE_STAT_PRESENT = true) ∧
    (∃ (die : PDie) (l : Fin 48) (s : State), s.laneOwn die.die l = true ∧ s.laneSt die.die l = 8) ∧
    (∃ (die : PDie) (l : Fin 48) (s : State), s.laneOwn die.die l = true ∧ s.laneSt die.die l = 6 ∧ s.portLanes die.die l = [l.val] ∧
    s.get (atUnit die.die l) .LAN_LANE_CFG_MODE = 0) ∧
    (∃ (die : PDie) (l : Fin 48) (s : State), s.laneSt die.die l ≠ 6) :=
  ⟨⟨.e1, 47, true, R [((atUnit (.e1 : PDie).die (47 : Fin 48)), .LAN_LANE_STAT_PRESENT, 1), (atUnit (.e1 : PDie).die (47 : Fin 48), .LAN_LANE_STAT_STATE, 2)], by decide +kernel⟩,
   ⟨.e1, 47, true, R [(atUnit (.e1 : PDie).die (47 : Fin 48), .LAN_LANE_STAT_STATE, 2)], by decide +kernel⟩,
   ⟨.e1, 47, R [((atUnit (.e1 : PDie).die (47 : Fin 48)), .LAN_LANE_STAT_PRESENT, 1), (atUnit (.e1 : PDie).die (47 : Fin 48), .LAN_LANE_STAT_STATE, 2)], by decide +kernel⟩,
   ⟨.e1, 47, R [(atUnit .e1 11, .LAN_QUAD_CFG_ROLE, 1)], by decide +kernel⟩,
   ⟨.e1, 47, State.reset, by decide +kernel⟩,
   ⟨.e1, 47, { R [(atUnit (.e1 : PDie).die (47 : Fin 48), .LAN_LANE_STAT_STATE, 3), ((atUnit (.e1 : PDie).die (47 : Fin 48)), .LAN_LANE_STAT_SIGDET, 1)] with lanes := [((.e1 : PDie).die.idx * 48 + (47 : Fin 48), { Lane.idle with heard := true })] }, by decide +kernel⟩,
   ⟨.e1, 47, State.reset, by decide +kernel⟩,
   ⟨.e1, 47, R [(atUnit (.e1 : PDie).die (47 : Fin 48), .LAN_LANE_STAT_STATE, 1)], by decide +kernel⟩,
   ⟨.e1, 47, R [(atUnit (.e1 : PDie).die (47 : Fin 48), .LAN_LANE_STAT_STATE, 0)], by decide +kernel⟩,
   ⟨.e1, 47, R [(atUnit (.e1 : PDie).die (47 : Fin 48), .LAN_LANE_STAT_STATE, 2)], by decide +kernel⟩,
   ⟨.e1, 47, R [(atUnit (.e1 : PDie).die (47 : Fin 48), .LAN_LANE_STAT_STATE, 5)], by decide +kernel⟩,
   ⟨.e1, 47, R [(atUnit (.e1 : PDie).die (47 : Fin 48), .LAN_LANE_STAT_STATE, 7)], by decide +kernel⟩,
   ⟨.e1, 47, R [(atUnit (.e1 : PDie).die (47 : Fin 48), .LAN_LANE_STAT_STATE, 10), (atSel .e0 13, .PWR_RAIL_STAT_GOOD, 1), (atSel .e0 14, .PWR_RAIL_STAT_GOOD, 1)], by decide +kernel⟩,
   ⟨.e1, 47, R [(atUnit (.e1 : PDie).die (47 : Fin 48), .LAN_LANE_STAT_STATE, 8)], by decide +kernel⟩,
   ⟨.e1, 47, R [(atUnit (.e1 : PDie).die (47 : Fin 48), .LAN_LANE_STAT_STATE, 11), (atUnit .e1 11, .LAN_QUAD_CFG_ROLE, 1)], by decide +kernel⟩,
   ⟨.e1, 47, R [(atUnit .e1 11, .LAN_QUAD_CFG_ROLE, 3), (atUnit .e1 47, .LAN_LANE_STAT_STATE, 4)], by decide +kernel⟩,
   ⟨.e1, 47, State.reset, by decide +kernel⟩,
   ⟨.e1, 47, 1024, { R [(atUnit (.e1 : PDie).die (47 : Fin 48), .LAN_LANE_STAT_STATE, 7)] with lanes := [((.e1 : PDie).die.idx * 48 + (47 : Fin 48), { Lane.idle with stored := some (0, 0) })] }, by decide +kernel⟩,
   ⟨.e1, 47, 1024, R [(atUnit (.e1 : PDie).die (47 : Fin 48), .LAN_LANE_STAT_STATE, 7)], by decide +kernel⟩,
   ⟨.e1, 47, 1023, R [(atUnit .e1 47, .LAN_LANE_STAT_STATE, 7)], by decide +kernel⟩,
   ⟨.e1, 47, R [(atUnit (.e1 : PDie).die (47 : Fin 48), .LAN_LANE_STAT_STATE, 5), ((atUnit (.e1 : PDie).die (47 : Fin 48)), .LAN_LANE_STAT_PRESENT, 1)], by decide +kernel⟩,
   ⟨.e1, 47, R [(atUnit (.e1 : PDie).die (47 : Fin 48), .LAN_LANE_STAT_STATE, 8)], by decide +kernel⟩,
   ⟨.e1, 47, R [(atUnit (.e1 : PDie).die (47 : Fin 48), .LAN_LANE_STAT_STATE, 6), (atUnit .e1 11, .LAN_QUAD_CFG_ROLE, 3)], by decide +kernel⟩,
   ⟨.e1, 47, State.reset, by decide +kernel⟩⟩

theorem witness_LaneSurveyCommandsRun :
    (∃ (die : PDie) (l : Fin 48) (abort : Bool) (s : State), s.surveys die.die l [3, 4, 9] = true ∧ (s.lane die.die l).send ≠ 0 ∧
    (s.lane die.die l).send ≠ 3 ∧ ((s.lane die.die l).send = 1 → (s.lane die.die l).caps ≠ 3 ∧ (s.lane die.die l).capOut = false) ∧
    (abort = false ∨ s.laneSt die.die l = 9)) ∧
    (∃ (die : PDie) (l : Fin 48) (r : Nat) (s : State), s.surveys die.die l [3, 4] = true ∧ (s.lane die.die l).send = 1 ∧ (s.lane
    die.die l).caps = 3 ∧ (s.lane die.die l).capIn = true ∧ r ≠ 0 ∧ r = stepRate (s.lane die.die l).allow (s.get (atUnit die.die l)
    .LAN_LANE_PARTNER_PALLOW) (s.lane die.die l).failed) ∧
    (∃ (die : PDie) (l : Fin 48) (s : State), s.surveys die.die l [3, 4] = true ∧ (s.lane die.die l).send ≠ 3 ∧ ((s.lane die.die
    l).send = 1 → (s.lane die.die l).caps ≠ 3 ∧ (s.lane die.die l).capOut = false) ∧ s.portLanes die.die l = [l.val]) ∧
    (∃ (die : PDie) (l : Fin 48) (abort : Bool) (s : State), s.surveys die.die l [3, 4, 9] = true ∧ (s.lane die.die l).send = 3 ∧
    (s.lane die.die l).doneIn = false ∧ (abort = false ∨ s.laneSt die.die l = 9)) ∧
    (∃ (die : PDie) (l : Fin 48) (s : State), s.surveys die.die l [3, 4, 9] = true ∧ (s.lane die.die l).send = 3 ∧ (s.lane die.die
    l).doneIn = true ∧ (s.lane die.die l).okOut = true ∧ (s.lane die.die l).okIn = true ∧ s.portLanes die.die l = [l.val]) ∧
    (∃ (die : PDie) (l : Fin 48) (abort : Bool) (s : State), (s.surveys die.die l [3, 4, 9] = false ∨ ((s.lane die.die l).send = 0 ∧
    (abort = false ∨ s.laneSt die.die l = 9)))) ∧
    (∃ (die : PDie) (l : Fin 48) (frame : BitVec 224) (s : State), s.surveys die.die l [3] = true ∧ surveyValid (bytesLE frame.toNat
    28) 1 = true ∧ (bytesLE frame.toNat 28).getD 8 0 = (s.portLanes die.die l).length ∧ (s.lane die.die l).send = 1 ∧ (s.lane die.die
    l).caps < 3 ∧ (s.lane die.die l).capOut = false) ∧
    (∃ (die : PDie) (l : Fin 48) (frame : BitVec 224) (r : Nat) (s : State), s.surveys die.die l [3] = true ∧ surveyValid (bytesLE
    frame.toNat 28) 1 = true ∧ (bytesLE frame.toNat 28).getD 8 0 = (s.portLanes die.die l).length ∧ (s.lane die.die l).send = 1 ∧
    (s.lane die.die l).capOut = true ∧ bitOf ((bytesLE frame.toNat 28).getD 3 0) 0 = true ∧ r ≠ 0 ∧ r = stepRate (s.lane die.die
    l).allow (fieldLE (bytesLE frame.toNat 28) 4 2 % 2 ^ 15) (s.lane die.die l).failed) ∧
    (∃ (die : PDie) (l : Fin 48) (frame : BitVec 224) (s : State), s.surveys die.die l [3] = true ∧ surveyValid (bytesLE frame.toNat
    28) 1 = true ∧ (bytesLE frame.toNat 28).getD 8 0 ≠ (s.portLanes die.die l).length ∧ s.portLanes die.die l = [l.val]) ∧
    (∃ (die : PDie) (l : Fin 48) (frame : BitVec 224) (s : State), s.surveys die.die l [3] = true ∧ surveyValid (bytesLE frame.toNat
    28) 1 = false ∧ (s.lane die.die l).send = 1) ∧
    (∃ (die : PDie) (l : Fin 48) (frame : BitVec 224) (s : State), s.surveys die.die l [3] = true ∧ surveyValid (bytesLE frame.toNat
    28) 2 = true ∧ (s.lane die.die l).send = 2 ∧ (bytesLE frame.toNat 28).getD 6 0 = (s.lane die.die l).rate ∧ (bytesLE frame.toNat
    28).getD 9 0 = (s.lane die.die l).step % 256) ∧
    (∃ (die : PDie) (l : Fin 48) (s : State), s.surveys die.die l [3] = true ∧ s.portLanes die.die l = [l.val] ∧ (s.lane die.die
    l).send = 2 ∧ (s.lane die.die l).reqOut = true ∧ (s.lane die.die l).reqIn = true ∧ (s.lane die.die l).rate < 16) ∧
    (∃ (die : PDie) (l : Fin 48) (s : State), ((s.lane die.die l).reqOut = false ∨ (s.lane die.die l).reqIn = false)) ∧
    (∃ (die : PDie) (l : Fin 48) (s : State), s.laneSt die.die l = 4 ∧ s.get (atUnit die.die l) .LAN_LANE_STAT_PROTO ≠ 2) ∧
    (∃ (die : PDie) (l : Fin 48) (frame : BitVec 224) (abort : Bool) (s : State), s.surveys die.die l [3, 4] = true ∧ surveyValid
    (bytesLE frame.toNat 28) 3 = true ∧ (bytesLE frame.toNat 28).getD 6 0 = (s.lane die.die l).rate ∧ (bytesLE frame.toNat 28).getD 9 0
    = (s.lane die.die l).step % 256 ∧ (s.lane die.die l).doneOut = false ∧ abort = false) ∧
    (∃ (die : PDie) (l : Fin 48) (frame : BitVec 224) (s : State), s.surveys die.die l [3, 4] = true ∧ surveyValid (bytesLE frame.toNat
    28) 3 = true ∧ (bytesLE frame.toNat 28).getD 6 0 = (s.lane die.die l).rate ∧ (bytesLE frame.toNat 28).getD 9 0 = (s.lane die.die
    l).step % 256 ∧ (s.lane die.die l).doneOut = false ∧ s.portLanes die.die l = [l.val]) ∧
    (∃ (die : PDie) (l : Fin 48) (frame : BitVec 224) (s : State), s.surveys die.die l [3, 4] = true ∧ surveyValid (bytesLE frame.toNat
    28) 3 = true ∧ (bytesLE frame.toNat 28).getD 6 0 = (s.lane die.die l).rate ∧ (bytesLE frame.toNat 28).getD 9 0 = (s.lane die.die
    l).step % 256 ∧ (s.lane die.die l).doneOut = true ∧ (s.lane die.die l).okOut = true ∧ bitOf ((bytesLE frame.toNat 28).getD 3 0) 1 =
    true ∧ s.portLanes die.die l = [l.val]) ∧
    (∃ (die : PDie) (l : Fin 48) (frame : BitVec 224) (s : State), s.surveys die.die l [3, 4] = true ∧ surveyValid (bytesLE frame.toNat
    28) 4 = true ∧ s.portLanes die.die l = [l.val]) ∧
    (∃ (die : PDie) (l : Fin 48) (s : State), s.surveys die.die l [3, 4] = false ∧ s.surveys die.die l [3] = false) ∧
    (∃ (die : PDie) (l : Fin 48) (s : State), s.laneOwn die.die l = true ∧ s.laneSt die.die l = 4 ∧ s.portLanes die.die l = [l.val] ∧
    s.get (atUnit die.die l) .LAN_LANE_STAT_PROTO < 2) ∧
    (∃ (die : PDie) (l : Fin 48) (s : State), s.surveys die.die l [3, 4] = true ∧ s.portLanes die.die l = [l.val] ∧ (s.lane die.die
    l).doneOut = true ∧ (s.lane die.die l).doneIn = false) ∧
    (∃ (die : PDie) (l : Fin 48) (s : State), ((s.lane die.die l).doneOut = false ∨ (s.lane die.die l).doneIn = true)) ∧
    (∃ (die : PDie) (l : Fin 48) (s : State), s.laneOwn die.die l = true ∧ s.leads die.die l = true ∧ s.laneSt die.die l = 3 ∧ s.get
    (atUnit die.die l) .LAN_LANE_STAT_PROTO = 1) ∧
    (∃ (die : PDie) (l : Fin 48) (s : State), s.laneOwn die.die l = true ∧ s.leads die.die l = true ∧ s.laneSt die.die l = 3 ∧ s.get
    (atUnit die.die l) .LAN_LANE_STAT_PROTO = 1 ∧ s.portLanes die.die l = [l.val] ∧ bitOf (s.lane die.die l).allow 13 = true) ∧
    (∃ (die : PDie) (l : Fin 48) (s : State), s.laneOwn die.die l = true ∧ s.portLanes die.die l = [l.val] ∧ s.get (atUnit die.die l)
    .LAN_LANE_STAT_PROTO = 1 ∧ (s.laneSt die.die l = 3 ∨ s.laneSt die.die l = 4)) ∧
    (∃ (die : PDie) (l : Fin 48) (s : State), s.laneRole die.die l = 0 ∧ s.portLanes die.die l = [l.val] ∧ s.get (atUnit die.die l)
    .LAN_LANE_STAT_PROTO = 1 ∧ s.laneSt die.die l = 4) ∧
    (∃ (die : PDie) (l : Fin 48) (s : State), s.laneRole die.die l = 0 ∧ s.leads die.die l = true ∧ (∀ m ∈ s.portLanes die.die l,
    s.laneSt die.die m = 5)) ∧
    (∃ (die : PDie) (l : Fin 48) (s : State), (s.laneRole die.die l ≠ 0 ∨ s.leads die.die l = false ∨ (s.laneSt die.die l ≠ 5 ∧ ¬(s.get
    (atUnit die.die l) .LAN_LANE_STAT_PROTO = 1 ∧ s.laneSt die.die l = 4)))) ∧
    (∃ (die : PDie) (l : Fin 48) (s : State), s.get (atUnit die.die l) .LAN_LANE_STAT_PROTO ≠ 1) ∧
    (∃ (die : PDie) (l : Fin 48) (w : List (BitVec 64)) (h : List (BitVec 128)) (e : Nat × Nat) (s : State), e = eyeOf (s.pam4 die.die
    l) w h ∧ s.laneOwn die.die l = true ∧ s.laneSt die.die l = 4 ∧ s.get (atUnit die.die l) .LAN_LANE_STAT_PROTO = 2 ∧ (s.lane die.die
    l).prev = none ∧ s.portLanes die.die l = [l.val]) ∧
    (∃ (die : PDie) (l : Fin 48) (s : State), s.laneOwn die.die l = true ∧ s.laneSt die.die l = 4 ∧ s.get (atUnit die.die l)
    .LAN_LANE_STAT_PROTO = 2) ∧
    (∃ (die : PDie) (l : Fin 48) (w : List (BitVec 64)) (h : List (BitVec 128)) (e : Nat × Nat) (s : State), e = eyeOf (s.pam4 die.die
    l) w h ∧ s.laneOwn die.die l = true ∧ s.laneSt die.die l = 4 ∧ s.get (atUnit die.die l) .LAN_LANE_STAT_PROTO = 0 ∧ s.portLanes
    die.die l = [l.val]) ∧
    (∃ (die : PDie) (l : Fin 48) (w : List (BitVec 64)) (h : List (BitVec 128)) (e : Nat × Nat) (s : State), e = eyeOf (s.pam4 die.die
    l) w h ∧ s.laneOwn die.die l = true ∧ s.laneSt die.die l = 6 ∧ s.portLanes die.die l = [l.val] ∧ s.get (atDie die.die)
    .LAN_FOM_CFG_MIN ≤ fomOf e.1 e.2) ∧
    (∃ (die : PDie) (l : Fin 48) (s : State), (s.laneOwn die.die l = false ∨ s.laneSt die.die l = 5)) :=
  ⟨⟨.e1, 47, true, { R [(atUnit .e1 11, .LAN_QUAD_CFG_ROLE, 3), (atUnit .e1 47, .LAN_LANE_STAT_STATE, 9)] with lanes := [((.e1 : PDie).die.idx * 48 + (47 : Fin 48), { Lane.idle with send := 4, capOut := false })] }, by decide +kernel⟩,
   ⟨.e1, 47, 13, { R [(atUnit .e1 11, .LAN_QUAD_CFG_ROLE, 3), (atUnit .e1 47, .LAN_LANE_STAT_STATE, 3), (atUnit .e1 47, .LAN_LANE_PARTNER_PALLOW, 2 ^ 13)] with lanes := [(1 * 48 + 47, { Lane.idle with send := 1, caps := 3, capIn := true, allow := 2 ^ 13 })] }, by decide +kernel⟩,
   ⟨.e1, 47, { R [(atUnit .e1 11, .LAN_QUAD_CFG_ROLE, 3), (atUnit .e1 47, .LAN_LANE_STAT_STATE, 3)] with lanes := [(1 * 48 + 47, { Lane.idle with send := 2 })] }, by decide +kernel⟩,
   ⟨.e1, 47, false, { R [(atUnit .e1 11, .LAN_QUAD_CFG_ROLE, 3), (atUnit .e1 47, .LAN_LANE_STAT_STATE, 3)] with lanes := [(1 * 48 + 47, { Lane.idle with send := 3 })] }, by decide +kernel⟩,
   ⟨.e1, 47, { R [(atUnit .e1 11, .LAN_QUAD_CFG_ROLE, 3), (atUnit .e1 47, .LAN_LANE_STAT_STATE, 4)] with lanes := [(1 * 48 + 47, { Lane.idle with send := 3, doneIn := true, okOut := true, okIn := true })] }, by decide +kernel⟩,
   ⟨.e1, 47, true, State.reset, by decide +kernel⟩,
   ⟨.e1, 47, surveyOf ([1, 0, 0, 0, 0, 0, 0, 0, 1, 0, 0, 0, 0, 0, 0, 0, 0, 0, 0, 0, 0, 0, 0, 0]), { R [(atUnit .e1 11, .LAN_QUAD_CFG_ROLE, 3), (atUnit .e1 47, .LAN_LANE_STAT_STATE, 3)] with lanes := [((.e1 : PDie).die.idx * 48 + (47 : Fin 48), { Lane.idle with send := 1, capOut := false, caps := 1 })] }, by decide +kernel⟩,
   ⟨.e1, 47, surveyOf ([1, 0, 0, 1, 0, 32, 0, 0, 1, 0, 0, 0, 0, 0, 0, 0, 0, 0, 0, 0, 0, 0, 0, 0]), 13, { R [(atUnit .e1 11, .LAN_QUAD_CFG_ROLE, 3), (atUnit .e1 47, .LAN_LANE_STAT_STATE, 3)] with lanes := [(1 * 48 + 47, { Lane.idle with send := 1, capOut := true, allow := 2 ^ 13 })] }, by decide +kernel⟩,
   ⟨.e1, 47, surveyOf ([1, 0, 0, 0, 0, 0, 0, 0, 0, 0, 0, 0, 0, 0, 0, 0, 0, 0, 0, 0, 0, 0, 0, 0]), R [(atUnit .e1 11, .LAN_QUAD_CFG_ROLE, 3), (atUnit .e1 47, .LAN_LANE_STAT_STATE, 3)], by decide +kernel⟩,
   ⟨.e1, 47, 1, { R [(atUnit .e1 11, .LAN_QUAD_CFG_ROLE, 3), (atUnit .e1 47, .LAN_LANE_STAT_STATE, 3)] with lanes := [((.e1 : PDie).die.idx * 48 + (47 : Fin 48), { Lane.idle with send := 1 })] }, by decide +kernel⟩,
   ⟨.e1, 47, surveyOf ([2, 0, 0, 0, 0, 0, 0, 0, 0, 1, 0, 0, 0, 0, 0, 0, 0, 0, 0, 0, 0, 0, 0, 0]), { R [(atUnit .e1 11, .LAN_QUAD_CFG_ROLE, 3), (atUnit .e1 47, .LAN_LANE_STAT_STATE, 3)] with lanes := [((.e1 : PDie).die.idx * 48 + (47 : Fin 48), { Lane.idle with send := 2 })] }, by decide +kernel⟩,
   ⟨.e1, 47, { R [(atUnit .e1 11, .LAN_QUAD_CFG_ROLE, 3), (atUnit .e1 47, .LAN_LANE_STAT_STATE, 3)] with lanes := [((.e1 : PDie).die.idx * 48 + (47 : Fin 48), { Lane.idle with send := 2, reqOut := true, reqIn := true, rate := 15 })] }, by decide +kernel⟩,
   ⟨.e1, 47, { State.reset with lanes := [((.e1 : PDie).die.idx * 48 + (47 : Fin 48), { Lane.idle with reqOut := false })] }, by decide +kernel⟩,
   ⟨.e1, 47, R [(atUnit (.e1 : PDie).die (47 : Fin 48), .LAN_LANE_STAT_STATE, 4)], by decide +kernel⟩,
   ⟨.e1, 47, surveyOf ([3, 0, 0, 0, 0, 0, 0, 0, 0, 1, 0, 0, 0, 0, 0, 0, 0, 0, 0, 0, 0, 0, 0, 0]), false, { R [(atUnit .e1 11, .LAN_QUAD_CFG_ROLE, 3), (atUnit .e1 47, .LAN_LANE_STAT_STATE, 4)] with lanes := [(1 * 48 + 47, { Lane.idle with send := 0 })] }, by decide +kernel⟩,
   ⟨.e1, 47, surveyOf ([3, 0, 0, 0, 0, 0, 0, 0, 0, 1, 0, 0, 0, 0, 0, 0, 0, 0, 0, 0, 0, 0, 0, 0]), { R [(atUnit .e1 11, .LAN_QUAD_CFG_ROLE, 3), (atUnit .e1 47, .LAN_LANE_STAT_STATE, 4)] with lanes := [(1 * 48 + 47, { Lane.idle with send := 0 })] }, by decide +kernel⟩,
   ⟨.e1, 47, surveyOf ([3, 0, 0, 2, 0, 0, 0, 0, 0, 1, 0, 0, 0, 0, 0, 0, 0, 0, 0, 0, 0, 0, 0, 0]), { R [(atUnit .e1 11, .LAN_QUAD_CFG_ROLE, 3), (atUnit .e1 47, .LAN_LANE_STAT_STATE, 4)] with lanes := [((.e1 : PDie).die.idx * 48 + (47 : Fin 48), { Lane.idle with doneOut := true, okOut := true })] }, by decide +kernel⟩,
   ⟨.e1, 47, surveyOf ([4, 0, 0, 0, 0, 0, 0, 0, 0, 0, 0, 0, 0, 0, 0, 0, 0, 0, 0, 0, 0, 0, 0, 0]), R [(atUnit .e1 11, .LAN_QUAD_CFG_ROLE, 3), (atUnit .e1 47, .LAN_LANE_STAT_STATE, 4)], by decide +kernel⟩,
   ⟨.e1, 47, State.reset, by decide +kernel⟩,
   ⟨.e1, 47, R [(atUnit (.e1 : PDie).die (47 : Fin 48), .LAN_LANE_STAT_STATE, 4), (atUnit .e1 11, .LAN_QUAD_CFG_ROLE, 3)], by decide +kernel⟩,
   ⟨.e1, 47, { R [(atUnit .e1 11, .LAN_QUAD_CFG_ROLE, 3), (atUnit .e1 47, .LAN_LANE_STAT_STATE, 4)] with lanes := [((.e1 : PDie).die.idx * 48 + (47 : Fin 48), { Lane.idle with doneOut := true, doneIn := false })] }, by decide +kernel⟩,
   ⟨.e1, 47, { State.reset with lanes := [((.e1 : PDie).die.idx * 48 + (47 : Fin 48), { Lane.idle with doneOut := false })] }, by decide +kernel⟩,
   ⟨.e1, 47, R [(atUnit (.e1 : PDie).die (47 : Fin 48), .LAN_LANE_STAT_STATE, 3), ((atUnit (.e1 : PDie).die (47 : Fin 48)), .LAN_LANE_STAT_PROTO, 1), (atUnit .e1 11, .LAN_QUAD_CFG_ROLE, 3)], by decide +kernel⟩,
   ⟨.e1, 47, { R [(atUnit (.e1 : PDie).die (47 : Fin 48), .LAN_LANE_STAT_STATE, 3), ((atUnit (.e1 : PDie).die (47 : Fin 48)), .LAN_LANE_STAT_PROTO, 1), (atUnit .e1 11, .LAN_QUAD_CFG_ROLE, 3)] with lanes := [((.e1 : PDie).die.idx * 48 + (47 : Fin 48), { Lane.idle with allow := 2 ^ 13 })] }, by decide +kernel⟩,
   ⟨.e1, 47, R [((atUnit (.e1 : PDie).die (47 : Fin 48)), .LAN_LANE_STAT_PROTO, 1), (atUnit (.e1 : PDie).die (47 : Fin 48), .LAN_LANE_STAT_STATE, 3), (atUnit .e1 11, .LAN_QUAD_CFG_ROLE, 3)], by decide +kernel⟩,
   ⟨.e1, 47, { R [(atUnit .e1 47, .LAN_LANE_STAT_STATE, 4), (atUnit .e1 47, .LAN_LANE_STAT_PROTO, 1)] with macMode := [(1 * 12 + 11, 2)] }, by decide +kernel⟩,
   ⟨.e1, 47, { R [(atUnit .e1 47, .LAN_LANE_STAT_STATE, 5)] with macMode := [(1 * 12 + 11, 2)] }, by decide +kernel⟩,
   ⟨.e1, 47, R [(atUnit (.e1 : PDie).die ((47 : Fin 48) / 4), .LAN_QUAD_CFG_ROLE, 1)], by decide +kernel⟩,
   ⟨.e1, 47, State.reset, by decide +kernel⟩,
   ⟨.e1, 47, [0xFFFFFFFFFFFFFFFF], [0xFFFFFFFFFFFFFFFFFFFFFFFFFFFFFFFF], (64, 128), { R [(atUnit .e1 11, .LAN_QUAD_CFG_ROLE, 3), (atUnit .e1 47, .LAN_LANE_STAT_STATE, 4), (atUnit .e1 47, .LAN_LANE_STAT_PROTO, 2)] with lanes := [(1 * 48 + 47, { Lane.idle with send := 0 })] }, by decide +kernel⟩,
   ⟨.e1, 47, R [(atUnit (.e1 : PDie).die (47 : Fin 48), .LAN_LANE_STAT_STATE, 4), ((atUnit (.e1 : PDie).die (47 : Fin 48)), .LAN_LANE_STAT_PROTO, 2)], by decide +kernel⟩,
   ⟨.e1, 47, [0xFFFFFFFFFFFFFFFF], [0xFFFFFFFFFFFFFFFFFFFFFFFFFFFFFFFF], (64, 128), { R [(atUnit .e1 11, .LAN_QUAD_CFG_ROLE, 3), (atUnit .e1 47, .LAN_LANE_STAT_STATE, 4)] with lanes := [(1 * 48 + 47, { Lane.idle with send := 0 })] }, by decide +kernel⟩,
   ⟨.e1, 47, [0xFFFFFFFFFFFFFFFF], [0xFFFFFFFFFFFFFFFFFFFFFFFFFFFFFFFF], (64, 128), { R [(atUnit .e1 11, .LAN_QUAD_CFG_ROLE, 3), (atUnit .e1 47, .LAN_LANE_STAT_STATE, 6)] with lanes := [(1 * 48 + 47, { Lane.idle with send := 0 })] }, by decide +kernel⟩,
   ⟨.e1, 47, R [(atUnit .e1 11, .LAN_QUAD_CFG_ROLE, 1)], by decide +kernel⟩⟩

theorem witness_LaneTestCommandsRun :
    (∃ (die : PDie) (l : Fin 48) (s : State), s.laneOwn die.die l = true ∧ s.laneSt die.die l = 5) ∧
    (∃ (die : PDie) (l : Fin 48) (s : State), s.laneOwn die.die l = true ∧ s.laneSt die.die l = 8 ∧ s.get (atUnit die.die l)
    .LAN_LPBK_MODE = 0) ∧
    (∃ (die : PDie) (l : Fin 48) (s : State), s.laneOwn die.die l = true) ∧
    (∃ (die : PDie) (l : Fin 48) (s : State), s.laneOwn die.die l = true) ∧
    (∃ (die : PDie) (l : Fin 48) (bits : BitVec 1024) (bit : Bool) (err : Bool) (s : State), s.laneOwn die.die l = true ∧ s.flag
    (atUnit die.die l) .LAN_PRBS_CTRL_CHK_EN = true ∧ s.flag (atUnit die.die l) .LAN_PRBS_BITS_HI_SYNC = true ∧ s.looped die.die l ≠ 1
    ∧ s.looped die.die l ≠ 2 ∧ (s.lane die.die l).errs < 2 ^ 32 - 1 ∧ (s.lane die.die l).bits < 2 ^ 48 - 1 ∧ bit = (bits.getLsbD 0 !=
    s.flag (atUnit die.die l) .LAN_PRBS_CTRL_INV) ∧ err = (bit != prbsNext (s.get (atUnit die.die l) .LAN_PRBS_CTRL_CHK_PAT) (s.lane
    die.die l).past)) ∧
    (∃ (die : PDie) (l : Fin 48) (bits : BitVec 1024) (s : State), s.laneOwn die.die l = true ∧ s.flag (atUnit die.die l)
    .LAN_PRBS_CTRL_CHK_EN = true ∧ s.flag (atUnit die.die l) .LAN_PRBS_BITS_HI_SYNC = false ∧ s.looped die.die l ≠ 1 ∧ s.looped die.die
    l ≠ 2 ∧ (s.lane die.die l).good = 63 ∧ 31 ≤ (s.lane die.die l).past.length ∧ ((s.lane die.die l).past.take ((prbsTaps (s.get
    (atUnit die.die l) .LAN_PRBS_CTRL_CHK_PAT)).foldl Nat.max 0)).any id = true ∧ (bits.getLsbD 0 != s.flag (atUnit die.die l)
    .LAN_PRBS_CTRL_INV) = prbsNext (s.get (atUnit die.die l) .LAN_PRBS_CTRL_CHK_PAT) (s.lane die.die l).past) ∧
    (∃ (die : PDie) (l : Fin 48) (s : State), s.laneOwn die.die l = true ∧ s.flag (atUnit die.die l) .LAN_PRBS_CTRL_CHK_EN = true ∧
    s.looped die.die l ≠ 1 ∧ s.looped die.die l ≠ 2) ∧
    (∃ (die : PDie) (l : Fin 48) (s : State), (s.laneOwn die.die l = false ∨ s.flag (atUnit die.die l) .LAN_PRBS_CTRL_CHK_EN = false)) ∧
    (∃ (die : PDie) (l : Fin 48) (s : State), s.laneOwn die.die l = true ∧ s.flag (atUnit die.die l) .LAN_PRBS_CTRL_CHK_EN = true ∧
    s.flag (atUnit die.die l) .LAN_PRBS_BITS_HI_SYNC = false) ∧
    (∃ (die : PDie) (l : Fin 48) (s : State), s.flag (atUnit die.die l) .LAN_PRBS_BITS_HI_SYNC = true) ∧
    (∃ (die : PDie) (l : Fin 48) (s : State), s.laneOwn die.die l = true ∧ s.flag (atUnit die.die l) .LAN_PRBS_CTRL_CHK_EN = true ∧
    s.flag (atUnit die.die l) .LAN_PRBS_BITS_HI_SYNC = true ∧ (s.lane die.die l).errs < 2 ^ 32 - 1 ∧ (s.lane die.die l).bits < 2 ^ 48 -
    1) ∧
    (∃ (die : PDie) (l : Fin 48) (mode : Fin 4) (s : State), s.laneOwn die.die l = true ∧ mode ≠ 0 ∧ s.laneSt die.die l = 5 ∧ (mode ≠ 3
    ∨ s.flag (atUnit die.die l) .LAN_LANE_STAT_LOCKED = true)) ∧
    (∃ (die : PDie) (l : Fin 48) (mode : Fin 4) (s : State), s.laneOwn die.die l = true ∧ mode ≠ 0 ∧ s.laneSt die.die l ≠ 5 ∧ s.laneSt
    die.die l ≠ 8) ∧
    (∃ (die : PDie) (l : Fin 48) (mode : Fin 4) (s : State), s.laneOwn die.die l = true ∧ (s.laneSt die.die l = 5 ∨ s.laneSt die.die l
    = 8) ∧ mode = 3 ∧ s.flag (atUnit die.die l) .LAN_LANE_STAT_LOCKED = false) ∧
    (∃ (die : PDie) (l : Fin 48) (s : State), s.laneOwn die.die l = true ∧ s.laneSt die.die l = 8 ∧ s.flag (atUnit die.die l)
    .LAN_PRBS_CTRL_GEN_EN = false) ∧
    (∃ (die : PDie) (l : Fin 48) (s : State), s.rawOn die.die l = true ∧ (s.lane die.die l).rx = [] ∧ (s.lane die.die l).tx.length <
    64) ∧
    (∃ (die : PDie) (l : Fin 48) (w : BitVec 128) (rest : List (BitVec 128)) (s : State), s.rawOn die.die l = true ∧ (s.lane die.die
    l).rx = w :: rest) ∧
    (∃ (die : PDie) (l : Fin 48) (s : State), s.laneRole die.die l = 3 ∧ s.laneSt die.die l = 5 ∧ (s.lane die.die l).rx.length < 64) ∧
    (∃ (die : PDie) (l : Fin 48) (s : State), s.laneRole die.die l = 3 ∧ s.laneSt die.die l = 5 ∧ 64 ≤ (s.lane die.die l).rx.length) ∧
    (∃ (die : PDie) (l : Fin 48) (s : State), s.laneRole die.die l = 3 ∧ s.looped die.die l = 3) ∧
    (∃ (die : PDie) (l : Fin 48) (w : BitVec 128) (rest : List (BitVec 128)) (s : State), s.laneRole die.die l = 3 ∧ s.laneSt die.die l
    = 5 ∧ (s.lane die.die l).tx = w :: rest) ∧
    (∃ (die : PDie) (l : Fin 48) (s : State), s.laneRole die.die l = 3 ∧ s.laneSt die.die l = 5 ∧ (s.lane die.die l).tx = []) ∧
    (∃ (die : PDie) (l : Fin 48) (w : BitVec 128) (rest : List (BitVec 128)) (s : State), s.rawOn die.die l = true ∧ (s.lane die.die
    l).tx = w :: rest ∧ (s.looped die.die l = 2 ∨ (s.looped die.die l = 1 ∧ s.flag (atUnit die.die l) .LAN_LPBK_TX_MUTE = true))) ∧
    (∃ (die : PDie) (l : Fin 48) (s : State), s.laneRole die.die l = 3 ∧ s.rawOn die.die l = false) ∧
    (∃ (die : PDie) (l : Fin 48) (s : State), s.laneRole die.die l ≠ 3) ∧
    (∃ (die : PDie) (l : Fin 48) (s : State), s.laneOwn die.die l = false) ∧
    (∃ (die : PDie) (value : Word) (s : State), value.getLsbD 31 = true ∧ (value.toNat / 2 ^ 16 % 64) < 48 ∧ s.flag (atUnit die.die
    (value.toNat / 2 ^ 16 % 64)) .LAN_LANE_STAT_LOCKED = true ∧ s.kbps die.die (value.toNat / 2 ^ 16 % 64) (s.get (atUnit die.die
    (value.toNat / 2 ^ 16 % 64)) .LAN_LANE_STAT_RATE) ≤ 400000 * Nat.max 1 (value.toNat % 2 ^ 12)) ∧
    (∃ (die : PDie) (value : Word) (s : State), value.getLsbD 31 = true ∧ (value.toNat / 2 ^ 16 % 64) < 48 ∧ s.flag (atUnit die.die
    (value.toNat / 2 ^ 16 % 64)) .LAN_LANE_STAT_LOCKED = false) :=
  ⟨⟨.e1, 47, R [(atUnit (.e1 : PDie).die (47 : Fin 48), .LAN_LANE_STAT_STATE, 5)], by decide +kernel⟩,
   ⟨.e1, 47, R [(atUnit (.e1 : PDie).die (47 : Fin 48), .LAN_LANE_STAT_STATE, 8)], by decide +kernel⟩,
   ⟨.e1, 47, State.reset, by decide +kernel⟩,
   ⟨.e1, 47, State.reset, by decide +kernel⟩,
   ⟨.e1, 47, 1, true, true, R [((atUnit (.e1 : PDie).die (47 : Fin 48)), .LAN_PRBS_CTRL_CHK_EN, 1), ((atUnit (.e1 : PDie).die (47 : Fin 48)), .LAN_PRBS_BITS_HI_SYNC, 1)], by decide +kernel⟩,
   ⟨.e1, 47, 0, { R [(atUnit .e1 11, .LAN_QUAD_CFG_ROLE, 3), (atUnit .e1 47, .LAN_LANE_STAT_STATE, 8), (atUnit .e1 47, .LAN_PRBS_CTRL_CHK_EN, 1)] with lanes := [(1 * 48 + 47, { Lane.idle with good := 63, past := List.replicate 31 true })] }, by decide +kernel⟩,
   ⟨.e1, 47, R [((atUnit (.e1 : PDie).die (47 : Fin 48)), .LAN_PRBS_CTRL_CHK_EN, 1)], by decide +kernel⟩,
   ⟨.e1, 47, State.reset, by decide +kernel⟩,
   ⟨.e1, 47, R [((atUnit (.e1 : PDie).die (47 : Fin 48)), .LAN_PRBS_CTRL_CHK_EN, 1)], by decide +kernel⟩,
   ⟨.e1, 47, R [((atUnit (.e1 : PDie).die (47 : Fin 48)), .LAN_PRBS_BITS_HI_SYNC, 1)], by decide +kernel⟩,
   ⟨.e1, 47, R [((atUnit (.e1 : PDie).die (47 : Fin 48)), .LAN_PRBS_CTRL_CHK_EN, 1), ((atUnit (.e1 : PDie).die (47 : Fin 48)), .LAN_PRBS_BITS_HI_SYNC, 1)], by decide +kernel⟩,
   ⟨.e1, 47, 2, R [(atUnit (.e1 : PDie).die (47 : Fin 48), .LAN_LANE_STAT_STATE, 5)], by decide +kernel⟩,
   ⟨.e1, 47, 3, State.reset, by decide +kernel⟩,
   ⟨.e1, 47, 3, R [(atUnit (.e1 : PDie).die (47 : Fin 48), .LAN_LANE_STAT_STATE, 5)], by decide +kernel⟩,
   ⟨.e1, 47, R [(atUnit (.e1 : PDie).die (47 : Fin 48), .LAN_LANE_STAT_STATE, 8)], by decide +kernel⟩,
   ⟨.e1, 47, { R [(atUnit .e1 11, .LAN_QUAD_CFG_ROLE, 3), (atUnit .e1 47, .LAN_LANE_STAT_STATE, 5)] with lanes := [((.e1 : PDie).die.idx * 48 + (47 : Fin 48), { Lane.idle with rx := [], tx := List.replicate 63 0 })] }, by decide +kernel⟩,
   ⟨.e1, 47, 1, [], { R [(atUnit .e1 11, .LAN_QUAD_CFG_ROLE, 3), (atUnit .e1 47, .LAN_LANE_STAT_STATE, 5)] with lanes := [((.e1 : PDie).die.idx * 48 + (47 : Fin 48), { Lane.idle with rx := (1 : BitVec 128) :: ([] : List (BitVec 128)) })] }, by decide +kernel⟩,
   ⟨.e1, 47, { R [(atUnit (.e1 : PDie).die ((47 : Fin 48) / 4), .LAN_QUAD_CFG_ROLE, 3), (atUnit (.e1 : PDie).die (47 : Fin 48), .LAN_LANE_STAT_STATE, 5), (atUnit .e1 11, .LAN_QUAD_CFG_ROLE, 3), (atUnit .e1 47, .LAN_LANE_STAT_STATE, 5)] with lanes := [((.e1 : PDie).die.idx * 48 + (47 : Fin 48), { Lane.idle with rx := List.replicate 63 0 })] }, by decide +kernel⟩,
   ⟨.e1, 47, { R [(atUnit (.e1 : PDie).die ((47 : Fin 48) / 4), .LAN_QUAD_CFG_ROLE, 3), (atUnit (.e1 : PDie).die (47 : Fin 48), .LAN_LANE_STAT_STATE, 5), (atUnit .e1 11, .LAN_QUAD_CFG_ROLE, 3), (atUnit .e1 47, .LAN_LANE_STAT_STATE, 5)] with lanes := [((.e1 : PDie).die.idx * 48 + (47 : Fin 48), { Lane.idle with rx := List.replicate 64 0 })] }, by decide +kernel⟩,
   ⟨.e1, 47, R [(atUnit .e1 11, .LAN_QUAD_CFG_ROLE, 3), (atUnit .e1 47, .LAN_LANE_STAT_STATE, 8), (atUnit .e1 47, .LAN_LPBK_MODE, 3)], by decide +kernel⟩,
   ⟨.e1, 47, 1, [], { R [(atUnit (.e1 : PDie).die ((47 : Fin 48) / 4), .LAN_QUAD_CFG_ROLE, 3), (atUnit (.e1 : PDie).die (47 : Fin 48), .LAN_LANE_STAT_STATE, 5), (atUnit .e1 11, .LAN_QUAD_CFG_ROLE, 3), (atUnit .e1 47, .LAN_LANE_STAT_STATE, 5)] with lanes := [((.e1 : PDie).die.idx * 48 + (47 : Fin 48), { Lane.idle with tx := (1 : BitVec 128) :: ([] : List (BitVec 128)) })] }, by decide +kernel⟩,
   ⟨.e1, 47, { R [(atUnit (.e1 : PDie).die ((47 : Fin 48) / 4), .LAN_QUAD_CFG_ROLE, 3), (atUnit (.e1 : PDie).die (47 : Fin 48), .LAN_LANE_STAT_STATE, 5), (atUnit .e1 11, .LAN_QUAD_CFG_ROLE, 3), (atUnit .e1 47, .LAN_LANE_STAT_STATE, 5)] with lanes := [((.e1 : PDie).die.idx * 48 + (47 : Fin 48), { Lane.idle with tx := [] })] }, by decide +kernel⟩,
   ⟨.e1, 47, 5, [], { R [(atUnit .e1 11, .LAN_QUAD_CFG_ROLE, 3), (atUnit .e1 47, .LAN_LANE_STAT_STATE, 8), (atUnit .e1 47, .LAN_LPBK_MODE, 2)] with lanes := [(1 * 48 + 47, { Lane.idle with tx := [5] })] }, by decide +kernel, by decide +kernel, Or.inl (by decide +kernel)⟩,
   ⟨.e1, 47, R [(atUnit (.e1 : PDie).die ((47 : Fin 48) / 4), .LAN_QUAD_CFG_ROLE, 3)], by decide +kernel⟩,
   ⟨.e1, 47, State.reset, by decide +kernel⟩,
   ⟨.e1, 47, R [(atUnit .e1 11, .LAN_QUAD_CFG_ROLE, 1)], by decide +kernel⟩,
   ⟨.e1, 0x802F0FFF, R [(atUnit .e1 47, .LAN_LANE_STAT_LOCKED, 1)], by decide +kernel⟩,
   ⟨.e1, 0x802F0FFF, State.reset, by decide +kernel⟩⟩

theorem witness_NetworkTimeCommandsRun :
    (∃ (s : State), s.get (atDie .e0) .PKT_TOD_SET_NS_NS < 1000000000) ∧
    (∃ (s : State), 1000000000 ≤ s.get (atDie .e0) .PKT_TOD_SET_NS_NS) ∧
    (∃ (value : BitVec 32), 0x1E000000 ≤ value.toNat ∧ value.toNat ≤ 0x22000000) ∧
    (∃ (value : BitVec 32), (value.toNat < 0x1E000000 ∨ 0x22000000 < value.toNat)) ∧
    (∃ (value : BitVec 32) (s : State), value.getLsbD 31 = true ∧ s.flag (atDie .e0) .CLK_STATUS_COAST = true) ∧
    (∃ (value : BitVec 32) (s : State), (value.getLsbD 31 = false ∨ s.flag (atDie .e0) .CLK_STATUS_COAST = false)) ∧
    (∃ (s : State), s.tod.due = true ∧ s.flag (atDie .e0) .PKT_PPS_CFG_EN = true ∧ s.get (atDie .e0) .CFG_DIE_STAT_STAGE ≠ 0) ∧
    (∃ (n : Nat) (s : State), s.tod.due = false ∧ s.clk.locked = true ∧ s.flag (atDie .e0) .PKT_TOD_CTRL_RUN = true ∧ s.flag (atDie
    .e0) .PKT_PPS_CFG_EN = true ∧ s.get (atDie .e0) .CFG_DIE_STAT_STAGE ≠ 0 ∧ s.get (atDie .e0) .PKT_TOD_INCR_INCR ≠ 0 ∧ n =
    (secondUnits - s.ppsPhase + s.get (atDie .e0) .PKT_TOD_INCR_INCR - 1) / s.get (atDie .e0) .PKT_TOD_INCR_INCR ∧ s.tod.done + n ≤
    s.get (atDie .e0) .STK_TIMING_PERIOD) ∧
    (∃ (s : State), (s.flag (atDie .e0) .PKT_PPS_CFG_EN = false ∨ s.get (atDie .e0) .CFG_DIE_STAT_STAGE = 0)) ∧
    (∃ (s : State), s.tod.due = false ∧ (s.flag (atDie .e0) .PKT_TOD_CTRL_RUN = false ∨ s.clk.locked = false ∨ s.get (atDie .e0)
    .STK_TIMING_PERIOD < s.tod.done + (secondUnits - s.ppsPhase + s.get (atDie .e0) .PKT_TOD_INCR_INCR - 1) / Nat.max 1 (s.get (atDie
    .e0) .PKT_TOD_INCR_INCR))) ∧
    (∃ (s : State), s.tod.rise + s.ppsWidth ≤ s.cycles + s.get (atDie .e0) .STK_TIMING_PERIOD) ∧
    (∃ (s : State), s.cycles + s.get (atDie .e0) .STK_TIMING_PERIOD < s.tod.rise + s.ppsWidth) ∧
    (∃ (low : BitVec 32), 100 ≤ low.toNat) ∧
    (∃ (low : BitVec 32), low.toNat < 100) :=
  ⟨⟨R [(atDie .e0, .PKT_TOD_SET_NS_NS, 999999999)], by decide +kernel⟩,
   ⟨R [((atDie .e0), .PKT_TOD_SET_NS_NS, 1000000000)], by decide +kernel⟩,
   ⟨0x1E000000, by decide +kernel⟩,
   ⟨0x1DFFFFFF, by decide +kernel⟩,
   ⟨0x80000000, R [((atDie .e0), .CLK_STATUS_COAST, 1)], by decide +kernel⟩,
   ⟨1, State.reset, by decide +kernel⟩,
   ⟨{ R [(atDie .e0, .PKT_PPS_CFG_EN, 1), (atDie .e0, .CFG_DIE_STAT_STAGE, 1)] with tod := { State.reset.tod with due := true } }, by decide +kernel⟩,
   ⟨1, { R [(atDie .e0, .PKT_PPS_CFG_EN, 1), (atDie .e0, .CFG_DIE_STAT_STAGE, 1)] with clk := { State.reset.clk with locked := true }, tod := { State.reset.tod with sub := secondUnits - 1 } }, by decide +kernel⟩,
   ⟨State.reset, by decide +kernel⟩,
   ⟨State.reset, by decide +kernel⟩,
   ⟨{ State.reset with cycles := 50000000 }, by decide +kernel⟩,
   ⟨State.reset, by decide +kernel⟩,
   ⟨100, by decide +kernel⟩,
   ⟨99, by decide +kernel⟩⟩

theorem witness_NetworkTimeReadIsOneMoment :
    ∃ (cycle : BitVec 13) (s : State) (u : State), u = s.timeTo cycle.toNat :=
  ⟨8191, State.reset, State.reset.timeTo 8191, by decide +kernel⟩

theorem witness_LookupCommandsRun :
    (∃ (die : PDie) (key : BitVec 256) (p : Place) (s : State), s.flag (atDie die.die) .PKT_LKP_STAT_BUSY = false ∧ s.findKey die.die
    (key.toNat % 2 ^ s.keyBits die.die) = none ∧ s.placeFor die.die (key.toNat % 2 ^ s.keyBits die.die) = some [p]) ∧
    (∃ (die : PDie) (key : BitVec 256) (s : State), s.flag (atDie die.die) .PKT_LKP_STAT_BUSY = false ∧ (s.findKey die.die (key.toNat %
    2 ^ s.keyBits die.die)).isSome = true) ∧
    (∃ (die : PDie) (key : BitVec 256) (s : State), s.flag (atDie die.die) .PKT_LKP_STAT_BUSY = false ∧ s.findKey die.die (key.toNat %
    2 ^ s.keyBits die.die) = none ∧ s.placeFor die.die (key.toNat % 2 ^ s.keyBits die.die) = none) ∧
    (∃ (die : PDie) (key : BitVec 256) (p : Place) (s : State), s.flag (atDie die.die) .PKT_LKP_STAT_BUSY = false ∧ s.findKey die.die
    (key.toNat % 2 ^ s.keyBits die.die) = some p) ∧
    (∃ (die : PDie) (key : BitVec 256) (p : Place) (e : LkpEntry) (s : State), s.flag (atDie die.die) .PKT_LKP_STAT_BUSY = false ∧
    s.findKey die.die (key.toNat % 2 ^ s.keyBits die.die) = some p ∧ s.entryAt die.die p = some e) ∧
    (∃ (die : PDie) (key : BitVec 256) (s : State), s.flag (atDie die.die) .PKT_LKP_STAT_BUSY = false ∧ s.findKey die.die (key.toNat %
    2 ^ s.keyBits die.die) = none) ∧
    (∃ (die : PDie) (s : State), s.flag (atDie die.die) .PKT_LKP_STAT_BUSY = false) ∧
    (∃ (die : PDie) (key : BitVec 256) (p : Place) (e : LkpEntry) (s : State), s.flag (atDie die.die) .PKT_LKP_STAT_BUSY = false ∧
    s.findKey die.die (key.toNat % 2 ^ s.keyBits die.die) = some p ∧ s.entryAt die.die p = some e) ∧
    (∃ (die : PDie) (way : BitVec 3) (index : BitVec 17) (e : LkpEntry) (s : State), s.flag (atDie die.die) .PKT_LKP_STAT_BUSY = false
    ∧ ((way.toNat < 4 ∧ index.toNat < 65536) ∨ (way.toNat = 4 ∧ index.toNat < 1024)) ∧ s.entryAt die.die ⟨way.toNat, index.toNat⟩ =
    some e) ∧
    (∃ (die : PDie) (way : BitVec 3) (index : BitVec 17) (s : State), s.flag (atDie die.die) .PKT_LKP_STAT_BUSY = false ∧ (s.entryAt
    die.die ⟨way.toNat, index.toNat⟩ = none ∨ (way.toNat < 4 ∧ 65536 ≤ index.toNat) ∨ (way.toNat = 4 ∧ 1024 ≤ index.toNat) ∨ 4 <
    way.toNat)) ∧
    (∃ (die : PDie) (s : State), s.flag (atDie die.die) .PKT_LKP_STAT_BUSY = false) ∧
    (∃ (die : PDie) (s : State), s.flag (atDie die.die) .PKT_LKP_STAT_BUSY = false ∧ s.get (atDie die.die) .PKT_LKP_BULK_CNT_COUNT ≠ 0) ∧
    (∃ (die : PDie) (s : State), s.flag (atDie die.die) .PKT_LKP_STAT_BUSY = false ∧ s.get (atDie die.die) .PKT_LKP_BULK_CNT_COUNT = 0) ∧
    (∃ (die : PDie) (s : State), s.flag (atDie die.die) .PKT_LKP_STAT_BUSY = true) ∧
    (∃ (die : PDie) (status : BitVec 4) (record : BitVec 512) (v : Nat) (p : Place) (s : State) (u : State), s.flag (atDie die.die)
    .PKT_LKP_STAT_BUSY = true ∧ s.bulkRead die.die (s.get (atDie die.die) .PKT_LKP_DONE_DONE_CNT) status.toNat record.toNat = (u, 0, v)
    ∧ v / 2 ^ 320 % 256 = 2 ∧ u.findKey die.die (v % 2 ^ 256 % 2 ^ u.keyBits die.die) = some p ∧ s.get (atDie die.die)
    .PKT_LKP_DONE_DONE_CNT + 1 < s.get (atDie die.die) .PKT_LKP_BULK_CNT_COUNT) ∧
    (∃ (die : PDie) (status : BitVec 4) (s : State), s.flag (atDie die.die) .PKT_LKP_STAT_BUSY = true ∧ status ≠ 0) ∧
    (∃ (die : PDie) (s : State), s.flag (atDie die.die) .PKT_LKP_STAT_BUSY = true) ∧
    (∃ (die : PDie) (s : State), s.flag (atDie die.die) .PKT_LKP_STAT_BUSY = true) ∧
    (∃ (die : PDie) (s : State), s.flag (atDie die.die) .PKT_LKP_STAT_BUSY = false) ∧
    (∃ (die : PDie) (entry : Fin 1024) (e : LkpEntry) (q : Place) (s : State), s.entryAt die.die ⟨4, entry⟩ = some e ∧ ((s.buckets
    die.die e.key).find? fun q => s.emptyAt die.die q) = some q) ∧
    (∃ (die : PDie) (entry : Fin 1024) (s : State), s.entryAt die.die ⟨4, entry⟩ = none) :=
  ⟨⟨.e1, 1, ⟨0, State.reset.bucket .e1 0 1⟩, State.reset, by decide +kernel⟩,
   ⟨.e1, 1, { State.reset with lkp := [(lkpKey .e1 ⟨0, State.reset.bucket .e1 0 1⟩, ⟨1, 5, true⟩)] }, by decide +kernel⟩,
   ⟨.e1, 1, fullLookup, by decide +kernel, fullLookup_findKey, fullLookup_placeFor⟩,
   ⟨.e1, 1, ⟨0, State.reset.bucket .e1 0 1⟩, { State.reset with lkp := [(lkpKey .e1 ⟨0, State.reset.bucket .e1 0 1⟩, ⟨1, 5, true⟩)] }, by decide +kernel⟩,
   ⟨.e1, 1, ⟨0, State.reset.bucket .e1 0 1⟩, ⟨1, 5, true⟩, { State.reset with lkp := [(lkpKey .e1 ⟨0, State.reset.bucket .e1 0 1⟩, ⟨1, 5, true⟩)] }, by decide +kernel⟩,
   ⟨.e1, 1, State.reset, by decide +kernel⟩,
   ⟨.e1, State.reset, by decide +kernel⟩,
   ⟨.e1, 1, ⟨0, State.reset.bucket .e1 0 1⟩, ⟨1, 5, true⟩, { State.reset with lkp := [(lkpKey .e1 ⟨0, State.reset.bucket .e1 0 1⟩, ⟨1, 5, true⟩)] }, by decide +kernel⟩,
   ⟨.e1, 4, 1023, ⟨1, 5, true⟩, { State.reset with lkp := [(lkpKey .e1 ⟨4, 1023⟩, ⟨1, 5, true⟩)] }, by decide +kernel⟩,
   ⟨.e1, 4, 1023, State.reset, by decide +kernel⟩,
   ⟨.e1, State.reset, by decide +kernel⟩,
   ⟨.e1, R [((atDie (.e1 : PDie).die), .PKT_LKP_BULK_CNT_COUNT, 1)], by decide +kernel⟩,
   ⟨.e1, State.reset, by decide +kernel⟩,
   ⟨.e1, R [((atDie (.e1 : PDie).die), .PKT_LKP_STAT_BUSY, 1)], by decide +kernel⟩,
   (bulk_witness.elim fun u h =>
    ⟨.e1, 0, BitVec.ofNat 512 bulkWord, bulkWord, ⟨0, State.reset.bucket .e1 0 1⟩, bulkState, u, by decide +kernel, h.1, by decide +kernel, h.2, by decide +kernel⟩),
   ⟨.e1, 1, R [((atDie (.e1 : PDie).die), .PKT_LKP_STAT_BUSY, 1)], by decide +kernel⟩,
   ⟨.e1, R [((atDie (.e1 : PDie).die), .PKT_LKP_STAT_BUSY, 1)], by decide +kernel⟩,
   ⟨.e1, R [((atDie (.e1 : PDie).die), .PKT_LKP_STAT_BUSY, 1)], by decide +kernel⟩,
   ⟨.e1, State.reset, by decide +kernel⟩,
   ⟨.e1, 1023, ⟨1, 5, true⟩, ⟨0, State.reset.bucket .e1 0 1⟩, { State.reset with lkp := [(lkpKey .e1 ⟨4, 1023⟩, ⟨1, 5, true⟩)] }, by decide +kernel⟩,
   ⟨.e1, 1023, State.reset, by decide +kernel⟩⟩

theorem witness_PacketPortCommandsRun :
    (∃ (die : PDie) (port : Fin 48) (prio : Fin 8) (s : State), s.bit (atUnit die.die port) .PKT_PORT_STAT_TX_XOFF prio = true) ∧
    (∃ (die : PDie) (port : Fin 48) (prio : Fin 8) (s : State), s.bit (atUnit die.die port) .PKT_PORT_STAT_TX_XOFF prio = false) ∧
    (∃ (die : PDie) (port : Fin 48) (s : State), s.portLink die.die port = true) ∧
    (∃ (die : PDie) (port : Fin 48) (s : State), s.portLink die.die port = true ∧ s.flag (atUnit die.die port) .PKT_PORT_CFG_PAUSE_EN =
    true) ∧
    (∃ (die : PDie) (port : Fin 48) (s : State), s.portLink die.die port = false) ∧
    (∃ (die : PDie) (port : Fin 48) (s : State), s.portLink die.die port = true ∧ s.flag (atUnit die.die port) .PKT_PORT_CFG_PREEMPT_EN
    = true ∧ s.flag (atUnit die.die port) .PKT_PORT_CFG_VERIFY_EN = true) ∧
    (∃ (die : PDie) (port : Fin 48) (s : State), (s.portLink die.die port = false ∨ s.flag (atUnit die.die port)
    .PKT_PORT_CFG_PREEMPT_EN = false ∨ s.flag (atUnit die.die port) .PKT_PORT_CFG_VERIFY_EN = false)) ∧
    (∃ (die : PDie) (port : Fin 48) (s : State), (s.portUsed die.die port = false ∨ s.gated die.die (port.val / 4) = false) ∧
    (s.portLink die.die port = false ∨ s.flag (atUnit die.die port) .PKT_PORT_CFG_EN = false)) ∧
    (∃ (die : PDie) (port : Fin 48) (bytes : List Byte) (cycle : BitVec 13) (s : State), ((s.portUsed die.die port = true ∧ s.gated
    die.die (port.val / 4) = true) ∨ (s.portLink die.die port = true ∧ s.flag (atUnit die.die port) .PKT_PORT_CFG_EN = true ∧
    bytes.length < 64) ∨ (s.portLink die.die port = true ∧ s.flag (atUnit die.die port) .PKT_PORT_CFG_EN = true ∧ 64 ≤ bytes.length ∧
    (s.maxLen die.die port < bytes.length ∨ fcsOk (bytes.map BitVec.toNat) = false) ∧ (∀ r, (s.timeTo cycle.toNat).cutThrough die.die
    port r = false)))) ∧
    (∃ (die : PDie) (port : Fin 48) (bytes : List Byte) (s : State), s.portLink die.die port = true ∧ s.flag (atUnit die.die port)
    .PKT_PORT_CFG_EN = true ∧ 64 ≤ bytes.length ∧ bytes.length ≤ s.maxLen die.die port ∧ fcsOk (bytes.map BitVec.toNat) = true) ∧
    (∃ (die : PDie) (f : QFrame) (q : Nat) (st : Nat) (rest : List (QFrame × Nat)) (s : State) (u : State) (v : State), (s.engine
    die.die).moves = (f, q) :: rest ∧ s.up (Die.ofIdx (1 - die.die.idx)) = true ∧ s.moveWrite die.die (Die.ofIdx (1 - die.die.idx)) q f
    = (u, st) ∧ v = ((u.onEngine die.die fun e => { e with moves := rest }).bufSync die.die).xon die.die f) ∧
    (∃ (die : PDie) (f : QFrame) (q : Nat) (rest : List (QFrame × Nat)) (s : State), (s.engine die.die).moves = (f, q) :: rest ∧ s.up
    (Die.ofIdx (1 - die.die.idx)) = false) ∧
    (∃ (die : PDie) (s : State), (s.engine die.die).moves = []) ∧
    (∃ (die : PDie) (port : Fin 48) (s : State), s.portLink die.die port = true ∧ s.flag (atUnit die.die port) .PKT_PORT_CFG_EN = true) ∧
    (∃ (die : PDie) (port : Fin 48) (s : State), (s.portLink die.die port = false ∨ s.flag (atUnit die.die port) .PKT_PORT_CFG_EN =
    false)) :=
  ⟨⟨.e1, 47, 7, R [((atUnit (.e1 : PDie).die (47 : Fin 48)), .PKT_PORT_STAT_TX_XOFF, 2 ^ ((7 : Fin 8) : Nat))], by decide +kernel⟩,
   ⟨.e1, 47, 7, State.reset, by decide +kernel⟩,
   ⟨.e1, 44, { R [(atUnit .e1 44, .LAN_LANE_STAT_STATE, 5), (atUnit .e1 44, .LAN_LANE_STAT_RATE, 13), (atUnit .e1 45, .LAN_LANE_STAT_STATE, 5), (atUnit .e1 45, .LAN_LANE_STAT_RATE, 13), (atUnit .e1 46, .LAN_LANE_STAT_STATE, 5), (atUnit .e1 46, .LAN_LANE_STAT_RATE, 13), (atUnit .e1 47, .LAN_LANE_STAT_STATE, 5), (atUnit .e1 47, .LAN_LANE_STAT_RATE, 13)] with ports := [(1 * 48 + 44, { PktPort.idle with pcs := true })] }, by decide +kernel⟩,
   ⟨.e1, 44, { R [(atUnit .e1 44, .LAN_LANE_STAT_STATE, 5), (atUnit .e1 44, .LAN_LANE_STAT_RATE, 13), (atUnit .e1 45, .LAN_LANE_STAT_STATE, 5), (atUnit .e1 45, .LAN_LANE_STAT_RATE, 13), (atUnit .e1 46, .LAN_LANE_STAT_STATE, 5), (atUnit .e1 46, .LAN_LANE_STAT_RATE, 13), (atUnit .e1 47, .LAN_LANE_STAT_STATE, 5), (atUnit .e1 47, .LAN_LANE_STAT_RATE, 13), (atUnit .e1 44, .PKT_PORT_CFG_PAUSE_EN, 1)] with ports := [(1 * 48 + 44, { PktPort.idle with pcs := true })] }, by decide +kernel⟩,
   ⟨.e1, 47, State.reset, by decide +kernel⟩,
   ⟨.e1, 44, { R [(atUnit .e1 44, .LAN_LANE_STAT_STATE, 5), (atUnit .e1 44, .LAN_LANE_STAT_RATE, 13), (atUnit .e1 45, .LAN_LANE_STAT_STATE, 5), (atUnit .e1 45, .LAN_LANE_STAT_RATE, 13), (atUnit .e1 46, .LAN_LANE_STAT_STATE, 5), (atUnit .e1 46, .LAN_LANE_STAT_RATE, 13), (atUnit .e1 47, .LAN_LANE_STAT_STATE, 5), (atUnit .e1 47, .LAN_LANE_STAT_RATE, 13), (atUnit .e1 44, .PKT_PORT_CFG_PREEMPT_EN, 1), (atUnit .e1 44, .PKT_PORT_CFG_VERIFY_EN, 1)] with ports := [(1 * 48 + 44, { PktPort.idle with pcs := true })] }, by decide +kernel⟩,
   ⟨.e1, 47, State.reset, by decide +kernel⟩,
   ⟨.e1, 47, State.reset, by decide +kernel⟩,
   ⟨.e1, 44, [1, 2], 1, R [(atSel .e1 11, .CLK_GATE_GATED, 1)], Or.inl (by decide +kernel)⟩,
   ⟨.e1, 44, frame64, { R [(atUnit .e1 44, .LAN_LANE_STAT_STATE, 5), (atUnit .e1 44, .LAN_LANE_STAT_RATE, 13), (atUnit .e1 45, .LAN_LANE_STAT_STATE, 5), (atUnit .e1 45, .LAN_LANE_STAT_RATE, 13), (atUnit .e1 46, .LAN_LANE_STAT_STATE, 5), (atUnit .e1 46, .LAN_LANE_STAT_RATE, 13), (atUnit .e1 47, .LAN_LANE_STAT_STATE, 5), (atUnit .e1 47, .LAN_LANE_STAT_RATE, 13), (atUnit .e1 44, .PKT_PORT_CFG_EN, 1)] with ports := [(1 * 48 + 44, { PktPort.idle with pcs := true })] }, by decide +kernel⟩,
   ⟨.e1, ⟨[], 0, 1, false, 0, 0, 0, 0, 0, 0, 0, false, []⟩, 5, 0, [], { State.reset with pkt := [(1, { PktDie.idle with moves := [(⟨[], 0, 1, false, 0, 0, 0, 0, 0, 0, 0, false, []⟩, 5)] })] }, ({ State.reset with pkt := [(1, { PktDie.idle with moves := [(⟨[], 0, 1, false, 0, 0, 0, 0, 0, 0, 0, false, []⟩, 5)] })] } : State).used, (((({ State.reset with pkt := [(1, { PktDie.idle with moves := [(⟨[], 0, 1, false, 0, 0, 0, 0, 0, 0, 0, false, []⟩, 5)] })] } : State).used).onEngine .e1 fun e => { e with moves := [] }).bufSync .e1).xon .e1 ⟨[], 0, 1, false, 0, 0, 0, 0, 0, 0, 0, false, []⟩, by decide +kernel, by decide +kernel, rfl, rfl⟩,
   ⟨.e1, ⟨[], 0, 1, false, 0, 0, 0, 0, 0, 0, 0, false, []⟩, 5, [], { R [(atDie .e0, .DIE_STATE_ST 0, 1)] with pkt := [(1, { PktDie.idle with moves := [(⟨[], 0, 1, false, 0, 0, 0, 0, 0, 0, 0, false, []⟩, 5)] })] }, by decide +kernel⟩,
   ⟨.e1, { State.reset with pkt := [((.e1 : PDie).die.idx, { PktDie.idle with moves := [] })] }, by decide +kernel⟩,
   ⟨.e1, 44, { R [(atUnit .e1 44, .LAN_LANE_STAT_STATE, 5), (atUnit .e1 44, .LAN_LANE_STAT_RATE, 13), (atUnit .e1 45, .LAN_LANE_STAT_STATE, 5), (atUnit .e1 45, .LAN_LANE_STAT_RATE, 13), (atUnit .e1 46, .LAN_LANE_STAT_STATE, 5), (atUnit .e1 46, .LAN_LANE_STAT_RATE, 13), (atUnit .e1 47, .LAN_LANE_STAT_STATE, 5), (atUnit .e1 47, .LAN_LANE_STAT_RATE, 13), (atUnit .e1 44, .PKT_PORT_CFG_EN, 1)] with ports := [(1 * 48 + 44, { PktPort.idle with pcs := true })] }, by decide +kernel⟩,
   ⟨.e1, 47, State.reset, by decide +kernel⟩⟩

theorem witness_PacketQueueCommandsRun :
    (∃ (die : PDie) (queue : BitVec 16) (value : BitVec 32) (s : State), s.flag (atSel die.die queue.toNat) .PKT_Q_CFG_EN = true ∧
    value.getLsbD 31 = true) ∧
    (∃ (die : PDie) (queue : BitVec 16) (value : BitVec 32) (s : State), s.flag (atSel die.die queue.toNat) .PKT_Q_CFG_EN = false ∧
    value.toNat / 2 ^ 29 % 4 = 0 ∧ 48 ≤ value.toNat % 2 ^ 12) ∧
    (∃ (die : PDie) (queue : BitVec 16) (value : BitVec 32) (s : State), value.getLsbD 31 = false ∧ value.toNat / 2 ^ 29 % 4 = 1 ∧
    65536 ≤ (s.writeReg (atSel die.die queue.toNat) .PKT_Q_CFG value).sharedSize die.die) ∧
    (∃ (die : PDie) (q : BitVec 16) (value : BitVec 32) (s : State), (s.writeReg (atSel die.die q.toNat) .PKT_Q_MIN value).sharedSize
    die.die < 65536) ∧
    (∃ (die : PDie) (queue : BitVec 16) (s : State), s.flag (atDie die.die) .PKT_Q_FLUSH_STAT_BUSY = false ∧ (s.queue die.die
    queue.toNat).frames ≠ []) ∧
    (∃ (die : PDie) (queue : BitVec 16) (s : State), s.flag (atDie die.die) .PKT_Q_FLUSH_STAT_BUSY = false ∧ (s.queue die.die
    queue.toNat).frames = []) ∧
    (∃ (die : PDie) (s : State), s.flag (atDie die.die) .PKT_Q_FLUSH_STAT_BUSY = true) ∧
    (∃ (die : PDie) (s : State), s.flag (atDie die.die) .PKT_Q_FLUSH_STAT_BUSY = true) ∧
    (∃ (die : PDie) (gone : BitVec 24) (s : State), s.flag (atDie die.die) .PKT_Q_FLUSH_STAT_BUSY = true ∧ gone.toNat < (s.queue
    die.die (s.get (atDie die.die) .PKT_Q_FLUSH_STAT_QUEUE)).frames.length) ∧
    (∃ (die : PDie) (s : State), s.flag (atDie die.die) .PKT_Q_FLUSH_STAT_BUSY = false) ∧
    (∃ (die : PDie) (ring : BitVec 10) (queue : BitVec 16) (s : State), ((s.queue die.die queue.toNat).frames = [] ∨ s.get (atSel
    die.die queue.toNat) .PKT_Q_CFG_DTYPE ≠ 1 ∨ s.get (atSel die.die queue.toNat) .PKT_Q_CFG_DEST ≠ ring.toNat ∨ s.flag (atSel die.die
    ring.toNat) .PKT_DRING_CFG_EN = false)) ∧
    (∃ (die : PDie) (ring : BitVec 10) (queue : BitVec 16) (answers : List (BitVec 4)) (f : QFrame) (rest : List QFrame) (lg : Nat) (n
    : Nat) (head : Nat) (base : Nat) (sts : List Nat) (s : State) (u : State), (s.queue die.die queue.toNat).frames = f :: rest ∧
    f.pool ≠ 2 ∧ s.get (atSel die.die queue.toNat) .PKT_Q_CFG_DTYPE = 1 ∧ s.get (atSel die.die queue.toNat) .PKT_Q_CFG_DEST =
    ring.toNat ∧ s.flag (atSel die.die ring.toNat) .PKT_DRING_CFG_EN = true ∧ s.flag (atSel die.die ring.toNat) .PKT_DRING_CFG_FORMAT =
    false ∧ s.flushes die.die queue.toNat = false ∧ s.get (atSel die.die ring.toNat) .PKT_DRING_CFG_LOG2_SIZE = lg ∧ 6 ≤ lg ∧ lg ≤ 20 ∧
    s.get (atSel die.die ring.toNat) .PKT_DRING_HEAD_LINE = head ∧ base = s.get (atSel die.die ring.toNat) .PKT_DRING_BASE_LO_BASE +
    s.get (atSel die.die ring.toNat) .PKT_DRING_BASE_HI_BASE * 2 ^ 32 ∧ n = (64 + f.bytes.length + 63) / 64 ∧ n ≤ (s.get (atSel die.die
    ring.toNat) .PKT_DRING_TAIL_LINE + 2 * 2 ^ lg - head - 1) % 2 ^ lg ∧ s.ringLines die.die ring.toNat base (2 ^ lg) head (pieces 64
    400 (deliveryDescriptor f queue.toNat (Tbl.get 0 (s.engine die.die).seqs ring.toNat) ++ f.bytes)) (answers.map BitVec.toNat) = (u,
    sts) ∧ (∀ x ∈ sts, x = 0)) ∧
    (∃ (die : PDie) (ring : BitVec 10) (queue : BitVec 16) (f : QFrame) (rest : List QFrame) (s : State), (s.queue die.die
    queue.toNat).frames = f :: rest ∧ f.pool ≠ 2 ∧ s.get (atSel die.die queue.toNat) .PKT_Q_CFG_DTYPE = 1 ∧ s.get (atSel die.die
    queue.toNat) .PKT_Q_CFG_DEST = ring.toNat ∧ s.flag (atSel die.die ring.toNat) .PKT_DRING_CFG_EN = true ∧ s.flag (atSel die.die
    ring.toNat) .PKT_DRING_CFG_FORMAT = false ∧ s.flushes die.die queue.toNat = false ∧ s.get (atSel die.die ring.toNat)
    .PKT_DRING_CFG_LOG2_SIZE = 6 ∧ (64 + f.bytes.length + 63) / 64 ≤ (s.get (atSel die.die ring.toNat) .PKT_DRING_TAIL_LINE + 128 -
    s.get (atSel die.die ring.toNat) .PKT_DRING_HEAD_LINE - 1) % 64) :=
  ⟨⟨.e1, 1, 0x80000000, R [((atSel (.e1 : PDie).die (1 : BitVec 16).toNat), .PKT_Q_CFG_EN, 1)], by decide +kernel⟩,
   ⟨.e1, 1, 48, State.reset, by decide +kernel⟩,
   ⟨.e1, 1, 0x20000000, State.reset, by decide +kernel⟩,
   ⟨.e1, 15, 65535, (List.range 16).foldl (fun s n => s.puts (atSel .e1 n) [(.PKT_Q_CFG_EN, 1), (.PKT_Q_MIN_MIN, if n < 15 then 65535 else 0)]) State.reset, by decide +kernel⟩,
   ⟨.e1, 1, { State.reset with queues := [(65537, ⟨[⟨[1], 1, 0, true, 0, 0, 0, 0, 1, 1, 0, false, []⟩], 0, false⟩)] }, by decide +kernel⟩,
   ⟨.e1, 1, { State.reset with queues := [((.e1 : PDie).die.idx * 65536 + (1 : BitVec 16).toNat, { PktQueue.none with frames := [] })] }, by decide +kernel⟩,
   ⟨.e1, R [((atDie (.e1 : PDie).die), .PKT_Q_FLUSH_STAT_BUSY, 1)], by decide +kernel⟩,
   ⟨.e1, R [((atDie (.e1 : PDie).die), .PKT_Q_FLUSH_STAT_BUSY, 1)], by decide +kernel⟩,
   ⟨.e1, 1, { R [((atDie (.e1 : PDie).die), .PKT_Q_FLUSH_STAT_BUSY, 1)] with queues := [(65536, ⟨[⟨[1], 1, 0, true, 0, 0, 0, 0, 1, 1, 0, false, []⟩, ⟨[1], 1, 0, true, 0, 0, 0, 0, 1, 1, 0, false, []⟩], 0, false⟩)] }, by decide +kernel⟩,
   ⟨.e1, State.reset, by decide +kernel⟩,
   ⟨.e1, 1, 1, { State.reset with queues := [((.e1 : PDie).die.idx * 65536 + (1 : BitVec 16).toNat, { PktQueue.none with frames := [] })] }, by decide +kernel⟩,
   ⟨.e1, 1, 1, [], bareFrame, [], 6, 1, 0, 0x200000000000, (ringState.ringLines .e1 1 0x200000000000 (2 ^ 6) 0 (pieces 64 400 (deliveryDescriptor bareFrame 1 0 ++ bareFrame.bytes)) []).2, ringState, (ringState.ringLines .e1 1 0x200000000000 (2 ^ 6) 0 (pieces 64 400 (deliveryDescriptor bareFrame 1 0 ++ bareFrame.bytes)) []).1, by decide +kernel, by decide +kernel, by decide +kernel, by decide +kernel, by decide +kernel, by decide +kernel, by decide +kernel, by decide +kernel, by decide +kernel, by decide +kernel, by decide +kernel, by decide +kernel, by decide +kernel, by decide +kernel, rfl, ring_witness⟩,
   ⟨.e1, 1, 1, ⟨[1], 1, 0, true, 0, 0, 0, 0, 1, 1, 0, false, []⟩, [], { R [(atSel .e1 1, .PKT_Q_CFG_DTYPE, 1), (atSel .e1 1, .PKT_Q_CFG_DEST, 1), (atSel .e1 1, .PKT_DRING_CFG_EN, 1), (atSel .e1 1, .PKT_DRING_CFG_LOG2_SIZE, 6), (atSel .e1 1, .PKT_DRING_BASE_HI_BASE, 0x2000), (ddrAt 0, .MEM_DDR_STAT_STATE, 5)] with queues := [(65537, ⟨[⟨[1], 1, 0, true, 0, 0, 0, 0, 1, 1, 0, false, []⟩], 0, false⟩)] }, by decide +kernel⟩⟩

theorem witness_CxlPortCommandsRun :
    (∃ (p : Fin 4) (s : State), s.cxlRole p = true ∧ s.laneSt (homeDie p) (p % 2 * 8) = 11) ∧
    (∃ (p : Fin 4) (s : State), (s.cxlRole p = false ∨ s.laneSt (homeDie p) (p % 2 * 8) ≠ 11)) ∧
    (∃ (p : Fin 4) (s : State), s.cxlSt p = 1) ∧
    (∃ (p : Fin 4) (s : State), s.cxlSt p ≠ 1) ∧
    (∃ (p : Fin 4) (s : State), s.cxlSt p = 2) ∧
    (∃ (p : Fin 4) (s : State), s.cxlSt p = 2) ∧
    (∃ (p : Fin 4) (s : State), s.cxlSt p ≠ 2) ∧
    (∃ (p : Fin 4) (value : BitVec 32) (s : State), value.getLsbD 31 = true ∧ (s.cxlSt p = 2 ∨ s.cxlSt p = 3) ∧ (s.cxlPort p).io =
    false) ∧
    (∃ (p : Fin 4) (value : BitVec 32) (s : State), (value.getLsbD 31 = false ∨ (s.cxlSt p ≠ 2 ∧ s.cxlSt p ≠ 3))) ∧
    (∃ (p : Fin 4) (s : State), (s.cxlPort p).io = true) ∧
    (∃ (p : Fin 4) (s : State), (s.cxlPort p).io = false) ∧
    (∃ (p : Fin 4) (r : NocReq) (s : State), toCxl p r = true ∧ s.protGate (4 + p) r = (s, none) ∧ s.cxlSt p = 3 ∧ (s.cxlPort p).drains
    = false ∧ r.addr.toNat - (engRange (4 + p)).1 < s.cxlServed p) ∧
    (∃ (p : Fin 4) (r : NocReq) (s : State), toCxl p r = true ∧ s.protGate (4 + p) r = (s, none) ∧ (s.cxlSt p = 4 ∨ (s.cxlPort
    p).drains = true)) ∧
    (∃ (p : Fin 4) (r : NocReq) (s : State), toCxl p r = true ∧ s.protGate (4 + p) r = (s, none) ∧ ((s.cxlSt p ≠ 3 ∧ s.cxlSt p ≠ 4) ∨
    (s.cxlSt p = 3 ∧ s.cxlServed p ≤ r.addr.toNat - (engRange (4 + p)).1)) ∧ (s.cxlPort p).drains = false) ∧
    (∃ (p : Fin 4) (r : NocReq), toCxl p r = false) ∧
    (∃ (p : Fin 4) (src : BitVec 12) (tag : BitVec 10) (r : NocReq) (s : State), ((s.cxlPort p).waiting.find? fun r => r.src.toNat ==
    src.toNat && r.tag.toNat == tag.toNat) = some r) ∧
    (∃ (p : Fin 4) (src : BitVec 12) (tag : BitVec 10) (s : State), ((s.cxlPort p).waiting.find? fun r => r.src.toNat == src.toNat &&
    r.tag.toNat == tag.toNat) = none) ∧
    (∃ (p : Fin 4) (s : State), (s.cxlSt p = 2 ∨ s.cxlSt p = 3)) ∧
    (∃ (p : Fin 4) (s : State), s.cxlSt p = 3) ∧
    (∃ (p : Fin 4) (s : State), s.cxlSt p = 2) ∧
    (∃ (p : Fin 4) (s : State), s.cxlSt p ≠ 2 ∧ s.cxlSt p ≠ 3) ∧
    (∃ (p : Fin 4) (s : State), (s.cxlPort p).walks = true) ∧
    (∃ (p : Fin 4) (s : State), (s.cxlPort p).walks = false) ∧
    (∃ (p : Fin 4) (s : State), s.cxlSt p = 3 ∧ (s.prot (4 + p)).dirty = []) ∧
    (∃ (p : Fin 4) (s : State), s.cxlSt p ≠ 3) ∧
    (∃ (p : Fin 4) (s : State), (s.cxlPort p).drains = true) ∧
    (∃ (p : Fin 4) (s : State), (s.cxlPort p).drains = false) ∧
    (∃ (p : Fin 4) (s : State), s.cxlSt p = 4) ∧
    (∃ (p : Fin 4) (s : State), s.cxlSt p ≠ 4) ∧
    (∃ (p : Fin 4) (s : State), s.flag (atDie .e0) .CLK_STATUS_COAST = false ∧ s.laneRails (homeDie p) = true) ∧
    (∃ (p : Fin 4) (s : State), (s.flag (atDie .e0) .CLK_STATUS_COAST = true ∨ s.laneRails (homeDie p) = false)) ∧
    (∃ (p : Fin 4) (s : State), s.cxlSt p ≠ 3) ∧
    (∃ (p : Fin 4) (s : State), s.cxlSt p = 3) :=
  ⟨⟨3, R [(atUnit (homeDie (3 : Fin 4)) ((3 : Fin 4) % 2 * 8), .LAN_LANE_STAT_STATE, 11), (atUnit .e1 2, .LAN_QUAD_CFG_ROLE, 1)], by decide +kernel⟩,
   ⟨3, State.reset, by decide +kernel⟩,
   ⟨3, R [(cxlAt (3 : Fin 4), .MEM_CXL_STAT_STATE, 1)], by decide +kernel⟩,
   ⟨3, State.reset, by decide +kernel⟩,
   ⟨3, R [(cxlAt (3 : Fin 4), .MEM_CXL_STAT_STATE, 2)], by decide +kernel⟩,
   ⟨3, R [(cxlAt (3 : Fin 4), .MEM_CXL_STAT_STATE, 2)], by decide +kernel⟩,
   ⟨3, State.reset, by decide +kernel⟩,
   ⟨3, 0x83FFFFFF, { R [(cxlAt (3 : Fin 4), .MEM_CXL_STAT_STATE, 2)] with cxl := [((3 : Fin 4), { CxlPort.idle with io := false })] }, by decide +kernel⟩,
   ⟨3, 1, State.reset, by decide +kernel⟩,
   ⟨3, { State.reset with cxl := [((3 : Fin 4), { CxlPort.idle with io := true })] }, by decide +kernel⟩,
   ⟨3, { State.reset with cxl := [((3 : Fin 4), { CxlPort.idle with io := false })] }, by decide +kernel⟩,
   ⟨3, { rd with addr := 0x180000000000 }, { R [(cxlAt (3 : Fin 4), .MEM_CXL_STAT_STATE, 3), (cxlAt 3, .MEM_CXL_SIZE_UNITS, 1)] with cxl := [((3 : Fin 4), { CxlPort.idle with drains := false })] }, by decide +kernel⟩,
   ⟨3, { rd with addr := 0x180000000000 }, R [(cxlAt (3 : Fin 4), .MEM_CXL_STAT_STATE, 4)], by decide +kernel⟩,
   ⟨3, { rd with addr := 0x180000000000 }, { State.reset with cxl := [((3 : Fin 4), { CxlPort.idle with drains := false })] }, by decide +kernel⟩,
   ⟨3, { rd with addr := 0x200000000000 }, by decide +kernel⟩,
   ⟨3, 1285, 1, rd, { State.reset with cxl := [((3 : Fin 4), { CxlPort.idle with waiting := [rd] })] }, by decide +kernel⟩,
   ⟨3, 1, 1, State.reset, by decide +kernel⟩,
   ⟨3, R [(cxlAt (3 : Fin 4), .MEM_CXL_STAT_STATE, 2)], by decide +kernel⟩,
   ⟨3, R [(cxlAt (3 : Fin 4), .MEM_CXL_STAT_STATE, 3)], by decide +kernel⟩,
   ⟨3, R [(cxlAt (3 : Fin 4), .MEM_CXL_STAT_STATE, 2)], by decide +kernel⟩,
   ⟨3, State.reset, by decide +kernel⟩,
   ⟨3, { State.reset with cxl := [((3 : Fin 4), { CxlPort.idle with walks := true })] }, by decide +kernel⟩,
   ⟨3, { State.reset with cxl := [((3 : Fin 4), { CxlPort.idle with walks := false })] }, by decide +kernel⟩,
   ⟨3, { R [(cxlAt (3 : Fin 4), .MEM_CXL_STAT_STATE, 3)] with prots := [((4 + (3 : Fin 4)), { Prot.none with dirty := [] })] }, by decide +kernel⟩,
   ⟨3, State.reset, by decide +kernel⟩,
   ⟨3, { State.reset with cxl := [((3 : Fin 4), { CxlPort.idle with drains := true })] }, by decide +kernel⟩,
   ⟨3, { State.reset with cxl := [((3 : Fin 4), { CxlPort.idle with drains := false })] }, by decide +kernel⟩,
   ⟨3, R [(cxlAt (3 : Fin 4), .MEM_CXL_STAT_STATE, 4)], by decide +kernel⟩,
   ⟨3, State.reset, by decide +kernel⟩,
   ⟨3, R [(atSel .e0 13, .PWR_RAIL_STAT_GOOD, 1), (atSel .e0 14, .PWR_RAIL_STAT_GOOD, 1)], by decide +kernel⟩,
   ⟨3, R [((atDie .e0), .CLK_STATUS_COAST, 1)], by decide +kernel⟩,
   ⟨3, State.reset, by decide +kernel⟩,
   ⟨3, R [(cxlAt (3 : Fin 4), .MEM_CXL_STAT_STATE, 3)], by decide +kernel⟩⟩

theorem witness_DdrCommandsRun :
    (∃ (ch : Fin 4) (r : NocReq) (s : State), toDdr ch r = true ∧ s.protGate ch r = (s, none) ∧ r.addr.toNat - (engRange ch).1 <
    s.ddrServed ch * 2 ^ 30 ∧ s.ddrSt ch = 4) ∧
    (∃ (ch : Fin 4) (r : NocReq) (s : State), toDdr ch r = true ∧ s.protGate ch r = (s, none) ∧ r.addr.toNat - (engRange ch).1 <
    s.ddrServed ch * 2 ^ 30 ∧ s.ddrSt ch = 5) ∧
    (∃ (ch : Fin 4) (r : NocReq) (s : State), toDdr ch r = true ∧ s.protGate ch r = (s, none) ∧ (s.ddrServed ch * 2 ^ 30 ≤ r.addr.toNat
    - (engRange ch).1 ∨ s.ddrSt ch < 4)) ∧
    (∃ (ch : Fin 4) (r : NocReq), toDdr ch r = false) ∧
    (∃ (ch : Fin 4) (s : State), s.ddrSt ch = 1) ∧
    (∃ (ch : Fin 4) (s : State), s.ddrSt ch = 1 ∧ (s.ddrCh ch).init = true) ∧
    (∃ (ch : Fin 4) (s : State), (s.ddrSt ch ≠ 1 ∨ (s.ddrCh ch).init = false)) ∧
    (∃ (ch : Fin 4) (s : State), s.ddrSt ch = 2) ∧
    (∃ (ch : Fin 4) (s : State), s.ddrSt ch = 4) ∧
    (∃ (ch : Fin 4) (s : State), s.ddrSt ch = 5) ∧
    (∃ (ch : Fin 4) (s : State), s.ddrSt ch = 5 ∧ (s.ddrCh ch).leaves = true ∧ (s.ddrCh ch).held = []) ∧
    (∃ (ch : Fin 4) (s : State), (s.ddrSt ch ≠ 5 ∨ (s.ddrCh ch).leaves = false)) ∧
    (∃ (ch : Fin 4) (value : BitVec 32) (s : State), value.getLsbD 31 = true ∧ s.ddrSt ch ≠ 0 ∧ s.ddrSt ch ≠ 1 ∧ s.ddrSt ch ≠ 4) ∧
    (∃ (ch : Fin 4) (s : State), (s.ddrSt ch = 0 ∨ s.ddrSt ch = 1 ∨ s.ddrSt ch = 4)) ∧
    (∃ (ch : Fin 4) (s : State), s.ddrSt ch = 2 ∧ s.flag (ddrAt ch) .MEM_DDR_TRN_STAT_BUSY = false) ∧
    (∃ (ch : Fin 4) (s : State), (s.ddrSt ch ≠ 2 ∨ s.flag (ddrAt ch) .MEM_DDR_TRN_STAT_BUSY = true)) ∧
    (∃ (ch : Fin 4) (s : State), s.ddrSt ch = 3) ∧
    (∃ (ch : Fin 4) (s : State), s.ddrSt ch = 3) ∧
    (∃ (ch : Fin 4) (s : State), s.ddrSt ch ≠ 3) ∧
    (∃ (ch : Fin 4) (s : State), s.ddrSt ch = 4) ∧
    (∃ (ch : Fin 4) (s : State), s.ddrSt ch = 4) ∧
    (∃ (ch : Fin 4) (s : State), s.ddrSt ch = 4) ∧
    (∃ (ch : Fin 4) (line : BitVec 30) (s : State), s.ddrSt ch = 4 ∧ s.get (ddrAt ch) .MEM_DDR_CFG_PATROL ≠ 0 ∧ line.toNat <
    s.ddrServed ch * 2 ^ 24 ∧ s.flag (ddrAt ch) .MEM_DDR_ECC_ADDR_VALID = false) ∧
    (∃ (ch : Fin 4) (s : State), s.ddrSt ch ≠ 4) :=
  ⟨⟨3, { rd with addr := 0x203000000000 }, R [(ddrAt (3 : Fin 4), .MEM_DDR_STAT_STATE, 4)], by decide +kernel⟩,
   ⟨3, { rd with addr := 0x203000000000 }, R [(ddrAt (3 : Fin 4), .MEM_DDR_STAT_STATE, 5)], by decide +kernel⟩,
   ⟨3, { rd with addr := 0x203000000000 }, State.reset, by decide +kernel⟩,
   ⟨3, rd, by decide +kernel⟩,
   ⟨3, R [(ddrAt (3 : Fin 4), .MEM_DDR_STAT_STATE, 1)], by decide +kernel⟩,
   ⟨3, { R [(ddrAt (3 : Fin 4), .MEM_DDR_STAT_STATE, 1)] with ddr := [((3 : Fin 4), { DdrCh.idle with init := true })] }, by decide +kernel⟩,
   ⟨3, R [(ddrAt (3 : Fin 4), .MEM_DDR_STAT_STATE, 2)], by decide +kernel⟩,
   ⟨3, R [(ddrAt (3 : Fin 4), .MEM_DDR_STAT_STATE, 2)], by decide +kernel⟩,
   ⟨3, R [(ddrAt (3 : Fin 4), .MEM_DDR_STAT_STATE, 4)], by decide +kernel⟩,
   ⟨3, R [(ddrAt (3 : Fin 4), .MEM_DDR_STAT_STATE, 5)], by decide +kernel⟩,
   ⟨3, { R [(ddrAt (3 : Fin 4), .MEM_DDR_STAT_STATE, 5)] with ddr := [((3 : Fin 4), { DdrCh.idle with leaves := true, held := [] })] }, by decide +kernel⟩,
   ⟨3, State.reset, by decide +kernel⟩,
   ⟨3, 0x80000000, R [(ddrAt (3 : Fin 4), .MEM_DDR_STAT_STATE, 2)], by decide +kernel⟩,
   ⟨3, R [(ddrAt (3 : Fin 4), .MEM_DDR_STAT_STATE, 0)], by decide +kernel⟩,
   ⟨3, R [(ddrAt (3 : Fin 4), .MEM_DDR_STAT_STATE, 2)], by decide +kernel⟩,
   ⟨3, State.reset, by decide +kernel⟩,
   ⟨3, R [(ddrAt (3 : Fin 4), .MEM_DDR_STAT_STATE, 3)], by decide +kernel⟩,
   ⟨3, R [(ddrAt (3 : Fin 4), .MEM_DDR_STAT_STATE, 3)], by decide +kernel⟩,
   ⟨3, State.reset, by decide +kernel⟩,
   ⟨3, R [(ddrAt (3 : Fin 4), .MEM_DDR_STAT_STATE, 4)], by decide +kernel⟩,
   ⟨3, R [(ddrAt (3 : Fin 4), .MEM_DDR_STAT_STATE, 4)], by decide +kernel⟩,
   ⟨3, R [(ddrAt (3 : Fin 4), .MEM_DDR_STAT_STATE, 4)], by decide +kernel⟩,
   ⟨3, 1, R [(ddrAt (3 : Fin 4), .MEM_DDR_STAT_STATE, 4), ((ddrAt (3 : Fin 4)), .MEM_DDR_CFG_PATROL, 1)], by decide +kernel⟩,
   ⟨3, State.reset, by decide +kernel⟩⟩

theorem witness_PcieCommandsRun :
    (∃ (speed : BitVec 3) (width : BitVec 5) (s : State), s.flag (atDie .e0) .MEM_PCI_STAT_TX_SAFE = false ∧ s.pcie.linkUp = false ∧ (∀
    i, i < 16 → s.laneRole .e0 (16 + i) = 2 ∧ s.laneSt .e0 (16 + i) = 11) ∧ 1 ≤ speed.toNat ∧ speed.toNat ≤ 5 ∧ width.toNat ∈ [1, 2, 4,
    8, 16]) ∧
    (∃ (speed : BitVec 3) (width : BitVec 5) (s : State), (s.flag (atDie .e0) .MEM_PCI_STAT_TX_SAFE = true ∨ s.pcie.linkUp = true ∨ (∃
    i, i < 16 ∧ (s.laneRole .e0 (16 + i) ≠ 2 ∨ s.laneSt .e0 (16 + i) ≠ 11)) ∨ speed = 0 ∨ 5 < speed.toNat ∨ width.toNat ∉ [1, 2, 4, 8,
    16])) ∧
    (∃ (s : State), s.pcie.linkUp = true) ∧
    (∃ (s : State), s.pcie.linkUp = false) ∧
    (∃ (s : State), s.flag (atDie .e0) .CLK_STATUS_COAST = false ∧ s.laneRails .e0 = true) ∧
    (∃ (s : State), (s.flag (atDie .e0) .CLK_STATUS_COAST = true ∨ s.laneRails .e0 = false)) ∧
    (∃ (ring : BitVec 12) (queue : BitVec 16) (descs : List (BitVec 256)) (f : QFrame) (rest : List QFrame) (l : List (BitVec 256 ×
    List Nat)) (s : State) (u : State), (s.queue (ringDie ring.toNat) queue.toNat).frames = f :: rest ∧ f.pool ≠ 2 ∧ s.ringAccess
    ring.toNat false f.bytes 0 = (u, 0) ∧ s.ringRuns ring.toNat = true ∧ s.flag (hrAt ring.toNat) .MEM_HR_CFG_DIR = false ∧
    s.pcie.linkUp = true ∧ s.get (atSel (ringDie ring.toNat) queue.toNat) .PKT_Q_CFG_DTYPE = 2 ∧ s.get (atSel (ringDie ring.toNat)
    queue.toNat) .PKT_Q_CFG_DEST = ring.toNat ∧ s.flushes (ringDie ring.toNat) queue.toNat = false ∧ fillDescs 16384 (descs.take
    (s.ringPosted ring.toNat)) f.bytes = some l) ∧
    (∃ (ring : BitVec 12) (queue : BitVec 16) (descs : List (BitVec 256)) (status : BitVec 4) (f : QFrame) (rest : List QFrame) (s :
    State), (s.queue (ringDie ring.toNat) queue.toNat).frames = f :: rest ∧ f.pool ≠ 2 ∧ status ≠ 0 ∧ s.ringRuns ring.toNat = true ∧
    s.flag (hrAt ring.toNat) .MEM_HR_CFG_DIR = false ∧ s.pcie.linkUp = true ∧ s.get (atSel (ringDie ring.toNat) queue.toNat)
    .PKT_Q_CFG_DTYPE = 2 ∧ s.get (atSel (ringDie ring.toNat) queue.toNat) .PKT_Q_CFG_DEST = ring.toNat ∧ s.flushes (ringDie ring.toNat)
    queue.toNat = false ∧ (fillDescs 16384 (descs.take (s.ringPosted ring.toNat)) f.bytes).isSome = true) ∧
    (∃ (ring : BitVec 12) (queue : BitVec 16) (s : State), ((s.queue (ringDie ring.toNat) queue.toNat).frames = [] ∨ s.ringRuns
    ring.toNat = false ∨ s.pcie.linkUp = false ∨ s.flag (hrAt ring.toNat) .MEM_HR_CFG_DIR = true)) ∧
    (∃ (ring : BitVec 12) (descs : List (BitVec 256)) (l : List (BitVec 256)) (bytes : List Byte) (s : State) (u : State), s.ringRuns
    ring.toNat = true ∧ s.flag (hrAt ring.toNat) .MEM_HR_CFG_DIR = true ∧ s.pcie.linkUp = true ∧ frameDescs 64 (descs.take
    (s.ringPosted ring.toNat)) = some l ∧ l.any descEop = true ∧ (l.take 1).any descSop = true ∧ (l.map fun d => bitsOf d.toNat 64
    16).sum ≤ 10240 ∧ s.used.ringAccess ring.toNat true (s.descFrame l (bytes.map BitVec.toNat)) 0 = (u, 0)) ∧
    (∃ (ring : BitVec 12) (descs : List (BitVec 256)) (l : List (BitVec 256)) (s : State), s.ringRuns ring.toNat = true ∧ s.flag (hrAt
    ring.toNat) .MEM_HR_CFG_DIR = true ∧ s.pcie.linkUp = true ∧ frameDescs 64 (descs.take (s.ringPosted ring.toNat)) = some l ∧ (l.any
    descEop = false ∨ (l.take 1).any descSop = false ∨ 10240 < (l.map fun d => bitsOf d.toNat 64 16).sum)) ∧
    (∃ (ring : BitVec 12) (descs : List (BitVec 256)) (l : List (BitVec 256)) (status : BitVec 4) (s : State), s.ringRuns ring.toNat =
    true ∧ s.flag (hrAt ring.toNat) .MEM_HR_CFG_DIR = true ∧ s.pcie.linkUp = true ∧ frameDescs 64 (descs.take (s.ringPosted
    ring.toNat)) = some l ∧ l.any descEop = true ∧ (l.take 1).any descSop = true ∧ (l.map fun d => bitsOf d.toNat 64 16).sum ≤ 10240 ∧
    status ≠ 0) ∧
    (∃ (ring : BitVec 12) (s : State), (s.ringRuns ring.toNat = false ∨ s.flag (hrAt ring.toNat) .MEM_HR_CFG_DIR = false ∨
    s.pcie.linkUp = false)) ∧
    (∃ (ring : BitVec 12) (s : State), s.ringRuns ring.toNat = true ∧ s.flag (hrAt ring.toNat) .MEM_HR_CFG_DIR = true) ∧
    (∃ (ring : BitVec 12) (s : State), (s.ring ring.toNat).waits = true) ∧
    (∃ (ring : BitVec 12) (s : State), (s.ring ring.toNat).waits = false) ∧
    (∃ (ring : BitVec 12) (s : State), s.flag (hrAt ring.toNat) .MEM_HR_STAT_STOPPED = true ∧ s.pcie.linkUp = true) ∧
    (∃ (ring : BitVec 12) (s : State), (s.flag (hrAt ring.toNat) .MEM_HR_STAT_STOPPED = false ∨ s.pcie.linkUp = false)) :=
  ⟨⟨5, 16, R ((List.range 16).flatMap fun i => [(atUnit .e0 (4 + i / 4), .LAN_QUAD_CFG_ROLE, 2), (atUnit .e0 (16 + i), .LAN_LANE_STAT_STATE, 11)]), by decide +kernel⟩,
   ⟨0, 16, R ((List.range 16).flatMap fun i => [(atUnit .e0 (4 + i / 4), .LAN_QUAD_CFG_ROLE, 2), (atUnit .e0 (16 + i), .LAN_LANE_STAT_STATE, 11)]), Or.inr (Or.inr (Or.inr (Or.inl rfl)))⟩,
   ⟨{ State.reset with pcie := { State.reset.pcie with linkUp := true } }, by decide +kernel⟩,
   ⟨{ State.reset with pcie := { State.reset.pcie with linkUp := false } }, by decide +kernel⟩,
   ⟨R [(atSel .e0 11, .PWR_RAIL_STAT_GOOD, 1), (atSel .e0 12, .PWR_RAIL_STAT_GOOD, 1)], by decide +kernel⟩,
   ⟨R [((atDie .e0), .CLK_STATUS_COAST, 1)], by decide +kernel⟩,
   ⟨1, 1, [16 <<< 64], ⟨[], 1, 0, true, 0, 0, 0, 0, 1, 1, 0, false, []⟩, [], [], { R [(atSel .e0 1, .MEM_HR_CFG_EN, 1), (atSel .e0 1, .MEM_HR_PTR_TAIL, 1), (atSel .e0 1, .PKT_Q_CFG_DTYPE, 2), (atSel .e0 1, .PKT_Q_CFG_DEST, 1)] with pcie := { State.reset.pcie with linkUp := true }, queues := [(1, ⟨[⟨[], 1, 0, true, 0, 0, 0, 0, 1, 1, 0, false, []⟩], 0, false⟩)] }, ({ R [(atSel .e0 1, .MEM_HR_CFG_EN, 1), (atSel .e0 1, .MEM_HR_PTR_TAIL, 1), (atSel .e0 1, .PKT_Q_CFG_DTYPE, 2), (atSel .e0 1, .PKT_Q_CFG_DEST, 1)] with pcie := { State.reset.pcie with linkUp := true }, queues := [(1, ⟨[⟨[], 1, 0, true, 0, 0, 0, 0, 1, 1, 0, false, []⟩], 0, false⟩)] } : State).used, by decide +kernel, by decide +kernel, rfl, by decide +kernel, by decide +kernel, by decide +kernel, by decide +kernel, by decide +kernel, by decide +kernel, by decide +kernel⟩,
   ⟨1, 1, [16 <<< 64], 3, ⟨[1], 1, 0, true, 0, 0, 0, 0, 1, 1, 0, false, []⟩, [], { R [(atSel .e0 1, .MEM_HR_CFG_EN, 1), (atSel .e0 1, .MEM_HR_PTR_TAIL, 1), (atSel .e0 1, .PKT_Q_CFG_DTYPE, 2), (atSel .e0 1, .PKT_Q_CFG_DEST, 1)] with pcie := { State.reset.pcie with linkUp := true }, queues := [(1, ⟨[⟨[1], 1, 0, true, 0, 0, 0, 0, 1, 1, 0, false, []⟩], 0, false⟩)] }, by decide +kernel⟩,
   ⟨1, 1, { State.reset with queues := [((ringDie (1 : BitVec 12).toNat).idx * 65536 + (1 : BitVec 16).toNat, { PktQueue.none with frames := [] })] }, by decide +kernel⟩,
   ⟨1, [3 <<< 97], [3 <<< 97], [], { R [(atSel .e0 1, .MEM_HR_CFG_EN, 1), (atSel .e0 1, .MEM_HR_CFG_DIR, 1), (atSel .e0 1, .MEM_HR_PTR_TAIL, 1)] with pcie := { State.reset.pcie with linkUp := true } }, ({ R [(atSel .e0 1, .MEM_HR_CFG_EN, 1), (atSel .e0 1, .MEM_HR_CFG_DIR, 1), (atSel .e0 1, .MEM_HR_PTR_TAIL, 1)] with pcie := { State.reset.pcie with linkUp := true } } : State).used.used, by decide +kernel, by decide +kernel, by decide +kernel, by decide +kernel, by decide +kernel, by decide +kernel, by decide +kernel, rfl⟩,
   ⟨1, List.replicate 64 0, List.replicate 64 0, { R [(atSel .e0 1, .MEM_HR_CFG_EN, 1), (atSel .e0 1, .MEM_HR_CFG_DIR, 1), (atSel .e0 1, .MEM_HR_CFG_LOG2_SIZE, 7), (atSel .e0 1, .MEM_HR_PTR_TAIL, 64)] with pcie := { State.reset.pcie with linkUp := true } }, by decide +kernel⟩,
   ⟨1, [3 <<< 97], [3 <<< 97], 3, { R [(atSel .e0 1, .MEM_HR_CFG_EN, 1), (atSel .e0 1, .MEM_HR_CFG_DIR, 1), (atSel .e0 1, .MEM_HR_PTR_TAIL, 1)] with pcie := { State.reset.pcie with linkUp := true } }, by decide +kernel⟩,
   ⟨1, State.reset, by decide +kernel⟩,
   ⟨1, R [(atSel .e0 1, .MEM_HR_CFG_EN, 1), (atSel .e0 1, .MEM_HR_CFG_DIR, 1)], by decide +kernel⟩,
   ⟨1, { State.reset with rings := [((1 : BitVec 12).toNat, { HostRing.idle with waits := true })] }, by decide +kernel⟩,
   ⟨1, { State.reset with rings := [((1 : BitVec 12).toNat, { HostRing.idle with waits := false })] }, by decide +kernel⟩,
   ⟨1, { R [((hrAt (1 : BitVec 12).toNat), .MEM_HR_STAT_STOPPED, 1)] with pcie := { State.reset.pcie with linkUp := true } }, by decide +kernel⟩,
   ⟨1, State.reset, by decide +kernel⟩⟩

theorem witness_ProtectionCommandsRun :
    (∃ (e : Fin 8) (r : Fin 16) (s : State), s.rgnBusy e r = false) ∧
    (∃ (e : Fin 8) (s : State), s.rgnBusy e (s.get (atDie (engDie e)) .PROT_IDX_RGN) = false) ∧
    (∃ (e : Fin 8) (r : Fin 16) (s : State), s.rgnBusy e r = true) ∧
    (∃ (e : Fin 8) (s : State), (s.prot e).walks = true) ∧
    (∃ (e : Fin 8) (s : State), (s.prot e).walks = false) ∧
    (∃ (e : Fin 8) (r : Fin 16) (value : BitVec 32) (x : ProtRegion) (s : State), s.rgnBusy e r = false ∧ s.rgnSt e r < 3 ∧
    value.getLsbD 31 = true ∧ x = ⟨s.get (rgnAt e r) .PROT_RGN_BASE_LO_BASE + s.get (rgnAt e r) .PROT_RGN_BASE_HI_BASE * 2 ^ 32,
    value.toNat % 2 ^ 6, value.getLsbD 30⟩ ∧ s.regionFits e r x = true) ∧
    (∃ (e : Fin 8) (r : Fin 16) (value : BitVec 32) (s : State), s.rgnBusy e r = false ∧ s.rgnSt e r < 3 ∧ value.getLsbD 31 = false) ∧
    (∃ (e : Fin 8) (r : Fin 16) (s : State), (s.rgnBusy e r = true ∨ 3 ≤ s.rgnSt e r)) ∧
    (∃ (e : Fin 8) (r : Fin 16) (s : State), s.rgnSt e r = 2 ∧ s.rgnBusy e r = false) ∧
    (∃ (e : Fin 8) (r : Fin 16) (s : State), (s.rgnSt e r ≠ 2 ∨ s.rgnBusy e r = true)) ∧
    (∃ (e : Fin 8) (r : Fin 16) (lines : BitVec 32) (x : ProtRegion) (s : State), s.region e r = some x ∧ s.rgnSt e r = 3 ∧ lines.toNat
    < x.initLines) ∧
    (∃ (e : Fin 8) (r : Fin 16) (s : State), (s.region e r = none ∨ s.rgnSt e r ≠ 3)) ∧
    (∃ (e : Fin 8) (r : Fin 16) (lines : BitVec 32) (x : ProtRegion) (s : State), s.region e r = some x ∧ s.rgnSt e r = 3 ∧ x.initLines
    ≤ lines.toNat) ∧
    (∃ (e : Fin 8) (r : Fin 16) (x : ProtRegion) (s : State), s.region e r = some x ∧ s.rgnSt e r = 3) ∧
    (∃ (e : Fin 8) (r : Fin 16) (x : ProtRegion) (s : State), s.region e r = some x ∧ s.rgnSt e r = 3) ∧
    (∃ (e : Fin 8) (r : Fin 16) (s : State), (s.region e r = none ∨ s.rgnSt e r ≠ 3)) ∧
    (∃ (e : Fin 8) (line : BitVec 42) (r : Nat) (x : ProtRegion) (s : State), (s.prot e).dirty.contains line.toNat = true ∧ s.regionAt
    e (line.toNat * 64) = some (r, x) ∧ Tbl.get 0 (s.prot e).minors line.toNat < 127 ∧ (s.prot e).waiting = [] ∧ (∀ a ∈ s.bufWords e
    line.toNat, s.eccMarked (engDie e) 11 a = false)) ∧
    (∃ (e : Fin 8) (line : BitVec 42) (s : State), (s.prot e).dirty.contains line.toNat = false) :=
  ⟨⟨7, 15, R [(rgnAt (7 : Fin 8) (15 : Fin 16), .PROT_RGN_STAT_BUSY, 0)], by decide +kernel⟩,
   ⟨7, R [(atDie .e1, .PROT_IDX_RGN, 15)], by decide +kernel⟩,
   ⟨7, 15, R [(rgnAt (7 : Fin 8) (15 : Fin 16), .PROT_RGN_STAT_BUSY, 1)], by decide +kernel⟩,
   ⟨7, { State.reset with prots := [((7 : Fin 8), { Prot.none with walks := true })] }, by decide +kernel⟩,
   ⟨7, { State.reset with prots := [((7 : Fin 8), { Prot.none with walks := false })] }, by decide +kernel⟩,
   ⟨7, 15, 0x80000014, ⟨0x180000000000, 20, false⟩, R [(rgnAt (7 : Fin 8) (15 : Fin 16), .PROT_RGN_STAT_BUSY, 0), (rgnAt 7 15, .PROT_RGN_BASE_HI_BASE, 0x1800)], by decide +kernel⟩,
   ⟨7, 15, 1, R [(rgnAt (7 : Fin 8) (15 : Fin 16), .PROT_RGN_STAT_BUSY, 0)], by decide +kernel⟩,
   ⟨7, 15, R [(rgnAt (7 : Fin 8) (15 : Fin 16), .PROT_RGN_STAT_BUSY, 1)], by decide +kernel⟩,
   ⟨7, 15, R [(rgnAt (7 : Fin 8) (15 : Fin 16), .PROT_RGN_STAT_STATE, 2), (rgnAt (7 : Fin 8) (15 : Fin 16), .PROT_RGN_STAT_BUSY, 0)], by decide +kernel⟩,
   ⟨7, 15, State.reset, by decide +kernel⟩,
   ⟨7, 15, 16383, ⟨0x180000000000, 20, false⟩, { R [(rgnAt (7 : Fin 8) (15 : Fin 16), .PROT_RGN_STAT_STATE, 3)] with regions := [(127, ⟨0x180000000000, 20, false⟩)] }, by decide +kernel⟩,
   ⟨7, 15, State.reset, by decide +kernel⟩,
   ⟨7, 15, 0xFFFFFFFF, ⟨0x180000000000, 20, false⟩, { R [(rgnAt 7 15, .PROT_RGN_STAT_STATE, 3)] with regions := [(127, ⟨0x180000000000, 20, false⟩)] }, by decide +kernel⟩,
   ⟨7, 15, ⟨0x180000000000, 20, false⟩, { R [(rgnAt (7 : Fin 8) (15 : Fin 16), .PROT_RGN_STAT_STATE, 3)] with regions := [(127, ⟨0x180000000000, 20, false⟩)] }, by decide +kernel⟩,
   ⟨7, 15, ⟨0x180000000000, 20, false⟩, { R [(rgnAt (7 : Fin 8) (15 : Fin 16), .PROT_RGN_STAT_STATE, 3)] with regions := [(127, ⟨0x180000000000, 20, false⟩)] }, by decide +kernel⟩,
   ⟨7, 15, State.reset, by decide +kernel⟩,
   ⟨7, 0x6000000000, 15, ⟨0x180000000000, 20, false⟩, { State.reset with prots := [((7 : Fin 8), { Prot.none with waiting := [], dirty := [0x6000000000], minors := [(0x6000000000, 126)] })], regions := [(127, ⟨0x180000000000, 20, false⟩)] }, by decide +kernel⟩,
   ⟨7, 1, State.reset, by decide +kernel⟩⟩

theorem witness_CompressionCommandsRun :
    (∃ (die : PDie) (s : State), (s.engine die.die).jobs.length < 64) ∧
    (∃ (die : PDie) (s : State), 64 ≤ (s.engine die.die).jobs.length) ∧
    (∃ (die : PDie) (j : CmpJob) (rest : List CmpJob) (s : State), (s.engine die.die).jobs = j :: rest ∧ (s.engine die.die).jobRuns =
    false ∧ s.gated die.die 12 = false ∧ j.src % 4 = 0 ∧ j.dst % 4 = 0 ∧ j.blocks ≠ 0) ∧
    (∃ (die : PDie) (j : CmpJob) (rest : List CmpJob) (s : State), (s.engine die.die).jobs = j :: rest ∧ (s.engine die.die).jobRuns =
    false ∧ s.gated die.die 12 = false ∧ (j.src % 4 ≠ 0 ∨ j.dst % 4 ≠ 0)) ∧
    (∃ (die : PDie) (s : State), ((s.engine die.die).jobs = [] ∨ (s.engine die.die).jobRuns = true ∨ s.gated die.die 12 = true)) ∧
    (∃ (die : PDie) (j : CmpJob) (rest : List CmpJob) (s : State), (s.engine die.die).jobs = j :: rest ∧ (s.engine die.die).jobRuns =
    false ∧ s.gated die.die 12 = false ∧ j.src % 4 = 0 ∧ j.dst % 4 = 0 ∧ j.blocks = 0) ∧
    (∃ (die : PDie) (j : CmpJob) (rest : List CmpJob) (s : State), (s.engine die.die).jobs = j :: rest ∧ (s.engine die.die).jobRuns =
    true ∧ s.gated die.die 12 = false) ∧
    (∃ (die : PDie) (j : CmpJob) (rest : List CmpJob) (status : BitVec 4) (written : BitVec 32) (p : CmpProf) (b : Nat) (n : Nat) (cls
    : Nat) (k : Nat) (l : List Nat) (s : State) (u : State) (v : State), (s.engine die.die).jobs = j :: rest ∧ (s.engine
    die.die).jobRuns = true ∧ s.gated die.die 12 = false ∧ p = profOf j.cfg false ∧ cls = Nat.max 1 (bitsOf (j.post.getD 4 0) 29 2) ∧ b
    = (if status = 0 then j.blocks else Nat.min j.blocks (p.dstBlocks written.toNat)) ∧ State.engineRead (ident die.die 3 3 3) 6 cls
    (spans (p.srcBytes b + 1) j.src (p.srcBytes b)) s [] = (u, l, 0) ∧ n = (if status = 0 then (jobOut p b l).1.length else Nat.min
    written.toNat (jobOut p b l).1.length) ∧ State.engineWrite (ident die.die 3 3 3) 6 cls (spans (n + 1) j.dst n) u (jobOut p b l).1 0
    = (v, k, 0)) ∧
    (∃ (die : PDie) (s : State), ((s.engine die.die).jobs = [] ∨ (s.engine die.die).jobRuns = false ∨ s.gated die.die 12 = true)) ∧
    (∃ (die : PDie) (x : CmpFrame) (rest : List CmpFrame) (s : State), (s.engine die.die).cmpIn = x :: rest) ∧
    (∃ (die : PDie) (s : State), (s.engine die.die).cmpIn = []) :=
  ⟨⟨.e1, { State.reset with pkt := [(1, { PktDie.idle with jobs := List.replicate 63 ⟨[0, 0, 0, 0, 1], 0⟩ })] }, by decide +kernel⟩,
   ⟨.e1, { State.reset with pkt := [(1, { PktDie.idle with jobs := List.replicate 64 ⟨[0, 0, 0, 0, 1], 0⟩ })] }, by decide +kernel⟩,
   ⟨.e1, ⟨[0, 0, 0, 0, 1], 0⟩, [], { R [(atSel (.e1 : PDie).die 12, .CLK_GATE_GATED, 0)] with pkt := [((.e1 : PDie).die.idx, { PktDie.idle with jobs := (⟨[0, 0, 0, 0, 1], 0⟩ : CmpJob) :: ([] : List CmpJob), jobRuns := false })] }, by decide +kernel⟩,
   ⟨.e1, ⟨[1, 0, 0, 0, 1], 0⟩, [], { R [(atSel (.e1 : PDie).die 12, .CLK_GATE_GATED, 0)] with pkt := [((.e1 : PDie).die.idx, { PktDie.idle with jobs := (⟨[1, 0, 0, 0, 1], 0⟩ : CmpJob) :: ([] : List CmpJob), jobRuns := false })] }, by decide +kernel⟩,
   ⟨.e1, { State.reset with pkt := [((.e1 : PDie).die.idx, { PktDie.idle with jobs := [] })] }, by decide +kernel⟩,
   ⟨.e1, ⟨[0, 0, 0, 0, 0], 0⟩, [], { State.reset with pkt := [(1, { PktDie.idle with jobs := [⟨[0, 0, 0, 0, 0], 0⟩] })] }, by decide +kernel⟩,
   ⟨.e1, ⟨[0, 0, 0, 0, 1], 0⟩, [], { R [(atSel (.e1 : PDie).die 12, .CLK_GATE_GATED, 0)] with pkt := [((.e1 : PDie).die.idx, { PktDie.idle with jobs := (⟨[0, 0, 0, 0, 1], 0⟩ : CmpJob) :: ([] : List CmpJob), jobRuns := true })] }, by decide +kernel⟩,
   ⟨.e1, ⟨[0, 0, 0, 0, 1], 0⟩, [], 3, 0, profOf 0 false, 0, 0, 1, 0, [], { State.reset with pkt := [(1, { PktDie.idle with jobs := [⟨[0, 0, 0, 0, 1], 0⟩], jobRuns := true })] }, { State.reset with pkt := [(1, { PktDie.idle with jobs := [⟨[0, 0, 0, 0, 1], 0⟩], jobRuns := true })] }, { State.reset with pkt := [(1, { PktDie.idle with jobs := [⟨[0, 0, 0, 0, 1], 0⟩], jobRuns := true })] }, by decide +kernel, by decide +kernel, by decide +kernel, by decide +kernel, by decide +kernel, by decide +kernel, rfl, by decide +kernel, rfl⟩,
   ⟨.e1, { State.reset with pkt := [((.e1 : PDie).die.idx, { PktDie.idle with jobs := [] })] }, by decide +kernel⟩,
   ⟨.e1, ⟨⟨[1], 1, 0, true, 0, 0, 0, 0, 1, 1, 0, false, []⟩, 1, 0⟩, [], { State.reset with pkt := [((.e1 : PDie).die.idx, { PktDie.idle with cmpIn := (⟨⟨[1], 1, 0, true, 0, 0, 0, 0, 1, 1, 0, false, []⟩, 1, 0⟩ : CmpFrame) :: ([] : List CmpFrame) })] }, by decide +kernel⟩,
   ⟨.e1, { State.reset with pkt := [((.e1 : PDie).die.idx, { PktDie.idle with cmpIn := [] })] }, by decide +kernel⟩⟩

theorem witness_AccessCommandsRun :
    (∃ (die : Die) (offset : Word) (r : Reg) (a : At) (s : State), s.up die = true ∧ offset.toNat % 4 = 0 ∧ s.regAt die offset.toNat =
    some (r, a) ∧ r ≠ .HMR_DBG_REG_DATA) ∧
    (∃ (die : Die) (offset : Word) (s : State), s.up die = true ∧ offset.toNat % 4 = 0 ∧ s.regAt die offset.toNat = none) ∧
    (∃ (die : Die) (s : State), s.up die = false) ∧
    (∃ (die : Die) (offset : Word) (s : State), s.up die = true ∧ offset.toNat % 4 ≠ 0) ∧
    (∃ (r : NocReq) (badEcc : Bool) (t : Target) (s : State), r.known = true ∧ reqTarget r = some t ∧ (r.icls ≠ 5 ∨ s.up t.die = true)
    ∧ (badEcc = false ∨ r.takes = false)) ∧
    (∃ (r : NocReq) (t : Target) (s : State), r.known = true ∧ reqTarget r = some t ∧ r.icls = 5 ∧ s.up t.die = false) ∧
    (∃ (r : NocReq) (t : Target) (s : State), r.known = true ∧ reqTarget r = some t ∧ (r.icls ≠ 5 ∨ s.up t.die = true) ∧ r.takes =
    true) ∧
    (∃ (r : NocReq), r.known = true ∧ reqTarget r = none) ∧
    (∃ (r : NocReq), r.known = false) ∧
    (∃ (s : State), s.mgt.burst = false ∧ s.mgtReady = true ∧ s.clk.locked = true) ∧
    (∃ (s : State), s.mgt.burst = false ∧ s.mgtReady = true) ∧
    (∃ (s : State), s.mgt.burst = false ∧ s.mgtReady = true) ∧
    (∃ (s : State), s.clk.power ≠ 0 ∧ s.mgt.burst = false ∧ s.mgtReady = false) ∧
    (∃ (s : State), s.mgt.burst = true ∧ s.mgtReady = false) ∧
    (∃ (s : State), s.mgt.burst = true ∧ s.mgtReady = true) ∧
    (∃ (s : State), s.mgt.burst = true ∧ s.mgt.burstHeld = 0) ∧
    (∃ (s : State), s.mgt.burst = false) ∧
    (∃ (s : State), s.clk.power ≠ 0) ∧
    (∃ (offset : BitVec 26) (s : State), s.pcie.linkUp = true ∧ offset.toNat % 4 = 0) ∧
    (∃ (offset : BitVec 26) (bytes : BitVec 13) (s : State), s.pcie.linkUp = true ∧ (bytes ≠ 4 ∨ offset.toNat % 4 ≠ 0)) ∧
    (∃ (s : State), s.pcie.linkUp = false) ∧
    (∃ (s : State), s.clk.locked = true ∧ s.flag (atDie .e0) .PROT_KEY_STAT_LOADED = false ∧ s.flag (atDie .e0) .PROT_KEY_STAT_FAIL =
    false) ∧
    (∃ (c : CalCopy) (s : State), s.clk.locked = true ∧ s.flag (atDie .e0) .PROT_KEY_STAT_LOADED = false ∧ s.flag (atDie .e0)
    .PROT_KEY_STAT_FAIL = false ∧ c.bench = true) ∧
    (∃ (c : CalCopy) (s : State), s.clk.locked = true ∧ s.flag (atDie .e0) .PROT_KEY_STAT_LOADED = false ∧ s.flag (atDie .e0)
    .PROT_KEY_STAT_FAIL = false ∧ c.bench = false) ∧
    (∃ (s : State), (s.clk.locked = false ∨ s.flag (atDie .e0) .PROT_KEY_STAT_LOADED = true)) :=
  ⟨⟨.e1, 0, .DIE_ID, atDie .e1, State.reset, by decide +kernel⟩,
   ⟨.e1, 0xFFFFFFFC, State.reset, by decide +kernel⟩,
   ⟨.e1, R [(atDie .e0, .DIE_STATE_ST (.e1 : Die).idx, 1)], by decide +kernel⟩,
   ⟨.e1, 1, State.reset, by decide +kernel⟩,
   ⟨rd, false, .cxl 0 0, State.reset, by decide +kernel, by decide +kernel, Or.inl (by decide +kernel), Or.inl rfl⟩,
   ⟨{ rd with icls := 5 }, .cxl 0 0, R [(atDie .e0, .DIE_STATE_ST 0, 1)], by decide +kernel⟩,
   ⟨{ rd with op := 8 }, .cxl 0 0, State.reset, by decide +kernel, by decide +kernel, Or.inl (by decide +kernel), by decide +kernel⟩,
   ⟨{ rd with size := 7 }, by decide +kernel⟩,
   ⟨{ rd with op := 31 }, by decide +kernel⟩,
   ⟨{ State.reset with mgt := { State.reset.mgt with burst := false }, clk := { State.reset.clk with locked := true, power := 1 } }, by decide +kernel⟩,
   ⟨{ State.reset with mgt := { State.reset.mgt with burst := false }, clk := { State.reset.clk with power := 1 } }, by decide +kernel⟩,
   ⟨{ State.reset with mgt := { State.reset.mgt with burst := false }, clk := { State.reset.clk with power := 1 } }, by decide +kernel⟩,
   ⟨{ State.reset with clk := { State.reset.clk with power := 1 }, mgt := { State.reset.mgt with burst := false, busy := true } }, by decide +kernel⟩,
   ⟨{ State.reset with mgt := { State.reset.mgt with burst := true, burstHeld := 64 } }, by decide +kernel⟩,
   ⟨{ State.reset with mgt := { State.reset.mgt with burst := true }, clk := { State.reset.clk with power := 1 } }, by decide +kernel⟩,
   ⟨{ State.reset with mgt := { State.reset.mgt with burst := true, burstHeld := 0 } }, by decide +kernel⟩,
   ⟨{ State.reset with mgt := { State.reset.mgt with burst := false } }, by decide +kernel⟩,
   ⟨{ State.reset with clk := { State.reset.clk with power := 1 } }, by decide +kernel⟩,
   ⟨0x3FFFFFC, { State.reset with pcie := { State.reset.pcie with linkUp := true } }, by decide +kernel⟩,
   ⟨0x3FFFFFD, 4, { State.reset with pcie := { State.reset.pcie with linkUp := true } }, by decide +kernel⟩,
   ⟨{ State.reset with pcie := { State.reset.pcie with linkUp := false } }, by decide +kernel⟩,
   ⟨{ State.reset with clk := { State.reset.clk with locked := true } }, by decide +kernel⟩,
   ⟨⟨0, 1, true, []⟩, { State.reset with clk := { State.reset.clk with locked := true } }, by decide +kernel⟩,
   ⟨⟨0, 1, false, [(0x3F0000000000, 5)]⟩, { State.reset with clk := { State.reset.clk with locked := true } }, by decide +kernel⟩,
   ⟨{ State.reset with clk := { State.reset.clk with locked := false } }, by decide +kernel⟩⟩

theorem witness_StepRunsTheFrontCommand :
    ∃ (s : State), s.pending = [] :=
  ⟨State.reset, by decide +kernel⟩

theorem witness_OnlyStoringCommandsChangeMemory :
    ∃ (c : Instr), Machine.Instr.mayStore c = false :=
  ⟨.islandStart, by decide +kernel⟩

theorem witness_CompressorChoosesTheSmallestExponent :
    (∃ (m : Nat) (xs : List Int), 6 ≤ m ∧ m ≤ 16 ∧ (∀ x ∈ xs, -32768 ≤ x ∧ x ≤ 32767)) ∧
    (∃ (m : Nat) (xs : List Int), 6 ≤ m ∧ m ≤ 16 ∧ (∀ x ∈ xs, -32768 ≤ x ∧ x ≤ 32767)) :=
  ⟨⟨6, [-32768, 32767], by decide +kernel⟩,
   ⟨16, [-32768, 32767], by decide +kernel⟩⟩

theorem witness_CompressionLossStaysInBounds :
    ∃ (m : Nat) (xs : List Int), 6 ≤ m ∧ m ≤ 16 ∧ (∀ x ∈ xs, -32768 ≤ x ∧ x ≤ 32767) :=
  ⟨16, [-32768, 32767], by decide +kernel⟩

theorem witness_CompressedStreamHasTheFormat :
    (∃ (m : Nat) (xs : List Int), 6 ≤ m ∧ m ≤ 16 ∧ (∀ x ∈ xs, -32768 ≤ x ∧ x ≤ 32767)) ∧
    (∃ (p : CmpProf), 6 ≤ p.m ∧ p.m ≤ 16) :=
  ⟨⟨6, [-32768, 32767], by decide +kernel⟩,
   ⟨⟨false, 24, 16, 0⟩, by decide +kernel⟩⟩

end Sys2Proof.Tests
end

section
/-! The state after reset: every field of every register holds the value its table gives, and the registers whose reset value depends
on the die or the unit hold theirs (R12, R15). -/

namespace Sys2Proof.Machine

/-- The word that the fields' reset values spell. -/
def Reg.tableWord (r : Reg) : Word := BitVec.ofNat 32 (r.fields.foldl (fun n f => n + f.reset % 2 ^ f.width * 2 ^ f.lo) 0)

/-- Whether a register's reset value is that of its fields' table alone, and is not fused or given by its die or unit. -/
def Reg.tabled : Reg → Bool
  | .DIE_ID | .DIE_STEP | .DIE_UID_LO | .DIE_UID_HI | .DIE_SLOT_STEP | .EVT_ROUTE | .CLK_SRC_FREQ | .NOC_EP_STAT | .PWR_PL_STAT
  | .CLK_CPLL_STAT | .PWR_RAIL_STAT => false
  | _ => true

/-- Whether each field of a register reads its own reset value from the word that they spell together. -/
def Reg.spellsFields (r : Reg) : Bool := r.fields.all fun f => f.of r.tableWord == f.reset

/-- The register map overlaps no two fields of a register, leaves none outside its word and gives none a reset value that it cannot hold. -/
theorem Reg.spellsFields_true (r : Reg) : r.spellsFields = true := by cases r <;> decide +kernel

theorem Fld.of_tableWord {r : Reg} {f : Fld} (hf : f ∈ r.fields) : f.of r.tableWord = f.reset := by
  simpa using List.all_eq_true.1 r.spellsFields_true f hf

theorem Reg.resetWord_of_tabled {r : Reg} (h : r.tabled = true) (a : At) : r.resetWord a = r.tableWord := by
  unfold Reg.resetWord
  split
  case h_12 => rfl
  all_goals simp [Reg.tabled] at h

theorem Reg.resetWord_dieId (a : At) : Reg.resetWord .DIE_ID a =
    BitVec.ofNat 32 (0x08800100 + (if a.die = .e0 then 0 else if a.die = .e1 then 1 else 2) * 2 ^ 12 + a.die.idx) := rfl
theorem Reg.resetWord_srcFreq (a : At) : Reg.resetWord .CLK_SRC_FREQ a = if a.elem = 0 then 0xC350 else 0 := rfl
theorem Reg.resetWord_perfLevel (a : At) : Reg.resetWord .PWR_PL_STAT a = if a.die.isFab then 0x0002EE01 else 0 := rfl
theorem Reg.resetWord_evtRoute (a : At) : Reg.resetWord .EVT_ROUTE a = if a.sel < 64 then 3 else 0 := rfl

/-- No register is listed after reset, so each reads its reset value. -/
theorem State.reset_reg (a : At) (r : Reg) : State.reset.reg a r = r.resetWord a := rfl

theorem State.reset_get (a : At) (f : Fld) : State.reset.get a f = f.of (f.reg.resetWord a) := rfl

/-- After reset every field of a table reads the value that the table gives it, at every place. -/
theorem State.reset_get_tabled {f : Fld} (a : At) (hf : f ∈ f.reg.fields ∧ f.reg.tabled = true) : State.reset.get a f = f.reset := by
  obtain ⟨hmem, htab⟩ := hf
  rw [State.reset_get, Reg.resetWord_of_tabled htab, Fld.of_tableWord hmem]

/-- DIE_ID holds the family, the package and the index of its die. -/
theorem State.reset_dieId (a : At) :
    State.reset.get a .DIE_ID_FAMILY = 0x880 ∧ State.reset.get a .DIE_ID_PKG = 1 ∧ State.reset.get a .DIE_ID_INDEX = a.die.idx := by
  simp only [State.reset_get, Fld.DIE_ID_FAMILY, Fld.DIE_ID_PKG, Fld.DIE_ID_INDEX, Reg.resetWord_dieId]
  cases a.die <;> decide

/-- Only the first source, the crystal, has its frequency at reset. -/
theorem State.reset_srcFreq (a : At) : State.reset.get a .CLK_SRC_FREQ_KHZ = if a.elem = 0 then 50000 else 0 := by
  simp only [State.reset_get, Fld.CLK_SRC_FREQ_KHZ, Reg.resetWord_srcFreq]
  split <;> decide

/-- A fabric die starts at performance level 1 and asks for 750 mV; a port die has neither. -/
theorem State.reset_perfLevel (a : At) : State.reset.get a .PWR_PL_STAT_LEVEL = natOf a.die.isFab ∧
    State.reset.get a .PWR_PL_STAT_VREQ = if a.die.isFab then 750 else 0 := by
  simp only [State.reset_get, Fld.PWR_PL_STAT_LEVEL, Fld.PWR_PL_STAT_VREQ, Reg.resetWord_perfLevel]
  cases a.die.isFab <;> decide

/-- The first 64 local events of a die go to ATTN_N and to the field book. -/
theorem State.reset_evtRoute (a : At) : State.reset.get a .EVT_ROUTE_ATTN = natOf (decide (a.sel < 64)) ∧
    State.reset.get a .EVT_ROUTE_BOOK = natOf (decide (a.sel < 64)) := by
  simp only [State.reset_get, Fld.EVT_ROUTE_ATTN, Fld.EVT_ROUTE_BOOK, Reg.resetWord_evtRoute]
  by_cases h : a.sel < 64 <;> simp only [h] <;> decide

theorem Fld.dieState_st_mem : ∀ n < 8, Fld.DIE_STATE_ST n ∈ Reg.DIE_STATE.fields := by decide
theorem Fld.nocFenceStat_p_mem : ∀ p < 16, Fld.NOC_FENCE_STAT_P p ∈ Reg.NOC_FENCE_STAT.fields := by decide
theorem Fld.prcState_p_mem : ∀ p < 16, Fld.PRC_STATE_P p ∈ Reg.PRC_STATE.fields := by decide
theorem Fld.clkCtrl_prio_mem : ∀ k < 4, Fld.CLK_CTRL_PRIO k ∈ Reg.CLK_CTRL.fields := by decide

/-- Settles O56: a register of the tables reads its fields' reset values (`State.reset_get_tabled`), and the fused ones and those that
depend on the unit read their own. -/
theorem resetStateHoldsTheTablesValues : Obligations.ResetStateHoldsTheTablesValues := by
  unfold Obligations.ResetStateHoldsTheTablesValues
  refine ⟨rfl, rfl, fun _ => rfl, fun a => ?die, fun a => ?stroke, fun a => ?network, fun a => ?config, fun a => ?coresAndLanes,
    fun a => ?timeAndMemory, fun a => ?clocksAndPower, fun a => ?events⟩
  case die =>
    obtain ⟨hfamily, hpkg, hindex⟩ := State.reset_dieId a
    exact ⟨hfamily, hpkg, hindex, fun n hn => State.reset_get_tabled a ⟨Fld.dieState_st_mem n hn, rfl⟩⟩
  case network =>
    refine ⟨?_, ?_, ?_, ?_, ?_, ?_, ?_, ?_, fun p hp => State.reset_get_tabled a ⟨Fld.nocFenceStat_p_mem p hp, rfl⟩⟩
    all_goals exact State.reset_get_tabled a (by decide)
  case config =>
    refine ⟨?_, ?_, ?_, fun p hp => State.reset_get_tabled a ⟨Fld.prcState_p_mem p hp, rfl⟩, ?_, ?_⟩
    all_goals exact State.reset_get_tabled a (by decide)
  case clocksAndPower =>
    obtain ⟨hlevel, hvreq⟩ := State.reset_perfLevel a
    refine ⟨?_, fun k hk => State.reset_get_tabled a ⟨Fld.clkCtrl_prio_mem k hk, rfl⟩, State.reset_srcFreq a, ?_, ?_, hlevel,
      hvreq, ?_⟩
    all_goals exact State.reset_get_tabled a (by decide)
  case events =>
    obtain ⟨hattn, hbook⟩ := State.reset_evtRoute a
    refine ⟨hattn, hbook, ?_, ?_, ?_, ?_, ?_⟩
    all_goals exact State.reset_get_tabled a (by decide)
  all_goals
    and_intros
    all_goals exact State.reset_get_tabled a (by decide)

end Sys2Proof.Machine
end

section
/-! Laws of hardware's writes: what a counted field reads, what several fields put into one register read, and the frame of a state
whose registers or memory are as they were. -/

namespace Sys2Proof.Machine

theorem State.get_bump_self (s : State) (a : At) (f : Fld) (n : Nat) (h : f.lo + f.width ≤ 32) :
    (s.bump a f n).get a f = satAdd (2 ^ f.width - 1) (s.get a f) n := by
  have hlt : satAdd (2 ^ f.width - 1) (s.get a f) n < 2 ^ f.width :=
    Nat.lt_of_le_of_lt (Nat.min_le_left ..) (Nat.sub_lt (Nat.two_pow_pos _) Nat.one_pos)
  rw [State.bump, State.get_put_self _ _ _ _ h, Nat.mod_eq_of_lt hlt]

/-- Reading a field looks at the register table alone. -/
theorem State.get_of_regs {s t : State} (h : t.regs = s.regs) (a : At) (f : Fld) : t.get a f = s.get a f := by
  unfold State.get State.reg; rw [h]

theorem State.get_of_keepsRegs {L : List Reg} {s t : State} (h : s.keepsRegs L t) {a : At} {f : Fld} (ha : a.real) (hf : f.reg ∉ L) :
    t.get a f = s.get a f := by
  unfold State.get; rw [h a f.reg ha hf]

theorem State.puts_cons (s : State) (a : At) (f : Fld) (v : Nat) (l : List (Fld × Nat)) :
    s.puts a ((f, v) :: l) = (s.put a f v).puts a l := rfl

/-- Fields put into the same register beside a field leave it as it was. -/
theorem State.get_puts_beside {a : At} {g : Fld} (l : List (Fld × Nat))
    (hl : ∀ f ∈ l.map Prod.fst, g.reg = f.reg ∧ (f.lo + f.width ≤ g.lo ∨ g.lo + g.width ≤ f.lo)) (s : State) :
    (s.puts a l).get a g = s.get a g := by
  induction l generalizing s with
  | nil => rfl
  | cons e l ih =>
    obtain ⟨hreg, hapart⟩ := hl e.1 List.mem_cons_self
    rw [← State.get_put_field s a e.1 g e.2 hreg hapart]
    exact ih (fun f hf => hl f (List.mem_cons_of_mem _ hf)) _

/-- Of several fields put into one register, the first reads what was put. -/
theorem State.get_puts_first {a : At} {g : Fld} {v : Nat} {l : List (Fld × Nat)} (hg : g.lo + g.width ≤ 32)
    (hl : ∀ f ∈ l.map Prod.fst, g.reg = f.reg ∧ (f.lo + f.width ≤ g.lo ∨ g.lo + g.width ≤ f.lo)) (s : State) :
    (s.puts a ((g, v) :: l)).get a g = v % 2 ^ g.width := by
  rw [State.puts_cons, State.get_puts_beside l hl, State.get_put_self s a g v hg]

theorem State.keepsRegs_of_regs {s t : State} (h : t.regs = s.regs) (L : List Reg) : s.keepsRegs L t := keeps_same (keeps_refl L s) h

theorem State.keepsMem_of_held {s t : State} (h : t.held = s.held) : s.keepsMem t := by
  intro a
  rw [show t.mem = s.mem from congrArg Prod.snd h]

end Sys2Proof.Machine
end

section
/-! Accesses to the control space, the management port, BAR0 and the calibration set (R9 to R14, R45, R47, R136, R459, R460, R519 to
R523, R545). -/

namespace Sys2Proof.Machine

/-! ### A write at an offset of a die's control space (R9 to R12, R47) -/

theorem ctlWrite_down {s : State} {d : Die} (h : s.up d = false) (o : Nat) (v : Word) (icls : Nat) : s.ctlWrite d o v icls = (s, 4) := by
  simp [State.ctlWrite, h]

theorem ctlWrite_unaligned {s : State} {d : Die} {o : Nat} (h : s.up d = true) (ho : o % 4 ≠ 0) (v : Word) (icls : Nat) :
    s.ctlWrite d o v icls = (s, 5) := by
  simp [State.ctlWrite, h, ho]

theorem ctlWrite_noReg {s : State} {d : Die} {o : Nat} (h : s.up d = true) (ho : o % 4 = 0) (hr : s.regAt d o = none) (v : Word)
    (icls : Nat) : s.ctlWrite d o v icls = (s, 0) := by
  simp [State.ctlWrite, h, ho, hr]

theorem ctlWrite_reg {s : State} {d : Die} {o : Nat} {r : Reg} {a : At} (h : s.up d = true) (ho : o % 4 = 0)
    (hr : s.regAt d o = some (r, a)) (hw : r ≠ .HMR_DBG_REG_DATA) (v : Word) (icls : Nat) :
    s.ctlWrite d o v icls = (s.regWrite a r v icls, 0) := by
  simp [State.ctlWrite, h, ho, hr, hw]

theorem exec_registerWrite {s t : State} {die : Die} {offset value : Word} {icls : BitVec 3} {st : Nat}
    (h : s.ctlWrite die offset.toNat value icls.toNat = (t, st)) :
    exec (.registerWrite die offset value icls) s = .next (t.setAnswerStatus st) := by
  change execRegisterWrite die offset value icls s = _
  rw [execRegisterWrite, h]

/-! ### A request at its target (R40, R135, R136) -/

theorem exec_nocTargetRequest_unknown {r : NocReq} (h : r.known = false) (check : MemCheck) (badEcc : Bool) (s : State) :
    exec (.nocTargetRequest r check badEcc) s = .next s := by
  change execNocTargetRequest r check badEcc s = _
  simp [execNocTargetRequest, h]

theorem exec_nocTargetRequest_noTarget {r : NocReq} (h : r.known = true) (ht : reqTarget r = none) (check : MemCheck) (badEcc : Bool)
    (s : State) : exec (.nocTargetRequest r check badEcc) s = .next (s.respond r 5 0) := by
  change execNocTargetRequest r check badEcc s = _
  simp [execNocTargetRequest, h, ht]

/-- What a request does that reaches a target. -/
theorem exec_nocTargetRequest_target {r : NocReq} {t : Target} (h : r.known = true) (ht : reqTarget r = some t) (check : MemCheck)
    (badEcc : Bool) (s : State) : exec (.nocTargetRequest r check badEcc) s = .next (
      if r.icls = 5 ∧ s.up t.die = false then s.respond r 4 0
      else if (badEcc && r.takes) = true then s.respond r 1 0
      else
        let u := if r.takes then s.bwCount t.die 0 t.ident (2 ^ r.size.toNat) 1 else s
        (if r.brings then u.bwCount t.die 1 t.ident (2 ^ r.size.toNat) 1 else u).targetServe r check t) := by
  change execNocTargetRequest r check badEcc s = _
  simp only [execNocTargetRequest, h, ht, if_true]

/-- DIE_DOWN answers only a debug access to a die that is not UP (R40). -/
theorem not_answersDown {r : NocReq} {d : Die} {s : State} (h : r.icls ≠ 5 ∨ s.up d = true) : ¬(r.icls = 5 ∧ s.up d = false) := by
  rintro ⟨hdebug, hdown⟩
  simp [hdebug, hdown] at h

/-! ### The management port (R519 to R523) -/

theorem State.power_of_mgtReady {s : State} (h : s.mgtReady = true) : s.clk.power ≠ 0 := by
  simp only [State.mgtReady, Bool.and_eq_true, bne_iff_ne] at h
  obtain ⟨⟨⟨hpower, _⟩, _⟩, _⟩ := h
  exact hpower

theorem mgtSingle_busy {s : State} (hp : s.clk.power ≠ 0) (hb : s.mgt.burst = false) (h : s.mgtReady = false) (kind addr : Nat) (v : Word)
    (fits known : Bool) : s.mgtSingle kind addr v fits known = s.mgtDiscard true := by
  simp [State.mgtSingle, hp, hb, h]

theorem mgtSingle_malformed {s : State} (hb : s.mgt.burst = false) (h : s.mgtReady = true) (kind addr : Nat) (v : Word)
    {fits known : Bool} (hf : (fits && known) = false) : s.mgtSingle kind addr v fits known = s.mgtDiscard false := by
  simp [State.mgtSingle, State.power_of_mgtReady h, hb, h, hf]

theorem mgtSingle_accepted {s : State} (hb : s.mgt.burst = false) (h : s.mgtReady = true) (kind addr : Nat) (v : Word) :
    s.mgtSingle kind addr v true true = (s.mgtAccept false 0).mgtAccess kind addr v := by
  simp [State.mgtSingle, State.power_of_mgtReady h, hb, h]

/-- After the datum PLL's first lock the port's access is a request of the management class (R520, R523). -/
theorem mgtAccess_locked {s : State} (h : s.clk.locked = true) (kind addr : Nat) (v : Word) :
    s.mgtAccess kind addr v = s.request (s.hostReq 7 (kind != 1) addr v) (.mgt kind) := by
  simp [State.mgtAccess, h]

/-- A discarded transaction is counted in MGT_STAT and nothing else changes there or in memory (R522). -/
theorem mgtDiscard_frame (s : State) (dropped : Bool) :
    s.keepsRegs [.MGT_STAT] (s.mgtDiscard dropped) ∧ s.keepsMem (s.mgtDiscard dropped) := by
  refine ⟨keeps_same (keeps_bump ?_ (atDie_code .e0) (keeps_refl _ s)) rfl, State.keepsMem_of_held (State.mgtDiscard_held rfl)⟩
  cases dropped <;> decide

theorem mgtDiscard_dropped (s : State) : (s.mgtDiscard true).get (atDie .e0) .MGT_STAT_DROPPED =
    satAdd 255 (s.get (atDie .e0) .MGT_STAT_DROPPED) 1 := State.get_bump_self _ _ .MGT_STAT_DROPPED _ (by decide)

theorem mgtDiscard_frameErr (s : State) : (s.mgtDiscard false).get (atDie .e0) .MGT_STAT_FRAME_ERR =
    satAdd 255 (s.get (atDie .e0) .MGT_STAT_FRAME_ERR) 1 := State.get_bump_self _ _ .MGT_STAT_FRAME_ERR _ (by decide)

theorem exec_mgtWrite (addr : BitVec 48) (data : Word) (bits : BitVec 16) (known : Bool) (s : State) :
    exec (.mgtWrite addr data bits known) s = .next (s.mgtSingle 0 addr.toNat data (bits == 88) known) := rfl

theorem exec_mgtRead (addr : BitVec 48) (bits : BitVec 16) (s : State) :
    exec (.mgtRead addr bits) s = .next (s.mgtSingle 1 addr.toNat 0 (bits == 56) true) := rfl

theorem exec_mgtBurst_accepted {s : State} (hb : s.mgt.burst = false) (h : s.mgtReady = true) (addr : BitVec 48) :
    exec (.mgtBurst addr true false) s = .next (s.mgtAccept true addr.toNat) := by
  change execMgtBurst addr true false s = _
  simp [execMgtBurst, State.power_of_mgtReady h, hb, h]

theorem exec_mgtBurst_malformed {s : State} (hb : s.mgt.burst = false) (h : s.mgtReady = true) (addr : BitVec 48) (ends : Bool) :
    exec (.mgtBurst addr false ends) s = .next (s.mgtDiscard false) := by
  change execMgtBurst addr false ends s = _
  simp [execMgtBurst, State.power_of_mgtReady h, hb, h]

theorem exec_mgtBurst_busy {s : State} (hp : s.clk.power ≠ 0) (hb : s.mgt.burst = false) (h : s.mgtReady = false) (addr : BitVec 48)
    (whole ends : Bool) : exec (.mgtBurst addr whole ends) s = .next (s.mgtDiscard true) := by
  change execMgtBurst addr whole ends s = _
  simp [execMgtBurst, hp, hb, h]

/-- A word that MGT_RDY lets in is an access at the burst's address, which goes on by 4 (R521). -/
theorem burstWord_ready {s : State} (h : s.mgtReady = true) (v : Word) : s.burstWord v =
    ((s.setMgt { s.mgt with burstAddr := (s.mgt.burstAddr + 4) % 2 ^ 48 }).setMgt
      { s.mgt with burstAddr := (s.mgt.burstAddr + 4) % 2 ^ 48, burstHeld := s.mgt.burstHeld + 1 }).mgtAccess 2 s.mgt.burstAddr v := by
  simp [State.burstWord, h]

/-- A word that comes while MGT_RDY is low is lost and counted (R521). -/
theorem burstWord_dropped {s : State} (h : s.mgtReady = false) (v : Word) : s.burstWord v =
    ((s.setMgt { s.mgt with burstAddr := (s.mgt.burstAddr + 4) % 2 ^ 48 }).bump (atDie .e0) .MGT_STAT_DROPPED 1).setMgt
      { s.mgt with burstAddr := (s.mgt.burstAddr + 4) % 2 ^ 48, dropped := true } := by
  simp [State.burstWord, h]

theorem exec_mgtBurstWord_idle {s : State} (h : s.mgt.burst = false) (v : Word) (bits : Fin 33) (ends : Bool) :
    exec (.mgtBurstWord v bits ends) s = .next s := by
  change execMgtBurstWord v bits ends s = _
  simp [execMgtBurstWord, h]

theorem exec_mgtBurstWord_whole {s : State} (h : s.mgt.burst = true) (v : Word) :
    exec (.mgtBurstWord v 32 false) s = .next (s.burstWord v) := by
  change execMgtBurstWord v 32 false s = _
  simp [execMgtBurstWord, h]

/-- A BURST that ends within a word loses that word and ends (R522). -/
theorem exec_mgtBurstWord_cut {s : State} (h : s.mgt.burst = true) (v : Word) : exec (.mgtBurstWord v 16 true) s =
    .next ((s.bump (atDie .e0) .MGT_STAT_FRAME_ERR 1).setMgt { s.mgt with frameErr := true }).burstEnd := by
  change execMgtBurstWord v 16 true s = _
  simp [execMgtBurstWord, h]

theorem exec_mgtResult {s : State} (h : s.clk.power ≠ 0) : exec .mgtResult s = .next ((s.setAnswer (BitVec.ofNat 32 s.mgt.data)).emit
    (.mgtResult (natOf s.mgt.done * 128 + natOf s.mgt.frameErr * 64 + natOf s.mgt.dropped * 32 + s.mgt.status % 16) s.mgt.data)) := by
  change execMgtResult s = _
  simp [execMgtResult, h]

/-- The registers and the memory after a count in MGT_STAT and updates of the port's own state. -/
theorem keeps_mgtStat {s t : State} {f : Fld} {m n : Mgt} (hf : f.reg = .MGT_STAT) (ht : t = ((s.setMgt m).bump (atDie .e0) f 1).setMgt n) :
    s.keepsRegs [.MGT_STAT] t ∧ s.keepsMem t := by
  subst ht
  exact ⟨keeps_same (keeps_bump (by simp [hf]) (atDie_code .e0) (State.keepsRegs_of_regs (t := s.setMgt m) rfl _)) rfl,
    State.keepsMem_of_held (State.setMgt_held (State.bump_held rfl))⟩

/-! ### BAR0 (R459, R460) -/

theorem exec_bar0Access_down {s : State} (h : s.pcie.linkUp = false) (write : Bool) (offset : BitVec 26) (bytes : BitVec 13)
    (value : Word) : exec (.bar0Access write offset bytes value) s = .next s := by
  change execBar0Access write offset bytes value s = _
  simp [execBar0Access, h]

/-- A write that is not a naturally aligned word is counted and dropped. -/
theorem exec_bar0Access_badWrite {s : State} {offset : BitVec 26} {bytes : BitVec 13} (h : s.pcie.linkUp = true)
    (hb : bytes ≠ 4 ∨ offset.toNat % 4 ≠ 0) (value : Word) :
    exec (.bar0Access true offset bytes value) s = .next (s.bump (atDie .e0) .MEM_PCI_STAT_BAR_ERR 1) := by
  change execBar0Access true offset bytes value s = _
  simp only [execBar0Access, h, hb, if_true, reduceCtorEq, if_false]

theorem exec_bar0Access_word {s : State} {offset : BitVec 26} (h : s.pcie.linkUp = true) (ho : offset.toNat % 4 = 0) (write : Bool)
    (value : Word) : exec (.bar0Access write offset 4 value) s = .next (s.request (s.hostReq 4 write
      (0x3F0000000000 + offset.toNat / 2 ^ 23 * 2 ^ 32 + offset.toNat / 2 ^ 18 % 32 * 2 ^ 24 + offset.toNat % 2 ^ 18) value)
      (.bar0 write)) := by
  change execBar0Access write offset 4 value s = _
  simp [execBar0Access, h, ho]

/-! ### Keys and the calibration set (R468, R545) -/

theorem keysDraw_regs (s : State) : s.keysDraw.regs = s.regs := by
  unfold State.keysDraw
  exact List.foldlRecOn (motive := fun t : State => t.regs = s.regs) _ _ rfl fun _ h _ _ => h

/-- Loading the keys changes no register but PROT_KEY_STAT. -/
theorem keysLoad_keeps (s : State) : s.keepsRegs [.PROT_KEY_STAT] (s.keysLoad true) :=
  keeps_put (by decide) (atDie_code .e0) (State.keepsRegs_of_regs (keysDraw_regs s) _)

theorem keysLoad_loaded (s : State) : (s.keysLoad true).flag (atDie .e0) .PROT_KEY_STAT_LOADED = true := by
  simp only [State.flag, State.keysLoad, if_true, beq_iff_eq]
  exact State.get_put_self _ _ .PROT_KEY_STAT_LOADED 1 (by decide)

/-- Before step 3 of R204, and once the keys are loaded, the command does nothing. -/
theorem exec_calibrationApply_idle {s : State} (h : s.clk.locked = false ∨ s.flag (atDie .e0) .PROT_KEY_STAT_LOADED = true)
    (flash keys : Bool) (copy : Option CalCopy) : exec (.calibrationApply flash keys copy) s = .next s := by
  change execCalibrationApply flash keys copy s = _
  rcases h with h | h <;> simp [execCalibrationApply, h]

/-- The state in which the calibration set is applied: the PLL locked, and the keys neither loaded nor failed. -/
def State.calDue (s : State) : Prop := s.clk.locked = true ∧ s.flag (atDie .e0) .PROT_KEY_STAT_LOADED = false ∧
  s.flag (atDie .e0) .PROT_KEY_STAT_FAIL = false

theorem exec_calibrationApply_noCopy {s : State} (h : s.calDue) (flash : Bool) : exec (.calibrationApply flash true none) s =
    .next (((s.keysLoad true).setCal ⟨255, 0, true, 0⟩).puts (atDie .e0) [(.MGT_CAL_STAT_ACTIVE, 0), (.MGT_CAL_STAT_NEXT, 0),
      (.MGT_CAL_STAT_NOFLASH, natOf (!flash)), (.MGT_CAL_STAT_GEN, 0)]) := by
  obtain ⟨hlocked, hloaded, hfail⟩ := h
  change execCalibrationApply flash true none s = _
  simp [execCalibrationApply, hlocked, hloaded, hfail]

theorem exec_calibrationApply_bench {s : State} {c : CalCopy} (h : s.calDue) (hc : c.bench = true) :
    exec (.calibrationApply true true (some c)) s = .next (((s.keysLoad true).setCal ⟨c.sector.toNat, c.gen.toNat, true, 0⟩).puts
      (atDie .e0) [(.MGT_CAL_STAT_ACTIVE, 0), (.MGT_CAL_STAT_NEXT, 0), (.MGT_CAL_STAT_GEN, c.gen.toNat)]) := by
  obtain ⟨hlocked, hloaded, hfail⟩ := h
  change execCalibrationApply true true (some c) s = _
  simp [execCalibrationApply, hlocked, hloaded, hfail, hc, natOf]

theorem exec_calibrationApply_user {s : State} {c : CalCopy} (h : s.calDue) (hc : c.bench = false) :
    exec (.calibrationApply true true (some c)) s = .next (c.pairs.foldl (fun s p => s.calPair p)
      (((s.keysLoad true).setCal ⟨c.sector.toNat, c.gen.toNat, false, 0⟩).puts (atDie .e0)
        [(.MGT_CAL_STAT_ACTIVE, 1), (.MGT_CAL_STAT_NEXT, 1), (.MGT_CAL_STAT_GEN, c.gen.toNat)])) := by
  obtain ⟨hlocked, hloaded, hfail⟩ := h
  change execCalibrationApply true true (some c) s = _
  simp [execCalibrationApply, hlocked, hloaded, hfail, hc, natOf]

/-- Putting fields into MGT_CAL_STAT changes that register alone. -/
theorem keeps_calStat {L : List Reg} (hL : .MGT_CAL_STAT ∈ L) {s u : State} (h : s.keepsRegs L u) {l : List (Fld × Nat)}
    (hl : ∀ f ∈ l.map Prod.fst, f.reg = .MGT_CAL_STAT) : s.keepsRegs L (u.puts (atDie .e0) l) :=
  keeps_puts l (fun e he => by rw [hl e.1 (List.mem_map_of_mem he)]; exact hL) (atDie_code .e0) h

/-- From a state in which the keys are loaded, the entry of the calibration set and the fields of MGT_CAL_STAT leave LOADED set, and
every register but those two and every byte of memory as they were before the keys. -/
theorem calStat_frame {s u : State} (hkeys : s.keepsRegs [.PROT_KEY_STAT] u) (hheld : u.held = s.held)
    (hloaded : u.flag (atDie .e0) .PROT_KEY_STAT_LOADED = true) (c : Cal) {l : List (Fld × Nat)}
    (hl : ∀ f ∈ l.map Prod.fst, f.reg = .MGT_CAL_STAT) :
    ((u.setCal c).puts (atDie .e0) l).flag (atDie .e0) .PROT_KEY_STAT_LOADED = true ∧
    s.keepsRegs [.PROT_KEY_STAT, .MGT_CAL_STAT] ((u.setCal c).puts (atDie .e0) l) ∧ s.keepsMem ((u.setCal c).puts (atDie .e0) l) := by
  refine ⟨?loaded, ?regs, State.keepsMem_of_held (State.puts_held hheld)⟩
  case loaded =>
    have hkept : (u.setCal c).keepsRegs [.MGT_CAL_STAT] ((u.setCal c).puts (atDie .e0) l) :=
      keeps_calStat (by decide) (keeps_refl _ _) hl
    rwa [State.flag, State.get_of_keepsRegs hkept (atDie_code .e0) (by decide), State.get_of_regs (t := u.setCal c) rfl]
  case regs =>
    have hwider : s.keepsRegs [.PROT_KEY_STAT, .MGT_CAL_STAT] u :=
      fun a r ha hr => hkeys a r ha fun h => hr (List.mem_append_left _ h)
    exact keeps_calStat (by decide) (keeps_same (u := u.setCal c) hwider rfl) hl

theorem keysLoad_calStat_frame (s : State) (c : Cal) {l : List (Fld × Nat)} (hl : ∀ f ∈ l.map Prod.fst, f.reg = .MGT_CAL_STAT) :
    (((s.keysLoad true).setCal c).puts (atDie .e0) l).flag (atDie .e0) .PROT_KEY_STAT_LOADED = true ∧
    s.keepsRegs [.PROT_KEY_STAT, .MGT_CAL_STAT] (((s.keysLoad true).setCal c).puts (atDie .e0) l) ∧
    s.keepsMem (((s.keysLoad true).setCal c).puts (atDie .e0) l) :=
  calStat_frame (keysLoad_keeps s) (State.keysLoad_held rfl) (keysLoad_loaded s) c hl

/-- Settles O52: each clause is the equation of its command for that case, with the frame of the state that it leaves. -/
theorem accessCommandsRun : Obligations.AccessCommandsRun := by
  unfold Obligations.AccessCommandsRun
  refine ⟨?regWrite, ?regNone, ?regDown, ?regUnaligned, ?target, ?targetDown, ?targetBadEcc, ?noTarget, ?unknownOp, ?mgtAccess, ?mgtBurst,
    ?mgtMalformed, ?mgtBusy, ?wordDropped, ?wordReady, ?wordCut, ?wordIdle, ?mgtResult, ?bar0Word, ?bar0Bad, ?bar0Down, ?calNone,
    ?calBench, ?calUser, ?calIdle⟩
  case regWrite =>
    intro die offset value icls r a s hup hal hr hw
    exact exec_registerWrite (ctlWrite_reg hup hal hr hw value icls.toNat)
  case regNone =>
    intro die offset value icls s hup hal hr
    exact exec_registerWrite (ctlWrite_noReg hup hal hr value icls.toNat)
  case regDown =>
    intro die offset value icls s hup
    exact exec_registerWrite (ctlWrite_down hup _ value icls.toNat)
  case regUnaligned =>
    intro die offset value icls s hup hal
    exact exec_registerWrite (ctlWrite_unaligned hup hal value icls.toNat)
  case target =>
    intro r check badEcc t s hknown ht hdie hecc
    rw [exec_nocTargetRequest_target hknown ht, if_neg (not_answersDown hdie),
      if_neg (by rcases hecc with h | h <;> simp [h])]
  case targetDown =>
    intro r check badEcc t s hknown ht hcls hdown
    rw [exec_nocTargetRequest_target hknown ht, if_pos ⟨hcls, hdown⟩]
  case targetBadEcc =>
    intro r check t s hknown ht hdie htakes
    rw [exec_nocTargetRequest_target hknown ht, if_neg (not_answersDown hdie),
      if_pos (by simpa using htakes)]
  case noTarget =>
    intro r check badEcc s hknown ht
    exact exec_nocTargetRequest_noTarget hknown ht check badEcc s
  case unknownOp =>
    intro r check badEcc s hknown
    exact exec_nocTargetRequest_unknown hknown check badEcc s
  case mgtAccess =>
    intro addr data s hb hready hlocked
    have hlocked' : (s.mgtAccept false 0).clk.locked = true := hlocked
    constructor
    · rw [exec_mgtWrite, beq_self_eq_true, mgtSingle_accepted hb hready, mgtAccess_locked hlocked']; rfl
    · rw [exec_mgtRead, beq_self_eq_true, mgtSingle_accepted hb hready, mgtAccess_locked hlocked']; rfl
  case mgtBurst =>
    intro addr s hb hready
    exact ⟨_, exec_mgtBurst_accepted hb hready addr, rfl, rfl, rfl, rfl, State.keepsRegs_of_regs rfl _, State.keepsMem_of_held rfl⟩
  case mgtMalformed =>
    intro addr data s hb hready
    obtain ⟨hregs, hmem⟩ := mgtDiscard_frame s false
    refine ⟨s.mgtDiscard false, ?_, ?_, ?_, exec_mgtBurst_malformed hb hready addr true, rfl, rfl, mgtDiscard_frameErr s, hregs, hmem⟩
    · rw [exec_mgtWrite, mgtSingle_malformed hb hready _ _ _ (by decide)]
    · rw [exec_mgtWrite, mgtSingle_malformed hb hready _ _ _ (by decide)]
    · rw [exec_mgtRead, mgtSingle_malformed hb hready _ _ _ (by decide)]
  case mgtBusy =>
    intro addr data s hpower hb hready
    obtain ⟨hregs, hmem⟩ := mgtDiscard_frame s true
    refine ⟨s.mgtDiscard true, ?_, ?_, exec_mgtBurst_busy hpower hb hready addr true false, rfl, rfl, mgtDiscard_dropped s, hregs, hmem⟩
    · rw [exec_mgtWrite, mgtSingle_busy hpower hb hready]
    · rw [exec_mgtRead, mgtSingle_busy hpower hb hready]
  case wordDropped =>
    intro value s hb hready
    obtain ⟨hregs, hmem⟩ := keeps_mgtStat rfl (burstWord_dropped hready value)
    refine ⟨_, exec_mgtBurstWord_whole hb value, ?_, ?_, hregs, hmem⟩
    · rw [burstWord_dropped hready]; rfl
    · rw [burstWord_dropped hready]
      exact State.get_bump_self _ _ .MGT_STAT_DROPPED _ (by decide)
  case wordReady =>
    intro value s hb hready
    rw [exec_mgtBurstWord_whole hb, burstWord_ready hready]
  case wordCut =>
    intro value s hb hheld
    obtain ⟨hregs, hmem⟩ := keeps_mgtStat (s := s) (m := s.mgt) (f := .MGT_STAT_FRAME_ERR) (n := { s.mgt with
      frameErr := true, burst := false, done := s.mgt.burstHeld == 0, busy := s.mgt.burstHeld != 0 }) rfl rfl
    exact ⟨_, exec_mgtBurstWord_cut hb value, rfl, by simp [State.burstEnd, hheld], rfl, hregs, hmem⟩
  case wordIdle =>
    intro value bits ends s hb
    exact exec_mgtBurstWord_idle hb value bits ends
  case mgtResult =>
    intro s hpower
    exact ⟨_, exec_mgtResult hpower, rfl, rfl, rfl, State.keepsRegs_of_regs rfl _, State.keepsMem_of_held (State.emit_held rfl)⟩
  case bar0Word =>
    intro write offset value s hlink hal
    exact exec_bar0Access_word hlink hal write value
  case bar0Bad =>
    intro offset bytes value s hlink hbad
    exact ⟨_, exec_bar0Access_badWrite hlink hbad value, State.get_bump_self _ _ .MEM_PCI_STAT_BAR_ERR _ (by decide),
      keeps_bump (by decide) (atDie_code .e0) (keeps_refl _ s), State.keepsMem_of_held (State.bump_held rfl)⟩
  case bar0Down =>
    intro write offset bytes value s hlink
    exact exec_bar0Access_down hlink write offset bytes value
  case calNone =>
    intro flash s hlocked hloaded hfail
    obtain ⟨hkeys, hregs, hmem⟩ := keysLoad_calStat_frame s ⟨255, 0, true, 0⟩ (l := [(.MGT_CAL_STAT_ACTIVE, 0),
      (.MGT_CAL_STAT_NEXT, 0), (.MGT_CAL_STAT_NOFLASH, natOf (!flash)), (.MGT_CAL_STAT_GEN, 0)]) (by simp only [List.map]; decide)
    refine ⟨_, exec_calibrationApply_noCopy ⟨hlocked, hloaded, hfail⟩ flash, rfl, hkeys, ?_, ?_, hregs, hmem⟩
    · rw [State.flag, State.get_puts_first (by decide) (by simp only [List.map]; decide)]; rfl
    · rw [State.flag, State.puts_cons, State.puts_cons, State.get_puts_first (by decide) (by simp only [List.map]; decide)]
      cases flash <;> rfl
  case calBench =>
    intro c s hlocked hloaded hfail hbench
    obtain ⟨hkeys, hregs, hmem⟩ := keysLoad_calStat_frame s ⟨c.sector.toNat, c.gen.toNat, true, 0⟩ (l := [(.MGT_CAL_STAT_ACTIVE, 0),
      (.MGT_CAL_STAT_NEXT, 0), (.MGT_CAL_STAT_GEN, c.gen.toNat)]) (by simp only [List.map]; decide)
    refine ⟨_, exec_calibrationApply_bench ⟨hlocked, hloaded, hfail⟩ hbench, rfl, hkeys, ?_, hregs, hmem⟩
    rw [State.flag, State.get_puts_first (by decide) (by simp only [List.map]; decide)]; rfl
  case calUser =>
    intro c s hlocked hloaded hfail hbench
    exact exec_calibrationApply_user ⟨hlocked, hloaded, hfail⟩ hbench
  case calIdle =>
    intro flash keys copy s hidle
    exact exec_calibrationApply_idle hidle flash keys copy

end Sys2Proof.Machine
end

section
/-! What every command keeps of the queue and of memory (R42 to R44): each law of Laws/Held*.lean is about the meaning of one command, and
here the laws are put together along the dispatch, for every command and for every step. -/

namespace Sys2Proof.Machine

/-- A command that does not store answers a state with the same queue and the same memory. -/
theorem exec_held_of_not_mayStore {c : Instr} (hc : Instr.mayStore c = false) (s : State) : ∃ t, exec c s = .next t ∧ t.held = s.held := by
  cases c with
  | islandStart => exact execIslandStart_held rfl
  | dieResetRelease => exact execDieResetRelease_held rfl
  | ptpLockRequest => exact execPtpLockRequest_held rfl
  | unitArm => exact execUnitArm_held rfl
  | pendingSettingWrite => exact execPendingSettingWrite_held rfl
  | changeGo => exact execChangeGo_held rfl
  | changeCancel => exact execChangeCancel_held rfl
  | railContention => exact execRailContention_held rfl
  | railFlagClear => exact execRailFlagClear_held rfl
  | railClearAll => exact execRailClearAll_held rfl
  | bramRead => exact execBramRead_held rfl
  | bramWrite => exact execBramWrite_held rfl
  | bramNarrowWrite => exact execBramNarrowWrite_held rfl
  | flitArrival => exact execFlitArrival_held rfl
  | staleTagRelease => exact execStaleTagRelease_held rfl
  | fabricPortInitiatorRequest => exact execFabricPortInitiatorRequest_held rfl
  | fabricPortTargetResponse => exact execFabricPortTargetResponse_held rfl
  | snoopReceived => exact execSnoopReceived_held rfl
  | homeDownWalkStep => exact execHomeDownWalkStep_held rfl
  | dieCacheFlush => exact execDieCacheFlush_held rfl
  | weldFlitStart => exact execWeldFlitStart_held rfl
  | weldDataGroup => exact execWeldDataGroup_held rfl
  | weldControlGroup => exact execWeldControlGroup_held rfl
  | weldReplayRequest => exact execWeldReplayRequest_held rfl
  | weldReplayLimit => exact execWeldReplayLimit_held rfl
  | weldControlLoss => exact execWeldControlLoss_held rfl
  | weldReceiverLock => exact execWeldReceiverLock_held rfl
  | weldTrainingDone => exact execWeldTrainingDone_held rfl
  | retrain => exact execRetrain_held rfl
  | remap => exact execRemap_held rfl
  | commitMap => exact execCommitMap_held rfl
  | seamUnlock => exact execSeamUnlock_held rfl
  | seamRelock => exact execSeamRelock_held rfl
  | edgeTemperatureCheck => exact execEdgeTemperatureCheck_held rfl
  | cfgProgNLow => exact execCfgProgNLow_held rfl
  | flashSetupRecord => exact execFlashSetupRecord_held rfl
  | releaseStageWriteEnables => exact execReleaseStageWriteEnables_held rfl
  | cfgDone => exact execCfgDone_held rfl
  | cfgStat => exact execCfgStat_held rfl
  | idcode => exact execIdcode_held rfl
  | extest => exact execExtest_held rfl
  | samplePreload => exact execSamplePreload_held rfl
  | bypass => exact execBypass_held rfl
  | cfgRead => exact execCfgRead_held rfl
  | cfgReadCapture => exact execCfgReadCapture_held rfl
  | blankingDone => exact execBlankingDone_held rfl
  | parcelPowerDown => exact execParcelPowerDown_held rfl
  | parcelSwitchOpen => exact execParcelSwitchOpen_held rfl
  | parcelPowerUp => exact execParcelPowerUp_held rfl
  | parcelSupplyGood => exact execParcelSupplyGood_held rfl
  | captureRequest => exact execCaptureRequest_held rfl
  | captureResume => exact execCaptureResume_held rfl
  | prioLap => exact execPrioLap_held rfl
  | scrubberEnable => exact execScrubberEnable_held rfl
  | repairHeaderRead => exact execRepairHeaderRead_held rfl
  | repairPacketRead => exact execRepairPacketRead_held rfl
  | repairTimeout => exact execRepairTimeout_held rfl
  | hIdle => exact execHIdle_held rfl
  | hNop => exact execHNop_held rfl
  | hWaitStroke => exact execHWaitStroke_held rfl
  | hSync => exact execHSync_held rfl
  | hBkpt => exact execHBkpt_held rfl
  | hB => exact execHB_held rfl
  | hBc => exact execHBc_held rfl
  | hCall => exact execHCall_held rfl
  | hRet => exact execHRet_held rfl
  | hRti => exact execHRti_held rfl
  | hRpt => exact execHRpt_held rfl
  | hLoop => exact execHLoop_held rfl
  | hMovs => exact execHMovs_held rfl
  | hMov => exact execHMov_held rfl
  | hAdd => exact execHAdd_held rfl
  | hAdds => exact execHAdds_held rfl
  | hSub => exact execHSub_held rfl
  | hSubs => exact execHSubs_held rfl
  | hCmp => exact execHCmp_held rfl
  | hAnd => exact execHAnd_held rfl
  | hOr => exact execHOr_held rfl
  | hXor => exact execHXor_held rfl
  | hNot => exact execHNot_held rfl
  | hAsl => exact execHAsl_held rfl
  | hAsr => exact execHAsr_held rfl
  | hLsr => exact execHLsr_held rfl
  | hMin => exact execHMin_held rfl
  | hMax => exact execHMax_held rfl
  | hAbs => exact execHAbs_held rfl
  | hMovi => exact execHMovi_held rfl
  | hMovhi => exact execHMovhi_held rfl
  | hAluImmediate => exact execHAluImmediate_held rfl
  | hLd => exact execHLd_held rfl
  | hLdp => exact execHLdp_held rfl
  | hWld => exact execHWld_held rfl
  | hAld => exact execHAld_held rfl
  | hRnd => exact execHRnd_held rfl
  | hClra => exact execHClra_held rfl
  | hAdda => exact execHAdda_held rfl
  | hSuba => exact execHSuba_held rfl
  | hNega => exact execHNega_held rfl
  | hAsha => exact execHAsha_held rfl
  | hMvax => exact execHMvax_held rfl
  | hMvxa => exact execHMvxa_held rfl
  | hMac => exact execHMac_held rfl
  | hMac4 => exact execHMac4_held rfl
  | hDot4 => exact execHDot4_held rfl
  | hCmac => exact execHCmac_held rfl
  | hTng => exact execHTng_held rfl
  | hTwait => exact execHTwait_held rfl
  | hLdx => exact execHLdx_held rfl
  | interruptEntry => exact execInterruptEntry_held rfl
  | doorbell => exact execDoorbell_held rfl
  | tongsHostPost => exact execTongsHostPost_held rfl
  | tongsDescriptorComplete => exact execTongsDescriptorComplete_held rfl
  | tongsResume => exact execTongsResume_held rfl
  | tongsFlush => exact execTongsFlush_held rfl
  | coreReset => exact execCoreReset_held rfl
  | coreHold => exact execCoreHold_held rfl
  | coreWatchdogExpiry => exact execCoreWatchdogExpiry_held rfl
  | coreWatchdogKick => exact execCoreWatchdogKick_held rfl
  | coreWatchdogCtrlWrite => exact execCoreWatchdogCtrlWrite_held rfl
  | swdEnable => exact execSwdEnable_held rfl
  | swdKick => exact execSwdKick_held rfl
  | freezeSysWrite => exact execFreezeSysWrite_held rfl
  | dbgNonce => exact execDbgNonce_held rfl
  | nonceExpiry => exact execNonceExpiry_held rfl
  | lockoutExpiry => exact execLockoutExpiry_held rfl
  | dbgAccCapture => exact execDbgAccCapture_held rfl
  | crossTriggerFire => exact execCrossTriggerFire_held rfl
  | dbgStat => exact execDbgStat_held rfl
  | dbgKeyprog => exact execDbgKeyprog_held rfl
  | haltRequest => exact execHaltRequest_held rfl
  | breakpointMatch => exact execBreakpointMatch_held rfl
  | haltTakesEffect => exact execHaltTakesEffect_held rfl
  | debugRegWrite => exact execDebugRegWrite_held rfl
  | receiverDetect => exact execReceiverDetect_held rfl
  | signalDetectChange => exact execSignalDetectChange_held rfl
  | surveyFrameSend => exact execSurveyFrameSend_held rfl
  | surveyCapReceived => exact execSurveyCapReceived_held rfl
  | surveyStepReqReceived => exact execSurveyStepReqReceived_held rfl
  | surveyRateSwitch => exact execSurveyRateSwitch_held rfl
  | laneTrainingDone => exact execLaneTrainingDone_held rfl
  | surveyStepDoneReceived => exact execSurveyStepDoneReceived_held rfl
  | surveyHoldReceived => exact execSurveyHoldReceived_held rfl
  | laneTrainingTimeout => exact execLaneTrainingTimeout_held rfl
  | stepDoneTimeout => exact execStepDoneTimeout_held rfl
  | lanSilent => exact execLanSilent_held rfl
  | c73PageReceived => exact execC73PageReceived_held rfl
  | c73TimerFailure => exact execC73TimerFailure_held rfl
  | pcsLinkUp => exact execPcsLinkUp_held rfl
  | cdrLock => exact execCdrLock_held rfl
  | fixedRateTimeout => exact execFixedRateTimeout_held rfl
  | fomMeasurementDone => exact execFomMeasurementDone_held rfl
  | laneLockLoss => exact execLaneLockLoss_held rfl
  | recoverTimeout => exact execRecoverTimeout_held rfl
  | laneRestart => exact execLaneRestart_held rfl
  | laneAbort => exact execLaneAbort_held rfl
  | laneSleep => exact execLaneSleep_held rfl
  | laneWake => exact execLaneWake_held rfl
  | wakeBurstReceived => exact execWakeBurstReceived_held rfl
  | laneTxReenable => exact execLaneTxReenable_held rfl
  | laneMeasure => exact execLaneMeasure_held rfl
  | lanePllLock => exact execLanePllLock_held rfl
  | prbsGeneratorEnable => exact execPrbsGeneratorEnable_held rfl
  | prbsSnap => exact execPrbsSnap_held rfl
  | prbsClear => exact execPrbsClear_held rfl
  | lanPrbsThresh => exact execLanPrbsThresh_held rfl
  | prbsSyncLost => exact execPrbsSyncLost_held rfl
  | loopbackSelect => exact execLoopbackSelect_held rfl
  | rawWordFromFabric => exact execRawWordFromFabric_held rfl
  | rawWordReceived => exact execRawWordReceived_held rfl
  | rawFillWord => exact execRawFillWord_held rfl
  | recoveredClockEnable => exact execRecoveredClockEnable_held rfl
  | pfcFrameReceived => exact execPfcFrameReceived_held rfl
  | pauseFrameReceived => exact execPauseFrameReceived_held rfl
  | pauseTimeExpiry => exact execPauseTimeExpiry_held rfl
  | pfcRepeat => exact execPfcRepeat_held rfl
  | macMergeVerify => exact execMacMergeVerify_held rfl
  | lookupInsert => exact execLookupInsert_held rfl
  | lookupDelete => exact execLookupDelete_held rfl
  | lookupModify => exact execLookupModify_held rfl
  | lookupRead => exact execLookupRead_held rfl
  | lookupReadAt => exact execLookupReadAt_held rfl
  | lookupClearHits => exact execLookupClearHits_held rfl
  | lookupBulk => exact execLookupBulk_held rfl
  | lookupAbort => exact execLookupAbort_held rfl
  | stashMoveBack => exact execStashMoveBack_held rfl
  | queueConfigWrite => exact execQueueConfigWrite_held rfl
  | bufferPoolWrite => exact execBufferPoolWrite_held rfl
  | queueFlush => exact execQueueFlush_held rfl
  | queueFlushAbort => exact execQueueFlushAbort_held rfl
  | queueFlushDone => exact execQueueFlushDone_held rfl
  | deliveryRingTailWrite => exact execDeliveryRingTailWrite_held rfl
  | todSet => exact execTodSet_held rfl
  | todAdj => exact execTodAdj_held rfl
  | todIncrWrite => exact execTodIncrWrite_held rfl
  | todRead => exact execTodRead_held rfl
  | ppsEnable => exact execPpsEnable_held rfl
  | ppsPulse => exact execPpsPulse_held rfl
  | ppsPulseEnd => exact execPpsPulseEnd_held rfl
  | ppsInEdge => exact execPpsInEdge_held rfl
  | cmpJobPost => exact execCmpJobPost_held rfl
  | cmpJobStart => exact execCmpJobStart_held rfl
  | cmpJobFlush => exact execCmpJobFlush_held rfl
  | cxlPartnerDetect => exact execCxlPartnerDetect_held rfl
  | cxlLinkUp => exact execCxlLinkUp_held rfl
  | enableMem => exact execEnableMem_held rfl
  | cxlSizeWrite => exact execCxlSizeWrite_held rfl
  | cxlIoAccess => exact execCxlIoAccess_held rfl
  | cxlIoDone => exact execCxlIoDone_held rfl
  | cxlDeviceRequest => exact execCxlDeviceRequest_held rfl
  | cxlDetachWalkDone => exact execCxlDetachWalkDone_held rfl
  | ackDetach => exact execAckDetach_held rfl
  | cxlTxReenable => exact execCxlTxReenable_held rfl
  | init => exact execInit_held rfl
  | ddrInitDone => exact execDdrInitDone_held rfl
  | goReady => exact execGoReady_held rfl
  | srExit => exact execSrExit_held rfl
  | ddrModeRegisterWrite => exact execDdrModeRegisterWrite_held rfl
  | ddrTrainingCa => exact execDdrTrainingCa_held rfl
  | ddrTrainingWlvl => exact execDdrTrainingWlvl_held rfl
  | ddrTrainingRd => exact execDdrTrainingRd_held rfl
  | ddrTrainingWr => exact execDdrTrainingWr_held rfl
  | ddrTrainingAbort => exact execDdrTrainingAbort_held rfl
  | ddrTrainingStepDone => exact execDdrTrainingStepDone_held rfl
  | ddrRefresh => exact execDdrRefresh_held rfl
  | ddrMr4Poll => exact execDdrMr4Poll_held rfl
  | ddrDqsDriftCheck => exact execDdrDqsDriftCheck_held rfl
  | ddrPatrolRead => exact execDdrPatrolRead_held rfl
  | pcieLinkUp => exact execPcieLinkUp_held rfl
  | pcieLinkDown => exact execPcieLinkDown_held rfl
  | pcieTxReenable => exact execPcieTxReenable_held rfl
  | hostRingTailWrite => exact execHostRingTailWrite_held rfl
  | pcieCompletion => exact execPcieCompletion_held rfl
  | msixHoldoffExpiry => exact execMsixHoldoffExpiry_held rfl
  | hostRingResume => exact execHostRingResume_held rfl
  | protRightsWrite => exact execProtRightsWrite_held rfl
  | regionConfigWrite => exact execRegionConfigWrite_held rfl
  | regionInit => exact execRegionInit_held rfl
  | eccTestArm => exact execEccTestArm_held rfl
  | sourceReady => exact execSourceReady_held rfl
  | rcOscillatorCheck => exact execRcOscillatorCheck_held rfl
  | clockSwitch => exact execClockSwitch_held rfl
  | switchForced => exact execSwitchForced_held rfl
  | switchComplete => exact execSwitchComplete_held rfl
  | fabricPllUnlock => exact execFabricPllUnlock_held rfl
  | fabricPllRelock => exact execFabricPllRelock_held rfl
  | avsTimeout => exact execAvsTimeout_held rfl
  | avsError => exact execAvsError_held rfl
  | pmbusTransaction => exact execPmbusTransaction_held rfl
  | pmbusDone => exact execPmbusDone_held rfl
  | railWarningDip => exact execRailWarningDip_held rfl
  | railGood => exact execRailGood_held rfl
  | railDipRead => exact execRailDipRead_held rfl
  | temperatureSample => exact execTemperatureSample_held rfl
  | mgtBurst => exact execMgtBurst_held rfl
  | mgtResult => exact execMgtResult_held rfl
  | attnForceWrite => exact execAttnForceWrite_held rfl
  | userEventInput => exact execUserEventInput_held rfl
  | pmcClear => exact execPmcClear_held rfl
  | pmcFreeze => exact execPmcFreeze_held rfl
  | pmcCounterRead => exact execPmcCounterRead_held rfl
  | pmcOvf => exact execPmcOvf_held rfl
  | bwMonitorEnable => exact execBwMonitorEnable_held rfl
  | bwWindowEnd => exact execBwWindowEnd_held rfl
  | opsecSecond => exact execOpsecSecond_held rfl
  | fieldBookProgram => exact execFieldBookProgram_held rfl
  | fieldBookErase => exact execFieldBookErase_held rfl
  | fieldBookMount => exact execFieldBookMount_held rfl
  | recNote => exact execRecNote_held rfl
  | recRingRead => exact execRecRingRead_held rfl
  | flashSlotRead => exact execFlashSlotRead_held rfl
  | flashSlotReadDone => exact execFlashSlotReadDone_held rfl
  | saveUser => exact execSaveUser_held rfl
  | returnToBenchmark => exact execReturnToBenchmark_held rfl
  | mgtCalDone => exact execMgtCalDone_held rfl
  | pcieCompletionTimeout => exact execPcieCompletionTimeout_held rfl
  | prbsCheckerSync => exact execPrbsCheckerSync_held rfl
  | prbsCountSaturated => exact execPrbsCountSaturated_held rfl
  | flipFlopClockEdge => exact execFlipFlopClockEdge_held rfl
  | asyncSrAssert => exact execAsyncSrAssert_held rfl
  | multiplyClockEdge => exact execMultiplyClockEdge_held rfl
  | _ => cases hc

/-- A command that may store answers a state with the same queue, and keeps the canonical form of memory. -/
theorem exec_ok_of_mayStore {c : Instr} (hc : Instr.mayStore c = true) (s : State) : ∃ t, exec c s = .next t ∧ State.Ok s.held t := by
  cases c with
  | registerWrite => exact execRegisterWrite_ok ok_rfl
  | powerOnResetRelease => exact execPowerOnResetRelease_ok ok_rfl
  | dieResetRequest => exact execDieResetRequest_ok ok_rfl
  | dieClockLoss => exact execDieClockLoss_ok ok_rfl
  | stroke => exact execStroke_ok ok_rfl
  | unitApplyReport => exact execUnitApplyReport_ok ok_rfl
  | nocRequestIssue => exact execNocRequestIssue_ok ok_rfl
  | classXPacerRelease => exact execClassXPacerRelease_ok ok_rfl
  | nocTargetRequest => exact execNocTargetRequest_ok ok_rfl
  | nocResponseArrival => exact execNocResponseArrival_ok ok_rfl
  | nocTimeout => exact execNocTimeout_ok ok_rfl
  | dieCacheRequest => exact execDieCacheRequest_ok ok_rfl
  | homeDirectoryRequest => exact execHomeDirectoryRequest_ok ok_rfl
  | snoopAckArrival => exact execSnoopAckArrival_ok ok_rfl
  | dieCacheFlushDone => exact execDieCacheFlushDone_ok ok_rfl
  | fenceDrained => exact execFenceDrained_ok ok_rfl
  | nocFenceLimit => exact execNocFenceLimit_ok ok_rfl
  | weldRetrainDone => exact execWeldRetrainDone_ok ok_rfl
  | weldClockLockTimeout => exact execWeldClockLockTimeout_ok ok_rfl
  | weldPrbsDone => exact execWeldPrbsDone_ok ok_rfl
  | weldDeskewDone => exact execWeldDeskewDone_ok ok_rfl
  | cfgProgNRise => exact execCfgProgNRise_ok ok_rfl
  | loadPrimary => exact execLoadPrimary_ok ok_rfl
  | loadFallback => exact execLoadFallback_ok ok_rfl
  | acceptStream => exact execAcceptStream_ok ok_rfl
  | flashHeaderRead => exact execFlashHeaderRead_ok ok_rfl
  | loadPreparationDone => exact execLoadPreparationDone_ok ok_rfl
  | flashHeaderReread => exact execFlashHeaderReread_ok ok_rfl
  | entryTableReceived => exact execEntryTableReceived_ok ok_rfl
  | framePacket => exact execFramePacket_ok ok_rfl
  | frameReread => exact execFrameReread_ok ok_rfl
  | releaseStageOutputs => exact execReleaseStageOutputs_ok ok_rfl
  | releaseStageResets => exact execReleaseStageResets_ok ok_rfl
  | imageWindowWrite => exact execImageWindowWrite_ok ok_rfl
  | streamStallTimeout => exact execStreamStallTimeout_ok ok_rfl
  | cfgIn => exact execCfgIn_ok ok_rfl
  | testPortCfgCmd => exact execTestPortCfgCmd_ok ok_rfl
  | calibrationApply => exact execCalibrationApply_ok ok_rfl
  | partialLoadAbort => exact execPartialLoadAbort_ok ok_rfl
  | parcelBramCleared => exact execParcelBramCleared_ok ok_rfl
  | captureCopyDone => exact execCaptureCopyDone_ok ok_rfl
  | scrubFrameCheck => exact execScrubFrameCheck_ok ok_rfl
  | repairFrameWritten => exact execRepairFrameWritten_ok ok_rfl
  | hSt => exact execHSt_ok ok_rfl
  | hWst => exact execHWst_ok ok_rfl
  | hAsv => exact execHAsv_ok ok_rfl
  | hStx => exact execHStx_ok ok_rfl
  | hAtm => exact execHAtm_ok ok_rfl
  | tongsDescriptorStart => exact execTongsDescriptorStart_ok ok_rfl
  | systemWatchdogExpiry => exact execSystemWatchdogExpiry_ok ok_rfl
  | dbgAuth => exact execDbgAuth_ok ok_rfl
  | dbgAcc => exact execDbgAcc_ok ok_rfl
  | sessionEnd => exact execSessionEnd_ok ok_rfl
  | trstNLow => exact execTrstNLow_ok ok_rfl
  | debugResume => exact execDebugResume_ok ok_rfl
  | debugStep => exact execDebugStep_ok ok_rfl
  | frameReceived => exact execFrameReceived_ok ok_rfl
  | frameTransmit => exact execFrameTransmit_ok ok_rfl
  | bulkRecord => exact execBulkRecord_ok ok_rfl
  | deliveryRingFrame => exact execDeliveryRingFrame_ok ok_rfl
  | crossDieMove => exact execCrossDieMove_ok ok_rfl
  | cmpFrameProcess => exact execCmpFrameProcess_ok ok_rfl
  | cmpJobEnd => exact execCmpJobEnd_ok ok_rfl
  | cxlRequest => exact execCxlRequest_ok ok_rfl
  | cxlDeviceResponse => exact execCxlDeviceResponse_ok ok_rfl
  | cxlLinkLoss => exact execCxlLinkLoss_ok ok_rfl
  | detach => exact execDetach_ok ok_rfl
  | cxlDetachDrainEnd => exact execCxlDetachDrainEnd_ok ok_rfl
  | ddrRequest => exact execDdrRequest_ok ok_rfl
  | srEnter => exact execSrEnter_ok ok_rfl
  | ddrSrExitDone => exact execDdrSrExitDone_ok ok_rfl
  | bar0Access => exact execBar0Access_ok ok_rfl
  | hostRingRxFrame => exact execHostRingRxFrame_ok ok_rfl
  | hostRingTxFrame => exact execHostRingTxFrame_ok ok_rfl
  | protWalkDone => exact execProtWalkDone_ok ok_rfl
  | regionInitAbort => exact execRegionInitAbort_ok ok_rfl
  | regionInitDone => exact execRegionInitDone_ok ok_rfl
  | protBufferWriteback => exact execProtBufferWriteback_ok ok_rfl
  | eccScrubStep => exact execEccScrubStep_ok ok_rfl
  | sourceTrip => exact execSourceTrip_ok ok_rfl
  | freqWindowEnd => exact execFreqWindowEnd_ok ok_rfl
  | datumPllUnlock => exact execDatumPllUnlock_ok ok_rfl
  | datumPllLock => exact execDatumPllLock_ok ok_rfl
  | xtalEnable => exact execXtalEnable_ok ok_rfl
  | pwrVoltageGood => exact execPwrVoltageGood_ok ok_rfl
  | clockGateWrite => exact execClockGateWrite_ok ok_rfl
  | railBelowReset => exact execRailBelowReset_ok ok_rfl
  | mgtWrite => exact execMgtWrite_ok ok_rfl
  | mgtRead => exact execMgtRead_ok ok_rfl
  | mgtBurstWord => exact execMgtBurstWord_ok ok_rfl
  | cxlPartnerLeave => exact execCxlPartnerLeave_ok ok_rfl
  | configurationUpset => exact execConfigurationUpset_ok ok_rfl
  | memoryBitError => exact execMemoryBitError_ok ok_rfl
  | reservedEncoding => exact execReservedEncoding_ok ok_rfl
  | _ => cases hc

/-- Every command answers a state with the same queue, and keeps the canonical form of memory. -/
theorem exec_ok (c : Instr) (s : State) : ∃ t, exec c s = .next t ∧ State.Ok s.held t := by
  cases hc : Instr.mayStore c with
  | true => exact exec_ok_of_mayStore hc s
  | false => exact held_res_ok (exec_held_of_not_mayStore hc s) ok_rfl

theorem pending_mem_of_held {s t : State} (h : t.held = s.held) : t.pending = s.pending ∧ t.mem = s.mem := Prod.mk.injEq .. ▸ h

theorem step_nil {s : State} (h : s.pending = []) : step s = .next s.idle := by rw [step, h]

theorem step_cons {s : State} {c : Instr} {rest : List Instr} (h : s.pending = c :: rest) :
    step s = exec c (s.setPending rest) := by rw [step, h]

/-- Settles O54: a cycle with no command keeps queue and memory, and every command runs on the state with the queue's rest
(`exec_ok`). -/
theorem stepGoesOnAndKeepsMemoryCanonical : Obligations.StepGoesOnAndKeepsMemoryCanonical := by
  unfold Obligations.StepGoesOnAndKeepsMemoryCanonical
  intro s
  cases hq : s.pending with
  | nil =>
    obtain ⟨hpending, hmem⟩ := pending_mem_of_held (State.idle_held (s := s) rfl)
    refine ⟨s.idle, step_nil hq, hpending.trans hq, fun hwf => ?_⟩
    rwa [State.memCanonical, hmem]
  | cons c rest =>
    obtain ⟨t, hexec, hpending, hmem⟩ := exec_ok c (s.setPending rest)
    exact ⟨t, (step_cons hq).trans hexec, hpending, hmem⟩

/-- Settles O55, by the law of each command that does not store (`exec_held_of_not_mayStore`). -/
theorem onlyStoringCommandsChangeMemory : Obligations.OnlyStoringCommandsChangeMemory := by
  unfold Obligations.OnlyStoringCommandsChangeMemory
  intro c s hc
  obtain ⟨t, hexec, hheld⟩ := exec_held_of_not_mayStore hc s
  obtain ⟨hpending, hmem⟩ := pending_mem_of_held hheld
  exact ⟨t, hexec, hmem, hpending⟩

end Sys2Proof.Machine
end

section
/-! Power-up, the resets and losses of dies, the rails and the datum PLL's lock (R31 to R34, R41, R51, R499, R507, R512, R516). -/

namespace Sys2Proof.Machine

theorem keeps_of_subset {L M : List Reg} (hLM : ∀ r ∈ L, r ∈ M) {s t : State} (h : s.keepsRegs L t) : s.keepsRegs M t :=
  fun a r ha hr => h a r ha fun hL => hr (hLM r hL)

theorem State.reg_of_regs {s t : State} (h : t.regs = s.regs) (a : At) (r : Reg) : t.reg a r = s.reg a r := by
  unfold State.reg
  rw [h]

theorem State.flag_of_get {s : State} {a : At} {f : Fld} (h : s.get a f = 1) : s.flag a f = true := by rw [State.flag, h]; rfl

theorem foldl_clk {α : Type} {f : State → α → State} (hf : ∀ t a, (f t a).clk = t.clk) (l : List α) (s : State) :
    (l.foldl f s).clk = s.clk :=
  List.foldlRecOn (motive := fun t => t.clk = s.clk) l f rfl fun t ht a _ => (hf t a).trans ht

/-! ### The causes of a package power-on reset (R41) -/

/-- A word put into a register of several dies stands on each of them, and on the dies that held it before. -/
theorem reg_foldl_setReg {r : Reg} {w : Word} {d : Die} (l : List Die) {s : State} (h : s.reg (atDie d) r = w ∨ d ∈ l) :
    (l.foldl (fun s d => s.setReg (atDie d) r w) s).reg (atDie d) r = w := by
  induction l generalizing s with
  | nil => exact h.resolve_right List.not_mem_nil
  | cons e l ih =>
    apply ih
    by_cases hde : d = e
    · subst hde
      exact .inl (State.reg_setReg_self ..)
    · refine h.imp (fun hreg => ?_) fun hmem => (List.mem_cons.1 hmem).resolve_left hde
      rw [State.reg_setReg_ne s w fun hkey => atDie_ne hde (regKey_inj (atDie_code e) (atDie_code d) hkey).2, hreg]

theorem resetCause_reg (s : State) (bits : Nat) (d : Die) : (s.resetCause bits).reg (atDie d) .DIE_RST_CAUSE = BitVec.ofNat 32 bits :=
  reg_foldl_setReg Die.all (.inr (by cases d <;> decide))

theorem resetCause_keeps {L : List Reg} (hL : .DIE_RST_CAUSE ∈ L) {s t : State} (h : s.keepsRegs L t) (bits : Nat) :
    s.keepsRegs L (t.resetCause bits) := keeps_foldl (fun _ d _ ht => keeps_setReg hL (atDie_code d) ht) h

theorem resetCause_clk (s : State) (bits : Nat) : (s.resetCause bits).clk = s.clk :=
  foldl_clk (fun _ _ => rfl) Die.all s

/-- The state in which VAUX has become good and the management island has started. -/
def State.islandUp (s : State) : State := ((s.setClk { s.clk with power := 1 }).put (atSel .e0 0) .PWR_RAIL_STAT_GOOD 1).resetCause 3

theorem exec_islandStart {s : State} (h : s.clk.power = 0) : exec .islandStart s = .next s.islandUp :=
  congrArg Host.Outcome.next (if_pos h)

theorem islandUp_power (s : State) : s.islandUp.clk.power = 1 := congrArg Clk.power (resetCause_clk _ 3)

theorem islandUp_vauxGood (s : State) : s.islandUp.flag (atSel .e0 0) .PWR_RAIL_STAT_GOOD = true := by
  have hcause := resetCause_keeps (by decide) (keeps_refl [.DIE_RST_CAUSE]
    ((s.setClk { s.clk with power := 1 }).put (atSel .e0 0) .PWR_RAIL_STAT_GOOD 1)) 3
  exact State.flag_of_get
    ((State.get_of_keepsRegs hcause (atSel_code .e0 (by decide)) (by decide)).trans (State.get_put_self _ _ _ 1 (by decide)))

theorem islandUp_keeps (s : State) : s.keepsRegs [.PWR_RAIL_STAT, .DIE_RST_CAUSE] s.islandUp :=
  have hclk : s.keepsRegs [.PWR_RAIL_STAT, .DIE_RST_CAUSE] (s.setClk { s.clk with power := 1 }) := State.keepsRegs_of_regs rfl _
  resetCause_keeps (by decide) (keeps_put (by decide) (atSel_code .e0 (by decide)) hclk) 3

theorem islandUp_held (s : State) : s.islandUp.held = s.held := State.resetCause_held (State.put_held rfl)

/-! ### Requests for a DIE reset (R31, R33, R34) -/

/-- The bit of a die's index in DIE_RESET_REQ asks for that die and no other. -/
theorem die_filter_requested {d : Die} (hd : d ≠ .e0) :
    Die.all.filter (fun x => decide (x ≠ .e0 ∧ bitOf (BitVec.ofNat 8 (2 ^ d.idx)).toNat x.idx = true)) = [d] := by
  cases d
  case e0 => exact absurd rfl hd
  all_goals decide

theorem dieRequests_one {d : Die} (hd : d ≠ .e0) (debug : Bool) (s : State) :
    s.dieRequests 0x5D (BitVec.ofNat 8 (2 ^ d.idx)).toNat debug = s.dieRequest d (if debug then 36 else 4) := by
  have hfold := List.foldl_filter (p := fun x => decide (x ≠ Die.e0 ∧ bitOf (BitVec.ofNat 8 (2 ^ d.idx)).toNat x.idx = true))
    (f := fun (s : State) x => s.dieRequest x (if debug then 36 else 4)) (l := Die.all) (init := s)
  rw [die_filter_requested hd, List.foldl_cons, List.foldl_nil] at hfold
  simpa only [State.dieRequests, if_true, decide_eq_true_eq] using hfold.symm

theorem exec_dieResetRequest_otherKey {key : BitVec 8} (h : key ≠ 0x5D) (dies : BitVec 8) (debug : Bool) (s : State) :
    exec (.dieResetRequest key dies debug) s = .next s :=
  congrArg Host.Outcome.next (if_neg fun hkey => h (BitVec.eq_of_toNat_eq hkey))

theorem exec_dieResetRequest_one {d : Die} (hd : d ≠ .e0) (debug : Bool) (s : State) :
    exec (.dieResetRequest 0x5D (BitVec.ofNat 8 (2 ^ d.idx)) debug) s = .next (s.dieRequest d (if debug then 36 else 4)) :=
  congrArg Host.Outcome.next (dieRequests_one hd debug s)

theorem dieRequest_reset {s : State} {d : Die} (h : s.dieSt d = 0 ∨ s.dieSt d = 3) (bits : Nat) :
    s.dieRequest d bits = s.dieReset d bits false := if_neg (by omega)

theorem dieRequest_ignored {s : State} {d : Die} (h : s.dieSt d = 1 ∨ s.dieSt d = 2) (bits : Nat) :
    s.dieRequest d bits = s.setBit (atDie .e0) .DIE_STATE_IGNORED d.idx := if_pos h

theorem bitOf_eq_testBit (n k : Nat) : bitOf n k = n.testBit k := by
  rw [Nat.testBit_eq_decide_div_mod_eq]
  rfl

theorem State.bit_setBit_self (s : State) (a : At) {f : Fld} {k : Nat} (hf : f.lo + f.width ≤ 32) (hk : k < f.width) :
    (s.setBit a f k).bit a f k = true := by
  rw [State.bit, State.setBit, State.get_put_self _ _ _ _ hf, bitOf_eq_testBit]
  simp [hk]

/-! ### The rails (R512, R513, R515) -/

theorem railSample_mv (s : State) (rail : Fin 29) (mv : Nat) :
    (s.railSample rail mv).get (atSel .e0 rail) .PWR_RAIL_STAT_MV = mv % 2 ^ 12 := by
  have hcode : (atSel .e0 rail).code < 2 ^ 44 := atSel_code .e0 (by omega)
  exact (get_put_of_ne _ _ (by decide) hcode hcode).trans (State.get_put_self _ _ .PWR_RAIL_STAT_MV mv (by decide))

theorem railSample_keeps {L : List Reg} (hL : ∀ r ∈ [Reg.PWR_RAIL_STAT, .PWR_RAIL_DIP], r ∈ L) {s t : State} (h : s.keepsRegs L t)
    {rail : Nat} (hr : rail < 29) (mv : Nat) : s.keepsRegs L (t.railSample rail mv) :=
  have hcode := atSel_code .e0 (Nat.lt_trans hr (by decide))
  keeps_put (hL _ (by decide)) hcode (keeps_put (hL _ (by decide)) hcode h)

/-- The rail's flags after its monitor has put them; the voltage that it shows stays. -/
theorem railFlags_read (s : State) (rail good warn : Nat) :
    let t := s.puts (atSel .e0 rail) [(.PWR_RAIL_STAT_GOOD, good), (.PWR_RAIL_STAT_WARN, warn)]
    t.get (atSel .e0 rail) .PWR_RAIL_STAT_GOOD = good % 2 ∧ t.get (atSel .e0 rail) .PWR_RAIL_STAT_WARN = warn % 2 ∧
    t.get (atSel .e0 rail) .PWR_RAIL_STAT_MV = s.get (atSel .e0 rail) .PWR_RAIL_STAT_MV := by
  refine ⟨State.get_puts_first (by decide) (by simp only [List.map]; decide) s, ?_,
    State.get_puts_beside _ (by simp only [List.map]; decide) s⟩
  rw [State.puts_cons, State.get_puts_first (by decide) (by decide)]
  rfl

theorem railFlags_keeps {L : List Reg} (hL : .PWR_RAIL_STAT ∈ L) {s t : State} (h : s.keepsRegs L t) {rail : Nat} (hr : rail < 29)
    (good warn : Nat) : s.keepsRegs L (t.puts (atSel .e0 rail) [(.PWR_RAIL_STAT_GOOD, good), (.PWR_RAIL_STAT_WARN, warn)]) :=
  have hcode := atSel_code .e0 (Nat.lt_trans hr (by decide))
  keeps_put hL hcode (keeps_put hL hcode h)

/-- The state in which a rail's monitor has seen it stay above its warning threshold. -/
def State.railUp (s : State) (rail : Fin 29) (mv : BitVec 12) : State :=
  (s.railSample rail mv.toNat).puts (atSel .e0 rail) [(.PWR_RAIL_STAT_GOOD, 1), (.PWR_RAIL_STAT_WARN, 0)]

/-- The state in which a rail's monitor has seen it stay below its reset threshold. -/
def State.railLow (s : State) (rail : Fin 29) (min mv : BitVec 12) : State :=
  ((s.railSample rail min.toNat).railSample rail mv.toNat).puts (atSel .e0 rail) [(.PWR_RAIL_STAT_GOOD, 0), (.PWR_RAIL_STAT_WARN, 1)]

/-- The state in which a rail's return has reached the die that it holds in reset. -/
def State.railBack (s : State) (rail : Fin 29) (mv : BitVec 12) : State :=
  if 2 ≤ rail.val ∧ rail.val ≤ 8 then (s.railUp rail mv).railReturn (Die.ofIdx (rail - 1)) else s.railUp rail mv

theorem exec_railGood {s : State} (h : s.clk.power ≠ 0) (rail : Fin 29) (mv : BitVec 12) :
    exec (.railGood rail mv) s = .next (s.railBack rail mv) :=
  congrArg Host.Outcome.next (if_neg h)

theorem railUp_reads (s : State) (rail : Fin 29) (mv : BitVec 12) :
    (s.railUp rail mv).get (atSel .e0 rail) .PWR_RAIL_STAT_GOOD = 1 ∧ (s.railUp rail mv).get (atSel .e0 rail) .PWR_RAIL_STAT_WARN = 0 ∧
    (s.railUp rail mv).get (atSel .e0 rail) .PWR_RAIL_STAT_MV = mv.toNat := by
  obtain ⟨hgood, hwarn, hmv⟩ := railFlags_read (s.railSample rail mv.toNat) rail 1 0
  exact ⟨hgood, hwarn, hmv.trans ((railSample_mv s rail mv.toNat).trans (Nat.mod_eq_of_lt mv.isLt))⟩

theorem railUp_keeps (s : State) (rail : Fin 29) (mv : BitVec 12) : s.keepsRegs [.PWR_RAIL_STAT, .PWR_RAIL_DIP] (s.railUp rail mv) :=
  railFlags_keeps (by decide) (railSample_keeps (fun _ => id) (keeps_refl _ s) rail.isLt _) rail.isLt 1 0

theorem railUp_held (s : State) (rail : Fin 29) (mv : BitVec 12) : (s.railUp rail mv).held = s.held :=
  State.puts_held (State.railSample_held rfl)

/-- A die that its rail does not hold in reset sees nothing of the rail's return. -/
theorem railReturn_idle {s : State} {d : Die} (h : Tbl.get 0 s.dieStep d.idx ≠ 6) : s.railReturn d = s := if_neg h

theorem railReturn_fab {s : State} {d : Die} (h : Tbl.get 0 s.dieStep d.idx = 6) (hd : d.isFab = true) :
    s.railReturn d = (s.setDieStep (Tbl.set s.dieStep d.idx 1)).avsWrite d 750 := by
  simp only [State.railReturn, h, hd, if_true]

theorem avsWrite_regs (s : State) (d : Die) (mv : Nat) : (s.avsWrite d mv).regs =
    ((s.put (atDie d) .PWR_PL_STAT_VREQ mv).put (atDie d) .PWR_PL_STAT_SEQ 1).regs := rfl

theorem avsWrite_keeps {L : List Reg} (hL : .PWR_PL_STAT ∈ L) {s t : State} (h : s.keepsRegs L t) (d : Die) (mv : Nat) :
    s.keepsRegs L (t.avsWrite d mv) :=
  keeps_same (keeps_put hL (atDie_code d) (keeps_put hL (atDie_code d) h)) (avsWrite_regs t d mv)

theorem railReturn_keeps (s : State) (d : Die) : s.keepsRegs [.PWR_PL_STAT] (s.railReturn d) := by
  unfold State.railReturn
  split
  · split
    · exact avsWrite_keeps (by decide) (State.keepsRegs_of_regs rfl _) d 750
    · exact State.keepsRegs_of_regs rfl _
  · exact keeps_refl _ s

theorem railBack_keeps (s : State) (rail : Fin 29) (mv : BitVec 12) :
    (s.railUp rail mv).keepsRegs [.PWR_PL_STAT] (s.railBack rail mv) := by
  unfold State.railBack
  split
  · exact railReturn_keeps _ _
  · exact keeps_refl _ _

theorem railBack_held (s : State) (rail : Fin 29) (mv : BitVec 12) : (s.railBack rail mv).held = s.held :=
  ite_h (fun _ => State.railReturn_held (railUp_held s rail mv)) fun _ => railUp_held s rail mv

/-- The rails of the dies' cores follow the dies' indices. -/
theorem idx_ofIdx_of_coreRail : ∀ rail : Fin 29, 2 ≤ rail.val ∧ rail.val ≤ 8 → (Die.ofIdx (rail - 1)).idx = rail - 1 := by decide

theorem railBack_idle {s : State} {rail : Fin 29} (h : rail.val < 2 ∨ 8 < rail.val ∨ Tbl.get 0 s.dieStep (rail - 1) ≠ 6)
    (mv : BitVec 12) : s.railBack rail mv = s.railUp rail mv := by
  unfold State.railBack
  split
  case isTrue hrail =>
    refine railReturn_idle ?_
    rw [idx_ofIdx_of_coreRail rail hrail]
    exact (h.resolve_left (by omega)).resolve_left (by omega)
  case isFalse => rfl

/-- The regulator's status after a voltage has been written to it. -/
theorem avsWrite_reads (s : State) (d : Die) (mv : Nat) : (s.avsWrite d mv).get (atDie d) .PWR_PL_STAT_VREQ = mv % 2 ^ 12 ∧
    (s.avsWrite d mv).flag (atDie d) .PWR_PL_STAT_SEQ = true := by
  constructor
  · rw [State.get_of_regs (avsWrite_regs s d mv), State.get_put_field _ _ .PWR_PL_STAT_SEQ .PWR_PL_STAT_VREQ _ rfl (by decide),
      State.get_put_self _ _ _ _ (by decide)]
    rfl
  · exact State.flag_of_get ((State.get_of_regs (avsWrite_regs s d mv) _ _).trans (State.get_put_self _ _ _ 1 (by decide)))

theorem avsWrite_otherDie (s : State) {d e : Die} (h : e ≠ d) (mv : Nat) (r : Reg) :
    (s.avsWrite d mv).reg (atDie e) r = s.reg (atDie e) r := by
  have hput (t : State) (f : Fld) (v : Nat) : (t.put (atDie d) f v).reg (atDie e) r = t.reg (atDie e) r :=
    reg_put_at_ne t v (atDie_ne h) (atDie_code d) (atDie_code e)
  rw [State.reg_of_regs (avsWrite_regs s d mv), hput, hput]

/-- The core rail of a fabric die is one of those whose return concerns a die, and that die is its own. -/
theorem coreRail_of_fab (die : FDie) : (2 ≤ (Fin.ofNat 29 (coreRail die.die)).val ∧ (Fin.ofNat 29 (coreRail die.die)).val ≤ 8) ∧
    Die.ofIdx (Fin.ofNat 29 (coreRail die.die) - 1) = die.die ∧ die.die.isFab = true := by
  cases die <;> decide

theorem exec_railGood_fab {s : State} (hp : s.clk.power ≠ 0) {die : FDie} (h : Tbl.get 0 s.dieStep die.die.idx = 6) (mv : BitVec 12) :
    exec (.railGood (Fin.ofNat 29 (coreRail die.die)) mv) s =
      .next (((s.railUp (Fin.ofNat 29 (coreRail die.die)) mv).setDieStep (Tbl.set s.dieStep die.die.idx 1)).avsWrite die.die 750) := by
  obtain ⟨hrail, hdie, hfab⟩ := coreRail_of_fab die
  rw [exec_railGood hp, State.railBack, if_pos hrail, hdie]
  exact congrArg Host.Outcome.next (railReturn_fab h hfab)

theorem railLow_reads (s : State) (rail : Fin 29) (min mv : BitVec 12) :
    (s.railLow rail min mv).get (atSel .e0 rail) .PWR_RAIL_STAT_GOOD = 0 ∧
    (s.railLow rail min mv).get (atSel .e0 rail) .PWR_RAIL_STAT_WARN = 1 := by
  obtain ⟨hgood, hwarn, -⟩ := railFlags_read ((s.railSample rail min.toNat).railSample rail mv.toNat) rail 0 1
  exact ⟨hgood, hwarn⟩

theorem railLow_keeps {L : List Reg} (hL : ∀ r ∈ [Reg.PWR_RAIL_STAT, .PWR_RAIL_DIP], r ∈ L) (s : State) (rail : Fin 29)
    (min mv : BitVec 12) : s.keepsRegs L (s.railLow rail min mv) :=
  railFlags_keeps (hL _ (by decide)) (railSample_keeps hL (railSample_keeps hL (keeps_refl _ s) rail.isLt _) rail.isLt _) rail.isLt 0 1

theorem railLow_held (s : State) (rail : Fin 29) (min mv : BitVec 12) : (s.railLow rail min mv).held = s.held :=
  State.puts_held (State.railSample_held (State.railSample_held rfl))

theorem exec_railBelowReset {s : State} {rail : Fin 29} (hp : s.clk.power ≠ 0)
    (h : s.flag (atSel .e0 rail) .PWR_RAIL_STAT_GOOD = true) (min mv : BitVec 12) : exec (.railBelowReset rail min mv) s = .next (
      let t := if rail = 0 then s.railLow rail min mv
        else (s.railLow rail min mv).raise .e0 Ev.PWR_RAIL_RESET (rail + min.toNat * 2 ^ 8)
      if t.clk.power = 2 ∨ rail = 0 then t.railAction rail else t) :=
  congrArg Host.Outcome.next (if_neg (by simp [hp, h]))

/-- While the package is held in its power-on reset a low rail is reported and does no more (R516). -/
theorem exec_railBelowReset_held {s : State} {rail : Fin 29} (hp : s.clk.power = 1) (hr : rail ≠ 0)
    (h : s.flag (atSel .e0 rail) .PWR_RAIL_STAT_GOOD = true) (min mv : BitVec 12) : exec (.railBelowReset rail min mv) s =
      .next ((s.railLow rail min mv).raise .e0 Ev.PWR_RAIL_RESET (rail + min.toNat * 2 ^ 8)) := by
  have hraise := Raised.clk_eq (State.raise_raised (s.railLow rail min mv) .e0 (loc := Ev.PWR_RAIL_RESET) (rail + min.toNat * 2 ^ 8)
    (by decide))
  have hlow : (s.railLow rail min mv).clk = s.clk := rfl
  rw [exec_railBelowReset (by omega) h]
  simp only [hr, if_false, or_false, hraise, hlow, hp]
  rfl

/-! ### The loss of VAUX (R41, R512) -/

theorem setWeld_clk (s : State) (d : Die) (ch : Nat) (w : WeldEnd) : (s.setWeld d ch w).clk = s.clk := rfl

theorem otpKept_clk (s old : State) : (s.otpKept old).clk = s.clk := by
  refine (foldl_clk (fun t n => ?_) _ _).trans ?_
  · split
    · rfl
    · rfl
  · change (old.welds.foldl _ s).clk = s.clk
    refine foldl_clk ?_ _ s
    exact fun t _ => setWeld_clk t _ _ _

theorem exec_railBelowReset_vaux {s : State} (hp : s.clk.power ≠ 0) (h : s.flag (atSel .e0 0) .PWR_RAIL_STAT_GOOD = true)
    (min mv : BitVec 12) : exec (.railBelowReset 0 min mv) s = .next (s.railLow 0 min mv).vauxLost := by
  rw [exec_railBelowReset (rail := 0) hp h]
  simp only [or_true, if_true]
  rfl

theorem vauxLost_mem (s : State) : s.vauxLost.mem = [] := by
  obtain ⟨-, hmem⟩ := pending_mem_of_held (State.otpKept_held (old := s) rfl)
  exact hmem

theorem vauxLost_clk (s : State) : s.vauxLost.clk = State.reset.clk := otpKept_clk _ s

/-- Settles O8, clause by clause from the laws of the commands above. -/
theorem dieCommandsRun : Obligations.DieCommandsRun := by
  unfold Obligations.DieCommandsRun
  refine ⟨?island, ?release, ?otherKey, ?request, ?ignored, ?dieRelease, ?clockLoss, ?railGood, ?coreRailGood, ?railLow, ?vaux, ?voltage,
    ?firstLock, ?relock⟩
  case island =>
    intro s hpower
    exact ⟨s.islandUp, exec_islandStart hpower, islandUp_power s, islandUp_vauxGood s, fun d => resetCause_reg _ 3 d, islandUp_keeps s,
      State.keepsMem_of_held (islandUp_held s)⟩
  case release =>
    rintro mode pull s u hpower hrails hprog rfl
    exact congrArg Host.Outcome.next (if_pos ⟨hpower, hrails, hprog⟩)
  case otherKey =>
    intro key dies debug s hkey
    exact exec_dieResetRequest_otherKey hkey dies debug s
  case request =>
    intro d debug s hd hst
    rw [exec_dieResetRequest_one hd, dieRequest_reset hst]
  case ignored =>
    intro d debug s hd hst
    refine ⟨_, (exec_dieResetRequest_one hd debug s).trans (congrArg _ (dieRequest_ignored hst _)), ?_, ?_, ?_⟩
    · exact State.bit_setBit_self s _ (by decide) (Die.idx_lt d)
    · exact keeps_setBit (by decide) (atDie_code .e0) (keeps_refl _ s)
    · exact State.keepsMem_of_held (State.setBit_held rfl)
  case dieRelease =>
    intro d s hst hgood hseq
    exact congrArg Host.Outcome.next (if_pos ⟨hst, hgood, hseq⟩)
  case clockLoss =>
    intro d s hd hlocked hst hgood
    exact congrArg Host.Outcome.next (if_pos ⟨hd, hlocked, hst, hgood⟩)
  case railGood =>
    intro rail mv s hpower
    obtain ⟨hgood, hwarn, hmv⟩ := railUp_reads s rail mv
    have hup := railUp_keeps s rail mv
    have hback := railBack_keeps s rail mv
    have hget (f : Fld) (hf : f.reg = .PWR_RAIL_STAT) : (s.railBack rail mv).get (atSel .e0 rail) f =
        (s.railUp rail mv).get (atSel .e0 rail) f :=
      State.get_of_keepsRegs hback (atSel_code .e0 (by omega)) (by rw [hf]; decide)
    refine ⟨_, exec_railGood hpower rail mv, (hget _ rfl).trans hgood, (hget _ rfl).trans hwarn, (hget _ rfl).trans hmv, ?_, ?_, ?_⟩
    · exact keeps_trans (keeps_of_subset (by decide) hup) (keeps_of_subset (by decide) hback)
    · intro hidle
      rw [railBack_idle hidle]
      exact ⟨rfl, hup⟩
    · exact State.keepsMem_of_held (railBack_held s rail mv)
  case coreRailGood =>
    intro die mv s hpower hstep
    obtain ⟨hvreq, hseq⟩ := avsWrite_reads ((s.railUp (Fin.ofNat 29 (coreRail die.die)) mv).setDieStep
      (Tbl.set s.dieStep die.die.idx 1)) die.die 750
    refine ⟨_, exec_railGood_fab hpower hstep mv, Tbl.get_set_self .., hvreq, hseq, fun d hd => ?_, ?_⟩
    · rw [avsWrite_otherDie _ hd]
      exact railUp_keeps s _ mv (atDie d) .PWR_PL_STAT (atDie_code d) (by decide)
    · exact State.keepsMem_of_held (State.avsWrite_held (State.setDieStep_held (railUp_held s (Fin.ofNat 29 (coreRail die.die)) mv)))
  case railLow =>
    intro rail min mv s hpower hrail hgood
    obtain ⟨hlow, hwarn⟩ := railLow_reads s rail min mv
    refine ⟨_, exec_railBelowReset_held hpower hrail hgood min mv, ?_, ?_, ?_, ?_⟩
    · rw [State.raise_get _ _ _ (by decide) (by decide) (atSel_code .e0 (by omega)), hlow]
    · rw [State.raise_get _ _ _ (by decide) (by decide) (atSel_code .e0 (by omega)), hwarn]
    · exact keeps_raise (fun r hr => by simp [hr]) (by decide) (railLow_keeps (by simp) s rail min mv)
    · exact State.keepsMem_of_held (State.raise_held (railLow_held s rail min mv))
  case vaux =>
    intro min mv s hpower hgood
    exact ⟨_, exec_railBelowReset_vaux hpower hgood min mv, vauxLost_mem _, vauxLost_clk _⟩
  case voltage =>
    intro die s hseq
    exact congrArg Host.Outcome.next (if_pos hseq)
  case firstLock =>
    rintro s u hpower hlocked hready rfl
    exact congrArg Host.Outcome.next (if_pos ⟨hpower, hlocked, hready⟩)
  case relock =>
    intro s hlocked hrelocks
    exact congrArg Host.Outcome.next ((if_neg (by simp [hlocked])).trans (if_pos hrelocks))

end Sys2Proof.Machine
end

section
/-! Unit slots and the armed change (R61 to R66, R143): what arming a slot, disarming it and a GO leave in the registers. -/

namespace Sys2Proof.Machine

/-! ### A slot that is disarmed (R62, R508, R509) -/

theorem bitOf_sub_two_pow {n k : Nat} (h : bitOf n k = true) : bitOf (n - 2 ^ k) k = false := by
  have hodd : n / 2 ^ k % 2 = 1 := beq_iff_eq.1 h
  have hdiv := Nat.sub_mul_div n (2 ^ k) 1
  rw [Nat.mul_one] at hdiv
  simp only [bitOf, hdiv, beq_eq_false_iff_ne]
  omega

theorem State.bit_clrBit_self (s : State) (a : At) {f : Fld} (k : Nat) (hf : f.lo + f.width ≤ 32) :
    (s.clrBit a f k).bit a f k = false := by
  unfold State.clrBit
  split
  case isTrue hset =>
    have hlt : s.get a f - 2 ^ k < 2 ^ f.width := Nat.lt_of_le_of_lt (Nat.sub_le ..) (Fld.of_lt f _)
    rw [State.bit, State.get_put_self s a f _ hf, Nat.mod_eq_of_lt hlt]
    exact bitOf_sub_two_pow hset
  case isFalse hclear => simpa using hclear

theorem armBit_of_keepsRegs {L : List Reg} {s t : State} (h : s.keepsRegs L t) (hL : .STK_UNIT_CTRL ∉ L) (d : Die) (slot : Nat) :
    t.armBit d slot = s.armBit d slot := by
  rw [State.armBit, State.bit, State.get_of_keepsRegs h (atDie_code d) hL]
  rfl

/-- The registers that a level sequencer may change: its own status, and those of an event. -/
def levelRegs : List Reg := .PWR_PL_STAT :: eventRegs

theorem levelSync_keeps (s : State) (d : Die) : s.keepsRegs levelRegs (s.levelSync d) := by
  unfold State.levelSync
  split
  · split
    · have hneighbour : s.keepsRegs levelRegs (s.put (atDie d) .PWR_PL_STAT_NEIGHBOUR 1) :=
        keeps_put (by decide) (atDie_code d) (keeps_refl _ s)
      dsimp only
      split
      · exact hneighbour
      · exact keeps_raise (by decide) (by decide) (keeps_same hneighbour rfl)
    · split
      · exact avsWrite_keeps (by decide) (keeps_refl _ s) d _
      · exact keeps_refl _ s
  · exact keeps_refl _ s

theorem levelsSync_keeps (s : State) : s.keepsRegs levelRegs s.levelsSync :=
  keeps_foldl (fun t d _ ht => keeps_trans ht (levelSync_keeps t d)) (keeps_refl _ s)

theorem levelBack_keeps (s : State) (d : Die) : s.keepsRegs levelRegs (s.levelBack d) := by
  unfold State.levelBack
  dsimp only
  split
  · exact avsWrite_keeps (by decide) (keeps_refl _ s) d _
  · exact keeps_refl _ s

/-- Disarming a slot clears its ARM bit, and what the level sequencers do about it does not set it again. -/
theorem disarm_armBit (s : State) (d : Die) (slot : Nat) : (s.disarm d slot).armBit d slot = false := by
  have hcleared : (s.clrBit (atDie d) .STK_UNIT_CTRL_ARM slot).armBit d slot = false := State.bit_clrBit_self s _ slot (by decide)
  unfold State.disarm
  split
  case isTrue harmed =>
    dsimp only
    split
    · have hlevels := keeps_trans (levelBack_keeps (s.clrBit (atDie d) .STK_UNIT_CTRL_ARM slot) d) (levelsSync_keeps _)
      exact (armBit_of_keepsRegs hlevels (by decide) d slot).trans hcleared
    · exact hcleared
  case isFalse hidle => simpa using hidle

theorem pendWrite_armBit {s : State} {d : Die} (hup : s.up d = true) (slot : Nat) (a : At) (r : Reg) (v : Word) :
    (s.pendWrite d slot a r v).armBit d slot = false := by
  rw [State.pendWrite, if_pos hup]
  exact disarm_armBit _ d slot

/-! ### A GO that finds a change open (R66) -/

theorem exec_changeGo_open {s : State} (h : s.chgSt ≠ 0) :
    exec .changeGo s = .next (s.put (atDie .e0) .STK_CHG_STATUS_GO_IGNORED 1) :=
  congrArg Host.Outcome.next (if_neg h)

/-- Settles O10: a GO that is ignored puts GO_IGNORED alone, and a write to a pending setting disarms its unit. -/
theorem goAndPendingWritesWhileArmedOrOpen : Obligations.GoAndPendingWritesWhileArmedOrOpen := by
  unfold Obligations.GoAndPendingWritesWhileArmedOrOpen
  refine ⟨?go, ?pending⟩
  case go =>
    intro s hopen
    have hbeside {f : Fld} (hreg : f.reg = .STK_CHG_STATUS) (hapart : 8 ≤ f.lo ∨ f.lo + f.width ≤ 7) :
        (s.put (atDie .e0) .STK_CHG_STATUS_GO_IGNORED 1).get (atDie .e0) f = s.get (atDie .e0) f :=
      State.get_put_field s _ .STK_CHG_STATUS_GO_IGNORED f 1 hreg hapart
    refine ⟨_, exec_changeGo_open hopen, State.flag_of_get (State.get_put_self s _ _ 1 (by decide)), hbeside rfl (by decide),
      hbeside rfl (by decide), hbeside rfl (by decide), rfl, ?_, ?_⟩
    · exact keeps_put (by decide) (atDie_code .e0) (keeps_refl _ s)
    · exact State.keepsMem_of_held (State.put_held rfl)
  case pending =>
    intro place v s hup _
    cases place with
    | level d => exact ⟨_, rfl, pendWrite_armBit hup ..⟩
    | timing => exact ⟨_, rfl, pendWrite_armBit hup ..⟩
    | quad d q => exact ⟨_, rfl, pendWrite_armBit hup ..⟩
    | weight d q => exact ⟨_, rfl, pendWrite_armBit hup ..⟩
    | group d p k => exact ⟨_, rfl, pendWrite_armBit hup ..⟩

/-! ### A stroke period that the reservation table in force does not allow (R61, R143) -/

/-- Functions that agree on a list pick the same from it. -/
theorem filterMap_of_agree {α β : Type} {f g : α → Option β} {l : List α} (h : ∀ x ∈ l, f x = g x) : l.filterMap f = l.filterMap g := by
  induction l with
  | nil => rfl
  | cons x l ih =>
    obtain ⟨hx, hl⟩ := List.forall_mem_cons.1 h
    rw [List.filterMap_cons, List.filterMap_cons, hx, ih hl]

theorem xFits_of_keepsRegs {L : List Reg} {s t : State} (h : s.keepsRegs L t) (hlo : .NOC_XRES_LO ∉ L) (hhi : .NOC_XRES_HI ∉ L)
    (period : Nat) : t.xFits period = s.xFits period := by
  have htable (d : Die) : t.xTable d = s.xTable d := by
    unfold State.xTable
    refine filterMap_of_agree fun e he => ?_
    have hcode : (atSel d e).code < 2 ^ 44 := atSel_code d (Nat.lt_trans (List.mem_range.1 he) (by decide))
    have hget {f : Fld} (hf : f.reg ∉ L) : t.get (atSel d e) f = s.get (atSel d e) f := State.get_of_keepsRegs h hcode hf
    have hvalid : t.flag (atSel d e) .NOC_XRES_HI_VALID = s.flag (atSel d e) .NOC_XRES_HI_VALID := congrArg (· == 1) (hget hhi)
    dsimp only
    rw [hvalid, hget (f := .NOC_XRES_LO_INIT) hlo, hget (f := .NOC_XRES_LO_TGT) hlo, hget (f := .NOC_XRES_HI_RD) hhi,
      hget (f := .NOC_XRES_HI_WR) hhi, hget (f := .NOC_XRES_HI_AT) hhi]
  rw [State.xFits, State.xAll, funext htable]
  rfl

/-- The stroke timing unit reports a pending period under which the table breaks R142, whatever else it refuses (R143). -/
theorem slotArmed_timing_periodRefused {s : State} (h : s.xFits (s.get (atDie .e0) .STK_TIMING_NEXT_PERIOD) = false) :
    (s.slotArmed .e0 1).get (atDie .e0) .NOC_XRES_STAT_PERIOD_REFUSED = 1 := by
  have hslot : s.slotArmed .e0 1 =
      let t := if s.timingFits then s else s.put (atDie .e0) .STK_STATUS_NEXT_REFUSED 1
      if t.xFits (t.get (atDie .e0) .STK_TIMING_NEXT_PERIOD) then t else t.put (atDie .e0) .NOC_XRES_STAT_PERIOD_REFUSED 1 := rfl
  have hkeeps : s.keepsRegs [.STK_STATUS] (if s.timingFits then s else s.put (atDie .e0) .STK_STATUS_NEXT_REFUSED 1) := by
    split
    · exact keeps_refl _ s
    · exact keeps_put (by decide) (atDie_code .e0) (keeps_refl _ s)
  rw [hslot]
  dsimp only
  rw [xFits_of_keepsRegs hkeeps (by decide) (by decide), State.get_of_keepsRegs hkeeps (atDie_code .e0) (by decide), h]
  exact State.get_put_self _ _ .NOC_XRES_STAT_PERIOD_REFUSED 1 (by decide)

/-- A slot that is not armed is not disarmed either. -/
theorem disarm_idle {s : State} {d : Die} {slot : Nat} (h : s.armBit d slot = false) : s.disarm d slot = s :=
  if_neg (by simp [h])

/-- Arming slot 1 of a die on which no slot is armed. -/
theorem unitArm_timing {s : State} {d : Die} (hup : s.up d = true) (harm : s.get (atDie d) .STK_UNIT_CTRL_ARM = 0) :
    s.unitArm d 2 = (s.put (atDie d) .STK_UNIT_CTRL_ARM 2).slotArmed d 1 := by
  have hidle (slot : Nat) : s.armBit d slot = false := by simp [State.armBit, State.bit, harm, bitOf]
  have hdisarm : (List.range 16).foldl (fun s n => if bitOf 2 n then s else s.disarm d n) s = s :=
    List.foldlRecOn (motive := fun t => t = s) _ _ rfl fun t ht n _ => by
      rw [ht, disarm_idle (hidle n), ite_self]
  rw [State.unitArm, if_pos hup, harm]
  dsimp only
  rw [hdisarm]
  rfl

theorem unitArm_timing_periodRefused {s : State} (hup : s.up .e0 = true) (harm : s.get (atDie .e0) .STK_UNIT_CTRL_ARM = 0)
    (h : s.xFits (s.get (atDie .e0) .STK_TIMING_NEXT_PERIOD) = false) :
    (s.unitArm .e0 2).get (atDie .e0) .NOC_XRES_STAT_PERIOD_REFUSED = 1 := by
  have hkeeps : s.keepsRegs [.STK_UNIT_CTRL] (s.put (atDie .e0) .STK_UNIT_CTRL_ARM 2) :=
    keeps_put (by decide) (atDie_code .e0) (keeps_refl _ s)
  rw [unitArm_timing hup harm]
  apply slotArmed_timing_periodRefused
  rw [xFits_of_keepsRegs hkeeps (by decide) (by decide), State.get_of_keepsRegs hkeeps (atDie_code .e0) (by decide), h]

/-- The state after reset with one reservation, 400 reads a stroke of hearth bank 0 of F0 by fabric port 0 of parcel 0, and a pending
period of 249. Twice the 400 flits fit the 1,500 of a link at the period of 500 in force and not the 747 at 249, and R49 asks for 250. -/
def bookedState : State :=
  (State.reset.puts (atSel .f0 0) [(.NOC_XRES_LO_INIT, portIdent .f0 0 0), (.NOC_XRES_LO_TGT, ident .f0 3 0 6), (.NOC_XRES_HI_RD, 400),
    (.NOC_XRES_HI_VALID, 1)]).put (atDie .e0) .STK_TIMING_NEXT_PERIOD 249

theorem bookedState_arms : bookedState.up .e0 = true ∧ bookedState.get (atDie .e0) .STK_UNIT_CTRL_ARM = 0 ∧
    bookedState.timingFits = false ∧ bookedState.get (atDie .e0) .NOC_XRES_STAT_PERIOD_REFUSED = 0 := by decide +kernel

theorem bookedState_table : bookedState.xFits (bookedState.get (atDie .e0) .STK_TIMING_PERIOD) = true ∧
    bookedState.xFits (bookedState.get (atDie .e0) .STK_TIMING_NEXT_PERIOD) = false := by decide +kernel

/-- Refutes O9: in the clause on arming slot 1 of E0 with a timing that does not fit, the pending period may also be one under which
the reservation table breaks R142. Slot 1 then sets NOC_XRES_STAT.PERIOD_REFUSED (R143), outside the two registers that the clause
lets change. -/
theorem not_strokeAndChangeCommandsRun : ¬ Obligations.StrokeAndChangeCommandsRun := by
  unfold Obligations.StrokeAndChangeCommandsRun
  intro h
  obtain ⟨-, -, -, -, -, -, hrefused, -⟩ := h
  obtain ⟨hup, harm, htiming, hclear⟩ := bookedState_arms
  obtain ⟨-, htable⟩ := bookedState_table
  obtain ⟨t, hexec, -, -, hkeeps, -⟩ := hrefused bookedState hup harm htiming
  have ht : bookedState.unitArm .e0 2 = t := Host.Outcome.next.inj hexec
  have hset : t.get (atDie .e0) .NOC_XRES_STAT_PERIOD_REFUSED = 1 := ht ▸ unitArm_timing_periodRefused hup harm htable
  have hkept := State.get_of_keepsRegs hkeeps (f := .NOC_XRES_STAT_PERIOD_REFUSED) (atDie_code .e0) (by decide)
  omega

end Sys2Proof.Machine
end

section
/-! Shared column rails (R85 to R92): what the detector, a clear of flags and the keepers leave in the registers and in the rails. -/

namespace Sys2Proof.Machine

open Config

theorem Raised.mono {L M : List Reg} (hLM : ∀ r ∈ L, r ∈ M) {s t : State} (h : State.Raised L s t) : State.Raised M s t :=
  ⟨fun b q hq hb => h.reg b q (fun hL => hq (hLM q hL)) hb, h.rest⟩

theorem Raised.keepsRegs {L : List Reg} {s t : State} (h : State.Raised L s t) : s.keepsRegs L t := fun a r ha hr => h.reg a r hr ha

theorem Raised.fab_eq {L : List Reg} {s t : State} (h : State.Raised L s t) : t.fab = s.fab := by
  have hrest := congrArg State.fab h.rest
  exact hrest

theorem Raised.stageOf_eq {L : List Reg} {s t : State} (h : State.Raised L s t) (d : Die) (p : Nat) : t.stageOf d p = s.stageOf d p := by
  rw [State.stageOf, Raised.relStage_eq h, State.stageOf]

/-- A command that does not store keeps every byte of memory. -/
theorem keepsMem_of_exec {c : Instr} (hc : Instr.mayStore c = false) {s t : State} (h : exec c s = .next t) : s.keepsMem t := by
  obtain ⟨u, hexec, hheld⟩ := exec_held_of_not_mayStore hc s
  obtain rfl : u = t := Host.Outcome.next.inj (hexec.symm.trans h)
  exact State.keepsMem_of_held hheld

theorem Tbl.exists_mem_of_get_ne {α : Type} {d : α} {t : Tbl α} {i : Nat} (h : Tbl.get d t i ≠ d) : ∃ e ∈ t, e.1 = i := by
  induction t with
  | nil => exact absurd rfl h
  | cons e t ih =>
    by_cases hi : i = e.1
    · exact ⟨e, List.mem_cons_self, hi.symm⟩
    · obtain ⟨k, v⟩ := e
      rw [Tbl.get, if_neg hi] at h
      obtain ⟨e', hmem, hkey⟩ := ih h
      exact ⟨e', List.mem_cons_of_mem _ hmem, hkey⟩

/-! ### The rails of a die that have a driver (R85) -/

theorem railsDriven_lt {s : State} {d : Die} {n : Nat} (h : n ∈ s.railsDriven d) : n < 24576 := by
  obtain ⟨e, -, rfl⟩ := List.mem_map.1 (List.mem_eraseDups.1 h)
  exact Nat.mod_lt _ (by decide)

theorem driverCode_ne_zero_of_mem_railOn {s : State} {d : Die} {n row : Nat} (h : row ∈ s.railOn d n) :
    row < 22 ∧ s.driverCode d n row ≠ 0 := by
  obtain ⟨hrow, hon⟩ := List.mem_filter.1 h
  refine ⟨List.mem_range.1 hrow, fun hzero => ?_⟩
  rw [hzero] at hon
  exact Bool.false_ne_true hon

/-- A rail with an enabled driver is among those that the detector and the keepers look at. -/
theorem mem_railsDriven {s : State} {d : Die} {n : Nat} (hn : n < 24576) (h : s.railOn d n ≠ []) : n ∈ s.railsDriven d := by
  obtain ⟨row, hmem⟩ := List.exists_mem_of_ne_nil _ h
  obtain ⟨hrow, hcode⟩ := driverCode_ne_zero_of_mem_railOn hmem
  obtain ⟨e, he, hkey⟩ := Tbl.exists_mem_of_get_ne hcode
  have hdie : e.1 / 32 / 24576 = d.idx := by unfold railKey at hkey; omega
  have hrail : e.1 / 32 % 24576 = n := by unfold railKey at hkey; omega
  exact List.mem_eraseDups.2 (List.mem_map.2 ⟨e, List.mem_filter.2 ⟨he, beq_iff_eq.2 hdie⟩, hrail⟩)

theorem railsDriven_of_fab {s t : State} (h : t.fab = s.fab) (d : Die) : t.railsDriven d = s.railsDriven d := by
  rw [State.railsDriven, h, State.railsDriven]

/-! ### The keepers (R88, R92) -/

/-- One rail's part of `State.railSettle`: its keeper follows in `t` the value that the drivers give the rail in `s`. -/
def State.keeperStep (s : State) (d : Die) (t : State) (n : Nat) : State :=
  match s.railOn d n with
  | [row] => t.railFollow d n (s.nodeVal d (.railData n row))
  | _ => t

theorem railSettle_foldl (s : State) (d : Die) : s.railSettle d = (s.railsDriven d).foldl (s.keeperStep d) s := rfl

theorem keeperStep_keeper_only (s : State) (d : Die) (t : State) (n : Nat) : ∃ k, s.keeperStep d t n = t.setRailKeep k := by
  unfold State.keeperStep State.railFollow
  split
  · split
    · exact ⟨_, rfl⟩
    · exact ⟨t.railKeep, rfl⟩
  · exact ⟨t.railKeep, rfl⟩

/-- Settling the rails changes nothing but keepers. -/
theorem railSettle_keepers_only (s : State) (d : Die) : ∃ k, s.railSettle d = s.setRailKeep k := by
  rw [railSettle_foldl]
  refine List.foldlRecOn (motive := fun t => ∃ k, t = s.setRailKeep k) _ _ ⟨s.railKeep, rfl⟩ fun t ht n _ => ?_
  obtain ⟨k, rfl⟩ := ht
  exact keeperStep_keeper_only s d _ n

@[simp] theorem railSettle_regs (s : State) (d : Die) : (s.railSettle d).regs = s.regs := by
  obtain ⟨k, hk⟩ := railSettle_keepers_only s d
  rw [hk, State.setRailKeep_regs]

@[simp] theorem railSettle_get (s : State) (d : Die) (a : At) (f : Fld) : (s.railSettle d).get a f = s.get a f :=
  State.get_of_regs (railSettle_regs s d) a f

@[simp] theorem railSettle_railFlag (s : State) (d e : Die) (n : Nat) : (s.railSettle d).railFlag e n = s.railFlag e n :=
  congrArg (bitOf · (n % 32)) (railSettle_get s d _ _)

theorem railSettle_keeps {L : List Reg} {s t : State} (h : s.keepsRegs L t) (d : Die) : s.keepsRegs L (t.railSettle d) :=
  keeps_same h (railSettle_regs t d)

theorem keeper_setRailKeep_self (t : State) (d : Die) (n : Nat) (v : Bool) :
    (t.setRailKeep (Tbl.set t.railKeep (railKey d n) (natOf v))).keeper d n = v := by
  rw [State.keeper, State.setRailKeep_railKeep, Tbl.get_set_self]
  cases v <;> rfl

theorem keeper_railFollow_self {t : State} {d : Die} {n : Nat} (hstage : 1 ≤ t.stageOf d (railParcel n))
    (hflag : t.railFlag d n = false) (v : Bool) : (t.railFollow d n v).keeper d n = v := by
  rw [State.railFollow, if_pos ⟨hstage, hflag⟩, keeper_setRailKeep_self]

theorem keeper_railFollow_other {t : State} {d : Die} {n m : Nat} (h : n ≠ m) (v : Bool) :
    (t.railFollow d m v).keeper d n = t.keeper d n := by
  have hkey : railKey d n ≠ railKey d m := by unfold railKey; omega
  unfold State.railFollow
  split
  · rw [State.keeper, State.setRailKeep_railKeep, Tbl.get_set_ne _ _ _ hkey, State.keeper]
  · rfl

theorem keeper_keeperStep_other {s t : State} {d : Die} {n m : Nat} (h : n ≠ m) : (s.keeperStep d t m).keeper d n = t.keeper d n := by
  unfold State.keeperStep
  split
  · exact keeper_railFollow_other h _
  · rfl

/-- The keeper of a rail with one driver holds that driver's value once its turn has come. -/
theorem keeper_foldl_keeperStep {s : State} {d : Die} {n row : Nat} (hone : s.railOn d n = [row]) (l : List Nat) {t : State}
    (hstage : 1 ≤ t.stageOf d (railParcel n)) (hflag : t.railFlag d n = false)
    (h : n ∈ l ∨ t.keeper d n = s.nodeVal d (.railData n row)) :
    (l.foldl (s.keeperStep d) t).keeper d n = s.nodeVal d (.railData n row) := by
  induction l generalizing t with
  | nil => exact h.resolve_left List.not_mem_nil
  | cons m l ih =>
    obtain ⟨k, hk⟩ := keeperStep_keeper_only s d t m
    refine ih (t := s.keeperStep d t m) (by rw [hk]; exact hstage) (by rw [hk]; exact hflag) ?_
    by_cases hm : n = m
    · subst hm
      right
      simp only [State.keeperStep, hone]
      exact keeper_railFollow_self hstage hflag _
    · exact h.imp (fun hmem => (List.mem_cons.1 hmem).resolve_left hm) fun hkeep => by rw [keeper_keeperStep_other hm, hkeep]

theorem keeper_railSettle {s : State} {d : Die} {n row : Nat} (hn : n < 24576) (hone : s.railOn d n = [row])
    (hstage : 1 ≤ s.stageOf d (railParcel n)) (hflag : s.railFlag d n = false) :
    (s.railSettle d).keeper d n = s.nodeVal d (.railData n row) :=
  keeper_foldl_keeperStep hone _ hstage hflag (.inl (mem_railsDriven hn (by rw [hone]; exact List.cons_ne_nil _ _)))

/-- A rail whose drivers are off shows its keeper (R88, R89). -/
theorem sigVal_rail_off {s : State} {d : Die} {rail : Nat} (h : s.railOff d rail = true) (fuel q : Nat) :
    s.sigVal d (fuel + 1) q (.rail rail) = s.keeper d rail := by
  rw [State.sigVal]
  exact if_pos h

/-! ### The flags (R89, R90) -/

theorem railFlag_eq_testBit (s : State) (d : Die) (n : Nat) :
    s.railFlag d n = (s.get (atSel d (n / 32)) .CFG_RAIL_DATA_FLAG).testBit (n % 32) := bitOf_eq_testBit _ _

/-- A group's flags are its whole register. -/
theorem get_railFlags (s : State) (a : At) : s.get a .CFG_RAIL_DATA_FLAG = (s.reg a .CFG_RAIL_DATA).toNat := by
  change (s.reg a .CFG_RAIL_DATA).toNat / 1 % 2 ^ 32 = _
  rw [Nat.div_one, Nat.mod_eq_of_lt (BitVec.isLt _)]

theorem railFlag_eq_getLsbD (s : State) (d : Die) (n : Nat) :
    s.railFlag d n = (s.reg (atSel d (n / 32)) .CFG_RAIL_DATA).getLsbD (n % 32) := by
  rw [railFlag_eq_testBit, get_railFlags, BitVec.testBit_toNat]

theorem reg_put_railFlags (s : State) (a : At) (w : Word) : (s.put a .CFG_RAIL_DATA_FLAG w.toNat).reg a .CFG_RAIL_DATA = w :=
  BitVec.eq_of_toNat_eq (by
    rw [← get_railFlags, State.get_put_self _ _ _ _ (by decide)]
    exact Nat.mod_eq_of_lt w.isLt)

theorem railFlag_of_keepsRegs {L : List Reg} {s t : State} (h : s.keepsRegs L t) (hL : .CFG_RAIL_DATA ∉ L) (d : Die) {n : Nat}
    (hn : n < 24576) : t.railFlag d n = s.railFlag d n := by
  rw [railFlag_eq_getLsbD, railFlag_eq_getLsbD, h _ _ (atSel_code d (by omega)) hL]

theorem atSel_code_ne (d : Die) {i j : Nat} (h : i ≠ j) : (atSel d i).code ≠ (atSel d j).code := by
  simp only [At.code, atSel]
  omega

/-! ### The detector (R89) -/

/-- The registers that the detector may change. -/
def railRegs : List Reg := .CFG_RAIL_DATA :: .CFG_RAIL_COUNT :: .CFG_RAIL_CONT :: eventRegs

/-- The detector has disabled a rail and counted it. -/
def State.railMarked (s : State) (d : Die) (n : Nat) : State :=
  (s.setBit (atSel d (n / 32)) .CFG_RAIL_DATA_FLAG (n % 32)).bump (atDie d) .CFG_RAIL_COUNT_COUNT 1

/-- The detector has recorded a rail, unless the record is taken. -/
def State.railRecorded (s : State) (d : Die) (n : Nat) : State :=
  if s.flag (atDie d) .CFG_RAIL_CONT_VALID then s
  else s.puts (atDie d) [(.CFG_RAIL_CONT_VALID, 1), (.CFG_RAIL_CONT_PROW, n / 64 / 96), (.CFG_RAIL_CONT_LCOL, n / 64 % 96),
    (.CFG_RAIL_CONT_RAIL, n % 64)]

/-- The detector has acted on a rail, and raised RAIL_CONTENTION with some data. -/
def State.railDetected (s : State) (d : Die) (n data : Nat) : State :=
  ((s.railMarked d n).railRecorded d n).raise d Ev.RAIL_CONTENTION data

theorem railContend_idle {s : State} {d : Die} {n drivers : Nat}
    (h : drivers < 2 ∨ s.stageOf d (railParcel n) = 0 ∨ s.railFlag d n = true) : s.railContend d n drivers = s := by
  refine if_neg fun ⟨htwo, hstage, hflag⟩ => ?_
  rcases h with h | h | h
  · omega
  · omega
  · rw [hflag] at h
    exact Bool.false_ne_true h

theorem railContend_acts {s : State} {d : Die} {n drivers : Nat} (htwo : 2 ≤ drivers) (hstage : 1 ≤ s.stageOf d (railParcel n))
    (hflag : s.railFlag d n = false) : ∃ x, s.railContend d n drivers = s.railDetected d n x :=
  ⟨_, if_pos ⟨htwo, hstage, hflag⟩⟩

/-- The detector finds nothing to do on a rail, or it acts. -/
theorem railContend_cases (s : State) (d : Die) (n drivers : Nat) :
    s.railContend d n drivers = s ∨ ∃ x, s.railContend d n drivers = s.railDetected d n x := by
  by_cases h : 2 ≤ drivers ∧ 1 ≤ s.stageOf d (railParcel n) ∧ s.railFlag d n = false
  · obtain ⟨htwo, hstage, hflag⟩ := h
    exact .inr (railContend_acts htwo hstage hflag)
  · exact .inl (if_neg h)

theorem railMarked_raised (s : State) (d : Die) {n : Nat} (hn : n < 24576) :
    State.Raised [.CFG_RAIL_DATA, .CFG_RAIL_COUNT] s (s.railMarked d n) :=
  Raised.bump (by decide) (atDie_code d) (Raised.setBit (by decide) (atSel_code d (by omega)) (Raised.refl _ s))

theorem railRecorded_raised (s : State) (d : Die) (n : Nat) : State.Raised [.CFG_RAIL_CONT] s (s.railRecorded d n) := by
  have hput {t : State} {f : Fld} {v : Nat} (hf : f.reg = .CFG_RAIL_CONT) (ht : State.Raised [.CFG_RAIL_CONT] s t) :
      State.Raised [.CFG_RAIL_CONT] s (t.put (atDie d) f v) := Raised.put (by rw [hf]; decide) (atDie_code d) ht
  unfold State.railRecorded
  split
  · exact Raised.refl _ s
  · exact hput rfl (hput rfl (hput rfl (hput rfl (Raised.refl _ s))))

theorem railDetected_raised (s : State) (d : Die) {n : Nat} (hn : n < 24576) (x : Nat) :
    State.Raised railRegs s (s.railDetected d n x) := by
  have hmarked := Raised.mono (M := railRegs) (by decide) (railMarked_raised s d hn)
  have hrecorded := Raised.mono (M := railRegs) (by decide) (railRecorded_raised (s.railMarked d n) d n)
  exact Raised.trans (Raised.trans hmarked hrecorded)
    (Raised.mono (by decide) (State.raise_raised _ d (loc := Ev.RAIL_CONTENTION) x (by decide)))

theorem railContend_raised (s : State) (d : Die) {n : Nat} (hn : n < 24576) (drivers : Nat) :
    State.Raised railRegs s (s.railContend d n drivers) := by
  rcases railContend_cases s d n drivers with h | ⟨x, h⟩
  · rw [h]
    exact Raised.refl _ s
  · rw [h]
    exact railDetected_raised s d hn x

theorem railMarked_railFlag (s : State) (d : Die) {n m : Nat} (hn : n < 24576) (hm : m < 24576) :
    (s.railMarked d n).railFlag d m = (s.railFlag d m || m == n) := by
  have hbump : (s.railMarked d n).railFlag d m = (s.setBit (atSel d (n / 32)) .CFG_RAIL_DATA_FLAG (n % 32)).railFlag d m :=
    railFlag_of_keepsRegs (L := [.CFG_RAIL_COUNT]) (keeps_bump (by decide) (atDie_code d) (keeps_refl _ _)) (by decide) d hm
  rw [hbump, railFlag_eq_testBit, railFlag_eq_testBit, State.setBit]
  by_cases hgroup : m / 32 = n / 32
  · have hlt : m % 32 < Fld.CFG_RAIL_DATA_FLAG.width := Nat.mod_lt _ (by decide)
    have hsame : decide (n % 32 = m % 32) = (m == n) := by
      rw [Bool.eq_iff_iff, decide_eq_true_iff, beq_iff_eq]
      omega
    rw [hgroup, State.get_put_self _ _ _ _ (by decide), Nat.testBit_mod_two_pow, Nat.testBit_or, Nat.testBit_two_pow,
      decide_eq_true hlt, Bool.true_and, hsame]
  · have hne : m ≠ n := fun h => hgroup (by rw [h])
    rw [get_put_at_ne _ _ (atSel_code_ne d hgroup) (atSel_code d (by omega)) (atSel_code d (by omega)), beq_false_of_ne hne, Bool.or_false]

/-- The detector disables the rail that it acts on, and no other. -/
theorem railDetected_railFlag (s : State) (d : Die) {n m : Nat} (hn : n < 24576) (hm : m < 24576) (x : Nat) :
    (s.railDetected d n x).railFlag d m = (s.railFlag d m || m == n) := by
  have hraised := State.raise_raised ((s.railMarked d n).railRecorded d n) d (loc := Ev.RAIL_CONTENTION) x (by decide)
  rw [State.railDetected, railFlag_of_keepsRegs (Raised.keepsRegs hraised) (by decide) d hm,
    railFlag_of_keepsRegs (Raised.keepsRegs (railRecorded_raised _ d n)) (by decide) d hm, railMarked_railFlag s d hn hm]

theorem railDetected_get (s : State) (d : Die) (n x : Nat) {f : Fld} (hf : f.reg ∉ eventRegs) :
    (s.railDetected d n x).get (atDie d) f = ((s.railMarked d n).railRecorded d n).get (atDie d) f :=
  State.raise_get _ d x (by decide) hf (atDie_code d)

theorem railDetected_count (s : State) (d : Die) {n : Nat} (hn : n < 24576) (x : Nat) :
    (s.railDetected d n x).get (atDie d) .CFG_RAIL_COUNT_COUNT =
      satAdd (2 ^ 16 - 1) (s.get (atDie d) .CFG_RAIL_COUNT_COUNT) 1 := by
  have hcount : (s.setBit (atSel d (n / 32)) .CFG_RAIL_DATA_FLAG (n % 32)).get (atDie d) .CFG_RAIL_COUNT_COUNT =
      s.get (atDie d) .CFG_RAIL_COUNT_COUNT := get_put_of_ne _ _ (by decide) (atSel_code d (by omega)) (atDie_code d)
  rw [railDetected_get s d n x (by decide),
    State.get_of_keepsRegs (Raised.keepsRegs (railRecorded_raised _ d n)) (atDie_code d) (by decide), ← hcount]
  exact State.get_bump_self _ _ _ _ (by decide)

theorem railRecorded_valid (s : State) (d : Die) (n : Nat) : (s.railRecorded d n).get (atDie d) .CFG_RAIL_CONT_VALID = 1 := by
  unfold State.railRecorded
  split
  · exact beq_iff_eq.1 ‹_›
  · exact State.get_puts_first (by decide) (by simp only [List.map]; decide) s

theorem railDetected_valid (s : State) (d : Die) (n x : Nat) : (s.railDetected d n x).get (atDie d) .CFG_RAIL_CONT_VALID = 1 := by
  rw [railDetected_get s d n x (by decide), railRecorded_valid]

/-- The first rail is recorded by its number, its logic column and its row of parcels. -/
theorem railRecorded_first {s : State} {d : Die} {n : Nat} (hn : n < 24576) (h : s.get (atDie d) .CFG_RAIL_CONT_VALID = 0) :
    (s.railRecorded d n).get (atDie d) .CFG_RAIL_CONT_RAIL = n % 64 ∧
    (s.railRecorded d n).get (atDie d) .CFG_RAIL_CONT_LCOL = n / 64 % 96 ∧
    (s.railRecorded d n).get (atDie d) .CFG_RAIL_CONT_PROW = n / 64 / 96 := by
  have hfree : ¬ s.flag (atDie d) .CFG_RAIL_CONT_VALID = true := by
    rw [State.flag, h]
    decide
  rw [State.railRecorded, if_neg hfree]
  refine ⟨?rail, ?lcol, ?prow⟩
  case rail =>
    rw [State.puts_cons, State.puts_cons, State.puts_cons, State.get_puts_first (by decide) (by decide)]
    exact Nat.mod_eq_of_lt (Nat.mod_lt _ (by decide))
  case lcol =>
    rw [State.puts_cons, State.puts_cons, State.get_puts_first (by decide) (by simp only [List.map]; decide)]
    exact Nat.mod_eq_of_lt (Nat.lt_trans (Nat.mod_lt _ (by decide)) (by decide))
  case prow =>
    rw [State.puts_cons, State.get_puts_first (by decide) (by simp only [List.map]; decide)]
    exact Nat.mod_eq_of_lt (show n / 64 / 96 < 4 by omega)

theorem railDetected_first {s : State} {d : Die} {n : Nat} (hn : n < 24576) (x : Nat)
    (h : s.get (atDie d) .CFG_RAIL_CONT_VALID = 0) :
    (s.railDetected d n x).get (atDie d) .CFG_RAIL_CONT_RAIL = n % 64 ∧
    (s.railDetected d n x).get (atDie d) .CFG_RAIL_CONT_LCOL = n / 64 % 96 ∧
    (s.railDetected d n x).get (atDie d) .CFG_RAIL_CONT_PROW = n / 64 / 96 := by
  have hmarked : (s.railMarked d n).get (atDie d) .CFG_RAIL_CONT_VALID = 0 := by
    rw [State.get_of_keepsRegs (Raised.keepsRegs (railMarked_raised s d hn)) (atDie_code d) (by decide), h]
  rw [railDetected_get s d n x (by decide), railDetected_get s d n x (by decide), railDetected_get s d n x (by decide)]
  exact railRecorded_first hn hmarked

/-! ### The detector on several rails (R90) -/

/-- The detector looks at several rails of a die, of rail `n` of which `drivers n` are enabled. -/
def State.railsContend (s : State) (d : Die) (drivers : Nat → Nat) (l : List Nat) : State :=
  l.foldl (fun t n => t.railContend d n (drivers n)) s

/-- How many drivers of a rail are enabled together. -/
def State.railDrivers (s : State) (d : Die) (n : Nat) : Nat := (s.railOn d n).length

theorem railsContend_idle {d : Die} {drivers : Nat → Nat} {l : List Nat} (h : ∀ n ∈ l, drivers n < 2) (s : State) :
    s.railsContend d drivers l = s :=
  List.foldlRecOn (motive := fun t => t = s) l _ rfl fun t ht n hn => by
    rw [railContend_idle (.inl (h n hn)), ht]

theorem railsContend_raised (s : State) (d : Die) (drivers : Nat → Nat) {l : List Nat} (hl : ∀ n ∈ l, n < 24576) :
    State.Raised railRegs s (s.railsContend d drivers l) :=
  Raised.foldl (fun t n hn ht => Raised.trans ht (railContend_raised t d (hl n hn) (drivers n))) (Raised.refl _ s)

/-- A rail is disabled, and the detector's record holds a rail. -/
def State.railCaught (s : State) (d : Die) (n : Nat) : Prop :=
  s.railFlag d n = true ∧ s.get (atDie d) .CFG_RAIL_CONT_VALID = 1

theorem railCaught_railContend_of {s : State} {d : Die} {n m : Nat} (hn : n < 24576) (hm : m < 24576) (drivers : Nat)
    (h : s.railCaught d n) : (s.railContend d m drivers).railCaught d n := by
  obtain ⟨hflag, hvalid⟩ := h
  rcases railContend_cases s d m drivers with hc | ⟨x, hc⟩
  · rw [hc]
    exact ⟨hflag, hvalid⟩
  · rw [hc]
    exact ⟨by rw [railDetected_railFlag s d hm hn, hflag, Bool.true_or], railDetected_valid s d m x⟩

theorem railCaught_railContend_self {s : State} {d : Die} {n drivers : Nat} (hn : n < 24576) (htwo : 2 ≤ drivers)
    (hstage : 1 ≤ s.stageOf d (railParcel n)) (hflag : s.railFlag d n = false) : (s.railContend d n drivers).railCaught d n := by
  obtain ⟨x, hx⟩ := railContend_acts htwo hstage hflag
  rw [hx]
  exact ⟨by rw [railDetected_railFlag s d hn hn, beq_self_eq_true, Bool.or_true], railDetected_valid s d n x⟩

theorem railFlag_railContend_other {s : State} {d : Die} {n m : Nat} (hn : n < 24576) (hm : m < 24576) (hne : n ≠ m) (drivers : Nat) :
    (s.railContend d m drivers).railFlag d n = s.railFlag d n := by
  rcases railContend_cases s d m drivers with hc | ⟨x, hc⟩
  · rw [hc]
  · rw [hc, railDetected_railFlag s d hm hn, beq_false_of_ne hne, Bool.or_false]

/-- A contended rail whose flag is clear is caught once its turn has come, and stays so. -/
theorem railCaught_railsContend {d : Die} {drivers : Nat → Nat} {n : Nat} (hn : n < 24576) (htwo : 2 ≤ drivers n) (l : List Nat)
    (hl : ∀ m ∈ l, m < 24576) {s : State} (hstage : 1 ≤ s.stageOf d (railParcel n))
    (h : (n ∈ l ∧ s.railFlag d n = false) ∨ s.railCaught d n) : (s.railsContend d drivers l).railCaught d n := by
  induction l generalizing s with
  | nil => exact h.resolve_left fun ⟨hmem, _⟩ => List.not_mem_nil hmem
  | cons m l ih =>
    have hm : m < 24576 := hl m List.mem_cons_self
    refine ih (fun k hk => hl k (List.mem_cons_of_mem _ hk)) (s := s.railContend d m (drivers m))
      (by rw [Raised.stageOf_eq (railContend_raised s d hm _)]; exact hstage) ?_
    rcases h with ⟨hmem, hflag⟩ | hcaught
    · by_cases hnm : n = m
      · subst hnm
        exact .inr (railCaught_railContend_self hn htwo hstage hflag)
      · exact .inl ⟨(List.mem_cons.1 hmem).resolve_left hnm, by rw [railFlag_railContend_other hn hm hnm, hflag]⟩
    · exact .inr (railCaught_railContend_of hn hm _ hcaught)

theorem railCaught_railSettle {s : State} {d : Die} {n : Nat} (h : s.railCaught d n) : (s.railSettle d).railCaught d n := by
  obtain ⟨hflag, hvalid⟩ := h
  exact ⟨by rw [railSettle_railFlag, hflag], by rw [railSettle_get, hvalid]⟩

/-! ### A clear of the flags of a group (R90, R91) -/

/-- The flags of a group that a mask names are cleared. -/
def State.railFlagsPut (s : State) (d : Die) (group : Nat) (mask : Word) : State :=
  s.put (atSel d group) .CFG_RAIL_DATA_FLAG (s.reg (atSel d group) .CFG_RAIL_DATA &&& ~~~ mask).toNat

/-- The rails of a group whose flags stand and are named by a mask. -/
def State.railsFreed (s : State) (d : Die) (group : Nat) (mask : Word) : List Nat :=
  ((List.range 32).filter fun b => bitOf mask.toNat b && bitOf (s.get (atSel d group) .CFG_RAIL_DATA_FLAG) b).map (32 * group + ·)

theorem exec_railFlagClear (die : FDie) (group : Fin 768) (mask : BitVec 32) (s : State) : exec (.railFlagClear die group mask) s =
    .next (((s.railFlagsPut die.die group mask).railsContend die.die
      ((s.railFlagsPut die.die group mask).railDrivers die.die) (s.railsFreed die.die group mask)).railSettle die.die) := by
  have hmask : BitVec.ofNat 32 mask.toNat = mask := (BitVec.ofNat_toNat 32 mask).trans (BitVec.setWidth_eq mask)
  simp only [State.railsContend, State.railsFreed, List.foldl_map]
  change Host.Outcome.next (s.railFlagClear die.die group mask.toNat) = _
  rw [State.railFlagClear, hmask]
  rfl

theorem mem_railsFreed {s : State} {d : Die} {group : Nat} {mask : Word} {n : Nat} :
    n ∈ s.railsFreed d group mask ↔ ∃ b < 32, mask.getLsbD b = true ∧ s.railFlag d (32 * group + b) = true ∧ 32 * group + b = n := by
  have hflag {b : Nat} (hb : b < 32) : s.railFlag d (32 * group + b) = bitOf (s.get (atSel d group) .CFG_RAIL_DATA_FLAG) b := by
    rw [State.railFlag, State.bit, show (32 * group + b) / 32 = group by omega, show (32 * group + b) % 32 = b by omega]
  have hmask (b : Nat) : mask.getLsbD b = bitOf mask.toNat b := by rw [bitOf_eq_testBit, BitVec.testBit_toNat]
  simp only [State.railsFreed, List.mem_map, List.mem_filter, List.mem_range, Bool.and_eq_true, and_assoc]
  refine exists_congr fun b => and_congr_right fun hb => ?_
  rw [hmask, hflag hb]

theorem railsFreed_lt {s : State} {d : Die} {group : Nat} (hg : group < 768) {mask : Word} :
    ∀ n ∈ s.railsFreed d group mask, n < 24576 := by
  intro n hn
  obtain ⟨b, hb, -, -, rfl⟩ := mem_railsFreed.1 hn
  omega

theorem railFlagsPut_raised (s : State) (d : Die) {group : Nat} (hg : group < 768) (mask : Word) :
    State.Raised [.CFG_RAIL_DATA] s (s.railFlagsPut d group mask) :=
  Raised.put (by decide) (atSel_code d (by omega)) (Raised.refl _ s)

theorem railFlagsPut_reg (s : State) (d : Die) (group : Nat) (mask : Word) :
    (s.railFlagsPut d group mask).reg (atSel d group) .CFG_RAIL_DATA = s.reg (atSel d group) .CFG_RAIL_DATA &&& ~~~ mask :=
  reg_put_railFlags s _ _

theorem railFlagsPut_railFlag_named (s : State) (d : Die) {group b : Nat} {mask : Word} (hb : b < 32) (h : mask.getLsbD b = true) :
    (s.railFlagsPut d group mask).railFlag d (32 * group + b) = false := by
  rw [railFlag_eq_getLsbD, show (32 * group + b) / 32 = group by omega, show (32 * group + b) % 32 = b by omega, railFlagsPut_reg]
  simp [h]

/-! ### CFG_RAIL_CLR.ALL (R90) -/

theorem exec_railClearAll (die : FDie) (s : State) : exec (.railClearAll die) s =
    .next (((s.railClearAll die.die).railsContend die.die ((s.railClearAll die.die).railDrivers die.die)
      ((s.railsDriven die.die).filter fun n => s.railFlag die.die n)).railSettle die.die) := rfl

theorem railClearAll_raised (s : State) (d : Die) : State.Raised [.CFG_RAIL_DATA] s (s.railClearAll d) := by
  refine Raised.foldl (fun t g hg ht => ?_) (Raised.refl _ s)
  have hlt : g < 2 ^ 30 := Nat.lt_trans (List.mem_range.1 hg) (by decide)
  split
  · exact ht
  · exact Raised.put (by decide) (atSel_code d hlt) ht

/-- One group's part of `State.railClearAll`. -/
def State.groupClear (d : Die) (t : State) (g : Nat) : State :=
  if t.get (atSel d g) .CFG_RAIL_DATA_FLAG = 0 then t else t.put (atSel d g) .CFG_RAIL_DATA_FLAG 0

theorem groupClear_get_self (d : Die) (t : State) (g : Nat) : (t.groupClear d g).get (atSel d g) .CFG_RAIL_DATA_FLAG = 0 := by
  unfold State.groupClear
  split
  · assumption
  · exact State.get_put_self _ _ _ 0 (by decide)

theorem groupClear_get_of (d : Die) (t : State) {g k : Nat} (hg : g < 768) (hk : k < 768)
    (h : t.get (atSel d g) .CFG_RAIL_DATA_FLAG = 0) : (t.groupClear d k).get (atSel d g) .CFG_RAIL_DATA_FLAG = 0 := by
  by_cases hgk : g = k
  · rw [hgk, groupClear_get_self]
  · unfold State.groupClear
    split
    · exact h
    · rw [get_put_at_ne _ _ (atSel_code_ne d hgk) (atSel_code d (by omega)) (atSel_code d (by omega)), h]

theorem get_foldl_groupClear (d : Die) {g : Nat} (hg : g < 768) (l : List Nat) (hl : ∀ k ∈ l, k < 768) {t : State}
    (h : g ∈ l ∨ t.get (atSel d g) .CFG_RAIL_DATA_FLAG = 0) :
    (l.foldl (State.groupClear d) t).get (atSel d g) .CFG_RAIL_DATA_FLAG = 0 := by
  induction l generalizing t with
  | nil => exact h.resolve_left List.not_mem_nil
  | cons k l ih =>
    refine ih (fun j hj => hl j (List.mem_cons_of_mem _ hj)) (t := t.groupClear d k) ?_
    by_cases hgk : g = k
    · rw [hgk, groupClear_get_self]
      exact .inr rfl
    · exact h.imp (fun hmem => (List.mem_cons.1 hmem).resolve_left hgk) (groupClear_get_of d t hg (hl k List.mem_cons_self))

theorem railClearAll_railFlag (s : State) (d : Die) {n : Nat} (hn : n < 24576) : (s.railClearAll d).railFlag d n = false := by
  have hzero : (s.railClearAll d).get (atSel d (n / 32)) .CFG_RAIL_DATA_FLAG = 0 :=
    get_foldl_groupClear d (by omega) _ (fun _ => List.mem_range.1) (.inl (List.mem_range.2 (by omega)))
  rw [railFlag_eq_testBit, hzero, Nat.zero_testBit]

/-! ### The commands -/

theorem exec_railContention (die : FDie) (rail : Fin 24576) (s : State) : exec (.railContention die rail) s =
    .next ((s.railContend die.die rail (s.railOn die.die rail).length).railSettle die.die) := rfl

/-- Settles O4, clause by clause: the detector's laws (`railContend_idle`, the `railDetected_` lemmas), those of several rails
(`railCaught_railsContend`) and those of the keepers (`keeper_railSettle`, `sigVal_rail_off`). -/
theorem railCommandsRun : Obligations.RailCommandsRun := by
  unfold Obligations.RailCommandsRun
  refine ⟨?detected, ?nothing, ?follows, ?cleared, ?again, ?allCleared, ?allAgain, ?shown⟩
  case detected =>
    intro die rail s htwo hstage hflag
    have hexec := exec_railContention die rail s
    obtain ⟨x, hx⟩ := railContend_acts htwo hstage hflag
    rw [hx] at hexec
    have hrail : ((s.railDetected die.die rail x).railSettle die.die).railFlag die.die rail = true := by
      rw [railSettle_railFlag, railDetected_railFlag s _ rail.isLt rail.isLt, beq_self_eq_true, Bool.or_true]
    refine ⟨_, hexec, hrail, by rw [State.railOff, hrail, Bool.or_true], ?_, ?_, fun hfree => ?_,
      railSettle_keeps (Raised.keepsRegs (railDetected_raised s _ rail.isLt x)) _, keepsMem_of_exec rfl hexec⟩
    · rw [railSettle_get, railDetected_count s _ rail.isLt]
    · rw [railSettle_get, railDetected_valid]
    · simpa only [railSettle_get] using railDetected_first rail.isLt x hfree
  case nothing =>
    intro die rail s h
    rw [exec_railContention, railContend_idle h]
  case follows =>
    intro die rail row s hone hstage hflag
    have hexec := exec_railContention die rail s
    rw [railContend_idle (.inl (by rw [hone]; exact Nat.one_lt_two))] at hexec
    exact ⟨_, hexec, keeper_railSettle rail.isLt hone hstage hflag, railSettle_keeps (keeps_refl _ s) _, keepsMem_of_exec rfl hexec⟩
  case cleared =>
    rintro die group mask s u rfl hfew
    have hexec := exec_railFlagClear die group mask s
    have hidle : ∀ n ∈ s.railsFreed die.die group mask, (s.railFlagsPut die.die group mask).railDrivers die.die n < 2 := by
      intro n hn
      obtain ⟨b, hb, -, -, rfl⟩ := mem_railsFreed.1 hn
      exact hfew b hb
    rw [railsContend_idle hidle] at hexec
    exact ⟨_, hexec, (State.reg_of_regs (railSettle_regs _ _) _ _).trans (railFlagsPut_reg s _ _ mask),
      railSettle_keeps (Raised.keepsRegs (railFlagsPut_raised s _ group.isLt mask)) _, keepsMem_of_exec rfl hexec⟩
  case again =>
    rintro die group b mask s u rfl hmask hflag htwo hstage
    have hexec := exec_railFlagClear die group mask s
    have hput := railFlagsPut_raised s die.die group.isLt mask
    have hfreed := railsFreed_lt (s := s) (d := die.die) group.isLt (mask := mask)
    have hmem := mem_railsFreed.2 ⟨b, b.isLt, hmask, hflag, rfl⟩
    obtain ⟨hrail, hvalid⟩ := railCaught_railSettle (railCaught_railsContend
      (drivers := (s.railFlagsPut die.die group mask).railDrivers die.die) (hfreed _ hmem) htwo _ hfreed
      (by rw [Raised.stageOf_eq hput]; exact hstage) (.inl ⟨hmem, railFlagsPut_railFlag_named s die.die b.isLt hmask⟩))
    exact ⟨_, hexec, hrail, hvalid, railSettle_keeps (Raised.keepsRegs
      (Raised.trans (Raised.mono (by decide) hput) (railsContend_raised _ _ _ hfreed))) _, keepsMem_of_exec rfl hexec⟩
  case allCleared =>
    intro die s hfew
    have hexec := exec_railClearAll die s
    have hidle : ∀ n ∈ (s.railsDriven die.die).filter fun n => s.railFlag die.die n, (s.railClearAll die.die).railDrivers die.die n < 2 :=
      fun n hn => hfew n (railsDriven_lt (List.mem_filter.1 hn).1)
    rw [railsContend_idle hidle] at hexec
    exact ⟨_, hexec, fun n hn => by rw [railSettle_railFlag, railClearAll_railFlag s _ hn],
      railSettle_keeps (Raised.keepsRegs (railClearAll_raised s _)) _, keepsMem_of_exec rfl hexec⟩
  case allAgain =>
    intro die rail s hflag htwo hstage
    have hexec := exec_railClearAll die s
    have hclear := railClearAll_raised s die.die
    have hdriven : (rail : Nat) ∈ s.railsDriven die.die := by
      rw [← railsDriven_of_fab (Raised.fab_eq hclear)]
      exact mem_railsDriven rail.isLt (List.ne_nil_of_length_pos (by omega))
    have hheld : ∀ n ∈ (s.railsDriven die.die).filter fun n => s.railFlag die.die n, n < 24576 :=
      fun n hn => railsDriven_lt (List.mem_filter.1 hn).1
    obtain ⟨hrail, hvalid⟩ := railCaught_railSettle (railCaught_railsContend
      (drivers := (s.railClearAll die.die).railDrivers die.die) rail.isLt htwo _ hheld
      (by rw [Raised.stageOf_eq hclear]; exact hstage)
      (.inl ⟨List.mem_filter.2 ⟨hdriven, hflag⟩, railClearAll_railFlag s _ rail.isLt⟩))
    exact ⟨_, hexec, hrail, hvalid, railSettle_keeps (Raised.keepsRegs
      (Raised.trans (Raised.mono (by decide) hclear) (railsContend_raised _ _ _ hheld))) _, keepsMem_of_exec rfl hexec⟩
  case shown =>
    intro d q rail s hoff
    exact sigVal_rail_off hoff pathBound q

end Sys2Proof.Machine
end

section
/-! What an edge of a clock leaves of the clusters and their flip-flops outside the logic on it (R100, R105 to R111, R120 to R123, R147,
R148, R181 to R187, R361): block RAMs, multiply blocks, seam registers, raw lanes and fabric ports change neither. -/

namespace Sys2Proof.Machine

/-- The settings and the flip-flops of the clusters. -/
def State.logic (s : State) : Tbl Config.ClusterCfg × Tbl (BitVec 16) := (s.clusters, s.ffs)

theorem logic_ext {s t : State} (hclusters : t.clusters = s.clusters) (hffs : t.ffs = s.ffs) : t.logic = s.logic :=
  Prod.ext hclusters hffs

theorem clusters_of_logic {s t : State} (h : t.logic = s.logic) : t.clusters = s.clusters := congrArg Prod.fst h

theorem ffs_of_logic {s t : State} (h : t.logic = s.logic) : t.ffs = s.ffs := congrArg Prod.snd h

theorem ff_of_logic {s t : State} (h : t.logic = s.logic) (d : Die) (n : Nat) : t.ff d n = s.ff d n := by
  rw [State.ff, State.cluster, clusters_of_logic h, ffs_of_logic h, State.ff, State.cluster]

@[simp] theorem logic_ite {c : Prop} [Decidable c] (a b : State) : (if c then a else b).logic = if c then a.logic else b.logic :=
  apply_ite State.logic c a b

theorem logic_foldl {α : Type} {f : State → α → State} (hf : ∀ t a, (f t a).logic = t.logic) (l : List α) (s : State) :
    (l.foldl f s).logic = s.logic :=
  List.foldlRecOn (motive := fun t => t.logic = s.logic) l f rfl fun t ht a _ => (hf t a).trans ht

/-! ### Registers, events and what is sent -/

@[simp] theorem put_logic (s : State) (a : At) (f : Fld) (v : Nat) : (s.put a f v).logic = s.logic := rfl
@[simp] theorem bump_logic (s : State) (a : At) (f : Fld) (v : Nat) : (s.bump a f v).logic = s.logic := rfl
@[simp] theorem puts_logic (s : State) (a : At) (l : List (Fld × Nat)) : (s.puts a l).logic = s.logic := by
  induction l generalizing s with
  | nil => rfl
  | cons e l ih => rw [State.puts_cons, ih, put_logic]
@[simp] theorem emit_logic (s : State) (e : Emit) : (s.emit e).logic = s.logic := rfl
@[simp] theorem used_logic (s : State) : s.used.logic = s.logic := rfl
@[simp] theorem onceStart_logic (s : State) (key : Nat) : (s.onceStart key).logic = s.logic := rfl
@[simp] theorem bwCount_logic (s : State) (d : Die) (kind inst bytes items : Nat) : (s.bwCount d kind inst bytes items).logic = s.logic :=
  rfl
@[simp] theorem setFab_logic (s : State) (x : Fab) : (s.setFab x).logic = s.logic := rfl

theorem raise_logic (s : State) (d : Die) {loc : Nat} (hloc : loc < 2 ^ 30) (x : Nat) : (s.raise d loc x).logic = s.logic :=
  have hraised := State.raise_raised s d x hloc
  logic_ext (Raised.clusters_eq hraised) (Raised.ffs_eq hraised)

/-! ### Block RAM (R105 to R111, R486 to R489) -/

@[simp] theorem setChk_logic (s : State) (x : Tbl Nat) : (s.setChk x).logic = s.logic := rfl
@[simp] theorem setBramPorts_logic (s : State) (x : Tbl BramPort) : (s.setBramPorts x).logic = s.logic := rfl

@[simp] theorem setEccData_logic (s : State) (d : Die) (g a v : Nat) : (s.setEccData d g a v).logic = s.logic := by
  unfold State.setEccData
  split
  all_goals rfl

@[simp] theorem eccLog_logic (s : State) (d : Die) (g a : Nat) (ue : Bool) (synd : Nat) : (s.eccLog d g a ue synd).logic = s.logic := by
  unfold State.eccLog
  dsimp only
  split
  · simp
  · split
    · simp
    · simp [raise_logic _ d (loc := Ev.ECC_LOG_FULL) (by decide)]

@[simp] theorem eccFound_logic (s : State) (d : Die) (g a : Nat) (v : EccVerdict) : (s.eccFound d g a v).logic = s.logic := by
  cases v with
  | clean => rfl
  | corrected => simp [State.eccFound, raise_logic _ d (loc := Ev.ECC_CE) (by decide)]
  | uncorrectable => simp [State.eccFound, raise_logic _ d (loc := Ev.ECC_UE) (by decide)]

@[simp] theorem eccRead_logic (s : State) (d : Die) (g a : Nat) : (s.eccRead d g a).1.logic = s.logic := by
  simp [State.eccRead, State.eccCapture]

@[simp] theorem eccWrite_logic (s : State) (d : Die) (g a v : Nat) : (s.eccWrite d g a v).logic = s.logic := by
  simp [State.eccWrite]

@[simp] theorem bramStore_logic (s : State) (d : Die) (n w mask v : Nat) : (s.bramStore d n w mask v).logic = s.logic := by
  simp [State.bramStore]

@[simp] theorem bramShow_logic (s : State) (d : Die) (n port : Nat) (outReg rsto : Bool) (v : Nat) (k : EccVerdict) :
    (s.bramShow d n port outReg rsto v k).logic = s.logic := rfl

@[simp] theorem bramLoad_logic (s : State) (d : Die) (n port geom addr w : Nat) (outReg rsto : Bool) :
    (s.bramLoad d n port geom addr w outReg rsto).logic = s.logic := by
  simp [State.bramLoad]

@[simp] theorem bramEcho_logic (s : State) (d : Die) (n port geom : Nat) (outReg : Bool) (x : BramAccess) :
    (s.bramEcho d n port geom outReg x).logic = s.logic := rfl

theorem bramSimple_logic (s : State) (d : Die) (n : Nat) (cfg : Config.BramCfg) (reads : Bool) (a b : Option BramAccess) :
    (s.bramSimple d n cfg reads a b).logic = s.logic := by
  have hread (x : BramAccess) : (s.bramSimpleRead d n cfg x).logic = s.logic := by simp [State.bramSimpleRead]
  have hwrite (t : State) (x : BramAccess) : (t.bramSimpleWrite d n cfg x).logic = t.logic := by simp [State.bramSimpleWrite]
  cases a <;> cases b <;> simp [State.bramSimple, hread, hwrite]

theorem bramPortRead_logic (s : State) (d : Die) (n port geom : Nat) (outReg : Bool) (a : Option BramAccess) :
    (s.bramPortRead d n port geom outReg a).logic = s.logic := by
  cases a <;> simp [State.bramPortRead]

theorem bramPortWrite_logic (s : State) (d : Die) (n geom : Nat) (a : Option BramAccess) :
    (s.bramPortWrite d n geom a).logic = s.logic := by
  cases a <;> simp [State.bramPortWrite]

theorem bramPortEcho_logic (s : State) (d : Die) (n port geom : Nat) (outReg : Bool) (a : Option BramAccess) :
    (s.bramPortEcho d n port geom outReg a).logic = s.logic := by
  cases a <;> simp [State.bramPortEcho]

theorem bramDual_logic (s : State) (d : Die) (n : Nat) (cfg : Config.BramCfg) (reads : Bool) (a b : Option BramAccess) :
    (s.bramDual d n cfg reads a b).logic = s.logic := by
  simp [State.bramDual, bramPortRead_logic, bramPortWrite_logic, bramPortEcho_logic]

@[simp] theorem bramEdge_logic (s : State) (d : Die) (n : Nat) (a b : Option BramAccess) : (s.bramEdge d n a b).logic = s.logic := by
  simp [State.bramEdge, bramSimple_logic, bramDual_logic]

theorem bramOnEdge_logic (t o : State) (d : Die) (n : Nat) (edges : List (Nat × Bool)) : (t.bramOnEdge o d n edges).logic = t.logic := by
  simp [State.bramOnEdge]

/-! ### Multiply blocks (R120 to R123) -/

theorem multOnEdge_logic (t o : State) (d : Die) (n : Nat) (edges : List (Nat × Bool)) : (t.multOnEdge o d n edges).logic = t.logic := by
  have hclock (ce rst : Bool) (i : MultIn) (pcin : Int) : (t.multClock d n ce rst i pcin).logic = t.logic := by
    unfold State.multClock
    split
    all_goals rfl
  simp [State.multOnEdge, hclock]

/-! ### Seam registers and raw lanes (R181 to R187, R361) -/

@[simp] theorem seamLaunch_logic (s : State) (d : Die) (edge g : Nat) (v : BitVec 128) : (s.seamLaunch d edge g v).logic = s.logic := rfl

@[simp] theorem seamCapture_logic (s : State) (d : Die) (edge g : Nat) : (s.seamCapture d edge g).logic = s.logic := by
  unfold State.seamCapture
  dsimp only
  split
  · rfl
  · split
    all_goals rfl

theorem seamsOnEdge_logic (t o : State) (d : Die) (edges : Nat → List (Nat × Bool)) : (t.seamsOnEdge o d edges).logic = t.logic :=
  logic_foldl (fun t e => by simp) _ t

@[simp] theorem onLane_logic (s : State) (d : Die) (l : Nat) (f : Lane → Lane) : (s.onLane d l f).logic = s.logic := rfl

@[simp] theorem rawEvent_logic (s : State) (d : Die) (l what : Nat) : (s.rawEvent d l what).logic = s.logic := by
  simp [State.rawEvent, raise_logic _ d (loc := Ev.LAN_RAW_FIFO) (by decide)]

@[simp] theorem rawLaunch_logic (s : State) (d : Die) (l : Nat) (word : Option (BitVec 128)) : (s.rawLaunch d l word).logic = s.logic := by
  simp [State.rawLaunch]

theorem rawCycle_logic (s : State) (d : Die) (l : Nat) (word : Option (BitVec 128)) : (s.rawCycle d l word).logic = s.logic := by
  cases hrx : (s.lane d l).rx <;> cases word <;> simp [State.rawCycle, hrx]

theorem rawEdge_logic (s : State) (d : Die) (l : Nat) : (s.rawEdge d l).logic = s.logic := by
  simp [State.rawEdge, rawCycle_logic]

theorem rawsOnEdge_logic (t o : State) (d : Die) (edges : Nat → List (Nat × Bool)) : (t.rawsOnEdge o d edges).logic = t.logic := by
  refine logic_foldl (fun t e => ?_) _ t
  split
  · exact rawEdge_logic t _ _
  · rfl

/-! ### Fabric ports (R138, R144, R147, R148) -/

@[simp] theorem setTag_logic (s : State) (id tag : Nat) (x : TagSt) : (s.setTag id tag x).logic = s.logic := rfl
@[simp] theorem outst_logic (s : State) (id : Nat) (up : Bool) : (s.outst id up).logic = s.logic := rfl
@[simp] theorem tagDone_logic (s : State) (id tag : Nat) : (s.tagDone id tag).logic = s.logic := rfl
@[simp] theorem setXUsed_logic (s : State) (x : Tbl (Nat × Nat × Nat)) : (s.setXUsed x).logic = s.logic := rfl
@[simp] theorem setXWait_logic (s : State) (x : Tbl (List (NocReq × Owner))) : (s.setXWait x).logic = s.logic := rfl
@[simp] theorem setXHeld_logic (s : State) (x : Tbl (List (NocReq × Owner))) : (s.setXHeld x).logic = s.logic := rfl
@[simp] theorem setPortFifo_logic (s : State) (x : Tbl (List NocReq)) : (s.setPortFifo x).logic = s.logic := rfl
@[simp] theorem setPortTags_logic (s : State) (x : Tbl NocReq) : (s.setPortTags x).logic = s.logic := rfl

@[simp] theorem xAdmit_logic (s : State) (r : NocReq) (o : Owner) (e : Nat) (count : Bool) : (s.xAdmit r o e count).logic = s.logic := by
  simp [State.xAdmit]

@[simp] theorem sendReq_logic (s : State) (r : NocReq) : (s.sendReq r).1.logic = s.logic := by
  unfold State.sendReq
  split
  · rfl
  · split
    · rfl
    · rfl
    · dsimp only
      split
      all_goals simp

@[simp] theorem issue_logic (s : State) (r : NocReq) (o : Owner) : (s.issue r o).1.logic = s.logic := by
  unfold State.issue
  dsimp only
  split
  · rfl
  · split
    · rfl
    · split
      all_goals simp

theorem request_user_logic (s : State) (r : NocReq) (u : Nat) : (s.request r (.user u)).logic = s.logic := by
  unfold State.request
  dsimp only
  split
  · exact (emit_logic _ _).trans (issue_logic s r _)
  · exact issue_logic s r _

@[simp] theorem portAsk_logic (s : State) (d : Die) (q p : Nat) (x : PortReq) : (s.portAsk d q p x).logic = s.logic := by
  simp [State.portAsk, request_user_logic]

@[simp] theorem presentAll_logic (s : State) (d : Die) (q p : Nat) : (s.presentAll d q p).logic = s.logic := by
  unfold State.presentAll
  dsimp only
  split
  · refine logic_foldl (fun t r => ?_) _ _
    split
    all_goals rfl
  · rfl

@[simp] theorem portReply_logic (s : State) (d : Die) (q p ptag : Nat) (status : BitVec 4) (data : BitVec 512) :
    (s.portReply d q p ptag status data).logic = s.logic := by
  unfold State.portReply
  dsimp only
  split
  · rfl
  · simp

theorem netsMove_logic (s : State) (d : Die) (src : ClkSrc) (rising : Bool) (nets : List Nat) (edges : Nat → List (Nat × Bool)) :
    (s.netsMove d src rising nets edges).logic = s.logic := setFab_logic s _

theorem present_logic (s : State) (d : Die) (i : FabInput) : (s.present d i).logic = s.logic := setFab_logic s _

theorem portsOnEdge_logic (t o : State) (d : Die) (edges : Nat → List (Nat × Bool)) : (t.portsOnEdge o d edges).logic = t.logic :=
  logic_foldl (fun t e => by simp [State.portEdge]) _ t

end Sys2Proof.Machine
end

section
/-! Edges of the clock nets and the flip-flops (R72, R79, R94 to R99): which clusters take their next values on an edge, which keep theirs,
and the levels that the global nets take. -/

namespace Sys2Proof.Machine

open Config

/-! ### The flip-flops of one cluster on an edge (R72, R77, R79) -/

/-- Whether CLK0 or CLK1 of a cluster has an active edge among edges, with GSR released (R99). -/
def State.ffsTake (o : State) (d : Die) (n : Nat) (edges : List (Nat × Bool)) : Prop :=
  o.stageOf d (clusterParcel n) = 3 ∧ (o.edgeAt d edges (clusterBox n) (o.cluster d n).clk0 (o.cluster d n).inv0 ||
    o.edgeAt d edges (clusterBox n) (o.cluster d n).clk1 (o.cluster d n).inv1) = true

/-- The carry that reaches a cluster from the one below. -/
def State.carryBelow (o : State) (d : Die) (n : Nat) : Bool :=
  match clusterBelow n with
  | some m => o.sigVal d pathBound (clusterParcel n) (.out m 32)
  | none => false

/-- The next values of the flip-flops of a cluster. -/
def State.ffsNext (o : State) (d : Die) (n : Nat) (edges : List (Nat × Bool)) : BitVec 16 :=
  let cfg := o.cluster d n
  let v := fun pin => o.nodeVal d (.cell n pin)
  BitVec.ofNat 16 (ffRow cfg.async (o.edgeAt d edges (clusterBox n) cfg.clk0 cfg.inv0) (o.edgeAt d edges (clusterBox n) cfg.clk1 cfg.inv1)
    (v 64) (v 65) (v 66) (o.ff d n) 0 ((cfg.cells.zip (cellIns v)).zip (clusterOut cfg n (cellIns v) (o.carryBelow d n)).1))

theorem clusterEdge_of_ffsTake {o : State} {d : Die} {n : Nat} {edges : List (Nat × Bool)} (h : o.ffsTake d n edges) (t : State) :
    t.clusterEdge o d n edges = t.setFfs (Tbl.set t.ffs (clusterKey d n) (o.ffsNext d n edges)) := if_pos h

theorem clusterEdge_of_not_ffsTake {o : State} {d : Die} {n : Nat} {edges : List (Nat × Bool)} (h : ¬ o.ffsTake d n edges) (t : State) :
    t.clusterEdge o d n edges = t := if_neg h

theorem clusterEdge_clusters (t o : State) (d : Die) (n : Nat) (edges : List (Nat × Bool)) :
    (t.clusterEdge o d n edges).clusters = t.clusters := by
  by_cases h : o.ffsTake d n edges
  · rw [clusterEdge_of_ffsTake h, State.setFfs_clusters]
  · rw [clusterEdge_of_not_ffsTake h]

theorem ff_setFfs_self (t : State) (d : Die) (n : Nat) (q : BitVec 16) :
    (t.setFfs (Tbl.set t.ffs (clusterKey d n) q)).ff d n = q := by
  rw [State.ff, State.setFfs_ffs, Tbl.get_set_self]

theorem ff_clusterEdge_other (t o : State) (d : Die) {n m : Nat} (h : n ≠ m) (edges : List (Nat × Bool)) :
    (t.clusterEdge o d m edges).ff d n = t.ff d n := by
  have hkey : clusterKey d n ≠ clusterKey d m := by unfold clusterKey; omega
  by_cases htake : o.ffsTake d m edges
  · rw [clusterEdge_of_ffsTake htake, State.ff, State.setFfs_ffs, Tbl.get_set_ne _ _ _ hkey]
    rfl
  · rw [clusterEdge_of_not_ffsTake htake]

/-! ### The clusters of a die on an edge -/

/-- One listed cluster's part of `State.clustersOnEdge`. -/
def State.clusterStep (o : State) (d : Die) (edges : Nat → List (Nat × Bool)) (t : State) (e : Nat × ClusterCfg) : State :=
  t.clusterEdge o d (e.1 % 270336) (edges (clusterParcel (e.1 % 270336)))

/-- The clusters of a die on the edges of its parcels. -/
def State.clustersOnEdge (o : State) (d : Die) (edges : Nat → List (Nat × Bool)) : State :=
  (o.clusters.filter fun e => e.1 / 270336 == d.idx).foldl (o.clusterStep d edges) o

theorem clustersOnEdge_clusters (o : State) (d : Die) (edges : Nat → List (Nat × Bool)) :
    (o.clustersOnEdge d edges).clusters = o.clusters :=
  List.foldlRecOn (motive := fun t : State => t.clusters = o.clusters) _ _ rfl fun t ht _ _ => (clusterEdge_clusters t o d _ _).trans ht

theorem ff_foldl_clusterStep_take {o : State} {d : Die} {n : Nat} {edges : Nat → List (Nat × Bool)}
    (htake : o.ffsTake d n (edges (clusterParcel n))) (l : List (Nat × ClusterCfg)) {t : State}
    (h : (∃ e ∈ l, e.1 % 270336 = n) ∨ t.ff d n = o.ffsNext d n (edges (clusterParcel n))) :
    (l.foldl (o.clusterStep d edges) t).ff d n = o.ffsNext d n (edges (clusterParcel n)) := by
  induction l generalizing t with
  | nil => exact h.resolve_left fun ⟨e, he, _⟩ => List.not_mem_nil he
  | cons e l ih =>
    refine ih (t := o.clusterStep d edges t e) ?_
    by_cases hn : e.1 % 270336 = n
    · right
      rw [State.clusterStep, hn, clusterEdge_of_ffsTake htake, ff_setFfs_self]
    · refine h.imp (fun ⟨x, hx, hxn⟩ => ?_) fun hff => by rw [State.clusterStep, ff_clusterEdge_other t o d (Ne.symm hn), hff]
      exact ⟨x, (List.mem_cons.1 hx).resolve_left fun hxe => hn (hxe ▸ hxn), hxn⟩

/-- A listed cluster with an active edge takes its next values. -/
theorem clustersOnEdge_ff_of_ffsTake {o : State} {d : Die} {n : Nat} {edges : Nat → List (Nat × Bool)} (hn : n < 270336)
    (hset : Tbl.has o.clusters (clusterKey d n) = true) (htake : o.ffsTake d n (edges (clusterParcel n))) :
    (o.clustersOnEdge d edges).ff d n = o.ffsNext d n (edges (clusterParcel n)) := by
  obtain ⟨e, he, hkey⟩ := List.any_eq_true.1 hset
  have hkey : e.1 = clusterKey d n := beq_iff_eq.1 hkey
  unfold clusterKey at hkey
  have hdie : e.1 / 270336 = d.idx := by omega
  exact ff_foldl_clusterStep_take htake _ (.inl ⟨e, List.mem_filter.2 ⟨he, beq_iff_eq.2 hdie⟩, by omega⟩)

/-- A cluster without an active edge, or in GSR, keeps its flip-flops. -/
theorem clustersOnEdge_ff_of_not_ffsTake {o : State} {d : Die} {n : Nat} {edges : Nat → List (Nat × Bool)}
    (hkeep : ¬ o.ffsTake d n (edges (clusterParcel n))) : (o.clustersOnEdge d edges).ff d n = o.ff d n := by
  refine List.foldlRecOn (motive := fun t : State => t.ff d n = o.ff d n) _ _ rfl fun t ht e _ => ?_
  by_cases hn : e.1 % 270336 = n
  · rw [State.clusterStep, hn, clusterEdge_of_not_ffsTake hkeep, ht]
  · rw [State.clusterStep, ff_clusterEdge_other t o d (Ne.symm hn), ht]

/-! ### Levels (R94, R95) -/

theorem mem_insertNat {n m : Nat} {l : List Nat} : m ∈ insertNat n l ↔ m = n ∨ m ∈ l := by
  induction l with
  | nil => simp [insertNat]
  | cons k l ih =>
    unfold insertNat
    split
    · exact List.mem_cons
    · split
      · rename_i hnk
        rw [hnk]
        simp
      · rw [List.mem_cons, List.mem_cons, ih, or_left_comm]

theorem contains_levelSet (l : List Nat) (k m : Nat) (up : Bool) : (levelSet l k up).contains m = if m = k then up else l.contains m := by
  rw [Bool.eq_iff_iff, List.contains_iff_mem]
  cases up <;> by_cases h : m = k <;> simp [levelSet, removeNat, mem_insertNat, h]

theorem contains_foldl_levelSet_globals {d : Die} {n : Nat} {rising : Bool} (nets : List Nat) {l : List Nat}
    (h : n ∈ nets ∨ l.contains (globalKey d n) = rising) :
    (nets.foldl (fun l m => levelSet l (globalKey d m) rising) l).contains (globalKey d n) = rising := by
  induction nets generalizing l with
  | nil => exact h.resolve_left List.not_mem_nil
  | cons m nets ih =>
    refine ih (l := levelSet l (globalKey d m) rising) ?_
    rw [contains_levelSet]
    by_cases hm : n = m
    · exact .inr (if_pos (by rw [hm]))
    · have hkey : globalKey d n ≠ globalKey d m := by unfold globalKey; omega
      rw [if_neg hkey]
      exact h.imp_left fun hmem => (List.mem_cons.1 hmem).resolve_left hm

theorem globalKey_ne_regionalKey {d : Die} {n : Nat} (hn : n < 32) (p k : Nat) : globalKey d n ≠ regionalKey d p k := by
  have := Die.idx_lt d
  unfold globalKey regionalKey
  omega

/-- A global net that takes an edge has its new level afterwards, whatever the regional nets do. -/
theorem netsMove_isHigh (s : State) (d : Die) (src : ClkSrc) (rising : Bool) {nets : List Nat} (edges : Nat → List (Nat × Bool))
    {n : Nat} (hn : n < 32) (h : n ∈ nets) : (s.netsMove d src rising nets edges).isHigh (globalKey d n) = rising := by
  unfold State.netsMove State.isHigh
  rw [State.setFab_fab]
  dsimp only
  refine List.foldlRecOn (motive := fun l : List Nat => l.contains (globalKey d n) = rising) (List.range 16) _
    (contains_foldl_levelSet_globals nets (.inl h)) fun l hl p _ => ?_
  refine List.foldlRecOn (motive := fun l : List Nat => l.contains (globalKey d n) = rising) _ _ hl fun l hl e _ => ?_
  rw [contains_levelSet, if_neg (globalKey_ne_regionalKey hn p _), hl]

/-! ### The edge -/

/-- The edges that a clock source gives in the parcels of a die. -/
def State.edgesOf (o : State) (d : Die) (src : ClkSrc) (rising : Bool) (p : Nat) : List (Nat × Bool) :=
  o.parcelEdges d p src rising (o.globalEdge d src rising)

theorem clockEdge_logic (o : State) (d : Die) (src : ClkSrc) (rising : Bool) :
    (o.clockEdge d src rising).logic = (o.clustersOnEdge d (o.edgesOf d src rising)).logic := by
  unfold State.clockEdge
  dsimp only
  rw [netsMove_logic, portsOnEdge_logic, rawsOnEdge_logic, seamsOnEdge_logic,
    logic_foldl (fun t e => multOnEdge_logic t o d _ _), logic_foldl (fun t e => bramOnEdge_logic t o d _ _)]
  rfl

theorem railSettle_logic (s : State) (d : Die) : (s.railSettle d).logic = s.logic := by
  obtain ⟨k, hk⟩ := railSettle_keepers_only s d
  rw [hk]
  rfl

theorem railSettle_isHigh (s : State) (d : Die) (k : Nat) : (s.railSettle d).isHigh k = s.isHigh k := by
  obtain ⟨r, hr⟩ := railSettle_keepers_only s d
  rw [hr]
  rfl

/-- The state in which the outside of a die's routing presents inputs, with its rails settled. -/
def State.presented (s : State) (d : Die) (ins : List FabInput) : State :=
  (ins.foldl (fun s i => s.present d i) (s.railSettle d)).railSettle d

theorem presented_logic (s : State) (d : Die) (ins : List FabInput) : (s.presented d ins).logic = s.logic := by
  rw [State.presented, railSettle_logic, logic_foldl (fun t i => present_logic t d i), railSettle_logic]

theorem exec_flipFlopClockEdge_moves {die : FDie} {src : ClkSrc} {rising : Bool} {ins : List FabInput} {s : State}
    (h : (s.presented die.die ins).srcMoves die.die src rising = true) : exec (.flipFlopClockEdge die src rising ins) s =
    .next (((s.presented die.die ins).clockEdge die.die src rising).railSettle die.die) :=
  congrArg Host.Outcome.next (if_pos h)

theorem exec_flipFlopClockEdge_still {die : FDie} {src : ClkSrc} {rising : Bool} {ins : List FabInput} {s : State}
    (h : (s.presented die.die ins).srcMoves die.die src rising = false) :
    exec (.flipFlopClockEdge die src rising ins) s = .next (s.presented die.die ins) :=
  congrArg Host.Outcome.next (if_neg fun hmoves => Bool.false_ne_true (h.symm.trans hmoves))

theorem clockEdge_settled_logic (u : State) (d : Die) (src : ClkSrc) (rising : Bool) :
    ((u.clockEdge d src rising).railSettle d).logic = (u.clustersOnEdge d (u.edgesOf d src rising)).logic :=
  (railSettle_logic _ d).trans (clockEdge_logic u d src rising)

theorem clockEdge_settled_clusters (s : State) (d : Die) (src : ClkSrc) (rising : Bool) (ins : List FabInput) :
    (((s.presented d ins).clockEdge d src rising).railSettle d).clusters = s.clusters := by
  rw [clusters_of_logic (clockEdge_settled_logic _ d src rising), clustersOnEdge_clusters, clusters_of_logic (presented_logic s d ins)]

/-! ### SR in ASYNC mode (R79) -/

/-- The flip-flops of a cluster have taken SRVAL. -/
def State.srTaken (s : State) (d : Die) (n : Nat) : State :=
  s.setFfs (Tbl.set s.ffs (clusterKey d n) (BitVec.ofNat 16 (srRow (s.ff d n) 0 (s.cluster d n).cells)))

theorem exec_asyncSrAssert_acts {die : FDie} {cluster : Fin 270336} {s : State} (hasync : (s.cluster die.die cluster).async = true)
    (hstage : s.stageOf die.die (clusterParcel cluster) = 3) (hsr : s.nodeVal die.die (.cell cluster 66) = true) :
    exec (.asyncSrAssert die cluster) s = .next ((s.srTaken die.die cluster).railSettle die.die) :=
  congrArg Host.Outcome.next (if_pos (by rw [hasync, hstage, hsr]; rfl))

theorem exec_asyncSrAssert_ignored {die : FDie} {cluster : Fin 270336} {s : State}
    (h : (s.cluster die.die cluster).async = false ∨ s.stageOf die.die (clusterParcel cluster) ≠ 3 ∨
      s.nodeVal die.die (.cell cluster 66) = false) : exec (.asyncSrAssert die cluster) s = .next s := by
  refine congrArg Host.Outcome.next (if_neg fun hacts => ?_)
  simp only [Bool.and_eq_true, beq_iff_eq] at hacts
  obtain ⟨⟨hasync, hstage⟩, hsr⟩ := hacts
  rw [hasync, hsr] at h
  simp [hstage] at h

/-- Settles O5, clause by clause: the flip-flops by `clustersOnEdge_ff_of_ffsTake` and `clustersOnEdge_ff_of_not_ffsTake`, since nothing
else on an edge changes them (`clockEdge_logic`), and the levels by `netsMove_isHigh`. -/
theorem flipFlopCommandsRun : Obligations.FlipFlopCommandsRun := by
  unfold Obligations.FlipFlopCommandsRun
  refine ⟨?takes, ?keeps, ?levels, ?still, ?srActs, ?srIgnored⟩
  case takes =>
    rintro die cluster src rising ins edges cfg e0 e1 s u hu hmoves hset rfl rfl rfl rfl hedge hstage
    obtain rfl : u = s.presented die.die ins := hu
    have hexec := exec_flipFlopClockEdge_moves hmoves
    have hlogic := clockEdge_settled_logic (s.presented die.die ins) die.die src rising
    refine ⟨_, hexec, ?_, clockEdge_settled_clusters s die.die src rising ins, keepsMem_of_exec rfl hexec⟩
    rw [ff_of_logic hlogic]
    exact clustersOnEdge_ff_of_ffsTake cluster.isLt hset ⟨hstage, hedge⟩
  case keeps =>
    rintro die cluster src rising ins edges cfg s u hu rfl rfl hkeep
    obtain rfl : u = s.presented die.die ins := hu
    have hff := ff_of_logic (presented_logic s die.die ins) die.die cluster
    cases hmoves : (s.presented die.die ins).srcMoves die.die src rising with
    | false =>
      have hexec := exec_flipFlopClockEdge_still hmoves
      exact ⟨_, hexec, hff, clusters_of_logic (presented_logic s die.die ins), keepsMem_of_exec rfl hexec⟩
    | true =>
      have hexec := exec_flipFlopClockEdge_moves hmoves
      have hlogic := clockEdge_settled_logic (s.presented die.die ins) die.die src rising
      refine ⟨_, hexec, ?_, clockEdge_settled_clusters s die.die src rising ins, keepsMem_of_exec rfl hexec⟩
      rw [ff_of_logic hlogic, clustersOnEdge_ff_of_not_ffsTake ?_, hff]
      rintro ⟨hstage, hedge⟩
      rcases hkeep with hlt | ⟨h0, h1⟩
      · exact absurd hstage (Nat.ne_of_lt hlt)
      · rw [State.edgesOf, h0, h1] at hedge
        exact Bool.false_ne_true hedge
  case levels =>
    rintro die n src rising ins s u hu hmoves hnet
    obtain rfl : u = s.presented die.die ins := hu
    have hexec := exec_flipFlopClockEdge_moves hmoves
    have hn : n < 32 := List.mem_range.1 (List.mem_filter.1 hnet).1
    exact ⟨_, hexec, (railSettle_isHigh _ _ _).trans (netsMove_isHigh _ _ _ _ _ hn hnet), keepsMem_of_exec rfl hexec⟩
  case still =>
    rintro die src rising ins s u rfl hstill
    exact exec_flipFlopClockEdge_still hstill
  case srActs =>
    intro die cluster s hasync hstage hsr
    have hexec := exec_asyncSrAssert_acts hasync hstage hsr
    have hlogic := railSettle_logic (s.srTaken die.die cluster) die.die
    exact ⟨_, hexec, (ff_of_logic hlogic _ _).trans (ff_setFfs_self s _ _ _),
      (clusters_of_logic hlogic).trans (State.setFfs_clusters s _),
      railSettle_keeps (State.keepsRegs_of_regs (State.setFfs_regs s _) []) _, keepsMem_of_exec rfl hexec⟩
  case srIgnored =>
    intro die cluster s h
    exact exec_asyncSrAssert_ignored h

end Sys2Proof.Machine
end

section
/-! Multiply blocks (R118 to R123): the arithmetic of the pre-adder, the multiplier and the output stage, what an enabled edge leaves in
the stages, and when an edge leaves a block as it is. -/

namespace Sys2Proof.Machine

/-! ### Wrapping to a width (R118) -/

/-- Wrapping to `w` bits is the library's balanced remainder modulo 2^w. -/
theorem wrapS_eq_bmod {w : Nat} (hw : 0 < w) (i : Int) : wrapS w i = i.bmod (2 ^ w) := by
  have hpos : (0 : Int) < (2 ^ w : Nat) := Int.natCast_pos.2 (Nat.two_pow_pos w)
  have hnonneg := Int.emod_nonneg i (Int.ne_of_gt hpos)
  have hlt := Int.emod_lt_of_pos i hpos
  have hcast : ((patternOf w i : Nat) : Int) = i % (2 ^ w : Nat) := Int.toNat_of_nonneg hnonneg
  have hpattern : patternOf w i % 2 ^ w = patternOf w i := Nat.mod_eq_of_lt (by omega)
  have hhalf : 2 ^ (w - 1) + 2 ^ (w - 1) = 2 ^ w := Nat.two_pow_pred_add_two_pow_pred hw
  have hsign : patternOf w i < 2 ^ (w - 1) ↔ i % (2 ^ w : Nat) < ((2 ^ w : Nat) + 1) / 2 := by omega
  simp only [wrapS, signedOf, hpattern, Int.bmod_def, hcast, hsign]

/-- The pre-adder's sum modulo 2^26 as a signed value; a sum in that range is not changed. -/
theorem wrapS_26 (i : Int) : -(2 ^ 25) ≤ wrapS 26 i ∧ wrapS 26 i < 2 ^ 25 ∧ (wrapS 26 i - i) % 2 ^ 26 = 0 ∧
    (-(2 ^ 25) ≤ i → i < 2 ^ 25 → wrapS 26 i = i) := by
  rw [wrapS_eq_bmod (by decide), Int.bmod_def]
  omega

/-! ### The product (R119) -/

theorem natAbs_mul_le_two_pow {x y : Int} (hx : x.natAbs ≤ 2 ^ 25) (hy : y.natAbs ≤ 2 ^ 19) : (x * y).natAbs ≤ 2 ^ 44 := by
  have hmul := Nat.mul_le_mul hx hy
  rw [Int.natAbs_mul]
  omega

/-- A product of magnitude 2^44 has both factors at their greatest magnitudes. -/
theorem natAbs_mul_eq_two_pow_iff {x y : Int} (hx : x.natAbs ≤ 2 ^ 25) (hy : y.natAbs ≤ 2 ^ 19) :
    (x * y).natAbs = 2 ^ 44 ↔ x.natAbs = 2 ^ 25 ∧ y.natAbs = 2 ^ 19 := by
  rw [Int.natAbs_mul]
  constructor
  · intro h
    have hxfull : 2 ^ 25 ≤ x.natAbs := Nat.le_of_not_lt fun hlt => by
      have := Nat.mul_le_mul (Nat.le_sub_one_of_lt hlt) hy
      omega
    have hyfull : 2 ^ 19 ≤ y.natAbs := Nat.le_of_not_lt fun hlt => by
      have := Nat.mul_le_mul hx (Nat.le_sub_one_of_lt hlt)
      omega
    exact ⟨Nat.le_antisymm hx hxfull, Nat.le_antisymm hy hyfull⟩
  · rintro ⟨hxfull, hyfull⟩
    calc x.natAbs * y.natAbs = 2 ^ 25 * 2 ^ 19 := by rw [hxfull, hyfull]
      _ = 2 ^ 44 := by omega

/-! ### The output stage (R122) -/

/-- A power of two that the model counts in `Nat`, as the integer it stands for. -/
theorem two_pow_cast (n : Nat) : ((2 ^ n : Nat) : Int) = 2 ^ n := Int.natCast_pow 2 n

theorem two_pow_cast_pos (n : Nat) : (0 : Int) < (2 ^ n : Nat) := Int.natCast_pos.2 (Nat.two_pow_pos n)

theorem roundShift_zero (p : Int) (convergent : Bool) : roundShift p 0 convergent = p := rfl

/-- Truncation drops the shifted-out bits. -/
theorem roundShift_truncate (p : Int) (shift : Nat) : roundShift p shift false = p / (2 ^ shift : Nat) := by
  cases shift with
  | zero => exact (Int.ediv_one p).symm
  | succ n => rfl

/-- Truncation rounds toward minus infinity. -/
theorem roundShift_truncate_bounds (p : Int) (shift : Nat) :
    roundShift p shift false * (2 ^ shift : Nat) ≤ p ∧ p < (roundShift p shift false + 1) * (2 ^ shift : Nat) := by
  have hpos := two_pow_cast_pos shift
  rw [roundShift_truncate]
  exact ⟨Int.ediv_mul_le p (Int.ne_of_gt hpos), Int.lt_ediv_add_one_mul_self p hpos⟩

/-- Whether convergent rounding of a quotient with a remainder goes up: from above the half, and at the half from an odd quotient. -/
def roundsUp (quotient rest step : Int) : Prop := step < 2 * rest ∨ (2 * rest = step ∧ quotient % 2 = 1)

theorem roundShift_convergent (p : Int) {shift : Nat} (h : shift ≠ 0) :
    (roundsUp (p / (2 ^ shift : Nat)) (p % (2 ^ shift : Nat)) (2 ^ shift : Nat) ∧
      roundShift p shift true = p / (2 ^ shift : Nat) + 1) ∨
    (¬ roundsUp (p / (2 ^ shift : Nat)) (p % (2 ^ shift : Nat)) (2 ^ shift : Nat) ∧
      roundShift p shift true = p / (2 ^ shift : Nat)) := by
  have hhalf : 2 ^ (shift - 1) + 2 ^ (shift - 1) = 2 ^ shift := Nat.two_pow_pred_add_two_pow_pred (Nat.pos_of_ne_zero h)
  simp only [roundShift, if_neg h, Bool.true_and, Bool.or_eq_true, Bool.and_eq_true, decide_eq_true_eq, beq_iff_eq, roundsUp]
  generalize p % (2 ^ shift : Nat) = r, p / (2 ^ shift : Nat) = q
  split
  · next hup => exact .inl ⟨by omega, rfl⟩
  · next hdown => exact .inr ⟨by omega, rfl⟩

/-- Convergent rounding is within half a step of the exact quotient, and even where it is half a step away. -/
theorem roundShift_convergent_nearest (p : Int) (shift : Nat) :
    2 * (p - roundShift p shift true * (2 ^ shift : Nat)).natAbs ≤ 2 ^ shift ∧
    (shift ≠ 0 → 2 * (p - roundShift p shift true * (2 ^ shift : Nat)).natAbs = 2 ^ shift → roundShift p shift true % 2 = 0) := by
  by_cases h : shift = 0
  · subst h
    rw [roundShift_zero]
    omega
  · have hpos := two_pow_cast_pos shift
    have hnonneg := Int.emod_nonneg p (Int.ne_of_gt hpos)
    have hlt := Int.emod_lt_of_pos p hpos
    have hsplit := Int.ediv_mul_add_emod p (2 ^ shift : Nat)
    rcases roundShift_convergent p h with ⟨hup, hv⟩ | ⟨hdown, hv⟩
    · rw [hv, Int.add_mul, Int.one_mul]
      unfold roundsUp at hup
      omega
    · rw [hv]
      unfold roundsUp at hdown
      omega

theorem multOut_unsaturated {cfg : Config.MultCfg} (h : cfg.saturate = false) (p : Int) :
    multOut cfg p = (roundShift p cfg.shift cfg.convergent, false) :=
  if_neg fun hon => Bool.false_ne_true (h.symm.trans hon)

/-- Saturation clamps the rounded result, and SAT says whether it did. -/
theorem multOut_saturated {cfg : Config.MultCfg} (h : cfg.saturate = true) (p : Int) : multOut cfg p =
    if ((2 ^ (cfg.satWidth - 1) : Nat) : Int) - 1 < roundShift p cfg.shift cfg.convergent then
      (((2 ^ (cfg.satWidth - 1) : Nat) : Int) - 1, true)
    else if roundShift p cfg.shift cfg.convergent < -((2 ^ (cfg.satWidth - 1) : Nat) : Int) then
      (-((2 ^ (cfg.satWidth - 1) : Nat) : Int), true)
    else (roundShift p cfg.shift cfg.convergent, false) := if_pos h

/-! ### The stages after an enabled edge (R118 to R120, R123) -/

theorem multEdge_rst (cfg : Config.MultCfg) (r : MultRegs) (i : MultIn) (pcin : Int) : multEdge cfg r i pcin true = MultRegs.zero := rfl

theorem multEdge_pre (cfg : Config.MultCfg) (r : MultRegs) (i : MultIn) (pcin : Int) : (multEdge cfg r i pcin false).pre =
    if cfg.preadd then wrapS 26 (
      if (if cfg.stage1 then r.psub else i.psub) then (if cfg.stage1 then r.a else i.a.toInt) - (if cfg.stage1 then r.d else i.d.toInt)
      else (if cfg.stage1 then r.a else i.a.toInt) + (if cfg.stage1 then r.d else i.d.toInt))
    else if cfg.stage1 then r.a else i.a.toInt := rfl

theorem multEdge_m (cfg : Config.MultCfg) (r : MultRegs) (i : MultIn) (pcin : Int) : (multEdge cfg r i pcin false).m =
    if cfg.stage2 then r.pre * r.b2 else (multEdge cfg r i pcin false).pre * (if cfg.stage1 then r.b else i.b.toInt) := by
  cases h : cfg.stage2 with
  | false => simp only [multEdge, h, Bool.false_eq_true, if_false]
  | true => simp only [multEdge, h, Bool.false_eq_true, if_false, if_true]

theorem multEdge_out (cfg : Config.MultCfg) (r : MultRegs) (i : MultIn) (pcin : Int) :
    ((multEdge cfg r i pcin false).o, (multEdge cfg r i pcin false).sat) = multOut cfg r.p := rfl

/-- In a block of stage 4 alone, without pre-adder, an edge with ZSEL = 0b01 and MSUB = 0 accumulates the product of A and B. -/
theorem multEdge_accumulates {cfg : Config.MultCfg} {i : MultIn} (hstage1 : cfg.stage1 = false) (hstage2 : cfg.stage2 = false)
    (hstage3 : cfg.stage3 = false) (hpreadd : cfg.preadd = false) (hzsel : i.zsel = 1) (hmsub : i.msub = false) (r : MultRegs)
    (pcin : Int) : (multEdge cfg r i pcin false).p = wrapS 64 (r.p + i.a.toInt * i.b.toInt) := by
  have hz : i.zsel.toNat = 1 := congrArg BitVec.toNat hzsel
  simp only [multEdge, hstage1, hstage2, hstage3, hpreadd, hz, hmsub, Bool.false_eq_true, if_false]

/-! ### The edge of one block (R120, R123) -/

/-- Settling the rails leaves what does not look at the keepers. -/
theorem railSettle_frame {α : Type} (f : State → α) (hf : ∀ (s : State) (k : Tbl Nat), f (s.setRailKeep k) = f s) (s : State)
    (d : Die) : f (s.railSettle d) = f s := by
  obtain ⟨k, hk⟩ := railSettle_keepers_only s d
  rw [hk, hf]

theorem multClock_acts {s : State} {d : Die} {n : Nat} (hstage : s.stageOf d (multParcel n) = 3)
    (hfrozen : s.frozen.contains (parcelKey d (multParcel n)) = false) (rst : Bool) (i : MultIn) (pcin : Int) :
    s.multClock d n true rst i pcin =
      s.setMults (Tbl.set s.mults (multKey d n) (multEdge (s.multSet d n) (s.mult d n) i pcin rst)) :=
  if_pos (by rw [hstage, hfrozen]; rfl)

/-- Without CE, and before stage 3 of the parcel's release, an edge leaves the block as it is. -/
theorem multClock_idle {s : State} {d : Die} {n : Nat} {ce : Bool} (h : ce = false ∨ s.stageOf d (multParcel n) < 3) (rst : Bool)
    (i : MultIn) (pcin : Int) : s.multClock d n ce rst i pcin = s := by
  refine if_neg fun hacts => ?_
  simp only [Bool.and_eq_true, beq_iff_eq] at hacts
  obtain ⟨⟨hce, hstage⟩, -⟩ := hacts
  rcases h with hoff | hlt
  · exact Bool.false_ne_true (hoff.symm.trans hce)
  · omega

theorem exec_multiplyClockEdge (die : FDie) (block : Fin 4224) (ce rst : Bool) (i : MultIn) (s : State) :
    exec (.multiplyClockEdge die block ce rst i) s =
      .next ((s.multClock die.die block ce rst i (s.pcin die.die block)).railSettle die.die) := rfl

/-- An enabled edge moves every stage of its block on, and changes no setting, no register and no byte of memory. -/
theorem exec_multiplyClockEdge_acts {die : FDie} {block : Fin 4224} {s : State} (hstage : s.stageOf die.die (multParcel block) = 3)
    (hfrozen : s.frozen.contains (parcelKey die.die (multParcel block)) = false) (rst : Bool) (i : MultIn) :
    ∃ t, exec (.multiplyClockEdge die block true rst i) s = .next t ∧
      t.mult die.die block = multEdge (s.multSet die.die block) (s.mult die.die block) i (s.pcin die.die block) rst ∧
      t.multSet die.die block = s.multSet die.die block ∧ s.keepsRegs [] t ∧ s.keepsMem t := by
  have hexec := exec_multiplyClockEdge die block true rst i s
  rw [multClock_acts hstage hfrozen] at hexec
  refine ⟨_, hexec, ?_, railSettle_frame (·.multSet die.die block) (fun _ _ => rfl) _ _,
    railSettle_keeps (State.keepsRegs_of_regs (State.setMults_regs s _) []) _, keepsMem_of_exec rfl hexec⟩
  rw [railSettle_frame (·.mult die.die block) fun _ _ => rfl, State.mult, State.setMults_mults, Tbl.get_set_self]

theorem exec_multiplyClockEdge_idle {die : FDie} {block : Fin 4224} {ce : Bool} {s : State}
    (h : ce = false ∨ s.stageOf die.die (multParcel block) < 3) (rst : Bool) (i : MultIn) :
    exec (.multiplyClockEdge die block ce rst i) s = .next (s.railSettle die.die) := by
  rw [exec_multiplyClockEdge, multClock_idle h]

/-- Settles O7, part by part of the data path: the pre-adder by `wrapS_26`, the product by `natAbs_mul_eq_two_pow_iff`, rounding by the
`roundShift_` lemmas and saturation by `multOut_saturated`. -/
theorem multiplyBlockArithmetic : Obligations.MultiplyBlockArithmetic := by
  unfold Obligations.MultiplyBlockArithmetic
  refine ⟨?stages, ?product, ?rounds, ?saturates⟩
  case stages =>
    intro die block i a b d psub s hstage hfrozen ha hb hd hpsub
    obtain ⟨t, hexec, hmult, hset, -, -⟩ := exec_multiplyClockEdge_acts hstage hfrozen false i
    have hpre : (t.mult die.die block).pre =
        if (s.multSet die.die block).preadd then wrapS 26 (if psub then a - d else a + d) else a := by
      rw [hmult, multEdge_pre, ← ha, ← hd, ← hpsub]
    refine ⟨t, hexec, fun hon => ?_, fun hoff => ?_, ?_, ?_⟩
    · rw [hpre, if_pos hon]
      obtain ⟨hlower, hupper, hmod, hsame⟩ := wrapS_26 (if psub then a - d else a + d)
      refine ⟨hlower, hupper, hmod, fun _ _ _ _ => hsame ?_ ?_⟩
      all_goals split <;> omega
    · rw [hpre, hoff]
      rfl
    · rw [hmult, multEdge_m, ← hb]
    · rw [State.multO, hset, hmult, multEdge_out]
  case product =>
    intro x y hx0 hx1 hy0 hy1
    have hx : x.natAbs ≤ 2 ^ 25 := by omega
    have hy : y.natAbs ≤ 2 ^ 19 := by omega
    refine ⟨natAbs_mul_le_two_pow hx hy, (natAbs_mul_eq_two_pow_iff hx hy).trans ?_⟩
    omega
  case rounds =>
    intro cfg p v hsat hv
    rw [multOut_unsaturated hsat] at hv ⊢
    subst hv
    refine ⟨rfl, fun hzero => ?_, fun htrunc => ?_, fun hconv => ?_⟩
    · rw [hzero, roundShift_zero]
    · rw [htrunc, ← two_pow_cast]
      exact roundShift_truncate_bounds p cfg.shift
    · rw [hconv, ← two_pow_cast]
      exact roundShift_convergent_nearest p cfg.shift
  case saturates =>
    intro cfg p v hsat _ _ hv
    rw [multOut_unsaturated rfl] at hv
    have hpos := two_pow_cast_pos (cfg.satWidth - 1)
    rw [multOut_saturated hsat, ← two_pow_cast, ← show v = roundShift p cfg.shift cfg.convergent from hv]
    refine ⟨fun hhigh => if_pos hhigh, fun hlow => ?_, fun hlow hhigh => ?_⟩
    · rw [if_neg (by omega), if_pos hlow]
    · rw [if_neg (by omega), if_neg (by omega)]

end Sys2Proof.Machine
end

section
/-! Block RAM (R105 to R111, R114) and the commands of chapter 04: what a port's access to one internal word stores and presents, when an
edge does nothing, and the frame of each access. -/

namespace Sys2Proof.Machine

/-! ### One internal word (R109 to R111) -/

theorem eccData_of_bram {s t : State} (h : t.bram = s.bram) (d : Die) (a : Nat) : t.eccData d 0 a = s.eccData d 0 a :=
  congrArg (Tbl.get 0 · _) h

/-- `t` holds `v` in word `a` of a die's block RAMs, and what `s` holds in every other word of that die. -/
def State.storesWord (s t : State) (d : Die) (a v : Nat) : Prop :=
  t.eccData d 0 a = v ∧ ∀ b, b ≠ a → t.eccData d 0 b = s.eccData d 0 b

theorem storesWord_of_bram {s t u : State} {d : Die} {a v : Nat} (hbram : u.bram = t.bram) (h : s.storesWord t d a v) :
    s.storesWord u d a v := by
  obtain ⟨hword, hother⟩ := h
  exact ⟨(eccData_of_bram hbram d a).trans hword, fun b hb => (eccData_of_bram hbram d b).trans (hother b hb)⟩

theorem setEccData_storesWord (s : State) (d : Die) (a : Nat) {v : Nat} (hv : v < 2 ^ 32) :
    s.storesWord (s.setEccData d 0 a v) d a v := by
  constructor
  · exact (Tbl.get_set_self 0 s.bram _ _).trans (Nat.mod_eq_of_lt hv)
  · intro b hb
    exact Tbl.get_set_ne 0 s.bram _ fun h => hb (Nat.add_left_cancel h)

theorem eccWrite_bram (s : State) (d : Die) (a v : Nat) : (s.eccWrite d 0 a v).bram = (s.setEccData d 0 a v).bram := by
  unfold State.eccWrite
  dsimp only
  split
  all_goals rfl

theorem mergeBytes_lt (old new mask n : Nat) : mergeBytes old new mask n < 256 ^ n := by
  induction n generalizing old new mask with
  | zero => exact Nat.one_pos
  | succ n ih =>
    have hrest := ih (old / 256) (new / 256) (mask / 2)
    have hbyte : (if mask % 2 = 1 then new % 256 else old % 256) < 256 := by split <;> omega
    rw [mergeBytes, Nat.pow_succ]
    omega

theorem eccCheck_unmarked {s : State} {d : Die} {g a : Nat} (h : s.eccMarked d g a = false) :
    s.eccCheck d g a = (s.eccData d g a, .clean) := by
  simp only [State.eccCheck, h, Bool.false_eq_true, if_false]

theorem bramStore_nothing (s : State) (d : Die) (n w v : Nat) : s.bramStore d n w 0 v = s := rfl

theorem bramStore_full_storesWord (s : State) (d : Die) (n w : Nat) {v : Nat} (hv : v < 2 ^ 32) :
    s.storesWord (s.bramStore d n w 15 v) d (n * 1024 + w) v :=
  storesWord_of_bram (eccWrite_bram s d _ v) (setEccData_storesWord s d _ hv)

/-- A narrow write merges its bytes into a word without an error. -/
theorem bramStore_narrow_storesWord {s : State} {d : Die} {n w mask : Nat} (hsome : mask ≠ 0) (hnarrow : mask ≠ 15)
    (hclean : s.eccMarked d 0 (n * 1024 + w) = false) (v : Nat) : s.storesWord (s.bramStore d n w mask v) d (n * 1024 + w)
      (mergeBytes (s.eccData d 0 (n * 1024 + w)) v mask 4) := by
  refine storesWord_of_bram ?_ (setEccData_storesWord s d _ (mergeBytes_lt _ _ _ 4))
  simp only [State.bramStore, if_neg hsome, if_neg hnarrow, eccCheck_unmarked hclean]
  rfl

/-- The two stores of a full ×64 write: the low word and the high word, and no other (R106). -/
theorem bramStore_wide (s : State) (d : Die) (n w : Nat) {low high : Nat} (hlow : low < 2 ^ 32) (hhigh : high < 2 ^ 32) {t : State}
    (ht : t.bram = ((s.bramStore d n w 15 low).bramStore d n (w + 1) 15 high).bram) :
    t.eccData d 0 (n * 1024 + w) = low ∧ t.eccData d 0 (n * 1024 + w + 1) = high ∧
      ∀ a, a ≠ n * 1024 + w → a ≠ n * 1024 + w + 1 → t.eccData d 0 a = s.eccData d 0 a := by
  rw [Nat.add_assoc]
  obtain ⟨hword, hother⟩ := bramStore_full_storesWord s d n w hlow
  obtain ⟨hword', hother'⟩ := storesWord_of_bram ht (bramStore_full_storesWord _ d n (w + 1) hhigh)
  exact ⟨(hother' _ (by omega)).trans hword, hword', fun a ha ha' => (hother' a ha').trans (hother a ha)⟩

/-! ### What a read presents (R107) -/

/-- DOUT of a port of a block. -/
def State.bramDout (s : State) (d : Die) (n port : Nat) : Nat := (Tbl.get BramPort.none s.bramPorts (bramKey d n * 2 + port)).dout

theorem eccCapture_regs_only (s : State) (d : Die) (g a : Nat) : ∃ r, s.eccCapture d g a = s.setRegs r := by
  unfold State.eccCapture
  split
  · exact ⟨_, rfl⟩
  · exact ⟨s.regs, rfl⟩

/-- A read, without an output register, of an internal word without an error presents that word, and changes nothing else but the
registers of an armed CAPTURE. -/
theorem bramLoad_unmarked {s : State} {d : Die} {n w : Nat} (hclean : s.eccMarked d 0 (n * 1024 + w) = false) (port addr : Nat)
    (rsto : Bool) : ∃ r, s.bramLoad d n port 2 addr w false rsto = (s.setRegs r).setBramPorts (Tbl.set s.bramPorts
      (bramKey d n * 2 + port) ⟨s.eccData d 0 (n * 1024 + w), false, false, s.eccData d 0 (n * 1024 + w), false, false⟩) := by
  obtain ⟨r, hr⟩ := eccCapture_regs_only s d 0 (n * 1024 + w)
  refine ⟨r, ?_⟩
  simp only [State.bramLoad, State.eccRead, eccCheck_unmarked hclean, hr]
  rfl

theorem bramDout_set_self (s : State) (d : Die) (n port : Nat) (p : BramPort) :
    (s.setBramPorts (Tbl.set s.bramPorts (bramKey d n * 2 + port) p)).bramDout d n port = p.dout := by
  rw [State.bramDout, State.setBramPorts_bramPorts, Tbl.get_set_self]

theorem bramDout_set_other (s : State) (d : Die) (n : Nat) {port q : Nat} (h : q ≠ port) (p : BramPort) :
    (s.setBramPorts (Tbl.set s.bramPorts (bramKey d n * 2 + port) p)).bramDout d n q = s.bramDout d n q := by
  rw [State.bramDout, State.setBramPorts_bramPorts, Tbl.get_set_ne _ _ _ fun hkey => h (Nat.add_left_cancel hkey), State.bramDout]

/-- One port's read of a word without an error: DOUT and the block RAMs after it. -/
theorem bramLoad_presents {s : State} {d : Die} {n w : Nat} (hclean : s.eccMarked d 0 (n * 1024 + w) = false) (port addr : Nat)
    (rsto : Bool) : (s.bramLoad d n port 2 addr w false rsto).bramDout d n port = s.eccData d 0 (n * 1024 + w) ∧
      (s.bramLoad d n port 2 addr w false rsto).bram = s.bram := by
  obtain ⟨r, hr⟩ := bramLoad_unmarked hclean port addr rsto
  rw [hr]
  exact ⟨bramDout_set_self (s.setRegs r) d n port _, rfl⟩

/-- The two reads of a ×64 access: the low word on DOUT of A, the high word on DOUT of B (R106). -/
theorem bramLoad_presents_wide {s : State} {d : Die} {n w : Nat} (hlow : s.eccMarked d 0 (n * 1024 + w) = false)
    (hhigh : s.eccMarked d 0 (n * 1024 + w + 1) = false) (rsto : Bool) {t : State}
    (ht : t = (s.bramLoad d n 0 2 0 w false rsto).bramLoad d n 1 2 0 (w + 1) false rsto) :
    t.bramDout d n 0 = s.eccData d 0 (n * 1024 + w) ∧ t.bramDout d n 1 = s.eccData d 0 (n * 1024 + w + 1) ∧ t.bram = s.bram := by
  obtain ⟨r, hr⟩ := bramLoad_unmarked hlow 0 0 rsto
  rw [hr] at ht
  rw [Nat.add_assoc] at hhigh ⊢
  obtain ⟨r', hr'⟩ := bramLoad_unmarked (s := (s.setRegs r).setBramPorts _) (w := w + 1) hhigh 1 0 rsto
  rw [ht, hr']
  refine ⟨?_, bramDout_set_self _ d n 1 _, rfl⟩
  exact (bramDout_set_other _ d n Nat.zero_ne_one _).trans (bramDout_set_self (s.setRegs r) d n 0 _)

/-! ### An edge with one access (R105, R108, R114) -/

/-- From stage 2 of its parcel's release, in a parcel that is not frozen, a block takes accesses. -/
def State.bramTakes (s : State) (d : Die) (n : Nat) : Prop :=
  2 ≤ s.stageOf d (bramParcel n) ∧ s.frozen.contains (parcelKey d (bramParcel n)) = false

theorem bramTakes_of_stage {s : State} {d : Die} {n : Nat} (hstage : s.stageOf d (bramParcel n) = 3)
    (hfrozen : s.frozen.contains (parcelKey d (bramParcel n)) = false) : s.bramTakes d n := ⟨by omega, hfrozen⟩

theorem bramEdge_not_takes {s : State} {d : Die} {n : Nat} (h : ¬ s.bramTakes d n) (a b : Option BramAccess) :
    s.bramEdge d n a b = s := by
  refine if_pos ?_
  rw [Bool.or_eq_true, decide_eq_true_eq]
  by_cases hstage : s.stageOf d (bramParcel n) < 2
  · exact .inl hstage
  · exact .inr (eq_true_of_ne_false fun hfrozen => h ⟨Nat.le_of_not_lt hstage, hfrozen⟩)

theorem bramEdge_takes {s : State} {d : Die} {n : Nat} (h : s.bramTakes d n) (a b : Option BramAccess) : s.bramEdge d n a b =
    if (s.bramSet d n).simple then s.bramSimple d n (s.bramSet d n) (s.stageOf d (bramParcel n) == 3) a b
    else s.bramDual d n (s.bramSet d n) (s.stageOf d (bramParcel n) == 3) a b := by
  obtain ⟨hstage, hfrozen⟩ := h
  refine if_neg ?_
  rw [hfrozen, Bool.or_false, decide_eq_true_eq]
  omega

theorem bramWe_zero {x : BramAccess} (h : x.we = 0) (geom : Nat) : bramWe geom x = 0 := by
  rw [bramWe, h]
  exact Nat.zero_mod _

/-- Where WE is all 0 in the bytes that a geometry uses, no byte of an internal word is enabled. -/
theorem bramLanes_mask_zero {geom : Nat} {x : BramAccess} (h : bramWe geom x = 0) : (bramLanes geom x).2.1 = 0 := by
  unfold bramLanes
  split
  · exact (congrArg (· * _) h).trans (Nat.zero_mul _)
  · exact (congrArg (· * _) h).trans (Nat.zero_mul _)
  · next h0 h1 =>
    rw [bramWe, if_neg h0, if_neg h1] at h
    exact h

theorem bramPortWrite_read {x : BramAccess} {geom : Nat} (h : bramWe geom x = 0) (s : State) (d : Die) (n : Nat) :
    s.bramPortWrite d n geom (some x) = s := by
  simp only [State.bramPortWrite, bramLanes_mask_zero h, bramStore_nothing]

theorem bramSimpleWrite_read {x : BramAccess} (h : x.we = 0) (s : State) (d : Die) (n : Nat) (cfg : Config.BramCfg) :
    s.bramSimpleWrite d n cfg x = s := by
  unfold State.bramSimpleWrite
  split
  · rw [h]
    rfl
  · have hmask := bramLanes_mask_zero (geom := cfg.geomA) (x := x) (bramWe_zero h _)
    simp only [hmask, bramStore_nothing]

theorem bramPortEcho_bram (s : State) (d : Die) (n port geom : Nat) (outReg : Bool) (a : Option BramAccess) :
    (s.bramPortEcho d n port geom outReg a).bram = s.bram := by
  cases a with
  | none => rfl
  | some x =>
    unfold State.bramPortEcho
    dsimp only
    split
    all_goals rfl

/-- Before stage 3 a read is not performed. -/
theorem bramAccess_read_withheld {s : State} {d : Die} {n : Nat} (hstage : s.stageOf d (bramParcel n) < 3) (portB : Bool)
    {x : BramAccess} (hwe : x.we = 0) : s.bramAccess d n portB x none = s := by
  have hedge (a b : Option BramAccess) (h : (a = some x ∧ b = none) ∨ (a = none ∧ b = some x)) : s.bramEdge d n a b = s := by
    by_cases htakes : s.bramTakes d n
    · have hnoread : (s.stageOf d (bramParcel n) == 3) = false := beq_eq_false_iff_ne.2 (Nat.ne_of_lt hstage)
      rw [bramEdge_takes htakes, hnoread]
      rcases h with ⟨rfl, rfl⟩ | ⟨rfl, rfl⟩ <;> split
      · exact bramSimpleWrite_read hwe s d n _
      · exact bramPortWrite_read (bramWe_zero hwe _) s d n
      · rfl
      · exact bramPortWrite_read (bramWe_zero hwe _) s d n
    · exact bramEdge_not_takes htakes a b
  cases portB with
  | false => exact hedge _ _ (.inl ⟨rfl, rfl⟩)
  | true => exact hedge _ _ (.inr ⟨rfl, rfl⟩)

/-- A block is true dual-port, and its ports both have 32-bit words. -/
def State.bramDual32 (s : State) (d : Die) (n : Nat) : Prop :=
  (s.bramSet d n).simple = false ∧ (s.bramSet d n).geomA = 2 ∧ (s.bramSet d n).geomB = 2

/-- A read at either port of a true dual-port block reads the addressed word at that port. -/
theorem bramAccess_dual32_read {s : State} {d : Die} {n : Nat} (htakes : s.bramTakes d n) (hreads : s.stageOf d (bramParcel n) = 3)
    (hset : s.bramDual32 d n) (houtA : (s.bramSet d n).outA = false) (houtB : (s.bramSet d n).outB = false) (portB : Bool)
    {x : BramAccess} (hwe : x.we = 0) : s.bramAccess d n portB x none =
      s.bramLoad d n (natOf portB) 2 x.addr.toNat (x.addr.toNat % 1024) false x.rsto := by
  obtain ⟨hdual, hgeomA, hgeomB⟩ := hset
  have hread : bramWe 2 x = 0 := bramWe_zero hwe 2
  cases portB
  all_goals
    simp only [State.bramAccess, bramEdge_takes htakes, hdual, hreads, State.bramDual, hgeomA, hgeomB, houtA, houtB, beq_self_eq_true,
      if_true, Bool.false_eq_true, if_false, bramPortWrite_read hread]
    simp only [State.bramPortRead, State.bramPortWrite, State.bramPortEcho, if_pos hread]
    rfl

/-- A write at either port of a true dual-port block stores the addressed word, and changes no other. -/
theorem bramAccess_dual32_write_bram {s : State} {d : Die} {n : Nat} (htakes : s.bramTakes d n) (hset : s.bramDual32 d n)
    (portB : Bool) {x : BramAccess} (hwe : x.we.toNat % 16 ≠ 0) : (s.bramAccess d n portB x none).bram =
      (s.bramStore d n (x.addr.toNat % 1024) (x.we.toNat % 16) (x.din.toNat % 2 ^ 32)).bram := by
  obtain ⟨hdual, hgeomA, hgeomB⟩ := hset
  have hwrite : bramWe 2 x ≠ 0 := hwe
  cases portB
  all_goals
    simp only [State.bramAccess, bramEdge_takes htakes, hdual, State.bramDual, hgeomA, hgeomB, Bool.false_eq_true, if_false, if_true]
    simp only [State.bramPortRead, if_neg hwrite, ite_self, apply_ite State.bram, bramPortEcho_bram]
    rfl

/-- A ×64 write stores the low word and the high word (R106). -/
theorem bramAccess_wide_write {s : State} {d : Die} {n : Nat} (htakes : s.bramTakes d n) (hsimple : (s.bramSet d n).simple = true)
    (hgeom : (s.bramSet d n).geomA = 3) (x : BramAccess) : s.bramAccess d n false x none =
      (s.bramStore d n (2 * (x.addr.toNat % 512)) (x.we.toNat % 16) (x.din.toNat % 2 ^ 32)).bramStore d n
        (2 * (x.addr.toNat % 512) + 1) (x.we.toNat / 16) (x.din.toNat / 2 ^ 32) := by
  simp only [State.bramAccess, bramEdge_takes htakes, hsimple, State.bramSimple, State.bramSimpleWrite, hgeom, Bool.false_eq_true,
    if_false, if_true]

/-- A ×64 read reads the low word and the high word (R106). -/
theorem bramAccess_wide_read {s : State} {d : Die} {n : Nat} (htakes : s.bramTakes d n) (hreads : s.stageOf d (bramParcel n) = 3)
    (hsimple : (s.bramSet d n).simple = true) (hgeom : (s.bramSet d n).geomB = 3) (hout : (s.bramSet d n).outB = false)
    (x : BramAccess) : s.bramAccess d n true x none =
      (s.bramLoad d n 0 2 0 (2 * (x.addr.toNat % 512)) false x.rsto).bramLoad d n 1 2 0 (2 * (x.addr.toNat % 512) + 1) false x.rsto := by
  simp only [State.bramAccess, bramEdge_takes htakes, hreads, hsimple, State.bramSimple, State.bramSimpleRead, hgeom, hout,
    beq_self_eq_true, if_true]

/-! ### The commands -/

theorem exec_bramRead (die : FDie) (block : Fin 2112) (portB : Bool) (addr : BitVec 12) (rsto : Bool) (s : State) :
    exec (.bramRead die block portB addr rsto none) s =
      .next ((s.bramAccess die.die block portB ⟨addr, 0, 0, rsto⟩ none).railSettle die.die) := rfl

theorem exec_bramWrite (die : FDie) (block : Fin 2112) (portB : Bool) (x : BramAccess) (s : State) :
    exec (.bramWrite die block portB x none) s = .next ((s.bramAccess die.die block portB x none).railSettle die.die) := rfl

theorem exec_bramNarrowWrite (die : FDie) (block : Fin 2112) (portB : Bool) (x : BramAccess) (s : State) :
    exec (.bramNarrowWrite die block portB x none) s = .next ((s.bramAccess die.die block portB x none).railSettle die.die) := rfl

theorem railSettle_bram (s : State) (d : Die) : (s.railSettle d).bram = s.bram := railSettle_frame State.bram (fun _ _ => rfl) s d

theorem railSettle_bramDout (s : State) (d e : Die) (n port : Nat) : (s.railSettle d).bramDout e n port = s.bramDout e n port :=
  railSettle_frame (·.bramDout e n port) (fun _ _ => rfl) s d

/-- Settles O6: each access of a block RAM by the law of its port mode (the `bramAccess_` lemmas) and of the words that it loads or stores
(`bramLoad_presents`, the `bramStore_` lemmas), and the edges of multiply blocks by `exec_multiplyClockEdge_acts` and
`exec_multiplyClockEdge_idle`. -/
theorem blockRamAndMultiplyCommandsRun : Obligations.BlockRamAndMultiplyCommandsRun := by
  unfold Obligations.BlockRamAndMultiplyCommandsRun
  refine ⟨?read, ?fullWrite, ?narrowWrite, ?readWithheld, ?wideWrite, ?wideRead, ?multEnabled, ?multNoCe, ?multHeld⟩
  case read =>
    rintro die block portB rsto addr c s hstage hfrozen rfl hdual hgeomA hgeomB houtA houtB hclean
    have hexec := exec_bramRead die block portB addr rsto s
    rw [bramAccess_dual32_read (bramTakes_of_stage hstage hfrozen) hstage ⟨hdual, hgeomA, hgeomB⟩ houtA houtB portB rfl] at hexec
    obtain ⟨hdout, hbram⟩ := bramLoad_presents hclean (natOf portB) addr.toNat rsto
    exact ⟨_, hexec, (railSettle_bramDout ..).trans hdout, (railSettle_bram ..).trans hbram, keepsMem_of_exec rfl hexec⟩
  case fullWrite =>
    rintro die block portB x c s hwe hstage hfrozen rfl hdual hgeomA hgeomB
    have hexec := exec_bramWrite die block portB x s
    have hbram := bramAccess_dual32_write_bram ⟨hstage, hfrozen⟩ ⟨hdual, hgeomA, hgeomB⟩ portB (x := x) (by omega)
    rw [hwe] at hbram
    obtain ⟨hword, hother⟩ := storesWord_of_bram ((railSettle_bram _ die.die).trans hbram)
      (bramStore_full_storesWord s die.die block _ (Nat.mod_lt _ (by decide)))
    exact ⟨_, hexec, hword, hother, keepsMem_of_exec rfl hexec⟩
  case narrowWrite =>
    rintro die block portB x c s hsome hnarrow hstage hfrozen rfl hdual hgeomA hgeomB hclean
    have hexec := exec_bramNarrowWrite die block portB x s
    have hbram := bramAccess_dual32_write_bram ⟨hstage, hfrozen⟩ ⟨hdual, hgeomA, hgeomB⟩ portB hsome
    obtain ⟨hword, hother⟩ := storesWord_of_bram ((railSettle_bram _ die.die).trans hbram)
      (bramStore_narrow_storesWord hsome hnarrow hclean _)
    exact ⟨_, hexec, hword, hother, keepsMem_of_exec rfl hexec⟩
  case readWithheld =>
    intro die block portB rsto addr s hstage
    rw [exec_bramRead, bramAccess_read_withheld hstage portB rfl]
  case wideWrite =>
    rintro die block x c s hwe hstage hfrozen rfl hsimple hgeom
    have hexec := exec_bramWrite die block false x s
    have hhigh : x.din.toNat / 2 ^ 32 < 2 ^ 32 := Nat.div_lt_of_lt_mul x.din.isLt
    have hweA : x.we.toNat % 16 = 15 := by rw [hwe]; rfl
    have hweB : x.we.toNat / 16 = 15 := by rw [hwe]; rfl
    rw [bramAccess_wide_write ⟨hstage, hfrozen⟩ hsimple hgeom, hweA, hweB] at hexec
    obtain ⟨hlowWord, hhighWord, hother⟩ := bramStore_wide s die.die block _ (Nat.mod_lt _ (Nat.two_pow_pos 32)) hhigh
      (railSettle_bram _ die.die)
    exact ⟨_, hexec, hlowWord, hhighWord, hother, keepsMem_of_exec rfl hexec⟩
  case wideRead =>
    rintro die block addr c s hstage hfrozen rfl hsimple hgeom hout hlow hhigh
    have hexec := exec_bramRead die block true addr false s
    rw [bramAccess_wide_read (bramTakes_of_stage hstage hfrozen) hstage hsimple hgeom hout] at hexec
    obtain ⟨hdoutA, hdoutB, hbram⟩ := bramLoad_presents_wide hlow hhigh false rfl
    exact ⟨_, hexec, (railSettle_bramDout ..).trans hdoutA, (railSettle_bramDout ..).trans hdoutB, (railSettle_bram ..).trans hbram,
      keepsMem_of_exec rfl hexec⟩
  case multEnabled =>
    intro die block rst i s hstage hfrozen
    obtain ⟨t, hexec, hmult, -, hregs, hmem⟩ := exec_multiplyClockEdge_acts hstage hfrozen rst i
    refine ⟨t, hexec, hregs, hmem, ?_, ?_⟩
    · cases rst with
      | false => exact hmult
      | true => exact hmult.trans (multEdge_rst ..)
    · rintro c rfl h1 h2 h3 hpreadd rfl hzsel hmsub
      rw [hmult, multEdge_accumulates h1 h2 h3 hpreadd hzsel hmsub]
  case multNoCe =>
    intro die block rst i s
    exact exec_multiplyClockEdge_idle (.inl rfl) rst i
  case multHeld =>
    intro die block ce rst i s hstage
    exact exec_multiplyClockEdge_idle (.inr hstage) rst i

end Sys2Proof.Machine
end

section
/-! Fabric ports (R147 to R149): what an initiator port takes from its logic, and what a target port sends on of its logic's answer. -/

namespace Sys2Proof.Machine

/-! ### The identity of a fabric port (R133) -/

theorem FDie.isFab_die (die : FDie) : die.die.isFab = true := by cases die <;> rfl

theorem Die.ofIdx_idx (d : Die) : Die.ofIdx d.idx = d := by cases d <;> rfl

/-- An identity holds its router's row and column and its endpoint beside its die. -/
theorem ident_parts (d : Die) {row col e : Nat} (hrow : row < 8) (hcol : col < 8) (he : e < 8) :
    idDie (ident d row col e) = d ∧ idRow (ident d row col e) = row ∧ idCol (ident d row col e) = col ∧
      ident d row col e % 8 = e := by
  have hdie : ident d row col e / 512 = d.idx := by
    unfold ident
    omega
  refine ⟨?_, ?_, ?_, ?_⟩
  · rw [idDie, hdie, Die.ofIdx_idx]
  all_goals
    simp only [idRow, idCol, ident]
    omega

theorem portIdent_parts (d : Die) (q p : Fin 16) : idDie (portIdent d q p) = d ∧ idRow (portIdent d q p) = 2 * (q / 4) + p / 8 ∧
    idCol (portIdent d q p) = 2 * (q % 4) + p / 4 % 2 ∧ portIdent d q p % 8 = p % 4 :=
  ident_parts d (by omega) (by omega) (by omega)

/-- The place of a fabric port in the rows and columns of its die names its parcel and itself. -/
theorem idPort_portIdent (die : FDie) (q p : Fin 16) : idPort (portIdent die.die q p) = some (q.val, p.val) := by
  obtain ⟨hdie, hrow, hcol, hend⟩ := portIdent_parts die.die q p
  have hport : (idDie (portIdent die.die q p)).isFab = true ∧ portIdent die.die q p % 8 < 4 := by
    rw [hdie, hend]
    exact ⟨FDie.isFab_die die, Nat.mod_lt _ (by decide)⟩
  rw [idPort, if_pos hport, hrow, hcol, hend, Option.some.injEq, Prod.mk.injEq]
  omega

/-! ### An initiator port (R147, R149) -/

theorem mayIssue_portIdent (s : State) (die : FDie) (q p : Fin 16) : s.mayIssue (portIdent die.die q p) =
    ((s.modeOf die.die q p == 1 || s.modeOf die.die q p == 3) && s.portsRun die.die q &&
      decide (s.get (atEp (portIdent die.die q p)) .NOC_EP_STAT_OUTST < 64)) := by
  obtain ⟨hdie, -⟩ := portIdent_parts die.die q p
  rw [State.mayIssue, idPort_portIdent, hdie]

theorem portsRun_of_open {s : State} {d : Die} {q : Nat} (hstage : 2 ≤ s.stageOf d q)
    (hfence : s.get (atDie d) (.NOC_FENCE_STAT_P q) = 0) : s.portsRun d q = true := by
  simp [State.portsRun, hstage, hfence]

theorem portsRun_of_shut {s : State} {d : Die} {q : Nat}
    (h : s.stageOf d q < 2 ∨ s.get (atDie d) (.NOC_FENCE_STAT_P q) ≠ 0) : s.portsRun d q = false := by
  rcases h with hstage | hfence
  · simp [State.portsRun, Nat.not_le.2 hstage]
  · simp [State.portsRun, hfence]

theorem portAsk_ready {s : State} {d : Die} {q p : Nat} (h : s.mayIssue (portIdent d q p) = true) (x : PortReq) :
    s.portAsk d q p x = s.request ⟨BitVec.ofNat 12 (portIdent d q p), BitVec.ofNat 10 ((s.freeTag (portIdent d q p)).getD 0), 0, x.cls,
      x.op, x.size, x.alloc, 0, x.addr, x.data, x.be, 0, 0⟩ (.user x.user.toNat) := if_pos h

theorem portAsk_heldBack {s : State} {d : Die} {q p : Nat} (h : s.mayIssue (portIdent d q p) = false) (x : PortReq) :
    s.portAsk d q p x = s := if_neg (by simp [h])

/-! ### A target port (R148) -/

/-- With nothing in its crossing FIFO a port presents nothing. -/
theorem presentAll_nothing {s : State} {d : Die} {q p : Nat} (h : Tbl.get [] s.portFifo (fportKey d q p) = []) :
    ∃ fifo, s.presentAll d q p = s.setPortFifo fifo := by
  unfold State.presentAll
  dsimp only
  rw [h]
  split
  · exact ⟨_, rfl⟩
  · exact ⟨s.portFifo, rfl⟩

/-- The status that a target port sends on for one of its logic (R148). -/
def portStatus (status : BitVec 4) : Nat := if status = 0 ∨ status = 1 ∨ status = 5 ∨ status = 6 then status.toNat else 5

/-- The answer of a target port's logic frees its port tag and is sent to the initiator of the request. -/
theorem portReply_answers {s : State} {d : Die} {q p ptag : Nat} {r : NocReq} {key : Nat}
    (htag : s.portTags.find? (fun e => e.1 == fportKey d q p * 64 + ptag) = some (key, r)) (hstage : 2 ≤ s.stageOf d q)
    (hfifo : Tbl.get [] s.portFifo (fportKey d q p) = []) (status : BitVec 4) (data : BitVec 512) :
    ∃ fifo, s.portReply d q p ptag status data =
      ((s.setPortTags (Tbl.erase s.portTags (fportKey d q p * 64 + ptag))).emit
        (.response r.src.toNat r.tag.toNat r.gen.toNat (portStatus status) data.toNat)).setPortFifo fifo := by
  unfold State.portReply
  dsimp only
  rw [htag]
  dsimp only
  rw [if_pos hstage]
  exact presentAll_nothing hfifo

/-- Settles O14: an initiator port that may issue (`mayIssue_portIdent`) issues what its logic presents, and a target port's answer is
that of `portReply_answers`. -/
theorem fabricPortCommandsRun : Obligations.FabricPortCommandsRun := by
  unfold Obligations.FabricPortCommandsRun
  refine ⟨?issues, ?heldBack, ?answers⟩
  case issues =>
    intro die q p user op cls size alloc addr data be s hmode hstage hfence houtst
    refine congrArg Host.Outcome.next (portAsk_ready ?_ ⟨user, op, cls, size, alloc, addr, data, be⟩)
    rw [mayIssue_portIdent, portsRun_of_open hstage hfence]
    simp [hmode, houtst]
  case heldBack =>
    intro die q p user op cls size alloc addr data be s hshut
    refine congrArg Host.Outcome.next (portAsk_heldBack ?_ _)
    rw [mayIssue_portIdent]
    rcases hshut with hoff | htarget | hshut
    · simp [hoff]
    · simp [htarget]
    · simp [portsRun_of_shut hshut]
  case answers =>
    intro die q p ptag status data r s htag hstage hfifo
    obtain ⟨fifo, hreply⟩ := portReply_answers htag hstage hfifo status data
    have hexec : exec (.fabricPortTargetResponse die q p ptag status data) s = _ := congrArg Host.Outcome.next hreply
    exact ⟨_, hexec, rfl, rfl, State.keepsRegs_of_regs rfl _, keepsMem_of_exec rfl hexec⟩

end Sys2Proof.Machine
end

section
/-! Fences, power steps and captures of parcels (R159, R235 to R237, R241, R242): what each command leaves in the step of its parcel and
in the registers. -/

namespace Sys2Proof.Machine

theorem State.setFence_die_get (s : State) (a b : Die) {n : Nat} (hn : n < 4) : (s.setFence (.die a b) n).fence (.die a b) = n := by
  have hbits : (Fld.NOC_DFENCE_STAT_D b.idx).lo + (Fld.NOC_DFENCE_STAT_D b.idx).width ≤ 32 := by
    have hdie := Die.idx_lt b
    simp only [Fld.NOC_DFENCE_STAT_D]
    omega
  exact (State.get_put_self s _ _ n hbits).trans (Nat.mod_eq_of_lt hn)

/-! ### Power requests (R235, R237) -/

/-- A fold whose step acts on one element of the list alone is that step. -/
theorem foldl_acts_once {α β : Type} {f : β → α → β} {x : α} {l : List α} (hl : l.Nodup) (hx : x ∈ l)
    (hid : ∀ b, ∀ y ≠ x, f b y = b) (b : β) : l.foldl f b = f b x := by
  have hnone : ∀ l : List α, x ∉ l → ∀ b, l.foldl f b = b := fun l hl b =>
    List.foldlRecOn (motive := fun c => c = b) l f rfl fun c hc y hy => by
      rw [hid c y fun hyx => hl (hyx ▸ hy), hc]
  obtain ⟨l₁, l₂, rfl⟩ := List.append_of_mem hx
  obtain ⟨-, hnodup, hdisjoint⟩ := List.nodup_append.1 hl
  rw [List.foldl_append, hnone l₁ (fun h => hdisjoint x h x List.mem_cons_self rfl), List.foldl_cons,
    hnone l₂ (List.nodup_cons.1 hnodup).1]

theorem mem_range_parcel (p : Fin 16) : p.val ∈ List.range 16 := List.mem_range.2 p.isLt

theorem bitOf_zero (k : Nat) : bitOf 0 k = false := by simp [bitOf]

theorem bitOf_two_pow (p k : Nat) : bitOf (2 ^ p) k = decide (p = k) := by rw [bitOf_eq_testBit, Nat.testBit_two_pow]

/-- The mask of a test that no parcel but one can meet. -/
theorem parcelMask_one {t : Nat → Bool} {p : Fin 16} (h : ∀ k ≠ p.val, t k = false) :
    parcelMask t = if t p then 2 ^ p.val else 0 := by
  have hstep : ∀ n, ∀ k ≠ p.val, (if t k then n + 2 ^ k else n) = n := fun n k hk => by rw [h k hk]; rfl
  rw [parcelMask, foldl_acts_once List.nodup_range (mem_range_parcel p) hstep 0, Nat.zero_add]

/-- Whether a request of PRC_PG_CTRL is for one parcel alone. -/
def asksOnly (down up : Nat) (p : Fin 16) : Prop := ∀ k ≠ p.val, bitOf down k = false ∧ bitOf up k = false

theorem asksOnly_down (p : Fin 16) : asksOnly (2 ^ p.val) 0 p := fun k hk =>
  ⟨by rw [bitOf_two_pow, decide_eq_false hk.symm], bitOf_zero k⟩

theorem asksOnly_up (p : Fin 16) : asksOnly 0 (2 ^ p.val) p := fun k hk =>
  ⟨bitOf_zero k, by rw [bitOf_two_pow, decide_eq_false hk.symm]⟩

theorem toNat_ofNat_two_pow (p : Fin 16) : (BitVec.ofNat 16 (2 ^ p.val)).toNat = 2 ^ p.val := by
  rw [BitVec.toNat_ofNat, Nat.mod_eq_of_lt (Nat.pow_lt_pow_right (by decide) p.isLt)]

/-- The mask of the misfits of a request for one parcel. -/
theorem misfitMask_one {down up : Nat} {p : Fin 16} (h : asksOnly down up p) (s : State) (d : Die) :
    parcelMask (fun k => s.powerMisfit d down up k) = if s.powerMisfit d down up p then 2 ^ p.val else 0 :=
  parcelMask_one fun k hk => by
    obtain ⟨hdown, hup⟩ := h k hk
    simp [State.powerMisfit, hdown, hup]

/-- A request that fits its parcel starts the parcel's first step down, or its first step up. -/
theorem parcelPower_fits {down up : Nat} {p : Fin 16} (h : asksOnly down up p) {s : State} {d : Die}
    (hfit : s.powerMisfit d down up p = false) : s.parcelPower d down up =
      if bitOf down p then s.setPowerStep d p 1 else if bitOf up p then s.setPowerStep d p 4 else s := by
  unfold State.parcelPower
  simp only [misfitMask_one h, hfit, Bool.false_eq_true, if_false, bitOf_zero, if_true]
  exact foldl_acts_once List.nodup_range (mem_range_parcel p) (fun t k hk => by
    obtain ⟨hdown, hup⟩ := h k hk
    simp [hdown, hup]) s

/-- A request that does not fit its parcel is reported and does no more. -/
theorem parcelPower_misfits {down up : Nat} {p : Fin 16} (h : asksOnly down up p) {s : State} {d : Die}
    (hmisfit : s.powerMisfit d down up p = true) : s.parcelPower d down up =
      (s.setBit (atDie d) .PRC_PG_STAT_IGNORED p).raise d Ev.PRC_REQ_IGNORED (2 ^ p.val * 2 ^ 8) := by
  have hfold : (List.range 16).foldl (fun (t : State) k =>
      if bitOf (2 ^ p.val) k then t
      else if bitOf down k then t.setPowerStep d k 1
      else if bitOf up k then t.setPowerStep d k 4
      else t) s = s := by
    refine List.foldlRecOn (motive := fun t => t = s) _ _ rfl fun t ht k _ => ?_
    by_cases hk : k = p.val
    · rw [hk, bitOf_two_pow, decide_eq_true rfl, if_pos rfl, ht]
    · obtain ⟨hdown, hup⟩ := h k hk
      simp [hdown, hup, ht]
  have hbad : 2 ^ p.val ≠ 0 := Nat.ne_of_gt (Nat.two_pow_pos _)
  unfold State.parcelPower
  simp only [misfitMask_one h, hmisfit, if_true, hfold, if_neg hbad]
  rfl

theorem exec_parcelPowerDown (die : FDie) (p : Fin 16) (s : State) :
    exec (.parcelPowerDown die (BitVec.ofNat 16 (2 ^ p.val)) 0) s = .next (s.parcelPower die.die (2 ^ p.val) 0) :=
  congrArg (fun down => Host.Outcome.next (s.parcelPower die.die down 0)) (toNat_ofNat_two_pow p)

theorem exec_parcelPowerUp (die : FDie) (p : Fin 16) (s : State) :
    exec (.parcelPowerUp die (BitVec.ofNat 16 (2 ^ p.val))) s = .next (s.parcelPower die.die 0 (2 ^ p.val)) :=
  congrArg (fun up => Host.Outcome.next (s.parcelPower die.die 0 up)) (toNat_ofNat_two_pow p)

theorem powerStep_setPowerStep_self (s : State) (d : Die) (p : Nat) {n : Nat} (hn : n ≠ 0) :
    (s.setPowerStep d p n).powerStep d p = n := by
  rw [State.powerStep, State.setPowerStep, if_neg hn]
  exact Tbl.get_set_self ..

/-! ### The power switches (R235 steps 3 and 5) -/

theorem captureDrop_keeps {L : List Reg} (hL : .PRC_CAP_STAT ∈ L) {s t : State} (h : s.keepsRegs L t) (d : Die) (p : Nat) :
    s.keepsRegs L (t.captureDrop d p) := by
  unfold State.captureDrop
  dsimp only
  split
  · exact keeps_put hL (atDie_code d) (keeps_same h rfl)
  · exact keeps_same h rfl

theorem captureDrop_prcStep (s : State) (d : Die) (p : Nat) : (s.captureDrop d p).prcStep = s.prcStep := by
  unfold State.captureDrop
  dsimp only
  split <;> rfl

/-- A parcel whose switches open, before its capture frames go: GATED, with no power step left. -/
def State.switchedOff (s : State) (d : Die) (p : Nat) : State :=
  (((if s.parcelSt d p = 2 then s.setPrcBlank (insertNat (parcelKey d p) s.prcBlank) else s).setParcelSt d p 3).setPowerStep d p 0).setBit
    (atDie d) .PRC_PG_STAT_GATED p

/-- A parcel whose switches have opened, before the event that says so. -/
def State.switchedOpen (s : State) (d : Die) (p : Nat) : State :=
  ((s.switchedOff d p).captureDrop d p).setBramDef (removeNat (parcelKey d p) (s.switchedOff d p).bramDef)

theorem switchOpen_eq (s : State) (d : Die) (p : Nat) :
    s.switchOpen d p = (s.switchedOpen d p).raise d Ev.PRC_POWER (2 ^ p) := by
  rw [State.switchOpen]
  rfl

theorem switchedOff_keeps (s : State) (d : Die) (p : Nat) : s.keepsRegs [.PRC_STATE, .PRC_PG_STAT] (s.switchedOff d p) := by
  have hstart : s.keepsRegs [.PRC_STATE, .PRC_PG_STAT]
      (if s.parcelSt d p = 2 then s.setPrcBlank (insertNat (parcelKey d p) s.prcBlank) else s) := by
    split
    · exact State.keepsRegs_of_regs rfl _
    · exact keeps_refl _ s
  exact keeps_setBit (by decide) (atDie_code d) (keeps_same (keeps_put List.mem_cons_self (atDie_code d) hstart) rfl)

theorem switchedOff_parcelSt (s : State) (d : Die) (p : Fin 16) : (s.switchedOff d p).parcelSt d p = 3 := by
  have hbits : (Fld.PRC_STATE_P p).lo + (Fld.PRC_STATE_P p).width ≤ 32 := by
    simp only [Fld.PRC_STATE_P]
    omega
  have hother : Reg.PRC_PG_STAT.ctorIdx ≠ Reg.PRC_STATE.ctorIdx := by decide
  exact (get_put_of_ne _ _ hother (atDie_code d) (atDie_code d)).trans (State.get_put_self _ _ _ 3 hbits)

theorem switchedOff_gated (s : State) (d : Die) (p : Fin 16) : (s.switchedOff d p).bit (atDie d) .PRC_PG_STAT_GATED p = true :=
  State.bit_setBit_self _ _ (by decide) p.isLt

theorem switchedOff_prcStep (s : State) (d : Die) (p : Nat) :
    (s.switchedOff d p).prcStep = Tbl.erase s.prcStep (parcelKey d p) := by
  unfold State.switchedOff
  split <;> rfl

/-- Dropping the capture frames, the block RAM contents and the event leave the registers of a parcel's power as they are. -/
theorem switchOpen_get (s : State) (d : Die) (p : Nat) {f : Fld} (hf : f.reg ∉ .PRC_CAP_STAT :: eventRegs) :
    (s.switchOpen d p).get (atDie d) f = (s.switchedOff d p).get (atDie d) f := by
  obtain ⟨hcap, hevent⟩ := not_or.1 (mt List.mem_cons.2 hf)
  have hdrop : (s.switchedOff d p).keepsRegs [.PRC_CAP_STAT] (s.switchedOpen d p) :=
    keeps_same (captureDrop_keeps (by decide) (keeps_refl _ _) d p) rfl
  rw [switchOpen_eq, State.raise_get _ _ _ (by decide) hevent (atDie_code d),
    State.get_of_keepsRegs hdrop (atDie_code d) fun h => hcap (List.mem_singleton.1 h)]

theorem switchOpen_keeps (s : State) (d : Die) (p : Nat) :
    s.keepsRegs (.PRC_STATE :: .PRC_PG_STAT :: .PRC_CAP_STAT :: eventRegs) (s.switchOpen d p) := by
  have hoff := keeps_of_subset (M := .PRC_STATE :: .PRC_PG_STAT :: .PRC_CAP_STAT :: eventRegs) (by decide) (switchedOff_keeps s d p)
  exact keeps_raise (by decide) (by decide) (keeps_same (captureDrop_keeps (by decide) hoff d p) rfl)

theorem switchOpen_prcStep (s : State) (d : Die) (p : Nat) :
    (s.switchOpen d p).prcStep = Tbl.erase s.prcStep (parcelKey d p) := by
  rw [switchOpen_eq, Raised.prcStep_eq (State.raise_raised _ d _ (by decide)), ← switchedOff_prcStep]
  exact captureDrop_prcStep ..

/-! ### Capture requests (R241, R242) -/

/-- The state in which PRC_CAP_CTRL names a parcel, and whether its capture freezes it. -/
def State.captureNamed (s : State) (d : Die) (p : Fin 16) (freeze : Bool) : State :=
  s.puts (atDie d) [(.PRC_CAP_CTRL_PARCEL, p), (.PRC_CAP_CTRL_FREEZE, natOf freeze)]

/-- Whether a capture of a parcel is refused (R242). -/
def State.captureRefuses (s : State) (d : Die) (p : Nat) : Bool :=
  s.flag (atDie d) .PRC_CAP_STAT_BUSY || s.flag (atDie d) .PRC_CAP_STAT_FROZEN || s.parcelSt d p == 1 || s.parcelSt d p == 3 ||
    s.loadTarget d p

theorem captureNamed_keeps (s : State) (d : Die) (p : Fin 16) (freeze : Bool) : s.keepsRegs [.PRC_CAP_CTRL] (s.captureNamed d p freeze) :=
  keeps_puts _ (by simp only [List.forall_mem_cons]; decide) (atDie_code d) (keeps_refl _ s)

theorem captureNamed_parcel (s : State) (d : Die) (p : Fin 16) (freeze : Bool) :
    (s.captureNamed d p freeze).get (atDie d) .PRC_CAP_CTRL_PARCEL = p :=
  (State.get_puts_first (by decide) (by simp only [List.map]; decide) s).trans (Nat.mod_eq_of_lt p.isLt)

theorem captureNamed_freeze (s : State) (d : Die) (p : Fin 16) (freeze : Bool) :
    (s.captureNamed d p freeze).flag (atDie d) .PRC_CAP_CTRL_FREEZE = freeze := by
  rw [State.flag, State.captureNamed, State.puts_cons, State.get_puts_first (by decide) (by decide)]
  cases freeze <;> rfl

theorem captureNamed_refuses (s : State) (d : Die) (p : Fin 16) (freeze : Bool) :
    (s.captureNamed d p freeze).captureRefuses d p = s.captureRefuses d p := by
  have hget {f : Fld} (hf : f.reg ∉ [Reg.PRC_CAP_CTRL]) : (s.captureNamed d p freeze).get (atDie d) f = s.get (atDie d) f :=
    State.get_of_keepsRegs (captureNamed_keeps s d p freeze) (atDie_code d) hf
  simp only [State.captureRefuses, State.flag, State.parcelSt, State.loadTarget, State.bit, hget (f := .PRC_CAP_STAT_BUSY) (by decide),
    hget (f := .PRC_CAP_STAT_FROZEN) (by decide), hget (f := .PRC_STATE_P p) (by simp [Fld.PRC_STATE_P]),
    hget (f := .PRC_LOAD_STAT_STATE) (by decide), hget (f := .PRC_LOAD_STAT_TARGETS) (by decide)]

theorem State.setCapWait_get (s : State) (v : Tbl CapReq) (a : At) (f : Fld) : (s.setCapWait v).get a f = s.get a f :=
  State.get_of_regs rfl a f

/-- A capture that is refused is reported and does no more. -/
theorem exec_captureRequest_refused {die : FDie} {p : Fin 16} {s : State} (h : s.captureRefuses die.die p = true) (freeze : Bool) :
    exec (.captureRequest die p freeze) s = .next (((s.captureNamed die.die p freeze).put (atDie die.die) .PRC_CAP_STAT_IGNORED 1).raise
      die.die Ev.PRC_REQ_IGNORED (1 + 2 ^ p.val * 2 ^ 8)) := by
  rw [← captureNamed_refuses s die.die p freeze, State.captureRefuses] at h
  change Host.Outcome.next ((s.captureNamed die.die p freeze).captureRequest die.die) = _
  simp only [State.captureRequest, captureNamed_parcel, h, if_true]

/-- A capture that is taken waits for its copy. -/
theorem exec_captureRequest_taken {die : FDie} {p : Fin 16} {s : State} (h : s.captureRefuses die.die p = false) (freeze : Bool) :
    exec (.captureRequest die p freeze) s = .next (((s.captureNamed die.die p freeze).put (atDie die.die) .PRC_CAP_STAT_BUSY 1).setCapWait
      (Tbl.set s.capWait die.die.idx ⟨p, freeze, false, 0, 0⟩)) := by
  have hwait : (s.captureNamed die.die p freeze).capWait = s.capWait := rfl
  rw [← captureNamed_refuses s die.die p freeze, State.captureRefuses] at h
  change Host.Outcome.next ((s.captureNamed die.die p freeze).captureRequest die.die) = _
  simp only [State.captureRequest, captureNamed_parcel, captureNamed_freeze, hwait, h, Bool.false_eq_true, if_false]

/-! ### The end of a copy, and RESUME (R241) -/

/-- The fields of PRC_CAP_STAT that the end of a copy puts. -/
def State.captureShown (s : State) (d : Die) (c : CapReq) : State :=
  s.puts (atDie d) [(.PRC_CAP_STAT_VALID, 1), (.PRC_CAP_STAT_BUSY, 0), (.PRC_CAP_STAT_PARCEL, c.parcel), (.PRC_CAP_STAT_STROKE, c.stroke)]

theorem captureShown_reads (s : State) (d : Die) (c : CapReq) : (s.captureShown d c).get (atDie d) .PRC_CAP_STAT_VALID = 1 ∧
    (s.captureShown d c).get (atDie d) .PRC_CAP_STAT_BUSY = 0 := by
  constructor
  · exact State.get_puts_first (by decide) (by simp only [List.map]; decide) s
  · rw [State.captureShown, State.puts_cons]
    exact State.get_puts_first (by decide) (by simp only [List.map]; decide) _

theorem captureShown_keeps (s : State) (d : Die) (c : CapReq) : s.keepsRegs [.PRC_CAP_STAT] (s.captureShown d c) :=
  keeps_puts _ (by simp only [List.forall_mem_cons]; decide) (atDie_code d) (keeps_refl _ s)

/-- The state after the copy of a capture has ended. -/
def State.captureDone (s : State) (d : Die) (c : CapReq) : State :=
  (((s.setCapWait (Tbl.erase s.capWait d.idx)).captureShown d c).put (atDie d) .PRC_CAP_HEAT_HEAT c.heat).raise d Ev.PRC_CAPTURE
    (c.parcel + c.stroke * 2 ^ 8 + c.heat * 2 ^ 24)

theorem exec_captureCopyDone {die : FDie} {key : Nat} {c : CapReq} {s : State}
    (hwait : s.capWait.find? (fun e => e.1 == die.die.idx) = some (key, c)) (hcopied : c.copied = true) :
    exec (.captureCopyDone die) s = .next (s.captureDone die.die c) := by
  change execCaptureCopyDone die s = _
  simp only [execCaptureCopyDone, hwait, hcopied, if_true]
  rfl

theorem captureDone_get (s : State) (d : Die) (c : CapReq) {f : Fld} (hf : f.reg = .PRC_CAP_STAT) : (s.captureDone d c).get (atDie d) f =
    ((s.setCapWait (Tbl.erase s.capWait d.idx)).captureShown d c).get (atDie d) f := by
  rw [State.captureDone, State.raise_get _ _ _ (by decide) (by rw [hf]; decide) (atDie_code d),
    get_put_of_ne _ _ (by rw [hf]; decide) (atDie_code d) (atDie_code d)]

theorem captureDone_keeps (s : State) (d : Die) (c : CapReq) :
    s.keepsRegs (.PRC_CAP_STAT :: .PRC_CAP_HEAT :: eventRegs) (s.captureDone d c) := by
  have hwait : s.keepsRegs [.PRC_CAP_STAT] (s.setCapWait (Tbl.erase s.capWait d.idx)) := State.keepsRegs_of_regs rfl _
  have hshown := keeps_of_subset (M := .PRC_CAP_STAT :: .PRC_CAP_HEAT :: eventRegs) (by decide)
    (keeps_trans hwait (captureShown_keeps _ d c))
  exact keeps_raise (by decide) (by decide) (keeps_put (by decide) (atDie_code d) hshown)

/-- What looks at neither the FIFOs and tags of the target ports nor at what is sent stays when a port presents what waits. -/
theorem presentAll_frame {α : Type} {f : State → α} (hfifo : ∀ (s : State) v, f (s.setPortFifo v) = f s)
    (htags : ∀ (s : State) v, f (s.setPortTags v) = f s) (hsent : ∀ (s : State) v, f (s.setSent v) = f s) (s : State) (d : Die)
    (q p : Nat) : f (s.presentAll d q p) = f s := by
  unfold State.presentAll
  dsimp only
  split
  · refine List.foldlRecOn (motive := fun t => f t = f s) _ _ (hfifo s _) fun t ht r _ => ?_
    split
    · exact (hsent _ _).trans ((htags _ _).trans ht)
    · exact (hfifo _ _).trans ht
  · rfl

theorem portsOpen_frame {α : Type} {f : State → α} (hfifo : ∀ (s : State) v, f (s.setPortFifo v) = f s)
    (htags : ∀ (s : State) v, f (s.setPortTags v) = f s) (hsent : ∀ (s : State) v, f (s.setSent v) = f s) (s : State) (d : Die)
    (q : Nat) : f (s.portsOpen d q) = f s :=
  List.foldlRecOn (motive := fun t => f t = f s) _ _ rfl fun t ht p _ => (presentAll_frame hfifo htags hsent t d q p).trans ht

/-- The state in which RESUME has opened the gates of a die, before the ports of its parcels present what waits. -/
def State.thawed (s : State) (d : Die) : State :=
  (s.setFrozen (s.frozen.filter fun k => k / 16 != d.idx)).put (atDie d) .PRC_CAP_STAT_FROZEN 0

/-- After a RESUME registers and frozen parcels are those of the thawed die. -/
theorem captureResume_frozen {s : State} {d : Die} (h : s.flag (atDie d) .PRC_CAP_STAT_FROZEN = true) :
    (s.captureResume d).regs = (s.thawed d).regs ∧ (s.captureResume d).frozen = s.frozen.filter fun k => k / 16 != d.idx := by
  rw [State.captureResume, if_pos h]
  exact List.foldlRecOn (motive := fun t : State => t.regs = (s.thawed d).regs ∧ t.frozen = s.frozen.filter fun k => k / 16 != d.idx)
    _ _ ⟨rfl, rfl⟩ fun t ⟨hregs, hfrozen⟩ k _ =>
      ⟨(portsOpen_frame (fun _ _ => rfl) (fun _ _ => rfl) (fun _ _ => rfl) t d (k % 16)).trans hregs,
        (portsOpen_frame (fun _ _ => rfl) (fun _ _ => rfl) (fun _ _ => rfl) t d (k % 16)).trans hfrozen⟩

theorem thawed_contains (d : Die) (l : List Nat) {p : Nat} (hp : p < 16) :
    (l.filter fun k => k / 16 != d.idx).contains (parcelKey d p) = false := by
  have hdie : parcelKey d p / 16 = d.idx := by
    unfold parcelKey
    omega
  rw [← Bool.not_eq_true, List.contains_iff_mem, List.mem_filter, hdie]
  simp

/-- Settles O21, clause by clause from the laws of the commands above. -/
theorem fenceAndParcelCommandsRun : Obligations.FenceAndParcelCommandsRun := by
  unfold Obligations.FenceAndParcelCommandsRun
  refine ⟨?dieDrained, ?parcelDrained, ?limit, ?notDraining, ?down, ?misfit, ?up, ?switchOpen, ?supplyGood, ?noSwitch, ?noSupply, ?capture,
    ?captureIgnored, ?copyDone, ?resume⟩
  case dieDrained =>
    intro a b s hfence howed
    exact ⟨_, congrArg Host.Outcome.next (if_pos ⟨hfence, howed⟩), State.setFence_die_get s a b (by decide),
      keeps_put List.mem_cons_self (atDie_code a) (keeps_refl _ s), State.keepsMem_of_held (State.put_held rfl)⟩
  case parcelDrained =>
    intro d p s hfence howed
    exact congrArg Host.Outcome.next (if_pos ⟨hfence, howed⟩)
  case limit =>
    intro f s hfence
    exact congrArg Host.Outcome.next (if_pos hfence)
  case notDraining =>
    intro f s hfence
    exact ⟨congrArg Host.Outcome.next (if_neg hfence), congrArg Host.Outcome.next (if_neg fun ⟨hdraining, _⟩ => hfence hdraining)⟩
  case down =>
    intro die p s hfit
    have hexec := exec_parcelPowerDown die p s
    rw [parcelPower_fits (asksOnly_down p) hfit, bitOf_two_pow, decide_eq_true rfl, if_pos rfl] at hexec
    exact ⟨_, hexec, powerStep_setPowerStep_self s _ _ (by decide), State.keepsRegs_of_regs rfl _, keepsMem_of_exec rfl hexec⟩
  case misfit =>
    intro die p s hmisfit
    have hexec := exec_parcelPowerDown die p s
    rw [parcelPower_misfits (asksOnly_down p) hmisfit] at hexec
    refine ⟨_, hexec, (Raised.prcStep_eq (State.raise_raised _ _ _ (by decide))).trans rfl, ?_, ?_, keepsMem_of_exec rfl hexec⟩
    · rw [State.bit, State.raise_get _ _ _ (by decide) (by decide) (atDie_code _)]
      exact State.bit_setBit_self s _ (by decide) p.isLt
    · exact keeps_raise (by decide) (by decide) (keeps_setBit (by decide) (atDie_code _) (keeps_refl _ s))
  case up =>
    intro die p s hfit
    have hexec := exec_parcelPowerUp die p s
    rw [parcelPower_fits (asksOnly_up p) hfit, bitOf_zero, bitOf_two_pow, decide_eq_true rfl, if_neg Bool.false_ne_true,
      if_pos rfl] at hexec
    exact ⟨_, hexec, powerStep_setPowerStep_self s _ _ (by decide), State.keepsRegs_of_regs rfl _, keepsMem_of_exec rfl hexec⟩
  case switchOpen =>
    intro die p s hstep
    have hexec : exec (.parcelSwitchOpen die p) s = .next (s.switchOpen die.die p) := congrArg Host.Outcome.next (if_pos hstep)
    refine ⟨_, hexec, ?_, switchOpen_prcStep s _ _, ?_, switchOpen_keeps s _ _, keepsMem_of_exec rfl hexec⟩
    · have hother : Reg.PRC_STATE ∉ .PRC_CAP_STAT :: eventRegs := by decide
      exact (switchOpen_get s _ _ hother).trans (switchedOff_parcelSt s die.die p)
    · rw [State.bit, switchOpen_get s _ _ (by decide)]
      exact switchedOff_gated s die.die p
  case supplyGood =>
    intro die p s hstep
    have hexec : exec (.parcelSupplyGood die p) s = .next (s.setPowerStep die.die p 5) := congrArg Host.Outcome.next (if_pos hstep)
    exact ⟨_, hexec, powerStep_setPowerStep_self s _ _ (by decide), State.keepsRegs_of_regs rfl _, keepsMem_of_exec rfl hexec⟩
  case noSwitch =>
    intro die p s hstep
    exact congrArg Host.Outcome.next (if_neg hstep)
  case noSupply =>
    intro die p s hstep
    exact congrArg Host.Outcome.next (if_neg hstep)
  case capture =>
    intro die p freeze s hbusy hfrozen hloading hgated htarget
    have htakes : s.captureRefuses die.die p = false := by simp [State.captureRefuses, hbusy, hfrozen, hloading, hgated, htarget]
    have hexec := exec_captureRequest_taken htakes freeze
    refine ⟨_, hexec, State.flag_of_get ?_, ?_, rfl, ?_, keepsMem_of_exec rfl hexec⟩
    · rw [State.setCapWait_get, State.get_put_self _ _ _ _ (by decide)]
      rfl
    · rw [State.setCapWait_get, get_put_of_ne _ _ (by decide) (atDie_code _) (atDie_code _), captureNamed_parcel]
    · exact keeps_same (keeps_put (by decide) (atDie_code _)
        (keeps_of_subset (by decide) (captureNamed_keeps s die.die p freeze))) rfl
  case captureIgnored =>
    intro die p freeze s h
    have hrefuses : s.captureRefuses die.die p = true := by
      rcases h with h | h | h | h | h <;> simp [State.captureRefuses, h]
    have hexec := exec_captureRequest_refused hrefuses freeze
    refine ⟨_, hexec, State.flag_of_get ?_, (Raised.capWait_eq (State.raise_raised _ _ _ (by decide))).trans rfl, ?_,
      keepsMem_of_exec rfl hexec⟩
    · exact (State.raise_get _ _ _ (by decide) (by decide) (atDie_code _)).trans
        (State.get_put_self _ _ .PRC_CAP_STAT_IGNORED 1 (by decide))
    · exact keeps_raise (by decide) (by decide) (keeps_put (by decide) (atDie_code _)
        (keeps_of_subset (by decide) (captureNamed_keeps s die.die p freeze)))
  case copyDone =>
    intro die key c s hwait hcopied
    have hexec := exec_captureCopyDone hwait hcopied
    obtain ⟨hvalid, hbusy⟩ := captureShown_reads (s.setCapWait (Tbl.erase s.capWait die.die.idx)) die.die c
    refine ⟨_, hexec, State.flag_of_get ((captureDone_get s _ c rfl).trans hvalid), ?_, ?_, captureDone_keeps s _ c, ?_⟩
    · rw [State.flag, captureDone_get s _ c rfl, hbusy]
      rfl
    · exact (Raised.capWait_eq (State.raise_raised _ _ _ (by decide))).trans rfl
    · exact State.keepsMem_of_held (State.raise_held (State.put_held (State.puts_held rfl)))
  case resume =>
    intro die s hflag
    have hexec : exec (.captureResume die) s = .next (s.captureResume die.die) := rfl
    obtain ⟨hregs, hfrozen⟩ := captureResume_frozen hflag
    refine ⟨_, hexec, ?_, fun p hp => ?_, ?_, keepsMem_of_exec rfl hexec⟩
    · rw [State.flag, State.get_of_regs hregs, State.thawed, State.get_put_self _ _ _ _ (by decide)]
      rfl
    · rw [hfrozen]
      exact thawed_contains die.die _ hp
    · exact keeps_same (keeps_put (by decide) (atDie_code _) (State.keepsRegs_of_regs rfl _)) hregs

end Sys2Proof.Machine
end

section
/-! What is sent only grows: raising an event, and reading the words of a line that leaves a die cache, add to it. With it, what a die cache
answers to a snoop (R152). -/

namespace Sys2Proof.Machine

/-! ### Events -/

theorem puts_sent (s : State) (a : At) (l : List (Fld × Nat)) : (s.puts a l).sent = s.sent :=
  List.foldlRecOn (motive := fun t : State => t.sent = s.sent) _ _ rfl fun _ ht _ _ => ht

theorem setPmc_sent (s : State) (d : Die) (c n : Nat) : (s.setPmc d c n).sent = s.sent := rfl

theorem pmcPlus_sent (s : State) (d : Die) (c n : Nat) : (s.pmcPlus d c n).sent = s.sent := by
  simp only [State.pmcPlus, apply_ite State.sent, setPmc_sent, ite_self]

theorem setBit_sent (s : State) (a : At) (f : Fld) (k : Nat) : (s.setBit a f k).sent = s.sent := rfl

theorem setPmcOvf_sent (s : State) (d : Die) (c : Nat) : (s.setPmcOvf d c).sent = s.sent := by
  unfold State.setPmcOvf
  split <;> exact setBit_sent ..

theorem evtCores_sent (s : State) (d : Die) (cores : Nat) : (s.evtCores d cores).sent = s.sent :=
  List.foldlRecOn (motive := fun t : State => t.sent = s.sent) _ _ rfl fun t ht k _ => by
    split
    · exact ht
    · exact ht

theorem evtPorts_sent (s : State) (d : Die) (number data : Nat) : (s.evtPorts d number data).1.sent = s.sent := by
  unfold State.evtPorts
  refine List.foldlRecOn (motive := fun x : State × List Nat => x.1.sent = s.sent) _ _ rfl fun ⟨t, full⟩ ht p _ => ?_
  dsimp only
  split
  · split
    · exact ht
    · exact ht
  · exact ht

/-- Everything that is sent in a state stays sent in the next. -/
theorem msix_sends {l : List Emit} {s : State} (h : l <:+ s.sent) (vec : Nat) : l <:+ (s.msix vec).sent := by
  unfold State.msix
  split
  · exact h.trans (List.suffix_cons ..)
  · exact h

/-- What raises the events within an event keeps what is sent. -/
def InnerSends (inner : State → Die → Nat → Nat → State) : Prop :=
  ∀ (l : List Emit) (s : State) (d : Die) (loc x : Nat), l <:+ s.sent → l <:+ (inner s d loc x).sent

section
variable {inner : State → Die → Nat → Nat → State} (hinner : InnerSends inner) {l : List Emit} {s : State} (h : l <:+ s.sent)
include hinner h

theorem raiseBook_sends (d : Die) (loc x : Nat) : l <:+ (s.raiseBook inner d loc x).sent := by
  unfold State.raiseBook
  dsimp only
  split
  · split
    · exact h
    · exact hinner l _ _ _ _ h
  · exact h

theorem raisePorts_sends (d : Die) (number x : Nat) : l <:+ (s.raisePorts inner d number x).sent := by
  have hports : l <:+ (s.evtPorts d number x).1.sent := evtPorts_sent s d number x ▸ h
  unfold State.raisePorts
  dsimp only
  split
  · exact hports
  · split
    · exact hports
    · exact hinner l _ _ _ _ hports

theorem raisePmc_sends (d : Die) (loc c : Nat) : l <:+ (s.raisePmc inner d loc c).sent := by
  have hplus : l <:+ (s.pmcPlus d c 1).sent := (pmcPlus_sent s d c 1).symm ▸ h
  unfold State.raisePmc
  dsimp only
  split
  · split
    · exact hplus
    · split
      · exact hplus
      · exact hinner l _ _ _ _ ((setPmcOvf_sent _ d _).symm ▸ hplus)
  · exact h

theorem raiseWith_sends (d : Die) (loc x : Nat) : l <:+ (s.raiseWith inner d loc x).sent := by
  unfold State.raiseWith
  extract_lets rose route tdie there u v w y
  have hu : l <:+ u.sent := raiseBook_sends hinner (s := s.evtBits d loc x) h d loc x
  have hv : l <:+ v.sent := by
    simp only [v]
    split
    · exact msix_sends hu _
    · exact hu
  have hw : l <:+ w.sent := by
    simp only [w]
    split
    · exact (evtCores_sent v tdie _).symm ▸ hv
    · exact hv
  have hy : l <:+ y.sent := by
    simp only [y]
    split
    · exact raisePorts_sends hinner hw ..
    · exact hw
  exact List.foldlRecOn (motive := fun t : State => l <:+ t.sent) _ _ hy fun t ht c _ => raisePmc_sends hinner ht d loc c

end

theorem raiseN_sends (n : Nat) : InnerSends (State.raiseN n) := by
  induction n with
  | zero => exact fun _ _ _ _ _ h => h
  | succ n ih => exact fun _ _ d loc x h => raiseWith_sends ih h d loc x

theorem raise_sends {l : List Emit} {s : State} (h : l <:+ s.sent) (d : Die) (loc x : Nat) : l <:+ (s.raise d loc x).sent :=
  raiseN_sends 2 l s d loc x h

/-! ### Words that are read -/

section
variable {l : List Emit} {s : State} (h : l <:+ s.sent)
include h

theorem eccCapture_sends (d : Die) (g a : Nat) : l <:+ (s.eccCapture d g a).sent := by
  obtain ⟨regs, hregs⟩ := eccCapture_regs_only s d g a
  rw [hregs]
  exact h

theorem eccLog_sends (d : Die) (g a : Nat) (ue : Bool) (synd : Nat) : l <:+ (s.eccLog d g a ue synd).sent := by
  unfold State.eccLog
  dsimp only
  split
  · split <;> exact h
  · split
    · rw [puts_sent]
      exact h
    · split
      · exact raise_sends (s := s.bump _ _ 1) h ..
      · exact h

theorem raiseOnce_sends (key : Nat) (d : Die) (loc x : Nat) :
    l <:+ (if s.onceBusy key then s else (s.onceStart key).raise d loc x).sent := by
  split
  · exact h
  · exact raise_sends (s := s.onceStart key) h ..

theorem eccFound_sends (d : Die) (g a : Nat) (v : EccVerdict) : l <:+ (s.eccFound d g a v).sent := by
  cases v with
  | clean => exact h
  | corrected => exact raiseOnce_sends (eccLog_sends (s := s.bump (atSel d g) .ECC_GRP_CNT_CE 1) h ..) ..
  | uncorrectable => exact raiseOnce_sends (eccLog_sends (s := s.bump (atSel d g) .ECC_GRP_CNT_UE 1) h ..) ..

theorem eccRead_sends (d : Die) (g a : Nat) : l <:+ (s.eccRead d g a).1.sent := eccFound_sends (eccCapture_sends h d g a) d g a _

theorem slotRead_sends (d : Die) (g a : Nat) (quiet : Bool) : l <:+ (s.slotRead d g a quiet).1.sent := by
  cases quiet with
  | true => exact eccCapture_sends h d g a
  | false => exact eccRead_sends h d g a

theorem eccReads_sends (d : Die) (g : Nat) (words : List Nat) (quiet : Bool) : l <:+ (s.eccReads d g words quiet).1.sent :=
  List.foldlRecOn (motive := fun x : State × Bool => l <:+ x.1.sent) _ _ h fun _ ht a _ => slotRead_sends ht d g a quiet

theorem poisonHeld_sends (line holder : Nat) : l <:+ (s.poisonHeld line holder).sent := by
  unfold State.poisonHeld
  dsimp only
  split
  · exact h
  · exact raise_sends (s := (s.setPoison (insertNat line s.poison)).bump _ _ 1) h ..

theorem dcRead_sends (d : Die) (line : Nat) (words : List Nat) (quiet : Bool) : l <:+ (s.dcRead d line words quiet).sent := by
  unfold State.dcRead
  split
  · exact h
  · next i _ =>
    have hreads := eccReads_sends h d 1 (words.map (8 * i + ·)) quiet
    dsimp only
    generalize s.eccReads d 1 (words.map (8 * i + ·)) quiet = x at hreads
    have hsick : l <:+ (x.1.setSick (dcKey d line) true).used.sent := hreads
    split
    · exact hreads
    · split
      · split
        · exact poisonHeld_sends hsick ..
        · exact hsick
      · exact hsick

/-- The data of a line that leaves a die cache is read there: nothing that was sent is lost. -/
theorem lineLeaves_sends (d : Die) (line : Nat) : l <:+ (s.lineLeaves d line).sent := by
  unfold State.lineLeaves
  split
  · have hread := dcRead_sends h d line (List.range 8) false
    dsimp only
    generalize s.dcRead d line (List.range 8) false = t at hread
    exact hread
  · exact h

end

theorem dcLeft_sent (s : State) (d : Die) (line : Nat) : (s.dcLeft d line).sent = s.sent := by
  unfold State.dcLeft
  split <;> rfl

theorem setDcLine_sent (s : State) (d : Die) (line n : Nat) : (s.setDcLine d line n).sent = s.sent := by
  unfold State.setDcLine
  extract_lets old dirty t u v w
  have ht : t.sent = s.sent := by simp only [t]; split <;> rfl
  have hu : u.sent = s.sent := by
    simp only [u]
    split
    · exact (dcLeft_sent t d line).trans ht
    · exact ht
  have hw : w.sent = s.sent := by simp only [w]; split <;> exact hu
  split
  · exact hw
  · split <;> exact hw

/-! ### Snoops (R152) -/

/-- What a snoop leaves of a line that the die cache holds: nothing, or for SNP_DOWN, whose code is 1, the line shared. -/
def State.snooped (s : State) (d : Die) (line op : Nat) : State :=
  if s.dcLine d line = 0 then s else (s.lineLeaves d line).setDcLine d line (if op = 1 then 1 else 0)

theorem exec_snoopReceived (die : FDie) (line : BitVec 42) (op : Fin 3) (s : State) : exec (.snoopReceived die line op) s =
    .next ((s.snooped die.die line.toNat op).emit (.snoopAck line.toNat die.die.idx (s.dcLine die.die line.toNat == 3))) := by
  have hop : (op = 1) = (op.val = 1) := propext Fin.ext_iff
  change execSnoopReceived die line op s = _
  simp only [execSnoopReceived, hop]
  rfl

theorem snooped_sends (s : State) (d : Die) (line op : Nat) : s.sent <:+ (s.snooped d line op).sent := by
  unfold State.snooped
  split
  · exact List.suffix_refl _
  · rw [setDcLine_sent]
    exact lineLeaves_sends (List.suffix_refl _) d line

/-- Settles O16: the answer is the last that is sent, and what was sent before it stays (`snooped_sends`). -/
theorem dieCacheAnswersEverySnoop : Obligations.DieCacheAnswersEverySnoop := by
  unfold Obligations.DieCacheAnswersEverySnoop
  intro die line op s
  obtain ⟨before, hsent⟩ := snooped_sends s die.die line.toNat op
  refine ⟨_, before, exec_snoopReceived die line op s, ?_⟩
  rw [hsent]
  rfl

end Sys2Proof.Machine
end

section
/-! Tables that list a key twice. `Tbl.get` reads the first entry of a key and `Tbl.erase` takes the first away, so a second one then
shows; a table in its canonical form (`Tbl.wf`) has none, but a statement about every state speaks of the others too. -/

namespace Sys2Proof.Machine

/-! ### A lone flit of class X at a router (R130, R131, R134) -/

/-- An RSP flit with every field 0: class X, for endpoint 0 of router (0, 0) of E0. -/
def zeroRsp : Flit := rspFlit 0 0 0 0 0 0 0 0 none

theorem toNat_setWidth_top {c : Nat} (hc : c < 2 ^ 8) :
    ((BitVec.ofNat 96 (c * 2 ^ 88)).setWidth 1024).toNat % 2 ^ 160 = c * 2 ^ 88 := by
  have htop : c * 2 ^ 88 < 2 ^ 96 := by omega
  rw [BitVec.toNat_setWidth_of_le (by decide), BitVec.toNat_ofNat, Nat.mod_eq_of_lt htop, Nat.mod_eq_of_lt (by omega)]

theorem zeroRsp_bits :
    ∃ c < 2 ^ 8, c = Config.flitCheck 88 0 % 2 ^ 8 ∧ zeroRsp.bits = (BitVec.ofNat 96 (c * 2 ^ 88)).setWidth 1024 := by
  obtain ⟨c, hc⟩ : ∃ c, c = Config.flitCheck 88 0 % 2 ^ 8 := ⟨_, rfl⟩
  have hlt : c < 2 ^ 8 := hc ▸ Nat.mod_lt _ (by decide)
  have hheader : rspHeader 0 0 0 0 0 0 0 0 = BitVec.ofNat 96 (c * 2 ^ 88) := by
    simp only [rspHeader, Nat.zero_mod, Nat.zero_mul, Nat.add_zero, Nat.zero_add, hc]
  refine ⟨c, hlt, hc, ?_⟩
  rw [← hheader]
  rfl

/-- It holds nothing but its check code, above its fields. -/
theorem zeroRsp_head : ∃ c < 2 ^ 8, c = Config.flitCheck 88 0 % 2 ^ 8 ∧ zeroRsp.head = c * 2 ^ 88 := by
  obtain ⟨c, hlt, hc, hbits⟩ := zeroRsp_bits
  refine ⟨c, hlt, hc, ?_⟩
  rw [Flit.head, if_neg (by decide), hbits, toNat_setWidth_top hlt]

theorem zeroRsp_chkOk : zeroRsp.chkOk = true := by
  obtain ⟨c, hlt, hc, hhead⟩ := zeroRsp_head
  have hfields : zeroRsp.head % 2 ^ 88 = 0 := by rw [hhead, Nat.mul_mod_left]
  have habove : bitsOf zeroRsp.head 88 8 = c := by
    rw [hhead, bitsOf]
    omega
  rw [Flit.chkOk, if_neg (by decide), hfields, habove, hc, beq_self_eq_true]

theorem zeroRsp_cls : zeroRsp.cls = 0 := by
  obtain ⟨c, hlt, -, hhead⟩ := zeroRsp_head
  have hbits : bitsOf zeroRsp.head 42 2 = 0 := by
    rw [hhead, bitsOf]
    omega
  rw [Flit.cls, if_neg (by decide), if_neg (by decide), hbits]
  rfl

theorem zeroRsp_dst : zeroRsp.dst = 0 := by
  obtain ⟨c, hlt, -, hhead⟩ := zeroRsp_head
  have hbits : bitsOf zeroRsp.head 18 12 = 0 := by
    rw [hhead, bitsOf]
    omega
  rw [Flit.dst, if_neg (by decide), if_neg (by decide), hbits]
  rfl

theorem flitIn_joins {s : State} {r : Router} {inPort : Nat} {flit : Flit} (hchk : flit.chkOk = true)
    (hroom : s.inputRoom r flit.net.toNat flit.cls.toNat inPort = true) : s.flitIn r inPort flit =
      s.setRouters (Tbl.set s.routers (routerKey r flit.net.toNat)
        (Tbl.get [] s.routers (routerKey r flit.net.toNat) ++ [⟨flit, inPort, r.out flit.dst.toNat⟩])) := by
  simp [State.flitIn, hchk, hroom]

/-- A flit of class X that waits alone for an output, and may go, wins it. -/
theorem arbitrate_loneX {w : WaitFlit} (hcls : w.flit.cls.toNat = 0) {may : Nat → Bool} (hmay : may 0 = true)
    (weights shares : List Nat) :
    arbitrate w.out may weights shares [w] = some (w, [], shares) := by
  simp [arbitrate, takeFlit, hcls, hmay]

theorem pmcItems_raised (s : State) (d : Die) (src inst n : Nat) : State.Raised eventRegs s (s.pmcItems d src inst n) := by
  unfold State.pmcItems
  refine Raised.foldl (fun t c hc ht => ?_) (Raised.refl _ s)
  have hplus := Raised.pmcPlus (d := d) (n := n) (List.mem_range.1 hc) ht
  dsimp only
  split
  · split
    · exact hplus
    · split
      · exact hplus
      · exact Raised.trans (Raised.setPmcOvf hplus) (State.raise_raised _ d _ (by decide))
  · exact ht

theorem weldPut_routers (s : State) (d : Die) (ch : Nat) (f : Flit) : (s.weldPut d ch f).routers = s.routers := by
  unfold State.weldPut
  dsimp only
  split <;> rfl

theorem forward_routers (s : State) (r : Router) (net : Nat) (w : WaitFlit) : (s.forward r net w).routers = s.routers := by
  unfold State.forward
  extract_lets low ahead cls t u v y
  have ht : t.routers = s.routers := by simp only [t]; split <;> rfl
  have hu : u.routers = s.routers := by simp only [u]; split <;> exact ht
  have hv : v.routers = s.routers := by
    simp only [v]
    split
    · exact (weldPut_routers ..).trans hu
    · exact hu
  exact (Raised.routers_eq (pmcItems_raised y ..)).trans hv

/-- The output that a lone flit of class X needs sends it, and its router's entry is erased. -/
theorem routerSend_loneX {s : State} {r : Router} {net : Nat} {w : WaitFlit} (hlone : Tbl.get [] s.routers (routerKey r net) = [w])
    (hcls : w.flit.cls.toNat = 0) (hcredit : s.hasCredit r net w.out 0 = true) :
    (s.routerSend r net w.out).routers = Tbl.erase s.routers (routerKey r net) := by
  unfold State.routerSend
  dsimp only
  rw [hlone, arbitrate_loneX hcls hcredit]
  exact forward_routers ..

theorem exec_flitArrival_free {die : Die} {row col : Fin 8} {flit : Flit} (hcol : die.isPort = true → col.val < 4)
    (hchk : flit.chkOk = true) (inPort : Fin 5) (s : State) : exec (.flitArrival die row col inPort flit true) s =
      .next ((s.flitIn ⟨die, row, col⟩ inPort flit).routerSend ⟨die, row, col⟩ flit.net.toNat
        (Router.out ⟨die, row, col⟩ flit.dst.toNat)) := by
  have hthere : ¬(die.isPort = true ∧ 4 ≤ col.val) := fun ⟨hport, hbeyond⟩ => absurd (hcol hport) (Nat.not_lt.2 hbeyond)
  change execFlitArrival die row col inPort flit true s = _
  simp only [execFlitArrival, if_neg hthere, hchk, Bool.and_self, if_true]

/-- What a flit of class X leaves in the table of routers that comes to an idle router and goes at once: the router's entry has been put
and erased. -/
theorem flitArrival_loneX_routers {s : State} {r : Router} {inPort : Nat} {flit : Flit} (hchk : flit.chkOk = true)
    (hcls : flit.cls.toNat = 0) (hidle : Tbl.get [] s.routers (routerKey r flit.net.toNat) = [])
    (hcredit : s.hasCredit r flit.net.toNat (r.out flit.dst.toNat) 0 = true) :
    ((s.flitIn r inPort flit).routerSend r flit.net.toNat (r.out flit.dst.toNat)).routers =
      Tbl.erase (Tbl.set s.routers (routerKey r flit.net.toNat) [⟨flit, inPort, r.out flit.dst.toNat⟩])
        (routerKey r flit.net.toNat) := by
  have hroom : s.inputRoom r flit.net.toNat flit.cls.toNat inPort = true := by simp [State.inputRoom, hidle]
  rw [flitIn_joins hchk hroom, hidle, List.nil_append]
  exact routerSend_loneX (w := ⟨flit, inPort, r.out flit.dst.toNat⟩) (Tbl.get_set_self ..) hcls hcredit

/-- The state after reset, but that its table of routers lists router (0, 0) of E0 twice for the RSP network, with no flit and with one. -/
def routerTwice : State := State.reset.setRouters [(routerKey ⟨.e0, 0, 0⟩ 1, []), (routerKey ⟨.e0, 0, 0⟩ 1, [⟨zeroRsp, 4, 4⟩])]

theorem routerTwice_routers (l : List WaitFlit) :
    Tbl.get [] (Tbl.erase (Tbl.set routerTwice.routers (routerKey ⟨.e0, 0, 0⟩ 1) l) (routerKey ⟨.e0, 0, 0⟩ 1))
      (routerKey ⟨.e0, 0, 0⟩ 1) =
      [⟨zeroRsp, 4, 4⟩] := by
  simp [routerTwice, Tbl.set, Tbl.erase, Tbl.get]

/-- Refutes O13: in the clause on a flit that is sent on at once, the table of routers may list the router twice, first with no flit. The
flit goes, its entry is erased, and the router's second entry shows, where the clause has nothing wait there. -/
theorem not_routerAndInitiatorCommandsRun : ¬ Obligations.RouterAndInitiatorCommandsRun := by
  unfold Obligations.RouterAndInitiatorCommandsRun
  intro h
  obtain ⟨-, hsent, -⟩ := h
  have hout : Router.out ⟨.e0, 0, 0⟩ zeroRsp.dst.toNat = 4 := by
    rw [zeroRsp_dst]
    rfl
  have hcls : zeroRsp.cls.toNat = 0 := by
    rw [zeroRsp_cls]
    rfl
  have hcredit (out : Nat) (hlocal : out = 4) (cls : Nat) : routerTwice.hasCredit ⟨.e0, 0, 0⟩ zeroRsp.net.toNat out cls = true := by
    rw [hlocal]
    rfl
  obtain ⟨t, hexec, -, -, hnothing, -⟩ := hsent .e0 0 0 4 zeroRsp ⟨.e0, 0, 0⟩ 4 routerTwice (fun _ => by decide) zeroRsp_chkOk rfl
    hout.symm rfl (hcredit 4 rfl _)
  rw [exec_flitArrival_free (fun _ => by decide) zeroRsp_chkOk] at hexec
  obtain rfl := Host.Outcome.next.inj hexec
  have hwaits := flitArrival_loneX_routers (s := routerTwice) (r := ⟨.e0, 0, 0⟩) (inPort := 4) zeroRsp_chkOk hcls rfl (hcredit _ hout _)
  exact List.cons_ne_nil _ _ ((routerTwice_routers _).symm.trans (hwaits ▸ hnothing))

/-- The state after reset, but that the table of the die caches lists line 0 of F0 twice, as shared. -/
def lineTwice : State := State.reset.setDcache [(dcKey .f0 0, 1), (dcKey .f0 0, 1)]

theorem lineTwice_held : lineTwice.dcLine .f0 0 = 1 ∧ lineTwice.flag (atDie .f0) .ECC_TEST_CTRL_EN = false ∧
    lineTwice.dcCell .f0 0 = none := by decide +kernel

theorem lineTwice_snooped : (lineTwice.snooped .f0 0 0).dcLine .f0 0 = 1 := by decide +kernel

/-- Refutes O15: in the clause on a snoop of a line that is held, the table of the die caches may list the line twice. SNP_INV erases its
first entry, and the second shows, where the clause has the line gone. -/
theorem not_dieCacheCommandsRun : ¬ Obligations.DieCacheCommandsRun := by
  unfold Obligations.DieCacheCommandsRun
  intro h
  obtain ⟨-, -, -, -, -, -, hsnoop, -⟩ := h
  obtain ⟨hheld, hidle, hcell⟩ := lineTwice_held
  have hunmarked : ∀ i w, lineTwice.dcCell .f0 0 = some i → lineTwice.eccMarked .f0 1 (8 * i + w) = false := by simp [hcell]
  obtain ⟨t, hexec, -, hgone, -⟩ := hsnoop .f0 0 0 lineTwice (by simp [hheld, FDie.die]) hidle hunmarked
  rw [exec_snoopReceived] at hexec
  obtain rfl := Host.Outcome.next.inj hexec
  have hstays : (lineTwice.snooped .f0 0 0).dcLine .f0 0 = 0 := hgone
  rw [lineTwice_snooped] at hstays
  omega

/-- The state after reset, but that the table of the directories lists line 0 twice: F0 has it exclusive, by a record whose count of
resets is not that of F0. -/
def recordTwice : State := State.reset.setDir [(0, ⟨true, [(2, 1)]⟩), (0, ⟨true, [(2, 1)]⟩)]

theorem recordTwice_stale : lineHome 0 = some .e0 ∧ recordTwice.flag (atDie .e0) .ECC_TEST_CTRL_EN = false ∧
    recordTwice.dirRec 0 = ⟨true, [(2, 1)]⟩ ∧ Tbl.get 0 recordTwice.dieResets 2 = 0 := by decide +kernel

theorem recordTwice_walked : ((recordTwice.refreshDir 0).dirRec 0).holders = [(2, 1)] := by decide +kernel

/-- Refutes O17: in the clause on the home's walk, the table of the directories may list the line twice. The walk erases the first record,
and the second shows, where the clause has no holder left. -/
theorem not_homeDirectoryCommandsRun : ¬ Obligations.HomeDirectoryCommandsRun := by
  unfold Obligations.HomeDirectoryCommandsRun
  intro h
  obtain ⟨-, -, -, -, -, hwalk, -⟩ := h
  obtain ⟨hhome, hidle, hrecord, hresets⟩ := recordTwice_stale
  obtain ⟨t, hexec, -, hgone, -⟩ := hwalk .f0 0 .e0 1 recordTwice hhome hidle hrecord (by simp [FDie.die, Die.idx, hresets])
  have ht : recordTwice.refreshDir 0 = t := Host.Outcome.next.inj hexec
  have hstays := recordTwice_walked
  rw [ht] at hstays
  exact List.cons_ne_nil _ _ (hstays.symm.trans hgone)

end Sys2Proof.Machine
end

section
/-! The two ends of a Weld channel: what a write to an end, a change of both, a group that is sent and a command leave in the table of the
ends, in the channel's states and in the registers (R163 to R177). -/

namespace Sys2Proof.Machine

/-! ### Places -/

theorem Die.idx_inj {d e : Die} (h : d.idx = e.idx) : d = e := by
  have hof (x : Die) : Die.ofIdx x.idx = x := by cases x <;> rfl
  rw [← hof d, h, hof e]

theorem weldKey_ne {d e : Die} (h : e ≠ d) (ch : Nat) : weldKey e ch ≠ weldKey d ch :=
  fun hkey => h (Die.idx_inj (by unfold weldKey at hkey; omega))

theorem atSel_ne {d e : Die} (h : e ≠ d) (n : Nat) : (atSel e n).code ≠ (atSel d n).code :=
  fun hcode => h (Die.idx_inj (by simp only [At.code, atSel] at hcode; omega))

theorem atChannel_code (d : Die) (ch : Fin 88) : (atSel d ch).code < 2 ^ 44 := atSel_code d (by omega)

theorem chanDies_ne (ch : Fin 88) : (chanDies ch).1 ≠ (chanDies ch).2 := by decide +revert

/-! ### The state of an end (R173) -/

/-- Only a write to STATE itself changes the state of an end. -/
theorem put_chanSt {ch : Fin 88} {f : Fld} (hf : f.reg = .WLD_CH_STAT → 3 ≤ f.lo) (s : State) (d e : Die) (v : Nat) :
    (s.put (atSel d ch) f v).chanSt e ch = s.chanSt e ch := by
  by_cases hreg : f.reg = .WLD_CH_STAT
  case pos =>
    by_cases hde : e = d
    · subst hde
      exact State.get_put_field s _ f .WLD_CH_STAT_STATE v hreg.symm (.inr (hf hreg))
    · exact get_put_at_ne s v (atSel_ne hde ch) (atChannel_code d ch) (atChannel_code e ch)
  case neg => exact get_put_of_ne s v (fun h => hreg (Reg.ctorIdx_inj h)) (atChannel_code d ch) (atChannel_code e ch)

theorem chanSt_of_keepsRegs {L : List Reg} {s t : State} (h : s.keepsRegs L t) (hL : .WLD_CH_STAT ∉ L) (d : Die) (ch : Fin 88) :
    t.chanSt d ch = s.chanSt d ch := State.get_of_keepsRegs h (atChannel_code d ch) hL

theorem setChan_raised (s : State) (ch : Fin 88) (n : Nat) : State.Raised [.WLD_CH_STAT] s (s.setChan ch n) :=
  Raised.put (by decide) (atChannel_code _ ch) (Raised.put (by decide) (atChannel_code _ ch) (Raised.refl _ s))

theorem setChanSt_chanSt (s : State) (d : Die) (ch : Nat) {n : Nat} (hn : n < 8) : (s.setChanSt d ch n).chanSt d ch = n :=
  (State.get_put_self s _ .WLD_CH_STAT_STATE n (by decide)).trans (Nat.mod_eq_of_lt hn)

theorem setChan_chanSt (s : State) (ch : Fin 88) {n : Nat} (hn : n < 8) :
    (s.setChan ch n).chanSt (chanDies ch).1 ch = n ∧ (s.setChan ch n).chanSt (chanDies ch).2 ch = n := by
  have hapart : (s.setChan ch n).chanSt (chanDies ch).1 ch = (s.setChanSt (chanDies ch).1 ch n).chanSt (chanDies ch).1 ch :=
    get_put_at_ne _ n (atSel_ne (chanDies_ne ch) ch) (atChannel_code _ ch) (atChannel_code _ ch)
  exact ⟨hapart.trans (setChanSt_chanSt s _ ch hn), setChanSt_chanSt _ _ ch hn⟩

/-! ### A write to one end -/

/-- The registers that show an end's maps. -/
def weldRegs : List Reg := [.WLD_CH_STAT, .WLD_CH_REPAIR]

/-- Putting an end changes its entry in the table of the ends, and beside it nothing but registers that show its maps. -/
theorem setWeld_raised (s : State) (d : Die) (ch : Fin 88) (w : WeldEnd) :
    State.Raised weldRegs (s.setWelds (Tbl.set s.welds (weldKey d ch) w)) (s.setWeld d ch w) :=
  Raised.foldl (fun _ _ _ ht => Raised.put (by simp [weldRegs, Fld.WLD_CH_REPAIR_ENTRY]) (atChannel_code d ch) ht)
    (Raised.put (f := .WLD_CH_STAT_SPARES) (by decide) (atChannel_code d ch)
      (Raised.put (f := .WLD_CH_STAT_RECORDS) (by decide) (atChannel_code d ch) (Raised.refl _ _)))

theorem setWeld_keeps {L : List Reg} (hL : ∀ r ∈ weldRegs, r ∈ L) {s t : State} (h : s.keepsRegs L t) (d : Die) (ch : Fin 88)
    (w : WeldEnd) : s.keepsRegs L (t.setWeld d ch w) :=
  keeps_trans (keeps_same (u := t.setWelds (Tbl.set t.welds (weldKey d ch) w)) h rfl)
    (keeps_of_subset hL (Raised.keepsRegs (setWeld_raised t d ch w)))

@[simp] theorem setWeld_weld_self (s : State) (d : Die) (ch : Fin 88) (w : WeldEnd) : (s.setWeld d ch w).weld d ch = w := by
  rw [State.weld, Raised.welds_eq (setWeld_raised s d ch w)]
  exact Tbl.get_set_self ..

theorem setWeld_weld_ne (s : State) {d e : Die} (h : e ≠ d) (ch : Fin 88) (w : WeldEnd) :
    (s.setWeld d ch w).weld e ch = s.weld e ch := by
  rw [State.weld, Raised.welds_eq (setWeld_raised s d ch w)]
  exact Tbl.get_set_ne _ _ _ (weldKey_ne h ch)

theorem setWeld_dieStep (s : State) (d : Die) (ch : Fin 88) (w : WeldEnd) : (s.setWeld d ch w).dieStep = s.dieStep := by
  rw [Raised.dieStep_eq (setWeld_raised s d ch w), State.setWelds_dieStep]

@[simp] theorem setWeld_chanSt (s : State) (d e : Die) (ch : Fin 88) (w : WeldEnd) :
    (s.setWeld d ch w).chanSt e ch = s.chanSt e ch := by
  refine List.foldlRecOn (motive := fun t : State => t.chanSt e ch = s.chanSt e ch) _ _ ?_ fun t ht k _ =>
    (put_chanSt (by simp [Fld.WLD_CH_REPAIR_ENTRY]) t d e _).trans ht
  exact (put_chanSt (f := .WLD_CH_STAT_SPARES) (by decide) _ d e _).trans
    (put_chanSt (f := .WLD_CH_STAT_RECORDS) (by decide) _ d e _)

/-! ### A change of both ends -/

/-- Both ends of a channel are put, each as a function makes it of what it was. -/
def State.onEnds (s : State) (ch : Nat) (f : WeldEnd → WeldEnd) : State :=
  let one (s : State) (d : Die) : State := s.setWeld d ch (f (s.weld d ch))
  one (one s (chanDies ch).1) (chanDies ch).2

theorem weldStep_onEnds (s : State) (ch step : Nat) : s.weldStep ch step = s.onEnds ch fun w => { w with step := step } := rfl

theorem weldTrain_onEnds (s : State) (ch : Nat) :
    s.weldTrain ch = (s.setChan ch 1).onEnds ch fun w => { w with step := 1, heard := false } := rfl

section
variable (s : State) (ch : Fin 88) (f : WeldEnd → WeldEnd)

@[simp] theorem onEnds_weld_low : (s.onEnds ch f).weld (chanDies ch).1 ch = f (s.weld (chanDies ch).1 ch) := by
  rw [State.onEnds, setWeld_weld_ne _ (chanDies_ne ch), setWeld_weld_self]

@[simp] theorem onEnds_weld_high : (s.onEnds ch f).weld (chanDies ch).2 ch = f (s.weld (chanDies ch).2 ch) := by
  rw [State.onEnds, setWeld_weld_self, setWeld_weld_ne _ (chanDies_ne ch).symm]

@[simp] theorem onEnds_chanSt (e : Die) : (s.onEnds ch f).chanSt e ch = s.chanSt e ch := by
  rw [State.onEnds, setWeld_chanSt, setWeld_chanSt]

theorem onEnds_dieStep : (s.onEnds ch f).dieStep = s.dieStep := by
  rw [State.onEnds, setWeld_dieStep, setWeld_dieStep]

theorem onEnds_keeps : s.keepsRegs weldRegs (s.onEnds ch f) := by
  rw [State.onEnds]
  exact setWeld_keeps (fun _ h => h) (setWeld_keeps (fun _ h => h) (keeps_refl _ s) _ ch _) _ ch _

theorem onEnds_held : (s.onEnds ch f).held = s.held := by
  rw [State.onEnds]
  exact State.setWeld_held (State.setWeld_held rfl)

end

/-! ### Groups that are sent (R163, R166) -/

/-- The registers that a group, or a run of groups, may change. -/
def weldSendRegs : List Reg := .WLD_CH_STAT :: .WLD_CH_REPAIR :: eventRegs

theorem weldGroup_counted (s : State) (d : Die) (ch : Nat) (g : BitVec 256) :
    (s.weldGroup d ch g).regs = ((s.emit (.weld d.idx ch g (groupBeats (s.weld (chanPeer d ch) ch).map g))).pmcItems d 0x220 ch 1).regs ∧
    (s.weldGroup d ch g).welds = s.welds := by
  have hwelds := Raised.welds_eq (pmcItems_raised (s.emit (.weld d.idx ch g (groupBeats (s.weld (chanPeer d ch) ch).map g))) d 0x220 ch 1)
  unfold State.weldGroup
  dsimp only
  split
  · exact ⟨rfl, hwelds⟩
  · exact ⟨rfl, hwelds⟩

theorem weldGroup_keeps (s : State) (d : Die) (ch : Nat) (g : BitVec 256) : s.keepsRegs eventRegs (s.weldGroup d ch g) := by
  have hcounted := Raised.keepsRegs
    (pmcItems_raised (s.emit (.weld d.idx ch g (groupBeats (s.weld (chanPeer d ch) ch).map g))) d 0x220 ch 1)
  exact keeps_same (keeps_trans (State.keepsRegs_of_regs rfl eventRegs) hcounted) (weldGroup_counted s d ch g).1

theorem weldGroup_weld (s : State) (d : Die) (ch : Nat) (g : BitVec 256) (e : Die) : (s.weldGroup d ch g).weld e ch = s.weld e ch := by
  rw [State.weld, (weldGroup_counted s d ch g).2, State.weld]

@[simp] theorem weldGroup_chanSt (s : State) (d : Die) (ch : Fin 88) (g : BitVec 256) (e : Die) :
    (s.weldGroup d ch g).chanSt e ch = s.chanSt e ch := chanSt_of_keepsRegs (weldGroup_keeps s d ch g) (by decide) e ch

@[simp] theorem weldControl_weld_self (s : State) (d : Die) (ch : Fin 88) :
    (s.weldControl d ch).weld d ch = { s.weld d ch with slot := 0 } := by
  rw [State.weldControl, weldGroup_weld, setWeld_weld_self]

theorem weldControl_weld_ne (s : State) {d e : Die} (h : e ≠ d) (ch : Fin 88) : (s.weldControl d ch).weld e ch = s.weld e ch := by
  rw [State.weldControl, weldGroup_weld, setWeld_weld_ne _ h]

@[simp] theorem weldControl_chanSt (s : State) (d e : Die) (ch : Fin 88) : (s.weldControl d ch).chanSt e ch = s.chanSt e ch := by
  rw [State.weldControl, weldGroup_chanSt, setWeld_chanSt]

theorem weldControl_keeps (s : State) (d : Die) (ch : Fin 88) : s.keepsRegs weldSendRegs (s.weldControl d ch) :=
  keeps_trans (setWeld_keeps (by decide) (keeps_refl _ s) d ch _) (keeps_of_subset (by decide) (weldGroup_keeps _ d ch _))

/-- A run of groups keeps the registers outside `weldSendRegs`, and the states of the ends. -/
theorem weldSend_frame (s : State) (d : Die) (ch : Fin 88) (l : List (BitVec 256)) :
    s.keepsRegs weldSendRegs (s.weldSend d ch l) ∧ ∀ e, (s.weldSend d ch l).chanSt e ch = s.chanSt e ch := by
  refine List.foldlRecOn (motive := fun t : State => s.keepsRegs weldSendRegs t ∧ ∀ e, t.chanSt e ch = s.chanSt e ch) _ _
    ⟨keeps_refl _ s, fun _ => rfl⟩ fun t ⟨hkeeps, hstate⟩ g _ => ?_
  have hgroup : s.keepsRegs weldSendRegs (t.weldGroup d ch g) :=
    keeps_trans hkeeps (keeps_of_subset (by decide) (weldGroup_keeps t d ch g))
  dsimp only
  split
  case isTrue => exact ⟨keeps_trans hgroup (weldControl_keeps _ d ch), fun e => by simp [hstate]⟩
  case isFalse => exact ⟨setWeld_keeps (by decide) hgroup d ch _, fun e => by simp [hstate]⟩

/-! ### Repair maps (R164, R165) -/

theorem wiresOf_zero : wiresOf 0 = [] := by decide

/-- A test without failing wires, at an end that has a record, sets the map that the test starts from. -/
theorem weldMap_nil {s : State} {d : Die} {ch : Nat} (h : (s.weld d ch).records ≠ []) (base : List Nat) :
    s.weldMap d ch base [] = s.setWeld d ch { s.weld d ch with map := base } := by
  rw [State.weldMap, if_neg h]
  rfl

/-- Such a test at both ends, each starting from a map of its own. -/
theorem weldMap_ends {s : State} {ch : Fin 88} (hlow : (s.weld (chanDies ch).1 ch).records ≠ [])
    (hhigh : (s.weld (chanDies ch).2 ch).records ≠ []) (base : WeldEnd → List Nat) :
    (s.weldMap (chanDies ch).1 ch (base (s.weld (chanDies ch).1 ch)) []).weldMap (chanDies ch).2 ch
      (base (s.weld (chanDies ch).2 ch)) [] = s.onEnds ch fun w => { w with map := base w } := by
  have hother := setWeld_weld_ne s (chanDies_ne ch).symm ch
    { s.weld (chanDies ch).1 ch with map := base (s.weld (chanDies ch).1 ch) }
  rw [weldMap_nil hlow, weldMap_nil (by rw [hother]; exact hhigh), State.onEnds]
  dsimp only
  rw [hother]

/-! ### Training (R174) -/

/-- Step 5 begins at an end: it is as a training leaves it, and sends its first control group. -/
def State.weldExchange (s : State) (d : Die) (ch : Nat) : State := (s.setWeld d ch (s.weld d ch).fresh).weldControl d ch

theorem weldExchange_weld_self (s : State) (d : Die) (ch : Fin 88) :
    (s.weldExchange d ch).weld d ch = { (s.weld d ch).fresh with slot := 0 } := by
  rw [State.weldExchange, weldControl_weld_self, setWeld_weld_self]

theorem weldExchange_weld_ne (s : State) {d e : Die} (h : e ≠ d) (ch : Fin 88) : (s.weldExchange d ch).weld e ch = s.weld e ch := by
  rw [State.weldExchange, weldControl_weld_ne _ h, setWeld_weld_ne _ h]

theorem weldExchange_keeps (s : State) (d : Die) (ch : Fin 88) : s.keepsRegs weldSendRegs (s.weldExchange d ch) :=
  keeps_trans (setWeld_keeps (by decide) (keeps_refl _ s) d ch _) (weldControl_keeps _ d ch)

theorem weldExchange_held (s : State) (d : Die) (ch : Nat) : (s.weldExchange d ch).held = s.held :=
  State.weldControl_held (State.setWeld_held rfl)

/-- A die that is not returning waits for no channel. -/
theorem returnTrained_settled {s : State} {d : Die} (h : Tbl.get 0 s.dieStep d.idx ≠ 2) : s.returnTrained d = s :=
  if_neg fun ⟨_, hreturns, _⟩ => h hreturns

/-! ### The fence between two dies (R33 step 4) -/

theorem dieFenceUp_fence (s : State) (a b : Die) :
    (s.dieFenceUp (.die a b)).fence (.die a b) = if s.fence (.die a b) = 3 then 0 else s.fence (.die a b) := by
  unfold State.dieFenceUp
  split
  · exact State.setFence_die_get s a b (by decide)
  · rfl

theorem dieFenceUp_keeps (s : State) (a b : Die) : s.keepsRegs [.NOC_DFENCE_STAT] (s.dieFenceUp (.die a b)) := by
  unfold State.dieFenceUp
  split
  · exact keeps_put (by simp [Fld.NOC_DFENCE_STAT_D]) (atDie_code a) (keeps_refl _ s)
  · exact keeps_refl _ s

theorem dieFenceUp_fence_ne (s : State) {a c : Die} (h : c ≠ a) (b e : Die) :
    (s.dieFenceUp (.die a b)).fence (.die c e) = s.fence (.die c e) := by
  unfold State.dieFenceUp
  split
  · exact get_put_at_ne s 0 (atDie_ne h) (atDie_code a) (atDie_code c)
  · rfl

theorem dieFenceUp_dieStep (s : State) (a b : Die) : (s.dieFenceUp (.die a b)).dieStep = s.dieStep := by
  unfold State.dieFenceUp
  split <;> rfl

theorem fence_of_keepsRegs {L : List Reg} {s t : State} (h : s.keepsRegs L t) (hL : .NOC_DFENCE_STAT ∉ L) (a b : Die) :
    t.fence (.die a b) = s.fence (.die a b) := State.get_of_keepsRegs h (atDie_code a) hL

/-! ### Retraining (R175) -/

/-- The ends count and report a retrain after they have entered RETRAIN. -/
theorem weldRetrain_raised (s : State) (ch : Fin 88) (cause : Nat) :
    State.Raised (.WLD_CH_ERR :: eventRegs) (s.setChan ch 3) (s.weldRetrain ch cause) := by
  have hone (t : State) (d : Die) : State.Raised (.WLD_CH_ERR :: eventRegs) t
      ((t.bump (atSel d ch) .WLD_CH_ERR_RETRAINS 1).raise d Ev.WLD_RETRAIN (ch + cause * 2 ^ 8)) :=
    Raised.trans (Raised.bump (by decide) (atChannel_code d ch) (Raised.refl _ t))
      (Raised.mono (by decide) (State.raise_raised _ d _ (by decide)))
  exact Raised.trans (hone _ _) (hone _ _)

theorem weldRetrain_chanSt (s : State) (ch : Fin 88) (cause : Nat) :
    (s.weldRetrain ch cause).chanSt (chanDies ch).1 ch = 3 ∧ (s.weldRetrain ch cause).chanSt (chanDies ch).2 ch = 3 := by
  have hkeeps := Raised.keepsRegs (weldRetrain_raised s ch cause)
  rw [chanSt_of_keepsRegs hkeeps (by decide), chanSt_of_keepsRegs hkeeps (by decide)]
  exact setChan_chanSt s ch (by decide)

theorem weldRetrain_keeps (s : State) (ch : Fin 88) (cause : Nat) :
    s.keepsRegs (.WLD_CH_STAT :: .WLD_CH_ERR :: eventRegs) (s.weldRetrain ch cause) :=
  keeps_trans (keeps_of_subset (by decide) (Raised.keepsRegs (setChan_raised s ch 3)))
    (keeps_of_subset (by decide) (Raised.keepsRegs (weldRetrain_raised s ch cause)))

/-- An end goes on after a retrain: it resends every unacknowledged group. -/
def State.weldResume (s : State) (ch : Nat) (d : Die) : State :=
  (s.setWeld d ch { s.weld d ch with replay := (s.weld d ch).replay.map fun e => (e.1, 0), acted := none }).weldSend d ch
    ((s.weld d ch).replay.map Prod.fst)

theorem weldResume_keeps (s : State) (ch : Fin 88) (d : Die) : s.keepsRegs weldSendRegs (s.weldResume ch d) :=
  keeps_trans (setWeld_keeps (by decide) (keeps_refl _ s) d ch _) (weldSend_frame _ d ch _).1

@[simp] theorem weldResume_chanSt (s : State) (ch : Fin 88) (d e : Die) : (s.weldResume ch d).chanSt e ch = s.chanSt e ch := by
  rw [State.weldResume, (weldSend_frame _ d ch _).2, setWeld_chanSt]

theorem weldResume_held (s : State) (ch : Nat) (d : Die) : (s.weldResume ch d).held = s.held :=
  State.weldSend_held (State.setWeld_held rfl)

end Sys2Proof.Machine
end

section
/-! Groups that arrive on a Weld channel (R166, R167, R170): the payload that the next group brings, and a flit that is whole and whose
router has no room for its class. -/

namespace Sys2Proof.Machine

/-- A flit that is whole stays in its receive buffer while its router has no room for its class. -/
theorem weldOut_noRoom {s : State} {d : Die} {ch p : Nat} {f : Flit} (hwhole : (s.weld d ch).whole p = some f)
    (hroom : s.inputRoom (weldRouter d ch).1 (p / 4) f.cls.toNat (weldRouter d ch).2 = false) : s.weldOut d ch p = s := by
  simp only [State.weldOut, hwhole, hroom, Bool.false_eq_true, if_false]

/-- A drain in which no receive buffer gives a flit leaves the state as it is. -/
theorem weldDrain_stuck {s : State} {d : Die} {ch : Nat} (h : ∀ e ∈ (s.weld d ch).rx, s.weldOut d ch e.1 = s) :
    s.weldDrain d ch = s := by
  refine List.foldlRecOn (motive := fun t => t = s) _ _ rfl fun t ht p hp => ?_
  obtain ⟨e, he, hcopy⟩ := List.mem_flatMap.1 hp
  rw [ht, List.eq_of_mem_replicate hcopy, h e he]

/-- What the next data group in order leaves before the receive buffers are drained. -/
def State.weldAccept (s : State) (d : Die) (ch : Nat) (g : BitVec 256) : State :=
  (s.bwCount d 2 ch 32 1).setWeld d ch { s.weld d ch with
    ack := groupBits g 16 8
    nak := false
    rx := Tbl.set (s.weld d ch).rx (groupBits g 24 2 * 4 + groupBits g 26 2)
      (Tbl.get [] (s.weld d ch).rx (groupBits g 24 2 * 4 + groupBits g 26 2) ++ [BitVec.ofNat 224 (groupBits g 32 224)]) }

theorem exec_weldDataGroup_next {d : Die} {ch : Fin 88} {g : BitVec 256} {s : State} (hon : chanOn d ch = true)
    (hup : s.chanSt d ch = 2) (hcrc : weldCrcOk g = true) (htype : groupBits g 30 2 = 0)
    (hseq : groupBits g 16 8 = ((s.weld d ch).ack + 1) % 256) :
    exec (.weldDataGroup d ch g) s = .next ((s.weldAccept d ch g).weldDrain d ch) := by
  change execWeldDataGroup d ch g s = _
  simp only [execWeldDataGroup, hon, hup, hcrc, htype, ← hseq]
  rfl

theorem weldAccept_rx (s : State) (d : Die) (ch : Fin 88) (g : BitVec 256) : ((s.weldAccept d ch g).weld d ch).rx =
    Tbl.set (s.weld d ch).rx (groupBits g 24 2 * 4 + groupBits g 26 2)
      (Tbl.get [] (s.weld d ch).rx (groupBits g 24 2 * 4 + groupBits g 26 2) ++ [BitVec.ofNat 224 (groupBits g 32 224)]) := by
  rw [State.weldAccept, setWeld_weld_self]

theorem weldAccept_inputRoom (s : State) (d : Die) (ch : Fin 88) (g : BitVec 256) (r : Router) (net cls inPort : Nat) :
    (s.weldAccept d ch g).inputRoom r net cls inPort = s.inputRoom r net cls inPort := by
  rw [State.inputRoom, State.weldAccept, Raised.routers_eq (setWeld_raised ..)]
  rfl

/-- A whole RSP flit is what one payload holds. -/
theorem whole_rsp {w : WeldEnd} {x : BitVec 224} (h : Tbl.get [] w.rx 4 = [x]) : w.whole 4 = some ⟨1, false, x.setWidth 1024⟩ := by
  rw [WeldEnd.whole, h, ← BitVec.ofNat_toNat]
  rfl

/-! ### A group whose CLS is not the class of its flit -/

/-- An RSP flit of class H: its fields are 0 but CLS, which is 1. -/
def rspOfH : Flit := ⟨1, false, (BitVec.ofNat 224 (2 ^ 42)).setWidth 1024⟩

theorem rspOfH_cls : rspOfH.cls.toNat = 1 := by
  have hbits : rspOfH.bits.toNat = 2 ^ 42 := by
    rw [rspOfH, BitVec.toNat_setWidth_of_le (by decide)]
    rfl
  have hhead : rspOfH.head = rspOfH.bits.toNat % 2 ^ 160 := if_neg (by decide)
  rw [Flit.cls, hhead, hbits]
  rfl

/-- A data group with SEQ 0 that brings that flit of class H, and whose own CLS names class X: NET is 1, FIRST and LAST are set. -/
def mismatchedGroup : BitVec 256 := weldSeal (BitVec.ofNat 256 (2 ^ 24 + 2 ^ 28 + 2 ^ 29 + 2 ^ 74))

theorem mismatchedGroup_bits : groupBits mismatchedGroup 16 8 = 0 ∧ groupBits mismatchedGroup 24 2 = 1 ∧
    groupBits mismatchedGroup 26 2 = 0 ∧ groupBits mismatchedGroup 30 2 = 0 ∧ groupBits mismatchedGroup 32 224 = 2 ^ 42 := by
  have hbits (lo w : Nat) := groupBits_weldSeal (BitVec.ofNat 256 (2 ^ 24 + 2 ^ 28 + 2 ^ 29 + 2 ^ 74)) lo w
  exact ⟨(hbits 0 8).trans (by decide), (hbits 8 2).trans (by decide), (hbits 10 2).trans (by decide), (hbits 14 2).trans (by decide),
    (hbits 16 224).trans (by decide)⟩

/-- The state after reset, but that channel 87 is UP at E1 and that four RSP flits of class H wait where its flits come in. -/
def fullForH : State := (State.reset.setChanSt .e1 87 2).setRouters
  [(routerKey (weldRouter .e1 87).1 1, List.replicate 4 ⟨rspOfH, (weldRouter .e1 87).2, 4⟩)]

theorem fullForH_chanSt : fullForH.chanSt .e1 (87 : Fin 88) = 2 := setChanSt_chanSt State.reset .e1 87 (by decide)

theorem fullForH_weld : fullForH.weld .e1 (87 : Fin 88) = WeldEnd.new := rfl

theorem fullForH_room (cls : Nat) :
    fullForH.inputRoom (weldRouter .e1 (87 : Fin 88)).1 1 cls (weldRouter .e1 (87 : Fin 88)).2 = !(1 == cls) := by
  have hwaits : Tbl.get [] fullForH.routers (routerKey (weldRouter .e1 (87 : Fin 88)).1 1) =
      List.replicate 4 ⟨rspOfH, (weldRouter .e1 (87 : Fin 88)).2, 4⟩ := if_pos rfl
  rw [State.inputRoom, hwaits, List.filter_replicate, rspOfH_cls]
  cases 1 == cls <;> simp

/-- What the group leaves in the receive buffers: the whole flit. -/
theorem fullForH_accepts : ((fullForH.weldAccept .e1 (87 : Fin 88) mismatchedGroup).weld .e1 (87 : Fin 88)).rx =
      [(4, [BitVec.ofNat 224 (2 ^ 42)])] ∧
    ((fullForH.weldAccept .e1 (87 : Fin 88) mismatchedGroup).weld .e1 (87 : Fin 88)).whole 4 = some rspOfH := by
  obtain ⟨-, hnet, hcls, -, hpayload⟩ := mismatchedGroup_bits
  have hrx := weldAccept_rx fullForH .e1 87 mismatchedGroup
  rw [hnet, hcls, hpayload, fullForH_weld] at hrx
  exact ⟨hrx, whole_rsp (by rw [hrx]; rfl)⟩

/-- Refutes O23: in the clause on the next data group in order, the CLS of the group and the class of the flit it brings may differ. The
clause asks for room in the class of the group, the router looks at the class of the flit, and where that has none the flit stays in the
receive buffer that the clause has empty. -/
theorem not_weldGroupCommandsRun : ¬ Obligations.WeldGroupCommandsRun := by
  unfold Obligations.WeldGroupCommandsRun
  intro h
  obtain ⟨-, -, -, -, hdata, -⟩ := h
  obtain ⟨hseq, hnet, hcls, htype, -⟩ := mismatchedGroup_bits
  obtain ⟨hrx, hwhole⟩ := fullForH_accepts
  have hcrc : weldCrcOk mismatchedGroup = true := weldCrcOk_weldSeal _
  obtain ⟨t, hexec, -, -, -, hleaves, -⟩ := hdata .e1 87 4 mismatchedGroup fullForH rfl fullForH_chanSt hcrc htype hseq
    (by rw [hnet, hcls])
  have hstuck : (fullForH.weldAccept .e1 (87 : Fin 88) mismatchedGroup).weldDrain .e1 (87 : Fin 88) =
      fullForH.weldAccept .e1 (87 : Fin 88) mismatchedGroup := by
    refine weldDrain_stuck fun e he => ?_
    rw [hrx, List.mem_singleton] at he
    subst he
    refine weldOut_noRoom hwhole ?_
    rw [weldAccept_inputRoom, rspOfH_cls]
    exact fullForH_room 1
  rw [exec_weldDataGroup_next rfl fullForH_chanSt hcrc htype hseq, hstuck] at hexec
  obtain rfl := Host.Outcome.next.inj hexec
  obtain ⟨hgone, -⟩ := hleaves rfl rfl (fullForH_room 0)
  exact List.cons_ne_nil _ _ (hrx.symm.trans hgone)

end Sys2Proof.Machine
end

section
/-! The commands that train, retrain and repair a Weld channel (R164, R165, R173 to R177), and those of a seam group (R185). -/

namespace Sys2Proof.Machine

/-! ### The wire test and deskew (R164, R165, R174) -/

theorem exec_weldPrbsDone_clean {ch : Fin 88} {s : State} (hat : s.weldAt ch 2 = true) (hlow : (s.weld (chanDies ch).1 ch).records ≠ [])
    (hhigh : (s.weld (chanDies ch).2 ch).records ≠ []) (hlowFits : (s.weld (chanDies ch).1 ch).newest.length ≤ 4)
    (hhighFits : (s.weld (chanDies ch).2 ch).newest.length ≤ 4) :
    exec (.weldPrbsDone ch 0 0) s = .next ((s.onEnds ch fun w => { w with map := w.newest }).weldStep ch 4) := by
  have hfits : ¬(4 < (s.weld (chanDies ch).1 ch).newest.length ∨ 4 < (s.weld (chanDies ch).2 ch).newest.length) := by omega
  rw [← weldMap_ends hlow hhigh WeldEnd.newest]
  change execWeldPrbsDone ch 0 0 s = _
  simp only [execWeldPrbsDone, wiresOf_zero, hat, Bool.not_true, Bool.false_eq_true, if_false]
  exact congrArg Host.Outcome.next (if_neg hfits)

theorem exec_weldPrbsDone_beyondRepair {ch : Fin 88} {low : BitVec 68} {s : State} (hat : s.weldAt ch 2 = true)
    (hmany : 4 < (mapWith (s.weld (chanDies ch).1 ch).newest (wiresOf low)).length) (high : BitVec 68) :
    exec (.weldPrbsDone ch low high) s =
      .next (((s.weldFail ch 0).returnTrained (chanDies ch).1).returnTrained (chanDies ch).2) := by
  change execWeldPrbsDone ch low high s = _
  simp only [execWeldPrbsDone, hat, hmany, true_or, Bool.not_true, Bool.false_eq_true, if_false, if_true]

theorem exec_weldDeskewDone {ch : Fin 88} {s : State} (hat : s.weldAt ch 4 = true) (works : Bool) :
    exec (.weldDeskewDone ch works) s = .next (if works then (s.weldExchange (chanDies ch).1 ch).weldExchange (chanDies ch).2 ch
      else ((s.weldFail ch 2).returnTrained (chanDies ch).1).returnTrained (chanDies ch).2) := by
  change execWeldDeskewDone ch works s = _
  simp only [execWeldDeskewDone, hat, Bool.not_true, Bool.false_eq_true, if_false]
  rfl

theorem weldExchanges_weld (s : State) (ch : Fin 88) :
    ((s.weldExchange (chanDies ch).1 ch).weldExchange (chanDies ch).2 ch).weld (chanDies ch).1 ch =
        { (s.weld (chanDies ch).1 ch).fresh with slot := 0 } ∧
      ((s.weldExchange (chanDies ch).1 ch).weldExchange (chanDies ch).2 ch).weld (chanDies ch).2 ch =
        { (s.weld (chanDies ch).2 ch).fresh with slot := 0 } := by
  refine ⟨?_, ?_⟩
  · rw [weldExchange_weld_ne _ (chanDies_ne ch), weldExchange_weld_self]
  · rw [weldExchange_weld_self, weldExchange_weld_ne _ (chanDies_ne ch).symm]

theorem fresh_credits_idle {w : WeldEnd} (h : w.cur = none) : w.fresh.credits = weldBuffers := by
  simp only [WeldEnd.fresh, h]

/-- A flit in transmission starts again, and its groups' credits pay for it. -/
theorem fresh_credits_sending {w : WeldEnd} {p k : Nat} {bits : BitVec 1024} (h : w.cur = some (p, k, bits)) :
    w.fresh.credits = weldBuffers.set p (weldBuffers.getD p 0 - flitGroups p) := by
  simp only [WeldEnd.fresh, h]

/-! ### The end of a training (R174 step 6, R33 step 4) -/

/-- Both ends of a channel reach step 6, and the fences of the two dies toward each other open. -/
def State.weldTrained (s : State) (ch : Nat) : State :=
  (((s.weldStep ch 0).setChan ch 2).dieFenceUp (.die (chanDies ch).1 (chanDies ch).2)).dieFenceUp (.die (chanDies ch).2 (chanDies ch).1)

theorem weldTrained_dieStep (s : State) (ch : Fin 88) : (s.weldTrained ch).dieStep = s.dieStep := by
  rw [State.weldTrained, dieFenceUp_dieStep, dieFenceUp_dieStep, Raised.dieStep_eq (setChan_raised _ ch 2), weldStep_onEnds,
    onEnds_dieStep]

theorem exec_weldTrainingDone_settled {ch : Fin 88} {s : State} (hat : s.weldAt ch 5 = true)
    (hlow : (s.weld (chanDies ch).1 ch).heard = true) (hhigh : (s.weld (chanDies ch).2 ch).heard = true)
    (hlowUp : Tbl.get 0 s.dieStep (chanDies ch).1.idx ≠ 2) (hhighUp : Tbl.get 0 s.dieStep (chanDies ch).2.idx ≠ 2) :
    exec (.weldTrainingDone ch) s = .next (s.weldTrained ch) := by
  have hsettled {d : Die} (h : Tbl.get 0 s.dieStep d.idx ≠ 2) : (s.weldTrained ch).returnTrained d = s.weldTrained ch :=
    returnTrained_settled (by rwa [weldTrained_dieStep])
  have hboth : ((s.weldTrained ch).returnTrained (chanDies ch).1).returnTrained (chanDies ch).2 = s.weldTrained ch := by
    rw [hsettled hlowUp, hsettled hhighUp]
  change execWeldTrainingDone ch s = _
  simp only [execWeldTrainingDone, hat, hlow, hhigh, Bool.and_self, if_true]
  exact congrArg Host.Outcome.next hboth

theorem weldStep_keeps (s : State) (ch : Fin 88) (step : Nat) : s.keepsRegs weldRegs (s.weldStep ch step) := by
  rw [weldStep_onEnds]
  exact onEnds_keeps s ch _

theorem weldStepUp_keeps (s : State) (ch : Fin 88) : s.keepsRegs weldRegs ((s.weldStep ch 0).setChan ch 2) :=
  keeps_trans (weldStep_keeps s ch 0) (keeps_of_subset (by decide) (Raised.keepsRegs (setChan_raised _ ch 2)))

theorem dieFencesUp_keeps (s : State) (a b : Die) :
    s.keepsRegs [.NOC_DFENCE_STAT] ((s.dieFenceUp (.die a b)).dieFenceUp (.die b a)) :=
  keeps_trans (dieFenceUp_keeps s a b) (dieFenceUp_keeps _ b a)

theorem weldTrained_keeps (s : State) (ch : Fin 88) :
    s.keepsRegs [.WLD_CH_STAT, .WLD_CH_REPAIR, .NOC_DFENCE_STAT] (s.weldTrained ch) :=
  keeps_trans (keeps_of_subset (by decide) (weldStepUp_keeps s ch)) (keeps_of_subset (by decide) (dieFencesUp_keeps _ _ _))

theorem weldTrained_chanSt (s : State) (ch : Fin 88) :
    (s.weldTrained ch).chanSt (chanDies ch).1 ch = 2 ∧ (s.weldTrained ch).chanSt (chanDies ch).2 ch = 2 := by
  have hfences := dieFencesUp_keeps ((s.weldStep ch 0).setChan ch 2) (chanDies ch).1 (chanDies ch).2
  rw [State.weldTrained, chanSt_of_keepsRegs hfences (by decide), chanSt_of_keepsRegs hfences (by decide)]
  exact setChan_chanSt _ ch (by decide)

theorem weldTrained_fence (s : State) (ch : Fin 88) :
    (s.weldTrained ch).fence (.die (chanDies ch).1 (chanDies ch).2) =
      (if s.fence (.die (chanDies ch).1 (chanDies ch).2) = 3 then 0 else s.fence (.die (chanDies ch).1 (chanDies ch).2)) ∧
    (s.weldTrained ch).fence (.die (chanDies ch).2 (chanDies ch).1) =
      (if s.fence (.die (chanDies ch).2 (chanDies ch).1) = 3 then 0 else s.fence (.die (chanDies ch).2 (chanDies ch).1)) := by
  have hbefore (a b : Die) : ((s.weldStep ch 0).setChan ch 2).fence (.die a b) = s.fence (.die a b) :=
    fence_of_keepsRegs (weldStepUp_keeps s ch) (by decide) a b
  refine ⟨?_, ?_⟩
  · rw [State.weldTrained, dieFenceUp_fence_ne _ (chanDies_ne ch), dieFenceUp_fence, hbefore]
  · rw [State.weldTrained, dieFenceUp_fence, dieFenceUp_fence_ne _ (chanDies_ne ch).symm, hbefore]

/-! ### The end of a retrain (R175, R176) -/

/-- Both ends are UP again, and go on from the last acknowledged group. -/
def State.weldRetrained (s : State) (ch : Nat) : State :=
  (((s.onEnds ch fun w => { w with map := w.map }).setChan ch 2).weldResume ch (chanDies ch).1).weldResume ch (chanDies ch).2

theorem weldRetrained_chanSt (s : State) (ch : Fin 88) :
    (s.weldRetrained ch).chanSt (chanDies ch).1 ch = 2 ∧ (s.weldRetrained ch).chanSt (chanDies ch).2 ch = 2 := by
  rw [State.weldRetrained, weldResume_chanSt, weldResume_chanSt, weldResume_chanSt, weldResume_chanSt]
  exact setChan_chanSt _ ch (by decide)

theorem weldRetrained_keeps (s : State) (ch : Fin 88) : s.keepsRegs weldSendRegs (s.weldRetrained ch) := by
  have hup := keeps_trans (onEnds_keeps s ch fun w => { w with map := w.map })
    (keeps_of_subset (by decide) (Raised.keepsRegs (setChan_raised _ ch 2)))
  exact keeps_trans (keeps_of_subset (by decide) hup) (keeps_trans (weldResume_keeps _ ch _) (weldResume_keeps _ ch _))

theorem weldRetrained_held (s : State) (ch : Fin 88) : (s.weldRetrained ch).held = s.held := by
  rw [State.weldRetrained, weldResume_held, weldResume_held]
  exact State.setChan_held (onEnds_held s ch _)

theorem exec_weldRetrainDone_clean {ch : Fin 88} {s : State} (hretrain : s.chanSt (chanDies ch).1 ch = 3)
    (hlow : (s.weld (chanDies ch).1 ch).records ≠ []) (hhigh : (s.weld (chanDies ch).2 ch).records ≠ [])
    (hlowFits : (s.weld (chanDies ch).1 ch).map.length ≤ 4) (hhighFits : (s.weld (chanDies ch).2 ch).map.length ≤ 4) :
    exec (.weldRetrainDone ch 0 0 true) s = .next (s.weldRetrained ch) := by
  have hfits : ¬(4 < (s.weld (chanDies ch).1 ch).map.length ∨ 4 < (s.weld (chanDies ch).2 ch).map.length) := by omega
  rw [State.weldRetrained, ← weldMap_ends hlow hhigh WeldEnd.map]
  change execWeldRetrainDone ch 0 0 true s = _
  simp only [execWeldRetrainDone, wiresOf_zero, hretrain, ne_eq, not_true_eq_false, if_false]
  exact congrArg Host.Outcome.next (if_neg hfits)

theorem exec_weldRetrainDone_beyondRepair {ch : Fin 88} {low : BitVec 68} {s : State} (hretrain : s.chanSt (chanDies ch).1 ch = 3)
    (hmany : 4 < (mapWith (s.weld (chanDies ch).1 ch).map (wiresOf low)).length) (high : BitVec 68) :
    exec (.weldRetrainDone ch low high true) s = .next (s.weldFail ch 0) := by
  change execWeldRetrainDone ch low high true s = _
  simp only [execWeldRetrainDone, hretrain, hmany, ne_eq, not_true_eq_false, true_or, if_false, if_true]

/-! ### WLD_CH_CMD (R165, R173, R177) -/

theorem exec_retrain_up {d : Die} {ch : Fin 88} {s : State} (hon : chanOn d ch = true) (hup : s.chanSt d ch = 2) :
    exec (.retrain d ch) s = .next (s.weldRetrain ch 2) := by
  change execRetrain d ch s = _
  simp only [execRetrain, State.weldRetrainCmd, hon, hup, Bool.not_true, Bool.false_eq_true, if_false, if_true]

theorem exec_remap_trains {d : Die} {ch : Fin 88} {s : State} (hon : chanOn d ch = true)
    (hst : s.chanSt d ch = 2 ∨ s.chanSt d ch = 5) : exec (.remap d ch) s = .next (s.weldTrain ch) := by
  change execRemap d ch s = _
  simp only [execRemap, State.weldRemapCmd, hon, hst, Bool.not_true, Bool.false_eq_true, if_false, if_true]

theorem exec_remap_ignored {d : Die} {ch : Fin 88} {s : State} (hon : chanOn d ch = true) (hup : s.chanSt d ch ≠ 2)
    (hfailed : s.chanSt d ch ≠ 5) : exec (.remap d ch) s = .next (s.weldIgnored d ch) ∧
      exec (.retrain d ch) s = .next (s.weldIgnored d ch) := by
  change execRemap d ch s = _ ∧ execRetrain d ch s = _
  simp only [execRemap, State.weldRemapCmd, execRetrain, State.weldRetrainCmd, hon, hup, hfailed, or_self, Bool.not_true,
    Bool.false_eq_true, if_false, and_self]

theorem exec_commitMap_records {d : Die} {ch : Fin 88} {s : State} (hon : chanOn d ch = true) (hup : s.chanSt d ch = 2)
    (hnew : (s.weld d ch).records.getLast? ≠ some (s.weld d ch).map) (hroom : (s.weld d ch).records.length < 4) :
    exec (.commitMap d ch 0xA7) s =
      .next (s.setWeld d ch { s.weld d ch with records := (s.weld d ch).records ++ [(s.weld d ch).map] }) := by
  have hkey : ¬((0xA7 : BitVec 8).toNat ≠ 0xA7 ∨ s.chanSt d ch ≠ 2) := by simp [hup]
  change execCommitMap d ch 0xA7 s = _
  simp only [execCommitMap, State.weldCommitCmd, hon, hkey, hnew, Nat.not_le.2 hroom, Bool.not_true, Bool.false_eq_true, if_false]

theorem exec_commitMap_ignored {d : Die} {ch : Fin 88} {key : BitVec 8} {s : State} (hon : chanOn d ch = true)
    (hcannot : key ≠ 0xA7 ∨ s.chanSt d ch ≠ 2) : exec (.commitMap d ch key) s = .next (s.weldIgnored d ch) := by
  have hnat : key.toNat ≠ 0xA7 ∨ s.chanSt d ch ≠ 2 := hcannot.imp_left fun hkey hval => hkey (BitVec.eq_of_toNat_eq hval)
  change execCommitMap d ch key s = _
  simp only [execCommitMap, State.weldCommitCmd, hon, hnat, Bool.not_true, Bool.false_eq_true, if_false, if_true]

theorem weldIgnored_flag (s : State) (d : Die) (ch : Nat) :
    (s.weldIgnored d ch).flag (atSel d ch) .WLD_CH_STAT_CMD_IGNORED = true :=
  State.flag_of_get (State.get_put_self s _ .WLD_CH_STAT_CMD_IGNORED 1 (by decide))

theorem weldIgnored_keeps (s : State) (d : Die) (ch : Fin 88) : s.keepsRegs [.WLD_CH_STAT] (s.weldIgnored d ch) :=
  keeps_put (by decide) (atChannel_code d ch) (keeps_refl _ s)

/-! ### Seam groups (R185) -/

theorem atSeam_code (d : Die) (e : Fin 11) (g : Fin 88) : (atSeam d e g).code < 2 ^ 44 := atSel_code d (by omega)

/-- An end that unlocks, before it reports it. -/
def State.seamUnlocked (s : State) (d : Die) (e g : Nat) : State :=
  (s.puts (atSeam d e g) [(.WLD_SEAM_STAT_LOCKED, 0), (.WLD_SEAM_STAT_UNLOCK, 1)]).bump (atSeam d e g) .WLD_SEAM_STAT_UNLOCKS 1

theorem exec_seamUnlock_locked {d : Die} {e : Fin 11} {g : Fin 88} {s : State} (hon : edgeOn d e = true)
    (hmeso : (s.seam d e g).cfg.async = false) (hlocked : s.flag (atSeam d e g) .WLD_SEAM_STAT_LOCKED = true) :
    exec (.seamUnlock d e g) s = .next ((s.seamUnlocked d e g).raise d Ev.SEAM_UNLOCK (e + g * 2 ^ 8)) := by
  change Host.Outcome.next (s.seamUnlock d e g) = _
  simp only [State.seamUnlock, hon, hmeso, hlocked, Bool.not_false, Bool.and_self, if_true]
  rfl

theorem seamUnlocked_keeps (s : State) (d : Die) (e : Fin 11) (g : Fin 88) : s.keepsRegs [.WLD_SEAM_STAT] (s.seamUnlocked d e g) :=
  keeps_bump (by decide) (atSeam_code d e g) (keeps_puts _ (by decide) (atSeam_code d e g) (keeps_refl _ s))

theorem seamUnlocked_flags (s : State) (d : Die) (e : Fin 11) (g : Fin 88) :
    (s.seamUnlocked d e g).get (atSeam d e g) .WLD_SEAM_STAT_LOCKED = 0 ∧
      (s.seamUnlocked d e g).get (atSeam d e g) .WLD_SEAM_STAT_UNLOCK = 1 := by
  have hcount {f : Fld} (hreg : f.reg = .WLD_SEAM_STAT) (hapart : 16 ≤ f.lo) : (s.seamUnlocked d e g).get (atSeam d e g) f =
      (s.puts (atSeam d e g) [(.WLD_SEAM_STAT_LOCKED, 0), (.WLD_SEAM_STAT_UNLOCK, 1)]).get (atSeam d e g) f :=
    State.get_put_field _ _ .WLD_SEAM_STAT_UNLOCKS f _ hreg (.inl hapart)
  rw [hcount rfl (by decide), hcount rfl (by decide)]
  exact ⟨State.get_puts_first (by decide) (by decide) s, State.get_put_self _ _ .WLD_SEAM_STAT_UNLOCK 1 (by decide)⟩

/-- The report of an unlocking leaves the group's flags as the unlocking put them. -/
theorem seamUnlocked_raise_get (s : State) (d : Die) (e : Fin 11) (g : Fin 88) (data : Nat) {f : Fld} (hf : f.reg ∉ eventRegs) :
    ((s.seamUnlocked d e g).raise d Ev.SEAM_UNLOCK data).get (atSeam d e g) f = (s.seamUnlocked d e g).get (atSeam d e g) f :=
  State.raise_get _ d data (by decide) hf (atSeam_code d e g)

theorem exec_seamRelock_meso {d : Die} {e : Fin 11} {g : Fin 88} {s : State} (hon : edgeOn d e = true)
    (hmeso : (s.seam d e g).cfg.async = false) :
    exec (.seamRelock d e g) s = .next ((s.seamAlign d e g).put (atSeam d e g) .WLD_SEAM_STAT_LOCKED 1) := by
  change execSeamRelock d e g s = _
  simp only [execSeamRelock, hon, hmeso, Bool.not_false, Bool.and_self, if_true]

theorem seamAlign_phase (s : State) (d : Die) (e g : Nat) : ((s.seamAlign d e g).seam d e g).phase =
    if s.flag (atSeam d e g) .WLD_SEAM_STAT_LOCKED then (s.seam d e g).phase else [(s.seam (acrossEdge d e) e g).launch] := by
  unfold State.seamAlign
  split
  · rfl
  · exact congrArg Seam.phase (Tbl.get_set_self ..)

theorem seamAlign_regs (s : State) (d : Die) (e g : Nat) : (s.seamAlign d e g).regs = s.regs := by
  unfold State.seamAlign
  split <;> rfl

theorem exec_seam_async {d : Die} {e : Fin 11} {g : Fin 88} {s : State} (hasync : (s.seam d e g).cfg.async = true) :
    exec (.seamUnlock d e g) s = .next s ∧ exec (.seamRelock d e g) s = .next s := by
  change Host.Outcome.next (s.seamUnlock d e g) = _ ∧ execSeamRelock d e g s = _
  simp only [State.seamUnlock, execSeamRelock, hasync, Bool.not_true, Bool.and_false, Bool.false_and, Bool.false_eq_true, if_false,
    and_self]

/-- Settles O24: each command goes by the law above that says what it leaves. -/
theorem weldTrainingAndSeamCommandsRun : Obligations.WeldTrainingAndSeamCommandsRun := by
  unfold Obligations.WeldTrainingAndSeamCommandsRun
  refine ⟨?lock, ?lockTimeout, ?wiresTested, ?wiresFailed, ?deskew, ?deskewFailed, ?trained, ?retrained, ?retrainFailed, ?retrain,
    ?remap, ?ignored, ?commit, ?commitIgnored, ?unlock, ?relock, ?async⟩
  case lock =>
    intro ch s hat
    have hexec : exec (.weldReceiverLock ch) s = .next (s.weldStep ch 2) := congrArg Host.Outcome.next (if_pos hat)
    refine ⟨_, hexec, ?_, ?_, weldStep_keeps s ch 2, keepsMem_of_exec rfl hexec⟩
    · rw [weldStep_onEnds, onEnds_weld_low]
    · rw [weldStep_onEnds, onEnds_weld_high]
  case lockTimeout =>
    intro ch s hlate
    exact congrArg Host.Outcome.next (if_pos (by simpa using hlate))
  case wiresTested =>
    intro ch s hat hlow hhigh hlowFits hhighFits
    refine ⟨_, exec_weldPrbsDone_clean hat hlow hhigh hlowFits hhighFits, ?_, ?_, ?_, ?_, State.keepsMem_of_held ?_⟩
    · rw [weldStep_onEnds, onEnds_weld_low]
    · rw [weldStep_onEnds, onEnds_weld_high]
    · rw [weldStep_onEnds, onEnds_weld_low, onEnds_weld_low]
    · exact keeps_trans (onEnds_keeps s ch _) (weldStep_keeps _ ch 4)
    · exact State.weldStep_held (onEnds_held s ch _)
  case wiresFailed =>
    intro ch low high s hat hmany
    exact exec_weldPrbsDone_beyondRepair hat hmany high
  case deskew =>
    intro ch s hat
    obtain ⟨hlow, hhigh⟩ := weldExchanges_weld s ch
    refine ⟨_, exec_weldDeskewDone hat true, ?_⟩
    rw [if_pos rfl, hlow, hhigh]
    refine ⟨rfl, rfl, fresh_credits_idle, fresh_credits_idle, fun p k bits => fresh_credits_sending, rfl, rfl, ?_,
      State.keepsMem_of_held ?_⟩
    · exact keeps_trans (weldExchange_keeps s _ ch) (weldExchange_keeps _ _ ch)
    · rw [weldExchange_held, weldExchange_held]
  case deskewFailed =>
    intro ch s hat
    exact exec_weldDeskewDone hat false
  case trained =>
    intro ch s hat hlow hhigh hlowUp hhighUp
    have hexec := exec_weldTrainingDone_settled hat hlow hhigh hlowUp hhighUp
    obtain ⟨hlowState, hhighState⟩ := weldTrained_chanSt s ch
    obtain ⟨hlowFence, hhighFence⟩ := weldTrained_fence s ch
    exact ⟨_, hexec, hlowState, hhighState, hlowFence, hhighFence, weldTrained_keeps s ch, keepsMem_of_exec rfl hexec⟩
  case retrained =>
    intro ch s hretrain hlow hhigh hlowFits hhighFits
    obtain ⟨hlowState, hhighState⟩ := weldRetrained_chanSt s ch
    exact ⟨_, exec_weldRetrainDone_clean hretrain hlow hhigh hlowFits hhighFits, hlowState, hhighState, weldRetrained_keeps s ch,
      State.keepsMem_of_held (weldRetrained_held s ch)⟩
  case retrainFailed =>
    intro ch low high s hretrain hmany
    exact exec_weldRetrainDone_beyondRepair hretrain hmany high
  case retrain =>
    intro d ch s hon hup
    have hexec := exec_retrain_up hon hup
    obtain ⟨hlow, hhigh⟩ := weldRetrain_chanSt s ch 2
    exact ⟨_, hexec, hlow, hhigh, weldRetrain_keeps s ch 2, keepsMem_of_exec rfl hexec⟩
  case remap =>
    intro d ch s hon hst
    have hexec := exec_remap_trains hon hst
    rw [weldTrain_onEnds] at hexec
    obtain ⟨hlow, hhigh⟩ := setChan_chanSt s ch (n := 1) (by decide)
    refine ⟨_, hexec, ?_, ?_, ?_, ?_, ?_, keepsMem_of_exec rfl hexec⟩
    · rw [onEnds_chanSt, hlow]
    · rw [onEnds_chanSt, hhigh]
    · rw [onEnds_weld_low]
    · rw [onEnds_weld_high]
    · exact keeps_trans (keeps_of_subset (by decide) (Raised.keepsRegs (setChan_raised s ch 1))) (onEnds_keeps _ ch _)
  case ignored =>
    intro d ch s hon hup hfailed
    obtain ⟨hremap, hretrain⟩ := exec_remap_ignored hon hup hfailed
    exact ⟨_, hremap, hretrain, weldIgnored_flag s d ch, put_chanSt (by decide) s d d 1, weldIgnored_keeps s d ch,
      keepsMem_of_exec rfl hremap⟩
  case commit =>
    intro d ch s hon hup hnew hroom
    have hexec := exec_commitMap_records hon hup hnew hroom
    refine ⟨_, hexec, ?_, setWeld_keeps (fun _ h => h) (keeps_refl _ s) d ch _, keepsMem_of_exec rfl hexec⟩
    rw [setWeld_weld_self]
  case commitIgnored =>
    intro d ch key s hon hcannot
    have hexec := exec_commitMap_ignored hon hcannot
    exact ⟨_, hexec, weldIgnored_flag s d ch, rfl, weldIgnored_keeps s d ch, keepsMem_of_exec rfl hexec⟩
  case unlock =>
    intro d e g s hon hmeso hlocked
    have hexec := exec_seamUnlock_locked hon hmeso hlocked
    obtain ⟨hunlocked, hreported⟩ := seamUnlocked_flags s d e g
    refine ⟨_, hexec, ?_, State.flag_of_get ?_, ?_, keepsMem_of_exec rfl hexec⟩
    · rw [State.flag, seamUnlocked_raise_get s d e g _ (by decide), hunlocked]
      rfl
    · rw [seamUnlocked_raise_get s d e g _ (by decide), hreported]
    · exact keeps_raise (by decide) (by decide) (keeps_of_subset (by decide) (seamUnlocked_keeps s d e g))
  case relock =>
    intro d e g s hon hmeso
    have hexec := exec_seamRelock_meso hon hmeso
    exact ⟨_, hexec, State.flag_of_get (State.get_put_self _ _ .WLD_SEAM_STAT_LOCKED 1 (by decide)), seamAlign_phase s d e g,
      keeps_put (by decide) (atSeam_code d e g) (State.keepsRegs_of_regs (seamAlign_regs s d e g) _), keepsMem_of_exec rfl hexec⟩
  case async =>
    intro d e g s hasync
    exact exec_seam_async hasync

end Sys2Proof.Machine
end


section
/-! What starts a load and what carries an image (R200, R201, R209, R213, R214): the equation of each command case by case, the status that
a new stream shows, and the frame of bytes that are discarded. -/

namespace Sys2Proof.Machine

/-! ### Several fields put at one place -/

/-- Whether two fields share no bit. -/
def Fld.apart (f g : Fld) : Bool := f.reg.ctorIdx != g.reg.ctorIdx || decide (f.lo + f.width ≤ g.lo) || decide (g.lo + g.width ≤ f.lo)

theorem State.get_put_apart {f g : Fld} (h : f.apart g = true) {a : At} (ha : a.code < 2 ^ 44) (s : State) (v : Nat) :
    (s.put a f v).get a g = s.get a g := by
  by_cases hreg : f.reg.ctorIdx = g.reg.ctorIdx
  · refine State.get_put_field s a f g v (Reg.ctorIdx_inj hreg).symm ?_
    simpa [Fld.apart, hreg] using h
  · exact get_put_of_ne s v hreg ha ha

theorem State.get_puts_apart {g : Fld} {a : At} (ha : a.code < 2 ^ 44) (l : List (Fld × Nat))
    (hl : ∀ f ∈ l.map Prod.fst, f.apart g = true) (s : State) : (s.puts a l).get a g = s.get a g := by
  induction l generalizing s with
  | nil => rfl
  | cons e l ih =>
    obtain ⟨hhead, htail⟩ := List.forall_mem_cons.1 hl
    rw [State.puts_cons, ih htail, State.get_put_apart hhead ha]

/-- Of several fields that share no bit, each reads what was put. -/
theorem State.get_puts_of_mem {g : Fld} {v : Nat} {a : At} (ha : a.code < 2 ^ 44) {l : List (Fld × Nat)} (hmem : (g, v) ∈ l)
    (hg : g.lo + g.width ≤ 32) (hl : (l.map Prod.fst).Pairwise fun f g => g.apart f = true) (s : State) :
    (s.puts a l).get a g = v % 2 ^ g.width := by
  induction l generalizing s with
  | nil => exact absurd hmem List.not_mem_nil
  | cons e l ih =>
    obtain ⟨hhead, htail⟩ := List.pairwise_cons.1 hl
    rw [State.puts_cons]
    rcases List.mem_cons.1 hmem with rfl | hmem
    · rw [State.get_puts_apart ha l hhead, State.get_put_self _ _ _ _ hg]
    · exact ih hmem htail _

/-! ### CFG_PROG_N (R200, R201) -/

theorem exec_cfgProgNLow_unpowered {s : State} (h : s.clk.power ≠ 2) :
    exec .cfgProgNLow s = .next (s.setCfg { s.cfg with progLow := true }) :=
  congrArg Host.Outcome.next (if_neg h)

theorem exec_cfgProgNLow_powered {s : State} (h : s.clk.power = 2) : exec .cfgProgNLow s =
    .next (Die.all.foldl (fun s d => s.repairDrop d) (s.setCfg { s.cfg with progLow := true }).loadKill).scrubsMeet :=
  congrArg Host.Outcome.next (if_pos h)

theorem exec_cfgProgNRise_powered {s : State} (hlow : s.cfg.progLow = true) (h : s.clk.power = 2) (mode : BitVec 3) (pull : Bool) :
    exec (.cfgProgNRise mode pull) s = .next (((s.setCfg { s.cfg with progLow := false }).puts (atDie .e0)
      [(.CFG_SRC_MODE, mode.toNat), (.CFG_SRC_PULL, natOf pull)]).fullStart 0 true) :=
  congrArg Host.Outcome.next ((if_neg (by simp [hlow])).trans (if_pos h))

theorem exec_cfgProgNRise_unpowered {s : State} (hlow : s.cfg.progLow = true) (h : s.clk.power ≠ 2) (mode : BitVec 3) (pull : Bool) :
    exec (.cfgProgNRise mode pull) s = .next (s.setCfg { s.cfg with progLow := false }) :=
  congrArg Host.Outcome.next ((if_neg (by simp [hlow])).trans (if_neg h))

/-! ### CFG_CMD (R209) -/

/-- Whether CFG_CMD is ignored: a load runs, CFG_PROG_N is low, or the key of a command that needs one is wrong. -/
def State.cmdRefuses (s : State) (op key : Nat) : Prop :=
  s.flag (atDie .e0) .CFG_STATUS_BUSY = true ∨ s.cfg.progLow = true ∨ (op < 3 ∧ key ≠ 0xC5)

theorem cfgCmd_ignored {s : State} {op key : Nat} (hop : 0 < op ∧ op ≤ 3) (h : s.cmdRefuses op key) :
    s.cfgCmd op key = s.put (atDie .e0) .CFG_STATUS_CMD_IGNORED 1 :=
  (if_neg (by omega)).trans (if_pos h)

theorem cfgCmd_load {s : State} {op key : Nat} (hop : 0 < op ∧ op < 3) (h : ¬ s.cmdRefuses op key) :
    s.cfgCmd op key = s.fullStart op false :=
  (if_neg (by omega)).trans ((if_neg h).trans (if_pos hop.2))

theorem cfgCmd_stream {s : State} {key : Nat} (h : ¬ s.cmdRefuses 3 key) : s.cfgCmd 3 key = s.streamBegin :=
  (if_neg (by decide)).trans ((if_neg h).trans (if_neg (by decide)))

theorem not_cmdRefuses {s : State} {op key : Nat} (hidle : s.flag (atDie .e0) .CFG_STATUS_BUSY = false) (hhigh : s.cfg.progLow = false)
    (hkey : op < 3 → key = 0xC5) : ¬ s.cmdRefuses op key := by
  rintro (hbusy | hlow | ⟨hop, hne⟩)
  · simp [hidle] at hbusy
  · simp [hhigh] at hlow
  · exact hne (hkey hop)

theorem cmdRefuses_of_key {s : State} {op : Nat} {key : BitVec 8} (hop : op < 3)
    (h : s.flag (atDie .e0) .CFG_STATUS_BUSY = true ∨ s.cfg.progLow = true ∨ key ≠ 0xC5) : s.cmdRefuses op key.toNat :=
  h.imp_right fun h => h.imp_right fun hkey => ⟨hop, fun he => hkey (BitVec.eq_of_toNat_eq he)⟩

theorem cmdIgnored_flag (s : State) : (s.put (atDie .e0) .CFG_STATUS_CMD_IGNORED 1).flag (atDie .e0) .CFG_STATUS_CMD_IGNORED = true :=
  State.flag_of_get (State.get_put_self _ _ .CFG_STATUS_CMD_IGNORED 1 (by decide))

theorem cmdIgnored_keeps (s : State) : s.keepsRegs [.CFG_STATUS] (s.put (atDie .e0) .CFG_STATUS_CMD_IGNORED 1) :=
  keeps_put (by decide) (atDie_code .e0) (keeps_refl _ s)

/-! ### A stream that opens (R213, R225 step 1) -/

/-- What a load that starts puts into CFG_STATUS and CFG_PROGRESS. -/
def statusOpen (stage : Nat) : List (Fld × Nat) :=
  [(.CFG_STATUS_BUSY, 1), (.CFG_STATUS_CODE, 1), (.CFG_STATUS_STAGE, stage), (.CFG_STATUS_SLOT, 0), (.CFG_STATUS_PARTIAL, 0),
    (.CFG_PROGRESS_FRAMES, 0)]

theorem streamBegin_regs (s : State) : s.streamBegin.regs =
    ((s.puts (atDie .e0) (statusOpen 2)).put (atDie .e0) .CFG_STATUS_PARTIAL (natOf s.cfg.running)).regs := rfl

theorem streamBegin_get {g : Fld} {v : Nat} (hmem : (g, v) ∈ statusOpen 2) (hg : g.lo + g.width ≤ 32)
    (hpartial : Fld.CFG_STATUS_PARTIAL.apart g = true) (s : State) : s.streamBegin.get (atDie .e0) g = v % 2 ^ g.width := by
  rw [State.get_of_regs (streamBegin_regs s), State.get_put_apart hpartial (atDie_code .e0),
    State.get_puts_of_mem (atDie_code .e0) hmem hg (by decide)]

theorem streamBegin_status (s : State) : s.streamBegin.get (atDie .e0) .CFG_STATUS_BUSY = 1 ∧
    s.streamBegin.get (atDie .e0) .CFG_STATUS_CODE = 1 ∧ s.streamBegin.get (atDie .e0) .CFG_STATUS_STAGE = 2 :=
  ⟨streamBegin_get (v := 1) (by decide) (by decide) (by decide) s, streamBegin_get (v := 1) (by decide) (by decide) (by decide) s,
    streamBegin_get (v := 2) (by decide) (by decide) (by decide) s⟩

theorem streamBegin_keeps (s : State) : s.keepsRegs [.CFG_STATUS, .CFG_PROGRESS] s.streamBegin :=
  keeps_same (keeps_put (by decide) (atDie_code .e0) (keeps_puts (statusOpen 2) (by decide) (atDie_code .e0) (keeps_refl _ s)))
    (streamBegin_regs s)

/-! ### Bytes that are discarded (R213) -/

/-- Discarding bytes sets WIN_DROP and reports it; beside that at most an open value is used. -/
theorem streamDrop_raises (s : State) (port place : Nat) : ∃ (u : State) (x : Nat),
    u.regs = (s.put (atDie .e0) .CFG_STATUS_WIN_DROP 1).regs ∧ u.cfg = s.cfg ∧
      s.streamDrop port place = u.raise .e0 Ev.CFG_WIN_DROP x := by
  by_cases hport : port = 0
  · exact ⟨_, _, rfl, rfl, if_pos hport⟩
  · exact ⟨(s.put (atDie .e0) .CFG_STATUS_WIN_DROP 1).used, _, rfl, rfl, if_neg hport⟩

theorem streamDrop_flag (s : State) (port place : Nat) : (s.streamDrop port place).flag (atDie .e0) .CFG_STATUS_WIN_DROP = true := by
  obtain ⟨u, x, hregs, -, hdrop⟩ := streamDrop_raises s port place
  rw [hdrop]
  refine State.flag_of_get ?_
  rw [State.raise_get _ _ _ (by decide) (by decide) (atDie_code .e0), State.get_of_regs hregs]
  exact State.get_put_self _ _ .CFG_STATUS_WIN_DROP 1 (by decide)

theorem streamDrop_cfg (s : State) (port place : Nat) : (s.streamDrop port place).cfg = s.cfg := by
  obtain ⟨u, x, -, hcfg, hdrop⟩ := streamDrop_raises s port place
  rw [hdrop, Raised.cfg_eq (State.raise_raised _ _ _ (by decide)), hcfg]

theorem streamDrop_keeps (s : State) (port place : Nat) : s.keepsRegs (.CFG_STATUS :: eventRegs) (s.streamDrop port place) := by
  obtain ⟨u, x, hregs, -, hdrop⟩ := streamDrop_raises s port place
  rw [hdrop]
  exact keeps_raise (by decide) (by decide) (keeps_same (keeps_put (by decide) (atDie_code .e0) (keeps_refl _ s)) hregs)

theorem streamDrop_keepsMem (s : State) (port place : Nat) : s.keepsMem (s.streamDrop port place) :=
  State.keepsMem_of_held (State.streamDrop_held rfl)

/-! ### The image window and the bytes of an image (R213, R214) -/

theorem windowWrite_follows {s : State} {src : WinSrc} {place : Nat} (hsrc : src ≠ .other) (hopen : s.cfg.streamOpen = true)
    (hplace : place = s.cfg.streamPos) (l : List Nat) :
    s.windowWrite src place l = s.streamIn (if src = .pcie then 5 else 4) 0 l := by
  cases src
  case other => exact absurd rfl hsrc
  all_goals exact (if_neg (by simp [hopen])).trans (if_neg (not_not_intro hplace))

theorem windowWrite_outOfPlace {s : State} {src : WinSrc} {place : Nat} (hsrc : src ≠ .other) (hopen : s.cfg.streamOpen = true)
    (hplace : place ≠ s.cfg.streamPos) (l : List Nat) :
    s.windowWrite src place l = (s.streamDrop 0 place).refuse 0x1B 0 0 false := by
  cases src
  case other => exact absurd rfl hsrc
  all_goals exact (if_neg (by simp [hopen])).trans (if_pos hplace)

theorem exec_streamStallTimeout_open {s : State} (hopen : s.cfg.streamOpen = true) :
    exec .streamStallTimeout s = .next (s.refuse 0x1B 0 0 false) :=
  congrArg Host.Outcome.next (if_pos hopen)

theorem exec_entryTableReceived_stream {s : State} (hopen : s.cfg.streamOpen = true) (bytes : List Byte) :
    exec (.entryTableReceived bytes) s = .next (s.streamFeed 4 0 (bytes.map BitVec.toNat)) :=
  congrArg Host.Outcome.next (if_pos hopen)

theorem exec_entryTableReceived_flash {s : State} {bytes : List Byte} (hshut : s.cfg.streamOpen = false) (hphase : s.cfg.phase = .table)
    (hflash : s.cfg.source = 1 ∨ s.cfg.source = 2) (hlen : bytes.length = tableBytes s.cfg.header) :
    exec (.entryTableReceived bytes) s = .next (s.tableIn (bytes.map BitVec.toNat)) :=
  congrArg Host.Outcome.next ((if_neg (by simp [hshut])).trans (if_pos ⟨hphase, hflash, by rw [List.length_map, hlen]⟩))

theorem exec_framePacket_stream {s : State} (hopen : s.cfg.streamOpen = true) (p : Packet) :
    exec (.framePacket p) s = .next (s.streamFeed 4 0 (packetBytes p)) :=
  congrArg Host.Outcome.next (if_pos hopen)

theorem exec_framePacket_flash {s : State} (hshut : s.cfg.streamOpen = false) (hphase : s.cfg.phase = .frames)
    (hflash : s.cfg.source = 1 ∨ s.cfg.source = 2) (hfirst : s.cfg.again = false) (p : Packet) :
    exec (.framePacket p) s = .next (s.packetIn p false) :=
  congrArg Host.Outcome.next ((if_neg (by simp [hshut])).trans (if_pos ⟨hphase, hflash, hfirst⟩))

/-- Settles O18, clause by clause: CFG_PROG_N, CFG_CMD (the `cfgCmd_` lemmas), the image window and the bytes of an image. -/
theorem loadStartCommandsRun : Obligations.LoadStartCommandsRun := by
  unfold Obligations.LoadStartCommandsRun
  refine ⟨?progLowUnpowered, ?progLow, ?progRise, ?progRiseUnpowered, ?load, ?accept, ?ignored, ?windowOther, ?windowFollows,
    ?windowOutOfPlace, ?stall, ?table, ?packet, ?streamed⟩
  case progLowUnpowered =>
    intro s hpower
    exact ⟨_, exec_cfgProgNLow_unpowered hpower, rfl, State.keepsRegs_of_regs rfl _, fun _ => rfl⟩
  case progLow =>
    intro s hpower
    exact exec_cfgProgNLow_powered hpower
  case progRise =>
    intro mode pull s hlow hpower
    exact exec_cfgProgNRise_powered hlow hpower mode pull
  case progRiseUnpowered =>
    intro mode pull s hlow hpower
    exact ⟨_, exec_cfgProgNRise_unpowered hlow hpower mode pull, rfl, State.keepsRegs_of_regs rfl _, fun _ => rfl⟩
  case load =>
    intro s hidle hhigh
    exact ⟨congrArg Host.Outcome.next (cfgCmd_load (by decide) (not_cmdRefuses hidle hhigh fun _ => rfl)),
      congrArg Host.Outcome.next (cfgCmd_load (by decide) (not_cmdRefuses hidle hhigh fun _ => rfl))⟩
  case accept =>
    intro s hidle hhigh
    obtain ⟨hbusy, hcode, hstage⟩ := streamBegin_status s
    exact ⟨_, congrArg Host.Outcome.next (cfgCmd_stream (not_cmdRefuses hidle hhigh fun h => absurd h (by decide))), rfl, rfl, rfl,
      State.flag_of_get hbusy, hcode, hstage, rfl, streamBegin_keeps s, State.keepsMem_of_held (State.streamBegin_held rfl)⟩
  case ignored =>
    intro key s hrefuses
    exact ⟨_, congrArg Host.Outcome.next (cfgCmd_ignored (by decide) (cmdRefuses_of_key (by decide) hrefuses)),
      congrArg Host.Outcome.next (cfgCmd_ignored (by decide) (cmdRefuses_of_key (by decide) hrefuses)), cmdIgnored_flag s, rfl,
      cmdIgnored_keeps s, fun _ => rfl⟩
  case windowOther =>
    intro offset bytes s
    exact ⟨s.streamDrop 0 offset.toNat, rfl, streamDrop_flag s 0 _, streamDrop_cfg s 0 _, streamDrop_keeps s 0 _,
      streamDrop_keepsMem s 0 _⟩
  case windowFollows =>
    intro offset bytes s hopen hplace
    exact ⟨congrArg Host.Outcome.next (windowWrite_follows (by decide) hopen hplace _),
      congrArg Host.Outcome.next (windowWrite_follows (by decide) hopen hplace _)⟩
  case windowOutOfPlace =>
    intro offset bytes s hopen hplace
    exact congrArg Host.Outcome.next (windowWrite_outOfPlace (by decide) hopen hplace _)
  case stall =>
    intro s hopen
    exact exec_streamStallTimeout_open hopen
  case table =>
    intro bytes s hshut hphase hflash hlen
    exact exec_entryTableReceived_flash hshut hphase hflash hlen
  case packet =>
    intro p s hshut hphase hflash hfirst
    exact exec_framePacket_flash hshut hphase hflash hfirst p
  case streamed =>
    intro p bytes s hopen
    exact ⟨exec_framePacket_stream hopen p, exec_entryTableReceived_stream hopen bytes⟩

end Sys2Proof.Machine
end

section
/-! The test port (R212, R321): the data register that each instruction selects, the readback of a frame, and what comes in by CFG_IN and
CFG_CMD. -/

namespace Sys2Proof.Machine

/-! ### What is shifted out (R212) -/

theorem exec_cfgStat (s : State) : exec .cfgStat s = .next (((s.tapIr 0x09).setAnswer (s.reg (atDie .e0) .CFG_STATUS)).emit
    (.shifted (s.reg (atDie .e0) .CFG_STATUS).toNat)) := rfl

theorem idcode_eq : idcode = 0x0088034B := by decide

theorem exec_idcode (s : State) :
    exec .idcode s = .next (((s.tapIr 0x01).setAnswer 0x0088034B).emit (.shifted 0x0088034B)) := by
  change Host.Outcome.next (((s.tapIr 0x01).setAnswer idcode).emit (.shifted idcode.toNat)) = _
  rw [idcode_eq]
  rfl

/-- EXTEST and SAMPLE/PRELOAD shift out what the cells capture, and the cells keep the bits shifted in. -/
theorem boundary_scans (s : State) (ir : Nat) (bits : List Bool) :
    (s.boundary ir bits).tap.ir = ir ∧ (s.boundary ir bits).tap.cells = bits ∧
    (s.boundary ir bits).sent = .shifted ((List.range bits.length).foldr (fun i v => natOf (s.scanBit i) + 2 * v) 0) :: s.sent ∧
    s.keepsRegs [] (s.boundary ir bits) ∧ s.keepsMem (s.boundary ir bits) :=
  ⟨rfl, rfl, rfl, State.keepsRegs_of_regs rfl _, State.keepsMem_of_held (State.boundary_held rfl)⟩

/-! ### The readback of a frame (R321) -/

theorem exec_cfgRead_names {s : State} {v : Word} (hbit : v.getLsbD 31 = true) (hlevel : 1 ≤ s.get (atDie .e0) .DBG_SESSION_LEVEL) :
    exec (.cfgRead v) s = .next ((s.tapIr 0x0B).setTap { (s.tapIr 0x0B).tap with frame := some (v.toNat % 2 ^ 25), word := 0 }) :=
  congrArg Host.Outcome.next (if_pos (Bool.and_eq_true_iff.2 ⟨hbit, decide_eq_true hlevel⟩))

theorem exec_cfgRead_nothing {s : State} {v : Word} (h : v.getLsbD 31 = false ∨ s.get (atDie .e0) .DBG_SESSION_LEVEL = 0) :
    exec (.cfgRead v) s = .next (s.tapIr 0x0B) := by
  refine congrArg Host.Outcome.next (if_neg fun hboth => ?_)
  obtain ⟨hbit, hlevel⟩ := Bool.and_eq_true_iff.1 hboth
  rcases h with hclear | hlow
  · exact absurd hbit (ne_true_of_eq_false hclear)
  · exact absurd hlow (Nat.one_le_iff_ne_zero.1 (of_decide_eq_true hlevel))

theorem contentData_state (s : State) (d : Die) (f : Nat) : (s.contentData d f).1 = s ∨ (s.contentData d f).1 = s.used := by
  unfold State.contentData
  split
  · exact .inl rfl
  · exact .inr rfl

/-- Reading a word of a frame uses at most an open value. -/
theorem readbackWord_state (s : State) (addr w : Nat) : (s.readbackWord addr w).1 = s ∨ (s.readbackWord addr w).1 = s.used := by
  unfold State.readbackWord
  dsimp only
  split
  · exact .inl rfl
  · split
    · split <;> exact .inl rfl
    · split
      · exact contentData_state s _ _
      · exact .inl rfl

theorem readbackWord_tap (s : State) (addr w : Nat) : (s.readbackWord addr w).1.tap = s.tap :=
  (readbackWord_state s addr w).elim (congrArg State.tap) (congrArg State.tap)

/-- The state after a capture of CFG_READ that shows a word. -/
def State.wordShown (s : State) (n : Nat) : State := (s.setAnswer (BitVec.ofNat 32 n)).emit (.shifted n)

/-- Whether a capture of CFG_READ takes the next word of a frame. -/
def State.readsBack (s : State) (addr : Nat) : Prop :=
  s.tap.word < 132 ∧ 1 ≤ s.get (atDie .e0) .DBG_SESSION_LEVEL ∧ (s.scrub (Die.ofIdx (bitsOf addr 20 3))).mode ≠ 2

theorem exec_cfgReadCapture_word {s : State} {addr : Nat} (hframe : s.tap.frame = some addr) (hreads : s.readsBack addr) :
    exec .cfgReadCapture s = .next (((s.readbackWord addr s.tap.word).1.wordShown (s.readbackWord addr s.tap.word).2).setTap
      { s.tap with word := s.tap.word + 1 }) := by
  change execCfgReadCapture s = _
  rw [execCfgReadCapture, hframe]
  refine congrArg Host.Outcome.next ((if_pos hreads).trans ?_)
  exact congrArg (fun tap : Tap => ((s.readbackWord addr s.tap.word).1.wordShown (s.readbackWord addr s.tap.word).2).setTap
    { tap with word := tap.word + 1 }) (readbackWord_tap s addr s.tap.word)

theorem exec_cfgReadCapture_open {s : State} (h : ∀ addr, s.tap.frame = some addr → ¬ s.readsBack addr) :
    exec .cfgReadCapture s = .next (s.used.wordShown (s.free 32)) := by
  change execCfgReadCapture s = _
  rw [execCfgReadCapture]
  split
  next addr hframe => exact congrArg Host.Outcome.next (if_neg (h addr hframe))
  next => rfl

/-! ### CFG_IN and CFG_CMD (R212) -/

theorem exec_cfgIn_stream {s : State} (hmay : s.tapMay = true) (hopen : s.cfg.streamOpen = true)
    (hphase : ¬(s.cfg.phase = .waiting ∨ s.cfg.phase = .refusal)) (v : Word) :
    exec (.cfgIn v) s = .next ((s.tapIr 0x08).streamIn 3 1 (bytesLE v.toNat 4)) := by
  change execCfgIn v s = _
  have hmay : (s.tapIr 0x08).tapMay = true := hmay
  have hphase : ¬((s.tapIr 0x08).cfg.phase = .waiting ∨ (s.tapIr 0x08).cfg.phase = .refusal) := hphase
  have hopen : (s.tapIr 0x08).cfg.streamOpen = true := hopen
  simp only [execCfgIn, hmay, hphase, hopen, Bool.true_eq_false, if_false, if_true]

/-- The first bytes of an image, in a state that waits for one, open its stream. -/
theorem exec_cfgIn_begin {s : State} (hmay : s.tapMay = true) (hphase : s.cfg.phase = .waiting ∨ s.cfg.phase = .refusal) (v : Word) :
    exec (.cfgIn v) s = .next ((s.tapIr 0x08).streamBegin.streamIn 3 1 (bytesLE v.toNat 4)) := by
  change execCfgIn v s = _
  have hmay : (s.tapIr 0x08).tapMay = true := hmay
  have hphase : (s.tapIr 0x08).cfg.phase = .waiting ∨ (s.tapIr 0x08).cfg.phase = .refusal := hphase
  have hopen : (s.tapIr 0x08).streamBegin.cfg.streamOpen = true := rfl
  simp only [execCfgIn, hmay, if_pos hphase, hopen, Bool.true_eq_false, if_false, if_true]

theorem exec_cfgIn_dropped {s : State} (h : s.tapMay = false ∨
      (s.cfg.streamOpen = false ∧ ¬(s.cfg.phase = .waiting ∨ s.cfg.phase = .refusal))) (v : Word) :
    exec (.cfgIn v) s = .next ((s.tapIr 0x08).streamDrop 1 s.cfg.streamPos) := by
  change execCfgIn v s = _
  by_cases hmay : s.tapMay = false
  · exact congrArg Host.Outcome.next (if_pos hmay)
  · obtain ⟨hshut, hphase⟩ := h.resolve_left hmay
    refine congrArg Host.Outcome.next ((if_neg hmay).trans ?_)
    have hphase : ¬((s.tapIr 0x08).cfg.phase = .waiting ∨ (s.tapIr 0x08).cfg.phase = .refusal) := hphase
    have hshut : (s.tapIr 0x08).cfg.streamOpen = false := hshut
    simp only [if_neg hphase, hshut, Bool.false_eq_true, if_false]
    rfl

/-- Bytes that CFG_IN discards set WIN_DROP and leave the master as it was. -/
theorem cfgIn_dropped_frame {s : State} (h : s.tapMay = false ∨
      (s.cfg.streamOpen = false ∧ ¬(s.cfg.phase = .waiting ∨ s.cfg.phase = .refusal))) (v : Word) :
    ∃ t, exec (.cfgIn v) s = .next t ∧ t.flag (atDie .e0) .CFG_STATUS_WIN_DROP = true ∧ t.cfg = s.cfg ∧
      s.keepsRegs (.CFG_STATUS :: eventRegs) t ∧ s.keepsMem t :=
  ⟨_, exec_cfgIn_dropped h v, streamDrop_flag .., streamDrop_cfg (s.tapIr 0x08) .., streamDrop_keeps (s.tapIr 0x08) 1 _,
    streamDrop_keepsMem (s.tapIr 0x08) 1 _⟩

theorem exec_testPortCfgCmd_may {s : State} (hmay : s.tapMay = true) (v : Word) :
    exec (.testPortCfgCmd v) s = .next ((s.tapIr 0x0A).cfgCmd (v.toNat % 8) (v.toNat / 2 ^ 24)) :=
  congrArg Host.Outcome.next (if_pos hmay)

theorem exec_testPortCfgCmd_ignored {s : State} (hmay : s.tapMay = false) (v : Word) :
    exec (.testPortCfgCmd v) s = .next ((s.tapIr 0x0A).put (atDie .e0) .CFG_STATUS_CMD_IGNORED 1) :=
  congrArg Host.Outcome.next (if_neg (ne_true_of_eq_false hmay))

/-- Settles O19: what is shifted out is by the equations of the instructions, CFG_READ by `exec_cfgReadCapture_word`, and what CFG_IN and
CFG_CMD discard by the laws of discarded bytes (`cfgIn_dropped_frame`) and ignored commands. -/
theorem testPortCommandsRun : Obligations.TestPortCommandsRun := by
  unfold Obligations.TestPortCommandsRun
  refine ⟨?cfgStat, ?idcode, ?extest, ?sample, ?bypass, ?names, ?namesNothing, ?word, ?noWord, ?stream, ?begin, ?noStream, ?mayNot, ?cmd,
    ?cmdIgnored⟩
  case cfgStat =>
    intro s
    exact ⟨_, exec_cfgStat s, rfl, rfl, rfl, State.keepsRegs_of_regs rfl _, keepsMem_of_exec rfl (exec_cfgStat s)⟩
  case idcode =>
    intro s
    exact ⟨_, exec_idcode s, rfl, rfl, rfl, State.keepsRegs_of_regs rfl _, keepsMem_of_exec rfl (exec_idcode s)⟩
  case extest =>
    intro bits s
    exact ⟨_, rfl, boundary_scans s 0x00 bits⟩
  case sample =>
    intro bits s
    exact ⟨_, rfl, boundary_scans s 0x02 bits⟩
  case bypass =>
    intro s
    exact ⟨(s.tapIr 0xFF).emit (.shifted 0), rfl, rfl, rfl, State.keepsRegs_of_regs rfl _, fun _ => rfl⟩
  case names =>
    intro v s hbit hlevel
    exact ⟨_, exec_cfgRead_names hbit hlevel, rfl, rfl, rfl, State.keepsRegs_of_regs rfl _, fun _ => rfl⟩
  case namesNothing =>
    intro v s hneither
    exact ⟨_, exec_cfgRead_nothing hneither, rfl, State.keepsRegs_of_regs rfl _, fun _ => rfl⟩
  case word =>
    intro addr s hframe hword hlevel hlap
    exact ⟨_, exec_cfgReadCapture_word hframe ⟨hword, hlevel, hlap⟩, hframe, rfl, rfl⟩
  case noWord =>
    intro s hnone
    have hopen : ∀ addr, s.tap.frame = some addr → ¬ s.readsBack addr := by
      rintro addr hframe ⟨hword, hlevel, -⟩
      rcases hnone with hnone | hpast | hlow
      · simp [hframe] at hnone
      · omega
      · omega
    exact ⟨_, exec_cfgReadCapture_open hopen, rfl, State.keepsRegs_of_regs rfl _, fun _ => rfl⟩
  case stream =>
    intro v s hmay hopen hwaiting hrefusal
    exact exec_cfgIn_stream hmay hopen (not_or.2 ⟨hwaiting, hrefusal⟩) v
  case begin =>
    intro v s hmay hphase
    exact exec_cfgIn_begin hmay hphase v
  case noStream =>
    intro v s hmay hshut hwaiting hrefusal
    exact cfgIn_dropped_frame (.inr ⟨hshut, not_or.2 ⟨hwaiting, hrefusal⟩⟩) v
  case mayNot =>
    intro v s hmay
    exact cfgIn_dropped_frame (.inl hmay) v
  case cmd =>
    intro v s hmay
    exact exec_testPortCfgCmd_may hmay v
  case cmdIgnored =>
    intro v s hmay
    exact ⟨_, exec_testPortCfgCmd_ignored hmay v, cmdIgnored_flag _, rfl, cmdIgnored_keeps (s.tapIr 0x0A), fun _ => rfl⟩

end Sys2Proof.Machine
end

section
/-! The steps of a load, of an abort and of a staged release (R203 to R210, R225 to R232): the equation of each command case by case, and
what the end of a full load leaves. -/

namespace Sys2Proof.Machine

/-! ### The header, the preparation and the setup records (R203 to R205) -/

theorem exec_flashHeaderRead_flash {s : State} (hphase : s.cfg.phase = .header) (hflash : s.cfg.source = 1 ∨ s.cfg.source = 2)
    (header : BitVec 2048) :
    exec (.flashHeaderRead header) s = .next (s.setCfg { s.cfg with header := bytesLE header.toNat 256 }).headerOn :=
  congrArg Host.Outcome.next (if_pos ⟨hphase, hflash⟩)

/-- A full load whose preparation has ended takes over, and goes on as its source asks. -/
def State.loadPrepared (s : State) : State :=
  let t := s.loadBegin
  if t.cfg.header = [] then (t.phase .start).loadOn
  else if t.cfg.source = 1 ∨ t.cfg.source = 2 then t.phase .setup
  else ((t.phase .table).cfgStage 3).streamGo

theorem exec_loadPreparationDone_ready {s : State} (hphase : s.cfg.phase = .prepare)
    (hready : ∀ (d : FDie) (p : Fin 16), s.up d.die = false ∨ (s.fence (.parcel d p) = 2 ∧ s.powerStep d.die p = 0)) :
    exec .loadPreparationDone s = .next s.loadPrepared := by
  refine congrArg Host.Outcome.next (if_pos ⟨hphase, List.all_eq_true.2 fun x _ => ?_⟩)
  simpa using hready x.1 x.2

theorem exec_flashSetupRecord_next {s : State} (hphase : s.cfg.phase = .setup) (hleft : s.setupLeft = true) :
    exec .flashSetupRecord s = .next ((s.emit (.flashSetup (hdrSetup s.cfg.header s.cfg.setupNext))).setCfg
      { s.cfg with setupNext := s.cfg.setupNext + 1 }) :=
  congrArg Host.Outcome.next (if_pos ⟨hphase, hleft⟩)

/-- What the header's second read puts into CFG_FLASH: 8D-8D-8D is in use, with the image's clock, dummy cycles and read command. -/
def flashOctal (h : List Nat) : List (Fld × Nat) :=
  [(.CFG_FLASH_OCTAL, 1), (.CFG_FLASH_FREQ, fieldLE h 0x6A 1), (.CFG_FLASH_DUMMY, fieldLE h 0x69 1),
    (.CFG_FLASH_READ_OP, fieldLE h 0x68 1)]

/-- The state in which the header has been read again as it was. -/
def State.headerSame (s : State) : State := ((s.puts (atDie .e0) (flashOctal s.cfg.header)).phase .table).cfgStage 3

theorem exec_flashHeaderReread_same {s : State} {header : BitVec 2048} (hphase : s.cfg.phase = .setup) (hdone : s.setupLeft = false)
    (hsame : bytesLE header.toNat 256 = s.cfg.header) : exec (.flashHeaderReread header) s = .next s.headerSame :=
  congrArg Host.Outcome.next ((if_pos ⟨hphase, hdone⟩).trans (if_pos hsame))

theorem exec_flashHeaderReread_other {s : State} {header : BitVec 2048} (hphase : s.cfg.phase = .setup) (hdone : s.setupLeft = false)
    (hother : bytesLE header.toNat 256 ≠ s.cfg.header) : exec (.flashHeaderReread header) s = .next (s.refuse 0x1A 0 0 false) :=
  congrArg Host.Outcome.next ((if_pos ⟨hphase, hdone⟩).trans (if_neg hother))

theorem headerSame_cfg (s : State) : s.headerSame.cfg = { s.cfg with phase := .table } := rfl

theorem phase_regs (s : State) (p : LoadPhase) : (s.phase p).regs = s.regs := rfl

theorem headerSame_octal (s : State) : s.headerSame.get (atDie .e0) .CFG_FLASH_OCTAL = 1 := by
  rw [State.headerSame, State.cfgStage, State.get_put_apart (by decide) (atDie_code .e0), State.get_of_regs (phase_regs _ _), flashOctal,
    State.get_puts_of_mem (atDie_code .e0) List.mem_cons_self (by decide) (by simp only [List.map]; decide)]
  rfl

theorem headerSame_stage (s : State) : s.headerSame.get (atDie .e0) .CFG_STATUS_STAGE = 3 :=
  State.get_put_self _ _ .CFG_STATUS_STAGE 3 (by decide)

theorem headerSame_keeps (s : State) : s.keepsRegs [.CFG_FLASH, .CFG_STATUS] s.headerSame := by
  have hflash : s.keepsRegs [.CFG_FLASH, .CFG_STATUS] (s.puts (atDie .e0) (flashOctal s.cfg.header)) :=
    keeps_puts _ (by simp only [flashOctal, List.forall_mem_cons]; decide) (atDie_code .e0) (keeps_refl _ s)
  exact keeps_put (by decide) (atDie_code .e0) (keeps_same hflash (phase_regs _ _))

/-! ### A packet that is read again (R206) -/

theorem raise_onCfg (s : State) (d : Die) {loc : Nat} (hloc : loc < 2 ^ 30) (x : Nat) (f : CfgMaster → CfgMaster) :
    (s.raise d loc x).onCfg f = (s.raise d loc x).setCfg (f s.cfg) :=
  congrArg (fun c => (s.raise d loc x).setCfg (f c)) (Raised.cfg_eq (State.raise_raised s d x hloc))

theorem exec_frameReread_again {s : State} {d : Die} {f : Nat} (hphase : s.cfg.phase = .frames) (hagain : s.cfg.again = true)
    (hplace : packetPlace s.cfg.header Die.all s.cfg.frames = (d, f)) (p : Packet) : exec (.frameReread p) s =
      .next (((s.raise .e0 Ev.CFG_FRAME_RETRY (frameAddr d f)).setCfg { s.cfg with again := false }).packetIn p true) := by
  change execFrameReread p s = _
  simp only [execFrameReread, hphase, hagain, and_self, if_true, hplace, raise_onCfg s .e0 (loc := Ev.CFG_FRAME_RETRY) (by decide)]

/-! ### PRC_LOAD_CTRL and the blanking (R229 to R231) -/

/-- The state in which PRC_LOAD_CTRL.HOLD has been written. -/
def State.holdPut (s : State) (d : Die) (hold : Bool) : State := s.put (atDie d) .PRC_LOAD_CTRL_HOLD (natOf hold)

theorem exec_partialLoadAbort (die : FDie) (hold : Bool) (s : State) :
    exec (.partialLoadAbort die hold) s = .next ((s.holdPut die.die hold).loadAbort die.die) := rfl

theorem holdPut_hold (s : State) (d : Die) (hold : Bool) : (s.holdPut d hold).get (atDie d) .PRC_LOAD_CTRL_HOLD = natOf hold :=
  (State.get_put_self _ _ .PRC_LOAD_CTRL_HOLD _ (by decide)).trans (by cases hold <;> rfl)

theorem holdPut_keeps (s : State) (d : Die) (hold : Bool) : s.keepsRegs [.PRC_LOAD_CTRL] (s.holdPut d hold) :=
  keeps_put (by decide) (atDie_code d) (keeps_refl _ s)

theorem holdPut_loadSt (s : State) (d : Die) (hold : Bool) : (s.holdPut d hold).loadSt = s.loadSt :=
  get_put_of_ne s _ (by decide) (atDie_code d) (atDie_code s.loadDie)

theorem loadAbort_noLoad {s : State} (hnone : s.cfg.partialLoad = false) (d : Die) : s.loadAbort d = s := by
  simp [State.loadAbort, hnone]

/-- Whether a partial load runs on a die and is not being blanked. -/
def State.loadsOn (s : State) (d : Die) : Prop := s.cfg.partialLoad = true ∧ s.loadDie = d ∧ s.cfg.phase ≠ .blanking

theorem loadAbort_loading {s : State} {d : Die} (h : s.loadsOn d) : s.loadAbort d =
    if 3 ≤ s.loadSt then s.put (atDie d) .PRC_LOAD_STAT_ABORT_LATE 1
    else (s.put (atDie d) .PRC_LOAD_STAT_TARGETS (hdrParcels s.cfg.header)).blankStart 3 := by
  obtain ⟨hpartial, hdie, hphase⟩ := h
  exact if_pos (by simp [hpartial, hdie, hphase])

theorem exec_partialLoadAbort_late {s : State} {die : FDie} (h : s.loadsOn die.die) (hlate : 3 ≤ s.loadSt) (hold : Bool) :
    exec (.partialLoadAbort die hold) s =
      .next ((s.holdPut die.die hold).put (atDie die.die) .PRC_LOAD_STAT_ABORT_LATE 1) := by
  rw [exec_partialLoadAbort, loadAbort_loading (s := s.holdPut die.die hold) h, if_pos (by rwa [holdPut_loadSt])]

theorem exec_partialLoadAbort_early {s : State} {die : FDie} (h : s.loadsOn die.die) (hearly : s.loadSt < 3) (hold : Bool) :
    exec (.partialLoadAbort die hold) s = .next (((s.holdPut die.die hold).put (atDie die.die) .PRC_LOAD_STAT_TARGETS
      (hdrParcels s.cfg.header)).blankStart 3) := by
  rw [exec_partialLoadAbort, loadAbort_loading (s := s.holdPut die.die hold) h, if_neg (by rw [holdPut_loadSt]; omega)]
  rfl

theorem exec_blankingDone_ready {s : State} (h : s.blankReady = true) : exec .blankingDone s = .next s.blankEnd :=
  congrArg Host.Outcome.next (if_pos h)

theorem exec_blankingDone_waits {s : State} (h : s.blankReady = false) : exec .blankingDone s = .next s :=
  congrArg Host.Outcome.next (if_neg (ne_true_of_eq_false h))

/-! ### The block RAM of a parcel that powers up (R235 step 5) -/

theorem bramZero_keeps (s : State) (d : Die) (p : Nat) : s.keepsRegs [] (s.bramZero d p) := State.keepsRegs_of_regs rfl _

theorem exec_parcelBramCleared_own {s : State} {die : FDie} {p : Fin 16} (hstep : s.powerStep die.die p = 5)
    (htarget : s.loadTarget die.die p = false) (hphase : s.cfg.phase ≠ .prepare) :
    exec (.parcelBramCleared die p) s = .next ((s.bramZero die.die p).setPowerStep die.die p 6) := by
  have hholds : (s.bramZero die.die p).loadHolds = false := beq_false_of_ne hphase
  have htarget : (s.bramZero die.die p).loadTarget die.die p = false := htarget
  change execParcelBramCleared die p s = _
  simp only [execParcelBramCleared, hstep, hholds, htarget, Bool.false_and, Bool.false_eq_true, if_false, if_true]

/-! ### The stages of a release (R210, R226) -/

theorem exec_releaseStageOutputs_at {s : State} {k : RelKind} (h : s.releaseAt k 1 = true) : exec (.releaseStageOutputs k) s =
    .next (let t := (s.releaseTo k 2).dieStages k 1; let t := (t.releaseParcels k).foldl (fun s x => s.parcelStage1 x.1 x.2) t;
      let t := if k = .full then t.fullOutputs else t; (t.releaseDies k).foldl (fun s d => s.lanesRelease d) t) :=
  congrArg Host.Outcome.next (if_pos h)

theorem exec_releaseStageWriteEnables_at {s : State} {k : RelKind} (h : s.releaseAt k 2 = true) :
    exec (.releaseStageWriteEnables k) s =
      .next ((s.releaseParcels k).foldl (fun s x => s.parcelStage2 x.1 x.2) ((s.releaseTo k 3).dieStages k 2)) :=
  congrArg Host.Outcome.next (if_pos h)

/-- The release of a parcel that powers up moves no die's stage, and its stage 3 ends the power-up. -/
theorem exec_releaseStageResets_power {s : State} {d : FDie} {p : Fin 16} (h : s.releaseAt (.power d p) 3 = true) :
    exec (.releaseStageResets (.power d p)) s =
      .next ((((s.releaseTo (.power d p) 4).parcelStage3 d p).releaseEnd (.power d p)).powerDone d p) :=
  congrArg Host.Outcome.next (if_pos h)

theorem exec_releaseStageOutputs_idle {s : State} {k : RelKind} (h : s.releaseAt k 1 = false) :
    exec (.releaseStageOutputs k) s = .next s :=
  congrArg Host.Outcome.next (if_neg (ne_true_of_eq_false h))

theorem exec_releaseStageWriteEnables_idle {s : State} {k : RelKind} (h : s.releaseAt k 2 = false) :
    exec (.releaseStageWriteEnables k) s = .next s :=
  congrArg Host.Outcome.next (if_neg (ne_true_of_eq_false h))

theorem exec_releaseStageResets_idle {s : State} {k : RelKind} (h : s.releaseAt k 3 = false) :
    exec (.releaseStageResets k) s = .next s :=
  congrArg Host.Outcome.next (if_neg (ne_true_of_eq_false h))

theorem releaseAt_of_releases {s t : State} (h : t.releases = s.releases) (k : RelKind) (n : Nat) :
    t.releaseAt k n = s.releaseAt k n := by
  rw [State.releaseAt, h]
  rfl

theorem releaseEnd_releaseAt (s : State) (k : RelKind) (n : Nat) : (s.releaseEnd k).releaseAt k n = false := by
  simp only [State.releaseAt, State.releaseEnd, State.setReleases, List.any_filter]
  refine List.any_eq_false.2 fun r _ => ?_
  by_cases hkind : r.kind = k <;> simp [hkind]

/-! ### What the scrubbers change when they meet a load (R252, R260) -/

/-- Of what a release looks at, `t` differs from `s` in SCR_STATUS alone. -/
def State.scrubsOnly (s t : State) : Prop :=
  s.keepsRegs [.SCR_STATUS] t ∧ t.cfg = s.cfg ∧ t.pins = s.pins ∧ t.releases = s.releases

theorem scrubsOnly_refl (s : State) : s.scrubsOnly s := ⟨keeps_refl _ s, rfl, rfl, rfl⟩

theorem scrubsOnly_trans {s t u : State} (h : s.scrubsOnly t) (k : t.scrubsOnly u) : s.scrubsOnly u := by
  obtain ⟨hregs, hcfg, hpins, hreleases⟩ := h
  obtain ⟨kregs, kcfg, kpins, kreleases⟩ := k
  exact ⟨keeps_trans hregs kregs, kcfg.trans hcfg, kpins.trans hpins, kreleases.trans hreleases⟩

theorem setScrub_scrubsOnly (s : State) (d : Die) (c : Scrub) : s.scrubsOnly (s.setScrub d c) :=
  ⟨keeps_puts _ (by simp only [List.forall_mem_cons]; decide) (atDie_code d) (State.keepsRegs_of_regs rfl _), rfl, rfl, rfl⟩

theorem repairDrop_scrubsOnly (s : State) (d : Die) : s.scrubsOnly (s.repairDrop d) := by
  unfold State.repairDrop
  split
  · exact setScrub_scrubsOnly ..
  · exact scrubsOnly_refl s

theorem scrubSync_scrubsOnly (s : State) (d : Die) : s.scrubsOnly (s.scrubSync d) := by
  unfold State.scrubSync
  dsimp only
  split
  · exact scrubsOnly_refl s
  · split
    · split
      · exact setScrub_scrubsOnly ..
      · exact scrubsOnly_refl s
    · split
      · exact scrubsOnly_refl s
      · exact setScrub_scrubsOnly ..

theorem scrubsMeet_scrubsOnly (s : State) : s.scrubsOnly s.scrubsMeet := by
  refine List.foldlRecOn (motive := fun t => s.scrubsOnly t) _ _ (scrubsOnly_refl s) fun t ht d _ => scrubsOnly_trans ht ?_
  refine scrubsOnly_trans ?_ (scrubSync_scrubsOnly _ d)
  split
  · exact repairDrop_scrubsOnly t d
  · exact scrubsOnly_refl t

/-! ### The end of a full load (R210 step 5) -/

/-- The state in which a full load has ended and CFG_DONE is high, before the scrubbers meet its end. -/
def State.fullEnded (s : State) : State :=
  (((s.releaseEnd .full).cfgEnd 2 0).phase .idle).setPins { s.pins with cfgDone := true }

theorem exec_cfgDone_at {s : State} (h : s.releaseAt .full 4 = true) :
    ∃ x, exec .cfgDone s = .next (s.fullEnded.scrubsMeet.raise .e0 Ev.CFG_DONE x) :=
  ⟨_, congrArg Host.Outcome.next (if_pos h)⟩

/-- What the end of a full load puts into CFG_STATUS. -/
def statusDone : List (Fld × Nat) := [(.CFG_STATUS_BUSY, 0), (.CFG_STATUS_CODE, 2), (.CFG_STATUS_STAGE, 0)]

theorem fullEnded_regs (s : State) : s.fullEnded.regs = (s.puts (atDie .e0) statusDone).regs := rfl

theorem fullEnded_status (s : State) :
    s.fullEnded.get (atDie .e0) .CFG_STATUS_CODE = 2 ∧ s.fullEnded.get (atDie .e0) .CFG_STATUS_BUSY = 0 := by
  rw [State.get_of_regs (fullEnded_regs s), State.get_of_regs (fullEnded_regs s)]
  exact ⟨State.get_puts_of_mem (v := 2) (atDie_code .e0) (by decide) (by decide) (by decide) s,
    State.get_puts_of_mem (v := 0) (atDie_code .e0) (by decide) (by decide) (by decide) s⟩

theorem fullEnded_releases (s : State) : s.fullEnded.releases = (s.releaseEnd .full).releases := rfl

theorem fullEnded_keeps (s : State) : s.keepsRegs [.CFG_STATUS] s.fullEnded :=
  keeps_same (keeps_puts statusDone (by decide) (atDie_code .e0) (keeps_refl _ s)) (fullEnded_regs s)

/-- After the scrubbers and the event the master, the pins, the releases and CFG_STATUS are as the end of the load left them. -/
theorem fullEnded_kept (s : State) (x : Nat) : let t := s.fullEnded.scrubsMeet.raise .e0 Ev.CFG_DONE x
    t.cfg = s.fullEnded.cfg ∧ t.pins = s.fullEnded.pins ∧ t.releases = s.fullEnded.releases ∧
    (∀ f : Fld, f.reg = .CFG_STATUS → t.get (atDie .e0) f = s.fullEnded.get (atDie .e0) f) ∧
    s.keepsRegs (.CFG_STATUS :: .SCR_STATUS :: eventRegs) t := by
  obtain ⟨hregs, hcfg, hpins, hreleases⟩ := scrubsMeet_scrubsOnly s.fullEnded
  have hraised := State.raise_raised s.fullEnded.scrubsMeet .e0 (loc := Ev.CFG_DONE) x (by decide)
  refine ⟨(Raised.cfg_eq hraised).trans hcfg, (Raised.pins_eq hraised).trans hpins, (Raised.releases_eq hraised).trans hreleases,
    fun f hf => ?_, ?_⟩
  · rw [State.raise_get _ _ _ (by decide) (by rw [hf]; decide) (atDie_code .e0),
      State.get_of_keepsRegs hregs (atDie_code .e0) (by rw [hf]; decide)]
  · exact keeps_raise (by decide) (by decide)
      (keeps_trans (keeps_of_subset (by decide) (fullEnded_keeps s)) (keeps_of_subset (by decide) hregs))

/-- Settles O20, clause by clause: the steps of a flash load, the abort and the blanking, and the stages of a release by their equations;
the end of a full load by `fullEnded_kept`. -/
theorem loadStepCommandsRun : Obligations.LoadStepCommandsRun := by
  unfold Obligations.LoadStepCommandsRun
  refine ⟨?header, ?preparedDown, ?prepared, ?setup, ?rereadSame, ?rereadOther, ?reread, ?holdOnly, ?abortLate, ?abort, ?blanked,
    ?blankWaits, ?bramCleared, ?outputs, ?writes, ?resetsPower, ?done, ?outputsIdle, ?writesIdle, ?resetsIdle⟩
  case header =>
    intro header s hphase hflash
    exact exec_flashHeaderRead_flash hphase hflash header
  case preparedDown =>
    intro s hphase hdown
    exact exec_loadPreparationDone_ready hphase fun d _ => .inl (hdown d)
  case prepared =>
    intro s hphase hshut
    exact exec_loadPreparationDone_ready hphase fun d p => .inr (hshut d p)
  case setup =>
    intro s hphase hleft
    have hexec := exec_flashSetupRecord_next hphase hleft
    exact ⟨_, hexec, rfl, rfl, State.keepsRegs_of_regs rfl _, keepsMem_of_exec rfl hexec⟩
  case rereadSame =>
    intro header s hphase hdone hsame
    exact ⟨_, exec_flashHeaderReread_same hphase hdone hsame, headerSame_cfg s, State.flag_of_get (headerSame_octal s),
      headerSame_stage s, headerSame_keeps s, fun _ => rfl⟩
  case rereadOther =>
    intro header s hphase hdone hother
    exact exec_flashHeaderReread_other hphase hdone hother
  case reread =>
    intro p d f s hphase hagain hplace
    exact exec_frameReread_again hphase hagain hplace p
  case holdOnly =>
    intro die hold s hnone
    exact ⟨_, congrArg Host.Outcome.next (loadAbort_noLoad (s := s.holdPut die.die hold) hnone die.die), holdPut_hold s _ hold,
      holdPut_keeps s _ hold, fun _ => rfl⟩
  case abortLate =>
    intro die hold s hpartial hdie hphase hlate
    exact ⟨_, exec_partialLoadAbort_late ⟨hpartial, hdie, hphase⟩ hlate hold,
      State.flag_of_get (State.get_put_self _ _ .PRC_LOAD_STAT_ABORT_LATE 1 (by decide)), rfl,
      keeps_put (by decide) (atDie_code _) (keeps_of_subset (by decide) (holdPut_keeps s _ hold)), fun _ => rfl⟩
  case abort =>
    intro die hold s hpartial hdie hphase hearly
    exact exec_partialLoadAbort_early ⟨hpartial, hdie, hphase⟩ hearly hold
  case blanked =>
    intro s hready
    exact exec_blankingDone_ready hready
  case blankWaits =>
    intro s hwaits
    exact exec_blankingDone_waits hwaits
  case bramCleared =>
    intro die p s hstep htarget hphase
    exact ⟨_, exec_parcelBramCleared_own hstep htarget hphase, powerStep_setPowerStep_self _ _ _ (by decide),
      keeps_same (bramZero_keeps s die.die p) rfl, State.keepsMem_of_held (State.setPowerStep_held (State.bramZero_held rfl))⟩
  case outputs =>
    intro k s hat
    exact exec_releaseStageOutputs_at hat
  case writes =>
    intro k s hat
    exact exec_releaseStageWriteEnables_at hat
  case resetsPower =>
    intro d p s hat
    exact exec_releaseStageResets_power hat
  case done =>
    intro s hat
    obtain ⟨x, hexec⟩ := exec_cfgDone_at hat
    obtain ⟨hcfg, hpins, hreleases, hstatus, hkeeps⟩ := fullEnded_kept s x
    obtain ⟨hcode, hbusy⟩ := fullEnded_status s
    have hreleased := releaseAt_of_releases (hreleases.trans (fullEnded_releases s)) .full 4
    exact ⟨_, hexec, congrArg Pins.cfgDone hpins, congrArg CfgMaster.phase hcfg, (hstatus _ rfl).trans hcode,
      (hstatus _ rfl).trans hbusy, hreleased.trans (releaseEnd_releaseAt s .full 4), hkeeps, keepsMem_of_exec rfl hexec⟩
  case outputsIdle =>
    intro k s hidle
    exact exec_releaseStageOutputs_idle hidle
  case writesIdle =>
    intro k s hidle
    exact exec_releaseStageWriteEnables_idle hidle
  case resetsIdle =>
    intro k s hidle
    exact exec_releaseStageResets_idle hidle

end Sys2Proof.Machine
end

section
/-! SYND of a frame (R245): the exclusive-or over the set bits, bit by bit, and what one flipped bit of the data makes of it. -/

namespace Sys2Proof.Machine

/-! ### The exclusive-or over chosen bits -/

/-- The exclusive-or of what each chosen index of a list adds to SYND: its number in bits 11 to 0, and bit 12. -/
def syndXor (p : Nat → Bool) : List Nat → Nat
  | [] => 0
  | i :: l => (bif p i then 4096 + i else 0) ^^^ syndXor p l

theorem foldl_synd (p : Nat → Bool) (l : List Nat) (y : Nat) :
    l.foldl (fun y i => if p i then y ^^^ (4096 + i) else y) y = y ^^^ syndXor p l := by
  induction l generalizing y with
  | nil => exact (Nat.xor_zero y).symm
  | cons i l ih =>
    rw [List.foldl_cons, ih, syndXor, ← Nat.xor_assoc]
    cases p i
    · exact congrArg (· ^^^ syndXor p l) (Nat.xor_zero y).symm
    · rfl

theorem syndOf_eq_syndXor (data : BitVec 4096) : syndOf data = syndXor data.getLsbD (List.range 4096) :=
  (foldl_synd data.getLsbD (List.range 4096) 0).trans (Nat.zero_xor _)

/-- A bit of the exclusive-or is the parity of the chosen indices that have it. -/
theorem syndXor_testBit (p : Nat → Bool) (k : Nat) (l : List Nat) : (syndXor p l).testBit k =
    decide ((l.filter fun i => p i && (4096 + i).testBit k).length % 2 = 1) := by
  induction l with
  | nil => exact Nat.zero_testBit k
  | cons i l ih =>
    have hhead : (bif p i then 4096 + i else 0).testBit k = (p i && (4096 + i).testBit k) := by cases p i <;> simp
    rw [syndXor, Nat.testBit_xor, ih, hhead, List.filter_cons]
    cases p i && (4096 + i).testBit k with
    | false => exact Bool.false_xor _
    | true =>
      rw [if_pos rfl, List.length_cons, Bool.true_xor, ← decide_not]
      exact decide_eq_decide.2 (by omega)

theorem syndXor_lt {p : Nat → Bool} {l : List Nat} (hl : ∀ i ∈ l, i < 4096) : syndXor p l < 2 ^ 13 := by
  induction l with
  | nil => exact Nat.two_pow_pos 13
  | cons i l ih =>
    have hi := hl i List.mem_cons_self
    refine Nat.xor_lt_two_pow ?_ (ih fun j hj => hl j (List.mem_cons_of_mem _ hj))
    cases p i
    · exact Nat.two_pow_pos 13
    · change 4096 + i < 8192
      omega

theorem syndXor_xor (p q : Nat → Bool) (l : List Nat) : syndXor p l ^^^ syndXor q l = syndXor (fun i => p i ^^ q i) l := by
  refine Nat.eq_of_testBit_eq fun k => ?_
  induction l with
  | nil => simp [syndXor]
  | cons i l ih =>
    rw [Nat.testBit_xor] at ih ⊢
    simp only [syndXor, Nat.testBit_xor, ← ih]
    cases p i <;> cases q i <;> simp [Bool.xor_left_comm]

theorem syndXor_congr {p q : Nat → Bool} {l : List Nat} (h : ∀ i ∈ l, p i = q i) : syndXor p l = syndXor q l := by
  induction l with
  | nil => rfl
  | cons i l ih => rw [syndXor, syndXor, h i List.mem_cons_self, ih fun j hj => h j (List.mem_cons_of_mem _ hj)]

theorem syndXor_none {p : Nat → Bool} {l : List Nat} (h : ∀ i ∈ l, p i = false) : syndXor p l = 0 := by
  induction l with
  | nil => rfl
  | cons i l ih =>
    rw [syndXor, h i List.mem_cons_self, ih fun j hj => h j (List.mem_cons_of_mem _ hj), cond_false, Nat.xor_zero]

theorem syndXor_one {i : Nat} {l : List Nat} (hl : l.Nodup) (hi : i ∈ l) : syndXor (fun j => j == i) l = 4096 + i := by
  induction l with
  | nil => exact absurd hi List.not_mem_nil
  | cons j l ih =>
    obtain ⟨hj, hnodup⟩ := List.nodup_cons.1 hl
    by_cases hji : j = i
    · subst hji
      have hrest : syndXor (fun k => k == j) l = 0 := syndXor_none fun k hk => beq_false_of_ne fun hkj => hj (hkj ▸ hk)
      simp [syndXor, hrest]
    · have hmem : i ∈ l := (List.mem_cons.1 hi).resolve_left (Ne.symm hji)
      simp [syndXor, beq_false_of_ne hji, ih hnodup hmem]

/-! ### One flipped bit -/

theorem getLsbD_flip (data : BitVec 4096) {i j : Nat} (hj : j < 4096) :
    (data ^^^ (1#4096 <<< i)).getLsbD j = (data.getLsbD j ^^ (j == i)) := by
  have hflip : (decide (i < 4096) && decide (i = j)) = (j == i) := by grind
  rw [BitVec.getLsbD_xor, ← BitVec.twoPow_eq, BitVec.getLsbD_twoPow, hflip]

theorem syndOf_flip_xor (data : BitVec 4096) {i : Nat} (hi : i < 4096) :
    syndOf (data ^^^ (1#4096 <<< i)) ^^^ syndOf data = 4096 + i := by
  have hbits : ∀ j ∈ List.range 4096, ((data ^^^ (1#4096 <<< i)).getLsbD j ^^ data.getLsbD j) = (j == i) := fun j hj => by
    rw [getLsbD_flip data (List.mem_range.1 hj), Bool.xor_comm, ← Bool.xor_assoc, Bool.xor_self, Bool.false_xor]
  rw [syndOf_eq_syndXor, syndOf_eq_syndXor, syndXor_xor, syndXor_congr hbits,
    syndXor_one List.nodup_range (List.mem_range.2 hi)]

/-- Settles O57: SYND is an exclusive-or over the set bits (`syndOf_eq_syndXor`), each of its bits is a parity (`syndXor_testBit`), and
the exclusive-or of the old and the new one after a flip is that over the flipped bit alone (`syndOf_flip_xor`). -/
theorem syndromeNamesTheFlippedBit : Obligations.SyndromeNamesTheFlippedBit := by
  unfold Obligations.SyndromeNamesTheFlippedBit
  intro data
  refine ⟨fun k hk => ?_, ?_, ?_, fun i hi => syndOf_flip_xor data hi⟩
  · have hcode (i : Nat) : (4096 + i).testBit k = i.testBit k := Nat.testBit_two_pow_add_gt (i := 12) hk i
    simp only [syndOf_eq_syndXor, syndXor_testBit, hcode]
  · have hcode : ∀ i ∈ List.range 4096, (data.getLsbD i && (4096 + i).testBit 12) = data.getLsbD i := fun i hi => by
      have hlow : i.testBit 12 = false := Nat.testBit_lt_two_pow (List.mem_range.1 hi)
      rw [Nat.testBit_two_pow_add_eq i 12, hlow, Bool.not_false, Bool.and_true]
    rw [syndOf_eq_syndXor, syndXor_testBit, List.filter_congr hcode]
  · rw [syndOf_eq_syndXor]
    exact syndXor_lt fun i hi => List.mem_range.1 hi

end Sys2Proof.Machine
end

section
/-! The scrubbers, their repairs, and the upsets they meet (R246 to R262): what each command leaves of the scrubber, the frames and the
registers. -/

namespace Sys2Proof.Machine

/-! ### The scrubber of a die and what SCR_STATUS shows (R252 to R254) -/

@[simp] theorem setScrub_scrub_self (s : State) (d : Die) (c : Scrub) : (s.setScrub d c).scrub d = c := Tbl.get_set_self ..

theorem setScrub_keeps (s : State) (d : Die) (c : Scrub) : s.keepsRegs [.SCR_STATUS] (s.setScrub d c) :=
  (setScrub_scrubsOnly s d c).1

@[simp] theorem setScrub_scrCopy (s : State) (d : Die) (c : Scrub) : (s.setScrub d c).scrCopy = s.scrCopy := rfl

theorem setScrub_sent (s : State) (d : Die) (c : Scrub) : (s.setScrub d c).sent = s.sent := puts_sent ..

theorem put_scrub (s : State) (a : At) (f : Fld) (v : Nat) (d : Die) : (s.put a f v).scrub d = s.scrub d := rfl

theorem emit_scrub (s : State) (e : Emit) (d : Die) : (s.emit e).scrub d = s.scrub d := rfl

theorem emit_sent (s : State) (e : Emit) : (s.emit e).sent = e :: s.sent := rfl

theorem emit_regs (s : State) (e : Emit) : (s.emit e).regs = s.regs := rfl

theorem lapStart_scrub (s : State) (d : Die) (mode cause : Nat) :
    (s.lapStart d mode cause).scrub d = { s.scrub d with mode := mode, cause := cause } := by
  rw [State.lapStart, put_scrub, setScrub_scrub_self]

theorem lapStart_frame (s : State) (d : Die) (mode cause : Nat) : (s.lapStart d mode cause).get (atDie d) .SCR_STATUS_FRAME = 0 :=
  State.get_put_self _ _ .SCR_STATUS_FRAME 0 (by decide)

theorem lapStart_keeps (s : State) (d : Die) (mode cause : Nat) : s.keepsRegs [.SCR_STATUS] (s.lapStart d mode cause) :=
  keeps_put (by decide) (atDie_code d) (setScrub_keeps s d _)

theorem scrubSync_keeps (s : State) (d : Die) : s.keepsRegs [.SCR_STATUS] (s.scrubSync d) := (scrubSync_scrubsOnly s d).1

theorem scrubSync_scrCopy (s : State) (d : Die) : (s.scrubSync d).scrCopy = s.scrCopy := by
  simp only [State.scrubSync, apply_ite State.scrCopy, setScrub_scrCopy, ite_self]

theorem scrubFresh_keeps (s : State) (d : Die) : s.keepsRegs [.SCR_STATUS] (s.scrubFresh d) :=
  keeps_trans (lapStart_keeps s d 0 0) (scrubSync_keeps _ d)

/-! ### A lap goes on, and priority laps (R247, R248, R253, R254) -/

theorem exec_scrubFrameCheck_clean {d : Die} {n : Nat} {s : State} (hmode : (s.scrub d).mode ≠ 0) (hruns : (s.scrub d).paused = false)
    (hclean : clean d (s.get (atDie d) .SCR_STATUS_FRAME) (s.frame d (s.get (atDie d) .SCR_STATUS_FRAME)) = true)
    (hnext : nextFrame d (s.get (atDie d) .SCR_STATUS_FRAME) = some n) (lap : BitVec 32) :
    exec (.scrubFrameCheck d lap) s = .next (s.put (atDie d) .SCR_STATUS_FRAME n) := by
  change execScrubFrameCheck d lap s = _
  simp only [execScrubFrameCheck, State.checkFrame, hmode, hruns, hclean, hnext, decide_false, Bool.or_self, Bool.false_eq_true, if_false,
    if_true]

theorem exec_scrubFrameCheck_idle {d : Die} {s : State} (h : (s.scrub d).mode = 0 ∨ (s.scrub d).paused = true) (lap : BitVec 32) :
    exec (.scrubFrameCheck d lap) s = .next s := congrArg Host.Outcome.next (if_pos (by simpa using h))

theorem exec_prioLap_starts {d : Die} {s : State} (hmode : (s.scrub d).mode = 1) (hruns : (s.scrub d).paused = false)
    (hmay : s.scrubMay d = true) : exec (.prioLap d) s = .next (s.lapStart d 2 2) := by
  change Host.Outcome.next (s.priorityRequest d 2) = _
  simp [State.priorityRequest, hmode, hruns, hmay]

theorem exec_prioLap_waits {d : Die} {s : State} (hmode : (s.scrub d).mode = 1) (hpaused : (s.scrub d).paused = true)
    (hmay : s.scrubMay d = true) : exec (.prioLap d) s = .next (s.setScrub d { s.scrub d with waiting := some 2 }) := by
  change Host.Outcome.next (s.priorityRequest d 2) = _
  simp [State.priorityRequest, hmode, hpaused, hmay]

/-! ### SCR_CTRL.EN (R252, R261) -/

/-- After the write of its setting a scrubber changes SCR_STATUS alone. -/
theorem scrubEnable_keeps_written (s : State) (d : Die) (v : Word) :
    (s.writeSetting d 0 v).keepsRegs [.SCR_STATUS] (s.scrubEnable d v) := by
  unfold State.scrubEnable
  dsimp only
  split
  · exact scrubFresh_keeps _ d
  · exact scrubSync_keeps _ d

theorem writeSetting_enable_keeps (s : State) (d : Die) (v : Word) : s.keepsRegs [.SCR_CTRL] (s.writeSetting d 0 v) :=
  keeps_writeReg (by decide) (atDie_code d) (State.keepsRegs_of_regs rfl _)

theorem writeSetting_enable_reg (s : State) (d : Die) (v : Word) :
    (s.writeSetting d 0 v).reg (atDie d) .SCR_CTRL = Reg.written .SCR_CTRL (s.reg (atDie d) .SCR_CTRL) v := State.reg_setReg_self ..

theorem scrubEnable_reg (s : State) (d : Die) (v : Word) :
    (s.scrubEnable d v).reg (atDie d) .SCR_CTRL = Reg.written .SCR_CTRL (s.reg (atDie d) .SCR_CTRL) v :=
  (scrubEnable_keeps_written s d v _ .SCR_CTRL (atDie_code d) (by decide)).trans (writeSetting_enable_reg s d v)

theorem scrubEnable_keeps (s : State) (d : Die) (v : Word) : s.keepsRegs [.SCR_CTRL, .SCR_STATUS] (s.scrubEnable d v) :=
  keeps_trans (keeps_of_subset (by decide) (writeSetting_enable_keeps s d v))
    (keeps_of_subset (by decide) (scrubEnable_keeps_written s d v))

/-! ### Repairs (R258, R259) -/

/-- The header in the flash is that of the image in force: the master reads the packet. -/
theorem exec_repairHeaderRead_same {die : FDie} {header : BitVec 2048} {r : Repair} {s : State}
    (hopen : (s.scrub die.die).repair = some r) (hstep : r.step = 2) (hfree : s.flag (atDie .e0) .MGT_STAT_CAL_BUSY = false)
    (hsame : imageIdentity (bytesLE header.toNat 256) = imageIdentity s.cfg.inForce) : exec (.repairHeaderRead die header) s =
      .next ((s.setScrub die.die { s.scrub die.die with repair := some { r with step := 4 } }).emit
        (.flashRead (s.packetAt die.die r.frame) 528)) := by
  change execRepairHeaderRead die header s = _
  simp only [execRepairHeaderRead, hopen, hstep, hfree, hsame, ne_eq, not_true_eq_false, Bool.false_eq_true, or_self, if_false, if_true]

theorem exec_repairHeaderRead_other {die : FDie} {header : BitVec 2048} {r : Repair} {s : State}
    (hopen : (s.scrub die.die).repair = some r) (hstep : r.step = 2) (hfree : s.flag (atDie .e0) .MGT_STAT_CAL_BUSY = false)
    (hother : imageIdentity (bytesLE header.toNat 256) ≠ imageIdentity s.cfg.inForce) :
    exec (.repairHeaderRead die header) s = .next (s.repairFail die.die r 3) := by
  change execRepairHeaderRead die header s = _
  simp only [execRepairHeaderRead, hopen, hstep, hfree, hother, ne_eq, not_true_eq_false, Bool.false_eq_true, or_self, if_false]

/-- A program or erase of the flash holds the fetch back. -/
theorem exec_repairHeaderRead_busy {s : State} (hbusy : s.flag (atDie .e0) .MGT_STAT_CAL_BUSY = true) (die : FDie)
    (header : BitVec 2048) : exec (.repairHeaderRead die header) s = .next s := by
  change execRepairHeaderRead die header s = _
  cases hopen : (s.scrub die.die).repair with
  | none => simp only [execRepairHeaderRead, hopen]
  | some r => simp only [execRepairHeaderRead, hopen, hbusy, or_true, if_true]

theorem exec_repairPacketRead_passes {die : FDie} {p : Packet} {r : Repair} {s : State} (hopen : (s.scrub die.die).repair = some r)
    (hstep : r.step = 4) (haddr : p.addr.toNat = frameAddr die.die r.frame) (hcrc : packetCrcOk p = true) (hsynd : packetSyndOk p = true) :
    exec (.repairPacketRead die p) s =
      .next (s.setScrub die.die { s.scrub die.die with repair := some { r with step := 5, packet := packetFrame p } }) := by
  change execRepairPacketRead die p s = _
  simp only [execRepairPacketRead, hopen, hstep, haddr, hcrc, hsynd, ne_eq, not_true_eq_false, and_self, if_false, if_true]

theorem exec_repairPacketRead_fails {die : FDie} {p : Packet} {r : Repair} {s : State} (hopen : (s.scrub die.die).repair = some r)
    (hstep : r.step = 4) (hbad : p.addr.toNat ≠ frameAddr die.die r.frame ∨ packetCrcOk p = false ∨ packetSyndOk p = false) :
    exec (.repairPacketRead die p) s = .next (s.repairFail die.die r 4) := by
  have hnot : ¬(p.addr.toNat = frameAddr die.die r.frame ∧ packetCrcOk p = true ∧ packetSyndOk p = true) := by
    rintro ⟨haddr, hcrc, hsynd⟩
    simp [haddr, hcrc, hsynd] at hbad
  change execRepairPacketRead die p s = _
  simp only [execRepairPacketRead, hopen, hstep, hnot, ne_eq, not_true_eq_false, if_false]

/-- A repair's frame stands written, its packet put in place of what the frame held. -/
def State.repairWritten (s : State) (d : Die) (r : Repair) : State := s.writeFrame d r.frame (some (s.frame d r.frame).data) r.packet

/-- The state in which a repair has ended, before it is counted and reported. -/
def State.repairEnded (s : State) (d : Die) : State := s.setScrub d { s.scrub d with repair := none }

theorem exec_repairFrameWritten_clean {die : FDie} {r : Repair} {s : State} (hopen : (s.scrub die.die).repair = some r)
    (hstep : r.step = 5) (hclean : clean die.die r.frame ((s.repairWritten die.die r).frame die.die r.frame) = true) :
    exec (.repairFrameWritten die) s =
      .next ((((s.repairWritten die.die r).repairEnded die.die).bump (atDie die.die) .SCR_REPAIR_CNT_REPAIRED 1).raise die.die
        Ev.SCR_REPAIRED (frameAddr die.die r.frame)) := by
  change execRepairFrameWritten die s = _
  simp only [execRepairFrameWritten, hopen, hstep, ne_eq, not_true_eq_false, if_false]
  exact congrArg Host.Outcome.next (if_pos hclean)

theorem exec_repairFrameWritten_bad {die : FDie} {r : Repair} {s : State} (hopen : (s.scrub die.die).repair = some r)
    (hstep : r.step = 5) (hbad : clean die.die r.frame ((s.repairWritten die.die r).frame die.die r.frame) = false) :
    exec (.repairFrameWritten die) s = .next ((s.repairWritten die.die r).repairFail die.die r 6) := by
  change execRepairFrameWritten die s = _
  simp only [execRepairFrameWritten, hopen, hstep, ne_eq, not_true_eq_false, if_false]
  exact congrArg Host.Outcome.next (if_neg (ne_true_of_eq_false hbad))

/-- The count and the report of a repair leave the scrubber as it was. -/
theorem repaired_scrub (s : State) (d : Die) (data : Nat) :
    ((s.bump (atDie d) .SCR_REPAIR_CNT_REPAIRED 1).raise d Ev.SCR_REPAIRED data).scrub d = s.scrub d := by
  rw [State.scrub, Raised.scrubs_eq (State.raise_raised _ _ _ (by decide))]
  rfl

theorem exec_repairTimeout_late {die : FDie} {r : Repair} {s : State} (hopen : (s.scrub die.die).repair = some r) (hstep : r.step ≠ 5) :
    exec (.repairTimeout die) s = .next (s.repairFail die.die r 7) := by
  change execRepairTimeout die s = _
  simp only [execRepairTimeout, hopen, hstep, if_false]

theorem exec_repairTimeout_writing {die : FDie} {r : Repair} {s : State} (hopen : (s.scrub die.die).repair = some r)
    (hstep : r.step = 5) : exec (.repairTimeout die) s = .next s := by
  change execRepairTimeout die s = _
  simp only [execRepairTimeout, hopen, hstep, if_true]

theorem exec_repairTimeout_none {die : FDie} {s : State} (hnone : (s.scrub die.die).repair = none) :
    exec (.repairTimeout die) s = .next s := by
  change execRepairTimeout die s = _
  simp only [execRepairTimeout, hnone]

/-! ### What a frame sets is not a frame (R246, R247) -/

theorem foldl_frames {α : Type} {f : State → α → State} (hf : ∀ t a, (f t a).frames = t.frames) (l : List α) (s : State) :
    (l.foldl f s).frames = s.frames :=
  List.foldlRecOn (motive := fun t => t.frames = s.frames) l f rfl fun t ht a _ => (hf t a).trans ht

theorem setCluster_frames (s : State) (d : Die) (n : Nat) (c : Config.ClusterCfg) : (s.setCluster d n c).frames = s.frames := by
  unfold State.setCluster
  dsimp only
  split <;> rfl

theorem setCodes_frames (s : State) (d : Die) (p : Nat) (l : List (Config.Node × Nat)) : (s.setCodes d p l).frames = s.frames := by
  unfold State.setCodes
  dsimp only
  split <;> rfl

theorem imageReg_frames (s : State) (d : Die) (was : Option (List (Nat × Word))) (now : List (Nat × Word)) (key : Nat) :
    (s.imageReg d was now key).frames = s.frames := by
  unfold State.imageReg
  split
  · rfl
  · dsimp only
    split <;> rfl

theorem imageRegs_frames (s : State) (d : Die) (f : Nat) (was : Option (BitVec 4096)) (data : BitVec 4096) :
    (s.imageRegs d f was data).frames = s.frames := foldl_frames (fun t _ => imageReg_frames t ..) _ s

theorem applyRouting_frames (s : State) (d : Die) (f : Nat) (was : Option (BitVec 4096)) (data : BitVec 4096) :
    (s.applyRouting d f was data).frames = s.frames := by
  unfold State.applyRouting
  refine (setCodes_frames ..).trans ?_
  iterate 7 refine (foldl_frames (by exact fun _ _ => rfl) _ _).trans ?_
  rfl

theorem applyFrame_frames (s : State) (d : Die) (f : Nat) (was : Option (BitVec 4096)) (data : BitVec 4096) :
    (s.applyFrame d f was data).frames = s.frames := by
  unfold State.applyFrame
  refine (imageRegs_frames ..).trans ?_
  split
  · refine (applyRouting_frames ..).trans ?_
    iterate 3 refine (foldl_frames (by exact fun _ _ => rfl) _ _).trans ?_
    exact foldl_frames (fun t _ => setCluster_frames t ..) _ s
  · exact (setCodes_frames ..).trans (foldl_frames (by exact fun _ _ => rfl) _ s)

/-! ### Upsets (R246, R261) -/

theorem frame_of_frames {s t : State} (h : t.frames = s.frames) (d : Die) (f : Nat) : t.frame d f = s.frame d f := by
  rw [State.frame, h, State.frame]

/-- The state in which a frame holds what is given, and nothing else has changed. -/
def State.putFrame (s : State) (d : Die) (f : Nat) (fr : Frame) : State := s.setFrames (Tbl.set s.frames (frameKey d f) fr)

theorem putFrame_frame (s : State) (d : Die) (f : Nat) (fr : Frame) : (s.putFrame d f fr).frame d f = fr := Tbl.get_set_self ..

/-- An upset of SYND or of the CRC leaves the frame's data. -/
theorem exec_configurationUpset_codes {d : Die} {f : BitVec 16} {bit : Fin 4144} (hf : f.toNat < dieFrames d) (hbit : 4096 ≤ bit.val)
    (s : State) : ∃ fr : Frame, fr.data = (s.frame d f.toNat).data ∧
      exec (.configurationUpset (.frame d f bit)) s = .next (s.putFrame d f.toNat fr) := by
  have hexec : exec (.configurationUpset (.frame d f bit)) s = .next (if bit.val < 4112 then
        s.putFrame d f.toNat { s.frame d f.toNat with synd := (s.frame d f.toNat).synd ^^^ 2 ^ (bit.val - 4096) }
      else s.putFrame d f.toNat { s.frame d f.toNat with crc := (s.frame d f.toNat).crc ^^^ 2 ^ (bit.val - 4112) }) := by
    change execConfigurationUpset (.frame d f bit) s = _
    simp only [execConfigurationUpset, Nat.not_le.2 hf, Nat.not_lt.2 hbit, if_false]
    rfl
  split at hexec
  · refine ⟨_, ?_, hexec⟩
    rfl
  · refine ⟨_, ?_, hexec⟩
    rfl

theorem exec_configurationUpset_data {d : Die} {f : BitVec 16} {bit : Fin 4144} (hf : f.toNat < dieFrames d) (hbit : bit.val < 4096)
    (hcfg : isContent d f.toNat = false) (s : State) : exec (.configurationUpset (.frame d f bit)) s =
      .next (let data := (s.frame d f.toNat).data ^^^ BitVec.ofNat 4096 (2 ^ bit.val)
        (s.putFrame d f.toNat { s.frame d f.toNat with data := data }).applyFrame d f.toNat (some (s.frame d f.toNat).data) data) := by
  change execConfigurationUpset (.frame d f bit) s = _
  simp only [execConfigurationUpset, Nat.not_le.2 hf, hbit, hcfg, Bool.false_eq_true, if_false, if_true]
  rfl

/-- The data of a content frame stands in the block RAM. -/
theorem exec_configurationUpset_content {d : Die} {f : BitVec 16} {bit : Fin 4144} (hf : f.toNat < dieFrames d) (hbit : bit.val < 4096)
    (hcontent : isContent d f.toNat = true) (s : State) : exec (.configurationUpset (.frame d f bit)) s =
      .next (s.bitError d 0 ((contentPlace f.toNat).1 * 1024 + (contentPlace f.toNat).2 + bit.val / 32) (bit.val % 32)) := by
  change execConfigurationUpset (.frame d f bit) s = _
  simp only [execConfigurationUpset, Nat.not_le.2 hf, hbit, hcontent, if_false, if_true]

/-- The copies of a setting, one of them with one bit flipped. -/
def flippedCopies (l : List Word) (copy : Fin 3) (bit : Fin 32) : List Word :=
  l.mapIdx fun i w => if i = copy.val then w ^^^ BitVec.ofNat 32 (2 ^ bit.val) else w

/-- The state in which one bit of one copy of a setting has flipped, before the scrubber acts on it. -/
def State.copyUpset (s : State) (d : Die) (k copy : Fin 3) (bit : Fin 32) : State :=
  s.setScrCopy (Tbl.set s.scrCopy (d.idx * 3 + k.val) (flippedCopies (s.copies d k) copy bit))

theorem exec_configurationUpset_setting (d : Die) (k copy : Fin 3) (bit : Fin 32) (s : State) :
    exec (.configurationUpset (.setting d k copy bit)) s = .next ((s.copyUpset d k copy bit).scrubSync d) := rfl

theorem copyUpset_copies (s : State) (d : Die) (k copy : Fin 3) (bit : Fin 32) :
    ((s.copyUpset d k copy bit).scrubSync d).copies d k = flippedCopies (s.copies d k) copy bit := by
  rw [State.copies, scrubSync_scrCopy]
  exact Tbl.get_set_self ..

theorem copyUpset_keeps (s : State) (d : Die) (k copy : Fin 3) (bit : Fin 32) :
    s.keepsRegs [.SCR_STATUS] ((s.copyUpset d k copy bit).scrubSync d) :=
  keeps_trans (State.keepsRegs_of_regs rfl _) (scrubSync_keeps _ d)

/-- Two copies outvote the third. -/
theorem majority_flippedCopies (copy : Fin 3) (bit : Fin 32) : majority (flippedCopies [0, 0, 0] copy bit) = 0 := by
  match copy with
  | 0 | 1 | 2 => simp [flippedCopies, majority]

theorem tripled_ne_status (k : Nat) : tripled k ∉ [Reg.SCR_STATUS] := by
  unfold tripled
  split
  · decide
  · split <;> decide

/-- Settles O22, clause by clause: laps and their frames, priority laps, SCR_CTRL, the steps of a repair, and the upsets of a frame and of
a setting's copies. -/
theorem scrubCommandsRun : Obligations.ScrubCommandsRun := by
  unfold Obligations.ScrubCommandsRun
  refine ⟨?frameClean, ?frameIdle, ?prioStarts, ?prioWaits, ?enable, ?headerSame, ?headerOther, ?headerBusy, ?packetPasses, ?packetFails,
    ?repaired, ?notRepaired, ?late, ?lateWriting, ?lateNone, ?upsetCodes, ?upsetData, ?upsetContent, ?upsetSetting⟩
  case frameClean =>
    intro d lap n s hmode hruns hclean hnext hn
    exact ⟨_, exec_scrubFrameCheck_clean hmode hruns hclean hnext lap,
      (State.get_put_self s _ .SCR_STATUS_FRAME n (by decide)).trans (Nat.mod_eq_of_lt hn), rfl,
      keeps_put (by decide) (atDie_code d) (keeps_refl _ s), fun _ => rfl⟩
  case frameIdle =>
    intro d lap s hidle
    exact exec_scrubFrameCheck_idle hidle lap
  case prioStarts =>
    intro d s hmode hruns hmay
    have hexec := exec_prioLap_starts hmode hruns hmay
    exact ⟨_, hexec, congrArg Scrub.mode (lapStart_scrub s d 2 2), congrArg Scrub.cause (lapStart_scrub s d 2 2), lapStart_frame s d 2 2,
      lapStart_keeps s d 2 2, keepsMem_of_exec rfl hexec⟩
  case prioWaits =>
    intro d s hmode hpaused hmay
    have hexec := exec_prioLap_waits hmode hpaused hmay
    exact ⟨_, hexec, congrArg Scrub.waiting (setScrub_scrub_self s d _), setScrub_keeps s d _, keepsMem_of_exec rfl hexec⟩
  case enable =>
    intro d en s
    have hexec : exec (.scrubberEnable d en) s = .next (s.scrubEnable d (BitVec.ofNat 32 (natOf en))) := rfl
    exact ⟨_, hexec, scrubEnable_reg s d _, scrubEnable_keeps s d _, keepsMem_of_exec rfl hexec⟩
  case headerSame =>
    intro die header r s hopen hstep hfree hsame
    have hexec := exec_repairHeaderRead_same hopen hstep hfree hsame
    refine ⟨_, hexec, ?_, ?_, keeps_same (setScrub_keeps s die.die _) (emit_regs ..), keepsMem_of_exec rfl hexec⟩
    · rw [emit_scrub, setScrub_scrub_self]
    · rw [emit_sent, setScrub_sent]
  case headerOther =>
    intro die header r s hopen hstep hfree hother
    exact exec_repairHeaderRead_other hopen hstep hfree hother
  case headerBusy =>
    intro die header s hbusy
    exact exec_repairHeaderRead_busy hbusy die header
  case packetPasses =>
    intro die p r s hopen hstep haddr hcrc hsynd
    have hexec := exec_repairPacketRead_passes hopen hstep haddr hcrc hsynd
    exact ⟨_, hexec, congrArg Scrub.repair (setScrub_scrub_self s die.die _), setScrub_keeps s die.die _, keepsMem_of_exec rfl hexec⟩
  case packetFails =>
    intro die p r s hopen hstep hbad
    exact exec_repairPacketRead_fails hopen hstep hbad
  case repaired =>
    rintro die r s _ hopen hstep rfl hclean
    refine ⟨_, exec_repairFrameWritten_clean hopen hstep hclean, ?_, rfl⟩
    rw [repaired_scrub, State.repairEnded, setScrub_scrub_self]
  case notRepaired =>
    rintro die r s _ hopen hstep rfl hbad
    exact exec_repairFrameWritten_bad hopen hstep hbad
  case late =>
    intro die r s hopen hstep
    exact exec_repairTimeout_late hopen hstep
  case lateWriting =>
    intro die r s hopen hstep
    exact exec_repairTimeout_writing hopen hstep
  case lateNone =>
    intro die s hnone
    exact exec_repairTimeout_none hnone
  case upsetCodes =>
    intro d f bit s hf hbit
    obtain ⟨fr, hdata, hexec⟩ := exec_configurationUpset_codes hf hbit s
    exact ⟨_, hexec, (congrArg Frame.data (putFrame_frame s d f.toNat fr)).trans hdata, State.keepsRegs_of_regs rfl _, fun _ => rfl⟩
  case upsetData =>
    intro d f bit s hf hbit hcfg
    refine ⟨_, exec_configurationUpset_data hf hbit hcfg s, ?_, State.keepsMem_of_held (State.applyFrame_held rfl)⟩
    rw [frame_of_frames (applyFrame_frames ..), putFrame_frame]
  case upsetContent =>
    intro d f bit s hf hbit hcontent
    exact exec_configurationUpset_content hf hbit hcontent s
  case upsetSetting =>
    intro d k copy bit s hcopies
    refine ⟨_, exec_configurationUpset_setting d k copy bit s, ?_, copyUpset_keeps s d k copy bit,
      State.keepsMem_of_held (State.scrubSync_held rfl)⟩
    rw [State.setting, State.setting, copyUpset_copies, hcopies, majority_flippedCopies,
      copyUpset_keeps s d k copy bit _ _ (atDie_code d) (tripled_ne_status k)]
    rfl

end Sys2Proof.Machine
end

section
/-! The system watchdog (R313 to R315, R325): what a reload, a freeze and an expiry leave in the registers. -/

namespace Sys2Proof.Machine

/-! ### One-bit fields -/

theorem State.flag_put_natOf (s : State) (a : At) {f : Fld} (h : f.lo + f.width ≤ 32) (hw : f.width = 1) (b : Bool) :
    (s.put a f (natOf b)).flag a f = b := by
  rw [State.flag, State.get_put_self s a f _ h, hw]
  cases b <;> rfl

theorem State.flag_congr {s t : State} {a : At} {f : Fld} (h : t.get a f = s.get a f) : t.flag a f = s.flag a f := by
  rw [State.flag, h, State.flag]

theorem State.not_flag_of_get {s : State} {a : At} {f : Fld} (h : s.get a f = 0) : s.flag a f = false := by rw [State.flag, h]; rfl

/-! ### A reload (R313, R314) -/

theorem max_one_period_lt (s : State) : Nat.max 1 (s.get (atDie .e0) .DBG_SWD_CTRL_PERIOD) < 2 ^ 16 :=
  Nat.max_lt.2 ⟨by decide, Fld.of_lt .DBG_SWD_CTRL_PERIOD _⟩

theorem swdReload_remain (s : State) :
    s.swdReload.get (atDie .e0) .DBG_SWD_STAT_REMAIN = Nat.max 1 (s.get (atDie .e0) .DBG_SWD_CTRL_PERIOD) :=
  (State.get_puts_first (by decide) (by decide) s).trans (Nat.mod_eq_of_lt (max_one_period_lt s))

theorem swdReload_warned (s : State) : s.swdReload.flag (atDie .e0) .DBG_SWD_STAT_WARNED = false :=
  State.not_flag_of_get (State.get_put_self _ _ .DBG_SWD_STAT_WARNED 0 (by decide))

theorem swdReload_apart {g : Fld} (hg : ∀ f ∈ [Fld.DBG_SWD_STAT_REMAIN, .DBG_SWD_STAT_WARNED], f.apart g = true) (s : State) :
    s.swdReload.get (atDie .e0) g = s.get (atDie .e0) g :=
  State.get_puts_apart (atDie_code .e0) [(.DBG_SWD_STAT_REMAIN, _), (.DBG_SWD_STAT_WARNED, 0)] hg s

theorem swdReload_keeps {L : List Reg} (hL : .DBG_SWD_STAT ∈ L) {s t : State} (h : s.keepsRegs L t) : s.keepsRegs L t.swdReload :=
  keeps_puts _ (by simpa using ⟨hL, hL⟩) (atDie_code .e0) h

/-! ### DBG_SWD_CTRL and DBG_SWD_KICK (R313) -/

/-- A write of DBG_SWD_CTRL, before the reload that starts the watchdog. -/
def State.swdWritten (s : State) (v : Word) : State :=
  s.puts (atDie .e0) [(.DBG_SWD_CTRL_EN, natOf (s.flag (atDie .e0) .DBG_SWD_CTRL_EN || v.getLsbD 31)), (.DBG_SWD_CTRL_PERIOD, v.toNat)]

theorem swdWritten_en (s : State) (v : Word) : (s.swdWritten v).flag (atDie .e0) .DBG_SWD_CTRL_EN =
    (s.flag (atDie .e0) .DBG_SWD_CTRL_EN || v.getLsbD 31) :=
  (State.flag_congr (State.get_put_apart (f := .DBG_SWD_CTRL_PERIOD) (by decide) (atDie_code .e0) _ _)).trans
    (State.flag_put_natOf s _ (f := .DBG_SWD_CTRL_EN) (by decide) rfl _)

theorem swdWritten_period (s : State) (v : Word) : (s.swdWritten v).get (atDie .e0) .DBG_SWD_CTRL_PERIOD = v.toNat % 2 ^ 16 :=
  State.get_put_self _ _ .DBG_SWD_CTRL_PERIOD _ (by decide)

theorem swdWritten_keeps {L : List Reg} (hL : .DBG_SWD_CTRL ∈ L) (s : State) (v : Word) : s.keepsRegs L (s.swdWritten v) :=
  keeps_puts _ (by simpa using ⟨hL, hL⟩) (atDie_code .e0) (keeps_refl L s)

theorem exec_swdEnable_starts {s : State} {v : Word} (hen : s.flag (atDie .e0) .DBG_SWD_CTRL_EN = false) (hv : v.getLsbD 31 = true) :
    exec (.swdEnable v) s = .next (s.swdWritten v).swdReload := congrArg Host.Outcome.next (if_pos (by simp [hen, hv]))

theorem exec_swdEnable_sets {s : State} {v : Word} (h : s.flag (atDie .e0) .DBG_SWD_CTRL_EN = true ∨ v.getLsbD 31 = false) :
    exec (.swdEnable v) s = .next (s.swdWritten v) :=
  congrArg Host.Outcome.next (if_neg (by
    rw [Bool.not_eq_true, Bool.and_eq_false_iff]
    exact h.imp_left (congrArg not)))

theorem exec_swdKick_otherKey {key : BitVec 8} (h : key ≠ 0x6D) (s : State) : exec (.swdKick key) s = .next s :=
  congrArg Host.Outcome.next (if_neg fun hkey => h (BitVec.eq_of_toNat_eq hkey))

/-! ### A freeze (R315, R325) -/

/-- Whether FREEZE_SYS counts: it is set in a session at the halt level. -/
def State.swdFreezes (s : State) : Bool := s.flag (atDie .e0) .DBG_CTRL_FREEZE_SYS && 2 ≤ s.get (atDie .e0) .DBG_SESSION_LEVEL

/-- The state in which FROZEN is up to date, before the reload of a watchdog that runs on. -/
def State.frozenPut (s : State) : State := s.put (atDie .e0) .DBG_SWD_STAT_FROZEN (natOf s.swdFreezes)

theorem frozenPut_flag (s : State) : s.frozenPut.flag (atDie .e0) .DBG_SWD_STAT_FROZEN = s.swdFreezes :=
  State.flag_put_natOf s _ (by decide) rfl _

theorem swdSync_thaws {s : State} (hwas : s.flag (atDie .e0) .DBG_SWD_STAT_FROZEN = true) (hnow : s.swdFreezes = false) :
    s.swdSync = s.frozenPut.swdReload := if_pos (by rw [hwas]; exact congrArg not hnow)

theorem swdSync_cases (s : State) : s.swdSync = s.frozenPut.swdReload ∨ s.swdSync = s.frozenPut := ite_eq_or_eq ..

theorem swdSync_apart {g : Fld} (hg : ∀ f ∈ [Fld.DBG_SWD_STAT_FROZEN, .DBG_SWD_STAT_REMAIN, .DBG_SWD_STAT_WARNED], f.apart g = true)
    (s : State) : s.swdSync.get (atDie .e0) g = s.get (atDie .e0) g := by
  obtain ⟨hfrozen, hreload⟩ := List.forall_mem_cons.1 hg
  have hput : s.frozenPut.get (atDie .e0) g = s.get (atDie .e0) g := State.get_put_apart hfrozen (atDie_code .e0) s _
  rcases swdSync_cases s with h | h
  · rw [h, swdReload_apart hreload, hput]
  · rw [h, hput]

theorem swdSync_frozen (s : State) : s.swdSync.flag (atDie .e0) .DBG_SWD_STAT_FROZEN = s.swdFreezes := by
  rcases swdSync_cases s with h | h
  · rw [h, State.flag_congr (swdReload_apart (by decide) s.frozenPut), frozenPut_flag]
  · rw [h, frozenPut_flag]

theorem swdSync_keeps {L : List Reg} (hL : .DBG_SWD_STAT ∈ L) {s t : State} (h : s.keepsRegs L t) : s.keepsRegs L t.swdSync := by
  have hput : s.keepsRegs L t.frozenPut := keeps_put hL (atDie_code .e0) h
  rcases swdSync_cases t with heq | heq
  · rw [heq]; exact swdReload_keeps hL hput
  · rw [heq]; exact hput

/-- The state in which DBG_CTRL.FREEZE_SYS holds what is written, before the watchdog follows it. -/
def State.freezePut (s : State) (freeze : Bool) : State := s.put (atDie .e0) .DBG_CTRL_FREEZE_SYS (natOf freeze)

theorem exec_freezeSysWrite_counts {s : State} (h : 2 ≤ s.get (atDie .e0) .DBG_SESSION_LEVEL) (freeze : Bool) :
    exec (.freezeSysWrite 5 freeze) s = .next (s.freezePut freeze).swdSync := congrArg Host.Outcome.next (if_pos ⟨rfl, h⟩)

theorem exec_freezeSysWrite_ignored {s : State} {icls : BitVec 3} (h : icls ≠ 5 ∨ s.get (atDie .e0) .DBG_SESSION_LEVEL < 2)
    (freeze : Bool) : exec (.freezeSysWrite icls freeze) s = .next s := by
  refine congrArg Host.Outcome.next (if_neg fun ⟨hicls, hlevel⟩ => ?_)
  exact h.elim (fun hne => hne (BitVec.eq_of_toNat_eq hicls)) (Nat.not_lt.2 hlevel)

theorem freezePut_flag (s : State) (freeze : Bool) : (s.freezePut freeze).flag (atDie .e0) .DBG_CTRL_FREEZE_SYS = freeze :=
  State.flag_put_natOf s _ (by decide) rfl freeze

theorem freezePut_apart {g : Fld} (hg : Fld.DBG_CTRL_FREEZE_SYS.apart g = true) (s : State) (freeze : Bool) :
    (s.freezePut freeze).get (atDie .e0) g = s.get (atDie .e0) g := State.get_put_apart hg (atDie_code .e0) s _

theorem freezePut_swdFreezes {s : State} (h : 2 ≤ s.get (atDie .e0) .DBG_SESSION_LEVEL) (freeze : Bool) :
    (s.freezePut freeze).swdFreezes = freeze := by
  rw [State.swdFreezes, freezePut_flag, freezePut_apart (by decide), decide_eq_true h, Bool.and_true]

/-- A watchdog that is no longer frozen reloads. -/
theorem swdSync_thawed {s : State} (hwas : s.flag (atDie .e0) .DBG_SWD_STAT_FROZEN = true) (hnow : s.swdFreezes = false) :
    s.swdSync.get (atDie .e0) .DBG_SWD_STAT_REMAIN = Nat.max 1 (s.get (atDie .e0) .DBG_SWD_CTRL_PERIOD) ∧
    s.swdSync.flag (atDie .e0) .DBG_SWD_STAT_WARNED = false := by
  rw [swdSync_thaws hwas hnow]
  refine ⟨?_, swdReload_warned _⟩
  rw [swdReload_remain, State.frozenPut, State.get_put_apart (by decide) (atDie_code .e0)]

/-! ### An expiry (R314) -/

/-- The state in which a first expiry has reloaded the watchdog and noted that it warns. -/
def State.swdWarned (s : State) : State := s.swdReload.put (atDie .e0) .DBG_SWD_STAT_WARNED 1

theorem exec_systemWatchdogExpiry_warns {s : State} (hen : s.flag (atDie .e0) .DBG_SWD_CTRL_EN = true)
    (hrun : s.flag (atDie .e0) .DBG_SWD_STAT_FROZEN = false) (hwarn : s.flag (atDie .e0) .DBG_SWD_STAT_WARNED = false) :
    exec .systemWatchdogExpiry s = .next (s.swdWarned.raise .e0 Ev.SWD_WARN (s.get (atDie .e0) .DBG_SWD_CTRL_PERIOD)) :=
  congrArg Host.Outcome.next ((if_pos (by simp [hen, hrun])).trans (if_neg (ne_true_of_eq_false hwarn)))

theorem exec_systemWatchdogExpiry_resets {s : State} (hen : s.flag (atDie .e0) .DBG_SWD_CTRL_EN = true)
    (hrun : s.flag (atDie .e0) .DBG_SWD_STAT_FROZEN = false) (hwarn : s.flag (atDie .e0) .DBG_SWD_STAT_WARNED = true) :
    exec .systemWatchdogExpiry s =
      .next ((s.raise .e0 Ev.SWD_EXPIRE (s.get (atDie .e0) .DBG_SWD_CTRL_PERIOD)).packageReset 16) :=
  congrArg Host.Outcome.next ((if_pos (by simp [hen, hrun])).trans (if_pos hwarn))

theorem exec_systemWatchdogExpiry_idle {s : State}
    (h : s.flag (atDie .e0) .DBG_SWD_CTRL_EN = false ∨ s.flag (atDie .e0) .DBG_SWD_STAT_FROZEN = true) :
    exec .systemWatchdogExpiry s = .next s := congrArg Host.Outcome.next (if_neg (by rcases h with h | h <;> simp [h]))

/-- Raising an event leaves a field of any other register as it was. -/
theorem State.get_raise (s : State) (d : Die) {loc : Nat} (x : Nat) (hloc : loc < 2 ^ 30) {a : At} (ha : a.code < 2 ^ 44) {f : Fld}
    (hf : f.reg ∉ eventRegs) : (s.raise d loc x).get a f = s.get a f :=
  State.get_of_keepsRegs (Raised.keepsRegs (s.raise_raised d x hloc)) ha hf

theorem swdWarned_raise_reads (s : State) (x : Nat) : let t := s.swdWarned.raise .e0 Ev.SWD_WARN x
    t.flag (atDie .e0) .DBG_SWD_STAT_WARNED = true ∧
      t.get (atDie .e0) .DBG_SWD_STAT_REMAIN = Nat.max 1 (s.get (atDie .e0) .DBG_SWD_CTRL_PERIOD) := by
  have hraise {f : Fld} (hf : f.reg ∉ eventRegs) : (s.swdWarned.raise .e0 Ev.SWD_WARN x).get (atDie .e0) f = _ :=
    State.get_raise s.swdWarned .e0 x (by decide) (atDie_code .e0) hf
  refine ⟨State.flag_of_get ((hraise (by decide)).trans (State.get_put_self _ _ _ 1 (by decide))), ?_⟩
  rw [hraise (by decide), State.swdWarned, State.get_put_apart (by decide) (atDie_code .e0), swdReload_remain]

theorem swdWarned_raise_keeps (s : State) (x : Nat) : s.keepsRegs (.DBG_SWD_STAT :: eventRegs) (s.swdWarned.raise .e0 Ev.SWD_WARN x) :=
  keeps_raise (by decide) (by decide) (keeps_put (by decide) (atDie_code .e0) (swdReload_keeps (by decide) (keeps_refl _ s)))

/-- A package power-on reset leaves no byte of memory set. -/
theorem packageReset_mem (s : State) (bits : Nat) : (s.packageReset bits).mem = [] := by
  obtain ⟨-, hmem⟩ := pending_mem_of_held
    (State.resetCause_held (bits := 2 + bits) (State.railsKept_held (old := s) (State.otpKept_held (old := s) rfl)))
  exact hmem

/-- Settles O35, clause by clause: writes of DBG_SWD_CTRL, kicks, freezes and expiries. -/
theorem systemWatchdogCommandsRun : Obligations.SystemWatchdogCommandsRun := by
  unfold Obligations.SystemWatchdogCommandsRun
  refine ⟨?staysOn, ?staysOff, ?starts, ?kicked, ?otherKey, ?freezes, ?ignored, ?warns, ?resets, ?idle⟩
  case staysOn =>
    intro value s hen
    exact ⟨_, exec_swdEnable_sets (.inl hen), by rw [swdWritten_en, hen, Bool.true_or], swdWritten_period s value,
      swdWritten_keeps (by decide) s value, fun _ => rfl⟩
  case staysOff =>
    intro value s hen hvalue
    exact ⟨_, exec_swdEnable_sets (.inr hvalue), by rw [swdWritten_en, hen, hvalue]; rfl, swdWritten_period s value,
      swdWritten_keeps (by decide) s value, fun _ => rfl⟩
  case starts =>
    intro value s hen hvalue
    have hperiod := swdReload_apart (g := .DBG_SWD_CTRL_PERIOD) (by decide) (s.swdWritten value)
    refine ⟨_, exec_swdEnable_starts hen hvalue, ?_, hperiod.trans (swdWritten_period s value), ?_, swdReload_warned _,
      swdReload_keeps (by decide) (swdWritten_keeps (by decide) s value), fun _ => rfl⟩
    · rw [State.flag_congr (swdReload_apart (by decide) (s.swdWritten value)), swdWritten_en, hvalue, Bool.or_true]
    · rw [swdReload_remain, hperiod]
  case kicked =>
    intro s
    exact ⟨s.swdReload, rfl, swdReload_remain s, swdReload_warned s, swdReload_keeps (by decide) (keeps_refl _ s), fun _ => rfl⟩
  case otherKey =>
    intro key s hkey
    exact exec_swdKick_otherKey hkey s
  case freezes =>
    intro freeze s hlevel
    have hnow := freezePut_swdFreezes hlevel freeze
    have hexec := exec_freezeSysWrite_counts hlevel freeze
    refine ⟨_, hexec, ?_, (swdSync_frozen _).trans hnow, fun hwas hfreeze => ?_,
      swdSync_keeps (by decide) (keeps_put (by decide) (atDie_code .e0) (keeps_refl _ s)), keepsMem_of_exec rfl hexec⟩
    · rw [State.flag_congr (swdSync_apart (by decide) (s.freezePut freeze)), freezePut_flag]
    · rw [← freezePut_apart (g := .DBG_SWD_CTRL_PERIOD) (by decide) s freeze]
      exact swdSync_thawed ((State.flag_congr (freezePut_apart (by decide) s freeze)).trans hwas) (hnow.trans hfreeze)
  case ignored =>
    intro icls freeze s h
    exact exec_freezeSysWrite_ignored h freeze
  case warns =>
    intro s hen hrun hwarn
    obtain ⟨hwarned, hremain⟩ := swdWarned_raise_reads s (s.get (atDie .e0) .DBG_SWD_CTRL_PERIOD)
    exact ⟨_, exec_systemWatchdogExpiry_warns hen hrun hwarn, rfl, hwarned, hremain, swdWarned_raise_keeps s _,
      State.keepsMem_of_held (State.raise_held rfl)⟩
  case resets =>
    intro s hen hrun hwarn
    exact ⟨_, exec_systemWatchdogExpiry_resets hen hrun hwarn, rfl, resetCause_reg _ 18, packageReset_mem _ 16⟩
  case idle =>
    intro s h
    exact exec_systemWatchdogExpiry_idle h

end Sys2Proof.Machine
end

section
/-! Debug sessions (R316 to R321): the nonce, what a response is judged by and leaves, the key slots, and the end of a session. -/

namespace Sys2Proof.Machine

/-! ### The nonce and the lockout (R318, R319) -/

theorem exec_dbgNonce_open {s : State} (h : s.flag (atDie .e0) .DBG_SESSION_LOCKOUT = false) (draw : BitVec 128) :
    exec (.dbgNonce draw) s =
      .next (((s.tapIr 0x10).setDbg { s.dbg with nonce := some (bytesLE draw.toNat 16) }).emit (.shifted draw.toNat)) :=
  congrArg Host.Outcome.next (if_neg (ne_true_of_eq_false h))

theorem exec_dbgNonce_locked {s : State} (h : s.flag (atDie .e0) .DBG_SESSION_LOCKOUT = true) (draw : BitVec 128) :
    exec (.dbgNonce draw) s = .next (((s.tapIr 0x10).setDbg { s.dbg with nonce := none }).emit (.shifted 0)) :=
  congrArg Host.Outcome.next (if_pos h)

theorem exec_nonceExpiry (s : State) : exec .nonceExpiry s = .next (s.setDbg { s.dbg with nonce := none }) := rfl

theorem exec_lockoutExpiry (s : State) : exec .lockoutExpiry s = .next (s.put (atDie .e0) .DBG_SESSION_LOCKOUT 0) := rfl

/-! ### A response (R318) -/

/-- A response is accepted: it answers the valid nonce for one of the three levels, under the key of that level's slot. -/
def State.responseGood (s : State) (level : Nat) (response : BitVec 256) : Prop := ∃ nonce, s.dbg.nonce = some nonce ∧ 1 ≤ level ∧
  level ≤ 3 ∧ s.keyOf level ≠ 0 ∧ hmacSha256 (bytesLE (s.keyOf level).toNat 32) (voxdarMessage nonce level) = bytesLE response.toNat 32

/-- Every response uses up the nonce. -/
def State.nonceUsed (s : State) : State := (s.tapIr 0x11).setDbg { s.dbg with nonce := none }

/-- The state in which a response has been accepted, before the session's new level takes effect. -/
def State.granted (s : State) (level : Nat) : State :=
  (s.nonceUsed.puts (atDie .e0) [(.DBG_SESSION_LEVEL, level), (.DBG_SESSION_FAILS, 0)]).raise .e0 Ev.DBG_SESSION
    (level + s.get (atDie .e0) .DBG_SESSION_LEVEL * 2 ^ 8 + (if level < s.get (atDie .e0) .DBG_SESSION_LEVEL then 3 else 0) * 2 ^ 16)

/-- The state in which a response has been refused and counted, before a lockout. -/
def State.refusedResponse (s : State) (level : Nat) : State :=
  (s.nonceUsed.bump (atDie .e0) .DBG_SESSION_FAILS 1).raise .e0 Ev.DBG_AUTH_FAIL
    (level + (s.nonceUsed.bump (atDie .e0) .DBG_SESSION_FAILS 1).get (atDie .e0) .DBG_SESSION_FAILS * 2 ^ 8)

/-- The lockout after `fails` failures. -/
def State.lockedAfter (s : State) (fails : Nat) : State := if 4 ≤ fails then s.put (atDie .e0) .DBG_SESSION_LOCKOUT 1 else s

theorem exec_dbgAuth_good {s : State} {level : BitVec 8} {response : BitVec 256} (h : s.responseGood level.toNat response) :
    exec (.dbgAuth level response) s = .next (
      if 2 ≤ s.get (atDie .e0) .DBG_SESSION_LEVEL ∧ level.toNat < 2 then (s.granted level.toNat).sessionFall
      else (s.granted level.toNat).swdSync) := by
  obtain ⟨nonce, hnonce, hlow, hhigh, hkey, hmac⟩ := h
  change execDbgAuth level response s = _
  simp only [execDbgAuth, hnonce]
  exact congrArg Host.Outcome.next (if_pos (by simpa [hlow, hhigh, hmac] using hkey))

theorem exec_dbgAuth_bad {s : State} {level : BitVec 8} {response : BitVec 256} (h : ¬ s.responseGood level.toNat response) :
    exec (.dbgAuth level response) s = .next ((s.refusedResponse level.toNat).lockedAfter
      ((s.nonceUsed.bump (atDie .e0) .DBG_SESSION_FAILS 1).get (atDie .e0) .DBG_SESSION_FAILS)) := by
  change execDbgAuth level response s = _
  cases hnonce : s.dbg.nonce with
  | none =>
    simp only [execDbgAuth, hnonce]
    rfl
  | some nonce =>
    simp only [execDbgAuth, hnonce]
    refine congrArg Host.Outcome.next (if_neg fun hgood => h ?_)
    simpa [State.responseGood, hnonce, and_assoc] using hgood

theorem nonceUsed_keeps (L : List Reg) (s : State) : s.keepsRegs L s.nonceUsed := State.keepsRegs_of_regs rfl L

theorem granted_get (s : State) (level : Nat) {f : Fld} (hf : f.reg ∉ eventRegs) : (s.granted level).get (atDie .e0) f =
    (s.nonceUsed.puts (atDie .e0) [(.DBG_SESSION_LEVEL, level), (.DBG_SESSION_FAILS, 0)]).get (atDie .e0) f :=
  State.get_raise _ .e0 _ (by decide) (atDie_code .e0) hf

theorem granted_level (s : State) {level : Nat} (h : level ≤ 3) : (s.granted level).get (atDie .e0) .DBG_SESSION_LEVEL = level := by
  rw [granted_get s level (by decide), State.get_puts_first (by decide) (by decide)]
  exact Nat.mod_eq_of_lt (Nat.lt_succ_of_le h)

theorem granted_fails (s : State) (level : Nat) : (s.granted level).get (atDie .e0) .DBG_SESSION_FAILS = 0 :=
  (granted_get s level (by decide)).trans (State.get_put_self _ _ .DBG_SESSION_FAILS 0 (by decide))

theorem granted_dbg (s : State) (level : Nat) : (s.granted level).dbg = { s.dbg with nonce := none } :=
  Raised.dbg_eq (State.raise_raised _ .e0 _ (by decide))

theorem granted_keeps {L : List Reg} (hL : ∀ r ∈ Reg.DBG_SESSION :: eventRegs, r ∈ L) (s : State) (level : Nat) :
    s.keepsRegs L (s.granted level) := by
  obtain ⟨hsession, hevents⟩ := List.forall_mem_cons.1 hL
  exact keeps_raise hevents (by decide) (keeps_puts _ (by simpa using ⟨hsession, hsession⟩) (atDie_code .e0) (nonceUsed_keeps L s))

theorem granted_held (s : State) (level : Nat) : (s.granted level).held = s.held := State.raise_held rfl

theorem swdSync_dbg (s : State) : s.swdSync.dbg = s.dbg := by
  rcases swdSync_cases s with h | h
  · rw [h]; rfl
  · rw [h]; rfl

theorem refusedResponse_get (s : State) (level : Nat) {f : Fld} (hf : f.reg ∉ eventRegs) : (s.refusedResponse level).get (atDie .e0) f =
    (s.nonceUsed.bump (atDie .e0) .DBG_SESSION_FAILS 1).get (atDie .e0) f :=
  State.get_raise _ .e0 _ (by decide) (atDie_code .e0) hf

theorem refusedResponse_keeps (s : State) (level : Nat) : s.keepsRegs (.DBG_SESSION :: eventRegs) (s.refusedResponse level) :=
  keeps_raise (by decide) (by decide) (keeps_bump (by decide) (atDie_code .e0) (nonceUsed_keeps _ s))

theorem refusedResponse_dbg (s : State) (level : Nat) : (s.refusedResponse level).dbg = { s.dbg with nonce := none } :=
  Raised.dbg_eq (State.raise_raised _ .e0 _ (by decide))

theorem lockedAfter_flag {s : State} {fails : Nat} (h : 4 ≤ fails) :
    (s.lockedAfter fails).flag (atDie .e0) .DBG_SESSION_LOCKOUT = true := by
  rw [State.lockedAfter, if_pos h]
  exact State.flag_of_get (State.get_put_self _ _ .DBG_SESSION_LOCKOUT 1 (by decide))

theorem lockedAfter_apart {g : Fld} (hg : Fld.DBG_SESSION_LOCKOUT.apart g = true) (s : State) (fails : Nat) :
    (s.lockedAfter fails).get (atDie .e0) g = s.get (atDie .e0) g := by
  unfold State.lockedAfter
  split
  · exact State.get_put_apart hg (atDie_code .e0) s 1
  · rfl

theorem lockedAfter_keeps {L : List Reg} (hL : .DBG_SESSION ∈ L) {s t : State} (h : s.keepsRegs L t) (fails : Nat) :
    s.keepsRegs L (t.lockedAfter fails) := by
  unfold State.lockedAfter
  split
  · exact keeps_put hL (atDie_code .e0) h
  · exact h

theorem lockedAfter_dbg (s : State) (fails : Nat) : (s.lockedAfter fails).dbg = s.dbg := by
  unfold State.lockedAfter
  split <;> rfl

theorem lockedAfter_held (s : State) (fails : Nat) : (s.lockedAfter fails).held = s.held := by
  unfold State.lockedAfter
  split <;> rfl

/-- One more failure is counted, up to 255. -/
theorem nonceUsed_fails (s : State) : (s.nonceUsed.bump (atDie .e0) .DBG_SESSION_FAILS 1).get (atDie .e0) .DBG_SESSION_FAILS =
    satAdd 255 (s.get (atDie .e0) .DBG_SESSION_FAILS) 1 := State.get_bump_self _ _ .DBG_SESSION_FAILS 1 (by decide)

theorem four_le_satAdd {n : Nat} (h : 3 ≤ n) : 4 ≤ satAdd 255 n 1 := Nat.le_min.2 ⟨by decide, Nat.succ_le_succ h⟩

/-! ### Key slots (R317) -/

/-- Whether DBG_KEYPROG may write a slot: a blank one of the three, with a key that is not blank, while slot 3 is blank or the session
holds level 3. -/
def State.mayProgram (s : State) (slot : Nat) (key : BitVec 256) : Prop := 1 ≤ slot ∧ slot ≤ 3 ∧
  (s.keyOf 3 = 0 ∨ s.get (atDie .e0) .DBG_SESSION_LEVEL = 3) ∧ s.keyOf slot = 0 ∧ key ≠ 0

theorem exec_dbgKeyprog_writes {s : State} {slot : BitVec 8} {key : BitVec 256} (h : s.mayProgram slot.toNat key) :
    exec (.dbgKeyprog slot key) s = .next (((s.tapIr 0x15).setDbg { s.dbg with keys := Tbl.set s.dbg.keys slot.toNat key }).setBit
      (atDie .e0) .DBG_KEY_STAT_SLOTS (slot.toNat - 1)) := congrArg Host.Outcome.next (if_pos h)

theorem exec_dbgKeyprog_ignored {s : State} {slot : BitVec 8} {key : BitVec 256} (h : ¬ s.mayProgram slot.toNat key) :
    exec (.dbgKeyprog slot key) s = .next (s.tapIr 0x15) := congrArg Host.Outcome.next (if_neg h)

/-! ### The status and the end of a session (R320, R321) -/

theorem exec_dbgStat (s : State) : exec .dbgStat s = .next (((s.tapIr 0x14).setAnswer (s.reg (atDie .e0) .DBG_SESSION)).emit
    (.shifted (s.reg (atDie .e0) .DBG_SESSION).toNat)) := rfl

theorem sessionEnd_open {s : State} (h : s.get (atDie .e0) .DBG_SESSION_LEVEL ≠ 0) (cause : Nat) : s.sessionEnd cause =
    ((s.put (atDie .e0) .DBG_SESSION_LEVEL 0).sessionFall).raise .e0 Ev.DBG_SESSION
      (s.get (atDie .e0) .DBG_SESSION_LEVEL * 2 ^ 8 + cause * 2 ^ 16) := if_neg h

theorem sessionEnd_none {s : State} (h : s.get (atDie .e0) .DBG_SESSION_LEVEL = 0) (cause : Nat) : s.sessionEnd cause = s := if_pos h

theorem exec_sessionEnd (s : State) : exec .sessionEnd s = .next ((s.tapIr 0x13).sessionEnd 1) := rfl

theorem exec_trstNLow (s : State) : exec .trstNLow s = .next ((s.tapIr 1).sessionEnd 2) := rfl

/-- Settles O37, clause by clause: the nonce, responses accepted and refused, the expiries, the key slots, and the end of a session. -/
theorem debugSessionCommandsRun : Obligations.DebugSessionCommandsRun := by
  unfold Obligations.DebugSessionCommandsRun
  refine ⟨?nonceOpen, ?nonceLocked, ?granted, ?falls, ?refused, ?nonceExpires, ?lockoutExpires, ?keyWritten, ?keyIgnored, ?status,
    ?ends, ?noSession⟩
  case nonceOpen =>
    intro draw s h
    exact ⟨_, exec_dbgNonce_open h draw, rfl, rfl, rfl, State.keepsRegs_of_regs rfl _, fun _ => rfl⟩
  case nonceLocked =>
    intro draw s h
    exact ⟨_, exec_dbgNonce_locked h draw, rfl, rfl, State.keepsRegs_of_regs rfl _, fun _ => rfl⟩
  case granted =>
    intro level response nonce s hlow hhigh hnonce hkey hmac hstays
    have hlevel : (BitVec.ofNat 8 level).toNat = level := Nat.mod_eq_of_lt (Nat.lt_of_le_of_lt hhigh (by decide))
    have hgood : s.responseGood (BitVec.ofNat 8 level).toNat response := by
      rw [hlevel]
      exact ⟨nonce, hnonce, hlow, hhigh, hkey, hmac⟩
    have hexec := exec_dbgAuth_good hgood
    rw [hlevel, if_neg (by omega)] at hexec
    refine ⟨_, hexec, (swdSync_apart (by decide) _).trans (granted_level s hhigh),
      (swdSync_apart (by decide) _).trans (granted_fails s level), ?_, swdSync_keeps (by decide) (granted_keeps (by decide) s level),
      State.keepsMem_of_held (State.swdSync_held (granted_held s level))⟩
    rw [swdSync_dbg, granted_dbg]
  case falls =>
    intro response nonce s hnonce hkey hmac hhalt
    have hgood : s.responseGood (1 : BitVec 8).toNat response := ⟨nonce, hnonce, le_rfl, by decide, hkey, hmac⟩
    refine (exec_dbgAuth_good hgood).trans (congrArg Host.Outcome.next ((if_pos ⟨hhalt, by decide⟩).trans ?_))
    rw [State.granted, if_pos (show (1 : BitVec 8).toNat < _ from hhalt)]
    rfl
  case refused =>
    intro level response s h
    have hbad : ¬ s.responseGood level.toNat response := by
      rintro ⟨nonce, hnonce, hlow, hhigh, hkey, hmac⟩
      rcases h with h | rfl | h | h | ⟨other, hother, hne⟩
      · rw [hnonce] at h; contradiction
      · exact absurd hlow (by decide)
      · omega
      · exact hkey h
      · rw [hnonce, Option.some.injEq] at hother
        exact hne (hother ▸ hmac)
    refine ⟨_, exec_dbgAuth_bad hbad, ?_, fun hfails => lockedAfter_flag ?_, ?_, ?_,
      lockedAfter_keeps (by decide) (refusedResponse_keeps s _) _,
      State.keepsMem_of_held ((lockedAfter_held _ _).trans (State.raise_held rfl))⟩
    · rw [lockedAfter_apart (by decide), refusedResponse_get s _ (by decide), nonceUsed_fails]
    · rw [nonceUsed_fails]
      exact four_le_satAdd hfails
    · rw [lockedAfter_apart (by decide), refusedResponse_get s _ (by decide)]
      exact State.get_put_apart (by decide) (atDie_code .e0) _ _
    · rw [lockedAfter_dbg, refusedResponse_dbg]
  case nonceExpires =>
    intro s
    exact ⟨_, exec_nonceExpiry s, rfl, State.keepsRegs_of_regs rfl _, fun _ => rfl⟩
  case lockoutExpires =>
    intro s
    exact ⟨_, exec_lockoutExpiry s, State.not_flag_of_get (State.get_put_self _ _ .DBG_SESSION_LOCKOUT 0 (by decide)),
      State.get_put_apart (by decide) (atDie_code .e0) s 0, keeps_put (by decide) (atDie_code .e0) (keeps_refl _ s), fun _ => rfl⟩
  case keyWritten =>
    intro slot key s hlow hhigh hmay hblank hkey
    have hslot : (BitVec.ofNat 8 slot).toNat = slot := Nat.mod_eq_of_lt (Nat.lt_of_le_of_lt hhigh (by decide))
    have hmay : s.mayProgram (BitVec.ofNat 8 slot).toNat key := by
      rw [hslot]
      exact ⟨hlow, hhigh, hmay, hblank, hkey⟩
    have hexec := exec_dbgKeyprog_writes hmay
    rw [hslot] at hexec
    exact ⟨_, hexec, Tbl.get_set_self .., State.bit_setBit_self _ _ (by decide) (show slot - 1 < 3 by omega),
      keeps_setBit (by decide) (atDie_code .e0) (State.keepsRegs_of_regs rfl _), fun _ => rfl⟩
  case keyIgnored =>
    intro slot key s h
    have hnot : ¬ s.mayProgram slot.toNat key := by
      rintro ⟨hlow, hhigh, hmay, hblank, hkey⟩
      rcases h with rfl | h | h | h | ⟨hthree, hlevel⟩
      · exact absurd hlow (by decide)
      · omega
      · exact h hblank
      · exact hkey h
      · exact hmay.elim hthree hlevel
    exact ⟨_, exec_dbgKeyprog_ignored hnot, rfl, State.keepsRegs_of_regs rfl _, fun _ => rfl⟩
  case status =>
    intro s
    exact ⟨_, exec_dbgStat s, rfl, rfl, rfl, State.keepsRegs_of_regs rfl _, fun _ => rfl⟩
  case ends =>
    intro s hopen
    exact ⟨(exec_sessionEnd s).trans (congrArg Host.Outcome.next (sessionEnd_open (s := s.tapIr 0x13) hopen 1)),
      (exec_trstNLow s).trans (congrArg Host.Outcome.next (sessionEnd_open (s := s.tapIr 1) hopen 2))⟩
  case noSession =>
    intro s hnone
    exact ⟨(exec_sessionEnd s).trans (congrArg Host.Outcome.next (sessionEnd_none (s := s.tapIr 0x13) hnone 1)),
      (exec_trstNLow s).trans (congrArg Host.Outcome.next (sessionEnd_none (s := s.tapIr 1) hnone 2))⟩

end Sys2Proof.Machine
end

section
/-! Debug accesses of the test port (R322). -/

namespace Sys2Proof.Machine

theorem exec_dbgAcc_pending {s : State} (h : s.dbg.pending = true) (write : Bool) (addr : BitVec 48) (data : Word) :
    exec (.dbgAcc write addr data) s = .next ((s.tapIr 0x12).put (atDie .e0) .DBG_SESSION_ACC_DROP 1) :=
  congrArg Host.Outcome.next (if_pos h)

theorem exec_dbgAcc_refused {s : State} (h : s.dbg.pending = false) {write : Bool} {addr : BitVec 48}
    (hlevel : s.get (atDie .e0) .DBG_SESSION_LEVEL < s.accessLevel write addr.toNat) (data : Word) :
    exec (.dbgAcc write addr data) s =
      .next ((s.tapIr 0x12).used.setDbg { s.dbg with dstat := 10, data := s.free 32, addr := addr.toNat }) :=
  congrArg Host.Outcome.next ((if_neg (ne_true_of_eq_false h)).trans (if_pos hlevel))

theorem exec_dbgAcc_sent {s : State} (h : s.dbg.pending = false) {write : Bool} {addr : BitVec 48}
    (hlevel : s.accessLevel write addr.toNat ≤ s.get (atDie .e0) .DBG_SESSION_LEVEL) (data : Word) :
    exec (.dbgAcc write addr data) s =
      .next (((s.tapIr 0x12).setDbg { s.dbg with pending := true, dstat := 11, addr := addr.toNat }).request
        ⟨BitVec.ofNat 12 debugIdent, BitVec.ofNat 10 ((s.freeTag debugIdent).getD 0), 0, 1, if write then 8 else 0, 2, false, 5, addr,
          data.setWidth 512, if write then 15 else 0, 0, 0⟩ .debug) :=
  congrArg Host.Outcome.next ((if_neg (ne_true_of_eq_false h)).trans (if_neg (Nat.not_lt.2 hlevel)))

theorem exec_dbgAccCapture (s : State) : exec .dbgAccCapture s = .next ((s.setAnswer (BitVec.ofNat 32 s.dbg.data)).emit
    (.shifted ((if s.dbg.pending then 11 else s.dbg.dstat) + s.dbg.data % 2 ^ 32 * 2 ^ 4 + s.dbg.addr * 2 ^ 36))) := rfl

/-- Settles O38: an access is dropped, refused or sent as the pending one and the session's level say, and a capture shows the last. -/
theorem debugAccessCommandsRun : Obligations.DebugAccessCommandsRun := by
  unfold Obligations.DebugAccessCommandsRun
  refine ⟨?dropped, ?refused, ?sent, ?capture⟩
  case dropped =>
    intro write addr data s hpending
    exact ⟨_, exec_dbgAcc_pending hpending write addr data, State.flag_of_get (State.get_put_self _ _ _ 1 (by decide)), rfl,
      keeps_put (by decide) (atDie_code .e0) (State.keepsRegs_of_regs rfl _), fun _ => rfl⟩
  case refused =>
    intro write addr data s hfree hlevel
    exact ⟨_, exec_dbgAcc_refused hfree hlevel data, rfl, hfree, rfl, State.keepsRegs_of_regs rfl _, fun _ => rfl⟩
  case sent =>
    intro write addr data s hfree hlevel
    exact exec_dbgAcc_sent hfree hlevel data
  case capture =>
    intro s
    exact ⟨_, exec_dbgAccCapture s, rfl, rfl, rfl, State.keepsRegs_of_regs rfl _, fun _ => rfl⟩

end Sys2Proof.Machine
end

section
/-! Laws of a Hammer core's state: what a core reads after an operation on it, the STATE of HMR_CORE_STAT, and how a core goes on. -/

namespace Sys2Proof.Machine

theorem coreUnit_code (c : CoreId) : (atUnit (cdie c) c.k).code < 2 ^ 44 := atUnit_code _ (by omega)

@[simp] theorem setCore_core_self (s : State) (d : Die) (k : Nat) (r : Core) : (s.setCore d k r).core d k = r := Tbl.get_set_self ..

@[simp] theorem onCore_core_self (s : State) (d : Die) (k : Nat) (f : Core → Core) : (s.onCore d k f).core d k = f (s.core d k) :=
  Tbl.get_set_self ..

@[simp] theorem put_core (s : State) (a : At) (f : Fld) (v : Nat) (d : Die) (k : Nat) : (s.put a f v).core d k = s.core d k := rfl

@[simp] theorem setCstate_core (s : State) (d : Die) (k n : Nat) (e : Die) (j : Nat) : (s.setCstate d k n).core e j = s.core e j := rfl

@[simp] theorem clrBit_cores (s : State) (a : At) (f : Fld) (k : Nat) : (s.clrBit a f k).cores = s.cores := by
  unfold State.clrBit
  split <;> rfl

theorem core_of_cores {s t : State} (h : t.cores = s.cores) (d : Die) (k : Nat) : t.core d k = s.core d k := by
  rw [State.core, h, State.core]

@[simp] theorem clrBit_core (s : State) (a : At) (f : Fld) (n : Nat) (d : Die) (k : Nat) : (s.clrBit a f n).core d k = s.core d k :=
  core_of_cores (clrBit_cores s a f n) d k

theorem onCore_keeps {L : List Reg} {s t : State} (h : s.keepsRegs L t) (d : Die) (k : Nat) (f : Core → Core) :
    s.keepsRegs L (t.onCore d k f) := keeps_same h rfl

theorem setCstate_cstate {n : Nat} (hn : n < 8) (s : State) (d : Die) (k : Nat) : (s.setCstate d k n).cstate d k = n :=
  (State.get_put_self s _ .HMR_CORE_STAT_STATE n (by decide)).trans (Nat.mod_eq_of_lt hn)

theorem onCore_get (s : State) (d : Die) (k : Nat) (f : Core → Core) (a : At) (g : Fld) : (s.onCore d k f).get a g = s.get a g := rfl

theorem onCore_cstate (s : State) (d : Die) (k : Nat) (f : Core → Core) (e : Die) (j : Nat) :
    (s.onCore d k f).cstate e j = s.cstate e j := rfl

theorem cstate_of_keepsRegs {L : List Reg} {s t : State} (h : s.keepsRegs L t) (hL : .HMR_CORE_STAT ∉ L) (c : CoreId) :
    t.cstate (cdie c) c.k = s.cstate (cdie c) c.k := State.get_of_keepsRegs h (coreUnit_code c) hL

theorem flag_of_keepsRegs {L : List Reg} {s t : State} (h : s.keepsRegs L t) {a : At} {f : Fld} (ha : a.real) (hf : f.reg ∉ L) :
    t.flag a f = s.flag a f := State.flag_congr (State.get_of_keepsRegs h ha hf)

theorem State.bit_congr {s t : State} {a : At} {f : Fld} (h : t.get a f = s.get a f) (n : Nat) : t.bit a f n = s.bit a f n := by
  rw [State.bit, h, State.bit]

theorem State.bit_setBit_other (s : State) (a : At) {f : Fld} {k l : Nat} (hf : f.lo + f.width ≤ 32) (h : l ≠ k) :
    (s.setBit a f k).bit a f l = s.bit a f l := by
  rw [State.bit, State.setBit, State.get_put_self _ _ _ _ hf, State.bit, bitOf_eq_testBit, bitOf_eq_testBit, Nat.testBit_mod_two_pow,
    Nat.testBit_or, Nat.testBit_two_pow_of_ne h.symm, Bool.or_false]
  by_cases hl : l < f.width
  · rw [decide_eq_true hl, Bool.true_and]
  · have hlt : s.get a f < 2 ^ l := Nat.lt_of_lt_of_le (Fld.of_lt f _) (Nat.pow_le_pow_right (by decide) (Nat.not_lt.1 hl))
    rw [Nat.testBit_lt_two_pow hlt, Bool.and_false]

/-! ### Going on (R308) -/

theorem goOn_waits {s : State} {d : Die} {k : Nat} (h : (s.core d k).backToWait = true) :
    s.goOn d k = (s.onCore d k fun r => { r with rewait := false }).setCstate d k 4 := if_pos h

theorem goOn_runs {s : State} {d : Die} {k : Nat} (h : (s.core d k).backToWait = false) : s.goOn d k = s.setCstate d k 1 :=
  if_neg (ne_true_of_eq_false h)

theorem goOn_cstate (s : State) (d : Die) (k : Nat) : (s.goOn d k).cstate d k = if (s.core d k).backToWait then 4 else 1 := by
  cases h : (s.core d k).backToWait with
  | true => rw [goOn_waits h, setCstate_cstate (by decide)]; rfl
  | false => rw [goOn_runs h, setCstate_cstate (by decide)]; rfl

theorem goOn_core (s : State) (d : Die) (k : Nat) : (s.goOn d k).core d k =
    { s.core d k with rewait := (s.core d k).rewait && !(s.core d k).backToWait } := by
  cases h : (s.core d k).backToWait with
  | true => rw [goOn_waits h, setCstate_core, onCore_core_self, Bool.not_true, Bool.and_false]
  | false => rw [goOn_runs h, setCstate_core, Bool.not_false, Bool.and_true]

theorem goOn_keeps {L : List Reg} (hL : .HMR_CORE_STAT ∈ L) {s t : State} (h : s.keepsRegs L t) (c : CoreId) :
    s.keepsRegs L (t.goOn (cdie c) c.k) := by
  unfold State.goOn
  split
  · exact keeps_put hL (coreUnit_code c) (onCore_keeps h _ _ _)
  · exact keeps_put hL (coreUnit_code c) h

end Sys2Proof.Machine
end

section
/-! The interrupts of a Hammer core (R301 to R308): which lines wake it, when it takes one, and what taking a line leaves. -/

namespace Sys2Proof.Machine

/-! ### The lines (R301) -/

theorem lineOn_of_keepsRegs {s t : State} (h : s.keepsRegs [.HMR_CORE_STAT] t) (c : CoreId) (l : Nat) :
    t.lineOn (cdie c) c.k l = s.lineOn (cdie c) c.k l := by
  have hget {f : Fld} (hf : f.reg ∉ [Reg.HMR_CORE_STAT]) := State.get_of_keepsRegs h (coreUnit_code c) hf
  simp only [State.lineOn, State.bit, State.flag, hget (f := .HMR_IRQ_PEND_PEND) (by decide), hget (f := .HMR_STK_CTRL_BIND) (by decide),
    hget (f := .HMR_IRQ_CTRL_EN) (by decide)]

theorem lineTaken_of_keepsRegs {s t : State} (h : s.keepsRegs [.HMR_CORE_STAT] t) (c : CoreId)
    (hsr : (t.core (cdie c) c.k).sr = (s.core (cdie c) c.k).sr) : t.lineTaken (cdie c) c.k = s.lineTaken (cdie c) c.k := by
  simp only [State.lineTaken, lineOn_of_keepsRegs h, hsr]

theorem any_lineOn {s : State} {d : Die} {k l : Nat} (hl : l < 5) (h : s.lineOn d k l = true) :
    ((List.range 5).any fun l => s.lineOn d k l) = true := List.any_eq_true.2 ⟨l, List.mem_range.2 hl, h⟩

/-- A core that takes no line has no line 0 that is pending and enabled. -/
theorem lineOn_zero_of_lineTaken_none {s : State} {d : Die} {k : Nat} (h : s.lineTaken d k = none) : s.lineOn d k 0 = false := by
  simpa using List.find?_eq_none.1 h 0 (by decide)

/-! ### Waking and taking (R302, R303, R306) -/

/-- Whether a line ends the core's IDLE, or line 0 its WAIT_STROKE before a delay slot or in a handler. -/
def State.lineWakes (s : State) (d : Die) (k : Nat) : Bool :=
  (s.cstate d k == 2 && (List.range 5).any fun l => s.lineOn d k l) ||
    (s.cstate d k == 4 && ((s.core d k).br.isSome || (s.core d k).inHandler) && s.lineOn d k 0)

/-- The state in which what a line wakes has gone on. -/
def State.woken (s : State) (d : Die) (k : Nat) : State := if s.lineWakes d k then s.goOn d k else s

/-- Whether a core stands where it may take a line: at a settled boundary of a program, or in IDLE or WAIT_STROKE, not held off. -/
def State.atBoundary (s : State) (d : Die) (k : Nat) : Prop := (s.core d k).heldOff = false ∧
  ((s.cstate d k = 1 ∧ (s.core d k).settled = true) ∨ s.cstate d k = 2 ∨ s.cstate d k = 4)

/-- The condition of `State.interrupt` for taking no line. -/
theorem not_atBoundary_iff {s : State} {d : Die} {k : Nat} : ¬ s.atBoundary d k ↔
    ((s.core d k).heldOff || !(s.cstate d k == 2 || s.cstate d k == 4 || (s.cstate d k == 1 && (s.core d k).settled))) = true := by
  rw [Bool.or_eq_true, Bool.not_eq_true', Bool.or_eq_false_iff, Bool.or_eq_false_iff, Bool.and_eq_false_iff]
  simp only [State.atBoundary, beq_eq_false_iff_ne, not_and_or, not_or, Bool.not_eq_false, Bool.not_eq_true]
  tauto

theorem interrupt_stopped {s : State} {d : Die} {k : Nat} (h : s.coreStill d k = true ∨ (s.core d k).halt.isSome = true) :
    s.interrupt d k = s := if_pos (by rcases h with h | h <;> simp [h])

/-- What a core that is not stopped does at a boundary. -/
theorem interrupt_moves {s : State} {d : Die} {k : Nat} (hstill : s.coreStill d k = false) (hhalt : (s.core d k).halt = none) :
    s.interrupt d k = if (s.core d k).heldOff || !(s.cstate d k == 2 || s.cstate d k == 4 || (s.cstate d k == 1 && (s.core d k).settled))
      then s.woken d k
      else match (s.woken d k).lineTaken d k with
        | some l => (s.woken d k).takeLine d k l
        | none => s.woken d k := if_neg (by simp [hstill, hhalt])

theorem interrupt_takes {s : State} {d : Die} {k l : Nat} (hstill : s.coreStill d k = false) (hhalt : (s.core d k).halt = none)
    (hat : s.atBoundary d k) (hline : (s.woken d k).lineTaken d k = some l) : s.interrupt d k = (s.woken d k).takeLine d k l := by
  rw [interrupt_moves hstill hhalt, if_neg fun hnot => not_atBoundary_iff.2 hnot hat, hline]

theorem interrupt_woken {s : State} {d : Die} {k : Nat} (hstill : s.coreStill d k = false) (hhalt : (s.core d k).halt = none)
    (h : ¬ s.atBoundary d k ∨ (s.woken d k).lineTaken d k = none) : s.interrupt d k = s.woken d k := by
  rw [interrupt_moves hstill hhalt]
  by_cases hat : s.atBoundary d k
  · rw [h.resolve_left (not_not.2 hat), ite_self]
  · exact if_pos (not_atBoundary_iff.1 hat)

theorem woken_wakes {s : State} {d : Die} {k : Nat} (h : s.lineWakes d k = true) : s.woken d k = s.goOn d k := if_pos h

theorem woken_sleeps {s : State} {d : Die} {k : Nat} (h : s.lineWakes d k = false) : s.woken d k = s := if_neg (ne_true_of_eq_false h)

theorem woken_keeps (s : State) (c : CoreId) : s.keepsRegs [.HMR_CORE_STAT] (s.woken (cdie c) c.k) := by
  unfold State.woken
  split
  · exact goOn_keeps (by decide) (keeps_refl _ s) c
  · exact keeps_refl _ s

/-- Waking changes nothing of a core but whether it goes back to a WAIT_STROKE. -/
theorem woken_core (s : State) (d : Die) (k : Nat) : ∃ b, (s.woken d k).core d k = { s.core d k with rewait := b } := by
  unfold State.woken
  split
  · exact ⟨_, goOn_core s d k⟩
  · exact ⟨_, rfl⟩

theorem woken_lineTaken (s : State) (c : CoreId) : (s.woken (cdie c) c.k).lineTaken (cdie c) c.k = s.lineTaken (cdie c) c.k := by
  obtain ⟨b, hcore⟩ := woken_core s (cdie c) c.k
  exact lineTaken_of_keepsRegs (woken_keeps s c) c (by rw [hcore])

theorem lineWakes_idle {s : State} {d : Die} {k l : Nat} (hidle : s.cstate d k = 2) (hl : l < 5) (hon : s.lineOn d k l = true) :
    s.lineWakes d k = true := by
  simp only [State.lineWakes, hidle, any_lineOn hl hon, BEq.rfl, Bool.and_self, Bool.true_or]

theorem lineWakes_wait {s : State} {d : Die} {k : Nat} (hwait : s.cstate d k = 4)
    (hheld : (s.core d k).br.isSome = true ∨ (s.core d k).inHandler = true) (hon : s.lineOn d k 0 = true) : s.lineWakes d k = true := by
  have hheld : ((s.core d k).br.isSome || (s.core d k).inHandler) = true := by simpa using hheld
  simp only [State.lineWakes, hwait, hheld, hon, BEq.rfl, Bool.and_self, Bool.or_true]

/-- A core is woken only out of IDLE, or out of a WAIT_STROKE that cannot take line 0 itself. -/
theorem not_lineWakes {s : State} {d : Die} {k : Nat} (hidle : s.cstate d k ≠ 2) (hwait : s.cstate d k ≠ 4 ∨
    ((s.core d k).br = none ∧ (s.core d k).inHandler = false) ∨ s.lineOn d k 0 = false) : s.lineWakes d k = false := by
  rcases hwait with hwait | ⟨hbr, hhandler⟩ | hoff
  · simp [State.lineWakes, hidle, hwait]
  · simp [State.lineWakes, hidle, hbr, hhandler]
  · simp [State.lineWakes, hidle, hoff]

/-- Before a delay slot, and in a handler, a core takes no line and goes back to no WAIT_STROKE. -/
theorem held_core {r : Core} (h : r.br.isSome = true ∨ r.inHandler = true) : r.heldOff = true ∧ r.backToWait = false := by
  rcases h with h | h
  · simp only [Core.heldOff, Core.backToWait, ← Option.not_isSome, h, Bool.true_or, Bool.not_true, Bool.and_false, and_self]
  · simp only [Core.heldOff, Core.backToWait, h, Bool.or_true, Bool.not_true, Bool.and_false, Bool.false_and, and_self]

/-! ### Taking a line (R304, R307) -/

theorem push_shadow (r : Core) (a : BitVec 15) : (r.push a).shadow = r.shadow := by unfold Core.push; split <;> rfl
theorem push_x (r : Core) (a : BitVec 15) : (r.push a).x = r.x := by unfold Core.push; split <;> rfl
theorem push_a (r : Core) (a : BitVec 15) : (r.push a).a = r.a := by unfold Core.push; split <;> rfl

theorem push_stack (r : Core) (a : BitVec 15) : (r.push a).stack = (a :: r.stack).take 16 := by
  unfold Core.push
  split
  case isTrue hroom => exact (List.take_of_length_le (by simpa using hroom)).symm
  case isFalse => rfl

theorem push_sr (r : Core) (a : BitVec 15) : (r.push a).sr = r.sr ||| (if r.stack.length < 16 then 0 else 0x100#24) := by
  unfold Core.push
  split
  case isTrue => exact BitVec.or_zero.symm
  case isFalse => rfl

/-- Z, N, C, V and IE as they are put away. -/
def Core.shadowed (r : Core) : Core := { r with shadow := BitVec.ofNat 5 (r.sr.toNat % 16 + natOf (r.sr.getLsbD 13) * 16) }

/-- The core that has taken a line: its return address pushed, IE clear, at the line's vector. -/
def Core.taken (r : Core) (vector : BitVec 15) (line : Nat) (rewait : Bool) : Core :=
  { r.shadowed.push r.pc with
    sr := (r.shadowed.push r.pc).sr &&& ~~~ 0x2000#24
    pc := vector
    inHandler := true
    task := (r.shadowed.push r.pc).task || line == 0
    rewait := rewait }

theorem takeLine_core (s : State) (d : Die) (k line : Nat) : (s.takeLine d k line).core d k =
    (s.core d k).taken (BitVec.ofNat 15 (s.get (atUnit d k) .HMR_IRQ_CTRL_VBASE + 4 * line)) line (line != 0 && s.cstate d k == 4) := by
  unfold State.takeLine State.taskSync
  rw [put_core, setCstate_core, clrBit_core, onCore_core_self]
  rfl

theorem takeLine_keeps {L : List Reg} (hL : ∀ r ∈ [Reg.HMR_IRQ_PEND, .HMR_CORE_STAT, .HMR_STK_STAT], r ∈ L) {s t : State}
    (h : s.keepsRegs L t) (c : CoreId) (line : Nat) : s.keepsRegs L (t.takeLine (cdie c) c.k line) := by
  have hcode := coreUnit_code c
  exact keeps_put (hL _ (by decide)) hcode (keeps_put (hL _ (by decide)) hcode
    (keeps_clrBit (hL _ (by decide)) hcode (onCore_keeps h _ _ _)))

theorem takeLine_pend (s : State) (c : CoreId) (line : Nat) :
    (s.takeLine (cdie c) c.k line).bit (atUnit (cdie c) c.k) .HMR_IRQ_PEND_PEND line = false := by
  have hcode := coreUnit_code c
  rw [State.takeLine, State.taskSync, State.bit_congr (State.get_put_apart (by decide) hcode _ _), State.setCstate,
    State.bit_congr (State.get_put_apart (by decide) hcode _ _)]
  exact State.bit_clrBit_self _ _ line (by decide)

theorem takeLine_cstate (s : State) (c : CoreId) (line : Nat) : (s.takeLine (cdie c) c.k line).cstate (cdie c) c.k = 1 := by
  rw [State.takeLine, State.taskSync, State.cstate, State.get_put_apart (by decide) (coreUnit_code c)]
  exact setCstate_cstate (by decide) _ _ _

/-! ### The commands -/

theorem exec_interruptEntry (c : CoreId) (s : State) : exec (.interruptEntry c) s = .next (s.interrupt (cdie c) c.k) := rfl

theorem exec_doorbell (c : CoreId) (s : State) : exec (.doorbell c) s = .next (s.setBit (atUnit (cdie c) c.k) .HMR_IRQ_PEND_PEND 4) := rfl

/-- A core that is not woken and is to take no line stays as it is, stopped or not. -/
theorem exec_interruptEntry_idle {c : CoreId} {s : State} (hsleep : s.lineWakes (cdie c) c.k = false)
    (h : ¬ s.atBoundary (cdie c) c.k ∨ s.lineTaken (cdie c) c.k = none) : exec (.interruptEntry c) s = .next s := by
  refine (exec_interruptEntry c s).trans (congrArg Host.Outcome.next ?_)
  by_cases hstop : s.coreStill (cdie c) c.k = true ∨ (s.core (cdie c) c.k).halt.isSome = true
  · exact interrupt_stopped hstop
  · obtain ⟨hstill, hhalt⟩ := not_or.1 hstop
    rw [interrupt_woken (Bool.eq_false_of_not_eq_true hstill) (by simpa using hhalt) (by rwa [woken_lineTaken]), woken_sleeps hsleep]

/-- Settles O32, clause by clause: a line taken, an IDLE or a WAIT_STROKE ended, and the cases in which the core stays as it is. -/
theorem hammerInterruptCommandsRun : Obligations.HammerInterruptCommandsRun := by
  unfold Obligations.HammerInterruptCommandsRun
  refine ⟨?taken, ?idleEnds, ?waitEnds, ?heldOff, ?noBoundary, ?stopped, ?doorbell⟩
  case taken =>
    intro c l s hstill hhalt hoff hstate hline
    have htakes := interrupt_takes hstill hhalt ⟨hoff, hstate⟩ ((woken_lineTaken s c).trans hline)
    have hexec := (exec_interruptEntry c s).trans (congrArg Host.Outcome.next htakes)
    have hvbase := State.get_of_keepsRegs (woken_keeps s c) (coreUnit_code c) (f := .HMR_IRQ_CTRL_VBASE) (by decide)
    obtain ⟨b, hwoken⟩ := woken_core s (cdie c) c.k
    have hcore := takeLine_core (s.woken (cdie c) c.k) (cdie c) c.k l
    rw [hvbase, hwoken] at hcore
    refine ⟨_, hexec, congrArg Core.pc hcore, (congrArg Core.stack hcore).trans (push_stack ..), congrArg Core.inHandler hcore,
      (congrArg Core.shadow hcore).trans (push_shadow ..), (congrArg Core.sr hcore).trans ?_, (congrArg Core.x hcore).trans (push_x ..),
      (congrArg Core.a hcore).trans (push_a ..), takeLine_pend _ c l, takeLine_cstate _ c l,
      takeLine_keeps (by decide) (keeps_of_subset (by decide) (woken_keeps s c)) c l, keepsMem_of_exec rfl hexec⟩
    exact congrArg (· &&& ~~~ 0x2000#24) (push_sr ..)
  case idleEnds =>
    intro c l s hl hstill hhalt hidle hon hline
    have hwoken := interrupt_woken hstill hhalt (.inr ((woken_lineTaken s c).trans hline))
    rw [woken_wakes (lineWakes_idle hidle hl hon)] at hwoken
    have hexec := (exec_interruptEntry c s).trans (congrArg Host.Outcome.next hwoken)
    exact ⟨_, hexec, goOn_cstate s _ _, goOn_core s _ _, goOn_keeps (by decide) (keeps_refl _ s) c, keepsMem_of_exec rfl hexec⟩
  case waitEnds =>
    intro c s hstill hhalt hwait hheld hon
    obtain ⟨hoff, hback⟩ := held_core hheld
    have hoff : ¬ s.atBoundary (cdie c) c.k := fun hat => Bool.false_ne_true (hat.1.symm.trans hoff)
    have hwoken := interrupt_woken hstill hhalt (.inl hoff)
    rw [woken_wakes (lineWakes_wait hwait hheld hon), goOn_runs hback] at hwoken
    have hexec := (exec_interruptEntry c s).trans (congrArg Host.Outcome.next hwoken)
    exact ⟨_, hexec, setCstate_cstate (by decide) s _ _, rfl, keeps_put (by decide) (coreUnit_code c) (keeps_refl _ s),
      keepsMem_of_exec rfl hexec⟩
  case heldOff =>
    intro c s hoff hidle hwait
    exact exec_interruptEntry_idle (not_lineWakes hidle hwait) (.inl fun hat => Bool.false_ne_true (hat.1.symm.trans hoff))
  case noBoundary =>
    intro c s hstate
    have hat : ¬ s.atBoundary (cdie c) c.k := by
      rintro ⟨-, ⟨hrun, hsettled⟩ | hidle | hwait⟩
      · rcases hstate with ⟨-, hunsettled⟩ | h
        · exact Bool.false_ne_true (hunsettled.symm.trans hsettled)
        · omega
      · omega
      · omega
    exact exec_interruptEntry_idle (not_lineWakes (by omega) (.inl (by omega))) (.inl hat)
  case stopped =>
    rintro c s (hstill | hhalt | ⟨hidle, hline⟩)
    · exact congrArg Host.Outcome.next (interrupt_stopped (.inl hstill))
    · exact congrArg Host.Outcome.next (interrupt_stopped (.inr hhalt))
    · exact exec_interruptEntry_idle (not_lineWakes hidle (.inr (.inr (lineOn_zero_of_lineTaken_none hline)))) (.inr hline)
  case doorbell =>
    intro c s
    exact ⟨_, exec_doorbell c s, State.bit_setBit_self s _ (by decide) (by decide), fun l hl => State.bit_setBit_other s _ (by decide) hl,
      rfl, keeps_setBit (by decide) (coreUnit_code c) (keeps_refl _ s), fun _ => rfl⟩

end Sys2Proof.Machine
end

section
/-! Halts of a Hammer core (R326 to R332): requests, the halt point, resume and step, debug writes, and the cross-trigger. -/

namespace Sys2Proof.Machine

theorem mayHalt_of_le {s : State} (h : 2 ≤ s.get (atDie .e0) .DBG_SESSION_LEVEL) : s.mayHalt = true := decide_eq_true h

theorem not_mayHalt_of_lt {s : State} (h : s.get (atDie .e0) .DBG_SESSION_LEVEL < 2) : s.mayHalt = false :=
  decide_eq_false (Nat.not_le.2 h)

/-! ### Requests and breakpoints (R326) -/

theorem haltRequest_pends {s : State} {d : Die} {k : Nat} (hreset : s.cstate d k ≠ 0) (hhalted : s.cstate d k ≠ 5)
    (hfree : (s.core d k).halt = none) (cause : Nat) : s.haltRequest d k cause = s.onCore d k fun r => { r with halt := some cause } :=
  if_neg (by simp [hreset, hhalted, hfree])

theorem haltRequest_ignored {s : State} {d : Die} {k : Nat}
    (h : s.cstate d k = 0 ∨ s.cstate d k = 5 ∨ (s.core d k).halt.isSome = true) (cause : Nat) : s.haltRequest d k cause = s := if_pos h

theorem exec_haltRequest_counts {s : State} (h : 2 ≤ s.get (atDie .e0) .DBG_SESSION_LEVEL) (c : CoreId) :
    exec (.haltRequest c) s = .next (s.haltRequest (cdie c) c.k 0) := congrArg Host.Outcome.next (if_pos (mayHalt_of_le h))

theorem exec_haltRequest_noSession {s : State} (h : s.get (atDie .e0) .DBG_SESSION_LEVEL < 2) (c : CoreId) :
    exec (.haltRequest c) s = .next s := congrArg Host.Outcome.next (if_neg (ne_true_of_eq_false (not_mayHalt_of_lt h)))

theorem exec_breakpointMatch_meets {c : CoreId} {point : Fin 4} {s : State} (hen : s.flag ⟨cdie c, c.k, point, 0⟩ .HMR_BKPT_EN = true)
    (hpc : s.get ⟨cdie c, c.k, point, 0⟩ .HMR_BKPT_PC = (s.core (cdie c) c.k).pc.toNat) :
    exec (.breakpointMatch c point) s = .next (s.haltRequest (cdie c) c.k 3) :=
  congrArg Host.Outcome.next (if_pos (Bool.and_eq_true_iff.2 ⟨hen, beq_iff_eq.2 hpc⟩))

theorem exec_breakpointMatch_misses {c : CoreId} {point : Fin 4} {s : State} (h : s.flag ⟨cdie c, c.k, point, 0⟩ .HMR_BKPT_EN = false ∨
    s.get ⟨cdie c, c.k, point, 0⟩ .HMR_BKPT_PC ≠ (s.core (cdie c) c.k).pc.toNat) : exec (.breakpointMatch c point) s = .next s :=
  congrArg Host.Outcome.next (if_neg fun hboth =>
    have ⟨hen, hpc⟩ := Bool.and_eq_true_iff.1 hboth
    h.elim (fun hoff => Bool.false_ne_true (hoff.symm.trans hen)) (fun hne => hne (beq_iff_eq.1 hpc)))

/-! ### The halt point (R326 to R328) -/

/-- Whether a requested halt may take effect: not at a delay slot of a core that runs, nor in reset or a halt. -/
def State.atHaltPoint (s : State) (d : Die) (k : Nat) : Prop :=
  ((s.core d k).br = none ∨ s.cstate d k ≠ 1) ∧ s.cstate d k ≠ 0 ∧ s.cstate d k ≠ 5

theorem not_atHaltPoint_iff {s : State} {d : Die} {k : Nat} : ¬ s.atHaltPoint d k ↔
    (((s.core d k).br.isSome && s.cstate d k == 1) || s.cstate d k == 0 || s.cstate d k == 5) = true := by
  rw [Bool.or_eq_true, Bool.or_eq_true, Bool.and_eq_true, ← Option.ne_none_iff_isSome]
  simp only [State.atHaltPoint, beq_iff_eq]
  tauto

theorem haltTry_idle {s : State} {d : Die} {k : Nat} (h : (s.core d k).halt = none ∨ ¬ s.atHaltPoint d k) : s.haltTry d k = s := by
  unfold State.haltTry
  cases hhalt : (s.core d k).halt with
  | none => simp only [hhalt]
  | some cause =>
    simp only [hhalt]
    exact if_pos (not_atHaltPoint_iff.1 (h.resolve_left (by simp [hhalt])))

theorem haltTry_requested {s : State} {d : Die} {k cause : Nat} (hhalt : (s.core d k).halt = some cause) (hat : s.atHaltPoint d k) :
    s.haltTry d k =
      if (s.core d k).stall = .load then s.put (atUnit d k) .HMR_DBG_STAT_PENDING 1 else s.haltNow d k cause := by
  unfold State.haltTry
  simp only [hhalt]
  exact if_neg fun hnot => not_atHaltPoint_iff.2 hnot hat

/-- The core as its halt leaves it. -/
def State.frozenCore (s : State) (d : Die) (k : Nat) : Core :=
  { s.core d k with halt := none, resv := none, under := s.cstate d k, stepping := false }

/-- What HMR_DBG_STAT shows of a halt. -/
def haltShown (cause pc : Nat) : List (Fld × Nat) :=
  [(.HMR_DBG_STAT_HALTED, 1), (.HMR_DBG_STAT_PENDING, 0), (.HMR_DBG_STAT_CAUSE, cause), (.HMR_DBG_STAT_PC, pc)]

/-- The state in which a halt is marked on the core and in the registers, before its event. -/
def State.haltMarked (s : State) (d : Die) (k cause : Nat) : State :=
  (((s.setCore d k (s.frozenCore d k)).setCstate d k 5).puts (atUnit d k) (haltShown cause (s.core d k).haltPc.toNat)).setBit (atDie d)
    .HMR_HALTED_CORES k

/-- The state in which a halt has raised HMR_HALT, before a cross-trigger. -/
def State.haltRaised (s : State) (d : Die) (k cause : Nat) : State :=
  (s.haltMarked d k cause).raise d (160 + k) (cause + (s.core d k).haltPc.toNat * 2 ^ 8)

theorem haltRaised_keeps (s : State) (c : CoreId) (cause : Nat) :
    s.keepsRegs ([.HMR_CORE_STAT, .HMR_DBG_STAT, .HMR_HALTED] ++ eventRegs) (s.haltRaised (cdie c) c.k cause) := by
  refine keeps_raise (by decide) (by omega) (keeps_setBit (by decide) (atDie_code _) (keeps_puts _ ?_ (coreUnit_code c)
    (keeps_put (by decide) (coreUnit_code c) (State.keepsRegs_of_regs rfl _))))
  simp only [haltShown, List.mem_cons, List.not_mem_nil, or_false, forall_eq_or_imp, forall_eq]
  decide

theorem haltNow_quiet {c : CoreId} {s : State} (h : s.flag (atUnit (cdie c) c.k) .HMR_DBG_CTRL_XT_OUT = false) (cause : Nat) :
    s.haltNow (cdie c) c.k cause = s.haltRaised (cdie c) c.k cause := by
  have hout : (s.haltRaised (cdie c) c.k cause).flag (atUnit (cdie c) c.k) .HMR_DBG_CTRL_XT_OUT = false :=
    (flag_of_keepsRegs (haltRaised_keeps s c cause) (coreUnit_code c) (by decide)).trans h
  exact if_neg fun hboth => Bool.false_ne_true (hout.symm.trans (Bool.and_eq_true_iff.1 hboth).1)

theorem haltRaised_core (s : State) (c : CoreId) (cause : Nat) :
    (s.haltRaised (cdie c) c.k cause).core (cdie c) c.k = s.frozenCore (cdie c) c.k :=
  (core_of_cores (Raised.cores_eq (State.raise_raised _ _ _ (by omega))) _ _).trans (setCore_core_self ..)

/-- The event and HMR_HALTED leave the core's own registers as the halt has marked them. -/
theorem haltRaised_get (s : State) (c : CoreId) (cause : Nat) {f : Fld} (hevent : f.reg ∉ eventRegs)
    (hf : Fld.HMR_HALTED_CORES.reg.ctorIdx ≠ f.reg.ctorIdx) :
    (s.haltRaised (cdie c) c.k cause).get (atUnit (cdie c) c.k) f =
      (((s.setCore (cdie c) c.k (s.frozenCore (cdie c) c.k)).setCstate (cdie c) c.k 5).puts (atUnit (cdie c) c.k)
        (haltShown cause (s.core (cdie c) c.k).haltPc.toNat)).get (atUnit (cdie c) c.k) f := by
  rw [State.haltRaised, State.get_raise _ _ _ (by omega) (coreUnit_code c) hevent, State.haltMarked, State.setBit,
    get_put_of_ne _ _ hf (atDie_code _) (coreUnit_code c)]

theorem haltRaised_cstate (s : State) (c : CoreId) (cause : Nat) : (s.haltRaised (cdie c) c.k cause).cstate (cdie c) c.k = 5 := by
  rw [State.cstate, haltRaised_get s c cause (by decide) (by decide)]
  refine (State.get_puts_apart (coreUnit_code c) _ ?_ _).trans (setCstate_cstate (by decide) _ _ _)
  simp only [haltShown, List.map_cons, List.map_nil]
  decide

/-- Each field of HMR_DBG_STAT shows the halt. -/
theorem haltRaised_shows (s : State) (c : CoreId) (cause : Nat) {f : Fld} {v : Nat}
    (hmem : (f, v) ∈ haltShown cause (s.core (cdie c) c.k).haltPc.toNat) (hreg : f.reg = .HMR_DBG_STAT) (hlo : f.lo + f.width ≤ 32) :
    (s.haltRaised (cdie c) c.k cause).get (atUnit (cdie c) c.k) f = v % 2 ^ f.width := by
  rw [haltRaised_get s c cause (by rw [hreg]; decide) (by rw [hreg]; decide)]
  refine State.get_puts_of_mem (coreUnit_code c) hmem hlo ?_ _
  simp only [haltShown, List.map_cons, List.map_nil]
  decide

theorem haltRaised_listed (s : State) (c : CoreId) (cause : Nat) :
    (s.haltRaised (cdie c) c.k cause).bit (atDie (cdie c)) .HMR_HALTED_CORES c.k = true :=
  (State.bit_congr (State.get_raise _ _ _ (by omega) (atDie_code _) (by decide)) _).trans
    (State.bit_setBit_self _ _ (by decide) c.k.isLt)

theorem haltPc_of_noBranch {r : Core} (h : r.br = none) : r.haltPc = r.pc := by rw [Core.haltPc, h]

theorem exec_haltTakesEffect (c : CoreId) (s : State) : exec (.haltTakesEffect c) s = .next (s.haltTry (cdie c) c.k) := rfl

/-! ### What late results leave alone (R327 to R329) -/

/-- The tongs of a core, its stores and what it waits for stand in `q` as in `r`. -/
structure Core.SameWaits (r q : Core) : Prop where
  run : q.run = r.run
  heldStores : q.heldStores = r.heldStores
  stall : q.stall = r.stall
  stores : q.stores = r.stores
  rewait : q.rewait = r.rewait

theorem commitOne_sameWaits (r : Core) (dest : HDest) (v : Nat) : r.SameWaits (r.commitOne dest v) := by
  cases dest <;> exact ⟨rfl, rfl, rfl, rfl, rfl⟩

/-- The core in which frozen instructions have written again what debug writes replaced (R329). -/
def Core.replayed (r : Core) : Core := r.again.foldl (fun q e => q.commitOne e.1 e.2) r

theorem replayed_sameWaits (r : Core) : r.SameWaits r.replayed := by
  refine List.foldlRecOn (motive := fun q => r.SameWaits q) r.again _ ⟨rfl, rfl, rfl, rfl, rfl⟩ fun q h e _ => ?_
  have hone := commitOne_sameWaits q e.1 e.2
  exact ⟨hone.run.trans h.run, hone.heldStores.trans h.heldStores, hone.stall.trans h.stall, hone.stores.trans h.stores,
    hone.rewait.trans h.rewait⟩

/-! ### Nothing that a resume sets going takes the tongs' transfer (R296, R327) -/

/-- The transfer of a core's tongs. -/
def State.tongsOf (s : State) (d : Die) (k : Nat) : Option TongsRun := (s.core d k).run

theorem tongsOf_of_cores {s t : State} (h : t.cores = s.cores) (d : Die) (k : Nat) : t.tongsOf d k = s.tongsOf d k :=
  congrArg Core.run (core_of_cores h d k)

theorem onCore_tongsOf {f : Core → Core} (hf : ∀ r, (f r).run = r.run) (s : State) (d : Die) (k : Nat) :
    (s.onCore d k f).tongsOf d k = s.tongsOf d k := (congrArg Core.run (onCore_core_self s d k f)).trans (hf _)

theorem goOn_tongsOf (s : State) (d : Die) (k : Nat) : (s.goOn d k).tongsOf d k = s.tongsOf d k := by
  rw [State.tongsOf, goOn_core]
  rfl

theorem unstall_tongsOf (s : State) (d : Die) (k : Nat) : (s.unstall d k).tongsOf d k = s.tongsOf d k := by
  have hstall : (s.onCore d k fun r => { r with stall := .none }).tongsOf d k = s.tongsOf d k := onCore_tongsOf (by exact fun _ => rfl) s d k
  unfold State.unstall
  dsimp only
  split
  · exact (goOn_tongsOf _ d k).trans hstall
  · exact hstall

theorem xAdmit_cores (s : State) (r : NocReq) (o : Owner) (e : Nat) (count : Bool) : (s.xAdmit r o e count).cores = s.cores := by
  unfold State.xAdmit
  dsimp only
  repeat' split
  all_goals rfl

theorem sendReq_cores (s : State) (r : NocReq) : (s.sendReq r).1.cores = s.cores := by
  unfold State.sendReq
  split
  · rfl
  · split
    · rfl
    · rfl
    · extract_lets sent counted
      have hcounted : counted.cores = s.cores := by
        simp only [counted]
        split <;> rfl
      split
      · exact hcounted
      · exact hcounted

theorem issue_cores (s : State) (r : NocReq) (o : Owner) : (s.issue r o).1.cores = s.cores := by
  unfold State.issue
  extract_lets src tag
  split
  · rfl
  · split
    · rfl
    · extract_lets entry demoted q u v
      have hv : v.cores = s.cores := by
        simp only [v, u]
        split <;> rfl
      clear_value v u q demoted entry
      cases entry with
      | some e => exact (xAdmit_cores ..).trans hv
      | none => exact (sendReq_cores ..).trans hv

theorem coreErr_cores (s : State) (d : Die) (k cause status : Nat) (pc : BitVec 15) : (s.coreErr d k cause status pc).cores = s.cores := by
  unfold State.coreErr
  dsimp only
  split <;> rfl

theorem hNocErr_tongsOf (s : State) (c : CoreId) (status : Nat) (pc : BitVec 15) :
    (s.hNocErr (cdie c) c.k status pc).tongsOf (cdie c) c.k = s.tongsOf (cdie c) c.k := by
  refine (tongsOf_of_cores ?_ _ _).trans (onCore_tongsOf (f := fun r => r.setSticky 9) (fun _ => rfl) s _ _)
  exact (Raised.cores_eq (State.raise_raised _ _ _ (by omega))).trans (coreErr_cores ..)

theorem sendStore_tongsOf (s : State) (c : CoreId) (r : NocReq) (pc : Nat) :
    (s.sendStore (cdie c) c.k r pc).tongsOf (cdie c) c.k = s.tongsOf (cdie c) c.k := by
  unfold State.sendStore
  extract_lets q
  have hissue := tongsOf_of_cores (issue_cores s q (.coreStore pc)) (cdie c) c.k
  generalize s.issue q (.coreStore pc) = issued at hissue ⊢
  obtain ⟨t, status⟩ := issued
  cases status with
  | none => exact (onCore_tongsOf (by exact fun _ => rfl) ..).trans hissue
  | some status => exact (hNocErr_tongsOf ..).trans hissue

theorem moreStores_tongsOf (s : State) (c : CoreId) : (s.moreStores (cdie c) c.k).tongsOf (cdie c) c.k = s.tongsOf (cdie c) c.k := by
  unfold State.moreStores
  split
  · rfl
  · extract_lets held cleared stored
    have hstored : stored.tongsOf (cdie c) c.k = s.tongsOf (cdie c) c.k := by
      refine List.foldlRecOn (motive := fun t : State => t.tongsOf (cdie c) c.k = s.tongsOf (cdie c) c.k) held _
        (onCore_tongsOf (by exact fun _ => rfl) s _ _) fun t ht e _ => ?_
      split
      · exact (sendStore_tongsOf ..).trans ht
      · exact (onCore_tongsOf (by exact fun _ => rfl) ..).trans ht
    have hunstalled := (unstall_tongsOf stored (cdie c) c.k).trans hstored
    split
    · split
      · exact hunstalled
      · exact hstored
    · split
      · exact hunstalled
      · exact hstored
    · exact hstored

theorem tngSync_tongsOf (s : State) (d : Die) (k : Nat) : (s.tngSync d k).tongsOf d k = s.tongsOf d k := by
  unfold State.tngSync
  dsimp only
  split
  · rfl
  · split
    · split
      · exact unstall_tongsOf _ d k
      · rfl
    · rfl

/-! ### Resume and step (R312, R327, R329, R330) -/

/-- A halt released, as far as the core and its halt's marks in HMR_DBG_STAT go. -/
def State.unfrozen (s : State) (d : Die) (k : Nat) (step : Bool) : State :=
  ((s.setCstate d k (s.core d k).under).put (atUnit d k) .HMR_DBG_STAT_HALTED 0).onCore d k fun r =>
    { r.again.foldl (fun q e => q.commitOne e.1 e.2) r with stepping := step, again := [] }

/-- A halt released and its watchdog reloaded, before the stores and waits that it froze go on. -/
def State.rewatched (s : State) (d : Die) (k : Nat) (step : Bool) : State :=
  ((s.unfrozen d k step).clrBit (atDie d) .HMR_HALTED_CORES k).coreWdogReload d k

/-- A halt released, before its tongs go on. -/
def State.released (s : State) (d : Die) (k : Nat) (step : Bool) : State := ((s.rewatched d k step).moreStores d k).tngSync d k

theorem haltEnd_halted {s : State} {d : Die} {k : Nat} (h : s.cstate d k = 5) (step : Bool) :
    s.haltEnd d k step = (s.released d k step).tngUnhalt d k := if_neg (not_not.2 h)

theorem haltEnd_running {s : State} {d : Die} {k : Nat} (h : s.cstate d k ≠ 5) (step : Bool) : s.haltEnd d k step = s := if_pos h

theorem coreWdogReload_keeps {L : List Reg} (hL : .HMR_WDOG_STAT ∈ L) {s t : State} (h : s.keepsRegs L t) (c : CoreId) :
    s.keepsRegs L (t.coreWdogReload (cdie c) c.k) := keeps_puts _ (by simpa using ⟨hL, hL⟩) (coreUnit_code c) h

/-- A watchdog's reload leaves every other register of its core as it was. -/
theorem coreWdogReload_get (s : State) (c : CoreId) {f : Fld} (hf : Reg.HMR_WDOG_STAT.ctorIdx ≠ f.reg.ctorIdx) {a : At}
    (ha : a.code < 2 ^ 44) : (s.coreWdogReload (cdie c) c.k).get a f = s.get a f :=
  State.get_of_keepsRegs (coreWdogReload_keeps (L := [.HMR_WDOG_STAT]) (by decide) (keeps_refl _ s) c) ha
    fun hmem => hf (congrArg Reg.ctorIdx (List.mem_singleton.1 hmem).symm)

theorem rewatched_core (s : State) (d : Die) (k : Nat) (step : Bool) : (s.rewatched d k step).core d k =
    { (s.core d k).replayed with stepping := step, again := [] } := by
  refine (core_of_cores (s := (s.unfrozen d k step).clrBit (atDie d) .HMR_HALTED_CORES k) rfl d k).trans ?_
  rw [clrBit_core, State.unfrozen, onCore_core_self]
  rfl

theorem rewatched_sameWaits (s : State) (d : Die) (k : Nat) (step : Bool) :
    (s.core d k).SameWaits ((s.rewatched d k step).core d k) := by
  rw [rewatched_core]
  have h := replayed_sameWaits (s.core d k)
  exact ⟨h.run, h.heldStores, h.stall, h.stores, h.rewait⟩

theorem rewatched_keeps {L : List Reg} (hL : ∀ r ∈ [Reg.HMR_CORE_STAT, .HMR_DBG_STAT, .HMR_HALTED, .HMR_WDOG_STAT], r ∈ L) (s : State)
    (c : CoreId) (step : Bool) : s.keepsRegs L (s.rewatched (cdie c) c.k step) :=
  have hcode := coreUnit_code c
  coreWdogReload_keeps (hL _ (by decide)) (keeps_clrBit (hL _ (by decide)) (atDie_code _)
    (onCore_keeps (keeps_put (hL _ (by decide)) hcode (keeps_put (hL _ (by decide)) hcode (keeps_refl L s))) _ _ _)) c

/-- What HMR_HALTED and the watchdog do not hold reads as the core's release has left it. -/
theorem rewatched_get (s : State) (c : CoreId) (step : Bool) {f : Fld} (hf : f.reg ∉ [Reg.HMR_HALTED, .HMR_WDOG_STAT]) :
    (s.rewatched (cdie c) c.k step).get (atUnit (cdie c) c.k) f = (s.unfrozen (cdie c) c.k step).get (atUnit (cdie c) c.k) f :=
  State.get_of_keepsRegs (coreWdogReload_keeps (by decide) (keeps_clrBit (by decide) (atDie_code _) (keeps_refl _ _)) c)
    (coreUnit_code c) hf

theorem rewatched_cstate (s : State) (c : CoreId) (step : Bool) :
    (s.rewatched (cdie c) c.k step).cstate (cdie c) c.k = (s.core (cdie c) c.k).under % 8 := by
  rw [State.cstate, rewatched_get s c step (by decide)]
  exact (State.get_put_apart (by decide) (coreUnit_code c) _ 0).trans (State.get_put_self _ _ .HMR_CORE_STAT_STATE _ (by decide))

theorem rewatched_halted (s : State) (c : CoreId) (step : Bool) :
    (s.rewatched (cdie c) c.k step).get (atUnit (cdie c) c.k) .HMR_DBG_STAT_HALTED = 0 :=
  (rewatched_get s c step (by decide)).trans (State.get_put_self _ _ .HMR_DBG_STAT_HALTED 0 (by decide))

theorem rewatched_unlisted (s : State) (c : CoreId) (step : Bool) :
    (s.rewatched (cdie c) c.k step).bit (atDie (cdie c)) .HMR_HALTED_CORES c.k = false :=
  (State.bit_congr (coreWdogReload_get _ c (by decide) (atDie_code _)) _).trans (State.bit_clrBit_self _ _ _ (by decide))

theorem released_tongsOf (s : State) (c : CoreId) (step : Bool) :
    (s.released (cdie c) c.k step).tongsOf (cdie c) c.k = s.tongsOf (cdie c) c.k :=
  (tngSync_tongsOf ..).trans ((moreStores_tongsOf _ c).trans (rewatched_sameWaits ..).run)

theorem released_held (s : State) (d : Die) (k : Nat) (step : Bool) : (s.released d k step).held = s.held :=
  State.tngSync_held (State.moreStores_held (State.coreWdogReload_held (State.clrBit_held rfl)))

theorem tngUnhalt_none {s : State} {d : Die} {k : Nat} (h : s.tongsOf d k = none) : s.tngUnhalt d k = s := by
  unfold State.tngUnhalt
  rw [show (s.core d k).run = none from h]

theorem tngUnhalt_some {s : State} {d : Die} {k : Nat} {run : TongsRun} (h : s.tongsOf d k = some run) :
    s.tngUnhalt d k = State.tngGo (tngFuel run) s d k := by
  unfold State.tngUnhalt
  rw [show (s.core d k).run = some run from h]

theorem haltEnd_noTongs {s : State} {c : CoreId} (h : s.cstate (cdie c) c.k = 5) (hrun : (s.core (cdie c) c.k).run = none) (step : Bool) :
    s.haltEnd (cdie c) c.k step = s.released (cdie c) c.k step :=
  (haltEnd_halted h step).trans (tngUnhalt_none ((released_tongsOf s c step).trans hrun))

theorem haltEnd_tongs {s : State} {c : CoreId} {run : TongsRun} (h : s.cstate (cdie c) c.k = 5)
    (hrun : (s.core (cdie c) c.k).run = some run) (step : Bool) :
    s.haltEnd (cdie c) c.k step = State.tngGo (tngFuel run) (s.released (cdie c) c.k step) (cdie c) c.k :=
  (haltEnd_halted h step).trans (tngUnhalt_some ((released_tongsOf s c step).trans hrun))

theorem core_of_idle {r : Core} (hheld : r.heldStores = []) (hstall : r.stall = .none) :
    { r with heldStores := [], stall := .none } = r := by
  rw [← hheld, ← hstall]

/-- A core with no store held and no stall has nothing that could go on. -/
theorem moreStores_idle {s : State} {d : Die} {k : Nat} (hheld : (s.core d k).heldStores = []) (hstall : (s.core d k).stall = .none) :
    (s.moreStores d k).core d k = s.core d k ∧ (s.moreStores d k).regs = s.regs := by
  unfold State.moreStores
  split
  · exact ⟨rfl, rfl⟩
  · simp only [hheld, List.foldl_nil, onCore_core_self, hstall]
    exact ⟨core_of_idle hheld hstall, rfl⟩

/-- A SYNC whose stores are all answered ends (R294). -/
theorem moreStores_sync {s : State} {d : Die} {k : Nat} (hstate : s.cstate d k = 3) (hheld : (s.core d k).heldStores = [])
    (hstores : (s.core d k).stores = 0) (hstall : (s.core d k).stall = .sync) : s.moreStores d k =
      (s.onCore d k fun r => { r with heldStores := [] }).unstall d k := by
  unfold State.moreStores
  rw [if_neg (by omega)]
  simp only [hheld, List.foldl_nil, onCore_core_self, hstall, hstores, and_self, if_true]

theorem unstall_runs {s : State} {d : Die} {k : Nat} (hstate : s.cstate d k = 3) (hwait : (s.core d k).rewait = false) :
    s.unstall d k = (s.onCore d k fun r => { r with stall := .none }).setCstate d k 1 := by
  unfold State.unstall
  refine (if_pos hstate).trans (goOn_runs ?_)
  rw [onCore_core_self]
  simp only [Core.backToWait, hwait, Bool.false_and]

theorem tngSync_unstalled {s : State} {d : Die} {k : Nat} (h : (s.core d k).stall = .none) :
    s.tngSync d k = s.put (atUnit d k) .HMR_TNG_STAT_QUEUED (s.core d k).queued := by
  unfold State.tngSync
  simp only [h, ite_self]

/-- The registers that the release of a halt may change, where the tongs stand still. -/
def releaseRegs : List Reg := [.HMR_CORE_STAT, .HMR_DBG_STAT, .HMR_HALTED, .HMR_WDOG_STAT, .HMR_TNG_STAT]

/-- The release of a core that neither stores nor stalls: frozen instructions write again, and it is as it was before the halt. -/
theorem released_unstalled {s : State} {c : CoreId} (hheld : (s.core (cdie c) c.k).heldStores = [])
    (hstall : (s.core (cdie c) c.k).stall = .none) (step : Bool) : let t := s.released (cdie c) c.k step
    t.core (cdie c) c.k = { (s.core (cdie c) c.k).replayed with stepping := step, again := [] } ∧
      t.cstate (cdie c) c.k = (s.core (cdie c) c.k).under % 8 ∧ t.flag (atUnit (cdie c) c.k) .HMR_DBG_STAT_HALTED = false ∧
      t.bit (atDie (cdie c)) .HMR_HALTED_CORES c.k = false ∧ s.keepsRegs releaseRegs t := by
  have hwaits := rewatched_sameWaits s (cdie c) c.k step
  obtain ⟨hcore, hregs⟩ := moreStores_idle (hwaits.heldStores.trans hheld) (hwaits.stall.trans hstall)
  have hsync : s.released (cdie c) c.k step = _ :=
    tngSync_unstalled (by rw [hcore]; exact hwaits.stall.trans hstall)
  have hget {a : At} {f : Fld} (ha : a.code < 2 ^ 44) (hf : Reg.HMR_TNG_STAT.ctorIdx ≠ f.reg.ctorIdx) :
      (s.released (cdie c) c.k step).get a f = (s.rewatched (cdie c) c.k step).get a f := by
    rw [hsync, get_put_of_ne _ _ hf (coreUnit_code c) ha, State.get_of_regs hregs]
  refine ⟨?_, (hget (coreUnit_code c) (by decide)).trans (rewatched_cstate s c step),
    State.not_flag_of_get ((hget (coreUnit_code c) (by decide)).trans (rewatched_halted s c step)),
    (State.bit_congr (hget (atDie_code _) (by decide)) _).trans (rewatched_unlisted s c step), ?_⟩
  · rw [hsync, put_core, hcore, rewatched_core]
  · rw [hsync]
    exact keeps_put (by decide) (coreUnit_code c) (keeps_same (rewatched_keeps (by decide) s c step) hregs)

/-- The release of a core that a halt met in a SYNC whose stores are by now all answered: it runs on. -/
theorem released_sync {s : State} {c : CoreId} (hheld : (s.core (cdie c) c.k).heldStores = [])
    (hstall : (s.core (cdie c) c.k).stall = .sync) (hstores : (s.core (cdie c) c.k).stores = 0)
    (hunder : (s.core (cdie c) c.k).under = 3) (hwait : (s.core (cdie c) c.k).rewait = false) (step : Bool) :
    let t := s.released (cdie c) c.k step
    t.cstate (cdie c) c.k = 1 ∧ (t.core (cdie c) c.k).stall = .none ∧ t.flag (atUnit (cdie c) c.k) .HMR_DBG_STAT_HALTED = false ∧
      s.keepsRegs releaseRegs t := by
  have hcode := coreUnit_code c
  have hwaits := rewatched_sameWaits s (cdie c) c.k step
  have hstate : (s.rewatched (cdie c) c.k step).cstate (cdie c) c.k = 3 := by rw [rewatched_cstate, hunder]
  have hmore := moreStores_sync hstate (hwaits.heldStores.trans hheld) (hwaits.stores.trans hstores) (hwaits.stall.trans hstall)
  rw [unstall_runs ((onCore_cstate ..).trans hstate) (by rw [onCore_core_self]; exact hwaits.rewait.trans hwait)] at hmore
  have hnone : (((s.rewatched (cdie c) c.k step).moreStores (cdie c) c.k).core (cdie c) c.k).stall = .none := by
    rw [hmore, setCstate_core, onCore_core_self]
  have hsync : s.released (cdie c) c.k step = _ := tngSync_unstalled hnone
  refine ⟨?_, ?_, State.not_flag_of_get ?_, ?_⟩
  · rw [State.cstate, hsync, State.get_put_apart (by decide) hcode, hmore]
    exact setCstate_cstate (by decide) _ _ _
  · rw [hsync, put_core, hnone]
  · rw [hsync, State.get_put_apart (by decide) hcode, hmore, State.setCstate, State.get_put_apart (by decide) hcode, onCore_get, onCore_get]
    exact rewatched_halted s c step
  · rw [hsync, hmore]
    exact keeps_put (by decide) hcode (keeps_put (by decide) hcode
      (onCore_keeps (onCore_keeps (rewatched_keeps (by decide) s c step) _ _ _) _ _ _))

/-- Resume, or step. -/
theorem exec_debugRelease_counts {s : State} (h : 2 ≤ s.get (atDie .e0) .DBG_SESSION_LEVEL) (c : CoreId) (step : Bool) :
    exec (if step then .debugStep c else .debugResume c) s = .next (s.haltEnd (cdie c) c.k step) := by
  cases step with
  | true => exact congrArg Host.Outcome.next (if_pos (mayHalt_of_le h))
  | false => exact congrArg Host.Outcome.next (if_pos (mayHalt_of_le h))

theorem exec_debugRelease_ignored {c : CoreId} {s : State} (h : s.get (atDie .e0) .DBG_SESSION_LEVEL < 2 ∨ s.cstate (cdie c) c.k ≠ 5)
    (step : Bool) : exec (if step then .debugStep c else .debugResume c) s = .next s := by
  by_cases hlevel : 2 ≤ s.get (atDie .e0) .DBG_SESSION_LEVEL
  · rw [exec_debugRelease_counts hlevel, haltEnd_running (h.resolve_left (Nat.not_lt.2 hlevel))]
  · have hno := ne_true_of_eq_false (not_mayHalt_of_lt (Nat.not_le.1 hlevel))
    cases step with
    | true => exact congrArg Host.Outcome.next (if_neg hno)
    | false => exact congrArg Host.Outcome.next (if_neg hno)

/-! ### Debug writes (R329) -/

/-- What a debug write of a halted core leaves. -/
theorem exec_debugRegWrite_counts {c : CoreId} {s : State} (h : 2 ≤ s.get (atDie .e0) .DBG_SESSION_LEVEL)
    (hhalted : s.cstate (cdie c) c.k = 5) (value : BitVec 24) : exec (.debugRegWrite c value) s =
      .next ((s.debugPut (cdie c) c.k (s.get (atUnit (cdie c) c.k) .HMR_DBG_REG_IDX_CODE) (value.toNat % 2 ^ 24)).onCore (cdie c) c.k
        fun r => r.rewrites (codeDests (s.get (atUnit (cdie c) c.k) .HMR_DBG_REG_IDX_CODE))) :=
  congrArg Host.Outcome.next ((if_pos (mayHalt_of_le h)).trans (if_pos hhalted))

theorem exec_debugRegWrite_ignored {c : CoreId} {s : State} (h : s.get (atDie .e0) .DBG_SESSION_LEVEL < 2 ∨ s.cstate (cdie c) c.k ≠ 5)
    (value : BitVec 24) : exec (.debugRegWrite c value) s = .next s := by
  by_cases hlevel : 2 ≤ s.get (atDie .e0) .DBG_SESSION_LEVEL
  · exact congrArg Host.Outcome.next ((if_pos (mayHalt_of_le hlevel)).trans (if_neg (h.resolve_left (Nat.not_lt.2 hlevel))))
  · exact congrArg Host.Outcome.next (if_neg (ne_true_of_eq_false (not_mayHalt_of_lt (Nat.not_le.1 hlevel))))

theorem debugPut_x {code : Nat} (h : code < 16) (s : State) (d : Die) (k v : Nat) :
    s.debugPut d k code v = s.onCore d k fun r => { r with x := Tbl.set r.x code (BitVec.ofNat 24 v) } := if_pos h

/-- The core after a debug write of its PC: no repeat, and no branch before DE. -/
def Core.pcWritten (r : Core) (v : Nat) : Core :=
  { (if r.br.any (·.restore) then r.unshadow else r) with pc := BitVec.ofNat 15 v, ld := 0, rpt := false, br := none }

theorem debugPut_pc (s : State) (d : Die) (k v : Nat) :
    s.debugPut d k 0x48 v = (s.onCore d k fun r => r.pcWritten v).put (atUnit d k) .HMR_DBG_STAT_PC v := rfl

/-! ### The cross-trigger (R332) -/

/-- What a cross-trigger does to one core. -/
def State.xtCore (d : Die) (s : State) (k : Nat) : State :=
  if s.flag (atUnit d k) .HMR_DBG_CTRL_XT_IN && s.cstate d k != 0 && s.cstate d k != 5 && (s.core d k).halt.isNone then
    s.onCore d k fun r => { r with halt := some 1 }
  else s

/-- What a cross-trigger does on one die. -/
def State.xtDie (s : State) (d : Die) : State :=
  if d.isFab && s.up d then (List.range 8).foldl (State.xtCore d) (s.bump (atDie d) .HMR_XTRIG_CNT_COUNT 1) else s

/-- The one member of a list that brings a property about brings it about for a fold, if every member keeps it and the invariant that
the member needs. -/
theorem foldl_reaches {α β : Type} {f : β → α → β} {l : List α} {a : α} (ha : a ∈ l) {I Q : β → Prop} (hI : ∀ t x, I t → I (f t x))
    (hreach : ∀ t, I t → Q (f t a)) (hQ : ∀ t x, Q t → Q (f t x)) {s : β} (h : I s) : Q (l.foldl f s) := by
  induction l generalizing s with
  | nil => exact absurd ha List.not_mem_nil
  | cons x l ih =>
    rcases List.mem_cons.1 ha with rfl | hmem
    · exact List.foldlRecOn l f (hreach s h) fun t ht y _ => hQ t y ht
    · exact ih hmem (hI s x h)

/-- A cross-trigger's step leaves a core's halt request as it was, or requests a halt with its own cause. -/
def State.xtStep (c : CoreId) (s t : State) : Prop :=
  s.keepsRegs [.HMR_XTRIG_CNT] t ∧ ((t.at_ c).halt = (s.at_ c).halt ∨ (t.at_ c).halt = some 1)

theorem xtStep_refl (c : CoreId) (s : State) : s.xtStep c s := ⟨keeps_refl _ s, .inl rfl⟩

theorem xtStep_trans {c : CoreId} {s t u : State} (h : s.xtStep c t) (h' : t.xtStep c u) : s.xtStep c u := by
  obtain ⟨hkeeps, hhalt⟩ := h
  obtain ⟨hkeeps', hhalt'⟩ := h'
  refine ⟨keeps_trans hkeeps hkeeps', ?_⟩
  rcases hhalt' with heq | hnew
  · rw [heq]
    exact hhalt
  · exact .inr hnew

theorem xtStep_requested {c : CoreId} {s t : State} (h : s.xtStep c t) (hs : (s.at_ c).halt = some 1) : (t.at_ c).halt = some 1 :=
  h.2.elim (fun heq => heq.trans hs) id

theorem xtCore_step (c : CoreId) (s : State) (d : Die) (k : Nat) : s.xtStep c (s.xtCore d k) := by
  unfold State.xtCore
  split
  · refine ⟨State.keepsRegs_of_regs rfl _, ?_⟩
    by_cases hkey : coreKey (cdie c) c.k = coreKey d k
    · right
      simp only [State.at_, State.core, State.onCore, State.setCore, State.setCores_cores, hkey, Tbl.get_set_self]
    · left
      exact congrArg Core.halt (Tbl.get_set_ne _ _ _ hkey)
  · exact xtStep_refl c s

theorem xtBump_step (c : CoreId) (s : State) (d : Die) : s.xtStep c (s.bump (atDie d) .HMR_XTRIG_CNT_COUNT 1) :=
  ⟨keeps_bump (by decide) (atDie_code d) (keeps_refl _ s), .inl rfl⟩

theorem xtDie_step (c : CoreId) (s : State) (d : Die) : s.xtStep c (s.xtDie d) := by
  unfold State.xtDie
  split
  · exact List.foldlRecOn (motive := s.xtStep c) _ _ (xtBump_step c s d) fun t ht k _ => xtStep_trans ht (xtCore_step c t d k)
  · exact xtStep_refl c s

theorem crossTrigger_step (c : CoreId) (s : State) : s.xtStep c s.crossTrigger :=
  List.foldlRecOn (motive := s.xtStep c) Die.all State.xtDie (xtStep_refl c s) fun t ht d _ => xtStep_trans ht (xtDie_step c t d)

/-- Whether a cross-trigger reaches a core: it is listening, on a die that is up, out of reset and not halted. -/
def State.xtListens (s : State) (c : CoreId) : Prop := s.up (cdie c) = true ∧
  s.flag (atUnit (cdie c) c.k) .HMR_DBG_CTRL_XT_IN = true ∧ s.cstate (cdie c) c.k ≠ 0 ∧ s.cstate (cdie c) c.k ≠ 5

theorem xtListens_of_keepsRegs {c : CoreId} {s t : State} (h : s.keepsRegs [.HMR_XTRIG_CNT] t) (hlisten : s.xtListens c) :
    t.xtListens c := by
  have hup : t.up (cdie c) = s.up (cdie c) := by
    rw [State.up, State.dieSt, State.get_of_keepsRegs h (atDie_code .e0) (by simp [Fld.DIE_STATE_ST])]
    rfl
  rw [State.xtListens, hup, flag_of_keepsRegs h (coreUnit_code c) (by decide), cstate_of_keepsRegs h (by decide)]
  exact hlisten

/-- The halt that a cross-trigger requests of a core on its way, from a state in which no other cause waits. -/
theorem xtCore_reaches {c : CoreId} {s t : State} (h : s.xtStep c t) (hlisten : s.xtListens c) (hfree : (s.at_ c).halt = none) :
    ((t.xtCore (cdie c) c.k).at_ c).halt = some 1 := by
  rcases h.2 with heq | hnew
  · obtain ⟨-, hin, hreset, hhalted⟩ := xtListens_of_keepsRegs h.1 hlisten
    have hnone : (t.core (cdie c) c.k).halt = none := heq.trans hfree
    rw [State.xtCore, if_pos (by simp [hin, hreset, hhalted, hnone])]
    exact congrArg Core.halt (onCore_core_self ..)
  · exact xtStep_requested (xtCore_step c t _ _) hnew

theorem crossTrigger_reaches {c : CoreId} {s : State} (hlisten : s.xtListens c) (hfree : (s.at_ c).halt = none) :
    (s.crossTrigger.at_ c).halt = some 1 := by
  have hdie : cdie c ∈ Die.all := by cases cdie c <;> decide
  have hfab : (cdie c).isFab = true := by
    obtain ⟨die, k⟩ := c
    cases die <;> rfl
  refine foldl_reaches hdie (I := s.xtStep c) (Q := fun t => (t.at_ c).halt = some 1)
    (fun t d ht => xtStep_trans ht (xtDie_step c t d)) (fun t ht => ?_) (fun t d => xtStep_requested (xtDie_step c t d)) (xtStep_refl c s)
  obtain ⟨hup, -⟩ := xtListens_of_keepsRegs ht.1 hlisten
  rw [State.xtDie, if_pos (by simp [hfab, hup])]
  exact foldl_reaches (List.mem_range.2 c.k.isLt) (I := s.xtStep c) (fun u k hu => xtStep_trans hu (xtCore_step c u _ k))
    (fun u hu => xtCore_reaches hu hlisten hfree) (fun u k => xtStep_requested (xtCore_step c u _ k))
    (xtStep_trans ht (xtBump_step c t (cdie c)))

theorem exec_crossTriggerFire_counts {s : State} (h : 2 ≤ s.get (atDie .e0) .DBG_SESSION_LEVEL) :
    exec .crossTriggerFire s = .next s.crossTrigger := congrArg Host.Outcome.next (if_pos (mayHalt_of_le h))

theorem exec_crossTriggerFire_noSession {s : State} (h : s.get (atDie .e0) .DBG_SESSION_LEVEL < 2) :
    exec .crossTriggerFire s = .next s := congrArg Host.Outcome.next (if_neg (ne_true_of_eq_false (not_mayHalt_of_lt h)))

/-- Settles O36, clause by clause: requests and breakpoints, the halt point, resume and step, debug writes and the cross-trigger. -/
theorem haltCommandsRun : Obligations.HaltCommandsRun := by
  unfold Obligations.HaltCommandsRun
  refine ⟨?requested, ?requestIgnored, ?bkptMeets, ?bkptMisses, ?halts, ?loadPends, ?noHalt, ?released, ?syncEnds, ?tongsGoOn,
    ?releaseIgnored, ?xWritten, ?pcWritten, ?written, ?writeIgnored, ?fires, ?fireIgnored⟩
  case requested =>
    intro c s hlevel hreset hhalted hfree
    exact ⟨_, (exec_haltRequest_counts hlevel c).trans (congrArg Host.Outcome.next (haltRequest_pends hreset hhalted hfree 0)),
      onCore_core_self .., State.keepsRegs_of_regs rfl _, fun _ => rfl⟩
  case requestIgnored =>
    intro c s h
    by_cases hlevel : 2 ≤ s.get (atDie .e0) .DBG_SESSION_LEVEL
    · rw [exec_haltRequest_counts hlevel, haltRequest_ignored (h.resolve_left (Nat.not_lt.2 hlevel))]
    · exact exec_haltRequest_noSession (Nat.not_le.1 hlevel) c
  case bkptMeets =>
    intro c point s hen hpc hreset hhalted hfree
    exact ⟨_, (exec_breakpointMatch_meets hen hpc).trans (congrArg Host.Outcome.next (haltRequest_pends hreset hhalted hfree 3)),
      onCore_core_self .., State.keepsRegs_of_regs rfl _, fun _ => rfl⟩
  case bkptMisses =>
    intro c point s h
    exact exec_breakpointMatch_misses h
  case halts =>
    intro c cause s hhalt hbr hreset hhalted hstall hout
    have htry := (haltTry_requested hhalt ⟨hbr, hreset, hhalted⟩).trans ((if_neg hstall).trans (haltNow_quiet hout cause))
    have hexec := (exec_haltTakesEffect c s).trans (congrArg Host.Outcome.next htry)
    have hshows {f : Fld} {v : Nat} := haltRaised_shows s c cause (f := f) (v := v)
    have hpc : (s.haltRaised (cdie c) c.k cause).get (atUnit (cdie c) c.k) .HMR_DBG_STAT_PC = (s.core (cdie c) c.k).haltPc.toNat :=
      (hshows (by simp [haltShown]) rfl (by decide)).trans (Nat.mod_eq_of_lt (BitVec.isLt _))
    exact ⟨_, hexec, haltRaised_cstate s c cause, haltRaised_core s c cause,
      State.flag_of_get (hshows (v := 1) (by simp [haltShown]) rfl (by decide)),
      State.not_flag_of_get (hshows (v := 0) (by simp [haltShown]) rfl (by decide)), hshows (by simp [haltShown]) rfl (by decide), hpc,
      fun hnone => hpc.trans (congrArg BitVec.toNat (haltPc_of_noBranch hnone)), haltRaised_listed s c cause,
      haltRaised_keeps s c cause, keepsMem_of_exec rfl hexec⟩
  case loadPends =>
    intro c cause s hhalt hbr hreset hhalted hstall
    have htry := (haltTry_requested hhalt ⟨hbr, hreset, hhalted⟩).trans (if_pos hstall)
    exact ⟨_, (exec_haltTakesEffect c s).trans (congrArg Host.Outcome.next htry),
      State.flag_of_get (State.get_put_self _ _ .HMR_DBG_STAT_PENDING 1 (by decide)), rfl,
      keeps_put (by decide) (coreUnit_code c) (keeps_refl _ s), fun _ => rfl⟩
  case noHalt =>
    intro c s h
    refine congrArg Host.Outcome.next (haltTry_idle (h.imp_right ?_))
    rintro (⟨hbr, hrun⟩ | hreset | hhalted) ⟨hpoint, hnot, hnot'⟩
    · rcases hpoint with hnone | hne
      · exact Option.ne_none_iff_isSome.2 hbr hnone
      · exact hne hrun
    · exact hnot hreset
    · exact hnot' hhalted
  case released =>
    intro c s hlevel hhalted hrun hheld hstall
    have hrelease (step : Bool) := (exec_debugRelease_counts hlevel c step).trans
      (congrArg Host.Outcome.next (haltEnd_noTongs hhalted hrun step))
    have hspec (step : Bool) := released_unstalled hheld hstall step
    constructor
    · obtain ⟨hcore, hstate, hflag, hbit, hkeeps⟩ := hspec false
      exact ⟨_, hrelease false, hcore, hstate, hflag, hbit, hkeeps, State.keepsMem_of_held (released_held ..)⟩
    · obtain ⟨hcore, hstate, hflag, hbit, hkeeps⟩ := hspec true
      exact ⟨_, hrelease true, hcore, hstate, hflag, hbit, hkeeps, State.keepsMem_of_held (released_held ..)⟩
  case syncEnds =>
    intro c s hlevel hhalted hrun hheld hstall hstores hunder hwait
    obtain ⟨hstate, hnone, hflag, hkeeps⟩ := released_sync hheld hstall hstores hunder hwait false
    exact ⟨_, (exec_debugRelease_counts hlevel c false).trans (congrArg Host.Outcome.next (haltEnd_noTongs hhalted hrun false)),
      hstate, hnone, hflag, hkeeps, State.keepsMem_of_held (released_held ..)⟩
  case tongsGoOn =>
    rintro c step r s _ hlevel hhalted hrun rfl
    exact (exec_debugRelease_counts hlevel c step).trans (congrArg Host.Outcome.next (haltEnd_tongs hhalted hrun step))
  case releaseIgnored =>
    intro c s h
    exact ⟨exec_debugRelease_ignored h false, exec_debugRelease_ignored h true⟩
  case xWritten =>
    intro c value s hlevel hhalted hcode
    have hvalue : BitVec.ofNat 24 (value.toNat % 2 ^ 24) = value := by
      rw [Nat.mod_eq_of_lt value.isLt, BitVec.ofNat_toNat, BitVec.setWidth_eq]
    have hexec := exec_debugRegWrite_counts hlevel hhalted value
    rw [debugPut_x hcode, hvalue] at hexec
    refine ⟨_, hexec, fun n => ?_, ?_, State.keepsRegs_of_regs rfl _, fun _ => rfl⟩
    · rw [State.at_, onCore_core_self, onCore_core_self]
      split
      case isTrue heq =>
        rw [heq]
        exact Tbl.get_set_self ..
      case isFalse hne => exact Tbl.get_set_ne _ _ _ hne
    · rw [State.at_, onCore_core_self, onCore_core_self]
      rfl
  case pcWritten =>
    intro c value s hlevel hhalted hcode
    have hexec := exec_debugRegWrite_counts hlevel hhalted value
    rw [hcode, debugPut_pc] at hexec
    refine ⟨_, hexec, ?_, ?_, ?_, ?_, onCore_keeps (keeps_put (by decide) (coreUnit_code c) (State.keepsRegs_of_regs rfl _)) _ _ _,
      fun _ => rfl⟩
    · rw [State.at_, onCore_core_self, put_core, onCore_core_self]
      apply BitVec.eq_of_toNat_eq
      simp [Core.rewrites, Core.pcWritten]
    · rw [State.at_, onCore_core_self, put_core, onCore_core_self]
      rfl
    · rw [State.at_, onCore_core_self, put_core, onCore_core_self]
      rfl
    · refine (State.get_put_self _ _ .HMR_DBG_STAT_PC _ (by decide)).trans ?_
      exact Nat.mod_mod_of_dvd _ (by decide)
  case written =>
    intro c value s hlevel hhalted
    exact exec_debugRegWrite_counts hlevel hhalted value
  case writeIgnored =>
    intro c value s h
    exact exec_debugRegWrite_ignored h value
  case fires =>
    intro s hlevel
    have hexec := exec_crossTriggerFire_counts hlevel
    refine ⟨_, hexec, fun c hup hin hreset hhalted hfree => crossTrigger_reaches ⟨hup, hin, hreset, hhalted⟩ hfree,
      (crossTrigger_step ⟨.f0, 0⟩ s).1, keepsMem_of_exec rfl hexec⟩
  case fireIgnored =>
    intro s hlevel
    exact exec_crossTriggerFire_noSession hlevel

end Sys2Proof.Machine
end
